-- ==== Sys2Proof/Word.lean ====
section
/-! DEFINITION. The word types of the model and the plain data types that commands carry. A register word has 32 bits
and a counter 64 (R8); sequence spaces have the widths of R41. -/
namespace Sys2Proof

/-- A byte. -/
abbrev Byte := BitVec 8
/-- A register word (spec/00_scope.md, "Registers"). -/
abbrev Word := BitVec 32
/-- A 64-bit counter (R13). -/
abbrev Counter := BitVec 64
/-- A course number (R48). -/
abbrev Course := BitVec 48
/-- A packet sequence number or message sequence number (R41). -/
abbrev Psn := BitVec 24
/-- A link sequence number (R123). -/
abbrev LinkSeq := BitVec 14
/-- A ring producer or consumer counter (R217). -/
abbrev RingCtr := BitVec 32
/-- A 16-bit serial (R42, R295). -/
abbrev Serial := BitVec 16

/-- A sparse table: key and value pairs, keys rising, no entry equal to what an unlisted key reads as
(Machine/Table.lean holds the operations and the canonical form). -/
abbrev Tbl (α : Type) := List (Nat × α)

/-- A run of `len` bytes; byte k is bits 8k+7..8k of `val` (R6: byte 0 is the lowest address and the first byte sent). -/
structure Data where
  len : Nat
  val : Nat
deriving DecidableEq, Repr

/-- What a command's driver says host memory holds when the command reads it: 64-bit words at 8-byte-aligned addresses
(unlisted words are zero), and addresses whose read ends in a PCI Express error, with the cause code of R279. -/
structure HostView where
  words : List (Nat × Nat)
  bad : List (Nat × Nat)
deriving DecidableEq, Repr

/-- The outcome of one read of host memory: data, or the cause code of R279. -/
inductive ReadResult where
  | data (d : Data)
  | error (cause : Nat)
deriving DecidableEq, Repr

/-- A place in one of a function's BARs (R209): the BAR's number and the offset in it. -/
structure BarAddr where
  bar : Nat
  off : Nat
deriving DecidableEq, Repr

/-- Who makes a register access (R12, R24, R523): a function by its identity, a management core, the fabric manager
(identity 0x420), or the Imauno monitor, which acts as 0x400 with a latch of its own. -/
inductive Requester where
  | fn (identity : Nat)
  | mc (core : Nat)
  | fm
  | monitor
deriving DecidableEq, Repr

/-- How a lock-cell operation arrives (R387, R388): a CELL_OP entry of a send queue, or a write to LCK_CELL with its
priority and identity fields. -/
inductive CellVia where
  | entry (q : Nat)
  | reg (req : Requester) (cell priority identity : Nat)
deriving DecidableEq, Repr

/-- How a fabric-lock operation is asked for (R395, R403): a work entry, or a write to LCK_FL_CMD. -/
inductive FlVia where
  | entry (q : Nat)
  | cmd (req : Requester)
deriving DecidableEq, Repr

end Sys2Proof
end

