-- ==== Sys2Proof/Syntax.lean ====
section
/-! DEFINITION. The commands: one constructor for each row of spec/opcode_table.json, in the table's order, with the row's
operands. The two structures before it are operands that one bit vector each would hide. -/
namespace Sys2Proof.Machine

/-- A course-mark record (R57). -/
structure Mark where
  rootId : Nat
  course : Nat
  txOffset : Nat
  aligned : Bool
  echoTag : Nat
  turnaround : Nat
  localDepth : Nat
  globalDepth : Nat
  head : Bool
  rank : Nat
  echoValid : Bool
deriving DecidableEq, Repr

/-- A received alignment marker, without its fixed fields (R88). -/
structure Marker where
  laneIndex : Nat
  device : Nat
  port : Nat
  txMask : Nat
  rxAccept : Nat
  sleepMask : Nat
  early : Bool
  count : Nat
  bip : Nat
deriving DecidableEq, Repr

end Sys2Proof.Machine

namespace Sys2Proof

/-- The operations on the device and the events it meets, whole and indivisible (spec/95_what_each_step_holds.md). -/
inductive Instr where
  /-- R538. RESET_N is deasserted, or held off until all rails have been within limits for 2 ms; the device enters STRAP and
  fuse load begins. `boot` the level at STRAP_BOOT[1:0]; `hpmode` the level at STRAP_HPMODE; `timeroot` the level at
  STRAP_TIMEROOT. -/
  | resetDeassert (boot : Nat) (hpmode : Bool) (timeroot : Bool)
  /-- R487. The ROM self-test of every bank and logic unit completes; the device passes on to image fetch or, on an unrepairable
  failure, fences. `fails` the failing units: class, number, failing rows (0) and columns (1). -/
  | romSelfTestDone (fails : List (Nat × Nat × List (Nat × Nat)))
  /-- R538. A RESET_N low pulse of 1 µs or longer takes the device to OFF with all volatile state lost. -/
  | resetNAssert
  /-- R535. A rail stays outside its thresholds for 1 µs or longer and takes the device to OFF. `rail` 0 VIN_CORE, 1 VIN_LANE, 2
  VDD_IO. -/
  | railOutOfLimits (rail : Nat)
  /-- R524. A keyed write of GLB_RESET_CTRL.full_reset resets the device through OFF, or is refused while a thermal trip is in
  force. `req` the requester; `v` the value written. -/
  | fullReset (req : Requester) (v : Nat)
  /-- R539. PERST_N or a hot reset resets one host port and the state listed for it. `h` the host port; `perst` by PERST_N
  rather than by a hot reset. -/
  | hostPortReset (h : Nat) (perst : Bool)
  /-- R9. A write to a register with no behaviour of its own takes effect field by field under its access codes. `req` the
  requester; `off` the BAR0 offset; `size` the size of the access in bytes; `v` the value written. -/
  | registerWrite (req : Requester) (off : Nat) (size : Nat) (v : Nat)
  /-- R12. A 32-bit read of the low half of a counter or pair loads the requester's high-half latch. `req` the requester; `at_` the
  place read: in BAR0, or in BAR2 for a host function's read of its doorbell pages; `size` the size of the access in bytes. -/
  | lowHalfRead (req : Requester) (at_ : BarAddr) (size : Nat)
  /-- R525. A write of 1 to GLB_SETUP_LOCK sets the set-up lock. `req` the requester. -/
  | setupLockSet (req : Requester)
  /-- R39. A write to GLB_DEVICE_ID sets the identifier, or is discarded when bit 18 or 19 is set. `req` the requester; `v` the
  value written. -/
  | deviceIdWrite (req : Requester) (v : Nat)
  /-- R28. A mode request written to GLB_MODE_REQ is recorded as pending for the next course boundary. `req` the requester; `v`
  the value written. -/
  | modeReqWrite (req : Requester) (v : Nat)
  /-- R29. At the course boundary the last pending mode request is acted on or refused. -/
  | modeChange
  /-- R35. A fatal fault, severe source, ROM failure or thermal trip fences the device and runs the fence sequence. -/
  | enterFenced
  /-- R35. At the end of the sixteenth fenced course every fabric transmitter goes to electrical idle. -/
  | fencePeriodEnd
  /-- R48. At cycle 0 of each course the course counter increments and the periodic work of the course starts. -/
  | courseBoundary
  /-- R47. Sixteen missing reference edges or loss of core lock raise the fatal reference-loss source. -/
  | referenceLoss
  /-- R60. A course mark arriving on a port is stamped and, on the parent port, gives a phase error and a correction. `port` the
  fabric port; `m` the record. -/
  | courseMarkRx (port : Nat) (m : Machine.Mark)
  /-- R59. From the next course an aligned device follows a better root without stepping. -/
  | followBetterRoot
  /-- R61. After 16 valid marks the device steps its counter and phase at the next local boundary and raises the step event. -/
  | alignStep
  /-- R62. After 64 consecutive courses within 2 ns the device reports aligned. -/
  | aligned
  /-- R63. Eight consecutive marks beyond 24 ns set lost, raise alignment-lost and cause a new parent to be chosen. -/
  | alignLost
  /-- R67. A privileged write of CRS_ALIGN_CTRL.root or rank makes or unmakes a time root or changes its rank. `req` the
  requester; `v` the value written. -/
  | alignCtrlWrite (req : Requester) (v : Nat)
  /-- R73. The arm bit of CRS_SWAP_CTRL arms a swap at course S, or refuses with a code. `req` the requester. -/
  | swapArm (req : Requester)
  /-- R75. The disarm bit of CRS_SWAP_CTRL cancels an armed swap outside the freeze window, or refuses. `req` the requester. -/
  | swapDisarm (req : Requester)
  /-- R72. The copy bit of CRS_SWAP_CTRL starts copying the active set into the shadow, or refuses. `req` the requester. -/
  | shadowCopy (req : Requester)
  /-- R72. The shadow copy finishes and copy_busy clears. -/
  | copyDone
  /-- R71. A write to an SH register sets the shadow value, or is discarded while the shadow is armed, busy or being copied.
  `req` the requester; `off` the BAR0 offset; `v` the value written. -/
  | shadowWrite (req : Requester) (off : Nat) (v : Nat)
  /-- R76. At cycle 0 of course S the armed device exchanges the sets, increments epoch, resets buckets and raises swap-done. -/
  | swapTakeEffect
  /-- R77. After course S + LIFE − 1 the inactive set stops being busy. -/
  | shadowBusyEnd
  /-- R81. A lane receives and decodes one RS(544,514) codeword, correcting it or counting it uncorrectable. `n` the lane;
  `message` the 2,570 PAM4 levels received for its 514 message symbols, two bits each, the first lowest; `parity` likewise the 150
  levels received after them, for its 30 check symbols. -/
  | codewordRx (n : Nat) (message : Nat) (parity : Nat)
  /-- R90. Eight consecutive uncorrectable codewords lose FEC lock and take the lane out of DATA. `n` the lane. -/
  | fecLockLost (n : Nat)
  /-- R89. After 16,384 codewords a lane in DATA sends an alignment marker. `n` the lane. -/
  | markerTx (n : Nat)
  /-- R90. A received marker with a correct CRC holds marker lock, deskews and applies the far masks. `n` the lane; `m` the
  marker. -/
  | markerRx (n : Nat) (m : Machine.Marker)
  /-- R90. An expected marker is absent or bad at two consecutive positions and the lane leaves DATA. `n` the lane. -/
  | markerLockLost (n : Nat)
  /-- R105. A sleeping lane wakes on its own sleep bit clearing, signal detection or loss of the other index, and retrains. `n`
  the lane; `signal` whether a signal is detected. -/
  | sleepWake (n : Nat) (signal : Bool)
  /-- R94. A training frame with good CRCs delivers the far request and status fields. `n` the lane; `req` the request field;
  `status` the status field. -/
  | trainingFrameRx (n : Nat) (req : Nat) (status : Nat)
  /-- R93. Three consecutive frame markers give frame lock and the lane begins the tap exchange. `n` the lane. -/
  | frameLock (n : Nat)
  /-- R96. The responder applies a changed tap or preset request within 8 frames and reports status. `n` the lane. -/
  | tapResponse (n : Nat)
  /-- R96. No response within 1,024 frames fails the training attempt. `n` the lane. -/
  | tapResponseTimeout (n : Nat)
  /-- R97. SNR at or above snr_min for 64 frames sets rx_ready. `n` the lane; `snr` the signal-to-noise ratio measured; `frames`
  frames for which it has held. -/
  | rxReady (n : Nat) (snr : Nat) (frames : Nat)
  /-- R97. After rx_ready is sent and received for 16 frames the lane begins data with a marker. `n` the lane. -/
  | dataStart (n : Nat)
  /-- R98. An attempt that does not reach DATA within its limit fails, restarting from P2 or entering FAILED. `n` the lane. -/
  | trainAttemptTimeout (n : Nat)
  /-- R100. Signal absent for 1,024 frames in FRAME or TAPS fails the attempt. `n` the lane. -/
  | signalAbsentTimeout (n : Nat)
  /-- R100. A FAILED lane whose signal returns resets its attempts and restarts training. `n` the lane. -/
  | signalReturn (n : Nat)
  /-- R100. A write of LAN_LN_CTRL.restart restarts training on a FAILED lane. `n` the lane. -/
  | laneRestart (n : Nat)
  /-- R86. A lane PLL loses lock, its eight lanes go to QUIET and its source is raised. `k` the lane PLL. -/
  | pllLossOfLock (k : Nat)
  /-- R86. A lane PLL relocks and its lanes retrain. `k` the lane PLL. -/
  | pllRelock (k : Nat)
  /-- R106. A write of 1 to LAN_PT_CTRL.test puts the port in TEST, or is refused in the wrong mode. `p` the fabric port; `v`
  the value written. -/
  | testEnter (p : Nat) (v : Nat)
  /-- R100. Clearing LAN_PT_CTRL.test returns the lanes to FRAME. `p` the fabric port; `v` the value written. -/
  | testExit (p : Nat) (v : Nat)
  /-- R108. A write of inject_one flips one transmitted symbol. `n` the lane. -/
  | prbsInjectOne (n : Nat)
  /-- R107. The PRBS checker gains lock after 64 correct symbols, or loses it after 32 errors in 256. `n` the lane;
  `count` how many PAM4 levels have been received meanwhile; `low`, `mid` and `top` whether each, the first lowest, lay above the
  lowest, the middle and the highest of the three thresholds between the four levels. -/
  | prbsCheckerLock (n : Nat) (count : Nat) (low : Nat) (mid : Nat) (top : Nat)
  /-- R108. The next codeword, or every codeword while continuous, is sent with the given number of corrupted symbols. `n` the
  lane. -/
  | fecInject (n : Nat)
  /-- R126. A valid sequenced brick is accepted, discarded as a duplicate or discarded out of sequence, and is placed and
  framed. `p` the fabric port; `type` the type of the brick; `seq` the sequence number; `ack` the acknowledged number; `body`
  the body of the brick. -/
  | sequencedBrickRx (p : Nat) (type : Nat) (seq : Nat) (ack : Nat) (body : Data)
  /-- R113. A brick failing CRC is discarded whole, counted and leads to a NAK. `p` the fabric port. -/
  | brickCrcError (p : Nat)
  /-- R115. A valid brick of reserved type is discarded and counted as a protocol error. `p` the fabric port. -/
  | reservedBrickRx (p : Nat)
  /-- R121. A valid CONTROL brick delivers ack, credits, pool_off, a NAK and a course mark. `p` the fabric port; `seq` the
  sequence number; `ack` the acknowledged number; `body` the body of the brick. -/
  | controlBrickRx (p : Nat) (seq : Nat) (ack : Nat) (body : Data)
  /-- R119. An accepted ABORT ends the packet in progress and discards its remainder. `p` the fabric port; `seq` the sequence
  number; `ack` the acknowledged number; `reason` the reason. -/
  | abortBrickRx (p : Nat) (seq : Nat) (ack : Nat) (reason : Nat)
  /-- R137. A valid FENCE takes the link DOWN with cause far fenced. `p` the fabric port. -/
  | fenceBrickRx (p : Nat)
  /-- R143. An INIT brick gives an rtt sample and advances the INIT exchange, or triggers re-initialisation from UP. `p` the
  fabric port; `body` the body of the brick. -/
  | initBrickRx (p : Nat) (body : Data)
  /-- R129. A new sequenced brick is sent with the next number and kept in the replay buffer. `p` the fabric port. -/
  | brickTx (p : Nat)
  /-- R122. A CONTROL brick is sent for a credit advance, a 256-cycle credit interval or an idle slot. `p` the fabric port. -/
  | controlBrickTx (p : Nat)
  /-- R129. In REPLAY the brick at the replay point is resent and the replay point advances. `p` the fabric port. -/
  | replayBrickTx (p : Nat)
  /-- R128. The replay timer expires and a replay from the oldest unacknowledged brick begins. `p` the fabric port. -/
  | replayTimerExpiry (p : Nat)
  /-- R137. From DOWN with the PHY up and the holdoff elapsed, the link sends INIT and enters INIT. `p` the fabric port. -/
  | linkInitStart (p : Nat)
  /-- R137. After init_limit courses in INIT the link goes DOWN with cause init timeout. `p` the fabric port. -/
  | initTimeout (p : Nat)
  /-- R139. After ka_limit courses without a valid brick the link goes DOWN. `p` the fabric port. -/
  | keepaliveTimeout (p : Nat)
  /-- R137. The PHY goes down while UP and the link enters HOLD, keeping its state. `p` the fabric port. -/
  | phyDown (p : Nat)
  /-- R137. The PHY comes up in HOLD and the link starts a resume INIT. `p` the fabric port. -/
  | phyUp (p : Nat)
  /-- R137. A write of LNK_CTRL.reinit starts a resume re-initialisation. `p` the fabric port. -/
  | linkReinit (p : Nat)
  /-- R172. A route stage checks the header and lifetime and chooses the output, hub port or discard for a packet. `i` the
  input: a fabric port, or 64 + hub port. -/
  | packetRoute (i : Nat)
  /-- R166. A CONG_ROW packet is checked and kept for the next map install. `i` the fabric port. -/
  | congRowRx (i : Nat)
  /-- R166. A CONG_COL packet is checked and kept for the next map install. `i` the fabric port. -/
  | congColRx (i : Nat)
  /-- R165. Once all row updates have arrived or cycle 640 is reached, CONG_COL packets are sent to column neighbours. -/
  | congColTx
  /-- R179. A port DOWN for ra_courses courses, or fenced, becomes dead and its waiting packets are re-evaluated. `p` the fabric
  port. -/
  | portDead (p : Nat)
  /-- R179. A dead port UP for revive courses becomes live again. `p` the fabric port. -/
  | portRevive (p : Nat)
  /-- R152. A shadow write of RTE_PORT_ROLE is checked for peer or gidx collisions. `req` the requester; `p` the fabric port;
  `v` the value written. -/
  | portRoleWrite (req : Requester) (p : Nat) (v : Nat)
  /-- R162. A write of RTE_LIFE sets LIFE, or is discarded for range or a busy or armed swap. `req` the requester; `v` the value
  written. -/
  | lifeWrite (req : Requester) (v : Nat)
  /-- R194. The injection arbiter at a hub port takes a packet through window, shaper and meter and stamps birth, set tag and
  path. `h` the hub port. -/
  | packetInject (h : Nat)
  /-- R199. After the refill, deferred packets are tested again in deferral order. -/
  | deferredRetest
  /-- R187. A mortar output chooses a VC and an input and starts the next packet. `o` the output: a fabric port, or 64 + hub
  port. -/
  | outputSchedule (o : Nat)
  /-- R218. An SQ doorbell is accepted, ignored or puts the queue in ERROR as malformed. `f` the function that writes;
  `off` the offset in its BAR2; `size` the size of the access in bytes; `data` the data. -/
  | sqDoorbell (f : Nat) (off : Nat) (size : Nat) (data : Nat)
  /-- R241. A CQ doorbell sets the consumer, frees held slots, ends a stall and may arm the CQ. `f` the function that writes;
  `off` the offset in its BAR2; `size` the size of the access in bytes; `data` the data. -/
  | cqDoorbell (f : Nat) (off : Nat) (size : Nat) (data : Nat)
  /-- R241. A function event-ring doorbell sets the consumer and may arm the ring. `f` the function that writes; `off`
  the offset in its BAR2; `size` the size of the access in bytes; `data` the data. -/
  | eqDoorbell (f : Nat) (off : Nat) (size : Nat) (data : Nat)
  /-- R214. A PF's device event-ring doorbell sets the consumer of its device ring and may arm it. `f` the function that
  writes; `off` the offset in its BAR2; `d` the bytes written. -/
  | deviceEqDoorbell (f : Nat) (off : Nat) (d : Data)
  /-- R285. The command creates an endpoint after the mode, resource, quarantine and state checks. `f` the function. -/
  | epCreate (f : Nat)
  /-- R226. The command stops the endpoint at once and starts its teardown. `f` the function. -/
  | epDestroy (f : Nat)
  /-- R357. Once the admitted operations have finished, the teardown completes and the number enters quarantine. `f` the
  function. -/
  | epDestroyComplete (f : Nat)
  /-- R226. 2 × LIFE courses after destruction the endpoint number leaves quarantine. `e` the endpoint. -/
  | epQuarantineEnd (e : Nat)
  /-- R234. The command creates a send queue in READY with its counters at the start value. `f` the function. -/
  | sqCreate (f : Nat)
  /-- R227. The command stops fetch and puts the queue in DESTROYING. `f` the function. -/
  | sqDestroy (f : Nat)
  /-- R234. Once all fetched entries have retired and been reported, the queue returns to RESET. `f` the function. -/
  | sqDestroyComplete (f : Nat)
  /-- R234. The command returns an ERROR queue to READY at a new counter, or completes STATE. `f` the function. -/
  | sqRestart (f : Nat)
  /-- R242. The command creates a CQ in ACTIVE. `f` the function. -/
  | cqCreate (f : Nat)
  /-- R227. The command destroys an unbound CQ once no write to it remains. `f` the function. -/
  | cqDestroy (f : Nat)
  /-- R242. The command resets the CQ, writes the owed completions and returns it to ACTIVE. `f` the function. -/
  | cqReset (f : Nat)
  /-- R224. The command creates a function or device event ring. `f` the function. -/
  | eqCreate (f : Nat)
  /-- R227. The command destroys an event ring once no write to it remains. `f` the function. -/
  | eqDestroy (f : Nat)
  /-- R221. An undefined opcode written to HIF_FN_CMD completes at once MALFORMED, detail 0x0001. `f` the function; `op` the
  opcode. -/
  | fnCmdUndefined (f : Nat) (op : Nat)
  /-- R213. A PF write of HIF_FN_GROUPS assigns groups, or is refused and sets cfg_refused. `req` the requester; `f` the
  function; `v` the value written. -/
  | fnGroupsWrite (req : Requester) (f : Nat) (v : Nat)
  /-- R211. A Function Level Reset destroys the function's objects, resets its identity and starts its teardown. `f` the
  function. -/
  | flr (f : Nat)
  /-- R211. The reset completes and flr_busy clears. `f` the function. -/
  | flrComplete (f : Nat)
  /-- R228. The device reads up to eight entries of a READY send queue in counter order. -/
  | workFetch
  /-- R554. A descriptor read returns and its entries are checked and started, or the read fails HOST_BUS. `q` the send queue;
  `r` what the read returns. -/
  | descriptorReadReturn (q : Nat) (r : ReadResult)
  /-- R231. A NOP work entry completes OK. `q` the send queue. -/
  | nop (q : Nat)
  /-- R232. A finished entry retires in counter order and writes its completion when one is due. `q` the send queue. -/
  | entryRetire (q : Nat)
  /-- R233. Once every fetched entry of an ERROR queue has finished, one FLUSHED completion is written. `q` the send queue. -/
  | flushCompletion (q : Nat)
  /-- R240. A stall lasting past stall_limit puts the CQ in OVERFLOW and its queues in ERROR. `c` the completion queue. -/
  | cqOverflow (c : Nat)
  /-- R246. When a full event ring has space again an EVENTS_LOST entry is written first. `r` the event ring: a function, or
  0x1000 + device ring. -/
  | eventsLost (r : Nat)
  /-- R262. A translation miss starts a two-stage walk of the page tables. `u` the translation unit. -/
  | pageWalk (u : Nat)
  /-- R262. A walk read returns, and the walk continues, ends with a translation or faults. `u` the translation unit; `i` the
  walk, by its place among the walks of the unit; `r` what the read returns. -/
  | walkReadReturn (u : Nat) (i : Nat) (r : ReadResult)
  /-- R270. Unlocked entries filled tlb_age or more courses ago become invalid. `u` the translation unit. -/
  | tlbAgeExpiry (u : Nat)
  /-- R273. The entry invalidates an address range of one address space in one unit. `q` the send queue. -/
  | xltInvAddr (q : Nat)
  /-- R273. The entry invalidates every entry of one address space. `q` the send queue. -/
  | xltInvAs (q : Nat)
  /-- R273. The entry invalidates every entry of a function's address spaces and stage 2. `q` the send queue. -/
  | xltInvFn (q : Nat)
  /-- R273. The entry invalidates every entry of a unit. `q` the send queue. -/
  | xltInvAll (q : Nat)
  /-- R275. Once the accesses through removed entries have been issued and their reads completed, the completion is written. `q`
  the send queue. -/
  | xltInvComplete (q : Nat)
  /-- R277. The entry walks and locks each page of a range. `q` the send queue. -/
  | xltLock (q : Nat)
  /-- R277. The entry unlocks the locked entries of a range. `q` the send queue. -/
  | xltUnlock (q : Nat)
  /-- R288. A context record read returns and the context is cached, or created fresh. `k` the peer context, host port × 1,024 +
  slot in bits 33..22 and remote device and host port in bits 21..0; `r` what the read returns. -/
  | contextLoad (k : Nat) (r : ReadResult)
  /-- R310. An unpinned context is evicted, with a write-back when it is dirty. `k` the peer context, host port × 1,024 + slot
  in bits 33..22 and remote device and host port in bits 21..0. -/
  | contextEvict (k : Nat)
  /-- R296. A new REQ or RSP packet takes its stream's next PSN and is sent. `i` the number of the operation; `hm` what host
  memory holds when it is read. -/
  | transportSend (i : Nat) (hm : HostView)
  /-- R298. The receiving engine checks a REQ or RSP packet and accepts, discards or refuses it. `h` the hub port. -/
  | transportRx (h : Nat)
  /-- R301. coalesce cycles after the first unacknowledged acceptance, an ACK is sent. `k` the peer context, host port × 1,024 +
  slot in bits 33..22 and remote device and host port in bits 21..0; `st` 0 the request stream, 1 the response stream. -/
  | ackCoalesceExpiry (k : Nat) (st : Nat)
  /-- R301. At the end of the 64-cycle interval, one ACK serves the rate-limited causes that waited. `k` the peer context, host
  port × 1,024 + slot in bits 33..22 and remote device and host port in bits 21..0; `st` 0 the request stream, 1 the response
  stream. -/
  | ackRateRelease (k : Nat) (st : Nat)
  /-- R302. An ACK with the current gen and a newer serial acknowledges PSNs and feeds congestion control. `h` the hub port. -/
  | ackRx (h : Nat)
  /-- R292. A RESULT finishes an operation with its status, or is counted as late. -/
  | resultRx
  /-- R303. The retransmit timer expires, old unacknowledged packets are resent and backoff increases. `k` the peer context,
  host port × 1,024 + slot in bits 33..22 and remote device and host port in bits 21..0; `st` 0 the request stream, 1 the
  response stream. -/
  | retxTimerExpiry (k : Nat) (st : Nat)
  /-- R304. A packet unacknowledged for frtx_courses with enough later PSNs accepted is retransmitted early. `k` the peer
  context, host port × 1,024 + slot in bits 33..22 and remote device and host port in bits 21..0; `st` 0 the request stream, 1
  the response stream. -/
  | earlyRetx (k : Nat) (st : Nat)
  /-- R317. Once a ROLLING direction has no unacknowledged packet, the generation increments and the key is derived again. `k`
  the peer context, host port × 1,024 + slot in bits 33..22 and remote device and host port in bits 21..0. -/
  | generationRoll (k : Nat)
  /-- R322. 2 × LIFE after err_course a send direction leaves ERROR with a new generation. `k` the peer context, host port ×
  1,024 + slot in bits 33..22 and remote device and host port in bits 21..0. -/
  | ctxErrorExit (k : Nat)
  /-- R308. delay courses after a receiver-not-ready refusal, the whole operation is sent again with new PSNs. `i` the number of
  the operation. -/
  | rnrResend (i : Nat)
  /-- R323. An operation waiting resp_limit courses for a response finishes TRANSPORT, detail 0x0005. `i` the number of the
  operation. -/
  | responseTimeout (i : Nat)
  /-- R325. The TRN command installs a domain slot's key, epoch and flags, or refuses. `req` the requester. -/
  | keySet (req : Requester)
  /-- R325. The TRN command clears a domain slot. `req` the requester. -/
  | keyClear (req : Requester)
  /-- R325. The TRN command enables a context region for a host port and slot. `req` the requester. -/
  | regionSet (req : Requester)
  /-- R325. The TRN command writes back and discards the region's contexts and disables the region. `req` the requester. -/
  | regionClear (req : Requester)
  /-- R325. The TRN command puts a context's send direction in ERROR, detail 0x0003. `req` the requester. -/
  | ctxReset (req : Requester)
  /-- R325. The TRN command writes back and uncaches a region's unpinned contexts. `req` the requester. -/
  | ctxFlush (req : Requester)
  /-- R352. The entry takes an MSN and sends an eager message or a rendezvous RTS. `q` the send queue. -/
  | msgSend (q : Nat)
  /-- R343. The entry searches the unexpected messages and posts a receive when none satisfies. `q` the send queue. -/
  | msgPost (q : Nat)
  /-- R345. The entry removes the oldest posted receive with equal rx_user_data. `q` the send queue. -/
  | msgCancel (q : Nat)
  /-- R345. The entry searches for a satisfying message and optionally claims it. `q` the send queue. -/
  | msgProbe (q : Nat)
  /-- R345. The entry receives a claimed message into its buffer. `q` the send queue. -/
  | msgMrecv (q : Nat)
  /-- R347. The entry gives a landing buffer to the endpoint. `q` the send queue. -/
  | msgPostLb (q : Nat)
  /-- R348. An accepted EAGER packet is matched, reordered, landed or refused, and its payload placed. -/
  | eagerRx
  /-- R348. An accepted RTS is matched or held and starts a pull when paired. -/
  | rtsRx
  /-- R352. At the sender an RV_GET starts the RV_DATA responses, or abandons the send. -/
  | rvGetRx
  /-- R350. An RV_DATA response is written into the paired receive buffer and counted. -/
  | rvDataRx
  /-- R355. A SKIP advances or skips the MSN and frees or fails the entry. -/
  | skipRx
  /-- R355. Once the peer context can send again, a failed send's owed SKIP is sent. -/
  | skipSend
  /-- R343. When on-chip room returns, overflow posted entries move to the on-chip tail in order. `ep` the endpoint; `hm` what
  host memory holds when it is read. -/
  | overflowRefill (ep : Nat) (hm : HostView)
  /-- R356. A held rendezvous send exceeding wait_limit finishes TRANSPORT and owes a SKIP. `i` the rendezvous entry. -/
  | rvWaitTimeout (i : Nat)
  /-- R364. The entry sends PUT packets to a remote region. `q` the send queue. -/
  | rmaPut (q : Nat)
  /-- R364. The entry sends a GET to a remote region. `q` the send queue. -/
  | rmaGet (q : Nat)
  /-- R373. The entry sends a put and, when every packet has RESULT OK, a signal atomic. `q` the send queue. -/
  | rmaPutNotify (q : Nat)
  /-- R364. The entry sends one remote atomic. `q` the send queue. -/
  | rmaAtomic (q : Nat)
  /-- R366. The entry registers a region descriptor and returns its key. `q` the send queue. -/
  | keyReg (q : Nat)
  /-- R379. The entry sets the region REVOKING so that later packets are refused. `q` the send queue. -/
  | keyRevoke (q : Nat)
  /-- R379. When the key's references reach zero, the tag increments, the region is quarantined and the completion is written.
  `i` the key index. -/
  | keyRevokeComplete (i : Nat)
  /-- R380. 2 × LIFE after revoke_course the index leaves quarantine. `i` the key index. -/
  | keyQuarantineEnd (i : Nat)
  /-- R383. The entry removes cached descriptor copies of a range of indices. `q` the send queue. -/
  | keyInv (q : Nat)
  /-- R383. Once every packet admitted under a removed copy has released its reference, the entry completes. `q` the send queue. -/
  | keyInvComplete (q : Nat)
  /-- R370. A PUT is checked, translated and written, then answered by a RESULT. -/
  | putRx
  /-- R371. A GET is checked and answered by GET_DATA read page by page. -/
  | getRx
  /-- R374. An ATOMIC is checked and queued for the memory-side atomic unit. -/
  | atomicRx
  /-- R375. The atomic unit performs the read-modify-write under the line interlock and answers. `id` the number of the atomic. -/
  | atomicExecute (id : Nat)
  /-- R376. A PCI Express AtomicOp completion ends the atomic or drives another CAS retry. `id` the number of the atomic; `r`
  what the read returns. -/
  | atomicopCompletion (id : Nat) (r : ReadResult)
  /-- R384. A GET_DATA response is written to the local destination. -/
  | getDataRx
  /-- R384. An ATOMIC_DATA response writes the old value to the result address. -/
  | atomicDataRx
  /-- R389. An acquire by register or CELL_OP takes, waits on or is refused a lock cell. `via` how the operation arrives. -/
  | cellAcquire (via : CellVia)
  /-- R401. A CELL_OP try takes a free cell or returns at once without registering. `q` the send queue. -/
  | cellTry (q : Nat)
  /-- R390. A release by the owner hands the cell to the best waiter or frees it. `via` how the operation arrives. -/
  | cellRelease (via : CellVia)
  /-- R389. A withdraw removes the identity from the waiter list. `via` how the operation arrives. -/
  | cellWithdraw (via : CellVia)
  /-- R399. The entry or LCK_FL_CMD takes a held-lock record and sends FL_TAKE. `via` how the operation arrives. -/
  | flAcquire (via : FlVia)
  /-- R399. The entry or command releases a held fabric lock. `via` how the operation arrives. -/
  | flRelease (via : FlVia)
  /-- R399. The entry or command renews the lease of a held fabric lock. `via` how the operation arrives. -/
  | flRenew (via : FlVia)
  /-- R401. The entry or command breaks a fabric lock whose lease has passed. `via` how the operation arrives. -/
  | flBreak (via : FlVia)
  /-- R399. Every poll courses a WAITING record sends FL_POLL. `i` the held-lock record. -/
  | flPollSend (i : Nat)
  /-- R396. At the target, TAKE issues a ticket and claims it when it is being served. `hm` what host memory holds when it is
  read. -/
  | flTakeRx (hm : HostView)
  /-- R396. At the target, POLL claims, reports WAITING or reports PASSED. `hm` what host memory holds when it is read. -/
  | flPollRx (hm : HostView)
  /-- R396. At the target, RELEASE advances serving and sets the next lease. `hm` what host memory holds when it is read. -/
  | flReleaseRx (hm : HostView)
  /-- R396. At the target, RELEASE with abandoned set advances serving. `hm` what host memory holds when it is read. -/
  | flReleaseAbandonedRx (hm : HostView)
  /-- R396. At the target, RENEW extends the holder's lease. `hm` what host memory holds when it is read. -/
  | flRenewRx (hm : HostView)
  /-- R396. At the target, BREAK advances serving past a lapsed ticket. `hm` what host memory holds when it is read. -/
  | flBreakRx (hm : HostView)
  /-- R399. An FL_REPLY updates the held-lock record and finishes the entry or command. -/
  | flReplyRx
  /-- R412. The entry joins the endpoint to a tree as a local member. `q` the send queue. -/
  | colJoin (q : Nat)
  /-- R412. The entry frees the member record and fails any open operation. `q` the send queue. -/
  | colLeave (q : Nat)
  /-- R419. The entry is admitted as a collective contribution with the member's next csn. `q` the send queue. -/
  | colOp (q : Nat)
  /-- R421. A local member's chunk is read once the window permits. `t` the tree; `ep` the endpoint; `hm` what host memory holds
  when it is read. -/
  | memberChunkRead (t : Nat) (ep : Nat) (hm : HostView)
  /-- R416. A COL_UP from a child is checked and folded into the chunk's slots. -/
  | colUpRx
  /-- R423. A READY chunk is sent up in stream order. `t` the tree. -/
  | chunkSendUp (t : Nat)
  /-- R423. A COL_DOWN payload is stored, forwarded to children and written to members. -/
  | colDownRx
  /-- R435. A COL_ABORT puts the tree in ERROR and floods on. -/
  | colAbortRx
  /-- R434. An operation open at the root beyond op_limit courses puts the tree in ERROR. `t` the tree. -/
  | colOpTimeout (t : Nat)
  /-- R408. A shadow write of COL_TREE is checked for definition and slot commitment. `req` the requester; `t` the tree; `w` the
  word; `v` the value written. -/
  | colTreeWrite (req : Requester) (t : Nat) (w : Nat) (v : Nat)
  /-- R433. The COL command writes the shadow set's tree key. `req` the requester. -/
  | treeKeySet (req : Requester)
  /-- R437. The COL command schedules a tree in ERROR to resume at csn c and course K. `req` the requester. -/
  | resume (req : Requester)
  /-- R437. At cycle 0 of course K the tree returns to OK with low_csn c. `t` the tree. -/
  | treeResumeEffect (t : Nat)
  /-- R443. A write to a window entry changes it, or is discarded for words 0–2 while enabled. `req` the requester; `fn` the
  function; `j` the window; `w` the word; `v` the value written. -/
  | windowEntryWrite (req : Requester) (fn : Nat) (j : Nat) (w : Nat) (v : Nat)
  /-- R446. An accepted BAR4 write becomes one put for each run of enabled bytes. `fn` the function; `off` the BAR4 offset; `d`
  the bytes; `be` the byte enables. -/
  | bar4Write (fn : Nat) (off : Nat) (d : Data) (be : Nat)
  /-- R447. A window write is sent once the order rules allow it. `id` the serial of the access. -/
  | windowWriteSend (id : Nat)
  /-- R446. An accepted BAR4 read takes a slot and becomes a GET, a prefetch hit or a flush. `fn` the function; `off` the BAR4
  offset; `len` the length in bytes; `tag` the tag; `kind` 0 a memory read, 1 a locked read, 2 an AtomicOp. -/
  | bar4Read (fn : Nat) (off : Nat) (len : Nat) (tag : Nat) (kind : Nat)
  /-- R450. The read's GET finishes and the read completes with data or Completer Abort. `id` the serial of the access. -/
  | windowReadComplete (id : Nat)
  /-- R450. A read unfinished after read_tmo courses completes as Completer Abort. `id` the serial of the access. -/
  | windowReadTimeout (id : Nat)
  /-- R448. A failed window put records the error and, in an acknowledged window, sets err. `id` the serial of the access. -/
  | windowWriteFail (id : Nat)
  /-- R453. A prefetch entry expires pf_life cycles after its data arrives. `id` the serial of the access. -/
  | prefetchExpiry (id : Nat)
  /-- R456. The lintel routes an MCTP packet from a board bus or host port by destination EID. `port` the lintel port: a bus, or
  4 + host port; `phys` the physical address it came from; `d` the bytes. -/
  | mctpPacketRx (port : Nat) (phys : Nat) (d : Data)
  /-- R457. A lintel record from the management plane is sent on its port and address. -/
  | lintelRecordRx
  /-- R458. A queued MCTP packet is sent on its bus, retried and then discarded when unacknowledged. `port` the lintel port: a
  bus, or 4 + host port; `ack` whether the target acknowledged the packet. -/
  | mctpSend (port : Nat) (ack : Bool)
  /-- R458. A low BOARD_ALERT_N sample starts an Alert Response read and Block Read. `b` the bus; `addr` the address of the
  target; `d` the bytes. -/
  | alertPull (b : Nat) (addr : Nat) (d : Data)
  /-- R458. An In-Band Interrupt with byte 0xAE is followed by a private read. `b` the bus; `addr` the address of the target;
  `mdb` the mandatory data byte; `d` the bytes. -/
  | i3cIbiRx (b : Nat) (addr : Nat) (mdb : Nat) (d : Data)
  /-- R460. debounce agreeing samples change a side-band level, raising the event and sending a record. `sample` the levels
  sampled: HOST_PWRGD in bits 3..0, HOST_ALERT_N in 7..4, BOARD_ALERT_N in 11..8. -/
  | sidebandChange (sample : Nat)
  /-- R469. A write of FLT_FORCE forces a pulse event or a level condition. `req` the requester; `code` the code of the block;
  `k` the word; `v` the value written. -/
  | faultForce (req : Requester) (code : Nat) (k : Nat) (v : Nat)
  /-- R471. A pending forced consequence takes effect on the next object its source handles. `g` the global source; `obj` the
  object the block handles next. -/
  | forcedConsequence (g : Nat) (obj : Nat)
  /-- R466. A W1C of FLT_STATUS clears status and record and may release FLT_CAUSE. `req` the requester; `code` the code of the
  block; `k` the word; `v` the value written. -/
  | faultStatusClear (req : Requester) (code : Nat) (k : Nat) (v : Nat)
  /-- R479. A slot's schedule entry begins PREPARE for its unit. -/
  | sliceStart
  /-- R480. The BST command starts a slice for one unit outside the schedule. `req` the requester; `cls` the unit class; `unit`
  the unit. -/
  | run (req : Requester) (cls : Nat) (unit : Nat)
  /-- R481. The unit is ready, leaves service and its test begins. -/
  | unitReady
  /-- R479. A unit not ready 1,024 courses after its slot began is skipped. -/
  | sliceSkip
  /-- R483. The test ends and the signature is checked, leading to repair, retirement or restore and return. `sig` the
  signature; `fails` the failing rows (0) and columns (1). -/
  | testComplete (sig : Nat) (fails : List (Nat × Nat))
  /-- R479. Write-log overflow, a mode change or enable clearing aborts the slice with an immediate restore. -/
  | sliceAbort
  /-- R487. The BST command makes a soft repair record permanent. `req` the requester; `rec` the repair record; `ok` whether the
  fuses took it. -/
  | fuse (req : Requester) (rec : Nat) (ok : Bool)
  /-- R492. A PF's go starts a host image fetch through the boot mailbox. `req` the requester. -/
  | bootMboxGo (req : Requester)
  /-- R495. A completed image is authenticated, entering MONITOR or failing back to a retry. `srcs` the sources whose
  authentication ends: 0 host, 1 FP62, 2 FP63. -/
  | bootFetchComplete (srcs : List Nat)
  /-- R493. An unanswered FW_REQ is sent again after 64 local courses, and the fetch fails after 16 sends. `p` the fabric port. -/
  | fwReqTimeout (p : Nat)
  /-- R496. 64 local courses after a failure, a fabric fetch starts again from offset 0. `p` the fabric port. -/
  | fwFetchRetry (p : Nat)
  /-- R493. An FW_DATA response delivers image bytes and the next request is sent. -/
  | fwDataRx
  /-- R506. An FW_REQ on a service port is answered with FW_DATA from the held image. -/
  | fwReqRx
  /-- R500. The HB7 forwarder delivers a management packet locally or sends it on by source route or route. -/
  | mgmtForward
  /-- R502. The register agent executes an MG_READ and answers with MG_RESP. -/
  | mgReadRx
  /-- R502. The register agent executes an MG_WRITE and answers with MG_RESP. -/
  | mgWriteRx
  /-- R501. An MG_MSG is delivered to its management endpoint. -/
  | mgMsgRx
  /-- R505. An MG_RESP finishes the mailbox request with its status and data. -/
  | mgRespRx
  /-- R505. A mailbox op of 1 sends an MG_READ. `req` the requester; `m` the mailbox. -/
  | mailboxRead (req : Requester) (m : Nat)
  /-- R505. A mailbox op of 2 sends an MG_WRITE. `req` the requester; `m` the mailbox. -/
  | mailboxWrite (req : Requester) (m : Nat)
  /-- R505. A mailbox op of 3 sends an MG_MSG. `req` the requester; `m` the mailbox. -/
  | mailboxMsg (req : Requester) (m : Nat)
  /-- R505. With no response within retry_courses the request is resent, and it fails with 0x06 after the retries. `m` the
  mailbox. -/
  | mailboxRetry (m : Nat)
  /-- R507. Setting a run bit starts MC1–MC3 at its entry offset. `req` the requester; `core` the management core. -/
  | mcStart (req : Requester) (core : Nat)
  /-- R507. Clearing a run bit resets that core as an identity reset. `req` the requester; `core` the management core. -/
  | mcReset (req : Requester) (core : Nat)
  /-- R520. An unhandled exception in MC1–MC3 resets and restarts the core. `core` the management core. -/
  | mcException (core : Nat)
  /-- R510. A write of RBK_SEL word 1 captures consecutive rows of one table at one cycle. `req` the requester; `v` the value
  written. -/
  | readbackCapture (req : Requester) (v : Nat)
  /-- R516. The monitor prints the command list. `line` the characters of the line. -/
  | monHelp (line : List Nat)
  /-- R516. The monitor prints part, revision, serial, identifier and mode. `line` the characters of the line. -/
  | monId (line : List Nat)
  /-- R516. The monitor reads and prints BAR0 words. `line` the characters of the line. -/
  | monRd (line : List Nat)
  /-- R516. The monitor captures readback rows into buffer 4. `line` the characters of the line. -/
  | monRbk (line : List Nat)
  /-- R516. The monitor prints a block's fault summary, cause and count. `line` the characters of the line. -/
  | monFlt (line : List Nat)
  /-- R516. The monitor prints the global time and alignment status. `line` the characters of the line. -/
  | monTime (line : List Nat)
  /-- R516. The monitor prints boot status and image svn. `line` the characters of the line. -/
  | monBoot (line : List Nat)
  /-- R517. The monitor prints a fresh challenge. `line` the characters of the line. -/
  | monUnlock (line : List Nat)
  /-- R517. The monitor checks the CMAC response and unlocks, or counts a failure. `line` the characters of the line. -/
  | monResp (line : List Nat)
  /-- R518. The monitor locks again. `line` the characters of the line. -/
  | monLock (line : List Nat)
  /-- R516. An unlocked monitor writes one BAR0 word. `line` the characters of the line. -/
  | monWr (line : List Nat)
  /-- R516. An unlocked monitor writes GLB_MODE_REQ. `line` the characters of the line. -/
  | monMode (line : List Nat)
  /-- R514. An unlocked monitor changes the baud rate after its final line. `line` the characters of the line. -/
  | monBaud (line : List Nat)
  /-- R516. An unlocked monitor sets or clears the run bit of MC1–MC3. `line` the characters of the line. -/
  | monMcrun (line : List Nat)
  /-- R516. An unlocked monitor issues BST_CMD FUSE. `line` the characters of the line; `ok` whether the fuses took it. -/
  | monFuse (line : List Nat) (ok : Bool)
  /-- R516. An unlocked monitor writes GLB_RESET_CTRL.full_reset. `line` the characters of the line. -/
  | monReset (line : List Nat)
  /-- R515. An overlong or unparseable line gives err 1. `line` the characters of the line. -/
  | monLineInvalid (line : List Nat)
  /-- R518. 65,536 courses without a received line lock the monitor again. -/
  | monitorIdleTimeout
  /-- R517. 2^24 courses after 8 failures, unlock is accepted again. -/
  | unlockLockoutEnd
  /-- R546. A sensor conversion updates GLB_TEMP and the thermal alarm. `k` the sensor; `temp` the temperature, signed, in 1/16
  °C. -/
  | thermalConversion (k : Nat) (temp : Nat)
  /-- R38. VDD_IO comes within its limits and THERM_TRIP_N becomes driven and the outputs and pulls come alive, even while
  RESET_N is asserted. `rail` 0 VIN_CORE, 1 VIN_LANE, 2 VDD_IO. -/
  | railWithinLimits (rail : Nat)
  /-- R539. Deassertion of PERST_N[h] with the device in STRAP or later lets host port h train and answer configuration requests
  within 100 ms. `h` the host port; `status` what the link has negotiated, as HIF_HP_STATUS shows it; `vfs` virtual functions
  enabled. -/
  | perstNDeassert (h : Nat) (status : Nat) (vfs : Nat)
  /-- R93. After four consecutive missing frame markers a training receiver loses frame lock. `n` the lane. -/
  | frameLockLost (n : Nat)
  /-- R137. The link engine sends an INIT brick with the next probe_tag, and the eighth ready INIT sent can complete the
  exchange into UP. `p` the fabric port. -/
  | initBrickTx (p : Nat)
  /-- R104. A write that sets LAN_PT_CTRL.sleep_mask causes an early marker that announces narrowing toward lane sleep. `p` the
  fabric port; `m` the mask. -/
  | sleepMaskWrite (p : Nat) (m : Nat)
  /-- R332. An order-table read from host memory returns, and the record is cached or the send or message fails with an
  order-bus error. `i` the read, by its place among those that are out; `r` what the read returns. -/
  | orderRecordReadReturn (i : Nat) (r : ReadResult)
  /-- R344. A read of an overflow-pool posted record returns and continues the search, or refuses the message with an
  overflow-bus error. `i` the read, by its place among those that are out; `r` what the read returns. -/
  | overflowRecordReadReturn (i : Nat) (r : ReadResult)
  /-- R370. A region-descriptor read from the key table returns, and the descriptor is cached and checking goes on, or the
  packet or KEY_ command fails (0x040E or HOST_BUS). `n` the read, by its place among those that are out; `r` what the read
  returns. -/
  | keyDescriptorReadReturn (n : Nat) (r : ReadResult)
  /-- R370. A target data read for a GET or a host_atomic=0 atomic returns with data, or with an error giving detail 0x040D. `n`
  the read, by its place among those that are out; `r` what the read returns. -/
  | targetDataReadReturn (n : Nat) (r : ReadResult)
  /-- R492. A boot-mailbox read of the host image buffer returns, adding image bytes or failing the fetch with result BUS. `r`
  what the read returns. -/
  | bootImageReadReturn (r : ReadResult)
  /-- R108. With inject_rate = k, one transmitted symbol is flipped every 2^(k+10) symbols. `n` the lane. -/
  | prbsRateInjection (n : Nat)
deriving DecidableEq, Repr

end Sys2Proof
end

