-- ==== Sys2Proof/Decode.lean ====
section
/-! DEFINITION. What the opcode table's bits spell. The table gives no row any bits: commands reach this block as register
accesses, packets, signals and expiries, not as words, so no word spells a command. -/
namespace Sys2Proof

/-- The command that a word of `nbits` bits spells by the table's bits: none, because no row has any. -/
def decodeTableWord (_nbits _w : Nat) : Option Instr := none

end Sys2Proof
end

