-- ==== Sys2Proof/Machine/Bits.lean ====
section
/-! DEFINITION. Bit fields, byte order (R6) and sequence comparison (R40). -/
namespace Sys2Proof

/-- The `w` bits of `x` from bit `lsb` upward. -/
def bits (x lsb w : Nat) : Nat := (x >>> lsb) % 2 ^ w

/-- `x` with the `w` bits from bit `lsb` replaced by `v`. -/
def setBits (x lsb w v : Nat) : Nat :=
  x - bits x lsb w <<< lsb + (v % 2 ^ w) <<< lsb

/-- One bit as a Bool. -/
def bit (x i : Nat) : Bool := x.testBit i

/-- A Bool as a bit. -/
def b2n (b : Bool) : Nat := if b then 1 else 0

/-- A number from fields (lowest bit, width, value). -/
def pack : List (Nat × Nat × Nat) → Nat
  | [] => 0
  | (l, w, v) :: t => (v % 2 ^ w) <<< l + pack t

/-- A number from fields given by byte offset (byte, width in bits, value). -/
def packB : List (Nat × Nat × Nat) → Nat
  | [] => 0
  | (o, w, v) :: t => (v % 2 ^ w) <<< (8 * o) + packB t

/-- Sign extension: the signed value of the low `w` bits of `x`. -/
def signed (x w : Nat) : Int :=
  if bits x (w - 1) 1 = 1 then (bits x 0 w : Int) - 2 ^ w else bits x 0 w

/-- The low `w` bits of a signed value. -/
def unsigned (x : Int) (w : Nat) : Nat := (x % (2 ^ w : Int)).toNat

/-- The four answers of R40. -/
inductive SerialOrder where
  | equal | before | after | unordered
deriving DecidableEq, Repr

/-- R40: compare a and b in an n-bit sequence space. -/
def serialCmp (a b n : Nat) : SerialOrder :=
  let half := 2 ^ (n - 1)
  let d := (2 ^ n + b - a % 2 ^ n) % 2 ^ n
  if d = 0 then .equal
  else if d < half then .before
  else if d > half then .after
  else .unordered

/-- a lies serially at or before b. -/
def serialLe (a b n : Nat) : Bool := serialCmp a b n == .equal || serialCmp a b n == .before

/-- x lies serially from `lo` up to `hi`. -/
def serialIn (lo x hi n : Nat) : Bool :=
  (2 ^ n + x - lo % 2 ^ n) % 2 ^ n ≤ (2 ^ n + hi - lo % 2 ^ n) % 2 ^ n

/-- The distance from a forward to b in an n-bit space. -/
def serialDist (a b n : Nat) : Nat := (2 ^ n + b - a % 2 ^ n) % 2 ^ n

/-- Division rounding up. -/
def ceilDiv (a b : Nat) : Nat := (a + b - 1) / b

/-- `n` bytes of a number, byte 0 least significant. -/
def Data.ofNat (len val : Nat) : Data := ⟨len, val % 2 ^ (8 * len)⟩

/-- No bytes. -/
def Data.empty : Data := ⟨0, 0⟩

/-- Bytes `off` to `off + len - 1`; bytes past the end are zero. -/
def Data.slice (d : Data) (off len : Nat) : Data := ⟨len, (d.val >>> (8 * off)) % 2 ^ (8 * len)⟩

/-- Concatenation. -/
def Data.append (a b : Data) : Data := ⟨a.len + b.len, a.val % 2 ^ (8 * a.len) + b.val <<< (8 * a.len)⟩

/-- Concatenation of several. -/
def Data.join : List Data → Data
  | [] => Data.empty
  | d :: t => d.append (Data.join t)

/-- Overwrite bytes from `off` on with `e`, growing the run if needed. -/
def Data.patch (d : Data) (off : Nat) (e : Data) : Data :=
  ⟨max d.len (off + e.len), setBits d.val (8 * off) (8 * e.len) e.val⟩

/-- The `w` bits from bit `lsb` of the number that starts at byte `off` (R6). -/
def Data.field (d : Data) (off lsb w : Nat) : Nat := bits d.val (8 * off + lsb) w

/-- The bytes of a run, first byte first. -/
def Data.bytes (d : Data) : List Nat := (List.range d.len).map (fun i => bits d.val (8 * i) 8)

/-- The run of bytes of a list. -/
def Data.ofBytes (l : List Nat) : Data :=
  ⟨l.length, l.foldr (fun b acc => b % 256 + 256 * acc) 0⟩

/-- The 64-byte pieces of a run, the last one filled with zeros (R116). -/
def Data.bricks (d : Data) : List Data := (List.range (ceilDiv d.len 64)).map (fun i => d.slice (64 * i) 64)

/-- The bytes of a run in reverse order (big-endian numbers of R494). -/
def Data.beNat (d : Data) : Nat := d.bytes.foldl (fun acc b => acc * 256 + b) 0

/-- A number written as `len` big-endian bytes. -/
def Data.ofBE (len x : Nat) : Data :=
  Data.ofBytes ((List.range len).map (fun i => bits x (8 * (len - 1 - i)) 8))

/-- Unary minimum over a list, with a default for none. -/
def listMin (l : List Nat) (d : Nat) : Nat := l.foldl (fun a b => min a b) d

/-- The population count of the low `w` bits. -/
def popcount (x w : Nat) : Nat := ((List.range w).filter (fun i => bit x i)).length

/-- The header of a packet or of its first brick. -/
def Data.hdr (d : Data) : Nat := d.val % 2 ^ 128
/-- The packet with another header. -/
def Data.withHdr (d : Data) (h : Nat) : Data := ⟨d.len, setBits d.val 0 128 h⟩

/-! ### Requesters -/

/-- The master identity of a requester (R24, R523). -/
def Requester.identity : Requester → Nat
  | .fn i => i
  | .mc c => 0x400 + c
  | .fm => 0x420
  | .monitor => 0x400
/-- Key of a requester's own high-half latch (R12, R502). -/
def Requester.key : Requester → Nat
  | .fn i => i
  | .mc c => 0x400 + c
  | .fm => 0x420
  | .monitor => 0x1000
/-- A management core or the fabric manager. -/
def Requester.mgmt : Requester → Bool
  | .fn _ => false
  | _ => true
/-- A PF, a management core or the fabric manager (R25, R523). -/
def Requester.privileged : Requester → Bool
  | .fn i => i < 1024 && i % 256 == 0
  | _ => true

end Sys2Proof
end

