-- ==== Sys2Proof/Machine/Crypto.lean ====
section
/-! DEFINITION. The cryptographic functions the spec names: AES-256 (FIPS 197), AES-CMAC, AES-256-GCM (R313), the
counter-mode key derivation of NIST SP 800-108 (R315), SHA-384 and ECDSA over P-384 (R495). Byte strings are lists of
numbers below 256, first byte first. -/
namespace Sys2Proof.Machine

/-- The AES S-box. -/
def aesSbox : List Nat :=
  [0x63, 0x7C, 0x77, 0x7B, 0xF2, 0x6B, 0x6F, 0xC5, 0x30, 0x01, 0x67, 0x2B, 0xFE, 0xD7, 0xAB, 0x76]
  ++ [0xCA, 0x82, 0xC9, 0x7D, 0xFA, 0x59, 0x47, 0xF0, 0xAD, 0xD4, 0xA2, 0xAF, 0x9C, 0xA4, 0x72, 0xC0]
  ++ [0xB7, 0xFD, 0x93, 0x26, 0x36, 0x3F, 0xF7, 0xCC, 0x34, 0xA5, 0xE5, 0xF1, 0x71, 0xD8, 0x31, 0x15]
  ++ [0x04, 0xC7, 0x23, 0xC3, 0x18, 0x96, 0x05, 0x9A, 0x07, 0x12, 0x80, 0xE2, 0xEB, 0x27, 0xB2, 0x75]
  ++ [0x09, 0x83, 0x2C, 0x1A, 0x1B, 0x6E, 0x5A, 0xA0, 0x52, 0x3B, 0xD6, 0xB3, 0x29, 0xE3, 0x2F, 0x84]
  ++ [0x53, 0xD1, 0x00, 0xED, 0x20, 0xFC, 0xB1, 0x5B, 0x6A, 0xCB, 0xBE, 0x39, 0x4A, 0x4C, 0x58, 0xCF]
  ++ [0xD0, 0xEF, 0xAA, 0xFB, 0x43, 0x4D, 0x33, 0x85, 0x45, 0xF9, 0x02, 0x7F, 0x50, 0x3C, 0x9F, 0xA8]
  ++ [0x51, 0xA3, 0x40, 0x8F, 0x92, 0x9D, 0x38, 0xF5, 0xBC, 0xB6, 0xDA, 0x21, 0x10, 0xFF, 0xF3, 0xD2]
  ++ [0xCD, 0x0C, 0x13, 0xEC, 0x5F, 0x97, 0x44, 0x17, 0xC4, 0xA7, 0x7E, 0x3D, 0x64, 0x5D, 0x19, 0x73]
  ++ [0x60, 0x81, 0x4F, 0xDC, 0x22, 0x2A, 0x90, 0x88, 0x46, 0xEE, 0xB8, 0x14, 0xDE, 0x5E, 0x0B, 0xDB]
  ++ [0xE0, 0x32, 0x3A, 0x0A, 0x49, 0x06, 0x24, 0x5C, 0xC2, 0xD3, 0xAC, 0x62, 0x91, 0x95, 0xE4, 0x79]
  ++ [0xE7, 0xC8, 0x37, 0x6D, 0x8D, 0xD5, 0x4E, 0xA9, 0x6C, 0x56, 0xF4, 0xEA, 0x65, 0x7A, 0xAE, 0x08]
  ++ [0xBA, 0x78, 0x25, 0x2E, 0x1C, 0xA6, 0xB4, 0xC6, 0xE8, 0xDD, 0x74, 0x1F, 0x4B, 0xBD, 0x8B, 0x8A]
  ++ [0x70, 0x3E, 0xB5, 0x66, 0x48, 0x03, 0xF6, 0x0E, 0x61, 0x35, 0x57, 0xB9, 0x86, 0xC1, 0x1D, 0x9E]
  ++ [0xE1, 0xF8, 0x98, 0x11, 0x69, 0xD9, 0x8E, 0x94, 0x9B, 0x1E, 0x87, 0xE9, 0xCE, 0x55, 0x28, 0xDF]
  ++ [0x8C, 0xA1, 0x89, 0x0D, 0xBF, 0xE6, 0x42, 0x68, 0x41, 0x99, 0x2D, 0x0F, 0xB0, 0x54, 0xBB, 0x16]

/-- Multiplication by x in GF(2^8). -/
def xtime (b : Nat) : Nat := if b ≥ 128 then ((b * 2) % 256) ^^^ 0x1B else b * 2
def aesSub (b : Nat) : Nat := aesSbox.getD b 0
/-- Byte-wise exclusive or. -/
def xorBytes (a b : List Nat) : List Nat := List.zipWith (fun x y => x ^^^ y) a b

/-- One word of the AES-256 key schedule after another; `ws` holds the words made so far, newest first. -/
def aesExpand : Nat → Nat → List (List Nat) → List (List Nat)
  | 0, _, ws => ws
  | n + 1, i, ws =>
    let t := ws.headD []
    let t1 :=
      if i % 8 = 0 then
        let r := (t.drop 1 ++ t.take 1).map aesSub
        (r.headD 0 ^^^ (2 ^ (i / 8 - 1))) :: r.drop 1
      else if i % 8 = 4 then t.map aesSub
      else t
    aesExpand n (i + 1) (xorBytes (ws.getD 7 []) t1 :: ws)

/-- Cut a list into pieces of four. -/
def fours : Nat → List Nat → List (List Nat)
  | 0, _ => []
  | n + 1, l => l.take 4 :: fours n (l.drop 4)

/-- The fifteen round keys of a 32-byte key. -/
def aesKeys (key : List Nat) : List (List Nat) :=
  let ws := (aesExpand 52 8 (fours 8 key).reverse).reverse
  (List.range 15).map (fun r => (List.range 4).flatMap (fun c => ws.getD (4 * r + c) []))

/-- SubBytes and ShiftRows on a column-major block. -/
def aesSubShift (b : List Nat) : List Nat :=
  (List.range 16).map (fun i => aesSub (b.getD ((i + 4 * (i % 4)) % 16) 0))
/-- MixColumns on one column. -/
def aesMix (c : List Nat) : List Nat :=
  let g (i : Nat) : Nat := c.getD (i % 4) 0
  (List.range 4).map (fun i => xtime (g i) ^^^ (xtime (g (i + 1)) ^^^ g (i + 1)) ^^^ g (i + 2) ^^^ g (i + 3))

/-- AES-256 of one 16-byte block, given the round keys. -/
def aesBlock (ks : List (List Nat)) (b : List Nat) : List Nat :=
  let b0 := xorBytes b (ks.headD [])
  let mid := ((ks.drop 1).take 13).foldl (fun st k => xorBytes ((fours 4 (aesSubShift st)).flatMap aesMix) k) b0
  xorBytes (aesSubShift mid) (ks.getD 14 [])

/-- AES-256 of one block under a key. -/
def aes (key b : List Nat) : List Nat := aesBlock (aesKeys key) b

/-- A number from bytes, first byte most significant. -/
def beNum (l : List Nat) : Nat := l.foldl (fun a b => a * 256 + b) 0
/-- `n` bytes of a number, most significant first. -/
def beBytes (n x : Nat) : List Nat := (List.range n).map (fun i => bits x (8 * (n - 1 - i)) 8)
/-- Bytes of a number, least significant first (R6). -/
def leBytes (n x : Nat) : List Nat := (List.range n).map (fun i => bits x (8 * i) 8)
/-- Cut a list into pieces of sixteen. -/
def sixteens : Nat → List Nat → List (List Nat)
  | 0, _ => []
  | n + 1, l => l.take 16 :: sixteens n (l.drop 16)

/-! ### AES-CMAC -/

/-- Doubling in GF(2^128), most significant bit first. -/
def cmacDouble (x : Nat) : Nat := if x ≥ 2 ^ 127 then ((x * 2) % 2 ^ 128) ^^^ 0x87 else x * 2

/-- AES-CMAC of a message: 16 bytes. -/
def cmac (key msg : List Nat) : List Nat :=
  let ks := aesKeys key
  let k1 := cmacDouble (beNum (aesBlock ks (List.replicate 16 0)))
  let n := max 1 (ceilDiv msg.length 16)
  let last := msg.drop (16 * (n - 1))
  let whole := last.length == 16
  let lastBlk := if whole then xorBytes last (beBytes 16 k1)
    else xorBytes (last ++ 0x80 :: List.replicate (15 - last.length) 0) (beBytes 16 (cmacDouble k1))
  let st := (sixteens (n - 1) msg).foldl (fun st b => aesBlock ks (xorBytes st b)) (List.replicate 16 0)
  aesBlock ks (xorBytes st lastBlk)

/-! ### GCM -/

/-- Multiplication in GF(2^128) as GCM defines it: bit 127 of the number is coefficient 0. -/
def gfMul (x y : Nat) : Nat :=
  ((List.range 128).foldl (fun (acc : Nat × Nat) i =>
      let z := if x.testBit (127 - i) then acc.1 ^^^ acc.2 else acc.1
      let v := if acc.2 % 2 = 1 then (acc.2 / 2) ^^^ (0xE1 * 2 ^ 120) else acc.2 / 2
      (z, v)) (0, y)).1

/-- A list filled with zeros to a multiple of sixteen bytes. -/
def pad16 (l : List Nat) : List Nat := l ++ List.replicate (16 * ceilDiv l.length 16 - l.length) 0

/-- GHASH over associated data and ciphertext. -/
def ghash (h : Nat) (aad ct : List Nat) : Nat :=
  let m := pad16 aad ++ pad16 ct ++ beBytes 8 (8 * aad.length) ++ beBytes 8 (8 * ct.length)
  (sixteens (m.length / 16) m).foldl (fun y b => gfMul (y ^^^ beNum b) h) 0

/-- The GCM key stream over `n` bytes from counter 2. -/
def gcmStream (ks : List (List Nat)) (iv : List Nat) (n : Nat) : List Nat :=
  ((List.range (ceilDiv n 16)).flatMap (fun i => aesBlock ks (iv ++ beBytes 4 (i + 2)))).take n

/-- The GCM tag of a ciphertext. -/
def gcmTag (ks : List (List Nat)) (iv aad ct : List Nat) : List Nat :=
  let h := beNum (aesBlock ks (List.replicate 16 0))
  xorBytes (beBytes 16 (ghash h aad ct)) (aesBlock ks (iv ++ [0, 0, 0, 1]))

/-- R313: seal: the ciphertext and its 16-byte tag. -/
def gcmSeal (key iv aad pt : List Nat) : List Nat × List Nat :=
  let ks := aesKeys key
  let ct := xorBytes pt (gcmStream ks iv pt.length)
  (ct, gcmTag ks iv aad ct)

/-- R316: open: the plaintext, if the tag is right. -/
def gcmOpen (key iv aad ct tag : List Nat) : Option (List Nat) :=
  let ks := aesKeys key
  if gcmTag ks iv aad ct = tag then some (xorBytes ct (gcmStream ks iv ct.length)) else none

/-! ### SHA-384 -/

/-- The round constants of SHA-384. -/
def shaK : List Nat :=
  [0x428A2F98D728AE22, 0x7137449123EF65CD, 0xB5C0FBCFEC4D3B2F, 0xE9B5DBA58189DBBC]
  ++ [0x3956C25BF348B538, 0x59F111F1B605D019, 0x923F82A4AF194F9B, 0xAB1C5ED5DA6D8118]
  ++ [0xD807AA98A3030242, 0x12835B0145706FBE, 0x243185BE4EE4B28C, 0x550C7DC3D5FFB4E2]
  ++ [0x72BE5D74F27B896F, 0x80DEB1FE3B1696B1, 0x9BDC06A725C71235, 0xC19BF174CF692694]
  ++ [0xE49B69C19EF14AD2, 0xEFBE4786384F25E3, 0x0FC19DC68B8CD5B5, 0x240CA1CC77AC9C65]
  ++ [0x2DE92C6F592B0275, 0x4A7484AA6EA6E483, 0x5CB0A9DCBD41FBD4, 0x76F988DA831153B5]
  ++ [0x983E5152EE66DFAB, 0xA831C66D2DB43210, 0xB00327C898FB213F, 0xBF597FC7BEEF0EE4]
  ++ [0xC6E00BF33DA88FC2, 0xD5A79147930AA725, 0x06CA6351E003826F, 0x142929670A0E6E70]
  ++ [0x27B70A8546D22FFC, 0x2E1B21385C26C926, 0x4D2C6DFC5AC42AED, 0x53380D139D95B3DF]
  ++ [0x650A73548BAF63DE, 0x766A0ABB3C77B2A8, 0x81C2C92E47EDAEE6, 0x92722C851482353B]
  ++ [0xA2BFE8A14CF10364, 0xA81A664BBC423001, 0xC24B8B70D0F89791, 0xC76C51A30654BE30]
  ++ [0xD192E819D6EF5218, 0xD69906245565A910, 0xF40E35855771202A, 0x106AA07032BBD1B8]
  ++ [0x19A4C116B8D2D0C8, 0x1E376C085141AB53, 0x2748774CDF8EEB99, 0x34B0BCB5E19B48A8]
  ++ [0x391C0CB3C5C95A63, 0x4ED8AA4AE3418ACB, 0x5B9CCA4F7763E373, 0x682E6FF3D6B2B8A3]
  ++ [0x748F82EE5DEFB2FC, 0x78A5636F43172F60, 0x84C87814A1F0AB72, 0x8CC702081A6439EC]
  ++ [0x90BEFFFA23631E28, 0xA4506CEBDE82BDE9, 0xBEF9A3F7B2C67915, 0xC67178F2E372532B]
  ++ [0xCA273ECEEA26619C, 0xD186B8C721C0C207, 0xEADA7DD6CDE0EB1E, 0xF57D4F7FEE6ED178]
  ++ [0x06F067AA72176FBA, 0x0A637DC5A2C898A6, 0x113F9804BEF90DAE, 0x1B710B35131C471B]
  ++ [0x28DB77F523047D84, 0x32CAAB7B40C72493, 0x3C9EBE0A15C9BEBC, 0x431D67C49C100D4C]
  ++ [0x4CC5D4BECB3E42B6, 0x597F299CFC657E2A, 0x5FCB6FAB3AD6FAEC, 0x6C44198C4A475817]
/-- The initial hash value of SHA-384. -/
def shaInit : List Nat :=
  [0xCBBB9D5DC1059ED8, 0x629A292A367CD507, 0x9159015A3070DD17, 0x152FECD8F70E5939]
  ++ [0x67332667FFC00B31, 0x8EB44A8768581511, 0xDB0C2E0D64F98FA7, 0x47B5481DBEFA4FA4]

/-- Rotate a 64-bit word right. -/
def rotr (x n : Nat) : Nat := (x >>> n) ^^^ ((x <<< (64 - n)) % 2 ^ 64)
def add64 (a b : Nat) : Nat := (a + b) % 2 ^ 64
/-- Message schedule: newest word first. -/
def shaSchedule : Nat → List Nat → List Nat
  | 0, ws => ws
  | n + 1, ws =>
    let w (k : Nat) : Nat := ws.getD (k - 1) 0
    let s0 := rotr (w 15) 1 ^^^ rotr (w 15) 8 ^^^ (w 15) >>> 7
    let s1 := rotr (w 2) 19 ^^^ rotr (w 2) 61 ^^^ (w 2) >>> 6
    shaSchedule n ((w 16 + s0 + w 7 + s1) % 2 ^ 64 :: ws)

/-- One round. -/
def shaRound (v : List Nat) (kw : Nat) : List Nat :=
  match v with
  | [a, b, c, d, e, f, g, h] =>
    let s1 := rotr e 14 ^^^ rotr e 18 ^^^ rotr e 41
    let ch := (e &&& f) ^^^ ((e ^^^ (2 ^ 64 - 1)) &&& g)
    let t1 := (h + s1 + ch + kw) % 2 ^ 64
    let s0 := rotr a 28 ^^^ rotr a 34 ^^^ rotr a 39
    let mj := (a &&& b) ^^^ (a &&& c) ^^^ (b &&& c)
    [add64 t1 (add64 s0 mj), a, b, c, add64 d t1, e, f, g]
  | l => l

/-- Absorb one 128-byte block. -/
def shaBlock (h blk : List Nat) : List Nat :=
  let ws := (List.range 16).map (fun i => beNum ((blk.drop (8 * i)).take 8))
  let sched := (shaSchedule 64 ws.reverse).reverse
  let v := (List.zipWith (fun k w => k + w) shaK sched).foldl shaRound h
  List.zipWith add64 h v

/-- Cut a list into blocks of 128. -/
def blocks128 : Nat → List Nat → List (List Nat)
  | 0, _ => []
  | n + 1, l => l.take 128 :: blocks128 n (l.drop 128)

/-- SHA-384 of a message, as a number of 384 bits. -/
def sha384 (m : List Nat) : Nat :=
  let z := (239 - m.length % 128) % 128
  let p := m ++ 0x80 :: (List.replicate z 0 ++ beBytes 16 (8 * m.length))
  beNum (((blocks128 (p.length / 128) p).foldl shaBlock shaInit).take 6 |>.flatMap (beBytes 8))

/-! ### ECDSA over P-384 -/

/-- The field prime, the group order, the curve coefficient b and the base point of P-384 (FIPS 186-5). -/
def p384p : Nat := 2 ^ 384 - 2 ^ 128 - 2 ^ 96 + 2 ^ 32 - 1
def p384n : Nat := 0xFFFFFFFFFFFFFFFFFFFFFFFFFFFFFFFFFFFFFFFFFFFFFFFFC7634D81F4372DDF581A0DB248B0A77AECEC196ACCC52973
def p384b : Nat := 0xB3312FA7E23EE7E4988E056BE3F82D19181D9C6EFE8141120314088F5013875AC656398D8A2ED19D2A85C8EDD3EC2AEF
def p384g : Nat × Nat :=
  (0xAA87CA22BE8B05378EB1C71EF320AD746E1D3B628BA79B9859F741E082542A385502F25DBF55296C3A545E3872760AB7,
   0x3617DE4A96262C6F5D9E98BF9292DC29F8F41DBD289A147CE9DA3113B5F0B8C00A60B1CE1D7E819D7A431D7C90EA0E5F)

/-- Power in a prime field by squaring: `n` bits of the exponent. -/
def powMod (m : Nat) : Nat → Nat → Nat → Nat → Nat
  | 0, _, _, acc => acc
  | n + 1, b, e, acc => powMod m n (b * b % m) (e / 2) (if e % 2 = 1 then acc * b % m else acc)
/-- Inverse in a prime field (Fermat). -/
def invMod (m x : Nat) : Nat := powMod m 384 (x % m) (m - 2) 1

/-- The sum of two points; `none` is the point at infinity. -/
def ecAdd (p q : Option (Nat × Nat)) : Option (Nat × Nat) :=
  match p, q with
  | none, q => q
  | p, none => p
  | some (x1, y1), some (x2, y2) =>
    let m := p384p
    if x1 = x2 ∧ (y1 + y2) % m = 0 then none
    else
      let l := if x1 = x2 then (3 * x1 * x1 + (m - 3)) * invMod m (2 * y1) % m
        else (y2 + (m - y1)) * invMod m (x2 + (m - x1)) % m
      let x3 := (l * l + (m - x1) + (m - x2)) % m
      some (x3, (l * (x1 + (m - x3)) + (m - y1)) % m)

/-- Scalar multiple by doubling and adding: `n` bits. -/
def ecMul : Nat → Nat → Option (Nat × Nat) → Option (Nat × Nat) → Option (Nat × Nat)
  | 0, _, _, acc => acc
  | n + 1, k, p, acc => ecMul n (k / 2) (ecAdd p p) (if k % 2 = 1 then ecAdd acc p else acc)

/-- The point lies on P-384. -/
def onCurve (x y : Nat) : Bool :=
  x < p384p && y < p384p && y * y % p384p == (x * x * x + (p384p - 3) * x + p384b) % p384p

/-- R495: a signature (r, s) over a hash verifies under a public key. -/
def ecdsaVerify (x y r s h : Nat) : Bool :=
  if onCurve x y && 0 < r && r < p384n && 0 < s && s < p384n then
    let w := invMod p384n s
    match ecAdd (ecMul 384 (h * w % p384n) (some p384g) none) (ecMul 384 (r * w % p384n) (some (x, y)) none) with
    | some (x1, _) => x1 % p384n == r
    | none => false
  else false

/-! ### Key derivation (R315) -/

/-- R315: the AES-256 key of a direction: the two PRF outputs, first then second. `tail` is bytes 13 to 29 of the input
block and `label` its eight label bytes. -/
def kdf (master : List Nat) (label tail : List Nat) : List Nat :=
  let blk (i : Nat) : List Nat := [0, 0, 0, i] ++ label ++ [0] ++ tail ++ [0, 0, 1, 0]
  cmac master (blk 1) ++ cmac master (blk 2)

end Sys2Proof.Machine
end

