-- ==== Sys2Proof/Config.lean ====
section
/-! DEFINITION. What one device has fixed in its fuses and ROM, and the free values: every constant here is opaque, so
nothing can be proved about which value it has (notes/assumptions names each). -/
namespace Sys2Proof.Config

/-- Fused device serial, 64 bits (GLB_SERIAL). -/
opaque serial : Nat
/-- The two fused SHA-384 hashes of firmware keys (R495). -/
opaque keyHash : Nat → Nat
/-- Whether the revoke fuse of a key hash is blown (R495). -/
opaque keyRevoked : Nat → Bool
/-- Fused minimum security version number (R495). -/
opaque minSvn : Nat
/-- The fused 256-bit monitor key (R517). -/
opaque monitorKey : Nat
/-- Golden signature that the boot ROM holds for a unit class and test (R483). -/
opaque golden : Nat → Nat
/-- Boot configuration that the fuses hold as permanent repair records: record number to its two words (R487, R490). -/
opaque fusedRepair : Nat → Nat
/-- A free value: where the spec leaves a value open, the state's counter `free` picks the next one. -/
opaque freeValue : Nat → Nat
/-- Core cycles from the entry to STRAP to the end of the fuse load, and from there to the end of the fused repairs (R490: 3 ms at most). -/
opaque fuseCycles : Nat
opaque repairCycles : Nat
/-- The core cycle after the start of a copy at which a word of the shadow has been copied (R72: the order is not
defined): copy number, BAR0 offset. -/
opaque copyCycle : Nat → Nat → Nat
/-- The value of an operation on operands for which the spec states no result: a tag that names the operation, operands. -/
opaque unstated : Nat → Nat → Nat → Nat

/-- Which class 0x2 table bank holds a word: key set × 2^26 + BAR0 offset, or a tag of its own for key and lock stores (R474, R478). -/
opaque tableBank : Nat → Nat
/-- The cache a class 0x1 bank belongs to: 0-3 translation and 4-7 walk cache of unit h, 8 contexts, 9 descriptors, 10 order
records (R474). -/
opaque cacheOfBank : Nat → Nat
/-- What a class 0x2 table bank holds, as R474 sorts them: 0 meters, shapers or the meter map, 1-4 lock slots of unit h, 5 domain
keys, 6 tree entries or keys, 7 the lintel's routes, others the configuration that has no sources. -/
opaque tableKind : Nat → Nat
/-- What a class 0x3 state bank holds, as R474 sorts them: 0 queue, descriptor and event state, 1 header or posted store, 2 atomic
results, 3 lock cells or held-lock records, 4 the prefetch store, others none of these. -/
opaque stateKind : Nat → Nat
/-- Entries a class 0x1 bank holds. -/
opaque bankEntries : Nat → Nat
/-- Words of a translation lock slot in its table bank (R474, R482). -/
opaque lockWords : Nat
/-- The class 0x1 bank in which a cache holds an entry: cache, key of the entry. -/
opaque bankOfEntry : Nat → Nat → Nat

/-- Requests (at HB6 collective packets) for which the engine behind a hub port has room (R176, R186). -/
opaque hubRoom : Nat → Nat
/-- Responses for which the engine behind a hub port has room (R176). -/
opaque rspRoom : Nat → Nat

/-- The management endpoint number that a mailbox (0-7), the lintel (8) or the boot ROM (9) names as its own: the spec gives none. -/
opaque mgmtEp : Nat → Nat

end Sys2Proof.Config
end

