-- ==== Sys2Proof/Machine/RegMap.lean ====
section
/-! DEFINITION. The register map: for every BAR0 register of the spec its offset, its fields, their access codes and
reset values (the field tables of spec/01 to spec/17 and R521), and the offsets of the 64-bit counters.
`Reg.NAME.off` is a register's BAR0 offset, `Reg.NAME.field` one of its fields, `Ctr.NAME` a counter's offset.
The fault banks (R463) and BLK_ID (R522), which every block has at one place, are in Machine/Bar0.lean. -/
namespace Sys2Proof.Machine

/-- A field of a register word: BAR0 offset of the word, lowest bit, width. -/
structure Fld where
  off : Nat
  lsb : Nat
  w : Nat
deriving DecidableEq, Repr

/-- The access codes of R9. -/
inductive Acc where
  | RO | RW | WO | W1C | W1S | RWL | SH
deriving DecidableEq, Repr

/-- One field as its table gives it: word, lowest bit, width, access, reset value. -/
structure FieldDef where
  word : Nat
  lsb : Nat
  w : Nat
  acc : Acc
  rst : Nat
deriving DecidableEq, Repr

/-- The registers of R521, one name each. -/
inductive RegId where
  | GLB_PART | GLB_SERIAL | GLB_MODE | GLB_MODE_REQ | GLB_RESET_CTRL | GLB_SETUP_LOCK
  | GLB_DEVICE_ID | GLB_STRAPS | GLB_BOOT_STATUS | GLB_GPIO_CTRL | GLB_GPIO_IN | GLB_TEMP
  | CRS_ALIGN_CTRL | CRS_ALIGN_STATUS | CRS_PHASE_ERR | CRS_ROOT_ID | CRS_STEP_FROM | CRS_STEP_TO
  | CRS_NOW_LO | CRS_NOW_HI | CRS_SWAP_AT_LO | CRS_SWAP_AT_HI | CRS_SWAP_CTRL | CRS_SET
  | CRS_PORT_ASYM | LAN_TRAIN_CFG | LAN_PT_CTRL | LAN_PT_STATUS | LAN_PT_FAR | LAN_LN_CTRL
  | LAN_LN_STATUS | LAN_LN_TAPS | LAN_LN_PRBS_CTRL | LAN_LN_FEC_INJECT | LNK_CTRL | LNK_STATUS
  | LNK_REPLAY_CFG | LNK_POOL_CFG | LNK_RTT | LNK_TX_SEQ | LNK_RX_SEQ | LNK_CREDIT_LO
  | LNK_CREDIT_HI | RTE_LIFE | RTE_PATH_CFG | RTE_PATH_BIAS | RTE_CONG_CFG | RTE_RA_CFG
  | RTE_STATUS | RTE_DEAD_LO | RTE_DEAD_HI | RTE_WALL_VALID | RTE_LOST | RTE_PORT_ROLE
  | RTE_EXIT | SCH_VC_CFG | SCH_VC7_CAP | SCH_TC_CFG | SCH_MARK_CFG | SCH_CC_CFG
  | SCH_METER | SCH_METER_MAP | SCH_SHAPER | HIF_CQ_CFG | HIF_HP_STATUS | HIF_EVT_ROUTE
  | HIF_FN_STATUS | HIF_FN_GROUPS | HIF_FN_CMD_ARG | HIF_FN_CMD | HIF_FN_CMD_STATUS | BRG_FN_CFG
  | BRG_FN_ERR | WIN_FN | XLT_AGE_CFG | XLT_AST_BASE_LO | XLT_AST_BASE_HI | XLT_AST_CFG
  | XLT_UNIT_STATUS | XLT_RANGE | XLT_FN_S2 | TRN_RETX_CFG | TRN_ACK_CFG | TRN_RNR_CFG
  | TRN_FLOW_CFG | TRN_CACHE_STATUS | TRN_CMD | TRN_CMD_STATUS | TRN_CMD_ARG | TRN_KEY
  | TRN_SLOT_STATUS | TRN_REGION | MCH_CFG | MCH_RV_CFG | MCH_STATUS | MCH_OVF
  | MCH_FN_QUOTA | RMA_CFG | RMA_STATUS | RMA_KEYTAB | RMA_FN_KEYS | LCK_FL_CFG
  | LCK_FL_STATUS | LCK_FL_ARG | LCK_FL_CMD | LCK_FL_CMD_STATUS | LCK_FL_RES | LCK_CELL
  | LCK_CELL_CFG | COL_CFG | COL_STATUS | COL_CMD | COL_CMD_STATUS | COL_CMD_ARG
  | COL_KEY | COL_TREE | COL_TREE_STATE | BRG_CFG | BRG_HP_STATUS | WIN_PF
  | LTL_CFG | LTL_BUS_CFG | LTL_SB_CFG | LTL_SB_STATUS | LTL_ROUTE | BST_CFG
  | BST_STATUS | BST_LOG | BST_SIG | BST_CMD | BST_CMD_STATUS | BST_REPAIR
  | MGT_MC_CTRL | MGT_FW_SERVE | MGT_MG_CFG | MGT_FM_ORIGIN | MGT_BOOT_MBOX | MGT_HWIN
  | MGT_MG | MGT_MG_DATA | RBK_SEL | RBK_TIME
deriving DecidableEq, Repr

/-- One register (or array of registers): first BAR0 offset, up to two dimensions (count, stride), words, fields. -/
structure RegDef where
  id : RegId
  base : Nat
  n1 : Nat
  s1 : Nat
  n2 : Nat
  s2 : Nat
  words : Nat
  fields : List FieldDef
deriving DecidableEq, Repr

namespace Reg
/-- GLB_PART (17_registers.md). -/
def GLB_PART.off : Nat := 0x4
def GLB_PART.part : Fld := ⟨GLB_PART.off, 16, 16⟩
def GLB_PART.stepping : Fld := ⟨GLB_PART.off, 8, 8⟩
def GLB_PART.family : Fld := ⟨GLB_PART.off, 0, 8⟩
/-- GLB_SERIAL (17_registers.md). -/
def GLB_SERIAL.off : Nat := 0x8
def GLB_SERIAL.serial_lo : Fld := ⟨GLB_SERIAL.off, 0, 32⟩
def GLB_SERIAL.serial_hi : Fld := ⟨(GLB_SERIAL.off + 4), 0, 32⟩
/-- GLB_MODE (01_architecture.md). -/
def GLB_MODE.off : Nat := 0x10
def GLB_MODE.req_err : Fld := ⟨GLB_MODE.off, 31, 1⟩
def GLB_MODE.refused_mode : Fld := ⟨GLB_MODE.off, 28, 3⟩
def GLB_MODE.cause : Fld := ⟨GLB_MODE.off, 16, 4⟩
def GLB_MODE.aligned : Fld := ⟨GLB_MODE.off, 13, 1⟩
def GLB_MODE.drained : Fld := ⟨GLB_MODE.off, 12, 1⟩
def GLB_MODE.prev_mode : Fld := ⟨GLB_MODE.off, 8, 3⟩
def GLB_MODE.mode : Fld := ⟨GLB_MODE.off, 0, 3⟩
/-- GLB_MODE_REQ (01_architecture.md). -/
def GLB_MODE_REQ.off : Nat := 0x14
def GLB_MODE_REQ.pending : Fld := ⟨GLB_MODE_REQ.off, 31, 1⟩
def GLB_MODE_REQ.requester : Fld := ⟨GLB_MODE_REQ.off, 16, 12⟩
def GLB_MODE_REQ.target : Fld := ⟨GLB_MODE_REQ.off, 0, 3⟩
/-- GLB_RESET_CTRL (17_registers.md). -/
def GLB_RESET_CTRL.off : Nat := 0x18
def GLB_RESET_CTRL.key : Fld := ⟨GLB_RESET_CTRL.off, 16, 16⟩
def GLB_RESET_CTRL.full_reset : Fld := ⟨GLB_RESET_CTRL.off, 0, 1⟩
/-- GLB_SETUP_LOCK (17_registers.md). -/
def GLB_SETUP_LOCK.off : Nat := 0x1c
def GLB_SETUP_LOCK.lock : Fld := ⟨GLB_SETUP_LOCK.off, 0, 1⟩
/-- GLB_DEVICE_ID (01_architecture.md). -/
def GLB_DEVICE_ID.off : Nat := 0x20
def GLB_DEVICE_ID.device_id : Fld := ⟨GLB_DEVICE_ID.off, 0, 20⟩
/-- GLB_STRAPS (17_registers.md). -/
def GLB_STRAPS.off : Nat := 0x24
def GLB_STRAPS.timeroot : Fld := ⟨GLB_STRAPS.off, 4, 1⟩
def GLB_STRAPS.hpmode : Fld := ⟨GLB_STRAPS.off, 3, 1⟩
def GLB_STRAPS.boot : Fld := ⟨GLB_STRAPS.off, 0, 2⟩
/-- GLB_BOOT_STATUS (16_boot_management.md). -/
def GLB_BOOT_STATUS.off : Nat := 0x30
def GLB_BOOT_STATUS.stage : Fld := ⟨GLB_BOOT_STATUS.off, 28, 4⟩
def GLB_BOOT_STATUS.source : Fld := ⟨GLB_BOOT_STATUS.off, 26, 2⟩
def GLB_BOOT_STATUS.result : Fld := ⟨GLB_BOOT_STATUS.off, 20, 4⟩
def GLB_BOOT_STATUS.attempts : Fld := ⟨GLB_BOOT_STATUS.off, 12, 8⟩
def GLB_BOOT_STATUS.svn : Fld := ⟨GLB_BOOT_STATUS.off, 0, 12⟩
/-- GLB_GPIO_CTRL (17_registers.md). -/
def GLB_GPIO_CTRL.off : Nat := 0x40
def GLB_GPIO_CTRL.oe : Fld := ⟨GLB_GPIO_CTRL.off, 16, 16⟩
def GLB_GPIO_CTRL.out : Fld := ⟨GLB_GPIO_CTRL.off, 0, 16⟩
/-- GLB_GPIO_IN (17_registers.md). -/
def GLB_GPIO_IN.off : Nat := 0x44
def GLB_GPIO_IN.inp : Fld := ⟨GLB_GPIO_IN.off, 0, 16⟩
/-- GLB_TEMP (17_registers.md). -/
def GLB_TEMP.off (i : Nat) : Nat := 0x200 + 0x4 * i
def GLB_TEMP.valid (i : Nat) : Fld := ⟨(GLB_TEMP.off i), 31, 1⟩
def GLB_TEMP.temp (i : Nat) : Fld := ⟨(GLB_TEMP.off i), 0, 16⟩
/-- CRS_ALIGN_CTRL (02_courses.md). -/
def CRS_ALIGN_CTRL.off : Nat := 0x80010
def CRS_ALIGN_CTRL.rank : Fld := ⟨CRS_ALIGN_CTRL.off, 8, 2⟩
def CRS_ALIGN_CTRL.head_mode : Fld := ⟨CRS_ALIGN_CTRL.off, 6, 2⟩
def CRS_ALIGN_CTRL.root : Fld := ⟨CRS_ALIGN_CTRL.off, 0, 1⟩
/-- CRS_ALIGN_STATUS (02_courses.md). -/
def CRS_ALIGN_STATUS.off : Nat := 0x80014
def CRS_ALIGN_STATUS.multi_root : Fld := ⟨CRS_ALIGN_STATUS.off, 31, 1⟩
def CRS_ALIGN_STATUS.lost : Fld := ⟨CRS_ALIGN_STATUS.off, 30, 1⟩
def CRS_ALIGN_STATUS.stepped : Fld := ⟨CRS_ALIGN_STATUS.off, 29, 1⟩
def CRS_ALIGN_STATUS.out_of_bound : Fld := ⟨CRS_ALIGN_STATUS.off, 28, 1⟩
def CRS_ALIGN_STATUS.holdover : Fld := ⟨CRS_ALIGN_STATUS.off, 27, 1⟩
def CRS_ALIGN_STATUS.aligned : Fld := ⟨CRS_ALIGN_STATUS.off, 19, 1⟩
def CRS_ALIGN_STATUS.global_depth : Fld := ⟨CRS_ALIGN_STATUS.off, 17, 2⟩
def CRS_ALIGN_STATUS.local_depth : Fld := ⟨CRS_ALIGN_STATUS.off, 15, 2⟩
def CRS_ALIGN_STATUS.is_head : Fld := ⟨CRS_ALIGN_STATUS.off, 14, 1⟩
def CRS_ALIGN_STATUS.is_root : Fld := ⟨CRS_ALIGN_STATUS.off, 13, 1⟩
def CRS_ALIGN_STATUS.parent_valid : Fld := ⟨CRS_ALIGN_STATUS.off, 6, 1⟩
def CRS_ALIGN_STATUS.parent_port : Fld := ⟨CRS_ALIGN_STATUS.off, 0, 6⟩
/-- CRS_PHASE_ERR (02_courses.md). -/
def CRS_PHASE_ERR.off : Nat := 0x80018
def CRS_PHASE_ERR.err : Fld := ⟨CRS_PHASE_ERR.off, 0, 16⟩
/-- CRS_ROOT_ID (02_courses.md). -/
def CRS_ROOT_ID.off : Nat := 0x8001c
def CRS_ROOT_ID.valid : Fld := ⟨CRS_ROOT_ID.off, 22, 1⟩
def CRS_ROOT_ID.rank : Fld := ⟨CRS_ROOT_ID.off, 20, 2⟩
def CRS_ROOT_ID.root_id : Fld := ⟨CRS_ROOT_ID.off, 0, 20⟩
/-- CRS_STEP_FROM (02_courses.md). -/
def CRS_STEP_FROM.off : Nat := 0x80020
def CRS_STEP_FROM.course_lo : Fld := ⟨CRS_STEP_FROM.off, 16, 16⟩
def CRS_STEP_FROM.cycle : Fld := ⟨CRS_STEP_FROM.off, 0, 11⟩
def CRS_STEP_FROM.course_hi : Fld := ⟨(CRS_STEP_FROM.off + 4), 0, 32⟩
/-- CRS_STEP_TO (02_courses.md). -/
def CRS_STEP_TO.off : Nat := 0x80028
def CRS_STEP_TO.course_lo : Fld := ⟨CRS_STEP_TO.off, 16, 16⟩
def CRS_STEP_TO.cycle : Fld := ⟨CRS_STEP_TO.off, 0, 11⟩
def CRS_STEP_TO.course_hi : Fld := ⟨(CRS_STEP_TO.off + 4), 0, 32⟩
/-- CRS_NOW_LO (02_courses.md). -/
def CRS_NOW_LO.off : Nat := 0x80100
def CRS_NOW_LO.course_lo : Fld := ⟨CRS_NOW_LO.off, 16, 16⟩
def CRS_NOW_LO.cycle : Fld := ⟨CRS_NOW_LO.off, 0, 11⟩
/-- CRS_NOW_HI (02_courses.md). -/
def CRS_NOW_HI.off : Nat := 0x80104
def CRS_NOW_HI.course_hi : Fld := ⟨CRS_NOW_HI.off, 0, 32⟩
/-- CRS_SWAP_AT_LO (02_courses.md). -/
def CRS_SWAP_AT_LO.off : Nat := 0x80200
def CRS_SWAP_AT_LO.course_lo : Fld := ⟨CRS_SWAP_AT_LO.off, 0, 32⟩
/-- CRS_SWAP_AT_HI (02_courses.md). -/
def CRS_SWAP_AT_HI.off : Nat := 0x80204
def CRS_SWAP_AT_HI.course_hi : Fld := ⟨CRS_SWAP_AT_HI.off, 0, 16⟩
/-- CRS_SWAP_CTRL (02_courses.md). -/
def CRS_SWAP_CTRL.off : Nat := 0x80208
def CRS_SWAP_CTRL.arm_err : Fld := ⟨CRS_SWAP_CTRL.off, 31, 1⟩
def CRS_SWAP_CTRL.err_code : Fld := ⟨CRS_SWAP_CTRL.off, 28, 3⟩
def CRS_SWAP_CTRL.copy_busy : Fld := ⟨CRS_SWAP_CTRL.off, 9, 1⟩
def CRS_SWAP_CTRL.armed : Fld := ⟨CRS_SWAP_CTRL.off, 8, 1⟩
def CRS_SWAP_CTRL.copy : Fld := ⟨CRS_SWAP_CTRL.off, 2, 1⟩
def CRS_SWAP_CTRL.disarm : Fld := ⟨CRS_SWAP_CTRL.off, 1, 1⟩
def CRS_SWAP_CTRL.arm : Fld := ⟨CRS_SWAP_CTRL.off, 0, 1⟩
/-- CRS_SET (02_courses.md). -/
def CRS_SET.off : Nat := 0x8020c
def CRS_SET.epoch : Fld := ⟨CRS_SET.off, 16, 16⟩
def CRS_SET.shadow_busy : Fld := ⟨CRS_SET.off, 1, 1⟩
def CRS_SET.active : Fld := ⟨CRS_SET.off, 0, 1⟩
/-- CRS_PORT_ASYM (02_courses.md). -/
def CRS_PORT_ASYM.off (i : Nat) : Nat := 0x80400 + 0x4 * i
def CRS_PORT_ASYM.asym (i : Nat) : Fld := ⟨(CRS_PORT_ASYM.off i), 0, 16⟩
/-- LAN_TRAIN_CFG (03_lanes.md). -/
def LAN_TRAIN_CFG.off : Nat := 0x100020
def LAN_TRAIN_CFG.retries : Fld := ⟨LAN_TRAIN_CFG.off, 28, 4⟩
def LAN_TRAIN_CFG.snr_min : Fld := ⟨LAN_TRAIN_CFG.off, 18, 10⟩
def LAN_TRAIN_CFG.limit : Fld := ⟨LAN_TRAIN_CFG.off, 0, 16⟩
/-- LAN_PT_CTRL (03_lanes.md). -/
def LAN_PT_CTRL.off (i : Nat) : Nat := 0x101000 + 0x40 * i
def LAN_PT_CTRL.test (i : Nat) : Fld := ⟨(LAN_PT_CTRL.off i), 7, 1⟩
def LAN_PT_CTRL.force_width1 (i : Nat) : Fld := ⟨(LAN_PT_CTRL.off i), 4, 1⟩
def LAN_PT_CTRL.sleep_mask (i : Nat) : Fld := ⟨(LAN_PT_CTRL.off i), 0, 2⟩
/-- LAN_PT_STATUS (03_lanes.md). -/
def LAN_PT_STATUS.off (i : Nat) : Nat := 0x101004 + 0x40 * i
def LAN_PT_STATUS.test_refused (i : Nat) : Fld := ⟨(LAN_PT_STATUS.off i), 31, 1⟩
def LAN_PT_STATUS.skew_err (i : Nat) : Fld := ⟨(LAN_PT_STATUS.off i), 30, 1⟩
def LAN_PT_STATUS.far_mismatch (i : Nat) : Fld := ⟨(LAN_PT_STATUS.off i), 29, 1⟩
def LAN_PT_STATUS.phy_up (i : Nat) : Fld := ⟨(LAN_PT_STATUS.off i), 28, 1⟩
def LAN_PT_STATUS.tx_mask (i : Nat) : Fld := ⟨(LAN_PT_STATUS.off i), 26, 2⟩
def LAN_PT_STATUS.rx_mask (i : Nat) : Fld := ⟨(LAN_PT_STATUS.off i), 24, 2⟩
def LAN_PT_STATUS.sleeping (i : Nat) : Fld := ⟨(LAN_PT_STATUS.off i), 22, 2⟩
def LAN_PT_STATUS.far_sleep_mask (i : Nat) : Fld := ⟨(LAN_PT_STATUS.off i), 20, 2⟩
def LAN_PT_STATUS.skew (i : Nat) : Fld := ⟨(LAN_PT_STATUS.off i), 0, 12⟩
/-- LAN_PT_FAR (03_lanes.md). -/
def LAN_PT_FAR.off (i : Nat) : Nat := 0x101008 + 0x40 * i
def LAN_PT_FAR.valid (i : Nat) : Fld := ⟨(LAN_PT_FAR.off i), 31, 1⟩
def LAN_PT_FAR.far_port (i : Nat) : Fld := ⟨(LAN_PT_FAR.off i), 20, 6⟩
def LAN_PT_FAR.far_device (i : Nat) : Fld := ⟨(LAN_PT_FAR.off i), 0, 20⟩
/-- LAN_LN_CTRL (03_lanes.md). -/
def LAN_LN_CTRL.off (i : Nat) : Nat := 0x110000 + 0x1000 * i
def LAN_LN_CTRL.restart (i : Nat) : Fld := ⟨(LAN_LN_CTRL.off i), 31, 1⟩
def LAN_LN_CTRL.tx_invert (i : Nat) : Fld := ⟨(LAN_LN_CTRL.off i), 28, 1⟩
def LAN_LN_CTRL.rx_invert (i : Nat) : Fld := ⟨(LAN_LN_CTRL.off i), 27, 1⟩
def LAN_LN_CTRL.loopback (i : Nat) : Fld := ⟨(LAN_LN_CTRL.off i), 22, 2⟩
def LAN_LN_CTRL.enable (i : Nat) : Fld := ⟨(LAN_LN_CTRL.off i), 0, 1⟩
/-- LAN_LN_STATUS (03_lanes.md). -/
def LAN_LN_STATUS.off (i : Nat) : Nat := 0x110004 + 0x1000 * i
def LAN_LN_STATUS.state (i : Nat) : Fld := ⟨(LAN_LN_STATUS.off i), 28, 4⟩
def LAN_LN_STATUS.signal_detect (i : Nat) : Fld := ⟨(LAN_LN_STATUS.off i), 27, 1⟩
def LAN_LN_STATUS.frame_lock (i : Nat) : Fld := ⟨(LAN_LN_STATUS.off i), 26, 1⟩
def LAN_LN_STATUS.rx_ready (i : Nat) : Fld := ⟨(LAN_LN_STATUS.off i), 25, 1⟩
def LAN_LN_STATUS.far_rx_ready (i : Nat) : Fld := ⟨(LAN_LN_STATUS.off i), 24, 1⟩
def LAN_LN_STATUS.fec_lock (i : Nat) : Fld := ⟨(LAN_LN_STATUS.off i), 23, 1⟩
def LAN_LN_STATUS.marker_lock (i : Nat) : Fld := ⟨(LAN_LN_STATUS.off i), 22, 1⟩
def LAN_LN_STATUS.far_lane_index (i : Nat) : Fld := ⟨(LAN_LN_STATUS.off i), 20, 2⟩
def LAN_LN_STATUS.attempts (i : Nat) : Fld := ⟨(LAN_LN_STATUS.off i), 16, 4⟩
def LAN_LN_STATUS.snr (i : Nat) : Fld := ⟨(LAN_LN_STATUS.off i), 0, 10⟩
/-- LAN_LN_TAPS (03_lanes.md). -/
def LAN_LN_TAPS.off (i : Nat) : Nat := 0x110008 + 0x1000 * i
def LAN_LN_TAPS.c1 (i : Nat) : Fld := ⟨(LAN_LN_TAPS.off i), 22, 5⟩
def LAN_LN_TAPS.c0 (i : Nat) : Fld := ⟨(LAN_LN_TAPS.off i), 15, 7⟩
def LAN_LN_TAPS.c_m1 (i : Nat) : Fld := ⟨(LAN_LN_TAPS.off i), 9, 6⟩
def LAN_LN_TAPS.c_m2 (i : Nat) : Fld := ⟨(LAN_LN_TAPS.off i), 4, 5⟩
def LAN_LN_TAPS.c_m3 (i : Nat) : Fld := ⟨(LAN_LN_TAPS.off i), 0, 4⟩
/-- LAN_LN_PRBS_CTRL (03_lanes.md). -/
def LAN_LN_PRBS_CTRL.off (i : Nat) : Nat := 0x110010 + 0x1000 * i
def LAN_LN_PRBS_CTRL.inject_one (i : Nat) : Fld := ⟨(LAN_LN_PRBS_CTRL.off i), 31, 1⟩
def LAN_LN_PRBS_CTRL.chk_lock (i : Nat) : Fld := ⟨(LAN_LN_PRBS_CTRL.off i), 30, 1⟩
def LAN_LN_PRBS_CTRL.chk_lost (i : Nat) : Fld := ⟨(LAN_LN_PRBS_CTRL.off i), 29, 1⟩
def LAN_LN_PRBS_CTRL.inject_rate (i : Nat) : Fld := ⟨(LAN_LN_PRBS_CTRL.off i), 23, 4⟩
def LAN_LN_PRBS_CTRL.chk_pattern (i : Nat) : Fld := ⟨(LAN_LN_PRBS_CTRL.off i), 17, 1⟩
def LAN_LN_PRBS_CTRL.chk_en (i : Nat) : Fld := ⟨(LAN_LN_PRBS_CTRL.off i), 16, 1⟩
def LAN_LN_PRBS_CTRL.gen_pattern (i : Nat) : Fld := ⟨(LAN_LN_PRBS_CTRL.off i), 1, 1⟩
def LAN_LN_PRBS_CTRL.gen_en (i : Nat) : Fld := ⟨(LAN_LN_PRBS_CTRL.off i), 0, 1⟩
/-- LAN_LN_FEC_INJECT (03_lanes.md). -/
def LAN_LN_FEC_INJECT.off (i : Nat) : Nat := 0x110018 + 0x1000 * i
def LAN_LN_FEC_INJECT.continuous (i : Nat) : Fld := ⟨(LAN_LN_FEC_INJECT.off i), 31, 1⟩
def LAN_LN_FEC_INJECT.symbols (i : Nat) : Fld := ⟨(LAN_LN_FEC_INJECT.off i), 0, 5⟩
/-- LNK_CTRL (04_link.md). -/
def LNK_CTRL.off (i : Nat) : Nat := 0x210000 + 0x1000 * i
def LNK_CTRL.init_limit (i : Nat) : Fld := ⟨(LNK_CTRL.off i), 24, 8⟩
def LNK_CTRL.holdoff (i : Nat) : Fld := ⟨(LNK_CTRL.off i), 16, 8⟩
def LNK_CTRL.ka_limit (i : Nat) : Fld := ⟨(LNK_CTRL.off i), 8, 8⟩
def LNK_CTRL.reinit (i : Nat) : Fld := ⟨(LNK_CTRL.off i), 1, 1⟩
def LNK_CTRL.enable (i : Nat) : Fld := ⟨(LNK_CTRL.off i), 0, 1⟩
/-- LNK_STATUS (04_link.md). -/
def LNK_STATUS.off (i : Nat) : Nat := 0x210004 + 0x1000 * i
def LNK_STATUS.reach_exceeded (i : Nat) : Fld := ⟨(LNK_STATUS.off i), 31, 1⟩
def LNK_STATUS.far_changed (i : Nat) : Fld := ⟨(LNK_STATUS.off i), 30, 1⟩
def LNK_STATUS.down_cause (i : Nat) : Fld := ⟨(LNK_STATUS.off i), 27, 3⟩
def LNK_STATUS.far_pool_off (i : Nat) : Fld := ⟨(LNK_STATUS.off i), 26, 1⟩
def LNK_STATUS.pool_off (i : Nat) : Fld := ⟨(LNK_STATUS.off i), 25, 1⟩
def LNK_STATUS.nak_outstanding (i : Nat) : Fld := ⟨(LNK_STATUS.off i), 24, 1⟩
def LNK_STATUS.replaying (i : Nat) : Fld := ⟨(LNK_STATUS.off i), 23, 1⟩
def LNK_STATUS.window_full (i : Nat) : Fld := ⟨(LNK_STATUS.off i), 22, 1⟩
def LNK_STATUS.resumed (i : Nat) : Fld := ⟨(LNK_STATUS.off i), 21, 1⟩
def LNK_STATUS.state (i : Nat) : Fld := ⟨(LNK_STATUS.off i), 0, 3⟩
/-- LNK_REPLAY_CFG (04_link.md). -/
def LNK_REPLAY_CFG.off (i : Nat) : Nat := 0x210008 + 0x1000 * i
def LNK_REPLAY_CFG.limit (i : Nat) : Fld := ⟨(LNK_REPLAY_CFG.off i), 24, 8⟩
def LNK_REPLAY_CFG.tmo_cycles (i : Nat) : Fld := ⟨(LNK_REPLAY_CFG.off i), 8, 11⟩
def LNK_REPLAY_CFG.tmo_courses (i : Nat) : Fld := ⟨(LNK_REPLAY_CFG.off i), 0, 8⟩
/-- LNK_POOL_CFG (04_link.md). -/
def LNK_POOL_CFG.off (i : Nat) : Nat := 0x21000c + 0x1000 * i
def LNK_POOL_CFG.auto (i : Nat) : Fld := ⟨(LNK_POOL_CFG.off i), 31, 1⟩
def LNK_POOL_CFG.hysteresis (i : Nat) : Fld := ⟨(LNK_POOL_CFG.off i), 16, 11⟩
def LNK_POOL_CFG.headroom (i : Nat) : Fld := ⟨(LNK_POOL_CFG.off i), 0, 13⟩
/-- LNK_RTT (04_link.md). -/
def LNK_RTT.off (i : Nat) : Nat := 0x210010 + 0x1000 * i
def LNK_RTT.rtt (i : Nat) : Fld := ⟨(LNK_RTT.off i), 0, 20⟩
/-- LNK_TX_SEQ (04_link.md). -/
def LNK_TX_SEQ.off (i : Nat) : Nat := 0x210014 + 0x1000 * i
def LNK_TX_SEQ.acked (i : Nat) : Fld := ⟨(LNK_TX_SEQ.off i), 16, 14⟩
def LNK_TX_SEQ.next (i : Nat) : Fld := ⟨(LNK_TX_SEQ.off i), 0, 14⟩
/-- LNK_RX_SEQ (04_link.md). -/
def LNK_RX_SEQ.off (i : Nat) : Nat := 0x210018 + 0x1000 * i
def LNK_RX_SEQ.pool_free (i : Nat) : Fld := ⟨(LNK_RX_SEQ.off i), 16, 13⟩
def LNK_RX_SEQ.expected (i : Nat) : Fld := ⟨(LNK_RX_SEQ.off i), 0, 14⟩
/-- LNK_CREDIT_LO (04_link.md). -/
def LNK_CREDIT_LO.off (i : Nat) : Nat := 0x210020 + 0x1000 * i
def LNK_CREDIT_LO.vc3 (i : Nat) : Fld := ⟨(LNK_CREDIT_LO.off i), 24, 8⟩
def LNK_CREDIT_LO.vc2 (i : Nat) : Fld := ⟨(LNK_CREDIT_LO.off i), 16, 8⟩
def LNK_CREDIT_LO.vc1 (i : Nat) : Fld := ⟨(LNK_CREDIT_LO.off i), 8, 8⟩
def LNK_CREDIT_LO.vc0 (i : Nat) : Fld := ⟨(LNK_CREDIT_LO.off i), 0, 8⟩
/-- LNK_CREDIT_HI (04_link.md). -/
def LNK_CREDIT_HI.off (i : Nat) : Nat := 0x210024 + 0x1000 * i
def LNK_CREDIT_HI.vc7 (i : Nat) : Fld := ⟨(LNK_CREDIT_HI.off i), 24, 8⟩
def LNK_CREDIT_HI.vc6 (i : Nat) : Fld := ⟨(LNK_CREDIT_HI.off i), 16, 8⟩
def LNK_CREDIT_HI.vc5 (i : Nat) : Fld := ⟨(LNK_CREDIT_HI.off i), 8, 8⟩
def LNK_CREDIT_HI.vc4 (i : Nat) : Fld := ⟨(LNK_CREDIT_HI.off i), 0, 8⟩
/-- RTE_LIFE (05_routing.md). -/
def RTE_LIFE.off : Nat := 0x300020
def RTE_LIFE.life : Fld := ⟨RTE_LIFE.off, 0, 15⟩
/-- RTE_PATH_CFG (05_routing.md). -/
def RTE_PATH_CFG.off : Nat := 0x300030
def RTE_PATH_CFG.lvl_w3 : Fld := ⟨RTE_PATH_CFG.off, 24, 8⟩
def RTE_PATH_CFG.lvl_w2 : Fld := ⟨RTE_PATH_CFG.off, 16, 8⟩
def RTE_PATH_CFG.lvl_w1 : Fld := ⟨RTE_PATH_CFG.off, 8, 8⟩
def RTE_PATH_CFG.hop_w : Fld := ⟨RTE_PATH_CFG.off, 4, 4⟩
def RTE_PATH_CFG.nm_tries : Fld := ⟨RTE_PATH_CFG.off, 1, 3⟩
def RTE_PATH_CFG.nm_en : Fld := ⟨RTE_PATH_CFG.off, 0, 1⟩
/-- RTE_PATH_BIAS (05_routing.md). -/
def RTE_PATH_BIAS.off : Nat := 0x300034
def RTE_PATH_BIAS.nm_bias : Fld := ⟨RTE_PATH_BIAS.off, 0, 8⟩
/-- RTE_CONG_CFG (05_routing.md). -/
def RTE_CONG_CFG.off : Nat := 0x300038
def RTE_CONG_CFG.t3 : Fld := ⟨RTE_CONG_CFG.off, 20, 10⟩
def RTE_CONG_CFG.t2 : Fld := ⟨RTE_CONG_CFG.off, 10, 10⟩
def RTE_CONG_CFG.t1 : Fld := ⟨RTE_CONG_CFG.off, 0, 10⟩
/-- RTE_RA_CFG (05_routing.md). -/
def RTE_RA_CFG.off : Nat := 0x300040
def RTE_RA_CFG.revive : Fld := ⟨RTE_RA_CFG.off, 16, 16⟩
def RTE_RA_CFG.ra_courses : Fld := ⟨RTE_RA_CFG.off, 0, 8⟩
/-- RTE_STATUS (05_routing.md). -/
def RTE_STATUS.off : Nat := 0x300044
def RTE_STATUS.life_refused : Fld := ⟨RTE_STATUS.off, 1, 1⟩
def RTE_STATUS.role_err : Fld := ⟨RTE_STATUS.off, 0, 1⟩
/-- RTE_DEAD_LO (05_routing.md). -/
def RTE_DEAD_LO.off : Nat := 0x300050
def RTE_DEAD_LO.dead : Fld := ⟨RTE_DEAD_LO.off, 0, 32⟩
/-- RTE_DEAD_HI (05_routing.md). -/
def RTE_DEAD_HI.off : Nat := 0x300054
def RTE_DEAD_HI.dead : Fld := ⟨RTE_DEAD_HI.off, 0, 32⟩
/-- RTE_WALL_VALID (R155). -/
def RTE_WALL_VALID.off (i : Nat) : Nat := 0x300800 + 0x4 * i
def RTE_WALL_VALID.valid (i : Nat) : Fld := ⟨(RTE_WALL_VALID.off i), 0, 32⟩
/-- RTE_LOST (R183). -/
def RTE_LOST.off (i : Nat) : Nat := 0x300900 + 0x4 * i
def RTE_LOST.lost (i : Nat) : Fld := ⟨(RTE_LOST.off i), 0, 32⟩
/-- RTE_PORT_ROLE (05_routing.md). -/
def RTE_PORT_ROLE.off (i : Nat) : Nat := 0x301000 + 0x4 * i
def RTE_PORT_ROLE.auto (i : Nat) : Fld := ⟨(RTE_PORT_ROLE.off i), 16, 1⟩
def RTE_PORT_ROLE.gidx (i : Nat) : Fld := ⟨(RTE_PORT_ROLE.off i), 11, 5⟩
def RTE_PORT_ROLE.peer (i : Nat) : Fld := ⟨(RTE_PORT_ROLE.off i), 4, 4⟩
def RTE_PORT_ROLE.role (i : Nat) : Fld := ⟨(RTE_PORT_ROLE.off i), 0, 3⟩
/-- RTE_EXIT (R153). -/
def RTE_EXIT.off (i : Nat) : Nat := 0x340000 + 0x10 * i
def RTE_EXIT.w0 (i : Nat) : Fld := ⟨(RTE_EXIT.off i), 0, 32⟩
def RTE_EXIT.w1 (i : Nat) : Fld := ⟨(RTE_EXIT.off i + 4), 0, 32⟩
def RTE_EXIT.w2 (i : Nat) : Fld := ⟨(RTE_EXIT.off i + 8), 0, 32⟩
def RTE_EXIT.w3 (i : Nat) : Fld := ⟨(RTE_EXIT.off i + 12), 0, 32⟩
/-- SCH_VC_CFG (06_scheduling.md). -/
def SCH_VC_CFG.off (i : Nat) : Nat := 0x380100 + 0x4 * i
def SCH_VC_CFG.quantum (i : Nat) : Fld := ⟨(SCH_VC_CFG.off i), 0, 12⟩
/-- SCH_VC7_CAP (06_scheduling.md). -/
def SCH_VC7_CAP.off : Nat := 0x380120
def SCH_VC7_CAP.cap : Fld := ⟨SCH_VC7_CAP.off, 0, 11⟩
/-- SCH_TC_CFG (06_scheduling.md). -/
def SCH_TC_CFG.off (i : Nat) : Nat := 0x380140 + 0x4 * i
def SCH_TC_CFG.quantum (i : Nat) : Fld := ⟨(SCH_TC_CFG.off i), 0, 12⟩
/-- SCH_MARK_CFG (06_scheduling.md). -/
def SCH_MARK_CFG.off : Nat := 0x380180
def SCH_MARK_CFG.enable : Fld := ⟨SCH_MARK_CFG.off, 20, 1⟩
def SCH_MARK_CFG.mark_g : Fld := ⟨SCH_MARK_CFG.off, 10, 10⟩
def SCH_MARK_CFG.mark_y : Fld := ⟨SCH_MARK_CFG.off, 0, 10⟩
/-- SCH_CC_CFG (06_scheduling.md). -/
def SCH_CC_CFG.off : Nat := 0x380190
def SCH_CC_CFG.cwnd_max : Fld := ⟨SCH_CC_CFG.off, 19, 13⟩
def SCH_CC_CFG.ai : Fld := ⟨SCH_CC_CFG.off, 11, 8⟩
def SCH_CC_CFG.g_shift : Fld := ⟨SCH_CC_CFG.off, 7, 4⟩
def SCH_CC_CFG.cc_en : Fld := ⟨SCH_CC_CFG.off, 0, 1⟩
/-- SCH_METER (06_scheduling.md). -/
def SCH_METER.off (i : Nat) : Nat := 0x390000 + 0x10 * i
def SCH_METER.enable (i : Nat) : Fld := ⟨(SCH_METER.off i), 31, 1⟩
def SCH_METER.colour_aware (i : Nat) : Fld := ⟨(SCH_METER.off i), 30, 1⟩
def SCH_METER.red_action (i : Nat) : Fld := ⟨(SCH_METER.off i), 29, 1⟩
def SCH_METER.cir (i : Nat) : Fld := ⟨(SCH_METER.off i), 0, 17⟩
def SCH_METER.pir (i : Nat) : Fld := ⟨(SCH_METER.off i + 4), 0, 17⟩
def SCH_METER.cbs (i : Nat) : Fld := ⟨(SCH_METER.off i + 8), 0, 20⟩
def SCH_METER.pbs (i : Nat) : Fld := ⟨(SCH_METER.off i + 12), 0, 20⟩
/-- SCH_METER_MAP (06_scheduling.md). -/
def SCH_METER_MAP.off (i : Nat) : Nat := 0x3b0000 + 0x4 * i
def SCH_METER_MAP.meter_valid (i : Nat) : Fld := ⟨(SCH_METER_MAP.off i), 31, 1⟩
def SCH_METER_MAP.meter (i : Nat) : Fld := ⟨(SCH_METER_MAP.off i), 16, 13⟩
def SCH_METER_MAP.shaper_valid (i : Nat) : Fld := ⟨(SCH_METER_MAP.off i), 15, 1⟩
def SCH_METER_MAP.shaper (i : Nat) : Fld := ⟨(SCH_METER_MAP.off i), 0, 12⟩
/-- SCH_SHAPER (06_scheduling.md). -/
def SCH_SHAPER.off (i : Nat) : Nat := 0x3c0000 + 0x8 * i
def SCH_SHAPER.enable (i : Nat) : Fld := ⟨(SCH_SHAPER.off i), 31, 1⟩
def SCH_SHAPER.rate (i : Nat) : Fld := ⟨(SCH_SHAPER.off i), 0, 17⟩
def SCH_SHAPER.burst (i : Nat) : Fld := ⟨(SCH_SHAPER.off i + 4), 0, 20⟩
/-- HIF_CQ_CFG (07_host_rings.md). -/
def HIF_CQ_CFG.off : Nat := 0x400010
def HIF_CQ_CFG.stall_limit : Fld := ⟨HIF_CQ_CFG.off, 0, 16⟩
/-- HIF_HP_STATUS (07_host_rings.md). -/
def HIF_HP_STATUS.off (i : Nat) : Nat := 0x400020 + 0x4 * i
def HIF_HP_STATUS.present (i : Nat) : Fld := ⟨(HIF_HP_STATUS.off i), 31, 1⟩
def HIF_HP_STATUS.link_up (i : Nat) : Fld := ⟨(HIF_HP_STATUS.off i), 30, 1⟩
def HIF_HP_STATUS.flit (i : Nat) : Fld := ⟨(HIF_HP_STATUS.off i), 29, 1⟩
def HIF_HP_STATUS.width (i : Nat) : Fld := ⟨(HIF_HP_STATUS.off i), 16, 5⟩
def HIF_HP_STATUS.speed (i : Nat) : Fld := ⟨(HIF_HP_STATUS.off i), 0, 4⟩
/-- HIF_EVT_ROUTE (07_host_rings.md). -/
def HIF_EVT_ROUTE.off (i : Nat) : Nat := 0x410000 + 0x4 * i
def HIF_EVT_ROUTE.ring (i : Nat) : Fld := ⟨(HIF_EVT_ROUTE.off i), 0, 2⟩
/-- HIF_FN_STATUS (07_host_rings.md). -/
def HIF_FN_STATUS.off (i : Nat) : Nat := 0x440000 + 0x100 * i
def HIF_FN_STATUS.exists (i : Nat) : Fld := ⟨(HIF_FN_STATUS.off i), 31, 1⟩
def HIF_FN_STATUS.flr_busy (i : Nat) : Fld := ⟨(HIF_FN_STATUS.off i), 30, 1⟩
def HIF_FN_STATUS.cfg_refused (i : Nat) : Fld := ⟨(HIF_FN_STATUS.off i), 29, 1⟩
def HIF_FN_STATUS.cmd_overrun (i : Nat) : Fld := ⟨(HIF_FN_STATUS.off i), 28, 1⟩
def HIF_FN_STATUS.eq_active (i : Nat) : Fld := ⟨(HIF_FN_STATUS.off i), 27, 1⟩
def HIF_FN_STATUS.identity (i : Nat) : Fld := ⟨(HIF_FN_STATUS.off i), 0, 12⟩
/-- HIF_FN_GROUPS (07_host_rings.md). -/
def HIF_FN_GROUPS.off (i : Nat) : Nat := 0x440004 + 0x100 * i
def HIF_FN_GROUPS.count (i : Nat) : Fld := ⟨(HIF_FN_GROUPS.off i), 14, 14⟩
def HIF_FN_GROUPS.base (i : Nat) : Fld := ⟨(HIF_FN_GROUPS.off i), 0, 14⟩
/-- HIF_FN_CMD_ARG (07_host_rings.md). -/
def HIF_FN_CMD_ARG.off (i j : Nat) : Nat := 0x440040 + 0x100 * i + 0x4 * j
def HIF_FN_CMD_ARG.arg (i j : Nat) : Fld := ⟨(HIF_FN_CMD_ARG.off i j), 0, 32⟩
/-- HIF_FN_CMD (07_host_rings.md). -/
def HIF_FN_CMD.off (i : Nat) : Nat := 0x440070 + 0x100 * i
def HIF_FN_CMD.opcode (i : Nat) : Fld := ⟨(HIF_FN_CMD.off i), 0, 8⟩
/-- HIF_FN_CMD_STATUS (07_host_rings.md). -/
def HIF_FN_CMD_STATUS.off (i : Nat) : Nat := 0x440074 + 0x100 * i
def HIF_FN_CMD_STATUS.busy (i : Nat) : Fld := ⟨(HIF_FN_CMD_STATUS.off i), 31, 1⟩
def HIF_FN_CMD_STATUS.detail (i : Nat) : Fld := ⟨(HIF_FN_CMD_STATUS.off i), 8, 16⟩
def HIF_FN_CMD_STATUS.status (i : Nat) : Fld := ⟨(HIF_FN_CMD_STATUS.off i), 0, 8⟩
/-- BRG_FN_CFG (14_bridges.md). -/
def BRG_FN_CFG.off (i : Nat) : Nat := 0x440078 + 0x100 * i
def BRG_FN_CFG.enable (i : Nat) : Fld := ⟨(BRG_FN_CFG.off i), 31, 1⟩
def BRG_FN_CFG.tc (i : Nat) : Fld := ⟨(BRG_FN_CFG.off i), 24, 2⟩
def BRG_FN_CFG.endpoint (i : Nat) : Fld := ⟨(BRG_FN_CFG.off i), 0, 16⟩
/-- BRG_FN_ERR (14_bridges.md). -/
def BRG_FN_ERR.off (i : Nat) : Nat := 0x44007c + 0x100 * i
def BRG_FN_ERR.window (i : Nat) : Fld := ⟨(BRG_FN_ERR.off i), 26, 6⟩
def BRG_FN_ERR.status (i : Nat) : Fld := ⟨(BRG_FN_ERR.off i), 16, 8⟩
def BRG_FN_ERR.detail (i : Nat) : Fld := ⟨(BRG_FN_ERR.off i), 0, 16⟩
/-- WIN_FN (R442). -/
def WIN_FN.off (i j : Nat) : Nat := 0x440080 + 0x100 * i + 0x10 * j
def WIN_FN.key (i j : Nat) : Fld := ⟨(WIN_FN.off i j), 0, 32⟩
def WIN_FN.offset_lo (i j : Nat) : Fld := ⟨(WIN_FN.off i j + 4), 0, 32⟩
def WIN_FN.target_ep (i j : Nat) : Fld := ⟨(WIN_FN.off i j + 8), 16, 16⟩
def WIN_FN.offset_hi (i j : Nat) : Fld := ⟨(WIN_FN.off i j + 8), 0, 16⟩
def WIN_FN.enable (i j : Nat) : Fld := ⟨(WIN_FN.off i j + 12), 31, 1⟩
def WIN_FN.acked (i j : Nat) : Fld := ⟨(WIN_FN.off i j + 12), 30, 1⟩
def WIN_FN.prefetch (i j : Nat) : Fld := ⟨(WIN_FN.off i j + 12), 29, 1⟩
def WIN_FN.ordered (i j : Nat) : Fld := ⟨(WIN_FN.off i j + 12), 28, 1⟩
def WIN_FN.err (i j : Nat) : Fld := ⟨(WIN_FN.off i j + 12), 27, 1⟩
def WIN_FN.target (i j : Nat) : Fld := ⟨(WIN_FN.off i j + 12), 0, 22⟩
/-- XLT_AGE_CFG (08_translation.md). -/
def XLT_AGE_CFG.off : Nat := 0x480010
def XLT_AGE_CFG.tlb_age : Fld := ⟨XLT_AGE_CFG.off, 0, 24⟩
/-- XLT_AST_BASE_LO (08_translation.md). -/
def XLT_AST_BASE_LO.off (i : Nat) : Nat := 0x481000 + 0x400 * i
def XLT_AST_BASE_LO.base_lo (i : Nat) : Fld := ⟨(XLT_AST_BASE_LO.off i), 12, 20⟩
/-- XLT_AST_BASE_HI (08_translation.md). -/
def XLT_AST_BASE_HI.off (i : Nat) : Nat := 0x481004 + 0x400 * i
def XLT_AST_BASE_HI.base_hi (i : Nat) : Fld := ⟨(XLT_AST_BASE_HI.off i), 0, 20⟩
/-- XLT_AST_CFG (08_translation.md). -/
def XLT_AST_CFG.off (i : Nat) : Nat := 0x481008 + 0x400 * i
def XLT_AST_CFG.enable (i : Nat) : Fld := ⟨(XLT_AST_CFG.off i), 31, 1⟩
def XLT_AST_CFG.n (i : Nat) : Fld := ⟨(XLT_AST_CFG.off i), 0, 5⟩
/-- XLT_UNIT_STATUS (08_translation.md). -/
def XLT_UNIT_STATUS.off (i : Nat) : Nat := 0x48100c + 0x400 * i
def XLT_UNIT_STATUS.present (i : Nat) : Fld := ⟨(XLT_UNIT_STATUS.off i), 31, 1⟩
def XLT_UNIT_STATUS.locked (i : Nat) : Fld := ⟨(XLT_UNIT_STATUS.off i), 16, 12⟩
def XLT_UNIT_STATUS.log_next (i : Nat) : Fld := ⟨(XLT_UNIT_STATUS.off i), 8, 6⟩
def XLT_UNIT_STATUS.walks (i : Nat) : Fld := ⟨(XLT_UNIT_STATUS.off i), 0, 6⟩
/-- XLT_RANGE (08_translation.md). -/
def XLT_RANGE.off (i j : Nat) : Nat := 0x481100 + 0x400 * i + 0x10 * j
def XLT_RANGE.base_lo (i j : Nat) : Fld := ⟨(XLT_RANGE.off i j), 12, 20⟩
def XLT_RANGE.enable (i j : Nat) : Fld := ⟨(XLT_RANGE.off i j), 0, 1⟩
def XLT_RANGE.base_hi (i j : Nat) : Fld := ⟨(XLT_RANGE.off i j + 4), 0, 20⟩
def XLT_RANGE.limit_lo (i j : Nat) : Fld := ⟨(XLT_RANGE.off i j + 8), 12, 20⟩
def XLT_RANGE.limit_hi (i j : Nat) : Fld := ⟨(XLT_RANGE.off i j + 12), 0, 20⟩
/-- XLT_FN_S2 (08_translation.md). -/
def XLT_FN_S2.off (i : Nat) : Nat := 0x484000 + 0x8 * i
def XLT_FN_S2.root_lo (i : Nat) : Fld := ⟨(XLT_FN_S2.off i), 12, 20⟩
def XLT_FN_S2.enable (i : Nat) : Fld := ⟨(XLT_FN_S2.off i), 0, 1⟩
def XLT_FN_S2.root_hi (i : Nat) : Fld := ⟨(XLT_FN_S2.off i + 4), 0, 20⟩
/-- TRN_RETX_CFG (09_transport.md). -/
def TRN_RETX_CFG.off : Nat := 0x500010
def TRN_RETX_CFG.frtx_count : Fld := ⟨TRN_RETX_CFG.off, 28, 4⟩
def TRN_RETX_CFG.frtx_courses : Fld := ⟨TRN_RETX_CFG.off, 24, 4⟩
def TRN_RETX_CFG.retries : Fld := ⟨TRN_RETX_CFG.off, 21, 3⟩
def TRN_RETX_CFG.max_backoff : Fld := ⟨TRN_RETX_CFG.off, 18, 3⟩
def TRN_RETX_CFG.rto_courses : Fld := ⟨TRN_RETX_CFG.off, 11, 7⟩
def TRN_RETX_CFG.rto_cycles : Fld := ⟨TRN_RETX_CFG.off, 0, 11⟩
/-- TRN_ACK_CFG (09_transport.md). -/
def TRN_ACK_CFG.off : Nat := 0x500014
def TRN_ACK_CFG.resp_limit : Fld := ⟨TRN_ACK_CFG.off, 16, 16⟩
def TRN_ACK_CFG.coalesce : Fld := ⟨TRN_ACK_CFG.off, 0, 10⟩
/-- TRN_RNR_CFG (09_transport.md). -/
def TRN_RNR_CFG.off : Nat := 0x500018
def TRN_RNR_CFG.delay : Fld := ⟨TRN_RNR_CFG.off, 16, 16⟩
def TRN_RNR_CFG.limit : Fld := ⟨TRN_RNR_CFG.off, 0, 8⟩
/-- TRN_FLOW_CFG (09_transport.md). -/
def TRN_FLOW_CFG.off : Nat := 0x50001c
def TRN_FLOW_CFG.mode : Fld := ⟨TRN_FLOW_CFG.off, 0, 2⟩
/-- TRN_CACHE_STATUS (09_transport.md). -/
def TRN_CACHE_STATUS.off : Nat := 0x500020
def TRN_CACHE_STATUS.pinned : Fld := ⟨TRN_CACHE_STATUS.off, 16, 16⟩
def TRN_CACHE_STATUS.cached : Fld := ⟨TRN_CACHE_STATUS.off, 0, 16⟩
/-- TRN_CMD (R325). -/
def TRN_CMD.off : Nat := 0x500100
def TRN_CMD.opcode : Fld := ⟨TRN_CMD.off, 0, 8⟩
/-- TRN_CMD_STATUS (R325). -/
def TRN_CMD_STATUS.off : Nat := 0x500104
def TRN_CMD_STATUS.busy : Fld := ⟨TRN_CMD_STATUS.off, 31, 1⟩
def TRN_CMD_STATUS.requester : Fld := ⟨TRN_CMD_STATUS.off, 16, 12⟩
def TRN_CMD_STATUS.result : Fld := ⟨TRN_CMD_STATUS.off, 0, 4⟩
/-- TRN_CMD_ARG (R325). -/
def TRN_CMD_ARG.off (i : Nat) : Nat := 0x500110 + 0x4 * i
def TRN_CMD_ARG.arg (i : Nat) : Fld := ⟨(TRN_CMD_ARG.off i), 0, 32⟩
/-- TRN_KEY (R325). -/
def TRN_KEY.off (i : Nat) : Nat := 0x500120 + 0x4 * i
def TRN_KEY.key (i : Nat) : Fld := ⟨(TRN_KEY.off i), 0, 32⟩
/-- TRN_SLOT_STATUS (09_transport.md). -/
def TRN_SLOT_STATUS.off (i : Nat) : Nat := 0x501000 + 0x4 * i
def TRN_SLOT_STATUS.keyed (i : Nat) : Fld := ⟨(TRN_SLOT_STATUS.off i), 31, 1⟩
def TRN_SLOT_STATUS.encrypt (i : Nat) : Fld := ⟨(TRN_SLOT_STATUS.off i), 30, 1⟩
def TRN_SLOT_STATUS.vf_ok (i : Nat) : Fld := ⟨(TRN_SLOT_STATUS.off i), 29, 1⟩
def TRN_SLOT_STATUS.hp_mask (i : Nat) : Fld := ⟨(TRN_SLOT_STATUS.off i), 24, 4⟩
def TRN_SLOT_STATUS.regions (i : Nat) : Fld := ⟨(TRN_SLOT_STATUS.off i), 20, 4⟩
def TRN_SLOT_STATUS.stale (i : Nat) : Fld := ⟨(TRN_SLOT_STATUS.off i), 16, 4⟩
def TRN_SLOT_STATUS.domain (i : Nat) : Fld := ⟨(TRN_SLOT_STATUS.off i), 0, 16⟩
/-- TRN_REGION (09_transport.md). -/
def TRN_REGION.off (i : Nat) : Nat := 0x520000 + 0x10 * i
def TRN_REGION.enable (i : Nat) : Fld := ⟨(TRN_REGION.off i), 31, 1⟩
def TRN_REGION.k (i : Nat) : Fld := ⟨(TRN_REGION.off i), 0, 5⟩
def TRN_REGION.base_lo (i : Nat) : Fld := ⟨(TRN_REGION.off i + 4), 12, 20⟩
def TRN_REGION.base_hi (i : Nat) : Fld := ⟨(TRN_REGION.off i + 8), 0, 20⟩
def TRN_REGION.cleared_course (i : Nat) : Fld := ⟨(TRN_REGION.off i + 12), 0, 32⟩
/-- MCH_CFG (10_matching.md). -/
def MCH_CFG.off : Nat := 0x580010
def MCH_CFG.rndv_threshold : Fld := ⟨MCH_CFG.off, 0, 17⟩
/-- MCH_RV_CFG (10_matching.md). -/
def MCH_RV_CFG.off : Nat := 0x580014
def MCH_RV_CFG.wait_limit : Fld := ⟨MCH_RV_CFG.off, 0, 24⟩
/-- MCH_STATUS (10_matching.md). -/
def MCH_STATUS.off : Nat := 0x580020
def MCH_STATUS.hdr_used : Fld := ⟨MCH_STATUS.off, 16, 16⟩
def MCH_STATUS.rv_used : Fld := ⟨MCH_STATUS.off, 0, 16⟩
/-- MCH_OVF (10_matching.md). -/
def MCH_OVF.off (i : Nat) : Nat := 0x580100 + 0x10 * i
def MCH_OVF.base_lo (i : Nat) : Fld := ⟨(MCH_OVF.off i), 12, 20⟩
def MCH_OVF.enable (i : Nat) : Fld := ⟨(MCH_OVF.off i), 5, 1⟩
def MCH_OVF.k (i : Nat) : Fld := ⟨(MCH_OVF.off i), 0, 5⟩
def MCH_OVF.base_hi (i : Nat) : Fld := ⟨(MCH_OVF.off i + 4), 0, 20⟩
def MCH_OVF.used (i : Nat) : Fld := ⟨(MCH_OVF.off i + 8), 0, 23⟩
/-- MCH_FN_QUOTA (10_matching.md). -/
def MCH_FN_QUOTA.off (i : Nat) : Nat := 0x584000 + 0x4 * i
def MCH_FN_QUOTA.pre (i : Nat) : Fld := ⟨(MCH_FN_QUOTA.off i), 20, 12⟩
def MCH_FN_QUOTA.hdr (i : Nat) : Fld := ⟨(MCH_FN_QUOTA.off i), 10, 10⟩
def MCH_FN_QUOTA.lb (i : Nat) : Fld := ⟨(MCH_FN_QUOTA.off i), 0, 10⟩
/-- RMA_CFG (11_remote_memory.md). -/
def RMA_CFG.off : Nat := 0x600010
def RMA_CFG.cas_retries : Fld := ⟨RMA_CFG.off, 0, 8⟩
/-- RMA_STATUS (11_remote_memory.md). -/
def RMA_STATUS.off : Nat := 0x600020
def RMA_STATUS.pinned : Fld := ⟨RMA_STATUS.off, 16, 16⟩
def RMA_STATUS.cached : Fld := ⟨RMA_STATUS.off, 0, 16⟩
/-- RMA_KEYTAB (11_remote_memory.md). -/
def RMA_KEYTAB.off (i : Nat) : Nat := 0x600100 + 0x10 * i
def RMA_KEYTAB.base_lo (i : Nat) : Fld := ⟨(RMA_KEYTAB.off i), 12, 20⟩
def RMA_KEYTAB.enable (i : Nat) : Fld := ⟨(RMA_KEYTAB.off i), 5, 1⟩
def RMA_KEYTAB.k (i : Nat) : Fld := ⟨(RMA_KEYTAB.off i), 0, 5⟩
def RMA_KEYTAB.base_hi (i : Nat) : Fld := ⟨(RMA_KEYTAB.off i + 4), 0, 20⟩
def RMA_KEYTAB.registered (i : Nat) : Fld := ⟨(RMA_KEYTAB.off i + 8), 0, 23⟩
/-- RMA_FN_KEYS (11_remote_memory.md). -/
def RMA_FN_KEYS.off (i : Nat) : Nat := 0x604000 + 0x4 * i
def RMA_FN_KEYS.count (i : Nat) : Fld := ⟨(RMA_FN_KEYS.off i), 16, 16⟩
def RMA_FN_KEYS.base (i : Nat) : Fld := ⟨(RMA_FN_KEYS.off i), 0, 16⟩
/-- LCK_FL_CFG (12_locks.md). -/
def LCK_FL_CFG.off : Nat := 0x680010
def LCK_FL_CFG.lease : Fld := ⟨LCK_FL_CFG.off, 8, 24⟩
def LCK_FL_CFG.poll : Fld := ⟨LCK_FL_CFG.off, 0, 8⟩
/-- LCK_FL_STATUS (12_locks.md). -/
def LCK_FL_STATUS.off : Nat := 0x680014
def LCK_FL_STATUS.records : Fld := ⟨LCK_FL_STATUS.off, 0, 13⟩
/-- LCK_FL_ARG (12_locks.md). -/
def LCK_FL_ARG.off (i : Nat) : Nat := 0x680100 + 0x4 * i
def LCK_FL_ARG.arg (i : Nat) : Fld := ⟨(LCK_FL_ARG.off i), 0, 32⟩
/-- LCK_FL_CMD (12_locks.md). -/
def LCK_FL_CMD.off : Nat := 0x680120
def LCK_FL_CMD.opcode : Fld := ⟨LCK_FL_CMD.off, 0, 8⟩
/-- LCK_FL_CMD_STATUS (12_locks.md). -/
def LCK_FL_CMD_STATUS.off : Nat := 0x680124
def LCK_FL_CMD_STATUS.busy : Fld := ⟨LCK_FL_CMD_STATUS.off, 31, 1⟩
def LCK_FL_CMD_STATUS.detail : Fld := ⟨LCK_FL_CMD_STATUS.off, 8, 16⟩
def LCK_FL_CMD_STATUS.status : Fld := ⟨LCK_FL_CMD_STATUS.off, 0, 8⟩
/-- LCK_FL_RES (12_locks.md). -/
def LCK_FL_RES.off (i : Nat) : Nat := 0x680130 + 0x4 * i
def LCK_FL_RES.result (i : Nat) : Fld := ⟨(LCK_FL_RES.off i), 0, 32⟩
/-- LCK_CELL (12_locks.md). -/
def LCK_CELL.off (i : Nat) : Nat := 0x690000 + 0x4 * i
def LCK_CELL.held (i : Nat) : Fld := ⟨(LCK_CELL.off i), 31, 1⟩
def LCK_CELL.abandoned (i : Nat) : Fld := ⟨(LCK_CELL.off i), 30, 1⟩
def LCK_CELL.waiters (i : Nat) : Fld := ⟨(LCK_CELL.off i), 24, 6⟩
def LCK_CELL.top_priority (i : Nat) : Fld := ⟨(LCK_CELL.off i), 16, 7⟩
def LCK_CELL.owner (i : Nat) : Fld := ⟨(LCK_CELL.off i), 0, 12⟩
/-- LCK_CELL_CFG (12_locks.md). -/
def LCK_CELL_CFG.off (i : Nat) : Nat := 0x6a0000 + 0x4 * i
def LCK_CELL_CFG.scope (i : Nat) : Fld := ⟨(LCK_CELL_CFG.off i), 4, 2⟩
def LCK_CELL_CFG.hp (i : Nat) : Fld := ⟨(LCK_CELL_CFG.off i), 0, 2⟩
/-- COL_CFG (13_collectives.md). -/
def COL_CFG.off : Nat := 0x700010
def COL_CFG.op_limit : Fld := ⟨COL_CFG.off, 0, 24⟩
/-- COL_STATUS (13_collectives.md). -/
def COL_STATUS.off : Nat := 0x700014
def COL_STATUS.over_commit : Fld := ⟨COL_STATUS.off, 31, 1⟩
def COL_STATUS.def_err : Fld := ⟨COL_STATUS.off, 30, 1⟩
def COL_STATUS.reserved_slots : Fld := ⟨COL_STATUS.off, 16, 12⟩
def COL_STATUS.slots_in_use : Fld := ⟨COL_STATUS.off, 0, 12⟩
/-- COL_CMD (R438). -/
def COL_CMD.off : Nat := 0x700100
def COL_CMD.opcode : Fld := ⟨COL_CMD.off, 0, 8⟩
/-- COL_CMD_STATUS (R438). -/
def COL_CMD_STATUS.off : Nat := 0x700104
def COL_CMD_STATUS.busy : Fld := ⟨COL_CMD_STATUS.off, 31, 1⟩
def COL_CMD_STATUS.requester : Fld := ⟨COL_CMD_STATUS.off, 16, 12⟩
def COL_CMD_STATUS.result : Fld := ⟨COL_CMD_STATUS.off, 0, 4⟩
/-- COL_CMD_ARG (R438). -/
def COL_CMD_ARG.off (i : Nat) : Nat := 0x700110 + 0x4 * i
def COL_CMD_ARG.arg (i : Nat) : Fld := ⟨(COL_CMD_ARG.off i), 0, 32⟩
/-- COL_KEY (R438). -/
def COL_KEY.off (i : Nat) : Nat := 0x700120 + 0x4 * i
def COL_KEY.key (i : Nat) : Fld := ⟨(COL_KEY.off i), 0, 32⟩
/-- COL_TREE (13_collectives.md). -/
def COL_TREE.off (i : Nat) : Nat := 0x710000 + 0x20 * i
def COL_TREE.valid (i : Nat) : Fld := ⟨(COL_TREE.off i), 31, 1⟩
def COL_TREE.is_root (i : Nat) : Fld := ⟨(COL_TREE.off i), 30, 1⟩
def COL_TREE.data (i : Nat) : Fld := ⟨(COL_TREE.off i), 29, 1⟩
def COL_TREE.encrypt (i : Nat) : Fld := ⟨(COL_TREE.off i), 28, 1⟩
def COL_TREE.parent_port (i : Nat) : Fld := ⟨(COL_TREE.off i), 22, 6⟩
def COL_TREE.window (i : Nat) : Fld := ⟨(COL_TREE.off i), 16, 4⟩
def COL_TREE.gen (i : Nat) : Fld := ⟨(COL_TREE.off i), 8, 8⟩
def COL_TREE.local_count (i : Nat) : Fld := ⟨(COL_TREE.off i), 0, 6⟩
def COL_TREE.child_lo (i : Nat) : Fld := ⟨(COL_TREE.off i + 4), 0, 32⟩
def COL_TREE.child_hi (i : Nat) : Fld := ⟨(COL_TREE.off i + 8), 0, 32⟩
def COL_TREE.domain (i : Nat) : Fld := ⟨(COL_TREE.off i + 12), 16, 16⟩
def COL_TREE.members (i : Nat) : Fld := ⟨(COL_TREE.off i + 16), 0, 27⟩
/-- COL_TREE_STATE (13_collectives.md). -/
def COL_TREE_STATE.off (i : Nat) : Nat := 0x740000 + 0x10 * i
def COL_TREE_STATE.state (i : Nat) : Fld := ⟨(COL_TREE_STATE.off i), 30, 2⟩
def COL_TREE_STATE.joined (i : Nat) : Fld := ⟨(COL_TREE_STATE.off i), 24, 6⟩
def COL_TREE_STATE.low_csn (i : Nat) : Fld := ⟨(COL_TREE_STATE.off i), 0, 24⟩
def COL_TREE_STATE.reason (i : Nat) : Fld := ⟨(COL_TREE_STATE.off i + 4), 16, 16⟩
def COL_TREE_STATE.err_course_hi (i : Nat) : Fld := ⟨(COL_TREE_STATE.off i + 4), 0, 16⟩
def COL_TREE_STATE.err_course_lo (i : Nat) : Fld := ⟨(COL_TREE_STATE.off i + 8), 0, 32⟩
def COL_TREE_STATE.origin (i : Nat) : Fld := ⟨(COL_TREE_STATE.off i + 12), 0, 20⟩
/-- BRG_CFG (14_bridges.md). -/
def BRG_CFG.off : Nat := 0x780010
def BRG_CFG.read_tmo : Fld := ⟨BRG_CFG.off, 16, 16⟩
def BRG_CFG.pf_life : Fld := ⟨BRG_CFG.off, 0, 16⟩
/-- BRG_HP_STATUS (14_bridges.md). -/
def BRG_HP_STATUS.off (i : Nat) : Nat := 0x780020 + 0x4 * i
def BRG_HP_STATUS.reads (i : Nat) : Fld := ⟨(BRG_HP_STATUS.off i), 16, 10⟩
def BRG_HP_STATUS.prefetch (i : Nat) : Fld := ⟨(BRG_HP_STATUS.off i), 0, 7⟩
/-- WIN_PF (R442). -/
def WIN_PF.off (i j : Nat) : Nat := 0x790000 + 0x400 * i + 0x10 * j
def WIN_PF.key (i j : Nat) : Fld := ⟨(WIN_PF.off i j), 0, 32⟩
def WIN_PF.offset_lo (i j : Nat) : Fld := ⟨(WIN_PF.off i j + 4), 0, 32⟩
def WIN_PF.target_ep (i j : Nat) : Fld := ⟨(WIN_PF.off i j + 8), 16, 16⟩
def WIN_PF.offset_hi (i j : Nat) : Fld := ⟨(WIN_PF.off i j + 8), 0, 16⟩
def WIN_PF.enable (i j : Nat) : Fld := ⟨(WIN_PF.off i j + 12), 31, 1⟩
def WIN_PF.acked (i j : Nat) : Fld := ⟨(WIN_PF.off i j + 12), 30, 1⟩
def WIN_PF.prefetch (i j : Nat) : Fld := ⟨(WIN_PF.off i j + 12), 29, 1⟩
def WIN_PF.ordered (i j : Nat) : Fld := ⟨(WIN_PF.off i j + 12), 28, 1⟩
def WIN_PF.err (i j : Nat) : Fld := ⟨(WIN_PF.off i j + 12), 27, 1⟩
def WIN_PF.target (i j : Nat) : Fld := ⟨(WIN_PF.off i j + 12), 0, 22⟩
/-- LTL_CFG (14_bridges.md). -/
def LTL_CFG.off : Nat := 0x7c0010
def LTL_CFG.enable : Fld := ⟨LTL_CFG.off, 31, 1⟩
def LTL_CFG.eid : Fld := ⟨LTL_CFG.off, 0, 8⟩
/-- LTL_BUS_CFG (14_bridges.md). -/
def LTL_BUS_CFG.off (i : Nat) : Nat := 0x7c0020 + 0x4 * i
def LTL_BUS_CFG.enable (i : Nat) : Fld := ⟨(LTL_BUS_CFG.off i), 31, 1⟩
def LTL_BUS_CFG.mode (i : Nat) : Fld := ⟨(LTL_BUS_CFG.off i), 30, 1⟩
def LTL_BUS_CFG.speed (i : Nat) : Fld := ⟨(LTL_BUS_CFG.off i), 28, 2⟩
def LTL_BUS_CFG.alert_pull (i : Nat) : Fld := ⟨(LTL_BUS_CFG.off i), 27, 1⟩
def LTL_BUS_CFG.retries (i : Nat) : Fld := ⟨(LTL_BUS_CFG.off i), 20, 4⟩
/-- LTL_SB_CFG (14_bridges.md). -/
def LTL_SB_CFG.off : Nat := 0x7c0030
def LTL_SB_CFG.notify : Fld := ⟨LTL_SB_CFG.off, 31, 1⟩
def LTL_SB_CFG.debounce : Fld := ⟨LTL_SB_CFG.off, 24, 4⟩
def LTL_SB_CFG.notify_dev : Fld := ⟨LTL_SB_CFG.off, 0, 20⟩
/-- LTL_SB_STATUS (14_bridges.md). -/
def LTL_SB_STATUS.off : Nat := 0x7c0034
def LTL_SB_STATUS.changed : Fld := ⟨LTL_SB_STATUS.off, 16, 12⟩
def LTL_SB_STATUS.levels : Fld := ⟨LTL_SB_STATUS.off, 0, 12⟩
/-- LTL_ROUTE (R456). -/
def LTL_ROUTE.off (i : Nat) : Nat := 0x7c1000 + 0x8 * i
def LTL_ROUTE.valid (i : Nat) : Fld := ⟨(LTL_ROUTE.off i), 31, 1⟩
def LTL_ROUTE.remote (i : Nat) : Fld := ⟨(LTL_ROUTE.off i), 30, 1⟩
def LTL_ROUTE.port (i : Nat) : Fld := ⟨(LTL_ROUTE.off i), 27, 3⟩
def LTL_ROUTE.device (i : Nat) : Fld := ⟨(LTL_ROUTE.off i), 0, 20⟩
def LTL_ROUTE.phys (i : Nat) : Fld := ⟨(LTL_ROUTE.off i + 4), 16, 16⟩
def LTL_ROUTE.mgmt_ep (i : Nat) : Fld := ⟨(LTL_ROUTE.off i + 4), 0, 8⟩
/-- BST_CFG (15_faults_selftest.md). -/
def BST_CFG.off : Nat := 0x800010
def BST_CFG.enable : Fld := ⟨BST_CFG.off, 31, 1⟩
def BST_CFG.repair_en : Fld := ⟨BST_CFG.off, 30, 1⟩
/-- BST_STATUS (15_faults_selftest.md). -/
def BST_STATUS.off : Nat := 0x800014
def BST_STATUS.active : Fld := ⟨BST_STATUS.off, 31, 1⟩
def BST_STATUS.phase : Fld := ⟨BST_STATUS.off, 28, 3⟩
def BST_STATUS.cls : Fld := ⟨BST_STATUS.off, 24, 4⟩
def BST_STATUS.slot : Fld := ⟨BST_STATUS.off, 12, 12⟩
def BST_STATUS.unit : Fld := ⟨BST_STATUS.off, 0, 10⟩
/-- BST_LOG (15_faults_selftest.md). -/
def BST_LOG.off : Nat := 0x800018
def BST_LOG.used : Fld := ⟨BST_LOG.off, 0, 7⟩
/-- BST_SIG (15_faults_selftest.md). -/
def BST_SIG.off : Nat := 0x800020
def BST_SIG.sig_lo : Fld := ⟨BST_SIG.off, 0, 32⟩
def BST_SIG.sig_hi : Fld := ⟨(BST_SIG.off + 4), 0, 32⟩
def BST_SIG.gold_lo : Fld := ⟨(BST_SIG.off + 8), 0, 32⟩
def BST_SIG.gold_hi : Fld := ⟨(BST_SIG.off + 12), 0, 32⟩
/-- BST_CMD (15_faults_selftest.md). -/
def BST_CMD.off : Nat := 0x800100
def BST_CMD.arg : Fld := ⟨BST_CMD.off, 16, 10⟩
def BST_CMD.cls : Fld := ⟨BST_CMD.off, 12, 4⟩
def BST_CMD.opcode : Fld := ⟨BST_CMD.off, 0, 4⟩
/-- BST_CMD_STATUS (15_faults_selftest.md). -/
def BST_CMD_STATUS.off : Nat := 0x800104
def BST_CMD_STATUS.busy : Fld := ⟨BST_CMD_STATUS.off, 31, 1⟩
def BST_CMD_STATUS.result : Fld := ⟨BST_CMD_STATUS.off, 0, 4⟩
/-- BST_REPAIR (15_faults_selftest.md). -/
def BST_REPAIR.off (i : Nat) : Nat := 0x801000 + 0x8 * i
def BST_REPAIR.valid (i : Nat) : Fld := ⟨(BST_REPAIR.off i), 31, 1⟩
def BST_REPAIR.fused (i : Nat) : Fld := ⟨(BST_REPAIR.off i), 30, 1⟩
def BST_REPAIR.kind (i : Nat) : Fld := ⟨(BST_REPAIR.off i), 28, 2⟩
def BST_REPAIR.cls (i : Nat) : Fld := ⟨(BST_REPAIR.off i), 24, 4⟩
def BST_REPAIR.unit (i : Nat) : Fld := ⟨(BST_REPAIR.off i), 0, 10⟩
def BST_REPAIR.spare (i : Nat) : Fld := ⟨(BST_REPAIR.off i + 4), 16, 16⟩
def BST_REPAIR.element (i : Nat) : Fld := ⟨(BST_REPAIR.off i + 4), 0, 16⟩
/-- MGT_MC_CTRL (16_boot_management.md). -/
def MGT_MC_CTRL.off : Nat := 0x880010
def MGT_MC_CTRL.run : Fld := ⟨MGT_MC_CTRL.off, 1, 3⟩
def MGT_MC_CTRL.run0 : Fld := ⟨MGT_MC_CTRL.off, 0, 1⟩
/-- MGT_FW_SERVE (16_boot_management.md). -/
def MGT_FW_SERVE.off : Nat := 0x880014
def MGT_FW_SERVE.enable : Fld := ⟨MGT_FW_SERVE.off, 31, 1⟩
def MGT_FW_SERVE.image_len : Fld := ⟨MGT_FW_SERVE.off, 0, 22⟩
/-- MGT_MG_CFG (16_boot_management.md). -/
def MGT_MG_CFG.off : Nat := 0x880018
def MGT_MG_CFG.retry_courses : Fld := ⟨MGT_MG_CFG.off, 16, 16⟩
def MGT_MG_CFG.retries : Fld := ⟨MGT_MG_CFG.off, 0, 8⟩
/-- MGT_FM_ORIGIN (16_boot_management.md). -/
def MGT_FM_ORIGIN.off (i : Nat) : Nat := 0x880020 + 0x4 * i
def MGT_FM_ORIGIN.valid (i : Nat) : Fld := ⟨(MGT_FM_ORIGIN.off i), 31, 1⟩
def MGT_FM_ORIGIN.device (i : Nat) : Fld := ⟨(MGT_FM_ORIGIN.off i), 0, 20⟩
/-- MGT_BOOT_MBOX (16_boot_management.md). -/
def MGT_BOOT_MBOX.off : Nat := 0x880100
def MGT_BOOT_MBOX.addr_lo : Fld := ⟨MGT_BOOT_MBOX.off, 12, 20⟩
def MGT_BOOT_MBOX.addr_hi : Fld := ⟨(MGT_BOOT_MBOX.off + 4), 0, 20⟩
def MGT_BOOT_MBOX.length : Fld := ⟨(MGT_BOOT_MBOX.off + 8), 0, 22⟩
def MGT_BOOT_MBOX.go : Fld := ⟨(MGT_BOOT_MBOX.off + 12), 31, 1⟩
def MGT_BOOT_MBOX.owner : Fld := ⟨(MGT_BOOT_MBOX.off + 12), 26, 2⟩
def MGT_BOOT_MBOX.state : Fld := ⟨(MGT_BOOT_MBOX.off + 12), 0, 2⟩
/-- MGT_HWIN (16_boot_management.md). -/
def MGT_HWIN.off (i j : Nat) : Nat := 0x881000 + 0x100 * i + 0x10 * j
def MGT_HWIN.enable (i j : Nat) : Fld := ⟨(MGT_HWIN.off i j), 31, 1⟩
def MGT_HWIN.user_override (i j : Nat) : Fld := ⟨(MGT_HWIN.off i j), 30, 1⟩
def MGT_HWIN.unit (i j : Nat) : Fld := ⟨(MGT_HWIN.off i j), 28, 2⟩
def MGT_HWIN.as (i j : Nat) : Fld := ⟨(MGT_HWIN.off i j), 0, 16⟩
def MGT_HWIN.va_lo (i j : Nat) : Fld := ⟨(MGT_HWIN.off i j + 4), 12, 20⟩
def MGT_HWIN.va_hi (i j : Nat) : Fld := ⟨(MGT_HWIN.off i j + 8), 0, 16⟩
/-- MGT_MG (16_boot_management.md). -/
def MGT_MG.off (i : Nat) : Nat := 0x882000 + 0x200 * i
def MGT_MG.dst_ep (i : Nat) : Fld := ⟨(MGT_MG.off i), 24, 8⟩
def MGT_MG.dst_dev (i : Nat) : Fld := ⟨(MGT_MG.off i), 0, 20⟩
def MGT_MG.route_a (i : Nat) : Fld := ⟨(MGT_MG.off i + 4), 0, 30⟩
def MGT_MG.route_len (i : Nat) : Fld := ⟨(MGT_MG.off i + 8), 24, 4⟩
def MGT_MG.route_b (i : Nat) : Fld := ⟨(MGT_MG.off i + 8), 0, 18⟩
def MGT_MG.addr (i : Nat) : Fld := ⟨(MGT_MG.off i + 12), 0, 26⟩
def MGT_MG.busy (i : Nat) : Fld := ⟨(MGT_MG.off i + 16), 31, 1⟩
def MGT_MG.status (i : Nat) : Fld := ⟨(MGT_MG.off i + 16), 16, 8⟩
def MGT_MG.count (i : Nat) : Fld := ⟨(MGT_MG.off i + 16), 8, 7⟩
def MGT_MG.op (i : Nat) : Fld := ⟨(MGT_MG.off i + 16), 0, 2⟩
/-- MGT_MG_DATA (16_boot_management.md). -/
def MGT_MG_DATA.off (i j : Nat) : Nat := 0x882100 + 0x200 * i + 0x4 * j
def MGT_MG_DATA.data (i j : Nat) : Fld := ⟨(MGT_MG_DATA.off i j), 0, 32⟩
/-- RBK_SEL (16_boot_management.md). -/
def RBK_SEL.off (i : Nat) : Nat := 0x1000000 + 0x10000 * i
def RBK_SEL.table (i : Nat) : Fld := ⟨(RBK_SEL.off i), 24, 8⟩
def RBK_SEL.index (i : Nat) : Fld := ⟨(RBK_SEL.off i), 0, 24⟩
def RBK_SEL.busy (i : Nat) : Fld := ⟨(RBK_SEL.off i + 4), 31, 1⟩
def RBK_SEL.count (i : Nat) : Fld := ⟨(RBK_SEL.off i + 4), 0, 4⟩
/-- RBK_TIME (16_boot_management.md). -/
def RBK_TIME.off (i : Nat) : Nat := 0x1000010 + 0x10000 * i
def RBK_TIME.time_lo (i : Nat) : Fld := ⟨(RBK_TIME.off i), 0, 32⟩
def RBK_TIME.time_hi (i : Nat) : Fld := ⟨(RBK_TIME.off i + 4), 0, 32⟩
end Reg

namespace Ctr
def GLB_BAD_ACCESS_COUNT : Nat := 0x100
def GLB_LOCKED_WRITE_COUNT : Nat := 0x108
def CRS_OVERRUN_COUNT : Nat := 0x80300
def CRS_SHADOW_REFUSED_COUNT : Nat := 0x80308
def CRS_STEP_COUNT : Nat := 0x80310
def LAN_FEC_CW_COUNT (lane : Nat) : Nat := 0x110100 + 0x1000 * lane
def LAN_FEC_CORR_CW_COUNT (lane : Nat) : Nat := 0x110108 + 0x1000 * lane
def LAN_FEC_CORR_SYM_COUNT (lane : Nat) : Nat := 0x110110 + 0x1000 * lane
def LAN_FEC_UNCORR_COUNT (lane : Nat) : Nat := 0x110118 + 0x1000 * lane
def LAN_BIP_ERR_COUNT (lane : Nat) : Nat := 0x110120 + 0x1000 * lane
def LAN_LOCK_LOSS_COUNT (lane : Nat) : Nat := 0x110128 + 0x1000 * lane
def LAN_TRAIN_COUNT (lane : Nat) : Nat := 0x110130 + 0x1000 * lane
def LAN_PRBS_ERR_COUNT (lane : Nat) : Nat := 0x110138 + 0x1000 * lane
def LAN_PRBS_BIT_COUNT (lane : Nat) : Nat := 0x110140 + 0x1000 * lane
def LAN_FEC_HIST_COUNT (lane s : Nat) : Nat := 0x110180 + 8 * (s - 1) + 0x1000 * lane
def LNK_TX_BRICK_COUNT (port : Nat) : Nat := 0x210100 + 0x1000 * port
def LNK_RX_BRICK_COUNT (port : Nat) : Nat := 0x210108 + 0x1000 * port
def LNK_CRC_ERR_COUNT (port : Nat) : Nat := 0x210110 + 0x1000 * port
def LNK_DUP_COUNT (port : Nat) : Nat := 0x210118 + 0x1000 * port
def LNK_OOS_COUNT (port : Nat) : Nat := 0x210120 + 0x1000 * port
def LNK_NAK_TX_COUNT (port : Nat) : Nat := 0x210128 + 0x1000 * port
def LNK_REPLAY_COUNT (port : Nat) : Nat := 0x210130 + 0x1000 * port
def LNK_REPLAY_BRICK_COUNT (port : Nat) : Nat := 0x210138 + 0x1000 * port
def LNK_OFF_TX_COUNT (port : Nat) : Nat := 0x210140 + 0x1000 * port
def LNK_CREDIT_STALL_CYCLES (port : Nat) : Nat := 0x210148 + 0x1000 * port
def LNK_WINDOW_STALL_CYCLES (port : Nat) : Nat := 0x210150 + 0x1000 * port
def LNK_POOL_OVERRUN_COUNT (port : Nat) : Nat := 0x210158 + 0x1000 * port
def LNK_CREDIT_OVERRUN_COUNT (port : Nat) : Nat := 0x210160 + 0x1000 * port
def LNK_FRAMING_ERR_COUNT (port : Nat) : Nat := 0x210168 + 0x1000 * port
def LNK_ABORT_COUNT (port : Nat) : Nat := 0x210170 + 0x1000 * port
def LNK_PROTO_ERR_COUNT (port : Nat) : Nat := 0x210178 + 0x1000 * port
def LNK_REINIT_COUNT (port : Nat) : Nat := 0x210180 + 0x1000 * port
def LNK_DOWN_COUNT (port : Nat) : Nat := 0x210188 + 0x1000 * port
def LNK_DOWN_DISCARD_COUNT (port : Nat) : Nat := 0x210190 + 0x1000 * port
def RTE_LIFE_DROP_COUNT : Nat := 0x300100
def RTE_FUTURE_DROP_COUNT : Nat := 0x300108
def RTE_HDR_ERR_COUNT : Nat := 0x300110
def RTE_UNREACH_DROP_COUNT : Nat := 0x300118
def RTE_MISROUTE_DROP_COUNT : Nat := 0x300120
def RTE_DETOUR_COUNT : Nat := 0x300128
def RTE_INJ_MIN_COUNT : Nat := 0x300130
def RTE_INJ_NONMIN_COUNT : Nat := 0x300138
def RTE_MAP_MISS_COUNT : Nat := 0x300140
def RTE_MAP_LATE_COUNT : Nat := 0x300148
def RTE_MODE_DROP_COUNT : Nat := 0x300150
def SCH_DEFER_CYCLES : Nat := 0x380200
def SCH_RED_DROP_COUNT : Nat := 0x380208
def SCH_SHAPE_STALL_CYCLES : Nat := 0x380210
def SCH_WINDOW_STALL_CYCLES : Nat := 0x380218
def SCH_MARK_COUNT : Nat := 0x380220
def SCH_VC7_CAP_COUNT : Nat := 0x380228
def HIF_DB_DROP_COUNT : Nat := 0x400100
def HIF_FETCH_COUNT : Nat := 0x400108
def HIF_CQE_COUNT : Nat := 0x400110
def HIF_EVENT_COUNT : Nat := 0x400118
def HIF_EVENT_LOST_COUNT : Nat := 0x400120
def HIF_CQ_STALL_COUNT : Nat := 0x400128
def HIF_CQ_OVERFLOW_COUNT : Nat := 0x400130
def HIF_MALFORMED_COUNT : Nat := 0x400138
def HIF_MSIX_COUNT : Nat := 0x400140
def XLT_HIT_COUNT (unit : Nat) : Nat := 0x481200 + 0x400 * unit
def XLT_MISS_COUNT (unit : Nat) : Nat := 0x481208 + 0x400 * unit
def XLT_WALK_READ_COUNT (unit : Nat) : Nat := 0x481210 + 0x400 * unit
def XLT_REWALK_COUNT (unit : Nat) : Nat := 0x481218 + 0x400 * unit
def XLT_FAULT_COUNT (unit : Nat) : Nat := 0x481220 + 0x400 * unit
def XLT_AGE_COUNT (unit : Nat) : Nat := 0x481228 + 0x400 * unit
def XLT_INV_COUNT (unit : Nat) : Nat := 0x481230 + 0x400 * unit
def XLT_LOG_OVERWRITE_COUNT (unit : Nat) : Nat := 0x481238 + 0x400 * unit
def TRN_TX_PKT_COUNT : Nat := 0x500200
def TRN_RX_PKT_COUNT : Nat := 0x500208
def TRN_RETX_COUNT : Nat := 0x500210
def TRN_TIMEOUT_COUNT : Nat := 0x500218
def TRN_DUP_COUNT : Nat := 0x500220
def TRN_WINDOW_DROP_COUNT : Nat := 0x500228
def TRN_ORDER_DROP_COUNT : Nat := 0x500230
def TRN_GEN_DROP_COUNT : Nat := 0x500238
def TRN_AUTH_FAIL_COUNT : Nat := 0x500240
def TRN_NO_CTX_DROP_COUNT : Nat := 0x500248
def TRN_PROTO_DROP_COUNT : Nat := 0x500250
def TRN_RSP_DISCARD_COUNT : Nat := 0x500258
def TRN_REFUSE_COUNT : Nat := 0x500260
def TRN_RNR_COUNT : Nat := 0x500268
def TRN_CTX_CREATE_COUNT : Nat := 0x500270
def TRN_SPILL_COUNT : Nat := 0x500278
def TRN_REFILL_COUNT : Nat := 0x500280
def TRN_ROLL_COUNT : Nat := 0x500288
def TRN_CTX_ERROR_COUNT : Nat := 0x500290
def MCH_MATCH_COUNT : Nat := 0x580200
def MCH_UNEXP_COUNT : Nat := 0x580208
def MCH_REORDER_COUNT : Nat := 0x580210
def MCH_REFUSE_COUNT : Nat := 0x580218
def MCH_STRAY_DROP_COUNT : Nat := 0x580220
def MCH_OVF_WALK_COUNT : Nat := 0x580228
def MCH_TRUNC_COUNT : Nat := 0x580230
def MCH_SKIP_COUNT : Nat := 0x580238
def MCH_LAND_BYTES : Nat := 0x580240
def MCH_COPY_BYTES : Nat := 0x580248
def RMA_PUT_PKT_COUNT : Nat := 0x600200
def RMA_GET_COUNT : Nat := 0x600208
def RMA_ATOMIC_COUNT : Nat := 0x600210
def RMA_HOSTATOMIC_COUNT : Nat := 0x600218
def RMA_CAS_RETRY_COUNT : Nat := 0x600220
def RMA_REFUSE_COUNT : Nat := 0x600228
def RMA_SPEC_REFUSE_COUNT : Nat := 0x600230
def RMA_REVOKE_COUNT : Nat := 0x600238
def RMA_DESC_READ_COUNT : Nat := 0x600240
def RMA_LATE_RESULT_COUNT : Nat := 0x600248
def LCK_ACQ_COUNT : Nat := 0x680200
def LCK_HANDOVER_COUNT : Nat := 0x680208
def LCK_FOREIGN_COUNT : Nat := 0x680210
def LCK_FULL_COUNT : Nat := 0x680218
def LCK_ABANDON_COUNT : Nat := 0x680220
def LCK_FL_OP_COUNT : Nat := 0x680228
def LCK_FL_BREAK_COUNT : Nat := 0x680230
def LCK_FL_REFUSE_COUNT : Nat := 0x680238
def COL_UP_PKT_COUNT : Nat := 0x700200
def COL_DOWN_PKT_COUNT : Nat := 0x700208
def COL_OP_DONE_COUNT : Nat := 0x700210
def COL_GEN_DROP_COUNT : Nat := 0x700218
def COL_ERR_DROP_COUNT : Nat := 0x700220
def COL_HDR_DROP_COUNT : Nat := 0x700228
def COL_STALE_DROP_COUNT : Nat := 0x700230
def COL_AUTH_FAIL_COUNT : Nat := 0x700238
def COL_OVERRUN_COUNT : Nat := 0x700240
def COL_TREE_ERROR_COUNT : Nat := 0x700248
def BRG_READ_COUNT : Nat := 0x780200
def BRG_WRITE_COUNT : Nat := 0x780208
def BRG_UR_COUNT : Nat := 0x780210
def BRG_WRITE_DROP_COUNT : Nat := 0x780218
def BRG_WRITE_FAIL_COUNT : Nat := 0x780220
def BRG_READ_FAIL_COUNT : Nat := 0x780228
def BRG_READ_TMO_COUNT : Nat := 0x780230
def BRG_PREFETCH_HIT_COUNT : Nat := 0x780238
def BRG_SPEC_DROP_COUNT : Nat := 0x780240
def LTL_FWD_COUNT : Nat := 0x7c0200
def LTL_ROUTE_DROP_COUNT : Nat := 0x7c0208
def LTL_SIZE_DROP_COUNT : Nat := 0x7c0210
def LTL_SEND_FAIL_COUNT : Nat := 0x7c0218
def LTL_QUEUE_DROP_COUNT : Nat := 0x7c0220
def BST_SLICE_COUNT : Nat := 0x800200
def BST_FAIL_COUNT : Nat := 0x800208
def BST_REPAIR_COUNT : Nat := 0x800210
def BST_ABORT_COUNT : Nat := 0x800218
def BST_SKIP_COUNT : Nat := 0x800220
def BST_SWEEP_COUNT : Nat := 0x800228
def MGT_FWD_COUNT : Nat := 0x880400
def MGT_FWD_DROP_COUNT : Nat := 0x880408
def MGT_DROP_COUNT : Nat := 0x880410
def MGT_AGENT_REQ_COUNT : Nat := 0x880418
def MGT_DUP_COUNT : Nat := 0x880420
def MGT_REFUSE_COUNT : Nat := 0x880428
def MGT_FW_SERVE_COUNT : Nat := 0x880430
def MGT_MON_UNLOCK_COUNT : Nat := 0x880438
def MGT_MON_FAIL_COUNT : Nat := 0x880440
end Ctr

/-- The registers whose words lie in the span of GLB. -/
def regsGLB : List RegDef := [
  ⟨.GLB_PART, 0x4, 1, 0x4000000, 1, 0x4000000, 1, [⟨0, 16, 16, .RO, 33124⟩, ⟨0, 8, 8, .RO, 16⟩, ⟨0, 0, 8, .RO, 1⟩]⟩,
  ⟨.GLB_SERIAL, 0x8, 1, 0x4000000, 1, 0x4000000, 2, [⟨0, 0, 32, .RO, 0⟩, ⟨1, 0, 32, .RO, 0⟩]⟩,
  ⟨.GLB_MODE, 0x10, 1, 0x4000000, 1, 0x4000000, 1, [⟨0, 31, 1, .W1C, 0⟩, ⟨0, 28, 3, .RO, 0⟩, ⟨0, 16, 4, .RO, 0⟩, ⟨0, 13, 1, .RO, 0⟩, ⟨0, 12, 1, .RO, 0⟩, ⟨0, 8, 3, .RO, 0⟩, ⟨0, 0, 3, .RO, 1⟩]⟩,
  ⟨.GLB_MODE_REQ, 0x14, 1, 0x4000000, 1, 0x4000000, 1, [⟨0, 31, 1, .RO, 0⟩, ⟨0, 16, 12, .RO, 4095⟩, ⟨0, 0, 3, .RW, 0⟩]⟩,
  ⟨.GLB_RESET_CTRL, 0x18, 1, 0x4000000, 1, 0x4000000, 1, [⟨0, 16, 16, .WO, 0⟩, ⟨0, 0, 1, .WO, 0⟩]⟩,
  ⟨.GLB_SETUP_LOCK, 0x1c, 1, 0x4000000, 1, 0x4000000, 1, [⟨0, 0, 1, .W1S, 0⟩]⟩,
  ⟨.GLB_DEVICE_ID, 0x20, 1, 0x4000000, 1, 0x4000000, 1, [⟨0, 0, 20, .RWL, 1048575⟩]⟩,
  ⟨.GLB_STRAPS, 0x24, 1, 0x4000000, 1, 0x4000000, 1, [⟨0, 4, 1, .RO, 0⟩, ⟨0, 3, 1, .RO, 0⟩, ⟨0, 0, 2, .RO, 0⟩]⟩,
  ⟨.GLB_BOOT_STATUS, 0x30, 1, 0x4000000, 1, 0x4000000, 1, [⟨0, 28, 4, .RO, 0⟩, ⟨0, 26, 2, .RO, 0⟩, ⟨0, 20, 4, .RO, 0⟩, ⟨0, 12, 8, .RO, 0⟩, ⟨0, 0, 12, .RO, 0⟩]⟩,
  ⟨.GLB_GPIO_CTRL, 0x40, 1, 0x4000000, 1, 0x4000000, 1, [⟨0, 16, 16, .RW, 0⟩, ⟨0, 0, 16, .RW, 0⟩]⟩,
  ⟨.GLB_GPIO_IN, 0x44, 1, 0x4000000, 1, 0x4000000, 1, [⟨0, 0, 16, .RO, 0⟩]⟩,
  ⟨.GLB_TEMP, 0x200, 24, 0x4, 1, 0x4000000, 1, [⟨0, 31, 1, .RO, 0⟩, ⟨0, 0, 16, .RO, 0⟩]⟩]

/-- The registers whose words lie in the span of CRS. -/
def regsCRS : List RegDef := [
  ⟨.CRS_ALIGN_CTRL, 0x80010, 1, 0x4000000, 1, 0x4000000, 1, [⟨0, 8, 2, .RW, 3⟩, ⟨0, 6, 2, .RWL, 0⟩, ⟨0, 0, 1, .RW, 0⟩]⟩,
  ⟨.CRS_ALIGN_STATUS, 0x80014, 1, 0x4000000, 1, 0x4000000, 1, [⟨0, 31, 1, .W1C, 0⟩, ⟨0, 30, 1, .W1C, 0⟩, ⟨0, 29, 1, .W1C, 0⟩, ⟨0, 28, 1, .RO, 0⟩, ⟨0, 27, 1, .RO, 0⟩, ⟨0, 19, 1, .RO, 0⟩, ⟨0, 17, 2, .RO, 3⟩, ⟨0, 15, 2, .RO, 3⟩, ⟨0, 14, 1, .RO, 0⟩, ⟨0, 13, 1, .RO, 0⟩, ⟨0, 6, 1, .RO, 0⟩, ⟨0, 0, 6, .RO, 0⟩]⟩,
  ⟨.CRS_PHASE_ERR, 0x80018, 1, 0x4000000, 1, 0x4000000, 1, [⟨0, 0, 16, .RO, 0⟩]⟩,
  ⟨.CRS_ROOT_ID, 0x8001c, 1, 0x4000000, 1, 0x4000000, 1, [⟨0, 22, 1, .RO, 0⟩, ⟨0, 20, 2, .RO, 3⟩, ⟨0, 0, 20, .RO, 0⟩]⟩,
  ⟨.CRS_STEP_FROM, 0x80020, 1, 0x4000000, 1, 0x4000000, 2, [⟨0, 16, 16, .RO, 0⟩, ⟨0, 0, 11, .RO, 0⟩, ⟨1, 0, 32, .RO, 0⟩]⟩,
  ⟨.CRS_STEP_TO, 0x80028, 1, 0x4000000, 1, 0x4000000, 2, [⟨0, 16, 16, .RO, 0⟩, ⟨0, 0, 11, .RO, 0⟩, ⟨1, 0, 32, .RO, 0⟩]⟩,
  ⟨.CRS_NOW_LO, 0x80100, 1, 0x4000000, 1, 0x4000000, 1, [⟨0, 16, 16, .RO, 0⟩, ⟨0, 0, 11, .RO, 0⟩]⟩,
  ⟨.CRS_NOW_HI, 0x80104, 1, 0x4000000, 1, 0x4000000, 1, [⟨0, 0, 32, .RO, 0⟩]⟩,
  ⟨.CRS_SWAP_AT_LO, 0x80200, 1, 0x4000000, 1, 0x4000000, 1, [⟨0, 0, 32, .RW, 0⟩]⟩,
  ⟨.CRS_SWAP_AT_HI, 0x80204, 1, 0x4000000, 1, 0x4000000, 1, [⟨0, 0, 16, .RW, 0⟩]⟩,
  ⟨.CRS_SWAP_CTRL, 0x80208, 1, 0x4000000, 1, 0x4000000, 1, [⟨0, 31, 1, .W1C, 0⟩, ⟨0, 28, 3, .RO, 0⟩, ⟨0, 9, 1, .RO, 0⟩, ⟨0, 8, 1, .RO, 0⟩, ⟨0, 2, 1, .WO, 0⟩, ⟨0, 1, 1, .WO, 0⟩, ⟨0, 0, 1, .WO, 0⟩]⟩,
  ⟨.CRS_SET, 0x8020c, 1, 0x4000000, 1, 0x4000000, 1, [⟨0, 16, 16, .RO, 0⟩, ⟨0, 1, 1, .RO, 0⟩, ⟨0, 0, 1, .RO, 0⟩]⟩,
  ⟨.CRS_PORT_ASYM, 0x80400, 64, 0x4, 1, 0x4000000, 1, [⟨0, 0, 16, .RW, 0⟩]⟩]

/-- The registers whose words lie in the span of LAN. -/
def regsLAN : List RegDef := [
  ⟨.LAN_TRAIN_CFG, 0x100020, 1, 0x4000000, 1, 0x4000000, 1, [⟨0, 28, 4, .RWL, 3⟩, ⟨0, 18, 10, .RWL, 175⟩, ⟨0, 0, 16, .RWL, 16384⟩]⟩,
  ⟨.LAN_PT_CTRL, 0x101000, 64, 0x40, 1, 0x4000000, 1, [⟨0, 7, 1, .RW, 0⟩, ⟨0, 4, 1, .RWL, 0⟩, ⟨0, 0, 2, .RW, 0⟩]⟩,
  ⟨.LAN_PT_STATUS, 0x101004, 64, 0x40, 1, 0x4000000, 1, [⟨0, 31, 1, .W1C, 0⟩, ⟨0, 30, 1, .W1C, 0⟩, ⟨0, 29, 1, .RO, 0⟩, ⟨0, 28, 1, .RO, 0⟩, ⟨0, 26, 2, .RO, 0⟩, ⟨0, 24, 2, .RO, 0⟩, ⟨0, 22, 2, .RO, 0⟩, ⟨0, 20, 2, .RO, 0⟩, ⟨0, 0, 12, .RO, 0⟩]⟩,
  ⟨.LAN_PT_FAR, 0x101008, 64, 0x40, 1, 0x4000000, 1, [⟨0, 31, 1, .RO, 0⟩, ⟨0, 20, 6, .RO, 0⟩, ⟨0, 0, 20, .RO, 0⟩]⟩,
  ⟨.LAN_LN_CTRL, 0x110000, 128, 0x1000, 1, 0x4000000, 1, [⟨0, 31, 1, .WO, 0⟩, ⟨0, 28, 1, .RWL, 0⟩, ⟨0, 27, 1, .RWL, 0⟩, ⟨0, 22, 2, .RW, 0⟩, ⟨0, 0, 1, .RWL, 1⟩]⟩,
  ⟨.LAN_LN_STATUS, 0x110004, 128, 0x1000, 1, 0x4000000, 1, [⟨0, 28, 4, .RO, 0⟩, ⟨0, 27, 1, .RO, 0⟩, ⟨0, 26, 1, .RO, 0⟩, ⟨0, 25, 1, .RO, 0⟩, ⟨0, 24, 1, .RO, 0⟩, ⟨0, 23, 1, .RO, 0⟩, ⟨0, 22, 1, .RO, 0⟩, ⟨0, 20, 2, .RO, 0⟩, ⟨0, 16, 4, .RO, 0⟩, ⟨0, 0, 10, .RO, 0⟩]⟩,
  ⟨.LAN_LN_TAPS, 0x110008, 128, 0x1000, 1, 0x4000000, 1, [⟨0, 22, 5, .RO, 0⟩, ⟨0, 15, 7, .RO, 56⟩, ⟨0, 9, 6, .RO, 56⟩, ⟨0, 4, 5, .RO, 0⟩, ⟨0, 0, 4, .RO, 0⟩]⟩,
  ⟨.LAN_LN_PRBS_CTRL, 0x110010, 128, 0x1000, 1, 0x4000000, 1, [⟨0, 31, 1, .WO, 0⟩, ⟨0, 30, 1, .RO, 0⟩, ⟨0, 29, 1, .W1C, 0⟩, ⟨0, 23, 4, .RW, 0⟩, ⟨0, 17, 1, .RW, 0⟩, ⟨0, 16, 1, .RW, 0⟩, ⟨0, 1, 1, .RW, 0⟩, ⟨0, 0, 1, .RW, 0⟩]⟩,
  ⟨.LAN_LN_FEC_INJECT, 0x110018, 128, 0x1000, 1, 0x4000000, 1, [⟨0, 31, 1, .RW, 0⟩, ⟨0, 0, 5, .RW, 0⟩]⟩]

/-- The registers whose words lie in the span of LNK. -/
def regsLNK : List RegDef := [
  ⟨.LNK_CTRL, 0x210000, 64, 0x1000, 1, 0x4000000, 1, [⟨0, 24, 8, .RWL, 64⟩, ⟨0, 16, 8, .RWL, 16⟩, ⟨0, 8, 8, .RWL, 8⟩, ⟨0, 1, 1, .WO, 0⟩, ⟨0, 0, 1, .RWL, 1⟩]⟩,
  ⟨.LNK_STATUS, 0x210004, 64, 0x1000, 1, 0x4000000, 1, [⟨0, 31, 1, .W1C, 0⟩, ⟨0, 30, 1, .W1C, 0⟩, ⟨0, 27, 3, .RO, 0⟩, ⟨0, 26, 1, .RO, 0⟩, ⟨0, 25, 1, .RO, 0⟩, ⟨0, 24, 1, .RO, 0⟩, ⟨0, 23, 1, .RO, 0⟩, ⟨0, 22, 1, .RO, 0⟩, ⟨0, 21, 1, .RO, 0⟩, ⟨0, 0, 3, .RO, 0⟩]⟩,
  ⟨.LNK_REPLAY_CFG, 0x210008, 64, 0x1000, 1, 0x4000000, 1, [⟨0, 24, 8, .RWL, 16⟩, ⟨0, 8, 11, .RWL, 0⟩, ⟨0, 0, 8, .RWL, 3⟩]⟩,
  ⟨.LNK_POOL_CFG, 0x21000c, 64, 0x1000, 1, 0x4000000, 1, [⟨0, 31, 1, .RWL, 1⟩, ⟨0, 16, 11, .RWL, 256⟩, ⟨0, 0, 13, .RWL, 1242⟩]⟩,
  ⟨.LNK_RTT, 0x210010, 64, 0x1000, 1, 0x4000000, 1, [⟨0, 0, 20, .RO, 0⟩]⟩,
  ⟨.LNK_TX_SEQ, 0x210014, 64, 0x1000, 1, 0x4000000, 1, [⟨0, 16, 14, .RO, 16383⟩, ⟨0, 0, 14, .RO, 0⟩]⟩,
  ⟨.LNK_RX_SEQ, 0x210018, 64, 0x1000, 1, 0x4000000, 1, [⟨0, 16, 13, .RO, 6144⟩, ⟨0, 0, 14, .RO, 0⟩]⟩,
  ⟨.LNK_CREDIT_LO, 0x210020, 64, 0x1000, 1, 0x4000000, 1, [⟨0, 24, 8, .RO, 0⟩, ⟨0, 16, 8, .RO, 0⟩, ⟨0, 8, 8, .RO, 0⟩, ⟨0, 0, 8, .RO, 0⟩]⟩,
  ⟨.LNK_CREDIT_HI, 0x210024, 64, 0x1000, 1, 0x4000000, 1, [⟨0, 24, 8, .RO, 0⟩, ⟨0, 16, 8, .RO, 0⟩, ⟨0, 8, 8, .RO, 0⟩, ⟨0, 0, 8, .RO, 0⟩]⟩]

/-- The registers whose words lie in the span of RTE. -/
def regsRTE : List RegDef := [
  ⟨.RTE_LIFE, 0x300020, 1, 0x4000000, 1, 0x4000000, 1, [⟨0, 0, 15, .RWL, 4096⟩]⟩,
  ⟨.RTE_PATH_CFG, 0x300030, 1, 0x4000000, 1, 0x4000000, 1, [⟨0, 24, 8, .RW, 255⟩, ⟨0, 16, 8, .RW, 32⟩, ⟨0, 8, 8, .RW, 8⟩, ⟨0, 4, 4, .RW, 4⟩, ⟨0, 1, 3, .RW, 2⟩, ⟨0, 0, 1, .RW, 1⟩]⟩,
  ⟨.RTE_PATH_BIAS, 0x300034, 1, 0x4000000, 1, 0x4000000, 1, [⟨0, 0, 8, .RW, 16⟩]⟩,
  ⟨.RTE_CONG_CFG, 0x300038, 1, 0x4000000, 1, 0x4000000, 1, [⟨0, 20, 10, .RW, 128⟩, ⟨0, 10, 10, .RW, 32⟩, ⟨0, 0, 10, .RW, 8⟩]⟩,
  ⟨.RTE_RA_CFG, 0x300040, 1, 0x4000000, 1, 0x4000000, 1, [⟨0, 16, 16, .RW, 64⟩, ⟨0, 0, 8, .RW, 4⟩]⟩,
  ⟨.RTE_STATUS, 0x300044, 1, 0x4000000, 1, 0x4000000, 1, [⟨0, 1, 1, .W1C, 0⟩, ⟨0, 0, 1, .W1C, 0⟩]⟩,
  ⟨.RTE_DEAD_LO, 0x300050, 1, 0x4000000, 1, 0x4000000, 1, [⟨0, 0, 32, .RO, 0⟩]⟩,
  ⟨.RTE_DEAD_HI, 0x300054, 1, 0x4000000, 1, 0x4000000, 1, [⟨0, 0, 32, .RO, 0⟩]⟩,
  ⟨.RTE_WALL_VALID, 0x300800, 32, 0x4, 1, 0x4000000, 1, [⟨0, 0, 32, .SH, 0⟩]⟩,
  ⟨.RTE_LOST, 0x300900, 8, 0x4, 1, 0x4000000, 1, [⟨0, 0, 32, .RW, 0⟩]⟩,
  ⟨.RTE_PORT_ROLE, 0x301000, 64, 0x4, 1, 0x4000000, 1, [⟨0, 16, 1, .SH, 1⟩, ⟨0, 11, 5, .SH, 0⟩, ⟨0, 4, 4, .SH, 0⟩, ⟨0, 0, 3, .SH, 0⟩]⟩,
  ⟨.RTE_EXIT, 0x340000, 1024, 0x10, 1, 0x4000000, 4, [⟨0, 0, 32, .SH, 0⟩, ⟨1, 0, 32, .SH, 0⟩, ⟨2, 0, 32, .SH, 0⟩, ⟨3, 0, 32, .SH, 0⟩]⟩]

/-- The registers whose words lie in the span of SCH. -/
def regsSCH : List RegDef := [
  ⟨.SCH_VC_CFG, 0x380100, 7, 0x4, 1, 0x4000000, 1, [⟨0, 0, 12, .SH, 0⟩]⟩,
  ⟨.SCH_VC7_CAP, 0x380120, 1, 0x4000000, 1, 0x4000000, 1, [⟨0, 0, 11, .RW, 256⟩]⟩,
  ⟨.SCH_TC_CFG, 0x380140, 4, 0x4, 1, 0x4000000, 1, [⟨0, 0, 12, .SH, 130⟩]⟩,
  ⟨.SCH_MARK_CFG, 0x380180, 1, 0x4000000, 1, 0x4000000, 1, [⟨0, 20, 1, .RW, 1⟩, ⟨0, 10, 10, .RW, 128⟩, ⟨0, 0, 10, .RW, 32⟩]⟩,
  ⟨.SCH_CC_CFG, 0x380190, 1, 0x4000000, 1, 0x4000000, 1, [⟨0, 19, 13, .RW, 4096⟩, ⟨0, 11, 8, .RW, 8⟩, ⟨0, 7, 4, .RW, 4⟩, ⟨0, 0, 1, .RW, 1⟩]⟩,
  ⟨.SCH_METER, 0x390000, 8192, 0x10, 1, 0x4000000, 4, [⟨0, 31, 1, .SH, 0⟩, ⟨0, 30, 1, .SH, 0⟩, ⟨0, 29, 1, .SH, 0⟩, ⟨0, 0, 17, .SH, 0⟩, ⟨1, 0, 17, .SH, 0⟩, ⟨2, 0, 20, .SH, 0⟩, ⟨3, 0, 20, .SH, 0⟩]⟩,
  ⟨.SCH_METER_MAP, 0x3b0000, 4096, 0x4, 1, 0x4000000, 1, [⟨0, 31, 1, .SH, 0⟩, ⟨0, 16, 13, .SH, 0⟩, ⟨0, 15, 1, .SH, 0⟩, ⟨0, 0, 12, .SH, 0⟩]⟩,
  ⟨.SCH_SHAPER, 0x3c0000, 4096, 0x8, 1, 0x4000000, 2, [⟨0, 31, 1, .SH, 0⟩, ⟨0, 0, 17, .SH, 0⟩, ⟨1, 0, 20, .SH, 0⟩]⟩]

/-- The registers whose words lie in the span of HIF. -/
def regsHIF : List RegDef := [
  ⟨.HIF_CQ_CFG, 0x400010, 1, 0x4000000, 1, 0x4000000, 1, [⟨0, 0, 16, .RW, 1024⟩]⟩,
  ⟨.HIF_HP_STATUS, 0x400020, 4, 0x4, 1, 0x4000000, 1, [⟨0, 31, 1, .RO, 0⟩, ⟨0, 30, 1, .RO, 0⟩, ⟨0, 29, 1, .RO, 0⟩, ⟨0, 16, 5, .RO, 0⟩, ⟨0, 0, 4, .RO, 0⟩]⟩,
  ⟨.HIF_EVT_ROUTE, 0x410000, 4096, 0x4, 1, 0x4000000, 1, [⟨0, 0, 2, .RW, 0⟩]⟩,
  ⟨.HIF_FN_STATUS, 0x440000, 1024, 0x100, 1, 0x4000000, 1, [⟨0, 31, 1, .RO, 0⟩, ⟨0, 30, 1, .RO, 0⟩, ⟨0, 29, 1, .W1C, 0⟩, ⟨0, 28, 1, .W1C, 0⟩, ⟨0, 27, 1, .RO, 0⟩, ⟨0, 0, 12, .RO, 0⟩]⟩,
  ⟨.HIF_FN_GROUPS, 0x440004, 1024, 0x100, 1, 0x4000000, 1, [⟨0, 14, 14, .RW, 0⟩, ⟨0, 0, 14, .RW, 0⟩]⟩,
  ⟨.HIF_FN_CMD_ARG, 0x440040, 1024, 0x100, 12, 0x4, 1, [⟨0, 0, 32, .RW, 0⟩]⟩,
  ⟨.HIF_FN_CMD, 0x440070, 1024, 0x100, 1, 0x4000000, 1, [⟨0, 0, 8, .RW, 0⟩]⟩,
  ⟨.HIF_FN_CMD_STATUS, 0x440074, 1024, 0x100, 1, 0x4000000, 1, [⟨0, 31, 1, .RO, 0⟩, ⟨0, 8, 16, .RO, 0⟩, ⟨0, 0, 8, .RO, 0⟩]⟩,
  ⟨.BRG_FN_CFG, 0x440078, 1024, 0x100, 1, 0x4000000, 1, [⟨0, 31, 1, .RW, 0⟩, ⟨0, 24, 2, .RW, 0⟩, ⟨0, 0, 16, .RW, 0⟩]⟩,
  ⟨.BRG_FN_ERR, 0x44007c, 1024, 0x100, 1, 0x4000000, 1, [⟨0, 26, 6, .RO, 0⟩, ⟨0, 16, 8, .RO, 0⟩, ⟨0, 0, 16, .RO, 0⟩]⟩,
  ⟨.WIN_FN, 0x440080, 1024, 0x100, 8, 0x10, 4, [⟨0, 0, 32, .RW, 0⟩, ⟨1, 0, 32, .RW, 0⟩, ⟨2, 16, 16, .RW, 0⟩, ⟨2, 0, 16, .RW, 0⟩, ⟨3, 31, 1, .RW, 0⟩, ⟨3, 30, 1, .RW, 0⟩, ⟨3, 29, 1, .RW, 0⟩, ⟨3, 28, 1, .RW, 0⟩, ⟨3, 27, 1, .W1C, 0⟩, ⟨3, 0, 22, .RW, 0⟩]⟩]

/-- The registers whose words lie in the span of XLT. -/
def regsXLT : List RegDef := [
  ⟨.XLT_AGE_CFG, 0x480010, 1, 0x4000000, 1, 0x4000000, 1, [⟨0, 0, 24, .RW, 65536⟩]⟩,
  ⟨.XLT_AST_BASE_LO, 0x481000, 4, 0x400, 1, 0x4000000, 1, [⟨0, 12, 20, .RW, 0⟩]⟩,
  ⟨.XLT_AST_BASE_HI, 0x481004, 4, 0x400, 1, 0x4000000, 1, [⟨0, 0, 20, .RW, 0⟩]⟩,
  ⟨.XLT_AST_CFG, 0x481008, 4, 0x400, 1, 0x4000000, 1, [⟨0, 31, 1, .RW, 0⟩, ⟨0, 0, 5, .RW, 0⟩]⟩,
  ⟨.XLT_UNIT_STATUS, 0x48100c, 4, 0x400, 1, 0x4000000, 1, [⟨0, 31, 1, .RO, 0⟩, ⟨0, 16, 12, .RO, 0⟩, ⟨0, 8, 6, .RO, 0⟩, ⟨0, 0, 6, .RO, 0⟩]⟩,
  ⟨.XLT_RANGE, 0x481100, 4, 0x400, 8, 0x10, 4, [⟨0, 12, 20, .RW, 0⟩, ⟨0, 0, 1, .RW, 0⟩, ⟨1, 0, 20, .RW, 0⟩, ⟨2, 12, 20, .RW, 0⟩, ⟨3, 0, 20, .RW, 0⟩]⟩,
  ⟨.XLT_FN_S2, 0x484000, 1024, 0x8, 1, 0x4000000, 2, [⟨0, 12, 20, .RW, 0⟩, ⟨0, 0, 1, .RW, 0⟩, ⟨1, 0, 20, .RW, 0⟩]⟩]

/-- The registers whose words lie in the span of TRN. -/
def regsTRN : List RegDef := [
  ⟨.TRN_RETX_CFG, 0x500010, 1, 0x4000000, 1, 0x4000000, 1, [⟨0, 28, 4, .RW, 8⟩, ⟨0, 24, 4, .RW, 2⟩, ⟨0, 21, 3, .RW, 7⟩, ⟨0, 18, 3, .RW, 6⟩, ⟨0, 11, 7, .RW, 16⟩, ⟨0, 0, 11, .RW, 0⟩]⟩,
  ⟨.TRN_ACK_CFG, 0x500014, 1, 0x4000000, 1, 0x4000000, 1, [⟨0, 16, 16, .RW, 16384⟩, ⟨0, 0, 10, .RW, 256⟩]⟩,
  ⟨.TRN_RNR_CFG, 0x500018, 1, 0x4000000, 1, 0x4000000, 1, [⟨0, 16, 16, .RW, 64⟩, ⟨0, 0, 8, .RW, 16⟩]⟩,
  ⟨.TRN_FLOW_CFG, 0x50001c, 1, 0x4000000, 1, 0x4000000, 1, [⟨0, 0, 2, .RW, 0⟩]⟩,
  ⟨.TRN_CACHE_STATUS, 0x500020, 1, 0x4000000, 1, 0x4000000, 1, [⟨0, 16, 16, .RO, 0⟩, ⟨0, 0, 16, .RO, 0⟩]⟩,
  ⟨.TRN_CMD, 0x500100, 1, 0x4000000, 1, 0x4000000, 1, [⟨0, 0, 8, .RW, 0⟩]⟩,
  ⟨.TRN_CMD_STATUS, 0x500104, 1, 0x4000000, 1, 0x4000000, 1, [⟨0, 31, 1, .RO, 0⟩, ⟨0, 16, 12, .RO, 0⟩, ⟨0, 0, 4, .RO, 0⟩]⟩,
  ⟨.TRN_CMD_ARG, 0x500110, 4, 0x4, 1, 0x4000000, 1, [⟨0, 0, 32, .RW, 0⟩]⟩,
  ⟨.TRN_KEY, 0x500120, 8, 0x4, 1, 0x4000000, 1, [⟨0, 0, 32, .WO, 0⟩]⟩,
  ⟨.TRN_SLOT_STATUS, 0x501000, 1024, 0x4, 1, 0x4000000, 1, [⟨0, 31, 1, .RO, 0⟩, ⟨0, 30, 1, .RO, 0⟩, ⟨0, 29, 1, .RO, 0⟩, ⟨0, 24, 4, .RO, 0⟩, ⟨0, 20, 4, .RO, 0⟩, ⟨0, 16, 4, .RO, 0⟩, ⟨0, 0, 16, .RO, 0⟩]⟩,
  ⟨.TRN_REGION, 0x520000, 4096, 0x10, 1, 0x4000000, 4, [⟨0, 31, 1, .RO, 0⟩, ⟨0, 0, 5, .RO, 0⟩, ⟨1, 12, 20, .RO, 0⟩, ⟨2, 0, 20, .RO, 0⟩, ⟨3, 0, 32, .RO, 0⟩]⟩]

/-- The registers whose words lie in the span of MCH. -/
def regsMCH : List RegDef := [
  ⟨.MCH_CFG, 0x580010, 1, 0x4000000, 1, 0x4000000, 1, [⟨0, 0, 17, .RW, 16384⟩]⟩,
  ⟨.MCH_RV_CFG, 0x580014, 1, 0x4000000, 1, 0x4000000, 1, [⟨0, 0, 24, .RW, 0⟩]⟩,
  ⟨.MCH_STATUS, 0x580020, 1, 0x4000000, 1, 0x4000000, 1, [⟨0, 16, 16, .RO, 0⟩, ⟨0, 0, 16, .RO, 0⟩]⟩,
  ⟨.MCH_OVF, 0x580100, 4, 0x10, 1, 0x4000000, 3, [⟨0, 12, 20, .RW, 0⟩, ⟨0, 5, 1, .RW, 0⟩, ⟨0, 0, 5, .RW, 0⟩, ⟨1, 0, 20, .RW, 0⟩, ⟨2, 0, 23, .RO, 0⟩]⟩,
  ⟨.MCH_FN_QUOTA, 0x584000, 1024, 0x4, 1, 0x4000000, 1, [⟨0, 20, 12, .RW, 0⟩, ⟨0, 10, 10, .RW, 0⟩, ⟨0, 0, 10, .RW, 0⟩]⟩]

/-- The registers whose words lie in the span of RMA. -/
def regsRMA : List RegDef := [
  ⟨.RMA_CFG, 0x600010, 1, 0x4000000, 1, 0x4000000, 1, [⟨0, 0, 8, .RW, 16⟩]⟩,
  ⟨.RMA_STATUS, 0x600020, 1, 0x4000000, 1, 0x4000000, 1, [⟨0, 16, 16, .RO, 0⟩, ⟨0, 0, 16, .RO, 0⟩]⟩,
  ⟨.RMA_KEYTAB, 0x600100, 4, 0x10, 1, 0x4000000, 3, [⟨0, 12, 20, .RW, 0⟩, ⟨0, 5, 1, .RW, 0⟩, ⟨0, 0, 5, .RW, 0⟩, ⟨1, 0, 20, .RW, 0⟩, ⟨2, 0, 23, .RO, 0⟩]⟩,
  ⟨.RMA_FN_KEYS, 0x604000, 1024, 0x4, 1, 0x4000000, 1, [⟨0, 16, 16, .RW, 0⟩, ⟨0, 0, 16, .RW, 0⟩]⟩]

/-- The registers whose words lie in the span of LCK. -/
def regsLCK : List RegDef := [
  ⟨.LCK_FL_CFG, 0x680010, 1, 0x4000000, 1, 0x4000000, 1, [⟨0, 8, 24, .RW, 16384⟩, ⟨0, 0, 8, .RW, 4⟩]⟩,
  ⟨.LCK_FL_STATUS, 0x680014, 1, 0x4000000, 1, 0x4000000, 1, [⟨0, 0, 13, .RO, 0⟩]⟩,
  ⟨.LCK_FL_ARG, 0x680100, 7, 0x4, 1, 0x4000000, 1, [⟨0, 0, 32, .RW, 0⟩]⟩,
  ⟨.LCK_FL_CMD, 0x680120, 1, 0x4000000, 1, 0x4000000, 1, [⟨0, 0, 8, .RW, 0⟩]⟩,
  ⟨.LCK_FL_CMD_STATUS, 0x680124, 1, 0x4000000, 1, 0x4000000, 1, [⟨0, 31, 1, .RO, 0⟩, ⟨0, 8, 16, .RO, 0⟩, ⟨0, 0, 8, .RO, 0⟩]⟩,
  ⟨.LCK_FL_RES, 0x680130, 3, 0x4, 1, 0x4000000, 1, [⟨0, 0, 32, .RO, 0⟩]⟩,
  ⟨.LCK_CELL, 0x690000, 1024, 0x4, 1, 0x4000000, 1, [⟨0, 31, 1, .RO, 0⟩, ⟨0, 30, 1, .RO, 0⟩, ⟨0, 24, 6, .RO, 0⟩, ⟨0, 16, 7, .RO, 0⟩, ⟨0, 0, 12, .RO, 4095⟩]⟩,
  ⟨.LCK_CELL_CFG, 0x6a0000, 1024, 0x4, 1, 0x4000000, 1, [⟨0, 4, 2, .RW, 0⟩, ⟨0, 0, 2, .RW, 0⟩]⟩]

/-- The registers whose words lie in the span of COL. -/
def regsCOL : List RegDef := [
  ⟨.COL_CFG, 0x700010, 1, 0x4000000, 1, 0x4000000, 1, [⟨0, 0, 24, .RW, 0⟩]⟩,
  ⟨.COL_STATUS, 0x700014, 1, 0x4000000, 1, 0x4000000, 1, [⟨0, 31, 1, .W1C, 0⟩, ⟨0, 30, 1, .W1C, 0⟩, ⟨0, 16, 12, .RO, 0⟩, ⟨0, 0, 12, .RO, 0⟩]⟩,
  ⟨.COL_CMD, 0x700100, 1, 0x4000000, 1, 0x4000000, 1, [⟨0, 0, 8, .RW, 0⟩]⟩,
  ⟨.COL_CMD_STATUS, 0x700104, 1, 0x4000000, 1, 0x4000000, 1, [⟨0, 31, 1, .RO, 0⟩, ⟨0, 16, 12, .RO, 0⟩, ⟨0, 0, 4, .RO, 0⟩]⟩,
  ⟨.COL_CMD_ARG, 0x700110, 4, 0x4, 1, 0x4000000, 1, [⟨0, 0, 32, .RW, 0⟩]⟩,
  ⟨.COL_KEY, 0x700120, 8, 0x4, 1, 0x4000000, 1, [⟨0, 0, 32, .WO, 0⟩]⟩,
  ⟨.COL_TREE, 0x710000, 4096, 0x20, 1, 0x4000000, 8, [⟨0, 31, 1, .SH, 0⟩, ⟨0, 30, 1, .SH, 0⟩, ⟨0, 29, 1, .SH, 0⟩, ⟨0, 28, 1, .SH, 0⟩, ⟨0, 22, 6, .SH, 0⟩, ⟨0, 16, 4, .SH, 1⟩, ⟨0, 8, 8, .SH, 0⟩, ⟨0, 0, 6, .SH, 0⟩, ⟨1, 0, 32, .SH, 0⟩, ⟨2, 0, 32, .SH, 0⟩, ⟨3, 16, 16, .SH, 0⟩, ⟨4, 0, 27, .SH, 0⟩]⟩,
  ⟨.COL_TREE_STATE, 0x740000, 4096, 0x10, 1, 0x4000000, 4, [⟨0, 30, 2, .RO, 0⟩, ⟨0, 24, 6, .RO, 0⟩, ⟨0, 0, 24, .RO, 0⟩, ⟨1, 16, 16, .RO, 0⟩, ⟨1, 0, 16, .RO, 0⟩, ⟨2, 0, 32, .RO, 0⟩, ⟨3, 0, 20, .RO, 0⟩]⟩]

/-- The registers whose words lie in the span of BRG. -/
def regsBRG : List RegDef := [
  ⟨.BRG_CFG, 0x780010, 1, 0x4000000, 1, 0x4000000, 1, [⟨0, 16, 16, .RW, 8192⟩, ⟨0, 0, 16, .RW, 1280⟩]⟩,
  ⟨.BRG_HP_STATUS, 0x780020, 4, 0x4, 1, 0x4000000, 1, [⟨0, 16, 10, .RO, 0⟩, ⟨0, 0, 7, .RO, 0⟩]⟩,
  ⟨.WIN_PF, 0x790000, 4, 0x400, 64, 0x10, 4, [⟨0, 0, 32, .RW, 0⟩, ⟨1, 0, 32, .RW, 0⟩, ⟨2, 16, 16, .RW, 0⟩, ⟨2, 0, 16, .RW, 0⟩, ⟨3, 31, 1, .RW, 0⟩, ⟨3, 30, 1, .RW, 0⟩, ⟨3, 29, 1, .RW, 0⟩, ⟨3, 28, 1, .RW, 0⟩, ⟨3, 27, 1, .W1C, 0⟩, ⟨3, 0, 22, .RW, 0⟩]⟩]

/-- The registers whose words lie in the span of LTL. -/
def regsLTL : List RegDef := [
  ⟨.LTL_CFG, 0x7c0010, 1, 0x4000000, 1, 0x4000000, 1, [⟨0, 31, 1, .RW, 0⟩, ⟨0, 0, 8, .RW, 0⟩]⟩,
  ⟨.LTL_BUS_CFG, 0x7c0020, 4, 0x4, 1, 0x4000000, 1, [⟨0, 31, 1, .RW, 0⟩, ⟨0, 30, 1, .RW, 0⟩, ⟨0, 28, 2, .RW, 1⟩, ⟨0, 27, 1, .RW, 1⟩, ⟨0, 20, 4, .RW, 3⟩]⟩,
  ⟨.LTL_SB_CFG, 0x7c0030, 1, 0x4000000, 1, 0x4000000, 1, [⟨0, 31, 1, .RW, 0⟩, ⟨0, 24, 4, .RW, 2⟩, ⟨0, 0, 20, .RW, 0⟩]⟩,
  ⟨.LTL_SB_STATUS, 0x7c0034, 1, 0x4000000, 1, 0x4000000, 1, [⟨0, 16, 12, .W1C, 0⟩, ⟨0, 0, 12, .RO, 0⟩]⟩,
  ⟨.LTL_ROUTE, 0x7c1000, 256, 0x8, 1, 0x4000000, 2, [⟨0, 31, 1, .RW, 0⟩, ⟨0, 30, 1, .RW, 0⟩, ⟨0, 27, 3, .RW, 0⟩, ⟨0, 0, 20, .RW, 0⟩, ⟨1, 16, 16, .RW, 0⟩, ⟨1, 0, 8, .RW, 0⟩]⟩]

/-- The registers whose words lie in the span of BST. -/
def regsBST : List RegDef := [
  ⟨.BST_CFG, 0x800010, 1, 0x4000000, 1, 0x4000000, 1, [⟨0, 31, 1, .RW, 1⟩, ⟨0, 30, 1, .RW, 1⟩]⟩,
  ⟨.BST_STATUS, 0x800014, 1, 0x4000000, 1, 0x4000000, 1, [⟨0, 31, 1, .RO, 0⟩, ⟨0, 28, 3, .RO, 0⟩, ⟨0, 24, 4, .RO, 0⟩, ⟨0, 12, 12, .RO, 0⟩, ⟨0, 0, 10, .RO, 0⟩]⟩,
  ⟨.BST_LOG, 0x800018, 1, 0x4000000, 1, 0x4000000, 1, [⟨0, 0, 7, .RO, 0⟩]⟩,
  ⟨.BST_SIG, 0x800020, 1, 0x4000000, 1, 0x4000000, 4, [⟨0, 0, 32, .RO, 0⟩, ⟨1, 0, 32, .RO, 0⟩, ⟨2, 0, 32, .RO, 0⟩, ⟨3, 0, 32, .RO, 0⟩]⟩,
  ⟨.BST_CMD, 0x800100, 1, 0x4000000, 1, 0x4000000, 1, [⟨0, 16, 10, .RW, 0⟩, ⟨0, 12, 4, .RW, 0⟩, ⟨0, 0, 4, .RW, 0⟩]⟩,
  ⟨.BST_CMD_STATUS, 0x800104, 1, 0x4000000, 1, 0x4000000, 1, [⟨0, 31, 1, .RO, 0⟩, ⟨0, 0, 4, .RO, 0⟩]⟩,
  ⟨.BST_REPAIR, 0x801000, 512, 0x8, 1, 0x4000000, 2, [⟨0, 31, 1, .RO, 0⟩, ⟨0, 30, 1, .RO, 0⟩, ⟨0, 28, 2, .RO, 0⟩, ⟨0, 24, 4, .RO, 0⟩, ⟨0, 0, 10, .RO, 0⟩, ⟨1, 16, 16, .RO, 0⟩, ⟨1, 0, 16, .RO, 0⟩]⟩]

/-- The registers whose words lie in the span of MGT. -/
def regsMGT : List RegDef := [
  ⟨.MGT_MC_CTRL, 0x880010, 1, 0x4000000, 1, 0x4000000, 1, [⟨0, 1, 3, .RW, 0⟩, ⟨0, 0, 1, .RO, 1⟩]⟩,
  ⟨.MGT_FW_SERVE, 0x880014, 1, 0x4000000, 1, 0x4000000, 1, [⟨0, 31, 1, .RW, 1⟩, ⟨0, 0, 22, .RO, 0⟩]⟩,
  ⟨.MGT_MG_CFG, 0x880018, 1, 0x4000000, 1, 0x4000000, 1, [⟨0, 16, 16, .RW, 64⟩, ⟨0, 0, 8, .RW, 8⟩]⟩,
  ⟨.MGT_FM_ORIGIN, 0x880020, 4, 0x4, 1, 0x4000000, 1, [⟨0, 31, 1, .RWL, 0⟩, ⟨0, 0, 20, .RWL, 0⟩]⟩,
  ⟨.MGT_BOOT_MBOX, 0x880100, 1, 0x4000000, 1, 0x4000000, 4, [⟨0, 12, 20, .RW, 0⟩, ⟨1, 0, 20, .RW, 0⟩, ⟨2, 0, 22, .RW, 0⟩, ⟨3, 31, 1, .WO, 0⟩, ⟨3, 26, 2, .RO, 0⟩, ⟨3, 0, 2, .RO, 0⟩]⟩,
  ⟨.MGT_HWIN, 0x881000, 4, 0x100, 8, 0x10, 3, [⟨0, 31, 1, .RW, 0⟩, ⟨0, 30, 1, .RW, 0⟩, ⟨0, 28, 2, .RW, 0⟩, ⟨0, 0, 16, .RW, 0⟩, ⟨1, 12, 20, .RW, 0⟩, ⟨2, 0, 16, .RW, 0⟩]⟩,
  ⟨.MGT_MG, 0x882000, 8, 0x200, 1, 0x4000000, 5, [⟨0, 24, 8, .RW, 2⟩, ⟨0, 0, 20, .RW, 0⟩, ⟨1, 0, 30, .RW, 0⟩, ⟨2, 24, 4, .RW, 0⟩, ⟨2, 0, 18, .RW, 0⟩, ⟨3, 0, 26, .RW, 0⟩, ⟨4, 31, 1, .RO, 0⟩, ⟨4, 16, 8, .RO, 0⟩, ⟨4, 8, 7, .RW, 1⟩, ⟨4, 0, 2, .WO, 0⟩]⟩,
  ⟨.MGT_MG_DATA, 0x882100, 8, 0x200, 64, 0x4, 1, [⟨0, 0, 32, .RW, 0⟩]⟩]

/-- The registers whose words lie in the span of RBK. -/
def regsRBK : List RegDef := [
  ⟨.RBK_SEL, 0x1000000, 9, 0x10000, 1, 0x4000000, 2, [⟨0, 24, 8, .RW, 0⟩, ⟨0, 0, 24, .RW, 0⟩, ⟨1, 31, 1, .RO, 0⟩, ⟨1, 0, 4, .RW, 0⟩]⟩,
  ⟨.RBK_TIME, 0x1000010, 9, 0x10000, 1, 0x4000000, 2, [⟨0, 0, 32, .RO, 0⟩, ⟨1, 0, 32, .RO, 0⟩]⟩]

/-- The 64-bit counters of each block: (first offset, number of copies, stride, number of counters). R8, R13. -/
def ctrRanges : List (Nat × Nat × Nat × Nat) := [
  (0x100, 1, 0x1000, 2),
  (0x80300, 1, 0x1000, 3),
  (0x110100, 128, 0x1000, 9),
  (0x110180, 128, 0x1000, 15),
  (0x210100, 64, 0x1000, 19),
  (0x300100, 1, 0x1000, 11),
  (0x380200, 1, 0x1000, 6),
  (0x400100, 1, 0x1000, 9),
  (0x481200, 4, 0x400, 8),
  (0x500200, 1, 0x1000, 19),
  (0x580200, 1, 0x1000, 10),
  (0x600200, 1, 0x1000, 10),
  (0x680200, 1, 0x1000, 8),
  (0x700200, 1, 0x1000, 10),
  (0x780200, 1, 0x1000, 9),
  (0x7c0200, 1, 0x1000, 5),
  (0x800200, 1, 0x1000, 6),
  (0x880400, 1, 0x1000, 9)]

/-- The block span a BAR0 offset lies in (R521): its base, BLK_ID code, first event source, source count and registers. -/
structure BlkDef where
  base : Nat
  top : Nat
  code : Nat
  first : Nat
  count : Nat
  regs : List RegDef
deriving DecidableEq, Repr

/-- The seventeen blocks of R521 and R527. -/
def blocks : List BlkDef := [
  ⟨0x0, 0x7ffff, 1, 0, 6, regsGLB⟩,
  ⟨0x80000, 0xfffff, 2, 16, 8, regsCRS⟩,
  ⟨0x100000, 0x1fffff, 3, 32, 528, regsLAN⟩,
  ⟨0x200000, 0x2fffff, 4, 576, 384, regsLNK⟩,
  ⟨0x300000, 0x37ffff, 5, 960, 6, regsRTE⟩,
  ⟨0x380000, 0x3fffff, 6, 976, 5, regsSCH⟩,
  ⟨0x400000, 0x47ffff, 7, 992, 9, regsHIF⟩,
  ⟨0x480000, 0x4fffff, 8, 1008, 24, regsXLT⟩,
  ⟨0x500000, 0x57ffff, 9, 1040, 9, regsTRN⟩,
  ⟨0x580000, 0x5fffff, 10, 1056, 7, regsMCH⟩,
  ⟨0x600000, 0x67ffff, 11, 1072, 7, regsRMA⟩,
  ⟨0x680000, 0x6fffff, 12, 1088, 8, regsLCK⟩,
  ⟨0x700000, 0x77ffff, 13, 1104, 7, regsCOL⟩,
  ⟨0x780000, 0x7bffff, 14, 1120, 4, regsBRG⟩,
  ⟨0x7c0000, 0x7fffff, 15, 1136, 3, regsLTL⟩,
  ⟨0x800000, 0x87ffff, 16, 1152, 8, regsBST⟩,
  ⟨0x880000, 0x8fffff, 17, 1168, 6, regsMGT⟩]

end Sys2Proof.Machine
end

