-- ==== Sys2Proof/Machine/State.lean ====
section
/-! DEFINITION. The state of the LYN-8164 as plain data, and its value at reset. Every field's comment names the
register or mechanism, the rule of spec/ that gives it, its width and its reset value. -/
namespace Sys2Proof.Machine

/-- Why the model stops although a command was given. No meaning of this model ends in one: the spec gives every
command an effect (NOTES.md, "Stops"). -/
inductive Fault where
  /-- Kept so that the type has a value; nothing raises it. Safe: a stop proves nothing about the hardware. -/
  | none_
deriving DecidableEq, Repr

/-- Why a command has no meaning here. -/
inductive Refusal where
  /-- Raised by an arm of Machine/Dispatch.lean for a command that is not modelled; safe: the model stops. -/
  | notModelled (mnemonic : String)
deriving DecidableEq, Repr

/-- What the device does to the world outside it, oldest first in `State.out`. The model's own record; the spec gives
each of these effects at the rule named. -/
inductive Out where
  | hostWrite (hp requester addr : Nat) (d : Data)        -- a posted memory write on a host port, R220
  | hostRead (hp requester addr len : Nat)                -- a memory read request on a host port, R228 R286
  | msix (identity vector : Nat)                          -- an MSI-X message, R248
  | atomicOp (hp requester addr : Nat) (op size : Nat) (d : Data) -- a PCI Express AtomicOp request, R376
  | completion (hp tag status : Nat) (d : Data)           -- a completion of a request to BAR4, R446 R450 (status 0 OK, 1 UR, 4 CA)
  | readData (off : Nat) (d : Data)                       -- the data of a register read, R9 R12
  | brick (port : Nat) (d : Data)                         -- a 72-byte brick sent, R112
  | laneFrame (lane : Nat) (request status : Nat) (levels : List Nat) -- a training frame: its fields and its 4,096 levels, R93 R94
  | laneMarker (lane : Nat) (block : Nat)                 -- an alignment marker sent, 257 bits, R88
  | laneIdle (lane : Nat)                                 -- the transmitter goes to electrical idle, R35 R100
  | laneBytes (lane : Nat) (d : Data)                     -- payload bytes decoded from a codeword, R82 R83
  | codeword (lane : Nat) (levels : Nat)                  -- a codeword sent: 2,720 levels of two bits, the first lowest, R81
  | rxBrick (port : Nat) (d : Data)                       -- a 72-byte brick merged from the lanes of a port, R83 R92
  | laneLoop (lane : Nat) (levels : List Nat)             -- received levels sent back out, as they leave the transmitter (far-end loopback), R109
  | prbs (lane : Nat) (p31 : Bool) (seed : Nat)           -- the generator runs from this register (pattern as in prbsRun), R107
  | fecInject (lane : Nat) (symbols : List Nat)           -- symbols corrupted in the next codeword, R108
  | prbsFlip (lane : Nat)                                 -- one transmitted symbol's least significant bit flipped, R108
  | uart (line : String)                                  -- a line sent on UART_TXD, R515
  | smbusWrite (bus addr cmd : Nat) (d : Data)            -- an SMBus write of a command code and an MCTP packet, R458
  | smbusRead (bus addr : Nat) (cmd : Option Nat) (d : Data) -- an SMBus read that gave these bytes, with its command code if it has one, R458
  | i3cWrite (bus addr : Nat) (d : Data)                  -- an I3C private write of an MCTP packet, R458
  | i3cRead (bus addr : Nat) (d : Data)                   -- an I3C private read that gave these bytes, R458
  | vdm (hp bdf : Nat) (d : Data)                         -- an MCTP packet sent as a VDM routed by ID on a host port, R458
  | setdasa (bus addr : Nat)                              -- SETDASA to a target on an I3C bus, R458
  | toCore (core : Nat) (d : Data)                        -- a message handed to a management core's firmware, R455 R501
  | coreException (core : Nat)                            -- an access of a management core raises an exception in it, R279 R508
  | coreStart (core entry : Nat)                          -- a management core starts at its entry offset, R507
  | fuse (record : Nat)                                   -- a repair record programmed into fuses, R487
  | deviceGone                                            -- the host ports present no device, R37 R524
deriving DecidableEq, Repr

/-- A core cycle in global time, as a timer notes its start (R48, R53). -/
structure When where
  course : Course
  cycle : Nat
deriving DecidableEq, Repr

/-- The operating modes of R26, with the code GLB_MODE reports. -/
inductive Mode where
  | off | strap | monitor | train | transit | service | drain | fenced
deriving DecidableEq, Repr

/-- The instructions of the IEEE 1149.1 test access port that R2 lists. -/
inductive TapIr where
  | idcode | bypass | sample | extest
deriving DecidableEq, Repr

/-- Identity, mode, reset, straps, rails and sensors (spec/01, spec/17, spec/18). -/
structure Glb where
  prevMode : Nat            -- GLB_MODE.prev_mode, R26; 3 bits; reset 0
  cause : Nat               -- GLB_MODE.cause, R29; 4 bits; reset 0
  reqErr : Bool             -- GLB_MODE.req_err, R28; 1 bit; reset 0
  refusedMode : Nat         -- GLB_MODE.refused_mode, R28; 3 bits; reset 0
  reqPending : Bool         -- GLB_MODE_REQ.pending, R28; 1 bit; reset 0
  requester : Nat           -- GLB_MODE_REQ.requester, R28; 12 bits; reset 0xFFF
  target : Nat              -- GLB_MODE_REQ.target, R28; 3 bits; reset 0
  reqCourse : Course        -- the course in which the request was written, R27; 48 bits; reset 0
  reqOld : Option Nat       -- a request of an earlier course that still waits at its boundary while a newer one is written, R28; 3 bits; reset none
  lock : Bool               -- the set-up lock, R31 R525; 1 bit; reset 0
  fencePend : Option Nat    -- a cause of entry into FENCED that waits for its boundary, R27 R472; 4 bits; reset none
  fenceAsk : Course         -- the course in which that entry was asked for, R27; 48 bits; reset 0
  fenceFrom : Course        -- the course in which FENCED was entered, R35; 48 bits; reset 0
  fenceTxOff : Bool         -- the sixteen fenced courses are over and the transmitters idle, R35; 1 bit; reset 0
  strapBoot : Nat           -- GLB_STRAPS.boot as sampled, R526; 2 bits; reset the ball
  strapHpmode : Bool        -- GLB_STRAPS.hpmode as sampled, R23 R526; 1 bit; reset the ball
  strapTimeroot : Bool      -- GLB_STRAPS.timeroot as sampled, R54 R526; 1 bit; reset the ball
  ballBoot : Nat            -- the level at the STRAP_BOOT balls, R543; 2 bits; reset the ball
  ballHpmode : Bool         -- the level at the STRAP_HPMODE ball, R543; 1 bit; reset the ball
  ballTimeroot : Bool       -- the level at the STRAP_TIMEROOT ball, R543; 1 bit; reset the ball
  resetN : Bool             -- RESET_N deasserted, R538; 1 bit; reset 1 (out of reset)
  railCore : Bool           -- VIN_CORE within limits, R535; 1 bit; reset 1
  railLane : Bool           -- VIN_LANE within limits, R535; 1 bit; reset 1
  railIo : Bool             -- VDD_IO within limits, R535 R38; 1 bit; reset 1
  trip : Bool               -- a thermal trip is in force (THERM_TRIP_N low), R38 R547; 1 bit; reset 0
  temps : Tbl Nat           -- GLB_TEMP words of the 24 sensors, R545; 32 bits each; reset 0
  gpioPins : Nat            -- levels the board drives on GPIO[15:0]; undriven pins read their pull-down, R532; 16 bits; reset 0
  gpioIn : Nat              -- GLB_GPIO_IN, sampled every core cycle, spec/17; 16 bits; reset 0
  tap : TapIr               -- the instruction of the IEEE 1149.1 test access port, R2 R532; reset IDCODE (the standard's Test-Logic-Reset)
  perstN : List Bool        -- PERST_N[3:0] deasserted, R539; 4 bits; reset 0 (asserted by the pull-down)
  hpStatus : Tbl Nat        -- HIF_HP_STATUS link_up, flit, width and speed of HP0-HP3, R4; 32 bits each; reset 0
deriving DecidableEq, Repr

/-- The last mark received on a port since its link last left DOWN, the local time of its arrival in 1/16 cycle (R57, R60), and
whether it may still give a parent: not when alignment through the port was lost (R63) and no mark has come since. -/
structure RxMark where
  mark : Mark
  at_ : Int
  usable : Bool
deriving DecidableEq, Repr

/-- The course counter, alignment and the two configuration sets (spec/02). -/
structure Crs where
  course : Course           -- CRS_NOW, the course number, R48; 48 bits; reset 0
  cycle : Nat               -- CRS_NOW, the cycle within the course, R48; 11 bits; reset 0
  ball : Bool               -- the level of the COURSE_MARK ball, R51 R37 R532; 1 bit; reset 0 (low in OFF and STRAP)
  multiRoot : Bool          -- CRS_ALIGN_STATUS.multi_root, R59; 1 bit; reset 0
  lost : Bool               -- CRS_ALIGN_STATUS.lost, R63; 1 bit; reset 0
  stepped : Bool            -- CRS_ALIGN_STATUS.stepped, R61; 1 bit; reset 0
  stepDone : Bool           -- the one step of R50 and R61 has been made; 1 bit; reset 0
  aligned : Bool            -- CRS_ALIGN_STATUS.aligned and GLB_MODE.aligned, R62; 1 bit; reset 0
  globalDepth : Nat         -- CRS_ALIGN_STATUS.global_depth, R58; 2 bits; reset 3
  localDepth : Nat          -- CRS_ALIGN_STATUS.local_depth, R58; 2 bits; reset 3
  deep : Bool               -- CRS_ALIGN_STATUS.out_of_bound, a depth above 2, R66; 1 bit; reset 0
  parent : Option Nat       -- CRS_ALIGN_STATUS.parent_valid and parent_port, R58; 6 bits; reset none
  rootValid : Bool          -- CRS_ROOT_ID.valid; 1 bit; reset 0
  rootRank : Nat            -- CRS_ROOT_ID.rank, R58; 2 bits; reset 3
  rootId : Nat              -- CRS_ROOT_ID.root_id, R58; 20 bits; reset 0
  follow : Option (Nat × Nat × Course) -- the better root (rank, identifier) to be followed from the next course, and the course in which it was heard, R59; reset none
  phaseErr : Int            -- CRS_PHASE_ERR.err, R60; 16 bits signed; reset 0
  phase : Int               -- the fine phase adjuster, in 1/16 cycle, R62; reset 0
  avgSum : Int              -- sum of err over the marks counted towards the step, R61; reset 0
  avgCount : Nat            -- valid marks counted towards the step, R61; 5 bits; reset 0
  errCourse : Option Course -- the course of the latest phase error, R61 R62; reset none
  goodRun : Nat             -- consecutive courses with every error within 2 ns, R62; 7 bits; reset 0
  badRun : Nat              -- consecutive marks with an error beyond 24 ns, R63; 4 bits; reset 0
  rxMarks : Tbl RxMark      -- per port, the last mark received and its arrival time, R57; reset none
  txMarks : Tbl Int         -- per port and course [7:0], the local send time of a mark, R60; reset none
  stepFrom : Nat            -- CRS_STEP_FROM, R61; 64 bits; reset 0
  stepTo : Nat              -- CRS_STEP_TO, R61; 64 bits; reset 0
  armErr : Bool             -- CRS_SWAP_CTRL.arm_err, R74; 1 bit; reset 0
  errCode : Nat             -- CRS_SWAP_CTRL.err_code, R74; 3 bits; reset 0
  armed : Bool              -- CRS_SWAP_CTRL.armed, R73; 1 bit; reset 0
  copyBusy : Bool           -- CRS_SWAP_CTRL.copy_busy, R72; 1 bit; reset 0
  copyFrom : Nat            -- the core cycle (counted from course 0) at which the copy began, R72; reset 0
  copies : Nat              -- copies begun, which names a copy for the free order of its words, R72; reset 0
  active : Nat              -- CRS_SET.active, R76; 1 bit; reset 0
  epoch : Nat               -- CRS_SET.epoch, R76; 16 bits; reset 0
  busyEnd : Option Course   -- CRS_SET.shadow_busy and the first course in which it is no longer busy, R77; reset none
deriving DecidableEq, Repr

/-- One event source: its bits in the fault bank and its counts (spec/15). -/
structure Src where
  status : Bool             -- FLT_STATUS bit, R465; reset 0
  real : Bool               -- real condition of a level source, R464; reset 0
  force : Bool              -- FLT_FORCE bit, R469; reset 0
  recReal : Bool            -- FLT_RECORD REAL, R470; reset 0
  recForced : Bool          -- FLT_RECORD FORCED, R470; reset 0
  eventEn : Bool            -- FLT_EVENT_EN bit, R528; reset per source
  tset : Nat                -- FLT_CLASS.tset, R528; 2 bits; reset per source
  cnt : Nat                 -- window count, R475; 16 bits; reset 0
  start : Course            -- window start, R475; 48 bits; reset 0
  seq : Serial              -- source sequence number, R42; 16 bits; reset 0
  pend : Bool               -- a forced consequence waits for its object, R471; reset 0
  due : Bool                -- a forced event of a pulse source is due in the next cycle, R469; reset 0
  evAt : Option (Nat × Bool) -- core cycle of its last latching event, and whether that was forced alone, R467 R470; reset none
  clrAt : Option (Nat × Bool × Bool) -- core cycle in which its status was last cleared, and the record bits it had, R467; reset none
deriving DecidableEq, Repr

/-- FLT_CAUSE of a block (R465). -/
structure FltCause where
  forced : Bool
  severe : Bool
  cls : Nat
  condition : Nat
  source : Nat
  object : Nat
  time : Nat
  beat : Nat                -- core cycle of detection (the model's own count of R468's cycles)
deriving DecidableEq, Repr

/-- What a fault bank keeps once per block (spec/15). -/
structure Bank where
  cause : Option FltCause   -- FLT_CAUSE with its valid bit, R465; 128 bits; reset invalid
  count : Counter           -- FLT_COUNT, R465; 64 bits; reset 0
  thresh : List Nat         -- FLT_THRESH 0-3 words, R475; 32 bits each; reset (0,0), (1024,16), (64,4), (1,1)
  act : Bool                -- FLT_INJECT.act, R471; 1 bit; reset 0
  miss : Bool               -- FLT_INJECT.miss, R471; 1 bit; reset 0
  object : Nat              -- FLT_INJECT.object, R471; 24 bits; reset 0
  freed : Option (Nat × FltCause) -- core cycle in which FLT_CAUSE was last released, and what it held, R467; reset none
deriving DecidableEq, Repr
/-- What a finished work entry reports (R223, R232, R235): status, detail, byte count, aux, and the second slot of a
two-slot completion (R238). -/
structure Res where
  status : Nat
  detail : Nat
  byteCount : Nat
  aux : Nat
  slot2 : Option Nat
deriving DecidableEq, Repr

/-- How far a fetched work entry has come: checked but not started, started (with what the operation notes of it),
finished (R232). -/
inductive EntState where
  | waiting | running (note : Nat) | done (r : Res)
deriving DecidableEq, Repr

/-- A fetched and unretired work entry: its counter, its 64 bytes, its progress (R228). -/
structure Ent where
  ctr : RingCtr
  raw : Nat
  st : EntState
deriving DecidableEq, Repr

/-- The states of R234 in which a send queue exists. -/
inductive SqState where
  | ready | error | destroying
deriving DecidableEq, Repr

/-- A send queue (R218, R249). -/
structure Sq where
  owner : Nat               -- owning function, R222; 12 bits; reset no queue
  cq : Nat                  -- bound CQ, R249; 16 bits
  ep : Nat                  -- bound endpoint, R249; 16 bits
  n : Nat                   -- ring size exponent, R249; 5 bits
  tc : Nat                  -- traffic class, R249; 2 bits
  base : Nat                -- ring base, R249; 64 bits
  l : RingCtr               -- L, the last doorbell value, R218; 32 bits
  f : RingCtr               -- F, the fetch counter, R218; 32 bits
  c : RingCtr               -- C, the retire counter, R218; 32 bits
  state : SqState           -- R234; 3 bits
  errCode : Nat             -- R249; 8 bits
  errCtr : RingCtr          -- R249; 32 bits
  ents : List Ent           -- fetched entries not yet retired, in counter order, R228; at most 64
  fetched : Bool            -- an entry has been fetched since creation or restart, R233
  flushDue : Bool           -- the FLUSHED completion of R233 is owed
  lastUd : Nat              -- user_data of the last fetched entry, for the FLUSHED completion, R233; 64 bits
  lastOp : Nat              -- opcode of the last fetched entry; 8 bits
  lastStamp : Bool          -- stamp of the last fetched entry, R237; 1 bit
  errOwed : Bool            -- the queue entered ERROR through its CQ before an error completion of R233 was written, R242
  reads : List (RingCtr × Nat) -- descriptor reads issued and not returned: first counter, entries, R228 R554
deriving DecidableEq, Repr

/-- The states of R242 in which a CQ exists. -/
inductive CqState where
  | active | stalled | overflow
deriving DecidableEq, Repr

/-- A completion queue (R239, R250). -/
structure Cq where
  owner : Nat               -- owning function; 12 bits; reset no CQ
  n : Nat                   -- ring size exponent, R250; 5 bits
  start : RingCtr           -- S, R219; 32 bits
  prod : RingCtr            -- producer counter, R250; 32 bits
  cons : RingCtr            -- last accepted doorbell value, R250; 32 bits
  base : Nat                -- ring base, R250; 64 bits
  vector : Nat              -- MSI-X vector, R247; 11 bits
  wb : Option Nat           -- write-back address when enabled, R239; 64 bits
  armed : Bool              -- R248; 1 bit
  state : CqState           -- R242; 2 bits
  held : List Nat           -- slots held on chip without their phase, R239; at most 8 of 32 bytes
  owed : List (List Nat × Option Nat) -- receive completions owed, oldest first, and the header entry kept for each, R240
  stallCourse : Course      -- s, R240; 48 bits
deriving DecidableEq, Repr

/-- An event ring (R243, R246). -/
structure Eq where
  owner : Nat               -- the function whose vector and requester ID it uses; 12 bits; reset no ring
  n : Nat                   -- ring size exponent; 5 bits
  start : RingCtr           -- S, R219; 32 bits
  prod : RingCtr            -- producer counter; 32 bits
  cons : RingCtr            -- consumer counter; 32 bits
  base : Nat                -- ring base; 64 bits
  vector : Nat              -- MSI-X vector; 11 bits
  armed : Bool              -- R248; 1 bit
  held : List Nat           -- events held on chip without their phase, R246; at most 4 of 16 bytes
  lost : Nat                -- events lost since the last EVENTS_LOST entry, R246
deriving DecidableEq, Repr

/-- An endpoint (R222, R226, R512 table 0x04). -/
structure Ep where
  owner : Nat               -- owning function; 12 bits; reset no endpoint
  slot : Nat                -- domain slot, R222; 10 bits
  rcq : Nat                 -- receive CQ, R222; 16 bits
  as_ : Nat                 -- address space, R222; 16 bits
  otBase : Nat              -- order-table base (R330), bits [63:6] of the attributes; 64 bits
  m : Nat                   -- order-table size exponent (R330); 5 bits
  rxStamp : Bool            -- stamp receive completions, R237; 1 bit
  destroying : Bool         -- EP_DESTROY has stopped it, R226; 1 bit
deriving DecidableEq, Repr

/-- A function's page state that is not a plain register (R221, HIF_FN_STATUS). -/
structure Fn where
  exists_ : Bool            -- HIF_FN_STATUS.exists; reset 0
  flrBusy : Bool            -- HIF_FN_STATUS.flr_busy, R211; reset 0
  cfgRefused : Bool         -- HIF_FN_STATUS.cfg_refused, R213; reset 0
  cmdOverrun : Bool         -- HIF_FN_STATUS.cmd_overrun, R221; reset 0
  busy : Bool               -- HIF_FN_CMD_STATUS.busy, R221; reset 0
  op : Nat                  -- opcode of the command in progress, R221; 8 bits; reset 0
  args : List Nat           -- the copy of ARG0-ARG11 it uses, R221; 12 words; reset empty
  status : Nat              -- HIF_FN_CMD_STATUS.status, R223; 8 bits; reset 0
  detail : Nat              -- HIF_FN_CMD_STATUS.detail, R223; 16 bits; reset 0
deriving DecidableEq, Repr

/-- The host interface (spec/07). -/
structure Hif where
  fns : Tbl Fn              -- functions by identity, 1,024
  sqs : Tbl Sq              -- send queues that exist, by number, R212
  cqs : Tbl Cq              -- completion queues that exist, by number
  eqs : Tbl Eq              -- event rings: 0-1,023 function rings, 0x1000 + d device rings, R246
  eps : Tbl Ep              -- endpoints that exist, by number
  quar : Tbl When           -- endpoint numbers in quarantine and the cycle it ends, R226 R53
  msix : Tbl Nat            -- MSI-X table words, key (identity × 1,024 + vector) × 4 + word; reset 0, vector control 1 (masked)
  pba : List Nat            -- pending bits set, identity × 1,024 + vector, R248; reset none
  fetchTurn : Nat           -- queue after which round-robin fetch goes on, R228; reset 0
deriving DecidableEq, Repr
/-- What a lane's received bytes hold, in order: bricks, bricks lost to an uncorrectable codeword, and the bounds of marker
periods with the tx_mask that the marker there announces, none where its crc fails (R83, R102). -/
inductive RxItem where
  | brick (d : Data)
  | lost
  | mark (mask : Option Nat)
deriving DecidableEq, Repr

/-- The lane states of R100. -/
inductive LaneSt where
  | disabled | frame | taps | data | sleep | failed | test
deriving DecidableEq, Repr

/-- The FIR taps of a transmitter in steps (R95). -/
structure Taps where
  c1 : Int
  c0 : Int
  cm1 : Int
  cm2 : Int
  cm3 : Int
deriving DecidableEq, Repr

/-- One lane (spec/03). -/
structure Lane where
  st : LaneSt               -- LAN_LN_STATUS.state, R100; 4 bits; reset DISABLED
  sig : Bool                -- LAN_LN_STATUS.signal_detect; reset 0
  frameLock : Bool          -- LAN_LN_STATUS.frame_lock, R93; reset 0
  frameRun : Nat            -- consecutive frame markers found, R93; reset 0
  frameMiss : Nat           -- consecutive frame markers missed, R93; reset 0
  rxReady : Bool            -- LAN_LN_STATUS.rx_ready, R97; reset 0
  farRxReady : Bool         -- LAN_LN_STATUS.far_rx_ready, R97; reset 0
  readySent : Nat           -- frames sent with rx_ready, R97; reset 0
  readyRcvd : Nat           -- frames received with rx_ready, R97; reset 0
  snrRun : Nat              -- frames with the SNR at snr_min or above, R97; reset 0
  txData : Bool             -- the transmitter has begun data, R97; reset 0
  fecLock : Bool            -- LAN_LN_STATUS.fec_lock, R90; reset 0
  uncorrRun : Nat           -- consecutive uncorrectable codewords, R90; reset 0
  markerLock : Bool         -- LAN_LN_STATUS.marker_lock, R90; reset 0
  markerMiss : Nat          -- consecutive expected markers absent or bad, R90; reset 0
  farIndex : Nat            -- LAN_LN_STATUS.far_lane_index; 2 bits; reset 0
  attempts : Nat            -- attempts in the current cycle of retries (LAN_LN_STATUS.attempts shows 15 at most), R98; reset 0
  snr : Nat                 -- LAN_LN_STATUS.snr; 10 bits; reset 0
  txFail : Bool             -- tx_fail sent in the status field, R98; reset 0
  taps : Taps               -- LAN_LN_TAPS, R95; 27 bits; reset P2 (0, 56, -8, 0, 0)
  tapStatus : Nat           -- status field bits [29:20] reported to the far end, R96; 10 bits; reset 0 (not updated)
  farReq : Nat              -- request field bits [31:20] last received, R96; 12 bits; reset 0
  actedReq : Nat            -- request last acted on, R96; 12 bits; reset 0
  reqFrom : Nat             -- core cycle at which the own request last changed, R96; reset 0
  ownReq : Nat              -- request field bits [31:20] this lane sends, R96; 12 bits; reset 0
  farTapStatus : Nat        -- status field bits [29:20] last received, R96; 10 bits; reset 0
  frameAt : When            -- when FRAME was entered, R98 R53; reset 0
  markerFrom : Nat          -- core cycle at which the last marker was sent (a codeword is 32 cycles), R89; reset 0
  txCount : Nat             -- marker count sent, R88; 16 bits; reset 0
  txBip : Nat               -- bip of the data blocks sent since the last marker, R88; 8 bits; reset 0
  rxBip : Nat               -- the same of the data blocks received; 8 bits; reset 0
  markBip : Option Nat      -- bip of the period before a marker block received whose MARKER_RX is still to come, R88 R111; reset none
  markSeen : Bool           -- MARKER_RX has come before the codeword that holds the marker, R111; reset 0
  markNew : Bool            -- the latest marker has not yet been set beside one of the other lane, R91; reset 0
  rxCw : Nat                -- codewords received since the last marker, R90; reset 0
  descr : Nat               -- the descrambler's last 58 bits, R82; 58 bits; reset 0
  earlyCourse : Option Course -- the course of the last early marker sent for a sleep_mask change, R89; reset none
  marker : Option Marker    -- the latest marker received, R92 R101; reset none
  markerAt : Nat            -- its arrival time in 1/16 cycle, R91; reset 0
  chkLock : Bool            -- LAN_LN_PRBS_CTRL.chk_lock, R107; reset 0
  chkLost : Bool            -- LAN_LN_PRBS_CTRL.chk_lost, R107; reset 0
  injOne : Bool             -- one PRBS symbol of a near-end loop is to be flipped, R108 R109; reset 0
  frameSeen : Nat           -- core cycle of the last frame marker found, R93; reset 0
  txPart : Data             -- brick bytes sent that do not yet fill a data block, R83; under 32 bytes; reset none
  txBlocks : List Nat       -- blocks of the codeword being sent, R81; 257 bits each, under 20 of them; reset none
  scr : Nat                 -- the scrambler's last 58 bits sent, R82; 58 bits; reset 0
  corrupt : List (Nat × Nat) -- symbols to corrupt in the next codeword and what is added to each, R108; reset none
  genReg : Nat              -- the last 31 bits of the PRBS generator, R93 R107; 31 bits; reset 1
  injAt : Nat               -- the symbol at which rate injection last flipped one or began, R108; reset 0
  chkReg : Nat              -- the last 31 bits of the PRBS checker, R107; 31 bits; reset 0
  chkRun : Nat              -- symbols predicted correctly in succession, R107; reset 0
  chkWin : List Bool        -- which of the last 256 symbols were wrong, the latest first, R107; reset none
  rxPart : Data             -- bytes received that do not yet fill a brick, R83; under 72 bytes; reset none
  rxHole : Bool             -- some of those bytes were lost in an uncorrectable codeword, R83; reset 0
  rxItems : List RxItem     -- bricks received on this lane and not yet merged, R83 R92; reset none
deriving DecidableEq, Repr

/-- The physical layer of a port (LAN_PT_STATUS, LAN_PT_FAR). -/
structure PortPhy where
  testRefused : Bool        -- LAN_PT_STATUS.test_refused, R106; reset 0
  skewErr : Bool            -- LAN_PT_STATUS.skew_err, R91; reset 0
  farMismatch : Bool        -- LAN_PT_STATUS.far_mismatch, R92; reset 0
  txMask : Nat              -- LAN_PT_STATUS.tx_mask, R101; 2 bits; reset 0
  rxMask : Nat              -- LAN_PT_STATUS.rx_mask, R101; 2 bits; reset 0
  farSleep : Nat            -- LAN_PT_STATUS.far_sleep_mask, R104; 2 bits; reset 0
  skew : Nat                -- LAN_PT_STATUS.skew, R91; 12 bits; reset 0
  farValid : Bool           -- LAN_PT_FAR.valid; reset 0
  farPort : Nat             -- LAN_PT_FAR.far_port; 6 bits; reset 0
  farDevice : Nat           -- LAN_PT_FAR.far_device; 20 bits; reset 0
  farAccept : Nat           -- rx_accept of the latest far marker, R101; 2 bits; reset 0
  farTx : Nat               -- tx_mask of the latest far marker, R102 R104; 2 bits; reset 0
  stripe : Nat              -- lane index the next brick of this marker period goes to, R83; 1 bit; reset 0
  rxTurn : Nat              -- lane index the next brick received in this marker period comes from, R83; 1 bit; reset 0
  period : Nat              -- tx_mask of the marker period whose bricks are being merged, R102; 2 bits; reset 0
deriving DecidableEq, Repr

/-- The lanes and ports (spec/03). -/
structure Phy where
  lanes : Tbl Lane          -- lanes L0-L127
  ports : Tbl PortPhy       -- ports FP0-FP63
  pllLost : List Nat        -- lane PLLs (die × 4 + j) out of lock, R86; reset none
  beats : Nat               -- core cycles since STRAP was entered, which no step of the course counter moves, R46 R81; reset 0
deriving DecidableEq, Repr
/-- The link states of R137. -/
inductive LinkSt where
  | down | init | up | hold | fencing
deriving DecidableEq, Repr

/-- A sequenced brick kept in the replay buffer (R124): its number, type and body. -/
structure TxBrick where
  seq : LinkSeq
  type : Nat
  body : Data
deriving DecidableEq, Repr

/-- One link engine (spec/04). -/
structure Lnk where
  st : LinkSt               -- LNK_STATUS.state, R137; 3 bits; reset DOWN
  reach : Bool              -- LNK_STATUS.reach_exceeded, R135; reset 0
  farChanged : Bool         -- LNK_STATUS.far_changed, R143; reset 0
  downCause : Nat           -- LNK_STATUS.down_cause; 3 bits; reset 0
  farPoolOff : Bool         -- LNK_STATUS.far_pool_off, R130; reset 0
  poolOff : Bool            -- LNK_STATUS.pool_off, R134; reset 0
  nakOut : Bool             -- LNK_STATUS.nak_outstanding, R127; reset 0
  nakDue : Bool             -- a NAK is to be sent in the next slot, R127; reset 0
  replaying : Bool          -- LNK_STATUS.replaying, R129; reset 0
  resumed : Bool            -- LNK_STATUS.resumed, R144; reset 0
  rtt : Nat                 -- LNK_RTT.rtt, R142; 20 bits; reset 0
  acked : LinkSeq           -- LNK_TX_SEQ.acked, R123; 14 bits; reset 0x3FFF
  next : LinkSeq            -- LNK_TX_SEQ.next, R123; 14 bits; reset 0
  expected : LinkSeq        -- LNK_RX_SEQ.expected, R126; 14 bits; reset 0
  replayAt : LinkSeq        -- the replay point, R129; 14 bits; reset 0
  replayRun : Nat           -- replay_run, R129; reset 0
  timerFrom : Option Nat    -- the core cycle the replay timer was last started at, R128; reset none (not running)
  replay : List TxBrick     -- the replay buffer, oldest first, R124; 2,048 bricks of 72 bytes; reset empty
  poolUsed : Nat            -- shared-pool slots in use, R133; reset 0 (pool_free 6,144)
  poolCut : Nat             -- pool slots out of service for self-test or retirement, R481 R485; reset 0
  used : List Nat           -- used[v], reserve slots in use of each VC, R133; 8 × 8 bits; reset 0
  returned : List Nat       -- returned[v] this receiver sends, R133; 8 × 16 bits; reset 0
  sentReturned : List Nat   -- returned[v] as last sent in a CONTROL brick, R122; reset 0
  charged : List Nat        -- charged[v], R132; 8 × 16 bits; reset 0
  farReturned : List Nat    -- returned[v] last received, R132; 8 × 16 bits; reset 0
  slots : Nat               -- sequenced bricks sent since the last CONTROL brick, R122; reset 0
  moved : Bool              -- the link has left DOWN or UP in this course, R179; reset 0
  lastControl : Nat         -- the core cycle of the last CONTROL brick sent, R122; reset 0
  offDue : Bool             -- a pool_off change waits to be announced, R122; reset 0
  markDue : Bool            -- the course mark of this course is still to be sent, R122; reset 0
  kaCount : Nat             -- keep-alive count, R139; 8 bits; reset 0
  downAt : When             -- the time of entry to DOWN, R146 R53; reset 0
  waitHoldoff : Bool        -- the holdoff of R146 applies to this DOWN; reset 0
  waitPhy : Bool            -- no INIT until the PHY has gone down and up (far fenced), R137; reset 0
  initAt : When             -- the time of entry to INIT, R137 R53; reset 0
  initResume : Bool         -- resume value of the INIT being sent, R137; reset 0
  initHeard : Bool          -- an INIT has been received in this phase, R143; reset 0
  readySent : Nat           -- INIT with ready = 1 sent in this phase, R137; reset 0
  readyHeard : Option (Bool × Nat × Bool) -- the last INIT with ready = 1: resume, rx_last, rx_last_valid, R144; reset none
  farUsed : List Nat        -- used[v] of that INIT, R145; reset 0
  samples : Nat             -- rtt samples taken in this phase, R137 R142; reset 0
  probeTag : Nat            -- probe_tag of the next INIT, R142; 8 bits; reset 0
  probes : Tbl Nat          -- send time of the INITs sent, by probe_tag, R142; reset none
  echo : Option (Nat × Nat) -- probe_tag of the last INIT received and its arrival time, R142; reset none
  rxAny : Bool              -- a sequenced brick has been accepted since the last entry to UP, R143; reset 0
  txCredit : Bool           -- the packet going out was started in credit form, R130; reset 0
  txPkt : Bool              -- a packet is partway out on this link, R116; reset 0
deriving DecidableEq, Repr

/-- A packet in an input buffer (R116, R117): the bricks that arrived and have not left, and what is known of it. -/
structure InPkt where
  id : Nat                  -- serial of the packet at its input (the model's own)
  len : Nat                 -- L of its routing header, 1-65
  vc : Nat                  -- VC of its header
  ovc : Nat                 -- VC it leaves on, R173
  got : Nat                 -- bricks arrived
  left_ : Nat               -- bricks that have left for the mortar
  forms : List Bool         -- for each brick still held, whether it is in credit form
  head : Data               -- the routing header's brick, as routers have changed it
  rest : List Data          -- the other bricks that have arrived and not left, oldest first
  dest : Option Nat         -- the output chosen: port 0-63 or 64 + hub; none before routing
  drop : Bool               -- discarded: what is still to arrive is freed as it arrives
  abort_ : Option Nat       -- ended by abort with this reason, R119
  since : Nat               -- the core cycle of its arrival
deriving DecidableEq, Repr
/-- Route stages, the congestion map and the ports' standing for routing (spec/05). -/
structure Rte where
  inq : Tbl (List InPkt)    -- input buffers: packets of inputs FP0-FP63 and 64 + hub (HB0-HB7), in arrival order, R14 R190; reset empty
  nextId : Nat              -- serial of the next packet to enter an input buffer (the model's own); reset 0
  map : Tbl Nat             -- congestion map: 32 levels of 2 bits for each device of the wall, key row × 16 + column, R166; reset level 3
  ownLevels : Nat           -- the levels of R163 of this course; 64 bits; reset level 3
  qMax : Tbl Nat            -- highest queue depth of each port seen in this course, R163; reset 0
  offSeen : List Nat        -- ports whose far receiver sent pool_off in this course, R163; reset none
  deadSeen : List Nat       -- ports that were not live at some time in this course, R163; reset none
  rows : Tbl Nat            -- CONG_ROW levels received in this course, by column, R166; reset none
  cols : Tbl (Nat × Nat)    -- CONG_COL received in this course, by row: 16 × 64-bit levels, present mask, R166; reset none
  colSent : Bool            -- CONG_COL has been sent in this course, R165; reset 0
  dead : List Nat           -- RTE_DEAD, R179; 64 bits; reset none
  downRun : Tbl Nat         -- consecutive courses DOWN of each port, R179; reset 0
  upRun : Tbl Nat           -- consecutive courses UP of each port, R179; reset 0
  lfsr : Tbl Nat            -- LFSR of each hub route stage, R169; 16 bits; reset 0 (seeded at entry to TRANSIT)
deriving DecidableEq, Repr

/-- The scheduler of one mortar output (R186-R191). -/
structure OutSt where
  deficit : List Nat        -- deficit counters of VC0-VC6 in bricks, R187; reset 0
  ptr : Nat                 -- the VC the pointer is at, R187; reset 0
  fresh : Bool              -- the quantum of this visit has been added, R187; reset 0
  rr : List Nat             -- per VC, the source last served, R189; reset HB7 (so that FP0 is next)
  cur : Option (Nat × Nat)  -- the packet that holds the output: input and serial, R190; reset none
  vc7 : List Nat            -- core cycles at which VC7 bricks were sent, newest first, within the window of R188; reset none
  vc7Wait : Bool            -- VC7 waits on its cap, R188; reset 0
deriving DecidableEq, Repr

/-- A packet that waits at an endpoint hub port to be injected (R194). -/
structure InjPkt where
  id : Nat                  -- its serial (the model's own)
  request : Bool            -- request class; responses and ACKs pass no gate, R194
  identity : Nat            -- master identity whose contract it is charged to, R195
  tc : Nat                  -- traffic class, R193
  pre : Nat                 -- colour requested, R198
  type : Nat                -- packet type, R289
  body : Data               -- its bytes from byte 16 on, not yet sealed
  bricks : Nat              -- length with its tag, R290
  hash : Nat                -- flow hash, R297
  ordered : Bool            -- R177
  extra : Nat               -- bricks of the responses a get causes, R196
  ctx : Nat                 -- key of its peer context, R203
  stream : Nat              -- its stream, R283; 2 for an ACK
  psn : Nat                 -- its PSN
  attempt : Nat             -- transmission number, R305
  queue : Nat               -- the send queue (or other origin) it stalls while it is held
  deferred : Option Nat     -- order of deferral when its meter deferred it, R199
  atShaper : Bool           -- held at its shaper, R197
  atWindow : Bool           -- held at the window gate, R203
  held : Bool               -- held for order, R306
  passed : Option Nat       -- the colour with which it has passed its gates and waits for the arbiter, R199
deriving DecidableEq, Repr

/-- A meter's buckets and colour byte counts (R198, R205). -/
structure Meter where
  tc : Int                  -- Tc, 32-bit signed; reset 0
  tp : Int                  -- Tp, 32-bit signed; reset 0
  green : Counter
  yellow : Counter
  red : Counter
deriving DecidableEq, Repr

/-- Arbitration, injection, meters and shapers (spec/06). -/
structure Sch where
  outs : Tbl OutSt          -- outputs FP0-FP63 and 64 + hub
  hubRx : Tbl (List (Data × Nat)) -- packets delivered at HB0-HB7 and the input they came from, oldest first; reset none
  inj : Tbl (List InjPkt)   -- packets waiting at HB0-HB5 for injection, oldest first, R194; reset none
  nextInj : Nat             -- serial of the next packet to wait for injection (the model's own); reset 0
  injDef : Tbl (List Nat)   -- deficits of TC0-TC3, pointer and quantum-added flag of each hub's injection arbiter, R194; reset 0
  deferCtr : Nat            -- order number of the next deferral, R199; reset 0
  retest : Bool             -- deferred packets wait for their test after this course's refill, R199; reset 0
  meters : Tbl Meter        -- 8,192 meters, R198
  shapers : Tbl Int         -- 4,096 shaper buckets, R197; 32-bit signed; reset 0
  badMeters : List Nat      -- meters disabled by an uncorrectable ECC error until a swap writes them, R207; reset none
  badShapers : List Nat     -- shapers disabled likewise, R207; reset none
  badMaps : List Nat        -- map entries that name neither meter nor shaper likewise, R207; reset none
deriving DecidableEq, Repr
/-- Who waits for a translation (R264), so that each takes the outcome of its own request: an operation of the transport, an
arriving packet, a message of the header store in its generation, an atomic, a translation command (queue and counter), a
member's chunk (tree, endpoint, sequence number, index; read or result), a management core's access (core and core address), or nobody any
more. -/
inductive Who where
  | op (i : Nat)
  | arr (ctx stream psn gen : Nat)
  | msg (i gen : Nat)
  | atomic (id : Nat)
  | entry (q : Nat) (ctr : RingCtr)
  | chunk (tree ep csn idx : Nat) (result : Bool)
  | core (c addr : Nat)
  | nobody
deriving DecidableEq, Repr

/-- What a request is for: an access, an XLT_LOCK walk (R277), or only the owner in its descriptor (R274). -/
inductive XUse where
  | access | lock | owner
deriving DecidableEq, Repr

/-- A translation request (R262, R265, R266): address space, input address, access code, identity, management core,
override, its use, and who made it. -/
structure XReq where
  as_ : Nat
  va : Nat
  acc : Nat
  identity : Nat
  mcore : Bool
  ovr : Bool
  use : XUse
  who : Who
deriving DecidableEq, Repr

/-- A translation fault (R278, R280). -/
structure XFault where
  kind : Nat
  stage : Nat
  level : Nat
  s1 : Nat
  addr : Nat
  cause : Nat
deriving DecidableEq, Repr

/-- A translation-cache entry (R267). Rights are the leaf's bits [8:2]; level 7 stands for no leaf of that stage. -/
structure TlbEnt where
  as_ : Nat
  page : Nat
  size : Nat
  out : Nat
  r1 : Nat
  lvl1 : Nat
  r2 : Nat
  lvl2 : Nat
  owner : Nat
  priv : Bool
  s2 : Bool
  fill : Course
  locked : Bool
deriving DecidableEq, Repr

/-- How a walk ended for the request it was made for or that waited for it: with a fault (R262), or, where more than the
caches must show it, well: an XLT_LOCK walk tells whether it took a lock slot (R277), an owner test that it passed (R274). -/
inductive WalkEnd where
  | fault (f : XFault)
  | done (slot : Bool)
deriving DecidableEq, Repr

/-- A walk-cache entry (R267): kind 0 descriptor, 1 stage-1 pointer, 2 stage-2 pointer. -/
structure WcEnt where
  kind : Nat
  as_ : Nat
  fn : Nat
  s2 : Bool
  lvl : Nat
  pfx : Nat
  val : Nat
  fill : Course
deriving DecidableEq, Repr

/-- What a walk has been given at one place: by a read that returned, or by the walk cache. A place is a stage, a level and the
stage-1 level being walked, packed by `walkPlace`: each occurs once in a walk (R262). -/
structure WalkVal where
  place : Nat
  val : Nat
  cached : Bool
deriving DecidableEq, Repr

/-- A walk in progress (R262): the request, what it has been given, and the place and host address of the read now out. -/
structure Walk where
  req : XReq
  reads : List WalkVal
  asked : Nat
  addr : Nat
deriving DecidableEq, Repr

/-- A translation unit (R253). -/
structure XUnit where
  tlb : List TlbEnt         -- translation cache, R267; 16,384 entries, 2,048 locked; reset empty
  wc : List WcEnt           -- walk cache, R267; 1,024 entries; reset empty
  walks : List Walk         -- walks in progress, R264; at most 32; reset none
  misses : List XReq        -- misses that wait for a walk, in arrival order, R264; reset none
  results : List (XReq × WalkEnd) -- how walks ended for requests that have not asked again, R262, R277; reset none
  asked : List XReq         -- requests looked up and not yet carried out, so that each counts one hit, R282; reset none
  log : Tbl Nat             -- the fault log, 64 records of 32 bytes, R280; reset 0
  logNext : Nat             -- XLT_UNIT_STATUS.log_next, R280; 6 bits; reset 0
  logSeq : Nat              -- record number, R280; 8 bits; reset 0
  unread : List Nat         -- log slots written and not read, R280; reset none
deriving DecidableEq, Repr
/-- Where a packet's payload comes from: nothing, bytes at hand, a host buffer (address space, address, length, identity,
override), or pieces that arrive one by one, by packet index. -/
inductive PaySrc where
  | none_ | bytes (d : Data) | host (as_ va len identity : Nat) (ovr : Bool) | chunks (l : List (Nat × Data))
deriving DecidableEq, Repr

/-- What an operation of the transport is part of, and so what finishing it means. -/
inductive OpOrigin where
  | entry (q : Nat) (ctr : RingCtr)      -- a work entry, R292
  | signal (q : Nat) (ctr : RingCtr) (len : Nat) -- the signal of a put-with-notify, R373
  | rts (rv gen : Nat)                   -- an RTS for a rendezvous entry, R352
  | skip                                 -- a SKIP, R355
  | rvGet (hdr gen : Nat)                -- an RV_GET of a header entry, R352
  | rvAbandon                            -- an RV_GET that gives a message up, R357
  | rvData (rv gen : Nat)                -- the RV_DATA responses of a pull, R352
  | getData (uid hp as_ va identity : Nat) (ovr : Bool) -- the responses of a GET and the reference they hold, R378
  | atomic (id : Nat)                    -- the response of an atomic or fabric-lock request, R377
  | reply                                -- any other response
  | flEntry (q : Nat) (ctr : RingCtr) (rec : Nat) | flPoll (rec : Nat) | flAbandon (rec : Nat) -- fabric locks, R399 R400 R403
  | brgWrite (id : Nat) | brgRead (slot : Nat) | brgPrefetch (id : Nat) -- the window bridge, R446 R452
deriving DecidableEq, Repr

/-- An operation (R292), or the responses owed to a peer's request. -/
structure Op where
  ctx : Nat                 -- key of its peer context
  stream : Nat              -- 0 request, 1 response
  origin : OpOrigin
  srcEp : Nat
  dstEp : Nat
  opcode : Nat              -- wire opcode, R291
  opLen : Nat
  fields : Nat              -- op_fields, bytes 19-31 of the transport header, R290
  pay : PaySrc
  dest : PaySrc             -- local destination of a get or an atomic's result
  total : Nat               -- packets
  next : Nat                -- index of the next packet to send
  sent : List (Nat × Nat)   -- PSN and gen of the packets sent, R293
  resp : Nat                -- responses required, R292
  got : Nat                 -- responses accepted
  ackedAt : Option When     -- when its last request was acknowledged, R323 R53
  rnr : Nat                 -- receiver-not-ready refusals, R308
  sq : Option Nat           -- the send queue that issued it, where its origin does not name it, R193 R199
  rnrAt : Option When       -- the time of the last such refusal, while a resend is awaited, R308 R53
  hash : Nat                -- flow hash of the operation, R297
  ordered : Bool            -- R177
  identity : Nat            -- contract it is charged to, R195
  tc : Nat                  -- traffic class, R193
  pre : Nat                 -- colour requested, R198
  extra : Nat               -- bricks of the responses it causes, R196
  privileged : Bool         -- issued through LCK_FL_CMD, so that it also runs in TRANSIT, R403
  done : Option Res         -- finished, R292
deriving DecidableEq, Repr

/-- A packet sent and not acknowledged (R303). -/
structure TxPkt where
  psn : Nat
  op : Nat                  -- its operation
  attempt : Nat             -- 3 bits, R305
  ordered : Bool
  sent : Option Nat         -- the core cycle at which it last entered the mortar
  waiting : Bool            -- a transmission waits at its hub port
  bricks : Nat
  sacked : Bool
  early : Bool              -- the transmission that waits was called for by R304: it does not restart the timer
  marked : Bool             -- to be retransmitted in order, R306
  th : Nat                  -- transport header, 32 bytes, R290
  payload : Data
  hash : Nat
  identity : Nat            -- whose contract it is charged to, R195; kept, like the next four, as a packet can outlive its operation
  tc : Nat                  -- its traffic class, R193
  pre : Nat                 -- the colour it was given, R198
  extra : Nat               -- bricks charged beyond its own, R196
  queue : Nat               -- the send queue that it stalls while deferred, R199
deriving DecidableEq, Repr

/-- The send side of a stream (R288). -/
structure StreamTx where
  next : Psn
  acked : Psn
  serialSeen : Serial
  backoff : Nat
  timer : Option Nat        -- the core cycle the retransmit timer was started at, R303
  pkts : List TxPkt         -- unacknowledged packets, in PSN order
  ordMark : Option Nat      -- ord_psn of the acknowledgement that marked packets for retransmission in order, R306
deriving DecidableEq, Repr

/-- A refused operation whose packets do not take consecutive PSNs (R307): its header without what differs from packet to
packet, the indices and PSNs seen, when it was refused, the highest PSN it can have, and whether that grows no more. -/
structure RefOp where
  key : Nat
  seen : List (Nat × Nat)
  since : Course
  top : Nat
  shut : Bool
deriving DecidableEq, Repr

/-- The receive side of a stream (R288, R301). -/
structure StreamRx where
  expected : Psn
  sack : Nat                -- 256 bits
  serial : Serial
  count : Nat               -- packets accepted since the last ACK, R301
  firstAt : Option Nat      -- the core cycle of the first acceptance since the last ACK, R301
  lastAck : Option Nat      -- the core cycle of the last ACK, R301
  waiting : Bool            -- an ACK waits for the 64-cycle interval, R301
  ordNak : Option Nat       -- the first ordered PSN discarded since the last ACK, R306
  refused : List Nat        -- base PSNs of operations already refused, R307
  refusedOps : List RefOp   -- puts of several packets already refused, R307
deriving DecidableEq, Repr

/-- A cached peer context (R288). -/
structure Ctx where
  epoch : Nat               -- 32 bits
  state : Nat               -- send direction: 0 ACTIVE, 1 ROLLING, 2 ERROR
  errDetail : Nat           -- 8 bits
  errCourse : Course
  rxSynced : Bool
  txGen : BitVec 32
  rxGen : BitVec 32
  tx : List StreamTx        -- request stream, response stream
  rx : List StreamRx
  markedSeen : Nat          -- 16 bits, R302
  markedTotal : Nat         -- 16 bits, R299
  cwnd : Nat                -- R203; 16 bits
  alpha : Nat               -- R203; 16 bits
  winAcked : Nat            -- R203; 16 bits
  winMarked : Nat           -- R203; 16 bits
  ordValid : Bool           -- R306
  ordTag : Nat              -- R306; 1 bit
  ordWall : Nat             -- R306; 10 bits
  hash : Nat                -- the context's fixed flow hash; 12 bits
  dirty : Bool              -- differs from its record, R310
  noWrite : Bool            -- its record is not to be written back (uncorrectable ECC), R328
  inbound : Bool            -- loaded for an inbound packet, R310
deriving DecidableEq, Repr

/-- A domain slot in use (R284). -/
structure Slot where
  domain : Nat
  epoch : Nat
  key : Nat
  encrypt : Bool
  hpMask : Nat
  vfOk : Bool
deriving DecidableEq, Repr

/-- An enabled context region (R286). -/
structure Region where
  k : Nat
  base : Nat
deriving DecidableEq, Repr

/-- A packet that has passed step 8 of R298 and waits for its engine. -/
structure Arr where
  ctx : Nat
  stream : Nat
  psn : Nat
  gen : Nat
  hdr : Nat                 -- routing header
  th : Nat                  -- transport header
  payload : Data
deriving DecidableEq, Repr

/-- The transport (spec/09). -/
structure Trn where
  slots : Tbl Slot          -- keyed domain slots, R284; 1,024; reset none
  slotEnd : Tbl When        -- when the last endpoint of a slot was destroyed, R319; reset none
  regions : Tbl Region      -- enabled regions, key host port × 1,024 + slot, R286; reset none
  cleared : Tbl When        -- the time of a region's clear, R318; reset none
  stale : Tbl Nat           -- stale epoch of a host port and slot, R319; reset none
  ctxs : Tbl Ctx            -- cached contexts, key (host port × 1,024 + slot) × 2^22 + remote, R310; 65,536; reset none
  loads : List (Nat × Bool) -- record reads that are out, and whether an inbound packet caused them, R286; reset none
  loadErr : List Nat        -- contexts whose record read failed and whose inbound packet is to be discarded, R311; reset none
  resetDue : Option Nat     -- a CTX_RESET that waits for its context's record, R325; reset none
  ops : Tbl Op              -- operations and responses by number (the model's own); reset none
  nextOp : Nat              -- number of the next operation (the model's own); reset 0
  accepted : List Arr       -- accepted packets on their way to their engines, oldest first; reset none
deriving DecidableEq, Repr
/-- A cached order record (R330): its number, the host address of its 16 bytes, and whether it differs from them. -/
structure OrderRec where
  msn : Psn
  addr : Nat
  dirty : Bool
deriving DecidableEq, Repr

/-- A posted receive (R343, R344). -/
structure Posted where
  source : Nat
  anySource : Bool
  context : Nat
  tag : Nat
  ignore : Nat
  buf : Nat
  len : Nat
  user : Nat
  ovr : Bool                -- user_override of the work entry, R266
  slot : Option Nat         -- pool index, for an overflow entry
deriving DecidableEq, Repr

/-- The states of R346. -/
inductive HdrSt where
  | reorder | refused | skipped | unexpected | claimed | assembling
deriving DecidableEq, Repr

/-- The receive a message has been paired with (R350). -/
structure Recv where
  buf : Nat
  len : Nat
  user : Nat
  op : Nat
  ovr : Bool
deriving DecidableEq, Repr

/-- Bytes of a message that wait for a translation (R340, R350): landed at an address; copied out of landing from one address to
another; put in the receive buffer, as the second half of a copy or directly. -/
inductive Pend where
  | land (va : Nat) (d : Data)
  | copy (src va : Nat) (d : Data)
  | put (copied : Bool) (va : Nat) (d : Data)
deriving DecidableEq, Repr

/-- A header entry (R346). -/
structure MHdr where
  ep : Nat
  st : HdrSt
  source : Nat
  context : Nat
  msn : Nat
  tag : Nat
  len : Nat
  rndv : Bool
  base : Nat                -- base PSN, R336
  count : Nat               -- bytes counted, R350
  landing : Option (Nat × Nat × Nat) -- landing buffer, offset in it, bytes reserved
  pieces : List (Nat × Data) -- landed bytes not yet copied out: offset in the message, data
  pend : List Pend          -- bytes that wait for a translation, oldest first, R350
  dataSeen : Bool           -- an RV_DATA of the pull has been accepted, R352
  rvId : Nat
  recv : Option Recv
  placed : Nat              -- bytes written to the buffer
  fault : Option (Nat × Nat) -- a failure to report when the message completes: status, detail, R356
  ctx : Nat                 -- the peer context it came by
  seq : Nat                 -- order in which it was matched (the model's own)
deriving DecidableEq, Repr

/-- A landing buffer (R347). -/
structure Landing where
  ep : Nat
  addr : Nat
  len : Nat
  user : Nat
  fill : Nat
  passed : Bool
  held : Nat                -- messages landed in it and not copied out or freed
  ovr : Bool                -- user_override of its entry, R266
deriving DecidableEq, Repr

/-- A rendezvous entry (R352). -/
structure Rv where
  gen : Nat                 -- 17 bits
  q : Nat
  ctr : RingCtr
  as_ : Nat
  va : Nat
  len : Nat
  ovr : Bool
  identity : Nat
  heldFrom : Option When    -- when its RTS was acknowledged, R356 R53
  pulled : Nat              -- op_len of the pull
  ctx : Nat
  srcEp : Nat
  dst : Nat
  context : Nat
  msn : Nat
deriving DecidableEq, Repr

/-- A SKIP owed (R355). -/
structure Skip where
  ctx : Nat
  srcEp : Nat
  dst : Nat
  context : Nat
  msn : Nat
deriving DecidableEq, Repr

/-- The matching engine (spec/10). -/
structure Mch where
  orders : Tbl OrderRec     -- cached order records, key ((endpoint × 2 + dir) × 2^38 + peer) × 2^16 + context, R332; 65,536; reset none
  orderReads : List Nat     -- keys whose bucket is being read, R332; reset none
  orderBad : Tbl Nat        -- keys whose lookup failed: 2 bucket full, 4 + cause for a bus error, R331 R332; reset none
  posted : Tbl (List Posted) -- posted receives on chip by endpoint, in posting order, R343; 262,144; reset none
  chain : Tbl (List Posted)  -- overflow lists by endpoint, R344; reset none
  ovfReads : List (Nat × Nat) -- overflow records being read: endpoint, host port × 2^32 + index, R344; reset none
  ovfSeen : List (Nat × Nat) -- overflow records read in the search under way: host port × 2^32 + index, record, R344; reset none
  ovfBad : List Nat         -- endpoints whose overflow walk failed, R344; reset none
  lanes : Tbl Nat           -- the match operation whose walk an endpoint's lane is in: 1 an arrival, 2 a release, 3 + queue a
                            -- cancel, R342; reset none
  hdrs : Tbl MHdr           -- header store, R346; 65,536; reset empty
  gens : Tbl Nat            -- generation of each header entry, R346; 16 bits; reset 0
  seq : Nat                 -- next match order number (the model's own); reset 0
  landings : Tbl Landing    -- landing buffers, in posting order of their numbers, R347; 65,536; reset none
  nextLb : Nat              -- number of the next landing buffer (the model's own); reset 0
  rvs : Tbl Rv              -- rendezvous entries, R352; 32,768; reset none
  rvGens : Tbl Nat          -- generation of each rendezvous entry, R335; 17 bits; reset 0
  cancels : List (Nat × RingCtr × Nat) -- cancels whose receive completion is not yet written: send queue, entry, its CQ, R345; reset none
  skips : List Skip         -- SKIPs owed, oldest first, R355; reset none
deriving DecidableEq, Repr
/-- A cached region descriptor (R362, R382): its 32 bytes, and the number of the copy, by which references name it. -/
structure Desc where
  raw : Nat
  uid : Nat                 -- number × 2^24 + key index
  bad : Bool                -- uncorrectable ECC while pinned: later packets are refused with 0x040E, R386
deriving DecidableEq, Repr

/-- How far an atomic has come (R374-R376). -/
inductive AtomicSt where
  | queued | reading | ready (old : Nat) (tries : Nat) | host (expect : Nat) (tries : Nat)
deriving DecidableEq, Repr

/-- An admitted atomic (R374). -/
structure Atomic where
  id : Nat
  acc : Arr
  uid : Nat                 -- the descriptor copy it holds
  hostAtomic : Bool         -- host_atomic of the region when it was admitted, R376
  va : Nat
  req : XReq                -- its translation request, under the identity that owned the region when it was admitted, R24 R371
  pa : Nat                  -- its translated address, once in progress
  st : AtomicSt
deriving DecidableEq, Repr

/-- What the device knows of a key that is not FREE (R361, R381): state 1 REGISTERED, 2 REVOKING, 3 QUARANTINED. -/
structure KeySt where
  state : Nat
  ep : Nat
  revoked : Course
  by_ : Option (Nat × RingCtr) -- the KEY_REVOKE entry to complete
deriving DecidableEq, Repr

/-- The remote memory engine (spec/11). -/
structure Rma where
  descs : Tbl Desc          -- descriptor cache by key index, R382; 32,768; reset empty
  nextUid : Nat             -- number of the next cached copy (the model's own); reset 0
  refs : Tbl Nat            -- references held on each copy, R378; reset 0
  reads : List Nat          -- key indices whose descriptor is being read, R370; reset none
  bad : Tbl Nat             -- key indices whose descriptor read failed, with the cause of R279, R370; reset none
  keys : Tbl KeySt          -- descriptors that are not FREE, by key index, R361; reset none
  atomics : List Atomic     -- atomics in arrival order, R374; 256 in progress; reset none
  nextId : Nat              -- number of the next atomic (the model's own); reset 0
  results : Tbl Nat         -- the result store: old values by atomic, R377; reset none
  dataReads : List (Bool × Nat × Nat × Nat) -- target data reads out: a GET's operation and packet index, or an atomic; host port; R370 R275; reset none
  tabEnd : List Nat         -- host ports reset whose RMA_KEYTAB and MCH_OVF return to reset once their keys are revoked, R529 R381; reset none
  invs : List (Nat × RingCtr × Nat × List Nat) -- KEY_INV under way: queue, counter, copies removed, copies waited for, R383; reset none
deriving DecidableEq, Repr

/-- A lock cell (R387). -/
structure Cell where
  owner : Nat               -- 12 bits; reset 0xFFF
  abandoned : Bool          -- reset 0
  waiters : List (Nat × Nat) -- identity and priority, in order of registration; reset none
  signalled : Nat           -- one above the highest waiting priority signalled to this owner, 0 for none, R392; reset 0
  ents : List (Nat × Nat × RingCtr) -- CELL_OP entries that wait: identity, queue, counter, R401; reset none
deriving DecidableEq, Repr

/-- How a fabric lock's requests leave: traffic class (R193), colour (R198), and the send queue whose class and order they have (R199);
a command's requests have none. -/
structure FlWay where
  tc : Nat
  pre : Nat
  sq : Option Nat
deriving DecidableEq, Repr

/-- A held-lock record (R399). -/
structure FlRec where
  identity : Nat
  ep : Nat                  -- source endpoint
  owner : Nat               -- its function, whose contract is charged
  slot : Nat                -- its domain slot, so that the record outlives the endpoint, R400
  target : Nat
  key : Nat
  offset : Nat
  ticket : Nat
  d : Nat
  holding : Bool
  known : Bool              -- the ticket is known: TAKE has been answered
  pollOut : Bool            -- a poll is outstanding
  lastPoll : When           -- when the latest poll was sent, R399 R53
  viaCmd : Bool             -- made by LCK_FL_CMD, R404
  way : FlWay               -- of the entry that made it, R193 R198 R199
  wait : Option (Nat × RingCtr) -- the entry that waits for the grant
  reset_ : Bool             -- its identity has been reset, R400
deriving DecidableEq, Repr

/-- Locks (spec/12). -/
structure Lck where
  cells : Tbl Cell          -- 1,024 lock cells, R387
  recs : Tbl FlRec          -- held-lock records, R399; 4,096; reset none
  cmdBy : Nat               -- identity of the writer of the last LCK_FL_CMD command, R403; 12 bits; reset 0
deriving DecidableEq, Repr
/-- A window entry as it stood when an access was accepted (R442, R443). -/
structure Win where
  key : Nat
  offset : Nat
  targetEp : Nat
  target : Nat
  enable : Bool
  acked : Bool
  prefetch : Bool
  ordered : Bool
  err : Bool
deriving DecidableEq, Repr

/-- One put of an accepted window write (R446). -/
structure BWrite where
  fn : Nat
  win : Nat
  w : Win
  ep : Nat                  -- source endpoint of BRG_FN_CFG at acceptance
  tc : Nat
  off : Nat                 -- remote offset
  data : Data
  op : Option Nat           -- its put, once sent
deriving DecidableEq, Repr

/-- An accepted read that holds a read slot (R449). -/
structure BRead where
  fn : Nat
  win : Nat
  w : Win
  ep : Nat
  tc : Nat
  tag : Nat
  addr : Nat                -- aperture offset
  len : Nat
  at_ : When                -- time of acceptance, R450 R53
  op : Option Nat           -- its GET, once sent
  serial : Nat              -- its place in acceptance order
  failed : Bool             -- its acknowledged window had err = 1 while it waited, R448
deriving DecidableEq, Repr

/-- An entry of the prefetch store (R453). -/
structure PfEnt where
  fn : Nat
  win : Nat
  off : Nat                 -- remote offset
  len : Nat
  op : Nat                  -- its GET
  data : Option (Data × Nat) -- its bytes and the core cycle of their arrival
  dead : Bool               -- invalidated while its GET is out
  at_ : When                -- when its GET began, R454 R53
deriving DecidableEq, Repr

/-- The window bridge (spec/14). -/
structure Brg where
  serial : Nat              -- accesses accepted (the model's own); reset 0
  writes : Tbl BWrite       -- puts accepted and not finished, by serial, R446; reset none
  reads : List (Nat × BRead) -- read slots held: host port and read, R449; 768 for each host port; reset none
  pf : Tbl PfEnt            -- prefetch store entries, by serial; 64 for each host port, R453; reset none
  errAt : Tbl Nat           -- core cycle in which a window (function × 64 + window) last had its err bit set, R448; reset none
deriving DecidableEq, Repr
/-- What all inputs of a chunk agree on (R416 step 6). -/
structure ColHdr where
  op : Nat
  func : Nat
  dtype : Nat
  mode : Nat
  s : Nat
  count : Nat
deriving DecidableEq, Repr

/-- One input of a chunk, or the fold of several: payload, flags, contributions, data_present (R415). -/
structure ColIn where
  data : Data
  flags : Nat
  contrib : Nat
  present : Bool
deriving DecidableEq, Repr

/-- The slot states of R423 other than FREE. FORWARD is two: the result is in the kept slot and nothing has been sent while an earlier chunk
of the tree is still in FORWARD; and sent, with the local members still to be written. -/
inductive ColSt where
  | gather | ready | downwait | held | forward (todo : List Nat)
deriving DecidableEq, Repr

/-- A chunk that is open at this device (R423). -/
structure ColChunk where
  tree : Nat
  gen : Nat
  csn : Nat
  idx : Nat
  set : Nat
  h : ColHdr
  st : ColSt
  folded : List Nat         -- inputs in the accumulator: port, or 64 + endpoint
  stored : List (Nat × ColIn) -- inputs in further slots
  acc : ColIn
deriving DecidableEq, Repr

/-- A member record (R412). -/
structure ColMember where
  nextCsn : Nat             -- 24 bits
  pos : Nat                 -- stream position of the next chunk it gives, R421
deriving DecidableEq, Repr

/-- An accepted COL_OP (R417, R419). -/
structure ColOp where
  q : Nat
  ctr : RingCtr
  ep : Nat
  tree : Nat
  set : Nat
  gen : Nat
  csn : Nat
  h : ColHdr
  source : Bool
  want : Bool
  src : Nat
  res : Nat
  ovr : Bool
  next : Nat                -- index of the next chunk to be read
  bytes : Nat               -- result bytes written
  flags : Nat
  contrib : Nat             -- contributors of the root's result
  fault : Option (Nat × Nat) -- detail and address of a write fault, or 2^16 + cause of a bus error
deriving DecidableEq, Repr

/-- What the device keeps of a tree (COL_TREE_STATE, R421, R437). -/
structure ColTree where
  error : Bool              -- COL_TREE_STATE.state is ERROR; reset 0
  reason : Nat              -- 16 bits; reset 0
  course : Course           -- 48 bits; reset 0
  origin : Nat              -- 20 bits; reset 0
  low : Nat                 -- low_csn, 24 bits; reset 0
  lowPos : Nat              -- stream position of chunk 0 of low_csn; reset 0
  fwd : Nat                 -- chunks forwarded down or produced, R421; reset 0
  sendCsn : Nat             -- the next chunk to be sent up or produced, R421; reset 0
  sendIdx : Nat
  seen : Nat                -- one above the highest csn seen, R437; reset 0
  resume : Option (Nat × Course) -- a RESUME that waits for its course; reset none
deriving DecidableEq, Repr

/-- Collectives (spec/13). -/
structure Col where
  trees : Tbl ColTree       -- by tree identifier, R407
  members : Tbl ColMember   -- member records, key tree × 65,536 + endpoint, R412; 8,192; reset none
  ops : List ColOp          -- accepted COL_OPs that have not finished, in order of acceptance; reset none
  chunks : List ColChunk    -- open chunks and their slots, R423; reset none
  opens : Tbl When          -- time of the first input of each open operation, key tree × 2^24 + csn, R434; reset none
  keys : Tbl Nat            -- tree keys, key set × 4,096 + tree, R433; 256 bits; reset 0
  badTrees : List Nat       -- trees whose entry store failed, until a swap rewrites the entry, R440; reset none
deriving DecidableEq, Repr

/-- An MCTP packet in a lintel egress queue, or on the bus (R458). -/
structure LtlSend where
  phys : Nat
  d : Data
  tries : Nat
deriving DecidableEq, Repr

/-- The lintel (spec/14). -/
structure Ltl where
  egress : Tbl (List LtlSend) -- egress queue of ports 0-7, oldest first, at most 32, R458; reset empty
  sbRun : List Nat          -- consecutive samples of each side-band signal that differ from its reported level, R459; reset 0
  sbCourse : Option Course  -- the course of the latest side-band sample, R459; reset none
  records : List Data       -- lintel records delivered over the management plane and not yet sent on, R457; reset empty
  bad : List Nat            -- EIDs whose route entry failed ECC and has not been rewritten, R462; reset empty
deriving DecidableEq, Repr

/-- The result of a unit's test, as readback table 0x19 shows it (R483, R512). -/
structure BstResult where
  sig : Nat
  gold : Nat
  code : Nat
  course : Course
deriving DecidableEq, Repr

/-- Self-test slices (spec/15); BST_STATUS, BST_LOG, BST_SIG and BST_REPAIR are register words. -/
structure Bst where
  began : Option When       -- when the slot of the slice began, or RUN was accepted, R479; reset none
  byRun : Bool              -- the slice was started by BST_CMD RUN, R480; reset 0
  inDrain : Bool            -- it was started in DRAIN, R480; reset 0
  enabled : Bool            -- BST_CFG.enable was 1 when it started, R479; reset 0
  retested : Bool           -- a soft repair has been made in this slice, R484; reset 0
  slot : Option Nat         -- the last slot (course / 4096) that was begun, R477; reset none
  tested : List Nat         -- schedule entries tested in this sweep, R480; reset empty
  retry : List Nat          -- schedule entries that wait for an idle slot, R480; reset empty
  retried : List Nat        -- schedule entries that have had their retry in this sweep, R480; reset empty
  fuses : Tbl Nat           -- repair records that FUSE has made permanent, their two words; outlives OFF, R487 R529; 64 bits each; reset none beyond those the fuses held
  results : Tbl BstResult   -- results by entry × 2 + sweep (0 current, 1 previous), R483; reset none
  lost : List (Nat × Nat)   -- cache and input-buffer banks that stay out without a repair record, class and unit, R485 R487; reset none
  placed : Tbl Nat          -- banks of cached entries that were filled while Config.bankOfEntry's was out, by cache × 2^80 + key, R481; reset none
  misr : Nat                -- the MISR, R483; 64 bits; reset 0
deriving DecidableEq, Repr

/-- A fabric fetch of the firmware image through one boot link (R493). -/
structure Fetch where
  got : Data                -- image bytes received so far, in ascending order
  sends : Nat               -- unanswered sends of the outstanding request
  sentAt : Nat              -- local cycle of the latest send
  tag : Nat                 -- tag of the outstanding request
  full : Bool               -- all of the image has arrived
  retryAt : Option Nat      -- local cycle after which a failed fetch starts again, R496
deriving DecidableEq, Repr

/-- A management packet delivered locally, and the port it arrived on (R500). -/
structure MgIn where
  d : Data
  port : Nat
deriving DecidableEq, Repr

/-- A request mailbox beside its registers (R505). -/
structure Mailbox where
  tag : Nat                 -- tag of the latest request; 16 bits
  sent : When               -- time of the latest send
  resends : Nat             -- resends made
  op : Nat                  -- 1 MG_READ, 2 MG_WRITE; 0 while nothing is outstanding
  data : Data               -- the packet that was sent, for a resend
deriving DecidableEq, Repr

/-- The Imauno monitor (spec/16). -/
structure Mon where
  unlocked : Bool           -- unlocked, R517; reset 0
  lastLine : When           -- time of the latest received line, R518; reset 0
  challenge : Option (Nat × When) -- the open challenge and when it was printed, R517; reset none
  fails : Nat               -- consecutive failed responses, R517; reset 0
  lockout : Option When     -- start of the time in which unlock is refused, R517; reset none
  baud : Nat                -- baud rate, R514; reset 115,200
deriving DecidableEq, Repr

/-- Bring-up, management plane and monitor (spec/16). -/
structure Mgt where
  bootCycle : Nat           -- core cycles since the link engines of the boot links started, in STRAP, R493; reset 0
  goPend : Bool             -- a go has been taken whose first read is still to be issued, R492; reset 0
  goAt : Nat                -- the core cycle at which it was taken, R492; reset 0
  rbkEnd : Tbl Nat          -- capture buffers and the core cycle at which the last capture ends, R510; reset none
  hostGot : Data            -- image bytes the boot mailbox fetch has read, R492; reset empty
  fetch : Tbl Fetch         -- fabric fetches by port (62, 63), R493; reset none
  image : Data              -- the accepted image, in management-core SRAM, R494; reset empty
  sram : Data               -- the other 2 MiB of that SRAM, R18: what the cores' programs keep there; no row reads or writes it; reset 0 (the spec gives none)
  inq : List MgIn           -- packets delivered at this device and not yet acted on, R500, oldest first; reset empty
  answered : List (Nat × Data) -- the register agent's last 256 answered requests: key (origin, src_ep, tag) and response, R503; reset empty
  boxes : Tbl Mailbox       -- mailboxes 0-7, R505; reset idle with tag 0
  mon : Mon
deriving DecidableEq, Repr
/-- The machine. -/
structure State where
  mode : Mode               -- GLB_MODE.mode, R26; 3 bits; reset STRAP (0x1)
  glb : Glb
  crs : Crs
  regs : Tbl Word           -- BAR0 register words that hold a value of their own, by BAR0 offset (R521); 32 bits each; reset as Machine/RegMap.lean lists
  sets : Tbl Word           -- the words of SH registers in sets 0 and 1, key set × 2^26 + BAR0 offset (R70); 32 bits each; reset as Machine/RegMap.lean lists
  ctrs : Tbl Counter        -- the 64-bit counters, by BAR0 offset (R13); reset 0
  latches : Tbl (Nat × Word) -- high-half latches by requester: tag (BAR0 offset) and value, R12; reset none
  srcs : Tbl Src            -- event sources by global number, R463 R527
  banks : Tbl Bank          -- fault banks by block code, R463
  phy : Phy
  lnk : Tbl Lnk             -- link engines FP0-FP63
  rte : Rte
  sch : Sch
  hif : Hif
  trn : Trn
  mch : Mch
  rma : Rma
  lck : Lck
  brg : Brg
  col : Col
  ltl : Ltl
  bst : Bst
  mgt : Mgt
  xlt : Tbl XUnit           -- translation units 0-3, R253
  out : List Out            -- what the device has done to the outside, oldest first (the model's own); reset empty
  free : Nat                -- free values drawn so far (the model's own); reset 0
  pending : List Instr      -- commands that wait, first in, first out (the model's own); reset empty
deriving DecidableEq, Repr

/-- R58 and the registers' tables: values at reset. -/
def Glb.reset : Glb :=
  { prevMode := 0, cause := 0, reqErr := false, refusedMode := 0, reqPending := false, requester := 0xFFF, target := 0,
    reqCourse := 0, reqOld := none, lock := false, fencePend := none, fenceAsk := 0, fenceFrom := 0, fenceTxOff := false, strapBoot := 0, strapHpmode := false,
    strapTimeroot := false, ballBoot := 0, ballHpmode := false, ballTimeroot := false, resetN := true, railCore := true,
    railLane := true, railIo := true, trip := false, temps := [], gpioPins := 0, gpioIn := 0,
    tap := .idcode, perstN := [false, false, false, false], hpStatus := [] }
def Crs.reset : Crs :=
  { course := 0, cycle := 0, ball := false, multiRoot := false, lost := false, stepped := false, stepDone := false, aligned := false,
    globalDepth := 3, localDepth := 3, deep := false, parent := none, rootValid := false, rootRank := 3, rootId := 0,
    follow := none, phaseErr := 0, phase := 0, avgSum := 0, avgCount := 0, errCourse := none, goodRun := 0, badRun := 0, rxMarks := [],
    txMarks := [], stepFrom := 0, stepTo := 0, armErr := false, errCode := 0, armed := false, copyBusy := false,
    copyFrom := 0, copies := 0, active := 0, epoch := 0, busyEnd := none }
def Bank.reset : Bank :=
  { cause := none, count := 0, thresh := [0, 0x04000010, 0x00400004, 0x00010001], act := false, miss := false, object := 0, freed := none }
def Lane.reset : Lane :=
  { st := .disabled, sig := false, frameLock := false, frameRun := 0, frameMiss := 0, rxReady := false, farRxReady := false,
    readySent := 0, readyRcvd := 0, snrRun := 0, txData := false, fecLock := false, uncorrRun := 0, markerLock := false,
    markerMiss := 0, farIndex := 0, attempts := 0, snr := 0, txFail := false, taps := ⟨0, 56, -8, 0, 0⟩, tapStatus := 0,
    farReq := 0, actedReq := 0, reqFrom := 0, ownReq := 0, farTapStatus := 0, frameAt := ⟨0, 0⟩, markerFrom := 0, txCount := 0, txBip := 0, rxBip := 0,
    markBip := none, markSeen := false, markNew := false, rxCw := 0, descr := 0, earlyCourse := none, marker := none, markerAt := 0, chkLock := false, chkLost := false,
    injOne := false, frameSeen := 0, txPart := ⟨0, 0⟩, txBlocks := [], scr := 0, corrupt := [], genReg := 1, injAt := 0,
    chkReg := 0, chkRun := 0, chkWin := [], rxPart := ⟨0, 0⟩, rxHole := false, rxItems := [] }
def PortPhy.reset : PortPhy :=
  { testRefused := false, skewErr := false, farMismatch := false, txMask := 0, rxMask := 0, farSleep := 0, skew := 0,
    farValid := false, farPort := 0, farDevice := 0, farAccept := 0, farTx := 0, stripe := 0, rxTurn := 0, period := 0 }
def zeros (n : Nat) : List Nat := List.replicate n 0
def Lnk.reset : Lnk :=
  { st := .down, reach := false, farChanged := false, downCause := 0, farPoolOff := false, poolOff := false, nakOut := false,
    nakDue := false, replaying := false, resumed := false, rtt := 0, acked := 0x3FFF, next := 0, expected := 0, replayAt := 0,
    replayRun := 0, timerFrom := none, replay := [], poolUsed := 0, poolCut := 0, used := zeros 8, returned := zeros 8,
    sentReturned := zeros 8, charged := zeros 8, farReturned := zeros 8, slots := 0, moved := false, lastControl := 0, offDue := false, markDue := false,
    kaCount := 0, downAt := ⟨0, 0⟩, waitHoldoff := false, waitPhy := false, initAt := ⟨0, 0⟩, initResume := false,
    initHeard := false, readySent := 0, readyHeard := none, farUsed := zeros 8, samples := 0, probeTag := 0, probes := [],
    echo := none, rxAny := false, txCredit := false, txPkt := false }
def Rte.reset : Rte :=
  { inq := [], nextId := 0, map := [], ownLevels := 0xFFFFFFFFFFFFFFFF, qMax := [], offSeen := [], deadSeen := [], rows := [],
    cols := [], colSent := false, dead := [], downRun := [], upRun := [], lfsr := [] }
def OutSt.reset : OutSt :=
  { deficit := zeros 7, ptr := 0, fresh := false, rr := List.replicate 8 71, cur := none, vc7 := [], vc7Wait := false }
def Meter.reset : Meter := { tc := 0, tp := 0, green := 0, yellow := 0, red := 0 }
def Sch.reset : Sch :=
  { outs := [], hubRx := [], inj := [], injDef := [], nextInj := 0, deferCtr := 0, retest := false, meters := [], shapers := [],
    badMeters := [], badShapers := [], badMaps := [] }
def Fn.reset : Fn :=
  { exists_ := false, flrBusy := false, cfgRefused := false, cmdOverrun := false, busy := false, op := 0, args := [],
    status := 0, detail := 0 }
def Hif.reset : Hif :=
  { fns := [], sqs := [], cqs := [], eqs := [], eps := [], quar := [], msix := [], pba := [], fetchTurn := 0 }

def XUnit.reset : XUnit :=
  { tlb := [], wc := [], walks := [], misses := [], results := [], asked := [], log := [], logNext := 0, logSeq := 0, unread := [] }

def Trn.reset : Trn :=
  { slots := [], slotEnd := [], regions := [], cleared := [], stale := [], ctxs := [], loads := [], loadErr := [], resetDue := none, ops := [],
    nextOp := 0, accepted := [] }
def Mch.reset : Mch :=
  { orders := [], orderReads := [], orderBad := [], posted := [], chain := [], ovfReads := [], ovfSeen := [], ovfBad := [], lanes := [], hdrs := [], gens := [],
    seq := 0, landings := [], nextLb := 0, rvs := [], rvGens := [], cancels := [], skips := [] }
def Rma.reset : Rma :=
  { descs := [], nextUid := 0, refs := [], reads := [], bad := [], keys := [], atomics := [], nextId := 0, results := [],
    dataReads := [], tabEnd := [], invs := [] }
def ColTree.reset : ColTree :=
  { error := false, reason := 0, course := 0, origin := 0, low := 0, lowPos := 0, fwd := 0, sendCsn := 0, sendIdx := 0, seen := 0,
    resume := none }
def Col.reset : Col := { trees := [], members := [], ops := [], chunks := [], opens := [], keys := [], badTrees := [] }
def Cell.reset : Cell := { owner := 0xFFF, abandoned := false, waiters := [], signalled := 0, ents := [] }

def Ltl.reset : Ltl := { egress := [], sbRun := zeros 12, sbCourse := none, records := [], bad := [] }
def Bst.reset : Bst :=
  { began := none, byRun := false, inDrain := false, enabled := false, retested := false, slot := none, tested := [], retry := [],
    retried := [], fuses := [], results := [], lost := [], placed := [], misr := 0 }
def Mon.reset : Mon := { unlocked := false, lastLine := ⟨0, 0⟩, challenge := none, fails := 0, lockout := none, baud := 115200 }
def Mailbox.reset : Mailbox := { tag := 0, sent := ⟨0, 0⟩, resends := 0, op := 0, data := ⟨0, 0⟩ }
def Mgt.reset : Mgt :=
  { bootCycle := 0, goPend := false, goAt := 0, rbkEnd := [], hostGot := ⟨0, 0⟩, fetch := [], image := ⟨0, 0⟩, sram := ⟨2097152, 0⟩, inq := [], answered := [], boxes := [], mon := Mon.reset }

/-- The machine right after reset: STRAP has just been entered (R29, R529). -/
def State.reset : State :=
  { mode := .strap, glb := Glb.reset, crs := Crs.reset, regs := [], sets := [], ctrs := [], latches := [], srcs := [],
    banks := [], phy := ⟨[], [], [], 0⟩, lnk := [], rte := Rte.reset, sch := Sch.reset, hif := Hif.reset, xlt := [], trn := Trn.reset,
    mch := Mch.reset, rma := Rma.reset, lck := ⟨[], [], 0⟩, brg := ⟨0, [], [], [], []⟩, col := Col.reset, ltl := Ltl.reset, bst := Bst.reset, mgt := Mgt.reset, out := [],
    free := 0, pending := [] }

end Sys2Proof.Machine
end

