-- ==== Sys2Proof/Machine/Table.lean ====
section
/-! DEFINITION. Operations over sparse tables, and the canonical form they keep. -/
namespace Sys2Proof.Machine

/-- The value listed for a key, if any. -/
def Tbl.find? {α : Type} : Tbl α → Nat → Option α
  | [], _ => none
  | (k, v) :: t, a => if k = a then some v else Tbl.find? t a

/-- The value of a key; `d` gives what an unlisted key reads as. -/
def Tbl.get {α : Type} (d : Nat → α) (t : Tbl α) (a : Nat) : α := (Tbl.find? t a).getD (d a)

/-- List a value for a key, keeping the keys rising. -/
def Tbl.ins {α : Type} : Tbl α → Nat → α → Tbl α
  | [], a, v => [(a, v)]
  | (k, w) :: t, a, v =>
    if a < k then (a, v) :: (k, w) :: t
    else if k = a then (a, v) :: t
    else (k, w) :: Tbl.ins t a v

/-- Unlist a key. -/
def Tbl.del {α : Type} (t : Tbl α) (a : Nat) : Tbl α := t.filter (fun e => e.1 != a)

/-- Set a key of a table whose unlisted keys read as `d`: the reset value is not listed. -/
def Tbl.put {α : Type} [DecidableEq α] (d : Nat → α) (t : Tbl α) (a : Nat) (v : α) : Tbl α :=
  if v = d a then Tbl.del t a else Tbl.ins t a v

/-- Set or clear a key of a table of present objects. -/
def Tbl.upd {α : Type} (t : Tbl α) (a : Nat) : Option α → Tbl α
  | none => Tbl.del t a
  | some v => Tbl.ins t a v

/-- The keys of a table. -/
def Tbl.keys {α : Type} (t : Tbl α) : List Nat := t.map Prod.fst

/-- Keep the entries a test allows. -/
def Tbl.keep {α : Type} (p : Nat → α → Bool) (t : Tbl α) : Tbl α := t.filter (fun e => p e.1 e.2)

/-- The canonical form: keys strictly rising, no entry equal to what an unlisted key reads as. -/
abbrev Tbl.wf {α : Type} (d : Nat → α) (t : Tbl α) : Prop :=
  t.Pairwise (fun a b => a.1 < b.1) ∧ ∀ e ∈ t, e.2 ≠ d e.1

/-- A set of numbers as a strictly rising list: member added. -/
def setAdd : List Nat → Nat → List Nat
  | [], a => [a]
  | k :: t, a => if a < k then a :: k :: t else if k = a then k :: t else k :: setAdd t a

/-- A set of numbers: member removed. -/
def setDel (t : List Nat) (a : Nat) : List Nat := t.filter (fun k => k != a)

/-- Replace the element at a place of a list. -/
def listSet {α : Type} (l : List α) (i : Nat) (v : α) : List α := l.set i v

end Sys2Proof.Machine
end

