-- ==== Sys2Proof/Machine/Ops.lean ====
section
/-! DEFINITION. The named operations over the state: register words and fields, counters, time, outputs, free values,
event rings and interrupts, and the latching of events in the fault banks (spec/07, spec/15). -/
namespace Sys2Proof.Machine

/-! ### The register file -/

/-- The index numbers and the word of a register an offset lies in, if it lies in it. -/
def RegDef.locate (d : RegDef) (off : Nat) : Option (Nat × Nat × Nat) :=
  if off < d.base then none
  else
    let o := off - d.base
    let i := o / d.s1
    let o1 := o % d.s1
    let j := o1 / d.s2
    let w := o1 % d.s2 / 4
    if i < d.n1 ∧ j < d.n2 ∧ w < d.words then some (i, j, w) else none

/-- The first register of a list that an offset lies in. -/
def locateIn : List RegDef → Nat → Option (RegDef × Nat × Nat × Nat)
  | [], _ => none
  | d :: t, off =>
    match d.locate off with
    | some (i, j, w) => some (d, i, j, w)
    | none => locateIn t off

/-- The block an offset lies in (R521). -/
def blockOf (off : Nat) : Option BlkDef := blocks.find? (fun b => b.base ≤ off && off ≤ b.top)

/-- The register an offset lies in (R521), the readback window included. -/
def locate (off : Nat) : Option (RegDef × Nat × Nat × Nat) :=
  match blockOf off with
  | some b => locateIn b.regs off
  | none => locateIn regsRBK off

/-- The word the field tables give at reset. -/
def RegDef.resetWord (d : RegDef) (w : Nat) : Nat :=
  d.fields.foldl (fun acc f => if f.word = w then acc + f.rst <<< f.lsb else acc) 0

/-- The reset value of a word at a BAR0 offset: the field tables', and the values that depend on the index (R150,
SCH_VC_CFG, MGT_MG, HIF_FN_STATUS.identity). -/
def resetWord (off : Nat) : Word :=
  match locate off with
  | none => 0
  | some (d, i, _, w) =>
    let base := d.resetWord w
    match d.id with
    | .RTE_PORT_ROLE => BitVec.ofNat 32 (base + (if i < 15 then 1 else if i < 30 then 2 else if i < 62 then 3 else 4))
    | .SCH_VC_CFG => BitVec.ofNat 32 (if 3 ≤ i && i ≤ 5 then 260 else 130)
    | _ => BitVec.ofNat 32 base

/-- Key of a shadowed word: set, BAR0 offset. -/
def setKey (set off : Nat) : Nat := (set % 2) * 2 ^ 26 + off

/-- What an unlisted word of a set reads as: the register's reset value, in both sets (spec/17, "Reset values"). -/
def resetSet (key : Nat) : Word := resetWord (key % 2 ^ 26)

/-- A register word. -/
def State.word (s : State) (off : Nat) : Nat := (Tbl.get resetWord s.regs off).toNat
/-- Set a register word. -/
def State.setWord (s : State) (off v : Nat) : State := { s with regs := Tbl.put resetWord s.regs off (BitVec.ofNat 32 v) }
/-- A field of a register. -/
def State.g (s : State) (f : Fld) : Nat := bits (s.word f.off) f.lsb f.w
/-- Set a field of a register. -/
def State.put (s : State) (f : Fld) (v : Nat) : State := s.setWord f.off (setBits (s.word f.off) f.lsb f.w v)
/-- A word of a configuration set. -/
def State.setW (s : State) (set off : Nat) : Nat := (Tbl.get resetSet s.sets (setKey set off)).toNat
/-- Write a word of a configuration set. -/
def State.putSetW (s : State) (set off v : Nat) : State :=
  { s with sets := Tbl.put resetSet s.sets (setKey set off) (BitVec.ofNat 32 v) }
/-- A field of a register of a configuration set. -/
def State.gs (s : State) (set : Nat) (f : Fld) : Nat := bits (s.setW set f.off) f.lsb f.w
/-- A field of the active set. -/
def State.ga (s : State) (f : Fld) : Nat := s.gs s.crs.active f

/-- A counter (R13). -/
def State.ctr (s : State) (off : Nat) : Counter := Tbl.get (fun _ => 0) s.ctrs off
/-- Add to a counter, wrapping at 64 bits (R13). -/
def State.bumpBy (s : State) (off n : Nat) : State :=
  { s with ctrs := Tbl.put (fun _ => 0) s.ctrs off (s.ctr off + BitVec.ofNat 64 n) }
/-- Count one. -/
def State.bump (s : State) (off : Nat) : State := s.bumpBy off 1
/-- Count one if a condition holds. -/
def State.bumpIf (s : State) (b : Bool) (off : Nat) : State := if b then s.bump off else s
/-- An access counted in GLB_BAD_ACCESS_COUNT also raises GLB local source 4 where Machine/Ops `raise` is called. -/
def badAccessSource : Nat := 4

/-! ### Time, outputs, free values -/

/-- The current course. -/
def State.course (s : State) : Nat := s.crs.course.toNat
/-- Global time in the format of R48. -/
def State.now (s : State) : Nat := s.course * 65536 + s.crs.cycle
/-- Core cycles since STRAP was entered: what counts cycles or UI counts these, which no step of the course counter moves (R61). -/
def State.cycles (s : State) : Nat := s.phy.beats
/-- The same in 1/16 cycle (R91, R142). -/
def State.ticks (s : State) : Nat := s.cycles * 16
/-- A number of core cycles pass. -/
def State.pass (s : State) (n : Nat) : State := { s with phy := { s.phy with beats := s.phy.beats + n } }
/-- LIFE in courses (R162). -/
def State.life (s : State) : Nat := s.g Reg.RTE_LIFE.life
/-- Courses from an earlier course to now, in the 48-bit space (R40). -/
def State.since (s : State) (c : Course) : Nat := (s.crs.course - c).toNat
/-- The present core cycle, as a timer notes its start (R53). -/
def State.nowAt (s : State) : When := ⟨s.crs.course, s.crs.cycle⟩
/-- R53: whole courses that have passed since a noted cycle: a timer of c courses has expired when c of them have. -/
def State.over (s : State) (w : When) : Nat := s.since w.course - (if s.crs.cycle < w.cycle then 1 else 0)
/-- R53: a noted cycle lies ahead. -/
def State.ahead (s : State) (w : When) : Bool :=
  decide (s.since w.course ≥ 2 ^ 47) || (s.crs.course == w.course && decide (s.crs.cycle < w.cycle))
/-- R48, R51: set global time; COURSE_MARK is high in the first 64 cycles of a course. -/
def State.setTime (s : State) (course : Course) (cycle : Nat) : State :=
  { s with crs := { s.crs with course := course, cycle := cycle, ball := decide (cycle < 64) } }
/-- The own device identifier (R20). -/
def State.me (s : State) : Nat := s.g Reg.GLB_DEVICE_ID.device_id
/-- The identifier is valid (R21). -/
def State.meValid (s : State) : Bool := s.me < 2 ^ 18
/-- Record an output. -/
def State.emit (s : State) (o : Out) : State := { s with out := s.out ++ [o] }
/-- Draw a free value. -/
def State.draw (s : State) : Nat × State := (Config.freeValue s.free, { s with free := s.free + 1 })

/-- Modes in which a condition may be tested. -/
def Mode.code : Mode → Nat
  | .off => 0 | .strap => 1 | .monitor => 2 | .train => 3 | .transit => 4 | .service => 5 | .drain => 6 | .fenced => 7
/-- A mode from its code. -/
def Mode.ofCode : Nat → Mode
  | 1 => .strap | 2 => .monitor | 3 => .train | 4 => .transit | 5 => .service | 6 => .drain | 7 => .fenced | _ => .off
/-- TRANSIT, SERVICE or DRAIN: the modes of R68. -/
def State.live (s : State) : Bool := s.mode == .transit || s.mode == .service || s.mode == .drain
/-- Modes that count courses (R50, R37): MONITOR onward. -/
def State.counting (s : State) : Bool := s.mode != .off && s.mode != .strap

/-- The host ports that exist in this configuration (R23). -/
def State.hpPresent (s : State) (h : Nat) : Bool := h < 4 && (s.glb.strapHpmode || h == 0 || h == 2)
/-- The host port of a function identity (R24). -/
def hpOf (identity : Nat) : Nat := identity / 256
/-- Identity of a PF. -/
def isPf (identity : Nat) : Bool := identity < 1024 && identity % 256 == 0
/-! ### Host memory -/

/-- The bytes a view holds from an address on, or the first error met (R279). -/
def HostView.read (v : HostView) (addr len : Nat) : ReadResult :=
  match v.bad.find? (fun e => addr / 64 * 64 ≤ e.1 && e.1 < addr + len) with
  | some e => .error e.2
  | none =>
    let first := addr / 8
    let n := (addr + len + 7) / 8 - first
    let w := (List.range n).foldl (fun acc i => acc + (Tbl.get (fun _ => 0) v.words ((first + i) * 8) % 2 ^ 64) <<< (64 * i)) 0
    .data (Data.ofNat len (w >>> (8 * (addr % 8))))

/-- The device masters its host buses (R35, R37). -/
def State.mastering (s : State) : Bool := s.mode != .fenced && s.mode != .off
/-- R37: the bus-mastering row beyond events: completions, and the accesses that inbound requests to local endpoints make, go to host
memory in SERVICE and DRAIN only; what is left of them waits until the device serves again (notes/assumptions/99). -/
def State.serving (s : State) : Bool := s.mode == .service || s.mode == .drain
/-- A posted write to host memory (R220). -/
def State.hostWrite (s : State) (hp requester addr : Nat) (d : Data) : State :=
  if s.mastering then s.emit (.hostWrite hp requester addr d) else s
/-- A memory read request; a command brings its data back. -/
def State.hostRead (s : State) (hp requester addr len : Nat) : State :=
  if s.mastering then s.emit (.hostRead hp requester addr len) else s

/-! ### Interrupts (R247, R248) -/

/-- Key of an MSI-X vector. -/
def vecKey (identity vector : Nat) : Nat := identity * 1024 + vector
/-- What an unwritten MSI-X table word reads as: 0, and vector control 1 (masked), as PCI Express resets it. -/
def msixReset (k : Nat) : Nat := if k % 4 = 3 then 1 else 0
/-- Vectors in a function's table (R247). -/
def vectors (identity : Nat) : Nat := if isPf identity then 1024 else 4

/-- Send a vector, or set its pending bit while it is masked (R248). -/
def State.msixSend (s : State) (identity vector : Nat) : State :=
  if Tbl.get msixReset s.hif.msix (vecKey identity vector * 4 + 3) % 2 = 1 then
    { s with hif := { s.hif with pba := setAdd s.hif.pba (vecKey identity vector) } }
  else if s.mastering then (s.emit (.msix identity vector)).bump Ctr.HIF_MSIX_COUNT else s

/-! ### Event rings (R219, R243-R246, R248) -/

/-- R507: a management core runs; MC0 always does. -/
def State.coreRuns (s : State) (c : Nat) : Bool := c == 0 || bit (s.g Reg.MGT_MC_CTRL.run) (c - 1)

/-- Key of a device ring. -/
def devRing (d : Nat) : Nat := 0x1000 + d
/-- The ring is full (R217). -/
def ringFull (prod cons : RingCtr) (n : Nat) : Bool := (prod - cons).toNat ≥ 2 ^ n
/-- The phase bit of the entry at a counter (R219). -/
def phaseBit (prod start : RingCtr) (n : Nat) : Nat := 1 - bits (prod - start).toNat n 1
/-- Set an event ring. -/
def State.setEq (s : State) (r : Nat) (e : Eq) : State := { s with hif := { s.hif with eqs := Tbl.ins s.hif.eqs r e } }

/-- Write one event entry at the producer, and send the vector if the ring is armed (R219, R220, R248). -/
def State.eqPut (s : State) (r : Nat) (entry : Nat) : State :=
  match Tbl.find? s.hif.eqs r with
  | none => s
  | some e =>
    let a := e.base + 16 * (e.prod.toNat % 2 ^ e.n)
    let w := setBits entry 127 1 (phaseBit e.prod e.start e.n)
    let s1 := (s.hostWrite (hpOf e.owner) e.owner a ⟨16, w⟩).bumpIf s.mastering Ctr.HIF_EVENT_COUNT
    let s2 := s1.setEq r { e with prod := e.prod + 1, armed := false }
    if e.armed then s2.msixSend e.owner e.vector else s2

/-- Give an event to its ring: written, held on chip while the ring is full, or lost (R246). -/
def State.eqPost (s : State) (r : Nat) (entry : Nat) : State :=
  match Tbl.find? s.hif.eqs r with
  | none => s.bump Ctr.HIF_EVENT_LOST_COUNT
  | some e =>
    if e.lost = 0 && e.held.isEmpty && !ringFull e.prod e.cons e.n then s.eqPut r entry
    else if e.held.length < 4 && (e.lost = 0 || !ringFull e.prod e.cons e.n) then
      s.setEq r { e with held := e.held ++ [entry] }
    else (s.setEq r { e with lost := e.lost + 1 }).bump Ctr.HIF_EVENT_LOST_COUNT

/-- Write held events while the ring has room (R246). -/
def State.eqDrain (s : State) (r : Nat) : Nat → State
  | 0 => s
  | k + 1 =>
    match Tbl.find? s.hif.eqs r with
    | some e =>
      match e.held with
      | h :: t =>
        if e.lost = 0 && !ringFull e.prod e.cons e.n then
          ((s.setEq r { e with held := t }).eqPut r h).eqDrain r k
        else s
      | [] => s
    | none => s

/-- The 16-byte event entry of R245, without its phase. -/
def eventEntry (time source cond seq object detail : Nat) : Nat :=
  pack [(0, 64, time), (64, 12, source), (76, 4, cond), (80, 16, seq), (96, 24, object), (120, 7, detail)]

/-! ### Fault banks (R463-R476) -/

/-- Class digits of each block's local sources (the source tables of spec/03 to spec/17): 0 corrected, 1 contained, 2 fatal. -/
def srcClass (blk l : Nat) : Nat :=
  let at_ (xs : List Nat) (i : Nat) := xs.getD i 0
  match blk with
  | 1 => at_ [0, 0, 0, 2, 0, 0] l
  | 2 => at_ [2, 2, 0, 0, 0, 0, 0, 0] l
  | 3 => if l < 512 then at_ [0, 1, 1, 1] (l % 4) else 1
  | 4 => at_ [0, 0, 0, 0, 0, 1] (l % 6)
  | 5 => at_ [0, 0, 0, 0, 0, 1] l
  | 6 => at_ [0, 1, 1, 0, 2] l
  | 7 => at_ [1, 1, 0, 1, 0, 0, 0, 1, 2] l
  | 8 => at_ [0, 1, 0, 0, 1, 2] (l % 6)
  | 9 => at_ [0, 0, 0, 1, 1, 0, 1, 1, 2] l
  | 10 => at_ [0, 1, 1, 0, 1, 1, 2] l
  | 11 => at_ [0, 1, 1, 0, 1, 1, 2] l
  | 12 => at_ [0, 0, 0, 0, 0, 1, 1, 2] l
  | 13 => at_ [1, 1, 0, 1, 1, 1, 2] l
  | 14 => at_ [0, 0, 0, 2] l
  | 15 => at_ [0, 0, 1] l
  | 16 => at_ [0, 0, 0, 1, 2, 0, 1, 2] l
  | _ => at_ [0, 0, 0, 1, 0, 2] l

/-- Level sources (R527). -/
def srcLevel (blk l : Nat) : Bool :=
  match blk with
  | 1 => l == 2 || l == 3
  | 2 => l == 0
  | 3 => 512 ≤ l
  | 4 => l % 6 == 5
  | 9 => l == 2
  | _ => false

/-- ECC sources, which take threshold set 1 (R528). -/
def srcEcc (blk l : Nat) : Bool :=
  match blk with
  | 6 => l ≤ 2
  | 7 => 6 ≤ l
  | 8 => l % 6 == 2 || l % 6 == 3 || l % 6 == 4
  | 9 => 5 ≤ l && l ≤ 7
  | 10 => 3 ≤ l && l ≤ 5
  | 11 => 3 ≤ l && l ≤ 5
  | 12 => l == 5 || l == 6
  | 13 => 2 ≤ l && l ≤ 5
  | 14 => l == 2
  | 15 => l == 2
  | 16 => l == 6
  | 17 => l == 4 || l == 5
  | _ => false

/-- Sources whose event enable resets to 0 (R528). -/
def srcQuiet (blk l : Nat) : Bool :=
  match blk with
  | 1 => l == 4 || l == 5
  | 3 => l < 512 && l % 4 == 0
  | 4 => l % 6 ≤ 1
  | 5 => l ≤ 4
  | 6 => l == 3
  | 10 => l == 0
  | 11 => l == 0
  | 12 => l == 4
  | 17 => l == 0
  | _ => false

/-- The block a global source number lies in, and its local number; none for a reserved number (R527). -/
def srcBlock (g : Nat) : Option (BlkDef × Nat) :=
  match blocks.find? (fun b => b.first ≤ g && g < b.first + b.count) with
  | some b => some (b, g - b.first)
  | none => none

/-- A source at reset (R528). -/
def Src.reset (g : Nat) : Src :=
  match srcBlock g with
  | some (b, l) =>
    { status := false, real := false, force := false, recReal := false, recForced := false,
      eventEn := !srcQuiet b.code l,
      tset := if srcClass b.code l = 2 then 3 else if srcEcc b.code l then 1 else 0,
      cnt := 0, start := 0, seq := 0, pend := false, due := false, evAt := none, clrAt := none }
  | none =>
    { status := false, real := false, force := false, recReal := false, recForced := false, eventEn := false, tset := 0,
      cnt := 0, start := 0, seq := 0, pend := false, due := false, evAt := none, clrAt := none }

/-- A source's state. -/
def State.src (s : State) (g : Nat) : Src := Tbl.get Src.reset s.srcs g
/-- Set a source's state. -/
def State.setSrc (s : State) (g : Nat) (v : Src) : State := { s with srcs := Tbl.put Src.reset s.srcs g v }
/-- A block's bank. -/
def State.bank (s : State) (code : Nat) : Bank := Tbl.get (fun _ => Bank.reset) s.banks code
/-- Set a block's bank. -/
def State.setBank (s : State) (code : Nat) (b : Bank) : State :=
  { s with banks := Tbl.put (fun _ => Bank.reset) s.banks code b }

/-- Sources of a class 0x1 unit by the cache it is a bank of (R474). -/
def cacheSources (c : Nat) : List (Nat × Nat) :=
  if c < 8 then [(8, c % 4 * 6 + 2), (8, c % 4 * 6 + 3)]
  else if c = 8 then [(9, 5), (9, 6)]
  else if c = 9 then [(11, 3), (11, 4)]
  else [(10, 3), (10, 4)]
/-- Sources of a class 0x2 unit by what its bank holds (R474; Config.tableKind). -/
def tableSources (k : Nat) : List (Nat × Nat) :=
  match k with
  | 0 => [(6, 0), (6, 1), (6, 2)]
  | 1 => [(8, 4)]
  | 2 => [(8, 10)]
  | 3 => [(8, 16)]
  | 4 => [(8, 22)]
  | 5 => [(9, 7)]
  | 6 => [(13, 4), (13, 5)]
  | 7 => [(15, 2)]
  | _ => []
/-- Sources of a class 0x3 unit by what its bank holds (R474; Config.stateKind). -/
def stateSources (k : Nat) : List (Nat × Nat) :=
  match k with
  | 0 => [(7, 6), (7, 7), (7, 8)]
  | 1 => [(10, 3), (10, 4), (10, 5)]
  | 2 => [(11, 5)]
  | 3 => [(12, 5), (12, 6)]
  | 4 => [(14, 2)]
  | _ => []
/-- Sources of the unit in a slice, as (block, local) pairs (R474). What a bank of classes 0x1 to 0x3 holds is Config's. -/
def sliceSources (cls unit : Nat) : List (Nat × Nat) :=
  match cls with
  | 1 => cacheSources (Config.cacheOfBank unit)
  | 2 => tableSources (Config.tableKind unit)
  | 3 => stateSources (Config.stateKind unit)
  | 4 => [(4, unit / 6 * 6 + 1), (4, unit / 6 * 6 + 2)]
  | 5 => [(10, 6)]
  | 6 => [(6, 4)]
  | 7 => [(13, 2), (13, 3), (13, 6)]
  | _ => []

/-- The unit that is out of service for a slice, as BST_STATUS shows it: class and unit, when the phase is TEST or later. -/
def State.sliceOut (s : State) : Option (Nat × Nat) :=
  if s.g Reg.BST_STATUS.phase ≥ 2 then some (s.g Reg.BST_STATUS.cls, s.g Reg.BST_STATUS.unit) else none

/-- A source is in counting mode (R473). -/
def State.counts (s : State) (code l : Nat) : Bool :=
  s.mode == .strap || s.mode == .train || s.mode == .drain ||
  (match s.sliceOut with
   | some (c, u) => (sliceSources c u).contains (code, l)
   | none => false)

/-- Ask for entry into FENCED with a cause (R27, R29, R472); an entry already asked for keeps its cause. -/
def State.askFence (s : State) (cause : Nat) : State :=
  if s.mode = .fenced ∨ s.mode = .off then s
  else if s.glb.fencePend.isSome then s
  else { s with glb := { s.glb with fencePend := some cause, fenceAsk := s.crs.course } }

/-- The ring of an event: the owning function's, or the device ring HIF_EVT_ROUTE names (R243). -/
def State.ringFor (s : State) (g : Nat) : Option Nat → Nat
  | some f => f
  | none => devRing (s.g (Reg.HIF_EVT_ROUTE.ring g))

/-- R465 step 3, R467, R468: FLT_CAUSE and FLT_COUNT at a latching event `c` of core cycle `now`. A cause that was released in this very
cycle by clearing the source's status is back; of the events that meet a free cause in one cycle the lowest source, then the lowest
condition code, keeps it; every other event counts. -/
def Bank.take (b : Bank) (now : Nat) (c : FltCause) : Bank :=
  match b.freed.filter (fun f => f.1 == now && f.2.source == c.source) with
  | some f => { b with cause := some f.2, freed := none, count := b.count + (if b.cause.isSome then 2 else 1) }
  | none =>
    match b.cause with
    | none => { b with cause := some c }
    | some o =>
      let lower := decide (c.source < o.source) || (c.source == o.source && decide (c.condition < o.condition))
      { b with cause := some (if o.beat = now ∧ lower then c else o), count := b.count + 1 }

/-- Status, record, cause or count, and the event of a latching event (R465 steps 1 to 4); `mute` where the event is written by
other means. Record bits that were cleared in this very cycle are back (R467). -/
def State.latchEvent (s : State) (g cond obj : Nat) (owner : Option Nat) (detail : Nat) (forced severe : Bool) (mute : Bool := false) : State :=
  match srcBlock g with
  | none => s
  | some (b, l) =>
    let x := s.src g
    let back := (x.clrAt.filter (fun c => c.1 == s.cycles)).elim (false, false) (fun c => c.2)
    let x1 := { x with status := true, recForced := x.recForced || forced || back.2,
                       recReal := x.recReal || (x.force && !forced && !severe) || back.1, seq := x.seq + 1, evAt := some (s.cycles, forced) }
    let c : FltCause := { forced := forced, severe := severe, cls := srcClass b.code l, condition := cond, source := g,
                          object := obj % 2 ^ 24, time := s.now, beat := s.cycles }
    let s1 := (s.setSrc g x1).setBank b.code ((s.bank b.code).take s.cycles c)
    if x.eventEn && !mute then s1.eqPost (s.ringFor g owner) (eventEntry s.now g cond x.seq.toNat obj detail) else s1

/-- The counting rule of R475: the new count and window start, and whether the source turns severe. -/
def countRule (n w : Nat) (x : Src) (now : Course) : Src × Bool :=
  if n = 0 then (x, false)
  else
    let x1 := if x.cnt = 0 ∨ (now - x.start).toNat ≥ max w 1 then { x with start := now, cnt := 0 } else x
    ({ x1 with cnt := x1.cnt + 1 }, x1.cnt + 1 ≥ n)

/-- R472, R475: a fatal source fences the device outside counting mode; the thermal trip and the loss of the reference always do. -/
def State.fenceOn (s : State) (g : Nat) : State :=
  match srcBlock g with
  | none => s
  | some (b, l) =>
    if srcClass b.code l = 2 ∧ (¬ s.counts b.code l ∨ g = 3 ∨ g = 16) then s.askFence (if g = 3 then 3 else 2) else s

/-- The consequence of a latching event for the device: fencing, and in counting mode the counting rule, which every latching event of
any class advances (R472, R475, R476). -/
def State.latchConsequence (s : State) (g obj : Nat) (owner : Option Nat) (effective : Bool) : State :=
  match srcBlock g with
  | none => s
  | some (b, l) =>
    let s1 := if effective then s.fenceOn g else s
    if s.counts b.code l then
      let t := (s.bank b.code).thresh.getD (s.src g).tset 0
      let r := countRule (bits t 0 16) (bits t 16 16) (s1.src g) s.crs.course
      let s2 := s1.setSrc g r.1
      if r.2 then (s2.latchEvent g 0xF obj owner 0 false true).askFence 4 else s2
    else s1

/-- R470: a real detection and a forced event of one source meet in this cycle. -/
def State.meets (s : State) (g : Nat) (forced : Bool) : Bool := (s.src g).evAt == some (s.cycles, !forced)
/-- R470: the two form one latching event that counts as real: both record bits are set, and the cause it latched is not forced. -/
def State.mergeEvent (s : State) (g : Nat) : State :=
  match srcBlock g with
  | none => s
  | some (b, _) =>
    let bk := s.bank b.code
    let c := bk.cause.map (fun c => if c.source = g ∧ c.beat = s.cycles then { c with forced := false } else c)
    (s.setSrc g { s.src g with recReal := true, recForced := true, evAt := some (s.cycles, false) }).setBank b.code { bk with cause := c }

/-- A latching event whole (R465). `forced` events act on the device only while FLT_INJECT.act = 1 (R471). One that meets its
counterpart in the same cycle joins it, and the consequence is that of the real one (R470). -/
def State.latch (s : State) (g cond obj : Nat) (owner : Option Nat) (detail : Nat) (forced : Bool) (mute : Bool := false) : State :=
  let act := match srcBlock g with | some (b, _) => (s.bank b.code).act | none => false
  if s.meets g forced then (if forced then s.mergeEvent g else (s.mergeEvent g).fenceOn g)
  else (s.latchEvent g cond obj owner detail forced false mute).latchConsequence g obj owner (!forced || act)

/-- A real detection of a pulse source. -/
def State.raise (s : State) (g cond obj : Nat) (owner : Option Nat := none) (detail : Nat := 0) : State :=
  s.latch g cond obj owner detail false

/-- A real detection whose event the caller writes itself, whatever the source's event enable says (R35, R246). -/
def State.raiseMute (s : State) (g obj : Nat) (owner : Option Nat) : State := s.latch g 0 obj owner 0 false true

/-- The real condition of a level source comes or goes (R464): the rising edge of the effective condition latches. -/
def State.level (s : State) (g : Nat) (present : Bool) (obj : Nat := 0) (owner : Option Nat := none) : State :=
  let x := s.src g
  let s1 := s.setSrc g { x with real := present, recReal := x.recReal || (present && x.force) }
  if present && !x.real && !x.force then s1.latch g 0 obj owner 0 false
  else if present && !x.real && s1.meets g false then (s1.mergeEvent g).fenceOn g
  else s1

/-- The effective condition of a level source (FLT_LIVE, R464). -/
def State.liveBit (s : State) (g : Nat) : Bool :=
  match srcBlock g with
  | some (b, l) => srcLevel b.code l && ((s.src g).real || (s.src g).force)
  | none => false

/-- Count a bad access and raise its source (R8, R527 GLB 4). -/
def State.badAccess (s : State) : State := (s.bump Ctr.GLB_BAD_ACCESS_COUNT).raise badAccessSource 0 0

end Sys2Proof.Machine
end

