-- ==== Sys2Proof/Machine/Roles.lean ====
section
/-! DEFINITION. Port roles and neighbours in a configuration set (R149-R152), and the accessors of the link, lane and
route state. -/
namespace Sys2Proof.Machine

/-- A link engine. -/
def State.lk (s : State) (p : Nat) : Lnk := Tbl.get (fun _ => Lnk.reset) s.lnk p
/-- Set a link engine. -/
def State.setLk (s : State) (p : Nat) (l : Lnk) : State := { s with lnk := Tbl.put (fun _ => Lnk.reset) s.lnk p l }
/-- Change a link engine. -/
def State.onLk (s : State) (p : Nat) (f : Lnk → Lnk) : State := s.setLk p (f (s.lk p))
/-- A port's physical layer. -/
def State.pp (s : State) (p : Nat) : PortPhy := Tbl.get (fun _ => PortPhy.reset) s.phy.ports p
/-- Set a port's physical layer. -/
def State.setPp (s : State) (p : Nat) (v : PortPhy) : State :=
  { s with phy := { s.phy with ports := Tbl.put (fun _ => PortPhy.reset) s.phy.ports p v } }
/-- A lane. -/
def State.ln (s : State) (n : Nat) : Lane := Tbl.get (fun _ => Lane.reset) s.phy.lanes n
/-- Set a lane. -/
def State.setLn (s : State) (n : Nat) (v : Lane) : State :=
  { s with phy := { s.phy with lanes := Tbl.put (fun _ => Lane.reset) s.phy.lanes n v } }
/-- The port is UP (R141). -/
def State.up (s : State) (p : Nat) : Bool := (s.lk p).st == .up
/-- The PHY is up (R103, R106). -/
def State.phyUp (s : State) (p : Nat) : Bool :=
  (s.pp p).txMask != 0 && (s.pp p).rxMask != 0 && s.g (Reg.LAN_PT_CTRL.test p) == 0

/-- R150: a port's role in a set: 0 disabled, 1 row, 2 column, 3 global, 4 service. -/
def State.role (s : State) (set p : Nat) : Nat :=
  let r := s.gs set (Reg.RTE_PORT_ROLE.role p)
  if r ≤ 4 then r else 0

/-- The role range a port has by default (R151). -/
def defaultRole (p : Nat) : Nat := if p < 15 then 1 else if p < 30 then 2 else if p < 62 then 3 else 4

/-- R151: the fields are derived for this port. -/
def State.autoRole (s : State) (set p : Nat) : Bool :=
  s.gs set (Reg.RTE_PORT_ROLE.auto p) == 1 && s.role set p == defaultRole p && s.role set p != 4 && p < 62

/-- The own coordinates (R20). -/
def State.myWall (s : State) : Nat := s.me / 256
def State.myRow (s : State) : Nat := s.me / 16 % 16
def State.myCol (s : State) : Nat := s.me % 16

/-- The neighbour column of a row port, row of a column port, or gidx of a global port (R151). -/
def State.peer (s : State) (set p : Nat) : Nat :=
  if s.autoRole set p then
    if p < 15 then (if p < s.myCol then p else p + 1)
    else if p < 30 then (if p - 15 < s.myRow then p - 15 else p - 15 + 1)
    else p - 30
  else if s.role set p = 3 then s.gs set (Reg.RTE_PORT_ROLE.gidx p)
  else s.gs set (Reg.RTE_PORT_ROLE.peer p)

/-- R152: a lower-numbered port already holds this port's peer or gidx. -/
def State.collides (s : State) (set p : Nat) : Bool :=
  let r := s.role set p
  (r == 1 || r == 2 || r == 3) &&
    (List.range p).any (fun q => s.role set q == r && s.peer set q == s.peer set p)

/-- The port of a role that holds a peer or gidx (R152, R172): the lowest. -/
def State.portFor (s : State) (set role peer : Nat) : Option Nat :=
  (List.range 64).find? (fun p => s.role set p == role && s.peer set p == peer)

/-- Ports whose role in the active set is row, or column. -/
def State.rowPorts (s : State) : List Nat :=
  (List.range 64).filter (fun p => s.role s.crs.active p == 1 && !s.collides s.crs.active p)
def State.colPorts (s : State) : List Nat :=
  (List.range 64).filter (fun p => s.role s.crs.active p == 2 && !s.collides s.crs.active p)

/-- Ports that a fabric boot source selects (R491): FP62 for 0b01, FP63 for 0b10, both for 0b11. -/
def State.bootPort (s : State) (p : Nat) : Bool :=
  (p == 62 && bit s.glb.strapBoot 0) || (p == 63 && bit s.glb.strapBoot 1)

/-- Lane of a port (R1). -/
def laneOf (p idx : Nat) : Nat := 2 * p + idx
/-- Cycle-exact time in 1/16 cycle, the fine phase included (R62). -/
def State.localTicks (s : State) : Int := (((s.course * 1280 + s.crs.cycle) * 16 : Nat) : Int) + s.crs.phase
/-- The signed time from `b` to `a`, both in 1/16 cycle, in the space of the 48-bit course counter (R40). -/
def ticksFrom (a b : Int) : Int :=
  let d := (a - b) % (20480 * 2 ^ 48)
  if d ≥ 20480 * 2 ^ 47 then d - 20480 * 2 ^ 48 else d

/-- R21, R92: the device behind a port, once its markers have named it with a valid identifier: no packet is injected for another. -/
def State.neighbour (s : State) (p : Nat) : Option Nat :=
  let q := s.pp p
  if q.farValid ∧ q.farDevice < 2 ^ 18 then some q.farDevice else none

/-- Indices of the entries of an array of registers that are listed in a set or in a table. -/
def State.listed (s : State) (set base stride n : Nat) (more : List Nat) : List Nat :=
  s.sets.foldl (fun acc e =>
    let o := e.1 % 2 ^ 26
    if e.1 / 2 ^ 26 = set ∧ base ≤ o ∧ o < base + stride * n then setAdd acc ((o - base) / stride) else acc)
    (more.foldl setAdd [])

/-- Global number of a local source. -/
def srcLan (lane k : Nat) : Nat := 32 + lane * 4 + k
def srcPll (k : Nat) : Nat := 32 + 512 + k
def srcLnk (p k : Nat) : Nat := 576 + p * 6 + k
def srcRte (k : Nat) : Nat := 960 + k
def srcSch (k : Nat) : Nat := 976 + k
def srcHif (k : Nat) : Nat := 992 + k
def srcXlt (u k : Nat) : Nat := 1008 + u * 6 + k
def srcTrn (k : Nat) : Nat := 1040 + k
def srcMch (k : Nat) : Nat := 1056 + k
def srcRma (k : Nat) : Nat := 1072 + k
def srcLck (k : Nat) : Nat := 1088 + k
def srcCol (k : Nat) : Nat := 1104 + k
def srcBrg (k : Nat) : Nat := 1120 + k
def srcLtl (k : Nat) : Nat := 1136 + k
def srcBst (k : Nat) : Nat := 1152 + k
def srcMgt (k : Nat) : Nat := 1168 + k
def srcCrs (k : Nat) : Nat := 16 + k

end Sys2Proof.Machine
end

