-- ==== Sys2Proof/Machine/Slice.lean ====
section
/-! DEFINITION. Self-test slices as other blocks meet them (R479-R486): the unit that is out, capacity that is missing,
the write log of a table bank, and the abort it can cause. The meanings of the BST rows are in Machine/Bst.lean. -/
namespace Sys2Proof.Machine

/-- R478: units in a class. -/
def unitCount (cls : Nat) : Nat := [0, 320, 240, 320, 384, 16, 112, 32].getD cls 0
/-- R477: the schedule entry of the first unit of a class. -/
def classStart (cls : Nat) : Nat := [0, 0, 320, 560, 880, 1264, 1280, 1392].getD cls 0
/-- R477: the unit of a schedule entry, as class and unit. -/
def entryUnit (e : Nat) : Nat × Nat :=
  match [7, 6, 5, 4, 3, 2, 1].find? (fun c => classStart c ≤ e) with
  | some c => (c, e - classStart c)
  | none => (1, e)

/-- The repair records in use (BST_REPAIR): number and word 0. -/
def State.records (s : State) : List (Nat × Nat) :=
  s.regs.filterMap (fun e =>
    if Reg.BST_REPAIR.off 0 ≤ e.1 ∧ e.1 < Reg.BST_REPAIR.off 512 ∧ e.1 % 8 = 0 ∧ bit e.2.toNat 31 then
      some ((e.1 - Reg.BST_REPAIR.off 0) / 8, e.2.toNat) else none)
/-- Kind, class and unit of a record's word 0. -/
def recKind (w : Nat) : Nat × Nat × Nat := (bits w 28 2, bits w 24 4, bits w 0 10)
/-- R485: a unit is retired. -/
def State.retired (s : State) (cls unit : Nat) : Bool :=
  s.records.any (fun r => recKind r.2 == (2, cls, unit)) || s.bst.lost.contains (cls, unit)

/-- A slice is in progress (BST_STATUS.active). -/
def State.slicing (s : State) : Bool := s.g Reg.BST_STATUS.active == 1
/-- The unit of the slice. -/
def State.sliceUnit (s : State) : Nat × Nat := (s.g Reg.BST_STATUS.cls, s.g Reg.BST_STATUS.unit)

/-- R478, R481, R485: the class 0x1 banks that fills avoid: the one in a slice (from PREPARE onward) and those retired. -/
def State.banksOut (s : State) : List Nat :=
  (s.records.filterMap (fun r => if (recKind r.2).1 = 2 ∧ (recKind r.2).2.1 = 1 then some (recKind r.2).2.2 else none) ++
    s.bst.lost.filterMap (fun u => if u.1 = 1 then some u.2 else none)).foldl setAdd
    (if s.slicing && s.sliceUnit.1 == 1 then [s.sliceUnit.2] else [])
/-- Entries a cache of `n` can hold now (cache numbers as in Config.cacheOfBank). -/
def State.cacheCap (s : State) (cache n : Nat) : Nat :=
  s.banksOut.foldl (fun a u => if Config.cacheOfBank u = cache then a - Config.bankEntries u else a) n

/-- Key of a cached entry among those of all caches. -/
def placeKey (cache k : Nat) : Nat := cache * 2 ^ 80 + k
/-- The class 0x1 bank that holds an entry. -/
def State.bankOf (s : State) (cache k : Nat) : Nat := (Tbl.find? s.bst.placed (placeKey cache k)).getD (Config.bankOfEntry cache k)
/-- The banks of a cache that fills may use. -/
def State.banksIn (s : State) (cache : Nat) : List Nat :=
  (List.range (unitCount 1)).filter (fun u => Config.cacheOfBank u == cache && !s.banksOut.contains u)
/-- R481: an entry is filled: where its own bank is out it lies in another bank of the cache; which is free. -/
def State.fillBank (s : State) (cache k : Nat) : State :=
  if s.banksOut.contains (Config.bankOfEntry cache k) then
    let d := s.draw
    let l := s.banksIn cache
    { d.2 with bst := { d.2.bst with placed := Tbl.ins d.2.bst.placed (placeKey cache k) (l.getD (d.1 % l.length) (unitCount 1)) } }
  else { s with bst := { s.bst with placed := Tbl.del s.bst.placed (placeKey cache k) } }

/-- Pool slots of a port that are free (R133, LNK_RX_SEQ.pool_free). -/
def Lnk.poolFree (l : Lnk) : Nat := 6144 - l.poolCut - l.poolUsed

/-- R134, R135: the thresholds in force. -/
def State.headroom (s : State) (p : Nat) : Nat := min 4096 (s.g (Reg.LNK_POOL_CFG.headroom p))
def State.hysteresis (s : State) (p : Nat) : Nat := min 1024 (s.g (Reg.LNK_POOL_CFG.hysteresis p))

/-- R134: change pool_off at its thresholds and note that the change is to be announced. -/
def State.poolOff (s : State) (p : Nat) : State :=
  let l := s.lk p
  if l.poolFree < s.headroom p ∧ ¬ l.poolOff then s.setLk p { l with poolOff := true, offDue := true }
  else if l.poolFree ≥ s.headroom p + s.hysteresis p ∧ l.poolOff then s.setLk p { l with poolOff := false, offDue := true }
  else s

/-- R481, R486: an input-buffer bank leaves the pool of its port, or returns. -/
def State.bankPool (s : State) (unit : Nat) (out : Bool) : State :=
  (s.onLk (unit / 6) (fun l => { l with poolCut := if out then l.poolCut + 1024 else l.poolCut - 1024 })).poolOff (unit / 6)

/-- R479: back to IDLE; `keepOut` leaves a retired input-buffer bank out. -/
def State.sliceEnd (s : State) (keepOut : Bool) : State :=
  let (cls, unit) := s.sliceUnit
  let s1 := if cls = 4 ∧ ¬ keepOut then s.bankPool unit false else s
  (((s1.put Reg.BST_STATUS.active 0).put Reg.BST_STATUS.phase 0).put Reg.BST_LOG.used 0)

/-- R480: the unit of a scheduled slice waits for a retry, once in a sweep. -/
def State.sliceRetry (s : State) : State :=
  let (cls, unit) := s.sliceUnit
  let e := classStart cls + unit
  if s.bst.byRun ∨ s.bst.retried.contains e ∨ s.bst.retry.contains e then s
  else { s with bst := { s.bst with retry := s.bst.retry ++ [e] } }

/-- R479: the abort of a slice. RESTORE and RETURN follow at once. -/
def State.sliceAbort (s : State) : State := (((s.sliceRetry).sliceEnd false).bump Ctr.BST_ABORT_COUNT).raise (srcBst 1) 0 0

/-- R482: `n` words are written to a table (tag as in Config.tableBank). While its bank is out they enter the write log, of which reads,
lookups and readback take the latest value; a write that would need a 65th entry aborts the slice and then lands in the bank. -/
def State.tableWrite (s : State) (tag n : Nat) : State :=
  if s.sliceOut = some (2, Config.tableBank tag) then
    let used := s.g Reg.BST_LOG.used
    if used + n ≤ 64 then s.put Reg.BST_LOG.used (used + n) else s.sliceAbort
  else s

/-- Tags of tables that no register offset names: domain keys by host port and slot, tree keys by tree, lock slots by unit. -/
def tagKey (slot : Nat) : Nat := 2 ^ 28 + slot
def tagTreeKey (t : Nat) : Nat := 2 ^ 29 + t
def tagLocks (u : Nat) : Nat := 2 ^ 30 + u

end Sys2Proof.Machine
end

