-- ==== Sys2Proof/Machine/Course.lean ====
section
/-! DEFINITION. Course marks and alignment (R54-R67), and the meanings of the alignment commands. -/
namespace Sys2Proof.Machine

/-- R54: the device is the time root. -/
def State.isRoot (s : State) : Bool := s.g Reg.CRS_ALIGN_CTRL.root == 1

/-- R55: the device is a wall head, judged for a root whose identifier is `root`. -/
def State.isHead (s : State) (root : Option Nat) : Bool :=
  let m := s.g Reg.CRS_ALIGN_CTRL.head_mode
  let byMode := m == 1 || ((m == 0 || m == 3) && s.me % 256 == 0 && s.meValid)
  let inRootWall := !s.isRoot && (match root with | some r => r / 256 == s.myWall | none => false)
  byMode && !inRootWall

/-- The root that is followed, if any. -/
def State.followed (s : State) : Option Nat := if s.crs.rootValid then some s.crs.rootId else none

/-- R56: marks naming a root may be used from a port; the root itself hears marks on every port. -/
def State.markPort (s : State) (p root : Nat) : Bool :=
  let r := s.role s.crs.active p
  s.meValid && (s.isRoot || (if s.isHead (some root) then r == 3 else r == 1 || r == 2))

/-- R58: root a is better than root b. -/
def betterRoot (a b : Nat × Nat) : Bool := a.1 < b.1 || (a.1 == b.1 && a.2 < b.2)

/-- R57, R62: local time in 1/16 cycle, the fine phase included, in the space of the 48-bit course counter. -/
def State.localTime (s : State) : Nat := (s.localTicks % (20480 * 2 ^ 48)).toNat

/-- R57: the record this device sends on a port. A device that follows no root and is none names the root it last was, or, never
aligned, identifier 0 and rank 3 (DESIGN CHOICE, notes/assumptions/84: the rule gives a sender without a root no values). -/
def State.markToSend (s : State) (p : Nat) : Mark :=
  let root := s.isRoot
  let al := s.crs.aligned
  let e := Tbl.find? s.crs.rxMarks p
  { rootId := if root then s.me else s.crs.rootId
    course := s.localTime / 20480
    txOffset := s.localTime % 20480
    aligned := al
    echoTag := match e with | some m => m.mark.course % 256 | none => 0
    turnaround := match e with | some m => unsigned (s.localTicks - m.at_) 24 | none => 0
    localDepth := if !al then 3 else if root then 0 else s.crs.localDepth
    globalDepth := if !al then 3 else if root then 0 else s.crs.globalDepth
    head := root || s.isHead s.followed
    rank := if root then s.g Reg.CRS_ALIGN_CTRL.rank else s.crs.rootRank
    echoValid := e.isSome }

/-- The 16 bytes of R57. -/
def Mark.toNat (m : Mark) : Nat :=
  pack [(0, 20, m.rootId), (24, 48, m.course), (72, 15, m.txOffset), (87, 1, b2n m.aligned), (88, 8, m.echoTag),
    (96, 24, m.turnaround), (120, 2, m.localDepth), (122, 2, m.globalDepth), (124, 1, b2n m.head), (125, 2, m.rank),
    (127, 1, b2n m.echoValid)]

/-- The record the 16 bytes hold. -/
def Mark.ofNat (x : Nat) : Mark :=
  { rootId := bits x 0 20, course := bits x 24 48, txOffset := bits x 72 15, aligned := bit x 87, echoTag := bits x 88 8,
    turnaround := bits x 96 24, localDepth := bits x 120 2, globalDepth := bits x 122 2, head := bit x 124,
    rank := bits x 125 2, echoValid := bit x 127 }

/-- Note a mark sent, so that its echo can be timed (R60). -/
def State.noteMarkSent (s : State) (p : Nat) : State :=
  { s with crs := { s.crs with txMarks := Tbl.ins s.crs.txMarks (p * 256 + s.localTime / 20480 % 256) s.localTicks } }

/-- R60: the phase error a mark gives on a port, when it can be computed. -/
def State.markErr (s : State) (p : Nat) (m : Mark) : Option Int :=
  if !m.echoValid then none
  else
    match Tbl.find? s.crs.txMarks (p * 256 + m.echoTag) with
    | none => none
    | some t1 =>
      let t4 := s.localTicks
      if ticksFrom t4 t1 > 256 * 20480 then none
      else
        let rtt := ticksFrom t4 t1 - m.turnaround
        let delay := rtt / 2 + signed (s.g (Reg.CRS_PORT_ASYM.asym p)) 16
        some (ticksFrom t4 ((m.course * 20480 + m.txOffset : Nat) + delay))

/-- R56, R58: the mark last received on a port may give a parent. -/
def State.markUsable (s : State) (e : Nat × RxMark) : Bool :=
  e.2.usable && e.2.mark.aligned && s.markPort e.1 e.2.mark.rootId && s.up e.1

/-- The ports whose latest mark names a root, with the depths it carries. -/
def State.portsFor (s : State) (root : Nat) : List (Nat × Nat × Nat) :=
  s.crs.rxMarks.filterMap (fun e =>
    if s.markUsable e && e.2.mark.rootId == root then some (e.1, e.2.mark.globalDepth, e.2.mark.localDepth) else none)

/-- R58: the best root among the marks last received. -/
def State.bestHeard (s : State) : Option (Nat × Nat) :=
  s.crs.rxMarks.foldl (fun b e =>
    let r := (e.2.mark.rank, e.2.mark.rootId)
    if s.markUsable e && b.all (fun x => betterRoot r x) then some r else b) none

/-- R58: the port with the smallest (global_depth, local_depth), the lowest number on a tie. -/
def bestPort : List (Nat × Nat × Nat) → Option (Nat × Nat × Nat)
  | [] => none
  | a :: t =>
    match bestPort t with
    | none => some a
    | some b => if b.2.1 < a.2.1 || (b.2.1 == a.2.1 && b.2.2 < a.2.2) then some b else some a

/-- Own depth below a parent (R58, R66). -/
def State.setDepth (s : State) (p gd ld : Nat) : State :=
  let across := s.role s.crs.active p = 3
  let g := if across then gd + 1 else gd
  let l := if across then 0 else ld + 1
  { s with crs := { s.crs with globalDepth := min g 3, localDepth := min l 3, deep := g > 2 || l > 2 } }

/-- R57, R58: choose a parent for the root that is followed; the root's rank is as that parent's latest mark gives it. -/
def State.chooseParent (s : State) (rank root : Nat) : State :=
  let s1 := { s with crs := { s.crs with rootValid := true, rootRank := rank, rootId := root, parent := none,
                                          avgSum := 0, avgCount := 0, badRun := 0 } }
  match bestPort (s.portsFor root) with
  | some (p, gd, ld) =>
    let k := match Tbl.find? s.crs.rxMarks p with | some e => e.mark.rank | none => rank
    { s1 with crs := { s1.crs with parent := some p, rootRank := k } }.setDepth p gd ld
  | none => s1

/-- R58, R63, R64: a new parent: an aligned device keeps the root it follows; one not yet aligned takes the best root it hears. -/
def State.newParent (s : State) : State :=
  if s.isRoot then s
  else if s.crs.aligned then (if s.crs.rootValid then s.chooseParent s.crs.rootRank s.crs.rootId else s)
  else
    match s.bestHeard with
    | some r => s.chooseParent r.1 r.2
    | none => { s with crs := { s.crs with parent := none, rootValid := false, avgSum := 0, avgCount := 0, badRun := 0 } }

/-- R57, R58: the link of a port leaves its state for DOWN: no mark counts as received on it, and the parent there is given up. -/
def State.markLinkDown (s : State) (p : Nat) : State :=
  let s1 := { s with crs := { s.crs with rxMarks := Tbl.del s.crs.rxMarks p } }
  if s1.crs.parent = some p then s1.newParent else s1

/-- R63: the parent is given up because alignment was lost. Its port is not chosen again before its next mark (DESIGN CHOICE,
notes/assumptions/84: the rule says "a new parent" and no more). -/
def State.dropParent (s : State) : State :=
  match s.crs.parent with
  | some p =>
    let marks := s.crs.rxMarks.map (fun e => if e.1 = p then (e.1, { e.2 with usable := false }) else e)
    { s with crs := { s.crs with rxMarks := marks } }.newParent
  | none => s.newParent

/-- R59: set multi_root, raising its event when it was 0. -/
def State.setMultiRoot (s : State) : State :=
  if s.crs.multiRoot then s
  else { s with crs := { s.crs with multiRoot := true } }.raise (srcCrs 2) 0 0

/-- R61, R62, R63: what a mark on the parent port does once its error is known. Before the step it counts towards the average of
sixteen. After it, the first error of a course corrects the phase; a course counts as good if each of its errors is within 2 ns, and
one without an error ends the run (DEDUCED, notes/assumptions/84). A parent's mark is whole courses off when the nearest course to
the predicted time is another. -/
def State.trackPhase (s : State) (e : Int) : State :=
  let sat := if e > 32767 then 32767 else if e < -32767 then -32767 else e
  let s1 := { s with crs := { s.crs with phaseErr := sat, errCourse := some s.crs.course } }
  if s.crs.aligned || s.crs.stepDone then
    let first := s.crs.errCourse ≠ some s.crs.course
    let corr := max (-8) (min 8 (e.tdiv 8))
    let run := if e.natAbs > 40 then 0 else if ¬ first then s.crs.goodRun
      else if s.crs.errCourse = some (s.crs.course - 1) then s.crs.goodRun + 1 else 1
    let s2 := { s1 with crs := { s1.crs with phase := if first then s1.crs.phase - corr else s1.crs.phase, goodRun := run,
                                              badRun := if e.natAbs > 480 then s1.crs.badRun + 1 else 0 } }
    if e.natAbs > 10240 then s2.raise (srcCrs 1) 0 0 else s2
  else if s.crs.avgCount < 16 then { s1 with crs := { s1.crs with avgSum := s1.crs.avgSum + e, avgCount := s1.crs.avgCount + 1 } }
  else { s with crs := { s.crs with phaseErr := sat } }

/-- R60-R63: the phase error of a mark on the parent port, whichever root it names. -/
def State.phaseMark (s : State) (p : Nat) (m : Mark) : State :=
  match s.markErr p m with
  | some e => s.trackPhase e
  | none =>
    if s.crs.stepDone || s.crs.aligned || decide (s.crs.avgCount ≥ 16) then s
    else { s with crs := { s.crs with avgSum := 0, avgCount := 0 } }

/-- R58-R63: a mark on the parent port that names the root followed: its depths, its rank and its phase error. -/
def State.parentMark (s : State) (p : Nat) (m : Mark) : State :=
  let s1 := (if m.aligned then s.setDepth p m.globalDepth m.localDepth else s)
  { s1 with crs := { s1.crs with rootRank := m.rank } }.phaseMark p m

/-- R58: a device not yet aligned follows the best root it hears. It keeps its parent while that port names this root, and else takes
another port that does (DEDUCED, notes/assumptions/84); hearing no root it changes nothing. -/
def State.followBest (s : State) : State :=
  match s.bestHeard with
  | none => s
  | some r =>
    let kept := match s.crs.parent with
      | some p => s.crs.rootValid && s.crs.rootId == r.2 && (s.portsFor r.2).any (fun e => e.1 == p)
      | none => false
    if kept then s else s.chooseParent r.1 r.2

/-- R59: the root against which a better one is judged: the one to be followed from the next course, else the one followed. -/
def State.ownRoot (s : State) : Option (Nat × Nat) :=
  match s.crs.follow with
  | some (rank, root, _) => some (rank, root)
  | none => if s.crs.rootValid then some (s.crs.rootRank, s.crs.rootId) else none

/-- R59: a mark that names another root than the one followed, heard by an aligned device or a root. Of several better roots heard in
one course the best is followed (DEDUCED, notes/assumptions/84). -/
def State.otherRoot (s : State) (p : Nat) (m : Mark) : State :=
  match s.markErr p m with
  | none => s
  | some e =>
    let r := (m.rank, m.rootId)
    if e.natAbs > 480 then s.setMultiRoot
    else if s.isRoot then
      if betterRoot r (s.g Reg.CRS_ALIGN_CTRL.rank, s.me) then (s.setMultiRoot.put Reg.CRS_ALIGN_CTRL.root 0).chooseParent r.1 r.2 else s
    else if s.ownRoot.all (fun x => betterRoot r x) then { s with crs := { s.crs with follow := some (r.1, r.2, s.crs.course) } }
    else s

/-- R57-R63: a course mark arrives on a port. An aligned device that follows no root does not take a mark that names itself: it comes
from a device below (R67). -/
def State.courseMark (s : State) (p : Nat) (m : Mark) : State :=
  let s1 := { s with crs := { s.crs with rxMarks := Tbl.ins s.crs.rxMarks p ⟨m, s.localTicks, true⟩ } }
  let same := s1.crs.rootValid && s1.crs.rootId == m.rootId
  if !s1.markPort p m.rootId then s1
  else if s1.isRoot then
    if m.aligned && m.rootId != s1.me then s1.otherRoot p m else s1
  else if s1.crs.aligned then
    if s1.crs.parent = some p && same then s1.parentMark p m
    else if !m.aligned then s1
    else if same then (if s1.crs.parent.isNone then s1.chooseParent m.rank m.rootId else s1)
    else if m.rootId == s1.me then s1
    else
      let agrees := match s1.markErr p m with | some e => decide (e.natAbs ≤ 480) | none => false
      let s2 := s1.otherRoot p m
      if s1.crs.parent = some p && agrees then s2.phaseMark p m else s2
  else
    let s2 := s1.followBest
    if s2.crs.parent = some p then
      (if s2.crs.rootId == m.rootId then s2.parentMark p m else s2.phaseMark p m)
    else s2

/-- R57, R60: COURSE_MARK_RX, on a link whose engine has left DOWN. -/
def execCourseMarkRx (port : Nat) (m : Mark) (s : State) : Host.Outcome State Fault Refusal :=
  if port < 64 ∧ s.counting ∧ (s.lk port).st ≠ .down ∧ (s.lk port).st ≠ .fencing then .next (s.courseMark port m) else .next s

/-- R59: the better root heard in an earlier course is to be followed now. -/
def State.followDue (s : State) : Option (Nat × Nat) :=
  match s.crs.follow with
  | some (rank, root, c) => if s.crs.aligned ∧ s.crs.cycle = 0 ∧ c ≠ s.crs.course then some (rank, root) else none
  | none => none
/-- R59: the better root is followed, without a step. -/
def State.followRoot (s : State) (r : Nat × Nat) : State := { s with crs := { s.crs with follow := none } }.chooseParent r.1 r.2

/-- R59: from the next course an aligned device follows the better root it heard, without a step. -/
def execFollowBetterRoot (s : State) : Host.Outcome State Fault Refusal :=
  match s.followDue with
  | some r => .next (s.followRoot r)
  | none => .next s

/-- R61: the one step at a local course boundary. What was stamped in the old time moves with it. -/
def State.alignStep (s : State) : State :=
  let old := s.now
  let oldCourse := s.course
  let d := s.crs.avgSum.tdiv 16
  let m := (s.localTicks - d) % (20480 * 2 ^ 48)
  let c := (m / 20480).toNat
  let r := (m % 20480).toNat
  let s0 := s.setTime (BitVec.ofNat 48 c) (r / 16)
  let s1 := { s0 with crs := { s0.crs with phase := r % 16, stepped := true,
                                            stepDone := true, stepFrom := old, stepTo := c % 2 ^ 48 * 65536 + r / 16,
                                            avgSum := 0, avgCount := 0, errCourse := none, goodRun := 0, badRun := 0,
                                            txMarks := s.crs.txMarks.map (fun e : Nat × Int => (e.1, e.2 - d)),
                                            rxMarks := s.crs.rxMarks.map (fun e : Nat × RxMark => (e.1, { e.2 with at_ := e.2.at_ - d })) } }
  (s1.bump Ctr.CRS_STEP_COUNT).raise (srcCrs 4) 0 (oldCourse % 2 ^ 24)

/-- R50, R61: the step is due: sixteen consecutive valid marks before this boundary, and no step yet. -/
def State.stepDue (s : State) : Bool :=
  decide (s.crs.avgCount ≥ 16) && !s.crs.stepDone && !s.crs.aligned && s.crs.cycle == 0 && s.crs.errCourse != some s.crs.course

/-- R61: ALIGN_STEP after 16 consecutive valid marks, once (R50). -/
def execAlignStep (s : State) : Host.Outcome State Fault Refusal := if s.stepDue then .next s.alignStep else .next s

/-- R62: ALIGNED after 64 consecutive courses within 2 ns, or at once if the device is the root (from TRAIN, R54). -/
def execAligned (s : State) : Host.Outcome State Fault Refusal :=
  if ¬ s.crs.aligned ∧ ((s.crs.stepDone ∧ s.crs.goodRun ≥ 64) ∨ (s.isRoot ∧ s.counting ∧ s.mode ≠ .monitor)) then
    .next { s with crs := { s.crs with aligned := true } }
  else .next s

/-- R63: ALIGN_LOST after eight consecutive marks beyond 24 ns. -/
def execAlignLost (s : State) : Host.Outcome State Fault Refusal :=
  if s.crs.aligned ∧ s.crs.badRun ≥ 8 then
    .next ({ s with crs := { s.crs with lost := true, badRun := 0 } }.raise (srcCrs 3) 0 0).dropParent
  else .next s

/-- R67: the write of CRS_ALIGN_CTRL by a privileged requester: root and rank take the value, head_mode as the lock allows. A root is
named in CRS_ROOT_ID with valid = 1 only while its identifier is valid (DESIGN CHOICE, notes/assumptions/84). A device that stops being
the root while aligned follows none, keeps its depths and goes on naming itself in its marks, so that it is in holdover (R64) and so
are the devices below it that lose their parents. -/
def State.alignCtrlWrite (s : State) (v : Nat) (rwl : Bool) : State :=
  let s1 := (s.put Reg.CRS_ALIGN_CTRL.root (bit v 0).toNat).put Reg.CRS_ALIGN_CTRL.rank (bits v 8 2)
  let s2 := if rwl then s1.put Reg.CRS_ALIGN_CTRL.head_mode (bits v 6 2) else s1
  if bit v 0 then
    { s2 with crs := { s2.crs with rootValid := s.meValid, rootId := s.me, rootRank := bits v 8 2, parent := none,
                                    globalDepth := 0, localDepth := 0, deep := false, follow := none,
                                    aligned := s2.crs.aligned || (s.counting && s.mode != .monitor) } }
  else if s.isRoot then
    if s.crs.aligned then { s2 with crs := { s2.crs with rootValid := false, parent := none } }
    else { s2 with crs := { s2.crs with rootValid := false, rootRank := 3, rootId := 0, globalDepth := 3, localDepth := 3, parent := none } }
  else s2

end Sys2Proof.Machine
end

