-- ==== Sys2Proof/Machine/Crc.lean ====
section
/-! DEFINITION. The checksums of the formats: header CRC (R158), brick CRC-32C (R113), marker CRC-16 (R88), training
frame CRC-8 (R94). -/
namespace Sys2Proof.Machine

/-- One bit into a CRC register of width `w`, most significant bit leading. -/
def crcBit (w poly : Nat) (reg : Nat) (b : Bool) : Nat :=
  let top := xor (reg.testBit (w - 1)) b
  let sh := (reg * 2) % 2 ^ w
  if top then sh ^^^ poly else sh

/-- Bits `lo` to `hi - 1` of a number, lowest first. -/
def bitsUp (x lo n : Nat) : List Bool := (List.range n).map (fun i => x.testBit (lo + i))

/-- The bits of bytes `0` to `n - 1`, each byte most significant bit first (no reflection). -/
def bitsMsb (x n : Nat) : List Bool :=
  (List.range n).flatMap (fun i => (List.range 8).map (fun j => x.testBit (8 * i + 7 - j)))

/-- R158: the header CRC over bytes 0-13 with the mutable fields vc, phase, nonmin, int_wall, cmark and hops as zero. -/
def headerCrc (hdr : Nat) : Nat :=
  let h := setBits (setBits (setBits (setBits (setBits (setBits hdr 44 3 0) 47 2 0) 51 1 0) 52 10 0) 93 1 0) 94 4 0
  (bitsMsb h 14).foldl (crcBit 16 0x8BB7) 0xFFFF

/-- One bit into the reflected CRC-32C register (R113). -/
def crc32cBit (reg : Nat) (b : Bool) : Nat :=
  let low := xor (reg.testBit 0) b
  if low then (reg / 2) ^^^ 0x82F63B78 else reg / 2

/-- R113: CRC-32C over the first `n` bytes. -/
def crc32c (x n : Nat) : Nat := (bitsUp x 0 (8 * n)).foldl crc32cBit 0xFFFFFFFF ^^^ 0xFFFFFFFF

/-- R88: the CRC of a marker over bits [131:1], bit 1 first; the x^15 coefficient goes to bit 147. -/
def markerCrc (m : Nat) : Nat := (bitsUp m 1 131).foldl (crcBit 16 0x1021) 0xFFFF

/-- R94: the CRC of a training field over bits [31:8], bit 8 first. -/
def fieldCrc (f : Nat) : Nat := (bitsUp f 8 24).foldl (crcBit 8 0x07) 0xFF

end Sys2Proof.Machine
end

