-- ==== Sys2Proof/Machine/Buffer.lean ====
section
/-! DEFINITION. The routing header (R156, R157), the input buffers with their pool and reserves (R14, R133, R134), and
the packets in them (R116-R119). -/
namespace Sys2Proof.Machine

/-! ### Routing header fields (the table before R157) -/
def Hdr.dst (h : Nat) : Nat := bits h 0 20
def Hdr.dstHp (h : Nat) : Nat := bits h 20 2
def Hdr.src (h : Nat) : Nat := bits h 22 20
def Hdr.srcHp (h : Nat) : Nat := bits h 42 2
def Hdr.vc (h : Nat) : Nat := bits h 44 3
def Hdr.phase (h : Nat) : Nat := bits h 47 2
def Hdr.setTag (h : Nat) : Nat := bits h 49 1
def Hdr.ordered (h : Nat) : Nat := bits h 50 1
def Hdr.nonmin (h : Nat) : Nat := bits h 51 1
def Hdr.intWall (h : Nat) : Nat := bits h 52 10
def Hdr.birth (h : Nat) : Nat := bits h 62 16
def Hdr.len (h : Nat) : Nat := bits h 78 7
def Hdr.type (h : Nat) : Nat := bits h 85 6
def Hdr.cls (h : Nat) : Nat := bits h 89 2
def Hdr.colour (h : Nat) : Nat := bits h 91 2
def Hdr.cmark (h : Nat) : Nat := bits h 93 1
def Hdr.hops (h : Nat) : Nat := bits h 94 4
def Hdr.flow (h : Nat) : Nat := bits h 98 12
def Hdr.crc (h : Nat) : Nat := bits h 112 16
/-- The header with its CRC computed (R158). -/
def Hdr.seal (h : Nat) : Nat := setBits h 112 16 (headerCrc h)
/-- R158: the header CRC is right. -/
def Hdr.crcOk (h : Nat) : Bool := Hdr.crc h == headerCrc h

/-- The fields an injecting device writes. -/
structure HdrIn where
  dst : Nat
  dstHp : Nat
  src : Nat
  srcHp : Nat
  vc : Nat
  setTag : Nat
  ordered : Nat
  nonmin : Nat
  intWall : Nat
  birth : Nat
  len : Nat
  type : Nat
  colour : Nat
  flow : Nat
deriving DecidableEq, Repr

/-- A routing header, with its CRC. -/
def HdrIn.make (i : HdrIn) : Nat :=
  Hdr.seal (pack [(0, 20, i.dst), (20, 2, i.dstHp), (22, 20, i.src), (42, 2, i.srcHp), (44, 3, i.vc), (49, 1, i.setTag),
    (50, 1, i.ordered), (51, 1, i.nonmin), (52, 10, i.intWall), (62, 16, i.birth), (78, 7, i.len), (85, 6, i.type),
    (91, 2, i.colour), (98, 12, i.flow)])

/-- A packet: header and the bytes after it. -/
def mkPacket (h : Nat) (rest : Data) : Data := Data.append ⟨16, h⟩ rest
/-! ### Input buffers -/

/-- The VC a packet leaves on at an output: raised with its phase on a global port (R173). -/
def State.outVc (s : State) (o : Nat) (p : InPkt) : Nat :=
  let h := p.head.hdr
  if o < 64 ∧ Hdr.cls h ≤ 1 ∧ s.role (Hdr.setTag h) o = 3 then 3 * Hdr.cls h + Hdr.phase h + 1 else Hdr.vc h

/-- The packets in an input buffer. -/
def State.inq (s : State) (i : Nat) : List InPkt := Tbl.get (fun _ => []) s.rte.inq i
/-- Set the packets of an input buffer. -/
def State.setInq (s : State) (i : Nat) (l : List InPkt) : State :=
  { s with rte := { s.rte with inq := Tbl.put (fun _ => []) s.rte.inq i l } }
/-- An output's scheduler. -/
def State.outSt (s : State) (o : Nat) : OutSt := Tbl.get (fun _ => OutSt.reset) s.sch.outs o
/-- Set an output's scheduler. -/
def State.setOut (s : State) (o : Nat) (v : OutSt) : State :=
  { s with sch := { s.sch with outs := Tbl.put (fun _ => OutSt.reset) s.sch.outs o v } }
/-- Replace a packet of an input buffer. -/
def State.setPkt (s : State) (i : Nat) (p : InPkt) : State :=
  s.setInq i ((s.inq i).map (fun x => if x.id = p.id then p else x))
/-- Take a packet out of an input buffer. -/
def State.delPkt (s : State) (i id : Nat) : State := s.setInq i ((s.inq i).filter (fun x => x.id != id))
/-- Find a packet. -/
def State.pkt? (s : State) (i id : Nat) : Option InPkt := (s.inq i).find? (fun x => x.id == id)

/-- R133: free one slot of an input port: a credit-form brick returns its credit. Inputs 64 and above are hub ports, whose
injection store has no credits. -/
def State.freeSlot (s : State) (i vc : Nat) (credit : Bool) : State :=
  if i ≥ 64 then s
  else
    let l := s.lk i
    let l1 :=
      if credit then { l with used := l.used.set vc (l.used.getD vc 0 - 1),
                              returned := l.returned.set vc ((l.returned.getD vc 0 + 1) % 65536) }
      else { l with poolUsed := l.poolUsed - 1 }
    (s.setLk i l1).poolOff i

/-- Free the slots of every brick a packet still holds. -/
def State.freeForms (s : State) (i vc : Nat) (forms : List Bool) : State := forms.foldl (fun t c => t.freeSlot i vc c) s

/-- Discard a packet of an input buffer: its bricks are freed, and those still to arrive are freed as they arrive (R133,
R552). -/
def State.discard (s : State) (i : Nat) (p : InPkt) : State :=
  let s1 := s.freeForms i p.vc p.forms
  if p.got ≥ p.len ∨ p.abort_.isSome then s1.delPkt i p.id
  else s1.setPkt i { p with forms := [], rest := [], head := Data.empty, drop := true }

/-- The output a packet is being sent to, if it holds one (R190). -/
def State.holder (s : State) (i id : Nat) : Option Nat :=
  (List.range 72).find? (fun o => (s.outSt o).cur == some (i, id))

/-- R119: a packet in progress on input is ended by abort, counted once and its source raised: cut-through packets keep what is needed to
send an ABORT onward, others are discarded, and one that was already being discarded is over. -/
def State.abortIn (s : State) (i : Nat) (p : InPkt) (reason : Nat) : State :=
  let s1 := (s.bump (Ctr.LNK_ABORT_COUNT i)).raise (srcLnk i 2) 0 i
  if p.drop then s1.delPkt i p.id
  else match s1.holder i p.id with
  | some _ => (s1.freeForms i p.vc p.forms).setPkt i { p with forms := [], rest := [], abort_ := some reason }
  | none => s1.discard i { p with abort_ := some reason }

/-- The packet in progress at a receiver (R117): the last one, while it is incomplete and not ended. -/
def State.inProgress (s : State) (i : Nat) : Option InPkt :=
  match (s.inq i).getLast? with
  | some p => if p.got < p.len ∧ p.abort_.isNone then some p else none
  | none => none

/-- R133: place a brick; none where placement is refused. -/
def State.place (s : State) (i vc : Nat) (credit : Bool) : Option State :=
  let l := s.lk i
  if credit then
    if l.used.getD vc 0 ≥ 128 then none
    else some (s.setLk i { l with used := l.used.set vc (l.used.getD vc 0 + 1) })
  else if l.poolFree = 0 then none
  else some ((s.setLk i { l with poolUsed := l.poolUsed + 1 }).poolOff i)

/-- A framing failure (R117): counted, the packet in progress aborted. -/
def State.framingError (s : State) (i : Nat) : State :=
  let s1 := s.bump (Ctr.LNK_FRAMING_ERR_COUNT i)
  match s1.inProgress i with
  | some p => s1.abortIn i p 2
  | none => s1.raise (srcLnk i 2) 0 i

/-- A new packet begins with its first brick. -/
def State.newPkt (s : State) (i : Nat) (h : Nat) (body : Data) (credit : Bool) : State :=
  let p : InPkt := { id := s.rte.nextId, len := Hdr.len h, vc := Hdr.vc h, ovc := Hdr.vc h, got := 1, left_ := 0, forms := [credit],
                     head := body, rest := [], dest := none, drop := false, abort_ := none, since := s.cycles }
  ({ s with rte := { s.rte with nextId := s.rte.nextId + 1 } }).setInq i (s.inq i ++ [p])

/-- R163, R202: queue depth of an output: bricks in the input buffers whose chosen output it is, over VCs below `vcs`. -/
def State.depth (s : State) (o vcs : Nat) : Nat :=
  s.rte.inq.foldl (fun acc e =>
    e.2.foldl (fun a p => if p.dest = some o ∧ p.vc < vcs then a + p.forms.length else a) acc) 0

/-- R163: keep the highest depth of a port seen in this course. -/
def State.noteDepth (s : State) (o : Nat) : State :=
  if o < 64 ∧ s.depth o 6 > Tbl.get (fun _ => 0) s.rte.qMax o then
    { s with rte := { s.rte with qMax := Tbl.put (fun _ => 0) s.rte.qMax o (s.depth o 6) } }
  else s

/-- A further brick of the packet in progress (R117). -/
def State.moreBrick (s : State) (i : Nat) (p : InPkt) (body : Data) (credit : Bool) : State :=
  if p.drop then
    let s1 := s.freeSlot i p.vc credit
    if p.got + 1 ≥ p.len then s1.delPkt i p.id else s1.setPkt i { p with got := p.got + 1 }
  else
    let s1 := s.setPkt i { p with got := p.got + 1, forms := p.forms ++ [credit], rest := p.rest ++ [body] }
    match p.dest with
    | some o => s1.noteDepth o
    | none => s1

/-- R117: frame an accepted brick of type `t`, already placed. -/
def State.frame (s : State) (i t : Nat) (body : Data) : State :=
  let credit := bit t 2
  let pos := t % 4
  let h := body.hdr
  match s.inProgress i with
  | none =>
    if pos = 1 ∨ pos = 3 then
      let l := Hdr.len h
      if (pos = 3 ∧ l = 1) ∨ (pos = 1 ∧ 2 ≤ l ∧ l ≤ 65) then s.newPkt i h body credit
      else (s.framingError i).freeSlot i (Hdr.vc h) credit
    else
      let s1 := s.framingError i
      if credit then s1 else s1.freeSlot i 0 false
  | some p =>
    if pos = 1 ∨ pos = 3 then (s.framingError i).freeSlot i (Hdr.vc h) credit
    else if (pos = 2) = (p.got + 1 = p.len) then s.moreBrick i p body credit
    else (s.framingError i).freeSlot i p.vc credit

/-- The VC whose reserve a credit-form brick of type `t` takes (R133): its header's for a HEAD or SINGLE, else that of the
packet in progress; a stray BODY or TAIL names none. -/
def State.brickVc (s : State) (i t : Nat) (body : Data) : Option Nat :=
  if t % 4 = 1 ∨ t % 4 = 3 then some (Hdr.vc body.hdr) else (s.inProgress i).map (fun p => p.vc)

/-- A packet is queued for an output on a VC, beside the one the output is sending. -/
def State.waitingAt (s : State) (o vc : Nat) : Bool :=
  s.rte.inq.any (fun e => e.2.any (fun p =>
    p.dest == some o && !p.drop && s.outVc o p == vc && (s.outSt o).cur != some (e.1, p.id)))

/-- R187 step 4, R188: what a queue that had run empty finds as a packet joins it: no deficit, the pointer's visit over; and VC7
does not wait on its cap. -/
def State.freshQueue (s : State) (o vc : Nat) : State :=
  if s.waitingAt o vc then s
  else
    let st := s.outSt o
    if vc = 7 then s.setOut o { st with vc7Wait := false }
    else
      let done := st.fresh && st.ptr == vc
      s.setOut o { st with deficit := st.deficit.set vc 0, ptr := if done then (vc + 1) % 7 else st.ptr, fresh := st.fresh && !done }

/-- A packet of input `i` joins the queue of output `o`. -/
def State.queueAt (s : State) (i : Nat) (p : InPkt) (o : Nat) : State := (s.freshQueue o (s.outVc o p)).setPkt i { p with dest := some o }

/-- A whole packet enters at hub port `h` (R194, R500): it is queued whole in the hub's input, with no credits, for a
given output or for the hub's route stage. -/
def State.hubTo (s : State) (h : Nat) (dest : Option Nat) (d : Data) : State :=
  let bs := d.bricks
  let p : InPkt := { id := s.rte.nextId, len := bs.length, vc := Hdr.vc d.hdr, ovc := Hdr.vc d.hdr, got := bs.length, left_ := 0,
                     forms := bs.map (fun _ => false), head := bs.headD Data.empty, rest := bs.drop 1, dest := dest,
                     drop := false, abort_ := none, since := s.cycles }
  let t := match dest with
    | some o => s.freshQueue o (s.outVc o p)
    | none => s
  ({ t with rte := { t.rte with nextId := t.rte.nextId + 1 } }).setInq (64 + h) (t.inq (64 + h) ++ [p])

/-- All bytes of a packet that is held whole. -/
def InPkt.data (p : InPkt) : Data := Data.join (p.head :: p.rest)

end Sys2Proof.Machine
end

