-- ==== Sys2Proof/Machine/ColMath.lean ====
section
/-! DEFINITION. The arithmetic of collectives: integer functions (R426), IEEE 754 binary sums, minima and maxima (R428),
and the exact 256-bit window (R429, R430). A result carries the flags inexact (1), overflow (2) and invalid (4). -/
namespace Sys2Proof.Machine

/-- A binary format: width of the exponent and of the stored significand. -/
structure Fmt where
  e : Nat
  m : Nat
deriving DecidableEq, Repr

/-- The format of a floating dtype (R418): FP16, BF16, FP32, FP64. -/
def fmtOf (dtype : Nat) : Fmt :=
  if dtype = 8 then ⟨5, 10⟩ else if dtype = 9 then ⟨8, 7⟩ else if dtype = 10 then ⟨8, 23⟩ else ⟨11, 52⟩

/-- R428: the default NaN. -/
def Fmt.nan (f : Fmt) : Nat := (2 ^ f.e - 1) <<< f.m + 2 ^ (f.m - 1)
/-- An infinity. -/
def Fmt.inf (f : Fmt) (neg : Bool) : Nat := b2n neg <<< (f.e + f.m) + (2 ^ f.e - 1) <<< f.m
def Fmt.expo (f : Fmt) (x : Nat) : Nat := bits x f.m f.e
def Fmt.frac (f : Fmt) (x : Nat) : Nat := bits x 0 f.m
def Fmt.neg (f : Fmt) (x : Nat) : Bool := bit x (f.e + f.m)
def Fmt.isNan (f : Fmt) (x : Nat) : Bool := f.expo x == 2 ^ f.e - 1 && f.frac x != 0
def Fmt.isInf (f : Fmt) (x : Nat) : Bool := f.expo x == 2 ^ f.e - 1 && f.frac x == 0
/-- The magnitude of a finite value in units of the smallest subnormal. -/
def Fmt.mag (f : Fmt) (x : Nat) : Nat :=
  if f.expo x = 0 then f.frac x else (2 ^ f.m + f.frac x) <<< (f.expo x - 1)
/-- The value of a finite number in those units. -/
def Fmt.val (f : Fmt) (x : Nat) : Int := if f.neg x then -(f.mag x : Int) else f.mag x

/-- The magnitude `n / 2^sh`, in units of the smallest subnormal, rounded to nearest with ties to even: the bits without a
sign, whether it was rounded, whether it became an infinity. -/
def Fmt.round (f : Fmt) (n sh : Nat) : Nat × Bool × Bool :=
  let k := (Nat.log2 n + 1 - sh) - (f.m + 1)
  let t := sh + k
  let q := n >>> t
  let r := n % 2 ^ t
  let up := 2 * r > 2 ^ t || (2 * r == 2 ^ t && t != 0 && q % 2 == 1)
  let q1 := if up && r != 0 then q + 1 else q
  let v := if k = 0 then q1 else q1 + k <<< f.m
  if v ≥ (2 ^ f.e - 1) <<< f.m then ((2 ^ f.e - 1) <<< f.m, r != 0, true) else (v, r != 0, false)

/-- R428: the sum. -/
def Fmt.add (f : Fmt) (a b : Nat) : Nat × Nat :=
  if f.isNan a || f.isNan b then (f.nan, 4)
  else if f.isInf a || f.isInf b then
    if f.isInf a && f.isInf b && f.neg a != f.neg b then (f.nan, 4)
    else (if f.isInf a then a else b, 0)
  else
    let s := f.val a + f.val b
    if s = 0 then (if f.neg a && f.neg b then 1 <<< (f.e + f.m) else 0, 0)
    else
      let r := f.round s.natAbs 0
      (b2n (s < 0) <<< (f.e + f.m) + r.1, b2n (r.2.1 || r.2.2) + 2 * b2n r.2.2)

/-- Order of non-NaN values, with −0 below +0. -/
def Fmt.key (f : Fmt) (x : Nat) : Int :=
  let m : Int := (bits x 0 (f.e + f.m) : Nat)
  if f.neg x then -1 - m else m

/-- R428: minimum and maximum. -/
def Fmt.minmax (f : Fmt) (isMax : Bool) (a b : Nat) : Nat × Nat :=
  if f.isNan a || f.isNan b then (f.nan, 4)
  else if (f.key a ≤ f.key b) != isMax then (a, 0) else (b, 0)

/-- R426: the integer functions on elements of `w` bytes. -/
def intFn (func : Nat) (sgn : Bool) (w a b : Nat) : Nat :=
  let n := 8 * w
  let le := if sgn then decide (signed a n ≤ signed b n) else decide (a ≤ b)
  if func = 0 then (a + b) % 2 ^ n
  else if func = 1 then (if le then a else b)
  else if func = 2 then (if le then b else a)
  else if func = 3 then a &&& b
  else if func = 4 then a ||| b
  else a ^^^ b

/-- POISON of R429, as 256 bits. -/
def poison : Nat := 2 ^ 255

/-- R429: an FP64 contribution in the window with exponent `s`: 256 bits and flags. -/
def toWindow (x : Nat) (s : Int) : Nat × Nat :=
  let f := fmtOf 11
  if f.isNan x || f.isInf x then (poison, 4)
  else
    let m := f.mag x
    if m = 0 then (0, 0)
    else
      -- |x| = m × 2^-1074; the limit is 2^(s + 56)
      let lim := s + 56 + 1074
      if lim < 0 ∨ m ≥ 2 ^ lim.toNat then (poison, 2)
      else
        let sh : Int := 160 - s - 1074
        let a := if sh ≥ 0 then m <<< sh.toNat else m >>> (-sh).toNat
        let lost := sh < 0 && m % 2 ^ (-sh).toNat != 0
        (if f.neg x then (2 ^ 256 - a) % 2 ^ 256 else a, b2n lost)

/-- R430: the 256-bit sum. -/
def windowAdd (a b : Nat) : Nat := if a = poison ∨ b = poison then poison else (a + b) % 2 ^ 256

/-- R430: the root's conversion into binary64. -/
def fromWindow (a : Nat) (s : Int) : Nat × Nat :=
  let f := fmtOf 11
  if a = poison then (f.nan, 0)
  else if a = 0 then (0, 0)
  else
    let n := (signed a 256).natAbs
    let sh : Int := s - 160 + 1074
    let r := if sh ≥ 0 then f.round (n <<< sh.toNat) 0 else f.round n (-sh).toNat
    (b2n (bit a 255) <<< 63 + r.1, 2 * b2n r.2.2)

/-- R418: bytes of an element in an up payload, and of an element at the members. -/
def colWidth (dtype mode : Nat) : Nat :=
  if dtype ≤ 1 then 1 else if dtype ≤ 3 then 2 else if dtype ≤ 5 then 4 else if dtype ≤ 7 then 8
  else if dtype ≤ 9 then 2 else if dtype = 10 then 4 else if mode = 1 then 32 else 8
def colHostWidth (dtype mode : Nat) : Nat := if mode = 1 then 8 else colWidth dtype mode
/-- R420: elements in a chunk. -/
def colPerChunk (dtype mode : Nat) : Nat := 4096 / colWidth dtype mode

/-- R426 to R430: one pairwise operation on elements of an up payload. -/
def colFn (func dtype mode a b : Nat) : Nat × Nat :=
  if mode = 1 then (windowAdd a b, 0)
  else if dtype ≤ 7 then (intFn func (dtype % 2 == 1) (colWidth dtype 0) a b, 0)
  else if func = 0 then (fmtOf dtype).add a b
  else (fmtOf dtype).minmax (func == 2) a b

/-- The elements of a run, `w` bytes each. -/
def elements (d : Data) (w : Nat) : List Nat := (List.range (d.len / w)).map (fun i => bits d.val (8 * w * i) (8 * w))
/-- The run of a list of elements. -/
def ofElements (w : Nat) (l : List Nat) : Data :=
  ⟨w * l.length, l.foldr (fun x acc => x % 2 ^ (8 * w) + acc <<< (8 * w)) 0⟩

/-- Two payloads combined element by element, with the flags. -/
def colFold (func dtype mode : Nat) (a b : Data) : Data × Nat :=
  let w := colWidth dtype mode
  let r := (List.zip (elements a w) (elements b w)).map (fun e => colFn func dtype mode e.1 e.2)
  (ofElements w (r.map Prod.fst), r.foldl (fun acc e => acc ||| e.2) 0)

end Sys2Proof.Machine
end

