-- ==== Sys2Proof/Machine/Hif.lean ====
section
/-! DEFINITION. Host rings (spec/07): objects and their numbers, doorbells, work fetch, retirement, completion queues with
stall and overflow, and the meanings of the doorbell and ring commands. -/
namespace Sys2Proof.Machine

/-! ### Objects -/

/-- A function's page. -/
def State.fn (s : State) (f : Nat) : Fn := Tbl.get (fun _ => Fn.reset) s.hif.fns f
/-- Set a function's page. -/
def State.setFn (s : State) (f : Nat) (v : Fn) : State :=
  { s with hif := { s.hif with fns := Tbl.put (fun _ => Fn.reset) s.hif.fns f v } }
/-- A send queue that exists. -/
def State.sq? (s : State) (q : Nat) : Option Sq := Tbl.find? s.hif.sqs q
/-- Set a send queue. -/
def State.setSq (s : State) (q : Nat) (v : Sq) : State := { s with hif := { s.hif with sqs := Tbl.ins s.hif.sqs q v } }
/-- Change a send queue that exists. -/
def State.onSq (s : State) (q : Nat) (f : Sq → Sq) : State :=
  match s.sq? q with
  | some v => s.setSq q (f v)
  | none => s
/-- A completion queue that exists. -/
def State.cq? (s : State) (c : Nat) : Option Cq := Tbl.find? s.hif.cqs c
/-- Set a completion queue. -/
def State.setCq (s : State) (c : Nat) (v : Cq) : State := { s with hif := { s.hif with cqs := Tbl.ins s.hif.cqs c v } }
/-- An endpoint that exists. -/
def State.ep? (s : State) (e : Nat) : Option Ep := Tbl.find? s.hif.eps e
/-- Set an endpoint. -/
def State.setEp (s : State) (e : Nat) (v : Ep) : State := { s with hif := { s.hif with eps := Tbl.ins s.hif.eps e v } }

/-- R212: a function owns a queue group. -/
def State.ownsGroup (s : State) (f g : Nat) : Bool :=
  let b := s.g (Reg.HIF_FN_GROUPS.base f)
  b ≤ g && g < b + s.g (Reg.HIF_FN_GROUPS.count f)

/-! ### Completion entries (R235) -/

/-- A completion slot, without its phase. -/
def cqe (user aux ctr bytes queue rx status op detail stamped ext : Nat) : Nat :=
  pack [(0, 64, user), (64, 64, aux), (128, 32, ctr), (160, 32, bytes), (192, 17, queue), (209, 1, rx), (216, 8, status),
    (224, 8, op), (232, 16, detail), (253, 1, stamped), (254, 1, ext)]

/-- Work entry header fields (R230). -/
def Wqe.op (r : Nat) : Nat := bits r 0 8
def Wqe.complete (r : Nat) : Bool := bit r 8
def Wqe.fence (r : Nat) : Bool := bit r 9
def Wqe.stamp (r : Nat) : Bool := bit r 10
def Wqe.override (r : Nat) : Bool := bit r 11
def Wqe.colour (r : Nat) : Nat := bits r 12 2
def Wqe.ordered (r : Nat) : Bool := bit r 14
def Wqe.idx (r : Nat) : Nat := bits r 16 16
def Wqe.user (r : Nat) : Nat := bits r 64 64
/-- `w` bits from bit `lsb` of the field that starts at a byte of the entry. -/
def Wqe.at_ (r off lsb w : Nat) : Nat := bits r (8 * off + lsb) w

/-- The first slot of a queue's completion for an entry (R235, R237). -/
def State.entrySlot (s : State) (q : Nat) (e : Ent) (r : Res) : Nat :=
  let st := Wqe.stamp e.raw
  cqe (Wqe.user e.raw) (if st then s.now else r.aux) e.ctr.toNat r.byteCount q 0 r.status (Wqe.op e.raw) r.detail
    (b2n st) (b2n r.slot2.isSome)

/-- Free a header entry of the matching engine: the entry goes and its generation advances (R346). -/
def State.freeHdr (s : State) (i : Nat) : State :=
  { s with mch := { s.mch with hdrs := Tbl.del s.mch.hdrs i,
                               gens := Tbl.put (fun _ => 0) s.mch.gens i ((Tbl.get (fun _ => 0) s.mch.gens i + 1) % 65536) } }

/-- The queue a slot is a completion of: none for a receive completion. -/
def slotQueue (h : Nat) : Option Nat := if bit h 209 then none else some (bits h 192 17)
/-- The first slots among slots held in order: a slot with ext set has the next one with it (R238). -/
def firstSlots : Bool → List Nat → List Nat
  | _, [] => []
  | true, _ :: t => firstSlots false t
  | false, h :: t => h :: firstSlots (bit h 254) t

/-- R232: a completion is written: the retire counter of its queue passes the entry it names. -/
def State.noteWritten (s : State) (slots : List Nat) : State :=
  match slots.head?.bind slotQueue with
  | some q => s.onSq q (fun v => { v with c := BitVec.ofNat 32 (bits (slots.headD 0) 128 32) + 1 })
  | none => s

/-- Write slots to a CQ ring that has room for them: a two-slot completion second slot first (R220), the producer
write-back after them and before the interrupt (R239, R248). -/
def State.cqPut (s : State) (c : Nat) (slots : List Nat) : State :=
  match s.cq? c with
  | none => s
  | some v =>
    let n := slots.length
    let put (t : State) (k slot : Nat) : State :=
      let p := v.prod + BitVec.ofNat 32 k
      t.hostWrite (hpOf v.owner) v.owner (v.base + 32 * (p.toNat % 2 ^ v.n)) ⟨32, setBits slot 255 1 (phaseBit p v.start v.n)⟩
    let s1 := ((slots.zipIdx).reverse).foldl (fun t e => put t e.2 e.1) s
    let s2 := ((s1.bumpBy Ctr.HIF_CQE_COUNT (if s.mastering then n else 0)).noteWritten slots).setCq c { v with prod := v.prod + BitVec.ofNat 32 n, armed := false }
    let s3 := match v.wb with
      | some a => s2.hostWrite (hpOf v.owner) v.owner a ⟨8, (v.prod + BitVec.ofNat 32 n).toNat⟩
      | none => s2
    if v.armed then s3.msixSend v.owner v.vector else s3

/-- Free slots of a CQ ring (R217). -/
def Cq.room (v : Cq) : Nat := 2 ^ v.n - (v.prod - v.cons).toNat

/-- R240: a CQ enters the stall. -/
def State.cqStall (s : State) (c : Nat) : State :=
  match s.cq? c with
  | some v => ((s.setCq c { v with state := .stalled, stallCourse := s.crs.course }).bump Ctr.HIF_CQ_STALL_COUNT).raise (srcHif 2) 0 c (some v.owner)
  | none => s

/-- R239, R240: a completion is due on a CQ: written, held on chip, or neither because the CQ stalls or the device writes no
completions in its mode (R37; then `false`). -/
def State.cqPost (s : State) (c : Nat) (slots : List Nat) : State × Bool :=
  match s.cq? c with
  | none => (s, true)
  | some v =>
    if v.state ≠ .active ∨ ¬ s.serving then (s, false)
    else if v.held.isEmpty ∧ slots.length ≤ v.room then (s.cqPut c slots, true)
    else if v.held.length + slots.length ≤ 8 then (s.setCq c { v with held := v.held ++ slots }, true)
    else (s.cqStall c, false)

/-- R240: a receive completion: written or held, else owed; `hdr` is the header entry it frees. -/
def State.rxPost (s : State) (c : Nat) (slots : List Nat) (hdr : Option Nat) : State :=
  let behind := match s.cq? c with
    | some v => !v.owed.isEmpty
    | none => false
  let r := if behind then (s, false) else s.cqPost c slots
  if r.2 then
    match hdr with
    | some i => r.1.freeHdr i
    | none => r.1
  else
    match r.1.cq? c with
    | some v => r.1.setCq c { v with owed := v.owed ++ [(slots, hdr)] }
    | none => r.1

/-- Write held slots while the ring has room (R239). -/
def State.cqDrainHeld (s : State) (c : Nat) : Nat → State
  | 0 => s
  | k + 1 =>
    match s.cq? c with
    | some v =>
      match v.held with
      | h :: t =>
        -- a first slot with ext set is written together with the slot after it
        let two := bit h 254
        let grp := if two then h :: t.take 1 else [h]
        if grp.length ≤ v.room then ((s.setCq c { v with held := t.drop (grp.length - 1) }).cqPut c grp).cqDrainHeld c k else s
      | [] => s
    | none => s

/-- Write owed receive completions after the held slots, while there is room (R240). -/
def State.cqDrainOwed (s : State) (c : Nat) : Nat → State
  | 0 => s
  | k + 1 =>
    match s.cq? c with
    | some v =>
      match v.owed with
      | (slots, hdr) :: t =>
        let fits := (v.held.isEmpty && slots.length ≤ v.room) || v.held.length + slots.length ≤ 8
        if fits && v.state == .active then
          let r := (s.setCq c { v with owed := t }).cqPost c slots
          (match hdr with | some i => r.1.freeHdr i | none => r.1).cqDrainOwed c k
        else s
      | [] => s
    | none => s

/-- Space has been freed or the ring begun anew: a stall ends; held slots, then owed completions, are written in a mode that writes
completions (R37), and with completions still owed another stall begins. -/
def State.cqDrain (s : State) (c : Nat) : State :=
  match s.cq? c with
  | some v =>
    let s1 := s.setCq c { v with state := if v.state = .stalled then .active else v.state }
    if ¬ s.serving then s1
    else
    let s2 := (s1.cqDrainHeld c 8).cqDrainOwed c v.owed.length
    if (s2.cq? c).any (fun w => w.state == .active && !w.owed.isEmpty) then s2.cqStall c else s2
  | none => s

/-- R37: the device writes completions again: what every CQ that takes them holds or is owed. -/
def State.cqResume (s : State) : State :=
  (s.hif.cqs.filter (fun e => e.2.state == .active)).foldl (fun t e => t.cqDrain e.1) s

/-! ### Send queue errors (R233, R234) -/

/-- A send queue enters ERROR: fetch stops, the queue-error event is raised (R233, R249). -/
def State.sqError (s : State) (q code : Nat) (ctr : Option RingCtr) : State :=
  match s.sq? q with
  | none => s
  | some v =>
    let s1 := s.setSq q { v with state := if v.state = .destroying then .destroying else .error, errCode := code,
                                 errCtr := ctr.getD v.errCtr, flushDue := v.fetched, errOwed := code == 0x20 }
    s1.raise (srcHif 0) 0 q (some v.owner)

/-- The entry has not finished. -/
def Ent.isOpen (e : Ent) : Bool :=
  match e.st with
  | .done _ => false
  | _ => true

/-- An entry has finished with a result (R232); the first one stands. -/
def State.finishEntry (s : State) (q : Nat) (ctr : RingCtr) (r : Res) : State :=
  s.onSq q (fun v => { v with ents := v.ents.map (fun e => if e.ctr = ctr ∧ e.isOpen then { e with st := .done r } else e) })
/-- An entry has started. -/
def State.runEntry (s : State) (q : Nat) (ctr : RingCtr) (note : Nat) : State :=
  s.onSq q (fun v => { v with ents := v.ents.map (fun e => if e.ctr = ctr then { e with st := .running note } else e) })

/-- A result with nothing but a status and a detail. -/
def Res.of (status detail : Nat) : Res := { status := status, detail := detail, byteCount := 0, aux := 0, slot2 := none }
/-- An OK result with a byte count. -/
def Res.ok (bytes : Nat) : Res := { status := 0, detail := 0, byteCount := bytes, aux := 0, slot2 := none }

/-- Status codes of R223. -/
def stOK : Nat := 0
def stFLUSHED : Nat := 1
def stMALFORMED : Nat := 2
def stLOCAL : Nat := 3
def stREMOTE : Nat := 4
def stADDRESS : Nat := 5
def stTRANSPORT : Nat := 6
def stNOT_SERVING : Nat := 7
def stRESOURCE : Nat := 8
def stSTATE : Nat := 9
def stQUARANTINED : Nat := 10
def stTRUNCATED : Nat := 11
def stCANCELLED : Nat := 12
def stEP_UNAVAILABLE : Nat := 13
def stHOST_BUS : Nat := 14

/-- The queue's CQ takes completions. -/
def State.cqOpen (s : State) (c : Nat) : Bool :=
  match s.cq? c with
  | some v => v.state == .active
  | none => true

/-- The entry of a queue that may start now (R230, R232): the oldest one not started, in SERVICE or DRAIN; a fenced one
only when it is the oldest of all. -/
def State.nextEntry (s : State) (q : Nat) : Option (Sq × Ent) :=
  match s.sq? q with
  | none => none
  | some v =>
    if (s.mode = .service ∨ s.mode = .drain) ∧ v.errCode = 0 then
      match v.ents.find? (fun e => e.st == .waiting) with
      | some e =>
        if Wqe.fence e.raw ∧ (v.ents.head?.map (fun x => x.ctr)) ≠ some e.ctr then none else some (v, e)
      | none => none
    else none
/-- The same, for one opcode. -/
def State.startable (s : State) (q op : Nat) : Option (Sq × Ent) :=
  match s.nextEntry q with
  | some (v, e) => if Wqe.op e.raw = op then some (v, e) else none
  | none => none

/-! ### Doorbells (R214-R218, R241, R248) -/

/-- A discarded doorbell (R215). -/
def State.dbDrop (s : State) : State := s.bump Ctr.HIF_DB_DROP_COUNT

/-- R218, R234: an SQ doorbell value for a READY queue. -/
def State.sqBell (s : State) (q : Nat) (v : Sq) (d : RingCtr) : State :=
  let o := serialCmp d.toNat v.l.toNat 32
  if o = .equal then s
  else if o ≠ .after then (s.bump Ctr.HIF_MALFORMED_COUNT).sqError q 0x10 (some d)
  else if (d - v.c).toNat > 2 ^ v.n then (s.bump Ctr.HIF_MALFORMED_COUNT).sqError q 0x11 (some d)
  else s.setSq q { v with l := d }

/-- R209: the group that the page of BAR2 offset `off` stands for: page g of a PF is group g, page i of a VF its base + i. -/
def State.bellGroup (s : State) (f off : Nat) : Nat := off / 4096 + (if isPf f then 0 else s.g (Reg.HIF_FN_GROUPS.base f))
/-- R214: the offset lies in doorbell `k` of its page, at page offset 8k. -/
def bellAt (off k : Nat) : Bool := off % 4096 / 8 == k
/-- R215: a single aligned 64-bit write. -/
def bellWhole (off size : Nat) : Bool := off % 8 == 0 && size == 8

/-- R214, R218: SQ_DOORBELL: function `f` writes `data` of `size` bytes to offset 0x000 of a page of its BAR2. A write to an offset
that is no doorbell of the command has no effect. -/
def execSqDoorbell (f off size data : Nat) (s : State) : Host.Outcome State Fault Refusal :=
  let q := 8 * s.bellGroup f off + bits data 32 3
  if s.mode = .fenced ∨ ¬ bellAt off 0 then .next s
  else if ¬ bellWhole off size ∨ bits data 35 29 ≠ 0 ∨ ¬ s.ownsGroup f (s.bellGroup f off) then .next s.dbDrop
  else
    match s.sq? q with
    | some v =>
      if v.state = .ready ∧ v.owner = f then .next (s.sqBell q v (BitVec.ofNat 32 data)) else .next s.dbDrop
    | none => .next s.dbDrop

/-- R241: a consumer value lies from the last accepted value up to the producer. -/
def bellOk (cons v prod : RingCtr) : Bool := (v - cons).toNat ≤ (prod - cons).toNat

/-- R248: arm a CQ. -/
def State.armCq (s : State) (c : Nat) : State :=
  match s.cq? c with
  | some v => if v.prod ≠ v.cons then (s.setCq c { v with armed := false }).msixSend v.owner v.vector else s.setCq c { v with armed := true }
  | none => s

/-- R240: a CQ that is still stalled at cycle 0 of course s + stall_limit + 1 is in OVERFLOW from then on. -/
def State.cqOverflow (s : State) (c : Nat) : State :=
  match s.cq? c with
  | some v =>
    if v.state = .stalled ∧ s.since v.stallCourse ≥ max 1 (s.g Reg.HIF_CQ_CFG.stall_limit) + 1 then
      let s1 := (s.setCq c { v with state := .overflow }).bump Ctr.HIF_CQ_OVERFLOW_COUNT
      let s2 := s1.raise (srcHif 3) 0 c (some v.owner)
      (s2.hif.sqs.filter (fun e => e.2.cq = c ∧ e.2.state = .ready)).foldl (fun t e => t.sqError e.1 0x20 none) s2
    else s
  | none => s

/-- R241: the value of a CQ doorbell that reaches its CQ. -/
def State.cqBell (s : State) (c : Nat) (v : Cq) (d : RingCtr) (arm : Bool) : State :=
  if ¬ bellOk v.cons d v.prod then s.dbDrop.raise (srcHif 4) 0 c (some v.owner)
  else
    let s1 := s.setCq c { v with cons := d }
    let s2 := if d = v.cons then s1 else s1.cqDrain c
    if arm then s2.armCq c else s2

/-- R214, R240, R241: CQ_DOORBELL, at page offset 0x008; the check of a stall that has lasted too long comes before it. -/
def execCqDoorbell (f off size data : Nat) (s : State) : Host.Outcome State Fault Refusal :=
  let c := 4 * s.bellGroup f off + bits data 32 2
  if s.mode = .fenced ∨ ¬ bellAt off 1 then .next s
  else if ¬ bellWhole off size ∨ bits data 35 29 ≠ 0 ∨ ¬ s.ownsGroup f (s.bellGroup f off) then .next s.dbDrop
  else
    let t := s.cqOverflow c
    match t.cq? c with
    | none => .next t.dbDrop
    | some v => .next (if v.state = .overflow ∨ v.owner ≠ f then t.dbDrop else t.cqBell c v (BitVec.ofNat 32 data) (bit data 34))

/-- R241, R246, R248: an event-ring doorbell. -/
def State.eqBell (s : State) (r ringNo owner : Nat) (d : RingCtr) (arm : Bool) : State :=
  match Tbl.find? s.hif.eqs r with
  | none => s.dbDrop
  | some e =>
    if ¬ bellOk e.cons d e.prod then
      s.dbDrop.raise (srcHif 4) 0 ringNo (if r < 0x1000 then some owner else none) 1
    else
      let s1 := (s.setEq r { e with cons := d }).eqDrain r 4
      match Tbl.find? s1.hif.eqs r with
      | some e1 =>
        if ¬ arm then s1
        else if e1.prod ≠ e1.cons then (s1.setEq r { e1 with armed := false }).msixSend e1.owner e1.vector
        else s1.setEq r { e1 with armed := true }
      | none => s1

/-- R214, R241: EQ_DOORBELL, at page offset 0x010: the function's event ring. -/
def execEqDoorbell (f off size data : Nat) (s : State) : Host.Outcome State Fault Refusal :=
  if s.mode = .fenced ∨ ¬ bellAt off 2 then .next s
  else if ¬ bellWhole off size ∨ bits data 33 31 ≠ 0 ∨ ¬ s.ownsGroup f (s.bellGroup f off) then .next s.dbDrop
  else .next (s.eqBell f f f (BitVec.ofNat 32 data) (bit data 32))

/-- R214: DEVICE_EQ_DOORBELL, at offset 0x018 of any page of a PF's BAR2, whatever group the page stands for. -/
def execDeviceEqDoorbell (f off : Nat) (d : Data) (s : State) : Host.Outcome State Fault Refusal :=
  let r := devRing (bits d.val 32 2)
  if s.mode = .fenced ∨ ¬ bellAt off 3 then .next s
  else
    match Tbl.find? s.hif.eqs r with
    | some e =>
      if ¬ bellWhole off d.len ∨ bits d.val 35 29 ≠ 0 ∨ ¬ isPf f ∨ e.owner ≠ f then .next s.dbDrop
      else .next (s.eqBell r r f (BitVec.ofNat 32 d.val) (bit d.val 34))
    | none => .next s.dbDrop

/-- R246: EVENTS_LOST: the entry for lost events is written first when the ring has room. -/
def execEventsLost (r : Nat) (s : State) : Host.Outcome State Fault Refusal :=
  match Tbl.find? s.hif.eqs r with
  | some e =>
    if e.lost > 0 ∧ ¬ ringFull e.prod e.cons e.n then
      let x := s.src (srcHif 5)
      let entry := eventEntry s.now (srcHif 5) 0 x.seq.toNat r (min 127 e.lost)
      let s1 := (s.setEq r { e with lost := 0 }).eqPut r entry
      .next ((s1.raiseMute (srcHif 5) r (if r < 0x1000 then some r else none)).eqDrain r 4)
    else .next s
  | none => .next s

/-! ### Fetch (R228, R554) -/

/-- R228: the entries the next read of a queue covers. -/
def Sq.canFetch (v : Sq) : Nat :=
  let out := v.ents.length + v.reads.foldl (fun a r => a + r.2) 0
  min (min 8 (v.l - v.f).toNat) (min (2 ^ v.n - v.f.toNat % 2 ^ v.n) (64 - out))

/-- An entry has failed and waits to retire: fetch has stopped (R233). -/
def Sq.failed (v : Sq) : Bool :=
  v.ents.any (fun e => match e.st with | .done r => r.status != 0 | _ => false)

/-- R228: the queue may be fetched. -/
def State.mayFetch (s : State) (v : Sq) : Bool :=
  s.mode == .service && v.state == .ready && v.l != v.f && v.canFetch != 0 && s.cqOpen v.cq && !v.failed

/-- R228: WORK_FETCH: one read of the next queue in round-robin order. -/
def execWorkFetch (s : State) : Host.Outcome State Fault Refusal :=
  let ready := s.hif.sqs.filter (fun e => s.mayFetch e.2)
  match (ready.find? (fun e => s.hif.fetchTurn < e.1)).or ready.head? with
  | some (q, v) =>
    let n := v.canFetch
    let s1 := s.setSq q { v with f := v.f + BitVec.ofNat 32 n, reads := v.reads ++ [(v.f, n)], fetched := true }
    let s2 := (s1.bumpBy Ctr.HIF_FETCH_COUNT n).hostRead (hpOf v.owner) v.owner (v.base + 64 * (v.f.toNat % 2 ^ v.n)) (64 * n)
    .next { s2 with hif := { s2.hif with fetchTurn := q } }
  | none => .next s

/-! ### Retirement (R232, R233) -/

/-- Take the front entry off a queue. -/
def Sq.pop (v : Sq) : Sq := { v with ents := v.ents.drop 1 }

/-- R232, R233: retire the front entry of a queue with its result. -/
def State.retire (s : State) (q : Nat) (v : Sq) (e : Ent) (r : Res) : State :=
  if r.status = 0 ∧ ¬ Wqe.complete e.raw then s.setSq q v.pop
  else
    let p := s.cqPost v.cq ((s.entrySlot q e r) :: r.slot2.toList)
    if ¬ p.2 then p.1
    else
      let s1 := p.1.onSq q Sq.pop
      if r.status = 0 then s1 else s1.sqError q 0x01 (some e.ctr)

/-- R37, R232: ENTRY_RETIRE. -/
def execEntryRetire (q : Nat) (s : State) : Host.Outcome State Fault Refusal :=
  match s.sq? q with
  | some v =>
    match v.ents with
    | e :: _ =>
      match e.st with
      | .done r => if v.errCode = 0 ∧ s.serving ∧ s.cqOpen v.cq then .next (s.retire q v e r) else .next s
      | _ => .next s
    | [] => .next s
  | none => .next s

/-- Every fetched entry has finished: none runs and no read is out; entries of an ERROR queue that had not started are
not executed (R233). -/
def Sq.quiet (v : Sq) : Bool := v.reads.isEmpty && v.ents.all (fun e => match e.st with | .running _ => false | _ => true)

/-- The FLUSHED completion of a queue (R233, R237). -/
def State.flushedSlot (s : State) (q : Nat) (v : Sq) : Nat :=
  cqe v.lastUd (if v.lastStamp then s.now else 0) (v.f - 1).toNat 0 q 0 stFLUSHED v.lastOp 0 (b2n v.lastStamp) 0

/-- R233: the entry whose failure decides an ERROR queue's error completion: the first to fail, all before it being OK. -/
def firstFailed : List Ent → Option (Ent × Res)
  | [] => none
  | e :: t =>
    match e.st with
    | .done r => if r.status = 0 then firstFailed t else some (e, r)
    | _ => none

/-- R233, R242: the error completion that a queue in ERROR still owes: none where the queue's own failure has been reported, or
where a doorbell was its fault. -/
def State.owedError (s : State) (q : Nat) (v : Sq) : Option (List Nat) :=
  if v.errOwed then (firstFailed v.ents).map (fun x => s.entrySlot q x.1 x.2 :: x.2.slot2.toList) else none

/-- R233: write the error completion a queue owes; `false` where its CQ cannot take it. -/
def State.reportError (s : State) (q : Nat) (v : Sq) : State × Bool :=
  match s.owedError q v with
  | some slots =>
    let p := s.cqPost v.cq slots
    if p.2 then (p.1.onSq q (fun w => { w with errOwed := false }), true) else p
  | none => (s, true)

/-- R233: FLUSH_COMPLETION: once every fetched entry has finished; an error completion that is owed goes before it. -/
def execFlushCompletion (q : Nat) (s : State) : Host.Outcome State Fault Refusal :=
  match s.sq? q with
  | some v =>
    if v.flushDue ∧ v.quiet ∧ s.serving ∧ s.cqOpen v.cq then
      let e := s.reportError q v
      if e.2 then
        let p := e.1.cqPost v.cq [e.1.flushedSlot q v]
        if p.2 then .next (p.1.onSq q (fun w => { w with flushDue := false, errOwed := false, ents := [] })) else .next p.1
      else .next e.1
    else .next s
  | none => .next s

/-- R240: CQ_OVERFLOW. -/
def execCqOverflow (c : Nat) (s : State) : Host.Outcome State Fault Refusal := .next (s.cqOverflow c)

end Sys2Proof.Machine
end

