-- ==== Sys2Proof/Machine/Col.lean ====
section
/-! DEFINITION. The trees of the collective engine (spec/13): entries, reservations, members, and the entry of a tree
into ERROR. The meanings of the collective commands are in Machine/ColCmd.lean. -/
namespace Sys2Proof.Machine

/-! ### Tree entries (R407, R409) -/

def State.treeValid (s : State) (set t : Nat) : Bool := s.gs set (Reg.COL_TREE.valid t) == 1
def State.treeRoot (s : State) (set t : Nat) : Bool := s.gs set (Reg.COL_TREE.is_root t) == 1
def State.treeGen (s : State) (set t : Nat) : Nat := s.gs set (Reg.COL_TREE.gen t)
def State.treeParent (s : State) (set t : Nat) : Nat := s.gs set (Reg.COL_TREE.parent_port t)
def State.treeMask (s : State) (set t : Nat) : Nat :=
  s.gs set (Reg.COL_TREE.child_lo t) + s.gs set (Reg.COL_TREE.child_hi t) * 2 ^ 32
/-- The child ports, ascending (R410). -/
def State.treeChildren (s : State) (set t : Nat) : List Nat := (List.range 64).filter (fun p => bit (s.treeMask set t) p)
/-- The ports of an entry. -/
def State.treePorts (s : State) (set t : Nat) : List Nat :=
  (List.range 64).filter (fun p => bit (s.treeMask set t) p || (!s.treeRoot set t && s.treeParent set t == p))
/-- W (R421). -/
def State.treeWindow (s : State) (set t : Nat) : Nat := max 1 (s.gs set (Reg.COL_TREE.window t))
/-- R409: the inputs of an entry. -/
def State.treeInputs (s : State) (set t : Nat) : Nat :=
  popcount (s.treeMask set t) 64 + s.gs set (Reg.COL_TREE.local_count t)
/-- R409: the slots an entry reserves. -/
def State.treeSlots (s : State) (set t : Nat) : Nat :=
  if s.gs set (Reg.COL_TREE.valid t) = 1 ∧ s.gs set (Reg.COL_TREE.data t) = 1 then (s.treeWindow set t + 1) * s.treeInputs set t else 0
/-- Words 0 to 4 are equal in both sets (R409). -/
def State.treeSame (s : State) (t : Nat) : Bool :=
  (List.range 5).all (fun w => s.setW 0 (Reg.COL_TREE.off t + 4 * w) == s.setW 1 (Reg.COL_TREE.off t + 4 * w))
/-- The trees that can have an entry in a set. -/
def State.someTrees (s : State) : List Nat :=
  s.listed 0 (Reg.COL_TREE.off 0) 32 4096 (s.listed 1 (Reg.COL_TREE.off 0) 32 4096 [])
/-- R409: slots reserved by both sets. -/
def State.slotsReserved (s : State) : Nat :=
  s.someTrees.foldl (fun a t => a + s.treeSlots 0 t + (if s.treeSame t then 0 else s.treeSlots 1 t)) 0

/-! ### Trees, members, operations, chunks -/

def State.colTree (s : State) (t : Nat) : ColTree := Tbl.get (fun _ => ColTree.reset) s.col.trees t
def State.setColTree (s : State) (t : Nat) (v : ColTree) : State :=
  { s with col := { s.col with trees := Tbl.put (fun _ => ColTree.reset) s.col.trees t v } }
def memberKey (t ep : Nat) : Nat := t * 65536 + ep
/-- The members of a tree, in ascending endpoint number (R410). -/
def State.joined (s : State) (t : Nat) : List Nat :=
  (s.col.members.filter (fun e => e.1 / 65536 == t)).map (fun e => e.1 % 65536)
/-- Slots a chunk of a tree with data holds (R423). -/
def ColChunk.slots (c : ColChunk) : Nat := b2n (!c.folded.isEmpty) + c.stored.length
/-- COL_STATUS.slots_in_use: a tree without data holds none. -/
def State.slotsInUse (s : State) (p : ColChunk → Bool) : Nat :=
  (s.col.chunks.filter (fun c => p c && s.gs c.set (Reg.COL_TREE.data c.tree) == 1)).foldl (fun a c => a + c.slots) 0
/-- An operation of the tree is open at this device (R412). -/
def State.treeOpen (s : State) (t : Nat) : Bool :=
  s.col.ops.any (fun o => o.tree == t) || s.col.chunks.any (fun c => c.tree == t)

/-! ### ERROR (R434, R435) -/

/-- R414: the routing header of a collective packet for the neighbour on a port. -/
def State.colHdr (s : State) (t set port type vc len : Nat) : Nat :=
  HdrIn.make { dst := (s.neighbour port).getD 0, dstHp := 0, src := s.me, srcHp := 0, vc := vc, setTag := set, ordered := 0, nonmin := 0,
               intWall := 0, birth := s.course % 65536, len := len, type := type, colour := 0, flow := t }

/-- R434: COL_ABORT on one port. -/
def State.sendAbort (s : State) (t set reason origin port : Nat) : State :=
  s.hubTo 6 (some port) (mkPacket (s.colHdr t set port 0x22 7 1)
    (Data.ofNat 48 (packB [(0, 12, t), (2, 8, s.treeGen set t), (21, 16, reason), (24, 20, origin)])))

/-- The function that owns an endpoint. -/
def State.colOwner (s : State) (ep : Nat) : Option Nat := (s.ep? ep).map (fun e => e.owner)

/-- R434 step 5: the tree-error event, to the rings of the members' functions and to the device ring. -/
def State.treeEvent (s : State) (t reason : Nat) : State :=
  let fs := ((s.joined t).filterMap s.colOwner).foldl setAdd []
  let x := s.src (srcCol 0)
  let s1 := if x.eventEn then fs.foldl (fun u f => u.eqPost f (eventEntry s.now (srcCol 0) 0 x.seq.toNat t (reason % 128))) s else s
  s1.raise (srcCol 0) 0 t none (reason % 128)

/-- The result of a COL_OP that its tree's ERROR ends (R434, R436). -/
def colFail (reason : Nat) : Res := Res.of stTRANSPORT reason

/-- R434: what a tree does as it enters ERROR, for an event that concerns its entry in `set`, beside raising its source;
`from_` is the port an abort arrived on. -/
def State.treeFail (s : State) (t set reason origin : Nat) (from_ : Option Nat) : State :=
    let x := s.colTree t
    let s1 := s.setColTree t { x with error := true, reason := reason, course := s.crs.course, origin := origin, resume := none }
    let mine := s1.col.ops.filter (fun o => o.tree == t)
    let s2 := { s1 with col := { s1.col with chunks := s1.col.chunks.filter (fun c => c.tree != t), ops := s1.col.ops.filter (fun o => o.tree != t),
                                             opens := Tbl.keep (fun k _ => k / 2 ^ 24 != t) s1.col.opens } }
    let s3 := ((s.treePorts set t).filter (fun p => s.up p && some p != from_)).foldl (fun u p => u.sendAbort t set reason origin p) s2
    let s4 := mine.foldl (fun u o => u.finishEntry o.q o.ctr (colFail reason)) s3
    s4.bump Ctr.COL_TREE_ERROR_COUNT
/-- R434: a tree enters ERROR. -/
def State.treeError (s : State) (t set reason origin : Nat) (from_ : Option Nat) : State :=
  if (s.colTree t).error then s else (s.treeFail t set reason origin from_).treeEvent t reason

/-- R434: a port enters DOWN while COL runs: every tree whose entry in either set names it enters ERROR. -/
def State.colPortDown (s : State) (p : Nat) : State :=
  if s.live then
    s.someTrees.foldl (fun u t =>
      if u.treeValid u.crs.active t && (u.treePorts u.crs.active t).contains p then u.treeError t u.crs.active 0x0C01 u.me none
      else if u.treeValid (1 - u.crs.active) t && (u.treePorts (1 - u.crs.active) t).contains p then
        u.treeError t (1 - u.crs.active) 0x0C01 u.me none
      else u) s
  else s

/-- R412: an endpoint leaves a tree: its record is freed, and an open operation fails the tree. -/
def State.colLeave (s : State) (t ep : Nat) : State :=
  let s1 := { s with col := { s.col with members := Tbl.del s.col.members (memberKey t ep) } }
  if s1.treeOpen t then s1.treeError t s1.crs.active 0x0C02 s1.me none else s1
/-- R412: an endpoint that is destroyed or reset leaves every tree. -/
def State.colLeaveAll (s : State) (ep : Nat) : State :=
  ((s.col.members.filter (fun e => e.1 % 65536 == ep)).map (fun e => e.1 / 65536)).foldl (fun u t => u.colLeave t ep) s

/-- R412, R411: at a swap a tree whose active entry changed gen, or came into use, begins anew: its member records are
freed, and its stream starts at csn 0. `before` is its former active entry: valid and gen. -/
def State.colSwapTree (s : State) (t : Nat) (before : Bool × Nat) : State :=
  let now := (s.gs s.crs.active (Reg.COL_TREE.valid t) == 1, s.treeGen s.crs.active t)
  let s1 := { s with col := { s.col with badTrees := setDel s.col.badTrees t } }
  if now = before then s1
  else
    let s2 := { s1 with col := { s1.col with members := Tbl.keep (fun k _ => k / 65536 != t) s1.col.members } }
    if now.1 then s2.setColTree t ColTree.reset else s2

end Sys2Proof.Machine
end

