-- ==== Sys2Proof/Machine/Fec.lean ====
section
/-! DEFINITION. Lane coding (R2, R81, R82, R93, R107): the field GF(2^10), RS(544,514), PAM4 Gray mapping, the scrambler, the two
PRBS patterns and the training frame. The field polynomial, the generator's roots, the order of bits in symbols, the Gray pairs and the
PRBS polynomials are those of IEEE 802.3 (PRESUMED, notes/assumptions/85). -/
namespace Sys2Proof.Machine

/-! ### GF(2^10) with x^10 + x^3 + 1 -/

/-- A product of the field. -/
def rsMul (a b : Nat) : Nat :=
  let p := (List.range 10).foldl (fun acc i => if b.testBit i then acc ^^^ (a <<< i) else acc) 0
  [8, 7, 6, 5, 4, 3, 2, 1, 0].foldl (fun acc i => if acc.testBit (10 + i) then acc ^^^ (0x409 <<< i) else acc) p
/-- A power of an element. -/
def rsPow (a : Nat) : Nat → Nat
  | 0 => 1
  | n + 1 => rsMul (rsPow a n) a
/-- The inverse of an element other than 0: its power 2^10 − 2, by squaring. -/
def rsInv (a : Nat) : Nat :=
  let sq := (List.range 9).foldl (fun (e : Nat × Nat) _ => let s := rsMul e.1 e.1; (s, rsMul e.2 s)) (a, 1)
  sq.2
/-- The powers of the primitive element, `n` of them from the 0th. -/
def rsPowers (n : Nat) : List Nat := ((List.range n).foldl (fun (e : List Nat × Nat) _ => (e.2 :: e.1, rsMul e.2 2)) ([], 1)).1.reverse
/-- The value of a polynomial, constant term first. -/
def rsEval (p : List Nat) (x : Nat) : Nat := p.foldr (fun c acc => rsMul acc x ^^^ c) 0
/-- The sum of two polynomials. -/
def rsAdd : List Nat → List Nat → List Nat
  | [], b => b
  | a, [] => a
  | x :: a, y :: b => (x ^^^ y) :: rsAdd a b

/-! ### RS(544,514) (R81) -/

/-- The generator polynomial, highest power first, without its leading 1: roots are the powers 0 to 29 of the primitive element. -/
def rsGen : List Nat :=
  ((rsPowers 30).foldl (fun g r => rsAdd (0 :: g) (g.map (rsMul r))) [1]).reverse.drop 1
/-- The 30 parity symbols of 514 message symbols, in order of transmission. -/
def rsParity (m : List Nat) : List Nat :=
  m.foldl (fun reg d =>
    let f := d ^^^ reg.headD 0
    List.zipWith (fun a g => a ^^^ rsMul f g) (reg.drop 1 ++ [0]) rsGen) (List.replicate 30 0)
/-- The codeword of 514 message symbols. -/
def rsEncode (m : List Nat) : List Nat := m ++ rsParity m
/-- The 30 syndromes of 544 symbols. -/
def rsSyndromes (c : List Nat) : List Nat := (rsPowers 30).map (fun r => c.foldl (fun acc x => rsMul acc r ^^^ x) 0)

/-- The Berlekamp–Massey registers: locator, former locator, its degree, shift, former discrepancy. -/
structure Bm where
  c : List Nat
  b : List Nat
  l : Nat
  m : Nat
  d : Nat
/-- One step of Berlekamp–Massey on syndrome `n`. -/
def Bm.step (s : List Nat) (x : Bm) (n : Nat) : Bm :=
  let d := (List.range (x.l + 1)).foldl (fun acc i => acc ^^^ rsMul (x.c.getD i 0) (s.getD (n - i) 0)) 0
  if d = 0 then { x with m := x.m + 1 }
  else
    let c := rsAdd x.c (List.replicate x.m 0 ++ x.b.map (rsMul (rsMul d (rsInv x.d))))
    if 2 * x.l ≤ n then ⟨c, x.c, n + 1 - x.l, 1, d⟩ else { x with c := c, m := x.m + 1 }
/-- The error locator of a list of syndromes, and its degree. -/
def rsLocator (s : List Nat) : List Nat × Nat :=
  let x := (List.range 30).foldl (Bm.step s) ⟨[1], [1], 0, 1, 1⟩
  (x.c, x.l)
/-- The error values: powers of the positions in error and what is added to each (Forney). -/
def rsErrors (s loc : List Nat) : List (Nat × Nat) :=
  let inv := rsPowers 1024
  let omega := ((List.range 30).map (fun k =>
    (List.range (k + 1)).foldl (fun acc i => acc ^^^ rsMul (loc.getD i 0) (s.getD (k - i) 0)) 0))
  let deriv := (List.range loc.length).map (fun i => if i % 2 = 0 then loc.getD (i + 1) 0 else 0)
  (List.range 544).filterMap (fun k =>
    let xi := inv.getD ((1023 - k) % 1023) 0
    if rsEval loc xi = 0 then some (k, rsMul (inv.getD k 0) (rsMul (rsEval omega xi) (rsInv (rsEval deriv xi)))) else none)
/-- R81: decode 544 symbols: the number corrected and the codeword, or none when it is uncorrectable. -/
def rsDecode (c : List Nat) : Option (Nat × List Nat) :=
  let s := rsSyndromes c
  if s.all (fun x => x == 0) then some (0, c)
  else
    let l := rsLocator s
    let e := rsErrors s l.1
    if l.2 ≤ 15 ∧ e.length = l.2 then
      let f := (List.range 544).map (fun i => c.getD i 0 ^^^ ((e.find? (fun x => x.1 == 543 - i)).map Prod.snd).getD 0)
      if (rsSyndromes f).all (fun x => x == 0) then some (l.2, f) else none
    else none

/-- Symbols of ten bits as a number, the first symbol lowest. -/
def symbolsToNat (l : List Nat) : Nat := l.foldr (fun x acc => x % 1024 + 1024 * acc) 0
/-- The first `n` ten-bit symbols of a number. -/
def natToSymbols (n x : Nat) : List Nat := (List.range n).map (fun i => bits x (10 * i) 10)
/-- R81, R82: the twenty 257-bit blocks that 514 message symbols carry, block 0 first. -/
def blocksOf (m : List Nat) : List Nat := (List.range 20).map (fun i => bits (symbolsToNat (m.take 514)) (257 * i) 257)
/-- The 514 message symbols that carry twenty blocks. -/
def messageOf (blocks : List Nat) : List Nat := natToSymbols 514 (blocks.foldr (fun b acc => b % 2 ^ 257 + acc <<< 257) 0)

/-! ### PAM4 (R81) -/

/-- A 1 in the low bit of each of `n` bit pairs. -/
def evenMask (n : Nat) : Nat := (4 ^ n - 1) / 3
/-- Gray mapping of `n` bit pairs, the earlier bit of each lower: levels of two bits, the first level lowest. -/
def grayLevels (n x : Nat) : Nat :=
  let a := x &&& evenMask n
  let b := (x >>> 1) &&& evenMask n
  (a ^^^ b) ||| (a <<< 1)
/-- The bit pairs that `n` levels stand for. -/
def grayBits (n l : Nat) : Nat :=
  let hi := (l >>> 1) &&& evenMask n
  let lo := l &&& evenMask n
  hi ||| ((hi ^^^ lo) <<< 1)
/-- `n` levels with their polarity inverted, if it is. -/
def invertLevels (inv : Bool) (n l : Nat) : Nat := if inv then l ^^^ (4 ^ n - 1) else l
/-- UI of a codeword. -/
def codewordUi : Nat := 2720

/-! ### The scrambler x^58 + x^39 + 1 (R82) -/

/-- Scramble one block's payload: what goes out, and the last 58 bits sent. -/
def scramble (st payload : Nat) : Nat × Nat :=
  (List.range 256).foldl (fun a i =>
    let o := xor (payload.testBit i) (xor (a.2.testBit 38) (a.2.testBit 57))
    (a.1 + (b2n o) <<< i, (a.2 * 2 + b2n o) % 2 ^ 58)) (0, st)
/-- Descramble one block's payload: the clear bits, and the last 58 bits received. -/
def descramble (st payload : Nat) : Nat × Nat :=
  (List.range 256).foldl (fun a i =>
    let b := payload.testBit i
    let o := xor b (xor (a.2.testBit 38) (a.2.testBit 57))
    (a.1 + (b2n o) <<< i, (a.2 * 2 + b2n b) % 2 ^ 58)) (0, st)
/-- The XOR of a payload's bytes, as the lane carries them: bip of one block (R88). That the payload is taken scrambled is the model's
choice (DESIGN CHOICE, notes/assumptions/85). -/
def blockBip (payload : Nat) : Nat := (List.range 32).foldl (fun a i => a ^^^ bits payload (8 * i) 8) 0

/-! ### PRBS13Q and PRBS31Q (R2, R93, R107) -/

/-- The next bit of a pattern (false PRBS13, true PRBS31, which is sent inverted), from the last 31 bits sent, the latest lowest. -/
def prbsBit (p31 : Bool) (reg : Nat) : Bool :=
  if p31 then !(xor (reg.testBit 27) (reg.testBit 30))
  else xor (xor (reg.testBit 0) (reg.testBit 1)) (xor (reg.testBit 11) (reg.testBit 12))
/-- A register after one more bit. -/
def prbsPush (reg : Nat) (b : Bool) : Nat := (reg * 2 + b2n b) % 2 ^ 31
/-- The level of a bit pair, the earlier bit first. -/
def pairLevel (a b : Bool) : Nat := 2 * b2n a + b2n (xor a b)
/-- The next level of a pattern, and the register after it. -/
def prbsNext (p31 : Bool) (reg : Nat) : Nat × Nat :=
  let a := prbsBit p31 reg
  let r := prbsPush reg a
  let b := prbsBit p31 r
  (pairLevel a b, prbsPush r b)
/-- `n` levels of a pattern, and the register after them. -/
def prbsRun (p31 : Bool) (reg n : Nat) : List Nat × Nat :=
  let r := (List.range n).foldl (fun (e : List Nat × Nat) _ => let x := prbsNext p31 e.2; (x.1 :: e.1, x.2)) ([], reg)
  (r.1.reverse, r.2)

/-! ### Training frames (R93) -/

/-- The levels of one field bit in 4 UI. -/
def fieldBitLevels (b : Bool) : List Nat := if b then [3, 3, 0, 0] else [0, 0, 3, 3]
/-- The 64 UI of the frame marker. -/
def frameMarker : List Nat := List.replicate 16 3 ++ List.replicate 16 0 ++ List.replicate 16 3 ++ List.replicate 16 0
/-- The 4,096 levels of a frame with these fields, and the register of its free-running PRBS13Q after it. -/
def frameLevels (request status reg : Nat) : List Nat × Nat :=
  let field (x : Nat) : List Nat := (List.range 32).flatMap (fun i => fieldBitLevels (x.testBit i))
  let tail := prbsRun false reg 3776
  (frameMarker ++ field request ++ field status ++ tail.1, tail.2)

end Sys2Proof.Machine
end

