-- ==== Sys2Proof/Machine/LaneTx.lean ====
section
/-! DEFINITION. What a lane's transmitter puts on the wire (spec/03): bricks striped over lanes, data blocks, markers and codewords
(R81-R83, R88, R89). -/
namespace Sys2Proof.Machine

/-- A lane's index in its port. -/
def laneIdx (n : Nat) : Nat := n % 2
/-- The lane sends codewords: it is in DATA, or its transmitter has begun data and its receiver has not locked yet (R97). -/
def Lane.sends (l : Lane) : Bool := l.st == .data || (l.st == .taps && l.txData)
/-- Levels as they leave a lane's transmitter: LAN_LN_CTRL.tx_invert inverts their polarity. -/
def State.txLevels (s : State) (n count levels : Nat) : Nat := invertLevels (s.g (Reg.LAN_LN_CTRL.tx_invert n) == 1) count levels

/-! ### Codewords (R81, R82, R108) -/

/-- `k` distinct symbols of a codeword, drawn free, each with what is added to it, drawn free and never 0 (R108). -/
def State.drawErrors (s : State) : Nat → List Nat → List (Nat × Nat) → List (Nat × Nat) × State
  | 0, _, got => (got, s)
  | k + 1, rest, got =>
    let d := s.draw
    let e := d.2.draw
    let i := d.1 % max 1 rest.length
    State.drawErrors e.2 k (rest.eraseIdx i) (got ++ [(rest.getD i 0, 1 + e.1 % 1023)])

/-- Symbols with errors added. -/
def addErrors (c : List Nat) (errs : List (Nat × Nat)) : List Nat :=
  errs.foldl (fun c e => c.set e.1 (c.getD e.1 0 ^^^ e.2)) c

/-- R81, R108: a codeword of twenty blocks goes out, with the symbols that FEC injection corrupts. -/
def State.putCodeword (s : State) (n : Nat) (blocks : List Nat) : State :=
  let l := s.ln n
  let d := if s.g (Reg.LAN_LN_FEC_INJECT.continuous n) = 1 ∧ l.corrupt = [] then
      s.drawErrors (s.g (Reg.LAN_LN_FEC_INJECT.symbols n)) (List.range 544) []
    else (l.corrupt, s)
  let c := addErrors (rsEncode (messageOf blocks)) d.1
  (d.2.emit (.codeword n (s.txLevels n codewordUi (grayLevels codewordUi (symbolsToNat c))))).setLn n { l with txBlocks := [], corrupt := [] }

/-- A block joins the codeword being sent. -/
def State.putBlock (s : State) (n block : Nat) : State :=
  let b := (s.ln n).txBlocks ++ [block]
  if b.length < 20 then s.setLn n { s.ln n with txBlocks := b } else s.putCodeword n b

/-- R82, R88: 32 bytes go out scrambled as a data block. -/
def State.dataBlock (s : State) (n payload : Nat) : State :=
  let l := s.ln n
  let r := scramble l.scr payload
  (s.setLn n { l with scr := r.2, txBip := l.txBip ^^^ blockBip r.1 }).putBlock n (1 + r.1 <<< 1)

/-- R83: bytes fill the payload of data blocks back to back. -/
def State.laneData (s : State) (n : Nat) (d : Data) : State :=
  let x := (s.ln n).txPart.append d
  let k := x.len / 32
  let s1 := s.setLn n { s.ln n with txPart := x.slice (32 * k) (x.len % 32) }
  (List.range k).foldl (fun t i => t.dataBlock n (x.slice (32 * i) 32).val) s1

/-- R83: bytes left in the codeword being sent, or about to be sent while bytes wait. -/
def Lane.room (l : Lane) : Nat :=
  if l.txBlocks.isEmpty && l.txPart.len == 0 then 0 else 32 * (20 - l.txBlocks.length) - l.txPart.len

/-- R83: the rest of a codeword before a marker is fill. That fill is zeros is the model's choice (DESIGN CHOICE,
notes/assumptions/85). -/
def State.fillCodeword (s : State) (n : Nat) : State :=
  let part := (s.ln n).txPart
  let s1 := if part.len = 0 then s else (s.setLn n { s.ln n with txPart := Data.empty }).dataBlock n part.val
  (List.range 20).foldl (fun t _ => if (t.ln n).txBlocks.isEmpty then t else t.dataBlock n 0) s1

/-! ### Bricks (R83) -/

/-- R83: the lane that the next brick of a port goes to: the one whose turn it is, or the only one in use. -/
def State.brickLane (s : State) (p : Nat) : Nat :=
  laneOf p (if (s.pp p).txMask = 3 then (s.pp p).stripe else (s.pp p).txMask - 1)
/-- R83, R101, R102: a brick goes whole to the lane whose turn it is; on a lane that sends codewords no more it is lost. -/
def State.layBrick (s : State) (p : Nat) (d : Data) : State :=
  let q := s.pp p
  if q.txMask = 0 then s
  else
    let n := s.brickLane p
    let s1 := if q.txMask = 3 then s.setPp p { q with stripe := 1 - q.stripe } else s
    if (s1.ln n).sends then s1.laneData n d else s1

/-- A brick of 72 bytes leaves a port, and is counted. -/
def State.putBrick (s : State) (p : Nat) (d : Data) : State :=
  ((s.emit (.brick p d)).layBrick p d).bump (Ctr.LNK_TX_BRICK_COUNT p)

/-! ### Markers (R88, R89) -/

/-- The lane delivers a marked stream. -/
def Lane.locked (l : Lane) : Bool := l.st == .data && l.fecLock && l.markerLock
/-- It does, with the lane index `i` of its sender. -/
def Lane.gives (l : Lane) (i : Nat) : Bool := l.locked && l.farIndex == i
/-- R92: the lane of a port that receives lane index `i`: the one whose marker says so. While both lanes give the same index, and while
none gives this one, the lane of that number stands for it (DESIGN CHOICE, notes/assumptions/85). -/
def State.rxLane (s : State) (p i : Nat) : Nat :=
  let a := (s.ln (laneOf p 0)).gives i
  let b := (s.ln (laneOf p 1)).gives i
  if a && !b then laneOf p 0 else if b && !a then laneOf p 1 else laneOf p i
/-- The indices this receiver merges (R91, R92, R101, R99), numbered as their sender numbers them. Index 1 stays out after a skew error
until skew_err is cleared (DESIGN CHOICE, notes/assumptions/85). -/
def State.ownAccept (s : State) (p : Nat) : Nat :=
  let ok (i : Nat) : Nat := let l := s.ln (s.rxLane p i); b2n (l.locked && (l.farIndex == i || (s.pp p).farMismatch))
  let one := (s.pp p).skewErr || (s.pp p).farMismatch || s.mode == .strap
  ok 0 + (if one then 0 else 2 * ok 1)

/-- The 257 bits of a marker (R88). -/
def Marker.toNat (m : Marker) : Nat :=
  let x := pack [(1, 8, 0x5C), (9, 64, 0xC33CC33CC33CC33C), (73, 2, m.laneIndex), (75, 20, m.device), (95, 6, m.port),
    (101, 2, m.txMask), (103, 2, m.rxAccept), (105, 2, m.sleepMask), (107, 1, b2n m.early), (108, 16, m.count), (124, 8, m.bip)]
  x + markerCrc x <<< 132

/-- Send a marker as block 0 of the next codeword of a lane; it restarts the count of 16,384 codewords (R89). -/
def State.sendMarker (s : State) (n : Nat) (early : Bool) : State :=
  let p := n / 2
  let s1 := s.fillCodeword n
  let l := s1.ln n
  let m : Marker := { laneIndex := laneIdx n, device := s.me, port := p, txMask := (s.pp p).txMask, rxAccept := s.ownAccept p,
                      sleepMask := s.g (Reg.LAN_PT_CTRL.sleep_mask p), early := early, count := l.txCount, bip := l.txBip }
  (s1.emit (.laneMarker n m.toNat)).setLn n
    { l with markerFrom := s.cycles, txCount := (l.txCount + 1) % 65536, txBip := 0, txBlocks := [m.toNat] }

/-- R89: the next regular marker of a lane is due: 16,384 codewords of 32 core cycles after its last marker. -/
def State.markerTime (s : State) (n : Nat) : Bool := decide (s.cycles ≥ (s.ln n).markerFrom + 16384 * 32)

/-- Send markers on every lane of a port that sends codewords, each early if its regular count has not been reached; striping restarts at
index 0 (R83, R88, R89). -/
def State.sendMarkers (s : State) (p : Nat) : State :=
  let one (t : State) (i : Nat) : State :=
    if (t.ln (laneOf p i)).sends then t.sendMarker (laneOf p i) (!t.markerTime (laneOf p i)) else t
  let s1 := one (one s 0) 1
  s1.setPp p { s1.pp p with stripe := 0 }

end Sys2Proof.Machine
end

