-- ==== Sys2Proof/Machine/Link.lean ====
section
/-! DEFINITION. The link engine: bricks, sequencing, replay, credits, stop/go, link states and initialisation (spec/04),
with the meanings of the link commands. -/
namespace Sys2Proof.Machine

/-- A brick's 72 bytes (R112, R113). -/
def brickBytes (type seq ack : Nat) (body : Data) : Data :=
  let x := setBits (body.val % 2 ^ 512) 512 32 (pack [(0, 4, type), (4, 14, seq), (18, 14, ack)])
  ⟨72, setBits x 544 32 (crc32c x 68)⟩

/-- Send a brick and count it. -/
def State.sendBrick (s : State) (p type seq : Nat) (body : Data) : State :=
  let ack := ((s.lk p).expected - 1).toNat
  s.putBrick p (brickBytes type seq ack body)

/-- The link engine may run in this mode (R137). -/
def State.linkMode (s : State) (p : Nat) : Bool :=
  s.mode == .train || s.live || (s.mode == .strap && s.bootPort p)
/-- Mode and enable permit (R137). -/
def State.linkPermit (s : State) (p : Nat) : Bool := s.linkMode p && s.g (Reg.LNK_CTRL.enable p) == 1

/-- Begin an INIT exchange (R137, R142). The tag of the last INIT received stays, of whichever phase it was. -/
def Lnk.exchange (l : Lnk) (resume : Bool) : Lnk :=
  { l with st := .init, initResume := resume, initHeard := false, readySent := 0, readyHeard := none, samples := 0, probes := [],
           nakOut := false, nakDue := false, moved := true }
/-- Enter INIT (R137). A boot link in STRAP, where one course 0 lasts, has its course mark due from then on (R122; DESIGN CHOICE,
notes/assumptions/86). -/
def State.startInit (s : State) (p : Nat) (resume : Bool) : State :=
  s.onLk p (fun l => { l.exchange resume with initAt := s.nowAt, markDue := l.markDue || s.mode == .strap })

/-- A resume re-initialisation from UP (R125, R132, R137). -/
def State.reinit (s : State) (p : Nat) : State := if (s.lk p).st = .up then s.startInit p true else s

/-- R102, R137: a change of width re-initialises an UP link and restarts the exchange of one in INIT, which has been in INIT since it
entered it: its time limit goes on (DEDUCED, notes/assumptions/86). -/
def State.widthChange (s : State) (p : Nat) : State :=
  match (s.lk p).st with
  | .up => s.startInit p true
  | .init => s.onLk p (fun l => l.exchange l.initResume)
  | _ => s

/-- A protocol error: counted, raised, and a resume re-initialisation begun (R125, R132). -/
def State.protoError (s : State) (p : Nat) : State :=
  ((s.bump (Ctr.LNK_PROTO_ERR_COUNT p)).raise (srcLnk p 3) 0 p).reinit p

/-- R552: the packet partway out on a port is abandoned; one of which no brick has been sent gives the output up and stays queued. -/
def State.abandon (s : State) (p : Nat) : State :=
  match (s.outSt p).cur with
  | none => s
  | some (i, id) =>
    let s1 := (s.setOut p { s.outSt p with cur := none }).onLk p (fun l => { l with txPkt := false })
    match s1.pkt? i id with
    | some k => if k.left_ = 0 then s1 else (s1.bump (Ctr.LNK_ABORT_COUNT p)).discard i k
    | none => s1

/-- Discard the replay buffer, counted (R145, R146). -/
def State.dropReplay (s : State) (p : Nat) : State :=
  let n := (s.lk p).replay.length
  (s.bumpBy (Ctr.LNK_DOWN_DISCARD_COUNT p) n).onLk p (fun l => { l with replay := [], replaying := false, replayRun := 0, timerFrom := none })

/-- A packet in progress on input is aborted (R119, R145, R146). The reason 0x1 serves a fresh initialisation too, for which R119 names
none (DESIGN CHOICE, notes/assumptions/86). -/
def State.abortInput (s : State) (p : Nat) : State :=
  match s.inProgress p with
  | some k => s.abortIn p k 1
  | none => s

/-- R146: entry to DOWN with a cause; the parent is given up when its link goes down (R58), and the trees of
the port enter ERROR (R434). -/
def State.linkDown (s : State) (p cause : Nat) : State :=
  let s1 := ((s.dropReplay p).abortInput p).abandon p
  let s2 := s1.onLk p (fun l => { l with st := .down, downCause := cause, downAt := s.nowAt,
                                          waitHoldoff := cause != 6 && cause != 3, waitPhy := cause == 3,
                                          nakOut := false, nakDue := false })
  let s3 := (s2.bump (Ctr.LNK_DOWN_COUNT p)).level (srcLnk p 5) true p
  let s4 := (if cause = 3 then { s3 with rte := { s3.rte with dead := setAdd s3.rte.dead p } } else s3).colPortDown p
  s4.markLinkDown p

/-- R135: headroom from the rtt just measured (1/16 cycle; 28.8 units are 1.44 ns). -/
def State.setHeadroom (s : State) (p : Nat) : State :=
  if s.g (Reg.LNK_POOL_CFG.auto p) = 1 then
    let h := ceilDiv ((s.lk p).rtt * 10) 288 + 2 + 65
    if h > 4096 then
      let s1 := (s.put (Reg.LNK_POOL_CFG.headroom p) 4096).onLk p (fun l => { l with reach := true })
      s1.raise (srcLnk p 4) 0 p
    else s.put (Reg.LNK_POOL_CFG.headroom p) h
  else s

/-- Renumber bricks from 0 (R144). -/
def renumber : List TxBrick → Nat → List TxBrick
  | [], _ => []
  | b :: t, n => { b with seq := BitVec.ofNat 14 n } :: renumber t (n + 1)

/-- What entry to UP sets in both forms (R123). LNK_STATUS.down_cause returns to none here (DESIGN CHOICE, notes/assumptions/86: no rule
clears it). -/
def Lnk.enterUp (l : Lnk) (resumed : Bool) : Lnk :=
  { l with st := .up, resumed := resumed, acked := 0x3FFF, expected := 0, nakOut := false, nakDue := false, rxAny := false,
           downCause := 0 }

/-- R144: both ends resume. -/
def State.upResume (s : State) (p : Nat) (rxLast : Nat) (valid : Bool) : State :=
  let l := s.lk p
  let kept := if valid then l.replay.dropWhile (fun b => serialLe b.seq.toNat rxLast 14) else l.replay
  let r := renumber kept 0
  let l1 := { l.enterUp true with replay := r, next := BitVec.ofNat 14 r.length, replayAt := 0, replaying := !r.isEmpty,
                                   timerFrom := if r.isEmpty then none else some s.cycles }
  ((s.setLk p l1).bump (Ctr.LNK_REINIT_COUNT p)).bumpIf (!r.isEmpty) (Ctr.LNK_REPLAY_COUNT p)

/-- R145: a fresh initialisation. -/
def State.upFresh (s : State) (p : Nat) : State :=
  let s1 := ((s.dropReplay p).abortInput p).abandon p
  s1.onLk p (fun l => { l.enterUp false with next := 0, returned := zeros 8, sentReturned := zeros 8, farReturned := zeros 8,
                                              charged := l.farUsed })

/-- R137: the INIT exchange is complete, and the link enters UP. The condition of the link-down source ends here, so that a link that goes
from INIT to DOWN again latches no second event (DESIGN CHOICE, notes/assumptions/86: R146 does not say when it ends). -/
def State.tryUp (s : State) (p : Nat) : State :=
  let l := s.lk p
  match l.readyHeard with
  | none => s
  | some (res, rxLast, valid) =>
    if l.st = .init ∧ l.readySent ≥ 8 ∧ l.samples ≥ 8 then
      let s1 := if res && l.initResume then s.upResume p rxLast valid else s.upFresh p
      ((s1.level (srcLnk p 5) false p).setHeadroom p).poolOff p
    else s

/-! ### Receiving -/

/-- Every valid brick is counted, in every state of the link, and resets the keep-alive count (R139, R147). -/
def State.validBrick (s : State) (p : Nat) : State :=
  (s.bump (Ctr.LNK_RX_BRICK_COUNT p)).onLk p (fun l => { l with kaCount := 0 })

/-- Last sequence number sent. -/
def Lnk.lastSent (l : Lnk) : Nat := (l.next - 1).toNat

/-- R125, R129: act on an acknowledgement. -/
def State.ackBrick (s : State) (p a : Nat) : State :=
  let l := s.lk p
  if a = l.acked.toNat then s
  else if serialIn l.acked.toNat a l.lastSent 14 then
    let r := l.replay.dropWhile (fun b => serialLe b.seq.toNat a 14)
    let moved := l.replaying && serialLe l.replayAt.toNat a 14
    s.setLk p { l with acked := BitVec.ofNat 14 a, replay := r, replayRun := 0,
                       timerFrom := if r.isEmpty then none else some s.cycles,
                       replayAt := if moved then BitVec.ofNat 14 (a + 1) else l.replayAt,
                       replaying := l.replaying && !(moved && r.isEmpty) }
  else if serialCmp a l.acked.toNat 14 = .before then s
  else s.protoError p

/-- R129: a replay begins from a number; reaching the limit takes the link down. -/
def State.startReplay (s : State) (p : Nat) (from_ : LinkSeq) : State :=
  let l := s.lk p
  let s1 := (s.setLk p { l with replaying := true, replayAt := from_, replayRun := l.replayRun + 1, timerFrom := some s.cycles }).bump
    (Ctr.LNK_REPLAY_COUNT p)
  if l.replayRun + 1 ≥ max 1 (s.g (Reg.LNK_REPLAY_CFG.limit p)) then s1.linkDown p 2 else s1

/-- R129: a NAK received. A nak_seq that neither row of the table takes (at or before the last acknowledged number, beyond the next new
one, UNORDERED) is ignored and not counted (DESIGN CHOICE, notes/assumptions/86). -/
def State.nakBrick (s : State) (p n : Nat) : State :=
  let l := s.lk p
  let before := (n + 16383) % 16384
  if n = l.next.toNat then s.ackBrick p before
  else if n ≠ l.acked.toNat ∧ serialIn l.acked.toNat n l.lastSent 14 then
    let s1 := s.ackBrick p before
    if l.replaying then s1 else s1.startReplay p (BitVec.ofNat 14 n)
  else s

/-- R127: a NAK is due. -/
def State.nakDue (s : State) (p : Nat) : State :=
  let l := s.lk p
  if l.nakOut then s else s.setLk p { l with nakOut := true, nakDue := true }

/-- R132: credits return; a value out of range is an error. -/
def State.creditReturn (s : State) (p : Nat) (ret : List Nat) : State :=
  let l := s.lk p
  let bad := (List.range 8).any (fun v => (65536 + l.charged.getD v 0 - ret.getD v 0 % 65536) % 65536 > 128)
  let l1 := { l with farReturned := (List.range 8).map (fun v =>
    if (65536 + l.charged.getD v 0 - ret.getD v 0 % 65536) % 65536 > 128 then l.farReturned.getD v 0 else ret.getD v 0) }
  if bad then (s.setLk p l1).protoError p else s.setLk p l1

/-- R132: credits available to the transmitter for a VC. -/
def Lnk.credits (l : Lnk) (v : Nat) : Nat :=
  128 - (65536 + l.charged.getD v 0 - l.farReturned.getD v 0) % 65536

/-- The eight 16-bit values at a byte offset. -/
def vcWords (d : Data) (off : Nat) : List Nat := (List.range 8).map (fun v => d.field off (16 * v) 16)

/-- R126, R133: a refused placement is an overrun, and the brick is discarded as out of sequence. -/
def State.refusePlace (s : State) (p ctr : Nat) : State :=
  (((s.bump ctr).raise (srcLnk p 1) 0 p).bump (Ctr.LNK_OOS_COUNT p)).nakDue p

/-- R126, R133, R117: accept, discard as a duplicate, or discard as out of sequence. -/
def State.rxSequenced (s : State) (p type seq : Nat) (body : Data) : State :=
  let l := s.lk p
  if seq = l.expected.toNat then
    let accept (t : State) : State := t.onLk p (fun k => { k with expected := k.expected + 1, rxAny := true, nakOut := false, nakDue := false })
    if type = 0xC then
      let s1 := accept s
      match s1.inProgress p with
      | some k => s1.abortIn p k (body.field 0 0 8)
      | none => s1
    else
      let credit := bit type 2
      match s.brickVc p type body with
      | none => if credit then (accept s).frame p type body
                else match s.place p 0 false with
                  | some s1 => (accept s1).frame p type body
                  | none => s.refusePlace p (Ctr.LNK_POOL_OVERRUN_COUNT p)
      | some v =>
        match s.place p v credit with
        | some s1 => (accept s1).frame p type body
        | none => s.refusePlace p (if credit then Ctr.LNK_CREDIT_OVERRUN_COUNT p else Ctr.LNK_POOL_OVERRUN_COUNT p)
  else if serialCmp seq l.expected.toNat 14 = .before then s.bump (Ctr.LNK_DUP_COUNT p)
  else (s.bump (Ctr.LNK_OOS_COUNT p)).nakDue p

/-- The link engine acts on what it receives: in INIT, UP and HOLD (R137: DOWN is silent, FENCING discards every brick). -/
def Lnk.hears (l : Lnk) : Bool := l.st == .init || l.st == .up || l.st == .hold
/-- Bricks arrive: the device is out of OFF. -/
def State.receives (s : State) (p : Nat) : Bool := p < 64 && s.mode != .off

/-- A sequenced brick in the link's state (R126, R137, R138). The ack of every valid brick is acted on, of one that INIT or HOLD discards
too (R125; DEDUCED, notes/assumptions/86). -/
def State.rxBrick (s : State) (p type seq ack : Nat) (body : Data) : State :=
  let s0 := s.validBrick p
  if (s.lk p).hears then
    let up := (s.lk p).st = .up
    let s1 := s0.ackBrick p (ack % 16384)
    if up ∧ (s1.lk p).st = .up then s1.rxSequenced p type (seq % 16384) body else s1
  else s0

/-- R126: SEQUENCED_BRICK_RX. -/
def execSequencedBrickRx (p type seq ack : Nat) (body : Data) (s : State) : Host.Outcome State Fault Refusal :=
  if s.receives p ∧ type < 8 then .next (s.rxBrick p type seq ack body) else .next s

/-- R119: ABORT_BRICK_RX: an ABORT is sequenced; accepted, it ends the packet in progress. -/
def execAbortBrickRx (p seq ack reason : Nat) (s : State) : Host.Outcome State Fault Refusal :=
  if s.receives p then .next (s.rxBrick p 0xC seq ack ⟨64, reason % 256⟩) else .next s

/-- R113, R126: BRICK_CRC_ERROR: counted in every state of the link (R147), and a NAK due in UP. -/
def execBrickCrcError (p : Nat) (s : State) : Host.Outcome State Fault Refusal :=
  if s.receives p then
    let s1 := (s.bump (Ctr.LNK_CRC_ERR_COUNT p)).raise (srcLnk p 0) 0 p
    .next (if (s1.lk p).st = .up then s1.nakDue p else s1)
  else .next s

/-- R115: RESERVED_BRICK_RX, in every state of the link. -/
def execReservedBrickRx (p : Nat) (s : State) : Host.Outcome State Fault Refusal :=
  if s.receives p then
    .next (((s.validBrick p).bump (Ctr.LNK_PROTO_ERR_COUNT p)).raise (srcLnk p 3) 0 p)
  else .next s

/-- R130, R163: the pool_off level of a valid CONTROL or INIT brick; OFF raises the port's congestion level of this course. -/
def State.farLevel (s : State) (p : Nat) (off : Bool) : State :=
  let s1 := s.onLk p (fun l => { l with farPoolOff := off })
  if off then { s1 with rte := { s1.rte with offSeen := setAdd s1.rte.offSeen p } } else s1

/-- R121: what a valid CONTROL brick delivers: its levels, its mark and its ack in INIT, UP and HOLD (R125, R130, R132), its NAK and its seq
in UP (R126, R127). -/
def State.rxControl (s : State) (p seq ack : Nat) (body : Data) : State :=
  let s0 := s.validBrick p
  if (s.lk p).hears then
    let up := (s.lk p).st = .up
    let s2 := s0.farLevel p (body.field 32 1 1 == 1)
    let s3 := if body.field 32 0 1 = 1 ∧ s2.counting then s2.courseMark p (Mark.ofNat (body.val % 2 ^ 128)) else s2
    let s4 := s3.ackBrick p (ack % 16384)
    let s5 := s4.creditReturn p (vcWords body 16)
    let s6 := if up ∧ (s5.lk p).st = .up ∧ body.field 32 2 1 = 1 then s5.nakBrick p (body.field 34 0 14) else s5
    if up ∧ (s6.lk p).st = .up ∧ serialCmp (s6.lk p).expected.toNat (seq % 16384) 14 = .before then s6.nakDue p else s6
  else s0

/-- R121: CONTROL_BRICK_RX. -/
def execControlBrickRx (p seq ack : Nat) (body : Data) (s : State) : Host.Outcome State Fault Refusal :=
  if s.receives p then .next (s.rxControl p seq ack body) else .next s

/-- R137: FENCE_BRICK_RX. -/
def execFenceBrickRx (p : Nat) (s : State) : Host.Outcome State Fault Refusal :=
  if s.receives p then .next (if (s.lk p).hears then (s.validBrick p).linkDown p 3 else s.validBrick p) else .next s

/-- R142: the rtt sample an INIT gives. -/
def State.rttSample (s : State) (p echo turn : Nat) : State :=
  let l := s.lk p
  match Tbl.find? l.probes echo with
  | none => s
  | some t0 =>
    let r := min ((s.ticks - t0) - turn) (2 ^ 20 - 1)
    s.setLk p { l with samples := l.samples + 1, rtt := if l.samples = 0 then r else min l.rtt r }

/-- R130, R132: the levels that an INIT carries as a CONTROL brick does. -/
def State.initLevels (s : State) (p : Nat) (body : Data) : State :=
  (s.farLevel p (body.field 6 1 1 == 1)).creditReturn p (vcWords body 16)

/-- R142, R143: what every INIT brick leaves, in INIT, UP and HOLD: its levels, its tag with the time of its arrival, and whether its sender
is another than LAN_PT_FAR shows. -/
def State.noteInit (s : State) (p : Nat) (body : Data) : State :=
  let far := s.pp p
  let other := far.farValid && (far.farDevice != body.field 0 0 20 || far.farPort != body.field 3 0 6)
  (s.initLevels p body).onLk p (fun l => { l with echo := some (body.field 7 0 8, s.ticks), farChanged := l.farChanged || other })

/-- R142, R143: an INIT brick in INIT. -/
def State.rxInit (s : State) (p : Nat) (body : Data) : State :=
  let s0 := s.noteInit p body
  let l := s0.lk p
  let first := !l.initHeard
  let ready := bit (body.field 6 0 8) 0
  let s1 := s0.setLk p { l with
    initHeard := true
    readyHeard := if ready then some (body.field 4 15 1 == 1, body.field 4 0 14, body.field 4 14 1 == 1) else l.readyHeard
    farUsed := if ready then (List.range 8).map (fun v => body.field 32 (8 * v) 8) else l.farUsed }
  let s2 := if first ∧ (s1.lk p).probes = [] then s1 else s1.rttSample p (body.field 8 0 8) (body.field 9 0 24)
  s2.tryUp p

/-- R137, R143: an INIT brick in the link's state. From UP it triggers a resume re-initialisation, which begins with ready = 0. -/
def State.initRx (s : State) (p : Nat) (body : Data) : State :=
  let s0 := s.validBrick p
  match (s.lk p).st with
  | .init => s0.rxInit p body
  | .up => (s0.noteInit p body).startInit p true
  | .hold => s0.noteInit p body
  | _ => s0

/-- R137, R143: INIT_BRICK_RX. -/
def execInitBrickRx (p : Nat) (body : Data) (s : State) : Host.Outcome State Fault Refusal :=
  if s.receives p then .next (s.initRx p body) else .next s

/-! ### Sending -/

/-- The type code of brick number `k` (from 0) of a packet of `n` bricks (R116, R114). -/
def brickType (k n : Nat) (credit : Bool) : Nat :=
  (if n = 1 then 3 else if k = 0 then 1 else if k + 1 = n then 2 else 0) + (if credit then 4 else 0)

/-- First transmission of a sequenced brick (R123, R124, R129). -/
def State.sendSequenced (s : State) (p type : Nat) (body : Data) (vc : Nat) (credit : Bool) : State :=
  let l := s.lk p
  let s1 := s.sendBrick p type l.next.toNat body
  let l1 := { l with replay := l.replay ++ [⟨l.next, type, body⟩], next := l.next + 1,
                     timerFrom := some (l.timerFrom.getD s.cycles), slots := l.slots + 1,
                     charged := if credit then l.charged.set vc ((l.charged.getD vc 0 + 1) % 65536) else l.charged }
  s1.setLk p l1

/-- R116, R119: send the next brick of the packet that holds a fabric output. -/
def State.txBrick (s : State) (p i : Nat) (k : InPkt) : State :=
  let finish (t : State) : State := ((t.setOut p { t.outSt p with cur := none }).onLk p (fun l => { l with txPkt := false }))
  match k.abort_ with
  | some reason => (finish (s.sendSequenced p 0xC ⟨64, reason⟩ 0 false)).delPkt i k.id
  | none =>
    match k.forms with
    | [] => s
    | f :: fs =>
      let l := s.lk p
      let body := if k.left_ = 0 then k.head else k.rest.headD Data.empty
      let s1 := s.sendSequenced p (brickType k.left_ k.len l.txCredit) ⟨64, body.val⟩ k.ovc l.txCredit
      let k1 := { k with left_ := k.left_ + 1, forms := fs, head := Data.empty, rest := if k.left_ = 0 then k.rest else k.rest.drop 1 }
      let s2 := (s1.setPkt i k1).freeSlot i (if i < 64 then k.vc else 0) f
      let s3 := if k.ovc = 7 then s2.setOut p { s2.outSt p with vc7 := s.cycles :: (s2.outSt p).vc7 } else s2
      if k.left_ + 1 = k.len then (finish s3).delPkt i k.id
      else s3.onLk p (fun l => { l with txPkt := true })

/-- R122: a CONTROL brick takes the next brick slot: a NAK or a change of pool_off is to be sent. -/
def Lnk.controlFirst (l : Lnk) : Bool := l.nakDue || l.offDue
/-- R68, R122: a course mark is still to be sent, in cycles 0 to 127 of the course. -/
def State.markNow (s : State) (p : Nat) : Bool := (s.lk p).markDue && decide (s.crs.cycle < 128)
/-- R122: returned credits are to be announced: 32 or more of a VC, or any at all after 256 cycles. -/
def State.returnsDue (s : State) (p : Nat) : Bool :=
  let l := s.lk p
  let gone (v : Nat) : Nat := (65536 + l.returned.getD v 0 - l.sentReturned.getD v 0) % 65536
  (List.range 8).any (fun v => decide (gone v ≥ 32)) ||
    ((List.range 8).any (fun v => gone v != 0) && decide (s.cycles ≥ l.lastControl + 256))
/-- R124, R129: a sequenced brick is ready: one to resend, or a brick that has arrived of the packet that holds the output. -/
def State.seqReady (s : State) (p : Nat) : Bool :=
  let l := s.lk p
  l.st == .up && (l.replaying ||
    (decide (l.replay.length < 2048) &&
      (match (s.outSt p).cur with
       | some (i, id) => (match s.pkt? i id with
         | some k => k.abort_.isSome || !k.forms.isEmpty
         | none => false)
       | none => false)))
/-- R122: a CONTROL brick may go out in this slot: it is due at once, returned credits are due and 16 slots have passed, or no sequenced
brick is ready. -/
def State.controlDue (s : State) (p : Nat) : Bool :=
  let l := s.lk p
  l.controlFirst || s.markNow p || (s.returnsDue p && decide (l.slots ≥ 15)) || !s.seqReady p

/-- R122, R129, R124: BRICK_TX: a new sequenced brick of the packet that holds the output. -/
def execBrickTx (p : Nat) (s : State) : Host.Outcome State Fault Refusal :=
  let l := s.lk p
  if p < 64 ∧ l.st = .up ∧ ¬ l.replaying ∧ l.replay.length < 2048 ∧ (s.pp p).txMask ≠ 0 ∧ ¬ l.controlFirst then
    match (s.outSt p).cur with
    | some (i, id) =>
      match s.pkt? i id with
      | some k => .next (s.txBrick p i k)
      | none => .next s
    | none => .next s
  else .next s

/-- R120, R121: the body of the CONTROL brick now due. -/
def State.controlBody (s : State) (p : Nat) : Data :=
  let l := s.lk p
  let m := if s.markNow p then (s.markToSend p).toNat else 0
  let ret := (List.range 8).foldl (fun acc v => acc + (l.returned.getD v 0 % 65536) <<< (128 + 16 * v)) 0
  ⟨64, m + ret + packB [(32, 1, b2n (s.markNow p))] + (b2n l.poolOff) <<< 257 + (b2n l.nakDue) <<< 258
       + (if l.nakDue then l.expected.toNat <<< 272 else 0)⟩

/-- R122: send a CONTROL brick. -/
def State.sendControl (s : State) (p : Nat) : State :=
  let l := s.lk p
  let s1 := s.sendBrick p 8 l.next.toNat (s.controlBody p)
  let s2 := (s1.bumpIf l.nakDue (Ctr.LNK_NAK_TX_COUNT p)).bumpIf (l.offDue && l.poolOff) (Ctr.LNK_OFF_TX_COUNT p)
  let s3 := if s.markNow p then s2.noteMarkSent p else s2
  s3.setLk p { l with nakDue := false, offDue := false, markDue := l.markDue && !s.markNow p, sentReturned := l.returned, slots := 0, lastControl := s.cycles }

/-- R122, R138: CONTROL_BRICK_TX, in UP where one is due or the slot is idle, and in INIT for a course mark. -/
def execControlBrickTx (p : Nat) (s : State) : Host.Outcome State Fault Refusal :=
  if p < 64 ∧ (((s.lk p).st = .up ∧ s.controlDue p) ∨ ((s.lk p).st = .init ∧ s.markNow p)) then .next (s.sendControl p) else .next s

/-- R129: REPLAY_BRICK_TX: resend the brick at the replay point. -/
def execReplayBrickTx (p : Nat) (s : State) : Host.Outcome State Fault Refusal :=
  let l := s.lk p
  if p < 64 ∧ l.st = .up ∧ l.replaying ∧ ¬ l.controlFirst then
    match l.replay.find? (fun b => b.seq == l.replayAt) with
    | some b =>
      let s1 := (s.sendBrick p b.type b.seq.toNat b.body).bump (Ctr.LNK_REPLAY_BRICK_COUNT p)
      .next (s1.setLk p { l with slots := l.slots + 1, replayAt := l.replayAt + 1, replaying := l.replayAt + 1 != l.next })
    | none => .next (s.setLk p { l with replaying := false })
  else .next s

/-- R128, R129: REPLAY_TIMER_EXPIRY. -/
def execReplayTimerExpiry (p : Nat) (s : State) : Host.Outcome State Fault Refusal :=
  let l := s.lk p
  match l.timerFrom, l.replay with
  | some t, b :: _ =>
    if p < 64 ∧ l.st = .up ∧
        s.cycles ≥ t + s.g (Reg.LNK_REPLAY_CFG.tmo_courses p) * 1280 + s.g (Reg.LNK_REPLAY_CFG.tmo_cycles p) then
      .next (s.startReplay p b.seq)
    else .next s
  | _, _ => .next s

/-! ### Link states -/

/-- R137: LINK_INIT_START. The keep-alive count begins at 0 here (DESIGN CHOICE, notes/assumptions/86: R139 does not say). -/
def execLinkInitStart (p : Nat) (s : State) : Host.Outcome State Fault Refusal :=
  let l := s.lk p
  if p < 64 ∧ l.st = .down ∧ s.phyUp p ∧ s.linkPermit p ∧ ¬ l.waitPhy ∧
      (l.waitHoldoff → s.over l.downAt ≥ s.g (Reg.LNK_CTRL.holdoff p)) then
    .next ((s.onLk p (fun k => { k with kaCount := 0 })).startInit p false)
  else .next s

/-- R137: INIT_TIMEOUT. -/
def execInitTimeout (p : Nat) (s : State) : Host.Outcome State Fault Refusal :=
  let l := s.lk p
  if p < 64 ∧ l.st = .init ∧ s.over l.initAt ≥ s.g (Reg.LNK_CTRL.init_limit p) then .next (s.linkDown p 4)
  else .next s

/-- R139: KEEPALIVE_TIMEOUT; values of ka_limit below 4 act as 4. -/
def execKeepaliveTimeout (p : Nat) (s : State) : Host.Outcome State Fault Refusal :=
  let l := s.lk p
  if p < 64 ∧ (l.st = .init ∨ l.st = .up ∨ l.st = .hold) ∧ l.kaCount ≥ max 4 (s.g (Reg.LNK_CTRL.ka_limit p)) then
    .next (s.linkDown p (if s.phyUp p then 1 else 6))
  else .next s

/-- R137: the PHY of an UP link has gone down; a far-fenced link has seen its PHY down. -/
def State.phyFell (s : State) (p : Nat) : State :=
  match (s.lk p).st with
  | .up => s.onLk p (fun l => { l with st := .hold })
  | .down => s.onLk p (fun l => { l with waitPhy := false })
  | _ => s

/-- R137: PHY_DOWN. -/
def execPhyDown (p : Nat) (s : State) : Host.Outcome State Fault Refusal :=
  if p < 64 ∧ ¬ s.phyUp p then .next (s.phyFell p) else .next s

/-- R137: PHY_UP: a link in HOLD starts a resume INIT. -/
def execPhyUp (p : Nat) (s : State) : Host.Outcome State Fault Refusal :=
  if p < 64 ∧ s.phyUp p ∧ (s.lk p).st = .hold then .next (s.startInit p true) else .next s

/-- R137: LINK_REINIT: LNK_CTRL.reinit written. -/
def execLinkReinit (p : Nat) (s : State) : Host.Outcome State Fault Refusal :=
  if p < 64 ∧ s.mode ≠ .fenced then .next (s.reinit p) else .next s

/-- R143: the body of the INIT brick now sent. Before any INIT has been received since reset, echo_tag and turnaround are 0 (DESIGN CHOICE,
notes/assumptions/86). -/
def State.initBody (s : State) (p : Nat) : Data :=
  let l := s.lk p
  let e := l.echo
  let ret := (List.range 8).foldl (fun acc v => acc + (l.returned.getD v 0 % 65536) <<< (128 + 16 * v) + (l.used.getD v 0 % 256) <<< (256 + 8 * v)) 0
  ⟨64, ret + pack [(0, 20, s.me), (24, 6, p), (32, 14, (l.expected - 1).toNat), (46, 1, b2n (l.rxAny && l.initResume)),
    (47, 1, b2n l.initResume), (48, 1, b2n l.initHeard), (49, 1, b2n l.poolOff), (56, 8, l.probeTag),
    (64, 8, match e with | some x => x.1 | none => 0), (72, 24, match e with | some x => s.ticks - x.2 | none => 0)]⟩

/-- R137, R142: INIT_BRICK_TX. -/
def execInitBrickTx (p : Nat) (s : State) : Host.Outcome State Fault Refusal :=
  let l := s.lk p
  if p < 64 ∧ l.st = .init then
    let s1 := s.putBrick p (brickBytes 9 0 0 (s.initBody p))
    let s2 := s1.setLk p { l with probeTag := (l.probeTag + 1) % 256, probes := Tbl.ins l.probes l.probeTag s.ticks,
                                   readySent := if l.initHeard then l.readySent + 1 else l.readySent }
    .next (s2.tryUp p)
  else .next s

/-- R137: mode or enable forbids: a link that runs goes DOWN with cause disabled. -/
def State.linkForbid (s : State) (p : Nat) : State :=
  match (s.lk p).st with
  | .init => s.linkDown p 5
  | .up => s.linkDown p 5
  | .hold => s.linkDown p 5
  | _ => s

/-- R122: the course marks of a course become due (on every port in INIT or UP). -/
def Lnk.courseStart (l : Lnk) : Lnk :=
  { l with markDue := l.st == .up || l.st == .init, kaCount := l.kaCount + 1, moved := false }

end Sys2Proof.Machine
end

