-- ==== Sys2Proof/Machine/Route.lean ====
section
/-! DEFINITION. Route stages (spec/05): exits and path choice, the routing decision, route-around, and the wall-wide
congestion map, with the meanings of PACKET_ROUTE, the CONG rows, PORT_DEAD and PORT_REVIVE. -/
namespace Sys2Proof.Machine

/-- An exit slot of R153. -/
structure Exit where
  valid : Bool
  gidx : Nat
  row : Nat
  col : Nat
deriving DecidableEq, Repr

/-- Exit slot `k` toward a wall in a set (R153); the own wall's entry is ignored. -/
def State.exitSlot (s : State) (set wall k : Nat) : Exit :=
  let w := s.setW set (Reg.RTE_EXIT.off wall + k / 2 * 4)
  let x := bits w (16 * (k % 2)) 16
  { valid := bit x 15 && wall != s.myWall, gidx := bits x 10 5, row := bits x 4 4, col := bits x 0 4 }

/-- The valid slots toward a wall, in slot order. -/
def State.validSlots (s : State) (set wall : Nat) : List Nat :=
  (List.range 8).filter (fun k => (s.exitSlot set wall k).valid)

/-- R155: the wall's bit. -/
def State.wallValid (s : State) (set wall : Nat) : Bool := bit (s.setW set (Reg.RTE_WALL_VALID.off (wall / 32))) (wall % 32)

/-- R183: a device of the own wall is marked lost. -/
def State.lostDev (s : State) (row col : Nat) : Bool :=
  bit (s.word (Reg.RTE_LOST.off ((row * 16 + col) / 32))) ((row * 16 + col) % 32)
/-- An exit on a lost device. -/
def State.lostExit (s : State) (x : Exit) : Bool := s.lostDev x.row x.col
/-- The exit is on this device. -/
def State.exitHere (s : State) (x : Exit) : Bool := x.row == s.myRow && x.col == s.myCol
/-- R179: a port that may carry routed traffic. -/
def State.alive (s : State) (p : Nat) : Bool := !s.rte.dead.contains p

/-- The levels of a device of the wall in the installed map (R166). -/
def State.mapLevels (s : State) (dev : Nat) : Nat := Tbl.get (fun _ => 0xFFFFFFFFFFFFFFFF) s.rte.map dev
/-- R168: the level of an exit. -/
def State.exitLevel (s : State) (x : Exit) : Nat :=
  bits (if s.exitHere x then s.rte.ownLevels else s.mapLevels (x.row * 16 + x.col)) (2 * x.gidx) 2

/-- R168: the port a packet for this exit leaves by first. -/
def State.firstPort (s : State) (set : Nat) (x : Exit) : Option Nat :=
  if s.exitHere x then s.portFor set 3 x.gidx
  else if x.col ≠ s.myCol then s.portFor set 1 x.col
  else s.portFor set 2 x.row

/-- R168: cost(). -/
def State.exitCost (s : State) (set : Nat) (x : Exit) : Nat :=
  let lw := [0, s.g Reg.RTE_PATH_CFG.lvl_w1, s.g Reg.RTE_PATH_CFG.lvl_w2, s.g Reg.RTE_PATH_CFG.lvl_w3].getD (s.exitLevel x) 0
  let hops := if s.exitHere x then 0 else if x.row = s.myRow ∨ x.col = s.myCol then 1 else 2
  let q := match s.firstPort set x with
    | some p => if s.alive p then s.depth p 6 else 0
    | none => 0
  lw + s.g Reg.RTE_PATH_CFG.hop_w * hops + q / 64

/-- The cheapest of a list of (cost, name) pairs; the first wins a tie. -/
def cheapest : List (Nat × Nat) → Option (Nat × Nat)
  | [] => none
  | a :: t =>
    match cheapest t with
    | none => some a
    | some b => if a.1 ≤ b.1 then some a else some b

/-- The minimal exits of R168 with their costs, in slot order. -/
def State.minimal (s : State) (set wall : Nat) : List (Nat × Nat) :=
  ((s.validSlots set wall).filter (fun k => !s.lostExit (s.exitSlot set wall k))).map
    (fun k => (s.exitCost set (s.exitSlot set wall k), k))

/-- R177: the slot of an ordered packet. -/
def State.orderedSlot (s : State) (set wall hash : Nat) : Option Nat :=
  let all := s.validSlots set wall
  let good := all.filter (fun k => !s.lostExit (s.exitSlot set wall k) && s.exitLevel (s.exitSlot set wall k) != 3)
  let l := if good.isEmpty then all else good
  if l.isEmpty then none else l[hash % l.length]?

/-- R169: one step of an LFSR. -/
def lfsrStep (x : Nat) : Nat :=
  let f := (bits x 15 1 + bits x 13 1 + bits x 12 1 + bits x 10 1) % 2
  (x * 2 + f) % 65536
/-- R169: the seed of a hub's LFSR. -/
def State.lfsrSeed (s : State) (hub : Nat) : Nat :=
  let x := (s.me % 65536) ^^^ (hub * 0x9E37 % 65536)
  if x = 0 then 1 else x

/-- R168: the non-minimal tries: the LFSR after them, and the candidates (cost, wall) in the order drawn. -/
def State.nmTries (s : State) (set dw hash : Nat) : Nat → Nat → Nat × List (Nat × Nat)
  | 0, x => (x, [])
  | n + 1, x =>
    let y := lfsrStep x
    let iw := y % 1024
    let r := s.nmTries set dw hash n y
    let slots := s.validSlots set iw
    if s.wallValid set iw && iw != s.myWall && iw != dw && !slots.isEmpty then
      let e := s.exitSlot set iw (slots.getD (hash % slots.length) 0)
      if s.lostExit e then r else (r.1, (s.exitCost set e, iw) :: r.2)
    else r

/-- R168, R171: choose(): (nonmin, int_wall), or none where the packet is dropped as unreachable, and the LFSR after
the draws. `tries` is the number of non-minimal tries. -/
def State.choose (s : State) (set h tries x : Nat) : Option (Nat × Nat) × Nat :=
  let dw := Hdr.dst h / 256
  let hash := Hdr.flow h
  if dw = s.myWall then (some (0, 0), x)
  else if ¬ s.wallValid set dw then (none, x)
  else if Hdr.ordered h = 1 then ((s.orderedSlot set dw hash).map (fun k => (0, k)), x)
  else
    let best := cheapest (s.minimal set dw)
    let r := s.nmTries set dw hash tries x
    let pick := best.map (fun b => (0, b.2))
    match cheapest r.2 with
    | some n =>
      let bar := 2 * n.1 + s.g Reg.RTE_PATH_BIAS.nm_bias
      match best with
      | some b => (if bar < b.1 then some (1, n.2) else pick, r.1)
      | none => (some (1, n.2), r.1)
    | none => (pick, r.1)

/-- The tries that RTE_PATH_CFG permits at a source (R168). -/
def State.nmCount (s : State) : Nat := if s.g Reg.RTE_PATH_CFG.nm_en = 1 then s.g Reg.RTE_PATH_CFG.nm_tries else 0

/-! ### The decision -/

/-- What a route stage decides. -/
inductive Route where
  | out (port : Nat) (detour : Bool)
  | hub (h : Nat)
  | unreach
  | misroute
deriving DecidableEq, Repr

/-- R182, R183: row_out and col_out: `role` 1 row or 2 column, `c` the column or row wanted, `own` this device's, `cell`
the coordinates of a neighbour, `final` that this neighbour is the destination or exit device. -/
def State.lineOut (s : State) (set role c own : Nat) (cell : Nat → Nat × Nat) (final : Bool) : Route :=
  if final && s.lostDev (cell c).1 (cell c).2 then .unreach
  else
    match (s.portFor set role c).filter s.alive with
    | some p => .out p false
    | none =>
      let up := (List.range 16).filter (fun y => max own c < y && !s.lostDev (cell y).1 (cell y).2)
      match up.findSome? (fun y => (s.portFor set role y).filter s.alive) with
      | some p => .out p true
      | none => .unreach

/-- R172: toward(). -/
def State.toward (s : State) (set row col : Nat) : Route :=
  if col ≠ s.myCol then s.lineOut set 1 col s.myCol (fun y => (s.myRow, y)) (row == s.myRow)
  else s.lineOut set 2 row s.myRow (fun y => (y, s.myCol)) true

/-- R172, R181: global_out(). -/
def State.globalOut (s : State) (set gidx tw : Nat) : Route :=
  match s.portFor set 3 gidx with
  | none => .misroute
  | some p =>
    if s.alive p then .out p false
    else
      let here := (s.validSlots set tw).filter (fun k => s.exitHere (s.exitSlot set tw k))
      match here.findSome? (fun k => (s.portFor set 3 (s.exitSlot set tw k).gidx).filter s.alive) with
      | some q => .out q false
      | none => .unreach

/-- R172: route(). -/
def State.route (s : State) (set h : Nat) : Route :=
  if Hdr.dst h = s.me then .hub (Hdr.flow h % 6)
  else
    let dw := Hdr.dst h / 256
    if dw = s.myWall then s.toward set (Hdr.dst h / 16 % 16) (Hdr.dst h % 16)
    else
      let tw := if Hdr.nonmin h = 1 then Hdr.intWall h else dw
      let slots := s.validSlots set tw
      let slot :=
        if Hdr.nonmin h = 1 then (if slots.isEmpty then none else slots[Hdr.flow h % slots.length]?)
        else some (Hdr.intWall h % 8)
      match slot with
      | none => .unreach
      | some k =>
        let x := s.exitSlot set tw k
        if ¬ x.valid then .misroute
        else if s.exitHere x then s.globalOut set x.gidx tw
        else s.toward set x.row x.col

/-- R160: the lifetime check: passes, too old, born in the future. -/
def State.lifeCheck (s : State) (birth : Nat) : Option Bool :=
  let d := serialDist birth (s.course % 65536) 16
  if d ≤ s.life ∨ d = 0xFFFF then none else some (d ≤ 32767)

/-- R157: the vc breaks its class, or the phase is 3. -/
def badClass (h : Nat) : Bool :=
  let t := Hdr.cls h
  Hdr.phase h == 3 ||
  (if t = 0 then Hdr.vc h != Hdr.phase h
   else if t = 1 then Hdr.vc h != 3 + Hdr.phase h
   else if t = 2 then Hdr.vc h != 6 && Hdr.vc h != 7
   else Hdr.vc h != 7)

/-- A packet of input `i` is discarded with a counter and a source of R184, R185. The event's object, "the packet", is the number of its
input, 64 + h for hub port h (DESIGN CHOICE, notes/assumptions/100). -/
def State.routeDrop (s : State) (i : Nat) (p : InPkt) (ctr k : Nat) : State :=
  ((s.bump ctr).raise (srcRte k) 0 i).discard i p
/-- Discarded by the lifetime check. -/
def State.lifeDrop (s : State) (i : Nat) (p : InPkt) (old : Bool) : State :=
  s.routeDrop i p (if old then Ctr.RTE_LIFE_DROP_COUNT else Ctr.RTE_FUTURE_DROP_COUNT) 0
def State.misrouteDrop (s : State) (i : Nat) (p : InPkt) : State := s.routeDrop i p Ctr.RTE_MISROUTE_DROP_COUNT 3
def State.unreachDrop (s : State) (i : Nat) (p : InPkt) : State := s.routeDrop i p Ctr.RTE_UNREACH_DROP_COUNT 2

/-- The packet is sent to an output. -/
def State.toOut (s : State) (i : Nat) (p : InPkt) (o : Nat) : State := (s.queueAt i p o).noteDepth o

/-- R172 to R174, R181 to R183: route a request- or response-class packet that has passed its checks. -/
def State.routeEndpoint (s : State) (i : Nat) (p : InPkt) : State :=
  let h := p.head.hdr
  let set := Hdr.setTag h
  match s.route set h with
  | .hub k => s.toOut i p (64 + k)
  | .unreach => s.unreachDrop i p
  | .misroute => s.misrouteDrop i p
  | .out o detour =>
    if Hdr.hops h = 15 ∨ (s.role set o = 3 ∧ Hdr.phase h = 2) then s.misrouteDrop i p
    else (s.bumpIf detour Ctr.RTE_DETOUR_COUNT).toOut i p o

/-- R171: a non-minimal packet that arrived on a global port, and then R172. -/
def State.routeArrived (s : State) (i : Nat) (p : InPkt) : State :=
  let h := p.head.hdr
  let set := Hdr.setTag h
  if i < 64 ∧ s.role set i = 3 ∧ Hdr.nonmin h = 1 then
    if Hdr.intWall h ≠ s.myWall then s.misrouteDrop i p
    else
      match (s.choose set h 0 0).1 with
      | none => s.unreachDrop i p
      | some (_, w) =>
        let h1 := setBits (setBits h 51 1 0) 52 10 w
        s.routeEndpoint i { p with head := p.head.withHdr h1 }
  else s.routeEndpoint i p

/-- The first packet of an input that no route stage has handled. -/
def State.unrouted (s : State) (i : Nat) : Option InPkt :=
  (s.inq i).find? (fun p => p.dest.isNone && !p.drop && p.abort_.isNone)

/-- The header has failed R157 or R158. -/
def badHeader (h : Nat) : Bool := !Hdr.crcOk h || badClass h

/-- The route stage's work on a packet (R19, R158, R160, R553). -/
def State.routePkt (s : State) (i : Nat) (p : InPkt) : State :=
  let h := p.head.hdr
  let t := Hdr.type h
  if badHeader h then s.routeDrop i p Ctr.RTE_HDR_ERR_COUNT 1
  else if s.mode = .train ∧ Hdr.cls h ≠ 3 then (s.bump Ctr.RTE_MODE_DROP_COUNT).discard i p
  else if i < 64 ∧ Hdr.vc h ≠ 7 ∧ s.role (Hdr.setTag h) i = 4 then s.misrouteDrop i p
  else if t = 0x3E ∨ t = 0x3F then s
  else
    match (if t = 0x34 ∨ t = 0x35 then none else s.lifeCheck (Hdr.birth h)) with
    | some old => s.lifeDrop i p old
    | none =>
      if Hdr.cls h = 3 then s.toOut i p 71
      else if Hdr.cls h = 2 then (if Hdr.dst h = s.me then s.toOut i p 70 else s.misrouteDrop i p)
      else s.routeArrived i p

/-- The device routes packets: TRAIN, TRANSIT, SERVICE, DRAIN, and STRAP for the boot link. -/
def State.routing (s : State) : Bool := s.live || s.mode == .train || s.mode == .strap

/-- R172: PACKET_ROUTE: the route stage of input `i` (0-63 a fabric port, 64 + h hub port h) handles the next packet. -/
def execPacketRoute (i : Nat) (s : State) : Host.Outcome State Fault Refusal :=
  match s.unrouted i with
  | some p => if s.routing then .next (s.routePkt i p) else .next s
  | none => .next s

/-! ### The congestion map (R163-R166) -/

/-- Take the next congestion packet of type `t` at a port, with the checks of R158 and R166 steps 1 and 2. -/
def State.congRx (s : State) (i t role : Nat) (keep : State → InPkt → State) : State :=
  match s.unrouted i with
  | none => s
  | some p =>
    let h := p.head.hdr
    if Hdr.type h ≠ t ∨ p.got < p.len ∨ ¬ s.routing then s
    else if badHeader h then s.routeDrop i p Ctr.RTE_HDR_ERR_COUNT 1
    else if ¬ s.live then s.discard i p
    else if s.role s.crs.active i ≠ role ∨ Hdr.src h ≠ (s.pp i).farDevice ∨ ¬ (s.pp i).farValid then s.misrouteDrop i p
    else if Hdr.birth h ≠ s.course % 65536 then (s.bump Ctr.RTE_MAP_LATE_COUNT).discard i p
    else (keep s p).discard i p

/-- R166: CONG_ROW_RX. -/
def execCongRowRx (i : Nat) (s : State) : Host.Outcome State Fault Refusal :=
  if i < 64 then
    .next (s.congRx i 0x3E 1 (fun t p =>
      { t with rte := { t.rte with rows := Tbl.ins t.rte.rows (t.peer t.crs.active i) (p.head.field 16 0 64) } }))
  else .next s

/-- R166: CONG_COL_RX. -/
def execCongColRx (i : Nat) (s : State) : Host.Outcome State Fault Refusal :=
  if i < 64 then
    .next (s.congRx i 0x3F 2 (fun t p =>
      { t with rte := { t.rte with cols := Tbl.ins t.rte.cols (t.peer t.crs.active i)
                                             (p.data.field 16 0 1024, p.data.field 144 0 16) } }))
  else .next s

/-- R163: the level of a gidx from the observations of the course that ends. -/
def State.newLevel (s : State) (g : Nat) : Nat :=
  match s.portFor s.crs.active 3 g with
  | none => 3
  | some p =>
    if ¬ s.alive p ∨ s.rte.deadSeen.contains p then 3
    else
      let q := max (Tbl.get (fun _ => 0) s.rte.qMax p) (s.depth p 6)
      let base := if q < 8 * s.g Reg.RTE_CONG_CFG.t1 then 0 else if q < 8 * s.g Reg.RTE_CONG_CFG.t2 then 1
        else if q < 8 * s.g Reg.RTE_CONG_CFG.t3 then 2 else 3
      if s.rte.offSeen.contains p then max base 2 else base

/-- R163: the levels of the new course, and the observations begun anew. -/
def State.courseLevels (s : State) : State :=
  let lv := (List.range 32).foldl (fun acc g => acc + s.newLevel g <<< (2 * g)) 0
  let q := (List.range 64).foldl (fun t p => Tbl.put (fun _ => 0) t p (s.depth p 6)) []
  { s with rte := { s.rte with ownLevels := lv, qMax := q, deadSeen := s.rte.dead,
                               offSeen := (List.range 64).filter (fun p => (s.lk p).farPoolOff) } }

/-- The header of a congestion packet (R164, R165): vc 7, for the neighbour on port `p`; `late` for the publication of the course
before (R69). The set tag is that of the active set (R70). Hops, flow_hash, the host ports and the bytes behind the levels, of which no
rule speaks, are zero (DESIGN CHOICE, notes/assumptions/100). -/
def State.congHdr (s : State) (p len type : Nat) (late : Bool := false) : Nat :=
  HdrIn.make { dst := (s.neighbour p).getD 0, dstHp := 0, src := s.me, srcHp := 0, vc := 7, setTag := s.crs.active, ordered := 0,
               nonmin := 0, intWall := 0, birth := (s.course + 65536 - b2n late) % 65536, len := len, type := type, colour := 0, flow := 0 }

/-- R164: CONG_ROW to each row neighbour whose link is UP. -/
def State.sendCongRows (s : State) : State :=
  (s.rowPorts.filter (fun p => s.up p && (s.neighbour p).isSome)).foldl (fun t p =>
    t.hubTo 7 (some p) (mkPacket (s.congHdr p 1 0x3E) (Data.ofNat 48 s.rte.ownLevels))) s

/-- R165: the body of CONG_COL. -/
def State.congColBody (s : State) : Data :=
  let rows := Tbl.ins s.rte.rows s.myCol s.rte.ownLevels
  let lv := rows.foldl (fun acc e => acc + (e.2 % 2 ^ 64) <<< (64 * (e.1 % 16))) 0
  let mask := rows.foldl (fun acc e => acc + 1 <<< (e.1 % 16)) 0
  Data.ofNat 176 (lv + mask <<< 1024)

/-- The column ports over which the congestion map is relayed. -/
def State.relayPorts (s : State) : List Nat := s.colPorts.filter (fun p => s.up p && (s.neighbour p).isSome)
/-- R165: the relay to every column neighbour; `late` when it belongs to the course before (R69). -/
def State.sendCongCols (s : State) (late : Bool) : State :=
  s.relayPorts.foldl (fun t p => t.hubTo 7 (some p) (mkPacket (s.congHdr p 3 0x3F late) s.congColBody)) s

/-- R68, R165: CONG_COL_TX: once in a course, in cycles 256 to 895, when every row neighbour has been heard or from cycle 640. -/
def execCongColTx (s : State) : Host.Outcome State Fault Refusal :=
  let heard := (s.rowPorts.filter s.up).all (fun p => (s.rte.rows.map Prod.fst).contains (s.peer s.crs.active p))
  if s.live ∧ ¬ s.rte.colSent ∧ 256 ≤ s.crs.cycle ∧ s.crs.cycle ≤ 895 ∧ (heard ∨ 640 ≤ s.crs.cycle) then
    let s1 := s.sendCongCols false
    .next { s1 with rte := { s1.rte with colSent := true } }
  else .next s

/-- R166: the levels received in the ended course for a device of the wall, if any. -/
def State.heardLevels (s : State) (own : Nat) (row col : Nat) : Option Nat :=
  if row = s.myRow then (if col = s.myCol then some own else Tbl.find? s.rte.rows col)
  else
    match Tbl.find? s.rte.cols row with
    | some (lv, mask) => if bit mask col then some (bits lv (64 * col) 64) else none
    | none => none

/-- R166: the install at cycle 0: `own` are the levels this device published in the course that ended. -/
def State.installMap (s : State) (own : Nat) : State :=
  let devs := (List.range 256).map (fun d => (d, s.heardLevels own (d / 16) (d % 16)))
  let missing := (devs.filter (fun e => e.2.isNone)).length
  let m := devs.foldl (fun t e => Tbl.put (fun _ => 0xFFFFFFFFFFFFFFFF) t e.1 (e.2.getD 0xFFFFFFFFFFFFFFFF)) []
  let s1 := { s with rte := { s.rte with map := m, rows := [], cols := [], colSent := false } }
  let s2 := s1.bumpBy Ctr.RTE_MAP_MISS_COUNT missing
  if missing > 0 then s2.raise (srcRte 4) 0 missing else s2

/-- R166, R169: entry to TRANSIT: the map reads level 3 until the first install and the hub LFSRs are seeded. -/
def State.routeEnterTransit (s : State) : State :=
  { s with rte := { s.rte with map := [], rows := [], cols := [], colSent := false,
                               lfsr := (List.range 8).map (fun k => (k, s.lfsrSeed k)) } }

/-! ### Route-around (R179-R180) -/

/-- R179: the DOWN and UP course counts advance at a boundary; a port that left the state meanwhile begins its count again. -/
def State.countRuns (s : State) : State :=
  let run (t : Tbl Nat) (st : LinkSt) : Tbl Nat :=
    (List.range 64).foldl (fun acc p =>
      let before := if (s.lk p).moved then 0 else Tbl.get (fun _ => 0) t p
      Tbl.put (fun _ => 0) acc p (if (s.lk p).st = st then min 65536 (before + 1) else 0)) []
  { s with rte := { s.rte with downRun := run s.rte.downRun .down, upRun := run s.rte.upRun .up } }

/-- R180: re-evaluate the packets that wait for a port, in queue order. -/
def State.reevaluate (s : State) (port : Nat) : State :=
  s.rte.inq.foldl (fun t e =>
    e.2.foldl (fun u k =>
      match u.pkt? e.1 k.id with
      | some p =>
        if p.dest = some port ∧ u.holder e.1 p.id = none ∧ Hdr.cls p.head.hdr ≤ 1 then
          match u.lifeCheck (Hdr.birth p.head.hdr) with
          | some old => u.lifeDrop e.1 p old
          | none => u.routeEndpoint e.1 { p with dest := none }
        else u
      | none => u) t) s

/-- R179, R180: PORT_DEAD. -/
def execPortDead (p : Nat) (s : State) : Host.Outcome State Fault Refusal :=
  let due := (s.lk p).st = .down ∧ Tbl.get (fun _ => 0) s.rte.downRun p ≥ max 1 (s.g Reg.RTE_RA_CFG.ra_courses)
  if p < 64 ∧ s.counting ∧ (due ∨ s.rte.dead.contains p) then
    .next (({ s with rte := { s.rte with dead := setAdd s.rte.dead p, deadSeen := setAdd s.rte.deadSeen p } }).reevaluate p)
  else .next s

/-- R179: PORT_REVIVE. -/
def execPortRevive (p : Nat) (s : State) : Host.Outcome State Fault Refusal :=
  if p < 64 ∧ s.rte.dead.contains p ∧ (s.lk p).st = .up ∧ Tbl.get (fun _ => 0) s.rte.upRun p ≥ s.g Reg.RTE_RA_CFG.revive then
    .next { s with rte := { s.rte with dead := setDel s.rte.dead p } }
  else .next s

/-! ### Roles (R152) and LIFE (R162) -/

/-- The collisions of a set: the port that loses, its role, and the peer or gidx it loses. -/
def State.losers (s : State) (set : Nat) : List (Nat × Nat × Nat) :=
  ((List.range 64).filter (fun p => s.collides set p)).map (fun p => (p, s.role set p, s.peer set p))

/-- R152: after a write or copy of a set: a collision that did not exist before sets role_err and raises once. Of several new ones that a
copy makes, the lowest losing port is the one told of (DESIGN CHOICE, notes/assumptions/100). -/
def State.roleCheck (s : State) (set : Nat) (before : List (Nat × Nat × Nat)) : State :=
  match (s.losers set).find? (fun e => !before.contains e) with
  | some (p, _) => (s.put Reg.RTE_STATUS.role_err 1).raise (srcRte 5) 0 p
  | none => s

/-- R162: a write of RTE_LIFE that the set-up lock lets through. -/
def State.lifeWrite (s : State) (v : Nat) : State :=
  let n := bits v 0 15
  if n < 256 ∨ 16384 < n then s.badAccess
  else if s.crs.busyEnd.isSome ∨ s.crs.armed then s.put Reg.RTE_STATUS.life_refused 1
  else s.put Reg.RTE_LIFE.life n

end Sys2Proof.Machine
end

