-- ==== Sys2Proof/Machine/Xlt.lean ====
section
/-! DEFINITION. Address translation (spec/08): the two-stage walk, the translation and walk caches, faults and their log,
and the meanings of the walk rows and translation commands. -/
namespace Sys2Proof.Machine

/-- A translation unit. -/
def State.xu (s : State) (u : Nat) : XUnit := Tbl.get (fun _ => XUnit.reset) s.xlt u
/-- Set a translation unit. -/
def State.setXu (s : State) (u : Nat) (v : XUnit) : State := { s with xlt := Tbl.put (fun _ => XUnit.reset) s.xlt u v }

/-! ### The walk (R256-R266) -/

/-- What a walk has learned by a part of it: entries for the walk cache, and what the walk cache supplied. -/
structure WKnow where
  learn : List WcEnt
  used : List WalkVal
deriving DecidableEq, Repr
/-- Nothing learned. -/
def WKnow.nil : WKnow := ⟨[], []⟩
/-- What two parts learned. -/
def WKnow.join (a b : WKnow) : WKnow := ⟨a.learn ++ b.learn, a.used ++ b.used⟩

/-- Outcome of a part of a walk: a value, a read that has not returned yet (address, bytes, stage, level, stage-1 level,
requester), or a fault, each with what the walk has learned. -/
inductive WRes (α : Type) where
  | ok (a : α) (k : WKnow)
  | need (addr len stage level s1 rid : Nat) (k : WKnow)
  | fault (f : XFault) (k : WKnow)
deriving DecidableEq, Repr

/-- Sequence two parts of a walk. -/
def WRes.bind {α β : Type} (x : WRes α) (f : α → WRes β) : WRes β :=
  match x with
  | .ok a k =>
    match f a with
    | .ok b m => .ok b (k.join m)
    | .need a n st lv s1 r m => .need a n st lv s1 r (k.join m)
    | .fault e m => .fault e (k.join m)
  | .need a n st lv s1 r k => .need a n st lv s1 r k
  | .fault e k => .fault e k

/-- The place of a read in a walk. -/
def walkPlace (stage level s1 : Nat) : Nat := stage * 64 + level * 8 + s1
/-- The place of the descriptor (R278: reported at stage 1). -/
def descPlace : Nat := walkPlace 1 4 7

/-- R263: the page of a host address lies in an enabled range of the unit. -/
def State.inRange (s : State) (u addr : Nat) : Bool :=
  (List.range 8).any (fun k =>
    let base := s.g (Reg.XLT_RANGE.base_lo u k) + s.g (Reg.XLT_RANGE.base_hi u k) * 2 ^ 20
    let lim := s.g (Reg.XLT_RANGE.limit_lo u k) + s.g (Reg.XLT_RANGE.limit_hi u k) * 2 ^ 20
    s.g (Reg.XLT_RANGE.enable u k) == 1 && base ≤ addr / 4096 && addr / 4096 ≤ lim)

/-- What stands at one place of a walk: what the walk was given there before, else what the walk cache supplies (R267), else
a read, refused outside the ranges (R263). -/
def State.walkRead (s : State) (u : Nat) (w : Walk) (cached : Option Nat) (addr len stage level s1 rid : Nat) : WRes WalkVal :=
  let place := walkPlace stage level s1
  match w.reads.find? (fun e => e.place == place), cached with
  | some e, _ => .ok e .nil
  | none, some c => .ok ⟨place, c, true⟩ ⟨[], [⟨place, c, true⟩]⟩
  | none, none =>
    if s.inRange u addr then .need addr len stage level s1 rid .nil else .fault ⟨6, stage, level, s1, addr, 0⟩ .nil

/-- Table index of an input address at a level (R258). -/
def vaIndex (va l : Nat) : Nat := bits va (39 - 9 * l) 9
/-- Page size exponent of a leaf at a level (R260). -/
def pageExp (l : Nat) : Nat := if l = 1 then 30 else if l = 2 then 21 else 12
/-- R260: a badly formed entry at a level. -/
def badFormat (e l : Nat) : Bool :=
  (l == 0 && bit e 1) || (l == 3 && !bit e 1) || (l == 1 && bit e 1 && bits e 12 18 != 0) || (l == 2 && bit e 1 && bits e 12 9 != 0)
/-- The address field of an entry, as an address (R259). -/
def pteAddr (e : Nat) : Nat := bits e 12 40 * 4096

/-- A walk-cache entry that a walk may use (R267). -/
def XUnit.cached (x : XUnit) (kind as_ fn lvl pfx : Nat) : Option Nat :=
  (x.wc.find? (fun e => e.kind == kind && e.as_ == as_ && e.fn == fn && e.lvl == lvl && e.pfx == pfx)).map (fun e => e.val)

/-- A descriptor's fields (R256). -/
def Asd.valid (d : Nat) : Bool := bit d 0
def Asd.priv (d : Nat) : Bool := bit d 1
def Asd.bypass (d : Nat) : Bool := bit d 2
def Asd.root (d : Nat) : Nat := pteAddr d
def Asd.owner (d : Nat) : Nat := bits d 64 12

/-- R261: stage 2 is in use for a function. -/
def State.s2on (s : State) (f : Nat) : Bool := s.g (Reg.XLT_FN_S2.enable f) == 1
/-- Its root table. -/
def State.s2root (s : State) (f : Nat) : Nat := (s.g (Reg.XLT_FN_S2.root_lo f) + s.g (Reg.XLT_FN_S2.root_hi f) * 2 ^ 20) * 4096

/-- R262: the stage-2 levels from `l` on, with table `t`; the answer is the output address, the leaf and its level. A pointer
the walk cache supplies stands for a valid entry that points to it. -/
def State.s2levels (s : State) (u : Nat) (w : Walk) (fn ipa acc s1 : Nat) : Nat → Nat → Nat → WRes (Nat × Nat × Nat)
  | 0, _, _ => .fault ⟨2, 2, 3, s1, 0, 0⟩ .nil
  | k + 1, l, t =>
    let pfx := ipa >>> (39 - 9 * l)
    let ea := t + 8 * vaIndex ipa l
    (s.walkRead u w (((s.xu u).cached 2 0 fn l pfx).map (fun p => p + 1)) ea 8 2 l s1 (u * 256)).bind (fun v =>
      let e := v.val
      if ¬ bit e 0 then .fault ⟨1, 2, l, s1, ea, 0⟩ .nil
      else if badFormat e l then .fault ⟨2, 2, l, s1, ea, 0⟩ .nil
      else if bit e 1 then
        if w.req.use ≠ XUse.lock ∧ ¬ bit e (2 + (if s1 = 7 then acc else 0)) then .fault ⟨3, 2, l, s1, ea, 0⟩ .nil
        else .ok (pteAddr e + bits ipa 0 (pageExp l), e, l) .nil
      else
        (WRes.ok () ⟨if v.cached then [] else [⟨2, 0, fn, true, l, pfx, pteAddr e, s.crs.course⟩], []⟩).bind
          (fun _ => s.s2levels u w fn ipa acc s1 k (l + 1) (pteAddr e)))

/-- R261, R262: s2(): the host address of a stage-2 input; the leaf and its level are 0 and 7 where no stage 2 is used. -/
def State.s2walk (s : State) (u : Nat) (w : Walk) (fn ipa acc s1 : Nat) : WRes (Nat × Nat × Nat) :=
  if ¬ s.s2on fn then .ok (ipa, 0, 7) .nil
  else if ipa ≥ 2 ^ 48 then .fault ⟨8, 2, 7, s1, 0, 0⟩ .nil
  else s.s2levels u w fn ipa acc s1 4 0 (s.s2root fn)

/-- R265, R266: why a stage-1 leaf refuses a request, if it does (kind of R278). -/
def leafRefuses (e acc : Nat) (priv ovr : Bool) : Option Nat :=
  if ¬ bit e (2 + acc) then some 3
  else
    let u := bit e 8
    if acc = 5 then (if u then some 4 else none)
    else if priv then (if u && !ovr then some 4 else none)
    else if u then none else some 4

/-- R257: why a descriptor does not serve a request. The owner test of R274 asks only whose address space it is. -/
def descRefuses (u : Nat) (r : XReq) (d : Nat) : Bool :=
  let o := Asd.owner d
  !Asd.valid d || (!r.mcore && r.identity != o) ||
    (r.use != XUse.owner && ((!r.mcore && (o ≥ 1024 || hpOf o != u)) || (Asd.priv d && o < 1024 && !isPf o) ||
      (Asd.bypass d && !Asd.priv d)))

/-- R256, R257: the descriptor of the request's address space, read under the PF's requester ID (R255) as one read of its
16 bytes (R262 counts one descriptor read in a full miss). A cached one serves its owner and the management cores (R267). -/
def State.asDesc (s : State) (u : Nat) (w : Walk) : WRes Nat :=
  let r := w.req
  let n := min 16 (s.g (Reg.XLT_AST_CFG.n u))
  if s.g (Reg.XLT_AST_CFG.enable u) = 0 ∨ r.as_ ≥ 2 ^ n then .fault ⟨7, 1, 4, 7, 0, 0⟩ .nil
  else
    let addr := (s.g (Reg.XLT_AST_BASE_LO.base_lo u) + s.g (Reg.XLT_AST_BASE_HI.base_hi u) * 2 ^ 20) * 4096 + 16 * r.as_
    let mine := ((s.xu u).cached 0 r.as_ 0 0 0).filter (fun d => r.mcore || Asd.owner d == r.identity)
    (s.walkRead u w mine addr 16 1 4 7 (u * 256)).bind (fun v =>
      if descRefuses u r v.val then .fault ⟨7, 1, 4, 7, if v.cached then 0 else addr, 0⟩ .nil
      else .ok v.val ⟨if v.cached then [] else [⟨0, r.as_, 0, false, 0, 0, v.val, s.crs.course⟩], []⟩)

/-- R262: the stage-1 levels from `l` on: output address, leaf and level of stage 1, leaf and level of stage 2. -/
def State.s1levels (s : State) (u : Nat) (w : Walk) (d : Nat) : Nat → Nat → Nat → WRes (Nat × Nat × Nat × Nat × Nat)
  | 0, _, _ => .fault ⟨2, 1, 3, 7, 0, 0⟩ .nil
  | k + 1, l, t =>
    let r := w.req
    let fn := Asd.owner d
    let pfx := r.va >>> (39 - 9 * l)
    let cached := match w.reads.find? (fun e => e.place == walkPlace 1 l 7) with
      | some v => if v.cached then some v.val else none
      | none => ((s.xu u).cached 1 r.as_ fn l pfx).map (fun p => p + 1)
    (match cached with
     | some p => (s.walkRead u w (some p) 0 8 1 l 7 fn).bind (fun v => .ok (0, v) .nil)
     | none =>
       (s.s2walk u w fn (t + 8 * vaIndex r.va l) 0 l).bind (fun x =>
         (s.walkRead u w none x.1 8 1 l 7 fn).bind (fun v => .ok (x.1, v) .nil))).bind (fun y =>
      let ea := y.1
      let e := y.2.val
      if ¬ bit e 0 then .fault ⟨1, 1, l, 7, ea, 0⟩ .nil
      else if badFormat e l then .fault ⟨2, 1, l, 7, ea, 0⟩ .nil
      else if bit e 1 then
        match (if r.use = XUse.lock then none else leafRefuses e r.acc (r.mcore || Asd.priv d) r.ovr) with
        | some kind => .fault ⟨kind, 1, l, 7, ea, 0⟩ .nil
        | none =>
          (s.s2walk u w fn (pteAddr e + bits r.va 0 (pageExp l)) r.acc 7).bind (fun z => .ok (z.1, e, l, z.2.1, z.2.2) .nil)
      else
        (WRes.ok () ⟨if y.2.cached then [] else [⟨1, r.as_, fn, s.s2on fn, l, pfx, pteAddr e, s.crs.course⟩], []⟩).bind
          (fun _ => s.s1levels u w d k (l + 1) (pteAddr e)))

/-- R262: translate(): the translation-cache entry a walk ends in. -/
def State.translate (s : State) (u : Nat) (w : Walk) : WRes TlbEnt :=
  (s.asDesc u w).bind (fun d =>
    let r := w.req
    let fn := Asd.owner d
    let mk (out l1 e1 l2 e2 : Nat) : TlbEnt :=
      let z := min (if l1 = 7 then 48 else pageExp l1) (if l2 = 7 then 48 else pageExp l2)
      let z1 := if z = 48 then 12 else z
      { as_ := r.as_, page := r.va / 2 ^ z1 * 2 ^ z1, size := z1, out := out / 2 ^ z1 * 2 ^ z1, r1 := bits e1 2 7, lvl1 := l1,
        r2 := bits e2 2 7, lvl2 := l2, owner := fn, priv := Asd.priv d, s2 := s.s2on fn, fill := s.crs.course, locked := false }
    if r.va ≥ 2 ^ 48 then .fault ⟨8, 1, 7, 7, 0, 0⟩ .nil
    else if Asd.bypass d then (s.s2walk u w fn r.va r.acc 7).bind (fun y => .ok (mk y.1 7 0 y.2.2 y.2.1) .nil)
    else (s.s1levels u w d 4 0 (Asd.root d)).bind (fun y => .ok (mk y.1 y.2.2.1 y.2.1 y.2.2.2.2 y.2.2.2.1) .nil))

/-! ### Caches, faults and lookups -/

/-- The two requests miss on one page of one address space (R264). An owner test waits for no translation. -/
def samePage (a b : XReq) : Bool := a.as_ == b.as_ && a.va / 4096 == b.va / 4096 && a.use != XUse.owner && b.use != XUse.owner

/-- Two walk-cache entries stand for the same descriptor or pointer. -/
def WcEnt.same (a b : WcEnt) : Bool := a.kind == b.kind && a.as_ == b.as_ && a.fn == b.fn && a.lvl == b.lvl && a.pfx == b.pfx

/-- R267, R481: fill the walk cache; an entry for the same descriptor or pointer is replaced, and which entry a fill evicts is free. -/
def State.wcFill (s : State) (u : Nat) (es : List WcEnt) : State :=
  es.foldl (fun t0 e =>
    let t := t0.fillBank (4 + u) (e.pfx * 16 + e.lvl)
    let x := t.xu u
    let keep := x.wc.filter (fun f => !f.same e)
    if keep.length < t.cacheCap (4 + u) 1024 then t.setXu u { x with wc := keep ++ [e] }
    else
      let p := t.draw
      p.2.setXu u { x with wc := keep.eraseIdx (p.1 % max 1 keep.length) ++ [e] }) s

/-- An entry covers an address of an address space. -/
def TlbEnt.covers (e : TlbEnt) (as_ va : Nat) : Bool := e.as_ == as_ && va / 2 ^ e.size * 2 ^ e.size == e.page

/-- Locked entries of a unit (R271). -/
def XUnit.lockedCount (x : XUnit) : Nat := (x.tlb.filter (fun e => e.locked)).length

/-- R267: fill the translation cache with what the walk of a request ended in; a locked entry is never evicted, and which other
entry is evicted is free. The fresh result replaces the owner's locked entry of the address in its lock slot (R268), and an
unlocked entry for the same page. An XLT_LOCK walk locks its result while a slot is free (R277); the answer says whether it
took one. -/
def State.tlbFill (s : State) (u : Nat) (r : XReq) (e : TlbEnt) : State × Bool :=
  let x := s.xu u
  let old := x.tlb.find? (fun f => f.locked && f.covers r.as_ r.va && f.owner == e.owner)
  let slot := r.use == XUse.lock && old.isNone && decide (x.lockedCount < 2048)
  let keep := x.tlb.filter (fun f => some f != old && (f.locked || !(f.as_ == e.as_ && f.page == e.page && f.size == e.size)))
  let e1 := { e with locked := old.isSome || slot }
  let s := if e1.locked then s.tableWrite (tagLocks u) Config.lockWords else s
  let s := s.fillBank u (e.as_ * 2 ^ 52 + e.page)
  if keep.length < s.cacheCap u 16384 then (s.setXu u { x with tlb := keep ++ [e1] }, slot)
  else
    let p := s.draw
    let open_ := keep.filter (fun f => !f.locked)
    let victim := open_[p.1 % max 1 open_.length]?
    (p.2.setXu u { x with tlb := keep.filter (fun f => some f != victim) ++ [e1] }, slot)

/-- R280: log a fault and raise the unit's source; a bus error the unit detects raises the walk-bus source as well. -/
def State.logFault (s : State) (u : Nat) (r : XReq) (priv : Bool) (f : XFault) (forced : Bool) : State :=
  let x := s.xu u
  let slot := x.logNext
  let rec_ := packB [(0, 64, r.va), (8, 64, f.addr), (16, 64, s.now), (24, 12, r.identity), (26, 16, r.as_),
    (28, 8, f.kind + f.stage * 16), (29, 8, f.level + f.s1 * 8), (30, 8, r.acc + 8 * b2n priv + f.cause * 16), (31, 8, x.logSeq)]
  let s1 := s.bumpIf (x.unread.contains slot) (Ctr.XLT_LOG_OVERWRITE_COUNT u)
  let s2 := (s1.bump (Ctr.XLT_FAULT_COUNT u)).setXu u
    { x with log := Tbl.put (fun _ => 0) x.log slot rec_, logNext := (slot + 1) % 64, logSeq := (x.logSeq + 1) % 256,
             unread := setAdd x.unread slot }
  let owner := if r.identity < 1024 then some r.identity else none
  let obj := u * 64 + slot + r.as_ * 256
  let s3 := s2.raise (srcXlt u 0) 0 obj owner f.kind
  if f.kind = 5 ∧ ¬ forced then s3.raise (srcXlt u 1) 0 obj owner f.kind else s3

/-- R279: the detail of a translation fault. -/
def XFault.detail (f : XFault) (acc : Nat) : Nat :=
  f.kind * 4096 + f.stage * 1024 + f.level * 128 + acc * 16 + (if f.kind = 5 then f.cause else 0)

/-- What a lookup answers. -/
inductive XRes where
  | pa (addr size : Nat)
  | wait
  | fault (f : XFault)
deriving DecidableEq, Repr

/-- R265, R266: the cached rights permit the request. -/
def TlbEnt.permits (e : TlbEnt) (r : XReq) : Bool :=
  (e.lvl1 == 7 || (leafRefuses (e.r1 * 4) r.acc (r.mcore || e.priv) r.ovr).isNone) && (e.lvl2 == 7 || bit (e.r2 * 4) (2 + r.acc))

/-- Queue a miss, unless it already waits or is walked (R264). -/
def State.miss (s : State) (u : Nat) (r : XReq) : State :=
  let x := s.xu u
  if x.misses.contains r ∨ (x.walks.map Walk.req).contains r then s else s.setXu u { x with misses := x.misses ++ [r] }

/-- A requester waits for a walk. -/
def State.xltWaits (s : State) (u : Nat) (who : Who) : Bool :=
  (s.xu u).misses.any (fun r => r.who == who) || (s.xu u).walks.any (fun w => w.req.who == who)

/-- The end of a walk that waits for a request. -/
def XUnit.ended (x : XUnit) (r : XReq) : Option WalkEnd := (x.results.find? (fun e => e.1 == r)).map Prod.snd
/-- It has been taken. -/
def State.takeEnd (s : State) (u : Nat) (r : XReq) : State :=
  let x := s.xu u
  s.setXu u { x with results := x.results.filter (fun e => e.1 != r) }

/-- R282: a request is looked up: one that has not asked before counts its hit. -/
def State.ask (s : State) (u : Nat) (r : XReq) (hit : Bool) : State :=
  let x := s.xu u
  if x.asked.contains r then s else (s.bumpIf hit (Ctr.XLT_HIT_COUNT u)).setXu u { x with asked := x.asked ++ [r] }
/-- The requester has all it asked for. -/
def State.askedAll (s : State) (u : Nat) (who : Who) : State :=
  let x := s.xu u
  s.setXu u { x with asked := x.asked.filter (fun r => r.who != who) }

/-- R267, R268: look an address up in a unit: a hit, a wait for a walk, or the fault a walk for it ended in. An entry whose rights
refuse the request is discarded, which counts (R282); a locked one is not, and is walked again in place. -/
def State.lookup (s : State) (u : Nat) (r : XReq) : State × XRes :=
  let x := s.xu u
  match x.ended r with
  | some (.fault f) => (s.takeEnd u r, .fault f)
  | _ =>
    match x.tlb.find? (fun e => e.covers r.as_ r.va && (r.mcore || e.owner == r.identity)) with
    | some e =>
      if r.va < 2 ^ 48 ∧ e.permits r then (s.ask u r true, .pa (e.out + r.va % 2 ^ e.size) e.size)
      else
        let s1 := s.ask u r true
        let x1 := s1.xu u
        if e.locked then (s1.miss u r, .wait)
        else (((s1.bump (Ctr.XLT_REWALK_COUNT u)).setXu u { x1 with tlb := x1.tlb.filter (fun f => f != e) }).miss u r, .wait)
    | none => ((s.ask u r false).miss u r, .wait)

/-- Translate one address. -/
def State.xlate (s : State) (u : Nat) (r : XReq) : State × XRes :=
  let y := s.lookup u r
  match y.2 with
  | .wait => y
  | _ => (y.1.askedAll u r.who, y.2)

/-- The pieces of a run of addresses, cut at 4 KiB pages: address and length. -/
def pagePieces : Nat → Nat → Nat → List (Nat × Nat)
  | 0, _, _ => []
  | k + 1, va, len =>
    if len = 0 then []
    else
      let n := min len (4096 - va % 4096)
      (va, n) :: pagePieces k (va + n) (len - n)

/-- What translating a run answers: the host pieces, a wait, or the first fault with its address. -/
inductive XRun where
  | run (l : List (Nat × Nat))
  | wait
  | fault (f : XFault) (va : Nat)
deriving DecidableEq, Repr

/-- Translate every page of a run, in ascending order. -/
def State.xlateRun (s : State) (u : Nat) (r : XReq) (len : Nat) : State × XRun :=
  let y : State × XRun := (pagePieces (len / 4096 + 2) r.va len).foldl (fun acc p =>
    match acc.2 with
    | .run l =>
      let y := acc.1.lookup u { r with va := p.1 }
      match y.2 with
      | .pa a _ => (y.1, .run (l ++ [(a, p.2)]))
      | .wait => (y.1, .wait)
      | .fault f => (y.1, .fault f p.1)
    | _ => acc) (s, .run [])
  match y.2 with
  | .wait => y
  | _ => (y.1.askedAll u r.who, y.2)

/-- Write bytes to translated pieces. -/
def State.writePieces (s : State) (hp rid : Nat) (l : List (Nat × Nat)) (d : Data) : State :=
  (l.foldl (fun (acc : State × Nat) p => (acc.1.hostWrite hp rid p.1 (d.slice acc.2 p.2), acc.2 + p.2)) (s, 0)).1

/-- Issue the reads of translated pieces. -/
def State.readRun (s : State) (hp rid : Nat) (l : List (Nat × Nat)) : State := l.foldl (fun t p => t.hostRead hp rid p.1 p.2) s

/-- Read translated pieces from a view of host memory. -/
def readPieces (v : HostView) : List (Nat × Nat) → ReadResult
  | [] => .data Data.empty
  | p :: t =>
    match HostView.read v p.1 p.2 with
    | .error c => .error c
    | .data d =>
      match readPieces v t with
      | .error c => .error c
      | .data e => .data (d.append e)

/-! ### Walks in progress (R262, R264) -/

/-- A unit that is present (R253). -/
def State.unitPresent (s : State) (u : Nat) : Bool := s.hpPresent u

/-- R280: the request of a walk is privileged: a management core's, or one of a privileged address space (R266), as far as the
walk has the descriptor. -/
def Walk.priv (w : Walk) (used : List WalkVal) : Bool :=
  w.req.mcore || ((w.reads ++ used).find? (fun v => v.place == descPlace)).any (fun v => Asd.priv v.val)

/-- Walk `i` is over. -/
def State.walkEnd (s : State) (u i : Nat) : State := s.setXu u { s.xu u with walks := (s.xu u).walks.eraseIdx i }

/-- Who waits for a translation is still there to take it. -/
def State.whoLives (s : State) : Who → Bool
  | .op i => (Tbl.find? s.trn.ops i).isSome
  | .arr k stream psn gen => s.trn.accepted.any (fun a => a.ctx == k && a.stream == stream && a.psn == psn && a.gen == gen)
  | .msg i gen => (Tbl.find? s.mch.hdrs i).isSome && Tbl.get (fun _ => 0) s.mch.gens i == gen
  | .atomic id => s.rma.atomics.any (fun x => x.id == id)
  | .entry q ctr => (s.sq? q).any (fun v => v.ents.any (fun e => e.ctr == ctr && e.isOpen))
  | .chunk tree ep csn _ _ => s.col.ops.any (fun o => o.tree == tree && o.ep == ep && o.csn == csn)
  | .core c _ => s.coreRuns c
  | .nobody => false

/-- R262: a fault is never cached: with its requester goes the outcome kept for it. A miss or walk it began goes on, for nobody. -/
def State.dropWho (s : State) (live : Who → Bool) (u : Nat) : State :=
  let x := s.xu u
  let own (r : XReq) : XReq := if live r.who then r else { r with who := .nobody }
  s.setXu u { x with misses := x.misses.map own, walks := x.walks.map (fun w => { w with req := own w.req }),
                     results := x.results.filter (fun e => live e.1.who), asked := x.asked.filter (fun r => live r.who) }
/-- Requesters that are no longer there are gone from every unit that holds anything. -/
def State.settleXlt (s : State) : State := (Tbl.keys s.xlt).foldl (fun t u => t.dropWho s.whoLives u) s
/-- So is a management core that is reset. -/
def State.dropCore (s : State) (c : Nat) : State :=
  (Tbl.keys s.xlt).foldl (fun t u => t.dropWho (fun w => match w with | .core i _ => i != c | _ => true) u) s

/-- A waiting request takes the fault of a walk for its page (R264); an XLT_LOCK walk ignores rights and the guard (R277). -/
def takesFault (w m : XReq) (f : XFault) : Bool := samePage w m && (m.use != XUse.lock || (f.kind != 3 && f.kind != 4))

/-- Walk `i` for `r` ends in a fault: it is logged (R280), but that an owner test fails is no fault (R274). -/
def State.walkFault (s : State) (u i : Nat) (r : XReq) (priv : Bool) (f : XFault) (forced : Bool) : State :=
  let t := s.walkEnd u i
  let t1 := if r.use = .owner ∧ f.kind = 7 then t else t.logFault u r priv f forced
  let y := t1.xu u
  t1.setXu u { y with misses := y.misses.filter (fun m => !takesFault r m f),
                      results := y.results ++
                                ((r :: y.misses.filter (fun m => takesFault r m f)).filter (fun m => s.whoLives m.who)).map (fun m => (m, .fault f)) }

/-- Walk `i` for `r` ends well: its translation fills the cache, and the requests that wait for it look there. -/
def State.walkFill (s : State) (u i : Nat) (r : XReq) (e : TlbEnt) : State :=
  let t := (s.walkEnd u i).tlbFill u r e
  let y := t.1.xu u
  t.1.setXu u { y with misses := y.misses.filter (fun m => !samePage r m),
                       results := if r.use = .lock then y.results ++ [(r, .done t.2)] else y.results }

/-- R264: the read of walk `i` ends in an error: the walk faults at the place of that read. -/
def State.walkBad (s : State) (u i cause : Nat) (forced : Bool) : State :=
  match (s.xu u).walks[i]? with
  | none => s
  | some w => s.walkFault u i w.req (w.priv []) ⟨5, w.asked / 64, w.asked / 8 % 8, w.asked % 8, w.addr, cause⟩ forced

/-- Carry walk `i` on as far as the reads that have returned allow. -/
def State.walkOn (s : State) (u i : Nat) : State :=
  let x := s.xu u
  match x.walks[i]? with
  | none => s
  | some w =>
    let ask (addr len st lv s1 rid : Nat) (k : WKnow) : State :=
      let t := s.setXu u { x with walks := x.walks.set i { w with reads := w.reads ++ k.used, asked := walkPlace st lv s1, addr := addr } }
      (t.bump (Ctr.XLT_WALK_READ_COUNT u)).hostRead u rid addr len
    match w.req.use with
    | .owner =>
      match s.asDesc u w with
      | .ok _ k =>
        let t := (s.wcFill u k.learn).walkEnd u i
        t.setXu u { t.xu u with results := (t.xu u).results ++ [(w.req, .done false)] }
      | .fault f k => (s.wcFill u k.learn).walkFault u i w.req (w.priv k.used) f false
      | .need addr len st lv s1 rid k => ask addr len st lv s1 rid k
    | _ =>
      match s.translate u w with
      | .ok e k => (s.wcFill u k.learn).walkFill u i w.req e
      | .fault f k => (s.wcFill u k.learn).walkFault u i w.req (w.priv k.used) f false
      | .need addr len st lv s1 rid k => ask addr len st lv s1 rid k

/-- R262: PAGE_WALK: the oldest miss whose page is not being walked starts a walk. -/
def execPageWalk (u : Nat) (s : State) : Host.Outcome State Fault Refusal :=
  let x := s.xu u
  match x.misses.find? (fun m => !(x.walks.any (fun w => samePage w.req m))) with
  | some m =>
    if s.unitPresent u ∧ x.walks.length < 32 then
      let s1 := s.setXu u { x with misses := x.misses.erase m, walks := x.walks ++ [⟨m, [], 0, 0⟩] }
      .next ((s1.bump (Ctr.XLT_MISS_COUNT u)).walkOn u x.walks.length)
    else .next s
  | none => .next s

/-- R262, R264: WALK_READ_RETURN: the read of walk `i` returns. -/
def execWalkReadReturn (u i : Nat) (r : ReadResult) (s : State) : Host.Outcome State Fault Refusal :=
  let x := s.xu u
  match x.walks[i]? with
  | some w =>
    match r with
    | .data d => .next ((s.setXu u { x with walks := x.walks.set i { w with reads := w.reads ++ [⟨w.asked, d.val, false⟩] } }).walkOn u i)
    | .error c => .next (s.walkBad u i c false)
  | none => .next s

/-- R270: TLB_AGE_EXPIRY: at cycle 0 of a course, old unlocked entries and walk-cache entries become invalid. -/
def execTlbAgeExpiry (u : Nat) (s : State) : Host.Outcome State Fault Refusal :=
  if u < 4 ∧ s.live ∧ s.crs.cycle = 0 then
    let x := s.xu u
    let age := max 256 (s.g Reg.XLT_AGE_CFG.tlb_age)
    let tlb := x.tlb.filter (fun e => e.locked || s.since e.fill < age)
    let wc := x.wc.filter (fun e => s.since e.fill < age)
    .next ((s.setXu u { x with tlb := tlb, wc := wc }).bumpBy (Ctr.XLT_AGE_COUNT u) (x.tlb.length - tlb.length + (x.wc.length - wc.length)))
  else .next s

/-! ### Invalidation and locking (R271-R277) -/

/-- R275: remove entries in one cycle; walks whose result would fall in the scope begin again. The number removed. -/
def State.invalidate (s : State) (u : Nat) (tlb : TlbEnt → Bool) (wc : WcEnt → Bool) (walk : Walk → Bool) : State × Nat :=
  let x := s.xu u
  let keep := x.tlb.filter (fun e => !tlb e)
  let n := x.tlb.length - keep.length
  let s1 := s.setXu u { x with tlb := keep, wc := x.wc.filter (fun e => !wc e),
                               walks := x.walks.map (fun w => if walk w then { w with reads := [] } else w) }
  let again := (x.walks.zipIdx).filter (fun e => walk e.1)
  let s2 := again.reverse.foldl (fun t e => t.walkOn u e.2) s1
  ((s2.bumpBy (Ctr.XLT_INV_COUNT u) n).bumpBy (Ctr.XLT_MISS_COUNT u) again.length, n)

/-- The owner of the address space a walk is in, once it has the descriptor. -/
def Walk.owner? (w : Walk) : Option Nat := (w.reads.find? (fun v => v.place == descPlace)).map (fun v => Asd.owner v.val)

/-- R272, R273: every entry of a function in its unit; a walk that has no descriptor yet may be one of them. -/
def State.invalidateFn (s : State) (u f : Nat) : State × Nat :=
  s.invalidate u (fun e => e.owner == f)
    (fun e => (e.kind == 0 && Asd.owner e.val == f) || (e.kind != 0 && e.fn == f))
    (fun w => (w.owner?.getD f) == f)

/-- R272: the requests of a function are gone with it, and the walks they began. -/
def State.dropReqs (s : State) (u f : Nat) : State :=
  let x := s.xu u
  let other (r : XReq) : Bool := r.identity != f || r.mcore
  s.setXu u { x with walks := x.walks.filter (fun w => other w.req), misses := x.misses.filter other,
                     results := x.results.filter (fun e => other e.1), asked := x.asked.filter other }

/-- R272: empty a whole unit, lock slots included. -/
def State.emptyUnit (s : State) (u : Nat) : State :=
  let x := s.xu u
  s.setXu u { x with tlb := [], wc := [], walks := [], misses := [], results := [], asked := [] }

/-- Body fields of a translation command (R273). -/
def Xw.unit (r : Nat) : Nat := Wqe.at_ r 16 0 2
def Xw.as_ (r : Nat) : Nat := Wqe.at_ r 18 0 16
def Xw.fn (r : Nat) : Nat := Wqe.at_ r 20 0 12
def Xw.va (r : Nat) : Nat := Wqe.at_ r 24 0 64
def Xw.pages (r : Nat) : Nat := Wqe.at_ r 32 0 32

/-- R274, 0x0104: the range of a command that names one. -/
def Xw.badRange (r : Nat) : Bool := Xw.va r % 4096 != 0 || Xw.pages r == 0 || decide (Xw.va r + Xw.pages r * 4096 > 2 ^ 48)

/-- R274: the detail with which a fetched translation command is malformed, as far as no descriptor is read. For a VF's
XLT_INV_ADDR the owner test of 0x0103 comes before 0x0104, so both wait for `State.startInv`. -/
def State.xltBody (s : State) (f r : Nat) : Option Nat :=
  let op := Wqe.op r
  let vf := !isPf f
  if vf && (op == 0x3A || op == 0x3B || op == 0x3C || op == 0x3D) then some 0x0101
  else if ¬ s.unitPresent (Xw.unit r) then some 0x0102
  else if vf && Xw.unit r != hpOf f then some 0x0103
  else if !vf && (op == 0x38 || op == 0x3C || op == 0x3D) && Xw.badRange r then some 0x0104
  else if op == 0x3A && hpOf (Xw.fn r) != Xw.unit r then some 0x0105
  else none

/-- The entry is malformed after it was started (R231, R274). -/
def State.malformed (s : State) (q : Nat) (e : Ent) (detail : Nat) : State :=
  (s.bump Ctr.HIF_MALFORMED_COUNT).finishEntry q e.ctr (Res.of stMALFORMED detail)

/-- What the owner test of R274 says. -/
inductive Owns where
  | yes | no | wait | fault (f : XFault)
deriving DecidableEq, Repr

/-- R274: the owner test of 0x0103 for a VF: the descriptor of the address space is its own, where the walk cache or a read
shows it. A table without the descriptor gives no owner. -/
def State.ownsAs (s : State) (u : Nat) (r : XReq) : State × Owns :=
  match (s.xu u).ended r with
  | some (.fault f) => (s.takeEnd u r, if f.kind = 7 then .no else .fault f)
  | some (.done _) => (s.takeEnd u r, .yes)
  | none =>
    match s.asDesc u ⟨r, [], 0, 0⟩ with
    | .ok _ _ => (s, .yes)
    | .fault f _ => if f.kind = 7 then (s, .no) else (s.logFault u r false f false, .fault f)
    | .need .. => (s.miss u r, .wait)

/-- A started invalidation waits for XLT_INV_COMPLETE with the number removed, its unit, and whether the zero-length read is out
(R275). -/
def State.invRun (s : State) (q : Nat) (e : Ent) (u removed : Nat) (out : Bool) : State :=
  s.runEntry q e.ctr (removed * 8 + u * 2 + b2n out)

/-- Start an invalidation entry of one opcode: R274's owner test for a VF, then its range, then the effect. A fault of the
test's read has the command's address as its input (R279). -/
def State.startInv (s : State) (q op : Nat) (act : State → Nat → State × Nat) : State :=
  match s.startable q op with
  | none => s
  | some (v, e) =>
    let u := Xw.unit e.raw
    let run (t : State) : State := let y := act t e.raw; y.1.invRun q e u y.2 false
    if isPf v.owner then run s
    else
      let va := if op = 0x38 then Xw.va e.raw else 0
      let t := s.ownsAs u ⟨Xw.as_ e.raw, va, 0, v.owner, false, false, .owner, .entry q e.ctr⟩
      match t.2 with
      | .no => t.1.malformed q e 0x0103
      | .fault f => t.1.finishEntry q e.ctr { Res.of stLOCAL (f.detail 0) with aux := va }
      | .wait => t.1
      | .yes => if op = 0x38 ∧ Xw.badRange e.raw then t.1.malformed q e 0x0104 else run t.1

/-- R273, R275: XLT_INV_ADDR. Every walk of the address space is begun again: what it would put into the walk cache is in the scope. -/
def execXltInvAddr (q : Nat) (s : State) : Host.Outcome State Fault Refusal :=
  .next (s.startInv q 0x38 (fun t r =>
    let lo := Xw.va r
    let hi := lo + Xw.pages r * 4096
    t.invalidate (Xw.unit r) (fun e => e.as_ == Xw.as_ r && e.page < hi && lo < e.page + 2 ^ e.size)
      (fun e => e.kind ≤ 1 && e.as_ == Xw.as_ r)
      (fun w => w.req.as_ == Xw.as_ r)))

/-- R273: XLT_INV_AS. -/
def execXltInvAs (q : Nat) (s : State) : Host.Outcome State Fault Refusal :=
  .next (s.startInv q 0x39 (fun t r =>
    t.invalidate (Xw.unit r) (fun e => e.as_ == Xw.as_ r) (fun e => e.kind ≤ 1 && e.as_ == Xw.as_ r) (fun w => w.req.as_ == Xw.as_ r)))

/-- R273: XLT_INV_FN. -/
def execXltInvFn (q : Nat) (s : State) : Host.Outcome State Fault Refusal :=
  .next (s.startInv q 0x3A (fun t r => t.invalidateFn (Xw.unit r) (Xw.fn r)))

/-- R273: XLT_INV_ALL. -/
def execXltInvAll (q : Nat) (s : State) : Host.Outcome State Fault Refusal :=
  .next (s.startInv q 0x3B (fun t r => t.invalidate (Xw.unit r) (fun _ => true) (fun _ => true) (fun _ => true)))

/-- The oldest running entry of one of the given opcodes. -/
def Sq.runningOp (v : Sq) (p : Nat → Bool) : Option (Ent × Nat) :=
  v.ents.findSome? (fun e => match e.st with | .running n => if p (Wqe.op e.raw) then some (e, n) else none | _ => none)

/-- Accesses through translations are still to be issued, or their reads still out, on a host port (R275): reads for GET_DATA
packets, and atomics from their read to their write. Every other access is issued and done in the step that translates it. -/
def State.readsOut (s : State) (hp : Nat) : Bool :=
  s.rma.dataReads.any (fun e => e.2.2.2 == hp) || s.rma.atomics.any (fun a => a.st != .queued && bits a.acc.hdr 20 2 == hp)

/-- R275: XLT_INV_COMPLETE: the accesses through removed entries have been issued and their reads have completed. A completion on
another host port first waits for a zero-length read on the unit's own: the command then issues it, and given again stands for
its return (DESIGN CHOICE, notes/assumptions/92: the table has no row for that return). -/
def execXltInvComplete (q : Nat) (s : State) : Host.Outcome State Fault Refusal :=
  match s.sq? q with
  | some v =>
    match v.runningOp (fun op => 0x38 ≤ op && op ≤ 0x3B) with
    | some (e, n) =>
      let u := n / 2 % 4
      if n % 2 = 1 then .next (s.finishEntry q e.ctr (Res.ok (n / 8)))
      else if s.readsOut u then .next s
      else if hpOf v.owner = u then .next (s.finishEntry q e.ctr (Res.ok (n / 8)))
      else
        let base := (s.g (Reg.XLT_AST_BASE_LO.base_lo u) + s.g (Reg.XLT_AST_BASE_HI.base_hi u) * 2 ^ 20) * 4096
        .next ((s.hostRead u (u * 256) base 0).invRun q e u (n / 8) true)
    | none => .next s
  | none => .next s

/-- R277: lock one page: already locked, locked with a slot taken, a fault, no slot, or a walk to wait for. -/
inductive LockRes where
  | held | locked | full | wait | fault (f : XFault)
deriving DecidableEq, Repr

/-- R277: the step for one page of XLT_LOCK. -/
def State.lockPage (s : State) (u : Nat) (r : XReq) : State × LockRes :=
  match (s.xu u).ended r with
  | some (.fault f) => (s.takeEnd u r, .fault f)
  | some (.done true) => (s.takeEnd u r, .locked)
  | _ =>
    let s1 := s.takeEnd u r
    let x := s1.xu u
    match x.tlb.find? (fun e => e.covers r.as_ r.va && e.owner == r.identity) with
    | some e =>
      if e.locked then (s1, .held)
      else if x.lockedCount ≥ 2048 then (s1, .full)
      else
        ((s1.tableWrite (tagLocks u) Config.lockWords).setXu u
          { x with tlb := x.tlb.map (fun f => if f = e then { f with locked := true, fill := s.crs.course } else f) }, .locked)
    | none => if x.lockedCount ≥ 2048 then (s1, .full) else (s1.miss u r, .wait)

/-- R277: lock the pages from page number `i` on; `n` counts the slots the command has taken so far. -/
def State.lockPages (s : State) (q : Nat) (e : Ent) (u : Nat) (f : Nat) : Nat → Nat → Nat → State
  | 0, _, n => s.finishEntry q e.ctr (Res.ok n)
  | k + 1, i, n =>
    let r : XReq := ⟨Xw.as_ e.raw, Xw.va e.raw + 4096 * i, 0, f, false, false, .lock, .entry q e.ctr⟩
    let p := s.lockPage u r
    match p.2 with
    | .held => p.1.lockPages q e u f k (i + 1) n
    | .locked => p.1.lockPages q e u f k (i + 1) (n + 1)
    | .full => p.1.finishEntry q e.ctr { Res.ok n with status := stRESOURCE }
    | .wait => p.1.runEntry q e.ctr (i * 2 ^ 40 + n)
    | .fault x => p.1.finishEntry q e.ctr { status := stLOCAL, detail := x.detail 0, byteCount := n, aux := r.va, slot2 := none }

/-- R277: XLT_LOCK: starts, and goes on after each walk it waits for. -/
def execXltLock (q : Nat) (s : State) : Host.Outcome State Fault Refusal :=
  match s.sq? q with
  | none => .next s
  | some v =>
    match v.runningOp (fun op => op == 0x3C) with
    | some (e, n) =>
      let i := n / 2 ^ 40
      .next (s.lockPages q e (Xw.unit e.raw) v.owner (Xw.pages e.raw - i) i (n % 2 ^ 40))
    | none =>
      match s.startable q 0x3C with
      | some (w, e) => .next (s.lockPages q e (Xw.unit e.raw) w.owner (Xw.pages e.raw) 0 0)
      | none => .next s

/-- R277: XLT_UNLOCK. -/
def execXltUnlock (q : Nat) (s : State) : Host.Outcome State Fault Refusal :=
  match s.startable q 0x3D with
  | some (_, e) =>
    let u := Xw.unit e.raw
    let x := s.xu u
    let lo := Xw.va e.raw
    let hit (f : TlbEnt) : Bool := f.locked && f.as_ == Xw.as_ e.raw && f.page < lo + Xw.pages e.raw * 4096 && lo < f.page + 2 ^ f.size
    let s0 := s.tableWrite (tagLocks u) (Config.lockWords * (x.tlb.filter hit).length)
    let s1 := s0.setXu u { x with tlb := x.tlb.map (fun f => if hit f then { f with locked := false, fill := s.crs.course } else f) }
    .next (s1.finishEntry q e.ctr (Res.ok (x.tlb.filter hit).length))
  | none => .next s

/-! ### Accesses of management cores (R254, R255, R266, R279, R508) -/

/-- R508: an access of `len` bytes by a management core at the core address `addr` of one of its host windows, with access code `acc` (R265):
it is translated by the window's unit, in the window's address space and with its override, as a management core's (R266), under the PF's
requester ID (R255); `go` issues the translated pieces. While it waits for a walk the core repeats it. A disabled window and a fault raise an
exception in the core (R279), and so does an address past the windows or a window of an absent unit (DESIGN CHOICE, notes/assumptions/25). -/
def State.coreAccess (s : State) (core addr acc len : Nat) (go : State → Nat → List (Nat × Nat) → State) : State :=
  let w := addr / 2 ^ 32 - 1
  let u := s.g (Reg.MGT_HWIN.unit core w)
  let va := s.g (Reg.MGT_HWIN.va_hi core w) * 2 ^ 32 + s.g (Reg.MGT_HWIN.va_lo core w) * 2 ^ 12 + addr % 2 ^ 32
  if ¬ s.coreRuns core ∨ ¬ s.mastering then s
  else if 8 ≤ w ∨ s.g (Reg.MGT_HWIN.enable core w) = 0 ∨ ¬ s.unitPresent u then s.emit (.coreException core)
  else
    let p := s.xlateRun u ⟨s.g (Reg.MGT_HWIN.as core w), va, acc, u * 256, true, s.g (Reg.MGT_HWIN.user_override core w) = 1, .access,
                           .core core addr⟩ len
    match p.2 with
    | .run l => go p.1 u l
    | .wait => p.1
    | .fault _ _ => p.1.emit (.coreException core)

/-- The core whose access through a host window an offset stands for: a management core's address from 2^32 on. -/
def hostCore (req : Requester) (off : Nat) : Option Nat :=
  match req with
  | .mc c => if 2 ^ 32 ≤ off then some c else none
  | _ => none

end Sys2Proof.Machine
end

