-- ==== Sys2Proof/Machine/Trn.lean ====
section
/-! DEFINITION. The transport's peer contexts, operations, packets, acknowledgement and retransmission (spec/09), as
operations of the machine; the meanings of its commands are in Machine/TrnCmd.lean. -/
namespace Sys2Proof.Machine

/-! ### Contexts (R283-R288) -/

/-- Key of a peer context: host port, domain slot, remote host attachment address. -/
def ctxKey (hp slot remote : Nat) : Nat := (hp * 1024 + slot) * 2 ^ 22 + remote
def ctxHp (k : Nat) : Nat := k / 2 ^ 32
def ctxSlot (k : Nat) : Nat := k / 2 ^ 22 % 1024
def ctxRemote (k : Nat) : Nat := k % 2 ^ 22
/-- Key of a host port and slot. -/
def ctxRegion (k : Nat) : Nat := k / 2 ^ 22
/-- The own host attachment address at a host port (R20). -/
def State.attach (s : State) (hp : Nat) : Nat := s.me * 4 + hp
def State.ctx? (s : State) (k : Nat) : Option Ctx := Tbl.find? s.trn.ctxs k
def State.setCtx (s : State) (k : Nat) (c : Ctx) : State := { s with trn := { s.trn with ctxs := Tbl.ins s.trn.ctxs k c } }
/-- Change a cached context; it then differs from its record. -/
def State.onCtx (s : State) (k : Nat) (f : Ctx → Ctx) : State :=
  match s.ctx? k with
  | some c => s.setCtx k { f c with dirty := true }
  | none => s
def State.slot? (s : State) (n : Nat) : Option Slot := Tbl.find? s.trn.slots n
def State.region? (s : State) (hp slot : Nat) : Option Region := Tbl.find? s.trn.regions (hp * 1024 + slot)
/-- The slot that holds a domain (R284). -/
def State.slotOf (s : State) (domain : Nat) : Option Nat :=
  (s.trn.slots.find? (fun e => e.2.domain == domain)).map Prod.fst

def StreamTx.fresh : StreamTx := { next := 0, acked := 0xFFFFFF, serialSeen := 0, backoff := 0, timer := none, pkts := [], ordMark := none }
def StreamRx.fresh : StreamRx :=
  { expected := 0, sack := 0, serial := 0, count := 0, firstAt := none, lastAck := none, waiting := false, ordNak := none,
    refused := [], refusedOps := [] }
def Ctx.txS (c : Ctx) (st : Nat) : StreamTx := c.tx.getD st StreamTx.fresh
def Ctx.rxS (c : Ctx) (st : Nat) : StreamRx := c.rx.getD st StreamRx.fresh
def Ctx.setTx (c : Ctx) (st : Nat) (v : StreamTx) : Ctx := { c with tx := c.tx.set st v }
def Ctx.setRx (c : Ctx) (st : Nat) (v : StreamRx) : Ctx := { c with rx := c.rx.set st v }
/-- The largest window (R203). -/
def State.cwndMax (s : State) : Nat := max 65 (s.g Reg.SCH_CC_CFG.cwnd_max)

/-- R288: a fresh context; its flow hash is free. -/
def State.freshCtx (s : State) (epoch : Nat) : Ctx × State :=
  let d := s.draw
  ({ epoch := epoch, state := 0, errDetail := 0, errCourse := 0, rxSynced := false, txGen := 0, rxGen := 0,
     tx := [StreamTx.fresh, StreamTx.fresh], rx := [StreamRx.fresh, StreamRx.fresh], markedSeen := 0, markedTotal := 0,
     cwnd := s.cwndMax, alpha := 0, winAcked := 0, winMarked := 0, ordValid := false, ordTag := 0, ordWall := 0,
     hash := d.1 % 4096, dirty := true, noWrite := false, inbound := false }, d.2)

/-- The record of a context (the table of R288). -/
def Ctx.toRec (c : Ctx) (k domain : Nat) (encrypt : Bool) : Data :=
  let q := c.txS 0
  let r := c.txS 1
  let a := c.rxS 0
  let b := c.rxS 1
  ⟨256, packB [(0, 22, ctxRemote k), (3, 2, ctxHp k), (4, 10, ctxSlot k), (6, 16, domain), (8, 32, c.epoch),
    (12, 8, 1 + 2 * b2n encrypt + 4 * c.state + 16 * b2n c.rxSynced), (13, 8, c.errDetail), (16, 32, c.txGen.toNat),
    (20, 32, q.next.toNat + q.backoff * 2 ^ 24), (24, 24, q.acked.toNat), (28, 32, r.next.toNat + r.backoff * 2 ^ 24),
    (32, 24, r.acked.toNat), (36, 16, q.serialSeen.toNat), (38, 16, r.serialSeen.toNat), (40, 16, c.markedSeen), (42, 16, c.cwnd),
    (44, 16, c.alpha), (46, 16, c.winAcked), (48, 16, c.winMarked), (50, 8, b2n c.ordValid + 2 * c.ordTag), (52, 10, c.ordWall),
    (54, 12, c.hash), (56, 48, c.errCourse.toNat), (64, 32, c.rxGen.toNat), (68, 24, a.expected.toNat), (72, 24, b.expected.toNat),
    (76, 16, a.serial.toNat), (78, 16, b.serial.toNat), (80, 16, c.markedTotal), (96, 256, a.sack), (128, 256, b.sack)]⟩

/-- The context a record holds. -/
def Ctx.ofRec (d : Data) : Ctx :=
  let f (off lsb w : Nat) : Nat := d.field off lsb w
  let tx (o oa os : Nat) : StreamTx :=
    { next := BitVec.ofNat 24 (f o 0 24), acked := BitVec.ofNat 24 (f oa 0 24), serialSeen := BitVec.ofNat 16 (f os 0 16),
      backoff := f o 24 3, timer := none, pkts := [], ordMark := none }
  let rx (oe os ok : Nat) : StreamRx :=
    { StreamRx.fresh with expected := BitVec.ofNat 24 (f oe 0 24), sack := f ok 0 256, serial := BitVec.ofNat 16 (f os 0 16) }
  { epoch := f 8 0 32, state := f 12 2 2, errDetail := f 13 0 8, errCourse := BitVec.ofNat 48 (f 56 0 48), rxSynced := f 12 4 1 == 1,
    txGen := BitVec.ofNat 32 (f 16 0 32), rxGen := BitVec.ofNat 32 (f 64 0 32), tx := [tx 20 24 36, tx 28 32 38],
    rx := [rx 68 76 96, rx 72 78 128], markedSeen := f 40 0 16, markedTotal := f 80 0 16, cwnd := f 42 0 16, alpha := f 44 0 16,
    winAcked := f 46 0 16, winMarked := f 48 0 16, ordValid := f 50 0 1 == 1, ordTag := f 50 1 1, ordWall := f 52 0 10,
    hash := f 54 0 12, dirty := false, noWrite := false, inbound := false }

/-- R286: host address of a context's record. -/
def State.recAddr (s : State) (k : Nat) : Nat :=
  match s.region? (ctxHp k) (ctxSlot k) with
  | some g => g.base + 256 * (ctxRemote k % 2 ^ 20)
  | none => 0

/-- R286, R287: an enabled region covers a remote attachment. -/
def State.covered (s : State) (hp slot remote : Nat) : Bool :=
  match s.region? hp slot with
  | some g => remote % 2 ^ 20 < 2 ^ g.k && remote < 2 ^ 20
  | none => false

/-- An operation that awaits a response, which keeps its context on chip (R310): it has begun, it is not finished, and it is not
waiting to be sent again (R308). -/
def Op.pins (o : Op) : Bool := o.stream == 0 && o.next != 0 && decide (o.got < o.resp) && o.done.isNone && o.rnrAt.isNone

/-- R310: a context is pinned. -/
def State.pinned (s : State) (k : Nat) (c : Ctx) : Bool :=
  c.tx.any (fun t => !t.pkts.isEmpty) || c.state == 1 || c.rx.any (fun r => r.sack != 0) ||
  s.trn.ops.any (fun e => e.2.ctx == k && e.2.pins) ||
  s.sch.inj.any (fun e => e.2.any (fun p => p.ctx == k && p.held))

/-- Write a context back and drop it (R310). -/
def State.spill (s : State) (k : Nat) (c : Ctx) : State :=
  let s1 := { s with trn := { s.trn with ctxs := Tbl.del s.trn.ctxs k } }
  match s.slot? (ctxSlot k) with
  | some sl =>
    if c.dirty ∧ ¬ c.noWrite then
      (s1.hostWrite (ctxHp k) (ctxHp k * 256) (s.recAddr k) (c.toRec k sl.domain sl.encrypt)).bump Ctr.TRN_SPILL_COUNT
    else s1
  | none => s1

/-- R310: contexts that outbound work loaded or is loading. All but 4,096 places of the cache are the most they may take. -/
def State.outboundCtxs (s : State) : Nat :=
  (s.trn.ctxs.filter (fun e => !e.2.inbound)).length + (s.trn.loads.filter (fun e => !e.2)).length
/-- R310: a further context may take a free place of the cache; room is kept for what is being read. -/
def State.ctxRoom (s : State) : Bool :=
  decide (s.trn.ctxs.length + s.trn.loads.length < s.cacheCap 8 65536)
/-- R310: outbound work has as many contexts as it may have: a further one takes the place of one of its own. -/
def State.outboundFull (s : State) (inbound : Bool) : Bool := !inbound && decide (s.cacheCap 8 65536 - 4096 ≤ s.outboundCtxs)
/-- R310: the contexts that may be evicted for a cause. -/
def State.looseCtxs (s : State) (inbound : Bool) : List (Nat × Ctx) :=
  s.trn.ctxs.filter (fun e => !s.pinned e.1 e.2 && (!s.outboundFull inbound || !e.2.inbound))

/-- R310: an unpinned context is evicted, if there is one; which one is free. -/
def State.evictOne (s : State) (inbound : Bool) : State :=
  let loose := s.looseCtxs inbound
  let d := s.draw
  match loose[d.1 % loose.length]? with
  | some (k, c) => d.2.spill k c
  | none => s

/-- What asking for a context answers. -/
inductive CtxRes where
  | have_ (c : Ctx) | wait | full
deriving DecidableEq, Repr

/-- R286: read the record of a context. -/
def State.loadCtx (s : State) (k : Nat) (inbound : Bool) : State :=
  ({ s with trn := { s.trn with loads := s.trn.loads ++ [(k, inbound)] } }).hostRead (ctxHp k) (ctxHp k * 256) (s.recAddr k) 256

/-- R286, R310: ask for a context: cached, being read, or no room and nothing to evict. Of the places, 4,096 are only for contexts that
an inbound packet asks for: outbound work evicts one of its own, or waits, before it comes to them. -/
def State.needCtx (s : State) (k : Nat) (inbound : Bool) : State × CtxRes :=
  match s.ctx? k with
  | some c => (s, .have_ c)
  | none =>
    match s.trn.loads.find? (fun e => e.1 == k) with
    | some _ =>
      ({ s with trn := { s.trn with loads := s.trn.loads.map (fun e => if e.1 = k then (k, e.2 || inbound) else e) } }, .wait)
    | none =>
      if s.ctxRoom ∧ ¬ s.outboundFull inbound then (s.loadCtx k inbound, .wait)
      else if (s.looseCtxs inbound).isEmpty then (s.level (srcTrn 2) true, .full)
      else ((s.evictOne inbound).loadCtx k inbound, .wait)

/-! ### Operations (R292) -/

def State.op? (s : State) (i : Nat) : Option Op := Tbl.find? s.trn.ops i
def State.setOp (s : State) (i : Nat) (o : Op) : State := { s with trn := { s.trn with ops := Tbl.ins s.trn.ops i o } }
def State.delOp (s : State) (i : Nat) : State := { s with trn := { s.trn with ops := Tbl.del s.trn.ops i } }
/-- An operation has finished (R292). -/
def State.finishOp (s : State) (i : Nat) (r : Res) : State :=
  match s.op? i with
  | some o => if o.done.isNone then s.setOp i { o with done := some r } else s
  | none => s

/-- A plain operation of one packet without payload. -/
def Op.base (ctx stream : Nat) (origin : OpOrigin) (srcEp dstEp opcode opLen fields : Nat) : Op :=
  { ctx := ctx, stream := stream, origin := origin, srcEp := srcEp, dstEp := dstEp, opcode := opcode, opLen := opLen,
    fields := fields, pay := .none_, dest := .none_, total := 1, next := 0, sent := [], resp := 0, got := 0, ackedAt := none,
    rnr := 0, sq := none, rnrAt := none, hash := 0, ordered := false, identity := 0xFFF, tc := 0, pre := 0, extra := 0,
    privileged := false, done := none }

/-- Begin an operation; a hash for mode 1 of R297 is drawn with it. -/
def State.newOp (s : State) (o : Op) : State :=
  let d := s.draw
  let t := d.2
  ({ t with trn := { t.trn with nextOp := t.trn.nextOp + 1 } }).setOp t.trn.nextOp { o with hash := d.1 % 4096 }

/-- The fields of a RESULT (R293), from byte 19 on. -/
def resultFields (psn gen status detail extra : Nat) : Nat :=
  packB [(0, 24, psn), (3, 8, gen), (4, 8, status), (5, 16, detail), (7, 48, extra)]

/-- Transport header fields (R290), of a number that starts at byte 16 of the packet. -/
def Th.dstEp (t : Nat) : Nat := bits t 0 16
def Th.srcEp (t : Nat) : Nat := bits t 16 16
def Th.domain (t : Nat) : Nat := bits t 32 16
def Th.psn (t : Nat) : Nat := bits t 48 24
def Th.gen (t : Nat) : Nat := bits t 72 8
def Th.opcode (t : Nat) : Nat := bits t 80 8
def Th.ackNow (t : Nat) : Bool := bit t 88
def Th.attempt (t : Nat) : Nat := bits t 89 3
def Th.index (t : Nat) : Nat := bits t 96 20
def Th.opLen (t : Nat) : Nat := bits t 120 32
/-- `w` bits from bit `lsb` of the field at transport byte `off`. -/
def Th.at_ (t off lsb w : Nat) : Nat := bits t (8 * off + lsb) w

/-- A transport header. -/
def Th.make (o : Op) (domain psn gen index : Nat) (ackNow : Bool) (attempt : Nat) : Nat :=
  packB [(0, 16, o.dstEp), (2, 16, o.srcEp), (4, 16, domain), (6, 24, psn), (9, 8, gen), (10, 8, o.opcode),
    (11, 4, b2n ackNow + 2 * attempt), (12, 20, index), (15, 32, o.opLen), (19, 104, o.fields)]

/-- The source endpoint address of an accepted packet (R20). -/
def Arr.source (a : Arr) : Nat := (Hdr.src a.hdr * 4 + Hdr.srcHp a.hdr) * 65536 + Th.srcEp a.th
/-- The host port an accepted packet is for. -/
def Arr.hp (a : Arr) : Nat := ctxHp a.ctx

/-- Answer an accepted request with a response of one packet. -/
def State.answer (s : State) (a : Arr) (origin : OpOrigin) (opcode opLen fields : Nat) (pay : PaySrc) : State :=
  s.newOp { Op.base a.ctx 1 origin (Th.dstEp a.th) (Th.srcEp a.th) opcode opLen fields with pay := pay }

/-- Answer an accepted request with a RESULT (R293). -/
def State.result (s : State) (a : Arr) (origin : OpOrigin) (status detail extra : Nat) : State :=
  s.answer a origin 0x01 0 (resultFields a.psn a.gen status detail extra) .none_

/-- The PSN that packet 0 of an operation with consecutive PSNs had (R336). -/
def Arr.base (a : Arr) : Nat := (2 ^ 24 + a.psn - Th.index a.th) % 2 ^ 24
/-- A packet of an operation whose packets need not take consecutive PSNs: a put of several packets (R369). -/
def Arr.spread (a : Arr) : Bool := Th.opcode a.th == 0x40 && decide (4096 < Th.opLen a.th)
/-- What all packets of such an operation have in common: the transport header without psn, gen, ack_now, attempt and index. -/
def Arr.opKey (a : Arr) : Nat := setBits (setBits a.th 48 32 0) 88 28 0

/-- The packet is a further one of a refused put: its header is the same, its index and PSN follow or precede those seen
alike, and its PSN is not past those the put can have. The wire gives an operation no name, so this is the model's reading of R307
(DEDUCED, notes/assumptions/88). -/
def RefOp.holds (r : RefOp) (a : Arr) : Bool :=
  r.key == a.opKey && (!r.shut || serialLe a.psn r.top 24) && r.seen.all (fun e =>
    if e.1 < Th.index a.th then serialCmp e.2 a.psn 24 == .before
    else e.1 != Th.index a.th && serialCmp a.psn e.2 24 == .before)
/-- Note that a packet of the operation has been seen. -/
def RefOp.note (r : RefOp) (a : Arr) : RefOp := { r with seen := (Th.index a.th, a.psn) :: r.seen }
/-- R307, R308: a resend takes new PSNs. What is accepted on the stream before a resend can come may belong to the refused put; from then
on, or once an index is seen a second time, later PSNs belong to another one (DEDUCED, notes/assumptions/88). -/
def RefOp.meet (r : RefOp) (a : Arr) (old : Bool) : RefOp :=
  if r.shut then r
  else if r.key = a.opKey ∧ r.seen.any (fun e => e.1 == Th.index a.th && serialCmp e.2 a.psn 24 == .before) then
    { r with shut := true, top := if serialCmp r.top a.psn 24 = .before then r.top else (2 ^ 24 + a.psn - 1) % 2 ^ 24 }
  else if old then { r with shut := true }
  else { r with top := if serialCmp r.top a.psn 24 = .before then a.psn else r.top }

/-- The packet belongs to an operation that has been refused (R307). -/
def State.wasRefused (s : State) (a : Arr) : Bool :=
  match s.ctx? a.ctx with
  | some c =>
    if a.spread then (c.rxS a.stream).refusedOps.any (fun r => r.holds a) else (c.rxS a.stream).refused.contains a.base
  | none => false

/-- R307: note a packet of a refused operation: of one refused before, or the first of one that is refused now. -/
def State.noteRefused (s : State) (a : Arr) : State :=
  s.onCtx a.ctx (fun c =>
    let r := c.rxS a.stream
    c.setRx a.stream (
      if a.spread then
        match r.refusedOps.find? (fun x => x.holds a) with
        | some x => { r with refusedOps := x.note a :: r.refusedOps.erase x }
        | none =>
          let x : RefOp := { key := a.opKey, seen := [], since := s.crs.course, top := a.psn, shut := false }
          { r with refusedOps := (x.note a :: r.refusedOps).take 512 }
      else if r.refused.contains a.base then r
      else { r with refused := (a.base :: r.refused).take 512 }))

/-- R307: refuse an accepted request with EP_UNAVAILABLE; only the first packet of an operation is answered. -/
def State.refuseEp (s : State) (a : Arr) (detail : Nat) : State :=
  let s1 := s.noteRefused a
  if (s.ctx? a.ctx).isNone ∨ s.wasRefused a then s1
  else (s1.bump Ctr.TRN_REFUSE_COUNT).result a .reply stEP_UNAVAILABLE detail 0

/-! ### Sending (R296, R297, R305) -/

/-- The send queue whose packets a packet of operation `i` waits among; other origins wait alone. -/
def Op.queueOf (o : Op) (i : Nat) : Nat :=
  match o.sq, o.origin with
  | some q, _ => q
  | none, .entry q _ => q
  | none, .signal q _ _ => q
  | none, _ => 2 ^ 20 + i

/-- R187, R194: a class that has no packet at hub `h` has deficit 0, and the round robin's visit to it is over. -/
def State.classBegins (s : State) (h tc : Nat) : State :=
  if (Tbl.get (fun _ => []) s.sch.inj h).any (fun x => x.request && x.tc == tc) then s
  else
    let d := (Tbl.get (fun _ => zeros 6) s.sch.injDef h).set tc 0
    let v := if d.getD 4 0 = tc ∧ d.getD 5 0 = 1 then (d.set 4 ((tc + 1) % 4)).set 5 0 else d
    { s with sch := { s.sch with injDef := Tbl.put (fun _ => zeros 6) s.sch.injDef h v } }

/-- Queue a transmission of a packet at its hub port. -/
def State.queueTx (s0 : State) (k st : Nat) (p : TxPkt) : State :=
  let h := p.hash % 6
  let s := if st = 0 then s0.classBegins h p.tc else s0
  let body := Data.append ⟨32, p.th⟩ p.payload
  let i : InjPkt :=
    { id := s.sch.nextInj, request := st == 0, identity := p.identity, tc := p.tc, pre := p.pre,
      type := if st = 0 then 0x00 else 0x10, body := body, bricks := p.bricks, hash := p.hash, ordered := p.ordered,
      extra := p.extra, ctx := k, stream := st, psn := p.psn, attempt := p.attempt, queue := p.queue, deferred := none,
      atShaper := false, atWindow := false, held := false, passed := none }
  { s with sch := { s.sch with nextInj := s.sch.nextInj + 1,
                               inj := Tbl.put (fun _ => []) s.sch.inj h (Tbl.get (fun _ => []) s.sch.inj h ++ [i]) } }

/-- R321: what a context does as it enters ERROR, beside raising its source: operations fail, responses are abandoned, the
packets in flight are given up. -/
def State.ctxFail (s : State) (k detail : Nat) (cause : Option Nat) : State :=
  match s.ctx? k with
  | none => s
  | some c =>
    let s1 := s.setCtx k { c with state := 2, errDetail := detail % 256, errCourse := s.crs.course, dirty := true,
                                  tx := c.tx.map (fun t => { t with pkts := [], timer := none, ordMark := none }) }
    let s2 := (s1.trn.ops.filter (fun e => e.2.ctx == k)).foldl (fun t e =>
      t.finishOp e.1 (Res.of stTRANSPORT (if cause = some e.1 then detail else 2))) s1
    let s3 := { s2 with sch := { s2.sch with inj := s2.sch.inj.map (fun (e : Nat × List InjPkt) => (e.1, e.2.filter (fun p => p.ctx != k || p.stream == 2))) } }
    s3.bump Ctr.TRN_CTX_ERROR_COUNT
/-- R321: a context enters ERROR. -/
def State.ctxError (s : State) (k detail : Nat) (cause : Option Nat) : State :=
  if (s.ctx? k).isSome then (s.ctxFail k detail cause).raise (srcTrn 4) 0 (ctxRegion k) else s

/-- R297: the flow hash of a packet: of its context, of its operation, or a fresh one. -/
def State.pickHash (s : State) (c : Ctx) (ordered : Bool) (own : Nat) : Nat × State :=
  let mode := s.g Reg.TRN_FLOW_CFG.mode
  if ordered ∨ mode = 2 then (c.hash, s)
  else if mode = 1 then (own, s)
  else (s.draw.1 % 4096, s.draw.2)

/-- R305: retransmit one packet, unless it already waits at its hub. -/
def State.retransmit (s : State) (k st psn : Nat) : State :=
  match s.ctx? k with
  | none => s
  | some c =>
    let t := c.txS st
    match t.pkts.find? (fun p => p.psn == psn) with
    | none => s
    | some p =>
      if p.waiting then s
      else if p.attempt + 1 > max 1 (s.g Reg.TRN_RETX_CFG.retries) then s.ctxError k 1 (some p.op)
      else
        let d := (s.bump Ctr.TRN_RETX_COUNT).pickHash c p.ordered p.hash
        let p1 := { p with attempt := p.attempt + 1, waiting := true, early := false, marked := false,
                           th := setBits p.th 89 3 (p.attempt + 1), hash := d.1 }
        (d.2.onCtx k (fun c =>
          c.setTx st { t with pkts := t.pkts.map (fun x => if x.psn = psn then p1 else x) })).queueTx k st p1

/-- Bricks of a packet with a payload (R290). -/
def pktBricks (payload : Nat) (encrypt : Bool) : Nat := ceilDiv (48 + payload + (if encrypt then 16 else 0)) 64

/-- What finding a packet's payload answers. -/
inductive PayRes where
  | data (d : Data) | wait | fault (f : XFault) (va : Nat) | bus (cause : Nat)
deriving DecidableEq, Repr

/-- The payload of packet `i` of operation `n`: at most 4,096 bytes from i × 4,096 (R291). -/
def State.payload (s : State) (hm : HostView) (hp n : Nat) (o : Op) (i : Nat) : State × PayRes :=
  match o.pay with
  | .none_ => (s, .data Data.empty)
  | .bytes d => (s, .data (d.slice (4096 * i) (min 4096 (d.len - 4096 * i))))
  | .chunks l =>
    match l.find? (fun e => e.1 == i) with
    | some e => (s, .data e.2)
    | none => (s, .wait)
  | .host as_ va len identity ovr =>
    let k := min 4096 (len - 4096 * i)
    let p := s.xlateRun hp ⟨as_, va + 4096 * i, 0, identity, false, ovr, .access, .op n⟩ k
    match p.2 with
    | .wait => (p.1, .wait)
    | .fault f a => (p.1, .fault f a)
    | .run l =>
      match readPieces hm l with
      | .data d => (p.1.readRun hp identity l, .data d)
      | .error c => (p.1, .bus c)

/-- A message of several packets has begun on its stream and has more to send: its packets take consecutive PSNs (R336). -/
def Op.midway (o : Op) : Bool :=
  o.opcode == 0x10 && o.stream == 0 && o.done.isNone && o.rnrAt.isNone && decide (0 < o.next) && decide (o.next < o.total)
/-- Such a message of the context is under way, operation `i` apart. -/
def State.midMessage (s : State) (k i : Nat) : Bool :=
  s.trn.ops.any (fun e => e.1 != i && e.2.ctx == k && e.2.midway)
/-- R317, R336: a context that is ROLLING sends no new packet, but for those of a message that has begun: a roll may not part it
(DEDUCED, notes/assumptions/101). -/
def Ctx.sends (c : Ctx) (o : Op) : Bool := c.state != 1 || o.midway

/-- R296: send the next packet of operation `i` with a payload in hand. -/
def State.sendPkt (s : State) (i : Nat) (o : Op) (c : Ctx) (sl : Slot) (pay : Data) : State :=
  let k := o.ctx
  let st := o.stream
  let t := c.txS st
  let d := s.pickHash c o.ordered o.hash
  let psn := t.next.toNat
  let th := Th.make o sl.domain psn (c.txGen.toNat % 256) o.next (o.next + 1 == o.total) 0
  let p : TxPkt :=
    { psn := psn, op := i, attempt := 0, ordered := o.ordered, sent := none, waiting := true,
      bricks := pktBricks pay.len sl.encrypt, sacked := false, early := false, marked := false, th := th, payload := pay, hash := d.1,
      identity := o.identity, tc := o.tc, pre := o.pre, extra := o.extra, queue := o.queueOf i }
  let s1 := d.2.onCtx k (fun c => c.setTx st { t with next := t.next + 1, pkts := t.pkts ++ [p] })
  let s2 := s1.setOp i { o with next := o.next + 1, sent := o.sent ++ [(psn, c.txGen.toNat % 256)] }
  let s3 := if (t.next + 1).toNat ≥ 0xFFFF00 then s2.onCtx k (fun c => { c with state := 1 }) else s2
  s3.queueTx k st p

/-- An earlier ordered operation of the same stream still has packets to send: ordered operations are sent in issue order
(R384, R447). -/
def State.behindOrdered (s : State) (i : Nat) (o : Op) : Bool :=
  o.ordered && s.trn.ops.any (fun e => decide (e.1 < i) && e.2.ordered && e.2.ctx == o.ctx && e.2.stream == o.stream &&
    e.2.done.isNone && (decide (e.2.next < e.2.total) || e.2.rnrAt.isSome))

/-- The transport runs this operation in the present mode (R283's chapter head, R403). -/
def State.opRuns (s : State) (o : Op) : Bool :=
  s.mode == .service || s.mode == .drain || (s.mode == .transit && (o.privileged || o.stream == 1))

/-- R296: send the next packet of an operation, wait, or finish the operation with an error. -/
def State.transportSend (s : State) (i : Nat) (hm : HostView) : State :=
  match s.op? i with
  | none => s
  | some o =>
    if ¬ s.opRuns o ∨ o.done.isSome ∨ o.next ≥ o.total ∨ o.rnrAt.isSome ∨ (o.stream = 0 ∧ s.midMessage o.ctx i) ∨ s.behindOrdered i o then s
    else
      match s.slot? (ctxSlot o.ctx) with
      | none => s.finishOp i (Res.of stTRANSPORT 4)
      | some sl =>
        if ¬ s.covered (ctxHp o.ctx) (ctxSlot o.ctx) (ctxRemote o.ctx) then
          s.finishOp i (if (s.region? (ctxHp o.ctx) (ctxSlot o.ctx)).isNone then Res.of stTRANSPORT 4 else Res.of stADDRESS 2)
        else
          let n := s.needCtx o.ctx false
          match n.2 with
          | .wait => n.1
          | .full => n.1
          | .have_ c =>
            if c.state = 2 then n.1.finishOp i (Res.of stTRANSPORT (if c.errDetail = 7 then 7 else 2))
            else if ¬ c.sends o ∨ ((c.txS o.stream).next - (c.txS o.stream).acked).toNat > 256 then n.1
            else
              let p := n.1.payload hm (ctxHp o.ctx) i o o.next
              match p.2 with
              | .wait => p.1
              | .data d => p.1.sendPkt i o c sl d
              | .fault f va => p.1.finishOp i { Res.of stLOCAL (f.detail 0) with aux := va }
              | .bus cause => p.1.finishOp i (Res.of stHOST_BUS cause)

/-! ### Acknowledgements (R301, R302) -/

/-- Build and queue an ACK of a stream (R295, R301). -/
def State.sendAck (s : State) (k st : Nat) : State :=
  match s.ctx? k, s.slot? (ctxSlot k) with
  | some c, some sl =>
    let r := c.rxS st
    let nak := r.ordNak
    let body := packB [(0, 16, sl.domain), (2, 24, (r.expected - 1).toNat), (5, 8, c.rxGen.toNat), (6, 2, st + 2 * b2n nak.isSome),
      (8, 16, r.serial.toNat), (10, 16, if st = 0 then c.markedTotal else 0), (12, 24, nak.getD 0), (16, 256, r.sack)]
    let s1 := s.onCtx k (fun c => c.setRx st { r with serial := r.serial + 1, count := 0, firstAt := none, lastAck := some s.cycles,
                                                      waiting := false, ordNak := none })
    let i : InjPkt :=
      { id := s1.sch.nextInj, request := false, identity := 0xFFF, tc := 0, pre := 0, type := 0x11, body := ⟨48, body⟩, bricks := 1,
        hash := c.hash, ordered := false, extra := 0, ctx := k, stream := 2, psn := 0, attempt := 0, queue := 2 ^ 30,
        deferred := none, atShaper := false, atWindow := false, held := false, passed := none }
    let h := c.hash % 6
    { s1 with sch := { s1.sch with nextInj := s1.sch.nextInj + 1,
                                   inj := Tbl.put (fun _ => []) s1.sch.inj h (Tbl.get (fun _ => []) s1.sch.inj h ++ [i]) } }
  | _, _ => s

/-- R301: an ACK is due: at once, or under the 64-cycle limit. -/
def State.ackDue (s : State) (k st : Nat) (now : Bool) : State :=
  match s.ctx? k with
  | none => s
  | some c =>
    let r := c.rxS st
    let free := match r.lastAck with
      | some t => decide (s.cycles ≥ t + 64)
      | none => true
    if now || free then s.sendAck k st else s.onCtx k (fun c => c.setRx st { r with waiting := true })

/-- R203: the congestion update of an acknowledgement. -/
def State.congAck (s : State) (c : Ctx) (acked marked : Nat) : Ctx :=
  if s.g Reg.SCH_CC_CFG.cc_en = 0 then c
  else
    let wa := c.winAcked + acked
    let wm := c.winMarked + marked
    if wa < c.cwnd ∨ wa = 0 then { c with winAcked := wa, winMarked := wm }
    else
      let f : Int := ((wm * 1024) / wa : Nat)
      let g := max 1 (s.g Reg.SCH_CC_CFG.g_shift)
      let alpha := ((c.alpha : Int) + (f - c.alpha) / (2 ^ g : Nat)).toNat
      let w := if wm ≠ 0 then c.cwnd - c.cwnd * alpha / 2048 else c.cwnd + s.g Reg.SCH_CC_CFG.ai
      { c with alpha := alpha, cwnd := max 65 (min w s.cwndMax), winAcked := 0, winMarked := 0 }

/-- R306: the marked ordered packets are retransmitted in PSN order once the acked PSN reaches ord_psn − 1. -/
def State.orderedRetx (s : State) (k st : Nat) : State :=
  match s.ctx? k with
  | none => s
  | some c =>
    let t := c.txS st
    match t.ordMark with
    | some first =>
      if serialLe ((2 ^ 24 + first - 1) % 2 ^ 24) t.acked.toNat 24 then
        let m := (t.pkts.filter (fun p => p.marked)).map (fun p => p.psn)
        m.foldl (fun u psn => u.retransmit k st psn) (s.setCtx k (c.setTx st { t with
          ordMark := none, pkts := t.pkts.map (fun p => { p with marked := false }) }))
      else s
    | none => s

/-- R306: the holds of a stream are examined again when its acked PSN has advanced. -/
def State.releaseHolds (s : State) (k st : Nat) : State :=
  { s with sch := { s.sch with inj := s.sch.inj.map (fun e => (e.1, e.2.map (fun p =>
      if p.held ∧ p.ctx = k ∧ p.stream = st then
        { p with held := match s.ctx? k with
            | some c => (c.txS st).pkts.any (fun x => x.ordered && !x.sacked && serialCmp x.psn p.psn 24 == .before)
            | none => false }
      else p))) } }

/-- Every packet of an operation has been sent and acknowledged (R292). -/
def State.opAcked (s : State) (i : Nat) (o : Op) : Bool :=
  o.next == o.total && o.rnrAt.isNone &&
  (match s.ctx? o.ctx with
   | some c => !((c.txS o.stream).pkts.any (fun p => p.op == i && !p.sacked))
   | none => true)

/-- R303: a packet that has been sent and not acknowledged: the stream's timer runs. -/
def TxPkt.outstanding (p : TxPkt) : Bool := !p.sacked && p.sent.isSome

/-- R302: act on an ACK body (bytes 16 to 63 of the packet) for a context. -/
def State.actOnAck (s : State) (k : Nat) (c : Ctx) (b : Data) : State :=
  let st := b.field 6 0 1
  let t := c.txS st
  let cum := b.field 2 0 24
  let sack := b.field 16 0 256
  let last := (t.next - 1).toNat
  let beyond := serialCmp cum last 24 == .after || serialCmp cum last 24 == .unordered
  let behind := serialCmp cum t.acked.toNat 24 == .before
  let s0 := s.bumpIf beyond Ctr.TRN_PROTO_DROP_COUNT
  let covered (psn : Nat) : Bool :=
    !beyond && (serialLe psn cum 24 || (let d := serialDist ((cum + 2) % 2 ^ 24) psn 24; d < 256 && sack.testBit d))
  let newly := t.pkts.filter (fun p => !p.sacked && covered p.psn)
  let bricks := newly.foldl (fun a p => a + p.bricks) 0
  let acked1 : Psn := if beyond ∨ behind then t.acked else BitVec.ofNat 24 cum
  let pk := (t.pkts.map (fun p => if covered p.psn then { p with sacked := true } else p)).filter
    (fun p => !(serialLe p.psn acked1.toNat 24))
  let nak := b.field 6 1 1 == 1
  let ord := b.field 12 0 24
  let pk1 := if nak then pk.map (fun p => if p.ordered && !p.sacked && serialLe ord p.psn 24 then { p with marked := true } else p) else pk
  let adv := decide (acked1 ≠ t.acked)
  let t1 := { t with acked := acked1, serialSeen := BitVec.ofNat 16 (b.field 8 0 16), pkts := pk1,
                     backoff := if adv then 0 else t.backoff,
                     timer := if pk1.any TxPkt.outstanding then (if adv then some s.cycles else t.timer) else none,
                     ordMark := if nak then (match t.ordMark with
                       | some o => if serialCmp o ord 24 = .before then some o else some ord
                       | none => some ord) else t.ordMark }
  let mt := b.field 10 0 16
  let c1 := c.setTx st t1
  let c2 := if st = 0 then { s.congAck c1 bricks ((65536 + mt - c.markedSeen) % 65536) with markedSeen := mt } else c1
  let s1 := (s0.setCtx k { c2 with dirty := true }).orderedRetx k st
  if adv then s1.releaseHolds k st else s1

/-! ### Receiving (R298-R300) -/

/-- R315: the key of a direction. -/
def Slot.dirKey (sl : Slot) (sender receiver gen : Nat) : List Nat :=
  kdf (leBytes 32 sl.key) [0x46, 0x45, 0x4D, 0x49, 0x52, 0x2D, 0x54, 0x4B]
    (leBytes 2 sl.domain ++ leBytes 4 sl.epoch ++ leBytes 3 sender ++ leBytes 3 receiver ++
      [if sender < receiver then 0 else 1] ++ leBytes 4 gen)

/-- The routing header bytes that are authenticated: the mutable fields as zero (R158, R314). -/
def aadHdr (h : Nat) : List Nat :=
  leBytes 14 (setBits (setBits (setBits (setBits (setBits (setBits h 44 3 0) 47 2 0) 51 1 0) 52 10 0) 93 1 0) 94 4 0)

/-- R316: the IV. -/
def trnIv (sender st gen psn attempt : Nat) : List Nat :=
  leBytes 3 (sender % 2 ^ 22 + st * 2 ^ 22) ++ leBytes 1 gen ++ leBytes 3 psn ++ leBytes 1 attempt ++ [0, 0, 0, 0]

/-- Bytes of payload that a packet of a wire opcode carries at its index (R291, R334, R367, R397): the operation's 4,096
at a time, or what the opcode fixes. -/
def payloadLen (th : Nat) : Nat :=
  let op := Th.opcode th
  if op = 0x01 ∨ op = 0x12 ∨ op = 0x14 ∨ op = 0x41 then 0
  else if op = 0x11 then 16
  else if op = 0x43 then (if Th.opLen th = 16 then 32 else 16)
  else if op = 0x44 then min 16 (Th.opLen th)
  else if 0x80 ≤ op ∧ op ≤ 0x85 then 8
  else if op = 0x88 then 32
  else min 4096 (Th.opLen th - 4096 * Th.index th)

/-- R316: the plaintext payload of a sealed packet under a generation, if its tag is right; R313 leaves others alone. -/
def State.openPkt (s : State) (sl : Slot) (k st gen hdr th : Nat) (rest : Data) : Option Data :=
  if ¬ sl.encrypt then some (rest.slice 0 (min (payloadLen th) rest.len))
  else if rest.len < 16 then none
  else
    let sender := ctxRemote k
    let key := sl.dirKey sender (s.attach (ctxHp k)) gen
    let n := min (payloadLen th) (rest.len - 16)
    (gcmOpen key (trnIv sender st (Th.gen th) (Th.psn th) (Th.attempt th)) (aadHdr hdr ++ leBytes 32 th)
      (rest.slice 0 n).bytes (rest.slice n 16).bytes).map Data.ofBytes

/-- R300: the generation a packet belongs to, if the check passes. -/
def Ctx.genOf (c : Ctx) (g : Nat) : Option (BitVec 32) :=
  if ¬ c.rxSynced then some (BitVec.ofNat 32 g)
  else if g = c.rxGen.toNat % 256 then some c.rxGen
  else if g = (c.rxGen + 1).toNat % 256 then some (c.rxGen + 1)
  else none

/-- R300: adopt a generation: expected PSNs 0, bitmaps zero; with a hole, operations that await responses finish and the
generation-skip source is raised (R323). -/
def State.adopt (s : State) (k : Nat) (c : Ctx) (g : BitVec 32) : State :=
  let hole := c.rx.any (fun r => r.sack != 0)
  let s1 := s.setCtx k { c with rxGen := g, rxSynced := true, dirty := true,
                                rx := c.rx.map (fun r => { r with expected := 0, sack := 0, refused := [], refusedOps := [], ordNak := none }) }
  if hole then
    let s2 := (s1.trn.ops.filter (fun e => e.2.ctx == k && e.2.stream == 0 && e.2.got < e.2.resp && e.2.next != 0)).foldl
      (fun t e => t.finishOp e.1 (Res.of stTRANSPORT 6)) s1
    s2.raise (srcTrn 1) 0 (ctxRegion k)
  else s1

/-- How R299 and R306 class a PSN. -/
inductive PsnClass where
  | dup | inOrder | ahead (bit : Nat) | window | orderedDrop
deriving DecidableEq, Repr

/-- R299, R306. -/
def classify (r : StreamRx) (psn : Nat) (ordered : Bool) : PsnClass :=
  let e := r.expected.toNat
  match serialCmp psn e 24 with
  | .equal => .inOrder
  | .before => .dup
  | .unordered => .window
  | .after =>
    let d := serialDist e psn 24
    if d > 256 then .window
    else if r.sack.testBit (d - 1) then .dup
    else if ordered then .orderedDrop
    else .ahead (d - 1)

/-- R299: the run of set low bits: how far e advances. -/
def trailing : Nat → Nat → Nat
  | 0, _ => 0
  | n + 1, x => if x % 2 = 1 then 1 + trailing n (x / 2) else 0

/-- R353: a message is refused only at its first-arriving packet: another packet of this one has passed before, and its engine
holds it or will take it. -/
def State.admitted (s : State) (a : Arr) : Bool :=
  Th.opcode a.th == 0x10 &&
  (s.trn.accepted.any (fun x => x.ctx == a.ctx && Th.opcode x.th == 0x10 && x.base == a.base) ||
   s.mch.hdrs.any (fun e => e.2.ctx == a.ctx && e.2.base == a.base && e.2.ep == Th.dstEp a.th && e.2.st != .refused))

/-- R307: why an endpoint cannot take a packet. -/
def State.epRefusal (s : State) (a : Arr) (slot : Nat) : Option Nat :=
  if s.mode = .transit then some 1
  else
    match s.ep? (Th.dstEp a.th) with
    | none => some 2
    | some e =>
      if hpOf e.owner ≠ Hdr.dstHp a.hdr then some 2
      else if e.destroying then some 3
      else if e.slot ≠ slot then some 4
      else if ¬ s.cqOpen e.rcq ∧ ¬ s.admitted a then some 6
      else none

/-- Wire opcodes that some chapter defines (R291, R334, R367, R397), by class. -/
def wireOpcode (st op : Nat) : Bool :=
  if st = 0 then [0x10, 0x11, 0x12, 0x14, 0x40, 0x41, 0x43, 0x80, 0x81, 0x82, 0x83, 0x84, 0x85].contains op
  else [0x01, 0x13, 0x42, 0x44, 0x88].contains op

/-- R353, R358, R359: a message or SKIP that is refused because the receive CQ is stalled is a refusal of MCH. -/
def State.msgRefused (s : State) (a : Arr) : State :=
  if [0x10, 0x11, 0x14].contains (Th.opcode a.th) ∧ ¬ s.wasRefused a then
    (s.bump Ctr.MCH_REFUSE_COUNT).raise (srcMch 0) 0 (Th.dstEp a.th) ((s.ep? (Th.dstEp a.th)).map (fun e => e.owner))
  else s

/-- Step 8 and 9 of R298 for an accepted packet. -/
def State.deliver (s : State) (a : Arr) : State :=
  let take (t : State) : State := { t with trn := { t.trn with accepted := t.trn.accepted ++ [a] } }
  if ¬ wireOpcode a.stream (Th.opcode a.th) then
    s.result a .reply stMALFORMED 0x0200 0
  else if a.stream = 1 then take s
  else
    match s.epRefusal a (ctxSlot a.ctx) with
    | some d => (if d = 6 then s.msgRefused a else s).refuseEp a d
    | none => if s.wasRefused a then s.noteRefused a else take s

/-- R299, R301: an in-order or out-of-order acceptance: expected PSN, bitmap, marked total and ACK causes. -/
def State.acceptPkt (s : State) (a : Arr) (c : Ctx) (adv : Option Nat) : State :=
  let r := c.rxS a.stream
  let r1 := match adv with
    | none =>
      let n := trailing 256 r.sack
      { r with expected := r.expected + 1 + BitVec.ofNat 24 n, sack := r.sack >>> (n + 1) }
    | some b => { r with sack := r.sack + 2 ^ b }
  let slow := adv.isSome || r.sack != 0
  let r2 := { r1 with count := r.count + 1, firstAt := some (r.firstAt.getD s.cycles) }
  let mt := if a.stream = 0 ∧ Hdr.cmark a.hdr = 1 then (c.markedTotal + Hdr.len a.hdr) % 65536 else c.markedTotal
  let s1 := (s.bump Ctr.TRN_RX_PKT_COUNT).setCtx a.ctx { (c.setRx a.stream r2) with markedTotal := mt, dirty := true }
  let late (x : RefOp) : Bool := decide (s.since x.since ≥ s.g Reg.TRN_RNR_CFG.delay + 2)
  let s1 := s1.onCtx a.ctx (fun c =>
    let r := c.rxS a.stream
    c.setRx a.stream { r with refusedOps := r.refusedOps.map (fun x => x.meet a (late x)) })
  let s2 :=
    if Th.ackNow a.th ∨ r2.count ≥ 16 then s1.ackDue a.ctx a.stream true
    else if slow then s1.ackDue a.ctx a.stream false
    else s1
  s2.deliver a

/-- Steps 5 to 9 of R298. -/
def State.rxChecked (s : State) (k : Nat) (sl : Slot) (c : Ctx) (h th : Nat) (rest : Data) : State :=
  let st := if Hdr.type h = 0x10 then 1 else 0
  match c.genOf (Th.gen th) with
  | none => s.bump Ctr.TRN_GEN_DROP_COUNT
  | some g =>
    match s.openPkt sl k st g.toNat h th rest with
    | none => (s.bump Ctr.TRN_AUTH_FAIL_COUNT).raise (srcTrn 0) 0 (ctxRegion k)
    | some pay =>
      let s1 := if c.rxSynced ∧ g = c.rxGen then s else s.adopt k c g
      match s1.ctx? k with
      | none => s1
      | some c1 =>
        let a : Arr := ⟨k, st, Th.psn th, Th.gen th, h, th, pay⟩
        match classify (c1.rxS st) (Th.psn th) (Hdr.ordered h == 1) with
        | .dup => (s1.bump Ctr.TRN_DUP_COUNT).ackDue k st false
        | .window => s1.bump Ctr.TRN_WINDOW_DROP_COUNT
        | .orderedDrop =>
          let s2 := (s1.bump Ctr.TRN_ORDER_DROP_COUNT).onCtx k (fun c =>
            let r := c.rxS st
            c.setRx st { r with ordNak := some (r.ordNak.getD (Th.psn th)) })
          s2.ackDue k st false
        | .inOrder => s1.acceptPkt a c1 none
        | .ahead b => s1.acceptPkt a c1 (some b)

/-- Packets that wait at a hub port for the receiving engine, oldest first. -/
def State.hubQ (s : State) (h : Nat) : List (Data × Nat) := Tbl.get (fun _ => []) s.sch.hubRx h
/-- Take one off. -/
def State.hubDrop (s : State) (h j : Nat) : State :=
  { s with sch := { s.sch with hubRx := Tbl.put (fun _ => []) s.sch.hubRx h ((s.hubQ h).eraseIdx j) } }
/-- Take the oldest off. -/
def State.hubPop (s : State) (h : Nat) : State := s.hubDrop h 0

/-- The context key of a packet at a hub port, if its domain is keyed and a region covers its source (steps 2 and 3 of R298). -/
def State.rxKey (s : State) (d : Data) : Option Nat :=
  match s.slotOf (Th.domain (bits d.val 128 256)) with
  | some n =>
    let hp := Hdr.dstHp d.hdr
    let remote := Hdr.src d.hdr * 4 + Hdr.srcHp d.hdr
    if s.covered hp n remote then some (ctxKey hp n remote) else none
  | none => none
/-- The record of the packet's context is being read: the packet waits. -/
def State.rxWaits (s : State) (d : Data) : Bool :=
  match s.rxKey d with
  | some k => s.trn.loads.any (fun e => e.1 == k) && (s.ctx? k).isNone && !s.trn.loadErr.contains k
  | none => false
/-- A packet at a hub port that is an ACK. -/
def isAck (d : Data) : Bool := Hdr.crcOk d.hdr && Hdr.type d.hdr == 0x11
/-- A packet of the response class. -/
def isResponse (d : Data) : Bool := Hdr.cls d.hdr == 1

/-- R176: the place of the packet that is handled next: responses wait for no other packet, and a request only for its own
context. -/
def State.rxNext (s : State) (h : Nat) : Option Nat :=
  let ready (e : Data × Nat) : Bool := !isAck e.1 && !s.rxWaits e.1
  let q := s.hubQ h
  match q.findIdx? (fun e => isResponse e.1 && ready e) with
  | some j => some j
  | none => q.findIdx? ready

/-- R298 for the packet at place `j` of a hub port. -/
def State.rxAt (s : State) (h j : Nat) (d : Data) : State :=
  let hd := d.hdr
  let t := Hdr.type hd
  let out := s.hubDrop h j
  if ¬ Hdr.crcOk hd then (out.bump Ctr.RTE_HDR_ERR_COUNT).raise (srcRte 1) 0 (64 + h)
  else
    match s.lifeCheck (Hdr.birth hd) with
    | some old => (out.bump (if old then Ctr.RTE_LIFE_DROP_COUNT else Ctr.RTE_FUTURE_DROP_COUNT)).raise (srcRte 0) 0 (64 + h)
    | none =>
      if t ≠ 0x00 ∧ t ≠ 0x10 then out.bump Ctr.TRN_PROTO_DROP_COUNT
      else
        let noCtx := out.bump Ctr.TRN_NO_CTX_DROP_COUNT
        match s.rxKey d with
        | none => noCtx
        | some k =>
          match s.slot? (ctxSlot k) with
          | none => noCtx
          | some sl =>
            if s.trn.loadErr.contains k then { noCtx with trn := { noCtx.trn with loadErr := noCtx.trn.loadErr.erase k } }
            else
              let q := s.needCtx k true
              match q.2 with
              | .wait => q.1
              | .full => (q.1.hubDrop h j).bump Ctr.TRN_NO_CTX_DROP_COUNT
              | .have_ c => (q.1.hubDrop h j).rxChecked k sl c hd (bits d.val 128 256) (d.slice 48 (d.len - 48))

/-- R298: handle the next REQ or RSP packet at a hub port. -/
def State.transportRx (s : State) (h : Nat) : State :=
  match s.rxNext h with
  | none => s
  | some j =>
    match (s.hubQ h)[j]? with
    | some (d, _) => if s.live then s.rxAt h j d else s
    | none => s

/-- R302: the ACK at place `j` of a hub port. -/
def State.ackAt (s : State) (h j : Nat) (d : Data) : State :=
  let hd := d.hdr
  let s1 := s.hubDrop h j
  match s.lifeCheck (Hdr.birth hd) with
  | some old => (s1.bump (if old then Ctr.RTE_LIFE_DROP_COUNT else Ctr.RTE_FUTURE_DROP_COUNT)).raise (srcRte 0) 0 (64 + h)
  | none =>
    let b := d.slice 16 48
    let hp := Hdr.dstHp hd
    let remote := Hdr.src hd * 4 + Hdr.srcHp hd
    match s.slotOf (b.field 0 0 16) with
    | none => s1.bump Ctr.TRN_NO_CTX_DROP_COUNT
    | some n =>
      let k := ctxKey hp n remote
      if ¬ s.covered hp n remote then s1.bump Ctr.TRN_NO_CTX_DROP_COUNT
      else
        match s1.ctx? k with
        | none => s1
        | some c =>
          let st := b.field 6 0 1
          let newer := serialCmp (c.txS st).serialSeen.toNat (b.field 8 0 16) 16 == .before
          if b.field 5 0 8 = c.txGen.toNat % 256 ∧ newer then s1.actOnAck k c b else s1

/-- R302: handle the oldest ACK at a hub port. -/
def State.ackRx (s : State) (h : Nat) : State :=
  match (s.hubQ h).findIdx? (fun e => isAck e.1) with
  | none => s
  | some j =>
    match (s.hubQ h)[j]? with
    | some (d, _) => if s.live then s.ackAt h j d else s
    | none => s

/-! ### A reset of a context (R325) -/

/-- TRN_CMD finishes. -/
def State.trnResult (s : State) (r : Nat) : State := (s.put Reg.TRN_CMD_STATUS.busy 0).put Reg.TRN_CMD_STATUS.result r

/-- R325: a CTX_RESET that waited for its context's record. -/
def State.resetLoaded (s : State) (k : Nat) : State :=
  if s.trn.resetDue = some k then
    (({ s with trn := { s.trn with resetDue := none } }).ctxError k 3 none).trnResult 0
  else s

/-- R325: a CTX_RESET whose context's record could not be asked for, or was lost for want of room, asks again; without a slot there
is nothing to reset. -/
def State.settleReset (s : State) : State :=
  match s.trn.resetDue with
  | none => s
  | some k =>
    if (s.ctx? k).isSome then s.resetLoaded k
    else if (s.slot? (ctxSlot k)).isNone then ({ s with trn := { s.trn with resetDue := none } }).trnResult 0
    else (s.needCtx k false).1

end Sys2Proof.Machine
end

