-- ==== Sys2Proof/Machine/Sched.lean ====
section
/-! DEFINITION. Arbitration, injection, meters and shapers (spec/06), and the meanings of PACKET_INJECT, DEFERRED_RETEST
and OUTPUT_SCHEDULE. -/
namespace Sys2Proof.Machine

/-! ### Deficit round robin (R187) -/

/-- What the round robin sees of one class: the length of its eligible head packet, and whether its queue is empty. -/
structure DrrIn where
  head : Option Nat
  empty : Bool
  quantum : Nat
deriving DecidableEq, Repr

/-- One visit of the pointer after another, at most `fuel` visits: the class that sends, the deficits, the pointer and
whether the quantum of this visit has been added. -/
def drrGo (cl : Nat → DrrIn) (n : Nat) : Nat → List Nat → Nat → Bool → Option Nat × List Nat × Nat × Bool
  | 0, d, p, f => (none, d, p, f)
  | k + 1, d, p, f =>
    let on := drrGo cl n k d ((p + 1) % n) false
    match (cl p).head with
    | none => on
    | some l =>
      let have_ := d.getD p 0 + (if f then 0 else max 65 (cl p).quantum)
      if l ≤ have_ then (some p, d.set p (have_ - l), p, true)
      else drrGo cl n k (d.set p have_) ((p + 1) % n) false

/-- R187 whole: a class whose queue is empty has deficit 0; then the visits. -/
def drr (cl : Nat → DrrIn) (n : Nat) (d : List Nat) (p : Nat) (f : Bool) : Option Nat × List Nat × Nat × Bool :=
  let d0 := (List.range n).map (fun v => if (cl v).empty then 0 else d.getD v 0)
  drrGo cl n (n + 1) d0 p f

/-! ### Meters and shapers (R195-R201) -/

/-- A meter's rates and sizes in the active set, in bytes: CIR, PIR, CBS, PBS. -/
def State.meterCfg (s : State) (m : Nat) : Nat × Nat × Nat × Nat :=
  let cir := 8 * s.ga (Reg.SCH_METER.cir m)
  let cbs := 64 * s.ga (Reg.SCH_METER.cbs m)
  (cir, max cir (8 * s.ga (Reg.SCH_METER.pir m)), cbs, max cbs (64 * s.ga (Reg.SCH_METER.pbs m)))
def State.meter (s : State) (m : Nat) : Meter := Tbl.get (fun _ => Meter.reset) s.sch.meters m
def State.setMeter (s : State) (m : Nat) (v : Meter) : State :=
  { s with sch := { s.sch with meters := Tbl.put (fun _ => Meter.reset) s.sch.meters m v } }
def State.shaper (s : State) (m : Nat) : Int := Tbl.get (fun _ => 0) s.sch.shapers m
def State.setShaper (s : State) (m : Nat) (v : Int) : State :=
  { s with sch := { s.sch with shapers := Tbl.put (fun _ => 0) s.sch.shapers m v } }
/-- A signed 32-bit bucket holds its value at its limits. -/
def bucket (x : Int) : Int := max (-2147483648) (min 2147483647 x)
/-- Meters and shapers whose buckets can move: all others have rate, size and buckets 0. -/
def State.someMeters (s : State) : List Nat := s.listed s.crs.active (Reg.SCH_METER.off 0) 16 8192 (Tbl.keys s.sch.meters)
def State.someShapers (s : State) : List Nat := s.listed s.crs.active (Reg.SCH_SHAPER.off 0) 8 4096 (Tbl.keys s.sch.shapers)

/-- R197, R198: the refill at cycle 0 of a course. -/
def State.refill (s : State) : State :=
  let s1 := s.someMeters.foldl (fun t m =>
    let c := t.meterCfg m
    let v := t.meter m
    t.setMeter m { v with tc := min (v.tc + c.1) c.2.2.1, tp := min (v.tp + c.2.1) c.2.2.2 }) s
  let s2 := s1.someShapers.foldl (fun t m =>
    t.setShaper m (min (t.shaper m + 8 * t.ga (Reg.SCH_SHAPER.rate m)) (64 * t.ga (Reg.SCH_SHAPER.burst m)))) s1
  { s2 with sch := { s2.sch with retest := s2.sch.inj.any (fun e => e.2.any (fun p => p.deferred.isSome)) } }

/-- R201: the resets of a swap course, under the new set. -/
def State.swapBuckets (s : State) : State :=
  let s0 := { s with sch := { s.sch with shapers := [], badMeters := [], badShapers := [], badMaps := [] } }
  s0.someMeters.foldl (fun t m => let c := t.meterCfg m
                                  t.setMeter m { t.meter m with tc := c.2.2.1, tp := c.2.2.2 }) s0

/-- R195: the map entry of an identity and class: meter and shaper. -/
def State.contract (s : State) (identity tc : Nat) : Option Nat × Option Nat :=
  let i := identity * 4 + tc
  if identity ≥ 1024 ∨ s.sch.badMaps.contains i then (none, none)
  else
    let m := s.ga (Reg.SCH_METER_MAP.meter i)
    let h := s.ga (Reg.SCH_METER_MAP.shaper i)
    let mOn := s.ga (Reg.SCH_METER_MAP.meter_valid i) == 1 && s.ga (Reg.SCH_METER.enable m) == 1 && !s.sch.badMeters.contains m
    let hOn := s.ga (Reg.SCH_METER_MAP.shaper_valid i) == 1 && s.ga (Reg.SCH_SHAPER.enable h) == 1 && !s.sch.badShapers.contains h
    (if mOn then some m else none, if hOn then some h else none)

/-- R198: a meter's colour (0 green, 1 yellow, 2 red) and buckets for charge `b` and pre-colour `pre`. -/
def meterColour (v : Meter) (cbs pbs b pre : Nat) : Nat × Meter :=
  if pre ≥ 2 ∨ v.tp < (min b pbs : Nat) then (2, v)
  else if pre = 1 ∨ v.tc < (min b cbs : Nat) then (1, { v with tp := bucket (v.tp - b) })
  else (0, { v with tp := bucket (v.tp - b), tc := bucket (v.tc - b) })

/-- Count a charge by colour (R205). -/
def Meter.tally (v : Meter) (colour b : Nat) : Meter :=
  if colour = 0 then { v with green := v.green + BitVec.ofNat 64 b }
  else if colour = 1 then { v with yellow := v.yellow + BitVec.ofNat 64 b }
  else { v with red := v.red + BitVec.ofNat 64 b }

/-- R198 to R200: the colour of a packet, with its meter charged. -/
def State.colourOf (s : State) (p : InjPkt) : Nat × State :=
  match (s.contract p.identity p.tc).1 with
  | none => (if p.pre = 0 then 0 else 1, s)
  | some m =>
    let c := s.meterCfg m
    let b := 64 * (p.bricks + p.extra)
    let r := meterColour (s.meter m) c.2.2.1 c.2.2.2 b (if s.ga (Reg.SCH_METER.colour_aware m) = 1 then p.pre else 0)
    (r.1, s.setMeter m (r.2.tally r.1 b))

/-! ### Injection (R194-R200) -/

/-- The packets that wait at a hub port for injection. -/
def State.injQ (s : State) (h : Nat) : List InjPkt := Tbl.get (fun _ => []) s.sch.inj h
def State.setInjQ (s : State) (h : Nat) (l : List InjPkt) : State :=
  { s with sch := { s.sch with inj := Tbl.put (fun _ => []) s.sch.inj h l } }
def State.putInj (s : State) (h : Nat) (p : InjPkt) : State :=
  s.setInjQ h ((s.injQ h).map (fun x => if x.id = p.id then p else x))
def State.dropInj (s : State) (h id : Nat) : State := s.setInjQ h ((s.injQ h).filter (fun x => x.id != id))

/-- R203: the unacknowledged request bricks of a context that have entered the fabric, this packet apart. -/
def State.inFlight (s : State) (k psn : Nat) : Nat :=
  match s.ctx? k with
  | some c => ((c.txS 0).pkts.filter (fun x => x.sent.isSome && !x.sacked && x.psn != psn)).foldl (fun a x => a + x.bricks) 0
  | none => 0
/-- R203: the window in force. -/
def State.window (s : State) (k : Nat) : Nat :=
  if s.g Reg.SCH_CC_CFG.cc_en = 0 then s.cwndMax
  else match s.ctx? k with
    | some c => c.cwnd
    | none => s.cwndMax
def State.windowOk (s : State) (p : InjPkt) : Bool := s.inFlight p.ctx p.psn + p.bricks ≤ s.window p.ctx
/-- R197: the packet may pass its shaper. -/
def State.shaperOk (s : State) (p : InjPkt) : Bool :=
  match (s.contract p.identity p.tc).2 with
  | some m => s.shaper m > 0
  | none => true
/-- R197: charge the shaper. -/
def State.chargeShaper (s : State) (p : InjPkt) : State :=
  match (s.contract p.identity p.tc).2 with
  | some m => s.setShaper m (bucket (s.shaper m - (64 * (p.bricks + p.extra) : Nat)))
  | none => s

/-- R306: a packet that waits behind a held one: of the same context and stream, with a later PSN. -/
def behindHeld (q : List InjPkt) (p : InjPkt) : Bool :=
  q.any (fun x => x.held && x.ctx == p.ctx && x.stream == p.stream && serialCmp x.psn p.psn 24 == .before)
/-- All packets that wait for injection. -/
def State.allInj (s : State) : List InjPkt := s.sch.inj.foldl (fun acc e => acc ++ e.2) []

/-- R306: the packet waits at its hub for order: other contexts' packets, and the other stream's, pass it. -/
def waitsForOrder (all : List InjPkt) (p : InjPkt) : Bool := p.held || behindHeld all p
/-- The first waiting packets of each send queue at a hub: a packet held at a gate stays in its send queue (R194). -/
def firstOfQueue (all q : List InjPkt) (p : InjPkt) : Bool :=
  !q.any (fun x => x.request && x.queue == p.queue && x.id < p.id && !waitsForOrder all x)

/-- R194, R199: an older packet of the same send queue stays at a gate, at this hub port or another one: the queue stalls. -/
def State.behindGate (s : State) (p : InjPkt) : Bool :=
  s.allInj.any (fun x => x.request && x.queue == p.queue && x.id < p.id && x.passed.isNone && !waitsForOrder s.allInj x &&
    (x.deferred.isSome || !s.windowOk x || !s.shaperOk x))

/-- R203, R197, R199: mark where each request packet is held, for the cycle counters of R206. -/
def State.noteGates (s : State) (h : Nat) : State :=
  let q := s.injQ h
  s.setInjQ h (q.map (fun p =>
    if p.request && firstOfQueue s.allInj q p && !s.behindGate p && p.deferred.isNone && p.passed.isNone && !p.held then
      let w := !s.windowOk p
      { p with atWindow := w, atShaper := !w && !s.shaperOk p }
    else { p with atWindow := false, atShaper := false }))

/-- A request packet may be offered to the arbiter: it has passed its gates, or would pass window and shaper now. -/
def State.offered (s : State) (q : List InjPkt) (p : InjPkt) : Bool :=
  p.request && firstOfQueue s.allInj q p && !s.behindGate p && !waitsForOrder s.allInj p && p.deferred.isNone &&
  (p.passed.isSome || (!s.sch.retest && s.windowOk p && s.shaperOk p))

/-- Change the transport's record of the packet being injected. -/
def State.onTxPkt (s : State) (k st psn : Nat) (f : TxPkt → TxPkt) : State :=
  match s.ctx? k with
  | some c =>
    let t := c.txS st
    s.setCtx k (c.setTx st { t with pkts := t.pkts.map (fun x => if x.psn = psn then f x else x) })
  | none => s

/-- The transmission has left its send queue: while packets are unacknowledged the timer runs, and a retransmission restarts it
(R303), unless R304 called for it. -/
def State.noteSent (s : State) (p : InjPkt) : State :=
  if p.stream = 2 then s
  else
    let early := match s.ctx? p.ctx with
      | some c => (c.txS p.stream).pkts.any (fun x => x.psn == p.psn && x.early)
      | none => false
    let s1 := s.onTxPkt p.ctx p.stream p.psn (fun x => { x with sent := some s.cycles, waiting := false, early := false })
    let s2 := match s1.ctx? p.ctx with
      | some c =>
        let t := c.txS p.stream
        if t.pkts.any TxPkt.outstanding then
          s1.setCtx p.ctx (c.setTx p.stream { t with
            timer := if p.attempt > 0 ∧ ¬ early then some s.cycles else some (t.timer.getD s.cycles) })
        else s1
      | none => s1
    s2.bump Ctr.TRN_TX_PKT_COUNT

/-- The header of a packet to be injected, before path choice (R157, R159, R171). -/
def State.injHeader (s : State) (p : InjPkt) (colour : Nat) (way : Nat × Nat) : Nat :=
  let r := ctxRemote p.ctx
  HdrIn.make { dst := r / 4, dstHp := r % 4, src := s.me, srcHp := ctxHp p.ctx, vc := if p.request then 0 else 3,
               setTag := s.crs.active, ordered := b2n p.ordered, nonmin := way.1, intWall := way.2,
               birth := s.course % 65536, len := p.bricks, type := p.type, colour := colour, flow := p.hash }

/-- R313, R316: the bytes after the routing header, sealed when the domain encrypts. -/
def State.sealBody (s : State) (p : InjPkt) (hdr : Nat) : Data :=
  match s.slot? (ctxSlot p.ctx), s.ctx? p.ctx with
  | some sl, some c =>
    if sl.encrypt ∧ p.stream ≠ 2 then
      let me := s.attach (ctxHp p.ctx)
      let th := bits p.body.val 0 256
      let key := sl.dirKey me (ctxRemote p.ctx) c.txGen.toNat
      let r := gcmSeal key (trnIv me p.stream (Th.gen th) p.psn p.attempt) (aadHdr hdr ++ leBytes 32 th)
        (p.body.slice 32 (p.body.len - 32)).bytes
      Data.join [⟨32, th⟩, Data.ofBytes r.1, Data.ofBytes r.2]
    else p.body
  | _, _ => p.body

/-- R306, R178: an ordered packet whose set tag or exit differs while earlier ordered ones are unacknowledged. -/
def State.mustHold (s : State) (p : InjPkt) (wall : Nat) : Bool :=
  match s.ctx? p.ctx with
  | some c =>
    c.ordValid && (c.ordTag != s.crs.active || c.ordWall != wall) &&
    ((c.txS p.stream).pkts.any (fun x => x.ordered && !x.sacked && serialCmp x.psn p.psn 24 == .before))
  | none => false

/-- The transmission enters the mortar at hub `h` with a colour and a path, or is dropped as unreachable (R170, R171). -/
def State.launch (s : State) (h : Nat) (p : InjPkt) (colour : Nat) (way : Option (Nat × Nat)) : State :=
  let s1 := (s.dropInj h p.id).noteSent p
  match way with
  | none => (s1.bump Ctr.RTE_UNREACH_DROP_COUNT).raise (srcRte 2) 0 (64 + h)
  | some w =>
    let hdr := s1.injHeader p colour w
    let s2 := s1.bump (if w.1 = 1 then Ctr.RTE_INJ_NONMIN_COUNT else Ctr.RTE_INJ_MIN_COUNT)
    let s3 := if p.ordered then s2.onCtx p.ctx (fun c => { c with ordValid := true, ordTag := s.crs.active, ordWall := w.2 }) else s2
    s3.hubTo h none (mkPacket hdr (s3.sealBody p hdr))

/-- The path of a packet at hub `h` (R168, R171, R177), with the hub's LFSR advanced. -/
def State.injPath (s : State) (h : Nat) (p : InjPkt) : Option (Nat × Nat) × State :=
  let x := Tbl.get (fun _ => s.lfsrSeed h) s.rte.lfsr h
  let r := s.choose s.crs.active (s.injHeader p 0 (0, 0)) s.nmCount x
  (r.1, { s with rte := { s.rte with lfsr := Tbl.ins s.rte.lfsr h r.2 } })

/-- Give a packet its path, hold it for order, or launch it with a colour already fixed. -/
def State.injectAs (s : State) (h : Nat) (p : InjPkt) (colour : Nat) : State :=
  let w := s.injPath h p
  w.2.launch h p colour w.1

/-- A request packet chosen by the arbiter: the order hold, the shaper's charge, the meter (R194, R199, R306). -/
def State.injectRequest (s : State) (h : Nat) (p : InjPkt) : State :=
  match p.passed with
  | some c => s.injectAs h p c
  | none =>
    let s1 := s.chargeShaper p
    let r := s1.colourOf p
    if r.1 ≠ 2 then r.2.injectAs h p r.1
    else
      match (s.contract p.identity p.tc).1 with
      | some m =>
        if s.ga (Reg.SCH_METER.red_action m) = 1 then
          ((r.2.dropInj h p.id).noteSent p).bump Ctr.SCH_RED_DROP_COUNT
        else
          ({ r.2 with sch := { r.2.sch with deferCtr := r.2.sch.deferCtr + 1 } }).putInj h { p with deferred := some s.sch.deferCtr }
      | none => s

/-- R306: hold the packet if order demands it. -/
def State.holdForOrder (s : State) (h : Nat) (p : InjPkt) : Option State :=
  if p.ordered then
    match (s.injPath h p).1 with
    | some w => if s.mustHold p w.2 then some (s.putInj h { p with held := true }) else none
    | none => none
  else none

/-- Inject a packet, or hold it for order. -/
def State.inject (s : State) (h : Nat) (p : InjPkt) : State :=
  match s.holdForOrder h p with
  | some t => t
  | none => if p.request then s.injectRequest h p else s.injectAs h p 0

/-- R194: the arbiter's choice among TC0-TC3. -/
def State.pickRequest (s : State) (h : Nat) : Option InjPkt × List Nat :=
  let q := s.injQ h
  let st := Tbl.get (fun _ => zeros 6) s.sch.injDef h
  let head (tc : Nat) : Option InjPkt := q.find? (fun p => p.tc == tc && s.offered q p)
  let r := drr (fun tc => { head := (head tc).map (fun p => p.bricks), empty := !q.any (fun p => p.request && p.tc == tc),
                            quantum := s.ga (Reg.SCH_TC_CFG.quantum tc) }) 4 (st.take 4) (st.getD 4 0) (st.getD 5 0 == 1)
  (match r.1 with | some tc => head tc | none => none, r.2.1 ++ [r.2.2.1, b2n r.2.2.2])

/-- R187, R194: a packet that its meter or the order hold keeps back, or that is gone, was not eligible: no class has been charged and none
has gained a quantum. -/
def State.keepCharge (s s0 : State) (h : Nat) : State :=
  if (s.inq (64 + h)).length = (s0.inq (64 + h)).length then { s with sch := { s.sch with injDef := s0.sch.injDef } } else s

/-- R194: PACKET_INJECT at hub port `h` (0 to 5). -/
def execPacketInject (h : Nat) (s : State) : Host.Outcome State Fault Refusal :=
  if h < 6 ∧ s.live then
    let q := s.injQ h
    match q.find? (fun p => !p.request && !p.held && !behindHeld s.allInj p) with
    | some p => .next (s.inject h p)
    | none =>
      let s0 := s.noteGates h
      let r := s0.pickRequest h
      let s1 := { s0 with sch := { s0.sch with injDef := Tbl.put (fun _ => zeros 6) s0.sch.injDef h r.2 } }
      match r.1 with
      | some p => .next ((s1.inject h p).keepCharge s0 h)
      | none => .next s1
  else .next s

/-- Insert by deferral order. -/
def insertBy (e : Nat × Nat × InjPkt) : List (Nat × Nat × InjPkt) → List (Nat × Nat × InjPkt)
  | [] => [e]
  | x :: t => if e.1 ≤ x.1 then e :: x :: t else x :: insertBy e t

/-- R199: deferred packets with their hubs, in the order in which they were deferred. -/
def State.deferredPkts (s : State) : List (Nat × Nat × InjPkt) :=
  s.sch.inj.foldl (fun acc e => e.2.foldl (fun a p => match p.deferred with | some n => insertBy (n, e.1, p) a | none => a) acc) []

/-- R199: DEFERRED_RETEST. -/
def execDeferredRetest (s : State) : Host.Outcome State Fault Refusal :=
  if s.sch.retest then
    let s1 := s.deferredPkts.foldl (fun t e =>
      let r := t.colourOf e.2.2
      let drop := match (t.contract e.2.2.identity e.2.2.tc).1 with
        | some m => t.ga (Reg.SCH_METER.red_action m) == 1
        | none => false
      if r.1 = 2 then (if drop then ((r.2.dropInj e.2.1 e.2.2.id).noteSent e.2.2).bump Ctr.SCH_RED_DROP_COUNT else t)
      else r.2.putInj e.2.1 { e.2.2 with deferred := none, passed := some r.1 }) s
    .next { s1 with sch := { s1.sch with retest := false } }
  else .next s

/-! ### Output scheduling (R186-R191, R202) -/

/-- Lanes in a width mask. -/
def widthOf (mask : Nat) : Nat := popcount mask 2

/-- Packets of a class that wait at a hub port for its engine. -/
def State.hubCount (s : State) (h : Nat) (rsp : Bool) : Nat := ((s.hubQ h).filter (fun e => isResponse e.1 == rsp)).length
/-- R186: the engine behind hub port `h` has room for a packet: HB0-HB5 accept every response (R176), HB6 takes every
collective packet (R422), and HB7 stores what comes and discards by itself (R500). How much room the other engines have is free. -/
def State.hubRoom (s : State) (h : Nat) (p : InPkt) : Bool :=
  6 ≤ h || (h ≤ 5 && Hdr.cls p.head.hdr == 1) || s.hubCount h false == 0 || s.hubCount h false < Config.hubRoom h
/-- R176: there is no room for a response: it is discarded and counted (R309). -/
def State.noRoom (s : State) (h : Nat) (p : InPkt) : Bool :=
  h ≤ 5 && Hdr.cls p.head.hdr == 1 && s.hubCount h true != 0 && Config.rspRoom h ≤ s.hubCount h true

/-- R118, R130, R186: the packet may start at the output now. -/
def State.eligible (s : State) (o i : Nat) (p : InPkt) : Bool :=
  if o ≥ 64 then p.got ≥ p.len && p.abort_.isNone && s.hubRoom (o - 64) p
  else
    let l := s.lk o
    l.st == .up && !l.txPkt && (!l.farPoolOff || p.len ≤ l.credits (s.outVc o p)) &&
    (i ≥ 64 || widthOf (s.pp i).rxMask ≥ widthOf (s.pp o).txMask || p.got ≥ p.len)

/-- R190: the first packet of an input that is queued for an output on a VC. -/
def State.headAt (s : State) (o i vc : Nat) : Option InPkt :=
  (s.inq i).find? (fun p => p.dest == some o && !p.drop && s.outVc o p == vc)

/-- R189: sources in round-robin order after the one last served. -/
def sourcesFrom (last : Nat) : List Nat := (List.range 72).map (fun k => (last + 1 + k) % 72)

/-- The packet that a VC of an output would send, with its input (R189). -/
def State.vcHead (s : State) (o vc : Nat) : Option (Nat × InPkt) :=
  (sourcesFrom ((s.outSt o).rr.getD vc 71)).findSome? (fun i =>
    match s.headAt o i vc with
    | some p => if s.eligible o i p then some (i, p) else none
    | none => none)

/-- No packet is queued for an output on a VC. -/
def State.vcEmpty (s : State) (o vc : Nat) : Bool := (List.range 72).all (fun i => (s.headAt o i vc).isNone)

/-- R188: one brick slot at an output, in 1/160 of a core cycle. -/
def State.slotTime (s : State) (o : Nat) : Nat := if o ≥ 64 then 160 else if widthOf (s.pp o).txMask = 1 then 576 else 288
/-- R188: VC7 bricks within the latest 1,024 slots. -/
def State.vc7Recent (s : State) (o : Nat) : List Nat :=
  (s.outSt o).vc7.filter (fun c => (s.cycles - c) * 160 < 1024 * s.slotTime o)
/-- R188: the cap binds. -/
def State.capped (s : State) (o : Nat) (others : Bool) : Bool :=
  let cap := min 1024 (s.g Reg.SCH_VC7_CAP.cap)
  cap != 0 && others && (s.vc7Recent o).length ≥ cap

/-- R202: marking. -/
def State.markIt (s : State) (o : Nat) (h : Nat) : Bool :=
  s.g Reg.SCH_MARK_CFG.enable == 1 && Hdr.vc h ≤ 5 && Hdr.cmark h == 0 &&
  (let q := s.depth o (if o < 64 then 6 else 8)
   (Hdr.colour h != 0 && q ≥ 8 * s.g Reg.SCH_MARK_CFG.mark_y) || q ≥ 8 * s.g Reg.SCH_MARK_CFG.mark_g)

/-- The header with what the output changes in it: phase and VC (R173), hops (R174), cmark (R202). -/
def State.outHeader (s : State) (o : Nat) (p : InPkt) : Nat :=
  let h := p.head.hdr
  let h1 := if s.outVc o p ≠ Hdr.vc h then setBits (setBits h 44 3 (s.outVc o p)) 47 2 (Hdr.phase h + 1) else h
  let h2 := if o < 64 then setBits h1 94 4 (min 15 (Hdr.hops h + 1)) else h1
  if s.markIt o h then setBits h2 93 1 1 else h2

/-- A hub port takes a packet whole: it is for the engine behind it, which discards a response it has no room for (R176, R309). -/
def State.hubTake (s : State) (h i : Nat) (p : InPkt) : State :=
  let s1 := if s.noRoom h p then s.bump Ctr.TRN_RSP_DISCARD_COUNT
    else { s with sch := { s.sch with hubRx := Tbl.put (fun _ => []) s.sch.hubRx h (s.hubQ h ++ [(p.data, i)]) } }
  (s1.freeForms i p.vc p.forms).delPkt i p.id

/-- The scheduler starts a packet of input `i` at output `o` on VC `vc` (R189, R190). At a hub port its bricks take one core cycle
each (R188). -/
def State.startPkt (s : State) (o i vc : Nat) (p : InPkt) : State :=
  let s0 := s.bumpIf (s.markIt o p.head.hdr) Ctr.SCH_MARK_COUNT
  let p1 := { p with ovc := vc, head := p.head.withHdr (s.outHeader o p) }
  let st := s0.outSt o
  let st1 := { st with rr := st.rr.set vc i, vc7 := s.vc7Recent o, vc7Wait := if vc = 7 then false else st.vc7Wait }
  if o < 64 then
    ((s0.setOut o { st1 with cur := some (i, p.id) }).setPkt i p1).onLk o (fun l => { l with txCredit := l.farPoolOff })
  else
    let sent := if vc = 7 then ((List.range p.len).map (fun k => s.cycles + k)).reverse else []
    (s0.setOut o { st1 with vc7 := sent ++ st1.vc7 }).hubTake (o - 64) i p1

/-- The VCs the deficit round robin of an output may serve now (R191). -/
def State.vcClass (s : State) (o vc : Nat) : Bool :=
  if 64 ≤ o ∧ o < 70 then
    vc ≤ 5 && (if (List.range 3).any (fun k => (s.vcHead o (3 + k)).isSome) then 3 ≤ vc else vc ≤ 2)
  else vc ≤ 6

/-- R187: no other packet than this one of input `i` is queued for an output on a VC. -/
def State.vcLast (s : State) (o i vc : Nat) (p : InPkt) : Bool :=
  (List.range 72).all (fun j => !(s.inq j).any (fun x => x.dest == some o && !x.drop && s.outVc o x == vc && !(j == i && x.id == p.id)))
/-- R187: a VC's queue has become empty: its deficit is 0, and the pointer moves on. -/
def State.vcEnds (s : State) (o vc : Nat) : State :=
  let st := s.outSt o
  s.setOut o { st with deficit := st.deficit.set vc 0, ptr := if st.ptr = vc then (vc + 1) % 7 else st.ptr,
                       fresh := st.fresh && st.ptr != vc }

/-- R187: deficit round robin over VC0 to VC6 at an output. -/
def State.scheduleDrr (s : State) (o : Nat) : State :=
  let st := s.outSt o
  let r := drr (fun vc => { head := if s.vcClass o vc then (s.vcHead o vc).map (fun x => x.2.len) else none,
                            empty := s.vcEmpty o vc, quantum := s.ga (Reg.SCH_VC_CFG.quantum vc) }) 7 st.deficit st.ptr st.fresh
  let s1 := s.setOut o { st with deficit := r.2.1, ptr := r.2.2.1, fresh := r.2.2.2 }
  match r.1 with
  | some vc =>
    match s.vcHead o vc with
    | some (i, p) => (if s.vcLast o i vc p then s1.vcEnds o vc else s1).startPkt o i vc p
    | none => s1
  | none => s1

/-- R188: no eligible packet of VC7 is at the output: it does not wait on the cap. -/
def State.noCapWait (s : State) (o : Nat) : State := s.setOut o { s.outSt o with vc7Wait := false }

/-- R187: OUTPUT_SCHEDULE at output `o` (0-63 a fabric port, 64 + h hub port h). -/
def execOutputSchedule (o : Nat) (s : State) : Host.Outcome State Fault Refusal :=
  if o < 72 ∧ (s.outSt o).cur = none then
    match s.vcHead o 7 with
    | some (i, p) =>
      let others := (List.range 7).any (fun vc => (s.vcHead o vc).isSome)
      if s.capped o others then
        let st := s.outSt o
        let s1 := if st.vc7Wait then s
          else ((s.setOut o { st with vc7Wait := true }).bump Ctr.SCH_VC7_CAP_COUNT).raise (srcSch 3) 0 0
        .next (s1.scheduleDrr o)
      else .next (s.startPkt o i 7 p)
    | none => .next ((s.noCapWait o).scheduleDrr o)
  else .next s

end Sys2Proof.Machine
end

