-- ==== Sys2Proof/Machine/Mch.lean ====
section
/-! DEFINITION. Message matching (spec/10): order records, posted receives and the search, the header store, landing, eager
and rendezvous messages, SKIP, as operations of the machine; the meanings of its commands are in Machine/MchCmd.lean. -/
namespace Sys2Proof.Machine

/-- Pick a free number below `n`, when one is free: which one the device takes is not architectural, so it is a free value. -/
def State.pick (s : State) (n : Nat) (used : List Nat) : Option Nat × State :=
  if used.length ≥ n then (none, s)
  else
    let d := s.draw
    (((List.range (used.length + 1)).map (fun i => (d.1 + i) % n)).find? (fun i => !used.contains i), d.2)

/-- Change the matching engine. -/
def State.onMch (s : State) (f : Mch → Mch) : State := { s with mch := f s.mch }

/-! ### Accepted packets -/

/-- The oldest accepted packet of an engine that takes these opcodes. -/
def State.front (s : State) (ops : List Nat) : Option Arr := s.trn.accepted.find? (fun a => ops.contains (Th.opcode a.th))
/-- Take it off. -/
def State.takeArr (s : State) (a : Arr) : State := { s with trn := { s.trn with accepted := s.trn.accepted.erase a } }
/-- The oldest accepted packet with an opcode that heads its lane of an engine and does not wait there for a read; requests to local
endpoints are handled while the device serves them (R37). -/
def State.frontOp (s : State) (ops : List Nat) (op : Nat) (lane : Arr → Nat) (waits : Arr → Bool) : Option Arr :=
  let mine := if s.serving then s.trn.accepted.filter (fun a => ops.contains (Th.opcode a.th)) else []
  mine.find? (fun a => Th.opcode a.th == op && !waits a && mine.find? (fun b => lane b == lane a) == some a)

/-! ### Order records (R330-R332) -/

/-- Key of an order record: endpoint, direction (1 send), peer, context. -/
def orderKey (ep dir peer context : Nat) : Nat := ((ep * 2 + dir) * 2 ^ 38 + peer) * 65536 + context
def okEp (k : Nat) : Nat := k / 2 ^ 55
def okDir (k : Nat) : Nat := k / 2 ^ 54 % 2
def okPeer (k : Nat) : Nat := k / 65536 % 2 ^ 38
def okContext (k : Nat) : Nat := k % 65536

/-- R331: the host address of a key's bucket. -/
def Ep.bucket (e : Ep) (k : Nat) : Nat :=
  e.otBase + 128 * (crc32c (okPeer k + okDir k * 2 ^ 38 + okContext k * 2 ^ 40) 7 % 2 ^ e.m)

/-- R330: the 16 bytes of a record. -/
def OrderRec.bytes (r : OrderRec) (k : Nat) : Data :=
  ⟨16, pack [(0, 38, okPeer k), (38, 1, okDir k), (39, 1, 1), (40, 16, okContext k), (56, 24, r.msn.toNat)]⟩

/-- Cache a record; when 65,536 are cached, one is evicted, written back if it has changed (R332). -/
def State.cacheOrder (s : State) (k : Nat) (r : OrderRec) : State :=
  let ins (t : State) : State :=
    (if (Tbl.find? s.mch.orders k).isSome then t else t.fillBank 10 k).onMch (fun m => { m with orders := Tbl.ins m.orders k r })
  if s.mch.orders.length < s.cacheCap 10 65536 ∨ (Tbl.find? s.mch.orders k).isSome then ins s
  else
    let d := s.draw
    match s.mch.orders[d.1 % s.mch.orders.length]? with
    | some (vk, v) =>
      let t := d.2.onMch (fun m => { m with orders := Tbl.del m.orders vk })
      match s.ep? (okEp vk) with
      | some e => ins (if v.dirty then t.hostWrite (hpOf e.owner) e.owner v.addr (v.bytes vk) else t)
      | none => ins t
    | none => ins s

/-- What asking for an order record answers: the record, a wait for its read, or a failure (2 bucket full, 4 + cause). -/
inductive OrdRes where
  | have_ (r : OrderRec) | wait | bad (why : Nat)
deriving DecidableEq, Repr

/-- R331, R332: ask for an order record. -/
def State.needOrder (s : State) (ep dir peer context : Nat) : State × OrdRes :=
  let k := orderKey ep dir peer context
  match Tbl.find? s.mch.orders k with
  | some r => (s, .have_ r)
  | none =>
    match Tbl.find? s.mch.orderBad k with
    | some w => (s.onMch (fun m => { m with orderBad := Tbl.del m.orderBad k }), .bad w)
    | none =>
      if s.mch.orderReads.contains k then (s, .wait)
      else
        match s.ep? ep with
        | some e =>
          let t := s.onMch (fun m => { m with orderReads := m.orderReads ++ [k] })
          (t.hostRead (hpOf e.owner) e.owner (e.bucket k) 128, .wait)
        | none => (s, .bad 2)

/-- R331: the record for a key in a bucket that has been read, or the slot where one is made; slots that cached records
hold are in use. -/
def State.lookupBucket (s : State) (k base : Nat) (d : Data) : Option OrderRec :=
  let rec_ (i : Nat) : Nat := (d.slice (16 * i) 16).val
  let want := okPeer k + okDir k * 2 ^ 38 + 2 ^ 39 + okContext k * 2 ^ 40
  let held (i : Nat) : Bool := s.mch.orders.any (fun e => okEp e.1 == okEp k && e.2.addr == base + 16 * i)
  match (List.range 8).find? (fun i => bits (rec_ i) 0 56 == want && !held i) with
  | some i => some ⟨BitVec.ofNat 24 (bits (rec_ i) 56 24), base + 16 * i, false⟩
  | none =>
    match (List.range 8).find? (fun i => bits (rec_ i) 39 1 == 0 && !held i) with
    | some i => some ⟨0, base + 16 * i, true⟩
    | none => none

/-- An order-table read has returned (R331, R332). -/
def State.orderReturn (s : State) (i : Nat) (r : ReadResult) : State :=
  match s.mch.orderReads[i]? with
  | none => s
  | some k =>
    let t := s.onMch (fun m => { m with orderReads := m.orderReads.eraseIdx i })
    match s.ep? (okEp k) with
    | none => t
    | some e =>
      match r with
      | .error cause =>
        (t.onMch (fun m => { m with orderBad := Tbl.ins m.orderBad k (4 + cause) })).raise (srcMch 1) 0 (okEp k) (some e.owner)
      | .data d =>
        match t.lookupBucket k (e.bucket k) d with
        | some v => t.cacheOrder k v
        | none => t.onMch (fun m => { m with orderBad := Tbl.ins m.orderBad k 2 })

/-- Give a cached record another MSN. -/
def State.setMsn (s : State) (k : Nat) (msn : Psn) : State :=
  match Tbl.find? s.mch.orders k with
  | some r => s.onMch (fun m => { m with orders := Tbl.ins m.orders k { r with msn := msn, dirty := true } })
  | none => s

/-! ### Posted receives and the overflow pool (R341-R344) -/

/-- R341. -/
def Posted.satisfied (p : Posted) (source context tag : Nat) : Bool :=
  p.context == context && (p.anySource || p.source == source) && ((tag ^^^ p.tag) &&& ((2 ^ 64 - 1) ^^^ p.ignore)) == 0

def State.postedOf (s : State) (ep : Nat) : List Posted := Tbl.get (fun _ => []) s.mch.posted ep
def State.overOf (s : State) (ep : Nat) : List Posted := Tbl.get (fun _ => []) s.mch.chain ep
def State.setPosted (s : State) (ep : Nat) (l : List Posted) : State :=
  s.onMch (fun m => { m with posted := Tbl.put (fun _ => []) m.posted ep l })
def State.setOver (s : State) (ep : Nat) (l : List Posted) : State :=
  s.onMch (fun m => { m with chain := Tbl.put (fun _ => []) m.chain ep l })
/-- The owner of an endpoint. -/
def State.epOwner (s : State) (ep : Nat) : Nat :=
  match s.ep? ep with
  | some e => e.owner
  | none => 0xFFF
/-- Sum over the endpoints of a function. -/
def State.sumFn {α : Type} (s : State) (f : Nat) (t : Tbl (List α)) : Nat :=
  t.foldl (fun a e => if s.epOwner e.1 = f then a + e.2.length else a) 0
/-- R343: on-chip room for one more posted receive of a function. -/
def State.postRoom (s : State) (f : Nat) : Bool :=
  let q := s.g (Reg.MCH_FN_QUOTA.pre f) * 256
  decide (s.mch.posted.foldl (fun a e => a + e.2.length) 0 < 262144) && (q == 0 || decide (s.sumFn f s.mch.posted < q))

/-- The overflow pool of a host port (R344): base and records. -/
def State.poolBase (s : State) (hp : Nat) : Nat := (s.g (Reg.MCH_OVF.base_lo hp) + s.g (Reg.MCH_OVF.base_hi hp) * 2 ^ 20) * 4096
def State.poolSize (s : State) (hp : Nat) : Nat := 2 ^ (max 10 (min 22 (s.g (Reg.MCH_OVF.k hp))))
/-- Pool records in use. -/
def State.poolUsed (s : State) (hp : Nat) : List Nat :=
  s.mch.chain.foldl (fun a e => if hpOf (s.epOwner e.1) = hp then a ++ e.2.filterMap (fun p => p.slot) else a) []

/-- R344: a posted receive as a record. -/
def Posted.bytes (p : Posted) (ep next : Nat) (valid : Bool) : Data :=
  ⟨64, packB [(0, 40, p.source + b2n p.anySource * 2 ^ 38 + b2n valid * 2 ^ 39), (5, 16, p.context), (8, 64, p.tag), (16, 64, p.ignore),
    (24, 64, p.buf), (32, 32, p.len), (36, 32, next), (40, 64, p.user), (48, 16, ep)]⟩
/-- R344: the posted receive that a record read from the pool holds; the override is not in it. -/
def Posted.ofBytes (d : Data) (p : Posted) : Posted :=
  { p with source := d.field 0 0 38, anySource := d.field 0 38 1 == 1, context := d.field 5 0 16, tag := d.field 8 0 64,
           ignore := d.field 16 0 64, buf := d.field 24 0 64, len := d.field 32 0 32, user := d.field 40 0 64 }

/-- Address of a pool record. -/
def State.recAt (s : State) (hp slot : Nat) : Nat := s.poolBase hp + 64 * slot
/-- Key of a pool record. -/
def poolKey (hp slot : Nat) : Nat := hp * 2 ^ 32 + slot
def noSlot : Nat := 0xFFFFFFFF

/-- R343, R344: append a receive to the endpoint's overflow list, if the pool has room. -/
def State.toOverflow (s : State) (ep : Nat) (p : Posted) : Option State :=
  let f := s.epOwner ep
  let hp := hpOf f
  if s.g (Reg.MCH_OVF.enable hp) = 0 then none
  else
    let k := s.pick (s.poolSize hp) (s.poolUsed hp)
    match k.1 with
    | none => none
    | some slot =>
      let l := s.overOf ep
      let t := k.2.hostWrite hp (hp * 256) (s.recAt hp slot) (p.bytes ep noSlot true)
      let t1 := match l.getLast? with
        | some q => t.hostWrite hp (hp * 256) (s.recAt hp (q.slot.getD 0) + 36) ⟨4, slot⟩
        | none => t
      some (t1.setOver ep (l ++ [{ p with slot := some slot }]))

/-- Take an entry out of an overflow list: the chain is joined around it and its record is no longer in use. -/
def State.dropOver (s : State) (ep slot : Nat) : State :=
  let l := s.overOf ep
  let hp := hpOf (s.epOwner ep)
  let i := (l.findIdx? (fun p => p.slot == some slot)).getD 0
  let next := ((l[i + 1]?).bind (fun p => p.slot)).getD noSlot
  let t := match l[i]? with
    | some p => s.hostWrite hp (hp * 256) (s.recAt hp slot) (p.bytes ep next false)
    | none => s
  let t1 := if i = 0 then t
    else match l[i - 1]? with
      | some q => t.hostWrite hp (hp * 256) (s.recAt hp (q.slot.getD 0) + 36) ⟨4, next⟩
      | none => t
  t1.setOver ep (l.eraseIdx i)

/-- What a search of an endpoint's posted receives answers (R341, R343). -/
inductive Found where
  | none_ | chip (p : Posted) | beyond (p : Posted) | wait | bad
deriving DecidableEq, Repr

/-- R343, R344: walk the overflow list, one record read after another. -/
def State.walkOver (s : State) (ep hp : Nat) (sat : Posted → Bool) : List Posted → State × Found
  | [] => (s, .none_)
  | p :: t =>
    let slot := p.slot.getD 0
    let k := poolKey hp slot
    match s.mch.ovfSeen.find? (fun e => e.1 == k) with
    | some e => let q := Posted.ofBytes ⟨64, e.2⟩ p
                if sat q then (s, .beyond q) else s.walkOver ep hp sat t
    | none =>
      if s.mch.ovfReads.contains (ep, k) then (s, .wait)
      else
        ((s.onMch (fun m => { m with ovfReads := m.ovfReads ++ [(ep, k)] })).hostRead hp (hp * 256) (s.recAt hp slot) 64, .wait)

/-- The walk of an endpoint is over: what it read is no longer kept. -/
def State.endWalk (s : State) (ep hp : Nat) : State :=
  let ks := (s.overOf ep).map (fun p => poolKey hp (p.slot.getD 0))
  s.onMch (fun m => { m with ovfSeen := m.ovfSeen.filter (fun e => !ks.contains e.1), ovfBad := m.ovfBad.erase ep, lanes := Tbl.del m.lanes ep })

/-- The match operation that an endpoint's lane waits for is still to be done: the arrival is there, or the release, or the cancel is the
entry its queue would start. -/
def State.laneLive (s : State) (ep job : Nat) : Bool :=
  if job = 1 then s.trn.accepted.any (fun a => [0x10, 0x11, 0x14].contains (Th.opcode a.th) && Th.dstEp a.th == ep)
  else if job = 2 then s.mch.hdrs.any (fun e => e.2.ep == ep && e.2.st == .reorder)
  else match s.nextEntry (job - 3) with
    | some (v, e) => v.ep == ep && Wqe.op e.raw == 0x03
    | none => false
/-- R342: another match operation than `job` is in the endpoint's lane, or a read of its walk is still out. -/
def State.laneHeld (s : State) (ep job : Nat) : Bool :=
  (Tbl.find? s.mch.lanes ep).any (fun j => j != job && s.laneLive ep j) || s.mch.ovfReads.any (fun e => e.1 == ep)
/-- R342: what a match operation that has gone away left in the endpoint's lane is dropped before another one begins. -/
def State.clearLane (s : State) (ep job : Nat) : State :=
  if (Tbl.find? s.mch.lanes ep).any (fun j => j != job) then s.endWalk ep (hpOf (s.epOwner ep)) else s

/-- Search an endpoint's posted receives, on chip and then in overflow, for a match operation: one at a time in its lane (R342). -/
def State.search (s : State) (ep job : Nat) (sat : Posted → Bool) : State × Found :=
  if s.laneHeld ep job then (s, .wait)
  else match (s.postedOf ep).find? sat with
  | some p => (s, .chip p)
  | none =>
    let hp := hpOf (s.epOwner ep)
    let s0 := s.clearLane ep job
    if s0.mch.ovfBad.contains ep then (s0.endWalk ep hp, .bad)
    else
      let r := s0.walkOver ep hp sat (s0.overOf ep)
      match r.2 with
      | .wait => (r.1.onMch (fun m => { m with lanes := Tbl.ins m.lanes ep job }), .wait)
      | x => (r.1.endWalk ep hp, x)

/-- Take a found receive off its list. -/
def State.unpost (s : State) (ep : Nat) : Found → State
  | .chip p => s.setPosted ep ((s.postedOf ep).erase p)
  | .beyond p => s.dropOver ep (p.slot.getD 0)
  | _ => s

/-- An overflow record read has returned (R344). -/
def State.overflowReturn (s : State) (i : Nat) (r : ReadResult) : State :=
  match s.mch.ovfReads[i]? with
  | none => s
  | some (ep, k) =>
    let t := s.onMch (fun m => { m with ovfReads := m.ovfReads.eraseIdx i })
    match r with
    | .data d => (t.onMch (fun m => { m with ovfSeen := m.ovfSeen ++ [(k, d.val % 2 ^ 512)] })).bump Ctr.MCH_OVF_WALK_COUNT
    | .error _ => (t.onMch (fun m => { m with ovfBad := m.ovfBad ++ [ep] })).raise (srcMch 2) 0 ep (some (s.epOwner ep))

/-! ### The header store and landing (R346, R347) -/

def State.hdr? (s : State) (i : Nat) : Option MHdr := Tbl.find? s.mch.hdrs i
def State.setHdr (s : State) (i : Nat) (h : MHdr) : State := s.onMch (fun m => { m with hdrs := Tbl.ins m.hdrs i h })
def State.hdrGen (s : State) (i : Nat) : Nat := Tbl.get (fun _ => 0) s.mch.gens i
/-- Handle and pull_id of an entry. -/
def State.handle (s : State) (i : Nat) : Nat := i + s.hdrGen i * 65536

/-- R348: hdr_find. -/
def State.hdrFind (s : State) (ep source context msn : Nat) : Option (Nat × MHdr) :=
  s.mch.hdrs.find? (fun e => e.2.ep == ep && e.2.source == source && e.2.context == context && e.2.msn == msn)

/-- R346: a free header entry for a function. -/
def State.hdrAlloc (s : State) (f : Nat) : Option Nat × State :=
  let q := s.g (Reg.MCH_FN_QUOTA.hdr f) * 64
  if q ≠ 0 ∧ (s.mch.hdrs.filter (fun e => s.epOwner e.2.ep == f)).length ≥ q then (none, s)
  else s.pick 65536 (Tbl.keys s.mch.hdrs)

/-- The time stamp fields of a receive completion's second slot (R351). -/
def State.rxStamp (s : State) (ep : Nat) : Nat :=
  match s.ep? ep with
  | some e => if e.rxStamp then packB [(16, 64, s.now), (31, 1, 1)] else 0
  | none => 0

/-- R351: the second slot of a message's receive completion. -/
def State.msgSlot (s : State) (h : MHdr) (handle : Nat) : Nat :=
  packB [(0, 40, h.source + b2n h.rndv * 2 ^ 38), (5, 16, h.context), (7, 24, h.msn), (12, 32, h.len), (24, 32, handle)] + s.rxStamp h.ep

/-- R347: a buffer that is passed and holds nothing is returned by a one-slot receive completion. -/
def State.returnLanding (s : State) (b : Nat) : State :=
  match Tbl.find? s.mch.landings b with
  | some l =>
    if l.passed ∧ l.held = 0 then
      let t := s.onMch (fun m => { m with landings := Tbl.del m.landings b })
      match s.ep? l.ep with
      | some e => t.rxPost e.rcq [cqe l.user 0 0 l.fill l.ep 1 0 0x06 0 0 0] none
      | none => t
    else s
  | none => s

/-- Release a message's landing piece (R347, R350). -/
def State.unland (s : State) (h : MHdr) : State :=
  match h.landing with
  | some (b, _, _) =>
    match Tbl.find? s.mch.landings b with
    | some l => (s.onMch (fun m => { m with landings := Tbl.ins m.landings b { l with held := l.held - 1 } })).returnLanding b
    | none => s
  | none => s

/-- R347: reserve landing space for `len` bytes: the state, and the piece, when there is room. A buffer with too little
space is passed when there is a next one. -/
def State.landReserve (s : State) (ep len : Nat) : Option (State × Option (Nat × Nat × Nat)) :=
  let n := ceilDiv len 64 * 64
  if n = 0 then some (s, none)
  else
    let mine := s.mch.landings.filter (fun e => e.2.ep == ep && !e.2.passed)
    let small := mine.takeWhile (fun e => e.2.len - e.2.fill < n)
    let passAll (l : Tbl Landing) : State :=
      l.foldl (fun t e => (t.onMch (fun m => { m with landings := Tbl.ins m.landings e.1 { e.2 with passed := true } })).returnLanding e.1) s
    match mine.drop small.length with
    | (b, l) :: _ =>
      some ((passAll small).onMch (fun m => { m with landings := Tbl.ins m.landings b { l with fill := l.fill + n, held := l.held + 1 } }),
        some (b, l.fill, n))
    | [] => none

/-- Receive completion of a paired message (R350, R351): its entry is freed when the completion is written or held. -/
def State.completeRecv (s : State) (i : Nat) (h : MHdr) (status detail : Nat) : State :=
  match h.recv with
  | none => s
  | some r =>
    let s1 := (s.unland h).setHdr i { h with recv := none, landing := none, pend := [], pieces := [] }
    let s2 := s1.bumpIf (status = stTRUNCATED) Ctr.MCH_TRUNC_COUNT
    match s.ep? h.ep with
    | some e =>
      s2.rxPost e.rcq [cqe r.user h.tag 0 h.placed h.ep 1 status r.op detail 0 1, s.msgSlot h 0] (some i)
    | none => s2.freeHdr i

/-- R345, R357: a CANCELLED receive completion of a posted receive. The spec gives no message for it, so its message
fields are free. -/
def State.cancelPosted (s : State) (ep : Nat) (p : Posted) (detail : Nat) : State :=
  match s.ep? ep with
  | some e =>
    let a := s.draw
    let b := a.2.draw
    let slot1 := packB [(0, 40, bits b.1 0 40), (5, 16, bits b.1 40 16), (7, 24, bits b.1 56 24), (12, 32, bits b.1 80 32)] + s.rxStamp ep
    b.2.rxPost e.rcq [cqe p.user (a.1 % 2 ^ 64) 0 0 ep 1 stCANCELLED 0x02 detail 0 1, slot1] none
  | none => s

/-- Take bytes for a message into its buffer: what lies past the buffer's end, or follows a failure, is only counted
(R350, R356). -/
def MHdr.toBuffer (h : MHdr) (r : Recv) (off : Nat) (d : Data) : List (Nat × Data) :=
  let n := min d.len (r.len - off)
  if n = 0 ∨ h.fault.isSome then [] else [(r.buf + off, d.slice 0 n)]

/-- R350: place the payload of one packet. -/
def State.placeMsg (s : State) (i : Nat) (h : MHdr) (off : Nat) (d : Data) : State :=
  let h1 := { h with count := h.count + d.len }
  match h.st with
  | .assembling =>
    match h.recv with
    | some r => s.setHdr i { h1 with pend := h.pend ++ (h.toBuffer r off d).map (fun x => .put false x.1 x.2) }
    | none => s
  | .reorder | .unexpected | .claimed =>
    match h.landing with
    | some (b, at_, _) =>
      match Tbl.find? s.mch.landings b with
      | some l =>
        if d.len = 0 ∨ h.fault.isSome then s.setHdr i h1
        else s.setHdr i { h1 with pieces := h.pieces ++ [(off, d)], pend := h.pend ++ [.land (l.addr + at_ + off) d] }
      | none => s.setHdr i h1
    | none => s.setHdr i h1
  | _ => s

/-- Bricks of the packets of a multi-packet response (R196, R290). -/
def respBricks (len : Nat) (encrypt : Bool) : Nat :=
  len / 4096 * pktBricks 4096 encrypt + (if len % 4096 ≠ 0 ∨ len = 0 then pktBricks (len % 4096) encrypt else 0)
/-- A context's domain encrypts. -/
def State.encrypts (s : State) (k : Nat) : Bool :=
  match s.slot? (ctxSlot k) with
  | some sl => sl.encrypt
  | none => false

/-- R352: send an RV_GET for an entry: a pull, or with `abandon` a message given up. -/
def State.sendRvGet (s : State) (i : Nat) (h : MHdr) (len : Nat) (abandon : Bool) : State :=
  s.newOp { Op.base h.ctx 0 (if abandon then .rvAbandon else .rvGet i (s.hdrGen i)) h.ep (h.source % 65536) 0x12 len
              (packB [(0, 32, h.rvId), (4, 32, s.handle i), (8, 1, b2n abandon)]) with
            resp := if abandon then 0 else max 1 (ceilDiv len 4096), identity := s.epOwner h.ep,
            extra := if abandon then 0 else respBricks len (s.encrypts h.ctx) }

/-- Where a message's landing piece begins, as an input address. -/
def State.landAt (s : State) (h : MHdr) : Nat :=
  match h.landing with
  | some (b, at_, _) => ((Tbl.find? s.mch.landings b).map (fun l => l.addr + at_)).getD 0
  | none => 0

/-- R350: pair a message with a receive. -/
def State.pair (s : State) (i : Nat) (h : MHdr) (r : Recv) : State :=
  let s1 := s.bump Ctr.MCH_MATCH_COUNT
  let h1 := { h with st := .assembling, recv := some r, pieces := [] }
  if h.rndv then
    (s1.setHdr i { h1 with count := 0 }).sendRvGet i h (min h.len r.len) false
  else
    let moved := h.pieces.foldl (fun a p => a ++ (h.toBuffer r p.1 p.2).map (fun x => Pend.copy (s.landAt h + p.1) x.1 x.2)) []
    s1.setHdr i { h1 with pend := h.pend ++ moved }

/-- The receive of a posted entry. -/
def Posted.recv (p : Posted) : Recv := ⟨p.buf, p.len, p.user, 0x02, p.ovr⟩

/-! ### Refusal, arrival and release (R348, R349, R353) -/

/-- R353: refuse an arrived message or SKIP. -/
def State.mchRefuse (s : State) (a : Arr) : State :=
  (((s.takeArr a).bump Ctr.MCH_REFUSE_COUNT).raise (srcMch 0) 0 (Th.dstEp a.th) (some (s.epOwner (Th.dstEp a.th)))).refuseEp a 6
/-- R348: a stray packet. -/
def State.stray (s : State) (a : Arr) : State := (s.takeArr a).bump Ctr.MCH_STRAY_DROP_COUNT

/-- The next number of the match order. -/
def State.nextSeq (s : State) : State := s.onMch (fun m => { m with seq := m.seq + 1 })
/-- An entry enters UNEXPECTED in match order. -/
def State.toUnexpected (s : State) (i : Nat) (h : MHdr) : State :=
  ((s.setHdr i { h with st := .unexpected, seq := s.mch.seq }).nextSeq).bump Ctr.MCH_UNEXP_COUNT

/-- R332, R349: release the entries that hold the expected MSN of a triple; a record that has been evicted meanwhile is read again. -/
def State.release (s : State) (ep source context : Nat) : Nat → State
  | 0 => s
  | n + 1 =>
    let k := orderKey ep 0 source context
    match Tbl.find? s.mch.orders k with
    | none => (s.needOrder ep 0 source context).1
    | some r =>
      match s.hdrFind ep source context r.msn.toNat with
      | none => s
      | some (i, h) =>
        match h.st with
        | .skipped => ((s.freeHdr i).setMsn k (r.msn + 1)).release ep source context n
        | .reorder =>
          let f := s.search ep 2 (fun p => p.satisfied h.source h.context h.tag)
          match f.2 with
          | .wait => f.1
          | .bad => f.1
          | .none_ => ((f.1.toUnexpected i h).setMsn k (r.msn + 1)).release ep source context n
          | .chip p => (((f.1.unpost ep f.2).pair i h p.recv).setMsn k (r.msn + 1)).release ep source context n
          | .beyond p => (((f.1.unpost ep f.2).pair i h p.recv).setMsn k (r.msn + 1)).release ep source context n
        | _ => s

/-- Releases that a wait for an overflow record or an order record left undone. -/
def State.releaseAll (s : State) : State :=
  s.mch.hdrs.foldl (fun t e =>
    if e.2.st = .reorder ∨ e.2.st = .skipped then t.release e.2.ep e.2.source e.2.context (t.mch.hdrs.length + 1) else t) s

/-- Op_fields of EAGER, RTS and SKIP (R335). -/
def Mf.context (t : Nat) : Nat := Th.at_ t 19 0 16
def Mf.msn (t : Nat) : Nat := Th.at_ t 21 0 24
def Mf.tag (t : Nat) : Nat := Th.at_ t 24 0 64

/-- A new header entry for an arrived message. -/
def Arr.newHdr (a : Arr) (rndv : Bool) : MHdr :=
  { ep := Th.dstEp a.th, st := .reorder, source := a.source, context := Mf.context a.th, msn := Mf.msn a.th, tag := Mf.tag a.th,
    len := Th.opLen a.th, rndv := rndv, base := a.base, count := 0, landing := none, pieces := [], pend := [], dataSeen := false,
    rvId := bits a.payload.val 0 32, recv := none, placed := 0, fault := none, ctx := a.ctx, seq := 0 }

/-- Payload of a message packet as placed: an RTS carries no message bytes. -/
def Arr.msgBytes (a : Arr) (rndv : Bool) : Data := if rndv then Data.empty else a.payload

/-- R348, refuse_keep: the entry stays REFUSED. -/
def State.refuseKeep (s : State) (a : Arr) (i : Nat) (h : MHdr) : State := (s.setHdr i { h with st := .refused }).mchRefuse a

/-- R348: a first-arriving packet ahead of the expected MSN. -/
def State.arriveAhead (s : State) (a : Arr) (i : Nat) (h : MHdr) : State :=
  let go (t : State) (l : Option (Nat × Nat × Nat)) : State :=
    ((t.takeArr a).bump Ctr.MCH_REORDER_COUNT).placeMsg i { h with landing := l } (4096 * Th.index a.th) (a.msgBytes h.rndv)
  if h.rndv then go s none
  else
    match s.landReserve h.ep h.len with
    | some (t, l) => go t l
    | none => s.refuseKeep a i h

/-- R348: a first-arriving packet with the expected MSN: matched, or unexpected. -/
def State.arriveNow (s : State) (a : Arr) (i : Nat) (h : MHdr) (k : Nat) (r : OrderRec) : State :=
  let off := 4096 * Th.index a.th
  let done (t : State) : State :=
    let t1 := (t.takeArr a).setMsn k (r.msn + 1)
    let t2 := match t1.hdr? i with
      | some g => t1.placeMsg i g off (a.msgBytes h.rndv)
      | none => t1
    t2.release h.ep h.source h.context (t2.mch.hdrs.length + 1)
  let f := s.search h.ep 1 (fun p => p.satisfied h.source h.context h.tag)
  match f.2 with
  | .wait => f.1
  | .bad => f.1.mchRefuse a
  | .chip p => done ((f.1.unpost h.ep f.2).pair i h p.recv)
  | .beyond p => done ((f.1.unpost h.ep f.2).pair i h p.recv)
  | .none_ =>
    if h.rndv then done (f.1.toUnexpected i h)
    else
      match f.1.landReserve h.ep h.len with
      | some (t, l) => done (t.toUnexpected i { h with landing := l })
      | none => f.1.refuseKeep a i h

/-- R348: a message no entry is known for. -/
def State.arriveNew (s : State) (a : Arr) (rndv : Bool) (k : Nat) (r : OrderRec) : State :=
  let msn := Mf.msn a.th
  if serialCmp msn r.msn.toNat 24 = .before then s.stray a
  else
    let d := serialDist r.msn.toNat msn 24
    if d ≥ 8192 then s.mchRefuse a
    else
      let n := s.hdrAlloc (s.epOwner (Th.dstEp a.th))
      match n.1 with
      | none => n.2.mchRefuse a
      | some i => if d > 0 then n.2.arriveAhead a i (a.newHdr rndv) else n.2.arriveNow a i (a.newHdr rndv) k r

/-- R348: on_msg. -/
def State.onMsg (s : State) (a : Arr) (rndv : Bool) : State :=
  let ep := Th.dstEp a.th
  if s.wasRefused a then s.takeArr a
  else
    let o := s.needOrder ep 0 a.source (Mf.context a.th)
    match o.2 with
    | .wait => o.1
    | .bad _ => o.1.mchRefuse a
    | .have_ r =>
      let k := orderKey ep 0 a.source (Mf.context a.th)
      match o.1.hdrFind ep a.source (Mf.context a.th) (Mf.msn a.th) with
      | some (i, h) =>
        if h.base = a.base then (o.1.takeArr a).placeMsg i h (4096 * Th.index a.th) (a.msgBytes rndv)
        else if h.st ≠ .refused then o.1.stray a
        else (o.1.freeHdr i).arriveNew a rndv k r
      | none => o.1.arriveNew a rndv k r

/-! ### SKIP (R355) -/

/-- A message has all its bytes (R350); a rendezvous message has them once it is pulled. -/
def MHdr.whole (h : MHdr) : Bool :=
  if h.rndv then h.dataSeen && h.recv.any (fun r => decide (h.count ≥ min h.len r.len)) else h.count == h.len

/-- R355: what a SKIP does at the receiver. -/
def State.onSkip (s : State) (a : Arr) : State :=
  let ep := Th.dstEp a.th
  let c := Mf.context a.th
  let msn := Mf.msn a.th
  if s.wasRefused a then s.takeArr a
  else
    let o := s.needOrder ep 0 a.source c
    match o.2 with
    | .wait => o.1
    | .bad _ => o.1.mchRefuse a
    | .have_ r =>
      let k := orderKey ep 0 a.source c
      let t := o.1
      let acted := (t.takeArr a).bump Ctr.MCH_SKIP_COUNT
      let fuel := t.mch.hdrs.length + 2
      match t.hdrFind ep a.source c msn with
      | none =>
        let d := serialDist r.msn.toNat msn 24
        if d = 0 then (acted.setMsn k (r.msn + 1)).release ep a.source c fuel
        else if d < 8192 then
          let n := t.hdrAlloc (s.epOwner ep)
          match n.1 with
          | none => n.2.mchRefuse a
          | some i => ((n.2.takeArr a).bump Ctr.MCH_SKIP_COUNT).setHdr i { a.newHdr false with st := .skipped }
        else t.takeArr a
      | some (i, h) =>
        match h.st with
        | .reorder => ((acted.unland h).setHdr i { h with st := .skipped, landing := none, pend := [], pieces := [] }).release ep a.source c fuel
        | .refused => ((acted.unland h).setHdr i { h with st := .skipped, landing := none, pend := [], pieces := [] }).release ep a.source c fuel
        | .unexpected => if h.whole then t.takeArr a else (acted.unland h).freeHdr i
        | .claimed => if h.whole then t.takeArr a else (acted.unland h).freeHdr i
        | .assembling =>
          if h.whole ∨ h.recv.isNone then t.takeArr a else acted.completeRecv i h stTRANSPORT 6
        | .skipped => t.takeArr a

/-! ### What is done as soon as it can be: writes that waited for a translation, completions -/

/-- The overrides of a message's landing buffer and of its receive (R266). -/
def State.landOvr (s : State) (h : MHdr) : Bool :=
  match h.landing with
  | some (b, _, _) => (Tbl.find? s.mch.landings b).any (fun l => l.ovr)
  | none => false
def MHdr.recvOvr (h : MHdr) : Bool := h.recv.any (fun r => r.ovr)

/-- Write the bytes of a message that wait, as far as translations are at hand (R340, R350, R356). A copy out of landing is a
read there, then a write; the bytes it reads are those that were landed. -/
def State.flushPend (s : State) (i : Nat) : Nat → State
  | 0 => s
  | n + 1 =>
    match s.hdr? i with
    | none => s
    | some h =>
      match h.pend, s.ep? h.ep with
      | p :: t, some e =>
        let hp := hpOf e.owner
        let req (va acc : Nat) (ovr : Bool) : XReq := ⟨e.as_, va, acc, e.owner, false, ovr, .access, .msg i (s.hdrGen i)⟩
        let failed (u : State) (f : XFault) (acc : Nat) : State :=
          u.setHdr i { h with pend := [], pieces := [], fault := some (stLOCAL, f.detail acc) }
        match p with
        | .land va d =>
          let x := s.xlateRun hp (req va 1 (s.landOvr h)) d.len
          match x.2 with
          | .wait => x.1
          | .fault f _ => failed x.1 f 1
          | .run l =>
            (((x.1.writePieces hp e.owner l d).bumpBy Ctr.MCH_LAND_BYTES d.len).setHdr i { h with pend := t }).flushPend i n
        | .copy src va d =>
          let x := s.xlateRun hp (req src 0 (s.landOvr h)) d.len
          match x.2 with
          | .wait => x.1
          | .fault f _ => failed x.1 f 0
          | .run l =>
            ((x.1.readRun hp e.owner l).setHdr i { h with pend := .put true va d :: t }).flushPend i n
        | .put copied va d =>
          let x := s.xlateRun hp (req va 1 h.recvOvr) d.len
          match x.2 with
          | .wait => x.1
          | .fault f _ => failed x.1 f 1
          | .run l =>
            (((x.1.writePieces hp e.owner l d).bumpBy Ctr.MCH_COPY_BYTES (if copied then d.len else 0)).setHdr i
              { h with pend := t, placed := h.placed + d.len }).flushPend i n
      | _, _ => s

/-- R350: the message is complete and everything for it has been issued: its receive completion. -/
def State.closeMsg (s : State) (i : Nat) : State :=
  match s.hdr? i with
  | none => s
  | some h =>
    match h.recv with
    | none => s
    | some r =>
      if h.st ≠ .assembling ∨ ¬ h.pend.isEmpty then s
      else
        let h1 := { h with landing := none }
        let s1 := if h.landing.isSome then (s.unland h).setHdr i h1 else s
        let total := if h.rndv then min h.len r.len else h.len
        if h.count ≥ total ∧ (¬ h.rndv ∨ h.dataSeen) then
          match h.fault with
          | some (st, dt) => s1.completeRecv i h1 st dt
          | none => if h.len > r.len then s1.completeRecv i h1 stTRUNCATED 0 else s1.completeRecv i h1 stOK 0
        else s1

/-- R345: a CQ has written what it held and owed. -/
def State.cqClear (s : State) (c : Nat) : Bool :=
  match s.cq? c with
  | some v => v.held.isEmpty && v.owed.isEmpty
  | none => true
/-- R345: a cancel is done once the receive completion it caused has been written. -/
def State.settleCancels (s : State) : State :=
  let ready := s.mch.cancels.filter (fun c => s.cqClear c.2.2)
  (ready.foldl (fun t c => t.finishEntry c.1 c.2.1 (Res.ok 1)) s).onMch (fun m => { m with cancels := m.cancels.filter (fun c => !ready.contains c) })

/-- All of it for every entry. -/
def State.settleMch (s : State) : State :=
  ((Tbl.keys s.mch.hdrs).foldl (fun t i => (t.flushPend i 128).closeMsg i) s).releaseAll.settleCancels

end Sys2Proof.Machine
end

