-- ==== Sys2Proof/Machine/Rma.lean ====
section
/-! DEFINITION. Remote memory access (spec/11): descriptors and their cache, the target's checks, the memory-side atomic
unit, revocation, as operations of the machine; the meanings of its commands are in Machine/RmaCmd.lean. -/
namespace Sys2Proof.Machine

def State.onRma (s : State) (f : Rma → Rma) : State := { s with rma := f s.rma }

/-! ### Keys and descriptors (R360-R363, R382) -/

/-- Index, tag, host port and table entry of a key. -/
def keyIndex (k : Nat) : Nat := bits k 0 24
def keyTag (k : Nat) : Nat := bits k 24 8
def keyHp (i : Nat) : Nat := bits i 22 2
def keyEntry (i : Nat) : Nat := bits i 0 22

/-- R361: the key table of a host port. -/
def State.keyTabOn (s : State) (hp : Nat) : Bool := s.g (Reg.RMA_KEYTAB.enable hp) == 1
def State.keyTabSize (s : State) (hp : Nat) : Nat := 2 ^ min 22 (s.g (Reg.RMA_KEYTAB.k hp))
def State.keyTabBase (s : State) (hp : Nat) : Nat := (s.g (Reg.RMA_KEYTAB.base_lo hp) + s.g (Reg.RMA_KEYTAB.base_hi hp) * 2 ^ 20) * 4096
/-- The table is enabled and holds the entry. -/
def State.keyInTable (s : State) (i : Nat) : Bool := s.keyTabOn (keyHp i) && decide (keyEntry i < s.keyTabSize (keyHp i))
/-- Host address of a descriptor. -/
def State.descAddr (s : State) (i : Nat) : Nat := s.keyTabBase (keyHp i) + 32 * keyEntry i

/-- Descriptor fields (R362). -/
def Ds.va (r : Nat) : Nat := bits r 0 64
def Ds.length (r : Nat) : Nat := bits r 64 48
def Ds.ep (r : Nat) : Nat := bits r 112 16
def Ds.tag (r : Nat) : Nat := bits r 128 8
def Ds.state (r : Nat) : Nat := bits r 136 2
/-- Right: bit 2 read, 3 write, 4 atomic of byte 17. -/
def Ds.right (r k : Nat) : Bool := bit r (136 + k)
def Ds.sideEffect (r : Nat) : Bool := bit r 144
def Ds.hostAtomic (r : Nat) : Bool := bit r 145
def Ds.lockable (r : Nat) : Bool := bit r 146
def Ds.override (r : Nat) : Bool := bit r 147
def Ds.peerValid (r : Nat) : Bool := bit r 148
def Ds.peer (r : Nat) : Nat := bits r 160 38
def Ds.revoked (r : Nat) : Nat := bits r 208 48
def Ds.setState (r v : Nat) : Nat := setBits r 136 2 v
/-- R7: the descriptor as the device writes it, reserved fields zero. -/
def Ds.clean (r : Nat) : Nat := setBits (setBits (setBits r 141 3 0) 149 11 0) 198 10 0

/-- R361: the table entries a function owns. -/
def State.ownsEntry (s : State) (f e : Nat) : Bool :=
  let b := s.g (Reg.RMA_FN_KEYS.base f) * 64
  decide (b ≤ e ∧ e < b + s.g (Reg.RMA_FN_KEYS.count f) * 64)
/-- R361: a function may act on an index: its own, and a PF also those of its VFs. -/
def State.mayKey (s : State) (f i : Nat) : Bool :=
  keyHp i == hpOf f && (s.ownsEntry f (keyEntry i) ||
    (isPf f && (List.range 256).any (fun v => s.ownsEntry (f + v) (keyEntry i))))

/-- References held on copies of a key's descriptor (R378). -/
def State.keyRefs (s : State) (i : Nat) : Nat := s.rma.refs.foldl (fun a e => if e.1 % 2 ^ 24 = i then a + e.2 else a) 0
def State.addRef (s : State) (uid : Nat) : State :=
  s.onRma (fun r => { r with refs := Tbl.put (fun _ => 0) r.refs uid (Tbl.get (fun _ => 0) r.refs uid + 1) })
/-- References held on one copy. -/
def State.copyRefs (s : State) (uid : Nat) : Nat := Tbl.get (fun _ => 0) s.rma.refs uid
/-- R378, R386: a reference goes; a copy with an uncorrectable error is discarded with the last one, and read again when it is needed. -/
def State.dropRef (s : State) (uid : Nat) : State :=
  s.onRma (fun r =>
    let n := Tbl.get (fun _ => 0) r.refs uid - 1
    { r with refs := Tbl.put (fun _ => 0) r.refs uid n,
             descs := Tbl.keep (fun _ d => !(n == 0 && d.bad && d.uid == uid)) r.descs })
def State.keySt (s : State) (i : Nat) : Option KeySt := Tbl.find? s.rma.keys i
def State.setKey (s : State) (i : Nat) (k : Option KeySt) : State := s.onRma (fun r => { r with keys := Tbl.upd r.keys i k })

/-- R382: the copy is pinned. -/
def State.descPinned (s : State) (d : Desc) : Bool := s.copyRefs d.uid != 0 || Ds.state d.raw == 2
/-- R382: cache a descriptor as a new copy; a key that is being revoked is REVOKING in every copy, and so pinned. -/
def State.cacheDesc (s : State) (i raw : Nat) : State :=
  let raw1 := match s.keySt i with
    | some k => if k.state = 2 then Ds.setState raw 2 else raw
    | none => raw
  (s.fillBank 9 i).onRma (fun r => { r with descs := Tbl.ins r.descs i ⟨raw1, r.nextUid * 2 ^ 24 + i, false⟩, nextUid := r.nextUid + 1 })
/-- The copy of a descriptor that may be used: one with an uncorrectable error only while references pin it (R386). -/
def State.goodCopy (s : State) (i : Nat) : Option Desc :=
  (Tbl.find? s.rma.descs i).filter (fun d => !d.bad || s.copyRefs d.uid != 0)
/-- Change the raw bytes of a cached copy. -/
def State.setRaw (s : State) (i raw : Nat) : State :=
  match Tbl.find? s.rma.descs i with
  | some d => s.onRma (fun r => { r with descs := Tbl.ins r.descs i { d with raw := raw } })
  | none => s.cacheDesc i raw

/-- What asking for a descriptor answers. -/
inductive DescRes where
  | have_ (d : Desc) | wait | bus (cause : Nat) | full
deriving DecidableEq, Repr

/-- R370, R382: ask for a descriptor that lies in its table. -/
def State.needDesc (s : State) (i : Nat) : State × DescRes :=
  match s.goodCopy i with
  | some d => (s, .have_ d)
  | none =>
    match Tbl.find? s.rma.bad i with
    | some c => (s.onRma (fun r => { r with bad := Tbl.del r.bad i }), .bus c)
    | none =>
      if s.rma.reads.contains i then (s, .wait)
      else
        let loose := s.rma.descs.filter (fun e => !s.descPinned e.2)
        let ask (t : State) : State × DescRes :=
          (((t.onRma (fun r => { r with reads := r.reads ++ [i] })).hostRead (keyHp i) (keyHp i * 256) (t.descAddr i) 32).bump Ctr.RMA_DESC_READ_COUNT, .wait)
        if s.rma.descs.length + s.rma.reads.length < s.cacheCap 9 32768 then ask s
        else
          let d := s.draw
          match loose[d.1 % loose.length]? with
          | some (v, _) => ask (d.2.onRma (fun r => { r with descs := Tbl.del r.descs v }))
          | none => (s, .full)

/-- A descriptor read whose result a KEY_INV has made useless (R383). -/
def staleRead (i : Nat) : Nat := 2 ^ 24 + i

/-- R370, R383, R386: a descriptor read has returned; an error is raised whatever becomes of the result. -/
def State.descReturn (s : State) (n : Nat) (r : ReadResult) : State :=
  match s.rma.reads[n]? with
  | none => s
  | some i =>
    let t := s.onRma (fun x => { x with reads := x.reads.eraseIdx n })
    match r with
    | .data d => if i ≥ 2 ^ 24 then t else t.cacheDesc i (d.val % 2 ^ 256)
    | .error c => (if i ≥ 2 ^ 24 then t else t.onRma (fun x => { x with bad := Tbl.ins x.bad i c })).raise (srcRma 1) 0 (i % 2 ^ 24)

/-! ### The target's checks (R370, R398) -/

/-- Op_fields of RMA and fabric-lock requests (R368, R397). -/
def Rf.key (t : Nat) : Nat := Th.at_ t 19 0 32
def Rf.offset (t : Nat) : Nat := Th.at_ t 23 0 48
def Rf.spec (t : Nat) : Bool := Th.at_ t 29 0 1 == 1
def Rf.fetch (t : Nat) : Bool := Th.at_ t 29 2 1 == 1
def Rf.aop (t : Nat) : Nat := Th.at_ t 30 0 4
def Rf.identity (t : Nat) : Nat := Th.at_ t 30 0 12

/-- What the checks answer. -/
inductive Chk where
  | ok (d : Desc) | refuse (detail : Nat) | wait | full
deriving DecidableEq, Repr

/-- R370 checks 2 to 11 on a descriptor: the detail of the first that fails. `len` is what check 10 adds to the offset,
`align` what check 11 divides by (1: none). -/
def State.descCheck (s : State) (a : Arr) (d : Desc) (right len align : Nat) (spec : Bool) : Option Nat :=
  let r := d.raw
  let key := Rf.key a.th
  let st := match s.keySt (keyIndex key) with
    | some k => if k.state = 2 then 2 else Ds.state r
    | none => Ds.state r
  if d.bad then some 0x040E
  else if keyTag key ≠ Ds.tag r then some 0x0402
  else if st = 0 ∨ st = 3 then some 0x0403
  else if st = 2 then some 0x0404
  else if Ds.ep r ≠ Th.dstEp a.th then some 0x0408
  else if Ds.peerValid r ∧ a.source ≠ Ds.peer r then some 0x0407
  else if ¬ Ds.right r right then some 0x0405
  else if spec ∧ Ds.sideEffect r then some 0x040A
  else if Rf.offset a.th + len > Ds.length r then some 0x0406
  else if (Ds.va r + Rf.offset a.th) % align ≠ 0 then some 0x0409
  else none

/-- R370: the checks of a request packet, in order. -/
def State.rmaCheck (s : State) (a : Arr) (right len align : Nat) (spec : Bool) : State × Chk :=
  let i := keyIndex (Rf.key a.th)
  if keyHp i ≠ Hdr.dstHp a.hdr ∨ ¬ s.keyInTable i then (s, .refuse 0x0401)
  else
    let n := s.needDesc i
    match n.2 with
    | .wait => (n.1, .wait)
    | .full => (n.1, .full)
    | .bus _ => (n.1, .refuse 0x040E)
    | .have_ d =>
      match n.1.descCheck a d right len align spec with
      | some e => (n.1, .refuse e)
      | none => (n.1, .ok d)

/-- R370, R369: refuse a packet with its own RESULT. -/
def State.rmaRefuse (s : State) (a : Arr) (detail : Nat) : State :=
  let s1 := ((s.takeArr a).bump Ctr.RMA_REFUSE_COUNT).bumpIf (detail = 0x040A) Ctr.RMA_SPEC_REFUSE_COUNT
  (s1.raise (srcRma 0) 0 (keyIndex (Rf.key a.th))).result a .reply stREMOTE detail 0
/-- R369, R382: no descriptor can be cached: every packet so refused has a RESULT of its own. -/
def State.rmaFull (s : State) (a : Arr) : State :=
  (((s.takeArr a).bump Ctr.RMA_REFUSE_COUNT).bump Ctr.TRN_REFUSE_COUNT).result a .reply stEP_UNAVAILABLE 6 0
/-- A failure after admission (R370): a RESULT that belongs to `origin`. -/
def State.rmaFail (s : State) (a : Arr) (origin : OpOrigin) (detail : Nat) : State := s.result a origin stREMOTE detail 0

/-- The translation request of an access to a region (R371). -/
def State.regionReq (s : State) (d : Desc) (va acc : Nat) (who : Who) : XReq :=
  match s.ep? (Ds.ep d.raw) with
  | some e => ⟨e.as_, va, acc, e.owner, false, Ds.override d.raw, .access, who⟩
  | none => ⟨0, va, acc, 0xFFF, false, false, .access, who⟩
/-- An arriving packet as the one that waits for a translation. -/
def Arr.who (a : Arr) : Who := .arr a.ctx a.stream a.psn a.gen

/-- R374: the atomic unit holds a 64-byte line of host port `hp`. -/
def State.lineHeld (s : State) (hp addr len : Nat) : Bool :=
  s.rma.atomics.any (fun x => x.st != .queued && x.acc.hp == hp && decide (addr / 64 ≤ x.pa / 64 ∧ x.pa / 64 ≤ (addr + len - 1) / 64))
/-- Any of several pieces lies on a held line. -/
def State.piecesHeld (s : State) (hp : Nat) (l : List (Nat × Nat)) : Bool := l.any (fun p => s.lineHeld hp p.1 p.2)

/-- Opcodes of RMA's requests and of fabric-lock requests: those of a host port are handled in arrival order (R372). -/
def rmaOps : List Nat := [0x40, 0x41, 0x43, 0x80, 0x81, 0x82, 0x83, 0x84, 0x85]

/-- R376: the atomic is one AtomicOp, with no read before it. -/
def Atomic.direct (x : Atomic) : Bool := Rf.aop x.acc.th == 0 || Rf.aop x.acc.th == 4 || Rf.aop x.acc.th == 5
/-- R372: an atomic may still issue a write or an AtomicOp; one that runs as a loop of CAS requests may until it has finished (R376). -/
def Atomic.ahead (x : Atomic) : Bool :=
  match x.st with
  | .host _ _ => !x.direct
  | _ => true
/-- R372: an atomic of host port `hp` that was admitted, before number `id`, may still have a write or AtomicOp to issue. -/
def State.atomicsAhead (s : State) (hp id : Nat) : Bool := s.rma.atomics.any (fun x => x.acc.hp == hp && x.ahead && decide (x.id < id))

/-- R371, R372: a PUT packet. -/
def State.onPut (s : State) (a : Arr) : State :=
  let c := s.rmaCheck a 3 (Th.opLen a.th) 1 false
  match c.2 with
  | .wait => c.1
  | .full => c.1.rmaFull a
  | .refuse e => c.1.rmaRefuse a e
  | .ok d =>
    let q := c.1.regionReq d (Ds.va d.raw + Rf.offset a.th + 4096 * Th.index a.th) 3 a.who
    let x := c.1.xlateRun a.hp q a.payload.len
    match x.2 with
    | .wait => x.1
    | .fault f _ => ((x.1.takeArr a).bump Ctr.RMA_PUT_PKT_COUNT).rmaFail a .reply (0x0480 + f.kind)
    | .run l =>
      if x.1.piecesHeld a.hp l ∨ x.1.atomicsAhead a.hp x.1.rma.nextId then c.1
      else
        (((x.1.takeArr a).bump Ctr.RMA_PUT_PKT_COUNT).writePieces a.hp q.identity l a.payload).result a .reply stOK 0 0

/-- The request a response answers, as PSN and generation, kept with the responses. -/
def Arr.reqMark (a : Arr) : PaySrc := .bytes ⟨4, a.psn + a.gen * 2 ^ 24⟩

/-- R371, R378: a GET packet: admitted, it holds a reference until its responses are acknowledged. -/
def State.onGet (s : State) (a : Arr) : State :=
  let len := Th.opLen a.th
  let c := s.rmaCheck a 2 len 1 (Rf.spec a.th)
  match c.2 with
  | .wait => c.1
  | .full => c.1.rmaFull a
  | .refuse e => c.1.rmaRefuse a e
  | .ok d =>
    let q := c.1.regionReq d (Ds.va d.raw + Rf.offset a.th) 2 a.who
    let s1 := ((c.1.takeArr a).bump Ctr.RMA_GET_COUNT).addRef d.uid
    s1.newOp { Op.base a.ctx 1 (.getData d.uid a.hp q.as_ q.va q.identity q.ovr) (Th.dstEp a.th) (Th.srcEp a.th) 0x42 len
                 (packB [(0, 24, a.psn), (3, 8, a.gen)]) with
               total := max 1 (ceilDiv len 4096), pay := if len = 0 then .bytes Data.empty else .chunks [], dest := a.reqMark }

/-- R371: issue the read of the next GET_DATA packet of an operation, page by page. -/
def State.readGet (s : State) (i : Nat) (o : Op) : State :=
  match o.origin, o.pay with
  | .getData _ hp as_ va identity ovr, .chunks l =>
    if ¬ s.serving ∨ l.any (fun e => e.1 == o.next) ∨ s.rma.dataReads.any (fun e => e.1 == false && e.2.1 == i && e.2.2.1 == o.next) ∨ o.next ≥ o.total then s
    else
      let n := min 4096 (o.opLen - 4096 * o.next)
      let x := s.xlateRun hp ⟨as_, va + 4096 * o.next, 2, identity, false, ovr, .access, .op i⟩ n
      match x.2 with
      | .wait => x.1
      | .fault f _ => x.1.finishOp i (Res.of stREMOTE (0x0480 + f.kind))
      | .run p =>
        if x.1.piecesHeld hp p then s
        else (x.1.onRma (fun r => { r with dataReads := r.dataReads ++ [(false, i, o.next, hp)] })).readRun hp identity p
  | _, _ => s

/-! ### The memory-side atomic unit (R374-R377) -/

/-- The size of an atomic in bytes. -/
def Arr.size (a : Arr) : Nat := Th.opLen a.th
def Arr.operand (a : Arr) : Nat := a.payload.field 0 0 (8 * a.size)
def Arr.compare (a : Arr) : Nat := if a.size = 16 then a.payload.field 16 0 128 else a.payload.field 8 0 (8 * a.size)

/-- R375: the new value. -/
def atomicNew (aop w old op cmp : Nat) : Nat :=
  if aop = 0 then (old + op) % 2 ^ w
  else if aop = 1 then old &&& op
  else if aop = 2 then old ||| op
  else if aop = 3 then old ^^^ op
  else if aop = 4 then op
  else if aop = 5 then (if old = cmp then op else old)
  else if aop = 6 then (if signed op w < signed old w then op else old)
  else if aop = 7 then (if signed old w < signed op w then op else old)
  else if aop = 8 then min old op
  else max old op

/-- R374: an ATOMIC packet is checked and queued. -/
def State.onAtomic (s : State) (a : Arr) : State :=
  let c := s.rmaCheck a 4 a.size (max 1 a.size) false
  match c.2 with
  | .wait => c.1
  | .full => c.1.rmaFull a
  | .refuse e => c.1.rmaRefuse a e
  | .ok d =>
    let s1 := (c.1.takeArr a).addRef d.uid
    let va := Ds.va d.raw + Rf.offset a.th
    let req := c.1.regionReq d va 4 (.atomic s1.rma.nextId)
    s1.onRma (fun r => { r with atomics := r.atomics ++ [⟨r.nextId, a, d.uid, Ds.hostAtomic d.raw, va, req, 0, .queued⟩], nextId := r.nextId + 1 })

def State.setAtomic (s : State) (x : Atomic) : State :=
  s.onRma (fun r => { r with atomics := r.atomics.map (fun y => if y.id = x.id then x else y) })
def State.endAtomic (s : State) (x : Atomic) : State :=
  (s.onRma (fun r => { r with atomics := r.atomics.filter (fun y => y.id != x.id) })).dropRef x.uid

/-- R377: the answer of a finished atomic, with its old value kept until it is acknowledged. -/
def State.answerAtomic (s : State) (x : Atomic) (old : Nat) : State :=
  let a := x.acc
  let s1 := ((s.endAtomic x).bump Ctr.RMA_ATOMIC_COUNT).onRma (fun r => { r with results := Tbl.ins r.results x.id old })
  if Rf.fetch a.th then
    s1.answer a (.atomic x.id) 0x44 a.size (packB [(0, 24, a.psn), (3, 8, a.gen)]) (.bytes (Data.ofNat a.size old))
  else s1.result a (.atomic x.id) stOK 0 0
/-- A failed atomic. -/
def State.failAtomic (s : State) (x : Atomic) (detail : Nat) : State :=
  let s1 := (s.endAtomic x).rmaFail x.acc .reply detail
  if detail = 0x040D then s1.raise (srcRma 2) 0 (keyIndex (Rf.key x.acc.th)) else s1

/-- R376: issue an AtomicOp. -/
def State.issueAtomicOp (s : State) (x : Atomic) (identity op : Nat) (d : Data) : State :=
  (s.emit (.atomicOp x.acc.hp identity x.pa op x.acc.size d)).bump Ctr.RMA_HOSTATOMIC_COUNT

/-- R376: the first request of an atomic in a host-atomic region. -/
def State.startHost (s : State) (x : Atomic) (identity : Nat) : State :=
  let a := x.acc
  let w := a.size
  let op (k : Nat) : State := (s.setAtomic { x with st := .host 0 0 }).issueAtomicOp x identity k
    (if k = 2 then (Data.ofNat w a.compare).append (Data.ofNat w a.operand) else Data.ofNat w a.operand)
  match Rf.aop a.th with
  | 0 => op 0
  | 4 => op 1
  | 5 => op 2
  | _ => ((s.setAtomic { x with st := .reading }).onRma (fun r => { r with dataReads := r.dataReads ++ [(true, x.id, 0, a.hp)] })).hostRead a.hp identity x.pa w

/-- R376: a CAS of the loop, from the value last seen. -/
def State.casHost (s : State) (x : Atomic) (identity seen tries : Nat) : State :=
  let a := x.acc
  let w := a.size
  (s.setAtomic { x with st := .host seen tries }).issueAtomicOp x identity 2
    ((Data.ofNat w seen).append (Data.ofNat w (atomicNew (Rf.aop a.th) (8 * w) seen a.operand a.compare)))

/-- R374, R375: execute step of an atomic: a queued one starts in arrival order when its line is free; one whose word has been read
is written and answered. Writes and AtomicOps of a host port go in the order of admission (R372). None moves while the device
does not serve (R35, R37). -/
def State.atomicExecute (s : State) (id : Nat) : State :=
  match s.rma.atomics.find? (fun x => x.id == id) with
  | none => s
  | some x =>
    let a := x.acc
    let q := x.req
    match x.st with
    | .queued =>
      if ¬ s.serving ∨ (s.rma.atomics.filter (fun y => y.st != .queued)).length ≥ 256 then s
      else if s.rma.atomics.any (fun y => y.st == .queued && y.id < x.id) then s
      else
        let t := s.xlate a.hp q
        match t.2 with
        | .wait => t.1
        | .fault f => (t.1.endAtomic x).rmaFail a .reply (0x0480 + f.kind)
        | .pa p _ =>
          if t.1.lineHeld a.hp p a.size then s
          else if x.hostAtomic then
            if x.direct ∧ s.atomicsAhead a.hp x.id then s else t.1.startHost { x with pa := p } q.identity
          else
            ((t.1.setAtomic { x with pa := p, st := .reading }).onRma (fun r => { r with dataReads := r.dataReads ++ [(true, x.id, 0, a.hp)] })).hostRead a.hp q.identity p a.size
    | .ready old tries =>
      if ¬ s.serving ∨ s.atomicsAhead a.hp x.id then s
      else if x.hostAtomic then s.casHost x q.identity old tries
      else
        let new := atomicNew (Rf.aop a.th) (8 * a.size) old a.operand a.compare
        (s.hostWrite a.hp q.identity x.pa (Data.ofNat a.size new)).answerAtomic x old
    | _ => s

/-- R376: an AtomicOp completion. -/
def State.atomicCompletion (s : State) (id : Nat) (r : ReadResult) : State :=
  match s.rma.atomics.find? (fun x => x.id == id) with
  | none => s
  | some x =>
    match x.st with
    | .host seen tries =>
      match r with
      | .error _ => s.failAtomic x 0x040D
      | .data v =>
        let old := v.val % 2 ^ (8 * x.acc.size)
        let aop := Rf.aop x.acc.th
        if aop = 0 ∨ aop = 4 ∨ aop = 5 ∨ old = seen then s.answerAtomic x old
        else if tries ≥ s.g Reg.RMA_CFG.cas_retries then s.failAtomic x 0x040C
        else
          let t := s.bump Ctr.RMA_CAS_RETRY_COUNT
          if s.serving then t.casHost x x.req.identity old (tries + 1) else t.setAtomic { x with st := .ready old (tries + 1) }
    | _ => s

/-- A target data read has returned (R370, R371, R375). -/
def State.dataReturn (s : State) (n : Nat) (r : ReadResult) : State :=
  match s.rma.dataReads[n]? with
  | none => s
  | some (isAtomic, i, k, _) =>
    let t := s.onRma (fun x => { x with dataReads := x.dataReads.eraseIdx n })
    if isAtomic then
      match t.rma.atomics.find? (fun x => x.id == i) with
      | some x =>
        match r with
        | .data d => t.setAtomic { x with st := .ready (d.val % 2 ^ (8 * x.acc.size)) 0 }
        | .error _ => t.failAtomic x 0x040D
      | none => t
    else
      match t.op? i with
      | some o =>
        match r, o.pay with
        | .data d, .chunks l => t.setOp i { o with pay := .chunks (l ++ [(k, Data.ofNat (min 4096 (o.opLen - 4096 * k)) d.val)]) }
        | .error _, _ => (t.finishOp i (Res.of stREMOTE 0x040D)).raise (srcRma 2) 0 o.srcEp
        | _, _ => t
      | none => t

/-! ### Initiator: data responses (R384) -/

/-- The request operation that a response with this PSN and generation answers. -/
def State.requestOf (s : State) (a : Arr) (psn gen : Nat) : Option (Nat × Op) :=
  s.trn.ops.find? (fun e => e.2.ctx == a.ctx && e.2.stream == 0 && e.2.sent.contains (psn, gen))

/-- R453: the GET_DATA of a read-ahead arrive: its entry is valid from this cycle, or goes if it has been invalidated. -/
def State.prefetched (s : State) (o : Op) (d : Data) : State :=
  match o.origin with
  | .brgPrefetch id =>
    match Tbl.find? s.brg.pf id with
    | some e => { s with brg := { s.brg with pf := if e.dead then Tbl.del s.brg.pf id else Tbl.ins s.brg.pf id { e with data := some (d, s.cycles) } } }
    | none => s
  | _ => s

/-- R384: a GET_DATA packet. -/
def State.onGetData (s : State) (a : Arr) : State :=
  match s.requestOf a (Th.at_ a.th 19 0 24) (Th.at_ a.th 22 0 8) with
  | none => s.takeArr a
  | some (i, o) =>
    if o.done.isSome then s.takeArr a
    else
      match o.dest with
      | .host as_ va _ identity ovr =>
        let x := s.xlateRun a.hp ⟨as_, va + 4096 * Th.index a.th, 1, identity, false, ovr, .access, a.who⟩ a.payload.len
        match x.2 with
        | .wait => x.1
        | .fault f v => (x.1.takeArr a).finishOp i { Res.of stLOCAL (f.detail 1) with aux := v }
        | .run l => ((x.1.takeArr a).writePieces a.hp identity l a.payload).setOp i { o with got := o.got + 1 }
      | .chunks l => ((s.takeArr a).setOp i { o with got := o.got + 1, dest := .chunks (l ++ [(Th.index a.th, a.payload)]) }).prefetched o a.payload
      | _ => (s.takeArr a).setOp i { o with got := o.got + 1 }

/-- R384: an ATOMIC_DATA packet. -/
def State.onAtomicData (s : State) (a : Arr) : State :=
  match s.requestOf a (Th.at_ a.th 19 0 24) (Th.at_ a.th 22 0 8) with
  | none => s.takeArr a
  | some (i, o) =>
    if o.done.isSome then s.takeArr a
    else
      let keep (t : State) : State := (t.takeArr a).setOp i { o with got := o.got + 1, pay := .bytes a.payload }
      match o.dest with
      | .host as_ va _ identity ovr =>
        let x := s.xlateRun a.hp ⟨as_, va, 1, identity, false, ovr, .access, a.who⟩ a.payload.len
        match x.2 with
        | .wait => x.1
        | .fault f v => (x.1.takeArr a).finishOp i { Res.of stLOCAL (f.detail 1) with aux := v }
        | .run l => keep (x.1.writePieces a.hp identity l a.payload)
      | _ => keep s

/-! ### Registration and revocation (R366, R379-R383) -/

/-- R380: the quarantine of an index has ended. -/
def State.quarOver (s : State) (revoked : Nat) : Bool := decide (s.since (BitVec.ofNat 48 revoked) ≥ 2 * s.life)

/-- R379 step 2: the key turns REVOKING. -/
def State.startRevoke (s : State) (i : Nat) (by_ : Option (Nat × RingCtr)) : State :=
  let s1 := match Tbl.find? s.rma.descs i with
    | some d => s.setRaw i (Ds.setState d.raw 2)
    | none => s
  let ep := match s.keySt i with
    | some k => k.ep
    | none => match Tbl.find? s.rma.descs i with
      | some d => Ds.ep d.raw
      | none => 0
  s1.setKey i (some { state := 2, ep := ep, revoked := 0, by_ := by_ })

/-- R379 step 4: a key that was REVOKING goes into quarantine, and the entry that asked for it finishes. -/
def State.revoked (s : State) (i : Nat) (k : KeySt) : State :=
  let t1 := (s.setKey i (some { k with state := 3, revoked := s.crs.course, by_ := none })).bump Ctr.RMA_REVOKE_COUNT
  match k.by_ with
  | some (q, c) => t1.finishEntry q c (Res.ok 0)
  | none => t1

/-- R379 steps 3 and 4, once no reference is left. -/
def State.endRevoke (s : State) (i : Nat) : State :=
  match s.keySt i with
  | some k =>
    if k.state ≠ 2 ∨ s.keyRefs i ≠ 0 then s
    else
      let n := s.needDesc i
      match n.2 with
      | .have_ d =>
        let raw := Ds.clean (setBits (setBits (Ds.setState d.raw 3) 128 8 (Ds.tag d.raw + 1)) 208 48 s.course)
        ((n.1.setRaw i raw).hostWrite (keyHp i) (keyHp i * 256) (s.descAddr i) ⟨32, raw⟩).revoked i k
      | .wait => n.1
      | .full => n.1
      | .bus _ => n.1.revoked i k
  | none => s

/-- R381, R529: after a reset of a host port its key table and overflow pool registers return to reset once no key is REVOKING. -/
def State.endTables (s : State) : State :=
  s.rma.tabEnd.foldl (fun t h =>
    if t.rma.keys.any (fun k => k.2.state == 2 && keyHp k.1 == h) then t
    else
      let offs := [Reg.RMA_KEYTAB.off h, Reg.RMA_KEYTAB.off h + 4, Reg.MCH_OVF.off h, Reg.MCH_OVF.off h + 4]
      (offs.foldl (fun u o => u.setWord o (resetWord o).toNat) t).onRma (fun r => { r with tabEnd := setDel r.tabEnd h })) s

end Sys2Proof.Machine
end

