-- ==== Sys2Proof/Machine/Lck.lean ====
section
/-! DEFINITION. Lock cells and fabric locks (spec/12), as operations of the machine, and the meanings of the cell
commands; the meanings of the fabric-lock commands are in Machine/LckCmd.lean. -/
namespace Sys2Proof.Machine

/-! ### Lock cells (R387-R393) -/

def State.cell (s : State) (c : Nat) : Cell := Tbl.get (fun _ => Cell.reset) s.lck.cells c
def State.setCell (s : State) (c : Nat) (v : Cell) : State :=
  { s with lck := { s.lck with cells := Tbl.put (fun _ => Cell.reset) s.lck.cells c v } }
def noOwner : Nat := 0xFFF
def Cell.isFree (v : Cell) : Bool := v.owner == noOwner

/-- The waiter with the highest priority, the earliest registered among equals (R390). -/
def bestWaiter : List (Nat × Nat) → Option (Nat × Nat)
  | [] => none
  | w :: t =>
    match bestWaiter t with
    | some b => if w.2 ≥ b.2 then some w else some b
    | none => some w

/-- What a read of LCK_CELL returns. -/
def Cell.read (v : Cell) : Nat :=
  pack [(31, 1, b2n (!v.isFree)), (30, 1, b2n v.abandoned), (24, 6, v.waiters.length),
    (16, 7, match bestWaiter v.waiters with | some w => w.2 | none => 0), (0, 12, v.owner)]

/-- The function whose ring an event of an owner goes to (R392); management cores and the fabric manager use a device ring. -/
def fnOf (identity : Nat) : Option Nat := if identity < 1024 then some identity else none

/-- R392: signal inheritance when the highest waiting priority passes what this owner has been told. -/
def State.tellInherit (s : State) (c : Nat) : State :=
  let v := s.cell c
  match bestWaiter v.waiters with
  | some w =>
    if ¬ v.isFree ∧ w.2 + 1 > v.signalled then
      (s.setCell c { v with signalled := w.2 + 1 }).raise (srcLck 2) 0 (c + w.1 * 1024) (fnOf v.owner) w.2
    else s
  | none => s

/-- R401: acquiring CELL_OP entries of the cell's owner finish. -/
def State.cellGranted (s : State) (c : Nat) : State :=
  let v := s.cell c
  let mine := v.ents.filter (fun e => e.1 == v.owner)
  let s1 := s.setCell c { v with ents := v.ents.filter (fun e => e.1 != v.owner) }
  mine.foldl (fun t e => t.finishEntry e.2.1 e.2.2 { Res.ok 0 with aux := v.read }) s1
/-- Acquiring CELL_OP entries of an identity that waits no longer complete STATE (R401). -/
def State.cellRefused (s : State) (c i detail : Nat) : State :=
  let v := s.cell c
  let out := v.ents.filter (fun e => e.1 == i)
  let s1 := s.setCell c { v with ents := v.ents.filter (fun e => e.1 != i) }
  out.foldl (fun t e => t.finishEntry e.2.1 e.2.2 { Res.of stSTATE detail with aux := v.read }) s1

/-- R389: acquire. -/
def State.cellAcquire (s : State) (c i p : Nat) : State :=
  let v := s.cell c
  if v.isFree then ((s.setCell c { v with owner := i, signalled := 0 }).bump Ctr.LCK_ACQ_COUNT).cellGranted c
  else if v.owner = i then s.cellGranted c
  else if v.waiters.any (fun w => w.1 == i) then
    (s.setCell c { v with waiters := v.waiters.map (fun w => if w.1 = i then (i, p) else w) }).tellInherit c
  else if v.waiters.length < 63 then (s.setCell c { v with waiters := v.waiters ++ [(i, p)] }).tellInherit c
  else ((s.bump Ctr.LCK_FULL_COUNT).raise (srcLck 3) 0 (c + i * 1024) (fnOf i)).cellRefused c i 4

/-- The cell passes to its best waiter, or becomes free (R390); `abandoned` is the flag after the handover. -/
def State.cellHandover (s : State) (c : Nat) (abandoned : Bool) : State :=
  let v := s.cell c
  match bestWaiter v.waiters with
  | some w =>
    (((s.setCell c { v with owner := w.1, abandoned := abandoned, waiters := v.waiters.filter (fun x => x.1 != w.1),
                            signalled := 0 }).bump Ctr.LCK_HANDOVER_COUNT).cellGranted c).tellInherit c
  | none => s.setCell c { v with owner := noOwner, abandoned := abandoned, signalled := 0 }

/-- R390: release. -/
def State.cellRelease (s : State) (c i : Nat) : State :=
  let v := s.cell c
  if v.owner ≠ i ∨ v.isFree then (s.bump Ctr.LCK_FOREIGN_COUNT).raise (srcLck 0) 0 (c + i * 1024)
  else s.cellHandover c false

/-- R389: withdraw. -/
def State.cellWithdraw (s : State) (c i : Nat) : State :=
  let v := s.cell c
  (s.setCell c { v with waiters := v.waiters.filter (fun w => w.1 != i) }).cellRefused c i 4

/-- R388: the identity lies within the cell's scope. -/
def State.cellScope (s : State) (c i : Nat) : Bool :=
  let k := s.g (Reg.LCK_CELL_CFG.scope c)
  if k = 0 then true
  else if k = 1 then decide (i < 1024) && hpOf i == s.g (Reg.LCK_CELL_CFG.hp c)
  else if k = 2 then decide (i ≥ 0x400)
  else false

/-- R388: an operation on a cell by register: `op` 0 acquire, 1 release, 2 withdraw. -/
def State.cellReg (s : State) (req : Requester) (c op p i : Nat) : State :=
  if s.mode = .fenced ∨ s.mode = .off then s
  else if ¬ req.privileged ∨ i ≠ req.identity ∨ ¬ s.cellScope c i then s.bump Ctr.LCK_FOREIGN_COUNT
  else if op = 0 then s.cellAcquire c i p
  else if op = 1 then s.cellRelease c i
  else if op = 2 then s.cellWithdraw c i
  else s

/-- R393: an identity is reset: the cells it owns are handed over abandoned, and it waits no longer. -/
def State.cellResetIdentity (s : State) (i : Nat) : State :=
  (Tbl.keys s.lck.cells).foldl (fun t c =>
    let t1 := t.cellWithdraw c i
    if (t1.cell c).owner = i then
      ((t1.cellHandover c true).bump Ctr.LCK_ABANDON_COUNT).raise (srcLck 1) 0 (c + i * 1024)
    else t1) s

/-- Fields of a CELL_OP body (R401). -/
def Cw.cell (r : Nat) : Nat := Wqe.at_ r 16 0 10
def Cw.op (r : Nat) : Nat := Wqe.at_ r 18 0 2
def Cw.prio (r : Nat) : Nat := Wqe.at_ r 19 0 7

/-- The next entry of a queue, if it is a CELL_OP with this operation; foreign ones finish at once, counted (R388). -/
def State.cellEntry (s : State) (q op : Nat) (go : Sq → Ent → State) : State :=
  match s.startable q 0x28 with
  | some (v, e) =>
    if Cw.op e.raw ≠ op then s
    else if ¬ s.cellScope (Cw.cell e.raw) v.owner then
      (s.bump Ctr.LCK_FOREIGN_COUNT).finishEntry q e.ctr { Res.ok 0 with aux := (s.cell (Cw.cell e.raw)).read }
    else go v e
  | none => s
/-- Finish a CELL_OP entry at once. -/
def State.cellDone (s : State) (q : Nat) (e : Ent) (bytes : Nat) : State :=
  s.finishEntry q e.ctr { Res.ok bytes with aux := (s.cell (Cw.cell e.raw)).read }

/-- R389: CELL_ACQUIRE. -/
def execCellAcquire (via : CellVia) (s : State) : Host.Outcome State Fault Refusal :=
  match via with
  | .reg req c p i => .next (s.cellReg req c 0 p i)
  | .entry q => .next (s.cellEntry q 0 (fun v e =>
      let c := Cw.cell e.raw
      let s1 := (s.runEntry q e.ctr 0).setCell c { s.cell c with ents := (s.cell c).ents ++ [(v.owner, q, e.ctr)] }
      s1.cellAcquire c v.owner (Cw.prio e.raw)))

/-- R401: CELL_TRY: the entry takes a free cell, or returns without registering. -/
def execCellTry (q : Nat) (s : State) : Host.Outcome State Fault Refusal :=
  .next (s.cellEntry q 1 (fun v e =>
    let c := Cw.cell e.raw
    let s1 := if (s.cell c).isFree then s.cellAcquire c v.owner (Cw.prio e.raw) else s
    s1.cellDone q e (b2n ((s1.cell c).owner == v.owner))))

/-- R390: CELL_RELEASE. -/
def execCellRelease (via : CellVia) (s : State) : Host.Outcome State Fault Refusal :=
  match via with
  | .reg req c p i => .next (s.cellReg req c 1 p i)
  | .entry q => .next (s.cellEntry q 2 (fun v e => (s.cellRelease (Cw.cell e.raw) v.owner).cellDone q e 0))

/-- R389: CELL_WITHDRAW. -/
def execCellWithdraw (via : CellVia) (s : State) : Host.Outcome State Fault Refusal :=
  match via with
  | .reg req c p i => .next (s.cellReg req c 2 p i)
  | .entry q => .next (s.cellEntry q 3 (fun v e => (s.cellWithdraw (Cw.cell e.raw) v.owner).cellDone q e 0))

/-! ### Fabric locks: the word and its operations (R394-R398) -/

/-- Fields of the lock word (R394). -/
def Fl.next (w : Nat) : Nat := bits w 0 32
def Fl.serving (w : Nat) : Nat := bits w 32 32
def Fl.lease (w : Nat) : Nat := bits w 64 48
def Fl.held (w : Nat) : Bool := bit w 112
def Fl.broken (w : Nat) : Bool := bit w 113
def Fl.abandoned (w : Nat) : Bool := bit w 114
def Fl.ownerDevice (w : Nat) : Nat := bits w 128 20
def Fl.ownerIdentity (w : Nat) : Nat := bits w 160 12
def Fl.ownerTicket (w : Nat) : Nat := bits w 192 32

/-- R396: claim a ticket. -/
def Fl.claim (w dev ident t lease : Nat) : Nat :=
  let w1 := setBits (setBits (setBits w 112 3 1) 128 20 dev) 160 12 ident
  setBits (setBits w1 192 32 t) 64 48 lease

/-- Outcomes of R397. -/
def flGRANTED : Nat := 0
def flWAITING : Nat := 1
def flRELEASED : Nat := 2
def flRENEWED : Nat := 3
def flBROKEN : Nat := 4
def flPASSED : Nat := 5

/-- R7: the lock word as the device writes it, reserved fields zero. -/
def Fl.clean (w : Nat) : Nat :=
  pack [(0, 64, w), (64, 48, Fl.lease w), (112, 3, w / 2 ^ 112), (128, 20, Fl.ownerDevice w), (160, 12, Fl.ownerIdentity w),
    (192, 32, Fl.ownerTicket w)]

/-- R396: the word and outcome of an operation, or the reason of R398 for which it is refused. `op` is the wire opcode,
`spare` the outcome where the table gives none. -/
def Fl.apply (op w dev ident t d now spare : Nat) : Except Nat (Nat × Nat) :=
  let lease := (now + max 1 d) % 2 ^ 48
  let owns := Fl.held w && Fl.ownerDevice w == dev && Fl.ownerIdentity w == ident && Fl.ownerTicket w == t
  let pass (held broken abandoned : Nat) : Nat :=
    setBits (setBits (setBits w 32 32 (Fl.serving w + 1)) 112 3 (held + 2 * broken + 4 * abandoned)) 64 48 lease
  if op = 0x80 then
    let w1 := setBits w 0 32 (Fl.next w + 1)
    if Fl.next w = Fl.serving w ∧ ¬ Fl.held w then .ok (Fl.claim w1 dev ident (Fl.next w) lease, flGRANTED) else .ok (w1, flWAITING)
  else if op = 0x81 then
    if serialCmp t (Fl.next w) 32 ≠ .before then .error 5
    else if t = Fl.serving w then (if Fl.held w then .ok (w, spare) else .ok (Fl.claim w dev ident t lease, flGRANTED))
    else if serialCmp t (Fl.serving w) 32 = .before then .ok (w, flPASSED)
    else .ok (w, flWAITING)
  else if op = 0x83 then (if owns then .ok (setBits w 64 48 lease, flRENEWED) else .error 6)
  else if op = 0x84 then
    if serialCmp (Fl.lease w) now 48 ≠ .before then .error 7
    else if serialCmp (Fl.serving w) (Fl.next w) 32 ≠ .before then .error 8
    else .ok (pass 0 1 0, flBROKEN)
  else if owns then .ok (pass 0 0 (if op = 0x85 then 1 else 0), flRELEASED)
  else .error 6

/-- R395: a privileged identity. -/
def flPrivileged (i : Nat) : Bool := isPf i || (decide (0x400 ≤ i) && decide (i ≤ 0x403)) || i == 0x420

/-- R398: refuse with detail 0x040B and a reason. -/
def State.flRefuse (s : State) (a : Arr) (reason : Nat) : State :=
  (((s.takeArr a).bump Ctr.LCK_FL_REFUSE_COUNT).raise (srcLck 4) 0 (keyIndex (Rf.key a.th))).result a .reply stREMOTE 0x040B reason

/-- R398 reasons 1 to 4. -/
def flStatic (a : Arr) (d : Desc) : Option Nat :=
  if ¬ Ds.lockable d.raw then some 1
  else if Ds.hostAtomic d.raw then some 2
  else if (Ds.va d.raw + Rf.offset a.th) % 32 ≠ 0 then some 3
  else if ¬ flPrivileged (Rf.identity a.th) then some 4
  else none

/-- R396, R398: a fabric-lock request at the target: one read-modify-write of the word. -/
def State.onFl (s : State) (a : Arr) (hm : HostView) : State :=
  let c := s.rmaCheck a 4 32 1 false
  match c.2 with
  | .wait => c.1
  | .full => c.1.rmaFull a
  | .refuse e => c.1.rmaRefuse a e
  | .ok d =>
    match flStatic a d with
    | some r => c.1.flRefuse a r
    | none =>
      let q := c.1.regionReq d (Ds.va d.raw + Rf.offset a.th) 4 a.who
      let x := c.1.xlate a.hp q
      match x.2 with
      | .wait => x.1
      | .fault f => (x.1.takeArr a).rmaFail a .reply (0x0480 + f.kind)
      | .pa p _ =>
        if x.1.lineHeld a.hp p 32 ∨ x.1.atomicsAhead a.hp x.1.rma.nextId then c.1
        else
          let s1 := x.1.hostRead a.hp q.identity p 32
          match HostView.read hm p 32 with
          | .error _ => ((s1.takeArr a).rmaFail a .reply 0x040D).raise (srcRma 2) 0 (keyIndex (Rf.key a.th))
          | .data b =>
            let w := b.val
            let op := Th.opcode a.th
            let dr := s1.draw
            match Fl.apply op w (Hdr.src a.hdr) (Rf.identity a.th) (a.payload.field 0 0 32) (a.payload.field 4 0 32) s.course (dr.1 % 6) with
            | .error r => s1.flRefuse a r
            | .ok (w1, out) =>
              let s2 := ((dr.2.takeArr a).bump Ctr.LCK_FL_OP_COUNT).bumpIf (op = 0x84) Ctr.LCK_FL_BREAK_COUNT
              let s3 := if w1 = w then s2 else s2.hostWrite a.hp q.identity p ⟨32, Fl.clean w1⟩
              let id := s3.rma.nextId
              let s4 := s3.onRma (fun r => { r with nextId := id + 1, results := Tbl.ins r.results id w })
              s4.answer a (.atomic id) 0x88 32 (packB [(0, 24, a.psn), (3, 8, a.gen), (4, 8, out)]) (.bytes ⟨32, w⟩)

/-! ### Fabric locks: the initiator (R399, R400, R403) -/

/-- Stands for LCK_FL_CMD where a send queue is named. -/
def cmdQueue : Nat := 2 ^ 20
/-- Stands for no held-lock record. -/
def noRec : Nat := 4096

def State.rec? (s : State) (i : Nat) : Option FlRec := Tbl.find? s.lck.recs i
def State.setRec (s : State) (i : Nat) (r : Option FlRec) : State := { s with lck := { s.lck with recs := Tbl.upd s.lck.recs i r } }

/-- A fabric-lock request: who asks, for which lock. -/
structure FlAsk where
  q : Nat
  ctr : RingCtr
  identity : Nat
  ep : Nat
  target : Nat
  key : Nat
  offset : Nat
  d : Nat
  way : FlWay
deriving DecidableEq, Repr

/-- Finish a fabric-lock entry or command (R401, R403). -/
def State.flFinish (s : State) (q : Nat) (ctr : RingCtr) (r : Res) : State :=
  if q = cmdQueue then
    let s1 := ((s.put Reg.LCK_FL_CMD_STATUS.busy 0).put Reg.LCK_FL_CMD_STATUS.status r.status).put Reg.LCK_FL_CMD_STATUS.detail r.detail
    ((s1.put (Reg.LCK_FL_RES.result 0) (r.aux % 2 ^ 32)).put (Reg.LCK_FL_RES.result 1) (r.aux / 2 ^ 32)).put (Reg.LCK_FL_RES.result 2) r.byteCount
  else s.finishEntry q ctr r

/-- Owner and domain slot of an endpoint. -/
def State.epSource (s : State) (ep : Nat) : Nat × Nat :=
  match s.ep? ep with
  | some e => (e.owner, e.slot)
  | none => (0, 0)

/-- Send a fabric-lock request (R397) from an endpoint of owner and slot `src`, with the class, colour and queue of the entry that asked
for it (R193, R198, R199). -/
def State.sendFl (s : State) (origin : OpOrigin) (src : Nat × Nat) (identity ep target key offset op ticket d : Nat) (viaCmd : Bool) (way : FlWay) : State :=
  s.newOp { Op.base (ctxKey (hpOf src.1) src.2 (target / 65536)) 0 origin ep (target % 65536) op 8
              (packB [(0, 32, key), (4, 48, offset), (11, 12, identity)]) with
            pay := .bytes ⟨8, ticket + d * 2 ^ 32⟩, resp := 1, identity := src.1, privileged := viaCmd,
            tc := way.tc, pre := way.pre, sq := way.sq }

/-- The default lease (R401). -/
def State.flLease (s : State) (d : Nat) : Nat := if d ≠ 0 then d else max 1 (s.g Reg.LCK_FL_CFG.lease)

/-- The fields of an FL_ body (R401). -/
def Ent.flAsk (e : Ent) (q : Nat) (v : Sq) : FlAsk :=
  { q := q, ctr := e.ctr, identity := v.owner, ep := v.ep, way := ⟨v.tc, Wqe.colour e.raw, some q⟩, target := Wqe.at_ e.raw 16 0 38, key := Wqe.at_ e.raw 24 0 32,
    offset := Wqe.at_ e.raw 40 0 64, d := Wqe.at_ e.raw 28 0 32 }

/-- R403, R404: the request LCK_FL_CMD makes from its argument registers. -/
def State.flCmdAsk (s : State) (identity : Nat) : FlAsk :=
  let a (i : Nat) : Nat := s.g (Reg.LCK_FL_ARG.arg i)
  { q := cmdQueue, ctr := 0, identity := identity, way := ⟨0, 0, none⟩, ep := a 6 % 65536, target := (a 0 + a 1 * 2 ^ 32) % 2 ^ 38, key := a 2,
    offset := a 3 + a 4 * 2 ^ 32, d := a 5 }

/-- R403: a write to LCK_FL_CMD: discarded, completed at once with an error, or started. -/
def State.flCommand (s : State) (req : Requester) (op : Nat) (go : State → FlAsk → State) : State :=
  if s.mode = .fenced ∨ s.mode = .off then s
  else if ¬ req.mgmt ∨ s.g Reg.LCK_FL_CMD_STATUS.busy = 1 then s
  else
    let s1 := s.put Reg.LCK_FL_CMD.opcode op
    let k := s1.flCmdAsk req.identity
    let fail (st d : Nat) : State := s1.flFinish cmdQueue 0 (Res.of st d)
    if ¬ s.live then fail stNOT_SERVING 0
    else if op < 0x29 ∨ 0x2C < op then fail stMALFORMED 1
    else if k.offset % 32 ≠ 0 ∨ k.offset + 32 > 2 ^ 48 then fail stMALFORMED 0x0103
    else if k.target / 2 ^ 36 ≠ 0 then fail stADDRESS 1
    else
      match s1.ep? k.ep with
      | some e => if e.destroying then fail stSTATE 5
                  else go ({ s1 with lck := { s1.lck with cmdBy := req.identity } }.put Reg.LCK_FL_CMD_STATUS.busy 1) k
      | none => fail stSTATE 5

/-- Start a fabric-lock operation, by entry or by command. -/
def State.flStart (s : State) (via : FlVia) (op : Nat) (go : State → FlAsk → State) : State :=
  match via with
  | .cmd req => s.flCommand req op go
  | .entry q =>
    match s.startable q op with
    | some (v, e) => go (s.runEntry q e.ctr 0) (e.flAsk q v)
    | none => s

/-- R399: FL_ACQUIRE: take a record and send FL_TAKE. -/
def State.flAcquire (s : State) (k : FlAsk) : State :=
  let n := s.pick 4096 (Tbl.keys s.lck.recs)
  match n.1 with
  | none => n.2.flFinish k.q k.ctr (Res.of stRESOURCE 0)
  | some i =>
    let d := s.flLease k.d
    let src := s.epSource k.ep
    let s1 := n.2.setRec i (some { identity := k.identity, ep := k.ep, owner := src.1, slot := src.2, target := k.target, key := k.key, offset := k.offset, ticket := 0,
                                   d := d, holding := false, known := false, pollOut := true, lastPoll := s.nowAt,
                                   viaCmd := k.q == cmdQueue, way := k.way, wait := some (k.q, k.ctr), reset_ := false })
    s1.sendFl (.flEntry k.q k.ctr i) src k.identity k.ep k.target k.key k.offset 0x80 0 d (k.q == cmdQueue) k.way

/-- R399, R404: the HOLDING record of a request. -/
def State.flHeld (s : State) (k : FlAsk) : Option (Nat × FlRec) :=
  s.lck.recs.find? (fun e => e.2.holding && e.2.identity == k.identity && e.2.target == k.target && e.2.key == k.key &&
    e.2.offset == k.offset && (k.q != cmdQueue || e.2.ep == k.ep))

/-- R399: FL_RELEASE (0x82) and FL_RENEW (0x83) of a held lock. -/
def State.flOnHeld (s : State) (k : FlAsk) (op : Nat) : State :=
  match s.flHeld k with
  | some (i, r) => s.sendFl (.flEntry k.q k.ctr i) (s.epSource k.ep) k.identity k.ep k.target k.key k.offset op r.ticket (s.flLease k.d) (k.q == cmdQueue) k.way
  | none => s.flFinish k.q k.ctr (Res.of stSTATE 1)

/-- R401: FL_BREAK. -/
def State.flBreak (s : State) (k : FlAsk) : State :=
  s.sendFl (.flEntry k.q k.ctr noRec) (s.epSource k.ep) k.identity k.ep k.target k.key k.offset 0x84 0 (s.flLease k.d) (k.q == cmdQueue) k.way

/-- R399: the poll of a WAITING record is due. -/
def State.flPollSend (s : State) (i : Nat) : State :=
  match s.rec? i with
  | some r =>
    if s.live ∧ r.known ∧ ¬ r.holding ∧ ¬ r.pollOut ∧ s.over r.lastPoll ≥ max 1 (s.g Reg.LCK_FL_CFG.poll) then
      (s.setRec i (some { r with pollOut := true, lastPoll := s.nowAt })).sendFl (.flPoll i) (r.owner, r.slot) r.identity r.ep r.target r.key
        r.offset 0x81 r.ticket r.d r.viaCmd r.way
    else s
  | none => s

/-- R400: a lock held for a reset identity is released as abandoned. -/
def State.flAbandonRec (s : State) (i : Nat) (r : FlRec) : State :=
  s.sendFl (.flAbandon i) (r.owner, r.slot) r.identity r.ep r.target r.key r.offset 0x85 r.ticket r.d r.viaCmd r.way

/-- R400: an identity is reset: HOLDING records are released, WAITING ones go on polling without completions. -/
def State.flResetIdentity (s : State) (ident : Nat) : State :=
  (s.lck.recs.filter (fun e => e.2.identity == ident && !e.2.reset_)).foldl (fun t e =>
    let r := { e.2 with reset_ := true, wait := none }
    let t1 := t.setRec e.1 (some r)
    if r.holding then t1.flAbandonRec e.1 r else t1) s

/-- R401: aux, byte count and detail that a reply gives: ticket and the word as it stood. -/
def flRes (ticket w : Nat) : Res :=
  { status := 0, detail := b2n (Fl.abandoned w) + 2 * b2n (Fl.broken w), byteCount := ticket,
    aux := Fl.ownerDevice w + Fl.ownerIdentity w * 2 ^ 20 + Fl.ownerTicket w * 2 ^ 32, slot2 := none }

/-- R399: a grant: the record holds, its entry or command finishes; for a reset identity the lock is given up. -/
def State.flGranted (s : State) (i : Nat) (r : FlRec) (ticket w : Nat) : State :=
  let r1 := { r with holding := true, known := true, ticket := ticket, pollOut := false, wait := none }
  let s1 := s.setRec i (some r1)
  if r.reset_ then s1.flAbandonRec i r1
  else match r.wait with
    | some (q, c) => s1.flFinish q c (flRes ticket w)
    | none => s1

/-- R399: an FL_REPLY for operation `n`. -/
def State.flReply (s : State) (n : Nat) (o : Op) (out w : Nat) : State :=
  let s1 := s.delOp n
  match o.origin with
  | .flEntry q c i =>
    if o.opcode = 0x80 then
      match s.rec? i with
      | some r =>
        if out = flGRANTED then s1.flGranted i r (Fl.next w) w
        else s1.setRec i (some { r with known := true, ticket := Fl.next w, pollOut := false })
      | none => s1
    else
      let t := bits (match o.pay with | .bytes d => d.val | _ => 0) 0 32
      let s2 := if o.opcode = 0x82 then s1.setRec i none else s1
      s2.flFinish q c (flRes (if o.opcode = 0x84 then 0 else t) w)
  | .flPoll i =>
    match s.rec? i with
    | some r =>
      if out = flGRANTED then s1.flGranted i r r.ticket w
      else if out = flPASSED then
        let s2 := s1.setRec i none
        match r.wait with
        | some (q, c) => s2.flFinish q c (Res.of stSTATE 3)
        | none => s2
      else s1.setRec i (some { r with pollOut := false })
    | none => s1
  | .flAbandon i => s1.setRec i none
  | _ => s1

/-- A fabric-lock operation has failed (R399, R400): its entry or command takes the status, and a record that was never
granted, or is being given up, is freed. -/
def State.flFailed (s : State) (n : Nat) (o : Op) (r : Res) : State :=
  let s1 := s.delOp n
  match o.origin with
  | .flEntry q c i => (if o.opcode = 0x80 then s1.setRec i none else s1).flFinish q c r
  | .flPoll i =>
    match s.rec? i with
    | some x =>
      match x.wait with
      | some (q, c) => (s1.setRec i none).flFinish q c r
      | none => s1.setRec i none
    | none => s1
  | .flAbandon i => s1.setRec i none
  | _ => s1

/-- R399: FL_REPLY_RX for an accepted reply. -/
def State.onFlReply (s : State) (a : Arr) : State :=
  match s.requestOf a (Th.at_ a.th 19 0 24) (Th.at_ a.th 22 0 8) with
  | some (n, o) => if o.done.isSome then s.takeArr a else (s.takeArr a).flReply n o (Th.at_ a.th 23 0 8) (a.payload.val % 2 ^ 256)
  | none => s.takeArr a

end Sys2Proof.Machine
end

