-- ==== Sys2Proof/Machine/Brg.lean ====
section
/-! DEFINITION. The window bridge (spec/14, R441-R454): windows, acceptance, order, reads, prefetch, and the meanings of its
commands. -/
namespace Sys2Proof.Machine

def State.onBrg (s : State) (f : Brg → Brg) : State := { s with brg := f s.brg }

/-- Where the entry of a window is held: one place for both addresses of windows 0-7 (R442). -/
def winOff (fn w : Nat) : Nat := if w < 8 then Reg.WIN_FN.off fn w else Reg.WIN_PF.off (hpOf fn) w

/-- R442: a window entry. -/
def State.win (s : State) (fn w : Nat) : Win :=
  let o := winOff fn w
  let w2 := s.word (o + 8)
  let w3 := s.word (o + 12)
  { key := s.word o, offset := s.word (o + 4) + bits w2 0 16 * 2 ^ 32, targetEp := bits w2 16 16, target := bits w3 0 22,
    enable := bit w3 31, acked := bit w3 30, prefetch := bit w3 29, ordered := bit w3 28, err := bit w3 27 }

/-- The source endpoint of a function's windows, when it exists and is the function's (R444, R445). -/
def State.brgEp (s : State) (fn : Nat) : Option Nat :=
  let e := s.g (Reg.BRG_FN_CFG.endpoint fn)
  if s.g (Reg.BRG_FN_CFG.enable fn) = 1 ∧ s.epOwner e = fn then some e else none

/-- What R445 decides. -/
inductive Accept where
  | ok (ep : Nat) (w : Win) | ur | ca
deriving DecidableEq, Repr

/-- R445, in order; `plain` is a memory read or write that is neither locked nor an AtomicOp. -/
def State.accept (s : State) (fn w : Nat) (plain : Bool) : Accept :=
  if s.mode ≠ .service ∨ ¬ plain ∨ w ≥ (if isPf fn then 64 else 8) then .ur
  else
    match s.brgEp fn with
    | none => .ur
    | some e =>
      let v := s.win fn w
      if ¬ v.enable then .ur else if v.err then .ca else .ok e v

/-- Complete a request without data: 1 Unsupported Request, 4 Completer Abort. -/
def State.completeErr (s : State) (hp tag status : Nat) : State := s.emit (.completion hp tag status Data.empty)

/-- R449: completions split at 64-byte boundaries of the address. -/
def State.completeData (s : State) (hp tag addr : Nat) (d : Data) : Nat → State
  | 0 => s
  | n + 1 =>
    let k := min d.len (64 - addr % 64)
    if d.len ≤ k then s.emit (.completion hp tag 0 d)
    else (s.emit (.completion hp tag 0 (d.slice 0 k))).completeData hp tag (addr + k) (d.slice k (d.len - k)) n

/-! ### Writes (R446-R448) -/

/-- The runs of contiguous enabled bytes of a write: first byte and length. -/
def enabledRuns (be : Nat) : Nat → Nat → List (Nat × Nat)
  | 0, _ => []
  | n + 1, i =>
    let r := enabledRuns be n (i + 1)
    if bit be i then
      match r with
      | (a, l) :: t => if a = i + 1 then (i, l + 1) :: t else (i, 1) :: (a, l) :: t
      | [] => [(i, 1)]
    else r

/-- R453: invalidate prefetch entries: those whose GET is out discard their data, others go at once. -/
def State.pfKill (s : State) (p : PfEnt → Bool) : State :=
  s.onBrg (fun b => { b with pf := b.pf.filterMap (fun e =>
    if p e.2 then (if e.2.data.isSome then none else some (e.1, { e.2 with dead := true })) else some e) })

/-- R446: BAR4_WRITE: `fn` the function, `off` the BAR4 offset, `be` the byte enables. -/
def execBar4Write (fn off : Nat) (d : Data) (be : Nat) (s : State) : Host.Outcome State Fault Refusal :=
  let w := off / 2 ^ 26
  if s.mode = .fenced ∨ s.mode = .off then .next s
  else
    match s.accept fn w true with
    | .ok e v =>
      let runs := enabledRuns be d.len 0
      let s1 := (s.bump Ctr.BRG_WRITE_COUNT).pfKill (fun p => p.fn == fn &&
        runs.any (fun r => let o := v.offset + off % 2 ^ 26 + r.1
                           decide (o < p.off + p.len ∧ p.off < o + r.2) && (s.win fn p.win).key == v.key))
      .next (runs.foldl (fun t r =>
        t.onBrg (fun b => { b with serial := b.serial + 1,
                                   writes := Tbl.ins b.writes b.serial ⟨fn, w, v, e, s.g (Reg.BRG_FN_CFG.tc fn),
                                               v.offset + off % 2 ^ 26 + r.1, d.slice r.1 r.2, none⟩ })) s1)
    | _ => .next (s.bump Ctr.BRG_WRITE_DROP_COUNT)

/-- R447: the earlier accesses of a window allow this write to be sent. -/
def State.writeMayGo (s : State) (id : Nat) (x : BWrite) : Bool :=
  if x.w.ordered then
    s.brg.writes.all (fun e => !(e.1 < id && e.2.fn == x.fn && e.2.win == x.win && e.2.op.isNone)) &&
    s.brg.reads.all (fun r => !(r.2.serial < id && r.2.fn == x.fn && r.2.win == x.win && r.2.op.isNone))
  else
    s.brg.writes.all (fun e => !(e.1 < id && e.2.fn == x.fn && e.2.win == x.win &&
      decide (e.2.off / 64 ≤ (x.off + x.data.len - 1) / 64 ∧ x.off / 64 ≤ (e.2.off + e.2.data.len - 1) / 64)))

/-- A window's request as an operation (R441). -/
def State.winOp (s : State) (fn ep tc : Nat) (w : Win) (origin : OpOrigin) (opcode len off spec : Nat) : Op :=
  let slot := match s.ep? ep with
    | some e => e.slot
    | none => 0
  { Op.base (ctxKey (hpOf fn) slot w.target) 0 origin ep w.targetEp opcode len (packB [(0, 32, w.key), (4, 48, off), (10, 1, spec)]) with
    resp := 1, ordered := w.ordered, identity := fn, tc := tc,
    extra := if opcode = 0x41 then respBricks len (s.encrypts (ctxKey (hpOf fn) slot w.target)) else 0 }

/-- R447: WINDOW_WRITE_SEND: put `id` is sent, or discarded when its acknowledged window has failed (R448). -/
def execWindowWriteSend (id : Nat) (s : State) : Host.Outcome State Fault Refusal :=
  match Tbl.find? s.brg.writes id with
  | some x =>
    if x.op.isSome ∨ ¬ s.live then .next s
    else if x.w.acked ∧ (s.win x.fn x.win).err then
      .next ((s.onBrg (fun b => { b with writes := Tbl.del b.writes id })).bump Ctr.BRG_WRITE_DROP_COUNT)
    else if ¬ s.writeMayGo id x then .next s
    else
      let n := s.trn.nextOp
      let s1 := s.newOp { s.winOp x.fn x.ep x.tc x.w (.brgWrite id) 0x40 x.data.len x.off 0 with pay := .bytes x.data }
      .next (s1.onBrg (fun b => { b with writes := Tbl.ins b.writes id { x with op := some n } }))
  | none => .next s

/-- The latest failure of a function's windows (R444). -/
def State.brgErr (s : State) (fn win status detail : Nat) : State :=
  ((s.put (Reg.BRG_FN_ERR.window fn) win).put (Reg.BRG_FN_ERR.status fn) status).put (Reg.BRG_FN_ERR.detail fn) detail

/-- The operation of a window access that has finished with an error. -/
def State.opFailed (s : State) (o : Option Nat) : Option Res :=
  match o.bind s.op? with
  | some x => x.done.bind (fun r => if r.status = 0 then none else some r)
  | none => none

/-- R448: the err bit of a window is set; its acknowledged writes that have not been sent are discarded, and its reads that wait fail. -/
def State.winErr (s : State) (fn w : Nat) : State :=
  let o := winOff fn w + 12
  let dead (x : BWrite) : Bool := x.fn == fn && x.win == w && x.w.acked && x.op.isNone
  let n := (s.brg.writes.filter (fun e => dead e.2)).length
  ((s.setWord o (setBits (s.word o) 27 1 1)).onBrg (fun b =>
    { b with writes := Tbl.keep (fun _ x => !dead x) b.writes, errAt := Tbl.ins b.errAt (fn * 64 + w) s.cycles,
             reads := b.reads.map (fun r =>
               if r.2.fn = fn ∧ r.2.win = w ∧ r.2.w.acked ∧ r.2.op.isNone then (r.1, { r.2 with failed := true }) else r) })).bumpBy
    Ctr.BRG_WRITE_DROP_COUNT n

/-! ### Reads and prefetch (R446, R447, R449-R454) -/

/-- An earlier write of the window has not received its RESULT. -/
def State.writesBefore (s : State) (x : BRead) : Bool :=
  s.brg.writes.any (fun e => e.1 < x.serial && e.2.fn == x.fn && e.2.win == x.win)

def State.setRead (s : State) (x : BRead) : State :=
  s.onBrg (fun b => { b with reads := b.reads.map (fun r => if r.2.serial = x.serial then (r.1, x) else r) })
def State.dropRead (s : State) (x : BRead) : State := s.onBrg (fun b => { b with reads := b.reads.filter (fun r => r.2.serial != x.serial) })

/-- R453: a valid entry that holds all bytes of a read. -/
def State.pfHit (s : State) (x : BRead) : Option Data :=
  let life := s.g Reg.BRG_CFG.pf_life
  if life = 0 then none
  else
    s.brg.pf.findSome? (fun e =>
      match e.2.data with
      | some (d, at_) =>
        let o := x.w.offset + x.addr
        if e.2.fn = x.fn ∧ e.2.win = x.win ∧ ¬ e.2.dead ∧ s.cycles < at_ + life ∧ e.2.off ≤ o ∧ o + x.len ≤ e.2.off + e.2.len
        then some (d.slice (o - e.2.off) x.len) else none
      | none => none)

/-- R452: the read-ahead of a read. With pf_life 0 the store is out of use (R453) and no read-ahead begins (DEDUCED). -/
def State.readAhead (s : State) (x : BRead) : State :=
  let from_ := x.addr + x.len
  let n := min 256 (2 ^ 26 - from_)
  let used := (s.brg.pf.filter (fun e => hpOf e.2.fn == hpOf x.fn)).length
  if ¬ x.w.prefetch ∨ x.len = 0 ∨ n = 0 ∨ used ≥ 64 ∨ s.g Reg.BRG_CFG.pf_life = 0 then s
  else
    let id := s.brg.serial
    let op := s.trn.nextOp
    let o := x.w.offset + from_
    let s1 := s.newOp { s.winOp x.fn x.ep x.tc x.w (.brgPrefetch id) 0x41 n o 1 with dest := .chunks [] }
    s1.onBrg (fun b => { b with serial := id + 1, pf := Tbl.ins b.pf id ⟨x.fn, x.win, o, n, op, none, false, s.nowAt⟩ })

/-- An accepted read goes as far as it can: it waits, fails with its window, completes as a flush or from the store, or
sends its GET (R446-R448, R452, R453). -/
def State.readGo (s : State) (x : BRead) : State :=
  let hp := hpOf x.fn
  if x.op.isSome ∨ s.writesBefore x then s
  else if x.failed ∨ ((s.win x.fn x.win).err ∧ x.w.acked) then (s.dropRead x).completeErr hp x.tag 4
  else if x.len = 0 then (s.dropRead x).emit (.completion hp x.tag 0 ⟨4, 0⟩)
  else
    match s.pfHit x with
    | some d => (((s.dropRead x).bump Ctr.BRG_PREFETCH_HIT_COUNT).completeData hp x.tag x.addr d 65).readAhead x
    | none =>
      let op := s.trn.nextOp
      let s1 := s.newOp { s.winOp x.fn x.ep x.tc x.w (.brgRead x.serial) 0x41 x.len (x.w.offset + x.addr) 0 with dest := .chunks [] }
      (s1.setRead { x with op := some op }).readAhead x

/-- R446: BAR4_READ: `kind` 0 a memory read, others a locked read or an AtomicOp. -/
def execBar4Read (fn off len tag kind : Nat) (s : State) : Host.Outcome State Fault Refusal :=
  let hp := hpOf fn
  let w := off / 2 ^ 26
  if s.mode = .off then .next s
  else if s.mode = .fenced then .next (s.completeErr hp tag 4)
  else if (s.brg.reads.filter (fun r => r.1 == hp)).length ≥ 768 then .next s
  else
    match s.accept fn w (kind == 0) with
    | .ur => .next ((s.bump Ctr.BRG_UR_COUNT).completeErr hp tag 1)
    | .ca => .next ((s.bump Ctr.BRG_UR_COUNT).completeErr hp tag 4)
    | .ok e v =>
      let x : BRead := ⟨fn, w, v, e, s.g (Reg.BRG_FN_CFG.tc fn), tag, off % 2 ^ 26, len, s.nowAt, none, s.brg.serial, false⟩
      let s1 := (s.bump Ctr.BRG_READ_COUNT).onBrg (fun b => { b with serial := b.serial + 1, reads := b.reads ++ [(hp, x)] })
      .next (s1.readGo x)

/-- A held read, by its serial. -/
def State.read? (s : State) (id : Nat) : Option BRead := (s.brg.reads.find? (fun r => r.2.serial == id)).map Prod.snd

/-- R450: a read fails: Completer Abort, BRG_FN_ERR, its counter and source. -/
def State.readFail (s : State) (x : BRead) (status detail ctr : Nat) : State :=
  (((s.dropRead x).completeErr (hpOf x.fn) x.tag 4).brgErr x.fn x.win status detail).bump ctr |>.raise (srcBrg 1) 0 x.win (some x.fn)

/-- R450: WINDOW_READ_COMPLETE: the GET of a read has finished. -/
def execWindowReadComplete (id : Nat) (s : State) : Host.Outcome State Fault Refusal :=
  match s.read? id with
  | some x =>
    match x.op.bind s.op? with
    | some o =>
      match o.done with
      | some r =>
        let s1 := s.delOp (x.op.getD 0)
        if r.status ≠ 0 then .next (s1.readFail x r.status r.detail Ctr.BRG_READ_FAIL_COUNT)
        else
          let d := match o.dest with
            | .chunks l => Data.join (l.map Prod.snd)
            | _ => Data.empty
          .next ((s1.dropRead x).completeData (hpOf x.fn) x.tag x.addr d 65)
      | none => .next s
    | none => .next s
  | none => .next s

/-- R454: a read-ahead whose GET is out longer than a read's may be is discarded without a word. -/
def State.prefetchTimeout (s : State) (id : Nat) : State :=
  match Tbl.find? s.brg.pf id with
  | some e =>
    let done := match s.op? e.op with
      | some o => o.done.isSome
      | none => false
    if e.data.isNone && decide (s.over e.at_ ≥ max 1 (s.g Reg.BRG_CFG.read_tmo)) && !done then
      ((s.delOp e.op).onBrg (fun b => { b with pf := Tbl.del b.pf id })).bump Ctr.BRG_SPEC_DROP_COUNT
    else s
  | none => s

/-- R450, R454: WINDOW_READ_TIMEOUT: the GET of a read or of a read-ahead is abandoned; the spec states no status and detail of
a read's timeout for BRG_FN_ERR, so they are free. -/
def execWindowReadTimeout (id : Nat) (s : State) : Host.Outcome State Fault Refusal :=
  match s.read? id with
  | some x =>
    let done := match x.op.bind s.op? with
      | some o => o.done.isSome
      | none => false
    if decide (s.over x.at_ ≥ max 1 (s.g Reg.BRG_CFG.read_tmo)) && !done then
      let d := s.draw
      let s1 := match x.op with
        | some i => d.2.delOp i
        | none => d.2
      .next (s1.readFail x (d.1 % 256) (d.1 / 256 % 65536) Ctr.BRG_READ_TMO_COUNT)
    else .next s
  | none => .next (s.prefetchTimeout id)

/-- R453: PREFETCH_EXPIRY: an entry pf_life cycles after its data arrived. -/
def execPrefetchExpiry (id : Nat) (s : State) : Host.Outcome State Fault Refusal :=
  match Tbl.find? s.brg.pf id with
  | some e =>
    match e.data with
    | some (_, at_) =>
      if s.cycles ≥ at_ + s.g Reg.BRG_CFG.pf_life then .next (s.onBrg (fun b => { b with pf := Tbl.del b.pf id })) else .next s
    | none => .next s
  | none => .next s

/-- R454: the GET of a read-ahead has finished; one that failed before its data arrived is discarded. -/
def State.prefetchDone (s : State) (id n : Nat) (r : Res) : State :=
  let s1 := s.delOp n
  match Tbl.find? s.brg.pf id with
  | none => s1
  | some e => if r.status ≠ 0 ∧ e.data.isNone then (s1.onBrg (fun b => { b with pf := Tbl.del b.pf id })).bump Ctr.BRG_SPEC_DROP_COUNT else s1

/-- Reads that waited for earlier writes go on (R447). -/
def State.settleBrg (s : State) : State :=
  s.brg.reads.foldl (fun t r => match t.read? r.2.serial with
    | some x => t.readGo x
    | none => t) s

/-- R448: WINDOW_WRITE_FAIL: put `id` has failed; reads that waited for it end or go on at once. -/
def execWindowWriteFail (id : Nat) (s : State) : Host.Outcome State Fault Refusal :=
  match Tbl.find? s.brg.writes id with
  | some x =>
    match s.opFailed x.op with
    | some r =>
      let s1 := (s.delOp (x.op.getD 0)).onBrg (fun b => { b with writes := Tbl.del b.writes id })
      let s2 := ((s1.brgErr x.fn x.win r.status r.detail).bump Ctr.BRG_WRITE_FAIL_COUNT).raise (srcBrg 0) 0 x.win (some x.fn)
      .next (if x.w.acked then s2.winErr x.fn x.win else s2).settleBrg
    | none => .next s
  | none => .next s

end Sys2Proof.Machine
end

