-- ==== Sys2Proof/Machine/ColCmd.lean ====
section
/-! DEFINITION. Collective operations (spec/13): joining and leaving, admission, chunks and their slots, packets up and
down, COL_CMD, and the meanings of the collective commands. -/
namespace Sys2Proof.Machine

/-! ### Chunks (R418, R420) -/

/-- R420: the number of chunks. -/
def ColHdr.chunks (h : ColHdr) : Nat := max 1 (ceilDiv h.count (colPerChunk h.dtype h.mode))
/-- Elements of chunk `i`. -/
def ColHdr.elems (h : ColHdr) (i : Nat) : Nat :=
  min (colPerChunk h.dtype h.mode) (h.count - i * colPerChunk h.dtype h.mode)
/-- Bytes of an up payload with data, and of a result. -/
def ColHdr.upBytes (h : ColHdr) (i : Nat) : Nat := h.elems i * colWidth h.dtype h.mode
def ColHdr.downBytes (h : ColHdr) (i : Nat) : Nat := h.elems i * colHostWidth h.dtype h.mode
/-- Byte offset of chunk `i` in a member's buffer (R424). -/
def ColHdr.offset (h : ColHdr) (i : Nat) : Nat := i * colPerChunk h.dtype h.mode * colHostWidth h.dtype h.mode
/-- R423: the combination depends on the order of the inputs: floating-point data in deterministic order. -/
def ColHdr.inOrder (h : ColHdr) : Bool := (h.op == 0 || h.op == 2) && 8 ≤ h.dtype && h.mode == 0
/-- The signed window exponent (R415). -/
def ColHdr.exponent (h : ColHdr) : Int := signed h.s 12

/-- R427, R426, R430: another input is combined into an accumulator. -/
def ColHdr.combine (h : ColHdr) (a b : ColIn) : ColIn :=
  let m := { a with flags := a.flags ||| b.flags, contrib := (a.contrib + b.contrib) % 2 ^ 27, present := a.present || b.present }
  if h.op = 3 then m
  else if h.op = 1 then { m with data := if a.present then a.data else b.data }
  else
    let r := colFold h.func h.dtype h.mode a.data b.data
    { m with data := r.1, flags := m.flags ||| r.2 }

/-- Fold one input into a chunk. -/
def ColChunk.fold (c : ColChunk) (key : Nat) (x : ColIn) : ColChunk :=
  { c with acc := if c.folded.isEmpty then x else c.h.combine c.acc x, folded := c.folded ++ [key] }

/-- R410: the inputs of a tree in input order, as far as they are known: all child ports, then the local members once all
have joined. -/
def State.inputOrder (s : State) (set t : Nat) : List Nat :=
  let j := s.joined t
  s.treeChildren set t ++ (if j.length = s.gs set (Reg.COL_TREE.local_count t) then j.map (fun e => 64 + e) else [])

/-- Fold the stored inputs that extend the prefix. -/
def ColChunk.foldStored (order : List Nat) : Nat → ColChunk → ColChunk
  | 0, c => c
  | n + 1, c =>
    match order.find? (fun k => !c.folded.contains k) with
    | none => c
    | some k =>
      match c.stored.find? (fun e => e.1 == k) with
      | some e => ({ c with stored := c.stored.filter (fun y => y.1 != k) }.fold k e.2).foldStored order n
      | none => c

/-- The chunk at a place of a tree's stream. R411: it is one chunk whichever set tag an input carries, so under an entry that is
identical in both sets contributions with either tag combine, through a swap. -/
def State.chunk? (s : State) (t gen csn idx : Nat) : Option ColChunk :=
  s.col.chunks.find? (fun c => c.tree == t && c.gen == gen && c.csn == csn && c.idx == idx)
def ColChunk.same (a b : ColChunk) : Bool := a.tree == b.tree && a.gen == b.gen && a.csn == b.csn && a.idx == b.idx
def State.setChunk (s : State) (c : ColChunk) : State :=
  let l := s.col.chunks
  { s with col := { s.col with chunks := if l.any (fun x => x.same c) then l.map (fun x => if x.same c then c else x) else l ++ [c] } }
def State.delChunk (s : State) (c : ColChunk) : State :=
  { s with col := { s.col with chunks := s.col.chunks.filter (fun x => !x.same c) } }

/-- R422: a packet for which no slot is free. -/
def State.colOverrun (s : State) (t set : Nat) : State := (s.bump Ctr.COL_OVERRUN_COUNT).treeError t set 0x0C07 s.me none

/-! ### Packets (R414, R415, R431, R432) -/

/-- R432: the IV. -/
def colIv (dev type gen csn idx t port : Nat) : List Nat :=
  leBytes 3 (dev % 2 ^ 20 + (if type = 0x21 then 2 ^ 20 else 0)) ++ leBytes 1 gen ++ leBytes 3 csn ++ leBytes 2 (idx % 4096) ++
    leBytes 2 (t % 4096) ++ leBytes 1 (port % 64)
/-- The tree key of a set (R433). -/
def State.treeKey (s : State) (set t : Nat) : List Nat := leBytes 32 (Tbl.get (fun _ => 0) s.col.keys (set * 4096 + t))

/-- R415: the 32-byte collective header. -/
def colHeader (c : ColChunk) (x : ColIn) : Nat :=
  packB [(0, 12, c.tree), (2, 8, c.gen), (3, 8, c.h.op + 16 * c.h.func), (4, 7, c.h.dtype + 16 * c.h.mode + 64 * b2n x.present), (5, 24, c.csn),
    (8, 12, c.idx), (10, 12, c.h.s), (12, 32, c.h.count), (16, 3, x.flags), (17, 27, x.contrib)]

/-- R150, R414, R423: send a chunk's accumulator on a port; none on VC6 goes to a port that is a service port in the chunk's set: it is
discarded as a misroute. -/
def State.sendChunk (s : State) (c : ColChunk) (x : ColIn) (type port : Nat) : State :=
  let enc := s.gs c.set (Reg.COL_TREE.encrypt c.tree) == 1
  let len := ceilDiv (48 + x.data.len + (if enc then 16 else 0)) 64
  let h := s.colHdr c.tree c.set port type (if type = 0x20 then 6 else 7) len
  let ch := colHeader c x
  let body :=
    if enc then
      let r := gcmSeal (s.treeKey c.set c.tree) (colIv s.me type c.gen c.csn c.idx c.tree port) (aadHdr h ++ leBytes 32 ch) x.data.bytes
      Data.append (Data.ofBytes r.1) (Data.ofBytes r.2)
    else x.data
  if Hdr.vc h ≠ 7 ∧ s.role c.set port = 4 then (s.bump Ctr.RTE_MISROUTE_DROP_COUNT).raise (srcRte 3) 0 70
  else s.hubTo 6 (some port) (mkPacket h (Data.append ⟨32, ch⟩ body))

/-! ### Results (R424) -/

/-- A local operation takes the result. -/
def ColOp.takes (o : ColOp) : Bool := (o.h.op == 0 && o.want) || o.h.op == 1 || o.h.op == 2
def ColOp.at_ (o : ColOp) (c : ColChunk) : Bool := o.tree == c.tree && o.gen == c.gen && o.csn == c.csn
/-- Change the operation of a member at a chunk. -/
def State.onColOp (s : State) (c : ColChunk) (ep : Nat) (f : ColOp → ColOp) : State :=
  { s with col := { s.col with ops := s.col.ops.map (fun o => if o.at_ c && o.ep == ep then f o else o) } }

/-- Write a chunk's result at one member; `false` where it waits for a translation. -/
def State.writeResult (s : State) (c : ColChunk) (o : ColOp) : State × Bool :=
  let n := c.acc.data.len
  let count (t : State) (f : Option (Nat × Nat)) : State := t.onColOp c o.ep (fun o => { o with bytes := o.bytes + n, fault := o.fault.or f })
  if o.fault.isSome ∨ n = 0 then (count s none, true)
  else
    match s.ep? o.ep with
    | none => (s, true)
    | some e =>
      let hp := hpOf e.owner
      let p := s.xlateRun hp ⟨e.as_, o.res + c.h.offset c.idx, 1, e.owner, false, o.ovr, .access, .chunk c.tree o.ep c.csn c.idx true⟩ n
      match p.2 with
      | .wait => (p.1, false)
      | .fault f a => (count p.1 (some (f.detail 1, a)), true)
      | .run l => (count (p.1.writePieces hp e.owner l c.acc.data) none, true)

/-- R424: the result with which a COL_OP finishes. -/
def ColOp.result (o : ColOp) : Res :=
  match o.fault with
  | some (d, a) => { status := stLOCAL, detail := d, byteCount := o.bytes, aux := a, slot2 := none }
  | none => { status := stOK, detail := o.flags, byteCount := o.bytes, aux := o.contrib, slot2 := none }

/-- R423, R424: a chunk in FORWARD that has nothing left to issue frees its slot; with the last chunk the operation ends. -/
def State.chunkDone (s : State) (c : ColChunk) : State :=
  let s1 := s.delChunk c
  let s2 := { s1 with col := { s1.col with ops := s1.col.ops.map (fun o =>
    if o.at_ c then { o with flags := o.flags ||| c.acc.flags, contrib := c.acc.contrib } else o) } }
  if c.idx + 1 < c.h.chunks then s2
  else
    let x := s2.colTree c.tree
    let s3 := (s2.col.ops.filter (fun o => o.at_ c)).foldl (fun u o => u.finishEntry o.q o.ctr o.result) s2
    let s4 := { s3 with col := { s3.col with ops := s3.col.ops.filter (fun o => !o.at_ c),
                                             opens := Tbl.del s3.col.opens (c.tree * 2 ^ 24 + c.csn) } }
    (s4.setColTree c.tree { x with low := c.csn + 1, lowPos := x.lowPos + c.h.chunks }).bumpIf (s.treeRoot c.set c.tree) Ctr.COL_OP_DONE_COUNT

/-- Write the results of the oldest chunk in FORWARD, member by member; `false` where it waits. -/
def State.writeAll (s : State) (c : ColChunk) : List Nat → State × Bool
  | [] => (s.chunkDone c, true)
  | ep :: t =>
    match s.col.ops.find? (fun o => o.at_ c && o.ep == ep) with
    | none => s.writeAll c t
    | some o =>
      let r := s.writeResult c o
      if r.2 then r.1.writeAll { c with st := .forward t } t
      else (r.1.setChunk { c with st := .forward (ep :: t) }, false)

/-- R423: COL_DOWN on each child port; the local members to be written are noted. -/
def State.forward (s : State) (c : ColChunk) : State :=
  let s1 := (s.treeChildren c.set c.tree).foldl (fun u p => u.sendChunk c c.acc 0x21 p) s
  let todo := (s1.col.ops.filter (fun o => o.at_ c && o.takes)).map (fun o => o.ep)
  let x := s1.colTree c.tree
  (s1.setChunk { c with st := .forward todo }).setColTree c.tree { x with fwd := x.fwd + 1 }

/-- The stream pointer of R421 after a chunk. -/
def ColTree.advance (x : ColTree) (h : ColHdr) : ColTree :=
  if x.sendIdx + 1 < h.chunks then { x with sendIdx := x.sendIdx + 1 } else { x with sendCsn := x.sendCsn + 1, sendIdx := 0 }

/-- A chunk of the tree is in FORWARD and its sends are issued. -/
def State.forwarding (s : State) (t : Nat) : Option ColChunk :=
  s.col.chunks.find? (fun c => c.tree == t && (match c.st with | .forward _ => true | _ => false))
/-- R421, R423: a result is sent down when no earlier chunk of the tree is still in FORWARD, so that the slots of R409 suffice: at most W + 1
chunks of a tree then hold slots (DEDUCED, notes/assumptions/102). -/
def State.toForward (s : State) (c : ColChunk) : State :=
  if (s.forwarding c.tree).isSome then s.setChunk { c with st := .held } else s.forward c

/-- The READY chunk that is next in a tree's stream, under the gen of the active entry: one of an entry that a swap has changed
goes no further and ends under R434. -/
def State.nextReady (s : State) (t : Nat) : Option ColChunk :=
  let x := s.colTree t
  s.col.chunks.find? (fun c => c.tree == t && c.gen == s.treeGen s.crs.active t && c.csn == x.sendCsn && c.idx == x.sendIdx && c.st == .ready)

/-- R424, R430: the root's result. A broadcast to which no member gave data has no result stated: its bytes are free. -/
def State.rootResult (s : State) (c : ColChunk) : ColIn × State :=
  if c.h.op = 1 ∧ ¬ c.acc.present then
    let d := s.draw
    ({ c.acc with data := Data.ofNat (c.h.upBytes c.idx) d.1 }, d.2)
  else if c.h.mode = 1 then
    let r := (elements c.acc.data 32).map (fun a => fromWindow a c.h.exponent)
    ({ c.acc with data := ofElements 8 (r.map Prod.fst), flags := r.foldl (fun acc e => acc ||| e.2) c.acc.flags }, s)
  else (c.acc, s)

/-- R423, R425: the root produces the next chunk of a tree. -/
def State.produce (s : State) (c : ColChunk) : State :=
  if c.acc.contrib ≠ s.gs c.set (Reg.COL_TREE.members c.tree) then s.treeError c.tree c.set 0x0C04 s.me none
  else
    let r := s.rootResult c
    (r.2.setColTree c.tree ((s.colTree c.tree).advance c.h)).forward { c with acc := r.1 }

/-- What a tree's chunks do of themselves, one after another in stream order: results are written, then sent, and the root produces. -/
def State.settleTree (s : State) (t : Nat) : Nat → State
  | 0 => s
  | n + 1 =>
    match s.forwarding t with
    | some c =>
      match c.st with
      | .forward todo =>
        let r := s.writeAll c todo
        if r.2 then r.1.settleTree t n else r.1
      | _ => s
    | none =>
      match s.col.chunks.find? (fun c => c.tree == t && c.st == .held) with
      | some c => (s.forward c).settleTree t n
      | none =>
        match (s.nextReady t).filter (fun c => s.treeRoot c.set t) with
        | some c => (s.produce c).settleTree t n
        | none => s
/-- The same for every tree with an open chunk. -/
def State.settleCol (s : State) : State :=
  ((s.col.chunks.map (fun c => c.tree)).foldl setAdd []).foldl (fun u t => u.settleTree t (2 * u.col.chunks.length + 1)) s

/-! ### Inputs (R416 step 6, R422, R423) -/

/-- R409, R423: a slot of the tree's reservation is free for one more input. -/
def State.slotFree (s : State) (set t gen : Nat) : Bool :=
  s.gs set (Reg.COL_TREE.data t) != 1 || decide (s.slotsInUse (fun k => k.tree == t && k.gen == gen) + 1 ≤ s.treeSlots set t)

/-- One input of a chunk reaches COL: `key` is its child port, or 64 + its endpoint. Only a packet can overrun (R422). -/
def State.colInput (s : State) (n : ColChunk) (key : Nat) (x : ColIn) : State :=
  let t := n.tree
  let x0 := s.colTree t
  let c := (s.chunk? t n.gen n.csn n.idx).getD n
  if c.h ≠ n.h ∨ (n.h.op = 1 ∧ c.acc.present ∧ x.present) then s.treeError t n.set 0x0C03 s.me none
  else if c.st ≠ .gather ∨ c.folded.contains key ∨ c.stored.any (fun e => e.1 == key) ∨
      (key < 64 ∧ ¬ s.slotFree n.set t n.gen) then
    s.colOverrun t n.set
  else
    let order := s.inputOrder n.set t
    let c1 :=
      if n.h.inOrder ∧ order.find? (fun k => !c.folded.contains k) ≠ some key then
        { c with stored := c.stored ++ [(key, x)] }.foldStored order (c.stored.length + 1)
      else (c.fold key x).foldStored order c.stored.length
    let c2 := if c1.folded.length ≥ s.treeInputs n.set t then { c1 with st := .ready } else c1
    let o := t * 2 ^ 24 + n.csn
    let s1 := { s with col := { s.col with opens := if (Tbl.find? s.col.opens o).isSome then s.col.opens else Tbl.ins s.col.opens o s.nowAt } }
    (((s1.bumpIf (decide (key < 64)) Ctr.COL_UP_PKT_COUNT).setColTree t { x0 with seen := max x0.seen (n.csn + 1) }).setChunk c2).settleCol

/-! ### Members (R412, R419, R421) -/

/-- COL_OP fields (R417). -/
def Colw.tree (r : Nat) : Nat := Wqe.at_ r 16 0 12
def Colw.csn (r : Nat) : Nat := Wqe.at_ r 20 0 24
def Colw.source (r : Nat) : Bool := Wqe.at_ r 19 6 1 == 1
def Colw.want (r : Nat) : Bool := Wqe.at_ r 19 7 1 == 1
def Colw.hdr (r : Nat) : ColHdr :=
  { op := Wqe.at_ r 18 0 4, func := Wqe.at_ r 18 4 4, dtype := Wqe.at_ r 19 0 4, mode := Wqe.at_ r 19 4 2,
    s := if Wqe.at_ r 19 4 2 = 1 then Wqe.at_ r 24 0 12 else 0, count := Wqe.at_ r 28 0 32 }

/-- R418: a combination the table permits. -/
def ColHdr.permitted (h : ColHdr) : Bool :=
  h.op ≤ 3 && h.dtype ≤ 11 && h.func ≤ (if h.dtype ≤ 7 then 5 else 2) && (h.mode == 0 || (h.mode == 1 && h.dtype == 11 && h.func == 0)) &&
  (h.op != 1 || (h.func == 0 && h.mode == 0)) && (h.op != 3 || (h.dtype == 0 && h.func == 0 && h.mode == 0))

/-- R419: the detail with which a COL_OP is malformed. -/
def State.colMalformed (s : State) (ep r : Nat) : Option Nat :=
  let h := Colw.hdr r
  let t := Colw.tree r
  if ¬ h.permitted ∨ (h.count = 0) ≠ (h.op = 3) then some 0x0101
  else if h.chunks > 4096 then some 0x0102
  else
    match Tbl.find? s.col.members (memberKey t ep) with
    | none => some 0x0103
    | some m =>
      if ¬ s.treeValid s.crs.active t then some 0x0103
      else if (Colw.source r ∧ h.op ≠ 1) ∨ (h.op ≠ 3 ∧ s.ga (Reg.COL_TREE.data t) = 0) then some 0x0104
      else if Colw.csn r ≠ m.nextCsn then some 0x0105
      else none

def State.setMember (s : State) (t ep : Nat) (m : ColMember) : State :=
  { s with col := { s.col with members := Tbl.ins s.col.members (memberKey t ep) m } }

/-- R412: COL_JOIN: the result, and the record when it is OK. -/
def State.colJoin (s : State) (t ep : Nat) : State × Res :=
  let here := (Tbl.find? s.col.members (memberKey t ep)).isSome
  let dom : Option Nat := match s.ep? ep with
    | some e => (s.slot? e.slot).map (fun x => x.domain)
    | none => none
  if ¬ s.treeValid s.crs.active t ∨ (s.ga (Reg.COL_TREE.data t) = 0 ∧ here = true) then (s, Res.of stSTATE 1)
  else if here ∨ (s.joined t).length ≥ s.ga (Reg.COL_TREE.local_count t) then (s, Res.of stSTATE 3)
  else if dom ≠ some (s.ga (Reg.COL_TREE.domain t)) then (s, Res.of stSTATE 4)
  else if s.col.members.length ≥ 8192 then (s, Res.of stRESOURCE 0)
  else (s.setMember t ep ⟨(s.colTree t).low, (s.colTree t).lowPos⟩, Res.of stOK 0)

/-- R412: COL_JOIN. -/
def execColJoin (q : Nat) (s : State) : Host.Outcome State Fault Refusal :=
  match s.startable q 0x20 with
  | some (v, e) =>
    let r := s.colJoin (Colw.tree e.raw) v.ep
    .next (r.1.finishEntry q e.ctr r.2)
  | none => .next s

/-- R412: COL_LEAVE. The result for an endpoint that is no member is not stated: OK or STATE, freely. -/
def execColLeave (q : Nat) (s : State) : Host.Outcome State Fault Refusal :=
  match s.startable q 0x21 with
  | some (v, e) =>
    if (Tbl.find? s.col.members (memberKey (Colw.tree e.raw) v.ep)).isSome then
      .next ((s.finishEntry q e.ctr (Res.of stOK 0)).colLeave (Colw.tree e.raw) v.ep)
    else
      let d := s.draw
      .next (d.2.finishEntry q e.ctr (if d.1 % 2 = 0 then Res.of stOK 0 else Res.of stSTATE (d.1 / 2 % 65536)))
  | none => .next s

/-- R419: an accepted COL_OP. -/
def State.colAccept (s : State) (q : Nat) (v : Sq) (e : Ent) (m : ColMember) : State :=
  let t := Colw.tree e.raw
  let r := e.raw
  let o : ColOp := { q := q, ctr := e.ctr, ep := v.ep, tree := t, set := s.crs.active, gen := s.treeGen s.crs.active t, csn := Colw.csn r,
                     h := Colw.hdr r, source := Colw.source r, want := Colw.want r, src := Wqe.at_ r 32 0 64, res := Wqe.at_ r 40 0 64,
                     ovr := Wqe.override r, next := 0, bytes := 0, flags := 0, contrib := 0, fault := none }
  let s1 := (s.runEntry q e.ctr 0).setMember t v.ep { m with nextCsn := m.nextCsn + 1 }
  let x := s.colTree t
  { s1 with col := { s1.col with ops := s1.col.ops ++ [o] } }.setColTree t { x with seen := max x.seen (o.csn + 1) }

/-- R419: COL_OP. -/
def execColOp (q : Nat) (s : State) : Host.Outcome State Fault Refusal :=
  match s.startable q 0x22 with
  | none => .next s
  | some (v, e) =>
    match s.colMalformed v.ep e.raw with
    | some d => .next (s.malformed q e d)
    | none =>
      if Colw.csn e.raw = 0xFFFFFF then .next (s.finishEntry q e.ctr (Res.of stSTATE 2))
      else if (s.colTree (Colw.tree e.raw)).error then .next (s.finishEntry q e.ctr (colFail (s.colTree (Colw.tree e.raw)).reason))
      else
        match Tbl.find? s.col.members (memberKey (Colw.tree e.raw) v.ep) with
        | some m => .next (s.colAccept q v e m)
        | none => .next s

/-- R429: a local contribution as an input. -/
def ColHdr.input (h : ColHdr) (d : Data) : ColIn :=
  if h.mode = 1 then
    let r := (elements d 8).map (fun x => toWindow x h.exponent)
    { data := ofElements 32 (r.map Prod.fst), flags := r.foldl (fun acc e => acc ||| e.2) 0, contrib := 1, present := false }
  else { data := d, flags := 0, contrib := 1, present := false }

/-- A member's source read failed (R434): its entry completes with the fault and the tree enters ERROR. -/
def State.colReadFault (s : State) (o : ColOp) (r : Res) : State :=
  let s1 := { s with col := { s.col with ops := s.col.ops.filter (fun x => x != o) } }
  (s1.finishEntry o.q o.ctr r).treeError o.tree o.set 0x0C08 s.me none

/-- R421: the next chunk of a member's operation is given to COL. -/
def State.giveChunk (s : State) (o : ColOp) (x : ColIn) : State :=
  let c : ColChunk := { tree := o.tree, gen := o.gen, csn := o.csn, idx := o.next, set := o.set, h := o.h, st := .gather, folded := [],
                        stored := [], acc := ⟨Data.empty, 0, 0, false⟩ }
  let s1 := s.onColOp c o.ep (fun y => { y with next := y.next + 1 })
  let s2 := match Tbl.find? s1.col.members (memberKey o.tree o.ep) with
    | some m => s1.setMember o.tree o.ep { m with pos := m.pos + 1 }
    | none => s1
  s2.colInput c (64 + o.ep) x

/-- The operation of a member whose next chunk may be read: the window allows it and a slot is free for it (R421). -/
def State.readable (s : State) (t ep : Nat) : Option ColOp :=
  match s.col.ops.find? (fun o => o.tree == t && o.ep == ep && o.next < o.h.chunks), Tbl.find? s.col.members (memberKey t ep) with
  | some o, some m => if m.pos < (s.colTree t).fwd + s.treeWindow o.set t ∧ s.slotFree o.set t o.gen then some o else none
  | _, _ => none

/-- R421: MEMBER_CHUNK_READ for the member `ep` of tree `t`. -/
def execMemberChunkRead (t ep : Nat) (hm : HostView) (s : State) : Host.Outcome State Fault Refusal :=
  match s.readable t ep, s.ep? ep with
  | some o, some e =>
    if s.mode ≠ .service ∧ s.mode ≠ .drain then .next s
    else if o.h.op = 3 ∨ (o.h.op = 1 ∧ ¬ o.source) then .next (s.giveChunk o ⟨Data.empty, 0, 1, false⟩)
    else
      let n := o.h.downBytes o.next
      let hp := hpOf e.owner
      let va := o.src + o.h.offset o.next
      let p := s.xlateRun hp ⟨e.as_, va, 0, e.owner, false, o.ovr, .access, .chunk t ep o.csn o.next false⟩ n
      match p.2 with
      | .wait => .next p.1
      | .fault f a => .next (p.1.colReadFault o { Res.of stLOCAL (f.detail 0) with aux := a })
      | .run l =>
        match readPieces hm l with
        | .data d => .next ((p.1.readRun hp e.owner l).giveChunk o { (o.h.input d) with present := o.h.op == 1 })
        | .error c => .next (p.1.colReadFault o (Res.of stHOST_BUS c))
  | _, _ => .next s

/-! ### Arriving packets (R413, R416, R435) -/

/-- What a collective packet's bytes say: chunk, input, and the ciphertext and tag that follow. -/
structure ColPkt where
  c : ColChunk
  x : ColIn
  rest : Data
deriving DecidableEq, Repr

/-- R415. -/
def parseCol (d : Data) : ColPkt :=
  let f (off lsb w : Nat) : Nat := d.field (16 + off) lsb w
  let h : ColHdr := { op := f 3 0 4, func := f 3 4 4, dtype := f 4 0 4, mode := f 4 4 2, s := f 10 0 12, count := f 12 0 32 }
  { c := { tree := f 0 0 12, gen := f 2 0 8, csn := f 5 0 24, idx := f 8 0 12, set := Hdr.setTag d.hdr, h := h, st := .gather, folded := [],
           stored := [], acc := ⟨Data.empty, 0, 0, false⟩ },
    x := ⟨Data.empty, f 16 0 3, f 17 0 27, f 4 6 1 == 1⟩,
    rest := d.slice 48 (d.len - 48) }

/-- Bytes of payload a packet carries. -/
def ColPkt.bytes (k : ColPkt) (type : Nat) : Nat :=
  if k.c.h.op = 3 then 0
  else if type = 0x21 then k.c.h.downBytes k.c.idx
  else if k.c.h.op = 1 ∧ ¬ k.x.present then 0
  else k.c.h.upBytes k.c.idx

/-- R416 step 5: the payload, if the packet is in order. -/
def State.colOpen (s : State) (k : ColPkt) (d : Data) (type port : Nat) : Option Data :=
  let n := k.bytes type
  if s.gs k.c.set (Reg.COL_TREE.encrypt k.c.tree) = 0 then some (k.rest.slice 0 n)
  else
    (gcmOpen (s.treeKey k.c.set k.c.tree)
      (colIv (Hdr.src d.hdr) type k.c.gen k.c.csn k.c.idx k.c.tree (s.pp port).farPort)
      (aadHdr d.hdr ++ leBytes 32 (bits d.val 128 256)) (k.rest.slice 0 n).bytes (k.rest.slice n 16).bytes).map Data.ofBytes

/-- R416 whole, for a packet that arrived on `port`; `take` handles one that passes steps 1 to 5. -/
def State.colChecked (s : State) (d : Data) (type port : Nat) (take : State → ColPkt → State) : State :=
  let k := parseCol d
  let t := k.c.tree
  let set := k.c.set
  if ¬ s.treeValid set t ∨ s.treeGen set t ≠ k.c.gen then s.bump Ctr.COL_GEN_DROP_COUNT
  else if (s.colTree t).error then s.bump Ctr.COL_ERR_DROP_COUNT
  else if (type = 0x20 ∧ ¬ (s.treeChildren set t).contains port) ∨ (type = 0x21 ∧ (s.treeRoot set t ∨ s.treeParent set t ≠ port)) then
    s.bump Ctr.COL_HDR_DROP_COUNT
  else if serialCmp k.c.csn (s.colTree t).low 24 = .before then s.bump Ctr.COL_STALE_DROP_COUNT
  else
    match s.colOpen k d type port with
    | none => ((s.bump Ctr.COL_AUTH_FAIL_COUNT).raise (srcCol 1) 0 t).treeError t set 0x0C06 s.me none
    | some pay => take s { k with x := { k.x with data := pay } }

/-- The oldest packet at HB6, when COL runs and it has the type asked for; one of no collective type is dropped. -/
def State.colTake (s : State) (type : Nat) (go : State → Data → Nat → State) : State :=
  match s.hubQ 6 with
  | [] => s
  | (d, port) :: _ =>
    let ty := Hdr.type d.hdr
    if ¬ s.live then s
    else if ty = type then go (s.hubPop 6) d port
    else if ty = 0x20 ∨ ty = 0x21 ∨ ty = 0x22 then s
    else (s.hubPop 6).bump Ctr.COL_HDR_DROP_COUNT

/-- R416, R423: COL_UP_RX. -/
def execColUpRx (s : State) : Host.Outcome State Fault Refusal :=
  .next (s.colTake 0x20 (fun u d port =>
    u.colChecked d 0x20 port (fun w k => w.colInput k.c port k.x)))

/-- R423: CHUNK_SEND_UP: the READY chunk that is next in the stream of tree `t`. -/
def execChunkSendUp (t : Nat) (s : State) : Host.Outcome State Fault Refusal :=
  match s.nextReady t with
  | some c =>
    if ¬ s.live ∨ s.treeRoot c.set t then .next s
    else
      let s1 := s.sendChunk c c.acc 0x20 (s.treeParent c.set t)
      .next ((s1.setChunk { c with st := .downwait }).setColTree t ((s.colTree t).advance c.h))
  | none => .next s

/-- R423, R424: COL_DOWN_RX. -/
def execColDownRx (s : State) : Host.Outcome State Fault Refusal :=
  .next (s.colTake 0x21 (fun u d port =>
    u.colChecked d 0x21 port (fun w k =>
      match w.chunk? k.c.tree k.c.gen k.c.csn k.c.idx with
      | none => w.colOverrun k.c.tree k.c.set
      | some c =>
        if c.h ≠ k.c.h then w.treeError c.tree c.set 0x0C03 w.me none
        else if c.st ≠ .downwait then w.colOverrun c.tree c.set
        else ((w.bump Ctr.COL_DOWN_PKT_COUNT).toForward { c with acc := k.x }).settleCol)))

/-- R435: COL_ABORT_RX. -/
def execColAbortRx (s : State) : Host.Outcome State Fault Refusal :=
  .next (s.colTake 0x22 (fun u d port =>
    let k := parseCol d
    let t := k.c.tree
    if ¬ u.treeValid k.c.set t ∨ u.treeGen k.c.set t ≠ k.c.gen ∨ (u.colTree t).error then u
    else u.treeError t k.c.set (d.field 37 0 16) (d.field 40 0 20) (some port)))

/-- R434: COL_OP_TIMEOUT of tree `t` at its root. -/
def execColOpTimeout (t : Nat) (s : State) : Host.Outcome State Fault Refusal :=
  let lim := s.g Reg.COL_CFG.op_limit
  let root := (s.treeValid 0 t && s.treeRoot 0 t) || (s.treeValid 1 t && s.treeRoot 1 t)
  if s.live ∧ root ∧ lim ≠ 0 ∧ s.col.opens.any (fun e => e.1 / 2 ^ 24 == t && lim ≤ s.over e.2) then
    .next (s.treeError t s.crs.active 0x0C05 s.me none)
  else .next s

/-! ### COL_TREE writes and COL_CMD (R408, R409, R438) -/

/-- R408: the shadow entry of a tree breaks its definition. -/
def State.treeBad (s : State) (t : Nat) : Bool :=
  let sh := 1 - s.crs.active
  let p := s.treeParent sh t
  let ok (set : Nat) : Bool := let r := s.role set p; r == 1 || r == 2 || r == 3
  s.gs sh (Reg.COL_TREE.valid t) == 1 && !s.treeRoot sh t &&
    (bit (s.treeMask sh t) p || !ok sh || (s.gs s.crs.active (Reg.COL_TREE.valid t) == 1 && !ok s.crs.active))

/-- R408, R409: a shadow write to a word of COL_TREE, as the state stands after it, is kept or discarded. -/
def State.treeWrite (s after : State) (t : Nat) : State :=
  if after.treeBad t then s.put Reg.COL_STATUS.def_err 1
  else if after.slotsReserved > 2048 then s.put Reg.COL_STATUS.over_commit 1
  else after

/-- R71: the shadow takes no writes. -/
def State.shadowClosed (s : State) : Bool := s.crs.armed || s.crs.busyEnd.isSome || s.crs.copyBusy

/-- R438: the result of a command, and its effect. -/
def State.colRun (s : State) (req : Requester) (opcode : Nat) : State × Nat :=
  let arg (i : Nat) : Nat := s.word (Reg.COL_CMD_ARG.off i)
  let t := bits (arg 0) 0 12
  if ¬ req.mgmt then (s, 1)
  else if opcode = 1 then
    if s.shadowClosed then (s, 2)
    else
      let key := (List.range 8).foldl (fun a i => a + s.word (Reg.COL_KEY.off i) <<< (32 * i)) 0
      (({ s with col := { s.col with keys := Tbl.put (fun _ => 0) s.col.keys ((1 - s.crs.active) * 4096 + t) key } }).tableWrite (tagTreeKey t) 8, 0)
  else
    let x := s.colTree t
    let c := bits (arg 1) 0 24
    let k := arg 2 + bits (arg 3) 0 16 * 2 ^ 32
    let d := (BitVec.ofNat 48 k - s.crs.course).toNat
    if ¬ x.error then (s, 2)
    else if d < 2 ∨ d ≥ 2 ^ 47 ∨ c < x.seen then (s, 3)
    else (s.setColTree t { x with resume := some (c, BitVec.ofNat 48 k) }, 0)

/-- R438: a write of COL_CMD. -/
def State.colCmd (s : State) (req : Requester) (v : Nat) : State :=
  let op := bits v 0 8
  if op ≠ 1 ∧ op ≠ 2 then s.badAccess
  else
    let r := (s.put Reg.COL_CMD.opcode op).colRun req op
    (r.1.put Reg.COL_CMD_STATUS.requester req.identity).put Reg.COL_CMD_STATUS.result r.2

/-- R437: a tree whose course K has come returns to OK. -/
def State.treeResume (s : State) (t : Nat) : State :=
  let x := s.colTree t
  match x.resume with
  | some (c, k) =>
    if x.error ∧ serialLe k.toNat s.course 48 ∧ ¬ s.col.badTrees.contains t then
      let s1 := s.setColTree t { x with error := false, low := c, lowPos := 0, fwd := 0, sendCsn := c, sendIdx := 0, resume := none }
      { s1 with col := { s1.col with members := s1.col.members.map (fun e => if e.1 / 65536 = t then (e.1, ⟨c, 0⟩) else e) } }
    else s
  | none => s
/-- R69, R437: at cycle 0 of a course every tree that is due. -/
def State.resumeTrees (s : State) : State := (Tbl.keys s.col.trees).foldl (fun u t => u.treeResume t) s

/-- R437: TREE_RESUME_EFFECT: at cycle 0 of course K. -/
def execTreeResumeEffect (t : Nat) (s : State) : Host.Outcome State Fault Refusal :=
  if s.crs.cycle = 0 then .next (s.treeResume t) else .next s

end Sys2Proof.Machine
end

