-- ==== Sys2Proof/Machine/Settle.lean ====
section
/-! DEFINITION. What operations mean when they finish (R292, R352, R355, R356, R373, R378, R384, R399): the work the device
does of itself as soon as it can, after a command and at every tick. -/
namespace Sys2Proof.Machine

/-- The SKIP a message operation owes when it fails (R355). -/
def Op.skipOwed (o : Op) : Skip :=
  { ctx := o.ctx, srcEp := o.srcEp, dst := ctxRemote o.ctx * 65536 + o.dstEp, context := bits o.fields 0 16, msn := bits o.fields 16 24 }
def State.oweSkip (s : State) (k : Skip) : State := s.onMch (fun m => { m with skips := m.skips ++ [k] })

/-- The rendezvous entry of an index and generation, if it still stands (R335). -/
def State.rv? (s : State) (i gen : Nat) : Option Rv := (Tbl.find? s.mch.rvs i).filter (fun x => x.gen == gen)
/-- Free a rendezvous entry (R352). -/
def State.freeRv (s : State) (i : Nat) : State :=
  s.onMch (fun m => { m with rvs := Tbl.del m.rvs i, rvGens := Tbl.put (fun _ => 0) m.rvGens i ((Tbl.get (fun _ => 0) m.rvGens i + 1) % 2 ^ 17) })
def Rv.skipOwed (r : Rv) : Skip := { ctx := r.ctx, srcEp := r.srcEp, dst := r.dst, context := r.context, msn := r.msn }
/-- A rendezvous send ends with a status other than OK: its entry finishes, and it owes a SKIP. -/
def State.rvFail (s : State) (i : Nat) (x : Rv) (r : Res) : State := ((s.freeRv i).finishEntry x.q x.ctr r).oweSkip x.skipOwed

/-- R373: the signal of a put-with-notify, once every PUT packet has RESULT OK. -/
def State.sendSignal (s : State) (q : Nat) (ctr : RingCtr) (o : Op) : State :=
  match s.sq? q with
  | none => s
  | some v =>
    match v.ents.find? (fun e => e.ctr == ctr) with
    | none => s
    | some e =>
      let add := Wqe.at_ e.raw 21 0 1 = 1
      s.newOp { Op.base o.ctx 0 (.signal q ctr o.opLen) o.srcEp o.dstEp 0x43 8
                  (packB [(0, 32, Wqe.at_ e.raw 48 0 32), (4, 48, Wqe.at_ e.raw 52 0 32), (10, 8, 2), (11, 8, (if add then 0 else 4) + 16)]) with
                pay := .bytes ⟨16, Wqe.at_ e.raw 56 0 64⟩, resp := 1, ordered := o.ordered, identity := o.identity, tc := o.tc, pre := o.pre }

/-- The work opcode of an entry. -/
def State.entryOp (s : State) (q : Nat) (ctr : RingCtr) : Nat :=
  match (s.sq? q).bind (fun v => v.ents.find? (fun e => e.ctr == ctr)) with
  | some e => Wqe.op e.raw
  | none => 0

/-- R384: the old value an atomic returned, low 64 bits. -/
def Op.oldValue (o : Op) : Nat :=
  match o.pay with
  | .bytes d => if o.opcode = 0x43 ∧ Rf.fetch (o.fields <<< 152) then d.val % 2 ^ 64 else 0
  | _ => 0

/-- A work entry's operation has finished. -/
def State.entryDone (s : State) (n : Nat) (o : Op) (q : Nat) (ctr : RingCtr) (r : Res) : State :=
  let s1 := s.delOp n
  if r.status ≠ 0 then
    let s2 := s1.finishEntry q ctr r
    if o.opcode = 0x10 then s2.oweSkip o.skipOwed else s2
  else if s.entryOp q ctr = 0x12 then s1.sendSignal q ctr o
  else s1.finishEntry q ctr { r with aux := o.oldValue }

/-- A failed response of a pull (R356): the receiver is told with a RESULT in place of the remaining RV_DATA. -/
def State.rvDataFail (s : State) (o : Op) (rv gen : Nat) (r : Res) : State :=
  let s1 := match s.rv? rv gen with
    | some x => s.rvFail rv x r
    | none => s
  if r.status = stLOCAL ∨ r.status = stHOST_BUS then
    match o.dest with
    | .bytes d => s1.newOp (Op.base o.ctx 1 .reply o.srcEp o.dstEp 0x01 0 (resultFields (bits d.val 0 24) (bits d.val 24 8) stREMOTE 0x0211 0))
    | _ => s1
  else s1

/-- R371, R378: the RESULT that stands for the GET_DATA not sent holds a reference until it is acknowledged; the GET_DATA already sent,
of operation `n`, keep theirs until they are. -/
def State.getFail (s : State) (n : Nat) (o : Op) (uid : Nat) (r : Res) : State :=
  match o.dest with
  | .bytes d =>
    if r.status = stTRANSPORT then s.dropRef uid
    else ((s.setOp n { o with total := o.next, done := none }).addRef uid).newOp { Op.base o.ctx 1 (.getData uid 0 0 0 0 false) o.srcEp o.dstEp 0x01 0 (resultFields (bits d.val 0 24) (bits d.val 24 8) r.status r.detail 0) with
                   dest := o.dest }
  | _ => s.dropRef uid

/-- What a finished operation leads to. -/
def State.opFinished (s : State) (n : Nat) (o : Op) (r : Res) : State :=
  let s1 := s.delOp n
  match o.origin with
  | .entry q c => s.entryDone n o q c r
  | .signal q c len => s1.finishEntry q c (if r.status = 0 then Res.ok len else r)
  | .rts rv gen =>
    match s.rv? rv gen with
    | some x =>
      if r.status ≠ 0 then s1.rvFail rv x r
      else s1.onMch (fun m => { m with rvs := Tbl.ins m.rvs rv { x with heldFrom := some (x.heldFrom.getD s.nowAt) } })
    | none => s1
  | .skip => if r.status ≠ 0 ∧ r.status ≠ stEP_UNAVAILABLE then s1.oweSkip o.skipOwed else s1
  | .rvGet i g =>
    match s.hdr? i with
    | some h => if r.status ≠ 0 ∧ s.hdrGen i = g ∧ h.recv.isSome then s1.completeRecv i h r.status r.detail else s1
    | none => s1
  | .rvAbandon => s1
  | .rvData rv gen =>
    if r.status ≠ 0 then s1.rvDataFail o rv gen r
    else
      match s.rv? rv gen with
      | some x => (s1.freeRv rv).finishEntry x.q x.ctr (Res.ok x.pulled)
      | none => s1
  | .getData uid _ _ _ _ _ => if r.status ≠ 0 ∧ o.opcode = 0x42 then s1.getFail n o uid r else s1.dropRef uid
  | .atomic id => s1.onRma (fun x => { x with results := Tbl.del x.results id })
  | .reply => s1
  | .flEntry _ _ _ => s.flFailed n o (if r.status = 0 then Res.of stREMOTE 0 else r)
  | .flPoll _ => s.flFailed n o r
  | .flAbandon _ => s.flFailed n o r
  | .brgWrite id => if r.status = 0 then s1.onBrg (fun b => { b with writes := Tbl.del b.writes id }) else s
  | .brgRead _ => s
  | .brgPrefetch id => s.prefetchDone id n r

/-- R292: an operation that is finished but not yet noted: acknowledged, and every response accepted. -/
def State.nowDone (s : State) (i : Nat) (o : Op) : Bool := o.done.isNone && decide (o.got ≥ o.resp) && s.opAcked i o

/-- One operation: note that it is finished, note when its last request was acknowledged (R323), act on the finish. -/
def State.settleOp (s : State) (i : Nat) : State :=
  match s.op? i with
  | none => s
  | some o =>
    let s1 := if s.nowDone i o then s.finishOp i (Res.ok o.opLen)
      else if o.ackedAt.isNone && o.done.isNone && s.opAcked i o then s.setOp i { o with ackedAt := some s.nowAt } else s
    match s1.op? i with
    | some p =>
      match p.done with
      | some r => s1.opFinished i p r
      | none => s1
    | none => s1

/-- R310: the cache-full condition ends when a context can be evicted again. -/
def State.settleCache (s : State) : State :=
  if (s.src (srcTrn 2)).real && s.trn.ctxs.any (fun e => !s.pinned e.1 e.2) then s.level (srcTrn 2) false else s

/-- Everything the device does of itself: operations that have finished, messages, window reads, collectives. -/
def State.settle (s : State) : State :=
  let s1 := (Tbl.keys s.trn.ops).foldl (fun t i => t.settleOp i) s
  s1.settleMch.settleBrg.settleCol.settleCache.settleReset.settleXlt

end Sys2Proof.Machine
end

