-- ==== Sys2Proof/Machine/TrnCmd.lean ====
section
/-! DEFINITION. The meanings of the transport's commands (spec/09). -/
namespace Sys2Proof.Machine

/-! ### Contexts (R286, R288, R310, R311) -/

/-- R310: make room for one more context, where an ECC repair has made the cache smaller meanwhile. -/
def State.makeRoom (s : State) : State := if s.trn.ctxs.length < s.cacheCap 8 65536 then s else s.evictOne true

/-- R288: a record has been read. -/
def State.recordRead (s : State) (k : Nat) (d : Data) (inbound : Bool) : State :=
  match s.slot? (ctxSlot k) with
  | none => s
  | some sl =>
    let s1 := (s.bump Ctr.TRN_REFILL_COUNT).makeRoom
    if s1.trn.ctxs.length ≥ s1.cacheCap 8 65536 then s1
    else if d.field 12 0 1 = 1 ∧ d.field 8 0 32 = sl.epoch then ((s1.fillBank 8 k).setCtx k { Ctx.ofRec d with inbound := inbound }).resetLoaded k
    else
      let f := (s1.fillBank 8 k).freshCtx sl.epoch
      ((f.2.bump Ctr.TRN_CTX_CREATE_COUNT).setCtx k { f.1 with inbound := inbound }).resetLoaded k

/-- R311, R326: what follows a failed record read, beside raising the source. A CTX_RESET that waited for the record has no context to
reset, and none of the failures of TRN_CMD_STATUS applies: it ends with 0x0 (notes/assumptions/51). -/
def State.recordBad (s : State) (k cause : Nat) (inbound : Bool) : State :=
  let s2 := (s.trn.ops.filter (fun e => e.2.ctx == k && e.2.stream == 0)).foldl (fun t e => t.finishOp e.1 (Res.of stHOST_BUS cause)) s
  let s3 := if inbound then { s2 with trn := { s2.trn with loadErr := s2.trn.loadErr ++ [k] } } else s2
  if s3.trn.resetDue = some k then ({ s3 with trn := { s3.trn with resetDue := none } }).trnResult 0 else s3

/-- R288, R311: CONTEXT_LOAD: the read of context `k`'s record returns. -/
def execContextLoad (k : Nat) (r : ReadResult) (s : State) : Host.Outcome State Fault Refusal :=
  match s.trn.loads.find? (fun e => e.1 == k) with
  | none => .next s
  | some e =>
    let s1 := { s with trn := { s.trn with loads := s.trn.loads.filter (fun x => x.1 != k) } }
    match r with
    | .data d => .next (s1.recordRead k d e.2).settle
    | .error c => .next ((s1.raise (srcTrn 3) 0 (ctxRegion k)).recordBad k c e.2).settle

/-- R310: CONTEXT_EVICT. -/
def execContextEvict (k : Nat) (s : State) : Host.Outcome State Fault Refusal :=
  match s.ctx? k with
  | some c => if s.pinned k c then .next s else .next (s.spill k c)
  | none => .next s

/-! ### Packets (R296-R302) -/

/-- R296: TRANSPORT_SEND: the next packet of operation `i`; `hm` is host memory as its source reads find it. -/
def execTransportSend (i : Nat) (hm : HostView) (s : State) : Host.Outcome State Fault Refusal :=
  match s.op? i with
  | none => .next s
  | some o =>
    let s1 := match o.origin with
      | .getData _ _ _ _ _ _ => if s.live then s.readGet i o else s
      | _ => s
    .next (s1.transportSend i hm).settle

/-- R298: TRANSPORT_RX at hub port `h`. -/
def execTransportRx (h : Nat) (s : State) : Host.Outcome State Fault Refusal :=
  if h < 6 then .next (s.transportRx h).settle else .next s

/-- R302: ACK_RX at hub port `h`. -/
def execAckRx (h : Nat) (s : State) : Host.Outcome State Fault Refusal :=
  if h < 6 then .next (s.ackRx h).settle else .next s

/-- R301: ACK_COALESCE_EXPIRY. -/
def execAckCoalesceExpiry (k st : Nat) (s : State) : Host.Outcome State Fault Refusal :=
  match s.ctx? k with
  | some c =>
    match (c.rxS st).firstAt with
    | some t => if st < 2 ∧ s.live ∧ s.cycles ≥ t + s.g Reg.TRN_ACK_CFG.coalesce then .next (s.sendAck k st) else .next s
    | none => .next s
  | none => .next s

/-- R301: ACK_RATE_RELEASE. -/
def execAckRateRelease (k st : Nat) (s : State) : Host.Outcome State Fault Refusal :=
  match s.ctx? k with
  | some c =>
    let r := c.rxS st
    if st < 2 ∧ s.live ∧ r.waiting ∧ s.cycles ≥ r.lastAck.getD 0 + 64 then .next (s.sendAck k st) else .next s
  | none => .next s

/-! ### RESULT (R292, R308, R369) -/

/-- R308: a receiver-not-ready refusal of an operation. -/
def State.rnrRefused (s : State) (i : Nat) (o : Op) : State :=
  let s1 := s.bump Ctr.TRN_RNR_COUNT
  let lim := s.g Reg.TRN_RNR_CFG.limit
  if lim ≠ 0 ∧ o.rnr + 1 > lim ∧ o.origin ≠ .skip then s1.finishOp i (Res.of stEP_UNAVAILABLE 5)
  else s1.setOp i { o with rnr := o.rnr + 1, rnrAt := some s.nowAt, ackedAt := none }

/-- What a RESULT does to its operation. -/
def State.resultFor (s : State) (i : Nat) (o : Op) (status detail : Nat) : State :=
  if status = 0 then s.setOp i { o with got := o.got + 1 }
  else if status = stEP_UNAVAILABLE ∧ detail = 6 then s.rnrRefused i o
  else s.finishOp i (Res.of status detail)

/-- R292: RESULT_RX: the oldest accepted RESULT. -/
def execResultRx (s : State) : Host.Outcome State Fault Refusal :=
  match s.front [0x01] with
  | none => .next s
  | some a =>
    match s.requestOf a (Th.at_ a.th 19 0 24) (Th.at_ a.th 22 0 8) with
    | some (i, o) =>
      if o.done.isSome ∨ o.rnrAt.isSome then .next ((s.takeArr a).bump Ctr.RMA_LATE_RESULT_COUNT)
      else .next ((s.takeArr a).resultFor i o (Th.at_ a.th 23 0 8) (Th.at_ a.th 24 0 16)).settle
    | none => .next ((s.takeArr a).bump Ctr.RMA_LATE_RESULT_COUNT)

/-! ### Retransmission (R303-R305), rolls and errors (R317, R322, R323) -/

/-- R303: the duration of a stream's timer, in core cycles. -/
def State.rto (s : State) (backoff : Nat) : Nat :=
  (s.g Reg.TRN_RETX_CFG.rto_courses * 1280 + s.g Reg.TRN_RETX_CFG.rto_cycles) * 2 ^ backoff

/-- R303: RETX_TIMER_EXPIRY. -/
def execRetxTimerExpiry (k st : Nat) (s : State) : Host.Outcome State Fault Refusal :=
  match s.ctx? k with
  | none => .next s
  | some c =>
    let t := c.txS st
    let d := s.rto t.backoff
    match t.timer with
    | none => .next s
    | some from_ =>
      if st ≥ 2 ∨ ¬ s.live ∨ s.cycles < from_ + d then .next s
      else
        let old := t.pkts.filter (fun p => !p.sacked && (match p.sent with | some x => decide (x + d ≤ s.cycles) | none => false))
        let s1 := (s.bump Ctr.TRN_TIMEOUT_COUNT).onCtx k (fun c => c.setTx st { t with
          timer := some s.cycles, backoff := max t.backoff (min (t.backoff + 1) (s.g Reg.TRN_RETX_CFG.max_backoff)) })
        .next (old.foldl (fun u p => u.retransmit k st p.psn) s1).settle

/-- R304: a packet may be retransmitted early: at most once per transmission, since a new one then waits and is sent anew. -/
def State.earlyDue (s : State) (t : StreamTx) (p : TxPkt) : Bool :=
  let n := s.g Reg.TRN_RETX_CFG.frtx_count
  n != 0 && !p.sacked && !p.waiting &&
  (match p.sent with | some x => decide (x + s.g Reg.TRN_RETX_CFG.frtx_courses * 1280 ≤ s.cycles) | none => false) &&
  decide ((t.pkts.filter (fun y => y.sacked && serialCmp p.psn y.psn 24 == .before)).length ≥ n)

/-- R304: EARLY_RETX: the first packet of the stream that is due. -/
def execEarlyRetx (k st : Nat) (s : State) : Host.Outcome State Fault Refusal :=
  match s.ctx? k with
  | none => .next s
  | some c =>
    let t := c.txS st
    match t.pkts.find? (fun p => s.earlyDue t p) with
    | some p =>
      if st < 2 ∧ s.live then
        let u := s.retransmit k st p.psn
        .next (u.onCtx k (fun c => let t := c.txS st
          c.setTx st { t with pkts := t.pkts.map (fun x => if x.psn = p.psn then { x with early := true } else x) })).settle
      else .next s
    | none => .next s

/-- R317: the send direction begins a new generation. -/
def Ctx.nextGen (c : Ctx) : Ctx :=
  { c with txGen := c.txGen + 1, state := 0, ordValid := false,
           tx := c.tx.map (fun t => { t with next := 0, acked := 0xFFFFFF, pkts := [], timer := none, ordMark := none }) }

/-- R317: GENERATION_ROLL. -/
def execGenerationRoll (k : Nat) (s : State) : Host.Outcome State Fault Refusal :=
  match s.ctx? k with
  | some c =>
    if c.state ≠ 1 ∨ c.tx.any (fun t => !t.pkts.isEmpty) ∨ s.trn.ops.any (fun e => e.2.ctx == k && e.2.midway) ∨ ¬ s.live then .next s
    else if c.txGen = 0xFFFFFFFF then .next (s.ctxError k 7 none).settle
    else .next ((s.onCtx k Ctx.nextGen).bump Ctr.TRN_ROLL_COUNT)
  | none => .next s

/-- R322: CTX_ERROR_EXIT. -/
def execCtxErrorExit (k : Nat) (s : State) : Host.Outcome State Fault Refusal :=
  match s.ctx? k with
  | some c =>
    if c.state ≠ 2 ∨ c.errDetail = 7 ∨ ¬ s.live ∨ s.since c.errCourse < 2 * s.life then .next s
    else if c.txGen = 0xFFFFFFFF then .next (s.ctxError k 7 none).settle
    else .next (s.onCtx k Ctx.nextGen)
  | none => .next s

/-- R308: RNR_RESEND: the whole operation is sent again with new PSNs. -/
def execRnrResend (i : Nat) (s : State) : Host.Outcome State Fault Refusal :=
  match s.op? i with
  | some o =>
    match o.rnrAt with
    | some c =>
      if s.live ∧ o.done.isNone ∧ s.over c ≥ max 1 (s.g Reg.TRN_RNR_CFG.delay) then
        .next (s.setOp i { o with next := 0, sent := [], got := 0, rnrAt := none, ackedAt := none })
      else .next s
    | none => .next s
  | none => .next s

/-- R323: RESPONSE_TIMEOUT. -/
def execResponseTimeout (i : Nat) (s : State) : Host.Outcome State Fault Refusal :=
  match s.op? i with
  | some o =>
    match o.ackedAt with
    | some c =>
      if o.stream = 0 ∧ o.done.isNone ∧ o.rnrAt.isNone ∧ o.got < o.resp ∧ s.over c ≥ max 1 (s.g Reg.TRN_ACK_CFG.resp_limit) then
        .next (s.finishOp i (Res.of stTRANSPORT 5)).settle
      else .next s
    | none => .next s
  | none => .next s

/-! ### TRN_CMD (R325, R326) -/

/-- An endpoint names a slot, perhaps only those of one host port. -/
def State.slotNamed (s : State) (slot : Nat) (hp : Option Nat) : Bool :=
  s.hif.eps.any (fun e => e.2.slot == slot && (match hp with | some h => hpOf e.2.owner == h | none => true))
/-- A region of a slot is enabled. -/
def State.slotRegions (s : State) (slot : Nat) : Bool := s.trn.regions.any (fun e => e.1 % 1024 == slot)
/-- R53: 2 × LIFE courses have not passed since a noted cycle. -/
def State.recent (s : State) (t : Tbl When) (k : Nat) : Bool :=
  match Tbl.find? t k with
  | some c => decide (s.over c < 2 * s.life)
  | none => false

/-- The contexts of a region go: unpinned dirty ones are written back unless `lose`; operations finish with a detail. -/
def State.regionEnd (s : State) (hp slot detail : Nat) (lose : Bool) : State :=
  let r := hp * 1024 + slot
  let mine := s.trn.ctxs.filter (fun e => ctxRegion e.1 == r)
  let s1 := mine.foldl (fun t e => if lose ∨ t.pinned e.1 e.2 then { t with trn := { t.trn with ctxs := Tbl.del t.trn.ctxs e.1 } } else t.spill e.1 e.2) s
  let ops := s1.trn.ops.filter (fun e => ctxRegion e.2.ctx == r)
  let s2 := ops.foldl (fun t e => t.finishOp e.1 (Res.of stTRANSPORT detail)) s1
  let t : Trn := s2.trn
  let keepCtx (k : Nat) : Bool := ctxRegion k != r
  let t1 : Trn := { t with regions := Tbl.del t.regions r, cleared := Tbl.ins t.cleared r s.nowAt,
                           loads := t.loads.filter (fun e => keepCtx e.1), loadErr := t.loadErr.filter keepCtx,
                           accepted := t.accepted.filter (fun a => keepCtx a.ctx) }
  let inj : Tbl (List InjPkt) := s2.sch.inj.map (fun e => (e.1, e.2.filter (fun p => keepCtx p.ctx)))
  let s3 : State := { s2 with trn := t1, sch := { s2.sch with inj := inj } }
  if s3.trn.resetDue.map ctxRegion = some r then ({ s3 with trn := { s3.trn with resetDue := none } }).trnResult 0 else s3

/-- R325: write back the dirty unpinned contexts of a region, and uncache them. -/
def State.regionFlush (s : State) (r : Nat) : State :=
  (s.trn.ctxs.filter (fun e => ctxRegion e.1 == r && e.2.dirty && !s.pinned e.1 e.2)).foldl (fun t e => t.spill e.1 e.2) s

/-- KEY_SET's key bytes. -/
def State.trnKey (s : State) : Nat := (List.range 8).foldl (fun a i => a + s.word (Reg.TRN_KEY.off i) <<< (32 * i)) 0
/-- Records of all enabled regions (R286). -/
def State.regionTotal (s : State) : Nat := s.trn.regions.foldl (fun a e => a + 2 ^ e.2.k) 0

/-- R325, R326: what a command answers: its result code, or that it goes on (CTX_RESET of an uncached context). -/
def State.trnRun (s : State) (req : Requester) (op : Nat) : State × Option Nat :=
  let arg (i : Nat) : Nat := s.word (Reg.TRN_CMD_ARG.off i)
  let slot := bits (arg 0) 0 10
  let hp := bits (arg 0) 12 2
  let r := hp * 1024 + slot
  let pf : Bool := match req with
    | .fn i => decide (i = hp * 256)
    | _ => true
  let no (c : Nat) : State × Option Nat := (s, some c)
  let trn (f : Trn → Trn) : State := { s with trn := f s.trn }
  if (op ≤ 2 ∧ ¬ req.mgmt) ∨ (3 ≤ op ∧ pf = false) then no 1
  else if 3 ≤ op ∧ ¬ s.hpPresent hp then no 2
  else if op = 1 then
    let dom := bits (arg 1) 0 16
    if s.slotNamed slot none ∨ s.slotRegions slot ∨ s.trn.slots.any (fun e => e.1 != slot && e.2.domain == dom) then no 3
    else if s.recent s.trn.slotEnd slot then no 4
    else
      let v : Slot := ⟨dom, arg 2, s.trnKey, bit (arg 1) 16, bits (arg 1) 17 4, bit (arg 1) 21⟩
      ((trn (fun t => { t with slots := Tbl.ins t.slots slot v })).tableWrite (tagKey slot) 8, some 0)
  else if op = 2 then
    if s.slotNamed slot none ∨ s.slotRegions slot then no 3
    else ((trn (fun t => { t with slots := Tbl.del t.slots slot })).tableWrite (tagKey slot) 8, some 0)
  else if op = 3 then
    let k := bits (arg 1) 0 5
    let base := arg 2 + arg 3 * 2 ^ 32
    if k > 20 ∨ base % 4096 ≠ 0 ∨ s.regionTotal + 2 ^ k > 4194304 then no 2
    else if (s.region? hp slot).isSome then no 3
    else if s.recent s.trn.cleared r then no 4
    else
      match s.slot? slot with
      | none => no 5
      | some sl =>
        if Tbl.find? s.trn.stale r = some sl.epoch then no 5
        else (trn (fun t => { t with regions := Tbl.ins t.regions r ⟨k, base⟩ }), some 0)
  else if op = 4 then
    if s.slotNamed slot (some hp) then no 3 else (s.regionEnd hp slot 4 false, some 0)
  else if op = 5 then
    let k := ctxKey hp slot (bits (arg 1) 0 22)
    if ¬ s.covered hp slot (bits (arg 1) 0 22) then no 0
    else
      let n := s.needCtx k false
      match n.2 with
      | .have_ _ => (n.1.ctxError k 3 none, some 0)
      | _ => ({ n.1 with trn := { n.1.trn with resetDue := some k } }, none)
  else (s.regionFlush r, some 0)

/-- R325: a write of TRN_CMD. -/
def State.trnCmd (s : State) (req : Requester) (v : Nat) : State :=
  let op := bits v 0 8
  if op = 0 ∨ 6 < op then s.badAccess
  else if s.g Reg.TRN_CMD_STATUS.busy = 1 then s
  else
    let s1 := (s.put Reg.TRN_CMD.opcode op).put Reg.TRN_CMD_STATUS.requester req.identity
    let r := s1.trnRun req op
    match r.2 with
    | some c => (r.1.put Reg.TRN_CMD_STATUS.result c).settle
    | none => r.1.put Reg.TRN_CMD_STATUS.busy 1

end Sys2Proof.Machine
end

