-- ==== Sys2Proof/Machine/Bst.lean ====
section
/-! DEFINITION. The self-test slices (spec/15, R477-R489): start, readiness, test, repair, retirement, skip, abort, and the
BST commands; and the accounts of a sweep. -/
namespace Sys2Proof.Machine

/-- The slice may go on in the mode the device is in: TRANSIT or SERVICE (R477, R479), or DRAIN where it was started there (R480). -/
def State.sliceMode (s : State) : Bool :=
  if s.bst.inDrain then s.mode == .drain else s.mode == .transit || s.mode == .service

/-- R479: a slice begins PREPARE for a unit. -/
def State.sliceBegin (s : State) (cls unit : Nat) (byRun : Bool) : State :=
  let s1 := ((((s.put Reg.BST_STATUS.active 1).put Reg.BST_STATUS.phase 1).put Reg.BST_STATUS.cls cls).put Reg.BST_STATUS.unit unit).put
    Reg.BST_LOG.used 0
  let b : Bst := { s1.bst with began := some (if byRun then s.nowAt else ⟨s.crs.course, 0⟩), byRun := byRun, inDrain := s.mode == .drain, enabled := s.g Reg.BST_CFG.enable == 1,
                               retested := false }
  let s2 := { s1 with bst := b }
  if cls = 4 then s2.bankPool unit true else s2

/-- R477, R480: the schedule entry of the slot that begins now: its own, or in an idle slot the first that waits for a retry. -/
def State.slotEntry (s : State) : Option Nat :=
  let j := s.course % 2 ^ 24 / 4096
  if j < 1424 then some j else s.bst.retry.head?

/-- R68, R477, R479: SLICE_START, in cycles 384 to 1,151 of the slot's first course; MC2, which sequences self-test (R18), runs. -/
def execSliceStart (s : State) : Host.Outcome State Fault Refusal :=
  let n := s.course / 4096
  if (s.mode = .transit ∨ s.mode = .service) ∧ s.coreRuns 2 ∧ s.g Reg.BST_CFG.enable = 1 ∧ ¬ s.slicing ∧ s.course % 4096 = 0 ∧ 384 ≤ s.crs.cycle ∧
      s.crs.cycle ≤ 1151 ∧ s.bst.slot ≠ some n then
    let s1 := { s with bst := { s.bst with slot := some n } }
    match s.slotEntry with
    | none => .next s1
    | some e =>
      let b := if e = s.course % 2 ^ 24 / 4096 then s1.bst
        else { s1.bst with retry := s1.bst.retry.drop 1, retried := setAdd s1.bst.retried e }
      let u := entryUnit e
      if s.retired u.1 u.2 then .next { s1 with bst := b } else .next ({ s1 with bst := b }.sliceBegin u.1 u.2 false)
  else .next s

/-! ### Readiness (R481) -/

/-- A cached context is pinned or dirty. -/
def State.ctxBusy (s : State) (k : Nat) (c : Ctx) : Bool := s.pinned k c || c.dirty
/-- Entries of each cache that lie in a class 0x1 bank: none pinned, locked or dirty. -/
def State.bankQuiet (s : State) (unit : Nat) : Bool :=
  let c := Config.cacheOfBank unit
  let here (k : Nat) : Bool := s.bankOf c k == unit
  if c < 4 then (s.xu c).tlb.all (fun e => !here (e.as_ * 2 ^ 52 + e.page) || !e.locked)
  else if c < 8 then true
  else if c = 8 then s.trn.ctxs.all (fun e => !here e.1 || !s.ctxBusy e.1 e.2)
  else if c = 9 then s.rma.descs.all (fun e => !here e.1 || !s.descPinned e.2)
  else s.mch.orders.all (fun e => !here e.1 || !e.2.dirty)

/-- The entries of a class 0x1 bank are invalid from now on; one that is pinned, locked or dirty, which a bank that leaves by R481 has
not, stays until it is not. -/
def State.bankInvalid (s : State) (unit : Nat) : State :=
  let c := Config.cacheOfBank unit
  let keep (k : Nat) : Bool := s.bankOf c k != unit
  if c < 4 then
    let x := s.xu c
    s.setXu c { x with tlb := x.tlb.filter (fun e => e.locked || keep (e.as_ * 2 ^ 52 + e.page)) }
  else if c < 8 then
    let x := s.xu (c - 4)
    s.setXu (c - 4) { x with wc := x.wc.filter (fun e => keep (e.pfx * 16 + e.lvl)) }
  else if c = 8 then { s with trn := { s.trn with ctxs := s.trn.ctxs.filter (fun e => s.ctxBusy e.1 e.2 || keep e.1) } }
  else if c = 9 then s.onRma (fun r => { r with descs := r.descs.filter (fun e => s.descPinned e.2 || keep e.1) })
  else s.onMch (fun m => { m with orders := m.orders.filter (fun e => e.2.dirty || keep e.1) })

/-- R481: the conditions of readiness that the state can deny; the copying, mirroring and taking over itself is what the
command reports. -/
def State.unitReady (s : State) (cls unit : Nat) : Bool :=
  if cls = 1 then s.bankQuiet unit
  else if cls = 4 then (s.lk (unit / 6)).poolUsed + (s.lk (unit / 6)).poolCut ≤ 6144
  else true

/-- R475: the counts and windows of a unit's sources clear when it leaves service. -/
def State.clearCounts (s : State) (srcs : List Nat) : State := srcs.foldl (fun t g => t.setSrc g { t.src g with cnt := 0, start := 0 }) s

/-- R483: one step of the MISR of polynomial x^64 + x^4 + x^3 + x + 1: a word of test results enters. -/
def misrStep (m w : Nat) : Nat := ((m * 2 % 2 ^ 64) ^^^ (if bit m 63 then 0x1B else 0)) ^^^ (w % 2 ^ 64)
/-- The results of a test, 64 bits at a time from the least significant on, as many as they take. -/
def testWords (r : Nat) : List Nat := (List.range (r.log2 / 64 + 1)).map (fun i => bits r (64 * i) 64)
/-- R483: the results compressed into the MISR. -/
def misrFold (m r : Nat) : Nat := (testWords r).foldl misrStep m

/-- R479: a slice in progress must abort: the mode has left the slice's modes, or the enable has been cleared while it ran. -/
def State.abortDue (s : State) : Bool := !s.sliceMode || (s.bst.enabled && s.g Reg.BST_CFG.enable == 0)
/-- The sequencer of a slice takes its next step: MC2 runs (R18) and no abort is due. -/
def State.sliceGoes (s : State) : Bool := s.slicing && s.coreRuns 2 && !s.abortDue

/-- R479, R481, R483: UNIT_READY: the unit leaves service, the MISR is cleared and TEST begins. -/
def execUnitReady (s : State) : Host.Outcome State Fault Refusal :=
  let (cls, unit) := s.sliceUnit
  if s.sliceGoes ∧ s.g Reg.BST_STATUS.phase = 1 ∧ s.unitReady cls unit then
    let s1 := if cls = 1 then s.bankInvalid unit else s
    let gs := (sliceSources cls unit).map (fun p => match blocks.find? (fun b => b.code == p.1) with | some b => b.first + p.2 | none => 4095)
    .next { (s1.put Reg.BST_STATUS.phase 2).clearCounts gs with bst := { s1.bst with misr := 0 } }
  else .next s

/-- R479: SLICE_SKIP: the unit was not ready 1,024 courses after the slot began. -/
def execSliceSkip (s : State) : Host.Outcome State Fault Refusal :=
  match s.bst.began with
  | some c =>
    if s.sliceGoes ∧ s.g Reg.BST_STATUS.phase = 1 ∧ s.over c ≥ 1024 then
      .next (((s.sliceRetry.sliceEnd false).bump Ctr.BST_SKIP_COUNT).raise (srcBst 2) 0 0)
    else .next s
  | none => .next s

/-- R479, R480: SLICE_ABORT: the mode has left the slice's modes, or the enable has been cleared. -/
def execSliceAbort (s : State) : Host.Outcome State Fault Refusal :=
  if s.slicing ∧ s.g Reg.BST_STATUS.phase ≤ 3 ∧ s.abortDue then .next s.sliceAbort
  else .next s

/-! ### Signature, repair, retirement (R483-R487) -/

/-- Free repair records, lowest first. -/
def State.freeRecords (s : State) : List Nat := (List.range 512).filter (fun r => s.g (Reg.BST_REPAIR.valid r) == 0)
/-- R484, R485: add a repair record. -/
def State.addRecord (s : State) (r kind cls unit spare element : Nat) : State :=
  (((s.setWord (Reg.BST_REPAIR.off r) (pack [(31, 1, 1), (28, 2, kind), (24, 4, cls), (0, 10, unit)])).setWord (Reg.BST_REPAIR.off r + 4)
    (pack [(16, 16, spare), (0, 16, element)]))).bump Ctr.BST_REPAIR_COUNT
/-- Spares of a kind (0 rows, 1 columns) that a bank has left: their numbers. -/
def State.spares (s : State) (cls unit kind : Nat) : List Nat :=
  (List.range (if kind = 0 then 8 else 2)).filter (fun n =>
    !s.records.any (fun r => recKind r.2 == (kind, cls, unit) && s.g (Reg.BST_REPAIR.spare r.1) == n))
/-- R484: the failing rows and columns (kind, element) fit into the spares and the records that are left. -/
def State.suffices (s : State) (cls unit : Nat) (fails : List (Nat × Nat)) : Bool :=
  (cls ≤ 4 || cls == 7) &&
  (fails.filter (fun f => f.1 == 0)).length ≤ (s.spares cls unit 0).length &&
  (fails.filter (fun f => f.1 != 0)).length ≤ (s.spares cls unit 1).length && fails.length ≤ s.freeRecords.length
/-- R484: soft repair; which free spare takes an element is free. -/
def State.softRepair (s : State) (cls unit : Nat) (fails : List (Nat × Nat)) : State :=
  (fails.foldl (fun t f =>
    let kind := if f.1 = 0 then 0 else 1
    let left := t.spares cls unit kind
    let d := t.draw
    match t.freeRecords.head? with
    | some r => d.2.addRecord r kind cls unit (left.getD (d.1 % left.length) 0) f.2
    | none => t) s).raise (srcBst 0) 0 0

/-- R485: the number of a spare that can replace a unit, if one remains: of the 24 spare banks of classes 0x2 and 0x3 together, of
the one spare lane, of a segment's one spare plane, of the one spare group. -/
def State.spareUnit (s : State) (cls unit : Nat) : Option Nat :=
  let mine := s.records.filter (fun r =>
    let k := recKind r.2
    k.1 == 2 && (if cls = 2 ∨ cls = 3 then k.2.1 == 2 || k.2.1 == 3
                 else k.2.1 == cls && (cls != 6 || k.2.2 / 8 == unit / 8)))
  (List.range (if cls = 2 ∨ cls = 3 then 24 else 1)).find? (fun n => !mine.any (fun r => s.g (Reg.BST_REPAIR.spare r.1) == n))

/-- R485, R487: retire a unit. Banks of caches and input buffers have no spare: they stay out, with a record or, where none of the
512 is left, without one, and the repair-exhausted source says so. -/
def State.retireUnit (s : State) (cls unit : Nat) : State :=
  match s.freeRecords.head? with
  | none =>
    if cls = 1 ∨ cls = 4 then
      { s with bst := { s.bst with lost := s.bst.lost ++ [(cls, unit)] } }.raise (srcBst 3) 0 (if cls = 1 then Config.cacheOfBank unit else unit / 6)
    else s.raise (srcBst 4) 0 0
  | some r =>
    if cls = 1 then (s.addRecord r 2 cls unit 0 0).raise (srcBst 3) 0 (Config.cacheOfBank unit)
    else if cls = 4 then (s.addRecord r 2 cls unit 0 0).raise (srcBst 3) 0 (unit / 6)
    else
      match s.spareUnit cls unit with
      | some n => s.addRecord r 2 cls unit n 0
      | none => s.raise (srcBst 4) 0 0

/-- R483: the result of the unit's test, as the readback window shows it; its code is free. -/
def State.noteResult (s : State) (cls unit sig gold : Nat) : State :=
  let e := classStart cls + unit
  let d := s.draw
  let s1 := d.2
  { s1 with bst := { s1.bst with results := Tbl.ins s1.bst.results (e * 2) ⟨sig, gold, d.1 % 256, s.crs.course⟩, tested := setAdd s1.bst.tested e } }

/-- R479, R483: TEST_COMPLETE: the results `sig` of the test (64 bits, or several times 64, from the least significant on) enter the
MISR, which one word leaves as that word; CHECK, then repair and retest with the MISR cleared, retirement, or restore; then RETURN. -/
def execTestComplete (sig : Nat) (fails : List (Nat × Nat)) (s : State) : Host.Outcome State Fault Refusal :=
  let (cls, unit) := s.sliceUnit
  if s.sliceGoes ∧ s.g Reg.BST_STATUS.phase = 2 then
    let gold := Config.golden cls % 2 ^ 64
    let g := misrFold s.bst.misr sig
    let s0 := { s with bst := { s.bst with misr := g } }
    let s1 := (((s0.put Reg.BST_SIG.sig_lo g).put Reg.BST_SIG.sig_hi (g / 2 ^ 32)).put Reg.BST_SIG.gold_lo gold).put Reg.BST_SIG.gold_hi (gold / 2 ^ 32)
    let s2 := s1.noteResult cls unit g gold
    if g = gold then .next ((s2.sliceEnd false).bump Ctr.BST_SLICE_COUNT)
    else
      let s3 := s2.bump Ctr.BST_FAIL_COUNT
      if ¬ s3.bst.retested ∧ s3.g Reg.BST_CFG.repair_en = 1 ∧ s3.suffices cls unit fails ∧ fails ≠ [] then
        .next { s3.softRepair cls unit fails with bst := { s3.bst with retested := true, misr := 0 } }
      else .next (((s3.retireUnit cls unit).sliceEnd true).bump Ctr.BST_SLICE_COUNT)
  else .next s

/-! ### Commands (R480, R487) -/

/-- The command register takes the written value, and its result. -/
def State.bstResult (s : State) (v r : Nat) : State := (s.setWord Reg.BST_CMD.off (v % 2 ^ 26 - v % 2 ^ 12 + v % 16)).put Reg.BST_CMD_STATUS.result r

/-- R480: BST_CMD RUN. -/
def State.bstRun (s : State) (cls unit : Nat) : State × Nat :=
  if ¬ (s.mode = .transit ∨ s.mode = .service ∨ s.mode = .drain) ∨ s.slicing then (s, 2)
  else if unit ≥ unitCount cls ∨ s.retired cls unit then (s, 3)
  else (s.sliceBegin cls unit true, 0)

/-- R487: BST_CMD FUSE; `ok` says whether the fuses took the record. -/
def State.bstFuse (s : State) (rec : Nat) (ok : Bool) : State × Nat :=
  if s.mode ≠ .drain then (s, 2)
  else if rec ≥ 512 ∨ s.g (Reg.BST_REPAIR.valid rec) = 0 then (s, 3)
  else if s.g (Reg.BST_REPAIR.fused rec) = 1 then (s, 0)
  else if ok then
    let s1 := s.put (Reg.BST_REPAIR.fused rec) 1
    let w := s1.word (Reg.BST_REPAIR.off rec) + s1.word (Reg.BST_REPAIR.off rec + 4) * 2 ^ 32
    ({ s1 with bst := { s1.bst with fuses := Tbl.ins s1.bst.fuses rec w } }.emit (.fuse rec), 0)
  else (s.raise (srcBst 5) 0 0, 4)

/-- A write of BST_CMD by a requester; a command from any but a management core or the fabric manager gives PERMISSION. -/
def State.bstCmd (s : State) (req : Requester) (v : Nat) (ok : Bool) : State :=
  if s.g Reg.BST_CMD_STATUS.busy = 1 then s
  else
    let r := if ¬ req.mgmt then (s, 1)
      else if bits v 0 4 = 1 then s.bstRun (bits v 12 4) (bits v 16 10)
      else if bits v 0 4 = 2 then s.bstFuse (bits v 16 10) ok
      else (s, s.g Reg.BST_CMD_STATUS.result)
    if req.mgmt then r.1.bstResult v r.2 else s.put Reg.BST_CMD_STATUS.result 1

/-- R480: RUN. -/
def execRun (req : Requester) (cls unit : Nat) (s : State) : Host.Outcome State Fault Refusal :=
  if s.mode = .fenced ∨ s.mode = .off then .next s
  else .next (s.bstCmd req (pack [(16, 10, unit), (12, 4, cls), (0, 4, 1)]) true)

/-- R487: FUSE. -/
def execFuse (req : Requester) (rec : Nat) (ok : Bool) (s : State) : Host.Outcome State Fault Refusal :=
  if s.mode = .fenced ∨ s.mode = .off then .next s
  else .next (s.bstCmd req (pack [(16, 10, rec), (0, 4, 2)]) ok)

/-- R471, R485: a bank of a cache or of a port's input buffers that is in service stays out from now on. -/
def State.loseBank (s : State) (cls unit : Nat) : State :=
  let s1 := { s with bst := { s.bst with lost := s.bst.lost ++ [(cls, unit)] } }
  if cls = 1 then s1.bankInvalid unit else s1.bankPool unit true
/-- Banks of a cache, or of a port, that can still be lost: not retired and not in a slice. -/
def State.banksOf (s : State) (cls obj : Nat) : List Nat :=
  (List.range (unitCount cls)).filter (fun u =>
    (if cls = 1 then Config.cacheOfBank u == obj else u / 6 == obj) && !s.retired cls u && !(s.slicing && s.sliceUnit == (cls, u)))
/-- R471: the repair-exhausted source forced on object `obj`: a bank of the cache, or of the port, is lost. Caches 0 to 10 and ports 0 to
63 share their numbers; which of the two a number below 11 means, and which bank goes, is free (notes/assumptions/64). -/
def State.exhaustForced (s : State) (obj : Nat) : Option State :=
  if obj ≥ 64 then none
  else
    let d := s.draw
    let cls := if obj < 11 ∧ d.1 % 2 = 0 then 1 else 4
    let e := d.2.draw
    let l := e.2.banksOf cls obj
    some (match l[e.1 % l.length]? with
      | some u => e.2.loseBank cls u
      | none => e.2)
/-- R471, R489: the save area of a slice cannot be read: the slice aborts, and the unit is restored where possible, or else retired.
Before TEST nothing of it is lost; after that, whether the stand-in or the log restores a table bank, a state bank or a slot group
is free. -/
def State.saveLost (s : State) : State :=
  let (cls, unit) := s.sliceUnit
  if s.g Reg.BST_STATUS.phase ≥ 2 ∧ (cls = 2 ∨ cls = 3 ∨ cls = 7) then
    let d := s.draw
    if d.1 % 2 = 0 then d.2.sliceAbort
    else ((d.2.retireUnit cls unit).sliceEnd true).bump Ctr.BST_ABORT_COUNT |>.raise (srcBst 1) 0 0
  else s.sliceAbort

/-! ### Sweeps (R477, R480) -/

/-- At the first course of a sweep: units of the last one that were not tested count as skipped, its results become the previous
ones, and its accounts are closed. -/
def State.sweepStart (s : State) : State :=
  let left := ((List.range 1424).filter (fun e => !s.bst.tested.contains e && !s.retired (entryUnit e).1 (entryUnit e).2)).length
  let moved := s.bst.results.filterMap (fun e => if e.1 % 2 = 0 then some (e.1 + 1, e.2) else none)
  let s1 := (s.bumpBy Ctr.BST_SKIP_COUNT left).bump Ctr.BST_SWEEP_COUNT
  { s1 with bst := { s1.bst with tested := [], retry := [], retried := [], results := moved } }

end Sys2Proof.Machine
end

