-- ==== Sys2Proof/Machine/MchCmd.lean ====
section
/-! DEFINITION. The meanings of message matching's commands (spec/10). -/
namespace Sys2Proof.Machine

/-- The entry that may start on a queue, with the endpoint's data, for an opcode. -/
def State.epEntry (s : State) (q op : Nat) : Option (Sq × Ent × Ep) :=
  match s.startable q op with
  | some (v, e) => (s.ep? v.ep).map (fun p => (v, e, p))
  | none => none

/-! ### Sends (R329-R332, R352) -/

/-- Body fields of the MSG_ entries (R338). -/
def Mw.peer (r : Nat) : Nat := Wqe.at_ r 16 0 38
def Mw.flag (r i : Nat) : Bool := Wqe.at_ r 21 i 1 == 1
def Mw.context (r : Nat) : Nat := Wqe.at_ r 22 0 16
def Mw.tag (r : Nat) : Nat := Wqe.at_ r 24 0 64
def Mw.buf (r : Nat) : Nat := Wqe.at_ r 40 0 64
def Mw.len (r : Nat) : Nat := Wqe.at_ r 48 0 32
def Mw.user (r : Nat) : Nat := Wqe.at_ r 56 0 64
def Mw.sendBuf (r : Nat) : Nat := Wqe.at_ r 32 0 64
def Mw.sendLen (r : Nat) : Nat := Wqe.at_ r 40 0 32
def Mw.handle (r : Nat) : Nat := Wqe.at_ r 16 0 32

/-- R352: the message is sent eagerly. -/
def State.eager (s : State) (r : Nat) : Bool := Mw.sendLen r ≤ min 65536 (s.g Reg.MCH_CFG.rndv_threshold) && !Mw.flag r 0

/-- The common part of a message's operation: R335's fields, the entry's class, colour and order. -/
def msgOp (v : Sq) (e : Ent) (p : Ep) (origin : OpOrigin) (opcode msn : Nat) : Op :=
  { Op.base (ctxKey (hpOf p.owner) p.slot (Mw.peer e.raw / 65536)) 0 origin v.ep (Mw.peer e.raw % 65536) opcode (Mw.sendLen e.raw)
      (packB [(0, 16, Mw.context e.raw), (2, 24, msn), (5, 64, Mw.tag e.raw)]) with
    identity := p.owner, tc := v.tc, pre := Wqe.colour e.raw, ordered := Wqe.ordered e.raw }

/-- R352: an eager message. -/
def State.sendEager (s : State) (q : Nat) (v : Sq) (e : Ent) (p : Ep) (msn : Nat) : State :=
  (s.runEntry q e.ctr 0).newOp { msgOp v e p (.entry q e.ctr) 0x10 msn with
    total := max 1 (ceilDiv (Mw.sendLen e.raw) 4096),
    pay := .host p.as_ (Mw.sendBuf e.raw) (Mw.sendLen e.raw) p.owner (Wqe.override e.raw) }

/-- R352: a rendezvous message: entry `i` is taken and an RTS is sent. -/
def State.sendRts (s : State) (q : Nat) (v : Sq) (e : Ent) (p : Ep) (msn i : Nat) : State :=
  let g := Tbl.get (fun _ => 0) s.mch.rvGens i
  let o := { msgOp v e p (.rts i g) 0x11 msn with sq := some q }
  let x : Rv := { gen := g, q := q, ctr := e.ctr, as_ := p.as_, va := Mw.sendBuf e.raw, len := Mw.sendLen e.raw, ovr := Wqe.override e.raw,
                   identity := p.owner, heldFrom := none, pulled := 0, ctx := o.ctx, srcEp := v.ep, dst := Mw.peer e.raw,
                   context := Mw.context e.raw, msn := msn }
  ((s.runEntry q e.ctr 0).onMch (fun m => { m with rvs := Tbl.ins m.rvs i x })).newOp { o with pay := .bytes ⟨16, i + g * 2 ^ 15⟩ }

/-- R329, R352: a MSG_SEND whose order record is at hand. -/
def State.msgSend (s : State) (q : Nat) (v : Sq) (e : Ent) (p : Ep) (r : OrderRec) : State :=
  let k := orderKey v.ep 1 (Mw.peer e.raw) (Mw.context e.raw)
  if s.eager e.raw then (s.setMsn k (r.msn + 1)).sendEager q v e p r.msn.toNat
  else
    let n := s.pick 32768 (Tbl.keys s.mch.rvs)
    match n.1 with
    | some i => (n.2.setMsn k (r.msn + 1)).sendRts q v e p r.msn.toNat i
    | none => s

/-- R352: MSG_SEND. -/
def execMsgSend (q : Nat) (s : State) : Host.Outcome State Fault Refusal :=
  match s.epEntry q 0x01 with
  | none => .next s
  | some (v, e, p) =>
    let o := s.needOrder v.ep 1 (Mw.peer e.raw) (Mw.context e.raw)
    match o.2 with
    | .wait => .next o.1
    | .bad w => .next (o.1.finishEntry q e.ctr (if w < 4 then Res.of stRESOURCE 0x0010 else Res.of stHOST_BUS (w - 4)))
    | .have_ r => .next (o.1.msgSend q v e p r).settle

/-! ### Receives (R339-R347) -/

/-- Opcodes of the messages that arrive and of SKIP: they are handled in arrival order (R342). -/
def mchOps : List Nat := [0x10, 0x11, 0x14]
/-- R342: an arriving message packet's place: its endpoint. -/
def Arr.lane (a : Arr) : Nat := Th.dstEp a.th
/-- A message packet waits for a read that is out, or for the match operation in its endpoint's lane. -/
def State.mchWaits (s : State) (a : Arr) : Bool :=
  s.mch.orderReads.contains (orderKey a.lane 0 a.source (Mf.context a.th)) || s.laneHeld a.lane 1
/-- R342: an arrival that heads its endpoint's lane and waits for nothing goes before a work entry. -/
def State.arrivalFirst (s : State) (ep : Nat) : Bool :=
  (s.trn.accepted.find? (fun a => mchOps.contains (Th.opcode a.th) && a.lane == ep)).any (fun a => !s.mchWaits a)
/-- R342: a match operation of a work entry of queue `q` waits for its endpoint's lane. -/
def State.entryWaits (s : State) (ep job : Nat) : Bool := s.laneHeld ep job || s.arrivalFirst ep

/-- A receive that a MSG_POST or MSG_PROBE describes. -/
def Mw.posted (r : Nat) : Posted :=
  { source := Mw.peer r, anySource := Mw.flag r 0, context := Mw.context r, tag := Mw.tag r, ignore := Wqe.at_ r 32 0 64, buf := Mw.buf r,
    len := Mw.len r, user := Mw.user r, ovr := Wqe.override r, slot := none }

/-- The entry that was matched first among some. -/
def oldestHdr : List (Nat × MHdr) → Option (Nat × MHdr)
  | [] => none
  | a :: t =>
    match oldestHdr t with
    | some b => if a.2.seq ≤ b.2.seq then some a else some b
    | none => some a

/-- R343, R345: the oldest unexpected message of an endpoint that satisfies a receive. -/
def State.findUnexpected (s : State) (ep : Nat) (p : Posted) : Option (Nat × MHdr) :=
  oldestHdr (s.mch.hdrs.filter (fun e => e.2.ep == ep && e.2.st == .unexpected && p.satisfied e.2.source e.2.context e.2.tag))

/-- R343: append a receive to the endpoint's list, on chip or in overflow; none where neither has room. -/
def State.postRecv (s : State) (ep : Nat) (p : Posted) : Option State :=
  if (s.overOf ep).isEmpty ∧ s.postRoom (s.epOwner ep) then some (s.setPosted ep (s.postedOf ep ++ [p])) else s.toOverflow ep p

/-- R343: MSG_POST. -/
def execMsgPost (q : Nat) (s : State) : Host.Outcome State Fault Refusal :=
  match s.epEntry q 0x02 with
  | none => .next s
  | some (v, e, _) =>
    let p := Mw.posted e.raw
    if s.entryWaits v.ep 0 then .next s
    else match s.findUnexpected v.ep p with
    | some (i, h) => .next ((s.pair i h p.recv).finishEntry q e.ctr (Res.ok 0)).settle
    | none =>
      match s.postRecv v.ep p with
      | some t => .next (t.finishEntry q e.ctr (Res.ok 0))
      | none => .next (s.finishEntry q e.ctr (Res.of stRESOURCE 0x0011))

/-- R345: a cancel has removed a receive: it is done at once where its receive completion has been written, else once it is. -/
def State.cancelled (s : State) (q : Nat) (v : Sq) (e : Ent) (p : Posted) : State :=
  let s1 := s.cancelPosted v.ep p 0
  let c := ((s.ep? v.ep).map (fun x => x.rcq)).getD 0
  if s1.cqClear c then s1.finishEntry q e.ctr (Res.ok 1)
  else (s1.runEntry q e.ctr 0).onMch (fun m => { m with cancels := m.cancels ++ [(q, e.ctr, c)] })

/-- R345: MSG_CANCEL. For a walk read that fails the spec states no status of the cancel: HOST_BUS with a free cause. -/
def execMsgCancel (q : Nat) (s : State) : Host.Outcome State Fault Refusal :=
  match s.epEntry q 0x03 with
  | none => .next s
  | some (v, e, _) =>
    if s.entryWaits v.ep (3 + q) then .next s
    else
      let f := s.search v.ep (3 + q) (fun p => p.user == Mw.user e.raw)
      match f.2 with
      | .wait => .next f.1
      | .none_ => .next (f.1.finishEntry q e.ctr (Res.ok 0))
      | .bad => .next (f.1.draw.2.finishEntry q e.ctr (Res.of stHOST_BUS (f.1.draw.1 % 16)))
      | .chip p => .next ((f.1.unpost v.ep f.2).cancelled q v e p)
      | .beyond p => .next ((f.1.unpost v.ep f.2).cancelled q v e p)

/-- R345: MSG_PROBE. Where no message is found the message's fields in the completion are free. -/
def execMsgProbe (q : Nat) (s : State) : Host.Outcome State Fault Refusal :=
  match s.epEntry q 0x04 with
  | none => .next s
  | some (v, e, _) =>
    if s.entryWaits v.ep 0 then .next s
    else match s.findUnexpected v.ep (Mw.posted e.raw) with
    | some (i, h) =>
      let claim := Mw.flag e.raw 1
      let s1 := if claim then s.setHdr i { h with st := .claimed } else s
      .next (s1.finishEntry q e.ctr { status := stOK, detail := 0, byteCount := h.len, aux := h.tag,
                                      slot2 := some (s.msgSlot h (if claim then s.handle i else 0)) })
    | none =>
      let a := s.draw
      let b := a.2.draw
      let slot := packB [(0, 40, bits b.1 0 40), (5, 16, bits b.1 40 16), (7, 24, bits b.1 56 24), (12, 32, bits b.1 80 32)] + s.rxStamp v.ep
      .next (b.2.finishEntry q e.ctr { status := stOK, detail := 1, byteCount := bits a.1 64 32, aux := bits a.1 0 64, slot2 := some slot })

/-- R345: MSG_MRECV; R339 detail 0x0103. -/
def execMsgMrecv (q : Nat) (s : State) : Host.Outcome State Fault Refusal :=
  match s.epEntry q 0x05 with
  | none => .next s
  | some (v, e, _) =>
    let i := Mw.handle e.raw % 65536
    match s.hdr? i with
    | some h =>
      if s.entryWaits v.ep 0 then .next s
      else if h.st = .claimed ∧ h.ep = v.ep ∧ s.handle i = Mw.handle e.raw then
        .next ((s.pair i h ⟨Mw.buf e.raw, Mw.len e.raw, Mw.user e.raw, 0x05, Wqe.override e.raw⟩).finishEntry q e.ctr (Res.ok 0)).settle
      else .next (s.malformed q e 0x0103)
    | none => .next (s.malformed q e 0x0103)

/-- R347: MSG_POST_LB. -/
def execMsgPostLb (q : Nat) (s : State) : Host.Outcome State Fault Refusal :=
  match s.epEntry q 0x06 with
  | none => .next s
  | some (v, e, p) =>
    let lim := s.g (Reg.MCH_FN_QUOTA.lb p.owner) * 64
    let mine := (s.mch.landings.filter (fun l => s.epOwner l.2.ep == p.owner)).length
    if s.mch.landings.length ≥ 65536 ∨ (lim ≠ 0 ∧ mine ≥ lim) then .next (s.finishEntry q e.ctr (Res.of stRESOURCE 0x0012))
    else
      let l : Landing := { ep := v.ep, addr := Mw.buf e.raw, len := Mw.len e.raw, user := Mw.user e.raw, fill := 0, passed := false,
                           held := 0, ovr := Wqe.override e.raw }
      .next ((s.onMch (fun m => { m with landings := Tbl.ins m.landings m.nextLb l, nextLb := m.nextLb + 1 })).finishEntry q e.ctr (Res.ok 0))

/-! ### Arrivals (R348-R355) -/

/-- R348: EAGER_RX. -/
def execEagerRx (s : State) : Host.Outcome State Fault Refusal :=
  match s.frontOp mchOps 0x10 Arr.lane s.mchWaits with
  | some a => .next (s.onMsg a false).settle
  | none => .next s

/-- R348: RTS_RX. -/
def execRtsRx (s : State) : Host.Outcome State Fault Refusal :=
  match s.frontOp mchOps 0x11 Arr.lane s.mchWaits with
  | some a => .next (s.onMsg a true).settle
  | none => .next s

/-- R352, R356: an RV_GET at the sender. -/
def State.onRvGet (s : State) (a : Arr) : State :=
  let id := Th.at_ a.th 19 0 32
  let i := id % 2 ^ 15
  let s1 := s.takeArr a
  let bad := s1.result a .reply stREMOTE 0x0210 0
  let abandon := Th.at_ a.th 27 0 1 = 1
  match Tbl.find? s.mch.rvs i with
  | none => if abandon then s1 else bad
  | some x =>
    if x.gen ≠ id / 2 ^ 15 ∨ s.trn.ops.any (fun e => e.2.origin == .rvData i x.gen) then (if abandon then s1 else bad)
    else if abandon then s1.rvFail i x (Res.of stEP_UNAVAILABLE 3)
    else
      let n := Th.opLen a.th
      (s1.onMch (fun m => { m with rvs := Tbl.ins m.rvs i { x with pulled := n } })).newOp
        { Op.base a.ctx 1 (.rvData i x.gen) (Th.dstEp a.th) (Th.srcEp a.th) 0x13 n (packB [(0, 32, Th.at_ a.th 23 0 32)]) with
          total := max 1 (ceilDiv n 4096), pay := .host x.as_ x.va n x.identity x.ovr, dest := a.reqMark }

/-- R352, R354: RV_GET_RX: an RV_GET waits behind no message. -/
def execRvGetRx (s : State) : Host.Outcome State Fault Refusal :=
  match s.frontOp [0x12] 0x12 Arr.lane (fun _ => false) with
  | some a => .next (s.onRvGet a).settle
  | none => .next s

/-- R292: one more response of the pull of a header entry. -/
def State.rvGot (s : State) (i gen : Nat) : State :=
  match s.trn.ops.find? (fun e => e.2.origin == .rvGet i gen) with
  | some (n, o) => if o.done.isNone then s.setOp n { o with got := o.got + 1 } else s
  | none => s

/-- R350, R352: an RV_DATA at the receiver. -/
def State.onRvData (s : State) (a : Arr) : State :=
  let id := Th.at_ a.th 19 0 32
  let i := id % 65536
  let s1 := s.takeArr a
  let s2 := s1.rvGot i (id / 65536)
  match s2.hdr? i with
  | some h =>
    if s2.hdrGen i = id / 65536 ∧ h.st = .assembling ∧ h.recv.isSome then s2.placeMsg i { h with dataSeen := true } (4096 * Th.index a.th) a.payload
    else s2
  | none => s2

/-- R350: RV_DATA_RX. -/
def execRvDataRx (s : State) : Host.Outcome State Fault Refusal :=
  match s.front [0x13] with
  | some a => .next (s.onRvData a).settle
  | none => .next s

/-- R355: SKIP_RX. -/
def execSkipRx (s : State) : Host.Outcome State Fault Refusal :=
  match s.frontOp mchOps 0x14 Arr.lane s.mchWaits with
  | some a => .next (s.onSkip a).settle
  | none => .next s

/-- The context of a SKIP can send again (R322, R355). -/
def State.canSkip (s : State) (k : Skip) : Bool :=
  (s.ep? k.srcEp).isSome && s.covered (ctxHp k.ctx) (ctxSlot k.ctx) (ctxRemote k.ctx) &&
  (match s.ctx? k.ctx with
   | some c => c.state != 2
   | none => true)

/-- R355: SKIP_SEND: the oldest SKIP whose context can send again. One whose context is not cached has it loaded first. -/
def execSkipSend (s : State) : Host.Outcome State Fault Refusal :=
  match s.mch.skips.find? (fun k => s.canSkip k) with
  | none => .next s
  | some k =>
    if s.mode ≠ .service ∧ s.mode ≠ .drain then .next s
    else
      let n := s.needCtx k.ctx false
      match n.2 with
      | .have_ _ =>
        .next ((n.1.onMch (fun m => { m with skips := m.skips.erase k })).newOp
          { Op.base k.ctx 0 .skip k.srcEp (k.dst % 65536) 0x14 0 (packB [(0, 16, k.context), (2, 24, k.msn)]) with identity := s.epOwner k.srcEp })
      | _ => .next n.1

/-- R343: OVERFLOW_REFILL: the head of an endpoint's overflow list moves to its on-chip tail. -/
def execOverflowRefill (ep : Nat) (hm : HostView) (s : State) : Host.Outcome State Fault Refusal :=
  match s.overOf ep with
  | [] => .next s
  | p :: _ =>
    let f := s.epOwner ep
    let hp := hpOf f
    let slot := p.slot.getD 0
    if ¬ s.postRoom f ∨ ¬ s.live ∨ s.laneHeld ep 0 then .next s
    else
      let s1 := s.hostRead hp (hp * 256) (s.recAt hp slot) 64
      match HostView.read hm (s.recAt hp slot) 64 with
      | .data d =>
        let t := (s1.bump Ctr.MCH_OVF_WALK_COUNT).dropOver ep slot
        .next (t.setPosted ep (t.postedOf ep ++ [{ Posted.ofBytes d p with slot := none }]))
      | .error _ => .next (s1.raise (srcMch 2) 0 ep (some f))

/-- R356: RV_WAIT_TIMEOUT of rendezvous entry `i`. -/
def execRvWaitTimeout (i : Nat) (s : State) : Host.Outcome State Fault Refusal :=
  match Tbl.find? s.mch.rvs i with
  | some x =>
    let lim := s.g Reg.MCH_RV_CFG.wait_limit
    match x.heldFrom with
    | some c =>
      if lim ≠ 0 ∧ s.over c > lim ∧ ¬ s.trn.ops.any (fun e => e.2.origin == .rvData i x.gen) then .next (s.rvFail i x (Res.of stTRANSPORT 5))
      else .next s
    | none => .next s
  | none => .next s

/-- R332: ORDER_RECORD_READ_RETURN: the `i`th order-table read that is out. -/
def execOrderRecordReadReturn (i : Nat) (r : ReadResult) (s : State) : Host.Outcome State Fault Refusal :=
  .next (s.orderReturn i r).settle

/-- R344: OVERFLOW_RECORD_READ_RETURN: the `i`th overflow record read that is out. -/
def execOverflowRecordReadReturn (i : Nat) (r : ReadResult) (s : State) : Host.Outcome State Fault Refusal :=
  .next (s.overflowReturn i r).settle

end Sys2Proof.Machine
end

