-- ==== Sys2Proof/Machine/RmaCmd.lean ====
section
/-! DEFINITION. The meanings of remote memory access's commands (spec/11). -/
namespace Sys2Proof.Machine

/-! ### Initiator (R364, R373, R384) -/

/-- Body fields of RMA_ entries (R364). -/
def Rw.target (r : Nat) : Nat := Wqe.at_ r 16 0 38
def Rw.key (r : Nat) : Nat := Wqe.at_ r 24 0 32
def Rw.len (r : Nat) : Nat := Wqe.at_ r 28 0 32
def Rw.local_ (r : Nat) : Nat := Wqe.at_ r 32 0 64
def Rw.offset (r : Nat) : Nat := Wqe.at_ r 40 0 64
def Rw.aop (r : Nat) : Nat := Wqe.at_ r 21 0 4
def Rw.size (r : Nat) : Nat := Wqe.at_ r 21 4 2
def Rw.fetch (r : Nat) : Bool := Wqe.at_ r 21 6 1 == 1
/-- Operand bytes of an atomic. -/
def Rw.bytes (r : Nat) : Nat := 4 * 2 ^ Rw.size r

/-- The common part of an RMA operation. -/
def rmaOp (q : Nat) (v : Sq) (e : Ent) (p : Ep) (opcode len more : Nat) : Op :=
  { Op.base (ctxKey (hpOf p.owner) p.slot (Rw.target e.raw / 65536)) 0 (.entry q e.ctr) v.ep (Rw.target e.raw % 65536) opcode len
      (packB [(0, 32, Rw.key e.raw), (4, 48, Rw.offset e.raw)] + more <<< 80) with
    identity := p.owner, tc := v.tc, pre := Wqe.colour e.raw, ordered := Wqe.ordered e.raw }

/-- The put of RMA_PUT and RMA_PUT_NOTIFY. -/
def State.startPut (s : State) (q : Nat) (v : Sq) (e : Ent) (p : Ep) : State :=
  let n := max 1 (ceilDiv (Rw.len e.raw) 4096)
  (s.runEntry q e.ctr 0).newOp { rmaOp q v e p 0x40 (Rw.len e.raw) 0 with
    total := n, resp := n, pay := .host p.as_ (Rw.local_ e.raw) (Rw.len e.raw) p.owner (Wqe.override e.raw) }

/-- R364: RMA_PUT. -/
def execRmaPut (q : Nat) (s : State) : Host.Outcome State Fault Refusal :=
  match s.epEntry q 0x10 with
  | some (v, e, p) => .next (s.startPut q v e p)
  | none => .next s

/-- R373: RMA_PUT_NOTIFY: the put; its signal follows when it has finished. -/
def execRmaPutNotify (q : Nat) (s : State) : Host.Outcome State Fault Refusal :=
  match s.epEntry q 0x12 with
  | some (v, e, p) => .next (s.startPut q v e p)
  | none => .next s

/-- R364: RMA_GET. -/
def execRmaGet (q : Nat) (s : State) : Host.Outcome State Fault Refusal :=
  match s.epEntry q 0x11 with
  | some (v, e, p) =>
    let o := rmaOp q v e p 0x41 (Rw.len e.raw) 0
    .next ((s.runEntry q e.ctr 0).newOp { o with
      resp := max 1 (ceilDiv (Rw.len e.raw) 4096), extra := respBricks (Rw.len e.raw) (s.encrypts o.ctx),
      dest := .host p.as_ (Rw.local_ e.raw) (Rw.len e.raw) p.owner (Wqe.override e.raw) })
  | none => .next s

/-- R364: RMA_ATOMIC. -/
def execRmaAtomic (q : Nat) (s : State) : Host.Outcome State Fault Refusal :=
  match s.epEntry q 0x13 with
  | some (v, e, p) =>
    let r := e.raw
    let n := Rw.bytes r
    let o := rmaOp q v e p 0x43 n (4 * b2n (Rw.fetch r) + (Rw.aop r + 16 * Rw.size r) * 256)
    .next ((s.runEntry q e.ctr 0).newOp { o with
      resp := 1,
      pay := if Rw.size r = 2 then .host p.as_ (Wqe.at_ r 48 0 64) 32 p.owner (Wqe.override r) else .bytes ⟨16, Wqe.at_ r 48 0 128⟩,
      dest := if Rw.fetch r then .host p.as_ (Rw.local_ r) n p.owner (Wqe.override r) else .none_ })
  | none => .next s

/-! ### Keys (R366, R379-R383) -/

def Kw.index (r : Nat) : Nat := Wqe.at_ r 16 0 24
/-- R362, R366: the descriptor a KEY_REG writes: the body's fields, the tag and the course of the last revocation as they were. -/
def keyRaw (r tag revoked : Nat) : Nat :=
  packB [(0, 64, Wqe.at_ r 24 0 64), (8, 48, Wqe.at_ r 32 0 48), (14, 16, Wqe.at_ r 20 0 16), (16, 8, tag), (17, 8, 1 + 4 * Wqe.at_ r 22 0 3),
    (18, 8, Wqe.at_ r 22 3 3 + 8 * b2n (Wqe.override r) + 16 * Wqe.at_ r 22 6 1), (20, 38, Wqe.at_ r 40 0 38), (26, 48, revoked)]

/-- R366: KEY_REG on a descriptor that has been read. -/
def State.keyReg (s : State) (q : Nat) (e : Ent) (d : Desc) : State :=
  let i := Kw.index e.raw
  let st := match s.keySt i with
    | some k => k.state
    | none => Ds.state d.raw
  if st = 1 ∨ st = 2 then s.finishEntry q e.ctr (Res.of stSTATE 0)
  else if st = 3 ∧ ¬ s.quarOver (match s.keySt i with | some k => k.revoked.toNat | none => Ds.revoked d.raw) then
    s.finishEntry q e.ctr (Res.of stQUARANTINED 0)
  else
    let raw := keyRaw e.raw (Ds.tag d.raw) (Ds.revoked d.raw)
    let s1 := (s.setRaw i raw).hostWrite (keyHp i) (keyHp i * 256) (s.descAddr i) ⟨32, raw⟩
    let s2 := s1.setKey i (some { state := 1, ep := Ds.ep raw, revoked := 0, by_ := none })
    s2.finishEntry q e.ctr (Res.ok (i + Ds.tag d.raw * 2 ^ 24))

/-- R366: KEY_REG. -/
def execKeyReg (q : Nat) (s : State) : Host.Outcome State Fault Refusal :=
  match s.startable q 0x14 with
  | none => .next s
  | some (_, e) =>
    let i := Kw.index e.raw
    if ¬ s.keyInTable i then .next (s.finishEntry q e.ctr (Res.of stRESOURCE 0))
    else
      let n := s.needDesc i
      match n.2 with
      | .wait => .next n.1
      | .full => .next n.1
      | .bus c => .next (n.1.finishEntry q e.ctr (Res.of stHOST_BUS c))
      | .have_ d => .next (n.1.keyReg q e d)

/-- R379 step 1: KEY_REVOKE on a descriptor that has been read. -/
def State.keyRevoke (s : State) (q : Nat) (e : Ent) (d : Desc) : State :=
  let key := Wqe.at_ e.raw 16 0 32
  let i := keyIndex key
  let st := match s.keySt i with
    | some k => k.state
    | none => Ds.state d.raw
  if st = 2 then s.finishEntry q e.ctr (Res.of stSTATE 2)
  else if keyTag key ≠ Ds.tag d.raw ∨ st ≠ 1 then s.finishEntry q e.ctr (Res.of stSTATE 1)
  else (s.runEntry q e.ctr 0).startRevoke i (some (q, e.ctr))

/-- R379: KEY_REVOKE. -/
def execKeyRevoke (q : Nat) (s : State) : Host.Outcome State Fault Refusal :=
  match s.startable q 0x15 with
  | none => .next s
  | some (_, e) =>
    let i := Kw.index e.raw
    if ¬ s.keyInTable i then .next (s.finishEntry q e.ctr (Res.of stRESOURCE 0))
    else
      let n := s.needDesc i
      match n.2 with
      | .wait => .next n.1
      | .full => .next n.1
      | .bus c => .next (n.1.finishEntry q e.ctr (Res.of stHOST_BUS c))
      | .have_ d => .next (n.1.keyRevoke q e d)

/-- R379 steps 3 and 4: KEY_REVOKE_COMPLETE of key index `i`. -/
def execKeyRevokeComplete (i : Nat) (s : State) : Host.Outcome State Fault Refusal := .next (s.endRevoke i).endTables

/-- R380: KEY_QUARANTINE_END of key index `i`: from here on the index counts as free again. -/
def execKeyQuarantineEnd (i : Nat) (s : State) : Host.Outcome State Fault Refusal :=
  match s.keySt i with
  | some k => if k.state = 3 ∧ s.quarOver k.revoked.toNat then .next (s.setKey i none) else .next s
  | none => .next s

/-- R383: KEY_INV: the copies go at once, those of keys that are being revoked too, whose revocation reads the descriptor again; a read
that is out for one is of no use; the entry waits for the references on them. -/
def execKeyInv (q : Nat) (s : State) : Host.Outcome State Fault Refusal :=
  match s.startable q 0x16 with
  | none => .next s
  | some (_, e) =>
    let i := Kw.index e.raw
    let n := Wqe.at_ e.raw 20 0 32
    let mine := s.rma.descs.filter (fun d => decide (i ≤ d.1 ∧ d.1 < i + n))
    let reads := s.rma.reads.map (fun j => if decide (i ≤ j ∧ j < i + n) then staleRead j else j)
    let s1 := (s.runEntry q e.ctr 0).onRma (fun r =>
      { r with descs := r.descs.filter (fun d => !mine.contains d), reads := reads, invs := r.invs ++ [(q, e.ctr, mine.length, mine.map (fun d => d.2.uid))] })
    .next s1

/-- R383: KEY_INV_COMPLETE of a queue's KEY_INV. -/
def execKeyInvComplete (q : Nat) (s : State) : Host.Outcome State Fault Refusal :=
  match s.rma.invs.find? (fun x => x.1 == q) with
  | some x =>
    if x.2.2.2.any (fun u => Tbl.get (fun _ => 0) s.rma.refs u != 0) then .next s
    else .next ((s.onRma (fun r => { r with invs := r.invs.erase x })).finishEntry q x.2.1 (Res.ok x.2.2.1))
  | none => .next s

/-! ### The target, and the responses (R370-R377, R384) -/

/-- A request waits for a walk. -/
def State.arrWaits (s : State) (a : Arr) : Bool := s.xltWaits a.hp a.who
/-- The oldest accepted response with this opcode that waits for no walk: responses have no order between them. -/
def State.frontResponse (s : State) (op : Nat) : Option Arr :=
  s.trn.accepted.find? (fun a => Th.opcode a.th == op && !s.arrWaits a)

/-- R370: PUT_RX. -/
def execPutRx (s : State) : Host.Outcome State Fault Refusal :=
  match s.frontOp rmaOps 0x40 Arr.hp s.arrWaits with
  | some a => .next (s.onPut a).settle
  | none => .next s
/-- R371: GET_RX. -/
def execGetRx (s : State) : Host.Outcome State Fault Refusal :=
  match s.frontOp rmaOps 0x41 Arr.hp s.arrWaits with
  | some a => .next (s.onGet a).settle
  | none => .next s
/-- R374: ATOMIC_RX. -/
def execAtomicRx (s : State) : Host.Outcome State Fault Refusal :=
  match s.frontOp rmaOps 0x43 Arr.hp s.arrWaits with
  | some a => .next (s.onAtomic a).settle
  | none => .next s
/-- R375: ATOMIC_EXECUTE of atomic `id`. -/
def execAtomicExecute (id : Nat) (s : State) : Host.Outcome State Fault Refusal := .next (s.atomicExecute id).settle
/-- R376: ATOMICOP_COMPLETION for atomic `id`. -/
def execAtomicopCompletion (id : Nat) (r : ReadResult) (s : State) : Host.Outcome State Fault Refusal := .next (s.atomicCompletion id r).settle
/-- R384: GET_DATA_RX. -/
def execGetDataRx (s : State) : Host.Outcome State Fault Refusal :=
  match s.frontResponse 0x42 with
  | some a => .next (s.onGetData a).settle
  | none => .next s
/-- R384: ATOMIC_DATA_RX. -/
def execAtomicDataRx (s : State) : Host.Outcome State Fault Refusal :=
  match s.frontResponse 0x44 with
  | some a => .next (s.onAtomicData a).settle
  | none => .next s
/-- R370: KEY_DESCRIPTOR_READ_RETURN: the `n`th descriptor read that is out. -/
def execKeyDescriptorReadReturn (n : Nat) (r : ReadResult) (s : State) : Host.Outcome State Fault Refusal := .next (s.descReturn n r).settle
/-- R370: TARGET_DATA_READ_RETURN: the `n`th target data read that is out. -/
def execTargetDataReadReturn (n : Nat) (r : ReadResult) (s : State) : Host.Outcome State Fault Refusal := .next (s.dataReturn n r).settle

end Sys2Proof.Machine
end

