-- ==== Sys2Proof/Machine/LckCmd.lean ====
section
/-! DEFINITION. The meanings of the fabric-lock commands (spec/12); those of the lock cells are in Machine/Lck.lean. -/
namespace Sys2Proof.Machine

/-- R399: FL_ACQUIRE, by a work entry or by LCK_FL_CMD. -/
def execFlAcquire (via : FlVia) (s : State) : Host.Outcome State Fault Refusal :=
  .next (s.flStart via 0x29 (fun t k => t.flAcquire k)).settle
/-- R399: FL_RELEASE. -/
def execFlRelease (via : FlVia) (s : State) : Host.Outcome State Fault Refusal :=
  .next (s.flStart via 0x2A (fun t k => t.flOnHeld k 0x82)).settle
/-- R399: FL_RENEW. -/
def execFlRenew (via : FlVia) (s : State) : Host.Outcome State Fault Refusal :=
  .next (s.flStart via 0x2B (fun t k => t.flOnHeld k 0x83)).settle
/-- R401: FL_BREAK. -/
def execFlBreak (via : FlVia) (s : State) : Host.Outcome State Fault Refusal :=
  .next (s.flStart via 0x2C (fun t k => t.flBreak k)).settle
/-- R399: FL_POLL_SEND for held-lock record `i`. -/
def execFlPollSend (i : Nat) (s : State) : Host.Outcome State Fault Refusal := .next (s.flPollSend i)

/-- The oldest fabric-lock request, if it has this opcode. -/
def State.flRx (s : State) (op : Nat) (hm : HostView) : State :=
  match s.frontOp rmaOps op Arr.hp s.arrWaits with
  | some a => (s.onFl a hm).settle
  | none => s

/-- R396: FL_TAKE_RX; `hm` holds the lock word. -/
def execFlTakeRx (hm : HostView) (s : State) : Host.Outcome State Fault Refusal := .next (s.flRx 0x80 hm)
/-- R396: FL_POLL_RX. -/
def execFlPollRx (hm : HostView) (s : State) : Host.Outcome State Fault Refusal := .next (s.flRx 0x81 hm)
/-- R396: FL_RELEASE_RX. -/
def execFlReleaseRx (hm : HostView) (s : State) : Host.Outcome State Fault Refusal := .next (s.flRx 0x82 hm)
/-- R396: FL_RENEW_RX. -/
def execFlRenewRx (hm : HostView) (s : State) : Host.Outcome State Fault Refusal := .next (s.flRx 0x83 hm)
/-- R396: FL_BREAK_RX. -/
def execFlBreakRx (hm : HostView) (s : State) : Host.Outcome State Fault Refusal := .next (s.flRx 0x84 hm)
/-- R396, R400: FL_RELEASE_ABANDONED_RX. -/
def execFlReleaseAbandonedRx (hm : HostView) (s : State) : Host.Outcome State Fault Refusal := .next (s.flRx 0x85 hm)
/-- R399: FL_REPLY_RX. -/
def execFlReplyRx (s : State) : Host.Outcome State Fault Refusal :=
  match s.front [0x88] with
  | some a => .next (s.onFlReply a).settle
  | none => .next s

end Sys2Proof.Machine
end

