-- ==== Sys2Proof/Machine/Lanes.lean ====
section
/-! DEFINITION. Lanes and port physical layer (spec/03): receiving, markers, training, width, sleep and test, with the meanings of the
lane commands. What a transmitter puts on the wire is in Machine/LaneTx.lean. -/
namespace Sys2Proof.Machine

/-- The lane PLL that serves a lane, die × 4 + j (spec/03, "Clocking"). -/
def pllOf (n : Nat) : Nat := n / 8
/-- The port is under test. -/
def State.testing (s : State) (p : Nat) : Bool := s.g (Reg.LAN_PT_CTRL.test p) == 1

/-- R100: "mode permits" for a lane. -/
def State.lanePermit (s : State) (n : Nat) : Bool :=
  let p := n / 2
  ((s.mode == .train || s.live) && s.role s.crs.active p != 0) ||
  (s.mode == .strap && s.bootPort p && laneIdx n == 0) ||
  (s.mode == .fenced && (s.lk p).st == .fencing) ||
  s.testing p

/-! ### Width and sleep (R101-R104) -/

/-- The taps of the presets P1, P2, P3 (R95). -/
def preset : Nat → Taps
  | 1 => ⟨0, 64, 0, 0, 0⟩
  | 2 => ⟨0, 56, -8, 0, 0⟩
  | _ => ⟨-4, 46, -12, 2, 0⟩

/-- R104: index i is to sleep: both ends allow it, the other index carries data both ways, and with both bits set at both
ends i is 1. -/
def State.sleepAgreed (s : State) (p i : Nat) : Bool :=
  let own := s.g (Reg.LAN_PT_CTRL.sleep_mask p)
  let far := (s.pp p).farSleep
  bit own i && bit far i && bit (s.ownAccept p) (1 - i) && bit (s.pp p).farAccept (1 - i) &&
    (if own == 3 && far == 3 then i == 1 else true)

/-- R101, R102, R104: the transmit indices wanted now. -/
def State.wantTx (s : State) (p : Nat) : Nat :=
  let use (i : Nat) : Nat :=
    b2n ((s.ln (laneOf p i)).st == .data && bit (s.pp p).farAccept i && !s.sleepAgreed p i &&
      !(i == 1 && (s.g (Reg.LAN_PT_CTRL.force_width1 p) == 1 || s.mode == .strap)))
  use 0 + 2 * use 1

/-- R102, R103, R137: a mask of a port has changed: a PHY that has gone down is all the link sees of it, else the width has changed. -/
def State.maskChanged (s : State) (p : Nat) (wasUp : Bool) : State :=
  if wasUp && !s.phyUp p then s.phyFell p else s.widthChange p

/-- R83, R122: whole bricks that still fit before a marker are CONTROL bricks on a link that is UP, each slot having none of its own; on a
link that sends nothing they stay empty (DESIGN CHOICE, notes/assumptions/85: an empty slot carries zeros). -/
def State.fillSlots (s : State) (p : Nat) : Nat → State
  | 0 => s
  | k + 1 =>
    if (s.lk p).st = .up ∧ (s.pp p).txMask ≠ 0 ∧ (s.ln (s.brickLane p)).sends ∧ (s.ln (s.brickLane p)).room ≥ 72 then
      (s.sendControl p).fillSlots p k
    else s
/-- R83: the marker period of a port's transmitter ends: the codewords being sent are filled with bricks. -/
def State.periodEnd (s : State) (p : Nat) : State := s.fillSlots p 20

/-- R102: change tx_mask at an early marker, and re-initialise the link. -/
def State.retune (s : State) (p : Nat) : State :=
  let want := s.wantTx p
  if want = (s.pp p).txMask then s
  else
    let s1 := s.periodEnd p
    ((s1.setPp p { s1.pp p with txMask := want }).sendMarkers p).maskChanged p (s.phyUp p)

/-- R101, R102: apply a receive mask; a change of width re-initialises the link. -/
def State.setRx (s : State) (p m : Nat) : State :=
  if m = (s.pp p).rxMask then s
  else (s.setPp p { s.pp p with rxMask := m }).maskChanged p (s.phyUp p)

/-- The far end's masks narrow or widen what is merged (R101). -/
def State.applyMasks (s : State) (p : Nat) : State :=
  let m := (s.pp p).farTx &&& s.ownAccept p
  (s.setRx p m).retune p

/-- What a lane keeps when it changes state: its signal, its marker count, and its PRBS generator and checker. -/
def Lane.fresh (l : Lane) (st : LaneSt) : Lane :=
  { Lane.reset with st := st, sig := l.sig, txCount := l.txCount, genReg := l.genReg, injAt := l.injAt, chkLock := l.chkLock,
                    chkLost := l.chkLost, chkReg := l.chkReg, chkRun := l.chkRun, chkWin := l.chkWin }

/-- R104: a lane of a port whose sleep is agreed and which both latest tx_masks exclude goes to SLEEP. On a pair crossed in cabling the
indices of sleep are each end's own (DESIGN CHOICE, notes/assumptions/85). -/
def State.trySleep (s : State) (p : Nat) : State :=
  let one (t : State) (i : Nat) : State :=
    let n := laneOf p i
    if (t.ln n).st = .data ∧ t.sleepAgreed p i ∧ ¬ bit (t.pp p).txMask i ∧ ¬ bit (t.pp p).farTx i then
      (t.setLn n ((t.ln n).fresh .sleep)).emit (.laneIdle n)
    else t
  one (one s 0) 1

/-! ### Training (R93-R98) -/

/-- The request and status words a lane now sends (R94). -/
def State.frameWords (s : State) (n : Nat) : Nat × Nat :=
  let l := s.ln n
  let r := pack [(20, 12, l.ownReq), (19, 1, b2n l.rxReady), (18, 1, laneIdx n), (12, 6, n / 2)]
  let t := pack [(20, 10, l.tapStatus), (19, 1, b2n l.txFail)]
  (r + fieldCrc r, t + fieldCrc t)

/-- R93: send training frames, until the transmitter has begun data. -/
def State.sendFrames (s : State) (n : Nat) : State :=
  let l := s.ln n
  if l.txData then s
  else
    let w := s.frameWords n
    let f := frameLevels w.1 w.2 l.genReg
    (s.emit (.laneFrame n w.1 w.2 (f.1.map (s.txLevels n 1)))).setLn n { l with genReg := f.2 }

/-- Enter FRAME from P2: an attempt begins (R95, R98, R111). -/
def State.beginAttempt (s : State) (n attempt : Nat) : State :=
  let l := s.ln n
  ((s.setLn n { l.fresh .frame with attempts := attempt, frameAt := s.nowAt, snr := l.snr }).bump (Ctr.LAN_TRAIN_COUNT n)).sendFrames n

/-- R100: DISABLED to FRAME when mode, role, enable and the lane PLL allow it. -/
def State.laneStart (s : State) (n : Nat) : State :=
  if (s.ln n).st = .disabled ∧ s.lanePermit n ∧ ¬ s.testing (n / 2) ∧ s.g (Reg.LAN_LN_CTRL.enable n) = 1 ∧
      ¬ s.phy.pllLost.contains (pllOf n) then s.beginAttempt n 1
  else s

/-- R100, R102, R103: a lane leaves DATA: the other lane, if in DATA, sends an early marker without this index, or wakes from SLEEP; the
PHY goes down with the last lane. -/
def State.dropLane (s : State) (n : Nat) (dest : LaneSt) : State :=
  let p := n / 2
  let s1 := s.setLn n { s.ln n with st := dest, txData := false, fecLock := false, markerLock := false, uncorrRun := 0, markerMiss := 0,
                                     marker := none }
  let other := laneOf p (1 - laneIdx n)
  let s2 := s1.applyMasks p
  let s3 := if (s2.pp p).txMask = (s1.pp p).txMask then (s2.periodEnd p).sendMarkers p else s2
  if (s3.ln other).st = .sleep then s3.beginAttempt other 1 else s3

/-- R86, R100: lanes go to DISABLED together, with their transmitters in electrical idle, and their ports lose those indices. -/
def State.lanesOff (s : State) (ns : List Nat) : State :=
  let off (t : State) (n : Nat) : State :=
    let t1 := t.setLn n ((t.ln n).fresh .disabled)
    if (t.ln n).st = .disabled then t1 else t1.emit (.laneIdle n)
  let port (t : State) (p : Nat) : State :=
    let t1 := t.applyMasks p
    if (t1.ln (laneOf p 0)).st = .disabled ∧ (t1.ln (laneOf p 1)).st = .disabled then t1.setPp p { t1.pp p with farValid := false } else t1
  ((ns.map (fun n => n / 2)).foldl setAdd []).foldl port (ns.foldl off s)
/-- R100: a lane goes to DISABLED. -/
def State.laneOff (s : State) (n : Nat) : State := s.lanesOff [n]
/-- R100: the lanes that mode or role forbid go to DISABLED. -/
def State.forbidLanes (s : State) : State :=
  s.lanesOff ((List.range 128).filter (fun n => !s.lanePermit n && (s.ln n).st != .disabled))

/-- R98: an attempt fails: another one from P2, or FAILED with tx_fail. -/
def State.failAttempt (s : State) (n : Nat) : State :=
  let l := s.ln n
  if l.attempts ≤ s.g Reg.LAN_TRAIN_CFG.retries then s.beginAttempt n (l.attempts + 1)
  else
    ((s.setLn n { l.fresh .failed with attempts := l.attempts, snr := l.snr, txFail := true, taps := l.taps }).sendFrames n).raise
      (srcLan n 2) 0 n

/-- One tap step (R95, R96): the new taps and the status reported, 1 updated, 2 at limit. The code 0b11, which R94 does not define,
holds (DESIGN CHOICE, notes/assumptions/85). -/
def tapStep (t : Taps) (i code : Nat) : Taps × Nat :=
  let d : Int := if code = 1 then 1 else -1
  let t1 : Taps := match i with
    | 0 => { t with c1 := t.c1 + d }
    | 1 => { t with c0 := t.c0 + d }
    | 2 => { t with cm1 := t.cm1 + d }
    | 3 => { t with cm2 := t.cm2 + d }
    | _ => { t with cm3 := t.cm3 + d }
  let inRange := -8 ≤ t1.cm3 ∧ t1.cm3 ≤ 7 ∧ -16 ≤ t1.cm2 ∧ t1.cm2 ≤ 15 ∧ -32 ≤ t1.cm1 ∧ t1.cm1 ≤ 31 ∧
    32 ≤ t1.c0 ∧ t1.c0 ≤ 64 ∧ -16 ≤ t1.c1 ∧ t1.c1 ≤ 15
  let valid := t1.cm3.natAbs + t1.cm2.natAbs + t1.cm1.natAbs + t1.c0.natAbs + t1.c1.natAbs ≤ 64
  if code = 0 ∨ code = 3 then (t, 0) else if inRange ∧ valid then (t1, 1) else (t, 2)

/-- R96: the responder's answer to a request (bits [31:20] of the field, as a 12-bit number). The steps of several taps are taken from c1
up to c−3, each tested against the taps as the ones before left them (DESIGN CHOICE, notes/assumptions/85: the spec gives no order). -/
def respond (t : Taps) (req : Nat) : Taps × Nat :=
  let p := bits req 10 2
  if p ≠ 0 then (preset p, 0x155)
  else (List.range 5).foldl (fun a i =>
    let r := tapStep a.1 i (bits req (2 * i) 2)
    (r.1, a.2 + r.2 <<< (2 * i))) (t, 0)

/-- A request to send next (R96): none is named by the spec, so it is a free value with a legal code for each tap. -/
def freeRequest (v : Nat) : Nat :=
  (List.range 5).foldl (fun a i => a + (v / 4 ^ i % 4 % 3) <<< (2 * i)) 0 + (v / 1024 % 4) <<< 10

/-- R96: a request that asks for nothing: no preset and every tap held. -/
def allHold (req : Nat) : Bool := bits req 10 2 == 0 && (List.range 5).all (fun i => bits req (2 * i) 2 % 3 == 0)

/-- R93: a frame marker is found: consecutive if the one before lies 4,096 UI back. -/
def Lane.sawFrame (l : Lane) (now index : Nat) : Lane :=
  { l with sig := true, frameRun := if now ≤ l.frameSeen + 49 then l.frameRun + 1 else 1, frameMiss := 0, frameSeen := now, farIndex := index }

/-- R94-R97: a training frame whose two CRCs are right. -/
def State.trainFrame (s : State) (n req status : Nat) : State :=
  let l := s.ln n
  match l.st with
  | .data => (s.dropLane n .frame).beginAttempt n 1
  | .frame => s.setLn n (l.sawFrame s.cycles (bits req 18 1))
  | .taps =>
    let ready := bit req 19
    let far := bits status 20 10
    let l1 := { l.sawFrame s.cycles (bits req 18 1) with
                  farRxReady := ready,
                  readyRcvd := if ready then l.readyRcvd + 1 else 0,
                  readySent := if l.rxReady then l.readySent + 1 else 0,
                  farReq := bits req 20 12, farTapStatus := far }
    let s1 := s.setLn n l1
    if far ≠ 0 ∧ l.ownReq ≠ 0 then (s1.setLn n { l1 with ownReq := 0, reqFrom := s.cycles }).sendFrames n
    else if far = 0 ∧ l.ownReq ≠ 0 ∧ l.rxReady then (s1.setLn n { l1 with ownReq := 0, reqFrom := s.cycles }).sendFrames n
    else if far = 0 ∧ l.ownReq = 0 ∧ ¬ l.rxReady then
      let d := s1.draw
      (d.2.setLn n { l1 with ownReq := freeRequest d.1, reqFrom := s.cycles }).sendFrames n
    else s1
  | .failed => s.setLn n { l with sig := true }
  | _ => s

/-! ### Receiving (R81-R83, R90-R92) -/

/-- What the bytes of one lane's codewords leave (R82, R83, R88): descrambler, bip, that of the period before a marker, whether the marker's
MARKER_RX has come, bytes of the brick in progress, whether some of them were lost, the bricks and period bounds found, and the bytes. -/
structure RxRun where
  descr : Nat
  bip : Nat
  markBip : Option Nat
  seen : Bool
  part : Data
  hole : Bool
  items : List RxItem
  bytes : List Data

/-- R88: a block is a marker whose crc is right. -/
def goodMarker (b : Nat) : Bool := !b.testBit 0 && bits b 132 16 == markerCrc b

/-- R83: bytes of a lane are cut into bricks; a brick with bytes that were lost is lost, and an empty slot holds none (DESIGN CHOICE,
notes/assumptions/85). -/
def RxRun.cut (r : RxRun) (d : Data) (lost : Bool) : RxRun :=
  let x := r.part.append d
  let k := x.len / 72
  let brick (i : Nat) : Option RxItem :=
    if lost || (r.hole && i == 0) then some .lost
    else if (x.slice (72 * i) 72).val = 0 then none else some (.brick (x.slice (72 * i) 72))
  { r with part := x.slice (72 * k) (x.len % 72), hole := lost || (r.hole && k == 0), items := r.items ++ (List.range k).filterMap brick }
/-- R82, R83, R88: one block: data is descrambled; a marker begins a period with a new brick, and what stood before it was fill. In a
codeword that could not be corrected, a block that is no marker with a right crc counts as data. -/
def RxRun.block (lost : Bool) (r : RxRun) (b : Nat) : RxRun :=
  if b.testBit 0 || (lost && !goodMarker b) then
    let pl := bits b 1 256
    let d := descramble r.descr pl
    let r1 : RxRun := { r with descr := d.2, bip := r.bip ^^^ blockBip pl, bytes := r.bytes ++ [⟨32, d.1⟩] }
    r1.cut ⟨32, d.1⟩ lost
  else
    { r with bip := if r.seen then r.bip else 0, markBip := if r.seen then none else some r.bip, seen := false, part := Data.empty,
             hole := false, items := r.items ++ [.mark (if goodMarker b then some (bits b 101 2) else none)] }

/-- R102: what a lane holds after the next marker whose tx_mask has its index. -/
def afterMark (i : Nat) : List RxItem → Option (List RxItem)
  | [] => none
  | .mark (some m) :: t => if bit m i then some t else afterMark i t
  | _ :: t => afterMark i t
/-- R102: a lane outside the period keeps what comes from such a marker on. -/
def fromMark (i : Nat) : List RxItem → List RxItem
  | [] => []
  | .mark (some m) :: t => if bit m i then .mark (some m) :: t else fromMark i t
  | _ :: t => fromMark i t

/-- A merge in progress: the tx_mask of the period, the index whose turn it is, what lanes 0 and 1 hold, the bricks merged. -/
structure Merge where
  period : Nat
  turn : Nat
  a : List RxItem
  b : List RxItem
  out : List Data

/-- What lane `i` holds. -/
def Merge.lane (x : Merge) (i : Nat) : List RxItem := if i = 0 then x.a else x.b
/-- Set what lane `i` holds. -/
def Merge.setLane (x : Merge) (i : Nat) (l : List RxItem) : Merge := if i = 0 then { x with a := l } else { x with b := l }

/-- R83, R102: lane `i` has reached a marker that announces mask `m`, with `t` behind it: the next period begins once every lane of it that
is merged has its marker there too. -/
def Merge.next (ok : Nat) (x : Merge) (i m : Nat) (t : List RxItem) : Option Merge :=
  let j := 1 - i
  let y : Merge := { x.setLane i t with period := m, turn := 0 }
  if bit m j && bit ok j then (afterMark j (x.lane j)).map (y.setLane j) else some y

/-- R83, R91, R92, R102: one step of the merge: bricks alternate within a period of both lanes, a lost brick keeps its turn, the bricks of
a lane that is not merged are lost, and a period ends at the markers of all its lanes. None while something is still to arrive. -/
def Merge.step (ok : Nat) (x : Merge) : Option Merge :=
  let act := x.period &&& ok
  if act = 0 then
    match (fromMark 0 x.a, fromMark 1 x.b) with
    | (.mark (some m) :: t, _) => if bit ok 0 then x.next ok 0 m t else none
    | (_, .mark (some m) :: t) => if bit ok 1 then x.next ok 1 m t else none
    | _ => none
  else
    let i := if act = 3 then x.turn else act - 1
    let j := 1 - i
    match x.lane i with
    | [] => none
    | .brick d :: t => some { x.setLane i t with turn := j, out := x.out ++ [d] }
    | .lost :: t => some { x.setLane i t with turn := j }
    | .mark m :: t =>
      if act = 3 then
        match x.lane j with
        | [] => none
        | .mark m1 :: u =>
          match m <|> m1 with
          | some k => some { (x.setLane i t).setLane j u with period := k, turn := 0 }
          | none => some { (x.setLane i t).setLane j u with turn := 0 }
        | _ :: u => some (x.setLane j u)
      else
        match m with
        | some k => x.next ok i k t
        | none => some { x.setLane i t with turn := 0 }
/-- The merge, as far as bricks have arrived. -/
def Merge.run (ok : Nat) : Nat → Merge → Merge
  | 0, x => x
  | k + 1, x => match x.step ok with | some y => y.run ok k | none => x

/-- R83, R91, R92, R102: bricks are merged from the lanes in the order of the lane indices received, under the mask of the marker period
they belong to. -/
def State.mergeLanes (s : State) (p : Nat) : State :=
  let a := s.rxLane p 0
  let b := s.rxLane p 1
  let ok := s.ownAccept p
  let ia := (s.ln a).rxItems
  let ib := (s.ln b).rxItems
  let q := s.pp p
  let r := Merge.run ok (ia.length + ib.length + 1) ⟨q.period, q.rxTurn, ia, ib, []⟩
  let keep (i : Nat) (l : List RxItem) : List RxItem := if bit r.period i && bit ok i then l else fromMark i l
  let s1 := (s.setPp p { q with rxTurn := r.turn, period := r.period }).setLn a { s.ln a with rxItems := keep 0 r.a }
  let s2 := if a = b ∧ bit ok 0 then s1 else s1.setLn b { s1.ln b with rxItems := keep 1 r.b }
  r.out.foldl (fun t d => t.emit (.rxBrick p d)) s2

/-- R97: a lane whose transmitter has begun data enters DATA once its receiver has FEC lock and marker lock. -/
def Lane.toData (l : Lane) : Lane :=
  if l.st = .taps ∧ l.txData ∧ l.fecLock ∧ l.markerLock then { l with st := .data, frameLock := false } else l

/-- R81, R82, R83, R90, R111: a codeword received on lane `n` has been decoded to `dec`, the symbols corrected and the message, or to
nothing when it is uncorrectable: then its bricks are lost, and its blocks, as received in `c`, keep the descrambler and the byte
count going. -/
def State.decoded (s : State) (n : Nat) (c : List Nat) (dec : Option (Nat × List Nat)) : State :=
  let l := s.ln n
  let late := l.markerLock && l.rxCw ≥ 16384
  let found := match dec with | some (_, m) => goodMarker ((blocksOf m).headD 1) | none => false
  let l1 := { l with rxCw := if late then 1 else l.rxCw + 1, markerMiss := if late && !found then l.markerMiss + 1 else l.markerMiss, sig := true }
  let start : RxRun := ⟨l.descr, l.rxBip, l.markBip, l.markSeen, l.rxPart, l.rxHole, l.rxItems, []⟩
  let take (lost : Bool) (m : List Nat) : RxRun := (blocksOf m).foldl (RxRun.block lost) start
  let put (l : Lane) (r : RxRun) : Lane :=
    { l with descr := r.descr, rxBip := r.bip, markBip := r.markBip, markSeen := r.seen, rxPart := r.part, rxHole := r.hole,
             rxItems := if l.markerLock then r.items else r.items.dropWhile (fun x => match x with | .mark _ => false | _ => true) }
  match dec with
  | none =>
    ((s.setLn n (put { l1 with uncorrRun := l1.uncorrRun + 1 } (take true c))).bump (Ctr.LAN_FEC_UNCORR_COUNT n)).raise (srcLan n 0) 0 n
  | some (errs, m) =>
    let r := take false m
    let s2 := ((s.bumpIf (errs > 0) (Ctr.LAN_FEC_CORR_CW_COUNT n)).bumpBy (Ctr.LAN_FEC_CORR_SYM_COUNT n) errs).bumpIf (errs > 0)
      (Ctr.LAN_FEC_HIST_COUNT n errs)
    ((s2.setLn n (put { l1 with uncorrRun := 0, fecLock := true } r)).emit (.laneBytes n (Data.join r.bytes))).mergeLanes (n / 2)

/-- R81: the symbols of a codeword that arrives on lane `n` as PAM4 levels. -/
def State.rxSymbols (s : State) (n levels : Nat) : List Nat :=
  natToSymbols 544 (grayBits codewordUi (invertLevels (s.g (Reg.LAN_LN_CTRL.rx_invert n) == 1) codewordUi levels))

/-- R81, R111: one codeword received on lane `n`. -/
def State.codeword (s : State) (n levels : Nat) : State :=
  (s.bump (Ctr.LAN_FEC_CW_COUNT n)).decoded n (s.rxSymbols n levels) (rsDecode (s.rxSymbols n levels))

/-- The receiver of a lane decodes codewords: in DATA, and once it is content (R97). -/
def Lane.decodes (l : Lane) : Bool := l.st == .data || (l.st == .taps && l.rxReady)

/-! ### Meanings -/

/-- R81: CODEWORD_RX on a lane with FEC decoding. -/
def execCodewordRx (n message parity : Nat) (s : State) : Host.Outcome State Fault Refusal :=
  if n < 128 ∧ (s.ln n).decodes then .next (s.codeword n (message + parity <<< 5140)) else .next s

/-- R90: a lane in DATA loses FEC or marker lock: it goes back to FRAME. -/
def State.lockLost (s : State) (n : Nat) : State :=
  (((s.bump (Ctr.LAN_LOCK_LOSS_COUNT n)).raise (srcLan n 1) 0 n).dropLane n .frame).beginAttempt n 1

/-- R90: FEC_LOCK_LOST after eight consecutive uncorrectable codewords; a lane in TAPS has the lock to gain again before it enters DATA. -/
def execFecLockLost (n : Nat) (s : State) : Host.Outcome State Fault Refusal :=
  if n < 128 ∧ (s.ln n).uncorrRun ≥ 8 then
    if (s.ln n).st = .data then .next (s.lockLost n)
    else if (s.ln n).st = .taps then .next (s.setLn n { s.ln n with fecLock := false })
    else .next s
  else .next s

/-- R90: MARKER_LOCK_LOST after two consecutive expected markers absent or bad; in TAPS as there. -/
def execMarkerLockLost (n : Nat) (s : State) : Host.Outcome State Fault Refusal :=
  if n < 128 ∧ (s.ln n).markerLock ∧ (s.ln n).markerMiss ≥ 2 then
    if (s.ln n).st = .data then .next (s.lockLost n)
    else if (s.ln n).st = .taps then .next (s.setLn n { s.ln n with markerLock := false, markerMiss := 0, rxItems := [] })
    else .next s
  else .next s

/-- R89: MARKER_TX, 16,384 codewords of 32 core cycles after the last marker: on every lane of the port that sends codewords. -/
def execMarkerTx (n : Nat) (s : State) : Host.Outcome State Fault Refusal :=
  if n < 128 ∧ (s.ln n).sends ∧ s.markerTime n then .next ((s.periodEnd (n / 2)).sendMarkers (n / 2)) else .next s

/-- R91, R92: what the port takes from the latest markers of its two lanes, and the lane that the receiver stops accepting where they do
not fit (R527). The skew is that of two markers not yet compared, if they lie less than half a marker interval apart: those are taken
for the two that were sent together (DESIGN CHOICE, notes/assumptions/85). -/
def State.mergeMarkers (s : State) (p : Nat) : State :=
  let base := s.pp p
  let l0 := s.ln (laneOf p 0)
  let l1 := s.ln (laneOf p 1)
  match l0.marker, l1.marker with
  | some a, some b =>
    let mis := a.device ≠ b.device ∨ a.port ≠ b.port ∨ a.laneIndex = b.laneIndex
    let apart := max l0.markerAt l1.markerAt - min l0.markerAt l1.markerAt
    let pair := l0.markNew && l1.markNew && decide (apart < 16384 * 32 * 8)
    let s1 := s.setPp p { base with farMismatch := mis, skew := if pair then min apart 4095 else base.skew,
                                    skewErr := base.skewErr || (pair && decide (apart > 3600)) }
    let s2 := if pair then (s1.setLn (laneOf p 0) { l0 with markNew := false }).setLn (laneOf p 1) { l1 with markNew := false } else s1
    let n := laneOf p (1 - laneIdx (s.rxLane p 0))
    if mis ∧ ¬ base.farMismatch then s2.raise (srcLan n 3) 0 n else s2
  | _, _ => s

/-- R90-R92, R97, R101-R104: a marker with a correct CRC. LAN_PT_FAR takes the values of index 0, and of the other lane while the one that
receives index 0 has no marker lock (DESIGN CHOICE, notes/assumptions/85). -/
def State.markerRx (s : State) (n : Nat) (m : Marker) : State :=
  let p := n / 2
  let l := s.ln n
  let s1 := s.bumpIf (l.markerLock && m.bip != l.markBip.getD l.rxBip) (Ctr.LAN_BIP_ERR_COUNT n)
  let l1 := { l with markerLock := true, fecLock := true, markerMiss := 0, rxCw := b2n l.markBip.isSome,
                     rxBip := if l.markBip.isSome then l.rxBip else 0, markBip := none, markSeen := l.markBip.isNone,
                     markNew := l.markerLock, marker := some m, markerAt := s.ticks, farIndex := m.laneIndex }
  let s3 := (s1.setLn n l1.toData).mergeMarkers p
  let q := s3.pp p
  let use0 := n = s3.rxLane p 0 ∨ ¬ (s3.ln (s3.rxLane p 0)).markerLock
  let q1 := { q with farValid := true, farPort := if use0 then m.port else q.farPort, farDevice := if use0 then m.device else q.farDevice,
                     farSleep := m.sleepMask, farAccept := m.rxAccept, farTx := m.txMask }
  (((s3.setPp p q1).applyMasks p).mergeLanes p).trySleep p

/-- R90, R97: MARKER_RX. -/
def execMarkerRx (n : Nat) (m : Marker) (s : State) : Host.Outcome State Fault Refusal :=
  if n < 128 ∧ (s.ln n).decodes then .next (s.markerRx n m) else .next s

/-- R105: SLEEP_WAKE: the own sleep bit is clear, a signal is detected, or the other index has left DATA. -/
def execSleepWake (n : Nat) (signal : Bool) (s : State) : Host.Outcome State Fault Refusal :=
  let p := n / 2
  let i := laneIdx n
  if n < 128 ∧ (s.ln n).st = .sleep ∧
      (signal ∨ ¬ bit (s.g (Reg.LAN_PT_CTRL.sleep_mask p)) i ∨ (s.ln (laneOf p (1 - i))).st ≠ .data) then
    .next ((s.setLn n { s.ln n with sig := signal }).beginAttempt n 1)
  else .next s

/-- R94: TRAINING_FRAME_RX: a frame with a bad CRC in either field is ignored as a whole. -/
def execTrainingFrameRx (n req status : Nat) (s : State) : Host.Outcome State Fault Refusal :=
  if n < 128 ∧ bits req 0 8 = fieldCrc req ∧ bits status 0 8 = fieldCrc status then .next (s.trainFrame n req status) else .next s

/-- R93: FRAME_LOCK after three consecutive frame markers. -/
def execFrameLock (n : Nat) (s : State) : Host.Outcome State Fault Refusal :=
  let l := s.ln n
  if n < 128 ∧ l.st = .frame ∧ l.frameRun ≥ 3 then .next (s.setLn n { l with frameLock := true, st := .taps })
  else if n < 128 ∧ l.st = .taps ∧ ¬ l.frameLock ∧ l.frameRun ≥ 3 then .next (s.setLn n { l with frameLock := true })
  else .next s

/-- R93: FRAME_LOCK_LOST after four consecutive missing frame markers: four frames of 4,096 UI (193 core cycles) without one. -/
def execFrameLockLost (n : Nat) (s : State) : Host.Outcome State Fault Refusal :=
  let l := s.ln n
  if n < 128 ∧ (l.st = .taps ∨ l.st = .frame) ∧ l.frameLock ∧ s.cycles ≥ l.frameSeen + 193 then
    .next (s.setLn n { l with frameLock := false, frameRun := 0, frameMiss := 4 })
  else .next s

/-- R96: TAP_RESPONSE: the responder acts on a request after all-hold, holds its status until the request is all hold again, and then
reports "not updated". -/
def execTapResponse (n : Nat) (s : State) : Host.Outcome State Fault Refusal :=
  let l := s.ln n
  if n < 128 ∧ l.st = .taps then
    if allHold l.farReq then
      if l.actedReq = 0 then .next s else .next ((s.setLn n { l with actedReq := 0, tapStatus := 0 }).sendFrames n)
    else if l.actedReq = 0 then
      let r := respond l.taps l.farReq
      .next ((s.setLn n { l with actedReq := l.farReq, taps := r.1, tapStatus := r.2 }).sendFrames n)
    else .next s
  else .next s

/-- R96: TAP_RESPONSE_TIMEOUT: 1,024 frames of 4,096 UI (49,345 core cycles) without a response. -/
def execTapResponseTimeout (n : Nat) (s : State) : Host.Outcome State Fault Refusal :=
  let l := s.ln n
  if n < 128 ∧ l.st = .taps ∧ l.ownReq ≠ 0 ∧ l.farTapStatus = 0 ∧ s.cycles ≥ l.reqFrom + 49345 then .next (s.failAttempt n)
  else .next s

/-- R97: RX_READY: the estimated SNR over a number of frames. A request is withdrawn only while every tap status received is "not
updated" (R96). -/
def execRxReady (n snr frames : Nat) (s : State) : Host.Outcome State Fault Refusal :=
  let l := s.ln n
  if n < 128 ∧ l.st = .taps then
    let l1 := { l with snr := min snr 1023 }
    if snr ≥ s.g Reg.LAN_TRAIN_CFG.snr_min ∧ frames ≥ 64 then
      .next ((s.setLn n { l1 with rxReady := true, snrRun := frames, ownReq := if l.farTapStatus = 0 then 0 else l.ownReq }).sendFrames n)
    else .next (s.setLn n l1)
  else .next s

/-- R97: the next cycle is a codeword boundary common with the other lane of the port, if that one sends codewords. -/
def State.commonBoundary (s : State) (n : Nat) : Bool :=
  let o := s.ln (laneOf (n / 2) (1 - laneIdx n))
  !o.sends || (s.cycles - o.markerFrom) % 32 == 0

/-- R97: DATA_START once rx_ready has been sent and received for 16 frames each: the transmitter begins data with a marker; the lane is in
DATA once its receiver has locked. -/
def execDataStart (n : Nat) (s : State) : Host.Outcome State Fault Refusal :=
  let l := s.ln n
  if n < 128 ∧ l.st = .taps ∧ ¬ l.txData ∧ l.rxReady ∧ l.readySent ≥ 16 ∧ l.readyRcvd ≥ 16 ∧ s.commonBoundary n then
    let s1 := (s.setLn n { l with txData := true }).sendMarker n false
    .next (if (s1.ln n).toData.st = .data then (s1.setLn n (s1.ln n).toData).applyMasks (n / 2) else s1)
  else .next s

/-- R98: TRAIN_ATTEMPT_TIMEOUT. -/
def execTrainAttemptTimeout (n : Nat) (s : State) : Host.Outcome State Fault Refusal :=
  let l := s.ln n
  if n < 128 ∧ (l.st = .frame ∨ l.st = .taps) ∧ s.over l.frameAt ≥ s.g Reg.LAN_TRAIN_CFG.limit * 16 then .next (s.failAttempt n)
  else .next s

/-- R100: SIGNAL_ABSENT_TIMEOUT: no signal for 1,024 frames in FRAME or TAPS. -/
def execSignalAbsentTimeout (n : Nat) (s : State) : Host.Outcome State Fault Refusal :=
  let l := s.ln n
  if n < 128 ∧ (l.st = .frame ∨ l.st = .taps) then .next ((s.setLn n { l with sig := false }).failAttempt n) else .next s

/-- R100: SIGNAL_RETURN: a FAILED lane's signal goes from absent to present. -/
def execSignalReturn (n : Nat) (s : State) : Host.Outcome State Fault Refusal :=
  let l := s.ln n
  if n < 128 ∧ l.st = .failed then .next ((s.setLn n { l with sig := true }).beginAttempt n 1)
  else if n < 128 then .next (s.setLn n { l with sig := true })
  else .next s

/-- R100: LANE_RESTART: LAN_LN_CTRL.restart on a FAILED lane. -/
def execLaneRestart (n : Nat) (s : State) : Host.Outcome State Fault Refusal :=
  if n < 128 ∧ (s.ln n).st = .failed ∧ s.mode ≠ .fenced then .next (s.beginAttempt n 1) else .next s

/-- R86: the eight lanes of a PLL leave DATA together and go quiet; lanes under test fall silent. -/
def State.pllLanes (s : State) (k : Nat) : State :=
  let ns := (List.range 8).map (fun i => 8 * k + i)
  let s1 := s.lanesOff (ns.filter (fun n => (s.ln n).st != .test))
  (ns.filter (fun n => (s.ln n).st == .test)).foldl (fun t n => t.emit (.laneIdle n)) s1
/-- R86: a lane PLL loses lock: its eight lanes go quiet. -/
def State.pllLoss (s : State) (k : Nat) : State :=
  ({ s with phy := { s.phy with pllLost := setAdd s.phy.pllLost k } }.level (srcPll k) true k).pllLanes k
/-- R86, R471: what a forced loss does to the eight lanes. -/
def State.pllQuiet (s : State) (k : Nat) : State :=
  { s with phy := { s.phy with pllLost := setAdd s.phy.pllLost k } }.pllLanes k

/-- R106, R108: PRBS generation takes effect in TEST only. -/
def State.prbsOn (s : State) (n : Nat) : Bool :=
  (s.ln n).st == .test && s.g (Reg.LAN_LN_PRBS_CTRL.gen_en n) == 1 && !s.phy.pllLost.contains (pllOf n)
/-- R109: the loopback in effect: 1 near-end, 2 far-end, in TEST only; 0b11, which the register does not define, is none
(DESIGN CHOICE, notes/assumptions/85). -/
def State.loopback (s : State) (n : Nat) : Nat := if (s.ln n).st = .test then s.g (Reg.LAN_LN_CTRL.loopback n) % 3 else 0

/-- Symbols sent since STRAP was entered: 2,720 in 32 core cycles (R81). -/
def State.symbolTime (s : State) : Nat := s.cycles * 85

/-- R107, R108, R109: what a lane in TEST now sends: nothing on its balls in near-end loopback, the pattern while the generator is on, whose
errors at a rate count from here. -/
def State.testSignal (s : State) (n : Nat) : State :=
  if (s.ln n).st ≠ .test then s
  else
    let s1 := if s.prbsOn n then s.setLn n { s.ln n with injAt := s.symbolTime } else s
    if s.loopback n = 1 then s1.emit (.laneIdle n)
    else if s.prbsOn n ∧ s.loopback n = 0 then
      s1.emit (.prbs n (s.g (Reg.LAN_LN_PRBS_CTRL.gen_pattern n) == 1) (s.ln n).genReg)
    else s1

/-- R86: lanes whose PLL is no longer out of lock, in truth or by force, retrain, or go on with their test. -/
def State.pllFree (s : State) : State :=
  let free := s.phy.pllLost.filter (fun j => !(s.src (srcPll j)).real && !(s.src (srcPll j)).force)
  let s1 := { s with phy := { s.phy with pllLost := s.phy.pllLost.filter (fun j => !free.contains j) } }
  free.foldl (fun t j => (List.range 8).foldl (fun t i => (t.laneStart (8 * j + i)).testSignal (8 * j + i)) t) s1

/-- R86: PLL_LOSS_OF_LOCK. -/
def execPllLossOfLock (k : Nat) (s : State) : Host.Outcome State Fault Refusal :=
  if k < 16 ∧ ¬ (s.src (srcPll k)).real then .next (s.pllLoss k) else .next s

/-- R86: PLL_RELOCK: the lanes retrain. -/
def execPllRelock (k : Nat) (s : State) : Host.Outcome State Fault Refusal :=
  if k < 16 ∧ (s.src (srcPll k)).real then .next ((s.level (srcPll k) false k).pllFree)
  else .next s

/-! ### Test and sleep controls (R104, R106-R109) -/

/-- R106: a port may enter test. -/
def State.testAllowed (s : State) (p : Nat) : Bool :=
  s.mode == .monitor || s.mode == .train || s.role s.crs.active p == 0

/-- R89, R104: a changed sleep_mask is announced by an early marker on the lanes of the port, one per course. A second change within one
course waits for the next marker, early or regular; none is sent for it in the next course (DESIGN CHOICE, notes/assumptions/85: the spec
does not say that the marker is deferred). -/
def State.sleepMask (s : State) (p m : Nat) : State :=
  if m = s.g (Reg.LAN_PT_CTRL.sleep_mask p) then s
  else
    let s1 := s.put (Reg.LAN_PT_CTRL.sleep_mask p) m
    let ns := [laneOf p 0, laneOf p 1].filter (fun n => (s.ln n).sends)
    let s2 := if ns.all (fun n => (s.ln n).earlyCourse ≠ some s.crs.course) then
        (ns.foldl (fun t n => t.setLn n { t.ln n with earlyCourse := some s.crs.course }) (s1.periodEnd p)).sendMarkers p
      else s1
    let wake (t : State) (i : Nat) : State :=
      if (t.ln (laneOf p i)).st = .sleep ∧ ¬ bit m i then t.beginAttempt (laneOf p i) 1 else t
    ((wake (wake s2 0) 1).retune p).trySleep p

/-- R106: the port enters test: its lanes obey the test controls, keep the taps they trained (R109), and its PHY is down. -/
def State.enterTest (s : State) (p : Nat) : State :=
  let wasUp := s.phyUp p
  let lane (t : State) (i : Nat) : State :=
    let n := laneOf p i
    (t.setLn n { (t.ln n).fresh .test with taps := (t.ln n).taps }).testSignal n
  let s1 := lane (lane (s.put (Reg.LAN_PT_CTRL.test p) 1) 0) 1
  let s2 := s1.setPp p { s1.pp p with txMask := 0, rxMask := 0 }
  if wasUp then s2.phyFell p else s2

/-- R86, R100: the port leaves test: its lanes go to FRAME, or to DISABLED where mode, role or a lost PLL forbids. -/
def State.leaveTest (s : State) (p : Nat) : State :=
  let s1 := s.put (Reg.LAN_PT_CTRL.test p) 0
  let lane (t : State) (i : Nat) : State :=
    let n := laneOf p i
    if t.lanePermit n ∧ ¬ t.phy.pllLost.contains (pllOf n) then t.beginAttempt n 1 else t.laneOff n
  lane (lane s1 0) 1

/-- R10, R31: RWL fields may be written. -/
def State.rwlOpen (s : State) : Bool := !s.glb.lock || s.mode == .drain
/-- R10: a write that the lock holds in an RWL field is counted once, and raises GLB source 5. -/
def State.lockedNote (s : State) (changes : Bool) : State :=
  if ¬ s.rwlOpen ∧ changes then (s.bump Ctr.GLB_LOCKED_WRITE_COUNT).raise 5 0 0 else s

/-- R104, R106: a write of LAN_PT_CTRL. A write of 1 to test is refused where test mode is not allowed, whatever test holds; the other
fields take effect in any case. -/
def State.ptCtrlWrite (s : State) (p v : Nat) : State :=
  let s1 := if s.rwlOpen then s.put (Reg.LAN_PT_CTRL.force_width1 p) (bits v 4 1) else s
  let s2 := s1.sleepMask p (bits v 0 2)
  if bit v 7 then
    if ¬ s2.testAllowed p then (s2.setPp p { s2.pp p with testRefused := true }).retune p
    else if s2.testing p then s2
    else s2.enterTest p
  else if s2.testing p then s2.leaveTest p
  else s2.retune p
/-- R10: a write of LAN_PT_CTRL that would change force_width1 while the lock holds it is noted. -/
def State.ptCtrlCheck (s : State) (p v : Nat) : State := s.lockedNote (bits v 4 1 != s.g (Reg.LAN_PT_CTRL.force_width1 p))

/-- R10, R106: TEST_ENTER: LAN_PT_CTRL written with test = 1. -/
def execTestEnter (p v : Nat) (s : State) : Host.Outcome State Fault Refusal :=
  if p < 64 ∧ bit v 7 ∧ s.mode ≠ .fenced ∧ s.mode ≠ .off then .next ((s.ptCtrlCheck p v).ptCtrlWrite p v) else .next s

/-- R10, R100: TEST_EXIT: LAN_PT_CTRL written with test = 0 while the port is in test. -/
def execTestExit (p v : Nat) (s : State) : Host.Outcome State Fault Refusal :=
  if p < 64 ∧ ¬ bit v 7 ∧ s.testing p ∧ s.mode ≠ .fenced ∧ s.mode ≠ .off then .next ((s.ptCtrlCheck p v).ptCtrlWrite p v) else .next s

/-- R104: SLEEP_MASK_WRITE. -/
def execSleepMaskWrite (p m : Nat) (s : State) : Host.Outcome State Fault Refusal :=
  if p < 64 ∧ s.mode ≠ .fenced ∧ s.mode ≠ .off then .next (s.sleepMask p (m % 4)) else .next s

/-! ### PRBS (R107-R109) -/

/-- R108: one transmitted symbol's least significant bit is flipped; a near-end loop meets it in the next symbol. -/
def State.flipSymbol (s : State) (n : Nat) : State :=
  (s.emit (.prbsFlip n)).setLn n { s.ln n with injOne := s.loopback n == 1 }

/-- R108: PRBS_INJECT_ONE. -/
def execPrbsInjectOne (n : Nat) (s : State) : Host.Outcome State Fault Refusal :=
  if n < 128 ∧ s.prbsOn n then .next (s.flipSymbol n) else .next s

/-- R108: PRBS_RATE_INJECTION: with inject_rate = k, once in every 2^(k+10) symbols. -/
def execPrbsRateInjection (n : Nat) (s : State) : Host.Outcome State Fault Refusal :=
  let k := s.g (Reg.LAN_LN_PRBS_CTRL.inject_rate n)
  let next := (s.ln n).injAt + 2 ^ (k + 10)
  if n < 128 ∧ s.prbsOn n ∧ k ≠ 0 ∧ s.symbolTime ≥ next then
    let t := s.flipSymbol n
    .next (t.setLn n { t.ln n with injAt := next })
  else .next s

/-- R107: one symbol at the checker: the lane, the bits checked and the bits wrong. Out of lock the checker predicts each symbol from the
bits received before it; in lock it runs on by itself, so that one wrong symbol is one error (DESIGN CHOICE, notes/assumptions/85). The
register that a pattern never holds predicts nothing. -/
def Lane.check (p31 : Bool) (a : Lane × Nat × Nat) (x : Nat) : Lane × Nat × Nat :=
  let l := a.1
  let q := prbsNext p31 l.chkReg
  let got := grayBits 1 x
  if l.chkLock then
    let d := got ^^^ grayBits 1 q.1
    let win := ((x != q.1) :: l.chkWin).take 256
    let lost := (win.filter id).length ≥ 32
    ({ l with chkReg := q.2, chkWin := win, chkLock := !lost, chkLost := l.chkLost || lost, chkRun := 0 }, a.2.1 + 2, a.2.2 + d % 2 + d / 2)
  else
    let dead := if p31 then l.chkReg == 2 ^ 31 - 1 else l.chkReg % 2 ^ 13 == 0
    let run := if x == q.1 && !dead then l.chkRun + 1 else 0
    ({ l with chkReg := prbsPush (prbsPush l.chkReg (got.testBit 0)) (got.testBit 1), chkRun := run, chkLock := run ≥ 64, chkWin := [] }, a.2)

/-- R109: what a lane's own transmitter would have sent meanwhile, with an injected error in the next symbol. -/
def State.ownSymbols (s : State) (n count : Nat) : List Nat × State :=
  let l := s.ln n
  let r := prbsRun (s.g (Reg.LAN_LN_PRBS_CTRL.gen_pattern n) == 1) l.genReg count
  let x := match r.1 with
    | a :: t => (if l.injOne then a ^^^ 1 else a) :: t
    | [] => []
  (x.map (s.txLevels n 1), s.setLn n { l with genReg := r.2, injOne := l.injOne && r.1.isEmpty })

/-- The levels, 0 lowest to 3, of a number of symbols, from which of the three thresholds between the levels each lay above. -/
def levelsOf (count low mid top : Nat) : List Nat :=
  (List.range count).map (fun i => bits low i 1 + bits mid i 1 + bits top i 1)

/-- R107, R109: PRBS_CHECKER_LOCK: the symbols received meanwhile pass the checker, if it is on. Far-end loopback sends them out again, their
polarity as rx_invert and tx_invert have it;
near-end loopback puts the lane's own in their place. -/
def execPrbsCheckerLock (n count low mid top : Nat) (s : State) : Host.Outcome State Fault Refusal :=
  if n < 128 then
    let symbols := levelsOf count low mid top
    let near := s.loopback n = 1
    let r := if near then (if s.prbsOn n then s.ownSymbols n symbols.length else ([], s)) else (symbols, s)
    let back := symbols.map (fun x => s.txLevels n 1 (invertLevels (s.g (Reg.LAN_LN_CTRL.rx_invert n) == 1) 1 x))
    let s1 := if s.loopback n = 2 then r.2.emit (.laneLoop n back) else r.2
    if s.g (Reg.LAN_LN_PRBS_CTRL.chk_en n) = 1 then
      let xs := r.1.map (invertLevels (s.g (Reg.LAN_LN_CTRL.rx_invert n) == 1) 1)
      let c := xs.foldl (Lane.check (s.g (Reg.LAN_LN_PRBS_CTRL.chk_pattern n) == 1)) (s1.ln n, 0, 0)
      .next (((s1.setLn n c.1).bumpBy (Ctr.LAN_PRBS_BIT_COUNT n) c.2.1).bumpBy (Ctr.LAN_PRBS_ERR_COUNT n) c.2.2)
    else .next s1
  else .next s

/-- R108: FEC_INJECT on a lane with FEC encoding: the symbols of its next codeword that will be corrupted; the symbols field clears unless
continuous. -/
def execFecInject (n : Nat) (s : State) : Host.Outcome State Fault Refusal :=
  let k := s.g (Reg.LAN_LN_FEC_INJECT.symbols n)
  if n < 128 ∧ (s.ln n).sends ∧ k ≠ 0 then
    let d := s.drawErrors k (List.range 544) []
    let s1 := (d.2.emit (.fecInject n (d.1.map Prod.fst))).setLn n { d.2.ln n with corrupt := d.1 }
    .next (if s.g (Reg.LAN_LN_FEC_INJECT.continuous n) = 1 then s1 else s1.put (Reg.LAN_LN_FEC_INJECT.symbols n) 0)
  else .next s

end Sys2Proof.Machine
end

