-- ==== Sys2Proof/Machine/Mgmt.lean ====
section
/-! DEFINITION. The management plane (R497-R501): its packets, sending one, the forwarder behind HB7, and the firmware
fetch over a boot link as far as sending goes (R493). -/
namespace Sys2Proof.Machine

/-- The management header of R498. -/
structure MgH where
  dstDev : Nat
  origin : Nat
  dstEp : Nat
  srcEp : Nat
  tag : Nat
  rlen : Nat
  rpos : Nat
  status : Nat
  route : Nat
  addr : Nat
  count : Nat
deriving DecidableEq, Repr

/-- Its 32 bytes. -/
def MgH.data (m : MgH) : Data :=
  Data.ofNat 32 (packB [(0, 20, m.dstDev), (3, 20, m.origin), (6, 8, m.dstEp), (7, 8, m.srcEp), (8, 16, m.tag),
    (10, 8, m.rlen % 16 + 16 * (m.rpos % 16)), (11, 8, m.status), (12, 48, m.route), (18, 26, m.addr), (22, 7, m.count)])
/-- The header of a packet. -/
def MgH.of (d : Data) : MgH :=
  { dstDev := d.field 16 0 20, origin := d.field 19 0 20, dstEp := d.field 22 0 8, srcEp := d.field 23 0 8, tag := d.field 24 0 16,
    rlen := d.field 26 0 4, rpos := d.field 26 4 4, status := d.field 27 0 8, route := d.field 28 0 48, addr := d.field 34 0 26,
    count := d.field 38 0 7 }
/-- Hop i of the source route. -/
def MgH.hop (m : MgH) (i : Nat) : Nat := bits m.route (6 * i) 6
/-- The payload, `n` bytes from byte 48 on. -/
def mgPayload (d : Data) (n : Nat) : Data := d.slice 48 n

/-- R70, R499: the routing header of a management packet for a port; birth, set tag and hops are those of the packet. -/
def State.mgHdr (s : State) (p len type birth set hops : Nat) : Nat :=
  let dst := (s.neighbour p).getD 0
  let src := if s.meValid then s.me else 0
  let h : HdrIn := ⟨dst, 0, src, 0, 7, set, 0, 0, 0, birth, len, type, 0, 0⟩
  Hdr.seal (setBits h.make 94 4 hops)

/-- R500: management packets the forwarder's store holds. -/
def State.mgHeld (s : State) : Nat := ((s.inq 71).filter (fun p => Hdr.type p.head.hdr < 0x3E)).length

/-- R500: a discard by the forwarder. -/
def State.mgDrop (s : State) (port : Nat) : State := (s.bump Ctr.MGT_FWD_DROP_COUNT).raise (srcMgt 0) 0 port

/-- Send a management packet on a port: `body` is everything after the routing header. -/
def State.mgOut (s : State) (p type birth set hops : Nat) (body : Data) : State :=
  let len := ceilDiv (16 + body.len) 64
  s.hubTo 7 (some p) (mkPacket (s.mgHdr p len type birth set hops) body)

/-- R500: the port that route() gives a routed packet, without route-around. -/
def State.mgRoute (s : State) (dst : Nat) : Option Nat :=
  let set := s.crs.active
  let toward (row col : Nat) : Option Nat :=
    if col ≠ s.myCol then s.portFor set 1 col else s.portFor set 2 row
  if dst / 256 = s.myWall then toward (dst / 16 % 16) (dst % 16)
  else
    match (s.validSlots set (dst / 256)).find? (fun k => !s.lostExit (s.exitSlot set (dst / 256) k)) with
    | none => none
    | some k =>
      let x := s.exitSlot set (dst / 256) k
      if s.exitHere x then s.portFor set 3 x.gidx else toward x.row x.col

/-- R500: the modes in which the forwarder runs. -/
def State.mgRuns (s : State) : Bool := s.mode == .train || s.live

/-- R500: where the forwarder sends a packet: a port, or none when it discards it. -/
def State.mgPort (s : State) (m : MgH) : Option Nat :=
  let p := if m.rlen = 0 then s.mgRoute m.dstDev else some (m.hop m.rpos)
  p.filter (fun x => s.up x && m.rlen ≤ 8 && s.mgHeld < 64 && !(s.role s.crs.active x == 4 && m.rlen == 0))

/-- R500: the origin's forwarder: a packet built here is delivered here or sent on, a source route from its hop 0. -/
def State.mgSend (s : State) (type : Nat) (m : MgH) (payload : Data) : State :=
  let birth := s.course % 65536
  if m.rlen = 0 ∧ m.dstDev = s.me then
    if s.mgRuns then
      let d := mkPacket (s.mgHdr 64 (ceilDiv (48 + payload.len) 64) type birth s.crs.active 0) (m.data.append payload)
      { s with mgt := { s.mgt with inq := s.mgt.inq ++ [⟨d, 64⟩] } }
    else s.mgDrop 64
  else
    match s.mgPort { m with rpos := 0 } with
    | some p =>
      if s.mgRuns then s.mgOut p type birth s.crs.active 0 (({ m with rpos := if m.rlen = 0 then 0 else 1 }).data.append payload) else s.mgDrop 64
    | none => s.mgDrop 64

/-- R500: a response retraces a source route. -/
def MgH.answer (m : MgH) (me status count : Nat) : MgH :=
  { m with dstDev := m.origin, origin := me, dstEp := m.srcEp, srcEp := m.dstEp, rpos := 0, status := status, count := count,
           route := (List.range m.rlen).foldl (fun a i => a + m.hop (m.rlen - 1 - i) <<< (6 * i)) 0 }
/-- The device's own identifier in a management header. -/
def State.mgMe (s : State) : Nat := if s.meValid then s.me else 0

/-- R500: deliver a packet at this device. -/
def State.mgDeliver (s : State) (d : Data) (port : Nat) : State := { s with mgt := { s.mgt with inq := s.mgt.inq ++ [⟨d, port⟩] } }

/-- R161: the lifetime check of a management packet that has waited at HB7; FW_REQ and FW_DATA have none, as at the route stage. -/
def State.mgLife (s : State) (t h : Nat) : Option Bool := if t = 0x34 ∨ t = 0x35 then none else s.lifeCheck (Hdr.birth h)

/-- R161, R497, R500: MGMT_FORWARD: the next packet delivered to HB7. FW_REQ and FW_DATA go no further than one link (R499), and in STRAP
the boot link carries nothing else. -/
def execMgmtForward (s : State) : Host.Outcome State Fault Refusal :=
  match s.hubQ 7 with
  | [] => .next s
  | (d, port) :: _ =>
    let s1 := s.hubPop 7
    let h := d.hdr
    let t := Hdr.type h
    let m := MgH.of d
    if ¬ (s.mgRuns ∨ s.mode = .strap) then .next s1
    else if ¬ Hdr.crcOk h then .next ((s1.bump Ctr.RTE_HDR_ERR_COUNT).raise (srcRte 1) 0 71)
    else if 0x36 ≤ t then .next (s1.bump Ctr.MGT_DROP_COUNT)
    else if let some old := s.mgLife t h then
      .next ((s1.bump (if old then Ctr.RTE_LIFE_DROP_COUNT else Ctr.RTE_FUTURE_DROP_COUNT)).raise (srcRte 0) 0 71)
    else
      let rec_ := if m.rlen = 0 ∨ m.rpos = 0 then m else { m with route := setBits m.route (6 * (m.rpos - 1)) 6 port }
      let d1 := d.patch 16 rec_.data
      if t = 0x34 ∨ t = 0x35 then .next (s1.mgDeliver d1 port)
      else if s.mode = .strap then .next (s1.mgDrop port)
      else if (m.rlen = 0 ∧ m.dstDev = s.me) ∨ (m.rlen ≠ 0 ∧ m.rpos = m.rlen) then .next (s1.mgDeliver d1 port)
      else if Hdr.hops h = 15 then .next (s1.mgDrop port)
      else
        match s1.mgPort rec_ with
        | some p =>
          let m2 := if m.rlen = 0 then rec_ else { rec_ with rpos := m.rpos + 1 }
          .next ((s1.mgOut p t (Hdr.birth h) (Hdr.setTag h) (Hdr.hops h) (m2.data.append (d.slice 48 (d.len - 48)))).bump Ctr.MGT_FWD_COUNT)
        | none => .next (s1.mgDrop port)

/-! ### Firmware over a boot link, the requester (R491, R493, R496) -/

/-- Set or end a fetch. -/
def State.setFetch (s : State) (p : Nat) (f : Option Fetch) : State := { s with mgt := { s.mgt with fetch := Tbl.upd s.mgt.fetch p f } }
def State.fetch? (s : State) (p : Nat) : Option Fetch := Tbl.find? s.mgt.fetch p

/-- The image length that the bytes received so far give (R494). -/
def Fetch.total (f : Fetch) : Option Nat := if f.got.len ≥ 12 then some (f.got.field 8 0 32) else none

/-- R493: send the request for the next bytes, over the one link. -/
def State.fwReq (s : State) (p : Nat) (f : Fetch) : State :=
  let left := match f.total with | some n => ceilDiv (n - f.got.len) 64 | none => 64
  let m : MgH := { dstDev := (s.neighbour p).getD 0, origin := s.mgMe, dstEp := 0x03, srcEp := Config.mgmtEp 9 % 256,
                   tag := f.tag, rlen := 1, rpos := 1, status := 0, route := p, addr := f.got.len, count := min 64 left }
  (s.mgOut p 0x34 (s.course % 65536) s.crs.active 0 m.data).setFetch p (some { f with sends := f.sends + 1, sentAt := s.mgt.bootCycle })

/-- R492, R493, R496: a fetch begins: GLB_BOOT_STATUS counts it. -/
def State.fetchBegin (s : State) (src : Nat) : State :=
  (((s.put Reg.GLB_BOOT_STATUS.stage 3).put Reg.GLB_BOOT_STATUS.source src).put Reg.GLB_BOOT_STATUS.attempts
    (min 255 (s.g Reg.GLB_BOOT_STATUS.attempts + 1)))

/-- A fabric fetch starts from offset 0. -/
def State.fabricFetch (s : State) (p : Nat) : State :=
  (s.fetchBegin (p - 61)).fwReq p { got := Data.empty, sends := 0, sentAt := 0, tag := s.mgt.bootCycle % 65536, full := false, retryAt := none }

/-- R496: a fetch or a check has failed with a result. -/
def State.bootFailed (s : State) (src result : Nat) : State :=
  let s1 := ((s.put Reg.GLB_BOOT_STATUS.source src).put Reg.GLB_BOOT_STATUS.result result).emit (.uart "rom: boot failed")
  if src = 0 then { s1.put (Reg.MGT_BOOT_MBOX.state) 2 with mgt := { s1.mgt with hostGot := Data.empty } }
  else s1.setFetch (61 + src) (some { got := Data.empty, sends := 0, sentAt := 0, tag := 0, full := false, retryAt := some s.mgt.bootCycle })

/-- R492: the next read of the image buffer, of at most 512 bytes, with the requester ID of the owner PF. -/
def State.bootRead (s : State) : State :=
  let h := s.g Reg.MGT_BOOT_MBOX.owner
  let a := (s.g Reg.MGT_BOOT_MBOX.addr_lo + s.g Reg.MGT_BOOT_MBOX.addr_hi * 2 ^ 20) * 4096
  let n := s.g Reg.MGT_BOOT_MBOX.length
  let at_ := s.mgt.hostGot.len
  if at_ < n then s.hostRead h (h * 256) (a + at_) (min 512 (n - at_)) else s

/-- R490 step 4, R492: the fetch of a go begins once its cycle has ended and the ROM self-test has passed. -/
def State.goFetch (s : State) : State :=
  if s.mgt.goPend then ({ s with mgt := { s.mgt with goPend := false } }.fetchBegin 0).bootRead else s

/-- R490 step 4, R492, R493: in STRAP, once the ROM self-test has passed: the fetch of a go begins, and on a boot link that is UP and has
fetched nothing yet MC0 begins to fetch. -/
def State.bootTick (s : State) : State :=
  if s.mode = .strap ∧ s.g Reg.GLB_BOOT_STATUS.stage ≥ 3 then
    [62, 63].foldl (fun t p => if t.bootPort p && t.up p && (t.fetch? p).isNone then t.fabricFetch p else t)
      ({ s with mgt := { s.mgt with bootCycle := s.mgt.bootCycle + 1 } }.goFetch)
  else s

end Sys2Proof.Machine
end

