-- ==== Sys2Proof/Machine/Ltl.lean ====
section
/-! DEFINITION. The lintel (R455-R462): MCTP packets between board buses, host ports and the management plane, and the
side-band signals; and the meanings of its rows. The MCTP header is that of DSP0236 (PRESUMED). -/
namespace Sys2Proof.Machine

/-- The lintel works on the board side in the modes of R37, while MC3, which serves its traffic (R18), runs. -/
def State.ltlRuns (s : State) : Bool := s.counting && s.g Reg.LTL_CFG.enable == 1 && s.coreRuns 3

/-- R456: a port exists and is in use: a bus that is enabled, or a host port whose link is up (R458). -/
def State.ltlPort (s : State) (p : Nat) : Bool :=
  if p < 4 then s.g (Reg.LTL_BUS_CFG.enable p) == 1
  else p < 8 && s.hpPresent (p - 4) && bit (Tbl.get (fun _ => 0) s.glb.hpStatus (p - 4)) 30 && s.mode != .fenced

/-- The egress queue of a port (R458). -/
def State.egress (s : State) (p : Nat) : List LtlSend := Tbl.get (fun _ => []) s.ltl.egress p
def State.setEgress (s : State) (p : Nat) (l : List LtlSend) : State :=
  { s with ltl := { s.ltl with egress := Tbl.put (fun _ => []) s.ltl.egress p l } }
/-- R458: queue a packet for a port, or discard it at a full queue. -/
def State.ltlPush (s : State) (p phys : Nat) (d : Data) : State :=
  if (s.egress p).length ≥ 32 then s.bump Ctr.LTL_QUEUE_DROP_COUNT else s.setEgress p (s.egress p ++ [⟨phys, d, 0⟩])

/-- R457: the record of an MCTP packet. -/
def mctpRecord (port phys : Nat) (d : Data) : Data :=
  (Data.ofNat 76 (packB [(0, 8, 1), (1, 3, port), (2, 16, phys), (4, 7, d.len)] + d.val % 2 ^ (8 * d.len) <<< 64))
/-- Send a record to a management endpoint of a device; the tag of a message that gets no answer is free. -/
def State.ltlMsg (s : State) (dev ep : Nat) (rec : Data) : State :=
  let d := s.draw
  d.2.mgSend 0x33 ⟨dev, s.mgMe, ep, 0x00, d.1 % 2 ^ 16, 0, 0, 0, 0, 0, rec.len / 4⟩ rec

/-- A packet's destination and source EID, and whether it is a whole control request (DSP0236). -/
def mctpDst (d : Data) : Nat := d.field 1 0 8
def mctpSrc (d : Data) : Nat := d.field 2 0 8
def mctpControl (d : Data) : Bool := d.len ≥ 7 && d.field 3 6 2 == 3 && d.field 4 0 7 == 0 && d.field 5 7 1 == 1

/-- R455: MC3's answer to a control request: completion code 0x05 for a command other than the four it supports (DSP0236
commands 0x01, 0x02, 0x04, 0x05), whose own answers are firmware's and free here. -/
def State.mctpAnswer (s : State) (port phys : Nat) (d : Data) : State :=
  if ¬ mctpControl d then s
  else
    let cmd := d.field 6 0 8
    let hdr := [d.field 0 0 8, mctpSrc d, s.g Reg.LTL_CFG.eid, 0xC0 + d.field 3 0 3, 0, d.field 5 0 5, cmd]
    if [1, 2, 4, 5].contains cmd then
      let a := s.draw
      let b := a.2.draw
      b.2.ltlPush port phys ((Data.ofBytes hdr).append (Data.ofNat (1 + a.1 % 61) b.1))
    else s.ltlPush port phys (Data.ofBytes (hdr ++ [0x05]))

/-- R455, R456: a packet received on a port from a bus address. -/
def State.mctpRx (s : State) (port phys : Nat) (d : Data) : State :=
  if d.len > 68 then s.bump Ctr.LTL_SIZE_DROP_COUNT
  else
    let eid := mctpDst d
    if eid = 0xFF then s.bump Ctr.LTL_ROUTE_DROP_COUNT
    else if eid = 0 ∨ eid = s.g Reg.LTL_CFG.eid then (s.emit (.toCore 3 d)).mctpAnswer port phys d
    else if s.g (Reg.LTL_ROUTE.valid eid) = 0 ∨ s.ltl.bad.contains eid then s.bump Ctr.LTL_ROUTE_DROP_COUNT
    else
      let p := s.g (Reg.LTL_ROUTE.port eid)
      let ph := s.g (Reg.LTL_ROUTE.phys eid)
      if s.g (Reg.LTL_ROUTE.remote eid) = 1 then
        if s.mgRuns then (s.ltlMsg (s.g (Reg.LTL_ROUTE.device eid)) (s.g (Reg.LTL_ROUTE.mgmt_ep eid)) (mctpRecord p ph d)).bump Ctr.LTL_FWD_COUNT
        else s.bump Ctr.LTL_ROUTE_DROP_COUNT
      else if ¬ s.ltlPort p then s.bump Ctr.LTL_ROUTE_DROP_COUNT
      else (s.ltlPush p ph d).bumpIf (decide ((s.egress p).length < 32)) Ctr.LTL_FWD_COUNT

/-- R456: MCTP_PACKET_RX: ports 0-3 are board buses, 4-7 host ports. -/
def execMctpPacketRx (port phys : Nat) (d : Data) (s : State) : Host.Outcome State Fault Refusal :=
  if s.ltlRuns ∧ s.ltlPort port then .next (s.mctpRx port phys d) else .next s

/-- R457: LINTEL_RECORD_RX: a record goes out on its port and address without a lookup. -/
def execLintelRecordRx (s : State) : Host.Outcome State Fault Refusal :=
  match s.ltl.records with
  | [] => .next s
  | r :: t =>
    let s1 := { s with ltl := { s.ltl with records := t } }
    let p := r.field 1 0 3
    let d := r.slice 8 (r.field 4 0 7)
    if ¬ s.ltlRuns ∨ r.field 0 0 8 ≠ 1 then .next s1
    else if d.len > 68 then .next (s1.bump Ctr.LTL_SIZE_DROP_COUNT)
    else if ¬ s.ltlPort p then .next (s1.bump Ctr.LTL_ROUTE_DROP_COUNT)
    else .next ((s1.ltlPush p (r.field 2 0 16) d).bumpIf (decide ((s1.egress p).length < 32)) Ctr.LTL_FWD_COUNT)

/-- R458: how a packet leaves on a port: by SMBus with command code 0x0F, by I3C, or as a VDM. -/
def State.mctpOut (s : State) (port phys : Nat) (d : Data) : Out :=
  if 4 ≤ port then .vdm (port - 4) phys d
  else if s.g (Reg.LTL_BUS_CFG.mode port) = 1 then .i3cWrite port (bits phys 0 7) d
  else .smbusWrite port (bits phys 0 7) 0x0F d

/-- R458: MCTP_SEND: the oldest packet of a port is sent; `ack` says whether a bus target acknowledged it (a VDM needs none). -/
def execMctpSend (port : Nat) (ack : Bool) (s : State) : Host.Outcome State Fault Refusal :=
  match s.egress port with
  | [] => .next s
  | h :: t =>
    if ¬ s.ltlRuns ∨ ¬ s.ltlPort port then .next s
    else
      let s1 := s.emit (s.mctpOut port h.phys h.d)
      if ack ∨ 4 ≤ port then .next (s1.setEgress port t)
      else if h.tries < s.g (Reg.LTL_BUS_CFG.retries port) then .next (s1.setEgress port ({ h with tries := h.tries + 1 } :: t))
      else .next (((s1.setEgress port t).bump Ctr.LTL_SEND_FAIL_COUNT).raise (srcLtl 0) 0 port)

/-- R458: ALERT_PULL: BOARD_ALERT_N[b] is low: an Alert Response Address read gives `addr`, and a Block Read with command 0x0F from it the packet. -/
def execAlertPull (b addr : Nat) (d : Data) (s : State) : Host.Outcome State Fault Refusal :=
  if s.ltlRuns ∧ b < 4 ∧ s.ltlPort b ∧ s.g (Reg.LTL_BUS_CFG.mode b) = 0 ∧ s.g (Reg.LTL_BUS_CFG.alert_pull b) = 1 then
    .next (((s.emit (.smbusRead b 0x0C none (Data.ofNat 1 (2 * addr)))).emit (.smbusRead b addr (some 0x0F) d)).mctpRx b addr d)
  else .next s

/-- R458: I3C_IBI_RX: an In-Band Interrupt from a target with mandatory byte 0xAE is followed by a private read of the packet. -/
def execI3cIbiRx (b addr mdb : Nat) (d : Data) (s : State) : Host.Outcome State Fault Refusal :=
  if s.ltlRuns ∧ b < 4 ∧ s.ltlPort b ∧ s.g (Reg.LTL_BUS_CFG.mode b) = 1 ∧ mdb = 0xAE then
    .next ((s.emit (.i3cRead b addr d)).mctpRx b addr d)
  else .next s

/-- R458: a bus that is enabled in I3C mode: each target that LTL_ROUTE names for it gets its static address. -/
def State.busEnabled (s : State) (b : Nat) : State :=
  if s.g (Reg.LTL_BUS_CFG.mode b) = 1 then
    (List.range 256).foldl (fun t e =>
      if t.g (Reg.LTL_ROUTE.valid e) = 1 ∧ ¬ t.ltl.bad.contains e ∧ t.g (Reg.LTL_ROUTE.remote e) = 0 ∧ t.g (Reg.LTL_ROUTE.port e) = b then
        t.emit (.setdasa b (bits (t.g (Reg.LTL_ROUTE.phys e)) 0 7)) else t) s
  else s

/-! ### Side-band signals (R459, R460) -/

/-- R459: the run of samples of each signal that differ from its reported level, after a sample. A course that has no command is one
whose sample found every signal at its reported level (DESIGN CHOICE, notes/assumptions/75). -/
def State.sbRuns (s : State) (sample : Nat) : List Nat :=
  let run (i : Nat) : Nat := if s.ltl.sbCourse = some (s.crs.course - 1) then s.ltl.sbRun.getD i 0 else 0
  (List.range 12).map (fun i => if bit sample i = bit (s.g Reg.LTL_SB_STATUS.levels) i then 0 else run i + 1)

/-- R460: one signal's new level is reported. -/
def State.sbReport (s : State) (i : Nat) (level : Bool) : State :=
  let lv := setBits (s.g Reg.LTL_SB_STATUS.levels) i 1 (b2n level)
  let ch := setBits (s.g Reg.LTL_SB_STATUS.changed) i 1 1
  ((s.put Reg.LTL_SB_STATUS.levels lv).put Reg.LTL_SB_STATUS.changed ch).raise (srcLtl 1) i 0 none (b2n level)

/-- R459, R460: one sample of the twelve signals. -/
def State.sideband (s : State) (sample : Nat) : State :=
  let runs := s.sbRuns sample
  let n := max 1 (s.g Reg.LTL_SB_CFG.debounce)
  let changed := (List.range 12).filter (fun i => decide (runs.getD i 0 ≥ n))
  let s1 : State := { s with ltl := { s.ltl with sbCourse := some s.crs.course, sbRun := runs.map (fun r => if r ≥ n then 0 else r) } }
  let s2 : State := changed.foldl (fun t i => t.sbReport i (bit sample i)) s1
  let mask : Nat := changed.foldl (fun a i => a + 2 ^ i) 0
  if mask ≠ 0 ∧ s2.g Reg.LTL_SB_CFG.notify = 1 ∧ s2.mgRuns then
    s2.ltlMsg (s2.g Reg.LTL_SB_CFG.notify_dev) 0x01
      (Data.ofNat 20 (packB [(0, 8, 2), (8, 16, s2.g Reg.LTL_SB_STATUS.levels), (10, 16, mask), (12, 64, s.now)]))
  else s2

/-- R459, R460: SIDEBAND_CHANGE: the sample of this course, HOST_PWRGD in bits 3..0, HOST_ALERT_N 7..4, BOARD_ALERT_N 11..8. -/
def execSidebandChange (sample : Nat) (s : State) : Host.Outcome State Fault Refusal :=
  if s.counting ∧ s.ltl.sbCourse ≠ some s.crs.course ∧ 256 ≤ s.crs.cycle ∧ s.crs.cycle ≤ 383 then .next (s.sideband sample) else .next s

end Sys2Proof.Machine
end

