-- ==== Sys2Proof/Machine/Mgt.lean ====
section
/-! DEFINITION. Boot (R490-R496), firmware service (R506), mailboxes (R505), management cores (R507, R520) and delivered
messages (R501): operations and the meanings of their rows. -/
namespace Sys2Proof.Machine

/-- The next delivered packet of one of these types, taken off. -/
def State.mgTake (s : State) (types : List Nat) : Option (MgIn × State) :=
  match s.mgt.inq.find? (fun x => types.contains (Hdr.type x.d.hdr)) with
  | some x => some (x, { s with mgt := { s.mgt with inq := s.mgt.inq.erase x } })
  | none => none

/-! ### The boot mailbox (R492) -/

/-- A host source is one that STRAP_BOOT selects (R491). -/
def State.hostBoot (s : State) : Bool := s.glb.strapBoot == 0 || s.glb.strapBoot == 3

/-- R492: a go: taken in STRAP while IDLE or FAILED, from a PF of a host port that is present; of several in one cycle that of the lowest
host port. The fetch itself begins when the cycle ends, or once the ROM self-test has passed (R490). -/
def State.bootGo (s : State) (req : Requester) : State :=
  match req with
  | .fn i =>
    let st := s.g Reg.MGT_BOOT_MBOX.state
    let lower := st = 1 ∧ s.mgt.goPend ∧ s.mgt.goAt = s.cycles ∧ hpOf i < s.g Reg.MGT_BOOT_MBOX.owner
    if s.mode = .strap ∧ s.hostBoot ∧ isPf i ∧ s.hpPresent (hpOf i) ∧ (st = 0 ∨ st = 2 ∨ lower) then
      let s1 := (s.put Reg.MGT_BOOT_MBOX.owner (hpOf i)).put Reg.MGT_BOOT_MBOX.state 1
      { s1 with mgt := { s1.mgt with hostGot := Data.empty, goPend := true, goAt := s.cycles } }
    else s
  | _ => s

/-- R492: BOOT_MBOX_GO: the go bit of MGT_BOOT_MBOX word 3. -/
def execBootMboxGo (req : Requester) (s : State) : Host.Outcome State Fault Refusal := .next (s.bootGo req)

/-- R490 step 5, R496: the image of a source is complete and is now authenticated. -/
def State.fetched (s : State) (src : Nat) : State := (s.put Reg.GLB_BOOT_STATUS.stage 4).put Reg.GLB_BOOT_STATUS.source src

/-- R492: BOOT_IMAGE_READ_RETURN. -/
def execBootImageReadReturn (r : ReadResult) (s : State) : Host.Outcome State Fault Refusal :=
  let n := s.g Reg.MGT_BOOT_MBOX.length
  let at_ := s.mgt.hostGot.len
  if s.mode = .strap ∧ s.g Reg.MGT_BOOT_MBOX.state = 1 ∧ s.g Reg.GLB_BOOT_STATUS.stage ≥ 3 ∧ ¬ s.mgt.goPend ∧ at_ < n then
    match r with
    | .error _ => .next (s.bootFailed 0 6)
    | .data d =>
      let t := { s with mgt := { s.mgt with hostGot := s.mgt.hostGot.append (d.slice 0 (min 512 (n - at_))) } }
      .next (if t.mgt.hostGot.len < n then t.bootRead else t.fetched 0)
  else .next s

/-! ### Authentication (R494, R495) -/

/-- Entry offset of a core (R494). -/
def imageEntry (d : Data) (c : Nat) : Nat := d.field (16 + 4 * c) 0 32
/-- A big-endian number of the header. -/
def imageNum (d : Data) (off n : Nat) : Nat := (d.slice off n).beNat

/-- R495: the result of checking an image: 1 accepted, else the first failing check. -/
def checkImage (d : Data) : Nat :=
  let len := d.field 8 0 32
  let inBody (c : Nat) : Bool := 256 ≤ imageEntry d c && imageEntry d c < len
  let hash := sha384 (d.slice 32 96).bytes
  let keyOk (i : Nat) : Bool := Config.keyHash i == hash && !Config.keyRevoked i
  if d.len < 256 ∨ d.slice 0 4 ≠ Data.ofBytes [0x47, 0x4C, 0x4B, 0x46] ∨ d.field 4 0 16 ≠ 1 ∨ len ≠ d.len ∨ len % 64 ≠ 0 ∨ len > 2 ^ 21 ∨
      ((List.range 4).all inBody) = false then 2
  else if (keyOk 0 || keyOk 1) = false then 3
  else if d.field 12 0 32 < Config.minSvn then 4
  else if ecdsaVerify (imageNum d 32 48) (imageNum d 80 48) (imageNum d 128 48) (imageNum d 176 48)
      (sha384 ((d.slice 0 128).bytes ++ (d.slice 256 (d.len - 256)).bytes)) then 1
  else 5

/-- The image a source has completed: source 0 host, 1 FP62, 2 FP63. -/
def State.bootImage (s : State) (src : Nat) : Option Data :=
  if src = 0 then
    (if s.g Reg.MGT_BOOT_MBOX.state = 1 ∧ s.g Reg.GLB_BOOT_STATUS.stage ≥ 3 ∧ ¬ s.mgt.goPend ∧ s.mgt.hostGot.len ≥ s.g Reg.MGT_BOOT_MBOX.length then
      some s.mgt.hostGot else none)
  else ((s.fetch? (61 + src)).filter (fun f => f.full)).map (fun f => f.got)

/-- R37 (a), R29: the transmitters of a port go to electrical idle. -/
def State.portOff (s : State) (p : Nat) : State := (s.linkForbid p).lanesOff [laneOf p 0, laneOf p 1]

/-- R29, R495: the image of a source is accepted: MONITOR is entered, the local course counter starts at zero, the monitor starts, the
boot links go to electrical idle and the other transfers are abandoned. -/
def State.bootAccept (s : State) (src : Nat) (d : Data) : State :=
  let s1 := (((s.put Reg.GLB_BOOT_STATUS.stage 5).put Reg.GLB_BOOT_STATUS.source src).put Reg.GLB_BOOT_STATUS.result 1).put
    Reg.GLB_BOOT_STATUS.svn (d.field 12 0 12)
  let s2 := (s1.put Reg.MGT_BOOT_MBOX.state (if src = 0 then 3 else 0)).put Reg.MGT_FW_SERVE.image_len d.len
  let s3 := [62, 63].foldl (fun t p => if t.bootPort p then t.portOff p else t) s2
  let g : Glb := { s3.glb with prevMode := 1, cause := 5 }
  let m : Mgt := { s3.mgt with image := d, hostGot := Data.empty, goPend := false, fetch := [], inq := [], mon := Mon.reset }
  ({ s3 with mode := .monitor, glb := g, mgt := m }.setTime 0 0).emit (.coreStart 0 (imageEntry d 0))

/-- R491, R495: BOOT_FETCH_COMPLETE: the authentication of the images of these sources ends in one cycle; of those that pass, the host's
is used, else FP62's. Each that fails is recorded (R496). With a fence cause pending in the same cycle MONITOR is entered, and the fence
follows at a later boundary (DESIGN CHOICE, notes/assumptions/96: R27 gives no order). -/
def execBootFetchComplete (srcs : List Nat) (s : State) : Host.Outcome State Fault Refusal :=
  if s.mode ≠ .strap then .next s
  else
    let done := [0, 1, 2].filterMap (fun k => if srcs.contains k then (s.bootImage k).map (fun d => (k, d)) else none)
    let s1 := (done.filter (fun e => checkImage e.2 != 1)).foldl (fun t e =>
      (t.put Reg.GLB_BOOT_STATUS.stage 4).bootFailed e.1 (checkImage e.2)) s
    match done.find? (fun e => checkImage e.2 == 1) with
    | some (k, d) => .next (s1.bootAccept k d)
    | none => .next s1

/-! ### Fabric fetch (R493, R496) -/

/-- R493: FW_REQ_TIMEOUT on port 62 or 63. -/
def execFwReqTimeout (p : Nat) (s : State) : Host.Outcome State Fault Refusal :=
  match s.fetch? p with
  | some f =>
    if s.mode = .strap ∧ ¬ f.full ∧ f.retryAt = none ∧ s.mgt.bootCycle - f.sentAt ≥ 64 * 1280 then
      (if f.sends ≥ 16 then .next (s.bootFailed (p - 61) 7) else .next (s.fwReq p f))
    else .next s
  | none => .next s

/-- R496: FW_FETCH_RETRY on port 62 or 63. -/
def execFwFetchRetry (p : Nat) (s : State) : Host.Outcome State Fault Refusal :=
  match s.fetch? p with
  | some f =>
    match f.retryAt with
    | some c => if s.mode = .strap ∧ s.mgt.bootCycle - c ≥ 64 * 1280 ∧ s.up p then .next (s.fabricFetch p) else .next s
    | none => .next s
  | none => .next s

/-- R493: FW_DATA_RX: the answer to the outstanding request brings its bytes, and the next request is sent until all have arrived.
An image that names more than 2 MiB ends the fetch at once, and its format check fails. -/
def execFwDataRx (s : State) : Host.Outcome State Fault Refusal :=
  match s.mgTake [0x35] with
  | none => .next s
  | some (x, s1) =>
    let m := MgH.of x.d
    match s1.fetch? x.port with
    | some f =>
      if s.mode ≠ .strap ∨ f.full ∨ f.retryAt ≠ none ∨ m.tag ≠ f.tag ∨ m.addr ≠ f.got.len ∨ m.status ≠ 0 ∨ m.count = 0 then .next s1
      else
        let got := f.got.append (mgPayload x.d (64 * min 64 m.count))
        let f1 := { f with got := got, sends := 0, tag := (f.tag + 1) % 65536 }
        match f1.total with
        | some n =>
          if n > 2 ^ 21 ∨ got.len ≥ n then .next ((s1.setFetch x.port (some { f1 with full := true })).fetched (x.port - 61)) else .next (s1.fwReq x.port f1)
        | none => .next (s1.fwReq x.port f1)
    | none => .next s1

/-- R506: FW_REQ_RX: the firmware service, on service ports; MC1 serves its endpoint (R501). -/
def execFwReqRx (s : State) : Host.Outcome State Fault Refusal :=
  match s.mgTake [0x34] with
  | none => .next s
  | some (x, s1) =>
    if ¬ s.coreRuns 1 then .next s
    else if ¬ s.mgRuns ∨ s.g Reg.MGT_FW_SERVE.enable = 0 ∨ s.role s.crs.active x.port ≠ 4 ∨ ¬ s.up x.port then .next s1
    else
      let m := MgH.of x.d
      let img := s.mgt.image
      let units := min (min 64 m.count) (ceilDiv (img.len - m.addr) 64)
      let status := if m.dstEp ≠ 0x03 then 0x04 else if m.addr ≥ img.len then 0x02 else 0
      let n := if status = 0 then units else 0
      let a := { m.answer s.mgMe status n with rpos := if m.rlen = 0 then 0 else 1 }
      .next ((s1.mgOut x.port 0x35 (s.course % 65536) s.crs.active 0 (a.data.append (img.slice m.addr (64 * n)))).bump Ctr.MGT_FW_SERVE_COUNT)

/-! ### Mailboxes (R505) -/

def State.box (s : State) (m : Nat) : Mailbox := Tbl.get (fun _ => Mailbox.reset) s.mgt.boxes m
def State.setBox (s : State) (m : Nat) (b : Mailbox) : State :=
  { s with mgt := { s.mgt with boxes := Tbl.put (fun _ => Mailbox.reset) s.mgt.boxes m b } }

/-- R505: who may use a mailbox. -/
def boxOwner (req : Requester) (m : Nat) : Bool :=
  match req with
  | .fn i => decide (m < 4) && i == m * 256
  | .mc c => decide (4 ≤ m) && c + 4 == m
  | .monitor => m == 4
  | .fm => false

/-- The data area: 64 words. -/
def State.boxData (s : State) (m n : Nat) : Data :=
  Data.join ((List.range n).map (fun i => Data.ofNat 4 (s.word (Reg.MGT_MG_DATA.off m i))))

/-- R505: the request that a mailbox's registers describe. -/
def State.boxReq (s : State) (m tag : Nat) : MgH :=
  { dstDev := s.g (Reg.MGT_MG.dst_dev m), origin := s.mgMe, dstEp := s.g (Reg.MGT_MG.dst_ep m), srcEp := Config.mgmtEp m % 256, tag := tag,
    rlen := s.g (Reg.MGT_MG.route_len m), rpos := 0, status := 0,
    route := s.g (Reg.MGT_MG.route_a m) + s.g (Reg.MGT_MG.route_b m) * 2 ^ 30, addr := s.g (Reg.MGT_MG.addr m), count := s.g (Reg.MGT_MG.count m) }

/-- The request of a mailbox as it stands when op is written, kept so that a resend is the same request: 16 bytes for the routing
header, its management header, its payload. -/
def State.boxKeep (s : State) (m op tag : Nat) : Data :=
  let r := s.boxReq m tag
  (Data.ofNat 16 0).append (r.data.append (if op = 1 then Data.empty else s.boxData m (min 64 r.count)))
/-- Send, or send again, a mailbox's request. -/
def State.boxSend (s : State) (op : Nat) (d : Data) : State :=
  s.mgSend (if op = 1 then 0x30 else if op = 2 then 0x31 else 0x33) (MgH.of d) (d.slice 48 (d.len - 48))

/-- A mailbox request finishes with a status. -/
def State.boxDone (s : State) (m status : Nat) : State :=
  let b := s.box m
  ((s.put (Reg.MGT_MG.busy m) 0).put (Reg.MGT_MG.status m) status).setBox m { b with op := 0, data := Data.empty }

/-- R505: a write of op starts a request with the mailbox's next tag; an MG_MSG gets no answer (R501) and finishes when it is sent. -/
def State.boxStart (s : State) (m op : Nat) : State :=
  if op = 0 ∨ s.g (Reg.MGT_MG.busy m) = 1 then s
  else
    let b := s.box m
    let tag := (b.tag + 1) % 65536
    let d := s.boxKeep m op tag
    let s1 := (s.put (Reg.MGT_MG.busy m) 1).setBox m { b with tag := tag, sent := s.nowAt, resends := 0, op := op, data := d }
    let s2 := s1.boxSend op d
    if op = 3 then s2.boxDone m 0 else s2

/-- R505: MAILBOX_READ, MAILBOX_WRITE, MAILBOX_MSG: the owner's write of op. -/
def execMailboxRead (req : Requester) (m : Nat) (s : State) : Host.Outcome State Fault Refusal :=
  if boxOwner req m ∧ s.mode ≠ .fenced ∧ s.mode ≠ .off then .next (s.boxStart m 1) else .next s
def execMailboxWrite (req : Requester) (m : Nat) (s : State) : Host.Outcome State Fault Refusal :=
  if boxOwner req m ∧ s.mode ≠ .fenced ∧ s.mode ≠ .off then .next (s.boxStart m 2) else .next s
def execMailboxMsg (req : Requester) (m : Nat) (s : State) : Host.Outcome State Fault Refusal :=
  if boxOwner req m ∧ s.mode ≠ .fenced ∧ s.mode ≠ .off then .next (s.boxStart m 3) else .next s

/-- R505: MAILBOX_RETRY. -/
def execMailboxRetry (m : Nat) (s : State) : Host.Outcome State Fault Refusal :=
  let b := s.box m
  if b.op ≠ 0 ∧ s.counting ∧ s.over b.sent ≥ max 1 (s.g Reg.MGT_MG_CFG.retry_courses) then
    if b.resends < s.g Reg.MGT_MG_CFG.retries then
      .next ((s.setBox m { b with resends := b.resends + 1, sent := s.nowAt }).boxSend b.op b.data)
    else .next (s.boxDone m 0x06)
  else .next s

/-- R505: MG_RESP_RX: the response finishes the mailbox whose endpoint and tag it carries. -/
def execMgRespRx (s : State) : Host.Outcome State Fault Refusal :=
  match s.mgTake [0x32] with
  | none => .next s
  | some (x, s1) =>
    let r := MgH.of x.d
    match (List.range 8).find? (fun m => (s.box m).op != 0 && (s.box m).tag == r.tag && Config.mgmtEp m % 256 == r.dstEp) with
    | none => .next s1
    | some m =>
      let n := if (s.box m).op = 1 ∧ r.status = 0 then min 64 r.count else 0
      let s2 := (List.range n).foldl (fun t i => t.setWord (Reg.MGT_MG_DATA.off m i) (x.d.field (48 + 4 * i) 0 32)) s1
      .next (s2.boxDone m r.status)

/-- R501: MG_MSG_RX: to the lintel, to the side-band sink or to MC1's firmware, which takes nothing while its core is stopped. -/
def execMgMsgRx (s : State) : Host.Outcome State Fault Refusal :=
  match s.mgTake [0x33] with
  | none => .next s
  | some (x, s1) =>
    let m := MgH.of x.d
    let d := mgPayload x.d (4 * min 64 (if m.count = 0 then 64 else m.count))
    if m.dstEp = 0 then .next { s1 with ltl := { s1.ltl with records := s1.ltl.records ++ [d] } }
    else if m.dstEp = 0x02 ∨ m.dstEp = 0x03 then .next s1
    else if s.coreRuns 1 then .next (s1.emit (.toCore 1 d))
    else .next s1

/-! ### Management cores (R507, R520) -/

/-- Return the words of a range of registers to their reset values. -/
def State.resetWords (s : State) (lo hi : Nat) : State := { s with regs := s.regs.filter (fun e => !(decide (lo ≤ e.1) && decide (e.1 < hi))) }

/-- R393, R400, R507, R529: a core is reset: its identity's locks go, and its windows and mailbox return to their reset values. -/
def State.coreReset (s : State) (c : Nat) : State :=
  let s1 := ((s.dropCore c).cellResetIdentity (0x400 + c)).flResetIdentity (0x400 + c)
  let s2 := (s1.resetWords (Reg.MGT_HWIN.off c 0) (Reg.MGT_HWIN.off (c + 1) 0)).resetWords (Reg.MGT_MG.off (4 + c)) (Reg.MGT_MG.off (5 + c))
  s2.setBox (4 + c) Mailbox.reset
/-- The core starts at its entry offset. -/
def State.coreStart (s : State) (c : Nat) : State := s.emit (.coreStart c (imageEntry s.mgt.image c))

/-- R507: a write of the run bits of MC1-MC3: MC0 and the fabric manager only. -/
def State.mcCtrlWrite (s : State) (req : Requester) (run : Nat) : State :=
  let ok : Bool := match req with | .mc c => c == 0 | .fm => true | .monitor => true | .fn _ => false
  if ok = false then s
  else
    let old := s.g Reg.MGT_MC_CTRL.run
    [1, 2, 3].foldl (fun t c =>
      if bit old (c - 1) ∧ ¬ bit run (c - 1) then t.coreReset c
      else if bit run (c - 1) ∧ ¬ bit old (c - 1) then t.coreStart c else t) (s.put Reg.MGT_MC_CTRL.run run)

/-- R507: MC_START, MC_RESET: one run bit of MGT_MC_CTRL is set or cleared. -/
def execMcStart (req : Requester) (core : Nat) (s : State) : Host.Outcome State Fault Refusal :=
  if 1 ≤ core ∧ core ≤ 3 ∧ s.counting ∧ s.mode ≠ .fenced then
    .next (s.mcCtrlWrite req (setBits (s.g Reg.MGT_MC_CTRL.run) (core - 1) 1 1))
  else .next s
def execMcReset (req : Requester) (core : Nat) (s : State) : Host.Outcome State Fault Refusal :=
  if 1 ≤ core ∧ core ≤ 3 ∧ s.counting ∧ s.mode ≠ .fenced then
    .next (s.mcCtrlWrite req (setBits (s.g Reg.MGT_MC_CTRL.run) (core - 1) 1 0))
  else .next s

/-- R520: MC_EXCEPTION: an unhandled exception resets and restarts MC1-MC3; in MC0 it is fatal. -/
def execMcException (core : Nat) (s : State) : Host.Outcome State Fault Refusal :=
  if s.mode = .off then .next s
  else if core = 0 then .next (s.raise (srcMgt 5) 0 0)
  else if core ≤ 3 ∧ bit (s.g Reg.MGT_MC_CTRL.run) (core - 1) then .next (((s.raise (srcMgt 3) 0 core).coreReset core).coreStart core)
  else .next s

end Sys2Proof.Machine
end

