-- ==== Sys2Proof/Machine/Work.lean ====
section
/-! DEFINITION. What a returned work-entry read does: the checks of R231 and of the chapters that own the opcodes, and the
entry that performs no operation (spec/07, "Work entry header"). -/
namespace Sys2Proof.Machine

/-- R231: the opcodes that their owning chapters define. -/
def workDefined (op : Nat) : Bool :=
  op ≤ 0x06 || (0x10 ≤ op && op ≤ 0x16) || (0x20 ≤ op && op ≤ 0x22) || (0x28 ≤ op && op ≤ 0x2C) || (0x38 ≤ op && op ≤ 0x3D)

/-- R361: key-table ranges cover an interval of indices of a host port, given a bound on the ranges to be joined. -/
def coverFrom (ranges : List (Nat × Nat)) : Nat → Nat → Nat → Bool
  | 0, lo, hi => hi ≤ lo
  | k + 1, lo, hi =>
    if hi ≤ lo then true
    else
      match ranges.find? (fun r => r.1 ≤ lo && lo < r.2) with
      | some r => coverFrom ranges k r.2 hi
      | none => false

/-- R361: the indices from `i` on that a function may act on include the next `n`. -/
def State.mayKeys (s : State) (f i n : Nat) : Bool :=
  let range (v : Nat) : Nat × Nat :=
    let b := s.g (Reg.RMA_FN_KEYS.base v) * 64
    (b, b + s.g (Reg.RMA_FN_KEYS.count v) * 64)
  let own := if isPf f then (List.range 256).map (fun v => range (f + v)) else [range f]
  keyHp i == hpOf f && coverFrom own own.length (keyEntry i) (keyEntry i + n)

/-- R339: the body of a matching entry. -/
def matchBody (r : Nat) : Option Nat :=
  let op := Wqe.op r
  let len := Wqe.at_ r 48 0 32
  if op = 0x06 ∧ (Wqe.at_ r 40 0 64 % 64 ≠ 0 ∨ len % 4096 ≠ 0 ∨ len < 65536 ∨ 2 ^ 26 < len) then some 0x0101
  else if (op = 0x03 ∨ op = 0x04) ∧ ¬ Wqe.complete r then some 0x0102
  else none

/-- R365: the body of a remote-memory entry of function `f`. -/
def State.rmaBody (s : State) (f r : Nat) : Option Nat :=
  let op := Wqe.op r
  let size := Wqe.at_ r 21 4 2
  let bytes := 4 * 2 ^ size
  let aop := Wqe.at_ r 21 0 4
  let off := Wqe.at_ r 40 0 64
  let sig := Wqe.at_ r 52 0 32
  let misaligned := Wqe.at_ r 32 0 64 % bytes ≠ 0 ∨ (size = 2 ∧ Wqe.at_ r 48 0 64 % bytes ≠ 0)
  let len := if op = 0x13 then bytes else Wqe.at_ r 28 0 32
  let i := Wqe.at_ r 16 0 24
  if op = 0x13 ∧ (aop > 9 ∨ size = 3 ∨ (size = 2 ∧ aop ≠ 5) ∨ misaligned) then some 0x0101
  else if (op ≤ 0x13 ∧ off + len > 2 ^ 48) ∨ (op = 0x12 ∧ (sig + 8 > 2 ^ 48 ∨ sig % 8 ≠ 0)) then some 0x0102
  else if op = 0x14 then
    let va := Wqe.at_ r 24 0 64
    let n := Wqe.at_ r 32 0 48
    let mine : Bool := match s.ep? (Wqe.at_ r 20 0 16) with
      | some e => e.owner == f
      | none => false
    if (keyHp i = hpOf f ∧ s.ownsEntry f (keyEntry i)) ∧ mine ∧ n ≠ 0 ∧ va + n ≤ 2 ^ 64 then none else some 0x0103
  else if op = 0x15 then (if s.mayKeys f i 1 then none else some 0x0104)
  else if op = 0x16 then
    let n := Wqe.at_ r 20 0 32
    if n ≠ 0 ∧ s.mayKeys f i n then none else some 0x0104
  else if op = 0x12 ∧ keyHp (Wqe.at_ r 48 0 24) ≠ keyHp (Wqe.at_ r 24 0 24) then some 0x0105
  else none

/-- R402: the body of a lock entry of function `f`. -/
def State.lockBody (s : State) (f r : Nat) : Option Nat :=
  let off := Wqe.at_ r 40 0 64
  if Wqe.op r = 0x28 then (if s.cellScope (Cw.cell r) f then none else some 0x0102)
  else if ¬ isPf f then some 0x0101
  else if off % 32 ≠ 0 ∨ off + 32 > 2 ^ 48 then some 0x0103
  else none

/-- R231: the detail with which a fetched entry is malformed; the first matching row. -/
def State.entryMalformed (s : State) (f : Nat) (ctr : RingCtr) (r : Nat) : Option Nat :=
  let op := Wqe.op r
  if ¬ workDefined op then some 0x0001
  else if Wqe.idx r ≠ ctr.toNat % 65536 then some 0x0002
  else if Wqe.colour r = 3 then some 0x0003
  else if Wqe.override r ∧ ¬ isPf f then some 0x0004
  else if op = 0 then none
  else if op < 0x10 then matchBody r
  else if op < 0x20 then s.rmaBody f r
  else if op < 0x28 then none
  else if op < 0x30 then s.lockBody f r
  else s.xltBody f r

/-- R21: entries whose body names a destination endpoint address. -/
def hasTarget (op : Nat) : Bool := op == 0x01 || (0x10 ≤ op && op ≤ 0x13) || (0x29 ≤ op && op ≤ 0x2C)

/-- R231: a fetched entry of a queue as it enters the list of unretired entries. -/
def State.newEnt (s : State) (f : Nat) (ctr : RingCtr) (r : Nat) : Ent :=
  { ctr := ctr, raw := r,
    st := match s.entryMalformed f ctr r with
      | some d => .done (Res.of stMALFORMED d)
      | none => if hasTarget (Wqe.op r) ∧ Wqe.at_ r 16 36 2 ≠ 0 then .done (Res.of stADDRESS 1) else .waiting }

/-- R228, R388: the entries of a returned read join the queue; CELL_OPs whose requester lies outside the cell's scope are counted. -/
def State.takeEntries (s : State) (q : Nat) (v : Sq) (first : RingCtr) (n : Nat) (d : Data) : State :=
  let es := (List.range n).map (fun i => s.newEnt v.owner (first + BitVec.ofNat 32 i) (d.slice (64 * i) 64).val)
  let bad := es.filter (fun e => match e.st with | .done r => r.status == stMALFORMED | _ => false)
  let foreign := bad.filter (fun e => Wqe.op e.raw == 0x28 && e.st == .done (Res.of stMALFORMED 0x0102))
  let last := (d.slice (64 * (n - 1)) 64).val
  ((s.bumpBy Ctr.HIF_MALFORMED_COUNT bad.length).bumpBy Ctr.LCK_FOREIGN_COUNT foreign.length).setSq q
    { v with ents := v.ents ++ es, lastUd := Wqe.user last, lastOp := Wqe.op last,
             lastStamp := Wqe.stamp last }

/-- An entry that was never read, or cannot be, finishes with a failure, and none after it is executed. What its completion and the
queue's FLUSHED completion show of entries that were never read is free. -/
def State.failUnread (s : State) (q : Nat) (v : Sq) (first : RingCtr) (r : Res) : State :=
  let u := s.draw
  let o := u.2.draw
  let raw := pack [(0, 8, o.1), (8, 1, 1), (16, 16, first.toNat), (64, 64, u.1)]
  (o.2.setSq q { v with ents := v.ents ++ [{ ctr := first, raw := raw, st := .done r }],
                        lastUd := u.1 % 2 ^ 64, lastOp := o.1 % 256, lastStamp := bit o.1 8 })
/-- R554: a failed read: its first entry completes HOST_BUS. -/
def State.failEntries (s : State) (q : Nat) (v : Sq) (first : RingCtr) (cause : Nat) : State :=
  s.failUnread q v first (Res.of stHOST_BUS (cause % 16))

/-- R228, R554: DESCRIPTOR_READ_RETURN: the oldest descriptor read of queue `q` returns. -/
def execDescriptorReadReturn (q : Nat) (r : ReadResult) (s : State) : Host.Outcome State Fault Refusal :=
  match s.sq? q with
  | none => .next s
  | some v =>
    match v.reads with
    | [] => .next s
    | (first, n) :: rest =>
      let v1 := { v with reads := rest }
      match r with
      | .error cause => .next ((s.failEntries q v1 first cause).raise (srcHif 1) 0 q (some v.owner))
      | .data d => .next (s.takeEntries q v1 first n d)

/-- R231: NOP of queue `q`: no operation, completes OK. -/
def execNop (q : Nat) (s : State) : Host.Outcome State Fault Refusal :=
  match s.startable q 0 with
  | some (_, e) => .next (s.finishEntry q e.ctr (Res.ok 0))
  | none => .next s

end Sys2Proof.Machine
end

