-- ==== Sys2Proof/Machine/Faults.lean ====
section
/-! DEFINITION. The registers of the fault banks (R463-R476): clearing status, forcing sources, what a forced event does to
the object FLT_INJECT names, and the forced consequences that wait for an object. -/
namespace Sys2Proof.Machine

/-- The block of a bank. -/
def blockCode (code : Nat) : Option BlkDef := blocks.find? (fun b => b.code == code)
/-- Local sources of a block (FLT_INFO.sources). -/
def bankSize (code : Nat) : Nat := match blockCode code with | some b => b.count | none => 0
/-- Global number of local source `l` of a block. -/
def bankSrc (code l : Nat) : Nat := match blockCode code with | some b => b.first + l | none => 4096

/-- R466, R467: a write of 1 to the status bit of a source: nothing while its effective condition is present, nor in a core cycle in
which an event has set the bit. What it clears comes back if an event of the same cycle follows. -/
def State.clearStatus (s : State) (code l : Nat) : State :=
  let g := bankSrc code l
  let x := s.src g
  if s.liveBit g ∨ x.evAt.map (fun e => e.1) = some s.cycles then s
  else
    let bk := s.bank code
    let s1 := s.setSrc g { x with status := false, recReal := false, recForced := false, clrAt := some (s.cycles, x.recReal, x.recForced) }
    match bk.cause with
    | some c => if c.source = g then s1.setBank code { bk with cause := none, freed := some (s.cycles, c) } else s1
    | none => s1

/-- Local sources of the bits of word `k` of a bitmap that are set in `v`. -/
def bitSources (code k v : Nat) : List Nat :=
  ((List.range 32).filter (fun i => bit v i && decide (32 * k + i < bankSize code))).map (fun i => 32 * k + i)

/-- R466: a write of FLT_STATUS word `k`. -/
def State.statusWrite (s : State) (code k v : Nat) : State := (bitSources code k v).foldl (fun t l => t.clearStatus code l) s

/-- R471: sources whose forced consequence waits for an object that does not persist. -/
def srcWaits (code l : Nat) : Bool :=
  match code with
  | 8 => l % 6 == 1
  | 10 => l == 1 || l == 2 || l == 4
  | 11 => l == 1 || l == 2 || l == 5
  | _ => false

/-- The function that owns the object a forced event names, if its source's objects belong to functions (R243, R471). -/
def State.objOwner (s : State) (code l obj : Nat) : Option Nat :=
  match code with
  | 7 =>
    if l = 0 ∨ l = 1 ∨ l = 7 then (s.sq? obj).map (fun v => v.owner)
    else if l = 2 ∨ l = 3 ∨ l = 4 then (s.cq? obj).map (fun v => v.owner)
    else if l = 5 ∧ obj < 1024 then (Tbl.find? s.hif.eqs obj).map (fun _ => obj)
    else none
  | 10 => if l ≤ 2 ∨ l = 5 then (s.ep? obj).map (fun e => e.owner) else none
  | 12 => if l = 2 then fnOf (s.cell (obj % 1024)).owner else none
  | _ => none

/-- A send queue enters ERROR by force, its source having been raised already. -/
def State.sqForced (s : State) (q code : Nat) : State :=
  s.onSq q (fun v => { v with state := if v.state = .destroying then .destroying else .error, errCode := code, flushDue := v.fetched })

/-- A cached context of a host port and slot, if there is one; which is free. -/
def State.someCtx (s : State) (region : Nat) : Option Nat × State :=
  let ks := (Tbl.keys s.trn.ctxs).filter (fun k => ctxRegion k == region)
  if ks.isEmpty then (none, s) else let d := s.draw; (ks[d.1 % ks.length]?, d.2)

/-- R471, R472: the consequence of a contained source on the object that FLT_INJECT names; none where there is no such object. -/
def State.forcedOn (s : State) (code l obj : Nat) : Option State :=
  match code with
  | 3 =>
    if l ≥ 512 then (if obj < 16 then some (s.pllQuiet obj) else none)
    else if obj ≥ 128 then none
    else
      let st := (s.ln obj).st
      match l % 4 with
      | 1 => if st = .data then some ((s.dropLane obj .frame).beginAttempt obj 1) else some s
      | 2 =>
        if st = .data ∨ st = .frame ∨ st = .taps then
          let s1 := if st = .data then s.dropLane obj .failed else s
          some ((s1.setLn obj { s1.ln obj with st := .failed, txFail := true, frameLock := false, rxReady := false, farRxReady := false }).sendFrames obj)
        else some s
      | _ => some ((s.setPp (obj / 2) { s.pp (obj / 2) with farMismatch := true }).applyMasks (obj / 2))
  | 4 =>
    if obj ≥ 64 then none
    else if (s.lk obj).st = .down then some s
    else let d := s.draw; some (d.2.linkDown obj (1 + d.1 % 6))
  | 5 => if obj < 64 then some (s.put Reg.RTE_STATUS.role_err 1) else none
  | 6 =>
    if l = 2 then (if obj < 4096 then some { s with sch := { s.sch with badMaps := setAdd s.sch.badMaps obj } } else none)
    else if obj < 8192 then
      let (_, cbs, _, pbs) := s.meterCfg obj
      let s1 := s.setMeter obj { s.meter obj with tc := (cbs : Int), tp := (pbs : Int) }
      some { s1 with sch := { s1.sch with badMeters := setAdd s1.sch.badMeters obj } }
    else if obj < 8192 + 4096 then
      let m := obj - 8192
      let s1 := s.setShaper m (64 * s.ga (Reg.SCH_SHAPER.burst m) : Int)
      some { s1 with sch := { s1.sch with badShapers := setAdd s1.sch.badShapers m } }
    else none
  | 7 =>
    if l = 3 then
      match s.cq? obj with
      | some v =>
        let s1 := (s.setCq obj { v with state := .overflow }).bumpIf (v.state != .overflow) Ctr.HIF_CQ_OVERFLOW_COUNT
        some ((s1.hif.sqs.filter (fun e => e.2.cq = obj ∧ e.2.state = .ready)).foldl (fun t e => t.sqError e.1 0x20 none) s1)
      | none => none
    else
      match s.sq? obj with
      | none => none
      | some v =>
        if l = 0 then let d := s.draw; some (d.2.sqForced obj ([0x01, 0x10, 0x11].getD (d.1 % 3) 0x01))
        else if l = 1 then
          match v.reads with
          | (first, _) :: rest => let d := s.draw; some (d.2.failEntries obj { v with reads := rest } first d.1)
          | [] =>
            -- no read is out: the read that would be next fails
            if v.f = v.l then some (s.sqForced obj 0x01)
            else let d := s.draw; some (d.2.failEntries obj { v with f := v.f + BitVec.ofNat 32 (max 1 v.canFetch), fetched := true } v.f d.1)
        else
          -- the stored entry that cannot be read: the oldest open one, else the oldest, else the next posted one
          match (v.ents.find? (fun e => e.isOpen)).or v.ents.head? with
          | some e =>
            let bad : Res := Res.of stMALFORMED 0x00FF
            some ((s.bump Ctr.HIF_MALFORMED_COUNT).onSq obj (fun w => { w with ents := w.ents.map (fun y => if y.ctr = e.ctr then { y with st := .done bad } else y) }))
          | none =>
            if v.f = v.l then some (s.sqForced obj 0x01)
            else some ((s.bump Ctr.HIF_MALFORMED_COUNT).failUnread obj { v with f := v.f + 1, fetched := true } v.f (Res.of stMALFORMED 0x00FF))
  | 8 =>
    let u := l / 6
    let x := s.xu u
    match (x.tlb.filter (fun e => e.locked))[obj]? with
    | some e => some (s.setXu u { x with tlb := x.tlb.filter (fun f => f != e) })
    | none => none
  | 9 =>
    if l = 7 then
      match s.slot? obj with
      | none => none
      | some _ =>
        let s1 := (s.trn.ops.filter (fun e => ctxSlot e.2.ctx == obj)).foldl (fun t e => t.finishOp e.1 (Res.of stTRANSPORT 4)) s
        some { s1 with trn := { s1.trn with slots := Tbl.del s1.trn.slots obj } }
    else
      match s.someCtx obj with
      | (none, _) => none
      | (some k, s1) =>
        if l = 3 then let d := s1.draw; some (d.2.recordBad k (d.1 % 16) false)
        else if l = 4 then some (s1.ctxFail k 1 none)
        else some ((s1.ctxError k 1 none).onCtx k (fun c => { c with noWrite := true }))
  | 10 =>
    match s.postedOf obj, s.overOf obj with
    | p :: t, _ => some ((s.setPosted obj t).cancelPosted obj p 0x00FF)
    | [], p :: _ => some ((s.dropOver obj (p.slot.getD 0)).cancelPosted obj p 0x00FF)
    | [], [] => none
  | 11 =>
    match Tbl.find? s.rma.descs obj with
    | none => none
    | some d =>
      if s.descPinned d then some (s.onRma (fun r => { r with descs := Tbl.ins r.descs obj { d with bad := true } }))
      else some (s.onRma (fun r => { r with descs := Tbl.del r.descs obj }))
  | 12 =>
    if l = 5 then
      if obj ≥ 1024 then none
      else
        let v := s.cell obj
        let w := { Cell.reset with abandoned := true }
        let s1 := v.ents.foldl (fun t e => t.finishEntry e.2.1 e.2.2 { Res.of stSTATE 0x00FF with aux := w.read }) s
        some (s1.setCell obj w)
    else
      match s.rec? obj with
      | none => none
      | some r =>
        let s1 := s.setRec obj none
        match r.wait with
        | some (q, c) => some (s1.flFinish q c (Res.of stSTATE 0x00FF))
        | none => some s1
  | 13 =>
    if obj ≥ 4096 ∨ ¬ (s.treeValid 0 obj ∨ s.treeValid 1 obj) then none
    else
      let set := if s.treeValid s.crs.active obj then s.crs.active else 1 - s.crs.active
      if l = 0 then
        if (s.colTree obj).error then some s
        else let d := s.draw; some (d.2.treeFail obj set (d.1 % 65536) s.me none)
      else
        let s1 := s.treeError obj set (if l = 1 ∨ l = 5 then 0x0C06 else 0x0C07) s.me none
        some (if l = 4 then { s1 with col := { s1.col with badTrees := setAdd s1.col.badTrees obj } } else s1)
  | 14 =>
    -- the prefetch entry: host port × 64 + its place among the host port's, oldest first
    match (s.brg.pf.filter (fun e => hpOf e.2.fn == obj / 64))[obj % 64]? with
    | some e => some (s.pfKill (fun p => p.op == e.2.op))
    | none => none
  | 15 => if obj < 256 then some { s with ltl := { s.ltl with bad := setAdd s.ltl.bad obj } } else none
  | 16 => if l = 6 then (if s.slicing then some s.saveLost else none) else s.exhaustForced obj
  | 17 => if 1 ≤ obj ∧ obj ≤ 3 then some ((s.coreReset obj).coreStart obj) else none
  | _ => some s

/-- Sources whose forced event has a consequence on an object (R471): the contained ones, and the uncorrectable ECC error of the prefetch
store, which is Corrected and invalidates its entry (R462). -/
def srcActs (code l : Nat) : Bool := srcClass code l == 1 || (code == 14 && l == 2)

/-- R469, R470, R471: a forced latching event of a local source, with the consequence that FLT_INJECT.act gives it unless a real detection
of the same cycle takes its own. -/
def State.forcedEvent (s : State) (code l : Nat) : State :=
  let g := bankSrc code l
  let bk := s.bank code
  if s.meets g true then s.mergeEvent g
  else
  let s1 := s.latch g 0 bk.object (s.objOwner code l bk.object) 0 true
  if ¬ srcActs code l ∨ ¬ bk.act then s1
  else if srcWaits code l then s1.setSrc g { s1.src g with pend := true }
  else
    match s1.forcedOn code l bk.object with
    | some s2 => s2
    | none => s1.setBank code { s1.bank code with miss := true }

/-- R469: one force bit changes. A pulse source's event comes in the next cycle; a level source's condition is there at once. -/
def State.forceBit (s : State) (code l : Nat) (v : Bool) : State :=
  let g := bankSrc code l
  let x := s.src g
  if x.force = v then s
  else
    let s1 := s.setSrc g { x with force := v, recReal := x.recReal || (v && x.real) }
    if v then
      if ¬ srcLevel code l then s1.setSrc g { s1.src g with due := true }
      else if x.real then s1 else s1.forcedEvent code l
    else if code = 3 ∧ 512 ≤ l then s1.pllFree
    else s1

/-- R469: a write of FLT_FORCE word `k`. -/
def State.forceWrite (s : State) (code k v : Nat) : State :=
  ((List.range 32).filter (fun i => decide (32 * k + i < bankSize code))).foldl (fun t i => t.forceBit code (32 * k + i) (bit v i)) s

/-- R468, R469: the forced events that are due in this cycle, in ascending order of their sources. -/
def State.forceTick (s : State) : State :=
  (s.srcs.filter (fun e => e.2.due)).foldl (fun t e =>
    match srcBlock e.1 with
    | some (b, l) => (t.setSrc e.1 { t.src e.1 with due := false }).forcedEvent b.code l
    | none => t) s

/-- R471: a write of FLT_INJECT: `act`, `object`, and miss cleared by a 1; act = 0 cancels what waits. -/
def State.injectWrite (s : State) (code v : Nat) : State :=
  let bk := s.bank code
  let s1 := s.setBank code { bk with act := bit v 31, miss := bk.miss && !bit v 30, object := bits v 0 24 }
  if bit v 31 then s1
  else (List.range (bankSize code)).foldl (fun t l =>
    let g := bankSrc code l
    if (t.src g).pend then t.setSrc g { t.src g with pend := false } else t) s1

/-- R471: the waiting consequence of a source takes effect on the object it handles; `obj` names it: the walk of the unit, the
order-table read, the overflow record read, the header entry, the descriptor read, the target data read, or the atomic. -/
def State.forcedNext (s : State) (code l obj : Nat) : Option State :=
  match code with
  | 8 => if obj < (s.xu (l / 6)).walks.length then let d := s.draw; some (d.2.walkBad (l / 6) obj (d.1 % 16) true) else none
  | 10 =>
    if l = 1 then
      match s.mch.orderReads[obj]? with
      | some k =>
        let d := s.draw
        some (d.2.onMch (fun m => { m with orderReads := m.orderReads.eraseIdx obj, orderBad := Tbl.ins m.orderBad k (4 + d.1 % 16) }))
      | none => none
    else if l = 2 then
      match s.mch.ovfReads[obj]? with
      | some (ep, _) => some (s.onMch (fun m => { m with ovfReads := m.ovfReads.eraseIdx obj, ovfBad := m.ovfBad ++ [ep] }))
      | none => none
    else
      match s.hdr? obj with
      | some h => if h.recv.isSome then some (s.completeRecv obj h stCANCELLED 0x00FF) else some ((s.unland h).freeHdr obj)
      | none => none
  | 11 =>
    if l = 1 then
      match s.rma.reads[obj]? with
      | some i => let d := s.draw; some (d.2.onRma (fun x => { x with reads := x.reads.eraseIdx obj, bad := Tbl.ins x.bad i (d.1 % 16) }))
      | none => none
    else if l = 2 then
      match s.rma.dataReads[obj]? with
      | some (isAtomic, i, _, _) =>
        let t := s.onRma (fun x => { x with dataReads := x.dataReads.eraseIdx obj })
        if isAtomic then
          match t.rma.atomics.find? (fun x => x.id == i) with
          | some x => some ((t.endAtomic x).rmaFail x.acc .reply 0x040D)
          | none => some t
        else some (t.finishOp i (Res.of stREMOTE 0x040D))
      | none => none
    else
      match s.trn.ops.find? (fun e => e.2.origin == .atomic obj && e.2.next == 0) with
      | some (i, o) =>
        some (s.setOp i { o with opcode := 0x01, opLen := 0, pay := .none_,
                                 fields := resultFields (bits o.fields 0 24) (bits o.fields 24 8) stREMOTE 0x040D 0 })
      | none => none
  | _ => none

/-- R471: FORCED_CONSEQUENCE of global source `g` on the object `obj` that it handles next. -/
def execForcedConsequence (g obj : Nat) (s : State) : Host.Outcome State Fault Refusal :=
  match srcBlock g with
  | some (b, l) =>
    if (s.src g).pend then
      match s.forcedNext b.code l obj with
      | some s1 => .next (s1.setSrc g { s1.src g with pend := false }).settle
      | none => .next s
    else .next s
  | none => .next s

/-! ### What the bank's registers read as -/

/-- Bits of word `k` of a bitmap over the sources of a bank. -/
def bankBits (code k : Nat) (f : Nat → Bool) : Nat :=
  (List.range 32).foldl (fun a i => if 32 * k + i < bankSize code ∧ f (bankSrc code (32 * k + i)) then a + 2 ^ i else a) 0

/-- A word of a bank at offset `o` from block + 0x7000 (spec/15, "Fault bank registers"). -/
def State.bankRead (s : State) (code o : Nat) : Nat :=
  let n := bankSize code
  let bk := s.bank code
  let w (f : FltCause → Nat) : Nat := match bk.cause with | some c => f c | none => 0
  if o = 0x000 then n + bankSrc code 0 * 2 ^ 16
  else if o = 0x004 then
    let set := (List.range n).filter (fun l => (s.src (bankSrc code l)).status)
    pack [(0, 11, set.length), (29, 1, b2n ((List.range n).any (fun l => s.liveBit (bankSrc code l)))),
          (30, 1, b2n (set.any (fun l => srcClass code l == 2))), (31, 1, b2n (!set.isEmpty))]
  else if o = 0x010 then w (fun c => pack [(0, 12, c.source), (20, 4, c.condition), (27, 2, c.cls), (29, 1, b2n c.severe), (30, 1, b2n c.forced), (31, 1, 1)])
  else if o = 0x014 then w (fun c => c.object)
  else if o = 0x018 then w (fun c => bits c.time 0 32)
  else if o = 0x01C then w (fun c => bits c.time 32 32)
  else if o = 0x020 then bits bk.count.toNat 0 32
  else if o = 0x024 then bits bk.count.toNat 32 32
  else if 0x030 ≤ o ∧ o < 0x040 then bk.thresh.getD ((o - 0x030) / 4) 0
  else if o = 0x040 then
    pack [(0, 24, bk.object), (29, 1, b2n ((List.range n).any (fun l => (s.src (bankSrc code l)).pend))), (30, 1, b2n bk.miss), (31, 1, b2n bk.act)]
  else if 0x100 ≤ o ∧ o < 0x180 then bankBits code ((o - 0x100) / 4) (fun g => (s.src g).status)
  else if 0x180 ≤ o ∧ o < 0x200 then bankBits code ((o - 0x180) / 4) s.liveBit
  else if 0x200 ≤ o ∧ o < 0x280 then bankBits code ((o - 0x200) / 4) (fun g => (s.src g).force)
  else if 0x280 ≤ o ∧ o < 0x300 then bankBits code ((o - 0x280) / 4) (fun g => (s.src g).eventEn)
  else if 0x300 ≤ o ∧ o < 0x400 then
    let k := (o - 0x300) / 4
    (List.range 16).foldl (fun a i =>
      if 16 * k + i < n then
        let x := s.src (bankSrc code (16 * k + i))
        a + (b2n x.recReal + 2 * b2n x.recForced) * 2 ^ (2 * i)
      else a) 0
  else if 0x400 ≤ o ∧ o < 0x600 then
    let k := (o - 0x400) / 4
    (List.range 8).foldl (fun a i =>
      if 8 * k + i < n then a + (srcClass code (8 * k + i) + 4 * (s.src (bankSrc code (8 * k + i))).tset) * 2 ^ (4 * i) else a) 0
  else 0

/-- The offset from block + 0x7000 is a register of the bank. -/
def bankReg (o : Nat) : Bool :=
  o % 4 == 0 && (decide (o ≤ 0x004) || (decide (0x010 ≤ o) && decide (o < 0x028)) || (decide (0x030 ≤ o) && decide (o < 0x044)) ||
    (decide (0x100 ≤ o) && decide (o < 0x600)))
/-- Words of the bank that are RWL, wholly or in part (FLT_THRESH, FLT_CLASS.tset). -/
def bankLocked (o : Nat) : Bool := (decide (0x030 ≤ o) && decide (o < 0x040)) || (decide (0x400 ≤ o) && decide (o < 0x600))

/-- A write of a word of a bank that its access rules have let through. -/
def State.bankWrite (s : State) (code o v : Nat) : State :=
  if 0x030 ≤ o ∧ o < 0x040 then s.setBank code { s.bank code with thresh := (s.bank code).thresh.set ((o - 0x030) / 4) v }
  else if o = 0x040 then s.injectWrite code v
  else if 0x100 ≤ o ∧ o < 0x180 then s.statusWrite code ((o - 0x100) / 4) v
  else if 0x200 ≤ o ∧ o < 0x280 then s.forceWrite code ((o - 0x200) / 4) v
  else if 0x280 ≤ o ∧ o < 0x300 then
    let k := (o - 0x280) / 4
    (List.range 32).foldl (fun t i =>
      if 32 * k + i < bankSize code then let g := bankSrc code (32 * k + i); t.setSrc g { t.src g with eventEn := bit v i } else t) s
  else if 0x400 ≤ o ∧ o < 0x600 then
    let k := (o - 0x400) / 4
    (List.range 8).foldl (fun t i =>
      if 8 * k + i < bankSize code then let g := bankSrc code (8 * k + i); t.setSrc g { t.src g with tset := bits v (4 * i + 2) 2 } else t) s
  else s

end Sys2Proof.Machine
end

