-- ==== Sys2Proof/Machine/FnCmd.lean ====
section
/-! DEFINITION. The command interface of the function pages (R221-R227, R234, R242, R285, R337, R357): creating, resetting and
destroying objects; queue groups (R212, R213); Function Level Reset (R211). -/
namespace Sys2Proof.Machine

/-! ### The interface (R221-R225) -/

/-- Argument word `i` of the command a function has in progress (R221). -/
def State.fnArg (s : State) (f i : Nat) : Nat := (s.fn f).args.getD i 0
/-- A two-word argument. -/
def State.fnArg2 (s : State) (f i : Nat) : Nat := s.fnArg f i + s.fnArg f (i + 1) * 2 ^ 32

/-- The command of a function finishes with a status (R221). -/
def State.fnDone (s : State) (f status detail : Nat) : State :=
  s.setFn f { s.fn f with busy := false, status := status, detail := detail }

/-- R221: opcode `op` is written to HIF_FN_CMD of function `f`'s page, and what starts the command. -/
def State.fnWrite (s : State) (f op : Nat) (run : State → State) : State :=
  if s.mode = .off ∨ s.mode = .strap ∨ s.mode = .fenced ∨ (s.fn f).flrBusy then s
  else if (s.fn f).busy then s.setFn f { s.fn f with cmdOverrun := true }
  else
    let args := (List.range 12).map (fun i => s.word (Reg.HIF_FN_CMD_ARG.off f i))
    run (s.setFn f { s.fn f with busy := true, op := op % 256, args := args })

/-- R224: the modes in which a command opcode is executed. -/
def State.fnMode (s : State) (op : Nat) : Bool :=
  if op = 1 ∨ op = 3 ∨ op = 6 then s.mode == .service
  else if op = 2 ∨ op = 4 ∨ op = 7 then s.live
  else if op = 5 ∨ op = 8 then s.mode == .service || s.mode == .drain
  else true

/-- R225: the first failing check of a command, as its status: mode, RESOURCE, QUARANTINED, STATE. -/
def State.fnCheck (s : State) (op : Nat) (resource quarantined state : Bool) : Option Nat :=
  if ¬ s.fnMode op then some stNOT_SERVING
  else if resource then some stRESOURCE
  else if quarantined then some stQUARANTINED
  else if state then some stSTATE
  else none

/-- A command that is checked and then acts at once. -/
def State.fnAct (s : State) (f : Nat) (check : Option Nat) (act : State → State) : State :=
  match check with
  | some st => s.fnDone f st 0
  | none => (act s).fnDone f stOK 0

/-- R217, R225: a ring's size exponent and base are permitted; `entry` is the size of one entry. -/
def ringOk (n base entry : Nat) : Bool := decide (6 ≤ n ∧ n ≤ 16) && base % min (entry * 2 ^ n) 4096 == 0
/-- R219: S is a multiple of 2^n. -/
def startOk (n start : Nat) : Bool := start % 2 ^ n == 0

/-! ### Endpoints (R226, R285, R337, R357) -/

/-- A CQ exists and belongs to a function. -/
def State.cqOf (s : State) (c f : Nat) : Bool :=
  match s.cq? c with
  | some v => v.owner == f
  | none => false
/-- An endpoint exists and belongs to a function. -/
def State.epOf (s : State) (e f : Nat) : Bool :=
  match s.ep? e with
  | some v => v.owner == f
  | none => false

/-- R226: an endpoint number is in quarantine. -/
def State.inQuarantine (s : State) (e : Nat) : Bool :=
  match Tbl.find? s.hif.quar e with
  | some c => s.ahead c
  | none => false

/-- R285: a domain slot takes an endpoint of a function. -/
def State.slotTakes (s : State) (slot f : Nat) : Bool :=
  match s.slot? slot with
  | some v => bit v.hpMask (hpOf f) && (isPf f || v.vfOk) && (s.region? (hpOf f) slot).isSome
  | none => false

/-- R285, R337: EP_CREATE with its arguments copied. -/
def State.epCreate (s : State) (f : Nat) : State :=
  let a0 := s.fnArg f 0
  let a1 := s.fnArg f 1
  let at_ := s.fnArg2 f 2
  let e := bits a0 0 16
  let slot := bits a0 16 10
  let rcq := bits a1 0 16
  let resource := !s.ownsGroup f (e / 4) || (s.ep? e).isSome || !s.cqOf rcq f || decide (bits at_ 0 5 > 20)
  s.fnAct f (s.fnCheck 1 resource (s.inQuarantine e) (!s.slotTakes slot f)) (fun t =>
    t.setEp e { owner := f, slot := slot, rcq := rcq, as_ := bits a1 16 16, otBase := bits at_ 12 40 * 4096, m := bits at_ 0 5,
                rxStamp := bit at_ 6, destroying := false })

/-- R285: EP_CREATE, written by function `f`. -/
def execEpCreate (f : Nat) (s : State) : Host.Outcome State Fault Refusal := .next (s.fnWrite f 1 (fun t => t.epCreate f))

/-- R357 step 1: every posted receive completes CANCELLED in posting order. -/
def State.cancelReceives (s : State) (e : Nat) : State :=
  let s1 := (s.postedOf e).foldl (fun t p => t.cancelPosted e p 0) s
  let s2 := (s1.overOf e).foldl (fun t p => t.cancelPosted e p 0) s1
  let s3 := (s2.overOf e).foldl (fun t p => t.dropOver e (p.slot.getD 0)) (s2.endWalk e (hpOf (s2.epOwner e)))
  (s3.setPosted e []).setOver e []

/-- R357 steps 2 and 3 for one header entry of the endpoint. -/
def State.teardownHdr (s : State) (i : Nat) (h : MHdr) : State :=
  if h.st = .assembling then (if h.recv.isSome then s.completeRecv i h stCANCELLED 0 else s)
  else
    let s1 := s.unland h
    let s2 := if h.rndv ∧ (h.st = .unexpected ∨ h.st = .claimed ∨ h.st = .reorder) then s1.sendRvGet i h 0 true else s1
    s2.freeHdr i

/-- R357 step 4: landing buffers are returned. -/
def State.returnLandings (s : State) (e : Nat) : State :=
  (s.mch.landings.filter (fun l => l.2.ep == e)).foldl (fun t l =>
    match Tbl.find? t.mch.landings l.1 with
    | some v => (t.onMch (fun m => { m with landings := Tbl.ins m.landings l.1 { v with passed := true } })).returnLanding l.1
    | none => t) s

/-- What matching keeps of an endpoint's order records and reads is discarded (R357 step 5). -/
def State.dropOrders (s : State) (e : Nat) : State :=
  s.onMch (fun m => { m with orders := Tbl.keep (fun k _ => okEp k != e) m.orders, orderReads := m.orderReads.filter (fun k => okEp k != e),
                             orderBad := Tbl.keep (fun k _ => okEp k != e) m.orderBad, ovfReads := m.ovfReads.filter (fun r => r.1 != e),
                             ovfBad := m.ovfBad.filter (fun x => x != e), lanes := Tbl.del m.lanes e })

/-- R357: the teardown of an endpoint, in its order. -/
def State.teardown (s : State) (e : Nat) : State :=
  let s1 := s.cancelReceives e
  let mine := s1.mch.hdrs.filter (fun h => h.2.ep == e)
  let asm := mine.filter (fun h => h.2.st == .assembling)
  let rest := mine.filter (fun h => h.2.st != .assembling)
  let s2 := (asm ++ rest).foldl (fun t h => t.teardownHdr h.1 h.2) s1
  (s2.returnLandings e).dropOrders e

/-- R381: a region descriptor names the endpoint in state REGISTERED or REVOKING. -/
def State.epHasKey (s : State) (e : Nat) : Bool := s.rma.keys.any (fun k => k.2.ep == e && (k.2.state == 1 || k.2.state == 2))

/-- R226: EP_DESTROY with its arguments copied. -/
def State.epDestroy (s : State) (f : Nat) : State :=
  let e := bits (s.fnArg f 0) 0 16
  let bad := !s.epOf e f || s.hif.sqs.any (fun q => q.2.ep == e) || s.epHasKey e
  match s.fnCheck 2 (!s.ownsGroup f (e / 4)) false bad with
  | some st => s.fnDone f st 0
  | none =>
    match s.ep? e with
    | some v => ((s.setEp e { v with destroying := true }).teardown e).colLeaveAll e
    | none => s

/-- R226, R357: EP_DESTROY, written by function `f`. -/
def execEpDestroy (f : Nat) (s : State) : Host.Outcome State Fault Refusal := .next (s.fnWrite f 2 (fun t => t.epDestroy f))

/-- R357: a receive completion of the endpoint (CANCELLED ones and returned landing buffers among them) is held or owed on a CQ. -/
def State.rxUnwritten (s : State) (e : Nat) : Bool :=
  s.hif.cqs.any (fun c => (firstSlots false (c.2.held ++ c.2.owed.foldl (fun l o => l ++ o.1) [])).any (fun x => bit x 209 && bits x 192 17 == e))
/-- R322, R355: a SKIP that the endpoint owes can still be sent one day: its region stands and its generations are not spent. -/
def State.skipDue (s : State) (e : Nat) : Bool :=
  s.mch.skips.any (fun k => k.srcEp == e && s.covered (ctxHp k.ctx) (ctxSlot k.ctx) (ctxRemote k.ctx) &&
    (match s.ctx? k.ctx with
     | some c => !(c.state == 2 && c.errDetail == 7)
     | none => true))
/-- R226, R355, R357: the endpoint has admitted something that has not finished, or owes a SKIP or a receive completion. -/
def State.epBusy (s : State) (e : Nat) : Bool :=
  s.trn.ops.any (fun o => o.2.srcEp == e) || s.trn.accepted.any (fun a => a.stream == 0 && Th.dstEp a.th == e) ||
  s.rma.atomics.any (fun a => Th.dstEp a.acc.th == e) || s.brg.writes.any (fun w => w.2.ep == e) || s.brg.reads.any (fun r => r.2.ep == e) ||
  s.mch.hdrs.any (fun h => h.2.ep == e) || s.rxUnwritten e || s.skipDue e

/-- R226, R319: an endpoint is gone: its number is in quarantine for 2 × LIFE courses. -/
def State.removeEp (s : State) (e : Nat) : State :=
  match s.ep? e with
  | some v =>
    { s with hif := { s.hif with eps := Tbl.del s.hif.eps e, quar := Tbl.ins s.hif.quar e ⟨s.crs.course + BitVec.ofNat 48 (2 * s.life), s.crs.cycle⟩ },
             trn := { s.trn with slotEnd := Tbl.ins s.trn.slotEnd v.slot s.nowAt },
             mch := { s.mch with skips := s.mch.skips.filter (fun k => k.srcEp != e) } }
  | none => s

/-- R226, R357: EP_DESTROY_COMPLETE of the command in function `f`'s page. -/
def execEpDestroyComplete (f : Nat) (s : State) : Host.Outcome State Fault Refusal :=
  if ¬ ((s.fn f).busy ∧ (s.fn f).op = 2) then .next s
  else
    let e := bits (s.fnArg f 0) 0 16
    let s1 := s.teardown e
    if s1.epBusy e then .next s1 else .next ((s1.removeEp e).fnDone f stOK 0)

/-- R226: EP_QUARANTINE_END of endpoint number `e`. -/
def execEpQuarantineEnd (e : Nat) (s : State) : Host.Outcome State Fault Refusal :=
  if s.inQuarantine e then .next s else .next { s with hif := { s.hif with quar := Tbl.del s.hif.quar e } }

/-! ### Send queues (R218, R227, R234) -/

/-- R234: SQ_CREATE with its arguments copied. -/
def State.sqCreate (s : State) (f : Nat) : State :=
  let q := bits (s.fnArg f 0) 0 17
  let c := bits (s.fnArg f 1) 0 16
  let e := bits (s.fnArg f 1) 16 16
  let n := bits (s.fnArg f 2) 0 5
  let base := s.fnArg2 f 4
  let start : RingCtr := BitVec.ofNat 32 (s.fnArg f 3)
  let resource := !s.ownsGroup f (q / 8) || (s.sq? q).isSome || !s.cqOf c f || !s.epOf e f || !ringOk n base 64
  let going := match s.ep? e with
    | some v => v.destroying
    | none => false
  s.fnAct f (s.fnCheck 3 resource false going) (fun t =>
    t.setSq q { owner := f, cq := c, ep := e, n := n, tc := bits (s.fnArg f 2) 8 2, base := base, l := start, f := start, c := start,
                state := .ready, errCode := 0, errCtr := 0, ents := [], fetched := false, flushDue := false, lastUd := 0, lastOp := 0,
                lastStamp := false, errOwed := false, reads := [] })

/-- R234: SQ_CREATE, written by function `f`. -/
def execSqCreate (f : Nat) (s : State) : Host.Outcome State Fault Refusal := .next (s.fnWrite f 3 (fun t => t.sqCreate f))

/-- A command on a send queue that must exist: its number's checks, then its own. -/
def State.sqCommand (s : State) (f op : Nat) (state : Sq → Bool) (act : Nat → Sq → State) : State :=
  let q := bits (s.fnArg f 0) 0 17
  match s.sq? q with
  | some v =>
    match s.fnCheck op (!s.ownsGroup f (q / 8)) false (state v) with
    | some st => s.fnDone f st 0
    | none => act q v
  | none => s.fnDone f ((s.fnCheck op (!s.ownsGroup f (q / 8)) false true).getD stSTATE) 0

/-- R227: SQ_DESTROY: fetch stops at once. -/
def execSqDestroy (f : Nat) (s : State) : Host.Outcome State Fault Refusal :=
  .next (s.fnWrite f 4 (fun t => t.sqCommand f 4 (fun _ => false) (fun q v => t.setSq q { v with state := .destroying })))

/-- All fetched entries have retired and been reported. -/
def Sq.allDone (v : Sq) : Bool := v.reads.isEmpty && v.ents.isEmpty && !v.flushDue
/-- R227, R234: a queue is done and its completions have been written: none is held on chip for its CQ. -/
def State.sqWritten (s : State) (q : Nat) (v : Sq) : Bool :=
  v.allDone && (match s.cq? v.cq with
    | some c => !(firstSlots false c.held).any (fun h => slotQueue h == some q)
    | none => true)

/-- R227, R234: SQ_DESTROY_COMPLETE of the command in function `f`'s page. -/
def execSqDestroyComplete (f : Nat) (s : State) : Host.Outcome State Fault Refusal :=
  if ¬ ((s.fn f).busy ∧ (s.fn f).op = 4) then .next s
  else
    let q := bits (s.fnArg f 0) 0 17
    match s.sq? q with
    | some v => if s.sqWritten q v then .next (({ s with hif := { s.hif with sqs := Tbl.del s.hif.sqs q } }).fnDone f stOK 0) else .next s
    | none => .next (s.fnDone f stOK 0)

/-- R234: SQ_RESTART. -/
def execSqRestart (f : Nat) (s : State) : Host.Outcome State Fault Refusal :=
  .next (s.fnWrite f 5 (fun t =>
    let overflow (v : Sq) : Bool := match t.cq? v.cq with
      | some c => c.state == .overflow
      | none => false
    let n : RingCtr := BitVec.ofNat 32 (t.fnArg f 3)
    t.sqCommand f 5 (fun v => v.state != .error || !t.sqWritten (bits (t.fnArg f 0) 0 17) v || overflow v) (fun q v =>
      (t.setSq q { v with state := .ready, l := n, f := n, c := n, errCode := 0, errCtr := 0, fetched := false, errOwed := false }).settleXlt.fnDone f stOK 0)))

/-! ### Completion queues (R227, R242) -/

/-- R242: CQ_CREATE with its arguments copied. -/
def State.cqCreate (s : State) (f : Nat) : State :=
  let c := bits (s.fnArg f 0) 0 16
  let vec := bits (s.fnArg f 1) 0 11
  let wb := bit (s.fnArg f 1) 16
  let n := bits (s.fnArg f 2) 0 5
  let start := s.fnArg f 3
  let base := s.fnArg2 f 4
  let wba := s.fnArg2 f 6
  let resource := !s.ownsGroup f (c / 4) || (s.cq? c).isSome || decide (vectors f ≤ vec) || !ringOk n base 32 || !startOk n start ||
    (wb && wba % 8 != 0)
  let p : RingCtr := BitVec.ofNat 32 start
  s.fnAct f (s.fnCheck 6 resource false false) (fun t =>
    t.setCq c { owner := f, n := n, start := p, prod := p, cons := p, base := base, vector := vec, wb := if wb then some wba else none,
                armed := false, state := .active, held := [], owed := [], stallCourse := 0 })

/-- R242: CQ_CREATE, written by function `f`. -/
def execCqCreate (f : Nat) (s : State) : Host.Outcome State Fault Refusal := .next (s.fnWrite f 6 (fun t => t.cqCreate f))

/-- R225, R242: CQ_DESTROY. Every write of the model is issued at once, so that none remains outstanding. -/
def execCqDestroy (f : Nat) (s : State) : Host.Outcome State Fault Refusal :=
  .next (s.fnWrite f 7 (fun t =>
    let c := bits (t.fnArg f 0) 0 16
    let bound := t.hif.sqs.any (fun q => q.2.cq == c) || t.hif.eps.any (fun e => e.2.rcq == c)
    t.fnAct f (t.fnCheck 7 (!t.ownsGroup f (c / 4)) false ((t.cq? c).isNone || bound)) (fun u =>
      { u with hif := { u.hif with cqs := Tbl.del u.hif.cqs c } })))

/-- R242 step 3: what a bound queue in ERROR is owed now, as groups of slots: the error completion if one is due, then FLUSHED once
every fetched entry has finished. -/
def State.finalSlots (s : State) (q : Nat) (v : Sq) : List (List Nat) :=
  (s.owedError q v).toList ++ (if v.quiet then [[s.flushedSlot q v]] else [])

/-- The bound queues in ERROR whose final completions are owed, in ascending number. -/
def State.owedQueues (s : State) (c : Nat) : List (Nat × Sq) :=
  s.hif.sqs.filter (fun e => e.2.cq == c && e.2.errCode != 0 && e.2.flushDue)

/-- A queue's final completions have been written, as far as they were due. -/
def Sq.finished (v : Sq) (errDue : Bool) : Sq :=
  if v.quiet then { v with flushDue := false, errOwed := false, ents := [] } else { v with errOwed := v.errOwed && !errDue }

/-- R37, R242: CQ_RESET of CQ `c`. In a mode that writes no completions what is held and owed stays until the device writes them again. -/
def State.cqReset (s : State) (c : Nat) (v : Cq) (start : RingCtr) : State :=
  let s1 := s.setCq c { v with start := start, prod := start, cons := start, armed := false, state := .active }
  if ¬ s.serving then s1
  else
  let s2 := (s1.cqDrainHeld c 8).cqDrainOwed c v.owed.length
  (s.owedQueues c).foldl (fun t e =>
    ((t.finalSlots e.1 e.2).foldl (fun u g => u.cqPut c g) t).onSq e.1 (fun w => w.finished (t.owedError e.1 e.2).isSome)) s2

/-- R242: slots that a reset would write. -/
def State.owedSlots (s : State) (c : Nat) (v : Cq) : Nat :=
  v.held.length + (v.owed.map (fun o => o.1.length)).sum +
    ((s.owedQueues c).map (fun e => ((s.finalSlots e.1 e.2).map List.length).sum)).sum

/-- R242: CQ_RESET, written by function `f`. -/
def execCqReset (f : Nat) (s : State) : Host.Outcome State Fault Refusal :=
  .next (s.fnWrite f 8 (fun t =>
    let c := bits (t.fnArg f 0) 0 16
    let start := t.fnArg f 3
    let own := !t.ownsGroup f (c / 4)
    match t.cq? c with
    | none => t.fnDone f ((t.fnCheck 8 own false true).getD stSTATE) 0
    | some v =>
      t.fnAct f (t.fnCheck 8 (own || !startOk v.n start || decide (t.owedSlots c v > 2 ^ v.n)) false false) (fun u =>
        (u.cqReset c v (BitVec.ofNat 32 start)).settle)))

/-! ### Event rings (R224, R225, R243, R244) -/

/-- R222, R244: the ring that an argument names for a function, by the numbers of R246; none where it may not name it. -/
def State.eqNamed (s : State) (f a : Nat) : Option Nat :=
  if a = 0 then some f
  else if a < 4 ∨ ¬ isPf f then none
  else
    let d := a - 4
    let owner := if s.glb.strapHpmode then d * 256 else d / 2 * 512
    if owner = f then some (devRing d) else none

/-- R224: EQ_CREATE, written by function `f`. -/
def execEqCreate (f : Nat) (s : State) : Host.Outcome State Fault Refusal :=
  .next (s.fnWrite f 9 (fun t =>
    let vec := bits (t.fnArg f 1) 0 11
    let n := bits (t.fnArg f 2) 0 5
    let start := t.fnArg f 3
    let base := t.fnArg2 f 4
    match t.eqNamed f (bits (t.fnArg f 0) 0 3) with
    | none => t.fnDone f stRESOURCE 0
    | some r =>
      let resource := (Tbl.find? t.hif.eqs r).isSome || decide (vectors f ≤ vec) || !ringOk n base 16 || !startOk n start
      let p : RingCtr := BitVec.ofNat 32 start
      t.fnAct f (t.fnCheck 9 resource false false) (fun u =>
        u.setEq r { owner := f, n := n, start := p, prod := p, cons := p, base := base, vector := vec, armed := false, held := [], lost := 0 })))

/-- R225, R227: EQ_DESTROY. A message is sent in the step that decides it, so that no interrupt is pending delivery. -/
def execEqDestroy (f : Nat) (s : State) : Host.Outcome State Fault Refusal :=
  .next (s.fnWrite f 10 (fun t =>
    match t.eqNamed f (bits (t.fnArg f 0) 0 3) with
    | none => t.fnDone f stRESOURCE 0
    | some r =>
      t.fnAct f (t.fnCheck 10 false false (Tbl.find? t.hif.eqs r).isNone) (fun u =>
        { u with hif := { u.hif with eqs := Tbl.del u.hif.eqs r } })))

/-- R221: FN_CMD_UNDEFINED: an opcode that R222 does not define. -/
def execFnCmdUndefined (f op : Nat) (s : State) : Host.Outcome State Fault Refusal :=
  if 1 ≤ op % 256 ∧ op % 256 ≤ 10 then .next s
  else .next (s.fnWrite f op (fun t => t.fnDone f stMALFORMED 1))

/-! ### Queue groups (R212, R213) -/

/-- R213: a host port's share of the groups: first and count. -/
def State.groupShare (s : State) (hp : Nat) : Nat × Nat :=
  if s.glb.strapHpmode then (hp * 4096, 4096) else if hp = 0 then (0, 8192) else if hp = 2 then (8192, 8192) else (0, 0)

/-- A function has an object or a command in progress (R213). -/
def State.fnHasObject (s : State) (f : Nat) : Bool :=
  (s.fn f).busy || s.hif.sqs.any (fun e => e.2.owner == f) || s.hif.cqs.any (fun e => e.2.owner == f) ||
  s.hif.eps.any (fun e => e.2.owner == f) || s.hif.eqs.any (fun e => e.2.owner == f)

/-- R213: a range of groups may not be given to a function. -/
def State.groupsRefused (s : State) (f base count : Nat) : Bool :=
  let sh := s.groupShare (hpOf f)
  let leaves := decide (0 < count ∧ (base < sh.1 ∨ base + count > sh.1 + sh.2))
  let overlaps := (List.range 1024).any (fun g =>
    let b := s.g (Reg.HIF_FN_GROUPS.base g)
    let n := s.g (Reg.HIF_FN_GROUPS.count g)
    g != f && decide (0 < count ∧ 0 < n ∧ base < b + n ∧ b < base + count))
  leaves || overlaps || (!isPf f && decide (count > 64)) || s.fnHasObject f

/-- R210, R213: a write of HIF_FN_GROUPS in function `f`'s page. -/
def State.fnGroups (s : State) (req : Requester) (f v : Nat) : State :=
  if s.mode = .off ∨ s.mode = .strap ∨ s.mode = .fenced ∨ req ≠ .fn (hpOf f * 256) then s
  else if s.groupsRefused f (bits v 0 14) (bits v 14 14) then s.setFn f { s.fn f with cfgRefused := true }
  else s.setWord (Reg.HIF_FN_GROUPS.off f) (v % 2 ^ 28)

/-- R213: FN_GROUPS_WRITE. -/
def execFnGroupsWrite (req : Requester) (f v : Nat) (s : State) : Host.Outcome State Fault Refusal := .next (s.fnGroups req f v)

/-! ### Function Level Reset (R211, R272, R319, R357, R381, R393, R400, R444) -/

/-- An operation is part of what a reset function's queues and endpoints were doing; fabric-lock operations go on (R400), and
so do answers that release references of keys being revoked (R379). -/
def Op.abandoned (o : Op) (queues eps : List Nat) : Bool :=
  match o.origin with
  | .entry q _ => queues.contains q
  | .signal q _ _ => queues.contains q
  | .rts _ _ => eps.contains o.srcEp
  | .rvGet _ _ => eps.contains o.srcEp
  | .rvAbandon => eps.contains o.srcEp
  | .rvData _ _ => eps.contains o.srcEp
  | .skip => eps.contains o.srcEp
  | _ => false

/-- R211, R357: what matching holds for an endpoint goes without completions and abandons. -/
def State.dropMatching (s : State) (e : Nat) : State :=
  let s1 := s.endWalk e (hpOf (s.epOwner e))
  let mine := (s1.mch.hdrs.filter (fun h => h.2.ep == e)).map Prod.fst
  let s2 := (mine.foldl (fun t i => t.freeHdr i) s1).dropOrders e
  let gone := (s2.mch.rvs.filter (fun r => r.2.srcEp == e)).map Prod.fst
  let s3 := gone.foldl (fun t i => t.freeRv i) s2
  ((s3.onMch (fun m => { m with landings := Tbl.keep (fun _ l => l.ep != e) m.landings })).setPosted e []).setOver e []

/-- R381: keys of a host port that satisfy a test are revoked without completions, and revocations lose theirs. -/
def State.revokeAll (s : State) (p : Nat → Bool) : State :=
  (s.rma.keys.filter (fun k => p k.1)).foldl (fun t k =>
    if k.2.state = 1 then t.startRevoke k.1 none
    else if k.2.state = 2 then t.setKey k.1 (some { k.2 with by_ := none })
    else t) s

/-- R444: the window registers of a function return to reset. -/
def State.resetWindows (s : State) (f : Nat) : State :=
  let words (base n : Nat) : List Nat := (List.range n).map (fun i => base + 4 * i)
  let offs := [Reg.BRG_FN_CFG.off f, Reg.BRG_FN_ERR.off f] ++ words (Reg.WIN_FN.off f 0) 32 ++
    (if isPf f then words (Reg.WIN_PF.off (hpOf f) 8) 224 else [])
  offs.foldl (fun t o => t.setWord o (resetWord o).toNat) s

/-- Window accesses of a function that have not been sent are discarded; reads complete as Completer Abort. -/
def State.dropWindows (s : State) (f : Nat) : State :=
  let dead := (s.brg.reads.filter (fun r => r.2.fn == f && r.2.op.isNone)).map Prod.snd
  let s1 := dead.foldl (fun t x => (t.dropRead x).completeErr (hpOf f) x.tag 4) s
  (s1.onBrg (fun b => { b with writes := Tbl.keep (fun _ w => !(w.fn == f && w.op.isNone)) b.writes })).pfKill (fun e => e.fn == f)

/-- A queue number that no queue has. -/
def noQueue : Nat := 2 ^ 20 + 1
/-- R400: a fabric-lock operation of a destroyed queue goes on for its record, with no entry to finish. -/
def Op.orphan (o : Op) (queues : List Nat) : Op :=
  match o.origin with
  | .flEntry q c i => if queues.contains q then { o with origin := .flEntry noQueue c i } else o
  | _ => o

/-- R211: the objects of a function are destroyed without completions. -/
def State.dropObjects (s : State) (f : Nat) : State :=
  let queues := (s.hif.sqs.filter (fun e => e.2.owner == f)).map Prod.fst
  let eps := (s.hif.eps.filter (fun e => e.2.owner == f)).map Prod.fst
  let s1 := eps.foldl (fun t e => (t.colLeaveAll e).dropMatching e) s
  let trn : Trn := { s1.trn with ops := (Tbl.keep (fun _ o => !o.abandoned queues eps) s1.trn.ops).map (fun e => (e.1, e.2.orphan queues)),
                                 accepted := s1.trn.accepted.filter (fun a => !((0x12 :: mchOps).contains (Th.opcode a.th) && eps.contains (Th.dstEp a.th))) }
  let hif : Hif := { s1.hif with sqs := Tbl.keep (fun _ v => v.owner != f) s1.hif.sqs, cqs := Tbl.keep (fun _ v => v.owner != f) s1.hif.cqs,
                                 eqs := Tbl.keep (fun _ v => v.owner != f) s1.hif.eqs }
  let s2 : State := { s1 with trn := trn, hif := hif }
  let s3 := (s2.onRma (fun r => { r with invs := r.invs.filter (fun x => !queues.contains x.1) })).onMch
    (fun m => { m with cancels := m.cancels.filter (fun c => !queues.contains c.1) })
  eps.foldl (fun t e => t.removeEp e) s3

/-- R211: the reset of one function. -/
def State.flrOne (s : State) (f : Nat) : State :=
  let s1 := (s.cellResetIdentity f).flResetIdentity f
  let s2 := ((s1.dropWindows f).dropObjects f).resetWindows f
  let s3 := s2.revokeAll (fun i => keyHp i == hpOf f && s2.ownsEntry f (keyEntry i))
  let s4 := ((s3.dropReqs (hpOf f) f).invalidateFn (hpOf f) f).1
  s4.setFn f { s4.fn f with busy := false, status := 0, detail := 0, flrBusy := true }

/-- R319: the regions of a host port end with the loss of their contexts, and their epochs are stale. -/
def State.loseRegions (s : State) (hp : Nat) : State :=
  ((s.trn.regions.filter (fun e => e.1 / 1024 == hp)).map Prod.fst).foldl (fun t r =>
    let epoch := match t.slot? (r % 1024) with
      | some v => Tbl.ins t.trn.stale r v.epoch
      | none => t.trn.stale
    (({ t with trn := { t.trn with stale := epoch } }).regionEnd hp (r % 1024) 4 true)) s

/-- The functions a reset of `f` covers: itself, and for a PF its VFs (R211). -/
def flrSet (f : Nat) : List Nat := if isPf f then (List.range 256).map (fun v => f + v) else [f]

/-- R211: FLR of function `f`. -/
def execFlr (f : Nat) (s : State) : Host.Outcome State Fault Refusal :=
  if s.mode = .off ∨ ¬ (f < 1024) ∨ ¬ s.hpPresent (hpOf f) then .next s
  else
    let s1 := (flrSet f).foldl (fun t g => if g = f ∨ (t.fn g).exists_ then t.flrOne g else t) s
    .next (if isPf f then s1.loseRegions (hpOf f) else s1).settle

/-- R211, R272, R381: FLR_COMPLETE of function `f`: what accesses begun before the reset have put into its unit goes as well; its keys have been revoked; after a reset of its host port, which loses the function's
range, those of the whole table. -/
def execFlrComplete (f : Nat) (s : State) : Host.Outcome State Fault Refusal :=
  let waits := s.rma.keys.any (fun k => k.2.state == 2 && keyHp k.1 == hpOf f &&
    (s.ownsEntry f (keyEntry k.1) || s.rma.tabEnd.contains (hpOf f)))
  if (s.fn f).flrBusy ∧ ¬ waits then
    let t := (s.invalidateFn (hpOf f) f).1
    .next (t.setFn f { t.fn f with flrBusy := false })
  else .next s

end Sys2Proof.Machine
end

