-- ==== Sys2Proof/Machine/Readback.lean ====
section
/-! DEFINITION. The readback window (R509-R513): the rows of its tables and the capture of some of them. The codes that a row
shows for states to which the spec gives no numbers, and for landing locations, are free. -/
namespace Sys2Proof.Machine

/-- A row as it is captured: the flags of R511, the host port it belongs to, its bytes. -/
structure RbRow where
  present : Bool
  used : Bool
  dirty : Bool
  pinned : Bool
  locked : Bool
  hp : Option Nat
  data : Data
deriving DecidableEq, Repr

/-- A row that does not exist. -/
def RbRow.absent : RbRow := ⟨false, false, false, false, false, none, Data.empty⟩
/-- A row that exists and holds nothing. -/
def RbRow.empty (hp : Option Nat) (len : Nat) : RbRow := ⟨true, false, false, false, false, hp, ⟨len, 0⟩⟩
/-- A row that holds something. -/
def RbRow.of (hp : Option Nat) (d : Data) : RbRow := ⟨true, true, false, false, false, hp, d⟩

/-- The code of a state that the spec gives no number (R512): table, state. -/
def rbCode (table x : Nat) : Nat := Config.unstated (0x9000 + table) x 0

/-- R513: fields (bytes, value) packed from byte 0 in order. -/
def rbPack : List (Nat × Nat) → Data
  | [] => Data.empty
  | (n, v) :: t => (Data.ofNat n v).append (rbPack t)

/-- R213: the host port whose share a queue group lies in. -/
def State.groupHp (s : State) (g : Nat) : Nat := if s.glb.strapHpmode then g / 4096 else if g < 8192 then 0 else 2
/-- The host port of an endpoint. -/
def State.epHp (s : State) (e : Nat) : Nat := s.groupHp (e / 4)

/-- R249. -/
def Sq.record (v : Sq) : Data :=
  ⟨32, packB [(0, 32, v.l.toNat), (4, 32, v.f.toNat), (8, 32, v.c.toNat), (12, 32, v.errCtr.toNat), (16, 16, v.cq), (18, 16, v.ep),
    (20, 7, v.n + v.tc * 32), (21, 3, match v.state with | .ready => 1 | .error => 2 | .destroying => 3), (22, 8, v.errCode),
    (24, 64, v.base)]⟩
/-- R250. -/
def Cq.record (v : Cq) : Data :=
  let stalled : Bool := v.state != .active
  ⟨32, packB [(0, 32, v.prod.toNat), (4, 32, v.cons.toNat), (8, 32, v.start.toNat),
    (12, 8, v.held.length + (match v.state with | .active => 1 | .stalled => 2 | .overflow => 3) * 16 + b2n v.armed * 64 + b2n v.wb.isSome * 128),
    (13, 5, v.n), (14, 11, v.vector), (16, 48, if stalled then v.stallCourse.toNat else 0), (24, 64, v.base)]⟩
/-- R250, for event rings. -/
def Eq.record (v : Eq) : Data :=
  ⟨32, packB [(0, 32, v.prod.toNat), (4, 32, v.cons.toNat), (8, 32, v.start.toNat), (12, 8, v.held.length + 16 + b2n v.armed * 64),
    (13, 5, v.n), (14, 11, v.vector), (24, 64, v.base)]⟩

/-- Brick slots of a port in use, in order: the brick, its VC. -/
def State.brickSlots (s : State) (p : Nat) : List (Data × Nat) :=
  ((s.inq p).map (fun k => ((k.head :: k.rest).take k.forms.length).map (fun d => (d, k.vc)))).flatten

/-- The slots of open chunks: the accumulator of each that has one, then its stored inputs. -/
def State.redSlots (s : State) : List (ColChunk × ColIn) :=
  (s.col.chunks.map (fun c => (if c.folded.isEmpty then [] else [(c, c.acc)]) ++ c.stored.map (fun e => (c, e.2)))).flatten

/-- R421: the position in its tree's stream of chunk `idx` of operation `csn`, as far as the open operations tell. -/
def State.streamPos (s : State) (t csn idx : Nat) : Nat :=
  let x := s.colTree t
  let per (c : Nat) : Nat :=
    match s.col.chunks.find? (fun k => k.tree == t && k.csn == c), s.col.ops.find? (fun o => o.tree == t && o.csn == c) with
    | some k, _ => max 1 (ceilDiv k.h.count (colPerChunk k.h.dtype k.h.mode))
    | none, some o => max 1 (ceilDiv o.h.count (colPerChunk o.h.dtype o.h.mode))
    | none, none => 1
  (List.range (min 64 (serialDist x.low csn 24))).foldl (fun a i => a + per ((x.low + i) % 2 ^ 24)) (x.lowPos + idx)

/-- Tables 0x01 to 0x07. -/
def State.rbRowA (s : State) (table i : Nat) : RbRow :=
  match table with
  | 0x01 =>
    if i ≥ 131072 then .absent
    else match s.sq? i with
      | some v => .of (some (s.groupHp (i / 8))) v.record
      | none => .empty (some (s.groupHp (i / 8))) 32
  | 0x02 =>
    if i ≥ 65536 then .absent
    else match s.cq? i with
      | some v => .of (some (s.groupHp (i / 4))) v.record
      | none => .empty (some (s.groupHp (i / 4))) 32
  | 0x03 =>
    if i < 1024 ∧ s.hpPresent (i / 256) then
      match Tbl.find? s.hif.eqs i with
      | some v => .of (some (i / 256)) v.record
      | none => .empty (some (i / 256)) 32
    else if 1024 ≤ i ∧ i < 1028 then
      let owner := if s.glb.strapHpmode then i - 1024 else if i < 1026 then 0 else 2
      match Tbl.find? s.hif.eqs (devRing (i - 1024)) with
      | some v => .of (some owner) v.record
      | none => .empty (some owner) 32
    else .absent
  | 0x04 =>
    if i ≥ 65536 then .absent
    else match s.ep? i with
      | some e => .of (some (s.epHp i)) (rbPack [(2, e.owner), (2, e.slot), (2, e.rcq), (2, e.as_), (8, e.otBase), (1, e.m), (1, b2n e.rxStamp),
          (1, rbCode 4 (b2n e.destroying))])
      | none => .empty (some (s.epHp i)) 19
  | 0x05 =>
    if i ≥ 65536 then .absent
    else match s.trn.ctxs[i]? with
      | some (k, c) =>
        let sl := s.slot? (ctxSlot k)
        { RbRow.of (some (ctxHp k)) (c.toRec k (match sl with | some v => v.domain | none => 0) (match sl with | some v => v.encrypt | none => false)) with
          dirty := c.dirty, pinned := s.pinned k c }
      | none => .empty none 256
  | 0x06 =>
    if i ≥ 1024 then .absent
    else
      let stale := (List.range 4).map (fun h => (4, Tbl.get (fun _ => 0) s.trn.stale (h * 1024 + i)))
      match s.slot? i with
      | some v => .of none (rbPack ([(2, v.domain), (4, v.epoch), (1, b2n v.encrypt), (1, v.hpMask), (1, b2n v.vfOk)] ++ stale))
      | none => { RbRow.empty none 0 with data := rbPack ([(2, 0), (4, 0), (1, 0), (1, 0), (1, 0)] ++ stale) }
  | _ =>
    if i ≥ 32768 then .absent
    else match s.rma.descs[i]? with
      | some (k, d) => { RbRow.of (some (keyHp k)) (rbPack [(3, k), (32, d.raw)]) with pinned := s.descPinned d }
      | none => .empty none 35

/-- Tables 0x08 to 0x0E. -/
def State.rbRowB (s : State) (table i : Nat) : RbRow :=
  match table with
  | 0x08 =>
    let u := i / 16384
    if u ≥ 4 ∨ ¬ s.unitPresent u then .absent
    else match (s.xu u).tlb[i % 16384]? with
      | some e => { RbRow.of (some u) (rbPack [(1, u), (2, e.as_), (8, e.page), (1, e.size), (8, e.out), (1, e.r1), (1, e.lvl1), (1, e.r2), (1, e.lvl2),
          (2, e.owner), (6, e.fill.toNat)]) with locked := e.locked }
      | none => .empty (some u) 32
  | 0x09 =>
    let u := i / 1024
    if u ≥ 4 ∨ ¬ s.unitPresent u then .absent
    else match (s.xu u).wc[i % 1024]? with
      | some e => .of (some u) (rbPack [(1, rbCode 9 e.kind), (1, u), (2, e.as_), (1, e.lvl), (8, if e.kind = 0 then Asd.root e.val else e.val), (6, e.fill.toNat)])
      | none => .empty (some u) 19
  | 0x0A =>
    if i ≥ 65536 then .absent
    else match s.mch.orders[i]? with
      | some (k, r) => { RbRow.of (some (s.epHp (okEp k))) ((rbPack [(2, okEp k)]).append (r.bytes k)) with dirty := r.dirty }
      | none => .empty none 18
  | 0x0B =>
    if i ≥ 65536 then .absent
    else match s.hdr? i with
      | some h =>
        let code := match h.st with | .reorder => 0 | .refused => 1 | .skipped => 2 | .unexpected => 3 | .claimed => 4 | .assembling => 5
        .of (some (s.epHp h.ep)) (rbPack [(5, h.source), (2, h.context), (3, h.msn), (8, h.tag), (4, h.len), (1, rbCode 0xB (16 + b2n h.rndv)), (3, h.base),
          (4, h.count), (8, match h.landing with | some (b, o, _) => Config.unstated 0x90B b o | none => Config.unstated 0x90B 0 (2 ^ 32)), (4, h.rvId),
          (8, match h.recv with | some r => r.buf | none => 0), (4, match h.recv with | some r => r.len | none => 0), (1, rbCode 0xB code), (2, s.hdrGen i)])
      | none => { RbRow.empty none 0 with data := rbPack [(53, 0), (1, rbCode 0xB 6), (2, s.hdrGen i)] }
  | 0x0C =>
    if i ≥ 262144 then .absent
    else match ((s.mch.posted.map (fun e => e.2.map (fun p => (e.1, p)))).flatten)[i]? with
      | some (ep, p) => .of (some (s.epHp ep)) (p.bytes ep noSlot true)
      | none => .empty none 64
  | 0x0D =>
    if i ≥ 65536 then .absent
    else match s.mch.landings[i]? with
      | some (_, b) => .of (some (s.epHp b.ep)) (rbPack [(2, b.ep), (8, b.addr), (4, b.len), (4, b.fill), (4, b.held)])
      | none => .empty none 22
  | _ =>
    if i ≥ 32768 then .absent
    else match Tbl.find? s.mch.rvs i with
      | some r => .of (some (s.groupHp (r.q / 8))) (rbPack [(3, r.gen), (3, r.q), (4, r.ctr.toNat), (8, r.va), (4, r.len)])
      | none => { RbRow.empty none 0 with data := rbPack [(3, Tbl.get (fun _ => 0) s.mch.rvGens i), (19, 0)] }

/-- Tables 0x0F to 0x15. -/
def State.rbRowC (s : State) (table i : Nat) : RbRow :=
  match table with
  | 0x0F =>
    if i ≥ 1024 then .absent
    else
      let v := s.cell i
      let ws := (v.waiters.zipIdx).map (fun e => [(2, e.1.1), (1, e.1.2), (1, e.2)])
      let d := rbPack ([(2, v.owner), (1, b2n v.abandoned)] ++ ws.flatten)
      { RbRow.of none ⟨255, d.val⟩ with used := !v.isFree || v.abandoned }
  | 0x10 =>
    if i ≥ 4096 then .absent
    else match s.rec? i with
      | some r => .of (if r.identity < 1024 then some (hpOf r.identity) else none)
          (rbPack [(2, r.identity), (5, r.target), (4, r.key), (6, r.offset), (4, r.ticket), (1, rbCode 0x10 (b2n r.holding))])
      | none => .empty none 22
  | 0x11 =>
    if i ≥ 65536 then .absent
    else match s.rma.results[i]? with
      | some (id, old) =>
        match s.trn.ops.find? (fun e => e.2.origin == .atomic id) with
        | some (_, o) => .of none (rbPack [(3, bits o.fields 0 24), (1, bits o.fields 24 8), (16, old)])
        | none => .empty none 20
      | none => .empty none 20
  | 0x12 =>
    if i ≥ 4096 then .absent
    else
      let x := s.colTree i
      let ws := (List.range 10).map (fun k => (4, s.setW (k / 5) (Reg.COL_TREE.off i + 4 * (k % 5))))
      { RbRow.of none (rbPack (ws ++ [(3, x.low), (4, x.lowPos), (4, s.streamPos i x.sendCsn x.sendIdx), (4, x.fwd)])) with
        used := s.treeValid 0 i || s.treeValid 1 i }
  | 0x13 =>
    let n := i / 4
    if n ≥ 2048 then .absent
    else match s.redSlots[n]? with
      | some (c, x) =>
        let code := match c.st with | .gather => 1 | .ready => 2 | .downwait => 3 | .held => 4 | .forward _ => 4
        let d := rbPack [(1, rbCode 0x13 code), (2, c.tree), (4, c.idx), (2, c.folded.length)]
        .of none ((d.append (x.data.slice (1024 * (i % 4)) 1024)).slice 0 1024)
      | none => .empty none 1024
  | 0x14 =>
    if i ≥ 8192 then .absent
    else match s.col.members[i]? with
      | some (k, m) => .of (some (s.epHp (k % 65536))) (rbPack [(2, k / 65536), (2, k % 65536), (3, m.nextCsn)])
      | none => .empty none 7
  | _ =>
    if i ≥ 2 then .absent
    else .of none (rbPack ((List.range 128).map (fun k => (8, Tbl.get (fun _ => 0xFFFFFFFFFFFFFFFF) s.rte.map (128 * i + k)))))

/-- Tables 0x16 to 0x1C. -/
def State.rbRowD (s : State) (table i : Nat) : RbRow :=
  match table with
  | 0x16 =>
    if i ≥ 8192 then .absent
    else
      let m := s.meter i
      .of none (rbPack [(4, unsigned m.tc 32), (4, unsigned m.tp 32), (8, m.green.toNat), (8, m.yellow.toNat), (8, m.red.toNat)])
  | 0x17 => if i ≥ 4096 then .absent else .of none (rbPack [(4, unsigned (s.shaper i) 32)])
  | 0x18 =>
    match locate (4 * i) with
    | some (d, _, _, w) => if d.fields.any (fun f => f.word = w ∧ f.acc = .SH) then .of none (rbPack [(4, s.setW s.crs.active (4 * i))]) else .absent
    | none => .absent
  | 0x19 =>
    if i ≥ 2 * 1424 then .absent
    else match Tbl.find? s.bst.results i with
      | some r => .of none (rbPack [(8, r.sig), (8, r.gold), (1, r.code), (6, r.course.toNat)])
      | none => .empty none 23
  | 0x1A => if i ≥ 4096 then .absent else .of none (rbPack [(2, (s.src i).seq.toNat)])
  | 0x1B =>
    let p := i / 8192
    if p ≥ 64 then .absent
    else match (s.brickSlots p)[i % 8192]? with
      | some (d, vc) => .of none (rbPack [(64, d.val), (1, vc), (1, rbCode 0x1B 1)])
      | none => { RbRow.empty none 0 with data := rbPack [(64, 0), (1, 0), (1, rbCode 0x1B 0)] }
  | _ =>
    let p := i / 2048
    if p ≥ 64 then .absent
    else match (s.lk p).replay.find? (fun b => b.seq.toNat % 2048 == i % 2048) with
      | some b => .of none (rbPack [(72, (brickBytes b.type b.seq.toNat (((s.lk p).expected - 1).toNat) b.body).val), (1, 0)])
      | none => .empty none 73

/-- R512: a row of a table. -/
def State.rbRow (s : State) (table i : Nat) : RbRow :=
  if table = 0 ∨ table > 0x1C then .absent
  else if table ≤ 0x07 then s.rbRowA table i
  else if table ≤ 0x0E then s.rbRowB table i
  else if table ≤ 0x15 then s.rbRowC table i
  else s.rbRowD table i

/-- R509: the buffer of a requester. -/
def bufferOf : Requester → Option Nat
  | .fn i => if isPf i then some (hpOf i) else none
  | .mc c => if c < 4 then some (4 + c) else none
  | .monitor => some 4
  | .fm => some 8

/-- Write the bytes of a run, zeros up to the next word, into the window. -/
def State.rbStore (s : State) (off : Nat) (d : Data) : State :=
  (List.range (ceilDiv d.len 4)).foldl (fun t i => t.setWord (off + 4 * i) (d.field (4 * i) 0 32 % 2 ^ (8 * min 4 (d.len - 4 * i)))) s

/-- R510, R511: a row in a buffer: its header, and its data unless it is another host port's. -/
def State.rbPut (s : State) (b r i : Nat) (row : RbRow) : State :=
  let denied : Bool := b < 4 && row.present && (match row.hp with | some h => h != b | none => false)
  let base := Reg.RBK_SEL.off b
  let d : Data := if denied then ⟨row.data.len, 0⟩ else row.data
  let h := packB [(0, 8, b2n row.present + 2 * b2n row.used + 4 * b2n row.dirty + 8 * b2n row.pinned + 16 * b2n row.locked + 32 * b2n denied),
                  (2, 16, d.len), (4, 24, i)]
  (s.rbStore (base + 0x800 + 16 * r) ⟨16, h⟩).rbStore (base + 0x1000 + 0x400 * r) d

/-- R510: the capture of `v` into buffer `b`, whose rows all stand as at one cycle. It takes 1 to 16 cycles, a free value
(DESIGN CHOICE, notes/assumptions/97). -/
def State.captureRows (s : State) (b v : Nat) : State :=
  let d := s.draw
  let s0 := { d.2 with mgt := { d.2.mgt with rbkEnd := Tbl.ins d.2.mgt.rbkEnd b (s.cycles + 1 + d.1 % 16) } }
  let s1 := s0.put (Reg.RBK_SEL.count b) (v % 16)
  let table := s.g (Reg.RBK_SEL.table b)
  let first := s.g (Reg.RBK_SEL.index b)
  let s2 := (List.range (v % 16 + 1)).foldl (fun t r => t.rbPut b r ((first + r) % 2 ^ 24) (s.rbRow table ((first + r) % 2 ^ 24))) s1
  (s2.put (Reg.RBK_TIME.time_lo b) (s.now % 2 ^ 32)).put (Reg.RBK_TIME.time_hi b) (s.now / 2 ^ 32)

/-- R510: RBK_SEL.busy of a buffer: its capture is in progress. -/
def State.rbkBusy (s : State) (b : Nat) : Bool :=
  match Tbl.find? s.mgt.rbkEnd b with
  | some t => decide (s.cycles < t)
  | none => false

/-- R510: a write of `v` to RBK_SEL word 1 of buffer `b`: a capture, or a bad access while one is in progress. -/
def State.capture (s : State) (b v : Nat) : State := if s.rbkBusy b then s.badAccess else s.captureRows b v

end Sys2Proof.Machine
end

