-- ==== Sys2Proof/Machine/Sys.lean ====
section
/-! DEFINITION. What the rows of spec/01, spec/02 and spec/18 share with register writes: resets (R29, R524, R529), mode
requests and changes (R27-R36), the configuration sets and their swaps (R70-R78). -/
namespace Sys2Proof.Machine

/-! ### Resets (R29, R30, R37, R526, R529) -/

/-- What lies outside the device, ends only with a rail or RESET_N, or is fused, and so outlives a reset. -/
def State.outside (s t : State) : State :=
  { t with glb := { t.glb with ballBoot := s.glb.ballBoot, ballHpmode := s.glb.ballHpmode, ballTimeroot := s.glb.ballTimeroot,
                               resetN := s.glb.resetN, railCore := s.glb.railCore, railLane := s.glb.railLane, railIo := s.glb.railIo,
                               trip := s.glb.trip, gpioPins := s.glb.gpioPins, perstN := s.glb.perstN },
           bst := { t.bst with fuses := s.bst.fuses }, out := s.out, free := s.free, pending := s.pending }

/-- R29: OFF: all volatile state is lost, soft repairs included, and the host ports present no device (R37). -/
def State.enterOff (s : State) : State :=
  let t := s.outside State.reset
  { t with mode := .off }.emit .deviceGone

/-- R29, R99, R526: STRAP is entered: the strap balls are sampled, STRAP_TIMEROOT gives CRS_ALIGN_CTRL.root (R54), and the lanes of the
boot links that STRAP_BOOT selects begin training. -/
def State.enterStrap (s : State) : State :=
  let t := s.outside State.reset
  let t1 := { t with mode := .strap, glb := { t.glb with strapBoot := s.glb.ballBoot, strapHpmode := s.glb.ballHpmode,
                                                         strapTimeroot := s.glb.ballTimeroot } }
  let t2 := if s.glb.ballTimeroot then t1.alignCtrlWrite (1 + t1.g Reg.CRS_ALIGN_CTRL.rank * 256) false else t1
  (t2.laneStart (laneOf 62 0)).laneStart (laneOf 63 0)

/-- Every rail is within its limits (R535). -/
def State.railsGood (s : State) : Bool := s.glb.railCore && s.glb.railLane && s.glb.railIo
/-- R37: REFOUT_P/N buffer the reference whenever the rails are up, in reset too. -/
def State.refoutDriven (s : State) : Bool := s.railsGood
/-- R38: THERM_TRIP_N: undriven while VDD_IO is out of its limits, else low during a thermal trip. -/
def State.thermTripN (s : State) : Option Bool := if s.glb.railIo then some (!s.glb.trip) else none

/-- R524: the accepted full_reset write: OFF, and after 1 ms STRAP as if RESET_N had been deasserted. -/
def State.fullReset (s : State) : State :=
  let t := s.enterOff
  if t.glb.resetN ∧ t.railsGood then t.enterStrap else t

/-- R524: a write of GLB_RESET_CTRL. -/
def State.resetCtrl (s : State) (v : Nat) : State :=
  if bits v 16 16 = 0xD1E5 ∧ bit v 0 ∧ ¬ s.liveBit 3 then s.fullReset else s.badAccess

/-- R529: PERST_N or a hot reset of host port `h`. -/
def State.hostPortReset (s : State) (h : Nat) : State :=
  let fs := (List.range 256).map (fun i => h * 256 + i)
  let live := fs.filter (fun f => isPf f || (s.fn f).exists_)
  let s1 := (live.foldl (fun t f => t.flrOne f) s).loseRegions h
  let s2 := ((s1.revokeAll (fun i => keyHp i == h)).emptyUnit h)
  let s3 := s2.setXu h XUnit.reset
  let s4 := s3.resetWords (Reg.HIF_FN_STATUS.off (h * 256)) (Reg.HIF_FN_STATUS.off (h * 256 + 256))
  let s5 := s4.resetWords (Reg.WIN_PF.off h 0) (Reg.WIN_PF.off h 64)
  let s6 := s5.resetWords (Reg.XLT_AST_BASE_LO.off h) (Reg.XLT_AST_BASE_LO.off (h + 1))
  let s7 := s6.resetWords (Reg.XLT_FN_S2.off (h * 256)) (Reg.XLT_FN_S2.off (h * 256 + 256))
  let s8 := s7.resetWords (Reg.MCH_FN_QUOTA.off (h * 256)) (Reg.MCH_FN_QUOTA.off (h * 256 + 256))
  let s9 := s8.resetWords (Reg.RMA_FN_KEYS.off (h * 256)) (Reg.RMA_FN_KEYS.off (h * 256 + 256))
  let s10 := (s9.resetWords (Reg.MGT_MG.off h) (Reg.MGT_MG.off (h + 1))).setBox h Mailbox.reset
  let s11 := s10.resetWords (Reg.RBK_SEL.off h) (Reg.RBK_SEL.off (h + 1))
  let fns := fs.foldl (fun t f =>
    Tbl.put (fun _ => Fn.reset) t f { Fn.reset with exists_ := isPf f && (s.fn f).exists_, flrBusy := (s11.fn f).flrBusy }) s11.hif.fns
  let hif : Hif := { s11.hif with fns := fns, msix := Tbl.keep (fun k _ => k / 4 / 1024 / 256 != h) s11.hif.msix,
                                  pba := s11.hif.pba.filter (fun k => k / 1024 / 256 != h) }
  ({ s11 with hif := hif }.onRma (fun r => { r with tabEnd := setAdd r.tabEnd h })).endTables

/-! ### Mode requests and changes (R27-R36) -/

/-- R32: no locally initiated operation is outstanding. An entry that has finished counts as completed before its completion, or its
queue's FLUSHED completion, is written: R32 does not say (DESIGN CHOICE, notes/assumptions/90). -/
def State.drained (s : State) : Bool :=
  s.mode == .drain &&
  s.hif.sqs.all (fun e => e.2.reads.isEmpty && e.2.ents.all (fun x => match x.st with | .done _ => true | .waiting => e.2.state == .error | .running _ => false)) &&
  s.trn.ctxs.all (fun e => e.2.tx.all (fun t => t.pkts.isEmpty))

/-- R28: a mode request is recorded. It takes the place of another of its course; the last one of an earlier course, which waits at this
boundary, still comes first. -/
def State.modeReq (s : State) (identity v : Nat) : State :=
  if s.mode = .off ∨ s.mode = .fenced then s
  else
    let old := if s.glb.reqPending && s.glb.reqCourse != s.crs.course then some s.glb.target else s.glb.reqOld
    { s with glb := { s.glb with reqPending := true, requester := identity, target := bits v 0 3, reqCourse := s.crs.course, reqOld := old } }

/-- R28: a request is refused. -/
def State.modeRefuse (s : State) (target : Nat) : State :=
  { s with glb := { s.glb with reqPending := false, reqErr := true, refusedMode := target } }.raise 0 0 0

/-- R29: the requested transition is in the table and its condition holds. -/
def State.modeOk (s : State) (target : Nat) : Bool :=
  match s.mode, Mode.ofCode target with
  | .monitor, .train => true
  | .train, .monitor => true
  | .train, .transit => s.crs.aligned && s.meValid
  | .transit, .service => true
  | .transit, .drain => true
  | .service, .drain => true
  | .drain, .service => true
  | .drain, .transit => s.drained
  | _, _ => false

/-- R100, R137: lanes and links as the mode and the roles now permit. -/
def State.recheckPhy (s : State) : State :=
  let s1 := (List.range 64).foldl (fun t p => if t.linkPermit p then t else t.linkForbid p) s
  (List.range 128).foldl (fun t n => t.laneStart n) s1.forbidLanes

/-- R475: the counts and windows of every source clear on entry to STRAP, TRAIN or DRAIN. -/
def State.clearAllCounts (s : State) : State := s.clearCounts (Tbl.keys s.srcs)

/-- R29: the transition itself. A device that comes from TRAIN publishes its congestion levels in the course of entry (R164). -/
def State.enterMode (s : State) (m : Mode) : State :=
  let s1 := { s with mode := m, glb := { s.glb with prevMode := s.mode.code, cause := 1, reqPending := false } }
  match m with
  | .monitor => s1.recheckPhy
  | .train =>
    let s2 := if s1.isRoot then { s1 with crs := { s1.crs with aligned := true } } else s1
    s2.clearAllCounts.recheckPhy
  | .transit =>
    let s2 := { s1 with glb := { s1.glb with lock := true } }.routeEnterTransit
    (if s.mode = .train then s2.sendCongRows else s2).recheckPhy
  | .drain => s1.clearAllCounts.cqResume
  | .service => s1.cqResume
  | _ => s1

/-- R140: a FENCE brick on a link. -/
def State.sendFence (s : State) (p : Nat) : State := s.sendBrick p 0xB 0 (Data.ofNat 64 s.me)

/-- The device ring is armed: no entry has sent its vector since (R248). -/
def State.ringArmed (s : State) (d : Nat) : Bool :=
  match Tbl.find? s.hif.eqs (devRing d) with
  | some e => e.armed
  | none => false

/-- R35 step 2: the fence event, to every device ring whatever its enable says, with the vector bound to each. -/
def State.fenceEvent (s : State) : State :=
  let entry := eventEntry s.now 1 0 (s.src 1).seq.toNat 0 0
  [0, 1, 2, 3].foldl (fun t d =>
    match Tbl.find? t.hif.eqs (devRing d) with
    | some e => let u := t.eqPost (devRing d) entry; if e.armed && !u.ringArmed d then u else u.msixSend e.owner e.vector
    | none => t.eqPost (devRing d) entry) (s.raiseMute 1 0 none)

/-- R29, R30, R35: FENCED is entered: a waiting mode request is refused, the fence event goes out, bus mastering stops, the monitor locks
(R518), held-lock records are lost (R400), links that were UP send FENCE bricks, all others go quiet. -/
def State.enterFenced (s : State) (cause : Nat) : State :=
  let s0 := match s.glb.reqOld with
    | some t => { s with glb := { s.glb with reqOld := none } }.modeRefuse t
    | none => s
  let s1 := if s.glb.reqPending then s0.modeRefuse s.glb.target else s0
  let s2 := s1.fenceEvent
  let g : Glb := { s2.glb with prevMode := s2.mode.code, cause := cause, fencePend := none, fenceFrom := s2.crs.course, fenceTxOff := false }
  let s3 := { s2 with mode := .fenced, glb := g, lck := { s2.lck with recs := [] }, mgt := { s2.mgt with mon := { s2.mgt.mon with unlocked := false } } }
  let s4 := (List.range 64).foldl (fun t p =>
    match (t.lk p).st with
    | .up => (t.onLk p (fun l => { l with st := .fencing })).sendFence p
    | .init => t.linkDown p 5
    | .hold => t.linkDown p 5
    | _ => t) s3
  s4.lanesOff ((List.range 128).filter (fun n => (!s4.lanePermit n || s4.testing (n / 2)) && (s4.ln n).st != .disabled))

/-! ### The configuration sets (R70-R78) -/

/-- The index of the shadow set. -/
def State.shadow (s : State) : Nat := 1 - s.crs.active

/-- R72, R74: a refused arm, disarm or copy. -/
def State.swapRefuse (s : State) (code : Nat) : State :=
  { s with crs := { s.crs with armErr := true, errCode := code } }.raise (srcCrs 6) 0 0 none code

/-- CRS_SWAP_AT. -/
def State.swapAt (s : State) : Nat := s.g Reg.CRS_SWAP_AT_LO.course_lo + s.g Reg.CRS_SWAP_AT_HI.course_hi * 2 ^ 32
/-- R73, R75: the courses left until S, if S lies serially ahead. -/
def State.swapAhead (s : State) : Nat :=
  let d := serialDist s.course s.swapAt 48
  if d < 2 ^ 47 then d else 0

/-- R73: SWAP_ARM. -/
def State.swapArm (s : State) : State :=
  if s.crs.armed then s.swapRefuse 6
  else if ¬ s.crs.aligned then s.swapRefuse 2
  else if s.crs.copyBusy then s.swapRefuse 3
  else if s.swapAhead < 2 then s.swapRefuse 1
  else { s with crs := { s.crs with armed := true } }

/-- R75: SWAP_DISARM. -/
def State.swapDisarm (s : State) : State :=
  if ¬ s.crs.armed then s.swapRefuse 5
  else if s.swapAhead < 2 then s.swapRefuse 4
  else { s with crs := { s.crs with armed := false } }

/-- R72: SHADOW_COPY. The words copied enter the write log of a table bank that is out (R482). -/
def State.swapCopy (s : State) : State :=
  if s.crs.armed ∨ s.crs.busyEnd.isSome ∨ s.crs.copyBusy then s.swapRefuse 3
  else
    let s1 := { s with crs := { s.crs with copyBusy := true, copyFrom := s.cycles, copies := s.crs.copies + 1 } }
    let offs := (s.sets.map (fun e => e.1 % 2 ^ 26)).foldl setAdd []
    offs.foldl (fun t o => t.tableWrite (Sys2Proof.Machine.setKey s.shadow o) 1) s1

/-- R551: a write of CRS_SWAP_CTRL: disarm, arm and copy in this order. -/
def State.swapCtrl (s : State) (v : Nat) : State :=
  if s.mode = .off ∨ s.mode = .fenced then s
  else
    let s0 := if bit v 31 then { s with crs := { s.crs with armErr := false } } else s
    let s1 := if bit v 1 then s0.swapDisarm else s0
    let s2 := if bit v 0 then s1.swapArm else s1
    if bit v 2 then s2.swapCopy else s2

/-- R72: what a word of the shadow reads as: while a copy runs, its former or its copied value. -/
def State.shadowRead (s : State) (off : Nat) : Nat :=
  if s.crs.copyBusy ∧ Config.copyCycle s.crs.copies off + s.crs.copyFrom ≤ s.cycles then s.setW s.crs.active off else s.setW s.shadow off

/-- R72: the copy has finished: every word of the shadow reads its copied value; tree keys are copied with their trees. -/
def State.copyDone (s : State) : State :=
  let a := s.crs.active
  let b := s.shadow
  let before := s.losers b
  let mine := s.sets.filter (fun e => e.1 / 2 ^ 26 == a)
  let keys := s.col.keys.filter (fun e => e.1 / 4096 == a)
  let both (l : List (Nat × Word)) : Tbl Word := l.foldl (fun t e => Tbl.ins t (Sys2Proof.Machine.setKey b (e.1 % 2 ^ 26)) e.2) mine
  let bothK : Tbl Nat := keys.foldl (fun t e => Tbl.ins t (b * 4096 + e.1 % 4096) e.2) keys
  ({ s with sets := both mine, col := { s.col with keys := bothK }, crs := { s.crs with copyBusy := false } }).roleCheck b before

/-- R76, R77, R78, R201: the swap at cycle 0 of course S; the resets of the buckets, then the refill of that course, and CONG_ROW under
the new set (R68, R70, R164). -/
def State.swapNow (s : State) : State :=
  let trees := s.someTrees
  let before := trees.map (fun t => (t, s.treeValid s.crs.active t, s.treeGen s.crs.active t))
  let c : Crs := { s.crs with active := s.shadow, epoch := (s.crs.epoch + 1) % 65536, armed := false,
                              busyEnd := some (s.crs.course + BitVec.ofNat 48 s.life) }
  let s0 := ({ s with crs := c }).swapBuckets
  let s1 := if s0.live then s0.refill else s0
  let s2 := before.foldl (fun t e => t.colSwapTree e.1 e.2) (if s1.live then s1.sendCongRows else s1)
  (s2.raise (srcCrs 7) 0 c.epoch none c.active).recheckPhy

end Sys2Proof.Machine
end

