-- ==== Sys2Proof/Machine/RegRead.lean ====
section
/-! DEFINITION. What BAR0 locations read as: where an offset lies (R209, R521, R522), the fields of RO registers that the
machine computes from its state, and the high-half latches (R8, R12). -/
namespace Sys2Proof.Machine

/-! ### Where an offset lies -/

/-- What occupies a BAR0 offset of a requester. -/
inductive Loc where
  | reg (d : RegDef) (i j w : Nat)   -- word `w` of the register with indices i and j
  | ctr (low : Nat)                  -- a half of the 64-bit counter at `low`
  | blkId (code : Nat)               -- BLK_ID, R522
  | bank (code o : Nat)              -- a register of a fault bank, R463
  | msix (identity k : Nat)          -- word `k` of a function's MSI-X table, R247
  | pba (identity w : Nat)           -- word `w` of its pending-bit array
  | faultLog (unit slot w : Nat)     -- a word of a fault-log record, R280
  | capture (b : Nat)                -- a row header or row data of capture buffer b, R510
  | nothing
deriving DecidableEq, Repr

/-- The low half of the 64-bit counter an offset lies in (R13); FLT_COUNT is in the banks. -/
def ctrLow (off : Nat) : Option Nat :=
  if ctrRanges.any (fun r => decide (r.1 ≤ off) && decide ((off - r.1) / r.2.2.1 < r.2.1) && decide ((off - r.1) % r.2.2.1 < 8 * r.2.2.2)) then
    some (off / 8 * 8) else none

/-- BAR0 of a PF, a management core or the fabric manager (R521). -/
def locPf (off : Nat) : Loc :=
  if (ctrLow off).isSome then .ctr (off / 8 * 8)
  else
    match blockOf off with
    | some b =>
      let o := off - b.base
      if o < 4 then .blkId b.code
      else if 0x7000 ≤ o ∧ o < 0x8000 then (if bankReg ((o - 0x7000) / 4 * 4) then .bank b.code ((o - 0x7000) / 4 * 4) else .nothing)
      else if b.code = 7 ∧ 0x20000 ≤ o ∧ o < 0x30000 then .msix ((o - 0x20000) / 0x4000 * 256) (o % 0x4000 / 4)
      else if b.code = 7 ∧ 0x30000 ≤ o ∧ o < 0x30400 ∧ o % 0x100 < 128 then .pba ((o - 0x30000) / 0x100 * 256) (o % 0x100 / 4)
      else if b.code = 8 ∧ 0x8000 ≤ o ∧ o < 0xA000 then .faultLog ((o - 0x8000) / 0x800) (o % 0x800 / 32) (o % 32 / 4)
      else
        match locateIn b.regs off with
        | some (d, i, j, w) => .reg d i j w
        | none => .nothing
    | none =>
      match locateIn regsRBK off with
      | some (d, i, j, w) => .reg d i j w
      | none =>
        let o := off - 0x1000000
        if 0x1000000 ≤ off ∧ o < 9 * 0x10000 ∧ ((0x800 ≤ o % 0x10000 ∧ o % 0x10000 < 0x900) ∨ (0x1000 ≤ o % 0x10000 ∧ o % 0x10000 < 0x5000)) then
          .capture (o / 0x10000)
        else .nothing

/-- BAR0 of a VF: its function page, MSI-X table and pending-bit array (R209). -/
def locVf (f off : Nat) : Loc :=
  if off < 0x100 then locPf (Reg.HIF_FN_STATUS.off f + off)
  else if 0x800 ≤ off ∧ off < 0x840 then .msix f ((off - 0x800) / 4)
  else if 0xC00 ≤ off ∧ off < 0xC08 then .pba f ((off - 0xC00) / 4)
  else .nothing

/-- A VF. -/
def vfOf : Requester → Option Nat
  | .fn i => if isPf i then none else some i
  | _ => none
/-- The BAR0 offset of PFs that a requester's offset stands for: a VF's page, else the offset itself. -/
def bar0Off (req : Requester) (off : Nat) : Nat :=
  match vfOf req with
  | some f => Reg.HIF_FN_STATUS.off f + off
  | none => off

/-- R550: the offset is closed to host functions in STRAP. -/
def State.strapHidden (s : State) (req : Requester) (off : Nat) : Bool :=
  s.mode == .strap && (match req with | .fn _ => true | _ => false) &&
    !(decide (off < 0x80000) || (decide (0x880000 ≤ off) && decide (off < 0x900000)))

/-- The location a requester reaches. -/
def State.loc (s : State) (req : Requester) (off : Nat) : Loc :=
  if s.strapHidden req off then .nothing
  else match vfOf req with
    | some f => locVf f off
    | none => locPf off

/-- The requester exists (R23, R24), and its accesses reach the device in this mode (R37). -/
def State.canAccess (s : State) (req : Requester) : Bool :=
  s.mode != .off &&
  (match req with
   | .fn i => decide (i < 1024) && s.hpPresent (hpOf i) && (isPf i || s.mode != .strap)
   | .mc c => decide (c < 4)
   | _ => true)

/-- R8, R12: a location that also takes 64-bit accesses: the low half of a counter or of a pair. -/
def Loc.isLow (l : Loc) (off : Nat) : Bool :=
  decide (off % 8 = 0) &&
  (match l with
   | .ctr low => low == off
   | .bank _ o => o == 0x18 || o == 0x20
   | .reg d _ _ w => w == 0 && (d.id == .GLB_SERIAL || d.id == .CRS_STEP_FROM || d.id == .CRS_STEP_TO || d.id == .CRS_NOW_LO || d.id == .RBK_TIME)
   | _ => false)
/-- Its high half. -/
def Loc.isHigh (l : Loc) (off : Nat) : Bool :=
  decide (off % 8 = 4) &&
  (match l with
   | .ctr low => low + 4 == off
   | .bank _ o => o == 0x1C || o == 0x24
   | .reg d _ _ w => (w == 1 && (d.id == .GLB_SERIAL || d.id == .CRS_STEP_FROM || d.id == .CRS_STEP_TO || d.id == .RBK_TIME)) || d.id == .CRS_NOW_HI
   | _ => false)

/-- R8: the access has a permitted size and alignment. -/
def State.accessOk (s : State) (req : Requester) (off size : Nat) : Bool :=
  (size == 4 && off % 4 == 0) || (size == 8 && (s.loc req off).isLow off)

/-! ### Registers that show state -/

/-- CRS_ALIGN_STATUS. -/
def State.alignStatus (s : State) : Nat :=
  let c := s.crs
  pack [(31, 1, b2n c.multiRoot), (30, 1, b2n c.lost), (29, 1, b2n c.stepped), (28, 1, b2n c.deep),
    (27, 1, b2n (!s.isRoot && c.aligned && c.parent.isNone)), (19, 1, b2n c.aligned), (17, 2, c.globalDepth), (15, 2, c.localDepth),
    (14, 1, b2n (s.isHead s.followed)), (13, 1, b2n s.isRoot), (6, 1, b2n c.parent.isSome), (0, 6, c.parent.getD 0)]

/-- LAN_PT_STATUS. -/
def State.portStatus (s : State) (p : Nat) : Nat :=
  let x := s.pp p
  let asleep (i : Nat) : Nat := b2n ((s.ln (laneOf p i)).st == .sleep)
  pack [(31, 1, b2n x.testRefused), (30, 1, b2n x.skewErr), (29, 1, b2n x.farMismatch), (28, 1, b2n (s.phyUp p)), (26, 2, x.txMask),
    (24, 2, x.rxMask), (22, 2, asleep 0 + 2 * asleep 1), (20, 2, x.farSleep), (0, 12, x.skew)]

/-- The codes of LAN_LN_STATUS.state. -/
def LaneSt.code : LaneSt → Nat
  | .disabled => 0 | .frame => 1 | .taps => 2 | .data => 3 | .sleep => 4 | .failed => 5 | .test => 6

/-- LAN_LN_STATUS. -/
def State.laneStatus (s : State) (n : Nat) : Nat :=
  let x := s.ln n
  pack [(28, 4, x.st.code), (27, 1, b2n x.sig), (26, 1, b2n x.frameLock), (25, 1, b2n x.rxReady), (24, 1, b2n x.farRxReady),
    (23, 1, b2n x.fecLock), (22, 1, b2n x.markerLock), (20, 2, x.farIndex), (16, 4, min 15 x.attempts), (0, 10, x.snr)]

/-- The codes of LNK_STATUS.state. -/
def LinkSt.code : LinkSt → Nat
  | .down => 0 | .init => 1 | .up => 2 | .hold => 3 | .fencing => 4

/-- LNK_STATUS; the window of R124 is 2,048 bricks. -/
def State.linkStatus (s : State) (p : Nat) : Nat :=
  let x := s.lk p
  pack [(31, 1, b2n x.reach), (30, 1, b2n x.farChanged), (27, 3, x.downCause), (26, 1, b2n x.farPoolOff), (25, 1, b2n x.poolOff),
    (24, 1, b2n x.nakOut), (23, 1, b2n x.replaying), (22, 1, b2n (decide (x.replay.length ≥ 2048))), (21, 1, b2n x.resumed), (0, 3, x.st.code)]

/-- LNK_CREDIT: credits available for VCs `v` to `v + 3`; none on a link that is not UP or in HOLD. -/
def State.creditWord (s : State) (p v : Nat) : Nat :=
  let x := s.lk p
  if x.st = .up ∨ x.st = .hold then pack [(0, 8, x.credits v), (8, 8, x.credits (v + 1)), (16, 8, x.credits (v + 2)), (24, 8, x.credits (v + 3))] else 0

/-- TRN_SLOT_STATUS. -/
def State.slotStatus (s : State) (k : Nat) : Nat :=
  let per (t : Nat → Bool) : Nat := (List.range 4).foldl (fun a h => a + b2n (t h) * 2 ^ h) 0
  let low := pack [(20, 4, per (fun h => (Tbl.find? s.trn.regions (h * 1024 + k)).isSome)), (16, 4, per (fun h => (Tbl.find? s.trn.stale (h * 1024 + k)).isSome))]
  match Tbl.find? s.trn.slots k with
  | some x => low + pack [(31, 1, 1), (30, 1, b2n x.encrypt), (29, 1, b2n x.vfOk), (24, 4, x.hpMask), (0, 16, x.domain)]
  | none => low

/-- TRN_REGION, word `w`. -/
def State.regionWord (s : State) (k w : Nat) : Nat :=
  if w = 3 then (Tbl.get (fun _ => ⟨0, 0⟩) s.trn.cleared k).course.toNat % 2 ^ 32
  else
    match Tbl.find? s.trn.regions k with
    | some r => if w = 0 then 2 ^ 31 + r.k % 32 else if w = 1 then r.base % 2 ^ 32 / 4096 * 4096 else bits r.base 32 20
    | none => 0

/-- COL_TREE_STATE, word `w`. -/
def State.treeStateWord (s : State) (t w : Nat) : Nat :=
  let x := s.colTree t
  if w = 0 then
    let st := if x.error then 2 else if s.treeValid s.crs.active t then 1 else 0
    pack [(30, 2, st), (24, 6, (s.joined t).length), (0, 24, x.low)]
  else if w = 1 then pack [(16, 16, x.reason), (0, 16, x.course.toNat / 2 ^ 32)]
  else if w = 2 then x.course.toNat % 2 ^ 32
  else x.origin % 2 ^ 20

/-- HIF_FN_STATUS. -/
def State.fnStatus (s : State) (f : Nat) : Nat :=
  let x := s.fn f
  pack [(31, 1, b2n x.exists_), (30, 1, b2n x.flrBusy), (29, 1, b2n x.cfgRefused), (28, 1, b2n x.cmdOverrun),
    (27, 1, b2n (Tbl.find? s.hif.eqs f).isSome), (0, 12, f)]

/-- Descriptors of a host port's key table that are REGISTERED or REVOKING. -/
def State.keysHeld (s : State) (h : Nat) : Nat := (s.rma.keys.filter (fun e => keyHp e.1 == h && (e.2.state == 1 || e.2.state == 2))).length

/-- GLB_BOOT_STATUS.stage: until the ROM self-test has passed, the step of R490 that the time since STRAP has reached
(DESIGN CHOICE, notes/assumptions/97). -/
def State.bootStage (s : State) : Nat :=
  let st := s.g Reg.GLB_BOOT_STATUS.stage
  if s.mode = .strap ∧ st = 0 then
    (if s.cycles < Config.fuseCycles then 0 else if s.cycles < Config.fuseCycles + Config.repairCycles then 1 else 2)
  else st

/-- Word `w` of a register that shows state; none for a register whose words the register file holds. -/
def State.shown (s : State) (id : RegId) (i w : Nat) : Option Nat :=
  match id with
  | .GLB_SERIAL => some (bits Config.serial (32 * w) 32)
  | .GLB_MODE => some (pack [(31, 1, b2n s.glb.reqErr), (28, 3, s.glb.refusedMode), (16, 4, s.glb.cause), (13, 1, b2n s.crs.aligned),
      (12, 1, b2n s.drained), (8, 3, s.glb.prevMode), (0, 3, s.mode.code)])
  | .GLB_MODE_REQ => some (pack [(31, 1, b2n s.glb.reqPending), (16, 12, s.glb.requester), (0, 3, s.glb.target)])
  | .GLB_SETUP_LOCK => some (b2n s.glb.lock)
  | .GLB_STRAPS => some (pack [(4, 1, b2n s.glb.strapTimeroot), (3, 1, b2n s.glb.strapHpmode), (0, 2, s.glb.strapBoot)])
  | .GLB_GPIO_IN => some s.glb.gpioIn
  | .GLB_TEMP => some (Tbl.get (fun _ => 0) s.glb.temps i)
  | .GLB_BOOT_STATUS => some (setBits (s.word Reg.GLB_BOOT_STATUS.off) 28 4 s.bootStage)
  | .RBK_SEL => if w = 1 then some (setBits (s.word (Reg.RBK_SEL.off i + 4)) 31 1 (b2n (s.rbkBusy i))) else none
  | .CRS_NOW_LO => some (s.now % 2 ^ 32)
  | .CRS_NOW_HI => some (s.now / 2 ^ 32)
  | .CRS_ALIGN_STATUS => some s.alignStatus
  | .CRS_PHASE_ERR => some (unsigned s.crs.phaseErr 16)
  | .CRS_ROOT_ID => some (pack [(22, 1, b2n s.crs.rootValid), (20, 2, s.crs.rootRank), (0, 20, s.crs.rootId)])
  | .CRS_STEP_FROM => some (bits s.crs.stepFrom (32 * w) 32)
  | .CRS_STEP_TO => some (bits s.crs.stepTo (32 * w) 32)
  | .CRS_SWAP_CTRL => some (pack [(31, 1, b2n s.crs.armErr), (28, 3, s.crs.errCode), (9, 1, b2n s.crs.copyBusy), (8, 1, b2n s.crs.armed)])
  | .CRS_SET => some (pack [(16, 16, s.crs.epoch), (1, 1, b2n s.crs.busyEnd.isSome), (0, 1, s.crs.active)])
  | .LAN_PT_STATUS => some (s.portStatus i)
  | .LAN_PT_FAR => some (pack [(31, 1, b2n (s.pp i).farValid), (20, 6, (s.pp i).farPort), (0, 20, (s.pp i).farDevice)])
  | .LAN_LN_STATUS => some (s.laneStatus i)
  | .LAN_LN_TAPS =>
    let t := (s.ln i).taps
    some (pack [(22, 5, unsigned t.c1 5), (15, 7, unsigned t.c0 7), (9, 6, unsigned t.cm1 6), (4, 5, unsigned t.cm2 5), (0, 4, unsigned t.cm3 4)])
  | .LAN_LN_PRBS_CTRL =>
    some (setBits (setBits (s.word (Reg.LAN_LN_PRBS_CTRL.off i)) 30 1 (b2n (s.ln i).chkLock)) 29 1 (b2n (s.ln i).chkLost))
  | .LNK_STATUS => some (s.linkStatus i)
  | .LNK_RTT => some ((s.lk i).rtt % 2 ^ 20)
  | .LNK_TX_SEQ => some (pack [(16, 14, (s.lk i).acked.toNat), (0, 14, (s.lk i).next.toNat)])
  | .LNK_RX_SEQ => some (pack [(16, 13, (s.lk i).poolFree), (0, 14, (s.lk i).expected.toNat)])
  | .LNK_CREDIT_LO => some (s.creditWord i 0)
  | .LNK_CREDIT_HI => some (s.creditWord i 4)
  | .RTE_DEAD_LO => some ((s.rte.dead.filter (fun p => decide (p < 32))).foldl (fun a p => a + 2 ^ p) 0)
  | .RTE_DEAD_HI => some ((s.rte.dead.filter (fun p => decide (32 ≤ p ∧ p < 64))).foldl (fun a p => a + 2 ^ (p - 32)) 0)
  | .HIF_HP_STATUS => some (setBits (Tbl.get (fun _ => 0) s.glb.hpStatus i) 31 1 (b2n (s.hpPresent i)))
  | .HIF_FN_STATUS => some (s.fnStatus i)
  | .HIF_FN_CMD => some (s.fn i).op
  | .HIF_FN_CMD_STATUS => some (pack [(31, 1, b2n (s.fn i).busy), (8, 16, (s.fn i).detail), (0, 8, (s.fn i).status)])
  | .XLT_UNIT_STATUS =>
    let x := s.xu i
    some (pack [(31, 1, b2n (s.unitPresent i)), (16, 12, (x.tlb.filter (fun e => e.locked)).length), (8, 6, x.logNext), (0, 6, x.walks.length)])
  | .TRN_CACHE_STATUS =>
    some (pack [(16, 16, min 65535 (s.trn.ctxs.filter (fun e => s.pinned e.1 e.2)).length), (0, 16, min 65535 s.trn.ctxs.length)])
  | .TRN_SLOT_STATUS => some (s.slotStatus i)
  | .TRN_REGION => some (s.regionWord i w)
  | .MCH_STATUS => some (pack [(16, 16, min 65535 s.mch.hdrs.length), (0, 16, min 65535 s.mch.rvs.length)])
  | .MCH_OVF => if w = 2 then some (s.poolUsed i).length else none
  | .RMA_STATUS => some (pack [(16, 16, min 65535 (s.rma.descs.filter (fun e => s.descPinned e.2)).length), (0, 16, min 65535 s.rma.descs.length)])
  | .RMA_KEYTAB => if w = 2 then some (s.keysHeld i) else none
  | .LCK_FL_STATUS => some s.lck.recs.length
  | .LCK_CELL => some (s.cell i).read
  | .COL_STATUS =>
    some (setBits (setBits (s.word Reg.COL_STATUS.off) 16 12 s.slotsReserved) 0 12 (s.slotsInUse (fun _ => true)))
  | .COL_TREE_STATE => some (s.treeStateWord i w)
  | .LTL_ROUTE => if w = 0 ∧ s.ltl.bad.contains i then some (setBits (s.word (Reg.LTL_ROUTE.off i)) 31 1 0) else none
  | .BRG_HP_STATUS =>
    some (pack [(16, 10, (s.brg.reads.filter (fun r => r.1 == i)).length), (0, 7, (s.brg.pf.filter (fun e => hpOf e.2.fn == i)).length)])
  | .BST_STATUS => some (setBits (s.word Reg.BST_STATUS.off) 12 12 (s.course % 2 ^ 24 / 4096))
  | _ => none

/-- The canonical offset of a window word: windows 0-7 of a PF have two addresses (R442). -/
def winCanon (d : RegDef) (i j w off : Nat) : Nat := if d.id = .WIN_PF then winOff (i * 256) j + 4 * w else off

/-- The bits of the fields that read zero (R9, WO). -/
def RegDef.clearWo (d : RegDef) (w v : Nat) : Nat :=
  d.fields.foldl (fun a f => if f.word = w ∧ f.acc = .WO then setBits a f.lsb f.w 0 else a) v
/-- The word holds SH fields. -/
def RegDef.shadowed (d : RegDef) : Bool := d.fields.any (fun f => f.acc == .SH)

/-- R9: the word a register reads as. -/
def State.regWord (s : State) (d : RegDef) (i j w off : Nat) : Nat :=
  match s.shown d.id i w with
  | some v => v
  | none => if d.shadowed then s.shadowRead off else d.clearWo w (s.word (winCanon d i j w off))

/-! ### Reads -/

/-- R210, R280, R505, R509: what a requester may read. -/
def State.mayRead (req : Requester) : Loc → Bool
  | .reg d i _ _ =>
    match d.id with
    | .HIF_FN_STATUS | .HIF_FN_GROUPS | .HIF_FN_CMD_ARG | .HIF_FN_CMD | .HIF_FN_CMD_STATUS | .BRG_FN_CFG | .BRG_FN_ERR | .WIN_FN =>
      (match req with | .fn f => f == i || (isPf f && hpOf f == hpOf i) | _ => true)
    | .MGT_MG | .MGT_MG_DATA => boxOwner req i
    | .RBK_SEL | .RBK_TIME => bufferOf req == some i
    | _ => true
  | .capture b => bufferOf req == some b
  | .faultLog u _ _ => (match req with | .fn f => hpOf f == u | _ => true)
  | _ => true

/-- Pending bits of word `w` of a function's PBA (R248). -/
def State.pbaWord (s : State) (identity w : Nat) : Nat :=
  (List.range 32).foldl (fun a b =>
    if 32 * w + b < vectors identity ∧ s.hif.pba.contains (vecKey identity (32 * w + b)) then a + 2 ^ b else a) 0

/-- The word at a location. -/
def State.locWord (s : State) (l : Loc) (off : Nat) : Nat :=
  match l with
  | .reg d i j w => s.regWord d i j w off
  | .ctr low => bits (s.ctr low).toNat (8 * (off - low)) 32
  | .blkId code => code * 2 ^ 24 + 2 ^ 16
  | .bank code o => s.bankRead code o
  | .msix f k => Tbl.get msixReset s.hif.msix (vecKey f 0 * 4 + k)
  | .pba f w => s.pbaWord f w
  | .faultLog u slot w => bits (Tbl.get (fun _ => 0) (s.xu u).log slot) (32 * w) 32
  | .capture _ => s.word off
  | .nothing => 0

/-- The word a requester reads at an aligned offset, without regard to latches. -/
def State.readWord (s : State) (req : Requester) (off : Nat) : Nat :=
  let l := s.loc req off
  if State.mayRead req l then s.locWord l (bar0Off req off) else 0

/-- R280: a record that has been read may be overwritten without a count. -/
def State.noteRead (s : State) (req : Requester) (off : Nat) : State :=
  match s.loc req off with
  | .faultLog u slot w =>
    if State.mayRead req (.faultLog u slot w) then s.setXu u { s.xu u with unread := setDel (s.xu u).unread slot } else s
  | _ => s

/-- R8, R12: a BAR0 read: the state after it, and its data. -/
def State.barRead (s : State) (req : Requester) (off size : Nat) : State × Nat :=
  if ¬ s.accessOk req off size then (s.badAccess, 2 ^ (8 * size) - 1)
  else
    let l := s.loc req off
    let v := s.readWord req off
    let mine := State.mayRead req l
    if size = 8 then (s, v + s.readWord req (off + 4) * 2 ^ 32)
    else if l.isLow off ∧ mine then
      let high := BitVec.ofNat 32 (s.readWord req (off + 4))
      ({ s with latches := Tbl.ins s.latches req.key (off, high) }, v)
    else if l.isHigh off ∧ mine then
      match Tbl.find? s.latches req.key with
      | some (tag, high) => (s, if tag = off - 4 then high.toNat else v)
      | none => (s, v)
    else (s.noteRead req off, v)

/-- R214: a read of a doorbell page returns zero and has no effect. -/
def State.bellRead (s : State) (_off _size : Nat) : State × Nat := (s, 0)

/-- R449: a host port whose read slots are all taken returns no non-posted credits, so that it brings no read. -/
def State.readsHeld (s : State) : Requester → Bool
  | .fn f => decide ((s.brg.reads.filter (fun r => r.1 == hpOf f)).length ≥ 768)
  | _ => false

/-- R12, R214: LOW_HALF_READ, and every other BAR0 or BAR2 read of `size` bytes; at a host port that holds reads back it waits (R449). A
management core's read at a core address of its host windows is a load, in place of BAR1 an instruction fetch (R508). -/
def execLowHalfRead (req : Requester) (at_ : BarAddr) (size : Nat) (s : State) : Host.Outcome State Fault Refusal :=
  if ¬ s.canAccess req ∨ s.readsHeld req then .next s
  else
    match hostCore req at_.off with
    | some c => .next (s.coreAccess c at_.off (if at_.bar = 1 then 5 else 0) size (fun t u l => t.readRun u (u * 256) l))
    | none =>
      let r := if at_.bar = 0 then s.barRead req at_.off size else s.bellRead at_.off size
      .next (r.1.emit (.readData at_.off (Data.ofNat size r.2)))

end Sys2Proof.Machine
end

