-- ==== Sys2Proof/Machine/RegWrite.lean ====
section
/-! DEFINITION. BAR0 writes (R8-R11, R36, R71, R521, R523, R550): who may write what, the access codes, and what a write of
each register with a behaviour of its own does; the meaning of REGISTER_WRITE. -/
namespace Sys2Proof.Machine

/-- The next state of a command, or the state as it was. -/
def after (s : State) : Host.Outcome State Fault Refusal → State
  | .next t => t
  | _ => s

/-! ### Access codes (R9, R10) -/

/-- R9: a word after a write of `v`; `rwl` says whether RWL fields take it. -/
def RegDef.merge (d : RegDef) (w old v : Nat) (rwl : Bool) : Nat :=
  d.fields.foldl (fun a f =>
    let n := bits v f.lsb f.w
    if f.word ≠ w then a
    else
      match f.acc with
      | .RW => setBits a f.lsb f.w n
      | .SH => setBits a f.lsb f.w n
      | .RWL => if rwl then setBits a f.lsb f.w n else a
      | .W1C => setBits a f.lsb f.w (bits a f.lsb f.w &&& (2 ^ f.w - 1 - n))
      | .W1S => setBits a f.lsb f.w (bits a f.lsb f.w ||| n)
      | .RO => a
      | .WO => a) old

/-- R10: a write would change an RWL field. -/
def RegDef.changesRwl (d : RegDef) (w old v : Nat) : Bool :=
  d.fields.any (fun f => f.word == w && f.acc == .RWL && bits old f.lsb f.w != bits v f.lsb f.w)

/-- R10: a write that the lock holds in an RWL field is counted once, and raises GLB source 5. -/
def State.lockCheck (s : State) (d : RegDef) (w old v : Nat) : State :=
  s.lockedNote (d.changesRwl w old v)

/-! ### Who may write (R210, R361, R387, R442, R505, R508, R509, R523) -/

/-- The requester is the PF of host port `h`, a management core or the fabric manager. -/
def ofPort (req : Requester) (h : Nat) : Bool :=
  match req with
  | .fn f => f == h * 256
  | _ => true

/-- R523: a requester may write a register. -/
def State.mayWrite (req : Requester) (d : RegDef) (i : Nat) : Bool :=
  match d.id with
  | .HIF_FN_STATUS | .HIF_FN_CMD_ARG | .HIF_FN_CMD | .HIF_FN_CMD_STATUS | .BRG_FN_CFG | .BRG_FN_ERR | .WIN_FN =>
    (match req with | .fn f => f == i | _ => true)
  | .HIF_FN_GROUPS => req == .fn (hpOf i * 256)
  | .WIN_PF | .XLT_AST_BASE_LO | .XLT_AST_BASE_HI | .XLT_AST_CFG | .XLT_RANGE | .MCH_OVF | .RMA_KEYTAB => ofPort req i
  | .XLT_FN_S2 | .MCH_FN_QUOTA => ofPort req (hpOf i)
  | .RMA_FN_KEYS => req == .fn (hpOf i * 256)
  | .SCH_METER_MAP => ofPort req (hpOf (i / 4))
  | .LCK_CELL_CFG | .BST_CFG => req.mgmt
  | .MGT_HWIN => (match req with | .mc c => c == i || c == 0 | .monitor => true | _ => false)
  | .MGT_MG | .MGT_MG_DATA => boxOwner req i
  | .RBK_SEL | .RBK_TIME => bufferOf req == some i
  | _ => req.privileged

/-- R253: a register of a translation unit that is absent. -/
def State.absentUnit (s : State) (d : RegDef) (i : Nat) : Bool :=
  match d.id with
  | .XLT_AST_BASE_LO | .XLT_AST_BASE_HI | .XLT_AST_CFG | .XLT_RANGE => !s.hpPresent i
  | _ => false

/-! ### Registers with a behaviour of their own -/

/-- R39, R54: GLB_DEVICE_ID, as far as the lock lets it through; a root names itself. -/
def State.deviceIdWrite (s : State) (v : Nat) : State :=
  if ¬ s.rwlOpen then s
  else if bits v 18 2 ≠ 0 then s.badAccess
  else
    let t := s.put Reg.GLB_DEVICE_ID.device_id (bits v 0 20)
    if t.isRoot then { t with crs := { t.crs with rootValid := true, rootId := bits v 0 20 } } else t

/-- CRS_ALIGN_STATUS: W1C. -/
def State.alignStatusWrite (s : State) (v : Nat) : State :=
  { s with crs := { s.crs with multiRoot := s.crs.multiRoot && !bit v 31, lost := s.crs.lost && !bit v 30, stepped := s.crs.stepped && !bit v 29 } }

/-- R8, R9: the words of a register take a write by their access codes. -/
def State.plainWrite (s : State) (d : RegDef) (w off v : Nat) : State := s.setWord off (d.merge w (s.word off) v s.rwlOpen)

/-- R100, R109: LAN_LN_CTRL: restart, the enable bit, and the loopback of a lane in TEST. -/
def State.laneCtrlWrite (s : State) (d : RegDef) (n off v : Nat) : State :=
  let t := s.plainWrite d 0 off v
  let t1 := if bit v 31 then after t (execLaneRestart n t) else t
  if t1.loopback n ≠ s.loopback n then t1.testSignal n
  else if t1.g (Reg.LAN_LN_CTRL.enable n) = s.g (Reg.LAN_LN_CTRL.enable n) then t1
  else if t1.lanePermit n then t1.laneStart n
  else t1.laneOff n

/-- R107, R108: LAN_LN_PRBS_CTRL. -/
def State.prbsWrite (s : State) (d : RegDef) (n off v : Nat) : State :=
  let t := s.plainWrite d 0 off v
  let l := t.ln n
  let rate := t.g (Reg.LAN_LN_PRBS_CTRL.inject_rate n) != s.g (Reg.LAN_LN_PRBS_CTRL.inject_rate n)
  let gen := t.prbsOn n && !(s.prbsOn n && t.g (Reg.LAN_LN_PRBS_CTRL.gen_pattern n) == s.g (Reg.LAN_LN_PRBS_CTRL.gen_pattern n))
  let t0 := t.setLn n { l with chkLost := l.chkLost && !bit v 29, chkLock := l.chkLock && bit v 16,
                               injAt := if rate || gen then t.symbolTime else l.injAt }
  let t1 := if gen then t0.testSignal n else t0
  if bit v 31 then after t1 (execPrbsInjectOne n t1) else t1

/-- R137: LNK_CTRL: reinit, and the enable bit. -/
def State.linkCtrlWrite (s : State) (d : RegDef) (p off v : Nat) : State :=
  let t := s.plainWrite d 0 off v
  let t1 := if t.g (Reg.LNK_CTRL.enable p) = 0 then t.linkForbid p else t
  if bit v 1 then after t1 (execLinkReinit p t1) else t1

/-- R71, R152, R408, R409, R482: a shadow write of an SH word. -/
def State.shadowWrite (s : State) (d : RegDef) (i w off v : Nat) : State :=
  if s.shadowClosed then s.bump Ctr.CRS_SHADOW_REFUSED_COUNT
  else
    let set := s.shadow
    let before := if d.id = .RTE_PORT_ROLE then s.losers set else []
    let t := s.putSetW set off (d.merge w (s.setW set off) v true)
    let t1 := if d.id = .COL_TREE then s.treeWrite t i else t
    let t2 := if d.id = .RTE_PORT_ROLE then t1.roleCheck set before else t1
    t2.tableWrite (Sys2Proof.Machine.setKey set off) 1

/-- R221, R222: HIF_FN_CMD: the opcode starts a command. -/
def State.fnCmdWrite (s : State) (f v : Nat) : State :=
  after s (match bits v 0 8 with
    | 1 => execEpCreate f s
    | 2 => execEpDestroy f s
    | 3 => execSqCreate f s
    | 4 => execSqDestroy f s
    | 5 => execSqRestart f s
    | 6 => execCqCreate f s
    | 7 => execCqDestroy f s
    | 8 => execCqReset f s
    | 9 => execEqCreate f s
    | 10 => execEqDestroy f s
    | op => execFnCmdUndefined f op s)

/-- R403: LCK_FL_CMD: the opcode starts a fabric-lock operation. -/
def State.flCmdWrite (s : State) (req : Requester) (v : Nat) : State :=
  after s (match bits v 0 8 with
    | 0x29 => execFlAcquire (.cmd req) s
    | 0x2A => execFlRelease (.cmd req) s
    | 0x2B => execFlRenew (.cmd req) s
    | 0x2C => execFlBreak (.cmd req) s
    | op => .next (s.flCommand req op (fun t _ => t)))

/-- R442, R443, R448, R453: a word of a window entry; words 0 to 2 of an enabled window are closed, and word 3 ends its prefetches; it does
not clear err in a core cycle in which a failure has set it. -/
def State.windowWrite (s : State) (d : RegDef) (f j w v : Nat) : State :=
  let off := winOff f j + 4 * w
  if w < 3 ∧ (s.win f j).enable then s.badAccess
  else
    let kept : Bool := w = 3 && Tbl.find? s.brg.errAt (f * 64 + j) == some s.cycles
    let t := s.plainWrite d w off (if kept then setBits v 27 1 0 else v)
    if w = 3 then t.pfKill (fun e => e.fn == f && e.win == j) else t

/-- R361: RMA_FN_KEYS: a range may not pass the table, overlap another function's, or change while the function holds a key. -/
def State.fnKeysRefused (s : State) (f v : Nat) : Bool :=
  let b := bits v 0 16
  let n := bits v 16 16
  let h := hpOf f
  let passes := decide ((b + n) * 64 > s.keyTabSize h)
  let overlaps := (List.range 256).any (fun k =>
    let g := h * 256 + k
    let b' := s.g (Reg.RMA_FN_KEYS.base g)
    let n' := s.g (Reg.RMA_FN_KEYS.count g)
    g != f && decide (b < b' + n' ∧ b' < b + n))
  passes || overlaps || s.rma.keys.any (fun e => keyHp e.1 == h && s.ownsEntry f (keyEntry e.1))

/-- A write is discarded as a bad access in a condition that a chapter names, or takes effect by its access codes. -/
def State.writeUnless (s : State) (bad : Bool) (d : RegDef) (w off v : Nat) : State := if bad then s.badAccess else s.plainWrite d w off v

/-- R458: LTL_BUS_CFG: enabling a bus. -/
def State.busWrite (s : State) (d : RegDef) (b off v : Nat) : State :=
  let t := s.plainWrite d 0 off v
  if s.g (Reg.LTL_BUS_CFG.enable b) = 0 ∧ t.g (Reg.LTL_BUS_CFG.enable b) = 1 then t.busEnabled b else t

/-- R462, R482: LTL_ROUTE: a rewritten entry is good again. -/
def State.routeWrite (s : State) (d : RegDef) (eid w off v : Nat) : State :=
  let t := s.plainWrite d w off v
  ({ t with ltl := { t.ltl with bad := setDel t.ltl.bad eid } }).tableWrite off 1

/-- R505: a word of a mailbox; word 4 starts a request. -/
def State.boxWrite (s : State) (d : RegDef) (m w off v : Nat) : State :=
  let t := s.plainWrite d w off v
  if w = 4 ∧ bits v 0 2 ≠ 0 then t.boxStart m (bits v 0 2) else t

/-- The write of a register that its access rules have let through: word `w` of `d` with indices `i`, `j`. -/
def State.regWrite (s : State) (req : Requester) (d : RegDef) (i j w off v : Nat) : State :=
  match d.id with
  | .GLB_MODE => { s with glb := { s.glb with reqErr := s.glb.reqErr && !bit v 31 } }
  | .GLB_MODE_REQ => s.modeReq req.identity v
  | .GLB_RESET_CTRL => s.resetCtrl v
  | .GLB_SETUP_LOCK => { s with glb := { s.glb with lock := s.glb.lock || bit v 0 } }
  | .GLB_DEVICE_ID => s.deviceIdWrite v
  | .CRS_ALIGN_CTRL => s.alignCtrlWrite v s.rwlOpen
  | .CRS_ALIGN_STATUS => s.alignStatusWrite v
  | .CRS_SWAP_AT_LO => if s.crs.armed then s else s.plainWrite d w off v
  | .CRS_SWAP_AT_HI => if s.crs.armed then s else s.plainWrite d w off v
  | .CRS_SWAP_CTRL => s.swapCtrl v
  | .LAN_PT_CTRL => s.ptCtrlWrite i v
  | .LAN_PT_STATUS => s.setPp i { s.pp i with testRefused := (s.pp i).testRefused && !bit v 31, skewErr := (s.pp i).skewErr && !bit v 30 }
  | .LAN_LN_CTRL => s.laneCtrlWrite d i off v
  | .LAN_LN_PRBS_CTRL => s.prbsWrite d i off v
  | .LNK_CTRL => s.linkCtrlWrite d i off v
  | .LNK_STATUS => s.onLk i (fun l => { l with reach := l.reach && !bit v 31, farChanged := l.farChanged && !bit v 30 })
  | .LNK_POOL_CFG => (s.plainWrite d w off v).poolOff i
  | .RTE_LIFE => if s.rwlOpen then s.lifeWrite v else s
  | .HIF_FN_STATUS => s.setFn i { s.fn i with cfgRefused := (s.fn i).cfgRefused && !bit v 29, cmdOverrun := (s.fn i).cmdOverrun && !bit v 28 }
  | .HIF_FN_GROUPS => s.fnGroups req i v
  | .HIF_FN_CMD => s.fnCmdWrite i v
  | .WIN_FN => s.windowWrite d i j w v
  | .WIN_PF => s.windowWrite d (i * 256) j w v
  | .TRN_CMD => s.trnCmd req v
  | .TRN_KEY => s.setWord off v
  | .MCH_OVF => s.writeUnless (!(s.poolUsed i).isEmpty) d w off v
  | .RMA_KEYTAB => s.writeUnless (s.keysHeld i != 0) d w off v
  | .RMA_FN_KEYS => s.writeUnless (s.fnKeysRefused i v) d w off v
  | .LCK_FL_CMD => s.flCmdWrite req v
  | .LCK_CELL => s.cellReg req i (bits v 30 2) (bits v 12 7) (bits v 0 12)
  | .LCK_CELL_CFG => s.writeUnless (!(s.cell i).isFree || !(s.cell i).waiters.isEmpty) d w off v
  | .COL_CMD => s.colCmd req v
  | .COL_KEY => s.setWord off v
  | .LTL_BUS_CFG => s.busWrite d i off v
  | .LTL_ROUTE => s.routeWrite d i w off v
  | .BST_CFG =>
    let t := s.plainWrite d w off v
    { t with bst := { t.bst with enabled := t.bst.enabled || t.g Reg.BST_CFG.enable == 1 } }
  | .BST_CMD => s.draw.2.bstCmd req v (s.draw.1 % 2 == 1)
  | .MGT_MC_CTRL => s.mcCtrlWrite req (bits v 1 3)
  | .MGT_BOOT_MBOX => if w = 3 then (if bit v 31 then s.bootGo req else s) else s.plainWrite d w off v
  | .MGT_MG => s.boxWrite d i w off v
  | .RBK_SEL => if w = 1 then s.capture i v else s.plainWrite d w off v
  | _ => if d.shadowed then s.shadowWrite d i w off v else s.plainWrite d w off v

/-- R247, R248: a word of an MSI-X table: address bits [1:0] and the reserved bits of vector control hold zero; a vector unmasked
while it is pending is sent. -/
def State.msixWrite (s : State) (f k v : Nat) : State :=
  let key := vecKey f (k / 4)
  let v1 := if k % 4 = 3 then v % 2 else if k % 4 = 0 then v / 4 * 4 else v
  let t := { s with hif := { s.hif with msix := Tbl.put msixReset s.hif.msix (key * 4 + k % 4) v1 } }
  if k % 4 = 3 ∧ v % 2 = 0 ∧ t.hif.pba.contains key then
    ({ t with hif := { t.hif with pba := setDel t.hif.pba key } }).msixSend f (k / 4)
  else t

/-- The write of a location by a requester that may reach it (R10, R463, R523). -/
def State.locWrite (s : State) (req : Requester) (l : Loc) (off v : Nat) : State :=
  match l with
  | .reg d i j w =>
    if State.mayWrite req d i && !s.absentUnit d i then (s.lockCheck d w (s.word off) v).regWrite req d i j w off v else s
  | .bank code o =>
    if ¬ req.privileged then s
    else if bankLocked o ∧ ¬ s.rwlOpen then
      let keep := s.bankRead code o
      let held := (List.range 8).any (fun n => decide (8 * ((o - 0x400) / 4) + n < bankSize code) && bits v (4 * n + 2) 2 != bits keep (4 * n + 2) 2)
      let changes := if 0x400 ≤ o then held else v != keep
      if changes then (s.bump Ctr.GLB_LOCKED_WRITE_COUNT).raise 5 0 0 else s
    else s.bankWrite code o v
  | .msix f k => if (match req with | .fn g => g == f | _ => true) then s.msixWrite f k v else s
  | _ => s

/-- R8, R36, R521, R550: a BAR0 write of `size` bytes. -/
def State.barWrite (s : State) (req : Requester) (off size v : Nat) : State :=
  let o := bar0Off req off
  if ¬ s.accessOk req off size then s.badAccess
  else if s.mode = .fenced ∧ (o ≠ Reg.GLB_RESET_CTRL.off ∨ (vfOf req).isSome) then s
  else if size = 8 then
    let t := s.locWrite req (s.loc req off) o (bits v 0 32)
    t.locWrite req (t.loc req (off + 4)) (o + 4) (bits v 32 32)
  else s.locWrite req (s.loc req off) o (bits v 0 32)

/-- R9: REGISTER_WRITE. A management core's write at a core address of its host windows is a store (R508). -/
def execRegisterWrite (req : Requester) (off size v : Nat) (s : State) : Host.Outcome State Fault Refusal :=
  if ¬ s.canAccess req then .next s
  else
    match hostCore req off with
    | some c => .next (s.coreAccess c off 1 size (fun t u l => t.writePieces u (u * 256) l (Data.ofNat size v)))
    | none => .next (s.barWrite req off size v).settle

end Sys2Proof.Machine
end

