-- ==== Sys2Proof/Machine/RegCmd.lean ====
section
/-! DEFINITION. The meanings of the rows that are one register write each. Every one goes through the BAR0 write of
Machine/RegWrite.lean, so that access size, mode, lock and permission act as for any write. -/
namespace Sys2Proof.Machine

/-- A 32-bit write at a BAR0 offset by a requester that reaches the device; what can proceed of itself then does. -/
def State.access (s : State) (req : Requester) (off v : Nat) : State :=
  if s.canAccess req then (s.barWrite req off 4 v).settle else s

/-- R524: FULL_RESET: a write of `v` to GLB_RESET_CTRL. -/
def execFullReset (req : Requester) (v : Nat) (s : State) : Host.Outcome State Fault Refusal :=
  .next (s.access req Reg.GLB_RESET_CTRL.off v)
/-- R525: SETUP_LOCK_SET. -/
def execSetupLockSet (req : Requester) (s : State) : Host.Outcome State Fault Refusal :=
  .next (s.access req Reg.GLB_SETUP_LOCK.off 1)
/-- R39: DEVICE_ID_WRITE. -/
def execDeviceIdWrite (req : Requester) (v : Nat) (s : State) : Host.Outcome State Fault Refusal :=
  .next (s.access req Reg.GLB_DEVICE_ID.off v)
/-- R28: MODE_REQ_WRITE. -/
def execModeReqWrite (req : Requester) (v : Nat) (s : State) : Host.Outcome State Fault Refusal :=
  .next (s.access req Reg.GLB_MODE_REQ.off v)
/-- R67: ALIGN_CTRL_WRITE. -/
def execAlignCtrlWrite (req : Requester) (v : Nat) (s : State) : Host.Outcome State Fault Refusal :=
  .next (s.access req Reg.CRS_ALIGN_CTRL.off v)
/-- R73: SWAP_ARM: the arm bit of CRS_SWAP_CTRL. -/
def execSwapArm (req : Requester) (s : State) : Host.Outcome State Fault Refusal := .next (s.access req Reg.CRS_SWAP_CTRL.off 1)
/-- R75: SWAP_DISARM: the disarm bit. -/
def execSwapDisarm (req : Requester) (s : State) : Host.Outcome State Fault Refusal := .next (s.access req Reg.CRS_SWAP_CTRL.off 2)
/-- R72: SHADOW_COPY: the copy bit. -/
def execShadowCopy (req : Requester) (s : State) : Host.Outcome State Fault Refusal := .next (s.access req Reg.CRS_SWAP_CTRL.off 4)
/-- R71: SHADOW_WRITE: a write at an offset that holds an SH register; another offset is not this command's. -/
def execShadowWrite (req : Requester) (off v : Nat) (s : State) : Host.Outcome State Fault Refusal :=
  match locate off with
  | some (d, _, _, _) => if d.shadowed then .next (s.access req off v) else .next s
  | none => .next s
/-- R152: PORT_ROLE_WRITE. -/
def execPortRoleWrite (req : Requester) (p v : Nat) (s : State) : Host.Outcome State Fault Refusal :=
  if p < 64 then .next (s.access req (Reg.RTE_PORT_ROLE.off p) v) else .next s
/-- R162: LIFE_WRITE. -/
def execLifeWrite (req : Requester) (v : Nat) (s : State) : Host.Outcome State Fault Refusal := .next (s.access req Reg.RTE_LIFE.off v)

/-- R325: KEY_SET: TRN_CMD opcode 1 with the arguments and key words as they stand. -/
def execKeySet (req : Requester) (s : State) : Host.Outcome State Fault Refusal := .next (s.access req Reg.TRN_CMD.off 1)
/-- R325: KEY_CLEAR. -/
def execKeyClear (req : Requester) (s : State) : Host.Outcome State Fault Refusal := .next (s.access req Reg.TRN_CMD.off 2)
/-- R325: REGION_SET. -/
def execRegionSet (req : Requester) (s : State) : Host.Outcome State Fault Refusal := .next (s.access req Reg.TRN_CMD.off 3)
/-- R325: REGION_CLEAR. -/
def execRegionClear (req : Requester) (s : State) : Host.Outcome State Fault Refusal := .next (s.access req Reg.TRN_CMD.off 4)
/-- R325: CTX_RESET. -/
def execCtxReset (req : Requester) (s : State) : Host.Outcome State Fault Refusal := .next (s.access req Reg.TRN_CMD.off 5)
/-- R325: CTX_FLUSH. -/
def execCtxFlush (req : Requester) (s : State) : Host.Outcome State Fault Refusal := .next (s.access req Reg.TRN_CMD.off 6)

/-- R408: COL_TREE_WRITE: word `w` of tree `t`. -/
def execColTreeWrite (req : Requester) (t w v : Nat) (s : State) : Host.Outcome State Fault Refusal :=
  if t < 4096 ∧ w < 8 then .next (s.access req (Reg.COL_TREE.off t + 4 * w) v) else .next s
/-- R433: TREE_KEY_SET: COL_CMD opcode 1. -/
def execTreeKeySet (req : Requester) (s : State) : Host.Outcome State Fault Refusal := .next (s.access req Reg.COL_CMD.off 1)
/-- R437: RESUME: COL_CMD opcode 2. -/
def execResume (req : Requester) (s : State) : Host.Outcome State Fault Refusal := .next (s.access req Reg.COL_CMD.off 2)

/-- The offset at which a requester reaches a function's window word: a VF through its own page (R209), others in BAR0. -/
def winReach (req : Requester) (fn j w : Nat) : Nat :=
  match vfOf req with
  | some _ => winOff fn j + 4 * w - Reg.HIF_FN_STATUS.off fn
  | none => winOff fn j + 4 * w
/-- R443: WINDOW_ENTRY_WRITE: word `w` of window `j` of function `fn`. -/
def execWindowEntryWrite (req : Requester) (fn j w v : Nat) (s : State) : Host.Outcome State Fault Refusal :=
  if fn < 1024 ∧ w < 4 ∧ (j < 8 ∨ (isPf fn ∧ j < 64)) ∧ (vfOf req = none ∨ vfOf req = some fn) then
    .next (s.access req (winReach req fn j w) v)
  else .next s

/-- The BAR0 offset of a register of a block's fault bank (R463). -/
def bankOff (code o : Nat) : Nat :=
  match blocks.find? (fun b => b.code == code) with
  | some b => b.base + 0x7000 + o
  | none => 0x900000
/-- R469: FAULT_FORCE: word `k` of FLT_FORCE of the block with code `code`. -/
def execFaultForce (req : Requester) (code k v : Nat) (s : State) : Host.Outcome State Fault Refusal :=
  if k < 32 then .next (s.access req (bankOff code (0x200 + 4 * k)) v) else .next s
/-- R466: FAULT_STATUS_CLEAR: ones written to word `k` of FLT_STATUS. -/
def execFaultStatusClear (req : Requester) (code k v : Nat) (s : State) : Host.Outcome State Fault Refusal :=
  if k < 32 then .next (s.access req (bankOff code (0x100 + 4 * k)) v) else .next s

/-- R510: READBACK_CAPTURE: RBK_SEL word 1 of the requester's own buffer. -/
def execReadbackCapture (req : Requester) (v : Nat) (s : State) : Host.Outcome State Fault Refusal :=
  match bufferOf req with
  | some b => .next (s.access req (Reg.RBK_SEL.off b + 4) v)
  | none => .next s

end Sys2Proof.Machine
end

