-- ==== Sys2Proof/Machine/Agent.lean ====
section
/-! DEFINITION. The register agent of the management plane (R502-R504). -/
namespace Sys2Proof.Machine

/-- R503: the key of a request. -/
def MgH.key (m : MgH) : Nat := m.origin * 2 ^ 24 + m.srcEp * 2 ^ 16 + m.tag
/-- R504: the origins that MGT_FM_ORIGIN permits; none listed permits all. -/
def State.originOk (s : State) (origin : Nat) : Bool :=
  let on := (List.range 4).filter (fun k => s.g (Reg.MGT_FM_ORIGIN.valid k) == 1)
  on.isEmpty || on.any (fun k => s.g (Reg.MGT_FM_ORIGIN.device k) == origin)
/-- R502: the range of a request is not permitted. -/
def MgH.badRange (m : MgH) : Bool := m.addr % 4 != 0 || m.count == 0 || decide (m.count > 64) || decide (m.addr + 4 * m.count > 2 ^ 26)
/-- R504: a request reaches the readback window. -/
def MgH.inRbk (m : MgH) : Bool := decide (m.addr + 4 * m.count > 0x1000000) && decide (m.addr < 0x2000000)

/-- R502: `n` reads in ascending order: the state after them and the words. -/
def State.agentRead (s : State) (addr : Nat) : Nat → State × List Nat
  | 0 => (s, [])
  | n + 1 =>
    let r := s.agentRead addr n
    let x := r.1.barRead .fm (addr + 4 * n) 4
    (x.1, r.2 ++ [x.2])
/-- R502: `n` writes in ascending order. -/
def State.agentWrite (s : State) (addr : Nat) (d : Data) (n : Nat) : State :=
  (List.range n).foldl (fun t i => t.barWrite .fm (addr + 4 * i) 4 (d.field (4 * i) 0 32)) s

/-- An MG_RESP with a status and words. -/
def State.mgReply (s : State) (m : MgH) (status : Nat) (words : List Nat) : State :=
  s.mgSend 0x32 (m.answer s.mgMe status words.length) (Data.join (words.map (fun w => Data.ofNat 4 w)))
/-- R503: an answered request is kept with its response: status, number of words, words. -/
def State.keepAnswer (s : State) (m : MgH) (status : Nat) (words : List Nat) : State :=
  let d := Data.join ((status :: words).map (fun w => Data.ofNat 4 w))
  { s with mgt := { s.mgt with answered := (s.mgt.answered ++ [(m.key, d)]).drop (s.mgt.answered.length + 1 - 256) } }
/-- Answer and keep; a device that the request has reset answers nothing. -/
def State.agentAnswer (s : State) (m : MgH) (status : Nat) (words : List Nat) : State :=
  if s.mgRuns then (s.keepAnswer m status words).mgReply m status words else s

/-- R502-R504: one request at the register agent. -/
def State.agent (s : State) (m : MgH) (write : Bool) (d : Data) : State :=
  if m.dstEp ≠ 0x02 then s.mgReply m 0x04 []
  else
    match s.mgt.answered.find? (fun e => e.1 == m.key) with
    | some (_, a) =>
      (s.bump Ctr.MGT_DUP_COUNT).mgReply m (a.field 0 0 32) ((List.range (a.len / 4 - 1)).map (fun i => a.field (4 + 4 * i) 0 32))
    | none =>
      if (write ∨ m.inRbk) ∧ ¬ s.originOk m.origin then
        (((s.bump Ctr.MGT_REFUSE_COUNT).raise (srcMgt 1) 0 m.origin)).agentAnswer m 0x01 []
      else if m.badRange then s.agentAnswer m 0x02 []
      else
        let s1 := s.bump Ctr.MGT_AGENT_REQ_COUNT
        if write then ((s1.agentWrite m.addr d m.count).settle).agentAnswer m 0x00 []
        else
          let r := s1.agentRead m.addr m.count
          r.1.agentAnswer m 0x00 r.2

/-- The agent serves requests in the forwarder's modes, while MC1, which serves the management plane (R18), runs. -/
def State.agentRuns (s : State) : Bool := s.mgRuns && s.coreRuns 1

/-- R502: MG_READ_RX: the oldest MG_READ delivered here. -/
def execMgReadRx (s : State) : Host.Outcome State Fault Refusal :=
  match s.mgTake [0x30] with
  | some (x, s1) => if s.agentRuns then .next (s1.agent (MgH.of x.d) false Data.empty) else .next s
  | none => .next s

/-- R502: MG_WRITE_RX: the oldest MG_WRITE delivered here. -/
def execMgWriteRx (s : State) : Host.Outcome State Fault Refusal :=
  match s.mgTake [0x31] with
  | some (x, s1) => if s.agentRuns then .next (s1.agent (MgH.of x.d) true (x.d.slice 48 256)) else .next s
  | none => .next s

end Sys2Proof.Machine
end

