-- ==== Sys2Proof/Machine/Monitor.lean ====
section
/-! DEFINITION. The Imauno monitor (R514-R518): its lines, its lock, and the meanings of its commands. The text in which
values are printed after "ok" is the model's (notes/assumptions). -/
namespace Sys2Proof.Machine

/-! ### Lines (R515) -/

/-- The character codes of a text. -/
def ascii (t : String) : List Nat := t.toList.map Char.toNat
/-- The text of character codes. -/
def textOf (l : List Nat) : String := String.ofList (l.map Char.ofNat)
/-- The words of a line, separated by spaces. -/
def words : List Nat → List Nat → List (List Nat)
  | [], cur => if cur.isEmpty then [] else [cur]
  | c :: t, cur => if c = 32 then (if cur.isEmpty then words t [] else cur :: words t []) else words t (cur ++ [c])
/-- A digit's value. -/
def digit (c : Nat) : Option Nat :=
  if 48 ≤ c ∧ c ≤ 57 then some (c - 48)
  else if 97 ≤ c ∧ c ≤ 102 then some (c - 87)
  else if 65 ≤ c ∧ c ≤ 70 then some (c - 55)
  else none
/-- A number in a base. -/
def number (base : Nat) : List Nat → Nat → Option Nat
  | [], acc => some acc
  | c :: t, acc =>
    match digit c with
    | some d => if d < base then number base t (acc * base + d) else none
    | none => none
/-- R515: hexadecimal with 0x, or decimal. -/
def parseNum : List Nat → Option Nat
  | 48 :: 120 :: c :: t => number 16 (c :: t) 0
  | c :: t => number 10 (c :: t) 0
  | [] => none
/-- R517: four groups of eight hexadecimal digits joined by "-". -/
def parseGroups (l : List Nat) : Option Nat :=
  if l.length = 35 ∧ l.getD 8 0 = 45 ∧ l.getD 17 0 = 45 ∧ l.getD 26 0 = 45 then
    number 16 (l.take 8 ++ (l.drop 9).take 8 ++ (l.drop 18).take 8 ++ l.drop 27) 0
  else none

/-- The commands of R516. -/
inductive MonCmd where
  | help | id | rd (off n : Nat) | rbk (table index n : Nat) | flt (block : Nat) | time | boot | unlock | resp (r : Nat) | lock
  | wr (off v : Nat) | mode (m : Nat) | baud (b : Nat) | mcrun (c v : Nat) | fuse (rec : Nat) | reset
deriving DecidableEq, Repr

/-- R515, R516: the command a line spells. -/
def parseLine (line : List Nat) : Option MonCmd :=
  if line.length > 127 then none
  else
    match words line [] with
    | [] => none
    | w :: args =>
      let n (i : Nat) : Option Nat := (args[i]?).bind parseNum
      match args.length with
      | 0 =>
        if w = ascii "help" then some .help
        else if w = ascii "id" then some .id
        else if w = ascii "time" then some .time
        else if w = ascii "boot" then some .boot
        else if w = ascii "unlock" then some .unlock
        else if w = ascii "lock" then some .lock
        else if w = ascii "reset" then some .reset
        else none
      | 1 =>
        if w = ascii "rd" then (n 0).map (fun a => .rd a 1)
        else if w = ascii "flt" then (n 0).map .flt
        else if w = ascii "resp" then ((args[0]?).bind parseGroups).map .resp
        else if w = ascii "mode" then (n 0).map .mode
        else if w = ascii "baud" then (n 0).map .baud
        else if w = ascii "fuse" then (n 0).map .fuse
        else none
      | 2 =>
        if w = ascii "rd" then (n 0).bind (fun a => (n 1).map (fun b => .rd a b))
        else if w = ascii "rbk" then (n 0).bind (fun a => (n 1).map (fun b => .rbk a b 1))
        else if w = ascii "wr" then (n 0).bind (fun a => (n 1).map (fun b => .wr a b))
        else if w = ascii "mcrun" then (n 0).bind (fun a => (n 1).map (fun b => .mcrun a b))
        else none
      | 3 =>
        if w = ascii "rbk" then (n 0).bind (fun a => (n 1).bind (fun b => (n 2).map (fun c => .rbk a b c)))
        else none
      | _ => none

/-- `k` hexadecimal digits of a number. -/
def hexDigits (x : Nat) : Nat → List Char
  | 0 => []
  | k + 1 => hexDigits (x / 16) k ++ [(ascii "0123456789abcdef").map Char.ofNat |>.getD (x % 16) '0']
/-- A word as text. -/
def hexWord (x : Nat) : String := "0x" ++ String.ofList (hexDigits x 8)
/-- Words as text. -/
def hexWords (l : List Nat) : String := " ".intercalate (l.map hexWord)
/-- R517: a 128-bit value in four groups. -/
def groups (x : Nat) : String :=
  "-".intercalate ([3, 2, 1, 0].map (fun i => String.ofList (hexDigits (bits x (32 * i) 32) 8)))

/-! ### Replies -/

/-- What a command answers: values, or an error code of R515. -/
inductive Reply where
  | ok (values : String)
  | err (n : Nat)
deriving DecidableEq, Repr
/-- The final line. -/
def Reply.line : Reply → String
  | .ok v => if v.isEmpty then "ok" else "ok " ++ v
  | .err n => "err " ++ toString n
/-- The prompt. -/
def prompt : String := "imauno> "
/-- Set the monitor. -/
def State.onMon (s : State) (f : Mon → Mon) : State := { s with mgt := { s.mgt with mon := f s.mgt.mon } }
/-- R37, R514: the modes in which the monitor takes input. -/
def State.monOn (s : State) : Bool := s.mode != .off && s.mode != .strap
/-- R515, R518: a line has come in: it is echoed, and it renews the timer. -/
def State.monHear (s : State) (line : List Nat) : State :=
  (s.onMon (fun m => { m with lastLine := s.nowAt })).emit (.uart (textOf line))
/-- The final line and the prompt. -/
def State.monSay (s : State) (r : Reply) : State := (s.emit (.uart r.line)).emit (.uart prompt)
/-- R516: a command of a received line: locked commands give err 4 in FENCED and err 2 until unlocked. -/
def State.monitor (s : State) (line : List Nat) (locked : Bool) (act : State → State × Reply) : State :=
  if ¬ s.monOn then s
  else
    let t := s.monHear line
    if locked ∧ s.mode = .fenced then t.monSay (.err 4)
    else if locked ∧ ¬ s.mgt.mon.unlocked then t.monSay (.err 2)
    else let r := act t; r.1.monSay r.2

/-! ### Commands (R516) -/

/-- MON_HELP. -/
def execMonHelp (line : List Nat) (s : State) : Host.Outcome State Fault Refusal :=
  match parseLine line with
  | some .help => .next (s.monitor line false (fun t =>
      (t, .ok "help id rd rbk flt time boot unlock resp lock wr mode baud mcrun fuse reset")))
  | _ => .next s

/-- MON_ID: part, revision, serial, identifier and mode. -/
def execMonId (line : List Nat) (s : State) : Host.Outcome State Fault Refusal :=
  match parseLine line with
  | some .id => .next (s.monitor line false (fun t =>
      (t, .ok (hexWords [t.word Reg.GLB_PART.off, bits Config.serial 32 32, bits Config.serial 0 32, t.me, t.mode.code]))))
  | _ => .next s

/-- The words from an offset on, read by the monitor. -/
def State.monRead (s : State) (off : Nat) : Nat → State × List Nat
  | 0 => (s, [])
  | n + 1 =>
    let r := s.monRead off n
    let x := r.1.barRead .monitor (off + 4 * n) 4
    (x.1, r.2 ++ [x.2])
/-- MON_RD: 1 to 64 words. -/
def execMonRd (line : List Nat) (s : State) : Host.Outcome State Fault Refusal :=
  match parseLine line with
  | some (.rd off n) => .next (s.monitor line false (fun t =>
      if off % 4 ≠ 0 ∨ n = 0 ∨ 64 < n ∨ off + 4 * n > 2 ^ 26 then (t, .err 3)
      else let r := t.monRead off n; (r.1, .ok (hexWords r.2))))
  | _ => .next s

/-- MON_RBK: a capture of 1 to 16 rows into buffer 4. -/
def execMonRbk (line : List Nat) (s : State) : Host.Outcome State Fault Refusal :=
  match parseLine line with
  | some (.rbk table index n) => .next (s.monitor line false (fun t =>
      if table > 255 ∨ index ≥ 2 ^ 24 ∨ n = 0 ∨ 16 < n then (t, .err 3)
      else (((t.put (Reg.RBK_SEL.table 4) table).put (Reg.RBK_SEL.index 4) index).capture 4 (n - 1), .ok "")))
  | _ => .next s

/-- MON_FLT: FLT_SUMMARY, FLT_CAUSE and FLT_COUNT of a block, named by its code. -/
def execMonFlt (line : List Nat) (s : State) : Host.Outcome State Fault Refusal :=
  match parseLine line with
  | some (.flt b) => .next (s.monitor line false (fun t =>
      if b = 0 ∨ 17 < b then (t, .err 3)
      else (t, .ok (hexWords ([0x04, 0x10, 0x14, 0x18, 0x1C, 0x20, 0x24].map (fun o => t.bankRead b o))))))
  | _ => .next s

/-- MON_TIME: the global time and CRS_ALIGN_STATUS. -/
def execMonTime (line : List Nat) (s : State) : Host.Outcome State Fault Refusal :=
  match parseLine line with
  | some .time => .next (s.monitor line false (fun t => (t, .ok (hexWords [t.now / 2 ^ 32, t.now % 2 ^ 32, t.alignStatus]))))
  | _ => .next s

/-- MON_BOOT: GLB_BOOT_STATUS and the svn of the image. -/
def execMonBoot (line : List Nat) (s : State) : Host.Outcome State Fault Refusal :=
  match parseLine line with
  | some .boot => .next (s.monitor line false (fun t => (t, .ok (hexWords [t.word Reg.GLB_BOOT_STATUS.off, t.mgt.image.field 12 0 32]))))
  | _ => .next s

/-- R517: MON_UNLOCK: a fresh challenge, unless unlock is refused after eight failures. -/
def execMonUnlock (line : List Nat) (s : State) : Host.Outcome State Fault Refusal :=
  match parseLine line with
  | some .unlock => .next (s.monitor line false (fun t =>
      if t.mgt.mon.lockout.isSome then (t, .err 5)
      else
        let d := t.draw
        let n := d.1 % 2 ^ 128
        (d.2.onMon (fun m => { m with challenge := some (n, t.nowAt) }), .ok (groups n))))
  | _ => .next s

/-- R517: the response expected to a challenge. -/
def State.monExpect (s : State) (n : Nat) : Nat :=
  beNum (cmac (leBytes 32 Config.monitorKey)
    (beBytes 16 n ++ leBytes 8 Config.serial ++ leBytes 4 s.me ++ leBytes 4 ((s.ctr Ctr.MGT_MON_UNLOCK_COUNT).toNat % 2 ^ 32)))
/-- R517: a failed response: eight in a row refuse unlock for a time. -/
def State.monFail (s : State) : State :=
  let m := s.mgt.mon
  let f := m.fails + 1
  ((s.onMon (fun k => { k with challenge := none, fails := f, lockout := if f ≥ 8 ∧ k.lockout.isNone then some s.nowAt else k.lockout })).bump
    Ctr.MGT_MON_FAIL_COUNT).raise (srcMgt 2) 0 0
/-- R517: the answer to an open challenge, which serves once. -/
def State.monResp (s : State) (r : Nat) : State × Reply :=
  match s.mgt.mon.challenge with
  | some (n, c) =>
    if s.over c < 256 ∧ r = s.monExpect n then
      ((s.onMon (fun m => { m with challenge := none, fails := 0, unlocked := true })).bump Ctr.MGT_MON_UNLOCK_COUNT, .ok "")
    else (s.monFail, .err 6)
  | none => (s.monFail, .err 6)
/-- MON_RESP. -/
def execMonResp (line : List Nat) (s : State) : Host.Outcome State Fault Refusal :=
  match parseLine line with
  | some (.resp r) => .next (s.monitor line false (fun t => t.monResp r))
  | _ => .next s

/-- R518: MON_LOCK. -/
def execMonLock (line : List Nat) (s : State) : Host.Outcome State Fault Refusal :=
  match parseLine line with
  | some .lock => .next (s.monitor line false (fun t => (t.onMon (fun m => { m with unlocked := false }), .ok "")))
  | _ => .next s

/-- MON_WR: one BAR0 write. -/
def execMonWr (line : List Nat) (s : State) : Host.Outcome State Fault Refusal :=
  match parseLine line with
  | some (.wr off v) => .next (s.monitor line true (fun t =>
      if off % 4 ≠ 0 ∨ off ≥ 2 ^ 26 ∨ v ≥ 2 ^ 32 then (t, .err 3)
      else (t.access .monitor off v, .ok "")))
  | _ => .next s

/-- MON_MODE: writes GLB_MODE_REQ. -/
def execMonMode (line : List Nat) (s : State) : Host.Outcome State Fault Refusal :=
  match parseLine line with
  | some (.mode m) => .next (s.monitor line true (fun t =>
      if m > 7 then (t, .err 3) else (t.access .monitor Reg.GLB_MODE_REQ.off m, .ok "")))
  | _ => .next s

/-- R514: MON_BAUD. -/
def execMonBaud (line : List Nat) (s : State) : Host.Outcome State Fault Refusal :=
  match parseLine line with
  | some (.baud b) => .next (s.monitor line true (fun t =>
      if [115200, 230400, 460800, 921600, 1500000, 3000000].contains b then (t.onMon (fun m => { m with baud := b }), .ok "") else (t, .err 3)))
  | _ => .next s

/-- MON_MCRUN: the run bit of MC1 to MC3. -/
def execMonMcrun (line : List Nat) (s : State) : Host.Outcome State Fault Refusal :=
  match parseLine line with
  | some (.mcrun c v) => .next (s.monitor line true (fun t =>
      if c = 0 ∨ 3 < c ∨ 1 < v then (t, .err 3)
      else (t.mcCtrlWrite .monitor (setBits (t.g Reg.MGT_MC_CTRL.run) (c - 1) 1 v), .ok "")))
  | _ => .next s

/-- MON_FUSE: BST_CMD FUSE; `ok` says whether the programming succeeded. -/
def execMonFuse (line : List Nat) (ok : Bool) (s : State) : Host.Outcome State Fault Refusal :=
  match parseLine line with
  | some (.fuse rec) => .next (s.monitor line true (fun t =>
      if rec > 511 then (t, .err 3)
      else
        let u := t.bstCmd .monitor (2 + rec * 2 ^ 16) ok
        (u, if t.g Reg.BST_CMD_STATUS.busy = 1 ∨ u.g Reg.BST_CMD_STATUS.result ≠ 0 then .err 5 else .ok "")))
  | _ => .next s

/-- MON_RESET: GLB_RESET_CTRL.full_reset, after the final line; refused while a trip is in force (R524). -/
def execMonReset (line : List Nat) (s : State) : Host.Outcome State Fault Refusal :=
  match parseLine line with
  | some .reset =>
    let t := s.monitor line true (fun t => if t.liveBit 3 then (t.resetCtrl 0xD1E50001, .err 5) else (t, .ok ""))
    let go : Bool := s.monOn && s.mode != .fenced && s.mgt.mon.unlocked && !s.liveBit 3
    .next (if go then t.resetCtrl 0xD1E50001 else t)
  | _ => .next s

/-- R515: MON_LINE_INVALID: a line that is too long or spells no command gives err 1. -/
def execMonLineInvalid (line : List Nat) (s : State) : Host.Outcome State Fault Refusal :=
  match parseLine line with
  | some _ => .next s
  | none => if s.monOn then .next ((s.monHear line).monSay (.err 1)) else .next s

/-- R518: MONITOR_IDLE_TIMEOUT. -/
def execMonitorIdleTimeout (s : State) : Host.Outcome State Fault Refusal :=
  if s.mgt.mon.unlocked ∧ s.over s.mgt.mon.lastLine ≥ 65536 then .next (s.onMon (fun m => { m with unlocked := false })) else .next s

/-- R517: UNLOCK_LOCKOUT_END. -/
def execUnlockLockoutEnd (s : State) : Host.Outcome State Fault Refusal :=
  match s.mgt.mon.lockout with
  | some c => if s.over c ≥ 2 ^ 24 then .next (s.onMon (fun m => { m with lockout := none, fails := 0 })) else .next s
  | none => .next s

end Sys2Proof.Machine
end

