-- ==== Sys2Proof/Machine/SysCmd.lean ====
section
/-! DEFINITION. The meanings of the events of the whole device: power and reset, the course boundary, mode changes, the
fence, the swap, the reference and the sensors (spec/01, spec/02, spec/16, spec/18). -/
namespace Sys2Proof.Machine

/-! ### Power and reset (R526, R529, R535, R538, R539) -/

/-- R538, R526: RESET_DEASSERT, with the levels at the strap balls: RESET_N is high, and with every rail good the device enters
STRAP and samples the straps. -/
def execResetDeassert (boot : Nat) (hpmode timeroot : Bool) (s : State) : Host.Outcome State Fault Refusal :=
  let t := { s with glb := { s.glb with resetN := true, ballBoot := boot % 4, ballHpmode := hpmode, ballTimeroot := timeroot } }
  .next (if s.mode = .off ∧ t.railsGood then t.enterStrap else t)

/-- R487, R490: the fused repair records, those the fuses held and those FUSE has added, enter the repair registers. -/
def State.fusedRepairs (s : State) : State :=
  (List.range 512).foldl (fun t r =>
    let x := match Tbl.find? s.bst.fuses r with | some w => w | none => Config.fusedRepair r
    if bit x 31 then
      (((t.setWord (Reg.BST_REPAIR.off r) (bits x 0 32)).setWord (Reg.BST_REPAIR.off r + 4) (bits x 32 32)).put (Reg.BST_REPAIR.fused r) 1)
    else t) s

/-- R484, R485, R487: one unit that fails in STRAP: spare rows and columns, then a spare unit; where none can repair it, the
device is to be fenced. -/
def State.romFail (s : State) (cls unit : Nat) (fails : List (Nat × Nat)) : State :=
  if fails ≠ [] ∧ s.suffices cls unit fails then s.softRepair cls unit fails
  else if cls = 1 ∨ cls = 4 then s.askFence 4
  else
    match s.freeRecords.head?, s.spareUnit cls unit with
    | some r, some n => if 2 ≤ cls ∧ cls ≤ 7 then s.addRecord r 2 cls unit n 0 else s.askFence 4
    | _, _ => s.askFence 4

/-- R487, R490: ROM_SELF_TEST_DONE: `fails` lists the units that failed, by class and number, with their failing rows (0) and
columns (1). -/
def execRomSelfTestDone (fails : List (Nat × Nat × List (Nat × Nat))) (s : State) : Host.Outcome State Fault Refusal :=
  if s.mode = .strap ∧ s.g Reg.GLB_BOOT_STATUS.stage < 3 ∧ s.glb.fencePend.isNone then
    let s1 := fails.foldl (fun t f => t.romFail f.1 f.2.1 f.2.2) s.fusedRepairs
    .next (s1.put Reg.GLB_BOOT_STATUS.stage (if s1.glb.fencePend.isNone then 3 else 2))
  else .next s

/-- R29, R538: RESET_N_ASSERT. A thermal trip ends (R38). -/
def execResetNAssert (s : State) : Host.Outcome State Fault Refusal :=
  let t := { s with glb := { s.glb with resetN := false, trip := false } }
  .next (if s.mode = .off then t else t.enterOff)

/-- Set whether rail `r` (0 VIN_CORE, 1 VIN_LANE, 2 VDD_IO) is within its limits. -/
def State.setRail (s : State) (r : Nat) (good : Bool) : State :=
  { s with glb := { s.glb with railCore := if r = 0 then good else s.glb.railCore, railLane := if r = 1 then good else s.glb.railLane,
                               railIo := if r = 2 then good else s.glb.railIo } }

/-- R29, R535: RAIL_OUT_OF_LIMITS. A thermal trip ends (R38). -/
def execRailOutOfLimits (rail : Nat) (s : State) : Host.Outcome State Fault Refusal :=
  if rail < 3 then
    let t := { s with glb := { s.glb with trip := false } }.setRail rail false
    .next (if s.mode = .off then t else t.enterOff)
  else .next s

/-- R38, R533: RAIL_WITHIN_LIMITS; with VDD_IO within its limits the outputs and pulls are alive. -/
def execRailWithinLimits (rail : Nat) (s : State) : Host.Outcome State Fault Refusal :=
  if rail < 3 then .next (s.setRail rail true) else .next s

/-- R529, R539: HOST_PORT_RESET of host port `h`, by PERST_N (`perst`) or by a hot reset. Its link goes down with it. -/
def execHostPortReset (h : Nat) (perst : Bool) (s : State) : Host.Outcome State Fault Refusal :=
  let t := if h < 4 ∧ perst then { s with glb := { s.glb with perstN := s.glb.perstN.set h false } } else s
  if t.hpPresent h ∧ s.mode ≠ .off then
    let u := t.hostPortReset h
    .next { u with glb := { u.glb with hpStatus := Tbl.del u.glb.hpStatus h } }
  else .next t

/-- R4, R539: PERST_N_DEASSERT of host port `h`: the port trains and answers configuration requests: `status` is what its link has
negotiated, as HIF_HP_STATUS shows it, at 64 GT/s always in FLIT mode, and `vfs` the virtual functions its host has enabled. -/
def execPerstNDeassert (h status vfs : Nat) (s : State) : Host.Outcome State Fault Refusal :=
  if h < 4 then
    let t := { s with glb := { s.glb with perstN := s.glb.perstN.set h true } }
    if t.hpPresent h ∧ s.mode ≠ .off then
      let flit := if status % 16 = 6 then 1 else bits status 29 1
      let shown := setBits (setBits (status % 2 ^ 31 - status % 2 ^ 31 % 2 ^ 16 + status % 16) 21 8 0) 29 1 flit
      let fns := (List.range (min vfs 255 + 1)).foldl (fun u i =>
        Tbl.put (fun _ => Fn.reset) u (h * 256 + i) { (t.fn (h * 256 + i)) with exists_ := true }) t.hif.fns
      .next { t with glb := { t.glb with hpStatus := Tbl.ins t.glb.hpStatus h shown }, hif := { t.hif with fns := fns } }
    else .next t
  else .next s

/-! ### The course boundary and what takes effect there (R27, R35, R47, R48, R68, R69, R76) -/

/-- R76: the swap is due now. -/
def State.swapDue (s : State) : Bool :=
  s.crs.armed && s.crs.cycle == 0 && s.course == s.swapAt && s.mode != .off && s.mode != .fenced

/-- R69: periodic work of a block that the course has ended without: counted and told of. -/
def State.overrun (s : State) : State := (s.bump Ctr.CRS_OVERRUN_COUNT).raise (srcCrs 5) 0 0
/-- R69: the relay of the congestion map was not sent in the course that has ended. -/
def State.relayLate (s : State) : Bool := !s.rte.colSent && !s.relayPorts.isEmpty
/-- R57, R69: a course mark was not sent in the course that has ended: it is sent in this one, in place of this one's. -/
def State.marksLate (s : State) : Bool := (List.range 64).any (fun p => s.up p && (s.lk p).markDue)

/-- R68: the work that begins with a course in TRANSIT, SERVICE and DRAIN: refill, install, CONG_ROW, the sweep's accounts. A relay of
the course before is finished now, and the new course has no instance of it (R69). CONG_ROW waits for a swap that is due, which
publishes it under the new set (R70). `own` are the levels published in the course that has ended. -/
def State.courseWork (s : State) (own : Nat) : State :=
  let s1 := s.refill.installMap own
  let s2 := if s1.swapDue then s1 else s1.sendCongRows
  if s2.course % 2 ^ 24 = 0 then s2.sweepStart else s2

/-- R69: the relay of the course that has ended goes out now, with the levels and the birth of that course. -/
def State.relayOverrun (s : State) : State := if s.relayLate then (s.sendCongCols true).overrun else s

/-- R35, R140: in FENCED the links that were UP carry FENCE bricks for sixteen courses, that of entry included. -/
def State.fenceCourse (s : State) : State :=
  if s.mode = .fenced ∧ s.since s.glb.fenceFrom < 16 then
    ((List.range 64).filter (fun p => (s.lk p).st == .fencing)).foldl (fun t p => t.sendFence p) s
  else s

/-- R48, R68: cycle 0 of the next course. -/
def State.courseBoundary (s : State) : State :=
  let own := s.rte.ownLevels
  let skip := s.live && s.relayLate
  let s1 := (s.pass (1280 - s.crs.cycle)).setTime (s.crs.course + 1) 0
  let s2 := if s1.marksLate then s1.overrun else s1
  let s3 := ((List.range 64).filter (fun p => (s.lk p).st != .down || (s.lk p).moved)).foldl (fun t p => t.onLk p Lnk.courseStart) s2.countRuns
  let s4 := if s3.live then s3.relayOverrun else s3
  let s5 := s4.courseLevels
  let s6 := if s5.live then s5.courseWork own else s5
  (if skip then { s6 with rte := { s6.rte with colSent := true } } else s6).fenceCourse


/-- R47: REFERENCE_LOSS: the fatal reference-loss source goes live. -/
def execReferenceLoss (s : State) : Host.Outcome State Fault Refusal :=
  if s.mode = .off then .next s else .next (s.level (srcCrs 0) true)

/-- R76: SWAP_TAKE_EFFECT. -/
def execSwapTakeEffect (s : State) : Host.Outcome State Fault Refusal := if s.swapDue then .next s.swapNow else .next s

/-- R72: COPY_DONE. -/
def execCopyDone (s : State) : Host.Outcome State Fault Refusal := if s.crs.copyBusy then .next s.copyDone else .next s

/-- R77: SHADOW_BUSY_END. -/
def execShadowBusyEnd (s : State) : Host.Outcome State Fault Refusal :=
  match s.crs.busyEnd with
  | some c => if s.since c < 2 ^ 47 then .next { s with crs := { s.crs with busyEnd := none } } else .next s
  | none => .next s

/-- R27, R30: an entry into FENCED was asked for before this course: at this boundary it comes first, after a swap that is due (R68). -/
def State.fenceDue (s : State) : Bool :=
  s.glb.fencePend.isSome && (s.mode == .strap || (s.crs.cycle == 0 && s.glb.fenceAsk != s.crs.course)) && !s.swapDue

/-- R27, R28, R68: a request of an earlier course waits at this boundary, and no swap is due before it. -/
def State.modeDue (s : State) : Bool :=
  (s.glb.reqOld.isSome || (s.glb.reqPending && s.glb.reqCourse != s.crs.course)) && s.counting && s.mode != .fenced && s.crs.cycle == 0 &&
    !s.swapDue

/-- R28, R29: a request for mode `target` is acted on or refused. -/
def State.modeTake (s : State) (target : Nat) : State :=
  if s.fenceDue ∨ ¬ s.modeOk target then s.modeRefuse target else s.enterMode (Mode.ofCode target)

/-- R28, R29: the request that waits at this boundary is acted on or refused; one written since goes on waiting. -/
def State.modeAct (s : State) : State :=
  match s.glb.reqOld with
  | some t =>
    let u := { s with glb := { s.glb with reqOld := none } }.modeTake t
    { u with glb := { u.glb with reqPending := s.glb.reqPending } }
  | none => s.modeTake s.glb.target

/-- R28, R29: MODE_CHANGE: the last request of the course that has ended is acted on or refused. -/
def execModeChange (s : State) : Host.Outcome State Fault Refusal := if s.modeDue then .next s.modeAct else .next s

/-- R27, R29, R35: an entry into FENCED that is due. -/
def State.fenceAct (s : State) : State :=
  match s.glb.fencePend with
  | some cause => if s.fenceDue ∧ s.mode ≠ .fenced ∧ s.mode ≠ .off then s.enterFenced cause else s
  | none => s

/-- R27, R29, R35: ENTER_FENCED: an entry that was asked for takes effect, in STRAP at once. -/
def execEnterFenced (s : State) : Host.Outcome State Fault Refusal := .next s.fenceAct

/-- R68, R69: what is due at cycle 0 takes effect before the course goes on: the swap, then the fence, the mode change, the step, the
better root and the trees that resume (R437). -/
def State.cycleZero (s : State) : State :=
  let s1 := (if s.swapDue then s.swapNow else s).fenceAct
  let s2 := if s1.modeDue then s1.modeAct else s1
  let s3 := if s2.stepDue then s2.alignStep else s2
  let s4 := match s3.followDue with
    | some r => s3.followRoot r
    | none => s3
  s4.resumeTrees

/-- R48: COURSE_BOUNDARY: the course that is running ends, whatever cycles of it were shown (DESIGN CHOICE, notes/assumptions/11). What
is due at its cycle 0 and not yet done comes first: it is never deferred (R69). -/
def execCourseBoundary (s : State) : Host.Outcome State Fault Refusal :=
  if s.counting then .next (if s.crs.cycle = 0 then s.cycleZero else s).courseBoundary.forceTick else .next s

/-- R35 step 5: FENCE_PERIOD_END. -/
def execFencePeriodEnd (s : State) : Host.Outcome State Fault Refusal :=
  if s.mode = .fenced ∧ ¬ s.glb.fenceTxOff ∧ s.since s.glb.fenceFrom ≥ 16 then
    let s1 := { s with glb := { s.glb with fenceTxOff := true } }
    let s2 := ((List.range 64).filter (fun p => (s.lk p).st == .fencing)).foldl (fun t p => t.linkDown p 5) s1
    .next (s2.lanesOff ((List.range 128).filter (fun n => (s2.ln n).st != .disabled)))
  else .next s

/-! ### Sensors (R546, R547) -/

/-- R546, R547: THERMAL_CONVERSION of sensor `k`: `temp` is signed, in 1/16 °C. -/
def execThermalConversion (k temp : Nat) (s : State) : Host.Outcome State Fault Refusal :=
  if k < 24 ∧ s.mode ≠ .off then
    let temps := Tbl.ins s.glb.temps k (pack [(31, 1, 1), (0, 16, temp)])
    let s1 := { s with glb := { s.glb with temps := temps } }
    let s2 := s1.level 2 (temps.any (fun e => signed (bits e.2 0 16) 16 > 1680))
    .next (if signed (bits temp 0 16) 16 ≥ 1840 then
             { s2 with glb := { s2.glb with trip := true } }.level 3 true
           else s2)
  else .next s

end Sys2Proof.Machine
end

