-- ==== Sys2Proof/Machine/Dispatch.lean ====
section
/-! DEFINITION. One arm for each command: the meaning it calls. -/
namespace Sys2Proof.Machine

/-- What a command does to everything but the queue. -/
def exec (i : Instr) (s : State) : Host.Outcome State Fault Refusal :=
  match i with
  | .resetDeassert boot hpmode timeroot => Sys2Proof.Machine.execResetDeassert boot hpmode timeroot s
  | .romSelfTestDone fails => Sys2Proof.Machine.execRomSelfTestDone fails s
  | .resetNAssert => Sys2Proof.Machine.execResetNAssert s
  | .railOutOfLimits rail => Sys2Proof.Machine.execRailOutOfLimits rail s
  | .fullReset req v => Sys2Proof.Machine.execFullReset req v s
  | .hostPortReset h perst => Sys2Proof.Machine.execHostPortReset h perst s
  | .registerWrite req off size v => Sys2Proof.Machine.execRegisterWrite req off size v s
  | .lowHalfRead req at_ size => Sys2Proof.Machine.execLowHalfRead req at_ size s
  | .setupLockSet req => Sys2Proof.Machine.execSetupLockSet req s
  | .deviceIdWrite req v => Sys2Proof.Machine.execDeviceIdWrite req v s
  | .modeReqWrite req v => Sys2Proof.Machine.execModeReqWrite req v s
  | .modeChange => Sys2Proof.Machine.execModeChange s
  | .enterFenced => Sys2Proof.Machine.execEnterFenced s
  | .fencePeriodEnd => Sys2Proof.Machine.execFencePeriodEnd s
  | .courseBoundary => Sys2Proof.Machine.execCourseBoundary s
  | .referenceLoss => Sys2Proof.Machine.execReferenceLoss s
  | .courseMarkRx port m => Sys2Proof.Machine.execCourseMarkRx port m s
  | .followBetterRoot => Sys2Proof.Machine.execFollowBetterRoot s
  | .alignStep => Sys2Proof.Machine.execAlignStep s
  | .aligned => Sys2Proof.Machine.execAligned s
  | .alignLost => Sys2Proof.Machine.execAlignLost s
  | .alignCtrlWrite req v => Sys2Proof.Machine.execAlignCtrlWrite req v s
  | .swapArm req => Sys2Proof.Machine.execSwapArm req s
  | .swapDisarm req => Sys2Proof.Machine.execSwapDisarm req s
  | .shadowCopy req => Sys2Proof.Machine.execShadowCopy req s
  | .copyDone => Sys2Proof.Machine.execCopyDone s
  | .shadowWrite req off v => Sys2Proof.Machine.execShadowWrite req off v s
  | .swapTakeEffect => Sys2Proof.Machine.execSwapTakeEffect s
  | .shadowBusyEnd => Sys2Proof.Machine.execShadowBusyEnd s
  | .codewordRx n message parity => Sys2Proof.Machine.execCodewordRx n message parity s
  | .fecLockLost n => Sys2Proof.Machine.execFecLockLost n s
  | .markerTx n => Sys2Proof.Machine.execMarkerTx n s
  | .markerRx n m => Sys2Proof.Machine.execMarkerRx n m s
  | .markerLockLost n => Sys2Proof.Machine.execMarkerLockLost n s
  | .sleepWake n signal => Sys2Proof.Machine.execSleepWake n signal s
  | .trainingFrameRx n req status => Sys2Proof.Machine.execTrainingFrameRx n req status s
  | .frameLock n => Sys2Proof.Machine.execFrameLock n s
  | .tapResponse n => Sys2Proof.Machine.execTapResponse n s
  | .tapResponseTimeout n => Sys2Proof.Machine.execTapResponseTimeout n s
  | .rxReady n snr frames => Sys2Proof.Machine.execRxReady n snr frames s
  | .dataStart n => Sys2Proof.Machine.execDataStart n s
  | .trainAttemptTimeout n => Sys2Proof.Machine.execTrainAttemptTimeout n s
  | .signalAbsentTimeout n => Sys2Proof.Machine.execSignalAbsentTimeout n s
  | .signalReturn n => Sys2Proof.Machine.execSignalReturn n s
  | .laneRestart n => Sys2Proof.Machine.execLaneRestart n s
  | .pllLossOfLock k => Sys2Proof.Machine.execPllLossOfLock k s
  | .pllRelock k => Sys2Proof.Machine.execPllRelock k s
  | .testEnter p v => Sys2Proof.Machine.execTestEnter p v s
  | .testExit p v => Sys2Proof.Machine.execTestExit p v s
  | .prbsInjectOne n => Sys2Proof.Machine.execPrbsInjectOne n s
  | .prbsCheckerLock n count low mid top => Sys2Proof.Machine.execPrbsCheckerLock n count low mid top s
  | .fecInject n => Sys2Proof.Machine.execFecInject n s
  | .sequencedBrickRx p type seq ack body => Sys2Proof.Machine.execSequencedBrickRx p type seq ack body s
  | .brickCrcError p => Sys2Proof.Machine.execBrickCrcError p s
  | .reservedBrickRx p => Sys2Proof.Machine.execReservedBrickRx p s
  | .controlBrickRx p seq ack body => Sys2Proof.Machine.execControlBrickRx p seq ack body s
  | .abortBrickRx p seq ack reason => Sys2Proof.Machine.execAbortBrickRx p seq ack reason s
  | .fenceBrickRx p => Sys2Proof.Machine.execFenceBrickRx p s
  | .initBrickRx p body => Sys2Proof.Machine.execInitBrickRx p body s
  | .brickTx p => Sys2Proof.Machine.execBrickTx p s
  | .controlBrickTx p => Sys2Proof.Machine.execControlBrickTx p s
  | .replayBrickTx p => Sys2Proof.Machine.execReplayBrickTx p s
  | .replayTimerExpiry p => Sys2Proof.Machine.execReplayTimerExpiry p s
  | .linkInitStart p => Sys2Proof.Machine.execLinkInitStart p s
  | .initTimeout p => Sys2Proof.Machine.execInitTimeout p s
  | .keepaliveTimeout p => Sys2Proof.Machine.execKeepaliveTimeout p s
  | .phyDown p => Sys2Proof.Machine.execPhyDown p s
  | .phyUp p => Sys2Proof.Machine.execPhyUp p s
  | .linkReinit p => Sys2Proof.Machine.execLinkReinit p s
  | .packetRoute ix => Sys2Proof.Machine.execPacketRoute ix s
  | .congRowRx ix => Sys2Proof.Machine.execCongRowRx ix s
  | .congColRx ix => Sys2Proof.Machine.execCongColRx ix s
  | .congColTx => Sys2Proof.Machine.execCongColTx s
  | .portDead p => Sys2Proof.Machine.execPortDead p s
  | .portRevive p => Sys2Proof.Machine.execPortRevive p s
  | .portRoleWrite req p v => Sys2Proof.Machine.execPortRoleWrite req p v s
  | .lifeWrite req v => Sys2Proof.Machine.execLifeWrite req v s
  | .packetInject h => Sys2Proof.Machine.execPacketInject h s
  | .deferredRetest => Sys2Proof.Machine.execDeferredRetest s
  | .outputSchedule o => Sys2Proof.Machine.execOutputSchedule o s
  | .sqDoorbell f off size data => Sys2Proof.Machine.execSqDoorbell f off size data s
  | .cqDoorbell f off size data => Sys2Proof.Machine.execCqDoorbell f off size data s
  | .eqDoorbell f off size data => Sys2Proof.Machine.execEqDoorbell f off size data s
  | .deviceEqDoorbell f off d => Sys2Proof.Machine.execDeviceEqDoorbell f off d s
  | .epCreate f => Sys2Proof.Machine.execEpCreate f s
  | .epDestroy f => Sys2Proof.Machine.execEpDestroy f s
  | .epDestroyComplete f => Sys2Proof.Machine.execEpDestroyComplete f s
  | .epQuarantineEnd e => Sys2Proof.Machine.execEpQuarantineEnd e s
  | .sqCreate f => Sys2Proof.Machine.execSqCreate f s
  | .sqDestroy f => Sys2Proof.Machine.execSqDestroy f s
  | .sqDestroyComplete f => Sys2Proof.Machine.execSqDestroyComplete f s
  | .sqRestart f => Sys2Proof.Machine.execSqRestart f s
  | .cqCreate f => Sys2Proof.Machine.execCqCreate f s
  | .cqDestroy f => Sys2Proof.Machine.execCqDestroy f s
  | .cqReset f => Sys2Proof.Machine.execCqReset f s
  | .eqCreate f => Sys2Proof.Machine.execEqCreate f s
  | .eqDestroy f => Sys2Proof.Machine.execEqDestroy f s
  | .fnCmdUndefined f op => Sys2Proof.Machine.execFnCmdUndefined f op s
  | .fnGroupsWrite req f v => Sys2Proof.Machine.execFnGroupsWrite req f v s
  | .flr f => Sys2Proof.Machine.execFlr f s
  | .flrComplete f => Sys2Proof.Machine.execFlrComplete f s
  | .workFetch => Sys2Proof.Machine.execWorkFetch s
  | .descriptorReadReturn q r => Sys2Proof.Machine.execDescriptorReadReturn q r s
  | .nop q => Sys2Proof.Machine.execNop q s
  | .entryRetire q => Sys2Proof.Machine.execEntryRetire q s
  | .flushCompletion q => Sys2Proof.Machine.execFlushCompletion q s
  | .cqOverflow c => Sys2Proof.Machine.execCqOverflow c s
  | .eventsLost r => Sys2Proof.Machine.execEventsLost r s
  | .pageWalk u => Sys2Proof.Machine.execPageWalk u s
  | .walkReadReturn u ix r => Sys2Proof.Machine.execWalkReadReturn u ix r s
  | .tlbAgeExpiry u => Sys2Proof.Machine.execTlbAgeExpiry u s
  | .xltInvAddr q => Sys2Proof.Machine.execXltInvAddr q s
  | .xltInvAs q => Sys2Proof.Machine.execXltInvAs q s
  | .xltInvFn q => Sys2Proof.Machine.execXltInvFn q s
  | .xltInvAll q => Sys2Proof.Machine.execXltInvAll q s
  | .xltInvComplete q => Sys2Proof.Machine.execXltInvComplete q s
  | .xltLock q => Sys2Proof.Machine.execXltLock q s
  | .xltUnlock q => Sys2Proof.Machine.execXltUnlock q s
  | .contextLoad k r => Sys2Proof.Machine.execContextLoad k r s
  | .contextEvict k => Sys2Proof.Machine.execContextEvict k s
  | .transportSend ix hm => Sys2Proof.Machine.execTransportSend ix hm s
  | .transportRx h => Sys2Proof.Machine.execTransportRx h s
  | .ackCoalesceExpiry k st => Sys2Proof.Machine.execAckCoalesceExpiry k st s
  | .ackRateRelease k st => Sys2Proof.Machine.execAckRateRelease k st s
  | .ackRx h => Sys2Proof.Machine.execAckRx h s
  | .resultRx => Sys2Proof.Machine.execResultRx s
  | .retxTimerExpiry k st => Sys2Proof.Machine.execRetxTimerExpiry k st s
  | .earlyRetx k st => Sys2Proof.Machine.execEarlyRetx k st s
  | .generationRoll k => Sys2Proof.Machine.execGenerationRoll k s
  | .ctxErrorExit k => Sys2Proof.Machine.execCtxErrorExit k s
  | .rnrResend ix => Sys2Proof.Machine.execRnrResend ix s
  | .responseTimeout ix => Sys2Proof.Machine.execResponseTimeout ix s
  | .keySet req => Sys2Proof.Machine.execKeySet req s
  | .keyClear req => Sys2Proof.Machine.execKeyClear req s
  | .regionSet req => Sys2Proof.Machine.execRegionSet req s
  | .regionClear req => Sys2Proof.Machine.execRegionClear req s
  | .ctxReset req => Sys2Proof.Machine.execCtxReset req s
  | .ctxFlush req => Sys2Proof.Machine.execCtxFlush req s
  | .msgSend q => Sys2Proof.Machine.execMsgSend q s
  | .msgPost q => Sys2Proof.Machine.execMsgPost q s
  | .msgCancel q => Sys2Proof.Machine.execMsgCancel q s
  | .msgProbe q => Sys2Proof.Machine.execMsgProbe q s
  | .msgMrecv q => Sys2Proof.Machine.execMsgMrecv q s
  | .msgPostLb q => Sys2Proof.Machine.execMsgPostLb q s
  | .eagerRx => Sys2Proof.Machine.execEagerRx s
  | .rtsRx => Sys2Proof.Machine.execRtsRx s
  | .rvGetRx => Sys2Proof.Machine.execRvGetRx s
  | .rvDataRx => Sys2Proof.Machine.execRvDataRx s
  | .skipRx => Sys2Proof.Machine.execSkipRx s
  | .skipSend => Sys2Proof.Machine.execSkipSend s
  | .overflowRefill ep hm => Sys2Proof.Machine.execOverflowRefill ep hm s
  | .rvWaitTimeout ix => Sys2Proof.Machine.execRvWaitTimeout ix s
  | .rmaPut q => Sys2Proof.Machine.execRmaPut q s
  | .rmaGet q => Sys2Proof.Machine.execRmaGet q s
  | .rmaPutNotify q => Sys2Proof.Machine.execRmaPutNotify q s
  | .rmaAtomic q => Sys2Proof.Machine.execRmaAtomic q s
  | .keyReg q => Sys2Proof.Machine.execKeyReg q s
  | .keyRevoke q => Sys2Proof.Machine.execKeyRevoke q s
  | .keyRevokeComplete ix => Sys2Proof.Machine.execKeyRevokeComplete ix s
  | .keyQuarantineEnd ix => Sys2Proof.Machine.execKeyQuarantineEnd ix s
  | .keyInv q => Sys2Proof.Machine.execKeyInv q s
  | .keyInvComplete q => Sys2Proof.Machine.execKeyInvComplete q s
  | .putRx => Sys2Proof.Machine.execPutRx s
  | .getRx => Sys2Proof.Machine.execGetRx s
  | .atomicRx => Sys2Proof.Machine.execAtomicRx s
  | .atomicExecute id => Sys2Proof.Machine.execAtomicExecute id s
  | .atomicopCompletion id r => Sys2Proof.Machine.execAtomicopCompletion id r s
  | .getDataRx => Sys2Proof.Machine.execGetDataRx s
  | .atomicDataRx => Sys2Proof.Machine.execAtomicDataRx s
  | .cellAcquire via => Sys2Proof.Machine.execCellAcquire via s
  | .cellTry q => Sys2Proof.Machine.execCellTry q s
  | .cellRelease via => Sys2Proof.Machine.execCellRelease via s
  | .cellWithdraw via => Sys2Proof.Machine.execCellWithdraw via s
  | .flAcquire via => Sys2Proof.Machine.execFlAcquire via s
  | .flRelease via => Sys2Proof.Machine.execFlRelease via s
  | .flRenew via => Sys2Proof.Machine.execFlRenew via s
  | .flBreak via => Sys2Proof.Machine.execFlBreak via s
  | .flPollSend ix => Sys2Proof.Machine.execFlPollSend ix s
  | .flTakeRx hm => Sys2Proof.Machine.execFlTakeRx hm s
  | .flPollRx hm => Sys2Proof.Machine.execFlPollRx hm s
  | .flReleaseRx hm => Sys2Proof.Machine.execFlReleaseRx hm s
  | .flReleaseAbandonedRx hm => Sys2Proof.Machine.execFlReleaseAbandonedRx hm s
  | .flRenewRx hm => Sys2Proof.Machine.execFlRenewRx hm s
  | .flBreakRx hm => Sys2Proof.Machine.execFlBreakRx hm s
  | .flReplyRx => Sys2Proof.Machine.execFlReplyRx s
  | .colJoin q => Sys2Proof.Machine.execColJoin q s
  | .colLeave q => Sys2Proof.Machine.execColLeave q s
  | .colOp q => Sys2Proof.Machine.execColOp q s
  | .memberChunkRead t ep hm => Sys2Proof.Machine.execMemberChunkRead t ep hm s
  | .colUpRx => Sys2Proof.Machine.execColUpRx s
  | .chunkSendUp t => Sys2Proof.Machine.execChunkSendUp t s
  | .colDownRx => Sys2Proof.Machine.execColDownRx s
  | .colAbortRx => Sys2Proof.Machine.execColAbortRx s
  | .colOpTimeout t => Sys2Proof.Machine.execColOpTimeout t s
  | .colTreeWrite req t w v => Sys2Proof.Machine.execColTreeWrite req t w v s
  | .treeKeySet req => Sys2Proof.Machine.execTreeKeySet req s
  | .resume req => Sys2Proof.Machine.execResume req s
  | .treeResumeEffect t => Sys2Proof.Machine.execTreeResumeEffect t s
  | .windowEntryWrite req fn j w v => Sys2Proof.Machine.execWindowEntryWrite req fn j w v s
  | .bar4Write fn off d be => Sys2Proof.Machine.execBar4Write fn off d be s
  | .windowWriteSend id => Sys2Proof.Machine.execWindowWriteSend id s
  | .bar4Read fn off len tag kind => Sys2Proof.Machine.execBar4Read fn off len tag kind s
  | .windowReadComplete id => Sys2Proof.Machine.execWindowReadComplete id s
  | .windowReadTimeout id => Sys2Proof.Machine.execWindowReadTimeout id s
  | .windowWriteFail id => Sys2Proof.Machine.execWindowWriteFail id s
  | .prefetchExpiry id => Sys2Proof.Machine.execPrefetchExpiry id s
  | .mctpPacketRx port phys d => Sys2Proof.Machine.execMctpPacketRx port phys d s
  | .lintelRecordRx => Sys2Proof.Machine.execLintelRecordRx s
  | .mctpSend port ack => Sys2Proof.Machine.execMctpSend port ack s
  | .alertPull b addr d => Sys2Proof.Machine.execAlertPull b addr d s
  | .i3cIbiRx b addr mdb d => Sys2Proof.Machine.execI3cIbiRx b addr mdb d s
  | .sidebandChange sample => Sys2Proof.Machine.execSidebandChange sample s
  | .faultForce req code k v => Sys2Proof.Machine.execFaultForce req code k v s
  | .forcedConsequence g obj => Sys2Proof.Machine.execForcedConsequence g obj s
  | .faultStatusClear req code k v => Sys2Proof.Machine.execFaultStatusClear req code k v s
  | .sliceStart => Sys2Proof.Machine.execSliceStart s
  | .run req cls unit => Sys2Proof.Machine.execRun req cls unit s
  | .unitReady => Sys2Proof.Machine.execUnitReady s
  | .sliceSkip => Sys2Proof.Machine.execSliceSkip s
  | .testComplete sig fails => Sys2Proof.Machine.execTestComplete sig fails s
  | .sliceAbort => Sys2Proof.Machine.execSliceAbort s
  | .fuse req rec ok => Sys2Proof.Machine.execFuse req rec ok s
  | .bootMboxGo req => Sys2Proof.Machine.execBootMboxGo req s
  | .bootFetchComplete srcs => Sys2Proof.Machine.execBootFetchComplete srcs s
  | .fwReqTimeout p => Sys2Proof.Machine.execFwReqTimeout p s
  | .fwFetchRetry p => Sys2Proof.Machine.execFwFetchRetry p s
  | .fwDataRx => Sys2Proof.Machine.execFwDataRx s
  | .fwReqRx => Sys2Proof.Machine.execFwReqRx s
  | .mgmtForward => Sys2Proof.Machine.execMgmtForward s
  | .mgReadRx => Sys2Proof.Machine.execMgReadRx s
  | .mgWriteRx => Sys2Proof.Machine.execMgWriteRx s
  | .mgMsgRx => Sys2Proof.Machine.execMgMsgRx s
  | .mgRespRx => Sys2Proof.Machine.execMgRespRx s
  | .mailboxRead req m => Sys2Proof.Machine.execMailboxRead req m s
  | .mailboxWrite req m => Sys2Proof.Machine.execMailboxWrite req m s
  | .mailboxMsg req m => Sys2Proof.Machine.execMailboxMsg req m s
  | .mailboxRetry m => Sys2Proof.Machine.execMailboxRetry m s
  | .mcStart req core => Sys2Proof.Machine.execMcStart req core s
  | .mcReset req core => Sys2Proof.Machine.execMcReset req core s
  | .mcException core => Sys2Proof.Machine.execMcException core s
  | .readbackCapture req v => Sys2Proof.Machine.execReadbackCapture req v s
  | .monHelp line => Sys2Proof.Machine.execMonHelp line s
  | .monId line => Sys2Proof.Machine.execMonId line s
  | .monRd line => Sys2Proof.Machine.execMonRd line s
  | .monRbk line => Sys2Proof.Machine.execMonRbk line s
  | .monFlt line => Sys2Proof.Machine.execMonFlt line s
  | .monTime line => Sys2Proof.Machine.execMonTime line s
  | .monBoot line => Sys2Proof.Machine.execMonBoot line s
  | .monUnlock line => Sys2Proof.Machine.execMonUnlock line s
  | .monResp line => Sys2Proof.Machine.execMonResp line s
  | .monLock line => Sys2Proof.Machine.execMonLock line s
  | .monWr line => Sys2Proof.Machine.execMonWr line s
  | .monMode line => Sys2Proof.Machine.execMonMode line s
  | .monBaud line => Sys2Proof.Machine.execMonBaud line s
  | .monMcrun line => Sys2Proof.Machine.execMonMcrun line s
  | .monFuse line ok => Sys2Proof.Machine.execMonFuse line ok s
  | .monReset line => Sys2Proof.Machine.execMonReset line s
  | .monLineInvalid line => Sys2Proof.Machine.execMonLineInvalid line s
  | .monitorIdleTimeout => Sys2Proof.Machine.execMonitorIdleTimeout s
  | .unlockLockoutEnd => Sys2Proof.Machine.execUnlockLockoutEnd s
  | .thermalConversion k temp => Sys2Proof.Machine.execThermalConversion k temp s
  | .railWithinLimits rail => Sys2Proof.Machine.execRailWithinLimits rail s
  | .perstNDeassert h status vfs => Sys2Proof.Machine.execPerstNDeassert h status vfs s
  | .frameLockLost n => Sys2Proof.Machine.execFrameLockLost n s
  | .initBrickTx p => Sys2Proof.Machine.execInitBrickTx p s
  | .sleepMaskWrite p m => Sys2Proof.Machine.execSleepMaskWrite p m s
  | .orderRecordReadReturn ix r => Sys2Proof.Machine.execOrderRecordReadReturn ix r s
  | .overflowRecordReadReturn ix r => Sys2Proof.Machine.execOverflowRecordReadReturn ix r s
  | .keyDescriptorReadReturn n r => Sys2Proof.Machine.execKeyDescriptorReadReturn n r s
  | .targetDataReadReturn n r => Sys2Proof.Machine.execTargetDataReadReturn n r s
  | .bootImageReadReturn r => Sys2Proof.Machine.execBootImageReadReturn r s
  | .prbsRateInjection n => Sys2Proof.Machine.execPrbsRateInjection n s

end Sys2Proof.Machine
end

