-- ==== Sys2Proof/Machine/Tick.lean ====
section
/-! DEFINITION. One core cycle that passes while no command waits: time goes on, what counts cycles counts, inputs that are
sampled every cycle are sampled, and the work the device does of itself is done (DESIGN CHOICE, notes/assumptions/2). -/
namespace Sys2Proof.Machine

/-- R48, R68: the cycle within the course goes on; what is due at cycle 0 comes before the course leaves it, and cycle 1,279 is
followed by the next course. In OFF and STRAP no courses count (R50), so the timers that boot links count in courses, and their rtt, stand
still in STRAP (R128; DESIGN CHOICE, notes/assumptions/86). -/
def State.nextCycle (s : State) : State :=
  if ¬ s.counting then (s.pass 1).fenceAct
  else
    let s1 := if s.crs.cycle = 0 then s.cycleZero else s
    if s1.crs.cycle < 1279 then (s1.pass 1).setTime s1.crs.course (s1.crs.cycle + 1) else s1.courseBoundary

/-- GLB_GPIO_IN: the level at each pin: driven by the device where oe is 1, by the board elsewhere (spec/17). -/
def State.sampleGpio (s : State) : State :=
  let oe := s.g Reg.GLB_GPIO_CTRL.oe
  let level := (s.g Reg.GLB_GPIO_CTRL.out &&& oe) ||| (s.glb.gpioPins &&& (0xFFFF ^^^ oe))
  { s with glb := { s.glb with gpioIn := level % 65536 } }

/-- R147: a packet waits at the output of a port for credits while the far pool is OFF; the one being sent has them. -/
def State.creditStalled (s : State) (p : Nat) : Bool :=
  let l := s.lk p
  l.st == .up && l.farPoolOff &&
  s.rte.inq.any (fun e => e.2.any (fun k => k.dest == some p && !k.drop && (s.outSt p).cur != some (e.1, k.id) &&
    k.len > l.credits (s.outVc p k)))

/-- R124, R147: the window of a port is full (LNK_STATUS.window_full). -/
def State.windowFull (s : State) (p : Nat) : Bool := (s.lk p).replay.length ≥ 2048

/-- R147, R206: the counters of cycles spent waiting. -/
def State.countStalls (s : State) : State :=
  let s1 := (s.lnk.map Prod.fst).foldl (fun t p =>
    (t.bumpIf (t.creditStalled p) (Ctr.LNK_CREDIT_STALL_CYCLES p)).bumpIf (t.windowFull p) (Ctr.LNK_WINDOW_STALL_CYCLES p)) s
  let s2 := (List.range 8).foldl (fun t h => if (t.injQ h).isEmpty then t else t.noteGates h) s1
  let any (f : InjPkt → Bool) : Bool := s2.allInj.any f
  ((s2.bumpIf (any (fun p => p.deferred.isSome)) Ctr.SCH_DEFER_CYCLES).bumpIf (any (fun p => p.atShaper)) Ctr.SCH_SHAPE_STALL_CYCLES).bumpIf
    (any (fun p => p.atWindow)) Ctr.SCH_WINDOW_STALL_CYCLES

/-- One core cycle without a command. In OFF nothing happens. -/
def State.tick (s : State) : State :=
  if s.mode = .off then s else s.nextCycle.forceTick.sampleGpio.countStalls.bootTick.settle

end Sys2Proof.Machine
end

