-- ==== Sys2Proof/WellFormed.lean ====
section
/-! DEFINITION. Which commands can be given: every operand lies in the range of the thing it names (lanes, ports, functions,
queues, register words), and every run of bytes holds as many as it says. -/
namespace Sys2Proof

/-- A number below a bound. -/
def below (n x : Nat) : Bool := x < n
/-- A number of at most `w` bits. -/
def fits (w x : Nat) : Bool := x < 2 ^ w

/-- R12, R24: the identities a register access can carry. -/
def Requester.ok : Requester → Bool
  | .fn i => below 1024 i
  | .mc c => below 4 c
  | .fm => true
  | .monitor => true

/-- R508: a core address in one of the host windows of a management core. -/
def isWinAddr (req : Requester) (off : Nat) : Bool :=
  match req with
  | .mc _ => decide (2 ^ 32 ≤ off ∧ off < 9 * 2 ^ 32)
  | _ => false

/-- R209: an offset in a function's BAR2: 64 MiB for a PF, 256 KiB for a VF. -/
def isBellOff (f off : Nat) : Bool := if f % 256 = 0 then fits 26 off else fits 18 off
/-- A register or doorbell access has from 1 to 8 bytes. -/
def isSize (n : Nat) : Bool := 1 ≤ n && n ≤ 8
/-- Codes of the blocks that have a fault bank (R521, R522). -/
def isBlock (c : Nat) : Bool := 1 ≤ c && c ≤ 17
/-- An event ring: of a function, or one of the four device rings (R246). -/
def isRing (r : Nat) : Bool := r < 1024 || (0x1000 ≤ r && r < 0x1004)
/-- A run of bytes holds as many as it says. -/
def dataOk (d : Data) : Bool := fits (8 * d.len) d.val
/-- R279: why a read of host memory failed: 1 Unsupported Request, 2 Completer Abort, 3 poisoned data, 4 timeout. -/
def isCause (c : Nat) : Bool := 1 ≤ c && c ≤ 4
/-- What a read returns: bytes, or a cause code of R279. -/
def readOk : ReadResult → Bool
  | .data d => dataOk d
  | .error c => isCause c
/-- A view of host memory: 64-bit words at aligned addresses. -/
def viewOk (v : HostView) : Bool := v.words.all (fun e => e.1 % 8 == 0 && fits 64 e.2) && v.bad.all (fun e => isCause e.2)
/-- Characters of a monitor line. -/
def lineOk (l : List Nat) : Bool := l.all (below 256)
/-- R82: the blocks of a codeword have 257 bits. -/
def blocksOk (l : List Nat) : Bool := l.all (fits 257)
/-- Failing rows (0) and columns (1) of a bank. -/
def elemsOk (l : List (Nat × Nat)) : Bool := l.all (fun e => below 2 e.1 && fits 16 e.2)
/-- Failing units. -/
def unitsOk (l : List (Nat × Nat × List (Nat × Nat))) : Bool := l.all (fun e => fits 4 e.1 && fits 10 e.2.1 && elemsOk e.2.2)
/-- R491: image sources. -/
def srcsOk (l : List Nat) : Bool := l.all (below 3)

/-- R57: the widths of a course-mark record. -/
def Machine.Mark.ok (m : Machine.Mark) : Bool :=
  fits 20 m.rootId && fits 48 m.course && fits 15 m.txOffset && fits 8 m.echoTag && fits 24 m.turnaround && fits 2 m.localDepth &&
  fits 2 m.globalDepth && fits 2 m.rank
/-- R88: the widths of an alignment marker's fields. -/
def Machine.Marker.ok (m : Machine.Marker) : Bool :=
  fits 2 m.laneIndex && fits 20 m.device && fits 6 m.port && fits 2 m.txMask && fits 2 m.rxAccept && fits 2 m.sleepMask &&
  fits 16 m.count && fits 8 m.bip

/-- R387, R388: how a lock-cell operation arrives. -/
def CellVia.ok : CellVia → Bool
  | .entry q => below 131072 q
  | .reg req cell priority identity => req.ok && below 1024 cell && fits 7 priority && fits 12 identity
/-- R395, R403: how a fabric-lock operation arrives. -/
def FlVia.ok : FlVia → Bool
  | .entry q => below 131072 q
  | .cmd req => req.ok

/-- Every operand of the command lies in its range. -/
def Instr.wf : Instr → Bool
  | .resetDeassert boot _ _ => fits 2 boot
  | .romSelfTestDone fails => unitsOk fails
  | .resetNAssert => true
  | .railOutOfLimits rail => below 3 rail
  | .fullReset req v => Requester.ok req && fits 32 v
  | .hostPortReset h _ => below 4 h
  | .registerWrite req off size v => Requester.ok req && (fits 26 off || isWinAddr req off) && isSize size && fits (8 * min size 8) v
  | .lowHalfRead req a size => Requester.ok req && (((a.bar == 0 || a.bar == 2) && fits 26 a.off) || (a.bar ≤ 1 && isWinAddr req a.off)) && isSize size
  | .setupLockSet req => Requester.ok req
  | .deviceIdWrite req v => Requester.ok req && fits 32 v
  | .modeReqWrite req v => Requester.ok req && fits 32 v
  | .modeChange => true
  | .enterFenced => true
  | .fencePeriodEnd => true
  | .courseBoundary => true
  | .referenceLoss => true
  | .courseMarkRx port m => below 64 port && Machine.Mark.ok m
  | .followBetterRoot => true
  | .alignStep => true
  | .aligned => true
  | .alignLost => true
  | .alignCtrlWrite req v => Requester.ok req && fits 32 v
  | .swapArm req => Requester.ok req
  | .swapDisarm req => Requester.ok req
  | .shadowCopy req => Requester.ok req
  | .copyDone => true
  | .shadowWrite req off v => Requester.ok req && fits 26 off && fits 32 v
  | .swapTakeEffect => true
  | .shadowBusyEnd => true
  | .codewordRx n message parity => below 128 n && fits 5140 message && fits 300 parity
  | .fecLockLost n => below 128 n
  | .markerTx n => below 128 n
  | .markerRx n m => below 128 n && Machine.Marker.ok m
  | .markerLockLost n => below 128 n
  | .sleepWake n _ => below 128 n
  | .trainingFrameRx n req status => below 128 n && fits 32 req && fits 32 status
  | .frameLock n => below 128 n
  | .tapResponse n => below 128 n
  | .tapResponseTimeout n => below 128 n
  | .rxReady n snr _ => below 128 n && fits 10 snr
  | .dataStart n => below 128 n
  | .trainAttemptTimeout n => below 128 n
  | .signalAbsentTimeout n => below 128 n
  | .signalReturn n => below 128 n
  | .laneRestart n => below 128 n
  | .pllLossOfLock k => below 16 k
  | .pllRelock k => below 16 k
  | .testEnter p v => below 64 p && fits 32 v
  | .testExit p v => below 64 p && fits 32 v
  | .prbsInjectOne n => below 128 n
  | .prbsCheckerLock n count low mid top => below 128 n && fits count low && fits count mid && fits count top
  | .fecInject n => below 128 n
  | .sequencedBrickRx p type seq ack body => below 64 p && fits 4 type && fits 14 seq && fits 14 ack && dataOk body
  | .brickCrcError p => below 64 p
  | .reservedBrickRx p => below 64 p
  | .controlBrickRx p seq ack body => below 64 p && fits 14 seq && fits 14 ack && dataOk body
  | .abortBrickRx p seq ack reason => below 64 p && fits 14 seq && fits 14 ack && fits 8 reason
  | .fenceBrickRx p => below 64 p
  | .initBrickRx p body => below 64 p && dataOk body
  | .brickTx p => below 64 p
  | .controlBrickTx p => below 64 p
  | .replayBrickTx p => below 64 p
  | .replayTimerExpiry p => below 64 p
  | .linkInitStart p => below 64 p
  | .initTimeout p => below 64 p
  | .keepaliveTimeout p => below 64 p
  | .phyDown p => below 64 p
  | .phyUp p => below 64 p
  | .linkReinit p => below 64 p
  | .packetRoute i => below 72 i
  | .congRowRx i => below 64 i
  | .congColRx i => below 64 i
  | .congColTx => true
  | .portDead p => below 64 p
  | .portRevive p => below 64 p
  | .portRoleWrite req p v => Requester.ok req && below 64 p && fits 32 v
  | .lifeWrite req v => Requester.ok req && fits 32 v
  | .packetInject h => below 8 h
  | .deferredRetest => true
  | .outputSchedule o => below 72 o
  | .sqDoorbell f off size data => below 1024 f && isBellOff f off && isSize size && fits (8 * min size 8) data
  | .cqDoorbell f off size data => below 1024 f && isBellOff f off && isSize size && fits (8 * min size 8) data
  | .eqDoorbell f off size data => below 1024 f && isBellOff f off && isSize size && fits (8 * min size 8) data
  | .deviceEqDoorbell f off d => below 1024 f && isBellOff f off && isSize d.len && fits (8 * min d.len 8) d.val
  | .epCreate f => below 1024 f
  | .epDestroy f => below 1024 f
  | .epDestroyComplete f => below 1024 f
  | .epQuarantineEnd e => fits 16 e
  | .sqCreate f => below 1024 f
  | .sqDestroy f => below 1024 f
  | .sqDestroyComplete f => below 1024 f
  | .sqRestart f => below 1024 f
  | .cqCreate f => below 1024 f
  | .cqDestroy f => below 1024 f
  | .cqReset f => below 1024 f
  | .eqCreate f => below 1024 f
  | .eqDestroy f => below 1024 f
  | .fnCmdUndefined f op => below 1024 f && fits 8 op
  | .fnGroupsWrite req f v => Requester.ok req && below 1024 f && fits 32 v
  | .flr f => below 1024 f
  | .flrComplete f => below 1024 f
  | .workFetch => true
  | .descriptorReadReturn q r => below 131072 q && readOk r
  | .nop q => below 131072 q
  | .entryRetire q => below 131072 q
  | .flushCompletion q => below 131072 q
  | .cqOverflow c => below 65536 c
  | .eventsLost r => isRing r
  | .pageWalk u => below 4 u
  | .walkReadReturn u _ r => below 4 u && readOk r
  | .tlbAgeExpiry u => below 4 u
  | .xltInvAddr q => below 131072 q
  | .xltInvAs q => below 131072 q
  | .xltInvFn q => below 131072 q
  | .xltInvAll q => below 131072 q
  | .xltInvComplete q => below 131072 q
  | .xltLock q => below 131072 q
  | .xltUnlock q => below 131072 q
  | .contextLoad k r => fits 34 k && readOk r
  | .contextEvict k => fits 34 k
  | .transportSend _ hm => viewOk hm
  | .transportRx h => below 6 h
  | .ackCoalesceExpiry k st => fits 34 k && below 2 st
  | .ackRateRelease k st => fits 34 k && below 2 st
  | .ackRx h => below 6 h
  | .resultRx => true
  | .retxTimerExpiry k st => fits 34 k && below 2 st
  | .earlyRetx k st => fits 34 k && below 2 st
  | .generationRoll k => fits 34 k
  | .ctxErrorExit k => fits 34 k
  | .rnrResend _ => true
  | .responseTimeout _ => true
  | .keySet req => Requester.ok req
  | .keyClear req => Requester.ok req
  | .regionSet req => Requester.ok req
  | .regionClear req => Requester.ok req
  | .ctxReset req => Requester.ok req
  | .ctxFlush req => Requester.ok req
  | .msgSend q => below 131072 q
  | .msgPost q => below 131072 q
  | .msgCancel q => below 131072 q
  | .msgProbe q => below 131072 q
  | .msgMrecv q => below 131072 q
  | .msgPostLb q => below 131072 q
  | .eagerRx => true
  | .rtsRx => true
  | .rvGetRx => true
  | .rvDataRx => true
  | .skipRx => true
  | .skipSend => true
  | .overflowRefill ep hm => fits 16 ep && viewOk hm
  | .rvWaitTimeout i => below 32768 i
  | .rmaPut q => below 131072 q
  | .rmaGet q => below 131072 q
  | .rmaPutNotify q => below 131072 q
  | .rmaAtomic q => below 131072 q
  | .keyReg q => below 131072 q
  | .keyRevoke q => below 131072 q
  | .keyRevokeComplete i => fits 24 i
  | .keyQuarantineEnd i => fits 24 i
  | .keyInv q => below 131072 q
  | .keyInvComplete q => below 131072 q
  | .putRx => true
  | .getRx => true
  | .atomicRx => true
  | .atomicExecute _ => true
  | .atomicopCompletion _ r => readOk r
  | .getDataRx => true
  | .atomicDataRx => true
  | .cellAcquire via => via.ok
  | .cellTry q => below 131072 q
  | .cellRelease via => via.ok
  | .cellWithdraw via => via.ok
  | .flAcquire via => via.ok
  | .flRelease via => via.ok
  | .flRenew via => via.ok
  | .flBreak via => via.ok
  | .flPollSend i => below 4096 i
  | .flTakeRx hm => viewOk hm
  | .flPollRx hm => viewOk hm
  | .flReleaseRx hm => viewOk hm
  | .flReleaseAbandonedRx hm => viewOk hm
  | .flRenewRx hm => viewOk hm
  | .flBreakRx hm => viewOk hm
  | .flReplyRx => true
  | .colJoin q => below 131072 q
  | .colLeave q => below 131072 q
  | .colOp q => below 131072 q
  | .memberChunkRead t ep hm => below 4096 t && fits 16 ep && viewOk hm
  | .colUpRx => true
  | .chunkSendUp t => below 4096 t
  | .colDownRx => true
  | .colAbortRx => true
  | .colOpTimeout t => below 4096 t
  | .colTreeWrite req t w v => Requester.ok req && below 4096 t && below 8 w && fits 32 v
  | .treeKeySet req => Requester.ok req
  | .resume req => Requester.ok req
  | .treeResumeEffect t => below 4096 t
  | .windowEntryWrite req fn j w v => Requester.ok req && below 1024 fn && below 64 j && below 4 w && fits 32 v
  | .bar4Write fn _ d be => below 1024 fn && dataOk d && fits d.len be
  | .windowWriteSend _ => true
  | .bar4Read fn _ len tag kind => below 1024 fn && below 4097 len && fits 14 tag && below 3 kind
  | .windowReadComplete _ => true
  | .windowReadTimeout _ => true
  | .windowWriteFail _ => true
  | .prefetchExpiry _ => true
  | .mctpPacketRx port phys d => below 8 port && fits 16 phys && dataOk d
  | .lintelRecordRx => true
  | .mctpSend port _ => below 8 port
  | .alertPull b addr d => below 4 b && fits 7 addr && dataOk d
  | .i3cIbiRx b addr mdb d => below 4 b && fits 7 addr && fits 8 mdb && dataOk d
  | .sidebandChange sample => fits 12 sample
  | .faultForce req code k v => Requester.ok req && isBlock code && below 32 k && fits 32 v
  | .forcedConsequence g obj => below 4096 g && fits 24 obj
  | .faultStatusClear req code k v => Requester.ok req && isBlock code && below 32 k && fits 32 v
  | .sliceStart => true
  | .run req cls unit => Requester.ok req && fits 4 cls && fits 10 unit
  | .unitReady => true
  | .sliceSkip => true
  | .testComplete sig fails => fits 64 sig && elemsOk fails
  | .sliceAbort => true
  | .fuse req rec _ => Requester.ok req && fits 10 rec
  | .bootMboxGo req => Requester.ok req
  | .bootFetchComplete srcs => srcsOk srcs
  | .fwReqTimeout p => below 64 p
  | .fwFetchRetry p => below 64 p
  | .fwDataRx => true
  | .fwReqRx => true
  | .mgmtForward => true
  | .mgReadRx => true
  | .mgWriteRx => true
  | .mgMsgRx => true
  | .mgRespRx => true
  | .mailboxRead req m => Requester.ok req && below 8 m
  | .mailboxWrite req m => Requester.ok req && below 8 m
  | .mailboxMsg req m => Requester.ok req && below 8 m
  | .mailboxRetry m => below 8 m
  | .mcStart req core => Requester.ok req && below 4 core
  | .mcReset req core => Requester.ok req && below 4 core
  | .mcException core => below 4 core
  | .readbackCapture req v => Requester.ok req && fits 32 v
  | .monHelp line => lineOk line
  | .monId line => lineOk line
  | .monRd line => lineOk line
  | .monRbk line => lineOk line
  | .monFlt line => lineOk line
  | .monTime line => lineOk line
  | .monBoot line => lineOk line
  | .monUnlock line => lineOk line
  | .monResp line => lineOk line
  | .monLock line => lineOk line
  | .monWr line => lineOk line
  | .monMode line => lineOk line
  | .monBaud line => lineOk line
  | .monMcrun line => lineOk line
  | .monFuse line _ => lineOk line
  | .monReset line => lineOk line
  | .monLineInvalid line => lineOk line
  | .monitorIdleTimeout => true
  | .unlockLockoutEnd => true
  | .thermalConversion k temp => below 24 k && fits 16 temp
  | .railWithinLimits rail => below 3 rail
  | .perstNDeassert h status vfs => below 4 h && fits 32 status && fits 8 vfs
  | .frameLockLost n => below 128 n
  | .initBrickTx p => below 64 p
  | .sleepMaskWrite p m => below 64 p && fits 2 m
  | .orderRecordReadReturn _ r => readOk r
  | .overflowRecordReadReturn _ r => readOk r
  | .keyDescriptorReadReturn _ r => readOk r
  | .targetDataReadReturn _ r => readOk r
  | .bootImageReadReturn r => readOk r
  | .prbsRateInjection n => below 128 n

end Sys2Proof
end

