-- ==== Sys2Proof/Safety.lean ====
section
/-! DEFINITION. What counts as a safe run, in the terms the statements use: no step stops, and the queue holds only commands
that can be given. -/
namespace Sys2Proof

/-- A step goes on: it neither faults nor is refused. -/
def goesOn (s : Machine.State) : Prop := ∃ t, Machine.step s = .next t

/-- Every command that waits can be given (WellFormed.lean). -/
def queueOk (s : Machine.State) : Prop := ∀ c ∈ s.pending, c.wf = true

/-- The run from a state goes on for `n` steps, with a queue of commands that can be given throughout. -/
def safeFor : Nat → Machine.State → Prop
  | 0, s => queueOk s
  | n + 1, s => queueOk s ∧ ∃ t, Machine.step s = .next t ∧ safeFor n t

/-- Every table whose unlisted keys read as their reset value is in its canonical form: keys rising, no key listed at that
value, so that equal machines are equal data. -/
def canonical (s : Machine.State) : Prop :=
  Machine.Tbl.wf Machine.resetWord s.regs ∧ Machine.Tbl.wf Machine.resetSet s.sets ∧ Machine.Tbl.wf (fun _ => 0) s.ctrs ∧
  Machine.Tbl.wf Machine.Src.reset s.srcs ∧ Machine.Tbl.wf (fun _ => Machine.Bank.reset) s.banks ∧
  Machine.Tbl.wf (fun _ => Machine.Lnk.reset) s.lnk ∧ Machine.Tbl.wf (fun _ => Machine.XUnit.reset) s.xlt

/-- R48, R70: the cycle lies within a course, and one of the two sets is active. -/
def clockOk (s : Machine.State) : Prop := s.crs.cycle < 1280 ∧ s.crs.active < 2

/-- R29: the moves between modes that the transition table lists, a mode kept, and a full reset, whose one step passes
through OFF to STRAP (R524). -/
def modeMove : Machine.Mode → Machine.Mode → Bool
  | .off, t => t == .off || t == .strap
  | _, .off => true
  | _, .strap => true
  | .strap, t => t == .monitor || t == .fenced
  | .monitor, t => t == .monitor || t == .train || t == .fenced
  | .train, t => t == .train || t == .monitor || t == .transit || t == .fenced
  | .transit, t => t == .transit || t == .service || t == .drain || t == .fenced
  | .service, t => t == .service || t == .drain || t == .fenced
  | .drain, t => t == .drain || t == .service || t == .transit || t == .fenced
  | .fenced, t => t == .fenced

/-- A write at an offset by a party that may write any register (R9, R523) reaches the device in a mode in which it acts: not
FENCED (R36, R37), and in STRAP not a host function outside GLB and MGT (R550). -/
def mayConfigure (s : Machine.State) (req : Requester) (off : Nat) : Prop :=
  s.canAccess req = true ∧ req.privileged = true ∧ s.mode ≠ .fenced ∧ s.strapHidden req off = false

/-- The parts of the state, by name. -/
inductive Part where
  | mode | glb | crs | regs | sets | ctrs | latches | srcs | banks
  | phy | lnk | rte | sch | hif | trn | mch | rma | lck
  | brg | col | ltl | bst | mgt | xlt | out | free | pending
deriving DecidableEq, Repr

/-- From `s` to `t` no part of the state has changed but those of the list `w`. -/
structure OnlyWrites (w : List Part) (s t : Machine.State) : Prop where
  mode : ¬ Part.mode ∈ w → t.mode = s.mode
  glb : ¬ Part.glb ∈ w → t.glb = s.glb
  crs : ¬ Part.crs ∈ w → t.crs = s.crs
  regs : ¬ Part.regs ∈ w → t.regs = s.regs
  sets : ¬ Part.sets ∈ w → t.sets = s.sets
  ctrs : ¬ Part.ctrs ∈ w → t.ctrs = s.ctrs
  latches : ¬ Part.latches ∈ w → t.latches = s.latches
  srcs : ¬ Part.srcs ∈ w → t.srcs = s.srcs
  banks : ¬ Part.banks ∈ w → t.banks = s.banks
  phy : ¬ Part.phy ∈ w → t.phy = s.phy
  lnk : ¬ Part.lnk ∈ w → t.lnk = s.lnk
  rte : ¬ Part.rte ∈ w → t.rte = s.rte
  sch : ¬ Part.sch ∈ w → t.sch = s.sch
  hif : ¬ Part.hif ∈ w → t.hif = s.hif
  trn : ¬ Part.trn ∈ w → t.trn = s.trn
  mch : ¬ Part.mch ∈ w → t.mch = s.mch
  rma : ¬ Part.rma ∈ w → t.rma = s.rma
  lck : ¬ Part.lck ∈ w → t.lck = s.lck
  brg : ¬ Part.brg ∈ w → t.brg = s.brg
  col : ¬ Part.col ∈ w → t.col = s.col
  ltl : ¬ Part.ltl ∈ w → t.ltl = s.ltl
  bst : ¬ Part.bst ∈ w → t.bst = s.bst
  mgt : ¬ Part.mgt ∈ w → t.mgt = s.mgt
  xlt : ¬ Part.xlt ∈ w → t.xlt = s.xlt
  out : ¬ Part.out ∈ w → t.out = s.out
  free : ¬ Part.free ∈ w → t.free = s.free
  pending : ¬ Part.pending ∈ w → t.pending = s.pending

/-- The parts that raising an event writes (R463 to R465, R247): the source, its bank, the counters, GLB's own consequences, the
event queue with its record and interrupt, and what the device shows of them. -/
def event : List Part := [.glb, .ctrs, .srcs, .banks, .hif, .out]

/-- Every part but the queue: a register write may reach any register, and a mode's entry and a reset reach every block. -/
def anything : List Part := [.mode, .glb, .crs, .regs, .sets, .ctrs, .latches, .srcs, .banks, .phy, .lnk, .rte, .sch, .hif, .trn, .mch, .rma,
  .lck, .brg, .col, .ltl, .bst, .mgt, .xlt, .out, .free]

/-- The parts that a command may write: no command changes another part of the state. -/
def writes : Instr → List Part
  | .resetDeassert _ _ _ | .resetNAssert | .railOutOfLimits _ | .fullReset _ _ | .registerWrite _ _ _ _ | .setupLockSet _
  | .deviceIdWrite _ _ | .modeReqWrite _ _ | .modeChange | .enterFenced | .courseBoundary | .alignCtrlWrite _ _
  | .swapArm _ | .swapDisarm _ | .shadowCopy _ | .shadowWrite _ _ _ | .portRoleWrite _ _ _ | .lifeWrite _ _ | .keySet _
  | .keyClear _ | .regionSet _ | .regionClear _ | .ctxReset _ | .ctxFlush _ | .colTreeWrite _ _ _ _ | .treeKeySet _
  | .resume _ | .windowEntryWrite _ _ _ _ _ | .faultForce _ _ _ _ | .faultStatusClear _ _ _ _ | .bootFetchComplete _
  | .mgReadRx | .mgWriteRx | .readbackCapture _ _ | .monWr _ | .monMode _ | .monReset _ => anything
  | .romSelfTestDone _ => event ++ [.regs, .free]
  | .hostPortReset _ _ => event ++ [.regs, .lnk, .rte, .sch, .trn, .mch, .rma, .lck, .brg, .col, .bst, .mgt, .xlt, .free]
  | .lowHalfRead _ _ _ => event ++ [.latches, .xlt, .free]
  | .fencePeriodEnd | .swapTakeEffect => event ++ [.crs, .phy, .lnk, .rte, .sch, .col, .free]
  | .referenceLoss | .sqDoorbell _ _ _ _ | .eqDoorbell _ _ _ _ | .deviceEqDoorbell _ _ _ | .eventsLost _
  | .thermalConversion _ _ => event
  | .courseMarkRx _ _ => event ++ [.crs, .regs]
  | .followBetterRoot | .aligned | .shadowBusyEnd => [.crs]
  | .alignStep | .alignLost => event ++ [.crs]
  | .copyDone => event ++ [.crs, .regs, .sets, .col]
  | .codewordRx _ _ _ | .sleepWake _ _ | .frameLock _ | .tapResponseTimeout _ | .trainAttemptTimeout _
  | .signalAbsentTimeout _ | .signalReturn _ | .laneRestart _ | .pllRelock _ | .frameLockLost _ => event ++ [.phy, .lnk, .rte]
  | .fecLockLost _ | .markerLockLost _ | .trainingFrameRx _ _ _ => event ++ [.crs, .phy, .lnk, .rte, .free]
  | .markerTx _ | .dataStart _ | .controlBrickTx _ => [.crs, .ctrs, .phy, .lnk, .out, .free]
  | .markerRx _ _ => event ++ [.crs, .phy, .lnk, .rte, .sch, .trn, .mch, .free]
  | .tapResponse _ | .rxReady _ _ _ | .prbsInjectOne _ | .prbsRateInjection _ => [.phy, .out]
  | .pllLossOfLock _ => event ++ [.crs, .phy, .lnk, .free]
  | .testEnter _ _ | .testExit _ _ | .sleepMaskWrite _ _ => event ++ [.crs, .regs, .phy, .lnk, .rte, .free]
  | .prbsCheckerLock _ _ _ _ _ => [.ctrs, .phy, .out, .free]
  | .fecInject _ => [.regs, .phy, .out, .free]
  | .sequencedBrickRx _ _ _ _ _ | .abortBrickRx _ _ _ _ | .congRowRx _ | .congColRx _ => event ++ [.lnk, .rte]
  | .brickCrcError _ | .reservedBrickRx _ => event ++ [.lnk]
  | .controlBrickRx _ _ _ _ => event ++ [.crs, .regs, .lnk, .rte, .sch, .col]
  | .fenceBrickRx _ | .replayTimerExpiry _ | .initTimeout _ | .keepaliveTimeout _ => event ++ [.crs, .lnk, .rte, .sch, .col]
  | .initBrickRx _ _ => event ++ [.regs, .lnk, .rte, .sch]
  | .brickTx _ => [.ctrs, .phy, .lnk, .rte, .sch, .out, .free]
  | .replayBrickTx _ => [.ctrs, .phy, .lnk, .out, .free]
  | .linkInitStart _ | .phyDown _ | .phyUp _ | .linkReinit _ => [.lnk]
  | .packetRoute _ | .outputSchedule _ => event ++ [.lnk, .rte, .sch]
  | .congColTx => [.rte, .sch]
  | .portDead _ => event ++ [.lnk, .rte, .sch, .free]
  | .portRevive _ => [.rte]
  | .packetInject _ => event ++ [.rte, .sch, .trn, .free]
  | .deferredRetest => [.ctrs, .sch, .trn, .free]
  | .cqDoorbell _ _ _ _ | .msgCancel _ => event ++ [.mch, .free]
  | .epCreate _ | .epQuarantineEnd _ | .sqDestroy _ | .sqDestroyComplete _ | .cqCreate _ | .cqDestroy _ | .eqCreate _
  | .eqDestroy _ | .fnCmdUndefined _ _ | .nop _ => [.hif]
  | .epDestroy _ => event ++ [.lnk, .rte, .sch, .trn, .mch, .col, .free]
  | .epDestroyComplete _ => event ++ [.lnk, .rte, .sch, .trn, .mch, .free]
  | .sqCreate _ | .fnGroupsWrite _ _ _ => [.regs, .hif]
  | .sqRestart _ => [.regs, .hif, .xlt]
  | .cqReset _ | .transportSend _ _ | .transportRx _ | .ackRx _ | .resultRx | .retxTimerExpiry _ _ | .earlyRetx _ _
  | .generationRoll _ | .ctxErrorExit _ | .responseTimeout _ | .msgSend _ | .msgPost _ | .msgMrecv _ | .eagerRx | .rtsRx
  | .rvGetRx | .rvDataRx | .skipRx | .putRx | .getRx | .atomicRx | .atomicExecute _ | .atomicopCompletion _ _ | .getDataRx
  | .atomicDataRx | .flAcquire _ | .flRelease _ | .flRenew _ | .flBreak _ | .flTakeRx _ | .flPollRx _ | .flReleaseRx _
  | .flReleaseAbandonedRx _ | .flRenewRx _ | .flBreakRx _ | .flReplyRx | .forcedConsequence _ _
  | .overflowRecordReadReturn _ _ | .targetDataReadReturn _ _
    => event ++ [.regs, .lnk, .rte, .sch, .trn, .mch, .rma, .lck, .brg, .col, .xlt, .free]
  | .flr _ | .contextLoad _ _ | .orderRecordReadReturn _ _ | .keyDescriptorReadReturn _ _
    => event ++ [.regs, .lnk, .rte, .sch, .trn, .mch, .rma, .lck, .brg, .col, .bst, .xlt, .free]
  | .flrComplete _ | .pageWalk _ | .walkReadReturn _ _ _ | .xltInvAddr _ | .xltInvAs _ | .xltInvFn _ | .xltInvAll _
    => event ++ [.regs, .lnk, .bst, .xlt, .free]
  | .workFetch => [.ctrs, .hif, .out]
  | .descriptorReadReturn _ _ | .entryRetire _ | .flushCompletion _ | .cqOverflow _ => event ++ [.free]
  | .tlbAgeExpiry _ => [.ctrs, .xlt]
  | .xltInvComplete _ => [.hif, .out]
  | .xltLock _ | .xltUnlock _ => event ++ [.regs, .lnk, .bst, .xlt]
  | .contextEvict _ => [.ctrs, .trn, .out]
  | .ackCoalesceExpiry _ _ | .ackRateRelease _ _ => [.sch, .trn]
  | .rnrResend _ => [.trn]
  | .msgProbe _ => [.hif, .mch, .free]
  | .msgPostLb _ | .rvWaitTimeout _ => [.hif, .mch]
  | .skipSend => event ++ [.trn, .mch, .free]
  | .overflowRefill _ _ => event ++ [.mch]
  | .rmaPut _ | .rmaGet _ | .rmaPutNotify _ | .rmaAtomic _ => [.hif, .trn, .free]
  | .keyReg _ | .keyRevoke _ => [.ctrs, .hif, .rma, .bst, .xlt, .out, .free]
  | .keyRevokeComplete _ => [.regs, .ctrs, .hif, .rma, .bst, .xlt, .out, .free]
  | .keyQuarantineEnd _ => [.ctrs, .hif, .rma]
  | .keyInv _ | .keyInvComplete _ => [.hif, .rma]
  | .cellAcquire _ | .cellTry _ | .cellRelease _ | .cellWithdraw _ => event ++ [.lck, .free]
  | .flPollSend _ => [.trn, .lck, .free]
  | .colJoin _ => [.hif, .col]
  | .colLeave _ => event ++ [.rte, .sch, .col, .free]
  | .colOp _ => [.ctrs, .hif, .col]
  | .memberChunkRead _ _ _ | .colUpRx | .colDownRx => event ++ [.rte, .sch, .col, .xlt, .free]
  | .chunkSendUp _ | .colAbortRx | .colOpTimeout _ => event ++ [.rte, .sch, .col]
  | .treeResumeEffect _ => [.col]
  | .bar4Write _ _ _ _ => [.ctrs, .brg, .free]
  | .windowWriteSend _ => [.ctrs, .trn, .brg, .free]
  | .bar4Read _ _ _ _ _ => [.ctrs, .trn, .brg, .out, .free]
  | .windowReadComplete _ => event ++ [.regs, .trn, .brg]
  | .windowReadTimeout _ | .windowWriteFail _ => event ++ [.regs, .trn, .brg, .free]
  | .prefetchExpiry _ => [.brg]
  | .mctpPacketRx _ _ _ | .alertPull _ _ _ | .i3cIbiRx _ _ _ _ => event ++ [.rte, .sch, .ltl, .mgt, .xlt, .free]
  | .lintelRecordRx => [.ctrs, .ltl]
  | .mctpSend _ _ => event ++ [.ltl]
  | .sidebandChange _ => event ++ [.regs, .rte, .sch, .ltl, .mgt, .xlt, .free]
  | .sliceStart => [.regs, .lnk, .bst]
  | .run _ _ _ | .sliceSkip | .sliceAbort | .fuse _ _ _ => event ++ [.regs, .lnk, .bst]
  | .unitReady => [.regs, .srcs, .trn, .mch, .rma, .bst, .xlt]
  | .testComplete _ _ => event ++ [.regs, .lnk, .bst, .free]
  | .bootMboxGo _ | .mgRespRx => [.regs, .mgt]
  | .fwReqTimeout _ => [.regs, .rte, .sch, .mgt, .out]
  | .fwFetchRetry _ | .fwDataRx => [.regs, .rte, .sch, .mgt]
  | .fwReqRx => [.ctrs, .rte, .sch, .mgt]
  | .mgmtForward => event ++ [.rte, .sch, .mgt]
  | .mgMsgRx => [.ltl, .mgt, .out]
  | .mailboxRead _ _ | .mailboxWrite _ _ | .mailboxMsg _ _ | .mailboxRetry _
    => event ++ [.regs, .rte, .sch, .mgt, .xlt, .free]
  | .mcStart _ _ | .mcReset _ _ | .mcException _ | .monMcrun _ => event ++ [.regs, .trn, .lck, .mgt, .xlt, .free]
  | .monHelp _ | .monId _ | .monFlt _ | .monTime _ | .monBoot _ | .monLock _ | .monBaud _ | .monLineInvalid _ => [.mgt, .out]
  | .monRd _ => event ++ [.latches, .mgt, .xlt]
  | .monRbk _ => event ++ [.regs, .mgt, .free]
  | .monUnlock _ => [.mgt, .out, .free]
  | .monResp _ => event ++ [.mgt]
  | .monFuse _ _ => event ++ [.regs, .lnk, .bst, .mgt]
  | .monitorIdleTimeout | .unlockLockoutEnd => [.mgt]
  | .railWithinLimits _ => [.glb]
  | .perstNDeassert _ _ _ => [.glb, .hif]
  | .initBrickTx _ => event ++ [.regs, .phy, .lnk, .rte, .sch, .free]
  | .bootImageReadReturn _ => [.regs, .mgt, .out]

/-- The registers whose write does more than their access codes say (`regWrite`), and the words of the two keys. -/
def ownBehaviour : List Machine.RegId :=
  [.GLB_MODE, .GLB_MODE_REQ, .GLB_RESET_CTRL, .GLB_SETUP_LOCK, .GLB_DEVICE_ID, .CRS_ALIGN_CTRL, .CRS_ALIGN_STATUS, .CRS_SWAP_AT_LO,
   .CRS_SWAP_AT_HI, .CRS_SWAP_CTRL, .LAN_PT_CTRL, .LAN_PT_STATUS, .LAN_LN_CTRL, .LAN_LN_PRBS_CTRL, .LNK_CTRL, .LNK_STATUS,
   .LNK_POOL_CFG, .RTE_LIFE, .HIF_FN_STATUS, .HIF_FN_GROUPS, .HIF_FN_CMD, .WIN_FN, .WIN_PF, .TRN_CMD, .TRN_KEY, .MCH_OVF,
   .RMA_KEYTAB, .RMA_FN_KEYS, .LCK_FL_CMD, .LCK_CELL, .LCK_CELL_CFG, .COL_CMD, .COL_KEY, .LTL_BUS_CFG, .LTL_ROUTE, .BST_CMD,
   .MGT_MC_CTRL, .MGT_BOOT_MBOX, .MGT_MG, .RBK_SEL]

end Sys2Proof
end

