-- ==== Sys2Proof/Certificates/Slice0/Obligations.lean ====
section
/-! DEFINITION. The statements for the provers, each over every state that meets its hypotheses. A statement that names a command's
next state as an operation of the model names the operation whose docstring in Machine/ cites the same rule. -/
section
open Sys2Proof Sys2Proof.Machine

/-! ### The block as a whole -/

/-- A step takes the command at the front of the queue and runs it on the state with the queue's rest. -/
def Obligations.StepRunsTheFrontCommand : Prop :=
  ∀ (c : Instr) (q : List Instr) (s : State), s.pending = c :: q → step s = exec c { s with pending := q }

/-- On an empty queue a step is one core cycle (the model's choice, notes/assumptions/2): in OFF nothing happens; in STRAP no course
counts (R50); in every other mode the cycle goes on, COURSE_MARK is high in the first 64 cycles (R51), and cycle 1,279 is followed by
cycle 0 of the next course (R48). At cycle 0 a swap, a fence, a mode change, a step and a better root that are due come first (R68), and
forced events that are due in the new cycle come with it (R469): the clauses say what a cycle without them is. -/
def Obligations.IdleStepIsOneCycle : Prop :=
  let quiet (s : State) : Prop := ∀ e ∈ s.nextCycle.srcs, e.2.due = false
  (∀ s : State, s.pending = [] → ∃ t, step s = .next t ∧ t.pending = []) ∧
  (∀ s : State, s.pending = [] → s.mode = .off → step s = .next s) ∧
  (∀ s : State, s.pending = [] → s.mode = .strap → s.glb.fencePend = none → quiet s → ∃ t, step s = .next t ∧ t.mode = .strap ∧ t.crs = s.crs) ∧
  (∀ s : State, s.pending = [] → s.counting = true → s.crs.cycle < 1279 →
    (s.crs.cycle = 0 → s.swapDue = false ∧ s.glb.fencePend = none ∧ s.modeDue = false ∧ s.stepDue = false ∧ s.followDue = none) →
    quiet s → ∃ t, step s = .next t ∧ t.mode = s.mode ∧ t.crs = { s.crs with cycle := s.crs.cycle + 1, ball := decide (s.crs.cycle + 1 < 64) }) ∧
  (∀ s : State, s.pending = [] → s.counting = true → s.crs.cycle = 1279 →
    quiet s → ∃ t, step s = .next t ∧ t.mode = s.mode ∧ t.crs = { s.crs with course := s.crs.course + 1, cycle := 0, ball := true })

/-- No command stops the block: each answers a next state, whatever the state and the operands. -/
def Obligations.EveryCommandGoesOn : Prop := ∀ (c : Instr) (s : State), ∃ t, exec c s = .next t

/-- Equal machines are equal data: from every state whose tables are in their canonical form, whose cycle lies within a course
(R48) and one of whose two sets is active (R70), a step leads to such a state. -/
def Obligations.StepKeepsTables : Prop :=
  ∀ s t : State, canonical s → clockOk s → step s = .next t → canonical t ∧ clockOk t

/-- The machine after reset: in STRAP (the model's choice, notes/assumptions/4), with no command waiting, tables in their canonical form, the cycle within a course, and the
run from it does not stop at its first step. -/
def Obligations.ResetMeetsIt : Prop :=
  canonical State.reset ∧ clockOk State.reset ∧ State.reset.mode = .strap ∧ State.reset.pending = [] ∧ queueOk State.reset ∧ goesOn State.reset

/-- A step takes exactly the command at the front, takes back nothing the device has done to the outside, and never draws a free
value (notes/assumptions/1) twice. -/
def Obligations.StepTakesOneCommand : Prop :=
  ∀ s t : State, step s = .next t → t.pending = s.pending.tail ∧ s.out <+: t.out ∧ s.free ≤ t.free

/-- R29: transitions that the table does not list do not occur: a step moves between modes only as `modeMove` lists. -/
def Obligations.ModesMoveAsListed : Prop := ∀ s t : State, step s = .next t → modeMove s.mode t.mode = true

/-- R31, R525: the set-up lock, once set, stays set until the device passes through OFF; a full reset's one step ends in STRAP.
R38: a thermal trip stays in force until RESET_N is asserted or a rail leaves its limits: no other command and no cycle
without a command ends it. -/
def Obligations.LocksHold : Prop :=
  (∀ s t : State, s.glb.lock = true → step s = .next t → t.glb.lock = true ∨ t.mode = .off ∨ t.mode = .strap) ∧
  (∀ s t : State, s.glb.trip = true → s.pending.head? ≠ some .resetNAssert → (∀ r, s.pending.head? ≠ some (.railOutOfLimits r)) →
     step s = .next t → t.glb.trip = true)

/-- R13: a counter wraps from 0xFFFF_FFFF_FFFF_FFFF to zero; the count raises no event and sets no flag: no part of the state but
the counters changes, and of these no other. -/
def Obligations.CounterWraps : Prop :=
  ∀ (s : State) (c : Nat),
    (s.ctr c = 0xFFFFFFFFFFFFFFFF → (s.bump c).ctr c = 0) ∧ (s.bump c).ctr c = s.ctr c + 1 ∧
    (∀ k, k ≠ c → (s.bump c).ctr k = s.ctr k) ∧ OnlyWrites [.ctrs] s (s.bump c)

/-- R40: the comparison of two values in an n-bit sequence space. -/
def Obligations.SerialComparison : Prop :=
  ∀ n a b : Nat, 1 ≤ n → a < 2 ^ n → b < 2 ^ n →
    let d := ((b : Int) - a) % 2 ^ n
    serialCmp a b n = (if d = 0 then .equal else if d < 2 ^ (n - 1) then .before else if d > 2 ^ (n - 1) then .after else .unordered)

/-- What the parts of the state read as after a write, and that nothing else of them changes: a register word, a word of a
configuration set, a counter, an event source, a fault bank, a lane, a link engine, a translation unit (R9, R13, R70, R463). -/
def Obligations.PartsReadBack : Prop :=
  (∀ (s : State) (o v : Nat), (s.setWord o v).word o = v % 2 ^ 32 ∧ (∀ k, k ≠ o → (s.setWord o v).word k = s.word k) ∧
    OnlyWrites [.regs] s (s.setWord o v)) ∧
  (∀ (s : State) (b o v : Nat), o < 2 ^ 26 → (s.putSetW b o v).setW b o = v % 2 ^ 32 ∧
    (∀ c k, k < 2 ^ 26 → (c % 2 ≠ b % 2 ∨ k ≠ o) → (s.putSetW b o v).setW c k = s.setW c k) ∧ OnlyWrites [.sets] s (s.putSetW b o v)) ∧
  (∀ (s : State) (g : Nat) (x : Src), (s.setSrc g x).src g = x ∧ (∀ k, k ≠ g → (s.setSrc g x).src k = s.src k) ∧ OnlyWrites [.srcs] s (s.setSrc g x)) ∧
  (∀ (s : State) (c : Nat) (x : Bank), (s.setBank c x).bank c = x ∧ (∀ k, k ≠ c → (s.setBank c x).bank k = s.bank k) ∧
    OnlyWrites [.banks] s (s.setBank c x)) ∧
  (∀ (s : State) (n : Nat) (x : Lane), (s.setLn n x).ln n = x ∧ (∀ k, k ≠ n → (s.setLn n x).ln k = s.ln k) ∧ OnlyWrites [.phy] s (s.setLn n x)) ∧
  (∀ (s : State) (p : Nat) (x : Lnk), (s.setLk p x).lk p = x ∧ (∀ k, k ≠ p → (s.setLk p x).lk k = s.lk k) ∧ OnlyWrites [.lnk] s (s.setLk p x)) ∧
  (∀ (s : State) (u : Nat) (x : XUnit), (s.setXu u x).xu u = x ∧ (∀ k, k ≠ u → (s.setXu u x).xu k = s.xu k) ∧ OnlyWrites [.xlt] s (s.setXu u x))

/-! ### Resets, power and modes -/

/-- R29: RESET_N asserted or a rail outside its limits (R535) takes the device to OFF: every part of the state is as after reset
but what lies outside the device or is fused; soft repairs are lost, fuses are not, and a trip ends (R38). In OFF the levels
alone change. R29, R99, R526, R538: with the rails within their limits, RESET_N deasserted takes the device from OFF to STRAP,
where the levels at the strap balls are sampled once, lane 0 of each boot link begins training and all else is as after reset.
In any other mode the levels at the balls change and nothing else. -/
def Obligations.ResetAndStrap : Prop :=
  (let lost (s t : State) : Prop := t.mode = .off ∧ t.glb.trip = false ∧ t.bst = { State.reset.bst with fuses := s.bst.fuses } ∧
     OnlyWrites [.mode, .glb, .bst, .out, .free, .pending] State.reset t
   (∀ s : State, s.mode ≠ .off → ∃ t, exec .resetNAssert s = .next t ∧ t.glb.resetN = false ∧ lost s t) ∧
   (∀ s : State, s.mode = .off → exec .resetNAssert s = .next { s with glb := { s.glb with resetN := false, trip := false } }) ∧
   (∀ (s : State) (r : Nat), r < 3 → s.mode ≠ .off → ∃ t, exec (.railOutOfLimits r) s = .next t ∧ t.railsGood = false ∧ lost s t) ∧
   (∀ (s : State) (r : Nat), r < 3 → s.mode = .off → exec (.railOutOfLimits r) s = .next ({ s with glb := { s.glb with trip := false } }.setRail r false)) ∧
   (∀ (s : State) (r : Nat), r < 3 → exec (.railWithinLimits r) s = .next (s.setRail r true))) ∧
  ((∀ (s : State) (b : Nat) (h r : Bool), s.mode = .off → s.railsGood = true → ∃ t, exec (.resetDeassert b h r) s = .next t ∧
     t.mode = .strap ∧ t.glb.strapBoot = b % 4 ∧ t.glb.strapHpmode = h ∧ t.glb.strapTimeroot = r ∧ t.glb.resetN = true ∧
     OnlyWrites [.mode, .glb, .crs, .regs, .ctrs, .srcs, .banks, .phy, .lnk, .rte, .hif, .bst, .out, .free, .pending] State.reset t) ∧
   (∀ (s : State) (b n : Nat) (h : Bool), s.mode = .off → s.railsGood = true → n < 2 → ∃ t, exec (.resetDeassert b h false) s = .next t ∧
     (t.ln (laneOf (62 + n) 0)).st = (if bit b n then LaneSt.frame else .disabled)) ∧
   (∀ (s : State) (b : Nat) (h r : Bool), s.mode ≠ .off →
     exec (.resetDeassert b h r) s =
       .next { s with glb := { s.glb with resetN := true, ballBoot := b % 4, ballHpmode := h, ballTimeroot := r } }))

/-- R524: a write of GLB_RESET_CTRL with the key and full_reset, by a party that may write it, resets the device in every mode but
OFF, FENCED included, and ends in STRAP when RESET_N is deasserted and the rails are good; any other write of it, and one
while a thermal trip is in force, is counted in GLB_BAD_ACCESS_COUNT and does nothing else. R529, R539: PERST_N or a hot reset
of a present host port resets that port alone; its deassertion makes its PF and its VFs exist. R547, R495, R487: the ROM
self-test passes on to the image fetch unless a failing unit fences; the sensors' conversions are recorded, warn above 105 °C
and trip at 115 °C. -/
def Obligations.OtherResets : Prop :=
  ((∀ (s : State) (req : Requester) (v : Nat), s.canAccess req = true → req.privileged = true → bits v 16 16 = 0xD1E5 → bit v 0 = true →
     s.liveBit 3 = false → ∃ t, exec (.fullReset req v) s = .next t ∧ t = s.fullReset.settle ∧
       t.mode = (if s.glb.resetN ∧ s.railsGood then .strap else .off)) ∧
   (∀ (s : State) (req : Requester) (v : Nat), s.canAccess req = true → req.privileged = true →
     ¬ (bits v 16 16 = 0xD1E5 ∧ bit v 0 = true ∧ s.liveBit 3 = false) → exec (.fullReset req v) s = .next s.badAccess.settle)) ∧
  ((∀ (s : State) (h : Nat), s.hpPresent h = true → s.mode ≠ .off → exec (.hostPortReset h false) s =
     .next { s.hostPortReset h with glb := { (s.hostPortReset h).glb with hpStatus := Tbl.del (s.hostPortReset h).glb.hpStatus h } }) ∧
   (∀ (s : State) (h : Nat), OnlyWrites [.glb, .regs, .ctrs, .srcs, .banks, .lnk, .rte, .sch, .hif, .trn, .mch, .rma, .lck, .brg,
     .col, .bst, .mgt, .xlt, .out, .free] s (s.hostPortReset h)) ∧
   (∀ (s : State) (h : Nat), h < 4 → ∃ t, exec (.hostPortReset h true) s = .next t ∧
     exec (.hostPortReset h false) { s with glb := { s.glb with perstN := s.glb.perstN.set h false } } = .next t) ∧
   (∀ (s : State) (h st n : Nat), h < 4 → s.mode ≠ .off → { s with glb := { s.glb with perstN := s.glb.perstN.set h true } }.hpPresent h = true →
     ∃ t, exec (.perstNDeassert h st n) s = .next t ∧ t.glb.perstN = s.glb.perstN.set h true ∧
       (∀ i ≤ min n 255, (t.fn (h * 256 + i)).exists_ = true) ∧
       (st % 16 = 6 → ∃ v, Tbl.find? t.glb.hpStatus h = some v ∧ bits v 0 4 = 6 ∧ bit v 29 = true))) ∧
  ((∀ (s : State) (l : List (Nat × Nat × List (Nat × Nat))), s.mode = .strap → s.g Reg.GLB_BOOT_STATUS.stage < 3 → s.glb.fencePend = none →
     ∃ u, u = l.foldl (fun t f => t.romFail f.1 f.2.1 f.2.2) s.fusedRepairs ∧
       exec (.romSelfTestDone l) s = .next (u.put Reg.GLB_BOOT_STATUS.stage (if u.glb.fencePend.isNone then 3 else 2))) ∧
   (∀ (s : State) (k x : Nat), k < 24 → s.mode ≠ .off → ∃ t, exec (.thermalConversion k x) s = .next t ∧
     Tbl.find? t.glb.temps k = some (2 ^ 31 + x % 65536) ∧ (1840 ≤ signed (x % 65536) 16 → t.glb.trip = true) ∧
     (signed (x % 65536) 16 < 1840 → t.glb.trip = s.glb.trip)))

/-- R28: a mode request by a PF, a management core or the fabric manager is recorded in GLB_MODE_REQ, in place of an earlier one of its course;
one of an earlier course that still waits stays before it. At the next course boundary a request for a transition that the table lists,
with its condition true, changes the mode; any other leaves the mode, sets req_err and refused_mode and raises the mode-refused event. A
swap that is due comes before either (R68). -/
def Obligations.ModeRequests : Prop :=
  (∀ (s : State) (req : Requester) (v : Nat), mayConfigure s req Reg.GLB_MODE_REQ.off → ∀ o,
    o = (if s.glb.reqPending && s.glb.reqCourse != s.crs.course then some s.glb.target else s.glb.reqOld) → exec (.modeReqWrite req v) s =
    .next ({ s with glb := { s.glb with reqPending := true, requester := req.identity, target := v % 8, reqCourse := s.crs.course, reqOld := o } }.settle)) ∧
  (∀ s : State, s.glb.reqPending = true → s.counting = true → s.mode ≠ .fenced → s.crs.cycle = 0 → s.glb.reqCourse ≠ s.crs.course →
    s.glb.reqOld = none → s.swapDue = false → s.fenceDue = false → s.modeOk s.glb.target = true → ∃ t, exec .modeChange s = .next t ∧ t = s.enterMode (Mode.ofCode s.glb.target) ∧
      t.mode = Mode.ofCode s.glb.target ∧ (s.glb.lock = true ∨ t.mode = .transit → t.glb.lock = true)) ∧
  (∀ s : State, s.glb.reqPending = true → s.counting = true → s.mode ≠ .fenced → s.crs.cycle = 0 → s.glb.reqCourse ≠ s.crs.course →
    s.glb.reqOld = none → s.swapDue = false → (s.fenceDue = true ∨ s.modeOk s.glb.target = false) → ∃ t, exec .modeChange s = .next t ∧ t.mode = s.mode ∧
      t = { s with glb := { s.glb with reqPending := false, reqErr := true, refusedMode := s.glb.target } }.raise 0 0 0) ∧
  (∀ (s : State) (m : Nat), s.glb.reqOld = some m → s.counting = true → s.mode ≠ .fenced → s.crs.cycle = 0 → s.swapDue = false →
    ∃ t u : State, exec .modeChange s = .next t ∧ t.glb.reqPending = s.glb.reqPending ∧ OnlyWrites [.glb] u t ∧
      (s.fenceDue = false → s.modeOk m = true → t.mode = Mode.ofCode m ∧ u = { s with glb := { s.glb with reqOld := none } }.enterMode (Mode.ofCode m)) ∧
      (s.fenceDue = true ∨ s.modeOk m = false → t.mode = s.mode ∧
        u = { s with glb := { s.glb with reqOld := none, reqPending := false, reqErr := true, refusedMode := m } }.raise 0 0 0)) ∧
  (∀ s : State, s.swapDue = true → exec .modeChange s = .next s ∧ (s.mode ≠ .strap → exec .enterFenced s = .next s))

/-- R35: a cause that waits fences the device at once, from any mode but OFF: the fence sequence runs and the cause is recorded;
at the end of the sixteenth fenced course every transmitter goes to electrical idle. R36: in FENCED a BAR0 write of a
permitted form to any register but GLB_RESET_CTRL is discarded, doorbell writes are discarded, non-posted requests to BAR4
complete as Completer Abort and posted ones are discarded, while reads return register values. -/
def Obligations.FencedDevice : Prop :=
  ((∀ (s : State) (c : Nat), s.glb.fencePend = some c → s.fenceDue = true → s.mode ≠ .fenced → s.mode ≠ .off →
     ∃ t, exec .enterFenced s = .next t ∧ t = s.enterFenced c ∧ t.mode = .fenced) ∧
   (∀ s : State, s.mode = .fenced → s.glb.fenceTxOff = false → s.since s.glb.fenceFrom ≥ 16 → ∃ u, exec .fencePeriodEnd s = .next u ∧
     u.mode = .fenced ∧ u.glb.fenceTxOff = true ∧ (∀ n < 128, (u.ln n).st = .disabled) ∧
     ∃ t, t = ((List.range 64).filter (fun p => (s.lk p).st == .fencing)).foldl (fun t p => t.linkDown p 5)
       { s with glb := { s.glb with fenceTxOff := true } } ∧ u = t.lanesOff ((List.range 128).filter (fun n => (t.ln n).st != .disabled)))) ∧
  (∀ s : State, s.mode = .fenced →
     (∀ (req : Requester) (o n v : Nat), s.accessOk req o n = true → bar0Off req o ≠ Reg.GLB_RESET_CTRL.off → s.barWrite req o n v = s) ∧
     (∀ (req : Requester) (o n : Nat), s.canAccess req = true → s.readsHeld req = false → hostCore req o = none →
       (s.barRead req o n).2 < 2 ^ (8 * n) → exec (.lowHalfRead req ⟨0, o⟩ n) s =
       .next ((s.barRead req o n).1.emit (.readData o (Data.ofNat n (s.barRead req o n).2)))) ∧
     (∀ f o n d : Nat, exec (.sqDoorbell f o n d) s = .next s ∧ exec (.cqDoorbell f o n d) s = .next s ∧ exec (.eqDoorbell f o n d) s = .next s ∧
       exec (.deviceEqDoorbell f o ⟨n, d⟩) s = .next s) ∧
     (∀ (f o : Nat) (d : Data) (be : Nat), exec (.bar4Write f o d be) s = .next s) ∧
     (∀ f o n tag k : Nat, exec (.bar4Read f o n tag k) s = .next (s.completeErr (hpOf f) tag 4)))

/-- R525: a write of 1 to GLB_SETUP_LOCK sets the lock, from any party and in any mode in which writes act. R39, R54: a write of
GLB_DEVICE_ID that the lock lets through is discarded and counted when bit 19 or 18 is set, else it sets the identifier, which
a root then names; one that the lock holds changes nothing but the count of locked writes (R10). -/
def Obligations.SetupAndIdentity : Prop :=
  (∀ (s : State) (req : Requester), mayConfigure s req Reg.GLB_SETUP_LOCK.off →
     exec (.setupLockSet req) s = .next ({ s with glb := { s.glb with lock := true } }.settle)) ∧
  ((∀ (s : State) (req : Requester) (v : Nat), mayConfigure s req Reg.GLB_DEVICE_ID.off → s.rwlOpen = true → bits v 18 2 ≠ 0 →
     exec (.deviceIdWrite req v) s = .next s.badAccess.settle) ∧
   (∀ (s : State) (req : Requester) (v : Nat), mayConfigure s req Reg.GLB_DEVICE_ID.off → s.rwlOpen = true → bits v 18 2 = 0 →
     ∃ u : State, exec (.deviceIdWrite req v) s = .next u.settle ∧ u.me = v % 2 ^ 20 ∧ (s.isRoot = true → u.crs.rootId = v % 2 ^ 20)) ∧
   (∀ (s : State) (req : Requester) (v : Nat), mayConfigure s req Reg.GLB_DEVICE_ID.off → s.rwlOpen = false →
     exec (.deviceIdWrite req v) s = .next (if v % 2 ^ 20 = s.me then s.settle else ((s.bump Ctr.GLB_LOCKED_WRITE_COUNT).raise 5 0 0).settle)))

/-- R8, R9, R12, R37, R214, R449, R508: a BAR0 access by a requester that reaches the device: a write takes effect by the access codes of the
word, a read gives its data to the requester, of BAR2 zero (R214); a host port whose read slots are all taken brings no read, and in OFF
none answers. An access by a management core at a core address of its host windows is translated by the window's unit and then issued; a
disabled window, and a fault, raise an exception in the core. -/
def Obligations.RegisterAccess : Prop :=
  (∀ (s : State) (req : Requester) (o n v : Nat), s.canAccess req = true → hostCore req o = none → exec (.registerWrite req o n v) s = .next (s.barWrite req o n v).settle) ∧
  (∀ (s : State) (req : Requester) (o n : Nat), s.canAccess req = true → s.readsHeld req = false → hostCore req o = none → ∃ t, exec (.lowHalfRead req ⟨0, o⟩ n) s = .next t ∧
    t = (s.barRead req o n).1.emit (.readData o (Data.ofNat n (s.barRead req o n).2)) ∧
    OnlyWrites [.glb, .ctrs, .latches, .srcs, .banks, .hif, .xlt, .out] s t) ∧
  (∀ (s : State) (req : Requester) (b o n : Nat), s.canAccess req = true → s.readsHeld req = false → hostCore req o = none → b ≠ 0 →
    exec (.lowHalfRead req ⟨b, o⟩ n) s = .next (s.emit (.readData o (Data.ofNat n 0)))) ∧
  (∀ (s : State) (f b o n : Nat), (s.brg.reads.filter (fun r => r.1 == hpOf f)).length = 768 → exec (.lowHalfRead (.fn f) ⟨b, o⟩ n) s = .next s) ∧
  (∀ (s : State) (c o n v : Nat), c < 4 → 2 ^ 32 ≤ o → s.mode ≠ .off → s.mode ≠ .fenced → s.coreRuns c = true →
    (o < 9 * 2 ^ 32 → s.g (Reg.MGT_HWIN.enable c (o / 2 ^ 32 - 1)) = 0) →
    exec (.registerWrite (.mc c) o n v) s = .next (s.emit (.coreException c)) ∧
    exec (.lowHalfRead (.mc c) ⟨0, o⟩ n) s = .next (s.emit (.coreException c)) ∧
    exec (.lowHalfRead (.mc c) ⟨1, o⟩ n) s = .next (s.emit (.coreException c))) ∧
  (∀ (s s' : State) (c w x n v : Nat) (l : List (Nat × Nat)), c < 4 → w < 8 → x < 2 ^ 32 → s.mode ≠ .off → s.mode ≠ .fenced → s.coreRuns c = true →
    s.g (Reg.MGT_HWIN.enable c w) ≠ 0 → ∀ u, u = s.g (Reg.MGT_HWIN.unit c w) → s.unitPresent u = true → ∀ req : XReq,
    req = ⟨s.g (Reg.MGT_HWIN.as c w), s.g (Reg.MGT_HWIN.va_hi c w) * 2 ^ 32 + s.g (Reg.MGT_HWIN.va_lo c w) * 2 ^ 12 + x, 1, u * 256, true,
      s.g (Reg.MGT_HWIN.user_override c w) = 1, .access, .core c ((w + 1) * 2 ^ 32 + x)⟩ →
    (s.xlateRun u req n = (s', .run l) →
      exec (.registerWrite (.mc c) ((w + 1) * 2 ^ 32 + x) n v) s = .next (s'.writePieces u (u * 256) l (Data.ofNat n v))) ∧
    (s.xlateRun u { req with acc := 0 } n = (s', .run l) →
      exec (.lowHalfRead (.mc c) ⟨0, (w + 1) * 2 ^ 32 + x⟩ n) s = .next (s'.readRun u (u * 256) l))) ∧
  (∀ (s : State) (req : Requester) (b o n v : Nat), s.mode = .off →
    exec (.registerWrite req o n v) s = .next s ∧ exec (.lowHalfRead req ⟨b, o⟩ n) s = .next s)

/-! ### Register words -/

/-- R9, R10: what a write of `v` makes of each field of a register of the map: RW and SH take it, RWL where the lock lets it, W1C clears
and W1S sets the bits written 1, RO and WO keep the word. -/
def Obligations.AccessCodes : Prop :=
  ∀ b ∈ blocks, ∀ d ∈ b.regs, ∀ f ∈ d.fields, ∀ (old v : Nat) (rwl : Bool), old < 2 ^ 32 → v < 2 ^ 32 →
    let x := d.merge f.word old v rwl
    (f.acc = .RW ∨ f.acc = .SH → bits x f.lsb f.w = bits v f.lsb f.w) ∧
    (f.acc = .RWL → bits x f.lsb f.w = if rwl then bits v f.lsb f.w else bits old f.lsb f.w) ∧
    (f.acc = .W1C → ∀ i < f.w, bit x (f.lsb + i) = (bit old (f.lsb + i) && !bit v (f.lsb + i))) ∧
    (f.acc = .W1S → ∀ i < f.w, bit x (f.lsb + i) = (bit old (f.lsb + i) || bit v (f.lsb + i))) ∧
    (f.acc = .RO ∨ f.acc = .WO → bits x f.lsb f.w = bits old f.lsb f.w)

/-- R9, R10, R253, R523: a 32-bit write of a register without a behaviour of its own, by a requester that may write it, sets that word by its
access codes and no other; fields that the lock holds are counted and told of first. One by another requester, or of a register of an
absent translation unit, changes nothing. -/
def Obligations.PlainRegisterWrites : Prop :=
  ∀ (s : State) (req : Requester) (o v i j w : Nat) (d : RegDef), s.canAccess req = true → s.mode ≠ .fenced → o % 4 = 0 →
    s.loc req o = .reg d i j w → d.shadowed = false → d.id ∉ ownBehaviour → v < 2 ^ 32 → ∀ a, a = bar0Off req o →
    (State.mayWrite req d i = true → s.absentUnit d i = false → ∃ u : State, exec (.registerWrite req o 4 v) s = .next u.settle ∧
      u.word a = d.merge w (s.word a) v s.rwlOpen % 2 ^ 32 ∧ (∀ k, k ≠ a → u.word k = s.word k) ∧
      OnlyWrites (event ++ [.regs]) s u ∧
      (s.rwlOpen = true ∨ d.changesRwl w (s.word a) v = false → OnlyWrites [.regs] s u) ∧
      (s.rwlOpen = false → d.changesRwl w (s.word a) v = true →
        u.ctr Ctr.GLB_LOCKED_WRITE_COUNT = s.ctr Ctr.GLB_LOCKED_WRITE_COUNT + 1)) ∧
    (State.mayWrite req d i = false ∨ s.absentUnit d i = true → exec (.registerWrite req o 4 v) s = .next s.settle)

/-! ### Courses, alignment and the configuration sets -/

/-- R48, R47, R51: COURSE_BOUNDARY in a mode that counts: the course counter, 48 bits wide, goes up by one, the cycle is 0,
COURSE_MARK goes high, and the work of the course is done, which changes neither the mode nor the time; what is due at the
cycle 0 that it ends comes first (R69), and forced events that are due come with the new course (R469); the clauses say what a
boundary without them is. The loss of the reference raises its fatal source. That a course may be ended before its last cycle
is shown is the model's choice (notes/assumptions/11). A command whose condition does not hold changes nothing (the model's
choice, notes/assumptions/3). R57, R59, R60: a course mark that arrives on a link whose engine has left DOWN is stamped with
its time of arrival and may bring a parent, a phase error or a better root to follow; following it keeps the device's count,
and the rank of the root is the one its parent names. -/
def Obligations.CoursesAndMarks : Prop :=
  ((∀ s : State, s.counting = true →
     exec .courseBoundary s = .next (if s.crs.cycle = 0 then s.cycleZero else s).courseBoundary.forceTick) ∧
   (∀ s u : State, s.counting = true → u = (if s.crs.cycle = 0 then s.resumeTrees else s) →
     (s.crs.cycle = 0 → s.swapDue = false ∧ s.glb.fencePend = none ∧ s.modeDue = false ∧ s.stepDue = false ∧ s.followDue = none) →
     (∀ e ∈ u.courseBoundary.srcs, e.2.due = false) → ∃ t, exec .courseBoundary s = .next t ∧ t = u.courseBoundary ∧ t.mode = s.mode ∧
     t.crs = { s.crs with course := s.crs.course + 1, cycle := 0, ball := true } ∧
     OnlyWrites [.glb, .crs, .ctrs, .srcs, .banks, .phy, .lnk, .rte, .sch, .hif, .bst, .out, .free] u t) ∧
   (∀ s : State, s.counting = false → exec .courseBoundary s = .next s) ∧
   (∀ s : State, s.mode ≠ .off → exec .referenceLoss s = .next (s.level (srcCrs 0) true))) ∧
  ((∀ (s : State) (p : Nat) (m : Mark), p < 64 → s.counting = true → (s.lk p).st ≠ .down → (s.lk p).st ≠ .fencing →
     exec (.courseMarkRx p m) s = .next (s.courseMark p m)) ∧
   (∀ (s : State) (p : Nat) (m : Mark), (s.lk p).st = .down ∨ (s.lk p).st = .fencing → exec (.courseMarkRx p m) s = .next s) ∧
   (∀ (s u : State) (p : Nat) (m : Mark), u = { s with crs := { s.crs with rxMarks := Tbl.ins s.crs.rxMarks p ⟨m, s.localTicks, true⟩ } } →
     s.markPort p m.rootId = true → s.isRoot = false → s.crs.parent = some p →
     (s.crs.aligned = true → s.crs.rootValid = true → s.crs.rootId = m.rootId → s.courseMark p m = u.parentMark p m) ∧
     (s.crs.aligned = false → u.followBest.crs.parent = some p → s.courseMark p m =
       if u.followBest.crs.rootId = m.rootId then u.followBest.parentMark p m else u.followBest.phaseMark p m)) ∧
   (∀ (s : State) (p : Nat) (m : Mark), p < 64 → s.counting = true → (s.lk p).st ≠ .down → (s.lk p).st ≠ .fencing →
     s.markPort p m.rootId = false → ∃ t, exec (.courseMarkRx p m) s = .next t ∧
       t = { s with crs := { s.crs with rxMarks := Tbl.ins s.crs.rxMarks p ⟨m, s.localTicks, true⟩ } }) ∧
   (∀ (s : State) (p root : Nat), s.meValid = true → s.isRoot = true → s.markPort p root = true) ∧
   (∀ (s : State) (p : Nat) (m : Mark) (e : Int), s.isRoot = true → s.meValid = true → m.aligned = true → m.rootId ≠ s.me →
     { s with crs := { s.crs with rxMarks := Tbl.ins s.crs.rxMarks p ⟨m, s.localTicks, true⟩ } }.markErr p m = some e → e.natAbs ≤ 480 →
     betterRoot (m.rank, m.rootId) (s.g Reg.CRS_ALIGN_CTRL.rank, s.me) = true → (s.courseMark p m).isRoot = false ∧
       (s.courseMark p m).crs.rootId = m.rootId ∧
       (∀ q r, (s.courseMark p m).crs.parent = some q → Tbl.find? (s.courseMark p m).crs.rxMarks q = some r →
         (s.courseMark p m).crs.rootRank = r.mark.rank)) ∧
   (∀ (s : State) (k r : Nat) (c : Course), s.crs.follow = some (k, r, c) → c ≠ s.crs.course → s.crs.aligned = true → s.crs.cycle = 0 →
     ∃ t, exec .followBetterRoot s = .next t ∧
     t.crs.follow = none ∧ t.crs.rootValid = true ∧ t.crs.rootId = r ∧ (t.crs.parent = none → t.crs.rootRank = k) ∧
     (∀ q e, t.crs.parent = some q → Tbl.find? s.crs.rxMarks q = some e → t.crs.rootRank = e.mark.rank) ∧ t.crs.course = s.crs.course ∧
     t.crs.cycle = s.crs.cycle ∧ t.crs.aligned = true ∧ OnlyWrites [.crs] s t))

/-- R61, R62, R63: the one step by the average of 16 marks, with the times before and after it; aligned after 64 courses within 2
ns, or at once if the device is the root; lost after eight marks beyond 24 ns, with the aligned field kept and a new parent
chosen. R67, R54: a write of CRS_ALIGN_CTRL by a PF, a management core or the fabric manager makes or unmakes a time root,
which names itself, or changes its rank; a root that is aligned keeps its count. -/
def Obligations.AlignmentAndRoot : Prop :=
  ((∀ s : State, s.crs.avgCount ≥ 16 → s.crs.stepDone = false → s.crs.aligned = false → s.crs.cycle = 0 →
     s.crs.errCourse ≠ some s.crs.course → ∃ t, exec .alignStep s = .next t ∧
     t.crs.stepped = true ∧ t.crs.stepDone = true ∧ t.crs.stepFrom = s.now ∧ t.crs.stepTo = t.now ∧ t.crs.avgCount = 0 ∧
     t.localTicks = (s.localTicks - s.crs.avgSum.tdiv 16) % (20480 * 2 ^ 48)) ∧
   (∀ s : State, s.crs.aligned = false → ((s.crs.stepDone = true ∧ s.crs.goodRun ≥ 64) ∨ (s.isRoot = true ∧ s.counting = true ∧ s.mode ≠ .monitor)) →
     exec .aligned s = .next { s with crs := { s.crs with aligned := true } }) ∧
   (∀ s : State, s.crs.aligned = true → s.crs.badRun ≥ 8 → ∃ t, exec .alignLost s = .next t ∧ t.crs.lost = true ∧ t.crs.aligned = true ∧
     t.crs.course = s.crs.course ∧ t.crs.cycle = s.crs.cycle ∧ OnlyWrites [.glb, .crs, .ctrs, .srcs, .banks, .hif, .out] s t)) ∧
  ((∀ (s : State) (req : Requester) (v : Nat), mayConfigure s req Reg.CRS_ALIGN_CTRL.off → ∃ d u, locPf Reg.CRS_ALIGN_CTRL.off = .reg d 0 0 0 ∧
     u = s.lockCheck d 0 (s.word Reg.CRS_ALIGN_CTRL.off) (v % 2 ^ 32) ∧
     exec (.alignCtrlWrite req v) s = .next (u.alignCtrlWrite (v % 2 ^ 32) u.rwlOpen).settle) ∧
   (∀ (s : State) (v : Nat) (b : Bool), bit v 0 = true → ∃ t, t = s.alignCtrlWrite v b ∧ t.isRoot = true ∧ t.crs.rootId = s.me ∧
     t.crs.rootRank = v / 256 % 4 ∧ t.crs.parent = none ∧ t.crs.course = s.crs.course ∧ t.crs.cycle = s.crs.cycle ∧ t.crs.phase = s.crs.phase ∧
     OnlyWrites [.crs, .regs] s t) ∧
   (∀ (s : State) (v : Nat) (b : Bool), bit v 0 = false → (s.alignCtrlWrite v b).isRoot = false))

/-- R72, R73, R75: what the arm, disarm and copy bits of CRS_SWAP_CTRL do when they are accepted: a swap is armed or cancelled, or
the copy of the active set into the shadow begins. R76, R77, R78: at cycle 0 of course S an armed device, in any mode but OFF
and FENCED, exchanges the sets, counts the epoch, makes the old set busy for LIFE courses, resets the buckets, clears armed
and raises swap-done with the epoch and the new active set; the copy ends with every word copied; the busy period ends. -/
def Obligations.Swaps : Prop :=
  (∀ (s : State) (req : Requester), mayConfigure s req Reg.CRS_SWAP_CTRL.off →
     (s.crs.armed = false → s.crs.aligned = true → s.crs.copyBusy = false → 2 ≤ s.swapAhead →
       ∃ t, exec (.swapArm req) s = .next t ∧ t.crs = { s.crs with armed := true } ∧ t = ({ s with crs := { s.crs with armed := true } }).settle) ∧
     (s.crs.armed = true → 2 ≤ s.swapAhead →
       ∃ t, exec (.swapDisarm req) s = .next t ∧ t.crs = { s.crs with armed := false } ∧ t = ({ s with crs := { s.crs with armed := false } }).settle) ∧
     (s.crs.armed = false → s.crs.busyEnd = none → s.crs.copyBusy = false →
       ∃ t, exec (.shadowCopy req) s = .next t ∧ t.crs = { s.crs with copyBusy := true, copyFrom := s.cycles, copies := s.crs.copies + 1 } ∧
         t.sets = s.sets)) ∧
  ((∀ s : State, s.swapDue = true → exec .swapTakeEffect s = .next s.swapNow) ∧
   (∀ s : State, s.crs.armed = true → s.mode ≠ .off → s.mode ≠ .fenced → s.crs.cycle = 0 → s.course = s.swapAt → s.swapDue = true) ∧
   (∀ s : State, ∃ c u v t, c = ({ s.crs with active := s.shadow, epoch := (s.crs.epoch + 1) % 65536, armed := false,
                                              busyEnd := some (s.crs.course + BitVec.ofNat 48 s.life) } : Crs) ∧
     u = ({ s with crs := c }).swapBuckets ∧ v = (if u.live then u.refill else u) ∧
     t = (s.someTrees.map (fun k => (k, s.treeValid s.crs.active k, s.treeGen s.crs.active k))).foldl (fun t e => t.colSwapTree e.1 e.2)
       (if v.live then v.sendCongRows else v) ∧
     s.swapNow = (t.raise (srcCrs 7) 0 ((s.crs.epoch + 1) % 65536) none s.shadow).recheckPhy) ∧
   (∀ s : State, s.crs.copyBusy = true → s.crs.active < 2 → canonical s → ∃ t, exec .copyDone s = .next t ∧ t.crs.copyBusy = false ∧
     ∀ k < 2 ^ 26, t.setW s.shadow k = s.setW s.crs.active k ∧ t.setW s.crs.active k = s.setW s.crs.active k) ∧
   (∀ (s : State) (c : Course), s.crs.busyEnd = some c → s.since c < 2 ^ 47 →
     exec .shadowBusyEnd s = .next { s with crs := { s.crs with busyEnd := none } }))

/-- R74: a refused arm, disarm or copy leaves the state unchanged but for arm_err and err_code, and raises the swap-refused event with
the code as its detail and object zero; the codes in the order in which the conditions are tested. -/
def Obligations.SwapRefused : Prop :=
  ∀ (s : State) (req : Requester), mayConfigure s req Reg.CRS_SWAP_CTRL.off →
    let refused (c : Instr) (code : Nat) : Prop :=
      exec c s = .next ({ s with crs := { s.crs with armErr := true, errCode := code } }.raise (srcCrs 6) 0 0 none code).settle
    (s.crs.armed = true → refused (.swapArm req) 6) ∧
    (s.crs.armed = false → s.crs.aligned = false → refused (.swapArm req) 2) ∧
    (s.crs.armed = false → s.crs.aligned = true → s.crs.copyBusy = true → refused (.swapArm req) 3) ∧
    (s.crs.armed = false → s.crs.aligned = true → s.crs.copyBusy = false → s.swapAhead < 2 → refused (.swapArm req) 1) ∧
    (s.crs.armed = false → refused (.swapDisarm req) 5) ∧
    (s.crs.armed = true → s.swapAhead < 2 → refused (.swapDisarm req) 4) ∧
    (s.crs.armed = true ∨ s.crs.busyEnd ≠ none ∨ s.crs.copyBusy = true → refused (.shadowCopy req) 3)

/-- R71: a write to an SH register by a party that may write it sets the shadow's value and leaves the active set; while the shadow
is armed, busy or being copied it is discarded, counted, and raises nothing. A write of a COL_TREE word after which the tree would be
ill defined (R408), or the reservations pass 2,048 slots (R409), is discarded as well. -/
def Obligations.ShadowWrites : Prop :=
  (∀ (s : State) (req : Requester) (o v i j w : Nat) (d : RegDef), locate o = some (d, i, j, w) → locPf o = .reg d i j w → o % 4 = 0 → o < 2 ^ 26 →
    d.shadowed = true → mayConfigure s req o → State.mayWrite req d i = true → s.shadowClosed = true →
    exec (.shadowWrite req o v) s = .next (s.bump Ctr.CRS_SHADOW_REFUSED_COUNT).settle) ∧
  (∀ (s : State) (req : Requester) (o v i j w : Nat) (d : RegDef), locate o = some (d, i, j, w) → locPf o = .reg d i j w → o % 4 = 0 → o < 2 ^ 26 →
    d.shadowed = true → mayConfigure s req o → State.mayWrite req d i = true → s.shadowClosed = false → s.crs.active < 2 → ∃ t, exec (.shadowWrite req o v) s = .next t ∧
      t = (s.shadowWrite d i w o (v % 2 ^ 32)).settle ∧ (∀ k < 2 ^ 26, t.setW s.crs.active k = s.setW s.crs.active k) ∧
      ∀ n u, n = d.merge w (s.setW s.shadow o) (v % 2 ^ 32) true → u = s.putSetW s.shadow o n →
        if d.id = .COL_TREE ∧ (u.treeBad i = true ∨ 2048 < u.slotsReserved) then t.sets = s.sets else t.setW s.shadow o = n % 2 ^ 32)

/-! ### Lanes -/

/-- R93, R96, R97: the steps of a training attempt: frame lock after three markers begins the tap exchange, a request after all-hold
is acted on once and its status held until the next all-hold, rx_ready follows 64 frames at snr_min, and data begins with a marker,
on a codeword boundary common with the other lane, once rx_ready has been sent and received for 16 frames each; four missing markers
lose the lock. -/
def Obligations.LaneTraining : Prop :=
  ∀ (s : State) (n : Nat), n < 128 →
    ((s.ln n).st = .frame → 3 ≤ (s.ln n).frameRun → exec (.frameLock n) s = .next (s.setLn n { s.ln n with frameLock := true, st := .taps })) ∧
    ((s.ln n).st = .taps ∨ (s.ln n).st = .frame → (s.ln n).frameLock = true → (s.ln n).frameSeen + 193 ≤ s.cycles →
      exec (.frameLockLost n) s = .next (s.setLn n { s.ln n with frameLock := false, frameRun := 0, frameMiss := 4 })) ∧
    ((s.ln n).st = .taps → (s.ln n).actedReq = 0 → allHold (s.ln n).farReq = false → ∃ t g, exec (.tapResponse n) s = .next t ∧
      t.ln n = { s.ln n with actedReq := (s.ln n).farReq, taps := (respond (s.ln n).taps (s.ln n).farReq).1,
                             tapStatus := (respond (s.ln n).taps (s.ln n).farReq).2, genReg := g } ∧ OnlyWrites [.phy, .out] s t) ∧
    ((s.ln n).st = .taps → (s.ln n).actedReq ≠ 0 → allHold (s.ln n).farReq = false → exec (.tapResponse n) s = .next s) ∧
    ((s.ln n).st = .taps → (s.ln n).actedReq ≠ 0 → allHold (s.ln n).farReq = true → ∃ t g, exec (.tapResponse n) s = .next t ∧
      t.ln n = { s.ln n with actedReq := 0, tapStatus := 0, genReg := g } ∧ OnlyWrites [.phy, .out] s t) ∧
    (∀ snr k : Nat, (s.ln n).st = .taps → s.g Reg.LAN_TRAIN_CFG.snr_min ≤ snr → 64 ≤ k → ∃ t g, exec (.rxReady n snr k) s = .next t ∧
      t.ln n = { s.ln n with snr := min snr 1023, rxReady := true, snrRun := k, genReg := g,
                             ownReq := if (s.ln n).farTapStatus = 0 then 0 else (s.ln n).ownReq } ∧ OnlyWrites [.phy, .out] s t) ∧
    (∀ snr k : Nat, (s.ln n).st = .taps → (snr < s.g Reg.LAN_TRAIN_CFG.snr_min ∨ k < 64) →
      exec (.rxReady n snr k) s = .next (s.setLn n { s.ln n with snr := min snr 1023 })) ∧
    ((s.ln n).st = .taps → (s.ln n).txData = false → (s.ln n).rxReady = true → 16 ≤ (s.ln n).readySent → 16 ≤ (s.ln n).readyRcvd →
      s.commonBoundary n = true → ∃ u, u = (s.setLn n { s.ln n with txData := true }).sendMarker n false ∧
        exec (.dataStart n) s = .next (if (u.ln n).toData.st = .data then (u.setLn n (u.ln n).toData).applyMasks (n / 2) else u)) ∧
    (∀ l : Lane, l.st = .taps → (l.toData.st = .data ↔ l.txData = true ∧ l.fecLock = true ∧ l.markerLock = true)) ∧
    (∀ r a : Nat, bits r 0 8 = fieldCrc r → bits a 0 8 = fieldCrc a → exec (.trainingFrameRx n r a) s = .next (s.trainFrame n r a)) ∧
    (∀ r a : Nat, ¬ (bits r 0 8 = fieldCrc r ∧ bits a 0 8 = fieldCrc a) → exec (.trainingFrameRx n r a) s = .next s)

/-- R81, R89, R90, R91, R111: a lane that decodes, in DATA or with its receiver ready (R97): a codeword is decoded and counted, and corrected
or counted uncorrectable with its source raised; a received marker holds lock. A marker goes out after 16,384 codewords, on every lane of
the port, and striping restarts at index 0 (R83). FEC or marker lock lost in DATA sends the lane back to FRAME; in TAPS it has the lock to
gain again. -/
def Obligations.LaneData : Prop :=
  ∀ (s : State) (n : Nat), n < 128 →
    ((s.ln n).decodes = true → ∀ a b v : Nat, v = a + b <<< 5140 → exec (.codewordRx n a b) s = .next (s.codeword n v) ∧
      (∀ (k : Nat) (m : List Nat), rsDecode (s.rxSymbols n v) = some (k, m) → ∃ t, exec (.codewordRx n a b) s = .next t ∧
        (t.ln n).uncorrRun = 0 ∧ (t.ln n).fecLock = true ∧
        t.ctr (Ctr.LAN_FEC_CORR_SYM_COUNT n) = s.ctr (Ctr.LAN_FEC_CORR_SYM_COUNT n) + BitVec.ofNat 64 k ∧
        (1 ≤ k → t.ctr (Ctr.LAN_FEC_HIST_COUNT n k) = s.ctr (Ctr.LAN_FEC_HIST_COUNT n k) + 1) ∧ OnlyWrites [.phy, .ctrs, .out] s t) ∧
      (rsDecode (s.rxSymbols n v) = none → ∃ t, exec (.codewordRx n a b) s = .next t ∧ (t.ln n).uncorrRun = (s.ln n).uncorrRun + 1 ∧
        OnlyWrites (event ++ [.phy]) s t)) ∧
    ((s.ln n).sends = true → s.cycles ≥ (s.ln n).markerFrom + 16384 * 32 →
      exec (.markerTx n) s = .next ((s.periodEnd (n / 2)).sendMarkers (n / 2)) ∧
      (((s.periodEnd (n / 2)).sendMarkers (n / 2)).pp (n / 2)).stripe = 0) ∧
    ((s.ln n).decodes = true → ∀ m : Marker, exec (.markerRx n m) s = .next (s.markerRx n m)) ∧
    ((s.ln n).st = .data → 8 ≤ (s.ln n).uncorrRun → exec (.fecLockLost n) s = .next (s.lockLost n)) ∧
    ((s.ln n).st = .taps → 8 ≤ (s.ln n).uncorrRun → exec (.fecLockLost n) s = .next (s.setLn n { s.ln n with fecLock := false })) ∧
    ((s.ln n).st = .data → (s.ln n).markerLock = true → 2 ≤ (s.ln n).markerMiss → exec (.markerLockLost n) s = .next (s.lockLost n)) ∧
    ((s.ln n).st = .taps → (s.ln n).markerLock = true → 2 ≤ (s.ln n).markerMiss → exec (.markerLockLost n) s =
      .next (s.setLn n { s.ln n with markerLock := false, markerMiss := 0, rxItems := [] })) ∧
    (∀ l : Lane, l.decodes = true ↔ l.st = .data ∨ (l.st = .taps ∧ l.rxReady = true)) ∧
    (∀ l : Lane, l.sends = true ↔ l.st = .data ∨ (l.st = .taps ∧ l.txData = true)) ∧
    (∃ u, u = (((s.bump (Ctr.LAN_LOCK_LOSS_COUNT n)).raise (srcLan n 1) 0 n).dropLane n .frame) ∧ s.lockLost n = u.beginAttempt n 1) ∧
    ((s.lockLost n).ln n).st = .frame

/-- R86, R98, R100, R105: what ends or begins an attempt: a timeout fails it, and either another begins or the lane is FAILED; the
signal's return, a restart or a wake begins a new one; a PLL's loss turns its eight lanes off and its relock frees them. -/
def Obligations.LaneRestarts : Prop :=
  ∀ (s : State) (n : Nat), n < 128 →
    let begins (u t : State) (k : Nat) : Prop := (t.ln n).st = .frame ∧ (t.ln n).attempts = k ∧ (t.ln n).frameAt = u.nowAt ∧
      (t.ln n).txData = false ∧ t.ctr (Ctr.LAN_TRAIN_COUNT n) = u.ctr (Ctr.LAN_TRAIN_COUNT n) + 1
    ((s.ln n).st = .taps → (s.ln n).ownReq ≠ 0 → (s.ln n).farTapStatus = 0 → s.cycles ≥ (s.ln n).reqFrom + 49345 →
      exec (.tapResponseTimeout n) s = .next (s.failAttempt n)) ∧
    ((s.ln n).st = .frame ∨ (s.ln n).st = .taps → s.over (s.ln n).frameAt ≥ s.g Reg.LAN_TRAIN_CFG.limit * 16 →
      exec (.trainAttemptTimeout n) s = .next (s.failAttempt n)) ∧
    ((s.ln n).st = .frame ∨ (s.ln n).st = .taps →
      exec (.signalAbsentTimeout n) s = .next ((s.setLn n { s.ln n with sig := false }).failAttempt n)) ∧
    ((s.ln n).attempts ≤ s.g Reg.LAN_TRAIN_CFG.retries → begins s (s.failAttempt n) ((s.ln n).attempts + 1)) ∧
    (s.g Reg.LAN_TRAIN_CFG.retries < (s.ln n).attempts → ((s.failAttempt n).ln n).st = .failed ∧ ((s.failAttempt n).ln n).txFail = true) ∧
    ((s.ln n).st = .failed → ∃ t, exec (.signalReturn n) s = .next t ∧ begins s t 1 ∧ (t.ln n).sig = true) ∧
    ((s.ln n).st ≠ .failed → exec (.signalReturn n) s = .next (s.setLn n { s.ln n with sig := true })) ∧
    ((s.ln n).st = .failed → s.mode ≠ .fenced → ∃ t, exec (.laneRestart n) s = .next t ∧ begins s t 1) ∧
    (∀ b : Bool, (s.ln n).st = .sleep → (b = true ∨ bit (s.g (Reg.LAN_PT_CTRL.sleep_mask (n / 2))) (laneIdx n) = false ∨
        (s.ln (laneOf (n / 2) (1 - laneIdx n))).st ≠ .data) →
      ∃ t, exec (.sleepWake n b) s = .next t ∧ begins s t 1 ∧ (t.ln n).sig = b) ∧
    (∀ k < 16, (s.src (srcPll k)).real = false → exec (.pllLossOfLock k) s = .next (s.pllLoss k)) ∧
    (∀ k < 16, (s.src (srcPll k)).real = true → exec (.pllRelock k) s = .next (s.level (srcPll k) false k).pllFree)

/-- R10, R104, R106, R107, R108, R109: the test controls: a port enters test where its mode or role allows it, else the refusal is
noted, and leaves it; one symbol or a codeword's symbols are corrupted on command, one PRBS symbol at the rate asked for; the
PRBS checker gains lock after 64 right symbols, loses it at 32 wrong ones of 256, and counts bits and errors in lock. A
command whose condition does not hold changes nothing (the model's choice, notes/assumptions/3). -/
def Obligations.TestControls : Prop :=
  (∀ (s : State) (p v : Nat), p < 64 → bit v 7 = true → s.mode ≠ .fenced → s.mode ≠ .off →
    exec (.testEnter p v) s = .next ((s.ptCtrlCheck p v).ptCtrlWrite p v)) ∧
  (∀ (s : State) (p v : Nat), p < 64 → bit v 7 = false → s.testing p = true → s.mode ≠ .fenced → s.mode ≠ .off →
    exec (.testExit p v) s = .next ((s.ptCtrlCheck p v).ptCtrlWrite p v)) ∧
  (∀ (s : State) (p v : Nat), s.rwlOpen = false → bits v 4 1 ≠ s.g (Reg.LAN_PT_CTRL.force_width1 p) →
    s.ptCtrlCheck p v = (s.bump Ctr.GLB_LOCKED_WRITE_COUNT).raise 5 0 0) ∧
  (∀ (s : State) (p v : Nat), ∃ u, u = (if s.rwlOpen then s.put (Reg.LAN_PT_CTRL.force_width1 p) (bits v 4 1) else s).sleepMask p (bits v 0 2) ∧
    s.ptCtrlWrite p v = (if bit v 7 then
        (if u.testAllowed p then (if u.testing p then u else u.enterTest p) else (u.setPp p { u.pp p with testRefused := true }).retune p)
      else if u.testing p then u.leaveTest p else u.retune p)) ∧
  (∀ (s : State) (p m : Nat), p < 64 → s.mode ≠ .fenced → s.mode ≠ .off → exec (.sleepMaskWrite p m) s = .next (s.sleepMask p (m % 4))) ∧
  (∀ (s : State) (n : Nat), n < 128 → s.prbsOn n = true → ∃ t, exec (.prbsInjectOne n) s = .next t ∧ t.out = s.out ++ [.prbsFlip n] ∧
    OnlyWrites [.phy, .out] s t) ∧
  (∀ (s : State) (n k : Nat), n < 128 → s.prbsOn n = true → s.g (Reg.LAN_LN_PRBS_CTRL.inject_rate n) = k → k ≠ 0 →
    (s.symbolTime < (s.ln n).injAt + 2 ^ (k + 10) → exec (.prbsRateInjection n) s = .next s) ∧
    ((s.ln n).injAt + 2 ^ (k + 10) ≤ s.symbolTime → ∃ t, exec (.prbsRateInjection n) s = .next t ∧ t.out = s.out ++ [.prbsFlip n] ∧
      (t.ln n).injAt = (s.ln n).injAt + 2 ^ (k + 10) ∧ OnlyWrites [.phy, .out] s t)) ∧
  (∀ (s : State) (n : Nat), s.prbsOn n = false → exec (.prbsInjectOne n) s = .next s ∧ exec (.prbsRateInjection n) s = .next s) ∧
  (∀ (s : State) (n k lo mi hi : Nat) (xs : List Nat), xs = levelsOf k lo mi hi → n < 128 → s.loopback n = 0 → s.g (Reg.LAN_LN_PRBS_CTRL.chk_en n) = 1 →
    ∃ c, c = (xs.map (invertLevels (s.g (Reg.LAN_LN_CTRL.rx_invert n) == 1) 1)).foldl
        (Lane.check (s.g (Reg.LAN_LN_PRBS_CTRL.chk_pattern n) == 1)) (s.ln n, 0, 0) ∧
      exec (.prbsCheckerLock n k lo mi hi) s = .next (((s.setLn n c.1).bumpBy (Ctr.LAN_PRBS_BIT_COUNT n) c.2.1).bumpBy (Ctr.LAN_PRBS_ERR_COUNT n) c.2.2)) ∧
  (∀ (l : Lane) (b e x : Nat) (r : Bool), l.chkLock = false → l.chkRun = 63 → x = (prbsNext r l.chkReg).1 →
    (if r then l.chkReg ≠ 2 ^ 31 - 1 else l.chkReg % 2 ^ 13 ≠ 0) →
    (Lane.check r (l, b, e) x).1.chkLock = true ∧ (Lane.check r (l, b, e) x).2 = (b, e)) ∧
  (∀ (l : Lane) (b e x : Nat) (r : Bool), l.chkLock = true → ∃ d ≤ 2, (Lane.check r (l, b, e) x).2 = (b + 2, e + d) ∧
    ((Lane.check r (l, b, e) x).1.chkLock = false ↔ 32 ≤ (((x != (prbsNext r l.chkReg).1) :: l.chkWin.take 255).filter id).length) ∧
    ((Lane.check r (l, b, e) x).1.chkLock = false → (Lane.check r (l, b, e) x).1.chkLost = true)) ∧
  (∀ (s : State) (n : Nat), n < 128 → (s.ln n).sends = true → s.g (Reg.LAN_LN_FEC_INJECT.symbols n) ≠ 0 → ∃ d u,
    d = s.drawErrors (s.g (Reg.LAN_LN_FEC_INJECT.symbols n)) (List.range 544) [] ∧
    u = (d.2.emit (.fecInject n (d.1.map Prod.fst))).setLn n { d.2.ln n with corrupt := d.1 } ∧
    exec (.fecInject n) s = .next (if s.g (Reg.LAN_LN_FEC_INJECT.continuous n) = 1 then u else u.put (Reg.LAN_LN_FEC_INJECT.symbols n) 0))

/-! ### The link layer -/

/-- R113, R115, R119, R125, R126, R127, R133, R137, R138, R147: what a received sequenced brick or ABORT does in each state of its link
engine. Every valid one is counted and ends the keep-alive count; in DOWN and FENCING nothing else happens; in INIT and HOLD its ack is
acted on and the brick discarded. In UP its ack is acted on, and then: with the expected number and a place in the buffer it is accepted,
the expected number goes up by one, no NAK is out any more, and it is framed; with no place it is an overrun and out of sequence; an
earlier number is a duplicate; any other is out of sequence, and asks for a resend unless one is asked for already. An accepted ABORT
takes no place and ends the packet in progress. A brick with a bad CRC is counted, moves no number and does not end the keep-alive count,
and in UP it asks for a resend. -/
def Obligations.BricksReceived : Prop :=
  let accepted (w : State) (p : Nat) : State :=
    w.onLk p (fun k => { k with expected := k.expected + 1, rxAny := true, nakOut := false, nakDue := false })
  let brick (c : Instr) (p ty seq ack : Nat) (b : Data) : Prop :=
    (c = .sequencedBrickRx p ty seq ack b ∧ ty < 8) ∨ (∃ r, c = .abortBrickRx p seq ack r ∧ ty = 0xC ∧ b = ⟨64, r % 256⟩)
  (∀ (s : State) (c : Instr) (p ty seq ack : Nat) (b : Data), brick c p ty seq ack b → p < 64 → s.mode ≠ .off → ∃ t, exec c s = .next t ∧
    ((s.lk p).st = .down ∨ (s.lk p).st = .fencing → t = s.validBrick p ∧ t.lk p = { s.lk p with kaCount := 0 } ∧
      t.ctr (Ctr.LNK_RX_BRICK_COUNT p) = s.ctr (Ctr.LNK_RX_BRICK_COUNT p) + 1 ∧ OnlyWrites [.ctrs, .lnk] s t) ∧
    ((s.lk p).st = .init ∨ (s.lk p).st = .hold → t = (s.validBrick p).ackBrick p (ack % 2 ^ 14) ∧ t.rte = s.rte)) ∧
  (∀ (s u : State) (c : Instr) (p ty seq ack : Nat) (b : Data), brick c p ty seq ack b → p < 64 → s.mode ≠ .off → (s.lk p).st = .up →
    u = (s.validBrick p).ackBrick p (ack % 2 ^ 14) → ∃ t, exec c s = .next t ∧ ((u.lk p).st ≠ .up → t = u) ∧
    ((u.lk p).st = .up → ∀ e, e = (u.lk p).expected →
      (seq % 2 ^ 14 = e.toNat → ty < 8 → ∀ v w, u.brickVc p ty b = some v ∨ (u.brickVc p ty b = none ∧ bit ty 2 = false ∧ v = 0) →
        u.place p v (bit ty 2) = some w →
        t = (accepted w p).frame p ty b ∧ ((accepted w p).lk p).expected = e + 1 ∧ ((accepted w p).lk p).nakOut = false) ∧
      (seq % 2 ^ 14 = e.toNat → ty < 8 → ∀ v, u.brickVc p ty b = some v ∨ (u.brickVc p ty b = none ∧ bit ty 2 = false ∧ v = 0) →
        u.place p v (bit ty 2) = none →
        ∃ k, k = (if bit ty 2 then Ctr.LNK_CREDIT_OVERRUN_COUNT p else Ctr.LNK_POOL_OVERRUN_COUNT p) ∧ t.ctr k = u.ctr k + 1 ∧
          (t.lk p).expected = e ∧ (t.lk p).nakOut = true) ∧
      (seq % 2 ^ 14 = e.toNat → ty < 8 → u.brickVc p ty b = none → bit ty 2 = true → t = (accepted u p).frame p ty b) ∧
      (seq % 2 ^ 14 = e.toNat → ty = 0xC → ((accepted u p).lk p).expected = e + 1 ∧
        ((accepted u p).inProgress p = none → t = accepted u p) ∧
        (∀ k, (accepted u p).inProgress p = some k → t = (accepted u p).abortIn p k (b.val % 256))) ∧
      (seq % 2 ^ 14 ≠ e.toNat → serialCmp (seq % 2 ^ 14) e.toNat 14 = .before → t = u.bump (Ctr.LNK_DUP_COUNT p)) ∧
      (seq % 2 ^ 14 ≠ e.toNat → serialCmp (seq % 2 ^ 14) e.toNat 14 ≠ .before →
        t.ctr (Ctr.LNK_OOS_COUNT p) = u.ctr (Ctr.LNK_OOS_COUNT p) + 1 ∧ (t.lk p).expected = e ∧ (t.lk p).nakOut = true ∧
        (t.lk p).nakDue = ((u.lk p).nakDue || !(u.lk p).nakOut)))) ∧
  (∀ (s : State) (p : Nat), p < 64 → s.mode ≠ .off → ∃ t, exec (.brickCrcError p) s = .next t ∧
    t.ctr (Ctr.LNK_CRC_ERR_COUNT p) = s.ctr (Ctr.LNK_CRC_ERR_COUNT p) + 1 ∧ (t.lk p).expected = (s.lk p).expected ∧
    (t.lk p).kaCount = (s.lk p).kaCount ∧ (t.lk p).st = (s.lk p).st ∧
    ((s.lk p).st = .up → (t.lk p).nakOut = true ∧ (t.lk p).nakDue = ((s.lk p).nakDue || !(s.lk p).nakOut)))

/-- R115: in every state of its link, a valid brick with a reserved type is discarded and counted, and is no gap in the sequence: the
expected number stays and no resend is asked for. -/
def Obligations.ReservedTypes : Prop :=
  ∀ (s : State) (p : Nat), p < 64 → s.mode ≠ .off → ∃ t, exec (.reservedBrickRx p) s = .next t ∧
    t.ctr (Ctr.LNK_PROTO_ERR_COUNT p) = s.ctr (Ctr.LNK_PROTO_ERR_COUNT p) + 1 ∧ t.lk p = { s.lk p with kaCount := 0 } ∧
    (∀ q, q ≠ p → t.lk q = s.lk q) ∧ OnlyWrites [.glb, .ctrs, .srcs, .banks, .lnk, .hif, .out] s t

/-- R121 to R130, R132: what a CONTROL received does: in DOWN and FENCING it is counted only; in INIT and HOLD its pool_off level,
its mark, its ack and its credits are taken, and in UP its NAK and its seq as well. What a link sends: a packet's next brick
when its link is UP, no replay is in progress, the replay buffer has room and no NAK or pool_off change waits to be announced,
and that brick waits in the replay buffer from then on; a CONTROL when one is due or the slot is idle, after which no NAK and
no change waits; a replayed brick keeps its type, number and body; an expired replay timer begins a replay from the oldest
brick, and reaching the limit takes the link down. A command whose condition does not hold changes nothing (the model's
choice, notes/assumptions/3). -/
def Obligations.BricksSent : Prop :=
  (∀ (s : State) (p seq ack : Nat) (b : Data), p < 64 → s.mode ≠ .off → (s.lk p).st = .down ∨ (s.lk p).st = .fencing →
    exec (.controlBrickRx p seq ack b) s = .next (s.validBrick p)) ∧
  (∀ (s s1 s2 u : State) (p seq ack : Nat) (b : Data), p < 64 → s.mode ≠ .off →
    s1 = (s.validBrick p).farLevel p (b.field 32 1 1 == 1) →
    s2 = (if b.field 32 0 1 = 1 ∧ s1.counting then s1.courseMark p (Mark.ofNat (b.val % 2 ^ 128)) else s1) →
    u = (s2.ackBrick p (ack % 2 ^ 14)).creditReturn p (vcWords b 16) →
    ((s.lk p).st = .init ∨ (s.lk p).st = .hold → exec (.controlBrickRx p seq ack b) s = .next u) ∧
    ((s.lk p).st = .up → (u.lk p).st = .up → ∃ t w : State, exec (.controlBrickRx p seq ack b) s = .next t ∧
      w = (if b.field 32 2 1 = 1 then u.nakBrick p (b.field 34 0 14) else u) ∧
      t = (if (w.lk p).st = .up ∧ serialCmp (w.lk p).expected.toNat (seq % 2 ^ 14) 14 = .before then w.nakDue p else w))) ∧
  (∀ (s : State) (p : Nat) (o : Bool), ((s.farLevel p o).lk p).farPoolOff = o ∧ (o = true → p ∈ (s.farLevel p o).rte.offSeen)) ∧
  (∀ (s : State) (p : Nat) (l : List Nat), (∀ v < 8, (65536 + (s.lk p).charged.getD v 0 - l.getD v 0 % 65536) % 65536 ≤ 128) →
    ∀ v < 8, ((s.creditReturn p l).lk p).farReturned.getD v 0 = l.getD v 0) ∧
  (∀ (s : State) (p i id : Nat) (k : InPkt), p < 64 → (s.lk p).st = .up → (s.lk p).replaying = false → (s.lk p).replay.length < 2048 →
    (s.pp p).txMask ≠ 0 → (s.lk p).controlFirst = false → (s.outSt p).cur = some (i, id) → s.pkt? i id = some k →
    ∃ t, exec (.brickTx p) s = .next t ∧ t = s.txBrick p i k ∧
      (k.abort_ = none → k.forms ≠ [] → (t.lk p).next = (s.lk p).next + 1 ∧ (t.lk p).replay.length = (s.lk p).replay.length + 1)) ∧
  (∀ (s : State) (p : Nat), p < 64 → (s.lk p).st = .up →
    (s.lk p).replaying = true ∨ 2048 ≤ (s.lk p).replay.length ∨ (s.lk p).controlFirst = true → exec (.brickTx p) s = .next s) ∧
  (∀ (s : State) (p : Nat), p < 64 →
    ((s.lk p).st = .up ∧ ((s.lk p).controlFirst = true ∨ s.markNow p = true ∨ (s.returnsDue p = true ∧ 15 ≤ (s.lk p).slots) ∨ s.seqReady p = false)) ∨
      ((s.lk p).st = .init ∧ s.markNow p = true) →
    ∃ t, exec (.controlBrickTx p) s = .next t ∧ t = s.sendControl p ∧
      t.lk p = { s.lk p with nakDue := false, offDue := false, markDue := (s.lk p).markDue && !s.markNow p, sentReturned := (s.lk p).returned,
                             slots := 0, lastControl := s.cycles }) ∧
  (∀ (s : State) (p : Nat) (b : TxBrick), p < 64 → (s.lk p).st = .up → (s.lk p).replaying = true → (s.lk p).controlFirst = false →
    (s.lk p).replay.find? (fun b => b.seq == (s.lk p).replayAt) = some b → ∃ t, exec (.replayBrickTx p) s = .next t ∧
    t.lk p = { s.lk p with slots := (s.lk p).slots + 1, replayAt := (s.lk p).replayAt + 1, replaying := (s.lk p).replayAt + 1 != (s.lk p).next } ∧
    t.out = (s.sendBrick p b.type b.seq.toNat b.body).out ∧
    t.ctr (Ctr.LNK_REPLAY_BRICK_COUNT p) = s.ctr (Ctr.LNK_REPLAY_BRICK_COUNT p) + 1 ∧ OnlyWrites [.lnk, .phy, .ctrs, .out, .free] s t) ∧
  (∀ (s : State) (p t0 : Nat) (b : TxBrick) (r : List TxBrick), p < 64 → (s.lk p).st = .up → (s.lk p).timerFrom = some t0 →
    (s.lk p).replay = b :: r →
    s.cycles ≥ t0 + s.g (Reg.LNK_REPLAY_CFG.tmo_courses p) * 1280 + s.g (Reg.LNK_REPLAY_CFG.tmo_cycles p) →
    ∃ t, exec (.replayTimerExpiry p) s = .next t ∧ t = s.startReplay p b.seq ∧
      t.ctr (Ctr.LNK_REPLAY_COUNT p) = s.ctr (Ctr.LNK_REPLAY_COUNT p) + 1 ∧
      ((s.lk p).replayRun + 1 < max 1 (s.g (Reg.LNK_REPLAY_CFG.limit p)) →
        t.lk p = { s.lk p with replaying := true, replayAt := b.seq, replayRun := (s.lk p).replayRun + 1, timerFrom := some s.cycles }) ∧
      (max 1 (s.g (Reg.LNK_REPLAY_CFG.limit p)) ≤ (s.lk p).replayRun + 1 → (t.lk p).st = .down ∧ (t.lk p).downCause = 2))

/-- R137, R139, R140, R142, R144, R145, R146: the moves of a link engine between DOWN, INIT, UP and HOLD, with what each leaves: the INIT
exchange that begins, its completion, its timeout, the keep-alive limit, the PHY's loss and return, a re-initialisation, a FENCE brick, and
an INIT brick in each state. -/
def Obligations.LinkEngine : Prop :=
  let downAs (s t : State) (p c : Nat) : Prop := t = s.linkDown p c ∧ (t.lk p).st = .down ∧ (t.lk p).downCause = c ∧ (t.lk p).downAt = s.nowAt
  (∀ (s : State) (p : Nat), p < 64 → (s.lk p).st = .down → s.phyUp p = true → s.linkPermit p = true → (s.lk p).waitPhy = false →
    ((s.lk p).waitHoldoff = true → s.g (Reg.LNK_CTRL.holdoff p) ≤ s.over (s.lk p).downAt) →
    ∃ t, exec (.linkInitStart p) s = .next t ∧ (t.lk p).st = .init ∧ (t.lk p).kaCount = 0 ∧ (t.lk p).initResume = false ∧
      (t.lk p).initAt = s.nowAt ∧ OnlyWrites [.lnk] s t) ∧
  (∀ (s : State) (p : Nat), p < 64 → (s.lk p).st = .init → s.g (Reg.LNK_CTRL.init_limit p) ≤ s.over (s.lk p).initAt →
    ∃ t, exec (.initTimeout p) s = .next t ∧ downAs s t p 4) ∧
  (∀ (s : State) (p : Nat), p < 64 → ((s.lk p).st = .init ∨ (s.lk p).st = .up ∨ (s.lk p).st = .hold) →
    max 4 (s.g (Reg.LNK_CTRL.ka_limit p)) ≤ (s.lk p).kaCount →
    ∃ t, exec (.keepaliveTimeout p) s = .next t ∧ downAs s t p (if s.phyUp p then 1 else 6)) ∧
  (∀ (s : State) (p : Nat), p < 64 → s.phyUp p = false → (s.lk p).st = .up → ∃ t, exec (.phyDown p) s = .next t ∧
    t.lk p = { s.lk p with st := .hold } ∧ OnlyWrites [.lnk] s t) ∧
  (∀ (s : State) (p : Nat), p < 64 → s.phyUp p = false → (s.lk p).st = .down → ∃ t, exec (.phyDown p) s = .next t ∧
    t.lk p = { s.lk p with waitPhy := false } ∧ OnlyWrites [.lnk] s t) ∧
  (∀ (s : State) (p : Nat), p < 64 → s.phyUp p = true → (s.lk p).st = .hold → ∃ t, exec (.phyUp p) s = .next t ∧
    (t.lk p).st = .init ∧ (t.lk p).initResume = true ∧ (t.lk p).replay = (s.lk p).replay ∧ OnlyWrites [.lnk] s t) ∧
  (∀ (s : State) (p : Nat), p < 64 → s.mode ≠ .fenced → (s.lk p).st = .up → ∃ t, exec (.linkReinit p) s = .next t ∧
    (t.lk p).st = .init ∧ (t.lk p).initResume = true ∧ (t.lk p).replay = (s.lk p).replay ∧ OnlyWrites [.lnk] s t) ∧
  (∀ (s : State) (p : Nat), p < 64 → s.mode ≠ .off → ((s.lk p).st = .up ∨ (s.lk p).st = .init ∨ (s.lk p).st = .hold) →
    ∃ t, exec (.fenceBrickRx p) s = .next t ∧ downAs (s.validBrick p) t p 3 ∧ (t.lk p).waitPhy = true) ∧
  (∀ (s : State) (p : Nat), p < 64 → s.mode ≠ .off → ((s.lk p).st = .down ∨ (s.lk p).st = .fencing) →
    exec (.fenceBrickRx p) s = .next (s.validBrick p)) ∧
  (∀ (s : State) (p : Nat) (b : Data), p < 64 → s.mode ≠ .off → ∃ t, exec (.initBrickRx p b) s = .next t ∧
    ((s.lk p).st = .init → t = (s.validBrick p).rxInit p b) ∧
    ((s.lk p).st = .up → t = ((s.validBrick p).noteInit p b).startInit p true ∧ (t.lk p).st = .init ∧ (t.lk p).initResume = true ∧
      (t.lk p).initHeard = false ∧ (t.lk p).echo = some (b.field 7 0 8, s.ticks)) ∧
    ((s.lk p).st = .hold → t = (s.validBrick p).noteInit p b ∧ (t.lk p).st = .hold ∧ (t.lk p).echo = some (b.field 7 0 8, s.ticks)) ∧
    ((s.lk p).st = .down ∨ (s.lk p).st = .fencing → t = s.validBrick p)) ∧
  (∀ (s : State) (p : Nat), p < 64 → (s.lk p).st = .init → ∃ t u : State, exec (.initBrickTx p) s = .next t ∧ t = u.tryUp p ∧
    (u.lk p).probeTag = ((s.lk p).probeTag + 1) % 256 ∧ u.ctr (Ctr.LNK_TX_BRICK_COUNT p) = s.ctr (Ctr.LNK_TX_BRICK_COUNT p) + 1 ∧
    u.out = (s.putBrick p (brickBytes 9 0 0 (s.initBody p))).out) ∧
  (∀ (s : State) (p : Nat) (x : Bool × Nat × Bool), (s.lk p).readyHeard = some x → (s.lk p).st = .init → 8 ≤ (s.lk p).readySent →
    8 ≤ (s.lk p).samples → ((s.tryUp p).lk p).st = .up ∧ ((s.tryUp p).lk p).expected = 0 ∧
      ((s.tryUp p).lk p).resumed = (x.1 && (s.lk p).initResume)) ∧
  (∀ (s : State) (p : Nat), (s.lk p).st ≠ .init ∨ (s.lk p).readySent < 8 ∨ (s.lk p).samples < 8 ∨ (s.lk p).readyHeard = none → s.tryUp p = s)

/-! ### Routing and scheduling -/

/-- R158, R160, R164 to R166, R170, R172, R173: the route stage handles the first unrouted packet of an input: a bad header, a
packet of a class the mode discards, and a packet beyond its life are discarded, the first and the last with their counters
and sources; a packet of the management planes goes to its engine's output and any other on to its path. CONG_ROW and CONG_COL
of this course enter the map and leave the input; one of another course is counted and discarded, one from another sender is a
misroute. The device's own CONG_COL goes out once every row neighbour has been heard or at cycle 640, by cycle 895 (R68). A
command whose condition does not hold changes nothing (the model's choice, notes/assumptions/3). -/
def Obligations.Routing : Prop :=
  (∀ (s : State) (i : Nat) (p : InPkt), s.unrouted i = some p → s.routing = true → ∃ t, exec (.packetRoute i) s = .next t ∧
    (badHeader p.head.hdr = true → t = ((s.bump Ctr.RTE_HDR_ERR_COUNT).raise (srcRte 1) 0 i).discard i p) ∧
    (badHeader p.head.hdr = false → s.mode = .train → Hdr.cls p.head.hdr ≠ 3 → t = (s.bump Ctr.RTE_MODE_DROP_COUNT).discard i p) ∧
    (badHeader p.head.hdr = false → s.mode ≠ .train → (i < 64 → Hdr.vc p.head.hdr ≠ 7 → s.role (Hdr.setTag p.head.hdr) i ≠ 4) →
      ¬ Hdr.type p.head.hdr ∈ [0x3E, 0x3F, 0x34, 0x35] →
      (∀ old, s.lifeCheck (Hdr.birth p.head.hdr) = some old →
        t = ((s.bump (if old then Ctr.RTE_LIFE_DROP_COUNT else Ctr.RTE_FUTURE_DROP_COUNT)).raise (srcRte 0) 0 i).discard i p) ∧
      (s.lifeCheck (Hdr.birth p.head.hdr) = none → Hdr.cls p.head.hdr = 3 → t = s.toOut i p 71) ∧
      (s.lifeCheck (Hdr.birth p.head.hdr) = none → Hdr.cls p.head.hdr = 2 → Hdr.dst p.head.hdr = s.me → t = s.toOut i p 70) ∧
      (s.lifeCheck (Hdr.birth p.head.hdr) = none → Hdr.cls p.head.hdr < 2 → t = s.routeArrived i p))) ∧
  (∀ (s : State) (b : Nat), b < 65536 → ∃ d, d = (s.course % 65536 + 65536 - b) % 65536 ∧
    s.lifeCheck b = (if d ≤ s.life ∨ d = 65535 then none else some (decide (d ≤ 32767)))) ∧
  (∀ (s : State) (i r : Nat) (p : InPkt) (c : Instr), i < 64 → s.unrouted i = some p → p.len ≤ p.got → badHeader p.head.hdr = false →
    s.live = true → ((c = .congRowRx i ∧ Hdr.type p.head.hdr = 0x3E ∧ r = 1) ∨ (c = .congColRx i ∧ Hdr.type p.head.hdr = 0x3F ∧ r = 2)) →
    ∃ t, exec c s = .next t ∧
      (s.role s.crs.active i = r → Hdr.src p.head.hdr = (s.pp i).farDevice → (s.pp i).farValid = true →
        (Hdr.birth p.head.hdr = s.course % 65536 →
          (r = 1 → Tbl.find? t.rte.rows (s.peer s.crs.active i) = some (p.head.field 16 0 64)) ∧
          (r = 2 → Tbl.find? t.rte.cols (s.peer s.crs.active i) = some (p.data.field 16 0 1024, p.data.field 144 0 16)) ∧
          t.inq i = (s.inq i).filter (fun x => x.id != p.id)) ∧
        (Hdr.birth p.head.hdr ≠ s.course % 65536 → t = (s.bump Ctr.RTE_MAP_LATE_COUNT).discard i p)) ∧
      (s.role s.crs.active i ≠ r ∨ Hdr.src p.head.hdr ≠ (s.pp i).farDevice ∨ (s.pp i).farValid = false → t = s.misrouteDrop i p)) ∧
  (∀ s : State, s.live = true → s.rte.colSent = false → 256 ≤ s.crs.cycle → s.crs.cycle ≤ 895 →
    ((∀ p ∈ s.rowPorts.filter s.up, (s.rte.rows.map Prod.fst).contains (s.peer s.crs.active p) = true) ∨ 640 ≤ s.crs.cycle) →
    ∃ t u, exec .congColTx s = .next t ∧ u = s.sendCongCols false ∧ t = { u with rte := { u.rte with colSent := true } } ∧
      t.rte.rows = s.rte.rows ∧ (∀ i, (s.inq i).length ≤ (t.inq i).length)) ∧
  (∀ s : State, s.rte.colSent = true ∨ s.crs.cycle < 256 ∨ 895 < s.crs.cycle → exec .congColTx s = .next s)

/-- R152, R162, R179, R180: a port DOWN for ra_courses is dead and its waiting packets are re-evaluated; UP for revive courses it is
live again; a role is a shadow write; a LIFE outside 256 to 16,384 is a bad access, and while a swap is armed or takes effect the
write is refused and noted. -/
def Obligations.PortsAndLife : Prop :=
  (∀ (s : State) (p : Nat), p < 64 → s.counting = true → (s.lk p).st = .down →
    max 1 (s.g Reg.RTE_RA_CFG.ra_courses) ≤ Tbl.get (fun _ => 0) s.rte.downRun p → ∃ t u, exec (.portDead p) s = .next t ∧ t = u.reevaluate p ∧
    u = { s with rte := { s.rte with dead := setAdd s.rte.dead p, deadSeen := setAdd s.rte.deadSeen p } } ∧ p ∈ u.rte.dead ∧ p ∈ u.rte.deadSeen) ∧
  (∀ (s : State) (p : Nat), p < 64 → s.rte.dead.contains p = true → (s.lk p).st = .up →
    s.g Reg.RTE_RA_CFG.revive ≤ Tbl.get (fun _ => 0) s.rte.upRun p → ∃ t, exec (.portRevive p) s = .next t ∧
    (∀ q, q ∈ t.rte.dead ↔ q ∈ s.rte.dead ∧ q ≠ p) ∧ OnlyWrites [.rte] s t) ∧
  (∀ (s : State) (req : Requester) (p v : Nat), p < 64 → mayConfigure s req (Reg.RTE_PORT_ROLE.off p) → ∃ d t, locPf (Reg.RTE_PORT_ROLE.off p) = .reg d p 0 0 ∧
    d.id = .RTE_PORT_ROLE ∧ exec (.portRoleWrite req p v) s = .next t ∧
    t = ((s.lockCheck d 0 (s.word (Reg.RTE_PORT_ROLE.off p)) (v % 2 ^ 32)).shadowWrite d p 0 (Reg.RTE_PORT_ROLE.off p) (v % 2 ^ 32)).settle ∧
    (s.shadowClosed = false → s.crs.active < 2 →
      t.setW s.shadow (Reg.RTE_PORT_ROLE.off p) = d.merge 0 (s.setW s.shadow (Reg.RTE_PORT_ROLE.off p)) (v % 2 ^ 32) true % 2 ^ 32)) ∧
  (∀ (s : State) (req : Requester) (v : Nat), mayConfigure s req Reg.RTE_LIFE.off → s.rwlOpen = true →
    exec (.lifeWrite req v) s = .next (if v % 2 ^ 15 < 256 ∨ 16384 < v % 2 ^ 15 then s.badAccess
      else if s.crs.busyEnd.isSome = true ∨ s.crs.armed = true then s.put Reg.RTE_STATUS.life_refused 1
      else s.put Reg.RTE_LIFE.life (v % 2 ^ 15)).settle)

/-- R187 to R191, R194, R199, R306: an output that is free serves VC7 first unless its cap is reached, then its round robin; the
injection arbiter serves responses before requests, and requests by their classes; one that order does not hold gets its path,
and a request is charged to its shaper and its meter first; packets a meter has deferred are tested again. A command whose
condition does not hold changes nothing (the model's choice, notes/assumptions/3). -/
def Obligations.Scheduling : Prop :=
  (∀ (s : State) (o : Nat), o < 72 → (s.outSt o).cur = none →
    (s.vcHead o 7 = none → exec (.outputSchedule o) s = .next ((s.setOut o { s.outSt o with vc7Wait := false }).scheduleDrr o)) ∧
    (∀ (i : Nat) (p : InPkt), s.vcHead o 7 = some (i, p) → s.capped o ((List.range 7).any (fun vc => (s.vcHead o vc).isSome)) = false →
      ∃ t, exec (.outputSchedule o) s = .next t ∧ t = s.startPkt o i 7 p ∧ (o < 64 → (t.outSt o).cur = some (i, p.id))) ∧
    (∀ (i : Nat) (p : InPkt), s.vcHead o 7 = some (i, p) → s.capped o ((List.range 7).any (fun vc => (s.vcHead o vc).isSome)) = true →
      ((s.outSt o).vc7Wait = true → exec (.outputSchedule o) s = .next (s.scheduleDrr o)) ∧
      ((s.outSt o).vc7Wait = false → exec (.outputSchedule o) s = .next
        ((((s.setOut o { s.outSt o with vc7Wait := true }).bump Ctr.SCH_VC7_CAP_COUNT).raise (srcSch 3) 0 0).scheduleDrr o)))) ∧
  (∀ (s : State) (o : Nat) (e : Nat × Nat), (s.outSt o).cur = some e → exec (.outputSchedule o) s = .next s) ∧
  (∀ (s : State) (h : Nat) (p : InjPkt), h < 6 → s.live = true →
    (s.injQ h).find? (fun p => !p.request && !p.held && !behindHeld s.allInj p) = some p → exec (.packetInject h) s = .next (s.inject h p)) ∧
  (∀ (s : State) (h : Nat), h < 6 → s.live = true → (∀ p ∈ s.injQ h, p.request = true) →
    ∃ (u : State) (r : Option InjPkt × List Nat), r = (s.noteGates h).pickRequest h ∧
    u = { s.noteGates h with sch := { (s.noteGates h).sch with injDef := Tbl.put (fun _ => zeros 6) (s.noteGates h).sch.injDef h r.2 } } ∧
    exec (.packetInject h) s = .next (match r.1 with | some p => (u.inject h p).keepCharge (s.noteGates h) h | none => u)) ∧
  (∀ (s : State) (h : Nat) (p : InjPkt), s.holdForOrder h p = none → (p.request = false → s.inject h p = s.injectAs h p 0) ∧
    (p.request = true → p.passed = none → ∀ c u, (s.chargeShaper p).colourOf p = (c, u) → c ≠ 2 → s.inject h p = u.injectAs h p c) ∧
    (∀ c, p.request = true → p.passed = some c → s.inject h p = s.injectAs h p c)) ∧
  (∀ (s : State) (h : Nat) (p : InjPkt) (t : State), s.holdForOrder h p = some t → s.inject h p = t ∧ t = s.putInj h { p with held := true }) ∧
  (∀ s : State, s.sch.retest = true → ∃ t, exec .deferredRetest s = .next t ∧ t.sch.retest = false) ∧
  (∀ s : State, s.sch.retest = false → exec .deferredRetest s = .next s)

/-! ### The host interface -/

/-- R209, R214, R216, R218, R241, R248: a doorbell completes: an aligned 64-bit write with its reserved bits zero to the doorbell's offset
in a page of its function's BAR2, for a queue of a group that the function owns, outside FENCED, moves its ring's counter; with the arm
bit the ring is armed, or its vector sent where entries wait. -/
def Obligations.DoorbellsComplete : Prop :=
  let inTime (s : State) (v : Cq) : Prop := v.state = .stalled → s.since v.stallCourse ≤ max 1 (s.g Reg.HIF_CQ_CFG.stall_limit)
  (∀ (s : State) (f o d q : Nat) (v : Sq), s.mode ≠ .fenced → o % 4096 = 0 → d < 2 ^ 35 → s.ownsGroup f (s.bellGroup f o) = true →
    q = 8 * s.bellGroup f o + d / 2 ^ 32 → s.sq? q = some v → v.state = .ready → v.owner = f →
    serialCmp (d % 2 ^ 32) v.l.toNat 32 = .after → (BitVec.ofNat 32 d - v.c).toNat ≤ 2 ^ v.n →
    exec (.sqDoorbell f o 8 d) s = .next (s.setSq q { v with l := BitVec.ofNat 32 d })) ∧
  (∀ (s : State) (f o d c : Nat) (v : Cq), s.mode ≠ .fenced → o % 4096 = 8 → d < 2 ^ 35 → s.ownsGroup f (s.bellGroup f o) = true →
    c = 4 * s.bellGroup f o + d / 2 ^ 32 % 4 → s.cq? c = some v → v.state ≠ .overflow → v.owner = f → inTime s v →
    bellOk v.cons (BitVec.ofNat 32 d) v.prod = true → ∃ t u w, exec (.cqDoorbell f o 8 d) s = .next t ∧
      u = (if BitVec.ofNat 32 d = v.cons then s.setCq c { v with cons := BitVec.ofNat 32 d }
           else (s.setCq c { v with cons := BitVec.ofNat 32 d }).cqDrain c) ∧
      t = (if bit d 34 then u.armCq c else u) ∧ t.cq? c = some w ∧ w.cons = BitVec.ofNat 32 d) ∧
  (∀ (s : State) (f o d : Nat) (e : Eq), s.mode ≠ .fenced → o % 4096 = 16 → d < 2 ^ 33 → s.ownsGroup f (s.bellGroup f o) = true →
    Tbl.find? s.hif.eqs f = some e → bellOk e.cons (BitVec.ofNat 32 d) e.prod = true → ∃ t w, exec (.eqDoorbell f o 8 d) s = .next t ∧
      t = s.eqBell f f f (BitVec.ofNat 32 d) (bit d 32) ∧ Tbl.find? t.hif.eqs f = some w ∧ w.cons = BitVec.ofNat 32 d ∧
      w.armed = (if bit d 32 then decide (w.prod = w.cons) else e.armed && decide (w.prod = e.prod))) ∧
  (∀ (s : State) (f o d r : Nat) (e : Eq), s.mode ≠ .fenced → o % 4096 = 24 → d < 2 ^ 35 → r = devRing (d / 2 ^ 32 % 4) →
    Tbl.find? s.hif.eqs r = some e → isPf f = true → e.owner = f → bellOk e.cons (BitVec.ofNat 32 d) e.prod = true →
    ∃ t w, exec (.deviceEqDoorbell f o ⟨8, d⟩) s = .next t ∧ t = s.eqBell r r f (BitVec.ofNat 32 d) (bit d 34) ∧
      Tbl.find? t.hif.eqs r = some w ∧ w.cons = BitVec.ofNat 32 d ∧
      w.armed = (if bit d 34 then decide (w.prod = w.cons) else e.armed && decide (w.prod = e.prod)))

/-- R214, R215, R218, R241: a doorbell value out of range is discarded and counted, and of an SQ takes the queue to ERROR; so is a write of
another form or by another function, or for a CQ in OVERFLOW, which a CQ that has stalled for longer than the limit is in before the doorbell is
processed (R240); a write at another offset than the doorbell's has no effect. -/
def Obligations.DoorbellsRefused : Prop :=
  let inTime (s : State) (v : Cq) : Prop := v.state = .stalled → s.since v.stallCourse ≤ max 1 (s.g Reg.HIF_CQ_CFG.stall_limit)
  (∀ (s : State) (f o d q : Nat) (v : Sq), s.mode ≠ .fenced → o % 4096 = 0 → d < 2 ^ 35 → s.ownsGroup f (s.bellGroup f o) = true →
    q = 8 * s.bellGroup f o + d / 2 ^ 32 → s.sq? q = some v → v.state = .ready → v.owner = f →
    (serialCmp (d % 2 ^ 32) v.l.toNat 32 = .before → ∃ t, exec (.sqDoorbell f o 8 d) s = .next t ∧
      t = (s.bump Ctr.HIF_MALFORMED_COUNT).sqError q 0x10 (some (BitVec.ofNat 32 d))) ∧
    (serialCmp (d % 2 ^ 32) v.l.toNat 32 = .after → 2 ^ v.n < (BitVec.ofNat 32 d - v.c).toNat → ∃ t, exec (.sqDoorbell f o 8 d) s = .next t ∧
      t = (s.bump Ctr.HIF_MALFORMED_COUNT).sqError q 0x11 (some (BitVec.ofNat 32 d)))) ∧
  (∀ (s : State) (f o d c : Nat) (v : Cq), s.mode ≠ .fenced → o % 4096 = 8 → d < 2 ^ 35 → s.ownsGroup f (s.bellGroup f o) = true →
    c = 4 * s.bellGroup f o + d / 2 ^ 32 % 4 → s.cq? c = some v → v.owner = f →
    (v.state ≠ .overflow → inTime s v → bellOk v.cons (BitVec.ofNat 32 d) v.prod = false →
      exec (.cqDoorbell f o 8 d) s = .next (s.dbDrop.raise (srcHif 4) 0 c (some f))) ∧
    (v.state = .overflow → exec (.cqDoorbell f o 8 d) s = .next s.dbDrop) ∧
    (v.state = .stalled → ¬ inTime s v → ∃ t w, exec (.cqDoorbell f o 8 d) s = .next t ∧ t = (s.cqOverflow c).dbDrop ∧ t.cq? c = some w ∧
      w.state = .overflow)) ∧
  (∀ (s : State) (f o d : Nat) (e : Eq), s.mode ≠ .fenced → o % 4096 = 16 → d < 2 ^ 33 → s.ownsGroup f (s.bellGroup f o) = true →
    f < 0x1000 → Tbl.find? s.hif.eqs f = some e → bellOk e.cons (BitVec.ofNat 32 d) e.prod = false →
    exec (.eqDoorbell f o 8 d) s = .next (s.dbDrop.raise (srcHif 4) 0 f (some f) 1)) ∧
  (∀ (s : State) (f o n d : Nat), s.mode ≠ .fenced → o % 8 ≠ 0 ∨ n ≠ 8 ∨ 2 ^ 35 ≤ d % 2 ^ 64 ∨ s.ownsGroup f (s.bellGroup f o) = false →
    (o % 4096 < 8 → exec (.sqDoorbell f o n d) s = .next s.dbDrop) ∧
    (8 ≤ o % 4096 → o % 4096 < 16 → exec (.cqDoorbell f o n d) s = .next s.dbDrop) ∧
    (16 ≤ o % 4096 → o % 4096 < 24 → exec (.eqDoorbell f o n d) s = .next s.dbDrop)) ∧
  (∀ (s : State) (f o n d : Nat), 32 ≤ o % 4096 → exec (.sqDoorbell f o n d) s = .next s ∧ exec (.cqDoorbell f o n d) s = .next s ∧
    exec (.eqDoorbell f o n d) s = .next s ∧ exec (.deviceEqDoorbell f o ⟨n, d⟩) s = .next s)

/-- R221 to R225, R234, R242: a command opcode written to an idle function page starts its command on the argument words as they
stand; a command whose checks pass creates, changes or destroys its object and finishes OK (the destruction of an endpoint and
of a send queue finishes later), and an opcode that is not defined finishes MALFORMED with detail 1. R221, R224: a write of a
command register while a command runs only sets cmd_overrun; in OFF, STRAP and FENCED, and while the function resets, it does
nothing. -/
def Obligations.FunctionCommandStates : Prop :=
  (∀ (s : State) (f : Nat), s.mode ≠ .off → s.mode ≠ .strap → s.mode ≠ .fenced → (s.fn f).flrBusy = false → (s.fn f).busy = false →
     let args := (List.range 12).map (fun i => s.word (Reg.HIF_FN_CMD_ARG.off f i))
     let started (op : Nat) : State := s.setFn f { s.fn f with busy := true, op := op, args := args }
     let A (i : Nat) : Nat := s.word (Reg.HIF_FN_CMD_ARG.off f i)
     let done (t : State) : Prop := (t.fn f).busy = false ∧ (t.fn f).status = stOK ∧ (t.fn f).detail = 0
     exec (.epCreate f) s = .next ((started 1).epCreate f) ∧ exec (.epDestroy f) s = .next ((started 2).epDestroy f) ∧
     exec (.sqCreate f) s = .next ((started 3).sqCreate f) ∧ exec (.cqCreate f) s = .next ((started 6).cqCreate f) ∧
     (∀ e, e = bits (A 0) 0 16 → s.ownsGroup f (e / 4) = true →
       (s.mode = .service → s.ep? e = none → s.cqOf (bits (A 1) 0 16) f = true → bits (A 2) 0 5 ≤ 20 → s.inQuarantine e = false →
         s.slotTakes (bits (A 0) 16 10) f = true → ∃ t v, exec (.epCreate f) s = .next t ∧ t.ep? e = some v ∧ v.owner = f ∧
           v.slot = bits (A 0) 16 10 ∧ v.rcq = bits (A 1) 0 16 ∧ v.as_ = bits (A 1) 16 16 ∧ v.m = bits (A 2) 0 5 ∧ v.rxStamp = bit (A 2) 6 ∧
           v.destroying = false ∧ done t) ∧
       (∀ v, s.live = true → s.ep? e = some v → v.owner = f → (∀ q ∈ s.hif.sqs, q.2.ep ≠ e) → s.epHasKey e = false →
         exec (.epDestroy f) s = .next ((((started 2).setEp e { v with destroying := true }).teardown e).colLeaveAll e))) ∧
     (∀ q, q = bits (A 0) 0 17 → s.mode = .service → s.ownsGroup f (q / 8) = true → s.sq? q = none → s.cqOf (bits (A 1) 0 16) f = true →
       s.epOf (bits (A 1) 16 16) f = true → ringOk (bits (A 2) 0 5) (A 4 + A 5 * 2 ^ 32) 64 = true →
       (∀ e, s.ep? (bits (A 1) 16 16) = some e → e.destroying = false) → ∃ t v, exec (.sqCreate f) s = .next t ∧ t.sq? q = some v ∧ v.owner = f ∧
         v.cq = bits (A 1) 0 16 ∧ v.ep = bits (A 1) 16 16 ∧ v.n = bits (A 2) 0 5 ∧ v.tc = bits (A 2) 8 2 ∧ v.base = A 4 + A 5 * 2 ^ 32 ∧
         v.l = BitVec.ofNat 32 (A 3) ∧ v.f = v.l ∧ v.c = v.l ∧ v.state = .ready ∧ v.ents = [] ∧ done t) ∧
     (∀ c, c = bits (A 0) 0 16 → s.mode = .service → s.ownsGroup f (c / 4) = true → s.cq? c = none → bits (A 1) 0 11 < vectors f →
       ringOk (bits (A 2) 0 5) (A 4 + A 5 * 2 ^ 32) 32 = true → startOk (bits (A 2) 0 5) (A 3) = true →
       (bit (A 1) 16 = true → (A 6 + A 7 * 2 ^ 32) % 8 = 0) → ∃ t v, exec (.cqCreate f) s = .next t ∧ t.cq? c = some v ∧ v.owner = f ∧
         v.n = bits (A 2) 0 5 ∧ v.vector = bits (A 1) 0 11 ∧ v.base = A 4 + A 5 * 2 ^ 32 ∧ v.start = BitVec.ofNat 32 (A 3) ∧ v.prod = v.start ∧
         v.cons = v.start ∧ v.armed = false ∧ v.state = .active ∧ v.held = [] ∧ done t) ∧
     (∀ op, op < 256 → op = 0 ∨ 10 < op → exec (.fnCmdUndefined f op) s = .next ((started op).fnDone f stMALFORMED 1)) ∧
     (∀ q v, q = bits (s.word (Reg.HIF_FN_CMD_ARG.off f 0)) 0 17 → s.sq? q = some v → s.ownsGroup f (q / 8) = true →
       (s.live = true → exec (.sqDestroy f) s = .next ((started 4).setSq q { v with state := .destroying })) ∧
       (s.mode = .service ∨ s.mode = .drain → v.state = .error → s.sqWritten q v = true → (∀ c, s.cq? v.cq = some c → c.state ≠ .overflow) →
         ∀ n, n = BitVec.ofNat 32 (s.word (Reg.HIF_FN_CMD_ARG.off f 3)) → exec (.sqRestart f) s = .next
         (((started 5).setSq q { v with state := .ready, l := n, f := n, c := n, errCode := 0, errCtr := 0, fetched := false, errOwed := false }).settleXlt.fnDone f stOK 0))) ∧
     (∀ c v, c = bits (s.word (Reg.HIF_FN_CMD_ARG.off f 0)) 0 16 → s.cq? c = some v → s.ownsGroup f (c / 4) = true →
       (s.live = true → (∀ q ∈ s.hif.sqs, q.2.cq ≠ c) → (∀ e ∈ s.hif.eps, e.2.rcq ≠ c) → ∃ t, exec (.cqDestroy f) s = .next t ∧
         t.cq? c = none ∧ (t.fn f).busy = false ∧ (t.fn f).status = stOK) ∧
       (s.mode = .service ∨ s.mode = .drain → startOk v.n (s.word (Reg.HIF_FN_CMD_ARG.off f 3)) = true → s.owedSlots c v ≤ 2 ^ v.n →
         exec (.cqReset f) s = .next
           (((started 8).cqReset c v (BitVec.ofNat 32 (s.word (Reg.HIF_FN_CMD_ARG.off f 3)))).settle.fnDone f stOK 0))) ∧
     (∀ r, s.eqNamed f (bits (s.word (Reg.HIF_FN_CMD_ARG.off f 0)) 0 3) = some r →
       (Tbl.find? s.hif.eqs r = none → bits (s.word (Reg.HIF_FN_CMD_ARG.off f 1)) 0 11 < vectors f →
         ringOk (bits (s.word (Reg.HIF_FN_CMD_ARG.off f 2)) 0 5)
           (s.word (Reg.HIF_FN_CMD_ARG.off f 4) + s.word (Reg.HIF_FN_CMD_ARG.off f 5) * 2 ^ 32) 16 = true →
         startOk (bits (s.word (Reg.HIF_FN_CMD_ARG.off f 2)) 0 5) (s.word (Reg.HIF_FN_CMD_ARG.off f 3)) = true →
         ∃ t e, exec (.eqCreate f) s = .next t ∧ Tbl.find? t.hif.eqs r = some e ∧ e.owner = f ∧ e.armed = false ∧ e.held = [] ∧ e.lost = 0 ∧
           e.prod = BitVec.ofNat 32 (s.word (Reg.HIF_FN_CMD_ARG.off f 3)) ∧ e.cons = e.prod ∧ e.start = e.prod ∧
           (t.fn f).busy = false ∧ (t.fn f).status = stOK) ∧
       (∀ e, Tbl.find? s.hif.eqs r = some e → ∃ t, exec (.eqDestroy f) s = .next t ∧ Tbl.find? t.hif.eqs r = none ∧
         (t.fn f).busy = false ∧ (t.fn f).status = stOK))) ∧
  (∀ (s : State) (f op : Nat) (run : State → State),
     (s.mode = .off ∨ s.mode = .strap ∨ s.mode = .fenced ∨ (s.fn f).flrBusy = true → s.fnWrite f op run = s) ∧
     (s.mode ≠ .off → s.mode ≠ .strap → s.mode ≠ .fenced → (s.fn f).flrBusy = false → (s.fn f).busy = true →
       s.fnWrite f op run = s.setFn f { s.fn f with cmdOverrun := true }))

/-- R211, R212, R213, R226, R227, R272, R381: what ends the objects of a function: the rest of an EP_DESTROY, after which the
number is in quarantine, and of an SQ_DESTROY; the end of a quarantine; a write of HIF_FN_GROUPS by the PF of its host port,
taken or refused as a whole; and a Function Level Reset, with its end once the function's keys are revoked. A command whose
condition does not hold changes nothing (the model's choice, notes/assumptions/3). -/
def Obligations.EndsOfObjects : Prop :=
  (∀ (s : State) (f e : Nat), (s.fn f).busy = true → (s.fn f).op = 2 → e = bits (s.fnArg f 0) 0 16 →
    exec (.epDestroyComplete f) s = .next (if (s.teardown e).epBusy e then s.teardown e else ((s.teardown e).removeEp e).fnDone f stOK 0)) ∧
  (∀ (s : State) (e : Nat) (v : Ep), s.ep? e = some v → (s.removeEp e).ep? e = none ∧
    Tbl.find? (s.removeEp e).hif.quar e = some ⟨s.crs.course + BitVec.ofNat 48 (2 * s.life), s.crs.cycle⟩) ∧
  (∀ (s : State) (e : Nat), s.inQuarantine e = false → exec (.epQuarantineEnd e) s = .next { s with hif := { s.hif with quar := Tbl.del s.hif.quar e } }) ∧
  (∀ (s : State) (e : Nat), s.inQuarantine e = true → exec (.epQuarantineEnd e) s = .next s) ∧
  (∀ (s : State) (f q : Nat) (v : Sq), (s.fn f).busy = true → (s.fn f).op = 4 → q = bits (s.fnArg f 0) 0 17 → s.sq? q = some v →
    s.sqWritten q v = true → ∃ t, exec (.sqDestroyComplete f) s = .next t ∧ t.sq? q = none ∧ (t.fn f).busy = false ∧ (t.fn f).status = stOK) ∧
  (∀ (s : State) (f v : Nat), s.mode ≠ .off → s.mode ≠ .strap → s.mode ≠ .fenced → ∀ req, req = .fn (hpOf f * 256) →
    (s.groupsRefused f (bits v 0 14) (bits v 14 14) = false → ∃ t, exec (.fnGroupsWrite req f v) s = .next t ∧
      t.word (Reg.HIF_FN_GROUPS.off f) = v % 2 ^ 28 ∧ OnlyWrites [.regs] s t) ∧
    (s.groupsRefused f (bits v 0 14) (bits v 14 14) = true → exec (.fnGroupsWrite req f v) s = .next (s.setFn f { s.fn f with cfgRefused := true }))) ∧
  (∀ (s : State) (req : Requester) (f v : Nat), req ≠ .fn (hpOf f * 256) → exec (.fnGroupsWrite req f v) s = .next s) ∧
  (∀ (s : State) (f : Nat), s.mode ≠ .off → f < 1024 → s.hpPresent (hpOf f) = true → ∃ t, exec (.flr f) s = .next t ∧
    (isPf f = false → t = (s.flrOne f).settle ∧ ((s.flrOne f).fn f).flrBusy = true ∧ ((s.flrOne f).fn f).busy = false) ∧
    (isPf f = true →
      t = (((flrSet f).foldl (fun t g => if g = f ∨ (t.fn g).exists_ then t.flrOne g else t) s).loseRegions (hpOf f)).settle)) ∧
  (∀ (s : State) (f : Nat), (s.fn f).flrBusy = true →
    (∀ k ∈ s.rma.keys, ¬ (k.2.state = 2 ∧ keyHp k.1 = hpOf f ∧ (s.ownsEntry f (keyEntry k.1) = true ∨ hpOf f ∈ s.rma.tabEnd))) →
    ∃ t u, exec (.flrComplete f) s = .next t ∧ u = (s.invalidateFn (hpOf f) f).1 ∧ t = u.setFn f { u.fn f with flrBusy := false } ∧
      (t.fn f).flrBusy = false) ∧
  (∀ (s : State) (f : Nat), (s.fn f).flrBusy = true → ∀ k ∈ s.rma.keys, k.2.state = 2 → keyHp k.1 = hpOf f →
    s.ownsEntry f (keyEntry k.1) = true → exec (.flrComplete f) s = .next s)

/-- R228, R231, R232, R233, R237, R240, R246, R554: the life of a work entry and what ends a full ring: fetched in SERVICE, joined to its queue as
its read returns or finished HOST_BUS where the read fails, started, retired in order with its completion, in a mode that writes
completions (R37), flushed after an error; a CQ stalled for longer than the limit overflows; lost events are told of first. -/
def Obligations.WorkEntries : Prop :=
  (∀ (s : State) (q : Nat) (v : Sq), s.hif.sqs = [(q, v)] → s.mayFetch v = true → ∃ t, exec .workFetch s = .next t ∧
    t.sq? q = some { v with f := v.f + BitVec.ofNat 32 v.canFetch, reads := v.reads ++ [(v.f, v.canFetch)], fetched := true } ∧
    t.hif.fetchTurn = q ∧ t.ctr Ctr.HIF_FETCH_COUNT = s.ctr Ctr.HIF_FETCH_COUNT + BitVec.ofNat 64 v.canFetch ∧
    t.out = (s.hostRead (hpOf v.owner) v.owner (v.base + 64 * (v.f.toNat % 2 ^ v.n)) (64 * v.canFetch)).out) ∧
  (∀ (s : State) (v : Sq), v.canFetch ≤ 8 ∧ v.canFetch ≤ 2 ^ v.n ∧ (s.mayFetch v = true → s.mode = .service ∧ v.state = .ready)) ∧
  (∀ (s : State) (q n : Nat) (v : Sq) (k : RingCtr) (r : List (RingCtr × Nat)), s.sq? q = some v → v.reads = (k, n) :: r →
    (∀ d : Data, exec (.descriptorReadReturn q (.data d)) s = .next (s.takeEntries q { v with reads := r } k n d)) ∧
    (∀ c : Nat, exec (.descriptorReadReturn q (.error c)) s =
      .next ((s.failEntries q { v with reads := r } k c).raise (srcHif 1) 0 q (some v.owner)))) ∧
  (∀ (s : State) (q : Nat) (v : Sq) (e : Ent), s.startable q 0 = some (v, e) → exec (.nop q) s = .next (s.finishEntry q e.ctr (Res.ok 0))) ∧
  (∀ (s : State) (q : Nat) (v : Sq) (e : Ent) (es : List Ent) (r : Res), s.sq? q = some v → v.ents = e :: es → e.st = .done r → v.errCode = 0 →
    s.serving = true → s.cqOpen v.cq = true → exec (.entryRetire q) s = .next (s.retire q v e r) ∧
    (r.status = 0 → Wqe.complete e.raw = false → exec (.entryRetire q) s = .next (s.setSq q v.pop)) ∧
    (r.status = 0 → Wqe.complete e.raw = true → ∀ u, s.cqPost v.cq ((s.entrySlot q e r) :: r.slot2.toList) = (u, true) →
      exec (.entryRetire q) s = .next (u.onSq q Sq.pop)) ∧
    (r.status ≠ 0 → ∀ u, s.cqPost v.cq ((s.entrySlot q e r) :: r.slot2.toList) = (u, true) →
      exec (.entryRetire q) s = .next ((u.onSq q Sq.pop).sqError q 0x01 (some e.ctr)))) ∧
  (∀ (s : State) (q : Nat), s.serving = false → exec (.entryRetire q) s = .next s ∧ exec (.flushCompletion q) s = .next s) ∧
  (∀ (s : State) (q : Nat) (v : Sq), s.sq? q = some v → v.flushDue = true → v.quiet = true → s.serving = true → s.cqOpen v.cq = true → v.errOwed = false →
    (s.cqPost v.cq [s.flushedSlot q v]).2 = true → exec (.flushCompletion q) s =
      .next ((s.cqPost v.cq [s.flushedSlot q v]).1.onSq q (fun w => { w with flushDue := false, errOwed := false, ents := [] }))) ∧
  (∀ (s : State) (c : Nat) (v : Cq), s.cq? c = some v → v.state = .stalled →
    max 1 (s.g Reg.HIF_CQ_CFG.stall_limit) + 1 ≤ s.since v.stallCourse → (∀ e ∈ s.hif.sqs, e.2.cq = c → e.2.state ≠ .ready) →
    exec (.cqOverflow c) s = .next (((s.setCq c { v with state := .overflow }).bump Ctr.HIF_CQ_OVERFLOW_COUNT).raise (srcHif 3) 0 c (some v.owner))) ∧
  (∀ (s : State) (r : Nat) (e : Eq), Tbl.find? s.hif.eqs r = some e → 0 < e.lost → ringFull e.prod e.cons e.n = false →
    ∃ t u w, exec (.eventsLost r) s = .next t ∧
      u = (s.setEq r { e with lost := 0 }).eqPut r (eventEntry s.now (srcHif 5) 0 (s.src (srcHif 5)).seq.toNat r (min 127 e.lost)) ∧
      Tbl.find? u.hif.eqs r = some w ∧ w.prod = e.prod + 1 ∧ w.lost = 0 ∧
      t = (u.raiseMute (srcHif 5) r (if r < 0x1000 then some r else none)).eqDrain r 4 ∧
      (s.meets (srcHif 5) false = false → (t.src (srcHif 5)).status = true)) ∧
  (∀ (s : State) (r : Nat) (e : Eq), Tbl.find? s.hif.eqs r = some e → e.lost = 0 → exec (.eventsLost r) s = .next s)

/-! ### Address translation -/

/-- R262, R264, R270: a miss that no walk serves begins one, counted; a walk's read returns data, with which the walk goes on, to
its next read, its translation or its fault, or an error, which ends it in a fault at the place of that read; at the first
cycle of a course what is older than tlb_age courses goes, locked entries apart. A command whose condition does not hold
changes nothing (the model's choice, notes/assumptions/3). R271, R277: XLT_LOCK starts at the first page of its range, or goes
on at the page whose walk it waited for, locking page after page: it finishes OK with the slots it has taken after the last,
and ends where no slot is free or a page faults; XLT_UNLOCK frees the locks of its range, whose entries then age from now. -/
def Obligations.WalksAndLocks : Prop :=
  ((∀ (s : State) (u : Nat) (m : XReq), (s.xu u).misses.find? (fun m => !((s.xu u).walks.any (fun w => samePage w.req m))) = some m →
     s.unitPresent u = true → (s.xu u).walks.length < 32 → ∃ t, exec (.pageWalk u) s = .next (t.walkOn u (s.xu u).walks.length) ∧
     t = (s.setXu u { s.xu u with misses := (s.xu u).misses.erase m, walks := (s.xu u).walks ++ [⟨m, [], 0, 0⟩] }).bump (Ctr.XLT_MISS_COUNT u)) ∧
   (∀ (s : State) (u : Nat), 32 ≤ (s.xu u).walks.length → exec (.pageWalk u) s = .next s) ∧
   (∀ (s : State) (u i : Nat) (w : Walk), (s.xu u).walks[i]? = some w →
     (∀ d : Data, exec (.walkReadReturn u i (.data d)) s =
       .next ((s.setXu u { s.xu u with walks := (s.xu u).walks.set i { w with reads := w.reads ++ [⟨w.asked, d.val, false⟩] } }).walkOn u i)) ∧
     (∀ c : Nat, exec (.walkReadReturn u i (.error c)) s =
       .next (s.walkFault u i w.req (w.priv []) ⟨5, w.asked / 64, w.asked / 8 % 8, w.asked % 8, w.addr, c⟩ false))) ∧
   (∀ (s : State) (u i : Nat) (w : Walk), (s.xu u).walks[i]? = some w → w.req.use ≠ .owner →
     (∀ e k, s.translate u w = .ok e k → s.walkOn u i = (s.wcFill u k.learn).walkFill u i w.req e) ∧
     (∀ f k, s.translate u w = .fault f k → s.walkOn u i = (s.wcFill u k.learn).walkFault u i w.req (w.priv k.used) f false) ∧
     (∀ a n st lv s1 rid k, s.translate u w = .need a n st lv s1 rid k → ∃ v, (((s.walkOn u i).xu u).walks[i]? = some v) ∧ v.req = w.req ∧
       v.addr = a ∧ (s.walkOn u i).ctr (Ctr.XLT_WALK_READ_COUNT u) = s.ctr (Ctr.XLT_WALK_READ_COUNT u) + 1)) ∧
   (∀ (s : State) (u : Nat), u < 4 → s.live = true → s.crs.cycle = 0 → ∃ t, exec (.tlbAgeExpiry u) s = .next t ∧
     (∀ e, e ∈ (t.xu u).tlb ↔ e ∈ (s.xu u).tlb ∧ (e.locked = true ∨ s.since e.fill < max 256 (s.g Reg.XLT_AGE_CFG.tlb_age))) ∧
     (∀ e, e ∈ (t.xu u).wc ↔ e ∈ (s.xu u).wc ∧ s.since e.fill < max 256 (s.g Reg.XLT_AGE_CFG.tlb_age)) ∧
     t.ctr (Ctr.XLT_AGE_COUNT u) = s.ctr (Ctr.XLT_AGE_COUNT u) +
       BitVec.ofNat 64 ((s.xu u).tlb.length - (t.xu u).tlb.length + ((s.xu u).wc.length - (t.xu u).wc.length)) ∧
     OnlyWrites [.xlt, .ctrs] s t)) ∧
  ((∀ (s : State) (q : Nat) (v w : Sq) (e : Ent), s.sq? q = some v → v.runningOp (fun op => op == 0x3C) = none → s.startable q 0x3C = some (w, e) →
     exec (.xltLock q) s = .next (s.lockPages q e (Xw.unit e.raw) w.owner (Xw.pages e.raw) 0 0)) ∧
   (∀ (s : State) (q n : Nat) (v : Sq) (e : Ent), s.sq? q = some v → v.runningOp (fun op => op == 0x3C) = some (e, n) →
     exec (.xltLock q) s = .next (s.lockPages q e (Xw.unit e.raw) v.owner (Xw.pages e.raw - n / 2 ^ 40) (n / 2 ^ 40) (n % 2 ^ 40))) ∧
   (∀ (s : State) (q u f i n : Nat) (e : Ent), s.lockPages q e u f 0 i n = s.finishEntry q e.ctr (Res.ok n)) ∧
   (∀ (s t : State) (q u f k i n : Nat) (e : Ent) (r : LockRes),
     s.lockPage u ⟨Xw.as_ e.raw, Xw.va e.raw + 4096 * i, 0, f, false, false, .lock, .entry q e.ctr⟩ = (t, r) →
     (r = .held → s.lockPages q e u f (k + 1) i n = t.lockPages q e u f k (i + 1) n) ∧
     (r = .locked → s.lockPages q e u f (k + 1) i n = t.lockPages q e u f k (i + 1) (n + 1)) ∧
     (r = .wait → s.lockPages q e u f (k + 1) i n = t.runEntry q e.ctr (i * 2 ^ 40 + n)) ∧
     (r = .full → s.lockPages q e u f (k + 1) i n = t.finishEntry q e.ctr { Res.ok n with status := stRESOURCE })) ∧
   (∀ (s : State) (q : Nat) (v : Sq) (e : Ent), s.startable q 0x3D = some (v, e) → ∃ t, exec (.xltUnlock q) s = .next t ∧
     (t.xu (Xw.unit e.raw)).tlb = (s.xu (Xw.unit e.raw)).tlb.map (fun f =>
       if f.locked = true ∧ f.as_ = Xw.as_ e.raw ∧ f.page < Xw.va e.raw + Xw.pages e.raw * 4096 ∧ Xw.va e.raw < f.page + 2 ^ f.size then
         { f with locked := false, fill := s.crs.course }
       else f)))

/-- R269, R273, R274, R275: an invalidation that a PF's queue starts, or a VF's whose address space is its own, discards what its
scope covers, locked entries too, begins again the walks in its scope, and completes with its count once no access translated
before it is outstanding; on another host port than the unit's it first reads nothing from the unit's own (that
XLT_INV_COMPLETE given again stands for that read's return is the model's choice, notes/assumptions/92). A command whose
condition does not hold changes nothing (the model's choice, notes/assumptions/3). -/
def Obligations.Invalidations : Prop :=
  (∀ (s : State) (q : Nat) (v : Sq) (e : Ent), isPf v.owner = true →
    let u := Xw.unit e.raw
    let lo := Xw.va e.raw
    let hi := Xw.va e.raw + Xw.pages e.raw * 4096
    let runs (r : State × Nat) : Host.Outcome State Fault Refusal := .next (r.1.invRun q e u r.2 false)
    (s.startable q 0x38 = some (v, e) → exec (.xltInvAddr q) s =
      runs (s.invalidate u (fun e' => e'.as_ == Xw.as_ e.raw && e'.page < hi && lo < e'.page + 2 ^ e'.size)
        (fun e' => e'.kind ≤ 1 && e'.as_ == Xw.as_ e.raw) (fun w => w.req.as_ == Xw.as_ e.raw))) ∧
    (s.startable q 0x39 = some (v, e) → exec (.xltInvAs q) s = runs (s.invalidate u (fun e' => e'.as_ == Xw.as_ e.raw)
        (fun e' => e'.kind ≤ 1 && e'.as_ == Xw.as_ e.raw) (fun w => w.req.as_ == Xw.as_ e.raw))) ∧
    (s.startable q 0x3A = some (v, e) → exec (.xltInvFn q) s = runs (s.invalidateFn u (Xw.fn e.raw))) ∧
    (s.startable q 0x3B = some (v, e) → exec (.xltInvAll q) s = runs (s.invalidate u (fun _ => true) (fun _ => true) (fun _ => true)))) ∧
  (∀ (s t : State) (q : Nat) (v : Sq) (e : Ent) (r : Owns), isPf v.owner = false → s.startable q 0x39 = some (v, e) →
    s.ownsAs (Xw.unit e.raw) ⟨Xw.as_ e.raw, 0, 0, v.owner, false, false, .owner, .entry q e.ctr⟩ = (t, r) →
    (r = .no → exec (.xltInvAs q) s = .next (t.malformed q e 0x0103)) ∧ (r = .wait → exec (.xltInvAs q) s = .next t) ∧
    (r = .yes → ∃ y, y = t.invalidate (Xw.unit e.raw) (fun e' => e'.as_ == Xw.as_ e.raw) (fun e' => e'.kind ≤ 1 && e'.as_ == Xw.as_ e.raw)
      (fun w => w.req.as_ == Xw.as_ e.raw) ∧ exec (.xltInvAs q) s = .next (y.1.invRun q e (Xw.unit e.raw) y.2 false))) ∧
  (∀ (s t : State) (q : Nat) (v : Sq) (e : Ent) (r : Owns), isPf v.owner = false → s.startable q 0x38 = some (v, e) →
    s.ownsAs (Xw.unit e.raw) ⟨Xw.as_ e.raw, Xw.va e.raw, 0, v.owner, false, false, .owner, .entry q e.ctr⟩ = (t, r) →
    (r = .no → exec (.xltInvAddr q) s = .next (t.malformed q e 0x0103)) ∧ (r = .wait → exec (.xltInvAddr q) s = .next t) ∧
    (r = .yes → Xw.badRange e.raw = true → exec (.xltInvAddr q) s = .next (t.malformed q e 0x0104)) ∧
    (r = .yes → Xw.badRange e.raw = false → ∃ y, y = t.invalidate (Xw.unit e.raw)
      (fun e' => e'.as_ == Xw.as_ e.raw && e'.page < Xw.va e.raw + Xw.pages e.raw * 4096 && Xw.va e.raw < e'.page + 2 ^ e'.size)
      (fun e' => e'.kind ≤ 1 && e'.as_ == Xw.as_ e.raw) (fun w => w.req.as_ == Xw.as_ e.raw) ∧
      exec (.xltInvAddr q) s = .next (y.1.invRun q e (Xw.unit e.raw) y.2 false))) ∧
  (∀ (s : State) (u : Nat) (f : TlbEnt → Bool) (g : WcEnt → Bool) (w : Walk → Bool), (∀ k ∈ (s.xu u).walks, w k = false) →
    ∀ e, e ∈ ((s.invalidate u f g w).1.xu u).tlb ↔ e ∈ (s.xu u).tlb ∧ f e = false) ∧
  (∀ (s : State) (q n : Nat) (v : Sq) (e : Ent), s.sq? q = some v → v.runningOp (fun op => 0x38 ≤ op && op ≤ 0x3B) = some (e, n) →
    n % 2 = 1 ∨ (s.readsOut (n / 2 % 4) = false ∧ hpOf v.owner = n / 2 % 4) →
    exec (.xltInvComplete q) s = .next (s.finishEntry q e.ctr (Res.ok (n / 8)))) ∧
  (∀ (s : State) (q n u : Nat) (v : Sq) (e : Ent), s.sq? q = some v → v.runningOp (fun op => 0x38 ≤ op && op ≤ 0x3B) = some (e, n) →
    u = n / 2 % 4 → n % 2 = 0 → s.readsOut u = false → hpOf v.owner ≠ u → ∃ a, exec (.xltInvComplete q) s =
      .next ((s.hostRead u (u * 256) a 0).invRun q e u (n / 8) true)) ∧
  (∀ (s : State) (q n : Nat) (v : Sq) (e : Ent), s.sq? q = some v → v.runningOp (fun op => 0x38 ≤ op && op ≤ 0x3B) = some (e, n) →
    n % 2 = 0 → s.readsOut (n / 2 % 4) = true → exec (.xltInvComplete q) s = .next s)

/-! ### Femir transport -/

/-- R285 to R288, R310 to R312, R325, R326, R329, R331: contexts and order records read from host memory and written back, and the
commands of TRN_CMD: each runs with the arguments as they stand; one that finishes at once leaves its result, another leaves
busy set; the last clause says what each does when its checks pass, and which requesters they turn away. A command whose
condition does not hold changes nothing (the model's choice, notes/assumptions/3). -/
def Obligations.TransportRecords : Prop :=
  (∀ (s : State) (k : Nat) (e : Nat × Bool), s.trn.loads.find? (fun e => e.1 == k) = some e → ∃ u : State,
    u = { s with trn := { s.trn with loads := s.trn.loads.filter (fun x => x.1 != k) } } ∧
    (∀ d : Data, exec (.contextLoad k (.data d)) s = .next (u.recordRead k d e.2).settle) ∧
    (∀ c : Nat, exec (.contextLoad k (.error c)) s = .next ((u.raise (srcTrn 3) 0 (ctxRegion k)).recordBad k c e.2).settle)) ∧
  (∀ (s u : State) (k : Nat) (d : Data) (i : Bool) (v : Slot), s.slot? (ctxSlot k) = some v → u = (s.bump Ctr.TRN_REFILL_COUNT).makeRoom →
    u.trn.ctxs.length < u.cacheCap 8 65536 →
    (d.field 12 0 1 = 1 ∧ d.field 8 0 32 = v.epoch →
      s.recordRead k d i = ((u.fillBank 8 k).setCtx k { Ctx.ofRec d with inbound := i }).resetLoaded k) ∧
    (¬ (d.field 12 0 1 = 1 ∧ d.field 8 0 32 = v.epoch) → ∃ f, f = (u.fillBank 8 k).freshCtx v.epoch ∧
      s.recordRead k d i = ((f.2.bump Ctr.TRN_CTX_CREATE_COUNT).setCtx k { f.1 with inbound := i }).resetLoaded k)) ∧
  (∀ (s : State) (k : Nat) (c : Ctx) (v : Slot), s.ctx? k = some c → s.pinned k c = false → s.slot? (ctxSlot k) = some v →
    ∃ t, exec (.contextEvict k) s = .next t ∧ t.ctx? k = none ∧
      (c.dirty = true → c.noWrite = false → t.ctr Ctr.TRN_SPILL_COUNT = s.ctr Ctr.TRN_SPILL_COUNT + 1 ∧
        t.out = (s.hostWrite (ctxHp k) (ctxHp k * 256) (s.recAddr k) (c.toRec k v.domain v.encrypt)).out) ∧
      (c.dirty = false ∨ c.noWrite = true → t.out = s.out)) ∧
  (∀ (s : State) (k : Nat) (c : Ctx), s.ctx? k = some c → s.pinned k c = true → exec (.contextEvict k) s = .next s) ∧
  (∀ (s : State) (i : Nat) (r : ReadResult), exec (.orderRecordReadReturn i r) s = .next (s.orderReturn i r).settle) ∧
  (∀ (s t : State) (i k : Nat) (e : Ep), s.mch.orderReads[i]? = some k → s.ep? (okEp k) = some e →
    t = s.onMch (fun m => { m with orderReads := m.orderReads.eraseIdx i }) →
    (∀ d v, t.lookupBucket k (e.bucket k) d = some v → s.orderReturn i (.data d) = t.cacheOrder k v) ∧
    (∀ d, t.lookupBucket k (e.bucket k) d = none → Tbl.find? (s.orderReturn i (.data d)).mch.orderBad k = some 2) ∧
    (∀ c, Tbl.find? (s.orderReturn i (.error c)).mch.orderBad k = some (4 + c))) ∧
  (∀ (s : State) (req : Requester), mayConfigure s req Reg.TRN_CMD.off → ∃ (d : RegDef) (c : Nat → State), locPf Reg.TRN_CMD.off = .reg d 0 0 0 ∧
    (∀ op, c op = (s.lockCheck d 0 (s.word Reg.TRN_CMD.off) op).trnCmd req op) ∧
    exec (.keySet req) s = .next (c 1).settle ∧ exec (.keyClear req) s = .next (c 2).settle ∧ exec (.regionSet req) s = .next (c 3).settle ∧
    exec (.regionClear req) s = .next (c 4).settle ∧ exec (.ctxReset req) s = .next (c 5).settle ∧ exec (.ctxFlush req) s = .next (c 6).settle) ∧
  (∀ (s : State) (req : Requester) (op : Nat), 1 ≤ op → op ≤ 6 →
    (s.g Reg.TRN_CMD_STATUS.busy = 1 → s.trnCmd req op = s) ∧
    (s.g Reg.TRN_CMD_STATUS.busy = 0 → ∃ (u : State) (r : State × Option Nat),
      u = (s.put Reg.TRN_CMD.opcode op).put Reg.TRN_CMD_STATUS.requester req.identity ∧ r = u.trnRun req op ∧
      s.trnCmd req op = (match r.2 with
        | some c => (r.1.put Reg.TRN_CMD_STATUS.result c).settle
        | none => r.1.put Reg.TRN_CMD_STATUS.busy 1))) ∧
  (∀ (s : State) (req : Requester), let A (i : Nat) : Nat := s.word (Reg.TRN_CMD_ARG.off i)
    ∀ n h, n = bits (A 0) 0 10 → h = bits (A 0) 12 2 →
    (req.mgmt = false → (s.trnRun req 1) = (s, some 1) ∧ (s.trnRun req 2) = (s, some 1)) ∧
    (req.mgmt = true → s.slotNamed n none = false → s.slotRegions n = false →
      ((∀ e ∈ s.trn.slots, e.1 ≠ n → e.2.domain ≠ bits (A 1) 0 16) → s.recent s.trn.slotEnd n = false → ∃ u v, s.trnRun req 1 = (u.tableWrite (tagKey n) 8, some 0) ∧
        u.slot? n = some v ∧ v.domain = bits (A 1) 0 16 ∧ v.epoch = A 2 ∧ OnlyWrites [.trn] s u) ∧
      (∃ u, s.trnRun req 2 = (u.tableWrite (tagKey n) 8, some 0) ∧ u.slot? n = none ∧ OnlyWrites [.trn] s u)) ∧
    (∀ i, req = .fn i → i ≠ h * 256 → ∀ op, 3 ≤ op → op ≤ 6 → s.trnRun req op = (s, some 1)) ∧
    (req.mgmt = true ∨ req = .fn (h * 256) → s.hpPresent h = true →
      (∀ k b v, k = bits (A 1) 0 5 → b = A 2 + A 3 * 2 ^ 32 → k ≤ 20 → b % 4096 = 0 → s.regionTotal + 2 ^ k ≤ 4194304 → s.region? h n = none →
        s.recent s.trn.cleared (h * 1024 + n) = false → s.slot? n = some v → Tbl.find? s.trn.stale (h * 1024 + n) ≠ some v.epoch →
        ∃ u, s.trnRun req 3 = (u, some 0) ∧ u.region? h n = some ⟨k, b⟩ ∧ OnlyWrites [.trn] s u) ∧
      (s.slotNamed n (some h) = false → s.trnRun req 4 = (s.regionEnd h n 4 false, some 0)) ∧
      (∀ k c, k = ctxKey h n (bits (A 1) 0 22) → s.covered h n (bits (A 1) 0 22) = true → s.ctx? k = some c →
        s.trnRun req 5 = (s.ctxError k 3 none, some 0)) ∧
      s.trnRun req 6 = (s.regionFlush (h * 1024 + n), some 0)))

/-- R292, R296 to R308, R317, R322: operations and packets: an ACK goes out when its coalescing or rate time is over, an expired
timer retransmits what is old and lengthens the timeout, at the limit of transmissions the context enters ERROR, a rolled or
left direction begins its next generation with its sequence numbers afresh, a refused operation is sent again after the delay,
and one that has waited the limit finishes. A command whose condition does not hold changes nothing (the model's choice,
notes/assumptions/3). R176, R292, R293, R296, R298, R302: packets sent and received: an operation's next packet, with its
payload in hand; the next packet of a hub port, where no response waits behind a request, which is checked and then handled in
its context; an ACK of the present generation, which is acted on; and a RESULT, which counts towards, refuses or finishes the
request it answers and is only counted where none waits for it. -/
def Obligations.TransportPacketsAndTimers : Prop :=
  ((∀ (s : State) (k st t0 : Nat) (c : Ctx), s.ctx? k = some c → st < 2 → s.live = true →
     ((c.rxS st).firstAt = some t0 → t0 + s.g Reg.TRN_ACK_CFG.coalesce ≤ s.cycles → exec (.ackCoalesceExpiry k st) s = .next (s.sendAck k st)) ∧
     ((c.rxS st).waiting = true → (c.rxS st).lastAck.getD 0 + 64 ≤ s.cycles → exec (.ackRateRelease k st) s = .next (s.sendAck k st))) ∧
   (∀ (s : State) (k st t0 : Nat) (c : Ctx), s.ctx? k = some c → st < 2 → s.live = true → (c.txS st).timer = some t0 →
     t0 + s.rto (c.txS st).backoff ≤ s.cycles → ∃ (t : State) (b : Nat) (old : List TxPkt),
     old = (c.txS st).pkts.filter (fun p => !p.sacked && (match p.sent with | some x => decide (x + s.rto (c.txS st).backoff ≤ s.cycles) | none => false)) ∧
     exec (.retxTimerExpiry k st) s = .next (old.foldl (fun u p => u.retransmit k st p.psn) t).settle ∧
     b = max (c.txS st).backoff (min ((c.txS st).backoff + 1) (s.g Reg.TRN_RETX_CFG.max_backoff)) ∧
     t = (s.bump Ctr.TRN_TIMEOUT_COUNT).onCtx k (fun d => d.setTx st { c.txS st with timer := some s.cycles, backoff := b })) ∧
   (∀ (s : State) (k st n : Nat) (c : Ctx) (p : TxPkt), s.ctx? k = some c → (c.txS st).pkts.find? (fun p => p.psn == n) = some p →
     (p.waiting = true → s.retransmit k st n = s) ∧
     (p.waiting = false → max 1 (s.g Reg.TRN_RETX_CFG.retries) < p.attempt + 1 → s.retransmit k st n = s.ctxError k 1 (some p.op)) ∧
     (p.waiting = false → p.attempt + 1 ≤ max 1 (s.g Reg.TRN_RETX_CFG.retries) →
       (s.retransmit k st n).ctr Ctr.TRN_RETX_COUNT = s.ctr Ctr.TRN_RETX_COUNT + 1)) ∧
   (∀ (s : State) (k st : Nat) (c : Ctx) (v : Slot), s.ctx? k = some c → s.slot? (ctxSlot k) = some v → st < c.rx.length →
     ∃ d, (s.sendAck k st).ctx? k = some d ∧ (d.rxS st).firstAt = none ∧ (d.rxS st).waiting = false ∧ (d.rxS st).count = 0 ∧
       (d.rxS st).lastAck = some s.cycles ∧ ∃ i ∈ (s.sendAck k st).injQ (c.hash % 6), i.type = 0x11 ∧ i.ctx = k ∧ i.request = false) ∧
   (∀ (s : State) (k st t0 : Nat) (c : Ctx), s.ctx? k = some c → (c.txS st).timer = some t0 → s.cycles < t0 + s.rto (c.txS st).backoff →
     exec (.retxTimerExpiry k st) s = .next s) ∧
   (∀ (s : State) (k st : Nat) (c : Ctx) (p : TxPkt), s.ctx? k = some c → (c.txS st).pkts.find? (fun p => s.earlyDue (c.txS st) p) = some p →
     st < 2 → s.live = true → ∃ u : State, u = s.retransmit k st p.psn ∧ exec (.earlyRetx k st) s = .next (u.onCtx k (fun c => c.setTx st
       { c.txS st with pkts := (c.txS st).pkts.map (fun x => if x.psn = p.psn then { x with early := true } else x) })).settle) ∧
   (∀ (s : State) (k : Nat) (c : Ctx), s.ctx? k = some c → s.live = true → c.txGen ≠ 0xFFFFFFFF →
     (c.state = 1 → (∀ t ∈ c.tx, t.pkts = []) → (∀ e ∈ s.trn.ops, e.2.ctx = k → e.2.midway = false) → exec (.generationRoll k) s = .next ((s.onCtx k Ctx.nextGen).bump Ctr.TRN_ROLL_COUNT)) ∧
     (c.state = 2 → c.errDetail ≠ 7 → 2 * s.life ≤ s.since c.errCourse → exec (.ctxErrorExit k) s = .next (s.onCtx k Ctx.nextGen))) ∧
   (∀ c : Ctx, c.nextGen.txGen = c.txGen + 1 ∧ c.nextGen.state = 0 ∧ c.nextGen.rx = c.rx ∧ c.nextGen.rxGen = c.rxGen ∧
     ∀ t ∈ c.nextGen.tx, t.next = 0 ∧ t.acked = 0xFFFFFF ∧ t.pkts = []) ∧
   (∀ (s : State) (k : Nat) (c : Ctx), s.ctx? k = some c → c.state = 2 → c.errDetail = 7 ∨ s.since c.errCourse < 2 * s.life →
     exec (.ctxErrorExit k) s = .next s) ∧
   (∀ (s : State) (i : Nat) (c : When) (o : Op), s.op? i = some o → o.rnrAt = some c → s.live = true → o.done = none →
     max 1 (s.g Reg.TRN_RNR_CFG.delay) ≤ s.over c →
     exec (.rnrResend i) s = .next (s.setOp i { o with next := 0, sent := [], got := 0, rnrAt := none, ackedAt := none })) ∧
   (∀ (s : State) (i : Nat) (c : When) (o : Op), s.op? i = some o → o.ackedAt = some c → o.stream = 0 → o.done = none → o.rnrAt = none →
     o.got < o.resp → max 1 (s.g Reg.TRN_ACK_CFG.resp_limit) ≤ s.over c →
     exec (.responseTimeout i) s = .next (s.finishOp i (Res.of stTRANSPORT 5)).settle)) ∧
  ((∀ (s : State) (i : Nat) (hm : HostView) (o : Op), s.op? i = some o → (∀ a b c d e f, o.origin ≠ .getData a b c d e f) →
     exec (.transportSend i hm) s = .next (s.transportSend i hm).settle) ∧
   (∀ (s : State) (i : Nat) (hm : HostView) (o : Op) (v : Slot) (c : Ctx) (u : State) (d : Data), s.op? i = some o → s.opRuns o = true → o.done = none →
     o.next < o.total → o.rnrAt = none → (o.stream = 0 → s.midMessage o.ctx i = false) → s.behindOrdered i o = false →
     s.slot? (ctxSlot o.ctx) = some v → s.covered (ctxHp o.ctx) (ctxSlot o.ctx) (ctxRemote o.ctx) = true → s.ctx? o.ctx = some c → c.state ≠ 2 →
     c.sends o = true → ((c.txS o.stream).next - (c.txS o.stream).acked).toNat ≤ 256 →
     s.payload hm (ctxHp o.ctx) i o o.next = (u, .data d) → s.transportSend i hm = u.sendPkt i o c v d) ∧
   (∀ (s : State) (h : Nat), h < 6 → exec (.transportRx h) s = .next (s.transportRx h).settle ∧ exec (.ackRx h) s = .next (s.ackRx h).settle) ∧
   (∀ (s : State) (h j : Nat) (d : Data) (n : Nat), s.rxNext h = some j → (s.hubQ h)[j]? = some (d, n) → s.live = true → Hdr.crcOk d.hdr = false →
     s.transportRx h = ((s.hubDrop h j).bump Ctr.RTE_HDR_ERR_COUNT).raise (srcRte 1) 0 (64 + h)) ∧
   (∀ (s : State) (h : Nat) (d : Data) (n : Nat), s.hubQ h = [(d, n)] → isAck d = false → s.rxWaits d = false → s.rxNext h = some 0) ∧
   (∀ (s : State) (h j : Nat) (d : Data) (n : Nat), s.rxNext h = some j → (s.hubQ h)[j]? = some (d, n) → isResponse d = false →
     ∀ e ∈ s.hubQ h, isResponse e.1 = true → isAck e.1 = false → s.rxWaits e.1 = true) ∧
   (∀ (s : State) (a : Arr) (i : Nat) (o : Op), s.front [0x01] = some a →
     s.requestOf a (Th.at_ a.th 19 0 24) (Th.at_ a.th 22 0 8) = some (i, o) → o.done = none → o.rnrAt = none →
     exec .resultRx s = .next ((s.takeArr a).resultFor i o (Th.at_ a.th 23 0 8) (Th.at_ a.th 24 0 16)).settle) ∧
   (∀ (s : State) (i st dt : Nat) (o : Op), (st = 0 → s.resultFor i o st dt = s.setOp i { o with got := o.got + 1 }) ∧
     (st = stEP_UNAVAILABLE ∧ dt = 6 → s.resultFor i o st dt = s.rnrRefused i o) ∧
     (st ≠ 0 → ¬ (st = stEP_UNAVAILABLE ∧ dt = 6) → s.resultFor i o st dt = s.finishOp i (Res.of st dt))) ∧
   (∀ (s : State) (h j : Nat) (d : Data) (n : Nat) (k : Nat) (v : Slot) (c : Ctx), s.rxNext h = some j → (s.hubQ h)[j]? = some (d, n) → s.live = true →
     Hdr.crcOk d.hdr = true → s.lifeCheck (Hdr.birth d.hdr) = none → Hdr.type d.hdr = 0x00 ∨ Hdr.type d.hdr = 0x10 → s.rxKey d = some k →
     s.slot? (ctxSlot k) = some v → k ∉ s.trn.loadErr → s.ctx? k = some c →
     s.transportRx h = (s.hubDrop h j).rxChecked k v c d.hdr (bits d.val 128 256) (d.slice 48 (d.len - 48))) ∧
   (∀ (s : State) (h j n m k : Nat) (d b : Data) (c : Ctx), (s.hubQ h).findIdx? (fun e => isAck e.1) = some j → (s.hubQ h)[j]? = some (d, n) →
     s.live = true → s.lifeCheck (Hdr.birth d.hdr) = none → b = d.slice 16 48 → s.slotOf (b.field 0 0 16) = some m →
     k = ctxKey (Hdr.dstHp d.hdr) m (Hdr.src d.hdr * 4 + Hdr.srcHp d.hdr) →
     s.covered (Hdr.dstHp d.hdr) m (Hdr.src d.hdr * 4 + Hdr.srcHp d.hdr) = true → s.ctx? k = some c → b.field 5 0 8 = c.txGen.toNat % 256 →
     serialCmp (c.txS (b.field 6 0 1)).serialSeen.toNat (b.field 8 0 16) 16 = .before → s.ackRx h = (s.hubDrop h j).actOnAck k c b) ∧
   (∀ (s : State) (a : Arr), s.front [0x01] = some a → s.requestOf a (Th.at_ a.th 19 0 24) (Th.at_ a.th 22 0 8) = none →
     exec .resultRx s = .next ((s.takeArr a).bump Ctr.RMA_LATE_RESULT_COUNT)))

/-! ### Message matching -/

/-- R330, R338 to R345, R347, R351, R352: what a matching entry at the front of its queue does: a send whose order record is at
hand takes the next message number and starts, as an eager message or as a rendezvous with an entry of its own; a receive
takes the oldest unexpected message it satisfies and is posted otherwise, on chip or in the overflow list; a cancel takes the
receive it names off its list; a claimed message is received, a buffer is queued for landing, and an entry that finds nothing
or no room finishes with its status. No other match operation of the endpoint may be searching its list, and no accepted
arrival may be waiting to go first (R342). R342, R344, R348 to R350, R352, R354 to R356: a matching packet that comes first in
its endpoint's lane is handled by its opcode: a message packet of a header entry is placed there and another arrives, an
RV_GET of a waiting rendezvous sends its data or abandons it and any other is refused, and an RV_DATA of the present
generation is placed. A response waits behind no message. A SKIP that is owed is sent; an overflow record moves to the chip
when it has room; a record read in a search has been seen; a held rendezvous fails after its limit. A command whose condition
does not hold changes nothing (the model's choice, notes/assumptions/3). -/
def Obligations.Matching : Prop :=
  (∀ (s : State) (q : Nat) (v : Sq) (e : Ent) (p : Ep),
     (∀ r : OrderRec, s.epEntry q 0x01 = some (v, e, p) → Tbl.find? s.mch.orders (orderKey v.ep 1 (Mw.peer e.raw) (Mw.context e.raw)) = some r →
       exec (.msgSend q) s = .next (s.msgSend q v e p r).settle ∧ ∀ k, k = orderKey v.ep 1 (Mw.peer e.raw) (Mw.context e.raw) →
       (s.eager e.raw = true → s.msgSend q v e p r = (s.setMsn k (r.msn + 1)).sendEager q v e p r.msn.toNat) ∧
       (∀ i u, s.eager e.raw = false → s.pick 32768 (Tbl.keys s.mch.rvs) = (some i, u) →
         s.msgSend q v e p r = (u.setMsn k (r.msn + 1)).sendRts q v e p r.msn.toNat i)) ∧
     (∀ (i : Nat) (h : MHdr), s.epEntry q 0x02 = some (v, e, p) → s.findUnexpected v.ep (Mw.posted e.raw) = some (i, h) →
       s.entryWaits v.ep 0 = false → exec (.msgPost q) s = .next ((s.pair i h (Mw.posted e.raw).recv).finishEntry q e.ctr (Res.ok 0)).settle) ∧
     (s.epEntry q 0x02 = some (v, e, p) → s.findUnexpected v.ep (Mw.posted e.raw) = none → s.overOf v.ep = [] → s.postRoom (s.epOwner v.ep) = true →
       s.entryWaits v.ep 0 = false → exec (.msgPost q) s = .next ((s.setPosted v.ep (s.postedOf v.ep ++ [Mw.posted e.raw])).finishEntry q e.ctr (Res.ok 0))) ∧
     (s.epEntry q 0x02 = some (v, e, p) → s.findUnexpected v.ep (Mw.posted e.raw) = none → s.entryWaits v.ep 0 = false →
       (∀ t, s.postRecv v.ep (Mw.posted e.raw) = some t → exec (.msgPost q) s = .next (t.finishEntry q e.ctr (Res.ok 0))) ∧
       (s.postRecv v.ep (Mw.posted e.raw) = none → exec (.msgPost q) s = .next (s.finishEntry q e.ctr (Res.of stRESOURCE 0x0011)))) ∧
     (∀ t : State, s.epEntry q 0x03 = some (v, e, p) → s.entryWaits v.ep (3 + q) = false → s.search v.ep (3 + q) (fun p => p.user == Mw.user e.raw) = (t, .none_) →
       exec (.msgCancel q) s = .next (t.finishEntry q e.ctr (Res.ok 0))) ∧
     (∀ (t : State) (f : Found) (r : Posted), s.epEntry q 0x03 = some (v, e, p) → s.entryWaits v.ep (3 + q) = false →
       s.search v.ep (3 + q) (fun p => p.user == Mw.user e.raw) = (t, f) → f = .chip r ∨ f = .beyond r →
       exec (.msgCancel q) s = .next ((t.unpost v.ep f).cancelled q v e r)) ∧
     (∀ (r : Posted) (u : State), u = s.cancelPosted v.ep r 0 → ∀ c, c = ((s.ep? v.ep).map (fun x => x.rcq)).getD 0 →
       (u.cqClear c = true → s.cancelled q v e r = u.finishEntry q e.ctr (Res.ok 1)) ∧
       (u.cqClear c = false → (q, e.ctr, c) ∈ (s.cancelled q v e r).mch.cancels)) ∧
     (∀ (i : Nat) (h : MHdr), s.epEntry q 0x04 = some (v, e, p) → s.findUnexpected v.ep (Mw.posted e.raw) = some (i, h) → Mw.flag e.raw 1 = false →
       s.entryWaits v.ep 0 = false → exec (.msgProbe q) s = .next (s.finishEntry q e.ctr
         { status := stOK, detail := 0, byteCount := h.len, aux := h.tag, slot2 := some (s.msgSlot h 0) })) ∧
     (∀ (i : Nat) (h : MHdr), s.epEntry q 0x04 = some (v, e, p) → s.findUnexpected v.ep (Mw.posted e.raw) = some (i, h) → Mw.flag e.raw 1 = true →
       s.entryWaits v.ep 0 = false → ∃ t, exec (.msgProbe q) s = .next t ∧ t.hdr? i = some { h with st := .claimed }) ∧
     (∀ h : MHdr, s.epEntry q 0x05 = some (v, e, p) → s.hdr? (Mw.handle e.raw % 65536) = some h → h.st = .claimed → h.ep = v.ep →
       s.handle (Mw.handle e.raw % 65536) = Mw.handle e.raw → s.entryWaits v.ep 0 = false → exec (.msgMrecv q) s =
         .next ((s.pair (Mw.handle e.raw % 65536) h ⟨Mw.buf e.raw, Mw.len e.raw, Mw.user e.raw, 0x05, Wqe.override e.raw⟩).finishEntry q e.ctr
           (Res.ok 0)).settle) ∧
     (s.epEntry q 0x05 = some (v, e, p) → s.hdr? (Mw.handle e.raw % 65536) = none → exec (.msgMrecv q) s = .next (s.malformed q e 0x0103)) ∧
     (s.epEntry q 0x06 = some (v, e, p) → s.mch.landings.length < 65536 → s.g (Reg.MCH_FN_QUOTA.lb p.owner) = 0 →
       ∃ t l, exec (.msgPostLb q) s = .next t ∧ t.mch.nextLb = s.mch.nextLb + 1 ∧ Tbl.find? t.mch.landings s.mch.nextLb = some l ∧ l.ep = v.ep ∧
         l.addr = Mw.buf e.raw ∧ l.len = Mw.len e.raw ∧ l.user = Mw.user e.raw ∧ l.fill = 0 ∧ l.passed = false) ∧
     (s.epEntry q 0x06 = some (v, e, p) → 65536 ≤ s.mch.landings.length →
       exec (.msgPostLb q) s = .next (s.finishEntry q e.ctr (Res.of stRESOURCE 0x0012)))) ∧
  ((∀ (s : State) (a : Arr),
     (s.frontOp mchOps 0x10 Arr.lane s.mchWaits = some a → exec .eagerRx s = .next (s.onMsg a false).settle) ∧
     (s.frontOp mchOps 0x11 Arr.lane s.mchWaits = some a → exec .rtsRx s = .next (s.onMsg a true).settle) ∧
     (s.frontOp [0x12] 0x12 Arr.lane (fun _ => false) = some a → exec .rvGetRx s = .next (s.onRvGet a).settle) ∧
     (s.front [0x13] = some a → exec .rvDataRx s = .next (s.onRvData a).settle) ∧
     (s.frontOp mchOps 0x14 Arr.lane s.mchWaits = some a → exec .skipRx s = .next (s.onSkip a).settle)) ∧
   (∀ (s : State) (a : Arr) (b : Bool) (k : Nat) (r : OrderRec), s.wasRefused a = false → k = orderKey (Th.dstEp a.th) 0 a.source (Mf.context a.th) →
     Tbl.find? s.mch.orders k = some r →
     (s.hdrFind (Th.dstEp a.th) a.source (Mf.context a.th) (Mf.msn a.th) = none → s.onMsg a b = s.arriveNew a b k r) ∧
     (∀ i h, s.hdrFind (Th.dstEp a.th) a.source (Mf.context a.th) (Mf.msn a.th) = some (i, h) →
       (h.base = a.base → s.onMsg a b = (s.takeArr a).placeMsg i h (4096 * Th.index a.th) (a.msgBytes b)) ∧
       (h.base ≠ a.base → h.st ≠ .refused → s.onMsg a b = s.stray a))) ∧
   (∀ (s : State) (a : Arr) (id : Nat), id = Th.at_ a.th 19 0 32 →
     (Tbl.find? s.mch.rvs (id % 2 ^ 15) = none → s.onRvGet a = if Th.at_ a.th 27 0 1 = 1 then s.takeArr a else (s.takeArr a).result a .reply stREMOTE 0x0210 0) ∧
     (∀ x, Tbl.find? s.mch.rvs (id % 2 ^ 15) = some x → x.gen = id / 2 ^ 15 → (∀ e ∈ s.trn.ops, e.2.origin ≠ .rvData (id % 2 ^ 15) x.gen) →
       (Th.at_ a.th 27 0 1 = 1 → s.onRvGet a = (s.takeArr a).rvFail (id % 2 ^ 15) x (Res.of stEP_UNAVAILABLE 3)) ∧
       (Th.at_ a.th 27 0 1 ≠ 1 → ∃ (o : Op) (y : Rv) (u : State), s.onRvGet a = u.newOp o ∧ o.opcode = 0x13 ∧ o.ctx = a.ctx ∧ o.stream = 1 ∧
         Tbl.find? u.mch.rvs (id % 2 ^ 15) = some y ∧ y = { x with pulled := Th.opLen a.th }))) ∧
   (∀ (s u : State) (a : Arr) (id : Nat) (h : MHdr), id = Th.at_ a.th 19 0 32 → u = (s.takeArr a).rvGot (id % 2 ^ 16) (id / 2 ^ 16) →
     (u.hdr? (id % 2 ^ 16) = some h → u.hdrGen (id % 2 ^ 16) = id / 2 ^ 16 → h.st = .assembling → h.recv.isSome = true →
       s.onRvData a = u.placeMsg (id % 2 ^ 16) { h with dataSeen := true } (4096 * Th.index a.th) a.payload) ∧
     (u.hdrGen (id % 2 ^ 16) ≠ id / 2 ^ 16 → s.onRvData a = u)) ∧
   (∀ (s : State) (k : Skip) (c : Ctx), s.mch.skips.find? (fun k => s.canSkip k) = some k → s.mode = .service ∨ s.mode = .drain →
     (s.needCtx k.ctx false).2 = .have_ c → ∃ o : Op, o.opcode = 0x14 ∧ o.srcEp = k.srcEp ∧ o.dstEp = k.dst % 65536 ∧ o.ctx = k.ctx ∧
     exec .skipSend s = .next (((s.needCtx k.ctx false).1.onMch (fun m => { m with skips := m.skips.erase k })).newOp o)) ∧
   (∀ s : State, s.mode ≠ .service → s.mode ≠ .drain → exec .skipSend s = .next s) ∧
   (∀ (s : State) (ep : Nat) (hm : HostView) (p : Posted) (r : List Posted) (d : Data), s.overOf ep = p :: r → s.postRoom (s.epOwner ep) = true →
     s.live = true → s.laneHeld ep 0 = false → HostView.read hm (s.recAt (hpOf (s.epOwner ep)) (p.slot.getD 0)) 64 = .data d → ∃ t u : State, exec (.overflowRefill ep hm) s = .next t ∧
     t = u.setPosted ep (u.postedOf ep ++ [{ Posted.ofBytes d p with slot := none }]) ∧
     u.ctr Ctr.MCH_OVF_WALK_COUNT = s.ctr Ctr.MCH_OVF_WALK_COUNT + 1) ∧
   (∀ (s : State) (i : Nat) (r : ReadResult), exec (.overflowRecordReadReturn i r) s = .next (s.overflowReturn i r).settle) ∧
   (∀ (s : State) (i e k : Nat), s.mch.ovfReads[i]? = some (e, k) →
     (∀ d : Data, (s.overflowReturn i (.data d)).mch.ovfReads = s.mch.ovfReads.eraseIdx i ∧
       (s.overflowReturn i (.data d)).mch.ovfSeen = s.mch.ovfSeen ++ [(k, d.val % 2 ^ 512)] ∧
       (s.overflowReturn i (.data d)).ctr Ctr.MCH_OVF_WALK_COUNT = s.ctr Ctr.MCH_OVF_WALK_COUNT + 1) ∧
     (∀ c : Nat, (s.overflowReturn i (.error c)).mch.ovfBad = s.mch.ovfBad ++ [e])) ∧
   (∀ (s : State) (i : Nat) (x : Rv) (c : When), Tbl.find? s.mch.rvs i = some x → x.heldFrom = some c → s.g Reg.MCH_RV_CFG.wait_limit ≠ 0 →
     s.g Reg.MCH_RV_CFG.wait_limit < s.over c → (∀ e ∈ s.trn.ops, e.2.origin ≠ .rvData i x.gen) →
     exec (.rvWaitTimeout i) s = .next (s.rvFail i x (Res.of stTRANSPORT 5))))

/-! ### Remote memory -/

/-- R364, R366, R368, R373, R379, R380, R383: what a remote-memory entry at the front of its queue starts: a put, a get or an
atomic as an operation toward its peer; registering or revoking a key by its descriptor, the revocation's end once no
reference is left, and the end of its quarantine; discarding every cached descriptor of a range, which ends once no reference
is left on them. A command whose condition does not hold changes nothing (the model's choice, notes/assumptions/3). R369 to
R372, R374 to R378, R382 to R384: the remote-memory packet at the front of its host port's packets is handled. A PUT that
passes its checks is written where its region's translation says and answered by a RESULT; a GET takes a reference and begins
an operation of GET_DATA packets; an ATOMIC takes a reference and joins the atomics of the unit. A packet that a check refuses
has a RESULT of its own, and one whose descriptor cannot be cached another. GET_DATA and ATOMIC_DATA are written where the
operation they answer wants them. A queued atomic starts in order of arrival when its line is free: it reads its word, or
issues an AtomicOp for a host-atomic region; a read one writes the value its function gives and is answered; an AtomicOp that
answers is done, and a compare-and-swap that saw another value goes again until its limit. A descriptor read that returns is
cached, or remembered as failed. Atomics and packets move in SERVICE and DRAIN. -/
def Obligations.RemoteMemory : Prop :=
  ((∀ (s : State) (q : Nat) (v : Sq) (e : Ent) (p : Ep),
     (∀ c, (c = .rmaPut q ∧ s.epEntry q 0x10 = some (v, e, p)) ∨ (c = .rmaPutNotify q ∧ s.epEntry q 0x12 = some (v, e, p)) →
       ∃ o : Op, exec c s = .next ((s.runEntry q e.ctr 0).newOp o) ∧ o.opcode = 0x40 ∧ o.total = max 1 (ceilDiv (Rw.len e.raw) 4096) ∧
         o.resp = o.total ∧ o.opLen = Rw.len e.raw ∧ o.pay = .host p.as_ (Rw.local_ e.raw) (Rw.len e.raw) p.owner (Wqe.override e.raw)) ∧
     (s.epEntry q 0x11 = some (v, e, p) → ∃ o : Op, exec (.rmaGet q) s = .next ((s.runEntry q e.ctr 0).newOp o) ∧ o.opcode = 0x41 ∧
       o.resp = max 1 (ceilDiv (Rw.len e.raw) 4096) ∧ o.fields = (rmaOp q v e p 0x41 (Rw.len e.raw) 0).fields) ∧
     (s.epEntry q 0x13 = some (v, e, p) → ∃ o : Op, exec (.rmaAtomic q) s = .next ((s.runEntry q e.ctr 0).newOp o) ∧ o.opcode = 0x43 ∧ o.resp = 1 ∧
       o.opLen = Rw.bytes e.raw)) ∧
   (∀ (s : State) (q : Nat) (v : Sq) (e : Ent) (d : Desc) (i : Nat), i = Kw.index e.raw → s.keyInTable i = true → s.goodCopy i = some d →
     (s.startable q 0x14 = some (v, e) → exec (.keyReg q) s = .next (s.keyReg q e d)) ∧
     (s.startable q 0x15 = some (v, e) → exec (.keyRevoke q) s = .next (s.keyRevoke q e d))) ∧
   (∀ (s : State) (q : Nat) (v : Sq) (e : Ent), s.keyInTable (Kw.index e.raw) = false → s.startable q 0x14 = some (v, e) →
     exec (.keyReg q) s = .next (s.finishEntry q e.ctr (Res.of stRESOURCE 0))) ∧
   (∀ (s : State) (q : Nat) (e : Ent) (d : Desc), s.keySt (Kw.index e.raw) = none → Ds.state d.raw = 0 → ∃ t k, t = s.keyReg q e d ∧
     t.keySt (Kw.index e.raw) = some k ∧ k.state = 1 ∧ k.ep = Ds.ep (keyRaw e.raw (Ds.tag d.raw) (Ds.revoked d.raw))) ∧
   (∀ (s : State) (q : Nat) (e : Ent) (d : Desc) (k : KeySt) (i : Nat), i = keyIndex (Wqe.at_ e.raw 16 0 32) → s.keySt i = some k →
     (k.state = 1 → keyTag (Wqe.at_ e.raw 16 0 32) = Ds.tag d.raw → ∃ t w, t = s.keyRevoke q e d ∧ t.keySt i = some w ∧ w.state = 2 ∧ w.ep = k.ep ∧
       w.by_ = some (q, e.ctr)) ∧
     (k.state = 2 → s.keyRevoke q e d = s.finishEntry q e.ctr (Res.of stSTATE 2)) ∧
     (k.state ≠ 2 → k.state ≠ 1 ∨ keyTag (Wqe.at_ e.raw 16 0 32) ≠ Ds.tag d.raw → s.keyRevoke q e d = s.finishEntry q e.ctr (Res.of stSTATE 1))) ∧
   (∀ (s : State) (i : Nat) (k : KeySt) (d : Desc), s.keySt i = some k → k.state = 2 → s.keyRefs i = 0 → s.goodCopy i = some d →
     ∃ r t, r = Ds.clean (setBits (setBits (Ds.setState d.raw 3) 128 8 (Ds.tag d.raw + 1)) 208 48 s.course) ∧
       exec (.keyRevokeComplete i) s = .next t ∧
       t = (((s.setRaw i r).hostWrite (keyHp i) (keyHp i * 256) (s.descAddr i) ⟨32, r⟩).revoked i k).endTables) ∧
   (∀ (s : State) (i : Nat) (k : KeySt), s.keySt i = some k → k.state ≠ 2 ∨ s.keyRefs i ≠ 0 → exec (.keyRevokeComplete i) s = .next s.endTables) ∧
   (∀ (s : State) (i : Nat) (k : KeySt), s.keySt i = some k → k.state = 3 → s.quarOver k.revoked.toNat = true →
     exec (.keyQuarantineEnd i) s = .next (s.setKey i none)) ∧
   (∀ (s : State) (i : Nat) (k : KeySt), s.keySt i = some k → s.quarOver k.revoked.toNat = false → exec (.keyQuarantineEnd i) s = .next s) ∧
   (∀ (s : State) (q : Nat) (v : Sq) (e : Ent), s.startable q 0x16 = some (v, e) → ∃ t, exec (.keyInv q) s = .next t ∧
     (∀ d, d ∈ t.rma.descs ↔ d ∈ s.rma.descs ∧ (d.1 < Kw.index e.raw ∨ Kw.index e.raw + Wqe.at_ e.raw 20 0 32 ≤ d.1)) ∧
     (∃ m, m = s.rma.descs.filter (fun d => decide (Kw.index e.raw ≤ d.1 ∧ d.1 < Kw.index e.raw + Wqe.at_ e.raw 20 0 32)) ∧
       t.rma.invs = s.rma.invs ++ [(q, e.ctr, m.length, m.map (fun d => d.2.uid))])) ∧
   (∀ (s : State) (q : Nat) (x : Nat × RingCtr × Nat × List Nat), s.rma.invs.find? (fun x => x.1 == q) = some x →
     (∀ u ∈ x.2.2.2, Tbl.get (fun _ => 0) s.rma.refs u = 0) →
     exec (.keyInvComplete q) s = .next ((s.onRma (fun r => { r with invs := r.invs.erase x })).finishEntry q x.2.1 (Res.ok x.2.2.1)))) ∧
  ((∀ (s c x : State) (a : Arr) (d : Desc) (q : XReq) (l : List (Nat × Nat)), s.frontOp rmaOps 0x40 Arr.hp s.arrWaits = some a →
     s.rmaCheck a 3 (Th.opLen a.th) 1 false = (c, .ok d) → q = c.regionReq d (Ds.va d.raw + Rf.offset a.th + 4096 * Th.index a.th) 3 a.who →
     c.xlateRun a.hp q a.payload.len = (x, .run l) → x.piecesHeld a.hp l = false → x.atomicsAhead a.hp x.rma.nextId = false →
     exec .putRx s = .next ((((x.takeArr a).bump Ctr.RMA_PUT_PKT_COUNT).writePieces a.hp q.identity l a.payload).result a .reply stOK 0 0).settle) ∧
   (∀ (s c : State) (a : Arr) (d : Desc), s.frontOp rmaOps 0x41 Arr.hp s.arrWaits = some a → s.rmaCheck a 2 (Th.opLen a.th) 1 (Rf.spec a.th) = (c, .ok d) →
     ∃ o : Op, exec .getRx s = .next ((((c.takeArr a).bump Ctr.RMA_GET_COUNT).addRef d.uid).newOp o).settle ∧ o.opcode = 0x42 ∧ o.ctx = a.ctx ∧
       o.stream = 1 ∧ o.opLen = Th.opLen a.th ∧ o.total = max 1 (ceilDiv (Th.opLen a.th) 4096) ∧ o.srcEp = Th.dstEp a.th ∧ o.dstEp = Th.srcEp a.th ∧
       o.fields = packB [(0, 24, a.psn), (3, 8, a.gen)]) ∧
   (∀ (s c : State) (a : Arr) (d : Desc), s.frontOp rmaOps 0x43 Arr.hp s.arrWaits = some a → s.rmaCheck a 4 a.size (max 1 a.size) false = (c, .ok d) →
     ∃ t u : State, exec .atomicRx s = .next u.settle ∧ t = (c.takeArr a).addRef d.uid ∧ u.rma.nextId = t.rma.nextId + 1 ∧ u.rma.refs = t.rma.refs ∧
       ∃ y, u.rma.atomics = t.rma.atomics ++ [y] ∧ y.id = t.rma.nextId ∧ y.acc = a ∧ y.uid = d.uid ∧ y.hostAtomic = Ds.hostAtomic d.raw ∧
         y.va = Ds.va d.raw + Rf.offset a.th ∧ y.st = .queued) ∧
   (∀ (s c : State) (a : Arr) (e : Nat),
     (s.frontOp rmaOps 0x40 Arr.hp s.arrWaits = some a →
       (s.rmaCheck a 3 (Th.opLen a.th) 1 false = (c, .refuse e) → exec .putRx s = .next (c.rmaRefuse a e).settle) ∧
       (s.rmaCheck a 3 (Th.opLen a.th) 1 false = (c, .full) → exec .putRx s = .next (c.rmaFull a).settle)) ∧
     (s.frontOp rmaOps 0x41 Arr.hp s.arrWaits = some a →
       (s.rmaCheck a 2 (Th.opLen a.th) 1 (Rf.spec a.th) = (c, .refuse e) → exec .getRx s = .next (c.rmaRefuse a e).settle) ∧
       (s.rmaCheck a 2 (Th.opLen a.th) 1 (Rf.spec a.th) = (c, .full) → exec .getRx s = .next (c.rmaFull a).settle)) ∧
     (s.frontOp rmaOps 0x43 Arr.hp s.arrWaits = some a →
       (s.rmaCheck a 4 a.size (max 1 a.size) false = (c, .refuse e) → exec .atomicRx s = .next (c.rmaRefuse a e).settle) ∧
       (s.rmaCheck a 4 a.size (max 1 a.size) false = (c, .full) → exec .atomicRx s = .next (c.rmaFull a).settle))) ∧
   (∀ (s : State) (a : Arr) (d : Desc) (right len align : Nat) (spec : Bool) (k : Nat), k = Rf.key a.th → d.bad = false → s.keySt (keyIndex k) = none →
     (keyTag k ≠ Ds.tag d.raw → s.descCheck a d right len align spec = some 0x0402) ∧
     (keyTag k = Ds.tag d.raw → Ds.state d.raw = 1 → Ds.ep d.raw = Th.dstEp a.th → (Ds.peerValid d.raw = true → a.source = Ds.peer d.raw) →
       (Ds.right d.raw right = false → s.descCheck a d right len align spec = some 0x0405) ∧
       (Ds.right d.raw right = true → (spec = true → Ds.sideEffect d.raw = false) →
         (Ds.length d.raw < Rf.offset a.th + len → s.descCheck a d right len align spec = some 0x0406) ∧
         (Rf.offset a.th + len ≤ Ds.length d.raw → (Ds.va d.raw + Rf.offset a.th) % align = 0 → s.descCheck a d right len align spec = none)))) ∧
   (∀ (s : State) (a : Arr) (i : Nat) (o : Op), s.requestOf a (Th.at_ a.th 19 0 24) (Th.at_ a.th 22 0 8) = some (i, o) → o.done = none →
     (∀ (x : State) (as_ va n identity : Nat) (ovr : Bool) (l : List (Nat × Nat)), o.dest = .host as_ va n identity ovr →
       (s.frontResponse 0x42 = some a → s.xlateRun a.hp ⟨as_, va + 4096 * Th.index a.th, 1, identity, false, ovr, .access, a.who⟩ a.payload.len = (x, .run l) →
         exec .getDataRx s = .next (((x.takeArr a).writePieces a.hp identity l a.payload).setOp i { o with got := o.got + 1 }).settle) ∧
       (s.frontResponse 0x44 = some a → s.xlateRun a.hp ⟨as_, va, 1, identity, false, ovr, .access, a.who⟩ a.payload.len = (x, .run l) →
         exec .atomicDataRx s = .next (((x.writePieces a.hp identity l a.payload).takeArr a).setOp i
           { o with got := o.got + 1, pay := .bytes a.payload }).settle)) ∧
     (s.frontResponse 0x42 = some a → o.dest = .none_ → exec .getDataRx s = .next ((s.takeArr a).setOp i { o with got := o.got + 1 }).settle) ∧
     (s.frontResponse 0x44 = some a → o.dest = .none_ →
       exec .atomicDataRx s = .next ((s.takeArr a).setOp i { o with got := o.got + 1, pay := .bytes a.payload }).settle)) ∧
   (∀ (s : State) (n : Nat) (x : Atomic), s.rma.atomics.find? (fun y => y.id == n) = some x → s.serving = true →
     (∀ (t : State) (p : Nat) (w : Nat), x.st = .queued → (s.rma.atomics.filter (fun y => y.st != .queued)).length < 256 →
       (∀ y ∈ s.rma.atomics, y.st = .queued → x.id ≤ y.id) → s.xlate x.acc.hp x.req = (t, .pa p w) →
       t.lineHeld x.acc.hp p x.acc.size = false →
       (x.hostAtomic = false → ∃ u : State, u = (t.setAtomic { x with pa := p, st := .reading }).onRma (fun r =>
           { r with dataReads := r.dataReads ++ [(true, x.id, 0, x.acc.hp)] }) ∧
         exec (.atomicExecute n) s = .next (u.hostRead x.acc.hp x.req.identity p x.acc.size).settle) ∧
       (x.hostAtomic = true → s.atomicsAhead x.acc.hp x.id = false →
         exec (.atomicExecute n) s = .next (t.startHost { x with pa := p } x.req.identity).settle)) ∧
     (∀ old tries : Nat, x.st = .ready old tries → s.atomicsAhead x.acc.hp x.id = false → x.hostAtomic = false →
       exec (.atomicExecute n) s = .next ((s.hostWrite x.acc.hp x.req.identity x.pa (Data.ofNat x.acc.size
         (atomicNew (Rf.aop x.acc.th) (8 * x.acc.size) old x.acc.operand x.acc.compare))).answerAtomic x old).settle) ∧
     (∀ old tries : Nat, x.st = .ready old tries → s.atomicsAhead x.acc.hp x.id = false → x.hostAtomic = true →
       exec (.atomicExecute n) s = .next (s.casHost x x.req.identity old tries).settle) ∧
     (∀ (seen tries : Nat) (v : Data), x.st = .host seen tries →
       (Rf.aop x.acc.th = 0 ∨ Rf.aop x.acc.th = 4 ∨ Rf.aop x.acc.th = 5 ∨ v.val % 2 ^ (8 * x.acc.size) = seen →
         exec (.atomicopCompletion n (.data v)) s = .next (s.answerAtomic x (v.val % 2 ^ (8 * x.acc.size))).settle) ∧
       (Rf.aop x.acc.th ≠ 0 → Rf.aop x.acc.th ≠ 4 → Rf.aop x.acc.th ≠ 5 → v.val % 2 ^ (8 * x.acc.size) ≠ seen →
         (s.g Reg.RMA_CFG.cas_retries ≤ tries → exec (.atomicopCompletion n (.data v)) s = .next (s.failAtomic x 0x040C).settle) ∧
         (tries < s.g Reg.RMA_CFG.cas_retries → exec (.atomicopCompletion n (.data v)) s = .next
           ((s.bump Ctr.RMA_CAS_RETRY_COUNT).casHost x x.req.identity (v.val % 2 ^ (8 * x.acc.size)) (tries + 1)).settle)))) ∧
   (∀ (s : State) (n : Nat) (c : Nat) (x : Atomic) (seen tries : Nat), s.rma.atomics.find? (fun y => y.id == n) = some x → x.st = .host seen tries →
     exec (.atomicopCompletion n (.error c)) s = .next (s.failAtomic x 0x040D).settle) ∧
   (∀ (s : State) (n : Nat), s.serving = false → exec (.atomicExecute n) s = .next s.settle) ∧
   (∀ (s : State) (n i : Nat), s.rma.reads[n]? = some i → ∃ u : State, u = s.onRma (fun x => { x with reads := x.reads.eraseIdx n }) ∧
     (i < 2 ^ 24 →
       (∀ d : Data, exec (.keyDescriptorReadReturn n (.data d)) s = .next (u.cacheDesc i (d.val % 2 ^ 256)).settle) ∧
       (∀ c : Nat, exec (.keyDescriptorReadReturn n (.error c)) s =
         .next ((u.onRma (fun x => { x with bad := Tbl.ins x.bad i c })).raise (srcRma 1) 0 i).settle)) ∧
     (2 ^ 24 ≤ i → (∀ d : Data, exec (.keyDescriptorReadReturn n (.data d)) s = .next u.settle) ∧
       (∀ c : Nat, exec (.keyDescriptorReadReturn n (.error c)) s = .next (u.raise (srcRma 1) 0 (i % 2 ^ 24)).settle))) ∧
   (∀ (s : State) (n i k h : Nat) (b : Bool), s.rma.dataReads[n]? = some (b, i, k, h) → ∃ u : State,
     u = s.onRma (fun x => { x with dataReads := x.dataReads.eraseIdx n }) ∧
     (∀ (x : Atomic) (d : Data), b = true → u.rma.atomics.find? (fun y => y.id == i) = some x →
       exec (.targetDataReadReturn n (.data d)) s = .next (u.setAtomic { x with st := .ready (d.val % 2 ^ (8 * x.acc.size)) 0 }).settle) ∧
     (∀ (x : Atomic) (c : Nat), b = true → u.rma.atomics.find? (fun y => y.id == i) = some x →
       exec (.targetDataReadReturn n (.error c)) s = .next (u.failAtomic x 0x040D).settle) ∧
     (∀ (o : Op) (l : List (Nat × Data)) (d : Data), b = false → u.op? i = some o → o.pay = .chunks l →
       exec (.targetDataReadReturn n (.data d)) s =
         .next (u.setOp i { o with pay := .chunks (l ++ [(k, Data.ofNat (min 4096 (o.opLen - 4096 * k)) d.val)]) }).settle)) ∧
   (∀ a b c : BitVec 64, atomicNew 0 64 a.toNat b.toNat c.toNat = (a + b).toNat ∧ atomicNew 1 64 a.toNat b.toNat c.toNat = (a &&& b).toNat ∧
     atomicNew 2 64 a.toNat b.toNat c.toNat = (a ||| b).toNat ∧ atomicNew 3 64 a.toNat b.toNat c.toNat = (a ^^^ b).toNat ∧
     atomicNew 4 64 a.toNat b.toNat c.toNat = b.toNat ∧ atomicNew 5 64 a.toNat b.toNat c.toNat = (if a = c then b else a).toNat ∧
     atomicNew 6 64 a.toNat b.toNat c.toNat = (if b.toInt < a.toInt then b else a).toNat ∧
     atomicNew 7 64 a.toNat b.toNat c.toNat = (if a.toInt < b.toInt then b else a).toNat ∧
     atomicNew 8 64 a.toNat b.toNat c.toNat = min a.toNat b.toNat ∧ atomicNew 9 64 a.toNat b.toNat c.toNat = max a.toNat b.toNat))

/-! ### Lock cells and fabric locks -/

/-- R388, R389: an acquire by register under the writer's own identity, which lies in the cell's scope: each row of the table of R389;
a withdraw removes the identity from the waiters; any other identity's operation is only counted. -/
def Obligations.CellAcquire : Prop :=
  ∀ (s : State) (req : Requester) (c p i : Nat), req.privileged = true → s.mode ≠ .fenced → s.mode ≠ .off →
    (i = req.identity → s.cellScope c i = true →
      let does (f : Cell → Cell → Prop) : Prop := ∃ t, exec (.cellAcquire (.reg req c p i)) s = .next t ∧ f (s.cell c) (t.cell c)
      ((s.cell c).isFree = true → i ≠ noOwner → does (fun v w => w.owner = i ∧ w.waiters = v.waiters ∧ w.abandoned = v.abandoned)) ∧
      ((s.cell c).isFree = false → (s.cell c).owner = i → does (fun v w => w.owner = i ∧ w.waiters = v.waiters ∧ w.abandoned = v.abandoned)) ∧
      ((s.cell c).isFree = false → (s.cell c).owner ≠ i → (s.cell c).waiters.any (fun w => w.1 == i) = true →
        does (fun v w => w.owner = v.owner ∧ w.waiters = v.waiters.map (fun x => if x.1 = i then (i, p) else x))) ∧
      ((s.cell c).isFree = false → (s.cell c).owner ≠ i → (s.cell c).waiters.any (fun w => w.1 == i) = false → (s.cell c).waiters.length < 63 →
        does (fun v w => w.owner = v.owner ∧ w.waiters = v.waiters ++ [(i, p)])) ∧
      ((s.cell c).isFree = false → (s.cell c).owner ≠ i → (s.cell c).waiters.any (fun w => w.1 == i) = false → 63 ≤ (s.cell c).waiters.length →
        does (fun v w => w.owner = v.owner ∧ w.waiters = v.waiters)) ∧
      (∃ t, exec (.cellWithdraw (.reg req c p i)) s = .next t ∧ (t.cell c).owner = (s.cell c).owner ∧
        (t.cell c).waiters = (s.cell c).waiters.filter (fun w => w.1 != i))) ∧
    (i ≠ req.identity ∨ s.cellScope c i = false → exec (.cellAcquire (.reg req c p i)) s = .next (s.bump Ctr.LCK_FOREIGN_COUNT) ∧
      exec (.cellRelease (.reg req c p i)) s = .next (s.bump Ctr.LCK_FOREIGN_COUNT) ∧
      exec (.cellWithdraw (.reg req c p i)) s = .next (s.bump Ctr.LCK_FOREIGN_COUNT))

/-- R388, R390: only the owner may release a cell, by register or by entry, and its release completes; another's release is ignored,
counted, and raises the foreign-release source with the cell and the writer as its object. The owner's release clears abandoned; the cell passes to the waiter of the highest priority,
the earliest registered among equals, with the handover counted, and becomes free where none is left. -/
def Obligations.CellRelease : Prop :=
  (∀ (s : State) (req : Requester) (c p i : Nat), req.privileged = true → s.mode ≠ .fenced → s.mode ≠ .off → i = req.identity →
    s.cellScope c i = true → (s.cell c).owner = i → (s.cell c).isFree = false → ∃ t, exec (.cellRelease (.reg req c p i)) s = .next t ∧
      (t.cell c).abandoned = false ∧ ((s.cell c).waiters = [] → (t.cell c).isFree = true) ∧
      (∀ w, bestWaiter (s.cell c).waiters = some w → (t.cell c).owner = w.1)) ∧
  (∀ (s : State) (q : Nat) (v : Sq) (e : Ent) (c : Nat), s.startable q 0x28 = some (v, e) → c = Cw.cell e.raw → Cw.op e.raw = 2 →
    s.cellScope c v.owner = true → (s.cell c).owner = v.owner → (s.cell c).isFree = false → ∃ t, exec (.cellRelease (.entry q)) s = .next t ∧
      (t.cell c).abandoned = false ∧ ((s.cell c).waiters = [] → (t.cell c).isFree = true) ∧
      (∀ w, bestWaiter (s.cell c).waiters = some w → (t.cell c).owner = w.1)) ∧
  (∀ (s : State) (req : Requester) (c p i : Nat), req.privileged = true → s.mode ≠ .fenced → s.mode ≠ .off → i = req.identity →
    s.cellScope c i = true → exec (.cellRelease (.reg req c p i)) s = .next (s.cellRelease c i)) ∧
  (∀ (s : State) (q : Nat) (v : Sq) (e : Ent) (c : Nat), s.startable q 0x28 = some (v, e) → c = Cw.cell e.raw → Cw.op e.raw = 2 →
    s.cellScope c v.owner = true → exec (.cellRelease (.entry q)) s = .next ((s.cellRelease c v.owner).cellDone q e 0)) ∧
  (∀ (s : State) (c i : Nat), i ≠ noOwner →
    ((s.cell c).owner ≠ i → s.cellRelease c i = (s.bump Ctr.LCK_FOREIGN_COUNT).raise (srcLck 0) 0 (c + i * 1024)) ∧
    ((s.cell c).owner = i → (s.cell c).waiters = [] → ((s.cellRelease c i).cell c).isFree = true ∧
      ((s.cellRelease c i).cell c).abandoned = false ∧ (s.cellRelease c i).ctrs = s.ctrs) ∧
    (∀ (pre post : List (Nat × Nat)) (w : Nat × Nat), (s.cell c).owner = i → (s.cell c).waiters = pre ++ w :: post →
      (∀ x ∈ pre, x.2 < w.2) → (∀ x ∈ post, x.2 ≤ w.2) → ((s.cellRelease c i).cell c).owner = w.1 ∧
      ((s.cellRelease c i).cell c).abandoned = false ∧
      ((s.cellRelease c i).cell c).waiters = (s.cell c).waiters.filter (fun x => x.1 != w.1) ∧
      (s.cellRelease c i).ctr Ctr.LCK_HANDOVER_COUNT = s.ctr Ctr.LCK_HANDOVER_COUNT + 1))

/-- R389, R399, R401, R403: CELL_OP entries, and fabric-lock operations by a work entry or by LCK_FL_CMD: an acquire takes a
record that is not in use and sends FL_TAKE, or finishes RESOURCE where all are in use; a release and a renewal of a held lock
send FL_RELEASE and FL_RENEW with its ticket, and finish STATE detail 1 where no record holds it; a break sends FL_BREAK. A
command from outside the management identities, or while busy, changes nothing; one that may start sets busy and does what the
entry does. A waiting record polls when its time has come. R396 to R400: a fabric-lock request at the front of its host port's
packets that passes the checks is one read-modify-write of the lock word: refused with its reason, or the word is written
where it changed and answered by FL_REPLY with the outcome and the word as it stood. What an operation makes of the word: TAKE
grants a free lock's serving ticket, POLL claims, waits or has passed, RELEASE and RENEW are the owner's alone, BREAK needs a
lease that has passed and a ticket waiting. At the initiator an FL_REPLY to TAKE makes its record hold or wait, and one to
RELEASE frees it. -/
def Obligations.FabricLocks : Prop :=
  ((∀ (s : State) (q : Nat) (v : Sq) (e : Ent) (c : Nat), s.startable q 0x28 = some (v, e) → c = Cw.cell e.raw → s.cellScope c v.owner = true →
     (Cw.op e.raw = 0 → exec (.cellAcquire (.entry q)) s =
       .next (((s.runEntry q e.ctr 0).setCell c { s.cell c with ents := (s.cell c).ents ++ [(v.owner, q, e.ctr)] }).cellAcquire c v.owner (Cw.prio e.raw))) ∧
     (Cw.op e.raw = 1 → ∃ u : State, u = (if (s.cell c).isFree then s.cellAcquire c v.owner (Cw.prio e.raw) else s) ∧
       exec (.cellTry q) s = .next (u.cellDone q e (if (u.cell c).owner = v.owner then 1 else 0))) ∧
     (Cw.op e.raw = 3 → exec (.cellWithdraw (.entry q)) s = .next ((s.cellWithdraw c v.owner).cellDone q e 0))) ∧
   (∀ (s u : State) (via : FlVia) (op : Nat) (k : FlAsk), (∀ q, via = .entry q → ∃ v e, s.startable q op = some (v, e) ∧
       u = s.runEntry q e.ctr 0 ∧ k = e.flAsk q v) →
     (∀ req, via = .cmd req → req.mgmt = true ∧ s.g Reg.LCK_FL_CMD_STATUS.busy = 0 ∧ s.mode ≠ .fenced ∧ s.mode ≠ .off ∧ s.live = true ∧
       ∃ w p, w = s.put Reg.LCK_FL_CMD.opcode op ∧ k = w.flCmdAsk req.identity ∧ k.offset % 32 = 0 ∧ k.offset + 32 ≤ 2 ^ 48 ∧ k.target < 2 ^ 36 ∧
         w.ep? k.ep = some p ∧ p.destroying = false ∧
         u = ({ w with lck := { w.lck with cmdBy := req.identity } }).put Reg.LCK_FL_CMD_STATUS.busy 1) →
     (op = 0x29 →
       (∀ (i : Nat) (n : State), u.pick 4096 (Tbl.keys u.lck.recs) = (some i, n) → ∃ r : FlRec, r.identity = k.identity ∧ r.ep = k.ep ∧ r.target = k.target ∧
         r.key = k.key ∧ r.offset = k.offset ∧ r.holding = false ∧ r.known = false ∧ r.wait = some (k.q, k.ctr) ∧
         exec (.flAcquire via) s = .next ((n.setRec i (some r)).sendFl (.flEntry k.q k.ctr i) (u.epSource k.ep) k.identity k.ep k.target k.key k.offset
           0x80 0 (u.flLease k.d) (k.q == cmdQueue) k.way).settle) ∧
       (∀ n : State, u.pick 4096 (Tbl.keys u.lck.recs) = (none, n) →
         exec (.flAcquire via) s = .next (n.flFinish k.q k.ctr (Res.of stRESOURCE 0)).settle)) ∧
     (op = 0x2A ∨ op = 0x2B → ∃ c w, c = (if op = 0x2A then Instr.flRelease via else Instr.flRenew via) ∧ w = (if op = 0x2A then 0x82 else 0x83) ∧
       (∀ (i : Nat) (r : FlRec), u.flHeld k = some (i, r) → exec c s = .next (u.sendFl (.flEntry k.q k.ctr i) (u.epSource k.ep) k.identity k.ep k.target
         k.key k.offset w r.ticket (u.flLease k.d) (k.q == cmdQueue) k.way).settle) ∧
       (u.flHeld k = none → exec c s = .next (u.flFinish k.q k.ctr (Res.of stSTATE 1)).settle)) ∧
     (op = 0x2C → exec (.flBreak via) s = .next (u.sendFl (.flEntry k.q k.ctr noRec) (u.epSource k.ep) k.identity k.ep k.target k.key k.offset
       0x84 0 (u.flLease k.d) (k.q == cmdQueue) k.way).settle)) ∧
   (∀ (s : State) (req : Requester) (c : Instr), c ∈ [Instr.flAcquire (.cmd req), .flRelease (.cmd req), .flRenew (.cmd req), .flBreak (.cmd req)] →
     req.mgmt = false ∨ s.g Reg.LCK_FL_CMD_STATUS.busy = 1 → exec c s = .next s.settle) ∧
   (∀ (s : State) (i : Nat) (r : FlRec), s.rec? i = some r → s.live = true → r.known = true → r.holding = false → r.pollOut = false →
     max 1 (s.g Reg.LCK_FL_CFG.poll) ≤ s.over r.lastPoll → exec (.flPollSend i) s =
     .next ((s.setRec i (some { r with pollOut := true, lastPoll := s.nowAt })).sendFl (.flPoll i) (r.owner, r.slot) r.identity r.ep r.target r.key
         r.offset 0x81 r.ticket r.d r.viaCmd r.way)) ∧
   (∀ (s : State) (o : OpOrigin) (x : Nat × Nat) (n ep tg key off op tk d : Nat) (b : Bool) (w : FlWay), ∃ y : Op,
     s.sendFl o x n ep tg key off op tk d b w = s.newOp y ∧ y.opcode = op ∧ y.origin = o ∧ y.srcEp = ep ∧ y.dstEp = tg % 65536 ∧
     y.ctx = ctxKey (hpOf x.1) x.2 (tg / 65536) ∧ y.fields = packB [(0, 32, key), (4, 48, off), (11, 12, n)] ∧ y.pay = .bytes ⟨8, tk + d * 2 ^ 32⟩ ∧
     y.tc = w.tc ∧ y.pre = w.pre ∧ y.sq = w.sq)) ∧
  ((∀ (s c x y : State) (hm : HostView) (a : Arr) (d : Desc) (q : XReq) (p n : Nat) (b : Data) (i : Instr) (op : Nat),
     (i, op) ∈ [(Instr.flTakeRx hm, 0x80), (.flPollRx hm, 0x81), (.flReleaseRx hm, 0x82), (.flRenewRx hm, 0x83), (.flBreakRx hm, 0x84),
       (.flReleaseAbandonedRx hm, 0x85)] → s.frontOp rmaOps op Arr.hp s.arrWaits = some a → s.rmaCheck a 4 32 1 false = (c, .ok d) →
     flStatic a d = none → q = c.regionReq d (Ds.va d.raw + Rf.offset a.th) 4 a.who → c.xlate a.hp q = (x, .pa p n) →
     x.lineHeld a.hp p 32 = false → x.atomicsAhead a.hp x.rma.nextId = false → HostView.read hm p 32 = .data b →
     y = x.hostRead a.hp q.identity p 32 →
     (∀ r, Fl.apply op b.val (Hdr.src a.hdr) (Rf.identity a.th) (a.payload.field 0 0 32) (a.payload.field 4 0 32) s.course (y.draw.1 % 6) = .error r →
       exec i s = .next (y.flRefuse a r).settle) ∧
     (∀ w out, Fl.apply op b.val (Hdr.src a.hdr) (Rf.identity a.th) (a.payload.field 0 0 32) (a.payload.field 4 0 32) s.course (y.draw.1 % 6) = .ok (w, out) →
       ∃ t u : State, t = ((y.draw.2.takeArr a).bump Ctr.LCK_FL_OP_COUNT).bumpIf (op = 0x84) Ctr.LCK_FL_BREAK_COUNT ∧
         u = (if w = b.val then t else t.hostWrite a.hp q.identity p ⟨32, Fl.clean w⟩) ∧
         exec i s = .next ((u.onRma (fun r => { r with nextId := u.rma.nextId + 1, results := Tbl.ins r.results u.rma.nextId b.val })).answer a
           (.atomic u.rma.nextId) 0x88 32 (packB [(0, 24, a.psn), (3, 8, a.gen), (4, 8, out)]) (.bytes ⟨32, b.val⟩)).settle)) ∧
   (∀ (s : State) (hm : HostView) (a : Arr) (d : Desc) (c : State) (i : Instr) (op r : Nat),
     (i, op) ∈ [(Instr.flTakeRx hm, 0x80), (.flPollRx hm, 0x81), (.flReleaseRx hm, 0x82), (.flRenewRx hm, 0x83), (.flBreakRx hm, 0x84),
       (.flReleaseAbandonedRx hm, 0x85)] → s.frontOp rmaOps op Arr.hp s.arrWaits = some a → s.rmaCheck a 4 32 1 false = (c, .ok d) →
     flStatic a d = some r → exec i s = .next (c.flRefuse a r).settle) ∧
   (∀ (s : State) (a : Arr) (n : Nat) (o : Op) (q : Nat) (ctr : RingCtr) (i out w : Nat), s.front [0x88] = some a →
     s.requestOf a (Th.at_ a.th 19 0 24) (Th.at_ a.th 22 0 8) = some (n, o) → o.done = none → o.origin = .flEntry q ctr i →
     out = Th.at_ a.th 23 0 8 → w = a.payload.val % 2 ^ 256 → ∃ t, t = (s.takeArr a).delOp n ∧
       (∀ r, o.opcode = 0x80 → s.rec? i = some r → out = flGRANTED → exec .flReplyRx s = .next (t.flGranted i r (Fl.next w) w).settle) ∧
       (∀ r, o.opcode = 0x80 → s.rec? i = some r → out ≠ flGRANTED →
         exec .flReplyRx s = .next (t.setRec i (some { r with known := true, ticket := Fl.next w, pollOut := false })).settle) ∧
       (∀ d, o.opcode = 0x82 → o.pay = .bytes d → exec .flReplyRx s = .next ((t.setRec i none).flFinish q ctr (flRes (bits d.val 0 32) w)).settle)) ∧
   ∀ w dev ident t d now spare : Nat, w < 2 ^ 256 → dev < 2 ^ 20 → ident < 2 ^ 12 → t < 2 ^ 32 → d < 2 ^ 32 → now < 2 ^ 48 →
     let lease := (now + max 1 d) % 2 ^ 48
     let mine : Prop := Fl.held w = true ∧ Fl.ownerDevice w = dev ∧ Fl.ownerIdentity w = ident ∧ Fl.ownerTicket w = t
     let claimed (x k : Nat) : Prop := Fl.held x = true ∧ Fl.ownerDevice x = dev ∧ Fl.ownerIdentity x = ident ∧ Fl.ownerTicket x = k ∧
       Fl.lease x = lease ∧ Fl.broken x = false ∧ Fl.abandoned x = false ∧ Fl.serving x = Fl.serving w
     let passed (x : Nat) (brk abn : Bool) : Prop := Fl.held x = false ∧ Fl.serving x = (Fl.serving w + 1) % 2 ^ 32 ∧ Fl.next x = Fl.next w ∧
       Fl.lease x = lease ∧ Fl.broken x = brk ∧ Fl.abandoned x = abn
     let is (op out : Nat) (f : Nat → Prop) : Prop := ∃ x, Fl.apply op w dev ident t d now spare = .ok (x, out) ∧ f x
     (Fl.next w = Fl.serving w → Fl.held w = false → is 0x80 flGRANTED (fun x => claimed x (Fl.next w) ∧ Fl.next x = (Fl.next w + 1) % 2 ^ 32)) ∧
     (Fl.next w ≠ Fl.serving w ∨ Fl.held w = true → is 0x80 flWAITING (fun x => Fl.next x = (Fl.next w + 1) % 2 ^ 32 ∧ Fl.held x = Fl.held w ∧
       Fl.serving x = Fl.serving w ∧ Fl.lease x = Fl.lease w)) ∧
     (serialCmp t (Fl.next w) 32 = .before → t = Fl.serving w → Fl.held w = false → is 0x81 flGRANTED (fun x => claimed x t ∧ Fl.next x = Fl.next w)) ∧
     (serialCmp t (Fl.next w) 32 = .before → serialCmp t (Fl.serving w) 32 = .before → is 0x81 flPASSED (fun x => x = w)) ∧
     (serialCmp t (Fl.next w) 32 = .before → serialCmp t (Fl.serving w) 32 = .after → is 0x81 flWAITING (fun x => x = w)) ∧
     (serialCmp t (Fl.next w) 32 ≠ .before → Fl.apply 0x81 w dev ident t d now spare = .error 5) ∧
     (mine → is 0x82 flRELEASED (fun x => passed x false false) ∧ is 0x85 flRELEASED (fun x => passed x false true) ∧
       is 0x83 flRENEWED (fun x => Fl.lease x = lease ∧ Fl.held x = true ∧ Fl.serving x = Fl.serving w ∧ Fl.next x = Fl.next w)) ∧
     (¬ mine → Fl.apply 0x82 w dev ident t d now spare = .error 6 ∧ Fl.apply 0x83 w dev ident t d now spare = .error 6 ∧
       Fl.apply 0x85 w dev ident t d now spare = .error 6) ∧
     (serialCmp (Fl.lease w) now 48 = .before → serialCmp (Fl.serving w) (Fl.next w) 32 = .before → is 0x84 flBROKEN (fun x => passed x true false)) ∧
     (serialCmp (Fl.lease w) now 48 ≠ .before → Fl.apply 0x84 w dev ident t d now spare = .error 7) ∧
     (serialCmp (Fl.lease w) now 48 = .before → serialCmp (Fl.serving w) (Fl.next w) 32 ≠ .before →
       Fl.apply 0x84 w dev ident t d now spare = .error 8))

/-! ### Collectives -/

/-- R408, R411, R412, R419, R433, R437, R438: what a collective entry at the front of its queue does: a join of a tree in use, in
the tree's domain, with a place left, makes a member record at the tree's place in its stream; a leave frees it; an operation
in order is accepted and advances the member's sequence number, and finishes TRANSPORT on a tree in ERROR. A write of COL_TREE
goes through the writers' check and the shadow; COL_CMD sets the key of the shadow set, or notes the resumption of a tree in
ERROR, which takes effect at cycle 0 of its course and at no other cycle. R416, R421 to R425, R432, R434, R435: chunks: a
member's next chunk is read from its endpoint's memory and given to COL, or its fault fails the operation and the tree; a
ready chunk goes up to the tree's parent. A packet at hub port 6 of a tree in order is taken: one up is an input of its chunk,
which joins the chunk's sum and is ready with the last one; one down is the result of a chunk that waits for it; an abort
fails the tree. One of a tree of another generation, in ERROR, from a wrong port, of a stale operation or not authentic is
discarded and counted, and one for which no slot is free fails the tree. At the root an operation open for the limit fails its
tree. A command whose condition does not hold changes nothing (the model's choice, notes/assumptions/3). -/
def Obligations.Collectives : Prop :=
  ((∀ (s : State) (q : Nat) (v : Sq) (e : Ent),
     (s.startable q 0x20 = some (v, e) → exec (.colJoin q) s =
       .next ((s.colJoin (Colw.tree e.raw) v.ep).1.finishEntry q e.ctr (s.colJoin (Colw.tree e.raw) v.ep).2)) ∧
     (s.startable q 0x21 = some (v, e) → (Tbl.find? s.col.members (memberKey (Colw.tree e.raw) v.ep)).isSome = true →
       exec (.colLeave q) s = .next ((s.finishEntry q e.ctr (Res.of stOK 0)).colLeave (Colw.tree e.raw) v.ep)) ∧
     (∀ m : ColMember, s.startable q 0x22 = some (v, e) → s.colMalformed v.ep e.raw = none → Colw.csn e.raw ≠ 0xFFFFFF →
       (s.colTree (Colw.tree e.raw)).error = false → Tbl.find? s.col.members (memberKey (Colw.tree e.raw) v.ep) = some m →
       exec (.colOp q) s = .next (s.colAccept q v e m)) ∧
     (∀ m : ColMember, ∃ o : ColOp, (s.colAccept q v e m).col.ops = s.col.ops ++ [o] ∧ o.q = q ∧
       o.ep = v.ep ∧ o.tree = Colw.tree e.raw ∧ o.csn = Colw.csn e.raw ∧ o.h = Colw.hdr e.raw ∧ o.next = 0 ∧ o.set = s.crs.active ∧
       Tbl.find? (s.colAccept q v e m).col.members (memberKey (Colw.tree e.raw) v.ep) = some { m with nextCsn := m.nextCsn + 1 }) ∧
     (s.startable q 0x22 = some (v, e) → s.colMalformed v.ep e.raw = none → Colw.csn e.raw ≠ 0xFFFFFF → (s.colTree (Colw.tree e.raw)).error = true →
       exec (.colOp q) s = .next (s.finishEntry q e.ctr (colFail (s.colTree (Colw.tree e.raw)).reason)))) ∧
   (∀ (s : State) (t ep : Nat) (x : Ep) (d : Slot), s.treeValid s.crs.active t = true → Tbl.find? s.col.members (memberKey t ep) = none →
     (s.joined t).length < s.ga (Reg.COL_TREE.local_count t) → s.ep? ep = some x → s.slot? x.slot = some d →
     d.domain = s.ga (Reg.COL_TREE.domain t) → s.col.members.length < 8192 →
     s.colJoin t ep = (s.setMember t ep ⟨(s.colTree t).low, (s.colTree t).lowPos⟩, Res.of stOK 0)) ∧
   (∀ (s : State) (t ep : Nat), s.treeValid s.crs.active t = false → s.colJoin t ep = (s, Res.of stSTATE 1)) ∧
   (∀ (s : State) (req : Requester) (t w v : Nat), t < 4096 → w < 8 → mayConfigure s req (Reg.COL_TREE.off t + 4 * w) →
     ∃ d, locPf (Reg.COL_TREE.off t + 4 * w) = .reg d t 0 w ∧ d.id = .COL_TREE ∧ exec (.colTreeWrite req t w v) s =
       .next ((s.lockCheck d w (s.word (Reg.COL_TREE.off t + 4 * w)) (v % 2 ^ 32)).shadowWrite d t w (Reg.COL_TREE.off t + 4 * w) (v % 2 ^ 32)).settle) ∧
   (∀ (s : State) (req : Requester), mayConfigure s req Reg.COL_CMD.off → ∃ (d : RegDef) (c : Nat → State), locPf Reg.COL_CMD.off = .reg d 0 0 0 ∧
     (∀ op, c op = (s.lockCheck d 0 (s.word Reg.COL_CMD.off) op).colCmd req op) ∧
     exec (.treeKeySet req) s = .next (c 1).settle ∧ exec (.resume req) s = .next (c 2).settle) ∧
   (∀ (s : State) (req : Requester) (t : Nat), req.mgmt = true → t = bits (s.word (Reg.COL_CMD_ARG.off 0)) 0 12 →
     (s.shadowClosed = false → ∃ u v : State, s.colRun req 1 = (u.tableWrite (tagTreeKey t) 8, 0) ∧ u = { s with col := { s.col with keys := v.col.keys } } ∧
       Tbl.get (fun _ => 0) u.col.keys ((1 - s.crs.active) * 4096 + t) =
         (List.range 8).foldl (fun a i => a + s.word (Reg.COL_KEY.off i) <<< (32 * i)) 0) ∧
     (s.shadowClosed = true → s.colRun req 1 = (s, 2)) ∧
     ((s.colTree t).error = false → s.colRun req 2 = (s, 2)) ∧
     (∀ (c : Nat) (k : BitVec 48), c = bits (s.word (Reg.COL_CMD_ARG.off 1)) 0 24 →
       k = BitVec.ofNat 48 (s.word (Reg.COL_CMD_ARG.off 2) + bits (s.word (Reg.COL_CMD_ARG.off 3)) 0 16 * 2 ^ 32) → (s.colTree t).error = true →
       (2 ≤ (k - s.crs.course).toNat → (k - s.crs.course).toNat < 2 ^ 47 → (s.colTree t).seen ≤ c →
         s.colRun req 2 = (s.setColTree t { s.colTree t with resume := some (c, k) }, 0)) ∧
       ((k - s.crs.course).toNat < 2 ∨ 2 ^ 47 ≤ (k - s.crs.course).toNat ∨ c < (s.colTree t).seen → s.colRun req 2 = (s, 3)))) ∧
   (∀ (s : State) (req : Requester) (op : Nat), req.mgmt = false → s.colRun req op = (s, 1)) ∧
   (∀ (s : State) (req : Requester) (v : Nat), v = 1 ∨ v = 2 → ∃ r, r = (s.put Reg.COL_CMD.opcode v).colRun req v ∧
     s.colCmd req v = (r.1.put Reg.COL_CMD_STATUS.requester req.identity).put Reg.COL_CMD_STATUS.result r.2) ∧
   (∀ (s : State) (t : Nat), s.crs.cycle ≠ 0 → exec (.treeResumeEffect t) s = .next s) ∧
   (∀ (s : State) (t k : Nat) (c : BitVec 48), s.crs.cycle = 0 → (s.colTree t).resume = some (k, c) → (s.colTree t).error = true →
     serialLe c.toNat s.course 48 = true → s.col.badTrees.contains t = false → ∃ u, exec (.treeResumeEffect t) s = .next u ∧
     u.colTree t = { s.colTree t with error := false, low := k, lowPos := 0, fwd := 0, sendCsn := k, sendIdx := 0, resume := none } ∧
     (∀ e ∈ u.col.members, e.1 / 65536 = t → e.2 = ⟨k, 0⟩) ∧ OnlyWrites [.col] s u)) ∧
  ((∀ (s : State) (t ep : Nat) (hm : HostView) (o : ColOp) (e : Ep), s.readable t ep = some o → s.ep? ep = some e →
     s.mode = .service ∨ s.mode = .drain →
     (o.h.op = 3 ∨ (o.h.op = 1 ∧ o.source = false) → exec (.memberChunkRead t ep hm) s = .next (s.giveChunk o ⟨Data.empty, 0, 1, false⟩)) ∧
     (∀ (f : XFault) (a : Nat) (u : State), o.h.op ≠ 3 → (o.h.op = 1 → o.source = true) →
       s.xlateRun (hpOf e.owner) ⟨e.as_, o.src + o.h.offset o.next, 0, e.owner, false, o.ovr, .access, .chunk t ep o.csn o.next false⟩ (o.h.downBytes o.next) = (u, .fault f a) →
       exec (.memberChunkRead t ep hm) s = .next (u.colReadFault o { Res.of stLOCAL (f.detail 0) with aux := a })) ∧
     (∀ (l : List (Nat × Nat)) (d : Data) (u : State), o.h.op ≠ 3 → (o.h.op = 1 → o.source = true) →
       s.xlateRun (hpOf e.owner) ⟨e.as_, o.src + o.h.offset o.next, 0, e.owner, false, o.ovr, .access, .chunk t ep o.csn o.next false⟩ (o.h.downBytes o.next) = (u, .run l) →
       readPieces hm l = .data d → ∃ v x, v = u.readRun (hpOf e.owner) e.owner l ∧
       x = { o.h.input d with present := o.h.op == 1 } ∧ exec (.memberChunkRead t ep hm) s = .next (v.giveChunk o x))) ∧
   (∀ (s : State) (t : Nat) (c : ColChunk), s.nextReady t = some c → s.live = true → s.treeRoot c.set t = false → ∃ u : State,
     u = s.sendChunk c c.acc 0x20 (s.treeParent c.set t) ∧
     exec (.chunkSendUp t) s = .next ((u.setChunk { c with st := .downwait }).setColTree t ((s.colTree t).advance c.h))) ∧
   (∀ (s u : State) (d : Data) (port type t : Nat) (r : List (Data × Nat)) (k : ColPkt) (c : Instr),
     (type, c) ∈ [(0x20, Instr.colUpRx), (0x21, .colDownRx)] → s.hubQ 6 = (d, port) :: r → s.live = true → Hdr.type d.hdr = type →
     u = s.hubPop 6 → k = parseCol d → t = k.c.tree →
     (u.treeValid k.c.set t = false ∨ u.treeGen k.c.set t ≠ k.c.gen → exec c s = .next (u.bump Ctr.COL_GEN_DROP_COUNT)) ∧
     (u.treeValid k.c.set t = true → u.treeGen k.c.set t = k.c.gen →
       ((u.colTree t).error = true → exec c s = .next (u.bump Ctr.COL_ERR_DROP_COUNT)) ∧
       ((u.colTree t).error = false →
         ((type = 0x20 ∧ (u.treeChildren k.c.set t).contains port = false) ∨ (type = 0x21 ∧ (u.treeRoot k.c.set t = true ∨ u.treeParent k.c.set t ≠ port)) →
           exec c s = .next (u.bump Ctr.COL_HDR_DROP_COUNT)) ∧
         ((type = 0x20 → (u.treeChildren k.c.set t).contains port = true) → (type = 0x21 → u.treeRoot k.c.set t = false ∧ u.treeParent k.c.set t = port) →
           (serialCmp k.c.csn (u.colTree t).low 24 = .before → exec c s = .next (u.bump Ctr.COL_STALE_DROP_COUNT)) ∧
           (serialCmp k.c.csn (u.colTree t).low 24 ≠ .before →
             (u.colOpen k d type port = none → exec c s =
               .next (((u.bump Ctr.COL_AUTH_FAIL_COUNT).raise (srcCol 1) 0 t).treeError t k.c.set 0x0C06 u.me none)) ∧
             (∀ pay, u.colOpen k d type port = some pay →
               (type = 0x20 → exec c s = .next (u.colInput k.c port { k.x with data := pay })) ∧
               (type = 0x21 → u.chunk? t k.c.gen k.c.csn k.c.idx = none → exec c s = .next (u.colOverrun t k.c.set)) ∧
               (∀ y, type = 0x21 → u.chunk? t k.c.gen k.c.csn k.c.idx = some y → y.h = k.c.h → y.st = .downwait →
                 exec c s = .next ((u.bump Ctr.COL_DOWN_PKT_COUNT).toForward { y with acc := { k.x with data := pay } }).settleCol))))))) ∧
   (∀ (s : State) (d : Data) (port g t : Nat) (r : List (Data × Nat)), s.hubQ 6 = (d, port) :: r → s.live = true →
     (Hdr.type d.hdr = 0x22 → g = (parseCol d).c.set → t = (parseCol d).c.tree → (s.hubPop 6).treeValid g t = true →
       (s.hubPop 6).treeGen g t = (parseCol d).c.gen → ((s.hubPop 6).colTree t).error = false →
       exec .colAbortRx s = .next ((s.hubPop 6).treeError t g (d.field 37 0 16) (d.field 40 0 20) (some port))) ∧
     (¬ Hdr.type d.hdr ∈ [0x20, 0x21, 0x22] → exec .colUpRx s = .next ((s.hubPop 6).bump Ctr.COL_HDR_DROP_COUNT))) ∧
   (∀ (s : State) (n c : ColChunk) (p : Nat) (x : ColIn), c = (s.chunk? n.tree n.gen n.csn n.idx).getD n → c.h = n.h →
     ¬ (n.h.op = 1 ∧ c.acc.present = true ∧ x.present = true) → p < 64 →
     (c.st = .gather → ¬ p ∈ c.folded → c.stored = [] → s.slotFree n.set n.tree n.gen = true → n.h.inOrder = false → ∃ (u : State) (y : ColChunk),
       s.colInput n p x = (u.setChunk y).settleCol ∧ y.folded = c.folded ++ [p] ∧ y.acc = (if c.folded.isEmpty then x else n.h.combine c.acc x) ∧
       y.st = (if s.treeInputs n.set n.tree ≤ c.folded.length + 1 then .ready else .gather) ∧ u.ctr Ctr.COL_UP_PKT_COUNT = s.ctr Ctr.COL_UP_PKT_COUNT + 1) ∧
     (c.st ≠ .gather ∨ p ∈ c.folded ∨ s.slotFree n.set n.tree n.gen = false → s.colInput n p x = s.colOverrun n.tree n.set)) ∧
   (∀ (s : State) (c : ColChunk), (s.forwarding c.tree = none → s.toForward c = s.forward c) ∧
     ((s.forwarding c.tree).isSome = true → s.toForward c = s.setChunk { c with st := .held })) ∧
   (∀ (s : State) (t g reason o : Nat) (f : Option Nat), (s.colTree t).error = false → ∃ u : State, s.treeError t g reason o f = u.treeEvent t reason ∧
     (u.colTree t).error = true ∧ (u.colTree t).reason = reason ∧ (u.colTree t).origin = o ∧ (∀ c ∈ u.col.chunks, c.tree ≠ t) ∧
     (∀ y ∈ u.col.ops, y.tree ≠ t) ∧ u.ctr Ctr.COL_TREE_ERROR_COUNT = s.ctr Ctr.COL_TREE_ERROR_COUNT + 1) ∧
   (∀ (s : State) (t : Nat), s.live = true → s.treeValid s.crs.active t = true → s.crs.active < 2 → s.treeRoot s.crs.active t = true →
     s.g Reg.COL_CFG.op_limit ≠ 0 → (∃ e ∈ s.col.opens, e.1 / 2 ^ 24 = t ∧ s.g Reg.COL_CFG.op_limit ≤ s.over e.2) →
     exec (.colOpTimeout t) s = .next (s.treeError t s.crs.active 0x0C05 s.me none)) ∧
   (∀ s : State, s.live = false → exec .colUpRx s = .next s ∧ exec .colDownRx s = .next s ∧ exec .colAbortRx s = .next s))

/-! ### Bridges -/

/-- R442, R443, R448, R453: a word of a window's entry is written by the function that owns it or by a party that may configure
the device: words 0 to 2 only while the window is disabled; a write of word 3 ends the window's prefetches, and in a cycle in
which a failure has set err it does not clear it. R446 to R454: a write to BAR4 that a window accepts is split into its runs
of enabled bytes, each of which waits as a put of its own and goes out in its order; one that fails is noted, and fails an
acknowledged window. A read waits for the window's earlier writes, ends as Completer Abort with its window, is a flush without
bytes, is answered from a prefetched line, or goes out as a get and completes with its data, split at 64-byte boundaries, or
in error. What a window does not accept completes in error or is dropped; a read or a read-ahead whose get is out too long is
given up; a prefetched line lives for pf_life cycles. A command whose condition does not hold changes nothing (the model's
choice, notes/assumptions/3). -/
def Obligations.BridgeWindows : Prop :=
  ((∀ (s : State) (req : Requester) (f j w v : Nat), f < 1024 → w < 4 → j < 8 ∨ (isPf f = true ∧ j < 64) → vfOf req = none ∨ vfOf req = some f →
     s.canAccess req = true → exec (.windowEntryWrite req f j w v) s = .next (s.barWrite req (winReach req f j w) 4 v).settle) ∧
   (∀ (s : State) (req : Requester) (f j w v : Nat), f < 1024 → w < 4 → vfOf req = none → mayConfigure s req (winOff f j + 4 * w) →
     (j < 8 ∧ (∀ g, req = .fn g → g = f)) ∨ (8 ≤ j ∧ j < 64 ∧ isPf f = true ∧ ofPort req (hpOf f) = true) →
     ∃ d i, locPf (winOff f j + 4 * w) = .reg d i j w ∧ exec (.windowEntryWrite req f j w v) s =
       .next ((s.lockCheck d w (s.word (winOff f j + 4 * w)) (v % 2 ^ 32)).windowWrite d f j w (v % 2 ^ 32)).settle) ∧
   (∀ (s : State) (d : RegDef) (f j w v : Nat),
     (w < 3 → (s.win f j).enable = true → s.windowWrite d f j w v = s.badAccess) ∧
     (w < 3 → (s.win f j).enable = false → s.windowWrite d f j w v = s.plainWrite d w (winOff f j + 4 * w) v) ∧
     (Tbl.find? s.brg.errAt (f * 64 + j) = some s.cycles → s.windowWrite d f j 3 v = s.windowWrite d f j 3 (setBits v 27 1 0)) ∧
     (∀ e ∈ (s.windowWrite d f j 3 v).brg.pf, e.2.fn = f → e.2.win = j → e.2.dead = true))) ∧
  ((∀ (s : State) (f o : Nat) (d : Data) (be : Nat), s.mode ≠ .fenced → s.mode ≠ .off →
     (∀ (e : Nat) (v : Win), s.accept f (o / 2 ^ 26) true = .ok e v → enabledRuns be d.len 0 = [] → s.brg.pf = [] →
       exec (.bar4Write f o d be) s = .next (s.bump Ctr.BRG_WRITE_COUNT)) ∧
     (∀ (e a n : Nat) (v : Win), s.accept f (o / 2 ^ 26) true = .ok e v → enabledRuns be d.len 0 = [(a, n)] → ∃ t w, exec (.bar4Write f o d be) s = .next t ∧
       Tbl.find? t.brg.writes s.brg.serial = some w ∧ w.fn = f ∧ w.win = o / 2 ^ 26 ∧ w.off = v.offset + o % 2 ^ 26 + a ∧ w.data = d.slice a n ∧
       w.op = none ∧ t.brg.serial = s.brg.serial + 1 ∧ t.ctr Ctr.BRG_WRITE_COUNT = s.ctr Ctr.BRG_WRITE_COUNT + 1) ∧
     (s.accept f (o / 2 ^ 26) true = .ur → exec (.bar4Write f o d be) s = .next (s.bump Ctr.BRG_WRITE_DROP_COUNT))) ∧
   (∀ (s : State) (id : Nat) (x : BWrite), Tbl.find? s.brg.writes id = some x → x.op = none → s.live = true →
     (x.w.acked = true → (s.win x.fn x.win).err = false) → s.writeMayGo id x = true → ∃ o : Op, o.opcode = 0x40 ∧ o.opLen = x.data.len ∧
     exec (.windowWriteSend id) s = .next ((s.newOp o).onBrg (fun b => { b with writes := Tbl.ins b.writes id { x with op := some s.trn.nextOp } }))) ∧
   (∀ (s : State) (f o n tag k : Nat), s.mode ≠ .fenced → s.mode ≠ .off → (s.brg.reads.filter (fun r => r.1 == hpOf f)).length < 768 →
     (s.accept f (o / 2 ^ 26) (k == 0) = .ur → exec (.bar4Read f o n tag k) s = .next ((s.bump Ctr.BRG_UR_COUNT).completeErr (hpOf f) tag 1)) ∧
     (s.accept f (o / 2 ^ 26) (k == 0) = .ca → exec (.bar4Read f o n tag k) s = .next ((s.bump Ctr.BRG_UR_COUNT).completeErr (hpOf f) tag 4)) ∧
     (∀ (e : Nat) (v : Win), s.accept f (o / 2 ^ 26) (k == 0) = .ok e v → ∃ (u : State) (x : BRead), exec (.bar4Read f o n tag k) s = .next (u.readGo x) ∧
       x.fn = f ∧ x.tag = tag ∧ x.addr = o % 2 ^ 26 ∧ x.len = n ∧ x.serial = s.brg.serial ∧ u.brg.reads = s.brg.reads ++ [(hpOf f, x)])) ∧
   (∀ (s : State) (x : BRead), x.op = none → (s.writesBefore x = true → s.readGo x = s) ∧
     (s.writesBefore x = false →
       (x.failed = true ∨ ((s.win x.fn x.win).err = true ∧ x.w.acked = true) → s.readGo x = (s.dropRead x).completeErr (hpOf x.fn) x.tag 4) ∧
       (x.failed = false → ¬ ((s.win x.fn x.win).err = true ∧ x.w.acked = true) →
         (x.len = 0 → s.readGo x = (s.dropRead x).emit (.completion (hpOf x.fn) x.tag 0 ⟨4, 0⟩)) ∧
         (∀ d, x.len ≠ 0 → s.pfHit x = some d → s.readGo x =
           (((s.dropRead x).bump Ctr.BRG_PREFETCH_HIT_COUNT).completeData (hpOf x.fn) x.tag x.addr d 65).readAhead x) ∧
         (x.len ≠ 0 → s.pfHit x = none → ∃ o : Op, o.opcode = 0x41 ∧ o.opLen = x.len ∧ o.srcEp = x.ep ∧ o.dstEp = x.w.targetEp ∧ o.tc = x.tc ∧
           o.fields = packB [(0, 32, x.w.key), (4, 48, x.w.offset + x.addr), (10, 1, 0)] ∧ o.ordered = x.w.ordered ∧ o.identity = x.fn ∧
           s.readGo x = ((s.newOp o).setRead { x with op := some s.trn.nextOp }).readAhead x)))) ∧
   (∀ (s : State) (h tag addr n : Nat) (d : Data), (d.len ≤ min d.len (64 - addr % 64) →
       s.completeData h tag addr d (n + 1) = s.emit (.completion h tag 0 d)) ∧
     (64 - addr % 64 < d.len → ∃ k, k = 64 - addr % 64 ∧ s.completeData h tag addr d (n + 1) =
       (s.emit (.completion h tag 0 (d.slice 0 k))).completeData h tag (addr + k) (d.slice k (d.len - k)) n)) ∧
   (∀ (s : State) (id : Nat) (x : BRead) (o : Op) (r : Res), s.read? id = some x → x.op.bind s.op? = some o → o.done = some r →
     (r.status ≠ 0 → exec (.windowReadComplete id) s = .next ((s.delOp (x.op.getD 0)).readFail x r.status r.detail Ctr.BRG_READ_FAIL_COUNT)) ∧
     (∀ l, r.status = 0 → o.dest = .chunks l → exec (.windowReadComplete id) s =
       .next (((s.delOp (x.op.getD 0)).dropRead x).completeData (hpOf x.fn) x.tag x.addr (Data.join (l.map Prod.snd)) 65))) ∧
   (∀ (s : State) (id : Nat) (x : BRead), s.read? id = some x → max 1 (s.g Reg.BRG_CFG.read_tmo) ≤ s.over x.at_ → x.op = none →
     ∃ (u : State) (st d : Nat), exec (.windowReadTimeout id) s = .next (u.readFail x st d Ctr.BRG_READ_TMO_COUNT) ∧ OnlyWrites [.free] s u) ∧
   (∀ (s : State) (id i : Nat) (x : BRead) (o : Op), s.read? id = some x → max 1 (s.g Reg.BRG_CFG.read_tmo) ≤ s.over x.at_ → x.op = some i →
     s.op? i = some o → o.done = none → ∃ (u : State) (st d : Nat),
     exec (.windowReadTimeout id) s = .next ((u.delOp i).readFail x st d Ctr.BRG_READ_TMO_COUNT) ∧ OnlyWrites [.free] s u) ∧
   (∀ (s : State) (id : Nat) (e : PfEnt) (o : Op), s.read? id = none → Tbl.find? s.brg.pf id = some e → e.data = none → s.op? e.op = some o → o.done = none →
     max 1 (s.g Reg.BRG_CFG.read_tmo) ≤ s.over e.at_ → exec (.windowReadTimeout id) s =
     .next (((s.delOp e.op).onBrg (fun b => { b with pf := Tbl.del b.pf id })).bump Ctr.BRG_SPEC_DROP_COUNT)) ∧
   (∀ (s : State) (id : Nat) (x : BWrite) (r : Res), Tbl.find? s.brg.writes id = some x → s.opFailed x.op = some r → ∃ t u : State,
     t = ((((s.delOp (x.op.getD 0)).onBrg (fun b => { b with writes := Tbl.del b.writes id })).brgErr x.fn x.win r.status r.detail).bump
       Ctr.BRG_WRITE_FAIL_COUNT).raise (srcBrg 0) 0 x.win (some x.fn) ∧ u = (if x.w.acked then t.winErr x.fn x.win else t) ∧
     exec (.windowWriteFail id) s = .next u.settleBrg ∧ Tbl.find? u.settleBrg.brg.writes id = none ∧
     (x.w.acked = true → bits (u.word (winOff x.fn x.win + 12)) 27 1 = 1 ∧
       (∀ e ∈ u.brg.writes, e.2.fn = x.fn → e.2.win = x.win → e.2.w.acked = true → e.2.op.isSome = true) ∧
       (∀ e ∈ u.brg.reads, e.2.fn = x.fn → e.2.win = x.win → e.2.w.acked = true → e.2.op = none → e.2.failed = true))) ∧
   (∀ (s : State) (id at_ : Nat) (x : PfEnt) (d : Data), Tbl.find? s.brg.pf id = some x → x.data = some (d, at_) →
     (at_ + s.g Reg.BRG_CFG.pf_life ≤ s.cycles → exec (.prefetchExpiry id) s = .next (s.onBrg (fun b => { b with pf := Tbl.del b.pf id }))) ∧
     (s.cycles < at_ + s.g Reg.BRG_CFG.pf_life → exec (.prefetchExpiry id) s = .next s)))

/-- R455 to R460: an MCTP packet of a port in use is the device's own, forwarded by its route (to another port while it has room,
or to another device's management endpoint), or dropped and counted; a record from the fabric goes to its port. A packet sent
leaves its queue when it is taken, or is tried again up to the port's retries; it goes out by SMBus under command code 0x0F,
by I3C, or as a VDM. An alerting or in-band interrupting device is read. The side-band is sampled once a course in cycles 256
to 383, and a level that has held for the debounce is reported. A command whose condition does not hold changes nothing (the
model's choice, notes/assumptions/3). -/
def Obligations.LintelBridge : Prop :=
  (∀ (s : State) (p ph : Nat) (d : Data), s.ltlRuns = true → s.ltlPort p = true → exec (.mctpPacketRx p ph d) s = .next (s.mctpRx p ph d)) ∧
  (∀ (s : State) (p ph : Nat) (d : Data), s.ltlRuns = false ∨ s.ltlPort p = false → exec (.mctpPacketRx p ph d) s = .next s) ∧
  (∀ (s : State) (p ph : Nat) (d : Data), 68 < d.len → s.mctpRx p ph d = s.bump Ctr.LTL_SIZE_DROP_COUNT) ∧
  (∀ (s : State) (p ph e : Nat) (d : Data), d.len ≤ 68 → e = mctpDst d → e ≠ 0xFF → e ≠ 0 → e ≠ s.g Reg.LTL_CFG.eid →
    (s.g (Reg.LTL_ROUTE.valid e) = 0 ∨ e ∈ s.ltl.bad → s.mctpRx p ph d = s.bump Ctr.LTL_ROUTE_DROP_COUNT) ∧
    (∀ o, s.g (Reg.LTL_ROUTE.valid e) = 1 → ¬ e ∈ s.ltl.bad → s.g (Reg.LTL_ROUTE.remote e) = 0 → o = s.g (Reg.LTL_ROUTE.port e) →
      (s.ltlPort o = false → s.mctpRx p ph d = s.bump Ctr.LTL_ROUTE_DROP_COUNT) ∧
      (s.ltlPort o = true → 32 ≤ (s.egress o).length → s.mctpRx p ph d = s.bump Ctr.LTL_QUEUE_DROP_COUNT) ∧
      (s.ltlPort o = true → (s.egress o).length < 32 → (s.mctpRx p ph d).egress o = s.egress o ++ [⟨s.g (Reg.LTL_ROUTE.phys e), d, 0⟩] ∧
        (s.mctpRx p ph d).ctr Ctr.LTL_FWD_COUNT = s.ctr Ctr.LTL_FWD_COUNT + 1)) ∧
    (s.g (Reg.LTL_ROUTE.valid e) = 1 → ¬ e ∈ s.ltl.bad → s.g (Reg.LTL_ROUTE.remote e) = 1 →
      (s.mgRuns = true → s.mctpRx p ph d = (s.ltlMsg (s.g (Reg.LTL_ROUTE.device e)) (s.g (Reg.LTL_ROUTE.mgmt_ep e))
        (mctpRecord (s.g (Reg.LTL_ROUTE.port e)) (s.g (Reg.LTL_ROUTE.phys e)) d)).bump Ctr.LTL_FWD_COUNT) ∧
      (s.mgRuns = false → s.mctpRx p ph d = s.bump Ctr.LTL_ROUTE_DROP_COUNT))) ∧
  (∀ (s : State) (p ph : Nat) (d : Data), d.len ≤ 68 → (mctpDst d = 0xFF → s.mctpRx p ph d = s.bump Ctr.LTL_ROUTE_DROP_COUNT) ∧
    (mctpDst d ≠ 0xFF → mctpDst d = 0 ∨ mctpDst d = s.g Reg.LTL_CFG.eid → s.mctpRx p ph d = (s.emit (.toCore 3 d)).mctpAnswer p ph d)) ∧
  (∀ (s : State) (p ph : Nat) (d : Data), (4 ≤ p → s.mctpOut p ph d = .vdm (p - 4) ph d) ∧
    (p < 4 → s.g (Reg.LTL_BUS_CFG.mode p) = 1 → s.mctpOut p ph d = .i3cWrite p (bits ph 0 7) d) ∧
    (p < 4 → s.g (Reg.LTL_BUS_CFG.mode p) = 0 → s.mctpOut p ph d = .smbusWrite p (bits ph 0 7) 0x0F d)) ∧
  (∀ (s : State) (p : Nat) (d : Data) (r : Data) (rs : List Data), s.ltl.records = r :: rs → s.ltlRuns = true → r.field 0 0 8 = 1 → p = r.field 1 0 3 →
    d = r.slice 8 (r.field 4 0 7) → d.len ≤ 68 → ∃ u, u = { s with ltl := { s.ltl with records := rs } } ∧
    (s.ltlPort p = false → exec .lintelRecordRx s = .next (u.bump Ctr.LTL_ROUTE_DROP_COUNT)) ∧
    (s.ltlPort p = true → 32 ≤ (s.egress p).length → exec .lintelRecordRx s = .next (u.bump Ctr.LTL_QUEUE_DROP_COUNT))) ∧
  (∀ (s : State) (r d : Data) (rs : List Data) (p : Nat), s.ltl.records = r :: rs → s.ltlRuns = true → r.field 0 0 8 = 1 → p = r.field 1 0 3 →
    d = r.slice 8 (r.field 4 0 7) → d.len ≤ 68 → s.ltlPort p = true → (s.egress p).length < 32 → ∃ t, exec .lintelRecordRx s = .next t ∧
    t.egress p = s.egress p ++ [⟨r.field 2 0 16, d, 0⟩] ∧ t.ltl.records = rs ∧ t.ctr Ctr.LTL_FWD_COUNT = s.ctr Ctr.LTL_FWD_COUNT + 1) ∧
  (∀ (s : State) (p : Nat) (a : Bool) (h : LtlSend) (t : List LtlSend), s.egress p = h :: t → s.ltlRuns = true → s.ltlPort p = true →
    (a = true ∨ 4 ≤ p → exec (.mctpSend p a) s = .next ((s.emit (s.mctpOut p h.phys h.d)).setEgress p t)) ∧
    (a = false → p < 4 → h.tries < s.g (Reg.LTL_BUS_CFG.retries p) → exec (.mctpSend p a) s =
      .next ((s.emit (s.mctpOut p h.phys h.d)).setEgress p ({ h with tries := h.tries + 1 } :: t))) ∧
    (a = false → p < 4 → s.g (Reg.LTL_BUS_CFG.retries p) ≤ h.tries → exec (.mctpSend p a) s =
      .next ((((s.emit (s.mctpOut p h.phys h.d)).setEgress p t).bump Ctr.LTL_SEND_FAIL_COUNT).raise (srcLtl 0) 0 p))) ∧
  (∀ (s : State) (b a : Nat) (d : Data), s.ltlRuns = true → b < 4 → s.ltlPort b = true → s.g (Reg.LTL_BUS_CFG.mode b) = 0 →
    s.g (Reg.LTL_BUS_CFG.alert_pull b) = 1 → exec (.alertPull b a d) s =
      .next (((s.emit (.smbusRead b 0x0C none (Data.ofNat 1 (2 * a)))).emit (.smbusRead b a (some 0x0F) d)).mctpRx b a d)) ∧
  (∀ (s : State) (b a : Nat) (d : Data), s.ltlRuns = true → b < 4 → s.ltlPort b = true → s.g (Reg.LTL_BUS_CFG.mode b) = 1 →
    exec (.i3cIbiRx b a 0xAE d) s = .next ((s.emit (.i3cRead b a d)).mctpRx b a d)) ∧
  (∀ (s : State) (x : Nat), s.counting = true → s.ltl.sbCourse ≠ some s.crs.course → 256 ≤ s.crs.cycle → s.crs.cycle ≤ 383 →
    exec (.sidebandChange x) s = .next (s.sideband x) ∧ (s.sideband x).ltl.sbCourse = some s.crs.course ∧
    ((∀ i, i < 12 → (s.sbRuns x).getD i 0 < max 1 (s.g Reg.LTL_SB_CFG.debounce)) →
      s.sideband x = { s with ltl := { s.ltl with sbCourse := some s.crs.course, sbRun := s.sbRuns x } })) ∧
  (∀ (s : State) (x i : Nat), i < 12 → ∃ r, r = (if s.ltl.sbCourse = some (s.crs.course - 1) then s.ltl.sbRun.getD i 0 else 0) ∧
    (s.sbRuns x).getD i 0 = (if bit x i = bit (s.g Reg.LTL_SB_STATUS.levels) i then 0 else r + 1)) ∧
  (∀ (s : State) (i : Nat) (b : Bool), i < 12 → ∃ u : State, s.sbReport i b = u.raise (srcLtl 1) i 0 none (if b then 1 else 0) ∧
    bit (u.g Reg.LTL_SB_STATUS.levels) i = b ∧ bit (u.g Reg.LTL_SB_STATUS.changed) i = true) ∧
  (∀ (s : State) (x : Nat), s.ltl.sbCourse = some s.crs.course ∨ s.crs.cycle < 256 ∨ 383 < s.crs.cycle → exec (.sidebandChange x) s = .next s)

/-! ### Faults and self-test -/

/-- R465, R467, R468, R470: a latching event of a source sets its status bit, takes the next sequence number, and is latched as
the block's cause where none is, with the source, the condition, the object, the class and the time; otherwise it counts, and
of events of one core cycle the lowest source, then the lowest condition, keeps the cause. A cause released in this cycle by
clearing the source is back. No other source and no other block changes. A real and a forced event of one source that meet in
a cycle are one that counts as real. R466, R467: a 1 written to a status bit clears it and both record bits, and releases the
cause that names the source; a source whose condition is present, or that has latched in this cycle, keeps them. R466, R468,
R469, R471: the bank's registers as commands: a word of FLT_STATUS clears each source whose bit is one, a word of FLT_FORCE
sets the force bits. A pulse source whose bit rises has its event in the next core cycle, a level source whose condition is
not there has it at once, and one whose condition is there has none. At a core cycle's tick the forced events that are due
latch, in ascending order of their sources. A consequence that waited takes effect on the object the source handles. A command
whose condition does not hold changes nothing (the model's choice, notes/assumptions/3). -/
def Obligations.FaultBanksAndCommands : Prop :=
  ((∀ (s : State) (g cond obj det : Nat) (own : Option Nat) (frc sev : Bool) (b : BlkDef) (l : Nat), srcBlock g = some (b, l) →
     let t := s.latchEvent g cond obj own det frc sev
     let kept := (s.bank b.code).freed.filter (fun f => f.1 == s.cycles && f.2.source == g)
     (t.src g).status = true ∧ (t.src g).seq = (s.src g).seq + 1 ∧ (t.src g).evAt = some (s.cycles, frc) ∧ (frc = true → (t.src g).recForced = true) ∧
     (∀ k, k ≠ g → t.src k = s.src k) ∧ (∀ k, k ≠ b.code → t.bank k = s.bank k) ∧
     (kept = none → (s.bank b.code).cause = none → ∃ c, (t.bank b.code).cause = some c ∧ c.source = g ∧ c.condition = cond ∧ c.object = obj % 2 ^ 24 ∧
       c.cls = srcClass b.code l ∧ c.forced = frc ∧ c.severe = sev ∧ c.time = s.now ∧ (t.bank b.code).count = (s.bank b.code).count) ∧
     (∀ o, kept = none → (s.bank b.code).cause = some o → (t.bank b.code).count = (s.bank b.code).count + 1 ∧
       (o.beat ≠ s.cycles ∨ o.source < g ∨ (o.source = g ∧ o.condition ≤ cond) → (t.bank b.code).cause = some o) ∧
       (o.beat = s.cycles → g < o.source ∨ (g = o.source ∧ cond < o.condition) → ∃ c, (t.bank b.code).cause = some c ∧ c.source = g ∧ c.condition = cond)) ∧
     (∀ f, kept = some f → (t.bank b.code).cause = some f.2 ∧
       (t.bank b.code).count = (s.bank b.code).count + (if (s.bank b.code).cause.isSome then 2 else 1))) ∧
   (∀ (s : State) (g cond obj det : Nat) (own : Option Nat) (b : BlkDef) (l : Nat), srcBlock g = some (b, l) → s.meets g true = true →
     ∃ t, t = s.latch g cond obj own det true ∧ (t.src g).recReal = true ∧ (t.src g).recForced = true ∧ (t.src g).seq = (s.src g).seq ∧
       (t.bank b.code).count = (s.bank b.code).count ∧
       (∀ c, (s.bank b.code).cause = some c → c.source = g → c.beat = s.cycles → (t.bank b.code).cause = some { c with forced := false })) ∧
   (∀ (s : State) (code l : Nat), s.liveBit (bankSrc code l) = false → (s.src (bankSrc code l)).evAt.map Prod.fst ≠ some s.cycles →
     ∃ t, t = s.clearStatus code l ∧ (t.src (bankSrc code l)).status = false ∧
     (t.src (bankSrc code l)).recReal = false ∧ (t.src (bankSrc code l)).recForced = false ∧ (∀ k, k ≠ bankSrc code l → t.src k = s.src k) ∧
     (∀ c, (s.bank code).cause = some c → (t.bank code).cause = if c.source = bankSrc code l then none else some c)) ∧
   (∀ (s : State) (code l : Nat), s.liveBit (bankSrc code l) = true ∨ (s.src (bankSrc code l)).evAt.map Prod.fst = some s.cycles →
     s.clearStatus code l = s)) ∧
  ((∀ (s : State) (req : Requester) (code k v : Nat), 0 < code → code < 18 → k < 32 →
     (mayConfigure s req (bankOff code (0x100 + 4 * k)) →
       exec (.faultStatusClear req code k v) s = .next ((bitSources code k (v % 2 ^ 32)).foldl (fun t l => t.clearStatus code l) s).settle) ∧
     (mayConfigure s req (bankOff code (0x200 + 4 * k)) →
       exec (.faultForce req code k v) s = .next (((List.range 32).filter (fun i => decide (32 * k + i < bankSize code))).foldl
         (fun t i => t.forceBit code (32 * k + i) (bit (v % 2 ^ 32) i)) s).settle)) ∧
   (∀ (s : State) (code l g : Nat), g = bankSrc code l → (s.src g).force = false →
     (srcLevel code l = false → ∃ x, (s.forceBit code l true) = s.setSrc g x ∧ x.due = true ∧ x.force = true ∧ x.status = (s.src g).status) ∧
     (srcLevel code l = true → (s.src g).real = false → s.forceBit code l true = (s.setSrc g { s.src g with force := true }).forcedEvent code l) ∧
     (srcLevel code l = true → (s.src g).real = true → ∃ x, s.forceBit code l true = s.setSrc g x ∧ x.recReal = true ∧ x.force = true ∧ x.status = (s.src g).status)) ∧
   (∀ (s : State) (code l : Nat), (s.src (bankSrc code l)).force = true → code ≠ 3 → ∃ x, s.forceBit code l false = s.setSrc (bankSrc code l) x ∧
     x.force = false ∧ x.status = (s.src (bankSrc code l)).status) ∧
   (∀ (s : State) (code l : Nat) (v : Bool), (s.src (bankSrc code l)).force = v → s.forceBit code l v = s) ∧
   (∀ (s : State) (g l : Nat) (b : BlkDef), srcBlock g = some (b, l) → s.srcs.filter (fun e => e.2.due) = [(g, s.src g)] →
     s.forceTick = (s.setSrc g { s.src g with due := false }).forcedEvent b.code l) ∧
   (∀ s : State, (∀ e ∈ s.srcs, e.2.due = false) → s.forceTick = s) ∧
   (∀ (s : State) (code l : Nat) (t : State), s.meets (bankSrc code l) true = false →
     t = s.latch (bankSrc code l) 0 (s.bank code).object (s.objOwner code l (s.bank code).object) 0 true →
     ((s.bank code).act = false ∨ srcActs code l = false → s.forcedEvent code l = t) ∧
     ((s.bank code).act = true → srcActs code l = true → srcWaits code l = true →
       s.forcedEvent code l = t.setSrc (bankSrc code l) { t.src (bankSrc code l) with pend := true }) ∧
     ((s.bank code).act = true → srcActs code l = true → srcWaits code l = false →
       (∀ u, t.forcedOn code l (s.bank code).object = some u → s.forcedEvent code l = u) ∧
       (t.forcedOn code l (s.bank code).object = none → s.forcedEvent code l = t.setBank code { t.bank code with miss := true }))) ∧
   (∀ (s t : State) (g l obj : Nat) (b : BlkDef), srcBlock g = some (b, l) → (s.src g).pend = true → s.forcedNext b.code l obj = some t →
     exec (.forcedConsequence g obj) s = .next (t.setSrc g { t.src g with pend := false }).settle) ∧
   (∀ (s : State) (g obj : Nat), (s.src g).pend = false → exec (.forcedConsequence g obj) s = .next s))

/-- R68, R477 to R481, R483 to R487: the slices of the self-test: one begins at its slot in TRANSIT or SERVICE, or by RUN; the
unit leaves service when it is ready, with the MISR cleared, else the slice is skipped after 1,024 courses. The test's results
enter the MISR; a signature that agrees returns the unit, another leads to a repair and a retest, or retires it; a mode that
takes no slice, or a cleared enable, aborts it. At the end of a sweep every unit that was not tested counts as skipped. FUSE
burns a repair record. That the sequencer needs its core to run is the model's reading of R18 (notes/assumptions/91). A
command whose condition does not hold changes nothing (the model's choice, notes/assumptions/3). -/
def Obligations.SelfTestSlices : Prop :=
  (∀ s : State, s.mode = .transit ∨ s.mode = .service → s.coreRuns 2 = true → s.g Reg.BST_CFG.enable = 1 → s.slicing = false →
    s.course % 4096 = 0 → 384 ≤ s.crs.cycle → s.crs.cycle ≤ 1151 → s.bst.slot ≠ some (s.course / 4096) → ∀ u : State, u = { s with bst := { s.bst with slot := some (s.course / 4096) } } →
    (s.slotEntry = none → exec .sliceStart s = .next u) ∧
    (∀ e, s.slotEntry = some e → e = s.course % 2 ^ 24 / 4096 → s.retired (entryUnit e).1 (entryUnit e).2 = false →
      exec .sliceStart s = .next (u.sliceBegin (entryUnit e).1 (entryUnit e).2 false) ∧
      (u.sliceBegin (entryUnit e).1 (entryUnit e).2 false).slicing = true)) ∧
  (∀ (s : State) (cls unit : Nat), s.slicing = true → s.coreRuns 2 = true → s.abortDue = false → s.g Reg.BST_STATUS.phase = 1 →
    s.sliceUnit = (cls, unit) → s.unitReady cls unit = true → ∃ t, exec .unitReady s = .next t ∧ t.g Reg.BST_STATUS.phase = 2 ∧ t.bst.misr = 0) ∧
  (∀ (s : State) (c : When), s.bst.began = some c → s.slicing = true → s.coreRuns 2 = true → s.abortDue = false →
    s.g Reg.BST_STATUS.phase = 1 → 1024 ≤ s.over c →
    exec .sliceSkip s = .next (((s.sliceRetry.sliceEnd false).bump Ctr.BST_SKIP_COUNT).raise (srcBst 2) 0 0)) ∧
  (∀ (s : State) (x : Nat) (f : List (Nat × Nat)), s.slicing = true → s.coreRuns 2 = true → s.abortDue = false →
    s.g Reg.BST_STATUS.phase = 2 → misrFold s.bst.misr x = Config.golden s.sliceUnit.1 % 2 ^ 64 →
    ∃ t, exec (.testComplete x f) s = .next t ∧ t.slicing = false ∧ t.g Reg.BST_STATUS.phase = 0 ∧
    t.ctr Ctr.BST_SLICE_COUNT = s.ctr Ctr.BST_SLICE_COUNT + 1 ∧ t.ctr Ctr.BST_FAIL_COUNT = s.ctr Ctr.BST_FAIL_COUNT) ∧
  (∀ (s : State) (x : Nat) (f : List (Nat × Nat)), s.slicing = true → s.coreRuns 2 = true → s.abortDue = false →
    s.g Reg.BST_STATUS.phase = 2 → misrFold s.bst.misr x ≠ Config.golden s.sliceUnit.1 % 2 ^ 64 →
    ∃ t u : State, exec (.testComplete x f) s = .next t ∧
    (s.bst.retested = true ∨ s.g Reg.BST_CFG.repair_en = 0 →
      t = ((u.retireUnit s.sliceUnit.1 s.sliceUnit.2).sliceEnd true).bump Ctr.BST_SLICE_COUNT ∧ u.ctr Ctr.BST_FAIL_COUNT = s.ctr Ctr.BST_FAIL_COUNT + 1 ∧
      u.bst.misr = misrFold s.bst.misr x) ∧
    (s.bst.retested = false → s.g Reg.BST_CFG.repair_en = 1 → s.suffices s.sliceUnit.1 s.sliceUnit.2 f = true → f ≠ [] →
      t.bst.retested = true ∧ t.bst.misr = 0 ∧ t.g Reg.BST_STATUS.phase = 2)) ∧
  (∀ m w : Nat, misrStep m w = ((m * 2 % 2 ^ 64) ^^^ (if bit m 63 then 0x1B else 0)) ^^^ (w % 2 ^ 64) ∧ (w < 2 ^ 64 → misrFold 0 w = w)) ∧
  (∀ s : State, s.slicing = true → s.g Reg.BST_STATUS.phase ≤ 3 →
    s.sliceMode = false ∨ (s.bst.enabled = true ∧ s.g Reg.BST_CFG.enable = 0) → exec .sliceAbort s = .next s.sliceAbort ∧
      s.sliceAbort = ((s.sliceRetry.sliceEnd false).bump Ctr.BST_ABORT_COUNT).raise (srcBst 1) 0 0) ∧
  (∀ s : State, ∃ n, n = ((List.range 1424).filter (fun e => !s.bst.tested.contains e && !s.retired (entryUnit e).1 (entryUnit e).2)).length ∧
    s.sweepStart.ctrs = ((s.bumpBy Ctr.BST_SKIP_COUNT n).bump Ctr.BST_SWEEP_COUNT).ctrs ∧ s.sweepStart.bst.tested = [] ∧ s.sweepStart.bst.retry = []) ∧
  (∀ s : State, s.slicing = false → exec .sliceAbort s = .next s ∧ exec .unitReady s = .next s ∧ exec .sliceSkip s = .next s) ∧
  (∀ (s : State) (req : Requester) (cls unit rec : Nat) (ok : Bool), s.mode ≠ .fenced → s.mode ≠ .off → cls < 16 → unit < 2 ^ 10 → rec < 2 ^ 10 →
    s.g Reg.BST_CMD_STATUS.busy ≠ 1 → req.mgmt = true →
    exec (.run req cls unit) s = .next ((s.bstRun cls unit).1.bstResult (pack [(16, 10, unit), (12, 4, cls), (0, 4, 1)]) (s.bstRun cls unit).2) ∧
    exec (.fuse req rec ok) s = .next ((s.bstFuse rec ok).1.bstResult (pack [(16, 10, rec), (0, 4, 2)]) (s.bstFuse rec ok).2) ∧
    (s.mode = .transit ∨ s.mode = .service ∨ s.mode = .drain → s.slicing = false → unit < unitCount cls → s.retired cls unit = false →
      s.bstRun cls unit = (s.sliceBegin cls unit true, 0))) ∧
  (∀ (s : State) (rec : Nat), s.mode = .drain → rec < 512 → s.g (Reg.BST_REPAIR.valid rec) ≠ 0 → s.g (Reg.BST_REPAIR.fused rec) = 0 →
    (s.bstFuse rec true).2 = 0 ∧ (s.bstFuse rec true).1.g (Reg.BST_REPAIR.fused rec) = 1 ∧ s.bstFuse rec false = (s.raise (srcBst 5) 0 0, 4))

/-! ### Boot and the management plane -/

/-- R490 to R496, R506: the boot: a go from a PF of a host port that is present is taken in STRAP while the mailbox is idle or has
failed, and of the gos of one core cycle that of the lowest host port; its fetch begins once the ROM self-test has passed, and
its reads return data or fail it. An image that authenticates is used, the host's before FP62's, and MONITOR begins with the
course counter at zero. A firmware request that gets no answer is sent again, sixteen times at most; its data are kept until
the image is whole. A device that serves firmware answers a request on a service port with the image's bytes, or with a
status. A command whose condition does not hold changes nothing (the model's choice, notes/assumptions/3). -/
def Obligations.Boot : Prop :=
  (∀ (s : State) (f : Nat), f < 1024 → s.mode = .strap → s.hostBoot = true → isPf f = true → s.hpPresent (hpOf f) = true →
    (s.g Reg.MGT_BOOT_MBOX.state = 0 ∨ s.g Reg.MGT_BOOT_MBOX.state = 2 ∨
      (s.g Reg.MGT_BOOT_MBOX.state = 1 ∧ s.mgt.goPend = true ∧ s.mgt.goAt = s.cycles ∧ hpOf f < s.g Reg.MGT_BOOT_MBOX.owner) →
      ∃ t, exec (.bootMboxGo (.fn f)) s = .next t ∧ t.g Reg.MGT_BOOT_MBOX.state = 1 ∧ t.g Reg.MGT_BOOT_MBOX.owner = hpOf f ∧
        t.mgt.hostGot = Data.empty ∧ t.mgt.goPend = true ∧ t.mgt.goAt = s.cycles) ∧
    (s.g Reg.MGT_BOOT_MBOX.state = 1 → s.mgt.goPend = false ∨ s.mgt.goAt ≠ s.cycles ∨ s.g Reg.MGT_BOOT_MBOX.owner ≤ hpOf f →
      exec (.bootMboxGo (.fn f)) s = .next s)) ∧
  (∀ (s : State) (f : Nat), s.mode ≠ .strap ∨ s.hostBoot = false ∨ isPf f = false ∨ s.hpPresent (hpOf f) = false →
    exec (.bootMboxGo (.fn f)) s = .next s) ∧
  (∀ (s : State) (req : Requester), (∀ f, req ≠ .fn f) → exec (.bootMboxGo req) s = .next s) ∧
  (∀ s : State, s.mgt.goPend = true → ∃ u, u = { s with mgt := { s.mgt with goPend := false } } ∧ s.goFetch = (u.fetchBegin 0).bootRead ∧
    (s.mgt.hostGot.len < s.g Reg.MGT_BOOT_MBOX.length → ∃ h a, h = s.g Reg.MGT_BOOT_MBOX.owner ∧
      a = (s.g Reg.MGT_BOOT_MBOX.addr_lo + s.g Reg.MGT_BOOT_MBOX.addr_hi * 2 ^ 20) * 4096 ∧
      s.bootRead = s.hostRead h (h * 256) (a + s.mgt.hostGot.len) (min 512 (s.g Reg.MGT_BOOT_MBOX.length - s.mgt.hostGot.len)))) ∧
  (∀ (s : State) (d : Data), s.mode = .strap → s.g Reg.MGT_BOOT_MBOX.state = 1 → 3 ≤ s.g Reg.GLB_BOOT_STATUS.stage → s.mgt.goPend = false →
    s.mgt.hostGot.len < s.g Reg.MGT_BOOT_MBOX.length → ∃ u : State,
    u.mgt.hostGot = s.mgt.hostGot.append (d.slice 0 (min 512 (s.g Reg.MGT_BOOT_MBOX.length - s.mgt.hostGot.len))) ∧ OnlyWrites [.mgt] s u ∧
    (u.mgt.hostGot.len < s.g Reg.MGT_BOOT_MBOX.length → exec (.bootImageReadReturn (.data d)) s = .next u.bootRead) ∧
    (s.g Reg.MGT_BOOT_MBOX.length ≤ u.mgt.hostGot.len → exec (.bootImageReadReturn (.data d)) s = .next (u.fetched 0)) ∧
    (∀ c, exec (.bootImageReadReturn (.error c)) s = .next (s.bootFailed 0 6))) ∧
  (∀ (s : State) (d : Data), s.mode = .strap → s.bootImage 0 = some d → exec (.bootFetchComplete [0]) s =
    .next (if checkImage d = 1 then s.bootAccept 0 d else (s.put Reg.GLB_BOOT_STATUS.stage 4).bootFailed 0 (checkImage d))) ∧
  (∀ (s : State) (k : Nat) (d : Data), k < 3 → ∃ t, t = s.bootAccept k d ∧ t.mode = .monitor ∧ t.crs.course = 0 ∧ t.crs.cycle = 0 ∧ t.mgt.image = d) ∧
  (∀ (s : State) (p : Nat) (f : Fetch), s.fetch? p = some f → s.mode = .strap → f.full = false → f.retryAt = none → 64 * 1280 ≤ s.mgt.bootCycle - f.sentAt →
    (16 ≤ f.sends → exec (.fwReqTimeout p) s = .next (s.bootFailed (p - 61) 7)) ∧ (f.sends < 16 → exec (.fwReqTimeout p) s = .next (s.fwReq p f))) ∧
  (∀ (s : State) (p c : Nat) (f : Fetch), s.fetch? p = some f → f.retryAt = some c → s.mode = .strap → 64 * 1280 ≤ s.mgt.bootCycle - c → s.up p = true →
    exec (.fwFetchRetry p) s = .next (s.fabricFetch p)) ∧
  (∀ (s u : State) (x : MgIn) (f : Fetch), s.mgTake [0x35] = some (x, u) → u.fetch? x.port = some f → s.mode = .strap → f.full = false → f.retryAt = none →
    (MgH.of x.d).tag = f.tag → (MgH.of x.d).addr = f.got.len → (MgH.of x.d).status = 0 → (MgH.of x.d).count ≠ 0 → ∃ g : Fetch,
    g.got = f.got.append (mgPayload x.d (64 * min 64 (MgH.of x.d).count)) ∧ g.tag = (f.tag + 1) % 65536 ∧ g.sends = 0 ∧
    ((∀ n, g.total = some n → n ≤ 2 ^ 21 ∧ g.got.len < n) → exec .fwDataRx s = .next (u.fwReq x.port g)) ∧
    (∀ n, g.total = some n → n ≤ g.got.len → exec .fwDataRx s = .next ((u.setFetch x.port (some { g with full := true })).fetched (x.port - 61)))) ∧
  (∀ (s u : State) (x : MgIn), s.mgTake [0x34] = some (x, u) → s.coreRuns 1 = true → s.mgRuns = true → s.g Reg.MGT_FW_SERVE.enable = 1 →
    s.role s.crs.active x.port = 4 → s.up x.port = true → ∃ (v : State) (m a : MgH) (n : Nat), exec .fwReqRx s = .next (v.bump Ctr.MGT_FW_SERVE_COUNT) ∧
    v = u.mgOut x.port 0x35 (s.course % 65536) s.crs.active 0 (a.data.append (s.mgt.image.slice m.addr (64 * n))) ∧ m = MgH.of x.d ∧ a.tag = m.tag ∧
    a.dstDev = m.origin ∧ a.addr = m.addr ∧ a.count = n ∧
    (m.dstEp = 0x03 → m.addr < s.mgt.image.len → a.status = 0 ∧ n = min (min 64 m.count) (ceilDiv (s.mgt.image.len - m.addr) 64)) ∧
    (m.dstEp = 0x03 → s.mgt.image.len ≤ m.addr → a.status = 0x02 ∧ n = 0) ∧ (m.dstEp ≠ 0x03 → a.status = 0x04 ∧ n = 0)) ∧
  (∀ (s u : State) (x : MgIn), s.mgTake [0x34] = some (x, u) → s.coreRuns 1 = true → s.g Reg.MGT_FW_SERVE.enable = 0 → exec .fwReqRx s = .next u) ∧
  (∀ s : State, s.coreRuns 1 = false → exec .fwReqRx s = .next s)

/-- R161, R497, R499 to R505: the management plane: a packet of hub port 7 is delivered here, sent on with its birth, set tag and
hops, or discarded and counted; the register agent answers reads with the words and performs writes, refuses an origin that is
not permitted and a bad range, and answers a repeated request from what it kept; a mailbox sends its owner's request, sends it
again, gives up, and takes the response that bears its tag. A command whose condition does not hold changes nothing (the
model's choice, notes/assumptions/3). R507, R510: MC0 and the fabric manager start and reset the other management cores, whose
exception restarts them; a requester's readback captures one to sixteen rows of a table into its own buffer, with the time,
and is a bad access while the last one is in progress. -/
def Obligations.ManagementAndCores : Prop :=
  ((∀ (s : State) (d : Data) (port : Nat) (r : List (Data × Nat)), s.hubQ 7 = (d, port) :: r → s.mgRuns = true →
     (Hdr.crcOk d.hdr = false → exec .mgmtForward s = .next (((s.hubPop 7).bump Ctr.RTE_HDR_ERR_COUNT).raise (srcRte 1) 0 71)) ∧
     (Hdr.crcOk d.hdr = true → 0x36 ≤ Hdr.type d.hdr → exec .mgmtForward s = .next ((s.hubPop 7).bump Ctr.MGT_DROP_COUNT)) ∧
     (∀ old, Hdr.crcOk d.hdr = true → Hdr.type d.hdr < 0x34 → s.lifeCheck (Hdr.birth d.hdr) = some old → exec .mgmtForward s = .next
       (((s.hubPop 7).bump (if old then Ctr.RTE_LIFE_DROP_COUNT else Ctr.RTE_FUTURE_DROP_COUNT)).raise (srcRte 0) 0 71)) ∧
     (Hdr.crcOk d.hdr = true → Hdr.type d.hdr < 0x34 → s.lifeCheck (Hdr.birth d.hdr) = none → s.mode ≠ .strap → (MgH.of d).rlen = 0 → (MgH.of d).dstDev = s.me →
       exec .mgmtForward s = .next ((s.hubPop 7).mgDeliver (d.patch 16 (MgH.of d).data) port)) ∧
     (Hdr.crcOk d.hdr = true → Hdr.type d.hdr < 0x34 → s.lifeCheck (Hdr.birth d.hdr) = none → s.mode ≠ .strap → (MgH.of d).rlen = 0 → (MgH.of d).dstDev ≠ s.me →
       (Hdr.hops d.hdr = 15 ∨ (s.hubPop 7).mgPort (MgH.of d) = none → exec .mgmtForward s = .next ((s.hubPop 7).mgDrop port)) ∧
       (∀ p, Hdr.hops d.hdr ≠ 15 → (s.hubPop 7).mgPort (MgH.of d) = some p → exec .mgmtForward s =
         .next (((s.hubPop 7).mgOut p (Hdr.type d.hdr) (Hdr.birth d.hdr) (Hdr.setTag d.hdr) (Hdr.hops d.hdr)
           ((MgH.of d).data.append (d.slice 48 (d.len - 48)))).bump Ctr.MGT_FWD_COUNT)))) ∧
   (∀ (s u : State) (x : MgIn), s.agentRuns = true →
     (s.mgTake [0x30] = some (x, u) → ∀ m, m = MgH.of x.d → exec .mgReadRx s = .next (u.agent m false Data.empty) ∧
       (m.dstEp = 0x02 → u.mgt.answered.find? (fun e => e.1 == m.key) = none → m.inRbk = false ∨ u.originOk m.origin = true → m.badRange = false →
         ∃ r, r = (u.bump Ctr.MGT_AGENT_REQ_COUNT).agentRead m.addr m.count ∧ exec .mgReadRx s = .next (r.1.agentAnswer m 0x00 r.2))) ∧
     (s.mgTake [0x31] = some (x, u) → ∀ m, m = MgH.of x.d → exec .mgWriteRx s = .next (u.agent m true (x.d.slice 48 256)) ∧
       (m.dstEp = 0x02 → u.mgt.answered.find? (fun e => e.1 == m.key) = none → u.originOk m.origin = true → m.badRange = false →
         exec .mgWriteRx s = .next (((((u.bump Ctr.MGT_AGENT_REQ_COUNT).agentWrite m.addr (x.d.slice 48 256) m.count).settle).agentAnswer m 0x00 []))))) ∧
   (∀ (s : State) (m : MgH) (w : Bool) (d : Data), (m.dstEp ≠ 0x02 → s.agent m w d = s.mgReply m 0x04 []) ∧
     (m.dstEp = 0x02 →
       (∀ (k : Nat) (a : Data), s.mgt.answered.find? (fun e => e.1 == m.key) = some (k, a) → s.agent m w d =
         (s.bump Ctr.MGT_DUP_COUNT).mgReply m (a.field 0 0 32) ((List.range (a.len / 4 - 1)).map (fun i => a.field (4 + 4 * i) 0 32))) ∧
       (s.mgt.answered.find? (fun e => e.1 == m.key) = none →
         (w = true ∨ m.inRbk = true → s.originOk m.origin = false → s.agent m w d =
           ((s.bump Ctr.MGT_REFUSE_COUNT).raise (srcMgt 1) 0 m.origin).agentAnswer m 0x01 []) ∧
         (s.originOk m.origin = true → m.badRange = true → s.agent m w d = s.agentAnswer m 0x02 [])))) ∧
   (∀ (s u : State) (x : MgIn), s.mgTake [0x33] = some (x, u) →
     ((MgH.of x.d).dstEp = 0 → ∃ t, exec .mgMsgRx s = .next t ∧ OnlyWrites [.ltl] u t ∧
       t.ltl.records = u.ltl.records ++ [mgPayload x.d (4 * min 64 (if (MgH.of x.d).count = 0 then 64 else (MgH.of x.d).count))]) ∧
     ((MgH.of x.d).dstEp = 0x02 ∨ (MgH.of x.d).dstEp = 0x03 → exec .mgMsgRx s = .next u)) ∧
   (∀ (s u : State) (x : MgIn) (m : Nat), s.mgTake [0x32] = some (x, u) →
     (List.range 8).find? (fun m => (s.box m).op != 0 && (s.box m).tag == (MgH.of x.d).tag && Config.mgmtEp m % 256 == (MgH.of x.d).dstEp) = some m →
     (s.box m).op ≠ 1 → exec .mgRespRx s = .next (u.boxDone m (MgH.of x.d).status)) ∧
   (∀ (s : State) (req : Requester) (m : Nat), boxOwner req m = true → s.mode ≠ .fenced → s.mode ≠ .off →
     exec (.mailboxRead req m) s = .next (s.boxStart m 1) ∧ exec (.mailboxWrite req m) s = .next (s.boxStart m 2) ∧
     exec (.mailboxMsg req m) s = .next (s.boxStart m 3)) ∧
   (∀ (s : State) (req : Requester) (m : Nat), boxOwner req m = false → exec (.mailboxRead req m) s = .next s ∧ exec (.mailboxWrite req m) s = .next s ∧
     exec (.mailboxMsg req m) s = .next s) ∧
   (∀ (s : State) (m op : Nat), s.g (Reg.MGT_MG.busy m) = 1 → s.boxStart m op = s) ∧
   (∀ (s : State) (m : Nat) (b : Mailbox), b = s.box m → b.op ≠ 0 → s.counting = true → max 1 (s.g Reg.MGT_MG_CFG.retry_courses) ≤ s.over b.sent →
     (b.resends < s.g Reg.MGT_MG_CFG.retries → exec (.mailboxRetry m) s =
       .next ((s.setBox m { b with resends := b.resends + 1, sent := s.nowAt }).boxSend b.op b.data)) ∧
     (s.g Reg.MGT_MG_CFG.retries ≤ b.resends → exec (.mailboxRetry m) s = .next (s.boxDone m 0x06)))) ∧
  ((∀ (s : State) (req : Requester) (c : Nat), 1 ≤ c → c ≤ 3 → s.counting = true → s.mode ≠ .fenced →
     exec (.mcStart req c) s = .next (s.mcCtrlWrite req (setBits (s.g Reg.MGT_MC_CTRL.run) (c - 1) 1 1)) ∧
     exec (.mcReset req c) s = .next (s.mcCtrlWrite req (setBits (s.g Reg.MGT_MC_CTRL.run) (c - 1) 1 0))) ∧
   (∀ (s : State) (c v : Nat), 0 < c → s.mcCtrlWrite (.mc c) v = s) ∧ (∀ (s : State) (f v : Nat), s.mcCtrlWrite (.fn f) v = s) ∧
   (∀ (s : State) (c : Nat), s.mode ≠ .off → 1 ≤ c → c ≤ 3 → bit (s.g Reg.MGT_MC_CTRL.run) (c - 1) = true →
     exec (.mcException c) s = .next (((s.raise (srcMgt 3) 0 c).coreReset c).coreStart c)) ∧
   (∀ s : State, s.mode ≠ .off → exec (.mcException 0) s = .next (s.raise (srcMgt 5) 0 0)) ∧
   (∀ (s : State) (req : Requester) (b v : Nat), bufferOf req = some b → mayConfigure s req (Reg.RBK_SEL.off b + 4) → ∃ d, locPf (Reg.RBK_SEL.off b + 4) = .reg d b 0 1 ∧
     exec (.readbackCapture req v) s = .next ((s.lockCheck d 1 (s.word (Reg.RBK_SEL.off b + 4)) (v % 2 ^ 32)).capture b (v % 2 ^ 32)).settle) ∧
   (∀ (s : State) (b v : Nat), s.rbkBusy b = true → s.capture b v = s.badAccess) ∧
   (∀ (s : State) (b v : Nat), b < 9 → s.rbkBusy b = false → ∃ t, t = s.capture b v ∧ t.g (Reg.RBK_TIME.time_lo b) = s.now % 2 ^ 32 ∧
     t.g (Reg.RBK_TIME.time_hi b) = s.now / 2 ^ 32 % 2 ^ 32 ∧ t.rbkBusy b = true ∧ OnlyWrites [.regs, .mgt, .free] s t))

/-- R515 to R518: the monitor: a line is echoed and renews the timer, and its command answers values, or err with a number: locked
commands until a response to the challenge has unlocked them, all of them in FENCED; a line that spells no command gives err
1. R514, R518: in OFF and STRAP the monitor takes no line; an unlocked monitor locks itself after 65,536 courses without one,
and a lockout ends 2^24 courses after it began. A command whose condition does not hold changes nothing (the model's choice,
notes/assumptions/3). -/
def Obligations.MonitorLines : Prop :=
  (∀ (s : State) (l : List Nat), s.monOn = true →
     let answers (c : Instr) (act : State → State × Reply) : Prop :=
       exec c s = .next ((act (s.monHear l)).1.monSay (act (s.monHear l)).2)
     (parseLine l = some .help → answers (.monHelp l) (fun t => (t, .ok "help id rd rbk flt time boot unlock resp lock wr mode baud mcrun fuse reset"))) ∧
     (parseLine l = some .id → answers (.monId l) (fun t =>
       (t, .ok (hexWords [t.word Reg.GLB_PART.off, bits Config.serial 32 32, bits Config.serial 0 32, t.me, t.mode.code])))) ∧
     (∀ o n, parseLine l = some (.rd o n) → o % 4 = 0 → 0 < n → n ≤ 64 → o + 4 * n ≤ 2 ^ 26 →
       answers (.monRd l) (fun t => ((t.monRead o n).1, .ok (hexWords (t.monRead o n).2)))) ∧
     (∀ t i n, parseLine l = some (.rbk t i n) → t ≤ 255 → i < 2 ^ 24 → 0 < n → n ≤ 16 →
       answers (.monRbk l) (fun u => (((u.put (Reg.RBK_SEL.table 4) t).put (Reg.RBK_SEL.index 4) i).capture 4 (n - 1), .ok ""))) ∧
     (∀ b, parseLine l = some (.flt b) → 0 < b → b ≤ 17 →
       answers (.monFlt l) (fun t => (t, .ok (hexWords ([0x04, 0x10, 0x14, 0x18, 0x1C, 0x20, 0x24].map (fun o => t.bankRead b o)))))) ∧
     (parseLine l = some .time → answers (.monTime l) (fun t => (t, .ok (hexWords [t.now / 2 ^ 32, t.now % 2 ^ 32, t.alignStatus])))) ∧
     (parseLine l = some .boot → answers (.monBoot l) (fun t => (t, .ok (hexWords [t.word Reg.GLB_BOOT_STATUS.off, t.mgt.image.field 12 0 32])))) ∧
     (parseLine l = some .unlock → s.mgt.mon.lockout.isSome = true → exec (.monUnlock l) s = .next ((s.monHear l).monSay (.err 5))) ∧
     (parseLine l = some .unlock → s.mgt.mon.lockout = none → ∃ t n, exec (.monUnlock l) s = .next t ∧ t.mgt.mon.challenge = some (n, s.nowAt)) ∧
     (∀ r, parseLine l = some (.resp r) → answers (.monResp l) (fun t => t.monResp r)) ∧
     (∀ n c, s.mgt.mon.challenge = some (n, c) → s.over c < 256 → (s.monResp (s.monExpect n)).1.mgt.mon.unlocked = true) ∧
     (∀ r n c, parseLine l = some (.resp r) → s.mgt.mon.challenge = some (n, c) → r ≠ s.monExpect n ∨ 256 ≤ s.over c →
       (s.monResp r) = (s.monFail, .err 6)) ∧
     (parseLine l = some .lock → ∃ t, exec (.monLock l) s = .next t ∧ t.mgt.mon.unlocked = false) ∧
     (s.mode ≠ .fenced → s.mgt.mon.unlocked = true →
       (∀ o v, parseLine l = some (.wr o v) → o % 4 = 0 → o < 2 ^ 26 → v < 2 ^ 32 → answers (.monWr l) (fun t => (t.access .monitor o v, .ok ""))) ∧
       (∀ m, parseLine l = some (.mode m) → m ≤ 7 → answers (.monMode l) (fun t => (t.access .monitor Reg.GLB_MODE_REQ.off m, .ok ""))) ∧
       (∀ b ∈ [115200, 230400, 460800, 921600, 1500000, 3000000], parseLine l = some (.baud b) → ∃ t, exec (.monBaud l) s = .next t ∧
         t.mgt.mon.baud = b) ∧
       (∀ c v, parseLine l = some (.mcrun c v) → 0 < c → c ≤ 3 → v ≤ 1 →
         answers (.monMcrun l) (fun t => (t.mcCtrlWrite .monitor (setBits (t.g Reg.MGT_MC_CTRL.run) (c - 1) 1 v), .ok ""))) ∧
       (∀ r ok, parseLine l = some (.fuse r) → r ≤ 511 → ∃ (t : State) (a : Reply), t = (s.monHear l).bstCmd .monitor (2 + r * 2 ^ 16) ok ∧
         exec (.monFuse l ok) s = .next (t.monSay a)) ∧
       (parseLine l = some .reset → s.liveBit 3 = false →
         exec (.monReset l) s = .next (((s.monHear l).monSay (.ok "")).resetCtrl 0xD1E50001))) ∧
     (s.mode ≠ .fenced → s.mgt.mon.unlocked = false → ∀ o v, parseLine l = some (.wr o v) → exec (.monWr l) s = .next ((s.monHear l).monSay (.err 2))) ∧
     (s.mode = .fenced → ∀ o v, parseLine l = some (.wr o v) → exec (.monWr l) s = .next ((s.monHear l).monSay (.err 4))) ∧
     (parseLine l = none → exec (.monLineInvalid l) s = .next ((s.monHear l).monSay (.err 1)))) ∧
  ((∀ (s : State) (l : List Nat) (b : Bool) (f : State → State × Reply), s.mode = .off ∨ s.mode = .strap → s.monitor l b f = s) ∧
   (∀ s : State, s.mgt.mon.unlocked = true → 65536 ≤ s.over s.mgt.mon.lastLine → ∃ t, exec .monitorIdleTimeout s = .next t ∧
     t.mgt.mon = { s.mgt.mon with unlocked := false } ∧ OnlyWrites [.mgt] s t) ∧
   (∀ s : State, s.mgt.mon.unlocked = true → s.over s.mgt.mon.lastLine < 65536 → exec .monitorIdleTimeout s = .next s) ∧
   (∀ (s : State) (c : When), s.mgt.mon.lockout = some c → 2 ^ 24 ≤ s.over c → ∃ t, exec .unlockLockoutEnd s = .next t ∧
     t.mgt.mon = { s.mgt.mon with lockout := none, fails := 0 } ∧ OnlyWrites [.mgt] s t) ∧
   (∀ (s : State) (c : When), s.mgt.mon.lockout = some c → s.over c < 2 ^ 24 → exec .unlockLockoutEnd s = .next s))

/-! ### What a command leaves as it was -/

/-- No command changes a part of the state that `writes` does not list for it. -/
def Obligations.CommandsWriteOnly : Prop := ∀ (c : Instr) (s t : State), exec c s = .next t → OnlyWrites (writes c) s t

/-- A command of a lane changes no lane of another port and no other port's PHY or link engine (R83 to R108). -/
def Obligations.LaneCommandsStayInTheirPort : Prop :=
  ∀ (n : Nat) (c : Instr) (s t : State), (c ∈ [Instr.frameLock n, .frameLockLost n, .tapResponse n, .tapResponseTimeout n, .dataStart n, .markerTx n,
      .fecLockLost n, .markerLockLost n, .trainAttemptTimeout n, .signalAbsentTimeout n, .signalReturn n, .laneRestart n] ∨
    (∃ v w, c = .codewordRx n v w) ∨ (∃ m, c = .markerRx n m) ∨ (∃ b, c = .sleepWake n b) ∨ (∃ r a, c = .trainingFrameRx n r a) ∨
    (∃ x k, c = .rxReady n x k) ∨ (∃ k a b d, c = .prbsCheckerLock n k a b d)) → exec c s = .next t →
    (∀ m, m / 2 ≠ n / 2 → t.ln m = s.ln m) ∧ ∀ q, q ≠ n / 2 → t.pp q = s.pp q ∧ t.lk q = s.lk q

/-- These commands of a link change no other port's link engine (R112 to R146). -/
def Obligations.LinkCommandsStayInTheirPort : Prop :=
  ∀ (p : Nat) (c : Instr) (s t : State), (c ∈ [Instr.linkInitStart p, .phyDown p, .phyUp p, .linkReinit p, .brickCrcError p, .reservedBrickRx p,
      .controlBrickTx p, .replayBrickTx p] ∨ (∃ ty q a b, c = .sequencedBrickRx p ty q a b) ∨ (∃ q a r, c = .abortBrickRx p q a r)) →
    exec c s = .next t → ∀ q, q ≠ p → t.lk q = s.lk q

end
end

