-- ==== Sys2Proof/Laws/Access.lean ====
section
/-! SUPPORT. Where the registers lie that have rows of their own, and what a permitted 32-bit write of a register does. -/
namespace Sys2Proof.Machine

/-! ### Locating a register -/

/-- The location holds word `w` of the register `id` with indices `i` and `j`. -/
def isReg (l : Loc) (id : RegId) (i j w : Nat) : Bool :=
  match l with
  | .reg d i' j' w' => d.id == id && i' == i && j' == j && w' == w
  | _ => false

theorem isReg_elim {l : Loc} {id : RegId} {i j w : Nat} (h : isReg l id i j w = true) : ∃ d, l = .reg d i j w ∧ d.id = id := by
  cases l <;> simp_all [isReg]

theorem ctrLow_none {off : Nat}
    (h : ∀ r ∈ ctrRanges, ¬ (r.1 ≤ off ∧ (off - r.1) / r.2.2.1 < r.2.1 ∧ (off - r.1) % r.2.2.1 < 8 * r.2.2.2)) : ctrLow off = none := by
  unfold ctrLow
  rw [if_neg]
  simp only [List.any_eq_true, Bool.and_eq_true, decide_eq_true_eq, not_exists, not_and]
  intro r hr h1
  have := h r hr
  omega

theorem blockOf_hit {off : Nat} {pre post : List BlkDef} {b : BlkDef} (hb : blocks = pre ++ b :: post) (h : ∀ x ∈ pre, x.top < off)
    (h1 : b.base ≤ off) (h2 : off ≤ b.top) : blockOf off = some b := by
  unfold blockOf
  rw [hb, List.find?_append, List.find?_eq_none.2, List.find?_cons_of_pos]
  · rfl
  · simp [h1, h2]
  · intro x hx
    have := h x hx
    simp; omega

theorem locateIn_hit {off : Nat} {pre post : List RegDef} {d : RegDef} {i j w : Nat} (h : ∀ x ∈ pre, x.locate off = none)
    (h1 : d.locate off = some (i, j, w)) : locateIn (pre ++ d :: post) off = some (d, i, j, w) := by
  induction pre with
  | nil => simp [locateIn, h1]
  | cons x t ih =>
    have h0 := h x List.mem_cons_self
    simp only [List.cons_append, locateIn, h0]
    exact ih (fun y hy => h y (List.mem_cons_of_mem _ hy))

theorem locate_none {d : RegDef} {off : Nat}
    (h : off < d.base ∨ ¬ ((off - d.base) / d.s1 < d.n1 ∧ (off - d.base) % d.s1 / d.s2 < d.n2 ∧
      (off - d.base) % d.s1 % d.s2 / 4 < d.words)) : d.locate off = none := by
  unfold RegDef.locate
  rcases h with h | h
  · rw [if_pos h]
  · split
    · rfl
    · simp only []
      rw [if_neg h]

theorem locate_some {d : RegDef} {off i j w : Nat} (h0 : d.base ≤ off) (hi : (off - d.base) / d.s1 = i)
    (hj : (off - d.base) % d.s1 / d.s2 = j) (hw : (off - d.base) % d.s1 % d.s2 / 4 = w) (h : i < d.n1 ∧ j < d.n2 ∧ w < d.words) :
    d.locate off = some (i, j, w) := by
  unfold RegDef.locate
  rw [if_neg (by omega)]
  simp only [hi, hj, hw]
  rw [if_pos h]

/-! ### The registers of the rows -/

theorem locPf_GLB_MODE_REQ : isReg (locPf Reg.GLB_MODE_REQ.off) .GLB_MODE_REQ 0 0 0 = true := by decide
theorem locPf_GLB_RESET_CTRL : isReg (locPf Reg.GLB_RESET_CTRL.off) .GLB_RESET_CTRL 0 0 0 = true := by decide
theorem locPf_GLB_SETUP_LOCK : isReg (locPf Reg.GLB_SETUP_LOCK.off) .GLB_SETUP_LOCK 0 0 0 = true := by decide
theorem locPf_GLB_DEVICE_ID : isReg (locPf Reg.GLB_DEVICE_ID.off) .GLB_DEVICE_ID 0 0 0 = true := by decide
theorem locPf_CRS_ALIGN_CTRL : isReg (locPf Reg.CRS_ALIGN_CTRL.off) .CRS_ALIGN_CTRL 0 0 0 = true := by decide
theorem locPf_CRS_SWAP_CTRL : isReg (locPf Reg.CRS_SWAP_CTRL.off) .CRS_SWAP_CTRL 0 0 0 = true := by decide
theorem locPf_RTE_LIFE : isReg (locPf Reg.RTE_LIFE.off) .RTE_LIFE 0 0 0 = true := by decide
theorem locPf_TRN_CMD : isReg (locPf Reg.TRN_CMD.off) .TRN_CMD 0 0 0 = true := by decide
theorem locPf_COL_CMD : isReg (locPf Reg.COL_CMD.off) .COL_CMD 0 0 0 = true := by decide
theorem locPf_RTE_PORT_ROLE : ∀ p < 64, isReg (locPf (Reg.RTE_PORT_ROLE.off p)) .RTE_PORT_ROLE p 0 0 = true := by decide
theorem locPf_RBK_SEL : ∀ b < 9, isReg (locPf (Reg.RBK_SEL.off b + 4)) .RBK_SEL b 0 1 = true := by decide

theorem locPf_COL_TREE (t w : Nat) (ht : t < 4096) (hw : w < 8) : isReg (locPf (Reg.COL_TREE.off t + 4 * w)) .COL_TREE t 0 w = true := by
  have e : Reg.COL_TREE.off t + 4 * w = 0x710000 + 0x20 * t + 4 * w := rfl
  rw [e]
  have hc : ctrLow (0x710000 + 0x20 * t + 4 * w) = none := by
    apply ctrLow_none
    simp only [ctrRanges, List.forall_mem_cons, List.not_mem_nil, false_implies, implies_true, and_true]
    omega
  have hb : blockOf (0x710000 + 0x20 * t + 4 * w) = some ⟨0x700000, 0x77ffff, 13, 1104, 7, regsCOL⟩ := by
    refine blockOf_hit (pre := blocks.take 12) (post := blocks.drop 13) rfl ?_ (by show 0x700000 ≤ _; omega) (by show _ ≤ 0x77ffff; omega)
    simp only [blocks, List.take, List.forall_mem_cons, List.not_mem_nil, false_implies, implies_true, and_true]
    omega
  have hl : locateIn regsCOL (0x710000 + 0x20 * t + 4 * w) = some (regsCOL.getD 6 regsCOL[0], t, 0, w) := by
    refine locateIn_hit (pre := regsCOL.take 6) (post := regsCOL.drop 7) ?_ ?_
    · simp only [regsCOL, List.take, List.forall_mem_cons, List.not_mem_nil, false_implies, implies_true, and_true]
      refine ⟨?_, ?_, ?_, ?_, ?_, ?_⟩ <;> (apply locate_none; simp only []; omega)
    · refine locate_some (i := t) (j := 0) (w := w) (show 0x710000 ≤ _ by omega) (show (_ - 0x710000) / 0x20 = t by omega)
        (show (_ - 0x710000) % 0x20 / 0x4000000 = 0 by omega) (show (_ - 0x710000) % 0x20 % 0x4000000 / 4 = w by omega)
        (show t < 4096 ∧ 0 < 1 ∧ w < 8 by omega)
  unfold locPf
  rw [hc, hb]
  simp only [Option.isSome_none, Bool.false_eq_true, if_false]
  rw [if_neg (by omega), if_neg (by omega), if_neg (by omega), if_neg (by omega), if_neg (by omega), hl]
  simp [isReg, regsCOL]

theorem locPf_WIN_FN (f j w : Nat) (hf : f < 1024) (hj : j < 8) (hw : w < 4) :
    isReg (locPf (Reg.WIN_FN.off f j + 4 * w)) .WIN_FN f j w = true := by
  have e : Reg.WIN_FN.off f j + 4 * w = 0x440080 + 0x100 * f + 0x10 * j + 4 * w := rfl
  rw [e]
  have hc : ctrLow (0x440080 + 0x100 * f + 0x10 * j + 4 * w) = none := by
    apply ctrLow_none
    simp only [ctrRanges, List.forall_mem_cons, List.not_mem_nil, false_implies, implies_true, and_true]
    omega
  have hb : blockOf (0x440080 + 0x100 * f + 0x10 * j + 4 * w) = some ⟨0x400000, 0x47ffff, 7, 992, 9, regsHIF⟩ := by
    refine blockOf_hit (pre := blocks.take 6) (post := blocks.drop 7) rfl ?_ (by show 0x400000 ≤ _; omega) (by show _ ≤ 0x47ffff; omega)
    simp only [blocks, List.take, List.forall_mem_cons, List.not_mem_nil, false_implies, implies_true, and_true]
    omega
  have hl : locateIn regsHIF (0x440080 + 0x100 * f + 0x10 * j + 4 * w) = some (regsHIF.getD 10 regsHIF[0], f, j, w) := by
    refine locateIn_hit (pre := regsHIF.take 10) (post := regsHIF.drop 11) ?_ ?_
    · simp only [regsHIF, List.take, List.forall_mem_cons, List.not_mem_nil, false_implies, implies_true, and_true]
      refine ⟨?_, ?_, ?_, ?_, ?_, ?_, ?_, ?_, ?_, ?_⟩ <;> (apply locate_none; simp only []; omega)
    · refine locate_some (i := f) (j := j) (w := w) (show 0x440080 ≤ _ by omega) (show (_ - 0x440080) / 0x100 = f by omega)
        (show (_ - 0x440080) % 0x100 / 0x10 = j by omega) (show (_ - 0x440080) % 0x100 % 0x10 / 4 = w by omega)
        (show f < 1024 ∧ j < 8 ∧ w < 4 by omega)
  unfold locPf
  rw [hc, hb]
  simp only [Option.isSome_none, Bool.false_eq_true, if_false]
  rw [if_neg (by omega), if_neg (by omega), if_neg (by omega), if_neg (by omega), if_neg (by omega), hl]
  simp [isReg, regsHIF]

theorem locPf_WIN_PF (f j w : Nat) (hf : f < 4) (hj : j < 64) (hw : w < 4) :
    isReg (locPf (Reg.WIN_PF.off f j + 4 * w)) .WIN_PF f j w = true := by
  have e : Reg.WIN_PF.off f j + 4 * w = 0x790000 + 0x400 * f + 0x10 * j + 4 * w := rfl
  rw [e]
  have hc : ctrLow (0x790000 + 0x400 * f + 0x10 * j + 4 * w) = none := by
    apply ctrLow_none
    simp only [ctrRanges, List.forall_mem_cons, List.not_mem_nil, false_implies, implies_true, and_true]
    omega
  have hb : blockOf (0x790000 + 0x400 * f + 0x10 * j + 4 * w) = some ⟨0x780000, 0x7bffff, 14, 1120, 4, regsBRG⟩ := by
    refine blockOf_hit (pre := blocks.take 13) (post := blocks.drop 14) rfl ?_ (by show 0x780000 ≤ _; omega) (by show _ ≤ 0x7bffff; omega)
    simp only [blocks, List.take, List.forall_mem_cons, List.not_mem_nil, false_implies, implies_true, and_true]
    omega
  have hl : locateIn regsBRG (0x790000 + 0x400 * f + 0x10 * j + 4 * w) = some (regsBRG.getD 2 regsBRG[0], f, j, w) := by
    refine locateIn_hit (pre := regsBRG.take 2) (post := regsBRG.drop 3) ?_ ?_
    · simp only [regsBRG, List.take, List.forall_mem_cons, List.not_mem_nil, false_implies, implies_true, and_true]
      refine ⟨?_, ?_⟩ <;> (apply locate_none; simp only []; omega)
    · refine locate_some (i := f) (j := j) (w := w) (show 0x790000 ≤ _ by omega) (show (_ - 0x790000) / 0x400 = f by omega)
        (show (_ - 0x790000) % 0x400 / 0x10 = j by omega) (show (_ - 0x790000) % 0x400 % 0x10 / 4 = w by omega)
        (show f < 4 ∧ j < 64 ∧ w < 4 by omega)
  unfold locPf
  rw [hc, hb]
  simp only [Option.isSome_none, Bool.false_eq_true, if_false]
  rw [if_neg (by omega), if_neg (by omega), if_neg (by omega), if_neg (by omega), if_neg (by omega), hl]
  simp [isReg, regsBRG]

/-- The location is register `o` of the bank of the block with code `code`. -/
def isBank (l : Loc) (code o : Nat) : Bool :=
  match l with
  | .bank c o' => c == code && o' == o
  | _ => false

theorem isBank_elim {l : Loc} {code o : Nat} (h : isBank l code o = true) : l = .bank code o := by
  cases l <;> simp_all [isBank]

theorem locPf_bankForce (code k : Nat) (hc : code < 18) (h0 : 0 < code) (hk : k < 32) :
    isBank (locPf (bankOff code (0x200 + 4 * k))) code (0x200 + 4 * k) = true :=
  have h : ∀ c < 18, 0 < c → ∀ k < 32, isBank (locPf (bankOff c (0x200 + 4 * k))) c (0x200 + 4 * k) = true := by decide
  h code hc h0 k hk

theorem locPf_bankStatus (code k : Nat) (hc : code < 18) (h0 : 0 < code) (hk : k < 32) :
    isBank (locPf (bankOff code (0x100 + 4 * k))) code (0x100 + 4 * k) = true :=
  have h : ∀ c < 18, 0 < c → ∀ k < 32, isBank (locPf (bankOff c (0x100 + 4 * k))) c (0x100 + 4 * k) = true := by decide
  h code hc h0 k hk

/-! ### A permitted write -/

/-- A 32-bit write by a party that may write any register reaches the register that lies there. -/
theorem State.access_reg {s : State} {req : Requester} {off v : Nat} {d : RegDef} {i j w : Nat} (h : Sys2Proof.mayConfigure s req off)
    (hl : locPf off = .reg d i j w) (h4 : off % 4 = 0) (hw : State.mayWrite req d i = true) (hu : s.absentUnit d i = false) :
    s.access req off v = ((s.lockCheck d w (s.word off) (bits v 0 32)).regWrite req d i j w off (bits v 0 32)).settle := by
  obtain ⟨ha, hp, hf, hs⟩ := h
  have hv : vfOf req = none := by
    cases req <;> simp_all [vfOf, Requester.privileged, isPf]
  have hb : bar0Off req off = off := by simp [bar0Off, hv]
  have hloc : s.loc req off = .reg d i j w := by
    unfold State.loc
    simp [hs, hv, hl]
  unfold State.access State.barWrite State.accessOk
  simp [ha, h4, hf, hb, hloc, State.locWrite, hw, hu]

/-- R253: only the registers of a translation unit can be absent. -/
theorem State.absentUnit_other {s : State} {d : RegDef} {i : Nat} (h : d.id ≠ .XLT_AST_BASE_LO) (h1 : d.id ≠ .XLT_AST_BASE_HI)
    (h2 : d.id ≠ .XLT_AST_CFG) (h3 : d.id ≠ .XLT_RANGE) : s.absentUnit d i = false := by
  unfold State.absentUnit
  split <;> simp_all

/-- The same for a register that every such party may write. -/
theorem State.access_plain {s : State} {req : Requester} {off v : Nat} {d : RegDef} {i j w : Nat} (h : Sys2Proof.mayConfigure s req off)
    (hl : locPf off = .reg d i j w) (h4 : off % 4 = 0) (hw : State.mayWrite req d i = req.privileged)
    (hu : s.absentUnit d i = false) :
    s.access req off v = ((s.lockCheck d w (s.word off) (bits v 0 32)).regWrite req d i j w off (bits v 0 32)).settle :=
  State.access_reg h hl h4 (hw.trans h.2.1) hu

end Sys2Proof.Machine
end

