-- ==== Sys2Proof/Laws/Fec.lean ====
section
/-! SUPPORT. What the decoder of RS(544,514) does on simple words (R81): zeros at the front of a word do not show in its syndromes, the
word of zeros is a codeword, and a word whose locator has a degree above 15 is none. -/
namespace Sys2Proof.Machine

theorem rsMul_zero_left (b : Nat) : rsMul 0 b = 0 := by
  have h : ∀ l : List Nat, l.foldl (fun acc i => if b.testBit i then acc ^^^ (0 <<< i) else acc) 0 = 0 := fun l => by
    induction l with
    | nil => rfl
    | cons i l ih => simpa using ih
  unfold rsMul
  rw [h]
  decide

theorem rsSyndromes_zeros (n : Nat) (c : List Nat) : rsSyndromes (List.replicate n 0 ++ c) = rsSyndromes c := by
  have h : ∀ r, (List.replicate n 0).foldl (fun acc x => rsMul acc r ^^^ x) 0 = 0 := fun r => by
    induction n with
    | zero => rfl
    | succ n ih => simp only [List.replicate_succ, List.foldl_cons, rsMul_zero_left, Nat.xor_zero, ih]
  simp only [rsSyndromes, List.foldl_append, h]

theorem rsDecode_zeros (n : Nat) : rsDecode (List.replicate n 0) = some (0, List.replicate n 0) := by
  have h := rsSyndromes_zeros n []
  rw [List.append_nil] at h
  unfold rsDecode
  rw [h, if_pos]
  simp [rsSyndromes]

theorem rsDecode_none {c : List Nat} (h : (rsSyndromes c).all (fun x => x == 0) = false) (hd : 15 < (rsLocator (rsSyndromes c)).2) :
    rsDecode c = none := by
  unfold rsDecode
  simp only [h, Bool.false_eq_true, if_false]
  rw [if_neg]
  intro k
  exact absurd hd (Nat.not_lt.mpr k.1)

end Sys2Proof.Machine
end

