-- ==== Sys2Proof/Laws/State.lean ====
section
/-! SUPPORT. What each update of State leaves of each of its fields: one lemma for each field and update, so that no proof
unfolds a record update. -/
namespace Sys2Proof.Machine

/-! A new `crs` -/
@[simp] theorem State.with_crs_mode (s : State) (x) : ({ s with crs := x } : State).mode = s.mode := rfl
@[simp] theorem State.with_crs_glb (s : State) (x) : ({ s with crs := x } : State).glb = s.glb := rfl
@[simp] theorem State.with_crs_crs (s : State) (x) : ({ s with crs := x } : State).crs = x := rfl
@[simp] theorem State.with_crs_regs (s : State) (x) : ({ s with crs := x } : State).regs = s.regs := rfl
@[simp] theorem State.with_crs_sets (s : State) (x) : ({ s with crs := x } : State).sets = s.sets := rfl
@[simp] theorem State.with_crs_ctrs (s : State) (x) : ({ s with crs := x } : State).ctrs = s.ctrs := rfl
@[simp] theorem State.with_crs_latches (s : State) (x) : ({ s with crs := x } : State).latches = s.latches := rfl
@[simp] theorem State.with_crs_srcs (s : State) (x) : ({ s with crs := x } : State).srcs = s.srcs := rfl
@[simp] theorem State.with_crs_banks (s : State) (x) : ({ s with crs := x } : State).banks = s.banks := rfl
@[simp] theorem State.with_crs_phy (s : State) (x) : ({ s with crs := x } : State).phy = s.phy := rfl
@[simp] theorem State.with_crs_lnk (s : State) (x) : ({ s with crs := x } : State).lnk = s.lnk := rfl
@[simp] theorem State.with_crs_rte (s : State) (x) : ({ s with crs := x } : State).rte = s.rte := rfl
@[simp] theorem State.with_crs_sch (s : State) (x) : ({ s with crs := x } : State).sch = s.sch := rfl
@[simp] theorem State.with_crs_hif (s : State) (x) : ({ s with crs := x } : State).hif = s.hif := rfl
@[simp] theorem State.with_crs_trn (s : State) (x) : ({ s with crs := x } : State).trn = s.trn := rfl
@[simp] theorem State.with_crs_mch (s : State) (x) : ({ s with crs := x } : State).mch = s.mch := rfl
@[simp] theorem State.with_crs_rma (s : State) (x) : ({ s with crs := x } : State).rma = s.rma := rfl
@[simp] theorem State.with_crs_lck (s : State) (x) : ({ s with crs := x } : State).lck = s.lck := rfl
@[simp] theorem State.with_crs_brg (s : State) (x) : ({ s with crs := x } : State).brg = s.brg := rfl
@[simp] theorem State.with_crs_col (s : State) (x) : ({ s with crs := x } : State).col = s.col := rfl
@[simp] theorem State.with_crs_ltl (s : State) (x) : ({ s with crs := x } : State).ltl = s.ltl := rfl
@[simp] theorem State.with_crs_bst (s : State) (x) : ({ s with crs := x } : State).bst = s.bst := rfl
@[simp] theorem State.with_crs_mgt (s : State) (x) : ({ s with crs := x } : State).mgt = s.mgt := rfl
@[simp] theorem State.with_crs_xlt (s : State) (x) : ({ s with crs := x } : State).xlt = s.xlt := rfl
@[simp] theorem State.with_crs_out (s : State) (x) : ({ s with crs := x } : State).out = s.out := rfl
@[simp] theorem State.with_crs_free (s : State) (x) : ({ s with crs := x } : State).free = s.free := rfl
@[simp] theorem State.with_crs_pending (s : State) (x) : ({ s with crs := x } : State).pending = s.pending := rfl

/-! A new `regs` -/
@[simp] theorem State.with_regs_mode (s : State) (x) : ({ s with regs := x } : State).mode = s.mode := rfl
@[simp] theorem State.with_regs_glb (s : State) (x) : ({ s with regs := x } : State).glb = s.glb := rfl
@[simp] theorem State.with_regs_crs (s : State) (x) : ({ s with regs := x } : State).crs = s.crs := rfl
@[simp] theorem State.with_regs_regs (s : State) (x) : ({ s with regs := x } : State).regs = x := rfl
@[simp] theorem State.with_regs_sets (s : State) (x) : ({ s with regs := x } : State).sets = s.sets := rfl
@[simp] theorem State.with_regs_ctrs (s : State) (x) : ({ s with regs := x } : State).ctrs = s.ctrs := rfl
@[simp] theorem State.with_regs_latches (s : State) (x) : ({ s with regs := x } : State).latches = s.latches := rfl
@[simp] theorem State.with_regs_srcs (s : State) (x) : ({ s with regs := x } : State).srcs = s.srcs := rfl
@[simp] theorem State.with_regs_banks (s : State) (x) : ({ s with regs := x } : State).banks = s.banks := rfl
@[simp] theorem State.with_regs_phy (s : State) (x) : ({ s with regs := x } : State).phy = s.phy := rfl
@[simp] theorem State.with_regs_lnk (s : State) (x) : ({ s with regs := x } : State).lnk = s.lnk := rfl
@[simp] theorem State.with_regs_rte (s : State) (x) : ({ s with regs := x } : State).rte = s.rte := rfl
@[simp] theorem State.with_regs_sch (s : State) (x) : ({ s with regs := x } : State).sch = s.sch := rfl
@[simp] theorem State.with_regs_hif (s : State) (x) : ({ s with regs := x } : State).hif = s.hif := rfl
@[simp] theorem State.with_regs_trn (s : State) (x) : ({ s with regs := x } : State).trn = s.trn := rfl
@[simp] theorem State.with_regs_mch (s : State) (x) : ({ s with regs := x } : State).mch = s.mch := rfl
@[simp] theorem State.with_regs_rma (s : State) (x) : ({ s with regs := x } : State).rma = s.rma := rfl
@[simp] theorem State.with_regs_lck (s : State) (x) : ({ s with regs := x } : State).lck = s.lck := rfl
@[simp] theorem State.with_regs_brg (s : State) (x) : ({ s with regs := x } : State).brg = s.brg := rfl
@[simp] theorem State.with_regs_col (s : State) (x) : ({ s with regs := x } : State).col = s.col := rfl
@[simp] theorem State.with_regs_ltl (s : State) (x) : ({ s with regs := x } : State).ltl = s.ltl := rfl
@[simp] theorem State.with_regs_bst (s : State) (x) : ({ s with regs := x } : State).bst = s.bst := rfl
@[simp] theorem State.with_regs_mgt (s : State) (x) : ({ s with regs := x } : State).mgt = s.mgt := rfl
@[simp] theorem State.with_regs_xlt (s : State) (x) : ({ s with regs := x } : State).xlt = s.xlt := rfl
@[simp] theorem State.with_regs_out (s : State) (x) : ({ s with regs := x } : State).out = s.out := rfl
@[simp] theorem State.with_regs_free (s : State) (x) : ({ s with regs := x } : State).free = s.free := rfl
@[simp] theorem State.with_regs_pending (s : State) (x) : ({ s with regs := x } : State).pending = s.pending := rfl

/-! A new `sets` -/
@[simp] theorem State.with_sets_mode (s : State) (x) : ({ s with sets := x } : State).mode = s.mode := rfl
@[simp] theorem State.with_sets_glb (s : State) (x) : ({ s with sets := x } : State).glb = s.glb := rfl
@[simp] theorem State.with_sets_crs (s : State) (x) : ({ s with sets := x } : State).crs = s.crs := rfl
@[simp] theorem State.with_sets_regs (s : State) (x) : ({ s with sets := x } : State).regs = s.regs := rfl
@[simp] theorem State.with_sets_sets (s : State) (x) : ({ s with sets := x } : State).sets = x := rfl
@[simp] theorem State.with_sets_ctrs (s : State) (x) : ({ s with sets := x } : State).ctrs = s.ctrs := rfl
@[simp] theorem State.with_sets_latches (s : State) (x) : ({ s with sets := x } : State).latches = s.latches := rfl
@[simp] theorem State.with_sets_srcs (s : State) (x) : ({ s with sets := x } : State).srcs = s.srcs := rfl
@[simp] theorem State.with_sets_banks (s : State) (x) : ({ s with sets := x } : State).banks = s.banks := rfl
@[simp] theorem State.with_sets_phy (s : State) (x) : ({ s with sets := x } : State).phy = s.phy := rfl
@[simp] theorem State.with_sets_lnk (s : State) (x) : ({ s with sets := x } : State).lnk = s.lnk := rfl
@[simp] theorem State.with_sets_rte (s : State) (x) : ({ s with sets := x } : State).rte = s.rte := rfl
@[simp] theorem State.with_sets_sch (s : State) (x) : ({ s with sets := x } : State).sch = s.sch := rfl
@[simp] theorem State.with_sets_hif (s : State) (x) : ({ s with sets := x } : State).hif = s.hif := rfl
@[simp] theorem State.with_sets_trn (s : State) (x) : ({ s with sets := x } : State).trn = s.trn := rfl
@[simp] theorem State.with_sets_mch (s : State) (x) : ({ s with sets := x } : State).mch = s.mch := rfl
@[simp] theorem State.with_sets_rma (s : State) (x) : ({ s with sets := x } : State).rma = s.rma := rfl
@[simp] theorem State.with_sets_lck (s : State) (x) : ({ s with sets := x } : State).lck = s.lck := rfl
@[simp] theorem State.with_sets_brg (s : State) (x) : ({ s with sets := x } : State).brg = s.brg := rfl
@[simp] theorem State.with_sets_col (s : State) (x) : ({ s with sets := x } : State).col = s.col := rfl
@[simp] theorem State.with_sets_ltl (s : State) (x) : ({ s with sets := x } : State).ltl = s.ltl := rfl
@[simp] theorem State.with_sets_bst (s : State) (x) : ({ s with sets := x } : State).bst = s.bst := rfl
@[simp] theorem State.with_sets_mgt (s : State) (x) : ({ s with sets := x } : State).mgt = s.mgt := rfl
@[simp] theorem State.with_sets_xlt (s : State) (x) : ({ s with sets := x } : State).xlt = s.xlt := rfl
@[simp] theorem State.with_sets_out (s : State) (x) : ({ s with sets := x } : State).out = s.out := rfl
@[simp] theorem State.with_sets_free (s : State) (x) : ({ s with sets := x } : State).free = s.free := rfl
@[simp] theorem State.with_sets_pending (s : State) (x) : ({ s with sets := x } : State).pending = s.pending := rfl

/-! A new `ctrs` -/
@[simp] theorem State.with_ctrs_mode (s : State) (x) : ({ s with ctrs := x } : State).mode = s.mode := rfl
@[simp] theorem State.with_ctrs_glb (s : State) (x) : ({ s with ctrs := x } : State).glb = s.glb := rfl
@[simp] theorem State.with_ctrs_crs (s : State) (x) : ({ s with ctrs := x } : State).crs = s.crs := rfl
@[simp] theorem State.with_ctrs_regs (s : State) (x) : ({ s with ctrs := x } : State).regs = s.regs := rfl
@[simp] theorem State.with_ctrs_sets (s : State) (x) : ({ s with ctrs := x } : State).sets = s.sets := rfl
@[simp] theorem State.with_ctrs_ctrs (s : State) (x) : ({ s with ctrs := x } : State).ctrs = x := rfl
@[simp] theorem State.with_ctrs_latches (s : State) (x) : ({ s with ctrs := x } : State).latches = s.latches := rfl
@[simp] theorem State.with_ctrs_srcs (s : State) (x) : ({ s with ctrs := x } : State).srcs = s.srcs := rfl
@[simp] theorem State.with_ctrs_banks (s : State) (x) : ({ s with ctrs := x } : State).banks = s.banks := rfl
@[simp] theorem State.with_ctrs_phy (s : State) (x) : ({ s with ctrs := x } : State).phy = s.phy := rfl
@[simp] theorem State.with_ctrs_lnk (s : State) (x) : ({ s with ctrs := x } : State).lnk = s.lnk := rfl
@[simp] theorem State.with_ctrs_rte (s : State) (x) : ({ s with ctrs := x } : State).rte = s.rte := rfl
@[simp] theorem State.with_ctrs_sch (s : State) (x) : ({ s with ctrs := x } : State).sch = s.sch := rfl
@[simp] theorem State.with_ctrs_hif (s : State) (x) : ({ s with ctrs := x } : State).hif = s.hif := rfl
@[simp] theorem State.with_ctrs_trn (s : State) (x) : ({ s with ctrs := x } : State).trn = s.trn := rfl
@[simp] theorem State.with_ctrs_mch (s : State) (x) : ({ s with ctrs := x } : State).mch = s.mch := rfl
@[simp] theorem State.with_ctrs_rma (s : State) (x) : ({ s with ctrs := x } : State).rma = s.rma := rfl
@[simp] theorem State.with_ctrs_lck (s : State) (x) : ({ s with ctrs := x } : State).lck = s.lck := rfl
@[simp] theorem State.with_ctrs_brg (s : State) (x) : ({ s with ctrs := x } : State).brg = s.brg := rfl
@[simp] theorem State.with_ctrs_col (s : State) (x) : ({ s with ctrs := x } : State).col = s.col := rfl
@[simp] theorem State.with_ctrs_ltl (s : State) (x) : ({ s with ctrs := x } : State).ltl = s.ltl := rfl
@[simp] theorem State.with_ctrs_bst (s : State) (x) : ({ s with ctrs := x } : State).bst = s.bst := rfl
@[simp] theorem State.with_ctrs_mgt (s : State) (x) : ({ s with ctrs := x } : State).mgt = s.mgt := rfl
@[simp] theorem State.with_ctrs_xlt (s : State) (x) : ({ s with ctrs := x } : State).xlt = s.xlt := rfl
@[simp] theorem State.with_ctrs_out (s : State) (x) : ({ s with ctrs := x } : State).out = s.out := rfl
@[simp] theorem State.with_ctrs_free (s : State) (x) : ({ s with ctrs := x } : State).free = s.free := rfl
@[simp] theorem State.with_ctrs_pending (s : State) (x) : ({ s with ctrs := x } : State).pending = s.pending := rfl

/-! A new `srcs` -/
@[simp] theorem State.with_srcs_mode (s : State) (x) : ({ s with srcs := x } : State).mode = s.mode := rfl
@[simp] theorem State.with_srcs_glb (s : State) (x) : ({ s with srcs := x } : State).glb = s.glb := rfl
@[simp] theorem State.with_srcs_crs (s : State) (x) : ({ s with srcs := x } : State).crs = s.crs := rfl
@[simp] theorem State.with_srcs_regs (s : State) (x) : ({ s with srcs := x } : State).regs = s.regs := rfl
@[simp] theorem State.with_srcs_sets (s : State) (x) : ({ s with srcs := x } : State).sets = s.sets := rfl
@[simp] theorem State.with_srcs_ctrs (s : State) (x) : ({ s with srcs := x } : State).ctrs = s.ctrs := rfl
@[simp] theorem State.with_srcs_latches (s : State) (x) : ({ s with srcs := x } : State).latches = s.latches := rfl
@[simp] theorem State.with_srcs_srcs (s : State) (x) : ({ s with srcs := x } : State).srcs = x := rfl
@[simp] theorem State.with_srcs_banks (s : State) (x) : ({ s with srcs := x } : State).banks = s.banks := rfl
@[simp] theorem State.with_srcs_phy (s : State) (x) : ({ s with srcs := x } : State).phy = s.phy := rfl
@[simp] theorem State.with_srcs_lnk (s : State) (x) : ({ s with srcs := x } : State).lnk = s.lnk := rfl
@[simp] theorem State.with_srcs_rte (s : State) (x) : ({ s with srcs := x } : State).rte = s.rte := rfl
@[simp] theorem State.with_srcs_sch (s : State) (x) : ({ s with srcs := x } : State).sch = s.sch := rfl
@[simp] theorem State.with_srcs_hif (s : State) (x) : ({ s with srcs := x } : State).hif = s.hif := rfl
@[simp] theorem State.with_srcs_trn (s : State) (x) : ({ s with srcs := x } : State).trn = s.trn := rfl
@[simp] theorem State.with_srcs_mch (s : State) (x) : ({ s with srcs := x } : State).mch = s.mch := rfl
@[simp] theorem State.with_srcs_rma (s : State) (x) : ({ s with srcs := x } : State).rma = s.rma := rfl
@[simp] theorem State.with_srcs_lck (s : State) (x) : ({ s with srcs := x } : State).lck = s.lck := rfl
@[simp] theorem State.with_srcs_brg (s : State) (x) : ({ s with srcs := x } : State).brg = s.brg := rfl
@[simp] theorem State.with_srcs_col (s : State) (x) : ({ s with srcs := x } : State).col = s.col := rfl
@[simp] theorem State.with_srcs_ltl (s : State) (x) : ({ s with srcs := x } : State).ltl = s.ltl := rfl
@[simp] theorem State.with_srcs_bst (s : State) (x) : ({ s with srcs := x } : State).bst = s.bst := rfl
@[simp] theorem State.with_srcs_mgt (s : State) (x) : ({ s with srcs := x } : State).mgt = s.mgt := rfl
@[simp] theorem State.with_srcs_xlt (s : State) (x) : ({ s with srcs := x } : State).xlt = s.xlt := rfl
@[simp] theorem State.with_srcs_out (s : State) (x) : ({ s with srcs := x } : State).out = s.out := rfl
@[simp] theorem State.with_srcs_free (s : State) (x) : ({ s with srcs := x } : State).free = s.free := rfl
@[simp] theorem State.with_srcs_pending (s : State) (x) : ({ s with srcs := x } : State).pending = s.pending := rfl

/-! A new `banks` -/
@[simp] theorem State.with_banks_mode (s : State) (x) : ({ s with banks := x } : State).mode = s.mode := rfl
@[simp] theorem State.with_banks_glb (s : State) (x) : ({ s with banks := x } : State).glb = s.glb := rfl
@[simp] theorem State.with_banks_crs (s : State) (x) : ({ s with banks := x } : State).crs = s.crs := rfl
@[simp] theorem State.with_banks_regs (s : State) (x) : ({ s with banks := x } : State).regs = s.regs := rfl
@[simp] theorem State.with_banks_sets (s : State) (x) : ({ s with banks := x } : State).sets = s.sets := rfl
@[simp] theorem State.with_banks_ctrs (s : State) (x) : ({ s with banks := x } : State).ctrs = s.ctrs := rfl
@[simp] theorem State.with_banks_latches (s : State) (x) : ({ s with banks := x } : State).latches = s.latches := rfl
@[simp] theorem State.with_banks_srcs (s : State) (x) : ({ s with banks := x } : State).srcs = s.srcs := rfl
@[simp] theorem State.with_banks_banks (s : State) (x) : ({ s with banks := x } : State).banks = x := rfl
@[simp] theorem State.with_banks_phy (s : State) (x) : ({ s with banks := x } : State).phy = s.phy := rfl
@[simp] theorem State.with_banks_lnk (s : State) (x) : ({ s with banks := x } : State).lnk = s.lnk := rfl
@[simp] theorem State.with_banks_rte (s : State) (x) : ({ s with banks := x } : State).rte = s.rte := rfl
@[simp] theorem State.with_banks_sch (s : State) (x) : ({ s with banks := x } : State).sch = s.sch := rfl
@[simp] theorem State.with_banks_hif (s : State) (x) : ({ s with banks := x } : State).hif = s.hif := rfl
@[simp] theorem State.with_banks_trn (s : State) (x) : ({ s with banks := x } : State).trn = s.trn := rfl
@[simp] theorem State.with_banks_mch (s : State) (x) : ({ s with banks := x } : State).mch = s.mch := rfl
@[simp] theorem State.with_banks_rma (s : State) (x) : ({ s with banks := x } : State).rma = s.rma := rfl
@[simp] theorem State.with_banks_lck (s : State) (x) : ({ s with banks := x } : State).lck = s.lck := rfl
@[simp] theorem State.with_banks_brg (s : State) (x) : ({ s with banks := x } : State).brg = s.brg := rfl
@[simp] theorem State.with_banks_col (s : State) (x) : ({ s with banks := x } : State).col = s.col := rfl
@[simp] theorem State.with_banks_ltl (s : State) (x) : ({ s with banks := x } : State).ltl = s.ltl := rfl
@[simp] theorem State.with_banks_bst (s : State) (x) : ({ s with banks := x } : State).bst = s.bst := rfl
@[simp] theorem State.with_banks_mgt (s : State) (x) : ({ s with banks := x } : State).mgt = s.mgt := rfl
@[simp] theorem State.with_banks_xlt (s : State) (x) : ({ s with banks := x } : State).xlt = s.xlt := rfl
@[simp] theorem State.with_banks_out (s : State) (x) : ({ s with banks := x } : State).out = s.out := rfl
@[simp] theorem State.with_banks_free (s : State) (x) : ({ s with banks := x } : State).free = s.free := rfl
@[simp] theorem State.with_banks_pending (s : State) (x) : ({ s with banks := x } : State).pending = s.pending := rfl

/-! A new `phy` -/
@[simp] theorem State.with_phy_mode (s : State) (x) : ({ s with phy := x } : State).mode = s.mode := rfl
@[simp] theorem State.with_phy_glb (s : State) (x) : ({ s with phy := x } : State).glb = s.glb := rfl
@[simp] theorem State.with_phy_crs (s : State) (x) : ({ s with phy := x } : State).crs = s.crs := rfl
@[simp] theorem State.with_phy_regs (s : State) (x) : ({ s with phy := x } : State).regs = s.regs := rfl
@[simp] theorem State.with_phy_sets (s : State) (x) : ({ s with phy := x } : State).sets = s.sets := rfl
@[simp] theorem State.with_phy_ctrs (s : State) (x) : ({ s with phy := x } : State).ctrs = s.ctrs := rfl
@[simp] theorem State.with_phy_latches (s : State) (x) : ({ s with phy := x } : State).latches = s.latches := rfl
@[simp] theorem State.with_phy_srcs (s : State) (x) : ({ s with phy := x } : State).srcs = s.srcs := rfl
@[simp] theorem State.with_phy_banks (s : State) (x) : ({ s with phy := x } : State).banks = s.banks := rfl
@[simp] theorem State.with_phy_phy (s : State) (x) : ({ s with phy := x } : State).phy = x := rfl
@[simp] theorem State.with_phy_lnk (s : State) (x) : ({ s with phy := x } : State).lnk = s.lnk := rfl
@[simp] theorem State.with_phy_rte (s : State) (x) : ({ s with phy := x } : State).rte = s.rte := rfl
@[simp] theorem State.with_phy_sch (s : State) (x) : ({ s with phy := x } : State).sch = s.sch := rfl
@[simp] theorem State.with_phy_hif (s : State) (x) : ({ s with phy := x } : State).hif = s.hif := rfl
@[simp] theorem State.with_phy_trn (s : State) (x) : ({ s with phy := x } : State).trn = s.trn := rfl
@[simp] theorem State.with_phy_mch (s : State) (x) : ({ s with phy := x } : State).mch = s.mch := rfl
@[simp] theorem State.with_phy_rma (s : State) (x) : ({ s with phy := x } : State).rma = s.rma := rfl
@[simp] theorem State.with_phy_lck (s : State) (x) : ({ s with phy := x } : State).lck = s.lck := rfl
@[simp] theorem State.with_phy_brg (s : State) (x) : ({ s with phy := x } : State).brg = s.brg := rfl
@[simp] theorem State.with_phy_col (s : State) (x) : ({ s with phy := x } : State).col = s.col := rfl
@[simp] theorem State.with_phy_ltl (s : State) (x) : ({ s with phy := x } : State).ltl = s.ltl := rfl
@[simp] theorem State.with_phy_bst (s : State) (x) : ({ s with phy := x } : State).bst = s.bst := rfl
@[simp] theorem State.with_phy_mgt (s : State) (x) : ({ s with phy := x } : State).mgt = s.mgt := rfl
@[simp] theorem State.with_phy_xlt (s : State) (x) : ({ s with phy := x } : State).xlt = s.xlt := rfl
@[simp] theorem State.with_phy_out (s : State) (x) : ({ s with phy := x } : State).out = s.out := rfl
@[simp] theorem State.with_phy_free (s : State) (x) : ({ s with phy := x } : State).free = s.free := rfl
@[simp] theorem State.with_phy_pending (s : State) (x) : ({ s with phy := x } : State).pending = s.pending := rfl

/-! A new `lnk` -/
@[simp] theorem State.with_lnk_mode (s : State) (x) : ({ s with lnk := x } : State).mode = s.mode := rfl
@[simp] theorem State.with_lnk_glb (s : State) (x) : ({ s with lnk := x } : State).glb = s.glb := rfl
@[simp] theorem State.with_lnk_crs (s : State) (x) : ({ s with lnk := x } : State).crs = s.crs := rfl
@[simp] theorem State.with_lnk_regs (s : State) (x) : ({ s with lnk := x } : State).regs = s.regs := rfl
@[simp] theorem State.with_lnk_sets (s : State) (x) : ({ s with lnk := x } : State).sets = s.sets := rfl
@[simp] theorem State.with_lnk_ctrs (s : State) (x) : ({ s with lnk := x } : State).ctrs = s.ctrs := rfl
@[simp] theorem State.with_lnk_latches (s : State) (x) : ({ s with lnk := x } : State).latches = s.latches := rfl
@[simp] theorem State.with_lnk_srcs (s : State) (x) : ({ s with lnk := x } : State).srcs = s.srcs := rfl
@[simp] theorem State.with_lnk_banks (s : State) (x) : ({ s with lnk := x } : State).banks = s.banks := rfl
@[simp] theorem State.with_lnk_phy (s : State) (x) : ({ s with lnk := x } : State).phy = s.phy := rfl
@[simp] theorem State.with_lnk_lnk (s : State) (x) : ({ s with lnk := x } : State).lnk = x := rfl
@[simp] theorem State.with_lnk_rte (s : State) (x) : ({ s with lnk := x } : State).rte = s.rte := rfl
@[simp] theorem State.with_lnk_sch (s : State) (x) : ({ s with lnk := x } : State).sch = s.sch := rfl
@[simp] theorem State.with_lnk_hif (s : State) (x) : ({ s with lnk := x } : State).hif = s.hif := rfl
@[simp] theorem State.with_lnk_trn (s : State) (x) : ({ s with lnk := x } : State).trn = s.trn := rfl
@[simp] theorem State.with_lnk_mch (s : State) (x) : ({ s with lnk := x } : State).mch = s.mch := rfl
@[simp] theorem State.with_lnk_rma (s : State) (x) : ({ s with lnk := x } : State).rma = s.rma := rfl
@[simp] theorem State.with_lnk_lck (s : State) (x) : ({ s with lnk := x } : State).lck = s.lck := rfl
@[simp] theorem State.with_lnk_brg (s : State) (x) : ({ s with lnk := x } : State).brg = s.brg := rfl
@[simp] theorem State.with_lnk_col (s : State) (x) : ({ s with lnk := x } : State).col = s.col := rfl
@[simp] theorem State.with_lnk_ltl (s : State) (x) : ({ s with lnk := x } : State).ltl = s.ltl := rfl
@[simp] theorem State.with_lnk_bst (s : State) (x) : ({ s with lnk := x } : State).bst = s.bst := rfl
@[simp] theorem State.with_lnk_mgt (s : State) (x) : ({ s with lnk := x } : State).mgt = s.mgt := rfl
@[simp] theorem State.with_lnk_xlt (s : State) (x) : ({ s with lnk := x } : State).xlt = s.xlt := rfl
@[simp] theorem State.with_lnk_out (s : State) (x) : ({ s with lnk := x } : State).out = s.out := rfl
@[simp] theorem State.with_lnk_free (s : State) (x) : ({ s with lnk := x } : State).free = s.free := rfl
@[simp] theorem State.with_lnk_pending (s : State) (x) : ({ s with lnk := x } : State).pending = s.pending := rfl

/-! A new `rte` -/
@[simp] theorem State.with_rte_mode (s : State) (x) : ({ s with rte := x } : State).mode = s.mode := rfl
@[simp] theorem State.with_rte_glb (s : State) (x) : ({ s with rte := x } : State).glb = s.glb := rfl
@[simp] theorem State.with_rte_crs (s : State) (x) : ({ s with rte := x } : State).crs = s.crs := rfl
@[simp] theorem State.with_rte_regs (s : State) (x) : ({ s with rte := x } : State).regs = s.regs := rfl
@[simp] theorem State.with_rte_sets (s : State) (x) : ({ s with rte := x } : State).sets = s.sets := rfl
@[simp] theorem State.with_rte_ctrs (s : State) (x) : ({ s with rte := x } : State).ctrs = s.ctrs := rfl
@[simp] theorem State.with_rte_latches (s : State) (x) : ({ s with rte := x } : State).latches = s.latches := rfl
@[simp] theorem State.with_rte_srcs (s : State) (x) : ({ s with rte := x } : State).srcs = s.srcs := rfl
@[simp] theorem State.with_rte_banks (s : State) (x) : ({ s with rte := x } : State).banks = s.banks := rfl
@[simp] theorem State.with_rte_phy (s : State) (x) : ({ s with rte := x } : State).phy = s.phy := rfl
@[simp] theorem State.with_rte_lnk (s : State) (x) : ({ s with rte := x } : State).lnk = s.lnk := rfl
@[simp] theorem State.with_rte_rte (s : State) (x) : ({ s with rte := x } : State).rte = x := rfl
@[simp] theorem State.with_rte_sch (s : State) (x) : ({ s with rte := x } : State).sch = s.sch := rfl
@[simp] theorem State.with_rte_hif (s : State) (x) : ({ s with rte := x } : State).hif = s.hif := rfl
@[simp] theorem State.with_rte_trn (s : State) (x) : ({ s with rte := x } : State).trn = s.trn := rfl
@[simp] theorem State.with_rte_mch (s : State) (x) : ({ s with rte := x } : State).mch = s.mch := rfl
@[simp] theorem State.with_rte_rma (s : State) (x) : ({ s with rte := x } : State).rma = s.rma := rfl
@[simp] theorem State.with_rte_lck (s : State) (x) : ({ s with rte := x } : State).lck = s.lck := rfl
@[simp] theorem State.with_rte_brg (s : State) (x) : ({ s with rte := x } : State).brg = s.brg := rfl
@[simp] theorem State.with_rte_col (s : State) (x) : ({ s with rte := x } : State).col = s.col := rfl
@[simp] theorem State.with_rte_ltl (s : State) (x) : ({ s with rte := x } : State).ltl = s.ltl := rfl
@[simp] theorem State.with_rte_bst (s : State) (x) : ({ s with rte := x } : State).bst = s.bst := rfl
@[simp] theorem State.with_rte_mgt (s : State) (x) : ({ s with rte := x } : State).mgt = s.mgt := rfl
@[simp] theorem State.with_rte_xlt (s : State) (x) : ({ s with rte := x } : State).xlt = s.xlt := rfl
@[simp] theorem State.with_rte_out (s : State) (x) : ({ s with rte := x } : State).out = s.out := rfl
@[simp] theorem State.with_rte_free (s : State) (x) : ({ s with rte := x } : State).free = s.free := rfl
@[simp] theorem State.with_rte_pending (s : State) (x) : ({ s with rte := x } : State).pending = s.pending := rfl

/-! A new `sch` -/
@[simp] theorem State.with_sch_mode (s : State) (x) : ({ s with sch := x } : State).mode = s.mode := rfl
@[simp] theorem State.with_sch_glb (s : State) (x) : ({ s with sch := x } : State).glb = s.glb := rfl
@[simp] theorem State.with_sch_crs (s : State) (x) : ({ s with sch := x } : State).crs = s.crs := rfl
@[simp] theorem State.with_sch_regs (s : State) (x) : ({ s with sch := x } : State).regs = s.regs := rfl
@[simp] theorem State.with_sch_sets (s : State) (x) : ({ s with sch := x } : State).sets = s.sets := rfl
@[simp] theorem State.with_sch_ctrs (s : State) (x) : ({ s with sch := x } : State).ctrs = s.ctrs := rfl
@[simp] theorem State.with_sch_latches (s : State) (x) : ({ s with sch := x } : State).latches = s.latches := rfl
@[simp] theorem State.with_sch_srcs (s : State) (x) : ({ s with sch := x } : State).srcs = s.srcs := rfl
@[simp] theorem State.with_sch_banks (s : State) (x) : ({ s with sch := x } : State).banks = s.banks := rfl
@[simp] theorem State.with_sch_phy (s : State) (x) : ({ s with sch := x } : State).phy = s.phy := rfl
@[simp] theorem State.with_sch_lnk (s : State) (x) : ({ s with sch := x } : State).lnk = s.lnk := rfl
@[simp] theorem State.with_sch_rte (s : State) (x) : ({ s with sch := x } : State).rte = s.rte := rfl
@[simp] theorem State.with_sch_sch (s : State) (x) : ({ s with sch := x } : State).sch = x := rfl
@[simp] theorem State.with_sch_hif (s : State) (x) : ({ s with sch := x } : State).hif = s.hif := rfl
@[simp] theorem State.with_sch_trn (s : State) (x) : ({ s with sch := x } : State).trn = s.trn := rfl
@[simp] theorem State.with_sch_mch (s : State) (x) : ({ s with sch := x } : State).mch = s.mch := rfl
@[simp] theorem State.with_sch_rma (s : State) (x) : ({ s with sch := x } : State).rma = s.rma := rfl
@[simp] theorem State.with_sch_lck (s : State) (x) : ({ s with sch := x } : State).lck = s.lck := rfl
@[simp] theorem State.with_sch_brg (s : State) (x) : ({ s with sch := x } : State).brg = s.brg := rfl
@[simp] theorem State.with_sch_col (s : State) (x) : ({ s with sch := x } : State).col = s.col := rfl
@[simp] theorem State.with_sch_ltl (s : State) (x) : ({ s with sch := x } : State).ltl = s.ltl := rfl
@[simp] theorem State.with_sch_bst (s : State) (x) : ({ s with sch := x } : State).bst = s.bst := rfl
@[simp] theorem State.with_sch_mgt (s : State) (x) : ({ s with sch := x } : State).mgt = s.mgt := rfl
@[simp] theorem State.with_sch_xlt (s : State) (x) : ({ s with sch := x } : State).xlt = s.xlt := rfl
@[simp] theorem State.with_sch_out (s : State) (x) : ({ s with sch := x } : State).out = s.out := rfl
@[simp] theorem State.with_sch_free (s : State) (x) : ({ s with sch := x } : State).free = s.free := rfl
@[simp] theorem State.with_sch_pending (s : State) (x) : ({ s with sch := x } : State).pending = s.pending := rfl

/-! A new `hif` -/
@[simp] theorem State.with_hif_mode (s : State) (x) : ({ s with hif := x } : State).mode = s.mode := rfl
@[simp] theorem State.with_hif_glb (s : State) (x) : ({ s with hif := x } : State).glb = s.glb := rfl
@[simp] theorem State.with_hif_crs (s : State) (x) : ({ s with hif := x } : State).crs = s.crs := rfl
@[simp] theorem State.with_hif_regs (s : State) (x) : ({ s with hif := x } : State).regs = s.regs := rfl
@[simp] theorem State.with_hif_sets (s : State) (x) : ({ s with hif := x } : State).sets = s.sets := rfl
@[simp] theorem State.with_hif_ctrs (s : State) (x) : ({ s with hif := x } : State).ctrs = s.ctrs := rfl
@[simp] theorem State.with_hif_latches (s : State) (x) : ({ s with hif := x } : State).latches = s.latches := rfl
@[simp] theorem State.with_hif_srcs (s : State) (x) : ({ s with hif := x } : State).srcs = s.srcs := rfl
@[simp] theorem State.with_hif_banks (s : State) (x) : ({ s with hif := x } : State).banks = s.banks := rfl
@[simp] theorem State.with_hif_phy (s : State) (x) : ({ s with hif := x } : State).phy = s.phy := rfl
@[simp] theorem State.with_hif_lnk (s : State) (x) : ({ s with hif := x } : State).lnk = s.lnk := rfl
@[simp] theorem State.with_hif_rte (s : State) (x) : ({ s with hif := x } : State).rte = s.rte := rfl
@[simp] theorem State.with_hif_sch (s : State) (x) : ({ s with hif := x } : State).sch = s.sch := rfl
@[simp] theorem State.with_hif_hif (s : State) (x) : ({ s with hif := x } : State).hif = x := rfl
@[simp] theorem State.with_hif_trn (s : State) (x) : ({ s with hif := x } : State).trn = s.trn := rfl
@[simp] theorem State.with_hif_mch (s : State) (x) : ({ s with hif := x } : State).mch = s.mch := rfl
@[simp] theorem State.with_hif_rma (s : State) (x) : ({ s with hif := x } : State).rma = s.rma := rfl
@[simp] theorem State.with_hif_lck (s : State) (x) : ({ s with hif := x } : State).lck = s.lck := rfl
@[simp] theorem State.with_hif_brg (s : State) (x) : ({ s with hif := x } : State).brg = s.brg := rfl
@[simp] theorem State.with_hif_col (s : State) (x) : ({ s with hif := x } : State).col = s.col := rfl
@[simp] theorem State.with_hif_ltl (s : State) (x) : ({ s with hif := x } : State).ltl = s.ltl := rfl
@[simp] theorem State.with_hif_bst (s : State) (x) : ({ s with hif := x } : State).bst = s.bst := rfl
@[simp] theorem State.with_hif_mgt (s : State) (x) : ({ s with hif := x } : State).mgt = s.mgt := rfl
@[simp] theorem State.with_hif_xlt (s : State) (x) : ({ s with hif := x } : State).xlt = s.xlt := rfl
@[simp] theorem State.with_hif_out (s : State) (x) : ({ s with hif := x } : State).out = s.out := rfl
@[simp] theorem State.with_hif_free (s : State) (x) : ({ s with hif := x } : State).free = s.free := rfl
@[simp] theorem State.with_hif_pending (s : State) (x) : ({ s with hif := x } : State).pending = s.pending := rfl

/-! A new `trn` -/
@[simp] theorem State.with_trn_mode (s : State) (x) : ({ s with trn := x } : State).mode = s.mode := rfl
@[simp] theorem State.with_trn_glb (s : State) (x) : ({ s with trn := x } : State).glb = s.glb := rfl
@[simp] theorem State.with_trn_crs (s : State) (x) : ({ s with trn := x } : State).crs = s.crs := rfl
@[simp] theorem State.with_trn_regs (s : State) (x) : ({ s with trn := x } : State).regs = s.regs := rfl
@[simp] theorem State.with_trn_sets (s : State) (x) : ({ s with trn := x } : State).sets = s.sets := rfl
@[simp] theorem State.with_trn_ctrs (s : State) (x) : ({ s with trn := x } : State).ctrs = s.ctrs := rfl
@[simp] theorem State.with_trn_latches (s : State) (x) : ({ s with trn := x } : State).latches = s.latches := rfl
@[simp] theorem State.with_trn_srcs (s : State) (x) : ({ s with trn := x } : State).srcs = s.srcs := rfl
@[simp] theorem State.with_trn_banks (s : State) (x) : ({ s with trn := x } : State).banks = s.banks := rfl
@[simp] theorem State.with_trn_phy (s : State) (x) : ({ s with trn := x } : State).phy = s.phy := rfl
@[simp] theorem State.with_trn_lnk (s : State) (x) : ({ s with trn := x } : State).lnk = s.lnk := rfl
@[simp] theorem State.with_trn_rte (s : State) (x) : ({ s with trn := x } : State).rte = s.rte := rfl
@[simp] theorem State.with_trn_sch (s : State) (x) : ({ s with trn := x } : State).sch = s.sch := rfl
@[simp] theorem State.with_trn_hif (s : State) (x) : ({ s with trn := x } : State).hif = s.hif := rfl
@[simp] theorem State.with_trn_trn (s : State) (x) : ({ s with trn := x } : State).trn = x := rfl
@[simp] theorem State.with_trn_mch (s : State) (x) : ({ s with trn := x } : State).mch = s.mch := rfl
@[simp] theorem State.with_trn_rma (s : State) (x) : ({ s with trn := x } : State).rma = s.rma := rfl
@[simp] theorem State.with_trn_lck (s : State) (x) : ({ s with trn := x } : State).lck = s.lck := rfl
@[simp] theorem State.with_trn_brg (s : State) (x) : ({ s with trn := x } : State).brg = s.brg := rfl
@[simp] theorem State.with_trn_col (s : State) (x) : ({ s with trn := x } : State).col = s.col := rfl
@[simp] theorem State.with_trn_ltl (s : State) (x) : ({ s with trn := x } : State).ltl = s.ltl := rfl
@[simp] theorem State.with_trn_bst (s : State) (x) : ({ s with trn := x } : State).bst = s.bst := rfl
@[simp] theorem State.with_trn_mgt (s : State) (x) : ({ s with trn := x } : State).mgt = s.mgt := rfl
@[simp] theorem State.with_trn_xlt (s : State) (x) : ({ s with trn := x } : State).xlt = s.xlt := rfl
@[simp] theorem State.with_trn_out (s : State) (x) : ({ s with trn := x } : State).out = s.out := rfl
@[simp] theorem State.with_trn_free (s : State) (x) : ({ s with trn := x } : State).free = s.free := rfl
@[simp] theorem State.with_trn_pending (s : State) (x) : ({ s with trn := x } : State).pending = s.pending := rfl

/-! A new `mch` -/
@[simp] theorem State.with_mch_mode (s : State) (x) : ({ s with mch := x } : State).mode = s.mode := rfl
@[simp] theorem State.with_mch_glb (s : State) (x) : ({ s with mch := x } : State).glb = s.glb := rfl
@[simp] theorem State.with_mch_crs (s : State) (x) : ({ s with mch := x } : State).crs = s.crs := rfl
@[simp] theorem State.with_mch_regs (s : State) (x) : ({ s with mch := x } : State).regs = s.regs := rfl
@[simp] theorem State.with_mch_sets (s : State) (x) : ({ s with mch := x } : State).sets = s.sets := rfl
@[simp] theorem State.with_mch_ctrs (s : State) (x) : ({ s with mch := x } : State).ctrs = s.ctrs := rfl
@[simp] theorem State.with_mch_latches (s : State) (x) : ({ s with mch := x } : State).latches = s.latches := rfl
@[simp] theorem State.with_mch_srcs (s : State) (x) : ({ s with mch := x } : State).srcs = s.srcs := rfl
@[simp] theorem State.with_mch_banks (s : State) (x) : ({ s with mch := x } : State).banks = s.banks := rfl
@[simp] theorem State.with_mch_phy (s : State) (x) : ({ s with mch := x } : State).phy = s.phy := rfl
@[simp] theorem State.with_mch_lnk (s : State) (x) : ({ s with mch := x } : State).lnk = s.lnk := rfl
@[simp] theorem State.with_mch_rte (s : State) (x) : ({ s with mch := x } : State).rte = s.rte := rfl
@[simp] theorem State.with_mch_sch (s : State) (x) : ({ s with mch := x } : State).sch = s.sch := rfl
@[simp] theorem State.with_mch_hif (s : State) (x) : ({ s with mch := x } : State).hif = s.hif := rfl
@[simp] theorem State.with_mch_trn (s : State) (x) : ({ s with mch := x } : State).trn = s.trn := rfl
@[simp] theorem State.with_mch_mch (s : State) (x) : ({ s with mch := x } : State).mch = x := rfl
@[simp] theorem State.with_mch_rma (s : State) (x) : ({ s with mch := x } : State).rma = s.rma := rfl
@[simp] theorem State.with_mch_lck (s : State) (x) : ({ s with mch := x } : State).lck = s.lck := rfl
@[simp] theorem State.with_mch_brg (s : State) (x) : ({ s with mch := x } : State).brg = s.brg := rfl
@[simp] theorem State.with_mch_col (s : State) (x) : ({ s with mch := x } : State).col = s.col := rfl
@[simp] theorem State.with_mch_ltl (s : State) (x) : ({ s with mch := x } : State).ltl = s.ltl := rfl
@[simp] theorem State.with_mch_bst (s : State) (x) : ({ s with mch := x } : State).bst = s.bst := rfl
@[simp] theorem State.with_mch_mgt (s : State) (x) : ({ s with mch := x } : State).mgt = s.mgt := rfl
@[simp] theorem State.with_mch_xlt (s : State) (x) : ({ s with mch := x } : State).xlt = s.xlt := rfl
@[simp] theorem State.with_mch_out (s : State) (x) : ({ s with mch := x } : State).out = s.out := rfl
@[simp] theorem State.with_mch_free (s : State) (x) : ({ s with mch := x } : State).free = s.free := rfl
@[simp] theorem State.with_mch_pending (s : State) (x) : ({ s with mch := x } : State).pending = s.pending := rfl

/-! A new `rma` -/
@[simp] theorem State.with_rma_mode (s : State) (x) : ({ s with rma := x } : State).mode = s.mode := rfl
@[simp] theorem State.with_rma_glb (s : State) (x) : ({ s with rma := x } : State).glb = s.glb := rfl
@[simp] theorem State.with_rma_crs (s : State) (x) : ({ s with rma := x } : State).crs = s.crs := rfl
@[simp] theorem State.with_rma_regs (s : State) (x) : ({ s with rma := x } : State).regs = s.regs := rfl
@[simp] theorem State.with_rma_sets (s : State) (x) : ({ s with rma := x } : State).sets = s.sets := rfl
@[simp] theorem State.with_rma_ctrs (s : State) (x) : ({ s with rma := x } : State).ctrs = s.ctrs := rfl
@[simp] theorem State.with_rma_latches (s : State) (x) : ({ s with rma := x } : State).latches = s.latches := rfl
@[simp] theorem State.with_rma_srcs (s : State) (x) : ({ s with rma := x } : State).srcs = s.srcs := rfl
@[simp] theorem State.with_rma_banks (s : State) (x) : ({ s with rma := x } : State).banks = s.banks := rfl
@[simp] theorem State.with_rma_phy (s : State) (x) : ({ s with rma := x } : State).phy = s.phy := rfl
@[simp] theorem State.with_rma_lnk (s : State) (x) : ({ s with rma := x } : State).lnk = s.lnk := rfl
@[simp] theorem State.with_rma_rte (s : State) (x) : ({ s with rma := x } : State).rte = s.rte := rfl
@[simp] theorem State.with_rma_sch (s : State) (x) : ({ s with rma := x } : State).sch = s.sch := rfl
@[simp] theorem State.with_rma_hif (s : State) (x) : ({ s with rma := x } : State).hif = s.hif := rfl
@[simp] theorem State.with_rma_trn (s : State) (x) : ({ s with rma := x } : State).trn = s.trn := rfl
@[simp] theorem State.with_rma_mch (s : State) (x) : ({ s with rma := x } : State).mch = s.mch := rfl
@[simp] theorem State.with_rma_rma (s : State) (x) : ({ s with rma := x } : State).rma = x := rfl
@[simp] theorem State.with_rma_lck (s : State) (x) : ({ s with rma := x } : State).lck = s.lck := rfl
@[simp] theorem State.with_rma_brg (s : State) (x) : ({ s with rma := x } : State).brg = s.brg := rfl
@[simp] theorem State.with_rma_col (s : State) (x) : ({ s with rma := x } : State).col = s.col := rfl
@[simp] theorem State.with_rma_ltl (s : State) (x) : ({ s with rma := x } : State).ltl = s.ltl := rfl
@[simp] theorem State.with_rma_bst (s : State) (x) : ({ s with rma := x } : State).bst = s.bst := rfl
@[simp] theorem State.with_rma_mgt (s : State) (x) : ({ s with rma := x } : State).mgt = s.mgt := rfl
@[simp] theorem State.with_rma_xlt (s : State) (x) : ({ s with rma := x } : State).xlt = s.xlt := rfl
@[simp] theorem State.with_rma_out (s : State) (x) : ({ s with rma := x } : State).out = s.out := rfl
@[simp] theorem State.with_rma_free (s : State) (x) : ({ s with rma := x } : State).free = s.free := rfl
@[simp] theorem State.with_rma_pending (s : State) (x) : ({ s with rma := x } : State).pending = s.pending := rfl

/-! A new `lck` -/
@[simp] theorem State.with_lck_mode (s : State) (x) : ({ s with lck := x } : State).mode = s.mode := rfl
@[simp] theorem State.with_lck_glb (s : State) (x) : ({ s with lck := x } : State).glb = s.glb := rfl
@[simp] theorem State.with_lck_crs (s : State) (x) : ({ s with lck := x } : State).crs = s.crs := rfl
@[simp] theorem State.with_lck_regs (s : State) (x) : ({ s with lck := x } : State).regs = s.regs := rfl
@[simp] theorem State.with_lck_sets (s : State) (x) : ({ s with lck := x } : State).sets = s.sets := rfl
@[simp] theorem State.with_lck_ctrs (s : State) (x) : ({ s with lck := x } : State).ctrs = s.ctrs := rfl
@[simp] theorem State.with_lck_latches (s : State) (x) : ({ s with lck := x } : State).latches = s.latches := rfl
@[simp] theorem State.with_lck_srcs (s : State) (x) : ({ s with lck := x } : State).srcs = s.srcs := rfl
@[simp] theorem State.with_lck_banks (s : State) (x) : ({ s with lck := x } : State).banks = s.banks := rfl
@[simp] theorem State.with_lck_phy (s : State) (x) : ({ s with lck := x } : State).phy = s.phy := rfl
@[simp] theorem State.with_lck_lnk (s : State) (x) : ({ s with lck := x } : State).lnk = s.lnk := rfl
@[simp] theorem State.with_lck_rte (s : State) (x) : ({ s with lck := x } : State).rte = s.rte := rfl
@[simp] theorem State.with_lck_sch (s : State) (x) : ({ s with lck := x } : State).sch = s.sch := rfl
@[simp] theorem State.with_lck_hif (s : State) (x) : ({ s with lck := x } : State).hif = s.hif := rfl
@[simp] theorem State.with_lck_trn (s : State) (x) : ({ s with lck := x } : State).trn = s.trn := rfl
@[simp] theorem State.with_lck_mch (s : State) (x) : ({ s with lck := x } : State).mch = s.mch := rfl
@[simp] theorem State.with_lck_rma (s : State) (x) : ({ s with lck := x } : State).rma = s.rma := rfl
@[simp] theorem State.with_lck_lck (s : State) (x) : ({ s with lck := x } : State).lck = x := rfl
@[simp] theorem State.with_lck_brg (s : State) (x) : ({ s with lck := x } : State).brg = s.brg := rfl
@[simp] theorem State.with_lck_col (s : State) (x) : ({ s with lck := x } : State).col = s.col := rfl
@[simp] theorem State.with_lck_ltl (s : State) (x) : ({ s with lck := x } : State).ltl = s.ltl := rfl
@[simp] theorem State.with_lck_bst (s : State) (x) : ({ s with lck := x } : State).bst = s.bst := rfl
@[simp] theorem State.with_lck_mgt (s : State) (x) : ({ s with lck := x } : State).mgt = s.mgt := rfl
@[simp] theorem State.with_lck_xlt (s : State) (x) : ({ s with lck := x } : State).xlt = s.xlt := rfl
@[simp] theorem State.with_lck_out (s : State) (x) : ({ s with lck := x } : State).out = s.out := rfl
@[simp] theorem State.with_lck_free (s : State) (x) : ({ s with lck := x } : State).free = s.free := rfl
@[simp] theorem State.with_lck_pending (s : State) (x) : ({ s with lck := x } : State).pending = s.pending := rfl

/-! A new `brg` -/
@[simp] theorem State.with_brg_mode (s : State) (x) : ({ s with brg := x } : State).mode = s.mode := rfl
@[simp] theorem State.with_brg_glb (s : State) (x) : ({ s with brg := x } : State).glb = s.glb := rfl
@[simp] theorem State.with_brg_crs (s : State) (x) : ({ s with brg := x } : State).crs = s.crs := rfl
@[simp] theorem State.with_brg_regs (s : State) (x) : ({ s with brg := x } : State).regs = s.regs := rfl
@[simp] theorem State.with_brg_sets (s : State) (x) : ({ s with brg := x } : State).sets = s.sets := rfl
@[simp] theorem State.with_brg_ctrs (s : State) (x) : ({ s with brg := x } : State).ctrs = s.ctrs := rfl
@[simp] theorem State.with_brg_latches (s : State) (x) : ({ s with brg := x } : State).latches = s.latches := rfl
@[simp] theorem State.with_brg_srcs (s : State) (x) : ({ s with brg := x } : State).srcs = s.srcs := rfl
@[simp] theorem State.with_brg_banks (s : State) (x) : ({ s with brg := x } : State).banks = s.banks := rfl
@[simp] theorem State.with_brg_phy (s : State) (x) : ({ s with brg := x } : State).phy = s.phy := rfl
@[simp] theorem State.with_brg_lnk (s : State) (x) : ({ s with brg := x } : State).lnk = s.lnk := rfl
@[simp] theorem State.with_brg_rte (s : State) (x) : ({ s with brg := x } : State).rte = s.rte := rfl
@[simp] theorem State.with_brg_sch (s : State) (x) : ({ s with brg := x } : State).sch = s.sch := rfl
@[simp] theorem State.with_brg_hif (s : State) (x) : ({ s with brg := x } : State).hif = s.hif := rfl
@[simp] theorem State.with_brg_trn (s : State) (x) : ({ s with brg := x } : State).trn = s.trn := rfl
@[simp] theorem State.with_brg_mch (s : State) (x) : ({ s with brg := x } : State).mch = s.mch := rfl
@[simp] theorem State.with_brg_rma (s : State) (x) : ({ s with brg := x } : State).rma = s.rma := rfl
@[simp] theorem State.with_brg_lck (s : State) (x) : ({ s with brg := x } : State).lck = s.lck := rfl
@[simp] theorem State.with_brg_brg (s : State) (x) : ({ s with brg := x } : State).brg = x := rfl
@[simp] theorem State.with_brg_col (s : State) (x) : ({ s with brg := x } : State).col = s.col := rfl
@[simp] theorem State.with_brg_ltl (s : State) (x) : ({ s with brg := x } : State).ltl = s.ltl := rfl
@[simp] theorem State.with_brg_bst (s : State) (x) : ({ s with brg := x } : State).bst = s.bst := rfl
@[simp] theorem State.with_brg_mgt (s : State) (x) : ({ s with brg := x } : State).mgt = s.mgt := rfl
@[simp] theorem State.with_brg_xlt (s : State) (x) : ({ s with brg := x } : State).xlt = s.xlt := rfl
@[simp] theorem State.with_brg_out (s : State) (x) : ({ s with brg := x } : State).out = s.out := rfl
@[simp] theorem State.with_brg_free (s : State) (x) : ({ s with brg := x } : State).free = s.free := rfl
@[simp] theorem State.with_brg_pending (s : State) (x) : ({ s with brg := x } : State).pending = s.pending := rfl

/-! A new `col` -/
@[simp] theorem State.with_col_mode (s : State) (x) : ({ s with col := x } : State).mode = s.mode := rfl
@[simp] theorem State.with_col_glb (s : State) (x) : ({ s with col := x } : State).glb = s.glb := rfl
@[simp] theorem State.with_col_crs (s : State) (x) : ({ s with col := x } : State).crs = s.crs := rfl
@[simp] theorem State.with_col_regs (s : State) (x) : ({ s with col := x } : State).regs = s.regs := rfl
@[simp] theorem State.with_col_sets (s : State) (x) : ({ s with col := x } : State).sets = s.sets := rfl
@[simp] theorem State.with_col_ctrs (s : State) (x) : ({ s with col := x } : State).ctrs = s.ctrs := rfl
@[simp] theorem State.with_col_latches (s : State) (x) : ({ s with col := x } : State).latches = s.latches := rfl
@[simp] theorem State.with_col_srcs (s : State) (x) : ({ s with col := x } : State).srcs = s.srcs := rfl
@[simp] theorem State.with_col_banks (s : State) (x) : ({ s with col := x } : State).banks = s.banks := rfl
@[simp] theorem State.with_col_phy (s : State) (x) : ({ s with col := x } : State).phy = s.phy := rfl
@[simp] theorem State.with_col_lnk (s : State) (x) : ({ s with col := x } : State).lnk = s.lnk := rfl
@[simp] theorem State.with_col_rte (s : State) (x) : ({ s with col := x } : State).rte = s.rte := rfl
@[simp] theorem State.with_col_sch (s : State) (x) : ({ s with col := x } : State).sch = s.sch := rfl
@[simp] theorem State.with_col_hif (s : State) (x) : ({ s with col := x } : State).hif = s.hif := rfl
@[simp] theorem State.with_col_trn (s : State) (x) : ({ s with col := x } : State).trn = s.trn := rfl
@[simp] theorem State.with_col_mch (s : State) (x) : ({ s with col := x } : State).mch = s.mch := rfl
@[simp] theorem State.with_col_rma (s : State) (x) : ({ s with col := x } : State).rma = s.rma := rfl
@[simp] theorem State.with_col_lck (s : State) (x) : ({ s with col := x } : State).lck = s.lck := rfl
@[simp] theorem State.with_col_brg (s : State) (x) : ({ s with col := x } : State).brg = s.brg := rfl
@[simp] theorem State.with_col_col (s : State) (x) : ({ s with col := x } : State).col = x := rfl
@[simp] theorem State.with_col_ltl (s : State) (x) : ({ s with col := x } : State).ltl = s.ltl := rfl
@[simp] theorem State.with_col_bst (s : State) (x) : ({ s with col := x } : State).bst = s.bst := rfl
@[simp] theorem State.with_col_mgt (s : State) (x) : ({ s with col := x } : State).mgt = s.mgt := rfl
@[simp] theorem State.with_col_xlt (s : State) (x) : ({ s with col := x } : State).xlt = s.xlt := rfl
@[simp] theorem State.with_col_out (s : State) (x) : ({ s with col := x } : State).out = s.out := rfl
@[simp] theorem State.with_col_free (s : State) (x) : ({ s with col := x } : State).free = s.free := rfl
@[simp] theorem State.with_col_pending (s : State) (x) : ({ s with col := x } : State).pending = s.pending := rfl

/-! A new `ltl` -/
@[simp] theorem State.with_ltl_mode (s : State) (x) : ({ s with ltl := x } : State).mode = s.mode := rfl
@[simp] theorem State.with_ltl_glb (s : State) (x) : ({ s with ltl := x } : State).glb = s.glb := rfl
@[simp] theorem State.with_ltl_crs (s : State) (x) : ({ s with ltl := x } : State).crs = s.crs := rfl
@[simp] theorem State.with_ltl_regs (s : State) (x) : ({ s with ltl := x } : State).regs = s.regs := rfl
@[simp] theorem State.with_ltl_sets (s : State) (x) : ({ s with ltl := x } : State).sets = s.sets := rfl
@[simp] theorem State.with_ltl_ctrs (s : State) (x) : ({ s with ltl := x } : State).ctrs = s.ctrs := rfl
@[simp] theorem State.with_ltl_latches (s : State) (x) : ({ s with ltl := x } : State).latches = s.latches := rfl
@[simp] theorem State.with_ltl_srcs (s : State) (x) : ({ s with ltl := x } : State).srcs = s.srcs := rfl
@[simp] theorem State.with_ltl_banks (s : State) (x) : ({ s with ltl := x } : State).banks = s.banks := rfl
@[simp] theorem State.with_ltl_phy (s : State) (x) : ({ s with ltl := x } : State).phy = s.phy := rfl
@[simp] theorem State.with_ltl_lnk (s : State) (x) : ({ s with ltl := x } : State).lnk = s.lnk := rfl
@[simp] theorem State.with_ltl_rte (s : State) (x) : ({ s with ltl := x } : State).rte = s.rte := rfl
@[simp] theorem State.with_ltl_sch (s : State) (x) : ({ s with ltl := x } : State).sch = s.sch := rfl
@[simp] theorem State.with_ltl_hif (s : State) (x) : ({ s with ltl := x } : State).hif = s.hif := rfl
@[simp] theorem State.with_ltl_trn (s : State) (x) : ({ s with ltl := x } : State).trn = s.trn := rfl
@[simp] theorem State.with_ltl_mch (s : State) (x) : ({ s with ltl := x } : State).mch = s.mch := rfl
@[simp] theorem State.with_ltl_rma (s : State) (x) : ({ s with ltl := x } : State).rma = s.rma := rfl
@[simp] theorem State.with_ltl_lck (s : State) (x) : ({ s with ltl := x } : State).lck = s.lck := rfl
@[simp] theorem State.with_ltl_brg (s : State) (x) : ({ s with ltl := x } : State).brg = s.brg := rfl
@[simp] theorem State.with_ltl_col (s : State) (x) : ({ s with ltl := x } : State).col = s.col := rfl
@[simp] theorem State.with_ltl_ltl (s : State) (x) : ({ s with ltl := x } : State).ltl = x := rfl
@[simp] theorem State.with_ltl_bst (s : State) (x) : ({ s with ltl := x } : State).bst = s.bst := rfl
@[simp] theorem State.with_ltl_mgt (s : State) (x) : ({ s with ltl := x } : State).mgt = s.mgt := rfl
@[simp] theorem State.with_ltl_xlt (s : State) (x) : ({ s with ltl := x } : State).xlt = s.xlt := rfl
@[simp] theorem State.with_ltl_out (s : State) (x) : ({ s with ltl := x } : State).out = s.out := rfl
@[simp] theorem State.with_ltl_free (s : State) (x) : ({ s with ltl := x } : State).free = s.free := rfl
@[simp] theorem State.with_ltl_pending (s : State) (x) : ({ s with ltl := x } : State).pending = s.pending := rfl

/-! A new `mgt` -/
@[simp] theorem State.with_mgt_mode (s : State) (x) : ({ s with mgt := x } : State).mode = s.mode := rfl
@[simp] theorem State.with_mgt_glb (s : State) (x) : ({ s with mgt := x } : State).glb = s.glb := rfl
@[simp] theorem State.with_mgt_crs (s : State) (x) : ({ s with mgt := x } : State).crs = s.crs := rfl
@[simp] theorem State.with_mgt_regs (s : State) (x) : ({ s with mgt := x } : State).regs = s.regs := rfl
@[simp] theorem State.with_mgt_sets (s : State) (x) : ({ s with mgt := x } : State).sets = s.sets := rfl
@[simp] theorem State.with_mgt_ctrs (s : State) (x) : ({ s with mgt := x } : State).ctrs = s.ctrs := rfl
@[simp] theorem State.with_mgt_latches (s : State) (x) : ({ s with mgt := x } : State).latches = s.latches := rfl
@[simp] theorem State.with_mgt_srcs (s : State) (x) : ({ s with mgt := x } : State).srcs = s.srcs := rfl
@[simp] theorem State.with_mgt_banks (s : State) (x) : ({ s with mgt := x } : State).banks = s.banks := rfl
@[simp] theorem State.with_mgt_phy (s : State) (x) : ({ s with mgt := x } : State).phy = s.phy := rfl
@[simp] theorem State.with_mgt_lnk (s : State) (x) : ({ s with mgt := x } : State).lnk = s.lnk := rfl
@[simp] theorem State.with_mgt_rte (s : State) (x) : ({ s with mgt := x } : State).rte = s.rte := rfl
@[simp] theorem State.with_mgt_sch (s : State) (x) : ({ s with mgt := x } : State).sch = s.sch := rfl
@[simp] theorem State.with_mgt_hif (s : State) (x) : ({ s with mgt := x } : State).hif = s.hif := rfl
@[simp] theorem State.with_mgt_trn (s : State) (x) : ({ s with mgt := x } : State).trn = s.trn := rfl
@[simp] theorem State.with_mgt_mch (s : State) (x) : ({ s with mgt := x } : State).mch = s.mch := rfl
@[simp] theorem State.with_mgt_rma (s : State) (x) : ({ s with mgt := x } : State).rma = s.rma := rfl
@[simp] theorem State.with_mgt_lck (s : State) (x) : ({ s with mgt := x } : State).lck = s.lck := rfl
@[simp] theorem State.with_mgt_brg (s : State) (x) : ({ s with mgt := x } : State).brg = s.brg := rfl
@[simp] theorem State.with_mgt_col (s : State) (x) : ({ s with mgt := x } : State).col = s.col := rfl
@[simp] theorem State.with_mgt_ltl (s : State) (x) : ({ s with mgt := x } : State).ltl = s.ltl := rfl
@[simp] theorem State.with_mgt_bst (s : State) (x) : ({ s with mgt := x } : State).bst = s.bst := rfl
@[simp] theorem State.with_mgt_mgt (s : State) (x) : ({ s with mgt := x } : State).mgt = x := rfl
@[simp] theorem State.with_mgt_xlt (s : State) (x) : ({ s with mgt := x } : State).xlt = s.xlt := rfl
@[simp] theorem State.with_mgt_out (s : State) (x) : ({ s with mgt := x } : State).out = s.out := rfl
@[simp] theorem State.with_mgt_free (s : State) (x) : ({ s with mgt := x } : State).free = s.free := rfl
@[simp] theorem State.with_mgt_pending (s : State) (x) : ({ s with mgt := x } : State).pending = s.pending := rfl

/-! A new `xlt` -/
@[simp] theorem State.with_xlt_mode (s : State) (x) : ({ s with xlt := x } : State).mode = s.mode := rfl
@[simp] theorem State.with_xlt_glb (s : State) (x) : ({ s with xlt := x } : State).glb = s.glb := rfl
@[simp] theorem State.with_xlt_crs (s : State) (x) : ({ s with xlt := x } : State).crs = s.crs := rfl
@[simp] theorem State.with_xlt_regs (s : State) (x) : ({ s with xlt := x } : State).regs = s.regs := rfl
@[simp] theorem State.with_xlt_sets (s : State) (x) : ({ s with xlt := x } : State).sets = s.sets := rfl
@[simp] theorem State.with_xlt_ctrs (s : State) (x) : ({ s with xlt := x } : State).ctrs = s.ctrs := rfl
@[simp] theorem State.with_xlt_latches (s : State) (x) : ({ s with xlt := x } : State).latches = s.latches := rfl
@[simp] theorem State.with_xlt_srcs (s : State) (x) : ({ s with xlt := x } : State).srcs = s.srcs := rfl
@[simp] theorem State.with_xlt_banks (s : State) (x) : ({ s with xlt := x } : State).banks = s.banks := rfl
@[simp] theorem State.with_xlt_phy (s : State) (x) : ({ s with xlt := x } : State).phy = s.phy := rfl
@[simp] theorem State.with_xlt_lnk (s : State) (x) : ({ s with xlt := x } : State).lnk = s.lnk := rfl
@[simp] theorem State.with_xlt_rte (s : State) (x) : ({ s with xlt := x } : State).rte = s.rte := rfl
@[simp] theorem State.with_xlt_sch (s : State) (x) : ({ s with xlt := x } : State).sch = s.sch := rfl
@[simp] theorem State.with_xlt_hif (s : State) (x) : ({ s with xlt := x } : State).hif = s.hif := rfl
@[simp] theorem State.with_xlt_trn (s : State) (x) : ({ s with xlt := x } : State).trn = s.trn := rfl
@[simp] theorem State.with_xlt_mch (s : State) (x) : ({ s with xlt := x } : State).mch = s.mch := rfl
@[simp] theorem State.with_xlt_rma (s : State) (x) : ({ s with xlt := x } : State).rma = s.rma := rfl
@[simp] theorem State.with_xlt_lck (s : State) (x) : ({ s with xlt := x } : State).lck = s.lck := rfl
@[simp] theorem State.with_xlt_brg (s : State) (x) : ({ s with xlt := x } : State).brg = s.brg := rfl
@[simp] theorem State.with_xlt_col (s : State) (x) : ({ s with xlt := x } : State).col = s.col := rfl
@[simp] theorem State.with_xlt_ltl (s : State) (x) : ({ s with xlt := x } : State).ltl = s.ltl := rfl
@[simp] theorem State.with_xlt_bst (s : State) (x) : ({ s with xlt := x } : State).bst = s.bst := rfl
@[simp] theorem State.with_xlt_mgt (s : State) (x) : ({ s with xlt := x } : State).mgt = s.mgt := rfl
@[simp] theorem State.with_xlt_xlt (s : State) (x) : ({ s with xlt := x } : State).xlt = x := rfl
@[simp] theorem State.with_xlt_out (s : State) (x) : ({ s with xlt := x } : State).out = s.out := rfl
@[simp] theorem State.with_xlt_free (s : State) (x) : ({ s with xlt := x } : State).free = s.free := rfl
@[simp] theorem State.with_xlt_pending (s : State) (x) : ({ s with xlt := x } : State).pending = s.pending := rfl

/-! A new `out` -/
@[simp] theorem State.with_out_mode (s : State) (x) : ({ s with out := x } : State).mode = s.mode := rfl
@[simp] theorem State.with_out_glb (s : State) (x) : ({ s with out := x } : State).glb = s.glb := rfl
@[simp] theorem State.with_out_crs (s : State) (x) : ({ s with out := x } : State).crs = s.crs := rfl
@[simp] theorem State.with_out_regs (s : State) (x) : ({ s with out := x } : State).regs = s.regs := rfl
@[simp] theorem State.with_out_sets (s : State) (x) : ({ s with out := x } : State).sets = s.sets := rfl
@[simp] theorem State.with_out_ctrs (s : State) (x) : ({ s with out := x } : State).ctrs = s.ctrs := rfl
@[simp] theorem State.with_out_latches (s : State) (x) : ({ s with out := x } : State).latches = s.latches := rfl
@[simp] theorem State.with_out_srcs (s : State) (x) : ({ s with out := x } : State).srcs = s.srcs := rfl
@[simp] theorem State.with_out_banks (s : State) (x) : ({ s with out := x } : State).banks = s.banks := rfl
@[simp] theorem State.with_out_phy (s : State) (x) : ({ s with out := x } : State).phy = s.phy := rfl
@[simp] theorem State.with_out_lnk (s : State) (x) : ({ s with out := x } : State).lnk = s.lnk := rfl
@[simp] theorem State.with_out_rte (s : State) (x) : ({ s with out := x } : State).rte = s.rte := rfl
@[simp] theorem State.with_out_sch (s : State) (x) : ({ s with out := x } : State).sch = s.sch := rfl
@[simp] theorem State.with_out_hif (s : State) (x) : ({ s with out := x } : State).hif = s.hif := rfl
@[simp] theorem State.with_out_trn (s : State) (x) : ({ s with out := x } : State).trn = s.trn := rfl
@[simp] theorem State.with_out_mch (s : State) (x) : ({ s with out := x } : State).mch = s.mch := rfl
@[simp] theorem State.with_out_rma (s : State) (x) : ({ s with out := x } : State).rma = s.rma := rfl
@[simp] theorem State.with_out_lck (s : State) (x) : ({ s with out := x } : State).lck = s.lck := rfl
@[simp] theorem State.with_out_brg (s : State) (x) : ({ s with out := x } : State).brg = s.brg := rfl
@[simp] theorem State.with_out_col (s : State) (x) : ({ s with out := x } : State).col = s.col := rfl
@[simp] theorem State.with_out_ltl (s : State) (x) : ({ s with out := x } : State).ltl = s.ltl := rfl
@[simp] theorem State.with_out_bst (s : State) (x) : ({ s with out := x } : State).bst = s.bst := rfl
@[simp] theorem State.with_out_mgt (s : State) (x) : ({ s with out := x } : State).mgt = s.mgt := rfl
@[simp] theorem State.with_out_xlt (s : State) (x) : ({ s with out := x } : State).xlt = s.xlt := rfl
@[simp] theorem State.with_out_out (s : State) (x) : ({ s with out := x } : State).out = x := rfl
@[simp] theorem State.with_out_free (s : State) (x) : ({ s with out := x } : State).free = s.free := rfl
@[simp] theorem State.with_out_pending (s : State) (x) : ({ s with out := x } : State).pending = s.pending := rfl

/-! `State.setWord` -/
@[simp] theorem State.setWord_mode (s : State) (off v : Nat) : (s.setWord off v).mode = s.mode := State.with_regs_mode s _
@[simp] theorem State.setWord_glb (s : State) (off v : Nat) : (s.setWord off v).glb = s.glb := State.with_regs_glb s _
@[simp] theorem State.setWord_crs (s : State) (off v : Nat) : (s.setWord off v).crs = s.crs := State.with_regs_crs s _
@[simp] theorem State.setWord_regs (s : State) (off v : Nat) : (s.setWord off v).regs = Tbl.put resetWord s.regs off (BitVec.ofNat 32 v) := State.with_regs_regs s _
@[simp] theorem State.setWord_sets (s : State) (off v : Nat) : (s.setWord off v).sets = s.sets := State.with_regs_sets s _
@[simp] theorem State.setWord_ctrs (s : State) (off v : Nat) : (s.setWord off v).ctrs = s.ctrs := State.with_regs_ctrs s _
@[simp] theorem State.setWord_latches (s : State) (off v : Nat) : (s.setWord off v).latches = s.latches := State.with_regs_latches s _
@[simp] theorem State.setWord_srcs (s : State) (off v : Nat) : (s.setWord off v).srcs = s.srcs := State.with_regs_srcs s _
@[simp] theorem State.setWord_banks (s : State) (off v : Nat) : (s.setWord off v).banks = s.banks := State.with_regs_banks s _
@[simp] theorem State.setWord_phy (s : State) (off v : Nat) : (s.setWord off v).phy = s.phy := State.with_regs_phy s _
@[simp] theorem State.setWord_lnk (s : State) (off v : Nat) : (s.setWord off v).lnk = s.lnk := State.with_regs_lnk s _
@[simp] theorem State.setWord_rte (s : State) (off v : Nat) : (s.setWord off v).rte = s.rte := State.with_regs_rte s _
@[simp] theorem State.setWord_sch (s : State) (off v : Nat) : (s.setWord off v).sch = s.sch := State.with_regs_sch s _
@[simp] theorem State.setWord_hif (s : State) (off v : Nat) : (s.setWord off v).hif = s.hif := State.with_regs_hif s _
@[simp] theorem State.setWord_trn (s : State) (off v : Nat) : (s.setWord off v).trn = s.trn := State.with_regs_trn s _
@[simp] theorem State.setWord_mch (s : State) (off v : Nat) : (s.setWord off v).mch = s.mch := State.with_regs_mch s _
@[simp] theorem State.setWord_rma (s : State) (off v : Nat) : (s.setWord off v).rma = s.rma := State.with_regs_rma s _
@[simp] theorem State.setWord_lck (s : State) (off v : Nat) : (s.setWord off v).lck = s.lck := State.with_regs_lck s _
@[simp] theorem State.setWord_brg (s : State) (off v : Nat) : (s.setWord off v).brg = s.brg := State.with_regs_brg s _
@[simp] theorem State.setWord_col (s : State) (off v : Nat) : (s.setWord off v).col = s.col := State.with_regs_col s _
@[simp] theorem State.setWord_ltl (s : State) (off v : Nat) : (s.setWord off v).ltl = s.ltl := State.with_regs_ltl s _
@[simp] theorem State.setWord_bst (s : State) (off v : Nat) : (s.setWord off v).bst = s.bst := State.with_regs_bst s _
@[simp] theorem State.setWord_mgt (s : State) (off v : Nat) : (s.setWord off v).mgt = s.mgt := State.with_regs_mgt s _
@[simp] theorem State.setWord_xlt (s : State) (off v : Nat) : (s.setWord off v).xlt = s.xlt := State.with_regs_xlt s _
@[simp] theorem State.setWord_out (s : State) (off v : Nat) : (s.setWord off v).out = s.out := State.with_regs_out s _
@[simp] theorem State.setWord_free (s : State) (off v : Nat) : (s.setWord off v).free = s.free := State.with_regs_free s _
@[simp] theorem State.setWord_pending (s : State) (off v : Nat) : (s.setWord off v).pending = s.pending := State.with_regs_pending s _

/-! `State.putSetW` -/
@[simp] theorem State.putSetW_mode (s : State) (set off v : Nat) : (s.putSetW set off v).mode = s.mode := State.with_sets_mode s _
@[simp] theorem State.putSetW_glb (s : State) (set off v : Nat) : (s.putSetW set off v).glb = s.glb := State.with_sets_glb s _
@[simp] theorem State.putSetW_crs (s : State) (set off v : Nat) : (s.putSetW set off v).crs = s.crs := State.with_sets_crs s _
@[simp] theorem State.putSetW_regs (s : State) (set off v : Nat) : (s.putSetW set off v).regs = s.regs := State.with_sets_regs s _
@[simp] theorem State.putSetW_sets (s : State) (set off v : Nat) : (s.putSetW set off v).sets = Tbl.put resetSet s.sets (Sys2Proof.Machine.setKey set off) (BitVec.ofNat 32 v) := State.with_sets_sets s _
@[simp] theorem State.putSetW_ctrs (s : State) (set off v : Nat) : (s.putSetW set off v).ctrs = s.ctrs := State.with_sets_ctrs s _
@[simp] theorem State.putSetW_latches (s : State) (set off v : Nat) : (s.putSetW set off v).latches = s.latches := State.with_sets_latches s _
@[simp] theorem State.putSetW_srcs (s : State) (set off v : Nat) : (s.putSetW set off v).srcs = s.srcs := State.with_sets_srcs s _
@[simp] theorem State.putSetW_banks (s : State) (set off v : Nat) : (s.putSetW set off v).banks = s.banks := State.with_sets_banks s _
@[simp] theorem State.putSetW_phy (s : State) (set off v : Nat) : (s.putSetW set off v).phy = s.phy := State.with_sets_phy s _
@[simp] theorem State.putSetW_lnk (s : State) (set off v : Nat) : (s.putSetW set off v).lnk = s.lnk := State.with_sets_lnk s _
@[simp] theorem State.putSetW_rte (s : State) (set off v : Nat) : (s.putSetW set off v).rte = s.rte := State.with_sets_rte s _
@[simp] theorem State.putSetW_sch (s : State) (set off v : Nat) : (s.putSetW set off v).sch = s.sch := State.with_sets_sch s _
@[simp] theorem State.putSetW_hif (s : State) (set off v : Nat) : (s.putSetW set off v).hif = s.hif := State.with_sets_hif s _
@[simp] theorem State.putSetW_trn (s : State) (set off v : Nat) : (s.putSetW set off v).trn = s.trn := State.with_sets_trn s _
@[simp] theorem State.putSetW_mch (s : State) (set off v : Nat) : (s.putSetW set off v).mch = s.mch := State.with_sets_mch s _
@[simp] theorem State.putSetW_rma (s : State) (set off v : Nat) : (s.putSetW set off v).rma = s.rma := State.with_sets_rma s _
@[simp] theorem State.putSetW_lck (s : State) (set off v : Nat) : (s.putSetW set off v).lck = s.lck := State.with_sets_lck s _
@[simp] theorem State.putSetW_brg (s : State) (set off v : Nat) : (s.putSetW set off v).brg = s.brg := State.with_sets_brg s _
@[simp] theorem State.putSetW_col (s : State) (set off v : Nat) : (s.putSetW set off v).col = s.col := State.with_sets_col s _
@[simp] theorem State.putSetW_ltl (s : State) (set off v : Nat) : (s.putSetW set off v).ltl = s.ltl := State.with_sets_ltl s _
@[simp] theorem State.putSetW_bst (s : State) (set off v : Nat) : (s.putSetW set off v).bst = s.bst := State.with_sets_bst s _
@[simp] theorem State.putSetW_mgt (s : State) (set off v : Nat) : (s.putSetW set off v).mgt = s.mgt := State.with_sets_mgt s _
@[simp] theorem State.putSetW_xlt (s : State) (set off v : Nat) : (s.putSetW set off v).xlt = s.xlt := State.with_sets_xlt s _
@[simp] theorem State.putSetW_out (s : State) (set off v : Nat) : (s.putSetW set off v).out = s.out := State.with_sets_out s _
@[simp] theorem State.putSetW_free (s : State) (set off v : Nat) : (s.putSetW set off v).free = s.free := State.with_sets_free s _
@[simp] theorem State.putSetW_pending (s : State) (set off v : Nat) : (s.putSetW set off v).pending = s.pending := State.with_sets_pending s _

/-! `State.bumpBy` -/
@[simp] theorem State.bumpBy_mode (s : State) (off n : Nat) : (s.bumpBy off n).mode = s.mode := State.with_ctrs_mode s _
@[simp] theorem State.bumpBy_glb (s : State) (off n : Nat) : (s.bumpBy off n).glb = s.glb := State.with_ctrs_glb s _
@[simp] theorem State.bumpBy_crs (s : State) (off n : Nat) : (s.bumpBy off n).crs = s.crs := State.with_ctrs_crs s _
@[simp] theorem State.bumpBy_regs (s : State) (off n : Nat) : (s.bumpBy off n).regs = s.regs := State.with_ctrs_regs s _
@[simp] theorem State.bumpBy_sets (s : State) (off n : Nat) : (s.bumpBy off n).sets = s.sets := State.with_ctrs_sets s _
@[simp] theorem State.bumpBy_ctrs (s : State) (off n : Nat) : (s.bumpBy off n).ctrs = Tbl.put (fun _ => 0) s.ctrs off (s.ctr off + BitVec.ofNat 64 n) := State.with_ctrs_ctrs s _
@[simp] theorem State.bumpBy_latches (s : State) (off n : Nat) : (s.bumpBy off n).latches = s.latches := State.with_ctrs_latches s _
@[simp] theorem State.bumpBy_srcs (s : State) (off n : Nat) : (s.bumpBy off n).srcs = s.srcs := State.with_ctrs_srcs s _
@[simp] theorem State.bumpBy_banks (s : State) (off n : Nat) : (s.bumpBy off n).banks = s.banks := State.with_ctrs_banks s _
@[simp] theorem State.bumpBy_phy (s : State) (off n : Nat) : (s.bumpBy off n).phy = s.phy := State.with_ctrs_phy s _
@[simp] theorem State.bumpBy_lnk (s : State) (off n : Nat) : (s.bumpBy off n).lnk = s.lnk := State.with_ctrs_lnk s _
@[simp] theorem State.bumpBy_rte (s : State) (off n : Nat) : (s.bumpBy off n).rte = s.rte := State.with_ctrs_rte s _
@[simp] theorem State.bumpBy_sch (s : State) (off n : Nat) : (s.bumpBy off n).sch = s.sch := State.with_ctrs_sch s _
@[simp] theorem State.bumpBy_hif (s : State) (off n : Nat) : (s.bumpBy off n).hif = s.hif := State.with_ctrs_hif s _
@[simp] theorem State.bumpBy_trn (s : State) (off n : Nat) : (s.bumpBy off n).trn = s.trn := State.with_ctrs_trn s _
@[simp] theorem State.bumpBy_mch (s : State) (off n : Nat) : (s.bumpBy off n).mch = s.mch := State.with_ctrs_mch s _
@[simp] theorem State.bumpBy_rma (s : State) (off n : Nat) : (s.bumpBy off n).rma = s.rma := State.with_ctrs_rma s _
@[simp] theorem State.bumpBy_lck (s : State) (off n : Nat) : (s.bumpBy off n).lck = s.lck := State.with_ctrs_lck s _
@[simp] theorem State.bumpBy_brg (s : State) (off n : Nat) : (s.bumpBy off n).brg = s.brg := State.with_ctrs_brg s _
@[simp] theorem State.bumpBy_col (s : State) (off n : Nat) : (s.bumpBy off n).col = s.col := State.with_ctrs_col s _
@[simp] theorem State.bumpBy_ltl (s : State) (off n : Nat) : (s.bumpBy off n).ltl = s.ltl := State.with_ctrs_ltl s _
@[simp] theorem State.bumpBy_bst (s : State) (off n : Nat) : (s.bumpBy off n).bst = s.bst := State.with_ctrs_bst s _
@[simp] theorem State.bumpBy_mgt (s : State) (off n : Nat) : (s.bumpBy off n).mgt = s.mgt := State.with_ctrs_mgt s _
@[simp] theorem State.bumpBy_xlt (s : State) (off n : Nat) : (s.bumpBy off n).xlt = s.xlt := State.with_ctrs_xlt s _
@[simp] theorem State.bumpBy_out (s : State) (off n : Nat) : (s.bumpBy off n).out = s.out := State.with_ctrs_out s _
@[simp] theorem State.bumpBy_free (s : State) (off n : Nat) : (s.bumpBy off n).free = s.free := State.with_ctrs_free s _
@[simp] theorem State.bumpBy_pending (s : State) (off n : Nat) : (s.bumpBy off n).pending = s.pending := State.with_ctrs_pending s _

/-! `State.setTime` -/
@[simp] theorem State.setTime_mode (s : State) (course : Course) (cycle : Nat) : (s.setTime course cycle).mode = s.mode := State.with_crs_mode s _
@[simp] theorem State.setTime_glb (s : State) (course : Course) (cycle : Nat) : (s.setTime course cycle).glb = s.glb := State.with_crs_glb s _
@[simp] theorem State.setTime_crs (s : State) (course : Course) (cycle : Nat) : (s.setTime course cycle).crs = { s.crs with course := course, cycle := cycle, ball := decide (cycle < 64) } := State.with_crs_crs s _
@[simp] theorem State.setTime_regs (s : State) (course : Course) (cycle : Nat) : (s.setTime course cycle).regs = s.regs := State.with_crs_regs s _
@[simp] theorem State.setTime_sets (s : State) (course : Course) (cycle : Nat) : (s.setTime course cycle).sets = s.sets := State.with_crs_sets s _
@[simp] theorem State.setTime_ctrs (s : State) (course : Course) (cycle : Nat) : (s.setTime course cycle).ctrs = s.ctrs := State.with_crs_ctrs s _
@[simp] theorem State.setTime_latches (s : State) (course : Course) (cycle : Nat) : (s.setTime course cycle).latches = s.latches := State.with_crs_latches s _
@[simp] theorem State.setTime_srcs (s : State) (course : Course) (cycle : Nat) : (s.setTime course cycle).srcs = s.srcs := State.with_crs_srcs s _
@[simp] theorem State.setTime_banks (s : State) (course : Course) (cycle : Nat) : (s.setTime course cycle).banks = s.banks := State.with_crs_banks s _
@[simp] theorem State.setTime_phy (s : State) (course : Course) (cycle : Nat) : (s.setTime course cycle).phy = s.phy := State.with_crs_phy s _
@[simp] theorem State.setTime_lnk (s : State) (course : Course) (cycle : Nat) : (s.setTime course cycle).lnk = s.lnk := State.with_crs_lnk s _
@[simp] theorem State.setTime_rte (s : State) (course : Course) (cycle : Nat) : (s.setTime course cycle).rte = s.rte := State.with_crs_rte s _
@[simp] theorem State.setTime_sch (s : State) (course : Course) (cycle : Nat) : (s.setTime course cycle).sch = s.sch := State.with_crs_sch s _
@[simp] theorem State.setTime_hif (s : State) (course : Course) (cycle : Nat) : (s.setTime course cycle).hif = s.hif := State.with_crs_hif s _
@[simp] theorem State.setTime_trn (s : State) (course : Course) (cycle : Nat) : (s.setTime course cycle).trn = s.trn := State.with_crs_trn s _
@[simp] theorem State.setTime_mch (s : State) (course : Course) (cycle : Nat) : (s.setTime course cycle).mch = s.mch := State.with_crs_mch s _
@[simp] theorem State.setTime_rma (s : State) (course : Course) (cycle : Nat) : (s.setTime course cycle).rma = s.rma := State.with_crs_rma s _
@[simp] theorem State.setTime_lck (s : State) (course : Course) (cycle : Nat) : (s.setTime course cycle).lck = s.lck := State.with_crs_lck s _
@[simp] theorem State.setTime_brg (s : State) (course : Course) (cycle : Nat) : (s.setTime course cycle).brg = s.brg := State.with_crs_brg s _
@[simp] theorem State.setTime_col (s : State) (course : Course) (cycle : Nat) : (s.setTime course cycle).col = s.col := State.with_crs_col s _
@[simp] theorem State.setTime_ltl (s : State) (course : Course) (cycle : Nat) : (s.setTime course cycle).ltl = s.ltl := State.with_crs_ltl s _
@[simp] theorem State.setTime_bst (s : State) (course : Course) (cycle : Nat) : (s.setTime course cycle).bst = s.bst := State.with_crs_bst s _
@[simp] theorem State.setTime_mgt (s : State) (course : Course) (cycle : Nat) : (s.setTime course cycle).mgt = s.mgt := State.with_crs_mgt s _
@[simp] theorem State.setTime_xlt (s : State) (course : Course) (cycle : Nat) : (s.setTime course cycle).xlt = s.xlt := State.with_crs_xlt s _
@[simp] theorem State.setTime_out (s : State) (course : Course) (cycle : Nat) : (s.setTime course cycle).out = s.out := State.with_crs_out s _
@[simp] theorem State.setTime_free (s : State) (course : Course) (cycle : Nat) : (s.setTime course cycle).free = s.free := State.with_crs_free s _
@[simp] theorem State.setTime_pending (s : State) (course : Course) (cycle : Nat) : (s.setTime course cycle).pending = s.pending := State.with_crs_pending s _

/-! `State.emit` -/
@[simp] theorem State.emit_mode (s : State) (o : Out) : (s.emit o).mode = s.mode := State.with_out_mode s _
@[simp] theorem State.emit_glb (s : State) (o : Out) : (s.emit o).glb = s.glb := State.with_out_glb s _
@[simp] theorem State.emit_crs (s : State) (o : Out) : (s.emit o).crs = s.crs := State.with_out_crs s _
@[simp] theorem State.emit_regs (s : State) (o : Out) : (s.emit o).regs = s.regs := State.with_out_regs s _
@[simp] theorem State.emit_sets (s : State) (o : Out) : (s.emit o).sets = s.sets := State.with_out_sets s _
@[simp] theorem State.emit_ctrs (s : State) (o : Out) : (s.emit o).ctrs = s.ctrs := State.with_out_ctrs s _
@[simp] theorem State.emit_latches (s : State) (o : Out) : (s.emit o).latches = s.latches := State.with_out_latches s _
@[simp] theorem State.emit_srcs (s : State) (o : Out) : (s.emit o).srcs = s.srcs := State.with_out_srcs s _
@[simp] theorem State.emit_banks (s : State) (o : Out) : (s.emit o).banks = s.banks := State.with_out_banks s _
@[simp] theorem State.emit_phy (s : State) (o : Out) : (s.emit o).phy = s.phy := State.with_out_phy s _
@[simp] theorem State.emit_lnk (s : State) (o : Out) : (s.emit o).lnk = s.lnk := State.with_out_lnk s _
@[simp] theorem State.emit_rte (s : State) (o : Out) : (s.emit o).rte = s.rte := State.with_out_rte s _
@[simp] theorem State.emit_sch (s : State) (o : Out) : (s.emit o).sch = s.sch := State.with_out_sch s _
@[simp] theorem State.emit_hif (s : State) (o : Out) : (s.emit o).hif = s.hif := State.with_out_hif s _
@[simp] theorem State.emit_trn (s : State) (o : Out) : (s.emit o).trn = s.trn := State.with_out_trn s _
@[simp] theorem State.emit_mch (s : State) (o : Out) : (s.emit o).mch = s.mch := State.with_out_mch s _
@[simp] theorem State.emit_rma (s : State) (o : Out) : (s.emit o).rma = s.rma := State.with_out_rma s _
@[simp] theorem State.emit_lck (s : State) (o : Out) : (s.emit o).lck = s.lck := State.with_out_lck s _
@[simp] theorem State.emit_brg (s : State) (o : Out) : (s.emit o).brg = s.brg := State.with_out_brg s _
@[simp] theorem State.emit_col (s : State) (o : Out) : (s.emit o).col = s.col := State.with_out_col s _
@[simp] theorem State.emit_ltl (s : State) (o : Out) : (s.emit o).ltl = s.ltl := State.with_out_ltl s _
@[simp] theorem State.emit_bst (s : State) (o : Out) : (s.emit o).bst = s.bst := State.with_out_bst s _
@[simp] theorem State.emit_mgt (s : State) (o : Out) : (s.emit o).mgt = s.mgt := State.with_out_mgt s _
@[simp] theorem State.emit_xlt (s : State) (o : Out) : (s.emit o).xlt = s.xlt := State.with_out_xlt s _
@[simp] theorem State.emit_out (s : State) (o : Out) : (s.emit o).out = s.out ++ [o] := State.with_out_out s _
@[simp] theorem State.emit_free (s : State) (o : Out) : (s.emit o).free = s.free := State.with_out_free s _
@[simp] theorem State.emit_pending (s : State) (o : Out) : (s.emit o).pending = s.pending := State.with_out_pending s _

/-! `State.setEq` -/
@[simp] theorem State.setEq_mode (s : State) (r : Nat) (e : Eq) : (s.setEq r e).mode = s.mode := State.with_hif_mode s _
@[simp] theorem State.setEq_glb (s : State) (r : Nat) (e : Eq) : (s.setEq r e).glb = s.glb := State.with_hif_glb s _
@[simp] theorem State.setEq_crs (s : State) (r : Nat) (e : Eq) : (s.setEq r e).crs = s.crs := State.with_hif_crs s _
@[simp] theorem State.setEq_regs (s : State) (r : Nat) (e : Eq) : (s.setEq r e).regs = s.regs := State.with_hif_regs s _
@[simp] theorem State.setEq_sets (s : State) (r : Nat) (e : Eq) : (s.setEq r e).sets = s.sets := State.with_hif_sets s _
@[simp] theorem State.setEq_ctrs (s : State) (r : Nat) (e : Eq) : (s.setEq r e).ctrs = s.ctrs := State.with_hif_ctrs s _
@[simp] theorem State.setEq_latches (s : State) (r : Nat) (e : Eq) : (s.setEq r e).latches = s.latches := State.with_hif_latches s _
@[simp] theorem State.setEq_srcs (s : State) (r : Nat) (e : Eq) : (s.setEq r e).srcs = s.srcs := State.with_hif_srcs s _
@[simp] theorem State.setEq_banks (s : State) (r : Nat) (e : Eq) : (s.setEq r e).banks = s.banks := State.with_hif_banks s _
@[simp] theorem State.setEq_phy (s : State) (r : Nat) (e : Eq) : (s.setEq r e).phy = s.phy := State.with_hif_phy s _
@[simp] theorem State.setEq_lnk (s : State) (r : Nat) (e : Eq) : (s.setEq r e).lnk = s.lnk := State.with_hif_lnk s _
@[simp] theorem State.setEq_rte (s : State) (r : Nat) (e : Eq) : (s.setEq r e).rte = s.rte := State.with_hif_rte s _
@[simp] theorem State.setEq_sch (s : State) (r : Nat) (e : Eq) : (s.setEq r e).sch = s.sch := State.with_hif_sch s _
@[simp] theorem State.setEq_hif (s : State) (r : Nat) (e : Eq) : (s.setEq r e).hif = { s.hif with eqs := Tbl.ins s.hif.eqs r e } := State.with_hif_hif s _
@[simp] theorem State.setEq_trn (s : State) (r : Nat) (e : Eq) : (s.setEq r e).trn = s.trn := State.with_hif_trn s _
@[simp] theorem State.setEq_mch (s : State) (r : Nat) (e : Eq) : (s.setEq r e).mch = s.mch := State.with_hif_mch s _
@[simp] theorem State.setEq_rma (s : State) (r : Nat) (e : Eq) : (s.setEq r e).rma = s.rma := State.with_hif_rma s _
@[simp] theorem State.setEq_lck (s : State) (r : Nat) (e : Eq) : (s.setEq r e).lck = s.lck := State.with_hif_lck s _
@[simp] theorem State.setEq_brg (s : State) (r : Nat) (e : Eq) : (s.setEq r e).brg = s.brg := State.with_hif_brg s _
@[simp] theorem State.setEq_col (s : State) (r : Nat) (e : Eq) : (s.setEq r e).col = s.col := State.with_hif_col s _
@[simp] theorem State.setEq_ltl (s : State) (r : Nat) (e : Eq) : (s.setEq r e).ltl = s.ltl := State.with_hif_ltl s _
@[simp] theorem State.setEq_bst (s : State) (r : Nat) (e : Eq) : (s.setEq r e).bst = s.bst := State.with_hif_bst s _
@[simp] theorem State.setEq_mgt (s : State) (r : Nat) (e : Eq) : (s.setEq r e).mgt = s.mgt := State.with_hif_mgt s _
@[simp] theorem State.setEq_xlt (s : State) (r : Nat) (e : Eq) : (s.setEq r e).xlt = s.xlt := State.with_hif_xlt s _
@[simp] theorem State.setEq_out (s : State) (r : Nat) (e : Eq) : (s.setEq r e).out = s.out := State.with_hif_out s _
@[simp] theorem State.setEq_free (s : State) (r : Nat) (e : Eq) : (s.setEq r e).free = s.free := State.with_hif_free s _
@[simp] theorem State.setEq_pending (s : State) (r : Nat) (e : Eq) : (s.setEq r e).pending = s.pending := State.with_hif_pending s _

/-! `State.setSrc` -/
@[simp] theorem State.setSrc_mode (s : State) (g : Nat) (v : Src) : (s.setSrc g v).mode = s.mode := State.with_srcs_mode s _
@[simp] theorem State.setSrc_glb (s : State) (g : Nat) (v : Src) : (s.setSrc g v).glb = s.glb := State.with_srcs_glb s _
@[simp] theorem State.setSrc_crs (s : State) (g : Nat) (v : Src) : (s.setSrc g v).crs = s.crs := State.with_srcs_crs s _
@[simp] theorem State.setSrc_regs (s : State) (g : Nat) (v : Src) : (s.setSrc g v).regs = s.regs := State.with_srcs_regs s _
@[simp] theorem State.setSrc_sets (s : State) (g : Nat) (v : Src) : (s.setSrc g v).sets = s.sets := State.with_srcs_sets s _
@[simp] theorem State.setSrc_ctrs (s : State) (g : Nat) (v : Src) : (s.setSrc g v).ctrs = s.ctrs := State.with_srcs_ctrs s _
@[simp] theorem State.setSrc_latches (s : State) (g : Nat) (v : Src) : (s.setSrc g v).latches = s.latches := State.with_srcs_latches s _
@[simp] theorem State.setSrc_srcs (s : State) (g : Nat) (v : Src) : (s.setSrc g v).srcs = Tbl.put Src.reset s.srcs g v := State.with_srcs_srcs s _
@[simp] theorem State.setSrc_banks (s : State) (g : Nat) (v : Src) : (s.setSrc g v).banks = s.banks := State.with_srcs_banks s _
@[simp] theorem State.setSrc_phy (s : State) (g : Nat) (v : Src) : (s.setSrc g v).phy = s.phy := State.with_srcs_phy s _
@[simp] theorem State.setSrc_lnk (s : State) (g : Nat) (v : Src) : (s.setSrc g v).lnk = s.lnk := State.with_srcs_lnk s _
@[simp] theorem State.setSrc_rte (s : State) (g : Nat) (v : Src) : (s.setSrc g v).rte = s.rte := State.with_srcs_rte s _
@[simp] theorem State.setSrc_sch (s : State) (g : Nat) (v : Src) : (s.setSrc g v).sch = s.sch := State.with_srcs_sch s _
@[simp] theorem State.setSrc_hif (s : State) (g : Nat) (v : Src) : (s.setSrc g v).hif = s.hif := State.with_srcs_hif s _
@[simp] theorem State.setSrc_trn (s : State) (g : Nat) (v : Src) : (s.setSrc g v).trn = s.trn := State.with_srcs_trn s _
@[simp] theorem State.setSrc_mch (s : State) (g : Nat) (v : Src) : (s.setSrc g v).mch = s.mch := State.with_srcs_mch s _
@[simp] theorem State.setSrc_rma (s : State) (g : Nat) (v : Src) : (s.setSrc g v).rma = s.rma := State.with_srcs_rma s _
@[simp] theorem State.setSrc_lck (s : State) (g : Nat) (v : Src) : (s.setSrc g v).lck = s.lck := State.with_srcs_lck s _
@[simp] theorem State.setSrc_brg (s : State) (g : Nat) (v : Src) : (s.setSrc g v).brg = s.brg := State.with_srcs_brg s _
@[simp] theorem State.setSrc_col (s : State) (g : Nat) (v : Src) : (s.setSrc g v).col = s.col := State.with_srcs_col s _
@[simp] theorem State.setSrc_ltl (s : State) (g : Nat) (v : Src) : (s.setSrc g v).ltl = s.ltl := State.with_srcs_ltl s _
@[simp] theorem State.setSrc_bst (s : State) (g : Nat) (v : Src) : (s.setSrc g v).bst = s.bst := State.with_srcs_bst s _
@[simp] theorem State.setSrc_mgt (s : State) (g : Nat) (v : Src) : (s.setSrc g v).mgt = s.mgt := State.with_srcs_mgt s _
@[simp] theorem State.setSrc_xlt (s : State) (g : Nat) (v : Src) : (s.setSrc g v).xlt = s.xlt := State.with_srcs_xlt s _
@[simp] theorem State.setSrc_out (s : State) (g : Nat) (v : Src) : (s.setSrc g v).out = s.out := State.with_srcs_out s _
@[simp] theorem State.setSrc_free (s : State) (g : Nat) (v : Src) : (s.setSrc g v).free = s.free := State.with_srcs_free s _
@[simp] theorem State.setSrc_pending (s : State) (g : Nat) (v : Src) : (s.setSrc g v).pending = s.pending := State.with_srcs_pending s _

/-! `State.setBank` -/
@[simp] theorem State.setBank_mode (s : State) (code : Nat) (b : Bank) : (s.setBank code b).mode = s.mode := State.with_banks_mode s _
@[simp] theorem State.setBank_glb (s : State) (code : Nat) (b : Bank) : (s.setBank code b).glb = s.glb := State.with_banks_glb s _
@[simp] theorem State.setBank_crs (s : State) (code : Nat) (b : Bank) : (s.setBank code b).crs = s.crs := State.with_banks_crs s _
@[simp] theorem State.setBank_regs (s : State) (code : Nat) (b : Bank) : (s.setBank code b).regs = s.regs := State.with_banks_regs s _
@[simp] theorem State.setBank_sets (s : State) (code : Nat) (b : Bank) : (s.setBank code b).sets = s.sets := State.with_banks_sets s _
@[simp] theorem State.setBank_ctrs (s : State) (code : Nat) (b : Bank) : (s.setBank code b).ctrs = s.ctrs := State.with_banks_ctrs s _
@[simp] theorem State.setBank_latches (s : State) (code : Nat) (b : Bank) : (s.setBank code b).latches = s.latches := State.with_banks_latches s _
@[simp] theorem State.setBank_srcs (s : State) (code : Nat) (b : Bank) : (s.setBank code b).srcs = s.srcs := State.with_banks_srcs s _
@[simp] theorem State.setBank_banks (s : State) (code : Nat) (b : Bank) : (s.setBank code b).banks = Tbl.put (fun _ => Bank.reset) s.banks code b := State.with_banks_banks s _
@[simp] theorem State.setBank_phy (s : State) (code : Nat) (b : Bank) : (s.setBank code b).phy = s.phy := State.with_banks_phy s _
@[simp] theorem State.setBank_lnk (s : State) (code : Nat) (b : Bank) : (s.setBank code b).lnk = s.lnk := State.with_banks_lnk s _
@[simp] theorem State.setBank_rte (s : State) (code : Nat) (b : Bank) : (s.setBank code b).rte = s.rte := State.with_banks_rte s _
@[simp] theorem State.setBank_sch (s : State) (code : Nat) (b : Bank) : (s.setBank code b).sch = s.sch := State.with_banks_sch s _
@[simp] theorem State.setBank_hif (s : State) (code : Nat) (b : Bank) : (s.setBank code b).hif = s.hif := State.with_banks_hif s _
@[simp] theorem State.setBank_trn (s : State) (code : Nat) (b : Bank) : (s.setBank code b).trn = s.trn := State.with_banks_trn s _
@[simp] theorem State.setBank_mch (s : State) (code : Nat) (b : Bank) : (s.setBank code b).mch = s.mch := State.with_banks_mch s _
@[simp] theorem State.setBank_rma (s : State) (code : Nat) (b : Bank) : (s.setBank code b).rma = s.rma := State.with_banks_rma s _
@[simp] theorem State.setBank_lck (s : State) (code : Nat) (b : Bank) : (s.setBank code b).lck = s.lck := State.with_banks_lck s _
@[simp] theorem State.setBank_brg (s : State) (code : Nat) (b : Bank) : (s.setBank code b).brg = s.brg := State.with_banks_brg s _
@[simp] theorem State.setBank_col (s : State) (code : Nat) (b : Bank) : (s.setBank code b).col = s.col := State.with_banks_col s _
@[simp] theorem State.setBank_ltl (s : State) (code : Nat) (b : Bank) : (s.setBank code b).ltl = s.ltl := State.with_banks_ltl s _
@[simp] theorem State.setBank_bst (s : State) (code : Nat) (b : Bank) : (s.setBank code b).bst = s.bst := State.with_banks_bst s _
@[simp] theorem State.setBank_mgt (s : State) (code : Nat) (b : Bank) : (s.setBank code b).mgt = s.mgt := State.with_banks_mgt s _
@[simp] theorem State.setBank_xlt (s : State) (code : Nat) (b : Bank) : (s.setBank code b).xlt = s.xlt := State.with_banks_xlt s _
@[simp] theorem State.setBank_out (s : State) (code : Nat) (b : Bank) : (s.setBank code b).out = s.out := State.with_banks_out s _
@[simp] theorem State.setBank_free (s : State) (code : Nat) (b : Bank) : (s.setBank code b).free = s.free := State.with_banks_free s _
@[simp] theorem State.setBank_pending (s : State) (code : Nat) (b : Bank) : (s.setBank code b).pending = s.pending := State.with_banks_pending s _

/-! `State.setLk` -/
@[simp] theorem State.setLk_mode (s : State) (p : Nat) (l : Lnk) : (s.setLk p l).mode = s.mode := State.with_lnk_mode s _
@[simp] theorem State.setLk_glb (s : State) (p : Nat) (l : Lnk) : (s.setLk p l).glb = s.glb := State.with_lnk_glb s _
@[simp] theorem State.setLk_crs (s : State) (p : Nat) (l : Lnk) : (s.setLk p l).crs = s.crs := State.with_lnk_crs s _
@[simp] theorem State.setLk_regs (s : State) (p : Nat) (l : Lnk) : (s.setLk p l).regs = s.regs := State.with_lnk_regs s _
@[simp] theorem State.setLk_sets (s : State) (p : Nat) (l : Lnk) : (s.setLk p l).sets = s.sets := State.with_lnk_sets s _
@[simp] theorem State.setLk_ctrs (s : State) (p : Nat) (l : Lnk) : (s.setLk p l).ctrs = s.ctrs := State.with_lnk_ctrs s _
@[simp] theorem State.setLk_latches (s : State) (p : Nat) (l : Lnk) : (s.setLk p l).latches = s.latches := State.with_lnk_latches s _
@[simp] theorem State.setLk_srcs (s : State) (p : Nat) (l : Lnk) : (s.setLk p l).srcs = s.srcs := State.with_lnk_srcs s _
@[simp] theorem State.setLk_banks (s : State) (p : Nat) (l : Lnk) : (s.setLk p l).banks = s.banks := State.with_lnk_banks s _
@[simp] theorem State.setLk_phy (s : State) (p : Nat) (l : Lnk) : (s.setLk p l).phy = s.phy := State.with_lnk_phy s _
@[simp] theorem State.setLk_lnk (s : State) (p : Nat) (l : Lnk) : (s.setLk p l).lnk = Tbl.put (fun _ => Lnk.reset) s.lnk p l := State.with_lnk_lnk s _
@[simp] theorem State.setLk_rte (s : State) (p : Nat) (l : Lnk) : (s.setLk p l).rte = s.rte := State.with_lnk_rte s _
@[simp] theorem State.setLk_sch (s : State) (p : Nat) (l : Lnk) : (s.setLk p l).sch = s.sch := State.with_lnk_sch s _
@[simp] theorem State.setLk_hif (s : State) (p : Nat) (l : Lnk) : (s.setLk p l).hif = s.hif := State.with_lnk_hif s _
@[simp] theorem State.setLk_trn (s : State) (p : Nat) (l : Lnk) : (s.setLk p l).trn = s.trn := State.with_lnk_trn s _
@[simp] theorem State.setLk_mch (s : State) (p : Nat) (l : Lnk) : (s.setLk p l).mch = s.mch := State.with_lnk_mch s _
@[simp] theorem State.setLk_rma (s : State) (p : Nat) (l : Lnk) : (s.setLk p l).rma = s.rma := State.with_lnk_rma s _
@[simp] theorem State.setLk_lck (s : State) (p : Nat) (l : Lnk) : (s.setLk p l).lck = s.lck := State.with_lnk_lck s _
@[simp] theorem State.setLk_brg (s : State) (p : Nat) (l : Lnk) : (s.setLk p l).brg = s.brg := State.with_lnk_brg s _
@[simp] theorem State.setLk_col (s : State) (p : Nat) (l : Lnk) : (s.setLk p l).col = s.col := State.with_lnk_col s _
@[simp] theorem State.setLk_ltl (s : State) (p : Nat) (l : Lnk) : (s.setLk p l).ltl = s.ltl := State.with_lnk_ltl s _
@[simp] theorem State.setLk_bst (s : State) (p : Nat) (l : Lnk) : (s.setLk p l).bst = s.bst := State.with_lnk_bst s _
@[simp] theorem State.setLk_mgt (s : State) (p : Nat) (l : Lnk) : (s.setLk p l).mgt = s.mgt := State.with_lnk_mgt s _
@[simp] theorem State.setLk_xlt (s : State) (p : Nat) (l : Lnk) : (s.setLk p l).xlt = s.xlt := State.with_lnk_xlt s _
@[simp] theorem State.setLk_out (s : State) (p : Nat) (l : Lnk) : (s.setLk p l).out = s.out := State.with_lnk_out s _
@[simp] theorem State.setLk_free (s : State) (p : Nat) (l : Lnk) : (s.setLk p l).free = s.free := State.with_lnk_free s _
@[simp] theorem State.setLk_pending (s : State) (p : Nat) (l : Lnk) : (s.setLk p l).pending = s.pending := State.with_lnk_pending s _

/-! `State.setPp` -/
@[simp] theorem State.setPp_mode (s : State) (p : Nat) (v : PortPhy) : (s.setPp p v).mode = s.mode := State.with_phy_mode s _
@[simp] theorem State.setPp_glb (s : State) (p : Nat) (v : PortPhy) : (s.setPp p v).glb = s.glb := State.with_phy_glb s _
@[simp] theorem State.setPp_crs (s : State) (p : Nat) (v : PortPhy) : (s.setPp p v).crs = s.crs := State.with_phy_crs s _
@[simp] theorem State.setPp_regs (s : State) (p : Nat) (v : PortPhy) : (s.setPp p v).regs = s.regs := State.with_phy_regs s _
@[simp] theorem State.setPp_sets (s : State) (p : Nat) (v : PortPhy) : (s.setPp p v).sets = s.sets := State.with_phy_sets s _
@[simp] theorem State.setPp_ctrs (s : State) (p : Nat) (v : PortPhy) : (s.setPp p v).ctrs = s.ctrs := State.with_phy_ctrs s _
@[simp] theorem State.setPp_latches (s : State) (p : Nat) (v : PortPhy) : (s.setPp p v).latches = s.latches := State.with_phy_latches s _
@[simp] theorem State.setPp_srcs (s : State) (p : Nat) (v : PortPhy) : (s.setPp p v).srcs = s.srcs := State.with_phy_srcs s _
@[simp] theorem State.setPp_banks (s : State) (p : Nat) (v : PortPhy) : (s.setPp p v).banks = s.banks := State.with_phy_banks s _
@[simp] theorem State.setPp_phy (s : State) (p : Nat) (v : PortPhy) : (s.setPp p v).phy = { s.phy with ports := Tbl.put (fun _ => PortPhy.reset) s.phy.ports p v } := State.with_phy_phy s _
@[simp] theorem State.setPp_lnk (s : State) (p : Nat) (v : PortPhy) : (s.setPp p v).lnk = s.lnk := State.with_phy_lnk s _
@[simp] theorem State.setPp_rte (s : State) (p : Nat) (v : PortPhy) : (s.setPp p v).rte = s.rte := State.with_phy_rte s _
@[simp] theorem State.setPp_sch (s : State) (p : Nat) (v : PortPhy) : (s.setPp p v).sch = s.sch := State.with_phy_sch s _
@[simp] theorem State.setPp_hif (s : State) (p : Nat) (v : PortPhy) : (s.setPp p v).hif = s.hif := State.with_phy_hif s _
@[simp] theorem State.setPp_trn (s : State) (p : Nat) (v : PortPhy) : (s.setPp p v).trn = s.trn := State.with_phy_trn s _
@[simp] theorem State.setPp_mch (s : State) (p : Nat) (v : PortPhy) : (s.setPp p v).mch = s.mch := State.with_phy_mch s _
@[simp] theorem State.setPp_rma (s : State) (p : Nat) (v : PortPhy) : (s.setPp p v).rma = s.rma := State.with_phy_rma s _
@[simp] theorem State.setPp_lck (s : State) (p : Nat) (v : PortPhy) : (s.setPp p v).lck = s.lck := State.with_phy_lck s _
@[simp] theorem State.setPp_brg (s : State) (p : Nat) (v : PortPhy) : (s.setPp p v).brg = s.brg := State.with_phy_brg s _
@[simp] theorem State.setPp_col (s : State) (p : Nat) (v : PortPhy) : (s.setPp p v).col = s.col := State.with_phy_col s _
@[simp] theorem State.setPp_ltl (s : State) (p : Nat) (v : PortPhy) : (s.setPp p v).ltl = s.ltl := State.with_phy_ltl s _
@[simp] theorem State.setPp_bst (s : State) (p : Nat) (v : PortPhy) : (s.setPp p v).bst = s.bst := State.with_phy_bst s _
@[simp] theorem State.setPp_mgt (s : State) (p : Nat) (v : PortPhy) : (s.setPp p v).mgt = s.mgt := State.with_phy_mgt s _
@[simp] theorem State.setPp_xlt (s : State) (p : Nat) (v : PortPhy) : (s.setPp p v).xlt = s.xlt := State.with_phy_xlt s _
@[simp] theorem State.setPp_out (s : State) (p : Nat) (v : PortPhy) : (s.setPp p v).out = s.out := State.with_phy_out s _
@[simp] theorem State.setPp_free (s : State) (p : Nat) (v : PortPhy) : (s.setPp p v).free = s.free := State.with_phy_free s _
@[simp] theorem State.setPp_pending (s : State) (p : Nat) (v : PortPhy) : (s.setPp p v).pending = s.pending := State.with_phy_pending s _

/-! `State.setLn` -/
@[simp] theorem State.setLn_mode (s : State) (n : Nat) (v : Lane) : (s.setLn n v).mode = s.mode := State.with_phy_mode s _
@[simp] theorem State.setLn_glb (s : State) (n : Nat) (v : Lane) : (s.setLn n v).glb = s.glb := State.with_phy_glb s _
@[simp] theorem State.setLn_crs (s : State) (n : Nat) (v : Lane) : (s.setLn n v).crs = s.crs := State.with_phy_crs s _
@[simp] theorem State.setLn_regs (s : State) (n : Nat) (v : Lane) : (s.setLn n v).regs = s.regs := State.with_phy_regs s _
@[simp] theorem State.setLn_sets (s : State) (n : Nat) (v : Lane) : (s.setLn n v).sets = s.sets := State.with_phy_sets s _
@[simp] theorem State.setLn_ctrs (s : State) (n : Nat) (v : Lane) : (s.setLn n v).ctrs = s.ctrs := State.with_phy_ctrs s _
@[simp] theorem State.setLn_latches (s : State) (n : Nat) (v : Lane) : (s.setLn n v).latches = s.latches := State.with_phy_latches s _
@[simp] theorem State.setLn_srcs (s : State) (n : Nat) (v : Lane) : (s.setLn n v).srcs = s.srcs := State.with_phy_srcs s _
@[simp] theorem State.setLn_banks (s : State) (n : Nat) (v : Lane) : (s.setLn n v).banks = s.banks := State.with_phy_banks s _
@[simp] theorem State.setLn_phy (s : State) (n : Nat) (v : Lane) : (s.setLn n v).phy = { s.phy with lanes := Tbl.put (fun _ => Lane.reset) s.phy.lanes n v } := State.with_phy_phy s _
@[simp] theorem State.setLn_lnk (s : State) (n : Nat) (v : Lane) : (s.setLn n v).lnk = s.lnk := State.with_phy_lnk s _
@[simp] theorem State.setLn_rte (s : State) (n : Nat) (v : Lane) : (s.setLn n v).rte = s.rte := State.with_phy_rte s _
@[simp] theorem State.setLn_sch (s : State) (n : Nat) (v : Lane) : (s.setLn n v).sch = s.sch := State.with_phy_sch s _
@[simp] theorem State.setLn_hif (s : State) (n : Nat) (v : Lane) : (s.setLn n v).hif = s.hif := State.with_phy_hif s _
@[simp] theorem State.setLn_trn (s : State) (n : Nat) (v : Lane) : (s.setLn n v).trn = s.trn := State.with_phy_trn s _
@[simp] theorem State.setLn_mch (s : State) (n : Nat) (v : Lane) : (s.setLn n v).mch = s.mch := State.with_phy_mch s _
@[simp] theorem State.setLn_rma (s : State) (n : Nat) (v : Lane) : (s.setLn n v).rma = s.rma := State.with_phy_rma s _
@[simp] theorem State.setLn_lck (s : State) (n : Nat) (v : Lane) : (s.setLn n v).lck = s.lck := State.with_phy_lck s _
@[simp] theorem State.setLn_brg (s : State) (n : Nat) (v : Lane) : (s.setLn n v).brg = s.brg := State.with_phy_brg s _
@[simp] theorem State.setLn_col (s : State) (n : Nat) (v : Lane) : (s.setLn n v).col = s.col := State.with_phy_col s _
@[simp] theorem State.setLn_ltl (s : State) (n : Nat) (v : Lane) : (s.setLn n v).ltl = s.ltl := State.with_phy_ltl s _
@[simp] theorem State.setLn_bst (s : State) (n : Nat) (v : Lane) : (s.setLn n v).bst = s.bst := State.with_phy_bst s _
@[simp] theorem State.setLn_mgt (s : State) (n : Nat) (v : Lane) : (s.setLn n v).mgt = s.mgt := State.with_phy_mgt s _
@[simp] theorem State.setLn_xlt (s : State) (n : Nat) (v : Lane) : (s.setLn n v).xlt = s.xlt := State.with_phy_xlt s _
@[simp] theorem State.setLn_out (s : State) (n : Nat) (v : Lane) : (s.setLn n v).out = s.out := State.with_phy_out s _
@[simp] theorem State.setLn_free (s : State) (n : Nat) (v : Lane) : (s.setLn n v).free = s.free := State.with_phy_free s _
@[simp] theorem State.setLn_pending (s : State) (n : Nat) (v : Lane) : (s.setLn n v).pending = s.pending := State.with_phy_pending s _

/-! `State.setFn` -/
@[simp] theorem State.setFn_mode (s : State) (f : Nat) (v : Fn) : (s.setFn f v).mode = s.mode := State.with_hif_mode s _
@[simp] theorem State.setFn_glb (s : State) (f : Nat) (v : Fn) : (s.setFn f v).glb = s.glb := State.with_hif_glb s _
@[simp] theorem State.setFn_crs (s : State) (f : Nat) (v : Fn) : (s.setFn f v).crs = s.crs := State.with_hif_crs s _
@[simp] theorem State.setFn_regs (s : State) (f : Nat) (v : Fn) : (s.setFn f v).regs = s.regs := State.with_hif_regs s _
@[simp] theorem State.setFn_sets (s : State) (f : Nat) (v : Fn) : (s.setFn f v).sets = s.sets := State.with_hif_sets s _
@[simp] theorem State.setFn_ctrs (s : State) (f : Nat) (v : Fn) : (s.setFn f v).ctrs = s.ctrs := State.with_hif_ctrs s _
@[simp] theorem State.setFn_latches (s : State) (f : Nat) (v : Fn) : (s.setFn f v).latches = s.latches := State.with_hif_latches s _
@[simp] theorem State.setFn_srcs (s : State) (f : Nat) (v : Fn) : (s.setFn f v).srcs = s.srcs := State.with_hif_srcs s _
@[simp] theorem State.setFn_banks (s : State) (f : Nat) (v : Fn) : (s.setFn f v).banks = s.banks := State.with_hif_banks s _
@[simp] theorem State.setFn_phy (s : State) (f : Nat) (v : Fn) : (s.setFn f v).phy = s.phy := State.with_hif_phy s _
@[simp] theorem State.setFn_lnk (s : State) (f : Nat) (v : Fn) : (s.setFn f v).lnk = s.lnk := State.with_hif_lnk s _
@[simp] theorem State.setFn_rte (s : State) (f : Nat) (v : Fn) : (s.setFn f v).rte = s.rte := State.with_hif_rte s _
@[simp] theorem State.setFn_sch (s : State) (f : Nat) (v : Fn) : (s.setFn f v).sch = s.sch := State.with_hif_sch s _
@[simp] theorem State.setFn_hif (s : State) (f : Nat) (v : Fn) : (s.setFn f v).hif = { s.hif with fns := Tbl.put (fun _ => Fn.reset) s.hif.fns f v } := State.with_hif_hif s _
@[simp] theorem State.setFn_trn (s : State) (f : Nat) (v : Fn) : (s.setFn f v).trn = s.trn := State.with_hif_trn s _
@[simp] theorem State.setFn_mch (s : State) (f : Nat) (v : Fn) : (s.setFn f v).mch = s.mch := State.with_hif_mch s _
@[simp] theorem State.setFn_rma (s : State) (f : Nat) (v : Fn) : (s.setFn f v).rma = s.rma := State.with_hif_rma s _
@[simp] theorem State.setFn_lck (s : State) (f : Nat) (v : Fn) : (s.setFn f v).lck = s.lck := State.with_hif_lck s _
@[simp] theorem State.setFn_brg (s : State) (f : Nat) (v : Fn) : (s.setFn f v).brg = s.brg := State.with_hif_brg s _
@[simp] theorem State.setFn_col (s : State) (f : Nat) (v : Fn) : (s.setFn f v).col = s.col := State.with_hif_col s _
@[simp] theorem State.setFn_ltl (s : State) (f : Nat) (v : Fn) : (s.setFn f v).ltl = s.ltl := State.with_hif_ltl s _
@[simp] theorem State.setFn_bst (s : State) (f : Nat) (v : Fn) : (s.setFn f v).bst = s.bst := State.with_hif_bst s _
@[simp] theorem State.setFn_mgt (s : State) (f : Nat) (v : Fn) : (s.setFn f v).mgt = s.mgt := State.with_hif_mgt s _
@[simp] theorem State.setFn_xlt (s : State) (f : Nat) (v : Fn) : (s.setFn f v).xlt = s.xlt := State.with_hif_xlt s _
@[simp] theorem State.setFn_out (s : State) (f : Nat) (v : Fn) : (s.setFn f v).out = s.out := State.with_hif_out s _
@[simp] theorem State.setFn_free (s : State) (f : Nat) (v : Fn) : (s.setFn f v).free = s.free := State.with_hif_free s _
@[simp] theorem State.setFn_pending (s : State) (f : Nat) (v : Fn) : (s.setFn f v).pending = s.pending := State.with_hif_pending s _

/-! `State.setSq` -/
@[simp] theorem State.setSq_mode (s : State) (q : Nat) (v : Sq) : (s.setSq q v).mode = s.mode := State.with_hif_mode s _
@[simp] theorem State.setSq_glb (s : State) (q : Nat) (v : Sq) : (s.setSq q v).glb = s.glb := State.with_hif_glb s _
@[simp] theorem State.setSq_crs (s : State) (q : Nat) (v : Sq) : (s.setSq q v).crs = s.crs := State.with_hif_crs s _
@[simp] theorem State.setSq_regs (s : State) (q : Nat) (v : Sq) : (s.setSq q v).regs = s.regs := State.with_hif_regs s _
@[simp] theorem State.setSq_sets (s : State) (q : Nat) (v : Sq) : (s.setSq q v).sets = s.sets := State.with_hif_sets s _
@[simp] theorem State.setSq_ctrs (s : State) (q : Nat) (v : Sq) : (s.setSq q v).ctrs = s.ctrs := State.with_hif_ctrs s _
@[simp] theorem State.setSq_latches (s : State) (q : Nat) (v : Sq) : (s.setSq q v).latches = s.latches := State.with_hif_latches s _
@[simp] theorem State.setSq_srcs (s : State) (q : Nat) (v : Sq) : (s.setSq q v).srcs = s.srcs := State.with_hif_srcs s _
@[simp] theorem State.setSq_banks (s : State) (q : Nat) (v : Sq) : (s.setSq q v).banks = s.banks := State.with_hif_banks s _
@[simp] theorem State.setSq_phy (s : State) (q : Nat) (v : Sq) : (s.setSq q v).phy = s.phy := State.with_hif_phy s _
@[simp] theorem State.setSq_lnk (s : State) (q : Nat) (v : Sq) : (s.setSq q v).lnk = s.lnk := State.with_hif_lnk s _
@[simp] theorem State.setSq_rte (s : State) (q : Nat) (v : Sq) : (s.setSq q v).rte = s.rte := State.with_hif_rte s _
@[simp] theorem State.setSq_sch (s : State) (q : Nat) (v : Sq) : (s.setSq q v).sch = s.sch := State.with_hif_sch s _
@[simp] theorem State.setSq_hif (s : State) (q : Nat) (v : Sq) : (s.setSq q v).hif = { s.hif with sqs := Tbl.ins s.hif.sqs q v } := State.with_hif_hif s _
@[simp] theorem State.setSq_trn (s : State) (q : Nat) (v : Sq) : (s.setSq q v).trn = s.trn := State.with_hif_trn s _
@[simp] theorem State.setSq_mch (s : State) (q : Nat) (v : Sq) : (s.setSq q v).mch = s.mch := State.with_hif_mch s _
@[simp] theorem State.setSq_rma (s : State) (q : Nat) (v : Sq) : (s.setSq q v).rma = s.rma := State.with_hif_rma s _
@[simp] theorem State.setSq_lck (s : State) (q : Nat) (v : Sq) : (s.setSq q v).lck = s.lck := State.with_hif_lck s _
@[simp] theorem State.setSq_brg (s : State) (q : Nat) (v : Sq) : (s.setSq q v).brg = s.brg := State.with_hif_brg s _
@[simp] theorem State.setSq_col (s : State) (q : Nat) (v : Sq) : (s.setSq q v).col = s.col := State.with_hif_col s _
@[simp] theorem State.setSq_ltl (s : State) (q : Nat) (v : Sq) : (s.setSq q v).ltl = s.ltl := State.with_hif_ltl s _
@[simp] theorem State.setSq_bst (s : State) (q : Nat) (v : Sq) : (s.setSq q v).bst = s.bst := State.with_hif_bst s _
@[simp] theorem State.setSq_mgt (s : State) (q : Nat) (v : Sq) : (s.setSq q v).mgt = s.mgt := State.with_hif_mgt s _
@[simp] theorem State.setSq_xlt (s : State) (q : Nat) (v : Sq) : (s.setSq q v).xlt = s.xlt := State.with_hif_xlt s _
@[simp] theorem State.setSq_out (s : State) (q : Nat) (v : Sq) : (s.setSq q v).out = s.out := State.with_hif_out s _
@[simp] theorem State.setSq_free (s : State) (q : Nat) (v : Sq) : (s.setSq q v).free = s.free := State.with_hif_free s _
@[simp] theorem State.setSq_pending (s : State) (q : Nat) (v : Sq) : (s.setSq q v).pending = s.pending := State.with_hif_pending s _

/-! `State.setCq` -/
@[simp] theorem State.setCq_mode (s : State) (c : Nat) (v : Cq) : (s.setCq c v).mode = s.mode := State.with_hif_mode s _
@[simp] theorem State.setCq_glb (s : State) (c : Nat) (v : Cq) : (s.setCq c v).glb = s.glb := State.with_hif_glb s _
@[simp] theorem State.setCq_crs (s : State) (c : Nat) (v : Cq) : (s.setCq c v).crs = s.crs := State.with_hif_crs s _
@[simp] theorem State.setCq_regs (s : State) (c : Nat) (v : Cq) : (s.setCq c v).regs = s.regs := State.with_hif_regs s _
@[simp] theorem State.setCq_sets (s : State) (c : Nat) (v : Cq) : (s.setCq c v).sets = s.sets := State.with_hif_sets s _
@[simp] theorem State.setCq_ctrs (s : State) (c : Nat) (v : Cq) : (s.setCq c v).ctrs = s.ctrs := State.with_hif_ctrs s _
@[simp] theorem State.setCq_latches (s : State) (c : Nat) (v : Cq) : (s.setCq c v).latches = s.latches := State.with_hif_latches s _
@[simp] theorem State.setCq_srcs (s : State) (c : Nat) (v : Cq) : (s.setCq c v).srcs = s.srcs := State.with_hif_srcs s _
@[simp] theorem State.setCq_banks (s : State) (c : Nat) (v : Cq) : (s.setCq c v).banks = s.banks := State.with_hif_banks s _
@[simp] theorem State.setCq_phy (s : State) (c : Nat) (v : Cq) : (s.setCq c v).phy = s.phy := State.with_hif_phy s _
@[simp] theorem State.setCq_lnk (s : State) (c : Nat) (v : Cq) : (s.setCq c v).lnk = s.lnk := State.with_hif_lnk s _
@[simp] theorem State.setCq_rte (s : State) (c : Nat) (v : Cq) : (s.setCq c v).rte = s.rte := State.with_hif_rte s _
@[simp] theorem State.setCq_sch (s : State) (c : Nat) (v : Cq) : (s.setCq c v).sch = s.sch := State.with_hif_sch s _
@[simp] theorem State.setCq_hif (s : State) (c : Nat) (v : Cq) : (s.setCq c v).hif = { s.hif with cqs := Tbl.ins s.hif.cqs c v } := State.with_hif_hif s _
@[simp] theorem State.setCq_trn (s : State) (c : Nat) (v : Cq) : (s.setCq c v).trn = s.trn := State.with_hif_trn s _
@[simp] theorem State.setCq_mch (s : State) (c : Nat) (v : Cq) : (s.setCq c v).mch = s.mch := State.with_hif_mch s _
@[simp] theorem State.setCq_rma (s : State) (c : Nat) (v : Cq) : (s.setCq c v).rma = s.rma := State.with_hif_rma s _
@[simp] theorem State.setCq_lck (s : State) (c : Nat) (v : Cq) : (s.setCq c v).lck = s.lck := State.with_hif_lck s _
@[simp] theorem State.setCq_brg (s : State) (c : Nat) (v : Cq) : (s.setCq c v).brg = s.brg := State.with_hif_brg s _
@[simp] theorem State.setCq_col (s : State) (c : Nat) (v : Cq) : (s.setCq c v).col = s.col := State.with_hif_col s _
@[simp] theorem State.setCq_ltl (s : State) (c : Nat) (v : Cq) : (s.setCq c v).ltl = s.ltl := State.with_hif_ltl s _
@[simp] theorem State.setCq_bst (s : State) (c : Nat) (v : Cq) : (s.setCq c v).bst = s.bst := State.with_hif_bst s _
@[simp] theorem State.setCq_mgt (s : State) (c : Nat) (v : Cq) : (s.setCq c v).mgt = s.mgt := State.with_hif_mgt s _
@[simp] theorem State.setCq_xlt (s : State) (c : Nat) (v : Cq) : (s.setCq c v).xlt = s.xlt := State.with_hif_xlt s _
@[simp] theorem State.setCq_out (s : State) (c : Nat) (v : Cq) : (s.setCq c v).out = s.out := State.with_hif_out s _
@[simp] theorem State.setCq_free (s : State) (c : Nat) (v : Cq) : (s.setCq c v).free = s.free := State.with_hif_free s _
@[simp] theorem State.setCq_pending (s : State) (c : Nat) (v : Cq) : (s.setCq c v).pending = s.pending := State.with_hif_pending s _

/-! `State.setEp` -/
@[simp] theorem State.setEp_mode (s : State) (e : Nat) (v : Ep) : (s.setEp e v).mode = s.mode := State.with_hif_mode s _
@[simp] theorem State.setEp_glb (s : State) (e : Nat) (v : Ep) : (s.setEp e v).glb = s.glb := State.with_hif_glb s _
@[simp] theorem State.setEp_crs (s : State) (e : Nat) (v : Ep) : (s.setEp e v).crs = s.crs := State.with_hif_crs s _
@[simp] theorem State.setEp_regs (s : State) (e : Nat) (v : Ep) : (s.setEp e v).regs = s.regs := State.with_hif_regs s _
@[simp] theorem State.setEp_sets (s : State) (e : Nat) (v : Ep) : (s.setEp e v).sets = s.sets := State.with_hif_sets s _
@[simp] theorem State.setEp_ctrs (s : State) (e : Nat) (v : Ep) : (s.setEp e v).ctrs = s.ctrs := State.with_hif_ctrs s _
@[simp] theorem State.setEp_latches (s : State) (e : Nat) (v : Ep) : (s.setEp e v).latches = s.latches := State.with_hif_latches s _
@[simp] theorem State.setEp_srcs (s : State) (e : Nat) (v : Ep) : (s.setEp e v).srcs = s.srcs := State.with_hif_srcs s _
@[simp] theorem State.setEp_banks (s : State) (e : Nat) (v : Ep) : (s.setEp e v).banks = s.banks := State.with_hif_banks s _
@[simp] theorem State.setEp_phy (s : State) (e : Nat) (v : Ep) : (s.setEp e v).phy = s.phy := State.with_hif_phy s _
@[simp] theorem State.setEp_lnk (s : State) (e : Nat) (v : Ep) : (s.setEp e v).lnk = s.lnk := State.with_hif_lnk s _
@[simp] theorem State.setEp_rte (s : State) (e : Nat) (v : Ep) : (s.setEp e v).rte = s.rte := State.with_hif_rte s _
@[simp] theorem State.setEp_sch (s : State) (e : Nat) (v : Ep) : (s.setEp e v).sch = s.sch := State.with_hif_sch s _
@[simp] theorem State.setEp_hif (s : State) (e : Nat) (v : Ep) : (s.setEp e v).hif = { s.hif with eps := Tbl.ins s.hif.eps e v } := State.with_hif_hif s _
@[simp] theorem State.setEp_trn (s : State) (e : Nat) (v : Ep) : (s.setEp e v).trn = s.trn := State.with_hif_trn s _
@[simp] theorem State.setEp_mch (s : State) (e : Nat) (v : Ep) : (s.setEp e v).mch = s.mch := State.with_hif_mch s _
@[simp] theorem State.setEp_rma (s : State) (e : Nat) (v : Ep) : (s.setEp e v).rma = s.rma := State.with_hif_rma s _
@[simp] theorem State.setEp_lck (s : State) (e : Nat) (v : Ep) : (s.setEp e v).lck = s.lck := State.with_hif_lck s _
@[simp] theorem State.setEp_brg (s : State) (e : Nat) (v : Ep) : (s.setEp e v).brg = s.brg := State.with_hif_brg s _
@[simp] theorem State.setEp_col (s : State) (e : Nat) (v : Ep) : (s.setEp e v).col = s.col := State.with_hif_col s _
@[simp] theorem State.setEp_ltl (s : State) (e : Nat) (v : Ep) : (s.setEp e v).ltl = s.ltl := State.with_hif_ltl s _
@[simp] theorem State.setEp_bst (s : State) (e : Nat) (v : Ep) : (s.setEp e v).bst = s.bst := State.with_hif_bst s _
@[simp] theorem State.setEp_mgt (s : State) (e : Nat) (v : Ep) : (s.setEp e v).mgt = s.mgt := State.with_hif_mgt s _
@[simp] theorem State.setEp_xlt (s : State) (e : Nat) (v : Ep) : (s.setEp e v).xlt = s.xlt := State.with_hif_xlt s _
@[simp] theorem State.setEp_out (s : State) (e : Nat) (v : Ep) : (s.setEp e v).out = s.out := State.with_hif_out s _
@[simp] theorem State.setEp_free (s : State) (e : Nat) (v : Ep) : (s.setEp e v).free = s.free := State.with_hif_free s _
@[simp] theorem State.setEp_pending (s : State) (e : Nat) (v : Ep) : (s.setEp e v).pending = s.pending := State.with_hif_pending s _

/-! `State.setXu` -/
@[simp] theorem State.setXu_mode (s : State) (u : Nat) (v : XUnit) : (s.setXu u v).mode = s.mode := State.with_xlt_mode s _
@[simp] theorem State.setXu_glb (s : State) (u : Nat) (v : XUnit) : (s.setXu u v).glb = s.glb := State.with_xlt_glb s _
@[simp] theorem State.setXu_crs (s : State) (u : Nat) (v : XUnit) : (s.setXu u v).crs = s.crs := State.with_xlt_crs s _
@[simp] theorem State.setXu_regs (s : State) (u : Nat) (v : XUnit) : (s.setXu u v).regs = s.regs := State.with_xlt_regs s _
@[simp] theorem State.setXu_sets (s : State) (u : Nat) (v : XUnit) : (s.setXu u v).sets = s.sets := State.with_xlt_sets s _
@[simp] theorem State.setXu_ctrs (s : State) (u : Nat) (v : XUnit) : (s.setXu u v).ctrs = s.ctrs := State.with_xlt_ctrs s _
@[simp] theorem State.setXu_latches (s : State) (u : Nat) (v : XUnit) : (s.setXu u v).latches = s.latches := State.with_xlt_latches s _
@[simp] theorem State.setXu_srcs (s : State) (u : Nat) (v : XUnit) : (s.setXu u v).srcs = s.srcs := State.with_xlt_srcs s _
@[simp] theorem State.setXu_banks (s : State) (u : Nat) (v : XUnit) : (s.setXu u v).banks = s.banks := State.with_xlt_banks s _
@[simp] theorem State.setXu_phy (s : State) (u : Nat) (v : XUnit) : (s.setXu u v).phy = s.phy := State.with_xlt_phy s _
@[simp] theorem State.setXu_lnk (s : State) (u : Nat) (v : XUnit) : (s.setXu u v).lnk = s.lnk := State.with_xlt_lnk s _
@[simp] theorem State.setXu_rte (s : State) (u : Nat) (v : XUnit) : (s.setXu u v).rte = s.rte := State.with_xlt_rte s _
@[simp] theorem State.setXu_sch (s : State) (u : Nat) (v : XUnit) : (s.setXu u v).sch = s.sch := State.with_xlt_sch s _
@[simp] theorem State.setXu_hif (s : State) (u : Nat) (v : XUnit) : (s.setXu u v).hif = s.hif := State.with_xlt_hif s _
@[simp] theorem State.setXu_trn (s : State) (u : Nat) (v : XUnit) : (s.setXu u v).trn = s.trn := State.with_xlt_trn s _
@[simp] theorem State.setXu_mch (s : State) (u : Nat) (v : XUnit) : (s.setXu u v).mch = s.mch := State.with_xlt_mch s _
@[simp] theorem State.setXu_rma (s : State) (u : Nat) (v : XUnit) : (s.setXu u v).rma = s.rma := State.with_xlt_rma s _
@[simp] theorem State.setXu_lck (s : State) (u : Nat) (v : XUnit) : (s.setXu u v).lck = s.lck := State.with_xlt_lck s _
@[simp] theorem State.setXu_brg (s : State) (u : Nat) (v : XUnit) : (s.setXu u v).brg = s.brg := State.with_xlt_brg s _
@[simp] theorem State.setXu_col (s : State) (u : Nat) (v : XUnit) : (s.setXu u v).col = s.col := State.with_xlt_col s _
@[simp] theorem State.setXu_ltl (s : State) (u : Nat) (v : XUnit) : (s.setXu u v).ltl = s.ltl := State.with_xlt_ltl s _
@[simp] theorem State.setXu_bst (s : State) (u : Nat) (v : XUnit) : (s.setXu u v).bst = s.bst := State.with_xlt_bst s _
@[simp] theorem State.setXu_mgt (s : State) (u : Nat) (v : XUnit) : (s.setXu u v).mgt = s.mgt := State.with_xlt_mgt s _
@[simp] theorem State.setXu_xlt (s : State) (u : Nat) (v : XUnit) : (s.setXu u v).xlt = Tbl.put (fun _ => XUnit.reset) s.xlt u v := State.with_xlt_xlt s _
@[simp] theorem State.setXu_out (s : State) (u : Nat) (v : XUnit) : (s.setXu u v).out = s.out := State.with_xlt_out s _
@[simp] theorem State.setXu_free (s : State) (u : Nat) (v : XUnit) : (s.setXu u v).free = s.free := State.with_xlt_free s _
@[simp] theorem State.setXu_pending (s : State) (u : Nat) (v : XUnit) : (s.setXu u v).pending = s.pending := State.with_xlt_pending s _

/-! `State.setInq` -/
@[simp] theorem State.setInq_mode (s : State) (i : Nat) (l : List InPkt) : (s.setInq i l).mode = s.mode := State.with_rte_mode s _
@[simp] theorem State.setInq_glb (s : State) (i : Nat) (l : List InPkt) : (s.setInq i l).glb = s.glb := State.with_rte_glb s _
@[simp] theorem State.setInq_crs (s : State) (i : Nat) (l : List InPkt) : (s.setInq i l).crs = s.crs := State.with_rte_crs s _
@[simp] theorem State.setInq_regs (s : State) (i : Nat) (l : List InPkt) : (s.setInq i l).regs = s.regs := State.with_rte_regs s _
@[simp] theorem State.setInq_sets (s : State) (i : Nat) (l : List InPkt) : (s.setInq i l).sets = s.sets := State.with_rte_sets s _
@[simp] theorem State.setInq_ctrs (s : State) (i : Nat) (l : List InPkt) : (s.setInq i l).ctrs = s.ctrs := State.with_rte_ctrs s _
@[simp] theorem State.setInq_latches (s : State) (i : Nat) (l : List InPkt) : (s.setInq i l).latches = s.latches := State.with_rte_latches s _
@[simp] theorem State.setInq_srcs (s : State) (i : Nat) (l : List InPkt) : (s.setInq i l).srcs = s.srcs := State.with_rte_srcs s _
@[simp] theorem State.setInq_banks (s : State) (i : Nat) (l : List InPkt) : (s.setInq i l).banks = s.banks := State.with_rte_banks s _
@[simp] theorem State.setInq_phy (s : State) (i : Nat) (l : List InPkt) : (s.setInq i l).phy = s.phy := State.with_rte_phy s _
@[simp] theorem State.setInq_lnk (s : State) (i : Nat) (l : List InPkt) : (s.setInq i l).lnk = s.lnk := State.with_rte_lnk s _
@[simp] theorem State.setInq_rte (s : State) (i : Nat) (l : List InPkt) : (s.setInq i l).rte = { s.rte with inq := Tbl.put (fun _ => []) s.rte.inq i l } := State.with_rte_rte s _
@[simp] theorem State.setInq_sch (s : State) (i : Nat) (l : List InPkt) : (s.setInq i l).sch = s.sch := State.with_rte_sch s _
@[simp] theorem State.setInq_hif (s : State) (i : Nat) (l : List InPkt) : (s.setInq i l).hif = s.hif := State.with_rte_hif s _
@[simp] theorem State.setInq_trn (s : State) (i : Nat) (l : List InPkt) : (s.setInq i l).trn = s.trn := State.with_rte_trn s _
@[simp] theorem State.setInq_mch (s : State) (i : Nat) (l : List InPkt) : (s.setInq i l).mch = s.mch := State.with_rte_mch s _
@[simp] theorem State.setInq_rma (s : State) (i : Nat) (l : List InPkt) : (s.setInq i l).rma = s.rma := State.with_rte_rma s _
@[simp] theorem State.setInq_lck (s : State) (i : Nat) (l : List InPkt) : (s.setInq i l).lck = s.lck := State.with_rte_lck s _
@[simp] theorem State.setInq_brg (s : State) (i : Nat) (l : List InPkt) : (s.setInq i l).brg = s.brg := State.with_rte_brg s _
@[simp] theorem State.setInq_col (s : State) (i : Nat) (l : List InPkt) : (s.setInq i l).col = s.col := State.with_rte_col s _
@[simp] theorem State.setInq_ltl (s : State) (i : Nat) (l : List InPkt) : (s.setInq i l).ltl = s.ltl := State.with_rte_ltl s _
@[simp] theorem State.setInq_bst (s : State) (i : Nat) (l : List InPkt) : (s.setInq i l).bst = s.bst := State.with_rte_bst s _
@[simp] theorem State.setInq_mgt (s : State) (i : Nat) (l : List InPkt) : (s.setInq i l).mgt = s.mgt := State.with_rte_mgt s _
@[simp] theorem State.setInq_xlt (s : State) (i : Nat) (l : List InPkt) : (s.setInq i l).xlt = s.xlt := State.with_rte_xlt s _
@[simp] theorem State.setInq_out (s : State) (i : Nat) (l : List InPkt) : (s.setInq i l).out = s.out := State.with_rte_out s _
@[simp] theorem State.setInq_free (s : State) (i : Nat) (l : List InPkt) : (s.setInq i l).free = s.free := State.with_rte_free s _
@[simp] theorem State.setInq_pending (s : State) (i : Nat) (l : List InPkt) : (s.setInq i l).pending = s.pending := State.with_rte_pending s _

/-! `State.setOut` -/
@[simp] theorem State.setOut_mode (s : State) (o : Nat) (v : OutSt) : (s.setOut o v).mode = s.mode := State.with_sch_mode s _
@[simp] theorem State.setOut_glb (s : State) (o : Nat) (v : OutSt) : (s.setOut o v).glb = s.glb := State.with_sch_glb s _
@[simp] theorem State.setOut_crs (s : State) (o : Nat) (v : OutSt) : (s.setOut o v).crs = s.crs := State.with_sch_crs s _
@[simp] theorem State.setOut_regs (s : State) (o : Nat) (v : OutSt) : (s.setOut o v).regs = s.regs := State.with_sch_regs s _
@[simp] theorem State.setOut_sets (s : State) (o : Nat) (v : OutSt) : (s.setOut o v).sets = s.sets := State.with_sch_sets s _
@[simp] theorem State.setOut_ctrs (s : State) (o : Nat) (v : OutSt) : (s.setOut o v).ctrs = s.ctrs := State.with_sch_ctrs s _
@[simp] theorem State.setOut_latches (s : State) (o : Nat) (v : OutSt) : (s.setOut o v).latches = s.latches := State.with_sch_latches s _
@[simp] theorem State.setOut_srcs (s : State) (o : Nat) (v : OutSt) : (s.setOut o v).srcs = s.srcs := State.with_sch_srcs s _
@[simp] theorem State.setOut_banks (s : State) (o : Nat) (v : OutSt) : (s.setOut o v).banks = s.banks := State.with_sch_banks s _
@[simp] theorem State.setOut_phy (s : State) (o : Nat) (v : OutSt) : (s.setOut o v).phy = s.phy := State.with_sch_phy s _
@[simp] theorem State.setOut_lnk (s : State) (o : Nat) (v : OutSt) : (s.setOut o v).lnk = s.lnk := State.with_sch_lnk s _
@[simp] theorem State.setOut_rte (s : State) (o : Nat) (v : OutSt) : (s.setOut o v).rte = s.rte := State.with_sch_rte s _
@[simp] theorem State.setOut_sch (s : State) (o : Nat) (v : OutSt) : (s.setOut o v).sch = { s.sch with outs := Tbl.put (fun _ => OutSt.reset) s.sch.outs o v } := State.with_sch_sch s _
@[simp] theorem State.setOut_hif (s : State) (o : Nat) (v : OutSt) : (s.setOut o v).hif = s.hif := State.with_sch_hif s _
@[simp] theorem State.setOut_trn (s : State) (o : Nat) (v : OutSt) : (s.setOut o v).trn = s.trn := State.with_sch_trn s _
@[simp] theorem State.setOut_mch (s : State) (o : Nat) (v : OutSt) : (s.setOut o v).mch = s.mch := State.with_sch_mch s _
@[simp] theorem State.setOut_rma (s : State) (o : Nat) (v : OutSt) : (s.setOut o v).rma = s.rma := State.with_sch_rma s _
@[simp] theorem State.setOut_lck (s : State) (o : Nat) (v : OutSt) : (s.setOut o v).lck = s.lck := State.with_sch_lck s _
@[simp] theorem State.setOut_brg (s : State) (o : Nat) (v : OutSt) : (s.setOut o v).brg = s.brg := State.with_sch_brg s _
@[simp] theorem State.setOut_col (s : State) (o : Nat) (v : OutSt) : (s.setOut o v).col = s.col := State.with_sch_col s _
@[simp] theorem State.setOut_ltl (s : State) (o : Nat) (v : OutSt) : (s.setOut o v).ltl = s.ltl := State.with_sch_ltl s _
@[simp] theorem State.setOut_bst (s : State) (o : Nat) (v : OutSt) : (s.setOut o v).bst = s.bst := State.with_sch_bst s _
@[simp] theorem State.setOut_mgt (s : State) (o : Nat) (v : OutSt) : (s.setOut o v).mgt = s.mgt := State.with_sch_mgt s _
@[simp] theorem State.setOut_xlt (s : State) (o : Nat) (v : OutSt) : (s.setOut o v).xlt = s.xlt := State.with_sch_xlt s _
@[simp] theorem State.setOut_out (s : State) (o : Nat) (v : OutSt) : (s.setOut o v).out = s.out := State.with_sch_out s _
@[simp] theorem State.setOut_free (s : State) (o : Nat) (v : OutSt) : (s.setOut o v).free = s.free := State.with_sch_free s _
@[simp] theorem State.setOut_pending (s : State) (o : Nat) (v : OutSt) : (s.setOut o v).pending = s.pending := State.with_sch_pending s _

/-! `State.setColTree` -/
@[simp] theorem State.setColTree_mode (s : State) (t : Nat) (v : ColTree) : (s.setColTree t v).mode = s.mode := State.with_col_mode s _
@[simp] theorem State.setColTree_glb (s : State) (t : Nat) (v : ColTree) : (s.setColTree t v).glb = s.glb := State.with_col_glb s _
@[simp] theorem State.setColTree_crs (s : State) (t : Nat) (v : ColTree) : (s.setColTree t v).crs = s.crs := State.with_col_crs s _
@[simp] theorem State.setColTree_regs (s : State) (t : Nat) (v : ColTree) : (s.setColTree t v).regs = s.regs := State.with_col_regs s _
@[simp] theorem State.setColTree_sets (s : State) (t : Nat) (v : ColTree) : (s.setColTree t v).sets = s.sets := State.with_col_sets s _
@[simp] theorem State.setColTree_ctrs (s : State) (t : Nat) (v : ColTree) : (s.setColTree t v).ctrs = s.ctrs := State.with_col_ctrs s _
@[simp] theorem State.setColTree_latches (s : State) (t : Nat) (v : ColTree) : (s.setColTree t v).latches = s.latches := State.with_col_latches s _
@[simp] theorem State.setColTree_srcs (s : State) (t : Nat) (v : ColTree) : (s.setColTree t v).srcs = s.srcs := State.with_col_srcs s _
@[simp] theorem State.setColTree_banks (s : State) (t : Nat) (v : ColTree) : (s.setColTree t v).banks = s.banks := State.with_col_banks s _
@[simp] theorem State.setColTree_phy (s : State) (t : Nat) (v : ColTree) : (s.setColTree t v).phy = s.phy := State.with_col_phy s _
@[simp] theorem State.setColTree_lnk (s : State) (t : Nat) (v : ColTree) : (s.setColTree t v).lnk = s.lnk := State.with_col_lnk s _
@[simp] theorem State.setColTree_rte (s : State) (t : Nat) (v : ColTree) : (s.setColTree t v).rte = s.rte := State.with_col_rte s _
@[simp] theorem State.setColTree_sch (s : State) (t : Nat) (v : ColTree) : (s.setColTree t v).sch = s.sch := State.with_col_sch s _
@[simp] theorem State.setColTree_hif (s : State) (t : Nat) (v : ColTree) : (s.setColTree t v).hif = s.hif := State.with_col_hif s _
@[simp] theorem State.setColTree_trn (s : State) (t : Nat) (v : ColTree) : (s.setColTree t v).trn = s.trn := State.with_col_trn s _
@[simp] theorem State.setColTree_mch (s : State) (t : Nat) (v : ColTree) : (s.setColTree t v).mch = s.mch := State.with_col_mch s _
@[simp] theorem State.setColTree_rma (s : State) (t : Nat) (v : ColTree) : (s.setColTree t v).rma = s.rma := State.with_col_rma s _
@[simp] theorem State.setColTree_lck (s : State) (t : Nat) (v : ColTree) : (s.setColTree t v).lck = s.lck := State.with_col_lck s _
@[simp] theorem State.setColTree_brg (s : State) (t : Nat) (v : ColTree) : (s.setColTree t v).brg = s.brg := State.with_col_brg s _
@[simp] theorem State.setColTree_col (s : State) (t : Nat) (v : ColTree) : (s.setColTree t v).col = { s.col with trees := Tbl.put (fun _ => ColTree.reset) s.col.trees t v } := State.with_col_col s _
@[simp] theorem State.setColTree_ltl (s : State) (t : Nat) (v : ColTree) : (s.setColTree t v).ltl = s.ltl := State.with_col_ltl s _
@[simp] theorem State.setColTree_bst (s : State) (t : Nat) (v : ColTree) : (s.setColTree t v).bst = s.bst := State.with_col_bst s _
@[simp] theorem State.setColTree_mgt (s : State) (t : Nat) (v : ColTree) : (s.setColTree t v).mgt = s.mgt := State.with_col_mgt s _
@[simp] theorem State.setColTree_xlt (s : State) (t : Nat) (v : ColTree) : (s.setColTree t v).xlt = s.xlt := State.with_col_xlt s _
@[simp] theorem State.setColTree_out (s : State) (t : Nat) (v : ColTree) : (s.setColTree t v).out = s.out := State.with_col_out s _
@[simp] theorem State.setColTree_free (s : State) (t : Nat) (v : ColTree) : (s.setColTree t v).free = s.free := State.with_col_free s _
@[simp] theorem State.setColTree_pending (s : State) (t : Nat) (v : ColTree) : (s.setColTree t v).pending = s.pending := State.with_col_pending s _

/-! `State.setCtx` -/
@[simp] theorem State.setCtx_mode (s : State) (k : Nat) (c : Ctx) : (s.setCtx k c).mode = s.mode := State.with_trn_mode s _
@[simp] theorem State.setCtx_glb (s : State) (k : Nat) (c : Ctx) : (s.setCtx k c).glb = s.glb := State.with_trn_glb s _
@[simp] theorem State.setCtx_crs (s : State) (k : Nat) (c : Ctx) : (s.setCtx k c).crs = s.crs := State.with_trn_crs s _
@[simp] theorem State.setCtx_regs (s : State) (k : Nat) (c : Ctx) : (s.setCtx k c).regs = s.regs := State.with_trn_regs s _
@[simp] theorem State.setCtx_sets (s : State) (k : Nat) (c : Ctx) : (s.setCtx k c).sets = s.sets := State.with_trn_sets s _
@[simp] theorem State.setCtx_ctrs (s : State) (k : Nat) (c : Ctx) : (s.setCtx k c).ctrs = s.ctrs := State.with_trn_ctrs s _
@[simp] theorem State.setCtx_latches (s : State) (k : Nat) (c : Ctx) : (s.setCtx k c).latches = s.latches := State.with_trn_latches s _
@[simp] theorem State.setCtx_srcs (s : State) (k : Nat) (c : Ctx) : (s.setCtx k c).srcs = s.srcs := State.with_trn_srcs s _
@[simp] theorem State.setCtx_banks (s : State) (k : Nat) (c : Ctx) : (s.setCtx k c).banks = s.banks := State.with_trn_banks s _
@[simp] theorem State.setCtx_phy (s : State) (k : Nat) (c : Ctx) : (s.setCtx k c).phy = s.phy := State.with_trn_phy s _
@[simp] theorem State.setCtx_lnk (s : State) (k : Nat) (c : Ctx) : (s.setCtx k c).lnk = s.lnk := State.with_trn_lnk s _
@[simp] theorem State.setCtx_rte (s : State) (k : Nat) (c : Ctx) : (s.setCtx k c).rte = s.rte := State.with_trn_rte s _
@[simp] theorem State.setCtx_sch (s : State) (k : Nat) (c : Ctx) : (s.setCtx k c).sch = s.sch := State.with_trn_sch s _
@[simp] theorem State.setCtx_hif (s : State) (k : Nat) (c : Ctx) : (s.setCtx k c).hif = s.hif := State.with_trn_hif s _
@[simp] theorem State.setCtx_trn (s : State) (k : Nat) (c : Ctx) : (s.setCtx k c).trn = { s.trn with ctxs := Tbl.ins s.trn.ctxs k c } := State.with_trn_trn s _
@[simp] theorem State.setCtx_mch (s : State) (k : Nat) (c : Ctx) : (s.setCtx k c).mch = s.mch := State.with_trn_mch s _
@[simp] theorem State.setCtx_rma (s : State) (k : Nat) (c : Ctx) : (s.setCtx k c).rma = s.rma := State.with_trn_rma s _
@[simp] theorem State.setCtx_lck (s : State) (k : Nat) (c : Ctx) : (s.setCtx k c).lck = s.lck := State.with_trn_lck s _
@[simp] theorem State.setCtx_brg (s : State) (k : Nat) (c : Ctx) : (s.setCtx k c).brg = s.brg := State.with_trn_brg s _
@[simp] theorem State.setCtx_col (s : State) (k : Nat) (c : Ctx) : (s.setCtx k c).col = s.col := State.with_trn_col s _
@[simp] theorem State.setCtx_ltl (s : State) (k : Nat) (c : Ctx) : (s.setCtx k c).ltl = s.ltl := State.with_trn_ltl s _
@[simp] theorem State.setCtx_bst (s : State) (k : Nat) (c : Ctx) : (s.setCtx k c).bst = s.bst := State.with_trn_bst s _
@[simp] theorem State.setCtx_mgt (s : State) (k : Nat) (c : Ctx) : (s.setCtx k c).mgt = s.mgt := State.with_trn_mgt s _
@[simp] theorem State.setCtx_xlt (s : State) (k : Nat) (c : Ctx) : (s.setCtx k c).xlt = s.xlt := State.with_trn_xlt s _
@[simp] theorem State.setCtx_out (s : State) (k : Nat) (c : Ctx) : (s.setCtx k c).out = s.out := State.with_trn_out s _
@[simp] theorem State.setCtx_free (s : State) (k : Nat) (c : Ctx) : (s.setCtx k c).free = s.free := State.with_trn_free s _
@[simp] theorem State.setCtx_pending (s : State) (k : Nat) (c : Ctx) : (s.setCtx k c).pending = s.pending := State.with_trn_pending s _

/-! `State.setOp` -/
@[simp] theorem State.setOp_mode (s : State) (i : Nat) (o : Op) : (s.setOp i o).mode = s.mode := State.with_trn_mode s _
@[simp] theorem State.setOp_glb (s : State) (i : Nat) (o : Op) : (s.setOp i o).glb = s.glb := State.with_trn_glb s _
@[simp] theorem State.setOp_crs (s : State) (i : Nat) (o : Op) : (s.setOp i o).crs = s.crs := State.with_trn_crs s _
@[simp] theorem State.setOp_regs (s : State) (i : Nat) (o : Op) : (s.setOp i o).regs = s.regs := State.with_trn_regs s _
@[simp] theorem State.setOp_sets (s : State) (i : Nat) (o : Op) : (s.setOp i o).sets = s.sets := State.with_trn_sets s _
@[simp] theorem State.setOp_ctrs (s : State) (i : Nat) (o : Op) : (s.setOp i o).ctrs = s.ctrs := State.with_trn_ctrs s _
@[simp] theorem State.setOp_latches (s : State) (i : Nat) (o : Op) : (s.setOp i o).latches = s.latches := State.with_trn_latches s _
@[simp] theorem State.setOp_srcs (s : State) (i : Nat) (o : Op) : (s.setOp i o).srcs = s.srcs := State.with_trn_srcs s _
@[simp] theorem State.setOp_banks (s : State) (i : Nat) (o : Op) : (s.setOp i o).banks = s.banks := State.with_trn_banks s _
@[simp] theorem State.setOp_phy (s : State) (i : Nat) (o : Op) : (s.setOp i o).phy = s.phy := State.with_trn_phy s _
@[simp] theorem State.setOp_lnk (s : State) (i : Nat) (o : Op) : (s.setOp i o).lnk = s.lnk := State.with_trn_lnk s _
@[simp] theorem State.setOp_rte (s : State) (i : Nat) (o : Op) : (s.setOp i o).rte = s.rte := State.with_trn_rte s _
@[simp] theorem State.setOp_sch (s : State) (i : Nat) (o : Op) : (s.setOp i o).sch = s.sch := State.with_trn_sch s _
@[simp] theorem State.setOp_hif (s : State) (i : Nat) (o : Op) : (s.setOp i o).hif = s.hif := State.with_trn_hif s _
@[simp] theorem State.setOp_trn (s : State) (i : Nat) (o : Op) : (s.setOp i o).trn = { s.trn with ops := Tbl.ins s.trn.ops i o } := State.with_trn_trn s _
@[simp] theorem State.setOp_mch (s : State) (i : Nat) (o : Op) : (s.setOp i o).mch = s.mch := State.with_trn_mch s _
@[simp] theorem State.setOp_rma (s : State) (i : Nat) (o : Op) : (s.setOp i o).rma = s.rma := State.with_trn_rma s _
@[simp] theorem State.setOp_lck (s : State) (i : Nat) (o : Op) : (s.setOp i o).lck = s.lck := State.with_trn_lck s _
@[simp] theorem State.setOp_brg (s : State) (i : Nat) (o : Op) : (s.setOp i o).brg = s.brg := State.with_trn_brg s _
@[simp] theorem State.setOp_col (s : State) (i : Nat) (o : Op) : (s.setOp i o).col = s.col := State.with_trn_col s _
@[simp] theorem State.setOp_ltl (s : State) (i : Nat) (o : Op) : (s.setOp i o).ltl = s.ltl := State.with_trn_ltl s _
@[simp] theorem State.setOp_bst (s : State) (i : Nat) (o : Op) : (s.setOp i o).bst = s.bst := State.with_trn_bst s _
@[simp] theorem State.setOp_mgt (s : State) (i : Nat) (o : Op) : (s.setOp i o).mgt = s.mgt := State.with_trn_mgt s _
@[simp] theorem State.setOp_xlt (s : State) (i : Nat) (o : Op) : (s.setOp i o).xlt = s.xlt := State.with_trn_xlt s _
@[simp] theorem State.setOp_out (s : State) (i : Nat) (o : Op) : (s.setOp i o).out = s.out := State.with_trn_out s _
@[simp] theorem State.setOp_free (s : State) (i : Nat) (o : Op) : (s.setOp i o).free = s.free := State.with_trn_free s _
@[simp] theorem State.setOp_pending (s : State) (i : Nat) (o : Op) : (s.setOp i o).pending = s.pending := State.with_trn_pending s _

/-! `State.delOp` -/
@[simp] theorem State.delOp_mode (s : State) (i : Nat) : (s.delOp i).mode = s.mode := State.with_trn_mode s _
@[simp] theorem State.delOp_glb (s : State) (i : Nat) : (s.delOp i).glb = s.glb := State.with_trn_glb s _
@[simp] theorem State.delOp_crs (s : State) (i : Nat) : (s.delOp i).crs = s.crs := State.with_trn_crs s _
@[simp] theorem State.delOp_regs (s : State) (i : Nat) : (s.delOp i).regs = s.regs := State.with_trn_regs s _
@[simp] theorem State.delOp_sets (s : State) (i : Nat) : (s.delOp i).sets = s.sets := State.with_trn_sets s _
@[simp] theorem State.delOp_ctrs (s : State) (i : Nat) : (s.delOp i).ctrs = s.ctrs := State.with_trn_ctrs s _
@[simp] theorem State.delOp_latches (s : State) (i : Nat) : (s.delOp i).latches = s.latches := State.with_trn_latches s _
@[simp] theorem State.delOp_srcs (s : State) (i : Nat) : (s.delOp i).srcs = s.srcs := State.with_trn_srcs s _
@[simp] theorem State.delOp_banks (s : State) (i : Nat) : (s.delOp i).banks = s.banks := State.with_trn_banks s _
@[simp] theorem State.delOp_phy (s : State) (i : Nat) : (s.delOp i).phy = s.phy := State.with_trn_phy s _
@[simp] theorem State.delOp_lnk (s : State) (i : Nat) : (s.delOp i).lnk = s.lnk := State.with_trn_lnk s _
@[simp] theorem State.delOp_rte (s : State) (i : Nat) : (s.delOp i).rte = s.rte := State.with_trn_rte s _
@[simp] theorem State.delOp_sch (s : State) (i : Nat) : (s.delOp i).sch = s.sch := State.with_trn_sch s _
@[simp] theorem State.delOp_hif (s : State) (i : Nat) : (s.delOp i).hif = s.hif := State.with_trn_hif s _
@[simp] theorem State.delOp_trn (s : State) (i : Nat) : (s.delOp i).trn = { s.trn with ops := Tbl.del s.trn.ops i } := State.with_trn_trn s _
@[simp] theorem State.delOp_mch (s : State) (i : Nat) : (s.delOp i).mch = s.mch := State.with_trn_mch s _
@[simp] theorem State.delOp_rma (s : State) (i : Nat) : (s.delOp i).rma = s.rma := State.with_trn_rma s _
@[simp] theorem State.delOp_lck (s : State) (i : Nat) : (s.delOp i).lck = s.lck := State.with_trn_lck s _
@[simp] theorem State.delOp_brg (s : State) (i : Nat) : (s.delOp i).brg = s.brg := State.with_trn_brg s _
@[simp] theorem State.delOp_col (s : State) (i : Nat) : (s.delOp i).col = s.col := State.with_trn_col s _
@[simp] theorem State.delOp_ltl (s : State) (i : Nat) : (s.delOp i).ltl = s.ltl := State.with_trn_ltl s _
@[simp] theorem State.delOp_bst (s : State) (i : Nat) : (s.delOp i).bst = s.bst := State.with_trn_bst s _
@[simp] theorem State.delOp_mgt (s : State) (i : Nat) : (s.delOp i).mgt = s.mgt := State.with_trn_mgt s _
@[simp] theorem State.delOp_xlt (s : State) (i : Nat) : (s.delOp i).xlt = s.xlt := State.with_trn_xlt s _
@[simp] theorem State.delOp_out (s : State) (i : Nat) : (s.delOp i).out = s.out := State.with_trn_out s _
@[simp] theorem State.delOp_free (s : State) (i : Nat) : (s.delOp i).free = s.free := State.with_trn_free s _
@[simp] theorem State.delOp_pending (s : State) (i : Nat) : (s.delOp i).pending = s.pending := State.with_trn_pending s _

/-! `State.onMch` -/
@[simp] theorem State.onMch_mode (s : State) (f : Mch → Mch) : (s.onMch f).mode = s.mode := State.with_mch_mode s _
@[simp] theorem State.onMch_glb (s : State) (f : Mch → Mch) : (s.onMch f).glb = s.glb := State.with_mch_glb s _
@[simp] theorem State.onMch_crs (s : State) (f : Mch → Mch) : (s.onMch f).crs = s.crs := State.with_mch_crs s _
@[simp] theorem State.onMch_regs (s : State) (f : Mch → Mch) : (s.onMch f).regs = s.regs := State.with_mch_regs s _
@[simp] theorem State.onMch_sets (s : State) (f : Mch → Mch) : (s.onMch f).sets = s.sets := State.with_mch_sets s _
@[simp] theorem State.onMch_ctrs (s : State) (f : Mch → Mch) : (s.onMch f).ctrs = s.ctrs := State.with_mch_ctrs s _
@[simp] theorem State.onMch_latches (s : State) (f : Mch → Mch) : (s.onMch f).latches = s.latches := State.with_mch_latches s _
@[simp] theorem State.onMch_srcs (s : State) (f : Mch → Mch) : (s.onMch f).srcs = s.srcs := State.with_mch_srcs s _
@[simp] theorem State.onMch_banks (s : State) (f : Mch → Mch) : (s.onMch f).banks = s.banks := State.with_mch_banks s _
@[simp] theorem State.onMch_phy (s : State) (f : Mch → Mch) : (s.onMch f).phy = s.phy := State.with_mch_phy s _
@[simp] theorem State.onMch_lnk (s : State) (f : Mch → Mch) : (s.onMch f).lnk = s.lnk := State.with_mch_lnk s _
@[simp] theorem State.onMch_rte (s : State) (f : Mch → Mch) : (s.onMch f).rte = s.rte := State.with_mch_rte s _
@[simp] theorem State.onMch_sch (s : State) (f : Mch → Mch) : (s.onMch f).sch = s.sch := State.with_mch_sch s _
@[simp] theorem State.onMch_hif (s : State) (f : Mch → Mch) : (s.onMch f).hif = s.hif := State.with_mch_hif s _
@[simp] theorem State.onMch_trn (s : State) (f : Mch → Mch) : (s.onMch f).trn = s.trn := State.with_mch_trn s _
@[simp] theorem State.onMch_mch (s : State) (f : Mch → Mch) : (s.onMch f).mch = f s.mch := State.with_mch_mch s _
@[simp] theorem State.onMch_rma (s : State) (f : Mch → Mch) : (s.onMch f).rma = s.rma := State.with_mch_rma s _
@[simp] theorem State.onMch_lck (s : State) (f : Mch → Mch) : (s.onMch f).lck = s.lck := State.with_mch_lck s _
@[simp] theorem State.onMch_brg (s : State) (f : Mch → Mch) : (s.onMch f).brg = s.brg := State.with_mch_brg s _
@[simp] theorem State.onMch_col (s : State) (f : Mch → Mch) : (s.onMch f).col = s.col := State.with_mch_col s _
@[simp] theorem State.onMch_ltl (s : State) (f : Mch → Mch) : (s.onMch f).ltl = s.ltl := State.with_mch_ltl s _
@[simp] theorem State.onMch_bst (s : State) (f : Mch → Mch) : (s.onMch f).bst = s.bst := State.with_mch_bst s _
@[simp] theorem State.onMch_mgt (s : State) (f : Mch → Mch) : (s.onMch f).mgt = s.mgt := State.with_mch_mgt s _
@[simp] theorem State.onMch_xlt (s : State) (f : Mch → Mch) : (s.onMch f).xlt = s.xlt := State.with_mch_xlt s _
@[simp] theorem State.onMch_out (s : State) (f : Mch → Mch) : (s.onMch f).out = s.out := State.with_mch_out s _
@[simp] theorem State.onMch_free (s : State) (f : Mch → Mch) : (s.onMch f).free = s.free := State.with_mch_free s _
@[simp] theorem State.onMch_pending (s : State) (f : Mch → Mch) : (s.onMch f).pending = s.pending := State.with_mch_pending s _

/-! `State.takeArr` -/
@[simp] theorem State.takeArr_mode (s : State) (a : Arr) : (s.takeArr a).mode = s.mode := State.with_trn_mode s _
@[simp] theorem State.takeArr_glb (s : State) (a : Arr) : (s.takeArr a).glb = s.glb := State.with_trn_glb s _
@[simp] theorem State.takeArr_crs (s : State) (a : Arr) : (s.takeArr a).crs = s.crs := State.with_trn_crs s _
@[simp] theorem State.takeArr_regs (s : State) (a : Arr) : (s.takeArr a).regs = s.regs := State.with_trn_regs s _
@[simp] theorem State.takeArr_sets (s : State) (a : Arr) : (s.takeArr a).sets = s.sets := State.with_trn_sets s _
@[simp] theorem State.takeArr_ctrs (s : State) (a : Arr) : (s.takeArr a).ctrs = s.ctrs := State.with_trn_ctrs s _
@[simp] theorem State.takeArr_latches (s : State) (a : Arr) : (s.takeArr a).latches = s.latches := State.with_trn_latches s _
@[simp] theorem State.takeArr_srcs (s : State) (a : Arr) : (s.takeArr a).srcs = s.srcs := State.with_trn_srcs s _
@[simp] theorem State.takeArr_banks (s : State) (a : Arr) : (s.takeArr a).banks = s.banks := State.with_trn_banks s _
@[simp] theorem State.takeArr_phy (s : State) (a : Arr) : (s.takeArr a).phy = s.phy := State.with_trn_phy s _
@[simp] theorem State.takeArr_lnk (s : State) (a : Arr) : (s.takeArr a).lnk = s.lnk := State.with_trn_lnk s _
@[simp] theorem State.takeArr_rte (s : State) (a : Arr) : (s.takeArr a).rte = s.rte := State.with_trn_rte s _
@[simp] theorem State.takeArr_sch (s : State) (a : Arr) : (s.takeArr a).sch = s.sch := State.with_trn_sch s _
@[simp] theorem State.takeArr_hif (s : State) (a : Arr) : (s.takeArr a).hif = s.hif := State.with_trn_hif s _
@[simp] theorem State.takeArr_trn (s : State) (a : Arr) : (s.takeArr a).trn = { s.trn with accepted := s.trn.accepted.erase a } := State.with_trn_trn s _
@[simp] theorem State.takeArr_mch (s : State) (a : Arr) : (s.takeArr a).mch = s.mch := State.with_trn_mch s _
@[simp] theorem State.takeArr_rma (s : State) (a : Arr) : (s.takeArr a).rma = s.rma := State.with_trn_rma s _
@[simp] theorem State.takeArr_lck (s : State) (a : Arr) : (s.takeArr a).lck = s.lck := State.with_trn_lck s _
@[simp] theorem State.takeArr_brg (s : State) (a : Arr) : (s.takeArr a).brg = s.brg := State.with_trn_brg s _
@[simp] theorem State.takeArr_col (s : State) (a : Arr) : (s.takeArr a).col = s.col := State.with_trn_col s _
@[simp] theorem State.takeArr_ltl (s : State) (a : Arr) : (s.takeArr a).ltl = s.ltl := State.with_trn_ltl s _
@[simp] theorem State.takeArr_bst (s : State) (a : Arr) : (s.takeArr a).bst = s.bst := State.with_trn_bst s _
@[simp] theorem State.takeArr_mgt (s : State) (a : Arr) : (s.takeArr a).mgt = s.mgt := State.with_trn_mgt s _
@[simp] theorem State.takeArr_xlt (s : State) (a : Arr) : (s.takeArr a).xlt = s.xlt := State.with_trn_xlt s _
@[simp] theorem State.takeArr_out (s : State) (a : Arr) : (s.takeArr a).out = s.out := State.with_trn_out s _
@[simp] theorem State.takeArr_free (s : State) (a : Arr) : (s.takeArr a).free = s.free := State.with_trn_free s _
@[simp] theorem State.takeArr_pending (s : State) (a : Arr) : (s.takeArr a).pending = s.pending := State.with_trn_pending s _

/-! `State.onRma` -/
@[simp] theorem State.onRma_mode (s : State) (f : Rma → Rma) : (s.onRma f).mode = s.mode := State.with_rma_mode s _
@[simp] theorem State.onRma_glb (s : State) (f : Rma → Rma) : (s.onRma f).glb = s.glb := State.with_rma_glb s _
@[simp] theorem State.onRma_crs (s : State) (f : Rma → Rma) : (s.onRma f).crs = s.crs := State.with_rma_crs s _
@[simp] theorem State.onRma_regs (s : State) (f : Rma → Rma) : (s.onRma f).regs = s.regs := State.with_rma_regs s _
@[simp] theorem State.onRma_sets (s : State) (f : Rma → Rma) : (s.onRma f).sets = s.sets := State.with_rma_sets s _
@[simp] theorem State.onRma_ctrs (s : State) (f : Rma → Rma) : (s.onRma f).ctrs = s.ctrs := State.with_rma_ctrs s _
@[simp] theorem State.onRma_latches (s : State) (f : Rma → Rma) : (s.onRma f).latches = s.latches := State.with_rma_latches s _
@[simp] theorem State.onRma_srcs (s : State) (f : Rma → Rma) : (s.onRma f).srcs = s.srcs := State.with_rma_srcs s _
@[simp] theorem State.onRma_banks (s : State) (f : Rma → Rma) : (s.onRma f).banks = s.banks := State.with_rma_banks s _
@[simp] theorem State.onRma_phy (s : State) (f : Rma → Rma) : (s.onRma f).phy = s.phy := State.with_rma_phy s _
@[simp] theorem State.onRma_lnk (s : State) (f : Rma → Rma) : (s.onRma f).lnk = s.lnk := State.with_rma_lnk s _
@[simp] theorem State.onRma_rte (s : State) (f : Rma → Rma) : (s.onRma f).rte = s.rte := State.with_rma_rte s _
@[simp] theorem State.onRma_sch (s : State) (f : Rma → Rma) : (s.onRma f).sch = s.sch := State.with_rma_sch s _
@[simp] theorem State.onRma_hif (s : State) (f : Rma → Rma) : (s.onRma f).hif = s.hif := State.with_rma_hif s _
@[simp] theorem State.onRma_trn (s : State) (f : Rma → Rma) : (s.onRma f).trn = s.trn := State.with_rma_trn s _
@[simp] theorem State.onRma_mch (s : State) (f : Rma → Rma) : (s.onRma f).mch = s.mch := State.with_rma_mch s _
@[simp] theorem State.onRma_rma (s : State) (f : Rma → Rma) : (s.onRma f).rma = f s.rma := State.with_rma_rma s _
@[simp] theorem State.onRma_lck (s : State) (f : Rma → Rma) : (s.onRma f).lck = s.lck := State.with_rma_lck s _
@[simp] theorem State.onRma_brg (s : State) (f : Rma → Rma) : (s.onRma f).brg = s.brg := State.with_rma_brg s _
@[simp] theorem State.onRma_col (s : State) (f : Rma → Rma) : (s.onRma f).col = s.col := State.with_rma_col s _
@[simp] theorem State.onRma_ltl (s : State) (f : Rma → Rma) : (s.onRma f).ltl = s.ltl := State.with_rma_ltl s _
@[simp] theorem State.onRma_bst (s : State) (f : Rma → Rma) : (s.onRma f).bst = s.bst := State.with_rma_bst s _
@[simp] theorem State.onRma_mgt (s : State) (f : Rma → Rma) : (s.onRma f).mgt = s.mgt := State.with_rma_mgt s _
@[simp] theorem State.onRma_xlt (s : State) (f : Rma → Rma) : (s.onRma f).xlt = s.xlt := State.with_rma_xlt s _
@[simp] theorem State.onRma_out (s : State) (f : Rma → Rma) : (s.onRma f).out = s.out := State.with_rma_out s _
@[simp] theorem State.onRma_free (s : State) (f : Rma → Rma) : (s.onRma f).free = s.free := State.with_rma_free s _
@[simp] theorem State.onRma_pending (s : State) (f : Rma → Rma) : (s.onRma f).pending = s.pending := State.with_rma_pending s _

/-! `State.setCell` -/
@[simp] theorem State.setCell_mode (s : State) (c : Nat) (v : Cell) : (s.setCell c v).mode = s.mode := State.with_lck_mode s _
@[simp] theorem State.setCell_glb (s : State) (c : Nat) (v : Cell) : (s.setCell c v).glb = s.glb := State.with_lck_glb s _
@[simp] theorem State.setCell_crs (s : State) (c : Nat) (v : Cell) : (s.setCell c v).crs = s.crs := State.with_lck_crs s _
@[simp] theorem State.setCell_regs (s : State) (c : Nat) (v : Cell) : (s.setCell c v).regs = s.regs := State.with_lck_regs s _
@[simp] theorem State.setCell_sets (s : State) (c : Nat) (v : Cell) : (s.setCell c v).sets = s.sets := State.with_lck_sets s _
@[simp] theorem State.setCell_ctrs (s : State) (c : Nat) (v : Cell) : (s.setCell c v).ctrs = s.ctrs := State.with_lck_ctrs s _
@[simp] theorem State.setCell_latches (s : State) (c : Nat) (v : Cell) : (s.setCell c v).latches = s.latches := State.with_lck_latches s _
@[simp] theorem State.setCell_srcs (s : State) (c : Nat) (v : Cell) : (s.setCell c v).srcs = s.srcs := State.with_lck_srcs s _
@[simp] theorem State.setCell_banks (s : State) (c : Nat) (v : Cell) : (s.setCell c v).banks = s.banks := State.with_lck_banks s _
@[simp] theorem State.setCell_phy (s : State) (c : Nat) (v : Cell) : (s.setCell c v).phy = s.phy := State.with_lck_phy s _
@[simp] theorem State.setCell_lnk (s : State) (c : Nat) (v : Cell) : (s.setCell c v).lnk = s.lnk := State.with_lck_lnk s _
@[simp] theorem State.setCell_rte (s : State) (c : Nat) (v : Cell) : (s.setCell c v).rte = s.rte := State.with_lck_rte s _
@[simp] theorem State.setCell_sch (s : State) (c : Nat) (v : Cell) : (s.setCell c v).sch = s.sch := State.with_lck_sch s _
@[simp] theorem State.setCell_hif (s : State) (c : Nat) (v : Cell) : (s.setCell c v).hif = s.hif := State.with_lck_hif s _
@[simp] theorem State.setCell_trn (s : State) (c : Nat) (v : Cell) : (s.setCell c v).trn = s.trn := State.with_lck_trn s _
@[simp] theorem State.setCell_mch (s : State) (c : Nat) (v : Cell) : (s.setCell c v).mch = s.mch := State.with_lck_mch s _
@[simp] theorem State.setCell_rma (s : State) (c : Nat) (v : Cell) : (s.setCell c v).rma = s.rma := State.with_lck_rma s _
@[simp] theorem State.setCell_lck (s : State) (c : Nat) (v : Cell) : (s.setCell c v).lck = { s.lck with cells := Tbl.put (fun _ => Cell.reset) s.lck.cells c v } := State.with_lck_lck s _
@[simp] theorem State.setCell_brg (s : State) (c : Nat) (v : Cell) : (s.setCell c v).brg = s.brg := State.with_lck_brg s _
@[simp] theorem State.setCell_col (s : State) (c : Nat) (v : Cell) : (s.setCell c v).col = s.col := State.with_lck_col s _
@[simp] theorem State.setCell_ltl (s : State) (c : Nat) (v : Cell) : (s.setCell c v).ltl = s.ltl := State.with_lck_ltl s _
@[simp] theorem State.setCell_bst (s : State) (c : Nat) (v : Cell) : (s.setCell c v).bst = s.bst := State.with_lck_bst s _
@[simp] theorem State.setCell_mgt (s : State) (c : Nat) (v : Cell) : (s.setCell c v).mgt = s.mgt := State.with_lck_mgt s _
@[simp] theorem State.setCell_xlt (s : State) (c : Nat) (v : Cell) : (s.setCell c v).xlt = s.xlt := State.with_lck_xlt s _
@[simp] theorem State.setCell_out (s : State) (c : Nat) (v : Cell) : (s.setCell c v).out = s.out := State.with_lck_out s _
@[simp] theorem State.setCell_free (s : State) (c : Nat) (v : Cell) : (s.setCell c v).free = s.free := State.with_lck_free s _
@[simp] theorem State.setCell_pending (s : State) (c : Nat) (v : Cell) : (s.setCell c v).pending = s.pending := State.with_lck_pending s _

/-! `State.setRec` -/
@[simp] theorem State.setRec_mode (s : State) (i : Nat) (r : Option FlRec) : (s.setRec i r).mode = s.mode := State.with_lck_mode s _
@[simp] theorem State.setRec_glb (s : State) (i : Nat) (r : Option FlRec) : (s.setRec i r).glb = s.glb := State.with_lck_glb s _
@[simp] theorem State.setRec_crs (s : State) (i : Nat) (r : Option FlRec) : (s.setRec i r).crs = s.crs := State.with_lck_crs s _
@[simp] theorem State.setRec_regs (s : State) (i : Nat) (r : Option FlRec) : (s.setRec i r).regs = s.regs := State.with_lck_regs s _
@[simp] theorem State.setRec_sets (s : State) (i : Nat) (r : Option FlRec) : (s.setRec i r).sets = s.sets := State.with_lck_sets s _
@[simp] theorem State.setRec_ctrs (s : State) (i : Nat) (r : Option FlRec) : (s.setRec i r).ctrs = s.ctrs := State.with_lck_ctrs s _
@[simp] theorem State.setRec_latches (s : State) (i : Nat) (r : Option FlRec) : (s.setRec i r).latches = s.latches := State.with_lck_latches s _
@[simp] theorem State.setRec_srcs (s : State) (i : Nat) (r : Option FlRec) : (s.setRec i r).srcs = s.srcs := State.with_lck_srcs s _
@[simp] theorem State.setRec_banks (s : State) (i : Nat) (r : Option FlRec) : (s.setRec i r).banks = s.banks := State.with_lck_banks s _
@[simp] theorem State.setRec_phy (s : State) (i : Nat) (r : Option FlRec) : (s.setRec i r).phy = s.phy := State.with_lck_phy s _
@[simp] theorem State.setRec_lnk (s : State) (i : Nat) (r : Option FlRec) : (s.setRec i r).lnk = s.lnk := State.with_lck_lnk s _
@[simp] theorem State.setRec_rte (s : State) (i : Nat) (r : Option FlRec) : (s.setRec i r).rte = s.rte := State.with_lck_rte s _
@[simp] theorem State.setRec_sch (s : State) (i : Nat) (r : Option FlRec) : (s.setRec i r).sch = s.sch := State.with_lck_sch s _
@[simp] theorem State.setRec_hif (s : State) (i : Nat) (r : Option FlRec) : (s.setRec i r).hif = s.hif := State.with_lck_hif s _
@[simp] theorem State.setRec_trn (s : State) (i : Nat) (r : Option FlRec) : (s.setRec i r).trn = s.trn := State.with_lck_trn s _
@[simp] theorem State.setRec_mch (s : State) (i : Nat) (r : Option FlRec) : (s.setRec i r).mch = s.mch := State.with_lck_mch s _
@[simp] theorem State.setRec_rma (s : State) (i : Nat) (r : Option FlRec) : (s.setRec i r).rma = s.rma := State.with_lck_rma s _
@[simp] theorem State.setRec_lck (s : State) (i : Nat) (r : Option FlRec) : (s.setRec i r).lck = { s.lck with recs := Tbl.upd s.lck.recs i r } := State.with_lck_lck s _
@[simp] theorem State.setRec_brg (s : State) (i : Nat) (r : Option FlRec) : (s.setRec i r).brg = s.brg := State.with_lck_brg s _
@[simp] theorem State.setRec_col (s : State) (i : Nat) (r : Option FlRec) : (s.setRec i r).col = s.col := State.with_lck_col s _
@[simp] theorem State.setRec_ltl (s : State) (i : Nat) (r : Option FlRec) : (s.setRec i r).ltl = s.ltl := State.with_lck_ltl s _
@[simp] theorem State.setRec_bst (s : State) (i : Nat) (r : Option FlRec) : (s.setRec i r).bst = s.bst := State.with_lck_bst s _
@[simp] theorem State.setRec_mgt (s : State) (i : Nat) (r : Option FlRec) : (s.setRec i r).mgt = s.mgt := State.with_lck_mgt s _
@[simp] theorem State.setRec_xlt (s : State) (i : Nat) (r : Option FlRec) : (s.setRec i r).xlt = s.xlt := State.with_lck_xlt s _
@[simp] theorem State.setRec_out (s : State) (i : Nat) (r : Option FlRec) : (s.setRec i r).out = s.out := State.with_lck_out s _
@[simp] theorem State.setRec_free (s : State) (i : Nat) (r : Option FlRec) : (s.setRec i r).free = s.free := State.with_lck_free s _
@[simp] theorem State.setRec_pending (s : State) (i : Nat) (r : Option FlRec) : (s.setRec i r).pending = s.pending := State.with_lck_pending s _

/-! `State.onBrg` -/
@[simp] theorem State.onBrg_mode (s : State) (f : Brg → Brg) : (s.onBrg f).mode = s.mode := State.with_brg_mode s _
@[simp] theorem State.onBrg_glb (s : State) (f : Brg → Brg) : (s.onBrg f).glb = s.glb := State.with_brg_glb s _
@[simp] theorem State.onBrg_crs (s : State) (f : Brg → Brg) : (s.onBrg f).crs = s.crs := State.with_brg_crs s _
@[simp] theorem State.onBrg_regs (s : State) (f : Brg → Brg) : (s.onBrg f).regs = s.regs := State.with_brg_regs s _
@[simp] theorem State.onBrg_sets (s : State) (f : Brg → Brg) : (s.onBrg f).sets = s.sets := State.with_brg_sets s _
@[simp] theorem State.onBrg_ctrs (s : State) (f : Brg → Brg) : (s.onBrg f).ctrs = s.ctrs := State.with_brg_ctrs s _
@[simp] theorem State.onBrg_latches (s : State) (f : Brg → Brg) : (s.onBrg f).latches = s.latches := State.with_brg_latches s _
@[simp] theorem State.onBrg_srcs (s : State) (f : Brg → Brg) : (s.onBrg f).srcs = s.srcs := State.with_brg_srcs s _
@[simp] theorem State.onBrg_banks (s : State) (f : Brg → Brg) : (s.onBrg f).banks = s.banks := State.with_brg_banks s _
@[simp] theorem State.onBrg_phy (s : State) (f : Brg → Brg) : (s.onBrg f).phy = s.phy := State.with_brg_phy s _
@[simp] theorem State.onBrg_lnk (s : State) (f : Brg → Brg) : (s.onBrg f).lnk = s.lnk := State.with_brg_lnk s _
@[simp] theorem State.onBrg_rte (s : State) (f : Brg → Brg) : (s.onBrg f).rte = s.rte := State.with_brg_rte s _
@[simp] theorem State.onBrg_sch (s : State) (f : Brg → Brg) : (s.onBrg f).sch = s.sch := State.with_brg_sch s _
@[simp] theorem State.onBrg_hif (s : State) (f : Brg → Brg) : (s.onBrg f).hif = s.hif := State.with_brg_hif s _
@[simp] theorem State.onBrg_trn (s : State) (f : Brg → Brg) : (s.onBrg f).trn = s.trn := State.with_brg_trn s _
@[simp] theorem State.onBrg_mch (s : State) (f : Brg → Brg) : (s.onBrg f).mch = s.mch := State.with_brg_mch s _
@[simp] theorem State.onBrg_rma (s : State) (f : Brg → Brg) : (s.onBrg f).rma = s.rma := State.with_brg_rma s _
@[simp] theorem State.onBrg_lck (s : State) (f : Brg → Brg) : (s.onBrg f).lck = s.lck := State.with_brg_lck s _
@[simp] theorem State.onBrg_brg (s : State) (f : Brg → Brg) : (s.onBrg f).brg = f s.brg := State.with_brg_brg s _
@[simp] theorem State.onBrg_col (s : State) (f : Brg → Brg) : (s.onBrg f).col = s.col := State.with_brg_col s _
@[simp] theorem State.onBrg_ltl (s : State) (f : Brg → Brg) : (s.onBrg f).ltl = s.ltl := State.with_brg_ltl s _
@[simp] theorem State.onBrg_bst (s : State) (f : Brg → Brg) : (s.onBrg f).bst = s.bst := State.with_brg_bst s _
@[simp] theorem State.onBrg_mgt (s : State) (f : Brg → Brg) : (s.onBrg f).mgt = s.mgt := State.with_brg_mgt s _
@[simp] theorem State.onBrg_xlt (s : State) (f : Brg → Brg) : (s.onBrg f).xlt = s.xlt := State.with_brg_xlt s _
@[simp] theorem State.onBrg_out (s : State) (f : Brg → Brg) : (s.onBrg f).out = s.out := State.with_brg_out s _
@[simp] theorem State.onBrg_free (s : State) (f : Brg → Brg) : (s.onBrg f).free = s.free := State.with_brg_free s _
@[simp] theorem State.onBrg_pending (s : State) (f : Brg → Brg) : (s.onBrg f).pending = s.pending := State.with_brg_pending s _

/-! `State.setFetch` -/
@[simp] theorem State.setFetch_mode (s : State) (p : Nat) (f : Option Fetch) : (s.setFetch p f).mode = s.mode := State.with_mgt_mode s _
@[simp] theorem State.setFetch_glb (s : State) (p : Nat) (f : Option Fetch) : (s.setFetch p f).glb = s.glb := State.with_mgt_glb s _
@[simp] theorem State.setFetch_crs (s : State) (p : Nat) (f : Option Fetch) : (s.setFetch p f).crs = s.crs := State.with_mgt_crs s _
@[simp] theorem State.setFetch_regs (s : State) (p : Nat) (f : Option Fetch) : (s.setFetch p f).regs = s.regs := State.with_mgt_regs s _
@[simp] theorem State.setFetch_sets (s : State) (p : Nat) (f : Option Fetch) : (s.setFetch p f).sets = s.sets := State.with_mgt_sets s _
@[simp] theorem State.setFetch_ctrs (s : State) (p : Nat) (f : Option Fetch) : (s.setFetch p f).ctrs = s.ctrs := State.with_mgt_ctrs s _
@[simp] theorem State.setFetch_latches (s : State) (p : Nat) (f : Option Fetch) : (s.setFetch p f).latches = s.latches := State.with_mgt_latches s _
@[simp] theorem State.setFetch_srcs (s : State) (p : Nat) (f : Option Fetch) : (s.setFetch p f).srcs = s.srcs := State.with_mgt_srcs s _
@[simp] theorem State.setFetch_banks (s : State) (p : Nat) (f : Option Fetch) : (s.setFetch p f).banks = s.banks := State.with_mgt_banks s _
@[simp] theorem State.setFetch_phy (s : State) (p : Nat) (f : Option Fetch) : (s.setFetch p f).phy = s.phy := State.with_mgt_phy s _
@[simp] theorem State.setFetch_lnk (s : State) (p : Nat) (f : Option Fetch) : (s.setFetch p f).lnk = s.lnk := State.with_mgt_lnk s _
@[simp] theorem State.setFetch_rte (s : State) (p : Nat) (f : Option Fetch) : (s.setFetch p f).rte = s.rte := State.with_mgt_rte s _
@[simp] theorem State.setFetch_sch (s : State) (p : Nat) (f : Option Fetch) : (s.setFetch p f).sch = s.sch := State.with_mgt_sch s _
@[simp] theorem State.setFetch_hif (s : State) (p : Nat) (f : Option Fetch) : (s.setFetch p f).hif = s.hif := State.with_mgt_hif s _
@[simp] theorem State.setFetch_trn (s : State) (p : Nat) (f : Option Fetch) : (s.setFetch p f).trn = s.trn := State.with_mgt_trn s _
@[simp] theorem State.setFetch_mch (s : State) (p : Nat) (f : Option Fetch) : (s.setFetch p f).mch = s.mch := State.with_mgt_mch s _
@[simp] theorem State.setFetch_rma (s : State) (p : Nat) (f : Option Fetch) : (s.setFetch p f).rma = s.rma := State.with_mgt_rma s _
@[simp] theorem State.setFetch_lck (s : State) (p : Nat) (f : Option Fetch) : (s.setFetch p f).lck = s.lck := State.with_mgt_lck s _
@[simp] theorem State.setFetch_brg (s : State) (p : Nat) (f : Option Fetch) : (s.setFetch p f).brg = s.brg := State.with_mgt_brg s _
@[simp] theorem State.setFetch_col (s : State) (p : Nat) (f : Option Fetch) : (s.setFetch p f).col = s.col := State.with_mgt_col s _
@[simp] theorem State.setFetch_ltl (s : State) (p : Nat) (f : Option Fetch) : (s.setFetch p f).ltl = s.ltl := State.with_mgt_ltl s _
@[simp] theorem State.setFetch_bst (s : State) (p : Nat) (f : Option Fetch) : (s.setFetch p f).bst = s.bst := State.with_mgt_bst s _
@[simp] theorem State.setFetch_mgt (s : State) (p : Nat) (f : Option Fetch) : (s.setFetch p f).mgt = { s.mgt with fetch := Tbl.upd s.mgt.fetch p f } := State.with_mgt_mgt s _
@[simp] theorem State.setFetch_xlt (s : State) (p : Nat) (f : Option Fetch) : (s.setFetch p f).xlt = s.xlt := State.with_mgt_xlt s _
@[simp] theorem State.setFetch_out (s : State) (p : Nat) (f : Option Fetch) : (s.setFetch p f).out = s.out := State.with_mgt_out s _
@[simp] theorem State.setFetch_free (s : State) (p : Nat) (f : Option Fetch) : (s.setFetch p f).free = s.free := State.with_mgt_free s _
@[simp] theorem State.setFetch_pending (s : State) (p : Nat) (f : Option Fetch) : (s.setFetch p f).pending = s.pending := State.with_mgt_pending s _

/-! `State.setEgress` -/
@[simp] theorem State.setEgress_mode (s : State) (p : Nat) (l : List LtlSend) : (s.setEgress p l).mode = s.mode := State.with_ltl_mode s _
@[simp] theorem State.setEgress_glb (s : State) (p : Nat) (l : List LtlSend) : (s.setEgress p l).glb = s.glb := State.with_ltl_glb s _
@[simp] theorem State.setEgress_crs (s : State) (p : Nat) (l : List LtlSend) : (s.setEgress p l).crs = s.crs := State.with_ltl_crs s _
@[simp] theorem State.setEgress_regs (s : State) (p : Nat) (l : List LtlSend) : (s.setEgress p l).regs = s.regs := State.with_ltl_regs s _
@[simp] theorem State.setEgress_sets (s : State) (p : Nat) (l : List LtlSend) : (s.setEgress p l).sets = s.sets := State.with_ltl_sets s _
@[simp] theorem State.setEgress_ctrs (s : State) (p : Nat) (l : List LtlSend) : (s.setEgress p l).ctrs = s.ctrs := State.with_ltl_ctrs s _
@[simp] theorem State.setEgress_latches (s : State) (p : Nat) (l : List LtlSend) : (s.setEgress p l).latches = s.latches := State.with_ltl_latches s _
@[simp] theorem State.setEgress_srcs (s : State) (p : Nat) (l : List LtlSend) : (s.setEgress p l).srcs = s.srcs := State.with_ltl_srcs s _
@[simp] theorem State.setEgress_banks (s : State) (p : Nat) (l : List LtlSend) : (s.setEgress p l).banks = s.banks := State.with_ltl_banks s _
@[simp] theorem State.setEgress_phy (s : State) (p : Nat) (l : List LtlSend) : (s.setEgress p l).phy = s.phy := State.with_ltl_phy s _
@[simp] theorem State.setEgress_lnk (s : State) (p : Nat) (l : List LtlSend) : (s.setEgress p l).lnk = s.lnk := State.with_ltl_lnk s _
@[simp] theorem State.setEgress_rte (s : State) (p : Nat) (l : List LtlSend) : (s.setEgress p l).rte = s.rte := State.with_ltl_rte s _
@[simp] theorem State.setEgress_sch (s : State) (p : Nat) (l : List LtlSend) : (s.setEgress p l).sch = s.sch := State.with_ltl_sch s _
@[simp] theorem State.setEgress_hif (s : State) (p : Nat) (l : List LtlSend) : (s.setEgress p l).hif = s.hif := State.with_ltl_hif s _
@[simp] theorem State.setEgress_trn (s : State) (p : Nat) (l : List LtlSend) : (s.setEgress p l).trn = s.trn := State.with_ltl_trn s _
@[simp] theorem State.setEgress_mch (s : State) (p : Nat) (l : List LtlSend) : (s.setEgress p l).mch = s.mch := State.with_ltl_mch s _
@[simp] theorem State.setEgress_rma (s : State) (p : Nat) (l : List LtlSend) : (s.setEgress p l).rma = s.rma := State.with_ltl_rma s _
@[simp] theorem State.setEgress_lck (s : State) (p : Nat) (l : List LtlSend) : (s.setEgress p l).lck = s.lck := State.with_ltl_lck s _
@[simp] theorem State.setEgress_brg (s : State) (p : Nat) (l : List LtlSend) : (s.setEgress p l).brg = s.brg := State.with_ltl_brg s _
@[simp] theorem State.setEgress_col (s : State) (p : Nat) (l : List LtlSend) : (s.setEgress p l).col = s.col := State.with_ltl_col s _
@[simp] theorem State.setEgress_ltl (s : State) (p : Nat) (l : List LtlSend) : (s.setEgress p l).ltl = { s.ltl with egress := Tbl.put (fun _ => []) s.ltl.egress p l } := State.with_ltl_ltl s _
@[simp] theorem State.setEgress_bst (s : State) (p : Nat) (l : List LtlSend) : (s.setEgress p l).bst = s.bst := State.with_ltl_bst s _
@[simp] theorem State.setEgress_mgt (s : State) (p : Nat) (l : List LtlSend) : (s.setEgress p l).mgt = s.mgt := State.with_ltl_mgt s _
@[simp] theorem State.setEgress_xlt (s : State) (p : Nat) (l : List LtlSend) : (s.setEgress p l).xlt = s.xlt := State.with_ltl_xlt s _
@[simp] theorem State.setEgress_out (s : State) (p : Nat) (l : List LtlSend) : (s.setEgress p l).out = s.out := State.with_ltl_out s _
@[simp] theorem State.setEgress_free (s : State) (p : Nat) (l : List LtlSend) : (s.setEgress p l).free = s.free := State.with_ltl_free s _
@[simp] theorem State.setEgress_pending (s : State) (p : Nat) (l : List LtlSend) : (s.setEgress p l).pending = s.pending := State.with_ltl_pending s _

/-! `State.setBox` -/
@[simp] theorem State.setBox_mode (s : State) (m : Nat) (b : Mailbox) : (s.setBox m b).mode = s.mode := State.with_mgt_mode s _
@[simp] theorem State.setBox_glb (s : State) (m : Nat) (b : Mailbox) : (s.setBox m b).glb = s.glb := State.with_mgt_glb s _
@[simp] theorem State.setBox_crs (s : State) (m : Nat) (b : Mailbox) : (s.setBox m b).crs = s.crs := State.with_mgt_crs s _
@[simp] theorem State.setBox_regs (s : State) (m : Nat) (b : Mailbox) : (s.setBox m b).regs = s.regs := State.with_mgt_regs s _
@[simp] theorem State.setBox_sets (s : State) (m : Nat) (b : Mailbox) : (s.setBox m b).sets = s.sets := State.with_mgt_sets s _
@[simp] theorem State.setBox_ctrs (s : State) (m : Nat) (b : Mailbox) : (s.setBox m b).ctrs = s.ctrs := State.with_mgt_ctrs s _
@[simp] theorem State.setBox_latches (s : State) (m : Nat) (b : Mailbox) : (s.setBox m b).latches = s.latches := State.with_mgt_latches s _
@[simp] theorem State.setBox_srcs (s : State) (m : Nat) (b : Mailbox) : (s.setBox m b).srcs = s.srcs := State.with_mgt_srcs s _
@[simp] theorem State.setBox_banks (s : State) (m : Nat) (b : Mailbox) : (s.setBox m b).banks = s.banks := State.with_mgt_banks s _
@[simp] theorem State.setBox_phy (s : State) (m : Nat) (b : Mailbox) : (s.setBox m b).phy = s.phy := State.with_mgt_phy s _
@[simp] theorem State.setBox_lnk (s : State) (m : Nat) (b : Mailbox) : (s.setBox m b).lnk = s.lnk := State.with_mgt_lnk s _
@[simp] theorem State.setBox_rte (s : State) (m : Nat) (b : Mailbox) : (s.setBox m b).rte = s.rte := State.with_mgt_rte s _
@[simp] theorem State.setBox_sch (s : State) (m : Nat) (b : Mailbox) : (s.setBox m b).sch = s.sch := State.with_mgt_sch s _
@[simp] theorem State.setBox_hif (s : State) (m : Nat) (b : Mailbox) : (s.setBox m b).hif = s.hif := State.with_mgt_hif s _
@[simp] theorem State.setBox_trn (s : State) (m : Nat) (b : Mailbox) : (s.setBox m b).trn = s.trn := State.with_mgt_trn s _
@[simp] theorem State.setBox_mch (s : State) (m : Nat) (b : Mailbox) : (s.setBox m b).mch = s.mch := State.with_mgt_mch s _
@[simp] theorem State.setBox_rma (s : State) (m : Nat) (b : Mailbox) : (s.setBox m b).rma = s.rma := State.with_mgt_rma s _
@[simp] theorem State.setBox_lck (s : State) (m : Nat) (b : Mailbox) : (s.setBox m b).lck = s.lck := State.with_mgt_lck s _
@[simp] theorem State.setBox_brg (s : State) (m : Nat) (b : Mailbox) : (s.setBox m b).brg = s.brg := State.with_mgt_brg s _
@[simp] theorem State.setBox_col (s : State) (m : Nat) (b : Mailbox) : (s.setBox m b).col = s.col := State.with_mgt_col s _
@[simp] theorem State.setBox_ltl (s : State) (m : Nat) (b : Mailbox) : (s.setBox m b).ltl = s.ltl := State.with_mgt_ltl s _
@[simp] theorem State.setBox_bst (s : State) (m : Nat) (b : Mailbox) : (s.setBox m b).bst = s.bst := State.with_mgt_bst s _
@[simp] theorem State.setBox_mgt (s : State) (m : Nat) (b : Mailbox) : (s.setBox m b).mgt = { s.mgt with boxes := Tbl.put (fun _ => Mailbox.reset) s.mgt.boxes m b } := State.with_mgt_mgt s _
@[simp] theorem State.setBox_xlt (s : State) (m : Nat) (b : Mailbox) : (s.setBox m b).xlt = s.xlt := State.with_mgt_xlt s _
@[simp] theorem State.setBox_out (s : State) (m : Nat) (b : Mailbox) : (s.setBox m b).out = s.out := State.with_mgt_out s _
@[simp] theorem State.setBox_free (s : State) (m : Nat) (b : Mailbox) : (s.setBox m b).free = s.free := State.with_mgt_free s _
@[simp] theorem State.setBox_pending (s : State) (m : Nat) (b : Mailbox) : (s.setBox m b).pending = s.pending := State.with_mgt_pending s _

/-! `State.resetWords` -/
@[simp] theorem State.resetWords_mode (s : State) (lo hi : Nat) : (s.resetWords lo hi).mode = s.mode := State.with_regs_mode s _
@[simp] theorem State.resetWords_glb (s : State) (lo hi : Nat) : (s.resetWords lo hi).glb = s.glb := State.with_regs_glb s _
@[simp] theorem State.resetWords_crs (s : State) (lo hi : Nat) : (s.resetWords lo hi).crs = s.crs := State.with_regs_crs s _
@[simp] theorem State.resetWords_regs (s : State) (lo hi : Nat) : (s.resetWords lo hi).regs = s.regs.filter (fun e => !(decide (lo ≤ e.1) && decide (e.1 < hi))) := State.with_regs_regs s _
@[simp] theorem State.resetWords_sets (s : State) (lo hi : Nat) : (s.resetWords lo hi).sets = s.sets := State.with_regs_sets s _
@[simp] theorem State.resetWords_ctrs (s : State) (lo hi : Nat) : (s.resetWords lo hi).ctrs = s.ctrs := State.with_regs_ctrs s _
@[simp] theorem State.resetWords_latches (s : State) (lo hi : Nat) : (s.resetWords lo hi).latches = s.latches := State.with_regs_latches s _
@[simp] theorem State.resetWords_srcs (s : State) (lo hi : Nat) : (s.resetWords lo hi).srcs = s.srcs := State.with_regs_srcs s _
@[simp] theorem State.resetWords_banks (s : State) (lo hi : Nat) : (s.resetWords lo hi).banks = s.banks := State.with_regs_banks s _
@[simp] theorem State.resetWords_phy (s : State) (lo hi : Nat) : (s.resetWords lo hi).phy = s.phy := State.with_regs_phy s _
@[simp] theorem State.resetWords_lnk (s : State) (lo hi : Nat) : (s.resetWords lo hi).lnk = s.lnk := State.with_regs_lnk s _
@[simp] theorem State.resetWords_rte (s : State) (lo hi : Nat) : (s.resetWords lo hi).rte = s.rte := State.with_regs_rte s _
@[simp] theorem State.resetWords_sch (s : State) (lo hi : Nat) : (s.resetWords lo hi).sch = s.sch := State.with_regs_sch s _
@[simp] theorem State.resetWords_hif (s : State) (lo hi : Nat) : (s.resetWords lo hi).hif = s.hif := State.with_regs_hif s _
@[simp] theorem State.resetWords_trn (s : State) (lo hi : Nat) : (s.resetWords lo hi).trn = s.trn := State.with_regs_trn s _
@[simp] theorem State.resetWords_mch (s : State) (lo hi : Nat) : (s.resetWords lo hi).mch = s.mch := State.with_regs_mch s _
@[simp] theorem State.resetWords_rma (s : State) (lo hi : Nat) : (s.resetWords lo hi).rma = s.rma := State.with_regs_rma s _
@[simp] theorem State.resetWords_lck (s : State) (lo hi : Nat) : (s.resetWords lo hi).lck = s.lck := State.with_regs_lck s _
@[simp] theorem State.resetWords_brg (s : State) (lo hi : Nat) : (s.resetWords lo hi).brg = s.brg := State.with_regs_brg s _
@[simp] theorem State.resetWords_col (s : State) (lo hi : Nat) : (s.resetWords lo hi).col = s.col := State.with_regs_col s _
@[simp] theorem State.resetWords_ltl (s : State) (lo hi : Nat) : (s.resetWords lo hi).ltl = s.ltl := State.with_regs_ltl s _
@[simp] theorem State.resetWords_bst (s : State) (lo hi : Nat) : (s.resetWords lo hi).bst = s.bst := State.with_regs_bst s _
@[simp] theorem State.resetWords_mgt (s : State) (lo hi : Nat) : (s.resetWords lo hi).mgt = s.mgt := State.with_regs_mgt s _
@[simp] theorem State.resetWords_xlt (s : State) (lo hi : Nat) : (s.resetWords lo hi).xlt = s.xlt := State.with_regs_xlt s _
@[simp] theorem State.resetWords_out (s : State) (lo hi : Nat) : (s.resetWords lo hi).out = s.out := State.with_regs_out s _
@[simp] theorem State.resetWords_free (s : State) (lo hi : Nat) : (s.resetWords lo hi).free = s.free := State.with_regs_free s _
@[simp] theorem State.resetWords_pending (s : State) (lo hi : Nat) : (s.resetWords lo hi).pending = s.pending := State.with_regs_pending s _

/-! `State.onMon` -/
@[simp] theorem State.onMon_mode (s : State) (f : Mon → Mon) : (s.onMon f).mode = s.mode := State.with_mgt_mode s _
@[simp] theorem State.onMon_glb (s : State) (f : Mon → Mon) : (s.onMon f).glb = s.glb := State.with_mgt_glb s _
@[simp] theorem State.onMon_crs (s : State) (f : Mon → Mon) : (s.onMon f).crs = s.crs := State.with_mgt_crs s _
@[simp] theorem State.onMon_regs (s : State) (f : Mon → Mon) : (s.onMon f).regs = s.regs := State.with_mgt_regs s _
@[simp] theorem State.onMon_sets (s : State) (f : Mon → Mon) : (s.onMon f).sets = s.sets := State.with_mgt_sets s _
@[simp] theorem State.onMon_ctrs (s : State) (f : Mon → Mon) : (s.onMon f).ctrs = s.ctrs := State.with_mgt_ctrs s _
@[simp] theorem State.onMon_latches (s : State) (f : Mon → Mon) : (s.onMon f).latches = s.latches := State.with_mgt_latches s _
@[simp] theorem State.onMon_srcs (s : State) (f : Mon → Mon) : (s.onMon f).srcs = s.srcs := State.with_mgt_srcs s _
@[simp] theorem State.onMon_banks (s : State) (f : Mon → Mon) : (s.onMon f).banks = s.banks := State.with_mgt_banks s _
@[simp] theorem State.onMon_phy (s : State) (f : Mon → Mon) : (s.onMon f).phy = s.phy := State.with_mgt_phy s _
@[simp] theorem State.onMon_lnk (s : State) (f : Mon → Mon) : (s.onMon f).lnk = s.lnk := State.with_mgt_lnk s _
@[simp] theorem State.onMon_rte (s : State) (f : Mon → Mon) : (s.onMon f).rte = s.rte := State.with_mgt_rte s _
@[simp] theorem State.onMon_sch (s : State) (f : Mon → Mon) : (s.onMon f).sch = s.sch := State.with_mgt_sch s _
@[simp] theorem State.onMon_hif (s : State) (f : Mon → Mon) : (s.onMon f).hif = s.hif := State.with_mgt_hif s _
@[simp] theorem State.onMon_trn (s : State) (f : Mon → Mon) : (s.onMon f).trn = s.trn := State.with_mgt_trn s _
@[simp] theorem State.onMon_mch (s : State) (f : Mon → Mon) : (s.onMon f).mch = s.mch := State.with_mgt_mch s _
@[simp] theorem State.onMon_rma (s : State) (f : Mon → Mon) : (s.onMon f).rma = s.rma := State.with_mgt_rma s _
@[simp] theorem State.onMon_lck (s : State) (f : Mon → Mon) : (s.onMon f).lck = s.lck := State.with_mgt_lck s _
@[simp] theorem State.onMon_brg (s : State) (f : Mon → Mon) : (s.onMon f).brg = s.brg := State.with_mgt_brg s _
@[simp] theorem State.onMon_col (s : State) (f : Mon → Mon) : (s.onMon f).col = s.col := State.with_mgt_col s _
@[simp] theorem State.onMon_ltl (s : State) (f : Mon → Mon) : (s.onMon f).ltl = s.ltl := State.with_mgt_ltl s _
@[simp] theorem State.onMon_bst (s : State) (f : Mon → Mon) : (s.onMon f).bst = s.bst := State.with_mgt_bst s _
@[simp] theorem State.onMon_mgt (s : State) (f : Mon → Mon) : (s.onMon f).mgt = { s.mgt with mon := f s.mgt.mon } := State.with_mgt_mgt s _
@[simp] theorem State.onMon_xlt (s : State) (f : Mon → Mon) : (s.onMon f).xlt = s.xlt := State.with_mgt_xlt s _
@[simp] theorem State.onMon_out (s : State) (f : Mon → Mon) : (s.onMon f).out = s.out := State.with_mgt_out s _
@[simp] theorem State.onMon_free (s : State) (f : Mon → Mon) : (s.onMon f).free = s.free := State.with_mgt_free s _
@[simp] theorem State.onMon_pending (s : State) (f : Mon → Mon) : (s.onMon f).pending = s.pending := State.with_mgt_pending s _

end Sys2Proof.Machine
end

