-- ==== Sys2Proof/Laws/Table.lean ====
section
/-! SUPPORT. What the operations over sparse tables do: what a key reads as after them, and that they keep the canonical form. -/
namespace Sys2Proof.Machine

theorem Tbl.find?_ins_self {α : Type} (t : Tbl α) (a : Nat) (v : α) : Tbl.find? (Tbl.ins t a v) a = some v := by
  induction t with
  | nil => simp [Tbl.ins, Tbl.find?]
  | cons e t ih =>
    obtain ⟨k, w⟩ := e
    simp only [Tbl.ins]
    split
    · simp [Tbl.find?]
    · split
      · simp [Tbl.find?]
      · next h => simp [Tbl.find?, h, ih]

theorem Tbl.find?_ins_ne {α : Type} (t : Tbl α) {a b : Nat} (v : α) (h : a ≠ b) :
    Tbl.find? (Tbl.ins t a v) b = Tbl.find? t b := by
  induction t with
  | nil => simp [Tbl.ins, Tbl.find?, h]
  | cons e t ih =>
    obtain ⟨k, w⟩ := e
    simp only [Tbl.ins]
    split
    · simp [Tbl.find?, h]
    · split
      · next h2 => subst h2; simp [Tbl.find?, h]
      · simp only [Tbl.find?, ih]

theorem Tbl.find?_del_self {α : Type} (t : Tbl α) (a : Nat) : Tbl.find? (Tbl.del t a) a = none := by
  induction t with
  | nil => rfl
  | cons e t ih =>
    obtain ⟨k, w⟩ := e
    by_cases h : k = a
    · subst h
      have : Tbl.del ((k, w) :: t) k = Tbl.del t k := by simp [Tbl.del]
      rw [this, ih]
    · have : Tbl.del ((k, w) :: t) a = (k, w) :: Tbl.del t a := by simp [Tbl.del, h]
      simp [this, Tbl.find?, h, ih]

theorem Tbl.find?_del_ne {α : Type} (t : Tbl α) {a b : Nat} (h : a ≠ b) : Tbl.find? (Tbl.del t a) b = Tbl.find? t b := by
  induction t with
  | nil => rfl
  | cons e t ih =>
    obtain ⟨k, w⟩ := e
    by_cases hk : k = a
    · subst hk
      have : Tbl.del ((k, w) :: t) k = Tbl.del t k := by simp [Tbl.del]
      simp [this, Tbl.find?, h, ih]
    · have : Tbl.del ((k, w) :: t) a = (k, w) :: Tbl.del t a := by simp [Tbl.del, hk]
      simp only [this, Tbl.find?, ih]

/-- A key that was set reads as what it was set to. -/
@[simp] theorem Tbl.get_put_self {α : Type} [DecidableEq α] (d : Nat → α) (t : Tbl α) (a : Nat) (v : α) :
    Tbl.get d (Tbl.put d t a v) a = v := by
  simp only [Tbl.get, Tbl.put]
  split
  · next h => simp [Tbl.find?_del_self, h]
  · simp [Tbl.find?_ins_self]

/-- Setting a key leaves every other key. -/
theorem Tbl.get_put_ne {α : Type} [DecidableEq α] (d : Nat → α) (t : Tbl α) {a b : Nat} (v : α) (h : a ≠ b) :
    Tbl.get d (Tbl.put d t a v) b = Tbl.get d t b := by
  simp only [Tbl.get, Tbl.put]
  split
  · rw [Tbl.find?_del_ne t h]
  · rw [Tbl.find?_ins_ne t v h]

theorem Tbl.mem_ins {α : Type} {t : Tbl α} {a : Nat} {v : α} {e : Nat × α} (h : e ∈ Tbl.ins t a v) : e = (a, v) ∨ e ∈ t := by
  induction t with
  | nil => simpa [Tbl.ins] using h
  | cons x t ih =>
    obtain ⟨k, w⟩ := x
    simp only [Tbl.ins] at h
    split at h
    · simpa using h
    · split at h
      · rcases List.mem_cons.1 h with h | h
        · exact .inl h
        · exact .inr (List.mem_cons_of_mem _ h)
      · rcases List.mem_cons.1 h with h | h
        · exact .inr (h ▸ List.mem_cons_self)
        · rcases ih h with h | h
          · exact .inl h
          · exact .inr (List.mem_cons_of_mem _ h)

theorem Tbl.ins_rising {α : Type} {t : Tbl α} (a : Nat) (v : α) (h : t.Pairwise (fun x y => x.1 < y.1)) :
    (Tbl.ins t a v).Pairwise (fun x y => x.1 < y.1) := by
  induction t with
  | nil => simp [Tbl.ins]
  | cons x t ih =>
    obtain ⟨k, w⟩ := x
    have ht := List.pairwise_cons.1 h
    simp only [Tbl.ins]
    split
    · next hk =>
      refine List.pairwise_cons.2 ⟨fun e he => ?_, h⟩
      rcases List.mem_cons.1 he with he | he
      · subst he; exact hk
      · exact Nat.lt_trans hk (ht.1 e he)
    · split
      · next hk => subst hk; exact List.pairwise_cons.2 ⟨ht.1, ht.2⟩
      · next h1 h2 =>
        refine List.pairwise_cons.2 ⟨fun e he => ?_, ih ht.2⟩
        rcases Tbl.mem_ins he with he | he
        · subst he; simp only []; omega
        · exact ht.1 e he

/-- Listing a value other than the unlisted one keeps the canonical form. -/
theorem Tbl.ins_wf {α : Type} {d : Nat → α} {t : Tbl α} {a : Nat} {v : α} (h : Tbl.wf d t) (hv : v ≠ d a) : Tbl.wf d (Tbl.ins t a v) := by
  refine ⟨Tbl.ins_rising a v h.1, fun e he => ?_⟩
  rcases Tbl.mem_ins he with he | he
  · subst he; exact hv
  · exact h.2 e he

/-- Leaving entries out keeps the canonical form. -/
theorem Tbl.filter_wf {α : Type} {d : Nat → α} {t : Tbl α} (p : Nat × α → Bool) (h : Tbl.wf d t) : Tbl.wf d (t.filter p) :=
  ⟨h.1.sublist List.filter_sublist, fun e he => h.2 e (List.mem_filter.1 he).1⟩

theorem Tbl.del_wf {α : Type} {d : Nat → α} {t : Tbl α} (a : Nat) (h : Tbl.wf d t) : Tbl.wf d (Tbl.del t a) := Tbl.filter_wf _ h

/-- Setting a key keeps the canonical form. -/
theorem Tbl.put_wf {α : Type} [DecidableEq α] {d : Nat → α} {t : Tbl α} (a : Nat) (v : α) (h : Tbl.wf d t) :
    Tbl.wf d (Tbl.put d t a v) := by
  simp only [Tbl.put]
  split
  · exact Tbl.del_wf a h
  · next hv => exact Tbl.ins_wf h hv

theorem Tbl.nil_wf {α : Type} (d : Nat → α) : Tbl.wf d ([] : Tbl α) := ⟨List.Pairwise.nil, fun _ h => nomatch h⟩

/-- Listing many values, each other than the unlisted one, keeps the canonical form. -/
theorem Tbl.foldl_ins_wf {α β : Type} {d : Nat → α} (key : β → Nat) (val : β → α) (l : List β) (t : Tbl α) (h : Tbl.wf d t)
    (hl : ∀ x ∈ l, val x ≠ d (key x)) : Tbl.wf d (l.foldl (fun t x => Tbl.ins t (key x) (val x)) t) := by
  induction l generalizing t with
  | nil => exact h
  | cons x l ih =>
    exact ih _ (Tbl.ins_wf h (hl x List.mem_cons_self)) (fun y hy => hl y (List.mem_cons_of_mem _ hy))

end Sys2Proof.Machine
end

