-- ==== Sys2Proof/Laws/Keeps.lean ====
section
/-! SUPPORT. What every operation of the machine keeps, whatever the command: the queue, the outputs given, the free values
drawn, the canonical form of the tables, the bounds of the course counter and the active set, the mode but for a reset, the
set-up lock and the thermal trip. This file: the relation and the operations that every other is built of. -/
namespace Sys2Proof.Machine

/-- From state `a` on, the work of one command up to state `s` has kept what no operation may break; `r` says that a reset of the
whole device may have been part of it. -/
structure Keeps (r : Prop) (a s : State) : Prop where
  queue : s.pending = a.pending
  outs : a.out <+: s.out
  frees : a.free ≤ s.free
  canon : Sys2Proof.canonical a → Sys2Proof.canonical s
  clock : Sys2Proof.clockOk a → Sys2Proof.clockOk s
  mode : s.mode = a.mode ∨ r ∧ (s.mode = .off ∨ s.mode = .strap)
  lock : a.glb.lock = true → s.glb.lock = true ∨ r ∧ (s.mode = .off ∨ s.mode = .strap)
  trip : a.glb.trip = true → s.glb.trip = true

theorem Keeps.refl {r : Prop} (a : State) : Keeps r a a :=
  ⟨rfl, List.prefix_refl _, Nat.le_refl _, id, id, .inl rfl, .inl, id⟩

/-- An update of the parts that `Keeps` does not speak of. -/
theorem Keeps.upd {r : Prop} {a s : State} (h : Keeps r a s) {lat phy rte sch hif trn mch rma lck brg col ltl bst mgt} :
    Keeps r a (State.mk s.mode s.glb s.crs s.regs s.sets s.ctrs lat s.srcs s.banks phy s.lnk rte sch hif trn mch rma lck brg col ltl bst
      mgt s.xlt s.out s.free s.pending) :=
  ⟨h.queue, h.outs, h.frees, h.canon, h.clock, h.mode, h.lock, h.trip⟩

/-- An update of the course unit that leaves the cycle and the active set. -/
theorem Keeps.updCrs {r : Prop} {a s : State} (h : Keeps r a s) {lat phy rte sch hif trn mch rma lck brg col ltl bst mgt
    c_course c_ball c_multiRoot c_lost c_stepped c_stepDone c_aligned c_globalDepth c_localDepth c_deep c_parent c_rootValid
    c_rootRank c_rootId c_follow c_phaseErr c_phase c_avgSum c_avgCount c_errCourse c_goodRun c_badRun c_rxMarks c_txMarks
    c_stepFrom c_stepTo c_armErr c_errCode c_armed c_copyBusy c_copyFrom c_copies c_epoch c_busyEnd} : Keeps r a (State.mk
    s.mode s.glb (Crs.mk c_course s.crs.cycle c_ball c_multiRoot c_lost c_stepped c_stepDone c_aligned c_globalDepth
    c_localDepth c_deep c_parent c_rootValid c_rootRank c_rootId c_follow c_phaseErr c_phase c_avgSum c_avgCount c_errCourse
    c_goodRun c_badRun c_rxMarks c_txMarks c_stepFrom c_stepTo c_armErr c_errCode c_armed c_copyBusy c_copyFrom c_copies
    s.crs.active c_epoch c_busyEnd) s.regs s.sets s.ctrs lat s.srcs s.banks phy s.lnk rte sch hif trn mch rma lck brg col ltl
    bst mgt s.xlt s.out s.free s.pending) :=
  ⟨h.queue, h.outs, h.frees, h.canon, h.clock, h.mode, h.lock, h.trip⟩

/-- An update of the global block that leaves the lock and the trip. -/
theorem Keeps.updGlb {r : Prop} {a s : State} (h : Keeps r a s) {lat phy rte sch hif trn mch rma lck brg col ltl bst mgt
    g_prevMode g_cause g_reqErr g_refusedMode g_reqPending g_requester g_target g_reqCourse g_reqOld g_fencePend g_fenceAsk
    g_fenceFrom g_fenceTxOff g_strapBoot g_strapHpmode g_strapTimeroot g_ballBoot g_ballHpmode g_ballTimeroot g_resetN
    g_railCore g_railLane g_railIo g_temps g_gpioPins g_gpioIn g_tap g_perstN g_hpStatus} : Keeps r a (State.mk s.mode (Glb.mk
    g_prevMode g_cause g_reqErr g_refusedMode g_reqPending g_requester g_target g_reqCourse g_reqOld s.glb.lock g_fencePend
    g_fenceAsk g_fenceFrom g_fenceTxOff g_strapBoot g_strapHpmode g_strapTimeroot g_ballBoot g_ballHpmode g_ballTimeroot
    g_resetN g_railCore g_railLane g_railIo s.glb.trip g_temps g_gpioPins g_gpioIn g_tap g_perstN g_hpStatus) s.crs s.regs
    s.sets s.ctrs lat s.srcs s.banks phy s.lnk rte sch hif trn mch rma lck brg col ltl bst mgt s.xlt s.out s.free s.pending)
    :=
  ⟨h.queue, h.outs, h.frees, h.canon, h.clock, h.mode, h.lock, h.trip⟩

/-- Both. -/
theorem Keeps.updBoth {r : Prop} {a s : State} (h : Keeps r a s) {lat phy rte sch hif trn mch rma lck brg col ltl bst mgt
    g_prevMode g_cause g_reqErr g_refusedMode g_reqPending g_requester g_target g_reqCourse g_reqOld g_fencePend g_fenceAsk
    g_fenceFrom g_fenceTxOff g_strapBoot g_strapHpmode g_strapTimeroot g_ballBoot g_ballHpmode g_ballTimeroot g_resetN
    g_railCore g_railLane g_railIo g_temps g_gpioPins g_gpioIn g_tap g_perstN g_hpStatus c_course c_ball c_multiRoot c_lost
    c_stepped c_stepDone c_aligned c_globalDepth c_localDepth c_deep c_parent c_rootValid c_rootRank c_rootId c_follow
    c_phaseErr c_phase c_avgSum c_avgCount c_errCourse c_goodRun c_badRun c_rxMarks c_txMarks c_stepFrom c_stepTo c_armErr
    c_errCode c_armed c_copyBusy c_copyFrom c_copies c_epoch c_busyEnd} : Keeps r a (State.mk s.mode (Glb.mk g_prevMode
    g_cause g_reqErr g_refusedMode g_reqPending g_requester g_target g_reqCourse g_reqOld s.glb.lock g_fencePend g_fenceAsk
    g_fenceFrom g_fenceTxOff g_strapBoot g_strapHpmode g_strapTimeroot g_ballBoot g_ballHpmode g_ballTimeroot g_resetN
    g_railCore g_railLane g_railIo s.glb.trip g_temps g_gpioPins g_gpioIn g_tap g_perstN g_hpStatus) (Crs.mk c_course
    s.crs.cycle c_ball c_multiRoot c_lost c_stepped c_stepDone c_aligned c_globalDepth c_localDepth c_deep c_parent
    c_rootValid c_rootRank c_rootId c_follow c_phaseErr c_phase c_avgSum c_avgCount c_errCourse c_goodRun c_badRun c_rxMarks
    c_txMarks c_stepFrom c_stepTo c_armErr c_errCode c_armed c_copyBusy c_copyFrom c_copies s.crs.active c_epoch c_busyEnd)
    s.regs s.sets s.ctrs lat s.srcs s.banks phy s.lnk rte sch hif trn mch rma lck brg col ltl bst mgt s.xlt s.out s.free
    s.pending) :=
  ⟨h.queue, h.outs, h.frees, h.canon, h.clock, h.mode, h.lock, h.trip⟩

theorem Keeps.with_regs {r : Prop} {a s : State} (h : Keeps r a s) (x) (hx : Tbl.wf resetWord s.regs → Tbl.wf resetWord x) : Keeps r a { s with regs := x } :=
  ⟨h.queue, h.outs, h.frees, fun k => let ⟨k1, k2, k3, k4, k5, k6, k7⟩ := h.canon k; ⟨hx k1, k2, k3, k4, k5, k6, k7⟩, h.clock, h.mode, h.lock, h.trip⟩

theorem Keeps.with_sets {r : Prop} {a s : State} (h : Keeps r a s) (x) (hx : Tbl.wf resetSet s.sets → Tbl.wf resetSet x) : Keeps r a { s with sets := x } :=
  ⟨h.queue, h.outs, h.frees, fun k => let ⟨k1, k2, k3, k4, k5, k6, k7⟩ := h.canon k; ⟨k1, hx k2, k3, k4, k5, k6, k7⟩, h.clock, h.mode, h.lock, h.trip⟩

theorem Keeps.with_ctrs {r : Prop} {a s : State} (h : Keeps r a s) (x) (hx : Tbl.wf (fun _ => 0) s.ctrs → Tbl.wf (fun _ => 0) x) : Keeps r a { s with ctrs := x } :=
  ⟨h.queue, h.outs, h.frees, fun k => let ⟨k1, k2, k3, k4, k5, k6, k7⟩ := h.canon k; ⟨k1, k2, hx k3, k4, k5, k6, k7⟩, h.clock, h.mode, h.lock, h.trip⟩

theorem Keeps.with_srcs {r : Prop} {a s : State} (h : Keeps r a s) (x) (hx : Tbl.wf Src.reset s.srcs → Tbl.wf Src.reset x) : Keeps r a { s with srcs := x } :=
  ⟨h.queue, h.outs, h.frees, fun k => let ⟨k1, k2, k3, k4, k5, k6, k7⟩ := h.canon k; ⟨k1, k2, k3, hx k4, k5, k6, k7⟩, h.clock, h.mode, h.lock, h.trip⟩

theorem Keeps.with_banks {r : Prop} {a s : State} (h : Keeps r a s) (x) (hx : Tbl.wf (fun _ => Bank.reset) s.banks → Tbl.wf (fun _ => Bank.reset) x) : Keeps r a { s with banks := x } :=
  ⟨h.queue, h.outs, h.frees, fun k => let ⟨k1, k2, k3, k4, k5, k6, k7⟩ := h.canon k; ⟨k1, k2, k3, k4, hx k5, k6, k7⟩, h.clock, h.mode, h.lock, h.trip⟩

theorem Keeps.with_lnk {r : Prop} {a s : State} (h : Keeps r a s) (x) (hx : Tbl.wf (fun _ => Lnk.reset) s.lnk → Tbl.wf (fun _ => Lnk.reset) x) : Keeps r a { s with lnk := x } :=
  ⟨h.queue, h.outs, h.frees, fun k => let ⟨k1, k2, k3, k4, k5, k6, k7⟩ := h.canon k; ⟨k1, k2, k3, k4, k5, hx k6, k7⟩, h.clock, h.mode, h.lock, h.trip⟩

theorem Keeps.with_xlt {r : Prop} {a s : State} (h : Keeps r a s) (x) (hx : Tbl.wf (fun _ => XUnit.reset) s.xlt → Tbl.wf (fun _ => XUnit.reset) x) : Keeps r a { s with xlt := x } :=
  ⟨h.queue, h.outs, h.frees, fun k => let ⟨k1, k2, k3, k4, k5, k6, k7⟩ := h.canon k; ⟨k1, k2, k3, k4, k5, k6, hx k7⟩, h.clock, h.mode, h.lock, h.trip⟩

theorem State.setWord_keeps {r : Prop} {a s : State} (off v : Nat) (h : Keeps r a s) : Keeps r a (s.setWord off v) := by
  unfold State.setWord; exact h.with_regs _ (fun k => Tbl.put_wf _ _ k)

theorem State.resetWords_keeps {r : Prop} {a s : State} (lo hi : Nat) (h : Keeps r a s) : Keeps r a (s.resetWords lo hi) := by
  unfold State.resetWords; exact h.with_regs _ (fun k => Tbl.filter_wf _ k)

theorem State.putSetW_keeps {r : Prop} {a s : State} (set off v : Nat) (h : Keeps r a s) : Keeps r a (s.putSetW set off v) := by
  unfold State.putSetW; exact h.with_sets _ (fun k => Tbl.put_wf _ _ k)

theorem State.bumpBy_keeps {r : Prop} {a s : State} (off n : Nat) (h : Keeps r a s) : Keeps r a (s.bumpBy off n) := by
  unfold State.bumpBy; exact h.with_ctrs _ (fun k => Tbl.put_wf _ _ k)

theorem State.setSrc_keeps {r : Prop} {a s : State} (g : Nat) (v : Src) (h : Keeps r a s) : Keeps r a (s.setSrc g v) := by
  unfold State.setSrc; exact h.with_srcs _ (fun k => Tbl.put_wf _ _ k)

theorem State.setBank_keeps {r : Prop} {a s : State} (code : Nat) (b : Bank) (h : Keeps r a s) : Keeps r a (s.setBank code b) := by
  unfold State.setBank; exact h.with_banks _ (fun k => Tbl.put_wf _ _ k)

theorem State.setLk_keeps {r : Prop} {a s : State} (p : Nat) (l : Lnk) (h : Keeps r a s) : Keeps r a (s.setLk p l) := by
  unfold State.setLk; exact h.with_lnk _ (fun k => Tbl.put_wf _ _ k)

theorem State.setXu_keeps {r : Prop} {a s : State} (u : Nat) (v : XUnit) (h : Keeps r a s) : Keeps r a (s.setXu u v) := by
  unfold State.setXu; exact h.with_xlt _ (fun k => Tbl.put_wf _ _ k)

theorem State.emit_keeps {r : Prop} {a s : State} (o : Out) (h : Keeps r a s) : Keeps r a (s.emit o) := by
  unfold State.emit
  exact ⟨h.queue, h.outs.trans (List.prefix_append _ _), h.frees, h.canon, h.clock, h.mode, h.lock, h.trip⟩

theorem State.draw_keeps {r : Prop} {a s : State} (h : Keeps r a s) : Keeps r a s.draw.2 := by
  unfold State.draw
  exact ⟨h.queue, h.outs, Nat.le_succ_of_le h.frees, h.canon, h.clock, h.mode, h.lock, h.trip⟩

theorem Keeps.ite {r : Prop} {a x y : State} {c : Prop} [Decidable c] (hx : c → Keeps r a x) (hy : ¬ c → Keeps r a y) : Keeps r a (if c then x else y) := by
  split
  · exact hx ‹_›
  · exact hy ‹_›

theorem Keeps.foldl {β : Type} {r : Prop} {a s : State} {f : State → β → State} {l : List β} (hs : Keeps r a s)
    (hf : ∀ u x, Keeps r a u → Keeps r a (f u x)) : Keeps r a (l.foldl f s) := by
  induction l generalizing s with
  | nil => exact hs
  | cons x l ih => exact ih (hf s x hs)

/-! The same for operations that answer more than a state. -/

/-- The state of a pair, first. -/
structure PKeeps {β : Type} (r : Prop) (a : State) (p : State × β) : Prop where
  fst : Keeps r a p.1
/-- The state of a pair, last. -/
structure QKeeps {β : Type} (r : Prop) (a : State) (p : β × State) : Prop where
  snd : Keeps r a p.2
/-- A state, if there is one. -/
structure OptKeeps (r : Prop) (a : State) (o : Option State) : Prop where
  val : ∀ t, o = some t → Keeps r a t
/-- The next state, if there is one. -/
structure OutKeeps (r : Prop) (a : State) (o : Host.Outcome State Fault Refusal) : Prop where
  out : ∀ t, o = .next t → Keeps r a t

theorem PKeeps.pair {β : Type} {r : Prop} {a t : State} {x : β} (h : Keeps r a t) : PKeeps r a (t, x) := ⟨h⟩
theorem PKeeps.eq {β : Type} {r : Prop} {a t : State} {x : β} {p : State × β} (e : p = (t, x)) (h : PKeeps r a p) : Keeps r a t := by subst e; exact h.fst
theorem PKeeps.ite {β : Type} {r : Prop} {a : State} {x y : State × β} {c : Prop} [Decidable c] (hx : c → PKeeps r a x) (hy : ¬ c → PKeeps r a y) :
    PKeeps r a (if c then x else y) := by
  split
  · exact hx ‹_›
  · exact hy ‹_›
theorem QKeeps.pair {β : Type} {r : Prop} {a t : State} {x : β} (h : Keeps r a t) : QKeeps r a (x, t) := ⟨h⟩
theorem QKeeps.eq {β : Type} {r : Prop} {a t : State} {x : β} {p : β × State} (e : p = (x, t)) (h : QKeeps r a p) : Keeps r a t := by subst e; exact h.snd
theorem QKeeps.ite {β : Type} {r : Prop} {a : State} {x y : β × State} {c : Prop} [Decidable c] (hx : c → QKeeps r a x) (hy : ¬ c → QKeeps r a y) :
    QKeeps r a (if c then x else y) := by
  split
  · exact hx ‹_›
  · exact hy ‹_›
theorem OptKeeps.none {r : Prop} (a : State) : OptKeeps r a .none := ⟨fun _ h => nomatch h⟩
theorem OptKeeps.some {r : Prop} {a t : State} (h : Keeps r a t) : OptKeeps r a (.some t) := ⟨fun _ e => by cases e; exact h⟩
theorem OptKeeps.eq {r : Prop} {a t : State} {o : Option State} (e : o = .some t) (h : OptKeeps r a o) : Keeps r a t := h.val t e
theorem OptKeeps.ite {r : Prop} {a : State} {x y : Option State} {c : Prop} [Decidable c] (hx : c → OptKeeps r a x) (hy : ¬ c → OptKeeps r a y) :
    OptKeeps r a (if c then x else y) := by
  split
  · exact hx ‹_›
  · exact hy ‹_›
theorem OutKeeps.next {r : Prop} {a t : State} (h : Keeps r a t) : OutKeeps r a (.next t) := ⟨fun _ e => by cases e; exact h⟩
theorem OutKeeps.ite {r : Prop} {a : State} {x y : Host.Outcome State Fault Refusal} {c : Prop} [Decidable c] (hx : c → OutKeeps r a x)
    (hy : ¬ c → OutKeeps r a y) : OutKeeps r a (if c then x else y) := by
  split
  · exact hx ‹_›
  · exact hy ‹_›
theorem State.draw_keepsQ {r : Prop} {a s : State} (h : Keeps r a s) : QKeeps r a s.draw := ⟨State.draw_keeps h⟩
theorem PKeeps.foldl {α β : Type} {r : Prop} {a : State} {p : State × β} {f : State × β → α → State × β} {l : List α} (hp : PKeeps r a p)
    (hf : ∀ u x, PKeeps r a u → PKeeps r a (f u x)) : PKeeps r a (l.foldl f p) := by
  induction l generalizing p with
  | nil => exact hp
  | cons x l ih => exact ih (hf p x hp)
theorem QKeeps.foldl {α β : Type} {r : Prop} {a : State} {p : β × State} {f : β × State → α → β × State} {l : List α} (hp : QKeeps r a p)
    (hf : ∀ u x, QKeeps r a u → QKeeps r a (f u x)) : QKeeps r a (l.foldl f p) := by
  induction l generalizing p with
  | nil => exact hp
  | cons x l ih => exact ih (hf p x hp)

/-- A new course unit whose cycle lies within a course and whose active set is one of the two. -/
theorem Keeps.with_crs {r : Prop} {a s : State} (h : Keeps r a s) (c : Crs) (h1 : s.crs.cycle < 1280 → c.cycle < 1280)
    (h2 : s.crs.active < 2 → c.active < 2) : Keeps r a { s with crs := c } :=
  ⟨h.queue, h.outs, h.frees, h.canon, fun k => ⟨h1 (h.clock k).1, h2 (h.clock k).2⟩, h.mode, h.lock, h.trip⟩
/-- A new global block that keeps the lock and the trip where they were set. -/
theorem Keeps.with_glb {r : Prop} {a s : State} (h : Keeps r a s) (g : Glb) (h1 : s.glb.lock = true → g.lock = true)
    (h2 : s.glb.trip = true → g.trip = true) : Keeps r a { s with glb := g } :=
  ⟨h.queue, h.outs, h.frees, h.canon, h.clock, h.mode, fun k => (h.lock k).imp h1 id, fun k => h2 (h.trip k)⟩
/-- A pair with a state, if there is one. -/
structure OptPKeeps {β : Type} (r : Prop) (a : State) (o : Option (State × β)) : Prop where
  val : ∀ t x, o = some (t, x) → Keeps r a t
structure OptQKeeps {β : Type} (r : Prop) (a : State) (o : Option (β × State)) : Prop where
  val : ∀ x t, o = some (x, t) → Keeps r a t
theorem OptPKeeps.none {β : Type} {r : Prop} (a : State) : OptPKeeps (β := β) r a .none := ⟨fun _ _ h => nomatch h⟩
theorem OptPKeeps.some {β : Type} {r : Prop} {a t : State} {x : β} (h : Keeps r a t) : OptPKeeps r a (.some (t, x)) := ⟨fun _ _ e => by cases e; exact h⟩
theorem OptPKeeps.eq {β : Type} {r : Prop} {a t : State} {x : β} {o : Option (State × β)} (e : o = .some (t, x)) (h : OptPKeeps r a o) : Keeps r a t :=
  h.val t x e
theorem OptPKeeps.ite {β : Type} {r : Prop} {a : State} {x y : Option (State × β)} {c : Prop} [Decidable c] (hx : c → OptPKeeps r a x)
    (hy : ¬ c → OptPKeeps r a y) : OptPKeeps r a (if c then x else y) := by
  split
  · exact hx ‹_›
  · exact hy ‹_›
theorem OptQKeeps.none {β : Type} {r : Prop} (a : State) : OptQKeeps (β := β) r a .none := ⟨fun _ _ h => nomatch h⟩
theorem OptQKeeps.some {β : Type} {r : Prop} {a t : State} {x : β} (h : Keeps r a t) : OptQKeeps r a (.some (x, t)) := ⟨fun _ _ e => by cases e; exact h⟩
theorem OptQKeeps.eq {β : Type} {r : Prop} {a t : State} {x : β} {o : Option (β × State)} (e : o = .some (x, t)) (h : OptQKeeps r a o) : Keeps r a t :=
  h.val x t e
theorem OptQKeeps.ite {β : Type} {r : Prop} {a : State} {x y : Option (β × State)} {c : Prop} [Decidable c] (hx : c → OptQKeeps r a x)
    (hy : ¬ c → OptQKeeps r a y) : OptQKeeps r a (if c then x else y) := by
  split
  · exact hx ‹_›
  · exact hy ‹_›

theorem Keeps.trans {r : Prop} {a b c : State} (h : Keeps r a b) (k : Keeps r b c) : Keeps r a c := by
  refine ⟨k.queue.trans h.queue, h.outs.trans k.outs, Nat.le_trans h.frees k.frees, fun x => k.canon (h.canon x), fun x => k.clock (h.clock x),
    ?_, fun x => ?_, fun x => k.trip (h.trip x)⟩
  · rcases k.mode with k1 | k1
    · rw [k1]; exact h.mode
    · exact .inr k1
  · rcases h.lock x with h1 | ⟨hr, h1⟩
    · exact k.lock h1
    · rcases k.mode with k1 | k1
      · rw [k1]; exact .inr ⟨hr, h1⟩
      · exact .inr k1

end Sys2Proof.Machine
end

