-- ==== Sys2Proof/Laws/KeepsOps.lean ====
section
/-! SUPPORT. Laws/Keeps.lean, for the operations of Machine/Ops.lean. -/
namespace Sys2Proof.Machine

theorem State.put_keeps {r_ : Prop} {z s : State} (f : Fld) (v : Nat) (hk : Keeps r_ z s) : Keeps r_ z (State.put s f v) := by
  unfold State.put
  repeat' (first
    | with_reducible assumption
    | intro _
    | with_reducible apply State.setWord_keeps
    | (extract_lets)
    | split)

theorem State.bump_keeps {r_ : Prop} {z s : State} (off : Nat) (hk : Keeps r_ z s) : Keeps r_ z (State.bump s off) := by
  unfold State.bump
  repeat' (first
    | with_reducible assumption
    | intro _
    | with_reducible apply State.bumpBy_keeps
    | (extract_lets)
    | split)

theorem State.bumpIf_keeps {r_ : Prop} {z s : State} (b : Bool) (off : Nat) (hk : Keeps r_ z s) : Keeps r_ z (State.bumpIf s b
    off) := by
  unfold State.bumpIf
  repeat' (first
    | with_reducible assumption
    | intro _
    | with_reducible apply Keeps.ite
    | with_reducible apply State.bump_keeps
    | (extract_lets)
    | split)

theorem State.pass_keeps {r_ : Prop} {z s : State} (n : Nat) (hk : Keeps r_ z s) : Keeps r_ z (State.pass s n) := by
  unfold State.pass
  repeat' (first
    | with_reducible assumption
    | intro _
    | (extract_lets)
    | split
    | with_reducible apply Keeps.upd)

theorem State.setTime_keeps {r_ : Prop} {z s : State} (course : Course) (cycle : Nat) (hc : s.crs.cycle < 1280 → cycle < 1280)
    (hk : Keeps r_ z s) : Keeps r_ z (State.setTime s course cycle) := by
  unfold State.setTime
  exact Keeps.with_crs hk _ hc id

theorem State.hostWrite_keeps {r_ : Prop} {z s : State} (hp requester addr : Nat) (d : Data) (hk : Keeps r_ z s) : Keeps r_ z
    (State.hostWrite s hp requester addr d) := by
  unfold State.hostWrite
  repeat' (first
    | with_reducible assumption
    | intro _
    | with_reducible apply Keeps.ite
    | with_reducible apply State.emit_keeps
    | (extract_lets)
    | split)

theorem State.hostRead_keeps {r_ : Prop} {z s : State} (hp requester addr len : Nat) (hk : Keeps r_ z s) : Keeps r_ z
    (State.hostRead s hp requester addr len) := by
  unfold State.hostRead
  repeat' (first
    | with_reducible assumption
    | intro _
    | with_reducible apply Keeps.ite
    | with_reducible apply State.emit_keeps
    | (extract_lets)
    | split)

theorem State.msixSend_keeps {r_ : Prop} {z s : State} (identity vector : Nat) (hk : Keeps r_ z s) : Keeps r_ z (State.msixSend s
    identity vector) := by
  unfold State.msixSend
  repeat' (first
    | with_reducible assumption
    | intro _
    | with_reducible apply Keeps.ite
    | with_reducible apply State.bump_keeps
    | with_reducible apply State.emit_keeps
    | (extract_lets)
    | split
    | with_reducible apply Keeps.upd)

theorem State.setEq_keeps {r_ : Prop} {z s : State} (r : Nat) (e : Eq) (hk : Keeps r_ z s) : Keeps r_ z (State.setEq s r e) := by
  unfold State.setEq
  repeat' (first
    | with_reducible assumption
    | intro _
    | with_reducible apply Keeps.ite
    | (extract_lets)
    | split
    | with_reducible apply Keeps.upd)

theorem State.eqPut_keeps {r_ : Prop} {z s : State} (r : Nat) (entry : Nat) (hk : Keeps r_ z s) : Keeps r_ z (State.eqPut s r
    entry) := by
  unfold State.eqPut
  repeat' (first
    | with_reducible assumption
    | intro _
    | with_reducible apply Keeps.ite
    | with_reducible apply State.bumpIf_keeps
    | with_reducible apply State.hostWrite_keeps
    | with_reducible apply State.msixSend_keeps
    | with_reducible apply State.setEq_keeps
    | (extract_lets)
    | split)

theorem State.eqPost_keeps {r_ : Prop} {z s : State} (r : Nat) (entry : Nat) (hk : Keeps r_ z s) : Keeps r_ z (State.eqPost s r
    entry) := by
  unfold State.eqPost
  repeat' (first
    | with_reducible assumption
    | intro _
    | with_reducible apply Keeps.ite
    | with_reducible apply State.bump_keeps
    | with_reducible apply State.eqPut_keeps
    | with_reducible apply State.setEq_keeps
    | (extract_lets)
    | split)

theorem State.eqDrain_keeps {r_ : Prop} {z s : State} (r : Nat) (k : Nat) (hk : Keeps r_ z s) : Keeps r_ z (State.eqDrain s r k)
    := by
  induction k generalizing s with
  | zero =>
    unfold State.eqDrain
    repeat' (first
      | with_reducible assumption
      | with_reducible apply ih
      | intro _
      | with_reducible apply Keeps.ite
      | with_reducible apply State.eqPut_keeps
      | with_reducible apply State.setEq_keeps
      | (extract_lets)
      | split)
  | succ k ih =>
    unfold State.eqDrain
    repeat' (first
      | with_reducible assumption
      | with_reducible apply ih
      | intro _
      | with_reducible apply Keeps.ite
      | with_reducible apply State.eqPut_keeps
      | with_reducible apply State.setEq_keeps
      | (extract_lets)
      | split)

theorem State.askFence_keeps {r_ : Prop} {z s : State} (cause : Nat) (hk : Keeps r_ z s) : Keeps r_ z (State.askFence s cause) :=
    by
  unfold State.askFence
  repeat' (first
    | with_reducible assumption
    | intro _
    | with_reducible apply Keeps.ite
    | (extract_lets)
    | split
    | with_reducible apply Keeps.updGlb
    | with_reducible apply Keeps.upd)

theorem State.latchEvent_keeps {r_ : Prop} {z s : State} (g cond obj : Nat) (owner : Option Nat) (detail : Nat) (forced severe :
    Bool) (mute : Bool) (hk : Keeps r_ z s) : Keeps r_ z (State.latchEvent s g cond obj owner detail forced severe mute) := by
  unfold State.latchEvent
  repeat' (first
    | with_reducible assumption
    | intro _
    | with_reducible apply Keeps.ite
    | with_reducible apply State.eqPost_keeps
    | with_reducible apply State.setBank_keeps
    | with_reducible apply State.setSrc_keeps
    | (extract_lets)
    | split)

theorem State.fenceOn_keeps {r_ : Prop} {z s : State} (g : Nat) (hk : Keeps r_ z s) : Keeps r_ z (State.fenceOn s g) := by
  unfold State.fenceOn
  repeat' (first
    | with_reducible assumption
    | intro _
    | with_reducible apply Keeps.ite
    | with_reducible apply State.askFence_keeps
    | (extract_lets)
    | split)

theorem State.latchConsequence_keeps {r_ : Prop} {z s : State} (g obj : Nat) (owner : Option Nat) (effective : Bool) (hk : Keeps
    r_ z s) : Keeps r_ z (State.latchConsequence s g obj owner effective) := by
  unfold State.latchConsequence
  repeat' (first
    | with_reducible assumption
    | intro _
    | with_reducible apply Keeps.ite
    | with_reducible apply State.askFence_keeps
    | with_reducible apply State.fenceOn_keeps
    | with_reducible apply State.latchEvent_keeps
    | with_reducible apply State.setSrc_keeps
    | (extract_lets)
    | split)

theorem State.mergeEvent_keeps {r_ : Prop} {z s : State} (g : Nat) (hk : Keeps r_ z s) : Keeps r_ z (State.mergeEvent s g) := by
  unfold State.mergeEvent
  repeat' (first
    | with_reducible assumption
    | intro _
    | with_reducible apply Keeps.ite
    | with_reducible apply State.setBank_keeps
    | with_reducible apply State.setSrc_keeps
    | (extract_lets)
    | split)

theorem State.latch_keeps {r_ : Prop} {z s : State} (g cond obj : Nat) (owner : Option Nat) (detail : Nat) (forced : Bool) (mute :
    Bool) (hk : Keeps r_ z s) : Keeps r_ z (State.latch s g cond obj owner detail forced mute) := by
  unfold State.latch
  repeat' (first
    | with_reducible assumption
    | intro _
    | with_reducible apply Keeps.ite
    | with_reducible apply State.fenceOn_keeps
    | with_reducible apply State.latchConsequence_keeps
    | with_reducible apply State.latchEvent_keeps
    | with_reducible apply State.mergeEvent_keeps
    | (extract_lets)
    | split)

theorem State.raise_keeps {r_ : Prop} {z s : State} (g cond obj : Nat) (owner : Option Nat) (detail : Nat) (hk : Keeps r_ z s) :
    Keeps r_ z (State.raise s g cond obj owner detail) := by
  unfold State.raise
  repeat' (first
    | with_reducible assumption
    | intro _
    | with_reducible apply State.latch_keeps
    | (extract_lets)
    | split)

theorem State.raiseMute_keeps {r_ : Prop} {z s : State} (g obj : Nat) (owner : Option Nat) (hk : Keeps r_ z s) : Keeps r_ z
    (State.raiseMute s g obj owner) := by
  unfold State.raiseMute
  repeat' (first
    | with_reducible assumption
    | intro _
    | with_reducible apply State.latch_keeps
    | (extract_lets)
    | split)

theorem State.level_keeps {r_ : Prop} {z s : State} (g : Nat) (present : Bool) (obj : Nat) (owner : Option Nat) (hk : Keeps r_ z
    s) : Keeps r_ z (State.level s g present obj owner) := by
  unfold State.level
  repeat' (first
    | with_reducible assumption
    | intro _
    | with_reducible apply Keeps.ite
    | with_reducible apply State.fenceOn_keeps
    | with_reducible apply State.latch_keeps
    | with_reducible apply State.mergeEvent_keeps
    | with_reducible apply State.setSrc_keeps
    | (extract_lets)
    | split)

theorem State.badAccess_keeps {r_ : Prop} {z s : State} (hk : Keeps r_ z s) : Keeps r_ z (State.badAccess s) := by
  unfold State.badAccess
  repeat' (first
    | with_reducible assumption
    | intro _
    | with_reducible apply State.bump_keeps
    | with_reducible apply State.raise_keeps
    | (extract_lets)
    | split)

end Sys2Proof.Machine
end

