-- ==== Sys2Proof/Laws/KeepsRoles.lean ====
section
/-! SUPPORT. Laws/Keeps.lean, for the operations of Machine/Roles.lean. -/
namespace Sys2Proof.Machine

theorem State.onLk_keeps {r_ : Prop} {z s : State} (p : Nat) (f : Lnk → Lnk) (hk : Keeps r_ z s) : Keeps r_ z (State.onLk s p f)
    := by
  unfold State.onLk
  repeat' (first
    | with_reducible assumption
    | intro _
    | with_reducible apply State.setLk_keeps
    | (extract_lets)
    | split)

theorem State.setPp_keeps {r_ : Prop} {z s : State} (p : Nat) (v : PortPhy) (hk : Keeps r_ z s) : Keeps r_ z (State.setPp s p v)
    := by
  unfold State.setPp
  repeat' (first
    | with_reducible assumption
    | intro _
    | with_reducible apply State.put_keeps
    | (extract_lets)
    | split
    | with_reducible apply Keeps.upd)

theorem State.setLn_keeps {r_ : Prop} {z s : State} (n : Nat) (v : Lane) (hk : Keeps r_ z s) : Keeps r_ z (State.setLn s n v) :=
    by
  unfold State.setLn
  repeat' (first
    | with_reducible assumption
    | intro _
    | with_reducible apply State.put_keeps
    | (extract_lets)
    | split
    | with_reducible apply Keeps.upd)

end Sys2Proof.Machine
end

