-- ==== Sys2Proof/Laws/KeepsSlice.lean ====
section
/-! SUPPORT. Laws/Keeps.lean, for the operations of Machine/Slice.lean. -/
namespace Sys2Proof.Machine

theorem State.fillBank_keeps {r_ : Prop} {z s : State} (cache k : Nat) (hk : Keeps r_ z s) : Keeps r_ z (State.fillBank s cache k)
    := by
  unfold State.fillBank
  repeat' (first
    | with_reducible assumption
    | intro _
    | with_reducible apply Keeps.ite
    | with_reducible apply QKeeps.snd
    | with_reducible apply State.draw_keepsQ
    | with_reducible apply State.draw_keeps
    | (extract_lets)
    | split
    | with_reducible apply QKeeps.pair
    | (with_reducible refine QKeeps.eq (by assumption) ?_)
    | with_reducible apply Keeps.upd)

theorem State.poolOff_keeps {r_ : Prop} {z s : State} (p : Nat) (hk : Keeps r_ z s) : Keeps r_ z (State.poolOff s p) := by
  unfold State.poolOff
  repeat' (first
    | with_reducible assumption
    | intro _
    | with_reducible apply Keeps.ite
    | with_reducible apply State.setLk_keeps
    | (extract_lets)
    | split)

theorem State.bankPool_keeps {r_ : Prop} {z s : State} (unit : Nat) (out : Bool) (hk : Keeps r_ z s) : Keeps r_ z (State.bankPool
    s unit out) := by
  unfold State.bankPool
  repeat' (first
    | with_reducible assumption
    | intro _
    | with_reducible apply Keeps.ite
    | with_reducible apply State.onLk_keeps
    | with_reducible apply State.poolOff_keeps
    | (extract_lets)
    | split)

theorem State.sliceEnd_keeps {r_ : Prop} {z s : State} (keepOut : Bool) (hk : Keeps r_ z s) : Keeps r_ z (State.sliceEnd s
    keepOut) := by
  unfold State.sliceEnd
  repeat' (first
    | with_reducible assumption
    | intro _
    | with_reducible apply Keeps.ite
    | with_reducible apply State.bankPool_keeps
    | with_reducible apply State.put_keeps
    | (extract_lets)
    | split)

theorem State.sliceRetry_keeps {r_ : Prop} {z s : State} (hk : Keeps r_ z s) : Keeps r_ z (State.sliceRetry s) := by
  unfold State.sliceRetry
  repeat' (first
    | with_reducible assumption
    | intro _
    | with_reducible apply Keeps.ite
    | (extract_lets)
    | split
    | with_reducible apply Keeps.upd)

theorem State.sliceAbort_keeps {r_ : Prop} {z s : State} (hk : Keeps r_ z s) : Keeps r_ z (State.sliceAbort s) := by
  unfold State.sliceAbort
  repeat' (first
    | with_reducible assumption
    | intro _
    | with_reducible apply State.bump_keeps
    | with_reducible apply State.raise_keeps
    | with_reducible apply State.sliceEnd_keeps
    | with_reducible apply State.sliceRetry_keeps
    | (extract_lets)
    | split)

theorem State.tableWrite_keeps {r_ : Prop} {z s : State} (tag n : Nat) (hk : Keeps r_ z s) : Keeps r_ z (State.tableWrite s tag n)
    := by
  unfold State.tableWrite
  repeat' (first
    | with_reducible assumption
    | intro _
    | with_reducible apply Keeps.ite
    | with_reducible apply State.put_keeps
    | with_reducible apply State.sliceAbort_keeps
    | (extract_lets)
    | split)

end Sys2Proof.Machine
end

