-- ==== Sys2Proof/Laws/KeepsCourse.lean ====
section
/-! SUPPORT. Laws/Keeps.lean, for the operations of Machine/Course.lean. -/
namespace Sys2Proof.Machine

theorem State.noteMarkSent_keeps {r_ : Prop} {z s : State} (p : Nat) (hk : Keeps r_ z s) : Keeps r_ z (State.noteMarkSent s p) :=
    by
  unfold State.noteMarkSent
  repeat' (first
    | with_reducible assumption
    | intro _
    | (extract_lets)
    | split
    | with_reducible apply Keeps.updCrs
    | with_reducible apply Keeps.updBoth
    | with_reducible apply Keeps.upd)

theorem State.setDepth_keeps {r_ : Prop} {z s : State} (p gd ld : Nat) (hk : Keeps r_ z s) : Keeps r_ z (State.setDepth s p gd ld)
    := by
  unfold State.setDepth
  repeat' (first
    | with_reducible assumption
    | intro _
    | with_reducible apply Keeps.ite
    | (extract_lets)
    | split
    | with_reducible apply Keeps.updCrs
    | with_reducible apply Keeps.updBoth
    | with_reducible apply Keeps.upd)

theorem State.chooseParent_keeps {r_ : Prop} {z s : State} (rank root : Nat) (hk : Keeps r_ z s) : Keeps r_ z (State.chooseParent
    s rank root) := by
  unfold State.chooseParent
  repeat' (first
    | with_reducible assumption
    | intro _
    | with_reducible apply State.setDepth_keeps
    | (extract_lets)
    | split
    | with_reducible apply Keeps.updCrs
    | with_reducible apply Keeps.updBoth
    | with_reducible apply Keeps.upd)

theorem State.newParent_keeps {r_ : Prop} {z s : State} (hk : Keeps r_ z s) : Keeps r_ z (State.newParent s) := by
  unfold State.newParent
  repeat' (first
    | with_reducible assumption
    | intro _
    | with_reducible apply Keeps.ite
    | with_reducible apply State.chooseParent_keeps
    | (extract_lets)
    | split
    | with_reducible apply Keeps.updCrs
    | with_reducible apply Keeps.updBoth
    | with_reducible apply Keeps.upd)

theorem State.markLinkDown_keeps {r_ : Prop} {z s : State} (p : Nat) (hk : Keeps r_ z s) : Keeps r_ z (State.markLinkDown s p) :=
    by
  unfold State.markLinkDown
  repeat' (first
    | with_reducible assumption
    | intro _
    | with_reducible apply Keeps.ite
    | with_reducible apply State.newParent_keeps
    | (extract_lets)
    | split
    | with_reducible apply Keeps.updCrs
    | with_reducible apply Keeps.updBoth
    | with_reducible apply Keeps.upd)

theorem State.dropParent_keeps {r_ : Prop} {z s : State} (hk : Keeps r_ z s) : Keeps r_ z (State.dropParent s) := by
  unfold State.dropParent
  repeat' (first
    | with_reducible assumption
    | intro _
    | with_reducible apply Keeps.ite
    | with_reducible apply State.newParent_keeps
    | (extract_lets)
    | split
    | with_reducible apply Keeps.updCrs
    | with_reducible apply Keeps.updBoth
    | with_reducible apply Keeps.upd)

theorem State.setMultiRoot_keeps {r_ : Prop} {z s : State} (hk : Keeps r_ z s) : Keeps r_ z (State.setMultiRoot s) := by
  unfold State.setMultiRoot
  repeat' (first
    | with_reducible assumption
    | intro _
    | with_reducible apply Keeps.ite
    | with_reducible apply State.raise_keeps
    | (extract_lets)
    | split
    | with_reducible apply Keeps.updCrs
    | with_reducible apply Keeps.updBoth
    | with_reducible apply Keeps.upd)

theorem State.trackPhase_keeps {r_ : Prop} {z s : State} (e : Int) (hk : Keeps r_ z s) : Keeps r_ z (State.trackPhase s e) := by
  unfold State.trackPhase
  repeat' (first
    | with_reducible assumption
    | intro _
    | with_reducible apply Keeps.ite
    | with_reducible apply State.raise_keeps
    | (extract_lets)
    | split
    | with_reducible apply Keeps.updCrs
    | with_reducible apply Keeps.updBoth
    | with_reducible apply Keeps.upd)

theorem State.phaseMark_keeps {r_ : Prop} {z s : State} (p : Nat) (m : Mark) (hk : Keeps r_ z s) : Keeps r_ z (State.phaseMark s p
    m) := by
  unfold State.phaseMark
  repeat' (first
    | with_reducible assumption
    | intro _
    | with_reducible apply Keeps.ite
    | with_reducible apply State.trackPhase_keeps
    | (extract_lets)
    | split
    | with_reducible apply Keeps.updCrs
    | with_reducible apply Keeps.updBoth
    | with_reducible apply Keeps.upd)

theorem State.parentMark_keeps {r_ : Prop} {z s : State} (p : Nat) (m : Mark) (hk : Keeps r_ z s) : Keeps r_ z (State.parentMark s p m) := by
  unfold State.parentMark
  extract_lets s1
  have h1 : Keeps r_ z s1 := Keeps.ite (fun _ => State.setDepth_keeps _ _ _ hk) (fun _ => hk)
  clear_value s1
  exact State.phaseMark_keeps _ _ (Keeps.updCrs h1)

theorem State.followBest_keeps {r_ : Prop} {z s : State} (hk : Keeps r_ z s) : Keeps r_ z (State.followBest s) := by
  unfold State.followBest
  repeat' (first
    | with_reducible assumption
    | intro _
    | with_reducible apply Keeps.ite
    | with_reducible apply State.chooseParent_keeps
    | (extract_lets)
    | split)

theorem State.otherRoot_keeps {r_ : Prop} {z s : State} (p : Nat) (m : Mark) (hk : Keeps r_ z s) : Keeps r_ z (State.otherRoot s p
    m) := by
  unfold State.otherRoot
  repeat' (first
    | with_reducible assumption
    | intro _
    | with_reducible apply Keeps.ite
    | with_reducible apply State.chooseParent_keeps
    | with_reducible apply State.put_keeps
    | with_reducible apply State.setMultiRoot_keeps
    | (extract_lets)
    | split
    | with_reducible apply Keeps.updCrs
    | with_reducible apply Keeps.updBoth
    | with_reducible apply Keeps.upd)

theorem State.courseMark_keeps {r_ : Prop} {z s : State} (p : Nat) (m : Mark) (hk : Keeps r_ z s) : Keeps r_ z (State.courseMark s
    p m) := by
  unfold State.courseMark
  repeat' (first
    | with_reducible assumption
    | intro _
    | with_reducible apply Keeps.ite
    | with_reducible apply State.chooseParent_keeps
    | with_reducible apply State.followBest_keeps
    | with_reducible apply State.otherRoot_keeps
    | with_reducible apply State.parentMark_keeps
    | with_reducible apply State.phaseMark_keeps
    | (extract_lets)
    | split
    | with_reducible apply Keeps.updCrs
    | with_reducible apply Keeps.updBoth
    | with_reducible apply Keeps.upd)

theorem execCourseMarkRx_keeps {r_ : Prop} {z s : State} (port : Nat) (m : Mark) (hk : Keeps r_ z s) : OutKeeps r_ z
    (execCourseMarkRx port m s) := by
  unfold execCourseMarkRx
  repeat' (first
    | with_reducible assumption
    | intro _
    | with_reducible apply OutKeeps.ite
    | with_reducible apply Keeps.ite
    | with_reducible apply OutKeeps.next
    | with_reducible apply State.courseMark_keeps
    | (extract_lets)
    | split)

theorem State.followRoot_keeps {r_ : Prop} {z s : State} (r : Nat × Nat) (hk : Keeps r_ z s) : Keeps r_ z (State.followRoot s r)
    := by
  unfold State.followRoot
  repeat' (first
    | with_reducible assumption
    | intro _
    | with_reducible apply State.chooseParent_keeps
    | (extract_lets)
    | split
    | with_reducible apply Keeps.updCrs
    | with_reducible apply Keeps.updBoth
    | with_reducible apply Keeps.upd)

theorem execFollowBetterRoot_keeps {r_ : Prop} {z s : State} (hk : Keeps r_ z s) : OutKeeps r_ z (execFollowBetterRoot s) := by
  unfold execFollowBetterRoot
  repeat' (first
    | with_reducible assumption
    | intro _
    | with_reducible apply OutKeeps.next
    | with_reducible apply State.followRoot_keeps
    | (extract_lets)
    | split)

theorem State.alignStep_keeps {r_ : Prop} {z s : State} (hk : Keeps r_ z s) : Keeps r_ z (State.alignStep s) := by
  unfold State.alignStep
  extract_lets old oldCourse d m c r s0 c1 s1
  have h0 : Keeps r_ z s0 := State.setTime_keeps _ _ (fun _ => by show Int.toNat _ / 16 < 1280; omega) hk
  exact State.raise_keeps _ _ _ _ _ (State.bump_keeps _ (Keeps.updCrs h0))

theorem execAlignStep_keeps {r_ : Prop} {z s : State} (hk : Keeps r_ z s) : OutKeeps r_ z (execAlignStep s) := by
  unfold execAlignStep
  repeat' (first
    | with_reducible assumption
    | intro _
    | with_reducible apply OutKeeps.ite
    | with_reducible apply Keeps.ite
    | with_reducible apply OutKeeps.next
    | with_reducible apply State.alignStep_keeps
    | (extract_lets)
    | split)

theorem execAligned_keeps {r_ : Prop} {z s : State} (hk : Keeps r_ z s) : OutKeeps r_ z (execAligned s) := by
  unfold execAligned
  repeat' (first
    | with_reducible assumption
    | intro _
    | with_reducible apply OutKeeps.ite
    | with_reducible apply Keeps.ite
    | with_reducible apply PKeeps.fst
    | with_reducible apply OutKeeps.next
    | (extract_lets)
    | split
    | with_reducible apply PKeeps.pair
    | (with_reducible refine PKeeps.eq (by assumption) ?_)
    | with_reducible apply Keeps.updCrs
    | with_reducible apply Keeps.updBoth
    | with_reducible apply Keeps.upd)

theorem execAlignLost_keeps {r_ : Prop} {z s : State} (hk : Keeps r_ z s) : OutKeeps r_ z (execAlignLost s) := by
  unfold execAlignLost
  repeat' (first
    | with_reducible assumption
    | intro _
    | with_reducible apply OutKeeps.ite
    | with_reducible apply Keeps.ite
    | with_reducible apply OutKeeps.next
    | with_reducible apply State.dropParent_keeps
    | with_reducible apply State.raise_keeps
    | (extract_lets)
    | split
    | with_reducible apply Keeps.updCrs
    | with_reducible apply Keeps.updBoth
    | with_reducible apply Keeps.upd)

theorem State.alignCtrlWrite_keeps {r_ : Prop} {z s : State} (v : Nat) (rwl : Bool) (hk : Keeps r_ z s) : Keeps r_ z
    (State.alignCtrlWrite s v rwl) := by
  unfold State.alignCtrlWrite
  repeat' (first
    | with_reducible assumption
    | intro _
    | with_reducible apply Keeps.ite
    | with_reducible apply PKeeps.fst
    | with_reducible apply State.put_keeps
    | (extract_lets)
    | with_reducible apply Keeps.updCrs
    | with_reducible apply Keeps.updBoth
    | with_reducible apply Keeps.upd
    | split
    | with_reducible apply PKeeps.pair
    | (with_reducible refine PKeeps.eq (by assumption) ?_))

end Sys2Proof.Machine
end

