-- ==== Sys2Proof/Laws/KeepsBuffer.lean ====
section
/-! SUPPORT. Laws/Keeps.lean, for the operations of Machine/Buffer.lean. -/
namespace Sys2Proof.Machine

theorem State.setInq_keeps {r_ : Prop} {z s : State} (i : Nat) (l : List InPkt) (hk : Keeps r_ z s) : Keeps r_ z (State.setInq s i
    l) := by
  unfold State.setInq
  repeat' (first
    | with_reducible assumption
    | intro _
    | with_reducible apply State.put_keeps
    | (extract_lets)
    | split
    | with_reducible apply Keeps.upd)

theorem State.setOut_keeps {r_ : Prop} {z s : State} (o : Nat) (v : OutSt) (hk : Keeps r_ z s) : Keeps r_ z (State.setOut s o v)
    := by
  unfold State.setOut
  repeat' (first
    | with_reducible assumption
    | intro _
    | with_reducible apply State.put_keeps
    | (extract_lets)
    | split
    | with_reducible apply Keeps.upd)

theorem State.setPkt_keeps {r_ : Prop} {z s : State} (i : Nat) (p : InPkt) (hk : Keeps r_ z s) : Keeps r_ z (State.setPkt s i p)
    := by
  unfold State.setPkt
  repeat' (first
    | with_reducible assumption
    | intro _
    | with_reducible apply Keeps.ite
    | with_reducible apply State.setInq_keeps
    | (extract_lets)
    | split)

theorem State.delPkt_keeps {r_ : Prop} {z s : State} (i id : Nat) (hk : Keeps r_ z s) : Keeps r_ z (State.delPkt s i id) := by
  unfold State.delPkt
  repeat' (first
    | with_reducible assumption
    | intro _
    | with_reducible apply State.setInq_keeps
    | (extract_lets)
    | split)

theorem State.freeSlot_keeps {r_ : Prop} {z s : State} (i vc : Nat) (credit : Bool) (hk : Keeps r_ z s) : Keeps r_ z
    (State.freeSlot s i vc credit) := by
  unfold State.freeSlot
  repeat' (first
    | with_reducible assumption
    | intro _
    | with_reducible apply Keeps.ite
    | with_reducible apply State.poolOff_keeps
    | with_reducible apply State.setLk_keeps
    | (extract_lets)
    | split)

theorem State.freeForms_keeps {r_ : Prop} {z s : State} (i vc : Nat) (forms : List Bool) (hk : Keeps r_ z s) : Keeps r_ z
    (State.freeForms s i vc forms) := by
  unfold State.freeForms
  repeat' (first
    | with_reducible assumption
    | intro _
    | with_reducible apply Keeps.foldl
    | with_reducible apply PKeeps.foldl
    | with_reducible apply QKeeps.foldl
    | with_reducible apply State.freeSlot_keeps
    | (extract_lets)
    | split)

theorem State.discard_keeps {r_ : Prop} {z s : State} (i : Nat) (p : InPkt) (hk : Keeps r_ z s) : Keeps r_ z (State.discard s i p)
    := by
  unfold State.discard
  repeat' (first
    | with_reducible assumption
    | intro _
    | with_reducible apply Keeps.ite
    | with_reducible apply State.delPkt_keeps
    | with_reducible apply State.freeForms_keeps
    | with_reducible apply State.setPkt_keeps
    | (extract_lets)
    | split)

theorem State.abortIn_keeps {r_ : Prop} {z s : State} (i : Nat) (p : InPkt) (reason : Nat) (hk : Keeps r_ z s) : Keeps r_ z
    (State.abortIn s i p reason) := by
  unfold State.abortIn
  repeat' (first
    | with_reducible assumption
    | intro _
    | with_reducible apply Keeps.ite
    | with_reducible apply State.bump_keeps
    | with_reducible apply State.delPkt_keeps
    | with_reducible apply State.discard_keeps
    | with_reducible apply State.freeForms_keeps
    | with_reducible apply State.raise_keeps
    | with_reducible apply State.setPkt_keeps
    | (extract_lets)
    | split)

theorem State.place_keeps {r_ : Prop} {z s : State} (i vc : Nat) (credit : Bool) (hk : Keeps r_ z s) : OptKeeps r_ z (State.place
    s i vc credit) := by
  unfold State.place
  repeat' (first
    | with_reducible assumption
    | intro _
    | with_reducible apply OptKeeps.ite
    | with_reducible apply Keeps.ite
    | with_reducible exact OptKeeps.none _
    | with_reducible apply OptKeeps.some
    | with_reducible apply State.poolOff_keeps
    | with_reducible apply State.setLk_keeps
    | (extract_lets)
    | split
    | (with_reducible refine OptKeeps.eq (by assumption) ?_))

theorem State.framingError_keeps {r_ : Prop} {z s : State} (i : Nat) (hk : Keeps r_ z s) : Keeps r_ z (State.framingError s i) :=
    by
  unfold State.framingError
  repeat' (first
    | with_reducible assumption
    | intro _
    | with_reducible apply State.abortIn_keeps
    | with_reducible apply State.bump_keeps
    | with_reducible apply State.raise_keeps
    | (extract_lets)
    | split)

theorem State.newPkt_keeps {r_ : Prop} {z s : State} (i : Nat) (h : Nat) (body : Data) (credit : Bool) (hk : Keeps r_ z s) : Keeps
    r_ z (State.newPkt s i h body credit) := by
  unfold State.newPkt
  repeat' (first
    | with_reducible assumption
    | intro _
    | with_reducible apply State.setInq_keeps
    | (extract_lets)
    | split
    | with_reducible apply Keeps.upd)

theorem State.noteDepth_keeps {r_ : Prop} {z s : State} (o : Nat) (hk : Keeps r_ z s) : Keeps r_ z (State.noteDepth s o) := by
  unfold State.noteDepth
  repeat' (first
    | with_reducible assumption
    | intro _
    | with_reducible apply Keeps.ite
    | with_reducible apply State.put_keeps
    | (extract_lets)
    | split
    | with_reducible apply Keeps.upd)

theorem State.moreBrick_keeps {r_ : Prop} {z s : State} (i : Nat) (p : InPkt) (body : Data) (credit : Bool) (hk : Keeps r_ z s) :
    Keeps r_ z (State.moreBrick s i p body credit) := by
  unfold State.moreBrick
  repeat' (first
    | with_reducible assumption
    | intro _
    | with_reducible apply Keeps.ite
    | with_reducible apply State.delPkt_keeps
    | with_reducible apply State.freeSlot_keeps
    | with_reducible apply State.noteDepth_keeps
    | with_reducible apply State.setPkt_keeps
    | (extract_lets)
    | split)

theorem State.frame_keeps {r_ : Prop} {z s : State} (i t : Nat) (body : Data) (hk : Keeps r_ z s) : Keeps r_ z (State.frame s i t
    body) := by
  unfold State.frame
  repeat' (first
    | with_reducible assumption
    | intro _
    | with_reducible apply Keeps.ite
    | with_reducible apply State.framingError_keeps
    | with_reducible apply State.freeSlot_keeps
    | with_reducible apply State.moreBrick_keeps
    | with_reducible apply State.newPkt_keeps
    | (extract_lets)
    | split)

theorem State.freshQueue_keeps {r_ : Prop} {z s : State} (o vc : Nat) (hk : Keeps r_ z s) : Keeps r_ z (State.freshQueue s o vc)
    := by
  unfold State.freshQueue
  repeat' (first
    | with_reducible assumption
    | intro _
    | with_reducible apply Keeps.ite
    | with_reducible apply State.setOut_keeps
    | (extract_lets)
    | split)

theorem State.queueAt_keeps {r_ : Prop} {z s : State} (i : Nat) (p : InPkt) (o : Nat) (hk : Keeps r_ z s) : Keeps r_ z
    (State.queueAt s i p o) := by
  unfold State.queueAt
  repeat' (first
    | with_reducible assumption
    | intro _
    | with_reducible apply State.freshQueue_keeps
    | with_reducible apply State.setPkt_keeps
    | (extract_lets)
    | split)

theorem State.hubTo_keeps {r_ : Prop} {z s : State} (h : Nat) (dest : Option Nat) (d : Data) (hk : Keeps r_ z s) : Keeps r_ z
    (State.hubTo s h dest d) := by
  unfold State.hubTo
  repeat' (first
    | with_reducible assumption
    | intro _
    | with_reducible apply State.freshQueue_keeps
    | with_reducible apply State.setInq_keeps
    | (extract_lets)
    | split
    | with_reducible apply Keeps.upd)

end Sys2Proof.Machine
end

