-- ==== Sys2Proof/Laws/KeepsHif.lean ====
section
/-! SUPPORT. Laws/Keeps.lean, for the operations of Machine/Hif.lean. -/
namespace Sys2Proof.Machine

theorem State.setFn_keeps {r_ : Prop} {z s : State} (f : Nat) (v : Fn) (hk : Keeps r_ z s) : Keeps r_ z (State.setFn s f v) := by
  unfold State.setFn
  repeat' (first
    | with_reducible assumption
    | intro _
    | with_reducible apply Keeps.ite
    | with_reducible apply State.put_keeps
    | (extract_lets)
    | split
    | with_reducible apply Keeps.upd)

theorem State.setSq_keeps {r_ : Prop} {z s : State} (q : Nat) (v : Sq) (hk : Keeps r_ z s) : Keeps r_ z (State.setSq s q v) := by
  unfold State.setSq
  repeat' (first
    | with_reducible assumption
    | intro _
    | with_reducible apply Keeps.ite
    | (extract_lets)
    | split
    | with_reducible apply Keeps.upd)

theorem State.onSq_keeps {r_ : Prop} {z s : State} (q : Nat) (f : Sq → Sq) (hk : Keeps r_ z s) : Keeps r_ z (State.onSq s q f) :=
    by
  unfold State.onSq
  repeat' (first
    | with_reducible assumption
    | intro _
    | with_reducible apply State.setSq_keeps
    | (extract_lets)
    | split)

theorem State.setCq_keeps {r_ : Prop} {z s : State} (c : Nat) (v : Cq) (hk : Keeps r_ z s) : Keeps r_ z (State.setCq s c v) := by
  unfold State.setCq
  repeat' (first
    | with_reducible assumption
    | intro _
    | with_reducible apply Keeps.ite
    | (extract_lets)
    | split
    | with_reducible apply Keeps.upd)

theorem State.setEp_keeps {r_ : Prop} {z s : State} (e : Nat) (v : Ep) (hk : Keeps r_ z s) : Keeps r_ z (State.setEp s e v) := by
  unfold State.setEp
  repeat' (first
    | with_reducible assumption
    | intro _
    | with_reducible apply Keeps.ite
    | (extract_lets)
    | split
    | with_reducible apply Keeps.upd)

theorem State.freeHdr_keeps {r_ : Prop} {z s : State} (i : Nat) (hk : Keeps r_ z s) : Keeps r_ z (State.freeHdr s i) := by
  unfold State.freeHdr
  repeat' (first
    | with_reducible assumption
    | intro _
    | with_reducible apply State.put_keeps
    | (extract_lets)
    | split
    | with_reducible apply Keeps.upd)

theorem State.noteWritten_keeps {r_ : Prop} {z s : State} (slots : List Nat) (hk : Keeps r_ z s) : Keeps r_ z (State.noteWritten s
    slots) := by
  unfold State.noteWritten
  repeat' (first
    | with_reducible assumption
    | intro _
    | with_reducible apply State.onSq_keeps
    | (extract_lets)
    | split)

theorem State.cqPut_keeps {r_ : Prop} {z s : State} (c : Nat) (slots : List Nat) (hk : Keeps r_ z s) : Keeps r_ z (State.cqPut s c
    slots) := by
  unfold State.cqPut
  repeat' (first
    | with_reducible assumption
    | intro _
    | with_reducible apply Keeps.ite
    | with_reducible apply Keeps.foldl
    | with_reducible apply PKeeps.foldl
    | with_reducible apply QKeeps.foldl
    | with_reducible apply PKeeps.fst
    | with_reducible apply QKeeps.snd
    | with_reducible apply State.draw_keepsQ
    | with_reducible apply State.bumpBy_keeps
    | with_reducible apply State.hostWrite_keeps
    | with_reducible apply State.msixSend_keeps
    | with_reducible apply State.noteWritten_keeps
    | with_reducible apply State.put_keeps
    | with_reducible apply State.setCq_keeps
    | (extract_lets)
    | split
    | with_reducible apply PKeeps.pair
    | with_reducible apply QKeeps.pair
    | (with_reducible refine PKeeps.eq (by assumption) ?_)
    | (with_reducible refine QKeeps.eq (by assumption) ?_))

theorem State.cqStall_keeps {r_ : Prop} {z s : State} (c : Nat) (hk : Keeps r_ z s) : Keeps r_ z (State.cqStall s c) := by
  unfold State.cqStall
  repeat' (first
    | with_reducible assumption
    | intro _
    | with_reducible apply Keeps.ite
    | with_reducible apply State.bump_keeps
    | with_reducible apply State.raise_keeps
    | with_reducible apply State.setCq_keeps
    | (extract_lets)
    | split)

theorem State.cqPost_keeps {r_ : Prop} {z s : State} (c : Nat) (slots : List Nat) (hk : Keeps r_ z s) : PKeeps r_ z (State.cqPost
    s c slots) := by
  unfold State.cqPost
  repeat' (first
    | with_reducible assumption
    | intro _
    | with_reducible apply PKeeps.ite
    | with_reducible apply Keeps.ite
    | with_reducible apply PKeeps.fst
    | with_reducible apply State.cqPut_keeps
    | with_reducible apply State.cqStall_keeps
    | with_reducible apply State.setCq_keeps
    | (extract_lets)
    | split
    | with_reducible apply PKeeps.pair
    | (with_reducible refine PKeeps.eq (by assumption) ?_))

theorem State.rxPost_keeps {r_ : Prop} {z s : State} (c : Nat) (slots : List Nat) (hdr : Option Nat) (hk : Keeps r_ z s) : Keeps
    r_ z (State.rxPost s c slots hdr) := by
  unfold State.rxPost
  repeat' (first
    | with_reducible assumption
    | intro _
    | with_reducible apply Keeps.ite
    | with_reducible apply PKeeps.fst
    | with_reducible apply State.cqPost_keeps
    | with_reducible apply State.freeHdr_keeps
    | with_reducible apply State.setCq_keeps
    | (extract_lets)
    | split
    | with_reducible apply PKeeps.pair
    | (with_reducible refine PKeeps.eq (by assumption) ?_))

theorem State.cqDrainHeld_keeps {r_ : Prop} {z s : State} (c : Nat) (k : Nat) (hk : Keeps r_ z s) : Keeps r_ z (State.cqDrainHeld
    s c k) := by
  induction k generalizing s with
  | zero =>
    unfold State.cqDrainHeld
    repeat' (first
      | with_reducible assumption
      | with_reducible apply ih
      | intro _
      | with_reducible apply Keeps.ite
      | with_reducible apply State.cqPut_keeps
      | with_reducible apply State.setCq_keeps
      | (extract_lets)
      | split)
  | succ k ih =>
    unfold State.cqDrainHeld
    repeat' (first
      | with_reducible assumption
      | with_reducible apply ih
      | intro _
      | with_reducible apply Keeps.ite
      | with_reducible apply State.cqPut_keeps
      | with_reducible apply State.setCq_keeps
      | (extract_lets)
      | split)

theorem State.cqDrainOwed_keeps {r_ : Prop} {z s : State} (c : Nat) (k : Nat) (hk : Keeps r_ z s) : Keeps r_ z (State.cqDrainOwed
    s c k) := by
  induction k generalizing s with
  | zero =>
    unfold State.cqDrainOwed
    repeat' (first
      | with_reducible assumption
      | with_reducible apply ih
      | intro _
      | with_reducible apply Keeps.ite
      | with_reducible apply PKeeps.fst
      | with_reducible apply State.cqPost_keeps
      | with_reducible apply State.freeHdr_keeps
      | with_reducible apply State.setCq_keeps
      | (extract_lets)
      | split
      | with_reducible apply PKeeps.pair
      | (with_reducible refine PKeeps.eq (by assumption) ?_))
  | succ k ih =>
    unfold State.cqDrainOwed
    repeat' (first
      | with_reducible assumption
      | with_reducible apply ih
      | intro _
      | with_reducible apply Keeps.ite
      | with_reducible apply PKeeps.fst
      | with_reducible apply State.cqPost_keeps
      | with_reducible apply State.freeHdr_keeps
      | with_reducible apply State.setCq_keeps
      | (extract_lets)
      | split
      | with_reducible apply PKeeps.pair
      | (with_reducible refine PKeeps.eq (by assumption) ?_))

theorem State.cqDrain_keeps {r_ : Prop} {z s : State} (c : Nat) (hk : Keeps r_ z s) : Keeps r_ z (State.cqDrain s c) := by
  unfold State.cqDrain
  repeat' (first
    | with_reducible assumption
    | intro _
    | with_reducible apply Keeps.ite
    | with_reducible apply State.cqDrainHeld_keeps
    | with_reducible apply State.cqDrainOwed_keeps
    | with_reducible apply State.cqStall_keeps
    | with_reducible apply State.setCq_keeps
    | (extract_lets)
    | split)

theorem State.cqResume_keeps {r_ : Prop} {z s : State} (hk : Keeps r_ z s) : Keeps r_ z (State.cqResume s) := by
  unfold State.cqResume
  repeat' (first
    | with_reducible assumption
    | intro _
    | with_reducible apply Keeps.foldl
    | with_reducible apply PKeeps.foldl
    | with_reducible apply QKeeps.foldl
    | with_reducible apply PKeeps.fst
    | with_reducible apply QKeeps.snd
    | with_reducible apply State.draw_keepsQ
    | with_reducible apply State.cqDrain_keeps
    | (extract_lets)
    | split
    | with_reducible apply PKeeps.pair
    | with_reducible apply QKeeps.pair
    | (with_reducible refine PKeeps.eq (by assumption) ?_)
    | (with_reducible refine QKeeps.eq (by assumption) ?_))

theorem State.sqError_keeps {r_ : Prop} {z s : State} (q code : Nat) (ctr : Option RingCtr) (hk : Keeps r_ z s) : Keeps r_ z
    (State.sqError s q code ctr) := by
  unfold State.sqError
  repeat' (first
    | with_reducible assumption
    | intro _
    | with_reducible apply Keeps.ite
    | with_reducible apply State.raise_keeps
    | with_reducible apply State.setSq_keeps
    | (extract_lets)
    | split)

theorem State.finishEntry_keeps {r_ : Prop} {z s : State} (q : Nat) (ctr : RingCtr) (r : Res) (hk : Keeps r_ z s) : Keeps r_ z
    (State.finishEntry s q ctr r) := by
  unfold State.finishEntry
  repeat' (first
    | with_reducible assumption
    | intro _
    | with_reducible apply Keeps.ite
    | with_reducible apply State.onSq_keeps
    | (extract_lets)
    | split)

theorem State.runEntry_keeps {r_ : Prop} {z s : State} (q : Nat) (ctr : RingCtr) (note : Nat) (hk : Keeps r_ z s) : Keeps r_ z
    (State.runEntry s q ctr note) := by
  unfold State.runEntry
  repeat' (first
    | with_reducible assumption
    | intro _
    | with_reducible apply Keeps.ite
    | with_reducible apply State.onSq_keeps
    | (extract_lets)
    | split)

theorem State.dbDrop_keeps {r_ : Prop} {z s : State} (hk : Keeps r_ z s) : Keeps r_ z (State.dbDrop s) := by
  unfold State.dbDrop
  repeat' (first
    | with_reducible assumption
    | intro _
    | with_reducible apply State.bump_keeps
    | (extract_lets)
    | split)

theorem State.sqBell_keeps {r_ : Prop} {z s : State} (q : Nat) (v : Sq) (d : RingCtr) (hk : Keeps r_ z s) : Keeps r_ z
    (State.sqBell s q v d) := by
  unfold State.sqBell
  repeat' (first
    | with_reducible assumption
    | intro _
    | with_reducible apply Keeps.ite
    | with_reducible apply State.bump_keeps
    | with_reducible apply State.setSq_keeps
    | with_reducible apply State.sqError_keeps
    | (extract_lets)
    | split)

theorem execSqDoorbell_keeps {r_ : Prop} {z s : State} (f off size data : Nat) (hk : Keeps r_ z s) : OutKeeps r_ z (execSqDoorbell
    f off size data s) := by
  unfold execSqDoorbell
  repeat' (first
    | with_reducible assumption
    | intro _
    | with_reducible apply OutKeeps.ite
    | with_reducible apply Keeps.ite
    | with_reducible apply OutKeeps.next
    | with_reducible apply State.dbDrop_keeps
    | with_reducible apply State.sqBell_keeps
    | (extract_lets)
    | split)

theorem State.armCq_keeps {r_ : Prop} {z s : State} (c : Nat) (hk : Keeps r_ z s) : Keeps r_ z (State.armCq s c) := by
  unfold State.armCq
  repeat' (first
    | with_reducible assumption
    | intro _
    | with_reducible apply Keeps.ite
    | with_reducible apply State.msixSend_keeps
    | with_reducible apply State.setCq_keeps
    | (extract_lets)
    | split)

theorem State.cqOverflow_keeps {r_ : Prop} {z s : State} (c : Nat) (hk : Keeps r_ z s) : Keeps r_ z (State.cqOverflow s c) := by
  unfold State.cqOverflow
  repeat' (first
    | with_reducible assumption
    | intro _
    | with_reducible apply Keeps.ite
    | with_reducible apply Keeps.foldl
    | with_reducible apply PKeeps.foldl
    | with_reducible apply QKeeps.foldl
    | with_reducible apply PKeeps.fst
    | with_reducible apply QKeeps.snd
    | with_reducible apply State.draw_keepsQ
    | with_reducible apply State.bump_keeps
    | with_reducible apply State.raise_keeps
    | with_reducible apply State.setCq_keeps
    | with_reducible apply State.sqError_keeps
    | (extract_lets)
    | split
    | with_reducible apply PKeeps.pair
    | with_reducible apply QKeeps.pair
    | (with_reducible refine PKeeps.eq (by assumption) ?_)
    | (with_reducible refine QKeeps.eq (by assumption) ?_))

theorem State.cqBell_keeps {r_ : Prop} {z s : State} (c : Nat) (v : Cq) (d : RingCtr) (arm : Bool) (hk : Keeps r_ z s) : Keeps r_
    z (State.cqBell s c v d arm) := by
  unfold State.cqBell
  repeat' (first
    | with_reducible assumption
    | intro _
    | with_reducible apply Keeps.ite
    | with_reducible apply State.armCq_keeps
    | with_reducible apply State.cqDrain_keeps
    | with_reducible apply State.dbDrop_keeps
    | with_reducible apply State.raise_keeps
    | with_reducible apply State.setCq_keeps
    | (extract_lets)
    | split)

theorem execCqDoorbell_keeps {r_ : Prop} {z s : State} (f off size data : Nat) (hk : Keeps r_ z s) : OutKeeps r_ z (execCqDoorbell
    f off size data s) := by
  unfold execCqDoorbell
  repeat' (first
    | with_reducible assumption
    | intro _
    | with_reducible apply OutKeeps.ite
    | with_reducible apply Keeps.ite
    | with_reducible apply OutKeeps.next
    | with_reducible apply State.cqBell_keeps
    | with_reducible apply State.cqOverflow_keeps
    | with_reducible apply State.dbDrop_keeps
    | (extract_lets)
    | split)

theorem State.eqBell_keeps {r_ : Prop} {z s : State} (r ringNo owner : Nat) (d : RingCtr) (arm : Bool) (hk : Keeps r_ z s) : Keeps
    r_ z (State.eqBell s r ringNo owner d arm) := by
  unfold State.eqBell
  repeat' (first
    | with_reducible assumption
    | intro _
    | with_reducible apply Keeps.ite
    | with_reducible apply State.dbDrop_keeps
    | with_reducible apply State.eqDrain_keeps
    | with_reducible apply State.msixSend_keeps
    | with_reducible apply State.raise_keeps
    | with_reducible apply State.setEq_keeps
    | (extract_lets)
    | split)

theorem execEqDoorbell_keeps {r_ : Prop} {z s : State} (f off size data : Nat) (hk : Keeps r_ z s) : OutKeeps r_ z (execEqDoorbell
    f off size data s) := by
  unfold execEqDoorbell
  repeat' (first
    | with_reducible assumption
    | intro _
    | with_reducible apply OutKeeps.ite
    | with_reducible apply Keeps.ite
    | with_reducible apply OutKeeps.next
    | with_reducible apply State.dbDrop_keeps
    | with_reducible apply State.eqBell_keeps
    | (extract_lets)
    | split)

theorem execDeviceEqDoorbell_keeps {r_ : Prop} {z s : State} (f off : Nat) (d : Data) (hk : Keeps r_ z s) : OutKeeps r_ z
    (execDeviceEqDoorbell f off d s) := by
  unfold execDeviceEqDoorbell
  repeat' (first
    | with_reducible assumption
    | intro _
    | with_reducible apply OutKeeps.ite
    | with_reducible apply Keeps.ite
    | with_reducible apply OutKeeps.next
    | with_reducible apply State.dbDrop_keeps
    | with_reducible apply State.eqBell_keeps
    | (extract_lets)
    | split)

theorem execEventsLost_keeps {r_ : Prop} {z s : State} (r : Nat) (hk : Keeps r_ z s) : OutKeeps r_ z (execEventsLost r s) := by
  unfold execEventsLost
  repeat' (first
    | with_reducible assumption
    | intro _
    | with_reducible apply OutKeeps.ite
    | with_reducible apply Keeps.ite
    | with_reducible apply OutKeeps.next
    | with_reducible apply State.eqDrain_keeps
    | with_reducible apply State.eqPut_keeps
    | with_reducible apply State.raiseMute_keeps
    | with_reducible apply State.setEq_keeps
    | (extract_lets)
    | split)

theorem execWorkFetch_keeps {r_ : Prop} {z s : State} (hk : Keeps r_ z s) : OutKeeps r_ z (execWorkFetch s) := by
  unfold execWorkFetch
  repeat' (first
    | with_reducible assumption
    | intro _
    | with_reducible apply OutKeeps.ite
    | with_reducible apply Keeps.ite
    | with_reducible apply OutKeeps.next
    | with_reducible apply State.bumpBy_keeps
    | with_reducible apply State.hostRead_keeps
    | with_reducible apply State.setSq_keeps
    | (extract_lets)
    | split
    | with_reducible apply Keeps.upd)

theorem State.retire_keeps {r_ : Prop} {z s : State} (q : Nat) (v : Sq) (e : Ent) (r : Res) (hk : Keeps r_ z s) : Keeps r_ z
    (State.retire s q v e r) := by
  unfold State.retire
  repeat' (first
    | with_reducible assumption
    | intro _
    | with_reducible apply Keeps.ite
    | with_reducible apply PKeeps.fst
    | with_reducible apply State.cqPost_keeps
    | with_reducible apply State.onSq_keeps
    | with_reducible apply State.setSq_keeps
    | with_reducible apply State.sqError_keeps
    | (extract_lets)
    | split
    | with_reducible apply PKeeps.pair
    | (with_reducible refine PKeeps.eq (by assumption) ?_))

theorem execEntryRetire_keeps {r_ : Prop} {z s : State} (q : Nat) (hk : Keeps r_ z s) : OutKeeps r_ z (execEntryRetire q s) := by
  unfold execEntryRetire
  repeat' (first
    | with_reducible assumption
    | intro _
    | with_reducible apply OutKeeps.ite
    | with_reducible apply Keeps.ite
    | with_reducible apply OutKeeps.next
    | with_reducible apply State.retire_keeps
    | (extract_lets)
    | split)

theorem State.reportError_keeps {r_ : Prop} {z s : State} (q : Nat) (v : Sq) (hk : Keeps r_ z s) : PKeeps r_ z (State.reportError
    s q v) := by
  unfold State.reportError
  repeat' (first
    | with_reducible assumption
    | intro _
    | with_reducible apply PKeeps.ite
    | with_reducible apply Keeps.ite
    | with_reducible apply PKeeps.fst
    | with_reducible apply State.cqPost_keeps
    | with_reducible apply State.onSq_keeps
    | (extract_lets)
    | split
    | with_reducible apply PKeeps.pair
    | (with_reducible refine PKeeps.eq (by assumption) ?_))

theorem execFlushCompletion_keeps {r_ : Prop} {z s : State} (q : Nat) (hk : Keeps r_ z s) : OutKeeps r_ z (execFlushCompletion q
    s) := by
  unfold execFlushCompletion
  repeat' (first
    | with_reducible assumption
    | intro _
    | with_reducible apply OutKeeps.ite
    | with_reducible apply Keeps.ite
    | with_reducible apply PKeeps.fst
    | with_reducible apply OutKeeps.next
    | with_reducible apply State.cqPost_keeps
    | with_reducible apply State.onSq_keeps
    | with_reducible apply State.reportError_keeps
    | (extract_lets)
    | split
    | with_reducible apply PKeeps.pair
    | (with_reducible refine PKeeps.eq (by assumption) ?_))

theorem execCqOverflow_keeps {r_ : Prop} {z s : State} (c : Nat) (hk : Keeps r_ z s) : OutKeeps r_ z (execCqOverflow c s) := by
  unfold execCqOverflow
  repeat' (first
    | with_reducible assumption
    | intro _
    | with_reducible apply OutKeeps.next
    | with_reducible apply State.cqOverflow_keeps
    | (extract_lets)
    | split)

end Sys2Proof.Machine
end

