-- ==== Sys2Proof/Laws/KeepsCol.lean ====
section
/-! SUPPORT. Laws/Keeps.lean, for the operations of Machine/Col.lean. -/
namespace Sys2Proof.Machine

theorem State.setColTree_keeps {r_ : Prop} {z s : State} (t : Nat) (v : ColTree) (hk : Keeps r_ z s) : Keeps r_ z
    (State.setColTree s t v) := by
  unfold State.setColTree
  repeat' (first
    | with_reducible assumption
    | intro _
    | with_reducible apply State.put_keeps
    | (extract_lets)
    | split
    | with_reducible apply Keeps.upd)

theorem State.sendAbort_keeps {r_ : Prop} {z s : State} (t set reason origin port : Nat) (hk : Keeps r_ z s) : Keeps r_ z
    (State.sendAbort s t set reason origin port) := by
  unfold State.sendAbort
  repeat' (first
    | with_reducible assumption
    | intro _
    | with_reducible apply State.hubTo_keeps
    | (extract_lets)
    | split)

theorem State.treeEvent_keeps {r_ : Prop} {z s : State} (t reason : Nat) (hk : Keeps r_ z s) : Keeps r_ z (State.treeEvent s t
    reason) := by
  unfold State.treeEvent
  repeat' (first
    | with_reducible assumption
    | intro _
    | with_reducible apply Keeps.ite
    | with_reducible apply Keeps.foldl
    | with_reducible apply PKeeps.foldl
    | with_reducible apply QKeeps.foldl
    | with_reducible apply State.eqPost_keeps
    | with_reducible apply State.raise_keeps
    | (extract_lets)
    | split)

theorem State.treeFail_keeps {r_ : Prop} {z s : State} (t set reason origin : Nat) (from_ : Option Nat) (hk : Keeps r_ z s) :
    Keeps r_ z (State.treeFail s t set reason origin from_) := by
  unfold State.treeFail
  repeat' (first
    | with_reducible assumption
    | intro _
    | with_reducible apply Keeps.foldl
    | with_reducible apply PKeeps.foldl
    | with_reducible apply QKeeps.foldl
    | with_reducible apply State.bump_keeps
    | with_reducible apply State.finishEntry_keeps
    | with_reducible apply State.sendAbort_keeps
    | with_reducible apply State.setColTree_keeps
    | (extract_lets)
    | split
    | with_reducible apply Keeps.upd)

theorem State.treeError_keeps {r_ : Prop} {z s : State} (t set reason origin : Nat) (from_ : Option Nat) (hk : Keeps r_ z s) :
    Keeps r_ z (State.treeError s t set reason origin from_) := by
  unfold State.treeError
  repeat' (first
    | with_reducible assumption
    | intro _
    | with_reducible apply Keeps.ite
    | with_reducible apply State.treeEvent_keeps
    | with_reducible apply State.treeFail_keeps
    | (extract_lets)
    | split)

theorem State.colPortDown_keeps {r_ : Prop} {z s : State} (p : Nat) (hk : Keeps r_ z s) : Keeps r_ z (State.colPortDown s p) := by
  unfold State.colPortDown
  repeat' (first
    | with_reducible assumption
    | intro _
    | with_reducible apply Keeps.ite
    | with_reducible apply Keeps.foldl
    | with_reducible apply PKeeps.foldl
    | with_reducible apply QKeeps.foldl
    | with_reducible apply State.treeError_keeps
    | (extract_lets)
    | split)

theorem State.colLeave_keeps {r_ : Prop} {z s : State} (t ep : Nat) (hk : Keeps r_ z s) : Keeps r_ z (State.colLeave s t ep) := by
  unfold State.colLeave
  repeat' (first
    | with_reducible assumption
    | intro _
    | with_reducible apply Keeps.ite
    | with_reducible apply State.treeError_keeps
    | (extract_lets)
    | split
    | with_reducible apply Keeps.upd)

theorem State.colLeaveAll_keeps {r_ : Prop} {z s : State} (ep : Nat) (hk : Keeps r_ z s) : Keeps r_ z (State.colLeaveAll s ep) :=
    by
  unfold State.colLeaveAll
  repeat' (first
    | with_reducible assumption
    | intro _
    | with_reducible apply Keeps.foldl
    | with_reducible apply PKeeps.foldl
    | with_reducible apply QKeeps.foldl
    | with_reducible apply PKeeps.fst
    | with_reducible apply State.colLeave_keeps
    | (extract_lets)
    | split
    | with_reducible apply PKeeps.pair
    | (with_reducible refine PKeeps.eq (by assumption) ?_))

theorem State.colSwapTree_keeps {r_ : Prop} {z s : State} (t : Nat) (before : Bool × Nat) (hk : Keeps r_ z s) : Keeps r_ z
    (State.colSwapTree s t before) := by
  unfold State.colSwapTree
  repeat' (first
    | with_reducible assumption
    | intro _
    | with_reducible apply Keeps.ite
    | with_reducible apply State.setColTree_keeps
    | (extract_lets)
    | split
    | with_reducible apply Keeps.upd)

end Sys2Proof.Machine
end

