-- ==== Sys2Proof/Laws/KeepsLaneTx.lean ====
section
/-! SUPPORT. Laws/Keeps.lean, for the operations of Machine/LaneTx.lean. -/
namespace Sys2Proof.Machine

theorem State.drawErrors_keeps {r_ : Prop} {z s : State} (k : Nat) (rest : List Nat) (got : List (Nat × Nat)) (hk : Keeps r_ z s)
    : QKeeps r_ z (State.drawErrors s k rest got) := by
  induction k generalizing s rest got with
  | zero =>
    unfold State.drawErrors
    repeat' (first
      | with_reducible assumption
      | with_reducible apply ih
      | with_reducible exact ih _
      | intro _
      | with_reducible apply QKeeps.snd
      | with_reducible apply State.draw_keepsQ
      | with_reducible apply State.draw_keeps
      | (extract_lets)
      | split
      | with_reducible apply QKeeps.pair
      | (with_reducible refine QKeeps.eq (by assumption) ?_))
  | succ k ih =>
    unfold State.drawErrors
    repeat' (first
      | with_reducible assumption
      | with_reducible apply ih
      | with_reducible exact ih _
      | intro _
      | with_reducible apply QKeeps.snd
      | with_reducible apply State.draw_keepsQ
      | with_reducible apply State.draw_keeps
      | (extract_lets)
      | split
      | with_reducible apply QKeeps.pair
      | (with_reducible refine QKeeps.eq (by assumption) ?_))

theorem State.putCodeword_keeps {r_ : Prop} {z s : State} (n : Nat) (blocks : List Nat) (hk : Keeps r_ z s) : Keeps r_ z
    (State.putCodeword s n blocks) := by
  unfold State.putCodeword
  repeat' (first
    | with_reducible assumption
    | intro _
    | with_reducible apply Keeps.ite
    | with_reducible apply QKeeps.snd
    | with_reducible apply State.draw_keepsQ
    | with_reducible apply State.drawErrors_keeps
    | with_reducible apply State.emit_keeps
    | with_reducible apply State.setLn_keeps
    | (extract_lets)
    | split
    | with_reducible apply QKeeps.pair
    | (with_reducible refine QKeeps.eq (by assumption) ?_))

theorem State.putBlock_keeps {r_ : Prop} {z s : State} (n block : Nat) (hk : Keeps r_ z s) : Keeps r_ z (State.putBlock s n block)
    := by
  unfold State.putBlock
  repeat' (first
    | with_reducible assumption
    | intro _
    | with_reducible apply Keeps.ite
    | with_reducible apply State.putCodeword_keeps
    | with_reducible apply State.setLn_keeps
    | (extract_lets)
    | split)

theorem State.dataBlock_keeps {r_ : Prop} {z s : State} (n payload : Nat) (hk : Keeps r_ z s) : Keeps r_ z (State.dataBlock s n
    payload) := by
  unfold State.dataBlock
  repeat' (first
    | with_reducible assumption
    | intro _
    | with_reducible apply State.putBlock_keeps
    | with_reducible apply State.setLn_keeps
    | (extract_lets)
    | split)

theorem State.laneData_keeps {r_ : Prop} {z s : State} (n : Nat) (d : Data) (hk : Keeps r_ z s) : Keeps r_ z (State.laneData s n
    d) := by
  unfold State.laneData
  repeat' (first
    | with_reducible assumption
    | intro _
    | with_reducible apply Keeps.foldl
    | with_reducible apply PKeeps.foldl
    | with_reducible apply QKeeps.foldl
    | with_reducible apply State.dataBlock_keeps
    | with_reducible apply State.setLn_keeps
    | (extract_lets)
    | split)

theorem State.fillCodeword_keeps {r_ : Prop} {z s : State} (n : Nat) (hk : Keeps r_ z s) : Keeps r_ z (State.fillCodeword s n) :=
    by
  unfold State.fillCodeword
  repeat' (first
    | with_reducible assumption
    | intro _
    | with_reducible apply Keeps.ite
    | with_reducible apply Keeps.foldl
    | with_reducible apply PKeeps.foldl
    | with_reducible apply QKeeps.foldl
    | with_reducible apply State.dataBlock_keeps
    | with_reducible apply State.setLn_keeps
    | (extract_lets)
    | split)

theorem State.layBrick_keeps {r_ : Prop} {z s : State} (p : Nat) (d : Data) (hk : Keeps r_ z s) : Keeps r_ z (State.layBrick s p
    d) := by
  unfold State.layBrick
  repeat' (first
    | with_reducible assumption
    | intro _
    | with_reducible apply Keeps.ite
    | with_reducible apply State.laneData_keeps
    | with_reducible apply State.setPp_keeps
    | (extract_lets)
    | split)

theorem State.putBrick_keeps {r_ : Prop} {z s : State} (p : Nat) (d : Data) (hk : Keeps r_ z s) : Keeps r_ z (State.putBrick s p
    d) := by
  unfold State.putBrick
  repeat' (first
    | with_reducible assumption
    | intro _
    | with_reducible apply State.bump_keeps
    | with_reducible apply State.emit_keeps
    | with_reducible apply State.layBrick_keeps
    | (extract_lets)
    | split)

theorem State.sendMarker_keeps {r_ : Prop} {z s : State} (n : Nat) (early : Bool) (hk : Keeps r_ z s) : Keeps r_ z
    (State.sendMarker s n early) := by
  unfold State.sendMarker
  repeat' (first
    | with_reducible assumption
    | intro _
    | with_reducible apply State.emit_keeps
    | with_reducible apply State.fillCodeword_keeps
    | with_reducible apply State.setLn_keeps
    | (extract_lets)
    | split)

theorem State.sendMarkers_keeps {r_ : Prop} {z s : State} (p : Nat) (hk : Keeps r_ z s) : Keeps r_ z (State.sendMarkers s p) := by
  unfold State.sendMarkers
  repeat' (first
    | with_reducible assumption
    | intro _
    | with_reducible apply Keeps.ite
    | with_reducible apply State.sendMarker_keeps
    | with_reducible apply State.setPp_keeps
    | (extract_lets)
    | split)

end Sys2Proof.Machine
end

