-- ==== Sys2Proof/Laws/KeepsLink.lean ====
section
/-! SUPPORT. Laws/Keeps.lean, for the operations of Machine/Link.lean. -/
namespace Sys2Proof.Machine

theorem State.sendBrick_keeps {r_ : Prop} {z s : State} (p type seq : Nat) (body : Data) (hk : Keeps r_ z s) : Keeps r_ z
    (State.sendBrick s p type seq body) := by
  unfold State.sendBrick
  repeat' (first
    | with_reducible assumption
    | intro _
    | with_reducible apply State.putBrick_keeps
    | (extract_lets)
    | split)

theorem State.startInit_keeps {r_ : Prop} {z s : State} (p : Nat) (resume : Bool) (hk : Keeps r_ z s) : Keeps r_ z
    (State.startInit s p resume) := by
  unfold State.startInit
  repeat' (first
    | with_reducible assumption
    | intro _
    | with_reducible apply State.onLk_keeps
    | (extract_lets)
    | split)

theorem State.reinit_keeps {r_ : Prop} {z s : State} (p : Nat) (hk : Keeps r_ z s) : Keeps r_ z (State.reinit s p) := by
  unfold State.reinit
  repeat' (first
    | with_reducible assumption
    | intro _
    | with_reducible apply Keeps.ite
    | with_reducible apply State.startInit_keeps
    | (extract_lets)
    | split)

theorem State.widthChange_keeps {r_ : Prop} {z s : State} (p : Nat) (hk : Keeps r_ z s) : Keeps r_ z (State.widthChange s p) := by
  unfold State.widthChange
  repeat' (first
    | with_reducible assumption
    | intro _
    | with_reducible apply State.onLk_keeps
    | with_reducible apply State.startInit_keeps
    | (extract_lets)
    | split)

theorem State.protoError_keeps {r_ : Prop} {z s : State} (p : Nat) (hk : Keeps r_ z s) : Keeps r_ z (State.protoError s p) := by
  unfold State.protoError
  repeat' (first
    | with_reducible assumption
    | intro _
    | with_reducible apply State.bump_keeps
    | with_reducible apply State.raise_keeps
    | with_reducible apply State.reinit_keeps
    | (extract_lets)
    | split)

theorem State.abandon_keeps {r_ : Prop} {z s : State} (p : Nat) (hk : Keeps r_ z s) : Keeps r_ z (State.abandon s p) := by
  unfold State.abandon
  repeat' (first
    | with_reducible assumption
    | intro _
    | with_reducible apply Keeps.ite
    | with_reducible apply State.bump_keeps
    | with_reducible apply State.discard_keeps
    | with_reducible apply State.onLk_keeps
    | with_reducible apply State.setOut_keeps
    | (extract_lets)
    | split)

theorem State.dropReplay_keeps {r_ : Prop} {z s : State} (p : Nat) (hk : Keeps r_ z s) : Keeps r_ z (State.dropReplay s p) := by
  unfold State.dropReplay
  repeat' (first
    | with_reducible assumption
    | intro _
    | with_reducible apply State.bumpBy_keeps
    | with_reducible apply State.onLk_keeps
    | (extract_lets)
    | split)

theorem State.abortInput_keeps {r_ : Prop} {z s : State} (p : Nat) (hk : Keeps r_ z s) : Keeps r_ z (State.abortInput s p) := by
  unfold State.abortInput
  repeat' (first
    | with_reducible assumption
    | intro _
    | with_reducible apply State.abortIn_keeps
    | (extract_lets)
    | split)

theorem State.linkDown_keeps {r_ : Prop} {z s : State} (p cause : Nat) (hk : Keeps r_ z s) : Keeps r_ z (State.linkDown s p cause)
    := by
  unfold State.linkDown
  repeat' (first
    | with_reducible assumption
    | intro _
    | with_reducible apply Keeps.ite
    | with_reducible apply State.abandon_keeps
    | with_reducible apply State.abortInput_keeps
    | with_reducible apply State.bump_keeps
    | with_reducible apply State.colPortDown_keeps
    | with_reducible apply State.dropReplay_keeps
    | with_reducible apply State.level_keeps
    | with_reducible apply State.markLinkDown_keeps
    | with_reducible apply State.onLk_keeps
    | (extract_lets)
    | split
    | with_reducible apply Keeps.upd)

theorem State.setHeadroom_keeps {r_ : Prop} {z s : State} (p : Nat) (hk : Keeps r_ z s) : Keeps r_ z (State.setHeadroom s p) := by
  unfold State.setHeadroom
  repeat' (first
    | with_reducible assumption
    | intro _
    | with_reducible apply Keeps.ite
    | with_reducible apply State.onLk_keeps
    | with_reducible apply State.put_keeps
    | with_reducible apply State.raise_keeps
    | (extract_lets)
    | split)

theorem State.upResume_keeps {r_ : Prop} {z s : State} (p : Nat) (rxLast : Nat) (valid : Bool) (hk : Keeps r_ z s) : Keeps r_ z
    (State.upResume s p rxLast valid) := by
  unfold State.upResume
  repeat' (first
    | with_reducible assumption
    | intro _
    | with_reducible apply Keeps.ite
    | with_reducible apply State.bump_keeps
    | with_reducible apply State.bumpIf_keeps
    | with_reducible apply State.setLk_keeps
    | (extract_lets)
    | split)

theorem State.upFresh_keeps {r_ : Prop} {z s : State} (p : Nat) (hk : Keeps r_ z s) : Keeps r_ z (State.upFresh s p) := by
  unfold State.upFresh
  repeat' (first
    | with_reducible assumption
    | intro _
    | with_reducible apply State.abandon_keeps
    | with_reducible apply State.abortInput_keeps
    | with_reducible apply State.dropReplay_keeps
    | with_reducible apply State.onLk_keeps
    | (extract_lets)
    | split)

theorem State.tryUp_keeps {r_ : Prop} {z s : State} (p : Nat) (hk : Keeps r_ z s) : Keeps r_ z (State.tryUp s p) := by
  unfold State.tryUp
  repeat' (first
    | with_reducible assumption
    | intro _
    | with_reducible apply Keeps.ite
    | with_reducible apply State.level_keeps
    | with_reducible apply State.poolOff_keeps
    | with_reducible apply State.setHeadroom_keeps
    | with_reducible apply State.upFresh_keeps
    | with_reducible apply State.upResume_keeps
    | (extract_lets)
    | split)

theorem State.validBrick_keeps {r_ : Prop} {z s : State} (p : Nat) (hk : Keeps r_ z s) : Keeps r_ z (State.validBrick s p) := by
  unfold State.validBrick
  repeat' (first
    | with_reducible assumption
    | intro _
    | with_reducible apply State.bump_keeps
    | with_reducible apply State.onLk_keeps
    | (extract_lets)
    | split)

theorem State.ackBrick_keeps {r_ : Prop} {z s : State} (p a : Nat) (hk : Keeps r_ z s) : Keeps r_ z (State.ackBrick s p a) := by
  unfold State.ackBrick
  repeat' (first
    | with_reducible assumption
    | intro _
    | with_reducible apply Keeps.ite
    | with_reducible apply State.protoError_keeps
    | with_reducible apply State.setLk_keeps
    | (extract_lets)
    | split)

theorem State.startReplay_keeps {r_ : Prop} {z s : State} (p : Nat) (from_ : LinkSeq) (hk : Keeps r_ z s) : Keeps r_ z
    (State.startReplay s p from_) := by
  unfold State.startReplay
  repeat' (first
    | with_reducible assumption
    | intro _
    | with_reducible apply Keeps.ite
    | with_reducible apply State.bump_keeps
    | with_reducible apply State.linkDown_keeps
    | with_reducible apply State.setLk_keeps
    | (extract_lets)
    | split)

theorem State.nakBrick_keeps {r_ : Prop} {z s : State} (p n : Nat) (hk : Keeps r_ z s) : Keeps r_ z (State.nakBrick s p n) := by
  unfold State.nakBrick
  repeat' (first
    | with_reducible assumption
    | intro _
    | with_reducible apply Keeps.ite
    | with_reducible apply State.ackBrick_keeps
    | with_reducible apply State.startReplay_keeps
    | (extract_lets)
    | split)

theorem State.nakDue_keeps {r_ : Prop} {z s : State} (p : Nat) (hk : Keeps r_ z s) : Keeps r_ z (State.nakDue s p) := by
  unfold State.nakDue
  repeat' (first
    | with_reducible assumption
    | intro _
    | with_reducible apply Keeps.ite
    | with_reducible apply State.setLk_keeps
    | (extract_lets)
    | split)

theorem State.creditReturn_keeps {r_ : Prop} {z s : State} (p : Nat) (ret : List Nat) (hk : Keeps r_ z s) : Keeps r_ z
    (State.creditReturn s p ret) := by
  unfold State.creditReturn
  repeat' (first
    | with_reducible assumption
    | intro _
    | with_reducible apply Keeps.ite
    | with_reducible apply State.protoError_keeps
    | with_reducible apply State.setLk_keeps
    | (extract_lets)
    | split)

theorem State.refusePlace_keeps {r_ : Prop} {z s : State} (p ctr : Nat) (hk : Keeps r_ z s) : Keeps r_ z (State.refusePlace s p
    ctr) := by
  unfold State.refusePlace
  repeat' (first
    | with_reducible assumption
    | intro _
    | with_reducible apply State.bump_keeps
    | with_reducible apply State.nakDue_keeps
    | with_reducible apply State.raise_keeps
    | (extract_lets)
    | split)

theorem State.rxSequenced_keeps {r_ : Prop} {z s : State} (p type seq : Nat) (body : Data) (hk : Keeps r_ z s) : Keeps r_ z
    (State.rxSequenced s p type seq body) := by
  unfold State.rxSequenced
  repeat' (first
    | with_reducible assumption
    | intro _
    | with_reducible apply Keeps.ite
    | with_reducible exact OptKeeps.none _
    | with_reducible apply OptKeeps.some
    | with_reducible apply State.abortIn_keeps
    | with_reducible apply State.bump_keeps
    | with_reducible apply State.frame_keeps
    | with_reducible apply State.nakDue_keeps
    | with_reducible apply State.onLk_keeps
    | with_reducible apply State.place_keeps
    | with_reducible apply State.refusePlace_keeps
    | (extract_lets)
    | split
    | (with_reducible refine OptKeeps.eq (by assumption) ?_))

theorem State.rxBrick_keeps {r_ : Prop} {z s : State} (p type seq ack : Nat) (body : Data) (hk : Keeps r_ z s) : Keeps r_ z
    (State.rxBrick s p type seq ack body) := by
  unfold State.rxBrick
  repeat' (first
    | with_reducible assumption
    | intro _
    | with_reducible apply Keeps.ite
    | with_reducible apply State.ackBrick_keeps
    | with_reducible apply State.rxSequenced_keeps
    | with_reducible apply State.validBrick_keeps
    | (extract_lets)
    | split)

theorem execSequencedBrickRx_keeps {r_ : Prop} {z s : State} (p type seq ack : Nat) (body : Data) (hk : Keeps r_ z s) : OutKeeps
    r_ z (execSequencedBrickRx p type seq ack body s) := by
  unfold execSequencedBrickRx
  repeat' (first
    | with_reducible assumption
    | intro _
    | with_reducible apply OutKeeps.ite
    | with_reducible apply Keeps.ite
    | with_reducible apply OutKeeps.next
    | with_reducible apply State.rxBrick_keeps
    | (extract_lets)
    | split)

theorem execAbortBrickRx_keeps {r_ : Prop} {z s : State} (p seq ack reason : Nat) (hk : Keeps r_ z s) : OutKeeps r_ z
    (execAbortBrickRx p seq ack reason s) := by
  unfold execAbortBrickRx
  repeat' (first
    | with_reducible assumption
    | intro _
    | with_reducible apply OutKeeps.ite
    | with_reducible apply Keeps.ite
    | with_reducible apply OutKeeps.next
    | with_reducible apply State.rxBrick_keeps
    | (extract_lets)
    | split)

theorem execBrickCrcError_keeps {r_ : Prop} {z s : State} (p : Nat) (hk : Keeps r_ z s) : OutKeeps r_ z (execBrickCrcError p s) :=
    by
  unfold execBrickCrcError
  repeat' (first
    | with_reducible assumption
    | intro _
    | with_reducible apply OutKeeps.ite
    | with_reducible apply Keeps.ite
    | with_reducible apply OutKeeps.next
    | with_reducible apply State.bump_keeps
    | with_reducible apply State.nakDue_keeps
    | with_reducible apply State.raise_keeps
    | (extract_lets)
    | split)

theorem execReservedBrickRx_keeps {r_ : Prop} {z s : State} (p : Nat) (hk : Keeps r_ z s) : OutKeeps r_ z (execReservedBrickRx p
    s) := by
  unfold execReservedBrickRx
  repeat' (first
    | with_reducible assumption
    | intro _
    | with_reducible apply OutKeeps.ite
    | with_reducible apply Keeps.ite
    | with_reducible apply OutKeeps.next
    | with_reducible apply State.bump_keeps
    | with_reducible apply State.raise_keeps
    | with_reducible apply State.validBrick_keeps
    | (extract_lets)
    | split)

theorem State.farLevel_keeps {r_ : Prop} {z s : State} (p : Nat) (off : Bool) (hk : Keeps r_ z s) : Keeps r_ z (State.farLevel s p
    off) := by
  unfold State.farLevel
  repeat' (first
    | with_reducible assumption
    | intro _
    | with_reducible apply Keeps.ite
    | with_reducible apply State.onLk_keeps
    | (extract_lets)
    | split
    | with_reducible apply Keeps.upd)

theorem State.rxControl_keeps {r_ : Prop} {z s : State} (p seq ack : Nat) (body : Data) (hk : Keeps r_ z s) : Keeps r_ z
    (State.rxControl s p seq ack body) := by
  unfold State.rxControl
  repeat' (first
    | with_reducible assumption
    | intro _
    | with_reducible apply Keeps.ite
    | with_reducible apply State.ackBrick_keeps
    | with_reducible apply State.courseMark_keeps
    | with_reducible apply State.creditReturn_keeps
    | with_reducible apply State.farLevel_keeps
    | with_reducible apply State.nakBrick_keeps
    | with_reducible apply State.nakDue_keeps
    | with_reducible apply State.validBrick_keeps
    | (extract_lets)
    | split)

theorem execControlBrickRx_keeps {r_ : Prop} {z s : State} (p seq ack : Nat) (body : Data) (hk : Keeps r_ z s) : OutKeeps r_ z
    (execControlBrickRx p seq ack body s) := by
  unfold execControlBrickRx
  repeat' (first
    | with_reducible assumption
    | intro _
    | with_reducible apply OutKeeps.ite
    | with_reducible apply Keeps.ite
    | with_reducible apply OutKeeps.next
    | with_reducible apply State.rxControl_keeps
    | (extract_lets)
    | split)

theorem execFenceBrickRx_keeps {r_ : Prop} {z s : State} (p : Nat) (hk : Keeps r_ z s) : OutKeeps r_ z (execFenceBrickRx p s) :=
    by
  unfold execFenceBrickRx
  repeat' (first
    | with_reducible assumption
    | intro _
    | with_reducible apply OutKeeps.ite
    | with_reducible apply Keeps.ite
    | with_reducible apply OutKeeps.next
    | with_reducible apply State.linkDown_keeps
    | with_reducible apply State.validBrick_keeps
    | (extract_lets)
    | split)

theorem State.rttSample_keeps {r_ : Prop} {z s : State} (p echo turn : Nat) (hk : Keeps r_ z s) : Keeps r_ z (State.rttSample s p
    echo turn) := by
  unfold State.rttSample
  repeat' (first
    | with_reducible assumption
    | intro _
    | with_reducible apply Keeps.ite
    | with_reducible apply State.setLk_keeps
    | (extract_lets)
    | split)

theorem State.initLevels_keeps {r_ : Prop} {z s : State} (p : Nat) (body : Data) (hk : Keeps r_ z s) : Keeps r_ z
    (State.initLevels s p body) := by
  unfold State.initLevels
  repeat' (first
    | with_reducible assumption
    | intro _
    | with_reducible apply State.creditReturn_keeps
    | with_reducible apply State.farLevel_keeps
    | (extract_lets)
    | split)

theorem State.noteInit_keeps {r_ : Prop} {z s : State} (p : Nat) (body : Data) (hk : Keeps r_ z s) : Keeps r_ z (State.noteInit s
    p body) := by
  unfold State.noteInit
  repeat' (first
    | with_reducible assumption
    | intro _
    | with_reducible apply State.initLevels_keeps
    | with_reducible apply State.onLk_keeps
    | (extract_lets)
    | split)

theorem State.rxInit_keeps {r_ : Prop} {z s : State} (p : Nat) (body : Data) (hk : Keeps r_ z s) : Keeps r_ z (State.rxInit s p
    body) := by
  unfold State.rxInit
  repeat' (first
    | with_reducible assumption
    | intro _
    | with_reducible apply Keeps.ite
    | with_reducible apply State.noteInit_keeps
    | with_reducible apply State.rttSample_keeps
    | with_reducible apply State.setLk_keeps
    | with_reducible apply State.tryUp_keeps
    | (extract_lets)
    | split)

theorem State.initRx_keeps {r_ : Prop} {z s : State} (p : Nat) (body : Data) (hk : Keeps r_ z s) : Keeps r_ z (State.initRx s p
    body) := by
  unfold State.initRx
  repeat' (first
    | with_reducible assumption
    | intro _
    | with_reducible apply State.noteInit_keeps
    | with_reducible apply State.rxInit_keeps
    | with_reducible apply State.startInit_keeps
    | with_reducible apply State.validBrick_keeps
    | (extract_lets)
    | split)

theorem execInitBrickRx_keeps {r_ : Prop} {z s : State} (p : Nat) (body : Data) (hk : Keeps r_ z s) : OutKeeps r_ z
    (execInitBrickRx p body s) := by
  unfold execInitBrickRx
  repeat' (first
    | with_reducible assumption
    | intro _
    | with_reducible apply OutKeeps.ite
    | with_reducible apply Keeps.ite
    | with_reducible apply OutKeeps.next
    | with_reducible apply State.initRx_keeps
    | (extract_lets)
    | split)

theorem State.sendSequenced_keeps {r_ : Prop} {z s : State} (p type : Nat) (body : Data) (vc : Nat) (credit : Bool) (hk : Keeps r_
    z s) : Keeps r_ z (State.sendSequenced s p type body vc credit) := by
  unfold State.sendSequenced
  repeat' (first
    | with_reducible assumption
    | intro _
    | with_reducible apply Keeps.ite
    | with_reducible apply State.sendBrick_keeps
    | with_reducible apply State.setLk_keeps
    | (extract_lets)
    | split)

theorem State.txBrick_keeps {r_ : Prop} {z s : State} (p i : Nat) (k : InPkt) (hk : Keeps r_ z s) : Keeps r_ z (State.txBrick s p
    i k) := by
  unfold State.txBrick
  repeat' (first
    | with_reducible assumption
    | intro _
    | with_reducible apply Keeps.ite
    | with_reducible apply State.delPkt_keeps
    | with_reducible apply State.freeSlot_keeps
    | with_reducible apply State.onLk_keeps
    | with_reducible apply State.sendSequenced_keeps
    | with_reducible apply State.setOut_keeps
    | with_reducible apply State.setPkt_keeps
    | (extract_lets)
    | split)

theorem execBrickTx_keeps {r_ : Prop} {z s : State} (p : Nat) (hk : Keeps r_ z s) : OutKeeps r_ z (execBrickTx p s) := by
  unfold execBrickTx
  repeat' (first
    | with_reducible assumption
    | intro _
    | with_reducible apply OutKeeps.ite
    | with_reducible apply Keeps.ite
    | with_reducible apply OutKeeps.next
    | with_reducible apply State.txBrick_keeps
    | (extract_lets)
    | split)

theorem State.sendControl_keeps {r_ : Prop} {z s : State} (p : Nat) (hk : Keeps r_ z s) : Keeps r_ z (State.sendControl s p) := by
  unfold State.sendControl
  repeat' (first
    | with_reducible assumption
    | intro _
    | with_reducible apply Keeps.ite
    | with_reducible apply State.bumpIf_keeps
    | with_reducible apply State.nakDue_keeps
    | with_reducible apply State.noteMarkSent_keeps
    | with_reducible apply State.poolOff_keeps
    | with_reducible apply State.sendBrick_keeps
    | with_reducible apply State.setLk_keeps
    | (extract_lets)
    | split)

theorem execControlBrickTx_keeps {r_ : Prop} {z s : State} (p : Nat) (hk : Keeps r_ z s) : OutKeeps r_ z (execControlBrickTx p s)
    := by
  unfold execControlBrickTx
  repeat' (first
    | with_reducible assumption
    | intro _
    | with_reducible apply OutKeeps.ite
    | with_reducible apply Keeps.ite
    | with_reducible apply OutKeeps.next
    | with_reducible apply State.sendControl_keeps
    | (extract_lets)
    | split)

theorem execReplayBrickTx_keeps {r_ : Prop} {z s : State} (p : Nat) (hk : Keeps r_ z s) : OutKeeps r_ z (execReplayBrickTx p s) :=
    by
  unfold execReplayBrickTx
  repeat' (first
    | with_reducible assumption
    | intro _
    | with_reducible apply OutKeeps.ite
    | with_reducible apply Keeps.ite
    | with_reducible apply OutKeeps.next
    | with_reducible apply State.bump_keeps
    | with_reducible apply State.sendBrick_keeps
    | with_reducible apply State.setLk_keeps
    | (extract_lets)
    | split)

theorem execReplayTimerExpiry_keeps {r_ : Prop} {z s : State} (p : Nat) (hk : Keeps r_ z s) : OutKeeps r_ z (execReplayTimerExpiry
    p s) := by
  unfold execReplayTimerExpiry
  repeat' (first
    | with_reducible assumption
    | intro _
    | with_reducible apply OutKeeps.ite
    | with_reducible apply Keeps.ite
    | with_reducible apply OutKeeps.next
    | with_reducible apply State.startReplay_keeps
    | (extract_lets)
    | split)

theorem execLinkInitStart_keeps {r_ : Prop} {z s : State} (p : Nat) (hk : Keeps r_ z s) : OutKeeps r_ z (execLinkInitStart p s) :=
    by
  unfold execLinkInitStart
  repeat' (first
    | with_reducible assumption
    | intro _
    | with_reducible apply OutKeeps.ite
    | with_reducible apply Keeps.ite
    | with_reducible apply OutKeeps.next
    | with_reducible apply State.onLk_keeps
    | with_reducible apply State.startInit_keeps
    | (extract_lets)
    | split)

theorem execInitTimeout_keeps {r_ : Prop} {z s : State} (p : Nat) (hk : Keeps r_ z s) : OutKeeps r_ z (execInitTimeout p s) := by
  unfold execInitTimeout
  repeat' (first
    | with_reducible assumption
    | intro _
    | with_reducible apply OutKeeps.ite
    | with_reducible apply Keeps.ite
    | with_reducible apply OutKeeps.next
    | with_reducible apply State.linkDown_keeps
    | (extract_lets)
    | split)

theorem execKeepaliveTimeout_keeps {r_ : Prop} {z s : State} (p : Nat) (hk : Keeps r_ z s) : OutKeeps r_ z (execKeepaliveTimeout p
    s) := by
  unfold execKeepaliveTimeout
  repeat' (first
    | with_reducible assumption
    | intro _
    | with_reducible apply OutKeeps.ite
    | with_reducible apply Keeps.ite
    | with_reducible apply OutKeeps.next
    | with_reducible apply State.linkDown_keeps
    | (extract_lets)
    | split)

theorem State.phyFell_keeps {r_ : Prop} {z s : State} (p : Nat) (hk : Keeps r_ z s) : Keeps r_ z (State.phyFell s p) := by
  unfold State.phyFell
  repeat' (first
    | with_reducible assumption
    | intro _
    | with_reducible apply State.onLk_keeps
    | (extract_lets)
    | split)

theorem execPhyDown_keeps {r_ : Prop} {z s : State} (p : Nat) (hk : Keeps r_ z s) : OutKeeps r_ z (execPhyDown p s) := by
  unfold execPhyDown
  repeat' (first
    | with_reducible assumption
    | intro _
    | with_reducible apply OutKeeps.ite
    | with_reducible apply Keeps.ite
    | with_reducible apply OutKeeps.next
    | with_reducible apply State.phyFell_keeps
    | (extract_lets)
    | split)

theorem execPhyUp_keeps {r_ : Prop} {z s : State} (p : Nat) (hk : Keeps r_ z s) : OutKeeps r_ z (execPhyUp p s) := by
  unfold execPhyUp
  repeat' (first
    | with_reducible assumption
    | intro _
    | with_reducible apply OutKeeps.ite
    | with_reducible apply Keeps.ite
    | with_reducible apply OutKeeps.next
    | with_reducible apply State.startInit_keeps
    | (extract_lets)
    | split)

theorem execLinkReinit_keeps {r_ : Prop} {z s : State} (p : Nat) (hk : Keeps r_ z s) : OutKeeps r_ z (execLinkReinit p s) := by
  unfold execLinkReinit
  repeat' (first
    | with_reducible assumption
    | intro _
    | with_reducible apply OutKeeps.ite
    | with_reducible apply Keeps.ite
    | with_reducible apply OutKeeps.next
    | with_reducible apply State.reinit_keeps
    | (extract_lets)
    | split)

theorem execInitBrickTx_keeps {r_ : Prop} {z s : State} (p : Nat) (hk : Keeps r_ z s) : OutKeeps r_ z (execInitBrickTx p s) := by
  unfold execInitBrickTx
  repeat' (first
    | with_reducible assumption
    | intro _
    | with_reducible apply OutKeeps.ite
    | with_reducible apply Keeps.ite
    | with_reducible apply OutKeeps.next
    | with_reducible apply State.putBrick_keeps
    | with_reducible apply State.setLk_keeps
    | with_reducible apply State.tryUp_keeps
    | (extract_lets)
    | split)

theorem State.linkForbid_keeps {r_ : Prop} {z s : State} (p : Nat) (hk : Keeps r_ z s) : Keeps r_ z (State.linkForbid s p) := by
  unfold State.linkForbid
  repeat' (first
    | with_reducible assumption
    | intro _
    | with_reducible apply State.linkDown_keeps
    | (extract_lets)
    | split)

end Sys2Proof.Machine
end

