-- ==== Sys2Proof/Laws/KeepsRoute.lean ====
section
/-! SUPPORT. Laws/Keeps.lean, for the operations of Machine/Route.lean. -/
namespace Sys2Proof.Machine

theorem State.routeDrop_keeps {r_ : Prop} {z s : State} (i : Nat) (p : InPkt) (ctr k : Nat) (hk : Keeps r_ z s) : Keeps r_ z
    (State.routeDrop s i p ctr k) := by
  unfold State.routeDrop
  repeat' (first
    | with_reducible assumption
    | intro _
    | with_reducible apply State.bump_keeps
    | with_reducible apply State.discard_keeps
    | with_reducible apply State.raise_keeps
    | (extract_lets)
    | split)

theorem State.lifeDrop_keeps {r_ : Prop} {z s : State} (i : Nat) (p : InPkt) (old : Bool) (hk : Keeps r_ z s) : Keeps r_ z
    (State.lifeDrop s i p old) := by
  unfold State.lifeDrop
  repeat' (first
    | with_reducible assumption
    | intro _
    | with_reducible apply Keeps.ite
    | with_reducible apply State.routeDrop_keeps
    | (extract_lets)
    | split)

theorem State.misrouteDrop_keeps {r_ : Prop} {z s : State} (i : Nat) (p : InPkt) (hk : Keeps r_ z s) : Keeps r_ z
    (State.misrouteDrop s i p) := by
  unfold State.misrouteDrop
  repeat' (first
    | with_reducible assumption
    | intro _
    | with_reducible apply State.routeDrop_keeps
    | (extract_lets)
    | split)

theorem State.unreachDrop_keeps {r_ : Prop} {z s : State} (i : Nat) (p : InPkt) (hk : Keeps r_ z s) : Keeps r_ z
    (State.unreachDrop s i p) := by
  unfold State.unreachDrop
  repeat' (first
    | with_reducible assumption
    | intro _
    | with_reducible apply State.routeDrop_keeps
    | (extract_lets)
    | split)

theorem State.toOut_keeps {r_ : Prop} {z s : State} (i : Nat) (p : InPkt) (o : Nat) (hk : Keeps r_ z s) : Keeps r_ z (State.toOut
    s i p o) := by
  unfold State.toOut
  repeat' (first
    | with_reducible assumption
    | intro _
    | with_reducible apply State.noteDepth_keeps
    | with_reducible apply State.queueAt_keeps
    | (extract_lets)
    | split)

theorem State.routeEndpoint_keeps {r_ : Prop} {z s : State} (i : Nat) (p : InPkt) (hk : Keeps r_ z s) : Keeps r_ z
    (State.routeEndpoint s i p) := by
  unfold State.routeEndpoint
  repeat' (first
    | with_reducible assumption
    | intro _
    | with_reducible apply Keeps.ite
    | with_reducible apply State.bumpIf_keeps
    | with_reducible apply State.misrouteDrop_keeps
    | with_reducible apply State.toOut_keeps
    | with_reducible apply State.unreachDrop_keeps
    | (extract_lets)
    | split)

theorem State.routeArrived_keeps {r_ : Prop} {z s : State} (i : Nat) (p : InPkt) (hk : Keeps r_ z s) : Keeps r_ z
    (State.routeArrived s i p) := by
  unfold State.routeArrived
  repeat' (first
    | with_reducible assumption
    | intro _
    | with_reducible apply Keeps.ite
    | with_reducible apply State.misrouteDrop_keeps
    | with_reducible apply State.routeEndpoint_keeps
    | with_reducible apply State.unreachDrop_keeps
    | (extract_lets)
    | split)

theorem State.routePkt_keeps {r_ : Prop} {z s : State} (i : Nat) (p : InPkt) (hk : Keeps r_ z s) : Keeps r_ z (State.routePkt s i
    p) := by
  unfold State.routePkt
  repeat' (first
    | with_reducible assumption
    | intro _
    | with_reducible apply Keeps.ite
    | with_reducible apply State.bump_keeps
    | with_reducible apply State.discard_keeps
    | with_reducible apply State.lifeDrop_keeps
    | with_reducible apply State.misrouteDrop_keeps
    | with_reducible apply State.routeArrived_keeps
    | with_reducible apply State.routeDrop_keeps
    | with_reducible apply State.toOut_keeps
    | (extract_lets)
    | split)

theorem execPacketRoute_keeps {r_ : Prop} {z s : State} (i : Nat) (hk : Keeps r_ z s) : OutKeeps r_ z (execPacketRoute i s) := by
  unfold execPacketRoute
  repeat' (first
    | with_reducible assumption
    | intro _
    | with_reducible apply OutKeeps.ite
    | with_reducible apply Keeps.ite
    | with_reducible apply OutKeeps.next
    | with_reducible apply State.routePkt_keeps
    | (extract_lets)
    | split)

theorem State.congRx_keeps {r_ : Prop} {z s : State} (i t role : Nat) (keep : State → InPkt → State) (h_keep : ∀ u0 u1, Keeps r_ z
    u0 → Keeps r_ z (keep u0 u1)) (hk : Keeps r_ z s) : Keeps r_ z (State.congRx s i t role keep) := by
  unfold State.congRx
  repeat' (first
    | with_reducible assumption
    | intro _
    | with_reducible apply Keeps.ite
    | with_reducible apply State.bump_keeps
    | with_reducible apply State.discard_keeps
    | with_reducible apply State.misrouteDrop_keeps
    | with_reducible apply State.routeDrop_keeps
    | with_reducible apply h_keep
    | (extract_lets)
    | split)

theorem execCongRowRx_keeps {r_ : Prop} {z s : State} (i : Nat) (hk : Keeps r_ z s) : OutKeeps r_ z (execCongRowRx i s) := by
  unfold execCongRowRx
  repeat' (first
    | with_reducible assumption
    | intro _
    | with_reducible apply OutKeeps.ite
    | with_reducible apply Keeps.ite
    | with_reducible apply OutKeeps.next
    | with_reducible apply State.congRx_keeps
    | (extract_lets)
    | split
    | with_reducible apply Keeps.upd)

theorem execCongColRx_keeps {r_ : Prop} {z s : State} (i : Nat) (hk : Keeps r_ z s) : OutKeeps r_ z (execCongColRx i s) := by
  unfold execCongColRx
  repeat' (first
    | with_reducible assumption
    | intro _
    | with_reducible apply OutKeeps.ite
    | with_reducible apply Keeps.ite
    | with_reducible apply OutKeeps.next
    | with_reducible apply State.congRx_keeps
    | (extract_lets)
    | split
    | with_reducible apply Keeps.upd)

theorem State.courseLevels_keeps {r_ : Prop} {z s : State} (hk : Keeps r_ z s) : Keeps r_ z (State.courseLevels s) := by
  unfold State.courseLevels
  repeat' (first
    | with_reducible assumption
    | intro _
    | with_reducible apply Keeps.foldl
    | with_reducible apply PKeeps.foldl
    | with_reducible apply QKeeps.foldl
    | with_reducible apply State.put_keeps
    | (extract_lets)
    | split
    | with_reducible apply Keeps.upd)

theorem State.sendCongRows_keeps {r_ : Prop} {z s : State} (hk : Keeps r_ z s) : Keeps r_ z (State.sendCongRows s) := by
  unfold State.sendCongRows
  repeat' (first
    | with_reducible assumption
    | intro _
    | with_reducible apply Keeps.foldl
    | with_reducible apply PKeeps.foldl
    | with_reducible apply QKeeps.foldl
    | with_reducible apply State.hubTo_keeps
    | (extract_lets)
    | split)

theorem State.sendCongCols_keeps {r_ : Prop} {z s : State} (late : Bool) (hk : Keeps r_ z s) : Keeps r_ z (State.sendCongCols s
    late) := by
  unfold State.sendCongCols
  repeat' (first
    | with_reducible assumption
    | intro _
    | with_reducible apply Keeps.foldl
    | with_reducible apply PKeeps.foldl
    | with_reducible apply QKeeps.foldl
    | with_reducible apply State.hubTo_keeps
    | (extract_lets)
    | split)

theorem execCongColTx_keeps {r_ : Prop} {z s : State} (hk : Keeps r_ z s) : OutKeeps r_ z (execCongColTx s) := by
  unfold execCongColTx
  repeat' (first
    | with_reducible assumption
    | intro _
    | with_reducible apply OutKeeps.ite
    | with_reducible apply Keeps.ite
    | with_reducible apply OutKeeps.next
    | with_reducible apply State.sendCongCols_keeps
    | (extract_lets)
    | split
    | with_reducible apply Keeps.upd)

theorem State.installMap_keeps {r_ : Prop} {z s : State} (own : Nat) (hk : Keeps r_ z s) : Keeps r_ z (State.installMap s own) :=
    by
  unfold State.installMap
  repeat' (first
    | with_reducible assumption
    | intro _
    | with_reducible apply Keeps.ite
    | with_reducible apply Keeps.foldl
    | with_reducible apply PKeeps.foldl
    | with_reducible apply QKeeps.foldl
    | with_reducible apply PKeeps.fst
    | with_reducible apply QKeeps.snd
    | with_reducible apply State.draw_keepsQ
    | with_reducible apply State.bumpBy_keeps
    | with_reducible apply State.put_keeps
    | with_reducible apply State.raise_keeps
    | (extract_lets)
    | split
    | with_reducible apply PKeeps.pair
    | with_reducible apply QKeeps.pair
    | (with_reducible refine PKeeps.eq (by assumption) ?_)
    | (with_reducible refine QKeeps.eq (by assumption) ?_)
    | with_reducible apply Keeps.upd)

theorem State.routeEnterTransit_keeps {r_ : Prop} {z s : State} (hk : Keeps r_ z s) : Keeps r_ z (State.routeEnterTransit s) := by
  unfold State.routeEnterTransit
  repeat' (first
    | with_reducible assumption
    | intro _
    | (extract_lets)
    | split
    | with_reducible apply Keeps.upd)

theorem State.countRuns_keeps {r_ : Prop} {z s : State} (hk : Keeps r_ z s) : Keeps r_ z (State.countRuns s) := by
  unfold State.countRuns
  repeat' (first
    | with_reducible assumption
    | intro _
    | with_reducible apply Keeps.ite
    | with_reducible apply Keeps.foldl
    | with_reducible apply PKeeps.foldl
    | with_reducible apply QKeeps.foldl
    | with_reducible apply State.put_keeps
    | (extract_lets)
    | split
    | with_reducible apply Keeps.upd)

theorem State.reevaluate_keeps {r_ : Prop} {z s : State} (port : Nat) (hk : Keeps r_ z s) : Keeps r_ z (State.reevaluate s port)
    := by
  unfold State.reevaluate
  repeat' (first
    | with_reducible assumption
    | intro _
    | with_reducible apply Keeps.ite
    | with_reducible apply Keeps.foldl
    | with_reducible apply PKeeps.foldl
    | with_reducible apply QKeeps.foldl
    | with_reducible apply PKeeps.fst
    | with_reducible apply QKeeps.snd
    | with_reducible apply State.draw_keepsQ
    | with_reducible apply State.lifeDrop_keeps
    | with_reducible apply State.routeEndpoint_keeps
    | (extract_lets)
    | split
    | with_reducible apply PKeeps.pair
    | with_reducible apply QKeeps.pair
    | (with_reducible refine PKeeps.eq (by assumption) ?_)
    | (with_reducible refine QKeeps.eq (by assumption) ?_))

theorem execPortDead_keeps {r_ : Prop} {z s : State} (p : Nat) (hk : Keeps r_ z s) : OutKeeps r_ z (execPortDead p s) := by
  unfold execPortDead
  repeat' (first
    | with_reducible assumption
    | intro _
    | with_reducible apply OutKeeps.ite
    | with_reducible apply Keeps.ite
    | with_reducible apply OutKeeps.next
    | with_reducible apply State.reevaluate_keeps
    | (extract_lets)
    | split
    | with_reducible apply Keeps.upd)

theorem execPortRevive_keeps {r_ : Prop} {z s : State} (p : Nat) (hk : Keeps r_ z s) : OutKeeps r_ z (execPortRevive p s) := by
  unfold execPortRevive
  repeat' (first
    | with_reducible assumption
    | intro _
    | with_reducible apply OutKeeps.ite
    | with_reducible apply Keeps.ite
    | with_reducible apply OutKeeps.next
    | (extract_lets)
    | split
    | with_reducible apply Keeps.upd)

theorem State.roleCheck_keeps {r_ : Prop} {z s : State} (set : Nat) (before : List (Nat × Nat × Nat)) (hk : Keeps r_ z s) : Keeps
    r_ z (State.roleCheck s set before) := by
  unfold State.roleCheck
  repeat' (first
    | with_reducible assumption
    | intro _
    | with_reducible apply State.put_keeps
    | with_reducible apply State.raise_keeps
    | (extract_lets)
    | split)

theorem State.lifeWrite_keeps {r_ : Prop} {z s : State} (v : Nat) (hk : Keeps r_ z s) : Keeps r_ z (State.lifeWrite s v) := by
  unfold State.lifeWrite
  repeat' (first
    | with_reducible assumption
    | intro _
    | with_reducible apply Keeps.ite
    | with_reducible apply State.badAccess_keeps
    | with_reducible apply State.put_keeps
    | (extract_lets)
    | split)

end Sys2Proof.Machine
end

