-- ==== Sys2Proof/Laws/KeepsXlt.lean ====
section
/-! SUPPORT. Laws/Keeps.lean, for the operations of Machine/Xlt.lean. -/
namespace Sys2Proof.Machine

theorem State.wcFill_keeps {r_ : Prop} {z s : State} (u : Nat) (es : List WcEnt) (hk : Keeps r_ z s) : Keeps r_ z (State.wcFill s
    u es) := by
  unfold State.wcFill
  repeat' (first
    | with_reducible assumption
    | intro _
    | with_reducible apply Keeps.ite
    | with_reducible apply Keeps.foldl
    | with_reducible apply PKeeps.foldl
    | with_reducible apply QKeeps.foldl
    | with_reducible apply PKeeps.fst
    | with_reducible apply QKeeps.snd
    | with_reducible apply State.draw_keepsQ
    | with_reducible apply State.draw_keeps
    | with_reducible apply State.fillBank_keeps
    | with_reducible apply State.setXu_keeps
    | (extract_lets)
    | split
    | with_reducible apply PKeeps.pair
    | with_reducible apply QKeeps.pair
    | (with_reducible refine PKeeps.eq (by assumption) ?_)
    | (with_reducible refine QKeeps.eq (by assumption) ?_))

theorem State.tlbFill_keeps {r_ : Prop} {z s : State} (u : Nat) (r : XReq) (e : TlbEnt) (hk : Keeps r_ z s) : PKeeps r_ z
    (State.tlbFill s u r e) := by
  unfold State.tlbFill
  repeat' (first
    | with_reducible assumption
    | intro _
    | with_reducible apply PKeeps.ite
    | with_reducible apply Keeps.ite
    | with_reducible apply PKeeps.fst
    | with_reducible apply QKeeps.snd
    | with_reducible apply State.draw_keepsQ
    | with_reducible apply State.draw_keeps
    | with_reducible apply State.fillBank_keeps
    | with_reducible apply State.setXu_keeps
    | with_reducible apply State.tableWrite_keeps
    | (extract_lets)
    | split
    | with_reducible apply PKeeps.pair
    | with_reducible apply QKeeps.pair
    | (with_reducible refine PKeeps.eq (by assumption) ?_)
    | (with_reducible refine QKeeps.eq (by assumption) ?_))

theorem State.logFault_keeps {r_ : Prop} {z s : State} (u : Nat) (r : XReq) (priv : Bool) (f : XFault) (forced : Bool) (hk : Keeps
    r_ z s) : Keeps r_ z (State.logFault s u r priv f forced) := by
  unfold State.logFault
  repeat' (first
    | with_reducible assumption
    | intro _
    | with_reducible apply Keeps.ite
    | with_reducible apply State.bump_keeps
    | with_reducible apply State.bumpIf_keeps
    | with_reducible apply State.level_keeps
    | with_reducible apply State.put_keeps
    | with_reducible apply State.raise_keeps
    | with_reducible apply State.setXu_keeps
    | (extract_lets)
    | split)

theorem State.miss_keeps {r_ : Prop} {z s : State} (u : Nat) (r : XReq) (hk : Keeps r_ z s) : Keeps r_ z (State.miss s u r) := by
  unfold State.miss
  repeat' (first
    | with_reducible assumption
    | intro _
    | with_reducible apply Keeps.ite
    | with_reducible apply State.setXu_keeps
    | (extract_lets)
    | split)

theorem State.takeEnd_keeps {r_ : Prop} {z s : State} (u : Nat) (r : XReq) (hk : Keeps r_ z s) : Keeps r_ z (State.takeEnd s u r)
    := by
  unfold State.takeEnd
  repeat' (first
    | with_reducible assumption
    | intro _
    | with_reducible apply State.setXu_keeps
    | (extract_lets)
    | split)

theorem State.ask_keeps {r_ : Prop} {z s : State} (u : Nat) (r : XReq) (hit : Bool) (hk : Keeps r_ z s) : Keeps r_ z (State.ask s
    u r hit) := by
  unfold State.ask
  repeat' (first
    | with_reducible assumption
    | intro _
    | with_reducible apply Keeps.ite
    | with_reducible apply State.bumpIf_keeps
    | with_reducible apply State.setXu_keeps
    | (extract_lets)
    | split)

theorem State.askedAll_keeps {r_ : Prop} {z s : State} (u : Nat) (who : Who) (hk : Keeps r_ z s) : Keeps r_ z (State.askedAll s u
    who) := by
  unfold State.askedAll
  repeat' (first
    | with_reducible assumption
    | intro _
    | with_reducible apply State.setXu_keeps
    | (extract_lets)
    | split)

theorem State.lookup_keeps {r_ : Prop} {z s : State} (u : Nat) (r : XReq) (hk : Keeps r_ z s) : PKeeps r_ z (State.lookup s u r)
    := by
  unfold State.lookup
  repeat' (first
    | with_reducible assumption
    | intro _
    | with_reducible apply PKeeps.ite
    | with_reducible apply Keeps.ite
    | with_reducible apply PKeeps.fst
    | with_reducible apply State.ask_keeps
    | with_reducible apply State.bump_keeps
    | with_reducible apply State.miss_keeps
    | with_reducible apply State.setXu_keeps
    | with_reducible apply State.takeEnd_keeps
    | (extract_lets)
    | split
    | with_reducible apply PKeeps.pair
    | (with_reducible refine PKeeps.eq (by assumption) ?_))

theorem State.xlate_keeps {r_ : Prop} {z s : State} (u : Nat) (r : XReq) (hk : Keeps r_ z s) : PKeeps r_ z (State.xlate s u r) :=
    by
  unfold State.xlate
  repeat' (first
    | with_reducible assumption
    | intro _
    | with_reducible apply PKeeps.fst
    | with_reducible apply State.askedAll_keeps
    | with_reducible apply State.lookup_keeps
    | (extract_lets)
    | split
    | with_reducible apply PKeeps.pair
    | (with_reducible refine PKeeps.eq (by assumption) ?_))

theorem State.xlateRun_keeps {r_ : Prop} {z s : State} (u : Nat) (r : XReq) (len : Nat) (hk : Keeps r_ z s) : PKeeps r_ z
    (State.xlateRun s u r len) := by
  unfold State.xlateRun
  repeat' (first
    | with_reducible assumption
    | intro _
    | with_reducible apply Keeps.foldl
    | with_reducible apply PKeeps.foldl
    | with_reducible apply QKeeps.foldl
    | with_reducible apply PKeeps.fst
    | with_reducible apply QKeeps.snd
    | with_reducible apply State.draw_keepsQ
    | with_reducible apply State.askedAll_keeps
    | with_reducible apply State.lookup_keeps
    | (extract_lets)
    | split
    | with_reducible apply PKeeps.pair
    | with_reducible apply QKeeps.pair
    | (with_reducible refine PKeeps.eq (by assumption) ?_)
    | (with_reducible refine QKeeps.eq (by assumption) ?_))

theorem State.writePieces_keeps {r_ : Prop} {z s : State} (hp rid : Nat) (l : List (Nat × Nat)) (d : Data) (hk : Keeps r_ z s) :
    Keeps r_ z (State.writePieces s hp rid l d) := by
  unfold State.writePieces
  repeat' (first
    | with_reducible assumption
    | intro _
    | with_reducible apply Keeps.foldl
    | with_reducible apply PKeeps.foldl
    | with_reducible apply QKeeps.foldl
    | with_reducible apply PKeeps.fst
    | with_reducible apply QKeeps.snd
    | with_reducible apply State.draw_keepsQ
    | with_reducible apply State.hostWrite_keeps
    | (extract_lets)
    | split
    | with_reducible apply PKeeps.pair
    | with_reducible apply QKeeps.pair
    | (with_reducible refine PKeeps.eq (by assumption) ?_)
    | (with_reducible refine QKeeps.eq (by assumption) ?_))

theorem State.readRun_keeps {r_ : Prop} {z s : State} (hp rid : Nat) (l : List (Nat × Nat)) (hk : Keeps r_ z s) : Keeps r_ z
    (State.readRun s hp rid l) := by
  unfold State.readRun
  repeat' (first
    | with_reducible assumption
    | intro _
    | with_reducible apply Keeps.foldl
    | with_reducible apply PKeeps.foldl
    | with_reducible apply QKeeps.foldl
    | with_reducible apply PKeeps.fst
    | with_reducible apply QKeeps.snd
    | with_reducible apply State.draw_keepsQ
    | with_reducible apply State.hostRead_keeps
    | (extract_lets)
    | split
    | with_reducible apply PKeeps.pair
    | with_reducible apply QKeeps.pair
    | (with_reducible refine PKeeps.eq (by assumption) ?_)
    | (with_reducible refine QKeeps.eq (by assumption) ?_))

theorem State.walkEnd_keeps {r_ : Prop} {z s : State} (u i : Nat) (hk : Keeps r_ z s) : Keeps r_ z (State.walkEnd s u i) := by
  unfold State.walkEnd
  repeat' (first
    | with_reducible assumption
    | intro _
    | with_reducible apply State.setXu_keeps
    | (extract_lets)
    | split)

theorem State.dropWho_keeps {r_ : Prop} {z s : State} (live : Who → Bool) (u : Nat) (hk : Keeps r_ z s) : Keeps r_ z
    (State.dropWho s live u) := by
  unfold State.dropWho
  repeat' (first
    | with_reducible assumption
    | intro _
    | with_reducible apply Keeps.ite
    | with_reducible apply State.setXu_keeps
    | (extract_lets)
    | split)

theorem State.settleXlt_keeps {r_ : Prop} {z s : State} (hk : Keeps r_ z s) : Keeps r_ z (State.settleXlt s) := by
  unfold State.settleXlt
  repeat' (first
    | with_reducible assumption
    | intro _
    | with_reducible apply Keeps.foldl
    | with_reducible apply PKeeps.foldl
    | with_reducible apply QKeeps.foldl
    | with_reducible apply State.dropWho_keeps
    | (extract_lets)
    | split)

theorem State.dropCore_keeps {r_ : Prop} {z s : State} (c : Nat) (hk : Keeps r_ z s) : Keeps r_ z (State.dropCore s c) := by
  unfold State.dropCore
  repeat' (first
    | with_reducible assumption
    | intro _
    | with_reducible apply Keeps.foldl
    | with_reducible apply PKeeps.foldl
    | with_reducible apply QKeeps.foldl
    | with_reducible apply State.dropWho_keeps
    | (extract_lets)
    | split)

theorem State.walkFault_keeps {r_ : Prop} {z s : State} (u i : Nat) (r : XReq) (priv : Bool) (f : XFault) (forced : Bool) (hk :
    Keeps r_ z s) : Keeps r_ z (State.walkFault s u i r priv f forced) := by
  unfold State.walkFault
  repeat' (first
    | with_reducible assumption
    | intro _
    | with_reducible apply Keeps.ite
    | with_reducible apply State.logFault_keeps
    | with_reducible apply State.setXu_keeps
    | with_reducible apply State.walkEnd_keeps
    | (extract_lets)
    | split)

theorem State.walkFill_keeps {r_ : Prop} {z s : State} (u i : Nat) (r : XReq) (e : TlbEnt) (hk : Keeps r_ z s) : Keeps r_ z
    (State.walkFill s u i r e) := by
  unfold State.walkFill
  repeat' (first
    | with_reducible assumption
    | intro _
    | with_reducible apply Keeps.ite
    | with_reducible apply PKeeps.fst
    | with_reducible apply State.setXu_keeps
    | with_reducible apply State.tlbFill_keeps
    | with_reducible apply State.walkEnd_keeps
    | (extract_lets)
    | split
    | with_reducible apply PKeeps.pair
    | (with_reducible refine PKeeps.eq (by assumption) ?_))

theorem State.walkBad_keeps {r_ : Prop} {z s : State} (u i cause : Nat) (forced : Bool) (hk : Keeps r_ z s) : Keeps r_ z
    (State.walkBad s u i cause forced) := by
  unfold State.walkBad
  repeat' (first
    | with_reducible assumption
    | intro _
    | with_reducible apply State.walkFault_keeps
    | (extract_lets)
    | split)

theorem State.walkOn_keeps {r_ : Prop} {z s : State} (u i : Nat) (hk : Keeps r_ z s) : Keeps r_ z (State.walkOn s u i) := by
  unfold State.walkOn
  extract_lets x
  split
  · exact hk
  · next w _ =>
    extract_lets ask
    have ha : ∀ a b c d e f g, Keeps r_ z (ask a b c d e f g) := by
      intro a b c d e f g
      exact State.hostRead_keeps _ _ _ _ (State.bump_keeps _ (State.setXu_keeps _ _ hk))
    clear_value ask
    split
    · split
      · exact State.setXu_keeps _ _ (State.walkEnd_keeps _ _ (State.wcFill_keeps _ _ hk))
      · exact State.walkFault_keeps _ _ _ _ _ _ (State.wcFill_keeps _ _ hk)
      · exact ha _ _ _ _ _ _ _
    · split
      · exact State.walkFill_keeps _ _ _ _ (State.wcFill_keeps _ _ hk)
      · exact State.walkFault_keeps _ _ _ _ _ _ (State.wcFill_keeps _ _ hk)
      · exact ha _ _ _ _ _ _ _

theorem execPageWalk_keeps {r_ : Prop} {z s : State} (u : Nat) (hk : Keeps r_ z s) : OutKeeps r_ z (execPageWalk u s) := by
  unfold execPageWalk
  repeat' (first
    | with_reducible assumption
    | intro _
    | with_reducible apply OutKeeps.ite
    | with_reducible apply Keeps.ite
    | with_reducible apply OutKeeps.next
    | with_reducible apply State.bump_keeps
    | with_reducible apply State.setXu_keeps
    | with_reducible apply State.walkOn_keeps
    | (extract_lets)
    | split)

theorem execWalkReadReturn_keeps {r_ : Prop} {z s : State} (u i : Nat) (r : ReadResult) (hk : Keeps r_ z s) : OutKeeps r_ z
    (execWalkReadReturn u i r s) := by
  unfold execWalkReadReturn
  repeat' (first
    | with_reducible assumption
    | intro _
    | with_reducible apply OutKeeps.next
    | with_reducible apply State.setXu_keeps
    | with_reducible apply State.walkBad_keeps
    | with_reducible apply State.walkOn_keeps
    | (extract_lets)
    | split)

theorem execTlbAgeExpiry_keeps {r_ : Prop} {z s : State} (u : Nat) (hk : Keeps r_ z s) : OutKeeps r_ z (execTlbAgeExpiry u s) :=
    by
  unfold execTlbAgeExpiry
  repeat' (first
    | with_reducible assumption
    | intro _
    | with_reducible apply OutKeeps.ite
    | with_reducible apply Keeps.ite
    | with_reducible apply OutKeeps.next
    | with_reducible apply State.bumpBy_keeps
    | with_reducible apply State.setXu_keeps
    | (extract_lets)
    | split)

theorem State.invalidate_keeps {r_ : Prop} {z s : State} (u : Nat) (tlb : TlbEnt → Bool) (wc : WcEnt → Bool) (walk : Walk → Bool)
    (hk : Keeps r_ z s) : PKeeps r_ z (State.invalidate s u tlb wc walk) := by
  unfold State.invalidate
  repeat' (first
    | with_reducible assumption
    | intro _
    | with_reducible apply PKeeps.ite
    | with_reducible apply Keeps.ite
    | with_reducible apply Keeps.foldl
    | with_reducible apply PKeeps.foldl
    | with_reducible apply QKeeps.foldl
    | with_reducible apply PKeeps.fst
    | with_reducible apply QKeeps.snd
    | with_reducible apply State.draw_keepsQ
    | with_reducible apply State.bumpBy_keeps
    | with_reducible apply State.setXu_keeps
    | with_reducible apply State.walkOn_keeps
    | (extract_lets)
    | split
    | with_reducible apply PKeeps.pair
    | with_reducible apply QKeeps.pair
    | (with_reducible refine PKeeps.eq (by assumption) ?_)
    | (with_reducible refine QKeeps.eq (by assumption) ?_))

theorem State.invalidateFn_keeps {r_ : Prop} {z s : State} (u f : Nat) (hk : Keeps r_ z s) : PKeeps r_ z (State.invalidateFn s u
    f) := by
  unfold State.invalidateFn
  repeat' (first
    | with_reducible assumption
    | intro _
    | with_reducible apply PKeeps.fst
    | with_reducible apply State.invalidate_keeps
    | (extract_lets)
    | split
    | with_reducible apply PKeeps.pair
    | (with_reducible refine PKeeps.eq (by assumption) ?_))

theorem State.dropReqs_keeps {r_ : Prop} {z s : State} (u f : Nat) (hk : Keeps r_ z s) : Keeps r_ z (State.dropReqs s u f) := by
  unfold State.dropReqs
  repeat' (first
    | with_reducible assumption
    | intro _
    | with_reducible apply State.setXu_keeps
    | (extract_lets)
    | split)

theorem State.emptyUnit_keeps {r_ : Prop} {z s : State} (u : Nat) (hk : Keeps r_ z s) : Keeps r_ z (State.emptyUnit s u) := by
  unfold State.emptyUnit
  repeat' (first
    | with_reducible assumption
    | intro _
    | with_reducible apply State.setXu_keeps
    | (extract_lets)
    | split)

theorem State.malformed_keeps {r_ : Prop} {z s : State} (q : Nat) (e : Ent) (detail : Nat) (hk : Keeps r_ z s) : Keeps r_ z
    (State.malformed s q e detail) := by
  unfold State.malformed
  repeat' (first
    | with_reducible assumption
    | intro _
    | with_reducible apply State.bump_keeps
    | with_reducible apply State.finishEntry_keeps
    | (extract_lets)
    | split)

theorem State.ownsAs_keeps {r_ : Prop} {z s : State} (u : Nat) (r : XReq) (hk : Keeps r_ z s) : PKeeps r_ z (State.ownsAs s u r)
    := by
  unfold State.ownsAs
  repeat' (first
    | with_reducible assumption
    | intro _
    | with_reducible apply PKeeps.ite
    | with_reducible apply Keeps.ite
    | with_reducible apply PKeeps.fst
    | with_reducible apply State.logFault_keeps
    | with_reducible apply State.miss_keeps
    | with_reducible apply State.takeEnd_keeps
    | (extract_lets)
    | split
    | with_reducible apply PKeeps.pair
    | (with_reducible refine PKeeps.eq (by assumption) ?_))

theorem State.invRun_keeps {r_ : Prop} {z s : State} (q : Nat) (e : Ent) (u removed : Nat) (out : Bool) (hk : Keeps r_ z s) :
    Keeps r_ z (State.invRun s q e u removed out) := by
  unfold State.invRun
  repeat' (first
    | with_reducible assumption
    | intro _
    | with_reducible apply State.runEntry_keeps
    | (extract_lets)
    | split)

theorem State.startInv_keeps {r_ : Prop} {z s : State} (q op : Nat) (act : State → Nat → State × Nat) (h_act : ∀ u0 u1, Keeps r_ z
    u0 → PKeeps r_ z (act u0 u1)) (hk : Keeps r_ z s) : Keeps r_ z (State.startInv s q op act) := by
  unfold State.startInv
  repeat' (first
    | with_reducible assumption
    | intro _
    | with_reducible apply Keeps.ite
    | with_reducible apply PKeeps.fst
    | with_reducible apply State.finishEntry_keeps
    | with_reducible apply State.invRun_keeps
    | with_reducible apply State.malformed_keeps
    | with_reducible apply State.ownsAs_keeps
    | with_reducible apply h_act
    | (extract_lets)
    | split
    | with_reducible apply PKeeps.pair
    | (with_reducible refine PKeeps.eq (by assumption) ?_))

theorem execXltInvAddr_keeps {r_ : Prop} {z s : State} (q : Nat) (hk : Keeps r_ z s) : OutKeeps r_ z (execXltInvAddr q s) := by
  unfold execXltInvAddr
  repeat' (first
    | with_reducible assumption
    | intro _
    | with_reducible apply PKeeps.fst
    | with_reducible apply OutKeeps.next
    | with_reducible apply State.invalidate_keeps
    | with_reducible apply State.startInv_keeps
    | (extract_lets)
    | split
    | with_reducible apply PKeeps.pair
    | (with_reducible refine PKeeps.eq (by assumption) ?_))

theorem execXltInvAs_keeps {r_ : Prop} {z s : State} (q : Nat) (hk : Keeps r_ z s) : OutKeeps r_ z (execXltInvAs q s) := by
  unfold execXltInvAs
  repeat' (first
    | with_reducible assumption
    | intro _
    | with_reducible apply PKeeps.fst
    | with_reducible apply OutKeeps.next
    | with_reducible apply State.invalidate_keeps
    | with_reducible apply State.startInv_keeps
    | (extract_lets)
    | split
    | with_reducible apply PKeeps.pair
    | (with_reducible refine PKeeps.eq (by assumption) ?_))

theorem execXltInvFn_keeps {r_ : Prop} {z s : State} (q : Nat) (hk : Keeps r_ z s) : OutKeeps r_ z (execXltInvFn q s) := by
  unfold execXltInvFn
  repeat' (first
    | with_reducible assumption
    | intro _
    | with_reducible apply PKeeps.fst
    | with_reducible apply OutKeeps.next
    | with_reducible apply State.invalidateFn_keeps
    | with_reducible apply State.startInv_keeps
    | (extract_lets)
    | split
    | with_reducible apply PKeeps.pair
    | (with_reducible refine PKeeps.eq (by assumption) ?_))

theorem execXltInvAll_keeps {r_ : Prop} {z s : State} (q : Nat) (hk : Keeps r_ z s) : OutKeeps r_ z (execXltInvAll q s) := by
  unfold execXltInvAll
  repeat' (first
    | with_reducible assumption
    | intro _
    | with_reducible apply PKeeps.fst
    | with_reducible apply OutKeeps.next
    | with_reducible apply State.invalidate_keeps
    | with_reducible apply State.startInv_keeps
    | (extract_lets)
    | split
    | with_reducible apply PKeeps.pair
    | (with_reducible refine PKeeps.eq (by assumption) ?_))

theorem execXltInvComplete_keeps {r_ : Prop} {z s : State} (q : Nat) (hk : Keeps r_ z s) : OutKeeps r_ z (execXltInvComplete q s)
    := by
  unfold execXltInvComplete
  repeat' (first
    | with_reducible assumption
    | intro _
    | with_reducible apply OutKeeps.ite
    | with_reducible apply Keeps.ite
    | with_reducible apply OutKeeps.next
    | with_reducible apply State.finishEntry_keeps
    | with_reducible apply State.hostRead_keeps
    | with_reducible apply State.invRun_keeps
    | (extract_lets)
    | split)

theorem State.lockPage_keeps {r_ : Prop} {z s : State} (u : Nat) (r : XReq) (hk : Keeps r_ z s) : PKeeps r_ z (State.lockPage s u
    r) := by
  unfold State.lockPage
  repeat' (first
    | with_reducible assumption
    | intro _
    | with_reducible apply PKeeps.ite
    | with_reducible apply Keeps.ite
    | with_reducible apply PKeeps.fst
    | with_reducible apply State.miss_keeps
    | with_reducible apply State.setXu_keeps
    | with_reducible apply State.tableWrite_keeps
    | with_reducible apply State.takeEnd_keeps
    | (extract_lets)
    | split
    | with_reducible apply PKeeps.pair
    | (with_reducible refine PKeeps.eq (by assumption) ?_))

theorem State.lockPages_keeps {r_ : Prop} {z s : State} (q : Nat) (e : Ent) (u : Nat) (f : Nat) (k i n : Nat) (hk : Keeps r_ z s)
    : Keeps r_ z (State.lockPages s q e u f k i n) := by
  induction k generalizing s i n with
  | zero =>
    unfold State.lockPages
    repeat' (first
      | with_reducible assumption
      | with_reducible apply ih
      | intro _
      | with_reducible apply PKeeps.fst
      | with_reducible apply State.finishEntry_keeps
      | with_reducible apply State.lockPage_keeps
      | with_reducible apply State.runEntry_keeps
      | (extract_lets)
      | split
      | with_reducible apply PKeeps.pair
      | (with_reducible refine PKeeps.eq (by assumption) ?_))
  | succ k ih =>
    unfold State.lockPages
    repeat' (first
      | with_reducible assumption
      | with_reducible apply ih
      | intro _
      | with_reducible apply PKeeps.fst
      | with_reducible apply State.finishEntry_keeps
      | with_reducible apply State.lockPage_keeps
      | with_reducible apply State.runEntry_keeps
      | (extract_lets)
      | split
      | with_reducible apply PKeeps.pair
      | (with_reducible refine PKeeps.eq (by assumption) ?_))

theorem execXltLock_keeps {r_ : Prop} {z s : State} (q : Nat) (hk : Keeps r_ z s) : OutKeeps r_ z (execXltLock q s) := by
  unfold execXltLock
  repeat' (first
    | with_reducible assumption
    | intro _
    | with_reducible apply OutKeeps.next
    | with_reducible apply State.lockPages_keeps
    | (extract_lets)
    | split)

theorem execXltUnlock_keeps {r_ : Prop} {z s : State} (q : Nat) (hk : Keeps r_ z s) : OutKeeps r_ z (execXltUnlock q s) := by
  unfold execXltUnlock
  repeat' (first
    | with_reducible assumption
    | intro _
    | with_reducible apply OutKeeps.ite
    | with_reducible apply Keeps.ite
    | with_reducible apply OutKeeps.next
    | with_reducible apply State.finishEntry_keeps
    | with_reducible apply State.setXu_keeps
    | with_reducible apply State.tableWrite_keeps
    | (extract_lets)
    | split)

theorem State.coreAccess_keeps {r_ : Prop} {z s : State} (core addr acc len : Nat) (go : State → Nat → List (Nat × Nat) → State)
    (h_go : ∀ u0 u1 u2, Keeps r_ z u0 → Keeps r_ z (go u0 u1 u2)) (hk : Keeps r_ z s) : Keeps r_ z (State.coreAccess s core addr
    acc len go) := by
  unfold State.coreAccess
  repeat' (first
    | with_reducible assumption
    | intro _
    | with_reducible apply Keeps.ite
    | with_reducible apply PKeeps.fst
    | with_reducible apply State.emit_keeps
    | with_reducible apply State.xlateRun_keeps
    | with_reducible apply h_go
    | (extract_lets)
    | split
    | with_reducible apply PKeeps.pair
    | (with_reducible refine PKeeps.eq (by assumption) ?_))

end Sys2Proof.Machine
end

