-- ==== Sys2Proof/Laws/KeepsTrn.lean ====
section
/-! SUPPORT. Laws/Keeps.lean, for the operations of Machine/Trn.lean. -/
namespace Sys2Proof.Machine

theorem State.setCtx_keeps {r_ : Prop} {z s : State} (k : Nat) (c : Ctx) (hk : Keeps r_ z s) : Keeps r_ z (State.setCtx s k c) :=
    by
  unfold State.setCtx
  repeat' (first
    | with_reducible assumption
    | intro _
    | (extract_lets)
    | split
    | with_reducible apply Keeps.upd)

theorem State.onCtx_keeps {r_ : Prop} {z s : State} (k : Nat) (f : Ctx → Ctx) (hk : Keeps r_ z s) : Keeps r_ z (State.onCtx s k f)
    := by
  unfold State.onCtx
  repeat' (first
    | with_reducible assumption
    | intro _
    | with_reducible apply State.setCtx_keeps
    | (extract_lets)
    | split)

theorem State.freshCtx_keeps {r_ : Prop} {z s : State} (epoch : Nat) (hk : Keeps r_ z s) : QKeeps r_ z (State.freshCtx s epoch) :=
    by
  unfold State.freshCtx
  repeat' (first
    | with_reducible assumption
    | intro _
    | with_reducible apply QKeeps.snd
    | with_reducible apply State.draw_keepsQ
    | with_reducible apply State.draw_keeps
    | (extract_lets)
    | split
    | with_reducible apply QKeeps.pair
    | (with_reducible refine QKeeps.eq (by assumption) ?_))

theorem State.spill_keeps {r_ : Prop} {z s : State} (k : Nat) (c : Ctx) (hk : Keeps r_ z s) : Keeps r_ z (State.spill s k c) := by
  unfold State.spill
  repeat' (first
    | with_reducible assumption
    | intro _
    | with_reducible apply Keeps.ite
    | with_reducible apply State.bump_keeps
    | with_reducible apply State.hostWrite_keeps
    | (extract_lets)
    | split
    | with_reducible apply Keeps.upd)

theorem State.evictOne_keeps {r_ : Prop} {z s : State} (inbound : Bool) (hk : Keeps r_ z s) : Keeps r_ z (State.evictOne s
    inbound) := by
  unfold State.evictOne
  repeat' (first
    | with_reducible assumption
    | intro _
    | with_reducible apply QKeeps.snd
    | with_reducible apply State.draw_keepsQ
    | with_reducible apply State.draw_keeps
    | with_reducible apply State.spill_keeps
    | (extract_lets)
    | split
    | with_reducible apply QKeeps.pair
    | (with_reducible refine QKeeps.eq (by assumption) ?_))

theorem State.loadCtx_keeps {r_ : Prop} {z s : State} (k : Nat) (inbound : Bool) (hk : Keeps r_ z s) : Keeps r_ z (State.loadCtx s
    k inbound) := by
  unfold State.loadCtx
  repeat' (first
    | with_reducible assumption
    | intro _
    | with_reducible apply State.hostRead_keeps
    | (extract_lets)
    | split
    | with_reducible apply Keeps.upd)

theorem State.needCtx_keeps {r_ : Prop} {z s : State} (k : Nat) (inbound : Bool) (hk : Keeps r_ z s) : PKeeps r_ z (State.needCtx
    s k inbound) := by
  unfold State.needCtx
  repeat' (first
    | with_reducible assumption
    | intro _
    | with_reducible apply PKeeps.ite
    | with_reducible apply Keeps.ite
    | with_reducible apply PKeeps.fst
    | with_reducible apply State.evictOne_keeps
    | with_reducible apply State.level_keeps
    | with_reducible apply State.loadCtx_keeps
    | (extract_lets)
    | split
    | with_reducible apply PKeeps.pair
    | (with_reducible refine PKeeps.eq (by assumption) ?_)
    | with_reducible apply Keeps.upd)

theorem State.setOp_keeps {r_ : Prop} {z s : State} (i : Nat) (o : Op) (hk : Keeps r_ z s) : Keeps r_ z (State.setOp s i o) := by
  unfold State.setOp
  repeat' (first
    | with_reducible assumption
    | intro _
    | (extract_lets)
    | split
    | with_reducible apply Keeps.upd)

theorem State.delOp_keeps {r_ : Prop} {z s : State} (i : Nat) (hk : Keeps r_ z s) : Keeps r_ z (State.delOp s i) := by
  unfold State.delOp
  repeat' (first
    | with_reducible assumption
    | intro _
    | (extract_lets)
    | split
    | with_reducible apply Keeps.upd)

theorem State.finishOp_keeps {r_ : Prop} {z s : State} (i : Nat) (r : Res) (hk : Keeps r_ z s) : Keeps r_ z (State.finishOp s i r)
    := by
  unfold State.finishOp
  repeat' (first
    | with_reducible assumption
    | intro _
    | with_reducible apply Keeps.ite
    | with_reducible apply State.setOp_keeps
    | (extract_lets)
    | split)

theorem State.newOp_keeps {r_ : Prop} {z s : State} (o : Op) (hk : Keeps r_ z s) : Keeps r_ z (State.newOp s o) := by
  unfold State.newOp
  repeat' (first
    | with_reducible assumption
    | intro _
    | with_reducible apply QKeeps.snd
    | with_reducible apply State.draw_keepsQ
    | with_reducible apply State.draw_keeps
    | with_reducible apply State.setOp_keeps
    | (extract_lets)
    | split
    | with_reducible apply QKeeps.pair
    | (with_reducible refine QKeeps.eq (by assumption) ?_)
    | with_reducible apply Keeps.upd)

theorem State.answer_keeps {r_ : Prop} {z s : State} (a : Arr) (origin : OpOrigin) (opcode opLen fields : Nat) (pay : PaySrc) (hk
    : Keeps r_ z s) : Keeps r_ z (State.answer s a origin opcode opLen fields pay) := by
  unfold State.answer
  repeat' (first
    | with_reducible assumption
    | intro _
    | with_reducible apply State.newOp_keeps
    | (extract_lets)
    | split)

theorem State.result_keeps {r_ : Prop} {z s : State} (a : Arr) (origin : OpOrigin) (status detail extra : Nat) (hk : Keeps r_ z s)
    : Keeps r_ z (State.result s a origin status detail extra) := by
  unfold State.result
  repeat' (first
    | with_reducible assumption
    | intro _
    | with_reducible apply State.answer_keeps
    | (extract_lets)
    | split)

theorem State.noteRefused_keeps {r_ : Prop} {z s : State} (a : Arr) (hk : Keeps r_ z s) : Keeps r_ z (State.noteRefused s a) := by
  unfold State.noteRefused
  repeat' (first
    | with_reducible assumption
    | intro _
    | with_reducible apply Keeps.ite
    | with_reducible apply State.onCtx_keeps
    | (extract_lets)
    | split)

theorem State.refuseEp_keeps {r_ : Prop} {z s : State} (a : Arr) (detail : Nat) (hk : Keeps r_ z s) : Keeps r_ z (State.refuseEp s
    a detail) := by
  unfold State.refuseEp
  repeat' (first
    | with_reducible assumption
    | intro _
    | with_reducible apply Keeps.ite
    | with_reducible apply State.bump_keeps
    | with_reducible apply State.noteRefused_keeps
    | with_reducible apply State.result_keeps
    | (extract_lets)
    | split)

theorem State.classBegins_keeps {r_ : Prop} {z s : State} (h tc : Nat) (hk : Keeps r_ z s) : Keeps r_ z (State.classBegins s h tc)
    := by
  unfold State.classBegins
  repeat' (first
    | with_reducible assumption
    | intro _
    | with_reducible apply Keeps.ite
    | with_reducible apply State.put_keeps
    | (extract_lets)
    | split
    | with_reducible apply Keeps.upd)

theorem State.queueTx_keeps {r_ : Prop} {z s : State} (s0 : State) (k st : Nat) (p : TxPkt) (h_s0 : Keeps r_ z s0) (hk : Keeps r_
    z s) : Keeps r_ z (State.queueTx s0 k st p) := by
  unfold State.queueTx
  repeat' (first
    | with_reducible assumption
    | intro _
    | with_reducible apply Keeps.ite
    | with_reducible apply State.classBegins_keeps
    | with_reducible apply State.put_keeps
    | with_reducible apply h_s0
    | (extract_lets)
    | split
    | with_reducible apply Keeps.upd)

theorem State.ctxFail_keeps {r_ : Prop} {z s : State} (k detail : Nat) (cause : Option Nat) (hk : Keeps r_ z s) : Keeps r_ z
    (State.ctxFail s k detail cause) := by
  unfold State.ctxFail
  repeat' (first
    | with_reducible assumption
    | intro _
    | with_reducible apply Keeps.ite
    | with_reducible apply Keeps.foldl
    | with_reducible apply PKeeps.foldl
    | with_reducible apply QKeeps.foldl
    | with_reducible apply PKeeps.fst
    | with_reducible apply QKeeps.snd
    | with_reducible apply State.draw_keepsQ
    | with_reducible apply State.bump_keeps
    | with_reducible apply State.finishOp_keeps
    | with_reducible apply State.setCtx_keeps
    | (extract_lets)
    | split
    | with_reducible apply PKeeps.pair
    | with_reducible apply QKeeps.pair
    | (with_reducible refine PKeeps.eq (by assumption) ?_)
    | (with_reducible refine QKeeps.eq (by assumption) ?_)
    | with_reducible apply Keeps.upd)

theorem State.ctxError_keeps {r_ : Prop} {z s : State} (k detail : Nat) (cause : Option Nat) (hk : Keeps r_ z s) : Keeps r_ z
    (State.ctxError s k detail cause) := by
  unfold State.ctxError
  repeat' (first
    | with_reducible assumption
    | intro _
    | with_reducible apply Keeps.ite
    | with_reducible apply State.ctxFail_keeps
    | with_reducible apply State.raise_keeps
    | (extract_lets)
    | split)

theorem State.pickHash_keeps {r_ : Prop} {z s : State} (c : Ctx) (ordered : Bool) (own : Nat) (hk : Keeps r_ z s) : QKeeps r_ z
    (State.pickHash s c ordered own) := by
  unfold State.pickHash
  repeat' (first
    | with_reducible assumption
    | intro _
    | with_reducible apply QKeeps.ite
    | with_reducible apply Keeps.ite
    | with_reducible apply QKeeps.snd
    | with_reducible apply State.draw_keepsQ
    | with_reducible apply State.draw_keeps
    | (extract_lets)
    | split
    | with_reducible apply QKeeps.pair
    | (with_reducible refine QKeeps.eq (by assumption) ?_))

theorem State.retransmit_keeps {r_ : Prop} {z s : State} (k st psn : Nat) (hk : Keeps r_ z s) : Keeps r_ z (State.retransmit s k
    st psn) := by
  unfold State.retransmit
  repeat' (first
    | with_reducible assumption
    | intro _
    | with_reducible apply Keeps.ite
    | with_reducible apply QKeeps.snd
    | with_reducible apply State.draw_keepsQ
    | with_reducible apply State.bump_keeps
    | with_reducible apply State.ctxError_keeps
    | with_reducible apply State.onCtx_keeps
    | with_reducible apply State.pickHash_keeps
    | with_reducible apply State.queueTx_keeps
    | (extract_lets)
    | split
    | with_reducible apply QKeeps.pair
    | (with_reducible refine QKeeps.eq (by assumption) ?_))

theorem State.payload_keeps {r_ : Prop} {z s : State} (hm : HostView) (hp n : Nat) (o : Op) (i : Nat) (hk : Keeps r_ z s) : PKeeps
    r_ z (State.payload s hm hp n o i) := by
  unfold State.payload
  repeat' (first
    | with_reducible assumption
    | intro _
    | with_reducible apply PKeeps.fst
    | with_reducible apply State.readRun_keeps
    | with_reducible apply State.xlateRun_keeps
    | (extract_lets)
    | split
    | with_reducible apply PKeeps.pair
    | (with_reducible refine PKeeps.eq (by assumption) ?_))

theorem State.sendPkt_keeps {r_ : Prop} {z s : State} (i : Nat) (o : Op) (c : Ctx) (sl : Slot) (pay : Data) (hk : Keeps r_ z s) :
    Keeps r_ z (State.sendPkt s i o c sl pay) := by
  unfold State.sendPkt
  repeat' (first
    | with_reducible assumption
    | intro _
    | with_reducible apply Keeps.ite
    | with_reducible apply PKeeps.fst
    | with_reducible apply QKeeps.snd
    | with_reducible apply State.draw_keepsQ
    | with_reducible apply State.onCtx_keeps
    | with_reducible apply State.payload_keeps
    | with_reducible apply State.pickHash_keeps
    | with_reducible apply State.queueTx_keeps
    | with_reducible apply State.setOp_keeps
    | (extract_lets)
    | split
    | with_reducible apply PKeeps.pair
    | with_reducible apply QKeeps.pair
    | (with_reducible refine PKeeps.eq (by assumption) ?_)
    | (with_reducible refine QKeeps.eq (by assumption) ?_))

theorem State.transportSend_keeps {r_ : Prop} {z s : State} (i : Nat) (hm : HostView) (hk : Keeps r_ z s) : Keeps r_ z
    (State.transportSend s i hm) := by
  unfold State.transportSend
  repeat' (first
    | with_reducible assumption
    | intro _
    | with_reducible apply Keeps.ite
    | with_reducible apply PKeeps.fst
    | with_reducible apply State.finishOp_keeps
    | with_reducible apply State.needCtx_keeps
    | with_reducible apply State.payload_keeps
    | with_reducible apply State.sendPkt_keeps
    | (extract_lets)
    | split
    | with_reducible apply PKeeps.pair
    | (with_reducible refine PKeeps.eq (by assumption) ?_))

theorem State.sendAck_keeps {r_ : Prop} {z s : State} (k st : Nat) (hk : Keeps r_ z s) : Keeps r_ z (State.sendAck s k st) := by
  unfold State.sendAck
  repeat' (first
    | with_reducible assumption
    | intro _
    | with_reducible apply Keeps.ite
    | with_reducible apply State.onCtx_keeps
    | with_reducible apply State.put_keeps
    | (extract_lets)
    | split
    | with_reducible apply Keeps.upd)

theorem State.ackDue_keeps {r_ : Prop} {z s : State} (k st : Nat) (now : Bool) (hk : Keeps r_ z s) : Keeps r_ z (State.ackDue s k
    st now) := by
  unfold State.ackDue
  repeat' (first
    | with_reducible assumption
    | intro _
    | with_reducible apply Keeps.ite
    | with_reducible apply State.onCtx_keeps
    | with_reducible apply State.sendAck_keeps
    | (extract_lets)
    | split)

theorem State.orderedRetx_keeps {r_ : Prop} {z s : State} (k st : Nat) (hk : Keeps r_ z s) : Keeps r_ z (State.orderedRetx s k st)
    := by
  unfold State.orderedRetx
  repeat' (first
    | with_reducible assumption
    | intro _
    | with_reducible apply Keeps.ite
    | with_reducible apply Keeps.foldl
    | with_reducible apply PKeeps.foldl
    | with_reducible apply QKeeps.foldl
    | with_reducible apply State.retransmit_keeps
    | with_reducible apply State.setCtx_keeps
    | (extract_lets)
    | split)

theorem State.releaseHolds_keeps {r_ : Prop} {z s : State} (k st : Nat) (hk : Keeps r_ z s) : Keeps r_ z (State.releaseHolds s k
    st) := by
  unfold State.releaseHolds
  repeat' (first
    | with_reducible assumption
    | intro _
    | with_reducible apply Keeps.ite
    | (extract_lets)
    | split
    | with_reducible apply Keeps.upd)

theorem State.actOnAck_keeps {r_ : Prop} {z s : State} (k : Nat) (c : Ctx) (b : Data) (hk : Keeps r_ z s) : Keeps r_ z
    (State.actOnAck s k c b) := by
  unfold State.actOnAck
  repeat' (first
    | with_reducible assumption
    | intro _
    | with_reducible apply Keeps.ite
    | with_reducible apply Keeps.foldl
    | with_reducible apply PKeeps.foldl
    | with_reducible apply QKeeps.foldl
    | with_reducible apply State.bumpIf_keeps
    | with_reducible apply State.orderedRetx_keeps
    | with_reducible apply State.releaseHolds_keeps
    | with_reducible apply State.setCtx_keeps
    | (extract_lets)
    | split)

theorem State.adopt_keeps {r_ : Prop} {z s : State} (k : Nat) (c : Ctx) (g : BitVec 32) (hk : Keeps r_ z s) : Keeps r_ z
    (State.adopt s k c g) := by
  unfold State.adopt
  repeat' (first
    | with_reducible assumption
    | intro _
    | with_reducible apply Keeps.ite
    | with_reducible apply Keeps.foldl
    | with_reducible apply PKeeps.foldl
    | with_reducible apply QKeeps.foldl
    | with_reducible apply PKeeps.fst
    | with_reducible apply QKeeps.snd
    | with_reducible apply State.draw_keepsQ
    | with_reducible apply State.finishOp_keeps
    | with_reducible apply State.raise_keeps
    | with_reducible apply State.setCtx_keeps
    | (extract_lets)
    | split
    | with_reducible apply PKeeps.pair
    | with_reducible apply QKeeps.pair
    | (with_reducible refine PKeeps.eq (by assumption) ?_)
    | (with_reducible refine QKeeps.eq (by assumption) ?_))

theorem State.msgRefused_keeps {r_ : Prop} {z s : State} (a : Arr) (hk : Keeps r_ z s) : Keeps r_ z (State.msgRefused s a) := by
  unfold State.msgRefused
  repeat' (first
    | with_reducible assumption
    | intro _
    | with_reducible apply Keeps.ite
    | with_reducible apply State.bump_keeps
    | with_reducible apply State.raise_keeps
    | (extract_lets)
    | split)

theorem State.deliver_keeps {r_ : Prop} {z s : State} (a : Arr) (hk : Keeps r_ z s) : Keeps r_ z (State.deliver s a) := by
  unfold State.deliver
  repeat' (first
    | with_reducible assumption
    | intro _
    | with_reducible apply Keeps.ite
    | with_reducible apply State.msgRefused_keeps
    | with_reducible apply State.noteRefused_keeps
    | with_reducible apply State.refuseEp_keeps
    | with_reducible apply State.result_keeps
    | (extract_lets)
    | split
    | with_reducible apply Keeps.upd)

theorem State.acceptPkt_keeps {r_ : Prop} {z s : State} (a : Arr) (c : Ctx) (adv : Option Nat) (hk : Keeps r_ z s) : Keeps r_ z
    (State.acceptPkt s a c adv) := by
  unfold State.acceptPkt
  repeat' (first
    | with_reducible assumption
    | intro _
    | with_reducible apply Keeps.ite
    | with_reducible apply State.ackDue_keeps
    | with_reducible apply State.bump_keeps
    | with_reducible apply State.deliver_keeps
    | with_reducible apply State.onCtx_keeps
    | with_reducible apply State.setCtx_keeps
    | (extract_lets)
    | split)

theorem State.rxChecked_keeps {r_ : Prop} {z s : State} (k : Nat) (sl : Slot) (c : Ctx) (h th : Nat) (rest : Data) (hk : Keeps r_
    z s) : Keeps r_ z (State.rxChecked s k sl c h th rest) := by
  unfold State.rxChecked
  repeat' (first
    | with_reducible assumption
    | intro _
    | with_reducible apply Keeps.ite
    | with_reducible apply State.acceptPkt_keeps
    | with_reducible apply State.ackDue_keeps
    | with_reducible apply State.adopt_keeps
    | with_reducible apply State.bump_keeps
    | with_reducible apply State.onCtx_keeps
    | with_reducible apply State.raise_keeps
    | (extract_lets)
    | split)

theorem State.hubDrop_keeps {r_ : Prop} {z s : State} (h j : Nat) (hk : Keeps r_ z s) : Keeps r_ z (State.hubDrop s h j) := by
  unfold State.hubDrop
  repeat' (first
    | with_reducible assumption
    | intro _
    | with_reducible apply State.put_keeps
    | (extract_lets)
    | split
    | with_reducible apply Keeps.upd)

theorem State.hubPop_keeps {r_ : Prop} {z s : State} (h : Nat) (hk : Keeps r_ z s) : Keeps r_ z (State.hubPop s h) := by
  unfold State.hubPop
  repeat' (first
    | with_reducible assumption
    | intro _
    | with_reducible apply State.hubDrop_keeps
    | (extract_lets)
    | split)

theorem State.rxAt_keeps {r_ : Prop} {z s : State} (h j : Nat) (d : Data) (hk : Keeps r_ z s) : Keeps r_ z (State.rxAt s h j d) :=
    by
  unfold State.rxAt
  repeat' (first
    | with_reducible assumption
    | intro _
    | with_reducible apply Keeps.ite
    | with_reducible apply PKeeps.fst
    | with_reducible apply State.bump_keeps
    | with_reducible apply State.hubDrop_keeps
    | with_reducible apply State.needCtx_keeps
    | with_reducible apply State.raise_keeps
    | with_reducible apply State.rxChecked_keeps
    | (extract_lets)
    | split
    | with_reducible apply PKeeps.pair
    | (with_reducible refine PKeeps.eq (by assumption) ?_)
    | with_reducible apply Keeps.upd)

theorem State.transportRx_keeps {r_ : Prop} {z s : State} (h : Nat) (hk : Keeps r_ z s) : Keeps r_ z (State.transportRx s h) := by
  unfold State.transportRx
  repeat' (first
    | with_reducible assumption
    | intro _
    | with_reducible apply Keeps.ite
    | with_reducible apply State.rxAt_keeps
    | (extract_lets)
    | split)

theorem State.ackAt_keeps {r_ : Prop} {z s : State} (h j : Nat) (d : Data) (hk : Keeps r_ z s) : Keeps r_ z (State.ackAt s h j d)
    := by
  unfold State.ackAt
  repeat' (first
    | with_reducible assumption
    | intro _
    | with_reducible apply Keeps.ite
    | with_reducible apply State.actOnAck_keeps
    | with_reducible apply State.bump_keeps
    | with_reducible apply State.hubDrop_keeps
    | with_reducible apply State.raise_keeps
    | (extract_lets)
    | split)

theorem State.ackRx_keeps {r_ : Prop} {z s : State} (h : Nat) (hk : Keeps r_ z s) : Keeps r_ z (State.ackRx s h) := by
  unfold State.ackRx
  repeat' (first
    | with_reducible assumption
    | intro _
    | with_reducible apply Keeps.ite
    | with_reducible apply State.ackAt_keeps
    | (extract_lets)
    | split)

theorem State.trnResult_keeps {r_ : Prop} {z s : State} (r : Nat) (hk : Keeps r_ z s) : Keeps r_ z (State.trnResult s r) := by
  unfold State.trnResult
  repeat' (first
    | with_reducible assumption
    | intro _
    | with_reducible apply State.put_keeps
    | with_reducible apply State.result_keeps
    | (extract_lets)
    | split)

theorem State.resetLoaded_keeps {r_ : Prop} {z s : State} (k : Nat) (hk : Keeps r_ z s) : Keeps r_ z (State.resetLoaded s k) := by
  unfold State.resetLoaded
  repeat' (first
    | with_reducible assumption
    | intro _
    | with_reducible apply Keeps.ite
    | with_reducible apply State.ctxError_keeps
    | with_reducible apply State.trnResult_keeps
    | (extract_lets)
    | split
    | with_reducible apply Keeps.upd)

theorem State.settleReset_keeps {r_ : Prop} {z s : State} (hk : Keeps r_ z s) : Keeps r_ z (State.settleReset s) := by
  unfold State.settleReset
  repeat' (first
    | with_reducible assumption
    | intro _
    | with_reducible apply Keeps.ite
    | with_reducible apply PKeeps.fst
    | with_reducible apply State.needCtx_keeps
    | with_reducible apply State.resetLoaded_keeps
    | with_reducible apply State.trnResult_keeps
    | (extract_lets)
    | split
    | with_reducible apply PKeeps.pair
    | (with_reducible refine PKeeps.eq (by assumption) ?_)
    | with_reducible apply Keeps.upd)

end Sys2Proof.Machine
end

