-- ==== Sys2Proof/Laws/KeepsSched.lean ====
section
/-! SUPPORT. Laws/Keeps.lean, for the operations of Machine/Sched.lean. -/
namespace Sys2Proof.Machine

theorem State.setMeter_keeps {r_ : Prop} {z s : State} (m : Nat) (v : Meter) (hk : Keeps r_ z s) : Keeps r_ z (State.setMeter s m
    v) := by
  unfold State.setMeter
  repeat' (first
    | with_reducible assumption
    | intro _
    | with_reducible apply State.put_keeps
    | (extract_lets)
    | split
    | with_reducible apply Keeps.upd)

theorem State.setShaper_keeps {r_ : Prop} {z s : State} (m : Nat) (v : Int) (hk : Keeps r_ z s) : Keeps r_ z (State.setShaper s m
    v) := by
  unfold State.setShaper
  repeat' (first
    | with_reducible assumption
    | intro _
    | with_reducible apply State.put_keeps
    | (extract_lets)
    | split
    | with_reducible apply Keeps.upd)

theorem State.refill_keeps {r_ : Prop} {z s : State} (hk : Keeps r_ z s) : Keeps r_ z (State.refill s) := by
  unfold State.refill
  repeat' (first
    | with_reducible assumption
    | intro _
    | with_reducible apply Keeps.foldl
    | with_reducible apply PKeeps.foldl
    | with_reducible apply QKeeps.foldl
    | with_reducible apply PKeeps.fst
    | with_reducible apply QKeeps.snd
    | with_reducible apply State.draw_keepsQ
    | with_reducible apply State.setMeter_keeps
    | with_reducible apply State.setShaper_keeps
    | (extract_lets)
    | split
    | with_reducible apply PKeeps.pair
    | with_reducible apply QKeeps.pair
    | (with_reducible refine PKeeps.eq (by assumption) ?_)
    | (with_reducible refine QKeeps.eq (by assumption) ?_)
    | with_reducible apply Keeps.upd)

theorem State.swapBuckets_keeps {r_ : Prop} {z s : State} (hk : Keeps r_ z s) : Keeps r_ z (State.swapBuckets s) := by
  unfold State.swapBuckets
  repeat' (first
    | with_reducible assumption
    | intro _
    | with_reducible apply Keeps.foldl
    | with_reducible apply PKeeps.foldl
    | with_reducible apply QKeeps.foldl
    | with_reducible apply PKeeps.fst
    | with_reducible apply QKeeps.snd
    | with_reducible apply State.draw_keepsQ
    | with_reducible apply State.setMeter_keeps
    | (extract_lets)
    | split
    | with_reducible apply PKeeps.pair
    | with_reducible apply QKeeps.pair
    | (with_reducible refine PKeeps.eq (by assumption) ?_)
    | (with_reducible refine QKeeps.eq (by assumption) ?_)
    | with_reducible apply Keeps.upd)

theorem State.colourOf_keeps {r_ : Prop} {z s : State} (p : InjPkt) (hk : Keeps r_ z s) : QKeeps r_ z (State.colourOf s p) := by
  unfold State.colourOf
  repeat' (first
    | with_reducible assumption
    | intro _
    | with_reducible apply QKeeps.ite
    | with_reducible apply Keeps.ite
    | with_reducible apply QKeeps.snd
    | with_reducible apply State.draw_keepsQ
    | with_reducible apply State.setMeter_keeps
    | (extract_lets)
    | split
    | with_reducible apply QKeeps.pair
    | (with_reducible refine QKeeps.eq (by assumption) ?_))

theorem State.setInjQ_keeps {r_ : Prop} {z s : State} (h : Nat) (l : List InjPkt) (hk : Keeps r_ z s) : Keeps r_ z (State.setInjQ
    s h l) := by
  unfold State.setInjQ
  repeat' (first
    | with_reducible assumption
    | intro _
    | with_reducible apply State.put_keeps
    | (extract_lets)
    | split
    | with_reducible apply Keeps.upd)

theorem State.putInj_keeps {r_ : Prop} {z s : State} (h : Nat) (p : InjPkt) (hk : Keeps r_ z s) : Keeps r_ z (State.putInj s h p)
    := by
  unfold State.putInj
  repeat' (first
    | with_reducible assumption
    | intro _
    | with_reducible apply Keeps.ite
    | with_reducible apply State.setInjQ_keeps
    | (extract_lets)
    | split)

theorem State.dropInj_keeps {r_ : Prop} {z s : State} (h id : Nat) (hk : Keeps r_ z s) : Keeps r_ z (State.dropInj s h id) := by
  unfold State.dropInj
  repeat' (first
    | with_reducible assumption
    | intro _
    | with_reducible apply State.setInjQ_keeps
    | (extract_lets)
    | split)

theorem State.chargeShaper_keeps {r_ : Prop} {z s : State} (p : InjPkt) (hk : Keeps r_ z s) : Keeps r_ z (State.chargeShaper s p)
    := by
  unfold State.chargeShaper
  repeat' (first
    | with_reducible assumption
    | intro _
    | with_reducible apply State.setShaper_keeps
    | (extract_lets)
    | split)

theorem State.noteGates_keeps {r_ : Prop} {z s : State} (h : Nat) (hk : Keeps r_ z s) : Keeps r_ z (State.noteGates s h) := by
  unfold State.noteGates
  repeat' (first
    | with_reducible assumption
    | intro _
    | with_reducible apply Keeps.ite
    | with_reducible apply State.setInjQ_keeps
    | (extract_lets)
    | split)

theorem State.onTxPkt_keeps {r_ : Prop} {z s : State} (k st psn : Nat) (f : TxPkt → TxPkt) (hk : Keeps r_ z s) : Keeps r_ z
    (State.onTxPkt s k st psn f) := by
  unfold State.onTxPkt
  repeat' (first
    | with_reducible assumption
    | intro _
    | with_reducible apply Keeps.ite
    | with_reducible apply State.setCtx_keeps
    | (extract_lets)
    | split)

theorem State.noteSent_keeps {r_ : Prop} {z s : State} (p : InjPkt) (hk : Keeps r_ z s) : Keeps r_ z (State.noteSent s p) := by
  unfold State.noteSent
  repeat' (first
    | with_reducible assumption
    | intro _
    | with_reducible apply Keeps.ite
    | with_reducible apply State.bump_keeps
    | with_reducible apply State.onTxPkt_keeps
    | with_reducible apply State.setCtx_keeps
    | (extract_lets)
    | split)

theorem State.launch_keeps {r_ : Prop} {z s : State} (h : Nat) (p : InjPkt) (colour : Nat) (way : Option (Nat × Nat)) (hk : Keeps
    r_ z s) : Keeps r_ z (State.launch s h p colour way) := by
  unfold State.launch
  repeat' (first
    | with_reducible assumption
    | intro _
    | with_reducible apply Keeps.ite
    | with_reducible apply State.bump_keeps
    | with_reducible apply State.dropInj_keeps
    | with_reducible apply State.hubTo_keeps
    | with_reducible apply State.noteSent_keeps
    | with_reducible apply State.onCtx_keeps
    | with_reducible apply State.raise_keeps
    | (extract_lets)
    | split)

theorem State.injPath_keeps {r_ : Prop} {z s : State} (h : Nat) (p : InjPkt) (hk : Keeps r_ z s) : QKeeps r_ z (State.injPath s h
    p) := by
  unfold State.injPath
  repeat' (first
    | with_reducible assumption
    | intro _
    | with_reducible apply QKeeps.snd
    | with_reducible apply State.draw_keepsQ
    | (extract_lets)
    | split
    | with_reducible apply QKeeps.pair
    | (with_reducible refine QKeeps.eq (by assumption) ?_)
    | with_reducible apply Keeps.upd)

theorem State.injectAs_keeps {r_ : Prop} {z s : State} (h : Nat) (p : InjPkt) (colour : Nat) (hk : Keeps r_ z s) : Keeps r_ z
    (State.injectAs s h p colour) := by
  unfold State.injectAs
  repeat' (first
    | with_reducible assumption
    | intro _
    | with_reducible apply QKeeps.snd
    | with_reducible apply State.draw_keepsQ
    | with_reducible apply State.injPath_keeps
    | with_reducible apply State.launch_keeps
    | (extract_lets)
    | split
    | with_reducible apply QKeeps.pair
    | (with_reducible refine QKeeps.eq (by assumption) ?_))

theorem State.injectRequest_keeps {r_ : Prop} {z s : State} (h : Nat) (p : InjPkt) (hk : Keeps r_ z s) : Keeps r_ z
    (State.injectRequest s h p) := by
  unfold State.injectRequest
  repeat' (first
    | with_reducible assumption
    | intro _
    | with_reducible apply Keeps.ite
    | with_reducible apply QKeeps.snd
    | with_reducible apply State.draw_keepsQ
    | with_reducible apply State.bump_keeps
    | with_reducible apply State.chargeShaper_keeps
    | with_reducible apply State.colourOf_keeps
    | with_reducible apply State.dropInj_keeps
    | with_reducible apply State.injectAs_keeps
    | with_reducible apply State.noteSent_keeps
    | with_reducible apply State.putInj_keeps
    | (extract_lets)
    | split
    | with_reducible apply QKeeps.pair
    | (with_reducible refine QKeeps.eq (by assumption) ?_)
    | with_reducible apply Keeps.upd)

theorem State.holdForOrder_keeps {r_ : Prop} {z s : State} (h : Nat) (p : InjPkt) (hk : Keeps r_ z s) : OptKeeps r_ z
    (State.holdForOrder s h p) := by
  unfold State.holdForOrder
  repeat' (first
    | with_reducible assumption
    | intro _
    | with_reducible apply OptKeeps.ite
    | with_reducible apply Keeps.ite
    | with_reducible apply QKeeps.snd
    | with_reducible apply State.draw_keepsQ
    | with_reducible exact OptKeeps.none _
    | with_reducible apply OptKeeps.some
    | with_reducible apply State.injPath_keeps
    | with_reducible apply State.putInj_keeps
    | (extract_lets)
    | split
    | with_reducible apply QKeeps.pair
    | (with_reducible refine QKeeps.eq (by assumption) ?_)
    | (with_reducible refine OptKeeps.eq (by assumption) ?_))

theorem State.inject_keeps {r_ : Prop} {z s : State} (h : Nat) (p : InjPkt) (hk : Keeps r_ z s) : Keeps r_ z (State.inject s h p)
    := by
  unfold State.inject
  repeat' (first
    | with_reducible assumption
    | intro _
    | with_reducible apply Keeps.ite
    | with_reducible exact OptKeeps.none _
    | with_reducible apply OptKeeps.some
    | with_reducible apply State.holdForOrder_keeps
    | with_reducible apply State.injectAs_keeps
    | with_reducible apply State.injectRequest_keeps
    | (extract_lets)
    | split
    | (with_reducible refine OptKeeps.eq (by assumption) ?_))

theorem State.keepCharge_keeps {r_ : Prop} {z s : State} (s0 : State) (h : Nat) (h_s0 : Keeps r_ z s0) (hk : Keeps r_ z s) : Keeps
    r_ z (State.keepCharge s s0 h) := by
  unfold State.keepCharge
  repeat' (first
    | with_reducible assumption
    | intro _
    | with_reducible apply Keeps.ite
    | with_reducible apply h_s0
    | (extract_lets)
    | split
    | with_reducible apply Keeps.upd)

theorem execPacketInject_keeps {r_ : Prop} {z s : State} (h : Nat) (hk : Keeps r_ z s) : OutKeeps r_ z (execPacketInject h s) :=
    by
  unfold execPacketInject
  repeat' (first
    | with_reducible assumption
    | intro _
    | with_reducible apply OutKeeps.ite
    | with_reducible apply Keeps.ite
    | with_reducible apply OutKeeps.next
    | with_reducible apply State.inject_keeps
    | with_reducible apply State.keepCharge_keeps
    | with_reducible apply State.noteGates_keeps
    | with_reducible apply State.put_keeps
    | (extract_lets)
    | split
    | with_reducible apply Keeps.upd)

theorem execDeferredRetest_keeps {r_ : Prop} {z s : State} (hk : Keeps r_ z s) : OutKeeps r_ z (execDeferredRetest s) := by
  unfold execDeferredRetest
  repeat' (first
    | with_reducible assumption
    | intro _
    | with_reducible apply OutKeeps.ite
    | with_reducible apply Keeps.ite
    | with_reducible apply Keeps.foldl
    | with_reducible apply PKeeps.foldl
    | with_reducible apply QKeeps.foldl
    | with_reducible apply PKeeps.fst
    | with_reducible apply QKeeps.snd
    | with_reducible apply State.draw_keepsQ
    | with_reducible apply OutKeeps.next
    | with_reducible apply State.bump_keeps
    | with_reducible apply State.colourOf_keeps
    | with_reducible apply State.dropInj_keeps
    | with_reducible apply State.noteSent_keeps
    | with_reducible apply State.putInj_keeps
    | (extract_lets)
    | split
    | with_reducible apply PKeeps.pair
    | with_reducible apply QKeeps.pair
    | (with_reducible refine PKeeps.eq (by assumption) ?_)
    | (with_reducible refine QKeeps.eq (by assumption) ?_)
    | with_reducible apply Keeps.upd)

theorem State.hubTake_keeps {r_ : Prop} {z s : State} (h i : Nat) (p : InPkt) (hk : Keeps r_ z s) : Keeps r_ z (State.hubTake s h
    i p) := by
  unfold State.hubTake
  repeat' (first
    | with_reducible assumption
    | intro _
    | with_reducible apply Keeps.ite
    | with_reducible apply State.bump_keeps
    | with_reducible apply State.delPkt_keeps
    | with_reducible apply State.freeForms_keeps
    | with_reducible apply State.put_keeps
    | (extract_lets)
    | split
    | with_reducible apply Keeps.upd)

theorem State.startPkt_keeps {r_ : Prop} {z s : State} (o i vc : Nat) (p : InPkt) (hk : Keeps r_ z s) : Keeps r_ z (State.startPkt
    s o i vc p) := by
  unfold State.startPkt
  repeat' (first
    | with_reducible assumption
    | intro _
    | with_reducible apply Keeps.ite
    | with_reducible apply State.bumpIf_keeps
    | with_reducible apply State.hubTake_keeps
    | with_reducible apply State.onLk_keeps
    | with_reducible apply State.setOut_keeps
    | with_reducible apply State.setPkt_keeps
    | (extract_lets)
    | split)

theorem State.vcEnds_keeps {r_ : Prop} {z s : State} (o vc : Nat) (hk : Keeps r_ z s) : Keeps r_ z (State.vcEnds s o vc) := by
  unfold State.vcEnds
  repeat' (first
    | with_reducible assumption
    | intro _
    | with_reducible apply Keeps.ite
    | with_reducible apply State.setOut_keeps
    | (extract_lets)
    | split)

theorem State.scheduleDrr_keeps {r_ : Prop} {z s : State} (o : Nat) (hk : Keeps r_ z s) : Keeps r_ z (State.scheduleDrr s o) := by
  unfold State.scheduleDrr
  repeat' (first
    | with_reducible assumption
    | intro _
    | with_reducible apply Keeps.ite
    | with_reducible apply State.setOut_keeps
    | with_reducible apply State.startPkt_keeps
    | with_reducible apply State.vcEnds_keeps
    | (extract_lets)
    | split)

theorem State.noCapWait_keeps {r_ : Prop} {z s : State} (o : Nat) (hk : Keeps r_ z s) : Keeps r_ z (State.noCapWait s o) := by
  unfold State.noCapWait
  repeat' (first
    | with_reducible assumption
    | intro _
    | with_reducible apply State.setOut_keeps
    | (extract_lets)
    | split)

theorem execOutputSchedule_keeps {r_ : Prop} {z s : State} (o : Nat) (hk : Keeps r_ z s) : OutKeeps r_ z (execOutputSchedule o s)
    := by
  unfold execOutputSchedule
  repeat' (first
    | with_reducible assumption
    | intro _
    | with_reducible apply OutKeeps.ite
    | with_reducible apply Keeps.ite
    | with_reducible apply OutKeeps.next
    | with_reducible apply State.bump_keeps
    | with_reducible apply State.noCapWait_keeps
    | with_reducible apply State.raise_keeps
    | with_reducible apply State.scheduleDrr_keeps
    | with_reducible apply State.setOut_keeps
    | with_reducible apply State.startPkt_keeps
    | (extract_lets)
    | split)

end Sys2Proof.Machine
end

