-- ==== Sys2Proof/Laws/KeepsMch.lean ====
section
/-! SUPPORT. Laws/Keeps.lean, for the operations of Machine/Mch.lean. -/
namespace Sys2Proof.Machine

theorem State.pick_keeps {r_ : Prop} {z s : State} (n : Nat) (used : List Nat) (hk : Keeps r_ z s) : QKeeps r_ z (State.pick s n
    used) := by
  unfold State.pick
  repeat' (first
    | with_reducible assumption
    | intro _
    | with_reducible apply QKeeps.ite
    | with_reducible apply Keeps.ite
    | with_reducible apply QKeeps.snd
    | with_reducible apply State.draw_keepsQ
    | with_reducible apply State.draw_keeps
    | (extract_lets)
    | split
    | with_reducible apply QKeeps.pair
    | (with_reducible refine QKeeps.eq (by assumption) ?_))

theorem State.onMch_keeps {r_ : Prop} {z s : State} (f : Mch → Mch) (hk : Keeps r_ z s) : Keeps r_ z (State.onMch s f) := by
  unfold State.onMch
  repeat' (first
    | with_reducible assumption
    | intro _
    | (extract_lets)
    | split
    | with_reducible apply Keeps.upd)

theorem State.takeArr_keeps {r_ : Prop} {z s : State} (a : Arr) (hk : Keeps r_ z s) : Keeps r_ z (State.takeArr s a) := by
  unfold State.takeArr
  repeat' (first
    | with_reducible assumption
    | intro _
    | (extract_lets)
    | split
    | with_reducible apply Keeps.upd)

theorem State.cacheOrder_keeps {r_ : Prop} {z s : State} (k : Nat) (r : OrderRec) (hk : Keeps r_ z s) : Keeps r_ z
    (State.cacheOrder s k r) := by
  unfold State.cacheOrder
  repeat' (first
    | with_reducible assumption
    | intro _
    | with_reducible apply Keeps.ite
    | with_reducible apply QKeeps.snd
    | with_reducible apply State.draw_keepsQ
    | with_reducible apply State.draw_keeps
    | with_reducible apply State.fillBank_keeps
    | with_reducible apply State.hostWrite_keeps
    | with_reducible apply State.onMch_keeps
    | (extract_lets)
    | split
    | with_reducible apply QKeeps.pair
    | (with_reducible refine QKeeps.eq (by assumption) ?_))

theorem State.needOrder_keeps {r_ : Prop} {z s : State} (ep dir peer context : Nat) (hk : Keeps r_ z s) : PKeeps r_ z
    (State.needOrder s ep dir peer context) := by
  unfold State.needOrder
  repeat' (first
    | with_reducible assumption
    | intro _
    | with_reducible apply PKeeps.ite
    | with_reducible apply Keeps.ite
    | with_reducible apply PKeeps.fst
    | with_reducible apply State.hostRead_keeps
    | with_reducible apply State.onMch_keeps
    | (extract_lets)
    | split
    | with_reducible apply PKeeps.pair
    | (with_reducible refine PKeeps.eq (by assumption) ?_))

theorem State.orderReturn_keeps {r_ : Prop} {z s : State} (i : Nat) (r : ReadResult) (hk : Keeps r_ z s) : Keeps r_ z
    (State.orderReturn s i r) := by
  unfold State.orderReturn
  repeat' (first
    | with_reducible assumption
    | intro _
    | with_reducible apply State.cacheOrder_keeps
    | with_reducible apply State.onMch_keeps
    | with_reducible apply State.raise_keeps
    | (extract_lets)
    | split)

theorem State.setMsn_keeps {r_ : Prop} {z s : State} (k : Nat) (msn : Psn) (hk : Keeps r_ z s) : Keeps r_ z (State.setMsn s k msn)
    := by
  unfold State.setMsn
  repeat' (first
    | with_reducible assumption
    | intro _
    | with_reducible apply State.onMch_keeps
    | (extract_lets)
    | split)

theorem State.setPosted_keeps {r_ : Prop} {z s : State} (ep : Nat) (l : List Posted) (hk : Keeps r_ z s) : Keeps r_ z
    (State.setPosted s ep l) := by
  unfold State.setPosted
  repeat' (first
    | with_reducible assumption
    | intro _
    | with_reducible apply State.onMch_keeps
    | with_reducible apply State.put_keeps
    | (extract_lets)
    | split)

theorem State.setOver_keeps {r_ : Prop} {z s : State} (ep : Nat) (l : List Posted) (hk : Keeps r_ z s) : Keeps r_ z (State.setOver
    s ep l) := by
  unfold State.setOver
  repeat' (first
    | with_reducible assumption
    | intro _
    | with_reducible apply State.onMch_keeps
    | with_reducible apply State.put_keeps
    | (extract_lets)
    | split)

theorem State.toOverflow_keeps {r_ : Prop} {z s : State} (ep : Nat) (p : Posted) (hk : Keeps r_ z s) : OptKeeps r_ z
    (State.toOverflow s ep p) := by
  unfold State.toOverflow
  repeat' (first
    | with_reducible assumption
    | intro _
    | with_reducible apply OptKeeps.ite
    | with_reducible apply Keeps.ite
    | with_reducible apply QKeeps.snd
    | with_reducible apply State.draw_keepsQ
    | with_reducible exact OptKeeps.none _
    | with_reducible apply OptKeeps.some
    | with_reducible apply State.hostWrite_keeps
    | with_reducible apply State.pick_keeps
    | with_reducible apply State.setOver_keeps
    | (extract_lets)
    | split
    | with_reducible apply QKeeps.pair
    | (with_reducible refine QKeeps.eq (by assumption) ?_)
    | (with_reducible refine OptKeeps.eq (by assumption) ?_))

theorem State.dropOver_keeps {r_ : Prop} {z s : State} (ep slot : Nat) (hk : Keeps r_ z s) : Keeps r_ z (State.dropOver s ep slot)
    := by
  unfold State.dropOver
  repeat' (first
    | with_reducible assumption
    | intro _
    | with_reducible apply Keeps.ite
    | with_reducible apply State.hostWrite_keeps
    | with_reducible apply State.setOver_keeps
    | (extract_lets)
    | split)

theorem State.walkOver_keeps {r_ : Prop} {z s : State} (ep hp : Nat) (sat : Posted → Bool) (l : List Posted) (hk : Keeps r_ z s) :
    PKeeps r_ z (State.walkOver s ep hp sat l) := by
  induction l with
  | nil =>
    unfold State.walkOver
    repeat' (first
      | with_reducible assumption
      | with_reducible apply ih
      | with_reducible exact ih
      | intro _
      | with_reducible apply PKeeps.ite
      | with_reducible apply Keeps.ite
      | with_reducible apply PKeeps.fst
      | with_reducible apply State.hostRead_keeps
      | with_reducible apply State.onMch_keeps
      | (extract_lets)
      | split
      | with_reducible apply PKeeps.pair
      | (with_reducible refine PKeeps.eq (by assumption) ?_))
  | cons x t ih =>
    unfold State.walkOver
    repeat' (first
      | with_reducible assumption
      | with_reducible apply ih
      | with_reducible exact ih
      | intro _
      | with_reducible apply PKeeps.ite
      | with_reducible apply Keeps.ite
      | with_reducible apply PKeeps.fst
      | with_reducible apply State.hostRead_keeps
      | with_reducible apply State.onMch_keeps
      | (extract_lets)
      | split
      | with_reducible apply PKeeps.pair
      | (with_reducible refine PKeeps.eq (by assumption) ?_))

theorem State.endWalk_keeps {r_ : Prop} {z s : State} (ep hp : Nat) (hk : Keeps r_ z s) : Keeps r_ z (State.endWalk s ep hp) := by
  unfold State.endWalk
  repeat' (first
    | with_reducible assumption
    | intro _
    | with_reducible apply State.onMch_keeps
    | (extract_lets)
    | split)

theorem State.clearLane_keeps {r_ : Prop} {z s : State} (ep job : Nat) (hk : Keeps r_ z s) : Keeps r_ z (State.clearLane s ep job)
    := by
  unfold State.clearLane
  repeat' (first
    | with_reducible assumption
    | intro _
    | with_reducible apply Keeps.ite
    | with_reducible apply State.endWalk_keeps
    | (extract_lets)
    | split)

theorem State.search_keeps {r_ : Prop} {z s : State} (ep job : Nat) (sat : Posted → Bool) (hk : Keeps r_ z s) : PKeeps r_ z
    (State.search s ep job sat) := by
  unfold State.search
  repeat' (first
    | with_reducible assumption
    | intro _
    | with_reducible apply PKeeps.ite
    | with_reducible apply Keeps.ite
    | with_reducible apply PKeeps.fst
    | with_reducible apply State.clearLane_keeps
    | with_reducible apply State.endWalk_keeps
    | with_reducible apply State.onMch_keeps
    | with_reducible apply State.walkOver_keeps
    | (extract_lets)
    | split
    | with_reducible apply PKeeps.pair
    | (with_reducible refine PKeeps.eq (by assumption) ?_))

theorem State.unpost_keeps {r_ : Prop} {z s : State} (ep : Nat) (x : Found) (hk : Keeps r_ z s) : Keeps r_ z (State.unpost s ep x)
    := by
  cases x
  all_goals
    unfold State.unpost
    repeat' (first
      | with_reducible assumption
      | intro _
      | with_reducible apply State.dropOver_keeps
      | with_reducible apply State.setPosted_keeps
      | (extract_lets)
      | split)

theorem State.overflowReturn_keeps {r_ : Prop} {z s : State} (i : Nat) (r : ReadResult) (hk : Keeps r_ z s) : Keeps r_ z
    (State.overflowReturn s i r) := by
  unfold State.overflowReturn
  repeat' (first
    | with_reducible assumption
    | intro _
    | with_reducible apply State.bump_keeps
    | with_reducible apply State.onMch_keeps
    | with_reducible apply State.raise_keeps
    | (extract_lets)
    | split)

theorem State.setHdr_keeps {r_ : Prop} {z s : State} (i : Nat) (h : MHdr) (hk : Keeps r_ z s) : Keeps r_ z (State.setHdr s i h) :=
    by
  unfold State.setHdr
  repeat' (first
    | with_reducible assumption
    | intro _
    | with_reducible apply State.onMch_keeps
    | (extract_lets)
    | split)

theorem State.hdrAlloc_keeps {r_ : Prop} {z s : State} (f : Nat) (hk : Keeps r_ z s) : QKeeps r_ z (State.hdrAlloc s f) := by
  unfold State.hdrAlloc
  repeat' (first
    | with_reducible assumption
    | intro _
    | with_reducible apply QKeeps.ite
    | with_reducible apply Keeps.ite
    | with_reducible apply QKeeps.snd
    | with_reducible apply State.draw_keepsQ
    | with_reducible apply State.pick_keeps
    | (extract_lets)
    | split
    | with_reducible apply QKeeps.pair
    | (with_reducible refine QKeeps.eq (by assumption) ?_))

theorem State.returnLanding_keeps {r_ : Prop} {z s : State} (b : Nat) (hk : Keeps r_ z s) : Keeps r_ z (State.returnLanding s b)
    := by
  unfold State.returnLanding
  repeat' (first
    | with_reducible assumption
    | intro _
    | with_reducible apply Keeps.ite
    | with_reducible apply State.onMch_keeps
    | with_reducible apply State.rxPost_keeps
    | (extract_lets)
    | split)

theorem State.unland_keeps {r_ : Prop} {z s : State} (h : MHdr) (hk : Keeps r_ z s) : Keeps r_ z (State.unland s h) := by
  unfold State.unland
  repeat' (first
    | with_reducible assumption
    | intro _
    | with_reducible apply State.onMch_keeps
    | with_reducible apply State.returnLanding_keeps
    | (extract_lets)
    | split)

theorem State.landReserve_keeps {r_ : Prop} {z s : State} (ep len : Nat) (hk : Keeps r_ z s) : OptPKeeps r_ z (State.landReserve s
    ep len) := by
  unfold State.landReserve
  repeat' (first
    | with_reducible assumption
    | intro _
    | with_reducible apply OptPKeeps.ite
    | with_reducible apply Keeps.ite
    | with_reducible apply Keeps.foldl
    | with_reducible apply PKeeps.foldl
    | with_reducible apply QKeeps.foldl
    | with_reducible apply PKeeps.fst
    | with_reducible apply QKeeps.snd
    | with_reducible apply State.draw_keepsQ
    | with_reducible exact OptPKeeps.none _
    | with_reducible apply OptPKeeps.some
    | with_reducible apply State.onMch_keeps
    | with_reducible apply State.returnLanding_keeps
    | (extract_lets)
    | split
    | with_reducible apply PKeeps.pair
    | with_reducible apply QKeeps.pair
    | (with_reducible refine PKeeps.eq (by assumption) ?_)
    | (with_reducible refine QKeeps.eq (by assumption) ?_)
    | (with_reducible refine OptPKeeps.eq (by assumption) ?_))

theorem State.completeRecv_keeps {r_ : Prop} {z s : State} (i : Nat) (h : MHdr) (status detail : Nat) (hk : Keeps r_ z s) : Keeps
    r_ z (State.completeRecv s i h status detail) := by
  unfold State.completeRecv
  repeat' (first
    | with_reducible assumption
    | intro _
    | with_reducible apply Keeps.ite
    | with_reducible apply State.bumpIf_keeps
    | with_reducible apply State.freeHdr_keeps
    | with_reducible apply State.rxPost_keeps
    | with_reducible apply State.setHdr_keeps
    | with_reducible apply State.unland_keeps
    | (extract_lets)
    | split)

theorem State.cancelPosted_keeps {r_ : Prop} {z s : State} (ep : Nat) (p : Posted) (detail : Nat) (hk : Keeps r_ z s) : Keeps r_ z
    (State.cancelPosted s ep p detail) := by
  unfold State.cancelPosted
  repeat' (first
    | with_reducible assumption
    | intro _
    | with_reducible apply QKeeps.snd
    | with_reducible apply State.draw_keepsQ
    | with_reducible apply State.draw_keeps
    | with_reducible apply State.rxPost_keeps
    | (extract_lets)
    | split
    | with_reducible apply QKeeps.pair
    | (with_reducible refine QKeeps.eq (by assumption) ?_))

theorem State.placeMsg_keeps {r_ : Prop} {z s : State} (i : Nat) (h : MHdr) (off : Nat) (d : Data) (hk : Keeps r_ z s) : Keeps r_
    z (State.placeMsg s i h off d) := by
  unfold State.placeMsg
  repeat' (first
    | with_reducible assumption
    | intro _
    | with_reducible apply Keeps.ite
    | with_reducible apply State.put_keeps
    | with_reducible apply State.setHdr_keeps
    | (extract_lets)
    | split)

theorem State.sendRvGet_keeps {r_ : Prop} {z s : State} (i : Nat) (h : MHdr) (len : Nat) (abandon : Bool) (hk : Keeps r_ z s) :
    Keeps r_ z (State.sendRvGet s i h len abandon) := by
  unfold State.sendRvGet
  repeat' (first
    | with_reducible assumption
    | intro _
    | with_reducible apply Keeps.ite
    | with_reducible apply State.abandon_keeps
    | with_reducible apply State.newOp_keeps
    | (extract_lets)
    | split)

theorem State.pair_keeps {r_ : Prop} {z s : State} (i : Nat) (h : MHdr) (r : Recv) (hk : Keeps r_ z s) : Keeps r_ z (State.pair s
    i h r) := by
  unfold State.pair
  repeat' (first
    | with_reducible assumption
    | intro _
    | with_reducible apply Keeps.ite
    | with_reducible apply Keeps.foldl
    | with_reducible apply PKeeps.foldl
    | with_reducible apply QKeeps.foldl
    | with_reducible apply PKeeps.fst
    | with_reducible apply QKeeps.snd
    | with_reducible apply State.draw_keepsQ
    | with_reducible apply State.bump_keeps
    | with_reducible apply State.sendRvGet_keeps
    | with_reducible apply State.setHdr_keeps
    | (extract_lets)
    | split
    | with_reducible apply PKeeps.pair
    | with_reducible apply QKeeps.pair
    | (with_reducible refine PKeeps.eq (by assumption) ?_)
    | (with_reducible refine QKeeps.eq (by assumption) ?_))

theorem State.mchRefuse_keeps {r_ : Prop} {z s : State} (a : Arr) (hk : Keeps r_ z s) : Keeps r_ z (State.mchRefuse s a) := by
  unfold State.mchRefuse
  repeat' (first
    | with_reducible assumption
    | intro _
    | with_reducible apply State.bump_keeps
    | with_reducible apply State.raise_keeps
    | with_reducible apply State.refuseEp_keeps
    | with_reducible apply State.takeArr_keeps
    | (extract_lets)
    | split)

theorem State.stray_keeps {r_ : Prop} {z s : State} (a : Arr) (hk : Keeps r_ z s) : Keeps r_ z (State.stray s a) := by
  unfold State.stray
  repeat' (first
    | with_reducible assumption
    | intro _
    | with_reducible apply State.bump_keeps
    | with_reducible apply State.takeArr_keeps
    | (extract_lets)
    | split)

theorem State.nextSeq_keeps {r_ : Prop} {z s : State} (hk : Keeps r_ z s) : Keeps r_ z (State.nextSeq s) := by
  unfold State.nextSeq
  repeat' (first
    | with_reducible assumption
    | intro _
    | with_reducible apply State.onMch_keeps
    | (extract_lets)
    | split)

theorem State.toUnexpected_keeps {r_ : Prop} {z s : State} (i : Nat) (h : MHdr) (hk : Keeps r_ z s) : Keeps r_ z
    (State.toUnexpected s i h) := by
  unfold State.toUnexpected
  repeat' (first
    | with_reducible assumption
    | intro _
    | with_reducible apply State.bump_keeps
    | with_reducible apply State.nextSeq_keeps
    | with_reducible apply State.setHdr_keeps
    | (extract_lets)
    | split)

theorem State.release_keeps {r_ : Prop} {z s : State} (ep source context : Nat) (n : Nat) (hk : Keeps r_ z s) : Keeps r_ z
    (State.release s ep source context n) := by
  induction n generalizing s with
  | zero =>
    unfold State.release
    repeat' (first
      | with_reducible assumption
      | with_reducible apply ih
      | intro _
      | with_reducible apply PKeeps.fst
      | with_reducible apply State.freeHdr_keeps
      | with_reducible apply State.needOrder_keeps
      | with_reducible apply State.pair_keeps
      | with_reducible apply State.search_keeps
      | with_reducible apply State.setMsn_keeps
      | with_reducible apply State.toUnexpected_keeps
      | with_reducible apply State.unpost_keeps
      | (extract_lets)
      | split
      | with_reducible apply PKeeps.pair
      | (with_reducible refine PKeeps.eq (by assumption) ?_))
  | succ n ih =>
    unfold State.release
    repeat' (first
      | with_reducible assumption
      | with_reducible apply ih
      | intro _
      | with_reducible apply PKeeps.fst
      | with_reducible apply State.freeHdr_keeps
      | with_reducible apply State.needOrder_keeps
      | with_reducible apply State.pair_keeps
      | with_reducible apply State.search_keeps
      | with_reducible apply State.setMsn_keeps
      | with_reducible apply State.toUnexpected_keeps
      | with_reducible apply State.unpost_keeps
      | (extract_lets)
      | split
      | with_reducible apply PKeeps.pair
      | (with_reducible refine PKeeps.eq (by assumption) ?_))

theorem State.releaseAll_keeps {r_ : Prop} {z s : State} (hk : Keeps r_ z s) : Keeps r_ z (State.releaseAll s) := by
  unfold State.releaseAll
  repeat' (first
    | with_reducible assumption
    | intro _
    | with_reducible apply Keeps.ite
    | with_reducible apply Keeps.foldl
    | with_reducible apply PKeeps.foldl
    | with_reducible apply QKeeps.foldl
    | with_reducible apply QKeeps.snd
    | with_reducible apply State.draw_keepsQ
    | with_reducible apply State.release_keeps
    | (extract_lets)
    | split
    | with_reducible apply QKeeps.pair
    | (with_reducible refine QKeeps.eq (by assumption) ?_))

theorem State.refuseKeep_keeps {r_ : Prop} {z s : State} (a : Arr) (i : Nat) (h : MHdr) (hk : Keeps r_ z s) : Keeps r_ z
    (State.refuseKeep s a i h) := by
  unfold State.refuseKeep
  repeat' (first
    | with_reducible assumption
    | intro _
    | with_reducible apply State.mchRefuse_keeps
    | with_reducible apply State.setHdr_keeps
    | (extract_lets)
    | split)

theorem State.arriveAhead_keeps {r_ : Prop} {z s : State} (a : Arr) (i : Nat) (h : MHdr) (hk : Keeps r_ z s) : Keeps r_ z
    (State.arriveAhead s a i h) := by
  unfold State.arriveAhead
  repeat' (first
    | with_reducible assumption
    | intro _
    | with_reducible apply Keeps.ite
    | with_reducible exact OptPKeeps.none _
    | with_reducible apply OptPKeeps.some
    | with_reducible apply State.bump_keeps
    | with_reducible apply State.landReserve_keeps
    | with_reducible apply State.placeMsg_keeps
    | with_reducible apply State.refuseKeep_keeps
    | with_reducible apply State.takeArr_keeps
    | (extract_lets)
    | split
    | (with_reducible refine OptPKeeps.eq (by assumption) ?_))

theorem State.arriveNow_keeps {r_ : Prop} {z s : State} (a : Arr) (i : Nat) (h : MHdr) (k : Nat) (r : OrderRec) (hk : Keeps r_ z
    s) : Keeps r_ z (State.arriveNow s a i h k r) := by
  unfold State.arriveNow
  repeat' (first
    | with_reducible assumption
    | intro _
    | with_reducible apply Keeps.ite
    | with_reducible apply PKeeps.fst
    | with_reducible exact OptPKeeps.none _
    | with_reducible apply OptPKeeps.some
    | with_reducible apply State.landReserve_keeps
    | with_reducible apply State.mchRefuse_keeps
    | with_reducible apply State.pair_keeps
    | with_reducible apply State.placeMsg_keeps
    | with_reducible apply State.refuseKeep_keeps
    | with_reducible apply State.release_keeps
    | with_reducible apply State.search_keeps
    | with_reducible apply State.setMsn_keeps
    | with_reducible apply State.takeArr_keeps
    | with_reducible apply State.toUnexpected_keeps
    | with_reducible apply State.unpost_keeps
    | (extract_lets)
    | split
    | with_reducible apply PKeeps.pair
    | (with_reducible refine PKeeps.eq (by assumption) ?_)
    | (with_reducible refine OptPKeeps.eq (by assumption) ?_))

theorem State.arriveNew_keeps {r_ : Prop} {z s : State} (a : Arr) (rndv : Bool) (k : Nat) (r : OrderRec) (hk : Keeps r_ z s) :
    Keeps r_ z (State.arriveNew s a rndv k r) := by
  unfold State.arriveNew
  repeat' (first
    | with_reducible assumption
    | intro _
    | with_reducible apply Keeps.ite
    | with_reducible apply QKeeps.snd
    | with_reducible apply State.draw_keepsQ
    | with_reducible apply State.arriveAhead_keeps
    | with_reducible apply State.arriveNow_keeps
    | with_reducible apply State.hdrAlloc_keeps
    | with_reducible apply State.mchRefuse_keeps
    | with_reducible apply State.stray_keeps
    | (extract_lets)
    | split
    | with_reducible apply QKeeps.pair
    | (with_reducible refine QKeeps.eq (by assumption) ?_))

theorem State.onMsg_keeps {r_ : Prop} {z s : State} (a : Arr) (rndv : Bool) (hk : Keeps r_ z s) : Keeps r_ z (State.onMsg s a
    rndv) := by
  unfold State.onMsg
  repeat' (first
    | with_reducible assumption
    | intro _
    | with_reducible apply Keeps.ite
    | with_reducible apply PKeeps.fst
    | with_reducible apply State.arriveNew_keeps
    | with_reducible apply State.freeHdr_keeps
    | with_reducible apply State.mchRefuse_keeps
    | with_reducible apply State.needOrder_keeps
    | with_reducible apply State.placeMsg_keeps
    | with_reducible apply State.stray_keeps
    | with_reducible apply State.takeArr_keeps
    | (extract_lets)
    | split
    | with_reducible apply PKeeps.pair
    | (with_reducible refine PKeeps.eq (by assumption) ?_))

theorem State.onSkip_keeps {r_ : Prop} {z s : State} (a : Arr) (hk : Keeps r_ z s) : Keeps r_ z (State.onSkip s a) := by
  unfold State.onSkip
  repeat' (first
    | with_reducible assumption
    | intro _
    | with_reducible apply Keeps.ite
    | with_reducible apply PKeeps.fst
    | with_reducible apply QKeeps.snd
    | with_reducible apply State.draw_keepsQ
    | with_reducible apply State.bump_keeps
    | with_reducible apply State.completeRecv_keeps
    | with_reducible apply State.freeHdr_keeps
    | with_reducible apply State.hdrAlloc_keeps
    | with_reducible apply State.mchRefuse_keeps
    | with_reducible apply State.needOrder_keeps
    | with_reducible apply State.release_keeps
    | with_reducible apply State.setHdr_keeps
    | with_reducible apply State.setMsn_keeps
    | with_reducible apply State.takeArr_keeps
    | with_reducible apply State.unland_keeps
    | (extract_lets)
    | split
    | with_reducible apply PKeeps.pair
    | with_reducible apply QKeeps.pair
    | (with_reducible refine PKeeps.eq (by assumption) ?_)
    | (with_reducible refine QKeeps.eq (by assumption) ?_))

theorem State.flushPend_keeps {r_ : Prop} {z s : State} (i : Nat) (n : Nat) (hk : Keeps r_ z s) : Keeps r_ z (State.flushPend s i
    n) := by
  induction n generalizing s with
  | zero =>
    unfold State.flushPend
    repeat' (first
      | with_reducible assumption
      | with_reducible apply ih
      | intro _
      | with_reducible apply Keeps.ite
      | with_reducible apply PKeeps.fst
      | with_reducible apply State.bumpBy_keeps
      | with_reducible apply State.put_keeps
      | with_reducible apply State.readRun_keeps
      | with_reducible apply State.setHdr_keeps
      | with_reducible apply State.writePieces_keeps
      | with_reducible apply State.xlateRun_keeps
      | (extract_lets)
      | split
      | with_reducible apply PKeeps.pair
      | (with_reducible refine PKeeps.eq (by assumption) ?_))
  | succ n ih =>
    unfold State.flushPend
    repeat' (first
      | with_reducible assumption
      | with_reducible apply ih
      | intro _
      | with_reducible apply Keeps.ite
      | with_reducible apply PKeeps.fst
      | with_reducible apply State.bumpBy_keeps
      | with_reducible apply State.put_keeps
      | with_reducible apply State.readRun_keeps
      | with_reducible apply State.setHdr_keeps
      | with_reducible apply State.writePieces_keeps
      | with_reducible apply State.xlateRun_keeps
      | (extract_lets)
      | split
      | with_reducible apply PKeeps.pair
      | (with_reducible refine PKeeps.eq (by assumption) ?_))

theorem State.closeMsg_keeps {r_ : Prop} {z s : State} (i : Nat) (hk : Keeps r_ z s) : Keeps r_ z (State.closeMsg s i) := by
  unfold State.closeMsg
  repeat' (first
    | with_reducible assumption
    | intro _
    | with_reducible apply Keeps.ite
    | with_reducible apply State.completeRecv_keeps
    | with_reducible apply State.setHdr_keeps
    | with_reducible apply State.unland_keeps
    | (extract_lets)
    | split)

theorem State.settleCancels_keeps {r_ : Prop} {z s : State} (hk : Keeps r_ z s) : Keeps r_ z (State.settleCancels s) := by
  unfold State.settleCancels
  repeat' (first
    | with_reducible assumption
    | intro _
    | with_reducible apply Keeps.foldl
    | with_reducible apply PKeeps.foldl
    | with_reducible apply QKeeps.foldl
    | with_reducible apply PKeeps.fst
    | with_reducible apply QKeeps.snd
    | with_reducible apply State.draw_keepsQ
    | with_reducible apply State.finishEntry_keeps
    | with_reducible apply State.onMch_keeps
    | (extract_lets)
    | split
    | with_reducible apply PKeeps.pair
    | with_reducible apply QKeeps.pair
    | (with_reducible refine PKeeps.eq (by assumption) ?_)
    | (with_reducible refine QKeeps.eq (by assumption) ?_))

theorem State.settleMch_keeps {r_ : Prop} {z s : State} (hk : Keeps r_ z s) : Keeps r_ z (State.settleMch s) := by
  unfold State.settleMch
  repeat' (first
    | with_reducible assumption
    | intro _
    | with_reducible apply Keeps.foldl
    | with_reducible apply PKeeps.foldl
    | with_reducible apply QKeeps.foldl
    | with_reducible apply State.closeMsg_keeps
    | with_reducible apply State.flushPend_keeps
    | with_reducible apply State.releaseAll_keeps
    | with_reducible apply State.settleCancels_keeps
    | (extract_lets)
    | split)

end Sys2Proof.Machine
end

