-- ==== Sys2Proof/Laws/KeepsRma.lean ====
section
/-! SUPPORT. Laws/Keeps.lean, for the operations of Machine/Rma.lean. -/
namespace Sys2Proof.Machine

theorem State.onRma_keeps {r_ : Prop} {z s : State} (f : Rma → Rma) (hk : Keeps r_ z s) : Keeps r_ z (State.onRma s f) := by
  unfold State.onRma
  repeat' (first
    | with_reducible assumption
    | intro _
    | (extract_lets)
    | split
    | with_reducible apply Keeps.upd)

theorem State.addRef_keeps {r_ : Prop} {z s : State} (uid : Nat) (hk : Keeps r_ z s) : Keeps r_ z (State.addRef s uid) := by
  unfold State.addRef
  repeat' (first
    | with_reducible assumption
    | intro _
    | with_reducible apply State.onRma_keeps
    | with_reducible apply State.put_keeps
    | (extract_lets)
    | split)

theorem State.dropRef_keeps {r_ : Prop} {z s : State} (uid : Nat) (hk : Keeps r_ z s) : Keeps r_ z (State.dropRef s uid) := by
  unfold State.dropRef
  repeat' (first
    | with_reducible assumption
    | intro _
    | with_reducible apply State.onRma_keeps
    | with_reducible apply State.put_keeps
    | (extract_lets)
    | split)

theorem State.setKey_keeps {r_ : Prop} {z s : State} (i : Nat) (k : Option KeySt) (hk : Keeps r_ z s) : Keeps r_ z (State.setKey s
    i k) := by
  unfold State.setKey
  repeat' (first
    | with_reducible assumption
    | intro _
    | with_reducible apply State.onRma_keeps
    | (extract_lets)
    | split)

theorem State.cacheDesc_keeps {r_ : Prop} {z s : State} (i raw : Nat) (hk : Keeps r_ z s) : Keeps r_ z (State.cacheDesc s i raw)
    := by
  unfold State.cacheDesc
  repeat' (first
    | with_reducible assumption
    | intro _
    | with_reducible apply Keeps.ite
    | with_reducible apply State.fillBank_keeps
    | with_reducible apply State.onRma_keeps
    | (extract_lets)
    | split)

theorem State.setRaw_keeps {r_ : Prop} {z s : State} (i raw : Nat) (hk : Keeps r_ z s) : Keeps r_ z (State.setRaw s i raw) := by
  unfold State.setRaw
  repeat' (first
    | with_reducible assumption
    | intro _
    | with_reducible apply State.cacheDesc_keeps
    | with_reducible apply State.onRma_keeps
    | (extract_lets)
    | split)

theorem State.needDesc_keeps {r_ : Prop} {z s : State} (i : Nat) (hk : Keeps r_ z s) : PKeeps r_ z (State.needDesc s i) := by
  unfold State.needDesc
  repeat' (first
    | with_reducible assumption
    | intro _
    | with_reducible apply PKeeps.ite
    | with_reducible apply Keeps.ite
    | with_reducible apply PKeeps.fst
    | with_reducible apply QKeeps.snd
    | with_reducible apply State.draw_keepsQ
    | with_reducible apply State.ask_keeps
    | with_reducible apply State.bump_keeps
    | with_reducible apply State.draw_keeps
    | with_reducible apply State.hostRead_keeps
    | with_reducible apply State.onRma_keeps
    | (extract_lets)
    | split
    | with_reducible apply PKeeps.pair
    | with_reducible apply QKeeps.pair
    | (with_reducible refine PKeeps.eq (by assumption) ?_)
    | (with_reducible refine QKeeps.eq (by assumption) ?_))

theorem State.descReturn_keeps {r_ : Prop} {z s : State} (n : Nat) (r : ReadResult) (hk : Keeps r_ z s) : Keeps r_ z
    (State.descReturn s n r) := by
  unfold State.descReturn
  repeat' (first
    | with_reducible assumption
    | intro _
    | with_reducible apply Keeps.ite
    | with_reducible apply State.cacheDesc_keeps
    | with_reducible apply State.onRma_keeps
    | with_reducible apply State.raise_keeps
    | (extract_lets)
    | split)

theorem State.rmaCheck_keeps {r_ : Prop} {z s : State} (a : Arr) (right len align : Nat) (spec : Bool) (hk : Keeps r_ z s) :
    PKeeps r_ z (State.rmaCheck s a right len align spec) := by
  unfold State.rmaCheck
  repeat' (first
    | with_reducible assumption
    | intro _
    | with_reducible apply PKeeps.ite
    | with_reducible apply Keeps.ite
    | with_reducible apply PKeeps.fst
    | with_reducible apply State.needDesc_keeps
    | (extract_lets)
    | split
    | with_reducible apply PKeeps.pair
    | (with_reducible refine PKeeps.eq (by assumption) ?_))

theorem State.rmaRefuse_keeps {r_ : Prop} {z s : State} (a : Arr) (detail : Nat) (hk : Keeps r_ z s) : Keeps r_ z (State.rmaRefuse
    s a detail) := by
  unfold State.rmaRefuse
  repeat' (first
    | with_reducible assumption
    | intro _
    | with_reducible apply Keeps.ite
    | with_reducible apply State.bump_keeps
    | with_reducible apply State.bumpIf_keeps
    | with_reducible apply State.raise_keeps
    | with_reducible apply State.result_keeps
    | with_reducible apply State.takeArr_keeps
    | (extract_lets)
    | split)

theorem State.rmaFull_keeps {r_ : Prop} {z s : State} (a : Arr) (hk : Keeps r_ z s) : Keeps r_ z (State.rmaFull s a) := by
  unfold State.rmaFull
  repeat' (first
    | with_reducible assumption
    | intro _
    | with_reducible apply State.bump_keeps
    | with_reducible apply State.result_keeps
    | with_reducible apply State.takeArr_keeps
    | (extract_lets)
    | split)

theorem State.rmaFail_keeps {r_ : Prop} {z s : State} (a : Arr) (origin : OpOrigin) (detail : Nat) (hk : Keeps r_ z s) : Keeps r_
    z (State.rmaFail s a origin detail) := by
  unfold State.rmaFail
  repeat' (first
    | with_reducible assumption
    | intro _
    | with_reducible apply State.result_keeps
    | (extract_lets)
    | split)

theorem State.onPut_keeps {r_ : Prop} {z s : State} (a : Arr) (hk : Keeps r_ z s) : Keeps r_ z (State.onPut s a) := by
  unfold State.onPut
  repeat' (first
    | with_reducible assumption
    | intro _
    | with_reducible apply Keeps.ite
    | with_reducible apply PKeeps.fst
    | with_reducible apply State.bump_keeps
    | with_reducible apply State.payload_keeps
    | with_reducible apply State.result_keeps
    | with_reducible apply State.rmaCheck_keeps
    | with_reducible apply State.rmaFail_keeps
    | with_reducible apply State.rmaFull_keeps
    | with_reducible apply State.rmaRefuse_keeps
    | with_reducible apply State.takeArr_keeps
    | with_reducible apply State.writePieces_keeps
    | with_reducible apply State.xlateRun_keeps
    | (extract_lets)
    | split
    | with_reducible apply PKeeps.pair
    | (with_reducible refine PKeeps.eq (by assumption) ?_))

theorem State.onGet_keeps {r_ : Prop} {z s : State} (a : Arr) (hk : Keeps r_ z s) : Keeps r_ z (State.onGet s a) := by
  unfold State.onGet
  repeat' (first
    | with_reducible assumption
    | intro _
    | with_reducible apply Keeps.ite
    | with_reducible apply PKeeps.fst
    | with_reducible apply State.addRef_keeps
    | with_reducible apply State.bump_keeps
    | with_reducible apply State.newOp_keeps
    | with_reducible apply State.rmaCheck_keeps
    | with_reducible apply State.rmaFull_keeps
    | with_reducible apply State.rmaRefuse_keeps
    | with_reducible apply State.takeArr_keeps
    | (extract_lets)
    | split
    | with_reducible apply PKeeps.pair
    | (with_reducible refine PKeeps.eq (by assumption) ?_))

theorem State.readGet_keeps {r_ : Prop} {z s : State} (i : Nat) (o : Op) (hk : Keeps r_ z s) : Keeps r_ z (State.readGet s i o) :=
    by
  unfold State.readGet
  repeat' (first
    | with_reducible assumption
    | intro _
    | with_reducible apply Keeps.ite
    | with_reducible apply PKeeps.fst
    | with_reducible apply State.finishOp_keeps
    | with_reducible apply State.onRma_keeps
    | with_reducible apply State.readRun_keeps
    | with_reducible apply State.xlateRun_keeps
    | (extract_lets)
    | split
    | with_reducible apply PKeeps.pair
    | (with_reducible refine PKeeps.eq (by assumption) ?_))

theorem State.onAtomic_keeps {r_ : Prop} {z s : State} (a : Arr) (hk : Keeps r_ z s) : Keeps r_ z (State.onAtomic s a) := by
  unfold State.onAtomic
  repeat' (first
    | with_reducible assumption
    | intro _
    | with_reducible apply PKeeps.fst
    | with_reducible apply State.addRef_keeps
    | with_reducible apply State.onRma_keeps
    | with_reducible apply State.rmaCheck_keeps
    | with_reducible apply State.rmaFull_keeps
    | with_reducible apply State.rmaRefuse_keeps
    | with_reducible apply State.takeArr_keeps
    | (extract_lets)
    | split
    | with_reducible apply PKeeps.pair
    | (with_reducible refine PKeeps.eq (by assumption) ?_))

theorem State.setAtomic_keeps {r_ : Prop} {z s : State} (x : Atomic) (hk : Keeps r_ z s) : Keeps r_ z (State.setAtomic s x) := by
  unfold State.setAtomic
  repeat' (first
    | with_reducible assumption
    | intro _
    | with_reducible apply Keeps.ite
    | with_reducible apply State.onRma_keeps
    | (extract_lets)
    | split)

theorem State.endAtomic_keeps {r_ : Prop} {z s : State} (x : Atomic) (hk : Keeps r_ z s) : Keeps r_ z (State.endAtomic s x) := by
  unfold State.endAtomic
  repeat' (first
    | with_reducible assumption
    | intro _
    | with_reducible apply State.dropRef_keeps
    | with_reducible apply State.onRma_keeps
    | (extract_lets)
    | split)

theorem State.answerAtomic_keeps {r_ : Prop} {z s : State} (x : Atomic) (old : Nat) (hk : Keeps r_ z s) : Keeps r_ z
    (State.answerAtomic s x old) := by
  unfold State.answerAtomic
  repeat' (first
    | with_reducible assumption
    | intro _
    | with_reducible apply Keeps.ite
    | with_reducible apply State.answer_keeps
    | with_reducible apply State.bump_keeps
    | with_reducible apply State.endAtomic_keeps
    | with_reducible apply State.onRma_keeps
    | with_reducible apply State.result_keeps
    | (extract_lets)
    | split)

theorem State.failAtomic_keeps {r_ : Prop} {z s : State} (x : Atomic) (detail : Nat) (hk : Keeps r_ z s) : Keeps r_ z
    (State.failAtomic s x detail) := by
  unfold State.failAtomic
  repeat' (first
    | with_reducible assumption
    | intro _
    | with_reducible apply Keeps.ite
    | with_reducible apply State.endAtomic_keeps
    | with_reducible apply State.raise_keeps
    | with_reducible apply State.rmaFail_keeps
    | (extract_lets)
    | split)

theorem State.issueAtomicOp_keeps {r_ : Prop} {z s : State} (x : Atomic) (identity op : Nat) (d : Data) (hk : Keeps r_ z s) :
    Keeps r_ z (State.issueAtomicOp s x identity op d) := by
  unfold State.issueAtomicOp
  repeat' (first
    | with_reducible assumption
    | intro _
    | with_reducible apply State.bump_keeps
    | with_reducible apply State.emit_keeps
    | (extract_lets)
    | split)

theorem State.startHost_keeps {r_ : Prop} {z s : State} (x : Atomic) (identity : Nat) (hk : Keeps r_ z s) : Keeps r_ z
    (State.startHost s x identity) := by
  unfold State.startHost
  repeat' (first
    | with_reducible assumption
    | intro _
    | with_reducible apply Keeps.ite
    | with_reducible apply State.hostRead_keeps
    | with_reducible apply State.issueAtomicOp_keeps
    | with_reducible apply State.onRma_keeps
    | with_reducible apply State.setAtomic_keeps
    | (extract_lets)
    | split)

theorem State.casHost_keeps {r_ : Prop} {z s : State} (x : Atomic) (identity seen tries : Nat) (hk : Keeps r_ z s) : Keeps r_ z
    (State.casHost s x identity seen tries) := by
  unfold State.casHost
  repeat' (first
    | with_reducible assumption
    | intro _
    | with_reducible apply State.issueAtomicOp_keeps
    | with_reducible apply State.setAtomic_keeps
    | (extract_lets)
    | split)

theorem State.atomicExecute_keeps {r_ : Prop} {z s : State} (id : Nat) (hk : Keeps r_ z s) : Keeps r_ z (State.atomicExecute s id)
    := by
  unfold State.atomicExecute
  repeat' (first
    | with_reducible assumption
    | intro _
    | with_reducible apply Keeps.ite
    | with_reducible apply PKeeps.fst
    | with_reducible apply State.answerAtomic_keeps
    | with_reducible apply State.casHost_keeps
    | with_reducible apply State.endAtomic_keeps
    | with_reducible apply State.hostRead_keeps
    | with_reducible apply State.hostWrite_keeps
    | with_reducible apply State.onRma_keeps
    | with_reducible apply State.rmaFail_keeps
    | with_reducible apply State.setAtomic_keeps
    | with_reducible apply State.startHost_keeps
    | with_reducible apply State.xlate_keeps
    | (extract_lets)
    | split
    | with_reducible apply PKeeps.pair
    | (with_reducible refine PKeeps.eq (by assumption) ?_))

theorem State.atomicCompletion_keeps {r_ : Prop} {z s : State} (id : Nat) (r : ReadResult) (hk : Keeps r_ z s) : Keeps r_ z
    (State.atomicCompletion s id r) := by
  unfold State.atomicCompletion
  repeat' (first
    | with_reducible assumption
    | intro _
    | with_reducible apply Keeps.ite
    | with_reducible apply State.answerAtomic_keeps
    | with_reducible apply State.bump_keeps
    | with_reducible apply State.casHost_keeps
    | with_reducible apply State.failAtomic_keeps
    | with_reducible apply State.setAtomic_keeps
    | (extract_lets)
    | split)

theorem State.dataReturn_keeps {r_ : Prop} {z s : State} (n : Nat) (r : ReadResult) (hk : Keeps r_ z s) : Keeps r_ z
    (State.dataReturn s n r) := by
  unfold State.dataReturn
  repeat' (first
    | with_reducible assumption
    | intro _
    | with_reducible apply Keeps.ite
    | with_reducible apply State.failAtomic_keeps
    | with_reducible apply State.finishOp_keeps
    | with_reducible apply State.onRma_keeps
    | with_reducible apply State.raise_keeps
    | with_reducible apply State.setAtomic_keeps
    | with_reducible apply State.setOp_keeps
    | (extract_lets)
    | split)

theorem State.prefetched_keeps {r_ : Prop} {z s : State} (o : Op) (d : Data) (hk : Keeps r_ z s) : Keeps r_ z (State.prefetched s
    o d) := by
  unfold State.prefetched
  repeat' (first
    | with_reducible assumption
    | intro _
    | with_reducible apply Keeps.ite
    | (extract_lets)
    | split
    | with_reducible apply Keeps.upd)

theorem State.onGetData_keeps {r_ : Prop} {z s : State} (a : Arr) (hk : Keeps r_ z s) : Keeps r_ z (State.onGetData s a) := by
  unfold State.onGetData
  repeat' (first
    | with_reducible assumption
    | intro _
    | with_reducible apply Keeps.ite
    | with_reducible apply PKeeps.fst
    | with_reducible apply State.finishOp_keeps
    | with_reducible apply State.payload_keeps
    | with_reducible apply State.prefetched_keeps
    | with_reducible apply State.setOp_keeps
    | with_reducible apply State.takeArr_keeps
    | with_reducible apply State.writePieces_keeps
    | with_reducible apply State.xlateRun_keeps
    | (extract_lets)
    | split
    | with_reducible apply PKeeps.pair
    | (with_reducible refine PKeeps.eq (by assumption) ?_))

theorem State.onAtomicData_keeps {r_ : Prop} {z s : State} (a : Arr) (hk : Keeps r_ z s) : Keeps r_ z (State.onAtomicData s a) :=
    by
  unfold State.onAtomicData
  repeat' (first
    | with_reducible assumption
    | intro _
    | with_reducible apply Keeps.ite
    | with_reducible apply PKeeps.fst
    | with_reducible apply State.finishOp_keeps
    | with_reducible apply State.payload_keeps
    | with_reducible apply State.setOp_keeps
    | with_reducible apply State.takeArr_keeps
    | with_reducible apply State.writePieces_keeps
    | with_reducible apply State.xlateRun_keeps
    | (extract_lets)
    | split
    | with_reducible apply PKeeps.pair
    | (with_reducible refine PKeeps.eq (by assumption) ?_))

theorem State.startRevoke_keeps {r_ : Prop} {z s : State} (i : Nat) (by_ : Option (Nat × RingCtr)) (hk : Keeps r_ z s) : Keeps r_
    z (State.startRevoke s i by_) := by
  unfold State.startRevoke
  repeat' (first
    | with_reducible assumption
    | intro _
    | with_reducible apply State.setKey_keeps
    | with_reducible apply State.setRaw_keeps
    | (extract_lets)
    | split)

theorem State.revoked_keeps {r_ : Prop} {z s : State} (i : Nat) (k : KeySt) (hk : Keeps r_ z s) : Keeps r_ z (State.revoked s i k)
    := by
  unfold State.revoked
  repeat' (first
    | with_reducible assumption
    | intro _
    | with_reducible apply State.bump_keeps
    | with_reducible apply State.finishEntry_keeps
    | with_reducible apply State.setKey_keeps
    | (extract_lets)
    | split)

theorem State.endRevoke_keeps {r_ : Prop} {z s : State} (i : Nat) (hk : Keeps r_ z s) : Keeps r_ z (State.endRevoke s i) := by
  unfold State.endRevoke
  repeat' (first
    | with_reducible assumption
    | intro _
    | with_reducible apply Keeps.ite
    | with_reducible apply PKeeps.fst
    | with_reducible apply State.hostWrite_keeps
    | with_reducible apply State.needDesc_keeps
    | with_reducible apply State.revoked_keeps
    | with_reducible apply State.setRaw_keeps
    | (extract_lets)
    | split
    | with_reducible apply PKeeps.pair
    | (with_reducible refine PKeeps.eq (by assumption) ?_))

theorem State.endTables_keeps {r_ : Prop} {z s : State} (hk : Keeps r_ z s) : Keeps r_ z (State.endTables s) := by
  unfold State.endTables
  repeat' (first
    | with_reducible assumption
    | intro _
    | with_reducible apply Keeps.ite
    | with_reducible apply Keeps.foldl
    | with_reducible apply PKeeps.foldl
    | with_reducible apply QKeeps.foldl
    | with_reducible apply PKeeps.fst
    | with_reducible apply QKeeps.snd
    | with_reducible apply State.draw_keepsQ
    | with_reducible apply State.onRma_keeps
    | with_reducible apply State.setWord_keeps
    | (extract_lets)
    | split
    | with_reducible apply PKeeps.pair
    | with_reducible apply QKeeps.pair
    | (with_reducible refine PKeeps.eq (by assumption) ?_)
    | (with_reducible refine QKeeps.eq (by assumption) ?_))

end Sys2Proof.Machine
end

