-- ==== Sys2Proof/Laws/KeepsLck.lean ====
section
/-! SUPPORT. Laws/Keeps.lean, for the operations of Machine/Lck.lean. -/
namespace Sys2Proof.Machine

theorem State.setCell_keeps {r_ : Prop} {z s : State} (c : Nat) (v : Cell) (hk : Keeps r_ z s) : Keeps r_ z (State.setCell s c v)
    := by
  unfold State.setCell
  repeat' (first
    | with_reducible assumption
    | intro _
    | with_reducible apply State.put_keeps
    | (extract_lets)
    | split
    | with_reducible apply Keeps.upd)

theorem State.tellInherit_keeps {r_ : Prop} {z s : State} (c : Nat) (hk : Keeps r_ z s) : Keeps r_ z (State.tellInherit s c) := by
  unfold State.tellInherit
  repeat' (first
    | with_reducible assumption
    | intro _
    | with_reducible apply Keeps.ite
    | with_reducible apply State.raise_keeps
    | with_reducible apply State.setCell_keeps
    | (extract_lets)
    | split)

theorem State.cellGranted_keeps {r_ : Prop} {z s : State} (c : Nat) (hk : Keeps r_ z s) : Keeps r_ z (State.cellGranted s c) := by
  unfold State.cellGranted
  repeat' (first
    | with_reducible assumption
    | intro _
    | with_reducible apply Keeps.foldl
    | with_reducible apply PKeeps.foldl
    | with_reducible apply QKeeps.foldl
    | with_reducible apply PKeeps.fst
    | with_reducible apply QKeeps.snd
    | with_reducible apply State.draw_keepsQ
    | with_reducible apply State.finishEntry_keeps
    | with_reducible apply State.setCell_keeps
    | (extract_lets)
    | split
    | with_reducible apply PKeeps.pair
    | with_reducible apply QKeeps.pair
    | (with_reducible refine PKeeps.eq (by assumption) ?_)
    | (with_reducible refine QKeeps.eq (by assumption) ?_))

theorem State.cellRefused_keeps {r_ : Prop} {z s : State} (c i detail : Nat) (hk : Keeps r_ z s) : Keeps r_ z (State.cellRefused s
    c i detail) := by
  unfold State.cellRefused
  repeat' (first
    | with_reducible assumption
    | intro _
    | with_reducible apply Keeps.foldl
    | with_reducible apply PKeeps.foldl
    | with_reducible apply QKeeps.foldl
    | with_reducible apply PKeeps.fst
    | with_reducible apply QKeeps.snd
    | with_reducible apply State.draw_keepsQ
    | with_reducible apply State.finishEntry_keeps
    | with_reducible apply State.setCell_keeps
    | (extract_lets)
    | split
    | with_reducible apply PKeeps.pair
    | with_reducible apply QKeeps.pair
    | (with_reducible refine PKeeps.eq (by assumption) ?_)
    | (with_reducible refine QKeeps.eq (by assumption) ?_))

theorem State.cellAcquire_keeps {r_ : Prop} {z s : State} (c i p : Nat) (hk : Keeps r_ z s) : Keeps r_ z (State.cellAcquire s c i
    p) := by
  unfold State.cellAcquire
  repeat' (first
    | with_reducible assumption
    | intro _
    | with_reducible apply Keeps.ite
    | with_reducible apply State.bump_keeps
    | with_reducible apply State.cellGranted_keeps
    | with_reducible apply State.cellRefused_keeps
    | with_reducible apply State.raise_keeps
    | with_reducible apply State.setCell_keeps
    | with_reducible apply State.tellInherit_keeps
    | (extract_lets)
    | split)

theorem State.cellHandover_keeps {r_ : Prop} {z s : State} (c : Nat) (abandoned : Bool) (hk : Keeps r_ z s) : Keeps r_ z
    (State.cellHandover s c abandoned) := by
  unfold State.cellHandover
  repeat' (first
    | with_reducible assumption
    | intro _
    | with_reducible apply State.bump_keeps
    | with_reducible apply State.cellGranted_keeps
    | with_reducible apply State.setCell_keeps
    | with_reducible apply State.tellInherit_keeps
    | (extract_lets)
    | split)

theorem State.cellRelease_keeps {r_ : Prop} {z s : State} (c i : Nat) (hk : Keeps r_ z s) : Keeps r_ z (State.cellRelease s c i)
    := by
  unfold State.cellRelease
  repeat' (first
    | with_reducible assumption
    | intro _
    | with_reducible apply Keeps.ite
    | with_reducible apply State.bump_keeps
    | with_reducible apply State.cellHandover_keeps
    | with_reducible apply State.raise_keeps
    | (extract_lets)
    | split)

theorem State.cellWithdraw_keeps {r_ : Prop} {z s : State} (c i : Nat) (hk : Keeps r_ z s) : Keeps r_ z (State.cellWithdraw s c i)
    := by
  unfold State.cellWithdraw
  repeat' (first
    | with_reducible assumption
    | intro _
    | with_reducible apply State.cellRefused_keeps
    | with_reducible apply State.setCell_keeps
    | (extract_lets)
    | split)

theorem State.cellReg_keeps {r_ : Prop} {z s : State} (req : Requester) (c op p i : Nat) (hk : Keeps r_ z s) : Keeps r_ z
    (State.cellReg s req c op p i) := by
  unfold State.cellReg
  repeat' (first
    | with_reducible assumption
    | intro _
    | with_reducible apply Keeps.ite
    | with_reducible apply QKeeps.snd
    | with_reducible apply State.draw_keepsQ
    | with_reducible apply State.bump_keeps
    | with_reducible apply State.cellAcquire_keeps
    | with_reducible apply State.cellRelease_keeps
    | with_reducible apply State.cellWithdraw_keeps
    | (extract_lets)
    | split
    | with_reducible apply QKeeps.pair
    | (with_reducible refine QKeeps.eq (by assumption) ?_))

theorem State.cellResetIdentity_keeps {r_ : Prop} {z s : State} (i : Nat) (hk : Keeps r_ z s) : Keeps r_ z
    (State.cellResetIdentity s i) := by
  unfold State.cellResetIdentity
  repeat' (first
    | with_reducible assumption
    | intro _
    | with_reducible apply Keeps.ite
    | with_reducible apply Keeps.foldl
    | with_reducible apply PKeeps.foldl
    | with_reducible apply QKeeps.foldl
    | with_reducible apply QKeeps.snd
    | with_reducible apply State.draw_keepsQ
    | with_reducible apply State.bump_keeps
    | with_reducible apply State.cellHandover_keeps
    | with_reducible apply State.cellWithdraw_keeps
    | with_reducible apply State.raise_keeps
    | (extract_lets)
    | split
    | with_reducible apply QKeeps.pair
    | (with_reducible refine QKeeps.eq (by assumption) ?_))

theorem State.cellEntry_keeps {r_ : Prop} {z s : State} (q op : Nat) (go : Sq → Ent → State) (h_go : ∀ u0 u1, Keeps r_ z (go u0
    u1)) (hk : Keeps r_ z s) : Keeps r_ z (State.cellEntry s q op go) := by
  unfold State.cellEntry
  repeat' (first
    | with_reducible assumption
    | intro _
    | with_reducible apply Keeps.ite
    | with_reducible apply State.bump_keeps
    | with_reducible apply State.finishEntry_keeps
    | with_reducible apply h_go
    | (extract_lets)
    | split)

theorem State.cellDone_keeps {r_ : Prop} {z s : State} (q : Nat) (e : Ent) (bytes : Nat) (hk : Keeps r_ z s) : Keeps r_ z
    (State.cellDone s q e bytes) := by
  unfold State.cellDone
  repeat' (first
    | with_reducible assumption
    | intro _
    | with_reducible apply State.finishEntry_keeps
    | (extract_lets)
    | split)

theorem execCellAcquire_keeps {r_ : Prop} {z s : State} (via : CellVia) (hk : Keeps r_ z s) : OutKeeps r_ z (execCellAcquire via
    s) := by
  unfold execCellAcquire
  repeat' (first
    | with_reducible assumption
    | intro _
    | with_reducible apply OutKeeps.next
    | with_reducible apply State.cellAcquire_keeps
    | with_reducible apply State.cellEntry_keeps
    | with_reducible apply State.cellReg_keeps
    | with_reducible apply State.runEntry_keeps
    | with_reducible apply State.setCell_keeps
    | (extract_lets)
    | split)

theorem execCellTry_keeps {r_ : Prop} {z s : State} (q : Nat) (hk : Keeps r_ z s) : OutKeeps r_ z (execCellTry q s) := by
  unfold execCellTry
  repeat' (first
    | with_reducible assumption
    | intro _
    | with_reducible apply OutKeeps.ite
    | with_reducible apply Keeps.ite
    | with_reducible apply OutKeeps.next
    | with_reducible apply State.cellAcquire_keeps
    | with_reducible apply State.cellDone_keeps
    | with_reducible apply State.cellEntry_keeps
    | (extract_lets)
    | split)

theorem execCellRelease_keeps {r_ : Prop} {z s : State} (via : CellVia) (hk : Keeps r_ z s) : OutKeeps r_ z (execCellRelease via
    s) := by
  unfold execCellRelease
  repeat' (first
    | with_reducible assumption
    | intro _
    | with_reducible apply OutKeeps.next
    | with_reducible apply State.cellDone_keeps
    | with_reducible apply State.cellEntry_keeps
    | with_reducible apply State.cellReg_keeps
    | with_reducible apply State.cellRelease_keeps
    | (extract_lets)
    | split)

theorem execCellWithdraw_keeps {r_ : Prop} {z s : State} (via : CellVia) (hk : Keeps r_ z s) : OutKeeps r_ z (execCellWithdraw via
    s) := by
  unfold execCellWithdraw
  repeat' (first
    | with_reducible assumption
    | intro _
    | with_reducible apply QKeeps.snd
    | with_reducible apply State.draw_keepsQ
    | with_reducible apply OutKeeps.next
    | with_reducible apply State.cellDone_keeps
    | with_reducible apply State.cellEntry_keeps
    | with_reducible apply State.cellReg_keeps
    | with_reducible apply State.cellWithdraw_keeps
    | (extract_lets)
    | split
    | with_reducible apply QKeeps.pair
    | (with_reducible refine QKeeps.eq (by assumption) ?_))

theorem State.flRefuse_keeps {r_ : Prop} {z s : State} (a : Arr) (reason : Nat) (hk : Keeps r_ z s) : Keeps r_ z (State.flRefuse s
    a reason) := by
  unfold State.flRefuse
  repeat' (first
    | with_reducible assumption
    | intro _
    | with_reducible apply State.bump_keeps
    | with_reducible apply State.raise_keeps
    | with_reducible apply State.result_keeps
    | with_reducible apply State.takeArr_keeps
    | (extract_lets)
    | split)

theorem State.onFl_keeps {r_ : Prop} {z s : State} (a : Arr) (hm : HostView) (hk : Keeps r_ z s) : Keeps r_ z (State.onFl s a hm)
    := by
  unfold State.onFl
  repeat' (first
    | with_reducible assumption
    | intro _
    | with_reducible apply Keeps.ite
    | with_reducible apply PKeeps.fst
    | with_reducible apply QKeeps.snd
    | with_reducible apply State.draw_keepsQ
    | with_reducible apply State.answer_keeps
    | with_reducible apply State.bump_keeps
    | with_reducible apply State.bumpIf_keeps
    | with_reducible apply State.draw_keeps
    | with_reducible apply State.flRefuse_keeps
    | with_reducible apply State.hostRead_keeps
    | with_reducible apply State.hostWrite_keeps
    | with_reducible apply State.onRma_keeps
    | with_reducible apply State.payload_keeps
    | with_reducible apply State.raise_keeps
    | with_reducible apply State.rmaCheck_keeps
    | with_reducible apply State.rmaFail_keeps
    | with_reducible apply State.rmaFull_keeps
    | with_reducible apply State.rmaRefuse_keeps
    | with_reducible apply State.takeArr_keeps
    | with_reducible apply State.xlate_keeps
    | (extract_lets)
    | split
    | with_reducible apply PKeeps.pair
    | with_reducible apply QKeeps.pair
    | (with_reducible refine PKeeps.eq (by assumption) ?_)
    | (with_reducible refine QKeeps.eq (by assumption) ?_))

theorem State.setRec_keeps {r_ : Prop} {z s : State} (i : Nat) (r : Option FlRec) (hk : Keeps r_ z s) : Keeps r_ z (State.setRec s
    i r) := by
  unfold State.setRec
  repeat' (first
    | with_reducible assumption
    | intro _
    | (extract_lets)
    | split
    | with_reducible apply Keeps.upd)

theorem State.flFinish_keeps {r_ : Prop} {z s : State} (q : Nat) (ctr : RingCtr) (r : Res) (hk : Keeps r_ z s) : Keeps r_ z
    (State.flFinish s q ctr r) := by
  unfold State.flFinish
  repeat' (first
    | with_reducible assumption
    | intro _
    | with_reducible apply Keeps.ite
    | with_reducible apply State.finishEntry_keeps
    | with_reducible apply State.put_keeps
    | with_reducible apply State.result_keeps
    | (extract_lets)
    | split)

theorem State.sendFl_keeps {r_ : Prop} {z s : State} (origin : OpOrigin) (src : Nat × Nat) (identity ep target key offset op
    ticket d : Nat) (viaCmd : Bool) (way : FlWay) (hk : Keeps r_ z s) : Keeps r_ z (State.sendFl s origin src identity ep target
    key offset op ticket d viaCmd way) := by
  unfold State.sendFl
  repeat' (first
    | with_reducible assumption
    | intro _
    | with_reducible apply State.newOp_keeps
    | (extract_lets)
    | split)

theorem State.flCommand_keeps {r_ : Prop} {z s : State} (req : Requester) (op : Nat) (go : State → FlAsk → State) (h_go : ∀ u0 u1,
    Keeps r_ z u0 → Keeps r_ z (go u0 u1)) (hk : Keeps r_ z s) : Keeps r_ z (State.flCommand s req op go) := by
  unfold State.flCommand
  repeat' (first
    | with_reducible assumption
    | intro _
    | with_reducible apply Keeps.ite
    | with_reducible apply State.flFinish_keeps
    | with_reducible apply State.put_keeps
    | with_reducible apply h_go
    | (extract_lets)
    | split
    | with_reducible apply Keeps.upd)

theorem State.flStart_keeps {r_ : Prop} {z s : State} (via : FlVia) (op : Nat) (go : State → FlAsk → State) (h_go : ∀ u0 u1, Keeps
    r_ z u0 → Keeps r_ z (go u0 u1)) (hk : Keeps r_ z s) : Keeps r_ z (State.flStart s via op go) := by
  unfold State.flStart
  repeat' (first
    | with_reducible assumption
    | intro _
    | with_reducible apply State.flCommand_keeps
    | with_reducible apply State.runEntry_keeps
    | with_reducible apply h_go
    | (extract_lets)
    | split)

theorem State.flAcquire_keeps {r_ : Prop} {z s : State} (k : FlAsk) (hk : Keeps r_ z s) : Keeps r_ z (State.flAcquire s k) := by
  unfold State.flAcquire
  repeat' (first
    | with_reducible assumption
    | intro _
    | with_reducible apply QKeeps.snd
    | with_reducible apply State.draw_keepsQ
    | with_reducible apply State.flFinish_keeps
    | with_reducible apply State.pick_keeps
    | with_reducible apply State.sendFl_keeps
    | with_reducible apply State.setRec_keeps
    | (extract_lets)
    | split
    | with_reducible apply QKeeps.pair
    | (with_reducible refine QKeeps.eq (by assumption) ?_))

theorem State.flOnHeld_keeps {r_ : Prop} {z s : State} (k : FlAsk) (op : Nat) (hk : Keeps r_ z s) : Keeps r_ z (State.flOnHeld s k
    op) := by
  unfold State.flOnHeld
  repeat' (first
    | with_reducible assumption
    | intro _
    | with_reducible apply State.flFinish_keeps
    | with_reducible apply State.sendFl_keeps
    | (extract_lets)
    | split)

theorem State.flBreak_keeps {r_ : Prop} {z s : State} (k : FlAsk) (hk : Keeps r_ z s) : Keeps r_ z (State.flBreak s k) := by
  unfold State.flBreak
  repeat' (first
    | with_reducible assumption
    | intro _
    | with_reducible apply State.sendFl_keeps
    | (extract_lets)
    | split)

theorem State.flPollSend_keeps {r_ : Prop} {z s : State} (i : Nat) (hk : Keeps r_ z s) : Keeps r_ z (State.flPollSend s i) := by
  unfold State.flPollSend
  repeat' (first
    | with_reducible assumption
    | intro _
    | with_reducible apply Keeps.ite
    | with_reducible apply State.sendFl_keeps
    | with_reducible apply State.setRec_keeps
    | (extract_lets)
    | split)

theorem State.flAbandonRec_keeps {r_ : Prop} {z s : State} (i : Nat) (r : FlRec) (hk : Keeps r_ z s) : Keeps r_ z
    (State.flAbandonRec s i r) := by
  unfold State.flAbandonRec
  repeat' (first
    | with_reducible assumption
    | intro _
    | with_reducible apply State.sendFl_keeps
    | (extract_lets)
    | split)

theorem State.flResetIdentity_keeps {r_ : Prop} {z s : State} (ident : Nat) (hk : Keeps r_ z s) : Keeps r_ z
    (State.flResetIdentity s ident) := by
  unfold State.flResetIdentity
  repeat' (first
    | with_reducible assumption
    | intro _
    | with_reducible apply Keeps.ite
    | with_reducible apply Keeps.foldl
    | with_reducible apply PKeeps.foldl
    | with_reducible apply QKeeps.foldl
    | with_reducible apply PKeeps.fst
    | with_reducible apply QKeeps.snd
    | with_reducible apply State.draw_keepsQ
    | with_reducible apply State.flAbandonRec_keeps
    | with_reducible apply State.setRec_keeps
    | (extract_lets)
    | split
    | with_reducible apply PKeeps.pair
    | with_reducible apply QKeeps.pair
    | (with_reducible refine PKeeps.eq (by assumption) ?_)
    | (with_reducible refine QKeeps.eq (by assumption) ?_))

theorem State.flGranted_keeps {r_ : Prop} {z s : State} (i : Nat) (r : FlRec) (ticket w : Nat) (hk : Keeps r_ z s) : Keeps r_ z
    (State.flGranted s i r ticket w) := by
  unfold State.flGranted
  repeat' (first
    | with_reducible assumption
    | intro _
    | with_reducible apply Keeps.ite
    | with_reducible apply State.flAbandonRec_keeps
    | with_reducible apply State.flFinish_keeps
    | with_reducible apply State.setRec_keeps
    | (extract_lets)
    | split)

theorem State.flReply_keeps {r_ : Prop} {z s : State} (n : Nat) (o : Op) (out w : Nat) (hk : Keeps r_ z s) : Keeps r_ z
    (State.flReply s n o out w) := by
  unfold State.flReply
  repeat' (first
    | with_reducible assumption
    | intro _
    | with_reducible apply Keeps.ite
    | with_reducible apply State.delOp_keeps
    | with_reducible apply State.flFinish_keeps
    | with_reducible apply State.flGranted_keeps
    | with_reducible apply State.setRec_keeps
    | (extract_lets)
    | split)

theorem State.flFailed_keeps {r_ : Prop} {z s : State} (n : Nat) (o : Op) (r : Res) (hk : Keeps r_ z s) : Keeps r_ z
    (State.flFailed s n o r) := by
  unfold State.flFailed
  repeat' (first
    | with_reducible assumption
    | intro _
    | with_reducible apply Keeps.ite
    | with_reducible apply State.delOp_keeps
    | with_reducible apply State.flFinish_keeps
    | with_reducible apply State.setRec_keeps
    | (extract_lets)
    | split)

theorem State.onFlReply_keeps {r_ : Prop} {z s : State} (a : Arr) (hk : Keeps r_ z s) : Keeps r_ z (State.onFlReply s a) := by
  unfold State.onFlReply
  repeat' (first
    | with_reducible assumption
    | intro _
    | with_reducible apply Keeps.ite
    | with_reducible apply PKeeps.fst
    | with_reducible apply State.flReply_keeps
    | with_reducible apply State.payload_keeps
    | with_reducible apply State.takeArr_keeps
    | (extract_lets)
    | split
    | with_reducible apply PKeeps.pair
    | (with_reducible refine PKeeps.eq (by assumption) ?_))

end Sys2Proof.Machine
end

