-- ==== Sys2Proof/Laws/KeepsBrg.lean ====
section
/-! SUPPORT. Laws/Keeps.lean, for the operations of Machine/Brg.lean. -/
namespace Sys2Proof.Machine

theorem State.onBrg_keeps {r_ : Prop} {z s : State} (f : Brg → Brg) (hk : Keeps r_ z s) : Keeps r_ z (State.onBrg s f) := by
  unfold State.onBrg
  repeat' (first
    | with_reducible assumption
    | intro _
    | (extract_lets)
    | split
    | with_reducible apply Keeps.upd)

theorem State.completeErr_keeps {r_ : Prop} {z s : State} (hp tag status : Nat) (hk : Keeps r_ z s) : Keeps r_ z
    (State.completeErr s hp tag status) := by
  unfold State.completeErr
  repeat' (first
    | with_reducible assumption
    | intro _
    | with_reducible apply State.emit_keeps
    | (extract_lets)
    | split)

theorem State.completeData_keeps {r_ : Prop} {z s : State} (hp tag addr : Nat) (d : Data) (n : Nat) (hk : Keeps r_ z s) : Keeps r_
    z (State.completeData s hp tag addr d n) := by
  induction n generalizing s addr d with
  | zero =>
    unfold State.completeData
    repeat' (first
      | with_reducible assumption
      | with_reducible apply ih
      | intro _
      | with_reducible apply Keeps.ite
      | with_reducible apply State.emit_keeps
      | (extract_lets)
      | split)
  | succ n ih =>
    unfold State.completeData
    repeat' (first
      | with_reducible assumption
      | with_reducible apply ih
      | intro _
      | with_reducible apply Keeps.ite
      | with_reducible apply State.emit_keeps
      | (extract_lets)
      | split)

theorem State.pfKill_keeps {r_ : Prop} {z s : State} (p : PfEnt → Bool) (hk : Keeps r_ z s) : Keeps r_ z (State.pfKill s p) := by
  unfold State.pfKill
  repeat' (first
    | with_reducible assumption
    | intro _
    | with_reducible apply Keeps.ite
    | with_reducible apply State.onBrg_keeps
    | (extract_lets)
    | split)

theorem execBar4Write_keeps {r_ : Prop} {z s : State} (fn off : Nat) (d : Data) (be : Nat) (hk : Keeps r_ z s) : OutKeeps r_ z
    (execBar4Write fn off d be s) := by
  unfold execBar4Write
  repeat' (first
    | with_reducible assumption
    | intro _
    | with_reducible apply OutKeeps.ite
    | with_reducible apply Keeps.ite
    | with_reducible apply Keeps.foldl
    | with_reducible apply PKeeps.foldl
    | with_reducible apply QKeeps.foldl
    | with_reducible apply PKeeps.fst
    | with_reducible apply QKeeps.snd
    | with_reducible apply State.draw_keepsQ
    | with_reducible apply OutKeeps.next
    | with_reducible apply State.bump_keeps
    | with_reducible apply State.onBrg_keeps
    | with_reducible apply State.pfKill_keeps
    | (extract_lets)
    | split
    | with_reducible apply PKeeps.pair
    | with_reducible apply QKeeps.pair
    | (with_reducible refine PKeeps.eq (by assumption) ?_)
    | (with_reducible refine QKeeps.eq (by assumption) ?_))

theorem execWindowWriteSend_keeps {r_ : Prop} {z s : State} (id : Nat) (hk : Keeps r_ z s) : OutKeeps r_ z (execWindowWriteSend id
    s) := by
  unfold execWindowWriteSend
  repeat' (first
    | with_reducible assumption
    | intro _
    | with_reducible apply OutKeeps.ite
    | with_reducible apply Keeps.ite
    | with_reducible apply OutKeeps.next
    | with_reducible apply State.bump_keeps
    | with_reducible apply State.newOp_keeps
    | with_reducible apply State.onBrg_keeps
    | (extract_lets)
    | split)

theorem State.brgErr_keeps {r_ : Prop} {z s : State} (fn win status detail : Nat) (hk : Keeps r_ z s) : Keeps r_ z (State.brgErr s
    fn win status detail) := by
  unfold State.brgErr
  repeat' (first
    | with_reducible assumption
    | intro _
    | with_reducible apply State.put_keeps
    | (extract_lets)
    | split)

theorem State.winErr_keeps {r_ : Prop} {z s : State} (fn w : Nat) (hk : Keeps r_ z s) : Keeps r_ z (State.winErr s fn w) := by
  unfold State.winErr
  repeat' (first
    | with_reducible assumption
    | intro _
    | with_reducible apply Keeps.ite
    | with_reducible apply State.bumpBy_keeps
    | with_reducible apply State.onBrg_keeps
    | with_reducible apply State.setWord_keeps
    | (extract_lets)
    | split)

theorem State.setRead_keeps {r_ : Prop} {z s : State} (x : BRead) (hk : Keeps r_ z s) : Keeps r_ z (State.setRead s x) := by
  unfold State.setRead
  repeat' (first
    | with_reducible assumption
    | intro _
    | with_reducible apply Keeps.ite
    | with_reducible apply State.onBrg_keeps
    | (extract_lets)
    | split)

theorem State.dropRead_keeps {r_ : Prop} {z s : State} (x : BRead) (hk : Keeps r_ z s) : Keeps r_ z (State.dropRead s x) := by
  unfold State.dropRead
  repeat' (first
    | with_reducible assumption
    | intro _
    | with_reducible apply State.onBrg_keeps
    | (extract_lets)
    | split)

theorem State.readAhead_keeps {r_ : Prop} {z s : State} (x : BRead) (hk : Keeps r_ z s) : Keeps r_ z (State.readAhead s x) := by
  unfold State.readAhead
  repeat' (first
    | with_reducible assumption
    | intro _
    | with_reducible apply Keeps.ite
    | with_reducible apply State.newOp_keeps
    | with_reducible apply State.onBrg_keeps
    | (extract_lets)
    | split)

theorem State.readGo_keeps {r_ : Prop} {z s : State} (x : BRead) (hk : Keeps r_ z s) : Keeps r_ z (State.readGo s x) := by
  unfold State.readGo
  repeat' (first
    | with_reducible assumption
    | intro _
    | with_reducible apply Keeps.ite
    | with_reducible apply State.bump_keeps
    | with_reducible apply State.completeData_keeps
    | with_reducible apply State.completeErr_keeps
    | with_reducible apply State.dropRead_keeps
    | with_reducible apply State.emit_keeps
    | with_reducible apply State.newOp_keeps
    | with_reducible apply State.readAhead_keeps
    | with_reducible apply State.setRead_keeps
    | (extract_lets)
    | split)

theorem execBar4Read_keeps {r_ : Prop} {z s : State} (fn off len tag kind : Nat) (hk : Keeps r_ z s) : OutKeeps r_ z (execBar4Read
    fn off len tag kind s) := by
  unfold execBar4Read
  repeat' (first
    | with_reducible assumption
    | intro _
    | with_reducible apply OutKeeps.ite
    | with_reducible apply Keeps.ite
    | with_reducible apply OutKeeps.next
    | with_reducible apply State.bump_keeps
    | with_reducible apply State.completeErr_keeps
    | with_reducible apply State.onBrg_keeps
    | with_reducible apply State.readGo_keeps
    | (extract_lets)
    | split)

theorem State.readFail_keeps {r_ : Prop} {z s : State} (x : BRead) (status detail ctr : Nat) (hk : Keeps r_ z s) : Keeps r_ z
    (State.readFail s x status detail ctr) := by
  unfold State.readFail
  repeat' (first
    | with_reducible assumption
    | intro _
    | with_reducible apply State.brgErr_keeps
    | with_reducible apply State.bump_keeps
    | with_reducible apply State.completeErr_keeps
    | with_reducible apply State.dropRead_keeps
    | with_reducible apply State.raise_keeps
    | (extract_lets)
    | split)

theorem execWindowReadComplete_keeps {r_ : Prop} {z s : State} (id : Nat) (hk : Keeps r_ z s) : OutKeeps r_ z
    (execWindowReadComplete id s) := by
  unfold execWindowReadComplete
  repeat' (first
    | with_reducible assumption
    | intro _
    | with_reducible apply OutKeeps.ite
    | with_reducible apply Keeps.ite
    | with_reducible apply OutKeeps.next
    | with_reducible apply State.completeData_keeps
    | with_reducible apply State.delOp_keeps
    | with_reducible apply State.dropRead_keeps
    | with_reducible apply State.readFail_keeps
    | (extract_lets)
    | split)

theorem State.prefetchTimeout_keeps {r_ : Prop} {z s : State} (id : Nat) (hk : Keeps r_ z s) : Keeps r_ z (State.prefetchTimeout s
    id) := by
  unfold State.prefetchTimeout
  repeat' (first
    | with_reducible assumption
    | intro _
    | with_reducible apply Keeps.ite
    | with_reducible apply State.bump_keeps
    | with_reducible apply State.delOp_keeps
    | with_reducible apply State.onBrg_keeps
    | (extract_lets)
    | split)

theorem execWindowReadTimeout_keeps {r_ : Prop} {z s : State} (id : Nat) (hk : Keeps r_ z s) : OutKeeps r_ z
    (execWindowReadTimeout id s) := by
  unfold execWindowReadTimeout
  repeat' (first
    | with_reducible assumption
    | intro _
    | with_reducible apply OutKeeps.ite
    | with_reducible apply Keeps.ite
    | with_reducible apply QKeeps.snd
    | with_reducible apply State.draw_keepsQ
    | with_reducible apply OutKeeps.next
    | with_reducible apply State.delOp_keeps
    | with_reducible apply State.draw_keeps
    | with_reducible apply State.prefetchTimeout_keeps
    | with_reducible apply State.readFail_keeps
    | (extract_lets)
    | split
    | with_reducible apply QKeeps.pair
    | (with_reducible refine QKeeps.eq (by assumption) ?_))

theorem execPrefetchExpiry_keeps {r_ : Prop} {z s : State} (id : Nat) (hk : Keeps r_ z s) : OutKeeps r_ z (execPrefetchExpiry id
    s) := by
  unfold execPrefetchExpiry
  repeat' (first
    | with_reducible assumption
    | intro _
    | with_reducible apply OutKeeps.ite
    | with_reducible apply Keeps.ite
    | with_reducible apply OutKeeps.next
    | with_reducible apply State.onBrg_keeps
    | (extract_lets)
    | split)

theorem State.prefetchDone_keeps {r_ : Prop} {z s : State} (id n : Nat) (r : Res) (hk : Keeps r_ z s) : Keeps r_ z
    (State.prefetchDone s id n r) := by
  unfold State.prefetchDone
  repeat' (first
    | with_reducible assumption
    | intro _
    | with_reducible apply Keeps.ite
    | with_reducible apply State.bump_keeps
    | with_reducible apply State.delOp_keeps
    | with_reducible apply State.onBrg_keeps
    | (extract_lets)
    | split)

theorem State.settleBrg_keeps {r_ : Prop} {z s : State} (hk : Keeps r_ z s) : Keeps r_ z (State.settleBrg s) := by
  unfold State.settleBrg
  repeat' (first
    | with_reducible assumption
    | intro _
    | with_reducible apply Keeps.foldl
    | with_reducible apply PKeeps.foldl
    | with_reducible apply QKeeps.foldl
    | with_reducible apply QKeeps.snd
    | with_reducible apply State.draw_keepsQ
    | with_reducible apply State.readGo_keeps
    | (extract_lets)
    | split
    | with_reducible apply QKeeps.pair
    | (with_reducible refine QKeeps.eq (by assumption) ?_))

theorem execWindowWriteFail_keeps {r_ : Prop} {z s : State} (id : Nat) (hk : Keeps r_ z s) : OutKeeps r_ z (execWindowWriteFail id
    s) := by
  unfold execWindowWriteFail
  repeat' (first
    | with_reducible assumption
    | intro _
    | with_reducible apply OutKeeps.ite
    | with_reducible apply Keeps.ite
    | with_reducible apply OutKeeps.next
    | with_reducible apply State.brgErr_keeps
    | with_reducible apply State.bump_keeps
    | with_reducible apply State.delOp_keeps
    | with_reducible apply State.onBrg_keeps
    | with_reducible apply State.raise_keeps
    | with_reducible apply State.settleBrg_keeps
    | with_reducible apply State.winErr_keeps
    | (extract_lets)
    | split)

end Sys2Proof.Machine
end

