-- ==== Sys2Proof/Laws/KeepsColCmd.lean ====
section
/-! SUPPORT. Laws/Keeps.lean, for the operations of Machine/ColCmd.lean. -/
namespace Sys2Proof.Machine

theorem State.setChunk_keeps {r_ : Prop} {z s : State} (c : ColChunk) (hk : Keeps r_ z s) : Keeps r_ z (State.setChunk s c) := by
  unfold State.setChunk
  repeat' (first
    | with_reducible assumption
    | intro _
    | with_reducible apply Keeps.ite
    | (extract_lets)
    | split
    | with_reducible apply Keeps.upd)

theorem State.delChunk_keeps {r_ : Prop} {z s : State} (c : ColChunk) (hk : Keeps r_ z s) : Keeps r_ z (State.delChunk s c) := by
  unfold State.delChunk
  repeat' (first
    | with_reducible assumption
    | intro _
    | (extract_lets)
    | split
    | with_reducible apply Keeps.upd)

theorem State.colOverrun_keeps {r_ : Prop} {z s : State} (t set : Nat) (hk : Keeps r_ z s) : Keeps r_ z (State.colOverrun s t set)
    := by
  unfold State.colOverrun
  repeat' (first
    | with_reducible assumption
    | intro _
    | with_reducible apply State.bump_keeps
    | with_reducible apply State.treeError_keeps
    | (extract_lets)
    | split)

theorem State.sendChunk_keeps {r_ : Prop} {z s : State} (c : ColChunk) (x : ColIn) (type port : Nat) (hk : Keeps r_ z s) : Keeps
    r_ z (State.sendChunk s c x type port) := by
  unfold State.sendChunk
  repeat' (first
    | with_reducible assumption
    | intro _
    | with_reducible apply Keeps.ite
    | with_reducible apply State.bump_keeps
    | with_reducible apply State.hubTo_keeps
    | with_reducible apply State.raise_keeps
    | (extract_lets)
    | split)

theorem State.onColOp_keeps {r_ : Prop} {z s : State} (c : ColChunk) (ep : Nat) (f : ColOp → ColOp) (hk : Keeps r_ z s) : Keeps r_
    z (State.onColOp s c ep f) := by
  unfold State.onColOp
  repeat' (first
    | with_reducible assumption
    | intro _
    | with_reducible apply Keeps.ite
    | (extract_lets)
    | split
    | with_reducible apply Keeps.upd)

theorem State.writeResult_keeps {r_ : Prop} {z s : State} (c : ColChunk) (o : ColOp) (hk : Keeps r_ z s) : PKeeps r_ z
    (State.writeResult s c o) := by
  unfold State.writeResult
  repeat' (first
    | with_reducible assumption
    | intro _
    | with_reducible apply PKeeps.ite
    | with_reducible apply Keeps.ite
    | with_reducible apply PKeeps.fst
    | with_reducible apply State.onColOp_keeps
    | with_reducible apply State.writePieces_keeps
    | with_reducible apply State.xlateRun_keeps
    | (extract_lets)
    | split
    | with_reducible apply PKeeps.pair
    | (with_reducible refine PKeeps.eq (by assumption) ?_))

theorem State.chunkDone_keeps {r_ : Prop} {z s : State} (c : ColChunk) (hk : Keeps r_ z s) : Keeps r_ z (State.chunkDone s c) :=
    by
  unfold State.chunkDone
  repeat' (first
    | with_reducible assumption
    | intro _
    | with_reducible apply Keeps.ite
    | with_reducible apply Keeps.foldl
    | with_reducible apply PKeeps.foldl
    | with_reducible apply QKeeps.foldl
    | with_reducible apply State.bumpIf_keeps
    | with_reducible apply State.delChunk_keeps
    | with_reducible apply State.finishEntry_keeps
    | with_reducible apply State.result_keeps
    | with_reducible apply State.setColTree_keeps
    | (extract_lets)
    | split
    | with_reducible apply Keeps.upd)

theorem State.writeAll_keeps {r_ : Prop} {z s : State} (c : ColChunk) (l : List Nat) (hk : Keeps r_ z s) : PKeeps r_ z
    (State.writeAll s c l) := by
  induction l generalizing s c with
  | nil =>
    unfold State.writeAll
    repeat' (first
      | with_reducible assumption
      | with_reducible apply ih
      | with_reducible exact ih _
      | intro _
      | with_reducible apply PKeeps.ite
      | with_reducible apply Keeps.ite
      | with_reducible apply PKeeps.fst
      | with_reducible apply State.chunkDone_keeps
      | with_reducible apply State.setChunk_keeps
      | with_reducible apply State.writeResult_keeps
      | (extract_lets)
      | split
      | with_reducible apply PKeeps.pair
      | (with_reducible refine PKeeps.eq (by assumption) ?_))
  | cons x t ih =>
    unfold State.writeAll
    repeat' (first
      | with_reducible assumption
      | with_reducible apply ih
      | with_reducible exact ih _
      | intro _
      | with_reducible apply PKeeps.ite
      | with_reducible apply Keeps.ite
      | with_reducible apply PKeeps.fst
      | with_reducible apply State.chunkDone_keeps
      | with_reducible apply State.setChunk_keeps
      | with_reducible apply State.writeResult_keeps
      | (extract_lets)
      | split
      | with_reducible apply PKeeps.pair
      | (with_reducible refine PKeeps.eq (by assumption) ?_))

theorem State.forward_keeps {r_ : Prop} {z s : State} (c : ColChunk) (hk : Keeps r_ z s) : Keeps r_ z (State.forward s c) := by
  unfold State.forward
  repeat' (first
    | with_reducible assumption
    | intro _
    | with_reducible apply Keeps.foldl
    | with_reducible apply PKeeps.foldl
    | with_reducible apply QKeeps.foldl
    | with_reducible apply State.sendChunk_keeps
    | with_reducible apply State.setChunk_keeps
    | with_reducible apply State.setColTree_keeps
    | (extract_lets)
    | split)

theorem State.toForward_keeps {r_ : Prop} {z s : State} (c : ColChunk) (hk : Keeps r_ z s) : Keeps r_ z (State.toForward s c) :=
    by
  unfold State.toForward
  repeat' (first
    | with_reducible assumption
    | intro _
    | with_reducible apply Keeps.ite
    | with_reducible apply State.forward_keeps
    | with_reducible apply State.setChunk_keeps
    | (extract_lets)
    | split)

theorem State.rootResult_keeps {r_ : Prop} {z s : State} (c : ColChunk) (hk : Keeps r_ z s) : QKeeps r_ z (State.rootResult s c)
    := by
  unfold State.rootResult
  repeat' (first
    | with_reducible assumption
    | intro _
    | with_reducible apply QKeeps.ite
    | with_reducible apply Keeps.ite
    | with_reducible apply Keeps.foldl
    | with_reducible apply PKeeps.foldl
    | with_reducible apply QKeeps.foldl
    | with_reducible apply PKeeps.fst
    | with_reducible apply QKeeps.snd
    | with_reducible apply State.draw_keepsQ
    | with_reducible apply State.draw_keeps
    | (extract_lets)
    | split
    | with_reducible apply PKeeps.pair
    | with_reducible apply QKeeps.pair
    | (with_reducible refine PKeeps.eq (by assumption) ?_)
    | (with_reducible refine QKeeps.eq (by assumption) ?_))

theorem State.produce_keeps {r_ : Prop} {z s : State} (c : ColChunk) (hk : Keeps r_ z s) : Keeps r_ z (State.produce s c) := by
  unfold State.produce
  repeat' (first
    | with_reducible assumption
    | intro _
    | with_reducible apply Keeps.ite
    | with_reducible apply QKeeps.snd
    | with_reducible apply State.draw_keepsQ
    | with_reducible apply State.forward_keeps
    | with_reducible apply State.rootResult_keeps
    | with_reducible apply State.setColTree_keeps
    | with_reducible apply State.treeError_keeps
    | (extract_lets)
    | split
    | with_reducible apply QKeeps.pair
    | (with_reducible refine QKeeps.eq (by assumption) ?_))

theorem State.settleTree_keeps {r_ : Prop} {z s : State} (t : Nat) (n : Nat) (hk : Keeps r_ z s) : Keeps r_ z (State.settleTree s
    t n) := by
  induction n generalizing s with
  | zero =>
    unfold State.settleTree
    repeat' (first
      | with_reducible assumption
      | with_reducible apply ih
      | intro _
      | with_reducible apply Keeps.ite
      | with_reducible apply PKeeps.fst
      | with_reducible apply State.forward_keeps
      | with_reducible apply State.produce_keeps
      | with_reducible apply State.writeAll_keeps
      | (extract_lets)
      | split
      | with_reducible apply PKeeps.pair
      | (with_reducible refine PKeeps.eq (by assumption) ?_))
  | succ n ih =>
    unfold State.settleTree
    repeat' (first
      | with_reducible assumption
      | with_reducible apply ih
      | intro _
      | with_reducible apply Keeps.ite
      | with_reducible apply PKeeps.fst
      | with_reducible apply State.forward_keeps
      | with_reducible apply State.produce_keeps
      | with_reducible apply State.writeAll_keeps
      | (extract_lets)
      | split
      | with_reducible apply PKeeps.pair
      | (with_reducible refine PKeeps.eq (by assumption) ?_))

theorem State.settleCol_keeps {r_ : Prop} {z s : State} (hk : Keeps r_ z s) : Keeps r_ z (State.settleCol s) := by
  unfold State.settleCol
  repeat' (first
    | with_reducible assumption
    | intro _
    | with_reducible apply Keeps.foldl
    | with_reducible apply PKeeps.foldl
    | with_reducible apply QKeeps.foldl
    | with_reducible apply State.settleTree_keeps
    | (extract_lets)
    | split)

theorem State.colInput_keeps {r_ : Prop} {z s : State} (n : ColChunk) (key : Nat) (x : ColIn) (hk : Keeps r_ z s) : Keeps r_ z
    (State.colInput s n key x) := by
  unfold State.colInput
  repeat' (first
    | with_reducible assumption
    | intro _
    | with_reducible apply Keeps.ite
    | with_reducible apply State.bumpIf_keeps
    | with_reducible apply State.colOverrun_keeps
    | with_reducible apply State.setChunk_keeps
    | with_reducible apply State.setColTree_keeps
    | with_reducible apply State.settleCol_keeps
    | with_reducible apply State.treeError_keeps
    | (extract_lets)
    | split
    | with_reducible apply Keeps.upd)

theorem State.setMember_keeps {r_ : Prop} {z s : State} (t ep : Nat) (m : ColMember) (hk : Keeps r_ z s) : Keeps r_ z
    (State.setMember s t ep m) := by
  unfold State.setMember
  repeat' (first
    | with_reducible assumption
    | intro _
    | (extract_lets)
    | split
    | with_reducible apply Keeps.upd)

theorem State.colJoin_keeps {r_ : Prop} {z s : State} (t ep : Nat) (hk : Keeps r_ z s) : PKeeps r_ z (State.colJoin s t ep) := by
  unfold State.colJoin
  repeat' (first
    | with_reducible assumption
    | intro _
    | with_reducible apply PKeeps.ite
    | with_reducible apply Keeps.ite
    | with_reducible apply PKeeps.fst
    | with_reducible apply State.setMember_keeps
    | (extract_lets)
    | split
    | with_reducible apply PKeeps.pair
    | (with_reducible refine PKeeps.eq (by assumption) ?_))

theorem execColJoin_keeps {r_ : Prop} {z s : State} (q : Nat) (hk : Keeps r_ z s) : OutKeeps r_ z (execColJoin q s) := by
  unfold execColJoin
  repeat' (first
    | with_reducible assumption
    | intro _
    | with_reducible apply PKeeps.fst
    | with_reducible apply OutKeeps.next
    | with_reducible apply State.colJoin_keeps
    | with_reducible apply State.finishEntry_keeps
    | (extract_lets)
    | split
    | with_reducible apply PKeeps.pair
    | (with_reducible refine PKeeps.eq (by assumption) ?_))

theorem execColLeave_keeps {r_ : Prop} {z s : State} (q : Nat) (hk : Keeps r_ z s) : OutKeeps r_ z (execColLeave q s) := by
  unfold execColLeave
  repeat' (first
    | with_reducible assumption
    | intro _
    | with_reducible apply OutKeeps.ite
    | with_reducible apply Keeps.ite
    | with_reducible apply QKeeps.snd
    | with_reducible apply State.draw_keepsQ
    | with_reducible apply OutKeeps.next
    | with_reducible apply State.colLeave_keeps
    | with_reducible apply State.draw_keeps
    | with_reducible apply State.finishEntry_keeps
    | (extract_lets)
    | split
    | with_reducible apply QKeeps.pair
    | (with_reducible refine QKeeps.eq (by assumption) ?_))

theorem State.colAccept_keeps {r_ : Prop} {z s : State} (q : Nat) (v : Sq) (e : Ent) (m : ColMember) (hk : Keeps r_ z s) : Keeps
    r_ z (State.colAccept s q v e m) := by
  unfold State.colAccept
  repeat' (first
    | with_reducible assumption
    | intro _
    | with_reducible apply State.runEntry_keeps
    | with_reducible apply State.setColTree_keeps
    | with_reducible apply State.setMember_keeps
    | (extract_lets)
    | split
    | with_reducible apply Keeps.upd)

theorem execColOp_keeps {r_ : Prop} {z s : State} (q : Nat) (hk : Keeps r_ z s) : OutKeeps r_ z (execColOp q s) := by
  unfold execColOp
  repeat' (first
    | with_reducible assumption
    | intro _
    | with_reducible apply OutKeeps.ite
    | with_reducible apply Keeps.ite
    | with_reducible apply OutKeeps.next
    | with_reducible apply State.colAccept_keeps
    | with_reducible apply State.finishEntry_keeps
    | with_reducible apply State.malformed_keeps
    | (extract_lets)
    | split)

theorem State.colReadFault_keeps {r_ : Prop} {z s : State} (o : ColOp) (r : Res) (hk : Keeps r_ z s) : Keeps r_ z
    (State.colReadFault s o r) := by
  unfold State.colReadFault
  repeat' (first
    | with_reducible assumption
    | intro _
    | with_reducible apply State.finishEntry_keeps
    | with_reducible apply State.treeError_keeps
    | (extract_lets)
    | split
    | with_reducible apply Keeps.upd)

theorem State.giveChunk_keeps {r_ : Prop} {z s : State} (o : ColOp) (x : ColIn) (hk : Keeps r_ z s) : Keeps r_ z (State.giveChunk
    s o x) := by
  unfold State.giveChunk
  repeat' (first
    | with_reducible assumption
    | intro _
    | with_reducible apply State.colInput_keeps
    | with_reducible apply State.onColOp_keeps
    | with_reducible apply State.setMember_keeps
    | (extract_lets)
    | split)

theorem execMemberChunkRead_keeps {r_ : Prop} {z s : State} (t ep : Nat) (hm : HostView) (hk : Keeps r_ z s) : OutKeeps r_ z
    (execMemberChunkRead t ep hm s) := by
  unfold execMemberChunkRead
  repeat' (first
    | with_reducible assumption
    | intro _
    | with_reducible apply OutKeeps.ite
    | with_reducible apply Keeps.ite
    | with_reducible apply PKeeps.fst
    | with_reducible apply OutKeeps.next
    | with_reducible apply State.colReadFault_keeps
    | with_reducible apply State.giveChunk_keeps
    | with_reducible apply State.readRun_keeps
    | with_reducible apply State.xlateRun_keeps
    | (extract_lets)
    | split
    | with_reducible apply PKeeps.pair
    | (with_reducible refine PKeeps.eq (by assumption) ?_))

theorem State.colChecked_keeps {r_ : Prop} {z s : State} (d : Data) (type port : Nat) (take : State → ColPkt → State) (h_take : ∀
    u0 u1, Keeps r_ z u0 → Keeps r_ z (take u0 u1)) (hk : Keeps r_ z s) : Keeps r_ z (State.colChecked s d type port take) := by
  unfold State.colChecked
  repeat' (first
    | with_reducible assumption
    | intro _
    | with_reducible apply Keeps.ite
    | with_reducible apply State.bump_keeps
    | with_reducible apply State.raise_keeps
    | with_reducible apply State.treeError_keeps
    | with_reducible apply h_take
    | (extract_lets)
    | split)

theorem State.colTake_keeps {r_ : Prop} {z s : State} (type : Nat) (go : State → Data → Nat → State) (h_go : ∀ u0 u1 u2, Keeps r_
    z u0 → Keeps r_ z (go u0 u1 u2)) (hk : Keeps r_ z s) : Keeps r_ z (State.colTake s type go) := by
  unfold State.colTake
  repeat' (first
    | with_reducible assumption
    | intro _
    | with_reducible apply Keeps.ite
    | with_reducible apply State.bump_keeps
    | with_reducible apply State.hubPop_keeps
    | with_reducible apply h_go
    | (extract_lets)
    | split)

theorem execColUpRx_keeps {r_ : Prop} {z s : State} (hk : Keeps r_ z s) : OutKeeps r_ z (execColUpRx s) := by
  unfold execColUpRx
  repeat' (first
    | with_reducible assumption
    | intro _
    | with_reducible apply OutKeeps.next
    | with_reducible apply State.colChecked_keeps
    | with_reducible apply State.colInput_keeps
    | with_reducible apply State.colTake_keeps
    | (extract_lets)
    | split)

theorem execChunkSendUp_keeps {r_ : Prop} {z s : State} (t : Nat) (hk : Keeps r_ z s) : OutKeeps r_ z (execChunkSendUp t s) := by
  unfold execChunkSendUp
  repeat' (first
    | with_reducible assumption
    | intro _
    | with_reducible apply OutKeeps.ite
    | with_reducible apply Keeps.ite
    | with_reducible apply OutKeeps.next
    | with_reducible apply State.sendChunk_keeps
    | with_reducible apply State.setChunk_keeps
    | with_reducible apply State.setColTree_keeps
    | (extract_lets)
    | split)

theorem execColDownRx_keeps {r_ : Prop} {z s : State} (hk : Keeps r_ z s) : OutKeeps r_ z (execColDownRx s) := by
  unfold execColDownRx
  repeat' (first
    | with_reducible assumption
    | intro _
    | with_reducible apply OutKeeps.ite
    | with_reducible apply Keeps.ite
    | with_reducible apply OutKeeps.next
    | with_reducible apply State.bump_keeps
    | with_reducible apply State.colChecked_keeps
    | with_reducible apply State.colOverrun_keeps
    | with_reducible apply State.colTake_keeps
    | with_reducible apply State.settleCol_keeps
    | with_reducible apply State.toForward_keeps
    | with_reducible apply State.treeError_keeps
    | (extract_lets)
    | split)

theorem execColAbortRx_keeps {r_ : Prop} {z s : State} (hk : Keeps r_ z s) : OutKeeps r_ z (execColAbortRx s) := by
  unfold execColAbortRx
  repeat' (first
    | with_reducible assumption
    | intro _
    | with_reducible apply OutKeeps.ite
    | with_reducible apply Keeps.ite
    | with_reducible apply OutKeeps.next
    | with_reducible apply State.colTake_keeps
    | with_reducible apply State.treeError_keeps
    | (extract_lets)
    | split)

theorem execColOpTimeout_keeps {r_ : Prop} {z s : State} (t : Nat) (hk : Keeps r_ z s) : OutKeeps r_ z (execColOpTimeout t s) :=
    by
  unfold execColOpTimeout
  repeat' (first
    | with_reducible assumption
    | intro _
    | with_reducible apply OutKeeps.ite
    | with_reducible apply Keeps.ite
    | with_reducible apply OutKeeps.next
    | with_reducible apply State.treeError_keeps
    | (extract_lets)
    | split)

theorem State.treeWrite_keeps {r_ : Prop} {z s : State} (after : State) (t : Nat) (h_after : Keeps r_ z after) (hk : Keeps r_ z s)
    : Keeps r_ z (State.treeWrite s after t) := by
  unfold State.treeWrite
  repeat' (first
    | with_reducible assumption
    | intro _
    | with_reducible apply Keeps.ite
    | with_reducible apply State.put_keeps
    | with_reducible apply h_after
    | (extract_lets)
    | split)

theorem State.colRun_keeps {r_ : Prop} {z s : State} (req : Requester) (opcode : Nat) (hk : Keeps r_ z s) : PKeeps r_ z
    (State.colRun s req opcode) := by
  unfold State.colRun
  repeat' (first
    | with_reducible assumption
    | intro _
    | with_reducible apply PKeeps.ite
    | with_reducible apply Keeps.ite
    | with_reducible apply Keeps.foldl
    | with_reducible apply PKeeps.foldl
    | with_reducible apply QKeeps.foldl
    | with_reducible apply PKeeps.fst
    | with_reducible apply State.put_keeps
    | with_reducible apply State.setColTree_keeps
    | with_reducible apply State.tableWrite_keeps
    | (extract_lets)
    | split
    | with_reducible apply PKeeps.pair
    | (with_reducible refine PKeeps.eq (by assumption) ?_)
    | with_reducible apply Keeps.upd)

theorem State.colCmd_keeps {r_ : Prop} {z s : State} (req : Requester) (v : Nat) (hk : Keeps r_ z s) : Keeps r_ z (State.colCmd s
    req v) := by
  unfold State.colCmd
  repeat' (first
    | with_reducible assumption
    | intro _
    | with_reducible apply Keeps.ite
    | with_reducible apply PKeeps.fst
    | with_reducible apply State.badAccess_keeps
    | with_reducible apply State.colRun_keeps
    | with_reducible apply State.put_keeps
    | with_reducible apply State.result_keeps
    | (extract_lets)
    | split
    | with_reducible apply PKeeps.pair
    | (with_reducible refine PKeeps.eq (by assumption) ?_))

theorem State.treeResume_keeps {r_ : Prop} {z s : State} (t : Nat) (hk : Keeps r_ z s) : Keeps r_ z (State.treeResume s t) := by
  unfold State.treeResume
  repeat' (first
    | with_reducible assumption
    | intro _
    | with_reducible apply Keeps.ite
    | with_reducible apply State.setColTree_keeps
    | (extract_lets)
    | split
    | with_reducible apply Keeps.upd)

theorem State.resumeTrees_keeps {r_ : Prop} {z s : State} (hk : Keeps r_ z s) : Keeps r_ z (State.resumeTrees s) := by
  unfold State.resumeTrees
  repeat' (first
    | with_reducible assumption
    | intro _
    | with_reducible apply Keeps.foldl
    | with_reducible apply PKeeps.foldl
    | with_reducible apply QKeeps.foldl
    | with_reducible apply State.treeResume_keeps
    | (extract_lets)
    | split)

theorem execTreeResumeEffect_keeps {r_ : Prop} {z s : State} (t : Nat) (hk : Keeps r_ z s) : OutKeeps r_ z (execTreeResumeEffect t
    s) := by
  unfold execTreeResumeEffect
  repeat' (first
    | with_reducible assumption
    | intro _
    | with_reducible apply OutKeeps.ite
    | with_reducible apply Keeps.ite
    | with_reducible apply OutKeeps.next
    | with_reducible apply State.treeResume_keeps
    | (extract_lets)
    | split)

end Sys2Proof.Machine
end

