-- ==== Sys2Proof/Laws/KeepsSettle.lean ====
section
/-! SUPPORT. Laws/Keeps.lean, for the operations of Machine/Settle.lean. -/
namespace Sys2Proof.Machine

theorem State.oweSkip_keeps {r_ : Prop} {z s : State} (k : Skip) (hk : Keeps r_ z s) : Keeps r_ z (State.oweSkip s k) := by
  unfold State.oweSkip
  repeat' (first
    | with_reducible assumption
    | intro _
    | with_reducible apply State.onMch_keeps
    | (extract_lets)
    | split)

theorem State.freeRv_keeps {r_ : Prop} {z s : State} (i : Nat) (hk : Keeps r_ z s) : Keeps r_ z (State.freeRv s i) := by
  unfold State.freeRv
  repeat' (first
    | with_reducible assumption
    | intro _
    | with_reducible apply State.onMch_keeps
    | with_reducible apply State.put_keeps
    | (extract_lets)
    | split)

theorem State.rvFail_keeps {r_ : Prop} {z s : State} (i : Nat) (x : Rv) (r : Res) (hk : Keeps r_ z s) : Keeps r_ z (State.rvFail s
    i x r) := by
  unfold State.rvFail
  repeat' (first
    | with_reducible assumption
    | intro _
    | with_reducible apply State.finishEntry_keeps
    | with_reducible apply State.freeRv_keeps
    | with_reducible apply State.oweSkip_keeps
    | (extract_lets)
    | split)

theorem State.sendSignal_keeps {r_ : Prop} {z s : State} (q : Nat) (ctr : RingCtr) (o : Op) (hk : Keeps r_ z s) : Keeps r_ z
    (State.sendSignal s q ctr o) := by
  unfold State.sendSignal
  repeat' (first
    | with_reducible assumption
    | intro _
    | with_reducible apply Keeps.ite
    | with_reducible apply State.newOp_keeps
    | (extract_lets)
    | split)

theorem State.entryDone_keeps {r_ : Prop} {z s : State} (n : Nat) (o : Op) (q : Nat) (ctr : RingCtr) (r : Res) (hk : Keeps r_ z s)
    : Keeps r_ z (State.entryDone s n o q ctr r) := by
  unfold State.entryDone
  repeat' (first
    | with_reducible assumption
    | intro _
    | with_reducible apply Keeps.ite
    | with_reducible apply State.delOp_keeps
    | with_reducible apply State.finishEntry_keeps
    | with_reducible apply State.oweSkip_keeps
    | with_reducible apply State.sendSignal_keeps
    | (extract_lets)
    | split)

theorem State.rvDataFail_keeps {r_ : Prop} {z s : State} (o : Op) (rv gen : Nat) (r : Res) (hk : Keeps r_ z s) : Keeps r_ z
    (State.rvDataFail s o rv gen r) := by
  unfold State.rvDataFail
  repeat' (first
    | with_reducible assumption
    | intro _
    | with_reducible apply Keeps.ite
    | with_reducible apply State.newOp_keeps
    | with_reducible apply State.rvFail_keeps
    | (extract_lets)
    | split)

theorem State.getFail_keeps {r_ : Prop} {z s : State} (n : Nat) (o : Op) (uid : Nat) (r : Res) (hk : Keeps r_ z s) : Keeps r_ z
    (State.getFail s n o uid r) := by
  unfold State.getFail
  repeat' (first
    | with_reducible assumption
    | intro _
    | with_reducible apply Keeps.ite
    | with_reducible apply State.addRef_keeps
    | with_reducible apply State.dropRef_keeps
    | with_reducible apply State.newOp_keeps
    | with_reducible apply State.setOp_keeps
    | (extract_lets)
    | split)

theorem State.opFinished_keeps {r_ : Prop} {z s : State} (n : Nat) (o : Op) (r : Res) (hk : Keeps r_ z s) : Keeps r_ z
    (State.opFinished s n o r) := by
  unfold State.opFinished
  repeat' (first
    | with_reducible assumption
    | intro _
    | with_reducible apply Keeps.ite
    | with_reducible apply State.completeRecv_keeps
    | with_reducible apply State.delOp_keeps
    | with_reducible apply State.dropRef_keeps
    | with_reducible apply State.entryDone_keeps
    | with_reducible apply State.finishEntry_keeps
    | with_reducible apply State.flFailed_keeps
    | with_reducible apply State.freeRv_keeps
    | with_reducible apply State.getFail_keeps
    | with_reducible apply State.onBrg_keeps
    | with_reducible apply State.onMch_keeps
    | with_reducible apply State.onRma_keeps
    | with_reducible apply State.oweSkip_keeps
    | with_reducible apply State.prefetchDone_keeps
    | with_reducible apply State.rvDataFail_keeps
    | with_reducible apply State.rvFail_keeps
    | (extract_lets)
    | split)

theorem State.settleOp_keeps {r_ : Prop} {z s : State} (i : Nat) (hk : Keeps r_ z s) : Keeps r_ z (State.settleOp s i) := by
  unfold State.settleOp
  repeat' (first
    | with_reducible assumption
    | intro _
    | with_reducible apply Keeps.ite
    | with_reducible apply State.finishOp_keeps
    | with_reducible apply State.opFinished_keeps
    | with_reducible apply State.setOp_keeps
    | (extract_lets)
    | split)

theorem State.settleCache_keeps {r_ : Prop} {z s : State} (hk : Keeps r_ z s) : Keeps r_ z (State.settleCache s) := by
  unfold State.settleCache
  repeat' (first
    | with_reducible assumption
    | intro _
    | with_reducible apply Keeps.ite
    | with_reducible apply State.level_keeps
    | (extract_lets)
    | split)

theorem State.settle_keeps {r_ : Prop} {z s : State} (hk : Keeps r_ z s) : Keeps r_ z (State.settle s) := by
  unfold State.settle
  repeat' (first
    | with_reducible assumption
    | intro _
    | with_reducible apply Keeps.foldl
    | with_reducible apply PKeeps.foldl
    | with_reducible apply QKeeps.foldl
    | with_reducible apply State.settleBrg_keeps
    | with_reducible apply State.settleCache_keeps
    | with_reducible apply State.settleCol_keeps
    | with_reducible apply State.settleMch_keeps
    | with_reducible apply State.settleOp_keeps
    | with_reducible apply State.settleReset_keeps
    | with_reducible apply State.settleXlt_keeps
    | (extract_lets)
    | split)

end Sys2Proof.Machine
end

