-- ==== Sys2Proof/Laws/KeepsTrnCmd.lean ====
section
/-! SUPPORT. Laws/Keeps.lean, for the operations of Machine/TrnCmd.lean. -/
namespace Sys2Proof.Machine

theorem State.makeRoom_keeps {r_ : Prop} {z s : State} (hk : Keeps r_ z s) : Keeps r_ z (State.makeRoom s) := by
  unfold State.makeRoom
  repeat' (first
    | with_reducible assumption
    | intro _
    | with_reducible apply Keeps.ite
    | with_reducible apply State.evictOne_keeps
    | (extract_lets)
    | split)

theorem State.recordRead_keeps {r_ : Prop} {z s : State} (k : Nat) (d : Data) (inbound : Bool) (hk : Keeps r_ z s) : Keeps r_ z
    (State.recordRead s k d inbound) := by
  unfold State.recordRead
  repeat' (first
    | with_reducible assumption
    | intro _
    | with_reducible apply Keeps.ite
    | with_reducible apply QKeeps.snd
    | with_reducible apply State.draw_keepsQ
    | with_reducible apply State.bump_keeps
    | with_reducible apply State.fillBank_keeps
    | with_reducible apply State.freshCtx_keeps
    | with_reducible apply State.makeRoom_keeps
    | with_reducible apply State.resetLoaded_keeps
    | with_reducible apply State.setCtx_keeps
    | (extract_lets)
    | split
    | with_reducible apply QKeeps.pair
    | (with_reducible refine QKeeps.eq (by assumption) ?_))

theorem State.recordBad_keeps {r_ : Prop} {z s : State} (k cause : Nat) (inbound : Bool) (hk : Keeps r_ z s) : Keeps r_ z
    (State.recordBad s k cause inbound) := by
  unfold State.recordBad
  repeat' (first
    | with_reducible assumption
    | intro _
    | with_reducible apply Keeps.ite
    | with_reducible apply Keeps.foldl
    | with_reducible apply PKeeps.foldl
    | with_reducible apply QKeeps.foldl
    | with_reducible apply PKeeps.fst
    | with_reducible apply QKeeps.snd
    | with_reducible apply State.draw_keepsQ
    | with_reducible apply State.finishOp_keeps
    | with_reducible apply State.trnResult_keeps
    | (extract_lets)
    | split
    | with_reducible apply PKeeps.pair
    | with_reducible apply QKeeps.pair
    | (with_reducible refine PKeeps.eq (by assumption) ?_)
    | (with_reducible refine QKeeps.eq (by assumption) ?_)
    | with_reducible apply Keeps.upd)

theorem execContextLoad_keeps {r_ : Prop} {z s : State} (k : Nat) (r : ReadResult) (hk : Keeps r_ z s) : OutKeeps r_ z
    (execContextLoad k r s) := by
  unfold execContextLoad
  repeat' (first
    | with_reducible assumption
    | intro _
    | with_reducible apply OutKeeps.next
    | with_reducible apply State.raise_keeps
    | with_reducible apply State.recordBad_keeps
    | with_reducible apply State.recordRead_keeps
    | with_reducible apply State.settle_keeps
    | (extract_lets)
    | split
    | with_reducible apply Keeps.upd)

theorem execContextEvict_keeps {r_ : Prop} {z s : State} (k : Nat) (hk : Keeps r_ z s) : OutKeeps r_ z (execContextEvict k s) :=
    by
  unfold execContextEvict
  repeat' (first
    | with_reducible assumption
    | intro _
    | with_reducible apply OutKeeps.ite
    | with_reducible apply Keeps.ite
    | with_reducible apply OutKeeps.next
    | with_reducible apply State.spill_keeps
    | (extract_lets)
    | split)

theorem execTransportSend_keeps {r_ : Prop} {z s : State} (i : Nat) (hm : HostView) (hk : Keeps r_ z s) : OutKeeps r_ z
    (execTransportSend i hm s) := by
  unfold execTransportSend
  repeat' (first
    | with_reducible assumption
    | intro _
    | with_reducible apply OutKeeps.ite
    | with_reducible apply Keeps.ite
    | with_reducible apply OutKeeps.next
    | with_reducible apply State.readGet_keeps
    | with_reducible apply State.settle_keeps
    | with_reducible apply State.transportSend_keeps
    | (extract_lets)
    | split)

theorem execTransportRx_keeps {r_ : Prop} {z s : State} (h : Nat) (hk : Keeps r_ z s) : OutKeeps r_ z (execTransportRx h s) := by
  unfold execTransportRx
  repeat' (first
    | with_reducible assumption
    | intro _
    | with_reducible apply OutKeeps.ite
    | with_reducible apply Keeps.ite
    | with_reducible apply OutKeeps.next
    | with_reducible apply State.settle_keeps
    | with_reducible apply State.transportRx_keeps
    | (extract_lets)
    | split)

theorem execAckRx_keeps {r_ : Prop} {z s : State} (h : Nat) (hk : Keeps r_ z s) : OutKeeps r_ z (execAckRx h s) := by
  unfold execAckRx
  repeat' (first
    | with_reducible assumption
    | intro _
    | with_reducible apply OutKeeps.ite
    | with_reducible apply Keeps.ite
    | with_reducible apply OutKeeps.next
    | with_reducible apply State.ackRx_keeps
    | with_reducible apply State.settle_keeps
    | (extract_lets)
    | split)

theorem execAckCoalesceExpiry_keeps {r_ : Prop} {z s : State} (k st : Nat) (hk : Keeps r_ z s) : OutKeeps r_ z
    (execAckCoalesceExpiry k st s) := by
  unfold execAckCoalesceExpiry
  repeat' (first
    | with_reducible assumption
    | intro _
    | with_reducible apply OutKeeps.ite
    | with_reducible apply Keeps.ite
    | with_reducible apply OutKeeps.next
    | with_reducible apply State.sendAck_keeps
    | (extract_lets)
    | split)

theorem execAckRateRelease_keeps {r_ : Prop} {z s : State} (k st : Nat) (hk : Keeps r_ z s) : OutKeeps r_ z (execAckRateRelease k
    st s) := by
  unfold execAckRateRelease
  repeat' (first
    | with_reducible assumption
    | intro _
    | with_reducible apply OutKeeps.ite
    | with_reducible apply Keeps.ite
    | with_reducible apply OutKeeps.next
    | with_reducible apply State.sendAck_keeps
    | (extract_lets)
    | split)

theorem State.rnrRefused_keeps {r_ : Prop} {z s : State} (i : Nat) (o : Op) (hk : Keeps r_ z s) : Keeps r_ z (State.rnrRefused s i
    o) := by
  unfold State.rnrRefused
  repeat' (first
    | with_reducible assumption
    | intro _
    | with_reducible apply Keeps.ite
    | with_reducible apply State.bump_keeps
    | with_reducible apply State.finishOp_keeps
    | with_reducible apply State.setOp_keeps
    | (extract_lets)
    | split)

theorem State.resultFor_keeps {r_ : Prop} {z s : State} (i : Nat) (o : Op) (status detail : Nat) (hk : Keeps r_ z s) : Keeps r_ z
    (State.resultFor s i o status detail) := by
  unfold State.resultFor
  repeat' (first
    | with_reducible assumption
    | intro _
    | with_reducible apply Keeps.ite
    | with_reducible apply State.finishOp_keeps
    | with_reducible apply State.rnrRefused_keeps
    | with_reducible apply State.setOp_keeps
    | (extract_lets)
    | split)

theorem execResultRx_keeps {r_ : Prop} {z s : State} (hk : Keeps r_ z s) : OutKeeps r_ z (execResultRx s) := by
  unfold execResultRx
  repeat' (first
    | with_reducible assumption
    | intro _
    | with_reducible apply OutKeeps.ite
    | with_reducible apply Keeps.ite
    | with_reducible apply OutKeeps.next
    | with_reducible apply State.bump_keeps
    | with_reducible apply State.resultFor_keeps
    | with_reducible apply State.settle_keeps
    | with_reducible apply State.takeArr_keeps
    | (extract_lets)
    | split)

theorem execRetxTimerExpiry_keeps {r_ : Prop} {z s : State} (k st : Nat) (hk : Keeps r_ z s) : OutKeeps r_ z (execRetxTimerExpiry
    k st s) := by
  unfold execRetxTimerExpiry
  repeat' (first
    | with_reducible assumption
    | intro _
    | with_reducible apply OutKeeps.ite
    | with_reducible apply Keeps.ite
    | with_reducible apply Keeps.foldl
    | with_reducible apply PKeeps.foldl
    | with_reducible apply QKeeps.foldl
    | with_reducible apply OutKeeps.next
    | with_reducible apply State.bump_keeps
    | with_reducible apply State.onCtx_keeps
    | with_reducible apply State.retransmit_keeps
    | with_reducible apply State.settle_keeps
    | (extract_lets)
    | split)

theorem execEarlyRetx_keeps {r_ : Prop} {z s : State} (k st : Nat) (hk : Keeps r_ z s) : OutKeeps r_ z (execEarlyRetx k st s) :=
    by
  unfold execEarlyRetx
  repeat' (first
    | with_reducible assumption
    | intro _
    | with_reducible apply OutKeeps.ite
    | with_reducible apply Keeps.ite
    | with_reducible apply OutKeeps.next
    | with_reducible apply State.onCtx_keeps
    | with_reducible apply State.retransmit_keeps
    | with_reducible apply State.settle_keeps
    | (extract_lets)
    | split)

theorem execGenerationRoll_keeps {r_ : Prop} {z s : State} (k : Nat) (hk : Keeps r_ z s) : OutKeeps r_ z (execGenerationRoll k s)
    := by
  unfold execGenerationRoll
  repeat' (first
    | with_reducible assumption
    | intro _
    | with_reducible apply OutKeeps.ite
    | with_reducible apply Keeps.ite
    | with_reducible apply OutKeeps.next
    | with_reducible apply State.bump_keeps
    | with_reducible apply State.ctxError_keeps
    | with_reducible apply State.onCtx_keeps
    | with_reducible apply State.settle_keeps
    | (extract_lets)
    | split)

theorem execCtxErrorExit_keeps {r_ : Prop} {z s : State} (k : Nat) (hk : Keeps r_ z s) : OutKeeps r_ z (execCtxErrorExit k s) :=
    by
  unfold execCtxErrorExit
  repeat' (first
    | with_reducible assumption
    | intro _
    | with_reducible apply OutKeeps.ite
    | with_reducible apply Keeps.ite
    | with_reducible apply OutKeeps.next
    | with_reducible apply State.ctxError_keeps
    | with_reducible apply State.onCtx_keeps
    | with_reducible apply State.settle_keeps
    | (extract_lets)
    | split)

theorem execRnrResend_keeps {r_ : Prop} {z s : State} (i : Nat) (hk : Keeps r_ z s) : OutKeeps r_ z (execRnrResend i s) := by
  unfold execRnrResend
  repeat' (first
    | with_reducible assumption
    | intro _
    | with_reducible apply OutKeeps.ite
    | with_reducible apply Keeps.ite
    | with_reducible apply OutKeeps.next
    | with_reducible apply State.setOp_keeps
    | (extract_lets)
    | split)

theorem execResponseTimeout_keeps {r_ : Prop} {z s : State} (i : Nat) (hk : Keeps r_ z s) : OutKeeps r_ z (execResponseTimeout i
    s) := by
  unfold execResponseTimeout
  repeat' (first
    | with_reducible assumption
    | intro _
    | with_reducible apply OutKeeps.ite
    | with_reducible apply Keeps.ite
    | with_reducible apply OutKeeps.next
    | with_reducible apply State.finishOp_keeps
    | with_reducible apply State.settle_keeps
    | (extract_lets)
    | split)

theorem State.regionEnd_keeps {r_ : Prop} {z s : State} (hp slot detail : Nat) (lose : Bool) (hk : Keeps r_ z s) : Keeps r_ z
    (State.regionEnd s hp slot detail lose) := by
  unfold State.regionEnd
  repeat' (first
    | with_reducible assumption
    | intro _
    | with_reducible apply Keeps.ite
    | with_reducible apply Keeps.foldl
    | with_reducible apply PKeeps.foldl
    | with_reducible apply QKeeps.foldl
    | with_reducible apply PKeeps.fst
    | with_reducible apply QKeeps.snd
    | with_reducible apply State.draw_keepsQ
    | with_reducible apply State.finishOp_keeps
    | with_reducible apply State.spill_keeps
    | with_reducible apply State.trnResult_keeps
    | (extract_lets)
    | split
    | with_reducible apply PKeeps.pair
    | with_reducible apply QKeeps.pair
    | (with_reducible refine PKeeps.eq (by assumption) ?_)
    | (with_reducible refine QKeeps.eq (by assumption) ?_)
    | with_reducible apply Keeps.upd)

theorem State.regionFlush_keeps {r_ : Prop} {z s : State} (r : Nat) (hk : Keeps r_ z s) : Keeps r_ z (State.regionFlush s r) := by
  unfold State.regionFlush
  repeat' (first
    | with_reducible assumption
    | intro _
    | with_reducible apply Keeps.foldl
    | with_reducible apply PKeeps.foldl
    | with_reducible apply QKeeps.foldl
    | with_reducible apply PKeeps.fst
    | with_reducible apply QKeeps.snd
    | with_reducible apply State.draw_keepsQ
    | with_reducible apply State.spill_keeps
    | (extract_lets)
    | split
    | with_reducible apply PKeeps.pair
    | with_reducible apply QKeeps.pair
    | (with_reducible refine PKeeps.eq (by assumption) ?_)
    | (with_reducible refine QKeeps.eq (by assumption) ?_))

theorem State.trnRun_keeps {r_ : Prop} {z s : State} (req : Requester) (op : Nat) (hk : Keeps r_ z s) : PKeeps r_ z (State.trnRun
    s req op) := by
  unfold State.trnRun
  repeat' (first
    | with_reducible assumption
    | intro _
    | with_reducible apply PKeeps.ite
    | with_reducible apply Keeps.ite
    | with_reducible apply PKeeps.fst
    | with_reducible apply State.ctxError_keeps
    | with_reducible apply State.needCtx_keeps
    | with_reducible apply State.regionEnd_keeps
    | with_reducible apply State.regionFlush_keeps
    | with_reducible apply State.tableWrite_keeps
    | (extract_lets)
    | split
    | with_reducible apply PKeeps.pair
    | (with_reducible refine PKeeps.eq (by assumption) ?_)
    | with_reducible apply Keeps.upd)

theorem State.trnCmd_keeps {r_ : Prop} {z s : State} (req : Requester) (v : Nat) (hk : Keeps r_ z s) : Keeps r_ z (State.trnCmd s
    req v) := by
  unfold State.trnCmd
  repeat' (first
    | with_reducible assumption
    | intro _
    | with_reducible apply Keeps.ite
    | with_reducible apply PKeeps.fst
    | with_reducible apply State.badAccess_keeps
    | with_reducible apply State.put_keeps
    | with_reducible apply State.result_keeps
    | with_reducible apply State.settle_keeps
    | with_reducible apply State.trnRun_keeps
    | (extract_lets)
    | split
    | with_reducible apply PKeeps.pair
    | (with_reducible refine PKeeps.eq (by assumption) ?_))

end Sys2Proof.Machine
end

