-- ==== Sys2Proof/Laws/KeepsMchCmd.lean ====
section
/-! SUPPORT. Laws/Keeps.lean, for the operations of Machine/MchCmd.lean. -/
namespace Sys2Proof.Machine

theorem State.sendEager_keeps {r_ : Prop} {z s : State} (q : Nat) (v : Sq) (e : Ent) (p : Ep) (msn : Nat) (hk : Keeps r_ z s) :
    Keeps r_ z (State.sendEager s q v e p msn) := by
  unfold State.sendEager
  repeat' (first
    | with_reducible assumption
    | intro _
    | with_reducible apply State.newOp_keeps
    | with_reducible apply State.runEntry_keeps
    | (extract_lets)
    | split)

theorem State.sendRts_keeps {r_ : Prop} {z s : State} (q : Nat) (v : Sq) (e : Ent) (p : Ep) (msn i : Nat) (hk : Keeps r_ z s) :
    Keeps r_ z (State.sendRts s q v e p msn i) := by
  unfold State.sendRts
  repeat' (first
    | with_reducible assumption
    | intro _
    | with_reducible apply State.newOp_keeps
    | with_reducible apply State.onMch_keeps
    | with_reducible apply State.runEntry_keeps
    | (extract_lets)
    | split)

theorem State.msgSend_keeps {r_ : Prop} {z s : State} (q : Nat) (v : Sq) (e : Ent) (p : Ep) (r : OrderRec) (hk : Keeps r_ z s) :
    Keeps r_ z (State.msgSend s q v e p r) := by
  unfold State.msgSend
  repeat' (first
    | with_reducible assumption
    | intro _
    | with_reducible apply Keeps.ite
    | with_reducible apply QKeeps.snd
    | with_reducible apply State.draw_keepsQ
    | with_reducible apply State.pick_keeps
    | with_reducible apply State.sendEager_keeps
    | with_reducible apply State.sendRts_keeps
    | with_reducible apply State.setMsn_keeps
    | (extract_lets)
    | split
    | with_reducible apply QKeeps.pair
    | (with_reducible refine QKeeps.eq (by assumption) ?_))

theorem execMsgSend_keeps {r_ : Prop} {z s : State} (q : Nat) (hk : Keeps r_ z s) : OutKeeps r_ z (execMsgSend q s) := by
  unfold execMsgSend
  repeat' (first
    | with_reducible assumption
    | intro _
    | with_reducible apply OutKeeps.ite
    | with_reducible apply Keeps.ite
    | with_reducible apply PKeeps.fst
    | with_reducible apply OutKeeps.next
    | with_reducible apply State.finishEntry_keeps
    | with_reducible apply State.msgSend_keeps
    | with_reducible apply State.needOrder_keeps
    | with_reducible apply State.settle_keeps
    | (extract_lets)
    | split
    | with_reducible apply PKeeps.pair
    | (with_reducible refine PKeeps.eq (by assumption) ?_))

theorem State.postRecv_keeps {r_ : Prop} {z s : State} (ep : Nat) (p : Posted) (hk : Keeps r_ z s) : OptKeeps r_ z (State.postRecv
    s ep p) := by
  unfold State.postRecv
  repeat' (first
    | with_reducible assumption
    | intro _
    | with_reducible apply OptKeeps.ite
    | with_reducible apply Keeps.ite
    | with_reducible exact OptKeeps.none _
    | with_reducible apply OptKeeps.some
    | with_reducible apply State.setPosted_keeps
    | with_reducible apply State.toOverflow_keeps
    | (extract_lets)
    | split
    | (with_reducible refine OptKeeps.eq (by assumption) ?_))

theorem execMsgPost_keeps {r_ : Prop} {z s : State} (q : Nat) (hk : Keeps r_ z s) : OutKeeps r_ z (execMsgPost q s) := by
  unfold execMsgPost
  repeat' (first
    | with_reducible assumption
    | intro _
    | with_reducible apply OutKeeps.ite
    | with_reducible apply Keeps.ite
    | with_reducible exact OptKeeps.none _
    | with_reducible apply OptKeeps.some
    | with_reducible apply OutKeeps.next
    | with_reducible apply State.finishEntry_keeps
    | with_reducible apply State.pair_keeps
    | with_reducible apply State.postRecv_keeps
    | with_reducible apply State.settle_keeps
    | (extract_lets)
    | split
    | (with_reducible refine OptKeeps.eq (by assumption) ?_))

theorem State.cancelled_keeps {r_ : Prop} {z s : State} (q : Nat) (v : Sq) (e : Ent) (p : Posted) (hk : Keeps r_ z s) : Keeps r_ z
    (State.cancelled s q v e p) := by
  unfold State.cancelled
  repeat' (first
    | with_reducible assumption
    | intro _
    | with_reducible apply Keeps.ite
    | with_reducible apply State.cancelPosted_keeps
    | with_reducible apply State.finishEntry_keeps
    | with_reducible apply State.onMch_keeps
    | with_reducible apply State.runEntry_keeps
    | (extract_lets)
    | split)

theorem execMsgCancel_keeps {r_ : Prop} {z s : State} (q : Nat) (hk : Keeps r_ z s) : OutKeeps r_ z (execMsgCancel q s) := by
  unfold execMsgCancel
  repeat' (first
    | with_reducible assumption
    | intro _
    | with_reducible apply OutKeeps.ite
    | with_reducible apply Keeps.ite
    | with_reducible apply PKeeps.fst
    | with_reducible apply QKeeps.snd
    | with_reducible apply State.draw_keepsQ
    | with_reducible apply OutKeeps.next
    | with_reducible apply State.cancelled_keeps
    | with_reducible apply State.draw_keeps
    | with_reducible apply State.finishEntry_keeps
    | with_reducible apply State.search_keeps
    | with_reducible apply State.unpost_keeps
    | (extract_lets)
    | split
    | with_reducible apply PKeeps.pair
    | with_reducible apply QKeeps.pair
    | (with_reducible refine PKeeps.eq (by assumption) ?_)
    | (with_reducible refine QKeeps.eq (by assumption) ?_))

theorem execMsgProbe_keeps {r_ : Prop} {z s : State} (q : Nat) (hk : Keeps r_ z s) : OutKeeps r_ z (execMsgProbe q s) := by
  unfold execMsgProbe
  repeat' (first
    | with_reducible assumption
    | intro _
    | with_reducible apply OutKeeps.ite
    | with_reducible apply Keeps.ite
    | with_reducible apply QKeeps.snd
    | with_reducible apply State.draw_keepsQ
    | with_reducible apply OutKeeps.next
    | with_reducible apply State.draw_keeps
    | with_reducible apply State.finishEntry_keeps
    | with_reducible apply State.setHdr_keeps
    | (extract_lets)
    | split
    | with_reducible apply QKeeps.pair
    | (with_reducible refine QKeeps.eq (by assumption) ?_))

theorem execMsgMrecv_keeps {r_ : Prop} {z s : State} (q : Nat) (hk : Keeps r_ z s) : OutKeeps r_ z (execMsgMrecv q s) := by
  unfold execMsgMrecv
  repeat' (first
    | with_reducible assumption
    | intro _
    | with_reducible apply OutKeeps.ite
    | with_reducible apply Keeps.ite
    | with_reducible apply OutKeeps.next
    | with_reducible apply State.finishEntry_keeps
    | with_reducible apply State.malformed_keeps
    | with_reducible apply State.pair_keeps
    | with_reducible apply State.settle_keeps
    | (extract_lets)
    | split)

theorem execMsgPostLb_keeps {r_ : Prop} {z s : State} (q : Nat) (hk : Keeps r_ z s) : OutKeeps r_ z (execMsgPostLb q s) := by
  unfold execMsgPostLb
  repeat' (first
    | with_reducible assumption
    | intro _
    | with_reducible apply OutKeeps.ite
    | with_reducible apply Keeps.ite
    | with_reducible apply OutKeeps.next
    | with_reducible apply State.finishEntry_keeps
    | with_reducible apply State.onMch_keeps
    | (extract_lets)
    | split)

theorem execEagerRx_keeps {r_ : Prop} {z s : State} (hk : Keeps r_ z s) : OutKeeps r_ z (execEagerRx s) := by
  unfold execEagerRx
  repeat' (first
    | with_reducible assumption
    | intro _
    | with_reducible apply OutKeeps.next
    | with_reducible apply State.onMsg_keeps
    | with_reducible apply State.settle_keeps
    | (extract_lets)
    | split)

theorem execRtsRx_keeps {r_ : Prop} {z s : State} (hk : Keeps r_ z s) : OutKeeps r_ z (execRtsRx s) := by
  unfold execRtsRx
  repeat' (first
    | with_reducible assumption
    | intro _
    | with_reducible apply OutKeeps.next
    | with_reducible apply State.onMsg_keeps
    | with_reducible apply State.settle_keeps
    | (extract_lets)
    | split)

theorem State.onRvGet_keeps {r_ : Prop} {z s : State} (a : Arr) (hk : Keeps r_ z s) : Keeps r_ z (State.onRvGet s a) := by
  unfold State.onRvGet
  repeat' (first
    | with_reducible assumption
    | intro _
    | with_reducible apply Keeps.ite
    | with_reducible apply State.abandon_keeps
    | with_reducible apply State.newOp_keeps
    | with_reducible apply State.onMch_keeps
    | with_reducible apply State.result_keeps
    | with_reducible apply State.rvFail_keeps
    | with_reducible apply State.takeArr_keeps
    | (extract_lets)
    | split)

theorem execRvGetRx_keeps {r_ : Prop} {z s : State} (hk : Keeps r_ z s) : OutKeeps r_ z (execRvGetRx s) := by
  unfold execRvGetRx
  repeat' (first
    | with_reducible assumption
    | intro _
    | with_reducible apply OutKeeps.next
    | with_reducible apply State.onRvGet_keeps
    | with_reducible apply State.settle_keeps
    | (extract_lets)
    | split)

theorem State.rvGot_keeps {r_ : Prop} {z s : State} (i gen : Nat) (hk : Keeps r_ z s) : Keeps r_ z (State.rvGot s i gen) := by
  unfold State.rvGot
  repeat' (first
    | with_reducible assumption
    | intro _
    | with_reducible apply Keeps.ite
    | with_reducible apply State.setOp_keeps
    | (extract_lets)
    | split)

theorem State.onRvData_keeps {r_ : Prop} {z s : State} (a : Arr) (hk : Keeps r_ z s) : Keeps r_ z (State.onRvData s a) := by
  unfold State.onRvData
  repeat' (first
    | with_reducible assumption
    | intro _
    | with_reducible apply Keeps.ite
    | with_reducible apply PKeeps.fst
    | with_reducible apply State.payload_keeps
    | with_reducible apply State.placeMsg_keeps
    | with_reducible apply State.rvGot_keeps
    | with_reducible apply State.takeArr_keeps
    | (extract_lets)
    | split
    | with_reducible apply PKeeps.pair
    | (with_reducible refine PKeeps.eq (by assumption) ?_))

theorem execRvDataRx_keeps {r_ : Prop} {z s : State} (hk : Keeps r_ z s) : OutKeeps r_ z (execRvDataRx s) := by
  unfold execRvDataRx
  repeat' (first
    | with_reducible assumption
    | intro _
    | with_reducible apply OutKeeps.next
    | with_reducible apply State.onRvData_keeps
    | with_reducible apply State.settle_keeps
    | (extract_lets)
    | split)

theorem execSkipRx_keeps {r_ : Prop} {z s : State} (hk : Keeps r_ z s) : OutKeeps r_ z (execSkipRx s) := by
  unfold execSkipRx
  repeat' (first
    | with_reducible assumption
    | intro _
    | with_reducible apply OutKeeps.next
    | with_reducible apply State.onSkip_keeps
    | with_reducible apply State.settle_keeps
    | (extract_lets)
    | split)

theorem execSkipSend_keeps {r_ : Prop} {z s : State} (hk : Keeps r_ z s) : OutKeeps r_ z (execSkipSend s) := by
  unfold execSkipSend
  repeat' (first
    | with_reducible assumption
    | intro _
    | with_reducible apply OutKeeps.ite
    | with_reducible apply Keeps.ite
    | with_reducible apply PKeeps.fst
    | with_reducible apply OutKeeps.next
    | with_reducible apply State.needCtx_keeps
    | with_reducible apply State.newOp_keeps
    | with_reducible apply State.onMch_keeps
    | (extract_lets)
    | split
    | with_reducible apply PKeeps.pair
    | (with_reducible refine PKeeps.eq (by assumption) ?_))

theorem execOverflowRefill_keeps {r_ : Prop} {z s : State} (ep : Nat) (hm : HostView) (hk : Keeps r_ z s) : OutKeeps r_ z
    (execOverflowRefill ep hm s) := by
  unfold execOverflowRefill
  repeat' (first
    | with_reducible assumption
    | intro _
    | with_reducible apply OutKeeps.ite
    | with_reducible apply Keeps.ite
    | with_reducible apply OutKeeps.next
    | with_reducible apply State.bump_keeps
    | with_reducible apply State.dropOver_keeps
    | with_reducible apply State.hostRead_keeps
    | with_reducible apply State.raise_keeps
    | with_reducible apply State.setPosted_keeps
    | (extract_lets)
    | split)

theorem execRvWaitTimeout_keeps {r_ : Prop} {z s : State} (i : Nat) (hk : Keeps r_ z s) : OutKeeps r_ z (execRvWaitTimeout i s) :=
    by
  unfold execRvWaitTimeout
  repeat' (first
    | with_reducible assumption
    | intro _
    | with_reducible apply OutKeeps.ite
    | with_reducible apply Keeps.ite
    | with_reducible apply OutKeeps.next
    | with_reducible apply State.rvFail_keeps
    | (extract_lets)
    | split)

theorem execOrderRecordReadReturn_keeps {r_ : Prop} {z s : State} (i : Nat) (r : ReadResult) (hk : Keeps r_ z s) : OutKeeps r_ z
    (execOrderRecordReadReturn i r s) := by
  unfold execOrderRecordReadReturn
  repeat' (first
    | with_reducible assumption
    | intro _
    | with_reducible apply OutKeeps.next
    | with_reducible apply State.orderReturn_keeps
    | with_reducible apply State.settle_keeps
    | (extract_lets)
    | split)

theorem execOverflowRecordReadReturn_keeps {r_ : Prop} {z s : State} (i : Nat) (r : ReadResult) (hk : Keeps r_ z s) : OutKeeps r_
    z (execOverflowRecordReadReturn i r s) := by
  unfold execOverflowRecordReadReturn
  repeat' (first
    | with_reducible assumption
    | intro _
    | with_reducible apply OutKeeps.next
    | with_reducible apply State.overflowReturn_keeps
    | with_reducible apply State.settle_keeps
    | (extract_lets)
    | split)

end Sys2Proof.Machine
end

