-- ==== Sys2Proof/Laws/KeepsRmaCmd.lean ====
section
/-! SUPPORT. Laws/Keeps.lean, for the operations of Machine/RmaCmd.lean. -/
namespace Sys2Proof.Machine

theorem State.startPut_keeps {r_ : Prop} {z s : State} (q : Nat) (v : Sq) (e : Ent) (p : Ep) (hk : Keeps r_ z s) : Keeps r_ z
    (State.startPut s q v e p) := by
  unfold State.startPut
  repeat' (first
    | with_reducible assumption
    | intro _
    | with_reducible apply State.newOp_keeps
    | with_reducible apply State.runEntry_keeps
    | (extract_lets)
    | split)

theorem execRmaPut_keeps {r_ : Prop} {z s : State} (q : Nat) (hk : Keeps r_ z s) : OutKeeps r_ z (execRmaPut q s) := by
  unfold execRmaPut
  repeat' (first
    | with_reducible assumption
    | intro _
    | with_reducible apply OutKeeps.next
    | with_reducible apply State.startPut_keeps
    | (extract_lets)
    | split)

theorem execRmaPutNotify_keeps {r_ : Prop} {z s : State} (q : Nat) (hk : Keeps r_ z s) : OutKeeps r_ z (execRmaPutNotify q s) :=
    by
  unfold execRmaPutNotify
  repeat' (first
    | with_reducible assumption
    | intro _
    | with_reducible apply OutKeeps.next
    | with_reducible apply State.startPut_keeps
    | (extract_lets)
    | split)

theorem execRmaGet_keeps {r_ : Prop} {z s : State} (q : Nat) (hk : Keeps r_ z s) : OutKeeps r_ z (execRmaGet q s) := by
  unfold execRmaGet
  repeat' (first
    | with_reducible assumption
    | intro _
    | with_reducible apply OutKeeps.next
    | with_reducible apply State.newOp_keeps
    | with_reducible apply State.runEntry_keeps
    | (extract_lets)
    | split)

theorem execRmaAtomic_keeps {r_ : Prop} {z s : State} (q : Nat) (hk : Keeps r_ z s) : OutKeeps r_ z (execRmaAtomic q s) := by
  unfold execRmaAtomic
  repeat' (first
    | with_reducible assumption
    | intro _
    | with_reducible apply OutKeeps.ite
    | with_reducible apply Keeps.ite
    | with_reducible apply OutKeeps.next
    | with_reducible apply State.newOp_keeps
    | with_reducible apply State.runEntry_keeps
    | (extract_lets)
    | split)

theorem State.keyReg_keeps {r_ : Prop} {z s : State} (q : Nat) (e : Ent) (d : Desc) (hk : Keeps r_ z s) : Keeps r_ z (State.keyReg
    s q e d) := by
  unfold State.keyReg
  repeat' (first
    | with_reducible assumption
    | intro _
    | with_reducible apply Keeps.ite
    | with_reducible apply State.finishEntry_keeps
    | with_reducible apply State.hostWrite_keeps
    | with_reducible apply State.revoked_keeps
    | with_reducible apply State.setKey_keeps
    | with_reducible apply State.setRaw_keeps
    | (extract_lets)
    | split)

theorem execKeyReg_keeps {r_ : Prop} {z s : State} (q : Nat) (hk : Keeps r_ z s) : OutKeeps r_ z (execKeyReg q s) := by
  unfold execKeyReg
  repeat' (first
    | with_reducible assumption
    | intro _
    | with_reducible apply OutKeeps.ite
    | with_reducible apply Keeps.ite
    | with_reducible apply PKeeps.fst
    | with_reducible apply OutKeeps.next
    | with_reducible apply State.finishEntry_keeps
    | with_reducible apply State.keyReg_keeps
    | with_reducible apply State.needDesc_keeps
    | (extract_lets)
    | split
    | with_reducible apply PKeeps.pair
    | (with_reducible refine PKeeps.eq (by assumption) ?_))

theorem State.keyRevoke_keeps {r_ : Prop} {z s : State} (q : Nat) (e : Ent) (d : Desc) (hk : Keeps r_ z s) : Keeps r_ z
    (State.keyRevoke s q e d) := by
  unfold State.keyRevoke
  repeat' (first
    | with_reducible assumption
    | intro _
    | with_reducible apply Keeps.ite
    | with_reducible apply State.finishEntry_keeps
    | with_reducible apply State.runEntry_keeps
    | with_reducible apply State.startRevoke_keeps
    | (extract_lets)
    | split)

theorem execKeyRevoke_keeps {r_ : Prop} {z s : State} (q : Nat) (hk : Keeps r_ z s) : OutKeeps r_ z (execKeyRevoke q s) := by
  unfold execKeyRevoke
  repeat' (first
    | with_reducible assumption
    | intro _
    | with_reducible apply OutKeeps.ite
    | with_reducible apply Keeps.ite
    | with_reducible apply PKeeps.fst
    | with_reducible apply OutKeeps.next
    | with_reducible apply State.finishEntry_keeps
    | with_reducible apply State.keyRevoke_keeps
    | with_reducible apply State.needDesc_keeps
    | (extract_lets)
    | split
    | with_reducible apply PKeeps.pair
    | (with_reducible refine PKeeps.eq (by assumption) ?_))

theorem execKeyRevokeComplete_keeps {r_ : Prop} {z s : State} (i : Nat) (hk : Keeps r_ z s) : OutKeeps r_ z (execKeyRevokeComplete
    i s) := by
  unfold execKeyRevokeComplete
  repeat' (first
    | with_reducible assumption
    | intro _
    | with_reducible apply OutKeeps.next
    | with_reducible apply State.endRevoke_keeps
    | with_reducible apply State.endTables_keeps
    | (extract_lets)
    | split)

theorem execKeyQuarantineEnd_keeps {r_ : Prop} {z s : State} (i : Nat) (hk : Keeps r_ z s) : OutKeeps r_ z (execKeyQuarantineEnd i
    s) := by
  unfold execKeyQuarantineEnd
  repeat' (first
    | with_reducible assumption
    | intro _
    | with_reducible apply OutKeeps.ite
    | with_reducible apply Keeps.ite
    | with_reducible apply OutKeeps.next
    | with_reducible apply State.revoked_keeps
    | with_reducible apply State.setKey_keeps
    | (extract_lets)
    | split)

theorem execKeyInv_keeps {r_ : Prop} {z s : State} (q : Nat) (hk : Keeps r_ z s) : OutKeeps r_ z (execKeyInv q s) := by
  unfold execKeyInv
  repeat' (first
    | with_reducible assumption
    | intro _
    | with_reducible apply OutKeeps.ite
    | with_reducible apply Keeps.ite
    | with_reducible apply OutKeeps.next
    | with_reducible apply State.onRma_keeps
    | with_reducible apply State.runEntry_keeps
    | (extract_lets)
    | split)

theorem execKeyInvComplete_keeps {r_ : Prop} {z s : State} (q : Nat) (hk : Keeps r_ z s) : OutKeeps r_ z (execKeyInvComplete q s)
    := by
  unfold execKeyInvComplete
  repeat' (first
    | with_reducible assumption
    | intro _
    | with_reducible apply OutKeeps.ite
    | with_reducible apply Keeps.ite
    | with_reducible apply OutKeeps.next
    | with_reducible apply State.finishEntry_keeps
    | with_reducible apply State.onRma_keeps
    | (extract_lets)
    | split)

theorem execPutRx_keeps {r_ : Prop} {z s : State} (hk : Keeps r_ z s) : OutKeeps r_ z (execPutRx s) := by
  unfold execPutRx
  repeat' (first
    | with_reducible assumption
    | intro _
    | with_reducible apply OutKeeps.next
    | with_reducible apply State.onPut_keeps
    | with_reducible apply State.settle_keeps
    | (extract_lets)
    | split)

theorem execGetRx_keeps {r_ : Prop} {z s : State} (hk : Keeps r_ z s) : OutKeeps r_ z (execGetRx s) := by
  unfold execGetRx
  repeat' (first
    | with_reducible assumption
    | intro _
    | with_reducible apply OutKeeps.next
    | with_reducible apply State.onGet_keeps
    | with_reducible apply State.settle_keeps
    | (extract_lets)
    | split)

theorem execAtomicRx_keeps {r_ : Prop} {z s : State} (hk : Keeps r_ z s) : OutKeeps r_ z (execAtomicRx s) := by
  unfold execAtomicRx
  repeat' (first
    | with_reducible assumption
    | intro _
    | with_reducible apply OutKeeps.next
    | with_reducible apply State.onAtomic_keeps
    | with_reducible apply State.settle_keeps
    | (extract_lets)
    | split)

theorem execAtomicExecute_keeps {r_ : Prop} {z s : State} (id : Nat) (hk : Keeps r_ z s) : OutKeeps r_ z (execAtomicExecute id s)
    := by
  unfold execAtomicExecute
  repeat' (first
    | with_reducible assumption
    | intro _
    | with_reducible apply OutKeeps.next
    | with_reducible apply State.atomicExecute_keeps
    | with_reducible apply State.settle_keeps
    | (extract_lets)
    | split)

theorem execAtomicopCompletion_keeps {r_ : Prop} {z s : State} (id : Nat) (r : ReadResult) (hk : Keeps r_ z s) : OutKeeps r_ z
    (execAtomicopCompletion id r s) := by
  unfold execAtomicopCompletion
  repeat' (first
    | with_reducible assumption
    | intro _
    | with_reducible apply OutKeeps.next
    | with_reducible apply State.atomicCompletion_keeps
    | with_reducible apply State.settle_keeps
    | (extract_lets)
    | split)

theorem execGetDataRx_keeps {r_ : Prop} {z s : State} (hk : Keeps r_ z s) : OutKeeps r_ z (execGetDataRx s) := by
  unfold execGetDataRx
  repeat' (first
    | with_reducible assumption
    | intro _
    | with_reducible apply OutKeeps.next
    | with_reducible apply State.onGetData_keeps
    | with_reducible apply State.settle_keeps
    | (extract_lets)
    | split)

theorem execAtomicDataRx_keeps {r_ : Prop} {z s : State} (hk : Keeps r_ z s) : OutKeeps r_ z (execAtomicDataRx s) := by
  unfold execAtomicDataRx
  repeat' (first
    | with_reducible assumption
    | intro _
    | with_reducible apply OutKeeps.next
    | with_reducible apply State.onAtomicData_keeps
    | with_reducible apply State.settle_keeps
    | (extract_lets)
    | split)

theorem execKeyDescriptorReadReturn_keeps {r_ : Prop} {z s : State} (n : Nat) (r : ReadResult) (hk : Keeps r_ z s) : OutKeeps r_ z
    (execKeyDescriptorReadReturn n r s) := by
  unfold execKeyDescriptorReadReturn
  repeat' (first
    | with_reducible assumption
    | intro _
    | with_reducible apply OutKeeps.next
    | with_reducible apply State.descReturn_keeps
    | with_reducible apply State.settle_keeps
    | (extract_lets)
    | split)

theorem execTargetDataReadReturn_keeps {r_ : Prop} {z s : State} (n : Nat) (r : ReadResult) (hk : Keeps r_ z s) : OutKeeps r_ z
    (execTargetDataReadReturn n r s) := by
  unfold execTargetDataReadReturn
  repeat' (first
    | with_reducible assumption
    | intro _
    | with_reducible apply OutKeeps.next
    | with_reducible apply State.dataReturn_keeps
    | with_reducible apply State.settle_keeps
    | (extract_lets)
    | split)

end Sys2Proof.Machine
end

