-- ==== Sys2Proof/Laws/KeepsLckCmd.lean ====
section
/-! SUPPORT. Laws/Keeps.lean, for the operations of Machine/LckCmd.lean. -/
namespace Sys2Proof.Machine

theorem execFlAcquire_keeps {r_ : Prop} {z s : State} (via : FlVia) (hk : Keeps r_ z s) : OutKeeps r_ z (execFlAcquire via s) :=
    by
  unfold execFlAcquire
  repeat' (first
    | with_reducible assumption
    | intro _
    | with_reducible apply OutKeeps.next
    | with_reducible apply State.flAcquire_keeps
    | with_reducible apply State.flStart_keeps
    | with_reducible apply State.settle_keeps
    | (extract_lets)
    | split)

theorem execFlRelease_keeps {r_ : Prop} {z s : State} (via : FlVia) (hk : Keeps r_ z s) : OutKeeps r_ z (execFlRelease via s) :=
    by
  unfold execFlRelease
  repeat' (first
    | with_reducible assumption
    | intro _
    | with_reducible apply OutKeeps.next
    | with_reducible apply State.flOnHeld_keeps
    | with_reducible apply State.flStart_keeps
    | with_reducible apply State.settle_keeps
    | (extract_lets)
    | split)

theorem execFlRenew_keeps {r_ : Prop} {z s : State} (via : FlVia) (hk : Keeps r_ z s) : OutKeeps r_ z (execFlRenew via s) := by
  unfold execFlRenew
  repeat' (first
    | with_reducible assumption
    | intro _
    | with_reducible apply OutKeeps.next
    | with_reducible apply State.flOnHeld_keeps
    | with_reducible apply State.flStart_keeps
    | with_reducible apply State.settle_keeps
    | (extract_lets)
    | split)

theorem execFlBreak_keeps {r_ : Prop} {z s : State} (via : FlVia) (hk : Keeps r_ z s) : OutKeeps r_ z (execFlBreak via s) := by
  unfold execFlBreak
  repeat' (first
    | with_reducible assumption
    | intro _
    | with_reducible apply OutKeeps.next
    | with_reducible apply State.flBreak_keeps
    | with_reducible apply State.flStart_keeps
    | with_reducible apply State.settle_keeps
    | (extract_lets)
    | split)

theorem execFlPollSend_keeps {r_ : Prop} {z s : State} (i : Nat) (hk : Keeps r_ z s) : OutKeeps r_ z (execFlPollSend i s) := by
  unfold execFlPollSend
  repeat' (first
    | with_reducible assumption
    | intro _
    | with_reducible apply OutKeeps.next
    | with_reducible apply State.flPollSend_keeps
    | (extract_lets)
    | split)

theorem State.flRx_keeps {r_ : Prop} {z s : State} (op : Nat) (hm : HostView) (hk : Keeps r_ z s) : Keeps r_ z (State.flRx s op
    hm) := by
  unfold State.flRx
  repeat' (first
    | with_reducible assumption
    | intro _
    | with_reducible apply State.onFl_keeps
    | with_reducible apply State.settle_keeps
    | (extract_lets)
    | split)

theorem execFlTakeRx_keeps {r_ : Prop} {z s : State} (hm : HostView) (hk : Keeps r_ z s) : OutKeeps r_ z (execFlTakeRx hm s) := by
  unfold execFlTakeRx
  repeat' (first
    | with_reducible assumption
    | intro _
    | with_reducible apply OutKeeps.next
    | with_reducible apply State.flRx_keeps
    | (extract_lets)
    | split)

theorem execFlPollRx_keeps {r_ : Prop} {z s : State} (hm : HostView) (hk : Keeps r_ z s) : OutKeeps r_ z (execFlPollRx hm s) := by
  unfold execFlPollRx
  repeat' (first
    | with_reducible assumption
    | intro _
    | with_reducible apply OutKeeps.next
    | with_reducible apply State.flRx_keeps
    | (extract_lets)
    | split)

theorem execFlReleaseRx_keeps {r_ : Prop} {z s : State} (hm : HostView) (hk : Keeps r_ z s) : OutKeeps r_ z (execFlReleaseRx hm s)
    := by
  unfold execFlReleaseRx
  repeat' (first
    | with_reducible assumption
    | intro _
    | with_reducible apply OutKeeps.next
    | with_reducible apply State.flRx_keeps
    | (extract_lets)
    | split)

theorem execFlRenewRx_keeps {r_ : Prop} {z s : State} (hm : HostView) (hk : Keeps r_ z s) : OutKeeps r_ z (execFlRenewRx hm s) :=
    by
  unfold execFlRenewRx
  repeat' (first
    | with_reducible assumption
    | intro _
    | with_reducible apply OutKeeps.next
    | with_reducible apply State.flRx_keeps
    | (extract_lets)
    | split)

theorem execFlBreakRx_keeps {r_ : Prop} {z s : State} (hm : HostView) (hk : Keeps r_ z s) : OutKeeps r_ z (execFlBreakRx hm s) :=
    by
  unfold execFlBreakRx
  repeat' (first
    | with_reducible assumption
    | intro _
    | with_reducible apply OutKeeps.next
    | with_reducible apply State.flRx_keeps
    | (extract_lets)
    | split)

theorem execFlReleaseAbandonedRx_keeps {r_ : Prop} {z s : State} (hm : HostView) (hk : Keeps r_ z s) : OutKeeps r_ z
    (execFlReleaseAbandonedRx hm s) := by
  unfold execFlReleaseAbandonedRx
  repeat' (first
    | with_reducible assumption
    | intro _
    | with_reducible apply OutKeeps.next
    | with_reducible apply State.flRx_keeps
    | (extract_lets)
    | split)

theorem execFlReplyRx_keeps {r_ : Prop} {z s : State} (hk : Keeps r_ z s) : OutKeeps r_ z (execFlReplyRx s) := by
  unfold execFlReplyRx
  repeat' (first
    | with_reducible assumption
    | intro _
    | with_reducible apply OutKeeps.next
    | with_reducible apply State.onFlReply_keeps
    | with_reducible apply State.settle_keeps
    | (extract_lets)
    | split)

end Sys2Proof.Machine
end

