-- ==== Sys2Proof/Laws/KeepsBst.lean ====
section
/-! SUPPORT. Laws/Keeps.lean, for the operations of Machine/Bst.lean. -/
namespace Sys2Proof.Machine

theorem State.sliceBegin_keeps {r_ : Prop} {z s : State} (cls unit : Nat) (byRun : Bool) (hk : Keeps r_ z s) : Keeps r_ z
    (State.sliceBegin s cls unit byRun) := by
  unfold State.sliceBegin
  repeat' (first
    | with_reducible assumption
    | intro _
    | with_reducible apply Keeps.ite
    | with_reducible apply State.bankPool_keeps
    | with_reducible apply State.put_keeps
    | (extract_lets)
    | split
    | with_reducible apply Keeps.upd)

theorem execSliceStart_keeps {r_ : Prop} {z s : State} (hk : Keeps r_ z s) : OutKeeps r_ z (execSliceStart s) := by
  unfold execSliceStart
  repeat' (first
    | with_reducible assumption
    | intro _
    | with_reducible apply OutKeeps.ite
    | with_reducible apply Keeps.ite
    | with_reducible apply OutKeeps.next
    | with_reducible apply State.sliceBegin_keeps
    | (extract_lets)
    | split
    | with_reducible apply Keeps.upd)

theorem State.bankInvalid_keeps {r_ : Prop} {z s : State} (unit : Nat) (hk : Keeps r_ z s) : Keeps r_ z (State.bankInvalid s unit)
    := by
  unfold State.bankInvalid
  repeat' (first
    | with_reducible assumption
    | intro _
    | with_reducible apply Keeps.ite
    | with_reducible apply State.onMch_keeps
    | with_reducible apply State.onRma_keeps
    | with_reducible apply State.setXu_keeps
    | (extract_lets)
    | split
    | with_reducible apply Keeps.upd)

theorem State.clearCounts_keeps {r_ : Prop} {z s : State} (srcs : List Nat) (hk : Keeps r_ z s) : Keeps r_ z (State.clearCounts s
    srcs) := by
  unfold State.clearCounts
  repeat' (first
    | with_reducible assumption
    | intro _
    | with_reducible apply Keeps.foldl
    | with_reducible apply PKeeps.foldl
    | with_reducible apply QKeeps.foldl
    | with_reducible apply State.setSrc_keeps
    | (extract_lets)
    | split)

theorem execUnitReady_keeps {r_ : Prop} {z s : State} (hk : Keeps r_ z s) : OutKeeps r_ z (execUnitReady s) := by
  unfold execUnitReady
  repeat' (first
    | with_reducible assumption
    | intro _
    | with_reducible apply OutKeeps.ite
    | with_reducible apply Keeps.ite
    | with_reducible apply OutKeeps.next
    | with_reducible apply State.bankInvalid_keeps
    | with_reducible apply State.clearCounts_keeps
    | with_reducible apply State.put_keeps
    | (extract_lets)
    | split
    | with_reducible apply Keeps.upd)

theorem execSliceSkip_keeps {r_ : Prop} {z s : State} (hk : Keeps r_ z s) : OutKeeps r_ z (execSliceSkip s) := by
  unfold execSliceSkip
  repeat' (first
    | with_reducible assumption
    | intro _
    | with_reducible apply OutKeeps.ite
    | with_reducible apply Keeps.ite
    | with_reducible apply OutKeeps.next
    | with_reducible apply State.bump_keeps
    | with_reducible apply State.raise_keeps
    | with_reducible apply State.sliceEnd_keeps
    | with_reducible apply State.sliceRetry_keeps
    | (extract_lets)
    | split)

theorem execSliceAbort_keeps {r_ : Prop} {z s : State} (hk : Keeps r_ z s) : OutKeeps r_ z (execSliceAbort s) := by
  unfold execSliceAbort
  repeat' (first
    | with_reducible assumption
    | intro _
    | with_reducible apply OutKeeps.ite
    | with_reducible apply Keeps.ite
    | with_reducible apply OutKeeps.next
    | with_reducible apply State.sliceAbort_keeps
    | (extract_lets)
    | split)

theorem State.addRecord_keeps {r_ : Prop} {z s : State} (r kind cls unit spare element : Nat) (hk : Keeps r_ z s) : Keeps r_ z
    (State.addRecord s r kind cls unit spare element) := by
  unfold State.addRecord
  repeat' (first
    | with_reducible assumption
    | intro _
    | with_reducible apply State.bump_keeps
    | with_reducible apply State.setWord_keeps
    | (extract_lets)
    | split)

theorem State.softRepair_keeps {r_ : Prop} {z s : State} (cls unit : Nat) (fails : List (Nat × Nat)) (hk : Keeps r_ z s) : Keeps
    r_ z (State.softRepair s cls unit fails) := by
  unfold State.softRepair
  repeat' (first
    | with_reducible assumption
    | intro _
    | with_reducible apply Keeps.ite
    | with_reducible apply Keeps.foldl
    | with_reducible apply PKeeps.foldl
    | with_reducible apply QKeeps.foldl
    | with_reducible apply PKeeps.fst
    | with_reducible apply QKeeps.snd
    | with_reducible apply State.draw_keepsQ
    | with_reducible apply State.addRecord_keeps
    | with_reducible apply State.draw_keeps
    | with_reducible apply State.raise_keeps
    | (extract_lets)
    | split
    | with_reducible apply PKeeps.pair
    | with_reducible apply QKeeps.pair
    | (with_reducible refine PKeeps.eq (by assumption) ?_)
    | (with_reducible refine QKeeps.eq (by assumption) ?_))

theorem State.retireUnit_keeps {r_ : Prop} {z s : State} (cls unit : Nat) (hk : Keeps r_ z s) : Keeps r_ z (State.retireUnit s cls
    unit) := by
  unfold State.retireUnit
  repeat' (first
    | with_reducible assumption
    | intro _
    | with_reducible apply Keeps.ite
    | with_reducible apply State.addRecord_keeps
    | with_reducible apply State.raise_keeps
    | (extract_lets)
    | split
    | with_reducible apply Keeps.upd)

theorem State.noteResult_keeps {r_ : Prop} {z s : State} (cls unit sig gold : Nat) (hk : Keeps r_ z s) : Keeps r_ z
    (State.noteResult s cls unit sig gold) := by
  unfold State.noteResult
  repeat' (first
    | with_reducible assumption
    | intro _
    | with_reducible apply QKeeps.snd
    | with_reducible apply State.draw_keepsQ
    | with_reducible apply State.draw_keeps
    | (extract_lets)
    | split
    | with_reducible apply QKeeps.pair
    | (with_reducible refine QKeeps.eq (by assumption) ?_)
    | with_reducible apply Keeps.upd)

theorem execTestComplete_keeps {r_ : Prop} {z s : State} (sig : Nat) (fails : List (Nat × Nat)) (hk : Keeps r_ z s) : OutKeeps r_
    z (execTestComplete sig fails s) := by
  unfold execTestComplete
  repeat' (first
    | with_reducible assumption
    | intro _
    | with_reducible apply OutKeeps.ite
    | with_reducible apply Keeps.ite
    | with_reducible apply OutKeeps.next
    | with_reducible apply State.bump_keeps
    | with_reducible apply State.noteResult_keeps
    | with_reducible apply State.put_keeps
    | with_reducible apply State.retireUnit_keeps
    | with_reducible apply State.sliceEnd_keeps
    | with_reducible apply State.softRepair_keeps
    | (extract_lets)
    | split
    | with_reducible apply Keeps.upd)

theorem State.bstResult_keeps {r_ : Prop} {z s : State} (v r : Nat) (hk : Keeps r_ z s) : Keeps r_ z (State.bstResult s v r) := by
  unfold State.bstResult
  repeat' (first
    | with_reducible assumption
    | intro _
    | with_reducible apply State.put_keeps
    | with_reducible apply State.result_keeps
    | with_reducible apply State.setWord_keeps
    | (extract_lets)
    | split)

theorem State.bstRun_keeps {r_ : Prop} {z s : State} (cls unit : Nat) (hk : Keeps r_ z s) : PKeeps r_ z (State.bstRun s cls unit)
    := by
  unfold State.bstRun
  repeat' (first
    | with_reducible assumption
    | intro _
    | with_reducible apply PKeeps.ite
    | with_reducible apply Keeps.ite
    | with_reducible apply PKeeps.fst
    | with_reducible apply State.sliceBegin_keeps
    | (extract_lets)
    | split
    | with_reducible apply PKeeps.pair
    | (with_reducible refine PKeeps.eq (by assumption) ?_))

theorem State.bstFuse_keeps {r_ : Prop} {z s : State} (rec : Nat) (ok : Bool) (hk : Keeps r_ z s) : PKeeps r_ z (State.bstFuse s
    rec ok) := by
  unfold State.bstFuse
  repeat' (first
    | with_reducible assumption
    | intro _
    | with_reducible apply PKeeps.ite
    | with_reducible apply Keeps.ite
    | with_reducible apply PKeeps.fst
    | with_reducible apply State.emit_keeps
    | with_reducible apply State.put_keeps
    | with_reducible apply State.raise_keeps
    | (extract_lets)
    | split
    | with_reducible apply PKeeps.pair
    | (with_reducible refine PKeeps.eq (by assumption) ?_)
    | with_reducible apply Keeps.upd)

theorem State.bstCmd_keeps {r_ : Prop} {z s : State} (req : Requester) (v : Nat) (ok : Bool) (hk : Keeps r_ z s) : Keeps r_ z
    (State.bstCmd s req v ok) := by
  unfold State.bstCmd
  repeat' (first
    | with_reducible assumption
    | intro _
    | with_reducible apply Keeps.ite
    | with_reducible apply PKeeps.fst
    | with_reducible apply State.bstFuse_keeps
    | with_reducible apply State.bstResult_keeps
    | with_reducible apply State.bstRun_keeps
    | with_reducible apply State.put_keeps
    | with_reducible apply State.result_keeps
    | (extract_lets)
    | split
    | with_reducible apply PKeeps.pair
    | (with_reducible refine PKeeps.eq (by assumption) ?_))

theorem execRun_keeps {r_ : Prop} {z s : State} (req : Requester) (cls unit : Nat) (hk : Keeps r_ z s) : OutKeeps r_ z (execRun
    req cls unit s) := by
  unfold execRun
  repeat' (first
    | with_reducible assumption
    | intro _
    | with_reducible apply OutKeeps.ite
    | with_reducible apply Keeps.ite
    | with_reducible apply OutKeeps.next
    | with_reducible apply State.bstCmd_keeps
    | (extract_lets)
    | split)

theorem execFuse_keeps {r_ : Prop} {z s : State} (req : Requester) (rec : Nat) (ok : Bool) (hk : Keeps r_ z s) : OutKeeps r_ z
    (execFuse req rec ok s) := by
  unfold execFuse
  repeat' (first
    | with_reducible assumption
    | intro _
    | with_reducible apply OutKeeps.ite
    | with_reducible apply Keeps.ite
    | with_reducible apply OutKeeps.next
    | with_reducible apply State.bstCmd_keeps
    | (extract_lets)
    | split)

theorem State.loseBank_keeps {r_ : Prop} {z s : State} (cls unit : Nat) (hk : Keeps r_ z s) : Keeps r_ z (State.loseBank s cls
    unit) := by
  unfold State.loseBank
  repeat' (first
    | with_reducible assumption
    | intro _
    | with_reducible apply Keeps.ite
    | with_reducible apply State.bankInvalid_keeps
    | with_reducible apply State.bankPool_keeps
    | (extract_lets)
    | split
    | with_reducible apply Keeps.upd)

theorem State.exhaustForced_keeps {r_ : Prop} {z s : State} (obj : Nat) (hk : Keeps r_ z s) : OptKeeps r_ z (State.exhaustForced s
    obj) := by
  unfold State.exhaustForced
  repeat' (first
    | with_reducible assumption
    | intro _
    | with_reducible apply OptKeeps.ite
    | with_reducible apply Keeps.ite
    | with_reducible apply QKeeps.snd
    | with_reducible apply State.draw_keepsQ
    | with_reducible exact OptKeeps.none _
    | with_reducible apply OptKeeps.some
    | with_reducible apply State.draw_keeps
    | with_reducible apply State.loseBank_keeps
    | (extract_lets)
    | split
    | with_reducible apply QKeeps.pair
    | (with_reducible refine QKeeps.eq (by assumption) ?_)
    | (with_reducible refine OptKeeps.eq (by assumption) ?_))

theorem State.saveLost_keeps {r_ : Prop} {z s : State} (hk : Keeps r_ z s) : Keeps r_ z (State.saveLost s) := by
  unfold State.saveLost
  repeat' (first
    | with_reducible assumption
    | intro _
    | with_reducible apply Keeps.ite
    | with_reducible apply QKeeps.snd
    | with_reducible apply State.draw_keepsQ
    | with_reducible apply State.bump_keeps
    | with_reducible apply State.draw_keeps
    | with_reducible apply State.raise_keeps
    | with_reducible apply State.retireUnit_keeps
    | with_reducible apply State.sliceAbort_keeps
    | with_reducible apply State.sliceEnd_keeps
    | (extract_lets)
    | split
    | with_reducible apply QKeeps.pair
    | (with_reducible refine QKeeps.eq (by assumption) ?_))

theorem State.sweepStart_keeps {r_ : Prop} {z s : State} (hk : Keeps r_ z s) : Keeps r_ z (State.sweepStart s) := by
  unfold State.sweepStart
  repeat' (first
    | with_reducible assumption
    | intro _
    | with_reducible apply Keeps.ite
    | with_reducible apply State.bump_keeps
    | with_reducible apply State.bumpBy_keeps
    | (extract_lets)
    | split
    | with_reducible apply Keeps.upd)

end Sys2Proof.Machine
end

