-- ==== Sys2Proof/Laws/KeepsMgmt.lean ====
section
/-! SUPPORT. Laws/Keeps.lean, for the operations of Machine/Mgmt.lean. -/
namespace Sys2Proof.Machine

theorem State.mgDrop_keeps {r_ : Prop} {z s : State} (port : Nat) (hk : Keeps r_ z s) : Keeps r_ z (State.mgDrop s port) := by
  unfold State.mgDrop
  repeat' (first
    | with_reducible assumption
    | intro _
    | with_reducible apply State.bump_keeps
    | with_reducible apply State.raise_keeps
    | (extract_lets)
    | split)

theorem State.mgOut_keeps {r_ : Prop} {z s : State} (p type birth set hops : Nat) (body : Data) (hk : Keeps r_ z s) : Keeps r_ z
    (State.mgOut s p type birth set hops body) := by
  unfold State.mgOut
  repeat' (first
    | with_reducible assumption
    | intro _
    | with_reducible apply State.hubTo_keeps
    | (extract_lets)
    | split)

theorem State.mgSend_keeps {r_ : Prop} {z s : State} (type : Nat) (m : MgH) (payload : Data) (hk : Keeps r_ z s) : Keeps r_ z
    (State.mgSend s type m payload) := by
  unfold State.mgSend
  repeat' (first
    | with_reducible assumption
    | intro _
    | with_reducible apply Keeps.ite
    | with_reducible apply PKeeps.fst
    | with_reducible apply State.mgDrop_keeps
    | with_reducible apply State.mgOut_keeps
    | with_reducible apply State.payload_keeps
    | (extract_lets)
    | split
    | with_reducible apply PKeeps.pair
    | (with_reducible refine PKeeps.eq (by assumption) ?_)
    | with_reducible apply Keeps.upd)

theorem State.mgDeliver_keeps {r_ : Prop} {z s : State} (d : Data) (port : Nat) (hk : Keeps r_ z s) : Keeps r_ z (State.mgDeliver
    s d port) := by
  unfold State.mgDeliver
  repeat' (first
    | with_reducible assumption
    | intro _
    | (extract_lets)
    | split
    | with_reducible apply Keeps.upd)

theorem execMgmtForward_keeps {r_ : Prop} {z s : State} (hk : Keeps r_ z s) : OutKeeps r_ z (execMgmtForward s) := by
  unfold execMgmtForward
  repeat' (first
    | with_reducible assumption
    | intro _
    | with_reducible apply OutKeeps.ite
    | with_reducible apply Keeps.ite
    | with_reducible apply OutKeeps.next
    | with_reducible apply State.bump_keeps
    | with_reducible apply State.hubPop_keeps
    | with_reducible apply State.mgDeliver_keeps
    | with_reducible apply State.mgDrop_keeps
    | with_reducible apply State.mgOut_keeps
    | with_reducible apply State.raise_keeps
    | (extract_lets)
    | split)

theorem State.setFetch_keeps {r_ : Prop} {z s : State} (p : Nat) (f : Option Fetch) (hk : Keeps r_ z s) : Keeps r_ z
    (State.setFetch s p f) := by
  unfold State.setFetch
  repeat' (first
    | with_reducible assumption
    | intro _
    | (extract_lets)
    | split
    | with_reducible apply Keeps.upd)

theorem State.fwReq_keeps {r_ : Prop} {z s : State} (p : Nat) (f : Fetch) (hk : Keeps r_ z s) : Keeps r_ z (State.fwReq s p f) :=
    by
  unfold State.fwReq
  repeat' (first
    | with_reducible assumption
    | intro _
    | with_reducible apply State.mgOut_keeps
    | with_reducible apply State.setFetch_keeps
    | (extract_lets)
    | split)

theorem State.fetchBegin_keeps {r_ : Prop} {z s : State} (src : Nat) (hk : Keeps r_ z s) : Keeps r_ z (State.fetchBegin s src) :=
    by
  unfold State.fetchBegin
  repeat' (first
    | with_reducible assumption
    | intro _
    | with_reducible apply State.put_keeps
    | (extract_lets)
    | split)

theorem State.fabricFetch_keeps {r_ : Prop} {z s : State} (p : Nat) (hk : Keeps r_ z s) : Keeps r_ z (State.fabricFetch s p) := by
  unfold State.fabricFetch
  repeat' (first
    | with_reducible assumption
    | intro _
    | with_reducible apply State.fetchBegin_keeps
    | with_reducible apply State.fwReq_keeps
    | (extract_lets)
    | split)

theorem State.bootFailed_keeps {r_ : Prop} {z s : State} (src result : Nat) (hk : Keeps r_ z s) : Keeps r_ z (State.bootFailed s
    src result) := by
  unfold State.bootFailed
  repeat' (first
    | with_reducible assumption
    | intro _
    | with_reducible apply Keeps.ite
    | with_reducible apply State.emit_keeps
    | with_reducible apply State.put_keeps
    | with_reducible apply State.result_keeps
    | with_reducible apply State.setFetch_keeps
    | (extract_lets)
    | split
    | with_reducible apply Keeps.upd)

theorem State.bootRead_keeps {r_ : Prop} {z s : State} (hk : Keeps r_ z s) : Keeps r_ z (State.bootRead s) := by
  unfold State.bootRead
  repeat' (first
    | with_reducible assumption
    | intro _
    | with_reducible apply Keeps.ite
    | with_reducible apply State.hostRead_keeps
    | (extract_lets)
    | split)

theorem State.goFetch_keeps {r_ : Prop} {z s : State} (hk : Keeps r_ z s) : Keeps r_ z (State.goFetch s) := by
  unfold State.goFetch
  repeat' (first
    | with_reducible assumption
    | intro _
    | with_reducible apply Keeps.ite
    | with_reducible apply State.bootRead_keeps
    | with_reducible apply State.fetchBegin_keeps
    | (extract_lets)
    | split
    | with_reducible apply Keeps.upd)

theorem State.bootTick_keeps {r_ : Prop} {z s : State} (hk : Keeps r_ z s) : Keeps r_ z (State.bootTick s) := by
  unfold State.bootTick
  repeat' (first
    | with_reducible assumption
    | intro _
    | with_reducible apply Keeps.ite
    | with_reducible apply Keeps.foldl
    | with_reducible apply PKeeps.foldl
    | with_reducible apply QKeeps.foldl
    | with_reducible apply State.fabricFetch_keeps
    | with_reducible apply State.goFetch_keeps
    | (extract_lets)
    | split
    | with_reducible apply Keeps.upd)

end Sys2Proof.Machine
end

