-- ==== Sys2Proof/Laws/KeepsLtl.lean ====
section
/-! SUPPORT. Laws/Keeps.lean, for the operations of Machine/Ltl.lean. -/
namespace Sys2Proof.Machine

theorem State.setEgress_keeps {r_ : Prop} {z s : State} (p : Nat) (l : List LtlSend) (hk : Keeps r_ z s) : Keeps r_ z
    (State.setEgress s p l) := by
  unfold State.setEgress
  repeat' (first
    | with_reducible assumption
    | intro _
    | with_reducible apply State.put_keeps
    | (extract_lets)
    | split
    | with_reducible apply Keeps.upd)

theorem State.ltlPush_keeps {r_ : Prop} {z s : State} (p phys : Nat) (d : Data) (hk : Keeps r_ z s) : Keeps r_ z (State.ltlPush s
    p phys d) := by
  unfold State.ltlPush
  repeat' (first
    | with_reducible assumption
    | intro _
    | with_reducible apply Keeps.ite
    | with_reducible apply State.bump_keeps
    | with_reducible apply State.setEgress_keeps
    | (extract_lets)
    | split)

theorem State.ltlMsg_keeps {r_ : Prop} {z s : State} (dev ep : Nat) (rec : Data) (hk : Keeps r_ z s) : Keeps r_ z (State.ltlMsg s
    dev ep rec) := by
  unfold State.ltlMsg
  repeat' (first
    | with_reducible assumption
    | intro _
    | with_reducible apply QKeeps.snd
    | with_reducible apply State.draw_keepsQ
    | with_reducible apply State.draw_keeps
    | with_reducible apply State.mgSend_keeps
    | (extract_lets)
    | split
    | with_reducible apply QKeeps.pair
    | (with_reducible refine QKeeps.eq (by assumption) ?_))

theorem State.mctpAnswer_keeps {r_ : Prop} {z s : State} (port phys : Nat) (d : Data) (hk : Keeps r_ z s) : Keeps r_ z
    (State.mctpAnswer s port phys d) := by
  unfold State.mctpAnswer
  repeat' (first
    | with_reducible assumption
    | intro _
    | with_reducible apply Keeps.ite
    | with_reducible apply QKeeps.snd
    | with_reducible apply State.draw_keepsQ
    | with_reducible apply State.draw_keeps
    | with_reducible apply State.ltlPush_keeps
    | (extract_lets)
    | split
    | with_reducible apply QKeeps.pair
    | (with_reducible refine QKeeps.eq (by assumption) ?_))

theorem State.mctpRx_keeps {r_ : Prop} {z s : State} (port phys : Nat) (d : Data) (hk : Keeps r_ z s) : Keeps r_ z (State.mctpRx s
    port phys d) := by
  unfold State.mctpRx
  repeat' (first
    | with_reducible assumption
    | intro _
    | with_reducible apply Keeps.ite
    | with_reducible apply State.bump_keeps
    | with_reducible apply State.bumpIf_keeps
    | with_reducible apply State.emit_keeps
    | with_reducible apply State.ltlMsg_keeps
    | with_reducible apply State.ltlPush_keeps
    | with_reducible apply State.mctpAnswer_keeps
    | (extract_lets)
    | split)

theorem execMctpPacketRx_keeps {r_ : Prop} {z s : State} (port phys : Nat) (d : Data) (hk : Keeps r_ z s) : OutKeeps r_ z
    (execMctpPacketRx port phys d s) := by
  unfold execMctpPacketRx
  repeat' (first
    | with_reducible assumption
    | intro _
    | with_reducible apply OutKeeps.ite
    | with_reducible apply Keeps.ite
    | with_reducible apply OutKeeps.next
    | with_reducible apply State.mctpRx_keeps
    | (extract_lets)
    | split)

theorem execLintelRecordRx_keeps {r_ : Prop} {z s : State} (hk : Keeps r_ z s) : OutKeeps r_ z (execLintelRecordRx s) := by
  unfold execLintelRecordRx
  repeat' (first
    | with_reducible assumption
    | intro _
    | with_reducible apply OutKeeps.ite
    | with_reducible apply Keeps.ite
    | with_reducible apply OutKeeps.next
    | with_reducible apply State.bump_keeps
    | with_reducible apply State.bumpIf_keeps
    | with_reducible apply State.ltlPush_keeps
    | (extract_lets)
    | split
    | with_reducible apply Keeps.upd)

theorem execMctpSend_keeps {r_ : Prop} {z s : State} (port : Nat) (ack : Bool) (hk : Keeps r_ z s) : OutKeeps r_ z (execMctpSend
    port ack s) := by
  unfold execMctpSend
  repeat' (first
    | with_reducible assumption
    | intro _
    | with_reducible apply OutKeeps.ite
    | with_reducible apply Keeps.ite
    | with_reducible apply OutKeeps.next
    | with_reducible apply State.bump_keeps
    | with_reducible apply State.emit_keeps
    | with_reducible apply State.raise_keeps
    | with_reducible apply State.setEgress_keeps
    | (extract_lets)
    | split)

theorem execAlertPull_keeps {r_ : Prop} {z s : State} (b addr : Nat) (d : Data) (hk : Keeps r_ z s) : OutKeeps r_ z (execAlertPull
    b addr d s) := by
  unfold execAlertPull
  repeat' (first
    | with_reducible assumption
    | intro _
    | with_reducible apply OutKeeps.ite
    | with_reducible apply Keeps.ite
    | with_reducible apply OutKeeps.next
    | with_reducible apply State.emit_keeps
    | with_reducible apply State.mctpRx_keeps
    | (extract_lets)
    | split)

theorem execI3cIbiRx_keeps {r_ : Prop} {z s : State} (b addr mdb : Nat) (d : Data) (hk : Keeps r_ z s) : OutKeeps r_ z
    (execI3cIbiRx b addr mdb d s) := by
  unfold execI3cIbiRx
  repeat' (first
    | with_reducible assumption
    | intro _
    | with_reducible apply OutKeeps.ite
    | with_reducible apply Keeps.ite
    | with_reducible apply OutKeeps.next
    | with_reducible apply State.emit_keeps
    | with_reducible apply State.mctpRx_keeps
    | (extract_lets)
    | split)

theorem State.busEnabled_keeps {r_ : Prop} {z s : State} (b : Nat) (hk : Keeps r_ z s) : Keeps r_ z (State.busEnabled s b) := by
  unfold State.busEnabled
  repeat' (first
    | with_reducible assumption
    | intro _
    | with_reducible apply Keeps.ite
    | with_reducible apply Keeps.foldl
    | with_reducible apply PKeeps.foldl
    | with_reducible apply QKeeps.foldl
    | with_reducible apply State.emit_keeps
    | (extract_lets)
    | split)

theorem State.sbReport_keeps {r_ : Prop} {z s : State} (i : Nat) (level : Bool) (hk : Keeps r_ z s) : Keeps r_ z (State.sbReport s
    i level) := by
  unfold State.sbReport
  repeat' (first
    | with_reducible assumption
    | intro _
    | with_reducible apply State.level_keeps
    | with_reducible apply State.put_keeps
    | with_reducible apply State.raise_keeps
    | (extract_lets)
    | split)

theorem State.sideband_keeps {r_ : Prop} {z s : State} (sample : Nat) (hk : Keeps r_ z s) : Keeps r_ z (State.sideband s sample)
    := by
  unfold State.sideband
  repeat' (first
    | with_reducible assumption
    | intro _
    | with_reducible apply Keeps.ite
    | with_reducible apply Keeps.foldl
    | with_reducible apply PKeeps.foldl
    | with_reducible apply QKeeps.foldl
    | with_reducible apply State.ltlMsg_keeps
    | with_reducible apply State.sbReport_keeps
    | (extract_lets)
    | split
    | with_reducible apply Keeps.upd)

theorem execSidebandChange_keeps {r_ : Prop} {z s : State} (sample : Nat) (hk : Keeps r_ z s) : OutKeeps r_ z (execSidebandChange
    sample s) := by
  unfold execSidebandChange
  repeat' (first
    | with_reducible assumption
    | intro _
    | with_reducible apply OutKeeps.ite
    | with_reducible apply Keeps.ite
    | with_reducible apply OutKeeps.next
    | with_reducible apply State.sideband_keeps
    | (extract_lets)
    | split)

end Sys2Proof.Machine
end

