-- ==== Sys2Proof/Laws/KeepsLanes.lean ====
section
/-! SUPPORT. Laws/Keeps.lean, for the operations of Machine/Lanes.lean. -/
namespace Sys2Proof.Machine

theorem State.maskChanged_keeps {r_ : Prop} {z s : State} (p : Nat) (wasUp : Bool) (hk : Keeps r_ z s) : Keeps r_ z
    (State.maskChanged s p wasUp) := by
  unfold State.maskChanged
  repeat' (first
    | with_reducible assumption
    | intro _
    | with_reducible apply Keeps.ite
    | with_reducible apply State.phyFell_keeps
    | with_reducible apply State.widthChange_keeps
    | (extract_lets)
    | split)

theorem State.fillSlots_keeps {r_ : Prop} {z s : State} (p : Nat) (k : Nat) (hk : Keeps r_ z s) : Keeps r_ z (State.fillSlots s p
    k) := by
  induction k generalizing s with
  | zero =>
    unfold State.fillSlots
    repeat' (first
      | with_reducible assumption
      | with_reducible apply ih
      | intro _
      | with_reducible apply Keeps.ite
      | with_reducible apply State.sendControl_keeps
      | (extract_lets)
      | split)
  | succ k ih =>
    unfold State.fillSlots
    repeat' (first
      | with_reducible assumption
      | with_reducible apply ih
      | intro _
      | with_reducible apply Keeps.ite
      | with_reducible apply State.sendControl_keeps
      | (extract_lets)
      | split)

theorem State.periodEnd_keeps {r_ : Prop} {z s : State} (p : Nat) (hk : Keeps r_ z s) : Keeps r_ z (State.periodEnd s p) := by
  unfold State.periodEnd
  repeat' (first
    | with_reducible assumption
    | intro _
    | with_reducible apply State.fillSlots_keeps
    | (extract_lets)
    | split)

theorem State.retune_keeps {r_ : Prop} {z s : State} (p : Nat) (hk : Keeps r_ z s) : Keeps r_ z (State.retune s p) := by
  unfold State.retune
  repeat' (first
    | with_reducible assumption
    | intro _
    | with_reducible apply Keeps.ite
    | with_reducible apply State.maskChanged_keeps
    | with_reducible apply State.periodEnd_keeps
    | with_reducible apply State.sendMarkers_keeps
    | with_reducible apply State.setPp_keeps
    | (extract_lets)
    | split)

theorem State.setRx_keeps {r_ : Prop} {z s : State} (p m : Nat) (hk : Keeps r_ z s) : Keeps r_ z (State.setRx s p m) := by
  unfold State.setRx
  repeat' (first
    | with_reducible assumption
    | intro _
    | with_reducible apply Keeps.ite
    | with_reducible apply State.maskChanged_keeps
    | with_reducible apply State.setPp_keeps
    | (extract_lets)
    | split)

theorem State.applyMasks_keeps {r_ : Prop} {z s : State} (p : Nat) (hk : Keeps r_ z s) : Keeps r_ z (State.applyMasks s p) := by
  unfold State.applyMasks
  repeat' (first
    | with_reducible assumption
    | intro _
    | with_reducible apply State.retune_keeps
    | with_reducible apply State.setRx_keeps
    | (extract_lets)
    | split)

theorem State.trySleep_keeps {r_ : Prop} {z s : State} (p : Nat) (hk : Keeps r_ z s) : Keeps r_ z (State.trySleep s p) := by
  unfold State.trySleep
  repeat' (first
    | with_reducible assumption
    | intro _
    | with_reducible apply Keeps.ite
    | with_reducible apply State.emit_keeps
    | with_reducible apply State.setLn_keeps
    | (extract_lets)
    | split)

theorem State.sendFrames_keeps {r_ : Prop} {z s : State} (n : Nat) (hk : Keeps r_ z s) : Keeps r_ z (State.sendFrames s n) := by
  unfold State.sendFrames
  repeat' (first
    | with_reducible assumption
    | intro _
    | with_reducible apply Keeps.ite
    | with_reducible apply State.emit_keeps
    | with_reducible apply State.setLn_keeps
    | (extract_lets)
    | split)

theorem State.beginAttempt_keeps {r_ : Prop} {z s : State} (n attempt : Nat) (hk : Keeps r_ z s) : Keeps r_ z (State.beginAttempt
    s n attempt) := by
  unfold State.beginAttempt
  repeat' (first
    | with_reducible assumption
    | intro _
    | with_reducible apply State.bump_keeps
    | with_reducible apply State.frame_keeps
    | with_reducible apply State.sendFrames_keeps
    | with_reducible apply State.setLn_keeps
    | (extract_lets)
    | split)

theorem State.laneStart_keeps {r_ : Prop} {z s : State} (n : Nat) (hk : Keeps r_ z s) : Keeps r_ z (State.laneStart s n) := by
  unfold State.laneStart
  repeat' (first
    | with_reducible assumption
    | intro _
    | with_reducible apply Keeps.ite
    | with_reducible apply State.beginAttempt_keeps
    | (extract_lets)
    | split)

theorem State.dropLane_keeps {r_ : Prop} {z s : State} (n : Nat) (dest : LaneSt) (hk : Keeps r_ z s) : Keeps r_ z (State.dropLane
    s n dest) := by
  unfold State.dropLane
  repeat' (first
    | with_reducible assumption
    | intro _
    | with_reducible apply Keeps.ite
    | with_reducible apply State.applyMasks_keeps
    | with_reducible apply State.beginAttempt_keeps
    | with_reducible apply State.periodEnd_keeps
    | with_reducible apply State.sendMarkers_keeps
    | with_reducible apply State.setLn_keeps
    | (extract_lets)
    | split)

theorem State.lanesOff_keeps {r_ : Prop} {z s : State} (ns : List Nat) (hk : Keeps r_ z s) : Keeps r_ z (State.lanesOff s ns) :=
    by
  unfold State.lanesOff
  repeat' (first
    | with_reducible assumption
    | intro _
    | with_reducible apply Keeps.ite
    | with_reducible apply Keeps.foldl
    | with_reducible apply PKeeps.foldl
    | with_reducible apply QKeeps.foldl
    | with_reducible apply State.applyMasks_keeps
    | with_reducible apply State.emit_keeps
    | with_reducible apply State.setLn_keeps
    | with_reducible apply State.setPp_keeps
    | (extract_lets)
    | split)

theorem State.laneOff_keeps {r_ : Prop} {z s : State} (n : Nat) (hk : Keeps r_ z s) : Keeps r_ z (State.laneOff s n) := by
  unfold State.laneOff
  repeat' (first
    | with_reducible assumption
    | intro _
    | with_reducible apply State.lanesOff_keeps
    | (extract_lets)
    | split)

theorem State.forbidLanes_keeps {r_ : Prop} {z s : State} (hk : Keeps r_ z s) : Keeps r_ z (State.forbidLanes s) := by
  unfold State.forbidLanes
  repeat' (first
    | with_reducible assumption
    | intro _
    | with_reducible apply State.lanesOff_keeps
    | (extract_lets)
    | split)

theorem State.failAttempt_keeps {r_ : Prop} {z s : State} (n : Nat) (hk : Keeps r_ z s) : Keeps r_ z (State.failAttempt s n) := by
  unfold State.failAttempt
  repeat' (first
    | with_reducible assumption
    | intro _
    | with_reducible apply Keeps.ite
    | with_reducible apply State.beginAttempt_keeps
    | with_reducible apply State.raise_keeps
    | with_reducible apply State.sendFrames_keeps
    | with_reducible apply State.setLn_keeps
    | (extract_lets)
    | split)

theorem State.trainFrame_keeps {r_ : Prop} {z s : State} (n req status : Nat) (hk : Keeps r_ z s) : Keeps r_ z (State.trainFrame s
    n req status) := by
  unfold State.trainFrame
  repeat' (first
    | with_reducible assumption
    | intro _
    | with_reducible apply Keeps.ite
    | with_reducible apply QKeeps.snd
    | with_reducible apply State.draw_keepsQ
    | with_reducible apply State.beginAttempt_keeps
    | with_reducible apply State.draw_keeps
    | with_reducible apply State.dropLane_keeps
    | with_reducible apply State.frame_keeps
    | with_reducible apply State.sendFrames_keeps
    | with_reducible apply State.setLn_keeps
    | (extract_lets)
    | split
    | with_reducible apply QKeeps.pair
    | (with_reducible refine QKeeps.eq (by assumption) ?_))

theorem State.mergeLanes_keeps {r_ : Prop} {z s : State} (p : Nat) (hk : Keeps r_ z s) : Keeps r_ z (State.mergeLanes s p) := by
  unfold State.mergeLanes
  repeat' (first
    | with_reducible assumption
    | intro _
    | with_reducible apply Keeps.ite
    | with_reducible apply Keeps.foldl
    | with_reducible apply PKeeps.foldl
    | with_reducible apply QKeeps.foldl
    | with_reducible apply State.emit_keeps
    | with_reducible apply State.rxBrick_keeps
    | with_reducible apply State.setLn_keeps
    | with_reducible apply State.setPp_keeps
    | (extract_lets)
    | split)

theorem State.decoded_keeps {r_ : Prop} {z s : State} (n : Nat) (c : List Nat) (dec : Option (Nat × List Nat)) (hk : Keeps r_ z s)
    : Keeps r_ z (State.decoded s n c dec) := by
  unfold State.decoded
  repeat' (first
    | with_reducible assumption
    | intro _
    | with_reducible apply Keeps.ite
    | with_reducible apply Keeps.foldl
    | with_reducible apply PKeeps.foldl
    | with_reducible apply QKeeps.foldl
    | with_reducible apply State.bump_keeps
    | with_reducible apply State.bumpBy_keeps
    | with_reducible apply State.bumpIf_keeps
    | with_reducible apply State.emit_keeps
    | with_reducible apply State.mergeLanes_keeps
    | with_reducible apply State.put_keeps
    | with_reducible apply State.raise_keeps
    | with_reducible apply State.setLn_keeps
    | (extract_lets)
    | split)

theorem State.codeword_keeps {r_ : Prop} {z s : State} (n levels : Nat) (hk : Keeps r_ z s) : Keeps r_ z (State.codeword s n
    levels) := by
  unfold State.codeword
  repeat' (first
    | with_reducible assumption
    | intro _
    | with_reducible apply State.bump_keeps
    | with_reducible apply State.decoded_keeps
    | (extract_lets)
    | split)

theorem execCodewordRx_keeps {r_ : Prop} {z s : State} (n message parity : Nat) (hk : Keeps r_ z s) : OutKeeps r_ z
    (execCodewordRx n message parity s) := by
  unfold execCodewordRx
  repeat' (first
    | with_reducible assumption
    | intro _
    | with_reducible apply OutKeeps.ite
    | with_reducible apply Keeps.ite
    | with_reducible apply OutKeeps.next
    | with_reducible apply State.codeword_keeps
    | (extract_lets)
    | split)

theorem State.lockLost_keeps {r_ : Prop} {z s : State} (n : Nat) (hk : Keeps r_ z s) : Keeps r_ z (State.lockLost s n) := by
  unfold State.lockLost
  repeat' (first
    | with_reducible assumption
    | intro _
    | with_reducible apply State.beginAttempt_keeps
    | with_reducible apply State.bump_keeps
    | with_reducible apply State.dropLane_keeps
    | with_reducible apply State.frame_keeps
    | with_reducible apply State.raise_keeps
    | (extract_lets)
    | split)

theorem execFecLockLost_keeps {r_ : Prop} {z s : State} (n : Nat) (hk : Keeps r_ z s) : OutKeeps r_ z (execFecLockLost n s) := by
  unfold execFecLockLost
  repeat' (first
    | with_reducible assumption
    | intro _
    | with_reducible apply OutKeeps.ite
    | with_reducible apply Keeps.ite
    | with_reducible apply OutKeeps.next
    | with_reducible apply State.lockLost_keeps
    | with_reducible apply State.setLn_keeps
    | (extract_lets)
    | split)

theorem execMarkerLockLost_keeps {r_ : Prop} {z s : State} (n : Nat) (hk : Keeps r_ z s) : OutKeeps r_ z (execMarkerLockLost n s)
    := by
  unfold execMarkerLockLost
  repeat' (first
    | with_reducible assumption
    | intro _
    | with_reducible apply OutKeeps.ite
    | with_reducible apply Keeps.ite
    | with_reducible apply OutKeeps.next
    | with_reducible apply State.lockLost_keeps
    | with_reducible apply State.setLn_keeps
    | (extract_lets)
    | split)

theorem execMarkerTx_keeps {r_ : Prop} {z s : State} (n : Nat) (hk : Keeps r_ z s) : OutKeeps r_ z (execMarkerTx n s) := by
  unfold execMarkerTx
  repeat' (first
    | with_reducible assumption
    | intro _
    | with_reducible apply OutKeeps.ite
    | with_reducible apply Keeps.ite
    | with_reducible apply OutKeeps.next
    | with_reducible apply State.periodEnd_keeps
    | with_reducible apply State.sendMarkers_keeps
    | (extract_lets)
    | split)

theorem State.mergeMarkers_keeps {r_ : Prop} {z s : State} (p : Nat) (hk : Keeps r_ z s) : Keeps r_ z (State.mergeMarkers s p) :=
    by
  unfold State.mergeMarkers
  repeat' (first
    | with_reducible assumption
    | intro _
    | with_reducible apply Keeps.ite
    | with_reducible apply State.pair_keeps
    | with_reducible apply State.raise_keeps
    | with_reducible apply State.setLn_keeps
    | with_reducible apply State.setPp_keeps
    | (extract_lets)
    | split)

theorem State.markerRx_keeps {r_ : Prop} {z s : State} (n : Nat) (m : Marker) (hk : Keeps r_ z s) : Keeps r_ z (State.markerRx s n
    m) := by
  unfold State.markerRx
  repeat' (first
    | with_reducible assumption
    | intro _
    | with_reducible apply Keeps.ite
    | with_reducible apply State.applyMasks_keeps
    | with_reducible apply State.bumpIf_keeps
    | with_reducible apply State.mergeLanes_keeps
    | with_reducible apply State.mergeMarkers_keeps
    | with_reducible apply State.setLn_keeps
    | with_reducible apply State.setPp_keeps
    | with_reducible apply State.trySleep_keeps
    | (extract_lets)
    | split)

theorem execMarkerRx_keeps {r_ : Prop} {z s : State} (n : Nat) (m : Marker) (hk : Keeps r_ z s) : OutKeeps r_ z (execMarkerRx n m
    s) := by
  unfold execMarkerRx
  repeat' (first
    | with_reducible assumption
    | intro _
    | with_reducible apply OutKeeps.ite
    | with_reducible apply Keeps.ite
    | with_reducible apply OutKeeps.next
    | with_reducible apply State.markerRx_keeps
    | (extract_lets)
    | split)

theorem execSleepWake_keeps {r_ : Prop} {z s : State} (n : Nat) (signal : Bool) (hk : Keeps r_ z s) : OutKeeps r_ z (execSleepWake
    n signal s) := by
  unfold execSleepWake
  repeat' (first
    | with_reducible assumption
    | intro _
    | with_reducible apply OutKeeps.ite
    | with_reducible apply Keeps.ite
    | with_reducible apply OutKeeps.next
    | with_reducible apply State.beginAttempt_keeps
    | with_reducible apply State.setLn_keeps
    | (extract_lets)
    | split)

theorem execTrainingFrameRx_keeps {r_ : Prop} {z s : State} (n req status : Nat) (hk : Keeps r_ z s) : OutKeeps r_ z
    (execTrainingFrameRx n req status s) := by
  unfold execTrainingFrameRx
  repeat' (first
    | with_reducible assumption
    | intro _
    | with_reducible apply OutKeeps.ite
    | with_reducible apply Keeps.ite
    | with_reducible apply OutKeeps.next
    | with_reducible apply State.trainFrame_keeps
    | (extract_lets)
    | split)

theorem execFrameLock_keeps {r_ : Prop} {z s : State} (n : Nat) (hk : Keeps r_ z s) : OutKeeps r_ z (execFrameLock n s) := by
  unfold execFrameLock
  repeat' (first
    | with_reducible assumption
    | intro _
    | with_reducible apply OutKeeps.ite
    | with_reducible apply Keeps.ite
    | with_reducible apply OutKeeps.next
    | with_reducible apply State.frame_keeps
    | with_reducible apply State.setLn_keeps
    | (extract_lets)
    | split)

theorem execFrameLockLost_keeps {r_ : Prop} {z s : State} (n : Nat) (hk : Keeps r_ z s) : OutKeeps r_ z (execFrameLockLost n s) :=
    by
  unfold execFrameLockLost
  repeat' (first
    | with_reducible assumption
    | intro _
    | with_reducible apply OutKeeps.ite
    | with_reducible apply Keeps.ite
    | with_reducible apply OutKeeps.next
    | with_reducible apply State.frame_keeps
    | with_reducible apply State.setLn_keeps
    | (extract_lets)
    | split)

theorem execTapResponse_keeps {r_ : Prop} {z s : State} (n : Nat) (hk : Keeps r_ z s) : OutKeeps r_ z (execTapResponse n s) := by
  unfold execTapResponse
  repeat' (first
    | with_reducible assumption
    | intro _
    | with_reducible apply OutKeeps.ite
    | with_reducible apply Keeps.ite
    | with_reducible apply OutKeeps.next
    | with_reducible apply State.sendFrames_keeps
    | with_reducible apply State.setLn_keeps
    | (extract_lets)
    | split)

theorem execTapResponseTimeout_keeps {r_ : Prop} {z s : State} (n : Nat) (hk : Keeps r_ z s) : OutKeeps r_ z
    (execTapResponseTimeout n s) := by
  unfold execTapResponseTimeout
  repeat' (first
    | with_reducible assumption
    | intro _
    | with_reducible apply OutKeeps.ite
    | with_reducible apply Keeps.ite
    | with_reducible apply OutKeeps.next
    | with_reducible apply State.failAttempt_keeps
    | (extract_lets)
    | split)

theorem execRxReady_keeps {r_ : Prop} {z s : State} (n snr frames : Nat) (hk : Keeps r_ z s) : OutKeeps r_ z (execRxReady n snr
    frames s) := by
  unfold execRxReady
  repeat' (first
    | with_reducible assumption
    | intro _
    | with_reducible apply OutKeeps.ite
    | with_reducible apply Keeps.ite
    | with_reducible apply OutKeeps.next
    | with_reducible apply State.sendFrames_keeps
    | with_reducible apply State.setLn_keeps
    | (extract_lets)
    | split)

theorem execDataStart_keeps {r_ : Prop} {z s : State} (n : Nat) (hk : Keeps r_ z s) : OutKeeps r_ z (execDataStart n s) := by
  unfold execDataStart
  repeat' (first
    | with_reducible assumption
    | intro _
    | with_reducible apply OutKeeps.ite
    | with_reducible apply Keeps.ite
    | with_reducible apply OutKeeps.next
    | with_reducible apply State.applyMasks_keeps
    | with_reducible apply State.sendMarker_keeps
    | with_reducible apply State.setLn_keeps
    | (extract_lets)
    | split)

theorem execTrainAttemptTimeout_keeps {r_ : Prop} {z s : State} (n : Nat) (hk : Keeps r_ z s) : OutKeeps r_ z
    (execTrainAttemptTimeout n s) := by
  unfold execTrainAttemptTimeout
  repeat' (first
    | with_reducible assumption
    | intro _
    | with_reducible apply OutKeeps.ite
    | with_reducible apply Keeps.ite
    | with_reducible apply OutKeeps.next
    | with_reducible apply State.failAttempt_keeps
    | with_reducible apply State.frame_keeps
    | (extract_lets)
    | split)

theorem execSignalAbsentTimeout_keeps {r_ : Prop} {z s : State} (n : Nat) (hk : Keeps r_ z s) : OutKeeps r_ z
    (execSignalAbsentTimeout n s) := by
  unfold execSignalAbsentTimeout
  repeat' (first
    | with_reducible assumption
    | intro _
    | with_reducible apply OutKeeps.ite
    | with_reducible apply Keeps.ite
    | with_reducible apply OutKeeps.next
    | with_reducible apply State.failAttempt_keeps
    | with_reducible apply State.frame_keeps
    | with_reducible apply State.setLn_keeps
    | (extract_lets)
    | split)

theorem execSignalReturn_keeps {r_ : Prop} {z s : State} (n : Nat) (hk : Keeps r_ z s) : OutKeeps r_ z (execSignalReturn n s) :=
    by
  unfold execSignalReturn
  repeat' (first
    | with_reducible assumption
    | intro _
    | with_reducible apply OutKeeps.ite
    | with_reducible apply Keeps.ite
    | with_reducible apply OutKeeps.next
    | with_reducible apply State.beginAttempt_keeps
    | with_reducible apply State.setLn_keeps
    | (extract_lets)
    | split)

theorem execLaneRestart_keeps {r_ : Prop} {z s : State} (n : Nat) (hk : Keeps r_ z s) : OutKeeps r_ z (execLaneRestart n s) := by
  unfold execLaneRestart
  repeat' (first
    | with_reducible assumption
    | intro _
    | with_reducible apply OutKeeps.ite
    | with_reducible apply Keeps.ite
    | with_reducible apply OutKeeps.next
    | with_reducible apply State.beginAttempt_keeps
    | (extract_lets)
    | split)

theorem State.pllLanes_keeps {r_ : Prop} {z s : State} (k : Nat) (hk : Keeps r_ z s) : Keeps r_ z (State.pllLanes s k) := by
  unfold State.pllLanes
  repeat' (first
    | with_reducible assumption
    | intro _
    | with_reducible apply Keeps.foldl
    | with_reducible apply PKeeps.foldl
    | with_reducible apply QKeeps.foldl
    | with_reducible apply State.emit_keeps
    | with_reducible apply State.lanesOff_keeps
    | (extract_lets)
    | split)

theorem State.pllLoss_keeps {r_ : Prop} {z s : State} (k : Nat) (hk : Keeps r_ z s) : Keeps r_ z (State.pllLoss s k) := by
  unfold State.pllLoss
  repeat' (first
    | with_reducible assumption
    | intro _
    | with_reducible apply State.level_keeps
    | with_reducible apply State.pllLanes_keeps
    | (extract_lets)
    | split
    | with_reducible apply Keeps.upd)

theorem State.pllQuiet_keeps {r_ : Prop} {z s : State} (k : Nat) (hk : Keeps r_ z s) : Keeps r_ z (State.pllQuiet s k) := by
  unfold State.pllQuiet
  repeat' (first
    | with_reducible assumption
    | intro _
    | with_reducible apply State.pllLanes_keeps
    | (extract_lets)
    | split
    | with_reducible apply Keeps.upd)

theorem State.testSignal_keeps {r_ : Prop} {z s : State} (n : Nat) (hk : Keeps r_ z s) : Keeps r_ z (State.testSignal s n) := by
  unfold State.testSignal
  repeat' (first
    | with_reducible assumption
    | intro _
    | with_reducible apply Keeps.ite
    | with_reducible apply State.emit_keeps
    | with_reducible apply State.setLn_keeps
    | (extract_lets)
    | split)

theorem State.pllFree_keeps {r_ : Prop} {z s : State} (hk : Keeps r_ z s) : Keeps r_ z (State.pllFree s) := by
  unfold State.pllFree
  repeat' (first
    | with_reducible assumption
    | intro _
    | with_reducible apply Keeps.foldl
    | with_reducible apply PKeeps.foldl
    | with_reducible apply QKeeps.foldl
    | with_reducible apply State.laneStart_keeps
    | with_reducible apply State.testSignal_keeps
    | (extract_lets)
    | split
    | with_reducible apply Keeps.upd)

theorem execPllLossOfLock_keeps {r_ : Prop} {z s : State} (k : Nat) (hk : Keeps r_ z s) : OutKeeps r_ z (execPllLossOfLock k s) :=
    by
  unfold execPllLossOfLock
  repeat' (first
    | with_reducible assumption
    | intro _
    | with_reducible apply OutKeeps.ite
    | with_reducible apply Keeps.ite
    | with_reducible apply OutKeeps.next
    | with_reducible apply State.pllLoss_keeps
    | (extract_lets)
    | split)

theorem execPllRelock_keeps {r_ : Prop} {z s : State} (k : Nat) (hk : Keeps r_ z s) : OutKeeps r_ z (execPllRelock k s) := by
  unfold execPllRelock
  repeat' (first
    | with_reducible assumption
    | intro _
    | with_reducible apply OutKeeps.ite
    | with_reducible apply Keeps.ite
    | with_reducible apply OutKeeps.next
    | with_reducible apply State.level_keeps
    | with_reducible apply State.pllFree_keeps
    | (extract_lets)
    | split)

theorem State.sleepMask_keeps {r_ : Prop} {z s : State} (p m : Nat) (hk : Keeps r_ z s) : Keeps r_ z (State.sleepMask s p m) := by
  unfold State.sleepMask
  repeat' (first
    | with_reducible assumption
    | intro _
    | with_reducible apply Keeps.ite
    | with_reducible apply Keeps.foldl
    | with_reducible apply PKeeps.foldl
    | with_reducible apply QKeeps.foldl
    | with_reducible apply State.beginAttempt_keeps
    | with_reducible apply State.periodEnd_keeps
    | with_reducible apply State.put_keeps
    | with_reducible apply State.retune_keeps
    | with_reducible apply State.sendMarkers_keeps
    | with_reducible apply State.setLn_keeps
    | with_reducible apply State.trySleep_keeps
    | (extract_lets)
    | split)

theorem State.enterTest_keeps {r_ : Prop} {z s : State} (p : Nat) (hk : Keeps r_ z s) : Keeps r_ z (State.enterTest s p) := by
  unfold State.enterTest
  repeat' (first
    | with_reducible assumption
    | intro _
    | with_reducible apply Keeps.ite
    | with_reducible apply State.phyFell_keeps
    | with_reducible apply State.put_keeps
    | with_reducible apply State.setLn_keeps
    | with_reducible apply State.setPp_keeps
    | with_reducible apply State.testSignal_keeps
    | (extract_lets)
    | split)

theorem State.leaveTest_keeps {r_ : Prop} {z s : State} (p : Nat) (hk : Keeps r_ z s) : Keeps r_ z (State.leaveTest s p) := by
  unfold State.leaveTest
  repeat' (first
    | with_reducible assumption
    | intro _
    | with_reducible apply Keeps.ite
    | with_reducible apply State.beginAttempt_keeps
    | with_reducible apply State.laneOff_keeps
    | with_reducible apply State.put_keeps
    | (extract_lets)
    | split)

theorem State.lockedNote_keeps {r_ : Prop} {z s : State} (changes : Bool) (hk : Keeps r_ z s) : Keeps r_ z (State.lockedNote s
    changes) := by
  unfold State.lockedNote
  repeat' (first
    | with_reducible assumption
    | intro _
    | with_reducible apply Keeps.ite
    | with_reducible apply State.bump_keeps
    | with_reducible apply State.raise_keeps
    | (extract_lets)
    | split)

theorem State.ptCtrlWrite_keeps {r_ : Prop} {z s : State} (p v : Nat) (hk : Keeps r_ z s) : Keeps r_ z (State.ptCtrlWrite s p v)
    := by
  unfold State.ptCtrlWrite
  repeat' (first
    | with_reducible assumption
    | intro _
    | with_reducible apply Keeps.ite
    | with_reducible apply State.enterTest_keeps
    | with_reducible apply State.leaveTest_keeps
    | with_reducible apply State.put_keeps
    | with_reducible apply State.retune_keeps
    | with_reducible apply State.setPp_keeps
    | with_reducible apply State.sleepMask_keeps
    | (extract_lets)
    | split)

theorem State.ptCtrlCheck_keeps {r_ : Prop} {z s : State} (p v : Nat) (hk : Keeps r_ z s) : Keeps r_ z (State.ptCtrlCheck s p v)
    := by
  unfold State.ptCtrlCheck
  repeat' (first
    | with_reducible assumption
    | intro _
    | with_reducible apply State.lockedNote_keeps
    | (extract_lets)
    | split)

theorem execTestEnter_keeps {r_ : Prop} {z s : State} (p v : Nat) (hk : Keeps r_ z s) : OutKeeps r_ z (execTestEnter p v s) := by
  unfold execTestEnter
  repeat' (first
    | with_reducible assumption
    | intro _
    | with_reducible apply OutKeeps.ite
    | with_reducible apply Keeps.ite
    | with_reducible apply OutKeeps.next
    | with_reducible apply State.ptCtrlCheck_keeps
    | with_reducible apply State.ptCtrlWrite_keeps
    | (extract_lets)
    | split)

theorem execTestExit_keeps {r_ : Prop} {z s : State} (p v : Nat) (hk : Keeps r_ z s) : OutKeeps r_ z (execTestExit p v s) := by
  unfold execTestExit
  repeat' (first
    | with_reducible assumption
    | intro _
    | with_reducible apply OutKeeps.ite
    | with_reducible apply Keeps.ite
    | with_reducible apply OutKeeps.next
    | with_reducible apply State.ptCtrlCheck_keeps
    | with_reducible apply State.ptCtrlWrite_keeps
    | (extract_lets)
    | split)

theorem execSleepMaskWrite_keeps {r_ : Prop} {z s : State} (p m : Nat) (hk : Keeps r_ z s) : OutKeeps r_ z (execSleepMaskWrite p m
    s) := by
  unfold execSleepMaskWrite
  repeat' (first
    | with_reducible assumption
    | intro _
    | with_reducible apply OutKeeps.ite
    | with_reducible apply Keeps.ite
    | with_reducible apply OutKeeps.next
    | with_reducible apply State.sleepMask_keeps
    | (extract_lets)
    | split)

theorem State.flipSymbol_keeps {r_ : Prop} {z s : State} (n : Nat) (hk : Keeps r_ z s) : Keeps r_ z (State.flipSymbol s n) := by
  unfold State.flipSymbol
  repeat' (first
    | with_reducible assumption
    | intro _
    | with_reducible apply State.emit_keeps
    | with_reducible apply State.setLn_keeps
    | (extract_lets)
    | split)

theorem execPrbsInjectOne_keeps {r_ : Prop} {z s : State} (n : Nat) (hk : Keeps r_ z s) : OutKeeps r_ z (execPrbsInjectOne n s) :=
    by
  unfold execPrbsInjectOne
  repeat' (first
    | with_reducible assumption
    | intro _
    | with_reducible apply OutKeeps.ite
    | with_reducible apply Keeps.ite
    | with_reducible apply OutKeeps.next
    | with_reducible apply State.flipSymbol_keeps
    | (extract_lets)
    | split)

theorem execPrbsRateInjection_keeps {r_ : Prop} {z s : State} (n : Nat) (hk : Keeps r_ z s) : OutKeeps r_ z (execPrbsRateInjection
    n s) := by
  unfold execPrbsRateInjection
  repeat' (first
    | with_reducible assumption
    | intro _
    | with_reducible apply OutKeeps.ite
    | with_reducible apply Keeps.ite
    | with_reducible apply OutKeeps.next
    | with_reducible apply State.flipSymbol_keeps
    | with_reducible apply State.setLn_keeps
    | (extract_lets)
    | split)

theorem State.ownSymbols_keeps {r_ : Prop} {z s : State} (n count : Nat) (hk : Keeps r_ z s) : QKeeps r_ z (State.ownSymbols s n
    count) := by
  unfold State.ownSymbols
  repeat' (first
    | with_reducible assumption
    | intro _
    | with_reducible apply QKeeps.ite
    | with_reducible apply Keeps.ite
    | with_reducible apply QKeeps.snd
    | with_reducible apply State.draw_keepsQ
    | with_reducible apply State.setLn_keeps
    | (extract_lets)
    | split
    | with_reducible apply QKeeps.pair
    | (with_reducible refine QKeeps.eq (by assumption) ?_))

theorem execPrbsCheckerLock_keeps {r_ : Prop} {z s : State} (n count low mid top : Nat) (hk : Keeps r_ z s) : OutKeeps r_ z
    (execPrbsCheckerLock n count low mid top s) := by
  unfold execPrbsCheckerLock
  repeat' (first
    | with_reducible assumption
    | intro _
    | with_reducible apply OutKeeps.ite
    | with_reducible apply Keeps.ite
    | with_reducible apply Keeps.foldl
    | with_reducible apply PKeeps.foldl
    | with_reducible apply QKeeps.foldl
    | with_reducible apply PKeeps.fst
    | with_reducible apply QKeeps.snd
    | with_reducible apply State.draw_keepsQ
    | with_reducible apply OutKeeps.next
    | with_reducible apply State.bumpBy_keeps
    | with_reducible apply State.emit_keeps
    | with_reducible apply State.ownSymbols_keeps
    | with_reducible apply State.setLn_keeps
    | (extract_lets)
    | split
    | with_reducible apply PKeeps.pair
    | with_reducible apply QKeeps.pair
    | (with_reducible refine PKeeps.eq (by assumption) ?_)
    | (with_reducible refine QKeeps.eq (by assumption) ?_))

theorem execFecInject_keeps {r_ : Prop} {z s : State} (n : Nat) (hk : Keeps r_ z s) : OutKeeps r_ z (execFecInject n s) := by
  unfold execFecInject
  repeat' (first
    | with_reducible assumption
    | intro _
    | with_reducible apply OutKeeps.ite
    | with_reducible apply Keeps.ite
    | with_reducible apply QKeeps.snd
    | with_reducible apply State.draw_keepsQ
    | with_reducible apply OutKeeps.next
    | with_reducible apply State.drawErrors_keeps
    | with_reducible apply State.emit_keeps
    | with_reducible apply State.put_keeps
    | with_reducible apply State.setLn_keeps
    | (extract_lets)
    | split
    | with_reducible apply QKeeps.pair
    | (with_reducible refine QKeeps.eq (by assumption) ?_))

end Sys2Proof.Machine
end

