-- ==== Sys2Proof/Laws/KeepsMgt.lean ====
section
/-! SUPPORT. Laws/Keeps.lean, for the operations of Machine/Mgt.lean. -/
namespace Sys2Proof.Machine

theorem State.mgTake_keeps {r_ : Prop} {z s : State} (types : List Nat) (hk : Keeps r_ z s) : OptQKeeps r_ z (State.mgTake s
    types) := by
  unfold State.mgTake
  repeat' (first
    | with_reducible assumption
    | intro _
    | with_reducible exact OptQKeeps.none _
    | with_reducible apply OptQKeeps.some
    | (extract_lets)
    | split
    | (with_reducible refine OptQKeeps.eq (by assumption) ?_)
    | with_reducible apply Keeps.upd)

theorem State.bootGo_keeps {r_ : Prop} {z s : State} (req : Requester) (hk : Keeps r_ z s) : Keeps r_ z (State.bootGo s req) := by
  unfold State.bootGo
  repeat' (first
    | with_reducible assumption
    | intro _
    | with_reducible apply Keeps.ite
    | with_reducible apply State.put_keeps
    | (extract_lets)
    | split
    | with_reducible apply Keeps.upd)

theorem execBootMboxGo_keeps {r_ : Prop} {z s : State} (req : Requester) (hk : Keeps r_ z s) : OutKeeps r_ z (execBootMboxGo req
    s) := by
  unfold execBootMboxGo
  repeat' (first
    | with_reducible assumption
    | intro _
    | with_reducible apply OutKeeps.next
    | with_reducible apply State.bootGo_keeps
    | (extract_lets)
    | split)

theorem State.fetched_keeps {r_ : Prop} {z s : State} (src : Nat) (hk : Keeps r_ z s) : Keeps r_ z (State.fetched s src) := by
  unfold State.fetched
  repeat' (first
    | with_reducible assumption
    | intro _
    | with_reducible apply State.put_keeps
    | (extract_lets)
    | split)

theorem execBootImageReadReturn_keeps {r_ : Prop} {z s : State} (r : ReadResult) (hk : Keeps r_ z s) : OutKeeps r_ z
    (execBootImageReadReturn r s) := by
  unfold execBootImageReadReturn
  repeat' (first
    | with_reducible assumption
    | intro _
    | with_reducible apply OutKeeps.ite
    | with_reducible apply Keeps.ite
    | with_reducible apply OutKeeps.next
    | with_reducible apply State.bootFailed_keeps
    | with_reducible apply State.bootRead_keeps
    | with_reducible apply State.fetched_keeps
    | (extract_lets)
    | split
    | with_reducible apply Keeps.upd)

theorem State.portOff_keeps {r_ : Prop} {z s : State} (p : Nat) (hk : Keeps r_ z s) : Keeps r_ z (State.portOff s p) := by
  unfold State.portOff
  repeat' (first
    | with_reducible assumption
    | intro _
    | with_reducible apply State.lanesOff_keeps
    | with_reducible apply State.linkForbid_keeps
    | (extract_lets)
    | split)

/-- The state in which the monitor starts, given the state in which the boot links are off. -/
def State.booted (s : State) (d : Data) : State :=
  let g : Glb := { s.glb with prevMode := 1, cause := 5 }
  let m : Mgt := { s.mgt with image := d, hostGot := Data.empty, goPend := false, fetch := [], inq := [], mon := Mon.reset }
  { s with mode := .monitor, glb := g, mgt := m }.setTime 0 0

theorem State.bootAccept_keeps {r_ : Prop} {s : State} (src : Nat) (d : Data) : ∃ u, Keeps r_ s u ∧ Keeps r_ (u.booted d) (s.bootAccept src d) := by
  unfold State.bootAccept
  extract_lets s1 s2 s3 g0 g m0 m
  refine ⟨s3, Keeps.foldl ?_ ?_, State.emit_keeps _ (Keeps.refl _)⟩
  · repeat' (first
      | with_reducible exact Keeps.refl s
      | with_reducible apply State.put_keeps)
  · intro u p hu
    exact Keeps.ite (fun _ => State.portOff_keeps _ hu) (fun _ => hu)

theorem execFwReqTimeout_keeps {r_ : Prop} {z s : State} (p : Nat) (hk : Keeps r_ z s) : OutKeeps r_ z (execFwReqTimeout p s) :=
    by
  unfold execFwReqTimeout
  repeat' (first
    | with_reducible assumption
    | intro _
    | with_reducible apply OutKeeps.ite
    | with_reducible apply Keeps.ite
    | with_reducible apply OutKeeps.next
    | with_reducible apply State.bootFailed_keeps
    | with_reducible apply State.fwReq_keeps
    | (extract_lets)
    | split)

theorem execFwFetchRetry_keeps {r_ : Prop} {z s : State} (p : Nat) (hk : Keeps r_ z s) : OutKeeps r_ z (execFwFetchRetry p s) :=
    by
  unfold execFwFetchRetry
  repeat' (first
    | with_reducible assumption
    | intro _
    | with_reducible apply OutKeeps.ite
    | with_reducible apply Keeps.ite
    | with_reducible apply OutKeeps.next
    | with_reducible apply State.fabricFetch_keeps
    | (extract_lets)
    | split)

theorem execFwDataRx_keeps {r_ : Prop} {z s : State} (hk : Keeps r_ z s) : OutKeeps r_ z (execFwDataRx s) := by
  unfold execFwDataRx
  repeat' (first
    | with_reducible assumption
    | intro _
    | with_reducible apply OutKeeps.ite
    | with_reducible apply Keeps.ite
    | with_reducible exact OptQKeeps.none _
    | with_reducible apply OptQKeeps.some
    | with_reducible apply OutKeeps.next
    | with_reducible apply State.fetched_keeps
    | with_reducible apply State.fwReq_keeps
    | with_reducible apply State.mgTake_keeps
    | with_reducible apply State.setFetch_keeps
    | (extract_lets)
    | split
    | (with_reducible refine OptQKeeps.eq (by assumption) ?_))

theorem execFwReqRx_keeps {r_ : Prop} {z s : State} (hk : Keeps r_ z s) : OutKeeps r_ z (execFwReqRx s) := by
  unfold execFwReqRx
  repeat' (first
    | with_reducible assumption
    | intro _
    | with_reducible apply OutKeeps.ite
    | with_reducible apply Keeps.ite
    | with_reducible exact OptQKeeps.none _
    | with_reducible apply OptQKeeps.some
    | with_reducible apply OutKeeps.next
    | with_reducible apply State.answer_keeps
    | with_reducible apply State.bump_keeps
    | with_reducible apply State.mgOut_keeps
    | with_reducible apply State.mgTake_keeps
    | (extract_lets)
    | split
    | (with_reducible refine OptQKeeps.eq (by assumption) ?_))

theorem State.setBox_keeps {r_ : Prop} {z s : State} (m : Nat) (b : Mailbox) (hk : Keeps r_ z s) : Keeps r_ z (State.setBox s m b)
    := by
  unfold State.setBox
  repeat' (first
    | with_reducible assumption
    | intro _
    | with_reducible apply State.put_keeps
    | (extract_lets)
    | split
    | with_reducible apply Keeps.upd)

theorem State.boxSend_keeps {r_ : Prop} {z s : State} (op : Nat) (d : Data) (hk : Keeps r_ z s) : Keeps r_ z (State.boxSend s op
    d) := by
  unfold State.boxSend
  repeat' (first
    | with_reducible assumption
    | intro _
    | with_reducible apply Keeps.ite
    | with_reducible apply State.mgSend_keeps
    | (extract_lets)
    | split)

theorem State.boxDone_keeps {r_ : Prop} {z s : State} (m status : Nat) (hk : Keeps r_ z s) : Keeps r_ z (State.boxDone s m status)
    := by
  unfold State.boxDone
  repeat' (first
    | with_reducible assumption
    | intro _
    | with_reducible apply State.put_keeps
    | with_reducible apply State.setBox_keeps
    | (extract_lets)
    | split)

theorem State.boxStart_keeps {r_ : Prop} {z s : State} (m op : Nat) (hk : Keeps r_ z s) : Keeps r_ z (State.boxStart s m op) := by
  unfold State.boxStart
  repeat' (first
    | with_reducible assumption
    | intro _
    | with_reducible apply Keeps.ite
    | with_reducible apply State.boxDone_keeps
    | with_reducible apply State.boxSend_keeps
    | with_reducible apply State.put_keeps
    | with_reducible apply State.setBox_keeps
    | (extract_lets)
    | split)

theorem execMailboxRead_keeps {r_ : Prop} {z s : State} (req : Requester) (m : Nat) (hk : Keeps r_ z s) : OutKeeps r_ z
    (execMailboxRead req m s) := by
  unfold execMailboxRead
  repeat' (first
    | with_reducible assumption
    | intro _
    | with_reducible apply OutKeeps.ite
    | with_reducible apply Keeps.ite
    | with_reducible apply OutKeeps.next
    | with_reducible apply State.boxStart_keeps
    | (extract_lets)
    | split)

theorem execMailboxWrite_keeps {r_ : Prop} {z s : State} (req : Requester) (m : Nat) (hk : Keeps r_ z s) : OutKeeps r_ z
    (execMailboxWrite req m s) := by
  unfold execMailboxWrite
  repeat' (first
    | with_reducible assumption
    | intro _
    | with_reducible apply OutKeeps.ite
    | with_reducible apply Keeps.ite
    | with_reducible apply OutKeeps.next
    | with_reducible apply State.boxStart_keeps
    | (extract_lets)
    | split)

theorem execMailboxMsg_keeps {r_ : Prop} {z s : State} (req : Requester) (m : Nat) (hk : Keeps r_ z s) : OutKeeps r_ z
    (execMailboxMsg req m s) := by
  unfold execMailboxMsg
  repeat' (first
    | with_reducible assumption
    | intro _
    | with_reducible apply OutKeeps.ite
    | with_reducible apply Keeps.ite
    | with_reducible apply OutKeeps.next
    | with_reducible apply State.boxStart_keeps
    | (extract_lets)
    | split)

theorem execMailboxRetry_keeps {r_ : Prop} {z s : State} (m : Nat) (hk : Keeps r_ z s) : OutKeeps r_ z (execMailboxRetry m s) :=
    by
  unfold execMailboxRetry
  repeat' (first
    | with_reducible assumption
    | intro _
    | with_reducible apply OutKeeps.ite
    | with_reducible apply Keeps.ite
    | with_reducible apply OutKeeps.next
    | with_reducible apply State.boxDone_keeps
    | with_reducible apply State.boxSend_keeps
    | with_reducible apply State.setBox_keeps
    | (extract_lets)
    | split)

theorem execMgRespRx_keeps {r_ : Prop} {z s : State} (hk : Keeps r_ z s) : OutKeeps r_ z (execMgRespRx s) := by
  unfold execMgRespRx
  repeat' (first
    | with_reducible assumption
    | intro _
    | with_reducible apply OutKeeps.ite
    | with_reducible apply Keeps.ite
    | with_reducible apply Keeps.foldl
    | with_reducible apply PKeeps.foldl
    | with_reducible apply QKeeps.foldl
    | with_reducible exact OptQKeeps.none _
    | with_reducible apply OptQKeeps.some
    | with_reducible apply OutKeeps.next
    | with_reducible apply State.boxDone_keeps
    | with_reducible apply State.mgTake_keeps
    | with_reducible apply State.setWord_keeps
    | (extract_lets)
    | split
    | (with_reducible refine OptQKeeps.eq (by assumption) ?_))

theorem execMgMsgRx_keeps {r_ : Prop} {z s : State} (hk : Keeps r_ z s) : OutKeeps r_ z (execMgMsgRx s) := by
  unfold execMgMsgRx
  repeat' (first
    | with_reducible assumption
    | intro _
    | with_reducible apply OutKeeps.ite
    | with_reducible apply Keeps.ite
    | with_reducible exact OptQKeeps.none _
    | with_reducible apply OptQKeeps.some
    | with_reducible apply OutKeeps.next
    | with_reducible apply State.emit_keeps
    | with_reducible apply State.mgTake_keeps
    | (extract_lets)
    | split
    | (with_reducible refine OptQKeeps.eq (by assumption) ?_)
    | with_reducible apply Keeps.upd)

theorem State.coreReset_keeps {r_ : Prop} {z s : State} (c : Nat) (hk : Keeps r_ z s) : Keeps r_ z (State.coreReset s c) := by
  unfold State.coreReset
  repeat' (first
    | with_reducible assumption
    | intro _
    | with_reducible apply State.cellResetIdentity_keeps
    | with_reducible apply State.dropCore_keeps
    | with_reducible apply State.flResetIdentity_keeps
    | with_reducible apply State.resetWords_keeps
    | with_reducible apply State.setBox_keeps
    | (extract_lets)
    | split)

theorem State.coreStart_keeps {r_ : Prop} {z s : State} (c : Nat) (hk : Keeps r_ z s) : Keeps r_ z (State.coreStart s c) := by
  unfold State.coreStart
  repeat' (first
    | with_reducible assumption
    | intro _
    | with_reducible apply State.emit_keeps
    | (extract_lets)
    | split)

theorem State.mcCtrlWrite_keeps {r_ : Prop} {z s : State} (req : Requester) (run : Nat) (hk : Keeps r_ z s) : Keeps r_ z
    (State.mcCtrlWrite s req run) := by
  unfold State.mcCtrlWrite
  repeat' (first
    | with_reducible assumption
    | intro _
    | with_reducible apply Keeps.ite
    | with_reducible apply Keeps.foldl
    | with_reducible apply PKeeps.foldl
    | with_reducible apply QKeeps.foldl
    | with_reducible apply PKeeps.fst
    | with_reducible apply State.coreReset_keeps
    | with_reducible apply State.coreStart_keeps
    | with_reducible apply State.put_keeps
    | (extract_lets)
    | split
    | with_reducible apply PKeeps.pair
    | (with_reducible refine PKeeps.eq (by assumption) ?_))

theorem execMcStart_keeps {r_ : Prop} {z s : State} (req : Requester) (core : Nat) (hk : Keeps r_ z s) : OutKeeps r_ z
    (execMcStart req core s) := by
  unfold execMcStart
  repeat' (first
    | with_reducible assumption
    | intro _
    | with_reducible apply OutKeeps.ite
    | with_reducible apply Keeps.ite
    | with_reducible apply OutKeeps.next
    | with_reducible apply State.mcCtrlWrite_keeps
    | (extract_lets)
    | split)

theorem execMcReset_keeps {r_ : Prop} {z s : State} (req : Requester) (core : Nat) (hk : Keeps r_ z s) : OutKeeps r_ z
    (execMcReset req core s) := by
  unfold execMcReset
  repeat' (first
    | with_reducible assumption
    | intro _
    | with_reducible apply OutKeeps.ite
    | with_reducible apply Keeps.ite
    | with_reducible apply OutKeeps.next
    | with_reducible apply State.mcCtrlWrite_keeps
    | (extract_lets)
    | split)

theorem execMcException_keeps {r_ : Prop} {z s : State} (core : Nat) (hk : Keeps r_ z s) : OutKeeps r_ z (execMcException core s)
    := by
  unfold execMcException
  repeat' (first
    | with_reducible assumption
    | intro _
    | with_reducible apply OutKeeps.ite
    | with_reducible apply Keeps.ite
    | with_reducible apply OutKeeps.next
    | with_reducible apply State.coreReset_keeps
    | with_reducible apply State.coreStart_keeps
    | with_reducible apply State.raise_keeps
    | (extract_lets)
    | split)

end Sys2Proof.Machine
end

