-- ==== Sys2Proof/Laws/KeepsWork.lean ====
section
/-! SUPPORT. Laws/Keeps.lean, for the operations of Machine/Work.lean. -/
namespace Sys2Proof.Machine

theorem State.takeEntries_keeps {r_ : Prop} {z s : State} (q : Nat) (v : Sq) (first : RingCtr) (n : Nat) (d : Data) (hk : Keeps r_
    z s) : Keeps r_ z (State.takeEntries s q v first n d) := by
  unfold State.takeEntries
  repeat' (first
    | with_reducible assumption
    | intro _
    | with_reducible apply State.bumpBy_keeps
    | with_reducible apply State.setSq_keeps
    | (extract_lets)
    | split)

theorem State.failUnread_keeps {r_ : Prop} {z s : State} (q : Nat) (v : Sq) (first : RingCtr) (r : Res) (hk : Keeps r_ z s) :
    Keeps r_ z (State.failUnread s q v first r) := by
  unfold State.failUnread
  repeat' (first
    | with_reducible assumption
    | intro _
    | with_reducible apply QKeeps.snd
    | with_reducible apply State.draw_keepsQ
    | with_reducible apply State.draw_keeps
    | with_reducible apply State.setSq_keeps
    | (extract_lets)
    | split
    | with_reducible apply QKeeps.pair
    | (with_reducible refine QKeeps.eq (by assumption) ?_))

theorem State.failEntries_keeps {r_ : Prop} {z s : State} (q : Nat) (v : Sq) (first : RingCtr) (cause : Nat) (hk : Keeps r_ z s) :
    Keeps r_ z (State.failEntries s q v first cause) := by
  unfold State.failEntries
  repeat' (first
    | with_reducible assumption
    | intro _
    | with_reducible apply State.failUnread_keeps
    | (extract_lets)
    | split)

theorem execDescriptorReadReturn_keeps {r_ : Prop} {z s : State} (q : Nat) (r : ReadResult) (hk : Keeps r_ z s) : OutKeeps r_ z
    (execDescriptorReadReturn q r s) := by
  unfold execDescriptorReadReturn
  repeat' (first
    | with_reducible assumption
    | intro _
    | with_reducible apply OutKeeps.ite
    | with_reducible apply Keeps.ite
    | with_reducible apply OutKeeps.next
    | with_reducible apply State.failEntries_keeps
    | with_reducible apply State.raise_keeps
    | with_reducible apply State.takeEntries_keeps
    | (extract_lets)
    | split)

theorem execNop_keeps {r_ : Prop} {z s : State} (q : Nat) (hk : Keeps r_ z s) : OutKeeps r_ z (execNop q s) := by
  unfold execNop
  repeat' (first
    | with_reducible assumption
    | intro _
    | with_reducible apply OutKeeps.next
    | with_reducible apply State.finishEntry_keeps
    | (extract_lets)
    | split)

end Sys2Proof.Machine
end

