-- ==== Sys2Proof/Laws/KeepsFaults.lean ====
section
/-! SUPPORT. Laws/Keeps.lean, for the operations of Machine/Faults.lean. -/
namespace Sys2Proof.Machine

theorem State.clearStatus_keeps {r_ : Prop} {z s : State} (code l : Nat) (hk : Keeps r_ z s) : Keeps r_ z (State.clearStatus s
    code l) := by
  unfold State.clearStatus
  repeat' (first
    | with_reducible assumption
    | intro _
    | with_reducible apply Keeps.ite
    | with_reducible apply State.setBank_keeps
    | with_reducible apply State.setSrc_keeps
    | (extract_lets)
    | split)

theorem State.statusWrite_keeps {r_ : Prop} {z s : State} (code k v : Nat) (hk : Keeps r_ z s) : Keeps r_ z (State.statusWrite s
    code k v) := by
  unfold State.statusWrite
  repeat' (first
    | with_reducible assumption
    | intro _
    | with_reducible apply Keeps.foldl
    | with_reducible apply PKeeps.foldl
    | with_reducible apply QKeeps.foldl
    | with_reducible apply State.clearStatus_keeps
    | (extract_lets)
    | split)

theorem State.sqForced_keeps {r_ : Prop} {z s : State} (q code : Nat) (hk : Keeps r_ z s) : Keeps r_ z (State.sqForced s q code)
    := by
  unfold State.sqForced
  repeat' (first
    | with_reducible assumption
    | intro _
    | with_reducible apply Keeps.ite
    | with_reducible apply State.fetched_keeps
    | with_reducible apply State.onSq_keeps
    | (extract_lets)
    | split)

theorem State.someCtx_keeps {r_ : Prop} {z s : State} (region : Nat) (hk : Keeps r_ z s) : QKeeps r_ z (State.someCtx s region) :=
    by
  unfold State.someCtx
  repeat' (first
    | with_reducible assumption
    | intro _
    | with_reducible apply QKeeps.ite
    | with_reducible apply Keeps.ite
    | with_reducible apply QKeeps.snd
    | with_reducible apply State.draw_keepsQ
    | with_reducible apply State.draw_keeps
    | (extract_lets)
    | split
    | with_reducible apply QKeeps.pair
    | (with_reducible refine QKeeps.eq (by assumption) ?_))

theorem State.forcedOn_keeps {r_ : Prop} {z s : State} (code l obj : Nat) (hk : Keeps r_ z s) : OptKeeps r_ z (State.forcedOn s
    code l obj) := by
  unfold State.forcedOn
  repeat' (first
    | with_reducible assumption
    | intro _
    | with_reducible apply OptKeeps.ite
    | with_reducible apply Keeps.ite
    | with_reducible apply Keeps.foldl
    | with_reducible apply PKeeps.foldl
    | with_reducible apply QKeeps.foldl
    | with_reducible apply PKeeps.fst
    | with_reducible apply QKeeps.snd
    | with_reducible apply State.draw_keepsQ
    | with_reducible exact OptKeeps.none _
    | with_reducible apply OptKeeps.some
    | with_reducible apply State.applyMasks_keeps
    | with_reducible apply State.beginAttempt_keeps
    | with_reducible apply State.bump_keeps
    | with_reducible apply State.bumpIf_keeps
    | with_reducible apply State.cancelPosted_keeps
    | with_reducible apply State.coreReset_keeps
    | with_reducible apply State.coreStart_keeps
    | with_reducible apply State.ctxError_keeps
    | with_reducible apply State.ctxFail_keeps
    | with_reducible apply State.draw_keeps
    | with_reducible apply State.dropLane_keeps
    | with_reducible apply State.dropOver_keeps
    | with_reducible apply State.exhaustForced_keeps
    | with_reducible apply State.failEntries_keeps
    | with_reducible apply State.failUnread_keeps
    | with_reducible apply State.fetched_keeps
    | with_reducible apply State.finishEntry_keeps
    | with_reducible apply State.finishOp_keeps
    | with_reducible apply State.flFinish_keeps
    | with_reducible apply State.frame_keeps
    | with_reducible apply State.linkDown_keeps
    | with_reducible apply State.onCtx_keeps
    | with_reducible apply State.onRma_keeps
    | with_reducible apply State.onSq_keeps
    | with_reducible apply State.pfKill_keeps
    | with_reducible apply State.pllQuiet_keeps
    | with_reducible apply State.put_keeps
    | with_reducible apply State.recordBad_keeps
    | with_reducible apply State.saveLost_keeps
    | with_reducible apply State.sendFrames_keeps
    | with_reducible apply State.setCell_keeps
    | with_reducible apply State.setCq_keeps
    | with_reducible apply State.setLn_keeps
    | with_reducible apply State.setMeter_keeps
    | with_reducible apply State.setPosted_keeps
    | with_reducible apply State.setPp_keeps
    | with_reducible apply State.setRec_keeps
    | with_reducible apply State.setShaper_keeps
    | with_reducible apply State.setXu_keeps
    | with_reducible apply State.someCtx_keeps
    | with_reducible apply State.sqError_keeps
    | with_reducible apply State.sqForced_keeps
    | with_reducible apply State.treeError_keeps
    | with_reducible apply State.treeFail_keeps
    | (extract_lets)
    | split
    | with_reducible apply PKeeps.pair
    | with_reducible apply QKeeps.pair
    | (with_reducible refine PKeeps.eq (by assumption) ?_)
    | (with_reducible refine QKeeps.eq (by assumption) ?_)
    | (with_reducible refine OptKeeps.eq (by assumption) ?_)
    | with_reducible apply Keeps.upd)

theorem State.forcedEvent_keeps {r_ : Prop} {z s : State} (code l : Nat) (hk : Keeps r_ z s) : Keeps r_ z (State.forcedEvent s
    code l) := by
  unfold State.forcedEvent
  repeat' (first
    | with_reducible assumption
    | intro _
    | with_reducible apply Keeps.ite
    | with_reducible exact OptKeeps.none _
    | with_reducible apply OptKeeps.some
    | with_reducible apply State.forcedOn_keeps
    | with_reducible apply State.latch_keeps
    | with_reducible apply State.mergeEvent_keeps
    | with_reducible apply State.miss_keeps
    | with_reducible apply State.setBank_keeps
    | with_reducible apply State.setSrc_keeps
    | (extract_lets)
    | split
    | (with_reducible refine OptKeeps.eq (by assumption) ?_))

theorem State.forceBit_keeps {r_ : Prop} {z s : State} (code l : Nat) (v : Bool) (hk : Keeps r_ z s) : Keeps r_ z (State.forceBit
    s code l v) := by
  unfold State.forceBit
  repeat' (first
    | with_reducible assumption
    | intro _
    | with_reducible apply Keeps.ite
    | with_reducible apply State.forcedEvent_keeps
    | with_reducible apply State.pllFree_keeps
    | with_reducible apply State.setSrc_keeps
    | (extract_lets)
    | split)

theorem State.forceWrite_keeps {r_ : Prop} {z s : State} (code k v : Nat) (hk : Keeps r_ z s) : Keeps r_ z (State.forceWrite s
    code k v) := by
  unfold State.forceWrite
  repeat' (first
    | with_reducible assumption
    | intro _
    | with_reducible apply Keeps.foldl
    | with_reducible apply PKeeps.foldl
    | with_reducible apply QKeeps.foldl
    | with_reducible apply State.forceBit_keeps
    | (extract_lets)
    | split)

theorem State.forceTick_keeps {r_ : Prop} {z s : State} (hk : Keeps r_ z s) : Keeps r_ z (State.forceTick s) := by
  unfold State.forceTick
  repeat' (first
    | with_reducible assumption
    | intro _
    | with_reducible apply Keeps.foldl
    | with_reducible apply PKeeps.foldl
    | with_reducible apply QKeeps.foldl
    | with_reducible apply PKeeps.fst
    | with_reducible apply QKeeps.snd
    | with_reducible apply State.draw_keepsQ
    | with_reducible apply State.forcedEvent_keeps
    | with_reducible apply State.setSrc_keeps
    | (extract_lets)
    | split
    | with_reducible apply PKeeps.pair
    | with_reducible apply QKeeps.pair
    | (with_reducible refine PKeeps.eq (by assumption) ?_)
    | (with_reducible refine QKeeps.eq (by assumption) ?_))

theorem State.injectWrite_keeps {r_ : Prop} {z s : State} (code v : Nat) (hk : Keeps r_ z s) : Keeps r_ z (State.injectWrite s
    code v) := by
  unfold State.injectWrite
  repeat' (first
    | with_reducible assumption
    | intro _
    | with_reducible apply Keeps.ite
    | with_reducible apply Keeps.foldl
    | with_reducible apply PKeeps.foldl
    | with_reducible apply QKeeps.foldl
    | with_reducible apply State.miss_keeps
    | with_reducible apply State.setBank_keeps
    | with_reducible apply State.setSrc_keeps
    | (extract_lets)
    | split)

theorem State.forcedNext_keeps {r_ : Prop} {z s : State} (code l obj : Nat) (hk : Keeps r_ z s) : OptKeeps r_ z (State.forcedNext
    s code l obj) := by
  unfold State.forcedNext
  repeat' (first
    | with_reducible assumption
    | intro _
    | with_reducible apply OptKeeps.ite
    | with_reducible apply Keeps.ite
    | with_reducible apply QKeeps.snd
    | with_reducible apply State.draw_keepsQ
    | with_reducible exact OptKeeps.none _
    | with_reducible apply OptKeeps.some
    | with_reducible apply State.completeRecv_keeps
    | with_reducible apply State.draw_keeps
    | with_reducible apply State.endAtomic_keeps
    | with_reducible apply State.finishOp_keeps
    | with_reducible apply State.freeHdr_keeps
    | with_reducible apply State.onMch_keeps
    | with_reducible apply State.onRma_keeps
    | with_reducible apply State.rmaFail_keeps
    | with_reducible apply State.setOp_keeps
    | with_reducible apply State.unland_keeps
    | with_reducible apply State.walkBad_keeps
    | (extract_lets)
    | split
    | with_reducible apply QKeeps.pair
    | (with_reducible refine QKeeps.eq (by assumption) ?_)
    | (with_reducible refine OptKeeps.eq (by assumption) ?_))

theorem execForcedConsequence_keeps {r_ : Prop} {z s : State} (g obj : Nat) (hk : Keeps r_ z s) : OutKeeps r_ z
    (execForcedConsequence g obj s) := by
  unfold execForcedConsequence
  repeat' (first
    | with_reducible assumption
    | intro _
    | with_reducible apply OutKeeps.ite
    | with_reducible apply Keeps.ite
    | with_reducible exact OptKeeps.none _
    | with_reducible apply OptKeeps.some
    | with_reducible apply OutKeeps.next
    | with_reducible apply State.forcedNext_keeps
    | with_reducible apply State.setSrc_keeps
    | with_reducible apply State.settle_keeps
    | (extract_lets)
    | split
    | (with_reducible refine OptKeeps.eq (by assumption) ?_))

theorem State.bankWrite_keeps {r_ : Prop} {z s : State} (code o v : Nat) (hk : Keeps r_ z s) : Keeps r_ z (State.bankWrite s code
    o v) := by
  unfold State.bankWrite
  repeat' (first
    | with_reducible assumption
    | intro _
    | with_reducible apply Keeps.ite
    | with_reducible apply Keeps.foldl
    | with_reducible apply PKeeps.foldl
    | with_reducible apply QKeeps.foldl
    | with_reducible apply State.forceWrite_keeps
    | with_reducible apply State.injectWrite_keeps
    | with_reducible apply State.setBank_keeps
    | with_reducible apply State.setSrc_keeps
    | with_reducible apply State.statusWrite_keeps
    | (extract_lets)
    | split)

end Sys2Proof.Machine
end

