-- ==== Sys2Proof/Laws/KeepsReadback.lean ====
section
/-! SUPPORT. Laws/Keeps.lean, for the operations of Machine/Readback.lean. -/
namespace Sys2Proof.Machine

theorem State.rbStore_keeps {r_ : Prop} {z s : State} (off : Nat) (d : Data) (hk : Keeps r_ z s) : Keeps r_ z (State.rbStore s off
    d) := by
  unfold State.rbStore
  repeat' (first
    | with_reducible assumption
    | intro _
    | with_reducible apply Keeps.foldl
    | with_reducible apply PKeeps.foldl
    | with_reducible apply QKeeps.foldl
    | with_reducible apply State.setWord_keeps
    | (extract_lets)
    | split)

theorem State.rbPut_keeps {r_ : Prop} {z s : State} (b r i : Nat) (row : RbRow) (hk : Keeps r_ z s) : Keeps r_ z (State.rbPut s b
    r i row) := by
  unfold State.rbPut
  repeat' (first
    | with_reducible assumption
    | intro _
    | with_reducible apply Keeps.ite
    | with_reducible apply State.rbStore_keeps
    | (extract_lets)
    | split)

theorem State.captureRows_keeps {r_ : Prop} {z s : State} (b v : Nat) (hk : Keeps r_ z s) : Keeps r_ z (State.captureRows s b v)
    := by
  unfold State.captureRows
  repeat' (first
    | with_reducible assumption
    | intro _
    | with_reducible apply Keeps.foldl
    | with_reducible apply PKeeps.foldl
    | with_reducible apply QKeeps.foldl
    | with_reducible apply PKeeps.fst
    | with_reducible apply QKeeps.snd
    | with_reducible apply State.draw_keepsQ
    | with_reducible apply State.draw_keeps
    | with_reducible apply State.put_keeps
    | with_reducible apply State.rbPut_keeps
    | (extract_lets)
    | split
    | with_reducible apply PKeeps.pair
    | with_reducible apply QKeeps.pair
    | (with_reducible refine PKeeps.eq (by assumption) ?_)
    | (with_reducible refine QKeeps.eq (by assumption) ?_)
    | with_reducible apply Keeps.upd)

theorem State.capture_keeps {r_ : Prop} {z s : State} (b v : Nat) (hk : Keeps r_ z s) : Keeps r_ z (State.capture s b v) := by
  unfold State.capture
  repeat' (first
    | with_reducible assumption
    | intro _
    | with_reducible apply Keeps.ite
    | with_reducible apply State.badAccess_keeps
    | with_reducible apply State.captureRows_keeps
    | (extract_lets)
    | split)

end Sys2Proof.Machine
end

