-- ==== Sys2Proof/Laws/KeepsFnCmd.lean ====
section
/-! SUPPORT. Laws/Keeps.lean, for the operations of Machine/FnCmd.lean. -/
namespace Sys2Proof.Machine

theorem State.fnDone_keeps {r_ : Prop} {z s : State} (f status detail : Nat) (hk : Keeps r_ z s) : Keeps r_ z (State.fnDone s f
    status detail) := by
  unfold State.fnDone
  repeat' (first
    | with_reducible assumption
    | intro _
    | with_reducible apply State.setFn_keeps
    | (extract_lets)
    | split)

theorem State.fnWrite_keeps {r_ : Prop} {z s : State} (f op : Nat) (run : State → State) (h_run : ∀ u0, Keeps r_ z u0 → Keeps r_ z
    (run u0)) (hk : Keeps r_ z s) : Keeps r_ z (State.fnWrite s f op run) := by
  unfold State.fnWrite
  repeat' (first
    | with_reducible assumption
    | intro _
    | with_reducible apply Keeps.ite
    | with_reducible apply State.setFn_keeps
    | with_reducible apply h_run
    | (extract_lets)
    | split)

theorem State.fnAct_keeps {r_ : Prop} {z s : State} (f : Nat) (check : Option Nat) (act : State → State) (h_act : ∀ u0, Keeps r_ z
    u0 → Keeps r_ z (act u0)) (hk : Keeps r_ z s) : Keeps r_ z (State.fnAct s f check act) := by
  unfold State.fnAct
  repeat' (first
    | with_reducible assumption
    | intro _
    | with_reducible apply State.fnDone_keeps
    | with_reducible apply h_act
    | (extract_lets)
    | split)

theorem State.epCreate_keeps {r_ : Prop} {z s : State} (f : Nat) (hk : Keeps r_ z s) : Keeps r_ z (State.epCreate s f) := by
  unfold State.epCreate
  repeat' (first
    | with_reducible assumption
    | intro _
    | with_reducible apply State.fnAct_keeps
    | with_reducible apply State.setEp_keeps
    | (extract_lets)
    | split)

theorem execEpCreate_keeps {r_ : Prop} {z s : State} (f : Nat) (hk : Keeps r_ z s) : OutKeeps r_ z (execEpCreate f s) := by
  unfold execEpCreate
  repeat' (first
    | with_reducible assumption
    | intro _
    | with_reducible apply OutKeeps.next
    | with_reducible apply State.epCreate_keeps
    | with_reducible apply State.fnWrite_keeps
    | (extract_lets)
    | split)

theorem State.cancelReceives_keeps {r_ : Prop} {z s : State} (e : Nat) (hk : Keeps r_ z s) : Keeps r_ z (State.cancelReceives s e)
    := by
  unfold State.cancelReceives
  repeat' (first
    | with_reducible assumption
    | intro _
    | with_reducible apply Keeps.foldl
    | with_reducible apply PKeeps.foldl
    | with_reducible apply QKeeps.foldl
    | with_reducible apply State.cancelPosted_keeps
    | with_reducible apply State.dropOver_keeps
    | with_reducible apply State.endWalk_keeps
    | with_reducible apply State.setOver_keeps
    | with_reducible apply State.setPosted_keeps
    | (extract_lets)
    | split)

theorem State.teardownHdr_keeps {r_ : Prop} {z s : State} (i : Nat) (h : MHdr) (hk : Keeps r_ z s) : Keeps r_ z (State.teardownHdr
    s i h) := by
  unfold State.teardownHdr
  repeat' (first
    | with_reducible assumption
    | intro _
    | with_reducible apply Keeps.ite
    | with_reducible apply State.completeRecv_keeps
    | with_reducible apply State.freeHdr_keeps
    | with_reducible apply State.sendRvGet_keeps
    | with_reducible apply State.unland_keeps
    | (extract_lets)
    | split)

theorem State.returnLandings_keeps {r_ : Prop} {z s : State} (e : Nat) (hk : Keeps r_ z s) : Keeps r_ z (State.returnLandings s e)
    := by
  unfold State.returnLandings
  repeat' (first
    | with_reducible assumption
    | intro _
    | with_reducible apply Keeps.foldl
    | with_reducible apply PKeeps.foldl
    | with_reducible apply QKeeps.foldl
    | with_reducible apply PKeeps.fst
    | with_reducible apply QKeeps.snd
    | with_reducible apply State.draw_keepsQ
    | with_reducible apply State.onMch_keeps
    | with_reducible apply State.returnLanding_keeps
    | (extract_lets)
    | split
    | with_reducible apply PKeeps.pair
    | with_reducible apply QKeeps.pair
    | (with_reducible refine PKeeps.eq (by assumption) ?_)
    | (with_reducible refine QKeeps.eq (by assumption) ?_))

theorem State.dropOrders_keeps {r_ : Prop} {z s : State} (e : Nat) (hk : Keeps r_ z s) : Keeps r_ z (State.dropOrders s e) := by
  unfold State.dropOrders
  repeat' (first
    | with_reducible assumption
    | intro _
    | with_reducible apply State.onMch_keeps
    | (extract_lets)
    | split)

theorem State.teardown_keeps {r_ : Prop} {z s : State} (e : Nat) (hk : Keeps r_ z s) : Keeps r_ z (State.teardown s e) := by
  unfold State.teardown
  repeat' (first
    | with_reducible assumption
    | intro _
    | with_reducible apply Keeps.foldl
    | with_reducible apply PKeeps.foldl
    | with_reducible apply QKeeps.foldl
    | with_reducible apply PKeeps.fst
    | with_reducible apply QKeeps.snd
    | with_reducible apply State.draw_keepsQ
    | with_reducible apply State.cancelReceives_keeps
    | with_reducible apply State.dropOrders_keeps
    | with_reducible apply State.returnLandings_keeps
    | with_reducible apply State.teardownHdr_keeps
    | (extract_lets)
    | split
    | with_reducible apply PKeeps.pair
    | with_reducible apply QKeeps.pair
    | (with_reducible refine PKeeps.eq (by assumption) ?_)
    | (with_reducible refine QKeeps.eq (by assumption) ?_))

theorem State.epDestroy_keeps {r_ : Prop} {z s : State} (f : Nat) (hk : Keeps r_ z s) : Keeps r_ z (State.epDestroy s f) := by
  unfold State.epDestroy
  repeat' (first
    | with_reducible assumption
    | intro _
    | with_reducible apply State.colLeaveAll_keeps
    | with_reducible apply State.fnDone_keeps
    | with_reducible apply State.setEp_keeps
    | with_reducible apply State.teardown_keeps
    | (extract_lets)
    | split)

theorem execEpDestroy_keeps {r_ : Prop} {z s : State} (f : Nat) (hk : Keeps r_ z s) : OutKeeps r_ z (execEpDestroy f s) := by
  unfold execEpDestroy
  repeat' (first
    | with_reducible assumption
    | intro _
    | with_reducible apply OutKeeps.next
    | with_reducible apply State.epDestroy_keeps
    | with_reducible apply State.fnWrite_keeps
    | (extract_lets)
    | split)

theorem State.removeEp_keeps {r_ : Prop} {z s : State} (e : Nat) (hk : Keeps r_ z s) : Keeps r_ z (State.removeEp s e) := by
  unfold State.removeEp
  repeat' (first
    | with_reducible assumption
    | intro _
    | with_reducible apply Keeps.ite
    | (extract_lets)
    | split
    | with_reducible apply Keeps.upd)

theorem execEpDestroyComplete_keeps {r_ : Prop} {z s : State} (f : Nat) (hk : Keeps r_ z s) : OutKeeps r_ z (execEpDestroyComplete
    f s) := by
  unfold execEpDestroyComplete
  repeat' (first
    | with_reducible assumption
    | intro _
    | with_reducible apply OutKeeps.ite
    | with_reducible apply Keeps.ite
    | with_reducible apply OutKeeps.next
    | with_reducible apply State.fnDone_keeps
    | with_reducible apply State.removeEp_keeps
    | with_reducible apply State.teardown_keeps
    | (extract_lets)
    | split)

theorem execEpQuarantineEnd_keeps {r_ : Prop} {z s : State} (e : Nat) (hk : Keeps r_ z s) : OutKeeps r_ z (execEpQuarantineEnd e
    s) := by
  unfold execEpQuarantineEnd
  repeat' (first
    | with_reducible assumption
    | intro _
    | with_reducible apply OutKeeps.ite
    | with_reducible apply Keeps.ite
    | with_reducible apply OutKeeps.next
    | (extract_lets)
    | split
    | with_reducible apply Keeps.upd)

theorem State.sqCreate_keeps {r_ : Prop} {z s : State} (f : Nat) (hk : Keeps r_ z s) : Keeps r_ z (State.sqCreate s f) := by
  unfold State.sqCreate
  repeat' (first
    | with_reducible assumption
    | intro _
    | with_reducible apply State.fetched_keeps
    | with_reducible apply State.fnAct_keeps
    | with_reducible apply State.setSq_keeps
    | (extract_lets)
    | split)

theorem execSqCreate_keeps {r_ : Prop} {z s : State} (f : Nat) (hk : Keeps r_ z s) : OutKeeps r_ z (execSqCreate f s) := by
  unfold execSqCreate
  repeat' (first
    | with_reducible assumption
    | intro _
    | with_reducible apply OutKeeps.next
    | with_reducible apply State.fnWrite_keeps
    | with_reducible apply State.sqCreate_keeps
    | (extract_lets)
    | split)

theorem State.sqCommand_keeps {r_ : Prop} {z s : State} (f op : Nat) (state : Sq → Bool) (act : Nat → Sq → State) (h_act : ∀ u0
    u1, Keeps r_ z (act u0 u1)) (hk : Keeps r_ z s) : Keeps r_ z (State.sqCommand s f op state act) := by
  unfold State.sqCommand
  repeat' (first
    | with_reducible assumption
    | intro _
    | with_reducible apply State.fnDone_keeps
    | with_reducible apply h_act
    | (extract_lets)
    | split)

theorem execSqDestroy_keeps {r_ : Prop} {z s : State} (f : Nat) (hk : Keeps r_ z s) : OutKeeps r_ z (execSqDestroy f s) := by
  unfold execSqDestroy
  repeat' (first
    | with_reducible assumption
    | intro _
    | with_reducible apply OutKeeps.next
    | with_reducible apply State.fnWrite_keeps
    | with_reducible apply State.setSq_keeps
    | with_reducible apply State.sqCommand_keeps
    | (extract_lets)
    | split)

theorem execSqDestroyComplete_keeps {r_ : Prop} {z s : State} (f : Nat) (hk : Keeps r_ z s) : OutKeeps r_ z (execSqDestroyComplete
    f s) := by
  unfold execSqDestroyComplete
  repeat' (first
    | with_reducible assumption
    | intro _
    | with_reducible apply OutKeeps.ite
    | with_reducible apply Keeps.ite
    | with_reducible apply OutKeeps.next
    | with_reducible apply State.fnDone_keeps
    | (extract_lets)
    | split
    | with_reducible apply Keeps.upd)

theorem execSqRestart_keeps {r_ : Prop} {z s : State} (f : Nat) (hk : Keeps r_ z s) : OutKeeps r_ z (execSqRestart f s) := by
  unfold execSqRestart
  repeat' (first
    | with_reducible assumption
    | intro _
    | with_reducible apply OutKeeps.next
    | with_reducible apply State.fetched_keeps
    | with_reducible apply State.fnDone_keeps
    | with_reducible apply State.fnWrite_keeps
    | with_reducible apply State.setSq_keeps
    | with_reducible apply State.settleXlt_keeps
    | with_reducible apply State.sqCommand_keeps
    | (extract_lets)
    | split)

theorem State.cqCreate_keeps {r_ : Prop} {z s : State} (f : Nat) (hk : Keeps r_ z s) : Keeps r_ z (State.cqCreate s f) := by
  unfold State.cqCreate
  repeat' (first
    | with_reducible assumption
    | intro _
    | with_reducible apply Keeps.ite
    | with_reducible apply State.fnAct_keeps
    | with_reducible apply State.setCq_keeps
    | (extract_lets)
    | split)

theorem execCqCreate_keeps {r_ : Prop} {z s : State} (f : Nat) (hk : Keeps r_ z s) : OutKeeps r_ z (execCqCreate f s) := by
  unfold execCqCreate
  repeat' (first
    | with_reducible assumption
    | intro _
    | with_reducible apply OutKeeps.next
    | with_reducible apply State.cqCreate_keeps
    | with_reducible apply State.fnWrite_keeps
    | (extract_lets)
    | split)

theorem execCqDestroy_keeps {r_ : Prop} {z s : State} (f : Nat) (hk : Keeps r_ z s) : OutKeeps r_ z (execCqDestroy f s) := by
  unfold execCqDestroy
  repeat' (first
    | with_reducible assumption
    | intro _
    | with_reducible apply OutKeeps.ite
    | with_reducible apply Keeps.ite
    | with_reducible apply OutKeeps.next
    | with_reducible apply State.fnAct_keeps
    | with_reducible apply State.fnWrite_keeps
    | (extract_lets)
    | split
    | with_reducible apply Keeps.upd)

theorem State.cqReset_keeps {r_ : Prop} {z s : State} (c : Nat) (v : Cq) (start : RingCtr) (hk : Keeps r_ z s) : Keeps r_ z
    (State.cqReset s c v start) := by
  unfold State.cqReset
  repeat' (first
    | with_reducible assumption
    | intro _
    | with_reducible apply Keeps.ite
    | with_reducible apply Keeps.foldl
    | with_reducible apply PKeeps.foldl
    | with_reducible apply QKeeps.foldl
    | with_reducible apply PKeeps.fst
    | with_reducible apply QKeeps.snd
    | with_reducible apply State.draw_keepsQ
    | with_reducible apply State.cqDrainHeld_keeps
    | with_reducible apply State.cqDrainOwed_keeps
    | with_reducible apply State.cqPut_keeps
    | with_reducible apply State.onSq_keeps
    | with_reducible apply State.setCq_keeps
    | (extract_lets)
    | split
    | with_reducible apply PKeeps.pair
    | with_reducible apply QKeeps.pair
    | (with_reducible refine PKeeps.eq (by assumption) ?_)
    | (with_reducible refine QKeeps.eq (by assumption) ?_))

theorem execCqReset_keeps {r_ : Prop} {z s : State} (f : Nat) (hk : Keeps r_ z s) : OutKeeps r_ z (execCqReset f s) := by
  unfold execCqReset
  repeat' (first
    | with_reducible assumption
    | intro _
    | with_reducible apply OutKeeps.next
    | with_reducible apply State.cqReset_keeps
    | with_reducible apply State.fnAct_keeps
    | with_reducible apply State.fnDone_keeps
    | with_reducible apply State.fnWrite_keeps
    | with_reducible apply State.settle_keeps
    | (extract_lets)
    | split)

theorem execEqCreate_keeps {r_ : Prop} {z s : State} (f : Nat) (hk : Keeps r_ z s) : OutKeeps r_ z (execEqCreate f s) := by
  unfold execEqCreate
  repeat' (first
    | with_reducible assumption
    | intro _
    | with_reducible apply OutKeeps.next
    | with_reducible apply State.fnAct_keeps
    | with_reducible apply State.fnDone_keeps
    | with_reducible apply State.fnWrite_keeps
    | with_reducible apply State.setEq_keeps
    | (extract_lets)
    | split)

theorem execEqDestroy_keeps {r_ : Prop} {z s : State} (f : Nat) (hk : Keeps r_ z s) : OutKeeps r_ z (execEqDestroy f s) := by
  unfold execEqDestroy
  repeat' (first
    | with_reducible assumption
    | intro _
    | with_reducible apply OutKeeps.ite
    | with_reducible apply Keeps.ite
    | with_reducible apply OutKeeps.next
    | with_reducible apply State.fnAct_keeps
    | with_reducible apply State.fnDone_keeps
    | with_reducible apply State.fnWrite_keeps
    | (extract_lets)
    | split
    | with_reducible apply Keeps.upd)

theorem execFnCmdUndefined_keeps {r_ : Prop} {z s : State} (f op : Nat) (hk : Keeps r_ z s) : OutKeeps r_ z (execFnCmdUndefined f
    op s) := by
  unfold execFnCmdUndefined
  repeat' (first
    | with_reducible assumption
    | intro _
    | with_reducible apply OutKeeps.ite
    | with_reducible apply Keeps.ite
    | with_reducible apply OutKeeps.next
    | with_reducible apply State.fnDone_keeps
    | with_reducible apply State.fnWrite_keeps
    | (extract_lets)
    | split)

theorem State.fnGroups_keeps {r_ : Prop} {z s : State} (req : Requester) (f v : Nat) (hk : Keeps r_ z s) : Keeps r_ z
    (State.fnGroups s req f v) := by
  unfold State.fnGroups
  repeat' (first
    | with_reducible assumption
    | intro _
    | with_reducible apply Keeps.ite
    | with_reducible apply State.setFn_keeps
    | with_reducible apply State.setWord_keeps
    | (extract_lets)
    | split)

theorem execFnGroupsWrite_keeps {r_ : Prop} {z s : State} (req : Requester) (f v : Nat) (hk : Keeps r_ z s) : OutKeeps r_ z
    (execFnGroupsWrite req f v s) := by
  unfold execFnGroupsWrite
  repeat' (first
    | with_reducible assumption
    | intro _
    | with_reducible apply OutKeeps.next
    | with_reducible apply State.fnGroups_keeps
    | (extract_lets)
    | split)

theorem State.dropMatching_keeps {r_ : Prop} {z s : State} (e : Nat) (hk : Keeps r_ z s) : Keeps r_ z (State.dropMatching s e) :=
    by
  unfold State.dropMatching
  repeat' (first
    | with_reducible assumption
    | intro _
    | with_reducible apply Keeps.foldl
    | with_reducible apply PKeeps.foldl
    | with_reducible apply QKeeps.foldl
    | with_reducible apply QKeeps.snd
    | with_reducible apply State.draw_keepsQ
    | with_reducible apply State.dropOrders_keeps
    | with_reducible apply State.endWalk_keeps
    | with_reducible apply State.freeHdr_keeps
    | with_reducible apply State.freeRv_keeps
    | with_reducible apply State.onMch_keeps
    | with_reducible apply State.setOver_keeps
    | with_reducible apply State.setPosted_keeps
    | (extract_lets)
    | split
    | with_reducible apply QKeeps.pair
    | (with_reducible refine QKeeps.eq (by assumption) ?_))

theorem State.revokeAll_keeps {r_ : Prop} {z s : State} (p : Nat → Bool) (hk : Keeps r_ z s) : Keeps r_ z (State.revokeAll s p) :=
    by
  unfold State.revokeAll
  repeat' (first
    | with_reducible assumption
    | intro _
    | with_reducible apply Keeps.ite
    | with_reducible apply Keeps.foldl
    | with_reducible apply PKeeps.foldl
    | with_reducible apply QKeeps.foldl
    | with_reducible apply PKeeps.fst
    | with_reducible apply QKeeps.snd
    | with_reducible apply State.draw_keepsQ
    | with_reducible apply State.setKey_keeps
    | with_reducible apply State.startRevoke_keeps
    | (extract_lets)
    | split
    | with_reducible apply PKeeps.pair
    | with_reducible apply QKeeps.pair
    | (with_reducible refine PKeeps.eq (by assumption) ?_)
    | (with_reducible refine QKeeps.eq (by assumption) ?_))

theorem State.resetWindows_keeps {r_ : Prop} {z s : State} (f : Nat) (hk : Keeps r_ z s) : Keeps r_ z (State.resetWindows s f) :=
    by
  unfold State.resetWindows
  repeat' (first
    | with_reducible assumption
    | intro _
    | with_reducible apply Keeps.ite
    | with_reducible apply Keeps.foldl
    | with_reducible apply PKeeps.foldl
    | with_reducible apply QKeeps.foldl
    | with_reducible apply State.setWord_keeps
    | (extract_lets)
    | split)

theorem State.dropWindows_keeps {r_ : Prop} {z s : State} (f : Nat) (hk : Keeps r_ z s) : Keeps r_ z (State.dropWindows s f) := by
  unfold State.dropWindows
  repeat' (first
    | with_reducible assumption
    | intro _
    | with_reducible apply Keeps.foldl
    | with_reducible apply PKeeps.foldl
    | with_reducible apply QKeeps.foldl
    | with_reducible apply QKeeps.snd
    | with_reducible apply State.draw_keepsQ
    | with_reducible apply State.completeErr_keeps
    | with_reducible apply State.dropRead_keeps
    | with_reducible apply State.onBrg_keeps
    | with_reducible apply State.pfKill_keeps
    | (extract_lets)
    | split
    | with_reducible apply QKeeps.pair
    | (with_reducible refine QKeeps.eq (by assumption) ?_))

theorem State.dropObjects_keeps {r_ : Prop} {z s : State} (f : Nat) (hk : Keeps r_ z s) : Keeps r_ z (State.dropObjects s f) := by
  unfold State.dropObjects
  repeat' (first
    | with_reducible assumption
    | intro _
    | with_reducible apply Keeps.ite
    | with_reducible apply Keeps.foldl
    | with_reducible apply PKeeps.foldl
    | with_reducible apply QKeeps.foldl
    | with_reducible apply PKeeps.fst
    | with_reducible apply QKeeps.snd
    | with_reducible apply State.draw_keepsQ
    | with_reducible apply State.colLeaveAll_keeps
    | with_reducible apply State.dropMatching_keeps
    | with_reducible apply State.onMch_keeps
    | with_reducible apply State.onRma_keeps
    | with_reducible apply State.removeEp_keeps
    | (extract_lets)
    | split
    | with_reducible apply PKeeps.pair
    | with_reducible apply QKeeps.pair
    | (with_reducible refine PKeeps.eq (by assumption) ?_)
    | (with_reducible refine QKeeps.eq (by assumption) ?_)
    | with_reducible apply Keeps.upd)

theorem State.flrOne_keeps {r_ : Prop} {z s : State} (f : Nat) (hk : Keeps r_ z s) : Keeps r_ z (State.flrOne s f) := by
  unfold State.flrOne
  repeat' (first
    | with_reducible assumption
    | intro _
    | with_reducible apply PKeeps.fst
    | with_reducible apply State.cellResetIdentity_keeps
    | with_reducible apply State.dropObjects_keeps
    | with_reducible apply State.dropReqs_keeps
    | with_reducible apply State.dropWindows_keeps
    | with_reducible apply State.flResetIdentity_keeps
    | with_reducible apply State.invalidateFn_keeps
    | with_reducible apply State.resetWindows_keeps
    | with_reducible apply State.revokeAll_keeps
    | with_reducible apply State.setFn_keeps
    | (extract_lets)
    | split
    | with_reducible apply PKeeps.pair
    | (with_reducible refine PKeeps.eq (by assumption) ?_))

theorem State.loseRegions_keeps {r_ : Prop} {z s : State} (hp : Nat) (hk : Keeps r_ z s) : Keeps r_ z (State.loseRegions s hp) :=
    by
  unfold State.loseRegions
  repeat' (first
    | with_reducible assumption
    | intro _
    | with_reducible apply Keeps.foldl
    | with_reducible apply PKeeps.foldl
    | with_reducible apply QKeeps.foldl
    | with_reducible apply PKeeps.fst
    | with_reducible apply State.regionEnd_keeps
    | (extract_lets)
    | split
    | with_reducible apply PKeeps.pair
    | (with_reducible refine PKeeps.eq (by assumption) ?_)
    | with_reducible apply Keeps.upd)

theorem execFlr_keeps {r_ : Prop} {z s : State} (f : Nat) (hk : Keeps r_ z s) : OutKeeps r_ z (execFlr f s) := by
  unfold execFlr
  repeat' (first
    | with_reducible assumption
    | intro _
    | with_reducible apply OutKeeps.ite
    | with_reducible apply Keeps.ite
    | with_reducible apply Keeps.foldl
    | with_reducible apply PKeeps.foldl
    | with_reducible apply QKeeps.foldl
    | with_reducible apply OutKeeps.next
    | with_reducible apply State.flrOne_keeps
    | with_reducible apply State.loseRegions_keeps
    | with_reducible apply State.settle_keeps
    | (extract_lets)
    | split)

theorem execFlrComplete_keeps {r_ : Prop} {z s : State} (f : Nat) (hk : Keeps r_ z s) : OutKeeps r_ z (execFlrComplete f s) := by
  unfold execFlrComplete
  repeat' (first
    | with_reducible assumption
    | intro _
    | with_reducible apply OutKeeps.ite
    | with_reducible apply Keeps.ite
    | with_reducible apply PKeeps.fst
    | with_reducible apply OutKeeps.next
    | with_reducible apply State.invalidateFn_keeps
    | with_reducible apply State.setFn_keeps
    | (extract_lets)
    | split
    | with_reducible apply PKeeps.pair
    | (with_reducible refine PKeeps.eq (by assumption) ?_))

end Sys2Proof.Machine
end

