-- ==== Sys2Proof/Laws/KeepsSys.lean ====
section
/-! SUPPORT. Laws/Keeps.lean, for the operations of Machine/Sys.lean. -/
namespace Sys2Proof.Machine

/-- What a machine like the one at reset is, but for what outlives a reset. -/
theorem Keeps.fresh {r_ : Prop} {z s t : State} (hk : Keeps r_ z s) (hq : t.pending = s.pending) (ho : s.out <+: t.out) (hf : t.free = s.free)
    (hc : Sys2Proof.canonical t) (hy : Sys2Proof.clockOk t) (hr : r_) (hm : t.mode = .off ∨ t.mode = .strap) (ht : t.glb.trip = s.glb.trip) :
    Keeps r_ z t :=
  ⟨hq.trans hk.queue, hk.outs.trans ho, hf ▸ hk.frees, fun _ => hc, fun _ => hy, .inr ⟨hr, hm⟩, fun _ => .inr ⟨hr, hm⟩, fun k => ht ▸ hk.trip k⟩

theorem reset_canonical : Sys2Proof.canonical State.reset :=
  ⟨Tbl.nil_wf _, Tbl.nil_wf _, Tbl.nil_wf _, Tbl.nil_wf _, Tbl.nil_wf _, Tbl.nil_wf _, Tbl.nil_wf _⟩

theorem reset_clockOk : Sys2Proof.clockOk State.reset := ⟨by decide, by decide⟩

theorem State.enterOff_keeps {r_ : Prop} {z s : State} (hr : r_) (hk : Keeps r_ z s) : Keeps r_ z (State.enterOff s) := by
  unfold State.enterOff
  exact State.emit_keeps _ (Keeps.fresh hk rfl (List.prefix_refl _) rfl reset_canonical reset_clockOk hr (.inl rfl) rfl)

theorem State.enterStrap_keeps {r_ : Prop} {z s : State} (hr : r_) (hk : Keeps r_ z s) : Keeps r_ z (State.enterStrap s) := by
  unfold State.enterStrap
  extract_lets t g0 t1 t2
  have h1 : Keeps r_ z t1 := Keeps.fresh hk rfl (List.prefix_refl _) rfl reset_canonical reset_clockOk hr (.inr rfl) rfl
  have h2 : Keeps r_ z t2 := Keeps.ite (fun _ => State.alignCtrlWrite_keeps _ _ h1) (fun _ => h1)
  exact State.laneStart_keeps _ (State.laneStart_keeps _ h2)

theorem State.fullReset_keeps {r_ : Prop} {z s : State} (hr : r_) (hk : Keeps r_ z s) : Keeps r_ z (State.fullReset s) := by
  unfold State.fullReset
  repeat' (first
    | with_reducible assumption
    | intro _
    | with_reducible apply Keeps.ite
    | with_reducible apply State.enterOff_keeps
    | with_reducible apply State.enterStrap_keeps
    | (extract_lets)
    | split)

theorem State.resetCtrl_keeps {r_ : Prop} {z s : State} (v : Nat) (hr : r_) (hk : Keeps r_ z s) : Keeps r_ z (State.resetCtrl s v)
    := by
  unfold State.resetCtrl
  repeat' (first
    | with_reducible assumption
    | intro _
    | with_reducible apply Keeps.ite
    | with_reducible apply State.badAccess_keeps
    | with_reducible apply State.fullReset_keeps
    | (extract_lets)
    | split)

theorem State.hostPortReset_keeps {r_ : Prop} {z s : State} (h : Nat) (hk : Keeps r_ z s) : Keeps r_ z (State.hostPortReset s h)
    := by
  unfold State.hostPortReset
  repeat' (first
    | with_reducible assumption
    | intro _
    | with_reducible apply Keeps.ite
    | with_reducible apply Keeps.foldl
    | with_reducible apply PKeeps.foldl
    | with_reducible apply QKeeps.foldl
    | with_reducible apply State.emptyUnit_keeps
    | with_reducible apply State.endTables_keeps
    | with_reducible apply State.flrOne_keeps
    | with_reducible apply State.loseRegions_keeps
    | with_reducible apply State.onRma_keeps
    | with_reducible apply State.put_keeps
    | with_reducible apply State.resetWords_keeps
    | with_reducible apply State.revokeAll_keeps
    | with_reducible apply State.setBox_keeps
    | with_reducible apply State.setXu_keeps
    | (extract_lets)
    | split
    | with_reducible apply Keeps.upd)

theorem State.modeReq_keeps {r_ : Prop} {z s : State} (identity v : Nat) (hk : Keeps r_ z s) : Keeps r_ z (State.modeReq s
    identity v) := by
  unfold State.modeReq
  repeat' (first
    | with_reducible assumption
    | intro _
    | with_reducible apply Keeps.ite
    | (extract_lets)
    | split
    | with_reducible apply Keeps.updGlb
    | with_reducible apply Keeps.upd)

theorem State.modeRefuse_keeps {r_ : Prop} {z s : State} (target : Nat) (hk : Keeps r_ z s) : Keeps r_ z (State.modeRefuse s
    target) := by
  unfold State.modeRefuse
  repeat' (first
    | with_reducible assumption
    | intro _
    | with_reducible apply State.raise_keeps
    | (extract_lets)
    | split
    | with_reducible apply Keeps.updGlb
    | with_reducible apply Keeps.upd)

theorem State.recheckPhy_keeps {r_ : Prop} {z s : State} (hk : Keeps r_ z s) : Keeps r_ z (State.recheckPhy s) := by
  unfold State.recheckPhy
  repeat' (first
    | with_reducible assumption
    | intro _
    | with_reducible apply Keeps.ite
    | with_reducible apply Keeps.foldl
    | with_reducible apply PKeeps.foldl
    | with_reducible apply QKeeps.foldl
    | with_reducible apply State.forbidLanes_keeps
    | with_reducible apply State.laneStart_keeps
    | with_reducible apply State.linkForbid_keeps
    | (extract_lets)
    | split)

theorem State.clearAllCounts_keeps {r_ : Prop} {z s : State} (hk : Keeps r_ z s) : Keeps r_ z (State.clearAllCounts s) := by
  unfold State.clearAllCounts
  repeat' (first
    | with_reducible assumption
    | intro _
    | with_reducible apply State.clearCounts_keeps
    | (extract_lets)
    | split)

/-- The state on which a mode change works: the new mode is set. -/
def State.moded (s : State) (m : Mode) : State :=
  { s with mode := m, glb := { s.glb with prevMode := s.mode.code, cause := 1, reqPending := false } }

theorem State.enterMode_keeps {r_ : Prop} {s : State} (m : Mode) : Keeps r_ (s.moded m) (s.enterMode m) := by
  unfold State.enterMode
  extract_lets g0 s1
  have h1 : Keeps r_ (s.moded m) s1 := Keeps.refl _
  clear_value s1
  cases m
  case monitor => exact State.recheckPhy_keeps h1
  case train =>
    exact State.recheckPhy_keeps (State.clearAllCounts_keeps (Keeps.ite (fun _ => Keeps.updCrs h1) (fun _ => h1)))
  case transit =>
    have h2 := State.routeEnterTransit_keeps (Keeps.with_glb h1 { s1.glb with lock := true } (fun _ => rfl) id)
    exact State.recheckPhy_keeps (Keeps.ite (fun _ => State.sendCongRows_keeps h2) (fun _ => h2))
  case drain => exact State.cqResume_keeps (State.clearAllCounts_keeps h1)
  case service => exact State.cqResume_keeps h1
  all_goals exact h1

theorem State.sendFence_keeps {r_ : Prop} {z s : State} (p : Nat) (hk : Keeps r_ z s) : Keeps r_ z (State.sendFence s p) := by
  unfold State.sendFence
  repeat' (first
    | with_reducible assumption
    | intro _
    | with_reducible apply State.sendBrick_keeps
    | (extract_lets)
    | split)

theorem State.fenceEvent_keeps {r_ : Prop} {z s : State} (hk : Keeps r_ z s) : Keeps r_ z (State.fenceEvent s) := by
  unfold State.fenceEvent
  repeat' (first
    | with_reducible assumption
    | intro _
    | with_reducible apply Keeps.ite
    | with_reducible apply Keeps.foldl
    | with_reducible apply PKeeps.foldl
    | with_reducible apply QKeeps.foldl
    | with_reducible apply State.eqPost_keeps
    | with_reducible apply State.msixSend_keeps
    | with_reducible apply State.raiseMute_keeps
    | (extract_lets)
    | split)

/-- The state on which the fence sequence works, given the state after the fence event. -/
def State.fencedFrom (s : State) (cause : Nat) : State :=
  let g : Glb := { s.glb with prevMode := s.mode.code, cause := cause, fencePend := none, fenceFrom := s.crs.course, fenceTxOff := false }
  { s with mode := .fenced, glb := g, lck := { s.lck with recs := [] }, mgt := { s.mgt with mon := { s.mgt.mon with unlocked := false } } }

theorem State.enterFenced_keeps {r_ : Prop} {s : State} (cause : Nat) : ∃ u, Keeps r_ s u ∧ Keeps r_ (u.fencedFrom cause) (s.enterFenced cause) := by
  unfold State.enterFenced
  extract_lets g0 s0 s1 s2 g1 g l0 m0 m1 s3 s4
  have h0 : Keeps r_ s s0 := by
    show Keeps r_ s (match s.glb.reqOld with | some t => _ | none => s)
    split
    · exact State.modeRefuse_keeps _ (Keeps.updGlb (Keeps.refl s))
    · exact Keeps.refl s
  refine ⟨s2, State.fenceEvent_keeps (Keeps.ite (fun _ => State.modeRefuse_keeps _ h0) (fun _ => h0)), ?_⟩
  clear_value s2
  have h3 : Keeps r_ (s2.fencedFrom cause) s3 := Keeps.refl _
  refine State.lanesOff_keeps _ (Keeps.foldl h3 ?_)
  intro u p hu
  repeat' (first
    | with_reducible assumption
    | with_reducible apply State.sendFence_keeps
    | with_reducible apply State.onLk_keeps
    | with_reducible apply State.linkDown_keeps
    | split)

theorem State.swapRefuse_keeps {r_ : Prop} {z s : State} (code : Nat) (hk : Keeps r_ z s) : Keeps r_ z (State.swapRefuse s code)
    := by
  unfold State.swapRefuse
  repeat' (first
    | with_reducible assumption
    | intro _
    | with_reducible apply State.raise_keeps
    | (extract_lets)
    | split
    | with_reducible apply Keeps.updCrs
    | with_reducible apply Keeps.updBoth
    | with_reducible apply Keeps.upd)

theorem State.swapArm_keeps {r_ : Prop} {z s : State} (hk : Keeps r_ z s) : Keeps r_ z (State.swapArm s) := by
  unfold State.swapArm
  repeat' (first
    | with_reducible assumption
    | intro _
    | with_reducible apply Keeps.ite
    | with_reducible apply State.swapRefuse_keeps
    | (extract_lets)
    | split
    | with_reducible apply Keeps.updCrs
    | with_reducible apply Keeps.updBoth
    | with_reducible apply Keeps.upd)

theorem State.swapDisarm_keeps {r_ : Prop} {z s : State} (hk : Keeps r_ z s) : Keeps r_ z (State.swapDisarm s) := by
  unfold State.swapDisarm
  repeat' (first
    | with_reducible assumption
    | intro _
    | with_reducible apply Keeps.ite
    | with_reducible apply State.swapRefuse_keeps
    | (extract_lets)
    | split
    | with_reducible apply Keeps.updCrs
    | with_reducible apply Keeps.updBoth
    | with_reducible apply Keeps.upd)

theorem State.swapCopy_keeps {r_ : Prop} {z s : State} (hk : Keeps r_ z s) : Keeps r_ z (State.swapCopy s) := by
  unfold State.swapCopy
  repeat' (first
    | with_reducible assumption
    | intro _
    | with_reducible apply Keeps.ite
    | with_reducible apply Keeps.foldl
    | with_reducible apply PKeeps.foldl
    | with_reducible apply QKeeps.foldl
    | with_reducible apply PKeeps.fst
    | with_reducible apply State.setKey_keeps
    | with_reducible apply State.swapRefuse_keeps
    | with_reducible apply State.tableWrite_keeps
    | (extract_lets)
    | split
    | with_reducible apply PKeeps.pair
    | (with_reducible refine PKeeps.eq (by assumption) ?_)
    | with_reducible apply Keeps.updCrs
    | with_reducible apply Keeps.updBoth
    | with_reducible apply Keeps.upd)

theorem State.swapCtrl_keeps {r_ : Prop} {z s : State} (v : Nat) (hk : Keeps r_ z s) : Keeps r_ z (State.swapCtrl s v) := by
  unfold State.swapCtrl
  repeat' (first
    | with_reducible assumption
    | intro _
    | with_reducible apply Keeps.ite
    | with_reducible apply State.swapArm_keeps
    | with_reducible apply State.swapCopy_keeps
    | with_reducible apply State.swapDisarm_keeps
    | (extract_lets)
    | split
    | with_reducible apply Keeps.updCrs
    | with_reducible apply Keeps.updBoth
    | with_reducible apply Keeps.upd)

theorem State.copyDone_keeps {r_ : Prop} {z s : State} (hk : Keeps r_ z s) : Keeps r_ z (State.copyDone s) := by
  unfold State.copyDone
  extract_lets a b before mine keys both bothK
  refine State.roleCheck_keeps _ _ ?_
  have h1 : Keeps r_ z { s with sets := both mine } := ?_
  · exact Keeps.updCrs h1
  refine Keeps.with_sets hk _ (fun k => ?_)
  have hm : Tbl.wf resetSet mine := Tbl.filter_wf _ k
  refine Tbl.foldl_ins_wf (fun e => Sys2Proof.Machine.setKey b (e.1 % 2 ^ 26)) (fun e => e.2) mine mine hm (fun x hx => ?_)
  have h := hm.2 x hx
  unfold resetSet at h ⊢
  unfold Sys2Proof.Machine.setKey
  have e : (b % 2 * 2 ^ 26 + x.1 % 2 ^ 26) % 2 ^ 26 = x.1 % 2 ^ 26 := by omega
  rw [e]
  exact h

theorem State.swapNow_keeps {r_ : Prop} {z s : State} (hk : Keeps r_ z s) : Keeps r_ z (State.swapNow s) := by
  unfold State.swapNow
  repeat' (first
    | with_reducible assumption
    | intro _
    | with_reducible apply Keeps.ite
    | with_reducible apply Keeps.foldl
    | with_reducible apply PKeeps.foldl
    | with_reducible apply QKeeps.foldl
    | with_reducible apply PKeeps.fst
    | with_reducible apply QKeeps.snd
    | with_reducible apply State.draw_keepsQ
    | with_reducible apply State.colSwapTree_keeps
    | with_reducible apply State.raise_keeps
    | with_reducible apply State.recheckPhy_keeps
    | with_reducible apply State.refill_keeps
    | with_reducible apply State.sendCongRows_keeps
    | with_reducible apply State.swapBuckets_keeps
    | (extract_lets)
    | split
    | with_reducible apply PKeeps.pair
    | with_reducible apply QKeeps.pair
    | (with_reducible refine PKeeps.eq (by assumption) ?_)
    | (with_reducible refine QKeeps.eq (by assumption) ?_)
    | (with_reducible refine Keeps.with_crs hk _ ?_ ?_)
    | (show s.crs.cycle < 1280; assumption)
    | (show 1 - s.crs.active < 2; omega)
    | with_reducible apply Keeps.updCrs
    | with_reducible apply Keeps.updBoth
    | with_reducible apply Keeps.upd)

end Sys2Proof.Machine
end

