-- ==== Sys2Proof/Laws/KeepsRegRead.lean ====
section
/-! SUPPORT. Laws/Keeps.lean, for the operations of Machine/RegRead.lean. -/
namespace Sys2Proof.Machine

theorem State.noteRead_keeps {r_ : Prop} {z s : State} (req : Requester) (off : Nat) (hk : Keeps r_ z s) : Keeps r_ z
    (State.noteRead s req off) := by
  unfold State.noteRead
  repeat' (first
    | with_reducible assumption
    | intro _
    | with_reducible apply Keeps.ite
    | with_reducible apply State.setXu_keeps
    | (extract_lets)
    | split)

theorem State.barRead_keeps {r_ : Prop} {z s : State} (req : Requester) (off size : Nat) (hk : Keeps r_ z s) : PKeeps r_ z
    (State.barRead s req off size) := by
  unfold State.barRead
  repeat' (first
    | with_reducible assumption
    | intro _
    | with_reducible apply PKeeps.ite
    | with_reducible apply Keeps.ite
    | with_reducible apply PKeeps.fst
    | with_reducible apply State.badAccess_keeps
    | with_reducible apply State.noteRead_keeps
    | (extract_lets)
    | split
    | with_reducible apply PKeeps.pair
    | (with_reducible refine PKeeps.eq (by assumption) ?_)
    | with_reducible apply Keeps.upd)

theorem State.bellRead_keeps {r_ : Prop} {z s : State} (_off _size : Nat) (hk : Keeps r_ z s) : PKeeps r_ z (State.bellRead s _off
    _size) := by
  unfold State.bellRead
  repeat' (first
    | with_reducible assumption
    | intro _
    | with_reducible apply PKeeps.fst
    | (extract_lets)
    | split
    | with_reducible apply PKeeps.pair
    | (with_reducible refine PKeeps.eq (by assumption) ?_))

theorem execLowHalfRead_keeps {r_ : Prop} {z s : State} (req : Requester) (at_ : BarAddr) (size : Nat) (hk : Keeps r_ z s) :
    OutKeeps r_ z (execLowHalfRead req at_ size s) := by
  unfold execLowHalfRead
  repeat' (first
    | with_reducible assumption
    | intro _
    | with_reducible apply OutKeeps.ite
    | with_reducible apply Keeps.ite
    | with_reducible apply PKeeps.fst
    | with_reducible apply OutKeeps.next
    | with_reducible apply State.barRead_keeps
    | with_reducible apply State.bellRead_keeps
    | with_reducible apply State.coreAccess_keeps
    | with_reducible apply State.emit_keeps
    | with_reducible apply State.readRun_keeps
    | (extract_lets)
    | split
    | with_reducible apply PKeeps.pair
    | (with_reducible refine PKeeps.eq (by assumption) ?_))

end Sys2Proof.Machine
end

