-- ==== Sys2Proof/Laws/KeepsRegWrite.lean ====
section
/-! SUPPORT. Laws/Keeps.lean, for the operations of Machine/RegWrite.lean. -/
namespace Sys2Proof.Machine

theorem after_keeps {r_ : Prop} {z s : State} (o : Host.Outcome State Fault Refusal) (ho : OutKeeps r_ z o) (hk : Keeps r_ z s) :
    Keeps r_ z (after s o) := by
  cases o with
  | next t => exact ho.out t rfl
  | fault r => exact hk
  | refused r => exact hk

theorem State.lockCheck_keeps {r_ : Prop} {z s : State} (d : RegDef) (w old v : Nat) (hk : Keeps r_ z s) : Keeps r_ z
    (State.lockCheck s d w old v) := by
  unfold State.lockCheck
  repeat' (first
    | with_reducible assumption
    | intro _
    | with_reducible apply State.lockedNote_keeps
    | (extract_lets)
    | split)

theorem State.deviceIdWrite_keeps {r_ : Prop} {z s : State} (v : Nat) (hk : Keeps r_ z s) : Keeps r_ z (State.deviceIdWrite s v)
    := by
  unfold State.deviceIdWrite
  repeat' (first
    | with_reducible assumption
    | intro _
    | with_reducible apply Keeps.ite
    | with_reducible apply State.badAccess_keeps
    | with_reducible apply State.put_keeps
    | (extract_lets)
    | split
    | with_reducible apply Keeps.updCrs
    | with_reducible apply Keeps.updBoth
    | with_reducible apply Keeps.upd)

theorem State.alignStatusWrite_keeps {r_ : Prop} {z s : State} (v : Nat) (hk : Keeps r_ z s) : Keeps r_ z (State.alignStatusWrite
    s v) := by
  unfold State.alignStatusWrite
  repeat' (first
    | with_reducible assumption
    | intro _
    | (extract_lets)
    | split
    | with_reducible apply Keeps.updCrs
    | with_reducible apply Keeps.updBoth
    | with_reducible apply Keeps.upd)

theorem State.plainWrite_keeps {r_ : Prop} {z s : State} (d : RegDef) (w off v : Nat) (hk : Keeps r_ z s) : Keeps r_ z
    (State.plainWrite s d w off v) := by
  unfold State.plainWrite
  repeat' (first
    | with_reducible assumption
    | intro _
    | with_reducible apply State.setWord_keeps
    | (extract_lets)
    | split)

theorem State.laneCtrlWrite_keeps {r_ : Prop} {z s : State} (d : RegDef) (n off v : Nat) (hk : Keeps r_ z s) : Keeps r_ z
    (State.laneCtrlWrite s d n off v) := by
  unfold State.laneCtrlWrite
  repeat' (first
    | with_reducible assumption
    | intro _
    | with_reducible apply Keeps.ite
    | with_reducible apply OutKeeps.next
    | with_reducible apply after_keeps
    | with_reducible apply execLaneRestart_keeps
    | with_reducible apply State.laneOff_keeps
    | with_reducible apply State.laneStart_keeps
    | with_reducible apply State.plainWrite_keeps
    | with_reducible apply State.testSignal_keeps
    | (extract_lets)
    | split)

theorem State.prbsWrite_keeps {r_ : Prop} {z s : State} (d : RegDef) (n off v : Nat) (hk : Keeps r_ z s) : Keeps r_ z
    (State.prbsWrite s d n off v) := by
  unfold State.prbsWrite
  repeat' (first
    | with_reducible assumption
    | intro _
    | with_reducible apply Keeps.ite
    | with_reducible apply OutKeeps.next
    | with_reducible apply after_keeps
    | with_reducible apply execPrbsInjectOne_keeps
    | with_reducible apply State.plainWrite_keeps
    | with_reducible apply State.setLn_keeps
    | with_reducible apply State.testSignal_keeps
    | (extract_lets)
    | split)

theorem State.linkCtrlWrite_keeps {r_ : Prop} {z s : State} (d : RegDef) (p off v : Nat) (hk : Keeps r_ z s) : Keeps r_ z
    (State.linkCtrlWrite s d p off v) := by
  unfold State.linkCtrlWrite
  repeat' (first
    | with_reducible assumption
    | intro _
    | with_reducible apply Keeps.ite
    | with_reducible apply OutKeeps.next
    | with_reducible apply after_keeps
    | with_reducible apply execLinkReinit_keeps
    | with_reducible apply State.linkForbid_keeps
    | with_reducible apply State.plainWrite_keeps
    | (extract_lets)
    | split)

theorem State.shadowWrite_keeps {r_ : Prop} {z s : State} (d : RegDef) (i w off v : Nat) (hk : Keeps r_ z s) : Keeps r_ z
    (State.shadowWrite s d i w off v) := by
  unfold State.shadowWrite
  repeat' (first
    | with_reducible assumption
    | intro _
    | with_reducible apply Keeps.ite
    | with_reducible apply State.bump_keeps
    | with_reducible apply State.putSetW_keeps
    | with_reducible apply State.roleCheck_keeps
    | with_reducible apply State.setKey_keeps
    | with_reducible apply State.tableWrite_keeps
    | with_reducible apply State.treeWrite_keeps
    | (extract_lets)
    | split)

theorem State.fnCmdWrite_keeps {r_ : Prop} {z s : State} (f v : Nat) (hk : Keeps r_ z s) : Keeps r_ z (State.fnCmdWrite s f v) :=
    by
  unfold State.fnCmdWrite
  repeat' (first
    | with_reducible assumption
    | intro _
    | with_reducible apply OutKeeps.next
    | with_reducible apply after_keeps
    | with_reducible apply execCqCreate_keeps
    | with_reducible apply execCqDestroy_keeps
    | with_reducible apply execCqReset_keeps
    | with_reducible apply execEpCreate_keeps
    | with_reducible apply execEpDestroy_keeps
    | with_reducible apply execEqCreate_keeps
    | with_reducible apply execEqDestroy_keeps
    | with_reducible apply execFnCmdUndefined_keeps
    | with_reducible apply execSqCreate_keeps
    | with_reducible apply execSqDestroy_keeps
    | with_reducible apply execSqRestart_keeps
    | (extract_lets)
    | split)

theorem State.flCmdWrite_keeps {r_ : Prop} {z s : State} (req : Requester) (v : Nat) (hk : Keeps r_ z s) : Keeps r_ z
    (State.flCmdWrite s req v) := by
  unfold State.flCmdWrite
  repeat' (first
    | with_reducible assumption
    | intro _
    | with_reducible apply OutKeeps.next
    | with_reducible apply after_keeps
    | with_reducible apply execFlAcquire_keeps
    | with_reducible apply execFlBreak_keeps
    | with_reducible apply execFlRelease_keeps
    | with_reducible apply execFlRenew_keeps
    | with_reducible apply State.flCommand_keeps
    | (extract_lets)
    | split)

theorem State.windowWrite_keeps {r_ : Prop} {z s : State} (d : RegDef) (f j w v : Nat) (hk : Keeps r_ z s) : Keeps r_ z
    (State.windowWrite s d f j w v) := by
  unfold State.windowWrite
  repeat' (first
    | with_reducible assumption
    | intro _
    | with_reducible apply Keeps.ite
    | with_reducible apply State.badAccess_keeps
    | with_reducible apply State.pfKill_keeps
    | with_reducible apply State.plainWrite_keeps
    | (extract_lets)
    | split)

theorem State.writeUnless_keeps {r_ : Prop} {z s : State} (bad : Bool) (d : RegDef) (w off v : Nat) (hk : Keeps r_ z s) : Keeps r_
    z (State.writeUnless s bad d w off v) := by
  unfold State.writeUnless
  repeat' (first
    | with_reducible assumption
    | intro _
    | with_reducible apply Keeps.ite
    | with_reducible apply State.badAccess_keeps
    | with_reducible apply State.plainWrite_keeps
    | (extract_lets)
    | split)

theorem State.busWrite_keeps {r_ : Prop} {z s : State} (d : RegDef) (b off v : Nat) (hk : Keeps r_ z s) : Keeps r_ z
    (State.busWrite s d b off v) := by
  unfold State.busWrite
  repeat' (first
    | with_reducible assumption
    | intro _
    | with_reducible apply Keeps.ite
    | with_reducible apply State.busEnabled_keeps
    | with_reducible apply State.plainWrite_keeps
    | (extract_lets)
    | split)

theorem State.routeWrite_keeps {r_ : Prop} {z s : State} (d : RegDef) (eid w off v : Nat) (hk : Keeps r_ z s) : Keeps r_ z
    (State.routeWrite s d eid w off v) := by
  unfold State.routeWrite
  repeat' (first
    | with_reducible assumption
    | intro _
    | with_reducible apply State.plainWrite_keeps
    | with_reducible apply State.tableWrite_keeps
    | (extract_lets)
    | split
    | with_reducible apply Keeps.upd)

theorem State.boxWrite_keeps {r_ : Prop} {z s : State} (d : RegDef) (m w off v : Nat) (hk : Keeps r_ z s) : Keeps r_ z
    (State.boxWrite s d m w off v) := by
  unfold State.boxWrite
  repeat' (first
    | with_reducible assumption
    | intro _
    | with_reducible apply Keeps.ite
    | with_reducible apply State.boxStart_keeps
    | with_reducible apply State.plainWrite_keeps
    | (extract_lets)
    | split)

theorem State.regWrite_keeps {r_ : Prop} {z s : State} (req : Requester) (d : RegDef) (i j w off v : Nat) (hr : r_) (hk : Keeps r_
    z s) : Keeps r_ z (State.regWrite s req d i j w off v) := by
  unfold State.regWrite
  repeat' (first
    | with_reducible assumption
    | intro _
    | with_reducible apply Keeps.ite
    | with_reducible apply QKeeps.snd
    | with_reducible apply State.draw_keepsQ
    | with_reducible apply State.alignCtrlWrite_keeps
    | with_reducible apply State.alignStatusWrite_keeps
    | with_reducible apply State.bootGo_keeps
    | with_reducible apply State.boxWrite_keeps
    | with_reducible apply State.bstCmd_keeps
    | with_reducible apply State.busWrite_keeps
    | with_reducible apply State.capture_keeps
    | with_reducible apply State.cellReg_keeps
    | with_reducible apply State.colCmd_keeps
    | with_reducible apply State.deviceIdWrite_keeps
    | with_reducible apply State.draw_keeps
    | with_reducible apply State.flCmdWrite_keeps
    | with_reducible apply State.fnCmdWrite_keeps
    | with_reducible apply State.fnGroups_keeps
    | with_reducible apply State.laneCtrlWrite_keeps
    | with_reducible apply State.lifeWrite_keeps
    | with_reducible apply State.linkCtrlWrite_keeps
    | with_reducible apply State.mcCtrlWrite_keeps
    | with_reducible apply State.modeReq_keeps
    | with_reducible apply State.onLk_keeps
    | with_reducible apply State.plainWrite_keeps
    | with_reducible apply State.poolOff_keeps
    | with_reducible apply State.prbsWrite_keeps
    | with_reducible apply State.ptCtrlWrite_keeps
    | with_reducible apply State.resetCtrl_keeps
    | with_reducible apply State.routeWrite_keeps
    | with_reducible apply State.setFn_keeps
    | with_reducible apply State.setPp_keeps
    | with_reducible apply State.setWord_keeps
    | with_reducible apply State.shadowWrite_keeps
    | with_reducible apply State.swapCtrl_keeps
    | with_reducible apply State.trnCmd_keeps
    | with_reducible apply State.windowWrite_keeps
    | with_reducible apply State.writeUnless_keeps
    | (extract_lets)
    | split
    | with_reducible apply QKeeps.pair
    | (with_reducible refine QKeeps.eq (by assumption) ?_)
    | with_reducible apply Keeps.updGlb
    | with_reducible apply Keeps.upd
    | exact Keeps.with_glb hk _ (fun h => by simp [h]) id)

theorem State.msixWrite_keeps {r_ : Prop} {z s : State} (f k v : Nat) (hk : Keeps r_ z s) : Keeps r_ z (State.msixWrite s f k v)
    := by
  unfold State.msixWrite
  repeat' (first
    | with_reducible assumption
    | intro _
    | with_reducible apply Keeps.ite
    | with_reducible apply State.msixSend_keeps
    | with_reducible apply State.put_keeps
    | (extract_lets)
    | split
    | with_reducible apply Keeps.upd)

theorem State.locWrite_keeps {r_ : Prop} {z s : State} (req : Requester) (l : Loc) (off v : Nat) (hr : r_) (hk : Keeps r_ z s) :
    Keeps r_ z (State.locWrite s req l off v) := by
  unfold State.locWrite
  repeat' (first
    | with_reducible assumption
    | intro _
    | with_reducible apply Keeps.ite
    | with_reducible apply State.bankWrite_keeps
    | with_reducible apply State.bump_keeps
    | with_reducible apply State.lockCheck_keeps
    | with_reducible apply State.msixWrite_keeps
    | with_reducible apply State.raise_keeps
    | with_reducible apply State.regWrite_keeps
    | (extract_lets)
    | split)

theorem State.barWrite_keeps {r_ : Prop} {z s : State} (req : Requester) (off size v : Nat) (hr : r_) (hk : Keeps r_ z s) : Keeps
    r_ z (State.barWrite s req off size v) := by
  unfold State.barWrite
  repeat' (first
    | with_reducible assumption
    | intro _
    | with_reducible apply Keeps.ite
    | with_reducible apply State.badAccess_keeps
    | with_reducible apply State.locWrite_keeps
    | (extract_lets)
    | split)

theorem execRegisterWrite_keeps {r_ : Prop} {z s : State} (req : Requester) (off size v : Nat) (hr : r_) (hk : Keeps r_ z s) :
    OutKeeps r_ z (execRegisterWrite req off size v s) := by
  unfold execRegisterWrite
  repeat' (first
    | with_reducible assumption
    | intro _
    | with_reducible apply OutKeeps.ite
    | with_reducible apply Keeps.ite
    | with_reducible apply OutKeeps.next
    | with_reducible apply State.barWrite_keeps
    | with_reducible apply State.coreAccess_keeps
    | with_reducible apply State.settle_keeps
    | with_reducible apply State.writePieces_keeps
    | (extract_lets)
    | split)

end Sys2Proof.Machine
end

