-- ==== Sys2Proof/Laws/KeepsRegCmd.lean ====
section
/-! SUPPORT. Laws/Keeps.lean, for the operations of Machine/RegCmd.lean. -/
namespace Sys2Proof.Machine

theorem State.access_keeps {r_ : Prop} {z s : State} (req : Requester) (off v : Nat) (hr : r_) (hk : Keeps r_ z s) : Keeps r_ z
    (State.access s req off v) := by
  unfold State.access
  repeat' (first
    | with_reducible assumption
    | intro _
    | with_reducible apply Keeps.ite
    | with_reducible apply State.barWrite_keeps
    | with_reducible apply State.settle_keeps
    | (extract_lets)
    | split)

theorem execFullReset_keeps {r_ : Prop} {z s : State} (req : Requester) (v : Nat) (hr : r_) (hk : Keeps r_ z s) : OutKeeps r_ z
    (execFullReset req v s) := by
  unfold execFullReset
  repeat' (first
    | with_reducible assumption
    | intro _
    | with_reducible apply OutKeeps.next
    | with_reducible apply State.access_keeps
    | (extract_lets)
    | split)

theorem execSetupLockSet_keeps {r_ : Prop} {z s : State} (req : Requester) (hr : r_) (hk : Keeps r_ z s) : OutKeeps r_ z
    (execSetupLockSet req s) := by
  unfold execSetupLockSet
  repeat' (first
    | with_reducible assumption
    | intro _
    | with_reducible apply OutKeeps.next
    | with_reducible apply State.access_keeps
    | (extract_lets)
    | split)

theorem execDeviceIdWrite_keeps {r_ : Prop} {z s : State} (req : Requester) (v : Nat) (hr : r_) (hk : Keeps r_ z s) : OutKeeps r_
    z (execDeviceIdWrite req v s) := by
  unfold execDeviceIdWrite
  repeat' (first
    | with_reducible assumption
    | intro _
    | with_reducible apply OutKeeps.next
    | with_reducible apply State.access_keeps
    | (extract_lets)
    | split)

theorem execModeReqWrite_keeps {r_ : Prop} {z s : State} (req : Requester) (v : Nat) (hr : r_) (hk : Keeps r_ z s) : OutKeeps r_ z
    (execModeReqWrite req v s) := by
  unfold execModeReqWrite
  repeat' (first
    | with_reducible assumption
    | intro _
    | with_reducible apply OutKeeps.next
    | with_reducible apply State.access_keeps
    | (extract_lets)
    | split)

theorem execAlignCtrlWrite_keeps {r_ : Prop} {z s : State} (req : Requester) (v : Nat) (hr : r_) (hk : Keeps r_ z s) : OutKeeps r_
    z (execAlignCtrlWrite req v s) := by
  unfold execAlignCtrlWrite
  repeat' (first
    | with_reducible assumption
    | intro _
    | with_reducible apply OutKeeps.next
    | with_reducible apply State.access_keeps
    | (extract_lets)
    | split)

theorem execSwapArm_keeps {r_ : Prop} {z s : State} (req : Requester) (hr : r_) (hk : Keeps r_ z s) : OutKeeps r_ z (execSwapArm
    req s) := by
  unfold execSwapArm
  repeat' (first
    | with_reducible assumption
    | intro _
    | with_reducible apply OutKeeps.next
    | with_reducible apply State.access_keeps
    | (extract_lets)
    | split)

theorem execSwapDisarm_keeps {r_ : Prop} {z s : State} (req : Requester) (hr : r_) (hk : Keeps r_ z s) : OutKeeps r_ z
    (execSwapDisarm req s) := by
  unfold execSwapDisarm
  repeat' (first
    | with_reducible assumption
    | intro _
    | with_reducible apply OutKeeps.next
    | with_reducible apply State.access_keeps
    | (extract_lets)
    | split)

theorem execShadowCopy_keeps {r_ : Prop} {z s : State} (req : Requester) (hr : r_) (hk : Keeps r_ z s) : OutKeeps r_ z
    (execShadowCopy req s) := by
  unfold execShadowCopy
  repeat' (first
    | with_reducible assumption
    | intro _
    | with_reducible apply OutKeeps.next
    | with_reducible apply State.access_keeps
    | (extract_lets)
    | split)

theorem execShadowWrite_keeps {r_ : Prop} {z s : State} (req : Requester) (off v : Nat) (hr : r_) (hk : Keeps r_ z s) : OutKeeps
    r_ z (execShadowWrite req off v s) := by
  unfold execShadowWrite
  repeat' (first
    | with_reducible assumption
    | intro _
    | with_reducible apply OutKeeps.ite
    | with_reducible apply Keeps.ite
    | with_reducible apply OutKeeps.next
    | with_reducible apply State.access_keeps
    | (extract_lets)
    | split)

theorem execPortRoleWrite_keeps {r_ : Prop} {z s : State} (req : Requester) (p v : Nat) (hr : r_) (hk : Keeps r_ z s) : OutKeeps
    r_ z (execPortRoleWrite req p v s) := by
  unfold execPortRoleWrite
  repeat' (first
    | with_reducible assumption
    | intro _
    | with_reducible apply OutKeeps.ite
    | with_reducible apply Keeps.ite
    | with_reducible apply OutKeeps.next
    | with_reducible apply State.access_keeps
    | (extract_lets)
    | split)

theorem execLifeWrite_keeps {r_ : Prop} {z s : State} (req : Requester) (v : Nat) (hr : r_) (hk : Keeps r_ z s) : OutKeeps r_ z
    (execLifeWrite req v s) := by
  unfold execLifeWrite
  repeat' (first
    | with_reducible assumption
    | intro _
    | with_reducible apply OutKeeps.next
    | with_reducible apply State.access_keeps
    | (extract_lets)
    | split)

theorem execKeySet_keeps {r_ : Prop} {z s : State} (req : Requester) (hr : r_) (hk : Keeps r_ z s) : OutKeeps r_ z (execKeySet req
    s) := by
  unfold execKeySet
  repeat' (first
    | with_reducible assumption
    | intro _
    | with_reducible apply OutKeeps.next
    | with_reducible apply State.access_keeps
    | (extract_lets)
    | split)

theorem execKeyClear_keeps {r_ : Prop} {z s : State} (req : Requester) (hr : r_) (hk : Keeps r_ z s) : OutKeeps r_ z (execKeyClear
    req s) := by
  unfold execKeyClear
  repeat' (first
    | with_reducible assumption
    | intro _
    | with_reducible apply OutKeeps.next
    | with_reducible apply State.access_keeps
    | (extract_lets)
    | split)

theorem execRegionSet_keeps {r_ : Prop} {z s : State} (req : Requester) (hr : r_) (hk : Keeps r_ z s) : OutKeeps r_ z
    (execRegionSet req s) := by
  unfold execRegionSet
  repeat' (first
    | with_reducible assumption
    | intro _
    | with_reducible apply OutKeeps.next
    | with_reducible apply State.access_keeps
    | (extract_lets)
    | split)

theorem execRegionClear_keeps {r_ : Prop} {z s : State} (req : Requester) (hr : r_) (hk : Keeps r_ z s) : OutKeeps r_ z
    (execRegionClear req s) := by
  unfold execRegionClear
  repeat' (first
    | with_reducible assumption
    | intro _
    | with_reducible apply OutKeeps.next
    | with_reducible apply State.access_keeps
    | (extract_lets)
    | split)

theorem execCtxReset_keeps {r_ : Prop} {z s : State} (req : Requester) (hr : r_) (hk : Keeps r_ z s) : OutKeeps r_ z (execCtxReset
    req s) := by
  unfold execCtxReset
  repeat' (first
    | with_reducible assumption
    | intro _
    | with_reducible apply OutKeeps.next
    | with_reducible apply State.access_keeps
    | (extract_lets)
    | split)

theorem execCtxFlush_keeps {r_ : Prop} {z s : State} (req : Requester) (hr : r_) (hk : Keeps r_ z s) : OutKeeps r_ z (execCtxFlush
    req s) := by
  unfold execCtxFlush
  repeat' (first
    | with_reducible assumption
    | intro _
    | with_reducible apply OutKeeps.next
    | with_reducible apply State.access_keeps
    | (extract_lets)
    | split)

theorem execColTreeWrite_keeps {r_ : Prop} {z s : State} (req : Requester) (t w v : Nat) (hr : r_) (hk : Keeps r_ z s) : OutKeeps
    r_ z (execColTreeWrite req t w v s) := by
  unfold execColTreeWrite
  repeat' (first
    | with_reducible assumption
    | intro _
    | with_reducible apply OutKeeps.ite
    | with_reducible apply Keeps.ite
    | with_reducible apply OutKeeps.next
    | with_reducible apply State.access_keeps
    | (extract_lets)
    | split)

theorem execTreeKeySet_keeps {r_ : Prop} {z s : State} (req : Requester) (hr : r_) (hk : Keeps r_ z s) : OutKeeps r_ z
    (execTreeKeySet req s) := by
  unfold execTreeKeySet
  repeat' (first
    | with_reducible assumption
    | intro _
    | with_reducible apply OutKeeps.next
    | with_reducible apply State.access_keeps
    | (extract_lets)
    | split)

theorem execResume_keeps {r_ : Prop} {z s : State} (req : Requester) (hr : r_) (hk : Keeps r_ z s) : OutKeeps r_ z (execResume req
    s) := by
  unfold execResume
  repeat' (first
    | with_reducible assumption
    | intro _
    | with_reducible apply OutKeeps.next
    | with_reducible apply State.access_keeps
    | (extract_lets)
    | split)

theorem execWindowEntryWrite_keeps {r_ : Prop} {z s : State} (req : Requester) (fn j w v : Nat) (hr : r_) (hk : Keeps r_ z s) :
    OutKeeps r_ z (execWindowEntryWrite req fn j w v s) := by
  unfold execWindowEntryWrite
  repeat' (first
    | with_reducible assumption
    | intro _
    | with_reducible apply OutKeeps.ite
    | with_reducible apply Keeps.ite
    | with_reducible apply OutKeeps.next
    | with_reducible apply State.access_keeps
    | (extract_lets)
    | split)

theorem execFaultForce_keeps {r_ : Prop} {z s : State} (req : Requester) (code k v : Nat) (hr : r_) (hk : Keeps r_ z s) : OutKeeps
    r_ z (execFaultForce req code k v s) := by
  unfold execFaultForce
  repeat' (first
    | with_reducible assumption
    | intro _
    | with_reducible apply OutKeeps.ite
    | with_reducible apply Keeps.ite
    | with_reducible apply OutKeeps.next
    | with_reducible apply State.access_keeps
    | (extract_lets)
    | split)

theorem execFaultStatusClear_keeps {r_ : Prop} {z s : State} (req : Requester) (code k v : Nat) (hr : r_) (hk : Keeps r_ z s) :
    OutKeeps r_ z (execFaultStatusClear req code k v s) := by
  unfold execFaultStatusClear
  repeat' (first
    | with_reducible assumption
    | intro _
    | with_reducible apply OutKeeps.ite
    | with_reducible apply Keeps.ite
    | with_reducible apply OutKeeps.next
    | with_reducible apply State.access_keeps
    | (extract_lets)
    | split)

theorem execReadbackCapture_keeps {r_ : Prop} {z s : State} (req : Requester) (v : Nat) (hr : r_) (hk : Keeps r_ z s) : OutKeeps
    r_ z (execReadbackCapture req v s) := by
  unfold execReadbackCapture
  repeat' (first
    | with_reducible assumption
    | intro _
    | with_reducible apply OutKeeps.next
    | with_reducible apply State.access_keeps
    | (extract_lets)
    | split)

end Sys2Proof.Machine
end

