-- ==== Sys2Proof/Laws/KeepsAgent.lean ====
section
/-! SUPPORT. Laws/Keeps.lean, for the operations of Machine/Agent.lean. -/
namespace Sys2Proof.Machine

theorem State.agentRead_keeps {r_ : Prop} {z s : State} (addr : Nat) (n : Nat) (hk : Keeps r_ z s) : PKeeps r_ z (State.agentRead
    s addr n) := by
  induction n with
  | zero =>
    unfold State.agentRead
    repeat' (first
      | with_reducible assumption
      | with_reducible apply ih
      | with_reducible exact ih
      | intro _
      | with_reducible apply PKeeps.fst
      | with_reducible apply State.barRead_keeps
      | (extract_lets)
      | split
      | with_reducible apply PKeeps.pair
      | (with_reducible refine PKeeps.eq (by assumption) ?_))
  | succ n ih =>
    unfold State.agentRead
    repeat' (first
      | with_reducible assumption
      | with_reducible apply ih
      | with_reducible exact ih
      | intro _
      | with_reducible apply PKeeps.fst
      | with_reducible apply State.barRead_keeps
      | (extract_lets)
      | split
      | with_reducible apply PKeeps.pair
      | (with_reducible refine PKeeps.eq (by assumption) ?_))

theorem State.agentWrite_keeps {r_ : Prop} {z s : State} (addr : Nat) (d : Data) (n : Nat) (hr : r_) (hk : Keeps r_ z s) : Keeps
    r_ z (State.agentWrite s addr d n) := by
  unfold State.agentWrite
  repeat' (first
    | with_reducible assumption
    | intro _
    | with_reducible apply Keeps.foldl
    | with_reducible apply PKeeps.foldl
    | with_reducible apply QKeeps.foldl
    | with_reducible apply State.barWrite_keeps
    | (extract_lets)
    | split)

theorem State.mgReply_keeps {r_ : Prop} {z s : State} (m : MgH) (status : Nat) (words : List Nat) (hk : Keeps r_ z s) : Keeps r_ z
    (State.mgReply s m status words) := by
  unfold State.mgReply
  repeat' (first
    | with_reducible assumption
    | intro _
    | with_reducible apply State.answer_keeps
    | with_reducible apply State.mgSend_keeps
    | (extract_lets)
    | split)

theorem State.keepAnswer_keeps {r_ : Prop} {z s : State} (m : MgH) (status : Nat) (words : List Nat) (hk : Keeps r_ z s) : Keeps
    r_ z (State.keepAnswer s m status words) := by
  unfold State.keepAnswer
  repeat' (first
    | with_reducible assumption
    | intro _
    | (extract_lets)
    | split
    | with_reducible apply Keeps.upd)

theorem State.agentAnswer_keeps {r_ : Prop} {z s : State} (m : MgH) (status : Nat) (words : List Nat) (hk : Keeps r_ z s) : Keeps
    r_ z (State.agentAnswer s m status words) := by
  unfold State.agentAnswer
  repeat' (first
    | with_reducible assumption
    | intro _
    | with_reducible apply Keeps.ite
    | with_reducible apply State.keepAnswer_keeps
    | with_reducible apply State.mgReply_keeps
    | (extract_lets)
    | split)

theorem State.agent_keeps {r_ : Prop} {z s : State} (m : MgH) (write : Bool) (d : Data) (hr : r_) (hk : Keeps r_ z s) : Keeps r_ z
    (State.agent s m write d) := by
  unfold State.agent
  repeat' (first
    | with_reducible assumption
    | intro _
    | with_reducible apply Keeps.ite
    | with_reducible apply PKeeps.fst
    | with_reducible apply State.agentAnswer_keeps
    | with_reducible apply State.agentRead_keeps
    | with_reducible apply State.agentWrite_keeps
    | with_reducible apply State.bump_keeps
    | with_reducible apply State.mgReply_keeps
    | with_reducible apply State.raise_keeps
    | with_reducible apply State.settle_keeps
    | (extract_lets)
    | split
    | with_reducible apply PKeeps.pair
    | (with_reducible refine PKeeps.eq (by assumption) ?_))

theorem execMgReadRx_keeps {r_ : Prop} {z s : State} (hr : r_) (hk : Keeps r_ z s) : OutKeeps r_ z (execMgReadRx s) := by
  unfold execMgReadRx
  repeat' (first
    | with_reducible assumption
    | intro _
    | with_reducible apply OutKeeps.ite
    | with_reducible apply Keeps.ite
    | with_reducible exact OptQKeeps.none _
    | with_reducible apply OptQKeeps.some
    | with_reducible apply OutKeeps.next
    | with_reducible apply State.agent_keeps
    | with_reducible apply State.mgTake_keeps
    | (extract_lets)
    | split
    | (with_reducible refine OptQKeeps.eq (by assumption) ?_))

theorem execMgWriteRx_keeps {r_ : Prop} {z s : State} (hr : r_) (hk : Keeps r_ z s) : OutKeeps r_ z (execMgWriteRx s) := by
  unfold execMgWriteRx
  repeat' (first
    | with_reducible assumption
    | intro _
    | with_reducible apply OutKeeps.ite
    | with_reducible apply Keeps.ite
    | with_reducible exact OptQKeeps.none _
    | with_reducible apply OptQKeeps.some
    | with_reducible apply OutKeeps.next
    | with_reducible apply State.agent_keeps
    | with_reducible apply State.mgTake_keeps
    | (extract_lets)
    | split
    | (with_reducible refine OptQKeeps.eq (by assumption) ?_))

end Sys2Proof.Machine
end

