-- ==== Sys2Proof/Laws/KeepsMonitor.lean ====
section
/-! SUPPORT. Laws/Keeps.lean, for the operations of Machine/Monitor.lean. -/
namespace Sys2Proof.Machine

theorem State.onMon_keeps {r_ : Prop} {z s : State} (f : Mon → Mon) (hk : Keeps r_ z s) : Keeps r_ z (State.onMon s f) := by
  unfold State.onMon
  repeat' (first
    | with_reducible assumption
    | intro _
    | (extract_lets)
    | split
    | with_reducible apply Keeps.upd)

theorem State.monHear_keeps {r_ : Prop} {z s : State} (line : List Nat) (hk : Keeps r_ z s) : Keeps r_ z (State.monHear s line) :=
    by
  unfold State.monHear
  repeat' (first
    | with_reducible assumption
    | intro _
    | with_reducible apply State.emit_keeps
    | with_reducible apply State.onMon_keeps
    | (extract_lets)
    | split)

theorem State.monSay_keeps {r_ : Prop} {z s : State} (r : Reply) (hk : Keeps r_ z s) : Keeps r_ z (State.monSay s r) := by
  unfold State.monSay
  repeat' (first
    | with_reducible assumption
    | intro _
    | with_reducible apply State.emit_keeps
    | (extract_lets)
    | split)

theorem State.monitor_keeps {r_ : Prop} {z s : State} (line : List Nat) (locked : Bool) (act : State → State × Reply) (h_act : ∀
    u0, Keeps r_ z u0 → PKeeps r_ z (act u0)) (hk : Keeps r_ z s) : Keeps r_ z (State.monitor s line locked act) := by
  unfold State.monitor
  repeat' (first
    | with_reducible assumption
    | intro _
    | with_reducible apply Keeps.ite
    | with_reducible apply PKeeps.fst
    | with_reducible apply State.monHear_keeps
    | with_reducible apply State.monSay_keeps
    | with_reducible apply h_act
    | (extract_lets)
    | split
    | with_reducible apply PKeeps.pair
    | (with_reducible refine PKeeps.eq (by assumption) ?_))

theorem execMonHelp_keeps {r_ : Prop} {z s : State} (line : List Nat) (hk : Keeps r_ z s) : OutKeeps r_ z (execMonHelp line s) :=
    by
  unfold execMonHelp
  repeat' (first
    | with_reducible assumption
    | intro _
    | with_reducible apply PKeeps.fst
    | with_reducible apply OutKeeps.next
    | with_reducible apply State.monitor_keeps
    | (extract_lets)
    | split
    | with_reducible apply PKeeps.pair
    | (with_reducible refine PKeeps.eq (by assumption) ?_))

theorem execMonId_keeps {r_ : Prop} {z s : State} (line : List Nat) (hk : Keeps r_ z s) : OutKeeps r_ z (execMonId line s) := by
  unfold execMonId
  repeat' (first
    | with_reducible assumption
    | intro _
    | with_reducible apply PKeeps.fst
    | with_reducible apply OutKeeps.next
    | with_reducible apply State.monitor_keeps
    | (extract_lets)
    | split
    | with_reducible apply PKeeps.pair
    | (with_reducible refine PKeeps.eq (by assumption) ?_))

theorem State.monRead_keeps {r_ : Prop} {z s : State} (off : Nat) (n : Nat) (hk : Keeps r_ z s) : PKeeps r_ z (State.monRead s off
    n) := by
  induction n with
  | zero =>
    unfold State.monRead
    repeat' (first
      | with_reducible assumption
      | with_reducible apply ih
      | with_reducible exact ih
      | intro _
      | with_reducible apply PKeeps.fst
      | with_reducible apply State.barRead_keeps
      | with_reducible apply State.monitor_keeps
      | (extract_lets)
      | split
      | with_reducible apply PKeeps.pair
      | (with_reducible refine PKeeps.eq (by assumption) ?_))
  | succ n ih =>
    unfold State.monRead
    repeat' (first
      | with_reducible assumption
      | with_reducible apply ih
      | with_reducible exact ih
      | intro _
      | with_reducible apply PKeeps.fst
      | with_reducible apply State.barRead_keeps
      | with_reducible apply State.monitor_keeps
      | (extract_lets)
      | split
      | with_reducible apply PKeeps.pair
      | (with_reducible refine PKeeps.eq (by assumption) ?_))

theorem execMonRd_keeps {r_ : Prop} {z s : State} (line : List Nat) (hk : Keeps r_ z s) : OutKeeps r_ z (execMonRd line s) := by
  unfold execMonRd
  repeat' (first
    | with_reducible assumption
    | intro _
    | with_reducible apply OutKeeps.ite
    | with_reducible apply Keeps.ite
    | with_reducible apply PKeeps.fst
    | with_reducible apply OutKeeps.next
    | with_reducible apply State.monRead_keeps
    | with_reducible apply State.monitor_keeps
    | (extract_lets)
    | split
    | with_reducible apply PKeeps.pair
    | (with_reducible refine PKeeps.eq (by assumption) ?_))

theorem execMonRbk_keeps {r_ : Prop} {z s : State} (line : List Nat) (hk : Keeps r_ z s) : OutKeeps r_ z (execMonRbk line s) := by
  unfold execMonRbk
  repeat' (first
    | with_reducible assumption
    | intro _
    | with_reducible apply OutKeeps.ite
    | with_reducible apply Keeps.ite
    | with_reducible apply PKeeps.fst
    | with_reducible apply OutKeeps.next
    | with_reducible apply State.capture_keeps
    | with_reducible apply State.monitor_keeps
    | with_reducible apply State.put_keeps
    | (extract_lets)
    | split
    | with_reducible apply PKeeps.pair
    | (with_reducible refine PKeeps.eq (by assumption) ?_))

theorem execMonFlt_keeps {r_ : Prop} {z s : State} (line : List Nat) (hk : Keeps r_ z s) : OutKeeps r_ z (execMonFlt line s) := by
  unfold execMonFlt
  repeat' (first
    | with_reducible assumption
    | intro _
    | with_reducible apply OutKeeps.ite
    | with_reducible apply Keeps.ite
    | with_reducible apply PKeeps.fst
    | with_reducible apply OutKeeps.next
    | with_reducible apply State.monitor_keeps
    | (extract_lets)
    | split
    | with_reducible apply PKeeps.pair
    | (with_reducible refine PKeeps.eq (by assumption) ?_))

theorem execMonTime_keeps {r_ : Prop} {z s : State} (line : List Nat) (hk : Keeps r_ z s) : OutKeeps r_ z (execMonTime line s) :=
    by
  unfold execMonTime
  repeat' (first
    | with_reducible assumption
    | intro _
    | with_reducible apply PKeeps.fst
    | with_reducible apply OutKeeps.next
    | with_reducible apply State.monitor_keeps
    | (extract_lets)
    | split
    | with_reducible apply PKeeps.pair
    | (with_reducible refine PKeeps.eq (by assumption) ?_))

theorem execMonBoot_keeps {r_ : Prop} {z s : State} (line : List Nat) (hk : Keeps r_ z s) : OutKeeps r_ z (execMonBoot line s) :=
    by
  unfold execMonBoot
  repeat' (first
    | with_reducible assumption
    | intro _
    | with_reducible apply PKeeps.fst
    | with_reducible apply OutKeeps.next
    | with_reducible apply State.monitor_keeps
    | (extract_lets)
    | split
    | with_reducible apply PKeeps.pair
    | (with_reducible refine PKeeps.eq (by assumption) ?_))

theorem execMonUnlock_keeps {r_ : Prop} {z s : State} (line : List Nat) (hk : Keeps r_ z s) : OutKeeps r_ z (execMonUnlock line s)
    := by
  unfold execMonUnlock
  repeat' (first
    | with_reducible assumption
    | intro _
    | with_reducible apply OutKeeps.ite
    | with_reducible apply Keeps.ite
    | with_reducible apply PKeeps.fst
    | with_reducible apply QKeeps.snd
    | with_reducible apply State.draw_keepsQ
    | with_reducible apply OutKeeps.next
    | with_reducible apply State.draw_keeps
    | with_reducible apply State.monitor_keeps
    | with_reducible apply State.onMon_keeps
    | (extract_lets)
    | split
    | with_reducible apply PKeeps.pair
    | with_reducible apply QKeeps.pair
    | (with_reducible refine PKeeps.eq (by assumption) ?_)
    | (with_reducible refine QKeeps.eq (by assumption) ?_))

theorem State.monFail_keeps {r_ : Prop} {z s : State} (hk : Keeps r_ z s) : Keeps r_ z (State.monFail s) := by
  unfold State.monFail
  repeat' (first
    | with_reducible assumption
    | intro _
    | with_reducible apply Keeps.ite
    | with_reducible apply State.bump_keeps
    | with_reducible apply State.onMon_keeps
    | with_reducible apply State.raise_keeps
    | (extract_lets)
    | split)

theorem State.monResp_keeps {r_ : Prop} {z s : State} (r : Nat) (hk : Keeps r_ z s) : PKeeps r_ z (State.monResp s r) := by
  unfold State.monResp
  repeat' (first
    | with_reducible assumption
    | intro _
    | with_reducible apply PKeeps.ite
    | with_reducible apply Keeps.ite
    | with_reducible apply PKeeps.fst
    | with_reducible apply State.bump_keeps
    | with_reducible apply State.monFail_keeps
    | with_reducible apply State.onMon_keeps
    | (extract_lets)
    | split
    | with_reducible apply PKeeps.pair
    | (with_reducible refine PKeeps.eq (by assumption) ?_))

theorem execMonResp_keeps {r_ : Prop} {z s : State} (line : List Nat) (hk : Keeps r_ z s) : OutKeeps r_ z (execMonResp line s) :=
    by
  unfold execMonResp
  repeat' (first
    | with_reducible assumption
    | intro _
    | with_reducible apply PKeeps.fst
    | with_reducible apply OutKeeps.next
    | with_reducible apply State.monResp_keeps
    | with_reducible apply State.monitor_keeps
    | (extract_lets)
    | split
    | with_reducible apply PKeeps.pair
    | (with_reducible refine PKeeps.eq (by assumption) ?_))

theorem execMonLock_keeps {r_ : Prop} {z s : State} (line : List Nat) (hk : Keeps r_ z s) : OutKeeps r_ z (execMonLock line s) :=
    by
  unfold execMonLock
  repeat' (first
    | with_reducible assumption
    | intro _
    | with_reducible apply PKeeps.fst
    | with_reducible apply OutKeeps.next
    | with_reducible apply State.monitor_keeps
    | with_reducible apply State.onMon_keeps
    | (extract_lets)
    | split
    | with_reducible apply PKeeps.pair
    | (with_reducible refine PKeeps.eq (by assumption) ?_))

theorem execMonWr_keeps {r_ : Prop} {z s : State} (line : List Nat) (hr : r_) (hk : Keeps r_ z s) : OutKeeps r_ z (execMonWr line
    s) := by
  unfold execMonWr
  repeat' (first
    | with_reducible assumption
    | intro _
    | with_reducible apply OutKeeps.ite
    | with_reducible apply Keeps.ite
    | with_reducible apply PKeeps.fst
    | with_reducible apply OutKeeps.next
    | with_reducible apply State.access_keeps
    | with_reducible apply State.monitor_keeps
    | (extract_lets)
    | split
    | with_reducible apply PKeeps.pair
    | (with_reducible refine PKeeps.eq (by assumption) ?_))

theorem execMonMode_keeps {r_ : Prop} {z s : State} (line : List Nat) (hr : r_) (hk : Keeps r_ z s) : OutKeeps r_ z (execMonMode
    line s) := by
  unfold execMonMode
  repeat' (first
    | with_reducible assumption
    | intro _
    | with_reducible apply OutKeeps.ite
    | with_reducible apply Keeps.ite
    | with_reducible apply PKeeps.fst
    | with_reducible apply OutKeeps.next
    | with_reducible apply State.access_keeps
    | with_reducible apply State.monitor_keeps
    | (extract_lets)
    | split
    | with_reducible apply PKeeps.pair
    | (with_reducible refine PKeeps.eq (by assumption) ?_))

theorem execMonBaud_keeps {r_ : Prop} {z s : State} (line : List Nat) (hk : Keeps r_ z s) : OutKeeps r_ z (execMonBaud line s) :=
    by
  unfold execMonBaud
  repeat' (first
    | with_reducible assumption
    | intro _
    | with_reducible apply OutKeeps.ite
    | with_reducible apply Keeps.ite
    | with_reducible apply PKeeps.fst
    | with_reducible apply OutKeeps.next
    | with_reducible apply State.monitor_keeps
    | with_reducible apply State.onMon_keeps
    | (extract_lets)
    | split
    | with_reducible apply PKeeps.pair
    | (with_reducible refine PKeeps.eq (by assumption) ?_))

theorem execMonMcrun_keeps {r_ : Prop} {z s : State} (line : List Nat) (hk : Keeps r_ z s) : OutKeeps r_ z (execMonMcrun line s)
    := by
  unfold execMonMcrun
  repeat' (first
    | with_reducible assumption
    | intro _
    | with_reducible apply OutKeeps.ite
    | with_reducible apply Keeps.ite
    | with_reducible apply PKeeps.fst
    | with_reducible apply OutKeeps.next
    | with_reducible apply State.mcCtrlWrite_keeps
    | with_reducible apply State.monitor_keeps
    | (extract_lets)
    | split
    | with_reducible apply PKeeps.pair
    | (with_reducible refine PKeeps.eq (by assumption) ?_))

theorem execMonFuse_keeps {r_ : Prop} {z s : State} (line : List Nat) (ok : Bool) (hk : Keeps r_ z s) : OutKeeps r_ z (execMonFuse
    line ok s) := by
  unfold execMonFuse
  repeat' (first
    | with_reducible assumption
    | intro _
    | with_reducible apply OutKeeps.ite
    | with_reducible apply Keeps.ite
    | with_reducible apply PKeeps.fst
    | with_reducible apply OutKeeps.next
    | with_reducible apply State.bstCmd_keeps
    | with_reducible apply State.monitor_keeps
    | with_reducible apply State.result_keeps
    | (extract_lets)
    | split
    | with_reducible apply PKeeps.pair
    | (with_reducible refine PKeeps.eq (by assumption) ?_))

theorem execMonReset_keeps {r_ : Prop} {z s : State} (line : List Nat) (hr : r_) (hk : Keeps r_ z s) : OutKeeps r_ z (execMonReset
    line s) := by
  unfold execMonReset
  repeat' (first
    | with_reducible assumption
    | intro _
    | with_reducible apply OutKeeps.ite
    | with_reducible apply Keeps.ite
    | with_reducible apply PKeeps.fst
    | with_reducible apply OutKeeps.next
    | with_reducible apply State.monitor_keeps
    | with_reducible apply State.resetCtrl_keeps
    | (extract_lets)
    | split
    | with_reducible apply PKeeps.pair
    | (with_reducible refine PKeeps.eq (by assumption) ?_))

theorem execMonLineInvalid_keeps {r_ : Prop} {z s : State} (line : List Nat) (hk : Keeps r_ z s) : OutKeeps r_ z
    (execMonLineInvalid line s) := by
  unfold execMonLineInvalid
  repeat' (first
    | with_reducible assumption
    | intro _
    | with_reducible apply OutKeeps.ite
    | with_reducible apply Keeps.ite
    | with_reducible apply OutKeeps.next
    | with_reducible apply State.monHear_keeps
    | with_reducible apply State.monSay_keeps
    | (extract_lets)
    | split)

theorem execMonitorIdleTimeout_keeps {r_ : Prop} {z s : State} (hk : Keeps r_ z s) : OutKeeps r_ z (execMonitorIdleTimeout s) :=
    by
  unfold execMonitorIdleTimeout
  repeat' (first
    | with_reducible assumption
    | intro _
    | with_reducible apply OutKeeps.ite
    | with_reducible apply Keeps.ite
    | with_reducible apply OutKeeps.next
    | with_reducible apply State.onMon_keeps
    | (extract_lets)
    | split)

theorem execUnlockLockoutEnd_keeps {r_ : Prop} {z s : State} (hk : Keeps r_ z s) : OutKeeps r_ z (execUnlockLockoutEnd s) := by
  unfold execUnlockLockoutEnd
  repeat' (first
    | with_reducible assumption
    | intro _
    | with_reducible apply OutKeeps.ite
    | with_reducible apply Keeps.ite
    | with_reducible apply OutKeeps.next
    | with_reducible apply State.onMon_keeps
    | (extract_lets)
    | split)

end Sys2Proof.Machine
end

