-- ==== Sys2Proof/Laws/KeepsSysCmd.lean ====
section
/-! SUPPORT. Laws/Keeps.lean, for the operations of Machine/SysCmd.lean. -/
namespace Sys2Proof.Machine

theorem execResetDeassert_keeps {r_ : Prop} {z s : State} (boot : Nat) (hpmode timeroot : Bool) (hr : r_) (hk : Keeps r_ z s) :
    OutKeeps r_ z (execResetDeassert boot hpmode timeroot s) := by
  unfold execResetDeassert
  repeat' (first
    | with_reducible assumption
    | intro _
    | with_reducible apply OutKeeps.ite
    | with_reducible apply Keeps.ite
    | with_reducible apply OutKeeps.next
    | with_reducible apply State.enterStrap_keeps
    | (extract_lets)
    | split
    | with_reducible apply Keeps.updGlb
    | with_reducible apply Keeps.upd)

theorem State.fusedRepairs_keeps {r_ : Prop} {z s : State} (hk : Keeps r_ z s) : Keeps r_ z (State.fusedRepairs s) := by
  unfold State.fusedRepairs
  repeat' (first
    | with_reducible assumption
    | intro _
    | with_reducible apply Keeps.ite
    | with_reducible apply Keeps.foldl
    | with_reducible apply PKeeps.foldl
    | with_reducible apply QKeeps.foldl
    | with_reducible apply State.put_keeps
    | with_reducible apply State.setWord_keeps
    | (extract_lets)
    | split)

theorem State.romFail_keeps {r_ : Prop} {z s : State} (cls unit : Nat) (fails : List (Nat × Nat)) (hk : Keeps r_ z s) : Keeps r_ z
    (State.romFail s cls unit fails) := by
  unfold State.romFail
  repeat' (first
    | with_reducible assumption
    | intro _
    | with_reducible apply Keeps.ite
    | with_reducible apply State.addRecord_keeps
    | with_reducible apply State.askFence_keeps
    | with_reducible apply State.softRepair_keeps
    | (extract_lets)
    | split)

theorem execRomSelfTestDone_keeps {r_ : Prop} {z s : State} (fails : List (Nat × Nat × List (Nat × Nat))) (hk : Keeps r_ z s) :
    OutKeeps r_ z (execRomSelfTestDone fails s) := by
  unfold execRomSelfTestDone
  repeat' (first
    | with_reducible assumption
    | intro _
    | with_reducible apply OutKeeps.ite
    | with_reducible apply Keeps.ite
    | with_reducible apply Keeps.foldl
    | with_reducible apply PKeeps.foldl
    | with_reducible apply QKeeps.foldl
    | with_reducible apply PKeeps.fst
    | with_reducible apply QKeeps.snd
    | with_reducible apply State.draw_keepsQ
    | with_reducible apply OutKeeps.next
    | with_reducible apply State.fusedRepairs_keeps
    | with_reducible apply State.put_keeps
    | with_reducible apply State.romFail_keeps
    | (extract_lets)
    | split
    | with_reducible apply PKeeps.pair
    | with_reducible apply QKeeps.pair
    | (with_reducible refine PKeeps.eq (by assumption) ?_)
    | (with_reducible refine QKeeps.eq (by assumption) ?_))

theorem State.setRail_keeps {r_ : Prop} {z s : State} (r : Nat) (good : Bool) (hk : Keeps r_ z s) : Keeps r_ z (State.setRail s r
    good) := by
  unfold State.setRail
  repeat' (first
    | with_reducible assumption
    | intro _
    | with_reducible apply Keeps.ite
    | (extract_lets)
    | split
    | with_reducible apply Keeps.updGlb
    | with_reducible apply Keeps.upd)

theorem execRailWithinLimits_keeps {r_ : Prop} {z s : State} (rail : Nat) (hk : Keeps r_ z s) : OutKeeps r_ z
    (execRailWithinLimits rail s) := by
  unfold execRailWithinLimits
  repeat' (first
    | with_reducible assumption
    | intro _
    | with_reducible apply OutKeeps.ite
    | with_reducible apply Keeps.ite
    | with_reducible apply OutKeeps.next
    | with_reducible apply State.setRail_keeps
    | (extract_lets)
    | split)

theorem execHostPortReset_keeps {r_ : Prop} {z s : State} (h : Nat) (perst : Bool) (hk : Keeps r_ z s) : OutKeeps r_ z
    (execHostPortReset h perst s) := by
  unfold execHostPortReset
  repeat' (first
    | with_reducible assumption
    | intro _
    | with_reducible apply OutKeeps.ite
    | with_reducible apply Keeps.ite
    | with_reducible apply OutKeeps.next
    | with_reducible apply State.hostPortReset_keeps
    | (extract_lets)
    | with_reducible apply Keeps.updGlb
    | with_reducible apply Keeps.upd
    | split)

theorem execPerstNDeassert_keeps {r_ : Prop} {z s : State} (h status vfs : Nat) (hk : Keeps r_ z s) : OutKeeps r_ z
    (execPerstNDeassert h status vfs s) := by
  unfold execPerstNDeassert
  repeat' (first
    | with_reducible assumption
    | intro _
    | with_reducible apply OutKeeps.ite
    | with_reducible apply Keeps.ite
    | with_reducible apply Keeps.foldl
    | with_reducible apply PKeeps.foldl
    | with_reducible apply QKeeps.foldl
    | with_reducible apply OutKeeps.next
    | with_reducible apply State.put_keeps
    | (extract_lets)
    | split
    | with_reducible apply Keeps.updGlb
    | with_reducible apply Keeps.upd)

theorem State.overrun_keeps {r_ : Prop} {z s : State} (hk : Keeps r_ z s) : Keeps r_ z (State.overrun s) := by
  unfold State.overrun
  repeat' (first
    | with_reducible assumption
    | intro _
    | with_reducible apply State.bump_keeps
    | with_reducible apply State.raise_keeps
    | (extract_lets)
    | split)

theorem State.courseWork_keeps {r_ : Prop} {z s : State} (own : Nat) (hk : Keeps r_ z s) : Keeps r_ z (State.courseWork s own) :=
    by
  unfold State.courseWork
  repeat' (first
    | with_reducible assumption
    | intro _
    | with_reducible apply Keeps.ite
    | with_reducible apply State.installMap_keeps
    | with_reducible apply State.refill_keeps
    | with_reducible apply State.sendCongRows_keeps
    | with_reducible apply State.sweepStart_keeps
    | (extract_lets)
    | split)

theorem State.relayOverrun_keeps {r_ : Prop} {z s : State} (hk : Keeps r_ z s) : Keeps r_ z (State.relayOverrun s) := by
  unfold State.relayOverrun
  repeat' (first
    | with_reducible assumption
    | intro _
    | with_reducible apply Keeps.ite
    | with_reducible apply State.overrun_keeps
    | with_reducible apply State.sendCongCols_keeps
    | (extract_lets)
    | split)

theorem State.fenceCourse_keeps {r_ : Prop} {z s : State} (hk : Keeps r_ z s) : Keeps r_ z (State.fenceCourse s) := by
  unfold State.fenceCourse
  repeat' (first
    | with_reducible assumption
    | intro _
    | with_reducible apply Keeps.ite
    | with_reducible apply Keeps.foldl
    | with_reducible apply PKeeps.foldl
    | with_reducible apply QKeeps.foldl
    | with_reducible apply State.sendFence_keeps
    | (extract_lets)
    | split)

theorem State.courseBoundary_keeps {r_ : Prop} {z s : State} (hk : Keeps r_ z s) : Keeps r_ z (State.courseBoundary s) := by
  unfold State.courseBoundary
  extract_lets own skip s1 s2 s3 s4 s5 s6
  have h1 : Keeps r_ z s1 := State.setTime_keeps _ _ (fun _ => by decide) (State.pass_keeps _ hk)
  have h2 : Keeps r_ z s2 := Keeps.ite (fun _ => State.overrun_keeps h1) (fun _ => h1)
  have h3 : Keeps r_ z s3 := Keeps.foldl (State.countRuns_keeps h2) (fun _ _ h => State.onLk_keeps _ _ h)
  have h4 : Keeps r_ z s4 := Keeps.ite (fun _ => State.relayOverrun_keeps h3) (fun _ => h3)
  have h6 : Keeps r_ z s6 := Keeps.ite (fun _ => State.courseWork_keeps _ (State.courseLevels_keeps h4)) (fun _ => State.courseLevels_keeps h4)
  clear_value s6
  exact State.fenceCourse_keeps (Keeps.ite (fun _ => Keeps.upd h6) (fun _ => h6))

theorem execReferenceLoss_keeps {r_ : Prop} {z s : State} (hk : Keeps r_ z s) : OutKeeps r_ z (execReferenceLoss s) := by
  unfold execReferenceLoss
  repeat' (first
    | with_reducible assumption
    | intro _
    | with_reducible apply OutKeeps.ite
    | with_reducible apply Keeps.ite
    | with_reducible apply OutKeeps.next
    | with_reducible apply State.level_keeps
    | (extract_lets)
    | split)

theorem execSwapTakeEffect_keeps {r_ : Prop} {z s : State} (hk : Keeps r_ z s) : OutKeeps r_ z (execSwapTakeEffect s) := by
  unfold execSwapTakeEffect
  repeat' (first
    | with_reducible assumption
    | intro _
    | with_reducible apply OutKeeps.ite
    | with_reducible apply Keeps.ite
    | with_reducible apply OutKeeps.next
    | with_reducible apply State.swapNow_keeps
    | (extract_lets)
    | split)

theorem execCopyDone_keeps {r_ : Prop} {z s : State} (hk : Keeps r_ z s) : OutKeeps r_ z (execCopyDone s) := by
  unfold execCopyDone
  repeat' (first
    | with_reducible assumption
    | intro _
    | with_reducible apply OutKeeps.ite
    | with_reducible apply Keeps.ite
    | with_reducible apply OutKeeps.next
    | with_reducible apply State.copyDone_keeps
    | (extract_lets)
    | split)

theorem execShadowBusyEnd_keeps {r_ : Prop} {z s : State} (hk : Keeps r_ z s) : OutKeeps r_ z (execShadowBusyEnd s) := by
  unfold execShadowBusyEnd
  repeat' (first
    | with_reducible assumption
    | intro _
    | with_reducible apply OutKeeps.ite
    | with_reducible apply Keeps.ite
    | with_reducible apply OutKeeps.next
    | (extract_lets)
    | split
    | with_reducible apply Keeps.updCrs
    | with_reducible apply Keeps.updBoth
    | with_reducible apply Keeps.upd)

theorem execFencePeriodEnd_keeps {r_ : Prop} {z s : State} (hk : Keeps r_ z s) : OutKeeps r_ z (execFencePeriodEnd s) := by
  unfold execFencePeriodEnd
  repeat' (first
    | with_reducible assumption
    | intro _
    | with_reducible apply OutKeeps.ite
    | with_reducible apply Keeps.ite
    | with_reducible apply Keeps.foldl
    | with_reducible apply PKeeps.foldl
    | with_reducible apply QKeeps.foldl
    | with_reducible apply OutKeeps.next
    | with_reducible apply State.lanesOff_keeps
    | with_reducible apply State.linkDown_keeps
    | (extract_lets)
    | split
    | with_reducible apply Keeps.updGlb
    | with_reducible apply Keeps.upd)

theorem execThermalConversion_keeps {r_ : Prop} {z s : State} (k temp : Nat) (hk : Keeps r_ z s) : OutKeeps r_ z
    (execThermalConversion k temp s) := by
  unfold execThermalConversion
  repeat' (first
    | with_reducible assumption
    | intro _
    | with_reducible apply OutKeeps.ite
    | with_reducible apply Keeps.ite
    | with_reducible apply OutKeeps.next
    | with_reducible apply State.level_keeps
    | (extract_lets)
    | split
    | exact Keeps.with_glb (State.level_keeps _ _ _ _ (Keeps.updGlb hk)) _ id (fun _ => rfl)
    | with_reducible apply Keeps.updGlb
    | with_reducible apply Keeps.upd)

end Sys2Proof.Machine
end

