-- ==== Sys2Proof/Laws/KeepsMoves.lean ====
section
/-! SUPPORT. What the five commands keep that change the mode or end a trip: Laws/Keeps.lean has no word for these. -/
namespace Sys2Proof.Machine

/-- R28, R29: a request for a mode is refused, or the listed transition is made. -/
theorem State.modeTake_moves {s : State} (n : Nat) :
    Keeps False s (s.modeTake n) ∨ s.modeOk n = true ∧ Keeps False (s.moded (Mode.ofCode n)) (s.modeTake n) := by
  unfold State.modeTake
  split
  · exact .inl (State.modeRefuse_keeps _ (Keeps.refl s))
  · next hm => exact .inr ⟨by simpa using (not_or.1 hm).2, State.enterMode_keeps _⟩

/-- The same of the request that is due, which may be one of an earlier course than the one that waits. -/
theorem State.modeAct_moves {s : State} : ∃ w, Keeps False s w ∧
    (Keeps False w s.modeAct ∨ ∃ n, w.modeOk n = true ∧ Keeps False (w.moded (Mode.ofCode n)) s.modeAct) := by
  unfold State.modeAct
  split
  · next n _ =>
    extract_lets g0 u g1
    refine ⟨{ s with glb := { s.glb with reqOld := none } }, Keeps.updGlb (Keeps.refl s), ?_⟩
    rcases State.modeTake_moves (s := { s with glb := { s.glb with reqOld := none } }) n with k | ⟨ho, k⟩
    · exact .inl (Keeps.updGlb k)
    · exact .inr ⟨n, ho, Keeps.updGlb k⟩
  · refine ⟨s, Keeps.refl s, ?_⟩
    rcases State.modeTake_moves (s := s) s.glb.target with k | ⟨ho, k⟩
    · exact .inl k
    · exact .inr ⟨_, ho, k⟩

/-- R35: the fence sequence starts from a mode other than FENCED and OFF, or nothing happens. -/
theorem State.fenceAct_moves {s : State} :
    Keeps False s s.fenceAct ∨ s.mode ≠ .off ∧ ∃ u cause, Keeps False s u ∧ Keeps False (u.fencedFrom cause) s.fenceAct := by
  unfold State.fenceAct
  split
  · next cause _ =>
    split
    · next hc =>
      obtain ⟨u, h1, h2⟩ := State.enterFenced_keeps (r_ := False) (s := s) cause
      exact .inr ⟨hc.2.2, u, cause, h1, h2⟩
    · exact .inl (Keeps.refl s)
  · exact .inl (Keeps.refl s)

theorem execEnterFenced_moves {s t : State} (h : execEnterFenced s = .next t) :
    Keeps False s t ∨ s.mode ≠ .off ∧ ∃ u cause, Keeps False s u ∧ Keeps False (u.fencedFrom cause) t := by
  obtain rfl := Host.Outcome.next.inj h; exact State.fenceAct_moves

/-- R495, R496: an image is accepted from STRAP, or the failures are recorded. -/
theorem execBootFetchComplete_moves {s t : State} {l : List Nat} (h : execBootFetchComplete l s = .next t) :
    Keeps False s t ∨ s.mode = .strap ∧ ∃ u d, Keeps False s u ∧ Keeps False (u.booted d) t := by
  unfold execBootFetchComplete at h
  split at h
  · obtain rfl := Host.Outcome.next.inj h; exact .inl (Keeps.refl s)
  · next hm =>
    extract_lets done s1 at h
    have h1 : Keeps False s s1 := Keeps.foldl (Keeps.refl s) (fun u e hu => State.bootFailed_keeps _ _ (State.put_keeps _ _ hu))
    split at h
    · next k d _ =>
      obtain rfl := Host.Outcome.next.inj h
      obtain ⟨u, hu, ht⟩ := State.bootAccept_keeps (r_ := False) (s := s1) k d
      exact .inr ⟨Decidable.not_not.1 hm, u, d, h1.trans hu, ht⟩
    · obtain rfl := Host.Outcome.next.inj h; exact .inl h1

/-- R38: RESET_N ends a trip, and leaves nothing else but what a reset leaves. -/
theorem execResetNAssert_moves {s t : State} (h : execResetNAssert s = .next t) :
    Keeps True { s with glb := { s.glb with resetN := false, trip := false } } t := by
  unfold execResetNAssert at h
  extract_lets g0 u at h
  obtain rfl := Host.Outcome.next.inj h
  exact Keeps.ite (fun _ => Keeps.refl _) (fun _ => State.enterOff_keeps trivial (Keeps.refl _))

/-- R38: a rail out of its limits ends a trip, and leaves nothing else but what a reset leaves. -/
theorem execRailOutOfLimits_moves {s t : State} {rail : Nat} (h : execRailOutOfLimits rail s = .next t) :
    t = s ∨ Keeps True { s with glb := { s.glb with trip := false } } t := by
  unfold execRailOutOfLimits at h
  split at h
  · extract_lets g0 u at h
    obtain rfl := Host.Outcome.next.inj h
    have hu : Keeps True { s with glb := { s.glb with trip := false } } u := State.setRail_keeps _ _ (Keeps.refl _)
    exact .inr (Keeps.ite (fun _ => hu) (fun _ => State.enterOff_keeps trivial hu))
  · obtain rfl := Host.Outcome.next.inj h; exact .inl rfl

end Sys2Proof.Machine
end

