-- ==== Sys2Proof/Laws/KeepsTick.lean ====
section
/-! SUPPORT. Laws/Keeps.lean, for the operations of Machine/Tick.lean. -/
namespace Sys2Proof.Machine

theorem State.sampleGpio_keeps {r_ : Prop} {z s : State} (hk : Keeps r_ z s) : Keeps r_ z (State.sampleGpio s) := by
  unfold State.sampleGpio
  repeat' (first
    | with_reducible assumption
    | intro _
    | with_reducible apply State.level_keeps
    | (extract_lets)
    | split
    | with_reducible apply Keeps.updGlb
    | with_reducible apply Keeps.upd)

theorem State.countStalls_keeps {r_ : Prop} {z s : State} (hk : Keeps r_ z s) : Keeps r_ z (State.countStalls s) := by
  unfold State.countStalls
  repeat' (first
    | with_reducible assumption
    | intro _
    | with_reducible apply Keeps.ite
    | with_reducible apply Keeps.foldl
    | with_reducible apply PKeeps.foldl
    | with_reducible apply QKeeps.foldl
    | with_reducible apply State.bumpIf_keeps
    | with_reducible apply State.noteGates_keeps
    | (extract_lets)
    | split)

end Sys2Proof.Machine
end

