-- ==== Sys2Proof/Laws/KeepsExec.lean ====
section
/-! SUPPORT. What every command keeps (Laws/Keeps.lean), the six of Laws/KeepsMoves.lean apart, and what a command may do at
most to the mode, the lock, the tables and the queue. -/
namespace Sys2Proof.Machine

/-- Every command but the six that may change the mode or end a trip. -/
theorem exec_keeps (c : Instr) (s : State) (h1 : c ≠ .modeChange) (h2 : c ≠ .enterFenced) (h3 : ∀ l, c ≠ .bootFetchComplete l)
    (h4 : c ≠ .resetNAssert) (h5 : ∀ r, c ≠ .railOutOfLimits r) (h6 : c ≠ .courseBoundary) :
    OutKeeps True s (exec c s) := by
  have hk : Keeps True s s := Keeps.refl s
  cases c
  case resetDeassert => exact execResetDeassert_keeps _ _ _ trivial hk
  case romSelfTestDone => exact execRomSelfTestDone_keeps _ hk
  case resetNAssert => exact absurd rfl h4
  case railOutOfLimits => exact absurd rfl (h5 _)
  case fullReset => exact execFullReset_keeps _ _ trivial hk
  case hostPortReset => exact execHostPortReset_keeps _ _ hk
  case registerWrite => exact execRegisterWrite_keeps _ _ _ _ trivial hk
  case lowHalfRead => exact execLowHalfRead_keeps _ _ _ hk
  case setupLockSet => exact execSetupLockSet_keeps _ trivial hk
  case deviceIdWrite => exact execDeviceIdWrite_keeps _ _ trivial hk
  case modeReqWrite => exact execModeReqWrite_keeps _ _ trivial hk
  case modeChange => exact absurd rfl h1
  case enterFenced => exact absurd rfl h2
  case fencePeriodEnd => exact execFencePeriodEnd_keeps hk
  case courseBoundary => exact absurd rfl h6
  case referenceLoss => exact execReferenceLoss_keeps hk
  case courseMarkRx => exact execCourseMarkRx_keeps _ _ hk
  case followBetterRoot => exact execFollowBetterRoot_keeps hk
  case alignStep => exact execAlignStep_keeps hk
  case aligned => exact execAligned_keeps hk
  case alignLost => exact execAlignLost_keeps hk
  case alignCtrlWrite => exact execAlignCtrlWrite_keeps _ _ trivial hk
  case swapArm => exact execSwapArm_keeps _ trivial hk
  case swapDisarm => exact execSwapDisarm_keeps _ trivial hk
  case shadowCopy => exact execShadowCopy_keeps _ trivial hk
  case copyDone => exact execCopyDone_keeps hk
  case shadowWrite => exact execShadowWrite_keeps _ _ _ trivial hk
  case swapTakeEffect => exact execSwapTakeEffect_keeps hk
  case shadowBusyEnd => exact execShadowBusyEnd_keeps hk
  case codewordRx => exact execCodewordRx_keeps _ _ _ hk
  case fecLockLost => exact execFecLockLost_keeps _ hk
  case markerTx => exact execMarkerTx_keeps _ hk
  case markerRx => exact execMarkerRx_keeps _ _ hk
  case markerLockLost => exact execMarkerLockLost_keeps _ hk
  case sleepWake => exact execSleepWake_keeps _ _ hk
  case trainingFrameRx => exact execTrainingFrameRx_keeps _ _ _ hk
  case frameLock => exact execFrameLock_keeps _ hk
  case tapResponse => exact execTapResponse_keeps _ hk
  case tapResponseTimeout => exact execTapResponseTimeout_keeps _ hk
  case rxReady => exact execRxReady_keeps _ _ _ hk
  case dataStart => exact execDataStart_keeps _ hk
  case trainAttemptTimeout => exact execTrainAttemptTimeout_keeps _ hk
  case signalAbsentTimeout => exact execSignalAbsentTimeout_keeps _ hk
  case signalReturn => exact execSignalReturn_keeps _ hk
  case laneRestart => exact execLaneRestart_keeps _ hk
  case pllLossOfLock => exact execPllLossOfLock_keeps _ hk
  case pllRelock => exact execPllRelock_keeps _ hk
  case testEnter => exact execTestEnter_keeps _ _ hk
  case testExit => exact execTestExit_keeps _ _ hk
  case prbsInjectOne => exact execPrbsInjectOne_keeps _ hk
  case prbsCheckerLock => exact execPrbsCheckerLock_keeps _ _ _ _ _ hk
  case fecInject => exact execFecInject_keeps _ hk
  case sequencedBrickRx => exact execSequencedBrickRx_keeps _ _ _ _ _ hk
  case brickCrcError => exact execBrickCrcError_keeps _ hk
  case reservedBrickRx => exact execReservedBrickRx_keeps _ hk
  case controlBrickRx => exact execControlBrickRx_keeps _ _ _ _ hk
  case abortBrickRx => exact execAbortBrickRx_keeps _ _ _ _ hk
  case fenceBrickRx => exact execFenceBrickRx_keeps _ hk
  case initBrickRx => exact execInitBrickRx_keeps _ _ hk
  case brickTx => exact execBrickTx_keeps _ hk
  case controlBrickTx => exact execControlBrickTx_keeps _ hk
  case replayBrickTx => exact execReplayBrickTx_keeps _ hk
  case replayTimerExpiry => exact execReplayTimerExpiry_keeps _ hk
  case linkInitStart => exact execLinkInitStart_keeps _ hk
  case initTimeout => exact execInitTimeout_keeps _ hk
  case keepaliveTimeout => exact execKeepaliveTimeout_keeps _ hk
  case phyDown => exact execPhyDown_keeps _ hk
  case phyUp => exact execPhyUp_keeps _ hk
  case linkReinit => exact execLinkReinit_keeps _ hk
  case packetRoute => exact execPacketRoute_keeps _ hk
  case congRowRx => exact execCongRowRx_keeps _ hk
  case congColRx => exact execCongColRx_keeps _ hk
  case congColTx => exact execCongColTx_keeps hk
  case portDead => exact execPortDead_keeps _ hk
  case portRevive => exact execPortRevive_keeps _ hk
  case portRoleWrite => exact execPortRoleWrite_keeps _ _ _ trivial hk
  case lifeWrite => exact execLifeWrite_keeps _ _ trivial hk
  case packetInject => exact execPacketInject_keeps _ hk
  case deferredRetest => exact execDeferredRetest_keeps hk
  case outputSchedule => exact execOutputSchedule_keeps _ hk
  case sqDoorbell => exact execSqDoorbell_keeps _ _ _ _ hk
  case cqDoorbell => exact execCqDoorbell_keeps _ _ _ _ hk
  case eqDoorbell => exact execEqDoorbell_keeps _ _ _ _ hk
  case deviceEqDoorbell => exact execDeviceEqDoorbell_keeps _ _ _ hk
  case epCreate => exact execEpCreate_keeps _ hk
  case epDestroy => exact execEpDestroy_keeps _ hk
  case epDestroyComplete => exact execEpDestroyComplete_keeps _ hk
  case epQuarantineEnd => exact execEpQuarantineEnd_keeps _ hk
  case sqCreate => exact execSqCreate_keeps _ hk
  case sqDestroy => exact execSqDestroy_keeps _ hk
  case sqDestroyComplete => exact execSqDestroyComplete_keeps _ hk
  case sqRestart => exact execSqRestart_keeps _ hk
  case cqCreate => exact execCqCreate_keeps _ hk
  case cqDestroy => exact execCqDestroy_keeps _ hk
  case cqReset => exact execCqReset_keeps _ hk
  case eqCreate => exact execEqCreate_keeps _ hk
  case eqDestroy => exact execEqDestroy_keeps _ hk
  case fnCmdUndefined => exact execFnCmdUndefined_keeps _ _ hk
  case fnGroupsWrite => exact execFnGroupsWrite_keeps _ _ _ hk
  case flr => exact execFlr_keeps _ hk
  case flrComplete => exact execFlrComplete_keeps _ hk
  case workFetch => exact execWorkFetch_keeps hk
  case descriptorReadReturn => exact execDescriptorReadReturn_keeps _ _ hk
  case nop => exact execNop_keeps _ hk
  case entryRetire => exact execEntryRetire_keeps _ hk
  case flushCompletion => exact execFlushCompletion_keeps _ hk
  case cqOverflow => exact execCqOverflow_keeps _ hk
  case eventsLost => exact execEventsLost_keeps _ hk
  case pageWalk => exact execPageWalk_keeps _ hk
  case walkReadReturn => exact execWalkReadReturn_keeps _ _ _ hk
  case tlbAgeExpiry => exact execTlbAgeExpiry_keeps _ hk
  case xltInvAddr => exact execXltInvAddr_keeps _ hk
  case xltInvAs => exact execXltInvAs_keeps _ hk
  case xltInvFn => exact execXltInvFn_keeps _ hk
  case xltInvAll => exact execXltInvAll_keeps _ hk
  case xltInvComplete => exact execXltInvComplete_keeps _ hk
  case xltLock => exact execXltLock_keeps _ hk
  case xltUnlock => exact execXltUnlock_keeps _ hk
  case contextLoad => exact execContextLoad_keeps _ _ hk
  case contextEvict => exact execContextEvict_keeps _ hk
  case transportSend => exact execTransportSend_keeps _ _ hk
  case transportRx => exact execTransportRx_keeps _ hk
  case ackCoalesceExpiry => exact execAckCoalesceExpiry_keeps _ _ hk
  case ackRateRelease => exact execAckRateRelease_keeps _ _ hk
  case ackRx => exact execAckRx_keeps _ hk
  case resultRx => exact execResultRx_keeps hk
  case retxTimerExpiry => exact execRetxTimerExpiry_keeps _ _ hk
  case earlyRetx => exact execEarlyRetx_keeps _ _ hk
  case generationRoll => exact execGenerationRoll_keeps _ hk
  case ctxErrorExit => exact execCtxErrorExit_keeps _ hk
  case rnrResend => exact execRnrResend_keeps _ hk
  case responseTimeout => exact execResponseTimeout_keeps _ hk
  case keySet => exact execKeySet_keeps _ trivial hk
  case keyClear => exact execKeyClear_keeps _ trivial hk
  case regionSet => exact execRegionSet_keeps _ trivial hk
  case regionClear => exact execRegionClear_keeps _ trivial hk
  case ctxReset => exact execCtxReset_keeps _ trivial hk
  case ctxFlush => exact execCtxFlush_keeps _ trivial hk
  case msgSend => exact execMsgSend_keeps _ hk
  case msgPost => exact execMsgPost_keeps _ hk
  case msgCancel => exact execMsgCancel_keeps _ hk
  case msgProbe => exact execMsgProbe_keeps _ hk
  case msgMrecv => exact execMsgMrecv_keeps _ hk
  case msgPostLb => exact execMsgPostLb_keeps _ hk
  case eagerRx => exact execEagerRx_keeps hk
  case rtsRx => exact execRtsRx_keeps hk
  case rvGetRx => exact execRvGetRx_keeps hk
  case rvDataRx => exact execRvDataRx_keeps hk
  case skipRx => exact execSkipRx_keeps hk
  case skipSend => exact execSkipSend_keeps hk
  case overflowRefill => exact execOverflowRefill_keeps _ _ hk
  case rvWaitTimeout => exact execRvWaitTimeout_keeps _ hk
  case rmaPut => exact execRmaPut_keeps _ hk
  case rmaGet => exact execRmaGet_keeps _ hk
  case rmaPutNotify => exact execRmaPutNotify_keeps _ hk
  case rmaAtomic => exact execRmaAtomic_keeps _ hk
  case keyReg => exact execKeyReg_keeps _ hk
  case keyRevoke => exact execKeyRevoke_keeps _ hk
  case keyRevokeComplete => exact execKeyRevokeComplete_keeps _ hk
  case keyQuarantineEnd => exact execKeyQuarantineEnd_keeps _ hk
  case keyInv => exact execKeyInv_keeps _ hk
  case keyInvComplete => exact execKeyInvComplete_keeps _ hk
  case putRx => exact execPutRx_keeps hk
  case getRx => exact execGetRx_keeps hk
  case atomicRx => exact execAtomicRx_keeps hk
  case atomicExecute => exact execAtomicExecute_keeps _ hk
  case atomicopCompletion => exact execAtomicopCompletion_keeps _ _ hk
  case getDataRx => exact execGetDataRx_keeps hk
  case atomicDataRx => exact execAtomicDataRx_keeps hk
  case cellAcquire => exact execCellAcquire_keeps _ hk
  case cellTry => exact execCellTry_keeps _ hk
  case cellRelease => exact execCellRelease_keeps _ hk
  case cellWithdraw => exact execCellWithdraw_keeps _ hk
  case flAcquire => exact execFlAcquire_keeps _ hk
  case flRelease => exact execFlRelease_keeps _ hk
  case flRenew => exact execFlRenew_keeps _ hk
  case flBreak => exact execFlBreak_keeps _ hk
  case flPollSend => exact execFlPollSend_keeps _ hk
  case flTakeRx => exact execFlTakeRx_keeps _ hk
  case flPollRx => exact execFlPollRx_keeps _ hk
  case flReleaseRx => exact execFlReleaseRx_keeps _ hk
  case flReleaseAbandonedRx => exact execFlReleaseAbandonedRx_keeps _ hk
  case flRenewRx => exact execFlRenewRx_keeps _ hk
  case flBreakRx => exact execFlBreakRx_keeps _ hk
  case flReplyRx => exact execFlReplyRx_keeps hk
  case colJoin => exact execColJoin_keeps _ hk
  case colLeave => exact execColLeave_keeps _ hk
  case colOp => exact execColOp_keeps _ hk
  case memberChunkRead => exact execMemberChunkRead_keeps _ _ _ hk
  case colUpRx => exact execColUpRx_keeps hk
  case chunkSendUp => exact execChunkSendUp_keeps _ hk
  case colDownRx => exact execColDownRx_keeps hk
  case colAbortRx => exact execColAbortRx_keeps hk
  case colOpTimeout => exact execColOpTimeout_keeps _ hk
  case colTreeWrite => exact execColTreeWrite_keeps _ _ _ _ trivial hk
  case treeKeySet => exact execTreeKeySet_keeps _ trivial hk
  case resume => exact execResume_keeps _ trivial hk
  case treeResumeEffect => exact execTreeResumeEffect_keeps _ hk
  case windowEntryWrite => exact execWindowEntryWrite_keeps _ _ _ _ _ trivial hk
  case bar4Write => exact execBar4Write_keeps _ _ _ _ hk
  case windowWriteSend => exact execWindowWriteSend_keeps _ hk
  case bar4Read => exact execBar4Read_keeps _ _ _ _ _ hk
  case windowReadComplete => exact execWindowReadComplete_keeps _ hk
  case windowReadTimeout => exact execWindowReadTimeout_keeps _ hk
  case windowWriteFail => exact execWindowWriteFail_keeps _ hk
  case prefetchExpiry => exact execPrefetchExpiry_keeps _ hk
  case mctpPacketRx => exact execMctpPacketRx_keeps _ _ _ hk
  case lintelRecordRx => exact execLintelRecordRx_keeps hk
  case mctpSend => exact execMctpSend_keeps _ _ hk
  case alertPull => exact execAlertPull_keeps _ _ _ hk
  case i3cIbiRx => exact execI3cIbiRx_keeps _ _ _ _ hk
  case sidebandChange => exact execSidebandChange_keeps _ hk
  case faultForce => exact execFaultForce_keeps _ _ _ _ trivial hk
  case forcedConsequence => exact execForcedConsequence_keeps _ _ hk
  case faultStatusClear => exact execFaultStatusClear_keeps _ _ _ _ trivial hk
  case sliceStart => exact execSliceStart_keeps hk
  case run => exact execRun_keeps _ _ _ hk
  case unitReady => exact execUnitReady_keeps hk
  case sliceSkip => exact execSliceSkip_keeps hk
  case testComplete => exact execTestComplete_keeps _ _ hk
  case sliceAbort => exact execSliceAbort_keeps hk
  case fuse => exact execFuse_keeps _ _ _ hk
  case bootMboxGo => exact execBootMboxGo_keeps _ hk
  case bootFetchComplete => exact absurd rfl (h3 _)
  case fwReqTimeout => exact execFwReqTimeout_keeps _ hk
  case fwFetchRetry => exact execFwFetchRetry_keeps _ hk
  case fwDataRx => exact execFwDataRx_keeps hk
  case fwReqRx => exact execFwReqRx_keeps hk
  case mgmtForward => exact execMgmtForward_keeps hk
  case mgReadRx => exact execMgReadRx_keeps trivial hk
  case mgWriteRx => exact execMgWriteRx_keeps trivial hk
  case mgMsgRx => exact execMgMsgRx_keeps hk
  case mgRespRx => exact execMgRespRx_keeps hk
  case mailboxRead => exact execMailboxRead_keeps _ _ hk
  case mailboxWrite => exact execMailboxWrite_keeps _ _ hk
  case mailboxMsg => exact execMailboxMsg_keeps _ _ hk
  case mailboxRetry => exact execMailboxRetry_keeps _ hk
  case mcStart => exact execMcStart_keeps _ _ hk
  case mcReset => exact execMcReset_keeps _ _ hk
  case mcException => exact execMcException_keeps _ hk
  case readbackCapture => exact execReadbackCapture_keeps _ _ trivial hk
  case monHelp => exact execMonHelp_keeps _ hk
  case monId => exact execMonId_keeps _ hk
  case monRd => exact execMonRd_keeps _ hk
  case monRbk => exact execMonRbk_keeps _ hk
  case monFlt => exact execMonFlt_keeps _ hk
  case monTime => exact execMonTime_keeps _ hk
  case monBoot => exact execMonBoot_keeps _ hk
  case monUnlock => exact execMonUnlock_keeps _ hk
  case monResp => exact execMonResp_keeps _ hk
  case monLock => exact execMonLock_keeps _ hk
  case monWr => exact execMonWr_keeps _ trivial hk
  case monMode => exact execMonMode_keeps _ trivial hk
  case monBaud => exact execMonBaud_keeps _ hk
  case monMcrun => exact execMonMcrun_keeps _ hk
  case monFuse => exact execMonFuse_keeps _ _ hk
  case monReset => exact execMonReset_keeps _ trivial hk
  case monLineInvalid => exact execMonLineInvalid_keeps _ hk
  case monitorIdleTimeout => exact execMonitorIdleTimeout_keeps hk
  case unlockLockoutEnd => exact execUnlockLockoutEnd_keeps hk
  case thermalConversion => exact execThermalConversion_keeps _ _ hk
  case railWithinLimits => exact execRailWithinLimits_keeps _ hk
  case perstNDeassert => exact execPerstNDeassert_keeps _ _ _ hk
  case frameLockLost => exact execFrameLockLost_keeps _ hk
  case initBrickTx => exact execInitBrickTx_keeps _ hk
  case sleepMaskWrite => exact execSleepMaskWrite_keeps _ _ hk
  case orderRecordReadReturn => exact execOrderRecordReadReturn_keeps _ _ hk
  case overflowRecordReadReturn => exact execOverflowRecordReadReturn_keeps _ _ hk
  case keyDescriptorReadReturn => exact execKeyDescriptorReadReturn_keeps _ _ hk
  case targetDataReadReturn => exact execTargetDataReadReturn_keeps _ _ hk
  case bootImageReadReturn => exact execBootImageReadReturn_keeps _ hk
  case prbsRateInjection => exact execPrbsRateInjection_keeps _ hk

/-- What every command leaves of the state, whatever it does: `Keeps` without the trip, and the mode moved as R29 lists. -/
structure Moves (s t : State) : Prop where
  queue : t.pending = s.pending
  outs : s.out <+: t.out
  frees : s.free ≤ t.free
  canon : Sys2Proof.canonical s → Sys2Proof.canonical t
  clock : Sys2Proof.clockOk s → Sys2Proof.clockOk t
  mode : modeMove s.mode t.mode = true
  lock : s.glb.lock = true → t.glb.lock = true ∨ t.mode = .off ∨ t.mode = .strap

theorem modeMove_self (m) : modeMove m m = true := by cases m <;> rfl
theorem modeMove_off (m) : modeMove m .off = true := by cases m <;> rfl
theorem modeMove_strap (m) : modeMove m .strap = true := by cases m <;> rfl

theorem Keeps.moves {r : Prop} {s t : State} (h : Keeps r s t) : Moves s t := by
  refine ⟨h.queue, h.outs, h.frees, h.canon, h.clock, ?_, fun x => ?_⟩
  · rcases h.mode with e | ⟨_, e | e⟩ <;> rw [e]
    · exact modeMove_self _
    · exact modeMove_off _
    · exact modeMove_strap _
  · rcases h.lock x with e | ⟨_, e⟩
    · exact .inl e
    · exact .inr e

theorem Keeps.mode_eq {s t : State} (h : Keeps False s t) : t.mode = s.mode := by
  rcases h.mode with e | ⟨f, _⟩
  · exact e
  · exact f.elim
theorem Keeps.lock_of {s t : State} (h : Keeps False s t) (x : s.glb.lock = true) : t.glb.lock = true := by
  rcases h.lock x with e | ⟨f, _⟩
  · exact e
  · exact f.elim

theorem modeOk_move {s : State} {n : Nat} (h : s.modeOk n = true) : modeMove s.mode (Mode.ofCode n) = true := by
  unfold State.modeOk at h
  split at h <;> simp_all [modeMove]

theorem execEnterFenced_moves_listed {s t} (h : exec .enterFenced s = .next t) : Moves s t := by
  rcases execEnterFenced_moves h with k | ⟨ho, u, c, k1, k2⟩
  · exact k.moves
  · refine ⟨k2.queue.trans k1.queue, k1.outs.trans k2.outs, Nat.le_trans k1.frees k2.frees, fun x => k2.canon (k1.canon x), fun x => k2.clock (k1.clock x), ?_, fun x => .inl (k2.lock_of (k1.lock_of x))⟩
    rw [k2.mode_eq]
    show modeMove s.mode .fenced = true
    cases hm : s.mode <;> first | rfl | exact absurd hm ho
theorem execBootFetchComplete_moves_listed {s t l} (h : exec (.bootFetchComplete l) s = .next t) : Moves s t := by
  rcases execBootFetchComplete_moves h with k | ⟨ho, u, d, k1, k2⟩
  · exact k.moves
  · refine ⟨k2.queue.trans k1.queue, k1.outs.trans k2.outs, Nat.le_trans k1.frees k2.frees, fun x => k2.canon (k1.canon x), fun x => k2.clock ⟨by show 0 < 1280; decide, (k1.clock x).2⟩, ?_, fun x => .inl (k2.lock_of (k1.lock_of x))⟩
    rw [k2.mode_eq, ho]; rfl
theorem execResetNAssert_moves_listed {s t} (h : exec .resetNAssert s = .next t) : Moves s t := by
  have k := (execResetNAssert_moves h).moves
  exact ⟨k.queue, k.outs, k.frees, k.canon, k.clock, k.mode, k.lock⟩
theorem execRailOutOfLimits_moves_listed {s t r} (h : exec (.railOutOfLimits r) s = .next t) : Moves s t := by
  rcases execRailOutOfLimits_moves h with rfl | k
  · exact (Keeps.refl (r := True) _).moves
  · have k := k.moves
    exact ⟨k.queue, k.outs, k.frees, k.canon, k.clock, k.mode, k.lock⟩

/-! ### A cycle without a command -/

theorem Moves.refl (s : State) : Moves s s := (Keeps.refl (r := True) s).moves

/-- Work that keeps the mode, before. -/
theorem Keeps.thenMoves {a b c : State} (h : Keeps False a b) (k : Moves b c) : Moves a c :=
  ⟨k.queue.trans h.queue, h.outs.trans k.outs, Nat.le_trans h.frees k.frees, fun x => k.canon (h.canon x), fun x => k.clock (h.clock x),
    by rw [← h.mode_eq]; exact k.mode, fun x => k.lock (h.lock_of x)⟩
/-- Work that keeps the mode, after. -/
theorem Moves.thenKeeps {a b c : State} (h : Moves a b) (k : Keeps False b c) : Moves a c :=
  ⟨k.queue.trans h.queue, h.outs.trans k.outs, Nat.le_trans h.frees k.frees, fun x => k.canon (h.canon x), fun x => k.clock (h.clock x),
    by rw [k.mode_eq]; exact h.mode, fun x => (h.lock x).imp (fun y => k.lock_of y) (fun y => by rw [k.mode_eq]; exact y)⟩

/-- `Moves`, and a thermal trip stays in force. -/
structure MovesOn (s t : State) : Prop where
  moves : Moves s t
  trip : s.glb.trip = true → t.glb.trip = true
theorem Keeps.movesOn {r : Prop} {s t : State} (h : Keeps r s t) : MovesOn s t := ⟨h.moves, h.trip⟩
theorem Keeps.thenMovesOn {a b c : State} (h : Keeps False a b) (k : MovesOn b c) : MovesOn a c :=
  ⟨h.thenMoves k.moves, fun x => k.trip (h.trip x)⟩
theorem MovesOn.thenKeeps {a b c : State} (h : MovesOn a b) (k : Keeps False b c) : MovesOn a c :=
  ⟨h.moves.thenKeeps k, fun x => k.trip (h.trip x)⟩

theorem State.modeAct_movesOn (s : State) : MovesOn s s.modeAct := by
  obtain ⟨w, hw, k | ⟨n, ho, k⟩⟩ := State.modeAct_moves (s := s)
  · exact (hw.trans k).movesOn
  · refine hw.thenMovesOn ⟨⟨k.queue, k.outs, k.frees, k.canon, k.clock, ?_, fun x => .inl (k.lock_of x)⟩, fun x => k.trip x⟩
    rw [k.mode_eq]; exact modeOk_move ho

theorem execModeChange_movesOn {s t} (h : exec .modeChange s = .next t) : MovesOn s t := by
  replace h : execModeChange s = .next t := h
  unfold execModeChange at h
  split at h
  · obtain rfl := Host.Outcome.next.inj h; exact State.modeAct_movesOn s
  · obtain rfl := Host.Outcome.next.inj h; exact (Keeps.refl (r := True) _).movesOn

/-- FENCED is entered, or the mode is as it was. -/
theorem State.fenceAct_movesOn (s : State) : MovesOn s s.fenceAct ∧ (s.fenceAct.mode = .fenced ∨ Keeps False s s.fenceAct) := by
  rcases State.fenceAct_moves (s := s) with k | ⟨ho, u, c, k1, k2⟩
  · exact ⟨k.movesOn, .inr k⟩
  · have hf : s.fenceAct.mode = .fenced := k2.mode_eq
    refine ⟨⟨⟨k2.queue.trans k1.queue, k1.outs.trans k2.outs, Nat.le_trans k1.frees k2.frees, fun x => k2.canon (k1.canon x),
      fun x => k2.clock (k1.clock x), ?_, fun x => .inl (k2.lock_of (k1.lock_of x))⟩, fun x => k2.trip (k1.trip x)⟩, .inl hf⟩
    rw [hf]
    cases hm : s.mode <;> first | rfl | exact absurd hm ho

/-- R68: what is due at cycle 0: of the fence and the mode change, one at most takes effect. -/
theorem State.cycleZero_movesOn (s : State) : MovesOn s s.cycleZero := by
  unfold State.cycleZero
  extract_lets s1 s2 s3 s4
  have h1 : MovesOn s s2 := by
    have h0 : Keeps False s (if s.swapDue = true then s.swapNow else s) := Keeps.ite (fun _ => State.swapNow_keeps (Keeps.refl s)) (fun _ => Keeps.refl s)
    have hf := State.fenceAct_movesOn (if s.swapDue = true then s.swapNow else s)
    have e : s2 = if s1.modeDue = true then s1.modeAct else s1 := rfl
    rcases hf.2 with hm | hk
    · have hn : s1.modeDue = false := by
        have hm : s1.mode = .fenced := hm
        simp [State.modeDue, hm]
      rw [e, hn]
      exact h0.thenMovesOn hf.1
    · have hk : Keeps False s s1 := h0.trans hk
      rw [e]
      split
      · exact hk.thenMovesOn (State.modeAct_movesOn s1)
      · exact hk.movesOn
  have h3 : MovesOn s s3 := h1.thenKeeps (Keeps.ite (fun _ => State.alignStep_keeps (Keeps.refl s2)) (fun _ => Keeps.refl s2))
  refine h3.thenKeeps (State.resumeTrees_keeps ?_)
  show Keeps False s3 (match s3.followDue with | some r => s3.followRoot r | none => s3)
  split
  · exact State.followRoot_keeps _ (Keeps.refl s3)
  · exact Keeps.refl s3

theorem State.nextCycle_movesOn (s : State) : MovesOn s s.nextCycle := by
  unfold State.nextCycle
  split
  · exact (State.pass_keeps 1 (Keeps.refl s)).thenMovesOn (State.fenceAct_movesOn (s.pass 1)).1
  · extract_lets s1
    have h1 : MovesOn s s1 := by
      show MovesOn s (if s.crs.cycle = 0 then s.cycleZero else s)
      split
      · exact State.cycleZero_movesOn s
      · exact (Keeps.refl (r := True) s).movesOn
    refine h1.thenKeeps (Keeps.ite (fun h => State.setTime_keeps _ _ (fun _ => by omega) (State.pass_keeps 1 (Keeps.refl s1))) (fun _ => State.courseBoundary_keeps (Keeps.refl s1)))

/-- Every cycle without a command. -/
theorem State.tick_movesOn (s : State) : MovesOn s s.tick := by
  unfold State.tick
  split
  · exact (Keeps.refl (r := True) s).movesOn
  · exact (State.nextCycle_movesOn s).thenKeeps
      (State.settle_keeps (State.bootTick_keeps (State.countStalls_keeps (State.sampleGpio_keeps (State.forceTick_keeps (Keeps.refl _))))))

/-- R69: a course boundary given as a command; at cycle 0 what is due there comes first. -/
theorem execCourseBoundary_movesOn {s t} (h : exec .courseBoundary s = .next t) : MovesOn s t := by
  replace h : execCourseBoundary s = .next t := h
  unfold execCourseBoundary at h
  split at h
  · obtain rfl := Host.Outcome.next.inj h
    have h1 : MovesOn s (if s.crs.cycle = 0 then s.cycleZero else s) := by
      split
      · exact State.cycleZero_movesOn s
      · exact (Keeps.refl (r := True) s).movesOn
    exact h1.thenKeeps (State.forceTick_keeps (State.courseBoundary_keeps (Keeps.refl _)))
  · obtain rfl := Host.Outcome.next.inj h; exact (Keeps.refl (r := True) _).movesOn

/-- Every command. -/
theorem exec_moves {c : Instr} {s t : State} (h : exec c s = .next t) : Moves s t := by
  by_cases h1 : c = .modeChange
  · subst h1; exact (execModeChange_movesOn h).moves
  by_cases h2 : c = .enterFenced
  · subst h2; exact execEnterFenced_moves_listed h
  by_cases h3 : ∃ l, c = .bootFetchComplete l
  · obtain ⟨l, rfl⟩ := h3; exact execBootFetchComplete_moves_listed h
  by_cases h4 : c = .resetNAssert
  · subst h4; exact execResetNAssert_moves_listed h
  by_cases h5 : ∃ r, c = .railOutOfLimits r
  · obtain ⟨r, rfl⟩ := h5; exact execRailOutOfLimits_moves_listed h
  by_cases h6 : c = .courseBoundary
  · subst h6; exact (execCourseBoundary_movesOn h).moves
  · exact ((exec_keeps c s h1 h2 (fun l e => h3 ⟨l, e⟩) h4 (fun r e => h5 ⟨r, e⟩) h6).out t h).moves

end Sys2Proof.Machine
end

