-- ==== Sys2Proof/Laws/Stays.lean ====
section
/-! SUPPORT. Which parts of the state an operation writes: for each, the list of the parts it may change; every other part is as
it was. This file: the relation (Safety.lean's `OnlyWrites`) and the operations that every other is built of. -/
namespace Sys2Proof.Machine
open Sys2Proof (Part)

/-- Every part of a list is in another. -/
structure Has (l w : List Part) : Prop where
  all : ∀ p ∈ l, p ∈ w
theorem Has.sub {l k w : List Part} (h : Has l w) (e : ∀ p ∈ k, p ∈ l) : Has k w := ⟨fun p hp => h.all p (e p hp)⟩
theorem Has.mem {l w : List Part} {p : Part} (h : Has l w) (e : p ∈ l) : p ∈ w := h.all p e

/-- From state `a` on, the work up to state `s` has written no part but those of `w`. -/
abbrev Stays (w : List Part) (a s : State) : Prop := Sys2Proof.OnlyWrites w a s

theorem Stays.refl {w : List Part} (a : State) : Stays w a a := by
  constructor <;> exact fun _ => rfl

theorem Stays.set_banks {w : List Part} {a s : State} {vbanks} (h : Stays w a s) (hbanks : Part.banks ∈ w) :
    Stays w a (State.mk s.mode s.glb s.crs s.regs s.sets s.ctrs s.latches s.srcs vbanks s.phy s.lnk s.rte s.sch s.hif s.trn s.mch
    s.rma s.lck s.brg s.col s.ltl s.bst s.mgt s.xlt s.out s.free s.pending) :=
  ⟨h.mode, h.glb, h.crs, h.regs, h.sets, h.ctrs, h.latches, h.srcs, fun k => absurd hbanks k, h.phy, h.lnk, h.rte, h.sch, h.hif,
    h.trn, h.mch, h.rma, h.lck, h.brg, h.col, h.ltl, h.bst, h.mgt, h.xlt, h.out, h.free, h.pending⟩

theorem Stays.set_brg {w : List Part} {a s : State} {vbrg} (h : Stays w a s) (hbrg : Part.brg ∈ w) :
    Stays w a (State.mk s.mode s.glb s.crs s.regs s.sets s.ctrs s.latches s.srcs s.banks s.phy s.lnk s.rte s.sch s.hif s.trn s.mch
    s.rma s.lck vbrg s.col s.ltl s.bst s.mgt s.xlt s.out s.free s.pending) :=
  ⟨h.mode, h.glb, h.crs, h.regs, h.sets, h.ctrs, h.latches, h.srcs, h.banks, h.phy, h.lnk, h.rte, h.sch, h.hif, h.trn, h.mch,
    h.rma, h.lck, fun k => absurd hbrg k, h.col, h.ltl, h.bst, h.mgt, h.xlt, h.out, h.free, h.pending⟩

theorem Stays.set_bst {w : List Part} {a s : State} {vbst} (h : Stays w a s) (hbst : Part.bst ∈ w) :
    Stays w a (State.mk s.mode s.glb s.crs s.regs s.sets s.ctrs s.latches s.srcs s.banks s.phy s.lnk s.rte s.sch s.hif s.trn s.mch
    s.rma s.lck s.brg s.col s.ltl vbst s.mgt s.xlt s.out s.free s.pending) :=
  ⟨h.mode, h.glb, h.crs, h.regs, h.sets, h.ctrs, h.latches, h.srcs, h.banks, h.phy, h.lnk, h.rte, h.sch, h.hif, h.trn, h.mch,
    h.rma, h.lck, h.brg, h.col, h.ltl, fun k => absurd hbst k, h.mgt, h.xlt, h.out, h.free, h.pending⟩

theorem Stays.set_col {w : List Part} {a s : State} {vcol} (h : Stays w a s) (hcol : Part.col ∈ w) :
    Stays w a (State.mk s.mode s.glb s.crs s.regs s.sets s.ctrs s.latches s.srcs s.banks s.phy s.lnk s.rte s.sch s.hif s.trn s.mch
    s.rma s.lck s.brg vcol s.ltl s.bst s.mgt s.xlt s.out s.free s.pending) :=
  ⟨h.mode, h.glb, h.crs, h.regs, h.sets, h.ctrs, h.latches, h.srcs, h.banks, h.phy, h.lnk, h.rte, h.sch, h.hif, h.trn, h.mch,
    h.rma, h.lck, h.brg, fun k => absurd hcol k, h.ltl, h.bst, h.mgt, h.xlt, h.out, h.free, h.pending⟩

theorem Stays.set_crs {w : List Part} {a s : State} {vcrs} (h : Stays w a s) (hcrs : Part.crs ∈ w) :
    Stays w a (State.mk s.mode s.glb vcrs s.regs s.sets s.ctrs s.latches s.srcs s.banks s.phy s.lnk s.rte s.sch s.hif s.trn s.mch
    s.rma s.lck s.brg s.col s.ltl s.bst s.mgt s.xlt s.out s.free s.pending) :=
  ⟨h.mode, h.glb, fun k => absurd hcrs k, h.regs, h.sets, h.ctrs, h.latches, h.srcs, h.banks, h.phy, h.lnk, h.rte, h.sch, h.hif,
    h.trn, h.mch, h.rma, h.lck, h.brg, h.col, h.ltl, h.bst, h.mgt, h.xlt, h.out, h.free, h.pending⟩

theorem Stays.set_ctrs {w : List Part} {a s : State} {vctrs} (h : Stays w a s) (hctrs : Part.ctrs ∈ w) :
    Stays w a (State.mk s.mode s.glb s.crs s.regs s.sets vctrs s.latches s.srcs s.banks s.phy s.lnk s.rte s.sch s.hif s.trn s.mch
    s.rma s.lck s.brg s.col s.ltl s.bst s.mgt s.xlt s.out s.free s.pending) :=
  ⟨h.mode, h.glb, h.crs, h.regs, h.sets, fun k => absurd hctrs k, h.latches, h.srcs, h.banks, h.phy, h.lnk, h.rte, h.sch, h.hif,
    h.trn, h.mch, h.rma, h.lck, h.brg, h.col, h.ltl, h.bst, h.mgt, h.xlt, h.out, h.free, h.pending⟩

theorem Stays.set_free {w : List Part} {a s : State} {vfree} (h : Stays w a s) (hfree : Part.free ∈ w) :
    Stays w a (State.mk s.mode s.glb s.crs s.regs s.sets s.ctrs s.latches s.srcs s.banks s.phy s.lnk s.rte s.sch s.hif s.trn s.mch
    s.rma s.lck s.brg s.col s.ltl s.bst s.mgt s.xlt s.out vfree s.pending) :=
  ⟨h.mode, h.glb, h.crs, h.regs, h.sets, h.ctrs, h.latches, h.srcs, h.banks, h.phy, h.lnk, h.rte, h.sch, h.hif, h.trn, h.mch,
    h.rma, h.lck, h.brg, h.col, h.ltl, h.bst, h.mgt, h.xlt, h.out, fun k => absurd hfree k, h.pending⟩

theorem Stays.set_glb {w : List Part} {a s : State} {vglb} (h : Stays w a s) (hglb : Part.glb ∈ w) :
    Stays w a (State.mk s.mode vglb s.crs s.regs s.sets s.ctrs s.latches s.srcs s.banks s.phy s.lnk s.rte s.sch s.hif s.trn s.mch
    s.rma s.lck s.brg s.col s.ltl s.bst s.mgt s.xlt s.out s.free s.pending) :=
  ⟨h.mode, fun k => absurd hglb k, h.crs, h.regs, h.sets, h.ctrs, h.latches, h.srcs, h.banks, h.phy, h.lnk, h.rte, h.sch, h.hif,
    h.trn, h.mch, h.rma, h.lck, h.brg, h.col, h.ltl, h.bst, h.mgt, h.xlt, h.out, h.free, h.pending⟩

theorem Stays.set_hif {w : List Part} {a s : State} {vhif} (h : Stays w a s) (hhif : Part.hif ∈ w) :
    Stays w a (State.mk s.mode s.glb s.crs s.regs s.sets s.ctrs s.latches s.srcs s.banks s.phy s.lnk s.rte s.sch vhif s.trn s.mch
    s.rma s.lck s.brg s.col s.ltl s.bst s.mgt s.xlt s.out s.free s.pending) :=
  ⟨h.mode, h.glb, h.crs, h.regs, h.sets, h.ctrs, h.latches, h.srcs, h.banks, h.phy, h.lnk, h.rte, h.sch, fun k => absurd hhif k,
    h.trn, h.mch, h.rma, h.lck, h.brg, h.col, h.ltl, h.bst, h.mgt, h.xlt, h.out, h.free, h.pending⟩

theorem Stays.set_latches {w : List Part} {a s : State} {vlatches} (h : Stays w a s) (hlatches : Part.latches ∈ w) :
    Stays w a (State.mk s.mode s.glb s.crs s.regs s.sets s.ctrs vlatches s.srcs s.banks s.phy s.lnk s.rte s.sch s.hif s.trn s.mch
    s.rma s.lck s.brg s.col s.ltl s.bst s.mgt s.xlt s.out s.free s.pending) :=
  ⟨h.mode, h.glb, h.crs, h.regs, h.sets, h.ctrs, fun k => absurd hlatches k, h.srcs, h.banks, h.phy, h.lnk, h.rte, h.sch, h.hif,
    h.trn, h.mch, h.rma, h.lck, h.brg, h.col, h.ltl, h.bst, h.mgt, h.xlt, h.out, h.free, h.pending⟩

theorem Stays.set_lck {w : List Part} {a s : State} {vlck} (h : Stays w a s) (hlck : Part.lck ∈ w) :
    Stays w a (State.mk s.mode s.glb s.crs s.regs s.sets s.ctrs s.latches s.srcs s.banks s.phy s.lnk s.rte s.sch s.hif s.trn s.mch
    s.rma vlck s.brg s.col s.ltl s.bst s.mgt s.xlt s.out s.free s.pending) :=
  ⟨h.mode, h.glb, h.crs, h.regs, h.sets, h.ctrs, h.latches, h.srcs, h.banks, h.phy, h.lnk, h.rte, h.sch, h.hif, h.trn, h.mch,
    h.rma, fun k => absurd hlck k, h.brg, h.col, h.ltl, h.bst, h.mgt, h.xlt, h.out, h.free, h.pending⟩

theorem Stays.set_lnk {w : List Part} {a s : State} {vlnk} (h : Stays w a s) (hlnk : Part.lnk ∈ w) :
    Stays w a (State.mk s.mode s.glb s.crs s.regs s.sets s.ctrs s.latches s.srcs s.banks s.phy vlnk s.rte s.sch s.hif s.trn s.mch
    s.rma s.lck s.brg s.col s.ltl s.bst s.mgt s.xlt s.out s.free s.pending) :=
  ⟨h.mode, h.glb, h.crs, h.regs, h.sets, h.ctrs, h.latches, h.srcs, h.banks, h.phy, fun k => absurd hlnk k, h.rte, h.sch, h.hif,
    h.trn, h.mch, h.rma, h.lck, h.brg, h.col, h.ltl, h.bst, h.mgt, h.xlt, h.out, h.free, h.pending⟩

theorem Stays.set_ltl {w : List Part} {a s : State} {vltl} (h : Stays w a s) (hltl : Part.ltl ∈ w) :
    Stays w a (State.mk s.mode s.glb s.crs s.regs s.sets s.ctrs s.latches s.srcs s.banks s.phy s.lnk s.rte s.sch s.hif s.trn s.mch
    s.rma s.lck s.brg s.col vltl s.bst s.mgt s.xlt s.out s.free s.pending) :=
  ⟨h.mode, h.glb, h.crs, h.regs, h.sets, h.ctrs, h.latches, h.srcs, h.banks, h.phy, h.lnk, h.rte, h.sch, h.hif, h.trn, h.mch,
    h.rma, h.lck, h.brg, h.col, fun k => absurd hltl k, h.bst, h.mgt, h.xlt, h.out, h.free, h.pending⟩

theorem Stays.set_mch {w : List Part} {a s : State} {vmch} (h : Stays w a s) (hmch : Part.mch ∈ w) :
    Stays w a (State.mk s.mode s.glb s.crs s.regs s.sets s.ctrs s.latches s.srcs s.banks s.phy s.lnk s.rte s.sch s.hif s.trn vmch
    s.rma s.lck s.brg s.col s.ltl s.bst s.mgt s.xlt s.out s.free s.pending) :=
  ⟨h.mode, h.glb, h.crs, h.regs, h.sets, h.ctrs, h.latches, h.srcs, h.banks, h.phy, h.lnk, h.rte, h.sch, h.hif, h.trn, fun k =>
    absurd hmch k, h.rma, h.lck, h.brg, h.col, h.ltl, h.bst, h.mgt, h.xlt, h.out, h.free, h.pending⟩

theorem Stays.set_mgt {w : List Part} {a s : State} {vmgt} (h : Stays w a s) (hmgt : Part.mgt ∈ w) :
    Stays w a (State.mk s.mode s.glb s.crs s.regs s.sets s.ctrs s.latches s.srcs s.banks s.phy s.lnk s.rte s.sch s.hif s.trn s.mch
    s.rma s.lck s.brg s.col s.ltl s.bst vmgt s.xlt s.out s.free s.pending) :=
  ⟨h.mode, h.glb, h.crs, h.regs, h.sets, h.ctrs, h.latches, h.srcs, h.banks, h.phy, h.lnk, h.rte, h.sch, h.hif, h.trn, h.mch,
    h.rma, h.lck, h.brg, h.col, h.ltl, h.bst, fun k => absurd hmgt k, h.xlt, h.out, h.free, h.pending⟩

theorem Stays.set_out {w : List Part} {a s : State} {vout} (h : Stays w a s) (hout : Part.out ∈ w) :
    Stays w a (State.mk s.mode s.glb s.crs s.regs s.sets s.ctrs s.latches s.srcs s.banks s.phy s.lnk s.rte s.sch s.hif s.trn s.mch
    s.rma s.lck s.brg s.col s.ltl s.bst s.mgt s.xlt vout s.free s.pending) :=
  ⟨h.mode, h.glb, h.crs, h.regs, h.sets, h.ctrs, h.latches, h.srcs, h.banks, h.phy, h.lnk, h.rte, h.sch, h.hif, h.trn, h.mch,
    h.rma, h.lck, h.brg, h.col, h.ltl, h.bst, h.mgt, h.xlt, fun k => absurd hout k, h.free, h.pending⟩

theorem Stays.set_phy {w : List Part} {a s : State} {vphy} (h : Stays w a s) (hphy : Part.phy ∈ w) :
    Stays w a (State.mk s.mode s.glb s.crs s.regs s.sets s.ctrs s.latches s.srcs s.banks vphy s.lnk s.rte s.sch s.hif s.trn s.mch
    s.rma s.lck s.brg s.col s.ltl s.bst s.mgt s.xlt s.out s.free s.pending) :=
  ⟨h.mode, h.glb, h.crs, h.regs, h.sets, h.ctrs, h.latches, h.srcs, h.banks, fun k => absurd hphy k, h.lnk, h.rte, h.sch, h.hif,
    h.trn, h.mch, h.rma, h.lck, h.brg, h.col, h.ltl, h.bst, h.mgt, h.xlt, h.out, h.free, h.pending⟩

theorem Stays.set_regs {w : List Part} {a s : State} {vregs} (h : Stays w a s) (hregs : Part.regs ∈ w) :
    Stays w a (State.mk s.mode s.glb s.crs vregs s.sets s.ctrs s.latches s.srcs s.banks s.phy s.lnk s.rte s.sch s.hif s.trn s.mch
    s.rma s.lck s.brg s.col s.ltl s.bst s.mgt s.xlt s.out s.free s.pending) :=
  ⟨h.mode, h.glb, h.crs, fun k => absurd hregs k, h.sets, h.ctrs, h.latches, h.srcs, h.banks, h.phy, h.lnk, h.rte, h.sch, h.hif,
    h.trn, h.mch, h.rma, h.lck, h.brg, h.col, h.ltl, h.bst, h.mgt, h.xlt, h.out, h.free, h.pending⟩

theorem Stays.set_rma {w : List Part} {a s : State} {vrma} (h : Stays w a s) (hrma : Part.rma ∈ w) :
    Stays w a (State.mk s.mode s.glb s.crs s.regs s.sets s.ctrs s.latches s.srcs s.banks s.phy s.lnk s.rte s.sch s.hif s.trn s.mch
    vrma s.lck s.brg s.col s.ltl s.bst s.mgt s.xlt s.out s.free s.pending) :=
  ⟨h.mode, h.glb, h.crs, h.regs, h.sets, h.ctrs, h.latches, h.srcs, h.banks, h.phy, h.lnk, h.rte, h.sch, h.hif, h.trn, h.mch, fun
    k => absurd hrma k, h.lck, h.brg, h.col, h.ltl, h.bst, h.mgt, h.xlt, h.out, h.free, h.pending⟩

theorem Stays.set_rte {w : List Part} {a s : State} {vrte} (h : Stays w a s) (hrte : Part.rte ∈ w) :
    Stays w a (State.mk s.mode s.glb s.crs s.regs s.sets s.ctrs s.latches s.srcs s.banks s.phy s.lnk vrte s.sch s.hif s.trn s.mch
    s.rma s.lck s.brg s.col s.ltl s.bst s.mgt s.xlt s.out s.free s.pending) :=
  ⟨h.mode, h.glb, h.crs, h.regs, h.sets, h.ctrs, h.latches, h.srcs, h.banks, h.phy, h.lnk, fun k => absurd hrte k, h.sch, h.hif,
    h.trn, h.mch, h.rma, h.lck, h.brg, h.col, h.ltl, h.bst, h.mgt, h.xlt, h.out, h.free, h.pending⟩

theorem Stays.set_sch {w : List Part} {a s : State} {vsch} (h : Stays w a s) (hsch : Part.sch ∈ w) :
    Stays w a (State.mk s.mode s.glb s.crs s.regs s.sets s.ctrs s.latches s.srcs s.banks s.phy s.lnk s.rte vsch s.hif s.trn s.mch
    s.rma s.lck s.brg s.col s.ltl s.bst s.mgt s.xlt s.out s.free s.pending) :=
  ⟨h.mode, h.glb, h.crs, h.regs, h.sets, h.ctrs, h.latches, h.srcs, h.banks, h.phy, h.lnk, h.rte, fun k => absurd hsch k, h.hif,
    h.trn, h.mch, h.rma, h.lck, h.brg, h.col, h.ltl, h.bst, h.mgt, h.xlt, h.out, h.free, h.pending⟩

theorem Stays.set_sets {w : List Part} {a s : State} {vsets} (h : Stays w a s) (hsets : Part.sets ∈ w) :
    Stays w a (State.mk s.mode s.glb s.crs s.regs vsets s.ctrs s.latches s.srcs s.banks s.phy s.lnk s.rte s.sch s.hif s.trn s.mch
    s.rma s.lck s.brg s.col s.ltl s.bst s.mgt s.xlt s.out s.free s.pending) :=
  ⟨h.mode, h.glb, h.crs, h.regs, fun k => absurd hsets k, h.ctrs, h.latches, h.srcs, h.banks, h.phy, h.lnk, h.rte, h.sch, h.hif,
    h.trn, h.mch, h.rma, h.lck, h.brg, h.col, h.ltl, h.bst, h.mgt, h.xlt, h.out, h.free, h.pending⟩

theorem Stays.set_srcs {w : List Part} {a s : State} {vsrcs} (h : Stays w a s) (hsrcs : Part.srcs ∈ w) :
    Stays w a (State.mk s.mode s.glb s.crs s.regs s.sets s.ctrs s.latches vsrcs s.banks s.phy s.lnk s.rte s.sch s.hif s.trn s.mch
    s.rma s.lck s.brg s.col s.ltl s.bst s.mgt s.xlt s.out s.free s.pending) :=
  ⟨h.mode, h.glb, h.crs, h.regs, h.sets, h.ctrs, h.latches, fun k => absurd hsrcs k, h.banks, h.phy, h.lnk, h.rte, h.sch, h.hif,
    h.trn, h.mch, h.rma, h.lck, h.brg, h.col, h.ltl, h.bst, h.mgt, h.xlt, h.out, h.free, h.pending⟩

theorem Stays.set_trn {w : List Part} {a s : State} {vtrn} (h : Stays w a s) (htrn : Part.trn ∈ w) :
    Stays w a (State.mk s.mode s.glb s.crs s.regs s.sets s.ctrs s.latches s.srcs s.banks s.phy s.lnk s.rte s.sch s.hif vtrn s.mch
    s.rma s.lck s.brg s.col s.ltl s.bst s.mgt s.xlt s.out s.free s.pending) :=
  ⟨h.mode, h.glb, h.crs, h.regs, h.sets, h.ctrs, h.latches, h.srcs, h.banks, h.phy, h.lnk, h.rte, h.sch, h.hif, fun k => absurd
    htrn k, h.mch, h.rma, h.lck, h.brg, h.col, h.ltl, h.bst, h.mgt, h.xlt, h.out, h.free, h.pending⟩

theorem Stays.set_xlt {w : List Part} {a s : State} {vxlt} (h : Stays w a s) (hxlt : Part.xlt ∈ w) :
    Stays w a (State.mk s.mode s.glb s.crs s.regs s.sets s.ctrs s.latches s.srcs s.banks s.phy s.lnk s.rte s.sch s.hif s.trn s.mch
    s.rma s.lck s.brg s.col s.ltl s.bst s.mgt vxlt s.out s.free s.pending) :=
  ⟨h.mode, h.glb, h.crs, h.regs, h.sets, h.ctrs, h.latches, h.srcs, h.banks, h.phy, h.lnk, h.rte, h.sch, h.hif, h.trn, h.mch,
    h.rma, h.lck, h.brg, h.col, h.ltl, h.bst, h.mgt, fun k => absurd hxlt k, h.out, h.free, h.pending⟩

theorem Stays.set_glb_hif {w : List Part} {a s : State} {vglb} {vhif} (h : Stays w a s) (hglb : Part.glb ∈ w) (hhif : Part.hif ∈
    w) :
    Stays w a (State.mk s.mode vglb s.crs s.regs s.sets s.ctrs s.latches s.srcs s.banks s.phy s.lnk s.rte s.sch vhif s.trn s.mch
    s.rma s.lck s.brg s.col s.ltl s.bst s.mgt s.xlt s.out s.free s.pending) :=
  ⟨h.mode, fun k => absurd hglb k, h.crs, h.regs, h.sets, h.ctrs, h.latches, h.srcs, h.banks, h.phy, h.lnk, h.rte, h.sch, fun k =>
    absurd hhif k, h.trn, h.mch, h.rma, h.lck, h.brg, h.col, h.ltl, h.bst, h.mgt, h.xlt, h.out, h.free, h.pending⟩

theorem Stays.set_hif_trn {w : List Part} {a s : State} {vhif} {vtrn} (h : Stays w a s) (hhif : Part.hif ∈ w) (htrn : Part.trn ∈
    w) :
    Stays w a (State.mk s.mode s.glb s.crs s.regs s.sets s.ctrs s.latches s.srcs s.banks s.phy s.lnk s.rte s.sch vhif vtrn s.mch
    s.rma s.lck s.brg s.col s.ltl s.bst s.mgt s.xlt s.out s.free s.pending) :=
  ⟨h.mode, h.glb, h.crs, h.regs, h.sets, h.ctrs, h.latches, h.srcs, h.banks, h.phy, h.lnk, h.rte, h.sch, fun k => absurd hhif k,
    fun k => absurd htrn k, h.mch, h.rma, h.lck, h.brg, h.col, h.ltl, h.bst, h.mgt, h.xlt, h.out, h.free, h.pending⟩

theorem Stays.set_sch_trn {w : List Part} {a s : State} {vsch} {vtrn} (h : Stays w a s) (hsch : Part.sch ∈ w) (htrn : Part.trn ∈
    w) :
    Stays w a (State.mk s.mode s.glb s.crs s.regs s.sets s.ctrs s.latches s.srcs s.banks s.phy s.lnk s.rte vsch s.hif vtrn s.mch
    s.rma s.lck s.brg s.col s.ltl s.bst s.mgt s.xlt s.out s.free s.pending) :=
  ⟨h.mode, h.glb, h.crs, h.regs, h.sets, h.ctrs, h.latches, h.srcs, h.banks, h.phy, h.lnk, h.rte, fun k => absurd hsch k, h.hif,
    fun k => absurd htrn k, h.mch, h.rma, h.lck, h.brg, h.col, h.ltl, h.bst, h.mgt, h.xlt, h.out, h.free, h.pending⟩

theorem Stays.set_crs_sets_col {w : List Part} {a s : State} {vcrs} {vsets} {vcol} (h : Stays w a s) (hcrs : Part.crs ∈ w) (hsets
    : Part.sets ∈ w) (hcol : Part.col ∈ w) :
    Stays w a (State.mk s.mode s.glb vcrs s.regs vsets s.ctrs s.latches s.srcs s.banks s.phy s.lnk s.rte s.sch s.hif s.trn s.mch
    s.rma s.lck s.brg vcol s.ltl s.bst s.mgt s.xlt s.out s.free s.pending) :=
  ⟨h.mode, h.glb, fun k => absurd hcrs k, h.regs, fun k => absurd hsets k, h.ctrs, h.latches, h.srcs, h.banks, h.phy, h.lnk,
    h.rte, h.sch, h.hif, h.trn, h.mch, h.rma, h.lck, h.brg, fun k => absurd hcol k, h.ltl, h.bst, h.mgt, h.xlt, h.out, h.free,
    h.pending⟩

theorem Stays.set_hif_trn_mch {w : List Part} {a s : State} {vhif} {vtrn} {vmch} (h : Stays w a s) (hhif : Part.hif ∈ w) (htrn :
    Part.trn ∈ w) (hmch : Part.mch ∈ w) :
    Stays w a (State.mk s.mode s.glb s.crs s.regs s.sets s.ctrs s.latches s.srcs s.banks s.phy s.lnk s.rte s.sch vhif vtrn vmch
    s.rma s.lck s.brg s.col s.ltl s.bst s.mgt s.xlt s.out s.free s.pending) :=
  ⟨h.mode, h.glb, h.crs, h.regs, h.sets, h.ctrs, h.latches, h.srcs, h.banks, h.phy, h.lnk, h.rte, h.sch, fun k => absurd hhif k,
    fun k => absurd htrn k, fun k => absurd hmch k, h.rma, h.lck, h.brg, h.col, h.ltl, h.bst, h.mgt, h.xlt, h.out, h.free,
    h.pending⟩

theorem Stays.set_sch_trn_col_ltl {w : List Part} {a s : State} {vsch} {vtrn} {vcol} {vltl} (h : Stays w a s) (hsch : Part.sch ∈
    w) (htrn : Part.trn ∈ w) (hcol : Part.col ∈ w) (hltl : Part.ltl ∈ w) :
    Stays w a (State.mk s.mode s.glb s.crs s.regs s.sets s.ctrs s.latches s.srcs s.banks s.phy s.lnk s.rte vsch s.hif vtrn s.mch
    s.rma s.lck s.brg vcol vltl s.bst s.mgt s.xlt s.out s.free s.pending) :=
  ⟨h.mode, h.glb, h.crs, h.regs, h.sets, h.ctrs, h.latches, h.srcs, h.banks, h.phy, h.lnk, h.rte, fun k => absurd hsch k, h.hif,
    fun k => absurd htrn k, h.mch, h.rma, h.lck, h.brg, fun k => absurd hcol k, fun k => absurd hltl k, h.bst, h.mgt, h.xlt,
    h.out, h.free, h.pending⟩

theorem State.setWord_stays {w_ : List Part} {z s : State} (off v : Nat) (hw : Has [.regs] w_) (hk : Stays w_ z s) : Stays w_ z
    (State.setWord s off v) := by
  unfold State.setWord; exact Stays.set_regs hk (hw.mem (by decide))

theorem State.resetWords_stays {w_ : List Part} {z s : State} (lo hi : Nat) (hw : Has [.regs] w_) (hk : Stays w_ z s) : Stays w_ z
    (State.resetWords s lo hi) := by
  unfold State.resetWords; exact Stays.set_regs hk (hw.mem (by decide))

theorem State.putSetW_stays {w_ : List Part} {z s : State} (set off v : Nat) (hw : Has [.sets] w_) (hk : Stays w_ z s) : Stays w_
    z (State.putSetW s set off v) := by
  unfold State.putSetW; exact Stays.set_sets hk (hw.mem (by decide))

theorem State.bumpBy_stays {w_ : List Part} {z s : State} (off n : Nat) (hw : Has [.ctrs] w_) (hk : Stays w_ z s) : Stays w_ z
    (State.bumpBy s off n) := by
  unfold State.bumpBy; exact Stays.set_ctrs hk (hw.mem (by decide))

theorem State.setSrc_stays {w_ : List Part} {z s : State} (g : Nat) (v : Src) (hw : Has [.srcs] w_) (hk : Stays w_ z s) : Stays w_
    z (State.setSrc s g v) := by
  unfold State.setSrc; exact Stays.set_srcs hk (hw.mem (by decide))

theorem State.setBank_stays {w_ : List Part} {z s : State} (code : Nat) (b : Bank) (hw : Has [.banks] w_) (hk : Stays w_ z s) :
    Stays w_ z (State.setBank s code b) := by
  unfold State.setBank; exact Stays.set_banks hk (hw.mem (by decide))

theorem State.setLk_stays {w_ : List Part} {z s : State} (p : Nat) (l : Lnk) (hw : Has [.lnk] w_) (hk : Stays w_ z s) : Stays w_ z
    (State.setLk s p l) := by
  unfold State.setLk; exact Stays.set_lnk hk (hw.mem (by decide))

theorem State.setXu_stays {w_ : List Part} {z s : State} (u : Nat) (v : XUnit) (hw : Has [.xlt] w_) (hk : Stays w_ z s) : Stays w_
    z (State.setXu s u v) := by
  unfold State.setXu; exact Stays.set_xlt hk (hw.mem (by decide))

theorem State.emit_stays {w_ : List Part} {z s : State} (o : Out) (hw : Has [.out] w_) (hk : Stays w_ z s) : Stays w_ z
    (State.emit s o) := by
  unfold State.emit; exact Stays.set_out hk (hw.mem (by decide))

theorem State.draw_stays {w_ : List Part} {z s : State} (hw : Has [.free] w_) (hk : Stays w_ z s) : Stays w_ z s.draw.2 := by
  unfold State.draw; exact Stays.set_free hk (hw.mem (by decide))

theorem Stays.ite {w : List Part} {a x y : State} {c : Prop} [Decidable c] (hx : c → Stays w a x) (hy : ¬ c → Stays w a y) : Stays
    w a (if c then x else y) := by
  split
  · exact hx ‹_›
  · exact hy ‹_›

theorem Stays.foldl {β : Type} {w : List Part} {a s : State} {f : State → β → State} {l : List β} (hs : Stays w a s)
    (hf : ∀ u x, Stays w a u → Stays w a (f u x)) : Stays w a (l.foldl f s) := by
  induction l generalizing s with
  | nil => exact hs
  | cons x l ih => exact ih (hf s x hs)

/-! The same for operations that answer more than a state. -/

/-- The state of a pair, first. -/
structure PStays {β : Type} (w : List Part) (a : State) (p : State × β) : Prop where
  fst : Stays w a p.1
/-- The state of a pair, last. -/
structure QStays {β : Type} (w : List Part) (a : State) (p : β × State) : Prop where
  snd : Stays w a p.2
/-- A state, if there is one. -/
structure OptStays (w : List Part) (a : State) (o : Option State) : Prop where
  val : ∀ t, o = some t → Stays w a t
/-- The next state, if there is one. -/
structure OutStays (w : List Part) (a : State) (o : Host.Outcome State Fault Refusal) : Prop where
  out : ∀ t, o = .next t → Stays w a t

theorem PStays.pair {β : Type} {w : List Part} {a t : State} {x : β} (h : Stays w a t) : PStays w a (t, x) := ⟨h⟩
theorem PStays.eq {β : Type} {w : List Part} {a t : State} {x : β} {p : State × β} (e : p = (t, x)) (h : PStays w a p) : Stays w a
    t := by subst e; exact h.fst
theorem PStays.ite {β : Type} {w : List Part} {a : State} {x y : State × β} {c : Prop} [Decidable c] (hx : c → PStays w a x) (hy :
    ¬ c → PStays w a y) :
    PStays w a (if c then x else y) := by
  split
  · exact hx ‹_›
  · exact hy ‹_›
theorem QStays.pair {β : Type} {w : List Part} {a t : State} {x : β} (h : Stays w a t) : QStays w a (x, t) := ⟨h⟩
theorem QStays.eq {β : Type} {w : List Part} {a t : State} {x : β} {p : β × State} (e : p = (x, t)) (h : QStays w a p) : Stays w a
    t := by subst e; exact h.snd
theorem QStays.ite {β : Type} {w : List Part} {a : State} {x y : β × State} {c : Prop} [Decidable c] (hx : c → QStays w a x) (hy :
    ¬ c → QStays w a y) :
    QStays w a (if c then x else y) := by
  split
  · exact hx ‹_›
  · exact hy ‹_›
theorem OptStays.none {w : List Part} (a : State) : OptStays w a .none := ⟨fun _ h => nomatch h⟩
theorem OptStays.some {w : List Part} {a t : State} (h : Stays w a t) : OptStays w a (.some t) := ⟨fun _ e => by cases e; exact h⟩
theorem OptStays.eq {w : List Part} {a t : State} {o : Option State} (e : o = .some t) (h : OptStays w a o) : Stays w a t := h.val
    t e
theorem OptStays.ite {w : List Part} {a : State} {x y : Option State} {c : Prop} [Decidable c] (hx : c → OptStays w a x) (hy : ¬ c
    → OptStays w a y) :
    OptStays w a (if c then x else y) := by
  split
  · exact hx ‹_›
  · exact hy ‹_›
theorem OutStays.next {w : List Part} {a t : State} (h : Stays w a t) : OutStays w a (.next t) := ⟨fun _ e => by cases e; exact h⟩
theorem OutStays.ite {w : List Part} {a : State} {x y : Host.Outcome State Fault Refusal} {c : Prop} [Decidable c] (hx : c →
    OutStays w a x)
    (hy : ¬ c → OutStays w a y) : OutStays w a (if c then x else y) := by
  split
  · exact hx ‹_›
  · exact hy ‹_›
theorem State.draw_staysQ {w : List Part} {a s : State} (hw : Has [.free] w) (h : Stays w a s) : QStays w a s.draw :=
    ⟨State.draw_stays hw h⟩
theorem PStays.foldl {α β : Type} {w : List Part} {a : State} {p : State × β} {f : State × β → α → State × β} {l : List α} (hp :
    PStays w a p)
    (hf : ∀ u x, PStays w a u → PStays w a (f u x)) : PStays w a (l.foldl f p) := by
  induction l generalizing p with
  | nil => exact hp
  | cons x l ih => exact ih (hf p x hp)
theorem QStays.foldl {α β : Type} {w : List Part} {a : State} {p : β × State} {f : β × State → α → β × State} {l : List α} (hp :
    QStays w a p)
    (hf : ∀ u x, QStays w a u → QStays w a (f u x)) : QStays w a (l.foldl f p) := by
  induction l generalizing p with
  | nil => exact hp
  | cons x l ih => exact ih (hf p x hp)

/-- A pair with a state, if there is one. -/
structure OptPStays {β : Type} (w : List Part) (a : State) (o : Option (State × β)) : Prop where
  val : ∀ t x, o = some (t, x) → Stays w a t
structure OptQStays {β : Type} (w : List Part) (a : State) (o : Option (β × State)) : Prop where
  val : ∀ x t, o = some (x, t) → Stays w a t
theorem OptPStays.none {β : Type} {w : List Part} (a : State) : OptPStays (β := β) w a .none := ⟨fun _ _ h => nomatch h⟩
theorem OptPStays.some {β : Type} {w : List Part} {a t : State} {x : β} (h : Stays w a t) : OptPStays w a (.some (t, x)) := ⟨fun _
    _ e => by cases e; exact h⟩
theorem OptPStays.eq {β : Type} {w : List Part} {a t : State} {x : β} {o : Option (State × β)} (e : o = .some (t, x)) (h :
    OptPStays w a o) : Stays w a t :=
  h.val t x e
theorem OptPStays.ite {β : Type} {w : List Part} {a : State} {x y : Option (State × β)} {c : Prop} [Decidable c] (hx : c →
    OptPStays w a x)
    (hy : ¬ c → OptPStays w a y) : OptPStays w a (if c then x else y) := by
  split
  · exact hx ‹_›
  · exact hy ‹_›
theorem OptQStays.none {β : Type} {w : List Part} (a : State) : OptQStays (β := β) w a .none := ⟨fun _ _ h => nomatch h⟩
theorem OptQStays.some {β : Type} {w : List Part} {a t : State} {x : β} (h : Stays w a t) : OptQStays w a (.some (x, t)) := ⟨fun _
    _ e => by cases e; exact h⟩
theorem OptQStays.eq {β : Type} {w : List Part} {a t : State} {x : β} {o : Option (β × State)} (e : o = .some (x, t)) (h :
    OptQStays w a o) : Stays w a t :=
  h.val x t e
theorem OptQStays.ite {β : Type} {w : List Part} {a : State} {x y : Option (β × State)} {c : Prop} [Decidable c] (hx : c →
    OptQStays w a x)
    (hy : ¬ c → OptQStays w a y) : OptQStays w a (if c then x else y) := by
  split
  · exact hx ‹_›
  · exact hy ‹_›


theorem Stays.trans {w : List Part} {a b c : State} (h : Stays w a b) (k : Stays w b c) : Stays w a c :=
  ⟨fun x => (k.mode x).trans (h.mode x), fun x => (k.glb x).trans (h.glb x), fun x => (k.crs x).trans (h.crs x), fun x => (k.regs
    x).trans (h.regs x), fun x => (k.sets x).trans (h.sets x), fun x => (k.ctrs x).trans (h.ctrs x), fun x => (k.latches x).trans
    (h.latches x), fun x => (k.srcs x).trans (h.srcs x), fun x => (k.banks x).trans (h.banks x), fun x => (k.phy x).trans (h.phy
    x), fun x => (k.lnk x).trans (h.lnk x), fun x => (k.rte x).trans (h.rte x), fun x => (k.sch x).trans (h.sch x), fun x =>
    (k.hif x).trans (h.hif x), fun x => (k.trn x).trans (h.trn x), fun x => (k.mch x).trans (h.mch x), fun x => (k.rma x).trans
    (h.rma x), fun x => (k.lck x).trans (h.lck x), fun x => (k.brg x).trans (h.brg x), fun x => (k.col x).trans (h.col x), fun x
    => (k.ltl x).trans (h.ltl x), fun x => (k.bst x).trans (h.bst x), fun x => (k.mgt x).trans (h.mgt x), fun x => (k.xlt x).trans
    (h.xlt x), fun x => (k.out x).trans (h.out x), fun x => (k.free x).trans (h.free x), fun x => (k.pending x).trans (h.pending
    x)⟩

/-- What writes the parts of a list writes the parts of a longer one. -/
theorem Stays.mono {w v : List Part} {a b : State} (h : Stays w a b) (e : ∀ p ∈ w, p ∈ v) : Stays v a b :=
  ⟨fun x => h.mode fun y => x (e _ y), fun x => h.glb fun y => x (e _ y), fun x => h.crs fun y => x (e _ y), fun x => h.regs fun y
    => x (e _ y), fun x => h.sets fun y => x (e _ y), fun x => h.ctrs fun y => x (e _ y), fun x => h.latches fun y => x (e _ y),
    fun x => h.srcs fun y => x (e _ y), fun x => h.banks fun y => x (e _ y), fun x => h.phy fun y => x (e _ y), fun x => h.lnk fun
    y => x (e _ y), fun x => h.rte fun y => x (e _ y), fun x => h.sch fun y => x (e _ y), fun x => h.hif fun y => x (e _ y), fun x
    => h.trn fun y => x (e _ y), fun x => h.mch fun y => x (e _ y), fun x => h.rma fun y => x (e _ y), fun x => h.lck fun y => x
    (e _ y), fun x => h.brg fun y => x (e _ y), fun x => h.col fun y => x (e _ y), fun x => h.ltl fun y => x (e _ y), fun x =>
    h.bst fun y => x (e _ y), fun x => h.mgt fun y => x (e _ y), fun x => h.xlt fun y => x (e _ y), fun x => h.out fun y => x (e _
    y), fun x => h.free fun y => x (e _ y), fun x => h.pending fun y => x (e _ y)⟩

end Sys2Proof.Machine
end

