-- ==== Sys2Proof/Laws/StaysOps.lean ====
section
/-! SUPPORT. Laws/Stays.lean, for the operations of Machine/Ops.lean. -/
namespace Sys2Proof.Machine

theorem State.put_stays {w_ : List Part} {z s : State} (f : Fld) (v : Nat) (hw : Has [.regs] w_) (hk : Stays w_ z s) : Stays w_ z
    (State.put s f v) := by
  unfold State.put
  repeat' (first
    | with_reducible assumption
    | with_reducible exact Has.sub hw (by decide)
    | with_reducible exact Has.mem hw (by decide)
    | intro _
    | with_reducible apply State.setWord_stays
    | (extract_lets)
    | split)

theorem State.bump_stays {w_ : List Part} {z s : State} (off : Nat) (hw : Has [.ctrs] w_) (hk : Stays w_ z s) : Stays w_ z
    (State.bump s off) := by
  unfold State.bump
  repeat' (first
    | with_reducible assumption
    | with_reducible exact Has.sub hw (by decide)
    | with_reducible exact Has.mem hw (by decide)
    | intro _
    | with_reducible apply State.bumpBy_stays
    | (extract_lets)
    | split)

theorem State.bumpIf_stays {w_ : List Part} {z s : State} (b : Bool) (off : Nat) (hw : Has [.ctrs] w_) (hk : Stays w_ z s) : Stays
    w_ z (State.bumpIf s b off) := by
  unfold State.bumpIf
  repeat' (first
    | with_reducible assumption
    | with_reducible exact Has.sub hw (by decide)
    | with_reducible exact Has.mem hw (by decide)
    | intro _
    | with_reducible apply Stays.ite
    | with_reducible apply State.bump_stays
    | (extract_lets)
    | split)

theorem State.pass_stays {w_ : List Part} {z s : State} (n : Nat) (hw : Has [.phy] w_) (hk : Stays w_ z s) : Stays w_ z
    (State.pass s n) := by
  unfold State.pass
  repeat' (first
    | with_reducible assumption
    | with_reducible exact Has.sub hw (by decide)
    | with_reducible exact Has.mem hw (by decide)
    | intro _
    | (extract_lets)
    | split
    | with_reducible apply Stays.set_phy)

theorem State.setTime_stays {w_ : List Part} {z s : State} (course : Course) (cycle : Nat) (hc : s.crs.cycle < 1280 → cycle <
    1280) (hw : Has [.crs] w_) (hk : Stays w_ z s) : Stays w_ z (State.setTime s course cycle) := by
  unfold State.setTime
  exact Stays.set_crs hk (hw.mem (by decide))

theorem State.hostWrite_stays {w_ : List Part} {z s : State} (hp requester addr : Nat) (d : Data) (hw : Has [.out] w_) (hk : Stays
    w_ z s) : Stays w_ z (State.hostWrite s hp requester addr d) := by
  unfold State.hostWrite
  repeat' (first
    | with_reducible assumption
    | with_reducible exact Has.sub hw (by decide)
    | with_reducible exact Has.mem hw (by decide)
    | intro _
    | with_reducible apply Stays.ite
    | with_reducible apply State.emit_stays
    | (extract_lets)
    | split)

theorem State.hostRead_stays {w_ : List Part} {z s : State} (hp requester addr len : Nat) (hw : Has [.out] w_) (hk : Stays w_ z s)
    : Stays w_ z (State.hostRead s hp requester addr len) := by
  unfold State.hostRead
  repeat' (first
    | with_reducible assumption
    | with_reducible exact Has.sub hw (by decide)
    | with_reducible exact Has.mem hw (by decide)
    | intro _
    | with_reducible apply Stays.ite
    | with_reducible apply State.emit_stays
    | (extract_lets)
    | split)

theorem State.msixSend_stays {w_ : List Part} {z s : State} (identity vector : Nat) (hw : Has [.ctrs, .hif, .out] w_) (hk : Stays
    w_ z s) : Stays w_ z (State.msixSend s identity vector) := by
  unfold State.msixSend
  repeat' (first
    | with_reducible assumption
    | with_reducible exact Has.sub hw (by decide)
    | with_reducible exact Has.mem hw (by decide)
    | intro _
    | with_reducible apply Stays.ite
    | with_reducible apply State.bump_stays
    | with_reducible apply State.emit_stays
    | (extract_lets)
    | split
    | with_reducible apply Stays.set_hif)

theorem State.setEq_stays {w_ : List Part} {z s : State} (r : Nat) (e : Eq) (hw : Has [.hif] w_) (hk : Stays w_ z s) : Stays w_ z
    (State.setEq s r e) := by
  unfold State.setEq
  repeat' (first
    | with_reducible assumption
    | with_reducible exact Has.sub hw (by decide)
    | with_reducible exact Has.mem hw (by decide)
    | intro _
    | with_reducible apply Stays.ite
    | (extract_lets)
    | split
    | with_reducible apply Stays.set_hif)

theorem State.eqPut_stays {w_ : List Part} {z s : State} (r : Nat) (entry : Nat) (hw : Has [.ctrs, .hif, .out] w_) (hk : Stays w_
    z s) : Stays w_ z (State.eqPut s r entry) := by
  unfold State.eqPut
  repeat' (first
    | with_reducible assumption
    | with_reducible exact Has.sub hw (by decide)
    | with_reducible exact Has.mem hw (by decide)
    | intro _
    | with_reducible apply Stays.ite
    | with_reducible apply State.bumpIf_stays
    | with_reducible apply State.hostWrite_stays
    | with_reducible apply State.msixSend_stays
    | with_reducible apply State.setEq_stays
    | (extract_lets)
    | split)

theorem State.eqPost_stays {w_ : List Part} {z s : State} (r : Nat) (entry : Nat) (hw : Has [.ctrs, .hif, .out] w_) (hk : Stays w_
    z s) : Stays w_ z (State.eqPost s r entry) := by
  unfold State.eqPost
  repeat' (first
    | with_reducible assumption
    | with_reducible exact Has.sub hw (by decide)
    | with_reducible exact Has.mem hw (by decide)
    | intro _
    | with_reducible apply Stays.ite
    | with_reducible apply State.bump_stays
    | with_reducible apply State.eqPut_stays
    | with_reducible apply State.setEq_stays
    | (extract_lets)
    | split)

theorem State.eqDrain_stays {w_ : List Part} {z s : State} (r : Nat) (k : Nat) (hw : Has [.ctrs, .hif, .out] w_) (hk : Stays w_ z
    s) : Stays w_ z (State.eqDrain s r k) := by
  induction k generalizing s with
  | zero =>
    unfold State.eqDrain
    repeat' (first
      | with_reducible assumption
      | with_reducible exact Has.sub hw (by decide)
      | with_reducible exact Has.mem hw (by decide)
      | with_reducible apply ih
      | intro _
      | with_reducible apply Stays.ite
      | with_reducible apply State.eqPut_stays
      | with_reducible apply State.setEq_stays
      | (extract_lets)
      | split)
  | succ k ih =>
    unfold State.eqDrain
    repeat' (first
      | with_reducible assumption
      | with_reducible exact Has.sub hw (by decide)
      | with_reducible exact Has.mem hw (by decide)
      | with_reducible apply ih
      | intro _
      | with_reducible apply Stays.ite
      | with_reducible apply State.eqPut_stays
      | with_reducible apply State.setEq_stays
      | (extract_lets)
      | split)

theorem State.askFence_stays {w_ : List Part} {z s : State} (cause : Nat) (hw : Has [.glb] w_) (hk : Stays w_ z s) : Stays w_ z
    (State.askFence s cause) := by
  unfold State.askFence
  repeat' (first
    | with_reducible assumption
    | with_reducible exact Has.sub hw (by decide)
    | with_reducible exact Has.mem hw (by decide)
    | intro _
    | with_reducible apply Stays.ite
    | (extract_lets)
    | split
    | with_reducible apply Stays.set_glb)

theorem State.latchEvent_stays {w_ : List Part} {z s : State} (g cond obj : Nat) (owner : Option Nat) (detail : Nat) (forced
    severe : Bool) (mute : Bool) (hw : Has [.ctrs, .srcs, .banks, .hif, .out] w_) (hk : Stays w_ z s) : Stays w_ z
    (State.latchEvent s g cond obj owner detail forced severe mute) := by
  unfold State.latchEvent
  repeat' (first
    | with_reducible assumption
    | with_reducible exact Has.sub hw (by decide)
    | with_reducible exact Has.mem hw (by decide)
    | intro _
    | with_reducible apply Stays.ite
    | with_reducible apply State.eqPost_stays
    | with_reducible apply State.setBank_stays
    | with_reducible apply State.setSrc_stays
    | (extract_lets)
    | split)

theorem State.fenceOn_stays {w_ : List Part} {z s : State} (g : Nat) (hw : Has [.glb] w_) (hk : Stays w_ z s) : Stays w_ z
    (State.fenceOn s g) := by
  unfold State.fenceOn
  repeat' (first
    | with_reducible assumption
    | with_reducible exact Has.sub hw (by decide)
    | with_reducible exact Has.mem hw (by decide)
    | intro _
    | with_reducible apply Stays.ite
    | with_reducible apply State.askFence_stays
    | (extract_lets)
    | split)

theorem State.latchConsequence_stays {w_ : List Part} {z s : State} (g obj : Nat) (owner : Option Nat) (effective : Bool) (hw :
    Has [.glb, .ctrs, .srcs, .banks, .hif, .out] w_) (hk : Stays w_ z s) : Stays w_ z (State.latchConsequence s g obj owner
    effective) := by
  unfold State.latchConsequence
  repeat' (first
    | with_reducible assumption
    | with_reducible exact Has.sub hw (by decide)
    | with_reducible exact Has.mem hw (by decide)
    | intro _
    | with_reducible apply Stays.ite
    | with_reducible apply State.askFence_stays
    | with_reducible apply State.fenceOn_stays
    | with_reducible apply State.latchEvent_stays
    | with_reducible apply State.setSrc_stays
    | (extract_lets)
    | split)

theorem State.mergeEvent_stays {w_ : List Part} {z s : State} (g : Nat) (hw : Has [.srcs, .banks] w_) (hk : Stays w_ z s) : Stays
    w_ z (State.mergeEvent s g) := by
  unfold State.mergeEvent
  repeat' (first
    | with_reducible assumption
    | with_reducible exact Has.sub hw (by decide)
    | with_reducible exact Has.mem hw (by decide)
    | intro _
    | with_reducible apply Stays.ite
    | with_reducible apply State.setBank_stays
    | with_reducible apply State.setSrc_stays
    | (extract_lets)
    | split)

theorem State.latch_stays {w_ : List Part} {z s : State} (g cond obj : Nat) (owner : Option Nat) (detail : Nat) (forced : Bool)
    (mute : Bool) (hw : Has [.glb, .ctrs, .srcs, .banks, .hif, .out] w_) (hk : Stays w_ z s) : Stays w_ z (State.latch s g cond
    obj owner detail forced mute) := by
  unfold State.latch
  repeat' (first
    | with_reducible assumption
    | with_reducible exact Has.sub hw (by decide)
    | with_reducible exact Has.mem hw (by decide)
    | intro _
    | with_reducible apply Stays.ite
    | with_reducible apply State.fenceOn_stays
    | with_reducible apply State.latchConsequence_stays
    | with_reducible apply State.latchEvent_stays
    | with_reducible apply State.mergeEvent_stays
    | (extract_lets)
    | split)

theorem State.raise_stays {w_ : List Part} {z s : State} (g cond obj : Nat) (owner : Option Nat) (detail : Nat) (hw : Has [.glb,
    .ctrs, .srcs, .banks, .hif, .out] w_) (hk : Stays w_ z s) : Stays w_ z (State.raise s g cond obj owner detail) := by
  unfold State.raise
  repeat' (first
    | with_reducible assumption
    | with_reducible exact Has.sub hw (by decide)
    | with_reducible exact Has.mem hw (by decide)
    | intro _
    | with_reducible apply State.latch_stays
    | (extract_lets)
    | split)

theorem State.raiseMute_stays {w_ : List Part} {z s : State} (g obj : Nat) (owner : Option Nat) (hw : Has [.glb, .ctrs, .srcs,
    .banks, .hif, .out] w_) (hk : Stays w_ z s) : Stays w_ z (State.raiseMute s g obj owner) := by
  unfold State.raiseMute
  repeat' (first
    | with_reducible assumption
    | with_reducible exact Has.sub hw (by decide)
    | with_reducible exact Has.mem hw (by decide)
    | intro _
    | with_reducible apply State.latch_stays
    | (extract_lets)
    | split)

theorem State.level_stays {w_ : List Part} {z s : State} (g : Nat) (present : Bool) (obj : Nat) (owner : Option Nat) (hw : Has
    [.glb, .ctrs, .srcs, .banks, .hif, .out] w_) (hk : Stays w_ z s) : Stays w_ z (State.level s g present obj owner) := by
  unfold State.level
  repeat' (first
    | with_reducible assumption
    | with_reducible exact Has.sub hw (by decide)
    | with_reducible exact Has.mem hw (by decide)
    | intro _
    | with_reducible apply Stays.ite
    | with_reducible apply State.fenceOn_stays
    | with_reducible apply State.latch_stays
    | with_reducible apply State.mergeEvent_stays
    | with_reducible apply State.setSrc_stays
    | (extract_lets)
    | split)

theorem State.badAccess_stays {w_ : List Part} {z s : State} (hw : Has [.glb, .ctrs, .srcs, .banks, .hif, .out] w_) (hk : Stays w_
    z s) : Stays w_ z (State.badAccess s) := by
  unfold State.badAccess
  repeat' (first
    | with_reducible assumption
    | with_reducible exact Has.sub hw (by decide)
    | with_reducible exact Has.mem hw (by decide)
    | intro _
    | with_reducible apply State.bump_stays
    | with_reducible apply State.raise_stays
    | (extract_lets)
    | split)

end Sys2Proof.Machine
end

