-- ==== Sys2Proof/Laws/StaysRoles.lean ====
section
/-! SUPPORT. Laws/Stays.lean, for the operations of Machine/Roles.lean. -/
namespace Sys2Proof.Machine

theorem State.onLk_stays {w_ : List Part} {z s : State} (p : Nat) (f : Lnk → Lnk) (hw : Has [.lnk] w_) (hk : Stays w_ z s) : Stays
    w_ z (State.onLk s p f) := by
  unfold State.onLk
  repeat' (first
    | with_reducible assumption
    | with_reducible exact Has.sub hw (by decide)
    | with_reducible exact Has.mem hw (by decide)
    | intro _
    | with_reducible apply State.setLk_stays
    | (extract_lets)
    | split)

theorem State.setPp_stays {w_ : List Part} {z s : State} (p : Nat) (v : PortPhy) (hw : Has [.phy] w_) (hk : Stays w_ z s) : Stays
    w_ z (State.setPp s p v) := by
  unfold State.setPp
  repeat' (first
    | with_reducible assumption
    | with_reducible exact Has.sub hw (by decide)
    | with_reducible exact Has.mem hw (by decide)
    | intro _
    | (extract_lets)
    | split
    | with_reducible apply Stays.set_phy)

theorem State.setLn_stays {w_ : List Part} {z s : State} (n : Nat) (v : Lane) (hw : Has [.phy] w_) (hk : Stays w_ z s) : Stays w_
    z (State.setLn s n v) := by
  unfold State.setLn
  repeat' (first
    | with_reducible assumption
    | with_reducible exact Has.sub hw (by decide)
    | with_reducible exact Has.mem hw (by decide)
    | intro _
    | (extract_lets)
    | split
    | with_reducible apply Stays.set_phy)

end Sys2Proof.Machine
end

