-- ==== Sys2Proof/Laws/StaysSlice.lean ====
section
/-! SUPPORT. Laws/Stays.lean, for the operations of Machine/Slice.lean. -/
namespace Sys2Proof.Machine

theorem State.fillBank_stays {w_ : List Part} {z s : State} (cache k : Nat) (hw : Has [.bst, .free] w_) (hk : Stays w_ z s) :
    Stays w_ z (State.fillBank s cache k) := by
  unfold State.fillBank
  repeat' (first
    | with_reducible assumption
    | with_reducible exact Has.sub hw (by decide)
    | with_reducible exact Has.mem hw (by decide)
    | intro _
    | with_reducible apply Stays.ite
    | with_reducible apply QStays.snd
    | with_reducible apply State.draw_staysQ
    | with_reducible apply State.draw_stays
    | (extract_lets)
    | split
    | with_reducible apply QStays.pair
    | (with_reducible refine QStays.eq (by assumption) ?_)
    | with_reducible apply Stays.set_bst)

theorem State.poolOff_stays {w_ : List Part} {z s : State} (p : Nat) (hw : Has [.lnk] w_) (hk : Stays w_ z s) : Stays w_ z
    (State.poolOff s p) := by
  unfold State.poolOff
  repeat' (first
    | with_reducible assumption
    | with_reducible exact Has.sub hw (by decide)
    | with_reducible exact Has.mem hw (by decide)
    | intro _
    | with_reducible apply Stays.ite
    | with_reducible apply State.setLk_stays
    | (extract_lets)
    | split)

theorem State.bankPool_stays {w_ : List Part} {z s : State} (unit : Nat) (out : Bool) (hw : Has [.lnk] w_) (hk : Stays w_ z s) :
    Stays w_ z (State.bankPool s unit out) := by
  unfold State.bankPool
  repeat' (first
    | with_reducible assumption
    | with_reducible exact Has.sub hw (by decide)
    | with_reducible exact Has.mem hw (by decide)
    | intro _
    | with_reducible apply Stays.ite
    | with_reducible apply State.onLk_stays
    | with_reducible apply State.poolOff_stays
    | (extract_lets)
    | split)

theorem State.sliceEnd_stays {w_ : List Part} {z s : State} (keepOut : Bool) (hw : Has [.regs, .lnk] w_) (hk : Stays w_ z s) :
    Stays w_ z (State.sliceEnd s keepOut) := by
  unfold State.sliceEnd
  repeat' (first
    | with_reducible assumption
    | with_reducible exact Has.sub hw (by decide)
    | with_reducible exact Has.mem hw (by decide)
    | intro _
    | with_reducible apply Stays.ite
    | with_reducible apply State.bankPool_stays
    | with_reducible apply State.put_stays
    | (extract_lets)
    | split)

theorem State.sliceRetry_stays {w_ : List Part} {z s : State} (hw : Has [.bst] w_) (hk : Stays w_ z s) : Stays w_ z
    (State.sliceRetry s) := by
  unfold State.sliceRetry
  repeat' (first
    | with_reducible assumption
    | with_reducible exact Has.sub hw (by decide)
    | with_reducible exact Has.mem hw (by decide)
    | intro _
    | with_reducible apply Stays.ite
    | (extract_lets)
    | split
    | with_reducible apply Stays.set_bst)

theorem State.sliceAbort_stays {w_ : List Part} {z s : State} (hw : Has [.glb, .regs, .ctrs, .srcs, .banks, .lnk, .hif, .bst,
    .out] w_) (hk : Stays w_ z s) : Stays w_ z (State.sliceAbort s) := by
  unfold State.sliceAbort
  repeat' (first
    | with_reducible assumption
    | with_reducible exact Has.sub hw (by decide)
    | with_reducible exact Has.mem hw (by decide)
    | intro _
    | with_reducible apply State.bump_stays
    | with_reducible apply State.raise_stays
    | with_reducible apply State.sliceEnd_stays
    | with_reducible apply State.sliceRetry_stays
    | (extract_lets)
    | split)

theorem State.tableWrite_stays {w_ : List Part} {z s : State} (tag n : Nat) (hw : Has [.glb, .regs, .ctrs, .srcs, .banks, .lnk,
    .hif, .bst, .out] w_) (hk : Stays w_ z s) : Stays w_ z (State.tableWrite s tag n) := by
  unfold State.tableWrite
  repeat' (first
    | with_reducible assumption
    | with_reducible exact Has.sub hw (by decide)
    | with_reducible exact Has.mem hw (by decide)
    | intro _
    | with_reducible apply Stays.ite
    | with_reducible apply State.put_stays
    | with_reducible apply State.sliceAbort_stays
    | (extract_lets)
    | split)

end Sys2Proof.Machine
end

