-- ==== Sys2Proof/Laws/StaysCourse.lean ====
section
/-! SUPPORT. Laws/Stays.lean, for the operations of Machine/Course.lean. -/
namespace Sys2Proof.Machine

theorem State.noteMarkSent_stays {w_ : List Part} {z s : State} (p : Nat) (hw : Has [.crs] w_) (hk : Stays w_ z s) : Stays w_ z
    (State.noteMarkSent s p) := by
  unfold State.noteMarkSent
  repeat' (first
    | with_reducible assumption
    | with_reducible exact Has.sub hw (by decide)
    | with_reducible exact Has.mem hw (by decide)
    | intro _
    | (extract_lets)
    | split
    | with_reducible apply Stays.set_crs)

theorem State.setDepth_stays {w_ : List Part} {z s : State} (p gd ld : Nat) (hw : Has [.crs] w_) (hk : Stays w_ z s) : Stays w_ z
    (State.setDepth s p gd ld) := by
  unfold State.setDepth
  repeat' (first
    | with_reducible assumption
    | with_reducible exact Has.sub hw (by decide)
    | with_reducible exact Has.mem hw (by decide)
    | intro _
    | with_reducible apply Stays.ite
    | (extract_lets)
    | split
    | with_reducible apply Stays.set_crs)

theorem State.chooseParent_stays {w_ : List Part} {z s : State} (rank root : Nat) (hw : Has [.crs] w_) (hk : Stays w_ z s) : Stays
    w_ z (State.chooseParent s rank root) := by
  unfold State.chooseParent
  repeat' (first
    | with_reducible assumption
    | with_reducible exact Has.sub hw (by decide)
    | with_reducible exact Has.mem hw (by decide)
    | intro _
    | with_reducible apply State.setDepth_stays
    | (extract_lets)
    | split
    | with_reducible apply Stays.set_crs)

theorem State.newParent_stays {w_ : List Part} {z s : State} (hw : Has [.crs] w_) (hk : Stays w_ z s) : Stays w_ z
    (State.newParent s) := by
  unfold State.newParent
  repeat' (first
    | with_reducible assumption
    | with_reducible exact Has.sub hw (by decide)
    | with_reducible exact Has.mem hw (by decide)
    | intro _
    | with_reducible apply Stays.ite
    | with_reducible apply State.chooseParent_stays
    | (extract_lets)
    | split
    | with_reducible apply Stays.set_crs)

theorem State.markLinkDown_stays {w_ : List Part} {z s : State} (p : Nat) (hw : Has [.crs] w_) (hk : Stays w_ z s) : Stays w_ z
    (State.markLinkDown s p) := by
  unfold State.markLinkDown
  repeat' (first
    | with_reducible assumption
    | with_reducible exact Has.sub hw (by decide)
    | with_reducible exact Has.mem hw (by decide)
    | intro _
    | with_reducible apply Stays.ite
    | with_reducible apply State.newParent_stays
    | (extract_lets)
    | split
    | with_reducible apply Stays.set_crs)

theorem State.dropParent_stays {w_ : List Part} {z s : State} (hw : Has [.crs] w_) (hk : Stays w_ z s) : Stays w_ z
    (State.dropParent s) := by
  unfold State.dropParent
  repeat' (first
    | with_reducible assumption
    | with_reducible exact Has.sub hw (by decide)
    | with_reducible exact Has.mem hw (by decide)
    | intro _
    | with_reducible apply Stays.ite
    | with_reducible apply State.newParent_stays
    | (extract_lets)
    | split
    | with_reducible apply Stays.set_crs)

theorem State.setMultiRoot_stays {w_ : List Part} {z s : State} (hw : Has [.glb, .crs, .ctrs, .srcs, .banks, .hif, .out] w_) (hk :
    Stays w_ z s) : Stays w_ z (State.setMultiRoot s) := by
  unfold State.setMultiRoot
  repeat' (first
    | with_reducible assumption
    | with_reducible exact Has.sub hw (by decide)
    | with_reducible exact Has.mem hw (by decide)
    | intro _
    | with_reducible apply Stays.ite
    | with_reducible apply State.raise_stays
    | (extract_lets)
    | split
    | with_reducible apply Stays.set_crs)

theorem State.trackPhase_stays {w_ : List Part} {z s : State} (e : Int) (hw : Has [.glb, .crs, .ctrs, .srcs, .banks, .hif, .out]
    w_) (hk : Stays w_ z s) : Stays w_ z (State.trackPhase s e) := by
  unfold State.trackPhase
  repeat' (first
    | with_reducible assumption
    | with_reducible exact Has.sub hw (by decide)
    | with_reducible exact Has.mem hw (by decide)
    | intro _
    | with_reducible apply Stays.ite
    | with_reducible apply State.raise_stays
    | (extract_lets)
    | split
    | with_reducible apply Stays.set_crs)

theorem State.phaseMark_stays {w_ : List Part} {z s : State} (p : Nat) (m : Mark) (hw : Has [.glb, .crs, .ctrs, .srcs, .banks,
    .hif, .out] w_) (hk : Stays w_ z s) : Stays w_ z (State.phaseMark s p m) := by
  unfold State.phaseMark
  repeat' (first
    | with_reducible assumption
    | with_reducible exact Has.sub hw (by decide)
    | with_reducible exact Has.mem hw (by decide)
    | intro _
    | with_reducible apply Stays.ite
    | with_reducible apply State.trackPhase_stays
    | (extract_lets)
    | split
    | with_reducible apply Stays.set_crs)

theorem State.parentMark_stays {w_ : List Part} {z s : State} (p : Nat) (m : Mark) (hw : Has [.glb, .crs, .ctrs, .srcs, .banks,
    .hif, .out] w_) (hk : Stays w_ z s) : Stays w_ z (State.parentMark s p m) := by
  unfold State.parentMark
  extract_lets s1
  have h1 : Stays w_ z s1 := Stays.ite (fun _ => State.setDepth_stays _ _ _ (hw.sub (by decide)) hk) (fun _ => hk)
  clear_value s1
  exact State.phaseMark_stays _ _ (hw.sub (by decide)) (Stays.set_crs h1 (hw.mem (by decide)))

theorem State.followBest_stays {w_ : List Part} {z s : State} (hw : Has [.crs] w_) (hk : Stays w_ z s) : Stays w_ z
    (State.followBest s) := by
  unfold State.followBest
  repeat' (first
    | with_reducible assumption
    | with_reducible exact Has.sub hw (by decide)
    | with_reducible exact Has.mem hw (by decide)
    | intro _
    | with_reducible apply Stays.ite
    | with_reducible apply State.chooseParent_stays
    | (extract_lets)
    | split)

theorem State.otherRoot_stays {w_ : List Part} {z s : State} (p : Nat) (m : Mark) (hw : Has [.glb, .crs, .regs, .ctrs, .srcs,
    .banks, .hif, .out] w_) (hk : Stays w_ z s) : Stays w_ z (State.otherRoot s p m) := by
  unfold State.otherRoot
  repeat' (first
    | with_reducible assumption
    | with_reducible exact Has.sub hw (by decide)
    | with_reducible exact Has.mem hw (by decide)
    | intro _
    | with_reducible apply Stays.ite
    | with_reducible apply State.chooseParent_stays
    | with_reducible apply State.put_stays
    | with_reducible apply State.setMultiRoot_stays
    | (extract_lets)
    | split
    | with_reducible apply Stays.set_crs)

theorem State.courseMark_stays {w_ : List Part} {z s : State} (p : Nat) (m : Mark) (hw : Has [.glb, .crs, .regs, .ctrs, .srcs,
    .banks, .hif, .out] w_) (hk : Stays w_ z s) : Stays w_ z (State.courseMark s p m) := by
  unfold State.courseMark
  repeat' (first
    | with_reducible assumption
    | with_reducible exact Has.sub hw (by decide)
    | with_reducible exact Has.mem hw (by decide)
    | intro _
    | with_reducible apply Stays.ite
    | with_reducible apply State.chooseParent_stays
    | with_reducible apply State.followBest_stays
    | with_reducible apply State.otherRoot_stays
    | with_reducible apply State.parentMark_stays
    | with_reducible apply State.phaseMark_stays
    | (extract_lets)
    | split
    | with_reducible apply Stays.set_crs)

theorem execCourseMarkRx_stays {w_ : List Part} {z s : State} (port : Nat) (m : Mark) (hw : Has [.glb, .crs, .regs, .ctrs, .srcs,
    .banks, .hif, .out] w_) (hk : Stays w_ z s) : OutStays w_ z (execCourseMarkRx port m s) := by
  unfold execCourseMarkRx
  repeat' (first
    | with_reducible assumption
    | with_reducible exact Has.sub hw (by decide)
    | with_reducible exact Has.mem hw (by decide)
    | intro _
    | with_reducible apply OutStays.ite
    | with_reducible apply Stays.ite
    | with_reducible apply OutStays.next
    | with_reducible apply State.courseMark_stays
    | (extract_lets)
    | split)

theorem State.followRoot_stays {w_ : List Part} {z s : State} (r : Nat × Nat) (hw : Has [.crs] w_) (hk : Stays w_ z s) : Stays w_
    z (State.followRoot s r) := by
  unfold State.followRoot
  repeat' (first
    | with_reducible assumption
    | with_reducible exact Has.sub hw (by decide)
    | with_reducible exact Has.mem hw (by decide)
    | intro _
    | with_reducible apply State.chooseParent_stays
    | (extract_lets)
    | split
    | with_reducible apply Stays.set_crs)

theorem execFollowBetterRoot_stays {w_ : List Part} {z s : State} (hw : Has [.crs] w_) (hk : Stays w_ z s) : OutStays w_ z
    (execFollowBetterRoot s) := by
  unfold execFollowBetterRoot
  repeat' (first
    | with_reducible assumption
    | with_reducible exact Has.sub hw (by decide)
    | with_reducible exact Has.mem hw (by decide)
    | intro _
    | with_reducible apply OutStays.next
    | with_reducible apply State.followRoot_stays
    | (extract_lets)
    | split)

theorem State.alignStep_stays {w_ : List Part} {z s : State} (hw : Has [.glb, .crs, .ctrs, .srcs, .banks, .hif, .out] w_) (hk :
    Stays w_ z s) : Stays w_ z (State.alignStep s) := by
  unfold State.alignStep
  extract_lets old oldCourse d m c r s0 c1 s1
  have h0 : Stays w_ z s0 := State.setTime_stays _ _ (fun _ => by show Int.toNat _ / 16 < 1280; omega) (hw.sub (by decide)) hk
  exact State.raise_stays _ _ _ _ _ (hw.sub (by decide)) (State.bump_stays _ (hw.sub (by decide)) (Stays.set_crs h0 (hw.mem (by decide))))

theorem execAlignStep_stays {w_ : List Part} {z s : State} (hw : Has [.glb, .crs, .ctrs, .srcs, .banks, .hif, .out] w_) (hk :
    Stays w_ z s) : OutStays w_ z (execAlignStep s) := by
  unfold execAlignStep
  repeat' (first
    | with_reducible assumption
    | with_reducible exact Has.sub hw (by decide)
    | with_reducible exact Has.mem hw (by decide)
    | intro _
    | with_reducible apply OutStays.ite
    | with_reducible apply Stays.ite
    | with_reducible apply OutStays.next
    | with_reducible apply State.alignStep_stays
    | (extract_lets)
    | split)

theorem execAligned_stays {w_ : List Part} {z s : State} (hw : Has [.crs] w_) (hk : Stays w_ z s) : OutStays w_ z (execAligned s)
    := by
  unfold execAligned
  repeat' (first
    | with_reducible assumption
    | with_reducible exact Has.sub hw (by decide)
    | with_reducible exact Has.mem hw (by decide)
    | intro _
    | with_reducible apply OutStays.ite
    | with_reducible apply Stays.ite
    | with_reducible apply PStays.fst
    | with_reducible apply OutStays.next
    | (extract_lets)
    | split
    | with_reducible apply PStays.pair
    | (with_reducible refine PStays.eq (by assumption) ?_)
    | with_reducible apply Stays.set_crs)

theorem execAlignLost_stays {w_ : List Part} {z s : State} (hw : Has [.glb, .crs, .ctrs, .srcs, .banks, .hif, .out] w_) (hk :
    Stays w_ z s) : OutStays w_ z (execAlignLost s) := by
  unfold execAlignLost
  repeat' (first
    | with_reducible assumption
    | with_reducible exact Has.sub hw (by decide)
    | with_reducible exact Has.mem hw (by decide)
    | intro _
    | with_reducible apply OutStays.ite
    | with_reducible apply Stays.ite
    | with_reducible apply OutStays.next
    | with_reducible apply State.dropParent_stays
    | with_reducible apply State.raise_stays
    | (extract_lets)
    | split
    | with_reducible apply Stays.set_crs)

theorem State.alignCtrlWrite_stays {w_ : List Part} {z s : State} (v : Nat) (rwl : Bool) (hw : Has [.crs, .regs] w_) (hk : Stays
    w_ z s) : Stays w_ z (State.alignCtrlWrite s v rwl) := by
  unfold State.alignCtrlWrite
  repeat' (first
    | with_reducible assumption
    | with_reducible exact Has.sub hw (by decide)
    | with_reducible exact Has.mem hw (by decide)
    | intro _
    | with_reducible apply Stays.ite
    | with_reducible apply PStays.fst
    | with_reducible apply State.put_stays
    | (extract_lets)
    | with_reducible apply Stays.set_crs
    | split
    | with_reducible apply PStays.pair
    | (with_reducible refine PStays.eq (by assumption) ?_))

end Sys2Proof.Machine
end

