-- ==== Sys2Proof/Laws/StaysBuffer.lean ====
section
/-! SUPPORT. Laws/Stays.lean, for the operations of Machine/Buffer.lean. -/
namespace Sys2Proof.Machine

theorem State.setInq_stays {w_ : List Part} {z s : State} (i : Nat) (l : List InPkt) (hw : Has [.rte] w_) (hk : Stays w_ z s) :
    Stays w_ z (State.setInq s i l) := by
  unfold State.setInq
  repeat' (first
    | with_reducible assumption
    | with_reducible exact Has.sub hw (by decide)
    | with_reducible exact Has.mem hw (by decide)
    | intro _
    | (extract_lets)
    | split
    | with_reducible apply Stays.set_rte)

theorem State.setOut_stays {w_ : List Part} {z s : State} (o : Nat) (v : OutSt) (hw : Has [.sch] w_) (hk : Stays w_ z s) : Stays
    w_ z (State.setOut s o v) := by
  unfold State.setOut
  repeat' (first
    | with_reducible assumption
    | with_reducible exact Has.sub hw (by decide)
    | with_reducible exact Has.mem hw (by decide)
    | intro _
    | (extract_lets)
    | split
    | with_reducible apply Stays.set_sch)

theorem State.setPkt_stays {w_ : List Part} {z s : State} (i : Nat) (p : InPkt) (hw : Has [.rte] w_) (hk : Stays w_ z s) : Stays
    w_ z (State.setPkt s i p) := by
  unfold State.setPkt
  repeat' (first
    | with_reducible assumption
    | with_reducible exact Has.sub hw (by decide)
    | with_reducible exact Has.mem hw (by decide)
    | intro _
    | with_reducible apply Stays.ite
    | with_reducible apply State.setInq_stays
    | (extract_lets)
    | split)

theorem State.delPkt_stays {w_ : List Part} {z s : State} (i id : Nat) (hw : Has [.rte] w_) (hk : Stays w_ z s) : Stays w_ z
    (State.delPkt s i id) := by
  unfold State.delPkt
  repeat' (first
    | with_reducible assumption
    | with_reducible exact Has.sub hw (by decide)
    | with_reducible exact Has.mem hw (by decide)
    | intro _
    | with_reducible apply State.setInq_stays
    | (extract_lets)
    | split)

theorem State.freeSlot_stays {w_ : List Part} {z s : State} (i vc : Nat) (credit : Bool) (hw : Has [.lnk] w_) (hk : Stays w_ z s)
    : Stays w_ z (State.freeSlot s i vc credit) := by
  unfold State.freeSlot
  repeat' (first
    | with_reducible assumption
    | with_reducible exact Has.sub hw (by decide)
    | with_reducible exact Has.mem hw (by decide)
    | intro _
    | with_reducible apply Stays.ite
    | with_reducible apply State.poolOff_stays
    | with_reducible apply State.setLk_stays
    | (extract_lets)
    | split)

theorem State.freeForms_stays {w_ : List Part} {z s : State} (i vc : Nat) (forms : List Bool) (hw : Has [.lnk] w_) (hk : Stays w_
    z s) : Stays w_ z (State.freeForms s i vc forms) := by
  unfold State.freeForms
  repeat' (first
    | with_reducible assumption
    | with_reducible exact Has.sub hw (by decide)
    | with_reducible exact Has.mem hw (by decide)
    | intro _
    | with_reducible apply Stays.foldl
    | with_reducible apply PStays.foldl
    | with_reducible apply QStays.foldl
    | with_reducible apply State.freeSlot_stays
    | (extract_lets)
    | split)

theorem State.discard_stays {w_ : List Part} {z s : State} (i : Nat) (p : InPkt) (hw : Has [.lnk, .rte] w_) (hk : Stays w_ z s) :
    Stays w_ z (State.discard s i p) := by
  unfold State.discard
  repeat' (first
    | with_reducible assumption
    | with_reducible exact Has.sub hw (by decide)
    | with_reducible exact Has.mem hw (by decide)
    | intro _
    | with_reducible apply Stays.ite
    | with_reducible apply State.delPkt_stays
    | with_reducible apply State.freeForms_stays
    | with_reducible apply State.setPkt_stays
    | (extract_lets)
    | split)

theorem State.abortIn_stays {w_ : List Part} {z s : State} (i : Nat) (p : InPkt) (reason : Nat) (hw : Has [.glb, .ctrs, .srcs,
    .banks, .lnk, .rte, .hif, .out] w_) (hk : Stays w_ z s) : Stays w_ z (State.abortIn s i p reason) := by
  unfold State.abortIn
  repeat' (first
    | with_reducible assumption
    | with_reducible exact Has.sub hw (by decide)
    | with_reducible exact Has.mem hw (by decide)
    | intro _
    | with_reducible apply Stays.ite
    | with_reducible apply State.bump_stays
    | with_reducible apply State.delPkt_stays
    | with_reducible apply State.discard_stays
    | with_reducible apply State.freeForms_stays
    | with_reducible apply State.raise_stays
    | with_reducible apply State.setPkt_stays
    | (extract_lets)
    | split)

theorem State.place_stays {w_ : List Part} {z s : State} (i vc : Nat) (credit : Bool) (hw : Has [.lnk] w_) (hk : Stays w_ z s) :
    OptStays w_ z (State.place s i vc credit) := by
  unfold State.place
  repeat' (first
    | with_reducible assumption
    | with_reducible exact Has.sub hw (by decide)
    | with_reducible exact Has.mem hw (by decide)
    | intro _
    | with_reducible apply OptStays.ite
    | with_reducible apply Stays.ite
    | with_reducible exact OptStays.none _
    | with_reducible apply OptStays.some
    | with_reducible apply State.poolOff_stays
    | with_reducible apply State.setLk_stays
    | (extract_lets)
    | split
    | (with_reducible refine OptStays.eq (by assumption) ?_))

theorem State.framingErrow_stays {w_ : List Part} {z s : State} (i : Nat) (hw : Has [.glb, .ctrs, .srcs, .banks, .lnk, .rte, .hif,
    .out] w_) (hk : Stays w_ z s) : Stays w_ z (State.framingError s i) := by
  unfold State.framingError
  repeat' (first
    | with_reducible assumption
    | with_reducible exact Has.sub hw (by decide)
    | with_reducible exact Has.mem hw (by decide)
    | intro _
    | with_reducible apply State.abortIn_stays
    | with_reducible apply State.bump_stays
    | with_reducible apply State.raise_stays
    | (extract_lets)
    | split)

theorem State.newPkt_stays {w_ : List Part} {z s : State} (i : Nat) (h : Nat) (body : Data) (credit : Bool) (hw : Has [.rte] w_)
    (hk : Stays w_ z s) : Stays w_ z (State.newPkt s i h body credit) := by
  unfold State.newPkt
  repeat' (first
    | with_reducible assumption
    | with_reducible exact Has.sub hw (by decide)
    | with_reducible exact Has.mem hw (by decide)
    | intro _
    | with_reducible apply State.setInq_stays
    | (extract_lets)
    | split
    | with_reducible apply Stays.set_rte)

theorem State.noteDepth_stays {w_ : List Part} {z s : State} (o : Nat) (hw : Has [.rte] w_) (hk : Stays w_ z s) : Stays w_ z
    (State.noteDepth s o) := by
  unfold State.noteDepth
  repeat' (first
    | with_reducible assumption
    | with_reducible exact Has.sub hw (by decide)
    | with_reducible exact Has.mem hw (by decide)
    | intro _
    | with_reducible apply Stays.ite
    | (extract_lets)
    | split
    | with_reducible apply Stays.set_rte)

theorem State.moreBrick_stays {w_ : List Part} {z s : State} (i : Nat) (p : InPkt) (body : Data) (credit : Bool) (hw : Has [.lnk,
    .rte] w_) (hk : Stays w_ z s) : Stays w_ z (State.moreBrick s i p body credit) := by
  unfold State.moreBrick
  repeat' (first
    | with_reducible assumption
    | with_reducible exact Has.sub hw (by decide)
    | with_reducible exact Has.mem hw (by decide)
    | intro _
    | with_reducible apply Stays.ite
    | with_reducible apply State.delPkt_stays
    | with_reducible apply State.freeSlot_stays
    | with_reducible apply State.noteDepth_stays
    | with_reducible apply State.setPkt_stays
    | (extract_lets)
    | split)

theorem State.frame_stays {w_ : List Part} {z s : State} (i t : Nat) (body : Data) (hw : Has [.glb, .ctrs, .srcs, .banks, .lnk,
    .rte, .hif, .out] w_) (hk : Stays w_ z s) : Stays w_ z (State.frame s i t body) := by
  unfold State.frame
  repeat' (first
    | with_reducible assumption
    | with_reducible exact Has.sub hw (by decide)
    | with_reducible exact Has.mem hw (by decide)
    | intro _
    | with_reducible apply Stays.ite
    | with_reducible apply State.framingErrow_stays
    | with_reducible apply State.freeSlot_stays
    | with_reducible apply State.moreBrick_stays
    | with_reducible apply State.newPkt_stays
    | (extract_lets)
    | split)

theorem State.freshQueue_stays {w_ : List Part} {z s : State} (o vc : Nat) (hw : Has [.sch] w_) (hk : Stays w_ z s) : Stays w_ z
    (State.freshQueue s o vc) := by
  unfold State.freshQueue
  repeat' (first
    | with_reducible assumption
    | with_reducible exact Has.sub hw (by decide)
    | with_reducible exact Has.mem hw (by decide)
    | intro _
    | with_reducible apply Stays.ite
    | with_reducible apply State.setOut_stays
    | (extract_lets)
    | split)

theorem State.queueAt_stays {w_ : List Part} {z s : State} (i : Nat) (p : InPkt) (o : Nat) (hw : Has [.rte, .sch] w_) (hk : Stays
    w_ z s) : Stays w_ z (State.queueAt s i p o) := by
  unfold State.queueAt
  repeat' (first
    | with_reducible assumption
    | with_reducible exact Has.sub hw (by decide)
    | with_reducible exact Has.mem hw (by decide)
    | intro _
    | with_reducible apply State.freshQueue_stays
    | with_reducible apply State.setPkt_stays
    | (extract_lets)
    | split)

theorem State.hubTo_stays {w_ : List Part} {z s : State} (h : Nat) (dest : Option Nat) (d : Data) (hw : Has [.rte, .sch] w_) (hk :
    Stays w_ z s) : Stays w_ z (State.hubTo s h dest d) := by
  unfold State.hubTo
  repeat' (first
    | with_reducible assumption
    | with_reducible exact Has.sub hw (by decide)
    | with_reducible exact Has.mem hw (by decide)
    | intro _
    | with_reducible apply State.freshQueue_stays
    | with_reducible apply State.setInq_stays
    | (extract_lets)
    | split
    | with_reducible apply Stays.set_rte)

end Sys2Proof.Machine
end

