-- ==== Sys2Proof/Laws/StaysHif.lean ====
section
/-! SUPPORT. Laws/Stays.lean, for the operations of Machine/Hif.lean. -/
namespace Sys2Proof.Machine

theorem State.setFn_stays {w_ : List Part} {z s : State} (f : Nat) (v : Fn) (hw : Has [.hif] w_) (hk : Stays w_ z s) : Stays w_ z
    (State.setFn s f v) := by
  unfold State.setFn
  repeat' (first
    | with_reducible assumption
    | with_reducible exact Has.sub hw (by decide)
    | with_reducible exact Has.mem hw (by decide)
    | intro _
    | with_reducible apply Stays.ite
    | (extract_lets)
    | split
    | with_reducible apply Stays.set_hif)

theorem State.setSq_stays {w_ : List Part} {z s : State} (q : Nat) (v : Sq) (hw : Has [.hif] w_) (hk : Stays w_ z s) : Stays w_ z
    (State.setSq s q v) := by
  unfold State.setSq
  repeat' (first
    | with_reducible assumption
    | with_reducible exact Has.sub hw (by decide)
    | with_reducible exact Has.mem hw (by decide)
    | intro _
    | with_reducible apply Stays.ite
    | (extract_lets)
    | split
    | with_reducible apply Stays.set_hif)

theorem State.onSq_stays {w_ : List Part} {z s : State} (q : Nat) (f : Sq → Sq) (hw : Has [.hif] w_) (hk : Stays w_ z s) : Stays
    w_ z (State.onSq s q f) := by
  unfold State.onSq
  repeat' (first
    | with_reducible assumption
    | with_reducible exact Has.sub hw (by decide)
    | with_reducible exact Has.mem hw (by decide)
    | intro _
    | with_reducible apply State.setSq_stays
    | (extract_lets)
    | split)

theorem State.setCq_stays {w_ : List Part} {z s : State} (c : Nat) (v : Cq) (hw : Has [.hif] w_) (hk : Stays w_ z s) : Stays w_ z
    (State.setCq s c v) := by
  unfold State.setCq
  repeat' (first
    | with_reducible assumption
    | with_reducible exact Has.sub hw (by decide)
    | with_reducible exact Has.mem hw (by decide)
    | intro _
    | with_reducible apply Stays.ite
    | (extract_lets)
    | split
    | with_reducible apply Stays.set_hif)

theorem State.setEp_stays {w_ : List Part} {z s : State} (e : Nat) (v : Ep) (hw : Has [.hif] w_) (hk : Stays w_ z s) : Stays w_ z
    (State.setEp s e v) := by
  unfold State.setEp
  repeat' (first
    | with_reducible assumption
    | with_reducible exact Has.sub hw (by decide)
    | with_reducible exact Has.mem hw (by decide)
    | intro _
    | with_reducible apply Stays.ite
    | (extract_lets)
    | split
    | with_reducible apply Stays.set_hif)

theorem State.freeHdw_stays {w_ : List Part} {z s : State} (i : Nat) (hw : Has [.mch] w_) (hk : Stays w_ z s) : Stays w_ z
    (State.freeHdr s i) := by
  unfold State.freeHdr
  repeat' (first
    | with_reducible assumption
    | with_reducible exact Has.sub hw (by decide)
    | with_reducible exact Has.mem hw (by decide)
    | intro _
    | (extract_lets)
    | split
    | with_reducible apply Stays.set_mch)

theorem State.noteWritten_stays {w_ : List Part} {z s : State} (slots : List Nat) (hw : Has [.hif] w_) (hk : Stays w_ z s) : Stays
    w_ z (State.noteWritten s slots) := by
  unfold State.noteWritten
  repeat' (first
    | with_reducible assumption
    | with_reducible exact Has.sub hw (by decide)
    | with_reducible exact Has.mem hw (by decide)
    | intro _
    | with_reducible apply State.onSq_stays
    | (extract_lets)
    | split)

theorem State.cqPut_stays {w_ : List Part} {z s : State} (c : Nat) (slots : List Nat) (hw : Has [.ctrs, .hif, .out, .free] w_) (hk
    : Stays w_ z s) : Stays w_ z (State.cqPut s c slots) := by
  unfold State.cqPut
  repeat' (first
    | with_reducible assumption
    | with_reducible exact Has.sub hw (by decide)
    | with_reducible exact Has.mem hw (by decide)
    | intro _
    | with_reducible apply Stays.ite
    | with_reducible apply Stays.foldl
    | with_reducible apply PStays.foldl
    | with_reducible apply QStays.foldl
    | with_reducible apply PStays.fst
    | with_reducible apply QStays.snd
    | with_reducible apply State.draw_staysQ
    | with_reducible apply State.bumpBy_stays
    | with_reducible apply State.hostWrite_stays
    | with_reducible apply State.msixSend_stays
    | with_reducible apply State.noteWritten_stays
    | with_reducible apply State.setCq_stays
    | (extract_lets)
    | split
    | with_reducible apply PStays.pair
    | with_reducible apply QStays.pair
    | (with_reducible refine PStays.eq (by assumption) ?_)
    | (with_reducible refine QStays.eq (by assumption) ?_))

theorem State.cqStall_stays {w_ : List Part} {z s : State} (c : Nat) (hw : Has [.glb, .ctrs, .srcs, .banks, .hif, .out] w_) (hk :
    Stays w_ z s) : Stays w_ z (State.cqStall s c) := by
  unfold State.cqStall
  repeat' (first
    | with_reducible assumption
    | with_reducible exact Has.sub hw (by decide)
    | with_reducible exact Has.mem hw (by decide)
    | intro _
    | with_reducible apply Stays.ite
    | with_reducible apply State.bump_stays
    | with_reducible apply State.raise_stays
    | with_reducible apply State.setCq_stays
    | (extract_lets)
    | split)

theorem State.cqPost_stays {w_ : List Part} {z s : State} (c : Nat) (slots : List Nat) (hw : Has [.glb, .ctrs, .srcs, .banks,
    .hif, .out, .free] w_) (hk : Stays w_ z s) : PStays w_ z (State.cqPost s c slots) := by
  unfold State.cqPost
  repeat' (first
    | with_reducible assumption
    | with_reducible exact Has.sub hw (by decide)
    | with_reducible exact Has.mem hw (by decide)
    | intro _
    | with_reducible apply PStays.ite
    | with_reducible apply Stays.ite
    | with_reducible apply PStays.fst
    | with_reducible apply State.cqPut_stays
    | with_reducible apply State.cqStall_stays
    | with_reducible apply State.setCq_stays
    | (extract_lets)
    | split
    | with_reducible apply PStays.pair
    | (with_reducible refine PStays.eq (by assumption) ?_))

theorem State.rxPost_stays {w_ : List Part} {z s : State} (c : Nat) (slots : List Nat) (hdr : Option Nat) (hw : Has [.glb, .ctrs,
    .srcs, .banks, .hif, .mch, .out, .free] w_) (hk : Stays w_ z s) : Stays w_ z (State.rxPost s c slots hdr) := by
  unfold State.rxPost
  repeat' (first
    | with_reducible assumption
    | with_reducible exact Has.sub hw (by decide)
    | with_reducible exact Has.mem hw (by decide)
    | intro _
    | with_reducible apply Stays.ite
    | with_reducible apply PStays.fst
    | with_reducible apply State.cqPost_stays
    | with_reducible apply State.freeHdw_stays
    | with_reducible apply State.setCq_stays
    | (extract_lets)
    | split
    | with_reducible apply PStays.pair
    | (with_reducible refine PStays.eq (by assumption) ?_))

theorem State.cqDrainHeld_stays {w_ : List Part} {z s : State} (c : Nat) (k : Nat) (hw : Has [.ctrs, .hif, .out, .free] w_) (hk :
    Stays w_ z s) : Stays w_ z (State.cqDrainHeld s c k) := by
  induction k generalizing s with
  | zero =>
    unfold State.cqDrainHeld
    repeat' (first
      | with_reducible assumption
      | with_reducible exact Has.sub hw (by decide)
      | with_reducible exact Has.mem hw (by decide)
      | with_reducible apply ih
      | intro _
      | with_reducible apply Stays.ite
      | with_reducible apply State.cqPut_stays
      | with_reducible apply State.setCq_stays
      | (extract_lets)
      | split)
  | succ k ih =>
    unfold State.cqDrainHeld
    repeat' (first
      | with_reducible assumption
      | with_reducible exact Has.sub hw (by decide)
      | with_reducible exact Has.mem hw (by decide)
      | with_reducible apply ih
      | intro _
      | with_reducible apply Stays.ite
      | with_reducible apply State.cqPut_stays
      | with_reducible apply State.setCq_stays
      | (extract_lets)
      | split)

theorem State.cqDrainOwed_stays {w_ : List Part} {z s : State} (c : Nat) (k : Nat) (hw : Has [.glb, .ctrs, .srcs, .banks, .hif,
    .mch, .out, .free] w_) (hk : Stays w_ z s) : Stays w_ z (State.cqDrainOwed s c k) := by
  induction k generalizing s with
  | zero =>
    unfold State.cqDrainOwed
    repeat' (first
      | with_reducible assumption
      | with_reducible exact Has.sub hw (by decide)
      | with_reducible exact Has.mem hw (by decide)
      | with_reducible apply ih
      | intro _
      | with_reducible apply Stays.ite
      | with_reducible apply PStays.fst
      | with_reducible apply State.cqPost_stays
      | with_reducible apply State.freeHdw_stays
      | with_reducible apply State.setCq_stays
      | (extract_lets)
      | split
      | with_reducible apply PStays.pair
      | (with_reducible refine PStays.eq (by assumption) ?_))
  | succ k ih =>
    unfold State.cqDrainOwed
    repeat' (first
      | with_reducible assumption
      | with_reducible exact Has.sub hw (by decide)
      | with_reducible exact Has.mem hw (by decide)
      | with_reducible apply ih
      | intro _
      | with_reducible apply Stays.ite
      | with_reducible apply PStays.fst
      | with_reducible apply State.cqPost_stays
      | with_reducible apply State.freeHdw_stays
      | with_reducible apply State.setCq_stays
      | (extract_lets)
      | split
      | with_reducible apply PStays.pair
      | (with_reducible refine PStays.eq (by assumption) ?_))

theorem State.cqDrain_stays {w_ : List Part} {z s : State} (c : Nat) (hw : Has [.glb, .ctrs, .srcs, .banks, .hif, .mch, .out,
    .free] w_) (hk : Stays w_ z s) : Stays w_ z (State.cqDrain s c) := by
  unfold State.cqDrain
  repeat' (first
    | with_reducible assumption
    | with_reducible exact Has.sub hw (by decide)
    | with_reducible exact Has.mem hw (by decide)
    | intro _
    | with_reducible apply Stays.ite
    | with_reducible apply State.cqDrainHeld_stays
    | with_reducible apply State.cqDrainOwed_stays
    | with_reducible apply State.cqStall_stays
    | with_reducible apply State.setCq_stays
    | (extract_lets)
    | split)

theorem State.cqResume_stays {w_ : List Part} {z s : State} (hw : Has [.glb, .ctrs, .srcs, .banks, .hif, .mch, .out, .free] w_)
    (hk : Stays w_ z s) : Stays w_ z (State.cqResume s) := by
  unfold State.cqResume
  repeat' (first
    | with_reducible assumption
    | with_reducible exact Has.sub hw (by decide)
    | with_reducible exact Has.mem hw (by decide)
    | intro _
    | with_reducible apply Stays.foldl
    | with_reducible apply PStays.foldl
    | with_reducible apply QStays.foldl
    | with_reducible apply PStays.fst
    | with_reducible apply QStays.snd
    | with_reducible apply State.draw_staysQ
    | with_reducible apply State.cqDrain_stays
    | (extract_lets)
    | split
    | with_reducible apply PStays.pair
    | with_reducible apply QStays.pair
    | (with_reducible refine PStays.eq (by assumption) ?_)
    | (with_reducible refine QStays.eq (by assumption) ?_))

theorem State.sqErrow_stays {w_ : List Part} {z s : State} (q code : Nat) (ctr : Option RingCtr) (hw : Has [.glb, .ctrs, .srcs,
    .banks, .hif, .out] w_) (hk : Stays w_ z s) : Stays w_ z (State.sqError s q code ctr) := by
  unfold State.sqError
  repeat' (first
    | with_reducible assumption
    | with_reducible exact Has.sub hw (by decide)
    | with_reducible exact Has.mem hw (by decide)
    | intro _
    | with_reducible apply Stays.ite
    | with_reducible apply State.raise_stays
    | with_reducible apply State.setSq_stays
    | (extract_lets)
    | split)

theorem State.finishEntry_stays {w_ : List Part} {z s : State} (q : Nat) (ctr : RingCtr) (r : Res) (hw : Has [.hif] w_) (hk :
    Stays w_ z s) : Stays w_ z (State.finishEntry s q ctr r) := by
  unfold State.finishEntry
  repeat' (first
    | with_reducible assumption
    | with_reducible exact Has.sub hw (by decide)
    | with_reducible exact Has.mem hw (by decide)
    | intro _
    | with_reducible apply Stays.ite
    | with_reducible apply State.onSq_stays
    | (extract_lets)
    | split)

theorem State.runEntry_stays {w_ : List Part} {z s : State} (q : Nat) (ctr : RingCtr) (note : Nat) (hw : Has [.hif] w_) (hk :
    Stays w_ z s) : Stays w_ z (State.runEntry s q ctr note) := by
  unfold State.runEntry
  repeat' (first
    | with_reducible assumption
    | with_reducible exact Has.sub hw (by decide)
    | with_reducible exact Has.mem hw (by decide)
    | intro _
    | with_reducible apply Stays.ite
    | with_reducible apply State.onSq_stays
    | (extract_lets)
    | split)

theorem State.dbDrop_stays {w_ : List Part} {z s : State} (hw : Has [.ctrs] w_) (hk : Stays w_ z s) : Stays w_ z (State.dbDrop s)
    := by
  unfold State.dbDrop
  repeat' (first
    | with_reducible assumption
    | with_reducible exact Has.sub hw (by decide)
    | with_reducible exact Has.mem hw (by decide)
    | intro _
    | with_reducible apply State.bump_stays
    | (extract_lets)
    | split)

theorem State.sqBell_stays {w_ : List Part} {z s : State} (q : Nat) (v : Sq) (d : RingCtr) (hw : Has [.glb, .ctrs, .srcs, .banks,
    .hif, .out] w_) (hk : Stays w_ z s) : Stays w_ z (State.sqBell s q v d) := by
  unfold State.sqBell
  repeat' (first
    | with_reducible assumption
    | with_reducible exact Has.sub hw (by decide)
    | with_reducible exact Has.mem hw (by decide)
    | intro _
    | with_reducible apply Stays.ite
    | with_reducible apply State.bump_stays
    | with_reducible apply State.setSq_stays
    | with_reducible apply State.sqErrow_stays
    | (extract_lets)
    | split)

theorem execSqDoorbell_stays {w_ : List Part} {z s : State} (f off size data : Nat) (hw : Has [.glb, .ctrs, .srcs, .banks, .hif,
    .out] w_) (hk : Stays w_ z s) : OutStays w_ z (execSqDoorbell f off size data s) := by
  unfold execSqDoorbell
  repeat' (first
    | with_reducible assumption
    | with_reducible exact Has.sub hw (by decide)
    | with_reducible exact Has.mem hw (by decide)
    | intro _
    | with_reducible apply OutStays.ite
    | with_reducible apply Stays.ite
    | with_reducible apply OutStays.next
    | with_reducible apply State.dbDrop_stays
    | with_reducible apply State.sqBell_stays
    | (extract_lets)
    | split)

theorem State.armCq_stays {w_ : List Part} {z s : State} (c : Nat) (hw : Has [.ctrs, .hif, .out] w_) (hk : Stays w_ z s) : Stays
    w_ z (State.armCq s c) := by
  unfold State.armCq
  repeat' (first
    | with_reducible assumption
    | with_reducible exact Has.sub hw (by decide)
    | with_reducible exact Has.mem hw (by decide)
    | intro _
    | with_reducible apply Stays.ite
    | with_reducible apply State.msixSend_stays
    | with_reducible apply State.setCq_stays
    | (extract_lets)
    | split)

theorem State.cqOverflow_stays {w_ : List Part} {z s : State} (c : Nat) (hw : Has [.glb, .ctrs, .srcs, .banks, .hif, .out, .free]
    w_) (hk : Stays w_ z s) : Stays w_ z (State.cqOverflow s c) := by
  unfold State.cqOverflow
  repeat' (first
    | with_reducible assumption
    | with_reducible exact Has.sub hw (by decide)
    | with_reducible exact Has.mem hw (by decide)
    | intro _
    | with_reducible apply Stays.ite
    | with_reducible apply Stays.foldl
    | with_reducible apply PStays.foldl
    | with_reducible apply QStays.foldl
    | with_reducible apply PStays.fst
    | with_reducible apply QStays.snd
    | with_reducible apply State.draw_staysQ
    | with_reducible apply State.bump_stays
    | with_reducible apply State.raise_stays
    | with_reducible apply State.setCq_stays
    | with_reducible apply State.sqErrow_stays
    | (extract_lets)
    | split
    | with_reducible apply PStays.pair
    | with_reducible apply QStays.pair
    | (with_reducible refine PStays.eq (by assumption) ?_)
    | (with_reducible refine QStays.eq (by assumption) ?_))

theorem State.cqBell_stays {w_ : List Part} {z s : State} (c : Nat) (v : Cq) (d : RingCtr) (arm : Bool) (hw : Has [.glb, .ctrs,
    .srcs, .banks, .hif, .mch, .out, .free] w_) (hk : Stays w_ z s) : Stays w_ z (State.cqBell s c v d arm) := by
  unfold State.cqBell
  repeat' (first
    | with_reducible assumption
    | with_reducible exact Has.sub hw (by decide)
    | with_reducible exact Has.mem hw (by decide)
    | intro _
    | with_reducible apply Stays.ite
    | with_reducible apply State.armCq_stays
    | with_reducible apply State.cqDrain_stays
    | with_reducible apply State.dbDrop_stays
    | with_reducible apply State.raise_stays
    | with_reducible apply State.setCq_stays
    | (extract_lets)
    | split)

theorem execCqDoorbell_stays {w_ : List Part} {z s : State} (f off size data : Nat) (hw : Has [.glb, .ctrs, .srcs, .banks, .hif,
    .mch, .out, .free] w_) (hk : Stays w_ z s) : OutStays w_ z (execCqDoorbell f off size data s) := by
  unfold execCqDoorbell
  repeat' (first
    | with_reducible assumption
    | with_reducible exact Has.sub hw (by decide)
    | with_reducible exact Has.mem hw (by decide)
    | intro _
    | with_reducible apply OutStays.ite
    | with_reducible apply Stays.ite
    | with_reducible apply OutStays.next
    | with_reducible apply State.cqBell_stays
    | with_reducible apply State.cqOverflow_stays
    | with_reducible apply State.dbDrop_stays
    | (extract_lets)
    | split)

theorem State.eqBell_stays {w_ : List Part} {z s : State} (r ringNo owner : Nat) (d : RingCtr) (arm : Bool) (hw : Has [.glb,
    .ctrs, .srcs, .banks, .hif, .out] w_) (hk : Stays w_ z s) : Stays w_ z (State.eqBell s r ringNo owner d arm) := by
  unfold State.eqBell
  repeat' (first
    | with_reducible assumption
    | with_reducible exact Has.sub hw (by decide)
    | with_reducible exact Has.mem hw (by decide)
    | intro _
    | with_reducible apply Stays.ite
    | with_reducible apply State.dbDrop_stays
    | with_reducible apply State.eqDrain_stays
    | with_reducible apply State.msixSend_stays
    | with_reducible apply State.raise_stays
    | with_reducible apply State.setEq_stays
    | (extract_lets)
    | split)

theorem execEqDoorbell_stays {w_ : List Part} {z s : State} (f off size data : Nat) (hw : Has [.glb, .ctrs, .srcs, .banks, .hif,
    .out] w_) (hk : Stays w_ z s) : OutStays w_ z (execEqDoorbell f off size data s) := by
  unfold execEqDoorbell
  repeat' (first
    | with_reducible assumption
    | with_reducible exact Has.sub hw (by decide)
    | with_reducible exact Has.mem hw (by decide)
    | intro _
    | with_reducible apply OutStays.ite
    | with_reducible apply Stays.ite
    | with_reducible apply OutStays.next
    | with_reducible apply State.dbDrop_stays
    | with_reducible apply State.eqBell_stays
    | (extract_lets)
    | split)

theorem execDeviceEqDoorbell_stays {w_ : List Part} {z s : State} (f off : Nat) (d : Data) (hw : Has [.glb, .ctrs, .srcs, .banks,
    .hif, .out] w_) (hk : Stays w_ z s) : OutStays w_ z (execDeviceEqDoorbell f off d s) := by
  unfold execDeviceEqDoorbell
  repeat' (first
    | with_reducible assumption
    | with_reducible exact Has.sub hw (by decide)
    | with_reducible exact Has.mem hw (by decide)
    | intro _
    | with_reducible apply OutStays.ite
    | with_reducible apply Stays.ite
    | with_reducible apply OutStays.next
    | with_reducible apply State.dbDrop_stays
    | with_reducible apply State.eqBell_stays
    | (extract_lets)
    | split)

theorem execEventsLost_stays {w_ : List Part} {z s : State} (r : Nat) (hw : Has [.glb, .ctrs, .srcs, .banks, .hif, .out] w_) (hk :
    Stays w_ z s) : OutStays w_ z (execEventsLost r s) := by
  unfold execEventsLost
  repeat' (first
    | with_reducible assumption
    | with_reducible exact Has.sub hw (by decide)
    | with_reducible exact Has.mem hw (by decide)
    | intro _
    | with_reducible apply OutStays.ite
    | with_reducible apply Stays.ite
    | with_reducible apply OutStays.next
    | with_reducible apply State.eqDrain_stays
    | with_reducible apply State.eqPut_stays
    | with_reducible apply State.raiseMute_stays
    | with_reducible apply State.setEq_stays
    | (extract_lets)
    | split)

theorem execWorkFetch_stays {w_ : List Part} {z s : State} (hw : Has [.ctrs, .hif, .out] w_) (hk : Stays w_ z s) : OutStays w_ z
    (execWorkFetch s) := by
  unfold execWorkFetch
  repeat' (first
    | with_reducible assumption
    | with_reducible exact Has.sub hw (by decide)
    | with_reducible exact Has.mem hw (by decide)
    | intro _
    | with_reducible apply OutStays.ite
    | with_reducible apply Stays.ite
    | with_reducible apply OutStays.next
    | with_reducible apply State.bumpBy_stays
    | with_reducible apply State.hostRead_stays
    | with_reducible apply State.setSq_stays
    | (extract_lets)
    | split
    | with_reducible apply Stays.set_hif)

theorem State.retire_stays {w_ : List Part} {z s : State} (q : Nat) (v : Sq) (e : Ent) (r : Res) (hw : Has [.glb, .ctrs, .srcs,
    .banks, .hif, .out, .free] w_) (hk : Stays w_ z s) : Stays w_ z (State.retire s q v e r) := by
  unfold State.retire
  repeat' (first
    | with_reducible assumption
    | with_reducible exact Has.sub hw (by decide)
    | with_reducible exact Has.mem hw (by decide)
    | intro _
    | with_reducible apply Stays.ite
    | with_reducible apply PStays.fst
    | with_reducible apply State.cqPost_stays
    | with_reducible apply State.onSq_stays
    | with_reducible apply State.setSq_stays
    | with_reducible apply State.sqErrow_stays
    | (extract_lets)
    | split
    | with_reducible apply PStays.pair
    | (with_reducible refine PStays.eq (by assumption) ?_))

theorem execEntryRetire_stays {w_ : List Part} {z s : State} (q : Nat) (hw : Has [.glb, .ctrs, .srcs, .banks, .hif, .out, .free]
    w_) (hk : Stays w_ z s) : OutStays w_ z (execEntryRetire q s) := by
  unfold execEntryRetire
  repeat' (first
    | with_reducible assumption
    | with_reducible exact Has.sub hw (by decide)
    | with_reducible exact Has.mem hw (by decide)
    | intro _
    | with_reducible apply OutStays.ite
    | with_reducible apply Stays.ite
    | with_reducible apply OutStays.next
    | with_reducible apply State.retire_stays
    | (extract_lets)
    | split)

theorem State.reportErrow_stays {w_ : List Part} {z s : State} (q : Nat) (v : Sq) (hw : Has [.glb, .ctrs, .srcs, .banks, .hif,
    .out, .free] w_) (hk : Stays w_ z s) : PStays w_ z (State.reportError s q v) := by
  unfold State.reportError
  repeat' (first
    | with_reducible assumption
    | with_reducible exact Has.sub hw (by decide)
    | with_reducible exact Has.mem hw (by decide)
    | intro _
    | with_reducible apply PStays.ite
    | with_reducible apply Stays.ite
    | with_reducible apply PStays.fst
    | with_reducible apply State.cqPost_stays
    | with_reducible apply State.onSq_stays
    | (extract_lets)
    | split
    | with_reducible apply PStays.pair
    | (with_reducible refine PStays.eq (by assumption) ?_))

theorem execFlushCompletion_stays {w_ : List Part} {z s : State} (q : Nat) (hw : Has [.glb, .ctrs, .srcs, .banks, .hif, .out,
    .free] w_) (hk : Stays w_ z s) : OutStays w_ z (execFlushCompletion q s) := by
  unfold execFlushCompletion
  repeat' (first
    | with_reducible assumption
    | with_reducible exact Has.sub hw (by decide)
    | with_reducible exact Has.mem hw (by decide)
    | intro _
    | with_reducible apply OutStays.ite
    | with_reducible apply Stays.ite
    | with_reducible apply PStays.fst
    | with_reducible apply OutStays.next
    | with_reducible apply State.cqPost_stays
    | with_reducible apply State.onSq_stays
    | with_reducible apply State.reportErrow_stays
    | (extract_lets)
    | split
    | with_reducible apply PStays.pair
    | (with_reducible refine PStays.eq (by assumption) ?_))

theorem execCqOverflow_stays {w_ : List Part} {z s : State} (c : Nat) (hw : Has [.glb, .ctrs, .srcs, .banks, .hif, .out, .free]
    w_) (hk : Stays w_ z s) : OutStays w_ z (execCqOverflow c s) := by
  unfold execCqOverflow
  repeat' (first
    | with_reducible assumption
    | with_reducible exact Has.sub hw (by decide)
    | with_reducible exact Has.mem hw (by decide)
    | intro _
    | with_reducible apply OutStays.next
    | with_reducible apply State.cqOverflow_stays
    | (extract_lets)
    | split)

end Sys2Proof.Machine
end

