-- ==== Sys2Proof/Laws/StaysCol.lean ====
section
/-! SUPPORT. Laws/Stays.lean, for the operations of Machine/Col.lean. -/
namespace Sys2Proof.Machine

theorem State.setColTree_stays {w_ : List Part} {z s : State} (t : Nat) (v : ColTree) (hw : Has [.col] w_) (hk : Stays w_ z s) :
    Stays w_ z (State.setColTree s t v) := by
  unfold State.setColTree
  repeat' (first
    | with_reducible assumption
    | with_reducible exact Has.sub hw (by decide)
    | with_reducible exact Has.mem hw (by decide)
    | intro _
    | (extract_lets)
    | split
    | with_reducible apply Stays.set_col)

theorem State.sendAbort_stays {w_ : List Part} {z s : State} (t set reason origin port : Nat) (hw : Has [.rte, .sch] w_) (hk :
    Stays w_ z s) : Stays w_ z (State.sendAbort s t set reason origin port) := by
  unfold State.sendAbort
  repeat' (first
    | with_reducible assumption
    | with_reducible exact Has.sub hw (by decide)
    | with_reducible exact Has.mem hw (by decide)
    | intro _
    | with_reducible apply State.hubTo_stays
    | (extract_lets)
    | split)

theorem State.treeEvent_stays {w_ : List Part} {z s : State} (t reason : Nat) (hw : Has [.glb, .ctrs, .srcs, .banks, .hif, .out]
    w_) (hk : Stays w_ z s) : Stays w_ z (State.treeEvent s t reason) := by
  unfold State.treeEvent
  repeat' (first
    | with_reducible assumption
    | with_reducible exact Has.sub hw (by decide)
    | with_reducible exact Has.mem hw (by decide)
    | intro _
    | with_reducible apply Stays.ite
    | with_reducible apply Stays.foldl
    | with_reducible apply PStays.foldl
    | with_reducible apply QStays.foldl
    | with_reducible apply State.eqPost_stays
    | with_reducible apply State.raise_stays
    | (extract_lets)
    | split)

theorem State.treeFail_stays {w_ : List Part} {z s : State} (t set reason origin : Nat) (from_ : Option Nat) (hw : Has [.ctrs,
    .rte, .sch, .hif, .col] w_) (hk : Stays w_ z s) : Stays w_ z (State.treeFail s t set reason origin from_) := by
  unfold State.treeFail
  repeat' (first
    | with_reducible assumption
    | with_reducible exact Has.sub hw (by decide)
    | with_reducible exact Has.mem hw (by decide)
    | intro _
    | with_reducible apply Stays.foldl
    | with_reducible apply PStays.foldl
    | with_reducible apply QStays.foldl
    | with_reducible apply State.bump_stays
    | with_reducible apply State.finishEntry_stays
    | with_reducible apply State.sendAbort_stays
    | with_reducible apply State.setColTree_stays
    | (extract_lets)
    | split
    | with_reducible apply Stays.set_col)

theorem State.treeErrow_stays {w_ : List Part} {z s : State} (t set reason origin : Nat) (from_ : Option Nat) (hw : Has [.glb,
    .ctrs, .srcs, .banks, .rte, .sch, .hif, .col, .out] w_) (hk : Stays w_ z s) : Stays w_ z (State.treeError s t set reason
    origin from_) := by
  unfold State.treeError
  repeat' (first
    | with_reducible assumption
    | with_reducible exact Has.sub hw (by decide)
    | with_reducible exact Has.mem hw (by decide)
    | intro _
    | with_reducible apply Stays.ite
    | with_reducible apply State.treeEvent_stays
    | with_reducible apply State.treeFail_stays
    | (extract_lets)
    | split)

theorem State.colPortDown_stays {w_ : List Part} {z s : State} (p : Nat) (hw : Has [.glb, .ctrs, .srcs, .banks, .rte, .sch, .hif,
    .col, .out] w_) (hk : Stays w_ z s) : Stays w_ z (State.colPortDown s p) := by
  unfold State.colPortDown
  repeat' (first
    | with_reducible assumption
    | with_reducible exact Has.sub hw (by decide)
    | with_reducible exact Has.mem hw (by decide)
    | intro _
    | with_reducible apply Stays.ite
    | with_reducible apply Stays.foldl
    | with_reducible apply PStays.foldl
    | with_reducible apply QStays.foldl
    | with_reducible apply State.treeErrow_stays
    | (extract_lets)
    | split)

theorem State.colLeave_stays {w_ : List Part} {z s : State} (t ep : Nat) (hw : Has [.glb, .ctrs, .srcs, .banks, .rte, .sch, .hif,
    .col, .out] w_) (hk : Stays w_ z s) : Stays w_ z (State.colLeave s t ep) := by
  unfold State.colLeave
  repeat' (first
    | with_reducible assumption
    | with_reducible exact Has.sub hw (by decide)
    | with_reducible exact Has.mem hw (by decide)
    | intro _
    | with_reducible apply Stays.ite
    | with_reducible apply State.treeErrow_stays
    | (extract_lets)
    | split
    | with_reducible apply Stays.set_col)

theorem State.colLeaveAll_stays {w_ : List Part} {z s : State} (ep : Nat) (hw : Has [.glb, .ctrs, .srcs, .banks, .rte, .sch, .hif,
    .col, .out] w_) (hk : Stays w_ z s) : Stays w_ z (State.colLeaveAll s ep) := by
  unfold State.colLeaveAll
  repeat' (first
    | with_reducible assumption
    | with_reducible exact Has.sub hw (by decide)
    | with_reducible exact Has.mem hw (by decide)
    | intro _
    | with_reducible apply Stays.foldl
    | with_reducible apply PStays.foldl
    | with_reducible apply QStays.foldl
    | with_reducible apply PStays.fst
    | with_reducible apply State.colLeave_stays
    | (extract_lets)
    | split
    | with_reducible apply PStays.pair
    | (with_reducible refine PStays.eq (by assumption) ?_))

theorem State.colSwapTree_stays {w_ : List Part} {z s : State} (t : Nat) (before : Bool × Nat) (hw : Has [.col] w_) (hk : Stays w_
    z s) : Stays w_ z (State.colSwapTree s t before) := by
  unfold State.colSwapTree
  repeat' (first
    | with_reducible assumption
    | with_reducible exact Has.sub hw (by decide)
    | with_reducible exact Has.mem hw (by decide)
    | intro _
    | with_reducible apply Stays.ite
    | with_reducible apply State.setColTree_stays
    | (extract_lets)
    | split
    | with_reducible apply Stays.set_col)

end Sys2Proof.Machine
end

