-- ==== Sys2Proof/Laws/StaysLaneTx.lean ====
section
/-! SUPPORT. Laws/Stays.lean, for the operations of Machine/LaneTx.lean. -/
namespace Sys2Proof.Machine

theorem State.drawErrors_stays {w_ : List Part} {z s : State} (k : Nat) (rest : List Nat) (got : List (Nat × Nat)) (hw : Has
    [.free] w_) (hk : Stays w_ z s) : QStays w_ z (State.drawErrors s k rest got) := by
  induction k generalizing s rest got with
  | zero =>
    unfold State.drawErrors
    repeat' (first
      | with_reducible assumption
      | with_reducible exact Has.sub hw (by decide)
      | with_reducible exact Has.mem hw (by decide)
      | with_reducible apply ih
      | with_reducible exact ih _
      | intro _
      | with_reducible apply QStays.snd
      | with_reducible apply State.draw_staysQ
      | with_reducible apply State.draw_stays
      | (extract_lets)
      | split
      | with_reducible apply QStays.pair
      | (with_reducible refine QStays.eq (by assumption) ?_))
  | succ k ih =>
    unfold State.drawErrors
    repeat' (first
      | with_reducible assumption
      | with_reducible exact Has.sub hw (by decide)
      | with_reducible exact Has.mem hw (by decide)
      | with_reducible apply ih
      | with_reducible exact ih _
      | intro _
      | with_reducible apply QStays.snd
      | with_reducible apply State.draw_staysQ
      | with_reducible apply State.draw_stays
      | (extract_lets)
      | split
      | with_reducible apply QStays.pair
      | (with_reducible refine QStays.eq (by assumption) ?_))

theorem State.putCodeword_stays {w_ : List Part} {z s : State} (n : Nat) (blocks : List Nat) (hw : Has [.phy, .out, .free] w_) (hk
    : Stays w_ z s) : Stays w_ z (State.putCodeword s n blocks) := by
  unfold State.putCodeword
  repeat' (first
    | with_reducible assumption
    | with_reducible exact Has.sub hw (by decide)
    | with_reducible exact Has.mem hw (by decide)
    | intro _
    | with_reducible apply Stays.ite
    | with_reducible apply QStays.snd
    | with_reducible apply State.draw_staysQ
    | with_reducible apply State.drawErrors_stays
    | with_reducible apply State.emit_stays
    | with_reducible apply State.setLn_stays
    | (extract_lets)
    | split
    | with_reducible apply QStays.pair
    | (with_reducible refine QStays.eq (by assumption) ?_))

theorem State.putBlock_stays {w_ : List Part} {z s : State} (n block : Nat) (hw : Has [.phy, .out, .free] w_) (hk : Stays w_ z s)
    : Stays w_ z (State.putBlock s n block) := by
  unfold State.putBlock
  repeat' (first
    | with_reducible assumption
    | with_reducible exact Has.sub hw (by decide)
    | with_reducible exact Has.mem hw (by decide)
    | intro _
    | with_reducible apply Stays.ite
    | with_reducible apply State.putCodeword_stays
    | with_reducible apply State.setLn_stays
    | (extract_lets)
    | split)

theorem State.dataBlock_stays {w_ : List Part} {z s : State} (n payload : Nat) (hw : Has [.phy, .out, .free] w_) (hk : Stays w_ z
    s) : Stays w_ z (State.dataBlock s n payload) := by
  unfold State.dataBlock
  repeat' (first
    | with_reducible assumption
    | with_reducible exact Has.sub hw (by decide)
    | with_reducible exact Has.mem hw (by decide)
    | intro _
    | with_reducible apply State.putBlock_stays
    | with_reducible apply State.setLn_stays
    | (extract_lets)
    | split)

theorem State.laneData_stays {w_ : List Part} {z s : State} (n : Nat) (d : Data) (hw : Has [.phy, .out, .free] w_) (hk : Stays w_
    z s) : Stays w_ z (State.laneData s n d) := by
  unfold State.laneData
  repeat' (first
    | with_reducible assumption
    | with_reducible exact Has.sub hw (by decide)
    | with_reducible exact Has.mem hw (by decide)
    | intro _
    | with_reducible apply Stays.foldl
    | with_reducible apply PStays.foldl
    | with_reducible apply QStays.foldl
    | with_reducible apply State.dataBlock_stays
    | with_reducible apply State.setLn_stays
    | (extract_lets)
    | split)

theorem State.fillCodeword_stays {w_ : List Part} {z s : State} (n : Nat) (hw : Has [.phy, .out, .free] w_) (hk : Stays w_ z s) :
    Stays w_ z (State.fillCodeword s n) := by
  unfold State.fillCodeword
  repeat' (first
    | with_reducible assumption
    | with_reducible exact Has.sub hw (by decide)
    | with_reducible exact Has.mem hw (by decide)
    | intro _
    | with_reducible apply Stays.ite
    | with_reducible apply Stays.foldl
    | with_reducible apply PStays.foldl
    | with_reducible apply QStays.foldl
    | with_reducible apply State.dataBlock_stays
    | with_reducible apply State.setLn_stays
    | (extract_lets)
    | split)

theorem State.layBrick_stays {w_ : List Part} {z s : State} (p : Nat) (d : Data) (hw : Has [.phy, .out, .free] w_) (hk : Stays w_
    z s) : Stays w_ z (State.layBrick s p d) := by
  unfold State.layBrick
  repeat' (first
    | with_reducible assumption
    | with_reducible exact Has.sub hw (by decide)
    | with_reducible exact Has.mem hw (by decide)
    | intro _
    | with_reducible apply Stays.ite
    | with_reducible apply State.laneData_stays
    | with_reducible apply State.setPp_stays
    | (extract_lets)
    | split)

theorem State.putBrick_stays {w_ : List Part} {z s : State} (p : Nat) (d : Data) (hw : Has [.ctrs, .phy, .out, .free] w_) (hk :
    Stays w_ z s) : Stays w_ z (State.putBrick s p d) := by
  unfold State.putBrick
  repeat' (first
    | with_reducible assumption
    | with_reducible exact Has.sub hw (by decide)
    | with_reducible exact Has.mem hw (by decide)
    | intro _
    | with_reducible apply State.bump_stays
    | with_reducible apply State.emit_stays
    | with_reducible apply State.layBrick_stays
    | (extract_lets)
    | split)

theorem State.sendMarkew_stays {w_ : List Part} {z s : State} (n : Nat) (early : Bool) (hw : Has [.phy, .out, .free] w_) (hk :
    Stays w_ z s) : Stays w_ z (State.sendMarker s n early) := by
  unfold State.sendMarker
  repeat' (first
    | with_reducible assumption
    | with_reducible exact Has.sub hw (by decide)
    | with_reducible exact Has.mem hw (by decide)
    | intro _
    | with_reducible apply State.emit_stays
    | with_reducible apply State.fillCodeword_stays
    | with_reducible apply State.setLn_stays
    | (extract_lets)
    | split)

theorem State.sendMarkers_stays {w_ : List Part} {z s : State} (p : Nat) (hw : Has [.phy, .out, .free] w_) (hk : Stays w_ z s) :
    Stays w_ z (State.sendMarkers s p) := by
  unfold State.sendMarkers
  repeat' (first
    | with_reducible assumption
    | with_reducible exact Has.sub hw (by decide)
    | with_reducible exact Has.mem hw (by decide)
    | intro _
    | with_reducible apply Stays.ite
    | with_reducible apply State.sendMarkew_stays
    | with_reducible apply State.setPp_stays
    | (extract_lets)
    | split)

end Sys2Proof.Machine
end

