-- ==== Sys2Proof/Laws/StaysLink.lean ====
section
/-! SUPPORT. Laws/Stays.lean, for the operations of Machine/Link.lean. -/
namespace Sys2Proof.Machine

theorem State.sendBrick_stays {w_ : List Part} {z s : State} (p type seq : Nat) (body : Data) (hw : Has [.ctrs, .phy, .out, .free]
    w_) (hk : Stays w_ z s) : Stays w_ z (State.sendBrick s p type seq body) := by
  unfold State.sendBrick
  repeat' (first
    | with_reducible assumption
    | with_reducible exact Has.sub hw (by decide)
    | with_reducible exact Has.mem hw (by decide)
    | intro _
    | with_reducible apply State.putBrick_stays
    | (extract_lets)
    | split)

theorem State.startInit_stays {w_ : List Part} {z s : State} (p : Nat) (resume : Bool) (hw : Has [.lnk] w_) (hk : Stays w_ z s) :
    Stays w_ z (State.startInit s p resume) := by
  unfold State.startInit
  repeat' (first
    | with_reducible assumption
    | with_reducible exact Has.sub hw (by decide)
    | with_reducible exact Has.mem hw (by decide)
    | intro _
    | with_reducible apply State.onLk_stays
    | (extract_lets)
    | split)

theorem State.reinit_stays {w_ : List Part} {z s : State} (p : Nat) (hw : Has [.lnk] w_) (hk : Stays w_ z s) : Stays w_ z
    (State.reinit s p) := by
  unfold State.reinit
  repeat' (first
    | with_reducible assumption
    | with_reducible exact Has.sub hw (by decide)
    | with_reducible exact Has.mem hw (by decide)
    | intro _
    | with_reducible apply Stays.ite
    | with_reducible apply State.startInit_stays
    | (extract_lets)
    | split)

theorem State.widthChange_stays {w_ : List Part} {z s : State} (p : Nat) (hw : Has [.lnk] w_) (hk : Stays w_ z s) : Stays w_ z
    (State.widthChange s p) := by
  unfold State.widthChange
  repeat' (first
    | with_reducible assumption
    | with_reducible exact Has.sub hw (by decide)
    | with_reducible exact Has.mem hw (by decide)
    | intro _
    | with_reducible apply State.onLk_stays
    | with_reducible apply State.startInit_stays
    | (extract_lets)
    | split)

theorem State.protoErrow_stays {w_ : List Part} {z s : State} (p : Nat) (hw : Has [.glb, .ctrs, .srcs, .banks, .lnk, .hif, .out]
    w_) (hk : Stays w_ z s) : Stays w_ z (State.protoError s p) := by
  unfold State.protoError
  repeat' (first
    | with_reducible assumption
    | with_reducible exact Has.sub hw (by decide)
    | with_reducible exact Has.mem hw (by decide)
    | intro _
    | with_reducible apply State.bump_stays
    | with_reducible apply State.raise_stays
    | with_reducible apply State.reinit_stays
    | (extract_lets)
    | split)

theorem State.abandon_stays {w_ : List Part} {z s : State} (p : Nat) (hw : Has [.ctrs, .lnk, .rte, .sch] w_) (hk : Stays w_ z s) :
    Stays w_ z (State.abandon s p) := by
  unfold State.abandon
  repeat' (first
    | with_reducible assumption
    | with_reducible exact Has.sub hw (by decide)
    | with_reducible exact Has.mem hw (by decide)
    | intro _
    | with_reducible apply Stays.ite
    | with_reducible apply State.bump_stays
    | with_reducible apply State.discard_stays
    | with_reducible apply State.onLk_stays
    | with_reducible apply State.setOut_stays
    | (extract_lets)
    | split)

theorem State.dropReplay_stays {w_ : List Part} {z s : State} (p : Nat) (hw : Has [.ctrs, .lnk] w_) (hk : Stays w_ z s) : Stays w_
    z (State.dropReplay s p) := by
  unfold State.dropReplay
  repeat' (first
    | with_reducible assumption
    | with_reducible exact Has.sub hw (by decide)
    | with_reducible exact Has.mem hw (by decide)
    | intro _
    | with_reducible apply State.bumpBy_stays
    | with_reducible apply State.onLk_stays
    | (extract_lets)
    | split)

theorem State.abortInput_stays {w_ : List Part} {z s : State} (p : Nat) (hw : Has [.glb, .ctrs, .srcs, .banks, .lnk, .rte, .hif,
    .out] w_) (hk : Stays w_ z s) : Stays w_ z (State.abortInput s p) := by
  unfold State.abortInput
  repeat' (first
    | with_reducible assumption
    | with_reducible exact Has.sub hw (by decide)
    | with_reducible exact Has.mem hw (by decide)
    | intro _
    | with_reducible apply State.abortIn_stays
    | (extract_lets)
    | split)

theorem State.linkDown_stays {w_ : List Part} {z s : State} (p cause : Nat) (hw : Has [.glb, .crs, .ctrs, .srcs, .banks, .lnk,
    .rte, .sch, .hif, .col, .out] w_) (hk : Stays w_ z s) : Stays w_ z (State.linkDown s p cause) := by
  unfold State.linkDown
  repeat' (first
    | with_reducible assumption
    | with_reducible exact Has.sub hw (by decide)
    | with_reducible exact Has.mem hw (by decide)
    | intro _
    | with_reducible apply Stays.ite
    | with_reducible apply State.abandon_stays
    | with_reducible apply State.abortInput_stays
    | with_reducible apply State.bump_stays
    | with_reducible apply State.colPortDown_stays
    | with_reducible apply State.dropReplay_stays
    | with_reducible apply State.level_stays
    | with_reducible apply State.markLinkDown_stays
    | with_reducible apply State.onLk_stays
    | (extract_lets)
    | split
    | with_reducible apply Stays.set_rte)

theorem State.setHeadroom_stays {w_ : List Part} {z s : State} (p : Nat) (hw : Has [.glb, .regs, .ctrs, .srcs, .banks, .lnk, .hif,
    .out] w_) (hk : Stays w_ z s) : Stays w_ z (State.setHeadroom s p) := by
  unfold State.setHeadroom
  repeat' (first
    | with_reducible assumption
    | with_reducible exact Has.sub hw (by decide)
    | with_reducible exact Has.mem hw (by decide)
    | intro _
    | with_reducible apply Stays.ite
    | with_reducible apply State.onLk_stays
    | with_reducible apply State.put_stays
    | with_reducible apply State.raise_stays
    | (extract_lets)
    | split)

theorem State.upResume_stays {w_ : List Part} {z s : State} (p : Nat) (rxLast : Nat) (valid : Bool) (hw : Has [.ctrs, .lnk] w_)
    (hk : Stays w_ z s) : Stays w_ z (State.upResume s p rxLast valid) := by
  unfold State.upResume
  repeat' (first
    | with_reducible assumption
    | with_reducible exact Has.sub hw (by decide)
    | with_reducible exact Has.mem hw (by decide)
    | intro _
    | with_reducible apply Stays.ite
    | with_reducible apply State.bump_stays
    | with_reducible apply State.bumpIf_stays
    | with_reducible apply State.setLk_stays
    | (extract_lets)
    | split)

theorem State.upFresh_stays {w_ : List Part} {z s : State} (p : Nat) (hw : Has [.glb, .ctrs, .srcs, .banks, .lnk, .rte, .sch,
    .hif, .out] w_) (hk : Stays w_ z s) : Stays w_ z (State.upFresh s p) := by
  unfold State.upFresh
  repeat' (first
    | with_reducible assumption
    | with_reducible exact Has.sub hw (by decide)
    | with_reducible exact Has.mem hw (by decide)
    | intro _
    | with_reducible apply State.abandon_stays
    | with_reducible apply State.abortInput_stays
    | with_reducible apply State.dropReplay_stays
    | with_reducible apply State.onLk_stays
    | (extract_lets)
    | split)

theorem State.tryUp_stays {w_ : List Part} {z s : State} (p : Nat) (hw : Has [.glb, .regs, .ctrs, .srcs, .banks, .lnk, .rte, .sch,
    .hif, .out] w_) (hk : Stays w_ z s) : Stays w_ z (State.tryUp s p) := by
  unfold State.tryUp
  repeat' (first
    | with_reducible assumption
    | with_reducible exact Has.sub hw (by decide)
    | with_reducible exact Has.mem hw (by decide)
    | intro _
    | with_reducible apply Stays.ite
    | with_reducible apply State.level_stays
    | with_reducible apply State.poolOff_stays
    | with_reducible apply State.setHeadroom_stays
    | with_reducible apply State.upFresh_stays
    | with_reducible apply State.upResume_stays
    | (extract_lets)
    | split)

theorem State.validBrick_stays {w_ : List Part} {z s : State} (p : Nat) (hw : Has [.ctrs, .lnk] w_) (hk : Stays w_ z s) : Stays w_
    z (State.validBrick s p) := by
  unfold State.validBrick
  repeat' (first
    | with_reducible assumption
    | with_reducible exact Has.sub hw (by decide)
    | with_reducible exact Has.mem hw (by decide)
    | intro _
    | with_reducible apply State.bump_stays
    | with_reducible apply State.onLk_stays
    | (extract_lets)
    | split)

theorem State.ackBrick_stays {w_ : List Part} {z s : State} (p a : Nat) (hw : Has [.glb, .ctrs, .srcs, .banks, .lnk, .hif, .out]
    w_) (hk : Stays w_ z s) : Stays w_ z (State.ackBrick s p a) := by
  unfold State.ackBrick
  repeat' (first
    | with_reducible assumption
    | with_reducible exact Has.sub hw (by decide)
    | with_reducible exact Has.mem hw (by decide)
    | intro _
    | with_reducible apply Stays.ite
    | with_reducible apply State.protoErrow_stays
    | with_reducible apply State.setLk_stays
    | (extract_lets)
    | split)

theorem State.startReplay_stays {w_ : List Part} {z s : State} (p : Nat) (from_ : LinkSeq) (hw : Has [.glb, .crs, .ctrs, .srcs,
    .banks, .lnk, .rte, .sch, .hif, .col, .out] w_) (hk : Stays w_ z s) : Stays w_ z (State.startReplay s p from_) := by
  unfold State.startReplay
  repeat' (first
    | with_reducible assumption
    | with_reducible exact Has.sub hw (by decide)
    | with_reducible exact Has.mem hw (by decide)
    | intro _
    | with_reducible apply Stays.ite
    | with_reducible apply State.bump_stays
    | with_reducible apply State.linkDown_stays
    | with_reducible apply State.setLk_stays
    | (extract_lets)
    | split)

theorem State.nakBrick_stays {w_ : List Part} {z s : State} (p n : Nat) (hw : Has [.glb, .crs, .ctrs, .srcs, .banks, .lnk, .rte,
    .sch, .hif, .col, .out] w_) (hk : Stays w_ z s) : Stays w_ z (State.nakBrick s p n) := by
  unfold State.nakBrick
  repeat' (first
    | with_reducible assumption
    | with_reducible exact Has.sub hw (by decide)
    | with_reducible exact Has.mem hw (by decide)
    | intro _
    | with_reducible apply Stays.ite
    | with_reducible apply State.ackBrick_stays
    | with_reducible apply State.startReplay_stays
    | (extract_lets)
    | split)

theorem State.nakDue_stays {w_ : List Part} {z s : State} (p : Nat) (hw : Has [.lnk] w_) (hk : Stays w_ z s) : Stays w_ z
    (State.nakDue s p) := by
  unfold State.nakDue
  repeat' (first
    | with_reducible assumption
    | with_reducible exact Has.sub hw (by decide)
    | with_reducible exact Has.mem hw (by decide)
    | intro _
    | with_reducible apply Stays.ite
    | with_reducible apply State.setLk_stays
    | (extract_lets)
    | split)

theorem State.creditReturn_stays {w_ : List Part} {z s : State} (p : Nat) (ret : List Nat) (hw : Has [.glb, .ctrs, .srcs, .banks,
    .lnk, .hif, .out] w_) (hk : Stays w_ z s) : Stays w_ z (State.creditReturn s p ret) := by
  unfold State.creditReturn
  repeat' (first
    | with_reducible assumption
    | with_reducible exact Has.sub hw (by decide)
    | with_reducible exact Has.mem hw (by decide)
    | intro _
    | with_reducible apply Stays.ite
    | with_reducible apply State.protoErrow_stays
    | with_reducible apply State.setLk_stays
    | (extract_lets)
    | split)

theorem State.refusePlace_stays {w_ : List Part} {z s : State} (p ctr : Nat) (hw : Has [.glb, .ctrs, .srcs, .banks, .lnk, .hif,
    .out] w_) (hk : Stays w_ z s) : Stays w_ z (State.refusePlace s p ctr) := by
  unfold State.refusePlace
  repeat' (first
    | with_reducible assumption
    | with_reducible exact Has.sub hw (by decide)
    | with_reducible exact Has.mem hw (by decide)
    | intro _
    | with_reducible apply State.bump_stays
    | with_reducible apply State.nakDue_stays
    | with_reducible apply State.raise_stays
    | (extract_lets)
    | split)

theorem State.rxSequenced_stays {w_ : List Part} {z s : State} (p type seq : Nat) (body : Data) (hw : Has [.glb, .ctrs, .srcs,
    .banks, .lnk, .rte, .hif, .out] w_) (hk : Stays w_ z s) : Stays w_ z (State.rxSequenced s p type seq body) := by
  unfold State.rxSequenced
  repeat' (first
    | with_reducible assumption
    | with_reducible exact Has.sub hw (by decide)
    | with_reducible exact Has.mem hw (by decide)
    | intro _
    | with_reducible apply Stays.ite
    | with_reducible exact OptStays.none _
    | with_reducible apply OptStays.some
    | with_reducible apply State.abortIn_stays
    | with_reducible apply State.bump_stays
    | with_reducible apply State.frame_stays
    | with_reducible apply State.nakDue_stays
    | with_reducible apply State.onLk_stays
    | with_reducible apply State.place_stays
    | with_reducible apply State.refusePlace_stays
    | (extract_lets)
    | split
    | (with_reducible refine OptStays.eq (by assumption) ?_))

theorem State.rxBrick_stays {w_ : List Part} {z s : State} (p type seq ack : Nat) (body : Data) (hw : Has [.glb, .ctrs, .srcs,
    .banks, .lnk, .rte, .hif, .out] w_) (hk : Stays w_ z s) : Stays w_ z (State.rxBrick s p type seq ack body) := by
  unfold State.rxBrick
  repeat' (first
    | with_reducible assumption
    | with_reducible exact Has.sub hw (by decide)
    | with_reducible exact Has.mem hw (by decide)
    | intro _
    | with_reducible apply Stays.ite
    | with_reducible apply State.ackBrick_stays
    | with_reducible apply State.rxSequenced_stays
    | with_reducible apply State.validBrick_stays
    | (extract_lets)
    | split)

theorem execSequencedBrickRx_stays {w_ : List Part} {z s : State} (p type seq ack : Nat) (body : Data) (hw : Has [.glb, .ctrs,
    .srcs, .banks, .lnk, .rte, .hif, .out] w_) (hk : Stays w_ z s) : OutStays w_ z (execSequencedBrickRx p type seq ack body s) :=
    by
  unfold execSequencedBrickRx
  repeat' (first
    | with_reducible assumption
    | with_reducible exact Has.sub hw (by decide)
    | with_reducible exact Has.mem hw (by decide)
    | intro _
    | with_reducible apply OutStays.ite
    | with_reducible apply Stays.ite
    | with_reducible apply OutStays.next
    | with_reducible apply State.rxBrick_stays
    | (extract_lets)
    | split)

theorem execAbortBrickRx_stays {w_ : List Part} {z s : State} (p seq ack reason : Nat) (hw : Has [.glb, .ctrs, .srcs, .banks,
    .lnk, .rte, .hif, .out] w_) (hk : Stays w_ z s) : OutStays w_ z (execAbortBrickRx p seq ack reason s) := by
  unfold execAbortBrickRx
  repeat' (first
    | with_reducible assumption
    | with_reducible exact Has.sub hw (by decide)
    | with_reducible exact Has.mem hw (by decide)
    | intro _
    | with_reducible apply OutStays.ite
    | with_reducible apply Stays.ite
    | with_reducible apply OutStays.next
    | with_reducible apply State.rxBrick_stays
    | (extract_lets)
    | split)

theorem execBrickCrcErrow_stays {w_ : List Part} {z s : State} (p : Nat) (hw : Has [.glb, .ctrs, .srcs, .banks, .lnk, .hif, .out]
    w_) (hk : Stays w_ z s) : OutStays w_ z (execBrickCrcError p s) := by
  unfold execBrickCrcError
  repeat' (first
    | with_reducible assumption
    | with_reducible exact Has.sub hw (by decide)
    | with_reducible exact Has.mem hw (by decide)
    | intro _
    | with_reducible apply OutStays.ite
    | with_reducible apply Stays.ite
    | with_reducible apply OutStays.next
    | with_reducible apply State.bump_stays
    | with_reducible apply State.nakDue_stays
    | with_reducible apply State.raise_stays
    | (extract_lets)
    | split)

theorem execReservedBrickRx_stays {w_ : List Part} {z s : State} (p : Nat) (hw : Has [.glb, .ctrs, .srcs, .banks, .lnk, .hif,
    .out] w_) (hk : Stays w_ z s) : OutStays w_ z (execReservedBrickRx p s) := by
  unfold execReservedBrickRx
  repeat' (first
    | with_reducible assumption
    | with_reducible exact Has.sub hw (by decide)
    | with_reducible exact Has.mem hw (by decide)
    | intro _
    | with_reducible apply OutStays.ite
    | with_reducible apply Stays.ite
    | with_reducible apply OutStays.next
    | with_reducible apply State.bump_stays
    | with_reducible apply State.raise_stays
    | with_reducible apply State.validBrick_stays
    | (extract_lets)
    | split)

theorem State.farLevel_stays {w_ : List Part} {z s : State} (p : Nat) (off : Bool) (hw : Has [.lnk, .rte] w_) (hk : Stays w_ z s)
    : Stays w_ z (State.farLevel s p off) := by
  unfold State.farLevel
  repeat' (first
    | with_reducible assumption
    | with_reducible exact Has.sub hw (by decide)
    | with_reducible exact Has.mem hw (by decide)
    | intro _
    | with_reducible apply Stays.ite
    | with_reducible apply State.onLk_stays
    | (extract_lets)
    | split
    | with_reducible apply Stays.set_rte)

theorem State.rxControl_stays {w_ : List Part} {z s : State} (p seq ack : Nat) (body : Data) (hw : Has [.glb, .crs, .regs, .ctrs,
    .srcs, .banks, .lnk, .rte, .sch, .hif, .col, .out] w_) (hk : Stays w_ z s) : Stays w_ z (State.rxControl s p seq ack body) :=
    by
  unfold State.rxControl
  repeat' (first
    | with_reducible assumption
    | with_reducible exact Has.sub hw (by decide)
    | with_reducible exact Has.mem hw (by decide)
    | intro _
    | with_reducible apply Stays.ite
    | with_reducible apply State.ackBrick_stays
    | with_reducible apply State.courseMark_stays
    | with_reducible apply State.creditReturn_stays
    | with_reducible apply State.farLevel_stays
    | with_reducible apply State.nakBrick_stays
    | with_reducible apply State.nakDue_stays
    | with_reducible apply State.validBrick_stays
    | (extract_lets)
    | split)

theorem execControlBrickRx_stays {w_ : List Part} {z s : State} (p seq ack : Nat) (body : Data) (hw : Has [.glb, .crs, .regs,
    .ctrs, .srcs, .banks, .lnk, .rte, .sch, .hif, .col, .out] w_) (hk : Stays w_ z s) : OutStays w_ z (execControlBrickRx p seq
    ack body s) := by
  unfold execControlBrickRx
  repeat' (first
    | with_reducible assumption
    | with_reducible exact Has.sub hw (by decide)
    | with_reducible exact Has.mem hw (by decide)
    | intro _
    | with_reducible apply OutStays.ite
    | with_reducible apply Stays.ite
    | with_reducible apply OutStays.next
    | with_reducible apply State.rxControl_stays
    | (extract_lets)
    | split)

theorem execFenceBrickRx_stays {w_ : List Part} {z s : State} (p : Nat) (hw : Has [.glb, .crs, .ctrs, .srcs, .banks, .lnk, .rte,
    .sch, .hif, .col, .out] w_) (hk : Stays w_ z s) : OutStays w_ z (execFenceBrickRx p s) := by
  unfold execFenceBrickRx
  repeat' (first
    | with_reducible assumption
    | with_reducible exact Has.sub hw (by decide)
    | with_reducible exact Has.mem hw (by decide)
    | intro _
    | with_reducible apply OutStays.ite
    | with_reducible apply Stays.ite
    | with_reducible apply OutStays.next
    | with_reducible apply State.linkDown_stays
    | with_reducible apply State.validBrick_stays
    | (extract_lets)
    | split)

theorem State.rttSample_stays {w_ : List Part} {z s : State} (p echo turn : Nat) (hw : Has [.lnk] w_) (hk : Stays w_ z s) : Stays
    w_ z (State.rttSample s p echo turn) := by
  unfold State.rttSample
  repeat' (first
    | with_reducible assumption
    | with_reducible exact Has.sub hw (by decide)
    | with_reducible exact Has.mem hw (by decide)
    | intro _
    | with_reducible apply Stays.ite
    | with_reducible apply State.setLk_stays
    | (extract_lets)
    | split)

theorem State.initLevels_stays {w_ : List Part} {z s : State} (p : Nat) (body : Data) (hw : Has [.glb, .ctrs, .srcs, .banks, .lnk,
    .rte, .hif, .out] w_) (hk : Stays w_ z s) : Stays w_ z (State.initLevels s p body) := by
  unfold State.initLevels
  repeat' (first
    | with_reducible assumption
    | with_reducible exact Has.sub hw (by decide)
    | with_reducible exact Has.mem hw (by decide)
    | intro _
    | with_reducible apply State.creditReturn_stays
    | with_reducible apply State.farLevel_stays
    | (extract_lets)
    | split)

theorem State.noteInit_stays {w_ : List Part} {z s : State} (p : Nat) (body : Data) (hw : Has [.glb, .ctrs, .srcs, .banks, .lnk,
    .rte, .hif, .out] w_) (hk : Stays w_ z s) : Stays w_ z (State.noteInit s p body) := by
  unfold State.noteInit
  repeat' (first
    | with_reducible assumption
    | with_reducible exact Has.sub hw (by decide)
    | with_reducible exact Has.mem hw (by decide)
    | intro _
    | with_reducible apply State.initLevels_stays
    | with_reducible apply State.onLk_stays
    | (extract_lets)
    | split)

theorem State.rxInit_stays {w_ : List Part} {z s : State} (p : Nat) (body : Data) (hw : Has [.glb, .regs, .ctrs, .srcs, .banks,
    .lnk, .rte, .sch, .hif, .out] w_) (hk : Stays w_ z s) : Stays w_ z (State.rxInit s p body) := by
  unfold State.rxInit
  repeat' (first
    | with_reducible assumption
    | with_reducible exact Has.sub hw (by decide)
    | with_reducible exact Has.mem hw (by decide)
    | intro _
    | with_reducible apply Stays.ite
    | with_reducible apply State.noteInit_stays
    | with_reducible apply State.rttSample_stays
    | with_reducible apply State.setLk_stays
    | with_reducible apply State.tryUp_stays
    | (extract_lets)
    | split)

theorem State.initRx_stays {w_ : List Part} {z s : State} (p : Nat) (body : Data) (hw : Has [.glb, .regs, .ctrs, .srcs, .banks,
    .lnk, .rte, .sch, .hif, .out] w_) (hk : Stays w_ z s) : Stays w_ z (State.initRx s p body) := by
  unfold State.initRx
  repeat' (first
    | with_reducible assumption
    | with_reducible exact Has.sub hw (by decide)
    | with_reducible exact Has.mem hw (by decide)
    | intro _
    | with_reducible apply State.noteInit_stays
    | with_reducible apply State.rxInit_stays
    | with_reducible apply State.startInit_stays
    | with_reducible apply State.validBrick_stays
    | (extract_lets)
    | split)

theorem execInitBrickRx_stays {w_ : List Part} {z s : State} (p : Nat) (body : Data) (hw : Has [.glb, .regs, .ctrs, .srcs, .banks,
    .lnk, .rte, .sch, .hif, .out] w_) (hk : Stays w_ z s) : OutStays w_ z (execInitBrickRx p body s) := by
  unfold execInitBrickRx
  repeat' (first
    | with_reducible assumption
    | with_reducible exact Has.sub hw (by decide)
    | with_reducible exact Has.mem hw (by decide)
    | intro _
    | with_reducible apply OutStays.ite
    | with_reducible apply Stays.ite
    | with_reducible apply OutStays.next
    | with_reducible apply State.initRx_stays
    | (extract_lets)
    | split)

theorem State.sendSequenced_stays {w_ : List Part} {z s : State} (p type : Nat) (body : Data) (vc : Nat) (credit : Bool) (hw : Has
    [.ctrs, .phy, .lnk, .out, .free] w_) (hk : Stays w_ z s) : Stays w_ z (State.sendSequenced s p type body vc credit) := by
  unfold State.sendSequenced
  repeat' (first
    | with_reducible assumption
    | with_reducible exact Has.sub hw (by decide)
    | with_reducible exact Has.mem hw (by decide)
    | intro _
    | with_reducible apply Stays.ite
    | with_reducible apply State.sendBrick_stays
    | with_reducible apply State.setLk_stays
    | (extract_lets)
    | split)

theorem State.txBrick_stays {w_ : List Part} {z s : State} (p i : Nat) (k : InPkt) (hw : Has [.ctrs, .phy, .lnk, .rte, .sch, .out,
    .free] w_) (hk : Stays w_ z s) : Stays w_ z (State.txBrick s p i k) := by
  unfold State.txBrick
  repeat' (first
    | with_reducible assumption
    | with_reducible exact Has.sub hw (by decide)
    | with_reducible exact Has.mem hw (by decide)
    | intro _
    | with_reducible apply Stays.ite
    | with_reducible apply State.delPkt_stays
    | with_reducible apply State.freeSlot_stays
    | with_reducible apply State.onLk_stays
    | with_reducible apply State.sendSequenced_stays
    | with_reducible apply State.setOut_stays
    | with_reducible apply State.setPkt_stays
    | (extract_lets)
    | split)

theorem execBrickTx_stays {w_ : List Part} {z s : State} (p : Nat) (hw : Has [.ctrs, .phy, .lnk, .rte, .sch, .out, .free] w_) (hk
    : Stays w_ z s) : OutStays w_ z (execBrickTx p s) := by
  unfold execBrickTx
  repeat' (first
    | with_reducible assumption
    | with_reducible exact Has.sub hw (by decide)
    | with_reducible exact Has.mem hw (by decide)
    | intro _
    | with_reducible apply OutStays.ite
    | with_reducible apply Stays.ite
    | with_reducible apply OutStays.next
    | with_reducible apply State.txBrick_stays
    | (extract_lets)
    | split)

theorem State.sendControl_stays {w_ : List Part} {z s : State} (p : Nat) (hw : Has [.crs, .ctrs, .phy, .lnk, .out, .free] w_) (hk
    : Stays w_ z s) : Stays w_ z (State.sendControl s p) := by
  unfold State.sendControl
  repeat' (first
    | with_reducible assumption
    | with_reducible exact Has.sub hw (by decide)
    | with_reducible exact Has.mem hw (by decide)
    | intro _
    | with_reducible apply Stays.ite
    | with_reducible apply State.bumpIf_stays
    | with_reducible apply State.nakDue_stays
    | with_reducible apply State.noteMarkSent_stays
    | with_reducible apply State.poolOff_stays
    | with_reducible apply State.sendBrick_stays
    | with_reducible apply State.setLk_stays
    | (extract_lets)
    | split)

theorem execControlBrickTx_stays {w_ : List Part} {z s : State} (p : Nat) (hw : Has [.crs, .ctrs, .phy, .lnk, .out, .free] w_) (hk
    : Stays w_ z s) : OutStays w_ z (execControlBrickTx p s) := by
  unfold execControlBrickTx
  repeat' (first
    | with_reducible assumption
    | with_reducible exact Has.sub hw (by decide)
    | with_reducible exact Has.mem hw (by decide)
    | intro _
    | with_reducible apply OutStays.ite
    | with_reducible apply Stays.ite
    | with_reducible apply OutStays.next
    | with_reducible apply State.sendControl_stays
    | (extract_lets)
    | split)

theorem execReplayBrickTx_stays {w_ : List Part} {z s : State} (p : Nat) (hw : Has [.ctrs, .phy, .lnk, .out, .free] w_) (hk :
    Stays w_ z s) : OutStays w_ z (execReplayBrickTx p s) := by
  unfold execReplayBrickTx
  repeat' (first
    | with_reducible assumption
    | with_reducible exact Has.sub hw (by decide)
    | with_reducible exact Has.mem hw (by decide)
    | intro _
    | with_reducible apply OutStays.ite
    | with_reducible apply Stays.ite
    | with_reducible apply OutStays.next
    | with_reducible apply State.bump_stays
    | with_reducible apply State.sendBrick_stays
    | with_reducible apply State.setLk_stays
    | (extract_lets)
    | split)

theorem execReplayTimerExpiry_stays {w_ : List Part} {z s : State} (p : Nat) (hw : Has [.glb, .crs, .ctrs, .srcs, .banks, .lnk,
    .rte, .sch, .hif, .col, .out] w_) (hk : Stays w_ z s) : OutStays w_ z (execReplayTimerExpiry p s) := by
  unfold execReplayTimerExpiry
  repeat' (first
    | with_reducible assumption
    | with_reducible exact Has.sub hw (by decide)
    | with_reducible exact Has.mem hw (by decide)
    | intro _
    | with_reducible apply OutStays.ite
    | with_reducible apply Stays.ite
    | with_reducible apply OutStays.next
    | with_reducible apply State.startReplay_stays
    | (extract_lets)
    | split)

theorem execLinkInitStart_stays {w_ : List Part} {z s : State} (p : Nat) (hw : Has [.lnk] w_) (hk : Stays w_ z s) : OutStays w_ z
    (execLinkInitStart p s) := by
  unfold execLinkInitStart
  repeat' (first
    | with_reducible assumption
    | with_reducible exact Has.sub hw (by decide)
    | with_reducible exact Has.mem hw (by decide)
    | intro _
    | with_reducible apply OutStays.ite
    | with_reducible apply Stays.ite
    | with_reducible apply OutStays.next
    | with_reducible apply State.onLk_stays
    | with_reducible apply State.startInit_stays
    | (extract_lets)
    | split)

theorem execInitTimeout_stays {w_ : List Part} {z s : State} (p : Nat) (hw : Has [.glb, .crs, .ctrs, .srcs, .banks, .lnk, .rte,
    .sch, .hif, .col, .out] w_) (hk : Stays w_ z s) : OutStays w_ z (execInitTimeout p s) := by
  unfold execInitTimeout
  repeat' (first
    | with_reducible assumption
    | with_reducible exact Has.sub hw (by decide)
    | with_reducible exact Has.mem hw (by decide)
    | intro _
    | with_reducible apply OutStays.ite
    | with_reducible apply Stays.ite
    | with_reducible apply OutStays.next
    | with_reducible apply State.linkDown_stays
    | (extract_lets)
    | split)

theorem execKeepaliveTimeout_stays {w_ : List Part} {z s : State} (p : Nat) (hw : Has [.glb, .crs, .ctrs, .srcs, .banks, .lnk,
    .rte, .sch, .hif, .col, .out] w_) (hk : Stays w_ z s) : OutStays w_ z (execKeepaliveTimeout p s) := by
  unfold execKeepaliveTimeout
  repeat' (first
    | with_reducible assumption
    | with_reducible exact Has.sub hw (by decide)
    | with_reducible exact Has.mem hw (by decide)
    | intro _
    | with_reducible apply OutStays.ite
    | with_reducible apply Stays.ite
    | with_reducible apply OutStays.next
    | with_reducible apply State.linkDown_stays
    | (extract_lets)
    | split)

theorem State.phyFell_stays {w_ : List Part} {z s : State} (p : Nat) (hw : Has [.lnk] w_) (hk : Stays w_ z s) : Stays w_ z
    (State.phyFell s p) := by
  unfold State.phyFell
  repeat' (first
    | with_reducible assumption
    | with_reducible exact Has.sub hw (by decide)
    | with_reducible exact Has.mem hw (by decide)
    | intro _
    | with_reducible apply State.onLk_stays
    | (extract_lets)
    | split)

theorem execPhyDown_stays {w_ : List Part} {z s : State} (p : Nat) (hw : Has [.lnk] w_) (hk : Stays w_ z s) : OutStays w_ z
    (execPhyDown p s) := by
  unfold execPhyDown
  repeat' (first
    | with_reducible assumption
    | with_reducible exact Has.sub hw (by decide)
    | with_reducible exact Has.mem hw (by decide)
    | intro _
    | with_reducible apply OutStays.ite
    | with_reducible apply Stays.ite
    | with_reducible apply OutStays.next
    | with_reducible apply State.phyFell_stays
    | (extract_lets)
    | split)

theorem execPhyUp_stays {w_ : List Part} {z s : State} (p : Nat) (hw : Has [.lnk] w_) (hk : Stays w_ z s) : OutStays w_ z
    (execPhyUp p s) := by
  unfold execPhyUp
  repeat' (first
    | with_reducible assumption
    | with_reducible exact Has.sub hw (by decide)
    | with_reducible exact Has.mem hw (by decide)
    | intro _
    | with_reducible apply OutStays.ite
    | with_reducible apply Stays.ite
    | with_reducible apply OutStays.next
    | with_reducible apply State.startInit_stays
    | (extract_lets)
    | split)

theorem execLinkReinit_stays {w_ : List Part} {z s : State} (p : Nat) (hw : Has [.lnk] w_) (hk : Stays w_ z s) : OutStays w_ z
    (execLinkReinit p s) := by
  unfold execLinkReinit
  repeat' (first
    | with_reducible assumption
    | with_reducible exact Has.sub hw (by decide)
    | with_reducible exact Has.mem hw (by decide)
    | intro _
    | with_reducible apply OutStays.ite
    | with_reducible apply Stays.ite
    | with_reducible apply OutStays.next
    | with_reducible apply State.reinit_stays
    | (extract_lets)
    | split)

theorem execInitBrickTx_stays {w_ : List Part} {z s : State} (p : Nat) (hw : Has [.glb, .regs, .ctrs, .srcs, .banks, .phy, .lnk,
    .rte, .sch, .hif, .out, .free] w_) (hk : Stays w_ z s) : OutStays w_ z (execInitBrickTx p s) := by
  unfold execInitBrickTx
  repeat' (first
    | with_reducible assumption
    | with_reducible exact Has.sub hw (by decide)
    | with_reducible exact Has.mem hw (by decide)
    | intro _
    | with_reducible apply OutStays.ite
    | with_reducible apply Stays.ite
    | with_reducible apply OutStays.next
    | with_reducible apply State.putBrick_stays
    | with_reducible apply State.setLk_stays
    | with_reducible apply State.tryUp_stays
    | (extract_lets)
    | split)

theorem State.linkForbid_stays {w_ : List Part} {z s : State} (p : Nat) (hw : Has [.glb, .crs, .ctrs, .srcs, .banks, .lnk, .rte,
    .sch, .hif, .col, .out] w_) (hk : Stays w_ z s) : Stays w_ z (State.linkForbid s p) := by
  unfold State.linkForbid
  repeat' (first
    | with_reducible assumption
    | with_reducible exact Has.sub hw (by decide)
    | with_reducible exact Has.mem hw (by decide)
    | intro _
    | with_reducible apply State.linkDown_stays
    | (extract_lets)
    | split)

end Sys2Proof.Machine
end

