-- ==== Sys2Proof/Laws/StaysRoute.lean ====
section
/-! SUPPORT. Laws/Stays.lean, for the operations of Machine/Route.lean. -/
namespace Sys2Proof.Machine

theorem State.routeDrop_stays {w_ : List Part} {z s : State} (i : Nat) (p : InPkt) (ctr k : Nat) (hw : Has [.glb, .ctrs, .srcs,
    .banks, .lnk, .rte, .hif, .out] w_) (hk : Stays w_ z s) : Stays w_ z (State.routeDrop s i p ctr k) := by
  unfold State.routeDrop
  repeat' (first
    | with_reducible assumption
    | with_reducible exact Has.sub hw (by decide)
    | with_reducible exact Has.mem hw (by decide)
    | intro _
    | with_reducible apply State.bump_stays
    | with_reducible apply State.discard_stays
    | with_reducible apply State.raise_stays
    | (extract_lets)
    | split)

theorem State.lifeDrop_stays {w_ : List Part} {z s : State} (i : Nat) (p : InPkt) (old : Bool) (hw : Has [.glb, .ctrs, .srcs,
    .banks, .lnk, .rte, .hif, .out] w_) (hk : Stays w_ z s) : Stays w_ z (State.lifeDrop s i p old) := by
  unfold State.lifeDrop
  repeat' (first
    | with_reducible assumption
    | with_reducible exact Has.sub hw (by decide)
    | with_reducible exact Has.mem hw (by decide)
    | intro _
    | with_reducible apply Stays.ite
    | with_reducible apply State.routeDrop_stays
    | (extract_lets)
    | split)

theorem State.misrouteDrop_stays {w_ : List Part} {z s : State} (i : Nat) (p : InPkt) (hw : Has [.glb, .ctrs, .srcs, .banks, .lnk,
    .rte, .hif, .out] w_) (hk : Stays w_ z s) : Stays w_ z (State.misrouteDrop s i p) := by
  unfold State.misrouteDrop
  repeat' (first
    | with_reducible assumption
    | with_reducible exact Has.sub hw (by decide)
    | with_reducible exact Has.mem hw (by decide)
    | intro _
    | with_reducible apply State.routeDrop_stays
    | (extract_lets)
    | split)

theorem State.unreachDrop_stays {w_ : List Part} {z s : State} (i : Nat) (p : InPkt) (hw : Has [.glb, .ctrs, .srcs, .banks, .lnk,
    .rte, .hif, .out] w_) (hk : Stays w_ z s) : Stays w_ z (State.unreachDrop s i p) := by
  unfold State.unreachDrop
  repeat' (first
    | with_reducible assumption
    | with_reducible exact Has.sub hw (by decide)
    | with_reducible exact Has.mem hw (by decide)
    | intro _
    | with_reducible apply State.routeDrop_stays
    | (extract_lets)
    | split)

theorem State.toOut_stays {w_ : List Part} {z s : State} (i : Nat) (p : InPkt) (o : Nat) (hw : Has [.rte, .sch] w_) (hk : Stays w_
    z s) : Stays w_ z (State.toOut s i p o) := by
  unfold State.toOut
  repeat' (first
    | with_reducible assumption
    | with_reducible exact Has.sub hw (by decide)
    | with_reducible exact Has.mem hw (by decide)
    | intro _
    | with_reducible apply State.noteDepth_stays
    | with_reducible apply State.queueAt_stays
    | (extract_lets)
    | split)

theorem State.routeEndpoint_stays {w_ : List Part} {z s : State} (i : Nat) (p : InPkt) (hw : Has [.glb, .ctrs, .srcs, .banks,
    .lnk, .rte, .sch, .hif, .out] w_) (hk : Stays w_ z s) : Stays w_ z (State.routeEndpoint s i p) := by
  unfold State.routeEndpoint
  repeat' (first
    | with_reducible assumption
    | with_reducible exact Has.sub hw (by decide)
    | with_reducible exact Has.mem hw (by decide)
    | intro _
    | with_reducible apply Stays.ite
    | with_reducible apply State.bumpIf_stays
    | with_reducible apply State.misrouteDrop_stays
    | with_reducible apply State.toOut_stays
    | with_reducible apply State.unreachDrop_stays
    | (extract_lets)
    | split)

theorem State.routeArrived_stays {w_ : List Part} {z s : State} (i : Nat) (p : InPkt) (hw : Has [.glb, .ctrs, .srcs, .banks, .lnk,
    .rte, .sch, .hif, .out] w_) (hk : Stays w_ z s) : Stays w_ z (State.routeArrived s i p) := by
  unfold State.routeArrived
  repeat' (first
    | with_reducible assumption
    | with_reducible exact Has.sub hw (by decide)
    | with_reducible exact Has.mem hw (by decide)
    | intro _
    | with_reducible apply Stays.ite
    | with_reducible apply State.misrouteDrop_stays
    | with_reducible apply State.routeEndpoint_stays
    | with_reducible apply State.unreachDrop_stays
    | (extract_lets)
    | split)

theorem State.routePkt_stays {w_ : List Part} {z s : State} (i : Nat) (p : InPkt) (hw : Has [.glb, .ctrs, .srcs, .banks, .lnk,
    .rte, .sch, .hif, .out] w_) (hk : Stays w_ z s) : Stays w_ z (State.routePkt s i p) := by
  unfold State.routePkt
  repeat' (first
    | with_reducible assumption
    | with_reducible exact Has.sub hw (by decide)
    | with_reducible exact Has.mem hw (by decide)
    | intro _
    | with_reducible apply Stays.ite
    | with_reducible apply State.bump_stays
    | with_reducible apply State.discard_stays
    | with_reducible apply State.lifeDrop_stays
    | with_reducible apply State.misrouteDrop_stays
    | with_reducible apply State.routeArrived_stays
    | with_reducible apply State.routeDrop_stays
    | with_reducible apply State.toOut_stays
    | (extract_lets)
    | split)

theorem execPacketRoute_stays {w_ : List Part} {z s : State} (i : Nat) (hw : Has [.glb, .ctrs, .srcs, .banks, .lnk, .rte, .sch,
    .hif, .out] w_) (hk : Stays w_ z s) : OutStays w_ z (execPacketRoute i s) := by
  unfold execPacketRoute
  repeat' (first
    | with_reducible assumption
    | with_reducible exact Has.sub hw (by decide)
    | with_reducible exact Has.mem hw (by decide)
    | intro _
    | with_reducible apply OutStays.ite
    | with_reducible apply Stays.ite
    | with_reducible apply OutStays.next
    | with_reducible apply State.routePkt_stays
    | (extract_lets)
    | split)

theorem State.congRx_stays {w_ : List Part} {z s : State} (i t role : Nat) (keep : State → InPkt → State) (h_keep : ∀ u0 u1, Stays
    w_ z u0 → Stays w_ z (keep u0 u1)) (hw : Has [.glb, .ctrs, .srcs, .banks, .lnk, .rte, .hif, .out] w_) (hk : Stays w_ z s) :
    Stays w_ z (State.congRx s i t role keep) := by
  unfold State.congRx
  repeat' (first
    | with_reducible assumption
    | with_reducible exact Has.sub hw (by decide)
    | with_reducible exact Has.mem hw (by decide)
    | intro _
    | with_reducible apply Stays.ite
    | with_reducible apply State.bump_stays
    | with_reducible apply State.discard_stays
    | with_reducible apply State.misrouteDrop_stays
    | with_reducible apply State.routeDrop_stays
    | with_reducible apply h_keep
    | (extract_lets)
    | split)

theorem execCongRowRx_stays {w_ : List Part} {z s : State} (i : Nat) (hw : Has [.glb, .ctrs, .srcs, .banks, .lnk, .rte, .hif,
    .out] w_) (hk : Stays w_ z s) : OutStays w_ z (execCongRowRx i s) := by
  unfold execCongRowRx
  repeat' (first
    | with_reducible assumption
    | with_reducible exact Has.sub hw (by decide)
    | with_reducible exact Has.mem hw (by decide)
    | intro _
    | with_reducible apply OutStays.ite
    | with_reducible apply Stays.ite
    | with_reducible apply OutStays.next
    | with_reducible apply State.congRx_stays
    | (extract_lets)
    | split
    | with_reducible apply Stays.set_rte)

theorem execCongColRx_stays {w_ : List Part} {z s : State} (i : Nat) (hw : Has [.glb, .ctrs, .srcs, .banks, .lnk, .rte, .hif,
    .out] w_) (hk : Stays w_ z s) : OutStays w_ z (execCongColRx i s) := by
  unfold execCongColRx
  repeat' (first
    | with_reducible assumption
    | with_reducible exact Has.sub hw (by decide)
    | with_reducible exact Has.mem hw (by decide)
    | intro _
    | with_reducible apply OutStays.ite
    | with_reducible apply Stays.ite
    | with_reducible apply OutStays.next
    | with_reducible apply State.congRx_stays
    | (extract_lets)
    | split
    | with_reducible apply Stays.set_rte)

theorem State.courseLevels_stays {w_ : List Part} {z s : State} (hw : Has [.rte] w_) (hk : Stays w_ z s) : Stays w_ z
    (State.courseLevels s) := by
  unfold State.courseLevels
  repeat' (first
    | with_reducible assumption
    | with_reducible exact Has.sub hw (by decide)
    | with_reducible exact Has.mem hw (by decide)
    | intro _
    | with_reducible apply Stays.foldl
    | with_reducible apply PStays.foldl
    | with_reducible apply QStays.foldl
    | (extract_lets)
    | split
    | with_reducible apply Stays.set_rte)

theorem State.sendCongRows_stays {w_ : List Part} {z s : State} (hw : Has [.rte, .sch] w_) (hk : Stays w_ z s) : Stays w_ z
    (State.sendCongRows s) := by
  unfold State.sendCongRows
  repeat' (first
    | with_reducible assumption
    | with_reducible exact Has.sub hw (by decide)
    | with_reducible exact Has.mem hw (by decide)
    | intro _
    | with_reducible apply Stays.foldl
    | with_reducible apply PStays.foldl
    | with_reducible apply QStays.foldl
    | with_reducible apply State.hubTo_stays
    | (extract_lets)
    | split)

theorem State.sendCongCols_stays {w_ : List Part} {z s : State} (late : Bool) (hw : Has [.rte, .sch] w_) (hk : Stays w_ z s) :
    Stays w_ z (State.sendCongCols s late) := by
  unfold State.sendCongCols
  repeat' (first
    | with_reducible assumption
    | with_reducible exact Has.sub hw (by decide)
    | with_reducible exact Has.mem hw (by decide)
    | intro _
    | with_reducible apply Stays.foldl
    | with_reducible apply PStays.foldl
    | with_reducible apply QStays.foldl
    | with_reducible apply State.hubTo_stays
    | (extract_lets)
    | split)

theorem execCongColTx_stays {w_ : List Part} {z s : State} (hw : Has [.rte, .sch] w_) (hk : Stays w_ z s) : OutStays w_ z
    (execCongColTx s) := by
  unfold execCongColTx
  repeat' (first
    | with_reducible assumption
    | with_reducible exact Has.sub hw (by decide)
    | with_reducible exact Has.mem hw (by decide)
    | intro _
    | with_reducible apply OutStays.ite
    | with_reducible apply Stays.ite
    | with_reducible apply OutStays.next
    | with_reducible apply State.sendCongCols_stays
    | (extract_lets)
    | split
    | with_reducible apply Stays.set_rte)

theorem State.installMap_stays {w_ : List Part} {z s : State} (own : Nat) (hw : Has [.glb, .ctrs, .srcs, .banks, .rte, .hif, .out,
    .free] w_) (hk : Stays w_ z s) : Stays w_ z (State.installMap s own) := by
  unfold State.installMap
  repeat' (first
    | with_reducible assumption
    | with_reducible exact Has.sub hw (by decide)
    | with_reducible exact Has.mem hw (by decide)
    | intro _
    | with_reducible apply Stays.ite
    | with_reducible apply Stays.foldl
    | with_reducible apply PStays.foldl
    | with_reducible apply QStays.foldl
    | with_reducible apply PStays.fst
    | with_reducible apply QStays.snd
    | with_reducible apply State.draw_staysQ
    | with_reducible apply State.bumpBy_stays
    | with_reducible apply State.raise_stays
    | (extract_lets)
    | split
    | with_reducible apply PStays.pair
    | with_reducible apply QStays.pair
    | (with_reducible refine PStays.eq (by assumption) ?_)
    | (with_reducible refine QStays.eq (by assumption) ?_)
    | with_reducible apply Stays.set_rte)

theorem State.routeEnterTransit_stays {w_ : List Part} {z s : State} (hw : Has [.rte] w_) (hk : Stays w_ z s) : Stays w_ z
    (State.routeEnterTransit s) := by
  unfold State.routeEnterTransit
  repeat' (first
    | with_reducible assumption
    | with_reducible exact Has.sub hw (by decide)
    | with_reducible exact Has.mem hw (by decide)
    | intro _
    | (extract_lets)
    | split
    | with_reducible apply Stays.set_rte)

theorem State.countRuns_stays {w_ : List Part} {z s : State} (hw : Has [.rte] w_) (hk : Stays w_ z s) : Stays w_ z
    (State.countRuns s) := by
  unfold State.countRuns
  repeat' (first
    | with_reducible assumption
    | with_reducible exact Has.sub hw (by decide)
    | with_reducible exact Has.mem hw (by decide)
    | intro _
    | with_reducible apply Stays.ite
    | with_reducible apply Stays.foldl
    | with_reducible apply PStays.foldl
    | with_reducible apply QStays.foldl
    | (extract_lets)
    | split
    | with_reducible apply Stays.set_rte)

theorem State.reevaluate_stays {w_ : List Part} {z s : State} (port : Nat) (hw : Has [.glb, .ctrs, .srcs, .banks, .lnk, .rte,
    .sch, .hif, .out, .free] w_) (hk : Stays w_ z s) : Stays w_ z (State.reevaluate s port) := by
  unfold State.reevaluate
  repeat' (first
    | with_reducible assumption
    | with_reducible exact Has.sub hw (by decide)
    | with_reducible exact Has.mem hw (by decide)
    | intro _
    | with_reducible apply Stays.ite
    | with_reducible apply Stays.foldl
    | with_reducible apply PStays.foldl
    | with_reducible apply QStays.foldl
    | with_reducible apply PStays.fst
    | with_reducible apply QStays.snd
    | with_reducible apply State.draw_staysQ
    | with_reducible apply State.lifeDrop_stays
    | with_reducible apply State.routeEndpoint_stays
    | (extract_lets)
    | split
    | with_reducible apply PStays.pair
    | with_reducible apply QStays.pair
    | (with_reducible refine PStays.eq (by assumption) ?_)
    | (with_reducible refine QStays.eq (by assumption) ?_))

theorem execPortDead_stays {w_ : List Part} {z s : State} (p : Nat) (hw : Has [.glb, .ctrs, .srcs, .banks, .lnk, .rte, .sch, .hif,
    .out, .free] w_) (hk : Stays w_ z s) : OutStays w_ z (execPortDead p s) := by
  unfold execPortDead
  repeat' (first
    | with_reducible assumption
    | with_reducible exact Has.sub hw (by decide)
    | with_reducible exact Has.mem hw (by decide)
    | intro _
    | with_reducible apply OutStays.ite
    | with_reducible apply Stays.ite
    | with_reducible apply OutStays.next
    | with_reducible apply State.reevaluate_stays
    | (extract_lets)
    | split
    | with_reducible apply Stays.set_rte)

theorem execPortRevive_stays {w_ : List Part} {z s : State} (p : Nat) (hw : Has [.rte] w_) (hk : Stays w_ z s) : OutStays w_ z
    (execPortRevive p s) := by
  unfold execPortRevive
  repeat' (first
    | with_reducible assumption
    | with_reducible exact Has.sub hw (by decide)
    | with_reducible exact Has.mem hw (by decide)
    | intro _
    | with_reducible apply OutStays.ite
    | with_reducible apply Stays.ite
    | with_reducible apply OutStays.next
    | (extract_lets)
    | split
    | with_reducible apply Stays.set_rte)

theorem State.roleCheck_stays {w_ : List Part} {z s : State} (set : Nat) (before : List (Nat × Nat × Nat)) (hw : Has [.glb, .regs,
    .ctrs, .srcs, .banks, .hif, .out] w_) (hk : Stays w_ z s) : Stays w_ z (State.roleCheck s set before) := by
  unfold State.roleCheck
  repeat' (first
    | with_reducible assumption
    | with_reducible exact Has.sub hw (by decide)
    | with_reducible exact Has.mem hw (by decide)
    | intro _
    | with_reducible apply State.put_stays
    | with_reducible apply State.raise_stays
    | (extract_lets)
    | split)

theorem State.lifeWrite_stays {w_ : List Part} {z s : State} (v : Nat) (hw : Has [.glb, .regs, .ctrs, .srcs, .banks, .hif, .out]
    w_) (hk : Stays w_ z s) : Stays w_ z (State.lifeWrite s v) := by
  unfold State.lifeWrite
  repeat' (first
    | with_reducible assumption
    | with_reducible exact Has.sub hw (by decide)
    | with_reducible exact Has.mem hw (by decide)
    | intro _
    | with_reducible apply Stays.ite
    | with_reducible apply State.badAccess_stays
    | with_reducible apply State.put_stays
    | (extract_lets)
    | split)

end Sys2Proof.Machine
end

