-- ==== Sys2Proof/Laws/StaysXlt.lean ====
section
/-! SUPPORT. Laws/Stays.lean, for the operations of Machine/Xlt.lean. -/
namespace Sys2Proof.Machine

theorem State.wcFill_stays {w_ : List Part} {z s : State} (u : Nat) (es : List WcEnt) (hw : Has [.bst, .xlt, .free] w_) (hk :
    Stays w_ z s) : Stays w_ z (State.wcFill s u es) := by
  unfold State.wcFill
  repeat' (first
    | with_reducible assumption
    | with_reducible exact Has.sub hw (by decide)
    | with_reducible exact Has.mem hw (by decide)
    | intro _
    | with_reducible apply Stays.ite
    | with_reducible apply Stays.foldl
    | with_reducible apply PStays.foldl
    | with_reducible apply QStays.foldl
    | with_reducible apply PStays.fst
    | with_reducible apply QStays.snd
    | with_reducible apply State.draw_staysQ
    | with_reducible apply State.draw_stays
    | with_reducible apply State.fillBank_stays
    | with_reducible apply State.setXu_stays
    | (extract_lets)
    | split
    | with_reducible apply PStays.pair
    | with_reducible apply QStays.pair
    | (with_reducible refine PStays.eq (by assumption) ?_)
    | (with_reducible refine QStays.eq (by assumption) ?_))

theorem State.tlbFill_stays {w_ : List Part} {z s : State} (u : Nat) (r : XReq) (e : TlbEnt) (hw : Has [.glb, .regs, .ctrs, .srcs,
    .banks, .lnk, .hif, .bst, .xlt, .out, .free] w_) (hk : Stays w_ z s) : PStays w_ z (State.tlbFill s u r e) := by
  unfold State.tlbFill
  repeat' (first
    | with_reducible assumption
    | with_reducible exact Has.sub hw (by decide)
    | with_reducible exact Has.mem hw (by decide)
    | intro _
    | with_reducible apply PStays.ite
    | with_reducible apply Stays.ite
    | with_reducible apply PStays.fst
    | with_reducible apply QStays.snd
    | with_reducible apply State.draw_staysQ
    | with_reducible apply State.draw_stays
    | with_reducible apply State.fillBank_stays
    | with_reducible apply State.setXu_stays
    | with_reducible apply State.tableWrite_stays
    | (extract_lets)
    | split
    | with_reducible apply PStays.pair
    | with_reducible apply QStays.pair
    | (with_reducible refine PStays.eq (by assumption) ?_)
    | (with_reducible refine QStays.eq (by assumption) ?_))

theorem State.logFault_stays {w_ : List Part} {z s : State} (u : Nat) (r : XReq) (priv : Bool) (f : XFault) (forced : Bool) (hw :
    Has [.glb, .ctrs, .srcs, .banks, .hif, .xlt, .out] w_) (hk : Stays w_ z s) : Stays w_ z (State.logFault s u r priv f forced)
    := by
  unfold State.logFault
  repeat' (first
    | with_reducible assumption
    | with_reducible exact Has.sub hw (by decide)
    | with_reducible exact Has.mem hw (by decide)
    | intro _
    | with_reducible apply Stays.ite
    | with_reducible apply State.bump_stays
    | with_reducible apply State.bumpIf_stays
    | with_reducible apply State.level_stays
    | with_reducible apply State.raise_stays
    | with_reducible apply State.setXu_stays
    | (extract_lets)
    | split)

theorem State.miss_stays {w_ : List Part} {z s : State} (u : Nat) (r : XReq) (hw : Has [.xlt] w_) (hk : Stays w_ z s) : Stays w_ z
    (State.miss s u r) := by
  unfold State.miss
  repeat' (first
    | with_reducible assumption
    | with_reducible exact Has.sub hw (by decide)
    | with_reducible exact Has.mem hw (by decide)
    | intro _
    | with_reducible apply Stays.ite
    | with_reducible apply State.setXu_stays
    | (extract_lets)
    | split)

theorem State.takeEnd_stays {w_ : List Part} {z s : State} (u : Nat) (r : XReq) (hw : Has [.xlt] w_) (hk : Stays w_ z s) : Stays
    w_ z (State.takeEnd s u r) := by
  unfold State.takeEnd
  repeat' (first
    | with_reducible assumption
    | with_reducible exact Has.sub hw (by decide)
    | with_reducible exact Has.mem hw (by decide)
    | intro _
    | with_reducible apply State.setXu_stays
    | (extract_lets)
    | split)

theorem State.ask_stays {w_ : List Part} {z s : State} (u : Nat) (r : XReq) (hit : Bool) (hw : Has [.ctrs, .xlt] w_) (hk : Stays
    w_ z s) : Stays w_ z (State.ask s u r hit) := by
  unfold State.ask
  repeat' (first
    | with_reducible assumption
    | with_reducible exact Has.sub hw (by decide)
    | with_reducible exact Has.mem hw (by decide)
    | intro _
    | with_reducible apply Stays.ite
    | with_reducible apply State.bumpIf_stays
    | with_reducible apply State.setXu_stays
    | (extract_lets)
    | split)

theorem State.askedAll_stays {w_ : List Part} {z s : State} (u : Nat) (who : Who) (hw : Has [.xlt] w_) (hk : Stays w_ z s) : Stays
    w_ z (State.askedAll s u who) := by
  unfold State.askedAll
  repeat' (first
    | with_reducible assumption
    | with_reducible exact Has.sub hw (by decide)
    | with_reducible exact Has.mem hw (by decide)
    | intro _
    | with_reducible apply State.setXu_stays
    | (extract_lets)
    | split)

theorem State.lookup_stays {w_ : List Part} {z s : State} (u : Nat) (r : XReq) (hw : Has [.ctrs, .xlt] w_) (hk : Stays w_ z s) :
    PStays w_ z (State.lookup s u r) := by
  unfold State.lookup
  repeat' (first
    | with_reducible assumption
    | with_reducible exact Has.sub hw (by decide)
    | with_reducible exact Has.mem hw (by decide)
    | intro _
    | with_reducible apply PStays.ite
    | with_reducible apply Stays.ite
    | with_reducible apply PStays.fst
    | with_reducible apply State.ask_stays
    | with_reducible apply State.bump_stays
    | with_reducible apply State.miss_stays
    | with_reducible apply State.setXu_stays
    | with_reducible apply State.takeEnd_stays
    | (extract_lets)
    | split
    | with_reducible apply PStays.pair
    | (with_reducible refine PStays.eq (by assumption) ?_))

theorem State.xlate_stays {w_ : List Part} {z s : State} (u : Nat) (r : XReq) (hw : Has [.ctrs, .xlt] w_) (hk : Stays w_ z s) :
    PStays w_ z (State.xlate s u r) := by
  unfold State.xlate
  repeat' (first
    | with_reducible assumption
    | with_reducible exact Has.sub hw (by decide)
    | with_reducible exact Has.mem hw (by decide)
    | intro _
    | with_reducible apply PStays.fst
    | with_reducible apply State.askedAll_stays
    | with_reducible apply State.lookup_stays
    | (extract_lets)
    | split
    | with_reducible apply PStays.pair
    | (with_reducible refine PStays.eq (by assumption) ?_))

theorem State.xlateRun_stays {w_ : List Part} {z s : State} (u : Nat) (r : XReq) (len : Nat) (hw : Has [.ctrs, .xlt, .free] w_)
    (hk : Stays w_ z s) : PStays w_ z (State.xlateRun s u r len) := by
  unfold State.xlateRun
  repeat' (first
    | with_reducible assumption
    | with_reducible exact Has.sub hw (by decide)
    | with_reducible exact Has.mem hw (by decide)
    | intro _
    | with_reducible apply Stays.foldl
    | with_reducible apply PStays.foldl
    | with_reducible apply QStays.foldl
    | with_reducible apply PStays.fst
    | with_reducible apply QStays.snd
    | with_reducible apply State.draw_staysQ
    | with_reducible apply State.askedAll_stays
    | with_reducible apply State.lookup_stays
    | (extract_lets)
    | split
    | with_reducible apply PStays.pair
    | with_reducible apply QStays.pair
    | (with_reducible refine PStays.eq (by assumption) ?_)
    | (with_reducible refine QStays.eq (by assumption) ?_))

theorem State.writePieces_stays {w_ : List Part} {z s : State} (hp rid : Nat) (l : List (Nat × Nat)) (d : Data) (hw : Has [.out,
    .free] w_) (hk : Stays w_ z s) : Stays w_ z (State.writePieces s hp rid l d) := by
  unfold State.writePieces
  repeat' (first
    | with_reducible assumption
    | with_reducible exact Has.sub hw (by decide)
    | with_reducible exact Has.mem hw (by decide)
    | intro _
    | with_reducible apply Stays.foldl
    | with_reducible apply PStays.foldl
    | with_reducible apply QStays.foldl
    | with_reducible apply PStays.fst
    | with_reducible apply QStays.snd
    | with_reducible apply State.draw_staysQ
    | with_reducible apply State.hostWrite_stays
    | (extract_lets)
    | split
    | with_reducible apply PStays.pair
    | with_reducible apply QStays.pair
    | (with_reducible refine PStays.eq (by assumption) ?_)
    | (with_reducible refine QStays.eq (by assumption) ?_))

theorem State.readRun_stays {w_ : List Part} {z s : State} (hp rid : Nat) (l : List (Nat × Nat)) (hw : Has [.out, .free] w_) (hk :
    Stays w_ z s) : Stays w_ z (State.readRun s hp rid l) := by
  unfold State.readRun
  repeat' (first
    | with_reducible assumption
    | with_reducible exact Has.sub hw (by decide)
    | with_reducible exact Has.mem hw (by decide)
    | intro _
    | with_reducible apply Stays.foldl
    | with_reducible apply PStays.foldl
    | with_reducible apply QStays.foldl
    | with_reducible apply PStays.fst
    | with_reducible apply QStays.snd
    | with_reducible apply State.draw_staysQ
    | with_reducible apply State.hostRead_stays
    | (extract_lets)
    | split
    | with_reducible apply PStays.pair
    | with_reducible apply QStays.pair
    | (with_reducible refine PStays.eq (by assumption) ?_)
    | (with_reducible refine QStays.eq (by assumption) ?_))

theorem State.walkEnd_stays {w_ : List Part} {z s : State} (u i : Nat) (hw : Has [.xlt] w_) (hk : Stays w_ z s) : Stays w_ z
    (State.walkEnd s u i) := by
  unfold State.walkEnd
  repeat' (first
    | with_reducible assumption
    | with_reducible exact Has.sub hw (by decide)
    | with_reducible exact Has.mem hw (by decide)
    | intro _
    | with_reducible apply State.setXu_stays
    | (extract_lets)
    | split)

theorem State.dropWho_stays {w_ : List Part} {z s : State} (live : Who → Bool) (u : Nat) (hw : Has [.xlt] w_) (hk : Stays w_ z s)
    : Stays w_ z (State.dropWho s live u) := by
  unfold State.dropWho
  repeat' (first
    | with_reducible assumption
    | with_reducible exact Has.sub hw (by decide)
    | with_reducible exact Has.mem hw (by decide)
    | intro _
    | with_reducible apply Stays.ite
    | with_reducible apply State.setXu_stays
    | (extract_lets)
    | split)

theorem State.settleXlt_stays {w_ : List Part} {z s : State} (hw : Has [.xlt] w_) (hk : Stays w_ z s) : Stays w_ z
    (State.settleXlt s) := by
  unfold State.settleXlt
  repeat' (first
    | with_reducible assumption
    | with_reducible exact Has.sub hw (by decide)
    | with_reducible exact Has.mem hw (by decide)
    | intro _
    | with_reducible apply Stays.foldl
    | with_reducible apply PStays.foldl
    | with_reducible apply QStays.foldl
    | with_reducible apply State.dropWho_stays
    | (extract_lets)
    | split)

theorem State.dropCore_stays {w_ : List Part} {z s : State} (c : Nat) (hw : Has [.xlt] w_) (hk : Stays w_ z s) : Stays w_ z
    (State.dropCore s c) := by
  unfold State.dropCore
  repeat' (first
    | with_reducible assumption
    | with_reducible exact Has.sub hw (by decide)
    | with_reducible exact Has.mem hw (by decide)
    | intro _
    | with_reducible apply Stays.foldl
    | with_reducible apply PStays.foldl
    | with_reducible apply QStays.foldl
    | with_reducible apply State.dropWho_stays
    | (extract_lets)
    | split)

theorem State.walkFault_stays {w_ : List Part} {z s : State} (u i : Nat) (r : XReq) (priv : Bool) (f : XFault) (forced : Bool) (hw
    : Has [.glb, .ctrs, .srcs, .banks, .hif, .xlt, .out] w_) (hk : Stays w_ z s) : Stays w_ z (State.walkFault s u i r priv f
    forced) := by
  unfold State.walkFault
  repeat' (first
    | with_reducible assumption
    | with_reducible exact Has.sub hw (by decide)
    | with_reducible exact Has.mem hw (by decide)
    | intro _
    | with_reducible apply Stays.ite
    | with_reducible apply State.logFault_stays
    | with_reducible apply State.setXu_stays
    | with_reducible apply State.walkEnd_stays
    | (extract_lets)
    | split)

theorem State.walkFill_stays {w_ : List Part} {z s : State} (u i : Nat) (r : XReq) (e : TlbEnt) (hw : Has [.glb, .regs, .ctrs,
    .srcs, .banks, .lnk, .hif, .bst, .xlt, .out, .free] w_) (hk : Stays w_ z s) : Stays w_ z (State.walkFill s u i r e) := by
  unfold State.walkFill
  repeat' (first
    | with_reducible assumption
    | with_reducible exact Has.sub hw (by decide)
    | with_reducible exact Has.mem hw (by decide)
    | intro _
    | with_reducible apply Stays.ite
    | with_reducible apply PStays.fst
    | with_reducible apply State.setXu_stays
    | with_reducible apply State.tlbFill_stays
    | with_reducible apply State.walkEnd_stays
    | (extract_lets)
    | split
    | with_reducible apply PStays.pair
    | (with_reducible refine PStays.eq (by assumption) ?_))

theorem State.walkBad_stays {w_ : List Part} {z s : State} (u i cause : Nat) (forced : Bool) (hw : Has [.glb, .ctrs, .srcs,
    .banks, .hif, .xlt, .out] w_) (hk : Stays w_ z s) : Stays w_ z (State.walkBad s u i cause forced) := by
  unfold State.walkBad
  repeat' (first
    | with_reducible assumption
    | with_reducible exact Has.sub hw (by decide)
    | with_reducible exact Has.mem hw (by decide)
    | intro _
    | with_reducible apply State.walkFault_stays
    | (extract_lets)
    | split)

theorem State.walkOn_stays {w_ : List Part} {z s : State} (u i : Nat) (hw : Has [.glb, .regs, .ctrs, .srcs, .banks, .lnk, .hif,
    .bst, .xlt, .out, .free] w_) (hk : Stays w_ z s) : Stays w_ z (State.walkOn s u i) := by
  unfold State.walkOn
  extract_lets x
  split
  · exact hk
  · next w _ =>
    extract_lets ask
    have ha : ∀ a b c d e f g, Stays w_ z (ask a b c d e f g) := by
      intro a b c d e f g
      exact State.hostRead_stays _ _ _ _ (hw.sub (by decide)) (State.bump_stays _ (hw.sub (by decide)) (State.setXu_stays _ _ (hw.sub (by decide)) hk))
    clear_value ask
    split
    · split
      · exact State.setXu_stays _ _ (hw.sub (by decide)) (State.walkEnd_stays _ _ (hw.sub (by decide)) (State.wcFill_stays _ _ (hw.sub (by decide)) hk))
      · exact State.walkFault_stays _ _ _ _ _ _ (hw.sub (by decide)) (State.wcFill_stays _ _ (hw.sub (by decide)) hk)
      · exact ha _ _ _ _ _ _ _
    · split
      · exact State.walkFill_stays _ _ _ _ (hw.sub (by decide)) (State.wcFill_stays _ _ (hw.sub (by decide)) hk)
      · exact State.walkFault_stays _ _ _ _ _ _ (hw.sub (by decide)) (State.wcFill_stays _ _ (hw.sub (by decide)) hk)
      · exact ha _ _ _ _ _ _ _

theorem execPageWalk_stays {w_ : List Part} {z s : State} (u : Nat) (hw : Has [.glb, .regs, .ctrs, .srcs, .banks, .lnk, .hif,
    .bst, .xlt, .out, .free] w_) (hk : Stays w_ z s) : OutStays w_ z (execPageWalk u s) := by
  unfold execPageWalk
  repeat' (first
    | with_reducible assumption
    | with_reducible exact Has.sub hw (by decide)
    | with_reducible exact Has.mem hw (by decide)
    | intro _
    | with_reducible apply OutStays.ite
    | with_reducible apply Stays.ite
    | with_reducible apply OutStays.next
    | with_reducible apply State.bump_stays
    | with_reducible apply State.setXu_stays
    | with_reducible apply State.walkOn_stays
    | (extract_lets)
    | split)

theorem execWalkReadReturn_stays {w_ : List Part} {z s : State} (u i : Nat) (r : ReadResult) (hw : Has [.glb, .regs, .ctrs, .srcs,
    .banks, .lnk, .hif, .bst, .xlt, .out, .free] w_) (hk : Stays w_ z s) : OutStays w_ z (execWalkReadReturn u i r s) := by
  unfold execWalkReadReturn
  repeat' (first
    | with_reducible assumption
    | with_reducible exact Has.sub hw (by decide)
    | with_reducible exact Has.mem hw (by decide)
    | intro _
    | with_reducible apply OutStays.next
    | with_reducible apply State.setXu_stays
    | with_reducible apply State.walkBad_stays
    | with_reducible apply State.walkOn_stays
    | (extract_lets)
    | split)

theorem execTlbAgeExpiry_stays {w_ : List Part} {z s : State} (u : Nat) (hw : Has [.ctrs, .xlt] w_) (hk : Stays w_ z s) : OutStays
    w_ z (execTlbAgeExpiry u s) := by
  unfold execTlbAgeExpiry
  repeat' (first
    | with_reducible assumption
    | with_reducible exact Has.sub hw (by decide)
    | with_reducible exact Has.mem hw (by decide)
    | intro _
    | with_reducible apply OutStays.ite
    | with_reducible apply Stays.ite
    | with_reducible apply OutStays.next
    | with_reducible apply State.bumpBy_stays
    | with_reducible apply State.setXu_stays
    | (extract_lets)
    | split)

theorem State.invalidate_stays {w_ : List Part} {z s : State} (u : Nat) (tlb : TlbEnt → Bool) (wc : WcEnt → Bool) (walk : Walk →
    Bool) (hw : Has [.glb, .regs, .ctrs, .srcs, .banks, .lnk, .hif, .bst, .xlt, .out, .free] w_) (hk : Stays w_ z s) : PStays w_ z
    (State.invalidate s u tlb wc walk) := by
  unfold State.invalidate
  repeat' (first
    | with_reducible assumption
    | with_reducible exact Has.sub hw (by decide)
    | with_reducible exact Has.mem hw (by decide)
    | intro _
    | with_reducible apply PStays.ite
    | with_reducible apply Stays.ite
    | with_reducible apply Stays.foldl
    | with_reducible apply PStays.foldl
    | with_reducible apply QStays.foldl
    | with_reducible apply PStays.fst
    | with_reducible apply QStays.snd
    | with_reducible apply State.draw_staysQ
    | with_reducible apply State.bumpBy_stays
    | with_reducible apply State.setXu_stays
    | with_reducible apply State.walkOn_stays
    | (extract_lets)
    | split
    | with_reducible apply PStays.pair
    | with_reducible apply QStays.pair
    | (with_reducible refine PStays.eq (by assumption) ?_)
    | (with_reducible refine QStays.eq (by assumption) ?_))

theorem State.invalidateFn_stays {w_ : List Part} {z s : State} (u f : Nat) (hw : Has [.glb, .regs, .ctrs, .srcs, .banks, .lnk,
    .hif, .bst, .xlt, .out, .free] w_) (hk : Stays w_ z s) : PStays w_ z (State.invalidateFn s u f) := by
  unfold State.invalidateFn
  repeat' (first
    | with_reducible assumption
    | with_reducible exact Has.sub hw (by decide)
    | with_reducible exact Has.mem hw (by decide)
    | intro _
    | with_reducible apply PStays.fst
    | with_reducible apply State.invalidate_stays
    | (extract_lets)
    | split
    | with_reducible apply PStays.pair
    | (with_reducible refine PStays.eq (by assumption) ?_))

theorem State.dropReqs_stays {w_ : List Part} {z s : State} (u f : Nat) (hw : Has [.xlt] w_) (hk : Stays w_ z s) : Stays w_ z
    (State.dropReqs s u f) := by
  unfold State.dropReqs
  repeat' (first
    | with_reducible assumption
    | with_reducible exact Has.sub hw (by decide)
    | with_reducible exact Has.mem hw (by decide)
    | intro _
    | with_reducible apply State.setXu_stays
    | (extract_lets)
    | split)

theorem State.emptyUnit_stays {w_ : List Part} {z s : State} (u : Nat) (hw : Has [.xlt] w_) (hk : Stays w_ z s) : Stays w_ z
    (State.emptyUnit s u) := by
  unfold State.emptyUnit
  repeat' (first
    | with_reducible assumption
    | with_reducible exact Has.sub hw (by decide)
    | with_reducible exact Has.mem hw (by decide)
    | intro _
    | with_reducible apply State.setXu_stays
    | (extract_lets)
    | split)

theorem State.malformed_stays {w_ : List Part} {z s : State} (q : Nat) (e : Ent) (detail : Nat) (hw : Has [.ctrs, .hif] w_) (hk :
    Stays w_ z s) : Stays w_ z (State.malformed s q e detail) := by
  unfold State.malformed
  repeat' (first
    | with_reducible assumption
    | with_reducible exact Has.sub hw (by decide)
    | with_reducible exact Has.mem hw (by decide)
    | intro _
    | with_reducible apply State.bump_stays
    | with_reducible apply State.finishEntry_stays
    | (extract_lets)
    | split)

theorem State.ownsAs_stays {w_ : List Part} {z s : State} (u : Nat) (r : XReq) (hw : Has [.glb, .ctrs, .srcs, .banks, .hif, .xlt,
    .out] w_) (hk : Stays w_ z s) : PStays w_ z (State.ownsAs s u r) := by
  unfold State.ownsAs
  repeat' (first
    | with_reducible assumption
    | with_reducible exact Has.sub hw (by decide)
    | with_reducible exact Has.mem hw (by decide)
    | intro _
    | with_reducible apply PStays.ite
    | with_reducible apply Stays.ite
    | with_reducible apply PStays.fst
    | with_reducible apply State.logFault_stays
    | with_reducible apply State.miss_stays
    | with_reducible apply State.takeEnd_stays
    | (extract_lets)
    | split
    | with_reducible apply PStays.pair
    | (with_reducible refine PStays.eq (by assumption) ?_))

theorem State.invRun_stays {w_ : List Part} {z s : State} (q : Nat) (e : Ent) (u removed : Nat) (out : Bool) (hw : Has [.hif] w_)
    (hk : Stays w_ z s) : Stays w_ z (State.invRun s q e u removed out) := by
  unfold State.invRun
  repeat' (first
    | with_reducible assumption
    | with_reducible exact Has.sub hw (by decide)
    | with_reducible exact Has.mem hw (by decide)
    | intro _
    | with_reducible apply State.runEntry_stays
    | (extract_lets)
    | split)

theorem State.startInv_stays {w_ : List Part} {z s : State} (q op : Nat) (act : State → Nat → State × Nat) (h_act : ∀ u0 u1, Stays
    w_ z u0 → PStays w_ z (act u0 u1)) (hw : Has [.glb, .ctrs, .srcs, .banks, .hif, .xlt, .out] w_) (hk : Stays w_ z s) : Stays w_
    z (State.startInv s q op act) := by
  unfold State.startInv
  repeat' (first
    | with_reducible assumption
    | with_reducible exact Has.sub hw (by decide)
    | with_reducible exact Has.mem hw (by decide)
    | intro _
    | with_reducible apply Stays.ite
    | with_reducible apply PStays.fst
    | with_reducible apply State.finishEntry_stays
    | with_reducible apply State.invRun_stays
    | with_reducible apply State.malformed_stays
    | with_reducible apply State.ownsAs_stays
    | with_reducible apply h_act
    | (extract_lets)
    | split
    | with_reducible apply PStays.pair
    | (with_reducible refine PStays.eq (by assumption) ?_))

theorem execXltInvAddw_stays {w_ : List Part} {z s : State} (q : Nat) (hw : Has [.glb, .regs, .ctrs, .srcs, .banks, .lnk, .hif,
    .bst, .xlt, .out, .free] w_) (hk : Stays w_ z s) : OutStays w_ z (execXltInvAddr q s) := by
  unfold execXltInvAddr
  repeat' (first
    | with_reducible assumption
    | with_reducible exact Has.sub hw (by decide)
    | with_reducible exact Has.mem hw (by decide)
    | intro _
    | with_reducible apply PStays.fst
    | with_reducible apply OutStays.next
    | with_reducible apply State.invalidate_stays
    | with_reducible apply State.startInv_stays
    | (extract_lets)
    | split
    | with_reducible apply PStays.pair
    | (with_reducible refine PStays.eq (by assumption) ?_))

theorem execXltInvAs_stays {w_ : List Part} {z s : State} (q : Nat) (hw : Has [.glb, .regs, .ctrs, .srcs, .banks, .lnk, .hif,
    .bst, .xlt, .out, .free] w_) (hk : Stays w_ z s) : OutStays w_ z (execXltInvAs q s) := by
  unfold execXltInvAs
  repeat' (first
    | with_reducible assumption
    | with_reducible exact Has.sub hw (by decide)
    | with_reducible exact Has.mem hw (by decide)
    | intro _
    | with_reducible apply PStays.fst
    | with_reducible apply OutStays.next
    | with_reducible apply State.invalidate_stays
    | with_reducible apply State.startInv_stays
    | (extract_lets)
    | split
    | with_reducible apply PStays.pair
    | (with_reducible refine PStays.eq (by assumption) ?_))

theorem execXltInvFn_stays {w_ : List Part} {z s : State} (q : Nat) (hw : Has [.glb, .regs, .ctrs, .srcs, .banks, .lnk, .hif,
    .bst, .xlt, .out, .free] w_) (hk : Stays w_ z s) : OutStays w_ z (execXltInvFn q s) := by
  unfold execXltInvFn
  repeat' (first
    | with_reducible assumption
    | with_reducible exact Has.sub hw (by decide)
    | with_reducible exact Has.mem hw (by decide)
    | intro _
    | with_reducible apply PStays.fst
    | with_reducible apply OutStays.next
    | with_reducible apply State.invalidateFn_stays
    | with_reducible apply State.startInv_stays
    | (extract_lets)
    | split
    | with_reducible apply PStays.pair
    | (with_reducible refine PStays.eq (by assumption) ?_))

theorem execXltInvAll_stays {w_ : List Part} {z s : State} (q : Nat) (hw : Has [.glb, .regs, .ctrs, .srcs, .banks, .lnk, .hif,
    .bst, .xlt, .out, .free] w_) (hk : Stays w_ z s) : OutStays w_ z (execXltInvAll q s) := by
  unfold execXltInvAll
  repeat' (first
    | with_reducible assumption
    | with_reducible exact Has.sub hw (by decide)
    | with_reducible exact Has.mem hw (by decide)
    | intro _
    | with_reducible apply PStays.fst
    | with_reducible apply OutStays.next
    | with_reducible apply State.invalidate_stays
    | with_reducible apply State.startInv_stays
    | (extract_lets)
    | split
    | with_reducible apply PStays.pair
    | (with_reducible refine PStays.eq (by assumption) ?_))

theorem execXltInvComplete_stays {w_ : List Part} {z s : State} (q : Nat) (hw : Has [.hif, .out] w_) (hk : Stays w_ z s) :
    OutStays w_ z (execXltInvComplete q s) := by
  unfold execXltInvComplete
  repeat' (first
    | with_reducible assumption
    | with_reducible exact Has.sub hw (by decide)
    | with_reducible exact Has.mem hw (by decide)
    | intro _
    | with_reducible apply OutStays.ite
    | with_reducible apply Stays.ite
    | with_reducible apply OutStays.next
    | with_reducible apply State.finishEntry_stays
    | with_reducible apply State.hostRead_stays
    | with_reducible apply State.invRun_stays
    | (extract_lets)
    | split)

theorem State.lockPage_stays {w_ : List Part} {z s : State} (u : Nat) (r : XReq) (hw : Has [.glb, .regs, .ctrs, .srcs, .banks,
    .lnk, .hif, .bst, .xlt, .out] w_) (hk : Stays w_ z s) : PStays w_ z (State.lockPage s u r) := by
  unfold State.lockPage
  repeat' (first
    | with_reducible assumption
    | with_reducible exact Has.sub hw (by decide)
    | with_reducible exact Has.mem hw (by decide)
    | intro _
    | with_reducible apply PStays.ite
    | with_reducible apply Stays.ite
    | with_reducible apply PStays.fst
    | with_reducible apply State.miss_stays
    | with_reducible apply State.setXu_stays
    | with_reducible apply State.tableWrite_stays
    | with_reducible apply State.takeEnd_stays
    | (extract_lets)
    | split
    | with_reducible apply PStays.pair
    | (with_reducible refine PStays.eq (by assumption) ?_))

theorem State.lockPages_stays {w_ : List Part} {z s : State} (q : Nat) (e : Ent) (u : Nat) (f : Nat) (k i n : Nat) (hw : Has
    [.glb, .regs, .ctrs, .srcs, .banks, .lnk, .hif, .bst, .xlt, .out] w_) (hk : Stays w_ z s) : Stays w_ z (State.lockPages s q e
    u f k i n) := by
  induction k generalizing s i n with
  | zero =>
    unfold State.lockPages
    repeat' (first
      | with_reducible assumption
      | with_reducible exact Has.sub hw (by decide)
      | with_reducible exact Has.mem hw (by decide)
      | with_reducible apply ih
      | intro _
      | with_reducible apply PStays.fst
      | with_reducible apply State.finishEntry_stays
      | with_reducible apply State.lockPage_stays
      | with_reducible apply State.runEntry_stays
      | (extract_lets)
      | split
      | with_reducible apply PStays.pair
      | (with_reducible refine PStays.eq (by assumption) ?_))
  | succ k ih =>
    unfold State.lockPages
    repeat' (first
      | with_reducible assumption
      | with_reducible exact Has.sub hw (by decide)
      | with_reducible exact Has.mem hw (by decide)
      | with_reducible apply ih
      | intro _
      | with_reducible apply PStays.fst
      | with_reducible apply State.finishEntry_stays
      | with_reducible apply State.lockPage_stays
      | with_reducible apply State.runEntry_stays
      | (extract_lets)
      | split
      | with_reducible apply PStays.pair
      | (with_reducible refine PStays.eq (by assumption) ?_))

theorem execXltLock_stays {w_ : List Part} {z s : State} (q : Nat) (hw : Has [.glb, .regs, .ctrs, .srcs, .banks, .lnk, .hif, .bst,
    .xlt, .out] w_) (hk : Stays w_ z s) : OutStays w_ z (execXltLock q s) := by
  unfold execXltLock
  repeat' (first
    | with_reducible assumption
    | with_reducible exact Has.sub hw (by decide)
    | with_reducible exact Has.mem hw (by decide)
    | intro _
    | with_reducible apply OutStays.next
    | with_reducible apply State.lockPages_stays
    | (extract_lets)
    | split)

theorem execXltUnlock_stays {w_ : List Part} {z s : State} (q : Nat) (hw : Has [.glb, .regs, .ctrs, .srcs, .banks, .lnk, .hif,
    .bst, .xlt, .out] w_) (hk : Stays w_ z s) : OutStays w_ z (execXltUnlock q s) := by
  unfold execXltUnlock
  repeat' (first
    | with_reducible assumption
    | with_reducible exact Has.sub hw (by decide)
    | with_reducible exact Has.mem hw (by decide)
    | intro _
    | with_reducible apply OutStays.ite
    | with_reducible apply Stays.ite
    | with_reducible apply OutStays.next
    | with_reducible apply State.finishEntry_stays
    | with_reducible apply State.setXu_stays
    | with_reducible apply State.tableWrite_stays
    | (extract_lets)
    | split)

theorem State.coreAccess_stays {w_ : List Part} {z s : State} (core addr acc len : Nat) (go : State → Nat → List (Nat × Nat) →
    State) (h_go : ∀ u0 u1 u2, Stays w_ z u0 → Stays w_ z (go u0 u1 u2)) (hw : Has [.ctrs, .xlt, .out, .free] w_) (hk : Stays w_ z
    s) : Stays w_ z (State.coreAccess s core addr acc len go) := by
  unfold State.coreAccess
  repeat' (first
    | with_reducible assumption
    | with_reducible exact Has.sub hw (by decide)
    | with_reducible exact Has.mem hw (by decide)
    | intro _
    | with_reducible apply Stays.ite
    | with_reducible apply PStays.fst
    | with_reducible apply State.emit_stays
    | with_reducible apply State.xlateRun_stays
    | with_reducible apply h_go
    | (extract_lets)
    | split
    | with_reducible apply PStays.pair
    | (with_reducible refine PStays.eq (by assumption) ?_))

end Sys2Proof.Machine
end

