-- ==== Sys2Proof/Laws/StaysTrn.lean ====
section
/-! SUPPORT. Laws/Stays.lean, for the operations of Machine/Trn.lean. -/
namespace Sys2Proof.Machine

theorem State.setCtx_stays {w_ : List Part} {z s : State} (k : Nat) (c : Ctx) (hw : Has [.trn] w_) (hk : Stays w_ z s) : Stays w_
    z (State.setCtx s k c) := by
  unfold State.setCtx
  repeat' (first
    | with_reducible assumption
    | with_reducible exact Has.sub hw (by decide)
    | with_reducible exact Has.mem hw (by decide)
    | intro _
    | (extract_lets)
    | split
    | with_reducible apply Stays.set_trn)

theorem State.onCtx_stays {w_ : List Part} {z s : State} (k : Nat) (f : Ctx → Ctx) (hw : Has [.trn] w_) (hk : Stays w_ z s) :
    Stays w_ z (State.onCtx s k f) := by
  unfold State.onCtx
  repeat' (first
    | with_reducible assumption
    | with_reducible exact Has.sub hw (by decide)
    | with_reducible exact Has.mem hw (by decide)
    | intro _
    | with_reducible apply State.setCtx_stays
    | (extract_lets)
    | split)

theorem State.freshCtx_stays {w_ : List Part} {z s : State} (epoch : Nat) (hw : Has [.free] w_) (hk : Stays w_ z s) : QStays w_ z
    (State.freshCtx s epoch) := by
  unfold State.freshCtx
  repeat' (first
    | with_reducible assumption
    | with_reducible exact Has.sub hw (by decide)
    | with_reducible exact Has.mem hw (by decide)
    | intro _
    | with_reducible apply QStays.snd
    | with_reducible apply State.draw_staysQ
    | with_reducible apply State.draw_stays
    | (extract_lets)
    | split
    | with_reducible apply QStays.pair
    | (with_reducible refine QStays.eq (by assumption) ?_))

theorem State.spill_stays {w_ : List Part} {z s : State} (k : Nat) (c : Ctx) (hw : Has [.ctrs, .trn, .out] w_) (hk : Stays w_ z s)
    : Stays w_ z (State.spill s k c) := by
  unfold State.spill
  repeat' (first
    | with_reducible assumption
    | with_reducible exact Has.sub hw (by decide)
    | with_reducible exact Has.mem hw (by decide)
    | intro _
    | with_reducible apply Stays.ite
    | with_reducible apply State.bump_stays
    | with_reducible apply State.hostWrite_stays
    | (extract_lets)
    | split
    | with_reducible apply Stays.set_trn)

theorem State.evictOne_stays {w_ : List Part} {z s : State} (inbound : Bool) (hw : Has [.ctrs, .trn, .out, .free] w_) (hk : Stays
    w_ z s) : Stays w_ z (State.evictOne s inbound) := by
  unfold State.evictOne
  repeat' (first
    | with_reducible assumption
    | with_reducible exact Has.sub hw (by decide)
    | with_reducible exact Has.mem hw (by decide)
    | intro _
    | with_reducible apply QStays.snd
    | with_reducible apply State.draw_staysQ
    | with_reducible apply State.draw_stays
    | with_reducible apply State.spill_stays
    | (extract_lets)
    | split
    | with_reducible apply QStays.pair
    | (with_reducible refine QStays.eq (by assumption) ?_))

theorem State.loadCtx_stays {w_ : List Part} {z s : State} (k : Nat) (inbound : Bool) (hw : Has [.trn, .out] w_) (hk : Stays w_ z
    s) : Stays w_ z (State.loadCtx s k inbound) := by
  unfold State.loadCtx
  repeat' (first
    | with_reducible assumption
    | with_reducible exact Has.sub hw (by decide)
    | with_reducible exact Has.mem hw (by decide)
    | intro _
    | with_reducible apply State.hostRead_stays
    | (extract_lets)
    | split
    | with_reducible apply Stays.set_trn)

theorem State.needCtx_stays {w_ : List Part} {z s : State} (k : Nat) (inbound : Bool) (hw : Has [.glb, .ctrs, .srcs, .banks, .hif,
    .trn, .out, .free] w_) (hk : Stays w_ z s) : PStays w_ z (State.needCtx s k inbound) := by
  unfold State.needCtx
  repeat' (first
    | with_reducible assumption
    | with_reducible exact Has.sub hw (by decide)
    | with_reducible exact Has.mem hw (by decide)
    | intro _
    | with_reducible apply PStays.ite
    | with_reducible apply Stays.ite
    | with_reducible apply PStays.fst
    | with_reducible apply State.evictOne_stays
    | with_reducible apply State.level_stays
    | with_reducible apply State.loadCtx_stays
    | (extract_lets)
    | split
    | with_reducible apply PStays.pair
    | (with_reducible refine PStays.eq (by assumption) ?_)
    | with_reducible apply Stays.set_trn)

theorem State.setOp_stays {w_ : List Part} {z s : State} (i : Nat) (o : Op) (hw : Has [.trn] w_) (hk : Stays w_ z s) : Stays w_ z
    (State.setOp s i o) := by
  unfold State.setOp
  repeat' (first
    | with_reducible assumption
    | with_reducible exact Has.sub hw (by decide)
    | with_reducible exact Has.mem hw (by decide)
    | intro _
    | (extract_lets)
    | split
    | with_reducible apply Stays.set_trn)

theorem State.delOp_stays {w_ : List Part} {z s : State} (i : Nat) (hw : Has [.trn] w_) (hk : Stays w_ z s) : Stays w_ z
    (State.delOp s i) := by
  unfold State.delOp
  repeat' (first
    | with_reducible assumption
    | with_reducible exact Has.sub hw (by decide)
    | with_reducible exact Has.mem hw (by decide)
    | intro _
    | (extract_lets)
    | split
    | with_reducible apply Stays.set_trn)

theorem State.finishOp_stays {w_ : List Part} {z s : State} (i : Nat) (r : Res) (hw : Has [.trn] w_) (hk : Stays w_ z s) : Stays
    w_ z (State.finishOp s i r) := by
  unfold State.finishOp
  repeat' (first
    | with_reducible assumption
    | with_reducible exact Has.sub hw (by decide)
    | with_reducible exact Has.mem hw (by decide)
    | intro _
    | with_reducible apply Stays.ite
    | with_reducible apply State.setOp_stays
    | (extract_lets)
    | split)

theorem State.newOp_stays {w_ : List Part} {z s : State} (o : Op) (hw : Has [.trn, .free] w_) (hk : Stays w_ z s) : Stays w_ z
    (State.newOp s o) := by
  unfold State.newOp
  repeat' (first
    | with_reducible assumption
    | with_reducible exact Has.sub hw (by decide)
    | with_reducible exact Has.mem hw (by decide)
    | intro _
    | with_reducible apply QStays.snd
    | with_reducible apply State.draw_staysQ
    | with_reducible apply State.draw_stays
    | with_reducible apply State.setOp_stays
    | (extract_lets)
    | split
    | with_reducible apply QStays.pair
    | (with_reducible refine QStays.eq (by assumption) ?_)
    | with_reducible apply Stays.set_trn)

theorem State.answew_stays {w_ : List Part} {z s : State} (a : Arr) (origin : OpOrigin) (opcode opLen fields : Nat) (pay : PaySrc)
    (hw : Has [.trn, .free] w_) (hk : Stays w_ z s) : Stays w_ z (State.answer s a origin opcode opLen fields pay) := by
  unfold State.answer
  repeat' (first
    | with_reducible assumption
    | with_reducible exact Has.sub hw (by decide)
    | with_reducible exact Has.mem hw (by decide)
    | intro _
    | with_reducible apply State.newOp_stays
    | (extract_lets)
    | split)

theorem State.result_stays {w_ : List Part} {z s : State} (a : Arr) (origin : OpOrigin) (status detail extra : Nat) (hw : Has
    [.trn, .free] w_) (hk : Stays w_ z s) : Stays w_ z (State.result s a origin status detail extra) := by
  unfold State.result
  repeat' (first
    | with_reducible assumption
    | with_reducible exact Has.sub hw (by decide)
    | with_reducible exact Has.mem hw (by decide)
    | intro _
    | with_reducible apply State.answew_stays
    | (extract_lets)
    | split)

theorem State.noteRefused_stays {w_ : List Part} {z s : State} (a : Arr) (hw : Has [.trn] w_) (hk : Stays w_ z s) : Stays w_ z
    (State.noteRefused s a) := by
  unfold State.noteRefused
  repeat' (first
    | with_reducible assumption
    | with_reducible exact Has.sub hw (by decide)
    | with_reducible exact Has.mem hw (by decide)
    | intro _
    | with_reducible apply Stays.ite
    | with_reducible apply State.onCtx_stays
    | (extract_lets)
    | split)

theorem State.refuseEp_stays {w_ : List Part} {z s : State} (a : Arr) (detail : Nat) (hw : Has [.ctrs, .trn, .free] w_) (hk :
    Stays w_ z s) : Stays w_ z (State.refuseEp s a detail) := by
  unfold State.refuseEp
  repeat' (first
    | with_reducible assumption
    | with_reducible exact Has.sub hw (by decide)
    | with_reducible exact Has.mem hw (by decide)
    | intro _
    | with_reducible apply Stays.ite
    | with_reducible apply State.bump_stays
    | with_reducible apply State.noteRefused_stays
    | with_reducible apply State.result_stays
    | (extract_lets)
    | split)

theorem State.classBegins_stays {w_ : List Part} {z s : State} (h tc : Nat) (hw : Has [.sch] w_) (hk : Stays w_ z s) : Stays w_ z
    (State.classBegins s h tc) := by
  unfold State.classBegins
  repeat' (first
    | with_reducible assumption
    | with_reducible exact Has.sub hw (by decide)
    | with_reducible exact Has.mem hw (by decide)
    | intro _
    | with_reducible apply Stays.ite
    | (extract_lets)
    | split
    | with_reducible apply Stays.set_sch)

theorem State.queueTx_stays {w_ : List Part} {z s : State} (s0 : State) (k st : Nat) (p : TxPkt) (h_s0 : Stays w_ z s0) (hw : Has
    [.sch] w_) (hk : Stays w_ z s) : Stays w_ z (State.queueTx s0 k st p) := by
  unfold State.queueTx
  repeat' (first
    | with_reducible assumption
    | with_reducible exact Has.sub hw (by decide)
    | with_reducible exact Has.mem hw (by decide)
    | intro _
    | with_reducible apply Stays.ite
    | with_reducible apply State.classBegins_stays
    | with_reducible apply h_s0
    | (extract_lets)
    | split
    | with_reducible apply Stays.set_sch)

theorem State.ctxFail_stays {w_ : List Part} {z s : State} (k detail : Nat) (cause : Option Nat) (hw : Has [.ctrs, .sch, .trn,
    .free] w_) (hk : Stays w_ z s) : Stays w_ z (State.ctxFail s k detail cause) := by
  unfold State.ctxFail
  repeat' (first
    | with_reducible assumption
    | with_reducible exact Has.sub hw (by decide)
    | with_reducible exact Has.mem hw (by decide)
    | intro _
    | with_reducible apply Stays.ite
    | with_reducible apply Stays.foldl
    | with_reducible apply PStays.foldl
    | with_reducible apply QStays.foldl
    | with_reducible apply PStays.fst
    | with_reducible apply QStays.snd
    | with_reducible apply State.draw_staysQ
    | with_reducible apply State.bump_stays
    | with_reducible apply State.finishOp_stays
    | with_reducible apply State.setCtx_stays
    | (extract_lets)
    | split
    | with_reducible apply PStays.pair
    | with_reducible apply QStays.pair
    | (with_reducible refine PStays.eq (by assumption) ?_)
    | (with_reducible refine QStays.eq (by assumption) ?_)
    | with_reducible apply Stays.set_sch)

theorem State.ctxErrow_stays {w_ : List Part} {z s : State} (k detail : Nat) (cause : Option Nat) (hw : Has [.glb, .ctrs, .srcs,
    .banks, .sch, .hif, .trn, .out, .free] w_) (hk : Stays w_ z s) : Stays w_ z (State.ctxError s k detail cause) := by
  unfold State.ctxError
  repeat' (first
    | with_reducible assumption
    | with_reducible exact Has.sub hw (by decide)
    | with_reducible exact Has.mem hw (by decide)
    | intro _
    | with_reducible apply Stays.ite
    | with_reducible apply State.ctxFail_stays
    | with_reducible apply State.raise_stays
    | (extract_lets)
    | split)

theorem State.pickHash_stays {w_ : List Part} {z s : State} (c : Ctx) (ordered : Bool) (own : Nat) (hw : Has [.free] w_) (hk :
    Stays w_ z s) : QStays w_ z (State.pickHash s c ordered own) := by
  unfold State.pickHash
  repeat' (first
    | with_reducible assumption
    | with_reducible exact Has.sub hw (by decide)
    | with_reducible exact Has.mem hw (by decide)
    | intro _
    | with_reducible apply QStays.ite
    | with_reducible apply Stays.ite
    | with_reducible apply QStays.snd
    | with_reducible apply State.draw_staysQ
    | with_reducible apply State.draw_stays
    | (extract_lets)
    | split
    | with_reducible apply QStays.pair
    | (with_reducible refine QStays.eq (by assumption) ?_))

theorem State.retransmit_stays {w_ : List Part} {z s : State} (k st psn : Nat) (hw : Has [.glb, .ctrs, .srcs, .banks, .sch, .hif,
    .trn, .out, .free] w_) (hk : Stays w_ z s) : Stays w_ z (State.retransmit s k st psn) := by
  unfold State.retransmit
  repeat' (first
    | with_reducible assumption
    | with_reducible exact Has.sub hw (by decide)
    | with_reducible exact Has.mem hw (by decide)
    | intro _
    | with_reducible apply Stays.ite
    | with_reducible apply QStays.snd
    | with_reducible apply State.draw_staysQ
    | with_reducible apply State.bump_stays
    | with_reducible apply State.ctxErrow_stays
    | with_reducible apply State.onCtx_stays
    | with_reducible apply State.pickHash_stays
    | with_reducible apply State.queueTx_stays
    | (extract_lets)
    | split
    | with_reducible apply QStays.pair
    | (with_reducible refine QStays.eq (by assumption) ?_))

theorem State.payload_stays {w_ : List Part} {z s : State} (hm : HostView) (hp n : Nat) (o : Op) (i : Nat) (hw : Has [.ctrs, .xlt,
    .out, .free] w_) (hk : Stays w_ z s) : PStays w_ z (State.payload s hm hp n o i) := by
  unfold State.payload
  repeat' (first
    | with_reducible assumption
    | with_reducible exact Has.sub hw (by decide)
    | with_reducible exact Has.mem hw (by decide)
    | intro _
    | with_reducible apply PStays.fst
    | with_reducible apply State.readRun_stays
    | with_reducible apply State.xlateRun_stays
    | (extract_lets)
    | split
    | with_reducible apply PStays.pair
    | (with_reducible refine PStays.eq (by assumption) ?_))

theorem State.sendPkt_stays {w_ : List Part} {z s : State} (i : Nat) (o : Op) (c : Ctx) (sl : Slot) (pay : Data) (hw : Has [.ctrs,
    .sch, .trn, .xlt, .out, .free] w_) (hk : Stays w_ z s) : Stays w_ z (State.sendPkt s i o c sl pay) := by
  unfold State.sendPkt
  repeat' (first
    | with_reducible assumption
    | with_reducible exact Has.sub hw (by decide)
    | with_reducible exact Has.mem hw (by decide)
    | intro _
    | with_reducible apply Stays.ite
    | with_reducible apply PStays.fst
    | with_reducible apply QStays.snd
    | with_reducible apply State.draw_staysQ
    | with_reducible apply State.onCtx_stays
    | with_reducible apply State.payload_stays
    | with_reducible apply State.pickHash_stays
    | with_reducible apply State.queueTx_stays
    | with_reducible apply State.setOp_stays
    | (extract_lets)
    | split
    | with_reducible apply PStays.pair
    | with_reducible apply QStays.pair
    | (with_reducible refine PStays.eq (by assumption) ?_)
    | (with_reducible refine QStays.eq (by assumption) ?_))

theorem State.transportSend_stays {w_ : List Part} {z s : State} (i : Nat) (hm : HostView) (hw : Has [.glb, .ctrs, .srcs, .banks,
    .sch, .hif, .trn, .xlt, .out, .free] w_) (hk : Stays w_ z s) : Stays w_ z (State.transportSend s i hm) := by
  unfold State.transportSend
  repeat' (first
    | with_reducible assumption
    | with_reducible exact Has.sub hw (by decide)
    | with_reducible exact Has.mem hw (by decide)
    | intro _
    | with_reducible apply Stays.ite
    | with_reducible apply PStays.fst
    | with_reducible apply State.finishOp_stays
    | with_reducible apply State.needCtx_stays
    | with_reducible apply State.payload_stays
    | with_reducible apply State.sendPkt_stays
    | (extract_lets)
    | split
    | with_reducible apply PStays.pair
    | (with_reducible refine PStays.eq (by assumption) ?_))

theorem State.sendAck_stays {w_ : List Part} {z s : State} (k st : Nat) (hw : Has [.sch, .trn] w_) (hk : Stays w_ z s) : Stays w_
    z (State.sendAck s k st) := by
  unfold State.sendAck
  repeat' (first
    | with_reducible assumption
    | with_reducible exact Has.sub hw (by decide)
    | with_reducible exact Has.mem hw (by decide)
    | intro _
    | with_reducible apply Stays.ite
    | with_reducible apply State.onCtx_stays
    | (extract_lets)
    | split
    | with_reducible apply Stays.set_sch)

theorem State.ackDue_stays {w_ : List Part} {z s : State} (k st : Nat) (now : Bool) (hw : Has [.sch, .trn] w_) (hk : Stays w_ z s)
    : Stays w_ z (State.ackDue s k st now) := by
  unfold State.ackDue
  repeat' (first
    | with_reducible assumption
    | with_reducible exact Has.sub hw (by decide)
    | with_reducible exact Has.mem hw (by decide)
    | intro _
    | with_reducible apply Stays.ite
    | with_reducible apply State.onCtx_stays
    | with_reducible apply State.sendAck_stays
    | (extract_lets)
    | split)

theorem State.orderedRetx_stays {w_ : List Part} {z s : State} (k st : Nat) (hw : Has [.glb, .ctrs, .srcs, .banks, .sch, .hif,
    .trn, .out, .free] w_) (hk : Stays w_ z s) : Stays w_ z (State.orderedRetx s k st) := by
  unfold State.orderedRetx
  repeat' (first
    | with_reducible assumption
    | with_reducible exact Has.sub hw (by decide)
    | with_reducible exact Has.mem hw (by decide)
    | intro _
    | with_reducible apply Stays.ite
    | with_reducible apply Stays.foldl
    | with_reducible apply PStays.foldl
    | with_reducible apply QStays.foldl
    | with_reducible apply State.retransmit_stays
    | with_reducible apply State.setCtx_stays
    | (extract_lets)
    | split)

theorem State.releaseHolds_stays {w_ : List Part} {z s : State} (k st : Nat) (hw : Has [.sch] w_) (hk : Stays w_ z s) : Stays w_ z
    (State.releaseHolds s k st) := by
  unfold State.releaseHolds
  repeat' (first
    | with_reducible assumption
    | with_reducible exact Has.sub hw (by decide)
    | with_reducible exact Has.mem hw (by decide)
    | intro _
    | with_reducible apply Stays.ite
    | (extract_lets)
    | split
    | with_reducible apply Stays.set_sch)

theorem State.actOnAck_stays {w_ : List Part} {z s : State} (k : Nat) (c : Ctx) (b : Data) (hw : Has [.glb, .ctrs, .srcs, .banks,
    .sch, .hif, .trn, .out, .free] w_) (hk : Stays w_ z s) : Stays w_ z (State.actOnAck s k c b) := by
  unfold State.actOnAck
  repeat' (first
    | with_reducible assumption
    | with_reducible exact Has.sub hw (by decide)
    | with_reducible exact Has.mem hw (by decide)
    | intro _
    | with_reducible apply Stays.ite
    | with_reducible apply Stays.foldl
    | with_reducible apply PStays.foldl
    | with_reducible apply QStays.foldl
    | with_reducible apply State.bumpIf_stays
    | with_reducible apply State.orderedRetx_stays
    | with_reducible apply State.releaseHolds_stays
    | with_reducible apply State.setCtx_stays
    | (extract_lets)
    | split)

theorem State.adopt_stays {w_ : List Part} {z s : State} (k : Nat) (c : Ctx) (g : BitVec 32) (hw : Has [.glb, .ctrs, .srcs,
    .banks, .hif, .trn, .out, .free] w_) (hk : Stays w_ z s) : Stays w_ z (State.adopt s k c g) := by
  unfold State.adopt
  repeat' (first
    | with_reducible assumption
    | with_reducible exact Has.sub hw (by decide)
    | with_reducible exact Has.mem hw (by decide)
    | intro _
    | with_reducible apply Stays.ite
    | with_reducible apply Stays.foldl
    | with_reducible apply PStays.foldl
    | with_reducible apply QStays.foldl
    | with_reducible apply PStays.fst
    | with_reducible apply QStays.snd
    | with_reducible apply State.draw_staysQ
    | with_reducible apply State.finishOp_stays
    | with_reducible apply State.raise_stays
    | with_reducible apply State.setCtx_stays
    | (extract_lets)
    | split
    | with_reducible apply PStays.pair
    | with_reducible apply QStays.pair
    | (with_reducible refine PStays.eq (by assumption) ?_)
    | (with_reducible refine QStays.eq (by assumption) ?_))

theorem State.msgRefused_stays {w_ : List Part} {z s : State} (a : Arr) (hw : Has [.glb, .ctrs, .srcs, .banks, .hif, .out] w_) (hk
    : Stays w_ z s) : Stays w_ z (State.msgRefused s a) := by
  unfold State.msgRefused
  repeat' (first
    | with_reducible assumption
    | with_reducible exact Has.sub hw (by decide)
    | with_reducible exact Has.mem hw (by decide)
    | intro _
    | with_reducible apply Stays.ite
    | with_reducible apply State.bump_stays
    | with_reducible apply State.raise_stays
    | (extract_lets)
    | split)

theorem State.delivew_stays {w_ : List Part} {z s : State} (a : Arr) (hw : Has [.glb, .ctrs, .srcs, .banks, .hif, .trn, .out,
    .free] w_) (hk : Stays w_ z s) : Stays w_ z (State.deliver s a) := by
  unfold State.deliver
  repeat' (first
    | with_reducible assumption
    | with_reducible exact Has.sub hw (by decide)
    | with_reducible exact Has.mem hw (by decide)
    | intro _
    | with_reducible apply Stays.ite
    | with_reducible apply State.msgRefused_stays
    | with_reducible apply State.noteRefused_stays
    | with_reducible apply State.refuseEp_stays
    | with_reducible apply State.result_stays
    | (extract_lets)
    | split
    | with_reducible apply Stays.set_trn)

theorem State.acceptPkt_stays {w_ : List Part} {z s : State} (a : Arr) (c : Ctx) (adv : Option Nat) (hw : Has [.glb, .ctrs, .srcs,
    .banks, .sch, .hif, .trn, .out, .free] w_) (hk : Stays w_ z s) : Stays w_ z (State.acceptPkt s a c adv) := by
  unfold State.acceptPkt
  repeat' (first
    | with_reducible assumption
    | with_reducible exact Has.sub hw (by decide)
    | with_reducible exact Has.mem hw (by decide)
    | intro _
    | with_reducible apply Stays.ite
    | with_reducible apply State.ackDue_stays
    | with_reducible apply State.bump_stays
    | with_reducible apply State.delivew_stays
    | with_reducible apply State.onCtx_stays
    | with_reducible apply State.setCtx_stays
    | (extract_lets)
    | split)

theorem State.rxChecked_stays {w_ : List Part} {z s : State} (k : Nat) (sl : Slot) (c : Ctx) (h th : Nat) (rest : Data) (hw : Has
    [.glb, .ctrs, .srcs, .banks, .sch, .hif, .trn, .out, .free] w_) (hk : Stays w_ z s) : Stays w_ z (State.rxChecked s k sl c h
    th rest) := by
  unfold State.rxChecked
  repeat' (first
    | with_reducible assumption
    | with_reducible exact Has.sub hw (by decide)
    | with_reducible exact Has.mem hw (by decide)
    | intro _
    | with_reducible apply Stays.ite
    | with_reducible apply State.acceptPkt_stays
    | with_reducible apply State.ackDue_stays
    | with_reducible apply State.adopt_stays
    | with_reducible apply State.bump_stays
    | with_reducible apply State.onCtx_stays
    | with_reducible apply State.raise_stays
    | (extract_lets)
    | split)

theorem State.hubDrop_stays {w_ : List Part} {z s : State} (h j : Nat) (hw : Has [.sch] w_) (hk : Stays w_ z s) : Stays w_ z
    (State.hubDrop s h j) := by
  unfold State.hubDrop
  repeat' (first
    | with_reducible assumption
    | with_reducible exact Has.sub hw (by decide)
    | with_reducible exact Has.mem hw (by decide)
    | intro _
    | (extract_lets)
    | split
    | with_reducible apply Stays.set_sch)

theorem State.hubPop_stays {w_ : List Part} {z s : State} (h : Nat) (hw : Has [.sch] w_) (hk : Stays w_ z s) : Stays w_ z
    (State.hubPop s h) := by
  unfold State.hubPop
  repeat' (first
    | with_reducible assumption
    | with_reducible exact Has.sub hw (by decide)
    | with_reducible exact Has.mem hw (by decide)
    | intro _
    | with_reducible apply State.hubDrop_stays
    | (extract_lets)
    | split)

theorem State.rxAt_stays {w_ : List Part} {z s : State} (h j : Nat) (d : Data) (hw : Has [.glb, .ctrs, .srcs, .banks, .sch, .hif,
    .trn, .out, .free] w_) (hk : Stays w_ z s) : Stays w_ z (State.rxAt s h j d) := by
  unfold State.rxAt
  repeat' (first
    | with_reducible assumption
    | with_reducible exact Has.sub hw (by decide)
    | with_reducible exact Has.mem hw (by decide)
    | intro _
    | with_reducible apply Stays.ite
    | with_reducible apply PStays.fst
    | with_reducible apply State.bump_stays
    | with_reducible apply State.hubDrop_stays
    | with_reducible apply State.needCtx_stays
    | with_reducible apply State.raise_stays
    | with_reducible apply State.rxChecked_stays
    | (extract_lets)
    | split
    | with_reducible apply PStays.pair
    | (with_reducible refine PStays.eq (by assumption) ?_)
    | with_reducible apply Stays.set_trn)

theorem State.transportRx_stays {w_ : List Part} {z s : State} (h : Nat) (hw : Has [.glb, .ctrs, .srcs, .banks, .sch, .hif, .trn,
    .out, .free] w_) (hk : Stays w_ z s) : Stays w_ z (State.transportRx s h) := by
  unfold State.transportRx
  repeat' (first
    | with_reducible assumption
    | with_reducible exact Has.sub hw (by decide)
    | with_reducible exact Has.mem hw (by decide)
    | intro _
    | with_reducible apply Stays.ite
    | with_reducible apply State.rxAt_stays
    | (extract_lets)
    | split)

theorem State.ackAt_stays {w_ : List Part} {z s : State} (h j : Nat) (d : Data) (hw : Has [.glb, .ctrs, .srcs, .banks, .sch, .hif,
    .trn, .out, .free] w_) (hk : Stays w_ z s) : Stays w_ z (State.ackAt s h j d) := by
  unfold State.ackAt
  repeat' (first
    | with_reducible assumption
    | with_reducible exact Has.sub hw (by decide)
    | with_reducible exact Has.mem hw (by decide)
    | intro _
    | with_reducible apply Stays.ite
    | with_reducible apply State.actOnAck_stays
    | with_reducible apply State.bump_stays
    | with_reducible apply State.hubDrop_stays
    | with_reducible apply State.raise_stays
    | (extract_lets)
    | split)

theorem State.ackRx_stays {w_ : List Part} {z s : State} (h : Nat) (hw : Has [.glb, .ctrs, .srcs, .banks, .sch, .hif, .trn, .out,
    .free] w_) (hk : Stays w_ z s) : Stays w_ z (State.ackRx s h) := by
  unfold State.ackRx
  repeat' (first
    | with_reducible assumption
    | with_reducible exact Has.sub hw (by decide)
    | with_reducible exact Has.mem hw (by decide)
    | intro _
    | with_reducible apply Stays.ite
    | with_reducible apply State.ackAt_stays
    | (extract_lets)
    | split)

theorem State.trnResult_stays {w_ : List Part} {z s : State} (r : Nat) (hw : Has [.regs, .trn, .free] w_) (hk : Stays w_ z s) :
    Stays w_ z (State.trnResult s r) := by
  unfold State.trnResult
  repeat' (first
    | with_reducible assumption
    | with_reducible exact Has.sub hw (by decide)
    | with_reducible exact Has.mem hw (by decide)
    | intro _
    | with_reducible apply State.put_stays
    | with_reducible apply State.result_stays
    | (extract_lets)
    | split)

theorem State.resetLoaded_stays {w_ : List Part} {z s : State} (k : Nat) (hw : Has [.glb, .regs, .ctrs, .srcs, .banks, .sch, .hif,
    .trn, .out, .free] w_) (hk : Stays w_ z s) : Stays w_ z (State.resetLoaded s k) := by
  unfold State.resetLoaded
  repeat' (first
    | with_reducible assumption
    | with_reducible exact Has.sub hw (by decide)
    | with_reducible exact Has.mem hw (by decide)
    | intro _
    | with_reducible apply Stays.ite
    | with_reducible apply State.ctxErrow_stays
    | with_reducible apply State.trnResult_stays
    | (extract_lets)
    | split
    | with_reducible apply Stays.set_trn)

theorem State.settleReset_stays {w_ : List Part} {z s : State} (hw : Has [.glb, .regs, .ctrs, .srcs, .banks, .sch, .hif, .trn,
    .out, .free] w_) (hk : Stays w_ z s) : Stays w_ z (State.settleReset s) := by
  unfold State.settleReset
  repeat' (first
    | with_reducible assumption
    | with_reducible exact Has.sub hw (by decide)
    | with_reducible exact Has.mem hw (by decide)
    | intro _
    | with_reducible apply Stays.ite
    | with_reducible apply PStays.fst
    | with_reducible apply State.needCtx_stays
    | with_reducible apply State.resetLoaded_stays
    | with_reducible apply State.trnResult_stays
    | (extract_lets)
    | split
    | with_reducible apply PStays.pair
    | (with_reducible refine PStays.eq (by assumption) ?_)
    | with_reducible apply Stays.set_trn)

end Sys2Proof.Machine
end

