-- ==== Sys2Proof/Laws/StaysSched.lean ====
section
/-! SUPPORT. Laws/Stays.lean, for the operations of Machine/Sched.lean. -/
namespace Sys2Proof.Machine

theorem State.setMetew_stays {w_ : List Part} {z s : State} (m : Nat) (v : Meter) (hw : Has [.sch] w_) (hk : Stays w_ z s) : Stays
    w_ z (State.setMeter s m v) := by
  unfold State.setMeter
  repeat' (first
    | with_reducible assumption
    | with_reducible exact Has.sub hw (by decide)
    | with_reducible exact Has.mem hw (by decide)
    | intro _
    | (extract_lets)
    | split
    | with_reducible apply Stays.set_sch)

theorem State.setShapew_stays {w_ : List Part} {z s : State} (m : Nat) (v : Int) (hw : Has [.sch] w_) (hk : Stays w_ z s) : Stays
    w_ z (State.setShaper s m v) := by
  unfold State.setShaper
  repeat' (first
    | with_reducible assumption
    | with_reducible exact Has.sub hw (by decide)
    | with_reducible exact Has.mem hw (by decide)
    | intro _
    | (extract_lets)
    | split
    | with_reducible apply Stays.set_sch)

theorem State.refill_stays {w_ : List Part} {z s : State} (hw : Has [.sch, .free] w_) (hk : Stays w_ z s) : Stays w_ z
    (State.refill s) := by
  unfold State.refill
  repeat' (first
    | with_reducible assumption
    | with_reducible exact Has.sub hw (by decide)
    | with_reducible exact Has.mem hw (by decide)
    | intro _
    | with_reducible apply Stays.foldl
    | with_reducible apply PStays.foldl
    | with_reducible apply QStays.foldl
    | with_reducible apply PStays.fst
    | with_reducible apply QStays.snd
    | with_reducible apply State.draw_staysQ
    | with_reducible apply State.setMetew_stays
    | with_reducible apply State.setShapew_stays
    | (extract_lets)
    | split
    | with_reducible apply PStays.pair
    | with_reducible apply QStays.pair
    | (with_reducible refine PStays.eq (by assumption) ?_)
    | (with_reducible refine QStays.eq (by assumption) ?_)
    | with_reducible apply Stays.set_sch)

theorem State.swapBuckets_stays {w_ : List Part} {z s : State} (hw : Has [.sch, .free] w_) (hk : Stays w_ z s) : Stays w_ z
    (State.swapBuckets s) := by
  unfold State.swapBuckets
  repeat' (first
    | with_reducible assumption
    | with_reducible exact Has.sub hw (by decide)
    | with_reducible exact Has.mem hw (by decide)
    | intro _
    | with_reducible apply Stays.foldl
    | with_reducible apply PStays.foldl
    | with_reducible apply QStays.foldl
    | with_reducible apply PStays.fst
    | with_reducible apply QStays.snd
    | with_reducible apply State.draw_staysQ
    | with_reducible apply State.setMetew_stays
    | (extract_lets)
    | split
    | with_reducible apply PStays.pair
    | with_reducible apply QStays.pair
    | (with_reducible refine PStays.eq (by assumption) ?_)
    | (with_reducible refine QStays.eq (by assumption) ?_)
    | with_reducible apply Stays.set_sch)

theorem State.colourOf_stays {w_ : List Part} {z s : State} (p : InjPkt) (hw : Has [.sch, .free] w_) (hk : Stays w_ z s) : QStays
    w_ z (State.colourOf s p) := by
  unfold State.colourOf
  repeat' (first
    | with_reducible assumption
    | with_reducible exact Has.sub hw (by decide)
    | with_reducible exact Has.mem hw (by decide)
    | intro _
    | with_reducible apply QStays.ite
    | with_reducible apply Stays.ite
    | with_reducible apply QStays.snd
    | with_reducible apply State.draw_staysQ
    | with_reducible apply State.setMetew_stays
    | (extract_lets)
    | split
    | with_reducible apply QStays.pair
    | (with_reducible refine QStays.eq (by assumption) ?_))

theorem State.setInjQ_stays {w_ : List Part} {z s : State} (h : Nat) (l : List InjPkt) (hw : Has [.sch] w_) (hk : Stays w_ z s) :
    Stays w_ z (State.setInjQ s h l) := by
  unfold State.setInjQ
  repeat' (first
    | with_reducible assumption
    | with_reducible exact Has.sub hw (by decide)
    | with_reducible exact Has.mem hw (by decide)
    | intro _
    | (extract_lets)
    | split
    | with_reducible apply Stays.set_sch)

theorem State.putInj_stays {w_ : List Part} {z s : State} (h : Nat) (p : InjPkt) (hw : Has [.sch] w_) (hk : Stays w_ z s) : Stays
    w_ z (State.putInj s h p) := by
  unfold State.putInj
  repeat' (first
    | with_reducible assumption
    | with_reducible exact Has.sub hw (by decide)
    | with_reducible exact Has.mem hw (by decide)
    | intro _
    | with_reducible apply Stays.ite
    | with_reducible apply State.setInjQ_stays
    | (extract_lets)
    | split)

theorem State.dropInj_stays {w_ : List Part} {z s : State} (h id : Nat) (hw : Has [.sch] w_) (hk : Stays w_ z s) : Stays w_ z
    (State.dropInj s h id) := by
  unfold State.dropInj
  repeat' (first
    | with_reducible assumption
    | with_reducible exact Has.sub hw (by decide)
    | with_reducible exact Has.mem hw (by decide)
    | intro _
    | with_reducible apply State.setInjQ_stays
    | (extract_lets)
    | split)

theorem State.chargeShapew_stays {w_ : List Part} {z s : State} (p : InjPkt) (hw : Has [.sch] w_) (hk : Stays w_ z s) : Stays w_ z
    (State.chargeShaper s p) := by
  unfold State.chargeShaper
  repeat' (first
    | with_reducible assumption
    | with_reducible exact Has.sub hw (by decide)
    | with_reducible exact Has.mem hw (by decide)
    | intro _
    | with_reducible apply State.setShapew_stays
    | (extract_lets)
    | split)

theorem State.noteGates_stays {w_ : List Part} {z s : State} (h : Nat) (hw : Has [.sch] w_) (hk : Stays w_ z s) : Stays w_ z
    (State.noteGates s h) := by
  unfold State.noteGates
  repeat' (first
    | with_reducible assumption
    | with_reducible exact Has.sub hw (by decide)
    | with_reducible exact Has.mem hw (by decide)
    | intro _
    | with_reducible apply Stays.ite
    | with_reducible apply State.setInjQ_stays
    | (extract_lets)
    | split)

theorem State.onTxPkt_stays {w_ : List Part} {z s : State} (k st psn : Nat) (f : TxPkt → TxPkt) (hw : Has [.trn] w_) (hk : Stays
    w_ z s) : Stays w_ z (State.onTxPkt s k st psn f) := by
  unfold State.onTxPkt
  repeat' (first
    | with_reducible assumption
    | with_reducible exact Has.sub hw (by decide)
    | with_reducible exact Has.mem hw (by decide)
    | intro _
    | with_reducible apply Stays.ite
    | with_reducible apply State.setCtx_stays
    | (extract_lets)
    | split)

theorem State.noteSent_stays {w_ : List Part} {z s : State} (p : InjPkt) (hw : Has [.ctrs, .trn] w_) (hk : Stays w_ z s) : Stays
    w_ z (State.noteSent s p) := by
  unfold State.noteSent
  repeat' (first
    | with_reducible assumption
    | with_reducible exact Has.sub hw (by decide)
    | with_reducible exact Has.mem hw (by decide)
    | intro _
    | with_reducible apply Stays.ite
    | with_reducible apply State.bump_stays
    | with_reducible apply State.onTxPkt_stays
    | with_reducible apply State.setCtx_stays
    | (extract_lets)
    | split)

theorem State.launch_stays {w_ : List Part} {z s : State} (h : Nat) (p : InjPkt) (colour : Nat) (way : Option (Nat × Nat)) (hw :
    Has [.glb, .ctrs, .srcs, .banks, .rte, .sch, .hif, .trn, .out] w_) (hk : Stays w_ z s) : Stays w_ z (State.launch s h p colour
    way) := by
  unfold State.launch
  repeat' (first
    | with_reducible assumption
    | with_reducible exact Has.sub hw (by decide)
    | with_reducible exact Has.mem hw (by decide)
    | intro _
    | with_reducible apply Stays.ite
    | with_reducible apply State.bump_stays
    | with_reducible apply State.dropInj_stays
    | with_reducible apply State.hubTo_stays
    | with_reducible apply State.noteSent_stays
    | with_reducible apply State.onCtx_stays
    | with_reducible apply State.raise_stays
    | (extract_lets)
    | split)

theorem State.injPath_stays {w_ : List Part} {z s : State} (h : Nat) (p : InjPkt) (hw : Has [.rte, .free] w_) (hk : Stays w_ z s)
    : QStays w_ z (State.injPath s h p) := by
  unfold State.injPath
  repeat' (first
    | with_reducible assumption
    | with_reducible exact Has.sub hw (by decide)
    | with_reducible exact Has.mem hw (by decide)
    | intro _
    | with_reducible apply QStays.snd
    | with_reducible apply State.draw_staysQ
    | (extract_lets)
    | split
    | with_reducible apply QStays.pair
    | (with_reducible refine QStays.eq (by assumption) ?_)
    | with_reducible apply Stays.set_rte)

theorem State.injectAs_stays {w_ : List Part} {z s : State} (h : Nat) (p : InjPkt) (colour : Nat) (hw : Has [.glb, .ctrs, .srcs,
    .banks, .rte, .sch, .hif, .trn, .out, .free] w_) (hk : Stays w_ z s) : Stays w_ z (State.injectAs s h p colour) := by
  unfold State.injectAs
  repeat' (first
    | with_reducible assumption
    | with_reducible exact Has.sub hw (by decide)
    | with_reducible exact Has.mem hw (by decide)
    | intro _
    | with_reducible apply QStays.snd
    | with_reducible apply State.draw_staysQ
    | with_reducible apply State.injPath_stays
    | with_reducible apply State.launch_stays
    | (extract_lets)
    | split
    | with_reducible apply QStays.pair
    | (with_reducible refine QStays.eq (by assumption) ?_))

theorem State.injectRequest_stays {w_ : List Part} {z s : State} (h : Nat) (p : InjPkt) (hw : Has [.glb, .ctrs, .srcs, .banks,
    .rte, .sch, .hif, .trn, .out, .free] w_) (hk : Stays w_ z s) : Stays w_ z (State.injectRequest s h p) := by
  unfold State.injectRequest
  repeat' (first
    | with_reducible assumption
    | with_reducible exact Has.sub hw (by decide)
    | with_reducible exact Has.mem hw (by decide)
    | intro _
    | with_reducible apply Stays.ite
    | with_reducible apply QStays.snd
    | with_reducible apply State.draw_staysQ
    | with_reducible apply State.bump_stays
    | with_reducible apply State.chargeShapew_stays
    | with_reducible apply State.colourOf_stays
    | with_reducible apply State.dropInj_stays
    | with_reducible apply State.injectAs_stays
    | with_reducible apply State.noteSent_stays
    | with_reducible apply State.putInj_stays
    | (extract_lets)
    | split
    | with_reducible apply QStays.pair
    | (with_reducible refine QStays.eq (by assumption) ?_)
    | with_reducible apply Stays.set_sch)

theorem State.holdForOrdew_stays {w_ : List Part} {z s : State} (h : Nat) (p : InjPkt) (hw : Has [.rte, .sch, .free] w_) (hk :
    Stays w_ z s) : OptStays w_ z (State.holdForOrder s h p) := by
  unfold State.holdForOrder
  repeat' (first
    | with_reducible assumption
    | with_reducible exact Has.sub hw (by decide)
    | with_reducible exact Has.mem hw (by decide)
    | intro _
    | with_reducible apply OptStays.ite
    | with_reducible apply Stays.ite
    | with_reducible apply QStays.snd
    | with_reducible apply State.draw_staysQ
    | with_reducible exact OptStays.none _
    | with_reducible apply OptStays.some
    | with_reducible apply State.injPath_stays
    | with_reducible apply State.putInj_stays
    | (extract_lets)
    | split
    | with_reducible apply QStays.pair
    | (with_reducible refine QStays.eq (by assumption) ?_)
    | (with_reducible refine OptStays.eq (by assumption) ?_))

theorem State.inject_stays {w_ : List Part} {z s : State} (h : Nat) (p : InjPkt) (hw : Has [.glb, .ctrs, .srcs, .banks, .rte,
    .sch, .hif, .trn, .out, .free] w_) (hk : Stays w_ z s) : Stays w_ z (State.inject s h p) := by
  unfold State.inject
  repeat' (first
    | with_reducible assumption
    | with_reducible exact Has.sub hw (by decide)
    | with_reducible exact Has.mem hw (by decide)
    | intro _
    | with_reducible apply Stays.ite
    | with_reducible exact OptStays.none _
    | with_reducible apply OptStays.some
    | with_reducible apply State.holdForOrdew_stays
    | with_reducible apply State.injectAs_stays
    | with_reducible apply State.injectRequest_stays
    | (extract_lets)
    | split
    | (with_reducible refine OptStays.eq (by assumption) ?_))

theorem State.keepCharge_stays {w_ : List Part} {z s : State} (s0 : State) (h : Nat) (h_s0 : Stays w_ z s0) (hw : Has [.sch] w_)
    (hk : Stays w_ z s) : Stays w_ z (State.keepCharge s s0 h) := by
  unfold State.keepCharge
  repeat' (first
    | with_reducible assumption
    | with_reducible exact Has.sub hw (by decide)
    | with_reducible exact Has.mem hw (by decide)
    | intro _
    | with_reducible apply Stays.ite
    | with_reducible apply h_s0
    | (extract_lets)
    | split
    | with_reducible apply Stays.set_sch)

theorem execPacketInject_stays {w_ : List Part} {z s : State} (h : Nat) (hw : Has [.glb, .ctrs, .srcs, .banks, .rte, .sch, .hif,
    .trn, .out, .free] w_) (hk : Stays w_ z s) : OutStays w_ z (execPacketInject h s) := by
  unfold execPacketInject
  repeat' (first
    | with_reducible assumption
    | with_reducible exact Has.sub hw (by decide)
    | with_reducible exact Has.mem hw (by decide)
    | intro _
    | with_reducible apply OutStays.ite
    | with_reducible apply Stays.ite
    | with_reducible apply OutStays.next
    | with_reducible apply State.inject_stays
    | with_reducible apply State.keepCharge_stays
    | with_reducible apply State.noteGates_stays
    | (extract_lets)
    | split
    | with_reducible apply Stays.set_sch)

theorem execDeferredRetest_stays {w_ : List Part} {z s : State} (hw : Has [.ctrs, .sch, .trn, .free] w_) (hk : Stays w_ z s) :
    OutStays w_ z (execDeferredRetest s) := by
  unfold execDeferredRetest
  repeat' (first
    | with_reducible assumption
    | with_reducible exact Has.sub hw (by decide)
    | with_reducible exact Has.mem hw (by decide)
    | intro _
    | with_reducible apply OutStays.ite
    | with_reducible apply Stays.ite
    | with_reducible apply Stays.foldl
    | with_reducible apply PStays.foldl
    | with_reducible apply QStays.foldl
    | with_reducible apply PStays.fst
    | with_reducible apply QStays.snd
    | with_reducible apply State.draw_staysQ
    | with_reducible apply OutStays.next
    | with_reducible apply State.bump_stays
    | with_reducible apply State.colourOf_stays
    | with_reducible apply State.dropInj_stays
    | with_reducible apply State.noteSent_stays
    | with_reducible apply State.putInj_stays
    | (extract_lets)
    | split
    | with_reducible apply PStays.pair
    | with_reducible apply QStays.pair
    | (with_reducible refine PStays.eq (by assumption) ?_)
    | (with_reducible refine QStays.eq (by assumption) ?_)
    | with_reducible apply Stays.set_sch)

theorem State.hubTake_stays {w_ : List Part} {z s : State} (h i : Nat) (p : InPkt) (hw : Has [.ctrs, .lnk, .rte, .sch] w_) (hk :
    Stays w_ z s) : Stays w_ z (State.hubTake s h i p) := by
  unfold State.hubTake
  repeat' (first
    | with_reducible assumption
    | with_reducible exact Has.sub hw (by decide)
    | with_reducible exact Has.mem hw (by decide)
    | intro _
    | with_reducible apply Stays.ite
    | with_reducible apply State.bump_stays
    | with_reducible apply State.delPkt_stays
    | with_reducible apply State.freeForms_stays
    | (extract_lets)
    | split
    | with_reducible apply Stays.set_sch)

theorem State.startPkt_stays {w_ : List Part} {z s : State} (o i vc : Nat) (p : InPkt) (hw : Has [.ctrs, .lnk, .rte, .sch] w_) (hk
    : Stays w_ z s) : Stays w_ z (State.startPkt s o i vc p) := by
  unfold State.startPkt
  repeat' (first
    | with_reducible assumption
    | with_reducible exact Has.sub hw (by decide)
    | with_reducible exact Has.mem hw (by decide)
    | intro _
    | with_reducible apply Stays.ite
    | with_reducible apply State.bumpIf_stays
    | with_reducible apply State.hubTake_stays
    | with_reducible apply State.onLk_stays
    | with_reducible apply State.setOut_stays
    | with_reducible apply State.setPkt_stays
    | (extract_lets)
    | split)

theorem State.vcEnds_stays {w_ : List Part} {z s : State} (o vc : Nat) (hw : Has [.sch] w_) (hk : Stays w_ z s) : Stays w_ z
    (State.vcEnds s o vc) := by
  unfold State.vcEnds
  repeat' (first
    | with_reducible assumption
    | with_reducible exact Has.sub hw (by decide)
    | with_reducible exact Has.mem hw (by decide)
    | intro _
    | with_reducible apply Stays.ite
    | with_reducible apply State.setOut_stays
    | (extract_lets)
    | split)

theorem State.scheduleDrw_stays {w_ : List Part} {z s : State} (o : Nat) (hw : Has [.ctrs, .lnk, .rte, .sch] w_) (hk : Stays w_ z
    s) : Stays w_ z (State.scheduleDrr s o) := by
  unfold State.scheduleDrr
  repeat' (first
    | with_reducible assumption
    | with_reducible exact Has.sub hw (by decide)
    | with_reducible exact Has.mem hw (by decide)
    | intro _
    | with_reducible apply Stays.ite
    | with_reducible apply State.setOut_stays
    | with_reducible apply State.startPkt_stays
    | with_reducible apply State.vcEnds_stays
    | (extract_lets)
    | split)

theorem State.noCapWait_stays {w_ : List Part} {z s : State} (o : Nat) (hw : Has [.sch] w_) (hk : Stays w_ z s) : Stays w_ z
    (State.noCapWait s o) := by
  unfold State.noCapWait
  repeat' (first
    | with_reducible assumption
    | with_reducible exact Has.sub hw (by decide)
    | with_reducible exact Has.mem hw (by decide)
    | intro _
    | with_reducible apply State.setOut_stays
    | (extract_lets)
    | split)

theorem execOutputSchedule_stays {w_ : List Part} {z s : State} (o : Nat) (hw : Has [.glb, .ctrs, .srcs, .banks, .lnk, .rte, .sch,
    .hif, .out] w_) (hk : Stays w_ z s) : OutStays w_ z (execOutputSchedule o s) := by
  unfold execOutputSchedule
  repeat' (first
    | with_reducible assumption
    | with_reducible exact Has.sub hw (by decide)
    | with_reducible exact Has.mem hw (by decide)
    | intro _
    | with_reducible apply OutStays.ite
    | with_reducible apply Stays.ite
    | with_reducible apply OutStays.next
    | with_reducible apply State.bump_stays
    | with_reducible apply State.noCapWait_stays
    | with_reducible apply State.raise_stays
    | with_reducible apply State.scheduleDrw_stays
    | with_reducible apply State.setOut_stays
    | with_reducible apply State.startPkt_stays
    | (extract_lets)
    | split)

end Sys2Proof.Machine
end

