-- ==== Sys2Proof/Laws/StaysMch.lean ====
section
/-! SUPPORT. Laws/Stays.lean, for the operations of Machine/Mch.lean. -/
namespace Sys2Proof.Machine

theorem State.pick_stays {w_ : List Part} {z s : State} (n : Nat) (used : List Nat) (hw : Has [.free] w_) (hk : Stays w_ z s) :
    QStays w_ z (State.pick s n used) := by
  unfold State.pick
  repeat' (first
    | with_reducible assumption
    | with_reducible exact Has.sub hw (by decide)
    | with_reducible exact Has.mem hw (by decide)
    | intro _
    | with_reducible apply QStays.ite
    | with_reducible apply Stays.ite
    | with_reducible apply QStays.snd
    | with_reducible apply State.draw_staysQ
    | with_reducible apply State.draw_stays
    | (extract_lets)
    | split
    | with_reducible apply QStays.pair
    | (with_reducible refine QStays.eq (by assumption) ?_))

theorem State.onMch_stays {w_ : List Part} {z s : State} (f : Mch → Mch) (hw : Has [.mch] w_) (hk : Stays w_ z s) : Stays w_ z
    (State.onMch s f) := by
  unfold State.onMch
  repeat' (first
    | with_reducible assumption
    | with_reducible exact Has.sub hw (by decide)
    | with_reducible exact Has.mem hw (by decide)
    | intro _
    | (extract_lets)
    | split
    | with_reducible apply Stays.set_mch)

theorem State.takeArw_stays {w_ : List Part} {z s : State} (a : Arr) (hw : Has [.trn] w_) (hk : Stays w_ z s) : Stays w_ z
    (State.takeArr s a) := by
  unfold State.takeArr
  repeat' (first
    | with_reducible assumption
    | with_reducible exact Has.sub hw (by decide)
    | with_reducible exact Has.mem hw (by decide)
    | intro _
    | (extract_lets)
    | split
    | with_reducible apply Stays.set_trn)

theorem State.cacheOrdew_stays {w_ : List Part} {z s : State} (k : Nat) (r : OrderRec) (hw : Has [.mch, .bst, .out, .free] w_) (hk
    : Stays w_ z s) : Stays w_ z (State.cacheOrder s k r) := by
  unfold State.cacheOrder
  repeat' (first
    | with_reducible assumption
    | with_reducible exact Has.sub hw (by decide)
    | with_reducible exact Has.mem hw (by decide)
    | intro _
    | with_reducible apply Stays.ite
    | with_reducible apply QStays.snd
    | with_reducible apply State.draw_staysQ
    | with_reducible apply State.draw_stays
    | with_reducible apply State.fillBank_stays
    | with_reducible apply State.hostWrite_stays
    | with_reducible apply State.onMch_stays
    | (extract_lets)
    | split
    | with_reducible apply QStays.pair
    | (with_reducible refine QStays.eq (by assumption) ?_))

theorem State.needOrdew_stays {w_ : List Part} {z s : State} (ep dir peer context : Nat) (hw : Has [.mch, .out] w_) (hk : Stays w_
    z s) : PStays w_ z (State.needOrder s ep dir peer context) := by
  unfold State.needOrder
  repeat' (first
    | with_reducible assumption
    | with_reducible exact Has.sub hw (by decide)
    | with_reducible exact Has.mem hw (by decide)
    | intro _
    | with_reducible apply PStays.ite
    | with_reducible apply Stays.ite
    | with_reducible apply PStays.fst
    | with_reducible apply State.hostRead_stays
    | with_reducible apply State.onMch_stays
    | (extract_lets)
    | split
    | with_reducible apply PStays.pair
    | (with_reducible refine PStays.eq (by assumption) ?_))

theorem State.orderReturn_stays {w_ : List Part} {z s : State} (i : Nat) (r : ReadResult) (hw : Has [.glb, .ctrs, .srcs, .banks,
    .hif, .mch, .bst, .out, .free] w_) (hk : Stays w_ z s) : Stays w_ z (State.orderReturn s i r) := by
  unfold State.orderReturn
  repeat' (first
    | with_reducible assumption
    | with_reducible exact Has.sub hw (by decide)
    | with_reducible exact Has.mem hw (by decide)
    | intro _
    | with_reducible apply State.cacheOrdew_stays
    | with_reducible apply State.onMch_stays
    | with_reducible apply State.raise_stays
    | (extract_lets)
    | split)

theorem State.setMsn_stays {w_ : List Part} {z s : State} (k : Nat) (msn : Psn) (hw : Has [.mch] w_) (hk : Stays w_ z s) : Stays
    w_ z (State.setMsn s k msn) := by
  unfold State.setMsn
  repeat' (first
    | with_reducible assumption
    | with_reducible exact Has.sub hw (by decide)
    | with_reducible exact Has.mem hw (by decide)
    | intro _
    | with_reducible apply State.onMch_stays
    | (extract_lets)
    | split)

theorem State.setPosted_stays {w_ : List Part} {z s : State} (ep : Nat) (l : List Posted) (hw : Has [.mch] w_) (hk : Stays w_ z s)
    : Stays w_ z (State.setPosted s ep l) := by
  unfold State.setPosted
  repeat' (first
    | with_reducible assumption
    | with_reducible exact Has.sub hw (by decide)
    | with_reducible exact Has.mem hw (by decide)
    | intro _
    | with_reducible apply State.onMch_stays
    | (extract_lets)
    | split)

theorem State.setOvew_stays {w_ : List Part} {z s : State} (ep : Nat) (l : List Posted) (hw : Has [.mch] w_) (hk : Stays w_ z s) :
    Stays w_ z (State.setOver s ep l) := by
  unfold State.setOver
  repeat' (first
    | with_reducible assumption
    | with_reducible exact Has.sub hw (by decide)
    | with_reducible exact Has.mem hw (by decide)
    | intro _
    | with_reducible apply State.onMch_stays
    | (extract_lets)
    | split)

theorem State.toOverflow_stays {w_ : List Part} {z s : State} (ep : Nat) (p : Posted) (hw : Has [.mch, .out, .free] w_) (hk :
    Stays w_ z s) : OptStays w_ z (State.toOverflow s ep p) := by
  unfold State.toOverflow
  repeat' (first
    | with_reducible assumption
    | with_reducible exact Has.sub hw (by decide)
    | with_reducible exact Has.mem hw (by decide)
    | intro _
    | with_reducible apply OptStays.ite
    | with_reducible apply Stays.ite
    | with_reducible apply QStays.snd
    | with_reducible apply State.draw_staysQ
    | with_reducible exact OptStays.none _
    | with_reducible apply OptStays.some
    | with_reducible apply State.hostWrite_stays
    | with_reducible apply State.pick_stays
    | with_reducible apply State.setOvew_stays
    | (extract_lets)
    | split
    | with_reducible apply QStays.pair
    | (with_reducible refine QStays.eq (by assumption) ?_)
    | (with_reducible refine OptStays.eq (by assumption) ?_))

theorem State.dropOvew_stays {w_ : List Part} {z s : State} (ep slot : Nat) (hw : Has [.mch, .out] w_) (hk : Stays w_ z s) : Stays
    w_ z (State.dropOver s ep slot) := by
  unfold State.dropOver
  repeat' (first
    | with_reducible assumption
    | with_reducible exact Has.sub hw (by decide)
    | with_reducible exact Has.mem hw (by decide)
    | intro _
    | with_reducible apply Stays.ite
    | with_reducible apply State.hostWrite_stays
    | with_reducible apply State.setOvew_stays
    | (extract_lets)
    | split)

theorem State.walkOvew_stays {w_ : List Part} {z s : State} (ep hp : Nat) (sat : Posted → Bool) (l : List Posted) (hw : Has [.mch,
    .out] w_) (hk : Stays w_ z s) : PStays w_ z (State.walkOver s ep hp sat l) := by
  induction l with
  | nil =>
    unfold State.walkOver
    repeat' (first
      | with_reducible assumption
      | with_reducible exact Has.sub hw (by decide)
      | with_reducible exact Has.mem hw (by decide)
      | with_reducible apply ih
      | with_reducible exact ih
      | intro _
      | with_reducible apply PStays.ite
      | with_reducible apply Stays.ite
      | with_reducible apply PStays.fst
      | with_reducible apply State.hostRead_stays
      | with_reducible apply State.onMch_stays
      | (extract_lets)
      | split
      | with_reducible apply PStays.pair
      | (with_reducible refine PStays.eq (by assumption) ?_))
  | cons x t ih =>
    unfold State.walkOver
    repeat' (first
      | with_reducible assumption
      | with_reducible exact Has.sub hw (by decide)
      | with_reducible exact Has.mem hw (by decide)
      | with_reducible apply ih
      | with_reducible exact ih
      | intro _
      | with_reducible apply PStays.ite
      | with_reducible apply Stays.ite
      | with_reducible apply PStays.fst
      | with_reducible apply State.hostRead_stays
      | with_reducible apply State.onMch_stays
      | (extract_lets)
      | split
      | with_reducible apply PStays.pair
      | (with_reducible refine PStays.eq (by assumption) ?_))

theorem State.endWalk_stays {w_ : List Part} {z s : State} (ep hp : Nat) (hw : Has [.mch] w_) (hk : Stays w_ z s) : Stays w_ z
    (State.endWalk s ep hp) := by
  unfold State.endWalk
  repeat' (first
    | with_reducible assumption
    | with_reducible exact Has.sub hw (by decide)
    | with_reducible exact Has.mem hw (by decide)
    | intro _
    | with_reducible apply State.onMch_stays
    | (extract_lets)
    | split)

theorem State.clearLane_stays {w_ : List Part} {z s : State} (ep job : Nat) (hw : Has [.mch] w_) (hk : Stays w_ z s) : Stays w_ z
    (State.clearLane s ep job) := by
  unfold State.clearLane
  repeat' (first
    | with_reducible assumption
    | with_reducible exact Has.sub hw (by decide)
    | with_reducible exact Has.mem hw (by decide)
    | intro _
    | with_reducible apply Stays.ite
    | with_reducible apply State.endWalk_stays
    | (extract_lets)
    | split)

theorem State.search_stays {w_ : List Part} {z s : State} (ep job : Nat) (sat : Posted → Bool) (hw : Has [.mch, .out] w_) (hk :
    Stays w_ z s) : PStays w_ z (State.search s ep job sat) := by
  unfold State.search
  repeat' (first
    | with_reducible assumption
    | with_reducible exact Has.sub hw (by decide)
    | with_reducible exact Has.mem hw (by decide)
    | intro _
    | with_reducible apply PStays.ite
    | with_reducible apply Stays.ite
    | with_reducible apply PStays.fst
    | with_reducible apply State.clearLane_stays
    | with_reducible apply State.endWalk_stays
    | with_reducible apply State.onMch_stays
    | with_reducible apply State.walkOvew_stays
    | (extract_lets)
    | split
    | with_reducible apply PStays.pair
    | (with_reducible refine PStays.eq (by assumption) ?_))

theorem State.unpost_stays {w_ : List Part} {z s : State} (ep : Nat) (x : Found) (hw : Has [.mch, .out] w_) (hk : Stays w_ z s) :
    Stays w_ z (State.unpost s ep x) := by
  cases x
  all_goals
    unfold State.unpost
    repeat' (first
      | with_reducible assumption
      | with_reducible exact Has.sub hw (by decide)
      | with_reducible exact Has.mem hw (by decide)
      | intro _
      | with_reducible apply State.dropOvew_stays
      | with_reducible apply State.setPosted_stays
      | (extract_lets)
      | split)

theorem State.overflowReturn_stays {w_ : List Part} {z s : State} (i : Nat) (r : ReadResult) (hw : Has [.glb, .ctrs, .srcs,
    .banks, .hif, .mch, .out] w_) (hk : Stays w_ z s) : Stays w_ z (State.overflowReturn s i r) := by
  unfold State.overflowReturn
  repeat' (first
    | with_reducible assumption
    | with_reducible exact Has.sub hw (by decide)
    | with_reducible exact Has.mem hw (by decide)
    | intro _
    | with_reducible apply State.bump_stays
    | with_reducible apply State.onMch_stays
    | with_reducible apply State.raise_stays
    | (extract_lets)
    | split)

theorem State.setHdw_stays {w_ : List Part} {z s : State} (i : Nat) (h : MHdr) (hw : Has [.mch] w_) (hk : Stays w_ z s) : Stays w_
    z (State.setHdr s i h) := by
  unfold State.setHdr
  repeat' (first
    | with_reducible assumption
    | with_reducible exact Has.sub hw (by decide)
    | with_reducible exact Has.mem hw (by decide)
    | intro _
    | with_reducible apply State.onMch_stays
    | (extract_lets)
    | split)

theorem State.hdrAlloc_stays {w_ : List Part} {z s : State} (f : Nat) (hw : Has [.free] w_) (hk : Stays w_ z s) : QStays w_ z
    (State.hdrAlloc s f) := by
  unfold State.hdrAlloc
  repeat' (first
    | with_reducible assumption
    | with_reducible exact Has.sub hw (by decide)
    | with_reducible exact Has.mem hw (by decide)
    | intro _
    | with_reducible apply QStays.ite
    | with_reducible apply Stays.ite
    | with_reducible apply QStays.snd
    | with_reducible apply State.draw_staysQ
    | with_reducible apply State.pick_stays
    | (extract_lets)
    | split
    | with_reducible apply QStays.pair
    | (with_reducible refine QStays.eq (by assumption) ?_))

theorem State.returnLanding_stays {w_ : List Part} {z s : State} (b : Nat) (hw : Has [.glb, .ctrs, .srcs, .banks, .hif, .mch,
    .out, .free] w_) (hk : Stays w_ z s) : Stays w_ z (State.returnLanding s b) := by
  unfold State.returnLanding
  repeat' (first
    | with_reducible assumption
    | with_reducible exact Has.sub hw (by decide)
    | with_reducible exact Has.mem hw (by decide)
    | intro _
    | with_reducible apply Stays.ite
    | with_reducible apply State.onMch_stays
    | with_reducible apply State.rxPost_stays
    | (extract_lets)
    | split)

theorem State.unland_stays {w_ : List Part} {z s : State} (h : MHdr) (hw : Has [.glb, .ctrs, .srcs, .banks, .hif, .mch, .out,
    .free] w_) (hk : Stays w_ z s) : Stays w_ z (State.unland s h) := by
  unfold State.unland
  repeat' (first
    | with_reducible assumption
    | with_reducible exact Has.sub hw (by decide)
    | with_reducible exact Has.mem hw (by decide)
    | intro _
    | with_reducible apply State.onMch_stays
    | with_reducible apply State.returnLanding_stays
    | (extract_lets)
    | split)

theorem State.landReserve_stays {w_ : List Part} {z s : State} (ep len : Nat) (hw : Has [.glb, .ctrs, .srcs, .banks, .hif, .mch,
    .out, .free] w_) (hk : Stays w_ z s) : OptPStays w_ z (State.landReserve s ep len) := by
  unfold State.landReserve
  repeat' (first
    | with_reducible assumption
    | with_reducible exact Has.sub hw (by decide)
    | with_reducible exact Has.mem hw (by decide)
    | intro _
    | with_reducible apply OptPStays.ite
    | with_reducible apply Stays.ite
    | with_reducible apply Stays.foldl
    | with_reducible apply PStays.foldl
    | with_reducible apply QStays.foldl
    | with_reducible apply PStays.fst
    | with_reducible apply QStays.snd
    | with_reducible apply State.draw_staysQ
    | with_reducible exact OptPStays.none _
    | with_reducible apply OptPStays.some
    | with_reducible apply State.onMch_stays
    | with_reducible apply State.returnLanding_stays
    | (extract_lets)
    | split
    | with_reducible apply PStays.pair
    | with_reducible apply QStays.pair
    | (with_reducible refine PStays.eq (by assumption) ?_)
    | (with_reducible refine QStays.eq (by assumption) ?_)
    | (with_reducible refine OptPStays.eq (by assumption) ?_))

theorem State.completeRecv_stays {w_ : List Part} {z s : State} (i : Nat) (h : MHdr) (status detail : Nat) (hw : Has [.glb, .ctrs,
    .srcs, .banks, .hif, .mch, .out, .free] w_) (hk : Stays w_ z s) : Stays w_ z (State.completeRecv s i h status detail) := by
  unfold State.completeRecv
  repeat' (first
    | with_reducible assumption
    | with_reducible exact Has.sub hw (by decide)
    | with_reducible exact Has.mem hw (by decide)
    | intro _
    | with_reducible apply Stays.ite
    | with_reducible apply State.bumpIf_stays
    | with_reducible apply State.freeHdw_stays
    | with_reducible apply State.rxPost_stays
    | with_reducible apply State.setHdw_stays
    | with_reducible apply State.unland_stays
    | (extract_lets)
    | split)

theorem State.cancelPosted_stays {w_ : List Part} {z s : State} (ep : Nat) (p : Posted) (detail : Nat) (hw : Has [.glb, .ctrs,
    .srcs, .banks, .hif, .mch, .out, .free] w_) (hk : Stays w_ z s) : Stays w_ z (State.cancelPosted s ep p detail) := by
  unfold State.cancelPosted
  repeat' (first
    | with_reducible assumption
    | with_reducible exact Has.sub hw (by decide)
    | with_reducible exact Has.mem hw (by decide)
    | intro _
    | with_reducible apply QStays.snd
    | with_reducible apply State.draw_staysQ
    | with_reducible apply State.draw_stays
    | with_reducible apply State.rxPost_stays
    | (extract_lets)
    | split
    | with_reducible apply QStays.pair
    | (with_reducible refine QStays.eq (by assumption) ?_))

theorem State.placeMsg_stays {w_ : List Part} {z s : State} (i : Nat) (h : MHdr) (off : Nat) (d : Data) (hw : Has [.regs, .mch]
    w_) (hk : Stays w_ z s) : Stays w_ z (State.placeMsg s i h off d) := by
  unfold State.placeMsg
  repeat' (first
    | with_reducible assumption
    | with_reducible exact Has.sub hw (by decide)
    | with_reducible exact Has.mem hw (by decide)
    | intro _
    | with_reducible apply Stays.ite
    | with_reducible apply State.put_stays
    | with_reducible apply State.setHdw_stays
    | (extract_lets)
    | split)

theorem State.sendRvGet_stays {w_ : List Part} {z s : State} (i : Nat) (h : MHdr) (len : Nat) (abandon : Bool) (hw : Has [.ctrs,
    .lnk, .rte, .sch, .trn, .free] w_) (hk : Stays w_ z s) : Stays w_ z (State.sendRvGet s i h len abandon) := by
  unfold State.sendRvGet
  repeat' (first
    | with_reducible assumption
    | with_reducible exact Has.sub hw (by decide)
    | with_reducible exact Has.mem hw (by decide)
    | intro _
    | with_reducible apply Stays.ite
    | with_reducible apply State.abandon_stays
    | with_reducible apply State.newOp_stays
    | (extract_lets)
    | split)

theorem State.paiw_stays {w_ : List Part} {z s : State} (i : Nat) (h : MHdr) (r : Recv) (hw : Has [.ctrs, .lnk, .rte, .sch, .trn,
    .mch, .free] w_) (hk : Stays w_ z s) : Stays w_ z (State.pair s i h r) := by
  unfold State.pair
  repeat' (first
    | with_reducible assumption
    | with_reducible exact Has.sub hw (by decide)
    | with_reducible exact Has.mem hw (by decide)
    | intro _
    | with_reducible apply Stays.ite
    | with_reducible apply Stays.foldl
    | with_reducible apply PStays.foldl
    | with_reducible apply QStays.foldl
    | with_reducible apply PStays.fst
    | with_reducible apply QStays.snd
    | with_reducible apply State.draw_staysQ
    | with_reducible apply State.bump_stays
    | with_reducible apply State.sendRvGet_stays
    | with_reducible apply State.setHdw_stays
    | (extract_lets)
    | split
    | with_reducible apply PStays.pair
    | with_reducible apply QStays.pair
    | (with_reducible refine PStays.eq (by assumption) ?_)
    | (with_reducible refine QStays.eq (by assumption) ?_))

theorem State.mchRefuse_stays {w_ : List Part} {z s : State} (a : Arr) (hw : Has [.glb, .ctrs, .srcs, .banks, .hif, .trn, .out,
    .free] w_) (hk : Stays w_ z s) : Stays w_ z (State.mchRefuse s a) := by
  unfold State.mchRefuse
  repeat' (first
    | with_reducible assumption
    | with_reducible exact Has.sub hw (by decide)
    | with_reducible exact Has.mem hw (by decide)
    | intro _
    | with_reducible apply State.bump_stays
    | with_reducible apply State.raise_stays
    | with_reducible apply State.refuseEp_stays
    | with_reducible apply State.takeArw_stays
    | (extract_lets)
    | split)

theorem State.stray_stays {w_ : List Part} {z s : State} (a : Arr) (hw : Has [.ctrs, .trn] w_) (hk : Stays w_ z s) : Stays w_ z
    (State.stray s a) := by
  unfold State.stray
  repeat' (first
    | with_reducible assumption
    | with_reducible exact Has.sub hw (by decide)
    | with_reducible exact Has.mem hw (by decide)
    | intro _
    | with_reducible apply State.bump_stays
    | with_reducible apply State.takeArw_stays
    | (extract_lets)
    | split)

theorem State.nextSeq_stays {w_ : List Part} {z s : State} (hw : Has [.mch] w_) (hk : Stays w_ z s) : Stays w_ z (State.nextSeq s)
    := by
  unfold State.nextSeq
  repeat' (first
    | with_reducible assumption
    | with_reducible exact Has.sub hw (by decide)
    | with_reducible exact Has.mem hw (by decide)
    | intro _
    | with_reducible apply State.onMch_stays
    | (extract_lets)
    | split)

theorem State.toUnexpected_stays {w_ : List Part} {z s : State} (i : Nat) (h : MHdr) (hw : Has [.ctrs, .mch] w_) (hk : Stays w_ z
    s) : Stays w_ z (State.toUnexpected s i h) := by
  unfold State.toUnexpected
  repeat' (first
    | with_reducible assumption
    | with_reducible exact Has.sub hw (by decide)
    | with_reducible exact Has.mem hw (by decide)
    | intro _
    | with_reducible apply State.bump_stays
    | with_reducible apply State.nextSeq_stays
    | with_reducible apply State.setHdw_stays
    | (extract_lets)
    | split)

theorem State.release_stays {w_ : List Part} {z s : State} (ep source context : Nat) (n : Nat) (hw : Has [.ctrs, .lnk, .rte, .sch,
    .trn, .mch, .out, .free] w_) (hk : Stays w_ z s) : Stays w_ z (State.release s ep source context n) := by
  induction n generalizing s with
  | zero =>
    unfold State.release
    repeat' (first
      | with_reducible assumption
      | with_reducible exact Has.sub hw (by decide)
      | with_reducible exact Has.mem hw (by decide)
      | with_reducible apply ih
      | intro _
      | with_reducible apply PStays.fst
      | with_reducible apply State.freeHdw_stays
      | with_reducible apply State.needOrdew_stays
      | with_reducible apply State.paiw_stays
      | with_reducible apply State.search_stays
      | with_reducible apply State.setMsn_stays
      | with_reducible apply State.toUnexpected_stays
      | with_reducible apply State.unpost_stays
      | (extract_lets)
      | split
      | with_reducible apply PStays.pair
      | (with_reducible refine PStays.eq (by assumption) ?_))
  | succ n ih =>
    unfold State.release
    repeat' (first
      | with_reducible assumption
      | with_reducible exact Has.sub hw (by decide)
      | with_reducible exact Has.mem hw (by decide)
      | with_reducible apply ih
      | intro _
      | with_reducible apply PStays.fst
      | with_reducible apply State.freeHdw_stays
      | with_reducible apply State.needOrdew_stays
      | with_reducible apply State.paiw_stays
      | with_reducible apply State.search_stays
      | with_reducible apply State.setMsn_stays
      | with_reducible apply State.toUnexpected_stays
      | with_reducible apply State.unpost_stays
      | (extract_lets)
      | split
      | with_reducible apply PStays.pair
      | (with_reducible refine PStays.eq (by assumption) ?_))

theorem State.releaseAll_stays {w_ : List Part} {z s : State} (hw : Has [.ctrs, .lnk, .rte, .sch, .trn, .mch, .out, .free] w_) (hk
    : Stays w_ z s) : Stays w_ z (State.releaseAll s) := by
  unfold State.releaseAll
  repeat' (first
    | with_reducible assumption
    | with_reducible exact Has.sub hw (by decide)
    | with_reducible exact Has.mem hw (by decide)
    | intro _
    | with_reducible apply Stays.ite
    | with_reducible apply Stays.foldl
    | with_reducible apply PStays.foldl
    | with_reducible apply QStays.foldl
    | with_reducible apply QStays.snd
    | with_reducible apply State.draw_staysQ
    | with_reducible apply State.release_stays
    | (extract_lets)
    | split
    | with_reducible apply QStays.pair
    | (with_reducible refine QStays.eq (by assumption) ?_))

theorem State.refuseKeep_stays {w_ : List Part} {z s : State} (a : Arr) (i : Nat) (h : MHdr) (hw : Has [.glb, .ctrs, .srcs,
    .banks, .hif, .trn, .mch, .out, .free] w_) (hk : Stays w_ z s) : Stays w_ z (State.refuseKeep s a i h) := by
  unfold State.refuseKeep
  repeat' (first
    | with_reducible assumption
    | with_reducible exact Has.sub hw (by decide)
    | with_reducible exact Has.mem hw (by decide)
    | intro _
    | with_reducible apply State.mchRefuse_stays
    | with_reducible apply State.setHdw_stays
    | (extract_lets)
    | split)

theorem State.arriveAhead_stays {w_ : List Part} {z s : State} (a : Arr) (i : Nat) (h : MHdr) (hw : Has [.glb, .regs, .ctrs,
    .srcs, .banks, .hif, .trn, .mch, .out, .free] w_) (hk : Stays w_ z s) : Stays w_ z (State.arriveAhead s a i h) := by
  unfold State.arriveAhead
  repeat' (first
    | with_reducible assumption
    | with_reducible exact Has.sub hw (by decide)
    | with_reducible exact Has.mem hw (by decide)
    | intro _
    | with_reducible apply Stays.ite
    | with_reducible exact OptPStays.none _
    | with_reducible apply OptPStays.some
    | with_reducible apply State.bump_stays
    | with_reducible apply State.landReserve_stays
    | with_reducible apply State.placeMsg_stays
    | with_reducible apply State.refuseKeep_stays
    | with_reducible apply State.takeArw_stays
    | (extract_lets)
    | split
    | (with_reducible refine OptPStays.eq (by assumption) ?_))

theorem State.arriveNow_stays {w_ : List Part} {z s : State} (a : Arr) (i : Nat) (h : MHdr) (k : Nat) (r : OrderRec) (hw : Has
    [.glb, .regs, .ctrs, .srcs, .banks, .lnk, .rte, .sch, .hif, .trn, .mch, .out, .free] w_) (hk : Stays w_ z s) : Stays w_ z
    (State.arriveNow s a i h k r) := by
  unfold State.arriveNow
  repeat' (first
    | with_reducible assumption
    | with_reducible exact Has.sub hw (by decide)
    | with_reducible exact Has.mem hw (by decide)
    | intro _
    | with_reducible apply Stays.ite
    | with_reducible apply PStays.fst
    | with_reducible exact OptPStays.none _
    | with_reducible apply OptPStays.some
    | with_reducible apply State.landReserve_stays
    | with_reducible apply State.mchRefuse_stays
    | with_reducible apply State.paiw_stays
    | with_reducible apply State.placeMsg_stays
    | with_reducible apply State.refuseKeep_stays
    | with_reducible apply State.release_stays
    | with_reducible apply State.search_stays
    | with_reducible apply State.setMsn_stays
    | with_reducible apply State.takeArw_stays
    | with_reducible apply State.toUnexpected_stays
    | with_reducible apply State.unpost_stays
    | (extract_lets)
    | split
    | with_reducible apply PStays.pair
    | (with_reducible refine PStays.eq (by assumption) ?_)
    | (with_reducible refine OptPStays.eq (by assumption) ?_))

theorem State.arriveNew_stays {w_ : List Part} {z s : State} (a : Arr) (rndv : Bool) (k : Nat) (r : OrderRec) (hw : Has [.glb,
    .regs, .ctrs, .srcs, .banks, .lnk, .rte, .sch, .hif, .trn, .mch, .out, .free] w_) (hk : Stays w_ z s) : Stays w_ z
    (State.arriveNew s a rndv k r) := by
  unfold State.arriveNew
  repeat' (first
    | with_reducible assumption
    | with_reducible exact Has.sub hw (by decide)
    | with_reducible exact Has.mem hw (by decide)
    | intro _
    | with_reducible apply Stays.ite
    | with_reducible apply QStays.snd
    | with_reducible apply State.draw_staysQ
    | with_reducible apply State.arriveAhead_stays
    | with_reducible apply State.arriveNow_stays
    | with_reducible apply State.hdrAlloc_stays
    | with_reducible apply State.mchRefuse_stays
    | with_reducible apply State.stray_stays
    | (extract_lets)
    | split
    | with_reducible apply QStays.pair
    | (with_reducible refine QStays.eq (by assumption) ?_))

theorem State.onMsg_stays {w_ : List Part} {z s : State} (a : Arr) (rndv : Bool) (hw : Has [.glb, .regs, .ctrs, .srcs, .banks,
    .lnk, .rte, .sch, .hif, .trn, .mch, .out, .free] w_) (hk : Stays w_ z s) : Stays w_ z (State.onMsg s a rndv) := by
  unfold State.onMsg
  repeat' (first
    | with_reducible assumption
    | with_reducible exact Has.sub hw (by decide)
    | with_reducible exact Has.mem hw (by decide)
    | intro _
    | with_reducible apply Stays.ite
    | with_reducible apply PStays.fst
    | with_reducible apply State.arriveNew_stays
    | with_reducible apply State.freeHdw_stays
    | with_reducible apply State.mchRefuse_stays
    | with_reducible apply State.needOrdew_stays
    | with_reducible apply State.placeMsg_stays
    | with_reducible apply State.stray_stays
    | with_reducible apply State.takeArw_stays
    | (extract_lets)
    | split
    | with_reducible apply PStays.pair
    | (with_reducible refine PStays.eq (by assumption) ?_))

theorem State.onSkip_stays {w_ : List Part} {z s : State} (a : Arr) (hw : Has [.glb, .ctrs, .srcs, .banks, .lnk, .rte, .sch, .hif,
    .trn, .mch, .out, .free] w_) (hk : Stays w_ z s) : Stays w_ z (State.onSkip s a) := by
  unfold State.onSkip
  repeat' (first
    | with_reducible assumption
    | with_reducible exact Has.sub hw (by decide)
    | with_reducible exact Has.mem hw (by decide)
    | intro _
    | with_reducible apply Stays.ite
    | with_reducible apply PStays.fst
    | with_reducible apply QStays.snd
    | with_reducible apply State.draw_staysQ
    | with_reducible apply State.bump_stays
    | with_reducible apply State.completeRecv_stays
    | with_reducible apply State.freeHdw_stays
    | with_reducible apply State.hdrAlloc_stays
    | with_reducible apply State.mchRefuse_stays
    | with_reducible apply State.needOrdew_stays
    | with_reducible apply State.release_stays
    | with_reducible apply State.setHdw_stays
    | with_reducible apply State.setMsn_stays
    | with_reducible apply State.takeArw_stays
    | with_reducible apply State.unland_stays
    | (extract_lets)
    | split
    | with_reducible apply PStays.pair
    | with_reducible apply QStays.pair
    | (with_reducible refine PStays.eq (by assumption) ?_)
    | (with_reducible refine QStays.eq (by assumption) ?_))

theorem State.flushPend_stays {w_ : List Part} {z s : State} (i : Nat) (n : Nat) (hw : Has [.regs, .ctrs, .mch, .xlt, .out, .free]
    w_) (hk : Stays w_ z s) : Stays w_ z (State.flushPend s i n) := by
  induction n generalizing s with
  | zero =>
    unfold State.flushPend
    repeat' (first
      | with_reducible assumption
      | with_reducible exact Has.sub hw (by decide)
      | with_reducible exact Has.mem hw (by decide)
      | with_reducible apply ih
      | intro _
      | with_reducible apply Stays.ite
      | with_reducible apply PStays.fst
      | with_reducible apply State.bumpBy_stays
      | with_reducible apply State.put_stays
      | with_reducible apply State.readRun_stays
      | with_reducible apply State.setHdw_stays
      | with_reducible apply State.writePieces_stays
      | with_reducible apply State.xlateRun_stays
      | (extract_lets)
      | split
      | with_reducible apply PStays.pair
      | (with_reducible refine PStays.eq (by assumption) ?_))
  | succ n ih =>
    unfold State.flushPend
    repeat' (first
      | with_reducible assumption
      | with_reducible exact Has.sub hw (by decide)
      | with_reducible exact Has.mem hw (by decide)
      | with_reducible apply ih
      | intro _
      | with_reducible apply Stays.ite
      | with_reducible apply PStays.fst
      | with_reducible apply State.bumpBy_stays
      | with_reducible apply State.put_stays
      | with_reducible apply State.readRun_stays
      | with_reducible apply State.setHdw_stays
      | with_reducible apply State.writePieces_stays
      | with_reducible apply State.xlateRun_stays
      | (extract_lets)
      | split
      | with_reducible apply PStays.pair
      | (with_reducible refine PStays.eq (by assumption) ?_))

theorem State.closeMsg_stays {w_ : List Part} {z s : State} (i : Nat) (hw : Has [.glb, .ctrs, .srcs, .banks, .hif, .mch, .out,
    .free] w_) (hk : Stays w_ z s) : Stays w_ z (State.closeMsg s i) := by
  unfold State.closeMsg
  repeat' (first
    | with_reducible assumption
    | with_reducible exact Has.sub hw (by decide)
    | with_reducible exact Has.mem hw (by decide)
    | intro _
    | with_reducible apply Stays.ite
    | with_reducible apply State.completeRecv_stays
    | with_reducible apply State.setHdw_stays
    | with_reducible apply State.unland_stays
    | (extract_lets)
    | split)

theorem State.settleCancels_stays {w_ : List Part} {z s : State} (hw : Has [.hif, .mch, .free] w_) (hk : Stays w_ z s) : Stays w_
    z (State.settleCancels s) := by
  unfold State.settleCancels
  repeat' (first
    | with_reducible assumption
    | with_reducible exact Has.sub hw (by decide)
    | with_reducible exact Has.mem hw (by decide)
    | intro _
    | with_reducible apply Stays.foldl
    | with_reducible apply PStays.foldl
    | with_reducible apply QStays.foldl
    | with_reducible apply PStays.fst
    | with_reducible apply QStays.snd
    | with_reducible apply State.draw_staysQ
    | with_reducible apply State.finishEntry_stays
    | with_reducible apply State.onMch_stays
    | (extract_lets)
    | split
    | with_reducible apply PStays.pair
    | with_reducible apply QStays.pair
    | (with_reducible refine PStays.eq (by assumption) ?_)
    | (with_reducible refine QStays.eq (by assumption) ?_))

theorem State.settleMch_stays {w_ : List Part} {z s : State} (hw : Has [.glb, .regs, .ctrs, .srcs, .banks, .lnk, .rte, .sch, .hif,
    .trn, .mch, .xlt, .out, .free] w_) (hk : Stays w_ z s) : Stays w_ z (State.settleMch s) := by
  unfold State.settleMch
  repeat' (first
    | with_reducible assumption
    | with_reducible exact Has.sub hw (by decide)
    | with_reducible exact Has.mem hw (by decide)
    | intro _
    | with_reducible apply Stays.foldl
    | with_reducible apply PStays.foldl
    | with_reducible apply QStays.foldl
    | with_reducible apply State.closeMsg_stays
    | with_reducible apply State.flushPend_stays
    | with_reducible apply State.releaseAll_stays
    | with_reducible apply State.settleCancels_stays
    | (extract_lets)
    | split)

end Sys2Proof.Machine
end

