-- ==== Sys2Proof/Laws/StaysRma.lean ====
section
/-! SUPPORT. Laws/Stays.lean, for the operations of Machine/Rma.lean. -/
namespace Sys2Proof.Machine

theorem State.onRma_stays {w_ : List Part} {z s : State} (f : Rma → Rma) (hw : Has [.rma] w_) (hk : Stays w_ z s) : Stays w_ z
    (State.onRma s f) := by
  unfold State.onRma
  repeat' (first
    | with_reducible assumption
    | with_reducible exact Has.sub hw (by decide)
    | with_reducible exact Has.mem hw (by decide)
    | intro _
    | (extract_lets)
    | split
    | with_reducible apply Stays.set_rma)

theorem State.addRef_stays {w_ : List Part} {z s : State} (uid : Nat) (hw : Has [.rma] w_) (hk : Stays w_ z s) : Stays w_ z
    (State.addRef s uid) := by
  unfold State.addRef
  repeat' (first
    | with_reducible assumption
    | with_reducible exact Has.sub hw (by decide)
    | with_reducible exact Has.mem hw (by decide)
    | intro _
    | with_reducible apply State.onRma_stays
    | (extract_lets)
    | split)

theorem State.dropRef_stays {w_ : List Part} {z s : State} (uid : Nat) (hw : Has [.rma] w_) (hk : Stays w_ z s) : Stays w_ z
    (State.dropRef s uid) := by
  unfold State.dropRef
  repeat' (first
    | with_reducible assumption
    | with_reducible exact Has.sub hw (by decide)
    | with_reducible exact Has.mem hw (by decide)
    | intro _
    | with_reducible apply State.onRma_stays
    | (extract_lets)
    | split)

theorem State.setKey_stays {w_ : List Part} {z s : State} (i : Nat) (k : Option KeySt) (hw : Has [.rma] w_) (hk : Stays w_ z s) :
    Stays w_ z (State.setKey s i k) := by
  unfold State.setKey
  repeat' (first
    | with_reducible assumption
    | with_reducible exact Has.sub hw (by decide)
    | with_reducible exact Has.mem hw (by decide)
    | intro _
    | with_reducible apply State.onRma_stays
    | (extract_lets)
    | split)

theorem State.cacheDesc_stays {w_ : List Part} {z s : State} (i raw : Nat) (hw : Has [.rma, .bst, .free] w_) (hk : Stays w_ z s) :
    Stays w_ z (State.cacheDesc s i raw) := by
  unfold State.cacheDesc
  repeat' (first
    | with_reducible assumption
    | with_reducible exact Has.sub hw (by decide)
    | with_reducible exact Has.mem hw (by decide)
    | intro _
    | with_reducible apply Stays.ite
    | with_reducible apply State.fillBank_stays
    | with_reducible apply State.onRma_stays
    | (extract_lets)
    | split)

theorem State.setRaw_stays {w_ : List Part} {z s : State} (i raw : Nat) (hw : Has [.rma, .bst, .free] w_) (hk : Stays w_ z s) :
    Stays w_ z (State.setRaw s i raw) := by
  unfold State.setRaw
  repeat' (first
    | with_reducible assumption
    | with_reducible exact Has.sub hw (by decide)
    | with_reducible exact Has.mem hw (by decide)
    | intro _
    | with_reducible apply State.cacheDesc_stays
    | with_reducible apply State.onRma_stays
    | (extract_lets)
    | split)

theorem State.needDesc_stays {w_ : List Part} {z s : State} (i : Nat) (hw : Has [.ctrs, .rma, .xlt, .out, .free] w_) (hk : Stays
    w_ z s) : PStays w_ z (State.needDesc s i) := by
  unfold State.needDesc
  repeat' (first
    | with_reducible assumption
    | with_reducible exact Has.sub hw (by decide)
    | with_reducible exact Has.mem hw (by decide)
    | intro _
    | with_reducible apply PStays.ite
    | with_reducible apply Stays.ite
    | with_reducible apply PStays.fst
    | with_reducible apply QStays.snd
    | with_reducible apply State.draw_staysQ
    | with_reducible apply State.ask_stays
    | with_reducible apply State.bump_stays
    | with_reducible apply State.draw_stays
    | with_reducible apply State.hostRead_stays
    | with_reducible apply State.onRma_stays
    | (extract_lets)
    | split
    | with_reducible apply PStays.pair
    | with_reducible apply QStays.pair
    | (with_reducible refine PStays.eq (by assumption) ?_)
    | (with_reducible refine QStays.eq (by assumption) ?_))

theorem State.descReturn_stays {w_ : List Part} {z s : State} (n : Nat) (r : ReadResult) (hw : Has [.glb, .ctrs, .srcs, .banks,
    .hif, .rma, .bst, .out, .free] w_) (hk : Stays w_ z s) : Stays w_ z (State.descReturn s n r) := by
  unfold State.descReturn
  repeat' (first
    | with_reducible assumption
    | with_reducible exact Has.sub hw (by decide)
    | with_reducible exact Has.mem hw (by decide)
    | intro _
    | with_reducible apply Stays.ite
    | with_reducible apply State.cacheDesc_stays
    | with_reducible apply State.onRma_stays
    | with_reducible apply State.raise_stays
    | (extract_lets)
    | split)

theorem State.rmaCheck_stays {w_ : List Part} {z s : State} (a : Arr) (right len align : Nat) (spec : Bool) (hw : Has [.ctrs,
    .rma, .xlt, .out, .free] w_) (hk : Stays w_ z s) : PStays w_ z (State.rmaCheck s a right len align spec) := by
  unfold State.rmaCheck
  repeat' (first
    | with_reducible assumption
    | with_reducible exact Has.sub hw (by decide)
    | with_reducible exact Has.mem hw (by decide)
    | intro _
    | with_reducible apply PStays.ite
    | with_reducible apply Stays.ite
    | with_reducible apply PStays.fst
    | with_reducible apply State.needDesc_stays
    | (extract_lets)
    | split
    | with_reducible apply PStays.pair
    | (with_reducible refine PStays.eq (by assumption) ?_))

theorem State.rmaRefuse_stays {w_ : List Part} {z s : State} (a : Arr) (detail : Nat) (hw : Has [.glb, .ctrs, .srcs, .banks, .hif,
    .trn, .out, .free] w_) (hk : Stays w_ z s) : Stays w_ z (State.rmaRefuse s a detail) := by
  unfold State.rmaRefuse
  repeat' (first
    | with_reducible assumption
    | with_reducible exact Has.sub hw (by decide)
    | with_reducible exact Has.mem hw (by decide)
    | intro _
    | with_reducible apply Stays.ite
    | with_reducible apply State.bump_stays
    | with_reducible apply State.bumpIf_stays
    | with_reducible apply State.raise_stays
    | with_reducible apply State.result_stays
    | with_reducible apply State.takeArw_stays
    | (extract_lets)
    | split)

theorem State.rmaFull_stays {w_ : List Part} {z s : State} (a : Arr) (hw : Has [.ctrs, .trn, .free] w_) (hk : Stays w_ z s) :
    Stays w_ z (State.rmaFull s a) := by
  unfold State.rmaFull
  repeat' (first
    | with_reducible assumption
    | with_reducible exact Has.sub hw (by decide)
    | with_reducible exact Has.mem hw (by decide)
    | intro _
    | with_reducible apply State.bump_stays
    | with_reducible apply State.result_stays
    | with_reducible apply State.takeArw_stays
    | (extract_lets)
    | split)

theorem State.rmaFail_stays {w_ : List Part} {z s : State} (a : Arr) (origin : OpOrigin) (detail : Nat) (hw : Has [.trn, .free]
    w_) (hk : Stays w_ z s) : Stays w_ z (State.rmaFail s a origin detail) := by
  unfold State.rmaFail
  repeat' (first
    | with_reducible assumption
    | with_reducible exact Has.sub hw (by decide)
    | with_reducible exact Has.mem hw (by decide)
    | intro _
    | with_reducible apply State.result_stays
    | (extract_lets)
    | split)

theorem State.onPut_stays {w_ : List Part} {z s : State} (a : Arr) (hw : Has [.glb, .ctrs, .srcs, .banks, .hif, .trn, .rma, .xlt,
    .out, .free] w_) (hk : Stays w_ z s) : Stays w_ z (State.onPut s a) := by
  unfold State.onPut
  repeat' (first
    | with_reducible assumption
    | with_reducible exact Has.sub hw (by decide)
    | with_reducible exact Has.mem hw (by decide)
    | intro _
    | with_reducible apply Stays.ite
    | with_reducible apply PStays.fst
    | with_reducible apply State.bump_stays
    | with_reducible apply State.payload_stays
    | with_reducible apply State.result_stays
    | with_reducible apply State.rmaCheck_stays
    | with_reducible apply State.rmaFail_stays
    | with_reducible apply State.rmaFull_stays
    | with_reducible apply State.rmaRefuse_stays
    | with_reducible apply State.takeArw_stays
    | with_reducible apply State.writePieces_stays
    | with_reducible apply State.xlateRun_stays
    | (extract_lets)
    | split
    | with_reducible apply PStays.pair
    | (with_reducible refine PStays.eq (by assumption) ?_))

theorem State.onGet_stays {w_ : List Part} {z s : State} (a : Arr) (hw : Has [.glb, .ctrs, .srcs, .banks, .hif, .trn, .rma, .xlt,
    .out, .free] w_) (hk : Stays w_ z s) : Stays w_ z (State.onGet s a) := by
  unfold State.onGet
  repeat' (first
    | with_reducible assumption
    | with_reducible exact Has.sub hw (by decide)
    | with_reducible exact Has.mem hw (by decide)
    | intro _
    | with_reducible apply Stays.ite
    | with_reducible apply PStays.fst
    | with_reducible apply State.addRef_stays
    | with_reducible apply State.bump_stays
    | with_reducible apply State.newOp_stays
    | with_reducible apply State.rmaCheck_stays
    | with_reducible apply State.rmaFull_stays
    | with_reducible apply State.rmaRefuse_stays
    | with_reducible apply State.takeArw_stays
    | (extract_lets)
    | split
    | with_reducible apply PStays.pair
    | (with_reducible refine PStays.eq (by assumption) ?_))

theorem State.readGet_stays {w_ : List Part} {z s : State} (i : Nat) (o : Op) (hw : Has [.ctrs, .trn, .rma, .xlt, .out, .free] w_)
    (hk : Stays w_ z s) : Stays w_ z (State.readGet s i o) := by
  unfold State.readGet
  repeat' (first
    | with_reducible assumption
    | with_reducible exact Has.sub hw (by decide)
    | with_reducible exact Has.mem hw (by decide)
    | intro _
    | with_reducible apply Stays.ite
    | with_reducible apply PStays.fst
    | with_reducible apply State.finishOp_stays
    | with_reducible apply State.onRma_stays
    | with_reducible apply State.readRun_stays
    | with_reducible apply State.xlateRun_stays
    | (extract_lets)
    | split
    | with_reducible apply PStays.pair
    | (with_reducible refine PStays.eq (by assumption) ?_))

theorem State.onAtomic_stays {w_ : List Part} {z s : State} (a : Arr) (hw : Has [.glb, .ctrs, .srcs, .banks, .hif, .trn, .rma,
    .xlt, .out, .free] w_) (hk : Stays w_ z s) : Stays w_ z (State.onAtomic s a) := by
  unfold State.onAtomic
  repeat' (first
    | with_reducible assumption
    | with_reducible exact Has.sub hw (by decide)
    | with_reducible exact Has.mem hw (by decide)
    | intro _
    | with_reducible apply PStays.fst
    | with_reducible apply State.addRef_stays
    | with_reducible apply State.onRma_stays
    | with_reducible apply State.rmaCheck_stays
    | with_reducible apply State.rmaFull_stays
    | with_reducible apply State.rmaRefuse_stays
    | with_reducible apply State.takeArw_stays
    | (extract_lets)
    | split
    | with_reducible apply PStays.pair
    | (with_reducible refine PStays.eq (by assumption) ?_))

theorem State.setAtomic_stays {w_ : List Part} {z s : State} (x : Atomic) (hw : Has [.rma] w_) (hk : Stays w_ z s) : Stays w_ z
    (State.setAtomic s x) := by
  unfold State.setAtomic
  repeat' (first
    | with_reducible assumption
    | with_reducible exact Has.sub hw (by decide)
    | with_reducible exact Has.mem hw (by decide)
    | intro _
    | with_reducible apply Stays.ite
    | with_reducible apply State.onRma_stays
    | (extract_lets)
    | split)

theorem State.endAtomic_stays {w_ : List Part} {z s : State} (x : Atomic) (hw : Has [.rma] w_) (hk : Stays w_ z s) : Stays w_ z
    (State.endAtomic s x) := by
  unfold State.endAtomic
  repeat' (first
    | with_reducible assumption
    | with_reducible exact Has.sub hw (by decide)
    | with_reducible exact Has.mem hw (by decide)
    | intro _
    | with_reducible apply State.dropRef_stays
    | with_reducible apply State.onRma_stays
    | (extract_lets)
    | split)

theorem State.answerAtomic_stays {w_ : List Part} {z s : State} (x : Atomic) (old : Nat) (hw : Has [.ctrs, .trn, .rma, .free] w_)
    (hk : Stays w_ z s) : Stays w_ z (State.answerAtomic s x old) := by
  unfold State.answerAtomic
  repeat' (first
    | with_reducible assumption
    | with_reducible exact Has.sub hw (by decide)
    | with_reducible exact Has.mem hw (by decide)
    | intro _
    | with_reducible apply Stays.ite
    | with_reducible apply State.answew_stays
    | with_reducible apply State.bump_stays
    | with_reducible apply State.endAtomic_stays
    | with_reducible apply State.onRma_stays
    | with_reducible apply State.result_stays
    | (extract_lets)
    | split)

theorem State.failAtomic_stays {w_ : List Part} {z s : State} (x : Atomic) (detail : Nat) (hw : Has [.glb, .ctrs, .srcs, .banks,
    .hif, .trn, .rma, .out, .free] w_) (hk : Stays w_ z s) : Stays w_ z (State.failAtomic s x detail) := by
  unfold State.failAtomic
  repeat' (first
    | with_reducible assumption
    | with_reducible exact Has.sub hw (by decide)
    | with_reducible exact Has.mem hw (by decide)
    | intro _
    | with_reducible apply Stays.ite
    | with_reducible apply State.endAtomic_stays
    | with_reducible apply State.raise_stays
    | with_reducible apply State.rmaFail_stays
    | (extract_lets)
    | split)

theorem State.issueAtomicOp_stays {w_ : List Part} {z s : State} (x : Atomic) (identity op : Nat) (d : Data) (hw : Has [.ctrs,
    .out] w_) (hk : Stays w_ z s) : Stays w_ z (State.issueAtomicOp s x identity op d) := by
  unfold State.issueAtomicOp
  repeat' (first
    | with_reducible assumption
    | with_reducible exact Has.sub hw (by decide)
    | with_reducible exact Has.mem hw (by decide)
    | intro _
    | with_reducible apply State.bump_stays
    | with_reducible apply State.emit_stays
    | (extract_lets)
    | split)

theorem State.startHost_stays {w_ : List Part} {z s : State} (x : Atomic) (identity : Nat) (hw : Has [.ctrs, .rma, .out] w_) (hk :
    Stays w_ z s) : Stays w_ z (State.startHost s x identity) := by
  unfold State.startHost
  repeat' (first
    | with_reducible assumption
    | with_reducible exact Has.sub hw (by decide)
    | with_reducible exact Has.mem hw (by decide)
    | intro _
    | with_reducible apply Stays.ite
    | with_reducible apply State.hostRead_stays
    | with_reducible apply State.issueAtomicOp_stays
    | with_reducible apply State.onRma_stays
    | with_reducible apply State.setAtomic_stays
    | (extract_lets)
    | split)

theorem State.casHost_stays {w_ : List Part} {z s : State} (x : Atomic) (identity seen tries : Nat) (hw : Has [.ctrs, .rma, .out]
    w_) (hk : Stays w_ z s) : Stays w_ z (State.casHost s x identity seen tries) := by
  unfold State.casHost
  repeat' (first
    | with_reducible assumption
    | with_reducible exact Has.sub hw (by decide)
    | with_reducible exact Has.mem hw (by decide)
    | intro _
    | with_reducible apply State.issueAtomicOp_stays
    | with_reducible apply State.setAtomic_stays
    | (extract_lets)
    | split)

theorem State.atomicExecute_stays {w_ : List Part} {z s : State} (id : Nat) (hw : Has [.ctrs, .trn, .rma, .xlt, .out, .free] w_)
    (hk : Stays w_ z s) : Stays w_ z (State.atomicExecute s id) := by
  unfold State.atomicExecute
  repeat' (first
    | with_reducible assumption
    | with_reducible exact Has.sub hw (by decide)
    | with_reducible exact Has.mem hw (by decide)
    | intro _
    | with_reducible apply Stays.ite
    | with_reducible apply PStays.fst
    | with_reducible apply State.answerAtomic_stays
    | with_reducible apply State.casHost_stays
    | with_reducible apply State.endAtomic_stays
    | with_reducible apply State.hostRead_stays
    | with_reducible apply State.hostWrite_stays
    | with_reducible apply State.onRma_stays
    | with_reducible apply State.rmaFail_stays
    | with_reducible apply State.setAtomic_stays
    | with_reducible apply State.startHost_stays
    | with_reducible apply State.xlate_stays
    | (extract_lets)
    | split
    | with_reducible apply PStays.pair
    | (with_reducible refine PStays.eq (by assumption) ?_))

theorem State.atomicCompletion_stays {w_ : List Part} {z s : State} (id : Nat) (r : ReadResult) (hw : Has [.glb, .ctrs, .srcs,
    .banks, .hif, .trn, .rma, .out, .free] w_) (hk : Stays w_ z s) : Stays w_ z (State.atomicCompletion s id r) := by
  unfold State.atomicCompletion
  repeat' (first
    | with_reducible assumption
    | with_reducible exact Has.sub hw (by decide)
    | with_reducible exact Has.mem hw (by decide)
    | intro _
    | with_reducible apply Stays.ite
    | with_reducible apply State.answerAtomic_stays
    | with_reducible apply State.bump_stays
    | with_reducible apply State.casHost_stays
    | with_reducible apply State.failAtomic_stays
    | with_reducible apply State.setAtomic_stays
    | (extract_lets)
    | split)

theorem State.dataReturn_stays {w_ : List Part} {z s : State} (n : Nat) (r : ReadResult) (hw : Has [.glb, .ctrs, .srcs, .banks,
    .hif, .trn, .rma, .out, .free] w_) (hk : Stays w_ z s) : Stays w_ z (State.dataReturn s n r) := by
  unfold State.dataReturn
  repeat' (first
    | with_reducible assumption
    | with_reducible exact Has.sub hw (by decide)
    | with_reducible exact Has.mem hw (by decide)
    | intro _
    | with_reducible apply Stays.ite
    | with_reducible apply State.failAtomic_stays
    | with_reducible apply State.finishOp_stays
    | with_reducible apply State.onRma_stays
    | with_reducible apply State.raise_stays
    | with_reducible apply State.setAtomic_stays
    | with_reducible apply State.setOp_stays
    | (extract_lets)
    | split)

theorem State.prefetched_stays {w_ : List Part} {z s : State} (o : Op) (d : Data) (hw : Has [.brg] w_) (hk : Stays w_ z s) : Stays
    w_ z (State.prefetched s o d) := by
  unfold State.prefetched
  repeat' (first
    | with_reducible assumption
    | with_reducible exact Has.sub hw (by decide)
    | with_reducible exact Has.mem hw (by decide)
    | intro _
    | with_reducible apply Stays.ite
    | (extract_lets)
    | split
    | with_reducible apply Stays.set_brg)

theorem State.onGetData_stays {w_ : List Part} {z s : State} (a : Arr) (hw : Has [.ctrs, .trn, .brg, .xlt, .out, .free] w_) (hk :
    Stays w_ z s) : Stays w_ z (State.onGetData s a) := by
  unfold State.onGetData
  repeat' (first
    | with_reducible assumption
    | with_reducible exact Has.sub hw (by decide)
    | with_reducible exact Has.mem hw (by decide)
    | intro _
    | with_reducible apply Stays.ite
    | with_reducible apply PStays.fst
    | with_reducible apply State.finishOp_stays
    | with_reducible apply State.payload_stays
    | with_reducible apply State.prefetched_stays
    | with_reducible apply State.setOp_stays
    | with_reducible apply State.takeArw_stays
    | with_reducible apply State.writePieces_stays
    | with_reducible apply State.xlateRun_stays
    | (extract_lets)
    | split
    | with_reducible apply PStays.pair
    | (with_reducible refine PStays.eq (by assumption) ?_))

theorem State.onAtomicData_stays {w_ : List Part} {z s : State} (a : Arr) (hw : Has [.ctrs, .trn, .xlt, .out, .free] w_) (hk :
    Stays w_ z s) : Stays w_ z (State.onAtomicData s a) := by
  unfold State.onAtomicData
  repeat' (first
    | with_reducible assumption
    | with_reducible exact Has.sub hw (by decide)
    | with_reducible exact Has.mem hw (by decide)
    | intro _
    | with_reducible apply Stays.ite
    | with_reducible apply PStays.fst
    | with_reducible apply State.finishOp_stays
    | with_reducible apply State.payload_stays
    | with_reducible apply State.setOp_stays
    | with_reducible apply State.takeArw_stays
    | with_reducible apply State.writePieces_stays
    | with_reducible apply State.xlateRun_stays
    | (extract_lets)
    | split
    | with_reducible apply PStays.pair
    | (with_reducible refine PStays.eq (by assumption) ?_))

theorem State.startRevoke_stays {w_ : List Part} {z s : State} (i : Nat) (by_ : Option (Nat × RingCtr)) (hw : Has [.rma, .bst,
    .free] w_) (hk : Stays w_ z s) : Stays w_ z (State.startRevoke s i by_) := by
  unfold State.startRevoke
  repeat' (first
    | with_reducible assumption
    | with_reducible exact Has.sub hw (by decide)
    | with_reducible exact Has.mem hw (by decide)
    | intro _
    | with_reducible apply State.setKey_stays
    | with_reducible apply State.setRaw_stays
    | (extract_lets)
    | split)

theorem State.revoked_stays {w_ : List Part} {z s : State} (i : Nat) (k : KeySt) (hw : Has [.ctrs, .hif, .rma] w_) (hk : Stays w_
    z s) : Stays w_ z (State.revoked s i k) := by
  unfold State.revoked
  repeat' (first
    | with_reducible assumption
    | with_reducible exact Has.sub hw (by decide)
    | with_reducible exact Has.mem hw (by decide)
    | intro _
    | with_reducible apply State.bump_stays
    | with_reducible apply State.finishEntry_stays
    | with_reducible apply State.setKey_stays
    | (extract_lets)
    | split)

theorem State.endRevoke_stays {w_ : List Part} {z s : State} (i : Nat) (hw : Has [.ctrs, .hif, .rma, .bst, .xlt, .out, .free] w_)
    (hk : Stays w_ z s) : Stays w_ z (State.endRevoke s i) := by
  unfold State.endRevoke
  repeat' (first
    | with_reducible assumption
    | with_reducible exact Has.sub hw (by decide)
    | with_reducible exact Has.mem hw (by decide)
    | intro _
    | with_reducible apply Stays.ite
    | with_reducible apply PStays.fst
    | with_reducible apply State.hostWrite_stays
    | with_reducible apply State.needDesc_stays
    | with_reducible apply State.revoked_stays
    | with_reducible apply State.setRaw_stays
    | (extract_lets)
    | split
    | with_reducible apply PStays.pair
    | (with_reducible refine PStays.eq (by assumption) ?_))

theorem State.endTables_stays {w_ : List Part} {z s : State} (hw : Has [.regs, .rma, .free] w_) (hk : Stays w_ z s) : Stays w_ z
    (State.endTables s) := by
  unfold State.endTables
  repeat' (first
    | with_reducible assumption
    | with_reducible exact Has.sub hw (by decide)
    | with_reducible exact Has.mem hw (by decide)
    | intro _
    | with_reducible apply Stays.ite
    | with_reducible apply Stays.foldl
    | with_reducible apply PStays.foldl
    | with_reducible apply QStays.foldl
    | with_reducible apply PStays.fst
    | with_reducible apply QStays.snd
    | with_reducible apply State.draw_staysQ
    | with_reducible apply State.onRma_stays
    | with_reducible apply State.setWord_stays
    | (extract_lets)
    | split
    | with_reducible apply PStays.pair
    | with_reducible apply QStays.pair
    | (with_reducible refine PStays.eq (by assumption) ?_)
    | (with_reducible refine QStays.eq (by assumption) ?_))

end Sys2Proof.Machine
end

