-- ==== Sys2Proof/Laws/StaysLck.lean ====
section
/-! SUPPORT. Laws/Stays.lean, for the operations of Machine/Lck.lean. -/
namespace Sys2Proof.Machine

theorem State.setCell_stays {w_ : List Part} {z s : State} (c : Nat) (v : Cell) (hw : Has [.lck] w_) (hk : Stays w_ z s) : Stays
    w_ z (State.setCell s c v) := by
  unfold State.setCell
  repeat' (first
    | with_reducible assumption
    | with_reducible exact Has.sub hw (by decide)
    | with_reducible exact Has.mem hw (by decide)
    | intro _
    | (extract_lets)
    | split
    | with_reducible apply Stays.set_lck)

theorem State.tellInherit_stays {w_ : List Part} {z s : State} (c : Nat) (hw : Has [.glb, .ctrs, .srcs, .banks, .hif, .lck, .out]
    w_) (hk : Stays w_ z s) : Stays w_ z (State.tellInherit s c) := by
  unfold State.tellInherit
  repeat' (first
    | with_reducible assumption
    | with_reducible exact Has.sub hw (by decide)
    | with_reducible exact Has.mem hw (by decide)
    | intro _
    | with_reducible apply Stays.ite
    | with_reducible apply State.raise_stays
    | with_reducible apply State.setCell_stays
    | (extract_lets)
    | split)

theorem State.cellGranted_stays {w_ : List Part} {z s : State} (c : Nat) (hw : Has [.hif, .lck, .free] w_) (hk : Stays w_ z s) :
    Stays w_ z (State.cellGranted s c) := by
  unfold State.cellGranted
  repeat' (first
    | with_reducible assumption
    | with_reducible exact Has.sub hw (by decide)
    | with_reducible exact Has.mem hw (by decide)
    | intro _
    | with_reducible apply Stays.foldl
    | with_reducible apply PStays.foldl
    | with_reducible apply QStays.foldl
    | with_reducible apply PStays.fst
    | with_reducible apply QStays.snd
    | with_reducible apply State.draw_staysQ
    | with_reducible apply State.finishEntry_stays
    | with_reducible apply State.setCell_stays
    | (extract_lets)
    | split
    | with_reducible apply PStays.pair
    | with_reducible apply QStays.pair
    | (with_reducible refine PStays.eq (by assumption) ?_)
    | (with_reducible refine QStays.eq (by assumption) ?_))

theorem State.cellRefused_stays {w_ : List Part} {z s : State} (c i detail : Nat) (hw : Has [.hif, .lck, .free] w_) (hk : Stays w_
    z s) : Stays w_ z (State.cellRefused s c i detail) := by
  unfold State.cellRefused
  repeat' (first
    | with_reducible assumption
    | with_reducible exact Has.sub hw (by decide)
    | with_reducible exact Has.mem hw (by decide)
    | intro _
    | with_reducible apply Stays.foldl
    | with_reducible apply PStays.foldl
    | with_reducible apply QStays.foldl
    | with_reducible apply PStays.fst
    | with_reducible apply QStays.snd
    | with_reducible apply State.draw_staysQ
    | with_reducible apply State.finishEntry_stays
    | with_reducible apply State.setCell_stays
    | (extract_lets)
    | split
    | with_reducible apply PStays.pair
    | with_reducible apply QStays.pair
    | (with_reducible refine PStays.eq (by assumption) ?_)
    | (with_reducible refine QStays.eq (by assumption) ?_))

theorem State.cellAcquire_stays {w_ : List Part} {z s : State} (c i p : Nat) (hw : Has [.glb, .ctrs, .srcs, .banks, .hif, .lck,
    .out, .free] w_) (hk : Stays w_ z s) : Stays w_ z (State.cellAcquire s c i p) := by
  unfold State.cellAcquire
  repeat' (first
    | with_reducible assumption
    | with_reducible exact Has.sub hw (by decide)
    | with_reducible exact Has.mem hw (by decide)
    | intro _
    | with_reducible apply Stays.ite
    | with_reducible apply State.bump_stays
    | with_reducible apply State.cellGranted_stays
    | with_reducible apply State.cellRefused_stays
    | with_reducible apply State.raise_stays
    | with_reducible apply State.setCell_stays
    | with_reducible apply State.tellInherit_stays
    | (extract_lets)
    | split)

theorem State.cellHandovew_stays {w_ : List Part} {z s : State} (c : Nat) (abandoned : Bool) (hw : Has [.glb, .ctrs, .srcs,
    .banks, .hif, .lck, .out, .free] w_) (hk : Stays w_ z s) : Stays w_ z (State.cellHandover s c abandoned) := by
  unfold State.cellHandover
  repeat' (first
    | with_reducible assumption
    | with_reducible exact Has.sub hw (by decide)
    | with_reducible exact Has.mem hw (by decide)
    | intro _
    | with_reducible apply State.bump_stays
    | with_reducible apply State.cellGranted_stays
    | with_reducible apply State.setCell_stays
    | with_reducible apply State.tellInherit_stays
    | (extract_lets)
    | split)

theorem State.cellRelease_stays {w_ : List Part} {z s : State} (c i : Nat) (hw : Has [.glb, .ctrs, .srcs, .banks, .hif, .lck,
    .out, .free] w_) (hk : Stays w_ z s) : Stays w_ z (State.cellRelease s c i) := by
  unfold State.cellRelease
  repeat' (first
    | with_reducible assumption
    | with_reducible exact Has.sub hw (by decide)
    | with_reducible exact Has.mem hw (by decide)
    | intro _
    | with_reducible apply Stays.ite
    | with_reducible apply State.bump_stays
    | with_reducible apply State.cellHandovew_stays
    | with_reducible apply State.raise_stays
    | (extract_lets)
    | split)

theorem State.cellWithdraw_stays {w_ : List Part} {z s : State} (c i : Nat) (hw : Has [.hif, .lck, .free] w_) (hk : Stays w_ z s)
    : Stays w_ z (State.cellWithdraw s c i) := by
  unfold State.cellWithdraw
  repeat' (first
    | with_reducible assumption
    | with_reducible exact Has.sub hw (by decide)
    | with_reducible exact Has.mem hw (by decide)
    | intro _
    | with_reducible apply State.cellRefused_stays
    | with_reducible apply State.setCell_stays
    | (extract_lets)
    | split)

theorem State.cellReg_stays {w_ : List Part} {z s : State} (req : Requester) (c op p i : Nat) (hw : Has [.glb, .ctrs, .srcs,
    .banks, .hif, .lck, .out, .free] w_) (hk : Stays w_ z s) : Stays w_ z (State.cellReg s req c op p i) := by
  unfold State.cellReg
  repeat' (first
    | with_reducible assumption
    | with_reducible exact Has.sub hw (by decide)
    | with_reducible exact Has.mem hw (by decide)
    | intro _
    | with_reducible apply Stays.ite
    | with_reducible apply QStays.snd
    | with_reducible apply State.draw_staysQ
    | with_reducible apply State.bump_stays
    | with_reducible apply State.cellAcquire_stays
    | with_reducible apply State.cellRelease_stays
    | with_reducible apply State.cellWithdraw_stays
    | (extract_lets)
    | split
    | with_reducible apply QStays.pair
    | (with_reducible refine QStays.eq (by assumption) ?_))

theorem State.cellResetIdentity_stays {w_ : List Part} {z s : State} (i : Nat) (hw : Has [.glb, .ctrs, .srcs, .banks, .hif, .lck,
    .out, .free] w_) (hk : Stays w_ z s) : Stays w_ z (State.cellResetIdentity s i) := by
  unfold State.cellResetIdentity
  repeat' (first
    | with_reducible assumption
    | with_reducible exact Has.sub hw (by decide)
    | with_reducible exact Has.mem hw (by decide)
    | intro _
    | with_reducible apply Stays.ite
    | with_reducible apply Stays.foldl
    | with_reducible apply PStays.foldl
    | with_reducible apply QStays.foldl
    | with_reducible apply QStays.snd
    | with_reducible apply State.draw_staysQ
    | with_reducible apply State.bump_stays
    | with_reducible apply State.cellHandovew_stays
    | with_reducible apply State.cellWithdraw_stays
    | with_reducible apply State.raise_stays
    | (extract_lets)
    | split
    | with_reducible apply QStays.pair
    | (with_reducible refine QStays.eq (by assumption) ?_))

theorem State.cellEntry_stays {w_ : List Part} {z s : State} (q op : Nat) (go : Sq → Ent → State) (h_go : ∀ u0 u1, Stays w_ z (go
    u0 u1)) (hw : Has [.ctrs, .hif] w_) (hk : Stays w_ z s) : Stays w_ z (State.cellEntry s q op go) := by
  unfold State.cellEntry
  repeat' (first
    | with_reducible assumption
    | with_reducible exact Has.sub hw (by decide)
    | with_reducible exact Has.mem hw (by decide)
    | intro _
    | with_reducible apply Stays.ite
    | with_reducible apply State.bump_stays
    | with_reducible apply State.finishEntry_stays
    | with_reducible apply h_go
    | (extract_lets)
    | split)

theorem State.cellDone_stays {w_ : List Part} {z s : State} (q : Nat) (e : Ent) (bytes : Nat) (hw : Has [.hif] w_) (hk : Stays w_
    z s) : Stays w_ z (State.cellDone s q e bytes) := by
  unfold State.cellDone
  repeat' (first
    | with_reducible assumption
    | with_reducible exact Has.sub hw (by decide)
    | with_reducible exact Has.mem hw (by decide)
    | intro _
    | with_reducible apply State.finishEntry_stays
    | (extract_lets)
    | split)

theorem execCellAcquire_stays {w_ : List Part} {z s : State} (via : CellVia) (hw : Has [.glb, .ctrs, .srcs, .banks, .hif, .lck,
    .out, .free] w_) (hk : Stays w_ z s) : OutStays w_ z (execCellAcquire via s) := by
  unfold execCellAcquire
  repeat' (first
    | with_reducible assumption
    | with_reducible exact Has.sub hw (by decide)
    | with_reducible exact Has.mem hw (by decide)
    | intro _
    | with_reducible apply OutStays.next
    | with_reducible apply State.cellAcquire_stays
    | with_reducible apply State.cellEntry_stays
    | with_reducible apply State.cellReg_stays
    | with_reducible apply State.runEntry_stays
    | with_reducible apply State.setCell_stays
    | (extract_lets)
    | split)

theorem execCellTry_stays {w_ : List Part} {z s : State} (q : Nat) (hw : Has [.glb, .ctrs, .srcs, .banks, .hif, .lck, .out, .free]
    w_) (hk : Stays w_ z s) : OutStays w_ z (execCellTry q s) := by
  unfold execCellTry
  repeat' (first
    | with_reducible assumption
    | with_reducible exact Has.sub hw (by decide)
    | with_reducible exact Has.mem hw (by decide)
    | intro _
    | with_reducible apply OutStays.ite
    | with_reducible apply Stays.ite
    | with_reducible apply OutStays.next
    | with_reducible apply State.cellAcquire_stays
    | with_reducible apply State.cellDone_stays
    | with_reducible apply State.cellEntry_stays
    | (extract_lets)
    | split)

theorem execCellRelease_stays {w_ : List Part} {z s : State} (via : CellVia) (hw : Has [.glb, .ctrs, .srcs, .banks, .hif, .lck,
    .out, .free] w_) (hk : Stays w_ z s) : OutStays w_ z (execCellRelease via s) := by
  unfold execCellRelease
  repeat' (first
    | with_reducible assumption
    | with_reducible exact Has.sub hw (by decide)
    | with_reducible exact Has.mem hw (by decide)
    | intro _
    | with_reducible apply OutStays.next
    | with_reducible apply State.cellDone_stays
    | with_reducible apply State.cellEntry_stays
    | with_reducible apply State.cellReg_stays
    | with_reducible apply State.cellRelease_stays
    | (extract_lets)
    | split)

theorem execCellWithdraw_stays {w_ : List Part} {z s : State} (via : CellVia) (hw : Has [.glb, .ctrs, .srcs, .banks, .hif, .lck,
    .out, .free] w_) (hk : Stays w_ z s) : OutStays w_ z (execCellWithdraw via s) := by
  unfold execCellWithdraw
  repeat' (first
    | with_reducible assumption
    | with_reducible exact Has.sub hw (by decide)
    | with_reducible exact Has.mem hw (by decide)
    | intro _
    | with_reducible apply QStays.snd
    | with_reducible apply State.draw_staysQ
    | with_reducible apply OutStays.next
    | with_reducible apply State.cellDone_stays
    | with_reducible apply State.cellEntry_stays
    | with_reducible apply State.cellReg_stays
    | with_reducible apply State.cellWithdraw_stays
    | (extract_lets)
    | split
    | with_reducible apply QStays.pair
    | (with_reducible refine QStays.eq (by assumption) ?_))

theorem State.flRefuse_stays {w_ : List Part} {z s : State} (a : Arr) (reason : Nat) (hw : Has [.glb, .ctrs, .srcs, .banks, .hif,
    .trn, .out, .free] w_) (hk : Stays w_ z s) : Stays w_ z (State.flRefuse s a reason) := by
  unfold State.flRefuse
  repeat' (first
    | with_reducible assumption
    | with_reducible exact Has.sub hw (by decide)
    | with_reducible exact Has.mem hw (by decide)
    | intro _
    | with_reducible apply State.bump_stays
    | with_reducible apply State.raise_stays
    | with_reducible apply State.result_stays
    | with_reducible apply State.takeArw_stays
    | (extract_lets)
    | split)

theorem State.onFl_stays {w_ : List Part} {z s : State} (a : Arr) (hm : HostView) (hw : Has [.glb, .ctrs, .srcs, .banks, .hif,
    .trn, .rma, .xlt, .out, .free] w_) (hk : Stays w_ z s) : Stays w_ z (State.onFl s a hm) := by
  unfold State.onFl
  repeat' (first
    | with_reducible assumption
    | with_reducible exact Has.sub hw (by decide)
    | with_reducible exact Has.mem hw (by decide)
    | intro _
    | with_reducible apply Stays.ite
    | with_reducible apply PStays.fst
    | with_reducible apply QStays.snd
    | with_reducible apply State.draw_staysQ
    | with_reducible apply State.answew_stays
    | with_reducible apply State.bump_stays
    | with_reducible apply State.bumpIf_stays
    | with_reducible apply State.draw_stays
    | with_reducible apply State.flRefuse_stays
    | with_reducible apply State.hostRead_stays
    | with_reducible apply State.hostWrite_stays
    | with_reducible apply State.onRma_stays
    | with_reducible apply State.payload_stays
    | with_reducible apply State.raise_stays
    | with_reducible apply State.rmaCheck_stays
    | with_reducible apply State.rmaFail_stays
    | with_reducible apply State.rmaFull_stays
    | with_reducible apply State.rmaRefuse_stays
    | with_reducible apply State.takeArw_stays
    | with_reducible apply State.xlate_stays
    | (extract_lets)
    | split
    | with_reducible apply PStays.pair
    | with_reducible apply QStays.pair
    | (with_reducible refine PStays.eq (by assumption) ?_)
    | (with_reducible refine QStays.eq (by assumption) ?_))

theorem State.setRec_stays {w_ : List Part} {z s : State} (i : Nat) (r : Option FlRec) (hw : Has [.lck] w_) (hk : Stays w_ z s) :
    Stays w_ z (State.setRec s i r) := by
  unfold State.setRec
  repeat' (first
    | with_reducible assumption
    | with_reducible exact Has.sub hw (by decide)
    | with_reducible exact Has.mem hw (by decide)
    | intro _
    | (extract_lets)
    | split
    | with_reducible apply Stays.set_lck)

theorem State.flFinish_stays {w_ : List Part} {z s : State} (q : Nat) (ctr : RingCtr) (r : Res) (hw : Has [.regs, .hif, .trn,
    .free] w_) (hk : Stays w_ z s) : Stays w_ z (State.flFinish s q ctr r) := by
  unfold State.flFinish
  repeat' (first
    | with_reducible assumption
    | with_reducible exact Has.sub hw (by decide)
    | with_reducible exact Has.mem hw (by decide)
    | intro _
    | with_reducible apply Stays.ite
    | with_reducible apply State.finishEntry_stays
    | with_reducible apply State.put_stays
    | with_reducible apply State.result_stays
    | (extract_lets)
    | split)

theorem State.sendFl_stays {w_ : List Part} {z s : State} (origin : OpOrigin) (src : Nat × Nat) (identity ep target key offset op
    ticket d : Nat) (viaCmd : Bool) (way : FlWay) (hw : Has [.trn, .free] w_) (hk : Stays w_ z s) : Stays w_ z (State.sendFl s
    origin src identity ep target key offset op ticket d viaCmd way) := by
  unfold State.sendFl
  repeat' (first
    | with_reducible assumption
    | with_reducible exact Has.sub hw (by decide)
    | with_reducible exact Has.mem hw (by decide)
    | intro _
    | with_reducible apply State.newOp_stays
    | (extract_lets)
    | split)

theorem State.flCommand_stays {w_ : List Part} {z s : State} (req : Requester) (op : Nat) (go : State → FlAsk → State) (h_go : ∀
    u0 u1, Stays w_ z u0 → Stays w_ z (go u0 u1)) (hw : Has [.regs, .hif, .trn, .lck, .free] w_) (hk : Stays w_ z s) : Stays w_ z
    (State.flCommand s req op go) := by
  unfold State.flCommand
  repeat' (first
    | with_reducible assumption
    | with_reducible exact Has.sub hw (by decide)
    | with_reducible exact Has.mem hw (by decide)
    | intro _
    | with_reducible apply Stays.ite
    | with_reducible apply State.flFinish_stays
    | with_reducible apply State.put_stays
    | with_reducible apply h_go
    | (extract_lets)
    | split
    | with_reducible apply Stays.set_lck)

theorem State.flStart_stays {w_ : List Part} {z s : State} (via : FlVia) (op : Nat) (go : State → FlAsk → State) (h_go : ∀ u0 u1,
    Stays w_ z u0 → Stays w_ z (go u0 u1)) (hw : Has [.regs, .hif, .trn, .lck, .free] w_) (hk : Stays w_ z s) : Stays w_ z
    (State.flStart s via op go) := by
  unfold State.flStart
  repeat' (first
    | with_reducible assumption
    | with_reducible exact Has.sub hw (by decide)
    | with_reducible exact Has.mem hw (by decide)
    | intro _
    | with_reducible apply State.flCommand_stays
    | with_reducible apply State.runEntry_stays
    | with_reducible apply h_go
    | (extract_lets)
    | split)

theorem State.flAcquire_stays {w_ : List Part} {z s : State} (k : FlAsk) (hw : Has [.regs, .hif, .trn, .lck, .free] w_) (hk :
    Stays w_ z s) : Stays w_ z (State.flAcquire s k) := by
  unfold State.flAcquire
  repeat' (first
    | with_reducible assumption
    | with_reducible exact Has.sub hw (by decide)
    | with_reducible exact Has.mem hw (by decide)
    | intro _
    | with_reducible apply QStays.snd
    | with_reducible apply State.draw_staysQ
    | with_reducible apply State.flFinish_stays
    | with_reducible apply State.pick_stays
    | with_reducible apply State.sendFl_stays
    | with_reducible apply State.setRec_stays
    | (extract_lets)
    | split
    | with_reducible apply QStays.pair
    | (with_reducible refine QStays.eq (by assumption) ?_))

theorem State.flOnHeld_stays {w_ : List Part} {z s : State} (k : FlAsk) (op : Nat) (hw : Has [.regs, .hif, .trn, .free] w_) (hk :
    Stays w_ z s) : Stays w_ z (State.flOnHeld s k op) := by
  unfold State.flOnHeld
  repeat' (first
    | with_reducible assumption
    | with_reducible exact Has.sub hw (by decide)
    | with_reducible exact Has.mem hw (by decide)
    | intro _
    | with_reducible apply State.flFinish_stays
    | with_reducible apply State.sendFl_stays
    | (extract_lets)
    | split)

theorem State.flBreak_stays {w_ : List Part} {z s : State} (k : FlAsk) (hw : Has [.trn, .free] w_) (hk : Stays w_ z s) : Stays w_
    z (State.flBreak s k) := by
  unfold State.flBreak
  repeat' (first
    | with_reducible assumption
    | with_reducible exact Has.sub hw (by decide)
    | with_reducible exact Has.mem hw (by decide)
    | intro _
    | with_reducible apply State.sendFl_stays
    | (extract_lets)
    | split)

theorem State.flPollSend_stays {w_ : List Part} {z s : State} (i : Nat) (hw : Has [.trn, .lck, .free] w_) (hk : Stays w_ z s) :
    Stays w_ z (State.flPollSend s i) := by
  unfold State.flPollSend
  repeat' (first
    | with_reducible assumption
    | with_reducible exact Has.sub hw (by decide)
    | with_reducible exact Has.mem hw (by decide)
    | intro _
    | with_reducible apply Stays.ite
    | with_reducible apply State.sendFl_stays
    | with_reducible apply State.setRec_stays
    | (extract_lets)
    | split)

theorem State.flAbandonRec_stays {w_ : List Part} {z s : State} (i : Nat) (r : FlRec) (hw : Has [.trn, .free] w_) (hk : Stays w_ z
    s) : Stays w_ z (State.flAbandonRec s i r) := by
  unfold State.flAbandonRec
  repeat' (first
    | with_reducible assumption
    | with_reducible exact Has.sub hw (by decide)
    | with_reducible exact Has.mem hw (by decide)
    | intro _
    | with_reducible apply State.sendFl_stays
    | (extract_lets)
    | split)

theorem State.flResetIdentity_stays {w_ : List Part} {z s : State} (ident : Nat) (hw : Has [.trn, .lck, .free] w_) (hk : Stays w_
    z s) : Stays w_ z (State.flResetIdentity s ident) := by
  unfold State.flResetIdentity
  repeat' (first
    | with_reducible assumption
    | with_reducible exact Has.sub hw (by decide)
    | with_reducible exact Has.mem hw (by decide)
    | intro _
    | with_reducible apply Stays.ite
    | with_reducible apply Stays.foldl
    | with_reducible apply PStays.foldl
    | with_reducible apply QStays.foldl
    | with_reducible apply PStays.fst
    | with_reducible apply QStays.snd
    | with_reducible apply State.draw_staysQ
    | with_reducible apply State.flAbandonRec_stays
    | with_reducible apply State.setRec_stays
    | (extract_lets)
    | split
    | with_reducible apply PStays.pair
    | with_reducible apply QStays.pair
    | (with_reducible refine PStays.eq (by assumption) ?_)
    | (with_reducible refine QStays.eq (by assumption) ?_))

theorem State.flGranted_stays {w_ : List Part} {z s : State} (i : Nat) (r : FlRec) (ticket w : Nat) (hw : Has [.regs, .hif, .trn,
    .lck, .free] w_) (hk : Stays w_ z s) : Stays w_ z (State.flGranted s i r ticket w) := by
  unfold State.flGranted
  repeat' (first
    | with_reducible assumption
    | with_reducible exact Has.sub hw (by decide)
    | with_reducible exact Has.mem hw (by decide)
    | intro _
    | with_reducible apply Stays.ite
    | with_reducible apply State.flAbandonRec_stays
    | with_reducible apply State.flFinish_stays
    | with_reducible apply State.setRec_stays
    | (extract_lets)
    | split)

theorem State.flReply_stays {w_ : List Part} {z s : State} (n : Nat) (o : Op) (out w : Nat) (hw : Has [.regs, .hif, .trn, .lck,
    .free] w_) (hk : Stays w_ z s) : Stays w_ z (State.flReply s n o out w) := by
  unfold State.flReply
  repeat' (first
    | with_reducible assumption
    | with_reducible exact Has.sub hw (by decide)
    | with_reducible exact Has.mem hw (by decide)
    | intro _
    | with_reducible apply Stays.ite
    | with_reducible apply State.delOp_stays
    | with_reducible apply State.flFinish_stays
    | with_reducible apply State.flGranted_stays
    | with_reducible apply State.setRec_stays
    | (extract_lets)
    | split)

theorem State.flFailed_stays {w_ : List Part} {z s : State} (n : Nat) (o : Op) (r : Res) (hw : Has [.regs, .hif, .trn, .lck,
    .free] w_) (hk : Stays w_ z s) : Stays w_ z (State.flFailed s n o r) := by
  unfold State.flFailed
  repeat' (first
    | with_reducible assumption
    | with_reducible exact Has.sub hw (by decide)
    | with_reducible exact Has.mem hw (by decide)
    | intro _
    | with_reducible apply Stays.ite
    | with_reducible apply State.delOp_stays
    | with_reducible apply State.flFinish_stays
    | with_reducible apply State.setRec_stays
    | (extract_lets)
    | split)

theorem State.onFlReply_stays {w_ : List Part} {z s : State} (a : Arr) (hw : Has [.regs, .ctrs, .hif, .trn, .lck, .xlt, .out,
    .free] w_) (hk : Stays w_ z s) : Stays w_ z (State.onFlReply s a) := by
  unfold State.onFlReply
  repeat' (first
    | with_reducible assumption
    | with_reducible exact Has.sub hw (by decide)
    | with_reducible exact Has.mem hw (by decide)
    | intro _
    | with_reducible apply Stays.ite
    | with_reducible apply PStays.fst
    | with_reducible apply State.flReply_stays
    | with_reducible apply State.payload_stays
    | with_reducible apply State.takeArw_stays
    | (extract_lets)
    | split
    | with_reducible apply PStays.pair
    | (with_reducible refine PStays.eq (by assumption) ?_))

end Sys2Proof.Machine
end

