-- ==== Sys2Proof/Laws/StaysBrg.lean ====
section
/-! SUPPORT. Laws/Stays.lean, for the operations of Machine/Brg.lean. -/
namespace Sys2Proof.Machine

theorem State.onBrg_stays {w_ : List Part} {z s : State} (f : Brg → Brg) (hw : Has [.brg] w_) (hk : Stays w_ z s) : Stays w_ z
    (State.onBrg s f) := by
  unfold State.onBrg
  repeat' (first
    | with_reducible assumption
    | with_reducible exact Has.sub hw (by decide)
    | with_reducible exact Has.mem hw (by decide)
    | intro _
    | (extract_lets)
    | split
    | with_reducible apply Stays.set_brg)

theorem State.completeErw_stays {w_ : List Part} {z s : State} (hp tag status : Nat) (hw : Has [.out] w_) (hk : Stays w_ z s) :
    Stays w_ z (State.completeErr s hp tag status) := by
  unfold State.completeErr
  repeat' (first
    | with_reducible assumption
    | with_reducible exact Has.sub hw (by decide)
    | with_reducible exact Has.mem hw (by decide)
    | intro _
    | with_reducible apply State.emit_stays
    | (extract_lets)
    | split)

theorem State.completeData_stays {w_ : List Part} {z s : State} (hp tag addr : Nat) (d : Data) (n : Nat) (hw : Has [.out] w_) (hk
    : Stays w_ z s) : Stays w_ z (State.completeData s hp tag addr d n) := by
  induction n generalizing s addr d with
  | zero =>
    unfold State.completeData
    repeat' (first
      | with_reducible assumption
      | with_reducible exact Has.sub hw (by decide)
      | with_reducible exact Has.mem hw (by decide)
      | with_reducible apply ih
      | intro _
      | with_reducible apply Stays.ite
      | with_reducible apply State.emit_stays
      | (extract_lets)
      | split)
  | succ n ih =>
    unfold State.completeData
    repeat' (first
      | with_reducible assumption
      | with_reducible exact Has.sub hw (by decide)
      | with_reducible exact Has.mem hw (by decide)
      | with_reducible apply ih
      | intro _
      | with_reducible apply Stays.ite
      | with_reducible apply State.emit_stays
      | (extract_lets)
      | split)

theorem State.pfKill_stays {w_ : List Part} {z s : State} (p : PfEnt → Bool) (hw : Has [.brg] w_) (hk : Stays w_ z s) : Stays w_ z
    (State.pfKill s p) := by
  unfold State.pfKill
  repeat' (first
    | with_reducible assumption
    | with_reducible exact Has.sub hw (by decide)
    | with_reducible exact Has.mem hw (by decide)
    | intro _
    | with_reducible apply Stays.ite
    | with_reducible apply State.onBrg_stays
    | (extract_lets)
    | split)

theorem execBar4Write_stays {w_ : List Part} {z s : State} (fn off : Nat) (d : Data) (be : Nat) (hw : Has [.ctrs, .brg, .free] w_)
    (hk : Stays w_ z s) : OutStays w_ z (execBar4Write fn off d be s) := by
  unfold execBar4Write
  repeat' (first
    | with_reducible assumption
    | with_reducible exact Has.sub hw (by decide)
    | with_reducible exact Has.mem hw (by decide)
    | intro _
    | with_reducible apply OutStays.ite
    | with_reducible apply Stays.ite
    | with_reducible apply Stays.foldl
    | with_reducible apply PStays.foldl
    | with_reducible apply QStays.foldl
    | with_reducible apply PStays.fst
    | with_reducible apply QStays.snd
    | with_reducible apply State.draw_staysQ
    | with_reducible apply OutStays.next
    | with_reducible apply State.bump_stays
    | with_reducible apply State.onBrg_stays
    | with_reducible apply State.pfKill_stays
    | (extract_lets)
    | split
    | with_reducible apply PStays.pair
    | with_reducible apply QStays.pair
    | (with_reducible refine PStays.eq (by assumption) ?_)
    | (with_reducible refine QStays.eq (by assumption) ?_))

theorem execWindowWriteSend_stays {w_ : List Part} {z s : State} (id : Nat) (hw : Has [.ctrs, .trn, .brg, .free] w_) (hk : Stays
    w_ z s) : OutStays w_ z (execWindowWriteSend id s) := by
  unfold execWindowWriteSend
  repeat' (first
    | with_reducible assumption
    | with_reducible exact Has.sub hw (by decide)
    | with_reducible exact Has.mem hw (by decide)
    | intro _
    | with_reducible apply OutStays.ite
    | with_reducible apply Stays.ite
    | with_reducible apply OutStays.next
    | with_reducible apply State.bump_stays
    | with_reducible apply State.newOp_stays
    | with_reducible apply State.onBrg_stays
    | (extract_lets)
    | split)

theorem State.brgErw_stays {w_ : List Part} {z s : State} (fn win status detail : Nat) (hw : Has [.regs] w_) (hk : Stays w_ z s) :
    Stays w_ z (State.brgErr s fn win status detail) := by
  unfold State.brgErr
  repeat' (first
    | with_reducible assumption
    | with_reducible exact Has.sub hw (by decide)
    | with_reducible exact Has.mem hw (by decide)
    | intro _
    | with_reducible apply State.put_stays
    | (extract_lets)
    | split)

theorem State.winErw_stays {w_ : List Part} {z s : State} (fn w : Nat) (hw : Has [.regs, .ctrs, .brg] w_) (hk : Stays w_ z s) :
    Stays w_ z (State.winErr s fn w) := by
  unfold State.winErr
  repeat' (first
    | with_reducible assumption
    | with_reducible exact Has.sub hw (by decide)
    | with_reducible exact Has.mem hw (by decide)
    | intro _
    | with_reducible apply Stays.ite
    | with_reducible apply State.bumpBy_stays
    | with_reducible apply State.onBrg_stays
    | with_reducible apply State.setWord_stays
    | (extract_lets)
    | split)

theorem State.setRead_stays {w_ : List Part} {z s : State} (x : BRead) (hw : Has [.brg] w_) (hk : Stays w_ z s) : Stays w_ z
    (State.setRead s x) := by
  unfold State.setRead
  repeat' (first
    | with_reducible assumption
    | with_reducible exact Has.sub hw (by decide)
    | with_reducible exact Has.mem hw (by decide)
    | intro _
    | with_reducible apply Stays.ite
    | with_reducible apply State.onBrg_stays
    | (extract_lets)
    | split)

theorem State.dropRead_stays {w_ : List Part} {z s : State} (x : BRead) (hw : Has [.brg] w_) (hk : Stays w_ z s) : Stays w_ z
    (State.dropRead s x) := by
  unfold State.dropRead
  repeat' (first
    | with_reducible assumption
    | with_reducible exact Has.sub hw (by decide)
    | with_reducible exact Has.mem hw (by decide)
    | intro _
    | with_reducible apply State.onBrg_stays
    | (extract_lets)
    | split)

theorem State.readAhead_stays {w_ : List Part} {z s : State} (x : BRead) (hw : Has [.trn, .brg, .free] w_) (hk : Stays w_ z s) :
    Stays w_ z (State.readAhead s x) := by
  unfold State.readAhead
  repeat' (first
    | with_reducible assumption
    | with_reducible exact Has.sub hw (by decide)
    | with_reducible exact Has.mem hw (by decide)
    | intro _
    | with_reducible apply Stays.ite
    | with_reducible apply State.newOp_stays
    | with_reducible apply State.onBrg_stays
    | (extract_lets)
    | split)

theorem State.readGo_stays {w_ : List Part} {z s : State} (x : BRead) (hw : Has [.ctrs, .trn, .brg, .out, .free] w_) (hk : Stays
    w_ z s) : Stays w_ z (State.readGo s x) := by
  unfold State.readGo
  repeat' (first
    | with_reducible assumption
    | with_reducible exact Has.sub hw (by decide)
    | with_reducible exact Has.mem hw (by decide)
    | intro _
    | with_reducible apply Stays.ite
    | with_reducible apply State.bump_stays
    | with_reducible apply State.completeData_stays
    | with_reducible apply State.completeErw_stays
    | with_reducible apply State.dropRead_stays
    | with_reducible apply State.emit_stays
    | with_reducible apply State.newOp_stays
    | with_reducible apply State.readAhead_stays
    | with_reducible apply State.setRead_stays
    | (extract_lets)
    | split)

theorem execBar4Read_stays {w_ : List Part} {z s : State} (fn off len tag kind : Nat) (hw : Has [.ctrs, .trn, .brg, .out, .free]
    w_) (hk : Stays w_ z s) : OutStays w_ z (execBar4Read fn off len tag kind s) := by
  unfold execBar4Read
  repeat' (first
    | with_reducible assumption
    | with_reducible exact Has.sub hw (by decide)
    | with_reducible exact Has.mem hw (by decide)
    | intro _
    | with_reducible apply OutStays.ite
    | with_reducible apply Stays.ite
    | with_reducible apply OutStays.next
    | with_reducible apply State.bump_stays
    | with_reducible apply State.completeErw_stays
    | with_reducible apply State.onBrg_stays
    | with_reducible apply State.readGo_stays
    | (extract_lets)
    | split)

theorem State.readFail_stays {w_ : List Part} {z s : State} (x : BRead) (status detail ctr : Nat) (hw : Has [.glb, .regs, .ctrs,
    .srcs, .banks, .hif, .brg, .out] w_) (hk : Stays w_ z s) : Stays w_ z (State.readFail s x status detail ctr) := by
  unfold State.readFail
  repeat' (first
    | with_reducible assumption
    | with_reducible exact Has.sub hw (by decide)
    | with_reducible exact Has.mem hw (by decide)
    | intro _
    | with_reducible apply State.brgErw_stays
    | with_reducible apply State.bump_stays
    | with_reducible apply State.completeErw_stays
    | with_reducible apply State.dropRead_stays
    | with_reducible apply State.raise_stays
    | (extract_lets)
    | split)

theorem execWindowReadComplete_stays {w_ : List Part} {z s : State} (id : Nat) (hw : Has [.glb, .regs, .ctrs, .srcs, .banks, .hif,
    .trn, .brg, .out] w_) (hk : Stays w_ z s) : OutStays w_ z (execWindowReadComplete id s) := by
  unfold execWindowReadComplete
  repeat' (first
    | with_reducible assumption
    | with_reducible exact Has.sub hw (by decide)
    | with_reducible exact Has.mem hw (by decide)
    | intro _
    | with_reducible apply OutStays.ite
    | with_reducible apply Stays.ite
    | with_reducible apply OutStays.next
    | with_reducible apply State.completeData_stays
    | with_reducible apply State.delOp_stays
    | with_reducible apply State.dropRead_stays
    | with_reducible apply State.readFail_stays
    | (extract_lets)
    | split)

theorem State.prefetchTimeout_stays {w_ : List Part} {z s : State} (id : Nat) (hw : Has [.ctrs, .trn, .brg] w_) (hk : Stays w_ z
    s) : Stays w_ z (State.prefetchTimeout s id) := by
  unfold State.prefetchTimeout
  repeat' (first
    | with_reducible assumption
    | with_reducible exact Has.sub hw (by decide)
    | with_reducible exact Has.mem hw (by decide)
    | intro _
    | with_reducible apply Stays.ite
    | with_reducible apply State.bump_stays
    | with_reducible apply State.delOp_stays
    | with_reducible apply State.onBrg_stays
    | (extract_lets)
    | split)

theorem execWindowReadTimeout_stays {w_ : List Part} {z s : State} (id : Nat) (hw : Has [.glb, .regs, .ctrs, .srcs, .banks, .hif,
    .trn, .brg, .out, .free] w_) (hk : Stays w_ z s) : OutStays w_ z (execWindowReadTimeout id s) := by
  unfold execWindowReadTimeout
  repeat' (first
    | with_reducible assumption
    | with_reducible exact Has.sub hw (by decide)
    | with_reducible exact Has.mem hw (by decide)
    | intro _
    | with_reducible apply OutStays.ite
    | with_reducible apply Stays.ite
    | with_reducible apply QStays.snd
    | with_reducible apply State.draw_staysQ
    | with_reducible apply OutStays.next
    | with_reducible apply State.delOp_stays
    | with_reducible apply State.draw_stays
    | with_reducible apply State.prefetchTimeout_stays
    | with_reducible apply State.readFail_stays
    | (extract_lets)
    | split
    | with_reducible apply QStays.pair
    | (with_reducible refine QStays.eq (by assumption) ?_))

theorem execPrefetchExpiry_stays {w_ : List Part} {z s : State} (id : Nat) (hw : Has [.brg] w_) (hk : Stays w_ z s) : OutStays w_
    z (execPrefetchExpiry id s) := by
  unfold execPrefetchExpiry
  repeat' (first
    | with_reducible assumption
    | with_reducible exact Has.sub hw (by decide)
    | with_reducible exact Has.mem hw (by decide)
    | intro _
    | with_reducible apply OutStays.ite
    | with_reducible apply Stays.ite
    | with_reducible apply OutStays.next
    | with_reducible apply State.onBrg_stays
    | (extract_lets)
    | split)

theorem State.prefetchDone_stays {w_ : List Part} {z s : State} (id n : Nat) (r : Res) (hw : Has [.ctrs, .trn, .brg] w_) (hk :
    Stays w_ z s) : Stays w_ z (State.prefetchDone s id n r) := by
  unfold State.prefetchDone
  repeat' (first
    | with_reducible assumption
    | with_reducible exact Has.sub hw (by decide)
    | with_reducible exact Has.mem hw (by decide)
    | intro _
    | with_reducible apply Stays.ite
    | with_reducible apply State.bump_stays
    | with_reducible apply State.delOp_stays
    | with_reducible apply State.onBrg_stays
    | (extract_lets)
    | split)

theorem State.settleBrg_stays {w_ : List Part} {z s : State} (hw : Has [.ctrs, .trn, .brg, .out, .free] w_) (hk : Stays w_ z s) :
    Stays w_ z (State.settleBrg s) := by
  unfold State.settleBrg
  repeat' (first
    | with_reducible assumption
    | with_reducible exact Has.sub hw (by decide)
    | with_reducible exact Has.mem hw (by decide)
    | intro _
    | with_reducible apply Stays.foldl
    | with_reducible apply PStays.foldl
    | with_reducible apply QStays.foldl
    | with_reducible apply QStays.snd
    | with_reducible apply State.draw_staysQ
    | with_reducible apply State.readGo_stays
    | (extract_lets)
    | split
    | with_reducible apply QStays.pair
    | (with_reducible refine QStays.eq (by assumption) ?_))

theorem execWindowWriteFail_stays {w_ : List Part} {z s : State} (id : Nat) (hw : Has [.glb, .regs, .ctrs, .srcs, .banks, .hif,
    .trn, .brg, .out, .free] w_) (hk : Stays w_ z s) : OutStays w_ z (execWindowWriteFail id s) := by
  unfold execWindowWriteFail
  repeat' (first
    | with_reducible assumption
    | with_reducible exact Has.sub hw (by decide)
    | with_reducible exact Has.mem hw (by decide)
    | intro _
    | with_reducible apply OutStays.ite
    | with_reducible apply Stays.ite
    | with_reducible apply OutStays.next
    | with_reducible apply State.brgErw_stays
    | with_reducible apply State.bump_stays
    | with_reducible apply State.delOp_stays
    | with_reducible apply State.onBrg_stays
    | with_reducible apply State.raise_stays
    | with_reducible apply State.settleBrg_stays
    | with_reducible apply State.winErw_stays
    | (extract_lets)
    | split)

end Sys2Proof.Machine
end

