-- ==== Sys2Proof/Laws/StaysColCmd.lean ====
section
/-! SUPPORT. Laws/Stays.lean, for the operations of Machine/ColCmd.lean. -/
namespace Sys2Proof.Machine

theorem State.setChunk_stays {w_ : List Part} {z s : State} (c : ColChunk) (hw : Has [.col] w_) (hk : Stays w_ z s) : Stays w_ z
    (State.setChunk s c) := by
  unfold State.setChunk
  repeat' (first
    | with_reducible assumption
    | with_reducible exact Has.sub hw (by decide)
    | with_reducible exact Has.mem hw (by decide)
    | intro _
    | with_reducible apply Stays.ite
    | (extract_lets)
    | split
    | with_reducible apply Stays.set_col)

theorem State.delChunk_stays {w_ : List Part} {z s : State} (c : ColChunk) (hw : Has [.col] w_) (hk : Stays w_ z s) : Stays w_ z
    (State.delChunk s c) := by
  unfold State.delChunk
  repeat' (first
    | with_reducible assumption
    | with_reducible exact Has.sub hw (by decide)
    | with_reducible exact Has.mem hw (by decide)
    | intro _
    | (extract_lets)
    | split
    | with_reducible apply Stays.set_col)

theorem State.colOverrun_stays {w_ : List Part} {z s : State} (t set : Nat) (hw : Has [.glb, .ctrs, .srcs, .banks, .rte, .sch,
    .hif, .col, .out] w_) (hk : Stays w_ z s) : Stays w_ z (State.colOverrun s t set) := by
  unfold State.colOverrun
  repeat' (first
    | with_reducible assumption
    | with_reducible exact Has.sub hw (by decide)
    | with_reducible exact Has.mem hw (by decide)
    | intro _
    | with_reducible apply State.bump_stays
    | with_reducible apply State.treeErrow_stays
    | (extract_lets)
    | split)

theorem State.sendChunk_stays {w_ : List Part} {z s : State} (c : ColChunk) (x : ColIn) (type port : Nat) (hw : Has [.glb, .ctrs,
    .srcs, .banks, .rte, .sch, .hif, .out] w_) (hk : Stays w_ z s) : Stays w_ z (State.sendChunk s c x type port) := by
  unfold State.sendChunk
  repeat' (first
    | with_reducible assumption
    | with_reducible exact Has.sub hw (by decide)
    | with_reducible exact Has.mem hw (by decide)
    | intro _
    | with_reducible apply Stays.ite
    | with_reducible apply State.bump_stays
    | with_reducible apply State.hubTo_stays
    | with_reducible apply State.raise_stays
    | (extract_lets)
    | split)

theorem State.onColOp_stays {w_ : List Part} {z s : State} (c : ColChunk) (ep : Nat) (f : ColOp → ColOp) (hw : Has [.col] w_) (hk
    : Stays w_ z s) : Stays w_ z (State.onColOp s c ep f) := by
  unfold State.onColOp
  repeat' (first
    | with_reducible assumption
    | with_reducible exact Has.sub hw (by decide)
    | with_reducible exact Has.mem hw (by decide)
    | intro _
    | with_reducible apply Stays.ite
    | (extract_lets)
    | split
    | with_reducible apply Stays.set_col)

theorem State.writeResult_stays {w_ : List Part} {z s : State} (c : ColChunk) (o : ColOp) (hw : Has [.ctrs, .col, .xlt, .out,
    .free] w_) (hk : Stays w_ z s) : PStays w_ z (State.writeResult s c o) := by
  unfold State.writeResult
  repeat' (first
    | with_reducible assumption
    | with_reducible exact Has.sub hw (by decide)
    | with_reducible exact Has.mem hw (by decide)
    | intro _
    | with_reducible apply PStays.ite
    | with_reducible apply Stays.ite
    | with_reducible apply PStays.fst
    | with_reducible apply State.onColOp_stays
    | with_reducible apply State.writePieces_stays
    | with_reducible apply State.xlateRun_stays
    | (extract_lets)
    | split
    | with_reducible apply PStays.pair
    | (with_reducible refine PStays.eq (by assumption) ?_))

theorem State.chunkDone_stays {w_ : List Part} {z s : State} (c : ColChunk) (hw : Has [.ctrs, .hif, .col] w_) (hk : Stays w_ z s)
    : Stays w_ z (State.chunkDone s c) := by
  unfold State.chunkDone
  repeat' (first
    | with_reducible assumption
    | with_reducible exact Has.sub hw (by decide)
    | with_reducible exact Has.mem hw (by decide)
    | intro _
    | with_reducible apply Stays.ite
    | with_reducible apply Stays.foldl
    | with_reducible apply PStays.foldl
    | with_reducible apply QStays.foldl
    | with_reducible apply State.bumpIf_stays
    | with_reducible apply State.delChunk_stays
    | with_reducible apply State.finishEntry_stays
    | with_reducible apply State.setColTree_stays
    | (extract_lets)
    | split
    | with_reducible apply Stays.set_col)

theorem State.writeAll_stays {w_ : List Part} {z s : State} (c : ColChunk) (l : List Nat) (hw : Has [.ctrs, .hif, .col, .xlt,
    .out, .free] w_) (hk : Stays w_ z s) : PStays w_ z (State.writeAll s c l) := by
  induction l generalizing s c with
  | nil =>
    unfold State.writeAll
    repeat' (first
      | with_reducible assumption
      | with_reducible exact Has.sub hw (by decide)
      | with_reducible exact Has.mem hw (by decide)
      | with_reducible apply ih
      | with_reducible exact ih _
      | intro _
      | with_reducible apply PStays.ite
      | with_reducible apply Stays.ite
      | with_reducible apply PStays.fst
      | with_reducible apply State.chunkDone_stays
      | with_reducible apply State.setChunk_stays
      | with_reducible apply State.writeResult_stays
      | (extract_lets)
      | split
      | with_reducible apply PStays.pair
      | (with_reducible refine PStays.eq (by assumption) ?_))
  | cons x t ih =>
    unfold State.writeAll
    repeat' (first
      | with_reducible assumption
      | with_reducible exact Has.sub hw (by decide)
      | with_reducible exact Has.mem hw (by decide)
      | with_reducible apply ih
      | with_reducible exact ih _
      | intro _
      | with_reducible apply PStays.ite
      | with_reducible apply Stays.ite
      | with_reducible apply PStays.fst
      | with_reducible apply State.chunkDone_stays
      | with_reducible apply State.setChunk_stays
      | with_reducible apply State.writeResult_stays
      | (extract_lets)
      | split
      | with_reducible apply PStays.pair
      | (with_reducible refine PStays.eq (by assumption) ?_))

theorem State.forward_stays {w_ : List Part} {z s : State} (c : ColChunk) (hw : Has [.glb, .ctrs, .srcs, .banks, .rte, .sch, .hif,
    .col, .out] w_) (hk : Stays w_ z s) : Stays w_ z (State.forward s c) := by
  unfold State.forward
  repeat' (first
    | with_reducible assumption
    | with_reducible exact Has.sub hw (by decide)
    | with_reducible exact Has.mem hw (by decide)
    | intro _
    | with_reducible apply Stays.foldl
    | with_reducible apply PStays.foldl
    | with_reducible apply QStays.foldl
    | with_reducible apply State.sendChunk_stays
    | with_reducible apply State.setChunk_stays
    | with_reducible apply State.setColTree_stays
    | (extract_lets)
    | split)

theorem State.toForward_stays {w_ : List Part} {z s : State} (c : ColChunk) (hw : Has [.glb, .ctrs, .srcs, .banks, .rte, .sch,
    .hif, .col, .out] w_) (hk : Stays w_ z s) : Stays w_ z (State.toForward s c) := by
  unfold State.toForward
  repeat' (first
    | with_reducible assumption
    | with_reducible exact Has.sub hw (by decide)
    | with_reducible exact Has.mem hw (by decide)
    | intro _
    | with_reducible apply Stays.ite
    | with_reducible apply State.forward_stays
    | with_reducible apply State.setChunk_stays
    | (extract_lets)
    | split)

theorem State.rootResult_stays {w_ : List Part} {z s : State} (c : ColChunk) (hw : Has [.free] w_) (hk : Stays w_ z s) : QStays w_
    z (State.rootResult s c) := by
  unfold State.rootResult
  repeat' (first
    | with_reducible assumption
    | with_reducible exact Has.sub hw (by decide)
    | with_reducible exact Has.mem hw (by decide)
    | intro _
    | with_reducible apply QStays.ite
    | with_reducible apply Stays.ite
    | with_reducible apply Stays.foldl
    | with_reducible apply PStays.foldl
    | with_reducible apply QStays.foldl
    | with_reducible apply PStays.fst
    | with_reducible apply QStays.snd
    | with_reducible apply State.draw_staysQ
    | with_reducible apply State.draw_stays
    | (extract_lets)
    | split
    | with_reducible apply PStays.pair
    | with_reducible apply QStays.pair
    | (with_reducible refine PStays.eq (by assumption) ?_)
    | (with_reducible refine QStays.eq (by assumption) ?_))

theorem State.produce_stays {w_ : List Part} {z s : State} (c : ColChunk) (hw : Has [.glb, .ctrs, .srcs, .banks, .rte, .sch, .hif,
    .col, .out, .free] w_) (hk : Stays w_ z s) : Stays w_ z (State.produce s c) := by
  unfold State.produce
  repeat' (first
    | with_reducible assumption
    | with_reducible exact Has.sub hw (by decide)
    | with_reducible exact Has.mem hw (by decide)
    | intro _
    | with_reducible apply Stays.ite
    | with_reducible apply QStays.snd
    | with_reducible apply State.draw_staysQ
    | with_reducible apply State.forward_stays
    | with_reducible apply State.rootResult_stays
    | with_reducible apply State.setColTree_stays
    | with_reducible apply State.treeErrow_stays
    | (extract_lets)
    | split
    | with_reducible apply QStays.pair
    | (with_reducible refine QStays.eq (by assumption) ?_))

theorem State.settleTree_stays {w_ : List Part} {z s : State} (t : Nat) (n : Nat) (hw : Has [.glb, .ctrs, .srcs, .banks, .rte,
    .sch, .hif, .col, .xlt, .out, .free] w_) (hk : Stays w_ z s) : Stays w_ z (State.settleTree s t n) := by
  induction n generalizing s with
  | zero =>
    unfold State.settleTree
    repeat' (first
      | with_reducible assumption
      | with_reducible exact Has.sub hw (by decide)
      | with_reducible exact Has.mem hw (by decide)
      | with_reducible apply ih
      | intro _
      | with_reducible apply Stays.ite
      | with_reducible apply PStays.fst
      | with_reducible apply State.forward_stays
      | with_reducible apply State.produce_stays
      | with_reducible apply State.writeAll_stays
      | (extract_lets)
      | split
      | with_reducible apply PStays.pair
      | (with_reducible refine PStays.eq (by assumption) ?_))
  | succ n ih =>
    unfold State.settleTree
    repeat' (first
      | with_reducible assumption
      | with_reducible exact Has.sub hw (by decide)
      | with_reducible exact Has.mem hw (by decide)
      | with_reducible apply ih
      | intro _
      | with_reducible apply Stays.ite
      | with_reducible apply PStays.fst
      | with_reducible apply State.forward_stays
      | with_reducible apply State.produce_stays
      | with_reducible apply State.writeAll_stays
      | (extract_lets)
      | split
      | with_reducible apply PStays.pair
      | (with_reducible refine PStays.eq (by assumption) ?_))

theorem State.settleCol_stays {w_ : List Part} {z s : State} (hw : Has [.glb, .ctrs, .srcs, .banks, .rte, .sch, .hif, .col, .xlt,
    .out, .free] w_) (hk : Stays w_ z s) : Stays w_ z (State.settleCol s) := by
  unfold State.settleCol
  repeat' (first
    | with_reducible assumption
    | with_reducible exact Has.sub hw (by decide)
    | with_reducible exact Has.mem hw (by decide)
    | intro _
    | with_reducible apply Stays.foldl
    | with_reducible apply PStays.foldl
    | with_reducible apply QStays.foldl
    | with_reducible apply State.settleTree_stays
    | (extract_lets)
    | split)

theorem State.colInput_stays {w_ : List Part} {z s : State} (n : ColChunk) (key : Nat) (x : ColIn) (hw : Has [.glb, .ctrs, .srcs,
    .banks, .rte, .sch, .hif, .col, .xlt, .out, .free] w_) (hk : Stays w_ z s) : Stays w_ z (State.colInput s n key x) := by
  unfold State.colInput
  repeat' (first
    | with_reducible assumption
    | with_reducible exact Has.sub hw (by decide)
    | with_reducible exact Has.mem hw (by decide)
    | intro _
    | with_reducible apply Stays.ite
    | with_reducible apply State.bumpIf_stays
    | with_reducible apply State.colOverrun_stays
    | with_reducible apply State.setChunk_stays
    | with_reducible apply State.setColTree_stays
    | with_reducible apply State.settleCol_stays
    | with_reducible apply State.treeErrow_stays
    | (extract_lets)
    | split
    | with_reducible apply Stays.set_col)

theorem State.setMembew_stays {w_ : List Part} {z s : State} (t ep : Nat) (m : ColMember) (hw : Has [.col] w_) (hk : Stays w_ z s)
    : Stays w_ z (State.setMember s t ep m) := by
  unfold State.setMember
  repeat' (first
    | with_reducible assumption
    | with_reducible exact Has.sub hw (by decide)
    | with_reducible exact Has.mem hw (by decide)
    | intro _
    | (extract_lets)
    | split
    | with_reducible apply Stays.set_col)

theorem State.colJoin_stays {w_ : List Part} {z s : State} (t ep : Nat) (hw : Has [.col] w_) (hk : Stays w_ z s) : PStays w_ z
    (State.colJoin s t ep) := by
  unfold State.colJoin
  repeat' (first
    | with_reducible assumption
    | with_reducible exact Has.sub hw (by decide)
    | with_reducible exact Has.mem hw (by decide)
    | intro _
    | with_reducible apply PStays.ite
    | with_reducible apply Stays.ite
    | with_reducible apply PStays.fst
    | with_reducible apply State.setMembew_stays
    | (extract_lets)
    | split
    | with_reducible apply PStays.pair
    | (with_reducible refine PStays.eq (by assumption) ?_))

theorem execColJoin_stays {w_ : List Part} {z s : State} (q : Nat) (hw : Has [.hif, .col] w_) (hk : Stays w_ z s) : OutStays w_ z
    (execColJoin q s) := by
  unfold execColJoin
  repeat' (first
    | with_reducible assumption
    | with_reducible exact Has.sub hw (by decide)
    | with_reducible exact Has.mem hw (by decide)
    | intro _
    | with_reducible apply PStays.fst
    | with_reducible apply OutStays.next
    | with_reducible apply State.colJoin_stays
    | with_reducible apply State.finishEntry_stays
    | (extract_lets)
    | split
    | with_reducible apply PStays.pair
    | (with_reducible refine PStays.eq (by assumption) ?_))

theorem execColLeave_stays {w_ : List Part} {z s : State} (q : Nat) (hw : Has [.glb, .ctrs, .srcs, .banks, .rte, .sch, .hif, .col,
    .out, .free] w_) (hk : Stays w_ z s) : OutStays w_ z (execColLeave q s) := by
  unfold execColLeave
  repeat' (first
    | with_reducible assumption
    | with_reducible exact Has.sub hw (by decide)
    | with_reducible exact Has.mem hw (by decide)
    | intro _
    | with_reducible apply OutStays.ite
    | with_reducible apply Stays.ite
    | with_reducible apply QStays.snd
    | with_reducible apply State.draw_staysQ
    | with_reducible apply OutStays.next
    | with_reducible apply State.colLeave_stays
    | with_reducible apply State.draw_stays
    | with_reducible apply State.finishEntry_stays
    | (extract_lets)
    | split
    | with_reducible apply QStays.pair
    | (with_reducible refine QStays.eq (by assumption) ?_))

theorem State.colAccept_stays {w_ : List Part} {z s : State} (q : Nat) (v : Sq) (e : Ent) (m : ColMember) (hw : Has [.hif, .col]
    w_) (hk : Stays w_ z s) : Stays w_ z (State.colAccept s q v e m) := by
  unfold State.colAccept
  repeat' (first
    | with_reducible assumption
    | with_reducible exact Has.sub hw (by decide)
    | with_reducible exact Has.mem hw (by decide)
    | intro _
    | with_reducible apply State.runEntry_stays
    | with_reducible apply State.setColTree_stays
    | with_reducible apply State.setMembew_stays
    | (extract_lets)
    | split
    | with_reducible apply Stays.set_col)

theorem execColOp_stays {w_ : List Part} {z s : State} (q : Nat) (hw : Has [.ctrs, .hif, .col] w_) (hk : Stays w_ z s) : OutStays
    w_ z (execColOp q s) := by
  unfold execColOp
  repeat' (first
    | with_reducible assumption
    | with_reducible exact Has.sub hw (by decide)
    | with_reducible exact Has.mem hw (by decide)
    | intro _
    | with_reducible apply OutStays.ite
    | with_reducible apply Stays.ite
    | with_reducible apply OutStays.next
    | with_reducible apply State.colAccept_stays
    | with_reducible apply State.finishEntry_stays
    | with_reducible apply State.malformed_stays
    | (extract_lets)
    | split)

theorem State.colReadFault_stays {w_ : List Part} {z s : State} (o : ColOp) (r : Res) (hw : Has [.glb, .ctrs, .srcs, .banks, .rte,
    .sch, .hif, .col, .out] w_) (hk : Stays w_ z s) : Stays w_ z (State.colReadFault s o r) := by
  unfold State.colReadFault
  repeat' (first
    | with_reducible assumption
    | with_reducible exact Has.sub hw (by decide)
    | with_reducible exact Has.mem hw (by decide)
    | intro _
    | with_reducible apply State.finishEntry_stays
    | with_reducible apply State.treeErrow_stays
    | (extract_lets)
    | split
    | with_reducible apply Stays.set_col)

theorem State.giveChunk_stays {w_ : List Part} {z s : State} (o : ColOp) (x : ColIn) (hw : Has [.glb, .ctrs, .srcs, .banks, .rte,
    .sch, .hif, .col, .xlt, .out, .free] w_) (hk : Stays w_ z s) : Stays w_ z (State.giveChunk s o x) := by
  unfold State.giveChunk
  repeat' (first
    | with_reducible assumption
    | with_reducible exact Has.sub hw (by decide)
    | with_reducible exact Has.mem hw (by decide)
    | intro _
    | with_reducible apply State.colInput_stays
    | with_reducible apply State.onColOp_stays
    | with_reducible apply State.setMembew_stays
    | (extract_lets)
    | split)

theorem execMemberChunkRead_stays {w_ : List Part} {z s : State} (t ep : Nat) (hm : HostView) (hw : Has [.glb, .ctrs, .srcs,
    .banks, .rte, .sch, .hif, .col, .xlt, .out, .free] w_) (hk : Stays w_ z s) : OutStays w_ z (execMemberChunkRead t ep hm s) :=
    by
  unfold execMemberChunkRead
  repeat' (first
    | with_reducible assumption
    | with_reducible exact Has.sub hw (by decide)
    | with_reducible exact Has.mem hw (by decide)
    | intro _
    | with_reducible apply OutStays.ite
    | with_reducible apply Stays.ite
    | with_reducible apply PStays.fst
    | with_reducible apply OutStays.next
    | with_reducible apply State.colReadFault_stays
    | with_reducible apply State.giveChunk_stays
    | with_reducible apply State.readRun_stays
    | with_reducible apply State.xlateRun_stays
    | (extract_lets)
    | split
    | with_reducible apply PStays.pair
    | (with_reducible refine PStays.eq (by assumption) ?_))

theorem State.colChecked_stays {w_ : List Part} {z s : State} (d : Data) (type port : Nat) (take : State → ColPkt → State) (h_take
    : ∀ u0 u1, Stays w_ z u0 → Stays w_ z (take u0 u1)) (hw : Has [.glb, .ctrs, .srcs, .banks, .rte, .sch, .hif, .col, .out] w_)
    (hk : Stays w_ z s) : Stays w_ z (State.colChecked s d type port take) := by
  unfold State.colChecked
  repeat' (first
    | with_reducible assumption
    | with_reducible exact Has.sub hw (by decide)
    | with_reducible exact Has.mem hw (by decide)
    | intro _
    | with_reducible apply Stays.ite
    | with_reducible apply State.bump_stays
    | with_reducible apply State.raise_stays
    | with_reducible apply State.treeErrow_stays
    | with_reducible apply h_take
    | (extract_lets)
    | split)

theorem State.colTake_stays {w_ : List Part} {z s : State} (type : Nat) (go : State → Data → Nat → State) (h_go : ∀ u0 u1 u2,
    Stays w_ z u0 → Stays w_ z (go u0 u1 u2)) (hw : Has [.ctrs, .sch] w_) (hk : Stays w_ z s) : Stays w_ z (State.colTake s type
    go) := by
  unfold State.colTake
  repeat' (first
    | with_reducible assumption
    | with_reducible exact Has.sub hw (by decide)
    | with_reducible exact Has.mem hw (by decide)
    | intro _
    | with_reducible apply Stays.ite
    | with_reducible apply State.bump_stays
    | with_reducible apply State.hubPop_stays
    | with_reducible apply h_go
    | (extract_lets)
    | split)

theorem execColUpRx_stays {w_ : List Part} {z s : State} (hw : Has [.glb, .ctrs, .srcs, .banks, .rte, .sch, .hif, .col, .xlt,
    .out, .free] w_) (hk : Stays w_ z s) : OutStays w_ z (execColUpRx s) := by
  unfold execColUpRx
  repeat' (first
    | with_reducible assumption
    | with_reducible exact Has.sub hw (by decide)
    | with_reducible exact Has.mem hw (by decide)
    | intro _
    | with_reducible apply OutStays.next
    | with_reducible apply State.colChecked_stays
    | with_reducible apply State.colInput_stays
    | with_reducible apply State.colTake_stays
    | (extract_lets)
    | split)

theorem execChunkSendUp_stays {w_ : List Part} {z s : State} (t : Nat) (hw : Has [.glb, .ctrs, .srcs, .banks, .rte, .sch, .hif,
    .col, .out] w_) (hk : Stays w_ z s) : OutStays w_ z (execChunkSendUp t s) := by
  unfold execChunkSendUp
  repeat' (first
    | with_reducible assumption
    | with_reducible exact Has.sub hw (by decide)
    | with_reducible exact Has.mem hw (by decide)
    | intro _
    | with_reducible apply OutStays.ite
    | with_reducible apply Stays.ite
    | with_reducible apply OutStays.next
    | with_reducible apply State.sendChunk_stays
    | with_reducible apply State.setChunk_stays
    | with_reducible apply State.setColTree_stays
    | (extract_lets)
    | split)

theorem execColDownRx_stays {w_ : List Part} {z s : State} (hw : Has [.glb, .ctrs, .srcs, .banks, .rte, .sch, .hif, .col, .xlt,
    .out, .free] w_) (hk : Stays w_ z s) : OutStays w_ z (execColDownRx s) := by
  unfold execColDownRx
  repeat' (first
    | with_reducible assumption
    | with_reducible exact Has.sub hw (by decide)
    | with_reducible exact Has.mem hw (by decide)
    | intro _
    | with_reducible apply OutStays.ite
    | with_reducible apply Stays.ite
    | with_reducible apply OutStays.next
    | with_reducible apply State.bump_stays
    | with_reducible apply State.colChecked_stays
    | with_reducible apply State.colOverrun_stays
    | with_reducible apply State.colTake_stays
    | with_reducible apply State.settleCol_stays
    | with_reducible apply State.toForward_stays
    | with_reducible apply State.treeErrow_stays
    | (extract_lets)
    | split)

theorem execColAbortRx_stays {w_ : List Part} {z s : State} (hw : Has [.glb, .ctrs, .srcs, .banks, .rte, .sch, .hif, .col, .out]
    w_) (hk : Stays w_ z s) : OutStays w_ z (execColAbortRx s) := by
  unfold execColAbortRx
  repeat' (first
    | with_reducible assumption
    | with_reducible exact Has.sub hw (by decide)
    | with_reducible exact Has.mem hw (by decide)
    | intro _
    | with_reducible apply OutStays.ite
    | with_reducible apply Stays.ite
    | with_reducible apply OutStays.next
    | with_reducible apply State.colTake_stays
    | with_reducible apply State.treeErrow_stays
    | (extract_lets)
    | split)

theorem execColOpTimeout_stays {w_ : List Part} {z s : State} (t : Nat) (hw : Has [.glb, .ctrs, .srcs, .banks, .rte, .sch, .hif,
    .col, .out] w_) (hk : Stays w_ z s) : OutStays w_ z (execColOpTimeout t s) := by
  unfold execColOpTimeout
  repeat' (first
    | with_reducible assumption
    | with_reducible exact Has.sub hw (by decide)
    | with_reducible exact Has.mem hw (by decide)
    | intro _
    | with_reducible apply OutStays.ite
    | with_reducible apply Stays.ite
    | with_reducible apply OutStays.next
    | with_reducible apply State.treeErrow_stays
    | (extract_lets)
    | split)

theorem State.treeWrite_stays {w_ : List Part} {z s : State} (after : State) (t : Nat) (h_after : Stays w_ z after) (hw : Has
    [.regs] w_) (hk : Stays w_ z s) : Stays w_ z (State.treeWrite s after t) := by
  unfold State.treeWrite
  repeat' (first
    | with_reducible assumption
    | with_reducible exact Has.sub hw (by decide)
    | with_reducible exact Has.mem hw (by decide)
    | intro _
    | with_reducible apply Stays.ite
    | with_reducible apply State.put_stays
    | with_reducible apply h_after
    | (extract_lets)
    | split)

theorem State.colRun_stays {w_ : List Part} {z s : State} (req : Requester) (opcode : Nat) (hw : Has [.glb, .regs, .ctrs, .srcs,
    .banks, .lnk, .hif, .col, .bst, .out] w_) (hk : Stays w_ z s) : PStays w_ z (State.colRun s req opcode) := by
  unfold State.colRun
  repeat' (first
    | with_reducible assumption
    | with_reducible exact Has.sub hw (by decide)
    | with_reducible exact Has.mem hw (by decide)
    | intro _
    | with_reducible apply PStays.ite
    | with_reducible apply Stays.ite
    | with_reducible apply Stays.foldl
    | with_reducible apply PStays.foldl
    | with_reducible apply QStays.foldl
    | with_reducible apply PStays.fst
    | with_reducible apply State.setColTree_stays
    | with_reducible apply State.tableWrite_stays
    | (extract_lets)
    | split
    | with_reducible apply PStays.pair
    | (with_reducible refine PStays.eq (by assumption) ?_)
    | with_reducible apply Stays.set_col)

theorem State.colCmd_stays {w_ : List Part} {z s : State} (req : Requester) (v : Nat) (hw : Has [.glb, .regs, .ctrs, .srcs,
    .banks, .lnk, .hif, .trn, .col, .bst, .out, .free] w_) (hk : Stays w_ z s) : Stays w_ z (State.colCmd s req v) := by
  unfold State.colCmd
  repeat' (first
    | with_reducible assumption
    | with_reducible exact Has.sub hw (by decide)
    | with_reducible exact Has.mem hw (by decide)
    | intro _
    | with_reducible apply Stays.ite
    | with_reducible apply PStays.fst
    | with_reducible apply State.badAccess_stays
    | with_reducible apply State.colRun_stays
    | with_reducible apply State.put_stays
    | with_reducible apply State.result_stays
    | (extract_lets)
    | split
    | with_reducible apply PStays.pair
    | (with_reducible refine PStays.eq (by assumption) ?_))

theorem State.treeResume_stays {w_ : List Part} {z s : State} (t : Nat) (hw : Has [.col] w_) (hk : Stays w_ z s) : Stays w_ z
    (State.treeResume s t) := by
  unfold State.treeResume
  repeat' (first
    | with_reducible assumption
    | with_reducible exact Has.sub hw (by decide)
    | with_reducible exact Has.mem hw (by decide)
    | intro _
    | with_reducible apply Stays.ite
    | with_reducible apply State.setColTree_stays
    | (extract_lets)
    | split
    | with_reducible apply Stays.set_col)

theorem State.resumeTrees_stays {w_ : List Part} {z s : State} (hw : Has [.col] w_) (hk : Stays w_ z s) : Stays w_ z
    (State.resumeTrees s) := by
  unfold State.resumeTrees
  repeat' (first
    | with_reducible assumption
    | with_reducible exact Has.sub hw (by decide)
    | with_reducible exact Has.mem hw (by decide)
    | intro _
    | with_reducible apply Stays.foldl
    | with_reducible apply PStays.foldl
    | with_reducible apply QStays.foldl
    | with_reducible apply State.treeResume_stays
    | (extract_lets)
    | split)

theorem execTreeResumeEffect_stays {w_ : List Part} {z s : State} (t : Nat) (hw : Has [.col] w_) (hk : Stays w_ z s) : OutStays w_
    z (execTreeResumeEffect t s) := by
  unfold execTreeResumeEffect
  repeat' (first
    | with_reducible assumption
    | with_reducible exact Has.sub hw (by decide)
    | with_reducible exact Has.mem hw (by decide)
    | intro _
    | with_reducible apply OutStays.ite
    | with_reducible apply Stays.ite
    | with_reducible apply OutStays.next
    | with_reducible apply State.treeResume_stays
    | (extract_lets)
    | split)

end Sys2Proof.Machine
end

