-- ==== Sys2Proof/Laws/StaysSettle.lean ====
section
/-! SUPPORT. Laws/Stays.lean, for the operations of Machine/Settle.lean. -/
namespace Sys2Proof.Machine

theorem State.oweSkip_stays {w_ : List Part} {z s : State} (k : Skip) (hw : Has [.mch] w_) (hk : Stays w_ z s) : Stays w_ z
    (State.oweSkip s k) := by
  unfold State.oweSkip
  repeat' (first
    | with_reducible assumption
    | with_reducible exact Has.sub hw (by decide)
    | with_reducible exact Has.mem hw (by decide)
    | intro _
    | with_reducible apply State.onMch_stays
    | (extract_lets)
    | split)

theorem State.freeRv_stays {w_ : List Part} {z s : State} (i : Nat) (hw : Has [.mch] w_) (hk : Stays w_ z s) : Stays w_ z
    (State.freeRv s i) := by
  unfold State.freeRv
  repeat' (first
    | with_reducible assumption
    | with_reducible exact Has.sub hw (by decide)
    | with_reducible exact Has.mem hw (by decide)
    | intro _
    | with_reducible apply State.onMch_stays
    | (extract_lets)
    | split)

theorem State.rvFail_stays {w_ : List Part} {z s : State} (i : Nat) (x : Rv) (r : Res) (hw : Has [.hif, .mch] w_) (hk : Stays w_ z
    s) : Stays w_ z (State.rvFail s i x r) := by
  unfold State.rvFail
  repeat' (first
    | with_reducible assumption
    | with_reducible exact Has.sub hw (by decide)
    | with_reducible exact Has.mem hw (by decide)
    | intro _
    | with_reducible apply State.finishEntry_stays
    | with_reducible apply State.freeRv_stays
    | with_reducible apply State.oweSkip_stays
    | (extract_lets)
    | split)

theorem State.sendSignal_stays {w_ : List Part} {z s : State} (q : Nat) (ctr : RingCtr) (o : Op) (hw : Has [.trn, .free] w_) (hk :
    Stays w_ z s) : Stays w_ z (State.sendSignal s q ctr o) := by
  unfold State.sendSignal
  repeat' (first
    | with_reducible assumption
    | with_reducible exact Has.sub hw (by decide)
    | with_reducible exact Has.mem hw (by decide)
    | intro _
    | with_reducible apply Stays.ite
    | with_reducible apply State.newOp_stays
    | (extract_lets)
    | split)

theorem State.entryDone_stays {w_ : List Part} {z s : State} (n : Nat) (o : Op) (q : Nat) (ctr : RingCtr) (r : Res) (hw : Has
    [.hif, .trn, .mch, .free] w_) (hk : Stays w_ z s) : Stays w_ z (State.entryDone s n o q ctr r) := by
  unfold State.entryDone
  repeat' (first
    | with_reducible assumption
    | with_reducible exact Has.sub hw (by decide)
    | with_reducible exact Has.mem hw (by decide)
    | intro _
    | with_reducible apply Stays.ite
    | with_reducible apply State.delOp_stays
    | with_reducible apply State.finishEntry_stays
    | with_reducible apply State.oweSkip_stays
    | with_reducible apply State.sendSignal_stays
    | (extract_lets)
    | split)

theorem State.rvDataFail_stays {w_ : List Part} {z s : State} (o : Op) (rv gen : Nat) (r : Res) (hw : Has [.hif, .trn, .mch,
    .free] w_) (hk : Stays w_ z s) : Stays w_ z (State.rvDataFail s o rv gen r) := by
  unfold State.rvDataFail
  repeat' (first
    | with_reducible assumption
    | with_reducible exact Has.sub hw (by decide)
    | with_reducible exact Has.mem hw (by decide)
    | intro _
    | with_reducible apply Stays.ite
    | with_reducible apply State.newOp_stays
    | with_reducible apply State.rvFail_stays
    | (extract_lets)
    | split)

theorem State.getFail_stays {w_ : List Part} {z s : State} (n : Nat) (o : Op) (uid : Nat) (r : Res) (hw : Has [.trn, .rma, .free]
    w_) (hk : Stays w_ z s) : Stays w_ z (State.getFail s n o uid r) := by
  unfold State.getFail
  repeat' (first
    | with_reducible assumption
    | with_reducible exact Has.sub hw (by decide)
    | with_reducible exact Has.mem hw (by decide)
    | intro _
    | with_reducible apply Stays.ite
    | with_reducible apply State.addRef_stays
    | with_reducible apply State.dropRef_stays
    | with_reducible apply State.newOp_stays
    | with_reducible apply State.setOp_stays
    | (extract_lets)
    | split)

theorem State.opFinished_stays {w_ : List Part} {z s : State} (n : Nat) (o : Op) (r : Res) (hw : Has [.glb, .regs, .ctrs, .srcs,
    .banks, .hif, .trn, .mch, .rma, .lck, .brg, .out, .free] w_) (hk : Stays w_ z s) : Stays w_ z (State.opFinished s n o r) := by
  unfold State.opFinished
  repeat' (first
    | with_reducible assumption
    | with_reducible exact Has.sub hw (by decide)
    | with_reducible exact Has.mem hw (by decide)
    | intro _
    | with_reducible apply Stays.ite
    | with_reducible apply State.completeRecv_stays
    | with_reducible apply State.delOp_stays
    | with_reducible apply State.dropRef_stays
    | with_reducible apply State.entryDone_stays
    | with_reducible apply State.finishEntry_stays
    | with_reducible apply State.flFailed_stays
    | with_reducible apply State.freeRv_stays
    | with_reducible apply State.getFail_stays
    | with_reducible apply State.onBrg_stays
    | with_reducible apply State.onMch_stays
    | with_reducible apply State.onRma_stays
    | with_reducible apply State.oweSkip_stays
    | with_reducible apply State.prefetchDone_stays
    | with_reducible apply State.rvDataFail_stays
    | with_reducible apply State.rvFail_stays
    | (extract_lets)
    | split)

theorem State.settleOp_stays {w_ : List Part} {z s : State} (i : Nat) (hw : Has [.glb, .regs, .ctrs, .srcs, .banks, .hif, .trn,
    .mch, .rma, .lck, .brg, .out, .free] w_) (hk : Stays w_ z s) : Stays w_ z (State.settleOp s i) := by
  unfold State.settleOp
  repeat' (first
    | with_reducible assumption
    | with_reducible exact Has.sub hw (by decide)
    | with_reducible exact Has.mem hw (by decide)
    | intro _
    | with_reducible apply Stays.ite
    | with_reducible apply State.finishOp_stays
    | with_reducible apply State.opFinished_stays
    | with_reducible apply State.setOp_stays
    | (extract_lets)
    | split)

theorem State.settleCache_stays {w_ : List Part} {z s : State} (hw : Has [.glb, .ctrs, .srcs, .banks, .hif, .out] w_) (hk : Stays
    w_ z s) : Stays w_ z (State.settleCache s) := by
  unfold State.settleCache
  repeat' (first
    | with_reducible assumption
    | with_reducible exact Has.sub hw (by decide)
    | with_reducible exact Has.mem hw (by decide)
    | intro _
    | with_reducible apply Stays.ite
    | with_reducible apply State.level_stays
    | (extract_lets)
    | split)

theorem State.settle_stays {w_ : List Part} {z s : State} (hw : Has [.glb, .regs, .ctrs, .srcs, .banks, .lnk, .rte, .sch, .hif,
    .trn, .mch, .rma, .lck, .brg, .col, .xlt, .out, .free] w_) (hk : Stays w_ z s) : Stays w_ z (State.settle s) := by
  unfold State.settle
  repeat' (first
    | with_reducible assumption
    | with_reducible exact Has.sub hw (by decide)
    | with_reducible exact Has.mem hw (by decide)
    | intro _
    | with_reducible apply Stays.foldl
    | with_reducible apply PStays.foldl
    | with_reducible apply QStays.foldl
    | with_reducible apply State.settleBrg_stays
    | with_reducible apply State.settleCache_stays
    | with_reducible apply State.settleCol_stays
    | with_reducible apply State.settleMch_stays
    | with_reducible apply State.settleOp_stays
    | with_reducible apply State.settleReset_stays
    | with_reducible apply State.settleXlt_stays
    | (extract_lets)
    | split)

end Sys2Proof.Machine
end

