-- ==== Sys2Proof/Laws/StaysTrnCmd.lean ====
section
/-! SUPPORT. Laws/Stays.lean, for the operations of Machine/TrnCmd.lean. -/
namespace Sys2Proof.Machine

theorem State.makeRoom_stays {w_ : List Part} {z s : State} (hw : Has [.ctrs, .trn, .out, .free] w_) (hk : Stays w_ z s) : Stays
    w_ z (State.makeRoom s) := by
  unfold State.makeRoom
  repeat' (first
    | with_reducible assumption
    | with_reducible exact Has.sub hw (by decide)
    | with_reducible exact Has.mem hw (by decide)
    | intro _
    | with_reducible apply Stays.ite
    | with_reducible apply State.evictOne_stays
    | (extract_lets)
    | split)

theorem State.recordRead_stays {w_ : List Part} {z s : State} (k : Nat) (d : Data) (inbound : Bool) (hw : Has [.glb, .regs, .ctrs,
    .srcs, .banks, .sch, .hif, .trn, .bst, .out, .free] w_) (hk : Stays w_ z s) : Stays w_ z (State.recordRead s k d inbound) :=
    by
  unfold State.recordRead
  repeat' (first
    | with_reducible assumption
    | with_reducible exact Has.sub hw (by decide)
    | with_reducible exact Has.mem hw (by decide)
    | intro _
    | with_reducible apply Stays.ite
    | with_reducible apply QStays.snd
    | with_reducible apply State.draw_staysQ
    | with_reducible apply State.bump_stays
    | with_reducible apply State.fillBank_stays
    | with_reducible apply State.freshCtx_stays
    | with_reducible apply State.makeRoom_stays
    | with_reducible apply State.resetLoaded_stays
    | with_reducible apply State.setCtx_stays
    | (extract_lets)
    | split
    | with_reducible apply QStays.pair
    | (with_reducible refine QStays.eq (by assumption) ?_))

theorem State.recordBad_stays {w_ : List Part} {z s : State} (k cause : Nat) (inbound : Bool) (hw : Has [.regs, .trn, .free] w_)
    (hk : Stays w_ z s) : Stays w_ z (State.recordBad s k cause inbound) := by
  unfold State.recordBad
  repeat' (first
    | with_reducible assumption
    | with_reducible exact Has.sub hw (by decide)
    | with_reducible exact Has.mem hw (by decide)
    | intro _
    | with_reducible apply Stays.ite
    | with_reducible apply Stays.foldl
    | with_reducible apply PStays.foldl
    | with_reducible apply QStays.foldl
    | with_reducible apply PStays.fst
    | with_reducible apply QStays.snd
    | with_reducible apply State.draw_staysQ
    | with_reducible apply State.finishOp_stays
    | with_reducible apply State.trnResult_stays
    | (extract_lets)
    | split
    | with_reducible apply PStays.pair
    | with_reducible apply QStays.pair
    | (with_reducible refine PStays.eq (by assumption) ?_)
    | (with_reducible refine QStays.eq (by assumption) ?_)
    | with_reducible apply Stays.set_trn)

theorem execContextLoad_stays {w_ : List Part} {z s : State} (k : Nat) (r : ReadResult) (hw : Has [.glb, .regs, .ctrs, .srcs,
    .banks, .lnk, .rte, .sch, .hif, .trn, .mch, .rma, .lck, .brg, .col, .bst, .xlt, .out, .free] w_) (hk : Stays w_ z s) :
    OutStays w_ z (execContextLoad k r s) := by
  unfold execContextLoad
  repeat' (first
    | with_reducible assumption
    | with_reducible exact Has.sub hw (by decide)
    | with_reducible exact Has.mem hw (by decide)
    | intro _
    | with_reducible apply OutStays.next
    | with_reducible apply State.raise_stays
    | with_reducible apply State.recordBad_stays
    | with_reducible apply State.recordRead_stays
    | with_reducible apply State.settle_stays
    | (extract_lets)
    | split
    | with_reducible apply Stays.set_trn)

theorem execContextEvict_stays {w_ : List Part} {z s : State} (k : Nat) (hw : Has [.ctrs, .trn, .out] w_) (hk : Stays w_ z s) :
    OutStays w_ z (execContextEvict k s) := by
  unfold execContextEvict
  repeat' (first
    | with_reducible assumption
    | with_reducible exact Has.sub hw (by decide)
    | with_reducible exact Has.mem hw (by decide)
    | intro _
    | with_reducible apply OutStays.ite
    | with_reducible apply Stays.ite
    | with_reducible apply OutStays.next
    | with_reducible apply State.spill_stays
    | (extract_lets)
    | split)

theorem execTransportSend_stays {w_ : List Part} {z s : State} (i : Nat) (hm : HostView) (hw : Has [.glb, .regs, .ctrs, .srcs,
    .banks, .lnk, .rte, .sch, .hif, .trn, .mch, .rma, .lck, .brg, .col, .xlt, .out, .free] w_) (hk : Stays w_ z s) : OutStays w_ z
    (execTransportSend i hm s) := by
  unfold execTransportSend
  repeat' (first
    | with_reducible assumption
    | with_reducible exact Has.sub hw (by decide)
    | with_reducible exact Has.mem hw (by decide)
    | intro _
    | with_reducible apply OutStays.ite
    | with_reducible apply Stays.ite
    | with_reducible apply OutStays.next
    | with_reducible apply State.readGet_stays
    | with_reducible apply State.settle_stays
    | with_reducible apply State.transportSend_stays
    | (extract_lets)
    | split)

theorem execTransportRx_stays {w_ : List Part} {z s : State} (h : Nat) (hw : Has [.glb, .regs, .ctrs, .srcs, .banks, .lnk, .rte,
    .sch, .hif, .trn, .mch, .rma, .lck, .brg, .col, .xlt, .out, .free] w_) (hk : Stays w_ z s) : OutStays w_ z (execTransportRx h
    s) := by
  unfold execTransportRx
  repeat' (first
    | with_reducible assumption
    | with_reducible exact Has.sub hw (by decide)
    | with_reducible exact Has.mem hw (by decide)
    | intro _
    | with_reducible apply OutStays.ite
    | with_reducible apply Stays.ite
    | with_reducible apply OutStays.next
    | with_reducible apply State.settle_stays
    | with_reducible apply State.transportRx_stays
    | (extract_lets)
    | split)

theorem execAckRx_stays {w_ : List Part} {z s : State} (h : Nat) (hw : Has [.glb, .regs, .ctrs, .srcs, .banks, .lnk, .rte, .sch,
    .hif, .trn, .mch, .rma, .lck, .brg, .col, .xlt, .out, .free] w_) (hk : Stays w_ z s) : OutStays w_ z (execAckRx h s) := by
  unfold execAckRx
  repeat' (first
    | with_reducible assumption
    | with_reducible exact Has.sub hw (by decide)
    | with_reducible exact Has.mem hw (by decide)
    | intro _
    | with_reducible apply OutStays.ite
    | with_reducible apply Stays.ite
    | with_reducible apply OutStays.next
    | with_reducible apply State.ackRx_stays
    | with_reducible apply State.settle_stays
    | (extract_lets)
    | split)

theorem execAckCoalesceExpiry_stays {w_ : List Part} {z s : State} (k st : Nat) (hw : Has [.sch, .trn] w_) (hk : Stays w_ z s) :
    OutStays w_ z (execAckCoalesceExpiry k st s) := by
  unfold execAckCoalesceExpiry
  repeat' (first
    | with_reducible assumption
    | with_reducible exact Has.sub hw (by decide)
    | with_reducible exact Has.mem hw (by decide)
    | intro _
    | with_reducible apply OutStays.ite
    | with_reducible apply Stays.ite
    | with_reducible apply OutStays.next
    | with_reducible apply State.sendAck_stays
    | (extract_lets)
    | split)

theorem execAckRateRelease_stays {w_ : List Part} {z s : State} (k st : Nat) (hw : Has [.sch, .trn] w_) (hk : Stays w_ z s) :
    OutStays w_ z (execAckRateRelease k st s) := by
  unfold execAckRateRelease
  repeat' (first
    | with_reducible assumption
    | with_reducible exact Has.sub hw (by decide)
    | with_reducible exact Has.mem hw (by decide)
    | intro _
    | with_reducible apply OutStays.ite
    | with_reducible apply Stays.ite
    | with_reducible apply OutStays.next
    | with_reducible apply State.sendAck_stays
    | (extract_lets)
    | split)

theorem State.rnrRefused_stays {w_ : List Part} {z s : State} (i : Nat) (o : Op) (hw : Has [.ctrs, .trn] w_) (hk : Stays w_ z s) :
    Stays w_ z (State.rnrRefused s i o) := by
  unfold State.rnrRefused
  repeat' (first
    | with_reducible assumption
    | with_reducible exact Has.sub hw (by decide)
    | with_reducible exact Has.mem hw (by decide)
    | intro _
    | with_reducible apply Stays.ite
    | with_reducible apply State.bump_stays
    | with_reducible apply State.finishOp_stays
    | with_reducible apply State.setOp_stays
    | (extract_lets)
    | split)

theorem State.resultFow_stays {w_ : List Part} {z s : State} (i : Nat) (o : Op) (status detail : Nat) (hw : Has [.ctrs, .trn] w_)
    (hk : Stays w_ z s) : Stays w_ z (State.resultFor s i o status detail) := by
  unfold State.resultFor
  repeat' (first
    | with_reducible assumption
    | with_reducible exact Has.sub hw (by decide)
    | with_reducible exact Has.mem hw (by decide)
    | intro _
    | with_reducible apply Stays.ite
    | with_reducible apply State.finishOp_stays
    | with_reducible apply State.rnrRefused_stays
    | with_reducible apply State.setOp_stays
    | (extract_lets)
    | split)

theorem execResultRx_stays {w_ : List Part} {z s : State} (hw : Has [.glb, .regs, .ctrs, .srcs, .banks, .lnk, .rte, .sch, .hif,
    .trn, .mch, .rma, .lck, .brg, .col, .xlt, .out, .free] w_) (hk : Stays w_ z s) : OutStays w_ z (execResultRx s) := by
  unfold execResultRx
  repeat' (first
    | with_reducible assumption
    | with_reducible exact Has.sub hw (by decide)
    | with_reducible exact Has.mem hw (by decide)
    | intro _
    | with_reducible apply OutStays.ite
    | with_reducible apply Stays.ite
    | with_reducible apply OutStays.next
    | with_reducible apply State.bump_stays
    | with_reducible apply State.resultFow_stays
    | with_reducible apply State.settle_stays
    | with_reducible apply State.takeArw_stays
    | (extract_lets)
    | split)

theorem execRetxTimerExpiry_stays {w_ : List Part} {z s : State} (k st : Nat) (hw : Has [.glb, .regs, .ctrs, .srcs, .banks, .lnk,
    .rte, .sch, .hif, .trn, .mch, .rma, .lck, .brg, .col, .xlt, .out, .free] w_) (hk : Stays w_ z s) : OutStays w_ z
    (execRetxTimerExpiry k st s) := by
  unfold execRetxTimerExpiry
  repeat' (first
    | with_reducible assumption
    | with_reducible exact Has.sub hw (by decide)
    | with_reducible exact Has.mem hw (by decide)
    | intro _
    | with_reducible apply OutStays.ite
    | with_reducible apply Stays.ite
    | with_reducible apply Stays.foldl
    | with_reducible apply PStays.foldl
    | with_reducible apply QStays.foldl
    | with_reducible apply OutStays.next
    | with_reducible apply State.bump_stays
    | with_reducible apply State.onCtx_stays
    | with_reducible apply State.retransmit_stays
    | with_reducible apply State.settle_stays
    | (extract_lets)
    | split)

theorem execEarlyRetx_stays {w_ : List Part} {z s : State} (k st : Nat) (hw : Has [.glb, .regs, .ctrs, .srcs, .banks, .lnk, .rte,
    .sch, .hif, .trn, .mch, .rma, .lck, .brg, .col, .xlt, .out, .free] w_) (hk : Stays w_ z s) : OutStays w_ z (execEarlyRetx k st
    s) := by
  unfold execEarlyRetx
  repeat' (first
    | with_reducible assumption
    | with_reducible exact Has.sub hw (by decide)
    | with_reducible exact Has.mem hw (by decide)
    | intro _
    | with_reducible apply OutStays.ite
    | with_reducible apply Stays.ite
    | with_reducible apply OutStays.next
    | with_reducible apply State.onCtx_stays
    | with_reducible apply State.retransmit_stays
    | with_reducible apply State.settle_stays
    | (extract_lets)
    | split)

theorem execGenerationRoll_stays {w_ : List Part} {z s : State} (k : Nat) (hw : Has [.glb, .regs, .ctrs, .srcs, .banks, .lnk,
    .rte, .sch, .hif, .trn, .mch, .rma, .lck, .brg, .col, .xlt, .out, .free] w_) (hk : Stays w_ z s) : OutStays w_ z
    (execGenerationRoll k s) := by
  unfold execGenerationRoll
  repeat' (first
    | with_reducible assumption
    | with_reducible exact Has.sub hw (by decide)
    | with_reducible exact Has.mem hw (by decide)
    | intro _
    | with_reducible apply OutStays.ite
    | with_reducible apply Stays.ite
    | with_reducible apply OutStays.next
    | with_reducible apply State.bump_stays
    | with_reducible apply State.ctxErrow_stays
    | with_reducible apply State.onCtx_stays
    | with_reducible apply State.settle_stays
    | (extract_lets)
    | split)

theorem execCtxErrorExit_stays {w_ : List Part} {z s : State} (k : Nat) (hw : Has [.glb, .regs, .ctrs, .srcs, .banks, .lnk, .rte,
    .sch, .hif, .trn, .mch, .rma, .lck, .brg, .col, .xlt, .out, .free] w_) (hk : Stays w_ z s) : OutStays w_ z (execCtxErrorExit k
    s) := by
  unfold execCtxErrorExit
  repeat' (first
    | with_reducible assumption
    | with_reducible exact Has.sub hw (by decide)
    | with_reducible exact Has.mem hw (by decide)
    | intro _
    | with_reducible apply OutStays.ite
    | with_reducible apply Stays.ite
    | with_reducible apply OutStays.next
    | with_reducible apply State.ctxErrow_stays
    | with_reducible apply State.onCtx_stays
    | with_reducible apply State.settle_stays
    | (extract_lets)
    | split)

theorem execRnrResend_stays {w_ : List Part} {z s : State} (i : Nat) (hw : Has [.trn] w_) (hk : Stays w_ z s) : OutStays w_ z
    (execRnrResend i s) := by
  unfold execRnrResend
  repeat' (first
    | with_reducible assumption
    | with_reducible exact Has.sub hw (by decide)
    | with_reducible exact Has.mem hw (by decide)
    | intro _
    | with_reducible apply OutStays.ite
    | with_reducible apply Stays.ite
    | with_reducible apply OutStays.next
    | with_reducible apply State.setOp_stays
    | (extract_lets)
    | split)

theorem execResponseTimeout_stays {w_ : List Part} {z s : State} (i : Nat) (hw : Has [.glb, .regs, .ctrs, .srcs, .banks, .lnk,
    .rte, .sch, .hif, .trn, .mch, .rma, .lck, .brg, .col, .xlt, .out, .free] w_) (hk : Stays w_ z s) : OutStays w_ z
    (execResponseTimeout i s) := by
  unfold execResponseTimeout
  repeat' (first
    | with_reducible assumption
    | with_reducible exact Has.sub hw (by decide)
    | with_reducible exact Has.mem hw (by decide)
    | intro _
    | with_reducible apply OutStays.ite
    | with_reducible apply Stays.ite
    | with_reducible apply OutStays.next
    | with_reducible apply State.finishOp_stays
    | with_reducible apply State.settle_stays
    | (extract_lets)
    | split)

theorem State.regionEnd_stays {w_ : List Part} {z s : State} (hp slot detail : Nat) (lose : Bool) (hw : Has [.regs, .ctrs, .sch,
    .trn, .out, .free] w_) (hk : Stays w_ z s) : Stays w_ z (State.regionEnd s hp slot detail lose) := by
  unfold State.regionEnd
  repeat' (first
    | with_reducible assumption
    | with_reducible exact Has.sub hw (by decide)
    | with_reducible exact Has.mem hw (by decide)
    | intro _
    | with_reducible apply Stays.ite
    | with_reducible apply Stays.foldl
    | with_reducible apply PStays.foldl
    | with_reducible apply QStays.foldl
    | with_reducible apply PStays.fst
    | with_reducible apply QStays.snd
    | with_reducible apply State.draw_staysQ
    | with_reducible apply State.finishOp_stays
    | with_reducible apply State.spill_stays
    | with_reducible apply State.trnResult_stays
    | (extract_lets)
    | split
    | with_reducible apply PStays.pair
    | with_reducible apply QStays.pair
    | (with_reducible refine PStays.eq (by assumption) ?_)
    | (with_reducible refine QStays.eq (by assumption) ?_)
    | with_reducible apply Stays.set_trn
    | with_reducible apply Stays.set_sch_trn
    | with_reducible apply Stays.set_sch_trn)

theorem State.regionFlush_stays {w_ : List Part} {z s : State} (r : Nat) (hw : Has [.ctrs, .trn, .out, .free] w_) (hk : Stays w_ z
    s) : Stays w_ z (State.regionFlush s r) := by
  unfold State.regionFlush
  repeat' (first
    | with_reducible assumption
    | with_reducible exact Has.sub hw (by decide)
    | with_reducible exact Has.mem hw (by decide)
    | intro _
    | with_reducible apply Stays.foldl
    | with_reducible apply PStays.foldl
    | with_reducible apply QStays.foldl
    | with_reducible apply PStays.fst
    | with_reducible apply QStays.snd
    | with_reducible apply State.draw_staysQ
    | with_reducible apply State.spill_stays
    | (extract_lets)
    | split
    | with_reducible apply PStays.pair
    | with_reducible apply QStays.pair
    | (with_reducible refine PStays.eq (by assumption) ?_)
    | (with_reducible refine QStays.eq (by assumption) ?_))

theorem State.trnRun_stays {w_ : List Part} {z s : State} (req : Requester) (op : Nat) (hw : Has [.glb, .regs, .ctrs, .srcs,
    .banks, .lnk, .sch, .hif, .trn, .bst, .out, .free] w_) (hk : Stays w_ z s) : PStays w_ z (State.trnRun s req op) := by
  unfold State.trnRun
  repeat' (first
    | with_reducible assumption
    | with_reducible exact Has.sub hw (by decide)
    | with_reducible exact Has.mem hw (by decide)
    | intro _
    | with_reducible apply PStays.ite
    | with_reducible apply Stays.ite
    | with_reducible apply PStays.fst
    | with_reducible apply State.ctxErrow_stays
    | with_reducible apply State.needCtx_stays
    | with_reducible apply State.regionEnd_stays
    | with_reducible apply State.regionFlush_stays
    | with_reducible apply State.tableWrite_stays
    | (extract_lets)
    | split
    | with_reducible apply PStays.pair
    | (with_reducible refine PStays.eq (by assumption) ?_)
    | with_reducible apply Stays.set_trn)

theorem State.trnCmd_stays {w_ : List Part} {z s : State} (req : Requester) (v : Nat) (hw : Has [.glb, .regs, .ctrs, .srcs,
    .banks, .lnk, .rte, .sch, .hif, .trn, .mch, .rma, .lck, .brg, .col, .bst, .xlt, .out, .free] w_) (hk : Stays w_ z s) : Stays
    w_ z (State.trnCmd s req v) := by
  unfold State.trnCmd
  repeat' (first
    | with_reducible assumption
    | with_reducible exact Has.sub hw (by decide)
    | with_reducible exact Has.mem hw (by decide)
    | intro _
    | with_reducible apply Stays.ite
    | with_reducible apply PStays.fst
    | with_reducible apply State.badAccess_stays
    | with_reducible apply State.put_stays
    | with_reducible apply State.settle_stays
    | with_reducible apply State.trnRun_stays
    | (extract_lets)
    | split
    | with_reducible apply PStays.pair
    | (with_reducible refine PStays.eq (by assumption) ?_))

end Sys2Proof.Machine
end

