-- ==== Sys2Proof/Laws/StaysMchCmd.lean ====
section
/-! SUPPORT. Laws/Stays.lean, for the operations of Machine/MchCmd.lean. -/
namespace Sys2Proof.Machine

theorem State.sendEagew_stays {w_ : List Part} {z s : State} (q : Nat) (v : Sq) (e : Ent) (p : Ep) (msn : Nat) (hw : Has [.hif,
    .trn, .free] w_) (hk : Stays w_ z s) : Stays w_ z (State.sendEager s q v e p msn) := by
  unfold State.sendEager
  repeat' (first
    | with_reducible assumption
    | with_reducible exact Has.sub hw (by decide)
    | with_reducible exact Has.mem hw (by decide)
    | intro _
    | with_reducible apply State.newOp_stays
    | with_reducible apply State.runEntry_stays
    | (extract_lets)
    | split)

theorem State.sendRts_stays {w_ : List Part} {z s : State} (q : Nat) (v : Sq) (e : Ent) (p : Ep) (msn i : Nat) (hw : Has [.hif,
    .trn, .mch, .free] w_) (hk : Stays w_ z s) : Stays w_ z (State.sendRts s q v e p msn i) := by
  unfold State.sendRts
  repeat' (first
    | with_reducible assumption
    | with_reducible exact Has.sub hw (by decide)
    | with_reducible exact Has.mem hw (by decide)
    | intro _
    | with_reducible apply State.newOp_stays
    | with_reducible apply State.onMch_stays
    | with_reducible apply State.runEntry_stays
    | (extract_lets)
    | split)

theorem State.msgSend_stays {w_ : List Part} {z s : State} (q : Nat) (v : Sq) (e : Ent) (p : Ep) (r : OrderRec) (hw : Has [.hif,
    .trn, .mch, .free] w_) (hk : Stays w_ z s) : Stays w_ z (State.msgSend s q v e p r) := by
  unfold State.msgSend
  repeat' (first
    | with_reducible assumption
    | with_reducible exact Has.sub hw (by decide)
    | with_reducible exact Has.mem hw (by decide)
    | intro _
    | with_reducible apply Stays.ite
    | with_reducible apply QStays.snd
    | with_reducible apply State.draw_staysQ
    | with_reducible apply State.pick_stays
    | with_reducible apply State.sendEagew_stays
    | with_reducible apply State.sendRts_stays
    | with_reducible apply State.setMsn_stays
    | (extract_lets)
    | split
    | with_reducible apply QStays.pair
    | (with_reducible refine QStays.eq (by assumption) ?_))

theorem execMsgSend_stays {w_ : List Part} {z s : State} (q : Nat) (hw : Has [.glb, .regs, .ctrs, .srcs, .banks, .lnk, .rte, .sch,
    .hif, .trn, .mch, .rma, .lck, .brg, .col, .xlt, .out, .free] w_) (hk : Stays w_ z s) : OutStays w_ z (execMsgSend q s) := by
  unfold execMsgSend
  repeat' (first
    | with_reducible assumption
    | with_reducible exact Has.sub hw (by decide)
    | with_reducible exact Has.mem hw (by decide)
    | intro _
    | with_reducible apply OutStays.ite
    | with_reducible apply Stays.ite
    | with_reducible apply PStays.fst
    | with_reducible apply OutStays.next
    | with_reducible apply State.finishEntry_stays
    | with_reducible apply State.msgSend_stays
    | with_reducible apply State.needOrdew_stays
    | with_reducible apply State.settle_stays
    | (extract_lets)
    | split
    | with_reducible apply PStays.pair
    | (with_reducible refine PStays.eq (by assumption) ?_))

theorem State.postRecv_stays {w_ : List Part} {z s : State} (ep : Nat) (p : Posted) (hw : Has [.mch, .out, .free] w_) (hk : Stays
    w_ z s) : OptStays w_ z (State.postRecv s ep p) := by
  unfold State.postRecv
  repeat' (first
    | with_reducible assumption
    | with_reducible exact Has.sub hw (by decide)
    | with_reducible exact Has.mem hw (by decide)
    | intro _
    | with_reducible apply OptStays.ite
    | with_reducible apply Stays.ite
    | with_reducible exact OptStays.none _
    | with_reducible apply OptStays.some
    | with_reducible apply State.setPosted_stays
    | with_reducible apply State.toOverflow_stays
    | (extract_lets)
    | split
    | (with_reducible refine OptStays.eq (by assumption) ?_))

theorem execMsgPost_stays {w_ : List Part} {z s : State} (q : Nat) (hw : Has [.glb, .regs, .ctrs, .srcs, .banks, .lnk, .rte, .sch,
    .hif, .trn, .mch, .rma, .lck, .brg, .col, .xlt, .out, .free] w_) (hk : Stays w_ z s) : OutStays w_ z (execMsgPost q s) := by
  unfold execMsgPost
  repeat' (first
    | with_reducible assumption
    | with_reducible exact Has.sub hw (by decide)
    | with_reducible exact Has.mem hw (by decide)
    | intro _
    | with_reducible apply OutStays.ite
    | with_reducible apply Stays.ite
    | with_reducible exact OptStays.none _
    | with_reducible apply OptStays.some
    | with_reducible apply OutStays.next
    | with_reducible apply State.finishEntry_stays
    | with_reducible apply State.paiw_stays
    | with_reducible apply State.postRecv_stays
    | with_reducible apply State.settle_stays
    | (extract_lets)
    | split
    | (with_reducible refine OptStays.eq (by assumption) ?_))

theorem State.cancelled_stays {w_ : List Part} {z s : State} (q : Nat) (v : Sq) (e : Ent) (p : Posted) (hw : Has [.glb, .ctrs,
    .srcs, .banks, .hif, .mch, .out, .free] w_) (hk : Stays w_ z s) : Stays w_ z (State.cancelled s q v e p) := by
  unfold State.cancelled
  repeat' (first
    | with_reducible assumption
    | with_reducible exact Has.sub hw (by decide)
    | with_reducible exact Has.mem hw (by decide)
    | intro _
    | with_reducible apply Stays.ite
    | with_reducible apply State.cancelPosted_stays
    | with_reducible apply State.finishEntry_stays
    | with_reducible apply State.onMch_stays
    | with_reducible apply State.runEntry_stays
    | (extract_lets)
    | split)

theorem execMsgCancel_stays {w_ : List Part} {z s : State} (q : Nat) (hw : Has [.glb, .ctrs, .srcs, .banks, .hif, .mch, .out,
    .free] w_) (hk : Stays w_ z s) : OutStays w_ z (execMsgCancel q s) := by
  unfold execMsgCancel
  repeat' (first
    | with_reducible assumption
    | with_reducible exact Has.sub hw (by decide)
    | with_reducible exact Has.mem hw (by decide)
    | intro _
    | with_reducible apply OutStays.ite
    | with_reducible apply Stays.ite
    | with_reducible apply PStays.fst
    | with_reducible apply QStays.snd
    | with_reducible apply State.draw_staysQ
    | with_reducible apply OutStays.next
    | with_reducible apply State.cancelled_stays
    | with_reducible apply State.draw_stays
    | with_reducible apply State.finishEntry_stays
    | with_reducible apply State.search_stays
    | with_reducible apply State.unpost_stays
    | (extract_lets)
    | split
    | with_reducible apply PStays.pair
    | with_reducible apply QStays.pair
    | (with_reducible refine PStays.eq (by assumption) ?_)
    | (with_reducible refine QStays.eq (by assumption) ?_))

theorem execMsgProbe_stays {w_ : List Part} {z s : State} (q : Nat) (hw : Has [.hif, .mch, .free] w_) (hk : Stays w_ z s) :
    OutStays w_ z (execMsgProbe q s) := by
  unfold execMsgProbe
  repeat' (first
    | with_reducible assumption
    | with_reducible exact Has.sub hw (by decide)
    | with_reducible exact Has.mem hw (by decide)
    | intro _
    | with_reducible apply OutStays.ite
    | with_reducible apply Stays.ite
    | with_reducible apply QStays.snd
    | with_reducible apply State.draw_staysQ
    | with_reducible apply OutStays.next
    | with_reducible apply State.draw_stays
    | with_reducible apply State.finishEntry_stays
    | with_reducible apply State.setHdw_stays
    | (extract_lets)
    | split
    | with_reducible apply QStays.pair
    | (with_reducible refine QStays.eq (by assumption) ?_))

theorem execMsgMrecv_stays {w_ : List Part} {z s : State} (q : Nat) (hw : Has [.glb, .regs, .ctrs, .srcs, .banks, .lnk, .rte,
    .sch, .hif, .trn, .mch, .rma, .lck, .brg, .col, .xlt, .out, .free] w_) (hk : Stays w_ z s) : OutStays w_ z (execMsgMrecv q s)
    := by
  unfold execMsgMrecv
  repeat' (first
    | with_reducible assumption
    | with_reducible exact Has.sub hw (by decide)
    | with_reducible exact Has.mem hw (by decide)
    | intro _
    | with_reducible apply OutStays.ite
    | with_reducible apply Stays.ite
    | with_reducible apply OutStays.next
    | with_reducible apply State.finishEntry_stays
    | with_reducible apply State.malformed_stays
    | with_reducible apply State.paiw_stays
    | with_reducible apply State.settle_stays
    | (extract_lets)
    | split)

theorem execMsgPostLb_stays {w_ : List Part} {z s : State} (q : Nat) (hw : Has [.hif, .mch] w_) (hk : Stays w_ z s) : OutStays w_
    z (execMsgPostLb q s) := by
  unfold execMsgPostLb
  repeat' (first
    | with_reducible assumption
    | with_reducible exact Has.sub hw (by decide)
    | with_reducible exact Has.mem hw (by decide)
    | intro _
    | with_reducible apply OutStays.ite
    | with_reducible apply Stays.ite
    | with_reducible apply OutStays.next
    | with_reducible apply State.finishEntry_stays
    | with_reducible apply State.onMch_stays
    | (extract_lets)
    | split)

theorem execEagerRx_stays {w_ : List Part} {z s : State} (hw : Has [.glb, .regs, .ctrs, .srcs, .banks, .lnk, .rte, .sch, .hif,
    .trn, .mch, .rma, .lck, .brg, .col, .xlt, .out, .free] w_) (hk : Stays w_ z s) : OutStays w_ z (execEagerRx s) := by
  unfold execEagerRx
  repeat' (first
    | with_reducible assumption
    | with_reducible exact Has.sub hw (by decide)
    | with_reducible exact Has.mem hw (by decide)
    | intro _
    | with_reducible apply OutStays.next
    | with_reducible apply State.onMsg_stays
    | with_reducible apply State.settle_stays
    | (extract_lets)
    | split)

theorem execRtsRx_stays {w_ : List Part} {z s : State} (hw : Has [.glb, .regs, .ctrs, .srcs, .banks, .lnk, .rte, .sch, .hif, .trn,
    .mch, .rma, .lck, .brg, .col, .xlt, .out, .free] w_) (hk : Stays w_ z s) : OutStays w_ z (execRtsRx s) := by
  unfold execRtsRx
  repeat' (first
    | with_reducible assumption
    | with_reducible exact Has.sub hw (by decide)
    | with_reducible exact Has.mem hw (by decide)
    | intro _
    | with_reducible apply OutStays.next
    | with_reducible apply State.onMsg_stays
    | with_reducible apply State.settle_stays
    | (extract_lets)
    | split)

theorem State.onRvGet_stays {w_ : List Part} {z s : State} (a : Arr) (hw : Has [.ctrs, .lnk, .rte, .sch, .hif, .trn, .mch, .free]
    w_) (hk : Stays w_ z s) : Stays w_ z (State.onRvGet s a) := by
  unfold State.onRvGet
  repeat' (first
    | with_reducible assumption
    | with_reducible exact Has.sub hw (by decide)
    | with_reducible exact Has.mem hw (by decide)
    | intro _
    | with_reducible apply Stays.ite
    | with_reducible apply State.abandon_stays
    | with_reducible apply State.newOp_stays
    | with_reducible apply State.onMch_stays
    | with_reducible apply State.result_stays
    | with_reducible apply State.rvFail_stays
    | with_reducible apply State.takeArw_stays
    | (extract_lets)
    | split)

theorem execRvGetRx_stays {w_ : List Part} {z s : State} (hw : Has [.glb, .regs, .ctrs, .srcs, .banks, .lnk, .rte, .sch, .hif,
    .trn, .mch, .rma, .lck, .brg, .col, .xlt, .out, .free] w_) (hk : Stays w_ z s) : OutStays w_ z (execRvGetRx s) := by
  unfold execRvGetRx
  repeat' (first
    | with_reducible assumption
    | with_reducible exact Has.sub hw (by decide)
    | with_reducible exact Has.mem hw (by decide)
    | intro _
    | with_reducible apply OutStays.next
    | with_reducible apply State.onRvGet_stays
    | with_reducible apply State.settle_stays
    | (extract_lets)
    | split)

theorem State.rvGot_stays {w_ : List Part} {z s : State} (i gen : Nat) (hw : Has [.trn] w_) (hk : Stays w_ z s) : Stays w_ z
    (State.rvGot s i gen) := by
  unfold State.rvGot
  repeat' (first
    | with_reducible assumption
    | with_reducible exact Has.sub hw (by decide)
    | with_reducible exact Has.mem hw (by decide)
    | intro _
    | with_reducible apply Stays.ite
    | with_reducible apply State.setOp_stays
    | (extract_lets)
    | split)

theorem State.onRvData_stays {w_ : List Part} {z s : State} (a : Arr) (hw : Has [.regs, .ctrs, .trn, .mch, .xlt, .out, .free] w_)
    (hk : Stays w_ z s) : Stays w_ z (State.onRvData s a) := by
  unfold State.onRvData
  repeat' (first
    | with_reducible assumption
    | with_reducible exact Has.sub hw (by decide)
    | with_reducible exact Has.mem hw (by decide)
    | intro _
    | with_reducible apply Stays.ite
    | with_reducible apply PStays.fst
    | with_reducible apply State.payload_stays
    | with_reducible apply State.placeMsg_stays
    | with_reducible apply State.rvGot_stays
    | with_reducible apply State.takeArw_stays
    | (extract_lets)
    | split
    | with_reducible apply PStays.pair
    | (with_reducible refine PStays.eq (by assumption) ?_))

theorem execRvDataRx_stays {w_ : List Part} {z s : State} (hw : Has [.glb, .regs, .ctrs, .srcs, .banks, .lnk, .rte, .sch, .hif,
    .trn, .mch, .rma, .lck, .brg, .col, .xlt, .out, .free] w_) (hk : Stays w_ z s) : OutStays w_ z (execRvDataRx s) := by
  unfold execRvDataRx
  repeat' (first
    | with_reducible assumption
    | with_reducible exact Has.sub hw (by decide)
    | with_reducible exact Has.mem hw (by decide)
    | intro _
    | with_reducible apply OutStays.next
    | with_reducible apply State.onRvData_stays
    | with_reducible apply State.settle_stays
    | (extract_lets)
    | split)

theorem execSkipRx_stays {w_ : List Part} {z s : State} (hw : Has [.glb, .regs, .ctrs, .srcs, .banks, .lnk, .rte, .sch, .hif,
    .trn, .mch, .rma, .lck, .brg, .col, .xlt, .out, .free] w_) (hk : Stays w_ z s) : OutStays w_ z (execSkipRx s) := by
  unfold execSkipRx
  repeat' (first
    | with_reducible assumption
    | with_reducible exact Has.sub hw (by decide)
    | with_reducible exact Has.mem hw (by decide)
    | intro _
    | with_reducible apply OutStays.next
    | with_reducible apply State.onSkip_stays
    | with_reducible apply State.settle_stays
    | (extract_lets)
    | split)

theorem execSkipSend_stays {w_ : List Part} {z s : State} (hw : Has [.glb, .ctrs, .srcs, .banks, .hif, .trn, .mch, .out, .free]
    w_) (hk : Stays w_ z s) : OutStays w_ z (execSkipSend s) := by
  unfold execSkipSend
  repeat' (first
    | with_reducible assumption
    | with_reducible exact Has.sub hw (by decide)
    | with_reducible exact Has.mem hw (by decide)
    | intro _
    | with_reducible apply OutStays.ite
    | with_reducible apply Stays.ite
    | with_reducible apply PStays.fst
    | with_reducible apply OutStays.next
    | with_reducible apply State.needCtx_stays
    | with_reducible apply State.newOp_stays
    | with_reducible apply State.onMch_stays
    | (extract_lets)
    | split
    | with_reducible apply PStays.pair
    | (with_reducible refine PStays.eq (by assumption) ?_))

theorem execOverflowRefill_stays {w_ : List Part} {z s : State} (ep : Nat) (hm : HostView) (hw : Has [.glb, .ctrs, .srcs, .banks,
    .hif, .mch, .out] w_) (hk : Stays w_ z s) : OutStays w_ z (execOverflowRefill ep hm s) := by
  unfold execOverflowRefill
  repeat' (first
    | with_reducible assumption
    | with_reducible exact Has.sub hw (by decide)
    | with_reducible exact Has.mem hw (by decide)
    | intro _
    | with_reducible apply OutStays.ite
    | with_reducible apply Stays.ite
    | with_reducible apply OutStays.next
    | with_reducible apply State.bump_stays
    | with_reducible apply State.dropOvew_stays
    | with_reducible apply State.hostRead_stays
    | with_reducible apply State.raise_stays
    | with_reducible apply State.setPosted_stays
    | (extract_lets)
    | split)

theorem execRvWaitTimeout_stays {w_ : List Part} {z s : State} (i : Nat) (hw : Has [.hif, .mch] w_) (hk : Stays w_ z s) : OutStays
    w_ z (execRvWaitTimeout i s) := by
  unfold execRvWaitTimeout
  repeat' (first
    | with_reducible assumption
    | with_reducible exact Has.sub hw (by decide)
    | with_reducible exact Has.mem hw (by decide)
    | intro _
    | with_reducible apply OutStays.ite
    | with_reducible apply Stays.ite
    | with_reducible apply OutStays.next
    | with_reducible apply State.rvFail_stays
    | (extract_lets)
    | split)

theorem execOrderRecordReadReturn_stays {w_ : List Part} {z s : State} (i : Nat) (r : ReadResult) (hw : Has [.glb, .regs, .ctrs,
    .srcs, .banks, .lnk, .rte, .sch, .hif, .trn, .mch, .rma, .lck, .brg, .col, .bst, .xlt, .out, .free] w_) (hk : Stays w_ z s) :
    OutStays w_ z (execOrderRecordReadReturn i r s) := by
  unfold execOrderRecordReadReturn
  repeat' (first
    | with_reducible assumption
    | with_reducible exact Has.sub hw (by decide)
    | with_reducible exact Has.mem hw (by decide)
    | intro _
    | with_reducible apply OutStays.next
    | with_reducible apply State.orderReturn_stays
    | with_reducible apply State.settle_stays
    | (extract_lets)
    | split)

theorem execOverflowRecordReadReturn_stays {w_ : List Part} {z s : State} (i : Nat) (r : ReadResult) (hw : Has [.glb, .regs,
    .ctrs, .srcs, .banks, .lnk, .rte, .sch, .hif, .trn, .mch, .rma, .lck, .brg, .col, .xlt, .out, .free] w_) (hk : Stays w_ z s) :
    OutStays w_ z (execOverflowRecordReadReturn i r s) := by
  unfold execOverflowRecordReadReturn
  repeat' (first
    | with_reducible assumption
    | with_reducible exact Has.sub hw (by decide)
    | with_reducible exact Has.mem hw (by decide)
    | intro _
    | with_reducible apply OutStays.next
    | with_reducible apply State.overflowReturn_stays
    | with_reducible apply State.settle_stays
    | (extract_lets)
    | split)

end Sys2Proof.Machine
end

