-- ==== Sys2Proof/Laws/StaysRmaCmd.lean ====
section
/-! SUPPORT. Laws/Stays.lean, for the operations of Machine/RmaCmd.lean. -/
namespace Sys2Proof.Machine

theorem State.startPut_stays {w_ : List Part} {z s : State} (q : Nat) (v : Sq) (e : Ent) (p : Ep) (hw : Has [.hif, .trn, .free]
    w_) (hk : Stays w_ z s) : Stays w_ z (State.startPut s q v e p) := by
  unfold State.startPut
  repeat' (first
    | with_reducible assumption
    | with_reducible exact Has.sub hw (by decide)
    | with_reducible exact Has.mem hw (by decide)
    | intro _
    | with_reducible apply State.newOp_stays
    | with_reducible apply State.runEntry_stays
    | (extract_lets)
    | split)

theorem execRmaPut_stays {w_ : List Part} {z s : State} (q : Nat) (hw : Has [.hif, .trn, .free] w_) (hk : Stays w_ z s) : OutStays
    w_ z (execRmaPut q s) := by
  unfold execRmaPut
  repeat' (first
    | with_reducible assumption
    | with_reducible exact Has.sub hw (by decide)
    | with_reducible exact Has.mem hw (by decide)
    | intro _
    | with_reducible apply OutStays.next
    | with_reducible apply State.startPut_stays
    | (extract_lets)
    | split)

theorem execRmaPutNotify_stays {w_ : List Part} {z s : State} (q : Nat) (hw : Has [.hif, .trn, .free] w_) (hk : Stays w_ z s) :
    OutStays w_ z (execRmaPutNotify q s) := by
  unfold execRmaPutNotify
  repeat' (first
    | with_reducible assumption
    | with_reducible exact Has.sub hw (by decide)
    | with_reducible exact Has.mem hw (by decide)
    | intro _
    | with_reducible apply OutStays.next
    | with_reducible apply State.startPut_stays
    | (extract_lets)
    | split)

theorem execRmaGet_stays {w_ : List Part} {z s : State} (q : Nat) (hw : Has [.hif, .trn, .free] w_) (hk : Stays w_ z s) : OutStays
    w_ z (execRmaGet q s) := by
  unfold execRmaGet
  repeat' (first
    | with_reducible assumption
    | with_reducible exact Has.sub hw (by decide)
    | with_reducible exact Has.mem hw (by decide)
    | intro _
    | with_reducible apply OutStays.next
    | with_reducible apply State.newOp_stays
    | with_reducible apply State.runEntry_stays
    | (extract_lets)
    | split)

theorem execRmaAtomic_stays {w_ : List Part} {z s : State} (q : Nat) (hw : Has [.hif, .trn, .free] w_) (hk : Stays w_ z s) :
    OutStays w_ z (execRmaAtomic q s) := by
  unfold execRmaAtomic
  repeat' (first
    | with_reducible assumption
    | with_reducible exact Has.sub hw (by decide)
    | with_reducible exact Has.mem hw (by decide)
    | intro _
    | with_reducible apply OutStays.ite
    | with_reducible apply Stays.ite
    | with_reducible apply OutStays.next
    | with_reducible apply State.newOp_stays
    | with_reducible apply State.runEntry_stays
    | (extract_lets)
    | split)

theorem State.keyReg_stays {w_ : List Part} {z s : State} (q : Nat) (e : Ent) (d : Desc) (hw : Has [.ctrs, .hif, .rma, .bst, .out,
    .free] w_) (hk : Stays w_ z s) : Stays w_ z (State.keyReg s q e d) := by
  unfold State.keyReg
  repeat' (first
    | with_reducible assumption
    | with_reducible exact Has.sub hw (by decide)
    | with_reducible exact Has.mem hw (by decide)
    | intro _
    | with_reducible apply Stays.ite
    | with_reducible apply State.finishEntry_stays
    | with_reducible apply State.hostWrite_stays
    | with_reducible apply State.revoked_stays
    | with_reducible apply State.setKey_stays
    | with_reducible apply State.setRaw_stays
    | (extract_lets)
    | split)

theorem execKeyReg_stays {w_ : List Part} {z s : State} (q : Nat) (hw : Has [.ctrs, .hif, .rma, .bst, .xlt, .out, .free] w_) (hk :
    Stays w_ z s) : OutStays w_ z (execKeyReg q s) := by
  unfold execKeyReg
  repeat' (first
    | with_reducible assumption
    | with_reducible exact Has.sub hw (by decide)
    | with_reducible exact Has.mem hw (by decide)
    | intro _
    | with_reducible apply OutStays.ite
    | with_reducible apply Stays.ite
    | with_reducible apply PStays.fst
    | with_reducible apply OutStays.next
    | with_reducible apply State.finishEntry_stays
    | with_reducible apply State.keyReg_stays
    | with_reducible apply State.needDesc_stays
    | (extract_lets)
    | split
    | with_reducible apply PStays.pair
    | (with_reducible refine PStays.eq (by assumption) ?_))

theorem State.keyRevoke_stays {w_ : List Part} {z s : State} (q : Nat) (e : Ent) (d : Desc) (hw : Has [.hif, .rma, .bst, .free]
    w_) (hk : Stays w_ z s) : Stays w_ z (State.keyRevoke s q e d) := by
  unfold State.keyRevoke
  repeat' (first
    | with_reducible assumption
    | with_reducible exact Has.sub hw (by decide)
    | with_reducible exact Has.mem hw (by decide)
    | intro _
    | with_reducible apply Stays.ite
    | with_reducible apply State.finishEntry_stays
    | with_reducible apply State.runEntry_stays
    | with_reducible apply State.startRevoke_stays
    | (extract_lets)
    | split)

theorem execKeyRevoke_stays {w_ : List Part} {z s : State} (q : Nat) (hw : Has [.ctrs, .hif, .rma, .bst, .xlt, .out, .free] w_)
    (hk : Stays w_ z s) : OutStays w_ z (execKeyRevoke q s) := by
  unfold execKeyRevoke
  repeat' (first
    | with_reducible assumption
    | with_reducible exact Has.sub hw (by decide)
    | with_reducible exact Has.mem hw (by decide)
    | intro _
    | with_reducible apply OutStays.ite
    | with_reducible apply Stays.ite
    | with_reducible apply PStays.fst
    | with_reducible apply OutStays.next
    | with_reducible apply State.finishEntry_stays
    | with_reducible apply State.keyRevoke_stays
    | with_reducible apply State.needDesc_stays
    | (extract_lets)
    | split
    | with_reducible apply PStays.pair
    | (with_reducible refine PStays.eq (by assumption) ?_))

theorem execKeyRevokeComplete_stays {w_ : List Part} {z s : State} (i : Nat) (hw : Has [.regs, .ctrs, .hif, .rma, .bst, .xlt,
    .out, .free] w_) (hk : Stays w_ z s) : OutStays w_ z (execKeyRevokeComplete i s) := by
  unfold execKeyRevokeComplete
  repeat' (first
    | with_reducible assumption
    | with_reducible exact Has.sub hw (by decide)
    | with_reducible exact Has.mem hw (by decide)
    | intro _
    | with_reducible apply OutStays.next
    | with_reducible apply State.endRevoke_stays
    | with_reducible apply State.endTables_stays
    | (extract_lets)
    | split)

theorem execKeyQuarantineEnd_stays {w_ : List Part} {z s : State} (i : Nat) (hw : Has [.ctrs, .hif, .rma] w_) (hk : Stays w_ z s)
    : OutStays w_ z (execKeyQuarantineEnd i s) := by
  unfold execKeyQuarantineEnd
  repeat' (first
    | with_reducible assumption
    | with_reducible exact Has.sub hw (by decide)
    | with_reducible exact Has.mem hw (by decide)
    | intro _
    | with_reducible apply OutStays.ite
    | with_reducible apply Stays.ite
    | with_reducible apply OutStays.next
    | with_reducible apply State.revoked_stays
    | with_reducible apply State.setKey_stays
    | (extract_lets)
    | split)

theorem execKeyInv_stays {w_ : List Part} {z s : State} (q : Nat) (hw : Has [.hif, .rma] w_) (hk : Stays w_ z s) : OutStays w_ z
    (execKeyInv q s) := by
  unfold execKeyInv
  repeat' (first
    | with_reducible assumption
    | with_reducible exact Has.sub hw (by decide)
    | with_reducible exact Has.mem hw (by decide)
    | intro _
    | with_reducible apply OutStays.ite
    | with_reducible apply Stays.ite
    | with_reducible apply OutStays.next
    | with_reducible apply State.onRma_stays
    | with_reducible apply State.runEntry_stays
    | (extract_lets)
    | split)

theorem execKeyInvComplete_stays {w_ : List Part} {z s : State} (q : Nat) (hw : Has [.hif, .rma] w_) (hk : Stays w_ z s) :
    OutStays w_ z (execKeyInvComplete q s) := by
  unfold execKeyInvComplete
  repeat' (first
    | with_reducible assumption
    | with_reducible exact Has.sub hw (by decide)
    | with_reducible exact Has.mem hw (by decide)
    | intro _
    | with_reducible apply OutStays.ite
    | with_reducible apply Stays.ite
    | with_reducible apply OutStays.next
    | with_reducible apply State.finishEntry_stays
    | with_reducible apply State.onRma_stays
    | (extract_lets)
    | split)

theorem execPutRx_stays {w_ : List Part} {z s : State} (hw : Has [.glb, .regs, .ctrs, .srcs, .banks, .lnk, .rte, .sch, .hif, .trn,
    .mch, .rma, .lck, .brg, .col, .xlt, .out, .free] w_) (hk : Stays w_ z s) : OutStays w_ z (execPutRx s) := by
  unfold execPutRx
  repeat' (first
    | with_reducible assumption
    | with_reducible exact Has.sub hw (by decide)
    | with_reducible exact Has.mem hw (by decide)
    | intro _
    | with_reducible apply OutStays.next
    | with_reducible apply State.onPut_stays
    | with_reducible apply State.settle_stays
    | (extract_lets)
    | split)

theorem execGetRx_stays {w_ : List Part} {z s : State} (hw : Has [.glb, .regs, .ctrs, .srcs, .banks, .lnk, .rte, .sch, .hif, .trn,
    .mch, .rma, .lck, .brg, .col, .xlt, .out, .free] w_) (hk : Stays w_ z s) : OutStays w_ z (execGetRx s) := by
  unfold execGetRx
  repeat' (first
    | with_reducible assumption
    | with_reducible exact Has.sub hw (by decide)
    | with_reducible exact Has.mem hw (by decide)
    | intro _
    | with_reducible apply OutStays.next
    | with_reducible apply State.onGet_stays
    | with_reducible apply State.settle_stays
    | (extract_lets)
    | split)

theorem execAtomicRx_stays {w_ : List Part} {z s : State} (hw : Has [.glb, .regs, .ctrs, .srcs, .banks, .lnk, .rte, .sch, .hif,
    .trn, .mch, .rma, .lck, .brg, .col, .xlt, .out, .free] w_) (hk : Stays w_ z s) : OutStays w_ z (execAtomicRx s) := by
  unfold execAtomicRx
  repeat' (first
    | with_reducible assumption
    | with_reducible exact Has.sub hw (by decide)
    | with_reducible exact Has.mem hw (by decide)
    | intro _
    | with_reducible apply OutStays.next
    | with_reducible apply State.onAtomic_stays
    | with_reducible apply State.settle_stays
    | (extract_lets)
    | split)

theorem execAtomicExecute_stays {w_ : List Part} {z s : State} (id : Nat) (hw : Has [.glb, .regs, .ctrs, .srcs, .banks, .lnk,
    .rte, .sch, .hif, .trn, .mch, .rma, .lck, .brg, .col, .xlt, .out, .free] w_) (hk : Stays w_ z s) : OutStays w_ z
    (execAtomicExecute id s) := by
  unfold execAtomicExecute
  repeat' (first
    | with_reducible assumption
    | with_reducible exact Has.sub hw (by decide)
    | with_reducible exact Has.mem hw (by decide)
    | intro _
    | with_reducible apply OutStays.next
    | with_reducible apply State.atomicExecute_stays
    | with_reducible apply State.settle_stays
    | (extract_lets)
    | split)

theorem execAtomicopCompletion_stays {w_ : List Part} {z s : State} (id : Nat) (r : ReadResult) (hw : Has [.glb, .regs, .ctrs,
    .srcs, .banks, .lnk, .rte, .sch, .hif, .trn, .mch, .rma, .lck, .brg, .col, .xlt, .out, .free] w_) (hk : Stays w_ z s) :
    OutStays w_ z (execAtomicopCompletion id r s) := by
  unfold execAtomicopCompletion
  repeat' (first
    | with_reducible assumption
    | with_reducible exact Has.sub hw (by decide)
    | with_reducible exact Has.mem hw (by decide)
    | intro _
    | with_reducible apply OutStays.next
    | with_reducible apply State.atomicCompletion_stays
    | with_reducible apply State.settle_stays
    | (extract_lets)
    | split)

theorem execGetDataRx_stays {w_ : List Part} {z s : State} (hw : Has [.glb, .regs, .ctrs, .srcs, .banks, .lnk, .rte, .sch, .hif,
    .trn, .mch, .rma, .lck, .brg, .col, .xlt, .out, .free] w_) (hk : Stays w_ z s) : OutStays w_ z (execGetDataRx s) := by
  unfold execGetDataRx
  repeat' (first
    | with_reducible assumption
    | with_reducible exact Has.sub hw (by decide)
    | with_reducible exact Has.mem hw (by decide)
    | intro _
    | with_reducible apply OutStays.next
    | with_reducible apply State.onGetData_stays
    | with_reducible apply State.settle_stays
    | (extract_lets)
    | split)

theorem execAtomicDataRx_stays {w_ : List Part} {z s : State} (hw : Has [.glb, .regs, .ctrs, .srcs, .banks, .lnk, .rte, .sch,
    .hif, .trn, .mch, .rma, .lck, .brg, .col, .xlt, .out, .free] w_) (hk : Stays w_ z s) : OutStays w_ z (execAtomicDataRx s) :=
    by
  unfold execAtomicDataRx
  repeat' (first
    | with_reducible assumption
    | with_reducible exact Has.sub hw (by decide)
    | with_reducible exact Has.mem hw (by decide)
    | intro _
    | with_reducible apply OutStays.next
    | with_reducible apply State.onAtomicData_stays
    | with_reducible apply State.settle_stays
    | (extract_lets)
    | split)

theorem execKeyDescriptorReadReturn_stays {w_ : List Part} {z s : State} (n : Nat) (r : ReadResult) (hw : Has [.glb, .regs, .ctrs,
    .srcs, .banks, .lnk, .rte, .sch, .hif, .trn, .mch, .rma, .lck, .brg, .col, .bst, .xlt, .out, .free] w_) (hk : Stays w_ z s) :
    OutStays w_ z (execKeyDescriptorReadReturn n r s) := by
  unfold execKeyDescriptorReadReturn
  repeat' (first
    | with_reducible assumption
    | with_reducible exact Has.sub hw (by decide)
    | with_reducible exact Has.mem hw (by decide)
    | intro _
    | with_reducible apply OutStays.next
    | with_reducible apply State.descReturn_stays
    | with_reducible apply State.settle_stays
    | (extract_lets)
    | split)

theorem execTargetDataReadReturn_stays {w_ : List Part} {z s : State} (n : Nat) (r : ReadResult) (hw : Has [.glb, .regs, .ctrs,
    .srcs, .banks, .lnk, .rte, .sch, .hif, .trn, .mch, .rma, .lck, .brg, .col, .xlt, .out, .free] w_) (hk : Stays w_ z s) :
    OutStays w_ z (execTargetDataReadReturn n r s) := by
  unfold execTargetDataReadReturn
  repeat' (first
    | with_reducible assumption
    | with_reducible exact Has.sub hw (by decide)
    | with_reducible exact Has.mem hw (by decide)
    | intro _
    | with_reducible apply OutStays.next
    | with_reducible apply State.dataReturn_stays
    | with_reducible apply State.settle_stays
    | (extract_lets)
    | split)

end Sys2Proof.Machine
end

