-- ==== Sys2Proof/Laws/StaysLckCmd.lean ====
section
/-! SUPPORT. Laws/Stays.lean, for the operations of Machine/LckCmd.lean. -/
namespace Sys2Proof.Machine

theorem execFlAcquire_stays {w_ : List Part} {z s : State} (via : FlVia) (hw : Has [.glb, .regs, .ctrs, .srcs, .banks, .lnk, .rte,
    .sch, .hif, .trn, .mch, .rma, .lck, .brg, .col, .xlt, .out, .free] w_) (hk : Stays w_ z s) : OutStays w_ z (execFlAcquire via
    s) := by
  unfold execFlAcquire
  repeat' (first
    | with_reducible assumption
    | with_reducible exact Has.sub hw (by decide)
    | with_reducible exact Has.mem hw (by decide)
    | intro _
    | with_reducible apply OutStays.next
    | with_reducible apply State.flAcquire_stays
    | with_reducible apply State.flStart_stays
    | with_reducible apply State.settle_stays
    | (extract_lets)
    | split)

theorem execFlRelease_stays {w_ : List Part} {z s : State} (via : FlVia) (hw : Has [.glb, .regs, .ctrs, .srcs, .banks, .lnk, .rte,
    .sch, .hif, .trn, .mch, .rma, .lck, .brg, .col, .xlt, .out, .free] w_) (hk : Stays w_ z s) : OutStays w_ z (execFlRelease via
    s) := by
  unfold execFlRelease
  repeat' (first
    | with_reducible assumption
    | with_reducible exact Has.sub hw (by decide)
    | with_reducible exact Has.mem hw (by decide)
    | intro _
    | with_reducible apply OutStays.next
    | with_reducible apply State.flOnHeld_stays
    | with_reducible apply State.flStart_stays
    | with_reducible apply State.settle_stays
    | (extract_lets)
    | split)

theorem execFlRenew_stays {w_ : List Part} {z s : State} (via : FlVia) (hw : Has [.glb, .regs, .ctrs, .srcs, .banks, .lnk, .rte,
    .sch, .hif, .trn, .mch, .rma, .lck, .brg, .col, .xlt, .out, .free] w_) (hk : Stays w_ z s) : OutStays w_ z (execFlRenew via s)
    := by
  unfold execFlRenew
  repeat' (first
    | with_reducible assumption
    | with_reducible exact Has.sub hw (by decide)
    | with_reducible exact Has.mem hw (by decide)
    | intro _
    | with_reducible apply OutStays.next
    | with_reducible apply State.flOnHeld_stays
    | with_reducible apply State.flStart_stays
    | with_reducible apply State.settle_stays
    | (extract_lets)
    | split)

theorem execFlBreak_stays {w_ : List Part} {z s : State} (via : FlVia) (hw : Has [.glb, .regs, .ctrs, .srcs, .banks, .lnk, .rte,
    .sch, .hif, .trn, .mch, .rma, .lck, .brg, .col, .xlt, .out, .free] w_) (hk : Stays w_ z s) : OutStays w_ z (execFlBreak via s)
    := by
  unfold execFlBreak
  repeat' (first
    | with_reducible assumption
    | with_reducible exact Has.sub hw (by decide)
    | with_reducible exact Has.mem hw (by decide)
    | intro _
    | with_reducible apply OutStays.next
    | with_reducible apply State.flBreak_stays
    | with_reducible apply State.flStart_stays
    | with_reducible apply State.settle_stays
    | (extract_lets)
    | split)

theorem execFlPollSend_stays {w_ : List Part} {z s : State} (i : Nat) (hw : Has [.trn, .lck, .free] w_) (hk : Stays w_ z s) :
    OutStays w_ z (execFlPollSend i s) := by
  unfold execFlPollSend
  repeat' (first
    | with_reducible assumption
    | with_reducible exact Has.sub hw (by decide)
    | with_reducible exact Has.mem hw (by decide)
    | intro _
    | with_reducible apply OutStays.next
    | with_reducible apply State.flPollSend_stays
    | (extract_lets)
    | split)

theorem State.flRx_stays {w_ : List Part} {z s : State} (op : Nat) (hm : HostView) (hw : Has [.glb, .regs, .ctrs, .srcs, .banks,
    .lnk, .rte, .sch, .hif, .trn, .mch, .rma, .lck, .brg, .col, .xlt, .out, .free] w_) (hk : Stays w_ z s) : Stays w_ z
    (State.flRx s op hm) := by
  unfold State.flRx
  repeat' (first
    | with_reducible assumption
    | with_reducible exact Has.sub hw (by decide)
    | with_reducible exact Has.mem hw (by decide)
    | intro _
    | with_reducible apply State.onFl_stays
    | with_reducible apply State.settle_stays
    | (extract_lets)
    | split)

theorem execFlTakeRx_stays {w_ : List Part} {z s : State} (hm : HostView) (hw : Has [.glb, .regs, .ctrs, .srcs, .banks, .lnk,
    .rte, .sch, .hif, .trn, .mch, .rma, .lck, .brg, .col, .xlt, .out, .free] w_) (hk : Stays w_ z s) : OutStays w_ z (execFlTakeRx
    hm s) := by
  unfold execFlTakeRx
  repeat' (first
    | with_reducible assumption
    | with_reducible exact Has.sub hw (by decide)
    | with_reducible exact Has.mem hw (by decide)
    | intro _
    | with_reducible apply OutStays.next
    | with_reducible apply State.flRx_stays
    | (extract_lets)
    | split)

theorem execFlPollRx_stays {w_ : List Part} {z s : State} (hm : HostView) (hw : Has [.glb, .regs, .ctrs, .srcs, .banks, .lnk,
    .rte, .sch, .hif, .trn, .mch, .rma, .lck, .brg, .col, .xlt, .out, .free] w_) (hk : Stays w_ z s) : OutStays w_ z (execFlPollRx
    hm s) := by
  unfold execFlPollRx
  repeat' (first
    | with_reducible assumption
    | with_reducible exact Has.sub hw (by decide)
    | with_reducible exact Has.mem hw (by decide)
    | intro _
    | with_reducible apply OutStays.next
    | with_reducible apply State.flRx_stays
    | (extract_lets)
    | split)

theorem execFlReleaseRx_stays {w_ : List Part} {z s : State} (hm : HostView) (hw : Has [.glb, .regs, .ctrs, .srcs, .banks, .lnk,
    .rte, .sch, .hif, .trn, .mch, .rma, .lck, .brg, .col, .xlt, .out, .free] w_) (hk : Stays w_ z s) : OutStays w_ z
    (execFlReleaseRx hm s) := by
  unfold execFlReleaseRx
  repeat' (first
    | with_reducible assumption
    | with_reducible exact Has.sub hw (by decide)
    | with_reducible exact Has.mem hw (by decide)
    | intro _
    | with_reducible apply OutStays.next
    | with_reducible apply State.flRx_stays
    | (extract_lets)
    | split)

theorem execFlRenewRx_stays {w_ : List Part} {z s : State} (hm : HostView) (hw : Has [.glb, .regs, .ctrs, .srcs, .banks, .lnk,
    .rte, .sch, .hif, .trn, .mch, .rma, .lck, .brg, .col, .xlt, .out, .free] w_) (hk : Stays w_ z s) : OutStays w_ z
    (execFlRenewRx hm s) := by
  unfold execFlRenewRx
  repeat' (first
    | with_reducible assumption
    | with_reducible exact Has.sub hw (by decide)
    | with_reducible exact Has.mem hw (by decide)
    | intro _
    | with_reducible apply OutStays.next
    | with_reducible apply State.flRx_stays
    | (extract_lets)
    | split)

theorem execFlBreakRx_stays {w_ : List Part} {z s : State} (hm : HostView) (hw : Has [.glb, .regs, .ctrs, .srcs, .banks, .lnk,
    .rte, .sch, .hif, .trn, .mch, .rma, .lck, .brg, .col, .xlt, .out, .free] w_) (hk : Stays w_ z s) : OutStays w_ z
    (execFlBreakRx hm s) := by
  unfold execFlBreakRx
  repeat' (first
    | with_reducible assumption
    | with_reducible exact Has.sub hw (by decide)
    | with_reducible exact Has.mem hw (by decide)
    | intro _
    | with_reducible apply OutStays.next
    | with_reducible apply State.flRx_stays
    | (extract_lets)
    | split)

theorem execFlReleaseAbandonedRx_stays {w_ : List Part} {z s : State} (hm : HostView) (hw : Has [.glb, .regs, .ctrs, .srcs,
    .banks, .lnk, .rte, .sch, .hif, .trn, .mch, .rma, .lck, .brg, .col, .xlt, .out, .free] w_) (hk : Stays w_ z s) : OutStays w_ z
    (execFlReleaseAbandonedRx hm s) := by
  unfold execFlReleaseAbandonedRx
  repeat' (first
    | with_reducible assumption
    | with_reducible exact Has.sub hw (by decide)
    | with_reducible exact Has.mem hw (by decide)
    | intro _
    | with_reducible apply OutStays.next
    | with_reducible apply State.flRx_stays
    | (extract_lets)
    | split)

theorem execFlReplyRx_stays {w_ : List Part} {z s : State} (hw : Has [.glb, .regs, .ctrs, .srcs, .banks, .lnk, .rte, .sch, .hif,
    .trn, .mch, .rma, .lck, .brg, .col, .xlt, .out, .free] w_) (hk : Stays w_ z s) : OutStays w_ z (execFlReplyRx s) := by
  unfold execFlReplyRx
  repeat' (first
    | with_reducible assumption
    | with_reducible exact Has.sub hw (by decide)
    | with_reducible exact Has.mem hw (by decide)
    | intro _
    | with_reducible apply OutStays.next
    | with_reducible apply State.onFlReply_stays
    | with_reducible apply State.settle_stays
    | (extract_lets)
    | split)

end Sys2Proof.Machine
end

