-- ==== Sys2Proof/Laws/StaysBst.lean ====
section
/-! SUPPORT. Laws/Stays.lean, for the operations of Machine/Bst.lean. -/
namespace Sys2Proof.Machine

theorem State.sliceBegin_stays {w_ : List Part} {z s : State} (cls unit : Nat) (byRun : Bool) (hw : Has [.regs, .lnk, .bst] w_)
    (hk : Stays w_ z s) : Stays w_ z (State.sliceBegin s cls unit byRun) := by
  unfold State.sliceBegin
  repeat' (first
    | with_reducible assumption
    | with_reducible exact Has.sub hw (by decide)
    | with_reducible exact Has.mem hw (by decide)
    | intro _
    | with_reducible apply Stays.ite
    | with_reducible apply State.bankPool_stays
    | with_reducible apply State.put_stays
    | (extract_lets)
    | split
    | with_reducible apply Stays.set_bst)

theorem execSliceStart_stays {w_ : List Part} {z s : State} (hw : Has [.regs, .lnk, .bst] w_) (hk : Stays w_ z s) : OutStays w_ z
    (execSliceStart s) := by
  unfold execSliceStart
  repeat' (first
    | with_reducible assumption
    | with_reducible exact Has.sub hw (by decide)
    | with_reducible exact Has.mem hw (by decide)
    | intro _
    | with_reducible apply OutStays.ite
    | with_reducible apply Stays.ite
    | with_reducible apply OutStays.next
    | with_reducible apply State.sliceBegin_stays
    | (extract_lets)
    | split
    | with_reducible apply Stays.set_bst)

theorem State.bankInvalid_stays {w_ : List Part} {z s : State} (unit : Nat) (hw : Has [.trn, .mch, .rma, .xlt] w_) (hk : Stays w_
    z s) : Stays w_ z (State.bankInvalid s unit) := by
  unfold State.bankInvalid
  repeat' (first
    | with_reducible assumption
    | with_reducible exact Has.sub hw (by decide)
    | with_reducible exact Has.mem hw (by decide)
    | intro _
    | with_reducible apply Stays.ite
    | with_reducible apply State.onMch_stays
    | with_reducible apply State.onRma_stays
    | with_reducible apply State.setXu_stays
    | (extract_lets)
    | split
    | with_reducible apply Stays.set_trn)

theorem State.clearCounts_stays {w_ : List Part} {z s : State} (srcs : List Nat) (hw : Has [.srcs] w_) (hk : Stays w_ z s) : Stays
    w_ z (State.clearCounts s srcs) := by
  unfold State.clearCounts
  repeat' (first
    | with_reducible assumption
    | with_reducible exact Has.sub hw (by decide)
    | with_reducible exact Has.mem hw (by decide)
    | intro _
    | with_reducible apply Stays.foldl
    | with_reducible apply PStays.foldl
    | with_reducible apply QStays.foldl
    | with_reducible apply State.setSrc_stays
    | (extract_lets)
    | split)

theorem execUnitReady_stays {w_ : List Part} {z s : State} (hw : Has [.regs, .srcs, .trn, .mch, .rma, .bst, .xlt] w_) (hk : Stays
    w_ z s) : OutStays w_ z (execUnitReady s) := by
  unfold execUnitReady
  repeat' (first
    | with_reducible assumption
    | with_reducible exact Has.sub hw (by decide)
    | with_reducible exact Has.mem hw (by decide)
    | intro _
    | with_reducible apply OutStays.ite
    | with_reducible apply Stays.ite
    | with_reducible apply OutStays.next
    | with_reducible apply State.bankInvalid_stays
    | with_reducible apply State.clearCounts_stays
    | with_reducible apply State.put_stays
    | (extract_lets)
    | split
    | with_reducible apply Stays.set_bst)

theorem execSliceSkip_stays {w_ : List Part} {z s : State} (hw : Has [.glb, .regs, .ctrs, .srcs, .banks, .lnk, .hif, .bst, .out]
    w_) (hk : Stays w_ z s) : OutStays w_ z (execSliceSkip s) := by
  unfold execSliceSkip
  repeat' (first
    | with_reducible assumption
    | with_reducible exact Has.sub hw (by decide)
    | with_reducible exact Has.mem hw (by decide)
    | intro _
    | with_reducible apply OutStays.ite
    | with_reducible apply Stays.ite
    | with_reducible apply OutStays.next
    | with_reducible apply State.bump_stays
    | with_reducible apply State.raise_stays
    | with_reducible apply State.sliceEnd_stays
    | with_reducible apply State.sliceRetry_stays
    | (extract_lets)
    | split)

theorem execSliceAbort_stays {w_ : List Part} {z s : State} (hw : Has [.glb, .regs, .ctrs, .srcs, .banks, .lnk, .hif, .bst, .out]
    w_) (hk : Stays w_ z s) : OutStays w_ z (execSliceAbort s) := by
  unfold execSliceAbort
  repeat' (first
    | with_reducible assumption
    | with_reducible exact Has.sub hw (by decide)
    | with_reducible exact Has.mem hw (by decide)
    | intro _
    | with_reducible apply OutStays.ite
    | with_reducible apply Stays.ite
    | with_reducible apply OutStays.next
    | with_reducible apply State.sliceAbort_stays
    | (extract_lets)
    | split)

theorem State.addRecord_stays {w_ : List Part} {z s : State} (r kind cls unit spare element : Nat) (hw : Has [.regs, .ctrs] w_)
    (hk : Stays w_ z s) : Stays w_ z (State.addRecord s r kind cls unit spare element) := by
  unfold State.addRecord
  repeat' (first
    | with_reducible assumption
    | with_reducible exact Has.sub hw (by decide)
    | with_reducible exact Has.mem hw (by decide)
    | intro _
    | with_reducible apply State.bump_stays
    | with_reducible apply State.setWord_stays
    | (extract_lets)
    | split)

theorem State.softRepaiw_stays {w_ : List Part} {z s : State} (cls unit : Nat) (fails : List (Nat × Nat)) (hw : Has [.glb, .regs,
    .ctrs, .srcs, .banks, .hif, .out, .free] w_) (hk : Stays w_ z s) : Stays w_ z (State.softRepair s cls unit fails) := by
  unfold State.softRepair
  repeat' (first
    | with_reducible assumption
    | with_reducible exact Has.sub hw (by decide)
    | with_reducible exact Has.mem hw (by decide)
    | intro _
    | with_reducible apply Stays.ite
    | with_reducible apply Stays.foldl
    | with_reducible apply PStays.foldl
    | with_reducible apply QStays.foldl
    | with_reducible apply PStays.fst
    | with_reducible apply QStays.snd
    | with_reducible apply State.draw_staysQ
    | with_reducible apply State.addRecord_stays
    | with_reducible apply State.draw_stays
    | with_reducible apply State.raise_stays
    | (extract_lets)
    | split
    | with_reducible apply PStays.pair
    | with_reducible apply QStays.pair
    | (with_reducible refine PStays.eq (by assumption) ?_)
    | (with_reducible refine QStays.eq (by assumption) ?_))

theorem State.retireUnit_stays {w_ : List Part} {z s : State} (cls unit : Nat) (hw : Has [.glb, .regs, .ctrs, .srcs, .banks, .hif,
    .bst, .out] w_) (hk : Stays w_ z s) : Stays w_ z (State.retireUnit s cls unit) := by
  unfold State.retireUnit
  repeat' (first
    | with_reducible assumption
    | with_reducible exact Has.sub hw (by decide)
    | with_reducible exact Has.mem hw (by decide)
    | intro _
    | with_reducible apply Stays.ite
    | with_reducible apply State.addRecord_stays
    | with_reducible apply State.raise_stays
    | (extract_lets)
    | split
    | with_reducible apply Stays.set_bst)

theorem State.noteResult_stays {w_ : List Part} {z s : State} (cls unit sig gold : Nat) (hw : Has [.bst, .free] w_) (hk : Stays w_
    z s) : Stays w_ z (State.noteResult s cls unit sig gold) := by
  unfold State.noteResult
  repeat' (first
    | with_reducible assumption
    | with_reducible exact Has.sub hw (by decide)
    | with_reducible exact Has.mem hw (by decide)
    | intro _
    | with_reducible apply QStays.snd
    | with_reducible apply State.draw_staysQ
    | with_reducible apply State.draw_stays
    | (extract_lets)
    | split
    | with_reducible apply QStays.pair
    | (with_reducible refine QStays.eq (by assumption) ?_)
    | with_reducible apply Stays.set_bst)

theorem execTestComplete_stays {w_ : List Part} {z s : State} (sig : Nat) (fails : List (Nat × Nat)) (hw : Has [.glb, .regs,
    .ctrs, .srcs, .banks, .lnk, .hif, .bst, .out, .free] w_) (hk : Stays w_ z s) : OutStays w_ z (execTestComplete sig fails s) :=
    by
  unfold execTestComplete
  repeat' (first
    | with_reducible assumption
    | with_reducible exact Has.sub hw (by decide)
    | with_reducible exact Has.mem hw (by decide)
    | intro _
    | with_reducible apply OutStays.ite
    | with_reducible apply Stays.ite
    | with_reducible apply OutStays.next
    | with_reducible apply State.bump_stays
    | with_reducible apply State.noteResult_stays
    | with_reducible apply State.put_stays
    | with_reducible apply State.retireUnit_stays
    | with_reducible apply State.sliceEnd_stays
    | with_reducible apply State.softRepaiw_stays
    | (extract_lets)
    | split
    | with_reducible apply Stays.set_bst)

theorem State.bstResult_stays {w_ : List Part} {z s : State} (v r : Nat) (hw : Has [.regs] w_) (hk : Stays w_ z s) : Stays w_ z
    (State.bstResult s v r) := by
  unfold State.bstResult
  repeat' (first
    | with_reducible assumption
    | with_reducible exact Has.sub hw (by decide)
    | with_reducible exact Has.mem hw (by decide)
    | intro _
    | with_reducible apply State.put_stays
    | with_reducible apply State.setWord_stays
    | (extract_lets)
    | split)

theorem State.bstRun_stays {w_ : List Part} {z s : State} (cls unit : Nat) (hw : Has [.regs, .lnk, .bst] w_) (hk : Stays w_ z s) :
    PStays w_ z (State.bstRun s cls unit) := by
  unfold State.bstRun
  repeat' (first
    | with_reducible assumption
    | with_reducible exact Has.sub hw (by decide)
    | with_reducible exact Has.mem hw (by decide)
    | intro _
    | with_reducible apply PStays.ite
    | with_reducible apply Stays.ite
    | with_reducible apply PStays.fst
    | with_reducible apply State.sliceBegin_stays
    | (extract_lets)
    | split
    | with_reducible apply PStays.pair
    | (with_reducible refine PStays.eq (by assumption) ?_))

theorem State.bstFuse_stays {w_ : List Part} {z s : State} (rec : Nat) (ok : Bool) (hw : Has [.glb, .regs, .ctrs, .srcs, .banks,
    .hif, .bst, .out] w_) (hk : Stays w_ z s) : PStays w_ z (State.bstFuse s rec ok) := by
  unfold State.bstFuse
  repeat' (first
    | with_reducible assumption
    | with_reducible exact Has.sub hw (by decide)
    | with_reducible exact Has.mem hw (by decide)
    | intro _
    | with_reducible apply PStays.ite
    | with_reducible apply Stays.ite
    | with_reducible apply PStays.fst
    | with_reducible apply State.emit_stays
    | with_reducible apply State.put_stays
    | with_reducible apply State.raise_stays
    | (extract_lets)
    | split
    | with_reducible apply PStays.pair
    | (with_reducible refine PStays.eq (by assumption) ?_)
    | with_reducible apply Stays.set_bst)

theorem State.bstCmd_stays {w_ : List Part} {z s : State} (req : Requester) (v : Nat) (ok : Bool) (hw : Has [.glb, .regs, .ctrs,
    .srcs, .banks, .lnk, .hif, .bst, .out] w_) (hk : Stays w_ z s) : Stays w_ z (State.bstCmd s req v ok) := by
  unfold State.bstCmd
  repeat' (first
    | with_reducible assumption
    | with_reducible exact Has.sub hw (by decide)
    | with_reducible exact Has.mem hw (by decide)
    | intro _
    | with_reducible apply Stays.ite
    | with_reducible apply PStays.fst
    | with_reducible apply State.bstFuse_stays
    | with_reducible apply State.bstResult_stays
    | with_reducible apply State.bstRun_stays
    | with_reducible apply State.put_stays
    | (extract_lets)
    | split
    | with_reducible apply PStays.pair
    | (with_reducible refine PStays.eq (by assumption) ?_))

theorem execRun_stays {w_ : List Part} {z s : State} (req : Requester) (cls unit : Nat) (hw : Has [.glb, .regs, .ctrs, .srcs,
    .banks, .lnk, .hif, .bst, .out] w_) (hk : Stays w_ z s) : OutStays w_ z (execRun req cls unit s) := by
  unfold execRun
  repeat' (first
    | with_reducible assumption
    | with_reducible exact Has.sub hw (by decide)
    | with_reducible exact Has.mem hw (by decide)
    | intro _
    | with_reducible apply OutStays.ite
    | with_reducible apply Stays.ite
    | with_reducible apply OutStays.next
    | with_reducible apply State.bstCmd_stays
    | (extract_lets)
    | split)

theorem execFuse_stays {w_ : List Part} {z s : State} (req : Requester) (rec : Nat) (ok : Bool) (hw : Has [.glb, .regs, .ctrs,
    .srcs, .banks, .lnk, .hif, .bst, .out] w_) (hk : Stays w_ z s) : OutStays w_ z (execFuse req rec ok s) := by
  unfold execFuse
  repeat' (first
    | with_reducible assumption
    | with_reducible exact Has.sub hw (by decide)
    | with_reducible exact Has.mem hw (by decide)
    | intro _
    | with_reducible apply OutStays.ite
    | with_reducible apply Stays.ite
    | with_reducible apply OutStays.next
    | with_reducible apply State.bstCmd_stays
    | (extract_lets)
    | split)

theorem State.loseBank_stays {w_ : List Part} {z s : State} (cls unit : Nat) (hw : Has [.lnk, .trn, .mch, .rma, .bst, .xlt] w_)
    (hk : Stays w_ z s) : Stays w_ z (State.loseBank s cls unit) := by
  unfold State.loseBank
  repeat' (first
    | with_reducible assumption
    | with_reducible exact Has.sub hw (by decide)
    | with_reducible exact Has.mem hw (by decide)
    | intro _
    | with_reducible apply Stays.ite
    | with_reducible apply State.bankInvalid_stays
    | with_reducible apply State.bankPool_stays
    | (extract_lets)
    | split
    | with_reducible apply Stays.set_bst)

theorem State.exhaustForced_stays {w_ : List Part} {z s : State} (obj : Nat) (hw : Has [.lnk, .trn, .mch, .rma, .bst, .xlt, .free]
    w_) (hk : Stays w_ z s) : OptStays w_ z (State.exhaustForced s obj) := by
  unfold State.exhaustForced
  repeat' (first
    | with_reducible assumption
    | with_reducible exact Has.sub hw (by decide)
    | with_reducible exact Has.mem hw (by decide)
    | intro _
    | with_reducible apply OptStays.ite
    | with_reducible apply Stays.ite
    | with_reducible apply QStays.snd
    | with_reducible apply State.draw_staysQ
    | with_reducible exact OptStays.none _
    | with_reducible apply OptStays.some
    | with_reducible apply State.draw_stays
    | with_reducible apply State.loseBank_stays
    | (extract_lets)
    | split
    | with_reducible apply QStays.pair
    | (with_reducible refine QStays.eq (by assumption) ?_)
    | (with_reducible refine OptStays.eq (by assumption) ?_))

theorem State.saveLost_stays {w_ : List Part} {z s : State} (hw : Has [.glb, .regs, .ctrs, .srcs, .banks, .lnk, .hif, .bst, .out,
    .free] w_) (hk : Stays w_ z s) : Stays w_ z (State.saveLost s) := by
  unfold State.saveLost
  repeat' (first
    | with_reducible assumption
    | with_reducible exact Has.sub hw (by decide)
    | with_reducible exact Has.mem hw (by decide)
    | intro _
    | with_reducible apply Stays.ite
    | with_reducible apply QStays.snd
    | with_reducible apply State.draw_staysQ
    | with_reducible apply State.bump_stays
    | with_reducible apply State.draw_stays
    | with_reducible apply State.raise_stays
    | with_reducible apply State.retireUnit_stays
    | with_reducible apply State.sliceAbort_stays
    | with_reducible apply State.sliceEnd_stays
    | (extract_lets)
    | split
    | with_reducible apply QStays.pair
    | (with_reducible refine QStays.eq (by assumption) ?_))

theorem State.sweepStart_stays {w_ : List Part} {z s : State} (hw : Has [.ctrs, .bst] w_) (hk : Stays w_ z s) : Stays w_ z
    (State.sweepStart s) := by
  unfold State.sweepStart
  repeat' (first
    | with_reducible assumption
    | with_reducible exact Has.sub hw (by decide)
    | with_reducible exact Has.mem hw (by decide)
    | intro _
    | with_reducible apply Stays.ite
    | with_reducible apply State.bump_stays
    | with_reducible apply State.bumpBy_stays
    | (extract_lets)
    | split
    | with_reducible apply Stays.set_bst)

end Sys2Proof.Machine
end

