-- ==== Sys2Proof/Laws/StaysMgmt.lean ====
section
/-! SUPPORT. Laws/Stays.lean, for the operations of Machine/Mgmt.lean. -/
namespace Sys2Proof.Machine

theorem State.mgDrop_stays {w_ : List Part} {z s : State} (port : Nat) (hw : Has [.glb, .ctrs, .srcs, .banks, .hif, .out] w_) (hk
    : Stays w_ z s) : Stays w_ z (State.mgDrop s port) := by
  unfold State.mgDrop
  repeat' (first
    | with_reducible assumption
    | with_reducible exact Has.sub hw (by decide)
    | with_reducible exact Has.mem hw (by decide)
    | intro _
    | with_reducible apply State.bump_stays
    | with_reducible apply State.raise_stays
    | (extract_lets)
    | split)

theorem State.mgOut_stays {w_ : List Part} {z s : State} (p type birth set hops : Nat) (body : Data) (hw : Has [.rte, .sch] w_)
    (hk : Stays w_ z s) : Stays w_ z (State.mgOut s p type birth set hops body) := by
  unfold State.mgOut
  repeat' (first
    | with_reducible assumption
    | with_reducible exact Has.sub hw (by decide)
    | with_reducible exact Has.mem hw (by decide)
    | intro _
    | with_reducible apply State.hubTo_stays
    | (extract_lets)
    | split)

theorem State.mgSend_stays {w_ : List Part} {z s : State} (type : Nat) (m : MgH) (payload : Data) (hw : Has [.glb, .ctrs, .srcs,
    .banks, .rte, .sch, .hif, .mgt, .xlt, .out, .free] w_) (hk : Stays w_ z s) : Stays w_ z (State.mgSend s type m payload) := by
  unfold State.mgSend
  repeat' (first
    | with_reducible assumption
    | with_reducible exact Has.sub hw (by decide)
    | with_reducible exact Has.mem hw (by decide)
    | intro _
    | with_reducible apply Stays.ite
    | with_reducible apply PStays.fst
    | with_reducible apply State.mgDrop_stays
    | with_reducible apply State.mgOut_stays
    | with_reducible apply State.payload_stays
    | (extract_lets)
    | split
    | with_reducible apply PStays.pair
    | (with_reducible refine PStays.eq (by assumption) ?_)
    | with_reducible apply Stays.set_mgt)

theorem State.mgDelivew_stays {w_ : List Part} {z s : State} (d : Data) (port : Nat) (hw : Has [.mgt] w_) (hk : Stays w_ z s) :
    Stays w_ z (State.mgDeliver s d port) := by
  unfold State.mgDeliver
  repeat' (first
    | with_reducible assumption
    | with_reducible exact Has.sub hw (by decide)
    | with_reducible exact Has.mem hw (by decide)
    | intro _
    | (extract_lets)
    | split
    | with_reducible apply Stays.set_mgt)

theorem execMgmtForward_stays {w_ : List Part} {z s : State} (hw : Has [.glb, .ctrs, .srcs, .banks, .rte, .sch, .hif, .mgt, .out]
    w_) (hk : Stays w_ z s) : OutStays w_ z (execMgmtForward s) := by
  unfold execMgmtForward
  repeat' (first
    | with_reducible assumption
    | with_reducible exact Has.sub hw (by decide)
    | with_reducible exact Has.mem hw (by decide)
    | intro _
    | with_reducible apply OutStays.ite
    | with_reducible apply Stays.ite
    | with_reducible apply OutStays.next
    | with_reducible apply State.bump_stays
    | with_reducible apply State.hubPop_stays
    | with_reducible apply State.mgDelivew_stays
    | with_reducible apply State.mgDrop_stays
    | with_reducible apply State.mgOut_stays
    | with_reducible apply State.raise_stays
    | (extract_lets)
    | split)

theorem State.setFetch_stays {w_ : List Part} {z s : State} (p : Nat) (f : Option Fetch) (hw : Has [.mgt] w_) (hk : Stays w_ z s)
    : Stays w_ z (State.setFetch s p f) := by
  unfold State.setFetch
  repeat' (first
    | with_reducible assumption
    | with_reducible exact Has.sub hw (by decide)
    | with_reducible exact Has.mem hw (by decide)
    | intro _
    | (extract_lets)
    | split
    | with_reducible apply Stays.set_mgt)

theorem State.fwReq_stays {w_ : List Part} {z s : State} (p : Nat) (f : Fetch) (hw : Has [.rte, .sch, .mgt] w_) (hk : Stays w_ z
    s) : Stays w_ z (State.fwReq s p f) := by
  unfold State.fwReq
  repeat' (first
    | with_reducible assumption
    | with_reducible exact Has.sub hw (by decide)
    | with_reducible exact Has.mem hw (by decide)
    | intro _
    | with_reducible apply State.mgOut_stays
    | with_reducible apply State.setFetch_stays
    | (extract_lets)
    | split)

theorem State.fetchBegin_stays {w_ : List Part} {z s : State} (src : Nat) (hw : Has [.regs] w_) (hk : Stays w_ z s) : Stays w_ z
    (State.fetchBegin s src) := by
  unfold State.fetchBegin
  repeat' (first
    | with_reducible assumption
    | with_reducible exact Has.sub hw (by decide)
    | with_reducible exact Has.mem hw (by decide)
    | intro _
    | with_reducible apply State.put_stays
    | (extract_lets)
    | split)

theorem State.fabricFetch_stays {w_ : List Part} {z s : State} (p : Nat) (hw : Has [.regs, .rte, .sch, .mgt] w_) (hk : Stays w_ z
    s) : Stays w_ z (State.fabricFetch s p) := by
  unfold State.fabricFetch
  repeat' (first
    | with_reducible assumption
    | with_reducible exact Has.sub hw (by decide)
    | with_reducible exact Has.mem hw (by decide)
    | intro _
    | with_reducible apply State.fetchBegin_stays
    | with_reducible apply State.fwReq_stays
    | (extract_lets)
    | split)

theorem State.bootFailed_stays {w_ : List Part} {z s : State} (src result : Nat) (hw : Has [.regs, .mgt, .out] w_) (hk : Stays w_
    z s) : Stays w_ z (State.bootFailed s src result) := by
  unfold State.bootFailed
  repeat' (first
    | with_reducible assumption
    | with_reducible exact Has.sub hw (by decide)
    | with_reducible exact Has.mem hw (by decide)
    | intro _
    | with_reducible apply Stays.ite
    | with_reducible apply State.emit_stays
    | with_reducible apply State.put_stays
    | with_reducible apply State.setFetch_stays
    | (extract_lets)
    | split
    | with_reducible apply Stays.set_mgt)

theorem State.bootRead_stays {w_ : List Part} {z s : State} (hw : Has [.out] w_) (hk : Stays w_ z s) : Stays w_ z (State.bootRead
    s) := by
  unfold State.bootRead
  repeat' (first
    | with_reducible assumption
    | with_reducible exact Has.sub hw (by decide)
    | with_reducible exact Has.mem hw (by decide)
    | intro _
    | with_reducible apply Stays.ite
    | with_reducible apply State.hostRead_stays
    | (extract_lets)
    | split)

theorem State.goFetch_stays {w_ : List Part} {z s : State} (hw : Has [.regs, .mgt, .out] w_) (hk : Stays w_ z s) : Stays w_ z
    (State.goFetch s) := by
  unfold State.goFetch
  repeat' (first
    | with_reducible assumption
    | with_reducible exact Has.sub hw (by decide)
    | with_reducible exact Has.mem hw (by decide)
    | intro _
    | with_reducible apply Stays.ite
    | with_reducible apply State.bootRead_stays
    | with_reducible apply State.fetchBegin_stays
    | (extract_lets)
    | split
    | with_reducible apply Stays.set_mgt)

theorem State.bootTick_stays {w_ : List Part} {z s : State} (hw : Has [.regs, .rte, .sch, .mgt, .out] w_) (hk : Stays w_ z s) :
    Stays w_ z (State.bootTick s) := by
  unfold State.bootTick
  repeat' (first
    | with_reducible assumption
    | with_reducible exact Has.sub hw (by decide)
    | with_reducible exact Has.mem hw (by decide)
    | intro _
    | with_reducible apply Stays.ite
    | with_reducible apply Stays.foldl
    | with_reducible apply PStays.foldl
    | with_reducible apply QStays.foldl
    | with_reducible apply State.fabricFetch_stays
    | with_reducible apply State.goFetch_stays
    | (extract_lets)
    | split
    | with_reducible apply Stays.set_mgt)

end Sys2Proof.Machine
end

