-- ==== Sys2Proof/Laws/StaysLtl.lean ====
section
/-! SUPPORT. Laws/Stays.lean, for the operations of Machine/Ltl.lean. -/
namespace Sys2Proof.Machine

theorem State.setEgress_stays {w_ : List Part} {z s : State} (p : Nat) (l : List LtlSend) (hw : Has [.ltl] w_) (hk : Stays w_ z s)
    : Stays w_ z (State.setEgress s p l) := by
  unfold State.setEgress
  repeat' (first
    | with_reducible assumption
    | with_reducible exact Has.sub hw (by decide)
    | with_reducible exact Has.mem hw (by decide)
    | intro _
    | (extract_lets)
    | split
    | with_reducible apply Stays.set_ltl)

theorem State.ltlPush_stays {w_ : List Part} {z s : State} (p phys : Nat) (d : Data) (hw : Has [.ctrs, .ltl] w_) (hk : Stays w_ z
    s) : Stays w_ z (State.ltlPush s p phys d) := by
  unfold State.ltlPush
  repeat' (first
    | with_reducible assumption
    | with_reducible exact Has.sub hw (by decide)
    | with_reducible exact Has.mem hw (by decide)
    | intro _
    | with_reducible apply Stays.ite
    | with_reducible apply State.bump_stays
    | with_reducible apply State.setEgress_stays
    | (extract_lets)
    | split)

theorem State.ltlMsg_stays {w_ : List Part} {z s : State} (dev ep : Nat) (rec : Data) (hw : Has [.glb, .ctrs, .srcs, .banks, .rte,
    .sch, .hif, .mgt, .xlt, .out, .free] w_) (hk : Stays w_ z s) : Stays w_ z (State.ltlMsg s dev ep rec) := by
  unfold State.ltlMsg
  repeat' (first
    | with_reducible assumption
    | with_reducible exact Has.sub hw (by decide)
    | with_reducible exact Has.mem hw (by decide)
    | intro _
    | with_reducible apply QStays.snd
    | with_reducible apply State.draw_staysQ
    | with_reducible apply State.draw_stays
    | with_reducible apply State.mgSend_stays
    | (extract_lets)
    | split
    | with_reducible apply QStays.pair
    | (with_reducible refine QStays.eq (by assumption) ?_))

theorem State.mctpAnswew_stays {w_ : List Part} {z s : State} (port phys : Nat) (d : Data) (hw : Has [.ctrs, .ltl, .free] w_) (hk
    : Stays w_ z s) : Stays w_ z (State.mctpAnswer s port phys d) := by
  unfold State.mctpAnswer
  repeat' (first
    | with_reducible assumption
    | with_reducible exact Has.sub hw (by decide)
    | with_reducible exact Has.mem hw (by decide)
    | intro _
    | with_reducible apply Stays.ite
    | with_reducible apply QStays.snd
    | with_reducible apply State.draw_staysQ
    | with_reducible apply State.draw_stays
    | with_reducible apply State.ltlPush_stays
    | (extract_lets)
    | split
    | with_reducible apply QStays.pair
    | (with_reducible refine QStays.eq (by assumption) ?_))

theorem State.mctpRx_stays {w_ : List Part} {z s : State} (port phys : Nat) (d : Data) (hw : Has [.glb, .ctrs, .srcs, .banks,
    .rte, .sch, .hif, .ltl, .mgt, .xlt, .out, .free] w_) (hk : Stays w_ z s) : Stays w_ z (State.mctpRx s port phys d) := by
  unfold State.mctpRx
  repeat' (first
    | with_reducible assumption
    | with_reducible exact Has.sub hw (by decide)
    | with_reducible exact Has.mem hw (by decide)
    | intro _
    | with_reducible apply Stays.ite
    | with_reducible apply State.bump_stays
    | with_reducible apply State.bumpIf_stays
    | with_reducible apply State.emit_stays
    | with_reducible apply State.ltlMsg_stays
    | with_reducible apply State.ltlPush_stays
    | with_reducible apply State.mctpAnswew_stays
    | (extract_lets)
    | split)

theorem execMctpPacketRx_stays {w_ : List Part} {z s : State} (port phys : Nat) (d : Data) (hw : Has [.glb, .ctrs, .srcs, .banks,
    .rte, .sch, .hif, .ltl, .mgt, .xlt, .out, .free] w_) (hk : Stays w_ z s) : OutStays w_ z (execMctpPacketRx port phys d s) :=
    by
  unfold execMctpPacketRx
  repeat' (first
    | with_reducible assumption
    | with_reducible exact Has.sub hw (by decide)
    | with_reducible exact Has.mem hw (by decide)
    | intro _
    | with_reducible apply OutStays.ite
    | with_reducible apply Stays.ite
    | with_reducible apply OutStays.next
    | with_reducible apply State.mctpRx_stays
    | (extract_lets)
    | split)

theorem execLintelRecordRx_stays {w_ : List Part} {z s : State} (hw : Has [.ctrs, .ltl] w_) (hk : Stays w_ z s) : OutStays w_ z
    (execLintelRecordRx s) := by
  unfold execLintelRecordRx
  repeat' (first
    | with_reducible assumption
    | with_reducible exact Has.sub hw (by decide)
    | with_reducible exact Has.mem hw (by decide)
    | intro _
    | with_reducible apply OutStays.ite
    | with_reducible apply Stays.ite
    | with_reducible apply OutStays.next
    | with_reducible apply State.bump_stays
    | with_reducible apply State.bumpIf_stays
    | with_reducible apply State.ltlPush_stays
    | (extract_lets)
    | split
    | with_reducible apply Stays.set_ltl)

theorem execMctpSend_stays {w_ : List Part} {z s : State} (port : Nat) (ack : Bool) (hw : Has [.glb, .ctrs, .srcs, .banks, .hif,
    .ltl, .out] w_) (hk : Stays w_ z s) : OutStays w_ z (execMctpSend port ack s) := by
  unfold execMctpSend
  repeat' (first
    | with_reducible assumption
    | with_reducible exact Has.sub hw (by decide)
    | with_reducible exact Has.mem hw (by decide)
    | intro _
    | with_reducible apply OutStays.ite
    | with_reducible apply Stays.ite
    | with_reducible apply OutStays.next
    | with_reducible apply State.bump_stays
    | with_reducible apply State.emit_stays
    | with_reducible apply State.raise_stays
    | with_reducible apply State.setEgress_stays
    | (extract_lets)
    | split)

theorem execAlertPull_stays {w_ : List Part} {z s : State} (b addr : Nat) (d : Data) (hw : Has [.glb, .ctrs, .srcs, .banks, .rte,
    .sch, .hif, .ltl, .mgt, .xlt, .out, .free] w_) (hk : Stays w_ z s) : OutStays w_ z (execAlertPull b addr d s) := by
  unfold execAlertPull
  repeat' (first
    | with_reducible assumption
    | with_reducible exact Has.sub hw (by decide)
    | with_reducible exact Has.mem hw (by decide)
    | intro _
    | with_reducible apply OutStays.ite
    | with_reducible apply Stays.ite
    | with_reducible apply OutStays.next
    | with_reducible apply State.emit_stays
    | with_reducible apply State.mctpRx_stays
    | (extract_lets)
    | split)

theorem execI3cIbiRx_stays {w_ : List Part} {z s : State} (b addr mdb : Nat) (d : Data) (hw : Has [.glb, .ctrs, .srcs, .banks,
    .rte, .sch, .hif, .ltl, .mgt, .xlt, .out, .free] w_) (hk : Stays w_ z s) : OutStays w_ z (execI3cIbiRx b addr mdb d s) := by
  unfold execI3cIbiRx
  repeat' (first
    | with_reducible assumption
    | with_reducible exact Has.sub hw (by decide)
    | with_reducible exact Has.mem hw (by decide)
    | intro _
    | with_reducible apply OutStays.ite
    | with_reducible apply Stays.ite
    | with_reducible apply OutStays.next
    | with_reducible apply State.emit_stays
    | with_reducible apply State.mctpRx_stays
    | (extract_lets)
    | split)

theorem State.busEnabled_stays {w_ : List Part} {z s : State} (b : Nat) (hw : Has [.out] w_) (hk : Stays w_ z s) : Stays w_ z
    (State.busEnabled s b) := by
  unfold State.busEnabled
  repeat' (first
    | with_reducible assumption
    | with_reducible exact Has.sub hw (by decide)
    | with_reducible exact Has.mem hw (by decide)
    | intro _
    | with_reducible apply Stays.ite
    | with_reducible apply Stays.foldl
    | with_reducible apply PStays.foldl
    | with_reducible apply QStays.foldl
    | with_reducible apply State.emit_stays
    | (extract_lets)
    | split)

theorem State.sbReport_stays {w_ : List Part} {z s : State} (i : Nat) (level : Bool) (hw : Has [.glb, .regs, .ctrs, .srcs, .banks,
    .hif, .out] w_) (hk : Stays w_ z s) : Stays w_ z (State.sbReport s i level) := by
  unfold State.sbReport
  repeat' (first
    | with_reducible assumption
    | with_reducible exact Has.sub hw (by decide)
    | with_reducible exact Has.mem hw (by decide)
    | intro _
    | with_reducible apply State.level_stays
    | with_reducible apply State.put_stays
    | with_reducible apply State.raise_stays
    | (extract_lets)
    | split)

theorem State.sideband_stays {w_ : List Part} {z s : State} (sample : Nat) (hw : Has [.glb, .regs, .ctrs, .srcs, .banks, .rte,
    .sch, .hif, .ltl, .mgt, .xlt, .out, .free] w_) (hk : Stays w_ z s) : Stays w_ z (State.sideband s sample) := by
  unfold State.sideband
  repeat' (first
    | with_reducible assumption
    | with_reducible exact Has.sub hw (by decide)
    | with_reducible exact Has.mem hw (by decide)
    | intro _
    | with_reducible apply Stays.ite
    | with_reducible apply Stays.foldl
    | with_reducible apply PStays.foldl
    | with_reducible apply QStays.foldl
    | with_reducible apply State.ltlMsg_stays
    | with_reducible apply State.sbReport_stays
    | (extract_lets)
    | split
    | with_reducible apply Stays.set_ltl)

theorem execSidebandChange_stays {w_ : List Part} {z s : State} (sample : Nat) (hw : Has [.glb, .regs, .ctrs, .srcs, .banks, .rte,
    .sch, .hif, .ltl, .mgt, .xlt, .out, .free] w_) (hk : Stays w_ z s) : OutStays w_ z (execSidebandChange sample s) := by
  unfold execSidebandChange
  repeat' (first
    | with_reducible assumption
    | with_reducible exact Has.sub hw (by decide)
    | with_reducible exact Has.mem hw (by decide)
    | intro _
    | with_reducible apply OutStays.ite
    | with_reducible apply Stays.ite
    | with_reducible apply OutStays.next
    | with_reducible apply State.sideband_stays
    | (extract_lets)
    | split)

end Sys2Proof.Machine
end

