-- ==== Sys2Proof/Laws/StaysLanes.lean ====
section
/-! SUPPORT. Laws/Stays.lean, for the operations of Machine/Lanes.lean. -/
namespace Sys2Proof.Machine

theorem State.maskChanged_stays {w_ : List Part} {z s : State} (p : Nat) (wasUp : Bool) (hw : Has [.lnk] w_) (hk : Stays w_ z s) :
    Stays w_ z (State.maskChanged s p wasUp) := by
  unfold State.maskChanged
  repeat' (first
    | with_reducible assumption
    | with_reducible exact Has.sub hw (by decide)
    | with_reducible exact Has.mem hw (by decide)
    | intro _
    | with_reducible apply Stays.ite
    | with_reducible apply State.phyFell_stays
    | with_reducible apply State.widthChange_stays
    | (extract_lets)
    | split)

theorem State.fillSlots_stays {w_ : List Part} {z s : State} (p : Nat) (k : Nat) (hw : Has [.crs, .ctrs, .phy, .lnk, .out, .free]
    w_) (hk : Stays w_ z s) : Stays w_ z (State.fillSlots s p k) := by
  induction k generalizing s with
  | zero =>
    unfold State.fillSlots
    repeat' (first
      | with_reducible assumption
      | with_reducible exact Has.sub hw (by decide)
      | with_reducible exact Has.mem hw (by decide)
      | with_reducible apply ih
      | intro _
      | with_reducible apply Stays.ite
      | with_reducible apply State.sendControl_stays
      | (extract_lets)
      | split)
  | succ k ih =>
    unfold State.fillSlots
    repeat' (first
      | with_reducible assumption
      | with_reducible exact Has.sub hw (by decide)
      | with_reducible exact Has.mem hw (by decide)
      | with_reducible apply ih
      | intro _
      | with_reducible apply Stays.ite
      | with_reducible apply State.sendControl_stays
      | (extract_lets)
      | split)

theorem State.periodEnd_stays {w_ : List Part} {z s : State} (p : Nat) (hw : Has [.crs, .ctrs, .phy, .lnk, .out, .free] w_) (hk :
    Stays w_ z s) : Stays w_ z (State.periodEnd s p) := by
  unfold State.periodEnd
  repeat' (first
    | with_reducible assumption
    | with_reducible exact Has.sub hw (by decide)
    | with_reducible exact Has.mem hw (by decide)
    | intro _
    | with_reducible apply State.fillSlots_stays
    | (extract_lets)
    | split)

theorem State.retune_stays {w_ : List Part} {z s : State} (p : Nat) (hw : Has [.crs, .ctrs, .phy, .lnk, .out, .free] w_) (hk :
    Stays w_ z s) : Stays w_ z (State.retune s p) := by
  unfold State.retune
  repeat' (first
    | with_reducible assumption
    | with_reducible exact Has.sub hw (by decide)
    | with_reducible exact Has.mem hw (by decide)
    | intro _
    | with_reducible apply Stays.ite
    | with_reducible apply State.maskChanged_stays
    | with_reducible apply State.periodEnd_stays
    | with_reducible apply State.sendMarkers_stays
    | with_reducible apply State.setPp_stays
    | (extract_lets)
    | split)

theorem State.setRx_stays {w_ : List Part} {z s : State} (p m : Nat) (hw : Has [.phy, .lnk] w_) (hk : Stays w_ z s) : Stays w_ z
    (State.setRx s p m) := by
  unfold State.setRx
  repeat' (first
    | with_reducible assumption
    | with_reducible exact Has.sub hw (by decide)
    | with_reducible exact Has.mem hw (by decide)
    | intro _
    | with_reducible apply Stays.ite
    | with_reducible apply State.maskChanged_stays
    | with_reducible apply State.setPp_stays
    | (extract_lets)
    | split)

theorem State.applyMasks_stays {w_ : List Part} {z s : State} (p : Nat) (hw : Has [.crs, .ctrs, .phy, .lnk, .out, .free] w_) (hk :
    Stays w_ z s) : Stays w_ z (State.applyMasks s p) := by
  unfold State.applyMasks
  repeat' (first
    | with_reducible assumption
    | with_reducible exact Has.sub hw (by decide)
    | with_reducible exact Has.mem hw (by decide)
    | intro _
    | with_reducible apply State.retune_stays
    | with_reducible apply State.setRx_stays
    | (extract_lets)
    | split)

theorem State.trySleep_stays {w_ : List Part} {z s : State} (p : Nat) (hw : Has [.phy, .out] w_) (hk : Stays w_ z s) : Stays w_ z
    (State.trySleep s p) := by
  unfold State.trySleep
  repeat' (first
    | with_reducible assumption
    | with_reducible exact Has.sub hw (by decide)
    | with_reducible exact Has.mem hw (by decide)
    | intro _
    | with_reducible apply Stays.ite
    | with_reducible apply State.emit_stays
    | with_reducible apply State.setLn_stays
    | (extract_lets)
    | split)

theorem State.sendFrames_stays {w_ : List Part} {z s : State} (n : Nat) (hw : Has [.phy, .out] w_) (hk : Stays w_ z s) : Stays w_
    z (State.sendFrames s n) := by
  unfold State.sendFrames
  repeat' (first
    | with_reducible assumption
    | with_reducible exact Has.sub hw (by decide)
    | with_reducible exact Has.mem hw (by decide)
    | intro _
    | with_reducible apply Stays.ite
    | with_reducible apply State.emit_stays
    | with_reducible apply State.setLn_stays
    | (extract_lets)
    | split)

theorem State.beginAttempt_stays {w_ : List Part} {z s : State} (n attempt : Nat) (hw : Has [.glb, .ctrs, .srcs, .banks, .phy,
    .lnk, .rte, .hif, .out] w_) (hk : Stays w_ z s) : Stays w_ z (State.beginAttempt s n attempt) := by
  unfold State.beginAttempt
  repeat' (first
    | with_reducible assumption
    | with_reducible exact Has.sub hw (by decide)
    | with_reducible exact Has.mem hw (by decide)
    | intro _
    | with_reducible apply State.bump_stays
    | with_reducible apply State.frame_stays
    | with_reducible apply State.sendFrames_stays
    | with_reducible apply State.setLn_stays
    | (extract_lets)
    | split)

theorem State.laneStart_stays {w_ : List Part} {z s : State} (n : Nat) (hw : Has [.glb, .ctrs, .srcs, .banks, .phy, .lnk, .rte,
    .hif, .out] w_) (hk : Stays w_ z s) : Stays w_ z (State.laneStart s n) := by
  unfold State.laneStart
  repeat' (first
    | with_reducible assumption
    | with_reducible exact Has.sub hw (by decide)
    | with_reducible exact Has.mem hw (by decide)
    | intro _
    | with_reducible apply Stays.ite
    | with_reducible apply State.beginAttempt_stays
    | (extract_lets)
    | split)

theorem State.dropLane_stays {w_ : List Part} {z s : State} (n : Nat) (dest : LaneSt) (hw : Has [.glb, .crs, .ctrs, .srcs, .banks,
    .phy, .lnk, .rte, .hif, .out, .free] w_) (hk : Stays w_ z s) : Stays w_ z (State.dropLane s n dest) := by
  unfold State.dropLane
  repeat' (first
    | with_reducible assumption
    | with_reducible exact Has.sub hw (by decide)
    | with_reducible exact Has.mem hw (by decide)
    | intro _
    | with_reducible apply Stays.ite
    | with_reducible apply State.applyMasks_stays
    | with_reducible apply State.beginAttempt_stays
    | with_reducible apply State.periodEnd_stays
    | with_reducible apply State.sendMarkers_stays
    | with_reducible apply State.setLn_stays
    | (extract_lets)
    | split)

theorem State.lanesOff_stays {w_ : List Part} {z s : State} (ns : List Nat) (hw : Has [.crs, .ctrs, .phy, .lnk, .out, .free] w_)
    (hk : Stays w_ z s) : Stays w_ z (State.lanesOff s ns) := by
  unfold State.lanesOff
  repeat' (first
    | with_reducible assumption
    | with_reducible exact Has.sub hw (by decide)
    | with_reducible exact Has.mem hw (by decide)
    | intro _
    | with_reducible apply Stays.ite
    | with_reducible apply Stays.foldl
    | with_reducible apply PStays.foldl
    | with_reducible apply QStays.foldl
    | with_reducible apply State.applyMasks_stays
    | with_reducible apply State.emit_stays
    | with_reducible apply State.setLn_stays
    | with_reducible apply State.setPp_stays
    | (extract_lets)
    | split)

theorem State.laneOff_stays {w_ : List Part} {z s : State} (n : Nat) (hw : Has [.crs, .ctrs, .phy, .lnk, .out, .free] w_) (hk :
    Stays w_ z s) : Stays w_ z (State.laneOff s n) := by
  unfold State.laneOff
  repeat' (first
    | with_reducible assumption
    | with_reducible exact Has.sub hw (by decide)
    | with_reducible exact Has.mem hw (by decide)
    | intro _
    | with_reducible apply State.lanesOff_stays
    | (extract_lets)
    | split)

theorem State.forbidLanes_stays {w_ : List Part} {z s : State} (hw : Has [.crs, .ctrs, .phy, .lnk, .out, .free] w_) (hk : Stays w_
    z s) : Stays w_ z (State.forbidLanes s) := by
  unfold State.forbidLanes
  repeat' (first
    | with_reducible assumption
    | with_reducible exact Has.sub hw (by decide)
    | with_reducible exact Has.mem hw (by decide)
    | intro _
    | with_reducible apply State.lanesOff_stays
    | (extract_lets)
    | split)

theorem State.failAttempt_stays {w_ : List Part} {z s : State} (n : Nat) (hw : Has [.glb, .ctrs, .srcs, .banks, .phy, .lnk, .rte,
    .hif, .out] w_) (hk : Stays w_ z s) : Stays w_ z (State.failAttempt s n) := by
  unfold State.failAttempt
  repeat' (first
    | with_reducible assumption
    | with_reducible exact Has.sub hw (by decide)
    | with_reducible exact Has.mem hw (by decide)
    | intro _
    | with_reducible apply Stays.ite
    | with_reducible apply State.beginAttempt_stays
    | with_reducible apply State.raise_stays
    | with_reducible apply State.sendFrames_stays
    | with_reducible apply State.setLn_stays
    | (extract_lets)
    | split)

theorem State.trainFrame_stays {w_ : List Part} {z s : State} (n req status : Nat) (hw : Has [.glb, .crs, .ctrs, .srcs, .banks,
    .phy, .lnk, .rte, .hif, .out, .free] w_) (hk : Stays w_ z s) : Stays w_ z (State.trainFrame s n req status) := by
  unfold State.trainFrame
  repeat' (first
    | with_reducible assumption
    | with_reducible exact Has.sub hw (by decide)
    | with_reducible exact Has.mem hw (by decide)
    | intro _
    | with_reducible apply Stays.ite
    | with_reducible apply QStays.snd
    | with_reducible apply State.draw_staysQ
    | with_reducible apply State.beginAttempt_stays
    | with_reducible apply State.draw_stays
    | with_reducible apply State.dropLane_stays
    | with_reducible apply State.frame_stays
    | with_reducible apply State.sendFrames_stays
    | with_reducible apply State.setLn_stays
    | (extract_lets)
    | split
    | with_reducible apply QStays.pair
    | (with_reducible refine QStays.eq (by assumption) ?_))

theorem State.mergeLanes_stays {w_ : List Part} {z s : State} (p : Nat) (hw : Has [.glb, .ctrs, .srcs, .banks, .phy, .lnk, .rte,
    .hif, .out] w_) (hk : Stays w_ z s) : Stays w_ z (State.mergeLanes s p) := by
  unfold State.mergeLanes
  repeat' (first
    | with_reducible assumption
    | with_reducible exact Has.sub hw (by decide)
    | with_reducible exact Has.mem hw (by decide)
    | intro _
    | with_reducible apply Stays.ite
    | with_reducible apply Stays.foldl
    | with_reducible apply PStays.foldl
    | with_reducible apply QStays.foldl
    | with_reducible apply State.emit_stays
    | with_reducible apply State.rxBrick_stays
    | with_reducible apply State.setLn_stays
    | with_reducible apply State.setPp_stays
    | (extract_lets)
    | split)

theorem State.decoded_stays {w_ : List Part} {z s : State} (n : Nat) (c : List Nat) (dec : Option (Nat × List Nat)) (hw : Has
    [.glb, .ctrs, .srcs, .banks, .phy, .lnk, .rte, .hif, .out] w_) (hk : Stays w_ z s) : Stays w_ z (State.decoded s n c dec) :=
    by
  unfold State.decoded
  repeat' (first
    | with_reducible assumption
    | with_reducible exact Has.sub hw (by decide)
    | with_reducible exact Has.mem hw (by decide)
    | intro _
    | with_reducible apply Stays.ite
    | with_reducible apply Stays.foldl
    | with_reducible apply PStays.foldl
    | with_reducible apply QStays.foldl
    | with_reducible apply State.bump_stays
    | with_reducible apply State.bumpBy_stays
    | with_reducible apply State.bumpIf_stays
    | with_reducible apply State.emit_stays
    | with_reducible apply State.mergeLanes_stays
    | with_reducible apply State.raise_stays
    | with_reducible apply State.setLn_stays
    | (extract_lets)
    | split)

theorem State.codeword_stays {w_ : List Part} {z s : State} (n levels : Nat) (hw : Has [.glb, .ctrs, .srcs, .banks, .phy, .lnk,
    .rte, .hif, .out] w_) (hk : Stays w_ z s) : Stays w_ z (State.codeword s n levels) := by
  unfold State.codeword
  repeat' (first
    | with_reducible assumption
    | with_reducible exact Has.sub hw (by decide)
    | with_reducible exact Has.mem hw (by decide)
    | intro _
    | with_reducible apply State.bump_stays
    | with_reducible apply State.decoded_stays
    | (extract_lets)
    | split)

theorem execCodewordRx_stays {w_ : List Part} {z s : State} (n message parity : Nat) (hw : Has [.glb, .ctrs, .srcs, .banks, .phy,
    .lnk, .rte, .hif, .out] w_) (hk : Stays w_ z s) : OutStays w_ z (execCodewordRx n message parity s) := by
  unfold execCodewordRx
  repeat' (first
    | with_reducible assumption
    | with_reducible exact Has.sub hw (by decide)
    | with_reducible exact Has.mem hw (by decide)
    | intro _
    | with_reducible apply OutStays.ite
    | with_reducible apply Stays.ite
    | with_reducible apply OutStays.next
    | with_reducible apply State.codeword_stays
    | (extract_lets)
    | split)

theorem State.lockLost_stays {w_ : List Part} {z s : State} (n : Nat) (hw : Has [.glb, .crs, .ctrs, .srcs, .banks, .phy, .lnk,
    .rte, .hif, .out, .free] w_) (hk : Stays w_ z s) : Stays w_ z (State.lockLost s n) := by
  unfold State.lockLost
  repeat' (first
    | with_reducible assumption
    | with_reducible exact Has.sub hw (by decide)
    | with_reducible exact Has.mem hw (by decide)
    | intro _
    | with_reducible apply State.beginAttempt_stays
    | with_reducible apply State.bump_stays
    | with_reducible apply State.dropLane_stays
    | with_reducible apply State.frame_stays
    | with_reducible apply State.raise_stays
    | (extract_lets)
    | split)

theorem execFecLockLost_stays {w_ : List Part} {z s : State} (n : Nat) (hw : Has [.glb, .crs, .ctrs, .srcs, .banks, .phy, .lnk,
    .rte, .hif, .out, .free] w_) (hk : Stays w_ z s) : OutStays w_ z (execFecLockLost n s) := by
  unfold execFecLockLost
  repeat' (first
    | with_reducible assumption
    | with_reducible exact Has.sub hw (by decide)
    | with_reducible exact Has.mem hw (by decide)
    | intro _
    | with_reducible apply OutStays.ite
    | with_reducible apply Stays.ite
    | with_reducible apply OutStays.next
    | with_reducible apply State.lockLost_stays
    | with_reducible apply State.setLn_stays
    | (extract_lets)
    | split)

theorem execMarkerLockLost_stays {w_ : List Part} {z s : State} (n : Nat) (hw : Has [.glb, .crs, .ctrs, .srcs, .banks, .phy, .lnk,
    .rte, .hif, .out, .free] w_) (hk : Stays w_ z s) : OutStays w_ z (execMarkerLockLost n s) := by
  unfold execMarkerLockLost
  repeat' (first
    | with_reducible assumption
    | with_reducible exact Has.sub hw (by decide)
    | with_reducible exact Has.mem hw (by decide)
    | intro _
    | with_reducible apply OutStays.ite
    | with_reducible apply Stays.ite
    | with_reducible apply OutStays.next
    | with_reducible apply State.lockLost_stays
    | with_reducible apply State.setLn_stays
    | (extract_lets)
    | split)

theorem execMarkerTx_stays {w_ : List Part} {z s : State} (n : Nat) (hw : Has [.crs, .ctrs, .phy, .lnk, .out, .free] w_) (hk :
    Stays w_ z s) : OutStays w_ z (execMarkerTx n s) := by
  unfold execMarkerTx
  repeat' (first
    | with_reducible assumption
    | with_reducible exact Has.sub hw (by decide)
    | with_reducible exact Has.mem hw (by decide)
    | intro _
    | with_reducible apply OutStays.ite
    | with_reducible apply Stays.ite
    | with_reducible apply OutStays.next
    | with_reducible apply State.periodEnd_stays
    | with_reducible apply State.sendMarkers_stays
    | (extract_lets)
    | split)

theorem State.mergeMarkers_stays {w_ : List Part} {z s : State} (p : Nat) (hw : Has [.glb, .ctrs, .srcs, .banks, .phy, .lnk, .rte,
    .sch, .hif, .trn, .mch, .out, .free] w_) (hk : Stays w_ z s) : Stays w_ z (State.mergeMarkers s p) := by
  unfold State.mergeMarkers
  repeat' (first
    | with_reducible assumption
    | with_reducible exact Has.sub hw (by decide)
    | with_reducible exact Has.mem hw (by decide)
    | intro _
    | with_reducible apply Stays.ite
    | with_reducible apply State.paiw_stays
    | with_reducible apply State.raise_stays
    | with_reducible apply State.setLn_stays
    | with_reducible apply State.setPp_stays
    | (extract_lets)
    | split)

theorem State.markerRx_stays {w_ : List Part} {z s : State} (n : Nat) (m : Marker) (hw : Has [.glb, .crs, .ctrs, .srcs, .banks,
    .phy, .lnk, .rte, .sch, .hif, .trn, .mch, .out, .free] w_) (hk : Stays w_ z s) : Stays w_ z (State.markerRx s n m) := by
  unfold State.markerRx
  repeat' (first
    | with_reducible assumption
    | with_reducible exact Has.sub hw (by decide)
    | with_reducible exact Has.mem hw (by decide)
    | intro _
    | with_reducible apply Stays.ite
    | with_reducible apply State.applyMasks_stays
    | with_reducible apply State.bumpIf_stays
    | with_reducible apply State.mergeLanes_stays
    | with_reducible apply State.mergeMarkers_stays
    | with_reducible apply State.setLn_stays
    | with_reducible apply State.setPp_stays
    | with_reducible apply State.trySleep_stays
    | (extract_lets)
    | split)

theorem execMarkerRx_stays {w_ : List Part} {z s : State} (n : Nat) (m : Marker) (hw : Has [.glb, .crs, .ctrs, .srcs, .banks,
    .phy, .lnk, .rte, .sch, .hif, .trn, .mch, .out, .free] w_) (hk : Stays w_ z s) : OutStays w_ z (execMarkerRx n m s) := by
  unfold execMarkerRx
  repeat' (first
    | with_reducible assumption
    | with_reducible exact Has.sub hw (by decide)
    | with_reducible exact Has.mem hw (by decide)
    | intro _
    | with_reducible apply OutStays.ite
    | with_reducible apply Stays.ite
    | with_reducible apply OutStays.next
    | with_reducible apply State.markerRx_stays
    | (extract_lets)
    | split)

theorem execSleepWake_stays {w_ : List Part} {z s : State} (n : Nat) (signal : Bool) (hw : Has [.glb, .ctrs, .srcs, .banks, .phy,
    .lnk, .rte, .hif, .out] w_) (hk : Stays w_ z s) : OutStays w_ z (execSleepWake n signal s) := by
  unfold execSleepWake
  repeat' (first
    | with_reducible assumption
    | with_reducible exact Has.sub hw (by decide)
    | with_reducible exact Has.mem hw (by decide)
    | intro _
    | with_reducible apply OutStays.ite
    | with_reducible apply Stays.ite
    | with_reducible apply OutStays.next
    | with_reducible apply State.beginAttempt_stays
    | with_reducible apply State.setLn_stays
    | (extract_lets)
    | split)

theorem execTrainingFrameRx_stays {w_ : List Part} {z s : State} (n req status : Nat) (hw : Has [.glb, .crs, .ctrs, .srcs, .banks,
    .phy, .lnk, .rte, .hif, .out, .free] w_) (hk : Stays w_ z s) : OutStays w_ z (execTrainingFrameRx n req status s) := by
  unfold execTrainingFrameRx
  repeat' (first
    | with_reducible assumption
    | with_reducible exact Has.sub hw (by decide)
    | with_reducible exact Has.mem hw (by decide)
    | intro _
    | with_reducible apply OutStays.ite
    | with_reducible apply Stays.ite
    | with_reducible apply OutStays.next
    | with_reducible apply State.trainFrame_stays
    | (extract_lets)
    | split)

theorem execFrameLock_stays {w_ : List Part} {z s : State} (n : Nat) (hw : Has [.glb, .ctrs, .srcs, .banks, .phy, .lnk, .rte,
    .hif, .out] w_) (hk : Stays w_ z s) : OutStays w_ z (execFrameLock n s) := by
  unfold execFrameLock
  repeat' (first
    | with_reducible assumption
    | with_reducible exact Has.sub hw (by decide)
    | with_reducible exact Has.mem hw (by decide)
    | intro _
    | with_reducible apply OutStays.ite
    | with_reducible apply Stays.ite
    | with_reducible apply OutStays.next
    | with_reducible apply State.frame_stays
    | with_reducible apply State.setLn_stays
    | (extract_lets)
    | split)

theorem execFrameLockLost_stays {w_ : List Part} {z s : State} (n : Nat) (hw : Has [.glb, .ctrs, .srcs, .banks, .phy, .lnk, .rte,
    .hif, .out] w_) (hk : Stays w_ z s) : OutStays w_ z (execFrameLockLost n s) := by
  unfold execFrameLockLost
  repeat' (first
    | with_reducible assumption
    | with_reducible exact Has.sub hw (by decide)
    | with_reducible exact Has.mem hw (by decide)
    | intro _
    | with_reducible apply OutStays.ite
    | with_reducible apply Stays.ite
    | with_reducible apply OutStays.next
    | with_reducible apply State.frame_stays
    | with_reducible apply State.setLn_stays
    | (extract_lets)
    | split)

theorem execTapResponse_stays {w_ : List Part} {z s : State} (n : Nat) (hw : Has [.phy, .out] w_) (hk : Stays w_ z s) : OutStays
    w_ z (execTapResponse n s) := by
  unfold execTapResponse
  repeat' (first
    | with_reducible assumption
    | with_reducible exact Has.sub hw (by decide)
    | with_reducible exact Has.mem hw (by decide)
    | intro _
    | with_reducible apply OutStays.ite
    | with_reducible apply Stays.ite
    | with_reducible apply OutStays.next
    | with_reducible apply State.sendFrames_stays
    | with_reducible apply State.setLn_stays
    | (extract_lets)
    | split)

theorem execTapResponseTimeout_stays {w_ : List Part} {z s : State} (n : Nat) (hw : Has [.glb, .ctrs, .srcs, .banks, .phy, .lnk,
    .rte, .hif, .out] w_) (hk : Stays w_ z s) : OutStays w_ z (execTapResponseTimeout n s) := by
  unfold execTapResponseTimeout
  repeat' (first
    | with_reducible assumption
    | with_reducible exact Has.sub hw (by decide)
    | with_reducible exact Has.mem hw (by decide)
    | intro _
    | with_reducible apply OutStays.ite
    | with_reducible apply Stays.ite
    | with_reducible apply OutStays.next
    | with_reducible apply State.failAttempt_stays
    | (extract_lets)
    | split)

theorem execRxReady_stays {w_ : List Part} {z s : State} (n snr frames : Nat) (hw : Has [.phy, .out] w_) (hk : Stays w_ z s) :
    OutStays w_ z (execRxReady n snr frames s) := by
  unfold execRxReady
  repeat' (first
    | with_reducible assumption
    | with_reducible exact Has.sub hw (by decide)
    | with_reducible exact Has.mem hw (by decide)
    | intro _
    | with_reducible apply OutStays.ite
    | with_reducible apply Stays.ite
    | with_reducible apply OutStays.next
    | with_reducible apply State.sendFrames_stays
    | with_reducible apply State.setLn_stays
    | (extract_lets)
    | split)

theorem execDataStart_stays {w_ : List Part} {z s : State} (n : Nat) (hw : Has [.crs, .ctrs, .phy, .lnk, .out, .free] w_) (hk :
    Stays w_ z s) : OutStays w_ z (execDataStart n s) := by
  unfold execDataStart
  repeat' (first
    | with_reducible assumption
    | with_reducible exact Has.sub hw (by decide)
    | with_reducible exact Has.mem hw (by decide)
    | intro _
    | with_reducible apply OutStays.ite
    | with_reducible apply Stays.ite
    | with_reducible apply OutStays.next
    | with_reducible apply State.applyMasks_stays
    | with_reducible apply State.sendMarkew_stays
    | with_reducible apply State.setLn_stays
    | (extract_lets)
    | split)

theorem execTrainAttemptTimeout_stays {w_ : List Part} {z s : State} (n : Nat) (hw : Has [.glb, .ctrs, .srcs, .banks, .phy, .lnk,
    .rte, .hif, .out] w_) (hk : Stays w_ z s) : OutStays w_ z (execTrainAttemptTimeout n s) := by
  unfold execTrainAttemptTimeout
  repeat' (first
    | with_reducible assumption
    | with_reducible exact Has.sub hw (by decide)
    | with_reducible exact Has.mem hw (by decide)
    | intro _
    | with_reducible apply OutStays.ite
    | with_reducible apply Stays.ite
    | with_reducible apply OutStays.next
    | with_reducible apply State.failAttempt_stays
    | with_reducible apply State.frame_stays
    | (extract_lets)
    | split)

theorem execSignalAbsentTimeout_stays {w_ : List Part} {z s : State} (n : Nat) (hw : Has [.glb, .ctrs, .srcs, .banks, .phy, .lnk,
    .rte, .hif, .out] w_) (hk : Stays w_ z s) : OutStays w_ z (execSignalAbsentTimeout n s) := by
  unfold execSignalAbsentTimeout
  repeat' (first
    | with_reducible assumption
    | with_reducible exact Has.sub hw (by decide)
    | with_reducible exact Has.mem hw (by decide)
    | intro _
    | with_reducible apply OutStays.ite
    | with_reducible apply Stays.ite
    | with_reducible apply OutStays.next
    | with_reducible apply State.failAttempt_stays
    | with_reducible apply State.frame_stays
    | with_reducible apply State.setLn_stays
    | (extract_lets)
    | split)

theorem execSignalReturn_stays {w_ : List Part} {z s : State} (n : Nat) (hw : Has [.glb, .ctrs, .srcs, .banks, .phy, .lnk, .rte,
    .hif, .out] w_) (hk : Stays w_ z s) : OutStays w_ z (execSignalReturn n s) := by
  unfold execSignalReturn
  repeat' (first
    | with_reducible assumption
    | with_reducible exact Has.sub hw (by decide)
    | with_reducible exact Has.mem hw (by decide)
    | intro _
    | with_reducible apply OutStays.ite
    | with_reducible apply Stays.ite
    | with_reducible apply OutStays.next
    | with_reducible apply State.beginAttempt_stays
    | with_reducible apply State.setLn_stays
    | (extract_lets)
    | split)

theorem execLaneRestart_stays {w_ : List Part} {z s : State} (n : Nat) (hw : Has [.glb, .ctrs, .srcs, .banks, .phy, .lnk, .rte,
    .hif, .out] w_) (hk : Stays w_ z s) : OutStays w_ z (execLaneRestart n s) := by
  unfold execLaneRestart
  repeat' (first
    | with_reducible assumption
    | with_reducible exact Has.sub hw (by decide)
    | with_reducible exact Has.mem hw (by decide)
    | intro _
    | with_reducible apply OutStays.ite
    | with_reducible apply Stays.ite
    | with_reducible apply OutStays.next
    | with_reducible apply State.beginAttempt_stays
    | (extract_lets)
    | split)

theorem State.pllLanes_stays {w_ : List Part} {z s : State} (k : Nat) (hw : Has [.crs, .ctrs, .phy, .lnk, .out, .free] w_) (hk :
    Stays w_ z s) : Stays w_ z (State.pllLanes s k) := by
  unfold State.pllLanes
  repeat' (first
    | with_reducible assumption
    | with_reducible exact Has.sub hw (by decide)
    | with_reducible exact Has.mem hw (by decide)
    | intro _
    | with_reducible apply Stays.foldl
    | with_reducible apply PStays.foldl
    | with_reducible apply QStays.foldl
    | with_reducible apply State.emit_stays
    | with_reducible apply State.lanesOff_stays
    | (extract_lets)
    | split)

theorem State.pllLoss_stays {w_ : List Part} {z s : State} (k : Nat) (hw : Has [.glb, .crs, .ctrs, .srcs, .banks, .phy, .lnk,
    .hif, .out, .free] w_) (hk : Stays w_ z s) : Stays w_ z (State.pllLoss s k) := by
  unfold State.pllLoss
  repeat' (first
    | with_reducible assumption
    | with_reducible exact Has.sub hw (by decide)
    | with_reducible exact Has.mem hw (by decide)
    | intro _
    | with_reducible apply State.level_stays
    | with_reducible apply State.pllLanes_stays
    | (extract_lets)
    | split
    | with_reducible apply Stays.set_phy)

theorem State.pllQuiet_stays {w_ : List Part} {z s : State} (k : Nat) (hw : Has [.crs, .ctrs, .phy, .lnk, .out, .free] w_) (hk :
    Stays w_ z s) : Stays w_ z (State.pllQuiet s k) := by
  unfold State.pllQuiet
  repeat' (first
    | with_reducible assumption
    | with_reducible exact Has.sub hw (by decide)
    | with_reducible exact Has.mem hw (by decide)
    | intro _
    | with_reducible apply State.pllLanes_stays
    | (extract_lets)
    | split
    | with_reducible apply Stays.set_phy)

theorem State.testSignal_stays {w_ : List Part} {z s : State} (n : Nat) (hw : Has [.phy, .out] w_) (hk : Stays w_ z s) : Stays w_
    z (State.testSignal s n) := by
  unfold State.testSignal
  repeat' (first
    | with_reducible assumption
    | with_reducible exact Has.sub hw (by decide)
    | with_reducible exact Has.mem hw (by decide)
    | intro _
    | with_reducible apply Stays.ite
    | with_reducible apply State.emit_stays
    | with_reducible apply State.setLn_stays
    | (extract_lets)
    | split)

theorem State.pllFree_stays {w_ : List Part} {z s : State} (hw : Has [.glb, .ctrs, .srcs, .banks, .phy, .lnk, .rte, .hif, .out]
    w_) (hk : Stays w_ z s) : Stays w_ z (State.pllFree s) := by
  unfold State.pllFree
  repeat' (first
    | with_reducible assumption
    | with_reducible exact Has.sub hw (by decide)
    | with_reducible exact Has.mem hw (by decide)
    | intro _
    | with_reducible apply Stays.foldl
    | with_reducible apply PStays.foldl
    | with_reducible apply QStays.foldl
    | with_reducible apply State.laneStart_stays
    | with_reducible apply State.testSignal_stays
    | (extract_lets)
    | split
    | with_reducible apply Stays.set_phy)

theorem execPllLossOfLock_stays {w_ : List Part} {z s : State} (k : Nat) (hw : Has [.glb, .crs, .ctrs, .srcs, .banks, .phy, .lnk,
    .hif, .out, .free] w_) (hk : Stays w_ z s) : OutStays w_ z (execPllLossOfLock k s) := by
  unfold execPllLossOfLock
  repeat' (first
    | with_reducible assumption
    | with_reducible exact Has.sub hw (by decide)
    | with_reducible exact Has.mem hw (by decide)
    | intro _
    | with_reducible apply OutStays.ite
    | with_reducible apply Stays.ite
    | with_reducible apply OutStays.next
    | with_reducible apply State.pllLoss_stays
    | (extract_lets)
    | split)

theorem execPllRelock_stays {w_ : List Part} {z s : State} (k : Nat) (hw : Has [.glb, .ctrs, .srcs, .banks, .phy, .lnk, .rte,
    .hif, .out] w_) (hk : Stays w_ z s) : OutStays w_ z (execPllRelock k s) := by
  unfold execPllRelock
  repeat' (first
    | with_reducible assumption
    | with_reducible exact Has.sub hw (by decide)
    | with_reducible exact Has.mem hw (by decide)
    | intro _
    | with_reducible apply OutStays.ite
    | with_reducible apply Stays.ite
    | with_reducible apply OutStays.next
    | with_reducible apply State.level_stays
    | with_reducible apply State.pllFree_stays
    | (extract_lets)
    | split)

theorem State.sleepMask_stays {w_ : List Part} {z s : State} (p m : Nat) (hw : Has [.glb, .crs, .regs, .ctrs, .srcs, .banks, .phy,
    .lnk, .rte, .hif, .out, .free] w_) (hk : Stays w_ z s) : Stays w_ z (State.sleepMask s p m) := by
  unfold State.sleepMask
  repeat' (first
    | with_reducible assumption
    | with_reducible exact Has.sub hw (by decide)
    | with_reducible exact Has.mem hw (by decide)
    | intro _
    | with_reducible apply Stays.ite
    | with_reducible apply Stays.foldl
    | with_reducible apply PStays.foldl
    | with_reducible apply QStays.foldl
    | with_reducible apply State.beginAttempt_stays
    | with_reducible apply State.periodEnd_stays
    | with_reducible apply State.put_stays
    | with_reducible apply State.retune_stays
    | with_reducible apply State.sendMarkers_stays
    | with_reducible apply State.setLn_stays
    | with_reducible apply State.trySleep_stays
    | (extract_lets)
    | split)

theorem State.enterTest_stays {w_ : List Part} {z s : State} (p : Nat) (hw : Has [.regs, .phy, .lnk, .out] w_) (hk : Stays w_ z s)
    : Stays w_ z (State.enterTest s p) := by
  unfold State.enterTest
  repeat' (first
    | with_reducible assumption
    | with_reducible exact Has.sub hw (by decide)
    | with_reducible exact Has.mem hw (by decide)
    | intro _
    | with_reducible apply Stays.ite
    | with_reducible apply State.phyFell_stays
    | with_reducible apply State.put_stays
    | with_reducible apply State.setLn_stays
    | with_reducible apply State.setPp_stays
    | with_reducible apply State.testSignal_stays
    | (extract_lets)
    | split)

theorem State.leaveTest_stays {w_ : List Part} {z s : State} (p : Nat) (hw : Has [.glb, .crs, .regs, .ctrs, .srcs, .banks, .phy,
    .lnk, .rte, .hif, .out, .free] w_) (hk : Stays w_ z s) : Stays w_ z (State.leaveTest s p) := by
  unfold State.leaveTest
  repeat' (first
    | with_reducible assumption
    | with_reducible exact Has.sub hw (by decide)
    | with_reducible exact Has.mem hw (by decide)
    | intro _
    | with_reducible apply Stays.ite
    | with_reducible apply State.beginAttempt_stays
    | with_reducible apply State.laneOff_stays
    | with_reducible apply State.put_stays
    | (extract_lets)
    | split)

theorem State.lockedNote_stays {w_ : List Part} {z s : State} (changes : Bool) (hw : Has [.glb, .ctrs, .srcs, .banks, .hif, .out]
    w_) (hk : Stays w_ z s) : Stays w_ z (State.lockedNote s changes) := by
  unfold State.lockedNote
  repeat' (first
    | with_reducible assumption
    | with_reducible exact Has.sub hw (by decide)
    | with_reducible exact Has.mem hw (by decide)
    | intro _
    | with_reducible apply Stays.ite
    | with_reducible apply State.bump_stays
    | with_reducible apply State.raise_stays
    | (extract_lets)
    | split)

theorem State.ptCtrlWrite_stays {w_ : List Part} {z s : State} (p v : Nat) (hw : Has [.glb, .crs, .regs, .ctrs, .srcs, .banks,
    .phy, .lnk, .rte, .hif, .out, .free] w_) (hk : Stays w_ z s) : Stays w_ z (State.ptCtrlWrite s p v) := by
  unfold State.ptCtrlWrite
  repeat' (first
    | with_reducible assumption
    | with_reducible exact Has.sub hw (by decide)
    | with_reducible exact Has.mem hw (by decide)
    | intro _
    | with_reducible apply Stays.ite
    | with_reducible apply State.enterTest_stays
    | with_reducible apply State.leaveTest_stays
    | with_reducible apply State.put_stays
    | with_reducible apply State.retune_stays
    | with_reducible apply State.setPp_stays
    | with_reducible apply State.sleepMask_stays
    | (extract_lets)
    | split)

theorem State.ptCtrlCheck_stays {w_ : List Part} {z s : State} (p v : Nat) (hw : Has [.glb, .ctrs, .srcs, .banks, .hif, .out] w_)
    (hk : Stays w_ z s) : Stays w_ z (State.ptCtrlCheck s p v) := by
  unfold State.ptCtrlCheck
  repeat' (first
    | with_reducible assumption
    | with_reducible exact Has.sub hw (by decide)
    | with_reducible exact Has.mem hw (by decide)
    | intro _
    | with_reducible apply State.lockedNote_stays
    | (extract_lets)
    | split)

theorem execTestEntew_stays {w_ : List Part} {z s : State} (p v : Nat) (hw : Has [.glb, .crs, .regs, .ctrs, .srcs, .banks, .phy,
    .lnk, .rte, .hif, .out, .free] w_) (hk : Stays w_ z s) : OutStays w_ z (execTestEnter p v s) := by
  unfold execTestEnter
  repeat' (first
    | with_reducible assumption
    | with_reducible exact Has.sub hw (by decide)
    | with_reducible exact Has.mem hw (by decide)
    | intro _
    | with_reducible apply OutStays.ite
    | with_reducible apply Stays.ite
    | with_reducible apply OutStays.next
    | with_reducible apply State.ptCtrlCheck_stays
    | with_reducible apply State.ptCtrlWrite_stays
    | (extract_lets)
    | split)

theorem execTestExit_stays {w_ : List Part} {z s : State} (p v : Nat) (hw : Has [.glb, .crs, .regs, .ctrs, .srcs, .banks, .phy,
    .lnk, .rte, .hif, .out, .free] w_) (hk : Stays w_ z s) : OutStays w_ z (execTestExit p v s) := by
  unfold execTestExit
  repeat' (first
    | with_reducible assumption
    | with_reducible exact Has.sub hw (by decide)
    | with_reducible exact Has.mem hw (by decide)
    | intro _
    | with_reducible apply OutStays.ite
    | with_reducible apply Stays.ite
    | with_reducible apply OutStays.next
    | with_reducible apply State.ptCtrlCheck_stays
    | with_reducible apply State.ptCtrlWrite_stays
    | (extract_lets)
    | split)

theorem execSleepMaskWrite_stays {w_ : List Part} {z s : State} (p m : Nat) (hw : Has [.glb, .crs, .regs, .ctrs, .srcs, .banks,
    .phy, .lnk, .rte, .hif, .out, .free] w_) (hk : Stays w_ z s) : OutStays w_ z (execSleepMaskWrite p m s) := by
  unfold execSleepMaskWrite
  repeat' (first
    | with_reducible assumption
    | with_reducible exact Has.sub hw (by decide)
    | with_reducible exact Has.mem hw (by decide)
    | intro _
    | with_reducible apply OutStays.ite
    | with_reducible apply Stays.ite
    | with_reducible apply OutStays.next
    | with_reducible apply State.sleepMask_stays
    | (extract_lets)
    | split)

theorem State.flipSymbol_stays {w_ : List Part} {z s : State} (n : Nat) (hw : Has [.phy, .out] w_) (hk : Stays w_ z s) : Stays w_
    z (State.flipSymbol s n) := by
  unfold State.flipSymbol
  repeat' (first
    | with_reducible assumption
    | with_reducible exact Has.sub hw (by decide)
    | with_reducible exact Has.mem hw (by decide)
    | intro _
    | with_reducible apply State.emit_stays
    | with_reducible apply State.setLn_stays
    | (extract_lets)
    | split)

theorem execPrbsInjectOne_stays {w_ : List Part} {z s : State} (n : Nat) (hw : Has [.phy, .out] w_) (hk : Stays w_ z s) : OutStays
    w_ z (execPrbsInjectOne n s) := by
  unfold execPrbsInjectOne
  repeat' (first
    | with_reducible assumption
    | with_reducible exact Has.sub hw (by decide)
    | with_reducible exact Has.mem hw (by decide)
    | intro _
    | with_reducible apply OutStays.ite
    | with_reducible apply Stays.ite
    | with_reducible apply OutStays.next
    | with_reducible apply State.flipSymbol_stays
    | (extract_lets)
    | split)

theorem execPrbsRateInjection_stays {w_ : List Part} {z s : State} (n : Nat) (hw : Has [.phy, .out] w_) (hk : Stays w_ z s) :
    OutStays w_ z (execPrbsRateInjection n s) := by
  unfold execPrbsRateInjection
  repeat' (first
    | with_reducible assumption
    | with_reducible exact Has.sub hw (by decide)
    | with_reducible exact Has.mem hw (by decide)
    | intro _
    | with_reducible apply OutStays.ite
    | with_reducible apply Stays.ite
    | with_reducible apply OutStays.next
    | with_reducible apply State.flipSymbol_stays
    | with_reducible apply State.setLn_stays
    | (extract_lets)
    | split)

theorem State.ownSymbols_stays {w_ : List Part} {z s : State} (n count : Nat) (hw : Has [.phy, .free] w_) (hk : Stays w_ z s) :
    QStays w_ z (State.ownSymbols s n count) := by
  unfold State.ownSymbols
  repeat' (first
    | with_reducible assumption
    | with_reducible exact Has.sub hw (by decide)
    | with_reducible exact Has.mem hw (by decide)
    | intro _
    | with_reducible apply QStays.ite
    | with_reducible apply Stays.ite
    | with_reducible apply QStays.snd
    | with_reducible apply State.draw_staysQ
    | with_reducible apply State.setLn_stays
    | (extract_lets)
    | split
    | with_reducible apply QStays.pair
    | (with_reducible refine QStays.eq (by assumption) ?_))

theorem execPrbsCheckerLock_stays {w_ : List Part} {z s : State} (n count low mid top : Nat) (hw : Has [.ctrs, .phy, .out, .free]
    w_) (hk : Stays w_ z s) : OutStays w_ z (execPrbsCheckerLock n count low mid top s) := by
  unfold execPrbsCheckerLock
  repeat' (first
    | with_reducible assumption
    | with_reducible exact Has.sub hw (by decide)
    | with_reducible exact Has.mem hw (by decide)
    | intro _
    | with_reducible apply OutStays.ite
    | with_reducible apply Stays.ite
    | with_reducible apply Stays.foldl
    | with_reducible apply PStays.foldl
    | with_reducible apply QStays.foldl
    | with_reducible apply PStays.fst
    | with_reducible apply QStays.snd
    | with_reducible apply State.draw_staysQ
    | with_reducible apply OutStays.next
    | with_reducible apply State.bumpBy_stays
    | with_reducible apply State.emit_stays
    | with_reducible apply State.ownSymbols_stays
    | with_reducible apply State.setLn_stays
    | (extract_lets)
    | split
    | with_reducible apply PStays.pair
    | with_reducible apply QStays.pair
    | (with_reducible refine PStays.eq (by assumption) ?_)
    | (with_reducible refine QStays.eq (by assumption) ?_))

theorem execFecInject_stays {w_ : List Part} {z s : State} (n : Nat) (hw : Has [.regs, .phy, .out, .free] w_) (hk : Stays w_ z s)
    : OutStays w_ z (execFecInject n s) := by
  unfold execFecInject
  repeat' (first
    | with_reducible assumption
    | with_reducible exact Has.sub hw (by decide)
    | with_reducible exact Has.mem hw (by decide)
    | intro _
    | with_reducible apply OutStays.ite
    | with_reducible apply Stays.ite
    | with_reducible apply QStays.snd
    | with_reducible apply State.draw_staysQ
    | with_reducible apply OutStays.next
    | with_reducible apply State.drawErrors_stays
    | with_reducible apply State.emit_stays
    | with_reducible apply State.put_stays
    | with_reducible apply State.setLn_stays
    | (extract_lets)
    | split
    | with_reducible apply QStays.pair
    | (with_reducible refine QStays.eq (by assumption) ?_))

end Sys2Proof.Machine
end

