-- ==== Sys2Proof/Laws/StaysMgt.lean ====
section
/-! SUPPORT. Laws/Stays.lean, for the operations of Machine/Mgt.lean. -/
namespace Sys2Proof.Machine

theorem State.mgTake_stays {w_ : List Part} {z s : State} (types : List Nat) (hw : Has [.mgt] w_) (hk : Stays w_ z s) : OptQStays
    w_ z (State.mgTake s types) := by
  unfold State.mgTake
  repeat' (first
    | with_reducible assumption
    | with_reducible exact Has.sub hw (by decide)
    | with_reducible exact Has.mem hw (by decide)
    | intro _
    | with_reducible exact OptQStays.none _
    | with_reducible apply OptQStays.some
    | (extract_lets)
    | split
    | (with_reducible refine OptQStays.eq (by assumption) ?_)
    | with_reducible apply Stays.set_mgt)

theorem State.bootGo_stays {w_ : List Part} {z s : State} (req : Requester) (hw : Has [.regs, .mgt] w_) (hk : Stays w_ z s) :
    Stays w_ z (State.bootGo s req) := by
  unfold State.bootGo
  repeat' (first
    | with_reducible assumption
    | with_reducible exact Has.sub hw (by decide)
    | with_reducible exact Has.mem hw (by decide)
    | intro _
    | with_reducible apply Stays.ite
    | with_reducible apply State.put_stays
    | (extract_lets)
    | split
    | with_reducible apply Stays.set_mgt)

theorem execBootMboxGo_stays {w_ : List Part} {z s : State} (req : Requester) (hw : Has [.regs, .mgt] w_) (hk : Stays w_ z s) :
    OutStays w_ z (execBootMboxGo req s) := by
  unfold execBootMboxGo
  repeat' (first
    | with_reducible assumption
    | with_reducible exact Has.sub hw (by decide)
    | with_reducible exact Has.mem hw (by decide)
    | intro _
    | with_reducible apply OutStays.next
    | with_reducible apply State.bootGo_stays
    | (extract_lets)
    | split)

theorem State.fetched_stays {w_ : List Part} {z s : State} (src : Nat) (hw : Has [.regs] w_) (hk : Stays w_ z s) : Stays w_ z
    (State.fetched s src) := by
  unfold State.fetched
  repeat' (first
    | with_reducible assumption
    | with_reducible exact Has.sub hw (by decide)
    | with_reducible exact Has.mem hw (by decide)
    | intro _
    | with_reducible apply State.put_stays
    | (extract_lets)
    | split)

theorem execBootImageReadReturn_stays {w_ : List Part} {z s : State} (r : ReadResult) (hw : Has [.regs, .mgt, .out] w_) (hk :
    Stays w_ z s) : OutStays w_ z (execBootImageReadReturn r s) := by
  unfold execBootImageReadReturn
  repeat' (first
    | with_reducible assumption
    | with_reducible exact Has.sub hw (by decide)
    | with_reducible exact Has.mem hw (by decide)
    | intro _
    | with_reducible apply OutStays.ite
    | with_reducible apply Stays.ite
    | with_reducible apply OutStays.next
    | with_reducible apply State.bootFailed_stays
    | with_reducible apply State.bootRead_stays
    | with_reducible apply State.fetched_stays
    | (extract_lets)
    | split
    | with_reducible apply Stays.set_mgt)

theorem State.portOff_stays {w_ : List Part} {z s : State} (p : Nat) (hw : Has [.glb, .crs, .ctrs, .srcs, .banks, .phy, .lnk,
    .rte, .sch, .hif, .col, .out, .free] w_) (hk : Stays w_ z s) : Stays w_ z (State.portOff s p) := by
  unfold State.portOff
  repeat' (first
    | with_reducible assumption
    | with_reducible exact Has.sub hw (by decide)
    | with_reducible exact Has.mem hw (by decide)
    | intro _
    | with_reducible apply State.lanesOff_stays
    | with_reducible apply State.linkForbid_stays
    | (extract_lets)
    | split)

theorem execFwReqTimeout_stays {w_ : List Part} {z s : State} (p : Nat) (hw : Has [.regs, .rte, .sch, .mgt, .out] w_) (hk : Stays
    w_ z s) : OutStays w_ z (execFwReqTimeout p s) := by
  unfold execFwReqTimeout
  repeat' (first
    | with_reducible assumption
    | with_reducible exact Has.sub hw (by decide)
    | with_reducible exact Has.mem hw (by decide)
    | intro _
    | with_reducible apply OutStays.ite
    | with_reducible apply Stays.ite
    | with_reducible apply OutStays.next
    | with_reducible apply State.bootFailed_stays
    | with_reducible apply State.fwReq_stays
    | (extract_lets)
    | split)

theorem execFwFetchRetry_stays {w_ : List Part} {z s : State} (p : Nat) (hw : Has [.regs, .rte, .sch, .mgt] w_) (hk : Stays w_ z
    s) : OutStays w_ z (execFwFetchRetry p s) := by
  unfold execFwFetchRetry
  repeat' (first
    | with_reducible assumption
    | with_reducible exact Has.sub hw (by decide)
    | with_reducible exact Has.mem hw (by decide)
    | intro _
    | with_reducible apply OutStays.ite
    | with_reducible apply Stays.ite
    | with_reducible apply OutStays.next
    | with_reducible apply State.fabricFetch_stays
    | (extract_lets)
    | split)

theorem execFwDataRx_stays {w_ : List Part} {z s : State} (hw : Has [.regs, .rte, .sch, .mgt] w_) (hk : Stays w_ z s) : OutStays
    w_ z (execFwDataRx s) := by
  unfold execFwDataRx
  repeat' (first
    | with_reducible assumption
    | with_reducible exact Has.sub hw (by decide)
    | with_reducible exact Has.mem hw (by decide)
    | intro _
    | with_reducible apply OutStays.ite
    | with_reducible apply Stays.ite
    | with_reducible exact OptQStays.none _
    | with_reducible apply OptQStays.some
    | with_reducible apply OutStays.next
    | with_reducible apply State.fetched_stays
    | with_reducible apply State.fwReq_stays
    | with_reducible apply State.mgTake_stays
    | with_reducible apply State.setFetch_stays
    | (extract_lets)
    | split
    | (with_reducible refine OptQStays.eq (by assumption) ?_))

theorem execFwReqRx_stays {w_ : List Part} {z s : State} (hw : Has [.ctrs, .rte, .sch, .mgt] w_) (hk : Stays w_ z s) : OutStays w_
    z (execFwReqRx s) := by
  unfold execFwReqRx
  repeat' (first
    | with_reducible assumption
    | with_reducible exact Has.sub hw (by decide)
    | with_reducible exact Has.mem hw (by decide)
    | intro _
    | with_reducible apply OutStays.ite
    | with_reducible apply Stays.ite
    | with_reducible exact OptQStays.none _
    | with_reducible apply OptQStays.some
    | with_reducible apply OutStays.next
    | with_reducible apply State.bump_stays
    | with_reducible apply State.mgOut_stays
    | with_reducible apply State.mgTake_stays
    | (extract_lets)
    | split
    | (with_reducible refine OptQStays.eq (by assumption) ?_))

theorem State.setBox_stays {w_ : List Part} {z s : State} (m : Nat) (b : Mailbox) (hw : Has [.mgt] w_) (hk : Stays w_ z s) : Stays
    w_ z (State.setBox s m b) := by
  unfold State.setBox
  repeat' (first
    | with_reducible assumption
    | with_reducible exact Has.sub hw (by decide)
    | with_reducible exact Has.mem hw (by decide)
    | intro _
    | (extract_lets)
    | split
    | with_reducible apply Stays.set_mgt)

theorem State.boxSend_stays {w_ : List Part} {z s : State} (op : Nat) (d : Data) (hw : Has [.glb, .ctrs, .srcs, .banks, .rte,
    .sch, .hif, .mgt, .xlt, .out, .free] w_) (hk : Stays w_ z s) : Stays w_ z (State.boxSend s op d) := by
  unfold State.boxSend
  repeat' (first
    | with_reducible assumption
    | with_reducible exact Has.sub hw (by decide)
    | with_reducible exact Has.mem hw (by decide)
    | intro _
    | with_reducible apply Stays.ite
    | with_reducible apply State.mgSend_stays
    | (extract_lets)
    | split)

theorem State.boxDone_stays {w_ : List Part} {z s : State} (m status : Nat) (hw : Has [.regs, .mgt] w_) (hk : Stays w_ z s) :
    Stays w_ z (State.boxDone s m status) := by
  unfold State.boxDone
  repeat' (first
    | with_reducible assumption
    | with_reducible exact Has.sub hw (by decide)
    | with_reducible exact Has.mem hw (by decide)
    | intro _
    | with_reducible apply State.put_stays
    | with_reducible apply State.setBox_stays
    | (extract_lets)
    | split)

theorem State.boxStart_stays {w_ : List Part} {z s : State} (m op : Nat) (hw : Has [.glb, .regs, .ctrs, .srcs, .banks, .rte, .sch,
    .hif, .mgt, .xlt, .out, .free] w_) (hk : Stays w_ z s) : Stays w_ z (State.boxStart s m op) := by
  unfold State.boxStart
  repeat' (first
    | with_reducible assumption
    | with_reducible exact Has.sub hw (by decide)
    | with_reducible exact Has.mem hw (by decide)
    | intro _
    | with_reducible apply Stays.ite
    | with_reducible apply State.boxDone_stays
    | with_reducible apply State.boxSend_stays
    | with_reducible apply State.put_stays
    | with_reducible apply State.setBox_stays
    | (extract_lets)
    | split)

theorem execMailboxRead_stays {w_ : List Part} {z s : State} (req : Requester) (m : Nat) (hw : Has [.glb, .regs, .ctrs, .srcs,
    .banks, .rte, .sch, .hif, .mgt, .xlt, .out, .free] w_) (hk : Stays w_ z s) : OutStays w_ z (execMailboxRead req m s) := by
  unfold execMailboxRead
  repeat' (first
    | with_reducible assumption
    | with_reducible exact Has.sub hw (by decide)
    | with_reducible exact Has.mem hw (by decide)
    | intro _
    | with_reducible apply OutStays.ite
    | with_reducible apply Stays.ite
    | with_reducible apply OutStays.next
    | with_reducible apply State.boxStart_stays
    | (extract_lets)
    | split)

theorem execMailboxWrite_stays {w_ : List Part} {z s : State} (req : Requester) (m : Nat) (hw : Has [.glb, .regs, .ctrs, .srcs,
    .banks, .rte, .sch, .hif, .mgt, .xlt, .out, .free] w_) (hk : Stays w_ z s) : OutStays w_ z (execMailboxWrite req m s) := by
  unfold execMailboxWrite
  repeat' (first
    | with_reducible assumption
    | with_reducible exact Has.sub hw (by decide)
    | with_reducible exact Has.mem hw (by decide)
    | intro _
    | with_reducible apply OutStays.ite
    | with_reducible apply Stays.ite
    | with_reducible apply OutStays.next
    | with_reducible apply State.boxStart_stays
    | (extract_lets)
    | split)

theorem execMailboxMsg_stays {w_ : List Part} {z s : State} (req : Requester) (m : Nat) (hw : Has [.glb, .regs, .ctrs, .srcs,
    .banks, .rte, .sch, .hif, .mgt, .xlt, .out, .free] w_) (hk : Stays w_ z s) : OutStays w_ z (execMailboxMsg req m s) := by
  unfold execMailboxMsg
  repeat' (first
    | with_reducible assumption
    | with_reducible exact Has.sub hw (by decide)
    | with_reducible exact Has.mem hw (by decide)
    | intro _
    | with_reducible apply OutStays.ite
    | with_reducible apply Stays.ite
    | with_reducible apply OutStays.next
    | with_reducible apply State.boxStart_stays
    | (extract_lets)
    | split)

theorem execMailboxRetry_stays {w_ : List Part} {z s : State} (m : Nat) (hw : Has [.glb, .regs, .ctrs, .srcs, .banks, .rte, .sch,
    .hif, .mgt, .xlt, .out, .free] w_) (hk : Stays w_ z s) : OutStays w_ z (execMailboxRetry m s) := by
  unfold execMailboxRetry
  repeat' (first
    | with_reducible assumption
    | with_reducible exact Has.sub hw (by decide)
    | with_reducible exact Has.mem hw (by decide)
    | intro _
    | with_reducible apply OutStays.ite
    | with_reducible apply Stays.ite
    | with_reducible apply OutStays.next
    | with_reducible apply State.boxDone_stays
    | with_reducible apply State.boxSend_stays
    | with_reducible apply State.setBox_stays
    | (extract_lets)
    | split)

theorem execMgRespRx_stays {w_ : List Part} {z s : State} (hw : Has [.regs, .mgt] w_) (hk : Stays w_ z s) : OutStays w_ z
    (execMgRespRx s) := by
  unfold execMgRespRx
  repeat' (first
    | with_reducible assumption
    | with_reducible exact Has.sub hw (by decide)
    | with_reducible exact Has.mem hw (by decide)
    | intro _
    | with_reducible apply OutStays.ite
    | with_reducible apply Stays.ite
    | with_reducible apply Stays.foldl
    | with_reducible apply PStays.foldl
    | with_reducible apply QStays.foldl
    | with_reducible exact OptQStays.none _
    | with_reducible apply OptQStays.some
    | with_reducible apply OutStays.next
    | with_reducible apply State.boxDone_stays
    | with_reducible apply State.mgTake_stays
    | with_reducible apply State.setWord_stays
    | (extract_lets)
    | split
    | (with_reducible refine OptQStays.eq (by assumption) ?_))

theorem execMgMsgRx_stays {w_ : List Part} {z s : State} (hw : Has [.ltl, .mgt, .out] w_) (hk : Stays w_ z s) : OutStays w_ z
    (execMgMsgRx s) := by
  unfold execMgMsgRx
  repeat' (first
    | with_reducible assumption
    | with_reducible exact Has.sub hw (by decide)
    | with_reducible exact Has.mem hw (by decide)
    | intro _
    | with_reducible apply OutStays.ite
    | with_reducible apply Stays.ite
    | with_reducible exact OptQStays.none _
    | with_reducible apply OptQStays.some
    | with_reducible apply OutStays.next
    | with_reducible apply State.emit_stays
    | with_reducible apply State.mgTake_stays
    | (extract_lets)
    | split
    | (with_reducible refine OptQStays.eq (by assumption) ?_)
    | with_reducible apply Stays.set_ltl)

theorem State.coreReset_stays {w_ : List Part} {z s : State} (c : Nat) (hw : Has [.glb, .regs, .ctrs, .srcs, .banks, .hif, .trn,
    .lck, .mgt, .xlt, .out, .free] w_) (hk : Stays w_ z s) : Stays w_ z (State.coreReset s c) := by
  unfold State.coreReset
  repeat' (first
    | with_reducible assumption
    | with_reducible exact Has.sub hw (by decide)
    | with_reducible exact Has.mem hw (by decide)
    | intro _
    | with_reducible apply State.cellResetIdentity_stays
    | with_reducible apply State.dropCore_stays
    | with_reducible apply State.flResetIdentity_stays
    | with_reducible apply State.resetWords_stays
    | with_reducible apply State.setBox_stays
    | (extract_lets)
    | split)

theorem State.coreStart_stays {w_ : List Part} {z s : State} (c : Nat) (hw : Has [.out] w_) (hk : Stays w_ z s) : Stays w_ z
    (State.coreStart s c) := by
  unfold State.coreStart
  repeat' (first
    | with_reducible assumption
    | with_reducible exact Has.sub hw (by decide)
    | with_reducible exact Has.mem hw (by decide)
    | intro _
    | with_reducible apply State.emit_stays
    | (extract_lets)
    | split)

theorem State.mcCtrlWrite_stays {w_ : List Part} {z s : State} (req : Requester) (run : Nat) (hw : Has [.glb, .regs, .ctrs, .srcs,
    .banks, .hif, .trn, .lck, .mgt, .xlt, .out, .free] w_) (hk : Stays w_ z s) : Stays w_ z (State.mcCtrlWrite s req run) := by
  unfold State.mcCtrlWrite
  repeat' (first
    | with_reducible assumption
    | with_reducible exact Has.sub hw (by decide)
    | with_reducible exact Has.mem hw (by decide)
    | intro _
    | with_reducible apply Stays.ite
    | with_reducible apply Stays.foldl
    | with_reducible apply PStays.foldl
    | with_reducible apply QStays.foldl
    | with_reducible apply PStays.fst
    | with_reducible apply State.coreReset_stays
    | with_reducible apply State.coreStart_stays
    | with_reducible apply State.put_stays
    | (extract_lets)
    | split
    | with_reducible apply PStays.pair
    | (with_reducible refine PStays.eq (by assumption) ?_))

theorem execMcStart_stays {w_ : List Part} {z s : State} (req : Requester) (core : Nat) (hw : Has [.glb, .regs, .ctrs, .srcs,
    .banks, .hif, .trn, .lck, .mgt, .xlt, .out, .free] w_) (hk : Stays w_ z s) : OutStays w_ z (execMcStart req core s) := by
  unfold execMcStart
  repeat' (first
    | with_reducible assumption
    | with_reducible exact Has.sub hw (by decide)
    | with_reducible exact Has.mem hw (by decide)
    | intro _
    | with_reducible apply OutStays.ite
    | with_reducible apply Stays.ite
    | with_reducible apply OutStays.next
    | with_reducible apply State.mcCtrlWrite_stays
    | (extract_lets)
    | split)

theorem execMcReset_stays {w_ : List Part} {z s : State} (req : Requester) (core : Nat) (hw : Has [.glb, .regs, .ctrs, .srcs,
    .banks, .hif, .trn, .lck, .mgt, .xlt, .out, .free] w_) (hk : Stays w_ z s) : OutStays w_ z (execMcReset req core s) := by
  unfold execMcReset
  repeat' (first
    | with_reducible assumption
    | with_reducible exact Has.sub hw (by decide)
    | with_reducible exact Has.mem hw (by decide)
    | intro _
    | with_reducible apply OutStays.ite
    | with_reducible apply Stays.ite
    | with_reducible apply OutStays.next
    | with_reducible apply State.mcCtrlWrite_stays
    | (extract_lets)
    | split)

theorem execMcException_stays {w_ : List Part} {z s : State} (core : Nat) (hw : Has [.glb, .regs, .ctrs, .srcs, .banks, .hif,
    .trn, .lck, .mgt, .xlt, .out, .free] w_) (hk : Stays w_ z s) : OutStays w_ z (execMcException core s) := by
  unfold execMcException
  repeat' (first
    | with_reducible assumption
    | with_reducible exact Has.sub hw (by decide)
    | with_reducible exact Has.mem hw (by decide)
    | intro _
    | with_reducible apply OutStays.ite
    | with_reducible apply Stays.ite
    | with_reducible apply OutStays.next
    | with_reducible apply State.coreReset_stays
    | with_reducible apply State.coreStart_stays
    | with_reducible apply State.raise_stays
    | (extract_lets)
    | split)

end Sys2Proof.Machine
end

