-- ==== Sys2Proof/Laws/StaysWork.lean ====
section
/-! SUPPORT. Laws/Stays.lean, for the operations of Machine/Work.lean. -/
namespace Sys2Proof.Machine

theorem State.takeEntries_stays {w_ : List Part} {z s : State} (q : Nat) (v : Sq) (first : RingCtr) (n : Nat) (d : Data) (hw : Has
    [.ctrs, .hif] w_) (hk : Stays w_ z s) : Stays w_ z (State.takeEntries s q v first n d) := by
  unfold State.takeEntries
  repeat' (first
    | with_reducible assumption
    | with_reducible exact Has.sub hw (by decide)
    | with_reducible exact Has.mem hw (by decide)
    | intro _
    | with_reducible apply State.bumpBy_stays
    | with_reducible apply State.setSq_stays
    | (extract_lets)
    | split)

theorem State.failUnread_stays {w_ : List Part} {z s : State} (q : Nat) (v : Sq) (first : RingCtr) (r : Res) (hw : Has [.hif,
    .free] w_) (hk : Stays w_ z s) : Stays w_ z (State.failUnread s q v first r) := by
  unfold State.failUnread
  repeat' (first
    | with_reducible assumption
    | with_reducible exact Has.sub hw (by decide)
    | with_reducible exact Has.mem hw (by decide)
    | intro _
    | with_reducible apply QStays.snd
    | with_reducible apply State.draw_staysQ
    | with_reducible apply State.draw_stays
    | with_reducible apply State.setSq_stays
    | (extract_lets)
    | split
    | with_reducible apply QStays.pair
    | (with_reducible refine QStays.eq (by assumption) ?_))

theorem State.failEntries_stays {w_ : List Part} {z s : State} (q : Nat) (v : Sq) (first : RingCtr) (cause : Nat) (hw : Has [.hif,
    .free] w_) (hk : Stays w_ z s) : Stays w_ z (State.failEntries s q v first cause) := by
  unfold State.failEntries
  repeat' (first
    | with_reducible assumption
    | with_reducible exact Has.sub hw (by decide)
    | with_reducible exact Has.mem hw (by decide)
    | intro _
    | with_reducible apply State.failUnread_stays
    | (extract_lets)
    | split)

theorem execDescriptorReadReturn_stays {w_ : List Part} {z s : State} (q : Nat) (r : ReadResult) (hw : Has [.glb, .ctrs, .srcs,
    .banks, .hif, .out, .free] w_) (hk : Stays w_ z s) : OutStays w_ z (execDescriptorReadReturn q r s) := by
  unfold execDescriptorReadReturn
  repeat' (first
    | with_reducible assumption
    | with_reducible exact Has.sub hw (by decide)
    | with_reducible exact Has.mem hw (by decide)
    | intro _
    | with_reducible apply OutStays.ite
    | with_reducible apply Stays.ite
    | with_reducible apply OutStays.next
    | with_reducible apply State.failEntries_stays
    | with_reducible apply State.raise_stays
    | with_reducible apply State.takeEntries_stays
    | (extract_lets)
    | split)

theorem execNop_stays {w_ : List Part} {z s : State} (q : Nat) (hw : Has [.hif] w_) (hk : Stays w_ z s) : OutStays w_ z (execNop q
    s) := by
  unfold execNop
  repeat' (first
    | with_reducible assumption
    | with_reducible exact Has.sub hw (by decide)
    | with_reducible exact Has.mem hw (by decide)
    | intro _
    | with_reducible apply OutStays.next
    | with_reducible apply State.finishEntry_stays
    | (extract_lets)
    | split)

end Sys2Proof.Machine
end

