-- ==== Sys2Proof/Laws/StaysFaults.lean ====
section
/-! SUPPORT. Laws/Stays.lean, for the operations of Machine/Faults.lean. -/
namespace Sys2Proof.Machine

theorem State.clearStatus_stays {w_ : List Part} {z s : State} (code l : Nat) (hw : Has [.srcs, .banks] w_) (hk : Stays w_ z s) :
    Stays w_ z (State.clearStatus s code l) := by
  unfold State.clearStatus
  repeat' (first
    | with_reducible assumption
    | with_reducible exact Has.sub hw (by decide)
    | with_reducible exact Has.mem hw (by decide)
    | intro _
    | with_reducible apply Stays.ite
    | with_reducible apply State.setBank_stays
    | with_reducible apply State.setSrc_stays
    | (extract_lets)
    | split)

theorem State.statusWrite_stays {w_ : List Part} {z s : State} (code k v : Nat) (hw : Has [.srcs, .banks] w_) (hk : Stays w_ z s)
    : Stays w_ z (State.statusWrite s code k v) := by
  unfold State.statusWrite
  repeat' (first
    | with_reducible assumption
    | with_reducible exact Has.sub hw (by decide)
    | with_reducible exact Has.mem hw (by decide)
    | intro _
    | with_reducible apply Stays.foldl
    | with_reducible apply PStays.foldl
    | with_reducible apply QStays.foldl
    | with_reducible apply State.clearStatus_stays
    | (extract_lets)
    | split)

theorem State.sqForced_stays {w_ : List Part} {z s : State} (q code : Nat) (hw : Has [.regs, .hif] w_) (hk : Stays w_ z s) : Stays
    w_ z (State.sqForced s q code) := by
  unfold State.sqForced
  repeat' (first
    | with_reducible assumption
    | with_reducible exact Has.sub hw (by decide)
    | with_reducible exact Has.mem hw (by decide)
    | intro _
    | with_reducible apply Stays.ite
    | with_reducible apply State.fetched_stays
    | with_reducible apply State.onSq_stays
    | (extract_lets)
    | split)

theorem State.someCtx_stays {w_ : List Part} {z s : State} (region : Nat) (hw : Has [.free] w_) (hk : Stays w_ z s) : QStays w_ z
    (State.someCtx s region) := by
  unfold State.someCtx
  repeat' (first
    | with_reducible assumption
    | with_reducible exact Has.sub hw (by decide)
    | with_reducible exact Has.mem hw (by decide)
    | intro _
    | with_reducible apply QStays.ite
    | with_reducible apply Stays.ite
    | with_reducible apply QStays.snd
    | with_reducible apply State.draw_staysQ
    | with_reducible apply State.draw_stays
    | (extract_lets)
    | split
    | with_reducible apply QStays.pair
    | (with_reducible refine QStays.eq (by assumption) ?_))

theorem State.forcedOn_stays {w_ : List Part} {z s : State} (code l obj : Nat) (hw : Has [.glb, .crs, .regs, .ctrs, .srcs, .banks,
    .phy, .lnk, .rte, .sch, .hif, .trn, .mch, .rma, .lck, .brg, .col, .ltl, .bst, .mgt, .xlt, .out, .free] w_) (hk : Stays w_ z s)
    : OptStays w_ z (State.forcedOn s code l obj) := by
  unfold State.forcedOn
  repeat' (first
    | with_reducible assumption
    | with_reducible exact Has.sub hw (by decide)
    | with_reducible exact Has.mem hw (by decide)
    | intro _
    | with_reducible apply OptStays.ite
    | with_reducible apply Stays.ite
    | with_reducible apply Stays.foldl
    | with_reducible apply PStays.foldl
    | with_reducible apply QStays.foldl
    | with_reducible apply PStays.fst
    | with_reducible apply QStays.snd
    | with_reducible apply State.draw_staysQ
    | with_reducible exact OptStays.none _
    | with_reducible apply OptStays.some
    | with_reducible apply State.applyMasks_stays
    | with_reducible apply State.beginAttempt_stays
    | with_reducible apply State.bump_stays
    | with_reducible apply State.bumpIf_stays
    | with_reducible apply State.cancelPosted_stays
    | with_reducible apply State.coreReset_stays
    | with_reducible apply State.coreStart_stays
    | with_reducible apply State.ctxErrow_stays
    | with_reducible apply State.ctxFail_stays
    | with_reducible apply State.draw_stays
    | with_reducible apply State.dropLane_stays
    | with_reducible apply State.dropOvew_stays
    | with_reducible apply State.exhaustForced_stays
    | with_reducible apply State.failEntries_stays
    | with_reducible apply State.failUnread_stays
    | with_reducible apply State.fetched_stays
    | with_reducible apply State.finishEntry_stays
    | with_reducible apply State.finishOp_stays
    | with_reducible apply State.flFinish_stays
    | with_reducible apply State.frame_stays
    | with_reducible apply State.linkDown_stays
    | with_reducible apply State.onCtx_stays
    | with_reducible apply State.onRma_stays
    | with_reducible apply State.onSq_stays
    | with_reducible apply State.pfKill_stays
    | with_reducible apply State.pllQuiet_stays
    | with_reducible apply State.put_stays
    | with_reducible apply State.recordBad_stays
    | with_reducible apply State.saveLost_stays
    | with_reducible apply State.sendFrames_stays
    | with_reducible apply State.setCell_stays
    | with_reducible apply State.setCq_stays
    | with_reducible apply State.setLn_stays
    | with_reducible apply State.setMetew_stays
    | with_reducible apply State.setPosted_stays
    | with_reducible apply State.setPp_stays
    | with_reducible apply State.setRec_stays
    | with_reducible apply State.setShapew_stays
    | with_reducible apply State.setXu_stays
    | with_reducible apply State.someCtx_stays
    | with_reducible apply State.sqErrow_stays
    | with_reducible apply State.sqForced_stays
    | with_reducible apply State.treeErrow_stays
    | with_reducible apply State.treeFail_stays
    | (extract_lets)
    | split
    | with_reducible apply PStays.pair
    | with_reducible apply QStays.pair
    | (with_reducible refine PStays.eq (by assumption) ?_)
    | (with_reducible refine QStays.eq (by assumption) ?_)
    | (with_reducible refine OptStays.eq (by assumption) ?_)
    | with_reducible apply Stays.set_col
    | with_reducible apply Stays.set_ltl
    | with_reducible apply Stays.set_sch
    | with_reducible apply Stays.set_trn
    | with_reducible apply Stays.set_sch_trn_col_ltl)

theorem State.forcedEvent_stays {w_ : List Part} {z s : State} (code l : Nat) (hw : Has [.glb, .crs, .regs, .ctrs, .srcs, .banks,
    .phy, .lnk, .rte, .sch, .hif, .trn, .mch, .rma, .lck, .brg, .col, .ltl, .bst, .mgt, .xlt, .out, .free] w_) (hk : Stays w_ z s)
    : Stays w_ z (State.forcedEvent s code l) := by
  unfold State.forcedEvent
  repeat' (first
    | with_reducible assumption
    | with_reducible exact Has.sub hw (by decide)
    | with_reducible exact Has.mem hw (by decide)
    | intro _
    | with_reducible apply Stays.ite
    | with_reducible exact OptStays.none _
    | with_reducible apply OptStays.some
    | with_reducible apply State.forcedOn_stays
    | with_reducible apply State.latch_stays
    | with_reducible apply State.mergeEvent_stays
    | with_reducible apply State.miss_stays
    | with_reducible apply State.setBank_stays
    | with_reducible apply State.setSrc_stays
    | (extract_lets)
    | split
    | (with_reducible refine OptStays.eq (by assumption) ?_))

theorem State.forceBit_stays {w_ : List Part} {z s : State} (code l : Nat) (v : Bool) (hw : Has [.glb, .crs, .regs, .ctrs, .srcs,
    .banks, .phy, .lnk, .rte, .sch, .hif, .trn, .mch, .rma, .lck, .brg, .col, .ltl, .bst, .mgt, .xlt, .out, .free] w_) (hk : Stays
    w_ z s) : Stays w_ z (State.forceBit s code l v) := by
  unfold State.forceBit
  repeat' (first
    | with_reducible assumption
    | with_reducible exact Has.sub hw (by decide)
    | with_reducible exact Has.mem hw (by decide)
    | intro _
    | with_reducible apply Stays.ite
    | with_reducible apply State.forcedEvent_stays
    | with_reducible apply State.pllFree_stays
    | with_reducible apply State.setSrc_stays
    | (extract_lets)
    | split)

theorem State.forceWrite_stays {w_ : List Part} {z s : State} (code k v : Nat) (hw : Has [.glb, .crs, .regs, .ctrs, .srcs, .banks,
    .phy, .lnk, .rte, .sch, .hif, .trn, .mch, .rma, .lck, .brg, .col, .ltl, .bst, .mgt, .xlt, .out, .free] w_) (hk : Stays w_ z s)
    : Stays w_ z (State.forceWrite s code k v) := by
  unfold State.forceWrite
  repeat' (first
    | with_reducible assumption
    | with_reducible exact Has.sub hw (by decide)
    | with_reducible exact Has.mem hw (by decide)
    | intro _
    | with_reducible apply Stays.foldl
    | with_reducible apply PStays.foldl
    | with_reducible apply QStays.foldl
    | with_reducible apply State.forceBit_stays
    | (extract_lets)
    | split)

theorem State.forceTick_stays {w_ : List Part} {z s : State} (hw : Has [.glb, .crs, .regs, .ctrs, .srcs, .banks, .phy, .lnk, .rte,
    .sch, .hif, .trn, .mch, .rma, .lck, .brg, .col, .ltl, .bst, .mgt, .xlt, .out, .free] w_) (hk : Stays w_ z s) : Stays w_ z
    (State.forceTick s) := by
  unfold State.forceTick
  repeat' (first
    | with_reducible assumption
    | with_reducible exact Has.sub hw (by decide)
    | with_reducible exact Has.mem hw (by decide)
    | intro _
    | with_reducible apply Stays.foldl
    | with_reducible apply PStays.foldl
    | with_reducible apply QStays.foldl
    | with_reducible apply PStays.fst
    | with_reducible apply QStays.snd
    | with_reducible apply State.draw_staysQ
    | with_reducible apply State.forcedEvent_stays
    | with_reducible apply State.setSrc_stays
    | (extract_lets)
    | split
    | with_reducible apply PStays.pair
    | with_reducible apply QStays.pair
    | (with_reducible refine PStays.eq (by assumption) ?_)
    | (with_reducible refine QStays.eq (by assumption) ?_))

theorem State.injectWrite_stays {w_ : List Part} {z s : State} (code v : Nat) (hw : Has [.srcs, .banks, .xlt] w_) (hk : Stays w_ z
    s) : Stays w_ z (State.injectWrite s code v) := by
  unfold State.injectWrite
  repeat' (first
    | with_reducible assumption
    | with_reducible exact Has.sub hw (by decide)
    | with_reducible exact Has.mem hw (by decide)
    | intro _
    | with_reducible apply Stays.ite
    | with_reducible apply Stays.foldl
    | with_reducible apply PStays.foldl
    | with_reducible apply QStays.foldl
    | with_reducible apply State.miss_stays
    | with_reducible apply State.setBank_stays
    | with_reducible apply State.setSrc_stays
    | (extract_lets)
    | split)

theorem State.forcedNext_stays {w_ : List Part} {z s : State} (code l obj : Nat) (hw : Has [.glb, .ctrs, .srcs, .banks, .hif,
    .trn, .mch, .rma, .xlt, .out, .free] w_) (hk : Stays w_ z s) : OptStays w_ z (State.forcedNext s code l obj) := by
  unfold State.forcedNext
  repeat' (first
    | with_reducible assumption
    | with_reducible exact Has.sub hw (by decide)
    | with_reducible exact Has.mem hw (by decide)
    | intro _
    | with_reducible apply OptStays.ite
    | with_reducible apply Stays.ite
    | with_reducible apply QStays.snd
    | with_reducible apply State.draw_staysQ
    | with_reducible exact OptStays.none _
    | with_reducible apply OptStays.some
    | with_reducible apply State.completeRecv_stays
    | with_reducible apply State.draw_stays
    | with_reducible apply State.endAtomic_stays
    | with_reducible apply State.finishOp_stays
    | with_reducible apply State.freeHdw_stays
    | with_reducible apply State.onMch_stays
    | with_reducible apply State.onRma_stays
    | with_reducible apply State.rmaFail_stays
    | with_reducible apply State.setOp_stays
    | with_reducible apply State.unland_stays
    | with_reducible apply State.walkBad_stays
    | (extract_lets)
    | split
    | with_reducible apply QStays.pair
    | (with_reducible refine QStays.eq (by assumption) ?_)
    | (with_reducible refine OptStays.eq (by assumption) ?_))

theorem execForcedConsequence_stays {w_ : List Part} {z s : State} (g obj : Nat) (hw : Has [.glb, .regs, .ctrs, .srcs, .banks,
    .lnk, .rte, .sch, .hif, .trn, .mch, .rma, .lck, .brg, .col, .xlt, .out, .free] w_) (hk : Stays w_ z s) : OutStays w_ z
    (execForcedConsequence g obj s) := by
  unfold execForcedConsequence
  repeat' (first
    | with_reducible assumption
    | with_reducible exact Has.sub hw (by decide)
    | with_reducible exact Has.mem hw (by decide)
    | intro _
    | with_reducible apply OutStays.ite
    | with_reducible apply Stays.ite
    | with_reducible exact OptStays.none _
    | with_reducible apply OptStays.some
    | with_reducible apply OutStays.next
    | with_reducible apply State.forcedNext_stays
    | with_reducible apply State.setSrc_stays
    | with_reducible apply State.settle_stays
    | (extract_lets)
    | split
    | (with_reducible refine OptStays.eq (by assumption) ?_))

theorem State.bankWrite_stays {w_ : List Part} {z s : State} (code o v : Nat) (hw : Has [.glb, .crs, .regs, .ctrs, .srcs, .banks,
    .phy, .lnk, .rte, .sch, .hif, .trn, .mch, .rma, .lck, .brg, .col, .ltl, .bst, .mgt, .xlt, .out, .free] w_) (hk : Stays w_ z s)
    : Stays w_ z (State.bankWrite s code o v) := by
  unfold State.bankWrite
  repeat' (first
    | with_reducible assumption
    | with_reducible exact Has.sub hw (by decide)
    | with_reducible exact Has.mem hw (by decide)
    | intro _
    | with_reducible apply Stays.ite
    | with_reducible apply Stays.foldl
    | with_reducible apply PStays.foldl
    | with_reducible apply QStays.foldl
    | with_reducible apply State.forceWrite_stays
    | with_reducible apply State.injectWrite_stays
    | with_reducible apply State.setBank_stays
    | with_reducible apply State.setSrc_stays
    | with_reducible apply State.statusWrite_stays
    | (extract_lets)
    | split)

end Sys2Proof.Machine
end

