-- ==== Sys2Proof/Laws/StaysReadback.lean ====
section
/-! SUPPORT. Laws/Stays.lean, for the operations of Machine/Readback.lean. -/
namespace Sys2Proof.Machine

theorem State.rbStore_stays {w_ : List Part} {z s : State} (off : Nat) (d : Data) (hw : Has [.regs] w_) (hk : Stays w_ z s) :
    Stays w_ z (State.rbStore s off d) := by
  unfold State.rbStore
  repeat' (first
    | with_reducible assumption
    | with_reducible exact Has.sub hw (by decide)
    | with_reducible exact Has.mem hw (by decide)
    | intro _
    | with_reducible apply Stays.foldl
    | with_reducible apply PStays.foldl
    | with_reducible apply QStays.foldl
    | with_reducible apply State.setWord_stays
    | (extract_lets)
    | split)

theorem State.rbPut_stays {w_ : List Part} {z s : State} (b r i : Nat) (row : RbRow) (hw : Has [.regs] w_) (hk : Stays w_ z s) :
    Stays w_ z (State.rbPut s b r i row) := by
  unfold State.rbPut
  repeat' (first
    | with_reducible assumption
    | with_reducible exact Has.sub hw (by decide)
    | with_reducible exact Has.mem hw (by decide)
    | intro _
    | with_reducible apply Stays.ite
    | with_reducible apply State.rbStore_stays
    | (extract_lets)
    | split)

theorem State.captureRows_stays {w_ : List Part} {z s : State} (b v : Nat) (hw : Has [.regs, .mgt, .free] w_) (hk : Stays w_ z s)
    : Stays w_ z (State.captureRows s b v) := by
  unfold State.captureRows
  repeat' (first
    | with_reducible assumption
    | with_reducible exact Has.sub hw (by decide)
    | with_reducible exact Has.mem hw (by decide)
    | intro _
    | with_reducible apply Stays.foldl
    | with_reducible apply PStays.foldl
    | with_reducible apply QStays.foldl
    | with_reducible apply PStays.fst
    | with_reducible apply QStays.snd
    | with_reducible apply State.draw_staysQ
    | with_reducible apply State.draw_stays
    | with_reducible apply State.put_stays
    | with_reducible apply State.rbPut_stays
    | (extract_lets)
    | split
    | with_reducible apply PStays.pair
    | with_reducible apply QStays.pair
    | (with_reducible refine PStays.eq (by assumption) ?_)
    | (with_reducible refine QStays.eq (by assumption) ?_)
    | with_reducible apply Stays.set_mgt)

theorem State.capture_stays {w_ : List Part} {z s : State} (b v : Nat) (hw : Has [.glb, .regs, .ctrs, .srcs, .banks, .hif, .mgt,
    .out, .free] w_) (hk : Stays w_ z s) : Stays w_ z (State.capture s b v) := by
  unfold State.capture
  repeat' (first
    | with_reducible assumption
    | with_reducible exact Has.sub hw (by decide)
    | with_reducible exact Has.mem hw (by decide)
    | intro _
    | with_reducible apply Stays.ite
    | with_reducible apply State.badAccess_stays
    | with_reducible apply State.captureRows_stays
    | (extract_lets)
    | split)

end Sys2Proof.Machine
end

