-- ==== Sys2Proof/Laws/StaysFnCmd.lean ====
section
/-! SUPPORT. Laws/Stays.lean, for the operations of Machine/FnCmd.lean. -/
namespace Sys2Proof.Machine

theorem State.fnDone_stays {w_ : List Part} {z s : State} (f status detail : Nat) (hw : Has [.hif] w_) (hk : Stays w_ z s) : Stays
    w_ z (State.fnDone s f status detail) := by
  unfold State.fnDone
  repeat' (first
    | with_reducible assumption
    | with_reducible exact Has.sub hw (by decide)
    | with_reducible exact Has.mem hw (by decide)
    | intro _
    | with_reducible apply State.setFn_stays
    | (extract_lets)
    | split)

theorem State.fnWrite_stays {w_ : List Part} {z s : State} (f op : Nat) (run : State → State) (h_run : ∀ u0, Stays w_ z u0 → Stays
    w_ z (run u0)) (hw : Has [.hif] w_) (hk : Stays w_ z s) : Stays w_ z (State.fnWrite s f op run) := by
  unfold State.fnWrite
  repeat' (first
    | with_reducible assumption
    | with_reducible exact Has.sub hw (by decide)
    | with_reducible exact Has.mem hw (by decide)
    | intro _
    | with_reducible apply Stays.ite
    | with_reducible apply State.setFn_stays
    | with_reducible apply h_run
    | (extract_lets)
    | split)

theorem State.fnAct_stays {w_ : List Part} {z s : State} (f : Nat) (check : Option Nat) (act : State → State) (h_act : ∀ u0, Stays
    w_ z u0 → Stays w_ z (act u0)) (hw : Has [.hif] w_) (hk : Stays w_ z s) : Stays w_ z (State.fnAct s f check act) := by
  unfold State.fnAct
  repeat' (first
    | with_reducible assumption
    | with_reducible exact Has.sub hw (by decide)
    | with_reducible exact Has.mem hw (by decide)
    | intro _
    | with_reducible apply State.fnDone_stays
    | with_reducible apply h_act
    | (extract_lets)
    | split)

theorem State.epCreate_stays {w_ : List Part} {z s : State} (f : Nat) (hw : Has [.hif] w_) (hk : Stays w_ z s) : Stays w_ z
    (State.epCreate s f) := by
  unfold State.epCreate
  repeat' (first
    | with_reducible assumption
    | with_reducible exact Has.sub hw (by decide)
    | with_reducible exact Has.mem hw (by decide)
    | intro _
    | with_reducible apply State.fnAct_stays
    | with_reducible apply State.setEp_stays
    | (extract_lets)
    | split)

theorem execEpCreate_stays {w_ : List Part} {z s : State} (f : Nat) (hw : Has [.hif] w_) (hk : Stays w_ z s) : OutStays w_ z
    (execEpCreate f s) := by
  unfold execEpCreate
  repeat' (first
    | with_reducible assumption
    | with_reducible exact Has.sub hw (by decide)
    | with_reducible exact Has.mem hw (by decide)
    | intro _
    | with_reducible apply OutStays.next
    | with_reducible apply State.epCreate_stays
    | with_reducible apply State.fnWrite_stays
    | (extract_lets)
    | split)

theorem State.cancelReceives_stays {w_ : List Part} {z s : State} (e : Nat) (hw : Has [.glb, .ctrs, .srcs, .banks, .hif, .mch,
    .out, .free] w_) (hk : Stays w_ z s) : Stays w_ z (State.cancelReceives s e) := by
  unfold State.cancelReceives
  repeat' (first
    | with_reducible assumption
    | with_reducible exact Has.sub hw (by decide)
    | with_reducible exact Has.mem hw (by decide)
    | intro _
    | with_reducible apply Stays.foldl
    | with_reducible apply PStays.foldl
    | with_reducible apply QStays.foldl
    | with_reducible apply State.cancelPosted_stays
    | with_reducible apply State.dropOvew_stays
    | with_reducible apply State.endWalk_stays
    | with_reducible apply State.setOvew_stays
    | with_reducible apply State.setPosted_stays
    | (extract_lets)
    | split)

theorem State.teardownHdw_stays {w_ : List Part} {z s : State} (i : Nat) (h : MHdr) (hw : Has [.glb, .ctrs, .srcs, .banks, .lnk,
    .rte, .sch, .hif, .trn, .mch, .out, .free] w_) (hk : Stays w_ z s) : Stays w_ z (State.teardownHdr s i h) := by
  unfold State.teardownHdr
  repeat' (first
    | with_reducible assumption
    | with_reducible exact Has.sub hw (by decide)
    | with_reducible exact Has.mem hw (by decide)
    | intro _
    | with_reducible apply Stays.ite
    | with_reducible apply State.completeRecv_stays
    | with_reducible apply State.freeHdw_stays
    | with_reducible apply State.sendRvGet_stays
    | with_reducible apply State.unland_stays
    | (extract_lets)
    | split)

theorem State.returnLandings_stays {w_ : List Part} {z s : State} (e : Nat) (hw : Has [.glb, .ctrs, .srcs, .banks, .hif, .mch,
    .out, .free] w_) (hk : Stays w_ z s) : Stays w_ z (State.returnLandings s e) := by
  unfold State.returnLandings
  repeat' (first
    | with_reducible assumption
    | with_reducible exact Has.sub hw (by decide)
    | with_reducible exact Has.mem hw (by decide)
    | intro _
    | with_reducible apply Stays.foldl
    | with_reducible apply PStays.foldl
    | with_reducible apply QStays.foldl
    | with_reducible apply PStays.fst
    | with_reducible apply QStays.snd
    | with_reducible apply State.draw_staysQ
    | with_reducible apply State.onMch_stays
    | with_reducible apply State.returnLanding_stays
    | (extract_lets)
    | split
    | with_reducible apply PStays.pair
    | with_reducible apply QStays.pair
    | (with_reducible refine PStays.eq (by assumption) ?_)
    | (with_reducible refine QStays.eq (by assumption) ?_))

theorem State.dropOrders_stays {w_ : List Part} {z s : State} (e : Nat) (hw : Has [.mch] w_) (hk : Stays w_ z s) : Stays w_ z
    (State.dropOrders s e) := by
  unfold State.dropOrders
  repeat' (first
    | with_reducible assumption
    | with_reducible exact Has.sub hw (by decide)
    | with_reducible exact Has.mem hw (by decide)
    | intro _
    | with_reducible apply State.onMch_stays
    | (extract_lets)
    | split)

theorem State.teardown_stays {w_ : List Part} {z s : State} (e : Nat) (hw : Has [.glb, .ctrs, .srcs, .banks, .lnk, .rte, .sch,
    .hif, .trn, .mch, .out, .free] w_) (hk : Stays w_ z s) : Stays w_ z (State.teardown s e) := by
  unfold State.teardown
  repeat' (first
    | with_reducible assumption
    | with_reducible exact Has.sub hw (by decide)
    | with_reducible exact Has.mem hw (by decide)
    | intro _
    | with_reducible apply Stays.foldl
    | with_reducible apply PStays.foldl
    | with_reducible apply QStays.foldl
    | with_reducible apply PStays.fst
    | with_reducible apply QStays.snd
    | with_reducible apply State.draw_staysQ
    | with_reducible apply State.cancelReceives_stays
    | with_reducible apply State.dropOrders_stays
    | with_reducible apply State.returnLandings_stays
    | with_reducible apply State.teardownHdw_stays
    | (extract_lets)
    | split
    | with_reducible apply PStays.pair
    | with_reducible apply QStays.pair
    | (with_reducible refine PStays.eq (by assumption) ?_)
    | (with_reducible refine QStays.eq (by assumption) ?_))

theorem State.epDestroy_stays {w_ : List Part} {z s : State} (f : Nat) (hw : Has [.glb, .ctrs, .srcs, .banks, .lnk, .rte, .sch,
    .hif, .trn, .mch, .col, .out, .free] w_) (hk : Stays w_ z s) : Stays w_ z (State.epDestroy s f) := by
  unfold State.epDestroy
  repeat' (first
    | with_reducible assumption
    | with_reducible exact Has.sub hw (by decide)
    | with_reducible exact Has.mem hw (by decide)
    | intro _
    | with_reducible apply State.colLeaveAll_stays
    | with_reducible apply State.fnDone_stays
    | with_reducible apply State.setEp_stays
    | with_reducible apply State.teardown_stays
    | (extract_lets)
    | split)

theorem execEpDestroy_stays {w_ : List Part} {z s : State} (f : Nat) (hw : Has [.glb, .ctrs, .srcs, .banks, .lnk, .rte, .sch,
    .hif, .trn, .mch, .col, .out, .free] w_) (hk : Stays w_ z s) : OutStays w_ z (execEpDestroy f s) := by
  unfold execEpDestroy
  repeat' (first
    | with_reducible assumption
    | with_reducible exact Has.sub hw (by decide)
    | with_reducible exact Has.mem hw (by decide)
    | intro _
    | with_reducible apply OutStays.next
    | with_reducible apply State.epDestroy_stays
    | with_reducible apply State.fnWrite_stays
    | (extract_lets)
    | split)

theorem State.removeEp_stays {w_ : List Part} {z s : State} (e : Nat) (hw : Has [.hif, .trn, .mch] w_) (hk : Stays w_ z s) : Stays
    w_ z (State.removeEp s e) := by
  unfold State.removeEp
  repeat' (first
    | with_reducible assumption
    | with_reducible exact Has.sub hw (by decide)
    | with_reducible exact Has.mem hw (by decide)
    | intro _
    | with_reducible apply Stays.ite
    | (extract_lets)
    | split
    | with_reducible apply Stays.set_hif_trn_mch)

theorem execEpDestroyComplete_stays {w_ : List Part} {z s : State} (f : Nat) (hw : Has [.glb, .ctrs, .srcs, .banks, .lnk, .rte,
    .sch, .hif, .trn, .mch, .out, .free] w_) (hk : Stays w_ z s) : OutStays w_ z (execEpDestroyComplete f s) := by
  unfold execEpDestroyComplete
  repeat' (first
    | with_reducible assumption
    | with_reducible exact Has.sub hw (by decide)
    | with_reducible exact Has.mem hw (by decide)
    | intro _
    | with_reducible apply OutStays.ite
    | with_reducible apply Stays.ite
    | with_reducible apply OutStays.next
    | with_reducible apply State.fnDone_stays
    | with_reducible apply State.removeEp_stays
    | with_reducible apply State.teardown_stays
    | (extract_lets)
    | split)

theorem execEpQuarantineEnd_stays {w_ : List Part} {z s : State} (e : Nat) (hw : Has [.hif] w_) (hk : Stays w_ z s) : OutStays w_
    z (execEpQuarantineEnd e s) := by
  unfold execEpQuarantineEnd
  repeat' (first
    | with_reducible assumption
    | with_reducible exact Has.sub hw (by decide)
    | with_reducible exact Has.mem hw (by decide)
    | intro _
    | with_reducible apply OutStays.ite
    | with_reducible apply Stays.ite
    | with_reducible apply OutStays.next
    | (extract_lets)
    | split
    | with_reducible apply Stays.set_hif)

theorem State.sqCreate_stays {w_ : List Part} {z s : State} (f : Nat) (hw : Has [.regs, .hif] w_) (hk : Stays w_ z s) : Stays w_ z
    (State.sqCreate s f) := by
  unfold State.sqCreate
  repeat' (first
    | with_reducible assumption
    | with_reducible exact Has.sub hw (by decide)
    | with_reducible exact Has.mem hw (by decide)
    | intro _
    | with_reducible apply State.fetched_stays
    | with_reducible apply State.fnAct_stays
    | with_reducible apply State.setSq_stays
    | (extract_lets)
    | split)

theorem execSqCreate_stays {w_ : List Part} {z s : State} (f : Nat) (hw : Has [.regs, .hif] w_) (hk : Stays w_ z s) : OutStays w_
    z (execSqCreate f s) := by
  unfold execSqCreate
  repeat' (first
    | with_reducible assumption
    | with_reducible exact Has.sub hw (by decide)
    | with_reducible exact Has.mem hw (by decide)
    | intro _
    | with_reducible apply OutStays.next
    | with_reducible apply State.fnWrite_stays
    | with_reducible apply State.sqCreate_stays
    | (extract_lets)
    | split)

theorem State.sqCommand_stays {w_ : List Part} {z s : State} (f op : Nat) (state : Sq → Bool) (act : Nat → Sq → State) (h_act : ∀
    u0 u1, Stays w_ z (act u0 u1)) (hw : Has [.hif] w_) (hk : Stays w_ z s) : Stays w_ z (State.sqCommand s f op state act) := by
  unfold State.sqCommand
  repeat' (first
    | with_reducible assumption
    | with_reducible exact Has.sub hw (by decide)
    | with_reducible exact Has.mem hw (by decide)
    | intro _
    | with_reducible apply State.fnDone_stays
    | with_reducible apply h_act
    | (extract_lets)
    | split)

theorem execSqDestroy_stays {w_ : List Part} {z s : State} (f : Nat) (hw : Has [.hif] w_) (hk : Stays w_ z s) : OutStays w_ z
    (execSqDestroy f s) := by
  unfold execSqDestroy
  repeat' (first
    | with_reducible assumption
    | with_reducible exact Has.sub hw (by decide)
    | with_reducible exact Has.mem hw (by decide)
    | intro _
    | with_reducible apply OutStays.next
    | with_reducible apply State.fnWrite_stays
    | with_reducible apply State.setSq_stays
    | with_reducible apply State.sqCommand_stays
    | (extract_lets)
    | split)

theorem execSqDestroyComplete_stays {w_ : List Part} {z s : State} (f : Nat) (hw : Has [.hif] w_) (hk : Stays w_ z s) : OutStays
    w_ z (execSqDestroyComplete f s) := by
  unfold execSqDestroyComplete
  repeat' (first
    | with_reducible assumption
    | with_reducible exact Has.sub hw (by decide)
    | with_reducible exact Has.mem hw (by decide)
    | intro _
    | with_reducible apply OutStays.ite
    | with_reducible apply Stays.ite
    | with_reducible apply OutStays.next
    | with_reducible apply State.fnDone_stays
    | (extract_lets)
    | split
    | with_reducible apply Stays.set_hif)

theorem execSqRestart_stays {w_ : List Part} {z s : State} (f : Nat) (hw : Has [.regs, .hif, .xlt] w_) (hk : Stays w_ z s) :
    OutStays w_ z (execSqRestart f s) := by
  unfold execSqRestart
  repeat' (first
    | with_reducible assumption
    | with_reducible exact Has.sub hw (by decide)
    | with_reducible exact Has.mem hw (by decide)
    | intro _
    | with_reducible apply OutStays.next
    | with_reducible apply State.fetched_stays
    | with_reducible apply State.fnDone_stays
    | with_reducible apply State.fnWrite_stays
    | with_reducible apply State.setSq_stays
    | with_reducible apply State.settleXlt_stays
    | with_reducible apply State.sqCommand_stays
    | (extract_lets)
    | split)

theorem State.cqCreate_stays {w_ : List Part} {z s : State} (f : Nat) (hw : Has [.hif] w_) (hk : Stays w_ z s) : Stays w_ z
    (State.cqCreate s f) := by
  unfold State.cqCreate
  repeat' (first
    | with_reducible assumption
    | with_reducible exact Has.sub hw (by decide)
    | with_reducible exact Has.mem hw (by decide)
    | intro _
    | with_reducible apply Stays.ite
    | with_reducible apply State.fnAct_stays
    | with_reducible apply State.setCq_stays
    | (extract_lets)
    | split)

theorem execCqCreate_stays {w_ : List Part} {z s : State} (f : Nat) (hw : Has [.hif] w_) (hk : Stays w_ z s) : OutStays w_ z
    (execCqCreate f s) := by
  unfold execCqCreate
  repeat' (first
    | with_reducible assumption
    | with_reducible exact Has.sub hw (by decide)
    | with_reducible exact Has.mem hw (by decide)
    | intro _
    | with_reducible apply OutStays.next
    | with_reducible apply State.cqCreate_stays
    | with_reducible apply State.fnWrite_stays
    | (extract_lets)
    | split)

theorem execCqDestroy_stays {w_ : List Part} {z s : State} (f : Nat) (hw : Has [.hif] w_) (hk : Stays w_ z s) : OutStays w_ z
    (execCqDestroy f s) := by
  unfold execCqDestroy
  repeat' (first
    | with_reducible assumption
    | with_reducible exact Has.sub hw (by decide)
    | with_reducible exact Has.mem hw (by decide)
    | intro _
    | with_reducible apply OutStays.ite
    | with_reducible apply Stays.ite
    | with_reducible apply OutStays.next
    | with_reducible apply State.fnAct_stays
    | with_reducible apply State.fnWrite_stays
    | (extract_lets)
    | split
    | with_reducible apply Stays.set_hif)

theorem State.cqReset_stays {w_ : List Part} {z s : State} (c : Nat) (v : Cq) (start : RingCtr) (hw : Has [.glb, .ctrs, .srcs,
    .banks, .hif, .mch, .out, .free] w_) (hk : Stays w_ z s) : Stays w_ z (State.cqReset s c v start) := by
  unfold State.cqReset
  repeat' (first
    | with_reducible assumption
    | with_reducible exact Has.sub hw (by decide)
    | with_reducible exact Has.mem hw (by decide)
    | intro _
    | with_reducible apply Stays.ite
    | with_reducible apply Stays.foldl
    | with_reducible apply PStays.foldl
    | with_reducible apply QStays.foldl
    | with_reducible apply PStays.fst
    | with_reducible apply QStays.snd
    | with_reducible apply State.draw_staysQ
    | with_reducible apply State.cqDrainHeld_stays
    | with_reducible apply State.cqDrainOwed_stays
    | with_reducible apply State.cqPut_stays
    | with_reducible apply State.onSq_stays
    | with_reducible apply State.setCq_stays
    | (extract_lets)
    | split
    | with_reducible apply PStays.pair
    | with_reducible apply QStays.pair
    | (with_reducible refine PStays.eq (by assumption) ?_)
    | (with_reducible refine QStays.eq (by assumption) ?_))

theorem execCqReset_stays {w_ : List Part} {z s : State} (f : Nat) (hw : Has [.glb, .regs, .ctrs, .srcs, .banks, .lnk, .rte, .sch,
    .hif, .trn, .mch, .rma, .lck, .brg, .col, .xlt, .out, .free] w_) (hk : Stays w_ z s) : OutStays w_ z (execCqReset f s) := by
  unfold execCqReset
  repeat' (first
    | with_reducible assumption
    | with_reducible exact Has.sub hw (by decide)
    | with_reducible exact Has.mem hw (by decide)
    | intro _
    | with_reducible apply OutStays.next
    | with_reducible apply State.cqReset_stays
    | with_reducible apply State.fnAct_stays
    | with_reducible apply State.fnDone_stays
    | with_reducible apply State.fnWrite_stays
    | with_reducible apply State.settle_stays
    | (extract_lets)
    | split)

theorem execEqCreate_stays {w_ : List Part} {z s : State} (f : Nat) (hw : Has [.hif] w_) (hk : Stays w_ z s) : OutStays w_ z
    (execEqCreate f s) := by
  unfold execEqCreate
  repeat' (first
    | with_reducible assumption
    | with_reducible exact Has.sub hw (by decide)
    | with_reducible exact Has.mem hw (by decide)
    | intro _
    | with_reducible apply OutStays.next
    | with_reducible apply State.fnAct_stays
    | with_reducible apply State.fnDone_stays
    | with_reducible apply State.fnWrite_stays
    | with_reducible apply State.setEq_stays
    | (extract_lets)
    | split)

theorem execEqDestroy_stays {w_ : List Part} {z s : State} (f : Nat) (hw : Has [.hif] w_) (hk : Stays w_ z s) : OutStays w_ z
    (execEqDestroy f s) := by
  unfold execEqDestroy
  repeat' (first
    | with_reducible assumption
    | with_reducible exact Has.sub hw (by decide)
    | with_reducible exact Has.mem hw (by decide)
    | intro _
    | with_reducible apply OutStays.ite
    | with_reducible apply Stays.ite
    | with_reducible apply OutStays.next
    | with_reducible apply State.fnAct_stays
    | with_reducible apply State.fnDone_stays
    | with_reducible apply State.fnWrite_stays
    | (extract_lets)
    | split
    | with_reducible apply Stays.set_hif)

theorem execFnCmdUndefined_stays {w_ : List Part} {z s : State} (f op : Nat) (hw : Has [.hif] w_) (hk : Stays w_ z s) : OutStays
    w_ z (execFnCmdUndefined f op s) := by
  unfold execFnCmdUndefined
  repeat' (first
    | with_reducible assumption
    | with_reducible exact Has.sub hw (by decide)
    | with_reducible exact Has.mem hw (by decide)
    | intro _
    | with_reducible apply OutStays.ite
    | with_reducible apply Stays.ite
    | with_reducible apply OutStays.next
    | with_reducible apply State.fnDone_stays
    | with_reducible apply State.fnWrite_stays
    | (extract_lets)
    | split)

theorem State.fnGroups_stays {w_ : List Part} {z s : State} (req : Requester) (f v : Nat) (hw : Has [.regs, .hif] w_) (hk : Stays
    w_ z s) : Stays w_ z (State.fnGroups s req f v) := by
  unfold State.fnGroups
  repeat' (first
    | with_reducible assumption
    | with_reducible exact Has.sub hw (by decide)
    | with_reducible exact Has.mem hw (by decide)
    | intro _
    | with_reducible apply Stays.ite
    | with_reducible apply State.setFn_stays
    | with_reducible apply State.setWord_stays
    | (extract_lets)
    | split)

theorem execFnGroupsWrite_stays {w_ : List Part} {z s : State} (req : Requester) (f v : Nat) (hw : Has [.regs, .hif] w_) (hk :
    Stays w_ z s) : OutStays w_ z (execFnGroupsWrite req f v s) := by
  unfold execFnGroupsWrite
  repeat' (first
    | with_reducible assumption
    | with_reducible exact Has.sub hw (by decide)
    | with_reducible exact Has.mem hw (by decide)
    | intro _
    | with_reducible apply OutStays.next
    | with_reducible apply State.fnGroups_stays
    | (extract_lets)
    | split)

theorem State.dropMatching_stays {w_ : List Part} {z s : State} (e : Nat) (hw : Has [.mch, .free] w_) (hk : Stays w_ z s) : Stays
    w_ z (State.dropMatching s e) := by
  unfold State.dropMatching
  repeat' (first
    | with_reducible assumption
    | with_reducible exact Has.sub hw (by decide)
    | with_reducible exact Has.mem hw (by decide)
    | intro _
    | with_reducible apply Stays.foldl
    | with_reducible apply PStays.foldl
    | with_reducible apply QStays.foldl
    | with_reducible apply QStays.snd
    | with_reducible apply State.draw_staysQ
    | with_reducible apply State.dropOrders_stays
    | with_reducible apply State.endWalk_stays
    | with_reducible apply State.freeHdw_stays
    | with_reducible apply State.freeRv_stays
    | with_reducible apply State.onMch_stays
    | with_reducible apply State.setOvew_stays
    | with_reducible apply State.setPosted_stays
    | (extract_lets)
    | split
    | with_reducible apply QStays.pair
    | (with_reducible refine QStays.eq (by assumption) ?_))

theorem State.revokeAll_stays {w_ : List Part} {z s : State} (p : Nat → Bool) (hw : Has [.rma, .bst, .free] w_) (hk : Stays w_ z
    s) : Stays w_ z (State.revokeAll s p) := by
  unfold State.revokeAll
  repeat' (first
    | with_reducible assumption
    | with_reducible exact Has.sub hw (by decide)
    | with_reducible exact Has.mem hw (by decide)
    | intro _
    | with_reducible apply Stays.ite
    | with_reducible apply Stays.foldl
    | with_reducible apply PStays.foldl
    | with_reducible apply QStays.foldl
    | with_reducible apply PStays.fst
    | with_reducible apply QStays.snd
    | with_reducible apply State.draw_staysQ
    | with_reducible apply State.setKey_stays
    | with_reducible apply State.startRevoke_stays
    | (extract_lets)
    | split
    | with_reducible apply PStays.pair
    | with_reducible apply QStays.pair
    | (with_reducible refine PStays.eq (by assumption) ?_)
    | (with_reducible refine QStays.eq (by assumption) ?_))

theorem State.resetWindows_stays {w_ : List Part} {z s : State} (f : Nat) (hw : Has [.regs] w_) (hk : Stays w_ z s) : Stays w_ z
    (State.resetWindows s f) := by
  unfold State.resetWindows
  repeat' (first
    | with_reducible assumption
    | with_reducible exact Has.sub hw (by decide)
    | with_reducible exact Has.mem hw (by decide)
    | intro _
    | with_reducible apply Stays.ite
    | with_reducible apply Stays.foldl
    | with_reducible apply PStays.foldl
    | with_reducible apply QStays.foldl
    | with_reducible apply State.setWord_stays
    | (extract_lets)
    | split)

theorem State.dropWindows_stays {w_ : List Part} {z s : State} (f : Nat) (hw : Has [.brg, .out, .free] w_) (hk : Stays w_ z s) :
    Stays w_ z (State.dropWindows s f) := by
  unfold State.dropWindows
  repeat' (first
    | with_reducible assumption
    | with_reducible exact Has.sub hw (by decide)
    | with_reducible exact Has.mem hw (by decide)
    | intro _
    | with_reducible apply Stays.foldl
    | with_reducible apply PStays.foldl
    | with_reducible apply QStays.foldl
    | with_reducible apply QStays.snd
    | with_reducible apply State.draw_staysQ
    | with_reducible apply State.completeErw_stays
    | with_reducible apply State.dropRead_stays
    | with_reducible apply State.onBrg_stays
    | with_reducible apply State.pfKill_stays
    | (extract_lets)
    | split
    | with_reducible apply QStays.pair
    | (with_reducible refine QStays.eq (by assumption) ?_))

theorem State.dropObjects_stays {w_ : List Part} {z s : State} (f : Nat) (hw : Has [.glb, .ctrs, .srcs, .banks, .rte, .sch, .hif,
    .trn, .mch, .rma, .col, .out, .free] w_) (hk : Stays w_ z s) : Stays w_ z (State.dropObjects s f) := by
  unfold State.dropObjects
  repeat' (first
    | with_reducible assumption
    | with_reducible exact Has.sub hw (by decide)
    | with_reducible exact Has.mem hw (by decide)
    | intro _
    | with_reducible apply Stays.ite
    | with_reducible apply Stays.foldl
    | with_reducible apply PStays.foldl
    | with_reducible apply QStays.foldl
    | with_reducible apply PStays.fst
    | with_reducible apply QStays.snd
    | with_reducible apply State.draw_staysQ
    | with_reducible apply State.colLeaveAll_stays
    | with_reducible apply State.dropMatching_stays
    | with_reducible apply State.onMch_stays
    | with_reducible apply State.onRma_stays
    | with_reducible apply State.removeEp_stays
    | (extract_lets)
    | split
    | with_reducible apply PStays.pair
    | with_reducible apply QStays.pair
    | (with_reducible refine PStays.eq (by assumption) ?_)
    | (with_reducible refine QStays.eq (by assumption) ?_)
    | with_reducible apply Stays.set_hif_trn)

theorem State.flrOne_stays {w_ : List Part} {z s : State} (f : Nat) (hw : Has [.glb, .regs, .ctrs, .srcs, .banks, .lnk, .rte,
    .sch, .hif, .trn, .mch, .rma, .lck, .brg, .col, .bst, .xlt, .out, .free] w_) (hk : Stays w_ z s) : Stays w_ z (State.flrOne s
    f) := by
  unfold State.flrOne
  repeat' (first
    | with_reducible assumption
    | with_reducible exact Has.sub hw (by decide)
    | with_reducible exact Has.mem hw (by decide)
    | intro _
    | with_reducible apply PStays.fst
    | with_reducible apply State.cellResetIdentity_stays
    | with_reducible apply State.dropObjects_stays
    | with_reducible apply State.dropReqs_stays
    | with_reducible apply State.dropWindows_stays
    | with_reducible apply State.flResetIdentity_stays
    | with_reducible apply State.invalidateFn_stays
    | with_reducible apply State.resetWindows_stays
    | with_reducible apply State.revokeAll_stays
    | with_reducible apply State.setFn_stays
    | (extract_lets)
    | split
    | with_reducible apply PStays.pair
    | (with_reducible refine PStays.eq (by assumption) ?_))

theorem State.loseRegions_stays {w_ : List Part} {z s : State} (hp : Nat) (hw : Has [.regs, .ctrs, .sch, .trn, .out, .free] w_)
    (hk : Stays w_ z s) : Stays w_ z (State.loseRegions s hp) := by
  unfold State.loseRegions
  repeat' (first
    | with_reducible assumption
    | with_reducible exact Has.sub hw (by decide)
    | with_reducible exact Has.mem hw (by decide)
    | intro _
    | with_reducible apply Stays.foldl
    | with_reducible apply PStays.foldl
    | with_reducible apply QStays.foldl
    | with_reducible apply PStays.fst
    | with_reducible apply State.regionEnd_stays
    | (extract_lets)
    | split
    | with_reducible apply PStays.pair
    | (with_reducible refine PStays.eq (by assumption) ?_)
    | with_reducible apply Stays.set_trn)

theorem execFlw_stays {w_ : List Part} {z s : State} (f : Nat) (hw : Has [.glb, .regs, .ctrs, .srcs, .banks, .lnk, .rte, .sch,
    .hif, .trn, .mch, .rma, .lck, .brg, .col, .bst, .xlt, .out, .free] w_) (hk : Stays w_ z s) : OutStays w_ z (execFlr f s) := by
  unfold execFlr
  repeat' (first
    | with_reducible assumption
    | with_reducible exact Has.sub hw (by decide)
    | with_reducible exact Has.mem hw (by decide)
    | intro _
    | with_reducible apply OutStays.ite
    | with_reducible apply Stays.ite
    | with_reducible apply Stays.foldl
    | with_reducible apply PStays.foldl
    | with_reducible apply QStays.foldl
    | with_reducible apply OutStays.next
    | with_reducible apply State.flrOne_stays
    | with_reducible apply State.loseRegions_stays
    | with_reducible apply State.settle_stays
    | (extract_lets)
    | split)

theorem execFlrComplete_stays {w_ : List Part} {z s : State} (f : Nat) (hw : Has [.glb, .regs, .ctrs, .srcs, .banks, .lnk, .hif,
    .bst, .xlt, .out, .free] w_) (hk : Stays w_ z s) : OutStays w_ z (execFlrComplete f s) := by
  unfold execFlrComplete
  repeat' (first
    | with_reducible assumption
    | with_reducible exact Has.sub hw (by decide)
    | with_reducible exact Has.mem hw (by decide)
    | intro _
    | with_reducible apply OutStays.ite
    | with_reducible apply Stays.ite
    | with_reducible apply PStays.fst
    | with_reducible apply OutStays.next
    | with_reducible apply State.invalidateFn_stays
    | with_reducible apply State.setFn_stays
    | (extract_lets)
    | split
    | with_reducible apply PStays.pair
    | (with_reducible refine PStays.eq (by assumption) ?_))

end Sys2Proof.Machine
end

