-- ==== Sys2Proof/Laws/StaysSys.lean ====
section
/-! SUPPORT. Laws/Stays.lean, for the operations of Machine/Sys.lean. -/
namespace Sys2Proof.Machine

theorem State.hostPortReset_stays {w_ : List Part} {z s : State} (h : Nat) (hw : Has [.glb, .regs, .ctrs, .srcs, .banks, .lnk,
    .rte, .sch, .hif, .trn, .mch, .rma, .lck, .brg, .col, .bst, .mgt, .xlt, .out, .free] w_) (hk : Stays w_ z s) : Stays w_ z
    (State.hostPortReset s h) := by
  unfold State.hostPortReset
  repeat' (first
    | with_reducible assumption
    | with_reducible exact Has.sub hw (by decide)
    | with_reducible exact Has.mem hw (by decide)
    | intro _
    | with_reducible apply Stays.ite
    | with_reducible apply Stays.foldl
    | with_reducible apply PStays.foldl
    | with_reducible apply QStays.foldl
    | with_reducible apply State.emptyUnit_stays
    | with_reducible apply State.endTables_stays
    | with_reducible apply State.flrOne_stays
    | with_reducible apply State.loseRegions_stays
    | with_reducible apply State.onRma_stays
    | with_reducible apply State.resetWords_stays
    | with_reducible apply State.revokeAll_stays
    | with_reducible apply State.setBox_stays
    | with_reducible apply State.setXu_stays
    | (extract_lets)
    | split
    | with_reducible apply Stays.set_hif)

theorem State.modeReq_stays {w_ : List Part} {z s : State} (identity v : Nat) (hw : Has [.glb] w_) (hk : Stays w_ z s) : Stays w_
    z (State.modeReq s identity v) := by
  unfold State.modeReq
  repeat' (first
    | with_reducible assumption
    | with_reducible exact Has.sub hw (by decide)
    | with_reducible exact Has.mem hw (by decide)
    | intro _
    | with_reducible apply Stays.ite
    | (extract_lets)
    | split
    | with_reducible apply Stays.set_glb)

theorem State.modeRefuse_stays {w_ : List Part} {z s : State} (target : Nat) (hw : Has [.glb, .ctrs, .srcs, .banks, .hif, .out]
    w_) (hk : Stays w_ z s) : Stays w_ z (State.modeRefuse s target) := by
  unfold State.modeRefuse
  repeat' (first
    | with_reducible assumption
    | with_reducible exact Has.sub hw (by decide)
    | with_reducible exact Has.mem hw (by decide)
    | intro _
    | with_reducible apply State.raise_stays
    | (extract_lets)
    | split
    | with_reducible apply Stays.set_glb)

theorem State.recheckPhy_stays {w_ : List Part} {z s : State} (hw : Has [.glb, .crs, .ctrs, .srcs, .banks, .phy, .lnk, .rte, .sch,
    .hif, .col, .out, .free] w_) (hk : Stays w_ z s) : Stays w_ z (State.recheckPhy s) := by
  unfold State.recheckPhy
  repeat' (first
    | with_reducible assumption
    | with_reducible exact Has.sub hw (by decide)
    | with_reducible exact Has.mem hw (by decide)
    | intro _
    | with_reducible apply Stays.ite
    | with_reducible apply Stays.foldl
    | with_reducible apply PStays.foldl
    | with_reducible apply QStays.foldl
    | with_reducible apply State.forbidLanes_stays
    | with_reducible apply State.laneStart_stays
    | with_reducible apply State.linkForbid_stays
    | (extract_lets)
    | split)

theorem State.clearAllCounts_stays {w_ : List Part} {z s : State} (hw : Has [.srcs] w_) (hk : Stays w_ z s) : Stays w_ z
    (State.clearAllCounts s) := by
  unfold State.clearAllCounts
  repeat' (first
    | with_reducible assumption
    | with_reducible exact Has.sub hw (by decide)
    | with_reducible exact Has.mem hw (by decide)
    | intro _
    | with_reducible apply State.clearCounts_stays
    | (extract_lets)
    | split)

theorem State.sendFence_stays {w_ : List Part} {z s : State} (p : Nat) (hw : Has [.ctrs, .phy, .out, .free] w_) (hk : Stays w_ z
    s) : Stays w_ z (State.sendFence s p) := by
  unfold State.sendFence
  repeat' (first
    | with_reducible assumption
    | with_reducible exact Has.sub hw (by decide)
    | with_reducible exact Has.mem hw (by decide)
    | intro _
    | with_reducible apply State.sendBrick_stays
    | (extract_lets)
    | split)

theorem State.fenceEvent_stays {w_ : List Part} {z s : State} (hw : Has [.glb, .ctrs, .srcs, .banks, .hif, .out] w_) (hk : Stays
    w_ z s) : Stays w_ z (State.fenceEvent s) := by
  unfold State.fenceEvent
  repeat' (first
    | with_reducible assumption
    | with_reducible exact Has.sub hw (by decide)
    | with_reducible exact Has.mem hw (by decide)
    | intro _
    | with_reducible apply Stays.ite
    | with_reducible apply Stays.foldl
    | with_reducible apply PStays.foldl
    | with_reducible apply QStays.foldl
    | with_reducible apply State.eqPost_stays
    | with_reducible apply State.msixSend_stays
    | with_reducible apply State.raiseMute_stays
    | (extract_lets)
    | split)

theorem State.swapRefuse_stays {w_ : List Part} {z s : State} (code : Nat) (hw : Has [.glb, .crs, .ctrs, .srcs, .banks, .hif,
    .out] w_) (hk : Stays w_ z s) : Stays w_ z (State.swapRefuse s code) := by
  unfold State.swapRefuse
  repeat' (first
    | with_reducible assumption
    | with_reducible exact Has.sub hw (by decide)
    | with_reducible exact Has.mem hw (by decide)
    | intro _
    | with_reducible apply State.raise_stays
    | (extract_lets)
    | split
    | with_reducible apply Stays.set_crs)

theorem State.swapArm_stays {w_ : List Part} {z s : State} (hw : Has [.glb, .crs, .ctrs, .srcs, .banks, .hif, .out] w_) (hk :
    Stays w_ z s) : Stays w_ z (State.swapArm s) := by
  unfold State.swapArm
  repeat' (first
    | with_reducible assumption
    | with_reducible exact Has.sub hw (by decide)
    | with_reducible exact Has.mem hw (by decide)
    | intro _
    | with_reducible apply Stays.ite
    | with_reducible apply State.swapRefuse_stays
    | (extract_lets)
    | split
    | with_reducible apply Stays.set_crs)

theorem State.swapDisarm_stays {w_ : List Part} {z s : State} (hw : Has [.glb, .crs, .ctrs, .srcs, .banks, .hif, .out] w_) (hk :
    Stays w_ z s) : Stays w_ z (State.swapDisarm s) := by
  unfold State.swapDisarm
  repeat' (first
    | with_reducible assumption
    | with_reducible exact Has.sub hw (by decide)
    | with_reducible exact Has.mem hw (by decide)
    | intro _
    | with_reducible apply Stays.ite
    | with_reducible apply State.swapRefuse_stays
    | (extract_lets)
    | split
    | with_reducible apply Stays.set_crs)

theorem State.swapCopy_stays {w_ : List Part} {z s : State} (hw : Has [.glb, .crs, .regs, .ctrs, .srcs, .banks, .lnk, .hif, .bst,
    .out] w_) (hk : Stays w_ z s) : Stays w_ z (State.swapCopy s) := by
  unfold State.swapCopy
  repeat' (first
    | with_reducible assumption
    | with_reducible exact Has.sub hw (by decide)
    | with_reducible exact Has.mem hw (by decide)
    | intro _
    | with_reducible apply Stays.ite
    | with_reducible apply Stays.foldl
    | with_reducible apply PStays.foldl
    | with_reducible apply QStays.foldl
    | with_reducible apply PStays.fst
    | with_reducible apply State.swapRefuse_stays
    | with_reducible apply State.tableWrite_stays
    | (extract_lets)
    | split
    | with_reducible apply PStays.pair
    | (with_reducible refine PStays.eq (by assumption) ?_)
    | with_reducible apply Stays.set_crs)

theorem State.swapCtrl_stays {w_ : List Part} {z s : State} (v : Nat) (hw : Has [.glb, .crs, .regs, .ctrs, .srcs, .banks, .lnk,
    .hif, .bst, .out] w_) (hk : Stays w_ z s) : Stays w_ z (State.swapCtrl s v) := by
  unfold State.swapCtrl
  repeat' (first
    | with_reducible assumption
    | with_reducible exact Has.sub hw (by decide)
    | with_reducible exact Has.mem hw (by decide)
    | intro _
    | with_reducible apply Stays.ite
    | with_reducible apply State.swapArm_stays
    | with_reducible apply State.swapCopy_stays
    | with_reducible apply State.swapDisarm_stays
    | (extract_lets)
    | split
    | with_reducible apply Stays.set_crs)

theorem State.copyDone_stays {w_ : List Part} {z s : State} (hw : Has [.glb, .crs, .regs, .sets, .ctrs, .srcs, .banks, .hif, .col,
    .out] w_) (hk : Stays w_ z s) : Stays w_ z (State.copyDone s) := by
  unfold State.copyDone
  repeat' (first
    | with_reducible assumption
    | with_reducible exact Has.sub hw (by decide)
    | with_reducible exact Has.mem hw (by decide)
    | intro _
    | with_reducible apply State.roleCheck_stays
    | with_reducible apply Stays.set_crs_sets_col
    | (extract_lets)
    | split)

theorem State.swapNow_stays {w_ : List Part} {z s : State} (hw : Has [.glb, .crs, .ctrs, .srcs, .banks, .phy, .lnk, .rte, .sch,
    .hif, .col, .out, .free] w_) (hk : Stays w_ z s) : Stays w_ z (State.swapNow s) := by
  unfold State.swapNow
  repeat' (first
    | with_reducible assumption
    | with_reducible exact Has.sub hw (by decide)
    | with_reducible exact Has.mem hw (by decide)
    | intro _
    | with_reducible apply Stays.ite
    | with_reducible apply Stays.foldl
    | with_reducible apply PStays.foldl
    | with_reducible apply QStays.foldl
    | with_reducible apply PStays.fst
    | with_reducible apply QStays.snd
    | with_reducible apply State.draw_staysQ
    | with_reducible apply State.colSwapTree_stays
    | with_reducible apply State.raise_stays
    | with_reducible apply State.recheckPhy_stays
    | with_reducible apply State.refill_stays
    | with_reducible apply State.sendCongRows_stays
    | with_reducible apply State.swapBuckets_stays
    | (extract_lets)
    | split
    | with_reducible apply PStays.pair
    | with_reducible apply QStays.pair
    | (with_reducible refine PStays.eq (by assumption) ?_)
    | (with_reducible refine QStays.eq (by assumption) ?_)
    | with_reducible apply Stays.set_crs)

end Sys2Proof.Machine
end

