-- ==== Sys2Proof/Laws/StaysRegRead.lean ====
section
/-! SUPPORT. Laws/Stays.lean, for the operations of Machine/RegRead.lean. -/
namespace Sys2Proof.Machine

theorem State.noteRead_stays {w_ : List Part} {z s : State} (req : Requester) (off : Nat) (hw : Has [.xlt] w_) (hk : Stays w_ z s)
    : Stays w_ z (State.noteRead s req off) := by
  unfold State.noteRead
  repeat' (first
    | with_reducible assumption
    | with_reducible exact Has.sub hw (by decide)
    | with_reducible exact Has.mem hw (by decide)
    | intro _
    | with_reducible apply Stays.ite
    | with_reducible apply State.setXu_stays
    | (extract_lets)
    | split)

theorem State.barRead_stays {w_ : List Part} {z s : State} (req : Requester) (off size : Nat) (hw : Has [.glb, .ctrs, .latches,
    .srcs, .banks, .hif, .xlt, .out] w_) (hk : Stays w_ z s) : PStays w_ z (State.barRead s req off size) := by
  unfold State.barRead
  repeat' (first
    | with_reducible assumption
    | with_reducible exact Has.sub hw (by decide)
    | with_reducible exact Has.mem hw (by decide)
    | intro _
    | with_reducible apply PStays.ite
    | with_reducible apply Stays.ite
    | with_reducible apply PStays.fst
    | with_reducible apply State.badAccess_stays
    | with_reducible apply State.noteRead_stays
    | (extract_lets)
    | split
    | with_reducible apply PStays.pair
    | (with_reducible refine PStays.eq (by assumption) ?_)
    | with_reducible apply Stays.set_latches)

theorem State.bellRead_stays {w_ : List Part} {z s : State} (_off _size : Nat) (hk : Stays w_ z s) : PStays w_ z (State.bellRead s
    _off _size) := by
  unfold State.bellRead
  repeat' (first
    | with_reducible assumption
    | intro _
    | with_reducible apply PStays.fst
    | (extract_lets)
    | split
    | with_reducible apply PStays.pair
    | (with_reducible refine PStays.eq (by assumption) ?_))

theorem execLowHalfRead_stays {w_ : List Part} {z s : State} (req : Requester) (at_ : BarAddr) (size : Nat) (hw : Has [.glb,
    .ctrs, .latches, .srcs, .banks, .hif, .xlt, .out, .free] w_) (hk : Stays w_ z s) : OutStays w_ z (execLowHalfRead req at_ size
    s) := by
  unfold execLowHalfRead
  repeat' (first
    | with_reducible assumption
    | with_reducible exact Has.sub hw (by decide)
    | with_reducible exact Has.mem hw (by decide)
    | intro _
    | with_reducible apply OutStays.ite
    | with_reducible apply Stays.ite
    | with_reducible apply PStays.fst
    | with_reducible apply OutStays.next
    | with_reducible apply State.barRead_stays
    | with_reducible apply State.bellRead_stays
    | with_reducible apply State.coreAccess_stays
    | with_reducible apply State.emit_stays
    | with_reducible apply State.readRun_stays
    | (extract_lets)
    | split
    | with_reducible apply PStays.pair
    | (with_reducible refine PStays.eq (by assumption) ?_))

end Sys2Proof.Machine
end

