-- ==== Sys2Proof/Laws/StaysRegWrite.lean ====
section
/-! SUPPORT. Laws/Stays.lean, for the operations of Machine/RegWrite.lean. -/
namespace Sys2Proof.Machine

theorem aftew_stays {w_ : List Part} {z s : State} (o : Host.Outcome State Fault Refusal) (ho : OutStays w_ z o) (hk : Stays w_ z
    s) : Stays w_ z (after s o) := by
  cases o with
  | next t => exact ho.out t rfl
  | fault r => exact hk
  | refused r => exact hk

theorem State.lockCheck_stays {w_ : List Part} {z s : State} (d : RegDef) (w old v : Nat) (hw : Has [.glb, .ctrs, .srcs, .banks,
    .hif, .out] w_) (hk : Stays w_ z s) : Stays w_ z (State.lockCheck s d w old v) := by
  unfold State.lockCheck
  repeat' (first
    | with_reducible assumption
    | with_reducible exact Has.sub hw (by decide)
    | with_reducible exact Has.mem hw (by decide)
    | intro _
    | with_reducible apply State.lockedNote_stays
    | (extract_lets)
    | split)

theorem State.deviceIdWrite_stays {w_ : List Part} {z s : State} (v : Nat) (hw : Has [.glb, .crs, .regs, .ctrs, .srcs, .banks,
    .hif, .out] w_) (hk : Stays w_ z s) : Stays w_ z (State.deviceIdWrite s v) := by
  unfold State.deviceIdWrite
  repeat' (first
    | with_reducible assumption
    | with_reducible exact Has.sub hw (by decide)
    | with_reducible exact Has.mem hw (by decide)
    | intro _
    | with_reducible apply Stays.ite
    | with_reducible apply State.badAccess_stays
    | with_reducible apply State.put_stays
    | (extract_lets)
    | split
    | with_reducible apply Stays.set_crs)

theorem State.alignStatusWrite_stays {w_ : List Part} {z s : State} (v : Nat) (hw : Has [.crs] w_) (hk : Stays w_ z s) : Stays w_
    z (State.alignStatusWrite s v) := by
  unfold State.alignStatusWrite
  repeat' (first
    | with_reducible assumption
    | with_reducible exact Has.sub hw (by decide)
    | with_reducible exact Has.mem hw (by decide)
    | intro _
    | (extract_lets)
    | split
    | with_reducible apply Stays.set_crs)

theorem State.plainWrite_stays {w_ : List Part} {z s : State} (d : RegDef) (w off v : Nat) (hw : Has [.regs] w_) (hk : Stays w_ z
    s) : Stays w_ z (State.plainWrite s d w off v) := by
  unfold State.plainWrite
  repeat' (first
    | with_reducible assumption
    | with_reducible exact Has.sub hw (by decide)
    | with_reducible exact Has.mem hw (by decide)
    | intro _
    | with_reducible apply State.setWord_stays
    | (extract_lets)
    | split)

theorem State.laneCtrlWrite_stays {w_ : List Part} {z s : State} (d : RegDef) (n off v : Nat) (hw : Has [.glb, .crs, .regs, .ctrs,
    .srcs, .banks, .phy, .lnk, .rte, .hif, .out, .free] w_) (hk : Stays w_ z s) : Stays w_ z (State.laneCtrlWrite s d n off v) :=
    by
  unfold State.laneCtrlWrite
  repeat' (first
    | with_reducible assumption
    | with_reducible exact Has.sub hw (by decide)
    | with_reducible exact Has.mem hw (by decide)
    | intro _
    | with_reducible apply Stays.ite
    | with_reducible apply OutStays.next
    | with_reducible apply aftew_stays
    | with_reducible apply execLaneRestart_stays
    | with_reducible apply State.laneOff_stays
    | with_reducible apply State.laneStart_stays
    | with_reducible apply State.plainWrite_stays
    | with_reducible apply State.testSignal_stays
    | (extract_lets)
    | split)

theorem State.prbsWrite_stays {w_ : List Part} {z s : State} (d : RegDef) (n off v : Nat) (hw : Has [.regs, .phy, .out] w_) (hk :
    Stays w_ z s) : Stays w_ z (State.prbsWrite s d n off v) := by
  unfold State.prbsWrite
  repeat' (first
    | with_reducible assumption
    | with_reducible exact Has.sub hw (by decide)
    | with_reducible exact Has.mem hw (by decide)
    | intro _
    | with_reducible apply Stays.ite
    | with_reducible apply OutStays.next
    | with_reducible apply aftew_stays
    | with_reducible apply execPrbsInjectOne_stays
    | with_reducible apply State.plainWrite_stays
    | with_reducible apply State.setLn_stays
    | with_reducible apply State.testSignal_stays
    | (extract_lets)
    | split)

theorem State.linkCtrlWrite_stays {w_ : List Part} {z s : State} (d : RegDef) (p off v : Nat) (hw : Has [.glb, .crs, .regs, .ctrs,
    .srcs, .banks, .lnk, .rte, .sch, .hif, .col, .out] w_) (hk : Stays w_ z s) : Stays w_ z (State.linkCtrlWrite s d p off v) :=
    by
  unfold State.linkCtrlWrite
  repeat' (first
    | with_reducible assumption
    | with_reducible exact Has.sub hw (by decide)
    | with_reducible exact Has.mem hw (by decide)
    | intro _
    | with_reducible apply Stays.ite
    | with_reducible apply OutStays.next
    | with_reducible apply aftew_stays
    | with_reducible apply execLinkReinit_stays
    | with_reducible apply State.linkForbid_stays
    | with_reducible apply State.plainWrite_stays
    | (extract_lets)
    | split)

theorem State.shadowWrite_stays {w_ : List Part} {z s : State} (d : RegDef) (i w off v : Nat) (hw : Has [.glb, .regs, .sets,
    .ctrs, .srcs, .banks, .lnk, .hif, .rma, .bst, .out] w_) (hk : Stays w_ z s) : Stays w_ z (State.shadowWrite s d i w off v) :=
    by
  unfold State.shadowWrite
  repeat' (first
    | with_reducible assumption
    | with_reducible exact Has.sub hw (by decide)
    | with_reducible exact Has.mem hw (by decide)
    | intro _
    | with_reducible apply Stays.ite
    | with_reducible apply State.bump_stays
    | with_reducible apply State.putSetW_stays
    | with_reducible apply State.roleCheck_stays
    | with_reducible apply State.setKey_stays
    | with_reducible apply State.tableWrite_stays
    | with_reducible apply State.treeWrite_stays
    | (extract_lets)
    | split)

theorem State.fnCmdWrite_stays {w_ : List Part} {z s : State} (f v : Nat) (hw : Has [.glb, .regs, .ctrs, .srcs, .banks, .lnk,
    .rte, .sch, .hif, .trn, .mch, .rma, .lck, .brg, .col, .xlt, .out, .free] w_) (hk : Stays w_ z s) : Stays w_ z
    (State.fnCmdWrite s f v) := by
  unfold State.fnCmdWrite
  repeat' (first
    | with_reducible assumption
    | with_reducible exact Has.sub hw (by decide)
    | with_reducible exact Has.mem hw (by decide)
    | intro _
    | with_reducible apply OutStays.next
    | with_reducible apply aftew_stays
    | with_reducible apply execCqCreate_stays
    | with_reducible apply execCqDestroy_stays
    | with_reducible apply execCqReset_stays
    | with_reducible apply execEpCreate_stays
    | with_reducible apply execEpDestroy_stays
    | with_reducible apply execEqCreate_stays
    | with_reducible apply execEqDestroy_stays
    | with_reducible apply execFnCmdUndefined_stays
    | with_reducible apply execSqCreate_stays
    | with_reducible apply execSqDestroy_stays
    | with_reducible apply execSqRestart_stays
    | (extract_lets)
    | split)

theorem State.flCmdWrite_stays {w_ : List Part} {z s : State} (req : Requester) (v : Nat) (hw : Has [.glb, .regs, .ctrs, .srcs,
    .banks, .lnk, .rte, .sch, .hif, .trn, .mch, .rma, .lck, .brg, .col, .xlt, .out, .free] w_) (hk : Stays w_ z s) : Stays w_ z
    (State.flCmdWrite s req v) := by
  unfold State.flCmdWrite
  repeat' (first
    | with_reducible assumption
    | with_reducible exact Has.sub hw (by decide)
    | with_reducible exact Has.mem hw (by decide)
    | intro _
    | with_reducible apply OutStays.next
    | with_reducible apply aftew_stays
    | with_reducible apply execFlAcquire_stays
    | with_reducible apply execFlBreak_stays
    | with_reducible apply execFlRelease_stays
    | with_reducible apply execFlRenew_stays
    | with_reducible apply State.flCommand_stays
    | (extract_lets)
    | split)

theorem State.windowWrite_stays {w_ : List Part} {z s : State} (d : RegDef) (f j w v : Nat) (hw : Has [.glb, .regs, .ctrs, .srcs,
    .banks, .hif, .brg, .out] w_) (hk : Stays w_ z s) : Stays w_ z (State.windowWrite s d f j w v) := by
  unfold State.windowWrite
  repeat' (first
    | with_reducible assumption
    | with_reducible exact Has.sub hw (by decide)
    | with_reducible exact Has.mem hw (by decide)
    | intro _
    | with_reducible apply Stays.ite
    | with_reducible apply State.badAccess_stays
    | with_reducible apply State.pfKill_stays
    | with_reducible apply State.plainWrite_stays
    | (extract_lets)
    | split)

theorem State.writeUnless_stays {w_ : List Part} {z s : State} (bad : Bool) (d : RegDef) (w off v : Nat) (hw : Has [.glb, .regs,
    .ctrs, .srcs, .banks, .hif, .out] w_) (hk : Stays w_ z s) : Stays w_ z (State.writeUnless s bad d w off v) := by
  unfold State.writeUnless
  repeat' (first
    | with_reducible assumption
    | with_reducible exact Has.sub hw (by decide)
    | with_reducible exact Has.mem hw (by decide)
    | intro _
    | with_reducible apply Stays.ite
    | with_reducible apply State.badAccess_stays
    | with_reducible apply State.plainWrite_stays
    | (extract_lets)
    | split)

theorem State.busWrite_stays {w_ : List Part} {z s : State} (d : RegDef) (b off v : Nat) (hw : Has [.regs, .out] w_) (hk : Stays
    w_ z s) : Stays w_ z (State.busWrite s d b off v) := by
  unfold State.busWrite
  repeat' (first
    | with_reducible assumption
    | with_reducible exact Has.sub hw (by decide)
    | with_reducible exact Has.mem hw (by decide)
    | intro _
    | with_reducible apply Stays.ite
    | with_reducible apply State.busEnabled_stays
    | with_reducible apply State.plainWrite_stays
    | (extract_lets)
    | split)

theorem State.routeWrite_stays {w_ : List Part} {z s : State} (d : RegDef) (eid w off v : Nat) (hw : Has [.glb, .regs, .ctrs,
    .srcs, .banks, .lnk, .hif, .ltl, .bst, .out] w_) (hk : Stays w_ z s) : Stays w_ z (State.routeWrite s d eid w off v) := by
  unfold State.routeWrite
  repeat' (first
    | with_reducible assumption
    | with_reducible exact Has.sub hw (by decide)
    | with_reducible exact Has.mem hw (by decide)
    | intro _
    | with_reducible apply State.plainWrite_stays
    | with_reducible apply State.tableWrite_stays
    | (extract_lets)
    | split
    | with_reducible apply Stays.set_ltl)

theorem State.boxWrite_stays {w_ : List Part} {z s : State} (d : RegDef) (m w off v : Nat) (hw : Has [.glb, .regs, .ctrs, .srcs,
    .banks, .rte, .sch, .hif, .mgt, .xlt, .out, .free] w_) (hk : Stays w_ z s) : Stays w_ z (State.boxWrite s d m w off v) := by
  unfold State.boxWrite
  repeat' (first
    | with_reducible assumption
    | with_reducible exact Has.sub hw (by decide)
    | with_reducible exact Has.mem hw (by decide)
    | intro _
    | with_reducible apply Stays.ite
    | with_reducible apply State.boxStart_stays
    | with_reducible apply State.plainWrite_stays
    | (extract_lets)
    | split)

theorem State.msixWrite_stays {w_ : List Part} {z s : State} (f k v : Nat) (hw : Has [.ctrs, .hif, .out] w_) (hk : Stays w_ z s) :
    Stays w_ z (State.msixWrite s f k v) := by
  unfold State.msixWrite
  repeat' (first
    | with_reducible assumption
    | with_reducible exact Has.sub hw (by decide)
    | with_reducible exact Has.mem hw (by decide)
    | intro _
    | with_reducible apply Stays.ite
    | with_reducible apply State.msixSend_stays
    | (extract_lets)
    | split
    | with_reducible apply Stays.set_hif)

end Sys2Proof.Machine
end

