-- ==== Sys2Proof/Laws/StaysAgent.lean ====
section
/-! SUPPORT. Laws/Stays.lean, for the operations of Machine/Agent.lean. -/
namespace Sys2Proof.Machine

theorem State.agentRead_stays {w_ : List Part} {z s : State} (addr : Nat) (n : Nat) (hw : Has [.glb, .ctrs, .latches, .srcs,
    .banks, .hif, .xlt, .out] w_) (hk : Stays w_ z s) : PStays w_ z (State.agentRead s addr n) := by
  induction n with
  | zero =>
    unfold State.agentRead
    repeat' (first
      | with_reducible assumption
      | with_reducible exact Has.sub hw (by decide)
      | with_reducible exact Has.mem hw (by decide)
      | with_reducible apply ih
      | with_reducible exact ih
      | intro _
      | with_reducible apply PStays.fst
      | with_reducible apply State.barRead_stays
      | (extract_lets)
      | split
      | with_reducible apply PStays.pair
      | (with_reducible refine PStays.eq (by assumption) ?_))
  | succ n ih =>
    unfold State.agentRead
    repeat' (first
      | with_reducible assumption
      | with_reducible exact Has.sub hw (by decide)
      | with_reducible exact Has.mem hw (by decide)
      | with_reducible apply ih
      | with_reducible exact ih
      | intro _
      | with_reducible apply PStays.fst
      | with_reducible apply State.barRead_stays
      | (extract_lets)
      | split
      | with_reducible apply PStays.pair
      | (with_reducible refine PStays.eq (by assumption) ?_))

theorem State.mgReply_stays {w_ : List Part} {z s : State} (m : MgH) (status : Nat) (words : List Nat) (hw : Has [.glb, .ctrs,
    .srcs, .banks, .rte, .sch, .hif, .mgt, .xlt, .out, .free] w_) (hk : Stays w_ z s) : Stays w_ z (State.mgReply s m status
    words) := by
  unfold State.mgReply
  repeat' (first
    | with_reducible assumption
    | with_reducible exact Has.sub hw (by decide)
    | with_reducible exact Has.mem hw (by decide)
    | intro _
    | with_reducible apply State.mgSend_stays
    | (extract_lets)
    | split)

theorem State.keepAnswew_stays {w_ : List Part} {z s : State} (m : MgH) (status : Nat) (words : List Nat) (hw : Has [.mgt] w_) (hk
    : Stays w_ z s) : Stays w_ z (State.keepAnswer s m status words) := by
  unfold State.keepAnswer
  repeat' (first
    | with_reducible assumption
    | with_reducible exact Has.sub hw (by decide)
    | with_reducible exact Has.mem hw (by decide)
    | intro _
    | (extract_lets)
    | split
    | with_reducible apply Stays.set_mgt)

theorem State.agentAnswew_stays {w_ : List Part} {z s : State} (m : MgH) (status : Nat) (words : List Nat) (hw : Has [.glb, .ctrs,
    .srcs, .banks, .rte, .sch, .hif, .mgt, .xlt, .out, .free] w_) (hk : Stays w_ z s) : Stays w_ z (State.agentAnswer s m status
    words) := by
  unfold State.agentAnswer
  repeat' (first
    | with_reducible assumption
    | with_reducible exact Has.sub hw (by decide)
    | with_reducible exact Has.mem hw (by decide)
    | intro _
    | with_reducible apply Stays.ite
    | with_reducible apply State.keepAnswew_stays
    | with_reducible apply State.mgReply_stays
    | (extract_lets)
    | split)

end Sys2Proof.Machine
end

