-- ==== Sys2Proof/Laws/StaysMonitor.lean ====
section
/-! SUPPORT. Laws/Stays.lean, for the operations of Machine/Monitor.lean. -/
namespace Sys2Proof.Machine

theorem State.onMon_stays {w_ : List Part} {z s : State} (f : Mon → Mon) (hw : Has [.mgt] w_) (hk : Stays w_ z s) : Stays w_ z
    (State.onMon s f) := by
  unfold State.onMon
  repeat' (first
    | with_reducible assumption
    | with_reducible exact Has.sub hw (by decide)
    | with_reducible exact Has.mem hw (by decide)
    | intro _
    | (extract_lets)
    | split
    | with_reducible apply Stays.set_mgt)

theorem State.monHeaw_stays {w_ : List Part} {z s : State} (line : List Nat) (hw : Has [.mgt, .out] w_) (hk : Stays w_ z s) :
    Stays w_ z (State.monHear s line) := by
  unfold State.monHear
  repeat' (first
    | with_reducible assumption
    | with_reducible exact Has.sub hw (by decide)
    | with_reducible exact Has.mem hw (by decide)
    | intro _
    | with_reducible apply State.emit_stays
    | with_reducible apply State.onMon_stays
    | (extract_lets)
    | split)

theorem State.monSay_stays {w_ : List Part} {z s : State} (r : Reply) (hw : Has [.out] w_) (hk : Stays w_ z s) : Stays w_ z
    (State.monSay s r) := by
  unfold State.monSay
  repeat' (first
    | with_reducible assumption
    | with_reducible exact Has.sub hw (by decide)
    | with_reducible exact Has.mem hw (by decide)
    | intro _
    | with_reducible apply State.emit_stays
    | (extract_lets)
    | split)

theorem State.monitow_stays {w_ : List Part} {z s : State} (line : List Nat) (locked : Bool) (act : State → State × Reply) (h_act
    : ∀ u0, Stays w_ z u0 → PStays w_ z (act u0)) (hw : Has [.mgt, .out] w_) (hk : Stays w_ z s) : Stays w_ z (State.monitor s
    line locked act) := by
  unfold State.monitor
  repeat' (first
    | with_reducible assumption
    | with_reducible exact Has.sub hw (by decide)
    | with_reducible exact Has.mem hw (by decide)
    | intro _
    | with_reducible apply Stays.ite
    | with_reducible apply PStays.fst
    | with_reducible apply State.monHeaw_stays
    | with_reducible apply State.monSay_stays
    | with_reducible apply h_act
    | (extract_lets)
    | split
    | with_reducible apply PStays.pair
    | (with_reducible refine PStays.eq (by assumption) ?_))

theorem execMonHelp_stays {w_ : List Part} {z s : State} (line : List Nat) (hw : Has [.mgt, .out] w_) (hk : Stays w_ z s) :
    OutStays w_ z (execMonHelp line s) := by
  unfold execMonHelp
  repeat' (first
    | with_reducible assumption
    | with_reducible exact Has.sub hw (by decide)
    | with_reducible exact Has.mem hw (by decide)
    | intro _
    | with_reducible apply PStays.fst
    | with_reducible apply OutStays.next
    | with_reducible apply State.monitow_stays
    | (extract_lets)
    | split
    | with_reducible apply PStays.pair
    | (with_reducible refine PStays.eq (by assumption) ?_))

theorem execMonId_stays {w_ : List Part} {z s : State} (line : List Nat) (hw : Has [.mgt, .out] w_) (hk : Stays w_ z s) : OutStays
    w_ z (execMonId line s) := by
  unfold execMonId
  repeat' (first
    | with_reducible assumption
    | with_reducible exact Has.sub hw (by decide)
    | with_reducible exact Has.mem hw (by decide)
    | intro _
    | with_reducible apply PStays.fst
    | with_reducible apply OutStays.next
    | with_reducible apply State.monitow_stays
    | (extract_lets)
    | split
    | with_reducible apply PStays.pair
    | (with_reducible refine PStays.eq (by assumption) ?_))

theorem State.monRead_stays {w_ : List Part} {z s : State} (off : Nat) (n : Nat) (hw : Has [.glb, .ctrs, .latches, .srcs, .banks,
    .hif, .mgt, .xlt, .out] w_) (hk : Stays w_ z s) : PStays w_ z (State.monRead s off n) := by
  induction n with
  | zero =>
    unfold State.monRead
    repeat' (first
      | with_reducible assumption
      | with_reducible exact Has.sub hw (by decide)
      | with_reducible exact Has.mem hw (by decide)
      | with_reducible apply ih
      | with_reducible exact ih
      | intro _
      | with_reducible apply PStays.fst
      | with_reducible apply State.barRead_stays
      | with_reducible apply State.monitow_stays
      | (extract_lets)
      | split
      | with_reducible apply PStays.pair
      | (with_reducible refine PStays.eq (by assumption) ?_))
  | succ n ih =>
    unfold State.monRead
    repeat' (first
      | with_reducible assumption
      | with_reducible exact Has.sub hw (by decide)
      | with_reducible exact Has.mem hw (by decide)
      | with_reducible apply ih
      | with_reducible exact ih
      | intro _
      | with_reducible apply PStays.fst
      | with_reducible apply State.barRead_stays
      | with_reducible apply State.monitow_stays
      | (extract_lets)
      | split
      | with_reducible apply PStays.pair
      | (with_reducible refine PStays.eq (by assumption) ?_))

theorem execMonRd_stays {w_ : List Part} {z s : State} (line : List Nat) (hw : Has [.glb, .ctrs, .latches, .srcs, .banks, .hif,
    .mgt, .xlt, .out] w_) (hk : Stays w_ z s) : OutStays w_ z (execMonRd line s) := by
  unfold execMonRd
  repeat' (first
    | with_reducible assumption
    | with_reducible exact Has.sub hw (by decide)
    | with_reducible exact Has.mem hw (by decide)
    | intro _
    | with_reducible apply OutStays.ite
    | with_reducible apply Stays.ite
    | with_reducible apply PStays.fst
    | with_reducible apply OutStays.next
    | with_reducible apply State.monRead_stays
    | with_reducible apply State.monitow_stays
    | (extract_lets)
    | split
    | with_reducible apply PStays.pair
    | (with_reducible refine PStays.eq (by assumption) ?_))

theorem execMonRbk_stays {w_ : List Part} {z s : State} (line : List Nat) (hw : Has [.glb, .regs, .ctrs, .srcs, .banks, .hif,
    .mgt, .out, .free] w_) (hk : Stays w_ z s) : OutStays w_ z (execMonRbk line s) := by
  unfold execMonRbk
  repeat' (first
    | with_reducible assumption
    | with_reducible exact Has.sub hw (by decide)
    | with_reducible exact Has.mem hw (by decide)
    | intro _
    | with_reducible apply OutStays.ite
    | with_reducible apply Stays.ite
    | with_reducible apply PStays.fst
    | with_reducible apply OutStays.next
    | with_reducible apply State.capture_stays
    | with_reducible apply State.monitow_stays
    | with_reducible apply State.put_stays
    | (extract_lets)
    | split
    | with_reducible apply PStays.pair
    | (with_reducible refine PStays.eq (by assumption) ?_))

theorem execMonFlt_stays {w_ : List Part} {z s : State} (line : List Nat) (hw : Has [.mgt, .out] w_) (hk : Stays w_ z s) :
    OutStays w_ z (execMonFlt line s) := by
  unfold execMonFlt
  repeat' (first
    | with_reducible assumption
    | with_reducible exact Has.sub hw (by decide)
    | with_reducible exact Has.mem hw (by decide)
    | intro _
    | with_reducible apply OutStays.ite
    | with_reducible apply Stays.ite
    | with_reducible apply PStays.fst
    | with_reducible apply OutStays.next
    | with_reducible apply State.monitow_stays
    | (extract_lets)
    | split
    | with_reducible apply PStays.pair
    | (with_reducible refine PStays.eq (by assumption) ?_))

theorem execMonTime_stays {w_ : List Part} {z s : State} (line : List Nat) (hw : Has [.mgt, .out] w_) (hk : Stays w_ z s) :
    OutStays w_ z (execMonTime line s) := by
  unfold execMonTime
  repeat' (first
    | with_reducible assumption
    | with_reducible exact Has.sub hw (by decide)
    | with_reducible exact Has.mem hw (by decide)
    | intro _
    | with_reducible apply PStays.fst
    | with_reducible apply OutStays.next
    | with_reducible apply State.monitow_stays
    | (extract_lets)
    | split
    | with_reducible apply PStays.pair
    | (with_reducible refine PStays.eq (by assumption) ?_))

theorem execMonBoot_stays {w_ : List Part} {z s : State} (line : List Nat) (hw : Has [.mgt, .out] w_) (hk : Stays w_ z s) :
    OutStays w_ z (execMonBoot line s) := by
  unfold execMonBoot
  repeat' (first
    | with_reducible assumption
    | with_reducible exact Has.sub hw (by decide)
    | with_reducible exact Has.mem hw (by decide)
    | intro _
    | with_reducible apply PStays.fst
    | with_reducible apply OutStays.next
    | with_reducible apply State.monitow_stays
    | (extract_lets)
    | split
    | with_reducible apply PStays.pair
    | (with_reducible refine PStays.eq (by assumption) ?_))

theorem execMonUnlock_stays {w_ : List Part} {z s : State} (line : List Nat) (hw : Has [.mgt, .out, .free] w_) (hk : Stays w_ z s)
    : OutStays w_ z (execMonUnlock line s) := by
  unfold execMonUnlock
  repeat' (first
    | with_reducible assumption
    | with_reducible exact Has.sub hw (by decide)
    | with_reducible exact Has.mem hw (by decide)
    | intro _
    | with_reducible apply OutStays.ite
    | with_reducible apply Stays.ite
    | with_reducible apply PStays.fst
    | with_reducible apply QStays.snd
    | with_reducible apply State.draw_staysQ
    | with_reducible apply OutStays.next
    | with_reducible apply State.draw_stays
    | with_reducible apply State.monitow_stays
    | with_reducible apply State.onMon_stays
    | (extract_lets)
    | split
    | with_reducible apply PStays.pair
    | with_reducible apply QStays.pair
    | (with_reducible refine PStays.eq (by assumption) ?_)
    | (with_reducible refine QStays.eq (by assumption) ?_))

theorem State.monFail_stays {w_ : List Part} {z s : State} (hw : Has [.glb, .ctrs, .srcs, .banks, .hif, .mgt, .out] w_) (hk :
    Stays w_ z s) : Stays w_ z (State.monFail s) := by
  unfold State.monFail
  repeat' (first
    | with_reducible assumption
    | with_reducible exact Has.sub hw (by decide)
    | with_reducible exact Has.mem hw (by decide)
    | intro _
    | with_reducible apply Stays.ite
    | with_reducible apply State.bump_stays
    | with_reducible apply State.onMon_stays
    | with_reducible apply State.raise_stays
    | (extract_lets)
    | split)

theorem State.monResp_stays {w_ : List Part} {z s : State} (r : Nat) (hw : Has [.glb, .ctrs, .srcs, .banks, .hif, .mgt, .out] w_)
    (hk : Stays w_ z s) : PStays w_ z (State.monResp s r) := by
  unfold State.monResp
  repeat' (first
    | with_reducible assumption
    | with_reducible exact Has.sub hw (by decide)
    | with_reducible exact Has.mem hw (by decide)
    | intro _
    | with_reducible apply PStays.ite
    | with_reducible apply Stays.ite
    | with_reducible apply PStays.fst
    | with_reducible apply State.bump_stays
    | with_reducible apply State.monFail_stays
    | with_reducible apply State.onMon_stays
    | (extract_lets)
    | split
    | with_reducible apply PStays.pair
    | (with_reducible refine PStays.eq (by assumption) ?_))

theorem execMonResp_stays {w_ : List Part} {z s : State} (line : List Nat) (hw : Has [.glb, .ctrs, .srcs, .banks, .hif, .mgt,
    .out] w_) (hk : Stays w_ z s) : OutStays w_ z (execMonResp line s) := by
  unfold execMonResp
  repeat' (first
    | with_reducible assumption
    | with_reducible exact Has.sub hw (by decide)
    | with_reducible exact Has.mem hw (by decide)
    | intro _
    | with_reducible apply PStays.fst
    | with_reducible apply OutStays.next
    | with_reducible apply State.monResp_stays
    | with_reducible apply State.monitow_stays
    | (extract_lets)
    | split
    | with_reducible apply PStays.pair
    | (with_reducible refine PStays.eq (by assumption) ?_))

theorem execMonLock_stays {w_ : List Part} {z s : State} (line : List Nat) (hw : Has [.mgt, .out] w_) (hk : Stays w_ z s) :
    OutStays w_ z (execMonLock line s) := by
  unfold execMonLock
  repeat' (first
    | with_reducible assumption
    | with_reducible exact Has.sub hw (by decide)
    | with_reducible exact Has.mem hw (by decide)
    | intro _
    | with_reducible apply PStays.fst
    | with_reducible apply OutStays.next
    | with_reducible apply State.monitow_stays
    | with_reducible apply State.onMon_stays
    | (extract_lets)
    | split
    | with_reducible apply PStays.pair
    | (with_reducible refine PStays.eq (by assumption) ?_))

theorem execMonBaud_stays {w_ : List Part} {z s : State} (line : List Nat) (hw : Has [.mgt, .out] w_) (hk : Stays w_ z s) :
    OutStays w_ z (execMonBaud line s) := by
  unfold execMonBaud
  repeat' (first
    | with_reducible assumption
    | with_reducible exact Has.sub hw (by decide)
    | with_reducible exact Has.mem hw (by decide)
    | intro _
    | with_reducible apply OutStays.ite
    | with_reducible apply Stays.ite
    | with_reducible apply PStays.fst
    | with_reducible apply OutStays.next
    | with_reducible apply State.monitow_stays
    | with_reducible apply State.onMon_stays
    | (extract_lets)
    | split
    | with_reducible apply PStays.pair
    | (with_reducible refine PStays.eq (by assumption) ?_))

theorem execMonMcrun_stays {w_ : List Part} {z s : State} (line : List Nat) (hw : Has [.glb, .regs, .ctrs, .srcs, .banks, .hif,
    .trn, .lck, .mgt, .xlt, .out, .free] w_) (hk : Stays w_ z s) : OutStays w_ z (execMonMcrun line s) := by
  unfold execMonMcrun
  repeat' (first
    | with_reducible assumption
    | with_reducible exact Has.sub hw (by decide)
    | with_reducible exact Has.mem hw (by decide)
    | intro _
    | with_reducible apply OutStays.ite
    | with_reducible apply Stays.ite
    | with_reducible apply PStays.fst
    | with_reducible apply OutStays.next
    | with_reducible apply State.mcCtrlWrite_stays
    | with_reducible apply State.monitow_stays
    | (extract_lets)
    | split
    | with_reducible apply PStays.pair
    | (with_reducible refine PStays.eq (by assumption) ?_))

theorem execMonFuse_stays {w_ : List Part} {z s : State} (line : List Nat) (ok : Bool) (hw : Has [.glb, .regs, .ctrs, .srcs,
    .banks, .lnk, .hif, .bst, .mgt, .out] w_) (hk : Stays w_ z s) : OutStays w_ z (execMonFuse line ok s) := by
  unfold execMonFuse
  repeat' (first
    | with_reducible assumption
    | with_reducible exact Has.sub hw (by decide)
    | with_reducible exact Has.mem hw (by decide)
    | intro _
    | with_reducible apply OutStays.ite
    | with_reducible apply Stays.ite
    | with_reducible apply PStays.fst
    | with_reducible apply OutStays.next
    | with_reducible apply State.bstCmd_stays
    | with_reducible apply State.monitow_stays
    | (extract_lets)
    | split
    | with_reducible apply PStays.pair
    | (with_reducible refine PStays.eq (by assumption) ?_))

theorem execMonLineInvalid_stays {w_ : List Part} {z s : State} (line : List Nat) (hw : Has [.mgt, .out] w_) (hk : Stays w_ z s) :
    OutStays w_ z (execMonLineInvalid line s) := by
  unfold execMonLineInvalid
  repeat' (first
    | with_reducible assumption
    | with_reducible exact Has.sub hw (by decide)
    | with_reducible exact Has.mem hw (by decide)
    | intro _
    | with_reducible apply OutStays.ite
    | with_reducible apply Stays.ite
    | with_reducible apply OutStays.next
    | with_reducible apply State.monHeaw_stays
    | with_reducible apply State.monSay_stays
    | (extract_lets)
    | split)

theorem execMonitorIdleTimeout_stays {w_ : List Part} {z s : State} (hw : Has [.mgt] w_) (hk : Stays w_ z s) : OutStays w_ z
    (execMonitorIdleTimeout s) := by
  unfold execMonitorIdleTimeout
  repeat' (first
    | with_reducible assumption
    | with_reducible exact Has.sub hw (by decide)
    | with_reducible exact Has.mem hw (by decide)
    | intro _
    | with_reducible apply OutStays.ite
    | with_reducible apply Stays.ite
    | with_reducible apply OutStays.next
    | with_reducible apply State.onMon_stays
    | (extract_lets)
    | split)

theorem execUnlockLockoutEnd_stays {w_ : List Part} {z s : State} (hw : Has [.mgt] w_) (hk : Stays w_ z s) : OutStays w_ z
    (execUnlockLockoutEnd s) := by
  unfold execUnlockLockoutEnd
  repeat' (first
    | with_reducible assumption
    | with_reducible exact Has.sub hw (by decide)
    | with_reducible exact Has.mem hw (by decide)
    | intro _
    | with_reducible apply OutStays.ite
    | with_reducible apply Stays.ite
    | with_reducible apply OutStays.next
    | with_reducible apply State.onMon_stays
    | (extract_lets)
    | split)

end Sys2Proof.Machine
end

