-- ==== Sys2Proof/Laws/StaysSysCmd.lean ====
section
/-! SUPPORT. Laws/Stays.lean, for the operations of Machine/SysCmd.lean. -/
namespace Sys2Proof.Machine

theorem State.fusedRepairs_stays {w_ : List Part} {z s : State} (hw : Has [.regs] w_) (hk : Stays w_ z s) : Stays w_ z
    (State.fusedRepairs s) := by
  unfold State.fusedRepairs
  repeat' (first
    | with_reducible assumption
    | with_reducible exact Has.sub hw (by decide)
    | with_reducible exact Has.mem hw (by decide)
    | intro _
    | with_reducible apply Stays.ite
    | with_reducible apply Stays.foldl
    | with_reducible apply PStays.foldl
    | with_reducible apply QStays.foldl
    | with_reducible apply State.put_stays
    | with_reducible apply State.setWord_stays
    | (extract_lets)
    | split)

theorem State.romFail_stays {w_ : List Part} {z s : State} (cls unit : Nat) (fails : List (Nat × Nat)) (hw : Has [.glb, .regs,
    .ctrs, .srcs, .banks, .hif, .out, .free] w_) (hk : Stays w_ z s) : Stays w_ z (State.romFail s cls unit fails) := by
  unfold State.romFail
  repeat' (first
    | with_reducible assumption
    | with_reducible exact Has.sub hw (by decide)
    | with_reducible exact Has.mem hw (by decide)
    | intro _
    | with_reducible apply Stays.ite
    | with_reducible apply State.addRecord_stays
    | with_reducible apply State.askFence_stays
    | with_reducible apply State.softRepaiw_stays
    | (extract_lets)
    | split)

theorem execRomSelfTestDone_stays {w_ : List Part} {z s : State} (fails : List (Nat × Nat × List (Nat × Nat))) (hw : Has [.glb,
    .regs, .ctrs, .srcs, .banks, .hif, .out, .free] w_) (hk : Stays w_ z s) : OutStays w_ z (execRomSelfTestDone fails s) := by
  unfold execRomSelfTestDone
  repeat' (first
    | with_reducible assumption
    | with_reducible exact Has.sub hw (by decide)
    | with_reducible exact Has.mem hw (by decide)
    | intro _
    | with_reducible apply OutStays.ite
    | with_reducible apply Stays.ite
    | with_reducible apply Stays.foldl
    | with_reducible apply PStays.foldl
    | with_reducible apply QStays.foldl
    | with_reducible apply PStays.fst
    | with_reducible apply QStays.snd
    | with_reducible apply State.draw_staysQ
    | with_reducible apply OutStays.next
    | with_reducible apply State.fusedRepairs_stays
    | with_reducible apply State.put_stays
    | with_reducible apply State.romFail_stays
    | (extract_lets)
    | split
    | with_reducible apply PStays.pair
    | with_reducible apply QStays.pair
    | (with_reducible refine PStays.eq (by assumption) ?_)
    | (with_reducible refine QStays.eq (by assumption) ?_))

theorem State.setRail_stays {w_ : List Part} {z s : State} (r : Nat) (good : Bool) (hw : Has [.glb] w_) (hk : Stays w_ z s) :
    Stays w_ z (State.setRail s r good) := by
  unfold State.setRail
  repeat' (first
    | with_reducible assumption
    | with_reducible exact Has.sub hw (by decide)
    | with_reducible exact Has.mem hw (by decide)
    | intro _
    | with_reducible apply Stays.ite
    | (extract_lets)
    | split
    | with_reducible apply Stays.set_glb)

theorem execRailWithinLimits_stays {w_ : List Part} {z s : State} (rail : Nat) (hw : Has [.glb] w_) (hk : Stays w_ z s) : OutStays
    w_ z (execRailWithinLimits rail s) := by
  unfold execRailWithinLimits
  repeat' (first
    | with_reducible assumption
    | with_reducible exact Has.sub hw (by decide)
    | with_reducible exact Has.mem hw (by decide)
    | intro _
    | with_reducible apply OutStays.ite
    | with_reducible apply Stays.ite
    | with_reducible apply OutStays.next
    | with_reducible apply State.setRail_stays
    | (extract_lets)
    | split)

theorem execHostPortReset_stays {w_ : List Part} {z s : State} (h : Nat) (perst : Bool) (hw : Has [.glb, .regs, .ctrs, .srcs,
    .banks, .lnk, .rte, .sch, .hif, .trn, .mch, .rma, .lck, .brg, .col, .bst, .mgt, .xlt, .out, .free] w_) (hk : Stays w_ z s) :
    OutStays w_ z (execHostPortReset h perst s) := by
  unfold execHostPortReset
  repeat' (first
    | with_reducible assumption
    | with_reducible exact Has.sub hw (by decide)
    | with_reducible exact Has.mem hw (by decide)
    | intro _
    | with_reducible apply OutStays.ite
    | with_reducible apply Stays.ite
    | with_reducible apply OutStays.next
    | with_reducible apply State.hostPortReset_stays
    | (extract_lets)
    | with_reducible apply Stays.set_glb
    | split)

theorem execPerstNDeassert_stays {w_ : List Part} {z s : State} (h status vfs : Nat) (hw : Has [.glb, .hif] w_) (hk : Stays w_ z
    s) : OutStays w_ z (execPerstNDeassert h status vfs s) := by
  unfold execPerstNDeassert
  repeat' (first
    | with_reducible assumption
    | with_reducible exact Has.sub hw (by decide)
    | with_reducible exact Has.mem hw (by decide)
    | intro _
    | with_reducible apply OutStays.ite
    | with_reducible apply Stays.ite
    | with_reducible apply Stays.foldl
    | with_reducible apply PStays.foldl
    | with_reducible apply QStays.foldl
    | with_reducible apply OutStays.next
    | (extract_lets)
    | split
    | with_reducible apply Stays.set_glb
    | with_reducible apply Stays.set_glb_hif
    | with_reducible apply Stays.set_glb_hif)

theorem State.overrun_stays {w_ : List Part} {z s : State} (hw : Has [.glb, .ctrs, .srcs, .banks, .hif, .out] w_) (hk : Stays w_ z
    s) : Stays w_ z (State.overrun s) := by
  unfold State.overrun
  repeat' (first
    | with_reducible assumption
    | with_reducible exact Has.sub hw (by decide)
    | with_reducible exact Has.mem hw (by decide)
    | intro _
    | with_reducible apply State.bump_stays
    | with_reducible apply State.raise_stays
    | (extract_lets)
    | split)

theorem State.courseWork_stays {w_ : List Part} {z s : State} (own : Nat) (hw : Has [.glb, .ctrs, .srcs, .banks, .rte, .sch, .hif,
    .bst, .out, .free] w_) (hk : Stays w_ z s) : Stays w_ z (State.courseWork s own) := by
  unfold State.courseWork
  repeat' (first
    | with_reducible assumption
    | with_reducible exact Has.sub hw (by decide)
    | with_reducible exact Has.mem hw (by decide)
    | intro _
    | with_reducible apply Stays.ite
    | with_reducible apply State.installMap_stays
    | with_reducible apply State.refill_stays
    | with_reducible apply State.sendCongRows_stays
    | with_reducible apply State.sweepStart_stays
    | (extract_lets)
    | split)

theorem State.relayOverrun_stays {w_ : List Part} {z s : State} (hw : Has [.glb, .ctrs, .srcs, .banks, .rte, .sch, .hif, .out] w_)
    (hk : Stays w_ z s) : Stays w_ z (State.relayOverrun s) := by
  unfold State.relayOverrun
  repeat' (first
    | with_reducible assumption
    | with_reducible exact Has.sub hw (by decide)
    | with_reducible exact Has.mem hw (by decide)
    | intro _
    | with_reducible apply Stays.ite
    | with_reducible apply State.overrun_stays
    | with_reducible apply State.sendCongCols_stays
    | (extract_lets)
    | split)

theorem State.fenceCourse_stays {w_ : List Part} {z s : State} (hw : Has [.ctrs, .phy, .out, .free] w_) (hk : Stays w_ z s) :
    Stays w_ z (State.fenceCourse s) := by
  unfold State.fenceCourse
  repeat' (first
    | with_reducible assumption
    | with_reducible exact Has.sub hw (by decide)
    | with_reducible exact Has.mem hw (by decide)
    | intro _
    | with_reducible apply Stays.ite
    | with_reducible apply Stays.foldl
    | with_reducible apply PStays.foldl
    | with_reducible apply QStays.foldl
    | with_reducible apply State.sendFence_stays
    | (extract_lets)
    | split)

theorem State.courseBoundary_stays {w_ : List Part} {z s : State} (hw : Has [.glb, .crs, .ctrs, .srcs, .banks, .phy, .lnk, .rte,
    .sch, .hif, .bst, .out, .free] w_) (hk : Stays w_ z s) : Stays w_ z (State.courseBoundary s) := by
  unfold State.courseBoundary
  extract_lets own skip s1 s2 s3 s4 s5 s6
  have h1 : Stays w_ z s1 := State.setTime_stays _ _ (fun _ => by decide) (hw.sub (by decide)) (State.pass_stays _ (hw.sub (by decide)) hk)
  have h2 : Stays w_ z s2 := Stays.ite (fun _ => State.overrun_stays (hw.sub (by decide)) h1) (fun _ => h1)
  have h3 : Stays w_ z s3 := Stays.foldl (State.countRuns_stays (hw.sub (by decide)) h2) (fun _ _ h => State.onLk_stays _ _ (hw.sub (by decide)) h)
  have h4 : Stays w_ z s4 := Stays.ite (fun _ => State.relayOverrun_stays (hw.sub (by decide)) h3) (fun _ => h3)
  have h5 : Stays w_ z s5 := State.courseLevels_stays (hw.sub (by decide)) h4
  have h6 : Stays w_ z s6 := Stays.ite (fun _ => State.courseWork_stays _ (hw.sub (by decide)) h5) (fun _ => h5)
  clear_value s6
  exact State.fenceCourse_stays (hw.sub (by decide)) (Stays.ite (fun _ => Stays.set_rte h6 (hw.mem (by decide))) (fun _ => h6))

theorem execReferenceLoss_stays {w_ : List Part} {z s : State} (hw : Has [.glb, .ctrs, .srcs, .banks, .hif, .out] w_) (hk : Stays
    w_ z s) : OutStays w_ z (execReferenceLoss s) := by
  unfold execReferenceLoss
  repeat' (first
    | with_reducible assumption
    | with_reducible exact Has.sub hw (by decide)
    | with_reducible exact Has.mem hw (by decide)
    | intro _
    | with_reducible apply OutStays.ite
    | with_reducible apply Stays.ite
    | with_reducible apply OutStays.next
    | with_reducible apply State.level_stays
    | (extract_lets)
    | split)

theorem execSwapTakeEffect_stays {w_ : List Part} {z s : State} (hw : Has [.glb, .crs, .ctrs, .srcs, .banks, .phy, .lnk, .rte,
    .sch, .hif, .col, .out, .free] w_) (hk : Stays w_ z s) : OutStays w_ z (execSwapTakeEffect s) := by
  unfold execSwapTakeEffect
  repeat' (first
    | with_reducible assumption
    | with_reducible exact Has.sub hw (by decide)
    | with_reducible exact Has.mem hw (by decide)
    | intro _
    | with_reducible apply OutStays.ite
    | with_reducible apply Stays.ite
    | with_reducible apply OutStays.next
    | with_reducible apply State.swapNow_stays
    | (extract_lets)
    | split)

theorem execCopyDone_stays {w_ : List Part} {z s : State} (hw : Has [.glb, .crs, .regs, .sets, .ctrs, .srcs, .banks, .hif, .col,
    .out] w_) (hk : Stays w_ z s) : OutStays w_ z (execCopyDone s) := by
  unfold execCopyDone
  repeat' (first
    | with_reducible assumption
    | with_reducible exact Has.sub hw (by decide)
    | with_reducible exact Has.mem hw (by decide)
    | intro _
    | with_reducible apply OutStays.ite
    | with_reducible apply Stays.ite
    | with_reducible apply OutStays.next
    | with_reducible apply State.copyDone_stays
    | (extract_lets)
    | split)

theorem execShadowBusyEnd_stays {w_ : List Part} {z s : State} (hw : Has [.crs] w_) (hk : Stays w_ z s) : OutStays w_ z
    (execShadowBusyEnd s) := by
  unfold execShadowBusyEnd
  repeat' (first
    | with_reducible assumption
    | with_reducible exact Has.sub hw (by decide)
    | with_reducible exact Has.mem hw (by decide)
    | intro _
    | with_reducible apply OutStays.ite
    | with_reducible apply Stays.ite
    | with_reducible apply OutStays.next
    | (extract_lets)
    | split
    | with_reducible apply Stays.set_crs)

theorem execFencePeriodEnd_stays {w_ : List Part} {z s : State} (hw : Has [.glb, .crs, .ctrs, .srcs, .banks, .phy, .lnk, .rte,
    .sch, .hif, .col, .out, .free] w_) (hk : Stays w_ z s) : OutStays w_ z (execFencePeriodEnd s) := by
  unfold execFencePeriodEnd
  repeat' (first
    | with_reducible assumption
    | with_reducible exact Has.sub hw (by decide)
    | with_reducible exact Has.mem hw (by decide)
    | intro _
    | with_reducible apply OutStays.ite
    | with_reducible apply Stays.ite
    | with_reducible apply Stays.foldl
    | with_reducible apply PStays.foldl
    | with_reducible apply QStays.foldl
    | with_reducible apply OutStays.next
    | with_reducible apply State.lanesOff_stays
    | with_reducible apply State.linkDown_stays
    | (extract_lets)
    | split
    | with_reducible apply Stays.set_glb)

theorem execThermalConversion_stays {w_ : List Part} {z s : State} (k temp : Nat) (hw : Has [.glb, .ctrs, .srcs, .banks, .hif,
    .out] w_) (hk : Stays w_ z s) : OutStays w_ z (execThermalConversion k temp s) := by
  unfold execThermalConversion
  repeat' (first
    | with_reducible assumption
    | with_reducible exact Has.sub hw (by decide)
    | with_reducible exact Has.mem hw (by decide)
    | intro _
    | with_reducible apply OutStays.ite
    | with_reducible apply Stays.ite
    | with_reducible apply OutStays.next
    | with_reducible apply State.level_stays
    | (extract_lets)
    | split
    | with_reducible apply Stays.set_glb)

end Sys2Proof.Machine
end

