-- ==== Sys2Proof/Laws/StaysTick.lean ====
section
/-! SUPPORT. Laws/Stays.lean, for the operations of Machine/Tick.lean. -/
namespace Sys2Proof.Machine

theorem State.sampleGpio_stays {w_ : List Part} {z s : State} (hw : Has [.glb, .ctrs, .srcs, .banks, .hif, .out] w_) (hk : Stays
    w_ z s) : Stays w_ z (State.sampleGpio s) := by
  unfold State.sampleGpio
  repeat' (first
    | with_reducible assumption
    | with_reducible exact Has.sub hw (by decide)
    | with_reducible exact Has.mem hw (by decide)
    | intro _
    | with_reducible apply State.level_stays
    | (extract_lets)
    | split
    | with_reducible apply Stays.set_glb)

theorem State.countStalls_stays {w_ : List Part} {z s : State} (hw : Has [.ctrs, .sch] w_) (hk : Stays w_ z s) : Stays w_ z
    (State.countStalls s) := by
  unfold State.countStalls
  repeat' (first
    | with_reducible assumption
    | with_reducible exact Has.sub hw (by decide)
    | with_reducible exact Has.mem hw (by decide)
    | intro _
    | with_reducible apply Stays.ite
    | with_reducible apply Stays.foldl
    | with_reducible apply PStays.foldl
    | with_reducible apply QStays.foldl
    | with_reducible apply State.bumpIf_stays
    | with_reducible apply State.noteGates_stays
    | (extract_lets)
    | split)

end Sys2Proof.Machine
end

