-- ==== Sys2Proof/Tests/Slice0.lean ====
section
/-! SUPPORT. The package's own tests: WellFormed refuses an ill-formed command for each of its checks, and for every statement that
has hypotheses a state and operands that meet them, clause by clause, at the edges of their ranges. -/
set_option Elab.async false
namespace Sys2Proof.Tests
open Sys2Proof Sys2Proof.Machine

/-! ### Well-formed commands -/

/-- Numbers out of range, one for each operand check of WellFormed. -/
theorem test_wf_refuses_numbers :
    [Instr.frameLock 128, .resetDeassert 4 false false, .registerWrite (.fn 1024) 0 4 0, .registerWrite (.mc 4) 0 4 0, .registerWrite .fm (2 ^ 26) 4 0,
     .registerWrite .fm 0 0 0, .registerWrite .fm 0 9 0, .registerWrite .fm 0 4 (2 ^ 32), .faultForce .fm 0 0 0, .faultForce .fm 18 0 0,
     .faultForce .fm 1 32 0, .eventsLost 1024, .eventsLost 0x1004, .sequencedBrickRx 0 16 0 0 ⟨0, 0⟩, .abortBrickRx 0 (2 ^ 14) 0 0,
     .bar4Read 0 0 4097 0 0, .bar4Read 0 0 1 (2 ^ 14) 0, .bar4Read 0 0 1 0 3, .bar4Write 0 0 ⟨1, 0⟩ 2].all (fun c => !c.wf) = true := by decide
set_option exponentiation.threshold 6000 in
/-- Lists and records out of range. -/
theorem test_wf_refuses_records :
    [Instr.contextLoad 0 (.data ⟨1, 256⟩), .contextLoad 0 (.error 0), .contextLoad 0 (.error 5), .transportSend 0 ⟨[(4, 0)], []⟩,
     .transportSend 0 ⟨[(8, 2 ^ 64)], []⟩, .transportSend 0 ⟨[], [(0, 5)]⟩, .monHelp [256], .codewordRx 0 (2 ^ 5140) 0, .codewordRx 0 0 (2 ^ 300), .prbsCheckerLock 0 1 0 0 2,
     .lowHalfRead .fm ⟨1, 0⟩ 4, .sqDoorbell 1 (2 ^ 18) 8 0, .eqDoorbell 0 16 9 0, .cqDoorbell 0 8 4 (2 ^ 32),
     .testComplete 0 [(2, 0)], .testComplete 0 [(0, 2 ^ 16)], .romSelfTestDone [(16, 0, [])], .romSelfTestDone [(0, 2 ^ 10, [])],
     .romSelfTestDone [(0, 0, [(2, 0)])], .bootFetchComplete [3],
     .courseMarkRx 0 ⟨2 ^ 20, 0, 0, false, 0, 0, 0, 0, false, 0, false⟩, .courseMarkRx 0 ⟨0, 0, 0, false, 0, 0, 0, 0, false, 4, false⟩,
     .markerRx 0 ⟨4, 0, 0, 0, 0, 0, false, 0, 0⟩, .markerRx 0 ⟨0, 0, 64, 0, 0, 0, false, 0, 0⟩, .cellAcquire (.entry 131072),
     .cellAcquire (.reg .fm 1024 0 0), .cellAcquire (.reg .fm 0 128 0), .cellAcquire (.reg .fm 0 0 4096), .flAcquire (.entry 131072),
     .flAcquire (.cmd (.mc 4))].all (fun c => !c.wf) = true := by decide
set_option exponentiation.threshold 6000 in
/-- The same commands at the largest values their ranges admit. -/
theorem test_wf_accepts :
    [Instr.frameLock 127, .resetDeassert 3 true true, .registerWrite (.fn 1023) (2 ^ 26 - 4) 8 (2 ^ 64 - 1), .faultForce (.mc 3) 17 31 (2 ^ 32 - 1),
     .eventsLost 0x1003, .bar4Read 1023 0 4096 (2 ^ 14 - 1) 2, .contextLoad (2 ^ 34 - 1) (.error 4), .monHelp [255],
     .codewordRx 127 (2 ^ 5140 - 1) (2 ^ 300 - 1), .prbsCheckerLock 127 1 1 1 1, .lowHalfRead .fm ⟨2, 0⟩ 8, .sqDoorbell 1023 (2 ^ 18 - 4096) 8 (2 ^ 64 - 1),
     .cellAcquire (.reg .monitor 1023 127 4095), .flAcquire (.cmd .monitor)].all (fun c => c.wf) = true := by decide

/-! ### States for the witnesses -/

/-- The reset state in another mode. -/
def inMode (m : Mode) : State := { State.reset with mode := m }
/-- SERVICE in a course, at a cycle. -/
def at_ (course : Course) (cycle : Nat) : State := { inMode .service with crs := { Crs.reset with course := course, cycle := cycle } }
/-- A register access that a management core makes. -/
abbrev mc0 : Requester := .mc 0

/-! ### The block as a whole, resets and modes -/

theorem wit_StepRunsTheFrontCommand :
    ({ State.reset with pending := [.aligned, .modeChange] } : State).pending = .aligned :: [.modeChange] := by decide
theorem wit_IdleStepIsOneCycle : (inMode .off).pending = [] ∧ (inMode .off).mode = .off ∧ State.reset.pending = [] ∧ State.reset.mode = .strap ∧
    State.reset.glb.fencePend = none ∧ (at_ 9 1279).pending = [] ∧ (at_ 9 1279).counting = true ∧ (at_ 9 1279).crs.cycle = 1279 ∧
    (at_ 9 1278).crs.cycle < 1279 ∧ (at_ 9 1279).nextCycle.srcs.all (fun e => !e.2.due) = true ∧ State.reset.nextCycle.srcs.all (fun e => !e.2.due) = true ∧
    (at_ 9 0).nextCycle.srcs.all (fun e => !e.2.due) = true ∧ (at_ 9 0).crs.cycle = 0 ∧ (at_ 9 0).swapDue = false ∧ (at_ 9 0).glb.fencePend = none ∧ (at_ 9 0).modeDue = false ∧
    (at_ 9 0).stepDue = false ∧ (at_ 9 0).followDue = none := by decide +kernel
/-- A core cycle later, for what is timed in core cycles. -/
def beats (n : Nat) (s : State) : State := { s with phy := { s.phy with beats := n } }
theorem wit_StepKeepsTables : canonical State.reset ∧ clockOk State.reset ∧ ∃ t, step State.reset = .next t :=
  ⟨reset_canonical, reset_clockOk, _, rfl⟩
theorem wit_StepTakesOneCommand : ∃ t, step { State.reset with pending := [.aligned] } = .next t := ⟨_, rfl⟩
theorem wit_ModesMoveAsListed : ∃ t, step { inMode .off with pending := [.resetDeassert 3 true false] } = .next t ∧ t.mode = .strap := ⟨_, rfl, by decide⟩
theorem wit_LocksHold : ∃ s : State, s.glb.lock = true ∧ s.glb.trip = true ∧ s.pending.head? ≠ some .resetNAssert ∧
    (∀ r, s.pending.head? ≠ some (.railOutOfLimits r)) ∧ ∃ t, step s = .next t :=
  ⟨{ State.reset with glb := { Glb.reset with lock := true, trip := true } }, by decide, by decide, by decide, by simp [State.reset], _, rfl⟩
theorem wit_CounterWraps : ({ State.reset with ctrs := [(8, 0xFFFFFFFFFFFFFFFF)] } : State).ctr 8 = 0xFFFFFFFFFFFFFFFF := by decide
theorem wit_SerialComparison : serialCmp 0x3FFF 0 14 = .before ∧ serialCmp 0 0x2000 14 = .unordered ∧ serialCmp 0 0x2001 14 = .after ∧
    serialCmp 1 1 1 = .equal := by decide
theorem wit_ResetAndStrap : State.reset.mode ≠ .off ∧ (inMode .off).mode = .off ∧ (inMode .off).railsGood = true ∧ 1 < 2 := by decide
theorem wit_FullReset : State.reset.canAccess .fm = true ∧ Requester.privileged .fm = true ∧ bits 0xD1E50001 16 16 = 0xD1E5 ∧ bit 0xD1E50001 0 = true ∧
    State.reset.liveBit 3 = false ∧ ¬ (bits 0xD1E50000 16 16 = 0xD1E5 ∧ bit 0xD1E50000 0 = true ∧ State.reset.liveBit 3 = false) := by decide
theorem wit_HostPortReset : State.reset.hpPresent 2 = true ∧ State.reset.mode ≠ .off ∧
    ({ State.reset with glb := { Glb.reset with perstN := Glb.reset.perstN.set 2 true } } : State).hpPresent 2 = true := by decide
theorem wit_SelfTest : State.reset.mode = .strap ∧ State.reset.g Reg.GLB_BOOT_STATUS.stage < 3 ∧ State.reset.glb.fencePend = none ∧
    1840 ≤ signed (1840 % 65536) 16 ∧ signed (1839 % 65536) 16 < 1840 := by decide
theorem wit_ModeRequestRecorded : mayConfigure (inMode .monitor) mc0 Reg.GLB_MODE_REQ.off := by unfold mayConfigure; decide
/-- A request for TRAIN in MONITOR, and one for SERVICE there, at the boundary after it was made. -/
def sModeRequests : State := { inMode .monitor with glb := { Glb.reset with reqPending := true, target := 3, reqCourse := 7 }, crs := { Crs.reset with course := 8 } }
theorem wit_ModeRequests :
    sModeRequests.glb.reqPending = true ∧ sModeRequests.counting = true ∧ sModeRequests.mode ≠ .fenced ∧ sModeRequests.crs.cycle = 0 ∧ sModeRequests.glb.reqCourse ≠ sModeRequests.crs.course ∧ sModeRequests.swapDue = false ∧ sModeRequests.fenceDue = false ∧
    sModeRequests.glb.reqOld = none ∧ sModeRequests.modeOk sModeRequests.glb.target = true ∧ sModeRequests.modeOk 5 = false ∧
    ({ sModeRequests with glb := { sModeRequests.glb with reqOld := some 3 } } : State).modeOk 3 = true ∧
    ({ at_ 0 0 with crs := { Crs.reset with armed := true } } : State).swapDue = true ∧ (at_ 0 0).mode ≠ .strap := by decide
def sFencedDevice : State := { at_ 9 0 with glb := { Glb.reset with fencePend := some 1, fenceAsk := 8 } }
theorem wit_FencedDevice :
    sFencedDevice.glb.fencePend = some 1 ∧ sFencedDevice.fenceDue = true ∧ sFencedDevice.mode ≠ .fenced ∧ sFencedDevice.mode ≠ .off := by decide
def sFencePeriod : State := { inMode .fenced with crs := { Crs.reset with course := 16 } }
theorem wit_FencePeriod :
    sFencePeriod.mode = .fenced ∧ sFencePeriod.glb.fenceTxOff = false ∧ sFencePeriod.since sFencePeriod.glb.fenceFrom ≥ 16 ∧ sFencePeriod.accessOk .fm 0x18 4 = true ∧
    bar0Off .fm 0x1C ≠ Reg.GLB_RESET_CTRL.off ∧ sFencePeriod.canAccess .fm = true ∧ (sFencePeriod.barRead .fm 0x10 4).2 < 2 ^ (8 * 4) := by decide
theorem wit_DeviceId : mayConfigure (inMode .train) .fm Reg.GLB_DEVICE_ID.off ∧ (inMode .train).rwlOpen = true ∧ bits 0x40000 18 2 ≠ 0 ∧
    bits 0x3FFFF 18 2 = 0 ∧ ({ inMode .train with glb := { Glb.reset with lock := true } } : State).rwlOpen = false := by unfold mayConfigure; decide
theorem wit_SetupLock : mayConfigure State.reset .monitor Reg.GLB_SETUP_LOCK.off := by unfold mayConfigure; decide
/-- A location holds a register without a behaviour of its own, with index `i`, that the requester may write. -/
def plainAt (s : State) (req : Requester) (off : Nat) (may : Bool) : Bool :=
  match s.loc req off with
  | .reg d i _ _ => !d.shadowed && !ownBehaviour.contains d.id && State.mayWrite req d i == may
  | _ => false
/-- GLB_GPIO_CTRL by MC3, BRG_FN_CFG by its own VF, and BRG_FN_CFG of another function by a PF, which may not write it. -/
theorem wit_PlainRegisterWrites : plainAt (inMode .train) (.mc 3) 0x40 true = true ∧ (inMode .train).canAccess (.mc 3) = true ∧
    plainAt (inMode .train) (.fn 1) 0x78 true = true ∧ (inMode .train).canAccess (.fn 1) = true ∧ bar0Off (.fn 1) 0x78 = 0x440178 ∧
    plainAt (inMode .train) (.fn 0) 0x440178 false = true ∧ (inMode .train).canAccess (.fn 0) = true := by decide
/-- LAN_TRAIN_CFG while its fields are locked: a write that would change them, and one that would not. -/
def sLocked : State := { inMode .service with glb := { Glb.reset with lock := true } }
theorem wit_PlainRegisterLocked : plainAt sLocked mc0 0x100020 true = true ∧ sLocked.rwlOpen = false ∧
    (match locPf 0x100020 with
      | .reg d _ _ w => d.changesRwl w (sLocked.word 0x100020) 0 && !d.changesRwl w (sLocked.word 0x100020) (sLocked.word 0x100020)
      | _ => false) = true := by decide
theorem wit_AccessCodes : ∃ b ∈ blocks, ∃ d ∈ b.regs, ∃ f ∈ d.fields, f.acc = .W1C ∧ (2 ^ 32 - 1 < 2 ^ 32) :=
  ⟨_, .head _, _, .tail _ (.tail _ (.head _)), _, .head _, rfl, by decide⟩
theorem wit_RegisterAccess : (inMode .transit).canAccess (.fn 0x2FF) = true ∧ (inMode .transit).readsHeld (.fn 0x2FF) = false ∧
    hostCore (.fn 0x2FF) 0 = none ∧ hostCore (.mc 3) (2 ^ 32 - 4) = none ∧ (inMode .off).mode = .off ∧ (2 : Nat) ≠ 0 := by decide
/-- MC0's window 7 on the first unit of a device whose host port 0 is present: disabled it stops an access, enabled without bytes it runs one. -/
def sWin7 : State := (inMode .monitor).put (Reg.MGT_HWIN.enable 0 7) 1
theorem wit_HostWindow : (0 : Nat) < 4 ∧ 2 ^ 32 ≤ 2 ^ 35 ∧ (inMode .monitor).coreRuns 0 = true ∧ (inMode .monitor).g (Reg.MGT_HWIN.enable 0 (2 ^ 35 / 2 ^ 32 - 1)) = 0 ∧
    sWin7.g (Reg.MGT_HWIN.enable 0 7) ≠ 0 ∧ sWin7.coreRuns 0 = true ∧ sWin7.unitPresent (sWin7.g (Reg.MGT_HWIN.unit 0 7)) = true ∧
    (sWin7.xlateRun 0 ⟨0, 0, 1, 0, true, false, .access, .core 0 (2 ^ 35)⟩ 0).2 = .run [] := by decide +kernel
theorem wit_PartsReadBack : 2 ^ 26 - 1 < 2 ^ 26 ∧ (0 % 2 ≠ 1 % 2 ∨ (4 : Nat) ≠ 4) := by decide

/-! ### Courses, alignment and the sets -/

def sCrs (c : Crs) : State := { inMode .train with crs := c }
def sFollow : State := sCrs { Crs.reset with follow := some (1, 5, 6), aligned := true, course := 7 }
theorem wit_CoursesAndMarks : (inMode .fenced).counting = true ∧ State.reset.counting = false ∧ State.reset.mode ≠ .off ∧
    (inMode .train).markPort 63 0 = false ∧ sFollow.crs.follow = some (1, 5, 6) ∧ (6 : Course) ≠ sFollow.crs.course ∧
    sFollow.crs.aligned = true ∧ sFollow.crs.cycle = 0 ∧ (at_ 9 1279).courseBoundary.srcs.all (fun e => !e.2.due) = true ∧
    (at_ 9 0).resumeTrees.courseBoundary.srcs.all (fun e => !e.2.due) = true ∧ (at_ 9 0).counting = true ∧ (at_ 9 0).fenceDue = false := by decide +kernel
/-- A device whose parent is port 0 hears that port name the root it follows, aligned or not. -/
def mTwo : Mark := ⟨9, 0, 0, true, 0, 0, 0, 0, true, 1, true⟩
def sParent (al : Bool) : State :=
  (sCrs { Crs.reset with parent := some 0, aligned := al, rootValid := true, rootId := 9, rootRank := 1, rxMarks := [(0, ⟨mTwo, 0, true⟩)] }).setLk 0
    { Lnk.reset with st := .up } |>.put Reg.GLB_DEVICE_ID.device_id 4
theorem wit_ParentMarks : (sParent true).markPort 0 9 = true ∧ (sParent true).isRoot = false ∧ (sParent true).crs.parent = some 0 ∧
    (sParent true).crs.rootId = 9 ∧ ((sParent true).lk 0).st ≠ .down ∧ ((sParent true).lk 0).st ≠ .fencing ∧
    ({ sParent false with crs := { (sParent false).crs with rxMarks := Tbl.ins (sParent false).crs.rxMarks 0 ⟨mTwo, (sParent false).localTicks, true⟩ } } :
      State).followBest.crs.parent = some 0 := by decide +kernel
/-- Device 9, a root of rank 1, hears an aligned device that follows device 5, of the same rank: its mark names the time 0, at which it arrives. -/
def sRoots : State :=
  (((sCrs { Crs.reset with txMarks := [(0, 0)], aligned := true }).put Reg.CRS_ALIGN_CTRL.root 1).put Reg.CRS_ALIGN_CTRL.rank 1).put
    Reg.GLB_DEVICE_ID.device_id 9
def mBetter : Mark := ⟨5, 0, 0, true, 0, 0, 0, 0, true, 1, true⟩
theorem wit_BetterRoot : sRoots.isRoot = true ∧ sRoots.meValid = true ∧ mBetter.aligned = true ∧ mBetter.rootId ≠ sRoots.me ∧
    { sRoots with crs := { sRoots.crs with rxMarks := Tbl.ins sRoots.crs.rxMarks 0 ⟨mBetter, sRoots.localTicks, true⟩ } }.markErr 0 mBetter = some 0 ∧
    (0 : Int).natAbs ≤ 480 ∧ betterRoot (mBetter.rank, mBetter.rootId) (sRoots.g Reg.CRS_ALIGN_CTRL.rank, sRoots.me) = true := by decide
theorem wit_AlignStep : (sCrs { Crs.reset with avgCount := 16 }).crs.avgCount ≥ 16 ∧ (sCrs { Crs.reset with avgCount := 16 }).crs.stepDone = false ∧
    (sCrs { Crs.reset with avgCount := 16 }).crs.aligned = false ∧ (sCrs { Crs.reset with avgCount := 16 }).crs.cycle = 0 ∧
    (sCrs { Crs.reset with avgCount := 16 }).crs.errCourse ≠ some 0 := by decide
def sRoot : State := (inMode .train).put Reg.CRS_ALIGN_CTRL.root 1
theorem wit_Aligned : (sCrs { Crs.reset with stepDone := true, goodRun := 64 }).crs.aligned = false ∧
    (sCrs { Crs.reset with stepDone := true, goodRun := 64 }).crs.stepDone = true ∧ sRoot.isRoot = true ∧ sRoot.counting = true ∧
    sRoot.mode ≠ .monitor ∧ (sCrs { Crs.reset with aligned := true, badRun := 8 }).crs.aligned = true := by decide
theorem wit_TimeRoot : mayConfigure (inMode .service) .fm Reg.CRS_ALIGN_CTRL.off ∧ bit 1 0 = true ∧ bit 0 0 = false := by unfold mayConfigure; decide
/-- S two courses ahead, and one course ahead. -/
def sSwap (c : Crs) (at_ : Nat) : State := (sCrs c).put Reg.CRS_SWAP_AT_LO.course_lo at_
theorem wit_Swaps : mayConfigure (sSwap { Crs.reset with aligned := true } 2) .fm Reg.CRS_SWAP_CTRL.off ∧
    (sSwap { Crs.reset with aligned := true } 2).swapAhead = 2 ∧ (sSwap { Crs.reset with aligned := true } 1).swapAhead = 1 ∧
    (sSwap { Crs.reset with aligned := true } 2).crs.armed = false ∧ (sSwap { Crs.reset with aligned := true } 2).crs.copyBusy = false ∧
    (sSwap { Crs.reset with aligned := true } 2).crs.busyEnd = none ∧ (sSwap { Crs.reset with armed := true } 2).crs.armed = true ∧
    (sSwap { Crs.reset with armed := true } 2).swapAhead = 2 := by
  unfold mayConfigure; decide
theorem wit_SwapRefused : mayConfigure (sSwap { Crs.reset with armed := true } 1) .fm Reg.CRS_SWAP_CTRL.off ∧
    (sSwap { Crs.reset with armed := true } 1).swapAhead < 2 ∧ (sSwap Crs.reset 2).crs.aligned = false ∧
    (sSwap { Crs.reset with aligned := true, copyBusy := true } 2).crs.copyBusy = true := by unfold mayConfigure; decide
theorem wit_SwapTakesEffect : (sSwap { Crs.reset with armed := true } 0).swapDue = true ∧ (sSwap { Crs.reset with armed := true } 0).course = 0 ∧
    (sSwap { Crs.reset with armed := true } 0).swapAt = 0 ∧ (sCrs { Crs.reset with busyEnd := some 1, course := 2 ^ 47 }).since 1 < 2 ^ 47 := by decide
theorem wit_CopyDone : ∃ s : State, s.crs.copyBusy = true ∧ s.crs.active < 2 ∧ canonical s :=
  ⟨{ State.reset with crs := { Crs.reset with copyBusy := true } }, rfl, by decide, reset_canonical⟩
/-- An SH word (RTE_PORT_ROLE of port 63), with the shadow open and while it is being copied. -/
theorem wit_ShadowWrites : mayConfigure (sCrs Crs.reset) .fm (Reg.RTE_PORT_ROLE.off 63) ∧ (sCrs Crs.reset).shadowClosed = false ∧
    (sCrs { Crs.reset with copyBusy := true }).shadowClosed = true ∧
    (match locate (Reg.RTE_PORT_ROLE.off 63), locPf (Reg.RTE_PORT_ROLE.off 63) with
      | some (d, i, j, w), .reg e k l x => d == e && i == k && j == l && w == x && d.shadowed && State.mayWrite .fm d i
      | _, _ => false) = true := by unfold mayConfigure; decide
/-- A COL_TREE word written valid: as a root it is well defined, and with management port 63 as its parent it is not. -/
theorem wit_ShadowWrites_tree : (sCrs Crs.reset).shadow = 1 ∧
    ((sCrs Crs.reset).putSetW 1 (Reg.COL_TREE.off 4095) 0x8FC00000).treeBad 4095 = true ∧
    ((sCrs Crs.reset).putSetW 1 (Reg.COL_TREE.off 4095) 0xC0000000).treeBad 4095 = false ∧
    ((sCrs Crs.reset).putSetW 1 (Reg.COL_TREE.off 4095) 0xC0000000).slotsReserved = 0 := by decide
theorem wit_PortsAndLife : mayConfigure (inMode .train) .fm Reg.RTE_LIFE.off ∧ (inMode .train).rwlOpen = true ∧ 255 % 2 ^ 15 < 256 ∧
    ¬ (256 % 2 ^ 15 < 256 ∨ 16384 < 16384 % 2 ^ 15) := by unfold mayConfigure; decide

/-! ### Lanes and links -/

/-- Lane 127 as given, in TRAIN. -/
def ln127 (l : Lane) : State := (inMode .train).setLn 127 l
def lnReady : Lane := { Lane.reset with st := .taps, rxReady := true, readySent := 16, readyRcvd := 16 }
theorem wit_LaneTraining : ((ln127 { Lane.reset with st := .frame, frameRun := 3 }).ln 127).st = .frame ∧
    3 ≤ ((ln127 { Lane.reset with st := .frame, frameRun := 3 }).ln 127).frameRun ∧
    ((ln127 { Lane.reset with st := .taps, frameLock := true }).ln 127).frameLock = true ∧
    0 + 193 ≤ (beats 193 (inMode .train)).cycles ∧
    ((ln127 { Lane.reset with st := .taps, farReq := 2 }).ln 127).actedReq = 0 ∧ allHold 2 = false ∧ allHold 0 = true ∧
    ((ln127 { Lane.reset with st := .taps, actedReq := 2 }).ln 127).actedReq ≠ 0 ∧ (inMode .train).g Reg.LAN_TRAIN_CFG.snr_min ≤ 175 ∧ 64 ≤ 64 ∧
    174 < (inMode .train).g Reg.LAN_TRAIN_CFG.snr_min ∧ ((ln127 lnReady).ln 127).st = .taps ∧ ((ln127 lnReady).ln 127).txData = false ∧
    16 ≤ ((ln127 lnReady).ln 127).readySent ∧ (ln127 lnReady).commonBoundary 127 = true ∧
    bits (0x100 + fieldCrc 0x100) 0 8 = fieldCrc (0x100 + fieldCrc 0x100) ∧ ¬ bits 0 0 8 = fieldCrc 0 := by decide +kernel
theorem wit_LaneData : ((ln127 { Lane.reset with st := .data }).ln 127).decodes = true ∧ ((ln127 { Lane.reset with st := .data }).ln 127).sends = true ∧
    ((ln127 { Lane.reset with st := .taps, rxReady := true, txData := true, uncorrRun := 8, markerLock := true, markerMiss := 2 }).ln 127).decodes = true ∧
    ((ln127 { Lane.reset with st := .taps, rxReady := true, txData := true, uncorrRun := 8, markerLock := true, markerMiss := 2 }).ln 127).sends = true ∧
    8 ≤ ((ln127 { Lane.reset with st := .data, uncorrRun := 8 }).ln 127).uncorrRun ∧
    ((ln127 { Lane.reset with st := .data, markerLock := true, markerMiss := 2 }).ln 127).markerLock = true ∧
    (beats (16384 * 32) (ln127 { Lane.reset with st := .data })).cycles ≥ 0 + 16384 * 32 := by decide
/-- The codeword of zeros is one. -/
theorem wit_Codeword : ∃ k m, rsDecode ((ln127 { Lane.reset with st := .data }).rxSymbols 127 0) = some (k, m) := by
  have h : (ln127 { Lane.reset with st := .data }).rxSymbols 127 0 = List.replicate 544 0 := by decide +kernel
  exact ⟨_, _, by rw [h]; exact rsDecode_zeros 544⟩
/-- Sixteen symbols in error are more than the code corrects. -/
theorem wit_Uncorrectable : rsDecode ((ln127 { Lane.reset with st := .data }).rxSymbols 127 (2 ^ 5280 * (2 ^ 160 - 1))) = none := by
  have h : (ln127 { Lane.reset with st := .data }).rxSymbols 127 (2 ^ 5280 * (2 ^ 160 - 1)) = List.replicate 528 0 ++ List.replicate 16 341 := by decide +kernel
  rw [h]
  exact rsDecode_none (by rw [rsSyndromes_zeros]; decide +kernel) (by rw [rsSyndromes_zeros]; decide +kernel)

theorem wit_LaneRestarts : ((ln127 { Lane.reset with st := .taps, ownReq := 1 }).ln 127).ownReq ≠ 0 ∧
    ((ln127 { Lane.reset with st := .taps, ownReq := 1 }).ln 127).farTapStatus = 0 ∧
    (beats 49345 (ln127 { Lane.reset with st := .taps, ownReq := 1 })).cycles ≥ 0 + 49345 ∧
    ({ ln127 { Lane.reset with st := .frame } with crs := { Crs.reset with course := 16384 * 16 } } : State).over ⟨0, 0⟩ ≥
      (inMode .train).g Reg.LAN_TRAIN_CFG.limit * 16 ∧
    3 ≤ (inMode .train).g Reg.LAN_TRAIN_CFG.retries ∧ (inMode .train).g Reg.LAN_TRAIN_CFG.retries < 4 ∧
    ((ln127 { Lane.reset with st := .failed }).ln 127).st = .failed ∧ (ln127 { Lane.reset with st := .failed }).mode ≠ .fenced ∧
    ((ln127 { Lane.reset with st := .sleep }).ln 127).st = .sleep ∧ bit ((ln127 { Lane.reset with st := .sleep }).g (Reg.LAN_PT_CTRL.sleep_mask 63)) 1 = false ∧
    ((inMode .train).src (srcPll 15)).real = false ∧ (((inMode .train).level (srcPll 15) true 15).src (srcPll 15)).real = true := by decide
def sTest : State :=
  (((ln127 { Lane.reset with st := .test }).put (Reg.LAN_PT_CTRL.test 63) 1).put (Reg.LAN_LN_PRBS_CTRL.gen_en 127) 1).put
    (Reg.LAN_LN_PRBS_CTRL.inject_rate 127) 7
theorem wit_TestControls : bit 0x80 7 = true ∧ bit 0x7F 7 = false ∧ sTest.testing 63 = true ∧ sTest.prbsOn 127 = true ∧
    sTest.g (Reg.LAN_LN_PRBS_CTRL.inject_rate 127) = 7 ∧ sTest.symbolTime < 0 + 2 ^ (7 + 10) ∧
    0 + 2 ^ (7 + 10) ≤ (beats 1543 sTest).symbolTime ∧ (inMode .train).prbsOn 127 = false ∧
    sLocked.rwlOpen = false ∧ bits 0x10 4 1 ≠ sLocked.g (Reg.LAN_PT_CTRL.force_width1 63) := by decide
/-- A checker that has predicted 63 symbols gains lock with the next; one in lock that has missed 31 loses it with another. -/
theorem wit_Prbs : ((inMode .train).put (Reg.LAN_LN_PRBS_CTRL.chk_en 127) 1).g (Reg.LAN_LN_PRBS_CTRL.chk_en 127) = 1 ∧ (inMode .train).loopback 127 = 0 ∧
    (1 : Nat) ≠ 2 ^ 31 - 1 ∧ 1 % 2 ^ 13 ≠ 0 ∧
    (∀ r, (Lane.check r ({ Lane.reset with chkRun := 63, chkReg := 1 }, 0, 0) (prbsNext r 1).1).1.chkLock = true) ∧
    (∀ r, (Lane.check r ({ Lane.reset with chkLock := true, chkReg := 1, chkWin := List.replicate 31 true }, 0, 0) ((prbsNext r 1).1 ^^^ 3)).1.chkLock = false) := by
  decide +kernel
theorem wit_FecInject : ((ln127 { Lane.reset with st := .data }).put (Reg.LAN_LN_FEC_INJECT.symbols 127) 31).g (Reg.LAN_LN_FEC_INJECT.symbols 127) ≠ 0 ∧
    (((ln127 { Lane.reset with st := .data }).put (Reg.LAN_LN_FEC_INJECT.symbols 127) 31).ln 127).sends = true := by decide

def hdr0 : Nat := Hdr.seal (1 <<< 78)
/-- A one-brick packet with a header. -/
def pkt (h : Nat) : InPkt :=
  { id := 9, len := 1, vc := Hdr.vc h, ovc := Hdr.vc h, got := 1, left_ := 0, forms := [false], head := ⟨64, h⟩, rest := [], dest := none,
    drop := false, abort_ := none, since := 0 }
/-- Port 63's link engine as given, in TRANSIT. -/
def lk63 (l : Lnk) : State := (inMode .transit).setLk 63 l
theorem wit_BricksReceived : ((lk63 { Lnk.reset with st := .init }).lk 63).st = .init ∧ ((lk63 { Lnk.reset with st := .hold }).lk 63).st = .hold ∧
    ((lk63 { Lnk.reset with st := .fencing }).lk 63).st = .fencing ∧ ((lk63 Lnk.reset).lk 63).st = .down ∧
    serialCmp (2 ^ 14 - 1) ((lk63 Lnk.reset).lk 63).expected.toNat 14 = .before ∧ 1 ≠ ((lk63 Lnk.reset).lk 63).expected.toNat ∧
    serialCmp 1 ((lk63 Lnk.reset).lk 63).expected.toNat 14 ≠ .before ∧ (lk63 Lnk.reset).mode ≠ .off := by decide
/-- A link that is UP, with the pool and the reserve of VC 1 free, full, or with a packet of two bricks partly arrived. -/
def sUp (l : Lnk) : State := ((lk63 { l with st := .up }).validBrick 63).ackBrick 63 0x3FFF
theorem wit_BricksReceived_up : ((sUp Lnk.reset).lk 63).st = .up ∧ (sUp Lnk.reset).brickVc 63 7 ⟨64, hdr0⟩ = some 0 ∧
    ((sUp Lnk.reset).place 63 0 true).isSome = true ∧ ((sUp { Lnk.reset with used := 128 :: zeros 7 }).place 63 0 true).isNone = true ∧
    ((sUp Lnk.reset).place 63 0 false).isSome = true ∧ ((sUp { Lnk.reset with poolUsed := 6144 }).place 63 0 false).isNone = true ∧
    (sUp Lnk.reset).brickVc 63 4 ⟨64, 0⟩ = none ∧ (sUp Lnk.reset).inProgress 63 = none ∧
    (((sUp Lnk.reset).setInq 63 [{ pkt hdr0 with len := 2 }]).inProgress 63).isSome = true := by decide +kernel
theorem wit_ReservedTypes : ((lk63 { Lnk.reset with st := .up }).lk 63).st ≠ .down ∧ ((lk63 { Lnk.reset with st := .up }).lk 63).st ≠ .fencing := by decide
def sSending : State :=
  (((lk63 { Lnk.reset with st := .up }).setPp 63 { PortPhy.reset with txMask := 1 }).setOut 63 { OutSt.reset with cur := some (0, 9) }).setInq 0
    [{ pkt hdr0 with dest := some 63 }]
theorem wit_BrickTx : (sSending.lk 63).st = .up ∧ (sSending.lk 63).replaying = false ∧ (sSending.lk 63).replay.length < 2048 ∧ (sSending.pp 63).txMask ≠ 0 ∧ (sSending.lk 63).controlFirst = false ∧
    (sSending.outSt 63).cur = some (0, 9) ∧ sSending.pkt? 0 9 = some { pkt hdr0 with dest := some 63 } := by decide +kernel
def sReplay : State :=
  beats (2 ^ 24) (lk63 { Lnk.reset with st := .up, replaying := true, replay := [⟨0, 3, ⟨64, 0⟩⟩], next := 1, timerFrom := some 0 })
theorem wit_Replay : (sReplay.lk 63).st = .up ∧ (sReplay.lk 63).replaying = true ∧ (sReplay.lk 63).timerFrom = some 0 ∧
    (sReplay.lk 63).replay.find? (fun b => b.seq == (sReplay.lk 63).replayAt) = some ⟨0, 3, ⟨64, 0⟩⟩ ∧ (sReplay.lk 63).replay = ⟨0, 3, ⟨64, 0⟩⟩ :: [] ∧
    (sReplay.lk 63).controlFirst = false ∧ sReplay.cycles ≥ 0 + sReplay.g (Reg.LNK_REPLAY_CFG.tmo_courses 63) * 1280 + sReplay.g (Reg.LNK_REPLAY_CFG.tmo_cycles 63) ∧
    (sReplay.lk 63).replayRun + 1 < max 1 (sReplay.g (Reg.LNK_REPLAY_CFG.limit 63)) := by decide
theorem wit_ControlTx : ((lk63 { Lnk.reset with st := .init, markDue := true }).lk 63).markDue = true ∧
    (lk63 { Lnk.reset with st := .up }).seqReady 63 = false ∧
    (lk63 { Lnk.reset with st := .up, slots := 15, returned := 32 :: zeros 7 }).returnsDue 63 = true ∧
    ((lk63 { Lnk.reset with st := .up, nakDue := true }).lk 63).controlFirst = true := by decide
/-- A CONTROL without a mark, with a NAK and with the next seq ahead, on a link that is UP. -/
theorem wit_ControlRx : ((((((lk63 { Lnk.reset with st := .up }).validBrick 63).farLevel 63 true).ackBrick 63 0x3FFF).creditReturn 63 (zeros 8)).lk 63).st = .up ∧
    serialCmp ((sUp Lnk.reset).lk 63).expected.toNat 1 14 = .before ∧ (Data.mk 64 0).field 32 0 1 = 0 ∧ (Data.mk 64 (4 <<< 256)).field 32 2 1 = 1 ∧
    (∀ v < 8, (65536 + ((lk63 Lnk.reset).lk 63).charged.getD v 0 - (zeros 8).getD v 0 % 65536) % 65536 ≤ 128) := by decide
def upPhy (l : Lnk) : State := (lk63 l).setPp 63 { PortPhy.reset with txMask := 2, rxMask := 1 }
theorem wit_LinkEngine : (upPhy Lnk.reset).phyUp 63 = true ∧ (upPhy Lnk.reset).linkPermit 63 = true ∧ ((upPhy Lnk.reset).lk 63).st = .down ∧
    ((upPhy Lnk.reset).lk 63).waitPhy = false ∧ ((upPhy Lnk.reset).lk 63).waitHoldoff = false ∧ ((upPhy { Lnk.reset with st := .hold }).lk 63).st = .hold ∧
    (lk63 { Lnk.reset with st := .up }).phyUp 63 = false ∧ (lk63 { Lnk.reset with st := .up }).mode ≠ .fenced ∧
    max 4 ((lk63 Lnk.reset).g (Reg.LNK_CTRL.ka_limit 63)) ≤ ((lk63 { Lnk.reset with st := .up, kaCount := 64 }).lk 63).kaCount ∧
    (lk63 Lnk.reset).g (Reg.LNK_CTRL.init_limit 63) ≤ ({ lk63 { Lnk.reset with st := .init } with crs := { Crs.reset with course := 255 } } : State).over ⟨0, 0⟩ ∧
    ((lk63 { Lnk.reset with st := .init, readySent := 8, samples := 8, readyHeard := some (true, 0, false) }).lk 63).readyHeard = some (true, 0, false) := by
  decide

/-! ### Routing and scheduling -/

/-- A packet of a header at input 71, in a mode. -/
def sRoute (m : Mode) (h : Nat) : State := (inMode m).setInq 71 [pkt h]
/-- Headers of one brick: plain of class 0, with a bad CRC, and of class 3 on VC 7. -/
theorem wit_Routing : (sRoute .transit hdr0).unrouted 71 = some (pkt hdr0) ∧ (sRoute .transit hdr0).routing = true ∧ badHeader hdr0 = false ∧
    badHeader (hdr0 + 1) = true ∧ (sRoute .train hdr0).mode = .train ∧ Hdr.cls hdr0 ≠ 3 ∧ (sRoute .transit hdr0).mode ≠ .train ∧
    ¬ Hdr.type hdr0 ∈ [0x3E, 0x3F, 0x34, 0x35] ∧
    ({ sRoute .transit hdr0 with crs := { Crs.reset with course := 32767 } } : State).lifeCheck (Hdr.birth hdr0) = some true ∧
    ({ sRoute .transit hdr0 with crs := { Crs.reset with course := 32768 } } : State).lifeCheck (Hdr.birth hdr0) = some false := by decide +kernel
/-- A CONG_ROW of device 0 at port 0, in the course of its birth and one later. -/
def hCong : Nat := Hdr.seal (1 <<< 78 + 0x3E <<< 85 + 7 <<< 44)
def sCong (c : Course) : State :=
  ({ (inMode .transit).setInq 0 [pkt hCong] with crs := { Crs.reset with course := c } }).setPp 0 { PortPhy.reset with farValid := true, farDevice := 0 }
theorem wit_Congestion : (sCong 0).unrouted 0 = some (pkt hCong) ∧ Hdr.type (pkt hCong).head.hdr = 0x3E ∧ (pkt hCong).len ≤ (pkt hCong).got ∧
    badHeader (pkt hCong).head.hdr = false ∧ (sCong 0).live = true ∧ ((sCong 0).pp 0).farValid = true ∧
    Hdr.src (pkt hCong).head.hdr = ((sCong 0).pp 0).farDevice ∧ Hdr.birth (pkt hCong).head.hdr = (sCong 0).course % 65536 ∧
    Hdr.birth (pkt hCong).head.hdr ≠ (sCong 1).course % 65536 ∧ (sCong 0).role (sCong 0).crs.active 0 = (sCong 0).role 0 0 := by decide +kernel
theorem wit_CongColTx : (at_ 0 640).live = true ∧ (at_ 0 640).rte.colSent = false ∧ 256 ≤ (at_ 0 640).crs.cycle ∧ 640 ≤ (at_ 0 640).crs.cycle ∧
    (at_ 0 255).crs.cycle < 256 := by decide
def sDead : State := { lk63 Lnk.reset with rte := { Rte.reset with downRun := [(63, 64)], upRun := [(63, 2 ^ 16)], dead := [63] } }
theorem wit_DeadPorts : sDead.counting = true ∧ (sDead.lk 63).st = .down ∧ max 1 (sDead.g Reg.RTE_RA_CFG.ra_courses) ≤ Tbl.get (fun _ => 0) sDead.rte.downRun 63 ∧
    sDead.rte.dead.contains 63 = true ∧ sDead.g Reg.RTE_RA_CFG.revive ≤ Tbl.get (fun _ => 0) sDead.rte.upRun 63 := by decide
def inj0 : InjPkt :=
  { id := 1, request := false, identity := 0, tc := 0, pre := 0, type := 2, body := ⟨48, 0⟩, bricks := 1, hash := 0, ordered := false, extra := 0,
    ctx := 0, stream := 2, psn := 0, attempt := 0, queue := 0, deferred := none, atShaper := false, atWindow := false, held := false, passed := none }
/-- A VC7 packet queued for output 71, whose VC7 has used its cap, and an injection queue with a response. -/
def hVc7 : Nat := Hdr.seal (1 <<< 78 + 0x3E <<< 85 + 7 <<< 44)
def sOut (o : OutSt) : State := ((inMode .transit).setInq 0 [{ pkt hVc7 with dest := some 71 }]).setOut 71 o
/-- The same with a cap of 1 that a VC7 brick of this cycle has used, and a packet of VC0 that waits too. -/
def sCapped : State :=
  (((inMode .transit).put Reg.SCH_VC7_CAP.cap 1).setInq 0 [{ pkt hVc7 with dest := some 71 }, { pkt hdr0 with id := 10, dest := some 71 }]).setOut 71
    { OutSt.reset with vc7 := [0], vc7Wait := true }
theorem wit_SchedulingCap : (sCapped.vcHead 71 7).isSome = true ∧
    sCapped.capped 71 ((List.range 7).any (fun vc => (sCapped.vcHead 71 vc).isSome)) = true ∧ (sCapped.outSt 71).vc7Wait = true := by decide +kernel
theorem wit_Scheduling : ((sOut OutSt.reset).outSt 71).cur = none ∧ (inMode .transit).vcHead 71 7 = none ∧
    (sOut OutSt.reset).vcHead 71 7 = some (0, { pkt hVc7 with dest := some 71 }) ∧ (sOut OutSt.reset).capped 71 false = false ∧
    ((sOut { OutSt.reset with vc7Wait := true }).outSt 71).vc7Wait = true ∧ ((sOut { OutSt.reset with cur := some (0, 9) }).outSt 71).cur = some (0, 9) ∧
    (((inMode .transit).setInjQ 5 [inj0]).injQ 5).find? (fun p => !p.request && !p.held && !behindHeld ((inMode .transit).setInjQ 5 [inj0]).allInj p) =
      some inj0 ∧ ((inMode .transit).injQ 5) = [] := by decide +kernel
/-- A packet without order, and gates. -/
theorem wit_SchedulingGates : (inMode .transit).holdForOrder 5 inj0 = none ∧ inj0.passed = none ∧ { inj0 with passed := some 1 }.passed = some 1 ∧
    { inj0 with request := true }.request = true ∧ (((inMode .transit).chargeShaper inj0).colourOf inj0).1 ≠ 2 ∧
    ({ inMode .transit with sch := { Sch.reset with retest := true } } : State).sch.retest = true ∧ (inMode .transit).sch.retest = false := by decide +kernel

/-! ### Host queues -/

def sq0 : Sq :=
  { owner := 0, cq := 3, ep := 3, n := 6, tc := 0, base := 4096, l := 0, f := 0, c := 0, state := .ready, errCode := 0, errCtr := 0, ents := [],
    fetched := false, flushDue := false, lastUd := 0, lastOp := 0, lastStamp := false, errOwed := false, reads := [] }
def cq0 : Cq :=
  { owner := 0, n := 6, start := 0, prod := 2, cons := 0, base := 8192, vector := 0, wb := none, armed := false, state := .active, held := [],
    owed := [], stallCourse := 0 }
def eq0 : Eq :=
  { owner := 0, n := 6, start := 0, prod := 1, cons := 0, base := 0, vector := 0, armed := false, held := [], lost := 0 }
def ep0 : Ep := { owner := 0, slot := 5, rcq := 3, as_ := 1, otBase := 0, m := 4, rxStamp := false, destroying := false }
/-- Function 0 with queue group 0: SQ 7 and CQ 3 as given, endpoint 3, and its rings. -/
def sHost (v : Sq) (c : Cq) : State :=
  ({ (((inMode .service).setSq 7 v).setCq 3 c).setEp 3 ep0 with free := 0 } : State).put (Reg.HIF_FN_GROUPS.count 0) 1
/-- A doorbell on the page of queue group 0. -/
theorem wit_SqDoorbell : (sHost sq0 cq0).mode ≠ .fenced ∧ 0 % 4096 = 0 ∧ 7 * 2 ^ 32 + 64 < 2 ^ 35 ∧
    (sHost sq0 cq0).ownsGroup 0 ((sHost sq0 cq0).bellGroup 0 0) = true ∧
    7 = 8 * (sHost sq0 cq0).bellGroup 0 0 + (7 * 2 ^ 32 + 64) / 2 ^ 32 ∧ (sHost sq0 cq0).sq? 7 = some sq0 ∧ sq0.state = .ready ∧ sq0.owner = 0 ∧
    serialCmp ((7 * 2 ^ 32 + 64) % 2 ^ 32) sq0.l.toNat 32 = .after ∧ (BitVec.ofNat 32 (7 * 2 ^ 32 + 64) - sq0.c).toNat ≤ 2 ^ sq0.n ∧
    serialCmp ((8 * 2 ^ 32 - 1) % 2 ^ 32) sq0.l.toNat 32 = .before ∧ serialCmp ((7 * 2 ^ 32 + 65) % 2 ^ 32) sq0.l.toNat 32 = .after ∧
    2 ^ sq0.n < (BitVec.ofNat 32 (7 * 2 ^ 32 + 65) - sq0.c).toNat := by decide
theorem wit_CqDoorbell : 8 % 4096 = 8 ∧ 7 * 2 ^ 32 + 2 < 2 ^ 35 ∧ 3 = 4 * (sHost sq0 cq0).bellGroup 0 8 + (7 * 2 ^ 32 + 2) / 2 ^ 32 % 4 ∧
    (sHost sq0 cq0).ownsGroup 0 ((sHost sq0 cq0).bellGroup 0 8) = true ∧ (sHost sq0 cq0).cq? 3 = some cq0 ∧ cq0.state ≠ .overflow ∧ cq0.owner = 0 ∧
    bellOk cq0.cons (BitVec.ofNat 32 (7 * 2 ^ 32 + 2)) cq0.prod = true ∧ bellOk cq0.cons (BitVec.ofNat 32 (7 * 2 ^ 32 + 3)) cq0.prod = false ∧
    (sHost sq0 { cq0 with state := .stalled }).since 0 ≤ max 1 ((sHost sq0 cq0).g Reg.HIF_CQ_CFG.stall_limit) ∧
    ¬ ({ sHost sq0 { cq0 with state := .stalled } with crs := { Crs.reset with course := 65536 } } : State).since 0 ≤
      max 1 ((sHost sq0 cq0).g Reg.HIF_CQ_CFG.stall_limit) := by decide
theorem wit_EqDoorbells : 16 % 4096 = 16 ∧ 2 ^ 32 + 1 < 2 ^ 33 ∧ (sHost sq0 cq0).ownsGroup 0 ((sHost sq0 cq0).bellGroup 0 16) = true ∧
    Tbl.find? ((sHost sq0 cq0).setEq 0 eq0).hif.eqs 0 = some eq0 ∧ bellOk eq0.cons (BitVec.ofNat 32 (2 ^ 32 + 1)) eq0.prod = true ∧
    bellOk eq0.cons (BitVec.ofNat 32 2) eq0.prod = false ∧ 24 % 4096 = 24 ∧ 7 * 2 ^ 32 + 1 < 2 ^ 35 ∧ devRing 3 = devRing ((7 * 2 ^ 32 + 1) / 2 ^ 32 % 4) ∧
    Tbl.find? ((sHost sq0 cq0).setEq (devRing 3) eq0).hif.eqs (devRing 3) = some eq0 ∧ isPf 0 = true ∧ eq0.owner = 0 ∧
    bellOk eq0.cons (BitVec.ofNat 32 (7 * 2 ^ 32 + 1)) eq0.prod = true ∧ 32 ≤ 4095 % 4096 := by decide
theorem wit_DoorbellForms : 4 % 8 ≠ 0 ∧ (4 : Nat) ≠ 8 ∧ 2 ^ 35 ≤ (2 ^ 35) % 2 ^ 64 ∧ (sHost sq0 cq0).ownsGroup 0 ((sHost sq0 cq0).bellGroup 0 4096) = false ∧
    4096 % 4096 < 8 ∧ 8 ≤ 15 % 4096 ∧ 15 % 4096 < 16 ∧ 23 % 4096 < 24 := by decide
theorem wit_FunctionCommands : (inMode .service).mode ≠ .off ∧ (inMode .service).mode ≠ .strap ∧ (inMode .service).mode ≠ .fenced ∧
    ((inMode .service).fn 1023).flrBusy = false ∧ ((inMode .service).fn 1023).busy = false ∧ 0 < 256 ∧ (10 < 11 ∧ 11 < 256) := by decide
/-- ARG0 names SQ 7 or CQ 3, ARG3 is a start counter. -/
def sArg (s : State) (a0 a3 : Nat) : State := (s.setWord (Reg.HIF_FN_CMD_ARG.off 0 0) a0).setWord (Reg.HIF_FN_CMD_ARG.off 0 3) a3
def sqErr : Sq := { sq0 with state := .error, errCode := 0x10 }
theorem wit_SqCommands : 7 = bits ((sArg (sHost sq0 cq0) 7 0).word (Reg.HIF_FN_CMD_ARG.off 0 0)) 0 17 ∧ (sArg (sHost sq0 cq0) 7 0).sq? 7 = some sq0 ∧
    (sArg (sHost sq0 cq0) 7 0).ownsGroup 0 (7 / 8) = true ∧ (sArg (sHost sq0 cq0) 7 0).live = true ∧ (sArg (sHost sqErr cq0) 7 64).mode = .service ∧
    (sArg (sHost sqErr cq0) 7 64).sq? 7 = some sqErr ∧ sqErr.state = .error ∧ (sArg (sHost sqErr cq0) 7 64).sqWritten 7 sqErr = true ∧
    (sArg (sHost sqErr cq0) 7 64).cq? sqErr.cq = some cq0 ∧ cq0.state ≠ .overflow := by decide
def sCqOnly : State := ((inMode .service).setCq 3 cq0).put (Reg.HIF_FN_GROUPS.count 0) 1
theorem wit_CqCommands : 3 = bits ((sArg sCqOnly 3 64).word (Reg.HIF_FN_CMD_ARG.off 0 0)) 0 16 ∧ (sArg sCqOnly 3 64).cq? 3 = some cq0 ∧
    (sArg sCqOnly 3 64).ownsGroup 0 (3 / 4) = true ∧ (∀ q ∈ (sArg sCqOnly 3 64).hif.sqs, q.2.cq ≠ 3) ∧ (∀ e ∈ (sArg sCqOnly 3 64).hif.eps, e.2.rcq ≠ 3) ∧
    startOk cq0.n ((sArg sCqOnly 3 64).word (Reg.HIF_FN_CMD_ARG.off 0 3)) = true ∧ (sArg sCqOnly 3 64).owedSlots 3 cq0 ≤ 2 ^ cq0.n := by decide
/-- Arguments for an endpoint 0 on domain slot 5 with CQ 3; for SQ 0 with CQ 3 and endpoint 3; for CQ 0. All rings have 64 entries at 0. -/
def sSlot : State :=
  let s := sHost sq0 cq0
  { s with trn := { s.trn with slots := [(5, ⟨1, 0, 0, false, 15, true⟩)], regions := [(5, ⟨20, 0⟩)] } }
theorem wit_Creations :
    sSlot.slotTakes 5 0 = true ∧ ((sSlot.setWord (Reg.HIF_FN_CMD_ARG.off 0 0) (5 <<< 16)).word (Reg.HIF_FN_CMD_ARG.off 0 0)) = 5 * 2 ^ 16 ∧
    sSlot.ep? 0 = none ∧ sSlot.cqOf 3 0 = true ∧ sSlot.inQuarantine 0 = false ∧ sSlot.ownsGroup 0 (0 / 4) = true ∧ sSlot.live = true ∧
    (∀ q ∈ sCqOnly.hif.sqs, q.2.ep ≠ 3) ∧ sSlot.epHasKey 3 = false ∧ sSlot.sq? 0 = none ∧ sSlot.epOf 3 0 = true ∧ ringOk 6 0 64 = true ∧ ep0.destroying = false ∧
    sSlot.cq? 0 = none ∧ 0 < vectors 0 ∧ ringOk 6 0 32 = true ∧ startOk 6 64 = true := by decide
/-- EQ_CREATE of function 0's first device ring, with the smallest ring. -/
def sEqArg : State := (sArg (sHost sq0 cq0) 4 64).setWord (Reg.HIF_FN_CMD_ARG.off 0 2) 6
theorem wit_EqCommands : sEqArg.eqNamed 0 (bits (sEqArg.word (Reg.HIF_FN_CMD_ARG.off 0 0)) 0 3) = some (devRing 0) ∧
    Tbl.find? sEqArg.hif.eqs (devRing 0) = none ∧ bits (sEqArg.word (Reg.HIF_FN_CMD_ARG.off 0 1)) 0 11 < vectors 0 ∧
    ringOk (bits (sEqArg.word (Reg.HIF_FN_CMD_ARG.off 0 2)) 0 5)
      (sEqArg.word (Reg.HIF_FN_CMD_ARG.off 0 4) + sEqArg.word (Reg.HIF_FN_CMD_ARG.off 0 5) * 2 ^ 32) 16 = true ∧
    startOk (bits (sEqArg.word (Reg.HIF_FN_CMD_ARG.off 0 2)) 0 5) (sEqArg.word (Reg.HIF_FN_CMD_ARG.off 0 3)) = true ∧
    Tbl.find? (sEqArg.setEq (devRing 0) eq0).hif.eqs (devRing 0) = some eq0 := by decide
theorem wit_CommandNotStarted : (inMode .fenced).mode = .fenced ∧
    (((inMode .transit).setFn 0 { Fn.reset with busy := true }).fn 0).busy = true ∧ (((inMode .transit).setFn 0 { Fn.reset with flrBusy := true }).fn 0).flrBusy = true := by
  decide
/-- Function 0 with a command running: its opcode and ARG0. -/
def sRun (op a0 : Nat) (v : Sq) : State := (sHost v cq0).setFn 0 { Fn.reset with busy := true, op := op, args := a0 :: List.replicate 11 0 }
theorem wit_EndsOfObjects : ((sRun 2 3 sq0).fn 0).busy = true ∧ ((sRun 2 3 sq0).fn 0).op = 2 ∧ 3 = bits ((sRun 2 3 sq0).fnArg 0 0) 0 16 ∧
    (sRun 2 3 sq0).ep? 3 = some ep0 ∧ (inMode .service).inQuarantine 65535 = false ∧
    ({ inMode .service with hif := { Hif.reset with quar := [(65535, ⟨1, 0⟩)] } } : State).inQuarantine 65535 = true ∧
    7 = bits ((sRun 4 7 sq0).fnArg 0 0) 0 17 ∧ (sRun 4 7 sq0).sq? 7 = some sq0 ∧ (sRun 4 7 sq0).sqWritten 7 sq0 = true ∧ 767 < 1024 ∧ (inMode .service).hpPresent (hpOf 767) = true ∧
    isPf 767 = false ∧ isPf 512 = true ∧ (((inMode .service).setFn 767 { Fn.reset with flrBusy := true }).fn 767).flrBusy = true ∧ (inMode .service).rma.keys = [] ∧
    (inMode .service).groupsRefused 0 0 0 = false ∧ (inMode .service).groupsRefused 1 0 65 = true ∧
    ({ sHost sq0 cq0 with rma := { Rma.reset with keys := [(0, ⟨2, 3, 0, none⟩)] } } : State).rma.keys.all
      (fun k => k.2.state == 2 && keyHp k.1 == hpOf 0) = true := by decide +kernel

def withEnt (raw : Nat) : Sq := { sq0 with l := 1, f := 1, ents := [⟨0, raw, .waiting⟩] }
/-- SQ 7 of function 0 with one waiting entry of 64 bytes. -/
def sEntry (raw : Nat) : State := sHost (withEnt raw) cq0
def sqDone (r : Res) (raw : Nat) : Sq := { sq0 with l := 1, f := 1, ents := [⟨0, raw, .done r⟩] }
theorem wit_WorkEntries : (sHost { sq0 with l := 1 } cq0).hif.sqs = [(7, { sq0 with l := 1 })] ∧ (sHost { sq0 with l := 1 } cq0).mayFetch { sq0 with l := 1 } = true ∧
    (sHost { sq0 with reads := [(0, 8)] } cq0).sq? 7 = some { sq0 with reads := [(0, 8)] } ∧
    (sEntry 0).startable 7 0 = some (withEnt 0, ⟨0, 0, .waiting⟩) ∧
    (sHost (sqDone (Res.ok 0) 0) cq0).sq? 7 = some (sqDone (Res.ok 0) 0) ∧ (sqDone (Res.ok 0) 0).errCode = 0 ∧ (sHost sq0 cq0).cqOpen sq0.cq = true ∧
    (sHost sq0 cq0).serving = true ∧ (inMode .transit).serving = false ∧ (sqDone (Res.ok 0) 0).ents = [⟨0, 0, .done (Res.ok 0)⟩] ∧
    (Res.ok 0 |>.status) = 0 ∧ Wqe.complete (2 ^ 512 - 1) = true ∧
    (Res.ok 0).status = 0 ∧ Wqe.complete 0 = false ∧ ({ sq0 with flushDue := true } : Sq).quiet = true ∧
    ((sHost { sq0 with flushDue := true } cq0).cqPost 3 [(sHost { sq0 with flushDue := true } cq0).flushedSlot 7 { sq0 with flushDue := true }]).2 = true := by decide +kernel
theorem wit_Overflow : ∀ s : State, s = { (inMode .service).setCq 3 { cq0 with state := .stalled } with crs := { Crs.reset with course := 65536 } } →
    s.cq? 3 = some { cq0 with state := .stalled } ∧ max 1 (s.g Reg.HIF_CQ_CFG.stall_limit) + 1 ≤ s.since 0 ∧
    (∀ e ∈ s.hif.sqs, e.2.cq = 3 → e.2.state ≠ .ready) := by intro s h; subst h; decide
theorem wit_EventsLost : Tbl.find? ((inMode .service).setEq (devRing 3) { eq0 with lost := 1 }).hif.eqs (devRing 3) = some { eq0 with lost := 1 } ∧
    0 < ({ eq0 with lost := 1 } : Eq).lost ∧ ringFull eq0.prod eq0.cons eq0.n = false ∧ (inMode .service).meets (srcHif 5) false = false := by decide

/-! ### Address translation -/

def req0 : XReq := { as_ := 1, va := 4096, acc := 0, identity := 0, mcore := false, ovr := false, use := .access, who := .op 0 }
theorem wit_Walks : ((((inMode .service).setXu 2 { XUnit.reset with misses := [req0] }).xu 2).misses.find? (fun m =>
      !((((inMode .service).setXu 2 { XUnit.reset with misses := [req0] }).xu 2).walks.any (fun w => samePage w.req m)))) = some req0 ∧
    ((inMode .service).setXu 2 { XUnit.reset with misses := [req0] }).unitPresent 2 = true ∧
    32 ≤ (((inMode .service).setXu 2 { XUnit.reset with walks := List.replicate 32 ⟨req0, [], 0, 0⟩ }).xu 2).walks.length ∧
    (((inMode .service).setXu 2 { XUnit.reset with walks := List.replicate 32 ⟨req0, [], 0, 0⟩ }).xu 2).walks[31]? = some ⟨req0, [], 0, 0⟩ ∧
    (at_ 0 0).live = true ∧ (at_ 0 0).crs.cycle = 0 ∧ req0.use ≠ .owner := by decide
/-- Unit 0 with two address spaces: without the descriptor of space 1, and with it (valid, of function 0, without a table of its own). -/
def sWalk (wc : List WcEnt) (x : XUnit) : State :=
  ((inMode .service).setXu 0 { x with wc := wc }).put (Reg.XLT_AST_CFG.enable 0) 1 |>.put (Reg.XLT_AST_CFG.n 0) 1 |>.put (Reg.XLT_RANGE.enable 0 0) 1
def desc1 (f : Nat) : WcEnt := ⟨0, 1, 0, false, 0, 0, 7 + f * 2 ^ 64, 0⟩
/-- What a walk of unit 0 comes to. -/
def walked (s : State) : String :=
  match s.translate 0 ⟨req0, [], 0, 0⟩ with
  | .ok _ _ => "ok"
  | .need _ _ _ _ _ _ _ => "need"
  | .fault _ _ => "fault"
theorem wit_WalkOn : walked (sWalk [desc1 0] XUnit.reset) = "ok" ∧ walked (sWalk [] XUnit.reset) = "need" ∧ walked (inMode .service) = "fault" := by decide
theorem wit_Invalidations : isPf sq0.owner = true ∧ (sEntry 0x38).startable 7 0x38 = some (withEnt 0x38, ⟨0, 0x38, .waiting⟩) ∧
    (sEntry 0x39).startable 7 0x39 = some (withEnt 0x39, ⟨0, 0x39, .waiting⟩) ∧ (sEntry 0x3A).startable 7 0x3A = some (withEnt 0x3A, ⟨0, 0x3A, .waiting⟩) ∧
    (sEntry 0x3B).startable 7 0x3B = some (withEnt 0x3B, ⟨0, 0x3B, .waiting⟩) ∧ isPf 1 = false ∧
    ((sWalk [desc1 1] XUnit.reset).ownsAs 0 ⟨1, 0, 0, 1, false, false, .owner, .entry 7 0⟩).2 = .yes ∧
    ((inMode .service).ownsAs 0 ⟨1, 0, 0, 1, false, false, .owner, .entry 7 0⟩).2 = .no ∧
    ((sWalk [] XUnit.reset).ownsAs 0 ⟨1, 0, 0, 1, false, false, .owner, .entry 7 0⟩).2 = .wait ∧
    Xw.badRange 0x38 = true ∧ Xw.badRange (0x38 + 1 <<< 256) = false := by decide
def sqRunning (raw n : Nat) : Sq := { sq0 with ents := [⟨0, raw, .running n⟩] }
theorem wit_InvComplete : (sqRunning 0x3B 0).runningOp (fun op => 0x38 ≤ op && op ≤ 0x3B) = some (⟨0, 0x3B, .running 0⟩, 0) ∧
    (sHost (sqRunning 0x3B 0) cq0).sq? 7 = some (sqRunning 0x3B 0) ∧ (sHost (sqRunning 0x3B 0) cq0).readsOut (0 % 4) = false ∧ hpOf sq0.owner = 0 % 4 ∧ 1 % 2 = 1 ∧
    (sqRunning 0x3B 4).runningOp (fun op => 0x38 ≤ op && op ≤ 0x3B) = some (⟨0, 0x3B, .running 4⟩, 4) ∧ 2 = 4 / 2 % 4 ∧ 4 % 2 = 0 ∧
    (sHost (sqRunning 0x3B 4) cq0).readsOut 2 = false ∧ hpOf sq0.owner ≠ 2 ∧
    ({ sHost (sqRunning 0x3B 0) cq0 with rma := { Rma.reset with atomics := [⟨0, ⟨0, 0, 0, 0, 0, 0, ⟨0, 0⟩⟩, 0, false, 0, req0, 0, .reading⟩] } } : State).readsOut (0 % 4) = true := by
  decide
theorem wit_LockedPages : (withEnt 0x3C).runningOp (fun op => op == 0x3C) = none ∧ (sEntry 0x3C).startable 7 0x3C = some (withEnt 0x3C, ⟨0, 0x3C, .waiting⟩) ∧
    (sqRunning 0x3C 5).runningOp (fun op => op == 0x3C) = some (⟨0, 0x3C, .running 5⟩, 5) ∧
    (sEntry 0x3D).startable 7 0x3D = some (withEnt 0x3D, ⟨0, 0x3D, .waiting⟩) := by decide
/-- A page of XLT_LOCK: held already, locked by its walk, waiting for one, and with every slot taken. -/
def tlb1 (l : Bool) : TlbEnt := ⟨1, 4096, 12, 0, 0, 7, 0, 7, 0, false, false, 0, l⟩
theorem wit_LockPage :
    ((sWalk [] { XUnit.reset with tlb := [tlb1 true] }).lockPage 0 { req0 with use := .lock, who := .entry 7 0 }).2 = .held ∧
    ((sWalk [] { XUnit.reset with tlb := [tlb1 false] }).lockPage 0 { req0 with use := .lock, who := .entry 7 0 }).2 = .locked ∧
    ((sWalk [] XUnit.reset).lockPage 0 { req0 with use := .lock, who := .entry 7 0 }).2 = .wait ∧
    ((sWalk [] { XUnit.reset with tlb := List.replicate 2048 { tlb1 true with page := 0 } }).lockPage 0 { req0 with use := .lock, who := .entry 7 0 }).2 = .full := by
  decide +kernel
/-! ### Femir transport -/

def ctx0 : Ctx :=
  { epoch := 0, state := 0, errDetail := 0, errCourse := 0, rxSynced := false, txGen := 0, rxGen := 0, tx := [StreamTx.fresh, StreamTx.fresh],
    rx := [StreamRx.fresh, StreamRx.fresh], markedSeen := 0, markedTotal := 0, cwnd := 65, alpha := 0, winAcked := 0, winMarked := 0,
    ordValid := false, ordTag := 0, ordWall := 0, hash := 0, dirty := true, noWrite := false, inbound := false }
def tx0 : TxPkt :=
  { psn := 0, op := 0, attempt := 0, ordered := false, sent := some 0, waiting := false, bricks := 1, sacked := false, early := false, marked := false,
    th := 0, payload := Data.empty, hash := 0, identity := 0, tc := 0, pre := 0, extra := 0, queue := 0 }
/-- The context of the last remote device on domain slot 5 of host port 0. -/
def key5 : Nat := 5 * 2 ^ 22 + (2 ^ 20 - 1)
/-- SERVICE in a course, with that context as given. -/
def sCtx (course : Course) (c : Ctx) : State :=
  { at_ course 0 with trn := { Trn.reset with ctxs := [(key5, c)], slots := [(5, ⟨1, 0, 0, false, 15, true⟩)], regions := [(5, ⟨20, 0⟩)] } }
theorem wit_TransportRecords : ({ at_ 0 0 with trn := { Trn.reset with loads := [(key5, true)] } } : State).trn.loads.find? (fun e => e.1 == key5) =
      some (key5, true) ∧ (sCtx 0 ctx0).ctx? key5 = some ctx0 ∧ (sCtx 0 ctx0).pinned key5 ctx0 = false ∧
    (sCtx 0 ctx0).slot? (ctxSlot key5) = some ⟨1, 0, 0, false, 15, true⟩ ∧ ctx0.dirty = true ∧ ctx0.noWrite = false ∧
    (sCtx 0 { ctx0 with noWrite := true }).pinned key5 { ctx0 with noWrite := true } = false ∧ { ctx0 with noWrite := true }.noWrite = true ∧
    (sCtx 0 { ctx0 with state := 1 }).pinned key5 { ctx0 with state := 1 } = true ∧ (inMode .service).g Reg.TRN_CMD_STATUS.busy = 0 ∧
    ((inMode .service).put Reg.TRN_CMD_STATUS.busy 1).g Reg.TRN_CMD_STATUS.busy = 1 := by decide
/-- A record of epoch 0, and one of another epoch, for a slot of epoch 0; a bucket with room and one without. -/
theorem wit_Records : ((sCtx 0 ctx0).bump Ctr.TRN_REFILL_COUNT).makeRoom.trn.ctxs.length < ((sCtx 0 ctx0).bump Ctr.TRN_REFILL_COUNT).makeRoom.cacheCap 8 65536 ∧
    (Data.mk 64 (1 <<< 96)).field 12 0 1 = 1 ∧ (Data.mk 64 (1 <<< 96)).field 8 0 32 = 0 ∧ ¬ (Data.mk 64 0).field 12 0 1 = 1 ∧
    ({ sHost sq0 cq0 with mch := { Mch.reset with orderReads := [3 * 2 ^ 55 + 1] } } : State).mch.orderReads[0]? = some (3 * 2 ^ 55 + 1) ∧
    (sHost sq0 cq0).ep? (okEp (3 * 2 ^ 55 + 1)) = some ep0 ∧
    ((sHost sq0 cq0).lookupBucket (3 * 2 ^ 55 + 1) (ep0.bucket (3 * 2 ^ 55 + 1)) ⟨128, 0⟩).isSome = true ∧
    (sHost sq0 cq0).lookupBucket (3 * 2 ^ 55 + 1) (ep0.bucket (3 * 2 ^ 55 + 1)) ⟨128, (2 ^ 1024 - 1) / (2 ^ 128 - 1) * 2 ^ 39⟩ = none := by decide +kernel
theorem wit_TransportCommands : mayConfigure (inMode .service) mc0 Reg.TRN_CMD.off ∧ Requester.mgmt mc0 = true ∧ Requester.mgmt (.fn 1) = false ∧
    (inMode .service).slotNamed 5 none = false ∧ (inMode .service).slotRegions 5 = false ∧ (inMode .service).recent [] 5 = false ∧ 1 ≠ 0 * 256 ∧
    (inMode .service).hpPresent 0 = true ∧ (inMode .service).regionTotal + 2 ^ 20 ≤ 4194304 ∧ (inMode .service).region? 0 5 = none ∧
    (sCtx 0 ctx0).slotNamed 5 (some 0) = false ∧ (sCtx 0 ctx0).covered 0 5 (2 ^ 20 - 1) = true ∧ ctxKey 0 5 (2 ^ 20 - 1) = key5 := by
  unfold mayConfigure; decide
def ctxRx (r : StreamRx) : Ctx := { ctx0 with rx := [StreamRx.fresh, r] }
def ctxTx (t : StreamTx) : Ctx := { ctx0 with tx := [StreamTx.fresh, t] }
/-- Two packets of the response stream, the second of them acknowledged selectively. -/
def earlyTx : StreamTx := { StreamTx.fresh with pkts := [tx0, { tx0 with psn := 1, sacked := true }] }
def sEarly : State := (beats (2 ^ 32) (sCtx 65536 (ctxTx earlyTx))).put Reg.TRN_RETX_CFG.frtx_count 1
theorem wit_TransportTimers : (sCtx 1 (ctxRx { StreamRx.fresh with firstAt := some 0 })).ctx? key5 = some (ctxRx { StreamRx.fresh with firstAt := some 0 }) ∧
    ((ctxRx { StreamRx.fresh with firstAt := some 0 }).rxS 1).firstAt = some 0 ∧ (sCtx 1 ctx0).live = true ∧
    0 + (sCtx 1 ctx0).g Reg.TRN_ACK_CFG.coalesce ≤ (beats (2 ^ 24) (sCtx 1 ctx0)).cycles ∧
    ((ctxRx { StreamRx.fresh with waiting := true }).rxS 1).waiting = true ∧
    ((ctxRx { StreamRx.fresh with waiting := true }).rxS 1).lastAck.getD 0 + 64 ≤ (beats 64 (sCtx 1 ctx0)).cycles ∧
    ((ctxTx { StreamTx.fresh with timer := some 0 }).txS 1).timer = some 0 ∧ ((ctxTx { StreamTx.fresh with timer := some 0 }).txS 1).pkts = [] ∧
    0 + (sCtx 65536 ctx0).rto 0 ≤ (beats (2 ^ 32) (sCtx 65536 ctx0)).cycles ∧ (sCtx 0 ctx0).cycles < 0 + (sCtx 0 ctx0).rto 0 ∧
    sEarly.ctx? key5 = some (ctxTx earlyTx) ∧ ((ctxTx earlyTx).txS 1).pkts.find? (fun p => sEarly.earlyDue ((ctxTx earlyTx).txS 1) p) = some tx0 := by decide
theorem wit_Generations : (sCtx 65536 { ctx0 with state := 1 }).ctx? key5 = some { ctx0 with state := 1 } ∧ ctx0.txGen ≠ 0xFFFFFFFF ∧
    (∀ t ∈ { ctx0 with state := 1 }.tx, t.pkts = []) ∧ { ctx0 with state := 2 }.errDetail ≠ 7 ∧
    2 * (sCtx 65536 ctx0).life ≤ (sCtx 65536 ctx0).since 0 ∧ (sCtx 1 ctx0).since 0 < 2 * (sCtx 1 ctx0).life ∧
    { ctx0 with state := 2, errDetail := 7 }.errDetail = 7 := by decide
/-- A put toward that context's device, with the number 9. -/
def op9 : Op := { Op.base key5 0 (.entry 7 0) 3 0xFFFF 0x40 4096 0 with resp := 1, sent := [(6, 0)] }
def sOp (course : Course) (o : Op) : State := { sCtx course ctx0 with trn := { (sCtx course ctx0).trn with ops := [(9, o)] } }
theorem wit_OperationTimers : (sOp 65536 { op9 with rnrAt := some ⟨0, 0⟩ }).op? 9 = some { op9 with rnrAt := some ⟨0, 0⟩ } ∧ op9.done = none ∧
    (sOp 65536 op9).live = true ∧ max 1 ((sOp 65536 op9).g Reg.TRN_RNR_CFG.delay) ≤ (sOp 65536 op9).over ⟨0, 0⟩ ∧
    (sOp 65536 { op9 with ackedAt := some ⟨0, 0⟩ }).op? 9 = some { op9 with ackedAt := some ⟨0, 0⟩ } ∧ op9.stream = 0 ∧ op9.rnrAt = none ∧ op9.got < op9.resp ∧
    max 1 ((sOp 65536 op9).g Reg.TRN_ACK_CFG.resp_limit) ≤ (sOp 65536 op9).over ⟨0, 0⟩ := by decide
/-- A packet of a transport opcode from that context's device, with some bits of bytes 19 on, and a payload. -/
def arr (opcode more : Nat) (d : Data) : Arr := { ctx := key5, stream := 0, psn := 0, gen := 0, hdr := 0, th := opcode <<< 80 + more, payload := d }
def sArr (opcode more : Nat) : State :=
  { sOp 0 op9 with trn := { (sOp 0 op9).trn with accepted := [arr opcode more Data.empty] } }
def sHub (h : Nat) (hdr : Nat) : State := { inMode .service with sch := { Sch.reset with hubRx := [(h, [(⟨64, hdr⟩, h)])] } }
/-- An ordered request to device 1 behind an unacknowledged ordered packet of its context that took another path. -/
def injOrd : InjPkt := { inj0 with request := true, ordered := true, ctx := 5 * 2 ^ 22 + 4, stream := 0, psn := 1 }
def sOrd : State :=
  { at_ 0 0 with trn := { Trn.reset with ctxs := [(5 * 2 ^ 22 + 4,
      { ctx0 with ordValid := true, ordWall := 5, tx := [{ StreamTx.fresh with pkts := [{ tx0 with ordered := true }] }, StreamTx.fresh] })] } }.put
    Reg.GLB_DEVICE_ID.device_id 0
theorem wit_HeldForOrder : (sOrd.holdForOrder 5 injOrd).isSome = true := by decide +kernel
/-- From that context's device: a request packet of domain 1, and an ACK of it with serial 1. -/
def hRx (type : Nat) : Nat := Hdr.seal (1 <<< 78 + type <<< 85 + (2 ^ 18 - 1) <<< 22 + 3 <<< 42)
def pRx : Data := ⟨64, hRx 0 + 1 <<< 160⟩
def aRx : Data := ⟨64, hRx 0x11 + 1 <<< 128 + 1 <<< 192⟩
def sRx (d : Data) : State := { sCtx 0 ctx0 with sch := { Sch.reset with hubRx := [(5, [(d, 5)])] } }
theorem wit_TransportRx : (sRx pRx).rxNext 5 = some 0 ∧ (sRx pRx).live = true ∧ Hdr.crcOk pRx.hdr = true ∧ (sRx pRx).lifeCheck (Hdr.birth pRx.hdr) = none ∧
    Hdr.type pRx.hdr = 0x00 ∧ (sRx pRx).rxKey pRx = some key5 ∧ key5 ∉ (sRx pRx).trn.loadErr ∧ (sRx pRx).ctx? key5 = some ctx0 ∧
    ((sRx aRx).hubQ 5).findIdx? (fun e => isAck e.1) = some 0 ∧ (sRx aRx).slotOf ((aRx.slice 16 48).field 0 0 16) = some 5 ∧
    ctxKey (Hdr.dstHp aRx.hdr) 5 (Hdr.src aRx.hdr * 4 + Hdr.srcHp aRx.hdr) = key5 ∧ (aRx.slice 16 48).field 5 0 8 = ctx0.txGen.toNat % 256 ∧
    serialCmp (ctx0.txS 0).serialSeen.toNat ((aRx.slice 16 48).field 8 0 16) 16 = .before := by decide +kernel
theorem wit_TransportSend : (sOp 0 op9).opRuns op9 = true ∧ op9.next < op9.total ∧ (sOp 0 op9).midMessage op9.ctx 9 = false ∧
    (sOp 0 op9).behindOrdered 9 op9 = false ∧ (sOp 0 op9).covered (ctxHp op9.ctx) (ctxSlot op9.ctx) (ctxRemote op9.ctx) = true ∧
    (sOp 0 op9).ctx? op9.ctx = some ctx0 ∧ ctx0.state ≠ 2 ∧ ctx0.sends op9 = true ∧ ((ctx0.txS op9.stream).next - (ctx0.txS op9.stream).acked).toNat ≤ 256 ∧
    (sOp 0 op9).payload ⟨[], []⟩ (ctxHp op9.ctx) 9 op9 op9.next = (sOp 0 op9, .data Data.empty) :=
  ⟨by decide, by decide, by decide, by decide, by decide +kernel, by decide +kernel, by decide, by decide, by decide, rfl⟩
theorem wit_TransportPackets : (sOp 0 op9).op? 9 = some op9 ∧ (∀ a b c d e f, op9.origin ≠ .getData a b c d e f) ∧ 5 < 6 ∧
    (sHub 5 1).hubQ 5 = [(⟨64, 1⟩, 5)] ∧ isAck ⟨64, 1⟩ = false ∧ (sHub 5 1).rxWaits ⟨64, 1⟩ = false ∧ (sHub 5 1).rxNext 5 = some 0 ∧
    isResponse ⟨64, 1⟩ = false ∧ (sHub 5 1).live = true ∧ Hdr.crcOk (⟨64, 1⟩ : Data).hdr = false ∧
    (sArr 0x01 (6 <<< 152)).front [0x01] = some (arr 0x01 (6 <<< 152) Data.empty) ∧
    (sArr 0x01 (6 <<< 152)).requestOf (arr 0x01 (6 <<< 152) Data.empty) (Th.at_ (arr 0x01 (6 <<< 152) Data.empty).th 19 0 24)
      (Th.at_ (arr 0x01 (6 <<< 152) Data.empty).th 22 0 8) = some (9, op9) ∧
    (sArr 0x01 (7 <<< 152)).front [0x01] = some (arr 0x01 (7 <<< 152) Data.empty) ∧
    (sArr 0x01 (7 <<< 152)).requestOf (arr 0x01 (7 <<< 152) Data.empty) (Th.at_ (arr 0x01 (7 <<< 152) Data.empty).th 19 0 24)
      (Th.at_ (arr 0x01 (7 <<< 152) Data.empty).th 22 0 8) = none := by
  refine ⟨by decide, (fun _ _ _ _ _ _ h => by simp [op9, Op.base] at h), by decide +kernel⟩


/-! ### Message matching -/

theorem wit_MatchingEntries : (sEntry 0x01).epEntry 7 0x01 = some (withEnt 0x01, ⟨0, 0x01, .waiting⟩, ep0) ∧
    (sEntry 0x02).epEntry 7 0x02 = some (withEnt 0x02, ⟨0, 0x02, .waiting⟩, ep0) ∧
    (sEntry 0x03).epEntry 7 0x03 = some (withEnt 0x03, ⟨0, 0x03, .waiting⟩, ep0) ∧
    (sEntry 0x04).epEntry 7 0x04 = some (withEnt 0x04, ⟨0, 0x04, .waiting⟩, ep0) ∧
    (sEntry 0x05).epEntry 7 0x05 = some (withEnt 0x05, ⟨0, 0x05, .waiting⟩, ep0) ∧
    (sEntry 0x06).epEntry 7 0x06 = some (withEnt 0x06, ⟨0, 0x06, .waiting⟩, ep0) := by decide
/-- An unexpected message of endpoint 3, from peer 0 in context 0. -/
def msg0 (st : HdrSt) : MHdr :=
  { ep := 3, st := st, source := 0, context := 0, msn := 0, tag := 0, len := 0, rndv := false, base := 0, count := 0, landing := none, pieces := [],
    pend := [], dataSeen := false, rvId := 0, recv := none, placed := 0, fault := none, ctx := key5, seq := 0 }
def sMatch (raw : Nat) (m : Mch) : State := { sEntry raw with mch := m }
def mHdr (st : HdrSt) : Mch := { Mch.reset with hdrs := [(0, msg0 st)] }
def mOrder : Mch := { Mch.reset with orders := [(orderKey 3 1 0 0, ⟨0, 0, false⟩)] }
def post0 (slot : Option Nat) : Posted := { Mw.posted 0 with slot := slot }
theorem wit_MatchingFound : Tbl.find? (sMatch 0x01 mOrder).mch.orders (orderKey 3 1 (Mw.peer 0x01) (Mw.context 0x01)) = some ⟨0, 0, false⟩ ∧
    (sMatch 0x02 (mHdr .unexpected)).findUnexpected 3 (Mw.posted 0x02) = some (0, msg0 .unexpected) ∧
    (sEntry 0x02).findUnexpected 3 (Mw.posted 0x02) = none ∧ (sEntry 0x02).overOf 3 = [] ∧ (sEntry 0x02).laneHeld 3 0 = false ∧ (sEntry 0x02).postRoom ((sEntry 0x02).epOwner 3) = true ∧
    (sEntry 0x04).findUnexpected 3 (Mw.posted 0x04) = none ∧ Mw.flag 0x04 1 = false ∧ Mw.flag (0x04 + 1 <<< 169) 1 = true ∧
    (sMatch 0x04 (mHdr .unexpected)).findUnexpected 3 (Mw.posted (0x04 + 1 <<< 169)) = some (0, msg0 .unexpected) ∧
    (sMatch 0x05 (mHdr .claimed)).hdr? (Mw.handle 0x05 % 65536) = some (msg0 .claimed) ∧ (msg0 .claimed).st = .claimed ∧ (msg0 .claimed).ep = 3 ∧
    (sMatch 0x05 (mHdr .claimed)).handle (Mw.handle 0x05 % 65536) = Mw.handle 0x05 ∧ (sEntry 0x05).hdr? (Mw.handle 0x05 % 65536) = none ∧
    (sEntry 0x06).mch.landings.length < 65536 ∧ (sEntry 0x06).g (Reg.MCH_FN_QUOTA.lb ep0.owner) = 0 := by decide
theorem wit_MatchingLane : (sEntry 0x02).entryWaits 3 0 = false ∧ (sMatch 0x02 (mHdr .unexpected)).entryWaits 3 0 = false ∧
    (sEntry 0x03).entryWaits 3 (3 + 7) = false ∧ (sEntry 0x01).eager 0x01 = true ∧ (sEntry 0x01).eager (0x01 + 1 <<< 168) = false ∧
    (∃ i u, (sEntry 0x01).pick 32768 (Tbl.keys (sEntry 0x01).mch.rvs) = (some i, u)) ∧ (sEntry 0x02).cqClear 3 = true ∧
    ((sEntry 0x02).setCq 3 { cq0 with held := [0] }).cqClear 3 = false ∧ ((sEntry 0x02).postRecv 3 (Mw.posted 0x02)).isSome = true := by
  refine ⟨by decide, by decide, by decide, by decide, by decide, ⟨_, _, rfl⟩, by decide, by decide, by decide⟩
/-- EAGER from peer 0 for endpoint 3, in context 0: the first of its message, and one of a message that is held with the same and another base. -/
def sMsg (h : Option MHdr) : State :=
  { sArr 0x10 3 with mch := { Mch.reset with orders := [(orderKey 3 0 0 0, ⟨0, 0, false⟩)], hdrs := (h.map (fun v => (0, v))).toList } }
theorem wit_MessageRx : (sMsg none).wasRefused (arr 0x10 3 Data.empty) = false ∧
    Tbl.find? (sMsg none).mch.orders (orderKey (Th.dstEp (arr 0x10 3 Data.empty).th) 0 (arr 0x10 3 Data.empty).source (Mf.context (arr 0x10 3 Data.empty).th)) = some ⟨0, 0, false⟩ ∧
    (sMsg none).hdrFind 3 (arr 0x10 3 Data.empty).source 0 0 = none ∧
    (sMsg (some (msg0 .assembling))).hdrFind 3 (arr 0x10 3 Data.empty).source 0 0 = some (0, msg0 .assembling) ∧
    (msg0 .assembling).base = (arr 0x10 3 Data.empty).base ∧ { msg0 .assembling with base := 1 }.base ≠ (arr 0x10 3 Data.empty).base ∧
    (msg0 .assembling).st ≠ .refused ∧ ((inMode .service).rvGot 0 0).hdrGen 0 = 0 ∧ ((sMsg (some (msg0 .assembling))).rvGot 0 0).hdr? 0 = some (msg0 .assembling) ∧
    (sMsg none).hdrGen 0 ≠ 2 ^ 16 / 2 ^ 16 ∧ (Th.at_ (1 <<< 216) 27 0 1 = 1) ∧ Th.at_ 0 27 0 1 ≠ 1 := by decide +kernel
theorem wit_MatchingSearch : (∃ t, (sEntry 0x03).search 3 (3 + 7) (fun p => p.user == Mw.user 0x03) = (t, .none_)) ∧
    ∃ t, (sMatch 0x03 { Mch.reset with posted := [(3, [post0 none])] }).search 3 (3 + 7) (fun p => p.user == Mw.user 0x03) = (t, .chip (post0 none)) :=
  ⟨⟨_, rfl⟩, ⟨_, rfl⟩⟩
theorem wit_MatchingFull : ∃ s : State, s.epEntry 7 0x06 = some (withEnt 0x06, ⟨0, 0x06, .waiting⟩, ep0) ∧ 65536 ≤ s.mch.landings.length :=
  ⟨sMatch 0x06 { Mch.reset with landings := List.replicate 65536 (0, ⟨3, 0, 0, 0, 0, false, 0, false⟩) }, by decide,
    Nat.le_of_eq (List.length_replicate (n := 65536)).symm⟩
def skip0 : Skip := ⟨key5, 3, 0xFFFF, 0, 0⟩
def sSkip : State :=
  { sEntry 0 with
    trn := { Trn.reset with ctxs := [(5 * 2 ^ 22, ctx0)], slots := [(5, ⟨1, 0, 0, false, 15, true⟩)], regions := [(5, ⟨20, 0⟩)] },
    mch := { Mch.reset with skips := [{ skip0 with ctx := 5 * 2 ^ 22 }] } }
theorem wit_MatchingPackets : (sArr 0x10 0).frontOp mchOps 0x10 Arr.lane (sArr 0x10 0).mchWaits = some (arr 0x10 0 Data.empty) ∧
    (sArr 0x11 0).frontOp mchOps 0x11 Arr.lane (sArr 0x11 0).mchWaits = some (arr 0x11 0 Data.empty) ∧ (sArr 0x12 0).frontOp [0x12] 0x12 Arr.lane (fun _ => false) = some (arr 0x12 0 Data.empty) ∧
    (sArr 0x13 0).front [0x13] = some (arr 0x13 0 Data.empty) ∧ (sArr 0x14 0).frontOp mchOps 0x14 Arr.lane (sArr 0x14 0).mchWaits = some (arr 0x14 0 Data.empty) ∧
    sSkip.mch.skips.find? (fun k => sSkip.canSkip k) = some { skip0 with ctx := 5 * 2 ^ 22 } ∧ sSkip.mode = .service ∧
    (inMode .transit).mode ≠ .service ∧ (inMode .transit).mode ≠ .drain ∧
    (sMatch 0 { Mch.reset with chain := [(3, [post0 (some 0)])] }).overOf 3 = post0 (some 0) :: [] ∧
    (sMatch 0 { Mch.reset with chain := [(3, [post0 (some 0)])] }).live = true ∧
    (sMatch 0 { Mch.reset with chain := [(3, [post0 (some 0)])] }).laneHeld 3 0 = false ∧
    HostView.read ⟨[], []⟩ ((sEntry 0).recAt (hpOf ((sEntry 0).epOwner 3)) ((post0 (some 0)).slot.getD 0)) 64 = .data (Data.ofNat 64 0) := by
  decide +kernel
theorem wit_MatchingSkip : (sSkip.needCtx { skip0 with ctx := 5 * 2 ^ 22 }.ctx false).2 = .have_ ctx0 := rfl
def rv0 : Rv :=
  { gen := 0, q := 7, ctr := 0, as_ := 1, va := 0, len := 0, ovr := false, identity := 0, heldFrom := some ⟨0, 0⟩, pulled := 0, ctx := key5, srcEp := 3,
    dst := 0, context := 0, msn := 0 }
def sRv : State := { ((at_ 65536 0).put Reg.MCH_RV_CFG.wait_limit 1) with mch := { Mch.reset with rvs := [(32767, rv0)] } }
theorem wit_MatchingTimer : Tbl.find? sRv.mch.rvs 32767 = some rv0 ∧ rv0.heldFrom = some ⟨0, 0⟩ ∧ sRv.g Reg.MCH_RV_CFG.wait_limit ≠ 0 ∧
    rv0.gen = 32767 / 2 ^ 15 ∧ ({ inMode .service with mch := { Mch.reset with ovfReads := [(3, 0)] } } : State).mch.ovfReads[0]? = some (3, 0) ∧
    sRv.g Reg.MCH_RV_CFG.wait_limit < sRv.over ⟨0, 0⟩ ∧ (∀ e ∈ sRv.trn.ops, e.2.origin ≠ .rvData 32767 rv0.gen) := by decide

/-! ### Remote memory -/

theorem wit_RemoteMemoryEntries : (sEntry 0x10).epEntry 7 0x10 = some (withEnt 0x10, ⟨0, 0x10, .waiting⟩, ep0) ∧
    (sEntry 0x11).epEntry 7 0x11 = some (withEnt 0x11, ⟨0, 0x11, .waiting⟩, ep0) ∧
    (sEntry 0x12).epEntry 7 0x12 = some (withEnt 0x12, ⟨0, 0x12, .waiting⟩, ep0) ∧
    (sEntry 0x13).epEntry 7 0x13 = some (withEnt 0x13, ⟨0, 0x13, .waiting⟩, ep0) := by decide
/-- The entry's key index is the last of a table of 2^10 entries. -/
def kIdx (op : Nat) : Nat := op + 1023 <<< 128
def desc0 : Desc := ⟨0, 1023, false⟩
def sKey (op : Nat) (r : Rma) : State :=
  { ((sEntry (kIdx op)).put (Reg.RMA_KEYTAB.enable 0) 1).put (Reg.RMA_KEYTAB.k 0) 10 with rma := r }
theorem wit_Keys : 1023 = Kw.index (kIdx 0x14) ∧ (sKey 0x14 Rma.reset).keyInTable 1023 = true ∧ (sKey 0x14 Rma.reset).keyInTable 1024 = false ∧
    Tbl.find? (sKey 0x14 { Rma.reset with descs := [(1023, desc0)] }).rma.descs 1023 = some desc0 ∧
    (sKey 0x14 Rma.reset).startable 7 0x14 = some (withEnt (kIdx 0x14), ⟨0, kIdx 0x14, .waiting⟩) ∧
    (sKey 0x15 Rma.reset).startable 7 0x15 = some (withEnt (kIdx 0x15), ⟨0, kIdx 0x15, .waiting⟩) ∧
    (sKey 0x16 Rma.reset).startable 7 0x16 = some (withEnt (kIdx 0x16), ⟨0, kIdx 0x16, .waiting⟩) ∧
    (sEntry 0x14).keyInTable (Kw.index 0x14) = false ∧ (sKey 0x14 Rma.reset).keySt (Kw.index (kIdx 0x14)) = none ∧ Ds.state desc0.raw = 0 := by decide
def key0 : KeySt := ⟨3, 3, 0, none⟩
def sQuar (course : Course) : State := { at_ course 0 with rma := { Rma.reset with keys := [(1023, key0)] } }
theorem wit_KeyQuarantine : (sQuar 65536).keySt 1023 = some key0 ∧ key0.state = 3 ∧ (sQuar 65536).quarOver key0.revoked.toNat = true ∧
    (sQuar 0).quarOver key0.revoked.toNat = false ∧
    ({ at_ 0 0 with rma := { Rma.reset with invs := [(7, 0, 1, [1023])] } } : State).rma.invs.find? (fun x => x.1 == 7) = some (7, 0, 1, [1023]) ∧
    Tbl.get (fun _ => 0) Rma.reset.refs 1023 = 0 := by decide
theorem wit_RemoteMemoryPackets : (sArr 0x40 0).frontOp rmaOps 0x40 Arr.hp (sArr 0x40 0).arrWaits = some (arr 0x40 0 Data.empty) ∧
    (sArr 0x41 0).frontOp rmaOps 0x41 Arr.hp (sArr 0x41 0).arrWaits = some (arr 0x41 0 Data.empty) ∧ (sArr 0x43 0).frontOp rmaOps 0x43 Arr.hp (sArr 0x43 0).arrWaits = some (arr 0x43 0 Data.empty) ∧
    (sArr 0x42 0).frontResponse 0x42 = some (arr 0x42 0 Data.empty) ∧ (sArr 0x44 0).frontResponse 0x44 = some (arr 0x44 0 Data.empty) ∧
    ({ at_ 0 0 with rma := { Rma.reset with reads := [5, 1023] } } : State).rma.reads[1]? = some 1023 := by decide
/-- A region at 4096 of endpoint 3, under key 0, with all rights, for locks; its page is in the translation cache. -/
def raw0 : Nat := 4096 + 4096 <<< 64 + 3 <<< 112 + 1 <<< 136 + 7 <<< 138 + 1 <<< 146
def tlbW : TlbEnt := ⟨1, 4096, 12, 8192, 0x7F, 7, 0, 7, 0, false, false, 0, false⟩
def sRma (a : Arr) (raw : Nat) (l : List Atomic) : State :=
  { (((sHost sq0 cq0).put (Reg.RMA_KEYTAB.enable 0) 1).put (Reg.RMA_KEYTAB.k 0) 10).setXu 0 { XUnit.reset with tlb := [tlbW] } with
    rma := { Rma.reset with descs := [(0, ⟨raw, 0, false⟩)], atomics := l }, trn := { Trn.reset with accepted := [a], ctxs := [(key5, ctx0)], ops := [(9, op9)] } }
def aRma (op : Nat) (d : Data) : Arr := arr op (3 + 8 <<< 120) d
theorem wit_RegionAccess : (∀ x ∈ [(0x40, 3), (0x41, 2), (0x43, 4)], (sRma (aRma x.1 ⟨8, 0⟩) raw0 []).frontOp rmaOps x.1 Arr.hp
        (sRma (aRma x.1 ⟨8, 0⟩) raw0 []).arrWaits = some (aRma x.1 ⟨8, 0⟩) ∧
      ((sRma (aRma x.1 ⟨8, 0⟩) raw0 []).rmaCheck (aRma x.1 ⟨8, 0⟩) x.2 8 8 false).2 = .ok ⟨raw0, 0, false⟩ ∧
      ((sRma (aRma x.1 ⟨8, 0⟩) 0 []).rmaCheck (aRma x.1 ⟨8, 0⟩) x.2 8 8 false).2 = .refuse 0x0403) ∧
    ((sRma (aRma 0x40 ⟨8, 0⟩) raw0 []).xlateRun 0 ((sRma (aRma 0x40 ⟨8, 0⟩) raw0 []).regionReq ⟨raw0, 0, false⟩ 4096 3 (aRma 0x40 ⟨8, 0⟩).who) 8).2 =
      .run [(8192, 8)] ∧ (sRma (aRma 0x40 ⟨8, 0⟩) raw0 []).piecesHeld 0 [(8192, 8)] = false ∧ (sRma (aRma 0x40 ⟨8, 0⟩) raw0 []).atomicsAhead 0 0 = false ∧
    (aRma 0x40 ⟨8, 0⟩).hp = 0 ∧ (sHost sq0 cq0).goodCopy 0 = none ∧ (sRma (aRma 0x40 ⟨8, 0⟩) raw0 []).goodCopy 0 = some ⟨raw0, 0, false⟩ := by decide +kernel
theorem wit_DescChecks : keyTag (Rf.key (aRma 0x40 ⟨8, 0⟩).th) = Ds.tag raw0 ∧ Ds.state raw0 = 1 ∧ Ds.ep raw0 = Th.dstEp (aRma 0x40 ⟨8, 0⟩).th ∧
    Ds.peerValid raw0 = false ∧ Ds.right raw0 3 = true ∧ Ds.right (raw0 - 1 <<< 139) 3 = false ∧ Ds.sideEffect raw0 = false ∧
    Rf.offset (aRma 0x40 ⟨8, 0⟩).th + 8 ≤ Ds.length raw0 ∧ (Ds.va raw0 + Rf.offset (aRma 0x40 ⟨8, 0⟩).th) % 8 = 0 ∧ Ds.length raw0 < 0 + 4097 ∧
    keyTag (1 <<< 31) ≠ Ds.tag raw0 := by decide
/-- An atomic of eight bytes, as far as it is given. -/
def atom (ha : Bool) (st : AtomicSt) : Atomic := ⟨0, aRma 0x43 ⟨8, 0⟩, 0, ha, 4096, ⟨1, 4096, 4, 0, false, false, .access, .atomic 0⟩, 8192, st⟩
def sAtom (x : Atomic) : State := sRma (aRma 0x40 ⟨8, 0⟩) raw0 [x]
theorem wit_Atomics : (∀ b : Bool, (sAtom (atom b .queued)).rma.atomics.find? (fun y => y.id == 0) = some (atom b .queued)) ∧ (sAtom (atom true .queued)).serving = true ∧
    ((sAtom (atom true .queued)).xlate 0 (atom true .queued).req).2 = .pa 8192 12 ∧ (sAtom (atom true .queued)).lineHeld 0 8192 8 = false ∧
    (sAtom (atom true .queued)).atomicsAhead 0 0 = false ∧ (atom false (.ready 5 0)).st = .ready 5 0 ∧ (atom true (.host 5 0)).st = .host 5 0 ∧
    Rf.aop (atom true (.host 5 0)).acc.th = 0 ∧ Rf.aop (arr 0x43 (1 <<< 240) Data.empty).th = 1 ∧ (Data.mk 8 6).val % 2 ^ 64 ≠ 5 ∧
    0 < (sAtom (atom true .queued)).g Reg.RMA_CFG.cas_retries ∧ (inMode .transit).serving = false ∧
    ({ at_ 0 0 with rma := { Rma.reset with dataReads := [(true, 0, 0, 0)] } } : State).rma.dataReads[0]? = some (true, 0, 0, 0) := by decide +kernel
/-- The response data of that device's request with the number 9, for host memory and for none. -/
theorem wit_ResponseData : (sArr 0x42 0).requestOf (arr 0x42 0 Data.empty) (Th.at_ (arr 0x42 0 Data.empty).th 19 0 24) (Th.at_ (arr 0x42 0 Data.empty).th 22 0 8) = none ∧
    (sArr 0x42 (6 <<< 152)).requestOf (arr 0x42 (6 <<< 152) Data.empty) 6 0 = some (9, op9) ∧ op9.done = none ∧ op9.dest = .none_ ∧
    ({ op9 with dest := .host 1 4096 8 0 false }).dest = .host 1 4096 8 0 false ∧
    ((sRma (aRma 0x42 ⟨8, 0⟩) raw0 []).xlateRun 0 ⟨1, 4096, 1, 0, false, false, .access, (aRma 0x42 ⟨8, 0⟩).who⟩ 8).2 = .run [(8192, 8)] := by decide +kernel

/-! ### Lock cells and fabric locks -/

/-- Cell 1023 as given. -/
def sCell (v : Cell) : State := (inMode .service).setCell 1023 v
def cellOf (owner : Nat) (w : List (Nat × Nat)) : Cell := { Cell.reset with owner := owner, waiters := w }
/-- 63 waiters, with identities from 1 on. -/
def waiters63 : List (Nat × Nat) := (List.range 63).map (fun i => (i + 1, 0))
theorem wit_CellAcquire : Requester.privileged mc0 = true ∧ (sCell Cell.reset).mode = .service ∧ 0x400 = mc0.identity ∧
    (sCell Cell.reset).cellScope 1023 0x400 = true ∧ ((sCell Cell.reset).cell 1023).isFree = true ∧ 0x400 ≠ noOwner ∧
    ((sCell (cellOf 0x400 [])).cell 1023).isFree = false ∧ ((sCell (cellOf 0x400 [])).cell 1023).owner = 0x400 ∧
    ((sCell (cellOf 0 [(0x400, 5)])).cell 1023).isFree = false ∧ ((sCell (cellOf 0 [(0x400, 5)])).cell 1023).owner ≠ 0x400 ∧
    ((sCell (cellOf 0 [(0x400, 5)])).cell 1023).waiters.any (fun w => w.1 == 0x400) = true ∧
    ((sCell (cellOf 0 waiters63.tail)).cell 1023).waiters.length < 63 ∧ ((sCell (cellOf 0 waiters63.tail)).cell 1023).waiters.any (fun w => w.1 == 0x400) = false ∧
    63 ≤ ((sCell (cellOf 0 waiters63)).cell 1023).waiters.length ∧ ((sCell (cellOf 0 waiters63)).cell 1023).waiters.any (fun w => w.1 == 0x400) = false ∧
    0x401 ≠ mc0.identity ∧ ((sCell Cell.reset).put (Reg.LCK_CELL_CFG.scope 1023) 1).cellScope 1023 0x400 = false := by decide
/-- CELL_OP on cell 1023 with an operation. -/
def wCell (op : Nat) : Nat := 0x28 + 1023 <<< 128 + op <<< 144
theorem wit_CellEntries : ∀ op ∈ [0, 1, 2, 3], (sEntry (wCell op)).startable 7 0x28 = some (withEnt (wCell op), ⟨0, wCell op, .waiting⟩) ∧
    1023 = Cw.cell (wCell op) ∧ Cw.op (wCell op) = op ∧ (sEntry (wCell op)).cellScope 1023 sq0.owner = true := by decide
def sCellEntry (v : Cell) : State := (sEntry (wCell 2)).setCell 1023 v
theorem wit_CellRelease : Requester.privileged mc0 = true ∧ (sCell (cellOf 0x400 [])).mode = .service ∧ 0x400 = mc0.identity ∧
    (sCell (cellOf 0x400 [])).cellScope 1023 0x400 = true ∧ ((sCell (cellOf 0x400 [])).cell 1023).isFree = false ∧
    bestWaiter ((sCell (cellOf 0x400 [(1, 3), (2, 5), (3, 5)])).cell 1023).waiters = some (2, 5) ∧
    (sCellEntry (cellOf sq0.owner [])).startable 7 0x28 = some (withEnt (wCell 2), ⟨0, wCell 2, .waiting⟩) ∧ 1023 = Cw.cell (wCell 2) ∧
    Cw.op (wCell 2) = 2 ∧ (sCellEntry (cellOf sq0.owner [])).cellScope 1023 sq0.owner = true ∧
    ((sCellEntry (cellOf sq0.owner [])).cell 1023).owner = sq0.owner ∧ ((sCellEntry (cellOf sq0.owner [])).cell 1023).isFree = false ∧
    ((sCellEntry (cellOf sq0.owner [])).cell 1023).waiters = [] ∧
    bestWaiter ((sCellEntry (cellOf sq0.owner [(5, 1)])).cell 1023).waiters = some (5, 1) ∧
    ((sCell (cellOf 0 [])).cell 1023).owner ≠ 0x400 ∧ ((sCell (cellOf 0x400 [])).cell 1023).owner = 0x400 ∧
    ((sCell (cellOf 0x400 [])).cell 1023).waiters = [] ∧
    ((sCell (cellOf 0x400 [(1, 3), (2, 5), (3, 5)])).cell 1023).waiters = [(1, 3)] ++ (2, 5) :: [(3, 5)] ∧
    (∀ x ∈ [((1, 3) : Nat × Nat)], x.2 < 5) ∧ ∀ x ∈ [((3, 5) : Nat × Nat)], x.2 ≤ 5 := by decide
def rec0 : FlRec :=
  { identity := 0x400, ep := 3, owner := 0, slot := 5, target := 0, key := 0, offset := 0, ticket := 1, d := 1, holding := false, known := true,
    pollOut := false, lastPoll := ⟨0, 0⟩, viaCmd := true, way := ⟨0, 0, none⟩, wait := none, reset_ := false }
def sRec : State := { at_ 65535 0 with lck := ⟨[], [(4095, rec0)], 0⟩ }
theorem wit_LockOperations : (∀ op ∈ [0x29, 0x2A, 0x2B, 0x2C], (sEntry op).startable 7 op = some (withEnt op, ⟨0, op, .waiting⟩)) ∧
    (Requester.fn 256).mgmt = false ∧ ((inMode .service).put Reg.LCK_FL_CMD_STATUS.busy 1).g Reg.LCK_FL_CMD_STATUS.busy = 1 ∧
    sRec.rec? 4095 = some rec0 ∧ sRec.live = true ∧ rec0.known = true ∧ rec0.holding = false ∧ rec0.pollOut = false ∧
    max 1 (sRec.g Reg.LCK_FL_CFG.poll) ≤ sRec.over rec0.lastPoll := by decide
/-- The front entry's request and a command's, with no record in use, with one that holds the lock, and with all in use. -/
theorem wit_LockRequests : (∃ i n, (sEntry 0x29).pick 4096 (Tbl.keys (sEntry 0x29).lck.recs) = (some i, n)) ∧
    (∀ u : List Nat, 4096 ≤ u.length → ∃ n, (inMode .service).pick 4096 u = (none, n)) ∧ ((sEntry 0x2A).runEntry 7 0 0).flHeld ((⟨0, 0x2A, .waiting⟩ : Ent).flAsk 7 (withEnt 0x2A)) = none ∧
    ({ sRec with lck := ⟨[], [(4095, { rec0 with holding := true })], 0⟩ } : State).flHeld ⟨cmdQueue, 0, 0x400, 3, 0, 0, 0, 1, ⟨0, 0, none⟩⟩ =
      some (4095, { rec0 with holding := true }) ∧
    Requester.mgmt mc0 = true ∧ (inMode .service).g Reg.LCK_FL_CMD_STATUS.busy = 0 ∧ (inMode .service).live = true ∧
    ((((sHost sq0 cq0).put (Reg.LCK_FL_ARG.arg 6) 3).put Reg.LCK_FL_CMD.opcode 0x29).flCmdAsk mc0.identity).ep = 3 ∧
    (((sHost sq0 cq0).put Reg.LCK_FL_CMD.opcode 0x29).flCmdAsk mc0.identity).offset % 32 = 0 ∧ ep0.destroying = false := by
  refine ⟨⟨_, _, rfl⟩, fun _ h => ⟨_, if_pos h⟩, by decide, by decide, by decide, by decide, by decide, by decide, by decide, by decide⟩
/-- A lock word: next ticket, serving ticket, lease, held, owner's device, identity and ticket. -/
def flWord (n s l h dev ident t : Nat) : Nat := n + s <<< 32 + l <<< 64 + h <<< 112 + dev <<< 128 + ident <<< 160 + t <<< 192
theorem wit_FabricLockWord : (∀ op ∈ [0x80, 0x81, 0x82, 0x83, 0x84, 0x85], (sArr op 0).frontOp rmaOps op Arr.hp (sArr op 0).arrWaits = some (arr op 0 Data.empty)) ∧
    (sArr 0x88 0).front [0x88] = some (arr 0x88 0 Data.empty) ∧
    Fl.next (flWord 5 5 0 0 0 0 0) = Fl.serving (flWord 5 5 0 0 0 0 0) ∧ Fl.held (flWord 5 5 0 0 0 0 0) = false ∧
    Fl.next (flWord 6 5 0 0 0 0 0) ≠ Fl.serving (flWord 6 5 0 0 0 0 0) ∧ Fl.held (flWord 5 5 0 1 0 0 0) = true ∧
    serialCmp 5 (Fl.next (flWord 6 5 0 0 0 0 0)) 32 = .before ∧ serialCmp (2 ^ 32 - 1) (Fl.next (flWord 0 0 0 0 0 0 0)) 32 = .before ∧
    serialCmp (2 ^ 32 - 1) (Fl.serving (flWord 0 0 0 0 0 0 0)) 32 = .before ∧ serialCmp 6 (Fl.next (flWord 7 5 0 0 0 0 0)) 32 = .before ∧
    serialCmp 6 (Fl.serving (flWord 7 5 0 0 0 0 0)) 32 = .after ∧ serialCmp 6 (Fl.next (flWord 6 5 0 0 0 0 0)) 32 ≠ .before := by decide +kernel
theorem wit_FabricLockOwner : (let w := flWord 7 5 9 1 (2 ^ 20 - 1) 0xFFF 5; w < 2 ^ 256 ∧ Fl.held w = true ∧ Fl.ownerDevice w = 2 ^ 20 - 1 ∧
      Fl.ownerIdentity w = 0xFFF ∧ Fl.ownerTicket w = 5 ∧ serialCmp (Fl.lease w) 10 48 = .before ∧ serialCmp (Fl.lease w) 9 48 ≠ .before ∧
      serialCmp (Fl.serving w) (Fl.next w) 32 = .before) ∧
    ¬ Fl.ownerTicket (flWord 7 5 9 1 0 0 4) = 5 ∧ serialCmp (Fl.serving (flWord 5 5 9 0 0 0 0)) (Fl.next (flWord 5 5 9 0 0 0 0)) 32 ≠ .before := by
  decide +kernel

/-! ### Collectives -/

/-- Tree 4095 in the active set: valid, with data, one local member; `root` and the lowest child port. -/
def sTree (raw root child : Nat) (c : Col) : State :=
  { (((sEntry raw).putSetW 0 (Reg.COL_TREE.off 4095) (1 <<< 31 + root <<< 30 + 1 <<< 29 + 1)).putSetW 0 (Reg.COL_TREE.off 4095 + 4) child).putSetW 0
      (Reg.COL_TREE.off 4095 + 12) (1 <<< 16) with
    trn := { Trn.reset with slots := [(5, ⟨1, 0, 0, false, 15, true⟩)] }, col := c }
def mem0 : ColMember := ⟨0, 0⟩
def colM : Col := { Col.reset with members := [(memberKey 4095 3, mem0)] }
def colE : Col := { colM with trees := [(4095, { ColTree.reset with error := true, reason := 0x0C02 })] }
/-- COL_OP: an allreduce of one element, and the barrier. -/
def wCol (op : Nat) : Nat := op + 4095 <<< 128
def wReduce : Nat := wCol 0x22 + 1 <<< 224
theorem wit_CollectiveEntries : (sTree (wCol 0x20) 0 0 Col.reset).startable 7 0x20 = some (withEnt (wCol 0x20), ⟨0, wCol 0x20, .waiting⟩) ∧
    (sTree (wCol 0x21) 0 0 colM).startable 7 0x21 = some (withEnt (wCol 0x21), ⟨0, wCol 0x21, .waiting⟩) ∧
    (Tbl.find? (sTree (wCol 0x21) 0 0 colM).col.members (memberKey (Colw.tree (wCol 0x21)) 3)).isSome = true ∧
    (sTree wReduce 0 0 colM).startable 7 0x22 = some (withEnt wReduce, ⟨0, wReduce, .waiting⟩) ∧ (sTree wReduce 0 0 colM).colMalformed 3 wReduce = none ∧
    Colw.csn wReduce ≠ 0xFFFFFF ∧ ((sTree wReduce 0 0 colM).colTree (Colw.tree wReduce)).error = false ∧
    Tbl.find? (sTree wReduce 0 0 colM).col.members (memberKey (Colw.tree wReduce) 3) = some mem0 ∧
    (sTree wReduce 0 0 colE).colMalformed 3 wReduce = none ∧ ((sTree wReduce 0 0 colE).colTree (Colw.tree wReduce)).error = true := by decide +kernel
theorem wit_CollectiveJoin : (sTree 0 0 0 Col.reset).treeValid (sTree 0 0 0 Col.reset).crs.active 4095 = true ∧
    Tbl.find? (sTree 0 0 0 Col.reset).col.members (memberKey 4095 3) = none ∧
    ((sTree 0 0 0 Col.reset).joined 4095).length < (sTree 0 0 0 Col.reset).ga (Reg.COL_TREE.local_count 4095) ∧
    (sTree 0 0 0 Col.reset).ep? 3 = some ep0 ∧ (sTree 0 0 0 Col.reset).slot? ep0.slot = some ⟨1, 0, 0, false, 15, true⟩ ∧
    1 = (sTree 0 0 0 Col.reset).ga (Reg.COL_TREE.domain 4095) ∧ (sTree 0 0 0 Col.reset).col.members.length < 8192 ∧
    (inMode .service).treeValid (inMode .service).crs.active 4095 = false := by decide +kernel
theorem wit_CollectiveCommands : mayConfigure (inMode .service) mc0 (Reg.COL_TREE.off 4095 + 4 * 7) ∧ mayConfigure (inMode .service) mc0 Reg.COL_CMD.off ∧
    Requester.mgmt mc0 = true ∧ Requester.mgmt (.fn 1) = false ∧ (inMode .service).shadowClosed = false ∧
    ({ inMode .service with crs := { Crs.reset with armed := true } } : State).shadowClosed = true ∧ ((inMode .service).colTree 4095).error = false ∧
    (({ inMode .service with col := colE } : State).colTree 4095).error = true ∧ (({ inMode .service with col := colE } : State).colTree 4095).seen ≤ 0 ∧
    2 ≤ ((2 : BitVec 48) - (inMode .service).crs.course).toNat ∧ ((1 : BitVec 48) - (inMode .service).crs.course).toNat < 2 := by
  unfold mayConfigure; decide
def colR : Col := { colE with trees := [(4095, { ColTree.reset with error := true, resume := some (9, 65535) })] }
theorem wit_CollectiveResume : (({ at_ 65535 0 with col := colR } : State).colTree 4095).resume = some (9, 65535) ∧
    (({ at_ 65535 0 with col := colR } : State).colTree 4095).error = true ∧ serialLe (65535 : BitVec 48).toNat (at_ 65535 0).course 48 = true ∧
    colR.badTrees.contains 4095 = false ∧ (at_ 65535 0).crs.cycle = 0 ∧ (at_ 65535 1).crs.cycle ≠ 0 := by decide
/-- An accepted operation of endpoint 3: a sum of one 32-bit integer, a barrier, or a broadcast. -/
def colOp (op : Nat) (source : Bool) : ColOp :=
  { q := 7, ctr := 0, ep := 3, tree := 4095, set := 0, gen := 0, csn := 0, h := ⟨op, 0, if op = 3 then 0 else 4, 0, 0, if op = 3 then 0 else 1⟩, source := source,
    want := true, src := 4096, res := 4096, ovr := false, next := 0, bytes := 0, flags := 0, contrib := 0, fault := none }
def sCol (o : ColOp) (x : XUnit) : State := (sTree 0 0 0 { colM with ops := [o] }).setXu 0 x
def tlb0 : TlbEnt :=
  { as_ := 1, page := 4096, size := 12, out := 8192, r1 := 0x7F, lvl1 := 7, r2 := 0, lvl2 := 7, owner := 0, priv := false, s2 := false, fill := 0,
    locked := false }
def colReq : XReq := ⟨1, 4096, 0, 0, false, false, .access, .chunk 4095 3 0 0 false⟩
theorem wit_MemberChunks : (sCol (colOp 3 false) XUnit.reset).readable 4095 3 = some (colOp 3 false) ∧ (sCol (colOp 3 false) XUnit.reset).ep? 3 = some ep0 ∧
    (sCol (colOp 3 false) XUnit.reset).mode = .service ∧ (colOp 3 false).h.op = 3 ∧
    (sCol (colOp 1 false) XUnit.reset).readable 4095 3 = some (colOp 1 false) ∧ (colOp 1 false).source = false ∧
    (sCol (colOp 1 true) XUnit.reset).readable 4095 3 = some (colOp 1 true) ∧ (colOp 1 true).source = true ∧
    (sCol (colOp 0 false) XUnit.reset).readable 4095 3 = some (colOp 0 false) ∧ (colOp 0 false).h.op ≠ 3 ∧ (colOp 0 false).h.op ≠ 1 ∧
    ((sCol (colOp 0 false) { XUnit.reset with results := [(colReq, .fault ⟨1, 1, 0, 7, 0, 0⟩)] }).xlateRun 0 colReq ((colOp 0 false).h.downBytes 0)).2 =
      .fault ⟨1, 1, 0, 7, 0, 0⟩ 4096 ∧
    ((sCol (colOp 0 false) { XUnit.reset with tlb := [tlb0] }).xlateRun 0 colReq ((colOp 0 false).h.downBytes 0)).2 = .run [(8192, 4)] ∧
    readPieces ⟨[], []⟩ [(8192, 4)] = .data (Data.append (Data.ofNat 4 0) Data.empty) := by decide +kernel
def chunk0 (st : ColSt) : ColChunk :=
  { tree := 4095, gen := 0, csn := 0, idx := 0, set := 0, h := ⟨3, 0, 0, 0, 0, 0⟩, st := st, folded := [], stored := [], acc := ⟨Data.empty, 0, 1, false⟩ }
def sChunk (root : Nat) (st : ColSt) : State :=
  sTree 0 root 1 { colM with chunks := [chunk0 st], opens := [(4095 * 2 ^ 24, ⟨0, 0⟩)] }
/-- A collective packet of a type: tree 4095, operation 3 (or `op`), arrived on port 0. -/
def colPkt (type op : Nat) : Data := ⟨64, Hdr.seal (1 <<< 78 + type <<< 85) + 4095 <<< 128 + op <<< 152⟩
def sColRx (type op : Nat) (s : State) : State := { s with sch := { Sch.reset with hubRx := [(6, [(colPkt type op, 0)])] } }
theorem wit_CollectiveChunks : (sChunk 0 .ready).nextReady 4095 = some (chunk0 .ready) ∧ (sChunk 0 .ready).live = true ∧ (sChunk 0 .ready).treeRoot 0 4095 = false ∧
    (∀ ty ∈ [0x20, 0x21, 0x22, 0x1F], (sColRx ty 3 (sChunk 0 .downwait)).hubQ 6 = (colPkt ty 3, 0) :: [] ∧ Hdr.type (colPkt ty 3).hdr = ty) ∧
    (inMode .service).chunk? (parseCol (colPkt 0x21 3)).c.tree 0 0 0 = none ∧
    (sChunk 0 .downwait).chunk? (parseCol (colPkt 0x21 3)).c.tree 0 0 0 = some (chunk0 .downwait) ∧ (chunk0 .downwait).h = (parseCol (colPkt 0x21 3)).c.h ∧
    (chunk0 .downwait).h ≠ (parseCol (colPkt 0x21 2)).c.h ∧
    0 = (parseCol (colPkt 0x22 0)).c.set ∧ 4095 = (parseCol (colPkt 0x22 0)).c.tree ∧
    ((sColRx 0x22 0 (sChunk 0 .downwait)).hubPop 6).treeValid 0 4095 = true ∧
    ((sColRx 0x22 0 (sChunk 0 .downwait)).hubPop 6).treeGen 0 4095 = (parseCol (colPkt 0x22 0)).c.gen ∧
    (((sColRx 0x22 0 (sChunk 0 .downwait)).hubPop 6).colTree 4095).error = false ∧ ¬ Hdr.type (colPkt 0x1F 0).hdr ∈ [0x20, 0x21, 0x22] ∧
    (inMode .monitor).live = false := by decide +kernel
def sColTime : State := { (sChunk 1 .gather).put Reg.COL_CFG.op_limit 7 with crs := { Crs.reset with course := 7 } }
/-- Up packets from port 0, the one child, and down packets: the tree in order, its payload in clear, and its sequence numbers. -/
theorem wit_CollectivePackets :
    ((sColRx 0x20 3 (sChunk 1 .downwait)).hubPop 6).treeChildren (parseCol (colPkt 0x20 3)).c.set 4095 = [0] ∧
    (((sColRx 0x20 3 (sChunk 1 .downwait)).hubPop 6).colOpen (parseCol (colPkt 0x20 3)) (colPkt 0x20 3) 0x20 0).isSome = true ∧
    (((sColRx 0x20 3 (sChunk 1 .downwait)).hubPop 6).treeValid 0 4095 = true) ∧ ((sColRx 0x20 3 (sChunk 1 .downwait)).hubPop 6).treeGen 0 4095 = (parseCol (colPkt 0x20 3)).c.gen ∧
    (((sColRx 0x21 3 (sChunk 0 .downwait)).hubPop 6).treeRoot 0 4095 = false) ∧ ((sColRx 0x21 3 (sChunk 0 .downwait)).hubPop 6).treeParent 0 4095 = 0 ∧
    serialCmp (parseCol (colPkt 0x20 3)).c.csn (((sColRx 0x20 3 (sChunk 1 .downwait)).hubPop 6).colTree 4095).low 24 ≠ .before ∧
    (chunk0 .gather).st = .gather ∧ (0 ∉ (chunk0 .gather).folded) ∧ (sChunk 0 .gather).slotFree 0 4095 0 = true ∧ (chunk0 .gather).h.inOrder = false ∧
    (sChunk 0 .gather).forwarding 4095 = none ∧ ((sChunk 0 (.forward [0])).forwarding 4095).isSome = true ∧
    (({ inMode .service with col := colM } : State).colTree 4095).error = false := by decide +kernel
theorem wit_CollectiveTimeout : sColTime.live = true ∧ sColTime.treeValid sColTime.crs.active 4095 = true ∧ sColTime.crs.active < 2 ∧
    sColTime.treeRoot sColTime.crs.active 4095 = true ∧ sColTime.g Reg.COL_CFG.op_limit ≠ 0 ∧
    (4095 * 2 ^ 24, (⟨0, 0⟩ : When)) ∈ sColTime.col.opens ∧ 4095 * 2 ^ 24 / 2 ^ 24 = 4095 ∧ sColTime.g Reg.COL_CFG.op_limit ≤ sColTime.over ⟨0, 0⟩ := by decide +kernel

/-! ### Bridges -/

theorem wit_WindowWrites : isPf 512 = true ∧ vfOf (.fn 512) = none ∧ vfOf (.fn 767) = some 767 ∧ (inMode .service).canAccess (.fn 767) = true ∧
    ofPort (.fn 512) (hpOf 512) = true ∧ (∀ g, mc0 = .fn g → g = 767) := by
  refine ⟨by decide, by decide, by decide, by decide, by decide, by simp [mc0]⟩
theorem wit_WindowConfigures : mayConfigure (inMode .service) mc0 (winOff 767 7 + 4 * 3) ∧ mayConfigure (inMode .service) (.fn 512) (winOff 512 63 + 4 * 3) := by
  unfold mayConfigure; decide
/-- Window 63 of function 0: a valid endpoint, and its last word as given. -/
def sWin (w3 : Nat) (b : Brg) : State :=
  { ((((sHost sq0 cq0).put (Reg.BRG_FN_CFG.endpoint 0) 3).put (Reg.BRG_FN_CFG.enable 0) 1).setWord (winOff 0 63 + 12) (w3 <<< 27)) with brg := b }
def win0 (en er : Bool) : Win :=
  { key := 0, offset := 0, targetEp := 0, target := 0, enable := en, acked := false, prefetch := false, ordered := false, err := er }
def brg0 : Brg := ⟨0, [], [], [], []⟩
theorem wit_WindowEntry : ((sWin 16 brg0).win 0 63).enable = true ∧ ((sWin 0 brg0).win 0 63).enable = false ∧
    Tbl.find? (sWin 16 { brg0 with errAt := [(63, 0)] }).brg.errAt (0 * 64 + 63) = some (sWin 16 brg0).cycles ∧
    ((sWin 16 { brg0 with reads := List.replicate 768 (0, ⟨0, 63, win0 true false, 3, 0, 0, 0, 4, ⟨0, 0⟩, none, 5, false⟩) }).brg.reads.filter
      (fun r => r.1 == hpOf 0)).length = 768 := by decide +kernel
/-- The last bytes of window 63. -/
def offLast : Nat := 2 ^ 32 - 4
theorem wit_WindowAccept : (sWin 16 brg0).accept 0 (offLast / 2 ^ 26) true = .ok 3 (win0 true false) ∧ enabledRuns 0 4 0 = [] ∧ brg0.pf = [] ∧
    enabledRuns 0xE 4 0 = [(1, 3)] ∧ (sWin 0 brg0).accept 0 (offLast / 2 ^ 26) true = .ur ∧
    (sWin 16 brg0).accept 0 (offLast / 2 ^ 26) (1 == 0) = .ur ∧ (sWin 17 brg0).accept 0 (offLast / 2 ^ 26) (0 == 0) = .ca ∧
    ((sWin 16 brg0).brg.reads.filter (fun r => r.1 == hpOf 0)).length < 768 := by decide
def bw0 : BWrite := ⟨0, 63, win0 true false, 3, 0, offLast % 2 ^ 26, ⟨4, 0⟩, none⟩
def br0 (op : Option Nat) : BRead := ⟨0, 63, win0 true false, 3, 0, 1023, offLast % 2 ^ 26, 4, ⟨0, 0⟩, op, 5, false⟩
def brgOp (dest : PaySrc) (status : Nat) : Op := { op9 with origin := .brgRead 5, dest := dest, done := some (Res.of status 0) }
def sBrg (course : Course) (b : Brg) (o : Op) : State :=
  { sWin 16 b with crs := { Crs.reset with course := course }, trn := { Trn.reset with ops := [(9, o)] } }
theorem wit_WindowSends : Tbl.find? (sBrg 0 ⟨6, [(5, bw0)], [], [], []⟩ op9).brg.writes 5 = some bw0 ∧ bw0.op = none ∧ (sBrg 0 ⟨6, [(5, bw0)], [], [], []⟩ op9).live = true ∧
    (bw0.w.acked = true → ((sBrg 0 ⟨6, [(5, bw0)], [], [], []⟩ op9).win 0 63).err = false) ∧ (sBrg 0 ⟨6, [(5, bw0)], [], [], []⟩ op9).writeMayGo 5 bw0 = true ∧
    Tbl.find? (sBrg 0 ⟨6, [(5, { bw0 with op := some 9 })], [], [], []⟩ (brgOp .none_ stREMOTE)).brg.writes 5 = some { bw0 with op := some 9 } ∧
    (sBrg 0 ⟨6, [(5, { bw0 with op := some 9 })], [], [], []⟩ (brgOp .none_ stREMOTE)).opFailed (some 9) = some (Res.of stREMOTE 0) := by decide
def pf0 : PfEnt := ⟨0, 63, 0, 256, 9, some (⟨256, 0⟩, 0), false, ⟨0, 0⟩⟩
theorem wit_WindowReads : (sBrg 0 ⟨6, [], [(0, br0 (some 9))], [], []⟩ (brgOp (.chunks []) 0)).read? 5 = some (br0 (some 9)) ∧
    (br0 (some 9)).op.bind (sBrg 0 ⟨6, [], [(0, br0 (some 9))], [], []⟩ (brgOp (.chunks []) 0)).op? = some (brgOp (.chunks []) 0) ∧
    (brgOp (.chunks []) 0).done = some (Res.of 0 0) ∧ (brgOp (.chunks []) 0).dest = .chunks [] ∧ (Res.of stREMOTE 0).status ≠ 0 ∧
    (sBrg 65535 ⟨6, [], [(0, br0 none)], [], []⟩ op9).read? 5 = some (br0 none) ∧
    max 1 ((sBrg 65535 ⟨6, [], [(0, br0 none)], [], []⟩ op9).g Reg.BRG_CFG.read_tmo) ≤ (sBrg 65535 ⟨6, [], [(0, br0 none)], [], []⟩ op9).over ⟨0, 0⟩ := by decide
/-- A read that waits for an earlier write, one whose window has failed, one of no bytes, one that a prefetched line holds, and one that goes out. -/
def brRead (acked : Bool) (len addr : Nat) : BRead := { br0 none with len := len, addr := addr, w := { win0 true false with acked := acked } }
theorem wit_ReadGo : (sBrg 0 ⟨6, [(0, bw0)], [(0, br0 none)], [], []⟩ op9).writesBefore (br0 none) = true ∧
    (sBrg 0 ⟨6, [], [(0, br0 none)], [], []⟩ op9).writesBefore (br0 none) = false ∧ (br0 none).op = none ∧ (br0 none).failed = false ∧
    { br0 none with failed := true }.failed = true ∧ ((sWin 17 brg0).win 0 63).err = true ∧ (brRead true 4 0).w.acked = true ∧ (brRead false 0 0).len = 0 ∧
    ((sBrg 0 ⟨6, [], [], [(5, pf0)], []⟩ op9).put Reg.BRG_CFG.pf_life 1).pfHit (brRead false 4 252) = some ⟨4, 0⟩ ∧
    ((sBrg 0 ⟨6, [], [], [(5, pf0)], []⟩ op9).put Reg.BRG_CFG.pf_life 1).pfHit (brRead false 4 253) = none ∧
    (Data.mk 4 0).len ≤ min (Data.mk 4 0).len (64 - 60 % 64) ∧ 64 - 61 % 64 < (Data.mk 4 0).len ∧ op9.done = none ∧
    ({ pf0 with data := none }).data = none ∧ (sBrg 0 ⟨6, [], [(0, br0 (some 9))], [], []⟩ op9).op? 9 = some op9 ∧
    ({ win0 true false with acked := true }).acked = true := by decide +kernel
theorem wit_Prefetches : Tbl.find? (sBrg 65535 ⟨6, [], [], [(5, pf0)], []⟩ op9).brg.pf 5 = some pf0 ∧ pf0.data = some (⟨256, 0⟩, 0) ∧
    0 + (sBrg 65535 ⟨6, [], [], [(5, pf0)], []⟩ op9).g Reg.BRG_CFG.pf_life ≤ (beats (2 ^ 32) (sBrg 65535 ⟨6, [], [], [(5, pf0)], []⟩ op9)).cycles ∧
    ((sBrg 0 ⟨6, [], [], [(5, pf0)], []⟩ op9).put Reg.BRG_CFG.pf_life 1).cycles < 0 + ((sBrg 0 ⟨6, [], [], [(5, pf0)], []⟩ op9).put Reg.BRG_CFG.pf_life 1).g Reg.BRG_CFG.pf_life := by
  decide

/-! ### The Lintel bridge -/

/-- The lintel with board bus 3 in use. -/
def sLtl (mode : Nat) (l : Ltl) : State :=
  { (((((at_ 0 383).put Reg.MGT_MC_CTRL.run 4).put Reg.LTL_CFG.enable 1).put (Reg.LTL_BUS_CFG.enable 3) 1).put (Reg.LTL_BUS_CFG.mode 3) mode).put (Reg.LTL_BUS_CFG.alert_pull 3) 1 with
    ltl := l }
theorem wit_LintelPackets : (sLtl 0 Ltl.reset).ltlRuns = true ∧ (sLtl 0 Ltl.reset).ltlPort 3 = true ∧ (inMode .service).ltlRuns = false ∧
    (sLtl 0 Ltl.reset).ltlPort 2 = false ∧ 68 < (⟨69, 0⟩ : Data).len ∧ (⟨68, 0xFE00⟩ : Data).len ≤ 68 ∧ mctpDst ⟨68, 0xFE00⟩ = 0xFE ∧
    0xFE ≠ (sLtl 0 Ltl.reset).g Reg.LTL_CFG.eid ∧ (sLtl 0 Ltl.reset).g (Reg.LTL_ROUTE.valid 0xFE) = 0 := by decide
/-- A record for port 3 with a packet of 68 bytes. -/
def rec3 : Data := Data.ofNat 76 (packB [(0, 8, 1), (1, 3, 3), (4, 7, 68)])
def send0 (tries : Nat) : LtlSend := ⟨0x10, ⟨68, 0⟩, tries⟩
def sSend (p tries : Nat) : State := (sLtl 0 { Ltl.reset with egress := [(p, [send0 tries])] })
theorem wit_LintelQueues : (sLtl 0 { Ltl.reset with records := [rec3] }).ltl.records = rec3 :: [] ∧ rec3.field 0 0 8 = 1 ∧ rec3.field 1 0 3 = 3 ∧
    (rec3.slice 8 (rec3.field 4 0 7)).len ≤ 68 ∧ ((sLtl 0 { Ltl.reset with records := [rec3] }).egress 3).length < 32 ∧
    (sSend 3 0).egress 3 = send0 0 :: [] ∧ (send0 0).tries < ((sSend 3 0).put (Reg.LTL_BUS_CFG.retries 3) 1).g (Reg.LTL_BUS_CFG.retries 3) ∧
    ((sSend 3 1).put (Reg.LTL_BUS_CFG.retries 3) 1).g (Reg.LTL_BUS_CFG.retries 3) ≤ (send0 1).tries := by decide +kernel
/-- EID 254 by a route to bus 3, to another device, and without one; its port with room, and full. -/
def sRouteTo (remote : Nat) (n : Nat) : State :=
  (((sLtl 0 { Ltl.reset with egress := [(3, List.replicate n (send0 0))] }).put (Reg.LTL_ROUTE.valid 0xFE) 1).put (Reg.LTL_ROUTE.remote 0xFE) remote).put
    (Reg.LTL_ROUTE.port 0xFE) 3
theorem wit_LintelRoutes : 0xFE = mctpDst ⟨68, 0xFE00⟩ ∧ 0xFE ≠ 0xFF ∧ 0xFE ≠ 0 ∧ (sRouteTo 0 31).g (Reg.LTL_ROUTE.valid 0xFE) = 1 ∧ 0xFE ∉ (sRouteTo 0 31).ltl.bad ∧
    (sRouteTo 0 31).g (Reg.LTL_ROUTE.remote 0xFE) = 0 ∧ (sRouteTo 0 31).g (Reg.LTL_ROUTE.port 0xFE) = 3 ∧ ((sRouteTo 0 31).egress 3).length = 31 ∧
    ((sRouteTo 0 32).egress 3).length = 32 ∧ (sRouteTo 1 0).g (Reg.LTL_ROUTE.remote 0xFE) = 1 ∧ (sRouteTo 1 0).mgRuns = true ∧ (inMode .fenced).mgRuns = false ∧
    mctpDst ⟨68, 0xFF00⟩ = 0xFF ∧ mctpDst ⟨68, 0⟩ = 0 ∧ (sLtl 0 Ltl.reset).ltlPort 2 = false ∧
    (∀ i, i < 12 → ((sLtl 0 Ltl.reset).sbRuns 0).getD i 0 < max 1 ((sLtl 0 Ltl.reset).g Reg.LTL_SB_CFG.debounce)) := by decide +kernel
theorem wit_LintelBuses : (sLtl 0 Ltl.reset).g (Reg.LTL_BUS_CFG.mode 3) = 0 ∧ (sLtl 0 Ltl.reset).g (Reg.LTL_BUS_CFG.alert_pull 3) = 1 ∧
    (sLtl 1 Ltl.reset).g (Reg.LTL_BUS_CFG.mode 3) = 1 ∧ (sLtl 0 Ltl.reset).counting = true ∧
    (sLtl 0 Ltl.reset).ltl.sbCourse ≠ some (sLtl 0 Ltl.reset).crs.course ∧ 256 ≤ (sLtl 0 Ltl.reset).crs.cycle ∧ (sLtl 0 Ltl.reset).crs.cycle ≤ 383 ∧
    (sLtl 0 { Ltl.reset with sbCourse := some 0 }).ltl.sbCourse = some (sLtl 0 Ltl.reset).crs.course ∧ (at_ 0 255).crs.cycle < 256 ∧
    383 < (at_ 0 384).crs.cycle := by decide

/-! ### Faults and self-test -/

theorem wit_FaultBanks : (∃ b l, srcBlock (bankSrc 1 2) = some (b, l)) ∧ ((inMode .service).bank 1).cause = none ∧
    (((inMode .service).setBank 1 { Bank.reset with cause := some ⟨false, false, 1, 0, 3, 0, 0, 0⟩ }).bank 1).cause ≠ none ∧
    (inMode .service).liveBit (bankSrc 1 2) = false ∧
    ((inMode .service).setSrc (bankSrc 1 2) { Src.reset (bankSrc 1 2) with real := true }).liveBit (bankSrc 1 2) = true := by
  refine ⟨⟨_, _, rfl⟩, by decide, by decide, by decide, by decide⟩
/-- Block 1 whose source `g` held the cause until this cycle, or holds it; source 2 with an event in this cycle. -/
def cause1 (g beat : Nat) : FltCause := ⟨false, false, 1, 1, g, 0, 0, beat⟩
theorem wit_FaultMerges : (({ Bank.reset with freed := some (0, cause1 (bankSrc 1 2) 0) } : Bank).freed.filter (fun f => f.1 == (inMode .service).cycles && f.2.source == bankSrc 1 2)) =
      some (0, cause1 (bankSrc 1 2) 0) ∧ Bank.reset.freed.filter (fun f => f.1 == (inMode .service).cycles && f.2.source == bankSrc 1 2) = none ∧
    (cause1 (bankSrc 1 3) 0).beat = (inMode .service).cycles ∧ bankSrc 1 2 < (cause1 (bankSrc 1 3) 0).source ∧ (cause1 (bankSrc 1 2) 0).condition = 1 ∧
    (cause1 (bankSrc 1 3) 1).beat ≠ (inMode .service).cycles ∧ (∃ b l, srcBlock (bankSrc 1 2) = some (b, l)) ∧
    ((inMode .service).setSrc (bankSrc 1 2) { Src.reset (bankSrc 1 2) with evAt := some (0, false) }).meets (bankSrc 1 2) true = true ∧
    ((inMode .service).src (bankSrc 1 2)).evAt.map Prod.fst ≠ some (inMode .service).cycles ∧
    (({ Src.reset (bankSrc 1 2) with evAt := some (0, false) } : Src).evAt.map Prod.fst) = some (inMode .service).cycles := by
  refine ⟨by decide, by decide, by decide, by decide, by decide, by decide, ⟨_, _, rfl⟩, by decide, by decide, by decide⟩
theorem wit_FaultCommands : mayConfigure (inMode .service) mc0 (bankOff 17 (0x100 + 4 * 31)) ∧ mayConfigure (inMode .service) mc0 (bankOff 1 0x200) := by
  unfold mayConfigure; decide
theorem wit_FaultForced : ((inMode .service).src (bankSrc 11 1)).force = false ∧ ((inMode .service).src (bankSrc 11 1)).real = false ∧
    (((inMode .service).setSrc (bankSrc 11 1) { Src.reset (bankSrc 11 1) with force := true }).src (bankSrc 11 1)).force = true ∧
    ((inMode .service).src (bankSrc 11 1)).pend = false ∧ srcLevel 11 1 = false ∧ srcLevel 4 0 = false ∧ (∃ c l, srcLevel c l = true) ∧
    (let g := bankSrc 11 1; let x := { Src.reset g with due := true }; ((inMode .service).setSrc g x).srcs.filter (fun e => e.2.due) = [(g, x)]) ∧
    (inMode .service).meets (bankSrc 11 1) true = false ∧ ((inMode .service).bank 11).act = false ∧ ({ Bank.reset with act := true } : Bank).act = true ∧
    srcActs 11 1 = true ∧ srcWaits 11 1 = true ∧ srcWaits 4 0 = false ∧ ((inMode .service).forcedOn 4 0 63).isSome = true ∧
    (inMode .service).forcedOn 4 0 64 = none := by
  refine ⟨by decide, by decide, by decide, by decide, by decide, by decide, ⟨3, 512, by decide⟩, by decide, by decide, by decide, by decide, by decide,
    by decide, by decide, by decide, by decide⟩
def sPend : State :=
  { (inMode .service).setSrc (bankSrc 11 2) { Src.reset (bankSrc 11 2) with pend := true } with
    rma := { Rma.reset with dataReads := [(false, 9, 0, 0)] } }
theorem wit_ForcedConsequence : ∃ b t, srcBlock (bankSrc 11 2) = some (b, 2) ∧ (sPend.src (bankSrc 11 2)).pend = true ∧ sPend.forcedNext b.code 2 0 = some t :=
  ⟨_, _, rfl, by decide, rfl⟩
/-- A mode in the last cycle in which a slice may start, with slices enabled and MC2 running. -/
def sBst (m : Mode) (course : Course) : State := 
  { (({ inMode m with crs := { Crs.reset with course := course, cycle := 1151 } } : State).put Reg.MGT_MC_CTRL.run 2).put Reg.BST_CFG.enable 1 with free := 0 }
theorem wit_SliceStart : (sBst .transit (1423 * 4096)).mode = .transit ∧ (sBst .transit (1423 * 4096)).coreRuns 2 = true ∧
    384 ≤ (sBst .transit (1423 * 4096)).crs.cycle ∧ (sBst .transit (1423 * 4096)).crs.cycle ≤ 1151 ∧ (sBst .transit (1423 * 4096)).g Reg.BST_CFG.enable = 1 ∧
    (sBst .transit (1423 * 4096)).slicing = false ∧ (sBst .transit (1423 * 4096)).course % 4096 = 0 ∧
    (sBst .transit (1423 * 4096)).bst.slot ≠ some ((sBst .transit (1423 * 4096)).course / 4096) ∧
    (sBst .transit (1423 * 4096)).slotEntry = some 1423 ∧ 1423 = (sBst .transit (1423 * 4096)).course % 2 ^ 24 / 4096 ∧
    (sBst .transit (1423 * 4096)).retired (entryUnit 1423).1 (entryUnit 1423).2 = false ∧ (sBst .service (1424 * 4096)).slotEntry = none := by decide +kernel
/-- A slice in a phase: unit 0 of a class, begun in course 0. -/
def sSlice (m : Mode) (phase cls : Nat) (course : Course) : State :=
  { (((sBst m course).put Reg.BST_STATUS.active 1).put Reg.BST_STATUS.phase phase).put Reg.BST_STATUS.cls cls with bst := { Bst.reset with began := some ⟨0, 1151⟩, enabled := true } }
theorem wit_SlicePhases : (sSlice .service 1 2 1024).coreRuns 2 = true ∧ (sSlice .service 1 2 1024).abortDue = false ∧
    (sSlice .service 2 2 0).abortDue = false ∧ ((sSlice .service 3 2 0).put Reg.BST_CFG.enable 0).bst.enabled = true ∧
    ((sSlice .service 3 2 0).put Reg.BST_CFG.enable 0).g Reg.BST_CFG.enable = 0 ∧
    (sSlice .service 1 2 1024).slicing = true ∧ (sSlice .service 1 2 1024).g Reg.BST_STATUS.phase = 1 ∧
    (sSlice .service 1 2 1024).sliceUnit = (2, 0) ∧ (sSlice .service 1 2 1024).unitReady 2 0 = true ∧ (sSlice .service 1 2 1024).sliceMode = true ∧
    (sSlice .service 1 2 1024).bst.began = some ⟨0, 1151⟩ ∧ 1024 ≤ (sSlice .service 1 2 1024).over ⟨0, 1151⟩ ∧ (sSlice .service 2 2 0).g Reg.BST_STATUS.phase = 2 ∧
    (sSlice .drain 3 2 0).g Reg.BST_STATUS.phase ≤ 3 ∧ (sSlice .drain 3 2 0).sliceMode = false ∧ (inMode .service).slicing = false ∧
    (inMode .service).g Reg.BST_CMD_STATUS.busy ≠ 1 ∧ mc0.mgmt = true ∧ (inMode .drain).mode = .drain ∧
    ((inMode .drain).put (Reg.BST_REPAIR.valid 511) 1).g (Reg.BST_REPAIR.valid 511) ≠ 0 ∧
    ((inMode .drain).put (Reg.BST_REPAIR.valid 511) 1).g (Reg.BST_REPAIR.fused 511) = 0 := by decide
/-- Results of one word that agree with the unit's signature, and results that do not. -/
theorem wit_SliceSignature : ∃ x y, misrFold (sSlice .service 2 2 0).bst.misr x = Config.golden (sSlice .service 2 2 0).sliceUnit.1 % 2 ^ 64 ∧
    misrFold (sSlice .service 2 2 0).bst.misr y ≠ Config.golden (sSlice .service 2 2 0).sliceUnit.1 % 2 ^ 64 := by
  have e : (sSlice .service 2 2 0).bst.misr = 0 := rfl
  rw [e]
  generalize Config.golden (sSlice .service 2 2 0).sliceUnit.1 = g
  have one : ∀ x < 2 ^ 64, misrFold 0 x = x := fun x h => by
    have l : x.log2 / 64 = 0 := by
      by_cases z : x = 0
      · rw [z]; decide
      · exact Nat.div_eq_of_lt ((Nat.log2_lt z).mpr h)
    simp [misrFold, testWords, l, misrStep, bits, bit, Nat.mod_eq_of_lt h] <;> omega
  refine ⟨_, if g % 2 ^ 64 = 0 then 1 else 0, one _ (Nat.mod_lt _ (by decide)), ?_⟩
  split <;> rw [one _ (by decide)] <;> omega

/-! ### Boot and the management plane -/

/-- STRAP with boot sources `strap`, the boot status stage and the mailbox state as given. -/
def sBoot (strap stage mb : Nat) (m : Mgt) : State :=
  { (((State.reset.put Reg.GLB_BOOT_STATUS.stage stage).put Reg.MGT_BOOT_MBOX.state mb).put Reg.MGT_BOOT_MBOX.length 1024) with
    glb := { Glb.reset with strapBoot := strap }, mgt := m }
theorem wit_BootMailbox : (sBoot 0 3 0 Mgt.reset).mode = .strap ∧ (sBoot 0 3 0 Mgt.reset).hostBoot = true ∧ isPf 512 = true ∧
    (sBoot 0 3 0 Mgt.reset).hpPresent (hpOf 512) = true ∧ (sBoot 0 3 0 Mgt.reset).g Reg.MGT_BOOT_MBOX.state = 0 ∧
    (sBoot 0 3 1 Mgt.reset).g Reg.MGT_BOOT_MBOX.state = 1 ∧ 3 ≤ (sBoot 0 3 1 Mgt.reset).g Reg.GLB_BOOT_STATUS.stage ∧
    (sBoot 0 3 1 Mgt.reset).mgt.goPend = false ∧ (sBoot 0 3 1 { Mgt.reset with goPend := true }).mgt.goPend = true ∧ (sBoot 0 3 1 Mgt.reset).mgt.goAt = (sBoot 0 3 1 Mgt.reset).cycles ∧
    hpOf 512 < ((sBoot 0 3 1 Mgt.reset).put Reg.MGT_BOOT_MBOX.owner 3).g Reg.MGT_BOOT_MBOX.owner ∧
    (sBoot 0 3 1 Mgt.reset).mgt.hostGot.len < (sBoot 0 3 1 Mgt.reset).g Reg.MGT_BOOT_MBOX.length ∧
    (sBoot 0 3 1 { Mgt.reset with hostGot := ⟨1024, 0⟩ }).bootImage 0 = some ⟨1024, 0⟩ := by decide
def fetch0 : Fetch := { got := Data.empty, sends := 15, sentAt := 0, tag := 7, full := false, retryAt := none }
def sFetch (f : Fetch) (inq : List MgIn) : State :=
  (sBoot 2 3 0 { Mgt.reset with bootCycle := 64 * 1280, fetch := [(63, f)], inq := inq }).setLk 63 { Lnk.reset with st := .up }
/-- A management packet of a type with a header, its first payload bytes as a number. -/
def mgPkt (type : Nat) (m : MgH) (more : Nat) : Data := (mkPacket (Hdr.seal (1 <<< 78 + type <<< 85)) m.data).append ⟨4096, more⟩
def mgh0 : MgH := ⟨0, 0, 0, 0, 7, 0, 0, 0, 0, 0, 1⟩
theorem wit_FabricFetch : (sFetch fetch0 []).fetch? 63 = some fetch0 ∧ (sFetch fetch0 []).mode = .strap ∧ fetch0.full = false ∧ fetch0.retryAt = none ∧
    64 * 1280 ≤ (sFetch fetch0 []).mgt.bootCycle - fetch0.sentAt ∧ fetch0.sends < 16 ∧ 16 ≤ { fetch0 with sends := 16 }.sends ∧
    (sFetch { fetch0 with retryAt := some 0 } []).fetch? 63 = some { fetch0 with retryAt := some 0 } ∧
    64 * 1280 ≤ (sFetch { fetch0 with retryAt := some 0 } []).mgt.bootCycle - 0 ∧ (sFetch fetch0 []).up 63 = true := by decide
/-- FW_DATA whose image names `n` bytes. -/
def fwData (n : Nat) : MgIn := ⟨mgPkt 0x35 mgh0 (n <<< 64), 63⟩
theorem wit_FwData : ∀ n ∈ [64, 2 ^ 21], (((sFetch fetch0 [fwData n]).mgTake [0x35]).map (fun e => (e.1, e.2.fetch? 63))) = some (fwData n, some fetch0) ∧
    (MgH.of (fwData n).d).tag = fetch0.tag ∧ (MgH.of (fwData n).d).addr = fetch0.got.len ∧ (MgH.of (fwData n).d).status = 0 ∧
    (MgH.of (fwData n).d).count ≠ 0 ∧
    ({ fetch0 with got := fetch0.got.append (mgPayload (fwData n).d 64) } : Fetch).total = some n ∧ n ≤ 2 ^ 21 := by decide +kernel
/-- TRAIN with delivered packets; port 63 is a service port, and up. -/
def sMg (inq : List MgIn) : State :=
  { ((((inMode .train).put Reg.MGT_MC_CTRL.run 1).putSetW 0 (Reg.RTE_PORT_ROLE.off 63) 4).setLk 63 { Lnk.reset with st := .up }) with mgt := { Mgt.reset with inq := inq } }
def mgIn (type ep : Nat) : MgIn := ⟨mgPkt type { mgh0 with dstEp := ep } 0, 63⟩
theorem wit_FwService : (sMg [mgIn 0x34 3]).coreRuns 1 = true ∧ (inMode .train).coreRuns 1 = false ∧
    ((sMg [mgIn 0x34 3]).mgTake [0x34]).map Prod.fst = some (mgIn 0x34 3) ∧ (sMg [mgIn 0x34 3]).mgRuns = true ∧
    ((sMg [mgIn 0x34 3]).put Reg.MGT_FW_SERVE.enable 1).g Reg.MGT_FW_SERVE.enable = 1 ∧ (sMg []).role (sMg []).crs.active 63 = 4 ∧ (sMg []).up 63 = true ∧
    ((sMg []).put Reg.MGT_FW_SERVE.enable 0).g Reg.MGT_FW_SERVE.enable = 0 := by decide +kernel
/-- A packet at hub port 7 that arrived on port 63. -/
def sHb7 (d : Data) : State := { sMg [] with sch := { Sch.reset with hubRx := [(7, [(d, 63)])] } }
def mgMine : Data := mgPkt 0x30 { mgh0 with dstDev := (sMg []).me } 0
/-- A management packet of a type born a number of courses before 0. -/
def mgBorn (age : Nat) : Data := mkPacket (Hdr.seal (1 <<< 78 + 0x30 <<< 85 + (2 ^ 16 - age) <<< 62)) mgh0.data
theorem wit_MgmtForward : (sHb7 ⟨64, 1⟩).hubQ 7 = (⟨64, 1⟩, 63) :: [] ∧ Hdr.crcOk (⟨64, 1⟩ : Data).hdr = false ∧ (sHb7 ⟨64, 1⟩).mgRuns = true ∧
    Hdr.crcOk (mgPkt 0x36 mgh0 0).hdr = true ∧ 0x36 ≤ Hdr.type (mgPkt 0x36 mgh0 0).hdr ∧ Hdr.crcOk mgMine.hdr = true ∧ (sHb7 mgMine).lifeCheck (Hdr.birth mgMine.hdr) = none ∧
    Hdr.crcOk (mgBorn 32767).hdr = true ∧ Hdr.type (mgBorn 32767).hdr < 0x34 ∧
    (sHb7 (mgBorn 32767)).lifeCheck (Hdr.birth (mgBorn 32767).hdr) = some true ∧ Hdr.type mgMine.hdr < 0x34 ∧
    Hdr.hops (mgPkt 0x30 { mgh0 with dstDev := 9 } 0).hdr ≠ 15 ∧ (sHb7 mgMine).mgPort { mgh0 with dstDev := 9 } = none ∧
    (((sHb7 mgMine).putSetW 0 (Reg.RTE_PORT_ROLE.off 63) 1).mgPort { mgh0 with rlen := 1, route := 63 }).isSome = true ∧
    (sHb7 mgMine).mode ≠ .strap ∧ (MgH.of mgMine).rlen = 0 ∧ (MgH.of mgMine).dstDev = (sHb7 mgMine).me := by decide +kernel
theorem wit_Agent : (sMg []).agentRuns = true ∧ (∀ ty ∈ [0x30, 0x31], ((sMg [mgIn ty 2]).mgTake [ty]).map Prod.fst = some (mgIn ty 2)) ∧ { mgh0 with dstEp := 1 }.dstEp ≠ 0x02 ∧
    (∀ ep ∈ [0, 2, 3], ((sMg [mgIn 0x33 ep]).mgTake [0x33]).map Prod.fst = some (mgIn 0x33 ep) ∧ (MgH.of (mgIn 0x33 ep).d).dstEp = ep) := by decide +kernel
/-- Mailbox 0 waits for a response with tag 7. -/
def box0 (resends : Nat) : Mailbox := { Mailbox.reset with tag := 7, op := 2, resends := resends }
def sBox (course : Course) (resends : Nat) (inq : List MgIn) : State :=
  { at_ course 0 with mgt := { Mgt.reset with boxes := [(0, box0 resends)], inq := inq } }
theorem mgIn_resp : ∀ ep < 256, ((sBox 0 0 [mgIn 0x32 ep]).mgTake [0x32]).map Prod.fst = some (mgIn 0x32 ep) ∧ (MgH.of (mgIn 0x32 ep).d).dstEp = ep ∧
    (MgH.of (mgIn 0x32 ep).d).tag = 7 := by decide +kernel
theorem wit_MgRespRx : ∃ x, ((sBox 0 0 [x]).mgTake [0x32]).map Prod.fst = some x ∧ (List.range 8).find? (fun m =>
      ((sBox 0 0 [x]).box m).op != 0 && ((sBox 0 0 [x]).box m).tag == (MgH.of x.d).tag && Config.mgmtEp m % 256 == (MgH.of x.d).dstEp) = some 0 ∧
    ((sBox 0 0 [x]).box 0).op ≠ 1 := by
  have h := mgIn_resp (Config.mgmtEp 0 % 256) (Nat.mod_lt _ (by decide))
  have e : ∀ x, (sBox 0 0 [x]).box 0 = box0 0 := fun _ => rfl
  refine ⟨_, h.1, ?_, by rw [e]; decide⟩
  rw [h.2.1, h.2.2, show List.range 8 = 0 :: [1, 2, 3, 4, 5, 6, 7] from rfl]
  exact List.find?_cons_of_pos (by rw [e]; simp [box0])
theorem wit_Mailboxes : boxOwner (.fn 768) 3 = true ∧ boxOwner (.mc 3) 7 = true ∧ boxOwner .monitor 4 = true ∧ boxOwner .fm 4 = false ∧
    boxOwner (.fn 1) 0 = false ∧ ((inMode .service).put (Reg.MGT_MG.busy 7) 1).g (Reg.MGT_MG.busy 7) = 1 ∧
    (sBox 65535 0 []).box 0 = box0 0 ∧ (box0 0).op ≠ 0 ∧ (sBox 65535 0 []).counting = true ∧
    max 1 ((sBox 65535 0 []).g Reg.MGT_MG_CFG.retry_courses) ≤ (sBox 65535 0 []).over (box0 0).sent ∧
    (box0 0).resends < ((sBox 65535 0 []).put Reg.MGT_MG_CFG.retries 1).g Reg.MGT_MG_CFG.retries ∧
    (sBox 65535 255 []).g Reg.MGT_MG_CFG.retries ≤ (box0 255).resends := by decide +kernel
theorem wit_Cores : (inMode .monitor).counting = true ∧ (inMode .monitor).mode ≠ .fenced ∧ bit ((inMode .monitor).put Reg.MGT_MC_CTRL.run 4 |>.g Reg.MGT_MC_CTRL.run) (3 - 1) = true ∧
    bufferOf (.fn 768) = some 3 ∧ bufferOf mc0 = some 4 ∧ bufferOf .fm = some 8 := by decide
theorem wit_ReadbackBusy : (inMode .service).rbkBusy 8 = false ∧ ({ inMode .service with mgt := { Mgt.reset with rbkEnd := [(8, 1)] } } : State).rbkBusy 8 = true := by decide
theorem wit_Readback : mayConfigure (inMode .service) mc0 (Reg.RBK_SEL.off 4 + 4) ∧ mayConfigure (inMode .service) .fm (Reg.RBK_SEL.off 8 + 4) := by
  unfold mayConfigure; decide

/-! ### The monitor -/

theorem wit_MonitorLines : (inMode .fenced).monOn = true ∧ parseLine (ascii "help") = some .help ∧ parseLine (ascii "id") = some .id ∧
    parseLine (ascii "rd 0x3FFFF00 64") = some (.rd 0x3FFFF00 64) ∧ 0x3FFFF00 % 4 = 0 ∧ 0x3FFFF00 + 4 * 64 ≤ 2 ^ 26 ∧
    parseLine (ascii "rbk 255 16777215 16") = some (.rbk 255 (2 ^ 24 - 1) 16) ∧ parseLine (ascii "flt 17") = some (.flt 17) ∧
    parseLine (ascii "time") = some .time ∧ parseLine (ascii "boot") = some .boot ∧ parseLine (ascii "unlock") = some .unlock ∧
    parseLine (ascii "resp 00000000-00000000-00000000-0000000f") = some (.resp 15) ∧ parseLine (ascii "lock") = some .lock ∧
    parseLine (ascii "wr 0x3fffffc 0xFFFFFFFF") = some (.wr (2 ^ 26 - 4) (2 ^ 32 - 1)) ∧ parseLine (ascii "mode 7") = some (.mode 7) ∧
    parseLine (ascii "baud 3000000") = some (.baud 3000000) ∧ parseLine (ascii "mcrun 3 1") = some (.mcrun 3 1) ∧
    parseLine (ascii "fuse 511") = some (.fuse 511) ∧ parseLine (ascii "reset") = some .reset ∧ parseLine (ascii "rd") = none ∧
    parseLine (List.replicate 128 32 ++ ascii "id") = none := by decide +kernel
def sMon (m : Mode) (course : Course) (k : Mon) : State :=
  { inMode m with crs := { Crs.reset with course := course }, mgt := { Mgt.reset with mon := k } }
theorem wit_MonitorState : (sMon .train 0 Mon.reset).mgt.mon.lockout = none ∧ (sMon .train 0 { Mon.reset with lockout := some ⟨0, 0⟩ }).mgt.mon.lockout.isSome = true ∧
    (sMon .train 255 { Mon.reset with challenge := some (5, ⟨0, 0⟩) }).mgt.mon.challenge = some (5, ⟨0, 0⟩) ∧ (sMon .train 255 Mon.reset).over ⟨0, 0⟩ < 256 ∧
    (sMon .train 0 { Mon.reset with unlocked := true }).mgt.mon.unlocked = true ∧ (sMon .train 0 { Mon.reset with unlocked := true }).mode ≠ .fenced ∧
    (sMon .train 0 { Mon.reset with unlocked := true }).liveBit 3 = false ∧ (sMon .train 0 Mon.reset).mgt.mon.unlocked = false ∧ (inMode .fenced).mode = .fenced := by
  decide
theorem wit_MonitorTimers : (inMode .off).mode = .off ∧ State.reset.mode = .strap ∧
    65536 ≤ (sMon .train 65536 { Mon.reset with unlocked := true }).over (sMon .train 65536 { Mon.reset with unlocked := true }).mgt.mon.lastLine ∧
    (sMon .train 65535 { Mon.reset with unlocked := true }).over ⟨0, 0⟩ < 65536 ∧ (sMon .train 0 { Mon.reset with lockout := some ⟨0, 0⟩ }).mgt.mon.lockout = some ⟨0, 0⟩ ∧
    2 ^ 24 ≤ (sMon .train 16777216 Mon.reset).over ⟨0, 0⟩ ∧ (sMon .train 16777215 Mon.reset).over ⟨0, 0⟩ < 2 ^ 24 := by decide

/-! ### What commands leave as they were -/

theorem wit_CommandsWriteOnly : ∃ t, exec (.frameLock 127) State.reset = .next t := ⟨_, rfl⟩
theorem wit_LaneCommandsStayInTheirPort : Instr.frameLock 127 ∈ [Instr.frameLock 127] ∧ ∃ t, exec (.frameLock 127) State.reset = .next t :=
  ⟨by decide, _, rfl⟩
theorem wit_LinkCommandsStayInTheirPort : ∃ t, exec (.phyUp 63) State.reset = .next t := ⟨_, rfl⟩

end Sys2Proof.Tests
end

section
/-! Reading a part of the state back after it has been written (R9, R13, R70, R463), and the frame of each such write. -/
namespace Sys2Proof.Machine

theorem Has.refl (l : List Sys2Proof.Part) : Has l l := ⟨fun _ h => h⟩

/-! ### Register words and the words of the configuration sets -/

@[simp] theorem State.word_setWord_self (s : State) (o v : Nat) : (s.setWord o v).word o = v % 2 ^ 32 := by
  simp [State.word, State.setWord]

theorem State.word_setWord_ne (s : State) {o k : Nat} (v : Nat) (h : k ≠ o) : (s.setWord o v).word k = s.word k := by
  simp only [State.word, State.setWord, Tbl.get_put_ne resetWord s.regs _ h.symm]

@[simp] theorem State.setW_putSetW_self (s : State) (b o v : Nat) : (s.putSetW b o v).setW b o = v % 2 ^ 32 := by
  simp [State.setW, State.putSetW]

/-- Two words of the sets share a key only if set and offset agree. -/
theorem setKey_ne {b c o k : Nat} (ho : o < 2 ^ 26) (hk : k < 2 ^ 26) (h : c % 2 ≠ b % 2 ∨ k ≠ o) : setKey b o ≠ setKey c k := by
  unfold setKey
  omega

theorem State.setW_putSetW_ne (s : State) {b c o k : Nat} (v : Nat) (h : Machine.setKey b o ≠ Machine.setKey c k) :
    (s.putSetW b o v).setW c k = s.setW c k := by
  simp only [State.setW, State.putSetW, Tbl.get_put_ne resetSet s.sets _ h]

/-! ### Counters -/

/-- R13: the count wraps at 64 bits. -/
@[simp] theorem State.ctr_bump_self (s : State) (c : Nat) : (s.bump c).ctr c = s.ctr c + 1 := by
  simp [State.ctr, State.bump, State.bumpBy]

theorem State.ctr_bump_ne (s : State) {c k : Nat} (h : k ≠ c) : (s.bump c).ctr k = s.ctr k := by
  simp only [State.ctr, State.bump, State.bumpBy, Tbl.get_put_ne (fun _ => (0 : Counter)) s.ctrs _ h.symm]

/-! ### Sources, banks, lanes, links and translation units -/

@[simp] theorem State.src_setSrc_self (s : State) (g : Nat) (x : Src) : (s.setSrc g x).src g = x := by
  simp [State.src, State.setSrc]

theorem State.src_setSrc_ne (s : State) {g k : Nat} (x : Src) (h : k ≠ g) : (s.setSrc g x).src k = s.src k := by
  simp only [State.src, State.setSrc, Tbl.get_put_ne Src.reset s.srcs _ h.symm]

@[simp] theorem State.bank_setBank_self (s : State) (c : Nat) (x : Bank) : (s.setBank c x).bank c = x := by
  simp [State.bank, State.setBank]

theorem State.bank_setBank_ne (s : State) {c k : Nat} (x : Bank) (h : k ≠ c) : (s.setBank c x).bank k = s.bank k := by
  simp only [State.bank, State.setBank, Tbl.get_put_ne (fun _ => Bank.reset) s.banks _ h.symm]

@[simp] theorem State.ln_setLn_self (s : State) (n : Nat) (x : Lane) : (s.setLn n x).ln n = x := by
  simp [State.ln, State.setLn]

theorem State.ln_setLn_ne (s : State) {n k : Nat} (x : Lane) (h : k ≠ n) : (s.setLn n x).ln k = s.ln k := by
  simp only [State.ln, State.setLn, Tbl.get_put_ne (fun _ => Lane.reset) s.phy.lanes _ h.symm]

@[simp] theorem State.lk_setLk_self (s : State) (p : Nat) (x : Lnk) : (s.setLk p x).lk p = x := by
  simp [State.lk, State.setLk]

theorem State.lk_setLk_ne (s : State) {p k : Nat} (x : Lnk) (h : k ≠ p) : (s.setLk p x).lk k = s.lk k := by
  simp only [State.lk, State.setLk, Tbl.get_put_ne (fun _ => Lnk.reset) s.lnk _ h.symm]

@[simp] theorem State.xu_setXu_self (s : State) (u : Nat) (x : XUnit) : (s.setXu u x).xu u = x := by
  simp [State.xu, State.setXu]

theorem State.xu_setXu_ne (s : State) {u k : Nat} (x : XUnit) (h : k ≠ u) : (s.setXu u x).xu k = s.xu k := by
  simp only [State.xu, State.setXu, Tbl.get_put_ne (fun _ => XUnit.reset) s.xlt _ h.symm]

/-! ### The statements -/

/-- Settles O9. -/
theorem counterWraps : Obligations.CounterWraps := by
  intro s c
  refine ⟨fun hones => ?_, s.ctr_bump_self c, fun k hk => s.ctr_bump_ne hk, s.bump_stays c (Has.refl _) (Stays.refl s)⟩
  rw [State.ctr_bump_self, hones]
  decide

/-- Settles O11: each part by its own pair of rules, the frames by the laws of what each write changes. -/
theorem partsReadBack : Obligations.PartsReadBack := by
  refine ⟨fun s o v => ?word, fun s b o v ho => ?setWord, fun s g x => ?source, fun s c x => ?bank, fun s n x => ?lane,
    fun s p x => ?link, fun s u x => ?unit⟩
  case word => exact ⟨s.word_setWord_self o v, fun k hk => s.word_setWord_ne v hk, s.setWord_stays o v (Has.refl _) (Stays.refl s)⟩
  case setWord =>
    exact ⟨s.setW_putSetW_self b o v, fun c k hk h => s.setW_putSetW_ne v (setKey_ne ho hk h),
      s.putSetW_stays b o v (Has.refl _) (Stays.refl s)⟩
  case source => exact ⟨s.src_setSrc_self g x, fun k hk => s.src_setSrc_ne x hk, s.setSrc_stays g x (Has.refl _) (Stays.refl s)⟩
  case bank => exact ⟨s.bank_setBank_self c x, fun k hk => s.bank_setBank_ne x hk, s.setBank_stays c x (Has.refl _) (Stays.refl s)⟩
  case lane => exact ⟨s.ln_setLn_self n x, fun k hk => s.ln_setLn_ne x hk, s.setLn_stays n x (Has.refl _) (Stays.refl s)⟩
  case link => exact ⟨s.lk_setLk_self p x, fun k hk => s.lk_setLk_ne x hk, s.setLk_stays p x (Has.refl _) (Stays.refl s)⟩
  case unit => exact ⟨s.xu_setXu_self u x, fun k hk => s.xu_setXu_ne x hk, s.setXu_stays u x (Has.refl _) (Stays.refl s)⟩

end Sys2Proof.Machine
end

section
/-! What a write makes of one field of a word (R9, R10): bit by bit, and field by field since no two fields of a register overlap. -/
namespace Sys2Proof.Machine

/-! ### Bit fields -/

@[simp] theorem testBit_bits (x l w i : Nat) : (bits x l w).testBit i = (decide (i < w) && x.testBit (l + i)) := by
  simp [bits, Nat.testBit_mod_two_pow, Nat.testBit_shiftRight]

theorem bits_lt (x l w : Nat) : bits x l w < 2 ^ w := Nat.mod_lt _ (Nat.two_pow_pos w)

/-- A number, the `w` bits from bit `l` of it replaced, is what lies above them, the new value and what lies below them. -/
theorem setBits_eq (x l w v : Nat) : setBits x l w v = 2 ^ l * (2 ^ w * (x >>> l >>> w) + v % 2 ^ w) + x % 2 ^ l := by
  have hx : 2 ^ l * (x >>> l) + x % 2 ^ l = x := by rw [Nat.shiftRight_eq_div_pow]; exact Nat.div_add_mod x (2 ^ l)
  have hm : 2 ^ w * (x >>> l >>> w) + bits x l w = x >>> l := by
    rw [bits, Nat.shiftRight_eq_div_pow (x >>> l) w]; exact Nat.div_add_mod (x >>> l) (2 ^ w)
  have hsplit : x = 2 ^ l * (2 ^ w * (x >>> l >>> w)) + 2 ^ l * bits x l w + x % 2 ^ l := by
    rw [← Nat.mul_add, hm, hx]
  rw [setBits, Nat.shiftLeft_eq, Nat.shiftLeft_eq, Nat.mul_add, Nat.mul_comm (bits x l w), Nat.mul_comm (v % 2 ^ w)]
  omega

theorem testBit_setBits (x l w v i : Nat) :
    (setBits x l w v).testBit i = if l ≤ i ∧ i < l + w then v.testBit (i - l) else x.testBit i := by
  rw [setBits_eq, Nat.testBit_two_pow_mul_add _ (Nat.mod_lt _ (Nat.two_pow_pos l)),
    Nat.testBit_two_pow_mul_add _ (Nat.mod_lt _ (Nat.two_pow_pos w))]
  simp only [Nat.testBit_mod_two_pow, Nat.testBit_shiftRight]
  by_cases hlow : i < l
  · simp [hlow, Nat.not_le.2 hlow]
  · by_cases hin : i - l < w
    · simp [hlow, hin, Nat.not_lt.1 hlow, show i < l + w by omega]
    · simp [hlow, hin, show ¬ i < l + w by omega, show l + (w + (i - l - w)) = i by omega]

/-- Two numbers with the same bits in a field have the same value there. -/
theorem bits_ext {x y l w : Nat} (h : ∀ i < w, x.testBit (l + i) = y.testBit (l + i)) : bits x l w = bits y l w := by
  refine Nat.eq_of_testBit_eq fun i => ?_
  by_cases hi : i < w
  · simp [hi, h i hi]
  · simp [hi]

/-! ### One field -/

/-- R9: what a bit that holds `o` holds after a write of `n`; `rwl` says whether RWL fields take it. -/
def Acc.bitAfter (c : Acc) (rwl o n : Bool) : Bool :=
  match c with
  | .RW | .SH => n
  | .RWL => if rwl then n else o
  | .W1C => o && !n
  | .W1S => o || n
  | .RO | .WO => o

/-- R9: word `w`, holding `a`, once the field has met a write of `v`. -/
def FieldDef.take (f : FieldDef) (w v : Nat) (rwl : Bool) (a : Nat) : Nat :=
  let n := bits v f.lsb f.w
  if f.word ≠ w then a
  else
    match f.acc with
    | .RW => setBits a f.lsb f.w n
    | .SH => setBits a f.lsb f.w n
    | .RWL => if rwl then setBits a f.lsb f.w n else a
    | .W1C => setBits a f.lsb f.w (bits a f.lsb f.w &&& (2 ^ f.w - 1 - n))
    | .W1S => setBits a f.lsb f.w (bits a f.lsb f.w ||| n)
    | .RO => a
    | .WO => a

/-- A write of a word passes its fields one after another. -/
theorem RegDef.merge_eq_foldl (d : RegDef) (w old v : Nat) (rwl : Bool) :
    d.merge w old v rwl = d.fields.foldl (fun a f => f.take w v rwl a) old := rfl

/-- The bit `i` of word `w` lies in the field. -/
def FieldDef.covers (f : FieldDef) (w i : Nat) : Prop := f.word = w ∧ f.lsb ≤ i ∧ i < f.lsb + f.w

theorem FieldDef.testBit_take (f : FieldDef) {w i : Nat} (v : Nat) (rwl : Bool) (a : Nat) (h : f.covers w i) :
    (f.take w v rwl a).testBit i = f.acc.bitAfter rwl (a.testBit i) (v.testBit i) := by
  obtain ⟨hw, hlo, hhi⟩ := h
  have hi : i - f.lsb < f.w := by omega
  have hof : f.lsb + (i - f.lsb) = i := by omega
  have hclear : (2 ^ f.w - 1 - bits v f.lsb f.w).testBit (i - f.lsb) = !v.testBit i := by
    rw [Nat.sub_sub, Nat.add_comm 1, Nat.testBit_two_pow_sub_succ (bits_lt v f.lsb f.w)]
    simp [hi, hof]
  unfold FieldDef.take
  rw [if_neg (not_not.2 hw)]
  cases f.acc
  case RWL => cases rwl <;> simp [Acc.bitAfter, testBit_setBits, hlo, hhi, hi, hof]
  all_goals simp [Acc.bitAfter, testBit_setBits, hlo, hhi, hi, hof, hclear]

theorem FieldDef.testBit_take_other (f : FieldDef) {w i : Nat} (v : Nat) (rwl : Bool) (a : Nat) (h : ¬ f.covers w i) :
    (f.take w v rwl a).testBit i = a.testBit i := by
  unfold FieldDef.take
  split
  · rfl
  · next hw =>
    have hout : ¬ (f.lsb ≤ i ∧ i < f.lsb + f.w) := fun k => h ⟨not_not.1 hw, k⟩
    cases f.acc
    case RWL => cases rwl <;> simp [testBit_setBits, hout]
    all_goals simp [testBit_setBits, hout]

/-! ### All fields of a register -/

/-- Two fields share no bit. -/
abbrev FieldDef.apart (f g : FieldDef) : Prop := f.word ≠ g.word ∨ f.lsb + f.w ≤ g.lsb ∨ g.lsb + g.w ≤ f.lsb

theorem FieldDef.apart.not_covers {f g : FieldDef} {w i : Nat} (h : f.apart g) (hf : f.covers w i) : ¬ g.covers w i := by
  rintro ⟨hgw, hglo, hghi⟩
  obtain ⟨hfw, hflo, hfhi⟩ := hf
  rcases h with h | h | h
  · exact h (hfw.trans hgw.symm)
  · omega
  · omega

theorem testBit_foldl_take_other {fs : List FieldDef} {w i : Nat} (v : Nat) (rwl : Bool) (a : Nat) (h : ∀ g ∈ fs, ¬ g.covers w i) :
    (fs.foldl (fun a f => f.take w v rwl a) a).testBit i = a.testBit i := by
  induction fs generalizing a with
  | nil => rfl
  | cons g t ih =>
    rw [List.foldl_cons, ih _ (fun x hx => h x (List.mem_cons_of_mem _ hx)), g.testBit_take_other v rwl a (h g List.mem_cons_self)]

/-- Of fields that share no bit, the one that a bit lies in says what the bit becomes. -/
theorem testBit_foldl_take {fs : List FieldDef} {f : FieldDef} {w i : Nat} (v : Nat) (rwl : Bool) (a : Nat)
    (hp : fs.Pairwise FieldDef.apart) (hf : f ∈ fs) (h : f.covers w i) :
    (fs.foldl (fun a f => f.take w v rwl a) a).testBit i = f.acc.bitAfter rwl (a.testBit i) (v.testBit i) := by
  induction fs generalizing a with
  | nil => exact nomatch hf
  | cons g t ih =>
    obtain ⟨hg, ht⟩ := List.pairwise_cons.1 hp
    rw [List.foldl_cons]
    rcases List.mem_cons.1 hf with rfl | hft
    · rw [testBit_foldl_take_other v rwl _ (fun x hx => (hg x hx).not_covers h), f.testBit_take v rwl a h]
    · have hgi : ¬ g.covers w i := fun k => (hg f hft).not_covers k h
      rw [ih _ ht hft, g.testBit_take_other v rwl a hgi]

/-- The field tables of the spec: no two fields of a register share a bit. -/
theorem fields_apart : ∀ b ∈ blocks, ∀ d ∈ b.regs, d.fields.Pairwise FieldDef.apart := by decide +kernel

/-- R9: each bit of a field of a register of the map after a write, by the field's access code. -/
theorem testBit_merge {b : BlkDef} {d : RegDef} {f : FieldDef} (hb : b ∈ blocks) (hd : d ∈ b.regs) (hf : f ∈ d.fields)
    (old v : Nat) (rwl : Bool) {i : Nat} (hi : i < f.w) :
    (d.merge f.word old v rwl).testBit (f.lsb + i) = f.acc.bitAfter rwl (old.testBit (f.lsb + i)) (v.testBit (f.lsb + i)) := by
  rw [RegDef.merge_eq_foldl]
  exact testBit_foldl_take v rwl old (fields_apart b hb d hd) hf ⟨rfl, by omega, by omega⟩

/-- Settles O18: each access code read off the bits of the field. -/
theorem accessCodes : Obligations.AccessCodes := by
  intro b hb d hd f hf old v rwl _ _
  have hbit : ∀ i < f.w, (d.merge f.word old v rwl).testBit (f.lsb + i) =
      f.acc.bitAfter rwl (old.testBit (f.lsb + i)) (v.testBit (f.lsb + i)) := fun i hi => testBit_merge hb hd hf old v rwl hi
  refine ⟨fun hacc => ?taken, fun hacc => ?locked, fun hacc i hi => ?cleared, fun hacc i hi => ?set, fun hacc => ?kept⟩
  case taken => exact bits_ext fun i hi => by rcases hacc with e | e <;> rw [hbit i hi, e, Acc.bitAfter]
  case locked =>
    cases rwl
    · exact bits_ext fun i hi => by rw [hbit i hi, hacc]; rfl
    · exact bits_ext fun i hi => by rw [hbit i hi, hacc]; rfl
  case cleared => exact (hbit i hi).trans (by rw [hacc]; rfl)
  case set => exact (hbit i hi).trans (by rw [hacc]; rfl)
  case kept => exact bits_ext fun i hi => by rcases hacc with e | e <;> rw [hbit i hi, e, Acc.bitAfter]

end Sys2Proof.Machine
end

section
/-! BAR0 accesses (R8, R9, R12, R37, R214, R449, R508): which way REGISTER_WRITE and LOW_HALF_READ go, and what a management core's
access at a core address of its host windows comes to. -/
namespace Sys2Proof.Machine

/-! ### Who reaches what -/

theorem State.canAccess_mc {s : State} {c : Nat} (hc : c < 4) (ho : s.mode ≠ .off) : s.canAccess (.mc c) = true := by
  simp [State.canAccess, hc, ho]

theorem State.canAccess_off {s : State} (req : Requester) (ho : s.mode = .off) : s.canAccess req = false := by
  simp [State.canAccess, ho]

theorem hostCore_mc {c o : Nat} (ho : 2 ^ 32 ≤ o) : hostCore (.mc c) o = some c := if_pos ho

/-- Host ports alone hold reads back. -/
theorem State.readsHeld_mc (s : State) (c : Nat) : s.readsHeld (.mc c) = false := rfl

/-! ### REGISTER_WRITE and LOW_HALF_READ -/

theorem exec_registerWrite_closed {s : State} {req : Requester} (o n v : Nat) (ha : s.canAccess req = false) :
    exec (.registerWrite req o n v) s = .next s := by
  show execRegisterWrite req o n v s = _
  simp [execRegisterWrite, ha]

/-- R9: a write that is no core address is a BAR0 write. -/
theorem exec_registerWrite_bar {s : State} {req : Requester} {o : Nat} (n v : Nat) (ha : s.canAccess req = true)
    (hc : hostCore req o = none) : exec (.registerWrite req o n v) s = .next (s.barWrite req o n v).settle := by
  show execRegisterWrite req o n v s = _
  simp [execRegisterWrite, ha, hc]

/-- R508: one at a core address is a store. -/
theorem exec_registerWrite_core {s : State} {c o : Nat} (n v : Nat) (ha : s.canAccess (.mc c) = true) (ho : 2 ^ 32 ≤ o) :
    exec (.registerWrite (.mc c) o n v) s =
      .next (s.coreAccess c o 1 n (fun t u l => t.writePieces u (u * 256) l (Data.ofNat n v))) := by
  show execRegisterWrite (.mc c) o n v s = _
  simp only [execRegisterWrite, ha, hostCore_mc ho, not_true_eq_false, if_false]

theorem exec_lowHalfRead_closed {s : State} {req : Requester} (a : BarAddr) (n : Nat)
    (h : s.canAccess req = false ∨ s.readsHeld req = true) : exec (.lowHalfRead req a n) s = .next s := by
  show execLowHalfRead req a n s = _
  rw [execLowHalfRead, if_pos (by simpa using h)]

/-- R12: a read of BAR0. -/
theorem exec_lowHalfRead_bar0 {s : State} {req : Requester} {o : Nat} (n : Nat) (ha : s.canAccess req = true)
    (hr : s.readsHeld req = false) (hc : hostCore req o = none) :
    exec (.lowHalfRead req ⟨0, o⟩ n) s = .next ((s.barRead req o n).1.emit (.readData o (Data.ofNat n (s.barRead req o n).2))) := by
  show execLowHalfRead req ⟨0, o⟩ n s = _
  simp [execLowHalfRead, ha, hr, hc]

/-- R214: a read of another window of the function is one of a doorbell page. -/
theorem exec_lowHalfRead_bell {s : State} {req : Requester} {b o : Nat} (n : Nat) (ha : s.canAccess req = true)
    (hr : s.readsHeld req = false) (hc : hostCore req o = none) (hb : b ≠ 0) :
    exec (.lowHalfRead req ⟨b, o⟩ n) s = .next (s.emit (.readData o (Data.ofNat n 0))) := by
  show execLowHalfRead req ⟨b, o⟩ n s = _
  simp [execLowHalfRead, State.bellRead, ha, hr, hc, hb]

/-- R508: a read at a core address is a load, in place of BAR1 a fetch. -/
theorem exec_lowHalfRead_core {s : State} {c b o : Nat} (n : Nat) (ha : s.canAccess (.mc c) = true) (ho : 2 ^ 32 ≤ o) :
    exec (.lowHalfRead (.mc c) ⟨b, o⟩ n) s =
      .next (s.coreAccess c o (if b = 1 then 5 else 0) n (fun t u l => t.readRun u (u * 256) l)) := by
  show execLowHalfRead (.mc c) ⟨b, o⟩ n s = _
  simp only [execLowHalfRead, ha, s.readsHeld_mc, hostCore_mc ho, not_true_eq_false, Bool.false_eq_true, or_self, if_false]

/-! ### A core's access through a host window (R508) -/

theorem State.mastering_of {s : State} (ho : s.mode ≠ .off) (hf : s.mode ≠ .fenced) : s.mastering = true := by
  simp [State.mastering, ho, hf]

/-- No window there, or one that is disabled: an exception in the core. -/
theorem State.coreAccess_disabled {s : State} {c o : Nat} (acc n : Nat) (go : State → Nat → List (Nat × Nat) → State)
    (hrun : s.coreRuns c = true) (hm : s.mastering = true)
    (hw : 8 ≤ o / 2 ^ 32 - 1 ∨ s.g (Reg.MGT_HWIN.enable c (o / 2 ^ 32 - 1)) = 0) :
    s.coreAccess c o acc n go = s.emit (.coreException c) := by
  simp only [State.coreAccess]
  rw [if_neg (by simp [hrun, hm]), if_pos (by tauto)]

/-- An enabled window of a unit that is present: the run as the unit translates it. -/
theorem State.coreAccess_run {s s' : State} {c w x acc n : Nat} {go : State → Nat → List (Nat × Nat) → State} {l : List (Nat × Nat)}
    (hw : w < 8) (hx : x < 2 ^ 32) (hrun : s.coreRuns c = true) (hm : s.mastering = true)
    (hen : s.g (Reg.MGT_HWIN.enable c w) ≠ 0) (hu : s.unitPresent (s.g (Reg.MGT_HWIN.unit c w)) = true)
    (hl : s.xlateRun (s.g (Reg.MGT_HWIN.unit c w))
      ⟨s.g (Reg.MGT_HWIN.as c w), s.g (Reg.MGT_HWIN.va_hi c w) * 2 ^ 32 + s.g (Reg.MGT_HWIN.va_lo c w) * 2 ^ 12 + x, acc,
        s.g (Reg.MGT_HWIN.unit c w) * 256, true, s.g (Reg.MGT_HWIN.user_override c w) = 1, .access, .core c ((w + 1) * 2 ^ 32 + x)⟩ n =
      (s', .run l)) :
    s.coreAccess c ((w + 1) * 2 ^ 32 + x) acc n go = go s' (s.g (Reg.MGT_HWIN.unit c w)) l := by
  have hwin : ((w + 1) * 2 ^ 32 + x) / 2 ^ 32 - 1 = w := by omega
  have hoff : ((w + 1) * 2 ^ 32 + x) % 2 ^ 32 = x := by omega
  simp only [State.coreAccess, hwin, hoff]
  rw [if_neg (by simp [hrun, hm]), if_neg (by simp [hu, hen]; omega), hl]

/-- Settles O17: each kind of access by the equation of its command. -/
theorem registerAccess : Obligations.RegisterAccess := by
  refine ⟨fun s req o n v ha hc => ?write, fun s req o n ha hr hc => ?read, fun s req b o n ha hr hc hb => ?bell,
    fun s f b o n hfull => ?held, fun s c o n v hc ho hoff hfen hrun hen => ?closed,
    fun s s' c w x n v l hc hw hx hoff hfen hrun hen u hu hpres req hreq => ?core, fun s req b o n v hoff => ?off⟩
  case write => exact exec_registerWrite_bar n v ha hc
  case read =>
    have hl : Has [.glb, .ctrs, .latches, .srcs, .banks, .hif, .xlt, .out]
      [.glb, .ctrs, .latches, .srcs, .banks, .hif, .xlt, .out] := Has.refl _
    exact ⟨_, exec_lowHalfRead_bar0 n ha hr hc, rfl,
      State.emit_stays _ (hl.sub (by decide)) (s.barRead_stays req o n hl (Stays.refl s)).fst⟩
  case bell => exact exec_lowHalfRead_bell n ha hr hc hb
  case held => exact exec_lowHalfRead_closed _ n (.inr (by simp [State.readsHeld, hfull]))
  case closed =>
    have ha := State.canAccess_mc hc hoff
    have hm := State.mastering_of hoff hfen
    have hshut : 8 ≤ o / 2 ^ 32 - 1 ∨ s.g (Reg.MGT_HWIN.enable c (o / 2 ^ 32 - 1)) = 0 :=
      (Nat.lt_or_ge o (9 * 2 ^ 32)).elim (fun h => .inr (hen h)) (fun h => .inl (by omega))
    rw [exec_registerWrite_core n v ha ho, exec_lowHalfRead_core n ha ho, exec_lowHalfRead_core n ha ho]
    simp only [State.coreAccess_disabled _ n _ hrun hm hshut, and_self]
  case core =>
    subst hu hreq
    have ha := State.canAccess_mc hc hoff
    have hm := State.mastering_of hoff hfen
    have ho : 2 ^ 32 ≤ (w + 1) * 2 ^ 32 + x := by omega
    refine ⟨fun hl => ?_, fun hl => ?_⟩
    · rw [exec_registerWrite_core n v ha ho, State.coreAccess_run hw hx hrun hm hen hpres hl]
    · rw [exec_lowHalfRead_core n ha ho, if_neg Nat.zero_ne_one, State.coreAccess_run hw hx hrun hm hen hpres hl]
  case off =>
    exact ⟨exec_registerWrite_closed o n v (s.canAccess_off req hoff), exec_lowHalfRead_closed _ n (.inl (s.canAccess_off req hoff))⟩

end Sys2Proof.Machine
end

section
/-! R479, R508: a write of BST_CFG does more than its access codes say: it notes in the self-test's own part of the state that the enable
bit has been 1. -/
namespace Sys2Proof.Machine

/-- What the device does of itself after a command leaves the self-test's own part alone. -/
theorem State.settle_bst (s : State) : s.settle.bst = s.bst :=
  (State.settle_stays (Has.refl _) (Stays.refl s)).bst (by decide)

/-- BST_CFG in the register map. -/
def bstCfg : RegDef := ⟨.BST_CFG, 0x800010, 1, 0x4000000, 1, 0x4000000, 1, [⟨0, 31, 1, .RW, 1⟩, ⟨0, 30, 1, .RW, 1⟩]⟩

theorem loc_BST_CFG : State.reset.loc (.mc 0) Reg.BST_CFG.off = .reg bstCfg 0 0 0 := by decide

/-- MC0 writes 1 to the enable bit after reset, where it is 1 already: the write is noted. -/
theorem barWrite_BST_CFG_reset : (State.reset.barWrite (.mc 0) Reg.BST_CFG.off 4 (2 ^ 31)).bst.enabled = true := by decide +kernel

/-- Refutes O19: `ownBehaviour` leaves BST_CFG out, and so the statement takes it for a plain register. A state that differs from that of
reset in its register words alone has `bst.enabled` false, and settling keeps it; MC0's write of 1 to the enable bit makes it true. -/
theorem not_plainRegisterWrites : ¬ Obligations.PlainRegisterWrites := by
  intro h
  have ha : State.reset.canAccess (.mc 0) = true := by decide
  have hplain := h State.reset (.mc 0) Reg.BST_CFG.off (2 ^ 31) 0 0 0 bstCfg ha (by decide) (by decide) loc_BST_CFG (by decide)
    (by decide) (by decide) _ rfl
  obtain ⟨u, hexec, -, -, hframe, -, -⟩ := hplain.1 (by decide) (by decide)
  rw [exec_registerWrite_bar 4 (2 ^ 31) ha (by decide)] at hexec
  injection hexec with hsettled
  have hbst : (State.reset.barWrite (.mc 0) Reg.BST_CFG.off 4 (2 ^ 31)).bst = State.reset.bst := by
    rw [← State.settle_bst, hsettled, State.settle_bst, hframe.bst (by decide)]
  have hfalse : State.reset.bst.enabled = true := hbst ▸ barWrite_BST_CFG_reset
  exact absurd hfalse (by decide)

end Sys2Proof.Machine
end

section
/-! The test controls of ports and lanes (R104, R106-R108): the equation of each command where its condition holds, the PRBS checker symbol
by symbol, and what the injections write. -/
namespace Sys2Proof.Machine

/-! ### Ports under test, and sleep (R104, R106) -/

theorem exec_testEnter {s : State} {p v : Nat} (hp : p < 64) (hv : bit v 7 = true) (hf : s.mode ≠ .fenced) (ho : s.mode ≠ .off) :
    exec (.testEnter p v) s = .next ((s.ptCtrlCheck p v).ptCtrlWrite p v) := by
  show execTestEnter p v s = _
  rw [execTestEnter, if_pos ⟨hp, hv, hf, ho⟩]

theorem exec_testExit {s : State} {p v : Nat} (hp : p < 64) (hv : bit v 7 = false) (ht : s.testing p = true) (hf : s.mode ≠ .fenced)
    (ho : s.mode ≠ .off) : exec (.testExit p v) s = .next ((s.ptCtrlCheck p v).ptCtrlWrite p v) := by
  show execTestExit p v s = _
  rw [execTestExit, if_pos ⟨hp, by simp [hv], ht, hf, ho⟩]

theorem exec_sleepMaskWrite {s : State} {p : Nat} (m : Nat) (hp : p < 64) (hf : s.mode ≠ .fenced) (ho : s.mode ≠ .off) :
    exec (.sleepMaskWrite p m) s = .next (s.sleepMask p (m % 4)) := by
  show execSleepMaskWrite p m s = _
  rw [execSleepMaskWrite, if_pos ⟨hp, hf, ho⟩]

/-- R10: a change that the lock holds is counted and told of. -/
theorem State.lockedNote_held {s : State} {b : Bool} (hl : s.rwlOpen = false) (hb : b = true) :
    s.lockedNote b = (s.bump Ctr.GLB_LOCKED_WRITE_COUNT).raise 5 0 0 := by
  rw [State.lockedNote, if_pos ⟨by simp [hl], hb⟩]

/-- R104, R106: a write of LAN_PT_CTRL, with the width and the sleep mask taken first. -/
theorem State.ptCtrlWrite_eq (s u : State) (p v : Nat)
    (hu : u = (if s.rwlOpen then s.put (Reg.LAN_PT_CTRL.force_width1 p) (bits v 4 1) else s).sleepMask p (bits v 0 2)) :
    s.ptCtrlWrite p v = (if bit v 7 then
        (if u.testAllowed p then (if u.testing p then u else u.enterTest p) else (u.setPp p { u.pp p with testRefused := true }).retune p)
      else if u.testing p then u.leaveTest p else u.retune p) := by
  subst hu
  simp only [State.ptCtrlWrite, ite_not]

/-! ### PRBS injection (R108) -/

theorem exec_prbsInjectOne {s : State} {n : Nat} (hn : n < 128) (hp : s.prbsOn n = true) :
    exec (.prbsInjectOne n) s = .next (s.flipSymbol n) := by
  show execPrbsInjectOne n s = _
  rw [execPrbsInjectOne, if_pos ⟨hn, hp⟩]

theorem exec_prbsInjectOne_off {s : State} {n : Nat} (hp : s.prbsOn n = false) : exec (.prbsInjectOne n) s = .next s := by
  show execPrbsInjectOne n s = _
  rw [execPrbsInjectOne, if_neg (by simp [hp])]

/-- A rate's injection is due. -/
theorem exec_prbsRateInjection_due {s : State} {n : Nat} (hn : n < 128) (hp : s.prbsOn n = true)
    (hk : s.g (Reg.LAN_LN_PRBS_CTRL.inject_rate n) ≠ 0)
    (hd : (s.ln n).injAt + 2 ^ (s.g (Reg.LAN_LN_PRBS_CTRL.inject_rate n) + 10) ≤ s.symbolTime) :
    exec (.prbsRateInjection n) s = .next ((s.flipSymbol n).setLn n
      { (s.flipSymbol n).ln n with injAt := (s.ln n).injAt + 2 ^ (s.g (Reg.LAN_LN_PRBS_CTRL.inject_rate n) + 10) }) := by
  show execPrbsRateInjection n s = _
  simp only [execPrbsRateInjection]
  rw [if_pos ⟨hn, hp, hk, hd⟩]

theorem exec_prbsRateInjection_idle {s : State} {n : Nat}
    (h : s.prbsOn n = false ∨ s.symbolTime < (s.ln n).injAt + 2 ^ (s.g (Reg.LAN_LN_PRBS_CTRL.inject_rate n) + 10)) :
    exec (.prbsRateInjection n) s = .next s := by
  show execPrbsRateInjection n s = _
  simp only [execPrbsRateInjection]
  rw [if_neg]
  rintro ⟨-, hp, -, hd⟩
  rcases h with h | h
  · simp [h] at hp
  · omega

theorem State.flipSymbol_out (s : State) (n : Nat) : (s.flipSymbol n).out = s.out ++ [.prbsFlip n] := rfl

/-! ### The PRBS checker (R107) -/

/-- The checker of a lane outside the loopbacks passes the symbols received, their polarity as rx_invert has it. -/
theorem exec_prbsCheckerLock_plain {s : State} {n : Nat} (k lo mi hi : Nat) (hn : n < 128) (hl : s.loopback n = 0)
    (he : s.g (Reg.LAN_LN_PRBS_CTRL.chk_en n) = 1) (c : Lane × Nat × Nat)
    (hc : c = ((levelsOf k lo mi hi).map (invertLevels (s.g (Reg.LAN_LN_CTRL.rx_invert n) == 1) 1)).foldl
      (Lane.check (s.g (Reg.LAN_LN_PRBS_CTRL.chk_pattern n) == 1)) (s.ln n, 0, 0)) :
    exec (.prbsCheckerLock n k lo mi hi) s =
      .next (((s.setLn n c.1).bumpBy (Ctr.LAN_PRBS_BIT_COUNT n) c.2.1).bumpBy (Ctr.LAN_PRBS_ERR_COUNT n) c.2.2) := by
  subst hc
  show execPrbsCheckerLock n k lo mi hi s = _
  simp [execPrbsCheckerLock, hn, hl, he]

/-- Out of lock the 64th symbol that agrees with the prediction in turn gains it. -/
theorem Lane.check_gains {l : Lane} {b e x : Nat} {r : Bool} (hl : l.chkLock = false) (hrun : l.chkRun = 63)
    (hx : x = (prbsNext r l.chkReg).1) (hreg : if r then l.chkReg ≠ 2 ^ 31 - 1 else l.chkReg % 2 ^ 13 ≠ 0) :
    (Lane.check r (l, b, e) x).1.chkLock = true ∧ (Lane.check r (l, b, e) x).2 = (b, e) := by
  have hlive : (if r then l.chkReg == 2 ^ 31 - 1 else l.chkReg % 2 ^ 13 == 0) = false := by
    cases r <;> simpa using hreg
  simp only [Lane.check, hl, hlive, hrun, hx]
  simp

/-- One level stands for two bits. -/
theorem grayBits_one_lt (x : Nat) : grayBits 1 x < 2 ^ 2 := by
  have hbit : ∀ y, y &&& evenMask 1 < 2 ^ 1 := fun y => Nat.and_lt_two_pow y (by decide)
  refine Nat.or_lt_two_pow ((hbit _).trans (by decide)) ?_
  have := Nat.xor_lt_two_pow (hbit (x >>> 1)) (hbit x)
  rw [Nat.shiftLeft_eq]
  omega

/-- In lock each symbol is two bits checked, and 32 wrong ones among the last 256 end the lock. -/
theorem Lane.check_locked {l : Lane} {b e x : Nat} {r : Bool} (hl : l.chkLock = true) : ∃ d ≤ 2,
    (Lane.check r (l, b, e) x).2 = (b + 2, e + d) ∧
    ((Lane.check r (l, b, e) x).1.chkLock = false ↔ 32 ≤ (((x != (prbsNext r l.chkReg).1) :: l.chkWin.take 255).filter id).length) ∧
    ((Lane.check r (l, b, e) x).1.chkLock = false → (Lane.check r (l, b, e) x).1.chkLost = true) := by
  have hwrong : grayBits 1 x ^^^ grayBits 1 (prbsNext r l.chkReg).1 < 2 ^ 2 :=
    Nat.xor_lt_two_pow (grayBits_one_lt x) (grayBits_one_lt _)
  refine ⟨(grayBits 1 x ^^^ grayBits 1 (prbsNext r l.chkReg).1) % 2 + (grayBits 1 x ^^^ grayBits 1 (prbsNext r l.chkReg).1) / 2,
    by omega, ?counts, ?loses, ?noted⟩
  case counts => simp [Lane.check, hl, Nat.add_assoc]
  case loses => simp [Lane.check, hl]
  case noted => simp +contextual [Lane.check, hl]

/-! ### FEC injection (R108) -/

/-- The symbols drawn for the next codeword are corrupted; their number clears unless continuous. -/
theorem exec_fecInject {s : State} {n : Nat} (hn : n < 128) (hs : (s.ln n).sends = true)
    (hk : s.g (Reg.LAN_LN_FEC_INJECT.symbols n) ≠ 0) (d : List (Nat × Nat) × State) (u : State)
    (hd : d = s.drawErrors (s.g (Reg.LAN_LN_FEC_INJECT.symbols n)) (List.range 544) [])
    (hu : u = (d.2.emit (.fecInject n (d.1.map Prod.fst))).setLn n { d.2.ln n with corrupt := d.1 }) :
    exec (.fecInject n) s = .next (if s.g (Reg.LAN_LN_FEC_INJECT.continuous n) = 1 then u else u.put (Reg.LAN_LN_FEC_INJECT.symbols n) 0) := by
  subst hu hd
  show execFecInject n s = _
  simp only [execFecInject]
  rw [if_pos ⟨hn, hs, hk⟩]

/-- Settles O28: each control by the equation of its command, the checker's thresholds by the rules of one symbol. -/
theorem testControls : Obligations.TestControls := by
  have hinj : Has [.phy, .out] [.phy, .out] := Has.refl _
  refine ⟨fun s p v hp hv hf ho => exec_testEnter hp hv hf ho, fun s p v hp hv ht hf ho => exec_testExit hp hv ht hf ho,
    fun s p v hl hv => State.lockedNote_held hl (bne_iff_ne.2 hv), fun s p v => ⟨_, rfl, s.ptCtrlWrite_eq _ p v rfl⟩,
    fun s p m hp hf ho => exec_sleepMaskWrite m hp hf ho, fun s n hn hp => ?one, fun s n k hn hp hk hk0 => ⟨fun hearly => ?early, fun hdue => ?due⟩,
    fun s n hp => ⟨exec_prbsInjectOne_off hp, exec_prbsRateInjection_idle (.inl hp)⟩,
    fun s n k lo mi hi xs hxs hn hl he => ⟨_, rfl, hxs ▸ exec_prbsCheckerLock_plain k lo mi hi hn hl he _ rfl⟩,
    fun l b e x r hl hrun hx hreg => Lane.check_gains hl hrun hx hreg, fun l b e x r hl => Lane.check_locked hl,
    fun s n hn hs hk => ⟨_, _, rfl, rfl, exec_fecInject hn hs hk _ _ rfl rfl⟩⟩
  case one => exact ⟨_, exec_prbsInjectOne hn hp, s.flipSymbol_out n, s.flipSymbol_stays n hinj (Stays.refl s)⟩
  case early => exact exec_prbsRateInjection_idle (.inr (hk ▸ hearly))
  case due =>
    subst hk
    exact ⟨_, exec_prbsRateInjection_due hn hp hk0 hdue, s.flipSymbol_out n, by rw [State.ln_setLn_self],
      State.setLn_stays n _ (hinj.sub (by decide)) (s.flipSymbol_stays n hinj (Stays.refl s))⟩

end Sys2Proof.Machine
end

section
/-! One step of the machine: the tick or the front command, and what either may do to the mode (R29). -/
namespace Sys2Proof.Machine

/-! ### The step -/

theorem step_of_empty {s : State} (h : s.pending = []) : step s = .next s.tick := by simp only [step, h]

theorem step_of_cons {s : State} {c : Instr} {q : List Instr} (h : s.pending = c :: q) :
    step s = exec c { s with pending := q } := by simp only [step, h]

/-- Settles O7: an empty queue's cycle and every command move the mode as R29 lists. -/
theorem modesMoveAsListed : Obligations.ModesMoveAsListed := by
  intro s t hstep
  cases hq : s.pending with
  | nil =>
    rw [step_of_empty hq] at hstep
    obtain rfl := Host.Outcome.next.inj hstep
    exact s.tick_movesOn.moves.mode
  | cons c q =>
    rw [step_of_cons hq] at hstep
    exact (exec_moves hstep).mode

/-- Settles O5: the tables of the reset state are empty and so in their canonical form, and its first step is one core cycle. -/
theorem resetMeetsIt : Obligations.ResetMeetsIt :=
  ⟨reset_canonical, reset_clockOk, rfl, rfl, List.forall_mem_nil _, _, step_of_empty rfl⟩

end Sys2Proof.Machine
end

section
/-! The comparison of sequence values (R40): the distance in natural numbers is the distance in integers. -/
namespace Sys2Proof.Machine

theorem seqDistance_cast {n a b : Nat} (ha : a < 2 ^ n) :
    (((2 ^ n + b - a % 2 ^ n) % 2 ^ n : Nat) : Int) = ((b : Int) - a) % 2 ^ n := by
  have hle : a ≤ 2 ^ n + b := by omega
  rw [Nat.mod_eq_of_lt ha, Int.natCast_emod, Nat.cast_sub hle]
  push_cast
  rw [add_sub_assoc, Int.add_emod_left]

/-- Settles O10: the model's four cases are those of R40, once its distance is read as an integer. -/
theorem serialComparison : Obligations.SerialComparison := by
  intro n a b _ ha _ d
  have hd : d = (((2 ^ n + b - a % 2 ^ n) % 2 ^ n : Nat) : Int) := (seqDistance_cast ha).symm
  clear_value d
  subst hd
  simp only [serialCmp]
  norm_cast

end Sys2Proof.Machine
end

section
/-! The states of the lanes (R81 to R89, R93, R101, R102): what a port sends and how its masks follow leave each lane in the state it is in. -/
namespace Sys2Proof.Machine

/-- From `s` to `t` every lane is in the state it was in. -/
def SameLaneStates (s t : State) : Prop := ∀ n, (t.ln n).st = (s.ln n).st

namespace SameLaneStates

theorem refl (s : State) : SameLaneStates s s := fun _ => rfl

theorem trans {a b c : State} (h : SameLaneStates a b) (k : SameLaneStates b c) : SameLaneStates a c :=
  fun n => (k n).trans (h n)

/-- Lanes are part of `phy`. -/
theorem of_phy {s t : State} (h : t.phy = s.phy) : SameLaneStates s t := fun n => by rw [State.ln, State.ln, h]

/-- Work that does not write `phy`, before and after. -/
theorem of_stays {w : List Sys2Proof.Part} {s t : State} (h : Stays w s t) (hw : ¬ Sys2Proof.Part.phy ∈ w) : SameLaneStates s t :=
  of_phy (h.phy hw)

theorem setLn (s : State) (n : Nat) {x : Lane} (h : x.st = (s.ln n).st) : SameLaneStates s (s.setLn n x) := by
  intro k
  by_cases hk : k = n
  · subst hk
    rw [State.ln_setLn_self, h]
  · rw [State.ln_setLn_ne _ _ hk]

theorem setPp (s : State) (p : Nat) (x : PortPhy) : SameLaneStates s (s.setPp p x) := fun _ => rfl

theorem emit (s : State) (o : Out) : SameLaneStates s (s.emit o) := fun _ => rfl

theorem ite {a s t : State} {c : Prop} [Decidable c] (hs : SameLaneStates a s) (ht : SameLaneStates a t) :
    SameLaneStates a (if c then s else t) := by
  split
  · exact hs
  · exact ht

theorem foldl {α : Type} {f : State → α → State} (l : List α) (s : State) (hf : ∀ t x, SameLaneStates t (f t x)) :
    SameLaneStates s (l.foldl f s) := by
  induction l generalizing s with
  | nil => exact refl s
  | cons x l ih => exact (hf s x).trans (ih (f s x))

end SameLaneStates

open SameLaneStates (of_phy of_stays)

/-! ### Codewords, bricks and markers -/

theorem State.drawErrors_phy (s : State) (k : Nat) (rest : List Nat) (got : List (Nat × Nat)) :
    (s.drawErrors k rest got).2.phy = s.phy := by
  induction k generalizing s rest got with
  | zero => rfl
  | succ k ih => rw [State.drawErrors, ih]; rfl

theorem State.putCodeword_sameLaneStates (s : State) (n : Nat) (blocks : List Nat) : SameLaneStates s (s.putCodeword n blocks) := by
  unfold State.putCodeword
  extract_lets l d c
  have hd : SameLaneStates s d.2 := by
    show SameLaneStates s (if _ then _ else _ : List (Nat × Nat) × State).2
    split
    · exact of_phy (s.drawErrors_phy _ _ _)
    · exact SameLaneStates.refl s
  exact hd.trans ((SameLaneStates.emit _ _).trans (SameLaneStates.setLn _ _ (hd n).symm))

theorem State.putBlock_sameLaneStates (s : State) (n block : Nat) : SameLaneStates s (s.putBlock n block) :=
  SameLaneStates.ite (SameLaneStates.setLn s n rfl) (s.putCodeword_sameLaneStates n _)

theorem State.dataBlock_sameLaneStates (s : State) (n payload : Nat) : SameLaneStates s (s.dataBlock n payload) := by
  refine .trans ?_ (State.putBlock_sameLaneStates _ n _)
  exact SameLaneStates.setLn s n rfl

theorem State.laneData_sameLaneStates (s : State) (n : Nat) (d : Data) : SameLaneStates s (s.laneData n d) := by
  refine .trans ?_ (SameLaneStates.foldl _ _ fun t _ => t.dataBlock_sameLaneStates n _)
  exact SameLaneStates.setLn s n rfl

theorem State.layBrick_sameLaneStates (s : State) (p : Nat) (d : Data) : SameLaneStates s (s.layBrick p d) := by
  unfold State.layBrick
  extract_lets q n s1
  have h1 : SameLaneStates s s1 := SameLaneStates.ite (SameLaneStates.setPp s p _) (SameLaneStates.refl s)
  exact SameLaneStates.ite (SameLaneStates.refl s) (SameLaneStates.ite (h1.trans (s1.laneData_sameLaneStates n d)) h1)

theorem State.sendBrick_sameLaneStates (s : State) (p type seq : Nat) (body : Data) : SameLaneStates s (s.sendBrick p type seq body) :=
  (SameLaneStates.emit s _).trans ((State.layBrick_sameLaneStates _ p _).trans (of_phy rfl))

theorem State.fillCodeword_sameLaneStates (s : State) (n : Nat) : SameLaneStates s (s.fillCodeword n) := by
  unfold State.fillCodeword
  extract_lets part l s1
  have hempty : SameLaneStates s (s.setLn n { l with txPart := Data.empty }) := SameLaneStates.setLn s n rfl
  have h1 : SameLaneStates s s1 := SameLaneStates.ite (SameLaneStates.refl s) (hempty.trans (State.dataBlock_sameLaneStates _ n _))
  clear_value s1
  refine h1.trans (SameLaneStates.foldl (List.range 20) s1 fun t _ => ?_)
  exact SameLaneStates.ite (SameLaneStates.refl t) (t.dataBlock_sameLaneStates n 0)

theorem State.sendMarker_sameLaneStates (s : State) (n : Nat) (early : Bool) : SameLaneStates s (s.sendMarker n early) := by
  unfold State.sendMarker
  extract_lets p s1 l m
  have h1 : SameLaneStates s s1 := s.fillCodeword_sameLaneStates n
  clear_value s1 m
  exact h1.trans ((SameLaneStates.emit s1 _).trans (SameLaneStates.setLn _ n rfl))

theorem State.sendMarkers_sameLaneStates (s : State) (p : Nat) : SameLaneStates s (s.sendMarkers p) := by
  unfold State.sendMarkers
  extract_lets one s1
  have hone (t : State) (i : Nat) : SameLaneStates t (one t i) :=
    SameLaneStates.ite (t.sendMarker_sameLaneStates _ _) (SameLaneStates.refl t)
  exact (hone s 0).trans ((hone _ 1).trans (SameLaneStates.setPp s1 p _))

theorem State.sendControl_sameLaneStates (s : State) (p : Nat) : SameLaneStates s (s.sendControl p) := by
  unfold State.sendControl
  extract_lets l s1 s2 s3
  have h2 : SameLaneStates s1 s2 := of_stays
    (State.bumpIf_stays _ _ (Has.refl [.ctrs]) (State.bumpIf_stays _ _ (Has.refl _) (Stays.refl s1))) (by decide)
  have h3 : SameLaneStates s2 s3 := SameLaneStates.ite (of_phy rfl) (SameLaneStates.refl s2)
  exact (s.sendBrick_sameLaneStates _ _ _ _).trans (h2.trans (h3.trans (of_phy rfl)))

/-! ### Masks -/

theorem State.fillSlots_sameLaneStates (s : State) (p k : Nat) : SameLaneStates s (s.fillSlots p k) := by
  induction k generalizing s with
  | zero => exact SameLaneStates.refl s
  | succ k ih => exact SameLaneStates.ite ((s.sendControl_sameLaneStates p).trans (ih _)) (SameLaneStates.refl s)

theorem State.maskChanged_sameLaneStates (s : State) (p : Nat) (wasUp : Bool) : SameLaneStates s (s.maskChanged p wasUp) :=
  SameLaneStates.ite (of_stays (s.phyFell_stays p (Has.refl [.lnk]) (Stays.refl s)) (by decide))
    (of_stays (s.widthChange_stays p (Has.refl [.lnk]) (Stays.refl s)) (by decide))

theorem State.retune_sameLaneStates (s : State) (p : Nat) : SameLaneStates s (s.retune p) := by
  unfold State.retune
  extract_lets want s1
  have h1 : SameLaneStates s s1 := s.fillSlots_sameLaneStates p 20
  refine SameLaneStates.ite (SameLaneStates.refl s) (h1.trans ?_)
  exact (SameLaneStates.setPp s1 p _).trans
    ((State.sendMarkers_sameLaneStates _ p).trans (State.maskChanged_sameLaneStates _ p _))

theorem State.applyMasks_sameLaneStates (s : State) (p : Nat) : SameLaneStates s (s.applyMasks p) := by
  have hrx (m : Nat) : SameLaneStates s (s.setRx p m) :=
    SameLaneStates.ite (SameLaneStates.refl s) ((SameLaneStates.setPp s p _).trans (State.maskChanged_sameLaneStates _ p _))
  exact (hrx _).trans (State.retune_sameLaneStates _ p)

/-! ### Lanes that go to DISABLED -/

/-- R100: one of the lanes that go to DISABLED. -/
def State.laneIdled (s : State) (n : Nat) : State :=
  let t := s.setLn n ((s.ln n).fresh .disabled)
  if (s.ln n).st = .disabled then t else t.emit (.laneIdle n)

/-- R102: one of the ports that lose a lane. -/
def State.portNarrowed (s : State) (p : Nat) : State :=
  let t := s.applyMasks p
  if (t.ln (laneOf p 0)).st = .disabled ∧ (t.ln (laneOf p 1)).st = .disabled then t.setPp p { t.pp p with farValid := false } else t

theorem State.lanesOff_eq (s : State) (ns : List Nat) :
    s.lanesOff ns = ((ns.map (fun n => n / 2)).foldl setAdd []).foldl State.portNarrowed (ns.foldl State.laneIdled s) := rfl

theorem State.portNarrowed_sameLaneStates (s : State) (p : Nat) : SameLaneStates s (s.portNarrowed p) :=
  SameLaneStates.ite ((s.applyMasks_sameLaneStates p).trans (SameLaneStates.setPp _ p _)) (s.applyMasks_sameLaneStates p)

theorem State.ln_laneIdled (s : State) (n k : Nat) : ((s.laneIdled n).ln k).st = if k = n then .disabled else (s.ln k).st := by
  have hset : ((s.setLn n ((s.ln n).fresh .disabled)).ln k).st = if k = n then .disabled else (s.ln k).st := by
    split
    · next hk => subst hk; rw [State.ln_setLn_self]; rfl
    · next hk => rw [State.ln_setLn_ne _ _ hk]
  exact (SameLaneStates.ite (SameLaneStates.refl _) (SameLaneStates.emit _ _) k).trans hset

theorem State.ln_foldl_laneIdled (s : State) (ns : List Nat) (k : Nat) :
    ((ns.foldl State.laneIdled s).ln k).st = if k ∈ ns then .disabled else (s.ln k).st := by
  induction ns generalizing s with
  | nil => simp
  | cons n ns ih =>
    rw [List.foldl_cons, ih, State.ln_laneIdled]
    by_cases hn : k = n <;> simp [hn]

/-- R100: the lanes of the list are DISABLED; every other is in the state it was in. -/
theorem State.ln_lanesOff (s : State) (ns : List Nat) (k : Nat) :
    ((s.lanesOff ns).ln k).st = if k ∈ ns then .disabled else (s.ln k).st := by
  rw [State.lanesOff_eq, SameLaneStates.foldl _ _ State.portNarrowed_sameLaneStates k, State.ln_foldl_laneIdled]

/-! ### Lanes that begin training -/

theorem State.sendFrames_sameLaneStates (s : State) (n : Nat) : SameLaneStates s (s.sendFrames n) :=
  SameLaneStates.ite (SameLaneStates.refl s) ((SameLaneStates.emit s _).trans (SameLaneStates.setLn _ n rfl))

/-- R100: an attempt begins in FRAME; every other lane is in the state it was in. -/
theorem State.ln_beginAttempt (s : State) (n a k : Nat) :
    ((s.beginAttempt n a).ln k).st = if k = n then .frame else (s.ln k).st := by
  refine (State.sendFrames_sameLaneStates _ n k).trans ?_
  show ((s.setLn n _).ln k).st = _
  split
  · next hk => subst hk; rw [State.ln_setLn_self]; rfl
  · next hk => rw [State.ln_setLn_ne _ _ hk]

end Sys2Proof.Machine
end

section
/-! Entering OFF and STRAP (R29, R38, R99, R526, R535, R538): what is left of the state, and the lanes of the boot links. -/
namespace Sys2Proof.Machine

/-! ### OFF -/

/-- R29: what outlives a reset lies in these parts. -/
theorem State.outside_reset_stays (s : State) (m : Mode) :
    Stays [.mode, .glb, .bst, .out, .free, .pending] State.reset { s.outside State.reset with mode := m } := by
  constructor
  case mode | glb | bst | out | free | pending => exact fun h => absurd (by decide) h
  all_goals exact fun _ => rfl

theorem State.enterOff_stays (s : State) : Stays [.mode, .glb, .bst, .out, .free, .pending] State.reset s.enterOff :=
  State.emit_stays _ ⟨by decide⟩ (s.outside_reset_stays .off)

theorem exec_resetNAssert_off {s : State} (h : s.mode = .off) :
    exec .resetNAssert s = .next { s with glb := { s.glb with resetN := false, trip := false } } := by
  show Host.Outcome.next (if s.mode = .off then _ else _) = _
  rw [if_pos h]

theorem exec_resetNAssert_on {s : State} (h : s.mode ≠ .off) :
    exec .resetNAssert s = .next { s with glb := { s.glb with resetN := false, trip := false } }.enterOff := by
  show Host.Outcome.next (if s.mode = .off then _ else _) = _
  rw [if_neg h]

theorem exec_railOutOfLimits_off {s : State} {r : Nat} (hr : r < 3) (h : s.mode = .off) :
    exec (.railOutOfLimits r) s = .next ({ s with glb := { s.glb with trip := false } }.setRail r false) := by
  show execRailOutOfLimits r s = _
  simp only [execRailOutOfLimits, if_pos hr, if_pos h]

theorem exec_railOutOfLimits_on {s : State} {r : Nat} (hr : r < 3) (h : s.mode ≠ .off) :
    exec (.railOutOfLimits r) s = .next ({ s with glb := { s.glb with trip := false } }.setRail r false).enterOff := by
  show execRailOutOfLimits r s = _
  simp only [execRailOutOfLimits, if_pos hr, if_neg h]

theorem exec_railWithinLimits {s : State} {r : Nat} (hr : r < 3) : exec (.railWithinLimits r) s = .next (s.setRail r true) := if_pos hr

/-- R535: with one rail out, not every rail is good. -/
theorem State.railsGood_setRail (s : State) {r : Nat} (hr : r < 3) : (s.setRail r false).railsGood = false := by
  interval_cases r <;> simp [State.railsGood, State.setRail]

/-! ### Lanes that begin training -/

/-- The parts that the start of an attempt writes. -/
theorem State.laneStart_writes (s : State) (n : Nat) : Stays [.ctrs, .phy, .out] s (s.laneStart n) := by
  have hw : Has [.ctrs, .phy, .out] [.ctrs, .phy, .out] := Has.refl _
  refine Stays.ite (fun _ => ?_) (fun _ => Stays.refl s)
  exact State.sendFrames_stays n (hw.sub (by decide)) (State.bump_stays _ (hw.sub (by decide))
    (State.setLn_stays n _ (hw.sub (by decide)) (Stays.refl s)))

@[simp] theorem State.laneStart_glb (s : State) (n : Nat) : (s.laneStart n).glb = s.glb := (s.laneStart_writes n).glb (by decide)
@[simp] theorem State.laneStart_mode (s : State) (n : Nat) : (s.laneStart n).mode = s.mode := (s.laneStart_writes n).mode (by decide)
@[simp] theorem State.laneStart_regs (s : State) (n : Nat) : (s.laneStart n).regs = s.regs := (s.laneStart_writes n).regs (by decide)

/-- The start of an attempt leaves the lanes' PLLs. -/
theorem State.laneStart_pllLost (s : State) (n : Nat) : (s.laneStart n).phy.pllLost = s.phy.pllLost := by
  unfold State.laneStart
  split
  · simp only [State.beginAttempt, State.sendFrames]
    split <;> rfl
  · rfl

theorem State.ln_laneStart_ne (s : State) {n k : Nat} (h : k ≠ n) : ((s.laneStart n).ln k).st = (s.ln k).st := by
  unfold State.laneStart
  split
  · rw [State.ln_beginAttempt, if_neg h]
  · rfl

/-- Register words of which none has been written read as at reset. -/
theorem State.g_of_regs_nil {s : State} (h : s.regs = []) (f : Fld) : s.g f = State.reset.g f := by
  rw [State.g, State.word, h]; rfl

/-- A port at reset is not in TEST, and its lanes are enabled. -/
theorem reset_bootPort_enabled : ∀ p ∈ [62, 63], State.reset.g (Reg.LAN_PT_CTRL.test p) = 0 ∧
    State.reset.g (Reg.LAN_LN_CTRL.enable (laneOf p 0)) = 1 := by decide +kernel

/-- R99: in STRAP, with the registers at reset, the first lane of a boot link starts where the balls select the link. -/
theorem State.ln_laneStart_boot {s : State} {p : Nat} (hp : p ∈ [62, 63]) (hm : s.mode = .strap) (hr : s.regs = [])
    (hpll : s.phy.pllLost = []) (hd : (s.ln (laneOf p 0)).st = .disabled) :
    ((s.laneStart (laneOf p 0)).ln (laneOf p 0)).st = if s.bootPort p then .frame else .disabled := by
  obtain ⟨htest, henable⟩ := reset_bootPort_enabled p hp
  have hport : laneOf p 0 / 2 = p := by simp [laneOf]
  have hidx : laneIdx (laneOf p 0) = 0 := by simp [laneIdx, laneOf]
  have hno : s.testing p = false := by rw [State.testing, State.g_of_regs_nil hr, htest]; rfl
  have hpermit : s.lanePermit (laneOf p 0) = s.bootPort p := by
    have hlive : (s.mode == .train || s.live) = false := by rw [State.live, hm]; rfl
    have hfenced : (s.mode == .fenced) = false := by rw [hm]; rfl
    have hstrap : (s.mode == .strap) = true := by rw [hm]; rfl
    simp [State.lanePermit, hport, hidx, hno, hlive, hfenced, hstrap]
  unfold State.laneStart
  rw [hd, hpermit, hport, hno, State.g_of_regs_nil hr, henable, hpll]
  split
  · next h => rw [State.ln_beginAttempt, if_pos rfl, if_pos h.2.1]
  · next h =>
    have hb : s.bootPort p = false := by simpa using h
    simp [hd, hb]

/-! ### STRAP -/

/-- R29, R526: the state in which the strap balls have been sampled. -/
def State.strapped (s : State) : State :=
  let t := s.outside State.reset
  { t with mode := .strap, glb := { t.glb with strapBoot := s.glb.ballBoot, strapHpmode := s.glb.ballHpmode,
                                               strapTimeroot := s.glb.ballTimeroot } }

/-- R54: STRAP_TIMEROOT sets CRS_ALIGN_CTRL.root. -/
def State.rootStrapped (s : State) : State :=
  if s.glb.ballTimeroot then s.strapped.alignCtrlWrite (1 + s.strapped.g Reg.CRS_ALIGN_CTRL.rank * 256) false else s.strapped

theorem State.enterStrap_eq (s : State) : s.enterStrap = (s.rootStrapped.laneStart (laneOf 62 0)).laneStart (laneOf 63 0) := rfl

theorem State.rootStrapped_stays (s : State) : Stays [.crs, .regs] s.strapped s.rootStrapped :=
  Stays.ite (fun _ => State.alignCtrlWrite_stays _ _ (Has.refl _) (Stays.refl _)) (fun _ => Stays.refl _)

theorem State.enterStrap_glb (s : State) : s.enterStrap.glb = s.strapped.glb := by
  rw [State.enterStrap_eq, State.laneStart_glb, State.laneStart_glb, s.rootStrapped_stays.glb (by decide)]

theorem State.enterStrap_mode (s : State) : s.enterStrap.mode = .strap := by
  rw [State.enterStrap_eq, State.laneStart_mode, State.laneStart_mode, s.rootStrapped_stays.mode (by decide)]
  rfl

/-- R29: STRAP keeps of the state before what outlives a reset, and begins with the strapped root and the boot links' lanes. -/
theorem State.enterStrap_stays (s : State) :
    Stays [.mode, .glb, .crs, .regs, .ctrs, .phy, .bst, .out, .free, .pending] State.reset s.enterStrap := by
  have hstrapped : Stays [.mode, .glb, .bst, .out, .free, .pending] State.reset s.strapped :=
    Stays.set_glb (s.outside_reset_stays .strap) (by decide)
  have hrooted := (hstrapped.mono (v := [.mode, .glb, .crs, .regs, .ctrs, .phy, .bst, .out, .free, .pending]) (by decide)).trans
    (s.rootStrapped_stays.mono (by decide))
  have hfirst := hrooted.trans ((s.rootStrapped.laneStart_writes (laneOf 62 0)).mono (by decide))
  exact hfirst.trans ((State.laneStart_writes _ (laneOf 63 0)).mono (by decide))

/-- R99: lane 0 of each boot link that the balls select begins training. -/
theorem State.ln_enterStrap {s : State} {n : Nat} (hroot : s.glb.ballTimeroot = false) (hn : n < 2) :
    (s.enterStrap.ln (laneOf (62 + n) 0)).st = if bit s.glb.ballBoot n then .frame else .disabled := by
  have hr : s.rootStrapped = s.strapped := if_neg (by simp [hroot])
  have hboot : ∀ i < 2, s.strapped.bootPort (62 + i) = bit s.glb.ballBoot i := by
    intro i hi
    interval_cases i <;> simp [State.bootPort, State.strapped]
  rw [State.enterStrap_eq, hr, ← hboot n hn]
  interval_cases n
  · rw [State.ln_laneStart_ne _ (by decide)]
    exact State.ln_laneStart_boot (by decide) rfl rfl rfl rfl
  · have hother := State.ln_laneStart_boot (s := s.strapped.laneStart (laneOf 62 0)) (p := 63) (by decide)
      (State.laneStart_mode _ _) (State.laneStart_regs _ _) (State.laneStart_pllLost _ _) (State.ln_laneStart_ne _ (by decide))
    rw [hother, State.bootPort, State.laneStart_glb]
    rfl

/-! ### RESET_N deasserted -/

/-- R538: the levels at the balls. -/
def State.ballsAt (s : State) (b : Nat) (h r : Bool) : State :=
  { s with glb := { s.glb with resetN := true, ballBoot := b % 4, ballHpmode := h, ballTimeroot := r } }

theorem exec_resetDeassert_off {s : State} (b : Nat) (h r : Bool) (ho : s.mode = .off) (hg : s.railsGood = true) :
    exec (.resetDeassert b h r) s = .next (s.ballsAt b h r).enterStrap :=
  congrArg Host.Outcome.next (if_pos ⟨ho, hg⟩)

theorem exec_resetDeassert_on {s : State} (b : Nat) (h r : Bool) (ho : s.mode ≠ .off) :
    exec (.resetDeassert b h r) s = .next (s.ballsAt b h r) :=
  congrArg Host.Outcome.next (if_neg fun k => ho k.1)

theorem bit_mod_four {b n : Nat} (hn : n < 2) : bit (b % 4) n = bit b n := by
  rw [bit, bit, show (4 : Nat) = 2 ^ 2 from rfl, Nat.testBit_mod_two_pow, decide_eq_true hn, Bool.true_and]

/-- Settles O12: each command by its equation; what OFF and STRAP leave is the state of reset but for the parts that outlive it. -/
theorem resetAndStrap : Obligations.ResetAndStrap := by
  refine ⟨⟨fun s hon => ?reset, fun s hoff => ?resetOff, fun s r hr hon => ?rail, fun s r hr hoff => ?railOff, fun s r hr => ?railGood⟩,
    fun s b h r hoff hg => ?strap, fun s b n h hoff hg hn => ?bootLane, fun s b h r hon => ?balls⟩
  case reset => exact ⟨_, exec_resetNAssert_on hon, rfl, rfl, rfl, rfl, State.enterOff_stays _⟩
  case resetOff => exact exec_resetNAssert_off hoff
  case rail =>
    exact ⟨_, exec_railOutOfLimits_on hr hon, State.railsGood_setRail _ hr, rfl, rfl, rfl, State.enterOff_stays _⟩
  case railOff => exact exec_railOutOfLimits_off hr hoff
  case railGood => exact exec_railWithinLimits hr
  case strap =>
    refine ⟨_, exec_resetDeassert_off b h r hoff hg, State.enterStrap_mode _, ?_⟩
    rw [State.enterStrap_glb]
    exact ⟨rfl, rfl, rfl, rfl, (State.enterStrap_stays _).mono (by decide)⟩
  case bootLane =>
    refine ⟨_, exec_resetDeassert_off b h false hoff hg, ?_⟩
    rw [State.ln_enterStrap rfl hn]
    show (if bit (b % 4) n then _ else _) = _
    rw [bit_mod_four hn]
  case balls => exact exec_resetDeassert_on b h r hon

end Sys2Proof.Machine
end

section
/-! Mode requests (R27, R28, R29, R68): how one is recorded, and what comes of the one that is due at a course boundary. -/
namespace Sys2Proof.Machine

/-! ### The write of GLB_MODE_REQ -/

/-- GLB_MODE_REQ in the register map; no field of it is under the set-up lock. -/
def glbModeReq : RegDef :=
  ⟨.GLB_MODE_REQ, 0x14, 1, 0x4000000, 1, 0x4000000, 1, [⟨0, 31, 1, .RO, 0⟩, ⟨0, 16, 12, .RO, 4095⟩, ⟨0, 0, 3, .RW, 0⟩]⟩

theorem locPf_glbModeReq : locPf Reg.GLB_MODE_REQ.off = .reg glbModeReq 0 0 0 := by decide

/-- R10: a write of a register without lockable fields is never held. -/
theorem State.lockCheck_unlockable {s : State} {d : RegDef} (w old v : Nat) (h : ∀ f ∈ d.fields, f.acc ≠ .RWL) :
    s.lockCheck d w old v = s := by
  have hc : d.changesRwl w old v = false := by
    simp only [RegDef.changesRwl, List.any_eq_false]
    intro f hf
    simp [h f hf]
  simp [State.lockCheck, State.lockedNote, hc]

/-- R28: the write is a mode request. -/
theorem exec_modeReqWrite {s : State} {req : Requester} (v : Nat) (h : Sys2Proof.mayConfigure s req Reg.GLB_MODE_REQ.off) :
    exec (.modeReqWrite req v) s = .next (s.modeReq req.identity (bits v 0 32)).settle := by
  show Host.Outcome.next (s.access req Reg.GLB_MODE_REQ.off v) = _
  rw [State.access_plain h locPf_glbModeReq (by decide) rfl rfl, State.lockCheck_unlockable _ _ _ (by decide)]
  rfl

/-- R37: in OFF no access reaches the device. -/
theorem State.mode_ne_off {s : State} {req : Requester} (h : s.canAccess req = true) : s.mode ≠ .off := by
  intro ho
  rw [State.canAccess_off req ho] at h
  exact Bool.false_ne_true h

theorem State.modeReq_eq {s : State} (identity v : Nat) (ho : s.mode ≠ .off) (hf : s.mode ≠ .fenced) :
    s.modeReq identity v = { s with glb := { s.glb with
      reqPending := true, requester := identity, target := bits v 0 3, reqCourse := s.crs.course,
      reqOld := if s.glb.reqPending && s.glb.reqCourse != s.crs.course then some s.glb.target else s.glb.reqOld } } := by
  rw [State.modeReq, if_neg (by tauto)]

theorem bits_bits_mode (v : Nat) : bits (bits v 0 32) 0 3 = v % 8 := by
  simp only [bits, Nat.shiftRight_zero]
  omega

/-! ### A due request -/

theorem exec_modeChange_due {s : State} (h : s.modeDue = true) : exec .modeChange s = .next s.modeAct := if_pos h

theorem exec_modeChange_idle {s : State} (h : s.modeDue = false) : exec .modeChange s = .next s := if_neg (by simp [h])

/-- R27, R28: a request of an earlier course is due at cycle 0. -/
theorem State.modeDue_of {s : State} (hr : s.glb.reqOld.isSome ∨ s.glb.reqPending = true ∧ s.glb.reqCourse ≠ s.crs.course)
    (hc : s.counting = true) (hf : s.mode ≠ .fenced) (h0 : s.crs.cycle = 0) (hs : s.swapDue = false) : s.modeDue = true := by
  rcases hr with hr | ⟨hr, hne⟩
  · simp [State.modeDue, hr, hc, hf, h0, hs]
  · simp [State.modeDue, hr, hne, hc, hf, h0, hs]

/-- R68: a swap that is due comes first. -/
theorem State.modeDue_of_swap {s : State} (h : s.swapDue = true) : s.modeDue = false := by simp [State.modeDue, h]

theorem State.fenceDue_of_swap {s : State} (h : s.swapDue = true) : s.fenceDue = false := by simp [State.fenceDue, h]

theorem State.modeTake_listed {s : State} {m : Nat} (hf : s.fenceDue = false) (hm : s.modeOk m = true) :
    s.modeTake m = s.enterMode (Mode.ofCode m) := if_neg (by simp [hf, hm])

theorem State.modeTake_refused {s : State} {m : Nat} (h : s.fenceDue = true ∨ s.modeOk m = false) : s.modeTake m = s.modeRefuse m :=
  if_pos (h.imp_right (by simp [·]))

/-- With none of an earlier course before it, the request is the one that GLB_MODE_REQ shows. -/
theorem State.modeAct_latest {s : State} (h : s.glb.reqOld = none) : s.modeAct = s.modeTake s.glb.target := by
  simp only [State.modeAct, h]

/-- The state without the request of an earlier course. -/
def State.withoutOld (s : State) : State := { s with glb := { s.glb with reqOld := none } }

/-- One of an earlier course is acted on first; a later one goes on waiting. -/
theorem State.modeAct_old {s : State} {m : Nat} (h : s.glb.reqOld = some m) :
    s.modeAct = { s.withoutOld.modeTake m with glb := { (s.withoutOld.modeTake m).glb with reqPending := s.glb.reqPending } } := by
  simp only [State.modeAct, h, State.withoutOld]

/-! ### What becomes of the mode and the lock -/

theorem State.enterMode_mode (s : State) (m : Mode) : (s.enterMode m).mode = m :=
  (State.enterMode_keeps (r_ := False) (s := s) m).mode_eq

theorem State.modeRefuse_mode (s : State) (m : Nat) : (s.modeRefuse m).mode = s.mode :=
  (State.modeRefuse_keeps (r_ := False) m (Keeps.refl s)).mode_eq

theorem State.enterMode_keepsLock {s : State} (m : Mode) (h : s.glb.lock = true) : (s.enterMode m).glb.lock = true :=
  (State.enterMode_keeps (r_ := False) (s := s) m).lock_of h

/-- R31: TRANSIT sets the set-up lock. -/
theorem State.enterMode_transit_lock (s : State) : (s.enterMode .transit).glb.lock = true := by
  simp only [State.enterMode]
  have hroute (u : State) (hu : u.glb.lock = true) : u.routeEnterTransit.glb.lock = true :=
    (State.routeEnterTransit_keeps (r_ := False) (Keeps.refl u)).lock_of hu
  refine (State.recheckPhy_keeps (r_ := False) (Keeps.refl _)).lock_of ?_
  split
  · exact (State.sendCongRows_keeps (r_ := False) (Keeps.refl _)).lock_of (hroute _ rfl)
  · exact hroute _ rfl

/-- Settles O14: the recording by the write's equation; at the boundary the one request that is due is taken or refused. -/
theorem modeRequests : Obligations.ModeRequests := by
  refine ⟨fun s req v hcfg o ho => ?recorded, fun s hp hc hf h0 hne hold hswap hfence hok => ?taken,
    fun s hp hc hf h0 hne hold hswap hno => ?refused, fun s m hold hc hf h0 hswap => ?earlier, fun s hswap => ?swap⟩
  case recorded =>
    obtain ⟨haccess, hparty, hfenced, hshown⟩ := hcfg
    rw [exec_modeReqWrite v ⟨haccess, hparty, hfenced, hshown⟩, State.modeReq_eq _ _ (State.mode_ne_off haccess) hfenced,
      bits_bits_mode, ho]
  case taken =>
    have hdue := State.modeDue_of (.inr ⟨hp, hne⟩) hc hf h0 hswap
    refine ⟨_, exec_modeChange_due hdue, ?_⟩
    rw [State.modeAct_latest hold, State.modeTake_listed hfence hok]
    refine ⟨rfl, s.enterMode_mode _, fun h => ?_⟩
    rcases h with hlock | htransit
    · exact State.enterMode_keepsLock _ hlock
    · rw [State.enterMode_mode] at htransit
      rw [htransit]
      exact s.enterMode_transit_lock
  case refused =>
    have hdue := State.modeDue_of (.inr ⟨hp, hne⟩) hc hf h0 hswap
    refine ⟨_, exec_modeChange_due hdue, ?_⟩
    rw [State.modeAct_latest hold, State.modeTake_refused hno]
    exact ⟨s.modeRefuse_mode _, rfl⟩
  case earlier =>
    have hdue := State.modeDue_of (.inl (by simp [hold])) hc hf h0 hswap
    refine ⟨_, s.withoutOld.modeTake m, exec_modeChange_due hdue, ?_⟩
    rw [State.modeAct_old hold]
    refine ⟨rfl, Stays.set_glb (Stays.refl _) (by decide), fun hfence hok => ?_, fun hno => ?_⟩
    · rw [State.modeTake_listed (s := s.withoutOld) hfence hok]
      exact ⟨State.enterMode_mode _ _, rfl⟩
    · rw [State.modeTake_refused (s := s.withoutOld) hno]
      exact ⟨State.modeRefuse_mode _ _, rfl⟩
  case swap =>
    refine ⟨exec_modeChange_idle (State.modeDue_of_swap hswap), fun _ => ?_⟩
    show Host.Outcome.next s.fenceAct = _
    have hno := State.fenceDue_of_swap hswap
    simp only [State.fenceAct, hno, Bool.false_eq_true, false_and, if_false]
    split <;> rfl

end Sys2Proof.Machine
end

section
/-! The fenced device (R35, R36): how FENCED is entered, what it does with accesses, and the end of its sixteen courses. -/
namespace Sys2Proof.Machine

/-! ### In FENCED no event asks for anything: GLB is as it was -/

/-- Work from `a` up to `s`, a state in FENCED, has left GLB alone. -/
structure StaysFenced (a s : State) : Prop where
  mode : s.mode = .fenced
  glb : s.glb = a.glb

namespace StaysFenced

theorem refl {s : State} (h : s.mode = .fenced) : StaysFenced s s := ⟨h, rfl⟩

/-- Work that writes neither GLB nor the mode. -/
theorem thenStays {w : List Sys2Proof.Part} {a b c : State} (h : StaysFenced a b) (k : Stays w b c)
    (hm : ¬ Sys2Proof.Part.mode ∈ w) (hg : ¬ Sys2Proof.Part.glb ∈ w) : StaysFenced a c :=
  ⟨(k.mode hm).trans h.mode, (k.glb hg).trans h.glb⟩

theorem ite {a s t : State} {c : Prop} [Decidable c] (hs : StaysFenced a s) (ht : StaysFenced a t) :
    StaysFenced a (if c then s else t) := by
  split
  · exact hs
  · exact ht

theorem foldl {α : Type} {f : State → α → State} {a s : State} (l : List α) (h : StaysFenced a s)
    (hf : ∀ t x, StaysFenced a t → StaysFenced a (f t x)) : StaysFenced a (l.foldl f s) := by
  induction l generalizing s with
  | nil => exact h
  | cons x l ih => exact ih (hf s x h)

end StaysFenced

/-- R27: a device in FENCED asks for no entry into FENCED. -/
theorem State.askFence_fenced {s : State} (c : Nat) (h : s.mode = .fenced) : s.askFence c = s := if_pos (.inl h)

theorem State.fenceOn_fenced {s : State} (g : Nat) (h : s.mode = .fenced) : s.fenceOn g = s := by
  unfold State.fenceOn
  split
  · rfl
  · rw [State.askFence_fenced _ h, ite_self]

theorem State.latchConsequence_fenced {a s : State} (g obj : Nat) (owner : Option Nat) (eff : Bool) (h : StaysFenced a s) :
    StaysFenced a (s.latchConsequence g obj owner eff) := by
  unfold State.latchConsequence
  split
  · exact h
  · rw [State.fenceOn_fenced g h.mode, ite_self]
    extract_lets s1 t r s2
    have h2 : StaysFenced a s2 := h.thenStays (State.setSrc_stays g _ (Has.refl [.srcs]) (Stays.refl s)) (by decide) (by decide)
    have h3 := h2.thenStays (State.latchEvent_stays g 0xF obj owner 0 false true false (Has.refl _) (Stays.refl s2)) (by decide) (by decide)
    refine StaysFenced.ite (StaysFenced.ite ?_ h2) h
    rw [State.askFence_fenced _ h3.mode]
    exact h3

theorem State.latch_fenced {a s : State} (g cond obj : Nat) (owner : Option Nat) (detail : Nat) (forced mute : Bool)
    (h : StaysFenced a s) : StaysFenced a (s.latch g cond obj owner detail forced mute) := by
  have hmerged : StaysFenced a (s.mergeEvent g) :=
    h.thenStays (s.mergeEvent_stays g (Has.refl _) (Stays.refl s)) (by decide) (by decide)
  have hlatched := h.thenStays (s.latchEvent_stays g cond obj owner detail forced false mute (Has.refl _) (Stays.refl s))
    (by decide) (by decide)
  unfold State.latch
  rw [State.fenceOn_fenced g hmerged.mode, ite_self]
  exact StaysFenced.ite hmerged (State.latchConsequence_fenced g obj owner _ hlatched)

theorem State.level_fenced {a s : State} (g : Nat) (present : Bool) (obj : Nat) (h : StaysFenced a s) :
    StaysFenced a (s.level g present obj) := by
  unfold State.level
  extract_lets x s1
  have h1 : StaysFenced a s1 := h.thenStays (State.setSrc_stays g _ (Has.refl [.srcs]) (Stays.refl s)) (by decide) (by decide)
  have hmerged : StaysFenced a (s1.mergeEvent g) :=
    h1.thenStays (s1.mergeEvent_stays g (Has.refl _) (Stays.refl s1)) (by decide) (by decide)
  rw [State.fenceOn_fenced g hmerged.mode]
  exact StaysFenced.ite (State.latch_fenced g 0 obj none 0 false false h1) (StaysFenced.ite hmerged h1)

theorem State.abortIn_fenced {a s : State} (i : Nat) (p : InPkt) (reason : Nat) (h : StaysFenced a s) :
    StaysFenced a (s.abortIn i p reason) := by
  unfold State.abortIn
  extract_lets s1
  have h1 : StaysFenced a s1 := State.latch_fenced _ _ _ _ _ _ _
    (h.thenStays (s.bump_stays _ (Has.refl _) (Stays.refl s)) (by decide) (by decide))
  have hw : Has [.lnk, .rte] [.lnk, .rte] := Has.refl _
  refine StaysFenced.ite (h1.thenStays (s1.delPkt_stays i p.id (hw.sub (by decide)) (Stays.refl s1)) (by decide) (by decide)) ?_
  split
  · exact h1.thenStays (State.setPkt_stays i _ (hw.sub (by decide)) (s1.freeForms_stays i p.vc p.forms (hw.sub (by decide)) (Stays.refl s1)))
      (by decide) (by decide)
  · exact h1.thenStays (s1.discard_stays i _ hw (Stays.refl s1)) (by decide) (by decide)

theorem State.abortInput_fenced {a s : State} (p : Nat) (h : StaysFenced a s) : StaysFenced a (s.abortInput p) := by
  unfold State.abortInput
  split
  · exact State.abortIn_fenced p _ 1 h
  · exact h

/-- R435: outside TRANSIT, SERVICE and DRAIN no tree ends with a link. -/
theorem State.colPortDown_fenced {s : State} (p : Nat) (h : s.mode = .fenced) : s.colPortDown p = s := by
  rw [State.colPortDown, State.live, h]
  rfl

theorem State.linkDown_fenced {a s : State} (p cause : Nat) (h : StaysFenced a s) : StaysFenced a (s.linkDown p cause) := by
  unfold State.linkDown
  extract_lets s1 s2 s3 r s4
  have hdrop : StaysFenced a (s.dropReplay p) := h.thenStays (s.dropReplay_stays p (Has.refl _) (Stays.refl s)) (by decide) (by decide)
  have h1 : StaysFenced a s1 := (State.abortInput_fenced p hdrop).thenStays (State.abandon_stays p (Has.refl _) (Stays.refl _))
    (by decide) (by decide)
  have h2 : StaysFenced a s2 := h1.thenStays (s1.onLk_stays p _ (Has.refl [.lnk]) (Stays.refl s1)) (by decide) (by decide)
  have h3 : StaysFenced a s3 := State.level_fenced _ _ _
    (h2.thenStays (s2.bump_stays _ (Has.refl _) (Stays.refl s2)) (by decide) (by decide))
  have h4 : StaysFenced a s4 := by
    show StaysFenced a (State.colPortDown _ p)
    have hdead : StaysFenced a (if cause = 3 then { s3 with rte := { s3.rte with dead := setAdd s3.rte.dead p } } else s3) :=
      StaysFenced.ite ⟨h3.mode, h3.glb⟩ h3
    rw [State.colPortDown_fenced p hdead.mode]
    exact hdead
  exact h4.thenStays (s4.markLinkDown_stays p (Has.refl _) (Stays.refl s4)) (by decide) (by decide)

/-! ### Entering FENCED -/

theorem exec_enterFenced_due {s : State} {c : Nat} (hp : s.glb.fencePend = some c) (hd : s.fenceDue = true) (hf : s.mode ≠ .fenced)
    (ho : s.mode ≠ .off) : exec .enterFenced s = .next (s.enterFenced c) := by
  show Host.Outcome.next s.fenceAct = _
  simp only [State.fenceAct, hp]
  rw [if_pos ⟨hd, hf, ho⟩]

theorem State.enterFenced_mode (s : State) (c : Nat) : (s.enterFenced c).mode = .fenced := by
  obtain ⟨u, -, hu⟩ := State.enterFenced_keeps (r_ := False) (s := s) c
  exact hu.mode_eq

/-! ### The end of the sixteen courses -/

/-- R35 step 5: the links that carried FENCE bricks are down. -/
def State.fenceLinksDown (s : State) : State :=
  ((List.range 64).filter (fun p => (s.lk p).st == .fencing)).foldl (fun t p => t.linkDown p 5)
    { s with glb := { s.glb with fenceTxOff := true } }

/-- R35 step 5: so are all lanes. -/
def State.fenceIdle (s : State) : State :=
  s.fenceLinksDown.lanesOff ((List.range 128).filter (fun n => (s.fenceLinksDown.ln n).st != .disabled))

theorem exec_fencePeriodEnd {s : State} (hf : s.mode = .fenced) (ht : s.glb.fenceTxOff = false) (h16 : s.since s.glb.fenceFrom ≥ 16) :
    exec .fencePeriodEnd s = .next s.fenceIdle := by
  show execFencePeriodEnd s = _
  rw [execFencePeriodEnd, if_pos ⟨hf, by simp [ht], h16⟩]
  rfl

theorem State.fenceIdle_stays {s : State} (hf : s.mode = .fenced) :
    StaysFenced { s with glb := { s.glb with fenceTxOff := true } } s.fenceIdle := by
  have hdown : StaysFenced { s with glb := { s.glb with fenceTxOff := true } } s.fenceLinksDown :=
    StaysFenced.foldl _ (StaysFenced.refl hf) (fun _ p ht => State.linkDown_fenced p 5 ht)
  exact hdown.thenStays (State.lanesOff_stays _ (Has.refl _) (Stays.refl _)) (by decide) (by decide)

theorem State.ln_fenceIdle (s : State) {n : Nat} (hn : n < 128) : (s.fenceIdle.ln n).st = .disabled := by
  rw [State.fenceIdle, State.ln_lanesOff]
  split
  · rfl
  · next hlist => simpa [hn] using hlist

/-! ### Accesses -/

theorem State.barWrite_fenced {s : State} {req : Requester} {o n : Nat} (v : Nat) (hf : s.mode = .fenced)
    (hok : s.accessOk req o n = true) (hreg : bar0Off req o ≠ Reg.GLB_RESET_CTRL.off) : s.barWrite req o n v = s := by
  simp only [State.barWrite]
  rw [if_neg (by simp [hok]), if_pos ⟨hf, .inl hreg⟩]

theorem exec_sqDoorbell_fenced {s : State} (f o n d : Nat) (hf : s.mode = .fenced) : exec (.sqDoorbell f o n d) s = .next s :=
  if_pos (.inl hf)

theorem exec_cqDoorbell_fenced {s : State} (f o n d : Nat) (hf : s.mode = .fenced) : exec (.cqDoorbell f o n d) s = .next s :=
  if_pos (.inl hf)

theorem exec_eqDoorbell_fenced {s : State} (f o n d : Nat) (hf : s.mode = .fenced) : exec (.eqDoorbell f o n d) s = .next s :=
  if_pos (.inl hf)

theorem exec_deviceEqDoorbell_fenced {s : State} (f o : Nat) (d : Data) (hf : s.mode = .fenced) :
    exec (.deviceEqDoorbell f o d) s = .next s := if_pos (.inl hf)

theorem exec_bar4Write_fenced {s : State} (f o : Nat) (d : Data) (be : Nat) (hf : s.mode = .fenced) :
    exec (.bar4Write f o d be) s = .next s := if_pos (.inl hf)

/-- R36: a read of BAR4 completes as Completer Abort. -/
theorem exec_bar4Read_fenced {s : State} (f o n tag k : Nat) (hf : s.mode = .fenced) :
    exec (.bar4Read f o n tag k) s = .next (s.completeErr (hpOf f) tag 4) := by
  show execBar4Read f o n tag k s = _
  simp [execBar4Read, hf]

/-- Settles O15: entry and end of the fence by their equations, each access by that of its command in FENCED. -/
theorem fencedDevice : Obligations.FencedDevice := by
  refine ⟨⟨fun s c hp hd hf ho => ?entered, fun s hf ht h16 => ?ended⟩, fun s hf => ⟨fun req o n v hok hreg => ?write,
    fun req o n ha hr hc _ => ?read, fun f o n d => ?doorbells, fun f o d be => ?posted, fun f o n tag k => ?nonPosted⟩⟩
  case entered => exact ⟨_, exec_enterFenced_due hp hd hf ho, rfl, s.enterFenced_mode c⟩
  case ended =>
    obtain ⟨hmode, hglb⟩ := State.fenceIdle_stays hf
    exact ⟨s.fenceIdle, exec_fencePeriodEnd hf ht h16, hmode, by rw [hglb], fun n hn => s.ln_fenceIdle hn, s.fenceLinksDown, rfl, rfl⟩
  case write => exact State.barWrite_fenced v hf hok hreg
  case read => exact exec_lowHalfRead_bar0 n ha hr hc
  case doorbells =>
    exact ⟨exec_sqDoorbell_fenced f o n d hf, exec_cqDoorbell_fenced f o n d hf, exec_eqDoorbell_fenced f o n d hf,
      exec_deviceEqDoorbell_fenced f o ⟨n, d⟩ hf⟩
  case posted => exact exec_bar4Write_fenced f o d be hf
  case nonPosted => exact exec_bar4Read_fenced f o n tag k hf

end Sys2Proof.Machine
end

section
/-! One step's bounds and one idle core cycle (R48, R50, R51, R68 to R70): what a step keeps of the tables and the clock, and where a core
cycle without a command, or a course boundary, leaves the course unit. -/
namespace Sys2Proof.Machine
open Sys2Proof (Part)

/-! ### What every step keeps -/

/-- R48, R70: an empty queue's cycle and every command keep the canonical form of the tables and the bounds of the clock. -/
theorem step_moves {s t : State} (h : step s = .next t) : ∃ q, Moves { s with pending := q } t := by
  cases hq : s.pending with
  | nil =>
    rw [step_of_empty hq] at h
    obtain rfl := Host.Outcome.next.inj h
    exact ⟨s.pending, s.tick_movesOn.moves⟩
  | cons c q =>
    rw [step_of_cons hq] at h
    exact ⟨q, exec_moves h⟩

/-- Settles O4: neither the canonical form nor the clock speaks of the queue, and every command's moves keep them. -/
theorem stepKeepsTables : Obligations.StepKeepsTables := by
  intro s t hcanon hclock hstep
  obtain ⟨q, hmoves⟩ := step_moves hstep
  exact ⟨hmoves.canon hcanon, hmoves.clock hclock⟩

/-! ### Cycle 0 with nothing due -/

/-- R68: the trees that resume are all that cycle 0 does when no swap, fence, mode change, step or better root is due. -/
theorem State.cycleZero_quiet {s : State} (hswap : s.swapDue = false) (hfence : s.glb.fencePend = none) (hmode : s.modeDue = false)
    (hstep : s.stepDue = false) (hfollow : s.followDue = none) : s.cycleZero = s.resumeTrees := by
  have hact : s.fenceAct = s := by simp only [State.fenceAct, hfence]
  simp [State.cycleZero, hswap, hact, hmode, hstep, hfollow]

/-- R68, R69: what is due at cycle 0, at that cycle only. -/
def State.dueFirst (s : State) : State := if s.crs.cycle = 0 then s.cycleZero else s

/-- At another cycle, or with nothing due at cycle 0, trees alone can change. -/
theorem State.dueFirst_stays {s : State}
    (h : s.crs.cycle = 0 → s.swapDue = false ∧ s.glb.fencePend = none ∧ s.modeDue = false ∧ s.stepDue = false ∧ s.followDue = none) :
    Stays [.col] s s.dueFirst := by
  unfold State.dueFirst
  split
  next h0 =>
    obtain ⟨hswap, hfence, hmode, hstep, hfollow⟩ := h h0
    rw [State.cycleZero_quiet hswap hfence hmode hstep hfollow]
    exact State.resumeTrees_stays (Has.refl _) (Stays.refl s)
  next => exact Stays.refl s

/-! ### The course boundary -/

/-- R48, R51: the time of the next course's cycle 0. -/
def Crs.nextCourse (c : Crs) : Crs := { c with course := c.course + 1, cycle := 0, ball := true }

/-- R48, R68: the work of the boundary, which comes after the time has moved on, leaves the mode and the course unit. -/
theorem State.courseBoundary_stays_time {l : List Part} (s : State)
    (hw : Has [.glb, .ctrs, .srcs, .banks, .phy, .lnk, .rte, .sch, .hif, .bst, .out, .free] l) :
    Stays l ((s.pass (1280 - s.crs.cycle)).setTime (s.crs.course + 1) 0) s.courseBoundary := by
  unfold State.courseBoundary
  extract_lets own skip s1 s2 s3 s4 s5 s6
  have h2 : Stays l s1 s2 := Stays.ite (fun _ => State.overrun_stays (hw.sub (by decide)) (Stays.refl s1)) (fun _ => Stays.refl s1)
  have h3 : Stays l s1 s3 := Stays.foldl (State.countRuns_stays (hw.sub (by decide)) h2) (fun _ _ h => State.onLk_stays _ _ (hw.sub (by decide)) h)
  have h4 : Stays l s1 s4 := Stays.ite (fun _ => State.relayOverrun_stays (hw.sub (by decide)) h3) (fun _ => h3)
  have h5 : Stays l s1 s5 := State.courseLevels_stays (hw.sub (by decide)) h4
  have h6 : Stays l s1 s6 := Stays.ite (fun _ => State.courseWork_stays _ (hw.sub (by decide)) h5) (fun _ => h5)
  clear_value s6
  exact State.fenceCourse_stays (hw.sub (by decide)) (Stays.ite (fun _ => Stays.set_rte h6 (hw.mem (by decide))) (fun _ => h6))

theorem State.courseBoundary_crs (s : State) : s.courseBoundary.crs = s.crs.nextCourse := (s.courseBoundary_stays_time (Has.refl _)).crs (by decide)

theorem State.courseBoundary_mode (s : State) : s.courseBoundary.mode = s.mode := (s.courseBoundary_stays_time (Has.refl _)).mode (by decide)

/-! ### One core cycle on an empty queue -/

/-- R469: with no forced event due in the cycle, none comes with it. -/
theorem State.forceTick_quiet {s : State} (h : ∀ e ∈ s.srcs, e.2.due = false) : s.forceTick = s := by
  have hnone : s.srcs.filter (fun e => e.2.due) = [] := List.filter_eq_nil_iff.2 fun e he => by simp [h e he]
  simp only [State.forceTick, hnone, List.foldl_nil]

/-- A cycle without forced events: what follows the passing of time leaves the mode and the course unit. -/
theorem State.tick_stays_nextCycle {s : State} (ho : s.mode ≠ .off) (h : ∀ e ∈ s.nextCycle.srcs, e.2.due = false) :
    Stays [.glb, .regs, .ctrs, .srcs, .banks, .lnk, .rte, .sch, .hif, .trn, .mch, .rma, .lck, .brg, .col, .mgt, .xlt, .out, .free]
      s.nextCycle s.tick := by
  rw [State.tick, if_neg ho, State.forceTick_quiet h]
  exact State.settle_stays ⟨by decide⟩ (State.bootTick_stays ⟨by decide⟩
    (State.countStalls_stays ⟨by decide⟩ (State.sampleGpio_stays ⟨by decide⟩ (Stays.refl _))))

/-- R50: where no courses count and no fence is asked for, only the count of cycles goes on. -/
theorem State.nextCycle_idle {s : State} (hc : s.counting = false) (hf : s.glb.fencePend = none) : s.nextCycle = s.pass 1 := by
  have hact : (s.pass 1).fenceAct = s.pass 1 := by
    have hp : (s.pass 1).glb.fencePend = none := hf
    simp only [State.fenceAct, hp]
  rw [State.nextCycle, if_pos (by simp [hc]), hact]

theorem State.nextCycle_counting {s : State} (hc : s.counting = true) :
    s.nextCycle = if s.dueFirst.crs.cycle < 1279 then (s.dueFirst.pass 1).setTime s.dueFirst.crs.course (s.dueFirst.crs.cycle + 1)
      else s.dueFirst.courseBoundary := by
  rw [State.nextCycle, if_neg (by simp [hc])]
  rfl

theorem State.counting_ne_off {s : State} (h : s.counting = true) : s.mode ≠ .off := by
  intro ho
  simp [State.counting, ho] at h

/-- Settles O2: the time by the two ways a cycle can go on, the rest of the cycle by what it leaves. -/
theorem idleStepIsOneCycle : Obligations.IdleStepIsOneCycle := by
  refine ⟨fun s hq => ?goesOn, fun s hq ho => ?off, fun s hq hst hf hquiet => ?strap, fun s hq hc hlt hdue hquiet => ?within,
    fun s hq hc hlast hquiet => ?boundary⟩
  case goesOn => exact ⟨_, step_of_empty hq, s.tick_movesOn.moves.queue.trans hq⟩
  case off => rw [step_of_empty hq, State.tick, if_pos ho]
  case strap =>
    have hnext : s.nextCycle = s.pass 1 := State.nextCycle_idle (by simp [State.counting, hst]) hf
    have hrest := State.tick_stays_nextCycle (by simp [hst]) hquiet
    rw [hnext] at hrest
    exact ⟨_, step_of_empty hq, (hrest.mode (by decide)).trans hst, hrest.crs (by decide)⟩
  case within =>
    have hfirst := State.dueFirst_stays hdue
    have hcrs : s.dueFirst.crs = s.crs := hfirst.crs (by decide)
    have hnext := State.nextCycle_counting hc
    rw [hcrs, if_pos hlt] at hnext
    have hrest := State.tick_stays_nextCycle (State.counting_ne_off hc) hquiet
    rw [hnext] at hrest
    refine ⟨_, step_of_empty hq, (hrest.mode (by decide)).trans (hfirst.mode (by decide)), (hrest.crs (by decide)).trans ?_⟩
    show ({ s.dueFirst.crs with course := _, cycle := _, ball := _ } : Crs) = _
    rw [hcrs]
  case boundary =>
    have hfirst : s.dueFirst = s := if_neg (by omega)
    have hnext := State.nextCycle_counting hc
    rw [hfirst, if_neg (by omega)] at hnext
    have hrest := State.tick_stays_nextCycle (State.counting_ne_off hc) hquiet
    rw [hnext] at hrest
    exact ⟨_, step_of_empty hq, (hrest.mode (by decide)).trans s.courseBoundary_mode, (hrest.crs (by decide)).trans s.courseBoundary_crs⟩

end Sys2Proof.Machine
end

section
/-! Sparse tables: what a key reads as in a table that lists it, that lists other keys, or in which many values have been listed. -/
namespace Sys2Proof.Machine

/-- Listing values under new keys leaves every key that none of them has. -/
theorem Tbl.find?_foldl_ins_other {α β : Type} (key : β → Nat) (val : β → α) (l : List β) (t : Tbl α) {k : Nat} (h : ∀ x ∈ l, key x ≠ k) :
    Tbl.find? (l.foldl (fun t x => Tbl.ins t (key x) (val x)) t) k = Tbl.find? t k := by
  induction l generalizing t with
  | nil => rfl
  | cons x l ih =>
    rw [List.foldl_cons, ih _ (fun y hy => h y (List.mem_cons_of_mem _ hy)), Tbl.find?_ins_ne t _ (h x List.mem_cons_self)]

/-- Of values listed under keys that are all different, each is found under its own. -/
theorem Tbl.find?_foldl_ins_mem {α β : Type} (key : β → Nat) (val : β → α) {l : List β} (t : Tbl α) {x : β} (hx : x ∈ l)
    (hl : l.Pairwise (fun a b => key a ≠ key b)) :
    Tbl.find? (l.foldl (fun t x => Tbl.ins t (key x) (val x)) t) (key x) = some (val x) := by
  induction l generalizing t with
  | nil => exact nomatch hx
  | cons y l ih =>
    obtain ⟨hy, hl⟩ := List.pairwise_cons.1 hl
    rw [List.foldl_cons]
    rcases List.mem_cons.1 hx with rfl | hxl
    · rw [Tbl.find?_foldl_ins_other key val l _ (fun z hz => (hy z hz).symm), Tbl.find?_ins_self]
    · exact ih _ hxl hl

theorem Tbl.find?_none {α : Type} {t : Tbl α} {k : Nat} (h : ∀ e ∈ t, e.1 ≠ k) : Tbl.find? t k = none := by
  induction t with
  | nil => rfl
  | cons e t ih =>
    rw [Tbl.find?, if_neg (h e List.mem_cons_self)]
    exact ih fun y hy => h y (List.mem_cons_of_mem _ hy)

theorem Tbl.find?_mem {α : Type} {t : Tbl α} {k : Nat} {v : α} (hk : t.Pairwise (fun a b => a.1 < b.1)) (h : (k, v) ∈ t) :
    Tbl.find? t k = some v := by
  induction t with
  | nil => exact nomatch h
  | cons e t ih =>
    obtain ⟨he, ht⟩ := List.pairwise_cons.1 hk
    rcases List.mem_cons.1 h with rfl | hm
    · exact if_pos rfl
    · rw [Tbl.find?, if_neg (Nat.ne_of_lt (he _ hm))]
      exact ih ht hm

/-- Leaving out entries of other keys leaves what a key reads as. -/
theorem Tbl.find?_filter {α : Type} (t : Tbl α) {p : Nat × α → Bool} {k : Nat} (h : ∀ e : Nat × α, e.1 = k → p e = true) :
    Tbl.find? (t.filter p) k = Tbl.find? t k := by
  induction t with
  | nil => rfl
  | cons e t ih =>
    by_cases hk : e.1 = k
    · rw [List.filter_cons_of_pos (h e hk), Tbl.find?, Tbl.find?, if_pos hk, if_pos hk]
    · by_cases hp : p e = true
      · rw [List.filter_cons_of_pos hp, Tbl.find?, Tbl.find?, if_neg hk, if_neg hk, ih]
      · rw [List.filter_cons_of_neg hp, Tbl.find?, if_neg hk, ih]

theorem Tbl.find?_some_mem {α : Type} {t : Tbl α} {k : Nat} {v : α} (h : Tbl.find? t k = some v) : (k, v) ∈ t := by
  induction t with
  | nil => exact nomatch h
  | cons e t ih =>
    rw [Tbl.find?] at h
    split at h
    · next hk =>
      obtain rfl := hk
      cases h
      exact List.mem_cons_self
    · exact List.mem_cons_of_mem _ (ih h)

end Sys2Proof.Machine
end

section
/-! CRS_SWAP_CTRL (R72 to R75, R551): what its arm, disarm and copy bits do, accepted and refused. -/
namespace Sys2Proof.Machine

/-! ### The write of CRS_SWAP_CTRL -/

/-- CRS_SWAP_CTRL in the register map; no field of it is under the set-up lock. -/
def crsSwapCtrl : RegDef :=
  ⟨.CRS_SWAP_CTRL, 0x80208, 1, 0x4000000, 1, 0x4000000, 1, [⟨0, 31, 1, .W1C, 0⟩, ⟨0, 28, 3, .RO, 0⟩, ⟨0, 9, 1, .RO, 0⟩, ⟨0, 8, 1, .RO, 0⟩,
    ⟨0, 2, 1, .WO, 0⟩, ⟨0, 1, 1, .WO, 0⟩, ⟨0, 0, 1, .WO, 0⟩]⟩

theorem locPf_crsSwapCtrl : locPf Reg.CRS_SWAP_CTRL.off = .reg crsSwapCtrl 0 0 0 := by decide

/-- R551: a permitted write is that of the swap's bits. -/
theorem State.access_swapCtrl {s : State} {req : Requester} (v : Nat) (h : Sys2Proof.mayConfigure s req Reg.CRS_SWAP_CTRL.off) :
    s.access req Reg.CRS_SWAP_CTRL.off v = (s.swapCtrl (bits v 0 32)).settle := by
  rw [State.access_plain h locPf_crsSwapCtrl (by decide) rfl rfl, State.lockCheck_unlockable _ _ _ (by decide)]
  rfl

/-- R551: the three bits of the value that is written. -/
theorem swapCtrl_bits :
    (bit (bits 1 0 32) 31 = false ∧ bit (bits 1 0 32) 1 = false ∧ bit (bits 1 0 32) 0 = true ∧ bit (bits 1 0 32) 2 = false) ∧
    (bit (bits 2 0 32) 31 = false ∧ bit (bits 2 0 32) 1 = true ∧ bit (bits 2 0 32) 0 = false ∧ bit (bits 2 0 32) 2 = false) ∧
    (bit (bits 4 0 32) 31 = false ∧ bit (bits 4 0 32) 1 = false ∧ bit (bits 4 0 32) 0 = false ∧ bit (bits 4 0 32) 2 = true) := by decide

theorem State.swapCtrl_arm {s : State} (ho : s.mode ≠ .off) (hf : s.mode ≠ .fenced) : s.swapCtrl (bits 1 0 32) = s.swapArm := by
  simp [State.swapCtrl, ho, hf, swapCtrl_bits]

theorem State.swapCtrl_disarm {s : State} (ho : s.mode ≠ .off) (hf : s.mode ≠ .fenced) : s.swapCtrl (bits 2 0 32) = s.swapDisarm := by
  simp [State.swapCtrl, ho, hf, swapCtrl_bits]

theorem State.swapCtrl_copy {s : State} (ho : s.mode ≠ .off) (hf : s.mode ≠ .fenced) : s.swapCtrl (bits 4 0 32) = s.swapCopy := by
  simp [State.swapCtrl, ho, hf, swapCtrl_bits]

section
variable {s : State} {req : Requester} (h : Sys2Proof.mayConfigure s req Reg.CRS_SWAP_CTRL.off)
include h

theorem exec_swapArm : exec (.swapArm req) s = .next s.swapArm.settle := by
  show Host.Outcome.next (s.access req Reg.CRS_SWAP_CTRL.off 1) = _
  obtain ⟨ha, hp, hf, hs⟩ := h
  rw [State.access_swapCtrl 1 ⟨ha, hp, hf, hs⟩, State.swapCtrl_arm (State.mode_ne_off ha) hf]

theorem exec_swapDisarm : exec (.swapDisarm req) s = .next s.swapDisarm.settle := by
  show Host.Outcome.next (s.access req Reg.CRS_SWAP_CTRL.off 2) = _
  obtain ⟨ha, hp, hf, hs⟩ := h
  rw [State.access_swapCtrl 2 ⟨ha, hp, hf, hs⟩, State.swapCtrl_disarm (State.mode_ne_off ha) hf]

theorem exec_shadowCopy : exec (.shadowCopy req) s = .next s.swapCopy.settle := by
  show Host.Outcome.next (s.access req Reg.CRS_SWAP_CTRL.off 4) = _
  obtain ⟨ha, hp, hf, hs⟩ := h
  rw [State.access_swapCtrl 4 ⟨ha, hp, hf, hs⟩, State.swapCtrl_copy (State.mode_ne_off ha) hf]

end

/-- Settles O23: each command is its bit's operation, and the codes come in the order of its conditions. -/
theorem swapRefused : Obligations.SwapRefused := by
  intro s req hcfg
  have harm := exec_swapArm hcfg
  have hdisarm := exec_swapDisarm hcfg
  have hcopied := exec_shadowCopy hcfg
  refine ⟨fun harmed => ?_, fun harmed hal => ?_, fun harmed hal hcopy => ?_, fun harmed hal hcopy hnear => ?_, fun harmed => ?_,
    fun harmed hnear => ?_, fun hbusy => ?_⟩
  · rw [State.swapArm, if_pos harmed] at harm
    exact harm
  · rw [State.swapArm, if_neg (by simp [harmed]), if_pos (by simp [hal])] at harm
    exact harm
  · rw [State.swapArm, if_neg (by simp [harmed]), if_neg (by simp [hal]), if_pos hcopy] at harm
    exact harm
  · rw [State.swapArm, if_neg (by simp [harmed]), if_neg (by simp [hal]), if_neg (by simp [hcopy]), if_pos hnear] at harm
    exact harm
  · rw [State.swapDisarm, if_pos (by simp [harmed])] at hdisarm
    exact hdisarm
  · rw [State.swapDisarm, if_neg (by simp [harmed]), if_pos hnear] at hdisarm
    exact hdisarm
  · rw [State.swapCopy, if_pos (by simpa [Option.isSome_iff_ne_none] using hbusy)] at hcopied
    exact hcopied

/-! ### Accepted -/

theorem State.swapArm_accepted {s : State} (harmed : s.crs.armed = false) (hal : s.crs.aligned = true) (hcopy : s.crs.copyBusy = false)
    (hahead : 2 ≤ s.swapAhead) : s.swapArm = { s with crs := { s.crs with armed := true } } := by
  rw [State.swapArm, if_neg (by simp [harmed]), if_neg (by simp [hal]), if_neg (by simp [hcopy]), if_neg (by omega)]

theorem State.swapDisarm_accepted {s : State} (harmed : s.crs.armed = true) (hahead : 2 ≤ s.swapAhead) :
    s.swapDisarm = { s with crs := { s.crs with armed := false } } := by
  rw [State.swapDisarm, if_neg (by simp [harmed]), if_neg (by omega)]

/-- R72: the copy begins; what else the command does is to log words in a table bank that is out. -/
theorem State.swapCopy_accepted {s : State} (harmed : s.crs.armed = false) (hbusy : s.crs.busyEnd = none) (hcopy : s.crs.copyBusy = false) :
    Stays [.glb, .regs, .ctrs, .srcs, .banks, .lnk, .hif, .bst, .out]
      { s with crs := { s.crs with copyBusy := true, copyFrom := s.cycles, copies := s.crs.copies + 1 } } s.swapCopy := by
  rw [State.swapCopy, if_neg (by simp [harmed, hbusy, hcopy])]
  exact Stays.foldl (Stays.refl _) fun _ _ h => State.tableWrite_stays _ _ (Has.refl _) h

theorem State.settle_crs (s : State) : s.settle.crs = s.crs := (State.settle_stays (Has.refl _) (Stays.refl s)).crs (by decide)
theorem State.settle_sets (s : State) : s.settle.sets = s.sets := (State.settle_stays (Has.refl _) (Stays.refl s)).sets (by decide)

/-! ### The copy is done (R72) -/

/-- R72: the words of both sets once every listed word of set `a` is listed for set `b` too. -/
def copySets (a b : Nat) (t : Tbl Word) : Tbl Word :=
  (t.filter (fun e => e.1 / 2 ^ 26 == a)).foldl (fun u e => Tbl.ins u (setKey b (e.1 % 2 ^ 26)) e.2) (t.filter (fun e => e.1 / 2 ^ 26 == a))

theorem State.copyDone_sets (s : State) : s.copyDone.sets = copySets s.crs.active s.shadow s.sets := by
  unfold State.copyDone
  extract_lets a b before mine keys both bothK
  exact (State.roleCheck_stays _ _ (Has.refl _) (Stays.refl _)).sets (by decide)

theorem State.copyDone_crs (s : State) : s.copyDone.crs = { s.crs with copyBusy := false } := by
  unfold State.copyDone
  extract_lets a b before mine keys both bothK
  exact (State.roleCheck_stays _ _ (Has.refl _) (Stays.refl _)).crs (by decide)

section
variable {a b : Nat} {t : Tbl Word} {k : Nat} (ha : a < 2) (hb : b = 1 - a) (hk : k < 2 ^ 26)
include ha hb hk

/-- The copy leaves the words of the set that is copied. -/
theorem find?_copySets_from : Tbl.find? (copySets a b t) (setKey a k) = Tbl.find? t (setKey a k) := by
  have hne (e : Nat × Word) : setKey b (e.1 % 2 ^ 26) ≠ setKey a k := setKey_ne (Nat.mod_lt _ (by decide)) hk (.inl (by omega))
  rw [copySets, Tbl.find?_foldl_ins_other (fun e => setKey b (e.1 % 2 ^ 26)) Prod.snd _ _ (fun e _ => hne e), Tbl.find?_filter]
  intro e he
  rw [he, setKey, beq_iff_eq]
  omega

/-- Each word of the other set is then as the word of the set that is copied: listed where that is listed, else at its reset value. -/
theorem find?_copySets_to (ht : t.Pairwise (fun x y => x.1 < y.1)) :
    Tbl.find? (copySets a b t) (setKey b k) = Tbl.find? t (setKey a k) := by
  have hkeys : ∀ e ∈ t.filter (fun e => e.1 / 2 ^ 26 == a), e.1 = setKey a (e.1 % 2 ^ 26) := fun e he => by
    have := beq_iff_eq.1 (List.mem_filter.1 he).2
    unfold setKey
    omega
  have hapart : (t.filter (fun e => e.1 / 2 ^ 26 == a)).Pairwise (fun x y => setKey b (x.1 % 2 ^ 26) ≠ setKey b (y.1 % 2 ^ 26)) := by
    refine (ht.sublist List.filter_sublist).imp_of_mem fun hx hy hlt => setKey_ne (Nat.mod_lt _ (by decide)) (Nat.mod_lt _ (by decide)) (.inr ?_)
    have := hkeys _ hx
    have := hkeys _ hy
    unfold setKey at *
    omega
  rw [copySets]
  cases hf : Tbl.find? t (setKey a k) with
  | some v =>
    have hmem : (setKey a k, v) ∈ t.filter (fun e => e.1 / 2 ^ 26 == a) :=
      List.mem_filter.2 ⟨Tbl.find?_some_mem hf, by rw [beq_iff_eq, setKey]; omega⟩
    have hkey : setKey b (setKey a k % 2 ^ 26) = setKey b k := by
      unfold setKey
      omega
    have h := Tbl.find?_foldl_ins_mem (fun e : Nat × Word => setKey b (e.1 % 2 ^ 26)) Prod.snd (t.filter (fun e => e.1 / 2 ^ 26 == a)) hmem hapart
    rw [hkey] at h
    exact h
  | none =>
    have hout : ∀ e ∈ t.filter (fun e => e.1 / 2 ^ 26 == a), setKey b (e.1 % 2 ^ 26) ≠ setKey b k := fun e he heq => by
      have hek : e.1 = setKey a k := (hkeys e he).trans (congrArg (setKey a) (Nat.add_left_cancel heq))
      have hlisted := Tbl.find?_mem ht (List.mem_filter.1 he).1
      rw [hek, hf] at hlisted
      exact nomatch hlisted
    rw [Tbl.find?_foldl_ins_other (fun e => setKey b (e.1 % 2 ^ 26)) Prod.snd _ _ hout]
    refine Tbl.find?_none fun e he heq => ?_
    have := hkeys e he
    unfold setKey at *
    omega

end

/-- R72: every word of the shadow reads its copied value, and the active set is as it was. -/
theorem State.setW_copyDone {s : State} (ha : s.crs.active < 2) (hc : Sys2Proof.canonical s) {k : Nat} (hk : k < 2 ^ 26) :
    s.copyDone.setW s.shadow k = s.setW s.crs.active k ∧ s.copyDone.setW s.crs.active k = s.setW s.crs.active k := by
  obtain ⟨-, ⟨hrising, -⟩, -⟩ := hc
  have hreset : resetSet (Machine.setKey s.shadow k) = resetSet (Machine.setKey s.crs.active k) := by
    have : Machine.setKey s.shadow k % 2 ^ 26 = Machine.setKey s.crs.active k % 2 ^ 26 := by unfold Machine.setKey; omega
    rw [resetSet, resetSet, this]
  simp only [State.setW, Tbl.get, State.copyDone_sets, find?_copySets_to (b := s.shadow) ha rfl hk hrising,
    find?_copySets_from (b := s.shadow) ha rfl hk, hreset, and_self]

/-- Settles O22: the commands by the accepted bits' equations, the swap as it is written, the copy word by word. -/
theorem swaps : Obligations.Swaps := by
  refine ⟨fun s req hcfg => ⟨fun harmed hal hcopy hahead => ?arm, fun harmed hahead => ?disarm, fun harmed hbusy hcopy => ?copy⟩,
    fun s hdue => ?effect, fun s harmed ho hf h0 hcourse => ?due, fun s => ⟨_, _, _, _, rfl, rfl, rfl, rfl, rfl⟩, fun s hbusy ha hc => ?done,
    fun s c hbusy hover => ?free⟩
  case arm =>
    rw [exec_swapArm hcfg, State.swapArm_accepted harmed hal hcopy hahead]
    exact ⟨_, rfl, State.settle_crs _, rfl⟩
  case disarm =>
    rw [exec_swapDisarm hcfg, State.swapDisarm_accepted harmed hahead]
    exact ⟨_, rfl, State.settle_crs _, rfl⟩
  case copy =>
    have hcopied := State.swapCopy_accepted harmed hbusy hcopy
    exact ⟨_, exec_shadowCopy hcfg, (State.settle_crs _).trans (hcopied.crs (by decide)), (State.settle_sets _).trans (hcopied.sets (by decide))⟩
  case effect => exact if_pos hdue
  case due => simp [State.swapDue, harmed, ho, hf, h0, hcourse]
  case done =>
    refine ⟨s.copyDone, if_pos hbusy, by rw [State.copyDone_crs], fun k hk => State.setW_copyDone ha hc hk⟩
  case free =>
    show execShadowBusyEnd s = _
    simp only [execShadowBusyEnd, hbusy]
    rw [if_pos hover]

end Sys2Proof.Machine
end

section
/-! Writes of SH registers (R71, R408, R409): which registers they are, and what a permitted write makes of the sets. -/
namespace Sys2Proof.Machine

/-! ### The shadowed registers -/

/-- The registers whose words lie in the configuration sets. -/
def shadowedIds : List RegId :=
  [.RTE_WALL_VALID, .RTE_PORT_ROLE, .RTE_EXIT, .SCH_VC_CFG, .SCH_TC_CFG, .SCH_METER, .SCH_METER_MAP, .SCH_SHAPER, .COL_TREE]

/-- A register with SH fields is one of them, and has no field under the set-up lock. -/
abbrev RegDef.plainShadow (d : RegDef) : Prop := d.shadowed = true → d.id ∈ shadowedIds ∧ ∀ f ∈ d.fields, f.acc ≠ .RWL

theorem plainShadow_blocks : ∀ b ∈ blocks, ∀ d ∈ b.regs, d.plainShadow := by decide +kernel

theorem plainShadow_readback : ∀ d ∈ regsRBK, d.plainShadow := by decide

theorem locateIn_mem {l : List RegDef} {o i j w : Nat} {d : RegDef} (h : locateIn l o = some (d, i, j, w)) : d ∈ l := by
  induction l with
  | nil => exact nomatch h
  | cons x t ih =>
    rw [locateIn] at h
    split at h
    · obtain ⟨rfl, -⟩ := Prod.mk.inj (Option.some.inj h)
      exact List.mem_cons_self
    · exact List.mem_cons_of_mem _ (ih h)

theorem plainShadow_of_locate {o i j w : Nat} {d : RegDef} (h : locate o = some (d, i, j, w)) : d.plainShadow := by
  rw [locate] at h
  split at h
  · next b hb => exact plainShadow_blocks b (List.mem_of_find?_eq_some hb) d (locateIn_mem h)
  · exact plainShadow_readback d (locateIn_mem h)

/-! ### The write -/

/-- No shadowed register has a behaviour of its own. -/
theorem State.regWrite_shadowed {s : State} {req : Requester} {d : RegDef} {i j w o v : Nat} (hid : d.id ∈ shadowedIds)
    (hsh : d.shadowed = true) : s.regWrite req d i j w o v = s.shadowWrite d i w o v := by
  simp only [shadowedIds, List.mem_cons, List.not_mem_nil, or_false] at hid
  rcases hid with h | h | h | h | h | h | h | h | h <;> simp only [State.regWrite, h, hsh, if_true]

/-- R253: no shadowed register belongs to a translation unit. -/
theorem State.absentUnit_shadowed {s : State} {d : RegDef} {i : Nat} (hid : d.id ∈ shadowedIds) : s.absentUnit d i = false := by
  refine State.absentUnit_other ?_ ?_ ?_ ?_ <;> exact fun h => absurd (h ▸ hid) (by decide)

theorem exec_shadowWrite {s : State} {req : Requester} {o v i j w : Nat} {d : RegDef} (hl : locate o = some (d, i, j, w))
    (hpf : locPf o = .reg d i j w) (h4 : o % 4 = 0) (hsh : d.shadowed = true) (hcfg : Sys2Proof.mayConfigure s req o)
    (hmay : State.mayWrite req d i = true) : exec (.shadowWrite req o v) s = .next (s.shadowWrite d i w o (v % 2 ^ 32)).settle := by
  obtain ⟨hid, hrwl⟩ := plainShadow_of_locate hl hsh
  show execShadowWrite req o v s = _
  simp only [execShadowWrite, hl, hsh, if_true]
  rw [State.access_reg hcfg hpf h4 hmay (State.absentUnit_shadowed hid), State.lockCheck_unlockable _ _ _ hrwl, State.regWrite_shadowed hid hsh]
  simp only [bits, Nat.shiftRight_zero]

/-! ### What it makes of the sets -/

theorem State.shadowWrite_closed {s : State} (d : RegDef) (i w o v : Nat) (hc : s.shadowClosed = true) :
    s.shadowWrite d i w o v = s.bump Ctr.CRS_SHADOW_REFUSED_COUNT := if_pos hc

/-- R408, R409: a word of COL_TREE is written unless the tree or the reservations would then be bad. -/
theorem State.treeWrite_sets (s u : State) (t : Nat) :
    (s.treeWrite u t).sets = if u.treeBad t = true ∨ 2048 < u.slotsReserved then s.sets else u.sets := by
  rw [State.treeWrite]
  split
  · next hbad => rw [if_pos (.inl hbad), State.put, State.setWord_sets]
  · next hbad =>
    split
    · next hover => rw [if_pos (.inr hover), State.put, State.setWord_sets]
    · next hover => rw [if_neg (not_or.2 ⟨hbad, hover⟩)]

/-- R71: the write of an open shadow sets the word, but for a tree that may not be as it would be. -/
theorem State.shadowWrite_sets {s : State} (d : RegDef) (i w o v : Nat) (hc : s.shadowClosed = false) :
    (s.shadowWrite d i w o v).sets =
      let u := s.putSetW s.shadow o (d.merge w (s.setW s.shadow o) v true)
      if d.id = .COL_TREE ∧ (u.treeBad i = true ∨ 2048 < u.slotsReserved) then s.sets else u.sets := by
  rw [State.shadowWrite, if_neg (by simp [hc])]
  extract_lets set before t t1 t2
  have hw : Has [.glb, .regs, .ctrs, .srcs, .banks, .lnk, .hif, .bst, .out] [.glb, .regs, .ctrs, .srcs, .banks, .lnk, .hif, .bst, .out] := Has.refl _
  have h2 : Stays _ t1 t2 := Stays.ite (fun _ => State.roleCheck_stays _ _ (hw.sub (by decide)) (Stays.refl t1)) (fun _ => Stays.refl t1)
  have ht1 : t1.sets = if d.id = .COL_TREE ∧ (t.treeBad i = true ∨ 2048 < t.slotsReserved) then s.sets else t.sets := by
    show (if d.id = .COL_TREE then s.treeWrite t i else t).sets = _
    by_cases hid : d.id = .COL_TREE
    · simp only [hid, if_true, true_and, s.treeWrite_sets t i]
    · simp only [hid, if_false, false_and]
  exact ((State.tableWrite_stays _ _ hw h2).sets (by decide)).trans ht1

theorem State.setW_of_sets {s t : State} (h : t.sets = s.sets) (b k : Nat) : t.setW b k = s.setW b k := by rw [State.setW, State.setW, h]

/-- Settles O24: a closed shadow by the refusal alone, an open one by what becomes of the sets. -/
theorem shadowWrites : Obligations.ShadowWrites := by
  refine ⟨fun s req o v i j w d hl hpf h4 _ hsh hcfg hmay hc => ?closed, fun s req o v i j w d hl hpf h4 ho hsh hcfg hmay hc ha => ?opened⟩
  case closed => rw [exec_shadowWrite hl hpf h4 hsh hcfg hmay, State.shadowWrite_closed d i w o _ hc]
  case opened =>
    have hsets := (State.settle_sets _).trans (s.shadowWrite_sets d i w o (v % 2 ^ 32) hc)
    refine ⟨_, exec_shadowWrite hl hpf h4 hsh hcfg hmay, rfl, fun k hk => ?active, fun n u hn hu => ?shadow⟩
    case active =>
      simp only at hsets
      split at hsets
      · exact State.setW_of_sets hsets _ k
      · rw [State.setW_of_sets hsets]
        exact s.setW_putSetW_ne _ (setKey_ne ho hk (.inl (by unfold State.shadow; omega)))
    case shadow =>
      subst hn hu
      simp only at hsets
      split
      · next hbad => rw [hsets, if_pos hbad]
      · next hgood =>
        rw [if_neg hgood] at hsets
        rw [State.setW_of_sets hsets, State.setW_putSetW_self]

end Sys2Proof.Machine
end

section
/-! Fields of register words (R9): what a field reads as once it, or another, has been set. -/
namespace Sys2Proof.Machine

theorem State.word_put (s : State) (f : Fld) (v : Nat) : (s.put f v).word f.off = setBits (s.word f.off) f.lsb f.w v % 2 ^ 32 :=
  s.word_setWord_self f.off _

/-- A field that lies within its word reads as it was set. -/
theorem State.g_put_self (s : State) {f : Fld} (v : Nat) (hf : f.lsb + f.w ≤ 32) : (s.put f v).g f = v % 2 ^ f.w := by
  refine Nat.eq_of_testBit_eq fun i => ?_
  rw [State.g, State.word_put, testBit_bits, Nat.testBit_mod_two_pow, testBit_setBits, Nat.testBit_mod_two_pow]
  by_cases hi : i < f.w
  · simp [hi, show f.lsb + i < 32 by omega]
  · simp [hi]

/-- Setting a field leaves every field that shares no bit with it. -/
theorem State.g_put_other (s : State) {f h : Fld} (v : Nat) (hh : h.lsb + h.w ≤ 32)
    (hapart : h.off ≠ f.off ∨ h.lsb + h.w ≤ f.lsb ∨ f.lsb + f.w ≤ h.lsb) : (s.put f v).g h = s.g h := by
  by_cases hoff : h.off = f.off
  · refine bits_ext fun i hi => ?_
    rw [hoff, State.word_put, Nat.testBit_mod_two_pow, testBit_setBits, if_neg (by omega)]
    simp [show h.lsb + i < 32 by omega]
  · rw [State.g, State.g, State.put, s.word_setWord_ne _ hoff]

/-- The fields are read off the register words alone. -/
theorem State.g_of_regs {s t : State} (h : t.regs = s.regs) (f : Fld) : t.g f = s.g f := by
  rw [State.g, State.g, State.word, State.word, h]

theorem State.isRoot_of_regs {s t : State} (h : t.regs = s.regs) : t.isRoot = s.isRoot := by
  rw [State.isRoot, State.isRoot, State.g_of_regs h]

end Sys2Proof.Machine
end

section
/-! Alignment (R54, R61 to R63, R67): the step, the gain and the loss of alignment, and the write that makes or unmakes a time root. -/
namespace Sys2Proof.Machine

/-! ### The one step (R61) -/

theorem exec_alignStep_due {s : State} (h : s.stepDue = true) : exec .alignStep s = .next s.alignStep := if_pos h

/-- The local time that the step leads to, in 1/16 cycle. -/
def State.stepTicks (s : State) : Int := (s.localTicks - s.crs.avgSum.tdiv 16) % (20480 * 2 ^ 48)

/-- The time is split into the course, the cycle and the phase, and the step is noted; what follows raises its event. -/
theorem State.alignStep_crs (s : State) : ∃ tx rx, s.alignStep.crs = { s.crs with
    course := BitVec.ofNat 48 (s.stepTicks / 20480).toNat, cycle := (s.stepTicks % 20480).toNat / 16,
    ball := decide ((s.stepTicks % 20480).toNat / 16 < 64), phase := ((s.stepTicks % 20480).toNat : Int) % 16, stepped := true, stepDone := true,
    stepFrom := s.now, stepTo := (s.stepTicks / 20480).toNat % 2 ^ 48 * 65536 + (s.stepTicks % 20480).toNat / 16,
    avgSum := 0, avgCount := 0, errCourse := none, goodRun := 0, badRun := 0, txMarks := tx, rxMarks := rx } := by
  unfold State.alignStep
  extract_lets old oldCourse d m c r s0 src s1
  have hw : Has [.glb, .ctrs, .srcs, .banks, .hif, .out] [.glb, .ctrs, .srcs, .banks, .hif, .out] := Has.refl _
  exact ⟨_, _, (State.raise_stays _ _ _ _ _ hw (State.bump_stays _ (hw.sub (by decide)) (Stays.refl s1))).crs (by decide)⟩

/-- A time within the space of the course counter is its course, cycle and phase again. -/
theorem ticks_split {m : Int} (h0 : 0 ≤ m) (hm : m < 20480 * 2 ^ 48) :
    ((((m / 20480).toNat % 2 ^ 48 * 1280 + (m % 20480).toNat / 16) * 16 : Nat) : Int) + ((m % 20480).toNat : Int) % 16 = m := by
  omega

theorem State.localTicks_alignStep (s : State) : s.alignStep.localTicks = s.stepTicks := by
  obtain ⟨tx, rx, hcrs⟩ := s.alignStep_crs
  have h0 : 0 ≤ s.stepTicks := Int.emod_nonneg _ (by decide)
  have hm : s.stepTicks < 20480 * 2 ^ 48 := Int.emod_lt_of_pos _ (by decide)
  rw [State.localTicks, State.course, hcrs]
  simp only [BitVec.toNat_ofNat]
  exact ticks_split h0 hm

/-! ### Gained and lost (R62, R63) -/

theorem exec_aligned {s : State} (hno : s.crs.aligned = false)
    (h : (s.crs.stepDone = true ∧ s.crs.goodRun ≥ 64) ∨ (s.isRoot = true ∧ s.counting = true ∧ s.mode ≠ .monitor)) :
    exec .aligned s = .next { s with crs := { s.crs with aligned := true } } := by
  show execAligned s = _
  rw [execAligned, if_pos ⟨by simp [hno], h⟩]

theorem exec_alignLost {s : State} (hal : s.crs.aligned = true) (hbad : s.crs.badRun ≥ 8) :
    exec .alignLost s = .next ({ s with crs := { s.crs with lost := true, badRun := 0 } }.raise (srcCrs 3) 0 0).dropParent := by
  show execAlignLost s = _
  rw [execAlignLost, if_pos ⟨hal, hbad⟩]

/-- What the choice of a parent leaves of the course unit. -/
structure Crs.SameClock (c d : Crs) : Prop where
  course : d.course = c.course
  cycle : d.cycle = c.cycle
  aligned : d.aligned = c.aligned
  lost : d.lost = c.lost
  rxMarks : d.rxMarks = c.rxMarks
  follow : d.follow = c.follow

theorem State.chooseParent_sameClock (s : State) (rank root : Nat) : s.crs.SameClock (s.chooseParent rank root).crs := by
  simp only [State.chooseParent]
  split
  · exact ⟨rfl, rfl, rfl, rfl, rfl, rfl⟩
  · exact ⟨rfl, rfl, rfl, rfl, rfl, rfl⟩

theorem State.newParent_sameClock (s : State) : s.crs.SameClock s.newParent.crs := by
  have hkept : s.crs.SameClock s.crs := ⟨rfl, rfl, rfl, rfl, rfl, rfl⟩
  rw [State.newParent]
  split
  · exact hkept
  · split
    · split
      · exact s.chooseParent_sameClock _ _
      · exact hkept
    · split
      · exact s.chooseParent_sameClock _ _
      · exact ⟨rfl, rfl, rfl, rfl, rfl, rfl⟩

/-- R63: giving the parent up leaves the time, and alignment with its loss. -/
theorem State.dropParent_clock (s : State) : s.dropParent.crs.course = s.crs.course ∧ s.dropParent.crs.cycle = s.crs.cycle ∧
    s.dropParent.crs.aligned = s.crs.aligned ∧ s.dropParent.crs.lost = s.crs.lost := by
  simp only [State.dropParent]
  split
  · have h (u : State) := u.newParent_sameClock
    exact ⟨(h _).course, (h _).cycle, (h _).aligned, (h _).lost⟩
  · have h := s.newParent_sameClock
    exact ⟨h.course, h.cycle, h.aligned, h.lost⟩

/-! ### The time root (R54, R67) -/

/-- CRS_ALIGN_CTRL in the register map. -/
def crsAlignCtrl : RegDef :=
  ⟨.CRS_ALIGN_CTRL, 0x80010, 1, 0x4000000, 1, 0x4000000, 1, [⟨0, 8, 2, .RW, 3⟩, ⟨0, 6, 2, .RWL, 0⟩, ⟨0, 0, 1, .RW, 0⟩]⟩

theorem locPf_crsAlignCtrl : locPf Reg.CRS_ALIGN_CTRL.off = .reg crsAlignCtrl 0 0 0 := by decide

theorem exec_alignCtrlWrite {s : State} {req : Requester} (v : Nat) (h : Sys2Proof.mayConfigure s req Reg.CRS_ALIGN_CTRL.off) (u : State)
    (hu : u = s.lockCheck crsAlignCtrl 0 (s.word Reg.CRS_ALIGN_CTRL.off) (v % 2 ^ 32)) :
    exec (.alignCtrlWrite req v) s = .next (u.alignCtrlWrite (v % 2 ^ 32) u.rwlOpen).settle := by
  subst hu
  show Host.Outcome.next (s.access req Reg.CRS_ALIGN_CTRL.off v) = _
  rw [State.access_plain h locPf_crsAlignCtrl (by decide) rfl rfl]
  simp only [bits, Nat.shiftRight_zero]
  rfl

/-- The register's part of the write. -/
def State.alignFields (s : State) (v : Nat) (rwl : Bool) : State :=
  let u := (s.put Reg.CRS_ALIGN_CTRL.root (bit v 0).toNat).put Reg.CRS_ALIGN_CTRL.rank (bits v 8 2)
  if rwl then u.put Reg.CRS_ALIGN_CTRL.head_mode (bits v 6 2) else u

theorem State.alignCtrlWrite_regs (s : State) (v : Nat) (b : Bool) : (s.alignCtrlWrite v b).regs = (s.alignFields v b).regs := by
  simp only [State.alignCtrlWrite, State.alignFields]
  split
  · rfl
  · split
    · split <;> rfl
    · rfl

/-- Bit 0 of the value makes or unmakes the root. -/
theorem State.isRoot_alignCtrlWrite (s : State) (v : Nat) (b : Bool) : (s.alignCtrlWrite v b).isRoot = bit v 0 := by
  have hroot : (s.alignFields v b).g Reg.CRS_ALIGN_CTRL.root = (bit v 0).toNat := by
    have hput : ((s.put Reg.CRS_ALIGN_CTRL.root (bit v 0).toNat).put Reg.CRS_ALIGN_CTRL.rank (bits v 8 2)).g Reg.CRS_ALIGN_CTRL.root =
        (bit v 0).toNat := by
      rw [State.g_put_other _ _ (by decide) (by decide), State.g_put_self _ _ (by decide)]
      exact Nat.mod_eq_of_lt (Bool.toNat_lt _)
    cases b
    · exact hput
    · exact (State.g_put_other _ _ (by decide) (by decide)).trans hput
  rw [State.isRoot_of_regs (s.alignCtrlWrite_regs v b), State.isRoot, hroot]
  cases bit v 0 <;> rfl

/-- R54, R67: a device that is made a root names itself, and its time goes on. -/
theorem State.alignCtrlWrite_crs_root (s : State) {v : Nat} (b : Bool) (hv : bit v 0 = true) :
    (s.alignCtrlWrite v b).crs = { s.crs with
      rootValid := s.meValid, rootId := s.me, rootRank := bits v 8 2, parent := none, globalDepth := 0, localDepth := 0, deep := false,
      follow := none, aligned := s.crs.aligned || (s.counting && s.mode != .monitor) } := by
  rw [State.alignCtrlWrite, if_pos hv]
  cases b <;> rfl

/-- Settles O21: the step by the time it splits, gain and loss by their equations, the root by the register's fields. -/
theorem alignmentAndRoot : Obligations.AlignmentAndRoot := by
  refine ⟨⟨fun s havg hdone hal h0 herr => ?step, fun s hal h => exec_aligned hal h, fun s hal hbad => ?lost⟩,
    fun s req v hcfg => ⟨_, _, locPf_crsAlignCtrl, rfl, exec_alignCtrlWrite v hcfg _ rfl⟩, fun s v b hv => ?root,
    fun s v b hv => (s.isRoot_alignCtrlWrite v b).trans hv⟩
  case step =>
    have hdue : s.stepDue = true := by simp [State.stepDue, havg, hdone, hal, h0, herr]
    obtain ⟨tx, rx, hcrs⟩ := s.alignStep_crs
    refine ⟨_, exec_alignStep_due hdue, by rw [hcrs], by rw [hcrs], by rw [hcrs], ?_, by rw [hcrs], s.localTicks_alignStep⟩
    rw [State.now, State.course, hcrs]
    simp only [BitVec.toNat_ofNat]
  case lost =>
    have hraise : Stays [.glb, .ctrs, .srcs, .banks, .hif, .out] { s with crs := { s.crs with lost := true, badRun := 0 } }
        ({ s with crs := { s.crs with lost := true, badRun := 0 } }.raise (srcCrs 3) 0 0) := State.raise_stays _ _ _ _ _ (Has.refl _) (Stays.refl _)
    have hcrs := hraise.crs (by decide)
    obtain ⟨hcourse, hcycle, haligned, hlost⟩ := State.dropParent_clock ({ s with crs := { s.crs with lost := true, badRun := 0 } }.raise (srcCrs 3) 0 0)
    rw [hcrs] at hcourse hcycle haligned hlost
    have hw : Has [.glb, .crs, .ctrs, .srcs, .banks, .hif, .out] [.glb, .crs, .ctrs, .srcs, .banks, .hif, .out] := Has.refl _
    exact ⟨_, exec_alignLost hal hbad, hlost, haligned.trans hal, hcourse, hcycle,
      State.dropParent_stays (hw.sub (by decide)) (State.raise_stays _ _ _ _ _ (hw.sub (by decide)) (Stays.set_crs (Stays.refl s) (by decide)))⟩
  case root =>
    have hcrs := s.alignCtrlWrite_crs_root b hv
    have hrank : bits v 8 2 = v / 256 % 4 := congrArg (· % 4) (Nat.shiftRight_eq_div_pow v 8)
    exact ⟨_, rfl, (s.isRoot_alignCtrlWrite v b).trans hv, by rw [hcrs], by rw [hcrs, hrank], by rw [hcrs], by rw [hcrs], by rw [hcrs], by rw [hcrs],
      State.alignCtrlWrite_stays v b (Has.refl _) (Stays.refl s)⟩

end Sys2Proof.Machine
end

section
/-! Course boundaries and course marks (R47, R48, R51, R56 to R60, R69): the command that ends a course, and what a mark brings to a device
that has a parent, follows no root yet, or is the root. -/
namespace Sys2Proof.Machine
open Sys2Proof (Part)

/-! ### COURSE_BOUNDARY and REFERENCE_LOSS -/

theorem exec_courseBoundary {s : State} (hc : s.counting = true) :
    exec .courseBoundary s = .next s.dueFirst.courseBoundary.forceTick := if_pos hc

theorem exec_courseBoundary_idle {s : State} (hc : s.counting = false) : exec .courseBoundary s = .next s := if_neg (by simp [hc])

theorem exec_referenceLoss {s : State} (ho : s.mode ≠ .off) : exec .referenceLoss s = .next (s.level (srcCrs 0) true) := if_neg ho

/-- At cycle 0 with nothing due, trees that resume come before the boundary and nothing else does. -/
theorem State.dueFirst_quiet {s : State}
    (h : s.crs.cycle = 0 → s.swapDue = false ∧ s.glb.fencePend = none ∧ s.modeDue = false ∧ s.stepDue = false ∧ s.followDue = none) :
    s.dueFirst = if s.crs.cycle = 0 then s.resumeTrees else s := by
  rw [State.dueFirst]
  split
  next h0 =>
    obtain ⟨hswap, hfence, hmode, hstep, hfollow⟩ := h h0
    exact State.cycleZero_quiet hswap hfence hmode hstep hfollow
  next => rfl

/-! ### Receiving a mark -/

theorem exec_courseMarkRx {s : State} {p : Nat} (m : Mark) (hp : p < 64) (hc : s.counting = true) (hd : (s.lk p).st ≠ .down)
    (hf : (s.lk p).st ≠ .fencing) : exec (.courseMarkRx p m) s = .next (s.courseMark p m) := if_pos ⟨hp, hc, hd, hf⟩

theorem exec_courseMarkRx_down {s : State} {p : Nat} (m : Mark) (h : (s.lk p).st = .down ∨ (s.lk p).st = .fencing) :
    exec (.courseMarkRx p m) s = .next s := if_neg (by rintro ⟨-, -, hd, hf⟩; exact h.elim hd hf)

/-- R57: the mark is stamped with its time of arrival. -/
def State.stamped (s : State) (p : Nat) (m : Mark) : State :=
  { s with crs := { s.crs with rxMarks := Tbl.ins s.crs.rxMarks p ⟨m, s.localTicks, true⟩ } }

/-- A mark that may not be used from its port is only stamped. -/
theorem State.courseMark_unused {s : State} {p : Nat} {m : Mark} (h : s.markPort p m.rootId = false) : s.courseMark p m = s.stamped p m := by
  have hport : (s.stamped p m).markPort p m.rootId = false := h
  show (if (!(s.stamped p m).markPort p m.rootId) = true then s.stamped p m else _) = _
  rw [hport]
  rfl

section
variable {s : State} {p : Nat} {m : Mark} (hport : s.markPort p m.rootId = true)
include hport

/-- R58 to R63: the parent's mark, naming the root that is followed, to an aligned device. -/
theorem State.courseMark_parent (hroot : s.isRoot = false) (hp : s.crs.parent = some p) (hal : s.crs.aligned = true)
    (hv : s.crs.rootValid = true) (hid : s.crs.rootId = m.rootId) : s.courseMark p m = (s.stamped p m).parentMark p m := by
  have hport' : (s.stamped p m).markPort p m.rootId = true := hport
  have hroot' : (s.stamped p m).isRoot = false := hroot
  show (if (!(s.stamped p m).markPort p m.rootId) = true then _ else if (s.stamped p m).isRoot = true then _ else _) = _
  rw [hport', hroot']
  simp [State.stamped, hal, hp, hv, hid]

/-- R58 to R63: the parent's mark to a device not yet aligned, once that follows the best root it hears. -/
theorem State.courseMark_unaligned (hroot : s.isRoot = false) (hal : s.crs.aligned = false) :
    s.courseMark p m =
      let u := (s.stamped p m).followBest
      if u.crs.parent = some p then (if u.crs.rootId = m.rootId then u.parentMark p m else u.phaseMark p m) else u := by
  have hport' : (s.stamped p m).markPort p m.rootId = true := hport
  have hroot' : (s.stamped p m).isRoot = false := hroot
  show (if (!(s.stamped p m).markPort p m.rootId) = true then _ else if (s.stamped p m).isRoot = true then _ else _) = _
  rw [hport', hroot']
  simp [State.stamped, hal]

/-- R59: the mark of another root that is aligned, to a root. -/
theorem State.courseMark_root (hroot : s.isRoot = true) (hm : m.aligned = true) (hne : m.rootId ≠ s.me) :
    s.courseMark p m = (s.stamped p m).otherRoot p m := by
  have hport' : (s.stamped p m).markPort p m.rootId = true := hport
  have hroot' : (s.stamped p m).isRoot = true := hroot
  have hme : m.rootId ≠ (s.stamped p m).me := hne
  show (if (!(s.stamped p m).markPort p m.rootId) = true then _ else if (s.stamped p m).isRoot = true then
    (if (m.aligned && m.rootId != (s.stamped p m).me) = true then _ else _) else _) = _
  rw [hport', hroot', hm, if_neg (by simp), if_pos rfl, if_pos (by simpa using hme)]
  rfl

end

/-- R56: the root itself hears marks on every port. -/
theorem State.markPort_root {s : State} (p root : Nat) (hme : s.meValid = true) (hroot : s.isRoot = true) : s.markPort p root = true := by
  simp [State.markPort, hme, hroot]

/-! ### Another root to follow (R57 to R59) -/

/-- R57, R58: the root that is followed, and its rank as the parent's mark gives it where one is found. -/
theorem State.chooseParent_root (s : State) (rank root : Nat) :
    (s.chooseParent rank root).crs.rootValid = true ∧ (s.chooseParent rank root).crs.rootId = root ∧
    ((s.chooseParent rank root).crs.parent = none → (s.chooseParent rank root).crs.rootRank = rank) ∧
    ∀ q e, (s.chooseParent rank root).crs.parent = some q → Tbl.find? s.crs.rxMarks q = some e →
      (s.chooseParent rank root).crs.rootRank = e.mark.rank := by
  simp only [State.chooseParent]
  split
  · refine ⟨rfl, rfl, fun h => (nomatch h), fun q e hq he => ?_⟩
    obtain rfl := Option.some.inj hq
    simp only [State.setDepth, he]
  · exact ⟨rfl, rfl, fun _ => rfl, fun q e hq _ => (nomatch hq)⟩

/-- R59: a root that hears a better one, on time, stops being the root and follows it. -/
theorem State.otherRoot_better {s : State} {p : Nat} {m : Mark} {e : Int} (hroot : s.isRoot = true) (he : s.markErr p m = some e)
    (hnear : e.natAbs ≤ 480) (hbetter : betterRoot (m.rank, m.rootId) (s.g Reg.CRS_ALIGN_CTRL.rank, s.me) = true) :
    s.otherRoot p m = (s.setMultiRoot.put Reg.CRS_ALIGN_CTRL.root 0).chooseParent m.rank m.rootId := by
  simp only [State.otherRoot, he]
  rw [if_neg (by omega), if_pos hroot, if_pos hbetter]

/-- What becomes of a root that follows another: it is none, and the rank is the one its parent names. -/
theorem State.otherRoot_follows {s : State} {p : Nat} {m : Mark} {e : Int} (hroot : s.isRoot = true) (he : s.markErr p m = some e)
    (hnear : e.natAbs ≤ 480) (hbetter : betterRoot (m.rank, m.rootId) (s.g Reg.CRS_ALIGN_CTRL.rank, s.me) = true) :
    (s.otherRoot p m).isRoot = false ∧ (s.otherRoot p m).crs.rootId = m.rootId ∧
    ∀ q r, (s.otherRoot p m).crs.parent = some q → Tbl.find? (s.otherRoot p m).crs.rxMarks q = some r →
      (s.otherRoot p m).crs.rootRank = r.mark.rank := by
  rw [State.otherRoot_better hroot he hnear hbetter]
  obtain ⟨-, hid, -, hrank⟩ := (s.setMultiRoot.put Reg.CRS_ALIGN_CTRL.root 0).chooseParent_root m.rank m.rootId
  have hclock := (s.setMultiRoot.put Reg.CRS_ALIGN_CTRL.root 0).chooseParent_sameClock m.rank m.rootId
  refine ⟨?_, hid, fun q r hq hr => hrank q r hq (hclock.rxMarks ▸ hr)⟩
  rw [State.isRoot_of_regs ((State.chooseParent_stays _ _ (Has.refl _) (Stays.refl _)).regs (by decide)), State.isRoot,
    State.g_put_self _ _ (by decide)]
  rfl

/-- R59: a better root is due to be followed from the course after the one it was heard in. -/
theorem State.followDue_of {s : State} {k r : Nat} {c : Course} (hf : s.crs.follow = some (k, r, c)) (hc : c ≠ s.crs.course)
    (hal : s.crs.aligned = true) (h0 : s.crs.cycle = 0) : s.followDue = some (k, r) := by
  simp only [State.followDue, hf]
  rw [if_pos ⟨hal, h0, hc⟩]

theorem exec_followBetterRoot {s : State} {r : Nat × Nat} (h : s.followDue = some r) : exec .followBetterRoot s = .next (s.followRoot r) := by
  show execFollowBetterRoot s = _
  simp only [execFollowBetterRoot, h]

/-- Settles O20: the boundary by its equation and what it leaves; each mark by the way that it goes; following by the choice of a parent. -/
theorem coursesAndMarks : Obligations.CoursesAndMarks := by
  refine ⟨⟨fun s hc => exec_courseBoundary hc, fun s u hc hu hdue hquiet => ?boundary, fun s hc => exec_courseBoundary_idle hc,
      fun s ho => exec_referenceLoss ho⟩,
    fun s p m hp hc hd hf => exec_courseMarkRx m hp hc hd hf, fun s p m h => exec_courseMarkRx_down m h,
    fun s u p m hu hport hroot hp => ⟨fun hal hv hid => ?parent, fun hal hkept => ?unaligned⟩, fun s p m hp hc hd hf hport => ?unused,
    fun s p root hme hroot => State.markPort_root p root hme hroot, fun s p m e hroot hme hm hne he hnear hbetter => ?better,
    fun s k r c hf hc hal h0 => ?follow⟩
  case boundary =>
    have hfirst : s.dueFirst = u := (State.dueFirst_quiet hdue).trans hu.symm
    have hstays := State.dueFirst_stays hdue
    rw [hfirst] at hstays
    refine ⟨_, exec_courseBoundary hc, ?_⟩
    rw [hfirst, State.forceTick_quiet hquiet]
    refine ⟨rfl, u.courseBoundary_mode.trans (hstays.mode (by decide)), ?_, State.courseBoundary_stays (Has.refl _) (Stays.refl u)⟩
    rw [u.courseBoundary_crs, hstays.crs (by decide)]
    rfl
  case parent => exact hu ▸ State.courseMark_parent hport hroot hp hal hv hid
  case unaligned =>
    subst hu
    rw [State.courseMark_unaligned hport hroot hal]
    exact if_pos hkept
  case unused => exact ⟨_, exec_courseMarkRx m hp hc hd hf, State.courseMark_unused hport⟩
  case better =>
    rw [State.courseMark_root (State.markPort_root p _ hme hroot) hroot hm hne]
    exact State.otherRoot_follows (s := s.stamped p m) hroot he hnear hbetter
  case follow =>
    have hclock := State.chooseParent_sameClock { s with crs := { s.crs with follow := none } } k r
    obtain ⟨hv, hid, hnone, hrank⟩ := State.chooseParent_root { s with crs := { s.crs with follow := none } } k r
    exact ⟨s.followRoot (k, r), exec_followBetterRoot (State.followDue_of hf hc hal h0), hclock.follow, hv, hid, hnone, hrank, hclock.course,
      hclock.cycle, hclock.aligned.trans hal, State.followRoot_stays (k, r) (Has.refl _) (Stays.refl s)⟩

end Sys2Proof.Machine
end

section
/-! The slices of the self-test (R477 to R487): how one begins, goes on and ends, what the check of its signature leads to, and the two
commands of BST_CMD. -/
namespace Sys2Proof.Machine
open Sys2Proof (Part)

/-! ### Fields and records in the register words -/

/-- Setting a key that a selection passes over leaves what is selected. -/
theorem Tbl.filterMap_put {α β : Type} [DecidableEq α] (d : Nat → α) (t : Tbl α) {a : Nat} (v : α) (f : Nat × α → Option β)
    (h : ∀ x, f (a, x) = none) : (Tbl.put d t a v).filterMap f = t.filterMap f := by
  have hins : (Tbl.ins t a v).filterMap f = t.filterMap f := by
    induction t with
    | nil => simp [Tbl.ins, h]
    | cons e t ih =>
      obtain ⟨k, w⟩ := e
      rw [Tbl.ins]
      split
      · rw [List.filterMap_cons_none (h v)]
      · split
        · next hk => rw [List.filterMap_cons_none (h v), List.filterMap_cons_none (hk ▸ h w)]
        · rw [List.filterMap_cons, List.filterMap_cons, ih]
  have hdel : (Tbl.del t a).filterMap f = t.filterMap f := by
    rw [Tbl.del, List.filterMap_filter]
    refine List.filterMap_congr fun e _ => ?_
    split
    · rfl
    · next hk =>
      obtain rfl : e.1 = a := by simpa using hk
      exact (h e.2).symm
  rw [Tbl.put]
  split
  · exact hdel
  · exact hins

/-- A word outside BST_REPAIR is part of no repair record. -/
theorem State.records_put (s : State) {f : Fld} (v : Nat) (h : f.off < Reg.BST_REPAIR.off 0) : (s.put f v).records = s.records :=
  Tbl.filterMap_put _ _ _ _ fun _ => if_neg fun k => absurd k.1 (Nat.not_le.2 h)

theorem State.bump_regs (s : State) (c : Nat) : (s.bump c).regs = s.regs := State.bumpBy_regs s c 1

/-- R484, R485: a repair record writes words of BST_REPAIR only. -/
theorem State.g_addRecord (s : State) (r kind cls unit spare element : Nat) {f : Fld} (h : f.off < Reg.BST_REPAIR.off 0) :
    (s.addRecord r kind cls unit spare element).g f = s.g f := by
  have hoff : f.off ≠ Reg.BST_REPAIR.off r ∧ f.off ≠ Reg.BST_REPAIR.off r + 4 := by
    unfold Reg.BST_REPAIR.off at *
    omega
  rw [State.addRecord, State.g_of_regs (State.bump_regs _ _), State.g, State.word_setWord_ne _ _ hoff.2, State.word_setWord_ne _ _ hoff.1, State.g]

theorem State.raise_regs (s : State) (g cond obj : Nat) (owner : Option Nat) (detail : Nat) : (s.raise g cond obj owner detail).regs = s.regs :=
  (State.raise_stays g cond obj owner detail (Has.refl _) (Stays.refl s)).regs (by decide)

theorem State.g_softRepair (s : State) (cls unit : Nat) (fails : List (Nat × Nat)) {f : Fld} (h : f.off < Reg.BST_REPAIR.off 0) :
    (s.softRepair cls unit fails).g f = s.g f := by
  rw [State.softRepair, State.g_of_regs (State.raise_regs _ _ _ _ _ _)]
  refine List.foldlRecOn (motive := fun t : State => t.g f = s.g f) fails _ rfl fun t ht e _ => ?_
  dsimp only
  split
  · rw [State.g_addRecord _ _ _ _ _ _ _ h]
    exact ht
  · exact ht

/-- R484: whether the spares suffice is read off the records and the two fields that tell spares and records in use. -/
theorem State.suffices_of {s t : State} (hrecords : t.records = s.records)
    (hspare : ∀ r, t.g (Reg.BST_REPAIR.spare r) = s.g (Reg.BST_REPAIR.spare r))
    (hvalid : ∀ r, t.g (Reg.BST_REPAIR.valid r) = s.g (Reg.BST_REPAIR.valid r)) (cls unit : Nat) (fails : List (Nat × Nat)) :
    t.suffices cls unit fails = s.suffices cls unit fails := by
  have hspares : t.spares cls unit = s.spares cls unit := by
    funext kind
    simp only [State.spares, hrecords, hspare]
  have hfree : t.freeRecords = s.freeRecords := by simp only [State.freeRecords, hvalid]
  rw [State.suffices, State.suffices, hspares, hfree]

/-! ### Begin and end -/

theorem State.bankPool_regs (s : State) (unit : Nat) (b : Bool) : (s.bankPool unit b).regs = s.regs :=
  (State.bankPool_stays unit b (Has.refl _) (Stays.refl s)).regs (by decide)

/-- R479: a slice that begins is in progress. -/
theorem State.sliceBegin_slicing (s : State) (cls unit : Nat) (b : Bool) : (s.sliceBegin cls unit b).slicing = true := by
  have hregs : (s.sliceBegin cls unit b).regs = (((((s.put Reg.BST_STATUS.active 1).put Reg.BST_STATUS.phase 1).put Reg.BST_STATUS.cls cls).put
      Reg.BST_STATUS.unit unit).put Reg.BST_LOG.used 0).regs := by
    unfold State.sliceBegin
    extract_lets
    split
    · exact State.bankPool_regs _ _ _
    · rfl
  rw [State.slicing, State.g_of_regs hregs, beq_iff_eq, State.g_put_other _ _ (by decide) (by decide),
    State.g_put_other _ _ (by decide) (by decide), State.g_put_other _ _ (by decide) (by decide), State.g_put_other _ _ (by decide) (by decide),
    State.g_put_self _ _ (by decide)]
  rfl

/-- R479: back in IDLE no slice is in progress. -/
theorem State.sliceEnd_idle (s : State) (b : Bool) : (s.sliceEnd b).slicing = false ∧ (s.sliceEnd b).g Reg.BST_STATUS.phase = 0 := by
  generalize hu : (if s.sliceUnit.1 = 4 ∧ ¬ b = true then s.bankPool s.sliceUnit.2 false else s) = u
  have hend : s.sliceEnd b = ((u.put Reg.BST_STATUS.active 0).put Reg.BST_STATUS.phase 0).put Reg.BST_LOG.used 0 := hu ▸ rfl
  rw [hend, State.slicing, State.g_put_other _ _ (by decide) (by decide), State.g_put_other _ _ (by decide) (by decide),
    State.g_put_self _ _ (by decide), State.g_put_other _ _ (by decide) (by decide), State.g_put_self _ _ (by decide)]
  exact ⟨rfl, rfl⟩

theorem State.ctr_of_ctrs {s t : State} (h : t.ctrs = s.ctrs) (c : Nat) : t.ctr c = s.ctr c := by rw [State.ctr, State.ctr, h]

theorem State.sliceEnd_ctr (s : State) (b : Bool) (c : Nat) : (s.sliceEnd b).ctr c = s.ctr c :=
  State.ctr_of_ctrs ((State.sliceEnd_stays b (Has.refl _) (Stays.refl s)).ctrs (by decide)) c

/-- R68, R477: in cycles 384 to 1,151 of a slot's first course the slot is noted, and the slice of its unit begins. -/
theorem execSliceStart_eq {s : State} (hmode : s.mode = .transit ∨ s.mode = .service) (hruns : s.coreRuns 2 = true) (hen : s.g Reg.BST_CFG.enable = 1)
    (hidle : s.slicing = false) (hslot : s.course % 4096 = 0) (hlo : 384 ≤ s.crs.cycle) (hhi : s.crs.cycle ≤ 1151)
    (hnew : s.bst.slot ≠ some (s.course / 4096)) :
    (s.slotEntry = none → exec .sliceStart s = .next { s with bst := { s.bst with slot := some (s.course / 4096) } }) ∧
    (s.slotEntry = some (s.course % 2 ^ 24 / 4096) →
      s.retired (entryUnit (s.course % 2 ^ 24 / 4096)).1 (entryUnit (s.course % 2 ^ 24 / 4096)).2 = false →
      exec .sliceStart s = .next (State.sliceBegin { s with bst := { s.bst with slot := some (s.course / 4096) } }
        (entryUnit (s.course % 2 ^ 24 / 4096)).1 (entryUnit (s.course % 2 ^ 24 / 4096)).2 false)) := by
  have hdue : exec .sliceStart s = _ := if_pos ⟨hmode, hruns, hen, by simp [hidle], hslot, hlo, hhi, hnew⟩
  refine ⟨fun hnone => ?_, fun hsome hin => ?_⟩
  · rw [hdue, hnone]
  · rw [hdue, hsome]
    refine (if_neg (Bool.eq_false_iff.1 hin)).trans ?_
    rw [if_pos rfl]

theorem State.sliceGoes_eq {s : State} (hslicing : s.slicing = true) (hruns : s.coreRuns 2 = true) (hgo : s.abortDue = false) :
    s.sliceGoes = true := by
  rw [State.sliceGoes, hslicing, hruns, hgo]
  rfl

/-! ### The signature (R483) -/

/-- R483: one word enters a MISR of zero as itself. -/
theorem misrFold_zero {w : Nat} (h : w < 2 ^ 64) : misrFold 0 w = w := by
  have hone : w.log2 / 64 = 0 := by
    rcases Nat.eq_zero_or_pos w with rfl | hpos
    · rfl
    · exact Nat.div_eq_of_lt ((Nat.log2_lt hpos.ne').2 h)
  have hwords : testWords w = [w] := by simpa [testWords, hone, bits] using h
  rw [misrFold, hwords, List.foldl_cons, List.foldl_nil, misrStep, Nat.mod_eq_of_lt h]
  simp [bit]

/-- R483: the state after CHECK: the signature `g` is in the MISR, BST_SIG and the readback window show it and the golden one. -/
def State.checked (s : State) (g gold : Nat) : State :=
  (((({ s with bst := { s.bst with misr := g } }.put Reg.BST_SIG.sig_lo g).put Reg.BST_SIG.sig_hi (g / 2 ^ 32)).put Reg.BST_SIG.gold_lo gold).put
    Reg.BST_SIG.gold_hi (gold / 2 ^ 32)).noteResult s.sliceUnit.1 s.sliceUnit.2 g gold

theorem State.noteResult_regs (s : State) (cls unit sig gold : Nat) : (s.noteResult cls unit sig gold).regs = s.regs :=
  (State.noteResult_stays cls unit sig gold (Has.refl _) (Stays.refl s)).regs (by decide)

theorem State.checked_ctrs (s : State) (g gold : Nat) : (s.checked g gold).ctrs = s.ctrs := rfl
theorem State.checked_misr (s : State) (g gold : Nat) : (s.checked g gold).bst.misr = g := rfl
theorem State.checked_retested (s : State) (g gold : Nat) : (s.checked g gold).bst.retested = s.bst.retested := rfl

/-- CHECK writes BST_SIG and no other register. -/
theorem State.g_checked (s : State) (g gold : Nat) {f : Fld} (hf : f.lsb + f.w ≤ 32)
    (h : f.off < Reg.BST_SIG.off ∨ Reg.BST_SIG.off + 12 < f.off) : (s.checked g gold).g f = s.g f := by
  rw [State.checked, State.g_of_regs (State.noteResult_regs _ _ _ _ _), State.g_put_other _ _ hf (.inl (by simp only [Reg.BST_SIG.gold_hi]; omega)),
    State.g_put_other _ _ hf (.inl (by simp only [Reg.BST_SIG.gold_lo]; omega)),
    State.g_put_other _ _ hf (.inl (by simp only [Reg.BST_SIG.sig_hi]; omega)),
    State.g_put_other _ _ hf (.inl (by simp only [Reg.BST_SIG.sig_lo]; omega))]
  exact State.g_of_regs rfl f

theorem State.checked_records (s : State) (g gold : Nat) : (s.checked g gold).records = s.records := by
  rw [State.checked, State.records, State.noteResult_regs, ← State.records, State.records_put _ _ (by decide), State.records_put _ _ (by decide),
    State.records_put _ _ (by decide), State.records_put _ _ (by decide)]
  rfl

theorem State.checked_suffices (s : State) (g gold cls unit : Nat) (fails : List (Nat × Nat)) :
    (s.checked g gold).suffices cls unit fails = s.suffices cls unit fails :=
  State.suffices_of (s.checked_records g gold)
    (fun r => s.g_checked g gold (Nat.le_refl 32) (.inr (by simp only [Reg.BST_REPAIR.spare, Reg.BST_REPAIR.off, Reg.BST_SIG.off]; omega)))
    (fun r => s.g_checked g gold (Nat.le_refl 32) (.inr (by simp only [Reg.BST_REPAIR.valid, Reg.BST_REPAIR.off, Reg.BST_SIG.off]; omega))) cls unit fails

/-- R483, R484: what follows CHECK: return, repair and retest, or retirement. -/
theorem execTestComplete_eq {s : State} (x : Nat) (f : List (Nat × Nat)) {g gold : Nat} (hgo : s.sliceGoes = true)
    (hphase : s.g Reg.BST_STATUS.phase = 2) (hg : g = misrFold s.bst.misr x) (hgold : gold = Config.golden s.sliceUnit.1 % 2 ^ 64) :
    exec (.testComplete x f) s =
      if g = gold then .next (((s.checked g gold).sliceEnd false).bump Ctr.BST_SLICE_COUNT)
      else
        let u := (s.checked g gold).bump Ctr.BST_FAIL_COUNT
        if ¬ u.bst.retested ∧ u.g Reg.BST_CFG.repair_en = 1 ∧ u.suffices s.sliceUnit.1 s.sliceUnit.2 f ∧ f ≠ [] then
          .next { u.softRepair s.sliceUnit.1 s.sliceUnit.2 f with bst := { u.bst with retested := true, misr := 0 } }
        else .next (((u.retireUnit s.sliceUnit.1 s.sliceUnit.2).sliceEnd true).bump Ctr.BST_SLICE_COUNT) := by
  subst hg hgold
  exact if_pos ⟨hgo, hphase⟩

/-- R483: a signature that agrees returns the unit. -/
theorem testComplete_agrees {s : State} (x : Nat) (f : List (Nat × Nat)) (hgo : s.sliceGoes = true) (hphase : s.g Reg.BST_STATUS.phase = 2)
    (hsig : misrFold s.bst.misr x = Config.golden s.sliceUnit.1 % 2 ^ 64) :
    ∃ t, exec (.testComplete x f) s = .next t ∧ t.slicing = false ∧ t.g Reg.BST_STATUS.phase = 0 ∧
    t.ctr Ctr.BST_SLICE_COUNT = s.ctr Ctr.BST_SLICE_COUNT + 1 ∧ t.ctr Ctr.BST_FAIL_COUNT = s.ctr Ctr.BST_FAIL_COUNT := by
  have hexec := execTestComplete_eq x f hgo hphase rfl rfl
  generalize misrFold s.bst.misr x = g, Config.golden s.sliceUnit.1 % 2 ^ 64 = gold at hexec hsig
  have hctr (c : Nat) : ((s.checked g gold).sliceEnd false).ctr c = s.ctr c := by
    rw [State.sliceEnd_ctr, State.ctr_of_ctrs (s.checked_ctrs g gold)]
  obtain ⟨hidle, hzero⟩ := (s.checked g gold).sliceEnd_idle false
  refine ⟨_, hexec.trans (if_pos hsig), ?_, ?_, ?_, ?_⟩
  · rw [State.slicing, State.g_of_regs (State.bump_regs _ _), ← State.slicing, hidle]
  · rw [State.g_of_regs (State.bump_regs _ _), hzero]
  · rw [State.ctr_bump_self, hctr]
  · rw [State.ctr_bump_ne _ (by decide), hctr]

/-- R483 to R485: another signature leads to a repair and a retest with the MISR cleared, or retires the unit. -/
theorem testComplete_differs {s : State} (x : Nat) (f : List (Nat × Nat)) (hgo : s.sliceGoes = true) (hphase : s.g Reg.BST_STATUS.phase = 2)
    (hsig : misrFold s.bst.misr x ≠ Config.golden s.sliceUnit.1 % 2 ^ 64) :
    ∃ t u : State, exec (.testComplete x f) s = .next t ∧
    (s.bst.retested = true ∨ s.g Reg.BST_CFG.repair_en = 0 →
      t = ((u.retireUnit s.sliceUnit.1 s.sliceUnit.2).sliceEnd true).bump Ctr.BST_SLICE_COUNT ∧ u.ctr Ctr.BST_FAIL_COUNT = s.ctr Ctr.BST_FAIL_COUNT + 1 ∧
      u.bst.misr = misrFold s.bst.misr x) ∧
    (s.bst.retested = false → s.g Reg.BST_CFG.repair_en = 1 → s.suffices s.sliceUnit.1 s.sliceUnit.2 f = true → f ≠ [] →
      t.bst.retested = true ∧ t.bst.misr = 0 ∧ t.g Reg.BST_STATUS.phase = 2) := by
  have hexec := (execTestComplete_eq x f hgo hphase rfl rfl).trans (if_neg hsig)
  generalize misrFold s.bst.misr x = g, Config.golden s.sliceUnit.1 % 2 ^ 64 = gold at hexec
  extract_lets u at hexec
  have hctr : u.ctr Ctr.BST_FAIL_COUNT = s.ctr Ctr.BST_FAIL_COUNT + 1 := by
    rw [State.ctr_bump_self, State.ctr_of_ctrs (s.checked_ctrs g gold)]
  have hretested : u.bst.retested = s.bst.retested := s.checked_retested g gold
  have hg {h : Fld} (hw : h.lsb + h.w ≤ 32) (hoff : h.off < Reg.BST_SIG.off) : u.g h = s.g h :=
    (State.g_of_regs (State.bump_regs _ _) h).trans (s.g_checked g gold hw (.inl hoff))
  have hsuff : u.suffices s.sliceUnit.1 s.sliceUnit.2 f = s.suffices s.sliceUnit.1 s.sliceUnit.2 f := s.checked_suffices g gold _ _ f
  rw [hretested, hg (h := Reg.BST_CFG.repair_en) (by decide) (by decide), hsuff] at hexec
  by_cases hrepair : ¬ s.bst.retested ∧ s.g Reg.BST_CFG.repair_en = 1 ∧ s.suffices s.sliceUnit.1 s.sliceUnit.2 f ∧ f ≠ []
  · rw [if_pos hrepair] at hexec
    refine ⟨_, u, hexec, fun hno => ?_, fun _ _ _ _ => ⟨rfl, rfl, ?_⟩⟩
    · obtain ⟨hfirst, hon, -⟩ := hrepair
      rcases hno with hre | hoff
      · exact absurd hre hfirst
      · omega
    · refine (State.g_of_regs (s := u.softRepair s.sliceUnit.1 s.sliceUnit.2 f) rfl _).trans ?_
      rw [State.g_softRepair _ _ _ _ (by decide), hg (by decide) (by decide), hphase]
  · rw [if_neg hrepair] at hexec
    exact ⟨_, u, hexec, fun _ => ⟨rfl, hctr, s.checked_misr g gold⟩, fun hre hen hs hf => absurd ⟨by simp [hre], hen, hs, hf⟩ hrepair⟩

/-! ### Readiness, skip and abort (R479, R481) -/

theorem State.clearCounts_regs (s : State) (srcs : List Nat) : (s.clearCounts srcs).regs = s.regs :=
  (State.clearCounts_stays srcs (Has.refl _) (Stays.refl s)).regs (by decide)

/-- What readiness writes after the phase leaves the phase. -/
theorem State.g_phase_test (u : State) (srcs : List Nat) (b : Bst) :
    ({ (u.put Reg.BST_STATUS.phase 2).clearCounts srcs with bst := b } : State).g Reg.BST_STATUS.phase = 2 := by
  refine (State.g_of_regs (s := u.put Reg.BST_STATUS.phase 2) (State.clearCounts_regs _ srcs) _).trans ?_
  exact State.g_put_self u 2 (by decide)

/-- R479, R483: the unit is ready: TEST begins with the MISR cleared. -/
theorem execUnitReady_ready {s : State} (hgo : s.sliceGoes = true) (hphase : s.g Reg.BST_STATUS.phase = 1)
    (hready : s.unitReady s.sliceUnit.1 s.sliceUnit.2 = true) :
    ∃ t, exec .unitReady s = .next t ∧ t.g Reg.BST_STATUS.phase = 2 ∧ t.bst.misr = 0 :=
  ⟨_, if_pos ⟨hgo, hphase, hready⟩, State.g_phase_test _ _ _, rfl⟩

/-- R479: the unit was not ready 1,024 courses after the slot began. -/
theorem execSliceSkip_late {s : State} {c : When} (hbegan : s.bst.began = some c) (hgo : s.sliceGoes = true)
    (hphase : s.g Reg.BST_STATUS.phase = 1) (hlate : 1024 ≤ s.over c) :
    exec .sliceSkip s = .next (((s.sliceRetry.sliceEnd false).bump Ctr.BST_SKIP_COUNT).raise (srcBst 2) 0 0) := by
  have hexec : exec .sliceSkip s = execSliceSkip s := rfl
  rw [hexec, execSliceSkip, hbegan]
  exact if_pos ⟨hgo, hphase, hlate⟩

/-- Where no slice is in progress its commands change nothing. -/
theorem exec_slice_idle {s : State} (h : s.slicing = false) :
    exec .sliceAbort s = .next s ∧ exec .unitReady s = .next s ∧ exec .sliceSkip s = .next s := by
  have hgo : ¬ s.sliceGoes = true := by simp [State.sliceGoes, h]
  have hskip : exec .sliceSkip s = execSliceSkip s := rfl
  refine ⟨if_neg fun k => absurd k.1 (by simp [h]), if_neg fun k => hgo k.1, ?_⟩
  rw [hskip, execSliceSkip]
  split
  · exact if_neg fun k => hgo k.1
  · rfl

/-! ### Commands (R480, R487) -/

theorem State.bstCmd_run {s : State} {req : Requester} {cls unit : Nat} (ok : Bool) (hbusy : s.g Reg.BST_CMD_STATUS.busy ≠ 1) (hreq : req.mgmt = true)
    (hcls : cls < 16) (hunit : unit < 2 ^ 10) : s.bstCmd req (pack [(16, 10, unit), (12, 4, cls), (0, 4, 1)]) ok =
      (s.bstRun cls unit).1.bstResult (pack [(16, 10, unit), (12, 4, cls), (0, 4, 1)]) (s.bstRun cls unit).2 := by
  have hop : bits (pack [(16, 10, unit), (12, 4, cls), (0, 4, 1)]) 0 4 = 1 := by simp [pack, bits, Nat.shiftLeft_eq]; omega
  have hc : bits (pack [(16, 10, unit), (12, 4, cls), (0, 4, 1)]) 12 4 = cls := by
    simp [pack, bits, Nat.shiftLeft_eq, Nat.shiftRight_eq_div_pow]; omega
  have hu : bits (pack [(16, 10, unit), (12, 4, cls), (0, 4, 1)]) 16 10 = unit := by
    simp [pack, bits, Nat.shiftLeft_eq, Nat.shiftRight_eq_div_pow]; omega
  rw [State.bstCmd, if_neg hbusy]
  simp [hreq, hop, hc, hu]

theorem State.bstCmd_fuse {s : State} {req : Requester} {rec : Nat} (ok : Bool) (hbusy : s.g Reg.BST_CMD_STATUS.busy ≠ 1) (hreq : req.mgmt = true)
    (hrec : rec < 2 ^ 10) : s.bstCmd req (pack [(16, 10, rec), (0, 4, 2)]) ok =
      (s.bstFuse rec ok).1.bstResult (pack [(16, 10, rec), (0, 4, 2)]) (s.bstFuse rec ok).2 := by
  have hop : bits (pack [(16, 10, rec), (0, 4, 2)]) 0 4 = 2 := by simp [pack, bits, Nat.shiftLeft_eq]; omega
  have hr : bits (pack [(16, 10, rec), (0, 4, 2)]) 16 10 = rec := by
    simp [pack, bits, Nat.shiftLeft_eq, Nat.shiftRight_eq_div_pow]; omega
  rw [State.bstCmd, if_neg hbusy]
  simp [hreq, hop, hr]

/-- R480: RUN begins the slice of a unit that is in service. -/
theorem State.bstRun_begins {s : State} {cls unit : Nat} (hmode : s.mode = .transit ∨ s.mode = .service ∨ s.mode = .drain)
    (hidle : s.slicing = false) (hunit : unit < unitCount cls) (hin : s.retired cls unit = false) :
    s.bstRun cls unit = (s.sliceBegin cls unit true, 0) := by
  rw [State.bstRun, if_neg (by simp [hmode, hidle]), if_neg (by simp [hin]; omega)]

/-- R487: FUSE in DRAIN of a record in use, as the fuses take it or not. -/
theorem State.bstFuse_eq {s : State} {rec : Nat} (hmode : s.mode = .drain) (hrec : rec < 512) (hvalid : s.g (Reg.BST_REPAIR.valid rec) ≠ 0)
    (hfused : s.g (Reg.BST_REPAIR.fused rec) = 0) :
    (∃ b : Bst, s.bstFuse rec true = (({ s.put (Reg.BST_REPAIR.fused rec) 1 with bst := b } : State).emit (.fuse rec), 0)) ∧
    s.bstFuse rec false = (s.raise (srcBst 5) 0 0, 4) := by
  constructor
  · rw [State.bstFuse, if_neg (not_not.2 hmode), if_neg (by omega), if_neg (by omega), if_pos rfl]
    exact ⟨_, rfl⟩
  · rw [State.bstFuse, if_neg (not_not.2 hmode), if_neg (by omega), if_neg (by omega), if_neg Bool.false_ne_true]

/-- R487: burning a record leaves the register words. -/
theorem State.g_burnt (u : State) (b : Bst) (rec : Nat) (f : Fld) : (({ u with bst := b } : State).emit (.fuse rec)).g f = u.g f :=
  State.g_of_regs (State.emit_regs _ _) f

/-- Settles O54: each command under its condition is the branch of its meaning that the condition selects; the fields that TEST, CHECK and
the end of a slice leave follow from what these write of the register words. -/
theorem selfTestSlices : Obligations.SelfTestSlices := by
  refine ⟨?start, ?ready, ?skip, ?agrees, ?differs, ?misr, ?abort, ?sweep, ?idle, ?commands, ?fuse⟩
  case start =>
    rintro s hmode hruns hen hidle hslot hlo hhi hnew u rfl
    obtain ⟨hnone, hsome⟩ := execSliceStart_eq hmode hruns hen hidle hslot hlo hhi hnew
    refine ⟨hnone, ?_⟩
    rintro e he rfl hin
    exact ⟨hsome he hin, State.sliceBegin_slicing _ _ _ _⟩
  case ready =>
    intro s cls unit hslicing hruns hgo hphase hunit hready
    exact execUnitReady_ready (State.sliceGoes_eq hslicing hruns hgo) hphase (by rw [hunit]; exact hready)
  case skip =>
    exact fun s c hbegan hslicing hruns hgo hphase hlate => execSliceSkip_late hbegan (State.sliceGoes_eq hslicing hruns hgo) hphase hlate
  case agrees =>
    exact fun s x f hslicing hruns hgo hphase hsig => testComplete_agrees x f (State.sliceGoes_eq hslicing hruns hgo) hphase hsig
  case differs =>
    exact fun s x f hslicing hruns hgo hphase hsig => testComplete_differs x f (State.sliceGoes_eq hslicing hruns hgo) hphase hsig
  case misr => exact fun m w => ⟨rfl, misrFold_zero⟩
  case abort =>
    intro s hslicing hphase hleft
    have hdue : s.abortDue = true := by
      rcases hleft with hmode | ⟨hen, hoff⟩
      · simp [State.abortDue, hmode]
      · simp [State.abortDue, hen, hoff]
    exact ⟨if_pos ⟨hslicing, hphase, hdue⟩, rfl⟩
  case sweep =>
    refine fun s => ⟨_, rfl, ?_, rfl, rfl⟩
    unfold State.sweepStart
    dsimp only
  case idle => exact fun s h => exec_slice_idle h
  case commands =>
    intro s req cls unit rec ok hfenced hoff hcls hunit hrec hbusy hreq
    have hmode : ¬ (s.mode = .fenced ∨ s.mode = .off) := not_or.2 ⟨hfenced, hoff⟩
    refine ⟨(if_neg hmode).trans ?_, (if_neg hmode).trans ?_, State.bstRun_begins⟩
    · rw [State.bstCmd_run true hbusy hreq hcls hunit]
    · rw [State.bstCmd_fuse ok hbusy hreq hrec]
  case fuse =>
    intro s rec hmode hrec hvalid hfused
    obtain ⟨⟨b, hburnt⟩, hfails⟩ := State.bstFuse_eq hmode hrec hvalid hfused
    refine ⟨congrArg Prod.snd hburnt, ?_, hfails⟩
    rw [hburnt, State.g_burnt, State.g_put_self s (f := Reg.BST_REPAIR.fused rec) 1 (Nat.le_of_ble_eq_true rfl)]
    rfl

end Sys2Proof.Machine
end

section
/-! A lane's training (R86, R93 to R98, R100, R105): the equation of each command where its condition holds, what sending frames changes of a
lane, and what a new attempt begins with. -/
namespace Sys2Proof.Machine

/-! ### Frames sent -/

/-- R93: sending frames moves a lane's pattern generator and nothing else of the lane. -/
theorem State.ln_sendFrames_self (s : State) (n : Nat) : ∃ g, (s.sendFrames n).ln n = { s.ln n with genReg := g } := by
  unfold State.sendFrames
  extract_lets l w f
  split
  · exact ⟨l.genReg, rfl⟩
  · exact ⟨f.2, State.ln_setLn_self _ _ _⟩

/-- What a command leaves that sets a lane and sends frames with it. -/
theorem exec_setLn_sendFrames {c : Instr} {s : State} {n : Nat} {x : Lane} (h : exec c s = .next ((s.setLn n x).sendFrames n)) :
    ∃ t g, exec c s = .next t ∧ t.ln n = { x with genReg := g } ∧ Stays [.phy, .out] s t := by
  have hw : Has [.phy, .out] [.phy, .out] := Has.refl _
  obtain ⟨g, hg⟩ := (s.setLn n x).ln_sendFrames_self n
  rw [State.ln_setLn_self] at hg
  exact ⟨_, g, h, hg, State.sendFrames_stays n hw (State.setLn_stays n x (hw.sub (by decide)) (Stays.refl s))⟩

/-! ### Frame lock (R93, R94) -/

theorem exec_trainingFrameRx_badCrc {s : State} {n r a : Nat} (h : ¬ (bits r 0 8 = fieldCrc r ∧ bits a 0 8 = fieldCrc a)) :
    exec (.trainingFrameRx n r a) s = .next s := if_neg fun k => h k.2

section
variable {s : State} {n : Nat} (hn : n < 128)
include hn

theorem exec_frameLock (hst : (s.ln n).st = .frame) (hrun : 3 ≤ (s.ln n).frameRun) :
    exec (.frameLock n) s = .next (s.setLn n { s.ln n with frameLock := true, st := .taps }) := if_pos ⟨hn, hst, hrun⟩

theorem exec_frameLockLost (hst : (s.ln n).st = .taps ∨ (s.ln n).st = .frame) (hlock : (s.ln n).frameLock = true)
    (hlate : (s.ln n).frameSeen + 193 ≤ s.cycles) :
    exec (.frameLockLost n) s = .next (s.setLn n { s.ln n with frameLock := false, frameRun := 0, frameMiss := 4 }) :=
  if_pos ⟨hn, hst, hlock, hlate⟩

theorem exec_trainingFrameRx {r a : Nat} (hr : bits r 0 8 = fieldCrc r) (ha : bits a 0 8 = fieldCrc a) :
    exec (.trainingFrameRx n r a) s = .next (s.trainFrame n r a) := if_pos ⟨hn, hr, ha⟩

/-! ### Tap requests (R96) -/

/-- A request after all-hold is acted on. -/
theorem exec_tapResponse_acts (hst : (s.ln n).st = .taps) (hacted : (s.ln n).actedReq = 0) (hreq : allHold (s.ln n).farReq = false) :
    exec (.tapResponse n) s = .next ((s.setLn n { s.ln n with
      actedReq := (s.ln n).farReq, taps := (respond (s.ln n).taps (s.ln n).farReq).1,
      tapStatus := (respond (s.ln n).taps (s.ln n).farReq).2 }).sendFrames n) := by
  show execTapResponse n s = _
  simp only [execTapResponse]
  rw [if_pos ⟨hn, hst⟩, if_neg (by simp [hreq]), if_pos hacted]

/-- The status is held while the request stands. -/
theorem exec_tapResponse_holds (hst : (s.ln n).st = .taps) (hacted : (s.ln n).actedReq ≠ 0) (hreq : allHold (s.ln n).farReq = false) :
    exec (.tapResponse n) s = .next s := by
  show execTapResponse n s = _
  simp only [execTapResponse]
  rw [if_pos ⟨hn, hst⟩, if_neg (by simp [hreq]), if_neg hacted]

/-- The next all-hold ends it. -/
theorem exec_tapResponse_clears (hst : (s.ln n).st = .taps) (hacted : (s.ln n).actedReq ≠ 0) (hreq : allHold (s.ln n).farReq = true) :
    exec (.tapResponse n) s = .next ((s.setLn n { s.ln n with actedReq := 0, tapStatus := 0 }).sendFrames n) := by
  show execTapResponse n s = _
  simp only [execTapResponse]
  rw [if_pos ⟨hn, hst⟩, if_pos hreq, if_neg hacted]

/-! ### Ready, and data (R97) -/

theorem exec_rxReady_met {snr k : Nat} (hst : (s.ln n).st = .taps) (hsnr : s.g Reg.LAN_TRAIN_CFG.snr_min ≤ snr) (hk : 64 ≤ k) :
    exec (.rxReady n snr k) s = .next ((s.setLn n { s.ln n with
      snr := min snr 1023, rxReady := true, snrRun := k,
      ownReq := if (s.ln n).farTapStatus = 0 then 0 else (s.ln n).ownReq }).sendFrames n) := by
  show execRxReady n snr k s = _
  simp only [execRxReady]
  rw [if_pos ⟨hn, hst⟩, if_pos ⟨hsnr, hk⟩]

theorem exec_rxReady_unmet {snr k : Nat} (hst : (s.ln n).st = .taps) (h : snr < s.g Reg.LAN_TRAIN_CFG.snr_min ∨ k < 64) :
    exec (.rxReady n snr k) s = .next (s.setLn n { s.ln n with snr := min snr 1023 }) := by
  show execRxReady n snr k s = _
  simp only [execRxReady]
  rw [if_pos ⟨hn, hst⟩, if_neg (by omega)]

theorem exec_dataStart {u : State} (hst : (s.ln n).st = .taps) (hdata : (s.ln n).txData = false) (hready : (s.ln n).rxReady = true)
    (hsent : 16 ≤ (s.ln n).readySent) (hrcvd : 16 ≤ (s.ln n).readyRcvd) (hbound : s.commonBoundary n = true)
    (hu : u = (s.setLn n { s.ln n with txData := true }).sendMarker n false) :
    exec (.dataStart n) s = .next (if (u.ln n).toData.st = .data then (u.setLn n (u.ln n).toData).applyMasks (n / 2) else u) := by
  subst hu
  exact if_pos ⟨hn, hst, by simp [hdata], hready, hsent, hrcvd, hbound⟩

/-! ### The end of an attempt (R96, R98, R100, R105) -/

theorem exec_tapResponseTimeout (hst : (s.ln n).st = .taps) (hown : (s.ln n).ownReq ≠ 0) (hfar : (s.ln n).farTapStatus = 0)
    (hlate : (s.ln n).reqFrom + 49345 ≤ s.cycles) : exec (.tapResponseTimeout n) s = .next (s.failAttempt n) :=
  if_pos ⟨hn, hst, hown, hfar, hlate⟩

theorem exec_trainAttemptTimeout (hst : (s.ln n).st = .frame ∨ (s.ln n).st = .taps)
    (hlate : s.g Reg.LAN_TRAIN_CFG.limit * 16 ≤ s.over (s.ln n).frameAt) :
    exec (.trainAttemptTimeout n) s = .next (s.failAttempt n) := if_pos ⟨hn, hst, hlate⟩

theorem exec_signalAbsentTimeout (hst : (s.ln n).st = .frame ∨ (s.ln n).st = .taps) :
    exec (.signalAbsentTimeout n) s = .next ((s.setLn n { s.ln n with sig := false }).failAttempt n) := if_pos ⟨hn, hst⟩

theorem exec_signalReturn_failed (hst : (s.ln n).st = .failed) :
    exec (.signalReturn n) s = .next ((s.setLn n { s.ln n with sig := true }).beginAttempt n 1) := if_pos ⟨hn, hst⟩

theorem exec_signalReturn_other (hst : (s.ln n).st ≠ .failed) :
    exec (.signalReturn n) s = .next (s.setLn n { s.ln n with sig := true }) := by
  show execSignalReturn n s = _
  simp only [execSignalReturn]
  rw [if_neg fun k => hst k.2, if_pos hn]

theorem exec_laneRestart (hst : (s.ln n).st = .failed) (hf : s.mode ≠ .fenced) :
    exec (.laneRestart n) s = .next (s.beginAttempt n 1) := if_pos ⟨hn, hst, hf⟩

theorem exec_sleepWake {b : Bool} (hst : (s.ln n).st = .sleep)
    (hwake : b = true ∨ bit (s.g (Reg.LAN_PT_CTRL.sleep_mask (n / 2))) (laneIdx n) = false ∨
      (s.ln (laneOf (n / 2) (1 - laneIdx n))).st ≠ .data) :
    exec (.sleepWake n b) s = .next ((s.setLn n { s.ln n with sig := b }).beginAttempt n 1) :=
  if_pos ⟨hn, hst, by simpa using hwake⟩

end

/-! ### A PLL's lock (R86) -/

theorem exec_pllLossOfLock {s : State} {k : Nat} (hk : k < 16) (hreal : (s.src (srcPll k)).real = false) :
    exec (.pllLossOfLock k) s = .next (s.pllLoss k) := if_pos ⟨hk, by simp [hreal]⟩

theorem exec_pllRelock {s : State} {k : Nat} (hk : k < 16) (hreal : (s.src (srcPll k)).real = true) :
    exec (.pllRelock k) s = .next (s.level (srcPll k) false k).pllFree := if_pos ⟨hk, hreal⟩

/-! ### Attempts -/

/-- R97: a lane in TAPS goes to DATA when data goes out and both locks hold. -/
theorem Lane.toData_st {l : Lane} (h : l.st = .taps) :
    l.toData.st = .data ↔ l.txData = true ∧ l.fecLock = true ∧ l.markerLock = true := by
  unfold Lane.toData
  split
  · next hgo => exact ⟨fun _ => hgo.2, fun _ => rfl⟩
  · next hno => exact ⟨fun hd => by simp [h] at hd, fun k => absurd ⟨h, k⟩ hno⟩

/-- R95, R98: a lane whose attempt begins keeps what `Lane.fresh` keeps, and its SNR. -/
theorem State.ln_beginAttempt_self (s : State) (n k : Nat) : ∃ g, (s.beginAttempt n k).ln n =
    { (s.ln n).fresh .frame with attempts := k, frameAt := s.nowAt, snr := (s.ln n).snr, genReg := g } := by
  obtain ⟨g, hg⟩ := State.ln_sendFrames_self
    ((s.setLn n { (s.ln n).fresh .frame with attempts := k, frameAt := s.nowAt, snr := (s.ln n).snr }).bump (Ctr.LAN_TRAIN_COUNT n)) n
  refine ⟨g, hg.trans ?_⟩
  show { (s.setLn n _).ln n with genReg := g } = _
  rw [State.ln_setLn_self]

/-- R111: each attempt is counted as it begins. -/
theorem State.ctr_beginAttempt (s : State) (n k : Nat) :
    (s.beginAttempt n k).ctr (Ctr.LAN_TRAIN_COUNT n) = s.ctr (Ctr.LAN_TRAIN_COUNT n) + 1 := by
  unfold State.beginAttempt
  rw [State.ctr_of_ctrs ((State.sendFrames_stays n (Has.refl _) (Stays.refl _)).ctrs (by decide)), State.ctr_bump_self]
  rfl

/-- What a new attempt begins with. -/
theorem State.beginAttempt_begins (s : State) (n k : Nat) : ((s.beginAttempt n k).ln n).st = .frame ∧
    ((s.beginAttempt n k).ln n).attempts = k ∧ ((s.beginAttempt n k).ln n).frameAt = s.nowAt ∧
    ((s.beginAttempt n k).ln n).txData = false ∧
    (s.beginAttempt n k).ctr (Ctr.LAN_TRAIN_COUNT n) = s.ctr (Ctr.LAN_TRAIN_COUNT n) + 1 := by
  obtain ⟨g, hg⟩ := s.ln_beginAttempt_self n k
  rw [hg]
  exact ⟨rfl, rfl, rfl, rfl, s.ctr_beginAttempt n k⟩

/-- R100: it keeps whether there is a signal. -/
theorem State.beginAttempt_sig (s : State) (n k : Nat) (x : Lane) : (((s.setLn n x).beginAttempt n k).ln n).sig = x.sig := by
  obtain ⟨g, hg⟩ := (s.setLn n x).ln_beginAttempt_self n k
  rw [hg, State.ln_setLn_self]
  rfl

/-- R98: while retries are left, a failed attempt is followed by the next. -/
theorem State.failAttempt_again {s : State} {n : Nat} (h : (s.ln n).attempts ≤ s.g Reg.LAN_TRAIN_CFG.retries) :
    s.failAttempt n = s.beginAttempt n ((s.ln n).attempts + 1) := if_pos h

/-- R98: the last one leaves the lane FAILED, and tx_fail is sent. -/
theorem State.failAttempt_last {s : State} {n : Nat} (h : s.g Reg.LAN_TRAIN_CFG.retries < (s.ln n).attempts) :
    ((s.failAttempt n).ln n).st = .failed ∧ ((s.failAttempt n).ln n).txFail = true := by
  obtain ⟨g, hg⟩ := State.ln_sendFrames_self (s.setLn n { (s.ln n).fresh .failed with
    attempts := (s.ln n).attempts, snr := (s.ln n).snr, txFail := true, taps := (s.ln n).taps }) n
  unfold State.failAttempt
  rw [if_neg (Nat.not_le.2 h), State.ln, (State.raise_stays _ _ _ _ _ (Has.refl _) (Stays.refl _)).phy (by decide), ← State.ln, hg,
    State.ln_setLn_self]
  exact ⟨rfl, rfl⟩

/-- Settles O25: each command by its equation; those that send frames change the lane by its pattern generator besides. -/
theorem laneTraining : Obligations.LaneTraining := fun _ _ hn =>
  ⟨exec_frameLock hn, exec_frameLockLost hn,
    fun hst hacted hreq => exec_setLn_sendFrames (exec_tapResponse_acts hn hst hacted hreq),
    exec_tapResponse_holds hn,
    fun hst hacted hreq => exec_setLn_sendFrames (exec_tapResponse_clears hn hst hacted hreq),
    fun _ _ hst hsnr hk => exec_setLn_sendFrames (exec_rxReady_met hn hst hsnr hk),
    fun _ _ => exec_rxReady_unmet hn,
    fun hst hdata hready hsent hrcvd hbound => ⟨_, rfl, exec_dataStart hn hst hdata hready hsent hrcvd hbound rfl⟩,
    fun _ => Lane.toData_st, fun _ _ => exec_trainingFrameRx hn, fun _ _ => exec_trainingFrameRx_badCrc⟩

/-- Settles O27: each command by its equation, and what an attempt begins with. -/
theorem laneRestarts : Obligations.LaneRestarts := by
  intro s n hn begins
  refine ⟨exec_tapResponseTimeout hn, exec_trainAttemptTimeout hn, exec_signalAbsentTimeout hn, fun hleft => ?again,
    State.failAttempt_last, fun hst => ?returns, exec_signalReturn_other hn,
    fun hst hf => ⟨_, exec_laneRestart hn hst hf, s.beginAttempt_begins n 1⟩, fun b hst hwake => ?wakes,
    fun _ => exec_pllLossOfLock, fun _ => exec_pllRelock⟩
  case again => exact State.failAttempt_again hleft ▸ s.beginAttempt_begins n _
  case returns => exact ⟨_, exec_signalReturn_failed hn hst, State.beginAttempt_begins _ n 1, State.beginAttempt_sig _ _ _ _⟩
  case wakes => exact ⟨_, exec_sleepWake hn hst hwake, State.beginAttempt_begins _ n 1, State.beginAttempt_sig _ _ _ _⟩

end Sys2Proof.Machine
end

section
/-! A lane that decodes and sends codewords (R81, R83, R89, R90, R97, R111): what a codeword counts and leaves of its lane, the markers, and the
loss of lock. -/
namespace Sys2Proof.Machine

/-! ### Counters and ports -/

theorem State.ctr_bumpBy_self (s : State) (c k : Nat) : (s.bumpBy c k).ctr c = s.ctr c + BitVec.ofNat 64 k := by
  simp [State.ctr, State.bumpBy]

theorem State.ctr_bumpBy_ne (s : State) {c d : Nat} (k : Nat) (h : d ≠ c) : (s.bumpBy c k).ctr d = s.ctr d := by
  simp only [State.ctr, State.bumpBy, Tbl.get_put_ne (fun _ => (0 : Counter)) s.ctrs _ h.symm]

theorem State.ctr_bumpIf_ne (s : State) {c d : Nat} (b : Bool) (h : d ≠ c) : (s.bumpIf b c).ctr d = s.ctr d := by
  cases b
  · rfl
  · exact s.ctr_bump_ne h

theorem State.pp_setPp_self (s : State) (p : Nat) (x : PortPhy) : (s.setPp p x).pp p = x := by
  simp [State.pp, State.setPp]

/-! ### The merge of a port's lanes -/

/-- Bricks that leave the merge change the outputs alone. -/
theorem State.emitAll_stays {w : List Sys2Proof.Part} {z s : State} (p : Nat) (ds : List Data) (hw : Has [.out] w) (h : Stays w z s) :
    Stays w z (ds.foldl (fun t d => t.emit (.rxBrick p d)) s) := Stays.foldl h fun _ _ k => State.emit_stays _ hw k

theorem State.ln_emitAll (s : State) (p n : Nat) (ds : List Data) : (ds.foldl (fun t d => t.emit (.rxBrick p d)) s).ln n = s.ln n := by
  rw [State.ln, (State.emitAll_stays p ds (Has.refl _) (Stays.refl s)).phy (by decide), State.ln]

/-- Two lanes differ in the bricks they hold at most. -/
def Lane.sameButBricks (x y : Lane) : Prop := ∃ items, y = { x with rxItems := items }

theorem State.sameButBricks_setLn {x : Lane} {t : State} {n : Nat} (a : Nat) (items : List RxItem) (h : x.sameButBricks (t.ln n)) :
    x.sameButBricks ((t.setLn a { t.ln a with rxItems := items }).ln n) := by
  obtain ⟨old, hold⟩ := h
  by_cases ha : n = a
  · subst ha
    exact ⟨items, by rw [State.ln_setLn_self, hold]⟩
  · exact ⟨old, by rw [State.ln_setLn_ne _ _ ha, hold]⟩

/-- R83, R92: a merge takes bricks from the lanes and changes nothing else of them. -/
theorem State.ln_mergeLanes (s : State) (p n : Nat) : (s.ln n).sameButBricks ((s.mergeLanes p).ln n) := by
  unfold State.mergeLanes
  extract_lets a b ok ia ib q r keep la s1 lb s2
  have h1 : (s.ln n).sameButBricks (s1.ln n) := State.sameButBricks_setLn (t := s.setPp p _) a _ ⟨_, rfl⟩
  have h2 : (s.ln n).sameButBricks (s2.ln n) := by
    show (s.ln n).sameButBricks ((if _ then _ else _ : State).ln n)
    split
    · exact h1
    · exact State.sameButBricks_setLn b _ h1
  rw [State.ln_emitAll]
  exact h2

theorem State.mergeLanes_writes (s : State) (p : Nat) : Stays [.phy, .out] s (s.mergeLanes p) := by
  have hphy : Has [.phy] [.phy, .out] := ⟨by decide⟩
  unfold State.mergeLanes
  extract_lets a b ok ia ib q r keep la s1 lb s2
  have h1 : Stays [.phy, .out] s s1 := State.setLn_stays _ _ hphy (State.setPp_stays _ _ hphy (Stays.refl s))
  have h2 : Stays [.phy, .out] s s2 := Stays.ite (fun _ => h1) (fun _ => State.setLn_stays _ _ hphy h1)
  exact State.emitAll_stays p r.out ⟨by decide⟩ h2

/-! ### A codeword -/

/-- R111: what a codeword with `k` symbols corrected counts. -/
def State.countCorrected (s : State) (n k : Nat) : State :=
  ((s.bumpIf (k > 0) (Ctr.LAN_FEC_CORR_CW_COUNT n)).bumpBy (Ctr.LAN_FEC_CORR_SYM_COUNT n) k).bumpIf (k > 0) (Ctr.LAN_FEC_HIST_COUNT n k)

theorem State.countCorrected_stays (s : State) (n k : Nat) : Stays [.ctrs] s (s.countCorrected n k) :=
  State.bumpIf_stays _ _ (Has.refl _) (State.bumpBy_stays _ _ (Has.refl _) (State.bumpIf_stays _ _ (Has.refl _) (Stays.refl s)))

/-- The places of a lane's counters of codewords are apart. -/
theorem fecCounters_apart (n k : Nat) : Ctr.LAN_FEC_CORR_SYM_COUNT n ≠ Ctr.LAN_FEC_CORR_CW_COUNT n ∧
    Ctr.LAN_FEC_CORR_SYM_COUNT n ≠ Ctr.LAN_FEC_CW_COUNT n ∧ Ctr.LAN_FEC_HIST_COUNT n k ≠ Ctr.LAN_FEC_CORR_CW_COUNT n ∧
    Ctr.LAN_FEC_HIST_COUNT n k ≠ Ctr.LAN_FEC_CORR_SYM_COUNT n ∧ Ctr.LAN_FEC_HIST_COUNT n k ≠ Ctr.LAN_FEC_CW_COUNT n := by
  unfold Ctr.LAN_FEC_CORR_SYM_COUNT Ctr.LAN_FEC_CORR_CW_COUNT Ctr.LAN_FEC_HIST_COUNT Ctr.LAN_FEC_CW_COUNT
  omega

theorem State.ctr_countCorrected_symbols (s : State) (n k : Nat) : (s.countCorrected n k).ctr (Ctr.LAN_FEC_CORR_SYM_COUNT n) =
    s.ctr (Ctr.LAN_FEC_CORR_SYM_COUNT n) + BitVec.ofNat 64 k := by
  obtain ⟨hcw, -, -, hhist, -⟩ := fecCounters_apart n k
  rw [State.countCorrected, State.ctr_bumpIf_ne _ _ hhist.symm, State.ctr_bumpBy_self, State.ctr_bumpIf_ne _ _ hcw]

theorem State.ctr_countCorrected_hist (s : State) {n k : Nat} (hk : 1 ≤ k) : (s.countCorrected n k).ctr (Ctr.LAN_FEC_HIST_COUNT n k) =
    s.ctr (Ctr.LAN_FEC_HIST_COUNT n k) + 1 := by
  obtain ⟨-, -, hcw, hsym, -⟩ := fecCounters_apart n k
  have hpos : decide (k > 0) = true := decide_eq_true hk
  rw [State.countCorrected, hpos, State.bumpIf, if_pos rfl, State.ctr_bump_self, State.ctr_bumpBy_ne _ _ hsym,
    State.ctr_bumpIf_ne _ _ hcw]

/-- R81, R90: a codeword that was corrected ends the run of uncorrectable ones and gives FEC lock. -/
theorem State.decoded_some (s : State) (n : Nat) (c : List Nat) (k : Nat) (m : List Nat) : ∃ x d, x.uncorrRun = 0 ∧ x.fecLock = true ∧
    s.decoded n c (some (k, m)) = (((s.countCorrected n k).setLn n x).emit (.laneBytes n d)).mergeLanes (n / 2) :=
  ⟨_, _, rfl, rfl, rfl⟩

/-- R81, R90, R111: one that was not lengthens the run, and its source is raised. -/
theorem State.decoded_none (s : State) (n : Nat) (c : List Nat) : ∃ x, x.uncorrRun = (s.ln n).uncorrRun + 1 ∧
    s.decoded n c none = ((s.setLn n x).bump (Ctr.LAN_FEC_UNCORR_COUNT n)).raise (srcLan n 0) 0 n := ⟨_, rfl, rfl⟩

/-- R81, R111: a codeword that can be corrected. -/
theorem State.codeword_corrected {s : State} {n v k : Nat} {m : List Nat} (h : rsDecode (s.rxSymbols n v) = some (k, m)) :
    ((s.codeword n v).ln n).uncorrRun = 0 ∧ ((s.codeword n v).ln n).fecLock = true ∧
    (s.codeword n v).ctr (Ctr.LAN_FEC_CORR_SYM_COUNT n) = s.ctr (Ctr.LAN_FEC_CORR_SYM_COUNT n) + BitVec.ofNat 64 k ∧
    (1 ≤ k → (s.codeword n v).ctr (Ctr.LAN_FEC_HIST_COUNT n k) = s.ctr (Ctr.LAN_FEC_HIST_COUNT n k) + 1) ∧
    Stays [.phy, .ctrs, .out] s (s.codeword n v) := by
  obtain ⟨x, d, hrun, hlock, heq⟩ := (s.bump (Ctr.LAN_FEC_CW_COUNT n)).decoded_some n (s.rxSymbols n v) k m
  obtain ⟨-, hsym, -, -, hhist⟩ := fecCounters_apart n k
  rw [State.codeword, h, heq]
  generalize hu : (((s.bump (Ctr.LAN_FEC_CW_COUNT n)).countCorrected n k).setLn n x).emit (.laneBytes n d) = u
  have hln : u.ln n = x := hu ▸ State.ln_setLn_self _ n x
  have hctr (c : Nat) : (u.mergeLanes (n / 2)).ctr c = ((s.bump (Ctr.LAN_FEC_CW_COUNT n)).countCorrected n k).ctr c :=
    State.ctr_of_ctrs (((u.mergeLanes_writes (n / 2)).ctrs (by decide)).trans (hu ▸ rfl)) c
  have hwrites : Stays [.phy, .ctrs, .out] s u :=
    hu ▸ State.emit_stays _ ⟨by decide⟩ (State.setLn_stays _ _ ⟨by decide⟩
      ((State.bump_stays _ ⟨by decide⟩ (Stays.refl s)).trans ((State.countCorrected_stays _ n k).mono (by decide))))
  obtain ⟨l, hl⟩ := u.ln_mergeLanes (n / 2) n
  rw [hl, hln, hctr, hctr, State.ctr_countCorrected_symbols, State.ctr_bump_ne _ hsym]
  refine ⟨hrun, hlock, rfl, fun hk => ?_, hwrites.trans ((u.mergeLanes_writes _).mono (by decide))⟩
  rw [State.ctr_countCorrected_hist _ hk, State.ctr_bump_ne _ hhist]

/-- R81, R90, R111: one that cannot. -/
theorem State.codeword_uncorrectable {s : State} {n v : Nat} (h : rsDecode (s.rxSymbols n v) = none) :
    ((s.codeword n v).ln n).uncorrRun = (s.ln n).uncorrRun + 1 ∧ Stays (Sys2Proof.event ++ [.phy]) s (s.codeword n v) := by
  obtain ⟨x, hrun, heq⟩ := (s.bump (Ctr.LAN_FEC_CW_COUNT n)).decoded_none n (s.rxSymbols n v)
  rw [State.codeword, h, heq]
  constructor
  · rw [State.ln, (State.raise_stays _ _ _ _ _ (Has.refl _) (Stays.refl _)).phy (by decide)]
    show (State.ln (State.setLn _ n x) n).uncorrRun = _
    rw [State.ln_setLn_self, hrun]
    rfl
  · exact State.raise_stays _ _ _ _ _ ⟨by decide⟩ (State.bump_stays _ ⟨by decide⟩ (State.setLn_stays _ _ ⟨by decide⟩
      (State.bump_stays _ ⟨by decide⟩ (Stays.refl s))))

section
variable {s : State} {n : Nat} (hn : n < 128)
include hn

theorem exec_codewordRx {a b v : Nat} (hdec : (s.ln n).decodes = true) (hv : v = a + b <<< 5140) :
    exec (.codewordRx n a b) s = .next (s.codeword n v) := by
  show execCodewordRx n a b s = _
  rw [execCodewordRx, if_pos ⟨hn, hdec⟩, hv]

/-! ### Markers (R83, R89) -/

theorem exec_markerTx (hs : (s.ln n).sends = true) (hdue : (s.ln n).markerFrom + 16384 * 32 ≤ s.cycles) :
    exec (.markerTx n) s = .next ((s.periodEnd (n / 2)).sendMarkers (n / 2)) := if_pos ⟨hn, hs, decide_eq_true hdue⟩

theorem exec_markerRx (hdec : (s.ln n).decodes = true) (m : Marker) : exec (.markerRx n m) s = .next (s.markerRx n m) :=
  if_pos ⟨hn, hdec⟩

/-! ### Loss of lock (R90) -/

theorem exec_fecLockLost_data (hst : (s.ln n).st = .data) (hrun : 8 ≤ (s.ln n).uncorrRun) :
    exec (.fecLockLost n) s = .next (s.lockLost n) := by
  show execFecLockLost n s = _
  rw [execFecLockLost, if_pos ⟨hn, hrun⟩, if_pos hst]

theorem exec_fecLockLost_taps (hst : (s.ln n).st = .taps) (hrun : 8 ≤ (s.ln n).uncorrRun) :
    exec (.fecLockLost n) s = .next (s.setLn n { s.ln n with fecLock := false }) := by
  show execFecLockLost n s = _
  rw [execFecLockLost, if_pos ⟨hn, hrun⟩, if_neg (by simp [hst]), if_pos hst]

theorem exec_markerLockLost_data (hst : (s.ln n).st = .data) (hlock : (s.ln n).markerLock = true) (hmiss : 2 ≤ (s.ln n).markerMiss) :
    exec (.markerLockLost n) s = .next (s.lockLost n) := by
  show execMarkerLockLost n s = _
  rw [execMarkerLockLost, if_pos ⟨hn, hlock, hmiss⟩, if_pos hst]

theorem exec_markerLockLost_taps (hst : (s.ln n).st = .taps) (hlock : (s.ln n).markerLock = true) (hmiss : 2 ≤ (s.ln n).markerMiss) :
    exec (.markerLockLost n) s = .next (s.setLn n { s.ln n with markerLock := false, markerMiss := 0, rxItems := [] }) := by
  show execMarkerLockLost n s = _
  rw [execMarkerLockLost, if_pos ⟨hn, hlock, hmiss⟩, if_neg (by simp [hst]), if_pos hst]

end

/-- R83: after a port's markers striping is at index 0. -/
theorem State.sendMarkers_stripe (s : State) (p : Nat) : ((s.sendMarkers p).pp p).stripe = 0 := by
  unfold State.sendMarkers
  rw [State.pp_setPp_self]

theorem Lane.decodes_iff (l : Lane) : l.decodes = true ↔ l.st = .data ∨ (l.st = .taps ∧ l.rxReady = true) := by simp [Lane.decodes]

theorem Lane.sends_iff (l : Lane) : l.sends = true ↔ l.st = .data ∨ (l.st = .taps ∧ l.txData = true) := by simp [Lane.sends]

/-- R90: a lane that loses lock in DATA begins again in FRAME. -/
theorem State.ln_lockLost (s : State) (n : Nat) : ((s.lockLost n).ln n).st = .frame := by
  rw [State.lockLost, State.ln_beginAttempt, if_pos rfl]

/-- Settles O26: each command by its equation; a codeword by what its decoding leaves of the lane and counts. -/
theorem laneData : Obligations.LaneData := by
  intro s n hn
  refine ⟨fun hdec a b v hv => ⟨exec_codewordRx hn hdec hv, fun k m h => ?corrected, fun h => ?uncorrectable⟩,
    fun hs hdue => ⟨exec_markerTx hn hs hdue, State.sendMarkers_stripe _ _⟩, exec_markerRx hn, exec_fecLockLost_data hn,
    exec_fecLockLost_taps hn, exec_markerLockLost_data hn, exec_markerLockLost_taps hn, Lane.decodes_iff, Lane.sends_iff, ⟨_, rfl, rfl⟩,
    s.ln_lockLost n⟩
  case corrected => exact ⟨_, exec_codewordRx hn hdec hv, State.codeword_corrected h⟩
  case uncorrectable => exact ⟨_, exec_codewordRx hn hdec hv, State.codeword_uncorrectable h⟩

end Sys2Proof.Machine
end

section
/-! The stripe index of a port (R83): the state's record gives it a number, and of one past the two lanes of the port the model makes a lane of
another port. -/
namespace Sys2Proof.Machine

/-- Port 0 with both lanes in its mask and its turn at index 2, which a port does not have: the bricks that fill its marker period go to lane
2, the first of port 1. Lane 0 has its marker due, and lane 2 has room for one brick. -/
def strayStripe : State :=
  { State.reset with
    phy := { State.reset.phy with
      beats := 16384 * 32,
      lanes := [(0, { Lane.reset with st := .data }), (2, { Lane.reset with st := .data, txBlocks := List.replicate 17 0 })],
      ports := [(0, { PortPhy.reset with txMask := 3, stripe := 2 })] },
    lnk := [(0, { Lnk.reset with st := .up })] }

/-- Two data blocks take 64 of the 72 bytes of the brick; lane 2 keeps the rest. -/
theorem strayStripe_lane2 : (((strayStripe.periodEnd 0).sendMarkers 0).ln 2).txPart.len = 8 := by decide +kernel

/-- Refutes O59: the statement is about every state, and in one whose stripe index names no lane of port 0, MARKER_TX of lane 0 lays a CONTROL
brick on lane 2 of port 1. -/
theorem not_laneCommandsStayInTheirPort : ¬ Obligations.LaneCommandsStayInTheirPort := by
  intro h
  obtain ⟨hlanes, -⟩ := h 0 (.markerTx 0) strayStripe _ (.inl (by simp)) (exec_markerTx (by decide) (by decide) (by decide))
  have hlen : (((strayStripe.periodEnd 0).sendMarkers 0).ln 2).txPart.len = (strayStripe.ln 2).txPart.len :=
    congrArg (fun l : Lane => l.txPart.len) (hlanes 2 (by decide))
  rw [strayStripe_lane2] at hlen
  exact absurd hlen (by decide)

end Sys2Proof.Machine
end

section
/-! Link engines and the counters of links, one operation at a time: which operations leave every link engine as it was, and which leave every
counter of a link as it was. -/
namespace Sys2Proof.Machine

/-! ### The link engine of a port -/

theorem State.lk_of_stays {w : List Sys2Proof.Part} {s t : State} (h : Stays w s t) (hw : ¬ Sys2Proof.Part.lnk ∈ w) (p : Nat) : t.lk p = s.lk p := by
  rw [State.lk, State.lk, h.lnk hw]

@[simp] theorem State.lk_onLk_self (s : State) (p : Nat) (f : Lnk → Lnk) : (s.onLk p f).lk p = f (s.lk p) := s.lk_setLk_self p _

theorem State.lk_onLk_ne (s : State) {p q : Nat} (f : Lnk → Lnk) (h : q ≠ p) : (s.onLk p f).lk q = s.lk q := s.lk_setLk_ne _ h

@[simp] theorem State.lk_bump (s : State) (c p : Nat) : (s.bump c).lk p = s.lk p := rfl

@[simp] theorem State.lk_bumpIf (s : State) (b : Bool) (c p : Nat) : (s.bumpIf b c).lk p = s.lk p := by cases b <;> rfl

@[simp] theorem State.lk_put (s : State) (f : Fld) (v p : Nat) : (s.put f v).lk p = s.lk p := rfl

@[simp] theorem State.lk_setOut (s : State) (o : Nat) (x : OutSt) (p : Nat) : (s.setOut o x).lk p = s.lk p := rfl

@[simp] theorem State.lk_setPkt (s : State) (i : Nat) (k : InPkt) (p : Nat) : (s.setPkt i k).lk p = s.lk p := rfl

@[simp] theorem State.lk_delPkt (s : State) (i id p : Nat) : (s.delPkt i id).lk p = s.lk p := rfl

@[simp] theorem State.lk_raise (s : State) (g cond obj : Nat) (owner : Option Nat) (detail p : Nat) :
    (s.raise g cond obj owner detail).lk p = s.lk p :=
  State.lk_of_stays (State.raise_stays g cond obj owner detail (Has.refl _) (Stays.refl s)) (by decide) p

@[simp] theorem State.lk_level (s : State) (g : Nat) (b : Bool) (obj : Nat) (owner : Option Nat) (p : Nat) :
    (s.level g b obj owner).lk p = s.lk p :=
  State.lk_of_stays (State.level_stays g b obj owner (Has.refl _) (Stays.refl s)) (by decide) p

@[simp] theorem State.lk_putBrick (s : State) (p : Nat) (d : Data) (q : Nat) : (s.putBrick p d).lk q = s.lk q :=
  State.lk_of_stays (State.putBrick_stays p d (Has.refl _) (Stays.refl s)) (by decide) q

@[simp] theorem State.lk_sendBrick (s : State) (p type seq : Nat) (body : Data) (q : Nat) : (s.sendBrick p type seq body).lk q = s.lk q :=
  s.lk_putBrick p _ q

@[simp] theorem State.lk_colPortDown (s : State) (p q : Nat) : (s.colPortDown p).lk q = s.lk q :=
  State.lk_of_stays (State.colPortDown_stays p (Has.refl _) (Stays.refl s)) (by decide) q

@[simp] theorem State.lk_markLinkDown (s : State) (p q : Nat) : (s.markLinkDown p).lk q = s.lk q :=
  State.lk_of_stays (State.markLinkDown_stays p (Has.refl _) (Stays.refl s)) (by decide) q

/-! ### Counters of the blocks below HIF

An event counts in HIF (R246, R248) and the ERROR of a tree in COL (R434); the counters of a link lie below both. -/

theorem State.ctr_of_stays {w : List Sys2Proof.Part} {s t : State} (h : Stays w s t) (hw : ¬ Sys2Proof.Part.ctrs ∈ w) (c : Nat) : t.ctr c = s.ctr c :=
  State.ctr_of_ctrs (h.ctrs hw) c

theorem State.ctr_foldl {α : Type} {c : Nat} {f : State → α → State} (l : List α) (s : State) (h : ∀ t x, (f t x).ctr c = t.ctr c) :
    (l.foldl f s).ctr c = s.ctr c := by
  induction l generalizing s with
  | nil => rfl
  | cons x l ih => exact (ih (f s x)).trans (h s x)

/-- The block HIF begins here, and COL lies behind it. -/
def hifBase : Nat := 0x400000

section
variable {c : Nat} (hc : c < hifBase)
include hc

theorem ctr_ne_hif_col : c ≠ Ctr.HIF_MSIX_COUNT ∧ c ≠ Ctr.HIF_EVENT_COUNT ∧ c ≠ Ctr.HIF_EVENT_LOST_COUNT ∧ c ≠ Ctr.COL_TREE_ERROR_COUNT := by
  unfold hifBase at hc
  unfold Ctr.HIF_MSIX_COUNT Ctr.HIF_EVENT_COUNT Ctr.HIF_EVENT_LOST_COUNT Ctr.COL_TREE_ERROR_COUNT
  omega

theorem State.ctr_msixSend (s : State) (identity vector : Nat) : (s.msixSend identity vector).ctr c = s.ctr c := by
  obtain ⟨hmsix, -⟩ := ctr_ne_hif_col hc
  unfold State.msixSend
  split
  · rfl
  · split
    · exact State.ctr_bump_ne _ hmsix
    · rfl

theorem State.ctr_eqPut (s : State) (r entry : Nat) : (s.eqPut r entry).ctr c = s.ctr c := by
  obtain ⟨-, hevent, -⟩ := ctr_ne_hif_col hc
  unfold State.eqPut
  split
  · rfl
  next e _ =>
    have hwrite : ∀ d x, ((((s.hostWrite (hpOf e.owner) e.owner d x).bumpIf s.mastering Ctr.HIF_EVENT_COUNT).setEq r
        { e with prod := e.prod + 1, armed := false })).ctr c = s.ctr c := fun d x =>
      (State.ctr_bumpIf_ne _ _ hevent).trans
        (State.ctr_of_stays (State.hostWrite_stays _ _ d x (Has.refl _) (Stays.refl s)) (by decide) c)
    dsimp only
    split
    · rw [State.ctr_msixSend hc, hwrite]
    · exact hwrite _ _

theorem State.ctr_eqPost (s : State) (r entry : Nat) : (s.eqPost r entry).ctr c = s.ctr c := by
  obtain ⟨-, -, hlost, -⟩ := ctr_ne_hif_col hc
  unfold State.eqPost
  split
  · exact State.ctr_bump_ne _ hlost
  · split
    · exact State.ctr_eqPut hc s r entry
    · split
      · rfl
      · exact State.ctr_bump_ne _ hlost

theorem State.ctr_latchEvent (s : State) (g cond obj : Nat) (owner : Option Nat) (detail : Nat) (forced severe mute : Bool) :
    (s.latchEvent g cond obj owner detail forced severe mute).ctr c = s.ctr c := by
  unfold State.latchEvent
  split
  · rfl
  · dsimp only
    split
    · exact State.ctr_eqPost hc _ _ _
    · rfl

omit hc in
theorem State.ctr_askFence (s : State) (cause : Nat) : (s.askFence cause).ctr c = s.ctr c :=
  State.ctr_of_stays (State.askFence_stays cause (Has.refl _) (Stays.refl s)) (by decide) c

omit hc in
theorem State.ctr_fenceOn (s : State) (g : Nat) : (s.fenceOn g).ctr c = s.ctr c :=
  State.ctr_of_stays (State.fenceOn_stays g (Has.refl _) (Stays.refl s)) (by decide) c

omit hc in
theorem State.ctr_mergeEvent (s : State) (g : Nat) : (s.mergeEvent g).ctr c = s.ctr c :=
  State.ctr_of_stays (State.mergeEvent_stays g (Has.refl _) (Stays.refl s)) (by decide) c

theorem State.ctr_latchConsequence (s : State) (g obj : Nat) (owner : Option Nat) (effective : Bool) :
    (s.latchConsequence g obj owner effective).ctr c = s.ctr c := by
  unfold State.latchConsequence
  split
  · rfl
  · have hfence : (if effective = true then s.fenceOn g else s).ctr c = s.ctr c := by
      split
      · exact s.ctr_fenceOn g
      · rfl
    dsimp only
    generalize (if effective = true then s.fenceOn g else s) = u at hfence ⊢
    split
    · split
      · rw [State.ctr_askFence, State.ctr_latchEvent hc]
        exact hfence
      · exact hfence
    · exact hfence

theorem State.ctr_latch (s : State) (g cond obj : Nat) (owner : Option Nat) (detail : Nat) (forced mute : Bool) :
    (s.latch g cond obj owner detail forced mute).ctr c = s.ctr c := by
  unfold State.latch
  dsimp only
  split
  · split
    · exact s.ctr_mergeEvent g
    · rw [State.ctr_fenceOn, State.ctr_mergeEvent]
  · rw [State.ctr_latchConsequence hc, State.ctr_latchEvent hc]

theorem State.ctr_raise (s : State) (g cond obj : Nat) (owner : Option Nat) (detail : Nat) :
    (s.raise g cond obj owner detail).ctr c = s.ctr c := s.ctr_latch hc g cond obj owner detail false false

theorem State.ctr_level (s : State) (g : Nat) (present : Bool) (obj : Nat) (owner : Option Nat) :
    (s.level g present obj owner).ctr c = s.ctr c := by
  unfold State.level
  dsimp only
  split
  · exact State.ctr_latch hc _ g 0 obj owner 0 false false
  · split
    · rw [State.ctr_fenceOn, State.ctr_mergeEvent]
      rfl
    · rfl

theorem State.ctr_treeFail (s : State) (t set reason origin : Nat) (from_ : Option Nat) :
    (s.treeFail t set reason origin from_).ctr c = s.ctr c := by
  obtain ⟨-, -, -, htree⟩ := ctr_ne_hif_col hc
  unfold State.treeFail
  refine (State.ctr_bump_ne _ htree).trans ((State.ctr_foldl _ _ fun u o => ?finish).trans ((State.ctr_foldl _ _ fun u q => ?send).trans rfl))
  case finish => exact State.ctr_of_stays (State.finishEntry_stays o.q o.ctr _ (Has.refl _) (Stays.refl u)) (by decide) c
  case send => exact State.ctr_of_stays (State.sendAbort_stays t set reason origin q (Has.refl _) (Stays.refl u)) (by decide) c

theorem State.ctr_treeEvent (s : State) (t reason : Nat) : (s.treeEvent t reason).ctr c = s.ctr c := by
  unfold State.treeEvent
  dsimp only
  rw [State.ctr_raise hc]
  split
  · exact State.ctr_foldl _ _ fun u f => u.ctr_eqPost hc f _
  · rfl

theorem State.ctr_treeError (s : State) (t set reason origin : Nat) (from_ : Option Nat) :
    (s.treeError t set reason origin from_).ctr c = s.ctr c := by
  unfold State.treeError
  split
  · rfl
  · rw [State.ctr_treeEvent hc, State.ctr_treeFail hc]

theorem State.ctr_colPortDown (s : State) (p : Nat) : (s.colPortDown p).ctr c = s.ctr c := by
  unfold State.colPortDown
  split
  · refine State.ctr_foldl _ _ fun u t => ?_
    split
    · exact u.ctr_treeError hc t _ _ _ none
    · split
      · exact u.ctr_treeError hc t _ _ _ none
      · rfl
  · rfl

end

end Sys2Proof.Machine
end

section
/-! Work on one port leaves the link engine of every other port as it was (R112 to R146). -/
namespace Sys2Proof.Machine

section
variable {p q : Nat} (hq : q ≠ p)
include hq

/-! ### The receive buffer (R117, R119, R133, R134) -/

theorem State.lk_poolOff_ne (s : State) : (s.poolOff p).lk q = s.lk q := by
  unfold State.poolOff
  dsimp only
  split
  · exact s.lk_setLk_ne _ hq
  · split
    · exact s.lk_setLk_ne _ hq
    · rfl

theorem State.lk_freeSlot_ne (s : State) (vc : Nat) (credit : Bool) : (s.freeSlot p vc credit).lk q = s.lk q := by
  unfold State.freeSlot
  split
  · rfl
  · exact (State.lk_poolOff_ne hq _).trans (s.lk_setLk_ne _ hq)

theorem State.lk_freeForms_ne (s : State) (vc : Nat) (forms : List Bool) : (s.freeForms p vc forms).lk q = s.lk q := by
  unfold State.freeForms
  induction forms generalizing s with
  | nil => rfl
  | cons f forms ih => exact (ih (s.freeSlot p vc f)).trans (s.lk_freeSlot_ne hq vc f)

theorem State.lk_discard_ne (s : State) (k : InPkt) : (s.discard p k).lk q = s.lk q := by
  unfold State.discard
  dsimp only
  split <;> exact s.lk_freeForms_ne hq k.vc k.forms

theorem State.lk_abortIn_ne (s : State) (k : InPkt) (reason : Nat) : (s.abortIn p k reason).lk q = s.lk q := by
  have hcount : ((s.bump (Ctr.LNK_ABORT_COUNT p)).raise (srcLnk p 2) 0 p).lk q = s.lk q := State.lk_raise _ _ _ _ _ _ _
  unfold State.abortIn
  dsimp only
  split
  · exact hcount
  · split
    · exact (State.lk_freeForms_ne hq _ k.vc k.forms).trans hcount
    · exact (State.lk_discard_ne hq _ _).trans hcount

theorem State.lk_place_ne {s w : State} {vc : Nat} {credit : Bool} (h : s.place p vc credit = some w) : w.lk q = s.lk q := by
  unfold State.place at h
  dsimp only at h
  split at h
  · split at h
    · cases h
    · cases h
      exact s.lk_setLk_ne _ hq
  · split at h
    · cases h
    · cases h
      exact (State.lk_poolOff_ne hq _).trans (s.lk_setLk_ne _ hq)

theorem State.lk_framingError_ne (s : State) : (s.framingError p).lk q = s.lk q := by
  unfold State.framingError
  dsimp only
  split
  · exact State.lk_abortIn_ne hq _ _ 2
  · exact State.lk_raise _ _ _ _ _ _ _

omit hq in
theorem State.lk_newPkt (s : State) (h : Nat) (body : Data) (credit : Bool) : (s.newPkt p h body credit).lk q = s.lk q := rfl

theorem State.lk_moreBrick_ne (s : State) (k : InPkt) (body : Data) (credit : Bool) : (s.moreBrick p k body credit).lk q = s.lk q := by
  unfold State.moreBrick
  dsimp only
  split
  · split <;> exact s.lk_freeSlot_ne hq k.vc credit
  · split
    · exact State.lk_of_stays (State.noteDepth_stays _ (Has.refl _) (Stays.refl _)) (by decide) q
    · rfl

theorem State.lk_frame_ne (s : State) (t : Nat) (body : Data) : (s.frame p t body).lk q = s.lk q := by
  have hbad : ∀ vc credit, ((s.framingError p).freeSlot p vc credit).lk q = s.lk q := fun vc credit =>
    (State.lk_freeSlot_ne hq _ vc credit).trans (s.lk_framingError_ne hq)
  unfold State.frame
  dsimp only
  split
  · split
    · split
      · exact s.lk_newPkt _ body _
      · exact hbad _ _
    · split
      · exact s.lk_framingError_ne hq
      · exact hbad _ _
  · split
    · exact hbad _ _
    · split
      · exact s.lk_moreBrick_ne hq _ body _
      · exact hbad _ _

/-! ### The engine (R125 to R127, R132, R137, R139) -/

theorem State.lk_startInit_ne (s : State) (resume : Bool) : (s.startInit p resume).lk q = s.lk q := s.lk_onLk_ne _ hq

theorem State.lk_reinit_ne (s : State) : (s.reinit p).lk q = s.lk q := by
  unfold State.reinit
  split
  · exact s.lk_startInit_ne hq true
  · rfl

theorem State.lk_protoError_ne (s : State) : (s.protoError p).lk q = s.lk q :=
  (State.lk_reinit_ne hq _).trans (State.lk_raise _ _ _ _ _ _ _)

theorem State.lk_validBrick_ne (s : State) : (s.validBrick p).lk q = s.lk q := State.lk_onLk_ne _ _ hq

theorem State.lk_ackBrick_ne (s : State) (a : Nat) : (s.ackBrick p a).lk q = s.lk q := by
  unfold State.ackBrick
  dsimp only
  split
  · rfl
  · split
    · exact s.lk_setLk_ne _ hq
    · split
      · rfl
      · exact s.lk_protoError_ne hq

theorem State.lk_nakDue_ne (s : State) : (s.nakDue p).lk q = s.lk q := by
  unfold State.nakDue
  dsimp only
  split
  · rfl
  · exact s.lk_setLk_ne _ hq

theorem State.lk_refusePlace_ne (s : State) (c : Nat) : (s.refusePlace p c).lk q = s.lk q :=
  (State.lk_nakDue_ne hq _).trans (State.lk_raise _ _ _ _ _ _ _)

theorem State.lk_rxSequenced_ne (s : State) (type seq : Nat) (body : Data) : (s.rxSequenced p type seq body).lk q = s.lk q := by
  unfold State.rxSequenced
  dsimp only
  split
  · split
    · split
      · exact (State.lk_abortIn_ne hq _ _ _).trans (s.lk_onLk_ne _ hq)
      · exact s.lk_onLk_ne _ hq
    · split
      · split
        · exact (State.lk_frame_ne hq _ type body).trans (s.lk_onLk_ne _ hq)
        · split
          next w hw => exact (State.lk_frame_ne hq _ type body).trans ((w.lk_onLk_ne _ hq).trans (State.lk_place_ne hq hw))
          next => exact s.lk_refusePlace_ne hq _
      · split
        next w hw => exact (State.lk_frame_ne hq _ type body).trans ((w.lk_onLk_ne _ hq).trans (State.lk_place_ne hq hw))
        next => exact s.lk_refusePlace_ne hq _
  · split
    · rfl
    · exact State.lk_nakDue_ne hq _

theorem State.lk_rxBrick_ne (s : State) (type seq ack : Nat) (body : Data) : (s.rxBrick p type seq ack body).lk q = s.lk q := by
  have hack : ((s.validBrick p).ackBrick p (ack % 16384)).lk q = s.lk q :=
    (State.lk_ackBrick_ne hq _ _).trans (s.lk_validBrick_ne hq)
  unfold State.rxBrick
  dsimp only
  split
  · split
    · exact (State.lk_rxSequenced_ne hq _ type _ body).trans hack
    · exact hack
  · exact s.lk_validBrick_ne hq

theorem State.lk_phyFell_ne (s : State) : (s.phyFell p).lk q = s.lk q := by
  unfold State.phyFell
  split
  · exact s.lk_onLk_ne _ hq
  · exact s.lk_onLk_ne _ hq
  · rfl

theorem State.lk_sendControl_ne (s : State) : (s.sendControl p).lk q = s.lk q := by
  unfold State.sendControl
  dsimp only
  rw [State.lk_setLk_ne _ _ hq]
  split
  · exact (State.lk_bumpIf _ _ _ _).trans ((State.lk_bumpIf _ _ _ _).trans (s.lk_sendBrick p _ _ _ q))
  · exact (State.lk_bumpIf _ _ _ _).trans ((State.lk_bumpIf _ _ _ _).trans (s.lk_sendBrick p _ _ _ q))

end

/-- A command that does its work only where a condition holds does at most that work. -/
theorem lk_of_next_ite {c : Prop} [Decidable c] {s t u : State} {q : Nat}
    (h : (if c then Host.Outcome.next u else .next s : Host.Outcome State Fault Refusal) = .next t) (hu : u.lk q = s.lk q) : t.lk q = s.lk q := by
  split at h <;> cases h
  · exact hu
  · rfl

section
variable {p q : Nat} {s t : State} (hq : q ≠ p)
include hq

theorem lk_execLinkInitStart_ne (h : execLinkInitStart p s = .next t) : t.lk q = s.lk q :=
  lk_of_next_ite h ((State.lk_startInit_ne hq _ false).trans (s.lk_onLk_ne _ hq))

theorem lk_execPhyDown_ne (h : execPhyDown p s = .next t) : t.lk q = s.lk q := lk_of_next_ite h (s.lk_phyFell_ne hq)

theorem lk_execPhyUp_ne (h : execPhyUp p s = .next t) : t.lk q = s.lk q := lk_of_next_ite h (s.lk_startInit_ne hq true)

theorem lk_execLinkReinit_ne (h : execLinkReinit p s = .next t) : t.lk q = s.lk q := lk_of_next_ite h (s.lk_reinit_ne hq)

theorem lk_execBrickCrcError_ne (h : execBrickCrcError p s = .next t) : t.lk q = s.lk q := by
  refine lk_of_next_ite h ?_
  split
  · exact (State.lk_nakDue_ne hq _).trans (State.lk_raise _ _ _ _ _ _ _)
  · exact State.lk_raise _ _ _ _ _ _ _

theorem lk_execReservedBrickRx_ne (h : execReservedBrickRx p s = .next t) : t.lk q = s.lk q :=
  lk_of_next_ite h (by rw [State.lk_raise, State.lk_bump, State.lk_validBrick_ne hq])

theorem lk_execControlBrickTx_ne (h : execControlBrickTx p s = .next t) : t.lk q = s.lk q := lk_of_next_ite h (s.lk_sendControl_ne hq)

theorem lk_execReplayBrickTx_ne (h : execReplayBrickTx p s = .next t) : t.lk q = s.lk q := by
  unfold execReplayBrickTx at h
  dsimp only at h
  split at h
  · split at h <;> cases h
    · rw [State.lk_setLk_ne _ _ hq, State.lk_bump, State.lk_sendBrick]
    · exact s.lk_setLk_ne _ hq
  · cases h
    rfl

theorem lk_execSequencedBrickRx_ne {ty n a : Nat} {b : Data} (h : execSequencedBrickRx p ty n a b s = .next t) : t.lk q = s.lk q :=
  lk_of_next_ite h (s.lk_rxBrick_ne hq ty n a b)

theorem lk_execAbortBrickRx_ne {n a r : Nat} (h : execAbortBrickRx p n a r s = .next t) : t.lk q = s.lk q :=
  lk_of_next_ite h (s.lk_rxBrick_ne hq 0xC n a _)

end

/-- Settles O60: each command does, if anything, one operation on its own port. -/
theorem linkCommandsStayInTheirPort : Obligations.LinkCommandsStayInTheirPort := by
  intro p c s t hc h q hq
  rcases hc with hc | ⟨ty, n, a, b, rfl⟩ | ⟨n, a, r, rfl⟩
  · simp only [List.mem_cons, List.not_mem_nil, or_false] at hc
    rcases hc with rfl | rfl | rfl | rfl | rfl | rfl | rfl | rfl
    · exact lk_execLinkInitStart_ne hq h
    · exact lk_execPhyDown_ne hq h
    · exact lk_execPhyUp_ne hq h
    · exact lk_execLinkReinit_ne hq h
    · exact lk_execBrickCrcError_ne hq h
    · exact lk_execReservedBrickRx_ne hq h
    · exact lk_execControlBrickTx_ne hq h
    · exact lk_execReplayBrickTx_ne hq h
  · exact lk_execSequencedBrickRx_ne hq h
  · exact lk_execAbortBrickRx_ne hq h

end Sys2Proof.Machine
end

section
/-! Bricks received (R113, R115, R117, R119, R125 to R127, R133, R137 to R139, R147): what each outcome of a sequenced brick leaves of its link
engine and of the counters. -/
namespace Sys2Proof.Machine

/-! ### Counters of a port's link -/

/-- The counters of a port's link lie in the block LNK. -/
theorem linkCtrs_below_hif {p : Nat} (hp : p < 64) : Ctr.LNK_PROTO_ERR_COUNT p < hifBase ∧ Ctr.LNK_CRC_ERR_COUNT p < hifBase ∧
    Ctr.LNK_CREDIT_OVERRUN_COUNT p < hifBase ∧ Ctr.LNK_POOL_OVERRUN_COUNT p < hifBase ∧ Ctr.LNK_REPLAY_COUNT p < hifBase := by
  unfold Ctr.LNK_PROTO_ERR_COUNT Ctr.LNK_CRC_ERR_COUNT Ctr.LNK_CREDIT_OVERRUN_COUNT Ctr.LNK_POOL_OVERRUN_COUNT Ctr.LNK_REPLAY_COUNT hifBase
  omega

/-- What a received brick counts is counted apart. -/
theorem rxCtrs_apart (p : Nat) : Ctr.LNK_PROTO_ERR_COUNT p ≠ Ctr.LNK_RX_BRICK_COUNT p ∧ Ctr.LNK_CREDIT_OVERRUN_COUNT p ≠ Ctr.LNK_OOS_COUNT p ∧
    Ctr.LNK_POOL_OVERRUN_COUNT p ≠ Ctr.LNK_OOS_COUNT p := by
  unfold Ctr.LNK_PROTO_ERR_COUNT Ctr.LNK_RX_BRICK_COUNT Ctr.LNK_CREDIT_OVERRUN_COUNT Ctr.LNK_OOS_COUNT Ctr.LNK_POOL_OVERRUN_COUNT
  omega

/-! ### What the receive buffer leaves of a link engine (R133, R134) -/

/-- A link engine apart from the figures of its receive buffer. -/
def Lnk.core (l : Lnk) : Lnk := { l with poolUsed := 0, used := [], returned := [], poolOff := false, offDue := false, reach := false }

/-- What the buffer leaves, field by field. -/
theorem Lnk.fields_of_core {x y : Lnk} (h : x.core = y.core) : x.st = y.st ∧ x.expected = y.expected ∧ x.next = y.next ∧ x.replay = y.replay ∧
    x.resumed = y.resumed :=
  ⟨(congrArg Lnk.st h :), (congrArg Lnk.expected h :), (congrArg Lnk.next h :), (congrArg Lnk.replay h :), (congrArg Lnk.resumed h :)⟩

theorem State.core_setLk {s : State} {p : Nat} {x : Lnk} (h : x.core = (s.lk p).core) (q : Nat) : ((s.setLk p x).lk q).core = (s.lk q).core := by
  by_cases hq : q = p
  · rw [hq, State.lk_setLk_self, h]
  · rw [State.lk_setLk_ne s x hq]

theorem State.core_poolOff (s : State) (p q : Nat) : ((s.poolOff p).lk q).core = (s.lk q).core := by
  unfold State.poolOff
  dsimp only
  split
  · exact State.core_setLk (by rfl) q
  · split
    · exact State.core_setLk (by rfl) q
    · rfl

theorem State.core_place {s w : State} {p vc : Nat} {credit : Bool} (h : s.place p vc credit = some w) (q : Nat) :
    (w.lk q).core = (s.lk q).core := by
  unfold State.place at h
  dsimp only at h
  split at h
  · split at h <;> cases h
    exact State.core_setLk (by rfl) q
  · split at h <;> cases h
    exact (State.core_poolOff _ p q).trans (State.core_setLk (by rfl) q)

/-! ### Every valid brick (R139, R147) -/

theorem State.receives_of {s : State} {p : Nat} (hp : p < 64) (ho : s.mode ≠ .off) : s.receives p = true := by simp [State.receives, hp, ho]

@[simp] theorem State.lk_validBrick_self (s : State) (p : Nat) : (s.validBrick p).lk p = { s.lk p with kaCount := 0 } := by
  simp [State.validBrick]

theorem State.ctr_validBrick_self (s : State) (p : Nat) :
    (s.validBrick p).ctr (Ctr.LNK_RX_BRICK_COUNT p) = s.ctr (Ctr.LNK_RX_BRICK_COUNT p) + 1 := s.ctr_bump_self _

theorem State.ctr_validBrick_ne (s : State) {p c : Nat} (h : c ≠ Ctr.LNK_RX_BRICK_COUNT p) : (s.validBrick p).ctr c = s.ctr c := s.ctr_bump_ne h

/-- R115: a brick of a reserved type. -/
theorem exec_reservedBrickRx {s : State} {p : Nat} (hp : p < 64) (ho : s.mode ≠ .off) :
    exec (.reservedBrickRx p) s = .next (((s.validBrick p).bump (Ctr.LNK_PROTO_ERR_COUNT p)).raise (srcLnk p 3) 0 p) :=
  if_pos (State.receives_of hp ho)

/-- Settles O30: the event that a reserved brick raises leaves the link engines and the counters of links. -/
theorem reservedTypes : Obligations.ReservedTypes := by
  intro s p hp ho
  obtain ⟨hlow, -⟩ := linkCtrs_below_hif hp
  obtain ⟨hproto, -⟩ := rxCtrs_apart p
  refine ⟨_, exec_reservedBrickRx hp ho, ?counted, ?engine, fun q hq => ?others, ?frame⟩
  case counted => rw [State.ctr_raise hlow, State.ctr_bump_self, State.ctr_validBrick_ne _ hproto]
  case engine => rw [State.lk_raise, State.lk_bump, State.lk_validBrick_self]
  case others => rw [State.lk_raise, State.lk_bump, State.lk_validBrick_ne hq]
  case frame =>
    exact State.raise_stays _ _ _ _ _ ⟨by decide⟩ (State.bump_stays _ ⟨by decide⟩ (State.validBrick_stays p ⟨by decide⟩ (Stays.refl s)))

/-! ### A resend asked for (R127) -/

theorem State.lk_nakDue_self (s : State) (p : Nat) :
    (s.nakDue p).lk p = { s.lk p with nakOut := true, nakDue := (s.lk p).nakDue || !(s.lk p).nakOut } := by
  unfold State.nakDue
  dsimp only
  split
  next h =>
    generalize s.lk p = l at h ⊢
    cases l
    simp_all
  next h => simp [h]

theorem State.ctr_nakDue (s : State) (p c : Nat) : (s.nakDue p).ctr c = s.ctr c :=
  State.ctr_of_stays (State.nakDue_stays p (Has.refl _) (Stays.refl s)) (by decide) c

/-- R113, R147: a brick with a bad CRC. -/
def State.badCrc (s : State) (p : Nat) : State := (s.bump (Ctr.LNK_CRC_ERR_COUNT p)).raise (srcLnk p 0) 0 p

@[simp] theorem State.lk_badCrc (s : State) (p q : Nat) : (s.badCrc p).lk q = s.lk q := State.lk_raise _ _ _ _ _ _ _

theorem State.ctr_badCrc (s : State) {p : Nat} (hp : p < 64) : (s.badCrc p).ctr (Ctr.LNK_CRC_ERR_COUNT p) = s.ctr (Ctr.LNK_CRC_ERR_COUNT p) + 1 := by
  obtain ⟨-, hlow, -⟩ := linkCtrs_below_hif hp
  rw [State.badCrc, State.ctr_raise hlow, State.ctr_bump_self]

theorem exec_brickCrcError_up {s : State} {p : Nat} (hp : p < 64) (ho : s.mode ≠ .off) (hup : (s.lk p).st = .up) :
    exec (.brickCrcError p) s = .next ((s.badCrc p).nakDue p) := by
  have hst : ((s.badCrc p).lk p).st = .up := by rw [State.lk_badCrc, hup]
  exact (if_pos (State.receives_of hp ho)).trans (congrArg Host.Outcome.next (if_pos hst))

theorem exec_brickCrcError_other {s : State} {p : Nat} (hp : p < 64) (ho : s.mode ≠ .off) (hup : (s.lk p).st ≠ .up) :
    exec (.brickCrcError p) s = .next (s.badCrc p) := by
  have hst : ¬ ((s.badCrc p).lk p).st = .up := by rwa [State.lk_badCrc]
  exact (if_pos (State.receives_of hp ho)).trans (congrArg Host.Outcome.next (if_neg hst))

/-! ### A sequenced brick in each state of the link (R119, R125, R126, R137, R138) -/

theorem exec_sequencedBrickRx {s : State} {p ty : Nat} (seq ack : Nat) (b : Data) (hp : p < 64) (ho : s.mode ≠ .off) (hty : ty < 8) :
    exec (.sequencedBrickRx p ty seq ack b) s = .next (s.rxBrick p ty seq ack b) := if_pos ⟨State.receives_of hp ho, hty⟩

theorem exec_abortBrickRx {s : State} {p : Nat} (seq ack r : Nat) (hp : p < 64) (ho : s.mode ≠ .off) :
    exec (.abortBrickRx p seq ack r) s = .next (s.rxBrick p 0xC seq ack ⟨64, r % 256⟩) := if_pos (State.receives_of hp ho)

theorem Lnk.hears_iff (l : Lnk) : l.hears = true ↔ l.st = .init ∨ l.st = .up ∨ l.st = .hold := by simp [Lnk.hears, or_assoc]

theorem Lnk.not_hears {l : Lnk} (h : l.st = .down ∨ l.st = .fencing) : ¬ l.hears = true := by
  rw [Lnk.hears_iff]
  rcases h with h | h <;> simp [h]

theorem State.rxBrick_deaf {s : State} {p : Nat} (ty seq ack : Nat) (b : Data) (h : (s.lk p).st = .down ∨ (s.lk p).st = .fencing) :
    s.rxBrick p ty seq ack b = s.validBrick p := if_neg (Lnk.not_hears h)

theorem State.rxBrick_idle {s : State} {p : Nat} (ty seq ack : Nat) (b : Data) (h : (s.lk p).st = .init ∨ (s.lk p).st = .hold) :
    s.rxBrick p ty seq ack b = (s.validBrick p).ackBrick p (ack % 2 ^ 14) := by
  have hup : ¬ (s.lk p).st = .up := by rcases h with h | h <;> simp [h]
  exact (if_pos ((Lnk.hears_iff _).mpr (by tauto))).trans (if_neg fun hu => hup hu.1)

section
variable {s u : State} {p ty seq ack : Nat} {b : Data} (hst : (s.lk p).st = .up) (hu : u = (s.validBrick p).ackBrick p (ack % 2 ^ 14))
include hst hu

/-- Its ack ended the state UP. -/
theorem State.rxBrick_left (hup : (u.lk p).st ≠ .up) : s.rxBrick p ty seq ack b = u := by
  subst hu
  exact (if_pos ((Lnk.hears_iff _).mpr (.inr (.inl hst)))).trans (if_neg fun h => hup h.2)

theorem State.rxBrick_up (hup : (u.lk p).st = .up) : s.rxBrick p ty seq ack b = u.rxSequenced p ty (seq % 2 ^ 14) b := by
  subst hu
  exact (if_pos ((Lnk.hears_iff _).mpr (.inr (.inl hst)))).trans (if_pos ⟨hst, hup⟩)

end

/-! ### Accepted, refused, a duplicate, out of sequence (R126, R133) -/

/-- R126: the expected number goes up by one, and no NAK is out any more. -/
def State.acceptNext (s : State) (p : Nat) : State :=
  s.onLk p (fun k => { k with expected := k.expected + 1, rxAny := true, nakOut := false, nakDue := false })

theorem State.lk_acceptNext (s : State) (p : Nat) : (s.acceptNext p).lk p =
    { s.lk p with expected := (s.lk p).expected + 1, rxAny := true, nakOut := false, nakDue := false } := s.lk_onLk_self p _

/-- The VC whose place a brick of a packet takes: a stray BODY or TAIL in pool form takes a place of none. -/
def State.takesPlace (s : State) (p ty : Nat) (b : Data) (v : Nat) : Prop :=
  s.brickVc p ty b = some v ∨ (s.brickVc p ty b = none ∧ bit ty 2 = false ∧ v = 0)

section
variable {s : State} {p ty seq : Nat} {b : Data} (hseq : seq = (s.lk p).expected.toNat)
include hseq

/-- R119: an ABORT while no packet is in progress. -/
theorem State.rxSequenced_abort_idle (h : (s.acceptNext p).inProgress p = none) : s.rxSequenced p 0xC seq b = s.acceptNext p := by
  unfold State.rxSequenced
  rw [if_pos hseq, if_pos rfl]
  unfold State.acceptNext at h ⊢
  simp only [h]

theorem State.rxSequenced_abort {k : InPkt} (h : (s.acceptNext p).inProgress p = some k) :
    s.rxSequenced p 0xC seq b = (s.acceptNext p).abortIn p k (b.field 0 0 8) := by
  unfold State.rxSequenced
  rw [if_pos hseq, if_pos rfl]
  unfold State.acceptNext at h ⊢
  simp only [h]

theorem State.rxSequenced_placed {w : State} {v : Nat} (hty : ty < 8) (hv : s.takesPlace p ty b v) (hw : s.place p v (bit ty 2) = some w) :
    s.rxSequenced p ty seq b = (w.acceptNext p).frame p ty b := by
  unfold State.rxSequenced
  rw [if_pos hseq, if_neg (by omega)]
  rcases hv with hv | ⟨hv, hform, rfl⟩
  · simp only [hv, hw]
    rfl
  · rw [hform] at hw
    simp only [hv, hform, hw]
    rfl

theorem State.rxSequenced_noPlace {v : Nat} (hty : ty < 8) (hv : s.takesPlace p ty b v) (hw : s.place p v (bit ty 2) = none) :
    s.rxSequenced p ty seq b = s.refusePlace p (if bit ty 2 then Ctr.LNK_CREDIT_OVERRUN_COUNT p else Ctr.LNK_POOL_OVERRUN_COUNT p) := by
  unfold State.rxSequenced
  rw [if_pos hseq, if_neg (by omega)]
  rcases hv with hv | ⟨hv, hform, rfl⟩
  · simp only [hv, hw]
  · rw [hform] at hw
    simp only [hv, hform, hw]
    rfl

/-- A stray BODY or TAIL in credit form takes no place. -/
theorem State.rxSequenced_stray (hty : ty < 8) (hv : s.brickVc p ty b = none) (hform : bit ty 2 = true) :
    s.rxSequenced p ty seq b = (s.acceptNext p).frame p ty b := by
  unfold State.rxSequenced
  rw [if_pos hseq, if_neg (by omega)]
  simp only [hv, hform]
  rfl

end

theorem State.rxSequenced_duplicate {s : State} {p ty seq : Nat} {b : Data} (hseq : seq ≠ (s.lk p).expected.toNat)
    (hcmp : serialCmp seq (s.lk p).expected.toNat 14 = .before) : s.rxSequenced p ty seq b = s.bump (Ctr.LNK_DUP_COUNT p) :=
  (if_neg hseq).trans (if_pos hcmp)

theorem State.rxSequenced_outOfSequence {s : State} {p ty seq : Nat} {b : Data} (hseq : seq ≠ (s.lk p).expected.toNat)
    (hcmp : serialCmp seq (s.lk p).expected.toNat 14 ≠ .before) : s.rxSequenced p ty seq b = (s.bump (Ctr.LNK_OOS_COUNT p)).nakDue p :=
  (if_neg hseq).trans (if_neg hcmp)

/-- R133: an overrun is counted, the expected number stays, and a resend is asked for. -/
theorem State.refusePlace_overrun (s : State) {p c : Nat} (hp : p < 64) (hc : c = Ctr.LNK_CREDIT_OVERRUN_COUNT p ∨ c = Ctr.LNK_POOL_OVERRUN_COUNT p) :
    (s.refusePlace p c).ctr c = s.ctr c + 1 ∧ ((s.refusePlace p c).lk p).expected = (s.lk p).expected ∧
      ((s.refusePlace p c).lk p).nakOut = true := by
  obtain ⟨-, hcredit, hpool⟩ := rxCtrs_apart p
  have hoos : c ≠ Ctr.LNK_OOS_COUNT p := by rcases hc with rfl | rfl <;> assumption
  obtain ⟨-, -, hcreditLow, hpoolLow, -⟩ := linkCtrs_below_hif hp
  have hlow : c < hifBase := by rcases hc with rfl | rfl <;> assumption
  unfold State.refusePlace
  refine ⟨?_, ?_, ?_⟩
  · rw [State.ctr_nakDue, State.ctr_bump_ne _ hoos, State.ctr_raise hlow, State.ctr_bump_self]
  · rw [State.lk_nakDue_self, State.lk_bump, State.lk_raise, State.lk_bump]
  · rw [State.lk_nakDue_self]

/-- A byte of an ABORT's body. -/
theorem Data.field_zero_byte (b : Data) : b.field 0 0 8 = b.val % 256 := by simp [Data.field, bits]

/-- Settles O29: each outcome of a brick by its equation. -/
theorem bricksReceived : Obligations.BricksReceived := by
  unfold Obligations.BricksReceived
  intro accepted brick
  have hexec : ∀ {s c p ty seq ack b}, brick c p ty seq ack b → p < 64 → s.mode ≠ .off → exec c s = .next (s.rxBrick p ty seq ack b) := by
    rintro s c p ty seq ack b (⟨rfl, hty⟩ | ⟨r, rfl, rfl, rfl⟩) hp ho
    · exact exec_sequencedBrickRx seq ack b hp ho hty
    · exact exec_abortBrickRx seq ack r hp ho
  refine ⟨fun s c p ty seq ack b hb hp ho => ⟨_, hexec hb hp ho, fun hst => ?deaf, fun hst => ?idle⟩,
    fun s u c p ty seq ack b hb hp ho hst hu => ⟨_, hexec hb hp ho, State.rxBrick_left hst hu, ?up⟩, fun s p hp ho => ?crc⟩
  case deaf =>
    rw [State.rxBrick_deaf ty seq ack b hst]
    exact ⟨rfl, s.lk_validBrick_self p, s.ctr_validBrick_self p, State.validBrick_stays p (Has.refl _) (Stays.refl s)⟩
  case idle =>
    rw [State.rxBrick_idle ty seq ack b hst]
    exact ⟨rfl, (State.ackBrick_stays p _ (Has.refl _) (State.validBrick_stays p ⟨by decide⟩ (Stays.refl s))).rte (by decide)⟩
  case up =>
    intro hup e he
    subst he
    rw [State.rxBrick_up hst hu hup]
    have haccept : ∀ w : State, ((accepted w p).lk p).expected = (w.lk p).expected + 1 ∧ ((accepted w p).lk p).nakOut = false := fun w => by
      rw [show accepted w p = w.acceptNext p from rfl, State.lk_acceptNext]
      exact ⟨rfl, rfl⟩
    refine ⟨fun hseq hty v w hv hw => ?placed, fun hseq hty v hv hw => ?noPlace, State.rxSequenced_stray, fun hseq hty => ?abort,
      State.rxSequenced_duplicate, fun hseq hcmp => ?outOfSequence⟩
    case placed =>
      obtain ⟨-, hexpected, -⟩ := Lnk.fields_of_core (State.core_place hw p)
      rw [← hexpected]
      exact ⟨State.rxSequenced_placed hseq hty hv hw, haccept w⟩
    case noPlace =>
      rw [State.rxSequenced_noPlace hseq hty hv hw]
      exact ⟨_, rfl, u.refusePlace_overrun hp (by split <;> simp)⟩
    case abort =>
      subst hty
      rw [← Data.field_zero_byte]
      exact ⟨(haccept u).1, State.rxSequenced_abort_idle hseq, fun k => State.rxSequenced_abort hseq⟩
    case outOfSequence =>
      rw [State.rxSequenced_outOfSequence hseq hcmp, State.ctr_nakDue, State.lk_nakDue_self]
      exact ⟨u.ctr_bump_self _, rfl, rfl, rfl⟩
  case crc =>
    by_cases hup : (s.lk p).st = .up
    · refine ⟨_, exec_brickCrcError_up hp ho hup, (State.ctr_nakDue _ _ _).trans (s.ctr_badCrc hp), ?_⟩
      rw [State.lk_nakDue_self, State.lk_badCrc]
      exact ⟨rfl, rfl, rfl, fun _ => ⟨rfl, rfl⟩⟩
    · refine ⟨_, exec_brickCrcError_other hp ho hup, s.ctr_badCrc hp, ?_⟩
      rw [State.lk_badCrc]
      exact ⟨rfl, rfl, rfl, fun h => absurd h hup⟩

end Sys2Proof.Machine
end

section
/-! Links that go down, and what a link sends (R121 to R130, R132, R145, R146): what entry to DOWN makes of the engine and the counters, CONTROL
bricks in both directions, new bricks, replayed bricks and the replay timer. -/
namespace Sys2Proof.Machine

/-! ### Entry to DOWN (R146) -/

/-- R146: a link that goes down is cleared of what it was sending and receiving first. -/
def State.linkCleared (s : State) (p : Nat) : State := ((s.dropReplay p).abortInput p).abandon p

/-- R146: the engine as DOWN begins. -/
def Lnk.enterDown (l : Lnk) (cause : Nat) (now : When) : Lnk :=
  { l with st := .down, downCause := cause, downAt := now, waitHoldoff := cause != 6 && cause != 3, waitPhy := cause == 3, nakOut := false,
           nakDue := false }

/-- R146: the link is DOWN, its source raised; what other blocks make of that is still to come. -/
def State.linkEnded (s : State) (p cause : Nat) : State :=
  (((s.linkCleared p).onLk p (fun l => l.enterDown cause s.nowAt)).bump (Ctr.LNK_DOWN_COUNT p)).level (srcLnk p 5) true p

theorem State.linkDown_eq (s : State) (p cause : Nat) : s.linkDown p cause =
    ((if cause = 3 then { s.linkEnded p cause with rte := { (s.linkEnded p cause).rte with dead := setAdd (s.linkEnded p cause).rte.dead p } }
      else s.linkEnded p cause).colPortDown p).markLinkDown p := by
  unfold State.linkDown
  rfl

theorem State.lk_linkDown_self (s : State) (p cause : Nat) :
    (s.linkDown p cause).lk p = ((s.linkCleared p).lk p).enterDown cause s.nowAt := by
  have hended : (s.linkEnded p cause).lk p = ((s.linkCleared p).lk p).enterDown cause s.nowAt := by
    rw [State.linkEnded, State.lk_level, State.lk_bump, State.lk_onLk_self]
  rw [State.linkDown_eq, State.lk_markLinkDown, State.lk_colPortDown, ← hended]
  split <;> rfl

section
variable {p c : Nat} (hc : c < hifBase) (hdiscard : c ≠ Ctr.LNK_DOWN_DISCARD_COUNT p) (habort : c ≠ Ctr.LNK_ABORT_COUNT p)
  (hdown : c ≠ Ctr.LNK_DOWN_COUNT p)

include hdiscard in
theorem State.ctr_dropReplay (s : State) : (s.dropReplay p).ctr c = s.ctr c := s.ctr_bumpBy_ne _ hdiscard

theorem State.ctr_onLk (s : State) (i : Nat) (f : Lnk → Lnk) : (s.onLk i f).ctr c = s.ctr c := rfl

theorem State.ctr_discard (s : State) (i : Nat) (k : InPkt) : (s.discard i k).ctr c = s.ctr c :=
  State.ctr_of_stays (State.discard_stays i k (Has.refl _) (Stays.refl s)) (by decide) c

include hc habort in
theorem State.ctr_abortIn (s : State) (k : InPkt) (reason : Nat) : (s.abortIn p k reason).ctr c = s.ctr c := by
  have hcount : ((s.bump (Ctr.LNK_ABORT_COUNT p)).raise (srcLnk p 2) 0 p).ctr c = s.ctr c := by
    rw [State.ctr_raise hc, State.ctr_bump_ne _ habort]
  unfold State.abortIn
  dsimp only
  split
  · exact hcount
  · split
    · exact (State.ctr_of_stays (State.freeForms_stays p k.vc k.forms (Has.refl _) (Stays.refl _)) (by decide) c).trans hcount
    · exact (State.ctr_discard _ _ _).trans hcount

include hc habort in
theorem State.ctr_abortInput (s : State) : (s.abortInput p).ctr c = s.ctr c := by
  unfold State.abortInput
  split
  · exact State.ctr_abortIn hc habort _ _ _
  · rfl

include habort in
theorem State.ctr_abandon (s : State) : (s.abandon p).ctr c = s.ctr c := by
  unfold State.abandon
  split
  · rfl
  · dsimp only
    split
    · split
      · rfl
      · exact (State.ctr_discard _ _ _).trans (State.ctr_bump_ne _ habort)
    · rfl

include hc hdiscard habort hdown in
/-- A link that goes down counts that, what it discards and what it aborts. -/
theorem State.ctr_linkDown (s : State) (cause : Nat) : (s.linkDown p cause).ctr c = s.ctr c := by
  have hended : (s.linkEnded p cause).ctr c = s.ctr c := by
    rw [State.linkEnded, State.ctr_level hc, State.ctr_bump_ne _ hdown, State.ctr_onLk, State.linkCleared, State.ctr_abandon habort,
      State.ctr_abortInput hc habort, State.ctr_dropReplay hdiscard]
  rw [State.linkDown_eq, State.ctr_of_stays (State.markLinkDown_stays p (Has.refl _) (Stays.refl _)) (by decide), State.ctr_colPortDown hc,
    ← hended]
  split <;> rfl

end

/-! ### CONTROL received (R121, R125 to R127, R130, R132) -/

theorem exec_controlBrickRx {s : State} {p : Nat} (seq ack : Nat) (b : Data) (hp : p < 64) (ho : s.mode ≠ .off) :
    exec (.controlBrickRx p seq ack b) s = .next (s.rxControl p seq ack b) := if_pos (State.receives_of hp ho)

theorem State.rxControl_deaf {s : State} {p : Nat} (seq ack : Nat) (b : Data) (h : (s.lk p).st = .down ∨ (s.lk p).st = .fencing) :
    s.rxControl p seq ack b = s.validBrick p := if_neg (Lnk.not_hears h)

section
variable {s s1 s2 u : State} {p seq ack : Nat} {b : Data} (h1 : s1 = (s.validBrick p).farLevel p (b.field 32 1 1 == 1))
  (h2 : s2 = if b.field 32 0 1 = 1 ∧ s1.counting then s1.courseMark p (Mark.ofNat (b.val % 2 ^ 128)) else s1)
  (hu : u = (s2.ackBrick p (ack % 2 ^ 14)).creditReturn p (vcWords b 16))
include h1 h2 hu

theorem State.rxControl_heard {w : State} (hh : (s.lk p).hears = true)
    (hw : w = if (s.lk p).st = .up ∧ (u.lk p).st = .up ∧ b.field 32 2 1 = 1 then u.nakBrick p (b.field 34 0 14) else u) :
    s.rxControl p seq ack b = if (s.lk p).st = .up ∧ (w.lk p).st = .up ∧ serialCmp (w.lk p).expected.toNat (seq % 2 ^ 14) 14 = .before
      then w.nakDue p else w := by
  subst h1 h2 hu hw
  exact if_pos hh

theorem State.rxControl_idle (h : (s.lk p).st = .init ∨ (s.lk p).st = .hold) : s.rxControl p seq ack b = u := by
  have hup : ¬ (s.lk p).st = .up := by rcases h with h | h <;> simp [h]
  rw [State.rxControl_heard h1 h2 hu ((Lnk.hears_iff _).mpr (by tauto)) rfl, if_neg fun h => hup h.1, if_neg fun h => hup h.1]

theorem State.rxControl_up {w : State} (hst : (s.lk p).st = .up) (hup : (u.lk p).st = .up)
    (hw : w = if b.field 32 2 1 = 1 then u.nakBrick p (b.field 34 0 14) else u) : s.rxControl p seq ack b =
    if (w.lk p).st = .up ∧ serialCmp (w.lk p).expected.toNat (seq % 2 ^ 14) 14 = .before then w.nakDue p else w := by
  have hnak : w = if (s.lk p).st = .up ∧ (u.lk p).st = .up ∧ b.field 32 2 1 = 1 then u.nakBrick p (b.field 34 0 14) else u := by
    simp only [hw, hst, hup, true_and]
  rw [State.rxControl_heard h1 h2 hu ((Lnk.hears_iff _).mpr (.inr (.inl hst))) hnak]
  simp only [hst, true_and]

end

theorem mem_setAdd_self (l : List Nat) (x : Nat) : x ∈ setAdd l x := by
  induction l with
  | nil => simp [setAdd]
  | cons a l ih =>
    unfold setAdd
    split
    · simp
    · split <;> simp_all

/-- R130: the far receiver's level. -/
theorem State.lk_farLevel_self (s : State) (p : Nat) (o : Bool) : (s.farLevel p o).lk p = { s.lk p with farPoolOff := o } := by
  cases o
  · exact s.lk_onLk_self p (fun l => { l with farPoolOff := false })
  · exact s.lk_onLk_self p (fun l => { l with farPoolOff := true })

/-- R163: OFF is kept for the congestion level of this course. -/
theorem State.mem_offSeen_farLevel (s : State) (p : Nat) : p ∈ (s.farLevel p true).rte.offSeen := mem_setAdd_self _ p

/-- R132: credits that are all in range. -/
theorem State.creditReturn_inRange {s : State} {p : Nat} {l : List Nat}
    (h : ∀ v < 8, (65536 + (s.lk p).charged.getD v 0 - l.getD v 0 % 65536) % 65536 ≤ 128) :
    ∀ v < 8, ((s.creditReturn p l).lk p).farReturned.getD v 0 = l.getD v 0 := by
  intro v hv
  have hbad : (List.range 8).any (fun v => (65536 + (s.lk p).charged.getD v 0 - l.getD v 0 % 65536) % 65536 > 128) = false := by
    simpa using h
  have hnot : ¬ (65536 + (s.lk p).charged.getD v 0 - l.getD v 0 % 65536) % 65536 > 128 := Nat.not_lt.mpr (h v hv)
  unfold State.creditReturn
  dsimp only
  rw [hbad, if_neg Bool.false_ne_true, State.lk_setLk_self]
  dsimp only
  rw [List.getD_eq_getElem _ _ (by simpa using hv), List.getElem_map, List.getElem_range, if_neg hnot]

/-! ### CONTROL sent (R122, R138) -/

theorem exec_controlBrickTx {s : State} {p : Nat} (hp : p < 64)
    (h : ((s.lk p).st = .up ∧ ((s.lk p).controlFirst = true ∨ s.markNow p = true ∨ (s.returnsDue p = true ∧ 15 ≤ (s.lk p).slots) ∨ s.seqReady p = false)) ∨
      ((s.lk p).st = .init ∧ s.markNow p = true)) : exec (.controlBrickTx p) s = .next (s.sendControl p) := by
  refine if_pos ⟨hp, h.imp_left fun hup => ⟨hup.1, ?_⟩⟩
  simpa [State.controlDue, or_assoc] using hup.2

theorem State.lk_sendControl_self (s : State) (p : Nat) : (s.sendControl p).lk p =
    { s.lk p with nakDue := false, offDue := false, markDue := (s.lk p).markDue && !s.markNow p, sentReturned := (s.lk p).returned, slots := 0,
                  lastControl := s.cycles } := State.lk_setLk_self _ p _

/-! ### New bricks (R116, R123, R124, R129) -/

theorem exec_brickTx {s : State} {p i id : Nat} {k : InPkt} (hp : p < 64) (hst : (s.lk p).st = .up) (hreplay : (s.lk p).replaying = false)
    (hroom : (s.lk p).replay.length < 2048) (htx : (s.pp p).txMask ≠ 0) (hfirst : (s.lk p).controlFirst = false)
    (hcur : (s.outSt p).cur = some (i, id)) (hk : s.pkt? i id = some k) : exec (.brickTx p) s = .next (s.txBrick p i k) := by
  refine (if_pos ⟨hp, hst, by simp [hreplay], hroom, htx, by simp [hfirst]⟩).trans ?_
  simp only [hcur, hk]

theorem exec_brickTx_waits {s : State} {p : Nat}
    (h : (s.lk p).replaying = true ∨ 2048 ≤ (s.lk p).replay.length ∨ (s.lk p).controlFirst = true) : exec (.brickTx p) s = .next s := by
  refine if_neg fun ⟨_, _, hreplay, hroom, _, hfirst⟩ => ?_
  rcases h with h | h | h
  · exact hreplay h
  · omega
  · exact hfirst h

/-- R124: it waits in the replay buffer. -/
theorem State.sendSequenced_kept (s : State) (p type : Nat) (body : Data) (vc : Nat) (credit : Bool) :
    ((s.sendSequenced p type body vc credit).lk p).next = (s.lk p).next + 1 ∧
    ((s.sendSequenced p type body vc credit).lk p).replay = (s.lk p).replay ++ [⟨(s.lk p).next, type, body⟩] := by
  unfold State.sendSequenced
  rw [State.lk_setLk_self]
  exact ⟨rfl, rfl⟩

theorem State.core_freeSlot (s : State) (i vc : Nat) (credit : Bool) (q : Nat) : ((s.freeSlot i vc credit).lk q).core = (s.lk q).core := by
  unfold State.freeSlot
  split
  · rfl
  · refine (State.core_poolOff _ i q).trans (State.core_setLk ?_ q)
    split <;> rfl

/-- R124: the next number and the length of the replay buffer, once a brick has been sent. -/
def Lnk.keptOne (x y : Lnk) : Prop := y.next = x.next + 1 ∧ y.replay.length = x.replay.length + 1

theorem Lnk.keptOne.txPkt {x y : Lnk} (h : x.keptOne y) (b : Bool) : x.keptOne { y with txPkt := b } := h

theorem State.sendSequenced_freeSlot_kept (s : State) (p i type vc v : Nat) (body : Data) (credit form : Bool) (k : InPkt) :
    (s.lk p).keptOne ((((s.sendSequenced p type body vc credit).setPkt i k).freeSlot i v form).lk p) := by
  obtain ⟨hnext, hreplay⟩ := s.sendSequenced_kept p type body vc credit
  obtain ⟨-, -, hnext', hreplay', -⟩ := Lnk.fields_of_core (State.core_freeSlot ((s.sendSequenced p type body vc credit).setPkt i k) i v form p)
  rw [State.lk_setPkt] at hnext' hreplay'
  exact ⟨hnext'.trans hnext, by rw [hreplay', hreplay, List.length_append, List.length_singleton]⟩

/-- Sending a packet's brick frees its place in the buffer of its input, be that the port's own, and moves the numbers as its sending does. -/
theorem State.txBrick_kept {s : State} {p i : Nat} {k : InPkt} (hk : k.abort_ = none) (hforms : k.forms ≠ []) :
    (s.lk p).keptOne ((s.txBrick p i k).lk p) := by
  unfold State.txBrick
  rw [hk]
  cases hf : k.forms with
  | nil => exact absurd hf hforms
  | cons f fs =>
    dsimp only
    have hout : ∀ (u : State) x, (if k.ovc = 7 then u.setOut p x else u).lk p = u.lk p := fun u x => by split <;> rfl
    split
    · rw [State.lk_delPkt, State.lk_onLk_self, State.lk_setOut, hout]
      exact (s.sendSequenced_freeSlot_kept p i _ _ _ _ _ f _).txPkt false
    · rw [State.lk_onLk_self, hout]
      exact (s.sendSequenced_freeSlot_kept p i _ _ _ _ _ f _).txPkt true

/-! ### Bricks sent again (R128, R129) -/

theorem exec_replayBrickTx {s : State} {p : Nat} {b : TxBrick} (hp : p < 64) (hst : (s.lk p).st = .up) (hreplay : (s.lk p).replaying = true)
    (hfirst : (s.lk p).controlFirst = false) (hb : (s.lk p).replay.find? (fun b => b.seq == (s.lk p).replayAt) = some b) :
    exec (.replayBrickTx p) s = .next (((s.sendBrick p b.type b.seq.toNat b.body).bump (Ctr.LNK_REPLAY_BRICK_COUNT p)).setLk p
      { s.lk p with slots := (s.lk p).slots + 1, replayAt := (s.lk p).replayAt + 1, replaying := (s.lk p).replayAt + 1 != (s.lk p).next }) := by
  refine (if_pos ⟨hp, hst, hreplay, by simp [hfirst]⟩).trans ?_
  simp only [hb]

/-- R112: a brick sent is counted once. -/
theorem State.ctr_putBrick (s : State) (p : Nat) (d : Data) (c : Nat) :
    (s.putBrick p d).ctr c = (s.bump (Ctr.LNK_TX_BRICK_COUNT p)).ctr c := by
  have hlay : ((s.emit (.brick p d)).layBrick p d).ctrs = s.ctrs :=
    (State.layBrick_stays p d (Has.refl _) (Stays.refl (s.emit (.brick p d)))).ctrs (by decide)
  by_cases hc : c = Ctr.LNK_TX_BRICK_COUNT p
  · rw [hc, State.putBrick, State.ctr_bump_self, State.ctr_bump_self, State.ctr_of_ctrs hlay]
  · rw [State.putBrick, State.ctr_bump_ne _ hc, State.ctr_bump_ne _ hc, State.ctr_of_ctrs hlay]

theorem State.ctr_sendBrick (s : State) (p type seq : Nat) (body : Data) (c : Nat) :
    (s.sendBrick p type seq body).ctr c = (s.bump (Ctr.LNK_TX_BRICK_COUNT p)).ctr c := s.ctr_putBrick p _ c

theorem State.ctr_setLk (s : State) (p : Nat) (x : Lnk) (c : Nat) : (s.setLk p x).ctr c = s.ctr c := rfl

theorem txCtrs_apart (p : Nat) : Ctr.LNK_REPLAY_BRICK_COUNT p ≠ Ctr.LNK_TX_BRICK_COUNT p ∧
    Ctr.LNK_REPLAY_COUNT p ≠ Ctr.LNK_DOWN_DISCARD_COUNT p ∧ Ctr.LNK_REPLAY_COUNT p ≠ Ctr.LNK_ABORT_COUNT p ∧
    Ctr.LNK_REPLAY_COUNT p ≠ Ctr.LNK_DOWN_COUNT p := by
  unfold Ctr.LNK_REPLAY_BRICK_COUNT Ctr.LNK_TX_BRICK_COUNT Ctr.LNK_REPLAY_COUNT Ctr.LNK_DOWN_DISCARD_COUNT Ctr.LNK_ABORT_COUNT Ctr.LNK_DOWN_COUNT
  omega

theorem exec_replayTimerExpiry {s : State} {p t0 : Nat} {b : TxBrick} {r : List TxBrick} (hp : p < 64) (hst : (s.lk p).st = .up)
    (hfrom : (s.lk p).timerFrom = some t0) (hreplay : (s.lk p).replay = b :: r)
    (hdue : s.cycles ≥ t0 + s.g (Reg.LNK_REPLAY_CFG.tmo_courses p) * 1280 + s.g (Reg.LNK_REPLAY_CFG.tmo_cycles p)) :
    exec (.replayTimerExpiry p) s = .next (s.startReplay p b.seq) := by
  have harm : exec (.replayTimerExpiry p) s = execReplayTimerExpiry p s := rfl
  rw [harm, execReplayTimerExpiry]
  simp only [hfrom, hreplay]
  exact if_pos ⟨hp, hst, hdue⟩

/-- R129: a replay that begins at `from_`, counted, whatever its number in the run. -/
def State.replayBegun (s : State) (p : Nat) (from_ : LinkSeq) : State :=
  (s.setLk p { s.lk p with replaying := true, replayAt := from_, replayRun := (s.lk p).replayRun + 1, timerFrom := some s.cycles }).bump
    (Ctr.LNK_REPLAY_COUNT p)

section
variable {s : State} {p : Nat} {from_ : LinkSeq}

theorem State.startReplay_eq : s.startReplay p from_ =
    if max 1 (s.g (Reg.LNK_REPLAY_CFG.limit p)) ≤ (s.lk p).replayRun + 1 then (s.replayBegun p from_).linkDown p 2 else s.replayBegun p from_ := rfl

theorem State.ctr_startReplay (hp : p < 64) :
    (s.startReplay p from_).ctr (Ctr.LNK_REPLAY_COUNT p) = s.ctr (Ctr.LNK_REPLAY_COUNT p) + 1 := by
  obtain ⟨-, -, -, -, hlow⟩ := linkCtrs_below_hif hp
  obtain ⟨-, hdiscard, habort, hdown⟩ := txCtrs_apart p
  have hbegun : (s.replayBegun p from_).ctr (Ctr.LNK_REPLAY_COUNT p) = s.ctr (Ctr.LNK_REPLAY_COUNT p) + 1 := State.ctr_bump_self _ _
  rw [State.startReplay_eq]
  split
  · rw [State.ctr_linkDown hlow hdiscard habort hdown, hbegun]
  · exact hbegun

theorem State.lk_startReplay_below (h : (s.lk p).replayRun + 1 < max 1 (s.g (Reg.LNK_REPLAY_CFG.limit p))) : (s.startReplay p from_).lk p =
    { s.lk p with replaying := true, replayAt := from_, replayRun := (s.lk p).replayRun + 1, timerFrom := some s.cycles } := by
  rw [State.startReplay_eq, if_neg (Nat.not_le.mpr h), State.replayBegun, State.lk_bump, State.lk_setLk_self]

/-- R129: the limit takes the link down. -/
theorem State.lk_startReplay_limit (h : max 1 (s.g (Reg.LNK_REPLAY_CFG.limit p)) ≤ (s.lk p).replayRun + 1) :
    ((s.startReplay p from_).lk p).st = .down ∧ ((s.startReplay p from_).lk p).downCause = 2 := by
  rw [State.startReplay_eq, if_pos h, State.lk_linkDown_self]
  exact ⟨rfl, rfl⟩

end

/-- Settles O31: each command by its equation where its condition holds, and what it leaves of its engine. -/
theorem bricksSent : Obligations.BricksSent := by
  refine ⟨fun s p seq ack b hp ho hst => ?deaf, fun s s1 s2 u p seq ack b hp ho h1 h2 hu => ⟨fun hst => ?idle, fun hst hup => ?up⟩,
    fun s p o => ⟨?level, ?offSeen⟩, fun s p l h => State.creditReturn_inRange h,
    fun s p i id k hp hst hreplay hroom htx hfirst hcur hk =>
      ⟨_, exec_brickTx hp hst hreplay hroom htx hfirst hcur hk, rfl, State.txBrick_kept⟩,
    fun s p _ _ h => exec_brickTx_waits h, fun s p hp h => ⟨_, exec_controlBrickTx hp h, rfl, s.lk_sendControl_self p⟩,
    fun s p b hp hst hreplay hfirst hb => ⟨_, exec_replayBrickTx hp hst hreplay hfirst hb, ?replayEngine, ?replayOut, ?replayCount, ?replayFrame⟩,
    fun s p t0 b r hp hst hfrom hreplay hdue =>
      ⟨_, exec_replayTimerExpiry hp hst hfrom hreplay hdue, rfl, State.ctr_startReplay hp, State.lk_startReplay_below, State.lk_startReplay_limit⟩⟩
  case deaf => rw [exec_controlBrickRx seq ack b hp ho, State.rxControl_deaf seq ack b hst]
  case idle => rw [exec_controlBrickRx seq ack b hp ho, State.rxControl_idle h1 h2 hu hst]
  case up => exact ⟨_, _, exec_controlBrickRx seq ack b hp ho, rfl, State.rxControl_up h1 h2 hu hst hup rfl⟩
  case level => rw [State.lk_farLevel_self]
  case offSeen =>
    rintro rfl
    exact s.mem_offSeen_farLevel p
  case replayEngine => exact State.lk_setLk_self _ p _
  case replayOut =>
    rw [State.setLk_out]
    exact State.bumpBy_out _ _ 1
  case replayCount =>
    obtain ⟨hapart, -⟩ := txCtrs_apart p
    rw [State.ctr_setLk, State.ctr_bump_self, State.ctr_sendBrick, State.ctr_bump_ne _ hapart]
  case replayFrame =>
    exact State.setLk_stays p _ ⟨by decide⟩ (State.bump_stays _ ⟨by decide⟩ (State.sendBrick_stays p _ _ _ ⟨by decide⟩ (Stays.refl s)))

end Sys2Proof.Machine
end

section
/-! The moves of a link engine between DOWN, INIT, UP and HOLD (R137, R139, R140, R142 to R146): the equation of each command where its condition
holds, what an INIT exchange leaves, and its completion. -/
namespace Sys2Proof.Machine

/-! ### INIT begins (R137, R142) -/

theorem State.lk_startInit_self (s : State) (p : Nat) (resume : Bool) : (s.startInit p resume).lk p =
    { (s.lk p).exchange resume with initAt := s.nowAt, markDue := (s.lk p).markDue || s.mode == .strap } := s.lk_onLk_self p _

/-- R142: a resume exchange keeps what waits in the replay buffer. -/
theorem State.startInit_resume (s : State) (p : Nat) : ((s.startInit p true).lk p).st = .init ∧ ((s.startInit p true).lk p).initResume = true ∧
    ((s.startInit p true).lk p).replay = (s.lk p).replay ∧ Sys2Proof.OnlyWrites [.lnk] s (s.startInit p true) := by
  rw [State.lk_startInit_self]
  exact ⟨rfl, rfl, rfl, State.startInit_stays p true (Has.refl _) (Stays.refl s)⟩

theorem exec_linkInitStart {s : State} {p : Nat} (hp : p < 64) (hst : (s.lk p).st = .down) (hphy : s.phyUp p = true)
    (hpermit : s.linkPermit p = true) (hwait : (s.lk p).waitPhy = false)
    (hholdoff : (s.lk p).waitHoldoff = true → s.g (Reg.LNK_CTRL.holdoff p) ≤ s.over (s.lk p).downAt) :
    exec (.linkInitStart p) s = .next ((s.onLk p (fun k => { k with kaCount := 0 })).startInit p false) :=
  if_pos ⟨hp, hst, hphy, hpermit, by simp [hwait], hholdoff⟩

theorem exec_phyUp {s : State} {p : Nat} (hp : p < 64) (hphy : s.phyUp p = true) (hst : (s.lk p).st = .hold) :
    exec (.phyUp p) s = .next (s.startInit p true) := if_pos ⟨hp, hphy, hst⟩

theorem exec_linkReinit {s : State} {p : Nat} (hp : p < 64) (hmode : s.mode ≠ .fenced) (hst : (s.lk p).st = .up) :
    exec (.linkReinit p) s = .next (s.startInit p true) := (if_pos ⟨hp, hmode⟩).trans (congrArg Host.Outcome.next (if_pos hst))

/-! ### DOWN and HOLD (R137, R139, R146) -/

theorem exec_initTimeout {s : State} {p : Nat} (hp : p < 64) (hst : (s.lk p).st = .init)
    (hdue : s.g (Reg.LNK_CTRL.init_limit p) ≤ s.over (s.lk p).initAt) : exec (.initTimeout p) s = .next (s.linkDown p 4) :=
  if_pos ⟨hp, hst, hdue⟩

theorem exec_keepaliveTimeout {s : State} {p : Nat} (hp : p < 64) (hst : (s.lk p).st = .init ∨ (s.lk p).st = .up ∨ (s.lk p).st = .hold)
    (hdue : max 4 (s.g (Reg.LNK_CTRL.ka_limit p)) ≤ (s.lk p).kaCount) :
    exec (.keepaliveTimeout p) s = .next (s.linkDown p (if s.phyUp p then 1 else 6)) := if_pos ⟨hp, hst, hdue⟩

theorem exec_phyDown {s : State} {p : Nat} (hp : p < 64) (hphy : s.phyUp p = false) : exec (.phyDown p) s = .next (s.phyFell p) :=
  if_pos ⟨hp, by simp [hphy]⟩

theorem State.lk_phyFell_up {s : State} {p : Nat} (h : (s.lk p).st = .up) : (s.phyFell p).lk p = { s.lk p with st := .hold } := by
  simp [State.phyFell, h]

theorem State.lk_phyFell_down {s : State} {p : Nat} (h : (s.lk p).st = .down) : (s.phyFell p).lk p = { s.lk p with waitPhy := false } := by
  simp [State.phyFell, h]

theorem exec_fenceBrickRx {s : State} {p : Nat} (hp : p < 64) (ho : s.mode ≠ .off) :
    exec (.fenceBrickRx p) s = .next (if (s.lk p).hears then (s.validBrick p).linkDown p 3 else s.validBrick p) :=
  if_pos (State.receives_of hp ho)

/-! ### INIT bricks received (R137, R142, R143) -/

theorem exec_initBrickRx {s : State} {p : Nat} (b : Data) (hp : p < 64) (ho : s.mode ≠ .off) :
    exec (.initBrickRx p b) s = .next (s.initRx p b) := if_pos (State.receives_of hp ho)

theorem State.reinit_eq_self {s : State} {p : Nat} (h : (s.lk p).st ≠ .up) : s.reinit p = s := if_neg h

/-- R132: an error in the credits touches no link that is not UP. -/
theorem State.st_creditReturn {s : State} {p : Nat} (l : List Nat) (h : (s.lk p).st ≠ .up) : ((s.creditReturn p l).lk p).st = (s.lk p).st := by
  unfold State.creditReturn
  dsimp only
  split
  · unfold State.protoError
    rw [State.reinit_eq_self (by rwa [State.lk_raise, State.lk_bump, State.lk_setLk_self]), State.lk_raise, State.lk_bump, State.lk_setLk_self]
  · rw [State.lk_setLk_self]

theorem State.st_initLevels {s : State} {p : Nat} (b : Data) (h : (s.lk p).st ≠ .up) : ((s.initLevels p b).lk p).st = (s.lk p).st := by
  have hfar : ((s.farLevel p (b.field 6 1 1 == 1)).lk p).st = (s.lk p).st := by rw [State.lk_farLevel_self]
  rw [State.initLevels, State.st_creditReturn _ (by rwa [hfar]), hfar]

/-- R142: the tag of the INIT and the time of its arrival, whatever its levels do. -/
theorem State.lk_noteInit_self (s : State) (p : Nat) (b : Data) : ∃ other, (s.noteInit p b).lk p =
    { (s.initLevels p b).lk p with echo := some (b.field 7 0 8, s.ticks), farChanged := other } := ⟨_, State.lk_onLk_self _ p _⟩

section
variable {s : State} {p : Nat} (b : Data)

theorem State.initRx_init (h : (s.lk p).st = .init) : s.initRx p b = (s.validBrick p).rxInit p b := by simp only [State.initRx, h]

theorem State.initRx_up (h : (s.lk p).st = .up) : s.initRx p b = ((s.validBrick p).noteInit p b).startInit p true := by
  simp only [State.initRx, h]

theorem State.initRx_hold (h : (s.lk p).st = .hold) : s.initRx p b = (s.validBrick p).noteInit p b := by simp only [State.initRx, h]

theorem State.initRx_deaf (h : (s.lk p).st = .down ∨ (s.lk p).st = .fencing) : s.initRx p b = s.validBrick p := by
  rcases h with h | h <;> simp only [State.initRx, h]

end

/-! ### INIT bricks sent, and UP (R137, R142, R144, R145) -/

/-- R142: an INIT brick sent, before it is asked whether it completes the exchange. -/
def State.initSent (s : State) (p : Nat) : State :=
  (s.putBrick p (brickBytes 9 0 0 (s.initBody p))).setLk p
    { s.lk p with probeTag := ((s.lk p).probeTag + 1) % 256, probes := Tbl.ins (s.lk p).probes (s.lk p).probeTag s.ticks,
                  readySent := if (s.lk p).initHeard then (s.lk p).readySent + 1 else (s.lk p).readySent }

theorem exec_initBrickTx {s : State} {p : Nat} (hp : p < 64) (hst : (s.lk p).st = .init) :
    exec (.initBrickTx p) s = .next ((s.initSent p).tryUp p) := if_pos ⟨hp, hst⟩

theorem State.core_setHeadroom (s : State) (p q : Nat) : ((s.setHeadroom p).lk q).core = (s.lk q).core := by
  have hput : ∀ h, (((s.put (Reg.LNK_POOL_CFG.headroom p) h).lk q)).core = (s.lk q).core := fun h => congrArg Lnk.core (s.lk_put _ h q)
  unfold State.setHeadroom
  dsimp only
  split
  · split
    · rw [State.lk_raise, ← hput 4096]
      exact State.core_setLk (by rfl) q
    · exact hput _
  · rfl

/-- R137: the exchange is complete: a resumed link or a fresh one. -/
def State.upEntered (s : State) (p : Nat) (x : Bool × Nat × Bool) : State :=
  if x.1 && (s.lk p).initResume then s.upResume p x.2.1 x.2.2 else s.upFresh p

/-- Both ways an engine enters UP with the number 0 expected (R123), and it shows which it was (R144, R145). -/
theorem State.lk_upEntered (s : State) (p : Nat) (x : Bool × Nat × Bool) : ((s.upEntered p x).lk p).st = .up ∧
    ((s.upEntered p x).lk p).expected = 0 ∧ ((s.upEntered p x).lk p).resumed = (x.1 && (s.lk p).initResume) := by
  unfold State.upEntered
  split
  next h =>
    unfold State.upResume
    rw [State.lk_bumpIf, State.lk_bump, State.lk_setLk_self]
    exact ⟨rfl, rfl, h.symm⟩
  next h =>
    unfold State.upFresh
    rw [State.lk_onLk_self]
    exact ⟨rfl, rfl, ((Bool.not_eq_true _).mp h).symm⟩

theorem State.tryUp_complete {s : State} {p : Nat} {x : Bool × Nat × Bool} (hready : (s.lk p).readyHeard = some x) (hst : (s.lk p).st = .init)
    (hsent : 8 ≤ (s.lk p).readySent) (hsamples : 8 ≤ (s.lk p).samples) :
    s.tryUp p = (((s.upEntered p x).level (srcLnk p 5) false p).setHeadroom p).poolOff p := by
  unfold State.tryUp
  simp only [hready]
  exact if_pos ⟨hst, hsent, hsamples⟩

theorem State.tryUp_incomplete {s : State} {p : Nat}
    (h : (s.lk p).st ≠ .init ∨ (s.lk p).readySent < 8 ∨ (s.lk p).samples < 8 ∨ (s.lk p).readyHeard = none) : s.tryUp p = s := by
  unfold State.tryUp
  dsimp only
  split
  · rfl
  next hready =>
    refine if_neg fun ⟨hst, hsent, hsamples⟩ => ?_
    rcases h with h | h | h | h
    · exact h hst
    · omega
    · omega
    · rw [h] at hready
      cases hready

/-- Settles O32: each command by its equation, each state it leaves by what entry to that state makes of the engine. -/
theorem linkEngine : Obligations.LinkEngine := by
  unfold Obligations.LinkEngine
  intro downAs
  have hdown : ∀ s p c, downAs s (s.linkDown p c) p c := fun s p c => by
    refine ⟨rfl, ?_⟩
    rw [State.lk_linkDown_self]
    exact ⟨rfl, rfl, rfl⟩
  refine ⟨fun s p hp hst hphy hpermit hwait hholdoff => ⟨_, exec_linkInitStart hp hst hphy hpermit hwait hholdoff, ?initStart⟩,
    fun s p hp hst hdue => ⟨_, exec_initTimeout hp hst hdue, hdown s p 4⟩,
    fun s p hp hst hdue => ⟨_, exec_keepaliveTimeout hp hst hdue, hdown s p _⟩,
    fun s p hp hphy hst => ⟨_, exec_phyDown hp hphy, State.lk_phyFell_up hst, State.phyFell_stays p (Has.refl _) (Stays.refl s)⟩,
    fun s p hp hphy hst => ⟨_, exec_phyDown hp hphy, State.lk_phyFell_down hst, State.phyFell_stays p (Has.refl _) (Stays.refl s)⟩,
    fun s p hp hphy hst => ⟨_, exec_phyUp hp hphy hst, s.startInit_resume p⟩,
    fun s p hp hmode hst => ⟨_, exec_linkReinit hp hmode hst, s.startInit_resume p⟩,
    fun s p hp ho hst => ⟨_, exec_fenceBrickRx hp ho, ?fenced⟩, fun s p hp ho hst => ?fenceDeaf,
    fun s p b hp ho => ⟨_, exec_initBrickRx b hp ho, State.initRx_init b, fun hst => ?initUp, fun hst => ?initHold, State.initRx_deaf b⟩,
    fun s p hp hst => ⟨_, s.initSent p, exec_initBrickTx hp hst, rfl, ?tag, ?sentCount, rfl⟩,
    fun s p x hready hst hsent hsamples => ?complete, fun s p => State.tryUp_incomplete⟩
  case initStart =>
    rw [State.lk_startInit_self, State.lk_onLk_self]
    exact ⟨rfl, rfl, rfl, rfl, State.startInit_stays p false (Has.refl _) (State.onLk_stays p _ (Has.refl _) (Stays.refl s))⟩
  case fenced =>
    rw [if_pos ((Lnk.hears_iff _).mpr (by tauto))]
    exact ⟨hdown _ p 3, by rw [State.lk_linkDown_self]; rfl⟩
  case fenceDeaf => rw [exec_fenceBrickRx hp ho, if_neg (Lnk.not_hears hst)]
  case initUp =>
    obtain ⟨other, hnoted⟩ := State.lk_noteInit_self (s.validBrick p) p b
    rw [State.initRx_up b hst, State.lk_startInit_self, hnoted]
    exact ⟨rfl, rfl, rfl, rfl, rfl⟩
  case initHold =>
    obtain ⟨other, hnoted⟩ := State.lk_noteInit_self (s.validBrick p) p b
    have hvalid : ((s.validBrick p).lk p).st = .hold := by rw [State.lk_validBrick_self, hst]
    rw [State.initRx_hold b hst, hnoted]
    exact ⟨rfl, (State.st_initLevels b (by simp [hst])).trans hvalid, rfl⟩
  case tag => exact congrArg Lnk.probeTag (State.lk_setLk_self _ p _)
  case sentCount => rw [State.initSent, State.ctr_setLk, State.ctr_putBrick, State.ctr_bump_self]
  case complete =>
    obtain ⟨hup, hexpected, hresumed⟩ := s.lk_upEntered p x
    have hcore : ((s.tryUp p).lk p).core = ((s.upEntered p x).lk p).core := by
      rw [State.tryUp_complete hready hst hsent hsamples, State.core_poolOff, State.core_setHeadroom, State.lk_level]
    obtain ⟨hst', hexpected', -, -, hresumed'⟩ := Lnk.fields_of_core hcore
    exact ⟨hst'.trans hup, hexpected'.trans hexpected, hresumed'.trans hresumed⟩

end Sys2Proof.Machine
end

section
/-! The route stage and the congestion map's packets (R68, R158, R160, R164 to R166, R172): what PACKET_ROUTE makes of the first unrouted
packet, what CONG_ROW_RX and CONG_COL_RX make of a map packet, and what the device's own CONG_COL leaves in the inputs. -/
namespace Sys2Proof.Machine

/-! ### Input buffers -/

theorem State.inq_setInq_self (s : State) (i : Nat) (l : List InPkt) : (s.setInq i l).inq i = l := Tbl.get_put_self _ _ i l

theorem State.inq_setInq_ne (s : State) {i k : Nat} (l : List InPkt) (h : k ≠ i) : (s.setInq i l).inq k = s.inq k :=
  Tbl.get_put_ne _ _ l h.symm

theorem State.inq_of_rte {s t : State} (h : t.rte.inq = s.rte.inq) (i : Nat) : t.inq i = s.inq i := by rw [State.inq, State.inq, h]

theorem State.rte_freeForms (s : State) (i vc : Nat) (forms : List Bool) : (s.freeForms i vc forms).rte = s.rte :=
  (State.freeForms_stays i vc forms (Has.refl _) (Stays.refl s)).rte (by decide)

section
variable {p : InPkt} (hwhole : p.len ≤ p.got)
include hwhole

/-- R133: a packet that has arrived whole leaves the input at once when it is discarded. -/
theorem State.discard_whole (s : State) (i : Nat) : s.discard i p = (s.freeForms i p.vc p.forms).delPkt i p.id := if_pos (.inl hwhole)

theorem State.rte_discard_whole (s : State) (i : Nat) : (s.discard i p).rte =
    { s.rte with inq := Tbl.put (fun _ => []) s.rte.inq i ((s.inq i).filter (fun x => x.id != p.id)) } := by
  rw [State.discard_whole hwhole, State.delPkt, State.setInq_rte, State.inq_of_rte (congrArg Rte.inq (s.rte_freeForms i p.vc p.forms)),
    s.rte_freeForms]

theorem State.inq_discard_whole (s : State) (i : Nat) : (s.discard i p).inq i = (s.inq i).filter (fun x => x.id != p.id) := by
  rw [State.inq, State.rte_discard_whole hwhole]
  exact Tbl.get_put_self _ _ i _

end

/-! ### PACKET_ROUTE (R157, R158, R160, R172, R553) -/

/-- R160: the age of a packet, for a birth that fits its field. -/
theorem State.lifeCheck_eq (s : State) {b d : Nat} (hb : b < 65536) (hd : d = (s.course % 65536 + 65536 - b) % 65536) :
    s.lifeCheck b = if d ≤ s.life ∨ d = 65535 then none else some (decide (d ≤ 32767)) := by
  have hdist : serialDist b (s.course % 65536) 16 = d := by
    rw [serialDist, hd]
    omega
  rw [State.lifeCheck, hdist]

section
variable {s : State} {i : Nat} {p : InPkt}

theorem exec_packetRoute (hp : s.unrouted i = some p) (hr : s.routing = true) : exec (.packetRoute i) s = .next (s.routePkt i p) := by
  change execPacketRoute i s = _
  simp only [execPacketRoute, hp, hr, if_true]

theorem State.routePkt_badHeader (h : badHeader p.head.hdr = true) : s.routePkt i p = s.routeDrop i p Ctr.RTE_HDR_ERR_COUNT 1 := if_pos h

theorem State.routePkt_train (hgood : badHeader p.head.hdr = false) (hmode : s.mode = .train) (hcls : Hdr.cls p.head.hdr ≠ 3) :
    s.routePkt i p = (s.bump Ctr.RTE_MODE_DROP_COUNT).discard i p :=
  (if_neg (by simp [hgood])).trans (if_pos ⟨hmode, hcls⟩)

section
variable (hgood : badHeader p.head.hdr = false) (hmode : s.mode ≠ .train)
  (hservice : i < 64 → Hdr.vc p.head.hdr ≠ 7 → s.role (Hdr.setTag p.head.hdr) i ≠ 4)
  (htype : ¬ Hdr.type p.head.hdr ∈ [0x3E, 0x3F, 0x34, 0x35])
include hgood hmode hservice htype

/-- R160, R172: a packet that has passed the checks before is judged by its life, then by its class. -/
theorem State.routePkt_checked : s.routePkt i p = (s.lifeCheck (Hdr.birth p.head.hdr)).elim
    (if Hdr.cls p.head.hdr = 3 then s.toOut i p 71
     else if Hdr.cls p.head.hdr = 2 then (if Hdr.dst p.head.hdr = s.me then s.toOut i p 70 else s.misrouteDrop i p)
     else s.routeArrived i p) (s.lifeDrop i p) := by
  simp only [List.mem_cons, List.not_mem_nil, or_false, not_or] at htype
  obtain ⟨hrow, hcol, hreq, hdata⟩ := htype
  unfold State.routePkt
  dsimp only
  rw [if_neg (by simp [hgood]), if_neg (by tauto), if_neg (by tauto), if_neg (by tauto), if_neg (by tauto)]
  cases s.lifeCheck (Hdr.birth p.head.hdr) <;> rfl

end

/-! ### Map packets that arrive (R158, R166) -/

/-- R166: what CONG_ROW_RX enters in the map. -/
def State.keepRow (i : Nat) (t : State) (p : InPkt) : State :=
  { t with rte := { t.rte with rows := Tbl.ins t.rte.rows (t.peer t.crs.active i) (p.head.field 16 0 64) } }

/-- R166: what CONG_COL_RX enters in the map. -/
def State.keepCol (i : Nat) (t : State) (p : InPkt) : State :=
  { t with rte := { t.rte with cols := Tbl.ins t.rte.cols (t.peer t.crs.active i) (p.data.field 16 0 1024, p.data.field 144 0 16) } }

/-- The two commands take their packet alike; each enters its own part of the map, and neither touches the inputs. -/
theorem exec_mapPacketRx {r : Nat} {c : Instr} (hi : i < 64)
    (hc : (c = .congRowRx i ∧ Hdr.type p.head.hdr = 0x3E ∧ r = 1) ∨ (c = .congColRx i ∧ Hdr.type p.head.hdr = 0x3F ∧ r = 2)) :
    ∃ keep, exec c s = .next (s.congRx i (Hdr.type p.head.hdr) r keep) ∧ (keep s p).inq i = s.inq i ∧
      (r = 1 → Tbl.find? (keep s p).rte.rows (s.peer s.crs.active i) = some (p.head.field 16 0 64)) ∧
      (r = 2 → Tbl.find? (keep s p).rte.cols (s.peer s.crs.active i) = some (p.data.field 16 0 1024, p.data.field 144 0 16)) := by
  rcases hc with ⟨rfl, hty, rfl⟩ | ⟨rfl, hty, rfl⟩ <;> rw [hty]
  · exact ⟨State.keepRow i, if_pos hi, rfl, fun _ => Tbl.find?_ins_self _ _ _, fun h => absurd h (by decide)⟩
  · exact ⟨State.keepCol i, if_pos hi, rfl, fun h => absurd h (by decide), fun _ => Tbl.find?_ins_self _ _ _⟩

theorem State.routing_of_live (h : s.live = true) : s.routing = true := by simp [State.routing, h]

section
variable {r : Nat} (keep : State → InPkt → State) (hp : s.unrouted i = some p) (hwhole : p.len ≤ p.got)
  (hgood : badHeader p.head.hdr = false) (hlive : s.live = true)
include hp hwhole hgood hlive

/-- R158, R166 steps 1 and 2: a whole map packet with a good header is judged by its sender, then by its course. -/
theorem State.congRx_eq : s.congRx i (Hdr.type p.head.hdr) r keep =
    if s.role s.crs.active i ≠ r ∨ Hdr.src p.head.hdr ≠ (s.pp i).farDevice ∨ ¬ (s.pp i).farValid then s.misrouteDrop i p
    else if Hdr.birth p.head.hdr ≠ s.course % 65536 then (s.bump Ctr.RTE_MAP_LATE_COUNT).discard i p
    else (keep s p).discard i p := by
  have hr : s.routing = true := State.routing_of_live hlive
  simp only [State.congRx, hp]
  rw [if_neg (by simp [hr, hwhole]), if_neg (by simp [hgood]), if_neg (by simp [hlive])]

theorem State.congRx_stranger
    (h : s.role s.crs.active i ≠ r ∨ Hdr.src p.head.hdr ≠ (s.pp i).farDevice ∨ (s.pp i).farValid = false) :
    s.congRx i (Hdr.type p.head.hdr) r keep = s.misrouteDrop i p := by
  rw [State.congRx_eq keep hp hwhole hgood hlive, if_pos (by simpa using h)]

section
variable (hrole : s.role s.crs.active i = r) (hsrc : Hdr.src p.head.hdr = (s.pp i).farDevice) (hvalid : (s.pp i).farValid = true)
include hrole hsrc hvalid

theorem State.congRx_late (hbirth : Hdr.birth p.head.hdr ≠ s.course % 65536) :
    s.congRx i (Hdr.type p.head.hdr) r keep = (s.bump Ctr.RTE_MAP_LATE_COUNT).discard i p := by
  rw [State.congRx_eq keep hp hwhole hgood hlive, if_neg (by simp [hrole, hsrc, hvalid]), if_pos hbirth]

theorem State.congRx_kept (hbirth : Hdr.birth p.head.hdr = s.course % 65536) : s.congRx i (Hdr.type p.head.hdr) r keep = (keep s p).discard i p := by
  rw [State.congRx_eq keep hp hwhole hgood hlive, if_neg (by simp [hrole, hsrc, hvalid]), if_neg (by simp [hbirth])]

end
end
end

/-! ### The device's own CONG_COL (R68, R165) -/

theorem exec_congColTx_due {s : State} (hlive : s.live = true) (hsent : s.rte.colSent = false) (hfrom : 256 ≤ s.crs.cycle)
    (hto : s.crs.cycle ≤ 895)
    (hheard : (∀ p ∈ s.rowPorts.filter s.up, (s.rte.rows.map Prod.fst).contains (s.peer s.crs.active p) = true) ∨ 640 ≤ s.crs.cycle) :
    exec .congColTx s = .next { s.sendCongCols false with rte := { (s.sendCongCols false).rte with colSent := true } } :=
  if_pos ⟨hlive, by simp [hsent], hfrom, hto, hheard.imp_left List.all_eq_true.mpr⟩

theorem exec_congColTx_idle {s : State} (h : s.rte.colSent = true ∨ s.crs.cycle < 256 ∨ 895 < s.crs.cycle) : exec .congColTx s = .next s := by
  refine if_neg fun ⟨_, hsent, hfrom, hto, _⟩ => ?_
  rcases h with h | h | h
  · exact hsent h
  · omega
  · omega

/-- The received map is as it was, and no input has lost a packet. -/
structure State.Joined (s t : State) : Prop where
  rows : t.rte.rows = s.rte.rows
  inputs : ∀ i, (s.inq i).length ≤ (t.inq i).length

theorem State.Joined.refl (s : State) : s.Joined s := ⟨rfl, fun _ => le_rfl⟩

theorem State.Joined.trans {a b c : State} (h : a.Joined b) (k : b.Joined c) : a.Joined c :=
  ⟨k.rows.trans h.rows, fun i => (h.inputs i).trans (k.inputs i)⟩

theorem State.Joined.of_rte {s t : State} (h : t.rte = s.rte) : s.Joined t :=
  ⟨congrArg Rte.rows h, fun i => by rw [State.inq_of_rte (congrArg Rte.inq h)]⟩

theorem State.Joined.append (s : State) (k n : Nat) (l : List InPkt) :
    s.Joined (({ s with rte := { s.rte with nextId := n } }).setInq k (s.inq k ++ l)) := by
  refine ⟨rfl, fun i => ?_⟩
  by_cases hi : i = k
  · rw [hi, State.inq_setInq_self, List.length_append]
    exact Nat.le_add_right _ _
  · rw [State.inq_setInq_ne _ _ hi]
    exact le_rfl

/-- R194: a packet that enters at a hub port takes nothing from any input. -/
theorem State.hubTo_joined (s : State) (h : Nat) (dest : Option Nat) (d : Data) : s.Joined (s.hubTo h dest d) := by
  unfold State.hubTo
  dsimp only
  refine State.Joined.trans ?_ (State.Joined.append _ _ _ _)
  split
  · exact .of_rte ((State.freshQueue_stays _ _ (Has.refl _) (Stays.refl s)).rte (by decide))
  · exact .refl s

theorem State.sendCongCols_joined (s : State) (late : Bool) : s.Joined (s.sendCongCols late) := by
  have hall : ∀ (l : List Nat) (t : State), t.Joined (l.foldl (fun t p =>
      t.hubTo 7 (some p) (mkPacket (s.congHdr p 3 0x3F late) s.congColBody)) t) := fun l => by
    induction l with
    | nil => exact State.Joined.refl
    | cons p l ih => exact fun t => (t.hubTo_joined 7 (some p) _).trans (ih _)
  exact hall s.relayPorts s

/-- Settles O33: each command by its equations, the map and the inputs by what a discard and a new packet leave of them. -/
theorem routing : Obligations.Routing := by
  unfold Obligations.Routing
  refine ⟨fun s i p hp hr => ⟨_, exec_packetRoute hp hr, State.routePkt_badHeader, State.routePkt_train, fun hgood hmode hservice htype =>
      ⟨fun old hlife => ?expired, fun hlife hcls => ?mgmt, fun hlife hcls hdst => ?here,
        fun hlife hcls => ?path⟩⟩,
    fun s b hb => ⟨_, rfl, s.lifeCheck_eq hb rfl⟩,
    fun s i r p c hi hp hwhole hgood hlive hc => ?map,
    fun s hlive hsent hfrom hto hheard => ⟨_, _, exec_congColTx_due hlive hsent hfrom hto hheard, rfl, rfl, ?sent⟩,
    fun s => exec_congColTx_idle⟩
  case expired =>
    rw [State.routePkt_checked hgood hmode hservice htype, hlife]
    rfl
  case mgmt => rw [State.routePkt_checked hgood hmode hservice htype, hlife, Option.elim_none, if_pos hcls]
  case here => rw [State.routePkt_checked hgood hmode hservice htype, hlife, Option.elim_none, if_neg (by omega), if_pos hcls, if_pos hdst]
  case path => rw [State.routePkt_checked hgood hmode hservice htype, hlife, Option.elim_none, if_neg (by omega), if_neg (by omega)]
  case sent => exact ⟨(s.sendCongCols_joined false).rows, (s.sendCongCols_joined false).inputs⟩
  case map =>
    obtain ⟨keep, hexec, hinq, hrow, hcol⟩ := exec_mapPacketRx hi hc
    refine ⟨_, hexec, fun hrole hsrc hvalid => ⟨fun hbirth => ?_,
      State.congRx_late keep hp hwhole hgood hlive hrole hsrc hvalid⟩, State.congRx_stranger keep hp hwhole hgood hlive⟩
    rw [State.congRx_kept keep hp hwhole hgood hlive hrole hsrc hvalid hbirth, State.inq_discard_whole hwhole, State.rte_discard_whole hwhole,
      hinq]
    exact ⟨hrow, hcol, rfl⟩

end Sys2Proof.Machine
end

section
/-! The management plane (R161, R497, R499 to R504): where the forwarder sends the packet at hub port 7, what the register agent answers, and
who takes a delivered message. -/
namespace Sys2Proof.Machine

/-! ### MGMT_FORWARD (R161, R500) -/

section
variable {s : State} {d : Data} {port : Nat} {r : List (Data × Nat)} (hq : s.hubQ 7 = (d, port) :: r) (hrun : s.mgRuns = true)
include hq hrun

theorem exec_mgmtForward_badHeader (hcrc : Hdr.crcOk d.hdr = false) :
    exec .mgmtForward s = .next (((s.hubPop 7).bump Ctr.RTE_HDR_ERR_COUNT).raise (srcRte 1) 0 71) := by
  change execMgmtForward s = _
  simp only [execMgmtForward, hq]
  rw [if_neg (by simp [hrun]), if_pos (by simp [hcrc])]

section
variable (hcrc : Hdr.crcOk d.hdr = true)
include hcrc

theorem exec_mgmtForward_otherType (htype : 0x36 ≤ Hdr.type d.hdr) :
    exec .mgmtForward s = .next ((s.hubPop 7).bump Ctr.MGT_DROP_COUNT) := by
  change execMgmtForward s = _
  simp only [execMgmtForward, hq]
  rw [if_neg (by simp [hrun]), if_neg (by simp [hcrc]), if_pos htype]

section
variable (htype : Hdr.type d.hdr < 0x34)
include htype

theorem exec_mgmtForward_expired {old : Bool} (hlife : s.lifeCheck (Hdr.birth d.hdr) = some old) : exec .mgmtForward s = .next
    (((s.hubPop 7).bump (if old then Ctr.RTE_LIFE_DROP_COUNT else Ctr.RTE_FUTURE_DROP_COUNT)).raise (srcRte 0) 0 71) := by
  have hmg : s.mgLife (Hdr.type d.hdr) d.hdr = some old := (if_neg (by omega)).trans hlife
  change execMgmtForward s = _
  simp only [execMgmtForward, hq, hmg]
  rw [if_neg (by simp [hrun]), if_neg (by simp [hcrc]), if_neg (by omega)]

/-- R500: what the forwarder does with a routed packet that has passed its checks. -/
theorem exec_mgmtForward_routed (hlife : s.lifeCheck (Hdr.birth d.hdr) = none) (hmode : s.mode ≠ .strap) (hroute : (MgH.of d).rlen = 0) :
    exec .mgmtForward s = .next (
      if (MgH.of d).dstDev = s.me then (s.hubPop 7).mgDeliver (d.patch 16 (MgH.of d).data) port
      else if Hdr.hops d.hdr = 15 then (s.hubPop 7).mgDrop port
      else ((s.hubPop 7).mgPort (MgH.of d)).elim ((s.hubPop 7).mgDrop port) fun p =>
        ((s.hubPop 7).mgOut p (Hdr.type d.hdr) (Hdr.birth d.hdr) (Hdr.setTag d.hdr) (Hdr.hops d.hdr)
          ((MgH.of d).data.append (d.slice 48 (d.len - 48)))).bump Ctr.MGT_FWD_COUNT) := by
  have hmg : s.mgLife (Hdr.type d.hdr) d.hdr = none := (if_neg (by omega)).trans hlife
  change execMgmtForward s = _
  simp only [execMgmtForward, hq, hmg, hroute, true_or, if_true]
  rw [if_neg (by simp [hrun]), if_neg (by simp [hcrc]), if_neg (by omega), if_neg (by omega), if_neg hmode]
  by_cases hhere : (MgH.of d).dstDev = s.me
  · simp only [hhere, and_self, true_or, if_true]
  · rw [if_neg (by simp [hhere]), if_neg hhere]
    by_cases hhops : Hdr.hops d.hdr = 15
    · rw [if_pos hhops, if_pos hhops]
    · rw [if_neg hhops, if_neg hhops]
      cases (s.hubPop 7).mgPort (MgH.of d) <;> rfl

end
end
end

/-! ### The register agent (R502 to R504) -/

section
variable {s u : State} {x : MgIn}

theorem exec_mgReadRx (hrun : s.agentRuns = true) (h : s.mgTake [0x30] = some (x, u)) :
    exec .mgReadRx s = .next (u.agent (MgH.of x.d) false Data.empty) := by
  change execMgReadRx s = _
  simp only [execMgReadRx, h, hrun, if_true]

theorem exec_mgWriteRx (hrun : s.agentRuns = true) (h : s.mgTake [0x31] = some (x, u)) :
    exec .mgWriteRx s = .next (u.agent (MgH.of x.d) true (x.d.slice 48 256)) := by
  change execMgWriteRx s = _
  simp only [execMgWriteRx, h, hrun, if_true]

end

section
variable {s : State} {m : MgH}

theorem State.agent_otherEndpoint (w : Bool) (d : Data) (hep : m.dstEp ≠ 0x02) : s.agent m w d = s.mgReply m 0x04 [] := if_pos hep

section
variable (hep : m.dstEp = 0x02)
include hep

theorem State.agent_repeated {k : Nat} {a : Data} (w : Bool) (d : Data)
    (hkept : s.mgt.answered.find? (fun e => e.1 == m.key) = some (k, a)) : s.agent m w d =
      (s.bump Ctr.MGT_DUP_COUNT).mgReply m (a.field 0 0 32) ((List.range (a.len / 4 - 1)).map (fun i => a.field (4 + 4 * i) 0 32)) := by
  simp only [State.agent, hkept]
  exact if_neg (not_not_intro hep)

section
variable (hnew : s.mgt.answered.find? (fun e => e.1 == m.key) = none)
include hnew

/-- R502 to R504: a request that was not answered before. -/
theorem State.agent_new (w : Bool) (d : Data) : s.agent m w d =
    if (w = true ∨ m.inRbk = true) ∧ ¬ s.originOk m.origin = true then
      ((s.bump Ctr.MGT_REFUSE_COUNT).raise (srcMgt 1) 0 m.origin).agentAnswer m 0x01 []
    else if m.badRange = true then s.agentAnswer m 0x02 []
    else if w = true then (((s.bump Ctr.MGT_AGENT_REQ_COUNT).agentWrite m.addr d m.count).settle).agentAnswer m 0x00 []
    else ((s.bump Ctr.MGT_AGENT_REQ_COUNT).agentRead m.addr m.count).1.agentAnswer m 0x00
      ((s.bump Ctr.MGT_AGENT_REQ_COUNT).agentRead m.addr m.count).2 := by
  simp only [State.agent, hnew]
  exact if_neg (not_not_intro hep)

theorem State.agent_refused {w : Bool} (d : Data) (hreach : w = true ∨ m.inRbk = true) (horigin : s.originOk m.origin = false) :
    s.agent m w d = ((s.bump Ctr.MGT_REFUSE_COUNT).raise (srcMgt 1) 0 m.origin).agentAnswer m 0x01 [] := by
  rw [State.agent_new hep hnew, if_pos ⟨hreach, by simp [horigin]⟩]

theorem State.agent_badRange (w : Bool) (d : Data) (horigin : s.originOk m.origin = true) (hrange : m.badRange = true) :
    s.agent m w d = s.agentAnswer m 0x02 [] := by
  rw [State.agent_new hep hnew, if_neg (by simp [horigin]), if_pos hrange]

theorem State.agent_reads (d : Data) (horigin : m.inRbk = false ∨ s.originOk m.origin = true) (hrange : m.badRange = false) :
    s.agent m false d = ((s.bump Ctr.MGT_AGENT_REQ_COUNT).agentRead m.addr m.count).1.agentAnswer m 0x00
      ((s.bump Ctr.MGT_AGENT_REQ_COUNT).agentRead m.addr m.count).2 := by
  rw [State.agent_new hep hnew, if_neg (by rcases horigin with h | h <;> simp [h]), if_neg (by simp [hrange]), if_neg (by decide)]

theorem State.agent_writes (d : Data) (horigin : s.originOk m.origin = true) (hrange : m.badRange = false) : s.agent m true d =
    (((s.bump Ctr.MGT_AGENT_REQ_COUNT).agentWrite m.addr d m.count).settle).agentAnswer m 0x00 [] := by
  rw [State.agent_new hep hnew, if_neg (by simp [horigin]), if_neg (by simp [hrange]), if_pos rfl]

end
end
end

/-! ### Delivered messages and responses (R501, R505) -/

section
variable {s u : State} {x : MgIn}

theorem exec_mgMsgRx_lintel (h : s.mgTake [0x33] = some (x, u)) (hep : (MgH.of x.d).dstEp = 0) : exec .mgMsgRx s =
    .next { u with ltl := { u.ltl with records := u.ltl.records ++
      [mgPayload x.d (4 * min 64 (if (MgH.of x.d).count = 0 then 64 else (MgH.of x.d).count))] } } := by
  change execMgMsgRx s = _
  simp only [execMgMsgRx, h]
  rw [if_pos hep]

theorem exec_mgMsgRx_sink (h : s.mgTake [0x33] = some (x, u)) (hep : (MgH.of x.d).dstEp = 0x02 ∨ (MgH.of x.d).dstEp = 0x03) :
    exec .mgMsgRx s = .next u := by
  change execMgMsgRx s = _
  simp only [execMgMsgRx, h]
  rw [if_neg (by omega), if_pos hep]

/-- R505: a response to anything but a read brings no words. -/
theorem exec_mgRespRx_done {m : Nat} (h : s.mgTake [0x32] = some (x, u))
    (hbox : (List.range 8).find? (fun m => (s.box m).op != 0 && (s.box m).tag == (MgH.of x.d).tag &&
      Config.mgmtEp m % 256 == (MgH.of x.d).dstEp) = some m)
    (hop : (s.box m).op ≠ 1) : exec .mgRespRx s = .next (u.boxDone m (MgH.of x.d).status) := by
  change execMgRespRx s = _
  simp only [execMgRespRx, h, hbox]
  rw [if_neg (by simp [hop])]
  rfl

end

/-! ### Mailboxes (R505) -/

section
variable {s : State} {req : Requester} {m : Nat}

theorem exec_mailbox_owner (howner : boxOwner req m = true) (hfenced : s.mode ≠ .fenced) (hoff : s.mode ≠ .off) :
    exec (.mailboxRead req m) s = .next (s.boxStart m 1) ∧ exec (.mailboxWrite req m) s = .next (s.boxStart m 2) ∧
    exec (.mailboxMsg req m) s = .next (s.boxStart m 3) :=
  have h : boxOwner req m = true ∧ s.mode ≠ .fenced ∧ s.mode ≠ .off := ⟨howner, hfenced, hoff⟩
  ⟨if_pos h, if_pos h, if_pos h⟩

theorem exec_mailbox_other (howner : boxOwner req m = false) : exec (.mailboxRead req m) s = .next s ∧ exec (.mailboxWrite req m) s = .next s ∧
    exec (.mailboxMsg req m) s = .next s :=
  have h : ¬ (boxOwner req m = true ∧ s.mode ≠ .fenced ∧ s.mode ≠ .off) := fun h => by simp [howner] at h
  ⟨if_neg h, if_neg h, if_neg h⟩

section
variable (hop : (s.box m).op ≠ 0) (hcount : s.counting = true) (hdue : max 1 (s.g Reg.MGT_MG_CFG.retry_courses) ≤ s.over (s.box m).sent)
include hop hcount hdue

theorem exec_mailboxRetry_resends (hleft : (s.box m).resends < s.g Reg.MGT_MG_CFG.retries) : exec (.mailboxRetry m) s = .next
    ((s.setBox m { s.box m with resends := (s.box m).resends + 1, sent := s.nowAt }).boxSend (s.box m).op (s.box m).data) :=
  (if_pos ⟨hop, hcount, hdue⟩).trans (if_pos hleft)

theorem exec_mailboxRetry_givesUp (hleft : s.g Reg.MGT_MG_CFG.retries ≤ (s.box m).resends) :
    exec (.mailboxRetry m) s = .next (s.boxDone m 0x06) :=
  (if_pos ⟨hop, hcount, hdue⟩).trans (if_neg (Nat.not_lt.mpr hleft))

end
end

end Sys2Proof.Machine
end

section
/-! Management cores and the readback window (R507, R509, R510, R520). -/
namespace Sys2Proof.Machine

/-! ### Cores (R507, R520) -/

theorem exec_mcStart {s : State} {c : Nat} (req : Requester) (h1 : 1 ≤ c) (h3 : c ≤ 3) (hcount : s.counting = true)
    (hfenced : s.mode ≠ .fenced) : exec (.mcStart req c) s = .next (s.mcCtrlWrite req (setBits (s.g Reg.MGT_MC_CTRL.run) (c - 1) 1 1)) :=
  if_pos ⟨h1, h3, hcount, hfenced⟩

theorem exec_mcReset {s : State} {c : Nat} (req : Requester) (h1 : 1 ≤ c) (h3 : c ≤ 3) (hcount : s.counting = true)
    (hfenced : s.mode ≠ .fenced) : exec (.mcReset req c) s = .next (s.mcCtrlWrite req (setBits (s.g Reg.MGT_MC_CTRL.run) (c - 1) 1 0)) :=
  if_pos ⟨h1, h3, hcount, hfenced⟩

theorem State.mcCtrlWrite_otherCore (s : State) {c : Nat} (v : Nat) (hc : 0 < c) : s.mcCtrlWrite (.mc c) v = s :=
  if_pos (beq_eq_false_iff_ne.mpr hc.ne')

theorem State.mcCtrlWrite_function (s : State) (f v : Nat) : s.mcCtrlWrite (.fn f) v = s := by
  unfold State.mcCtrlWrite
  exact if_pos rfl

theorem exec_mcException_restarts {s : State} {c : Nat} (hoff : s.mode ≠ .off) (h1 : 1 ≤ c) (h3 : c ≤ 3)
    (hrun : bit (s.g Reg.MGT_MC_CTRL.run) (c - 1) = true) :
    exec (.mcException c) s = .next (((s.raise (srcMgt 3) 0 c).coreReset c).coreStart c) :=
  (if_neg hoff).trans ((if_neg (Nat.ne_of_gt h1)).trans (if_pos ⟨h3, hrun⟩))

theorem exec_mcException_fatal {s : State} (hoff : s.mode ≠ .off) : exec (.mcException 0) s = .next (s.raise (srcMgt 5) 0 0) :=
  (if_neg hoff).trans (if_pos rfl)

/-! ### The readback window (R509, R510) -/

theorem bufferOf_lt {req : Requester} {b : Nat} (h : bufferOf req = some b) : b < 9 := by
  cases req with
  | fn i =>
    obtain ⟨hpf, heq⟩ := Option.ite_none_right_eq_some.mp h
    cases heq
    simp only [isPf, Bool.and_eq_true, decide_eq_true_eq] at hpf
    simp only [hpOf]
    omega
  | mc c =>
    obtain ⟨hc, heq⟩ := Option.ite_none_right_eq_some.mp h
    cases heq
    omega
  | monitor =>
    cases h
    decide
  | fm =>
    cases h
    decide

theorem State.regWrite_readback {s : State} {req : Requester} {d : RegDef} {i j o v : Nat} (hid : d.id = .RBK_SEL) :
    s.regWrite req d i j 1 o v = s.capture i v := by simp only [State.regWrite, hid, if_true]

theorem exec_readbackCapture {s : State} {req : Requester} {b : Nat} (v : Nat) (hbuf : bufferOf req = some b)
    (hcfg : Sys2Proof.mayConfigure s req (Reg.RBK_SEL.off b + 4)) : ∃ d, locPf (Reg.RBK_SEL.off b + 4) = .reg d b 0 1 ∧
      exec (.readbackCapture req v) s =
        .next ((s.lockCheck d 1 (s.word (Reg.RBK_SEL.off b + 4)) (v % 2 ^ 32)).capture b (v % 2 ^ 32)).settle := by
  obtain ⟨d, hloc, hid⟩ := isReg_elim (locPf_RBK_SEL b (bufferOf_lt hbuf))
  have hmay : State.mayWrite req d b = true := by simp [State.mayWrite, hid, hbuf]
  have hunit : s.absentUnit d b = false := by apply State.absentUnit_other <;> simp [hid]
  have haligned : (Reg.RBK_SEL.off b + 4) % 4 = 0 := by
    unfold Reg.RBK_SEL.off
    omega
  refine ⟨d, hloc, ?_⟩
  change execReadbackCapture req v s = _
  simp only [execReadbackCapture, hbuf]
  rw [State.access_reg hcfg hloc haligned hmay hunit, State.regWrite_readback hid]
  simp only [bits, Nat.shiftRight_zero]

theorem State.capture_busy {s : State} {b : Nat} (v : Nat) (h : s.rbkBusy b = true) : s.capture b v = s.badAccess := if_pos h

theorem State.capture_free {s : State} {b : Nat} (v : Nat) (h : s.rbkBusy b = false) : s.capture b v = s.captureRows b v :=
  if_neg (by simp [h])

/-- R510: a capture has begun: it ends 1 to 16 cycles from now. -/
def State.captureBegun (s : State) (b : Nat) : State :=
  { s.draw.2 with mgt := { s.draw.2.mgt with rbkEnd := Tbl.ins s.draw.2.mgt.rbkEnd b (s.cycles + 1 + s.draw.1 % 16) } }

/-- R510: the rows are register words, and the time is written after them. -/
theorem State.captureRows_eq (s : State) (b v : Nat) : ∃ u, Stays [.regs] (s.captureBegun b) u ∧ s.captureRows b v =
    (u.put (Reg.RBK_TIME.time_lo b) (s.now % 2 ^ 32)).put (Reg.RBK_TIME.time_hi b) (s.now / 2 ^ 32) :=
  ⟨_, Stays.foldl (State.put_stays _ _ (Has.refl _) (Stays.refl _)) fun _ _ h => State.rbPut_stays _ _ _ _ (Has.refl _) h, rfl⟩

theorem State.captureRows_time (s : State) (b v : Nat) : (s.captureRows b v).g (Reg.RBK_TIME.time_lo b) = s.now % 2 ^ 32 ∧
    (s.captureRows b v).g (Reg.RBK_TIME.time_hi b) = s.now / 2 ^ 32 % 2 ^ 32 := by
  obtain ⟨u, -, heq⟩ := s.captureRows_eq b v
  rw [heq]
  refine ⟨?_, State.g_put_self _ _ (by exact le_rfl)⟩
  rw [State.g_put_other _ _ (by exact le_rfl) (.inl ?_), State.g_put_self _ _ (by exact le_rfl)]
  · exact Nat.mod_mod _ _
  · change Reg.RBK_TIME.off b ≠ Reg.RBK_TIME.off b + 4
    omega

theorem State.rbkBusy_captureRows (s : State) (b v : Nat) : (s.captureRows b v).rbkBusy b = true := by
  obtain ⟨u, hu, heq⟩ := s.captureRows_eq b v
  have hput : Stays [.regs] (s.captureBegun b) (s.captureRows b v) :=
    heq ▸ State.put_stays _ _ (Has.refl _) (State.put_stays _ _ (Has.refl _) hu)
  have hends : Tbl.find? (s.captureRows b v).mgt.rbkEnd b = some (s.cycles + 1 + s.draw.1 % 16) := by
    rw [hput.mgt (by decide)]
    exact Tbl.find?_ins_self _ _ _
  have hnow : (s.captureRows b v).cycles = s.cycles := congrArg Phy.beats (hput.phy (by decide))
  simp only [State.rbkBusy, hends, hnow, decide_eq_true_eq]
  omega

/-- Settles O56: each command by its equations, one for each outcome. -/
theorem managementAndCores : Obligations.ManagementAndCores := by
  unfold Obligations.ManagementAndCores
  refine ⟨⟨fun s d port r hq hrun => ⟨exec_mgmtForward_badHeader hq hrun, exec_mgmtForward_otherType hq hrun,
      fun old hcrc htype => exec_mgmtForward_expired hq hrun hcrc htype, fun hcrc htype hlife hmode hroute hme => ?delivered,
      fun hcrc htype hlife hmode hroute hme => ⟨fun hno => ?dropped, fun p hhops hport => ?sentOn⟩⟩,
    fun s u x hrun => ⟨fun h m hm => ?read, fun h m hm => ?write⟩,
    fun s m w d => ⟨State.agent_otherEndpoint w d, fun hep => ⟨fun k a => State.agent_repeated hep w d, fun hnew =>
      ⟨State.agent_refused hep hnew d, State.agent_badRange hep hnew w d⟩⟩⟩,
    fun s u x h => ⟨fun hep => ⟨_, exec_mgMsgRx_lintel h hep, Stays.set_ltl (Stays.refl u) (by decide), rfl⟩, exec_mgMsgRx_sink h⟩,
    fun s u x m => exec_mgRespRx_done, fun s req m => exec_mailbox_owner, fun s req m => exec_mailbox_other,
    fun s m op hbusy => if_pos (.inr hbusy), ?retry⟩,
    fun s req c h1 h3 hcount hfenced => ⟨exec_mcStart req h1 h3 hcount hfenced, exec_mcReset req h1 h3 hcount hfenced⟩,
    fun s c v => s.mcCtrlWrite_otherCore v, State.mcCtrlWrite_function, fun s c => exec_mcException_restarts, fun s => exec_mcException_fatal,
    fun s req b v => exec_readbackCapture v, fun s b v => State.capture_busy v, fun s b v hb hfree => ⟨_, rfl, ?captured⟩⟩
  case delivered => rw [exec_mgmtForward_routed hq hrun hcrc htype hlife hmode hroute, if_pos hme]
  case dropped =>
    rw [exec_mgmtForward_routed hq hrun hcrc htype hlife hmode hroute, if_neg hme]
    split
    · rfl
    next hhops => rw [hno.resolve_left hhops, Option.elim_none]
  case sentOn =>
    rw [exec_mgmtForward_routed hq hrun hcrc htype hlife hmode hroute, if_neg hme, if_neg hhops, hport, Option.elim_some]
  case read =>
    subst hm
    refine ⟨exec_mgReadRx hrun h, fun hep hnew horigin hrange => ⟨_, rfl, ?_⟩⟩
    rw [exec_mgReadRx hrun h, State.agent_reads hep hnew _ horigin hrange]
  case write =>
    subst hm
    refine ⟨exec_mgWriteRx hrun h, fun hep hnew horigin hrange => ?_⟩
    rw [exec_mgWriteRx hrun h, State.agent_writes hep hnew _ horigin hrange]
  case retry =>
    rintro s m b rfl hop hcount hdue
    exact ⟨exec_mailboxRetry_resends hop hcount hdue, exec_mailboxRetry_givesUp hop hcount hdue⟩
  case captured =>
    obtain ⟨hlo, hhi⟩ := s.captureRows_time b v
    rw [State.capture_free v hfree]
    exact ⟨hlo, hhi, s.rbkBusy_captureRows b v, State.captureRows_stays b v (Has.refl _) (Stays.refl s)⟩

end Sys2Proof.Machine
end

section
/-! Output scheduling, injection and deferred packets (R187 to R191, R194, R199, R306): which way OUTPUT_SCHEDULE goes at an output, what
PACKET_INJECT takes from a hub's queue and what becomes of it, and when DEFERRED_RETEST acts. -/
namespace Sys2Proof.Machine

/-! ### OUTPUT_SCHEDULE (R187, R188, R190) -/

theorem State.outSt_setOut_self (s : State) (o : Nat) (v : OutSt) : (s.setOut o v).outSt o = v := Tbl.get_put_self _ _ o v

/-- R190: a fabric output is held by the packet that has started there. -/
theorem State.cur_startPkt (s : State) {o : Nat} (ho : o < 64) (i vc : Nat) (p : InPkt) :
    ((s.startPkt o i vc p).outSt o).cur = some (i, p.id) := by
  simp only [State.startPkt, if_pos ho]
  exact congrArg OutSt.cur (State.outSt_setOut_self _ o _)

section
variable {s : State} {o : Nat}

theorem exec_outputSchedule_busy {e : Nat × Nat} (h : (s.outSt o).cur = some e) : exec (.outputSchedule o) s = .next s :=
  if_neg (by simp [h])

section
variable (ho : o < 72) (hfree : (s.outSt o).cur = none)
include ho hfree

/-- R187, R188: no packet of VC7 waits for the cap, and the other classes take their round. -/
theorem exec_outputSchedule_noVc7 (h : s.vcHead o 7 = none) : exec (.outputSchedule o) s = .next ((s.noCapWait o).scheduleDrr o) := by
  change execOutputSchedule o s = _
  simp only [execOutputSchedule, if_pos (And.intro ho hfree), h]

section
variable {i : Nat} {p : InPkt} (hhead : s.vcHead o 7 = some (i, p))
include hhead

theorem exec_outputSchedule_vc7 (hcap : s.capped o ((List.range 7).any (fun vc => (s.vcHead o vc).isSome)) = false) :
    exec (.outputSchedule o) s = .next (s.startPkt o i 7 p) := by
  change execOutputSchedule o s = _
  simp only [execOutputSchedule, if_pos (And.intro ho hfree), hhead, hcap, Bool.false_eq_true, if_false]

section
variable (hcap : s.capped o ((List.range 7).any (fun vc => (s.vcHead o vc).isSome)) = true)
include hcap

/-- R188: a wait on the cap that has been counted is not counted again. -/
theorem exec_outputSchedule_stillCapped (hwait : (s.outSt o).vc7Wait = true) : exec (.outputSchedule o) s = .next (s.scheduleDrr o) := by
  change execOutputSchedule o s = _
  simp only [execOutputSchedule, if_pos (And.intro ho hfree), hhead, hcap, hwait, if_true]

theorem exec_outputSchedule_newlyCapped (hwait : (s.outSt o).vc7Wait = false) : exec (.outputSchedule o) s = .next
    ((((s.setOut o { s.outSt o with vc7Wait := true }).bump Ctr.SCH_VC7_CAP_COUNT).raise (srcSch 3) 0 0).scheduleDrr o) := by
  change execOutputSchedule o s = _
  simp only [execOutputSchedule, if_pos (And.intro ho hfree), hhead, hcap, hwait, if_true, Bool.false_eq_true, if_false]

end
end
end
end

/-! ### PACKET_INJECT (R194, R199, R306) -/

/-- R194: the state in which PACKET_INJECT serves a request: the gates of hub port `h` are noted, and the round robin has moved on. -/
def State.requestRound (s : State) (h : Nat) : State :=
  { s.noteGates h with
    sch := { (s.noteGates h).sch with
      injDef := Tbl.put (fun _ => zeros 6) (s.noteGates h).sch.injDef h ((s.noteGates h).pickRequest h).2 } }

section
variable {s : State} {h : Nat}

section
variable (hh : h < 6) (hlive : s.live = true)
include hh hlive

theorem exec_packetInject_response {p : InjPkt}
    (hfirst : (s.injQ h).find? (fun p => !p.request && !p.held && !behindHeld s.allInj p) = some p) :
    exec (.packetInject h) s = .next (s.inject h p) := by
  change execPacketInject h s = _
  simp only [execPacketInject, if_pos (And.intro hh hlive), hfirst]

/-- R194: where no response waits, the round robin among the request classes decides. -/
theorem exec_packetInject_request (hreq : ∀ p ∈ s.injQ h, p.request = true) : exec (.packetInject h) s =
    .next (((s.noteGates h).pickRequest h).1.elim (s.requestRound h)
      (fun p => ((s.requestRound h).inject h p).keepCharge (s.noteGates h) h)) := by
  have hnone : (s.injQ h).find? (fun p => !p.request && !p.held && !behindHeld s.allInj p) = none :=
    List.find?_eq_none.mpr fun p hp => by simp [hreq p hp]
  change execPacketInject h s = _
  simp only [execPacketInject, if_pos (And.intro hh hlive), hnone]
  cases ((s.noteGates h).pickRequest h).1 <;> rfl

end

section
variable {p : InjPkt}

/-- R306: a packet is held for order by its mark in the hub's queue alone. -/
theorem State.holdForOrder_some {t : State} (hhold : s.holdForOrder h p = some t) : t = s.putInj h { p with held := true } := by
  unfold State.holdForOrder at hhold
  split at hhold
  case isFalse => cases hhold
  case isTrue =>
    split at hhold
    case h_2 => cases hhold
    case h_1 w hpath =>
      split at hhold
      · exact (Option.some.inj hhold).symm
      · cases hhold

theorem State.inject_held {t : State} (hhold : s.holdForOrder h p = some t) : s.inject h p = t := by
  rw [State.inject, hhold]

section
variable (hhold : s.holdForOrder h p = none)
include hhold

theorem State.inject_response (hreq : p.request = false) : s.inject h p = s.injectAs h p 0 := by
  simp only [State.inject, hhold, hreq, Bool.false_eq_true, if_false]

theorem State.inject_request (hreq : p.request = true) : s.inject h p = s.injectRequest h p := by
  simp only [State.inject, hhold, hreq, if_true]

end

/-- R199: a request that its meter has let through on a new test keeps that colour, and is not charged again. -/
theorem State.injectRequest_passed {c : Nat} (hpassed : p.passed = some c) : s.injectRequest h p = s.injectAs h p c := by
  rw [State.injectRequest, hpassed]

/-- R197, R198: the shaper's charge comes first, the meter's second, and the path last. -/
theorem State.injectRequest_charged {c : Nat} {u : State} (hpassed : p.passed = none) (hcolour : (s.chargeShaper p).colourOf p = (c, u))
    (hc : c ≠ 2) : s.injectRequest h p = u.injectAs h p c := by
  simp only [State.injectRequest, hpassed, hcolour, if_pos hc]

end
end

/-! ### DEFERRED_RETEST (R199) -/

theorem exec_deferredRetest_due {s : State} (h : s.sch.retest = true) :
    ∃ t, exec .deferredRetest s = .next t ∧ t.sch.retest = false :=
  ⟨_, if_pos h, rfl⟩

theorem exec_deferredRetest_notDue {s : State} (h : s.sch.retest = false) : exec .deferredRetest s = .next s := if_neg (by simp [h])

/-! ### The statement -/

/-- Settles O35: each command by its equations, one for each outcome. -/
theorem scheduling : Obligations.Scheduling := by
  unfold Obligations.Scheduling
  refine ⟨fun s o ho hfree => ⟨exec_outputSchedule_noVc7 ho hfree,
      fun i p hhead hcap => ⟨_, exec_outputSchedule_vc7 ho hfree hhead hcap, rfl, fun hport => s.cur_startPkt hport i 7 p⟩,
      fun i p hhead hcap => ⟨exec_outputSchedule_stillCapped ho hfree hhead hcap, exec_outputSchedule_newlyCapped ho hfree hhead hcap⟩⟩,
    fun s o e => exec_outputSchedule_busy, fun s h p hh hlive => exec_packetInject_response hh hlive, fun s h hh hlive hreq => ?request,
    fun s h p hhold => ⟨State.inject_response hhold, fun hreq hpassed c u hcolour hc => ?charged, fun c hreq hpassed => ?passed⟩,
    fun s h p t hhold => ⟨State.inject_held hhold, State.holdForOrder_some hhold⟩,
    fun s => exec_deferredRetest_due, fun s => exec_deferredRetest_notDue⟩
  case request =>
    refine ⟨s.requestRound h, (s.noteGates h).pickRequest h, rfl, rfl, ?_⟩
    rw [exec_packetInject_request hh hlive hreq]
    cases ((s.noteGates h).pickRequest h).1 <;> rfl
  case charged => rw [State.inject_request hhold hreq, State.injectRequest_charged hpassed hcolour hc]
  case passed => rw [State.inject_request hhold hreq, State.injectRequest_passed hpassed]

end Sys2Proof.Machine
end

section
/-! The objects of the host interface (R209 to R250): what each reads as once it has been written, what an interrupt, an event entry and a
latching event leave of them, and what the entries of a ring make of its counters. -/
namespace Sys2Proof.Machine

/-! ### Objects read back -/

@[simp] theorem State.fn_setFn_self (s : State) (f : Nat) (v : Fn) : (s.setFn f v).fn f = v := Tbl.get_put_self _ _ f v

@[simp] theorem State.sq?_setSq_self (s : State) (q : Nat) (v : Sq) : (s.setSq q v).sq? q = some v := Tbl.find?_ins_self _ q v

@[simp] theorem State.cq?_setCq_self (s : State) (c : Nat) (v : Cq) : (s.setCq c v).cq? c = some v := Tbl.find?_ins_self _ c v

@[simp] theorem State.ep?_setEp_self (s : State) (e : Nat) (v : Ep) : (s.setEp e v).ep? e = some v := Tbl.find?_ins_self _ e v

@[simp] theorem State.eqs_setEq_self (s : State) (r : Nat) (e : Eq) : Tbl.find? (s.setEq r e).hif.eqs r = some e := Tbl.find?_ins_self _ r e

/-- A send queue that is destroyed (R227). -/
def State.delSq (s : State) (q : Nat) : State := { s with hif := { s.hif with sqs := Tbl.del s.hif.sqs q } }
/-- A CQ that is destroyed (R225). -/
def State.delCq (s : State) (c : Nat) : State := { s with hif := { s.hif with cqs := Tbl.del s.hif.cqs c } }
/-- An event ring that is destroyed (R225). -/
def State.delEq (s : State) (r : Nat) : State := { s with hif := { s.hif with eqs := Tbl.del s.hif.eqs r } }

@[simp] theorem State.sq?_delSq_self (s : State) (q : Nat) : (s.delSq q).sq? q = none := Tbl.find?_del_self _ q

@[simp] theorem State.cq?_delCq_self (s : State) (c : Nat) : (s.delCq c).cq? c = none := Tbl.find?_del_self _ c

@[simp] theorem State.eqs_delEq_self (s : State) (r : Nat) : Tbl.find? (s.delEq r).hif.eqs r = none := Tbl.find?_del_self _ r

theorem State.cq?_of_cqs {s t : State} (h : t.hif.cqs = s.hif.cqs) (c : Nat) : t.cq? c = s.cq? c := by rw [State.cq?, State.cq?, h]

theorem State.hif_hostWrite (s : State) (hp requester addr : Nat) (d : Data) : (s.hostWrite hp requester addr d).hif = s.hif :=
  (State.hostWrite_stays hp requester addr d (Has.refl _) (Stays.refl s)).hif (by decide)

theorem State.hif_bumpIf (s : State) (b : Bool) (c : Nat) : (s.bumpIf b c).hif = s.hif :=
  (State.bumpIf_stays b c (Has.refl _) (Stays.refl s)).hif (by decide)

/-- R248: sending a vector writes pending bits of HIF and nothing else of it. -/
theorem State.hif_msixSend (s : State) (identity vector : Nat) : ∃ p, (s.msixSend identity vector).hif = { s.hif with pba := p } := by
  unfold State.msixSend
  split
  · exact ⟨_, rfl⟩
  · split <;> exact ⟨_, rfl⟩

/-! ### Events leave the work and completion rings (R243 to R246, R465) -/

/-- HIF without its event rings and pending bits, which are what an event writes. -/
def Hif.sansEvents (h : Hif) : Hif := { h with eqs := [], pba := [] }

theorem Hif.cqs_of_sansEvents {x y : Hif} (h : x.sansEvents = y.sansEvents) : x.cqs = y.cqs :=
  (congrArg Hif.cqs h : x.sansEvents.cqs = y.sansEvents.cqs)

theorem Hif.sqs_of_sansEvents {x y : Hif} (h : x.sansEvents = y.sansEvents) : x.sqs = y.sqs :=
  (congrArg Hif.sqs h : x.sansEvents.sqs = y.sansEvents.sqs)

theorem State.sansEvents_msixSend (s : State) (identity vector : Nat) :
    (s.msixSend identity vector).hif.sansEvents = s.hif.sansEvents := by
  obtain ⟨p, hp⟩ := s.hif_msixSend identity vector
  rw [hp]
  rfl

theorem State.sansEvents_eqPut (s : State) (r entry : Nat) : (s.eqPut r entry).hif.sansEvents = s.hif.sansEvents := by
  unfold State.eqPut
  split
  · rfl
  next e _ =>
    have hwrite (a : Nat) (d : Data) (x : Eq) : (((s.hostWrite (hpOf e.owner) e.owner a d).bumpIf s.mastering Ctr.HIF_EVENT_COUNT).setEq r
        x).hif.sansEvents = s.hif.sansEvents := by
      rw [State.setEq_hif, State.hif_bumpIf, State.hif_hostWrite]
      rfl
    dsimp only
    split
    · rw [State.sansEvents_msixSend, hwrite]
    · exact hwrite _ _ _

theorem State.sansEvents_eqPost (s : State) (r entry : Nat) : (s.eqPost r entry).hif.sansEvents = s.hif.sansEvents := by
  unfold State.eqPost
  split
  · rfl
  · split
    · exact s.sansEvents_eqPut r entry
    · split <;> rfl

theorem State.sansEvents_latchEvent (s : State) (g cond obj : Nat) (owner : Option Nat) (detail : Nat) (forced severe mute : Bool) :
    (s.latchEvent g cond obj owner detail forced severe mute).hif.sansEvents = s.hif.sansEvents := by
  unfold State.latchEvent
  split
  · rfl
  · dsimp only
    split
    · exact State.sansEvents_eqPost _ _ _
    · rfl

theorem State.hif_askFence (s : State) (cause : Nat) : (s.askFence cause).hif = s.hif :=
  (State.askFence_stays cause (Has.refl _) (Stays.refl s)).hif (by decide)

theorem State.hif_fenceOn (s : State) (g : Nat) : (s.fenceOn g).hif = s.hif :=
  (State.fenceOn_stays g (Has.refl _) (Stays.refl s)).hif (by decide)

theorem State.hif_mergeEvent (s : State) (g : Nat) : (s.mergeEvent g).hif = s.hif :=
  (State.mergeEvent_stays g (Has.refl _) (Stays.refl s)).hif (by decide)

theorem State.sansEvents_latchConsequence (s : State) (g obj : Nat) (owner : Option Nat) (effective : Bool) :
    (s.latchConsequence g obj owner effective).hif.sansEvents = s.hif.sansEvents := by
  unfold State.latchConsequence
  split
  · rfl
  · have hfence : (if effective = true then s.fenceOn g else s).hif = s.hif := by
      split
      · exact s.hif_fenceOn g
      · rfl
    dsimp only
    generalize (if effective = true then s.fenceOn g else s) = u at hfence ⊢
    split
    · split
      · rw [State.hif_askFence, State.sansEvents_latchEvent, State.setSrc_hif, hfence]
      · rw [State.setSrc_hif, hfence]
    · rw [hfence]

theorem State.sansEvents_raise (s : State) (g cond obj : Nat) (owner : Option Nat) (detail : Nat) :
    (s.raise g cond obj owner detail).hif.sansEvents = s.hif.sansEvents := by
  unfold State.raise State.latch
  dsimp only
  split
  · rw [if_neg Bool.false_ne_true, State.hif_fenceOn, State.hif_mergeEvent]
  · rw [State.sansEvents_latchConsequence, State.sansEvents_latchEvent]

@[simp] theorem State.cqs_raise (s : State) (g cond obj : Nat) (owner : Option Nat) (detail : Nat) :
    (s.raise g cond obj owner detail).hif.cqs = s.hif.cqs := Hif.cqs_of_sansEvents (s.sansEvents_raise g cond obj owner detail)

@[simp] theorem State.sqs_raise (s : State) (g cond obj : Nat) (owner : Option Nat) (detail : Nat) :
    (s.raise g cond obj owner detail).hif.sqs = s.hif.sqs := Hif.sqs_of_sansEvents (s.sansEvents_raise g cond obj owner detail)

/-! ### Completion rings: what is written to one leaves its consumer counter (R239 to R241) -/

/-- The consumer counter of a CQ that exists. -/
def State.cqCons (s : State) (c : Nat) : Option RingCtr := (s.cq? c).map Cq.cons

theorem State.cqCons_of_cqs {s t : State} (h : t.hif.cqs = s.hif.cqs) (c : Nat) : t.cqCons c = s.cqCons c := by
  rw [State.cqCons, State.cqCons, State.cq?_of_cqs h]

theorem State.cqCons_eq_some {s : State} {c : Nat} {d : RingCtr} (h : s.cqCons c = some d) : ∃ w, s.cq? c = some w ∧ w.cons = d :=
  Option.map_eq_some_iff.1 h

/-- A new record of a CQ with the same consumer counter. -/
theorem State.cqCons_setCq {s : State} {c : Nat} {v w : Cq} (h : s.cq? c = some v) (hw : w.cons = v.cons) :
    (s.setCq c w).cqCons c = s.cqCons c := by
  rw [State.cqCons, State.cqCons, State.cq?_setCq_self, h, Option.map_some, Option.map_some, hw]

theorem State.cqCons_msixSend (s : State) (identity vector c : Nat) : (s.msixSend identity vector).cqCons c = s.cqCons c :=
  State.cqCons_of_cqs (Hif.cqs_of_sansEvents (s.sansEvents_msixSend identity vector)) c

theorem State.cqCons_hostWrite (s : State) (hp requester addr : Nat) (d : Data) (c : Nat) :
    (s.hostWrite hp requester addr d).cqCons c = s.cqCons c :=
  State.cqCons_of_cqs (congrArg Hif.cqs (s.hif_hostWrite hp requester addr d)) c

theorem State.cqCons_cqPut (s : State) (c : Nat) (slots : List Nat) : (s.cqPut c slots).cqCons c = s.cqCons c := by
  unfold State.cqPut
  split
  · rfl
  next v hv =>
    have hset (u : State) (n : Nat) : ((u.noteWritten slots).setCq c { v with prod := v.prod + BitVec.ofNat 32 n, armed := false }).cqCons c =
        s.cqCons c := by
      rw [State.cqCons, State.cq?_setCq_self, State.cqCons, hv]
      rfl
    dsimp only
    split <;> split
    · rw [State.cqCons_msixSend, State.cqCons_hostWrite, hset]
    · rw [State.cqCons_msixSend, hset]
    · rw [State.cqCons_hostWrite, hset]
    · rw [hset]

theorem State.cqCons_cqStall (s : State) (c : Nat) : (s.cqStall c).cqCons c = s.cqCons c := by
  unfold State.cqStall
  split
  next v hv => exact (State.cqCons_of_cqs (State.cqs_raise _ _ _ _ _ _) c).trans (State.cqCons_setCq hv rfl)
  next => rfl

theorem State.cqCons_cqPost (s : State) (c : Nat) (slots : List Nat) : (s.cqPost c slots).1.cqCons c = s.cqCons c := by
  unfold State.cqPost
  split
  · rfl
  next v hv =>
    split
    · rfl
    · split
      · exact s.cqCons_cqPut c slots
      · split
        · exact State.cqCons_setCq hv rfl
        · exact s.cqCons_cqStall c

theorem State.cqCons_cqDrainHeld (s : State) (c k : Nat) : (s.cqDrainHeld c k).cqCons c = s.cqCons c := by
  induction k generalizing s with
  | zero => rfl
  | succ k ih =>
    unfold State.cqDrainHeld
    split
    next v hv =>
      split
      next x rest _ =>
        dsimp only
        generalize (if bit x 254 = true then x :: rest.take 1 else [x]) = slots
        split
        · rw [ih, State.cqCons_cqPut]
          exact State.cqCons_setCq hv rfl
        · rfl
      next => rfl
    next => rfl

theorem State.cqCons_cqDrainOwed (s : State) (c k : Nat) : (s.cqDrainOwed c k).cqCons c = s.cqCons c := by
  induction k generalizing s with
  | zero => rfl
  | succ k ih =>
    unfold State.cqDrainOwed
    split
    next v hv =>
      split
      next slots hdr rest _ =>
        have hpost : ((s.setCq c { v with owed := rest }).cqPost c slots).1.cqCons c = s.cqCons c :=
          (State.cqCons_cqPost _ c slots).trans (State.cqCons_setCq hv rfl)
        dsimp only
        split
        · rw [ih, ← hpost]
          cases hdr <;> rfl
        · rfl
      next => rfl
    next => rfl

theorem State.cqCons_cqDrain (s : State) (c : Nat) : (s.cqDrain c).cqCons c = s.cqCons c := by
  unfold State.cqDrain
  split
  next v hv =>
    dsimp only
    generalize (if v.state = .stalled then CqState.active else v.state) = st
    have hset : (s.setCq c { v with state := st }).cqCons c = s.cqCons c := State.cqCons_setCq hv rfl
    split
    · exact hset
    · split
      · rw [State.cqCons_cqStall, State.cqCons_cqDrainOwed, State.cqCons_cqDrainHeld, hset]
      · rw [State.cqCons_cqDrainOwed, State.cqCons_cqDrainHeld, hset]
  next => rfl

theorem State.cqCons_armCq (s : State) (c : Nat) : (s.armCq c).cqCons c = s.cqCons c := by
  unfold State.armCq
  split
  next v hv =>
    split
    · rw [State.cqCons_msixSend]
      exact State.cqCons_setCq hv rfl
    · exact State.cqCons_setCq hv rfl
  next => rfl

/-! ### Event rings: what entries make of the producer counter and the arm (R246, R248) -/

theorem State.eqs_msixSend (s : State) (identity vector : Nat) : (s.msixSend identity vector).hif.eqs = s.hif.eqs := by
  obtain ⟨p, hp⟩ := s.hif_msixSend identity vector
  rw [hp]

/-- An entry moves the producer on by one and disarms the ring. -/
theorem State.eqs_eqPut {s : State} {r : Nat} {e : Eq} (entry : Nat) (h : Tbl.find? s.hif.eqs r = some e) :
    Tbl.find? (s.eqPut r entry).hif.eqs r = some { e with prod := e.prod + 1, armed := false } := by
  unfold State.eqPut
  simp only [h]
  split
  · rw [State.eqs_msixSend, State.eqs_setEq_self]
  · rw [State.eqs_setEq_self]

/-- Held entries that are written move the producer on by as many as they are, and disarm the ring. -/
theorem State.eqs_eqDrain {s : State} {r : Nat} {e : Eq} (k : Nat) (h : Tbl.find? s.hif.eqs r = some e) : ∃ j ≤ k, ∃ held,
    Tbl.find? (s.eqDrain r k).hif.eqs r =
      some { e with prod := e.prod + BitVec.ofNat 32 j, armed := e.armed && decide (j = 0), held := held } := by
  induction k generalizing s e with
  | zero => exact ⟨0, le_rfl, e.held, by simpa [State.eqDrain] using h⟩
  | succ k ih =>
    have hstop : Tbl.find? s.hif.eqs r =
        some { e with prod := e.prod + BitVec.ofNat 32 0, armed := e.armed && decide (0 = 0), held := e.held } := by simpa using h
    unfold State.eqDrain
    simp only [h]
    split
    next x rest _ =>
      split
      · obtain ⟨j, hj, held, hw⟩ := ih (State.eqs_eqPut x (State.eqs_setEq_self s r { e with held := rest }))
        have hsum : e.prod + 1 + BitVec.ofNat 32 j = e.prod + BitVec.ofNat 32 (j + 1) := by bv_omega
        exact ⟨j + 1, Nat.succ_le_succ hj, held, hw.trans (by simp only [hsum, Bool.false_and, Nat.succ_ne_zero, decide_false, Bool.and_false])⟩
      · exact ⟨0, Nat.zero_le _, e.held, hstop⟩
    next => exact ⟨0, Nat.zero_le _, e.held, hstop⟩

end Sys2Proof.Machine
end

section
/-! Doorbells (R209, R214 to R218, R234, R240, R241, R248): which writes of BAR2 reach a ring, and what a value does there. -/
namespace Sys2Proof.Machine

/-! ### The form and the page of a doorbell write (R209, R214, R215) -/

theorem bellAt_iff (o k : Nat) : bellAt o k = true ↔ 8 * k ≤ o % 4096 ∧ o % 4096 < 8 * k + 8 := by
  simp only [bellAt, beq_iff_eq]
  omega

/-- R215: a 64-bit write at the doorbell's own offset is one that counts. -/
theorem bell_of {o k : Nat} (h : o % 4096 = 8 * k) : bellAt o k = true ∧ bellWhole o 8 = true :=
  ⟨(bellAt_iff o k).2 (by omega), by simp only [bellWhole, beq_self_eq_true, Bool.and_true, beq_iff_eq]; omega⟩

theorem not_bellWhole {o n : Nat} (h : o % 8 ≠ 0 ∨ n ≠ 8) : bellWhole o n = false := by
  rcases h with h | h <;> simp [bellWhole, h]

theorem bits_top_zero {d l w : Nat} (h : d < 2 ^ l) : bits d l w = 0 := by
  rw [bits, Nat.shiftRight_eq_div_pow, Nat.div_eq_of_lt h, Nat.zero_mod]

/-- The number that a 64-bit value's bits from bit 32 on give, the reserved ones zero. -/
theorem bits_word_high {d w : Nat} (h : d < 2 ^ (32 + w)) : bits d 32 w = d / 2 ^ 32 := by
  rw [bits, Nat.shiftRight_eq_div_pow, Nat.mod_eq_of_lt]
  exact Nat.div_lt_of_lt_mul (by rwa [← Nat.pow_add])

theorem bits_ring_number (d : Nat) : bits d 32 2 = d / 2 ^ 32 % 4 := by
  simp only [bits, Nat.shiftRight_eq_div_pow, Nat.reducePow]

theorem bits_reserved {d : Nat} (h : 2 ^ 35 ≤ d % 2 ^ 64) : bits d 35 29 ≠ 0 ∧ bits d 33 31 ≠ 0 := by
  simp only [bits, Nat.shiftRight_eq_div_pow]
  omega

section
variable {s : State} {f o : Nat} (hf : s.mode ≠ .fenced)
include hf

/-- R215: writes of another form and writes by another function are discarded. -/
theorem exec_bell_dropped {n d : Nat}
    (h : o % 8 ≠ 0 ∨ n ≠ 8 ∨ 2 ^ 35 ≤ d % 2 ^ 64 ∨ s.ownsGroup f (s.bellGroup f o) = false) :
    (bellAt o 0 = true → exec (.sqDoorbell f o n d) s = .next s.dbDrop) ∧
    (bellAt o 1 = true → exec (.cqDoorbell f o n d) s = .next s.dbDrop) ∧
    (bellAt o 2 = true → exec (.eqDoorbell f o n d) s = .next s.dbDrop) := by
  have hbad : (¬ bellWhole o n = true ∨ bits d 35 29 ≠ 0 ∨ ¬ s.ownsGroup f (s.bellGroup f o) = true) ∧
      (¬ bellWhole o n = true ∨ bits d 33 31 ≠ 0 ∨ ¬ s.ownsGroup f (s.bellGroup f o) = true) := by
    rcases h with h | h | h | h
    · simp [not_bellWhole (.inl h)]
    · simp [not_bellWhole (.inr h)]
    · exact ⟨.inr (.inl (bits_reserved h).1), .inr (.inl (bits_reserved h).2)⟩
    · simp [h]
  exact ⟨fun hat => (if_neg (by simp [hf, hat])).trans (if_pos hbad.1), fun hat => (if_neg (by simp [hf, hat])).trans (if_pos hbad.1),
    fun hat => (if_neg (by simp [hf, hat])).trans (if_pos hbad.2)⟩

omit hf in
/-- R214: past the last doorbell of its page a write has no effect. -/
theorem exec_bell_elsewhere (n d : Nat) (h : 32 ≤ o % 4096) : exec (.sqDoorbell f o n d) s = .next s ∧ exec (.cqDoorbell f o n d) s = .next s ∧
    exec (.eqDoorbell f o n d) s = .next s ∧ exec (.deviceEqDoorbell f o ⟨n, d⟩) s = .next s := by
  have hnone {k : Nat} (hk : k < 4) : s.mode = .fenced ∨ ¬ bellAt o k = true :=
    .inr fun hat => by have := (bellAt_iff o k).1 hat; omega
  exact ⟨if_pos (hnone (by decide)), if_pos (hnone (by decide)), if_pos (hnone (by decide)), if_pos (hnone (by decide))⟩

section
variable {d : Nat} (hown : s.ownsGroup f (s.bellGroup f o) = true)
include hown

theorem exec_sqDoorbell_reaches {q : Nat} {v : Sq} (ho : o % 4096 = 0) (hd : d < 2 ^ 35) (hq : q = 8 * s.bellGroup f o + d / 2 ^ 32)
    (hv : s.sq? q = some v) (hst : v.state = .ready) (hfn : v.owner = f) :
    exec (.sqDoorbell f o 8 d) s = .next (s.sqBell q v (BitVec.ofNat 32 d)) := by
  obtain ⟨hat, hwhole⟩ := bell_of (k := 0) ho
  have hnum : 8 * s.bellGroup f o + bits d 32 3 = q := by rw [bits_word_high hd, hq]
  show execSqDoorbell f o 8 d s = _
  simp only [execSqDoorbell, hf, hat, hwhole, bits_top_zero hd, hown, hnum, hv, hst, hfn, not_true_eq_false, or_self, ne_eq, if_false, and_self,
    if_true]

/-- R214, R240: the check of a stall that has lasted too long comes before the value. -/
theorem exec_cqDoorbell_reaches {c : Nat} {v : Cq} (ho : o % 4096 = 8) (hd : d < 2 ^ 35) (hc : c = 4 * s.bellGroup f o + d / 2 ^ 32 % 4)
    (hv : (s.cqOverflow c).cq? c = some v) (hfn : v.owner = f) : exec (.cqDoorbell f o 8 d) s = .next
      (if v.state = .overflow then (s.cqOverflow c).dbDrop else (s.cqOverflow c).cqBell c v (BitVec.ofNat 32 d) (bit d 34)) := by
  obtain ⟨hat, hwhole⟩ := bell_of (k := 1) ho
  have hnum : 4 * s.bellGroup f o + bits d 32 2 = c := by rw [bits_ring_number, hc]
  show execCqDoorbell f o 8 d s = _
  simp only [execCqDoorbell, hf, hat, hwhole, bits_top_zero hd, hown, hnum, hv, hfn, not_true_eq_false, or_self, ne_eq, if_false, or_false]

theorem exec_eqDoorbell_reaches (ho : o % 4096 = 16) (hd : d < 2 ^ 33) :
    exec (.eqDoorbell f o 8 d) s = .next (s.eqBell f f f (BitVec.ofNat 32 d) (bit d 32)) := by
  obtain ⟨hat, hwhole⟩ := bell_of (k := 2) ho
  show execEqDoorbell f o 8 d s = _
  simp only [execEqDoorbell, hf, hat, hwhole, bits_top_zero hd, hown, not_true_eq_false, or_self, ne_eq, if_false]

end

theorem exec_deviceEqDoorbell_reaches {d r : Nat} {e : Eq} (ho : o % 4096 = 24) (hd : d < 2 ^ 35) (hr : r = devRing (d / 2 ^ 32 % 4))
    (he : Tbl.find? s.hif.eqs r = some e) (hpf : isPf f = true) (hfn : e.owner = f) :
    exec (.deviceEqDoorbell f o ⟨8, d⟩) s = .next (s.eqBell r r f (BitVec.ofNat 32 d) (bit d 34)) := by
  obtain ⟨hat, hwhole⟩ := bell_of (k := 3) ho
  have hring : devRing (bits d 32 2) = r := by rw [bits_ring_number, hr]
  show execDeviceEqDoorbell f o ⟨8, d⟩ s = _
  simp only [execDeviceEqDoorbell, hf, hat, hwhole, bits_top_zero hd, hring, he, hpf, hfn, not_true_eq_false, or_self, ne_eq, if_false]

end

/-! ### A value for a send queue (R218, R234) -/

section
variable {s : State} {q d : Nat} {v : Sq}

theorem State.sqBell_taken (h : serialCmp (d % 2 ^ 32) v.l.toNat 32 = .after) (hroom : (BitVec.ofNat 32 d - v.c).toNat ≤ 2 ^ v.n) :
    s.sqBell q v (BitVec.ofNat 32 d) = s.setSq q { v with l := BitVec.ofNat 32 d } := by
  simp only [State.sqBell, BitVec.toNat_ofNat, h, reduceCtorEq, if_false, ne_eq, not_true_eq_false, Nat.not_lt.2 hroom]

theorem State.sqBell_behind (h : serialCmp (d % 2 ^ 32) v.l.toNat 32 = .before) :
    s.sqBell q v (BitVec.ofNat 32 d) = (s.bump Ctr.HIF_MALFORMED_COUNT).sqError q 0x10 (some (BitVec.ofNat 32 d)) := by
  simp only [State.sqBell, BitVec.toNat_ofNat, h, reduceCtorEq, if_false, ne_eq, not_false_eq_true, if_true]

theorem State.sqBell_beyond (h : serialCmp (d % 2 ^ 32) v.l.toNat 32 = .after) (hroom : 2 ^ v.n < (BitVec.ofNat 32 d - v.c).toNat) :
    s.sqBell q v (BitVec.ofNat 32 d) = (s.bump Ctr.HIF_MALFORMED_COUNT).sqError q 0x11 (some (BitVec.ofNat 32 d)) := by
  simp only [State.sqBell, BitVec.toNat_ofNat, h, reduceCtorEq, if_false, ne_eq, not_true_eq_false, hroom, if_true]

end

/-! ### A value for a CQ (R240, R241, R248) -/

section
variable {s : State} {c : Nat} {v : Cq} (hv : s.cq? c = some v)
include hv

/-- R240: no overflow without a stall that has lasted longer than the limit. -/
theorem State.cqOverflow_inTime (h : v.state = .stalled → s.since v.stallCourse ≤ max 1 (s.g Reg.HIF_CQ_CFG.stall_limit)) :
    s.cqOverflow c = s := by
  simp only [State.cqOverflow, hv]
  exact if_neg fun hlate => by have := h hlate.1; omega

theorem State.cqOverflow_late (hst : v.state = .stalled) (h : max 1 (s.g Reg.HIF_CQ_CFG.stall_limit) + 1 ≤ s.since v.stallCourse)
    (u : State) (hu : u = ((s.setCq c { v with state := .overflow }).bump Ctr.HIF_CQ_OVERFLOW_COUNT).raise (srcHif 3) 0 c (some v.owner)) :
    s.cqOverflow c = (u.hif.sqs.filter (fun e => e.2.cq = c ∧ e.2.state = .ready)).foldl (fun t e => t.sqError e.1 0x20 none) u := by
  simp only [State.cqOverflow, hv, hst, ge_iff_le, h, and_self, if_true, hu]

omit hv in
theorem State.cqs_sqError (s : State) (q code : Nat) (ctr : Option RingCtr) : (s.sqError q code ctr).hif.cqs = s.hif.cqs := by
  unfold State.sqError
  split
  · rfl
  · exact State.cqs_raise _ _ _ _ _ _

omit hv in
theorem State.cqs_sqErrors (s : State) (l : List (Nat × Sq)) (code : Nat) :
    (l.foldl (fun t e => t.sqError e.1 code none) s).hif.cqs = s.hif.cqs := by
  induction l generalizing s with
  | nil => rfl
  | cons e l ih => exact (ih _).trans (s.cqs_sqError _ _ _)

/-- The CQ that overflows; what its queues go through leaves it. -/
theorem State.cq?_cqOverflow (hst : v.state = .stalled) (h : max 1 (s.g Reg.HIF_CQ_CFG.stall_limit) + 1 ≤ s.since v.stallCourse) :
    (s.cqOverflow c).cq? c = some { v with state := .overflow } := by
  rw [State.cqOverflow_late hv hst h _ rfl, State.cq?_of_cqs (State.cqs_sqErrors _ _ _), State.cq?_of_cqs (State.cqs_raise _ _ _ _ _ _)]
  exact State.cq?_setCq_self s c _

end

/-- R241: a consumer value in range. -/
theorem State.cqBell_taken {s : State} {c : Nat} {v : Cq} {d : RingCtr} (arm : Bool) (h : bellOk v.cons d v.prod = true) (u : State)
    (hu : u = if d = v.cons then s.setCq c { v with cons := d } else (s.setCq c { v with cons := d }).cqDrain c) :
    s.cqBell c v d arm = if arm then u.armCq c else u := by
  simp only [State.cqBell, h, not_true_eq_false, if_false, hu]

theorem State.cqBell_outOfRange {s : State} {c : Nat} {v : Cq} {d : RingCtr} (arm : Bool) (h : bellOk v.cons d v.prod = false) :
    s.cqBell c v d arm = s.dbDrop.raise (srcHif 4) 0 c (some v.owner) := if_pos (by simp [h])

theorem State.cqCons_cqBell {s : State} {c : Nat} {v : Cq} {d : RingCtr} (arm : Bool) (h : bellOk v.cons d v.prod = true) :
    (s.cqBell c v d arm).cqCons c = some d := by
  have hset : (s.setCq c { v with cons := d }).cqCons c = some d := by rw [State.cqCons, State.cq?_setCq_self]; rfl
  have hu : (if d = v.cons then s.setCq c { v with cons := d } else (s.setCq c { v with cons := d }).cqDrain c).cqCons c = some d := by
    split
    · exact hset
    · rw [State.cqCons_cqDrain, hset]
  rw [State.cqBell_taken arm h _ rfl]
  split
  · rw [State.cqCons_armCq, hu]
  · exact hu

/-! ### A value for an event ring (R241, R246, R248) -/

section
variable {s : State} {r : Nat} {e : Eq} (he : Tbl.find? s.hif.eqs r = some e)
include he

theorem State.eqBell_outOfRange {d : RingCtr} (ringNo owner : Nat) (arm : Bool) (h : bellOk e.cons d e.prod = false) :
    s.eqBell r ringNo owner d arm = s.dbDrop.raise (srcHif 4) 0 ringNo (if r < 0x1000 then some owner else none) 1 := by
  simp only [State.eqBell, he]
  exact if_pos (by simp [h])

/-- Held entries that are written show in the producer counter, and disarm the ring. -/
theorem State.eqs_eqDrain_moved {k : Nat} (hk : k < 2 ^ 32) : ∃ w, Tbl.find? (s.eqDrain r k).hif.eqs r = some w ∧ w.cons = e.cons ∧
    w.armed = (e.armed && decide (w.prod = e.prod)) := by
  obtain ⟨j, hj, held, hw⟩ := State.eqs_eqDrain k he
  refine ⟨_, hw, rfl, congrArg (e.armed && ·) ?_⟩
  rw [decide_eq_decide]
  bv_omega

theorem State.eqBell_taken {d : RingCtr} (ringNo owner : Nat) (arm : Bool) (h : bellOk e.cons d e.prod = true) {u : State} {w : Eq}
    (hu : u = (s.setEq r { e with cons := d }).eqDrain r 4) (hw : Tbl.find? u.hif.eqs r = some w) :
    s.eqBell r ringNo owner d arm = if arm = false then u
      else if w.prod ≠ w.cons then (u.setEq r { w with armed := false }).msixSend w.owner w.vector
      else u.setEq r { w with armed := true } := by
  simp only [State.eqBell, he, h, not_true_eq_false, if_false, ← hu, hw, Bool.not_eq_true]

/-- R248: held entries are written first, and then the ring is armed, or its vector sent where entries wait. -/
theorem State.eqs_eqBell {d : RingCtr} (ringNo owner : Nat) (arm : Bool) (h : bellOk e.cons d e.prod = true) : ∃ w,
    Tbl.find? (s.eqBell r ringNo owner d arm).hif.eqs r = some w ∧ w.cons = d ∧
    w.armed = (if arm then decide (w.prod = w.cons) else e.armed && decide (w.prod = e.prod)) := by
  obtain ⟨w, hw, hcons, harmed⟩ := State.eqs_eqDrain_moved (State.eqs_setEq_self s r { e with cons := d }) (k := 4) (by decide)
  rw [State.eqBell_taken he ringNo owner arm h rfl hw]
  cases arm
  · exact ⟨w, hw, hcons, harmed⟩
  · by_cases hwait : w.prod = w.cons
    · exact ⟨{ w with armed := true }, by simp only [Bool.true_eq_false, if_false, hwait, ne_eq, not_true_eq_false, State.eqs_setEq_self], hcons,
        (decide_eq_true hwait).symm⟩
    · exact ⟨{ w with armed := false }, by simp only [Bool.true_eq_false, if_false, hwait, ne_eq, not_false_eq_true, if_true, State.eqs_msixSend,
        State.eqs_setEq_self], hcons, (decide_eq_false hwait).symm⟩

end

/-! ### The statements -/

/-- Settles O36: a doorbell of the right form reaches its ring, and what is written to the ring leaves its consumer counter. -/
theorem doorbellsComplete : Obligations.DoorbellsComplete := by
  refine ⟨fun s f o d q v hf ho hd hown hq hv hst hfn hafter hroom => ?sq, fun s f o d c v hf ho hd hown hc hv hst hfn htime hok => ?cq,
    fun s f o d e hf ho hd hown he hok => ?eq, fun s f o d r e hf ho hd hr he hpf hfn hok => ?deviceEq⟩
  case sq => rw [exec_sqDoorbell_reaches hf hown ho hd hq hv hst hfn, State.sqBell_taken hafter hroom]
  case cq =>
    have hnow : s.cqOverflow c = s := State.cqOverflow_inTime hv htime
    obtain ⟨w, hw, hcons⟩ := State.cqCons_eq_some (s.cqCons_cqBell (c := c) (bit d 34) hok)
    refine ⟨_, _, w, ?_, rfl, State.cqBell_taken (bit d 34) hok _ rfl, hw, hcons⟩
    rw [exec_cqDoorbell_reaches hf hown ho hd hc (by rw [hnow]; exact hv) hfn, hnow, if_neg hst]
  case eq =>
    obtain ⟨w, hw, hcons, harmed⟩ := State.eqs_eqBell he f f (bit d 32) hok
    exact ⟨_, w, exec_eqDoorbell_reaches hf hown ho hd, rfl, hw, hcons, harmed⟩
  case deviceEq =>
    obtain ⟨w, hw, hcons, harmed⟩ := State.eqs_eqBell he r f (bit d 34) hok
    exact ⟨_, w, exec_deviceEqDoorbell_reaches hf ho hd hr he hpf hfn, rfl, hw, hcons, harmed⟩

/-- Settles O37: a write that reaches its ring by what its value is out of, and every other by where it stops. -/
theorem doorbellsRefused : Obligations.DoorbellsRefused := by
  refine ⟨fun s f o d q v hf ho hd hown hq hv hst hfn => ?sq, fun s f o d c v hf ho hd hown hc hv hfn => ?cq,
    fun s f o d e hf ho hd hown hsmall he hbad => ?eq, fun s f o n d hf h => ?form, fun s f o n d h => exec_bell_elsewhere n d h⟩
  case sq =>
    have hreach := exec_sqDoorbell_reaches hf hown ho hd hq hv hst hfn
    exact ⟨fun h => ⟨_, hreach, State.sqBell_behind h⟩, fun h hroom => ⟨_, hreach, State.sqBell_beyond h hroom⟩⟩
  case cq =>
    have hreach (h : s.cqOverflow c = s) := exec_cqDoorbell_reaches hf hown ho hd hc (by rw [h]; exact hv) hfn
    refine ⟨fun hst htime hbad => ?range, fun hst => ?overflow, fun hst hlate => ?late⟩
    case range =>
      have hnow := State.cqOverflow_inTime hv htime
      rw [hreach hnow, hnow, if_neg hst, State.cqBell_outOfRange _ hbad, hfn]
    case overflow =>
      have hnow := State.cqOverflow_inTime hv (by simp [hst])
      rw [hreach hnow, hnow, if_pos hst]
    case late =>
      have hover := State.cq?_cqOverflow hv hst (by
        have : ¬ s.since v.stallCourse ≤ max 1 (s.g Reg.HIF_CQ_CFG.stall_limit) := fun h => hlate fun _ => h
        omega)
      exact ⟨_, _, exec_cqDoorbell_reaches hf hown ho hd hc hover hfn, rfl, hover, rfl⟩
  case eq => rw [exec_eqDoorbell_reaches hf hown ho hd, State.eqBell_outOfRange he f f _ hbad, if_pos hsmall]
  case form =>
    obtain ⟨hsq, hcq, heq⟩ := exec_bell_dropped hf h
    exact ⟨fun h0 => hsq ((bellAt_iff o 0).2 (by omega)), fun h0 h1 => hcq ((bellAt_iff o 1).2 (by omega)),
      fun h0 h1 => heq ((bellAt_iff o 2).2 (by omega))⟩

end Sys2Proof.Machine
end

section
/-! The command interface of a function page (R221 to R225, R227, R234, R242 to R244): how a command starts, and what each makes of its object
where its checks pass. -/
namespace Sys2Proof.Machine

/-! ### The write of an opcode (R221, R224) -/

/-- R221, R224: the page of `f` takes a command. -/
structure State.FnIdle (s : State) (f : Nat) : Prop where
  off : s.mode ≠ .off
  strap : s.mode ≠ .strap
  fenced : s.mode ≠ .fenced
  flr : (s.fn f).flrBusy = false
  idle : (s.fn f).busy = false

/-- R221: command `op` begun in the page of `f`, on the argument words as they stand. -/
def State.fnStarted (s : State) (f op : Nat) : State :=
  s.setFn f { s.fn f with busy := true, op := op, args := (List.range 12).map (fun i => s.word (Reg.HIF_FN_CMD_ARG.off f i)) }

theorem State.fnWrite_shut {s : State} {f : Nat} (op : Nat) (run : State → State)
    (h : s.mode = .off ∨ s.mode = .strap ∨ s.mode = .fenced ∨ (s.fn f).flrBusy = true) : s.fnWrite f op run = s := if_pos h

theorem State.fnWrite_overrun {s : State} {f : Nat} (op : Nat) (run : State → State) (ho : s.mode ≠ .off) (hs : s.mode ≠ .strap)
    (hf : s.mode ≠ .fenced) (hflr : (s.fn f).flrBusy = false) (hbusy : (s.fn f).busy = true) :
    s.fnWrite f op run = s.setFn f { s.fn f with cmdOverrun := true } :=
  (if_neg (by simp [ho, hs, hf, hflr])).trans (if_pos hbusy)

theorem State.FnIdle.starts {s : State} {f op : Nat} (h : s.FnIdle f) (hop : op < 256) (run : State → State) :
    s.fnWrite f op run = run (s.fnStarted f op) := by
  have hopen : ¬ (s.mode = .off ∨ s.mode = .strap ∨ s.mode = .fenced ∨ (s.fn f).flrBusy = true) := by
    simp [h.off, h.strap, h.fenced, h.flr]
  simp only [State.fnWrite, hopen, h.idle, Bool.false_eq_true, if_false, Nat.mod_eq_of_lt hop]
  rfl

theorem State.FnIdle.runs {s : State} {f op : Nat} (h : s.FnIdle f) (hop : op < 256) (run : State → State) :
    (.next (s.fnWrite f op run) : Host.Outcome State Fault Refusal) = .next (run (s.fnStarted f op)) :=
  congrArg Host.Outcome.next (h.starts hop run)

theorem State.fnArg_fnStarted (s : State) (f op : Nat) {i : Nat} (hi : i < 12) :
    (s.fnStarted f op).fnArg f i = s.word (Reg.HIF_FN_CMD_ARG.off f i) := by
  simp [State.fnArg, State.fnStarted, List.getD_eq_getElem?_getD, hi]

theorem State.fnArg2_fnStarted (s : State) (f op : Nat) {i : Nat} (hi : i + 1 < 12) : (s.fnStarted f op).fnArg2 f i =
    s.word (Reg.HIF_FN_CMD_ARG.off f i) + s.word (Reg.HIF_FN_CMD_ARG.off f (i + 1)) * 2 ^ 32 := by
  rw [State.fnArg2, State.fnArg_fnStarted s f op (by omega), State.fnArg_fnStarted s f op hi]

/-- A field of a two-word argument that lies in its first word. -/
theorem bits_low_word {a b l w : Nat} (h : l + w ≤ 32) : bits (a + b * 2 ^ 32) l w = bits a l w := by
  have hlow : (a + b * 2 ^ 32) % 2 ^ 32 = a % 2 ^ 32 := Nat.add_mul_mod_self_right a b _
  refine bits_ext fun i hi => ?_
  have hbit := congrArg (fun x => x.testBit (l + i)) hlow
  simpa only [Nat.testBit_mod_two_pow, show l + i < 32 by omega, decide_true, Bool.true_and] using hbit

theorem bit_low_word {a b i : Nat} (h : i < 32) : bit (a + b * 2 ^ 32) i = bit a i := by
  have hbit := congrArg (fun x => x.testBit 0) (bits_low_word (a := a) (b := b) (l := i) (w := 1) h)
  simpa only [bit, testBit_bits, Nat.zero_lt_one, decide_true, Bool.true_and, Nat.add_zero] using hbit

/-! ### What a started command sees (R221) -/

@[simp] theorem State.cq?_fnStarted (s : State) (f op c : Nat) : (s.fnStarted f op).cq? c = s.cq? c := rfl
@[simp] theorem State.sqs_fnStarted (s : State) (f op : Nat) : (s.fnStarted f op).hif.sqs = s.hif.sqs := rfl
@[simp] theorem State.eps_fnStarted (s : State) (f op : Nat) : (s.fnStarted f op).hif.eps = s.hif.eps := rfl
@[simp] theorem State.eqs_fnStarted (s : State) (f op : Nat) : (s.fnStarted f op).hif.eqs = s.hif.eqs := rfl
@[simp] theorem State.ownsGroup_fnStarted (s : State) (f op g : Nat) : (s.fnStarted f op).ownsGroup f g = s.ownsGroup f g := rfl
@[simp] theorem State.eqNamed_fnStarted (s : State) (f op a : Nat) : (s.fnStarted f op).eqNamed f a = s.eqNamed f a := rfl
@[simp] theorem State.sqWritten_fnStarted (s : State) (f op q : Nat) (v : Sq) : (s.fnStarted f op).sqWritten q v = s.sqWritten q v := rfl
@[simp] theorem State.owedSlots_fnStarted (s : State) (f op c : Nat) (v : Cq) : (s.fnStarted f op).owedSlots c v = s.owedSlots c v := rfl

/-! ### The end of a command, and its checks (R221, R223 to R225) -/

theorem State.fn_fnDone (s : State) (f status detail : Nat) :
    (s.fnDone f status detail).fn f = { s.fn f with busy := false, status := status, detail := detail } := s.fn_setFn_self f _

theorem State.fnCheck_passes {s : State} {op : Nat} (h : s.fnMode op = true) : s.fnCheck op false false false = none := by
  simp [State.fnCheck, h]

/-- R224: creations are for SERVICE. -/
theorem State.fnMode_creates {s : State} {op : Nat} (hop : op = 1 ∨ op = 3 ∨ op = 6) (h : s.mode = .service) : s.fnMode op = true := by
  rw [State.fnMode, if_pos hop, h]
  rfl

/-- R224: destructions are for TRANSIT, SERVICE and DRAIN. -/
theorem State.fnMode_destroys {s : State} {op : Nat} (hop : op = 2 ∨ op = 4 ∨ op = 7) (h : s.live = true) : s.fnMode op = true := by
  rcases hop with rfl | rfl | rfl <;> exact h

/-- R224: SQ_RESTART and CQ_RESET are for SERVICE and DRAIN. -/
theorem State.fnMode_resets {s : State} {op : Nat} (hop : op = 5 ∨ op = 8) (h : s.mode = .service ∨ s.mode = .drain) :
    s.fnMode op = true := by
  rcases hop with rfl | rfl <;> rcases h with h | h <;> simp [State.fnMode, h]

/-! ### Creations (R222, R234, R242, R243) -/

/-- R222: the endpoint that EP_CREATE's arguments describe. -/
def State.epOfArgs (t : State) (f : Nat) : Ep :=
  { owner := f, slot := bits (t.fnArg f 0) 16 10, rcq := bits (t.fnArg f 1) 0 16, as_ := bits (t.fnArg f 1) 16 16,
    otBase := bits (t.fnArg2 f 2) 12 40 * 4096, m := bits (t.fnArg2 f 2) 0 5, rxStamp := bit (t.fnArg2 f 2) 6, destroying := false }

/-- R222, R234: the send queue that SQ_CREATE's arguments describe. -/
def State.sqOfArgs (t : State) (f : Nat) : Sq :=
  { owner := f, cq := bits (t.fnArg f 1) 0 16, ep := bits (t.fnArg f 1) 16 16, n := bits (t.fnArg f 2) 0 5, tc := bits (t.fnArg f 2) 8 2,
    base := t.fnArg2 f 4, l := BitVec.ofNat 32 (t.fnArg f 3), f := BitVec.ofNat 32 (t.fnArg f 3), c := BitVec.ofNat 32 (t.fnArg f 3),
    state := .ready, errCode := 0, errCtr := 0, ents := [], fetched := false, flushDue := false, lastUd := 0, lastOp := 0, lastStamp := false,
    errOwed := false, reads := [] }

/-- R222, R242: the CQ that CQ_CREATE's arguments describe. -/
def State.cqOfArgs (t : State) (f : Nat) : Cq :=
  { owner := f, n := bits (t.fnArg f 2) 0 5, start := BitVec.ofNat 32 (t.fnArg f 3), prod := BitVec.ofNat 32 (t.fnArg f 3),
    cons := BitVec.ofNat 32 (t.fnArg f 3), base := t.fnArg2 f 4, vector := bits (t.fnArg f 1) 0 11,
    wb := if bit (t.fnArg f 1) 16 then some (t.fnArg2 f 6) else none, armed := false, state := .active, held := [], owed := [], stallCourse := 0 }

/-- R222, R243: the event ring that EQ_CREATE's arguments describe. -/
def State.eqOfArgs (t : State) (f : Nat) : Eq :=
  { owner := f, n := bits (t.fnArg f 2) 0 5, start := BitVec.ofNat 32 (t.fnArg f 3), prod := BitVec.ofNat 32 (t.fnArg f 3),
    cons := BitVec.ofNat 32 (t.fnArg f 3), base := t.fnArg2 f 4, vector := bits (t.fnArg f 1) 0 11, armed := false, held := [], lost := 0 }

section
variable {t : State} {f : Nat}

theorem State.epCreate_creates {e : Nat} (he : e = bits (t.fnArg f 0) 0 16) (hmode : t.mode = .service) (hown : t.ownsGroup f (e / 4) = true)
    (hfree : t.ep? e = none) (hcq : t.cqOf (bits (t.fnArg f 1) 0 16) f = true) (hm : bits (t.fnArg2 f 2) 0 5 ≤ 20)
    (hquar : t.inQuarantine e = false) (hslot : t.slotTakes (bits (t.fnArg f 0) 16 10) f = true) :
    t.epCreate f = (t.setEp e (t.epOfArgs f)).fnDone f stOK 0 := by
  simp only [State.epCreate, ← he, hown, hfree, hcq, hquar, hslot, Nat.not_lt.2 hm, decide_false, Bool.not_true, Option.isSome_none,
    Bool.or_self, State.fnCheck_passes (State.fnMode_creates (.inl rfl) hmode), State.fnAct]
  rfl

theorem State.exists_of_epOf {e : Nat} (h : t.epOf e f = true) : ∃ v, t.ep? e = some v := by
  unfold State.epOf at h
  split at h
  next v hv => exact ⟨v, hv⟩
  next => cases h

theorem State.sqCreate_creates {q : Nat} (hq : q = bits (t.fnArg f 0) 0 17) (hmode : t.mode = .service) (hown : t.ownsGroup f (q / 8) = true)
    (hfree : t.sq? q = none) (hcq : t.cqOf (bits (t.fnArg f 1) 0 16) f = true) (hep : t.epOf (bits (t.fnArg f 1) 16 16) f = true)
    (hring : ringOk (bits (t.fnArg f 2) 0 5) (t.fnArg2 f 4) 64 = true)
    (hgoing : ∀ e, t.ep? (bits (t.fnArg f 1) 16 16) = some e → e.destroying = false) :
    t.sqCreate f = (t.setSq q (t.sqOfArgs f)).fnDone f stOK 0 := by
  obtain ⟨e, he⟩ := State.exists_of_epOf hep
  simp only [State.sqCreate, ← hq, hown, hfree, hcq, hep, hring, he, hgoing e he, Bool.not_true, Option.isSome_none, Bool.or_self,
    State.fnCheck_passes (State.fnMode_creates (.inr (.inl rfl)) hmode), State.fnAct]
  rfl

theorem State.cqCreate_creates {c : Nat} (hc : c = bits (t.fnArg f 0) 0 16) (hmode : t.mode = .service) (hown : t.ownsGroup f (c / 4) = true)
    (hfree : t.cq? c = none) (hvec : bits (t.fnArg f 1) 0 11 < vectors f) (hring : ringOk (bits (t.fnArg f 2) 0 5) (t.fnArg2 f 4) 32 = true)
    (hstart : startOk (bits (t.fnArg f 2) 0 5) (t.fnArg f 3) = true) (hwb : bit (t.fnArg f 1) 16 = true → t.fnArg2 f 6 % 8 = 0) :
    t.cqCreate f = (t.setCq c (t.cqOfArgs f)).fnDone f stOK 0 := by
  have haligned : (bit (t.fnArg f 1) 16 && t.fnArg2 f 6 % 8 != 0) = false := by
    cases hb : bit (t.fnArg f 1) 16
    · rfl
    · simp [hwb hb]
  simp only [State.cqCreate, ← hc, hown, hfree, hring, hstart, haligned, Nat.not_le.2 hvec, decide_false, Bool.not_true, Option.isSome_none,
    Bool.or_self, State.fnCheck_passes (State.fnMode_creates (.inr (.inr rfl)) hmode), State.fnAct]
  rfl

/-- R226: the endpoint takes nothing more, and its teardown begins. -/
theorem State.epDestroy_begins {e : Nat} {v : Ep} (he : e = bits (t.fnArg f 0) 0 16) (hlive : t.live = true) (hown : t.ownsGroup f (e / 4) = true)
    (hv : t.ep? e = some v) (hfn : v.owner = f) (hsq : ∀ q ∈ t.hif.sqs, q.2.ep ≠ e) (hkey : t.epHasKey e = false) :
    t.epDestroy f = ((t.setEp e { v with destroying := true }).teardown e).colLeaveAll e := by
  have hunbound : t.hif.sqs.any (fun q => q.2.ep == e) = false := List.any_eq_false.2 fun q hq => by simpa using hsq q hq
  have hmine : t.epOf e f = true := by simp [State.epOf, hv, hfn]
  simp only [State.epDestroy, ← he, hown, hunbound, hmine, hkey, hv, Bool.not_true, Bool.or_self,
    State.fnCheck_passes (State.fnMode_destroys (.inl rfl) hlive)]

/-- A command on a send queue that exists, its checks passed. -/
theorem State.sqCommand_acts {op q : Nat} {v : Sq} (state : Sq → Bool) (act : Nat → Sq → State) (hq : q = bits (t.fnArg f 0) 0 17)
    (hv : t.sq? q = some v) (hmode : t.fnMode op = true) (hown : t.ownsGroup f (q / 8) = true) (hst : state v = false) :
    t.sqCommand f op state act = act q v := by
  simp only [State.sqCommand, ← hq, hv, hown, hst, Bool.not_true, State.fnCheck_passes hmode]

end

/-! ### The commands as they are written -/

section
variable {s : State} {f : Nat} (h : s.FnIdle f)
include h

theorem State.FnIdle.exec_epCreate : exec (.epCreate f) s = .next ((s.fnStarted f 1).epCreate f) :=
  h.runs (by decide) _

theorem State.FnIdle.exec_epDestroy : exec (.epDestroy f) s = .next ((s.fnStarted f 2).epDestroy f) :=
  h.runs (by decide) _

theorem State.FnIdle.exec_sqCreate : exec (.sqCreate f) s = .next ((s.fnStarted f 3).sqCreate f) :=
  h.runs (by decide) _

theorem State.FnIdle.exec_cqCreate : exec (.cqCreate f) s = .next ((s.fnStarted f 6).cqCreate f) :=
  h.runs (by decide) _

/-- R221: an opcode that R222 does not define. -/
theorem State.FnIdle.exec_undefined {op : Nat} (hop : op < 256) (hnot : op = 0 ∨ 10 < op) :
    exec (.fnCmdUndefined f op) s = .next ((s.fnStarted f op).fnDone f stMALFORMED 1) :=
  (if_neg (by rw [Nat.mod_eq_of_lt hop]; omega)).trans (h.runs hop _)

section
variable {q : Nat} {v : Sq} (hq : q = bits (s.word (Reg.HIF_FN_CMD_ARG.off f 0)) 0 17) (hv : s.sq? q = some v)
  (hown : s.ownsGroup f (q / 8) = true)
include hq hv hown

theorem State.FnIdle.exec_sqDestroy (hlive : s.live = true) :
    exec (.sqDestroy f) s = .next ((s.fnStarted f 4).setSq q { v with state := .destroying }) := by
  refine (h.runs (by decide) _).trans (congrArg Host.Outcome.next ?_)
  exact State.sqCommand_acts _ _ (by rw [State.fnArg_fnStarted s f 4 (by decide), hq]) hv (State.fnMode_destroys (.inr (.inl rfl)) hlive) hown rfl

/-- R234: the queue begins anew at the counter that ARG3 gives. -/
theorem State.FnIdle.exec_sqRestart (hmode : s.mode = .service ∨ s.mode = .drain) (hst : v.state = .error) (hwritten : s.sqWritten q v = true)
    (hcq : ∀ c, s.cq? v.cq = some c → c.state ≠ .overflow) (n : RingCtr)
    (hn : n = BitVec.ofNat 32 (s.word (Reg.HIF_FN_CMD_ARG.off f 3))) : exec (.sqRestart f) s =
      .next (((s.fnStarted f 5).setSq q
        { v with state := .ready, l := n, f := n, c := n, errCode := 0, errCtr := 0, fetched := false, errOwed := false }).settleXlt.fnDone
          f stOK 0) := by
  have harg : q = bits ((s.fnStarted f 5).fnArg f 0) 0 17 := by rw [State.fnArg_fnStarted s f 5 (by decide), hq]
  refine (h.runs (by decide) _).trans (congrArg Host.Outcome.next ?_)
  refine (State.sqCommand_acts _ _ harg hv (State.fnMode_resets (.inl rfl) hmode) hown ?_).trans ?_
  · simp only [← harg, State.cq?_fnStarted, State.sqWritten_fnStarted, hst, hwritten, bne_self_eq_false, Bool.not_true,
      Bool.or_self, Bool.false_or]
    split
    next c hc => simpa using hcq c hc
    next => rfl
  · rw [State.fnArg_fnStarted s f 5 (by decide), hn]

end

section
variable {c : Nat} {v : Cq} (hc : c = bits (s.word (Reg.HIF_FN_CMD_ARG.off f 0)) 0 16) (hv : s.cq? c = some v)
  (hown : s.ownsGroup f (c / 4) = true)
include hc hv hown

theorem State.FnIdle.exec_cqDestroy (hlive : s.live = true) (hsq : ∀ q ∈ s.hif.sqs, q.2.cq ≠ c) (hep : ∀ e ∈ s.hif.eps, e.2.rcq ≠ c) :
    exec (.cqDestroy f) s = .next (((s.fnStarted f 7).delCq c).fnDone f stOK 0) := by
  have hsqs : s.hif.sqs.any (fun q => q.2.cq == c) = false := List.any_eq_false.2 fun q hq => by simpa using hsq q hq
  have heps : s.hif.eps.any (fun e => e.2.rcq == c) = false := List.any_eq_false.2 fun e he => by simpa using hep e he
  refine (h.runs (by decide) _).trans (congrArg Host.Outcome.next ?_)
  simp (disch := decide) only [State.fnArg_fnStarted, ← hc, State.cq?_fnStarted, State.ownsGroup_fnStarted, State.sqs_fnStarted,
    State.eps_fnStarted, hv, hown, hsqs, heps, Option.isNone_some, Bool.not_true, Bool.or_self,
    State.fnCheck_passes (State.fnMode_destroys (s := s.fnStarted f 7) (.inr (.inr rfl)) hlive), State.fnAct, State.delCq]

theorem State.FnIdle.exec_cqReset (hmode : s.mode = .service ∨ s.mode = .drain)
    (hstart : startOk v.n (s.word (Reg.HIF_FN_CMD_ARG.off f 3)) = true) (hroom : s.owedSlots c v ≤ 2 ^ v.n) : exec (.cqReset f) s = .next
      (((s.fnStarted f 8).cqReset c v (BitVec.ofNat 32 (s.word (Reg.HIF_FN_CMD_ARG.off f 3)))).settle.fnDone f stOK 0) := by
  refine (h.runs (by decide) _).trans (congrArg Host.Outcome.next ?_)
  simp (disch := decide) only [State.fnArg_fnStarted, ← hc, State.cq?_fnStarted, State.ownsGroup_fnStarted, State.owedSlots_fnStarted,
    hv, hown, hstart, Nat.not_lt.2 hroom, decide_false, Bool.not_true, Bool.or_self,
    State.fnCheck_passes (State.fnMode_resets (s := s.fnStarted f 8) (.inr rfl) hmode), State.fnAct]

end

section
variable {r : Nat} (hr : s.eqNamed f (bits (s.word (Reg.HIF_FN_CMD_ARG.off f 0)) 0 3) = some r)
include hr

theorem State.FnIdle.exec_eqCreate (hfree : Tbl.find? s.hif.eqs r = none)
    (hvec : bits (s.word (Reg.HIF_FN_CMD_ARG.off f 1)) 0 11 < vectors f)
    (hring : ringOk (bits (s.word (Reg.HIF_FN_CMD_ARG.off f 2)) 0 5)
      (s.word (Reg.HIF_FN_CMD_ARG.off f 4) + s.word (Reg.HIF_FN_CMD_ARG.off f 5) * 2 ^ 32) 16 = true)
    (hstart : startOk (bits (s.word (Reg.HIF_FN_CMD_ARG.off f 2)) 0 5) (s.word (Reg.HIF_FN_CMD_ARG.off f 3)) = true) :
    exec (.eqCreate f) s = .next (((s.fnStarted f 9).setEq r ((s.fnStarted f 9).eqOfArgs f)).fnDone f stOK 0) := by
  refine (h.runs (by decide) _).trans (congrArg Host.Outcome.next ?_)
  simp (disch := decide) only [State.fnArg_fnStarted, State.fnArg2_fnStarted, State.eqNamed_fnStarted, State.eqs_fnStarted, hr, hfree,
    Nat.not_le.2 hvec, hring, hstart, Option.isSome_none, decide_false, Bool.not_true, Bool.or_self,
    State.fnCheck_passes (s := s.fnStarted f 9) (op := 9) rfl, State.fnAct, State.eqOfArgs]

theorem State.FnIdle.exec_eqDestroy {e : Eq} (he : Tbl.find? s.hif.eqs r = some e) :
    exec (.eqDestroy f) s = .next (((s.fnStarted f 10).delEq r).fnDone f stOK 0) := by
  refine (h.runs (by decide) _).trans (congrArg Host.Outcome.next ?_)
  simp (disch := decide) only [State.fnArg_fnStarted, State.eqNamed_fnStarted, State.eqs_fnStarted, hr, he, Option.isNone_some,
    State.fnCheck_passes (s := s.fnStarted f 10) (op := 10) rfl, State.fnAct, State.delEq]

end
end

/-! ### The statement -/

theorem State.fnDone_ok (s : State) (f : Nat) : ((s.fnDone f stOK 0).fn f).busy = false ∧ ((s.fnDone f stOK 0).fn f).status = stOK ∧
    ((s.fnDone f stOK 0).fn f).detail = 0 := by
  rw [State.fn_fnDone]
  exact ⟨rfl, rfl, rfl⟩

section
variable {s : State} {f : Nat} (h : s.FnIdle f) (A : Nat → Nat) (hA : A = fun i => s.word (Reg.HIF_FN_CMD_ARG.off f i))
include h hA

theorem State.FnIdle.epCreate_ok {e : Nat} (he : e = bits (A 0) 0 16) (hown : s.ownsGroup f (e / 4) = true) (hmode : s.mode = .service)
    (hfree : s.ep? e = none) (hcq : s.cqOf (bits (A 1) 0 16) f = true) (hm : bits (A 2) 0 5 ≤ 20) (hquar : s.inQuarantine e = false)
    (hslot : s.slotTakes (bits (A 0) 16 10) f = true) : ∃ t v, exec (.epCreate f) s = .next t ∧ t.ep? e = some v ∧ v.owner = f ∧
      v.slot = bits (A 0) 16 10 ∧ v.rcq = bits (A 1) 0 16 ∧ v.as_ = bits (A 1) 16 16 ∧ v.m = bits (A 2) 0 5 ∧ v.rxStamp = bit (A 2) 6 ∧
      v.destroying = false ∧ (t.fn f).busy = false ∧ (t.fn f).status = stOK ∧ (t.fn f).detail = 0 := by
  subst hA
  have hcreated : (s.fnStarted f 1).epCreate f = ((s.fnStarted f 1).setEp e ((s.fnStarted f 1).epOfArgs f)).fnDone f stOK 0 := by
    refine State.epCreate_creates ?_ hmode hown hfree ?_ ?_ hquar ?_ <;>
      simpa (disch := decide) only [State.fnArg_fnStarted, State.fnArg2_fnStarted, bits_low_word]
  refine ⟨_, _, h.exec_epCreate.trans (congrArg Host.Outcome.next hcreated), State.ep?_setEp_self _ e _, rfl, ?_, ?_, ?_, ?_, ?_, rfl,
    State.fnDone_ok _ f⟩ <;>
    simp (disch := decide) only [State.epOfArgs, State.fnArg_fnStarted, State.fnArg2_fnStarted, bits_low_word, bit_low_word]

theorem State.FnIdle.sqCreate_ok {q : Nat} (hq : q = bits (A 0) 0 17) (hmode : s.mode = .service) (hown : s.ownsGroup f (q / 8) = true)
    (hfree : s.sq? q = none) (hcq : s.cqOf (bits (A 1) 0 16) f = true) (hep : s.epOf (bits (A 1) 16 16) f = true)
    (hring : ringOk (bits (A 2) 0 5) (A 4 + A 5 * 2 ^ 32) 64 = true)
    (hgoing : ∀ e, s.ep? (bits (A 1) 16 16) = some e → e.destroying = false) : ∃ t v, exec (.sqCreate f) s = .next t ∧ t.sq? q = some v ∧
      v.owner = f ∧ v.cq = bits (A 1) 0 16 ∧ v.ep = bits (A 1) 16 16 ∧ v.n = bits (A 2) 0 5 ∧ v.tc = bits (A 2) 8 2 ∧
      v.base = A 4 + A 5 * 2 ^ 32 ∧ v.l = BitVec.ofNat 32 (A 3) ∧ v.f = v.l ∧ v.c = v.l ∧ v.state = .ready ∧ v.ents = [] ∧
      (t.fn f).busy = false ∧ (t.fn f).status = stOK ∧ (t.fn f).detail = 0 := by
  subst hA
  have hcreated : (s.fnStarted f 3).sqCreate f = ((s.fnStarted f 3).setSq q ((s.fnStarted f 3).sqOfArgs f)).fnDone f stOK 0 := by
    refine State.sqCreate_creates ?_ hmode hown hfree ?_ ?_ ?_ ?_ <;>
      simpa (disch := decide) only [State.fnArg_fnStarted, State.fnArg2_fnStarted]
  refine ⟨_, _, h.exec_sqCreate.trans (congrArg Host.Outcome.next hcreated), State.sq?_setSq_self _ q _, rfl, ?_, ?_, ?_, ?_, ?_, ?_, rfl, rfl, rfl,
    rfl, State.fnDone_ok _ f⟩ <;>
    simp (disch := decide) only [State.sqOfArgs, State.fnArg_fnStarted, State.fnArg2_fnStarted]

theorem State.FnIdle.cqCreate_ok {c : Nat} (hc : c = bits (A 0) 0 16) (hmode : s.mode = .service) (hown : s.ownsGroup f (c / 4) = true)
    (hfree : s.cq? c = none) (hvec : bits (A 1) 0 11 < vectors f) (hring : ringOk (bits (A 2) 0 5) (A 4 + A 5 * 2 ^ 32) 32 = true)
    (hstart : startOk (bits (A 2) 0 5) (A 3) = true) (hwb : bit (A 1) 16 = true → (A 6 + A 7 * 2 ^ 32) % 8 = 0) : ∃ t v,
      exec (.cqCreate f) s = .next t ∧ t.cq? c = some v ∧ v.owner = f ∧ v.n = bits (A 2) 0 5 ∧ v.vector = bits (A 1) 0 11 ∧
      v.base = A 4 + A 5 * 2 ^ 32 ∧ v.start = BitVec.ofNat 32 (A 3) ∧ v.prod = v.start ∧ v.cons = v.start ∧ v.armed = false ∧
      v.state = .active ∧ v.held = [] ∧ (t.fn f).busy = false ∧ (t.fn f).status = stOK ∧ (t.fn f).detail = 0 := by
  subst hA
  have hcreated : (s.fnStarted f 6).cqCreate f = ((s.fnStarted f 6).setCq c ((s.fnStarted f 6).cqOfArgs f)).fnDone f stOK 0 := by
    refine State.cqCreate_creates ?_ hmode hown hfree ?_ ?_ ?_ ?_ <;>
      simpa (disch := decide) only [State.fnArg_fnStarted, State.fnArg2_fnStarted]
  refine ⟨_, _, h.exec_cqCreate.trans (congrArg Host.Outcome.next hcreated), State.cq?_setCq_self _ c _, rfl, ?_, ?_, ?_, ?_, rfl, rfl, rfl,
    rfl, rfl, State.fnDone_ok _ f⟩ <;>
    simp (disch := decide) only [State.cqOfArgs, State.fnArg_fnStarted, State.fnArg2_fnStarted]

end

/-- Settles O38: each command by its equation on the page in which it has started. -/
theorem functionCommandStates : Obligations.FunctionCommandStates := by
  refine ⟨fun s f ho hs hf hflr hidle => ?commands, fun s f op run => ⟨State.fnWrite_shut op run, State.fnWrite_overrun op run⟩⟩
  have h : s.FnIdle f := ⟨ho, hs, hf, hflr, hidle⟩
  intro args started A done
  refine ⟨h.exec_epCreate, h.exec_epDestroy, h.exec_sqCreate, h.exec_cqCreate,
    fun e he hown => ⟨fun hmode hfree hcq hm hquar hslot => h.epCreate_ok A rfl he hown hmode hfree hcq hm hquar hslot,
      fun v hlive hv hfn hsq hkey => ?epDestroy⟩,
    fun q hq hmode hown hfree hcq hep hring hgoing => h.sqCreate_ok A rfl hq hmode hown hfree hcq hep hring hgoing,
    fun c hc hmode hown hfree hvec hring hstart hwb => h.cqCreate_ok A rfl hc hmode hown hfree hvec hring hstart hwb,
    fun op hop hnot => h.exec_undefined hop hnot,
    fun q v hq hv hown => ⟨h.exec_sqDestroy hq hv hown, h.exec_sqRestart hq hv hown⟩,
    fun c v hc hv hown => ⟨fun hlive hsq hep => ?cqDestroy, h.exec_cqReset hc hv hown⟩,
    fun r hr => ⟨fun hfree hvec hring hstart => ?eqCreate, fun e he => ?eqDestroy⟩⟩
  case epDestroy =>
    exact h.exec_epDestroy.trans (congrArg Host.Outcome.next (State.epDestroy_begins (t := s.fnStarted f 2)
      (by rw [State.fnArg_fnStarted s f 2 (by decide)]; exact he) hlive hown hv hfn hsq hkey))
  case cqDestroy =>
    obtain ⟨hbusy, hstatus, -⟩ := State.fnDone_ok ((s.fnStarted f 7).delCq c) f
    exact ⟨_, h.exec_cqDestroy hc hv hown hlive hsq hep, State.cq?_delCq_self _ c, hbusy, hstatus⟩
  case eqCreate =>
    obtain ⟨hbusy, hstatus, -⟩ := State.fnDone_ok ((s.fnStarted f 9).setEq r ((s.fnStarted f 9).eqOfArgs f)) f
    refine ⟨_, _, h.exec_eqCreate hr hfree hvec hring hstart, State.eqs_setEq_self _ r _, rfl, rfl, rfl, rfl, ?_, rfl, rfl, hbusy, hstatus⟩
    simp (disch := decide) only [State.eqOfArgs, State.fnArg_fnStarted]
  case eqDestroy =>
    obtain ⟨hbusy, hstatus, -⟩ := State.fnDone_ok ((s.fnStarted f 10).delEq r) f
    exact ⟨_, h.exec_eqDestroy hr he, State.eqs_delEq_self _ r, hbusy, hstatus⟩

end Sys2Proof.Machine
end

section
/-! What ends the objects of a function (R211 to R213, R226, R227, R272, R381): the rest of a destruction, the end of a quarantine, another range of
queue groups, and a Function Level Reset. -/
namespace Sys2Proof.Machine

/-! ### The rest of a destruction (R226, R227) -/

section
variable {s : State} {f : Nat} (hbusy : (s.fn f).busy = true)
include hbusy

theorem exec_epDestroyComplete {e : Nat} (hop : (s.fn f).op = 2) (he : e = bits (s.fnArg f 0) 0 16) : exec (.epDestroyComplete f) s = .next
    (if (s.teardown e).epBusy e then s.teardown e else ((s.teardown e).removeEp e).fnDone f stOK 0) := by
  subst he
  have hruns : ¬ ¬ ((s.fn f).busy = true ∧ (s.fn f).op = 2) := not_not.2 ⟨hbusy, hop⟩
  show execEpDestroyComplete f s = _
  rw [execEpDestroyComplete, if_neg hruns]
  dsimp only
  split <;> rfl

theorem exec_sqDestroyComplete {q : Nat} {v : Sq} (hop : (s.fn f).op = 4) (hq : q = bits (s.fnArg f 0) 0 17) (hv : s.sq? q = some v)
    (hwritten : s.sqWritten q v = true) :
    exec (.sqDestroyComplete f) s = .next ((s.delSq q).fnDone f stOK 0) := by
  subst hq
  show execSqDestroyComplete f s = _
  simp only [execSqDestroyComplete, hbusy, hop, hv, hwritten, and_self, not_true_eq_false, if_false, if_true, State.delSq]

end

/-! ### Quarantine (R226) -/

/-- The number of an endpoint that is gone waits 2 × LIFE courses. -/
theorem State.removeEp_gone {s : State} {e : Nat} {v : Ep} (hv : s.ep? e = some v) : (s.removeEp e).ep? e = none ∧
    Tbl.find? (s.removeEp e).hif.quar e = some ⟨s.crs.course + BitVec.ofNat 48 (2 * s.life), s.crs.cycle⟩ := by
  simp only [State.removeEp, hv]
  exact ⟨Tbl.find?_del_self _ e, Tbl.find?_ins_self _ e _⟩

theorem exec_epQuarantineEnd_over {s : State} {e : Nat} (h : s.inQuarantine e = false) :
    exec (.epQuarantineEnd e) s = .next { s with hif := { s.hif with quar := Tbl.del s.hif.quar e } } := if_neg (by simp [h])

theorem exec_epQuarantineEnd_lasts {s : State} {e : Nat} (h : s.inQuarantine e = true) : exec (.epQuarantineEnd e) s = .next s := if_pos h

/-! ### Queue groups (R213) -/

section
variable {s : State} {f v : Nat} (ho : s.mode ≠ .off) (hs : s.mode ≠ .strap) (hf : s.mode ≠ .fenced)
include ho hs hf

theorem exec_fnGroupsWrite_taken (h : s.groupsRefused f (bits v 0 14) (bits v 14 14) = false) :
    exec (.fnGroupsWrite (.fn (hpOf f * 256)) f v) s = .next (s.setWord (Reg.HIF_FN_GROUPS.off f) (v % 2 ^ 28)) :=
  congrArg Host.Outcome.next ((if_neg (by simp [ho, hs, hf])).trans (if_neg (by simp [h])))

theorem exec_fnGroupsWrite_refused (h : s.groupsRefused f (bits v 0 14) (bits v 14 14) = true) :
    exec (.fnGroupsWrite (.fn (hpOf f * 256)) f v) s = .next (s.setFn f { s.fn f with cfgRefused := true }) :=
  congrArg Host.Outcome.next ((if_neg (by simp [ho, hs, hf])).trans (if_pos h))

end

theorem exec_fnGroupsWrite_otherRequester {s : State} {req : Requester} {f : Nat} (v : Nat) (h : req ≠ .fn (hpOf f * 256)) :
    exec (.fnGroupsWrite req f v) s = .next s :=
  congrArg Host.Outcome.next (if_pos (.inr (.inr (.inr h))))

/-! ### Function Level Reset (R211, R272, R381) -/

section
variable {s : State} {f : Nat} (ho : s.mode ≠ .off) (hf : f < 1024) (hp : s.hpPresent (hpOf f) = true)
include ho hf hp

theorem exec_flr (u : State) (hu : u = (flrSet f).foldl (fun t g => if g = f ∨ (t.fn g).exists_ then t.flrOne g else t) s) :
    exec (.flr f) s = .next (if isPf f then u.loseRegions (hpOf f) else u).settle := by
  subst hu
  exact if_neg (by simp [ho, hf, hp])

theorem exec_flr_vf (hvf : isPf f = false) : exec (.flr f) s = .next (s.flrOne f).settle := by
  rw [exec_flr ho hf hp _ rfl, if_neg (by simp [hvf]), flrSet, if_neg (by simp [hvf])]
  simp only [List.foldl_cons, List.foldl_nil, true_or, if_true]

theorem exec_flr_pf (hpf : isPf f = true) (u : State)
    (hu : u = (flrSet f).foldl (fun t g => if g = f ∨ (t.fn g).exists_ then t.flrOne g else t) s) :
    exec (.flr f) s = .next (u.loseRegions (hpOf f)).settle := by
  rw [exec_flr ho hf hp u hu, if_pos hpf]

end

/-- R211, R221: a reset function reports its reset, and no command of its runs. -/
theorem State.fn_flrOne (s : State) (f : Nat) : ((s.flrOne f).fn f).flrBusy = true ∧ ((s.flrOne f).fn f).busy = false := by
  rw [State.flrOne, State.fn_setFn_self]
  exact ⟨rfl, rfl⟩

/-- R381: a key of the function's range, or of the lost table of its host port, is still being revoked. -/
def State.flrWaits (s : State) (f : Nat) : Bool :=
  s.rma.keys.any (fun k => k.2.state == 2 && keyHp k.1 == hpOf f && (s.ownsEntry f (keyEntry k.1) || s.rma.tabEnd.contains (hpOf f)))

theorem State.flrWaits_iff (s : State) (f : Nat) : s.flrWaits f = true ↔
    ∃ k ∈ s.rma.keys, k.2.state = 2 ∧ keyHp k.1 = hpOf f ∧ (s.ownsEntry f (keyEntry k.1) = true ∨ hpOf f ∈ s.rma.tabEnd) := by
  simp only [State.flrWaits, List.any_eq_true, Bool.and_eq_true, Bool.or_eq_true, beq_iff_eq, List.contains_iff_mem, and_assoc]

theorem exec_flrComplete {s : State} {f : Nat} (hbusy : (s.fn f).flrBusy = true) (u : State) (hu : u = (s.invalidateFn (hpOf f) f).1) :
    exec (.flrComplete f) s = .next (if s.flrWaits f then s else u.setFn f { u.fn f with flrBusy := false }) := by
  subst hu
  show execFlrComplete f s = _
  unfold execFlrComplete
  cases hwaits : s.flrWaits f
  · exact if_pos ⟨hbusy, by rw [← State.flrWaits, hwaits]; exact Bool.false_ne_true⟩
  · exact if_neg fun h => h.2 hwaits

/-! ### The statement -/

/-- Settles O39: each command by its equations, and the endpoint and the function read back. -/
theorem endsOfObjects : Obligations.EndsOfObjects := by
  refine ⟨fun s f e hbusy hop he => exec_epDestroyComplete hbusy hop he, fun s e v hv => State.removeEp_gone hv,
    fun s e h => exec_epQuarantineEnd_over h, fun s e h => exec_epQuarantineEnd_lasts h, fun s f q v hbusy hop hq hv hwritten => ?sq,
    fun s f v ho hs hf req hreq => ?groups, fun s req f v h => exec_fnGroupsWrite_otherRequester v h, fun s f ho hf hp => ?flr,
    fun s f hbusy hkeys => ?complete, fun s f hbusy k hk hst hhp hmine => ?waits⟩
  case sq =>
    obtain ⟨hbusy', hstatus, -⟩ := State.fnDone_ok (s.delSq q) f
    exact ⟨_, exec_sqDestroyComplete hbusy hop hq hv hwritten, State.sq?_delSq_self s q, hbusy', hstatus⟩
  case groups =>
    subst hreq
    refine ⟨fun h => ⟨_, exec_fnGroupsWrite_taken ho hs hf h, ?_, State.setWord_stays _ _ (Has.refl _) (Stays.refl s)⟩,
      exec_fnGroupsWrite_refused ho hs hf⟩
    rw [State.word_setWord_self]
    omega
  case flr =>
    by_cases hpf : isPf f = true
    · exact ⟨_, exec_flr_pf ho hf hp hpf _ rfl, fun hvf => absurd (hvf.symm.trans hpf) Bool.false_ne_true, fun _ => rfl⟩
    · have hvf := Bool.eq_false_iff.2 hpf
      exact ⟨_, exec_flr_vf ho hf hp hvf, fun _ => ⟨rfl, s.fn_flrOne f⟩, fun h => absurd h hpf⟩
  case complete =>
    have hdone : ¬ s.flrWaits f = true := fun h => by
      obtain ⟨k, hk, hwaits⟩ := (s.flrWaits_iff f).1 h
      exact hkeys k hk hwaits
    refine ⟨_, _, (exec_flrComplete hbusy _ rfl).trans (congrArg Host.Outcome.next (if_neg hdone)), rfl, rfl, ?_⟩
    rw [State.fn_setFn_self]
  case waits =>
    exact (exec_flrComplete hbusy _ rfl).trans (congrArg Host.Outcome.next (if_pos ((s.flrWaits_iff f).2 ⟨k, hk, hst, hhp, .inl hmine⟩)))

end Sys2Proof.Machine
end

section
/-! The life of a work entry, and what ends a full ring (R228, R231 to R233, R237, R240, R246, R554). -/
namespace Sys2Proof.Machine

/-! ### Fetch and return (R228, R554) -/

/-- R228: one read of queue `q`, for the entries that a read covers. -/
def State.fetchOne (s : State) (q : Nat) (v : Sq) : State :=
  let u := ((s.setSq q { v with f := v.f + BitVec.ofNat 32 v.canFetch, reads := v.reads ++ [(v.f, v.canFetch)], fetched := true }).bumpBy
    Ctr.HIF_FETCH_COUNT v.canFetch).hostRead (hpOf v.owner) v.owner (v.base + 64 * (v.f.toNat % 2 ^ v.n)) (64 * v.canFetch)
  { u with hif := { u.hif with fetchTurn := q } }

/-- A device with one queue has no choice of whom to fetch for. -/
theorem exec_workFetch_single {s : State} {q : Nat} {v : Sq} (hone : s.hif.sqs = [(q, v)]) (hmay : s.mayFetch v = true) :
    exec .workFetch s = .next (s.fetchOne q v) := by
  have hready : s.hif.sqs.filter (fun e => s.mayFetch e.2) = [(q, v)] := by
    rw [hone, List.filter_singleton, hmay, cond_true]
  have hnext : (([(q, v)] : List (Nat × Sq)).find? (fun e => s.hif.fetchTurn < e.1)).or [(q, v)].head? = some (q, v) := by
    cases hturn : decide (s.hif.fetchTurn < q) <;> simp [hturn]
  show execWorkFetch s = _
  simp only [execWorkFetch, hready, hnext]
  rfl

theorem State.hif_hostRead (s : State) (hp requester addr len : Nat) : (s.hostRead hp requester addr len).hif = s.hif :=
  (State.hostRead_stays hp requester addr len (Has.refl _) (Stays.refl s)).hif (by decide)

section
variable (s : State) (q : Nat) (v : Sq)

theorem State.sq?_fetchOne : (s.fetchOne q v).sq? q =
    some { v with f := v.f + BitVec.ofNat 32 v.canFetch, reads := v.reads ++ [(v.f, v.canFetch)], fetched := true } := by
  rw [State.sq?, State.fetchOne]
  dsimp only
  rw [State.hif_hostRead]
  exact Tbl.find?_ins_self _ q _

theorem State.ctr_fetchOne : (s.fetchOne q v).ctr Ctr.HIF_FETCH_COUNT = s.ctr Ctr.HIF_FETCH_COUNT + BitVec.ofNat 64 v.canFetch :=
  (State.ctr_of_stays (State.hostRead_stays _ _ _ _ (Has.refl _) (Stays.refl _)) (by decide) _).trans (State.ctr_bumpBy_self _ _ _)

theorem State.out_fetchOne : (s.fetchOne q v).out =
    (s.hostRead (hpOf v.owner) v.owner (v.base + 64 * (v.f.toNat % 2 ^ v.n)) (64 * v.canFetch)).out := by
  unfold State.fetchOne State.hostRead
  show State.out (if s.mastering = true then _ else _) = _
  split <;> rfl

end

theorem Sq.canFetch_le (v : Sq) : v.canFetch ≤ 8 ∧ v.canFetch ≤ 2 ^ v.n :=
  ⟨(min_le_left _ _).trans (min_le_left _ _), (min_le_right _ _).trans ((min_le_left _ _).trans (Nat.sub_le _ _))⟩

theorem State.mayFetch_ready {s : State} {v : Sq} (h : s.mayFetch v = true) : s.mode = .service ∧ v.state = .ready := by
  simp only [State.mayFetch, Bool.and_eq_true, beq_iff_eq] at h
  obtain ⟨⟨⟨⟨⟨hmode, hready⟩, -⟩, -⟩, -⟩, -⟩ := h
  exact ⟨hmode, hready⟩

section
variable {s : State} {q n : Nat} {v : Sq} {k : RingCtr} {r : List (RingCtr × Nat)} (hv : s.sq? q = some v) (hreads : v.reads = (k, n) :: r)
include hv hreads

theorem exec_descriptorReadReturn_data (d : Data) :
    exec (.descriptorReadReturn q (.data d)) s = .next (s.takeEntries q { v with reads := r } k n d) := by
  show execDescriptorReadReturn q (.data d) s = _
  simp only [execDescriptorReadReturn, hv, hreads]

theorem exec_descriptorReadReturn_error (c : Nat) : exec (.descriptorReadReturn q (.error c)) s =
    .next ((s.failEntries q { v with reads := r } k c).raise (srcHif 1) 0 q (some v.owner)) := by
  show execDescriptorReadReturn q (.error c) s = _
  simp only [execDescriptorReadReturn, hv, hreads]

end

theorem exec_nop {s : State} {q : Nat} {v : Sq} {e : Ent} (h : s.startable q 0 = some (v, e)) :
    exec (.nop q) s = .next (s.finishEntry q e.ctr (Res.ok 0)) := by
  show execNop q s = _
  simp only [execNop, h]

/-! ### Retirement (R37, R232, R233) -/

section
variable {s : State} {q : Nat} {v : Sq} {e : Ent} {r : Res}

theorem exec_entryRetire {es : List Ent} (hv : s.sq? q = some v) (hents : v.ents = e :: es) (hdone : e.st = .done r) (herr : v.errCode = 0)
    (hserving : s.serving = true) (hopen : s.cqOpen v.cq = true) : exec (.entryRetire q) s = .next (s.retire q v e r) := by
  show execEntryRetire q s = _
  simp only [execEntryRetire, hv, hents, hdone, herr, hserving, hopen, and_self, if_true]

theorem State.retire_silent (hok : r.status = 0) (hc : Wqe.complete e.raw = false) : s.retire q v e r = s.setSq q v.pop :=
  if_pos ⟨hok, by simp [hc]⟩

/-- R232, R233: the completion is written first; a failure then ends the queue's work. -/
theorem State.retire_completes (hc : r.status ≠ 0 ∨ Wqe.complete e.raw = true) {u : State}
    (hu : s.cqPost v.cq ((s.entrySlot q e r) :: r.slot2.toList) = (u, true)) : s.retire q v e r =
      if r.status = 0 then u.onSq q Sq.pop else (u.onSq q Sq.pop).sqError q 0x01 (some e.ctr) := by
  have hloud : ¬ (r.status = 0 ∧ ¬ Wqe.complete e.raw = true) := fun h => hc.elim (absurd h.1) h.2
  rw [State.retire, if_neg hloud]
  simp only [hu, not_true_eq_false, if_false]

end

/-- R37: in a mode that writes no completions nothing retires. -/
theorem exec_entryRetire_notServing {s : State} (q : Nat) (h : s.serving = false) : exec (.entryRetire q) s = .next s := by
  show execEntryRetire q s = _
  unfold execEntryRetire
  split
  · split
    · split
      · exact if_neg (by simp [h])
      · rfl
    · rfl
  · rfl

theorem exec_flushCompletion_notServing {s : State} (q : Nat) (h : s.serving = false) : exec (.flushCompletion q) s = .next s := by
  show execFlushCompletion q s = _
  unfold execFlushCompletion
  split
  · exact if_neg (by simp [h])
  · rfl

/-- R233: with no error completion owed the FLUSHED completion is the only one. -/
theorem exec_flushCompletion {s : State} {q : Nat} {v : Sq} (hv : s.sq? q = some v) (hdue : v.flushDue = true) (hquiet : v.quiet = true)
    (hserving : s.serving = true) (hopen : s.cqOpen v.cq = true) (howed : v.errOwed = false)
    (hpost : (s.cqPost v.cq [s.flushedSlot q v]).2 = true) : exec (.flushCompletion q) s =
      .next ((s.cqPost v.cq [s.flushedSlot q v]).1.onSq q (fun w => { w with flushDue := false, errOwed := false, ents := [] })) := by
  have hreport : s.reportError q v = (s, true) := by simp only [State.reportError, State.owedError, howed, Bool.false_eq_true, if_false]
  show execFlushCompletion q s = _
  simp only [execFlushCompletion, hv, hdue, hquiet, hserving, hopen, and_self, if_true, hreport, hpost]

/-! ### Overflow (R240) -/

theorem State.cqOverflow_noReady {s : State} {c : Nat} {v : Cq} (hv : s.cq? c = some v) (hst : v.state = .stalled)
    (hlate : max 1 (s.g Reg.HIF_CQ_CFG.stall_limit) + 1 ≤ s.since v.stallCourse)
    (hnone : ∀ e ∈ s.hif.sqs, e.2.cq = c → e.2.state ≠ .ready) :
    s.cqOverflow c = ((s.setCq c { v with state := .overflow }).bump Ctr.HIF_CQ_OVERFLOW_COUNT).raise (srcHif 3) 0 c (some v.owner) := by
  have hbound : s.hif.sqs.filter (fun e => e.2.cq = c ∧ e.2.state = .ready) = [] :=
    List.filter_eq_nil_iff.2 fun e he => by simpa using hnone e he
  rw [State.cqOverflow_late hv hst hlate _ rfl, State.sqs_raise]
  show (s.hif.sqs.filter _).foldl _ _ = _
  rw [hbound, List.foldl_nil]

/-! ### Lost events (R246, R465) -/

theorem exec_eventsLost {s u : State} {r : Nat} {e : Eq} (he : Tbl.find? s.hif.eqs r = some e) (hlost : 0 < e.lost)
    (hroom : ringFull e.prod e.cons e.n = false) (hu : u = (s.setEq r { e with lost := 0 }).eqPut r
      (eventEntry s.now (srcHif 5) 0 (s.src (srcHif 5)).seq.toNat r (min 127 e.lost))) : exec (.eventsLost r) s =
    .next ((u.raiseMute (srcHif 5) r (if r < 0x1000 then some r else none)).eqDrain r 4) := by
  subst hu
  show execEventsLost r s = _
  simp only [execEventsLost, he, gt_iff_lt, hlost, hroom, Bool.false_eq_true, not_false_eq_true, and_self, if_true]

theorem exec_eventsLost_none {s : State} {r : Nat} {e : Eq} (he : Tbl.find? s.hif.eqs r = some e) (hlost : e.lost = 0) :
    exec (.eventsLost r) s = .next s := by
  show execEventsLost r s = _
  simp only [execEventsLost, he, hlost, gt_iff_lt, lt_self_iff_false, false_and, if_false]

theorem State.src_of_stays {w : List Sys2Proof.Part} {s t : State} (h : Stays w s t) (hw : ¬ Sys2Proof.Part.srcs ∈ w) (g : Nat) :
    t.src g = s.src g := by rw [State.src, State.src, h.srcs hw]

/-- R465 step 1: a latching event sets the status of its source. -/
theorem State.status_latchEvent (s : State) {g : Nat} (cond obj : Nat) (owner : Option Nat) (detail : Nat) (forced severe mute : Bool)
    (hg : (srcBlock g).isSome = true) : ((s.latchEvent g cond obj owner detail forced severe mute).src g).status = true := by
  obtain ⟨⟨b, l⟩, hb⟩ := Option.isSome_iff_exists.1 hg
  have hset (x : Src) (hx : x.status = true) (bk : Bank) : (((s.setSrc g x).setBank b.code bk).src g).status = true :=
    (congrArg Src.status (s.src_setSrc_self g x)).trans hx
  simp only [State.latchEvent, hb]
  split
  · rw [State.src_of_stays (State.eqPost_stays _ _ (Has.refl _) (Stays.refl _)) (by decide)]
    exact hset _ rfl _
  · exact hset _ rfl _

theorem countRule_status (n w : Nat) (x : Src) (now : Course) : (countRule n w x now).1.status = x.status := by
  unfold countRule
  split
  · rfl
  · dsimp only
    split <;> rfl

/-- R475: what follows a latching event leaves the status set. -/
theorem State.status_latchConsequence {s : State} {g : Nat} (obj : Nat) (owner : Option Nat) (effective : Bool)
    (hg : (srcBlock g).isSome = true) (h : (s.src g).status = true) : ((s.latchConsequence g obj owner effective).src g).status = true := by
  unfold State.latchConsequence
  split
  · exact h
  · have hfence : ((if effective = true then s.fenceOn g else s).src g).status = true := by
      split
      · rw [State.src_of_stays (State.fenceOn_stays g (Has.refl _) (Stays.refl s)) (by decide), h]
      · exact h
    dsimp only
    generalize (if effective = true then s.fenceOn g else s) = u at hfence ⊢
    split
    · split
      · rw [State.src_of_stays (State.askFence_stays 4 (Has.refl _) (Stays.refl _)) (by decide)]
        exact State.status_latchEvent _ _ _ _ _ _ _ _ hg
      · rw [State.src_setSrc_self, countRule_status, hfence]
    · exact hfence

theorem State.status_raiseMute {s : State} {g : Nat} (obj : Nat) (owner : Option Nat) (hg : (srcBlock g).isSome = true)
    (h : s.meets g false = false) : ((s.raiseMute g obj owner).src g).status = true := by
  unfold State.raiseMute State.latch
  dsimp only
  rw [if_neg (by simp [h])]
  exact State.status_latchConsequence _ _ _ hg (State.status_latchEvent _ _ _ _ _ _ _ _ hg)

/-- R246: the loss event latches its source whatever its event enable says. -/
theorem State.status_eventsLost {s u : State} {w : List Sys2Proof.Part} {g : Nat} (r obj k : Nat) (owner : Option Nat) (h : Stays w s u)
    (hsrcs : ¬ Sys2Proof.Part.srcs ∈ w) (hphy : ¬ Sys2Proof.Part.phy ∈ w) (hg : (srcBlock g).isSome = true) (hmeets : s.meets g false = false) :
    ((((u.raiseMute g obj owner).eqDrain r k).src g).status) = true := by
  have hu : u.meets g false = s.meets g false := by
    rw [State.meets, State.meets, State.src_of_stays h hsrcs, State.cycles, State.cycles, h.phy hphy]
  rw [State.src_of_stays (State.eqDrain_stays r k (Has.refl _) (Stays.refl _)) (by decide)]
  exact State.status_raiseMute obj owner hg (hu.trans hmeets)

/-! ### The statement -/

/-- Settles O40: each command by its equations, one for each outcome. -/
theorem workEntries : Obligations.WorkEntries := by
  refine ⟨fun s q v hone hmay => ⟨_, exec_workFetch_single hone hmay, s.sq?_fetchOne q v, rfl, s.ctr_fetchOne q v, s.out_fetchOne q v⟩,
    fun s v => ⟨v.canFetch_le.1, v.canFetch_le.2, State.mayFetch_ready⟩,
    fun s q n v k r hv hreads => ⟨exec_descriptorReadReturn_data hv hreads, exec_descriptorReadReturn_error hv hreads⟩,
    fun s q v e h => exec_nop h, fun s q v e es r hv hents hdone herr hserving hopen => ?retire,
    fun s q h => ⟨exec_entryRetire_notServing q h, exec_flushCompletion_notServing q h⟩,
    fun s q v hv hdue hquiet hserving hopen howed hpost => exec_flushCompletion hv hdue hquiet hserving hopen howed hpost,
    fun s c v hv hst hlate hnone => congrArg Host.Outcome.next (State.cqOverflow_noReady hv hst hlate hnone),
    fun s r e he hlost hroom => ?lost, fun s r e he hlost => exec_eventsLost_none he hlost⟩
  case retire =>
    have hretire := exec_entryRetire hv hents hdone herr hserving hopen
    refine ⟨hretire, fun hok hc => ?_, fun hok hc u hu => ?_, fun hbad u hu => ?_⟩
    · rw [hretire, State.retire_silent hok hc]
    · rw [hretire, State.retire_completes (.inr hc) hu, if_pos hok]
    · rw [hretire, State.retire_completes (.inl hbad) hu, if_neg hbad]
  case lost =>
    refine ⟨_, _, _, exec_eventsLost he hlost hroom rfl, rfl, State.eqs_eqPut _ (State.eqs_setEq_self s r _), rfl, rfl, rfl, fun hmeets => ?_⟩
    exact State.status_eventsLost r r 4 _ (State.eqPut_stays r _ (Has.refl _) (State.setEq_stays r _ ⟨by decide⟩ (Stays.refl s))) (by decide)
      (by decide) (by decide) hmeets

end Sys2Proof.Machine
end

section
/-! The walks of a translation unit, the ageing of its caches, and its locked pages (R262, R264, R270, R271, R277). -/
namespace Sys2Proof.Machine

theorem State.xu_of_stays {w : List Sys2Proof.Part} {s t : State} (h : Stays w s t) (hw : ¬ Sys2Proof.Part.xlt ∈ w) (u : Nat) :
    t.xu u = s.xu u := by
  rw [State.xu, State.xu, h.xlt hw]

theorem State.xu_hostRead (s : State) (hp requester addr len u : Nat) : (s.hostRead hp requester addr len).xu u = s.xu u :=
  State.xu_of_stays (State.hostRead_stays hp requester addr len (Has.refl _) (Stays.refl s)) (by decide) u

theorem State.xu_bumpBy (s : State) (c n u : Nat) : (s.bumpBy c n).xu u = s.xu u :=
  State.xu_of_stays (State.bumpBy_stays c n (Has.refl _) (Stays.refl s)) (by decide) u

theorem State.xu_finishEntry (s : State) (q : Nat) (ctr : RingCtr) (r : Res) (u : Nat) : (s.finishEntry q ctr r).xu u = s.xu u :=
  State.xu_of_stays (State.finishEntry_stays q ctr r (Has.refl _) (Stays.refl s)) (by decide) u

/-! ### Walks (R262, R264) -/

/-- R264: the miss `m` leaves the queue for a walk of its own, the last of the unit's. -/
def State.beginWalk (s : State) (u : Nat) (m : XReq) : State :=
  (s.setXu u { s.xu u with misses := (s.xu u).misses.erase m, walks := (s.xu u).walks ++ [⟨m, [], 0, 0⟩] }).bump (Ctr.XLT_MISS_COUNT u)

theorem exec_pageWalk {s : State} {u : Nat} {m : XReq}
    (hm : (s.xu u).misses.find? (fun m => !((s.xu u).walks.any (fun w => samePage w.req m))) = some m)
    (hunit : s.unitPresent u = true) (hroom : (s.xu u).walks.length < 32) :
    exec (.pageWalk u) s = .next ((s.beginWalk u m).walkOn u (s.xu u).walks.length) := by
  show execPageWalk u s = _
  simp only [execPageWalk, hm, hunit, hroom, and_self, if_true]
  rfl

/-- R262: a unit has 32 walks at most. -/
theorem exec_pageWalk_full {s : State} {u : Nat} (hfull : 32 ≤ (s.xu u).walks.length) : exec (.pageWalk u) s = .next s := by
  show execPageWalk u s = _
  unfold execPageWalk
  dsimp only
  split
  · exact if_neg fun h => absurd h.2 (Nat.not_lt.2 hfull)
  · rfl

/-- R262: walk `i` issues the read for one place of its course, and keeps what the walk cache supplied on the way there. -/
def State.walkAsk (s : State) (u i : Nat) (w : Walk) (addr len place rid : Nat) (used : List WalkVal) : State :=
  ((s.setXu u { s.xu u with walks := (s.xu u).walks.set i { w with reads := w.reads ++ used, asked := place, addr := addr } }).bump
    (Ctr.XLT_WALK_READ_COUNT u)).hostRead u rid addr len

/-- What walk `i` does with the outcome of its translation so far. -/
def State.walkTakes (s : State) (u i : Nat) (w : Walk) : WRes TlbEnt → State
  | .ok e k => (s.wcFill u k.learn).walkFill u i w.req e
  | .fault f k => (s.wcFill u k.learn).walkFault u i w.req (w.priv k.used) f false
  | .need a n st lv s1 rid k => s.walkAsk u i w a n (walkPlace st lv s1) rid k.used

section
variable {s : State} {u i : Nat} {w : Walk} (hw : (s.xu u).walks[i]? = some w)
include hw

theorem exec_walkReadReturn_data (d : Data) : exec (.walkReadReturn u i (.data d)) s =
    .next ((s.setXu u { s.xu u with walks := (s.xu u).walks.set i { w with reads := w.reads ++ [⟨w.asked, d.val, false⟩] } }).walkOn u i) := by
  show execWalkReadReturn u i (.data d) s = _
  simp only [execWalkReadReturn, hw]

theorem exec_walkReadReturn_error (c : Nat) : exec (.walkReadReturn u i (.error c)) s =
    .next (s.walkFault u i w.req (w.priv []) ⟨5, w.asked / 64, w.asked / 8 % 8, w.asked % 8, w.addr, c⟩ false) := by
  show execWalkReadReturn u i (.error c) s = _
  simp only [execWalkReadReturn, State.walkBad, hw]

/-- An owner test reads the descriptor alone; every other walk translates. -/
theorem State.walkOn_translates (huse : w.req.use ≠ .owner) : s.walkOn u i = s.walkTakes u i w (s.translate u w) := by
  have htranslates : w.req.use = .access ∨ w.req.use = .lock := by
    cases h : w.req.use with
    | owner => exact absurd h huse
    | access => exact .inl rfl
    | lock => exact .inr rfl
  rcases htranslates with h | h <;> simp only [State.walkOn, hw, h] <;> cases s.translate u w <;> rfl

theorem State.walks_walkAsk (addr len place rid : Nat) (used : List WalkVal) :
    ((s.walkAsk u i w addr len place rid used).xu u).walks[i]? = some { w with reads := w.reads ++ used, asked := place, addr := addr } := by
  obtain ⟨hi, -⟩ := List.getElem?_eq_some_iff.1 hw
  rw [State.walkAsk, State.xu_hostRead, State.bump, State.xu_bumpBy, State.xu_setXu_self]
  exact List.getElem?_set_self hi

end

theorem State.ctr_walkAsk (s : State) (u i : Nat) (w : Walk) (addr len place rid : Nat) (used : List WalkVal) :
    (s.walkAsk u i w addr len place rid used).ctr (Ctr.XLT_WALK_READ_COUNT u) = s.ctr (Ctr.XLT_WALK_READ_COUNT u) + 1 :=
  (State.ctr_of_stays (State.hostRead_stays _ _ _ _ (Has.refl _) (Stays.refl _)) (by decide) _).trans (State.ctr_bump_self _ _)

/-! ### Ageing (R270) -/

/-- R270: the courses after which an entry goes. -/
def State.tlbAge (s : State) : Nat := max 256 (s.g Reg.XLT_AGE_CFG.tlb_age)

/-- A unit without what is too old. -/
def State.agedUnit (s : State) (u : Nat) : XUnit :=
  { s.xu u with tlb := (s.xu u).tlb.filter (fun e => e.locked || s.since e.fill < s.tlbAge),
                wc := (s.xu u).wc.filter (fun e => s.since e.fill < s.tlbAge) }

/-- What goes is counted. -/
def State.aged (s : State) (u : Nat) : State :=
  (s.setXu u (s.agedUnit u)).bumpBy (Ctr.XLT_AGE_COUNT u)
    ((s.xu u).tlb.length - (s.agedUnit u).tlb.length + ((s.xu u).wc.length - (s.agedUnit u).wc.length))

theorem exec_tlbAgeExpiry {s : State} {u : Nat} (hu : u < 4) (hlive : s.live = true) (hcycle : s.crs.cycle = 0) :
    exec (.tlbAgeExpiry u) s = .next (s.aged u) :=
  if_pos ⟨hu, hlive, hcycle⟩

theorem State.xu_aged (s : State) (u : Nat) : (s.aged u).xu u = s.agedUnit u :=
  (State.xu_bumpBy _ _ _ u).trans (s.xu_setXu_self u _)

theorem State.mem_tlb_agedUnit {s : State} {u : Nat} {e : TlbEnt} :
    e ∈ (s.agedUnit u).tlb ↔ e ∈ (s.xu u).tlb ∧ (e.locked = true ∨ s.since e.fill < s.tlbAge) := by
  rw [State.agedUnit, List.mem_filter, Bool.or_eq_true, decide_eq_true_iff]

theorem State.mem_wc_agedUnit {s : State} {u : Nat} {e : WcEnt} :
    e ∈ (s.agedUnit u).wc ↔ e ∈ (s.xu u).wc ∧ s.since e.fill < s.tlbAge := by
  rw [State.agedUnit, List.mem_filter, decide_eq_true_iff]

theorem State.aged_stays (s : State) (u : Nat) : Stays [.xlt, .ctrs] s (s.aged u) :=
  State.bumpBy_stays _ _ ⟨by decide⟩ (State.setXu_stays _ _ ⟨by decide⟩ (Stays.refl s))

/-! ### Locked pages (R271, R277) -/

/-- The request of XLT_LOCK for page `i` of its range. -/
def lockReq (q : Nat) (e : Ent) (f i : Nat) : XReq := ⟨Xw.as_ e.raw, Xw.va e.raw + 4096 * i, 0, f, false, false, .lock, .entry q e.ctr⟩

/-- R277: how XLT_LOCK goes on after page `i`, with `k` pages left after it. -/
def State.lockAfter (s : State) (q : Nat) (e : Ent) (u f k i n : Nat) : LockRes → State
  | .held => s.lockPages q e u f k (i + 1) n
  | .locked => s.lockPages q e u f k (i + 1) (n + 1)
  | .full => s.finishEntry q e.ctr { Res.ok n with status := stRESOURCE }
  | .wait => s.runEntry q e.ctr (i * 2 ^ 40 + n)
  | .fault x => s.finishEntry q e.ctr { status := stLOCAL, detail := x.detail 0, byteCount := n, aux := (lockReq q e f i).va, slot2 := none }

theorem State.lockPages_succ {s t : State} {q u f i : Nat} {e : Ent} {r : LockRes} (h : s.lockPage u (lockReq q e f i) = (t, r)) (k n : Nat) :
    s.lockPages q e u f (k + 1) i n = t.lockAfter q e u f k i n r := by
  unfold lockReq at h
  simp only [State.lockPages, h]
  cases r <;> rfl

theorem exec_xltLock_starts {s : State} {q : Nat} {v w : Sq} {e : Ent} (hv : s.sq? q = some v)
    (hidle : v.runningOp (fun op => op == 0x3C) = none) (hstart : s.startable q 0x3C = some (w, e)) :
    exec (.xltLock q) s = .next (s.lockPages q e (Xw.unit e.raw) w.owner (Xw.pages e.raw) 0 0) := by
  show execXltLock q s = _
  simp only [execXltLock, hv, hidle, hstart]

/-- The note of a running XLT_LOCK is the page it waits for and the slots it has taken. -/
theorem exec_xltLock_goesOn {s : State} {q n : Nat} {v : Sq} {e : Ent} (hv : s.sq? q = some v)
    (hrun : v.runningOp (fun op => op == 0x3C) = some (e, n)) : exec (.xltLock q) s =
      .next (s.lockPages q e (Xw.unit e.raw) v.owner (Xw.pages e.raw - n / 2 ^ 40) (n / 2 ^ 40) (n % 2 ^ 40)) := by
  show execXltLock q s = _
  simp only [execXltLock, hv, hrun]

/-- A locked entry in the range of an XLT_UNLOCK. -/
def unlocks (raw : Nat) (f : TlbEnt) : Bool :=
  f.locked && f.as_ == Xw.as_ raw && f.page < Xw.va raw + Xw.pages raw * 4096 && Xw.va raw < f.page + 2 ^ f.size

theorem unlocks_iff {raw : Nat} {f : TlbEnt} : unlocks raw f = true ↔
    f.locked = true ∧ f.as_ = Xw.as_ raw ∧ f.page < Xw.va raw + Xw.pages raw * 4096 ∧ Xw.va raw < f.page + 2 ^ f.size := by
  simp only [unlocks, Bool.and_eq_true, beq_iff_eq, decide_eq_true_iff, and_assoc]

/-- The entries of unit `u` after an XLT_UNLOCK. -/
def State.unlockedTlb (s : State) (u raw : Nat) : List TlbEnt :=
  (s.xu u).tlb.map (fun f => if unlocks raw f = true then { f with locked := false, fill := s.crs.course } else f)

/-- The range's locks go, each lock slot by a write of the table of slots. -/
def State.unlockRange (s : State) (u raw : Nat) : State :=
  (s.tableWrite (tagLocks u) (Config.lockWords * ((s.xu u).tlb.filter (unlocks raw)).length)).setXu u
    { s.xu u with tlb := s.unlockedTlb u raw }

/-- R277: XLT_UNLOCK answers the number of entries it unlocked. -/
theorem exec_xltUnlock {s : State} {q : Nat} {v : Sq} {e : Ent} (h : s.startable q 0x3D = some (v, e)) : exec (.xltUnlock q) s =
    .next ((s.unlockRange (Xw.unit e.raw) e.raw).finishEntry q e.ctr
      (Res.ok ((s.xu (Xw.unit e.raw)).tlb.filter (unlocks e.raw)).length)) := by
  show execXltUnlock q s = _
  simp only [execXltUnlock, h]
  rfl

/-! ### The statement -/

/-- Settles O41: each command by its equation, and the course of XLT_LOCK by what each page answers. -/
theorem walksAndLocks : Obligations.WalksAndLocks := by
  refine ⟨⟨fun s u m hm hunit hroom => ⟨_, exec_pageWalk hm hunit hroom, rfl⟩, fun s u hfull => exec_pageWalk_full hfull,
      fun s u i w hw => ⟨exec_walkReadReturn_data hw, exec_walkReadReturn_error hw⟩, fun s u i w hw huse => ?walkOn,
      fun s u hu hlive hcycle => ⟨s.aged u, exec_tlbAgeExpiry hu hlive hcycle, ?aged⟩⟩,
    fun s q v w e hv hidle hstart => exec_xltLock_starts hv hidle hstart, fun s q n v e hv hrun => exec_xltLock_goesOn hv hrun,
    fun s q u f i n e => rfl, fun s t q u f k i n e r hpage => ?page, fun s q v e h => ?unlock⟩
  case walkOn =>
    have hon := State.walkOn_translates hw huse
    refine ⟨fun e k h => ?_, fun f k h => ?_, fun a n st lv s1 rid k h => ?_⟩ <;> rw [hon, h]
    · rfl
    · rfl
    · exact ⟨_, State.walks_walkAsk hw _ _ _ _ _, rfl, rfl, s.ctr_walkAsk u i w _ _ _ _ _⟩
  case aged =>
    rw [State.xu_aged]
    exact ⟨fun e => State.mem_tlb_agedUnit, fun e => State.mem_wc_agedUnit, State.ctr_bumpBy_self _ _ _, s.aged_stays u⟩
  case page =>
    have hnext := State.lockPages_succ hpage k n
    refine ⟨?_, ?_, ?_, ?_⟩ <;> rintro rfl <;> exact hnext
  case unlock =>
    refine ⟨_, exec_xltUnlock h, ?_⟩
    rw [State.xu_finishEntry, State.unlockRange, State.xu_setXu_self]
    simp only [State.unlockedTlb, unlocks_iff]

end Sys2Proof.Machine
end

section
/-! Invalidations: what they discard, and when they complete (R269, R273 to R275). -/
namespace Sys2Proof.Machine

/-! ### What an invalidation discards (R275) -/

/-- With no walk in its scope an invalidation only takes entries away. -/
theorem State.mem_tlb_invalidate {s : State} {u : Nat} {f : TlbEnt → Bool} {g : WcEnt → Bool} {w : Walk → Bool}
    (hnone : ∀ k ∈ (s.xu u).walks, w k = false) {e : TlbEnt} :
    e ∈ ((s.invalidate u f g w).1.xu u).tlb ↔ e ∈ (s.xu u).tlb ∧ f e = false := by
  have hagain : (s.xu u).walks.zipIdx.filter (fun e => w e.1) = [] :=
    List.filter_eq_nil_iff.2 fun e he => by simp [hnone e.1 (List.fst_mem_of_mem_zipIdx he)]
  simp only [State.invalidate, hagain, List.reverse_nil, List.foldl_nil, State.xu_bumpBy, State.xu_setXu_self, List.mem_filter,
    Bool.not_eq_true']

/-! ### How an invalidation starts (R273, R274) -/

section
variable (act : State → Nat → State × Nat)

/-- What the entry takes away is taken, and the entry waits for XLT_INV_COMPLETE. -/
def State.runInv (s : State) (q : Nat) (e : Ent) : State :=
  (act s e.raw).1.invRun q e (Xw.unit e.raw) (act s e.raw).2 false

/-- The input address of the owner test: that of XLT_INV_ADDR, none otherwise. -/
def invVa (op : Nat) (e : Ent) : Nat := if op = 0x38 then Xw.va e.raw else 0

/-- The owner test for a VF's entry. -/
def ownerReq (q op : Nat) (v : Sq) (e : Ent) : XReq := ⟨Xw.as_ e.raw, invVa op e, 0, v.owner, false, false, .owner, .entry q e.ctr⟩

/-- R274: what the owner test leads to. -/
def State.invAfter (s : State) (q op : Nat) (e : Ent) : Owns → State
  | .no => s.malformed q e 0x0103
  | .fault f => s.finishEntry q e.ctr { Res.of stLOCAL (f.detail 0) with aux := invVa op e }
  | .wait => s
  | .yes => if op = 0x38 ∧ Xw.badRange e.raw then s.malformed q e 0x0104 else s.runInv act q e

variable {s : State} {q op : Nat} {v : Sq} {e : Ent} (hstart : s.startable q op = some (v, e))
include hstart

theorem State.startInv_pf (hpf : isPf v.owner = true) : s.startInv q op act = s.runInv act q e := by
  simp only [State.startInv, hstart, hpf, if_true]
  rfl

theorem State.startInv_vf {t : State} {r : Owns} (hvf : isPf v.owner = false)
    (hown : s.ownsAs (Xw.unit e.raw) (ownerReq q op v e) = (t, r)) : s.startInv q op act = t.invAfter act q op e r := by
  unfold ownerReq invVa at hown
  simp only [State.startInv, hstart, hvf, Bool.false_eq_true, if_false, hown]
  cases r <;> rfl

end

/-- The effects of XLT_INV_ADDR and XLT_INV_AS. -/
def invAddr (t : State) (r : Nat) : State × Nat :=
  t.invalidate (Xw.unit r) (fun e => e.as_ == Xw.as_ r && e.page < Xw.va r + Xw.pages r * 4096 && Xw.va r < e.page + 2 ^ e.size)
    (fun e => e.kind ≤ 1 && e.as_ == Xw.as_ r) (fun w => w.req.as_ == Xw.as_ r)
def invAs (t : State) (r : Nat) : State × Nat :=
  t.invalidate (Xw.unit r) (fun e => e.as_ == Xw.as_ r) (fun e => e.kind ≤ 1 && e.as_ == Xw.as_ r) (fun w => w.req.as_ == Xw.as_ r)

theorem exec_xltInvAddr (q : Nat) (s : State) : exec (.xltInvAddr q) s = .next (s.startInv q 0x38 invAddr) := rfl
theorem exec_xltInvAs (q : Nat) (s : State) : exec (.xltInvAs q) s = .next (s.startInv q 0x39 invAs) := rfl

/-! ### How an invalidation completes (R275) -/

section
variable {s : State} {q n : Nat} {v : Sq} {e : Ent} (hv : s.sq? q = some v)
  (hrun : v.runningOp (fun op => 0x38 ≤ op && op ≤ 0x3B) = some (e, n))
include hv hrun

/-- The note of a running invalidation is its count, its unit, and whether the zero-length read is out. -/
theorem exec_xltInvComplete : exec (.xltInvComplete q) s =
    if n % 2 = 1 then .next (s.finishEntry q e.ctr (Res.ok (n / 8)))
    else if s.readsOut (n / 2 % 4) = true then .next s
    else if hpOf v.owner = n / 2 % 4 then .next (s.finishEntry q e.ctr (Res.ok (n / 8)))
    else .next ((s.hostRead (n / 2 % 4) (n / 2 % 4 * 256) ((s.g (Reg.XLT_AST_BASE_LO.base_lo (n / 2 % 4)) +
      s.g (Reg.XLT_AST_BASE_HI.base_hi (n / 2 % 4)) * 2 ^ 20) * 4096) 0).invRun q e (n / 2 % 4) (n / 8) true) := by
  show execXltInvComplete q s = _
  simp only [execXltInvComplete, hv, hrun]

theorem exec_xltInvComplete_finishes (h : n % 2 = 1 ∨ (s.readsOut (n / 2 % 4) = false ∧ hpOf v.owner = n / 2 % 4)) :
    exec (.xltInvComplete q) s = .next (s.finishEntry q e.ctr (Res.ok (n / 8))) := by
  rw [exec_xltInvComplete hv hrun]
  split
  · rfl
  next hread =>
    obtain ⟨hout, hport⟩ := h.resolve_left hread
    rw [if_neg (Bool.eq_false_iff.1 hout), if_pos hport]

theorem exec_xltInvComplete_reads (hn : n % 2 = 0) (hout : s.readsOut (n / 2 % 4) = false) (hport : hpOf v.owner ≠ n / 2 % 4) :
    ∃ a, exec (.xltInvComplete q) s = .next ((s.hostRead (n / 2 % 4) (n / 2 % 4 * 256) a 0).invRun q e (n / 2 % 4) (n / 8) true) := by
  rw [exec_xltInvComplete hv hrun, if_neg (by omega), if_neg (Bool.eq_false_iff.1 hout), if_neg hport]
  exact ⟨_, rfl⟩

theorem exec_xltInvComplete_waits (hn : n % 2 = 0) (hout : s.readsOut (n / 2 % 4) = true) : exec (.xltInvComplete q) s = .next s := by
  rw [exec_xltInvComplete hv hrun, if_neg (by omega), if_pos hout]

end

/-! ### The statement -/

/-- Settles O42: who starts an invalidation, then what it discards and how it completes. -/
theorem invalidations : Obligations.Invalidations := by
  refine ⟨fun s q v e hpf => ⟨fun h => congrArg Host.Outcome.next (State.startInv_pf invAddr h hpf),
      fun h => congrArg Host.Outcome.next (State.startInv_pf invAs h hpf), fun h => congrArg Host.Outcome.next (State.startInv_pf _ h hpf),
      fun h => congrArg Host.Outcome.next (State.startInv_pf _ h hpf)⟩, fun s t q v e r hvf h hown => ?as,
    fun s t q v e r hvf h hown => ?addr, fun s u f g w hnone e => State.mem_tlb_invalidate hnone,
    fun s q n v e hv hrun h => exec_xltInvComplete_finishes hv hrun h, fun s q n u v e hv hrun hu hn hout hport => ?reads,
    fun s q n v e hv hrun hn hout => exec_xltInvComplete_waits hv hrun hn hout⟩
  case as =>
    have hstart : exec (.xltInvAs q) s = _ := congrArg Host.Outcome.next (State.startInv_vf invAs h hvf hown)
    refine ⟨?_, ?_, ?_⟩ <;> rintro rfl
    · exact hstart
    · exact hstart
    · exact ⟨_, rfl, hstart⟩
  case addr =>
    have hstart : exec (.xltInvAddr q) s = _ := congrArg Host.Outcome.next (State.startInv_vf invAddr h hvf hown)
    refine ⟨?_, ?_, ?_, ?_⟩ <;> rintro rfl
    · exact hstart
    · exact hstart
    · exact fun hbad => hstart.trans (congrArg Host.Outcome.next (if_pos ⟨rfl, hbad⟩))
    · exact fun hgood => ⟨_, rfl, hstart.trans (congrArg Host.Outcome.next (if_neg (by simp [hgood])))⟩
  case reads =>
    subst hu
    exact exec_xltInvComplete_reads hv hrun hn hout hport

end Sys2Proof.Machine
end

section
/-! Contexts and order records read from host memory and written back, and the commands of TRN_CMD (R285 to R288, R310 to R312,
R325, R326, R331). -/
namespace Sys2Proof.Machine

/-! ### A context's record is read (R288, R311) -/

/-- The read of context `k`'s record is no longer out. -/
def State.loadEnded (s : State) (k : Nat) : State :=
  { s with trn := { s.trn with loads := s.trn.loads.filter (fun x => x.1 != k) } }

section
variable {s : State} {k : Nat} {e : Nat × Bool} (hout : s.trn.loads.find? (fun e => e.1 == k) = some e)
include hout

theorem exec_contextLoad_data (d : Data) : exec (.contextLoad k (.data d)) s = .next ((s.loadEnded k).recordRead k d e.2).settle := by
  show execContextLoad k (.data d) s = _
  simp only [execContextLoad, hout, State.loadEnded]

theorem exec_contextLoad_error (c : Nat) : exec (.contextLoad k (.error c)) s =
    .next (((s.loadEnded k).raise (srcTrn 3) 0 (ctxRegion k)).recordBad k c e.2).settle := by
  show execContextLoad k (.error c) s = _
  simp only [execContextLoad, hout, State.loadEnded]

end

section
variable {s u : State} {k : Nat} {d : Data} {v : Slot} (hslot : s.slot? (ctxSlot k) = some v)
  (hu : u = (s.bump Ctr.TRN_REFILL_COUNT).makeRoom) (hroom : u.trn.ctxs.length < u.cacheCap 8 65536)
include hslot hu hroom

/-- A record in use, of the slot's epoch, is the context. -/
theorem State.recordRead_kept (i : Bool) (hrec : d.field 12 0 1 = 1 ∧ d.field 8 0 32 = v.epoch) :
    s.recordRead k d i = ((u.fillBank 8 k).setCtx k { Ctx.ofRec d with inbound := i }).resetLoaded k := by
  subst hu
  simp only [State.recordRead, hslot]
  rw [if_neg (Nat.not_le.2 hroom), if_pos hrec]

/-- Any other record stands for a fresh context. -/
theorem State.recordRead_fresh (i : Bool) (hrec : ¬ (d.field 12 0 1 = 1 ∧ d.field 8 0 32 = v.epoch)) {f : Ctx × State}
    (hf : f = (u.fillBank 8 k).freshCtx v.epoch) :
    s.recordRead k d i = ((f.2.bump Ctr.TRN_CTX_CREATE_COUNT).setCtx k { f.1 with inbound := i }).resetLoaded k := by
  subst hu hf
  simp only [State.recordRead, hslot]
  rw [if_neg (Nat.not_le.2 hroom), if_neg hrec]

end

/-! ### A context is evicted (R310) -/

theorem State.ctx?_of_trn {s t : State} (h : t.trn = s.trn) (k : Nat) : t.ctx? k = s.ctx? k := by rw [State.ctx?, State.ctx?, h]

theorem State.ctr_hostWrite (s : State) (hp requester addr : Nat) (d : Data) (c : Nat) : (s.hostWrite hp requester addr d).ctr c = s.ctr c :=
  State.ctr_of_stays (State.hostWrite_stays hp requester addr d (Has.refl _) (Stays.refl s)) (by decide) c

theorem State.trn_hostWrite (s : State) (hp requester addr : Nat) (d : Data) : (s.hostWrite hp requester addr d).trn = s.trn :=
  (State.hostWrite_stays hp requester addr d (Has.refl _) (Stays.refl s)).trn (by decide)

theorem State.out_hostWrite (s : State) (hp requester addr : Nat) (d : Data) : (s.hostWrite hp requester addr d).out =
    if s.mastering = true then s.out ++ [.hostWrite hp requester addr d] else s.out := by
  unfold State.hostWrite
  split <;> rfl

/-- The context is no longer cached. -/
def State.dropCtx (s : State) (k : Nat) : State := { s with trn := { s.trn with ctxs := Tbl.del s.trn.ctxs k } }

theorem State.ctx?_dropCtx_self (s : State) (k : Nat) : (s.dropCtx k).ctx? k = none := Tbl.find?_del_self _ k

section
variable {s : State} {k : Nat} {c : Ctx}

theorem State.spill_dirty {v : Slot} (hslot : s.slot? (ctxSlot k) = some v) (hdirty : c.dirty = true) (hwrite : c.noWrite = false) :
    s.spill k c = ((s.dropCtx k).hostWrite (ctxHp k) (ctxHp k * 256) (s.recAddr k) (c.toRec k v.domain v.encrypt)).bump
      Ctr.TRN_SPILL_COUNT := by
  simp only [State.spill, hslot, hdirty, hwrite, State.dropCtx]
  rfl

theorem State.spill_clean (h : c.dirty = false ∨ c.noWrite = true) : s.spill k c = s.dropCtx k := by
  have hclean : ¬ (c.dirty = true ∧ ¬ c.noWrite = true) := by rcases h with h | h <;> simp [h]
  unfold State.spill State.dropCtx
  split
  · exact if_neg hclean
  · rfl

/-- Beside the drop there is at most a write, and its count. -/
theorem State.spill_stays_dropCtx (s : State) (k : Nat) (c : Ctx) : Stays [.ctrs, .out] (s.dropCtx k) (s.spill k c) := by
  have hdrop : Stays [.ctrs, .out] (s.dropCtx k) (s.dropCtx k) := Stays.refl _
  unfold State.spill
  split
  · exact Stays.ite (fun _ => State.bump_stays _ ⟨by decide⟩ (State.hostWrite_stays _ _ _ _ ⟨by decide⟩ hdrop)) fun _ => hdrop
  · exact hdrop

theorem State.ctx?_spill_self (s : State) (k : Nat) (c : Ctx) : (s.spill k c).ctx? k = none :=
  (State.ctx?_of_trn ((s.spill_stays_dropCtx k c).trn (by decide)) k).trans (s.ctx?_dropCtx_self k)

theorem State.spill_dirty_writes {v : Slot} (hslot : s.slot? (ctxSlot k) = some v) (hdirty : c.dirty = true) (hwrite : c.noWrite = false) :
    (s.spill k c).ctr Ctr.TRN_SPILL_COUNT = s.ctr Ctr.TRN_SPILL_COUNT + 1 ∧
    (s.spill k c).out = (s.hostWrite (ctxHp k) (ctxHp k * 256) (s.recAddr k) (c.toRec k v.domain v.encrypt)).out := by
  rw [State.spill_dirty hslot hdirty hwrite, State.ctr_bump_self, State.ctr_hostWrite]
  refine ⟨rfl, (State.bumpBy_out _ _ 1).trans ?_⟩
  rw [State.out_hostWrite, State.out_hostWrite]
  rfl

theorem exec_contextEvict_loose (hc : s.ctx? k = some c) (hpin : s.pinned k c = false) : exec (.contextEvict k) s = .next (s.spill k c) := by
  show execContextEvict k s = _
  simp only [execContextEvict, hc, hpin, Bool.false_eq_true, if_false]

theorem exec_contextEvict_pinned (hc : s.ctx? k = some c) (hpin : s.pinned k c = true) : exec (.contextEvict k) s = .next s := by
  show execContextEvict k s = _
  simp only [execContextEvict, hc, hpin, if_true]

end

/-! ### An order record is read (R331) -/

/-- The `i`th order-table read is no longer out. -/
def State.orderReadEnded (s : State) (i : Nat) : State := s.onMch (fun m => { m with orderReads := m.orderReads.eraseIdx i })

section
variable {s : State} {i k : Nat} {e : Ep} (hread : s.mch.orderReads[i]? = some k) (hep : s.ep? (okEp k) = some e)
include hread hep

theorem State.orderReturn_found {d : Data} {v : OrderRec} (h : (s.orderReadEnded i).lookupBucket k (e.bucket k) d = some v) :
    s.orderReturn i (.data d) = (s.orderReadEnded i).cacheOrder k v := by
  unfold State.orderReadEnded at h ⊢
  simp only [State.orderReturn, hread, hep, h]

/-- A full bucket is remembered as such. -/
theorem State.orderReturn_full {d : Data} (h : (s.orderReadEnded i).lookupBucket k (e.bucket k) d = none) :
    Tbl.find? (s.orderReturn i (.data d)).mch.orderBad k = some 2 := by
  unfold State.orderReadEnded at h
  simp only [State.orderReturn, hread, hep, h, State.onMch_mch, Tbl.find?_ins_self]

/-- So is a failed read, with its cause. -/
theorem State.orderReturn_error (c : Nat) : Tbl.find? (s.orderReturn i (.error c)).mch.orderBad k = some (4 + c) := by
  simp only [State.orderReturn, hread, hep, (State.raise_stays _ _ _ _ _ (Has.refl _) (Stays.refl _)).mch (by decide), State.onMch_mch,
    Tbl.find?_ins_self]

end

end Sys2Proof.Machine
end

section
/-! The commands of TRN_CMD (R325, R326): who may give them, what each does when its checks pass. -/
namespace Sys2Proof.Machine

/-! ### The write of TRN_CMD -/

/-- R325: a permitted write of an opcode is that command. -/
theorem State.access_trnCmd {s : State} {req : Requester} {d : RegDef} {op : Nat} (h : Sys2Proof.mayConfigure s req Reg.TRN_CMD.off)
    (hloc : locPf Reg.TRN_CMD.off = .reg d 0 0 0) (hid : d.id = .TRN_CMD) (hop : op < 2 ^ 32) :
    s.access req Reg.TRN_CMD.off op = ((s.lockCheck d 0 (s.word Reg.TRN_CMD.off) op).trnCmd req op).settle := by
  have hmay : State.mayWrite req d 0 = req.privileged := by simp only [State.mayWrite, hid]
  have hunit : s.absentUnit d 0 = false := by apply State.absentUnit_other <;> simp [hid]
  have hbits : bits op 0 32 = op := Nat.mod_eq_of_lt hop
  rw [State.access_plain h hloc (by decide) hmay hunit, hbits]
  simp only [State.regWrite, hid]

/-- The opcode and the requester of a command are noted as it begins. -/
def State.trnBegun (s : State) (req : Requester) (op : Nat) : State :=
  (s.put Reg.TRN_CMD.opcode op).put Reg.TRN_CMD_STATUS.requester req.identity

/-- What a command's answer leads to: its result, or busy. -/
def trnAnswered (r : State × Option Nat) : State :=
  match r.2 with
  | some c => (r.1.put Reg.TRN_CMD_STATUS.result c).settle
  | none => r.1.put Reg.TRN_CMD_STATUS.busy 1

section
variable {s : State} {op : Nat} (hlo : 1 ≤ op) (hhi : op ≤ 6) (req : Requester)
include hlo hhi

theorem State.trnCmd_defined : s.trnCmd req op = if s.g Reg.TRN_CMD_STATUS.busy = 1 then s else trnAnswered ((s.trnBegun req op).trnRun req op) := by
  have hop : bits op 0 8 = op := Nat.mod_eq_of_lt (by omega)
  simp only [State.trnCmd, hop]
  rw [if_neg (by omega)]
  rfl

theorem State.trnCmd_busy (h : s.g Reg.TRN_CMD_STATUS.busy = 1) : s.trnCmd req op = s := by
  rw [State.trnCmd_defined hlo hhi, if_pos h]

theorem State.trnCmd_free (h : s.g Reg.TRN_CMD_STATUS.busy = 0) : s.trnCmd req op = trnAnswered ((s.trnBegun req op).trnRun req op) := by
  rw [State.trnCmd_defined hlo hhi, if_neg (by omega)]

end

/-! ### Who may give a command (R325) -/

/-- The slot and the host port that the arguments name. -/
def State.argSlot (s : State) : Nat := bits (s.word (Reg.TRN_CMD_ARG.off 0)) 0 10
def State.argPort (s : State) : Nat := bits (s.word (Reg.TRN_CMD_ARG.off 0)) 12 2

theorem State.trnRun_notMgmt {s : State} {req : Requester} {op : Nat} (h : op ≤ 2) (hreq : req.mgmt = false) :
    s.trnRun req op = (s, some 1) := if_pos (.inl ⟨h, by simp [hreq]⟩)

theorem State.trnRun_otherFunction {s : State} {i op : Nat} (h : 3 ≤ op) (hi : i ≠ s.argPort * 256) : s.trnRun (.fn i) op = (s, some 1) :=
  if_pos (.inr ⟨h, decide_eq_false hi⟩)

/-- A command gets past the tests of its requester and of its host port. -/
structure State.TrnAllowed (s : State) (req : Requester) : Prop where
  requester : req.mgmt = true ∨ req = .fn (s.argPort * 256)
  port : s.hpPresent s.argPort = true

/-! ### KEY_SET and KEY_CLEAR -/

section
variable {s : State} {req : Requester} {n : Nat} (hn : n = s.argSlot) (hreq : req.mgmt = true)
  (hnamed : s.slotNamed n none = false) (hregions : s.slotRegions n = false)
include hn hreq hnamed hregions

/-- What a KEY_SET puts in the slot. -/
def State.argKey (s : State) : Slot :=
  ⟨bits (s.word (Reg.TRN_CMD_ARG.off 1)) 0 16, s.word (Reg.TRN_CMD_ARG.off 2), s.trnKey, bit (s.word (Reg.TRN_CMD_ARG.off 1)) 16,
    bits (s.word (Reg.TRN_CMD_ARG.off 1)) 17 4, bit (s.word (Reg.TRN_CMD_ARG.off 1)) 21⟩

theorem State.trnRun_keySet (hdomain : ∀ e ∈ s.trn.slots, e.1 ≠ n → e.2.domain ≠ bits (s.word (Reg.TRN_CMD_ARG.off 1)) 0 16)
    (hrecent : s.recent s.trn.slotEnd n = false) : s.trnRun req 1 =
      (({ s with trn := { s.trn with slots := Tbl.ins s.trn.slots n s.argKey } } : State).tableWrite (tagKey n) 8, some 0) := by
  have hother : s.trn.slots.any (fun e => e.1 != n && e.2.domain == bits (s.word (Reg.TRN_CMD_ARG.off 1)) 0 16) = false := by
    simpa using hdomain
  subst hn
  unfold State.argSlot at *
  simp [State.trnRun, hreq, hnamed, hregions, hrecent, hother, State.argKey]

theorem State.trnRun_keyClear : s.trnRun req 2 =
    (({ s with trn := { s.trn with slots := Tbl.del s.trn.slots n } } : State).tableWrite (tagKey n) 8, some 0) := by
  subst hn
  unfold State.argSlot at *
  simp [State.trnRun, hreq, hnamed, hregions]

end

/-! ### The commands of a host port (R325, R326) -/

section
variable {s : State} {req : Requester} (h : s.TrnAllowed req)
include h

/-- A command of a host port does not depend on who gives it, if he may. -/
theorem State.TrnAllowed.trnRun_eq {op : Nat} (hop : 3 ≤ op) : s.trnRun req op = s.trnRun .fm op := by
  have hkey : ¬ op ≤ 2 := Nat.not_le.2 hop
  obtain ⟨hreq, -⟩ := h
  unfold State.argPort at hreq
  cases req with
  | fn i =>
    obtain rfl := Requester.fn.inj (hreq.resolve_left Bool.false_ne_true)
    simp [State.trnRun, hkey]
  | mc c => simp [State.trnRun, hkey]
  | fm => rfl
  | monitor => simp [State.trnRun, hkey]

/-- R286: a region begins where its size and base are in order, none lies there, and its key is not the one it was cleared under. -/
theorem State.TrnAllowed.regionSet {n p k b : Nat} {v : Slot} (hn : n = s.argSlot) (hp : p = s.argPort)
    (hk : k = bits (s.word (Reg.TRN_CMD_ARG.off 1)) 0 5)
    (hb : b = s.word (Reg.TRN_CMD_ARG.off 2) + s.word (Reg.TRN_CMD_ARG.off 3) * 2 ^ 32) (hsize : k ≤ 20) (halign : b % 4096 = 0)
    (htotal : s.regionTotal + 2 ^ k ≤ 4194304) (hfree : s.region? p n = none) (hrecent : s.recent s.trn.cleared (p * 1024 + n) = false)
    (hslot : s.slot? n = some v) (hstale : Tbl.find? s.trn.stale (p * 1024 + n) ≠ some v.epoch) : s.trnRun req 3 =
      ({ s with trn := { s.trn with regions := Tbl.ins s.trn.regions (p * 1024 + n) ⟨k, b⟩ } }, some 0) := by
  rw [h.trnRun_eq (by decide)]
  obtain ⟨-, hport⟩ := h
  subst hn hp hk hb
  unfold State.argSlot State.argPort at *
  have hgood : ¬ (bits (s.word (Reg.TRN_CMD_ARG.off 1)) 0 5 > 20 ∨
      (s.word (Reg.TRN_CMD_ARG.off 2) + s.word (Reg.TRN_CMD_ARG.off 3) * 2 ^ 32) % 4096 ≠ 0 ∨
      s.regionTotal + 2 ^ bits (s.word (Reg.TRN_CMD_ARG.off 1)) 0 5 > 4194304) := by omega
  simp only [State.trnRun, hport, hfree, hrecent, hslot, hstale, if_neg hgood]
  simp

theorem State.TrnAllowed.regionClear {n p : Nat} (hn : n = s.argSlot) (hp : p = s.argPort) (hnamed : s.slotNamed n (some p) = false) :
    s.trnRun req 4 = (s.regionEnd p n 4 false, some 0) := by
  rw [h.trnRun_eq (by decide)]
  obtain ⟨-, hport⟩ := h
  subst hn hp
  unfold State.argSlot State.argPort at *
  simp [State.trnRun, hport, hnamed]

/-- A cached context is reset at once. -/
theorem State.TrnAllowed.ctxReset {n p k : Nat} {c : Ctx} (hn : n = s.argSlot) (hp : p = s.argPort)
    (hk : k = ctxKey p n (bits (s.word (Reg.TRN_CMD_ARG.off 1)) 0 22))
    (hcovered : s.covered p n (bits (s.word (Reg.TRN_CMD_ARG.off 1)) 0 22) = true) (hc : s.ctx? k = some c) :
    s.trnRun req 5 = (s.ctxError k 3 none, some 0) := by
  rw [h.trnRun_eq (by decide)]
  obtain ⟨-, hport⟩ := h
  subst hk hn hp
  unfold State.argSlot State.argPort at *
  simp [State.trnRun, hport, hcovered, State.needCtx, hc]

theorem State.TrnAllowed.ctxFlush {n p : Nat} (hn : n = s.argSlot) (hp : p = s.argPort) :
    s.trnRun req 6 = (s.regionFlush (p * 1024 + n), some 0) := by
  rw [h.trnRun_eq (by decide)]
  obtain ⟨-, hport⟩ := h
  subst hn hp
  unfold State.argSlot State.argPort at *
  simp [State.trnRun, hport]

end

/-! ### The statement -/

/-- Settles O43: each command by its equations, one for each outcome. -/
theorem transportRecords : Obligations.TransportRecords := by
  refine ⟨fun s k e hout => ⟨_, rfl, exec_contextLoad_data hout, exec_contextLoad_error hout⟩,
    fun s u k d i v hslot hu hroom => ⟨State.recordRead_kept hslot hu hroom i,
      fun hrec => ⟨_, rfl, State.recordRead_fresh hslot hu hroom i hrec rfl⟩⟩,
    fun s k c v hc hpin hslot => ⟨s.spill k c, exec_contextEvict_loose hc hpin, s.ctx?_spill_self k c,
      State.spill_dirty_writes hslot, fun hclean => (congrArg State.out (State.spill_clean hclean) :)⟩,
    fun s k c hc hpin => exec_contextEvict_pinned hc hpin, fun s i r => rfl,
    fun s t i k e hread hep ht => ?order, fun s req hcfg => ?access, fun s req op hlo hhi => ⟨State.trnCmd_busy hlo hhi req,
      fun hfree => ⟨_, _, rfl, rfl, State.trnCmd_free hlo hhi req hfree⟩⟩, fun s req => ?commands⟩
  case order =>
    subst ht
    exact ⟨fun d v => State.orderReturn_found hread hep, fun d => State.orderReturn_full hread hep, State.orderReturn_error hread hep⟩
  case access =>
    obtain ⟨d, hloc, hid⟩ := isReg_elim locPf_TRN_CMD
    have hop {op : Nat} (h : op ≤ 6) := State.access_trnCmd hcfg hloc hid (show op < 2 ^ 32 by omega)
    refine ⟨d, _, hloc, fun op => rfl, ?_, ?_, ?_, ?_, ?_, ?_⟩ <;> exact congrArg Host.Outcome.next (hop (by decide))
  case commands =>
    intro A n h hn hh
    change n = s.argSlot at hn
    change h = s.argPort at hh
    have hslots : ∀ x : Tbl Slot, Stays [.trn] s { s with trn := { s.trn with slots := x } } := fun x => Stays.set_trn (Stays.refl s) (by decide)
    refine ⟨fun hreq => ⟨State.trnRun_notMgmt (by decide) hreq, State.trnRun_notMgmt (by decide) hreq⟩,
      fun hreq hnamed hregions => ⟨fun hdomain hrecent => ⟨_, s.argKey, State.trnRun_keySet hn hreq hnamed hregions hdomain hrecent,
          Tbl.find?_ins_self _ _ _, rfl, rfl, hslots _⟩,
        _, State.trnRun_keyClear hn hreq hnamed hregions, Tbl.find?_del_self _ _, hslots _⟩,
      fun i hreq hi op hlo _ => hreq ▸ State.trnRun_otherFunction hlo (hh ▸ hi), fun hreq hport => ?allowed⟩
    case allowed =>
      have hmay : s.TrnAllowed req := ⟨hh ▸ hreq, hh ▸ hport⟩
      exact ⟨fun k b v hk hb hsize halign htotal hfree hrecent hslot hstale => ⟨_, hmay.regionSet hn hh hk hb hsize halign htotal hfree hrecent
            hslot hstale, Tbl.find?_ins_self _ _ _, Stays.set_trn (Stays.refl s) (by decide)⟩,
        hmay.regionClear hn hh, fun k c hk => hmay.ctxReset hn hh hk, hmay.ctxFlush hn hh⟩

end Sys2Proof.Machine
end

section
/-! The transport's timers and generations (R296 to R308, R317, R322). -/
namespace Sys2Proof.Machine

/-! ### A cached context -/

theorem State.ctx?_setCtx_self (s : State) (k : Nat) (c : Ctx) : (s.setCtx k c).ctx? k = some c := Tbl.find?_ins_self _ k c

theorem State.onCtx_cached {s : State} {k : Nat} {c : Ctx} (hc : s.ctx? k = some c) (f : Ctx → Ctx) :
    s.onCtx k f = s.setCtx k { f c with dirty := true } := by simp only [State.onCtx, hc]

theorem Ctx.rxS_setRx_self {c : Ctx} {st : Nat} (hst : st < c.rx.length) (r : StreamRx) : (c.setRx st r).rxS st = r := by
  simp [Ctx.rxS, Ctx.setRx, hst]

/-! ### Acknowledgements (R295, R301) -/

/-- Stream `st` of a context owes no ACK: its causes are over, the time is noted, and the serial goes on. -/
def State.ackNoted (s : State) (k st : Nat) (c : Ctx) : State :=
  s.onCtx k (fun d => d.setRx st { c.rxS st with serial := (c.rxS st).serial + 1, count := 0, firstAt := none, lastAck := some s.cycles,
                                                 waiting := false, ordNak := none })

/-- A packet joins the queue of hub port `h`, last. -/
def State.joinHub (s : State) (h : Nat) (i : InjPkt) : State :=
  { s with sch := { s.sch with nextInj := s.sch.nextInj + 1,
                               inj := Tbl.put (fun _ => []) s.sch.inj h (Tbl.get (fun _ => []) s.sch.inj h ++ [i]) } }

theorem State.mem_injQ_joinHub (s : State) (h : Nat) (i : InjPkt) : i ∈ (s.joinHub h i).injQ h := by
  simp [State.joinHub, State.injQ]

section
variable {s : State} {k : Nat} {c : Ctx} (hc : s.ctx? k = some c)
include hc

theorem State.sendAck_eq {v : Slot} (hv : s.slot? (ctxSlot k) = some v) (st : Nat) : ∃ i : InjPkt,
    s.sendAck k st = (s.ackNoted k st c).joinHub (c.hash % 6) i ∧ i.type = 0x11 ∧ i.ctx = k ∧ i.request = false := by
  simp only [State.sendAck, hc, hv]
  exact ⟨_, rfl, rfl, rfl, rfl⟩

theorem State.ctx?_ackNoted (st : Nat) : (s.ackNoted k st c).ctx? k = some { c.setRx st
    { c.rxS st with serial := (c.rxS st).serial + 1, count := 0, firstAt := none, lastAck := some s.cycles, waiting := false,
                    ordNak := none } with dirty := true } := by
  rw [State.ackNoted, State.onCtx_cached hc, State.ctx?_setCtx_self]

theorem State.sendAck_sends {v : Slot} {st : Nat} (hv : s.slot? (ctxSlot k) = some v) (hst : st < c.rx.length) :
    ∃ d, (s.sendAck k st).ctx? k = some d ∧ (d.rxS st).firstAt = none ∧ (d.rxS st).waiting = false ∧ (d.rxS st).count = 0 ∧
      (d.rxS st).lastAck = some s.cycles ∧ ∃ i ∈ (s.sendAck k st).injQ (c.hash % 6), i.type = 0x11 ∧ i.ctx = k ∧ i.request = false := by
  obtain ⟨i, heq, htype, hctx, hreq⟩ := State.sendAck_eq hc hv st
  have hrx := Ctx.rxS_setRx_self hst { c.rxS st with
    serial := (c.rxS st).serial + 1, count := 0, firstAt := none, lastAck := some s.cycles, waiting := false, ordNak := none }
  rw [heq]
  refine ⟨_, State.ctx?_ackNoted hc st, ?_, ?_, ?_, ?_, i, State.mem_injQ_joinHub _ _ i, htype, hctx, hreq⟩
  · exact congrArg StreamRx.firstAt hrx
  · exact congrArg StreamRx.waiting hrx
  · exact congrArg StreamRx.count hrx
  · exact congrArg StreamRx.lastAck hrx

theorem exec_ackCoalesceExpiry_due {st t0 : Nat} (hst : st < 2) (hlive : s.live = true) (hfirst : (c.rxS st).firstAt = some t0)
    (hdue : t0 + s.g Reg.TRN_ACK_CFG.coalesce ≤ s.cycles) : exec (.ackCoalesceExpiry k st) s = .next (s.sendAck k st) := by
  show execAckCoalesceExpiry k st s = _
  simp only [execAckCoalesceExpiry, hc, hfirst]
  exact if_pos ⟨hst, hlive, hdue⟩

theorem exec_ackRateRelease_due {st : Nat} (hst : st < 2) (hlive : s.live = true) (hwait : (c.rxS st).waiting = true)
    (hdue : (c.rxS st).lastAck.getD 0 + 64 ≤ s.cycles) : exec (.ackRateRelease k st) s = .next (s.sendAck k st) := by
  show execAckRateRelease k st s = _
  simp only [execAckRateRelease, hc]
  exact if_pos ⟨hst, hlive, hwait, hdue⟩

/-! ### Retransmission (R303 to R305) -/

section
variable {st n : Nat} {p : TxPkt} (hp : (c.txS st).pkts.find? (fun p => p.psn == n) = some p)
include hp

theorem State.retransmit_waiting (hwait : p.waiting = true) : s.retransmit k st n = s := by
  simp only [State.retransmit, hc, hp]
  exact if_pos hwait

theorem State.retransmit_limit (hwait : p.waiting = false) (hlimit : max 1 (s.g Reg.TRN_RETX_CFG.retries) < p.attempt + 1) :
    s.retransmit k st n = s.ctxError k 1 (some p.op) := by
  simp only [State.retransmit, hc, hp]
  rw [if_neg (by simp [hwait]), if_pos hlimit]

/-- Once it is counted, a retransmission only draws a hash, notes the attempt and queues the packet. -/
theorem State.retransmit_stays_counted (hwait : p.waiting = false) (hlimit : p.attempt + 1 ≤ max 1 (s.g Reg.TRN_RETX_CFG.retries)) :
    Stays [.free, .trn, .sch] (s.bump Ctr.TRN_RETX_COUNT) (s.retransmit k st n) := by
  simp only [State.retransmit, hc, hp]
  rw [if_neg (by simp [hwait]), if_neg (Nat.not_lt.2 hlimit)]
  have hhash := (State.pickHash_stays c p.ordered p.hash ⟨by decide⟩ (Stays.refl (w := [.free, .trn, .sch]) (s.bump Ctr.TRN_RETX_COUNT))).snd
  exact State.queueTx_stays _ _ _ _ (State.onCtx_stays k _ ⟨by decide⟩ hhash) ⟨by decide⟩ hhash

theorem State.ctr_retransmit (hwait : p.waiting = false) (hlimit : p.attempt + 1 ≤ max 1 (s.g Reg.TRN_RETX_CFG.retries)) :
    (s.retransmit k st n).ctr Ctr.TRN_RETX_COUNT = s.ctr Ctr.TRN_RETX_COUNT + 1 :=
  (State.ctr_of_stays (State.retransmit_stays_counted hc hp hwait hlimit) (by decide) _).trans (State.ctr_bump_self _ _)

end

/-- The packets of stream `st` that are not acknowledged and were sent the timer's duration ago or longer. -/
def State.oldPkts (s : State) (c : Ctx) (st : Nat) : List TxPkt :=
  (c.txS st).pkts.filter (fun p => !p.sacked && (match p.sent with
    | some x => decide (x + s.rto (c.txS st).backoff ≤ s.cycles)
    | none => false))

/-- R303: the expiry is counted, the timer starts again, and it is longer up to the limit. -/
def State.timerRestarted (s : State) (k st : Nat) (c : Ctx) : State :=
  (s.bump Ctr.TRN_TIMEOUT_COUNT).onCtx k (fun d => d.setTx st { c.txS st with
    timer := some s.cycles, backoff := max (c.txS st).backoff (min ((c.txS st).backoff + 1) (s.g Reg.TRN_RETX_CFG.max_backoff)) })

theorem exec_retxTimerExpiry_due {st t0 : Nat} (hst : st < 2) (hlive : s.live = true) (htimer : (c.txS st).timer = some t0)
    (hdue : t0 + s.rto (c.txS st).backoff ≤ s.cycles) : exec (.retxTimerExpiry k st) s =
      .next ((s.oldPkts c st).foldl (fun u p => u.retransmit k st p.psn) (s.timerRestarted k st c)).settle := by
  show execRetxTimerExpiry k st s = _
  simp only [execRetxTimerExpiry, hc, htimer]
  rw [if_neg (by simp only [hlive, not_true, false_or]; omega)]
  rfl

theorem exec_retxTimerExpiry_early {st t0 : Nat} (htimer : (c.txS st).timer = some t0) (hearly : s.cycles < t0 + s.rto (c.txS st).backoff) :
    exec (.retxTimerExpiry k st) s = .next s := by
  show execRetxTimerExpiry k st s = _
  simp only [execRetxTimerExpiry, hc, htimer]
  exact if_pos (.inr (.inr hearly))

theorem exec_earlyRetx_due {st : Nat} {p : TxPkt} (hp : (c.txS st).pkts.find? (fun p => s.earlyDue (c.txS st) p) = some p) (hst : st < 2)
    (hlive : s.live = true) : exec (.earlyRetx k st) s = .next ((s.retransmit k st p.psn).onCtx k (fun c => c.setTx st
      { c.txS st with pkts := (c.txS st).pkts.map (fun x => if x.psn = p.psn then { x with early := true } else x) })).settle := by
  show execEarlyRetx k st s = _
  simp only [execEarlyRetx, hc, hp]
  exact if_pos ⟨hst, hlive⟩

/-! ### Generations (R317, R322) -/

theorem exec_generationRoll_due (hlive : s.live = true) (hgen : c.txGen ≠ 0xFFFFFFFF) (hst : c.state = 1) (hsent : ∀ t ∈ c.tx, t.pkts = [])
    (hmid : ∀ e ∈ s.trn.ops, e.2.ctx = k → e.2.midway = false) :
    exec (.generationRoll k) s = .next ((s.onCtx k Ctx.nextGen).bump Ctr.TRN_ROLL_COUNT) := by
  have hflight : c.tx.any (fun t => !t.pkts.isEmpty) = false := by simpa using hsent
  have hwhole : s.trn.ops.any (fun e => e.2.ctx == k && e.2.midway) = false := by simpa using hmid
  show execGenerationRoll k s = _
  simp only [execGenerationRoll, hc]
  rw [if_neg (by simp [hst, hflight, hwhole, hlive]), if_neg hgen]

theorem exec_ctxErrorExit_due (hlive : s.live = true) (hgen : c.txGen ≠ 0xFFFFFFFF) (hst : c.state = 2) (hdetail : c.errDetail ≠ 7)
    (hover : 2 * s.life ≤ s.since c.errCourse) : exec (.ctxErrorExit k) s = .next (s.onCtx k Ctx.nextGen) := by
  show execCtxErrorExit k s = _
  simp only [execCtxErrorExit, hc]
  rw [if_neg (by simp [hst, hdetail, hlive, hover]), if_neg hgen]

theorem exec_ctxErrorExit_stays (h : c.errDetail = 7 ∨ s.since c.errCourse < 2 * s.life) : exec (.ctxErrorExit k) s = .next s := by
  show execCtxErrorExit k s = _
  simp only [execCtxErrorExit, hc]
  exact if_pos (.inr (h.imp_right .inr))

end

/-- A generation begins with its sequence numbers afresh; the receive direction goes on. -/
theorem Ctx.nextGen_fresh (c : Ctx) : c.nextGen.txGen = c.txGen + 1 ∧ c.nextGen.state = 0 ∧ c.nextGen.rx = c.rx ∧
    c.nextGen.rxGen = c.rxGen ∧ ∀ t ∈ c.nextGen.tx, t.next = 0 ∧ t.acked = 0xFFFFFF ∧ t.pkts = [] := by
  refine ⟨rfl, rfl, rfl, rfl, fun t ht => ?_⟩
  obtain ⟨x, -, rfl⟩ := List.mem_map.1 ht
  exact ⟨rfl, rfl, rfl⟩

/-! ### Operations that wait (R308, R323) -/

section
variable {s : State} {i : Nat} {w : When} {o : Op} (ho : s.op? i = some o) (hdone : o.done = none)
include ho hdone

theorem exec_rnrResend_due (hrnr : o.rnrAt = some w) (hlive : s.live = true) (hdue : max 1 (s.g Reg.TRN_RNR_CFG.delay) ≤ s.over w) :
    exec (.rnrResend i) s = .next (s.setOp i { o with next := 0, sent := [], got := 0, rnrAt := none, ackedAt := none }) := by
  show execRnrResend i s = _
  simp only [execRnrResend, ho, hrnr]
  exact if_pos ⟨hlive, by simp [hdone], hdue⟩

theorem exec_responseTimeout_due (hacked : o.ackedAt = some w) (hst : o.stream = 0) (hrnr : o.rnrAt = none) (hgot : o.got < o.resp)
    (hdue : max 1 (s.g Reg.TRN_ACK_CFG.resp_limit) ≤ s.over w) :
    exec (.responseTimeout i) s = .next (s.finishOp i (Res.of stTRANSPORT 5)).settle := by
  show execResponseTimeout i s = _
  simp only [execResponseTimeout, ho, hacked]
  exact if_pos ⟨hst, by simp [hdone], by simp [hrnr], hgot, hdue⟩

end

end Sys2Proof.Machine
end

section
/-! Packets sent and received by the transport: operations, hub ports, acknowledgements and results (R176, R292, R293, R296, R298,
R302). -/
namespace Sys2Proof.Machine

/-! ### Sending (R296) -/

/-- Only a GET_DATA operation reads before it sends. -/
theorem exec_transportSend {s : State} {i : Nat} {o : Op} (hm : HostView) (ho : s.op? i = some o)
    (horigin : ∀ a b c d e f, o.origin ≠ .getData a b c d e f) : exec (.transportSend i hm) s = .next (s.transportSend i hm).settle := by
  show execTransportSend i hm s = _
  simp only [execTransportSend, ho]

/-- R286: a cached context is at hand. -/
theorem State.needCtx_cached {s : State} {k : Nat} {c : Ctx} (hc : s.ctx? k = some c) (inbound : Bool) :
    s.needCtx k inbound = (s, .have_ c) := by simp only [State.needCtx, hc]

/-- Nothing of the operation itself or of its stream holds its next packet back. -/
structure State.MaySend (s : State) (i : Nat) (o : Op) : Prop where
  runs : s.opRuns o = true
  going : o.done = none
  more : o.next < o.total
  ready : o.rnrAt = none
  apart : o.stream = 0 → s.midMessage o.ctx i = false
  first : s.behindOrdered i o = false

/-- The slot, the region, the context and the window let an operation's next packet go. -/
structure State.SendsIn (s : State) (o : Op) (v : Slot) (c : Ctx) : Prop where
  slot : s.slot? (ctxSlot o.ctx) = some v
  covered : s.covered (ctxHp o.ctx) (ctxSlot o.ctx) (ctxRemote o.ctx) = true
  cached : s.ctx? o.ctx = some c
  live : c.state ≠ 2
  sends : c.sends o = true
  window : ((c.txS o.stream).next - (c.txS o.stream).acked).toNat ≤ 256

theorem State.transportSend_sends {s u : State} {i : Nat} {hm : HostView} {o : Op} {v : Slot} {c : Ctx} {d : Data} (ho : s.op? i = some o)
    (hmay : s.MaySend i o) (hin : s.SendsIn o v c) (hpay : s.payload hm (ctxHp o.ctx) i o o.next = (u, .data d)) :
    s.transportSend i hm = u.sendPkt i o c v d := by
  obtain ⟨hruns, hgoing, hmore, hready, hapart, hfirst⟩ := hmay
  obtain ⟨hslot, hcovered, hcached, hlive, hsends, hwindow⟩ := hin
  have hgo : ¬ (¬ s.opRuns o = true ∨ o.done.isSome = true ∨ o.next ≥ o.total ∨ o.rnrAt.isSome = true ∨
      (o.stream = 0 ∧ s.midMessage o.ctx i = true) ∨ s.behindOrdered i o = true) := by
    simp [hruns, hgoing, hready, hfirst, Nat.not_le.2 hmore]
    exact hapart
  simp only [State.transportSend, ho, hslot, State.needCtx_cached hcached, hpay]
  rw [if_neg hgo, if_neg (by simp [hcovered]), if_neg hlive, if_neg (not_or.2 ⟨not_not.2 hsends, Nat.not_lt.2 hwindow⟩)]

/-! ### The next packet of a hub port (R176) -/

/-- A packet that can be handled: no ACK, and its context's record is not being read. -/
def State.rxReady (s : State) (d : Data) : Bool := !isAck d && !s.rxWaits d

/-- The oldest response that can be handled goes first. -/
theorem State.rxNext_eq (s : State) (h : Nat) : s.rxNext h =
    ((s.hubQ h).findIdx? (fun e => isResponse e.1 && s.rxReady e.1)).or ((s.hubQ h).findIdx? (fun e => s.rxReady e.1)) := by
  simp only [State.rxNext, State.rxReady]
  split
  · next hfirst => rw [hfirst, Option.some_or]
  · next hnone => rw [hnone, Option.none_or]

theorem State.rxNext_single {s : State} {h : Nat} {d : Data} {n : Nat} (hq : s.hubQ h = [(d, n)]) (hack : isAck d = false)
    (hwait : s.rxWaits d = false) : s.rxNext h = some 0 := by
  have hready : s.rxReady d = true := by simp [State.rxReady, hack, hwait]
  rw [State.rxNext_eq, hq]
  cases hr : isResponse d <;> simp [hready, hr]

/-- A request comes next only while every response waits for its own context. -/
theorem State.rxNext_request {s : State} {h j : Nat} {d : Data} {n : Nat} (hj : s.rxNext h = some j) (hd : (s.hubQ h)[j]? = some (d, n))
    (hreq : isResponse d = false) {e : Data × Nat} (he : e ∈ s.hubQ h) (hresp : isResponse e.1 = true) (hack : isAck e.1 = false) :
    s.rxWaits e.1 = true := by
  rw [State.rxNext_eq] at hj
  cases hfirst : (s.hubQ h).findIdx? (fun e => isResponse e.1 && s.rxReady e.1) with
  | some i =>
    obtain rfl : i = j := by simpa [hfirst] using hj
    obtain ⟨hi, hresponse, -⟩ := List.findIdx?_eq_some_iff_getElem.1 hfirst
    rw [List.getElem?_eq_getElem hi] at hd
    simp [Option.some.inj hd, hreq] at hresponse
  | none =>
    have hnot := List.findIdx?_eq_none_iff.1 hfirst e he
    simpa [hresp, hack, State.rxReady] using hnot

/-! ### Receiving (R298, R302) -/

theorem exec_transportRx {s : State} {h : Nat} (hh : h < 6) : exec (.transportRx h) s = .next (s.transportRx h).settle := if_pos hh

theorem exec_ackRx {s : State} {h : Nat} (hh : h < 6) : exec (.ackRx h) s = .next (s.ackRx h).settle := if_pos hh

theorem State.transportRx_next {s : State} {h j n : Nat} {d : Data} (hj : s.rxNext h = some j) (hd : (s.hubQ h)[j]? = some (d, n))
    (hlive : s.live = true) : s.transportRx h = s.rxAt h j d := by
  simp only [State.transportRx, hj, hd, hlive, if_true]

theorem State.rxAt_badHeader {s : State} {d : Data} (h j : Nat) (hcrc : Hdr.crcOk d.hdr = false) : s.rxAt h j d =
    ((s.hubDrop h j).bump Ctr.RTE_HDR_ERR_COUNT).raise (srcRte 1) 0 (64 + h) := if_pos (by simp [hcrc])

/-- A packet that passes steps 1 to 4 of R298 is checked in its context. -/
theorem State.rxAt_checked {s : State} {d : Data} {k : Nat} {v : Slot} {c : Ctx} (h j : Nat) (hcrc : Hdr.crcOk d.hdr = true)
    (hlife : s.lifeCheck (Hdr.birth d.hdr) = none) (htype : Hdr.type d.hdr = 0x00 ∨ Hdr.type d.hdr = 0x10) (hkey : s.rxKey d = some k)
    (hslot : s.slot? (ctxSlot k) = some v) (hloaded : k ∉ s.trn.loadErr) (hc : s.ctx? k = some c) :
    s.rxAt h j d = (s.hubDrop h j).rxChecked k v c d.hdr (bits d.val 128 256) (d.slice 48 (d.len - 48)) := by
  simp only [State.rxAt, hlife, hkey, hslot, State.needCtx_cached hc]
  rw [if_neg (by simp [hcrc]), if_neg (by omega), if_neg (by simpa using hloaded)]

theorem State.ackRx_next {s : State} {h j n : Nat} {d : Data} (hj : (s.hubQ h).findIdx? (fun e => isAck e.1) = some j)
    (hd : (s.hubQ h)[j]? = some (d, n)) (hlive : s.live = true) : s.ackRx h = s.ackAt h j d := by
  simp only [State.ackRx, hj, hd, hlive, if_true]

theorem State.ctx?_hubDrop (s : State) (h j k : Nat) : (s.hubDrop h j).ctx? k = s.ctx? k := rfl

/-- An ACK of the present generation that is newer than the last is acted on. -/
theorem State.ackAt_acts {s : State} {m k : Nat} {d b : Data} {c : Ctx} (h j : Nat) (hlife : s.lifeCheck (Hdr.birth d.hdr) = none)
    (hb : b = d.slice 16 48) (hm : s.slotOf (b.field 0 0 16) = some m) (hk : k = ctxKey (Hdr.dstHp d.hdr) m (Hdr.src d.hdr * 4 + Hdr.srcHp d.hdr))
    (hcovered : s.covered (Hdr.dstHp d.hdr) m (Hdr.src d.hdr * 4 + Hdr.srcHp d.hdr) = true) (hc : s.ctx? k = some c)
    (hgen : b.field 5 0 8 = c.txGen.toNat % 256)
    (hnew : serialCmp (c.txS (b.field 6 0 1)).serialSeen.toNat (b.field 8 0 16) 16 = .before) :
    s.ackAt h j d = (s.hubDrop h j).actOnAck k c b := by
  subst hb hk
  simp only [State.ackAt, hlife, hm, hcovered, State.ctx?_hubDrop, hc, hgen, hnew]
  simp

/-! ### RESULT (R292, R293, R308) -/

section
variable {s : State} {a : Arr} (ha : s.front [0x01] = some a)
include ha

theorem exec_resultRx_answers {i : Nat} {o : Op} (hreq : s.requestOf a (Th.at_ a.th 19 0 24) (Th.at_ a.th 22 0 8) = some (i, o))
    (hdone : o.done = none) (hrnr : o.rnrAt = none) :
    exec .resultRx s = .next ((s.takeArr a).resultFor i o (Th.at_ a.th 23 0 8) (Th.at_ a.th 24 0 16)).settle := by
  show execResultRx s = _
  simp only [execResultRx, ha, hreq]
  exact if_neg (by simp [hdone, hrnr])

theorem exec_resultRx_late (hreq : s.requestOf a (Th.at_ a.th 19 0 24) (Th.at_ a.th 22 0 8) = none) :
    exec .resultRx s = .next ((s.takeArr a).bump Ctr.RMA_LATE_RESULT_COUNT) := by
  show execResultRx s = _
  simp only [execResultRx, ha, hreq]

end

section
variable (s : State) (i : Nat) (o : Op) {st dt : Nat}

theorem State.resultFor_ok (h : st = 0) : s.resultFor i o st dt = s.setOp i { o with got := o.got + 1 } := if_pos h

theorem State.resultFor_notReady (h : st = stEP_UNAVAILABLE ∧ dt = 6) : s.resultFor i o st dt = s.rnrRefused i o := by
  have hfailed : st ≠ 0 := h.1 ▸ by decide
  rw [State.resultFor, if_neg hfailed, if_pos h]

theorem State.resultFor_failed (hst : st ≠ 0) (h : ¬ (st = stEP_UNAVAILABLE ∧ dt = 6)) :
    s.resultFor i o st dt = s.finishOp i (Res.of st dt) := by rw [State.resultFor, if_neg hst, if_neg h]

end

/-! ### The statement -/

/-- Settles O44: the timers and generations, then packets and results, each by the equations of its outcomes. -/
theorem transportPacketsAndTimers : Obligations.TransportPacketsAndTimers := by
  refine ⟨⟨fun s k st t0 c hc hst hlive => ⟨exec_ackCoalesceExpiry_due hc hst hlive, exec_ackRateRelease_due hc hst hlive⟩,
      fun s k st t0 c hc hst hlive htimer hdue => ⟨s.timerRestarted k st c, _, s.oldPkts c st, rfl,
        exec_retxTimerExpiry_due hc hst hlive htimer hdue, rfl, rfl⟩,
      fun s k st n c p hc hp => ⟨State.retransmit_waiting hc hp, State.retransmit_limit hc hp, State.ctr_retransmit hc hp⟩,
      fun s k st c v hc hv hst => State.sendAck_sends hc hv hst,
      fun s k st t0 c hc htimer hearly => exec_retxTimerExpiry_early hc htimer hearly,
      fun s k st c p hc hp hst hlive => ⟨_, rfl, exec_earlyRetx_due hc hp hst hlive⟩,
      fun s k c hc hlive hgen => ⟨exec_generationRoll_due hc hlive hgen, exec_ctxErrorExit_due hc hlive hgen⟩,
      Ctx.nextGen_fresh, fun s k c hc _ h => exec_ctxErrorExit_stays hc h,
      fun s i w o ho hrnr hlive hdone hdue => exec_rnrResend_due ho hdone hrnr hlive hdue,
      fun s i w o ho hacked hst hdone hrnr hgot hdue => exec_responseTimeout_due ho hdone hacked hst hrnr hgot hdue⟩,
    fun s i hm o ho horigin => exec_transportSend hm ho horigin,
    fun s i hm o v c u d ho hruns hgoing hmore hready hapart hfirst hslot hcovered hcached hlive hsends hwindow hpay =>
      State.transportSend_sends ho ⟨hruns, hgoing, hmore, hready, hapart, hfirst⟩ ⟨hslot, hcovered, hcached, hlive, hsends, hwindow⟩ hpay,
    fun s h hh => ⟨exec_transportRx hh, exec_ackRx hh⟩,
    fun s h j d n hj hd hlive hcrc => (State.transportRx_next hj hd hlive).trans (State.rxAt_badHeader h j hcrc),
    fun s h d n hq hack hwait => State.rxNext_single hq hack hwait,
    fun s h j d n hj hd hreq e he hresp hack => State.rxNext_request hj hd hreq he hresp hack,
    fun s a i o ha hreq hdone hrnr => exec_resultRx_answers ha hreq hdone hrnr,
    fun s i st dt o => ⟨s.resultFor_ok i o, s.resultFor_notReady i o, s.resultFor_failed i o⟩,
    fun s h j d n k v c hj hd hlive hcrc hlife htype hkey hslot hloaded hc =>
      (State.transportRx_next hj hd hlive).trans (State.rxAt_checked h j hcrc hlife htype hkey hslot hloaded hc),
    fun s h j n m k d b c hj hd hlive hlife hb hm hk hcovered hc hgen hnew =>
      (State.ackRx_next hj hd hlive).trans (State.ackAt_acts h j hlife hb hm hk hcovered hc hgen hnew),
    fun s a ha hreq => exec_resultRx_late ha hreq⟩

end Sys2Proof.Machine
end

section
/-! The work entries of message matching (R330, R338 to R345, R347, R351, R352). -/
namespace Sys2Proof.Machine

/-! ### MSG_SEND (R330, R352) -/

/-- R330: a cached order record is at hand. -/
theorem State.needOrder_cached {s : State} {ep dir peer context : Nat} {r : OrderRec}
    (h : Tbl.find? s.mch.orders (orderKey ep dir peer context) = some r) : s.needOrder ep dir peer context = (s, .have_ r) := by
  simp only [State.needOrder, h]

section
variable {s : State} {q : Nat} {v : Sq} {e : Ent} {p : Ep} {r : OrderRec}

theorem exec_msgSend_recorded (h : s.epEntry q 0x01 = some (v, e, p))
    (hr : Tbl.find? s.mch.orders (orderKey v.ep 1 (Mw.peer e.raw) (Mw.context e.raw)) = some r) :
    exec (.msgSend q) s = .next (s.msgSend q v e p r).settle := by
  show execMsgSend q s = _
  simp only [execMsgSend, h, State.needOrder_cached hr]

theorem State.msgSend_eager (h : s.eager e.raw = true) : s.msgSend q v e p r =
    (s.setMsn (orderKey v.ep 1 (Mw.peer e.raw) (Mw.context e.raw)) (r.msn + 1)).sendEager q v e p r.msn.toNat := if_pos h

theorem State.msgSend_rendezvous {u : State} {i : Nat} (h : s.eager e.raw = false) (hi : s.pick 32768 (Tbl.keys s.mch.rvs) = (some i, u)) :
    s.msgSend q v e p r =
      (u.setMsn (orderKey v.ep 1 (Mw.peer e.raw) (Mw.context e.raw)) (r.msn + 1)).sendRts q v e p r.msn.toNat i := by
  rw [State.msgSend, if_neg (by simp [h]), hi]

end

/-! ### MSG_POST (R340, R343) -/

/-- R343: a receive is posted on chip where there is room and none of its endpoint overflows. -/
theorem State.postRecv_onChip {s : State} {ep : Nat} (p : Posted) (hover : s.overOf ep = []) (hroom : s.postRoom (s.epOwner ep) = true) :
    s.postRecv ep p = some (s.setPosted ep (s.postedOf ep ++ [p])) := if_pos ⟨by rw [hover]; rfl, hroom⟩

section
variable {s : State} {q : Nat} {v : Sq} {e : Ent} {p : Ep} (h : s.epEntry q 0x02 = some (v, e, p)) (hlane : s.entryWaits v.ep 0 = false)
include h hlane

theorem exec_msgPost_takes {i : Nat} {m : MHdr} (hm : s.findUnexpected v.ep (Mw.posted e.raw) = some (i, m)) : exec (.msgPost q) s =
    .next ((s.pair i m (Mw.posted e.raw).recv).finishEntry q e.ctr (Res.ok 0)).settle := by
  show execMsgPost q s = _
  simp only [execMsgPost, h, hlane, hm, Bool.false_eq_true, if_false]

section
variable (hnone : s.findUnexpected v.ep (Mw.posted e.raw) = none)
include hnone

theorem exec_msgPost_posts {t : State} (ht : s.postRecv v.ep (Mw.posted e.raw) = some t) :
    exec (.msgPost q) s = .next (t.finishEntry q e.ctr (Res.ok 0)) := by
  show execMsgPost q s = _
  simp only [execMsgPost, h, hlane, hnone, ht, Bool.false_eq_true, if_false]

theorem exec_msgPost_noRoom (ht : s.postRecv v.ep (Mw.posted e.raw) = none) :
    exec (.msgPost q) s = .next (s.finishEntry q e.ctr (Res.of stRESOURCE 0x0011)) := by
  show execMsgPost q s = _
  simp only [execMsgPost, h, hlane, hnone, ht, Bool.false_eq_true, if_false]

end

end

/-! ### MSG_CANCEL (R345) -/

section
variable {s t : State} {q : Nat} {v : Sq} {e : Ent} {p : Ep} (h : s.epEntry q 0x03 = some (v, e, p))
  (hlane : s.entryWaits v.ep (3 + q) = false)
include h hlane

theorem exec_msgCancel_none (hf : s.search v.ep (3 + q) (fun p => p.user == Mw.user e.raw) = (t, .none_)) :
    exec (.msgCancel q) s = .next (t.finishEntry q e.ctr (Res.ok 0)) := by
  show execMsgCancel q s = _
  simp only [execMsgCancel, h, hlane, hf, Bool.false_eq_true, if_false]

/-- The receive comes off the list that it was found on. -/
theorem exec_msgCancel_found {f : Found} {r : Posted} (hf : s.search v.ep (3 + q) (fun p => p.user == Mw.user e.raw) = (t, f))
    (hr : f = .chip r ∨ f = .beyond r) : exec (.msgCancel q) s = .next ((t.unpost v.ep f).cancelled q v e r) := by
  show execMsgCancel q s = _
  simp only [execMsgCancel, h, hlane, hf, Bool.false_eq_true, if_false]
  obtain rfl | rfl := hr
  · rfl
  · rfl

end

/-- The CQ that the receives of an endpoint complete on. -/
def State.recvCq (s : State) (ep : Nat) : Nat := ((s.ep? ep).map (fun x => x.rcq)).getD 0

section
variable {s : State} (q : Nat) {v : Sq} (e : Ent) {r : Posted}

theorem State.cancelled_written (h : (s.cancelPosted v.ep r 0).cqClear (s.recvCq v.ep) = true) :
    s.cancelled q v e r = (s.cancelPosted v.ep r 0).finishEntry q e.ctr (Res.ok 1) := if_pos h

/-- A cancel whose completion is held back is kept until it is written. -/
theorem State.cancelled_held (h : (s.cancelPosted v.ep r 0).cqClear (s.recvCq v.ep) = false) :
    (q, e.ctr, s.recvCq v.ep) ∈ (s.cancelled q v e r).mch.cancels := by
  unfold State.recvCq at h ⊢
  rw [State.cancelled, if_neg (by simp [h]), State.onMch_mch]
  exact List.mem_append_right _ (List.mem_singleton_self _)

end

/-! ### MSG_PROBE (R345) -/

/-- The completion of a probe that has found message `m`; its second slot carries `handle`. -/
def State.probed (s : State) (m : MHdr) (handle : Nat) : Res :=
  { status := stOK, detail := 0, byteCount := m.len, aux := m.tag, slot2 := some (s.msgSlot m handle) }

theorem State.mch_finishEntry (s : State) (q : Nat) (ctr : RingCtr) (r : Res) : (s.finishEntry q ctr r).mch = s.mch :=
  (State.finishEntry_stays q ctr r (Has.refl _) (Stays.refl s)).mch (by decide)

theorem State.hdr?_of_mch {s t : State} (h : t.mch = s.mch) (i : Nat) : t.hdr? i = s.hdr? i := by rw [State.hdr?, State.hdr?, h]

theorem State.hdr?_setHdr_self (s : State) (i : Nat) (m : MHdr) : (s.setHdr i m).hdr? i = some m := Tbl.find?_ins_self _ i m

section
variable {s : State} {q i : Nat} {v : Sq} {e : Ent} {p : Ep} {m : MHdr} (h : s.epEntry q 0x04 = some (v, e, p))
  (hlane : s.entryWaits v.ep 0 = false) (hm : s.findUnexpected v.ep (Mw.posted e.raw) = some (i, m))
include h hlane hm

theorem exec_msgProbe_found (hclaim : Mw.flag e.raw 1 = false) : exec (.msgProbe q) s = .next (s.finishEntry q e.ctr (s.probed m 0)) := by
  show execMsgProbe q s = _
  simp only [execMsgProbe, h, hlane, hm, hclaim, Bool.false_eq_true, if_false, State.probed]

theorem exec_msgProbe_claims (hclaim : Mw.flag e.raw 1 = true) : exec (.msgProbe q) s =
    .next ((s.setHdr i { m with st := .claimed }).finishEntry q e.ctr (s.probed m (s.handle i))) := by
  show execMsgProbe q s = _
  simp only [execMsgProbe, h, hlane, hm, hclaim, Bool.false_eq_true, if_false, if_true, State.probed]

end

/-! ### MSG_MRECV (R339, R345) -/

section
variable {s : State} {q : Nat} {v : Sq} {e : Ent} {p : Ep} (h : s.epEntry q 0x05 = some (v, e, p))
include h

theorem exec_msgMrecv_claimed {m : MHdr} (hm : s.hdr? (Mw.handle e.raw % 65536) = some m) (hlane : s.entryWaits v.ep 0 = false)
    (hnamed : m.st = .claimed ∧ m.ep = v.ep ∧ s.handle (Mw.handle e.raw % 65536) = Mw.handle e.raw) : exec (.msgMrecv q) s =
      .next ((s.pair (Mw.handle e.raw % 65536) m ⟨Mw.buf e.raw, Mw.len e.raw, Mw.user e.raw, 0x05, Wqe.override e.raw⟩).finishEntry q
        e.ctr (Res.ok 0)).settle := by
  show execMsgMrecv q s = _
  simp only [execMsgMrecv, h, hm]
  rw [if_neg (by simp [hlane]), if_pos hnamed]

theorem exec_msgMrecv_none (hm : s.hdr? (Mw.handle e.raw % 65536) = none) : exec (.msgMrecv q) s = .next (s.malformed q e 0x0103) := by
  show execMsgMrecv q s = _
  simp only [execMsgMrecv, h, hm]

end

/-! ### MSG_POST_LB (R340, R347) -/

/-- The landing buffer that an entry of endpoint `ep` describes: nothing has landed in it. -/
def Mw.landing (ep r : Nat) : Landing :=
  { ep := ep, addr := Mw.buf r, len := Mw.len r, user := Mw.user r, fill := 0, passed := false, held := 0, ovr := Wqe.override r }

/-- R347: a landing buffer joins the slots, youngest. -/
def State.addLanding (s : State) (l : Landing) : State :=
  s.onMch (fun m => { m with landings := Tbl.ins m.landings m.nextLb l, nextLb := m.nextLb + 1 })

section
variable {s : State} {q : Nat} {v : Sq} {e : Ent} {p : Ep} (h : s.epEntry q 0x06 = some (v, e, p))
include h

theorem exec_msgPostLb_room (hroom : s.mch.landings.length < 65536) (hquota : s.g (Reg.MCH_FN_QUOTA.lb p.owner) = 0) :
    exec (.msgPostLb q) s = .next ((s.addLanding (Mw.landing v.ep e.raw)).finishEntry q e.ctr (Res.ok 0)) := by
  show execMsgPostLb q s = _
  simp only [execMsgPostLb, h, hquota]
  exact if_neg (by omega)

theorem exec_msgPostLb_full (hfull : 65536 ≤ s.mch.landings.length) :
    exec (.msgPostLb q) s = .next (s.finishEntry q e.ctr (Res.of stRESOURCE 0x0012)) := by
  show execMsgPostLb q s = _
  simp only [execMsgPostLb, h]
  exact if_pos (.inl hfull)

end

end Sys2Proof.Machine
end

section
/-! The packets of message matching, its overflow lists and its held rendezvous (R342, R344, R348 to R350, R352, R354 to R356). -/
namespace Sys2Proof.Machine

/-! ### The packet that comes first (R342, R354) -/

theorem exec_eagerRx_front {s : State} {a : Arr} (h : s.frontOp mchOps 0x10 Arr.lane s.mchWaits = some a) :
    exec .eagerRx s = .next (s.onMsg a false).settle := by
  show execEagerRx s = _
  simp only [execEagerRx, h]

theorem exec_rtsRx_front {s : State} {a : Arr} (h : s.frontOp mchOps 0x11 Arr.lane s.mchWaits = some a) :
    exec .rtsRx s = .next (s.onMsg a true).settle := by
  show execRtsRx s = _
  simp only [execRtsRx, h]

theorem exec_rvGetRx_front {s : State} {a : Arr} (h : s.frontOp [0x12] 0x12 Arr.lane (fun _ => false) = some a) :
    exec .rvGetRx s = .next (s.onRvGet a).settle := by
  show execRvGetRx s = _
  simp only [execRvGetRx, h]

theorem exec_rvDataRx_front {s : State} {a : Arr} (h : s.front [0x13] = some a) : exec .rvDataRx s = .next (s.onRvData a).settle := by
  show execRvDataRx s = _
  simp only [execRvDataRx, h]

theorem exec_skipRx_front {s : State} {a : Arr} (h : s.frontOp mchOps 0x14 Arr.lane s.mchWaits = some a) :
    exec .skipRx s = .next (s.onSkip a).settle := by
  show execSkipRx s = _
  simp only [execSkipRx, h]

/-! ### EAGER and RTS (R348) -/

section
variable {s : State} {a : Arr} {k : Nat} {r : OrderRec} (hkept : s.wasRefused a = false)
  (hk : k = orderKey (Th.dstEp a.th) 0 a.source (Mf.context a.th)) (hr : Tbl.find? s.mch.orders k = some r) (b : Bool)
include hkept hk hr

/-- A message that no header entry holds is new. -/
theorem State.onMsg_new (h : s.hdrFind (Th.dstEp a.th) a.source (Mf.context a.th) (Mf.msn a.th) = none) :
    s.onMsg a b = s.arriveNew a b k r := by
  subst hk
  simp only [State.onMsg, hkept, State.needOrder_cached hr, h, Bool.false_eq_true, if_false]

section
variable {i : Nat} {m : MHdr} (h : s.hdrFind (Th.dstEp a.th) a.source (Mf.context a.th) (Mf.msn a.th) = some (i, m))
include h

/-- R336: a packet of the attempt that the entry holds has its base. -/
theorem State.onMsg_places (hbase : m.base = a.base) :
    s.onMsg a b = (s.takeArr a).placeMsg i m (4096 * Th.index a.th) (a.msgBytes b) := by
  subst hk
  simp only [State.onMsg, hkept, State.needOrder_cached hr, h, hbase, Bool.false_eq_true, if_false, if_true]

theorem State.onMsg_stray (hbase : m.base ≠ a.base) (hst : m.st ≠ .refused) : s.onMsg a b = s.stray a := by
  subst hk
  simp only [State.onMsg, hkept, State.needOrder_cached hr, h, hbase, Bool.false_eq_true, if_false]
  exact if_pos hst

end

end

/-! ### RV_GET (R352, R356) -/

/-- An RV_GET is received: its rendezvous entry remembers the length of the pull. -/
def State.pulls (s : State) (a : Arr) (i : Nat) (x : Rv) : State :=
  (s.takeArr a).onMch (fun m => { m with rvs := Tbl.ins m.rvs i { x with pulled := Th.opLen a.th } })

/-- R352: the operation that answers an RV_GET of a rendezvous entry with the bytes of its source buffer. -/
def Arr.rvDataOp (a : Arr) (i : Nat) (x : Rv) : Op :=
  { Op.base a.ctx 1 (.rvData i x.gen) (Th.dstEp a.th) (Th.srcEp a.th) 0x13 (Th.opLen a.th) (packB [(0, 32, Th.at_ a.th 23 0 32)]) with
    total := max 1 (ceilDiv (Th.opLen a.th) 4096), pay := .host x.as_ x.va (Th.opLen a.th) x.identity x.ovr, dest := a.reqMark }

section
variable {s : State} {a : Arr} {id : Nat} (hid : id = Th.at_ a.th 19 0 32)
include hid

theorem State.onRvGet_none (h : Tbl.find? s.mch.rvs (id % 2 ^ 15) = none) : s.onRvGet a =
    if Th.at_ a.th 27 0 1 = 1 then s.takeArr a else (s.takeArr a).result a .reply stREMOTE 0x0210 0 := by
  subst hid
  simp only [State.onRvGet, h]

section
variable {x : Rv} (hx : Tbl.find? s.mch.rvs (id % 2 ^ 15) = some x) (hgen : x.gen = id / 2 ^ 15)
  (hidle : ∀ e ∈ s.trn.ops, e.2.origin ≠ .rvData (id % 2 ^ 15) x.gen)
include hx hgen hidle

/-- An RV_GET of the present generation, of an entry whose data is not being sent, abandons the send or begins its data. -/
theorem State.onRvGet_waiting : s.onRvGet a =
    if Th.at_ a.th 27 0 1 = 1 then (s.takeArr a).rvFail (id % 2 ^ 15) x (Res.of stEP_UNAVAILABLE 3)
    else (s.pulls a (id % 2 ^ 15) x).newOp (a.rvDataOp (id % 2 ^ 15) x) := by
  have hgo : ¬ (x.gen ≠ id / 2 ^ 15 ∨ s.trn.ops.any (fun e => e.2.origin == .rvData (id % 2 ^ 15) x.gen) = true) := by
    simpa [hgen] using hidle
  subst hid
  simp only [State.onRvGet, hx]
  rw [if_neg hgo]
  rfl

theorem State.onRvGet_abandons (h : Th.at_ a.th 27 0 1 = 1) :
    s.onRvGet a = (s.takeArr a).rvFail (id % 2 ^ 15) x (Res.of stEP_UNAVAILABLE 3) := by
  rw [State.onRvGet_waiting hid hx hgen hidle, if_pos h]

theorem State.onRvGet_sends (h : Th.at_ a.th 27 0 1 ≠ 1) :
    s.onRvGet a = (s.pulls a (id % 2 ^ 15) x).newOp (a.rvDataOp (id % 2 ^ 15) x) := by
  rw [State.onRvGet_waiting hid hx hgen hidle, if_neg h]

end

end

/-! ### RV_DATA (R350) -/

section
variable {s u : State} {a : Arr} {id : Nat} (hid : id = Th.at_ a.th 19 0 32) (hu : u = (s.takeArr a).rvGot (id % 65536) (id / 65536))
include hid hu

theorem State.onRvData_places {m : MHdr} (hm : u.hdr? (id % 65536) = some m)
    (h : u.hdrGen (id % 65536) = id / 65536 ∧ m.st = .assembling ∧ m.recv.isSome = true) :
    s.onRvData a = u.placeMsg (id % 65536) { m with dataSeen := true } (4096 * Th.index a.th) a.payload := by
  subst hid hu
  simp only [State.onRvData, hm]
  exact if_pos h

theorem State.onRvData_stale (h : u.hdrGen (id % 65536) ≠ id / 65536) : s.onRvData a = u := by
  subst hid hu
  simp only [State.onRvData]
  split
  · exact if_neg fun hnow => h hnow.1
  · rfl

end

/-! ### SKIP (R355) -/

/-- The operation of a SKIP. -/
def State.skipOp (s : State) (k : Skip) : Op :=
  { Op.base k.ctx 0 .skip k.srcEp (k.dst % 65536) 0x14 0 (packB [(0, 16, k.context), (2, 24, k.msn)]) with identity := s.epOwner k.srcEp }

theorem exec_skipSend_owed {s : State} {k : Skip} {c : Ctx} (hk : s.mch.skips.find? (fun k => s.canSkip k) = some k)
    (hmode : s.mode = .service ∨ s.mode = .drain) (hc : (s.needCtx k.ctx false).2 = .have_ c) : exec .skipSend s =
      .next (((s.needCtx k.ctx false).1.onMch (fun m => { m with skips := m.skips.erase k })).newOp (s.skipOp k)) := by
  show execSkipSend s = _
  simp only [execSkipSend, hk, hc]
  exact if_neg fun h => hmode.elim h.1 h.2

theorem exec_skipSend_otherMode {s : State} (h : s.mode ≠ .service ∧ s.mode ≠ .drain) : exec .skipSend s = .next s := by
  show execSkipSend s = _
  unfold execSkipSend
  split
  · rfl
  · exact if_pos h

/-! ### The overflow list (R343, R344) -/

/-- The record of endpoint `ep` in slot `n` has been read and counted, and is off the list. -/
def State.refillRead (s : State) (ep n : Nat) : State :=
  ((s.hostRead (hpOf (s.epOwner ep)) (hpOf (s.epOwner ep) * 256) (s.recAt (hpOf (s.epOwner ep)) n) 64).bump
    Ctr.MCH_OVF_WALK_COUNT).dropOver ep n

theorem exec_overflowRefill_moves {s : State} {ep : Nat} {hm : HostView} {p : Posted} {r : List Posted} {d : Data}
    (hover : s.overOf ep = p :: r) (hroom : s.postRoom (s.epOwner ep) = true) (hlive : s.live = true) (hlane : s.laneHeld ep 0 = false)
    (hread : HostView.read hm (s.recAt (hpOf (s.epOwner ep)) (p.slot.getD 0)) 64 = .data d) : exec (.overflowRefill ep hm) s =
      .next ((s.refillRead ep (p.slot.getD 0)).setPosted ep
        ((s.refillRead ep (p.slot.getD 0)).postedOf ep ++ [{ Posted.ofBytes d p with slot := none }])) := by
  show execOverflowRefill ep hm s = _
  simp only [execOverflowRefill, hover, hread]
  exact if_neg (by simp [hroom, hlive, hlane])

theorem State.ctr_refillRead (s : State) (ep n : Nat) :
    (s.refillRead ep n).ctr Ctr.MCH_OVF_WALK_COUNT = s.ctr Ctr.MCH_OVF_WALK_COUNT + 1 := by
  rw [State.refillRead, State.ctr_of_stays (State.dropOvew_stays ep n (Has.refl _) (Stays.refl _)) (by decide), State.ctr_bump_self,
    State.ctr_of_stays (State.hostRead_stays _ _ _ _ (Has.refl _) (Stays.refl s)) (by decide)]

section
variable {s : State} {i e k : Nat} (h : s.mch.ovfReads[i]? = some (e, k))
include h

/-- A record that has been read was seen, and is counted. -/
theorem State.overflowReturn_data (d : Data) : s.overflowReturn i (.data d) =
    (s.onMch (fun m => { m with ovfReads := m.ovfReads.eraseIdx i, ovfSeen := m.ovfSeen ++ [(k, d.val % 2 ^ 512)] })).bump
      Ctr.MCH_OVF_WALK_COUNT := by
  simp only [State.overflowReturn, h]
  rfl

theorem State.overflowReturn_error (c : Nat) : (s.overflowReturn i (.error c)).mch.ovfBad = s.mch.ovfBad ++ [e] := by
  simp only [State.overflowReturn, h, (State.raise_stays _ _ _ _ _ (Has.refl _) (Stays.refl _)).mch (by decide), State.onMch_mch]

end

/-! ### The wait of a held rendezvous (R356) -/

theorem exec_rvWaitTimeout_over {s : State} {i : Nat} {x : Rv} {w : When} (hx : Tbl.find? s.mch.rvs i = some x) (hheld : x.heldFrom = some w)
    (hlimit : s.g Reg.MCH_RV_CFG.wait_limit ≠ 0) (hover : s.g Reg.MCH_RV_CFG.wait_limit < s.over w)
    (hidle : ∀ e ∈ s.trn.ops, e.2.origin ≠ .rvData i x.gen) :
    exec (.rvWaitTimeout i) s = .next (s.rvFail i x (Res.of stTRANSPORT 5)) := by
  show execRvWaitTimeout i s = _
  simp only [execRvWaitTimeout, hx, hheld]
  exact if_pos ⟨hlimit, hover, by simpa using hidle⟩

/-! ### The statement -/

/-- Settles O45: the entries, then the packets, each by the equations of its outcomes. -/
theorem matching : Obligations.Matching := by
  refine ⟨fun s q v e p => ⟨fun r h hr => ?send, fun i m h hm hlane => exec_msgPost_takes h hlane hm,
      fun h hnone hover hroom hlane => exec_msgPost_posts h hlane hnone (State.postRecv_onChip _ hover hroom),
      fun h hnone hlane => ⟨fun t => exec_msgPost_posts h hlane hnone, exec_msgPost_noRoom h hlane hnone⟩,
      fun t h hlane hf => exec_msgCancel_none h hlane hf, fun t f r h hlane hf hr => exec_msgCancel_found h hlane hf hr,
      fun r u hu c hc => ?cancelled, fun i m h hm hclaim hlane => exec_msgProbe_found h hlane hm hclaim,
      fun i m h hm hclaim hlane => ?claim,
      fun m h hm hst hep hhandle hlane => exec_msgMrecv_claimed h hm hlane ⟨hst, hep, hhandle⟩, exec_msgMrecv_none,
      fun h hroom hquota => ?landing, exec_msgPostLb_full⟩,
    fun s a => ⟨exec_eagerRx_front, exec_rtsRx_front, exec_rvGetRx_front, exec_rvDataRx_front, exec_skipRx_front⟩,
    fun s a b k r hkept hk hr => ⟨State.onMsg_new hkept hk hr b,
      fun i m hm => ⟨State.onMsg_places hkept hk hr b hm, State.onMsg_stray hkept hk hr b hm⟩⟩,
    fun s a id hid => ⟨State.onRvGet_none hid, fun x hx hgen hidle => ⟨State.onRvGet_abandons hid hx hgen hidle, fun hpull =>
      ⟨_, _, _, State.onRvGet_sends hid hx hgen hidle hpull, rfl, rfl, rfl, Tbl.find?_ins_self _ _ _, rfl⟩⟩⟩,
    fun s u a id m hid hu => ⟨fun hm hgen hst hrecv => State.onRvData_places hid hu hm ⟨hgen, hst, hrecv⟩, State.onRvData_stale hid hu⟩,
    fun s k c hk hmode hc => ⟨s.skipOp k, rfl, rfl, rfl, rfl, exec_skipSend_owed hk hmode hc⟩,
    fun s hservice hdrain => exec_skipSend_otherMode ⟨hservice, hdrain⟩,
    fun s ep hm p r d hover hroom hlive hlane hread => ⟨_, _, exec_overflowRefill_moves hover hroom hlive hlane hread, rfl,
      s.ctr_refillRead ep _⟩,
    fun s i r => rfl, fun s i e k h => ⟨fun d => ?seen, State.overflowReturn_error h⟩,
    fun s i x w hx hheld hlimit hover hidle => exec_rvWaitTimeout_over hx hheld hlimit hover hidle⟩
  case send =>
    refine ⟨exec_msgSend_recorded h hr, fun k hk => ?_⟩
    subst hk
    exact ⟨State.msgSend_eager, fun i u => State.msgSend_rendezvous⟩
  case cancelled =>
    subst hu hc
    exact ⟨State.cancelled_written q e, State.cancelled_held q e⟩
  case claim =>
    exact ⟨_, exec_msgProbe_claims h hlane hm hclaim, (State.hdr?_of_mch (State.mch_finishEntry _ _ _ _) i).trans (State.hdr?_setHdr_self s i _)⟩
  case landing =>
    refine ⟨_, Mw.landing v.ep e.raw, exec_msgPostLb_room h hroom hquota, ?_, ?_, rfl, rfl, rfl, rfl, rfl, rfl⟩
    · rw [State.mch_finishEntry]
      rfl
    · rw [State.mch_finishEntry]
      exact Tbl.find?_ins_self _ _ _
  case seen =>
    rw [State.overflowReturn_data h, State.ctr_bump_self]
    exact ⟨rfl, rfl, rfl⟩

end Sys2Proof.Machine
end

section
/-! One step of the machine: the front command runs on the rest of the queue, every command answers a next state, and nothing that was
given out or drawn is taken back. -/
namespace Sys2Proof.Machine

/-- Settles O1. -/
theorem stepRunsTheFrontCommand : Obligations.StepRunsTheFrontCommand := fun _ _ _ h => step_of_cons h

/-- The rest of the queue is what the step moves from, whether a command was taken or none waited. -/
theorem step_moves_tail {s t : State} (h : step s = .next t) : Moves { s with pending := s.pending.tail } t := by
  cases hq : s.pending with
  | nil =>
    have hs : ({ s with pending := [] } : State) = s := by rw [← hq]
    rw [step_of_empty hq] at h
    obtain rfl := Host.Outcome.next.inj h
    rw [List.tail_nil, hs]
    exact s.tick_movesOn.moves
  | cons c q =>
    rw [step_of_cons hq] at h
    exact exec_moves h

/-- Settles O6: the moves from the queue's rest keep the queue, the outputs given and the values drawn. -/
theorem stepTakesOneCommand : Obligations.StepTakesOneCommand := by
  intro s t h
  have hm := step_moves_tail h
  exact ⟨hm.queue, hm.outs, hm.frees⟩

/-! ### Every command goes on -/

/-- The outcome is a next state. -/
def AnswersNext (o : Host.Outcome State Fault Refusal) : Prop := ∃ t, o = .next t

theorem AnswersNext.next (t : State) : AnswersNext (.next t) := ⟨t, rfl⟩

theorem AnswersNext.ite {c : Prop} [Decidable c] {x y : Host.Outcome State Fault Refusal} (hx : AnswersNext x) (hy : AnswersNext y) :
    AnswersNext (if c then x else y) := by
  split
  · exact hx
  · exact hy

/-- Every command: most answer one state outright, or one where their condition holds and the state as it was where it does not; the
rest look something up first, and each branch of that ends in a next state. -/
theorem exec_answersNext (c : Instr) (s : State) : AnswersNext (exec c s) := by
  cases c
  case fullReset | setupLockSet | deviceIdWrite | modeReqWrite | enterFenced | alignCtrlWrite | swapArm | swapDisarm | shadowCopy |
    lifeWrite | epCreate | epDestroy | sqCreate | sqDestroy | cqCreate | fnGroupsWrite | cqOverflow | xltInvAs | xltInvFn | xltInvAll |
    keySet | keyClear | regionSet | regionClear | ctxReset | ctxFlush | keyRevokeComplete | atomicExecute | atomicopCompletion | flAcquire |
    flRelease | flRenew | flBreak | flPollSend | flTakeRx | flPollRx | flReleaseRx | flReleaseAbandonedRx | flRenewRx | flBreakRx | colUpRx
    | treeKeySet | resume | bootMboxGo | orderRecordReadReturn | overflowRecordReadReturn | keyDescriptorReadReturn | targetDataReadReturn |
    cqDestroy | xltInvAddr => exact .next _
  case modeChange | referenceLoss | courseMarkRx | alignStep | aligned | alignLost | copyDone | swapTakeEffect | codewordRx | markerTx |
    markerRx | trainingFrameRx | laneRestart | pllLossOfLock | pllRelock | testEnter | testExit | prbsInjectOne | sequencedBrickRx |
    reservedBrickRx | controlBrickRx | abortBrickRx | initBrickRx | controlBrickTx | phyDown | phyUp | linkReinit | congRowRx | congColRx |
    portRevive | portRoleWrite | epQuarantineEnd | fnCmdUndefined | transportRx | ackRx | colTreeWrite | treeResumeEffect | windowEntryWrite
    | mctpPacketRx | alertPull | i3cIbiRx | sidebandChange | faultForce | faultStatusClear | run | sliceAbort | fuse | mailboxRead |
    mailboxWrite | mailboxMsg | mcStart | mcReset | monitorIdleTimeout | railWithinLimits | sleepMaskWrite => exact .ite (.next _) (.next _)
  all_goals
    simp only [exec, execResetDeassert, execResetNAssert, execFencePeriodEnd, execSleepWake, execTapResponseTimeout,
      execTrainAttemptTimeout, execSignalAbsentTimeout, execLinkInitStart, execInitTimeout, execCongColTx, execPortDead, execFlrComplete,
      execTlbAgeExpiry, execCellTry, execColAbortRx, execColOpTimeout, execFrameLockLost, execPrbsRateInjection, execRomSelfTestDone,
      execRailOutOfLimits, execHostPortReset, execFrameLock, execDataStart, execSignalReturn, execFecInject, execBrickCrcError,
      execKeepaliveTimeout, execEpDestroyComplete, execMailboxRetry, execThermalConversion, execInitBrickTx, execRegisterWrite,
      execShadowWrite, execShadowBusyEnd, execPacketRoute, execEntryRetire, execContextEvict, execAckCoalesceExpiry, execResultRx,
      execRnrResend, execResponseTimeout, execKeyQuarantineEnd, execKeyInvComplete, execPrefetchExpiry, execForcedConsequence,
      execSliceSkip, execFwFetchRetry, execMgReadRx, execMgWriteRx, execMonRbk, execMonFlt, execMonWr, execMonMode, execMonBaud,
      execMonMcrun, execMonLineInvalid, execUnlockLockoutEnd, execLowHalfRead, execDeferredRetest, execOutputSchedule, execSqDoorbell,
      execCqDoorbell, execFlushCompletion, execXltInvComplete, execMsgProbe, execWindowWriteSend, execBar4Read, execLintelRecordRx,
      execMctpSend, execSliceStart, execCourseBoundary, execFenceBrickRx, execEqDoorbell, execFollowBetterRoot, execEqDestroy, execNop,
      execEagerRx, execRtsRx, execRvGetRx, execRvDataRx, execSkipRx, execRmaPut, execRmaPutNotify, execPutRx, execGetRx, execAtomicRx,
      execGetDataRx, execAtomicDataRx, execCellRelease, execCellWithdraw, execFlReplyRx, execReadbackCapture, execMonHelp, execMonId,
      execMonTime, execMonBoot, execMonResp, execMonLock, execFecLockLost, execMarkerLockLost, execMcException, execTapResponse,
      execRxReady, execFlr, execTestComplete, execPerstNDeassert, execPrbsCheckerLock, execBrickTx, execReplayBrickTx,
      execReplayTimerExpiry, execPacketInject, execPageWalk, execXltUnlock, execTransportSend, execAckRateRelease, execRetxTimerExpiry,
      execMsgSend, execMsgPost, execMsgCancel, execMsgPostLb, execSkipSend, execOverflowRefill, execRvWaitTimeout, execKeyReg,
      execKeyRevoke, execKeyInv, execChunkSendUp, execBar4Write, execWindowReadComplete, execWindowReadTimeout, execWindowWriteFail,
      execMgRespRx, execMonRd, execMonUnlock, execDeviceEqDoorbell, execSqDestroyComplete, execEventsLost, execEarlyRetx, execMsgMrecv,
      execRmaAtomic, execColLeave, execMemberChunkRead, execUnitReady, execBootFetchComplete, execFwDataRx, execMonFuse, execMonReset,
      execBootImageReadReturn, execSqRestart, execCqReset, execEqCreate, execWorkFetch, execDescriptorReadReturn, execWalkReadReturn,
      execXltLock, execContextLoad, execRmaGet, execCellAcquire, execColJoin, execGenerationRoll, execCtxErrorExit, execColOp,
      execColDownRx, execFwReqTimeout, execFwReqRx, execMgmtForward, execMgMsgRx]
    repeat' first | with_reducible exact .next _ | with_reducible apply AnswersNext.ite | split

/-- Settles O3. -/
theorem everyCommandGoesOn : Obligations.EveryCommandGoesOn := exec_answersNext

/-! ### What a command writes -/
/-- What keeps the queue writes no part but those that a command may write at all. -/
theorem Moves.stays {s t : State} (h : Moves s t) : Stays Sys2Proof.anything s t := by
  constructor
  case pending => exact fun _ => h.queue
  all_goals exact fun k => absurd (by decide) k

/-- One list of parts lies in another, by looking. -/
theorem Has.of_all {l w : List Sys2Proof.Part} (h : l.all (fun p => decide (p ∈ w)) = true) : Has l w :=
  ⟨fun p hp => of_decide_eq_true (List.all_eq_true.1 h p hp)⟩

/-- Every command writes the parts listed for it: of one that may write anything it is enough that the queue is as it was, and of every
other the law of its meaning says which parts it writes. -/
theorem exec_stays (c : Instr) (s : State) : OutStays (Sys2Proof.writes c) s (exec c s) := by
  have hk : ∀ w, Stays w s s := fun _ => Stays.refl s
  cases c
  case resetDeassert | resetNAssert | railOutOfLimits | fullReset | registerWrite | setupLockSet | deviceIdWrite | modeReqWrite | modeChange | enterFenced | courseBoundary | alignCtrlWrite | swapArm | swapDisarm | shadowCopy | shadowWrite | portRoleWrite | lifeWrite | keySet | keyClear | regionSet | regionClear | ctxReset | ctxFlush | colTreeWrite | treeKeySet | resume | windowEntryWrite | faultForce | faultStatusClear | bootFetchComplete | mgReadRx | mgWriteRx | readbackCapture | monWr | monMode | monReset => exact ⟨fun _ h => (exec_moves h).stays⟩
  case romSelfTestDone => exact execRomSelfTestDone_stays _ (.of_all rfl) (hk _)
  case hostPortReset => exact execHostPortReset_stays _ _ (.of_all rfl) (hk _)
  case lowHalfRead => exact execLowHalfRead_stays _ _ _ (.of_all rfl) (hk _)
  case fencePeriodEnd => exact execFencePeriodEnd_stays (.of_all rfl) (hk _)
  case referenceLoss => exact execReferenceLoss_stays (.of_all rfl) (hk _)
  case courseMarkRx => exact execCourseMarkRx_stays _ _ (.of_all rfl) (hk _)
  case followBetterRoot => exact execFollowBetterRoot_stays (.of_all rfl) (hk _)
  case alignStep => exact execAlignStep_stays (.of_all rfl) (hk _)
  case aligned => exact execAligned_stays (.of_all rfl) (hk _)
  case alignLost => exact execAlignLost_stays (.of_all rfl) (hk _)
  case copyDone => exact execCopyDone_stays (.of_all rfl) (hk _)
  case swapTakeEffect => exact execSwapTakeEffect_stays (.of_all rfl) (hk _)
  case shadowBusyEnd => exact execShadowBusyEnd_stays (.of_all rfl) (hk _)
  case codewordRx => exact execCodewordRx_stays _ _ _ (.of_all rfl) (hk _)
  case fecLockLost => exact execFecLockLost_stays _ (.of_all rfl) (hk _)
  case markerTx => exact execMarkerTx_stays _ (.of_all rfl) (hk _)
  case markerRx => exact execMarkerRx_stays _ _ (.of_all rfl) (hk _)
  case markerLockLost => exact execMarkerLockLost_stays _ (.of_all rfl) (hk _)
  case sleepWake => exact execSleepWake_stays _ _ (.of_all rfl) (hk _)
  case trainingFrameRx => exact execTrainingFrameRx_stays _ _ _ (.of_all rfl) (hk _)
  case frameLock => exact execFrameLock_stays _ (.of_all rfl) (hk _)
  case tapResponse => exact execTapResponse_stays _ (.of_all rfl) (hk _)
  case tapResponseTimeout => exact execTapResponseTimeout_stays _ (.of_all rfl) (hk _)
  case rxReady => exact execRxReady_stays _ _ _ (.of_all rfl) (hk _)
  case dataStart => exact execDataStart_stays _ (.of_all rfl) (hk _)
  case trainAttemptTimeout => exact execTrainAttemptTimeout_stays _ (.of_all rfl) (hk _)
  case signalAbsentTimeout => exact execSignalAbsentTimeout_stays _ (.of_all rfl) (hk _)
  case signalReturn => exact execSignalReturn_stays _ (.of_all rfl) (hk _)
  case laneRestart => exact execLaneRestart_stays _ (.of_all rfl) (hk _)
  case pllLossOfLock => exact execPllLossOfLock_stays _ (.of_all rfl) (hk _)
  case pllRelock => exact execPllRelock_stays _ (.of_all rfl) (hk _)
  case testEnter => exact execTestEntew_stays _ _ (.of_all rfl) (hk _)
  case testExit => exact execTestExit_stays _ _ (.of_all rfl) (hk _)
  case prbsInjectOne => exact execPrbsInjectOne_stays _ (.of_all rfl) (hk _)
  case prbsCheckerLock => exact execPrbsCheckerLock_stays _ _ _ _ _ (.of_all rfl) (hk _)
  case fecInject => exact execFecInject_stays _ (.of_all rfl) (hk _)
  case sequencedBrickRx => exact execSequencedBrickRx_stays _ _ _ _ _ (.of_all rfl) (hk _)
  case brickCrcError => exact execBrickCrcErrow_stays _ (.of_all rfl) (hk _)
  case reservedBrickRx => exact execReservedBrickRx_stays _ (.of_all rfl) (hk _)
  case controlBrickRx => exact execControlBrickRx_stays _ _ _ _ (.of_all rfl) (hk _)
  case abortBrickRx => exact execAbortBrickRx_stays _ _ _ _ (.of_all rfl) (hk _)
  case fenceBrickRx => exact execFenceBrickRx_stays _ (.of_all rfl) (hk _)
  case initBrickRx => exact execInitBrickRx_stays _ _ (.of_all rfl) (hk _)
  case brickTx => exact execBrickTx_stays _ (.of_all rfl) (hk _)
  case controlBrickTx => exact execControlBrickTx_stays _ (.of_all rfl) (hk _)
  case replayBrickTx => exact execReplayBrickTx_stays _ (.of_all rfl) (hk _)
  case replayTimerExpiry => exact execReplayTimerExpiry_stays _ (.of_all rfl) (hk _)
  case linkInitStart => exact execLinkInitStart_stays _ (.of_all rfl) (hk _)
  case initTimeout => exact execInitTimeout_stays _ (.of_all rfl) (hk _)
  case keepaliveTimeout => exact execKeepaliveTimeout_stays _ (.of_all rfl) (hk _)
  case phyDown => exact execPhyDown_stays _ (.of_all rfl) (hk _)
  case phyUp => exact execPhyUp_stays _ (.of_all rfl) (hk _)
  case linkReinit => exact execLinkReinit_stays _ (.of_all rfl) (hk _)
  case packetRoute => exact execPacketRoute_stays _ (.of_all rfl) (hk _)
  case congRowRx => exact execCongRowRx_stays _ (.of_all rfl) (hk _)
  case congColRx => exact execCongColRx_stays _ (.of_all rfl) (hk _)
  case congColTx => exact execCongColTx_stays (.of_all rfl) (hk _)
  case portDead => exact execPortDead_stays _ (.of_all rfl) (hk _)
  case portRevive => exact execPortRevive_stays _ (.of_all rfl) (hk _)
  case packetInject => exact execPacketInject_stays _ (.of_all rfl) (hk _)
  case deferredRetest => exact execDeferredRetest_stays (.of_all rfl) (hk _)
  case outputSchedule => exact execOutputSchedule_stays _ (.of_all rfl) (hk _)
  case sqDoorbell => exact execSqDoorbell_stays _ _ _ _ (.of_all rfl) (hk _)
  case cqDoorbell => exact execCqDoorbell_stays _ _ _ _ (.of_all rfl) (hk _)
  case eqDoorbell => exact execEqDoorbell_stays _ _ _ _ (.of_all rfl) (hk _)
  case deviceEqDoorbell => exact execDeviceEqDoorbell_stays _ _ _ (.of_all rfl) (hk _)
  case epCreate => exact execEpCreate_stays _ (.of_all rfl) (hk _)
  case epDestroy => exact execEpDestroy_stays _ (.of_all rfl) (hk _)
  case epDestroyComplete => exact execEpDestroyComplete_stays _ (.of_all rfl) (hk _)
  case epQuarantineEnd => exact execEpQuarantineEnd_stays _ (.of_all rfl) (hk _)
  case sqCreate => exact execSqCreate_stays _ (.of_all rfl) (hk _)
  case sqDestroy => exact execSqDestroy_stays _ (.of_all rfl) (hk _)
  case sqDestroyComplete => exact execSqDestroyComplete_stays _ (.of_all rfl) (hk _)
  case sqRestart => exact execSqRestart_stays _ (.of_all rfl) (hk _)
  case cqCreate => exact execCqCreate_stays _ (.of_all rfl) (hk _)
  case cqDestroy => exact execCqDestroy_stays _ (.of_all rfl) (hk _)
  case cqReset => exact execCqReset_stays _ (.of_all rfl) (hk _)
  case eqCreate => exact execEqCreate_stays _ (.of_all rfl) (hk _)
  case eqDestroy => exact execEqDestroy_stays _ (.of_all rfl) (hk _)
  case fnCmdUndefined => exact execFnCmdUndefined_stays _ _ (.of_all rfl) (hk _)
  case fnGroupsWrite => exact execFnGroupsWrite_stays _ _ _ (.of_all rfl) (hk _)
  case flr => exact execFlw_stays _ (.of_all rfl) (hk _)
  case flrComplete => exact execFlrComplete_stays _ (.of_all rfl) (hk _)
  case workFetch => exact execWorkFetch_stays (.of_all rfl) (hk _)
  case descriptorReadReturn => exact execDescriptorReadReturn_stays _ _ (.of_all rfl) (hk _)
  case nop => exact execNop_stays _ (.of_all rfl) (hk _)
  case entryRetire => exact execEntryRetire_stays _ (.of_all rfl) (hk _)
  case flushCompletion => exact execFlushCompletion_stays _ (.of_all rfl) (hk _)
  case cqOverflow => exact execCqOverflow_stays _ (.of_all rfl) (hk _)
  case eventsLost => exact execEventsLost_stays _ (.of_all rfl) (hk _)
  case pageWalk => exact execPageWalk_stays _ (.of_all rfl) (hk _)
  case walkReadReturn => exact execWalkReadReturn_stays _ _ _ (.of_all rfl) (hk _)
  case tlbAgeExpiry => exact execTlbAgeExpiry_stays _ (.of_all rfl) (hk _)
  case xltInvAddr => exact execXltInvAddw_stays _ (.of_all rfl) (hk _)
  case xltInvAs => exact execXltInvAs_stays _ (.of_all rfl) (hk _)
  case xltInvFn => exact execXltInvFn_stays _ (.of_all rfl) (hk _)
  case xltInvAll => exact execXltInvAll_stays _ (.of_all rfl) (hk _)
  case xltInvComplete => exact execXltInvComplete_stays _ (.of_all rfl) (hk _)
  case xltLock => exact execXltLock_stays _ (.of_all rfl) (hk _)
  case xltUnlock => exact execXltUnlock_stays _ (.of_all rfl) (hk _)
  case contextLoad => exact execContextLoad_stays _ _ (.of_all rfl) (hk _)
  case contextEvict => exact execContextEvict_stays _ (.of_all rfl) (hk _)
  case transportSend => exact execTransportSend_stays _ _ (.of_all rfl) (hk _)
  case transportRx => exact execTransportRx_stays _ (.of_all rfl) (hk _)
  case ackCoalesceExpiry => exact execAckCoalesceExpiry_stays _ _ (.of_all rfl) (hk _)
  case ackRateRelease => exact execAckRateRelease_stays _ _ (.of_all rfl) (hk _)
  case ackRx => exact execAckRx_stays _ (.of_all rfl) (hk _)
  case resultRx => exact execResultRx_stays (.of_all rfl) (hk _)
  case retxTimerExpiry => exact execRetxTimerExpiry_stays _ _ (.of_all rfl) (hk _)
  case earlyRetx => exact execEarlyRetx_stays _ _ (.of_all rfl) (hk _)
  case generationRoll => exact execGenerationRoll_stays _ (.of_all rfl) (hk _)
  case ctxErrorExit => exact execCtxErrorExit_stays _ (.of_all rfl) (hk _)
  case rnrResend => exact execRnrResend_stays _ (.of_all rfl) (hk _)
  case responseTimeout => exact execResponseTimeout_stays _ (.of_all rfl) (hk _)
  case msgSend => exact execMsgSend_stays _ (.of_all rfl) (hk _)
  case msgPost => exact execMsgPost_stays _ (.of_all rfl) (hk _)
  case msgCancel => exact execMsgCancel_stays _ (.of_all rfl) (hk _)
  case msgProbe => exact execMsgProbe_stays _ (.of_all rfl) (hk _)
  case msgMrecv => exact execMsgMrecv_stays _ (.of_all rfl) (hk _)
  case msgPostLb => exact execMsgPostLb_stays _ (.of_all rfl) (hk _)
  case eagerRx => exact execEagerRx_stays (.of_all rfl) (hk _)
  case rtsRx => exact execRtsRx_stays (.of_all rfl) (hk _)
  case rvGetRx => exact execRvGetRx_stays (.of_all rfl) (hk _)
  case rvDataRx => exact execRvDataRx_stays (.of_all rfl) (hk _)
  case skipRx => exact execSkipRx_stays (.of_all rfl) (hk _)
  case skipSend => exact execSkipSend_stays (.of_all rfl) (hk _)
  case overflowRefill => exact execOverflowRefill_stays _ _ (.of_all rfl) (hk _)
  case rvWaitTimeout => exact execRvWaitTimeout_stays _ (.of_all rfl) (hk _)
  case rmaPut => exact execRmaPut_stays _ (.of_all rfl) (hk _)
  case rmaGet => exact execRmaGet_stays _ (.of_all rfl) (hk _)
  case rmaPutNotify => exact execRmaPutNotify_stays _ (.of_all rfl) (hk _)
  case rmaAtomic => exact execRmaAtomic_stays _ (.of_all rfl) (hk _)
  case keyReg => exact execKeyReg_stays _ (.of_all rfl) (hk _)
  case keyRevoke => exact execKeyRevoke_stays _ (.of_all rfl) (hk _)
  case keyRevokeComplete => exact execKeyRevokeComplete_stays _ (.of_all rfl) (hk _)
  case keyQuarantineEnd => exact execKeyQuarantineEnd_stays _ (.of_all rfl) (hk _)
  case keyInv => exact execKeyInv_stays _ (.of_all rfl) (hk _)
  case keyInvComplete => exact execKeyInvComplete_stays _ (.of_all rfl) (hk _)
  case putRx => exact execPutRx_stays (.of_all rfl) (hk _)
  case getRx => exact execGetRx_stays (.of_all rfl) (hk _)
  case atomicRx => exact execAtomicRx_stays (.of_all rfl) (hk _)
  case atomicExecute => exact execAtomicExecute_stays _ (.of_all rfl) (hk _)
  case atomicopCompletion => exact execAtomicopCompletion_stays _ _ (.of_all rfl) (hk _)
  case getDataRx => exact execGetDataRx_stays (.of_all rfl) (hk _)
  case atomicDataRx => exact execAtomicDataRx_stays (.of_all rfl) (hk _)
  case cellAcquire => exact execCellAcquire_stays _ (.of_all rfl) (hk _)
  case cellTry => exact execCellTry_stays _ (.of_all rfl) (hk _)
  case cellRelease => exact execCellRelease_stays _ (.of_all rfl) (hk _)
  case cellWithdraw => exact execCellWithdraw_stays _ (.of_all rfl) (hk _)
  case flAcquire => exact execFlAcquire_stays _ (.of_all rfl) (hk _)
  case flRelease => exact execFlRelease_stays _ (.of_all rfl) (hk _)
  case flRenew => exact execFlRenew_stays _ (.of_all rfl) (hk _)
  case flBreak => exact execFlBreak_stays _ (.of_all rfl) (hk _)
  case flPollSend => exact execFlPollSend_stays _ (.of_all rfl) (hk _)
  case flTakeRx => exact execFlTakeRx_stays _ (.of_all rfl) (hk _)
  case flPollRx => exact execFlPollRx_stays _ (.of_all rfl) (hk _)
  case flReleaseRx => exact execFlReleaseRx_stays _ (.of_all rfl) (hk _)
  case flReleaseAbandonedRx => exact execFlReleaseAbandonedRx_stays _ (.of_all rfl) (hk _)
  case flRenewRx => exact execFlRenewRx_stays _ (.of_all rfl) (hk _)
  case flBreakRx => exact execFlBreakRx_stays _ (.of_all rfl) (hk _)
  case flReplyRx => exact execFlReplyRx_stays (.of_all rfl) (hk _)
  case colJoin => exact execColJoin_stays _ (.of_all rfl) (hk _)
  case colLeave => exact execColLeave_stays _ (.of_all rfl) (hk _)
  case colOp => exact execColOp_stays _ (.of_all rfl) (hk _)
  case memberChunkRead => exact execMemberChunkRead_stays _ _ _ (.of_all rfl) (hk _)
  case colUpRx => exact execColUpRx_stays (.of_all rfl) (hk _)
  case chunkSendUp => exact execChunkSendUp_stays _ (.of_all rfl) (hk _)
  case colDownRx => exact execColDownRx_stays (.of_all rfl) (hk _)
  case colAbortRx => exact execColAbortRx_stays (.of_all rfl) (hk _)
  case colOpTimeout => exact execColOpTimeout_stays _ (.of_all rfl) (hk _)
  case treeResumeEffect => exact execTreeResumeEffect_stays _ (.of_all rfl) (hk _)
  case bar4Write => exact execBar4Write_stays _ _ _ _ (.of_all rfl) (hk _)
  case windowWriteSend => exact execWindowWriteSend_stays _ (.of_all rfl) (hk _)
  case bar4Read => exact execBar4Read_stays _ _ _ _ _ (.of_all rfl) (hk _)
  case windowReadComplete => exact execWindowReadComplete_stays _ (.of_all rfl) (hk _)
  case windowReadTimeout => exact execWindowReadTimeout_stays _ (.of_all rfl) (hk _)
  case windowWriteFail => exact execWindowWriteFail_stays _ (.of_all rfl) (hk _)
  case prefetchExpiry => exact execPrefetchExpiry_stays _ (.of_all rfl) (hk _)
  case mctpPacketRx => exact execMctpPacketRx_stays _ _ _ (.of_all rfl) (hk _)
  case lintelRecordRx => exact execLintelRecordRx_stays (.of_all rfl) (hk _)
  case mctpSend => exact execMctpSend_stays _ _ (.of_all rfl) (hk _)
  case alertPull => exact execAlertPull_stays _ _ _ (.of_all rfl) (hk _)
  case i3cIbiRx => exact execI3cIbiRx_stays _ _ _ _ (.of_all rfl) (hk _)
  case sidebandChange => exact execSidebandChange_stays _ (.of_all rfl) (hk _)
  case forcedConsequence => exact execForcedConsequence_stays _ _ (.of_all rfl) (hk _)
  case sliceStart => exact execSliceStart_stays (.of_all rfl) (hk _)
  case run => exact execRun_stays _ _ _ (.of_all rfl) (hk _)
  case unitReady => exact execUnitReady_stays (.of_all rfl) (hk _)
  case sliceSkip => exact execSliceSkip_stays (.of_all rfl) (hk _)
  case testComplete => exact execTestComplete_stays _ _ (.of_all rfl) (hk _)
  case sliceAbort => exact execSliceAbort_stays (.of_all rfl) (hk _)
  case fuse => exact execFuse_stays _ _ _ (.of_all rfl) (hk _)
  case bootMboxGo => exact execBootMboxGo_stays _ (.of_all rfl) (hk _)
  case fwReqTimeout => exact execFwReqTimeout_stays _ (.of_all rfl) (hk _)
  case fwFetchRetry => exact execFwFetchRetry_stays _ (.of_all rfl) (hk _)
  case fwDataRx => exact execFwDataRx_stays (.of_all rfl) (hk _)
  case fwReqRx => exact execFwReqRx_stays (.of_all rfl) (hk _)
  case mgmtForward => exact execMgmtForward_stays (.of_all rfl) (hk _)
  case mgMsgRx => exact execMgMsgRx_stays (.of_all rfl) (hk _)
  case mgRespRx => exact execMgRespRx_stays (.of_all rfl) (hk _)
  case mailboxRead => exact execMailboxRead_stays _ _ (.of_all rfl) (hk _)
  case mailboxWrite => exact execMailboxWrite_stays _ _ (.of_all rfl) (hk _)
  case mailboxMsg => exact execMailboxMsg_stays _ _ (.of_all rfl) (hk _)
  case mailboxRetry => exact execMailboxRetry_stays _ (.of_all rfl) (hk _)
  case mcStart => exact execMcStart_stays _ _ (.of_all rfl) (hk _)
  case mcReset => exact execMcReset_stays _ _ (.of_all rfl) (hk _)
  case mcException => exact execMcException_stays _ (.of_all rfl) (hk _)
  case monHelp => exact execMonHelp_stays _ (.of_all rfl) (hk _)
  case monId => exact execMonId_stays _ (.of_all rfl) (hk _)
  case monRd => exact execMonRd_stays _ (.of_all rfl) (hk _)
  case monRbk => exact execMonRbk_stays _ (.of_all rfl) (hk _)
  case monFlt => exact execMonFlt_stays _ (.of_all rfl) (hk _)
  case monTime => exact execMonTime_stays _ (.of_all rfl) (hk _)
  case monBoot => exact execMonBoot_stays _ (.of_all rfl) (hk _)
  case monUnlock => exact execMonUnlock_stays _ (.of_all rfl) (hk _)
  case monResp => exact execMonResp_stays _ (.of_all rfl) (hk _)
  case monLock => exact execMonLock_stays _ (.of_all rfl) (hk _)
  case monBaud => exact execMonBaud_stays _ (.of_all rfl) (hk _)
  case monMcrun => exact execMonMcrun_stays _ (.of_all rfl) (hk _)
  case monFuse => exact execMonFuse_stays _ _ (.of_all rfl) (hk _)
  case monLineInvalid => exact execMonLineInvalid_stays _ (.of_all rfl) (hk _)
  case monitorIdleTimeout => exact execMonitorIdleTimeout_stays (.of_all rfl) (hk _)
  case unlockLockoutEnd => exact execUnlockLockoutEnd_stays (.of_all rfl) (hk _)
  case thermalConversion => exact execThermalConversion_stays _ _ (.of_all rfl) (hk _)
  case railWithinLimits => exact execRailWithinLimits_stays _ (.of_all rfl) (hk _)
  case perstNDeassert => exact execPerstNDeassert_stays _ _ _ (.of_all rfl) (hk _)
  case frameLockLost => exact execFrameLockLost_stays _ (.of_all rfl) (hk _)
  case initBrickTx => exact execInitBrickTx_stays _ (.of_all rfl) (hk _)
  case sleepMaskWrite => exact execSleepMaskWrite_stays _ _ (.of_all rfl) (hk _)
  case orderRecordReadReturn => exact execOrderRecordReadReturn_stays _ _ (.of_all rfl) (hk _)
  case overflowRecordReadReturn => exact execOverflowRecordReadReturn_stays _ _ (.of_all rfl) (hk _)
  case keyDescriptorReadReturn => exact execKeyDescriptorReadReturn_stays _ _ (.of_all rfl) (hk _)
  case targetDataReadReturn => exact execTargetDataReadReturn_stays _ _ (.of_all rfl) (hk _)
  case bootImageReadReturn => exact execBootImageReadReturn_stays _ (.of_all rfl) (hk _)
  case prbsRateInjection => exact execPrbsRateInjection_stays _ (.of_all rfl) (hk _)

/-- Settles O58. -/
theorem commandsWriteOnly : Obligations.CommandsWriteOnly := fun c s t h => (exec_stays c s).out t h

end Sys2Proof.Machine
end

section
/-! The set-up lock, the device's identifier and GLB_RESET_CTRL (R10, R39, R54, R524, R525): what the write of each does. -/
namespace Sys2Proof.Machine

/-- A field of the low 32 bits of a value is the field of the value. -/
theorem bits_bits_word {v l w : Nat} (h : l + w ≤ 32) : bits (bits v 0 32) l w = bits v l w :=
  bits_ext fun i hi => by simp [show l + i < 32 by omega]

/-! ### GLB_SETUP_LOCK -/

/-- GLB_SETUP_LOCK in the register map. -/
def glbSetupLock : RegDef := ⟨.GLB_SETUP_LOCK, 0x1c, 1, 0x4000000, 1, 0x4000000, 1, [⟨0, 0, 1, .W1S, 0⟩]⟩

theorem locPf_glbSetupLock : locPf Reg.GLB_SETUP_LOCK.off = .reg glbSetupLock 0 0 0 := by decide

theorem exec_setupLockSet {s : State} {req : Requester} (h : Sys2Proof.mayConfigure s req Reg.GLB_SETUP_LOCK.off) :
    exec (.setupLockSet req) s = .next ({ s with glb := { s.glb with lock := true } } : State).settle := by
  have hset : (s.glb.lock || bit (bits 1 0 32) 0) = true := by simp [bits, bit]
  show Host.Outcome.next (s.access req Reg.GLB_SETUP_LOCK.off 1) = _
  rw [State.access_plain h locPf_glbSetupLock (by decide) rfl rfl, State.lockCheck_unlockable _ _ _ (by decide)]
  simp only [State.regWrite, glbSetupLock, hset]

/-! ### GLB_DEVICE_ID -/

/-- GLB_DEVICE_ID in the register map: its field is under the set-up lock. -/
def glbDeviceId : RegDef := ⟨.GLB_DEVICE_ID, 0x20, 1, 0x4000000, 1, 0x4000000, 1, [⟨0, 0, 20, .RWL, 1048575⟩]⟩

theorem locPf_glbDeviceId : locPf Reg.GLB_DEVICE_ID.off = .reg glbDeviceId 0 0 0 := by decide

/-- R10: the lock is asked about a write that would give the device another identifier. -/
theorem State.lockCheck_deviceId (s : State) (v : Nat) :
    s.lockCheck glbDeviceId 0 (s.word Reg.GLB_DEVICE_ID.off) (bits v 0 32) = s.lockedNote (s.me != v % 2 ^ 20) := by
  have hv : bits (bits v 0 32) 0 20 = v % 2 ^ 20 := by rw [bits_bits_word (by decide), bits, Nat.shiftRight_zero]
  have hc : glbDeviceId.changesRwl 0 (s.word Reg.GLB_DEVICE_ID.off) (bits v 0 32) = (s.me != v % 2 ^ 20) := by
    simp only [RegDef.changesRwl, glbDeviceId, List.any_cons, List.any_nil, hv]
    simp [State.me, State.g, Reg.GLB_DEVICE_ID.device_id]
  rw [State.lockCheck, hc]

theorem exec_deviceIdWrite {s : State} {req : Requester} (v : Nat) (h : Sys2Proof.mayConfigure s req Reg.GLB_DEVICE_ID.off) :
    exec (.deviceIdWrite req v) s = .next ((s.lockedNote (s.me != v % 2 ^ 20)).deviceIdWrite (bits v 0 32)).settle := by
  show Host.Outcome.next (s.access req Reg.GLB_DEVICE_ID.off v) = _
  rw [State.access_plain h locPf_glbDeviceId (by decide) rfl rfl, State.lockCheck_deviceId]
  rfl

theorem State.lockedNote_open {s : State} (b : Bool) (h : s.rwlOpen = true) : s.lockedNote b = s := if_neg (by simp [h])

theorem State.deviceIdWrite_held {s : State} (v : Nat) (h : s.rwlOpen = false) : s.deviceIdWrite v = s := if_pos (by simp [h])

theorem State.deviceIdWrite_reserved {s : State} {v : Nat} (hopen : s.rwlOpen = true) (hv : bits v 18 2 ≠ 0) :
    s.deviceIdWrite (bits v 0 32) = s.badAccess := by
  rw [State.deviceIdWrite, if_neg (by simp [hopen]), if_pos (by rwa [bits_bits_word (by decide)])]

/-- R39, R54: the identifier is taken, and a root names it. -/
theorem State.deviceIdWrite_takes {s : State} {v : Nat} (hopen : s.rwlOpen = true) (hv : bits v 18 2 = 0) :
    (s.deviceIdWrite (bits v 0 32)).me = v % 2 ^ 20 ∧ (s.isRoot = true → (s.deviceIdWrite (bits v 0 32)).crs.rootId = v % 2 ^ 20) := by
  have hid : bits (bits v 0 32) 0 20 = v % 2 ^ 20 := by rw [bits_bits_word (by decide), bits, Nat.shiftRight_zero]
  have hme : (s.put Reg.GLB_DEVICE_ID.device_id (v % 2 ^ 20)).me = v % 2 ^ 20 := by
    rw [State.me, State.g_put_self _ _ (by decide)]
    exact Nat.mod_mod _ _
  have hroot : (s.put Reg.GLB_DEVICE_ID.device_id (v % 2 ^ 20)).isRoot = s.isRoot := by
    rw [State.isRoot, State.isRoot, State.g_put_other _ _ (by decide) (by decide)]
  rw [State.deviceIdWrite, if_neg (by simp [hopen]), if_neg (by rw [bits_bits_word (by decide), hv]; decide), hid]
  extract_lets t
  constructor
  · split
    · exact hme
    · exact hme
  · intro hr
    rw [if_pos (hroot.trans hr)]

/-- R10: the note that a write was held leaves the lock as it was. -/
theorem State.rwlOpen_lockedNote {s : State} (b : Bool) (h : s.rwlOpen = false) : (s.lockedNote b).rwlOpen = false := by
  have hk : Keeps False s (s.lockedNote b) := State.lockedNote_keeps b (Keeps.refl s)
  obtain ⟨hlock, hdrain⟩ : s.glb.lock = true ∧ s.mode ≠ .drain := by simpa [State.rwlOpen] using h
  simp [State.rwlOpen, hk.lock_of hlock, hk.mode_eq, hdrain]

/-- Settles O16: the write of each register, and of GLB_DEVICE_ID as the lock stands. -/
theorem setupAndIdentity : Obligations.SetupAndIdentity := by
  refine ⟨fun s req h => exec_setupLockSet h, fun s req v h hopen hv => ?reserved, fun s req v h hopen hv => ?taken,
    fun s req v h hheld => ?held⟩
  case reserved => rw [exec_deviceIdWrite v h, State.lockedNote_open _ hopen, State.deviceIdWrite_reserved hopen hv]
  case taken => exact ⟨_, by rw [exec_deviceIdWrite v h, State.lockedNote_open _ hopen], State.deviceIdWrite_takes hopen hv⟩
  case held =>
    rw [exec_deviceIdWrite v h, State.deviceIdWrite_held _ (State.rwlOpen_lockedNote _ hheld)]
    by_cases hsame : v % 2 ^ 20 = s.me
    · rw [if_pos hsame, hsame, State.lockedNote, if_neg (by simp)]
    · rw [if_neg hsame, State.lockedNote_held hheld (by simpa using Ne.symm hsame)]

end Sys2Proof.Machine
end

section
/-! Resets and sensors (R487, R495, R524, R529, R539, R547): the full reset, the reset and the return of a host port, the end of the ROM
self-test, and what a sensor's conversion leaves of GLB. -/
namespace Sys2Proof.Machine

/-! ### Full reset (R524) -/

/-- GLB_RESET_CTRL in the register map. -/
def glbResetCtrl : RegDef := ⟨.GLB_RESET_CTRL, 0x18, 1, 0x4000000, 1, 0x4000000, 1, [⟨0, 16, 16, .WO, 0⟩, ⟨0, 0, 1, .WO, 0⟩]⟩

theorem locPf_glbResetCtrl : locPf Reg.GLB_RESET_CTRL.off = .reg glbResetCtrl 0 0 0 := by decide

theorem vfOf_privileged {req : Requester} (h : req.privileged = true) : vfOf req = none := by
  cases req <;> simp_all [vfOf, Requester.privileged, isPf]

/-- R36, R550: the one register that takes a write in FENCED lies in the offsets that STRAP hides from nobody. -/
theorem State.barWrite_resetCtrl {s : State} {req : Requester} (v : Nat) (hp : req.privileged = true) :
    s.barWrite req Reg.GLB_RESET_CTRL.off 4 v = s.resetCtrl (bits v 0 32) := by
  have hvf := vfOf_privileged hp
  have hoff : bar0Off req Reg.GLB_RESET_CTRL.off = Reg.GLB_RESET_CTRL.off := by simp only [bar0Off, hvf]
  have hshown : s.strapHidden req Reg.GLB_RESET_CTRL.off = false := by simp [State.strapHidden, Reg.GLB_RESET_CTRL.off]
  have hloc : s.loc req Reg.GLB_RESET_CTRL.off = .reg glbResetCtrl 0 0 0 := by
    simp only [State.loc, hshown, hvf]
    exact locPf_glbResetCtrl
  have hmay : State.mayWrite req glbResetCtrl 0 = true := hp
  have hunit : s.absentUnit glbResetCtrl 0 = false := rfl
  simp only [State.barWrite, hoff]
  rw [if_neg (by simp [State.accessOk, Reg.GLB_RESET_CTRL.off]), if_neg (by simp [hvf]), if_neg (by decide), hloc]
  simp only [State.locWrite]
  rw [if_pos (by simp [hmay, hunit]), State.lockCheck_unlockable _ _ _ (by decide)]
  rfl

theorem exec_fullReset {s : State} {req : Requester} (v : Nat) (ha : s.canAccess req = true) (hp : req.privileged = true) :
    exec (.fullReset req v) s = .next (s.resetCtrl (bits v 0 32)).settle := by
  show Host.Outcome.next (s.access req Reg.GLB_RESET_CTRL.off v) = _
  rw [State.access, if_pos ha, State.barWrite_resetCtrl v hp]

theorem State.resetCtrl_eq (s : State) (v : Nat) : s.resetCtrl (bits v 0 32) =
    if bits v 16 16 = 0xD1E5 ∧ bit v 0 = true ∧ s.liveBit 3 = false then s.fullReset else s.badAccess := by
  have hbit : bit (bits v 0 32) 0 = bit v 0 := by simp only [bit, testBit_bits]; rfl
  simp [State.resetCtrl, bits_bits_word (v := v) (l := 16) (w := 16) (by decide), hbit]

theorem State.settle_mode (s : State) : s.settle.mode = s.mode := (State.settle_stays (Has.refl _) (Stays.refl s)).mode (by decide)

theorem State.fullReset_mode (s : State) : s.fullReset.mode = if s.glb.resetN ∧ s.railsGood then .strap else .off := by
  have hpins : (s.enterOff.glb.resetN ∧ s.enterOff.railsGood) = (s.glb.resetN ∧ s.railsGood) := rfl
  simp only [State.fullReset, hpins]
  split
  · exact State.enterStrap_mode _
  · rfl

/-! ### Host ports (R529, R539) -/

/-- R529: PERST_N of a host port has gone low. -/
def State.perstLow (s : State) (h : Nat) : State := { s with glb := { s.glb with perstN := s.glb.perstN.set h false } }

/-- R529: the link of a host port is down. -/
def State.portLinkDown (s : State) (h : Nat) : State := { s with glb := { s.glb with hpStatus := Tbl.del s.glb.hpStatus h } }

/-- R529: what the reset of a host port answers, its pin being as it is now. -/
def portResetFrom (h : Nat) (mode : Mode) (t : State) : Host.Outcome State Fault Refusal :=
  if t.hpPresent h ∧ mode ≠ .off then .next ((t.hostPortReset h).portLinkDown h) else .next t

theorem execHostPortReset_eq (h : Nat) (perst : Bool) (s : State) :
    execHostPortReset h perst s = portResetFrom h s.mode (if h < 4 ∧ perst then s.perstLow h else s) := by
  unfold execHostPortReset portResetFrom State.portLinkDown State.perstLow
  with_reducible rfl

theorem exec_hostPortReset_hot (s : State) (h : Nat) : exec (.hostPortReset h false) s = portResetFrom h s.mode s := by
  show execHostPortReset h false s = _
  rw [execHostPortReset_eq, if_neg (by simp)]

theorem exec_hostPortReset_perst {s : State} {h : Nat} (hh : h < 4) :
    exec (.hostPortReset h true) s = exec (.hostPortReset h false) (s.perstLow h) := by
  rw [exec_hostPortReset_hot]
  show execHostPortReset h true s = _
  rw [execHostPortReset_eq, if_pos ⟨hh, rfl⟩]
  exact congrArg (fun m => portResetFrom h m (s.perstLow h)) rfl

/-- Many values listed at keys that rise with their number. -/
theorem Tbl.get_foldl_put_range {α : Type} [DecidableEq α] (d : Nat → α) (val : Nat → α) (k n : Nat) (t : Tbl α) {i : Nat} (hi : i < n) :
    Tbl.get d ((List.range n).foldl (fun u j => Tbl.put d u (k + j) (val j)) t) (k + i) = val i := by
  induction n with
  | zero => exact absurd hi (Nat.not_lt_zero i)
  | succ n ih =>
    rw [List.range_succ, List.foldl_append, List.foldl_cons, List.foldl_nil]
    by_cases hn : i = n
    · rw [hn, Tbl.get_put_self]
    · rw [Tbl.get_put_ne d _ _ (by omega), ih (by omega)]

/-- R539: what HIF_HP_STATUS shows of a link at 64 GT/s: its speed, and FLIT mode. -/
theorem flitStatus_bits {x y : Nat} (hx : x % 16 = 6) (hy : y = setBits (setBits (x % 2 ^ 31 - x % 2 ^ 31 % 2 ^ 16 + x % 16) 21 8 0) 29 1 1) :
    bits y 0 4 = 6 ∧ bit y 29 = true := by
  have hlow : bits (x % 2 ^ 31 - x % 2 ^ 31 % 2 ^ 16 + x % 16) 0 4 = 6 := by
    simp only [bits, Nat.shiftRight_zero]
    omega
  subst hy
  constructor
  · rw [← hlow]
    exact bits_ext fun i hi => by
      rw [testBit_setBits, if_neg (by omega), testBit_setBits, if_neg (by omega)]
  · rw [bit, testBit_setBits, if_pos (by omega)]
    rfl

theorem exec_perstNDeassert {s : State} {h st n : Nat} (hh : h < 4) (ho : s.mode ≠ .off)
    (hp : ({ s with glb := { s.glb with perstN := s.glb.perstN.set h true } } : State).hpPresent h = true) :
    ∃ t, exec (.perstNDeassert h st n) s = .next t ∧ t.glb.perstN = s.glb.perstN.set h true ∧
      (∀ i ≤ min n 255, (t.fn (h * 256 + i)).exists_ = true) ∧
      (st % 16 = 6 → ∃ v, Tbl.find? t.glb.hpStatus h = some v ∧ bits v 0 4 = 6 ∧ bit v 29 = true) := by
  refine ⟨_, by
    show execPerstNDeassert h st n s = _
    simp only [execPerstNDeassert]
    rw [if_pos hh, if_pos ⟨hp, ho⟩], rfl, fun i hi => ?present, fun hst => ⟨_, Tbl.find?_ins_self _ h _, ?flit⟩⟩
  case present =>
    show (Tbl.get (fun _ => Fn.reset) _ (h * 256 + i)).exists_ = true
    rw [Tbl.get_foldl_put_range _ _ _ _ _ (show i < min n 255 + 1 by omega)]
  case flit => exact flitStatus_bits hst (by rw [if_pos hst])

/-! ### The ROM self-test (R487, R495) -/

theorem exec_romSelfTestDone {s : State} (l : List (Nat × Nat × List (Nat × Nat))) (hm : s.mode = .strap)
    (hstage : s.g Reg.GLB_BOOT_STATUS.stage < 3) (hf : s.glb.fencePend = none) : ∃ u,
    u = l.foldl (fun t f => t.romFail f.1 f.2.1 f.2.2) s.fusedRepairs ∧
      exec (.romSelfTestDone l) s = .next (u.put Reg.GLB_BOOT_STATUS.stage (if u.glb.fencePend.isNone then 3 else 2)) :=
  ⟨_, rfl, by
    show execRomSelfTestDone l s = _
    rw [execRomSelfTestDone, if_pos ⟨hm, hstage, by simp [hf]⟩]⟩

/-! ### What an event leaves of GLB (R27, R472) -/

/-- Of GLB the work from `a` up to `s` has written nothing but a request for an entry into FENCED. -/
def AsksOnly (a s : State) : Prop := ∃ cause course, s.glb = { a.glb with fencePend := cause, fenceAsk := course }

namespace AsksOnly

theorem refl (s : State) : AsksOnly s s := ⟨_, _, rfl⟩

theorem trans {a b c : State} (h : AsksOnly a b) (k : AsksOnly b c) : AsksOnly a c := by
  obtain ⟨p, q, hb⟩ := h
  obtain ⟨p', q', hc⟩ := k
  exact ⟨p', q', by rw [hc, hb]⟩

/-- Work that writes nothing of GLB. -/
theorem of_stays {w : List Sys2Proof.Part} {a s : State} (h : Stays w a s) (hw : ¬ Sys2Proof.Part.glb ∈ w) : AsksOnly a s :=
  ⟨_, _, h.glb hw⟩

theorem ite {a s t : State} {c : Prop} [Decidable c] (hs : AsksOnly a s) (ht : AsksOnly a t) : AsksOnly a (if c then s else t) := by
  split
  · exact hs
  · exact ht

theorem temps {a s : State} (h : AsksOnly a s) : s.glb.temps = a.glb.temps := by
  obtain ⟨_, _, h⟩ := h
  rw [h]

theorem trip {a s : State} (h : AsksOnly a s) : s.glb.trip = a.glb.trip := by
  obtain ⟨_, _, h⟩ := h
  rw [h]

end AsksOnly

theorem State.askFence_asks (s : State) (cause : Nat) : AsksOnly s (s.askFence cause) :=
  .ite (.refl s) (.ite (.refl s) ⟨_, _, rfl⟩)

theorem State.fenceOn_asks (s : State) (g : Nat) : AsksOnly s (s.fenceOn g) := by
  unfold State.fenceOn
  split
  · exact .refl s
  · exact .ite (s.askFence_asks _) (.refl s)

theorem State.setSrc_asks (s : State) (g : Nat) (x : Src) : AsksOnly s (s.setSrc g x) :=
  .of_stays (s.setSrc_stays g x (Has.refl _) (Stays.refl s)) (by decide)

theorem State.mergeEvent_asks (s : State) (g : Nat) : AsksOnly s (s.mergeEvent g) :=
  .of_stays (s.mergeEvent_stays g (Has.refl _) (Stays.refl s)) (by decide)

theorem State.latchEvent_asks (s : State) (g cond obj : Nat) (owner : Option Nat) (detail : Nat) (forced severe mute : Bool) :
    AsksOnly s (s.latchEvent g cond obj owner detail forced severe mute) :=
  .of_stays (s.latchEvent_stays g cond obj owner detail forced severe mute (Has.refl _) (Stays.refl s)) (by decide)

theorem State.latchConsequence_asks (s : State) (g obj : Nat) (owner : Option Nat) (eff : Bool) :
    AsksOnly s (s.latchConsequence g obj owner eff) := by
  unfold State.latchConsequence
  split
  · exact .refl s
  · extract_lets s1 t r s2
    have h1 : AsksOnly s s1 := .ite (s.fenceOn_asks g) (.refl s)
    have h2 : AsksOnly s s2 := h1.trans (s1.setSrc_asks g _)
    exact .ite (.ite (h2.trans ((s2.latchEvent_asks g 0xF obj owner 0 false true false).trans (State.askFence_asks _ 4))) h2) h1

theorem State.latch_asks (s : State) (g cond obj : Nat) (owner : Option Nat) (detail : Nat) (forced mute : Bool) :
    AsksOnly s (s.latch g cond obj owner detail forced mute) := by
  unfold State.latch
  exact .ite (.ite (s.mergeEvent_asks g) ((s.mergeEvent_asks g).trans (State.fenceOn_asks _ g)))
    ((s.latchEvent_asks g cond obj owner detail forced false mute).trans (State.latchConsequence_asks _ g obj owner _))

theorem State.level_asks (s : State) (g : Nat) (present : Bool) (obj : Nat) (owner : Option Nat) :
    AsksOnly s (s.level g present obj owner) := by
  unfold State.level
  extract_lets x s1
  have h1 : AsksOnly s s1 := s.setSrc_asks g _
  exact .ite (h1.trans (s1.latch_asks g 0 obj owner 0 false false))
    (.ite (h1.trans ((s1.mergeEvent_asks g).trans (State.fenceOn_asks _ g))) h1)

/-! ### Sensors (R547) -/

theorem pack_temp (x : Nat) : pack [(31, 1, 1), (0, 16, x)] = 2 ^ 31 + x % 65536 := by
  simp only [pack, Nat.shiftLeft_zero, Nat.add_zero, Nat.reducePow, Nat.reduceMod, Nat.reduceShiftLeft]

theorem bits_temp (x : Nat) : bits x 0 16 = x % 65536 := by
  rw [bits, Nat.shiftRight_zero]
  rfl

/-- R547: the conversion is recorded, and the trip comes with a conversion of 115 °C or more alone. -/
theorem exec_thermalConversion {s : State} {k x : Nat} (hk : k < 24) (ho : s.mode ≠ .off) :
    ∃ t, exec (.thermalConversion k x) s = .next t ∧ Tbl.find? t.glb.temps k = some (2 ^ 31 + x % 65536) ∧
      (1840 ≤ signed (x % 65536) 16 → t.glb.trip = true) ∧ (signed (x % 65536) 16 < 1840 → t.glb.trip = s.glb.trip) := by
  let s1 : State := { s with glb := { s.glb with temps := Tbl.ins s.glb.temps k (2 ^ 31 + x % 65536) } }
  let s2 : State := s1.level 2 (s1.glb.temps.any (fun e => signed (bits e.2 0 16) 16 > 1680))
  let s3 : State := { s2 with glb := { s2.glb with trip := true } }
  have hwarm : AsksOnly s1 s2 := s1.level_asks 2 _ 0 none
  have hhot : AsksOnly s3 (s3.level 3 true) := s3.level_asks 3 true 0 none
  have htemps : s2.glb.temps = s1.glb.temps := hwarm.temps
  refine ⟨if signed (x % 65536) 16 ≥ 1840 then s3.level 3 true else s2, ?_, ?_, fun h => ?_, fun h => ?_⟩
  · show execThermalConversion k x s = _
    simp only [execThermalConversion]
    rw [if_pos ⟨hk, ho⟩, pack_temp, bits_temp]
  · split
    · rw [hhot.temps]
      exact htemps ▸ Tbl.find?_ins_self _ k _
    · exact htemps ▸ Tbl.find?_ins_self _ k _
  · rw [if_pos h, hhot.trip]
  · rw [if_neg (by omega), hwarm.trip]

/-- Settles O13: the equation of each of the commands; the frame of a host port's reset is that of the model's own lemma. -/
theorem otherResets : Obligations.OtherResets := by
  refine ⟨⟨fun s req v ha hp hkey hbit htrip => ?full, fun s req v ha hp hno => ?refused⟩,
    ⟨fun s h hp ho => (exec_hostPortReset_hot s h).trans (if_pos ⟨hp, ho⟩), fun s h => s.hostPortReset_stays h (.of_all rfl) (Stays.refl s),
      fun s h hh => ?perst, fun s h st n hh ho hp => exec_perstNDeassert hh ho hp⟩,
    fun s l hm hstage hf => exec_romSelfTestDone l hm hstage hf, fun s k x hk ho => exec_thermalConversion hk ho⟩
  case full =>
    refine ⟨_, by rw [exec_fullReset v ha hp, State.resetCtrl_eq, if_pos ⟨hkey, hbit, htrip⟩], rfl, ?_⟩
    rw [State.settle_mode, State.fullReset_mode]
  case refused => rw [exec_fullReset v ha hp, State.resetCtrl_eq, if_neg hno]
  case perst =>
    obtain ⟨t, ht⟩ := exec_answersNext (.hostPortReset h true) s
    exact ⟨t, ht, (exec_hostPortReset_perst hh).symm.trans ht⟩

end Sys2Proof.Machine
end

section
/-! What an event counts (R246, R248), and the operations of a lock cell (R387-R393): what each makes of the cell. -/
namespace Sys2Proof.Machine

/-! ### Counters that an event counts in -/

/-- A counter in which no event counts. -/
structure EventFree (c : Nat) : Prop where
  msix : c ≠ Ctr.HIF_MSIX_COUNT
  event : c ≠ Ctr.HIF_EVENT_COUNT
  lost : c ≠ Ctr.HIF_EVENT_LOST_COUNT

/-- R246, R248: of the counters the work from `a` up to `s` has written none but those of events and their interrupts. -/
def CountsEvents (a s : State) : Prop := ∀ c, EventFree c → s.ctr c = a.ctr c

namespace CountsEvents

theorem refl (s : State) : CountsEvents s s := fun _ _ => rfl

theorem trans {a b c : State} (h : CountsEvents a b) (k : CountsEvents b c) : CountsEvents a c := fun x hx => (k x hx).trans (h x hx)

theorem of_ctrs {a s : State} (h : s.ctrs = a.ctrs) : CountsEvents a s := fun c _ => State.ctr_of_ctrs h c

/-- Work that writes no counter. -/
theorem of_stays {w : List Sys2Proof.Part} {a s : State} (h : Stays w a s) (hw : ¬ Sys2Proof.Part.ctrs ∈ w) : CountsEvents a s :=
  of_ctrs (h.ctrs hw)

theorem ite {a s t : State} {c : Prop} [Decidable c] (hs : CountsEvents a s) (ht : CountsEvents a t) :
    CountsEvents a (if c then s else t) := by
  split
  · exact hs
  · exact ht

end CountsEvents

theorem State.msixSend_counts (s : State) (identity vector : Nat) : CountsEvents s (s.msixSend identity vector) := by
  unfold State.msixSend
  exact .ite (.refl s) (.ite (fun c hc => State.ctr_bump_ne _ hc.msix) (.of_ctrs rfl))

theorem State.eqPut_counts (s : State) (r entry : Nat) : CountsEvents s (s.eqPut r entry) := by
  unfold State.eqPut
  split
  · exact .refl s
  next e _ =>
    extract_lets a w s1 s2
    have h2 : CountsEvents s s2 := fun c hc => (State.ctr_bumpIf_ne _ _ hc.event).trans
      (State.ctr_of_stays (State.hostWrite_stays _ _ _ _ (Has.refl _) (Stays.refl s)) (by decide) c)
    exact .ite (h2.trans (s2.msixSend_counts _ _)) h2

theorem State.eqPost_counts (s : State) (r entry : Nat) : CountsEvents s (s.eqPost r entry) := by
  have hlost : ∀ t : State, CountsEvents t (t.bump Ctr.HIF_EVENT_LOST_COUNT) := fun t c hc => State.ctr_bump_ne _ hc.lost
  unfold State.eqPost
  split
  · exact hlost s
  · exact .ite (s.eqPut_counts r entry) (.ite (.of_ctrs rfl) ((CountsEvents.of_ctrs rfl).trans (hlost _)))

theorem State.latchEvent_counts (s : State) (g cond obj : Nat) (owner : Option Nat) (detail : Nat) (forced severe mute : Bool) :
    CountsEvents s (s.latchEvent g cond obj owner detail forced severe mute) := by
  unfold State.latchEvent
  split
  · exact .refl s
  · extract_lets x back x1 e s1
    have h1 : CountsEvents s s1 := .of_ctrs rfl
    exact .ite (h1.trans (s1.eqPost_counts _ _)) h1

theorem State.askFence_counts (s : State) (cause : Nat) : CountsEvents s (s.askFence cause) :=
  .of_stays (State.askFence_stays cause (Has.refl _) (Stays.refl s)) (by decide)

theorem State.fenceOn_counts (s : State) (g : Nat) : CountsEvents s (s.fenceOn g) :=
  .of_stays (State.fenceOn_stays g (Has.refl _) (Stays.refl s)) (by decide)

theorem State.mergeEvent_counts (s : State) (g : Nat) : CountsEvents s (s.mergeEvent g) :=
  .of_stays (State.mergeEvent_stays g (Has.refl _) (Stays.refl s)) (by decide)

theorem State.latchConsequence_counts (s : State) (g obj : Nat) (owner : Option Nat) (eff : Bool) :
    CountsEvents s (s.latchConsequence g obj owner eff) := by
  unfold State.latchConsequence
  split
  · exact .refl s
  · extract_lets s1 t r s2
    have h1 : CountsEvents s s1 := .ite (s.fenceOn_counts g) (.refl s)
    have h2 : CountsEvents s s2 := h1.trans (.of_ctrs rfl)
    exact .ite (.ite (h2.trans ((s2.latchEvent_counts g 0xF obj owner 0 false true false).trans (State.askFence_counts _ 4))) h2) h1

theorem State.latch_counts (s : State) (g cond obj : Nat) (owner : Option Nat) (detail : Nat) (forced mute : Bool) :
    CountsEvents s (s.latch g cond obj owner detail forced mute) := by
  unfold State.latch
  exact .ite (.ite (s.mergeEvent_counts g) ((s.mergeEvent_counts g).trans (State.fenceOn_counts _ g)))
    ((s.latchEvent_counts g cond obj owner detail forced false mute).trans (State.latchConsequence_counts _ g obj owner _))

theorem State.raise_counts (s : State) (g cond obj : Nat) (owner : Option Nat) (detail : Nat) :
    CountsEvents s (s.raise g cond obj owner detail) := s.latch_counts g cond obj owner detail false false

/-! ### Cells -/

@[simp] theorem State.cell_setCell_self (s : State) (c : Nat) (v : Cell) : (s.setCell c v).cell c = v := by
  simp [State.cell, State.setCell]

theorem State.cell_of_lck {s t : State} (h : t.lck = s.lck) (c : Nat) : t.cell c = s.cell c := by rw [State.cell, State.cell, h]

theorem State.cell_of_stays {w : List Sys2Proof.Part} {s t : State} (h : Stays w s t) (hw : ¬ Sys2Proof.Part.lck ∈ w) (c : Nat) :
    t.cell c = s.cell c := State.cell_of_lck (h.lck hw) c

@[simp] theorem State.cell_bump (s : State) (k c : Nat) : (s.bump k).cell c = s.cell c := State.cell_of_lck rfl c

@[simp] theorem State.cell_finishEntry (s : State) (q : Nat) (ctr : RingCtr) (r : Res) (c : Nat) : (s.finishEntry q ctr r).cell c = s.cell c :=
  State.cell_of_stays (State.finishEntry_stays q ctr r (Has.refl _) (Stays.refl s)) (by decide) c

@[simp] theorem State.cell_raise (s : State) (g cond obj : Nat) (owner : Option Nat) (detail c : Nat) :
    (s.raise g cond obj owner detail).cell c = s.cell c :=
  State.cell_of_stays (State.raise_stays g cond obj owner detail (Has.refl _) (Stays.refl s)) (by decide) c

@[simp] theorem State.cell_cellDone (s : State) (q : Nat) (e : Ent) (n c : Nat) : (s.cellDone q e n).cell c = s.cell c :=
  s.cell_finishEntry q e.ctr _ c

theorem State.cell_finishAll (l : List (Nat × Nat × RingCtr)) (r : Res) (s : State) (c : Nat) :
    (l.foldl (fun t e => t.finishEntry e.2.1 e.2.2 r) s).cell c = s.cell c := by
  induction l generalizing s with
  | nil => rfl
  | cons e l ih => exact (ih _).trans (s.cell_finishEntry _ _ _ c)

@[simp] theorem State.cell_cellGranted (s : State) (c : Nat) :
    (s.cellGranted c).cell c = { s.cell c with ents := (s.cell c).ents.filter (fun e => e.1 != (s.cell c).owner) } :=
  (State.cell_finishAll _ _ _ c).trans (s.cell_setCell_self c _)

@[simp] theorem State.cell_cellRefused (s : State) (c i detail : Nat) :
    (s.cellRefused c i detail).cell c = { s.cell c with ents := (s.cell c).ents.filter (fun e => e.1 != i) } :=
  (State.cell_finishAll _ _ _ c).trans (s.cell_setCell_self c _)

/-- R392: what is told of an inherited priority is all that changes. -/
theorem State.cell_tellInherit (s : State) (c : Nat) : ∃ k, (s.tellInherit c).cell c = { s.cell c with signalled := k } := by
  unfold State.tellInherit
  dsimp only
  split
  · split
    · exact ⟨_, by rw [State.cell_raise, State.cell_setCell_self]⟩
    · exact ⟨_, rfl⟩
  · exact ⟨_, rfl⟩

theorem State.cellGranted_counts (s : State) (c : Nat) : CountsEvents s (s.cellGranted c) :=
  .of_stays (s.cellGranted_stays c (Has.refl _) (Stays.refl s)) (by decide)

theorem State.tellInherit_counts (s : State) (c : Nat) : CountsEvents s (s.tellInherit c) := by
  unfold State.tellInherit
  extract_lets v
  split
  next w _ =>
    have hset : CountsEvents s (s.setCell c { v with signalled := w.2 + 1 }) := .of_ctrs (s.setCell_ctrs c _)
    exact .ite (hset.trans (State.raise_counts _ _ _ _ _ _)) (.refl s)
  · exact .refl s

/-! ### Release and handover (R390) -/

theorem bestWaiter_some {l : List (Nat × Nat)} (h : l ≠ []) : ∃ w, bestWaiter l = some w := by
  cases l with
  | nil => exact absurd rfl h
  | cons w l =>
    rw [bestWaiter]
    split
    · split <;> exact ⟨_, rfl⟩
    · exact ⟨_, rfl⟩

theorem bestWaiter_mem {l : List (Nat × Nat)} {b : Nat × Nat} (h : bestWaiter l = some b) : b ∈ l := by
  induction l generalizing b with
  | nil => exact absurd h (by simp [bestWaiter])
  | cons w l ih =>
    rw [bestWaiter] at h
    split at h
    next b' hb' =>
      split at h
      · exact Option.some.inj h ▸ List.mem_cons_self
      · exact Option.some.inj h ▸ List.mem_cons_of_mem _ (ih hb')
    · exact Option.some.inj h ▸ List.mem_cons_self

/-- R390: a waiter that no later one passes in priority. -/
theorem bestWaiter_head {w : Nat × Nat} {l : List (Nat × Nat)} (h : ∀ x ∈ l, x.2 ≤ w.2) : bestWaiter (w :: l) = some w := by
  rw [bestWaiter]
  split
  next b hb => exact if_pos (h b (bestWaiter_mem hb))
  · rfl

/-- R390: the waiter of the highest priority, the earliest registered among equals. -/
theorem bestWaiter_split {w : Nat × Nat} (pre : List (Nat × Nat)) {post : List (Nat × Nat)} (hpre : ∀ x ∈ pre, x.2 < w.2)
    (hpost : ∀ x ∈ post, x.2 ≤ w.2) : bestWaiter (pre ++ w :: post) = some w := by
  induction pre with
  | nil => exact bestWaiter_head hpost
  | cons x pre ih =>
    have hx : x.2 < w.2 := hpre x List.mem_cons_self
    rw [List.cons_append, bestWaiter, ih fun y hy => hpre y (List.mem_cons_of_mem _ hy)]
    exact if_neg (by omega)

/-- R390: the cell without a waiter becomes free. -/
theorem State.cellHandover_none {s : State} {c : Nat} (b : Bool) (h : (s.cell c).waiters = []) :
    s.cellHandover c b = s.setCell c { s.cell c with owner := noOwner, abandoned := b, signalled := 0 } := by
  simp only [State.cellHandover, h, bestWaiter]

/-- R390: the handover is counted, and the cell is the waiter's. -/
theorem State.cellHandover_some {s : State} {c : Nat} (b : Bool) {w : Nat × Nat} (h : bestWaiter (s.cell c).waiters = some w) :
    ∃ v, (s.cellHandover c b).cell c = v ∧ v.owner = w.1 ∧ v.abandoned = b ∧ v.waiters = (s.cell c).waiters.filter (fun x => x.1 != w.1) ∧
      (s.cellHandover c b).ctr Ctr.LCK_HANDOVER_COUNT = s.ctr Ctr.LCK_HANDOVER_COUNT + 1 := by
  have hc : EventFree Ctr.LCK_HANDOVER_COUNT := ⟨by decide, by decide, by decide⟩
  obtain ⟨t, ht⟩ : ∃ t, t = s.setCell c { s.cell c with owner := w.1, abandoned := b, waiters := (s.cell c).waiters.filter (fun x => x.1 != w.1), signalled := 0 } := ⟨_, rfl⟩
  have heq : s.cellHandover c b = ((t.bump Ctr.LCK_HANDOVER_COUNT).cellGranted c).tellInherit c := by
    simp only [State.cellHandover, h, ht]
  obtain ⟨k, hk⟩ := State.cell_tellInherit ((t.bump Ctr.LCK_HANDOVER_COUNT).cellGranted c) c
  have hctr : t.ctr Ctr.LCK_HANDOVER_COUNT = s.ctr Ctr.LCK_HANDOVER_COUNT := State.ctr_of_ctrs (ht ▸ s.setCell_ctrs c _) _
  refine ⟨_, rfl, ?_⟩
  rw [heq, hk, State.cell_cellGranted, State.cell_bump, State.tellInherit_counts _ _ _ hc, State.cellGranted_counts _ _ _ hc, State.ctr_bump_self,
    hctr, ht, State.cell_setCell_self]
  exact ⟨rfl, rfl, rfl, rfl⟩

theorem State.cellRelease_own {s : State} {c i : Nat} (ho : (s.cell c).owner = i) (hf : (s.cell c).isFree = false) :
    s.cellRelease c i = s.cellHandover c false := if_neg (by simp [ho, hf])

theorem Cell.isFree_of_owner {v : Cell} {i : Nat} (h : v.owner = i) (hi : i ≠ noOwner) : v.isFree = false := by
  simpa [Cell.isFree, h] using hi

/-- R390: what the owner's release makes of the cell. -/
theorem State.cell_cellRelease {s : State} {c i : Nat} (ho : (s.cell c).owner = i) (hf : (s.cell c).isFree = false) :
    ((s.cellRelease c i).cell c).abandoned = false ∧ ((s.cell c).waiters = [] → ((s.cellRelease c i).cell c).isFree = true) ∧
      ∀ w, bestWaiter (s.cell c).waiters = some w → ((s.cellRelease c i).cell c).owner = w.1 := by
  rw [State.cellRelease_own ho hf]
  by_cases hw : (s.cell c).waiters = []
  · rw [State.cellHandover_none false hw, State.cell_setCell_self, hw]
    exact ⟨rfl, fun _ => rfl, fun _ h => nomatch h⟩
  · obtain ⟨b, hb⟩ := bestWaiter_some hw
    obtain ⟨_, rfl, hown, habd, -, -⟩ := State.cellHandover_some false hb
    exact ⟨habd, fun h => absurd h hw, fun w h => hown.trans (congrArg Prod.fst (Option.some.inj (hb.symm.trans h)))⟩

/-! ### The commands of a cell (R388, R401) -/

/-- R388: an operation by register, under the writer's own identity, in the cell's scope. -/
theorem State.cellReg_own {s : State} {req : Requester} {c p i : Nat} (op : Nat) (hp : req.privileged = true) (hf : s.mode ≠ .fenced)
    (ho : s.mode ≠ .off) (hi : i = req.identity) (hsc : s.cellScope c i = true) : s.cellReg req c op p i =
      if op = 0 then s.cellAcquire c i p else if op = 1 then s.cellRelease c i else if op = 2 then s.cellWithdraw c i else s := by
  rw [State.cellReg, if_neg (by simp [hf, ho]), if_neg (by simp [hp, hi.symm, hsc])]

/-- R388: another identity's operation is only counted. -/
theorem State.cellReg_foreign {s : State} {req : Requester} {c p i : Nat} (op : Nat) (hf : s.mode ≠ .fenced) (ho : s.mode ≠ .off)
    (h : i ≠ req.identity ∨ s.cellScope c i = false) : s.cellReg req c op p i = s.bump Ctr.LCK_FOREIGN_COUNT := by
  rw [State.cellReg, if_neg (by simp [hf, ho]), if_pos (by
    rcases h with h | h
    · exact Or.inr (Or.inl h)
    · exact Or.inr (Or.inr (by simp [h])))]

/-- R401: a CELL_OP entry of this operation, in the cell's scope. -/
theorem State.cellEntry_own {s : State} {q op : Nat} {v : Sq} {e : Ent} (go : Sq → Ent → State) (hst : s.startable q 0x28 = some (v, e))
    (hop : Cw.op e.raw = op) (hsc : s.cellScope (Cw.cell e.raw) v.owner = true) : s.cellEntry q op go = go v e := by
  simp only [State.cellEntry, hst]
  rw [if_neg (by simp [hop]), if_neg (by simp [hsc])]

theorem exec_cellRelease_reg {s : State} {req : Requester} {c i : Nat} (p : Nat) (hp : req.privileged = true) (hf : s.mode ≠ .fenced)
    (ho : s.mode ≠ .off) (hi : i = req.identity) (hsc : s.cellScope c i = true) :
    exec (.cellRelease (.reg req c p i)) s = .next (s.cellRelease c i) :=
  congrArg Host.Outcome.next (State.cellReg_own 1 hp hf ho hi hsc)

theorem exec_cellRelease_entry {s : State} {q : Nat} {v : Sq} {e : Ent} (hst : s.startable q 0x28 = some (v, e)) (hop : Cw.op e.raw = 2)
    (hsc : s.cellScope (Cw.cell e.raw) v.owner = true) :
    exec (.cellRelease (.entry q)) s = .next ((s.cellRelease (Cw.cell e.raw) v.owner).cellDone q e 0) :=
  congrArg Host.Outcome.next (State.cellEntry_own _ hst hop hsc)

/-- Settles O48: both ways of release are the cell's release, which hands the cell over. -/
theorem cellRelease : Obligations.CellRelease := by
  refine ⟨fun s req c p i hp hf ho hi hsc hown hfree => ⟨_, exec_cellRelease_reg p hp hf ho hi hsc, State.cell_cellRelease hown hfree⟩,
    fun s q v e c hst hc hop hsc hown hfree => ?entry, fun s req c p i hp hf ho hi hsc => exec_cellRelease_reg p hp hf ho hi hsc,
    fun s q v e c hst hc hop hsc => hc ▸ exec_cellRelease_entry hst hop (hc ▸ hsc),
    fun s c i hi => ⟨fun hne => if_pos (Or.inl hne), fun hown hw => ?freed, fun pre post w hown hws hpre hpost => ?handed⟩⟩
  case entry =>
    refine ⟨_, exec_cellRelease_entry hst hop (hc ▸ hsc), ?_⟩
    rw [State.cell_cellDone, ← hc]
    exact State.cell_cellRelease hown hfree
  case freed =>
    rw [State.cellRelease_own hown (Cell.isFree_of_owner hown hi), State.cellHandover_none false hw, State.cell_setCell_self]
    exact ⟨rfl, rfl, s.setCell_ctrs c _⟩
  case handed =>
    rw [State.cellRelease_own hown (Cell.isFree_of_owner hown hi)]
    obtain ⟨_, rfl, ho, ha, hf, hc⟩ := State.cellHandover_some false (hws ▸ bestWaiter_split pre hpre hpost)
    exact ⟨ho, ha, hf, hc⟩

/-! ### Acquire and withdraw (R389) -/

/-- The same owner, waiters and mark. -/
structure Cell.HeldAs (v w : Cell) : Prop where
  owner : w.owner = v.owner
  waiters : w.waiters = v.waiters
  abandoned : w.abandoned = v.abandoned

theorem State.cellGranted_heldAs (s : State) (c : Nat) : (s.cell c).HeldAs ((s.cellGranted c).cell c) := by
  rw [State.cell_cellGranted]
  exact ⟨rfl, rfl, rfl⟩

theorem State.cellRefused_heldAs (s : State) (c i detail : Nat) : (s.cell c).HeldAs ((s.cellRefused c i detail).cell c) := by
  rw [State.cell_cellRefused]
  exact ⟨rfl, rfl, rfl⟩

theorem State.tellInherit_heldAs (s : State) (c : Nat) : (s.cell c).HeldAs ((s.tellInherit c).cell c) := by
  obtain ⟨k, hk⟩ := s.cell_tellInherit c
  rw [hk]
  exact ⟨rfl, rfl, rfl⟩

/-- R389: the cell is free. -/
theorem State.cellAcquire_free {s : State} {c i : Nat} (p : Nat) (hf : (s.cell c).isFree = true) :
    Cell.HeldAs { s.cell c with owner := i } ((s.cellAcquire c i p).cell c) := by
  have h := State.cellGranted_heldAs ((s.setCell c { s.cell c with owner := i, signalled := 0 }).bump Ctr.LCK_ACQ_COUNT) c
  rw [State.cell_bump, State.cell_setCell_self] at h
  rw [State.cellAcquire, if_pos hf]
  exact ⟨h.owner, h.waiters, h.abandoned⟩

/-- R389: the cell is the writer's already. -/
theorem State.cellAcquire_own {s : State} {c i : Nat} (p : Nat) (hf : (s.cell c).isFree = false) (ho : (s.cell c).owner = i) :
    s.cellAcquire c i p = s.cellGranted c := by
  rw [State.cellAcquire, if_neg (by simp [hf]), if_pos ho]

/-- R389: the writer waits already: its priority is the new one. -/
theorem State.cellAcquire_waiting {s : State} {c i : Nat} (p : Nat) (hf : (s.cell c).isFree = false) (ho : (s.cell c).owner ≠ i)
    (hw : (s.cell c).waiters.any (fun w => w.1 == i) = true) :
    Cell.HeldAs { s.cell c with waiters := (s.cell c).waiters.map (fun w => if w.1 = i then (i, p) else w) } ((s.cellAcquire c i p).cell c) := by
  have h := State.tellInherit_heldAs (s.setCell c { s.cell c with waiters := (s.cell c).waiters.map (fun w => if w.1 = i then (i, p) else w) }) c
  rw [State.cell_setCell_self] at h
  rw [State.cellAcquire, if_neg (by simp [hf]), if_neg ho, if_pos hw]
  exact h

/-- R389: the writer joins the waiters. -/
theorem State.cellAcquire_joins {s : State} {c i : Nat} (p : Nat) (hf : (s.cell c).isFree = false) (ho : (s.cell c).owner ≠ i)
    (hw : (s.cell c).waiters.any (fun w => w.1 == i) = false) (hroom : (s.cell c).waiters.length < 63) :
    Cell.HeldAs { s.cell c with waiters := (s.cell c).waiters ++ [(i, p)] } ((s.cellAcquire c i p).cell c) := by
  have h := State.tellInherit_heldAs (s.setCell c { s.cell c with waiters := (s.cell c).waiters ++ [(i, p)] }) c
  rw [State.cell_setCell_self] at h
  rw [State.cellAcquire, if_neg (by simp [hf]), if_neg ho, if_neg (by simp [hw]), if_pos hroom]
  exact h

/-- R389: no place is left among the waiters. -/
theorem State.cellAcquire_full {s : State} {c i : Nat} (p : Nat) (hf : (s.cell c).isFree = false) (ho : (s.cell c).owner ≠ i)
    (hw : (s.cell c).waiters.any (fun w => w.1 == i) = false) (hfull : 63 ≤ (s.cell c).waiters.length) :
    (s.cell c).HeldAs ((s.cellAcquire c i p).cell c) := by
  have h := State.cellRefused_heldAs ((s.bump Ctr.LCK_FULL_COUNT).raise (srcLck 3) 0 (c + i * 1024) (fnOf i)) c i 4
  rw [State.cell_raise, State.cell_bump] at h
  rw [State.cellAcquire, if_neg (by simp [hf]), if_neg ho, if_neg (by simp [hw]), if_neg (Nat.not_lt.2 hfull)]
  exact h

/-- R389: the identity waits no longer. -/
theorem State.cellWithdraw_heldAs (s : State) (c i : Nat) :
    Cell.HeldAs { s.cell c with waiters := (s.cell c).waiters.filter (fun w => w.1 != i) } ((s.cellWithdraw c i).cell c) := by
  have h := State.cellRefused_heldAs (s.setCell c { s.cell c with waiters := (s.cell c).waiters.filter (fun w => w.1 != i) }) c i 4
  rwa [State.cell_setCell_self] at h

/-- Settles O47: a row of R389's table for each case of the cell. -/
theorem cellAcquire : Obligations.CellAcquire := by
  intro s req c p i hp hf ho
  have foreign : ∀ op, i ≠ req.identity ∨ s.cellScope c i = false → Host.Outcome.next (s.cellReg req c op p i) = (.next (s.bump Ctr.LCK_FOREIGN_COUNT) : Host.Outcome State Fault Refusal) :=
    fun op h => congrArg Host.Outcome.next (State.cellReg_foreign op hf ho h)
  refine ⟨fun hi hsc => ?own, fun h => ⟨foreign 0 h, foreign 1 h, foreign 2 h⟩⟩
  have hacq : exec (.cellAcquire (.reg req c p i)) s = .next (s.cellAcquire c i p) := congrArg Host.Outcome.next (State.cellReg_own 0 hp hf ho hi hsc)
  have hwd : exec (.cellWithdraw (.reg req c p i)) s = .next (s.cellWithdraw c i) := congrArg Host.Outcome.next (State.cellReg_own 2 hp hf ho hi hsc)
  refine ⟨fun hfree _ => ⟨_, hacq, ?free⟩, fun hfree hown => ⟨_, hacq, ?mine⟩, fun hfree hown hw => ⟨_, hacq, ?waiting⟩,
    fun hfree hown hw hroom => ⟨_, hacq, ?joins⟩, fun hfree hown hw hfull => ⟨_, hacq, ?full⟩, ⟨_, hwd, ?withdraw⟩⟩
  case free =>
    have h := State.cellAcquire_free (i := i) p hfree
    exact ⟨h.owner, h.waiters, h.abandoned⟩
  case mine =>
    have h := s.cellGranted_heldAs c
    rw [State.cellAcquire_own p hfree hown]
    exact ⟨h.owner.trans hown, h.waiters, h.abandoned⟩
  case waiting =>
    have h := State.cellAcquire_waiting p hfree hown hw
    exact ⟨h.owner, h.waiters⟩
  case joins =>
    have h := State.cellAcquire_joins p hfree hown hw hroom
    exact ⟨h.owner, h.waiters⟩
  case full =>
    have h := State.cellAcquire_full p hfree hown hw hfull
    exact ⟨h.owner, h.waiters⟩
  case withdraw =>
    have h := s.cellWithdraw_heldAs c i
    exact ⟨h.owner, h.waiters⟩

end Sys2Proof.Machine
end

section
/-! The lock word of a fabric lock (R394-R398): what each operation makes of its fields. -/
namespace Sys2Proof.Machine

/-! ### Fields of a number in which a field has been set -/

theorem bits_setBits_self (x l w v : Nat) : bits (setBits x l w v) l w = v % 2 ^ w := by
  refine Nat.eq_of_testBit_eq fun i => ?_
  rw [testBit_bits, testBit_setBits, Nat.testBit_mod_two_pow]
  by_cases hi : i < w
  · rw [if_pos (by omega), Nat.add_sub_cancel_left]
  · simp [hi]

theorem bits_setBits_apart {x l w v l' w' : Nat} (h : l' + w' ≤ l ∨ l + w ≤ l') : bits (setBits x l w v) l' w' = bits x l' w' :=
  bits_ext fun i hi => by rw [testBit_setBits, if_neg (by omega)]

theorem bit_setBits_in {x l w v i : Nat} (h : l ≤ i ∧ i < l + w) : bit (setBits x l w v) i = bit v (i - l) := by
  rw [bit, testBit_setBits, if_pos h, bit]

theorem bit_setBits_apart {x l w v i : Nat} (h : i < l ∨ l + w ≤ i) : bit (setBits x l w v) i = bit x i := by
  rw [bit, testBit_setBits, if_neg (by omega), bit]

theorem serialCmp_self (a n : Nat) : serialCmp (a % 2 ^ n) (a % 2 ^ n) n = .equal := by
  have hd : (2 ^ n + a % 2 ^ n - a % 2 ^ n % 2 ^ n) % 2 ^ n = 0 := by rw [Nat.mod_mod, Nat.add_sub_cancel, Nat.mod_self]
  simp only [serialCmp, hd, if_true]

/-! ### The fields of the word that an operation writes -/

/-- R396: `t` is the ticket of the holder. -/
def Fl.Mine (w dev ident t : Nat) : Prop :=
  Fl.held w = true ∧ Fl.ownerDevice w = dev ∧ Fl.ownerIdentity w = ident ∧ Fl.ownerTicket w = t

/-- R396: the word with the lock passed on: broken, or given up for a reset identity. -/
def Fl.passOn (w broken abandoned lease : Nat) : Nat :=
  setBits (setBits (setBits w 32 32 (Fl.serving w + 1)) 112 3 (0 + 2 * broken + 4 * abandoned)) 64 48 lease

section
variable (w dev ident t lease : Nat)

theorem Fl.serving_claim : Fl.serving (Fl.claim w dev ident t lease) = Fl.serving w := by
  simp (disch := omega) only [Fl.serving, Fl.claim, bits_setBits_apart]

theorem Fl.next_claim : Fl.next (Fl.claim w dev ident t lease) = Fl.next w := by
  simp (disch := omega) only [Fl.next, Fl.claim, bits_setBits_apart]

theorem Fl.lease_claim : Fl.lease (Fl.claim w dev ident t lease) = lease % 2 ^ 48 := by
  simp only [Fl.lease, Fl.claim, bits_setBits_self]

theorem Fl.flags_claim : Fl.held (Fl.claim w dev ident t lease) = true ∧ Fl.broken (Fl.claim w dev ident t lease) = false ∧
    Fl.abandoned (Fl.claim w dev ident t lease) = false := by
  simp (disch := omega) only [Fl.held, Fl.broken, Fl.abandoned, Fl.claim, bit_setBits_apart, bit_setBits_in]
  decide

theorem Fl.mine_claim (hdev : dev < 2 ^ 20) (hident : ident < 2 ^ 12) (ht : t < 2 ^ 32) : Fl.Mine (Fl.claim w dev ident t lease) dev ident t := by
  refine ⟨(Fl.flags_claim w dev ident t lease).1, ?_, ?_, ?_⟩
  · simp (disch := omega) only [Fl.ownerDevice, Fl.claim, bits_setBits_apart, bits_setBits_self, Nat.mod_eq_of_lt hdev]
  · simp (disch := omega) only [Fl.ownerIdentity, Fl.claim, bits_setBits_apart, bits_setBits_self, Nat.mod_eq_of_lt hident]
  · simp (disch := omega) only [Fl.ownerTicket, Fl.claim, bits_setBits_apart, bits_setBits_self, Nat.mod_eq_of_lt ht]

end

/-- R396: a ticket is drawn: the next one counts on, and nothing else changes. -/
theorem Fl.fields_ticket (w k : Nat) : Fl.next (setBits w 0 32 k) = k % 2 ^ 32 ∧ Fl.held (setBits w 0 32 k) = Fl.held w ∧
    Fl.serving (setBits w 0 32 k) = Fl.serving w ∧ Fl.lease (setBits w 0 32 k) = Fl.lease w := by
  simp (disch := omega) only [Fl.next, Fl.held, Fl.serving, Fl.lease, bits_setBits_self, bits_setBits_apart, bit_setBits_apart, and_self]

/-- R396: the lease is renewed. -/
theorem Fl.fields_renew (w k : Nat) : Fl.lease (setBits w 64 48 k) = k % 2 ^ 48 ∧ Fl.held (setBits w 64 48 k) = Fl.held w ∧
    Fl.serving (setBits w 64 48 k) = Fl.serving w ∧ Fl.next (setBits w 64 48 k) = Fl.next w := by
  simp (disch := omega) only [Fl.next, Fl.held, Fl.serving, Fl.lease, bits_setBits_self, bits_setBits_apart, bit_setBits_apart, and_self]

/-- R396: the lock is passed on. -/
theorem Fl.fields_passOn (w broken abandoned lease : Nat) :
    Fl.serving (Fl.passOn w broken abandoned lease) = (Fl.serving w + 1) % 2 ^ 32 ∧ Fl.next (Fl.passOn w broken abandoned lease) = Fl.next w ∧
      Fl.lease (Fl.passOn w broken abandoned lease) = lease % 2 ^ 48 := by
  simp (disch := omega) only [Fl.next, Fl.serving, Fl.lease, Fl.passOn, bits_setBits_self, bits_setBits_apart, and_self]

theorem Fl.flags_passOn (w lease : Nat) {broken abandoned : Nat} (hb : broken < 2) (ha : abandoned < 2) :
    Fl.held (Fl.passOn w broken abandoned lease) = false ∧ Fl.broken (Fl.passOn w broken abandoned lease) = (broken == 1) ∧
      Fl.abandoned (Fl.passOn w broken abandoned lease) = (abandoned == 1) := by
  simp (disch := omega) only [Fl.held, Fl.broken, Fl.abandoned, Fl.passOn, bit_setBits_apart, bit_setBits_in]
  interval_cases broken <;> interval_cases abandoned <;> decide

/-! ### The operations (R396) -/

section
variable {w dev ident t : Nat} (d now spare : Nat)

theorem Fl.apply_take_free (h : Fl.next w = Fl.serving w) (hfree : Fl.held w = false) : Fl.apply 0x80 w dev ident t d now spare =
    .ok (Fl.claim (setBits w 0 32 (Fl.next w + 1)) dev ident (Fl.next w) ((now + max 1 d) % 2 ^ 48), flGRANTED) := by
  simp only [Fl.apply]
  rw [if_pos trivial, if_pos ⟨h, by simp [hfree]⟩]

theorem Fl.apply_take_waits (h : Fl.next w ≠ Fl.serving w ∨ Fl.held w = true) :
    Fl.apply 0x80 w dev ident t d now spare = .ok (setBits w 0 32 (Fl.next w + 1), flWAITING) := by
  simp only [Fl.apply]
  rw [if_pos trivial, if_neg (by
    rintro ⟨hn, hh⟩
    exact h.elim (fun h => h hn) hh)]

theorem Fl.apply_poll_claims (hb : serialCmp t (Fl.next w) 32 = .before) (ht : t = Fl.serving w) (hfree : Fl.held w = false) :
    Fl.apply 0x81 w dev ident t d now spare = .ok (Fl.claim w dev ident t ((now + max 1 d) % 2 ^ 48), flGRANTED) := by
  simp only [Fl.apply]
  rw [if_neg (by decide), if_pos trivial, if_neg (by simp [hb]), if_pos ht, if_neg (by simp [hfree])]

theorem Fl.apply_poll_later (hb : serialCmp t (Fl.next w) 32 = .before) (ht : serialCmp t (Fl.serving w) 32 ≠ .equal) :
    Fl.apply 0x81 w dev ident t d now spare = .ok (w, if serialCmp t (Fl.serving w) 32 = .before then flPASSED else flWAITING) := by
  have hne : t ≠ Fl.serving w := by
    rintro rfl
    exact ht (serialCmp_self (w >>> 32) 32)
  simp only [Fl.apply]
  rw [if_neg (by decide), if_pos trivial, if_neg (by simp [hb]), if_neg hne]
  split
  · rfl
  · rfl

theorem Fl.apply_poll_unknown (hb : serialCmp t (Fl.next w) 32 ≠ .before) : Fl.apply 0x81 w dev ident t d now spare = .error 5 := by
  simp only [Fl.apply]
  rw [if_neg (by decide), if_pos trivial, if_pos hb]

theorem Fl.owns_iff : (Fl.held w && Fl.ownerDevice w == dev && Fl.ownerIdentity w == ident && Fl.ownerTicket w == t) = true ↔ Fl.Mine w dev ident t := by
  simp [Fl.Mine, and_assoc]

theorem Fl.apply_renew_own (h : Fl.Mine w dev ident t) :
    Fl.apply 0x83 w dev ident t d now spare = .ok (setBits w 64 48 ((now + max 1 d) % 2 ^ 48), flRENEWED) := by
  simp only [Fl.apply]
  rw [if_neg (by decide), if_neg (by decide), if_pos trivial, if_pos (Fl.owns_iff.2 h)]

theorem Fl.apply_renew_other (h : ¬ Fl.Mine w dev ident t) : Fl.apply 0x83 w dev ident t d now spare = .error 6 := by
  simp only [Fl.apply]
  rw [if_neg (by decide), if_neg (by decide), if_pos trivial, if_neg (fun k => h (Fl.owns_iff.1 k))]

/-- R396, R400: a release, by the holder (0x82) or for a reset identity (0x85). -/
theorem Fl.apply_release_own {op : Nat} (hop : op = 0x82 ∨ op = 0x85) (h : Fl.Mine w dev ident t) : Fl.apply op w dev ident t d now spare =
    .ok (Fl.passOn w 0 (if op = 0x85 then 1 else 0) ((now + max 1 d) % 2 ^ 48), flRELEASED) := by
  simp only [Fl.apply]
  rw [if_neg (by omega), if_neg (by omega), if_neg (by omega), if_neg (by omega), if_pos (Fl.owns_iff.2 h), Fl.passOn]

theorem Fl.apply_release_other {op : Nat} (hop : op = 0x82 ∨ op = 0x85) (h : ¬ Fl.Mine w dev ident t) :
    Fl.apply op w dev ident t d now spare = .error 6 := by
  simp only [Fl.apply]
  rw [if_neg (by omega), if_neg (by omega), if_neg (by omega), if_neg (by omega), if_neg (fun k => h (Fl.owns_iff.1 k))]

theorem Fl.apply_break (hl : serialCmp (Fl.lease w) now 48 = .before) (ht : serialCmp (Fl.serving w) (Fl.next w) 32 = .before) :
    Fl.apply 0x84 w dev ident t d now spare = .ok (Fl.passOn w 1 0 ((now + max 1 d) % 2 ^ 48), flBROKEN) := by
  simp only [Fl.apply]
  rw [if_neg (by decide), if_neg (by decide), if_neg (by decide), if_pos trivial, if_neg (by simp [hl]), if_neg (by simp [ht]), Fl.passOn]

theorem Fl.apply_break_leased (hl : serialCmp (Fl.lease w) now 48 ≠ .before) : Fl.apply 0x84 w dev ident t d now spare = .error 7 := by
  simp only [Fl.apply]
  rw [if_neg (by decide), if_neg (by decide), if_neg (by decide), if_pos trivial, if_pos hl]

theorem Fl.apply_break_alone (hl : serialCmp (Fl.lease w) now 48 = .before) (ht : serialCmp (Fl.serving w) (Fl.next w) 32 ≠ .before) :
    Fl.apply 0x84 w dev ident t d now spare = .error 8 := by
  simp only [Fl.apply]
  rw [if_neg (by decide), if_neg (by decide), if_neg (by decide), if_pos trivial, if_neg (by simp [hl]), if_pos ht]

end

end Sys2Proof.Machine
end

section
/-! CELL_OP entries and fabric locks (R389, R396-R403): the commands of the initiator and of the target. -/
namespace Sys2Proof.Machine

/-! ### CELL_OP entries (R401) -/

theorem b2n_beq (x y : Nat) : b2n (x == y) = if x = y then 1 else 0 := by
  by_cases h : x = y
  · simp [h, b2n]
  · simp [h, b2n]

section
variable {s : State} {q : Nat} {v : Sq} {e : Ent} (hst : s.startable q 0x28 = some (v, e)) (hsc : s.cellScope (Cw.cell e.raw) v.owner = true)
include hst hsc

theorem exec_cellAcquire_entry (hop : Cw.op e.raw = 0) : exec (.cellAcquire (.entry q)) s = .next (((s.runEntry q e.ctr 0).setCell (Cw.cell e.raw)
    { s.cell (Cw.cell e.raw) with ents := (s.cell (Cw.cell e.raw)).ents ++ [(v.owner, q, e.ctr)] }).cellAcquire (Cw.cell e.raw) v.owner (Cw.prio e.raw)) :=
  congrArg Host.Outcome.next (State.cellEntry_own _ hst hop hsc)

theorem exec_cellTry_entry (hop : Cw.op e.raw = 1) : ∃ u : State,
    u = (if (s.cell (Cw.cell e.raw)).isFree then s.cellAcquire (Cw.cell e.raw) v.owner (Cw.prio e.raw) else s) ∧
      exec (.cellTry q) s = .next (u.cellDone q e (if (u.cell (Cw.cell e.raw)).owner = v.owner then 1 else 0)) :=
  ⟨_, rfl, by
    rw [← b2n_beq]
    exact congrArg Host.Outcome.next (State.cellEntry_own _ hst hop hsc)⟩

theorem exec_cellWithdraw_entry (hop : Cw.op e.raw = 3) :
    exec (.cellWithdraw (.entry q)) s = .next ((s.cellWithdraw (Cw.cell e.raw) v.owner).cellDone q e 0) :=
  congrArg Host.Outcome.next (State.cellEntry_own _ hst hop hsc)

end

/-! ### The initiator's commands (R399, R401, R403) -/

/-- R403: the write of LCK_FL_CMD starts operation `op`, with the request `k`, from the state `u`. -/
def State.flCmdReady (s u : State) (req : Requester) (op : Nat) (k : FlAsk) : Prop :=
  req.mgmt = true ∧ s.g Reg.LCK_FL_CMD_STATUS.busy = 0 ∧ s.mode ≠ .fenced ∧ s.mode ≠ .off ∧ s.live = true ∧
    ∃ w p, w = s.put Reg.LCK_FL_CMD.opcode op ∧ k = w.flCmdAsk req.identity ∧ k.offset % 32 = 0 ∧ k.offset + 32 ≤ 2 ^ 48 ∧ k.target < 2 ^ 36 ∧
      w.ep? k.ep = some p ∧ p.destroying = false ∧
      u = ({ w with lck := { w.lck with cmdBy := req.identity } }).put Reg.LCK_FL_CMD_STATUS.busy 1

theorem State.flCommand_ready {s u : State} {req : Requester} {op : Nat} {k : FlAsk} (hop : 0x29 ≤ op ∧ op ≤ 0x2C) (h : s.flCmdReady u req op k)
    (go : State → FlAsk → State) : s.flCommand req op go = go u k := by
  obtain ⟨hmgmt, hbusy, hf, ho, hlive, w, p, rfl, rfl, halign, hend, htarget, hep, hd, rfl⟩ := h
  rw [State.flCommand, if_neg (by simp [hf, ho]), if_neg (by simp [hmgmt, hbusy])]
  dsimp only
  rw [if_neg (by simp [hlive]), if_neg (by omega), if_neg (by omega), if_neg (not_not.2 (Nat.div_eq_of_lt htarget))]
  simp only [hep]
  rw [if_neg (by simp [hd])]

/-- R403: a write from outside the management identities, or while busy. -/
theorem State.flCommand_discarded {s : State} {req : Requester} (op : Nat) (go : State → FlAsk → State)
    (h : req.mgmt = false ∨ s.g Reg.LCK_FL_CMD_STATUS.busy = 1) : s.flCommand req op go = s := by
  rw [State.flCommand]
  split
  · rfl
  · exact if_pos (h.imp (by simp [·]) id)

/-- R399, R403: operation `op` starts, by an entry or by LCK_FL_CMD, with the request `k`, from the state `u`. -/
structure State.FlStarts (s u : State) (via : FlVia) (op : Nat) (k : FlAsk) : Prop where
  entry : ∀ q, via = .entry q → ∃ v e, s.startable q op = some (v, e) ∧ u = s.runEntry q e.ctr 0 ∧ k = e.flAsk q v
  cmd : ∀ req, via = .cmd req → s.flCmdReady u req op k

theorem State.flStart_of {s u : State} {via : FlVia} {op : Nat} {k : FlAsk} (h : s.FlStarts u via op k) (hop : 0x29 ≤ op ∧ op ≤ 0x2C)
    (go : State → FlAsk → State) : s.flStart via op go = go u k := by
  cases via with
  | cmd req => exact State.flCommand_ready hop (h.cmd req rfl) go
  | entry q =>
    obtain ⟨v, e, hst, rfl, rfl⟩ := h.entry q rfl
    simp only [State.flStart, hst]

theorem exec_flAcquire {s u : State} {via : FlVia} {k : FlAsk} (h : s.FlStarts u via 0x29 k) :
    exec (.flAcquire via) s = .next (u.flAcquire k).settle :=
  congrArg (fun t => Host.Outcome.next (State.settle t)) (State.flStart_of h (by decide) _)

theorem exec_flRelease {s u : State} {via : FlVia} {k : FlAsk} (h : s.FlStarts u via 0x2A k) :
    exec (.flRelease via) s = .next (u.flOnHeld k 0x82).settle :=
  congrArg (fun t => Host.Outcome.next (State.settle t)) (State.flStart_of h (by decide) _)

theorem exec_flRenew {s u : State} {via : FlVia} {k : FlAsk} (h : s.FlStarts u via 0x2B k) :
    exec (.flRenew via) s = .next (u.flOnHeld k 0x83).settle :=
  congrArg (fun t => Host.Outcome.next (State.settle t)) (State.flStart_of h (by decide) _)

theorem exec_flBreak {s u : State} {via : FlVia} {k : FlAsk} (h : s.FlStarts u via 0x2C k) :
    exec (.flBreak via) s = .next (u.flBreak k).settle :=
  congrArg (fun t => Host.Outcome.next (State.settle t)) (State.flStart_of h (by decide) _)

theorem exec_flCommand_discarded {s : State} {req : Requester} {c : Instr}
    (hc : c ∈ [Instr.flAcquire (.cmd req), .flRelease (.cmd req), .flRenew (.cmd req), .flBreak (.cmd req)])
    (h : req.mgmt = false ∨ s.g Reg.LCK_FL_CMD_STATUS.busy = 1) : exec c s = .next s.settle := by
  have hnone : ∀ op go, Host.Outcome.next (s.flStart (.cmd req) op go).settle = (.next s.settle : Host.Outcome State Fault Refusal) :=
    fun op go => congrArg (fun t => Host.Outcome.next (State.settle t)) (State.flCommand_discarded op go h)
  simp only [List.mem_cons, List.not_mem_nil, or_false] at hc
  obtain rfl | rfl | rfl | rfl := hc
  · exact hnone 0x29 _
  · exact hnone 0x2A _
  · exact hnone 0x2B _
  · exact hnone 0x2C _

/-- R399: an acquire takes the record that is drawn. -/
theorem State.flAcquire_takes {u n : State} {k : FlAsk} {i : Nat} (h : u.pick 4096 (Tbl.keys u.lck.recs) = (some i, n)) :
    ∃ r : FlRec, r.identity = k.identity ∧ r.ep = k.ep ∧ r.target = k.target ∧ r.key = k.key ∧ r.offset = k.offset ∧ r.holding = false ∧
      r.known = false ∧ r.wait = some (k.q, k.ctr) ∧
      u.flAcquire k = (n.setRec i (some r)).sendFl (.flEntry k.q k.ctr i) (u.epSource k.ep) k.identity k.ep k.target k.key k.offset
        0x80 0 (u.flLease k.d) (k.q == cmdQueue) k.way := by
  refine ⟨_, ?_, ?_, ?_, ?_, ?_, ?_, ?_, ?_, by
    simp only [State.flAcquire, h]
    rfl⟩ <;> rfl

theorem State.flAcquire_none {u n : State} {k : FlAsk} (h : u.pick 4096 (Tbl.keys u.lck.recs) = (none, n)) :
    u.flAcquire k = n.flFinish k.q k.ctr (Res.of stRESOURCE 0) := by simp only [State.flAcquire, h]

theorem State.flOnHeld_some {u : State} {k : FlAsk} {i : Nat} {r : FlRec} (op : Nat) (h : u.flHeld k = some (i, r)) :
    u.flOnHeld k op = u.sendFl (.flEntry k.q k.ctr i) (u.epSource k.ep) k.identity k.ep k.target k.key k.offset op r.ticket
      (u.flLease k.d) (k.q == cmdQueue) k.way := by simp only [State.flOnHeld, h]

theorem State.flOnHeld_none {u : State} {k : FlAsk} (op : Nat) (h : u.flHeld k = none) :
    u.flOnHeld k op = u.flFinish k.q k.ctr (Res.of stSTATE 1) := by simp only [State.flOnHeld, h]

theorem exec_flPollSend {s : State} {i : Nat} {r : FlRec} (hr : s.rec? i = some r) (hlive : s.live = true) (hk : r.known = true)
    (hh : r.holding = false) (hp : r.pollOut = false) (hdue : max 1 (s.g Reg.LCK_FL_CFG.poll) ≤ s.over r.lastPoll) : exec (.flPollSend i) s =
    .next ((s.setRec i (some { r with pollOut := true, lastPoll := s.nowAt })).sendFl (.flPoll i) (r.owner, r.slot) r.identity r.ep r.target r.key
      r.offset 0x81 r.ticket r.d r.viaCmd r.way) := by
  show Host.Outcome.next (s.flPollSend i) = _
  simp only [State.flPollSend, hr]
  rw [if_pos ⟨hlive, hk, by simp [hh], by simp [hp], hdue⟩]

/-! ### A request at the target (R396, R398) -/

theorem State.frontOp_opcode {s : State} {ops : List Nat} {op : Nat} {lane : Arr → Nat} {waits : Arr → Bool} {a : Arr}
    (h : s.frontOp ops op lane waits = some a) : Th.opcode a.th = op := by
  have hfound := List.find?_some h
  simp only [Bool.and_eq_true, beq_iff_eq] at hfound
  exact hfound.1.1

/-- The commands of fabric-lock requests at their target, and their opcodes. -/
def flRxOps (hm : HostView) : List (Instr × Nat) :=
  [(.flTakeRx hm, 0x80), (.flPollRx hm, 0x81), (.flReleaseRx hm, 0x82), (.flRenewRx hm, 0x83), (.flBreakRx hm, 0x84), (.flReleaseAbandonedRx hm, 0x85)]

theorem exec_flRx {s : State} {hm : HostView} {i : Instr} {op : Nat} {a : Arr} (hi : (i, op) ∈ flRxOps hm)
    (ha : s.frontOp rmaOps op Arr.hp s.arrWaits = some a) : exec i s = .next (s.onFl a hm).settle := by
  have hrx : s.flRx op hm = (s.onFl a hm).settle := by simp only [State.flRx, ha]
  rw [← hrx]
  simp only [flRxOps, List.mem_cons, List.not_mem_nil, or_false, Prod.mk.injEq] at hi
  obtain ⟨rfl, rfl⟩ | ⟨rfl, rfl⟩ | ⟨rfl, rfl⟩ | ⟨rfl, rfl⟩ | ⟨rfl, rfl⟩ | ⟨rfl, rfl⟩ := hi <;> rfl

theorem State.onFl_static {s c : State} {hm : HostView} {a : Arr} {d : Desc} {r : Nat} (hc : s.rmaCheck a 4 32 1 false = (c, .ok d))
    (hs : flStatic a d = some r) : s.onFl a hm = c.flRefuse a r := by simp only [State.onFl, hc, hs]

section
variable {s c x : State} {hm : HostView} {a : Arr} {d : Desc} {p n : Nat} {b : Data}
  (hc : s.rmaCheck a 4 32 1 false = (c, .ok d)) (hs : flStatic a d = none)
  (hx : c.xlate a.hp (c.regionReq d (Ds.va d.raw + Rf.offset a.th) 4 a.who) = (x, .pa p n))
  (hl : x.lineHeld a.hp p 32 = false) (ha : x.atomicsAhead a.hp x.rma.nextId = false) (hb : HostView.read hm p 32 = .data b)
include hc hs hx hl ha hb

theorem State.onFl_refused {r : Nat} (hr : Fl.apply (Th.opcode a.th) b.val (Hdr.src a.hdr) (Rf.identity a.th) (a.payload.field 0 0 32)
      (a.payload.field 4 0 32) s.course ((x.hostRead a.hp (c.regionReq d (Ds.va d.raw + Rf.offset a.th) 4 a.who).identity p 32).draw.1 % 6) = .error r) :
    s.onFl a hm = (x.hostRead a.hp (c.regionReq d (Ds.va d.raw + Rf.offset a.th) 4 a.who).identity p 32).flRefuse a r := by
  simp only [State.onFl, hc, hs, hx]
  rw [if_neg (by simp [hl, ha])]
  simp only [hb, hr]

/-- R396: the word is written where it changed, and the reply gives it as it stood. -/
theorem State.onFl_answered {w out : Nat} (hr : Fl.apply (Th.opcode a.th) b.val (Hdr.src a.hdr) (Rf.identity a.th) (a.payload.field 0 0 32)
      (a.payload.field 4 0 32) s.course ((x.hostRead a.hp (c.regionReq d (Ds.va d.raw + Rf.offset a.th) 4 a.who).identity p 32).draw.1 % 6) = .ok (w, out)) :
    ∃ t u : State, t = (((x.hostRead a.hp (c.regionReq d (Ds.va d.raw + Rf.offset a.th) 4 a.who).identity p 32).draw.2.takeArr a).bump
        Ctr.LCK_FL_OP_COUNT).bumpIf (Th.opcode a.th = 0x84) Ctr.LCK_FL_BREAK_COUNT ∧
      u = (if w = b.val then t else t.hostWrite a.hp (c.regionReq d (Ds.va d.raw + Rf.offset a.th) 4 a.who).identity p ⟨32, Fl.clean w⟩) ∧
      s.onFl a hm = (u.onRma (fun r => { r with nextId := u.rma.nextId + 1, results := Tbl.ins r.results u.rma.nextId b.val })).answer a
        (.atomic u.rma.nextId) 0x88 32 (packB [(0, 24, a.psn), (3, 8, a.gen), (4, 8, out)]) (.bytes ⟨32, b.val⟩) := by
  refine ⟨_, _, rfl, rfl, ?_⟩
  simp only [State.onFl, hc, hs, hx]
  rw [if_neg (by simp [hl, ha])]
  simp only [hb, hr]

end

/-! ### A reply at the initiator (R399) -/

section
variable {s : State} {a : Arr} {n : Nat} {o : Op} {q : Nat} {ctr : RingCtr} {i : Nat}
  (hf : s.front [0x88] = some a) (hreq : s.requestOf a (Th.at_ a.th 19 0 24) (Th.at_ a.th 22 0 8) = some (n, o)) (hd : o.done = none)
  (horigin : o.origin = .flEntry q ctr i)
include hf hreq hd

theorem exec_flReplyRx : exec .flReplyRx s =
    .next ((s.takeArr a).flReply n o (Th.at_ a.th 23 0 8) (a.payload.val % 2 ^ 256)).settle := by
  show execFlReplyRx s = _
  simp only [execFlReplyRx, hf, State.onFlReply, hreq, hd]
  rw [if_neg (by simp)]

end

theorem State.flReply_taken {s : State} {n : Nat} {o : Op} {q : Nat} {ctr : RingCtr} {i out w : Nat} {r : FlRec} (horigin : o.origin = .flEntry q ctr i)
    (hop : o.opcode = 0x80) (hr : s.rec? i = some r) : s.flReply n o out w =
      if out = flGRANTED then (s.delOp n).flGranted i r (Fl.next w) w
      else (s.delOp n).setRec i (some { r with known := true, ticket := Fl.next w, pollOut := false }) := by
  simp only [State.flReply, horigin, hr]
  rw [if_pos hop]

theorem State.flReply_released {s : State} {n : Nat} {o : Op} {q : Nat} {ctr : RingCtr} {i out w : Nat} {d : Data} (horigin : o.origin = .flEntry q ctr i)
    (hop : o.opcode = 0x82) (hp : o.pay = .bytes d) :
    s.flReply n o out w = ((s.delOp n).setRec i none).flFinish q ctr (flRes (bits d.val 0 32) w) := by
  simp only [State.flReply, horigin, hp]
  rw [if_neg (by omega), if_pos hop, if_neg (by omega)]

theorem State.rec?_takeArr (s : State) (a : Arr) (i : Nat) : (s.takeArr a).rec? i = s.rec? i := rfl

/-! ### The obligation -/

/-- R396: what the obligation says of a claimed word. -/
theorem Fl.claimed_fields {w dev ident t lease : Nat} (hdev : dev < 2 ^ 20) (hident : ident < 2 ^ 12) (ht : t < 2 ^ 32) (hl : lease < 2 ^ 48) {x : Nat}
    (hx : Fl.claim w dev ident t lease = x) : Fl.held x = true ∧ Fl.ownerDevice x = dev ∧ Fl.ownerIdentity x = ident ∧ Fl.ownerTicket x = t ∧
      Fl.lease x = lease ∧ Fl.broken x = false ∧ Fl.abandoned x = false ∧ Fl.serving x = Fl.serving w := by
  have hmine := Fl.mine_claim w dev ident t lease hdev hident ht
  have hflags := Fl.flags_claim w dev ident t lease
  have hlease := Fl.lease_claim w dev ident t lease
  have hserving := Fl.serving_claim w dev ident t lease
  rw [hx] at hmine hflags hlease hserving
  obtain ⟨hheld, hdevice, hidentity, hticket⟩ := hmine
  obtain ⟨-, hbroken, habandoned⟩ := hflags
  exact ⟨hheld, hdevice, hidentity, hticket, by rw [hlease, Nat.mod_eq_of_lt hl], hbroken, habandoned, hserving⟩

/-- R396: what the obligation says of a word with the lock passed on. -/
theorem Fl.passed_fields {w lease broken abandoned : Nat} (hb : broken < 2) (ha : abandoned < 2) (hl : lease < 2 ^ 48) {x : Nat}
    (hx : Fl.passOn w broken abandoned lease = x) : Fl.held x = false ∧ Fl.serving x = (Fl.serving w + 1) % 2 ^ 32 ∧ Fl.next x = Fl.next w ∧
      Fl.lease x = lease ∧ Fl.broken x = (broken == 1) ∧ Fl.abandoned x = (abandoned == 1) := by
  obtain ⟨hserving, hnext, hlease⟩ := Fl.fields_passOn w broken abandoned lease
  obtain ⟨hheld, hbroken, habandoned⟩ := Fl.flags_passOn w lease hb ha
  rw [hx] at hserving hnext hlease hheld hbroken habandoned
  exact ⟨hheld, hserving, hnext, by rw [hlease, Nat.mod_eq_of_lt hl], hbroken, habandoned⟩

/-- Settles O49: the commands of cells and locks by their equations, and the operations on the word by what they write. -/
theorem fabricLocks : Obligations.FabricLocks := by
  refine ⟨⟨fun s q v e c hst hc hsc => ?cells, fun s u via op k hentry hcmd => ?starts, fun s req c hc h => exec_flCommand_discarded hc h,
      fun s i r hr hlive hk hh hp hdue => exec_flPollSend hr hlive hk hh hp hdue, fun s o x n ep tg key off op tk d b w => ?sends⟩,
    ⟨fun s c x y hm a d q p n b i op hi ha hc hs hq hx hl hat hb hy => ?target, fun s hm a d c i op r hi ha hc hs => ?static,
      fun s a n o q ctr i out w hf hreq hd horigin hout hw => ?reply, fun w dev ident t d now spare hw hdev hident ht hd hnow => ?word⟩⟩
  case cells =>
    subst hc
    exact ⟨exec_cellAcquire_entry hst hsc, exec_cellTry_entry hst hsc, exec_cellWithdraw_entry hst hsc⟩
  case starts =>
    have h : s.FlStarts u via op k := ⟨hentry, hcmd⟩
    refine ⟨fun hop => ?acquire, fun hop => ?held, fun hop => ?brk⟩
    case acquire =>
      subst hop
      refine ⟨fun i n hn => ?_, fun n hn => by rw [exec_flAcquire h, State.flAcquire_none hn]⟩
      obtain ⟨r, h1, h2, h3, h4, h5, h6, h7, h8, heq⟩ := State.flAcquire_takes hn
      exact ⟨r, h1, h2, h3, h4, h5, h6, h7, h8, by rw [exec_flAcquire h, heq]⟩
    case held =>
      refine ⟨_, _, rfl, rfl, ?_⟩
      obtain rfl | rfl := hop
      · exact ⟨fun i r hr => by rw [if_pos rfl, if_pos rfl, exec_flRelease h, State.flOnHeld_some _ hr],
          fun hr => by rw [if_pos rfl, exec_flRelease h, State.flOnHeld_none _ hr]⟩
      · exact ⟨fun i r hr => by rw [if_neg (by decide), if_neg (by decide), exec_flRenew h, State.flOnHeld_some _ hr],
          fun hr => by rw [if_neg (by decide), exec_flRenew h, State.flOnHeld_none _ hr]⟩
    case brk =>
      subst hop
      rw [exec_flBreak h, State.flBreak]
  case sends => exact ⟨_, rfl, rfl, rfl, rfl, rfl, rfl, rfl, rfl, rfl, rfl, rfl⟩
  case target =>
    have hop : Th.opcode a.th = op := State.frontOp_opcode ha
    subst hq hy hop
    rw [exec_flRx hi ha]
    refine ⟨fun r hr => by rw [State.onFl_refused hc hs hx hl hat hb hr], fun w out hr => ?_⟩
    obtain ⟨t, u, ht, hu, heq⟩ := State.onFl_answered hc hs hx hl hat hb hr
    exact ⟨t, u, ht, hu, by rw [heq]⟩
  case static => rw [exec_flRx hi ha, State.onFl_static hc hs]
  case reply =>
    have hrec : ∀ r, s.rec? i = some r → (s.takeArr a).rec? i = some r := fun r hr => (s.rec?_takeArr a i).trans hr
    refine ⟨_, rfl, ?_⟩
    rw [exec_flReplyRx hf hreq hd, ← hout, ← hw]
    refine ⟨fun r hop hr hg => by rw [State.flReply_taken horigin hop (hrec r hr), if_pos hg],
      fun r hop hr hg => by rw [State.flReply_taken horigin hop (hrec r hr), if_neg hg], fun d hop hp => by rw [State.flReply_released horigin hop hp]⟩
  case word =>
    intro lease mine claimed passed is
    have hlease : lease < 2 ^ 48 := Nat.mod_lt _ (by decide)
    have hticket := Fl.fields_ticket w (Fl.next w + 1)
    refine ⟨fun hn hfree => ⟨_, Fl.apply_take_free d now spare hn hfree, ?take⟩, fun h => ⟨_, Fl.apply_take_waits d now spare h, hticket⟩,
      fun hb hs hfree => ⟨_, Fl.apply_poll_claims d now spare hb hs hfree, ⟨Fl.claimed_fields hdev hident ht hlease rfl, Fl.next_claim ..⟩⟩,
      fun hb hs => ⟨w, ?passed, rfl⟩, fun hb hs => ⟨w, ?waits, rfl⟩, fun hb => Fl.apply_poll_unknown d now spare hb, fun hm => ?mine,
      fun hm => ⟨Fl.apply_release_other d now spare (.inl rfl) hm, Fl.apply_renew_other d now spare hm,
        Fl.apply_release_other d now spare (.inr rfl) hm⟩,
      fun hl hs => ⟨_, Fl.apply_break d now spare hl hs, Fl.passed_fields (by decide) (by decide) hlease rfl⟩,
      fun hl => Fl.apply_break_leased d now spare hl, fun hl hs => Fl.apply_break_alone d now spare hl hs⟩
    case take =>
      have hclaimed := Fl.claimed_fields (w := setBits w 0 32 (Fl.next w + 1)) hdev hident (bits_lt w 0 32) hlease rfl
      obtain ⟨hnext, -, hserving, -⟩ := hticket
      rw [hserving] at hclaimed
      exact ⟨hclaimed, (Fl.next_claim ..).trans hnext⟩
    case passed => rw [Fl.apply_poll_later d now spare hb (by simp [hs]), if_pos hs]
    case waits => rw [Fl.apply_poll_later d now spare hb (by simp [hs]), if_neg (by simp [hs])]
    case mine =>
      obtain ⟨hnew, hheld, hrest⟩ := Fl.fields_renew w lease
      exact ⟨⟨_, Fl.apply_release_own d now spare (.inl rfl) hm, Fl.passed_fields (by decide) (by decide) hlease rfl⟩,
        ⟨_, Fl.apply_release_own d now spare (.inr rfl) hm, Fl.passed_fields (by decide) (by decide) hlease rfl⟩,
        ⟨_, Fl.apply_renew_own d now spare hm, hnew.trans (Nat.mod_eq_of_lt hlease), hheld.trans hm.1, hrest⟩⟩

end Sys2Proof.Machine
end

section
/-! Fault banks (R464-R471): a latching event, the clearing of a status bit, the force bits, and the commands of the banks' registers. -/
namespace Sys2Proof.Machine

/-! ### A latching event (R465, R467, R468) -/

theorem State.bank_of_stays {w : List Sys2Proof.Part} {s t : State} (h : Stays w s t) (hw : ¬ Sys2Proof.Part.banks ∈ w) (code : Nat) :
    t.bank code = s.bank code := by rw [State.bank, State.bank, h.banks hw]

@[simp] theorem State.bank_setSrc (s : State) (g : Nat) (x : Src) (code : Nat) : (s.setSrc g x).bank code = s.bank code := rfl

@[simp] theorem State.src_setBank (s : State) (code : Nat) (b : Bank) (g : Nat) : (s.setBank code b).src g = s.src g := rfl

/-- R465 steps 1 and 2: a source after a latching event; `back` are the record bits that were cleared in this very cycle. -/
def Src.latched (x : Src) (back : Bool × Bool) (now : Nat) (forced severe : Bool) : Src :=
  { x with status := true, recForced := x.recForced || forced || back.2,
           recReal := x.recReal || (x.force && !forced && !severe) || back.1, seq := x.seq + 1, evAt := some (now, forced) }

/-- R465 step 3: the cause that a latching event gives. -/
def State.causeOf (s : State) (b : BlkDef) (l g cond obj : Nat) (forced severe : Bool) : FltCause :=
  { forced := forced, severe := severe, cls := srcClass b.code l, condition := cond, source := g, object := obj % 2 ^ 24, time := s.now, beat := s.cycles }

/-- R465: the sources and the banks after a latching event; the event itself touches neither. -/
theorem State.latchEvent_banks {s : State} {g : Nat} {b : BlkDef} {l : Nat} (hg : srcBlock g = some (b, l)) (cond obj : Nat) (owner : Option Nat)
    (detail : Nat) (forced severe mute : Bool) : ∃ back, ∃ t : State,
      t = (s.setSrc g ((s.src g).latched back s.cycles forced severe)).setBank b.code ((s.bank b.code).take s.cycles (s.causeOf b l g cond obj forced severe)) ∧
      (∀ k, (s.latchEvent g cond obj owner detail forced severe mute).src k = t.src k) ∧
      ∀ k, (s.latchEvent g cond obj owner detail forced severe mute).bank k = t.bank k := by
  refine ⟨((s.src g).clrAt.filter (fun c => c.1 == s.cycles)).elim (false, false) (fun c => c.2), _, rfl, ?_⟩
  simp only [State.latchEvent, hg]
  split
  · exact ⟨State.src_of_stays (State.eqPost_stays _ _ (Has.refl _) (Stays.refl _)) (by decide),
      State.bank_of_stays (State.eqPost_stays _ _ (Has.refl _) (Stays.refl _)) (by decide)⟩
  · exact ⟨fun _ => rfl, fun _ => rfl⟩

section
variable {b : Bank} {now : Nat} {c : FltCause}

/-- R467: the cause that was released in this very cycle is back. -/
theorem Bank.take_kept {f : Nat × FltCause} (h : b.freed.filter (fun f => f.1 == now && f.2.source == c.source) = some f) :
    b.take now c = { b with cause := some f.2, freed := none, count := b.count + (if b.cause.isSome then 2 else 1) } := by
  simp only [Bank.take, h]

theorem Bank.take_free (h : b.freed.filter (fun f => f.1 == now && f.2.source == c.source) = none) (hc : b.cause = none) :
    b.take now c = { b with cause := some c } := by simp only [Bank.take, h, hc]

/-- R468: of the events of one cycle the lowest source, then the lowest condition, keeps the cause. -/
theorem Bank.take_counts (h : b.freed.filter (fun f => f.1 == now && f.2.source == c.source) = none) {o : FltCause} (hc : b.cause = some o) :
    b.take now c = { b with
      cause := some (if o.beat = now ∧ (decide (c.source < o.source) || (c.source == o.source && decide (c.condition < o.condition))) = true then c else o),
      count := b.count + 1 } := by simp only [Bank.take, h, hc]

end

/-! ### Two events of one source in a cycle (R470) -/

/-- R470: real and forced, the two are one event that counts as real. -/
theorem State.mergeEvent_eq {s : State} {g : Nat} {b : BlkDef} {l : Nat} (hg : srcBlock g = some (b, l)) : s.mergeEvent g =
    (s.setSrc g { s.src g with recReal := true, recForced := true, evAt := some (s.cycles, false) }).setBank b.code
      { s.bank b.code with cause := (s.bank b.code).cause.map (fun c => if c.source = g ∧ c.beat = s.cycles then { c with forced := false } else c) } := by
  simp only [State.mergeEvent, hg]

theorem State.latch_meets {s : State} {g : Nat} (cond obj : Nat) (owner : Option Nat) (detail : Nat) (h : s.meets g true = true) :
    s.latch g cond obj owner detail true = s.mergeEvent g := by
  rw [State.latch, if_pos h, if_pos rfl]

/-! ### Clearing a status bit (R466, R467) -/

/-- R467: a source after its status bit has been cleared. -/
def Src.cleared (x : Src) (now : Nat) : Src :=
  { x with status := false, recReal := false, recForced := false, clrAt := some (now, x.recReal, x.recForced) }

section
variable {s : State} {code l : Nat}

theorem State.clearStatus_held (h : s.liveBit (bankSrc code l) = true ∨ (s.src (bankSrc code l)).evAt.map Prod.fst = some s.cycles) :
    s.clearStatus code l = s := if_pos h

theorem State.clearStatus_sources (hlive : s.liveBit (bankSrc code l) = false)
    (hev : (s.src (bankSrc code l)).evAt.map Prod.fst ≠ some s.cycles) (k : Nat) :
    (s.clearStatus code l).src k = (s.setSrc (bankSrc code l) ((s.src (bankSrc code l)).cleared s.cycles)).src k := by
  rw [State.clearStatus]
  dsimp only
  rw [if_neg (by simp only [hlive, Bool.false_eq_true, false_or]; exact hev)]
  split
  · split <;> rfl
  · rfl

/-- R467: the cause that names the source is released. -/
theorem State.clearStatus_cause (hlive : s.liveBit (bankSrc code l) = false)
    (hev : (s.src (bankSrc code l)).evAt.map Prod.fst ≠ some s.cycles) {c : FltCause} (hc : (s.bank code).cause = some c) :
    ((s.clearStatus code l).bank code).cause = if c.source = bankSrc code l then none else some c := by
  rw [State.clearStatus]
  dsimp only
  rw [if_neg (by simp only [hlive, Bool.false_eq_true, false_or]; exact hev)]
  simp only [hc]
  split
  · rw [State.bank_setBank_self]
  · exact hc

end

/-! ### The banks' registers (R466, R469) -/

theorem bankOff_aligned (code : Nat) {o : Nat} (h : o % 4 = 0) : bankOff code o % 4 = 0 := by
  have hbase : ∀ b ∈ blocks, b.base % 4 = 0 := by decide
  rw [bankOff]
  split
  next b hb =>
    have := hbase b (List.mem_of_find?_eq_some hb)
    omega
  · rfl

/-- A write of a bank's word that lies under no lock, by a party that may write any register. -/
theorem State.access_bank {s : State} {req : Requester} {code o : Nat} (v : Nat) (h : Sys2Proof.mayConfigure s req (bankOff code o))
    (hl : isBank (locPf (bankOff code o)) code o = true) (h4 : o % 4 = 0) (hk : bankLocked o = false) :
    s.access req (bankOff code o) v = (s.bankWrite code o (bits v 0 32)).settle := by
  obtain ⟨ha, hp, hf, hs⟩ := h
  have hv := vfOf_privileged hp
  have hb : bar0Off req (bankOff code o) = bankOff code o := by simp only [bar0Off, hv]
  have hloc : s.loc req (bankOff code o) = .bank code o := by
    simp only [State.loc, hs, hv]
    exact isBank_elim hl
  have hok : s.accessOk req (bankOff code o) 4 = true := by simp [State.accessOk, bankOff_aligned code h4]
  simp only [State.access, ha, State.barWrite, hb, hloc, State.locWrite]
  rw [if_pos trivial, if_neg (by simp [hok]), if_neg (by simp [hf]), if_neg (by decide), if_neg (by simp [hp]), if_neg (by simp [hk])]

theorem State.bankWrite_status (s : State) (code v : Nat) {k : Nat} (hk : k < 32) :
    s.bankWrite code (0x100 + 4 * k) v = s.statusWrite code k v := by
  rw [State.bankWrite, if_neg (by omega), if_neg (by omega), if_pos (by omega), show (0x100 + 4 * k - 0x100) / 4 = k by omega]

theorem State.bankWrite_force (s : State) (code v : Nat) {k : Nat} (hk : k < 32) :
    s.bankWrite code (0x200 + 4 * k) v = s.forceWrite code k v := by
  rw [State.bankWrite, if_neg (by omega), if_neg (by omega), if_neg (by omega), if_pos (by omega), show (0x200 + 4 * k - 0x200) / 4 = k by omega]

theorem bits_word (v : Nat) : bits v 0 32 = v % 2 ^ 32 := by rw [bits, Nat.shiftRight_zero]

section
variable {s : State} {req : Requester} {code k : Nat} (v : Nat) (h0 : 0 < code) (hc : code < 18) (hk : k < 32)
include h0 hc hk

theorem exec_faultStatusClear (h : Sys2Proof.mayConfigure s req (bankOff code (0x100 + 4 * k))) :
    exec (.faultStatusClear req code k v) s = .next (s.statusWrite code k (v % 2 ^ 32)).settle := by
  have hlock : bankLocked (0x100 + 4 * k) = false := by simp [bankLocked]; omega
  show execFaultStatusClear req code k v s = _
  rw [execFaultStatusClear, if_pos hk, State.access_bank v h (locPf_bankStatus code k hc h0 hk) (by omega) hlock, s.bankWrite_status code _ hk, bits_word]

theorem exec_faultForce (h : Sys2Proof.mayConfigure s req (bankOff code (0x200 + 4 * k))) :
    exec (.faultForce req code k v) s = .next (s.forceWrite code k (v % 2 ^ 32)).settle := by
  have hlock : bankLocked (0x200 + 4 * k) = false := by simp [bankLocked]; omega
  show execFaultForce req code k v s = _
  rw [execFaultForce, if_pos hk, State.access_bank v h (locPf_bankForce code k hc h0 hk) (by omega) hlock, s.bankWrite_force code _ hk, bits_word]

end

/-! ### A force bit (R469) -/

theorem Tbl.ins_ins {α : Type} (t : Tbl α) (a : Nat) (v w : α) : Tbl.ins (Tbl.ins t a v) a w = Tbl.ins t a w := by
  induction t with
  | nil => simp [Tbl.ins]
  | cons e t ih =>
    obtain ⟨k, x⟩ := e
    rw [Tbl.ins, Tbl.ins]
    by_cases hlt : a < k
    · simp [hlt, Tbl.ins]
    · by_cases hk : k = a
      · simp [hk, Tbl.ins]
      · simp [hlt, hk, Tbl.ins, ih]

theorem Src.force_reset (g : Nat) : (Src.reset g).force = false := by
  unfold Src.reset
  split <;> rfl

theorem State.setSrc_forced (s : State) {g : Nat} {x y : Src} (hx : x.force = true) (hy : y.force = true) :
    (s.setSrc g x).setSrc g y = s.setSrc g y := by
  have hlisted : ∀ z : Src, z.force = true → z ≠ Src.reset g := fun z hz h => by
    rw [h, Src.force_reset] at hz
    exact nomatch hz
  simp only [State.setSrc, Tbl.put, if_neg (hlisted x hx), if_neg (hlisted y hy), Tbl.ins_ins]

section
variable {s : State} {code l : Nat}

theorem State.forceBit_same {v : Bool} (h : (s.src (bankSrc code l)).force = v) : s.forceBit code l v = s := if_pos h

/-- R469: a pulse source has its event in the next cycle. -/
theorem State.forceBit_pulse (hf : (s.src (bankSrc code l)).force = false) (hl : srcLevel code l = false) :
    ∃ x, s.forceBit code l true = s.setSrc (bankSrc code l) x ∧ x.due = true ∧ x.force = true ∧ x.status = (s.src (bankSrc code l)).status := by
  refine ⟨{ s.src (bankSrc code l) with force := true, recReal := (s.src (bankSrc code l)).recReal || (true && (s.src (bankSrc code l)).real), due := true },
    ?_, rfl, rfl, rfl⟩
  rw [State.forceBit]
  dsimp only
  rw [if_neg (by simp [hf]), if_pos rfl, if_pos (by simp [hl]), State.src_setSrc_self]
  exact s.setSrc_forced rfl rfl

/-- R469: the condition of a level source is there at once. -/
theorem State.forceBit_level (hf : (s.src (bankSrc code l)).force = false) (hl : srcLevel code l = true) (hr : (s.src (bankSrc code l)).real = false) :
    s.forceBit code l true = (s.setSrc (bankSrc code l) { s.src (bankSrc code l) with force := true }).forcedEvent code l := by
  rw [State.forceBit]
  dsimp only
  rw [if_neg (by simp [hf]), if_pos rfl, if_neg (by simp [hl]), if_neg (by simp [hr]), hr, Bool.and_false, Bool.or_false]

/-- R469: the condition of the source was there already. -/
theorem State.forceBit_present (hf : (s.src (bankSrc code l)).force = false) (hl : srcLevel code l = true) (hr : (s.src (bankSrc code l)).real = true) :
    ∃ x, s.forceBit code l true = s.setSrc (bankSrc code l) x ∧ x.recReal = true ∧ x.force = true ∧ x.status = (s.src (bankSrc code l)).status := by
  refine ⟨{ s.src (bankSrc code l) with force := true, recReal := (s.src (bankSrc code l)).recReal || (true && (s.src (bankSrc code l)).real) },
    ?_, by simp [hr], rfl, rfl⟩
  rw [State.forceBit]
  dsimp only
  rw [if_neg (by simp [hf]), if_pos rfl, if_neg (by simp [hl]), if_pos hr]

theorem State.forceBit_off (hf : (s.src (bankSrc code l)).force = true) (hc : code ≠ 3) :
    ∃ x, s.forceBit code l false = s.setSrc (bankSrc code l) x ∧ x.force = false ∧ x.status = (s.src (bankSrc code l)).status := by
  refine ⟨{ s.src (bankSrc code l) with force := false, recReal := (s.src (bankSrc code l)).recReal || (false && (s.src (bankSrc code l)).real) },
    ?_, rfl, rfl⟩
  rw [State.forceBit]
  dsimp only
  rw [if_neg (by simp [hf]), if_neg (by decide), if_neg (by simp [hc])]

end

/-! ### Forced events (R468, R471) -/

theorem State.forceTick_one {s : State} {g l : Nat} {b : BlkDef} (hg : srcBlock g = some (b, l))
    (h : s.srcs.filter (fun e => e.2.due) = [(g, s.src g)]) : s.forceTick = (s.setSrc g { s.src g with due := false }).forcedEvent b.code l := by
  simp only [State.forceTick, h, List.foldl_cons, List.foldl_nil, hg]

section
variable {s t : State} {code l : Nat} (hm : s.meets (bankSrc code l) true = false)
  (ht : t = s.latch (bankSrc code l) 0 (s.bank code).object (s.objOwner code l (s.bank code).object) 0 true)
include hm ht

/-- R471: a forced event whose consequence is suppressed, or that has none. -/
theorem State.forcedEvent_alone (h : (s.bank code).act = false ∨ srcActs code l = false) : s.forcedEvent code l = t := by
  simp only [State.forcedEvent, hm, ← ht]
  rw [if_neg (by decide), if_pos (by
    rcases h with h | h
    · simp [h]
    · simp [h])]

/-- R471: the consequence waits for its object. -/
theorem State.forcedEvent_waits (ha : (s.bank code).act = true) (hs : srcActs code l = true) (hw : srcWaits code l = true) :
    s.forcedEvent code l = t.setSrc (bankSrc code l) { t.src (bankSrc code l) with pend := true } := by
  simp only [State.forcedEvent, hm, ← ht]
  rw [if_neg (by decide), if_neg (by simp [ha, hs]), if_pos hw]

/-- R471: the consequence takes effect on the object FLT_INJECT names. -/
theorem State.forcedEvent_acts (ha : (s.bank code).act = true) (hs : srcActs code l = true) (hw : srcWaits code l = false) {u : State}
    (hu : t.forcedOn code l (s.bank code).object = some u) : s.forcedEvent code l = u := by
  simp only [State.forcedEvent, hm, ← ht, hu]
  rw [if_neg (by decide), if_neg (by simp [ha, hs]), if_neg (by simp [hw])]

/-- R471: there is no such object. -/
theorem State.forcedEvent_misses (ha : (s.bank code).act = true) (hs : srcActs code l = true) (hw : srcWaits code l = false)
    (hu : t.forcedOn code l (s.bank code).object = none) : s.forcedEvent code l = t.setBank code { t.bank code with miss := true } := by
  simp only [State.forcedEvent, hm, ← ht, hu]
  rw [if_neg (by decide), if_neg (by simp [ha, hs]), if_neg (by simp [hw])]

end

theorem exec_forcedConsequence {s t : State} {g l obj : Nat} {b : BlkDef} (hg : srcBlock g = some (b, l)) (hp : (s.src g).pend = true)
    (ht : s.forcedNext b.code l obj = some t) : exec (.forcedConsequence g obj) s = .next (t.setSrc g { t.src g with pend := false }).settle := by
  show execForcedConsequence g obj s = _
  simp only [execForcedConsequence, hg, ht]
  rw [if_pos hp]

theorem exec_forcedConsequence_none {s : State} {g : Nat} (obj : Nat) (hp : (s.src g).pend = false) :
    exec (.forcedConsequence g obj) s = .next s := by
  show execForcedConsequence g obj s = _
  rw [execForcedConsequence]
  split
  · rw [if_neg (by simp [hp])]
  · rfl

/-- Settles O53: what each of R465, R467 and R470 makes of the sources and banks, and the commands by their equations. -/
theorem faultBanksAndCommands : Obligations.FaultBanksAndCommands := by
  refine ⟨⟨fun s g cond obj det own frc sev b l hg => ?latches, fun s g cond obj det own b l hg hm => ⟨_, rfl, ?merges⟩,
      fun s code l hlive hev => ⟨_, rfl, ?clears⟩, fun s code l h => State.clearStatus_held h⟩,
    ⟨fun s req code k v h0 hc hk => ⟨exec_faultStatusClear v h0 hc hk, exec_faultForce v h0 hc hk⟩, fun s code l g hg hf => ?forces,
      fun s code l hf hc => State.forceBit_off hf hc, fun s code l v h => State.forceBit_same h, fun s g l b hg h => State.forceTick_one hg h,
      fun s h => State.forceTick_quiet h, fun s code l t hm ht => ⟨State.forcedEvent_alone hm ht, State.forcedEvent_waits hm ht, fun ha hs hw =>
        ⟨fun u => State.forcedEvent_acts hm ht ha hs hw, State.forcedEvent_misses hm ht ha hs hw⟩⟩,
      fun s t g l obj b hg hp ht => exec_forcedConsequence hg hp ht, fun s g obj hp => exec_forcedConsequence_none obj hp⟩⟩
  case latches =>
    intro t kept
    obtain ⟨back, u, hu, hsrc, hbank⟩ := State.latchEvent_banks (s := s) hg cond obj own det frc sev false
    have hg' : t.src g = (s.src g).latched back s.cycles frc sev := by rw [hsrc, hu, State.src_setBank, State.src_setSrc_self]
    have hb' : t.bank b.code = (s.bank b.code).take s.cycles (s.causeOf b l g cond obj frc sev) := by rw [hbank, hu, State.bank_setBank_self]
    refine ⟨by rw [hg']; rfl, by rw [hg']; rfl, by rw [hg']; rfl, fun hfrc => by rw [hg']; simp [Src.latched, hfrc],
      fun k hk => by rw [hsrc, hu, State.src_setBank, State.src_setSrc_ne _ _ hk],
      fun k hk => by rw [hbank, hu, State.bank_setBank_ne _ _ hk, State.bank_setSrc], fun hkept hc => ?first, fun o hkept hc => ?more, fun f hkept => ?back⟩
    case first =>
      rw [hb', Bank.take_free hkept hc]
      exact ⟨_, rfl, rfl, rfl, rfl, rfl, rfl, rfl, rfl, rfl⟩
    case more =>
      rw [hb', Bank.take_counts hkept hc]
      refine ⟨rfl, fun h => congrArg some (if_neg ?_), fun hbeat h => ⟨_, congrArg some (if_pos ⟨hbeat, ?_⟩), rfl, rfl⟩⟩
      · rintro ⟨hbeat, hlow⟩
        simp only [Bool.or_eq_true, Bool.and_eq_true, decide_eq_true_eq, beq_iff_eq] at hlow
        simp only [State.causeOf] at hlow
        omega
      · simp only [Bool.or_eq_true, Bool.and_eq_true, decide_eq_true_eq, beq_iff_eq]
        exact h
    case back =>
      rw [hb', Bank.take_kept hkept]
      exact ⟨rfl, rfl⟩
  case merges =>
    rw [State.latch_meets cond obj own det hm, State.mergeEvent_eq hg, State.src_setBank, State.src_setSrc_self, State.bank_setBank_self]
    refine ⟨rfl, rfl, rfl, rfl, fun c hc hsrc hbeat => ?_⟩
    simp only [hc, Option.map_some, hsrc, hbeat, and_self, if_true]
  case clears =>
    have hsrc := State.clearStatus_sources hlive hev
    have hself : (s.clearStatus code l).src (bankSrc code l) = (s.src (bankSrc code l)).cleared s.cycles := by rw [hsrc, State.src_setSrc_self]
    exact ⟨by rw [hself]; rfl, by rw [hself]; rfl, by rw [hself]; rfl, fun k hk => by rw [hsrc, State.src_setSrc_ne _ _ hk],
      fun c hc => State.clearStatus_cause hlive hev hc⟩
  case forces =>
    subst hg
    exact ⟨State.forceBit_pulse hf, State.forceBit_level hf, State.forceBit_present hf⟩

end Sys2Proof.Machine
end

section
/-! The lintel (R455-R460): routes of MCTP packets, the ports' queues, the buses, and the side-band. -/
namespace Sys2Proof.Machine

/-! ### The queue of a port (R458) -/

@[simp] theorem State.egress_setEgress_self (s : State) (p : Nat) (l : List LtlSend) : (s.setEgress p l).egress p = l := by
  simp [State.egress, State.setEgress]

theorem State.ltlPush_full {s : State} {p : Nat} (phys : Nat) (d : Data) (h : 32 ≤ (s.egress p).length) :
    s.ltlPush p phys d = s.bump Ctr.LTL_QUEUE_DROP_COUNT := if_pos h

theorem State.ltlPush_room {s : State} {p : Nat} (phys : Nat) (d : Data) (h : (s.egress p).length < 32) :
    s.ltlPush p phys d = s.setEgress p (s.egress p ++ [⟨phys, d, 0⟩]) := if_neg (by omega)

theorem State.bumpIf_true (s : State) {b : Bool} (c : Nat) (h : b = true) : s.bumpIf b c = s.bump c := if_pos h

theorem State.bumpIf_false (s : State) {b : Bool} (c : Nat) (h : b = false) : s.bumpIf b c = s := if_neg (by simp [h])

/-- R458: a packet that is forwarded: queued and counted while its port has room, else discarded. -/
def State.ltlForward (s : State) (p phys : Nat) (d : Data) : State :=
  (s.ltlPush p phys d).bumpIf (decide ((s.egress p).length < 32)) Ctr.LTL_FWD_COUNT

theorem State.ltlForward_full {s : State} {p : Nat} (phys : Nat) (d : Data) (h : 32 ≤ (s.egress p).length) :
    s.ltlForward p phys d = s.bump Ctr.LTL_QUEUE_DROP_COUNT := by
  rw [State.ltlForward, State.bumpIf_false _ _ (decide_eq_false (by omega)), State.ltlPush_full phys d h]

theorem State.ltlForward_room {s : State} {p : Nat} (phys : Nat) (d : Data) (h : (s.egress p).length < 32) :
    (s.ltlForward p phys d).egress p = s.egress p ++ [⟨phys, d, 0⟩] ∧ (s.ltlForward p phys d).ltl.records = s.ltl.records ∧
      (s.ltlForward p phys d).ctr Ctr.LTL_FWD_COUNT = s.ctr Ctr.LTL_FWD_COUNT + 1 := by
  rw [State.ltlForward, State.bumpIf_true _ _ (decide_eq_true h), State.ltlPush_room phys d h]
  refine ⟨s.egress_setEgress_self p _, rfl, ?_⟩
  rw [State.ctr_bump_self]
  rfl

/-! ### A packet received (R455, R456) -/

theorem State.mctpRx_long {s : State} (p ph : Nat) {d : Data} (h : 68 < d.len) : s.mctpRx p ph d = s.bump Ctr.LTL_SIZE_DROP_COUNT := if_pos h

section
variable {s : State} {p ph : Nat} {d : Data} (hlen : d.len ≤ 68)
include hlen

theorem State.mctpRx_broadcast (h : mctpDst d = 0xFF) : s.mctpRx p ph d = s.bump Ctr.LTL_ROUTE_DROP_COUNT := by
  rw [State.mctpRx, if_neg (by omega)]
  exact if_pos h

theorem State.mctpRx_own (hb : mctpDst d ≠ 0xFF) (h : mctpDst d = 0 ∨ mctpDst d = s.g Reg.LTL_CFG.eid) :
    s.mctpRx p ph d = (s.emit (.toCore 3 d)).mctpAnswer p ph d := by
  rw [State.mctpRx, if_neg (by omega)]
  dsimp only
  rw [if_neg hb, if_pos h]

variable (hb : mctpDst d ≠ 0xFF) (h0 : mctpDst d ≠ 0) (he : mctpDst d ≠ s.g Reg.LTL_CFG.eid)
include hb h0 he

theorem State.mctpRx_unrouted (h : s.g (Reg.LTL_ROUTE.valid (mctpDst d)) = 0 ∨ mctpDst d ∈ s.ltl.bad) :
    s.mctpRx p ph d = s.bump Ctr.LTL_ROUTE_DROP_COUNT := by
  rw [State.mctpRx, if_neg (by omega)]
  dsimp only
  rw [if_neg hb, if_neg (not_or.2 ⟨h0, he⟩), if_pos (h.imp_right List.contains_iff_mem.2)]

variable (hv : s.g (Reg.LTL_ROUTE.valid (mctpDst d)) = 1) (hbad : ¬ mctpDst d ∈ s.ltl.bad)
include hv hbad

theorem State.mctpRx_remote (h : s.g (Reg.LTL_ROUTE.remote (mctpDst d)) = 1) : s.mctpRx p ph d =
    if s.mgRuns then (s.ltlMsg (s.g (Reg.LTL_ROUTE.device (mctpDst d))) (s.g (Reg.LTL_ROUTE.mgmt_ep (mctpDst d)))
      (mctpRecord (s.g (Reg.LTL_ROUTE.port (mctpDst d))) (s.g (Reg.LTL_ROUTE.phys (mctpDst d))) d)).bump Ctr.LTL_FWD_COUNT
    else s.bump Ctr.LTL_ROUTE_DROP_COUNT := by
  rw [State.mctpRx, if_neg (by omega)]
  dsimp only
  rw [if_neg hb, if_neg (not_or.2 ⟨h0, he⟩), if_neg (by simp [hv, hbad]), if_pos h]

theorem State.mctpRx_local (h : s.g (Reg.LTL_ROUTE.remote (mctpDst d)) = 0) : s.mctpRx p ph d =
    if s.ltlPort (s.g (Reg.LTL_ROUTE.port (mctpDst d))) then
      s.ltlForward (s.g (Reg.LTL_ROUTE.port (mctpDst d))) (s.g (Reg.LTL_ROUTE.phys (mctpDst d))) d
    else s.bump Ctr.LTL_ROUTE_DROP_COUNT := by
  rw [State.mctpRx, if_neg (by omega)]
  dsimp only
  rw [if_neg hb, if_neg (not_or.2 ⟨h0, he⟩), if_neg (by simp [hv, hbad]), if_neg (by omega)]
  exact ite_not _ _ _

end

/-! ### The commands of the packets (R457, R458) -/

theorem exec_mctpPacketRx {s : State} {p : Nat} (ph : Nat) (d : Data) (hr : s.ltlRuns = true) (hp : s.ltlPort p = true) :
    exec (.mctpPacketRx p ph d) s = .next (s.mctpRx p ph d) := by
  show execMctpPacketRx p ph d s = _
  rw [execMctpPacketRx, if_pos ⟨hr, hp⟩]

theorem exec_mctpPacketRx_none {s : State} {p : Nat} (ph : Nat) (d : Data) (h : s.ltlRuns = false ∨ s.ltlPort p = false) :
    exec (.mctpPacketRx p ph d) s = .next s := by
  show execMctpPacketRx p ph d s = _
  rw [execMctpPacketRx, if_neg (by
    rintro ⟨hr, hp⟩
    rw [hr, hp] at h
    simp at h)]

/-- R457: the oldest record is taken off. -/
def State.recordTaken (s : State) (rs : List Data) : State := { s with ltl := { s.ltl with records := rs } }

/-- R457: a record from the fabric goes to the port it names. -/
theorem exec_lintelRecordRx {s : State} {r : Data} {rs : List Data} (hrec : s.ltl.records = r :: rs) (hr : s.ltlRuns = true) (ht : r.field 0 0 8 = 1)
    (hlen : (r.slice 8 (r.field 4 0 7)).len ≤ 68) : exec .lintelRecordRx s = .next
      (if s.ltlPort (r.field 1 0 3) then (s.recordTaken rs).ltlForward (r.field 1 0 3) (r.field 2 0 16) (r.slice 8 (r.field 4 0 7))
      else (s.recordTaken rs).bump Ctr.LTL_ROUTE_DROP_COUNT) := by
  show execLintelRecordRx s = _
  simp only [execLintelRecordRx, hrec]
  rw [if_neg (by simp [hr, ht]), if_neg (by omega)]
  change (if ¬ s.ltlPort (r.field 1 0 3) then (.next ((s.recordTaken rs).bump Ctr.LTL_ROUTE_DROP_COUNT) : Host.Outcome State Fault Refusal)
    else .next ((s.recordTaken rs).ltlForward (r.field 1 0 3) (r.field 2 0 16) (r.slice 8 (r.field 4 0 7)))) = _
  by_cases hp : s.ltlPort (r.field 1 0 3) = true
  · rw [if_neg (not_not.2 hp), if_pos hp]
  · rw [if_pos hp, if_neg hp]

section
variable {s : State} {p : Nat} {h : LtlSend} {t : List LtlSend} (hq : s.egress p = h :: t) (hr : s.ltlRuns = true) (hp : s.ltlPort p = true)
include hq hr hp

theorem exec_mctpSend (a : Bool) : exec (.mctpSend p a) s =
    if a = true ∨ 4 ≤ p then .next ((s.emit (s.mctpOut p h.phys h.d)).setEgress p t)
    else if h.tries < s.g (Reg.LTL_BUS_CFG.retries p) then
      .next ((s.emit (s.mctpOut p h.phys h.d)).setEgress p ({ h with tries := h.tries + 1 } :: t))
    else .next ((((s.emit (s.mctpOut p h.phys h.d)).setEgress p t).bump Ctr.LTL_SEND_FAIL_COUNT).raise (srcLtl 0) 0 p) := by
  show execMctpSend p a s = _
  simp only [execMctpSend, hq]
  rw [if_neg (by simp [hr, hp])]

end

theorem State.mctpOut_vdm {s : State} {p : Nat} (ph : Nat) (d : Data) (h : 4 ≤ p) : s.mctpOut p ph d = .vdm (p - 4) ph d := if_pos h

theorem State.mctpOut_i3c {s : State} {p : Nat} (ph : Nat) (d : Data) (h : p < 4) (hm : s.g (Reg.LTL_BUS_CFG.mode p) = 1) :
    s.mctpOut p ph d = .i3cWrite p (bits ph 0 7) d := by rw [State.mctpOut, if_neg (by omega), if_pos hm]

theorem State.mctpOut_smbus {s : State} {p : Nat} (ph : Nat) (d : Data) (h : p < 4) (hm : s.g (Reg.LTL_BUS_CFG.mode p) = 0) :
    s.mctpOut p ph d = .smbusWrite p (bits ph 0 7) 0x0F d := by rw [State.mctpOut, if_neg (by omega), if_neg (by omega)]

section
variable {s : State} {b : Nat} (a : Nat) (d : Data) (hr : s.ltlRuns = true) (hb : b < 4) (hp : s.ltlPort b = true)
include hr hb hp

theorem exec_alertPull (hm : s.g (Reg.LTL_BUS_CFG.mode b) = 0) (hpull : s.g (Reg.LTL_BUS_CFG.alert_pull b) = 1) : exec (.alertPull b a d) s =
    .next (((s.emit (.smbusRead b 0x0C none (Data.ofNat 1 (2 * a)))).emit (.smbusRead b a (some 0x0F) d)).mctpRx b a d) := by
  show execAlertPull b a d s = _
  rw [execAlertPull, if_pos ⟨hr, hb, hp, hm, hpull⟩]

theorem exec_i3cIbiRx (hm : s.g (Reg.LTL_BUS_CFG.mode b) = 1) : exec (.i3cIbiRx b a 0xAE d) s = .next ((s.emit (.i3cRead b a d)).mctpRx b a d) := by
  show execI3cIbiRx b a 0xAE d s = _
  rw [execI3cIbiRx, if_pos ⟨hr, hb, hp, hm, rfl⟩]

end

/-! ### The side-band (R459, R460) -/

/-- R459: the run of a signal before this sample: none where the course before had no sample. -/
def State.sbRunBefore (s : State) (i : Nat) : Nat := if s.ltl.sbCourse = some (s.crs.course - 1) then s.ltl.sbRun.getD i 0 else 0

theorem State.sbRuns_get (s : State) (x : Nat) {i : Nat} (hi : i < 12) :
    (s.sbRuns x).getD i 0 = if bit x i = bit (s.g Reg.LTL_SB_STATUS.levels) i then 0 else s.sbRunBefore i + 1 := by
  rw [State.sbRuns, List.getD_eq_getElem?_getD, List.getElem?_map, List.getElem?_range hi]
  rfl

theorem State.sbReport_raises (s : State) {i : Nat} (b : Bool) (hi : i < 12) : ∃ u : State,
    s.sbReport i b = u.raise (srcLtl 1) i 0 none (if b then 1 else 0) ∧
      bit (u.g Reg.LTL_SB_STATUS.levels) i = b ∧ bit (u.g Reg.LTL_SB_STATUS.changed) i = true := by
  refine ⟨_, rfl, ?_, ?_⟩
  · rw [State.g_put_other _ _ (by decide) (by decide), State.g_put_self _ _ (by decide), bit, Nat.testBit_mod_two_pow, testBit_setBits,
      if_pos (by omega), Nat.sub_self]
    have hw : i < Reg.LTL_SB_STATUS.levels.w := hi
    cases b <;> simp [b2n, hw]
  · rw [State.g_put_self _ _ (by decide), bit, Nat.testBit_mod_two_pow, testBit_setBits, if_pos (by omega), Nat.sub_self]
    have hw : i < Reg.LTL_SB_STATUS.changed.w := hi
    simp [hw]

theorem State.ltl_sbReports (l : List Nat) (x : Nat) (s : State) : (l.foldl (fun t i => t.sbReport i (bit x i)) s).ltl = s.ltl := by
  induction l generalizing s with
  | nil => rfl
  | cons i l ih => exact (ih _).trans ((s.sbReport_stays i (bit x i) (Has.refl _) (Stays.refl s)).ltl (by decide))

/-- R459: the course of the sample is noted. -/
theorem State.sbCourse_sideband (s : State) (x : Nat) : (s.sideband x).ltl.sbCourse = some s.crs.course := by
  obtain ⟨t, ht⟩ : ∃ t, s.sideband x = t := ⟨_, rfl⟩
  rw [ht]
  unfold State.sideband at ht
  extract_lets runs n changed l s1 s2 mask at ht
  have h2 : s2.ltl.sbCourse = some s.crs.course := congrArg Ltl.sbCourse (State.ltl_sbReports changed x s1)
  rw [← ht]
  split
  · rw [(State.ltlMsg_stays _ _ _ (Has.refl _) (Stays.refl s2)).ltl (by decide), h2]
  · exact h2

/-- R459: while no level has held for the debounce, only the runs change. -/
theorem State.sideband_quiet {s : State} {x : Nat} (h : ∀ i, i < 12 → (s.sbRuns x).getD i 0 < max 1 (s.g Reg.LTL_SB_CFG.debounce)) :
    s.sideband x = { s with ltl := { s.ltl with sbCourse := some s.crs.course, sbRun := s.sbRuns x } } := by
  have hlen : (s.sbRuns x).length = 12 := by rw [State.sbRuns, List.length_map, List.length_range]
  have hchanged : (List.range 12).filter (fun i => decide ((s.sbRuns x).getD i 0 ≥ max 1 (s.g Reg.LTL_SB_CFG.debounce))) = [] :=
    List.filter_eq_nil_iff.2 fun i hi => by
      have := h i (List.mem_range.1 hi)
      simp only [decide_eq_true_eq]
      omega
  have hruns : (s.sbRuns x).map (fun r => if r ≥ max 1 (s.g Reg.LTL_SB_CFG.debounce) then 0 else r) = s.sbRuns x := by
    refine (List.map_congr_left fun r hr => ?_).trans (List.map_id _)
    obtain ⟨i, hi, rfl⟩ := List.getElem_of_mem hr
    have := h i (by omega)
    rw [List.getD_eq_getElem?_getD, List.getElem?_eq_getElem hi, Option.getD_some] at this
    exact if_neg (by omega)
  simp only [State.sideband, hchanged, hruns, List.foldl_nil, ne_eq, not_true_eq_false, false_and, if_false]

/-- Settles O52: the routes by the cases of a packet's destination, the commands by their equations. -/
theorem lintelBridge : Obligations.LintelBridge := by
  refine ⟨fun s p ph d hr hp => exec_mctpPacketRx ph d hr hp, fun s p ph d h => exec_mctpPacketRx_none ph d h,
    fun s p ph d h => State.mctpRx_long p ph h, fun s p ph e d hlen he hb h0 hown => ?routes, fun s p ph d hlen => ⟨State.mctpRx_broadcast hlen, State.mctpRx_own hlen⟩,
    fun s p ph d => ⟨State.mctpOut_vdm ph d, State.mctpOut_i3c ph d, State.mctpOut_smbus ph d⟩,
    fun s p d r rs hrec hr ht hp hd hlen => ⟨s.recordTaken rs, rfl, ?drops⟩, fun s r d rs p hrec hr ht hp hd hlen hport hroom => ?goes,
    fun s p a h t hq hr hp => ?sends, fun s b a d hr hb hp => exec_alertPull a d hr hb hp, fun s b a d hr hb hp => exec_i3cIbiRx a d hr hb hp,
    fun s x hc hs hlo hhi => ⟨?sampled, s.sbCourse_sideband x, State.sideband_quiet⟩, fun s x i hi => ⟨_, rfl, s.sbRuns_get x hi⟩,
    fun s i b hi => s.sbReport_raises b hi, fun s x h => ?unsampled⟩
  case routes =>
    subst he
    refine ⟨State.mctpRx_unrouted hlen hb h0 hown, fun o hv hbad hrem ho => ?_, fun hv hbad hrem => ?_⟩
    · have hlocal := State.mctpRx_local (p := p) (ph := ph) hlen hb h0 hown hv hbad hrem
      rw [← ho] at hlocal
      refine ⟨fun hport => by rw [hlocal, if_neg (by simp [hport])], fun hport hfull => by rw [hlocal, if_pos hport, State.ltlForward_full _ _ hfull],
        fun hport hroom => ?_⟩
      obtain ⟨hqueue, -, hcount⟩ := State.ltlForward_room (s.g (Reg.LTL_ROUTE.phys (mctpDst d))) d hroom
      rw [hlocal, if_pos hport]
      exact ⟨hqueue, hcount⟩
    · have hremote := State.mctpRx_remote (p := p) (ph := ph) hlen hb h0 hown hv hbad hrem
      exact ⟨fun hm => by rw [hremote, if_pos hm], fun hm => by rw [hremote, if_neg (by simp [hm])]⟩
  case drops =>
    subst hp hd
    rw [exec_lintelRecordRx hrec hr ht hlen]
    exact ⟨fun hport => by rw [if_neg (by simp [hport])], fun hport hfull => by rw [if_pos hport, State.ltlForward_full (s := s.recordTaken rs) _ _ hfull]⟩
  case goes =>
    subst hp hd
    refine ⟨_, by rw [exec_lintelRecordRx hrec hr ht hlen, if_pos hport], ?_⟩
    exact State.ltlForward_room (s := s.recordTaken rs) _ _ hroom
  case sends =>
    rw [exec_mctpSend hq hr hp]
    refine ⟨fun h => if_pos h, fun ha hp4 htry => ?_, fun ha hp4 htry => ?_⟩
    · rw [if_neg (by simp [ha]; omega), if_pos htry]
    · rw [if_neg (by simp [ha]; omega), if_neg (by omega)]
  case sampled =>
    show execSidebandChange x s = _
    rw [execSidebandChange, if_pos ⟨hc, hs, hlo, hhi⟩]
  case unsampled =>
    show execSidebandChange x s = _
    rw [execSidebandChange, if_neg (by
      rintro ⟨-, hs, hlo, hhi⟩
      rcases h with h | h | h
      · exact hs h
      · omega
      · omega)]

end Sys2Proof.Machine
end

section
/-! The monitor (R514-R518): its lock, the answer of each line, and its timers. -/
namespace Sys2Proof.Machine

/-! ### The lock (R514, R516) -/

section
variable {s : State} (l : List Nat) (f : State → State × Reply)

/-- R514: in OFF and STRAP the monitor takes no line. -/
theorem State.monitor_off (b : Bool) (h : s.mode = .off ∨ s.mode = .strap) : s.monitor l b f = s := by
  have hoff : s.monOn = false := by rcases h with h | h <;> simp [State.monOn, h]
  rw [State.monitor, if_pos (by simp [hoff])]

variable (hon : s.monOn = true)
include hon

/-- R516: a command that is never locked. -/
theorem State.monitor_open : s.monitor l false f = (f (s.monHear l)).1.monSay (f (s.monHear l)).2 := by
  rw [State.monitor, if_neg (by simp [hon])]
  dsimp only
  rw [if_neg (by simp), if_neg (by simp)]

/-- R516: a locked command once a response has unlocked it. -/
theorem State.monitor_unlocked (hf : s.mode ≠ .fenced) (hu : s.mgt.mon.unlocked = true) :
    s.monitor l true f = (f (s.monHear l)).1.monSay (f (s.monHear l)).2 := by
  rw [State.monitor, if_neg (by simp [hon])]
  dsimp only
  rw [if_neg (by simp [hf]), if_neg (by simp [hu])]

theorem State.monitor_locked (hf : s.mode ≠ .fenced) (hu : s.mgt.mon.unlocked = false) : s.monitor l true f = (s.monHear l).monSay (.err 2) := by
  rw [State.monitor, if_neg (by simp [hon])]
  dsimp only
  rw [if_neg (by simp [hf]), if_pos (by simp [hu])]

theorem State.monitor_fenced (hf : s.mode = .fenced) : s.monitor l true f = (s.monHear l).monSay (.err 4) := by
  rw [State.monitor, if_neg (by simp [hon])]
  dsimp only
  rw [if_pos (by simp [hf])]

end

/-! ### Commands that are never locked (R515-R517) -/

section
variable {s : State} {l : List Nat} (hon : s.monOn = true)
include hon

theorem exec_monHelp (hl : parseLine l = some .help) : exec (.monHelp l) s =
    .next ((s.monHear l).monSay (.ok "help id rd rbk flt time boot unlock resp lock wr mode baud mcrun fuse reset")) := by
  show execMonHelp l s = _
  simp only [execMonHelp, hl, State.monitor_open _ _ hon]

theorem exec_monId (hl : parseLine l = some .id) : exec (.monId l) s = .next ((s.monHear l).monSay (.ok (hexWords
    [(s.monHear l).word Reg.GLB_PART.off, bits Config.serial 32 32, bits Config.serial 0 32, (s.monHear l).me, (s.monHear l).mode.code]))) := by
  show execMonId l s = _
  simp only [execMonId, hl, State.monitor_open _ _ hon]

theorem exec_monRd {o n : Nat} (hl : parseLine l = some (.rd o n)) (ho : o % 4 = 0) (h0 : 0 < n) (hn : n ≤ 64) (hend : o + 4 * n ≤ 2 ^ 26) :
    exec (.monRd l) s = .next (((s.monHear l).monRead o n).1.monSay (.ok (hexWords ((s.monHear l).monRead o n).2))) := by
  show execMonRd l s = _
  simp only [execMonRd, hl, State.monitor_open _ _ hon]
  rw [if_neg (by omega)]

theorem exec_monRbk {t i n : Nat} (hl : parseLine l = some (.rbk t i n)) (ht : t ≤ 255) (hi : i < 2 ^ 24) (h0 : 0 < n) (hn : n ≤ 16) :
    exec (.monRbk l) s =
      .next (((((s.monHear l).put (Reg.RBK_SEL.table 4) t).put (Reg.RBK_SEL.index 4) i).capture 4 (n - 1)).monSay (.ok "")) := by
  show execMonRbk l s = _
  simp only [execMonRbk, hl, State.monitor_open _ _ hon]
  rw [if_neg (by omega)]

theorem exec_monFlt {b : Nat} (hl : parseLine l = some (.flt b)) (h0 : 0 < b) (hb : b ≤ 17) : exec (.monFlt l) s =
    .next ((s.monHear l).monSay (.ok (hexWords ([0x04, 0x10, 0x14, 0x18, 0x1C, 0x20, 0x24].map (fun o => (s.monHear l).bankRead b o))))) := by
  show execMonFlt l s = _
  simp only [execMonFlt, hl, State.monitor_open _ _ hon]
  rw [if_neg (by omega)]

theorem exec_monTime (hl : parseLine l = some .time) : exec (.monTime l) s = .next ((s.monHear l).monSay (.ok (hexWords
    [(s.monHear l).now / 2 ^ 32, (s.monHear l).now % 2 ^ 32, (s.monHear l).alignStatus]))) := by
  show execMonTime l s = _
  simp only [execMonTime, hl, State.monitor_open _ _ hon]

theorem exec_monBoot (hl : parseLine l = some .boot) : exec (.monBoot l) s = .next ((s.monHear l).monSay (.ok (hexWords
    [(s.monHear l).word Reg.GLB_BOOT_STATUS.off, (s.monHear l).mgt.image.field 12 0 32]))) := by
  show execMonBoot l s = _
  simp only [execMonBoot, hl, State.monitor_open _ _ hon]

/-- R517: unlock is refused while the lockout lasts. -/
theorem exec_monUnlock_refused (hl : parseLine l = some .unlock) (hk : s.mgt.mon.lockout.isSome = true) :
    exec (.monUnlock l) s = .next ((s.monHear l).monSay (.err 5)) := by
  have hheard : (s.monHear l).mgt.mon.lockout.isSome = true := hk
  show execMonUnlock l s = _
  simp only [execMonUnlock, hl, State.monitor_open _ _ hon]
  rw [if_pos hheard]

/-- R517: a fresh challenge. -/
theorem exec_monUnlock_challenge (hl : parseLine l = some .unlock) (hk : s.mgt.mon.lockout = none) :
    ∃ t n, exec (.monUnlock l) s = .next t ∧ t.mgt.mon.challenge = some (n, s.nowAt) := by
  have hheard : ¬ (s.monHear l).mgt.mon.lockout.isSome = true := by
    show ¬ s.mgt.mon.lockout.isSome = true
    simp [hk]
  refine ⟨_, _, by
    show execMonUnlock l s = _
    simp only [execMonUnlock, hl, State.monitor_open _ _ hon]
    rw [if_neg hheard], rfl⟩

theorem exec_monResp {r : Nat} (hl : parseLine l = some (.resp r)) :
    exec (.monResp l) s = .next (((s.monHear l).monResp r).1.monSay ((s.monHear l).monResp r).2) := by
  show execMonResp l s = _
  simp only [execMonResp, hl, State.monitor_open _ _ hon]

theorem exec_monLock (hl : parseLine l = some .lock) : ∃ t, exec (.monLock l) s = .next t ∧ t.mgt.mon.unlocked = false :=
  ⟨_, by
    show execMonLock l s = _
    simp only [execMonLock, hl, State.monitor_open _ _ hon]
    rfl, rfl⟩

/-- R515: a line that spells no command. -/
theorem exec_monLineInvalid (hl : parseLine l = none) : exec (.monLineInvalid l) s = .next ((s.monHear l).monSay (.err 1)) := by
  show execMonLineInvalid l s = _
  simp only [execMonLineInvalid, hl]
  rw [if_pos hon]

end

/-! ### The response to the challenge (R517) -/

theorem State.monResp_expected {s : State} {n : Nat} {c : When} (hc : s.mgt.mon.challenge = some (n, c)) (ho : s.over c < 256) :
    (s.monResp (s.monExpect n)).1.mgt.mon.unlocked = true := by
  simp only [State.monResp, hc]
  rw [if_pos ⟨ho, trivial⟩]
  rfl

theorem State.monResp_failed {s : State} {r n : Nat} {c : When} (hc : s.mgt.mon.challenge = some (n, c)) (h : r ≠ s.monExpect n ∨ 256 ≤ s.over c) :
    s.monResp r = (s.monFail, .err 6) := by
  simp only [State.monResp, hc]
  rw [if_neg (by
    rintro ⟨ho, hr⟩
    exact h.elim (fun h => h hr) (by omega))]

/-! ### Locked commands (R516) -/

section
variable {s : State} {l : List Nat} (hon : s.monOn = true)
include hon

theorem exec_monWr_locked (hf : s.mode ≠ .fenced) (hu : s.mgt.mon.unlocked = false) {o v : Nat} (hl : parseLine l = some (.wr o v)) :
    exec (.monWr l) s = .next ((s.monHear l).monSay (.err 2)) := by
  show execMonWr l s = _
  simp only [execMonWr, hl, State.monitor_locked _ _ hon hf hu]

theorem exec_monWr_fenced (hf : s.mode = .fenced) {o v : Nat} (hl : parseLine l = some (.wr o v)) :
    exec (.monWr l) s = .next ((s.monHear l).monSay (.err 4)) := by
  show execMonWr l s = _
  simp only [execMonWr, hl, State.monitor_fenced _ _ hon hf]

variable (hf : s.mode ≠ .fenced) (hu : s.mgt.mon.unlocked = true)
include hf hu

theorem exec_monWr {o v : Nat} (hl : parseLine l = some (.wr o v)) (h4 : o % 4 = 0) (ho : o < 2 ^ 26) (hv : v < 2 ^ 32) :
    exec (.monWr l) s = .next (((s.monHear l).access .monitor o v).monSay (.ok "")) := by
  show execMonWr l s = _
  simp only [execMonWr, hl, State.monitor_unlocked _ _ hon hf hu]
  rw [if_neg (by omega)]

theorem exec_monMode {m : Nat} (hl : parseLine l = some (.mode m)) (hm : m ≤ 7) :
    exec (.monMode l) s = .next (((s.monHear l).access .monitor Reg.GLB_MODE_REQ.off m).monSay (.ok "")) := by
  show execMonMode l s = _
  simp only [execMonMode, hl, State.monitor_unlocked _ _ hon hf hu]
  rw [if_neg (by omega)]

theorem exec_monBaud {b : Nat} (hb : b ∈ [115200, 230400, 460800, 921600, 1500000, 3000000]) (hl : parseLine l = some (.baud b)) :
    ∃ t, exec (.monBaud l) s = .next t ∧ t.mgt.mon.baud = b :=
  ⟨_, by
    show execMonBaud l s = _
    simp only [execMonBaud, hl, State.monitor_unlocked _ _ hon hf hu]
    rw [if_pos (List.contains_iff_mem.2 hb)], rfl⟩

theorem exec_monMcrun {c v : Nat} (hl : parseLine l = some (.mcrun c v)) (h0 : 0 < c) (hc : c ≤ 3) (hv : v ≤ 1) : exec (.monMcrun l) s =
    .next (((s.monHear l).mcCtrlWrite .monitor (setBits ((s.monHear l).g Reg.MGT_MC_CTRL.run) (c - 1) 1 v)).monSay (.ok "")) := by
  show execMonMcrun l s = _
  simp only [execMonMcrun, hl, State.monitor_unlocked _ _ hon hf hu]
  rw [if_neg (by omega)]

theorem exec_monFuse {r : Nat} (ok : Bool) (hl : parseLine l = some (.fuse r)) (hr : r ≤ 511) : ∃ (t : State) (a : Reply),
    t = (s.monHear l).bstCmd .monitor (2 + r * 2 ^ 16) ok ∧ exec (.monFuse l ok) s = .next (t.monSay a) :=
  ⟨_, _, rfl, by
    show execMonFuse l ok s = _
    simp only [execMonFuse, hl, State.monitor_unlocked _ _ hon hf hu]
    rw [if_neg (by omega)]⟩

/-- R524: the final line goes out before the reset. -/
theorem exec_monReset (hl : parseLine l = some .reset) (ht : s.liveBit 3 = false) :
    exec (.monReset l) s = .next (((s.monHear l).monSay (.ok "")).resetCtrl 0xD1E50001) := by
  have hheard : (s.monHear l).liveBit 3 = false := ht
  show execMonReset l s = _
  simp only [execMonReset, hl, State.monitor_unlocked _ _ hon hf hu]
  rw [if_pos (by simp [hon, hf, hu, ht]), if_neg (by simp [hheard])]

end

/-! ### The timers (R517, R518) -/

theorem exec_monitorIdleTimeout {s : State} (hu : s.mgt.mon.unlocked = true) : exec .monitorIdleTimeout s =
    if 65536 ≤ s.over s.mgt.mon.lastLine then .next (s.onMon (fun m => { m with unlocked := false })) else .next s := by
  show execMonitorIdleTimeout s = _
  simp only [execMonitorIdleTimeout, hu, true_and, ge_iff_le]

theorem exec_unlockLockoutEnd {s : State} {c : When} (hc : s.mgt.mon.lockout = some c) : exec .unlockLockoutEnd s =
    if 2 ^ 24 ≤ s.over c then .next (s.onMon (fun m => { m with lockout := none, fails := 0 })) else .next s := by
  show execUnlockLockoutEnd s = _
  simp only [execUnlockLockoutEnd, hc, ge_iff_le]

/-- Settles O57: a line's answer by its command, under the lock as it stands. -/
theorem monitorLines : Obligations.MonitorLines := by
  refine ⟨fun s l hon => ?lines, fun s l b f h => State.monitor_off l f b h, fun s hu hover => ?idle, fun s hu hover => ?active,
    fun s c hc hover => ?ends, fun s c hc hover => ?lasts⟩
  case lines =>
    intro answers
    exact ⟨exec_monHelp hon, exec_monId hon, fun o n => exec_monRd hon, fun t i n => exec_monRbk hon, fun b => exec_monFlt hon, exec_monTime hon,
      exec_monBoot hon, exec_monUnlock_refused hon, exec_monUnlock_challenge hon, fun r => exec_monResp hon, fun n c => State.monResp_expected,
      fun r n c _ => State.monResp_failed, exec_monLock hon,
      fun hf hu => ⟨fun o v => exec_monWr hon hf hu, fun m => exec_monMode hon hf hu, fun b => exec_monBaud hon hf hu, fun c v => exec_monMcrun hon hf hu,
        fun r ok => exec_monFuse hon hf hu ok, exec_monReset hon hf hu⟩,
      fun hf hu o v => exec_monWr_locked hon hf hu, fun hf o v => exec_monWr_fenced hon hf, exec_monLineInvalid hon⟩
  case idle => exact ⟨_, by rw [exec_monitorIdleTimeout hu, if_pos hover], rfl, State.onMon_stays _ (Has.refl _) (Stays.refl s)⟩
  case active => rw [exec_monitorIdleTimeout hu, if_neg (by omega)]
  case ends => exact ⟨_, by rw [exec_unlockLockoutEnd hc, if_pos hover], rfl, State.onMon_stays _ (Has.refl _) (Stays.refl s)⟩
  case lasts => rw [exec_unlockLockoutEnd hc, if_neg (by omega)]

end Sys2Proof.Machine
end

section
/-! The boot (R490-R496, R506): the mailbox and its reads, the images, the fetch over a boot link, and the firmware service. -/
namespace Sys2Proof.Machine

/-! ### The mailbox (R492) -/

section
variable {s : State} {f : Nat}

/-- R492: a go is taken. -/
theorem State.bootGo_taken (hf : f < 1024) (hm : s.mode = .strap) (hb : s.hostBoot = true) (hpf : isPf f = true) (hp : s.hpPresent (hpOf f) = true)
    (h : s.g Reg.MGT_BOOT_MBOX.state = 0 ∨ s.g Reg.MGT_BOOT_MBOX.state = 2 ∨
      (s.g Reg.MGT_BOOT_MBOX.state = 1 ∧ s.mgt.goPend = true ∧ s.mgt.goAt = s.cycles ∧ hpOf f < s.g Reg.MGT_BOOT_MBOX.owner)) :
    ∃ t, exec (.bootMboxGo (.fn f)) s = .next t ∧ t.g Reg.MGT_BOOT_MBOX.state = 1 ∧ t.g Reg.MGT_BOOT_MBOX.owner = hpOf f ∧
      t.mgt.hostGot = Data.empty ∧ t.mgt.goPend = true ∧ t.mgt.goAt = s.cycles := by
  have hsmall : hpOf f % 4 = hpOf f := Nat.mod_eq_of_lt (by unfold hpOf; omega)
  obtain ⟨u, hu⟩ : ∃ u, u = (s.put Reg.MGT_BOOT_MBOX.owner (hpOf f)).put Reg.MGT_BOOT_MBOX.state 1 := ⟨_, rfl⟩
  have hstate : u.g Reg.MGT_BOOT_MBOX.state = 1 := by rw [hu, State.g_put_self _ _ (by decide)]; rfl
  have howner : u.g Reg.MGT_BOOT_MBOX.owner = hpOf f := by
    rw [hu, State.g_put_other _ _ (by decide) (by decide), State.g_put_self _ _ (by decide)]
    exact hsmall
  refine ⟨{ u with mgt := { u.mgt with hostGot := Data.empty, goPend := true, goAt := s.cycles } }, ?_, hstate, howner, rfl, rfl, rfl⟩
  show Host.Outcome.next (s.bootGo (.fn f)) = _
  rw [State.bootGo]
  dsimp only
  rw [if_pos ⟨hm, hb, hpf, hp, h⟩, hu]

/-- R492: the mailbox is fetching already, for a port that is not above this one. -/
theorem State.bootGo_busy (hst : s.g Reg.MGT_BOOT_MBOX.state = 1)
    (h : s.mgt.goPend = false ∨ s.mgt.goAt ≠ s.cycles ∨ s.g Reg.MGT_BOOT_MBOX.owner ≤ hpOf f) : exec (.bootMboxGo (.fn f)) s = .next s := by
  show Host.Outcome.next (s.bootGo (.fn f)) = _
  rw [State.bootGo]
  dsimp only
  rw [if_neg (by
    rintro ⟨-, -, -, -, h0 | h2 | ⟨-, hpend, hat, hlow⟩⟩
    · omega
    · omega
    · rcases h with h | h | h
      · rw [h] at hpend
        exact nomatch hpend
      · exact h hat
      · omega)]

theorem State.bootGo_refused (h : s.mode ≠ .strap ∨ s.hostBoot = false ∨ isPf f = false ∨ s.hpPresent (hpOf f) = false) :
    exec (.bootMboxGo (.fn f)) s = .next s := by
  show Host.Outcome.next (s.bootGo (.fn f)) = _
  rw [State.bootGo]
  dsimp only
  rw [if_neg (by
    rintro ⟨hm, hb, hpf, hp, -⟩
    rw [hb, hpf, hp] at h
    simp [hm] at h)]

end

theorem exec_bootMboxGo_other {s : State} {req : Requester} (h : ∀ f, req ≠ .fn f) : exec (.bootMboxGo req) s = .next s := by
  cases req with
  | fn f => exact absurd rfl (h f)
  | mc c => rfl
  | monitor => rfl
  | fm => rfl

theorem State.goFetch_pending {s : State} (h : s.mgt.goPend = true) :
    s.goFetch = (({ s with mgt := { s.mgt with goPend := false } } : State).fetchBegin 0).bootRead := if_pos h

theorem State.bootRead_more {s : State} (h : s.mgt.hostGot.len < s.g Reg.MGT_BOOT_MBOX.length) :
    s.bootRead = s.hostRead (s.g Reg.MGT_BOOT_MBOX.owner) (s.g Reg.MGT_BOOT_MBOX.owner * 256)
      ((s.g Reg.MGT_BOOT_MBOX.addr_lo + s.g Reg.MGT_BOOT_MBOX.addr_hi * 2 ^ 20) * 4096 + s.mgt.hostGot.len)
      (min 512 (s.g Reg.MGT_BOOT_MBOX.length - s.mgt.hostGot.len)) := if_pos h

/-- R492: the bytes of a read join those of the image. -/
def State.hostGets (s : State) (d : Data) : State :=
  { s with mgt := { s.mgt with
      hostGot := s.mgt.hostGot.append (d.slice 0 (min 512 (s.g Reg.MGT_BOOT_MBOX.length - s.mgt.hostGot.len))) } }

theorem State.hostGets_stays (s : State) (d : Data) : Stays [.mgt] s (s.hostGets d) := (Stays.refl s).set_mgt (by decide)

section
variable {s : State} (hm : s.mode = .strap) (hst : s.g Reg.MGT_BOOT_MBOX.state = 1) (hstage : 3 ≤ s.g Reg.GLB_BOOT_STATUS.stage)
  (hgo : s.mgt.goPend = false) (hlen : s.mgt.hostGot.len < s.g Reg.MGT_BOOT_MBOX.length)
include hm hst hstage hgo hlen

theorem exec_bootImageReadReturn_data (d : Data) : exec (.bootImageReadReturn (.data d)) s = .next
    (if (s.hostGets d).mgt.hostGot.len < s.g Reg.MGT_BOOT_MBOX.length then (s.hostGets d).bootRead else (s.hostGets d).fetched 0) := by
  show execBootImageReadReturn (.data d) s = _
  rw [execBootImageReadReturn]
  rw [if_pos ⟨hm, hst, hstage, by simp [hgo], hlen⟩]
  rfl

theorem exec_bootImageReadReturn_error (c : Nat) : exec (.bootImageReadReturn (.error c)) s = .next (s.bootFailed 0 6) := by
  show execBootImageReadReturn (.error c) s = _
  rw [execBootImageReadReturn, if_pos ⟨hm, hst, hstage, by simp [hgo], hlen⟩]

end

/-! ### Authentication (R495, R496) -/

/-- R495: the host's image alone has been checked. -/
theorem exec_bootFetchComplete_host {s : State} {d : Data} (hm : s.mode = .strap) (hd : s.bootImage 0 = some d) :
    exec (.bootFetchComplete [0]) s =
      .next (if checkImage d = 1 then s.bootAccept 0 d else (s.put Reg.GLB_BOOT_STATUS.stage 4).bootFailed 0 (checkImage d)) := by
  have hdone : [0, 1, 2].filterMap (fun k => if [0].contains k then (s.bootImage k).map (fun d => (k, d)) else none) = [(0, d)] := by
    simp [hd]
  show execBootFetchComplete [0] s = _
  rw [execBootFetchComplete, if_neg (not_not.2 hm)]
  dsimp only
  rw [hdone]
  by_cases hc : checkImage d = 1
  · simp [hc]
  · simp [hc]

theorem State.bootAccept_monitor (s : State) (k : Nat) (d : Data) : (s.bootAccept k d).mode = .monitor ∧ (s.bootAccept k d).crs.course = 0 ∧
    (s.bootAccept k d).crs.cycle = 0 ∧ (s.bootAccept k d).mgt.image = d := ⟨rfl, rfl, rfl, rfl⟩

/-! ### The fetch over a boot link (R493, R496) -/

theorem exec_fwReqTimeout {s : State} {p : Nat} {f : Fetch} (hf : s.fetch? p = some f) (hm : s.mode = .strap) (hfull : f.full = false)
    (hr : f.retryAt = none) (hdue : 64 * 1280 ≤ s.mgt.bootCycle - f.sentAt) :
    exec (.fwReqTimeout p) s = if 16 ≤ f.sends then .next (s.bootFailed (p - 61) 7) else .next (s.fwReq p f) := by
  show execFwReqTimeout p s = _
  simp only [execFwReqTimeout, hf]
  rw [if_pos ⟨hm, by simp [hfull], hr, hdue⟩]

theorem exec_fwFetchRetry {s : State} {p c : Nat} {f : Fetch} (hf : s.fetch? p = some f) (hr : f.retryAt = some c) (hm : s.mode = .strap)
    (hdue : 64 * 1280 ≤ s.mgt.bootCycle - c) (hup : s.up p = true) : exec (.fwFetchRetry p) s = .next (s.fabricFetch p) := by
  show execFwFetchRetry p s = _
  simp only [execFwFetchRetry, hf, hr]
  rw [if_pos ⟨hm, hdue, hup⟩]

/-- R493: a fetch with the bytes that an answer brings. -/
def Fetch.gains (f : Fetch) (d : Data) : Fetch := { f with got := f.got.append d, sends := 0, tag := (f.tag + 1) % 65536 }

section
variable {s u : State} {x : MgIn} {f : Fetch} (ht : s.mgTake [0x35] = some (x, u)) (hf : u.fetch? x.port = some f) (hm : s.mode = .strap)
  (hfull : f.full = false) (hr : f.retryAt = none) (htag : (MgH.of x.d).tag = f.tag) (haddr : (MgH.of x.d).addr = f.got.len)
  (hst : (MgH.of x.d).status = 0) (hn : (MgH.of x.d).count ≠ 0)
include ht hf hm hfull hr htag haddr hst hn

/-- R493, R494: the image is whole, or names too many bytes. -/
theorem exec_fwDataRx_whole {g : Fetch} (hg : g = f.gains (mgPayload x.d (64 * min 64 (MgH.of x.d).count))) {n : Nat} (htotal : g.total = some n)
    (hlen : n > 2 ^ 21 ∨ g.got.len ≥ n) : exec .fwDataRx s = .next ((u.setFetch x.port (some { g with full := true })).fetched (x.port - 61)) := by
  subst hg
  show execFwDataRx s = _
  simp only [execFwDataRx, ht, hf]
  rw [if_neg (by simp [hm, hfull, hr, htag, haddr, hst, hn])]
  split
  next k hk =>
    obtain rfl : k = n := Option.some.inj (Eq.trans hk.symm htotal)
    exact if_pos hlen
  next hk => exact nomatch Eq.trans hk.symm htotal

/-- R493: more of its bytes are wanted. -/
theorem exec_fwDataRx_more {g : Fetch} (hg : g = f.gains (mgPayload x.d (64 * min 64 (MgH.of x.d).count)))
    (hmore : ∀ n, g.total = some n → n ≤ 2 ^ 21 ∧ g.got.len < n) : exec .fwDataRx s = .next (u.fwReq x.port g) := by
  subst hg
  show execFwDataRx s = _
  simp only [execFwDataRx, ht, hf]
  rw [if_neg (by simp [hm, hfull, hr, htag, haddr, hst, hn])]
  split
  next n htotal =>
    obtain ⟨hsize, hlen⟩ := hmore n htotal
    exact if_neg (by rintro (h | h); exacts [absurd h (by omega), absurd hlen (Nat.not_lt.2 h)])
  · rfl

end

/-! ### The firmware service (R506) -/

section
variable {s u : State} {x : MgIn} (ht : s.mgTake [0x34] = some (x, u)) (hc : s.coreRuns 1 = true)
include ht hc

theorem exec_fwReqRx_disabled (he : s.g Reg.MGT_FW_SERVE.enable = 0) : exec .fwReqRx s = .next u := by
  show execFwReqRx s = _
  simp only [execFwReqRx, ht]
  rw [if_neg (by simp [hc]), if_pos (Or.inr (Or.inl he))]

variable (hm : s.mgRuns = true) (he : s.g Reg.MGT_FW_SERVE.enable = 1) (hrole : s.role s.crs.active x.port = 4) (hup : s.up x.port = true)
include hm he hrole hup

/-- R506: a request on a service port is answered, with bytes of the image or with a status. -/
theorem exec_fwReqRx {m a : MgH} {status n : Nat} (hmh : m = MgH.of x.d)
    (hst : status = if m.dstEp ≠ 0x03 then 0x04 else if m.addr ≥ s.mgt.image.len then 0x02 else 0)
    (hn : n = if status = 0 then min (min 64 m.count) (ceilDiv (s.mgt.image.len - m.addr) 64) else 0)
    (ha : a = { m.answer s.mgMe status n with rpos := if m.rlen = 0 then 0 else 1 }) : exec .fwReqRx s =
      .next ((u.mgOut x.port 0x35 (s.course % 65536) s.crs.active 0 (a.data.append (s.mgt.image.slice m.addr (64 * n)))).bump Ctr.MGT_FW_SERVE_COUNT) := by
  subst ha hn hst hmh
  show execFwReqRx s = _
  simp only [execFwReqRx, ht]
  rw [if_neg (by simp [hc]), if_neg (by simp [hm, he, hrole, hup])]

end

theorem exec_fwReqRx_stopped {s : State} (hc : s.coreRuns 1 = false) : exec .fwReqRx s = .next s := by
  show execFwReqRx s = _
  rw [execFwReqRx]
  split
  · rfl
  · rw [if_pos (by simp [hc])]

/-- Settles O55: the boot's commands by their equations. -/
theorem boot : Obligations.Boot := by
  refine ⟨fun s f hf hm hb hpf hp => ⟨State.bootGo_taken hf hm hb hpf hp, State.bootGo_busy⟩, fun s f h => State.bootGo_refused h,
    fun s req h => exec_bootMboxGo_other h, fun s h => ⟨_, rfl, State.goFetch_pending h, fun hlen => ⟨_, _, rfl, rfl, State.bootRead_more hlen⟩⟩,
    fun s d hm hst hstage hgo hlen => ⟨s.hostGets d, rfl, s.hostGets_stays d, fun hmore => ?more, fun hall => ?all,
      fun c => exec_bootImageReadReturn_error hm hst hstage hgo hlen c⟩,
    fun s d hm hd => exec_bootFetchComplete_host hm hd, fun s k d _ => ⟨_, rfl, s.bootAccept_monitor k d⟩,
    fun s p f hf hm hfull hr hdue => ?timeout, fun s p c f hf hr hm hdue hup => exec_fwFetchRetry hf hr hm hdue hup,
    fun s u x f ht hf hm hfull hr htag haddr hst hn => ⟨f.gains _, rfl, rfl, rfl, fun h => ?wants, fun n htotal hlen => ?whole⟩,
    fun s u x ht hc hm he hrole hup => ⟨_, MgH.of x.d, _, _, exec_fwReqRx ht hc hm he hrole hup rfl rfl rfl rfl, rfl, rfl, rfl, rfl, rfl, rfl, fun hep haddr => ?bytes,
      fun hep haddr => ?beyond, fun hep => ?endpoint⟩,
    fun s u x ht hc he => exec_fwReqRx_disabled ht hc he, fun s hc => exec_fwReqRx_stopped hc⟩
  case more => rw [exec_bootImageReadReturn_data hm hst hstage hgo hlen, if_pos hmore]
  case all => rw [exec_bootImageReadReturn_data hm hst hstage hgo hlen, if_neg (Nat.not_lt.2 hall)]
  case timeout =>
    rw [exec_fwReqTimeout hf hm hfull hr hdue]
    exact ⟨fun h => if_pos h, fun h => if_neg (by omega)⟩
  case wants => exact exec_fwDataRx_more ht hf hm hfull hr htag haddr hst hn rfl h
  case whole => exact exec_fwDataRx_whole ht hf hm hfull hr htag haddr hst hn rfl htotal (Or.inr hlen)
  case bytes =>
    have hst : (if (MgH.of x.d).dstEp ≠ 0x03 then 0x04 else if (MgH.of x.d).addr ≥ s.mgt.image.len then 0x02 else 0) = 0 := by
      rw [if_neg (not_not.2 hep), if_neg (by omega)]
    exact ⟨hst, if_pos hst⟩
  case beyond =>
    have hst : (if (MgH.of x.d).dstEp ≠ 0x03 then 0x04 else if (MgH.of x.d).addr ≥ s.mgt.image.len then 0x02 else 0) = 0x02 := by
      rw [if_neg (not_not.2 hep), if_pos haddr]
    exact ⟨hst, if_neg (by rw [hst]; decide)⟩
  case endpoint =>
    have hst : (if (MgH.of x.d).dstEp ≠ 0x03 then 0x04 else if (MgH.of x.d).addr ≥ s.mgt.image.len then 0x02 else 0) = 0x04 := if_pos hep
    exact ⟨hst, if_neg (by rw [hst]; decide)⟩

end Sys2Proof.Machine
end

section
/-! The window bridge (R441-R454): the words of a window's entry, writes and reads of BAR4, and prefetched lines. -/
namespace Sys2Proof.Machine

/-! ### A window's entry (R442, R443) -/

theorem exec_windowEntryWrite {s : State} {req : Requester} {f j w : Nat} (v : Nat) (hf : f < 1024) (hw : w < 4)
    (hj : j < 8 ∨ (isPf f = true ∧ j < 64)) (hv : vfOf req = none ∨ vfOf req = some f) :
    exec (.windowEntryWrite req f j w v) s = .next (s.access req (winReach req f j w) v) := by
  show execWindowEntryWrite req f j w v s = _
  rw [execWindowEntryWrite, if_pos ⟨hf, hw, hj, hv⟩]

theorem State.mayWrite_WIN_FN {req : Requester} {d : RegDef} {i : Nat} (hd : d.id = .WIN_FN) (h : ∀ g, req = .fn g → g = i) :
    State.mayWrite req d i = true := by
  simp only [State.mayWrite, hd]
  cases req with
  | fn g => simp [h g rfl]
  | mc c => rfl
  | monitor => rfl
  | fm => rfl

theorem State.mayWrite_WIN_PF {req : Requester} {d : RegDef} {i : Nat} (hd : d.id = .WIN_PF) (h : ofPort req i = true) :
    State.mayWrite req d i = true := by
  simp only [State.mayWrite, hd]
  exact h

theorem isPf_eq {f : Nat} (h : isPf f = true) : f < 1024 ∧ hpOf f * 256 = f := by
  simp only [isPf, Bool.and_eq_true, decide_eq_true_eq, beq_iff_eq] at h
  unfold hpOf
  omega

/-- R442: where a window's word lies, and who may write it. -/
theorem winOff_located {req : Requester} {f j w : Nat} (hf : f < 1024) (hw : w < 4)
    (h : (j < 8 ∧ ∀ g, req = .fn g → g = f) ∨ (8 ≤ j ∧ j < 64 ∧ isPf f = true ∧ ofPort req (hpOf f) = true)) :
    ∃ d i, locPf (winOff f j + 4 * w) = .reg d i j w ∧ State.mayWrite req d i = true ∧
      (∀ s : State, s.absentUnit d i = false) ∧ ∀ (s : State) (o v : Nat), s.regWrite req d i j w o v = s.windowWrite d f j w v := by
  obtain ⟨hj, hown⟩ | ⟨h8, hj, hpf, hport⟩ := h
  · rw [winOff, if_pos hj]
    obtain ⟨d, hloc, hd⟩ := isReg_elim (locPf_WIN_FN f j w hf hj hw)
    exact ⟨d, f, hloc, State.mayWrite_WIN_FN hd hown, fun s => by simp only [State.absentUnit, hd], fun s o v => by simp only [State.regWrite, hd]⟩
  · obtain ⟨hsmall, hbase⟩ := isPf_eq hpf
    rw [winOff, if_neg (by omega)]
    obtain ⟨d, hloc, hd⟩ := isReg_elim (locPf_WIN_PF (hpOf f) j w (by omega) hj hw)
    exact ⟨d, hpOf f, hloc, State.mayWrite_WIN_PF hd hport, fun s => by simp only [State.absentUnit, hd],
      fun s o v => by simp only [State.regWrite, hd, hbase]⟩

theorem winOff_aligned (f j w : Nat) : (winOff f j + 4 * w) % 4 = 0 := by
  unfold winOff Reg.WIN_FN.off Reg.WIN_PF.off
  split <;> omega

theorem exec_windowEntryWrite_owner {s : State} {req : Requester} {f j w v : Nat} (hf : f < 1024) (hw : w < 4) (hv : vfOf req = none)
    (hm : Sys2Proof.mayConfigure s req (winOff f j + 4 * w))
    (h : (j < 8 ∧ ∀ g, req = .fn g → g = f) ∨ (8 ≤ j ∧ j < 64 ∧ isPf f = true ∧ ofPort req (hpOf f) = true)) :
    ∃ d i, locPf (winOff f j + 4 * w) = .reg d i j w ∧ exec (.windowEntryWrite req f j w v) s =
      .next ((s.lockCheck d w (s.word (winOff f j + 4 * w)) (v % 2 ^ 32)).windowWrite d f j w (v % 2 ^ 32)).settle := by
  obtain ⟨d, i, hloc, hmay, hunit, hwrite⟩ := winOff_located hf hw h
  have hreach : winReach req f j w = winOff f j + 4 * w := by simp only [winReach, hv]
  have hj : j < 8 ∨ (isPf f = true ∧ j < 64) := h.imp And.left fun h => ⟨h.2.2.1, h.2.1⟩
  refine ⟨d, i, hloc, ?_⟩
  rw [exec_windowEntryWrite v hf hw hj (Or.inl hv), hreach, State.access_reg hm hloc (winOff_aligned f j w) hmay (hunit s), hwrite, bits_word]

/-! ### What the write of a word does (R443, R448, R453) -/

theorem setBits_twice (x l w a b : Nat) : setBits (setBits x l w a) l w b = setBits x l w b := by
  refine Nat.eq_of_testBit_eq fun i => ?_
  rw [testBit_setBits, testBit_setBits, testBit_setBits]
  split <;> rfl

section
variable {s : State} {f j : Nat} (d : RegDef) (v : Nat)

theorem State.windowWrite_enabled {w : Nat} (hw : w < 3) (he : (s.win f j).enable = true) : s.windowWrite d f j w v = s.badAccess := if_pos ⟨hw, he⟩

theorem State.windowWrite_disabled {w : Nat} (hw : w < 3) (he : (s.win f j).enable = false) :
    s.windowWrite d f j w v = s.plainWrite d w (winOff f j + 4 * w) v := by
  have h3 : (w = 3) = False := eq_false (by omega)
  rw [State.windowWrite]
  dsimp only
  rw [if_neg (by simp [he]), if_neg (by omega), if_neg (by simp [h3])]

/-- The write of word 3; `kept` says that a failure has set err in this cycle. -/
theorem State.windowWrite_control : s.windowWrite d f j 3 v =
    (s.plainWrite d 3 (winOff f j + 4 * 3) (if Tbl.find? s.brg.errAt (f * 64 + j) = some s.cycles then setBits v 27 1 0 else v)).pfKill
      (fun e => e.fn == f && e.win == j) := by
  rw [State.windowWrite]
  dsimp only
  rw [if_neg (by omega), if_pos rfl]
  simp

/-- R453: an entry that has been invalidated is gone, or its data will be discarded. -/
theorem State.pf_pfKill {s : State} {p : PfEnt → Bool} {e : Nat × PfEnt}
    (he : e ∈ (s.pfKill p).brg.pf) (h : p e.2 = true) : e.2.dead = true := by
  obtain ⟨x, -, hx⟩ := List.mem_filterMap.1 he
  split at hx
  next hpx =>
    split at hx
    · exact nomatch hx
    · rw [← Option.some.inj hx]
  next hpx =>
    rw [Option.some.inj hx] at hpx
    exact absurd h hpx

end

/-! ### Writes (R446-R448) -/

theorem State.brg_pfKill_none {s : State} (p : PfEnt → Bool) (h : s.brg.pf = []) : s.pfKill p = s := by
  have hbrg : { s.brg with pf := [] } = s.brg := by rw [← h]
  simp only [State.pfKill, State.onBrg, h, List.filterMap_nil, hbrg]

section
variable {s : State} {f o : Nat} {d : Data} {be : Nat} (hf : s.mode ≠ .fenced) (ho : s.mode ≠ .off)
include hf ho

/-- R446: an access that no window accepts is dropped. -/
theorem exec_bar4Write_dropped (h : s.accept f (o / 2 ^ 26) true = .ur) : exec (.bar4Write f o d be) s = .next (s.bump Ctr.BRG_WRITE_DROP_COUNT) := by
  show execBar4Write f o d be s = _
  simp only [execBar4Write, h]
  rw [if_neg (by simp [hf, ho])]

/-- R446: a write without an enabled byte. -/
theorem exec_bar4Write_empty {e : Nat} {v : Win} (h : s.accept f (o / 2 ^ 26) true = .ok e v) (hr : enabledRuns be d.len 0 = []) (hp : s.brg.pf = []) :
    exec (.bar4Write f o d be) s = .next (s.bump Ctr.BRG_WRITE_COUNT) := by
  show execBar4Write f o d be s = _
  simp only [execBar4Write, h, hr, List.foldl_nil]
  rw [if_neg (by simp [hf, ho]), State.brg_pfKill_none (s := s.bump Ctr.BRG_WRITE_COUNT) _ hp]

/-- R446: a run of enabled bytes waits as a put of its own. -/
theorem exec_bar4Write_run {e a n : Nat} {v : Win} (h : s.accept f (o / 2 ^ 26) true = .ok e v) (hr : enabledRuns be d.len 0 = [(a, n)]) :
    ∃ t w, exec (.bar4Write f o d be) s = .next t ∧ Tbl.find? t.brg.writes s.brg.serial = some w ∧ w.fn = f ∧ w.win = o / 2 ^ 26 ∧
      w.off = v.offset + o % 2 ^ 26 + a ∧ w.data = d.slice a n ∧ w.op = none ∧ t.brg.serial = s.brg.serial + 1 ∧
      t.ctr Ctr.BRG_WRITE_COUNT = s.ctr Ctr.BRG_WRITE_COUNT + 1 := by
  refine ⟨_, ⟨f, o / 2 ^ 26, v, e, s.g (Reg.BRG_FN_CFG.tc f), v.offset + o % 2 ^ 26 + a, d.slice a n, none⟩, by
    show execBar4Write f o d be s = _
    simp only [execBar4Write, h, hr, List.foldl_cons, List.foldl_nil]
    rw [if_neg (by simp [hf, ho])], Tbl.find?_ins_self _ _ _, rfl, rfl, rfl, rfl, rfl, rfl, ?_⟩
  exact s.ctr_bump_self _

end

/-- R447: a put that may go is sent as an operation. -/
theorem exec_windowWriteSend {s : State} {id : Nat} {x : BWrite} (hx : Tbl.find? s.brg.writes id = some x) (hop : x.op = none) (hlive : s.live = true)
    (herr : x.w.acked = true → (s.win x.fn x.win).err = false) (hgo : s.writeMayGo id x = true) : ∃ o : Op, o.opcode = 0x40 ∧ o.opLen = x.data.len ∧
      exec (.windowWriteSend id) s = .next ((s.newOp o).onBrg (fun b => { b with writes := Tbl.ins b.writes id { x with op := some s.trn.nextOp } })) := by
  refine ⟨{ s.winOp x.fn x.ep x.tc x.w (.brgWrite id) 0x40 x.data.len x.off 0 with pay := .bytes x.data }, rfl, rfl, ?_⟩
  show execWindowWriteSend id s = _
  simp only [execWindowWriteSend, hx]
  rw [if_neg (by simp [hop, hlive]), if_neg (by
    rintro ⟨ha, he⟩
    rw [herr ha] at he
    exact nomatch he), if_neg (by simp [hgo])]

/-! ### Reads (R446, R447, R449) -/

section
variable {s : State} {f o n tag k : Nat} (hf : s.mode ≠ .fenced) (ho : s.mode ≠ .off)
  (hroom : (s.brg.reads.filter (fun r => r.1 == hpOf f)).length < 768)
include hf ho hroom

theorem exec_bar4Read_ur (h : s.accept f (o / 2 ^ 26) (k == 0) = .ur) :
    exec (.bar4Read f o n tag k) s = .next ((s.bump Ctr.BRG_UR_COUNT).completeErr (hpOf f) tag 1) := by
  show execBar4Read f o n tag k s = _
  simp only [execBar4Read, h]
  rw [if_neg ho, if_neg hf, if_neg (Nat.not_le.2 hroom)]

theorem exec_bar4Read_ca (h : s.accept f (o / 2 ^ 26) (k == 0) = .ca) :
    exec (.bar4Read f o n tag k) s = .next ((s.bump Ctr.BRG_UR_COUNT).completeErr (hpOf f) tag 4) := by
  show execBar4Read f o n tag k s = _
  simp only [execBar4Read, h]
  rw [if_neg ho, if_neg hf, if_neg (Nat.not_le.2 hroom)]

theorem exec_bar4Read_ok {e : Nat} {v : Win} (h : s.accept f (o / 2 ^ 26) (k == 0) = .ok e v) : ∃ (u : State) (x : BRead),
    exec (.bar4Read f o n tag k) s = .next (u.readGo x) ∧ x.fn = f ∧ x.tag = tag ∧ x.addr = o % 2 ^ 26 ∧ x.len = n ∧ x.serial = s.brg.serial ∧
      u.brg.reads = s.brg.reads ++ [(hpOf f, x)] := by
  refine ⟨_, ⟨f, o / 2 ^ 26, v, e, s.g (Reg.BRG_FN_CFG.tc f), tag, o % 2 ^ 26, n, s.nowAt, none, s.brg.serial, false⟩, by
    show execBar4Read f o n tag k s = _
    simp only [execBar4Read, h]
    rw [if_neg ho, if_neg hf, if_neg (Nat.not_le.2 hroom)], rfl, rfl, rfl, rfl, rfl, rfl⟩

end

/-- R447: a read waits for the earlier writes of its window. -/
theorem State.readGo_waits {s : State} {x : BRead} (h : s.writesBefore x = true) : s.readGo x = s := if_pos (Or.inr h)

section
variable {s : State} {x : BRead} (hop : x.op = none) (hw : s.writesBefore x = false)
include hop hw

/-- R448: a read ends with its window. -/
theorem State.readGo_aborts (h : x.failed = true ∨ ((s.win x.fn x.win).err = true ∧ x.w.acked = true)) :
    s.readGo x = (s.dropRead x).completeErr (hpOf x.fn) x.tag 4 := by
  rw [State.readGo]
  dsimp only
  rw [if_neg (by simp [hop, hw]), if_pos h]

variable (hf : x.failed = false) (he : ¬ ((s.win x.fn x.win).err = true ∧ x.w.acked = true))
include hf he

/-- R449: a read without bytes is a flush. -/
theorem State.readGo_flush (h : x.len = 0) : s.readGo x = (s.dropRead x).emit (.completion (hpOf x.fn) x.tag 0 ⟨4, 0⟩) := by
  rw [State.readGo]
  dsimp only
  rw [if_neg (by simp [hop, hw]), if_neg (not_or.2 ⟨by simp [hf], he⟩), if_pos h]

variable (hn : x.len ≠ 0)
include hn

/-- R453: a read is answered from the store. -/
theorem State.readGo_hit {d : Data} (h : s.pfHit x = some d) : s.readGo x =
    (((s.dropRead x).bump Ctr.BRG_PREFETCH_HIT_COUNT).completeData (hpOf x.fn) x.tag x.addr d 65).readAhead x := by
  rw [State.readGo]
  dsimp only
  rw [if_neg (by simp [hop, hw]), if_neg (not_or.2 ⟨by simp [hf], he⟩), if_neg hn]
  simp only [h]

/-- R446: a read goes out as a get. -/
theorem State.readGo_get (h : s.pfHit x = none) : ∃ o : Op, o.opcode = 0x41 ∧ o.opLen = x.len ∧ o.srcEp = x.ep ∧ o.dstEp = x.w.targetEp ∧ o.tc = x.tc ∧
    o.fields = packB [(0, 32, x.w.key), (4, 48, x.w.offset + x.addr), (10, 1, 0)] ∧ o.ordered = x.w.ordered ∧ o.identity = x.fn ∧
    s.readGo x = ((s.newOp o).setRead { x with op := some s.trn.nextOp }).readAhead x := by
  refine ⟨{ s.winOp x.fn x.ep x.tc x.w (.brgRead x.serial) 0x41 x.len (x.w.offset + x.addr) 0 with dest := .chunks [] },
    rfl, rfl, rfl, rfl, rfl, rfl, rfl, rfl, ?_⟩
  rw [State.readGo]
  dsimp only
  rw [if_neg (by simp [hop, hw]), if_neg (not_or.2 ⟨by simp [hf], he⟩), if_neg hn]
  simp only [h]

end

/-- R449: the last completion of a read. -/
theorem State.completeData_last {s : State} {h tag addr : Nat} {d : Data} (n : Nat) (hd : d.len ≤ min d.len (64 - addr % 64)) :
    s.completeData h tag addr d (n + 1) = s.emit (.completion h tag 0 d) := if_pos hd

/-- R449: completions are split at 64-byte boundaries of the address. -/
theorem State.completeData_split {s : State} {h tag addr : Nat} {d : Data} (n : Nat) (hd : 64 - addr % 64 < d.len) :
    s.completeData h tag addr d (n + 1) = (s.emit (.completion h tag 0 (d.slice 0 (64 - addr % 64)))).completeData h tag (addr + (64 - addr % 64))
      (d.slice (64 - addr % 64) (d.len - (64 - addr % 64))) n := by
  rw [State.completeData, if_neg (by omega), Nat.min_eq_right (by omega)]

section
variable {s : State} {id : Nat} {x : BRead} (hx : s.read? id = some x)
include hx

section
variable {o : Op} {r : Res} (ho : x.op.bind s.op? = some o) (hr : o.done = some r)
include ho hr

theorem exec_windowReadComplete_error (hst : r.status ≠ 0) :
    exec (.windowReadComplete id) s = .next ((s.delOp (x.op.getD 0)).readFail x r.status r.detail Ctr.BRG_READ_FAIL_COUNT) := by
  show execWindowReadComplete id s = _
  simp only [execWindowReadComplete, hx, ho, hr]
  rw [if_pos hst]

theorem exec_windowReadComplete_data (hst : r.status = 0) {l : List (Nat × Data)} (hl : o.dest = .chunks l) : exec (.windowReadComplete id) s =
    .next (((s.delOp (x.op.getD 0)).dropRead x).completeData (hpOf x.fn) x.tag x.addr (Data.join (l.map Prod.snd)) 65) := by
  show execWindowReadComplete id s = _
  simp only [execWindowReadComplete, hx, ho, hr, hl]
  rw [if_neg (not_not.2 hst)]

end

variable (hdue : max 1 (s.g Reg.BRG_CFG.read_tmo) ≤ s.over x.at_)
include hdue

/-- R450: a read that waits is given up. -/
theorem exec_windowReadTimeout_waiting (hop : x.op = none) : exec (.windowReadTimeout id) s =
    .next (s.draw.2.readFail x (s.draw.1 % 256) (s.draw.1 / 256 % 65536) Ctr.BRG_READ_TMO_COUNT) := by
  show execWindowReadTimeout id s = _
  simp only [execWindowReadTimeout, hx, hop, Option.bind_none]
  rw [if_pos (by simpa using hdue)]

/-- R450: a read whose get is out too long is given up. -/
theorem exec_windowReadTimeout_out {i : Nat} {o : Op} (hop : x.op = some i) (ho : s.op? i = some o) (hd : o.done = none) :
    exec (.windowReadTimeout id) s =
      .next ((s.draw.2.delOp i).readFail x (s.draw.1 % 256) (s.draw.1 / 256 % 65536) Ctr.BRG_READ_TMO_COUNT) := by
  show execWindowReadTimeout id s = _
  simp only [execWindowReadTimeout, hx, hop, Option.bind_some, ho, hd]
  rw [if_pos (by simpa using hdue)]

end

/-! ### Prefetched lines (R452-R454) -/

theorem exec_windowReadTimeout_prefetch {s : State} {id : Nat} {e : PfEnt} {o : Op} (hx : s.read? id = none) (he : Tbl.find? s.brg.pf id = some e)
    (hd : e.data = none) (ho : s.op? e.op = some o) (hdone : o.done = none) (hdue : max 1 (s.g Reg.BRG_CFG.read_tmo) ≤ s.over e.at_) :
    exec (.windowReadTimeout id) s = .next (((s.delOp e.op).onBrg (fun b => { b with pf := Tbl.del b.pf id })).bump Ctr.BRG_SPEC_DROP_COUNT) := by
  show execWindowReadTimeout id s = _
  simp only [execWindowReadTimeout, hx, State.prefetchTimeout, he, ho, hdone, hd]
  rw [if_pos (by simpa using hdue)]

theorem exec_prefetchExpiry {s : State} {id at_ : Nat} {x : PfEnt} {d : Data} (hx : Tbl.find? s.brg.pf id = some x) (hd : x.data = some (d, at_)) :
    exec (.prefetchExpiry id) s =
      if at_ + s.g Reg.BRG_CFG.pf_life ≤ s.cycles then .next (s.onBrg (fun b => { b with pf := Tbl.del b.pf id })) else .next s := by
  show execPrefetchExpiry id s = _
  simp only [execPrefetchExpiry, hx, hd, ge_iff_le]

/-! ### A write that has failed (R448) -/

theorem Tbl.mem_del {α : Type} {t : Tbl α} {a : Nat} {e : Nat × α} (h : e ∈ Tbl.del t a) : e ∈ t ∧ e.1 ≠ a := by
  simpa [Tbl.del] using h

theorem State.word_of_regs {s t : State} (h : t.regs = s.regs) (o : Nat) : t.word o = s.word o := by rw [State.word, State.word, h]

/-- R448: err is set. -/
theorem State.word_winErr (s : State) (f w : Nat) : bits ((s.winErr f w).word (winOff f w + 12)) 27 1 = 1 := by
  have hregs : (s.winErr f w).regs = (s.setWord (winOff f w + 12) (setBits (s.word (winOff f w + 12)) 27 1 1)).regs := by
    simp only [State.winErr, State.onBrg, State.bumpBy]
  rw [State.word_of_regs hregs, State.word_setWord_self, ← bits_word, bits_bits_word (by decide), bits_setBits_self]
  rfl

/-- R448: the writes that a failed window discards. -/
def BWrite.discarded (f w : Nat) (x : BWrite) : Bool := x.fn == f && x.win == w && x.w.acked && x.op.isNone

/-- R448: a read of a failed window that waits. -/
def BRead.failWith (f w : Nat) (x : BRead) : BRead := if x.fn = f ∧ x.win = w ∧ x.w.acked ∧ x.op.isNone then { x with failed := true } else x

theorem State.brg_winErr (s : State) (f w : Nat) : (s.winErr f w).brg.writes = Tbl.keep (fun _ x => !x.discarded f w) s.brg.writes ∧
    (s.winErr f w).brg.reads = s.brg.reads.map (fun r => (r.1, r.2.failWith f w)) := by
  have hreads : s.brg.reads.map (fun r => (r.1, r.2.failWith f w)) = s.brg.reads.map (fun r =>
      if r.2.fn = f ∧ r.2.win = w ∧ r.2.w.acked ∧ r.2.op.isNone then (r.1, { r.2 with failed := true }) else r) :=
    List.map_congr_left fun r _ => by
      unfold BRead.failWith
      split <;> rfl
  rw [hreads, State.winErr]
  simp only [State.bumpBy_brg, State.onBrg_brg, State.setWord_brg]
  exact ⟨rfl, trivial⟩

section
variable {s : State} {f w : Nat}

/-- R448: the acknowledged writes that have not been sent are gone. -/
theorem State.writes_winErr {e : Nat × BWrite} (he : e ∈ (s.winErr f w).brg.writes) : e ∈ s.brg.writes ∧ e.2.discarded f w = false := by
  rw [(s.brg_winErr f w).1] at he
  simpa [Tbl.keep] using he

theorem BWrite.sent_of_kept {x : BWrite} (h : x.discarded f w = false) (hf : x.fn = f) (hw : x.win = w) (ha : x.w.acked = true) : x.op.isSome = true := by
  simpa [BWrite.discarded, hf, hw, ha] using h

/-- R448: its reads that wait fail. -/
theorem State.reads_winErr {e : Nat × BRead} (he : e ∈ (s.winErr f w).brg.reads) (hf : e.2.fn = f) (hw : e.2.win = w) (ha : e.2.w.acked = true)
    (hop : e.2.op = none) : e.2.failed = true := by
  rw [(s.brg_winErr f w).2] at he
  obtain ⟨r, -, rfl⟩ := List.mem_map.1 he
  dsimp only at hf hw ha hop ⊢
  unfold BRead.failWith at hf hw ha hop ⊢
  split
  · rfl
  next hno =>
    rw [if_neg hno] at hf hw ha hop
    exact absurd ⟨hf, hw, ha, by simp [hop]⟩ hno

end

/-! The puts that wait are untouched when reads go on (R447). -/

theorem State.writes_of_stays {w : List Sys2Proof.Part} {s t : State} (h : Stays w s t) (hw : ¬ Sys2Proof.Part.brg ∈ w) :
    t.brg.writes = s.brg.writes := by rw [h.brg hw]

theorem State.writes_readAhead (s : State) (x : BRead) : (s.readAhead x).brg.writes = s.brg.writes := by
  unfold State.readAhead
  extract_lets from_ n used id op o w s1
  have h1 : s1.brg.writes = s.brg.writes := State.writes_of_stays (State.newOp_stays _ (Has.refl _) (Stays.refl s)) (by decide)
  split
  · rfl
  · exact h1

theorem State.writes_readGo (s : State) (x : BRead) : (s.readGo x).brg.writes = s.brg.writes := by
  unfold State.readGo
  extract_lets hp op w s1
  have hs1 : s1.brg.writes = s.brg.writes := State.writes_of_stays (State.newOp_stays _ (Has.refl _) (Stays.refl s)) (by decide)
  split
  · rfl
  · split
    · rfl
    · split
      · rfl
      · split
        · rw [State.writes_readAhead, State.writes_of_stays (State.completeData_stays _ _ _ _ _ (Has.refl _) (Stays.refl _)) (by decide)]
          rfl
        · rw [State.writes_readAhead]
          exact hs1

theorem State.writes_foldl {α : Type} {f : State → α → State} (l : List α) (s : State) (h : ∀ t x, (f t x).brg.writes = t.brg.writes) :
    (l.foldl f s).brg.writes = s.brg.writes := by
  induction l generalizing s with
  | nil => rfl
  | cons x l ih => exact (ih (f s x)).trans (h s x)

theorem State.writes_settleBrg (s : State) : s.settleBrg.brg.writes = s.brg.writes :=
  State.writes_foldl _ _ fun t r => by
    split
    · exact t.writes_readGo _
    · rfl

/-- R448: the put has failed. -/
theorem exec_windowWriteFail {s : State} {id : Nat} {x : BWrite} {r : Res} (hx : Tbl.find? s.brg.writes id = some x) (hr : s.opFailed x.op = some r) :
    ∃ t u : State, t = ((((s.delOp (x.op.getD 0)).onBrg (fun b => { b with writes := Tbl.del b.writes id })).brgErr x.fn x.win r.status r.detail).bump
        Ctr.BRG_WRITE_FAIL_COUNT).raise (srcBrg 0) 0 x.win (some x.fn) ∧ u = (if x.w.acked then t.winErr x.fn x.win else t) ∧
      exec (.windowWriteFail id) s = .next u.settleBrg :=
  ⟨_, _, rfl, rfl, by
    show execWindowWriteFail id s = _
    simp only [execWindowWriteFail, hx, hr]⟩

/-- Settles O51: each command by its equation, and what a failed window leaves among its waiting accesses. -/
theorem bridgeWindows : Obligations.BridgeWindows := by
  refine ⟨⟨fun s req f j w v hf hw hj hv ha => ?word, fun s req f j w v hf hw hv hm h => exec_windowEntryWrite_owner hf hw hv hm h,
      fun s d f j w v => ⟨State.windowWrite_enabled d v, State.windowWrite_disabled d v, fun herr => ?held, fun e he hf hw => ?killed⟩⟩,
    ⟨fun s f o d be hf ho => ⟨fun e v => exec_bar4Write_empty hf ho, fun e a n v => exec_bar4Write_run hf ho, exec_bar4Write_dropped hf ho⟩,
      fun s id x hx hop hlive herr hgo => exec_windowWriteSend hx hop hlive herr hgo,
      fun s f o n tag k hf ho hroom => ⟨exec_bar4Read_ur hf ho hroom, exec_bar4Read_ca hf ho hroom, fun e v => exec_bar4Read_ok hf ho hroom⟩,
      fun s x hop => ⟨State.readGo_waits, fun hw => ⟨State.readGo_aborts hop hw, fun hf he => ⟨State.readGo_flush hop hw hf he,
        fun d hn => State.readGo_hit hop hw hf he hn, State.readGo_get hop hw hf he⟩⟩⟩,
      fun s h tag addr n d => ⟨State.completeData_last n, fun hd => ⟨_, rfl, State.completeData_split n hd⟩⟩,
      fun s id x o r hx ho hr => ⟨exec_windowReadComplete_error hx ho hr, fun l hst => exec_windowReadComplete_data hx ho hr hst⟩,
      fun s id x hx hdue hop => ⟨_, _, _, exec_windowReadTimeout_waiting hx hdue hop, State.draw_stays (Has.refl _) (Stays.refl s)⟩,
      fun s id i x o hx hdue hop ho hd => ⟨_, _, _, exec_windowReadTimeout_out hx hdue hop ho hd, State.draw_stays (Has.refl _) (Stays.refl s)⟩,
      fun s id e o hx he hd ho hdone hdue => exec_windowReadTimeout_prefetch hx he hd ho hdone hdue, fun s id x r hx hr => ?fails,
      fun s id at_ x d hx hd => ?expires⟩⟩
  case word => rw [exec_windowEntryWrite v hf hw hj hv, State.access, if_pos ha]
  case held => rw [State.windowWrite_control, State.windowWrite_control, if_pos herr, if_pos herr, setBits_twice]
  case killed =>
    rw [State.windowWrite_control] at he
    exact State.pf_pfKill he (by simp [hf, hw])
  case expires =>
    rw [exec_prefetchExpiry hx hd]
    exact ⟨fun h => if_pos h, fun h => if_neg (Nat.not_le.2 h)⟩
  case fails =>
    obtain ⟨t, u, ht, hu, hexec⟩ := exec_windowWriteFail hx hr
    refine ⟨t, u, ht, hu, hexec, ?_, fun ha => ?_⟩
    · have hgone : ∀ e ∈ t.brg.writes, e.1 ≠ id := by
        rw [ht, State.writes_of_stays (State.raise_stays _ _ _ _ _ (Has.refl _) (Stays.refl _)) (by decide)]
        exact fun e he => (Tbl.mem_del (t := s.brg.writes) he).2
      rw [State.writes_settleBrg]
      refine Tbl.find?_none ?_
      rw [hu]
      split
      · exact fun e he => hgone e (State.writes_winErr he).1
      · exact hgone
    · rw [if_pos ha] at hu
      subst hu
      exact ⟨t.word_winErr _ _, fun e he => BWrite.sent_of_kept (State.writes_winErr he).2, fun e => State.reads_winErr⟩

end Sys2Proof.Machine
end

section
/-! Remote memory, the initiator and the keys (R364-R366, R373, R379-R383): what each entry starts, and the course of a key. -/
namespace Sys2Proof.Machine

/-! ### Puts, gets and atomics (R364, R373) -/

section
variable {s : State} {q : Nat} {v : Sq} {e : Ent} {p : Ep}

theorem State.startPut_newOp (s : State) (q : Nat) (v : Sq) (e : Ent) (p : Ep) : ∃ o : Op, s.startPut q v e p = (s.runEntry q e.ctr 0).newOp o ∧
    o.opcode = 0x40 ∧ o.total = max 1 (ceilDiv (Rw.len e.raw) 4096) ∧ o.resp = o.total ∧ o.opLen = Rw.len e.raw ∧
    o.pay = .host p.as_ (Rw.local_ e.raw) (Rw.len e.raw) p.owner (Wqe.override e.raw) := ⟨_, rfl, rfl, rfl, rfl, rfl, rfl⟩

theorem exec_rmaPut (h : s.epEntry q 0x10 = some (v, e, p)) : exec (.rmaPut q) s = .next (s.startPut q v e p) := by
  show execRmaPut q s = _
  simp only [execRmaPut, h]

theorem exec_rmaPutNotify (h : s.epEntry q 0x12 = some (v, e, p)) : exec (.rmaPutNotify q) s = .next (s.startPut q v e p) := by
  show execRmaPutNotify q s = _
  simp only [execRmaPutNotify, h]

theorem exec_rmaGet (h : s.epEntry q 0x11 = some (v, e, p)) : ∃ o : Op, exec (.rmaGet q) s = .next ((s.runEntry q e.ctr 0).newOp o) ∧ o.opcode = 0x41 ∧
    o.resp = max 1 (ceilDiv (Rw.len e.raw) 4096) ∧ o.fields = (rmaOp q v e p 0x41 (Rw.len e.raw) 0).fields := by
  refine ⟨{ rmaOp q v e p 0x41 (Rw.len e.raw) 0 with
      resp := max 1 (ceilDiv (Rw.len e.raw) 4096), extra := respBricks (Rw.len e.raw) (s.encrypts (rmaOp q v e p 0x41 (Rw.len e.raw) 0).ctx),
      dest := .host p.as_ (Rw.local_ e.raw) (Rw.len e.raw) p.owner (Wqe.override e.raw) }, ?_, rfl, rfl, rfl⟩
  show execRmaGet q s = _
  simp only [execRmaGet, h]

theorem exec_rmaAtomic (h : s.epEntry q 0x13 = some (v, e, p)) : ∃ o : Op, exec (.rmaAtomic q) s = .next ((s.runEntry q e.ctr 0).newOp o) ∧
    o.opcode = 0x43 ∧ o.resp = 1 ∧ o.opLen = Rw.bytes e.raw := by
  refine ⟨{ rmaOp q v e p 0x43 (Rw.bytes e.raw) (4 * b2n (Rw.fetch e.raw) + (Rw.aop e.raw + 16 * Rw.size e.raw) * 256) with
      resp := 1,
      pay := if Rw.size e.raw = 2 then .host p.as_ (Wqe.at_ e.raw 48 0 64) 32 p.owner (Wqe.override e.raw) else .bytes ⟨16, Wqe.at_ e.raw 48 0 128⟩,
      dest := if Rw.fetch e.raw then .host p.as_ (Rw.local_ e.raw) (Rw.bytes e.raw) p.owner (Wqe.override e.raw) else .none_ }, ?_, rfl, rfl, rfl⟩
  show execRmaAtomic q s = _
  simp only [execRmaAtomic, h]

end

/-! ### Keys: what is written where -/

theorem State.needDesc_have {s : State} {i : Nat} {d : Desc} (h : s.goodCopy i = some d) : s.needDesc i = (s, .have_ d) := by
  simp only [State.needDesc, h]

theorem State.keySt_setKey_self (s : State) (i : Nat) (k : KeySt) : (s.setKey i (some k)).keySt i = some k := Tbl.find?_ins_self _ i k

theorem State.keySt_of_stays {w : List Sys2Proof.Part} {s t : State} (h : Stays w s t) (hw : ¬ Sys2Proof.Part.rma ∈ w) (i : Nat) :
    t.keySt i = s.keySt i := by rw [State.keySt, State.keySt, h.rma hw]

theorem State.keySt_finishEntry (s : State) (q : Nat) (c : RingCtr) (r : Res) (i : Nat) : (s.finishEntry q c r).keySt i = s.keySt i :=
  State.keySt_of_stays (State.finishEntry_stays q c r (Has.refl _) (Stays.refl s)) (by decide) i

theorem State.keySt_runEntry (s : State) (q : Nat) (c : RingCtr) (n : Nat) (i : Nat) : (s.runEntry q c n).keySt i = s.keySt i :=
  State.keySt_of_stays (State.runEntry_stays q c n (Has.refl _) (Stays.refl s)) (by decide) i

/-! ### Registering a key (R366) -/

section
variable {s : State} {q : Nat} {v : Sq} {e : Ent} {d : Desc}

theorem exec_keyReg (hst : s.startable q 0x14 = some (v, e)) (hi : s.keyInTable (Kw.index e.raw) = true) (hd : s.goodCopy (Kw.index e.raw) = some d) :
    exec (.keyReg q) s = .next (s.keyReg q e d) := by
  show execKeyReg q s = _
  simp only [execKeyReg, hst, State.needDesc_have hd]
  rw [if_neg (by simp [hi])]

theorem exec_keyReg_outside (hst : s.startable q 0x14 = some (v, e)) (hi : s.keyInTable (Kw.index e.raw) = false) :
    exec (.keyReg q) s = .next (s.finishEntry q e.ctr (Res.of stRESOURCE 0)) := by
  show execKeyReg q s = _
  simp only [execKeyReg, hst]
  rw [if_pos (by simp [hi])]

/-- R366: a key that was free is valid. -/
theorem State.keySt_keyReg (hk : s.keySt (Kw.index e.raw) = none) (hd : Ds.state d.raw = 0) : ∃ k, (s.keyReg q e d).keySt (Kw.index e.raw) = some k ∧
    k.state = 1 ∧ k.ep = Ds.ep (keyRaw e.raw (Ds.tag d.raw) (Ds.revoked d.raw)) := by
  refine ⟨{ state := 1, ep := Ds.ep (keyRaw e.raw (Ds.tag d.raw) (Ds.revoked d.raw)), revoked := 0, by_ := none }, ?_, rfl, rfl⟩
  simp only [State.keyReg, hk, hd]
  rw [if_neg (by decide), if_neg (by simp), State.keySt_finishEntry, State.keySt_setKey_self]

end

/-! ### Revoking a key (R379-R381) -/

section
variable {s : State} {q : Nat} {v : Sq} {e : Ent} {d : Desc}

theorem exec_keyRevoke (hst : s.startable q 0x15 = some (v, e)) (hi : s.keyInTable (Kw.index e.raw) = true) (hd : s.goodCopy (Kw.index e.raw) = some d) :
    exec (.keyRevoke q) s = .next (s.keyRevoke q e d) := by
  show execKeyRevoke q s = _
  simp only [execKeyRevoke, hst, State.needDesc_have hd]
  rw [if_neg (by simp [hi])]

theorem State.keySt_startRevoke {i : Nat} {k : KeySt} (hk : s.keySt i = some k) (by_ : Option (Nat × RingCtr)) :
    (s.startRevoke i by_).keySt i = some { state := 2, ep := k.ep, revoked := 0, by_ := by_ } := by
  simp only [State.startRevoke, hk]
  exact State.keySt_setKey_self _ i _

variable {k : KeySt} (hk : s.keySt (keyIndex (Wqe.at_ e.raw 16 0 32)) = some k)
include hk

/-- R379: a valid key turns REVOKING. -/
theorem State.keySt_keyRevoke (h1 : k.state = 1) (ht : keyTag (Wqe.at_ e.raw 16 0 32) = Ds.tag d.raw) : ∃ w,
    (s.keyRevoke q e d).keySt (keyIndex (Wqe.at_ e.raw 16 0 32)) = some w ∧ w.state = 2 ∧ w.ep = k.ep ∧ w.by_ = some (q, e.ctr) := by
  refine ⟨{ state := 2, ep := k.ep, revoked := 0, by_ := some (q, e.ctr) }, ?_, rfl, rfl, rfl⟩
  simp only [State.keyRevoke, hk, h1]
  rw [if_neg (by decide), if_neg (by simp [ht])]
  exact State.keySt_startRevoke ((s.keySt_runEntry q e.ctr 0 _).trans hk) _

theorem State.keyRevoke_revoking (h2 : k.state = 2) : s.keyRevoke q e d = s.finishEntry q e.ctr (Res.of stSTATE 2) := by
  simp only [State.keyRevoke, hk]
  rw [if_pos h2]

theorem State.keyRevoke_refused (h2 : k.state ≠ 2) (h : k.state ≠ 1 ∨ keyTag (Wqe.at_ e.raw 16 0 32) ≠ Ds.tag d.raw) :
    s.keyRevoke q e d = s.finishEntry q e.ctr (Res.of stSTATE 1) := by
  simp only [State.keyRevoke, hk]
  rw [if_neg h2, if_pos h.symm]

end

section
variable {s : State} {i : Nat} {k : KeySt} (hk : s.keySt i = some k)
include hk

/-- R379 step 4: the descriptor is written back with the next tag, and the key is in quarantine. -/
theorem exec_keyRevokeComplete {d : Desc} (h2 : k.state = 2) (hr : s.keyRefs i = 0) (hd : s.goodCopy i = some d) :
    ∃ r t, r = Ds.clean (setBits (setBits (Ds.setState d.raw 3) 128 8 (Ds.tag d.raw + 1)) 208 48 s.course) ∧
      exec (.keyRevokeComplete i) s = .next t ∧
      t = (((s.setRaw i r).hostWrite (keyHp i) (keyHp i * 256) (s.descAddr i) ⟨32, r⟩).revoked i k).endTables := by
  refine ⟨_, _, rfl, ?_, rfl⟩
  show Host.Outcome.next (s.endRevoke i).endTables = _
  simp only [State.endRevoke, hk, State.needDesc_have hd]
  rw [if_neg (by simp [h2, hr])]

theorem exec_keyRevokeComplete_held (h : k.state ≠ 2 ∨ s.keyRefs i ≠ 0) : exec (.keyRevokeComplete i) s = .next s.endTables := by
  show Host.Outcome.next (s.endRevoke i).endTables = _
  simp only [State.endRevoke, hk]
  rw [if_pos h]

theorem exec_keyQuarantineEnd (h3 : k.state = 3) (hq : s.quarOver k.revoked.toNat = true) : exec (.keyQuarantineEnd i) s = .next (s.setKey i none) := by
  show execKeyQuarantineEnd i s = _
  simp only [execKeyQuarantineEnd, hk]
  rw [if_pos ⟨h3, hq⟩]

theorem exec_keyQuarantineEnd_early (hq : s.quarOver k.revoked.toNat = false) : exec (.keyQuarantineEnd i) s = .next s := by
  show execKeyQuarantineEnd i s = _
  simp only [execKeyQuarantineEnd, hk]
  rw [if_neg (by simp [hq])]

end

/-! ### Discarding cached descriptors (R383) -/

/-- R383: the copy lies in the range of a KEY_INV. -/
def invalidates (e : Ent) (d : Nat × Desc) : Bool := decide (Kw.index e.raw ≤ d.1 ∧ d.1 < Kw.index e.raw + Wqe.at_ e.raw 20 0 32)

theorem exec_keyInv {s : State} {q : Nat} {v : Sq} {e : Ent} (hst : s.startable q 0x16 = some (v, e)) : ∃ t, exec (.keyInv q) s = .next t ∧
    t.rma.descs = s.rma.descs.filter (fun d => !(s.rma.descs.filter (invalidates e)).contains d) ∧
    t.rma.invs = s.rma.invs ++ [(q, e.ctr, (s.rma.descs.filter (invalidates e)).length, (s.rma.descs.filter (invalidates e)).map (fun d => d.2.uid))] := by
  have hrma : (s.runEntry q e.ctr 0).rma = s.rma := (State.runEntry_stays q e.ctr 0 (Has.refl _) (Stays.refl s)).rma (by decide)
  refine ⟨_, by
    show execKeyInv q s = _
    simp only [execKeyInv, hst]
    rfl, ?_, ?_⟩
  · rw [State.onRma_rma, hrma]
    rfl
  · rw [State.onRma_rma, hrma]
    rfl

/-- R383: the copies in the range are gone, and no others. -/
theorem mem_filter_kept (e : Ent) (l : Tbl Desc) (d : Nat × Desc) : d ∈ l.filter (fun d => !(l.filter (invalidates e)).contains d) ↔
    d ∈ l ∧ (d.1 < Kw.index e.raw ∨ Kw.index e.raw + Wqe.at_ e.raw 20 0 32 ≤ d.1) := by
  rw [List.mem_filter]
  refine and_congr_right fun hd => ?_
  rw [Bool.not_eq_true', ← Bool.not_eq_true, List.contains_iff_mem, List.mem_filter, invalidates, decide_eq_true_iff]
  constructor
  · intro h
    have hout : ¬ (Kw.index e.raw ≤ d.1 ∧ d.1 < Kw.index e.raw + Wqe.at_ e.raw 20 0 32) := fun k => h ⟨hd, k⟩
    omega
  · rintro h ⟨-, hlo, hhi⟩
    omega

theorem exec_keyInvComplete {s : State} {q : Nat} {x : Nat × RingCtr × Nat × List Nat} (hx : s.rma.invs.find? (fun x => x.1 == q) = some x)
    (hr : ∀ u ∈ x.2.2.2, Tbl.get (fun _ => 0) s.rma.refs u = 0) :
    exec (.keyInvComplete q) s = .next ((s.onRma (fun r => { r with invs := r.invs.erase x })).finishEntry q x.2.1 (Res.ok x.2.2.1)) := by
  show execKeyInvComplete q s = _
  simp only [execKeyInvComplete, hx]
  rw [if_neg (by
    rw [List.any_eq_true]
    rintro ⟨u, hu, hne⟩
    exact absurd (hr u hu) (by simpa using hne))]

end Sys2Proof.Machine
end

section
/-! Remote memory, the target and its atomic unit (R369-R378, R382-R384): packets at the front, data that return, and the functions of
the atomics. -/
namespace Sys2Proof.Machine

/-! ### Packets at the front (R370-R374) -/

section
variable {s : State} {a : Arr}

theorem exec_putRx (h : s.frontOp rmaOps 0x40 Arr.hp s.arrWaits = some a) : exec .putRx s = .next (s.onPut a).settle := by
  show execPutRx s = _
  simp only [execPutRx, h]

theorem exec_getRx (h : s.frontOp rmaOps 0x41 Arr.hp s.arrWaits = some a) : exec .getRx s = .next (s.onGet a).settle := by
  show execGetRx s = _
  simp only [execGetRx, h]

theorem exec_atomicRx (h : s.frontOp rmaOps 0x43 Arr.hp s.arrWaits = some a) : exec .atomicRx s = .next (s.onAtomic a).settle := by
  show execAtomicRx s = _
  simp only [execAtomicRx, h]

theorem exec_getDataRx (h : s.frontResponse 0x42 = some a) : exec .getDataRx s = .next (s.onGetData a).settle := by
  show execGetDataRx s = _
  simp only [execGetDataRx, h]

theorem exec_atomicDataRx (h : s.frontResponse 0x44 = some a) : exec .atomicDataRx s = .next (s.onAtomicData a).settle := by
  show execAtomicDataRx s = _
  simp only [execAtomicDataRx, h]

variable {c : State} {d : Desc} {e : Nat}

/-- R371: a PUT that passes its checks is written. -/
theorem State.onPut_written {x : State} {l : List (Nat × Nat)} (hc : s.rmaCheck a 3 (Th.opLen a.th) 1 false = (c, .ok d))
    (hx : c.xlateRun a.hp (c.regionReq d (Ds.va d.raw + Rf.offset a.th + 4096 * Th.index a.th) 3 a.who) a.payload.len = (x, .run l))
    (hp : x.piecesHeld a.hp l = false) (ha : x.atomicsAhead a.hp x.rma.nextId = false) : s.onPut a =
      (((x.takeArr a).bump Ctr.RMA_PUT_PKT_COUNT).writePieces a.hp
        (c.regionReq d (Ds.va d.raw + Rf.offset a.th + 4096 * Th.index a.th) 3 a.who).identity l a.payload).result a .reply stOK 0 0 := by
  simp only [State.onPut, hc, hx]
  rw [if_neg (by simp [hp, ha])]

theorem State.onPut_refused (hc : s.rmaCheck a 3 (Th.opLen a.th) 1 false = (c, .refuse e)) : s.onPut a = c.rmaRefuse a e := by
  simp only [State.onPut, hc]

theorem State.onPut_full (hc : s.rmaCheck a 3 (Th.opLen a.th) 1 false = (c, .full)) : s.onPut a = c.rmaFull a := by simp only [State.onPut, hc]

/-- R371, R378: a GET that passes its checks takes a reference, and its data are an operation. -/
theorem State.onGet_begins (hc : s.rmaCheck a 2 (Th.opLen a.th) 1 (Rf.spec a.th) = (c, .ok d)) : ∃ o : Op,
    s.onGet a = (((c.takeArr a).bump Ctr.RMA_GET_COUNT).addRef d.uid).newOp o ∧ o.opcode = 0x42 ∧ o.ctx = a.ctx ∧ o.stream = 1 ∧ o.opLen = Th.opLen a.th ∧
      o.total = max 1 (ceilDiv (Th.opLen a.th) 4096) ∧ o.srcEp = Th.dstEp a.th ∧ o.dstEp = Th.srcEp a.th ∧ o.fields = packB [(0, 24, a.psn), (3, 8, a.gen)] := by
  obtain ⟨q, hq⟩ : ∃ q, q = c.regionReq d (Ds.va d.raw + Rf.offset a.th) 2 a.who := ⟨_, rfl⟩
  refine ⟨{ Op.base a.ctx 1 (.getData d.uid a.hp q.as_ q.va q.identity q.ovr) (Th.dstEp a.th) (Th.srcEp a.th) 0x42 (Th.opLen a.th)
              (packB [(0, 24, a.psn), (3, 8, a.gen)]) with
            total := max 1 (ceilDiv (Th.opLen a.th) 4096), pay := if Th.opLen a.th = 0 then .bytes Data.empty else .chunks [], dest := a.reqMark },
    ?_, rfl, rfl, rfl, rfl, rfl, rfl, rfl, rfl⟩
  simp only [State.onGet, hc, ← hq]

theorem State.onGet_refused (hc : s.rmaCheck a 2 (Th.opLen a.th) 1 (Rf.spec a.th) = (c, .refuse e)) : s.onGet a = c.rmaRefuse a e := by
  simp only [State.onGet, hc]

theorem State.onGet_full (hc : s.rmaCheck a 2 (Th.opLen a.th) 1 (Rf.spec a.th) = (c, .full)) : s.onGet a = c.rmaFull a := by simp only [State.onGet, hc]

/-- R374: an ATOMIC that passes its checks takes a reference and joins the others. -/
theorem State.onAtomic_queued (hc : s.rmaCheck a 4 a.size (max 1 a.size) false = (c, .ok d)) : ∃ t y, t = (c.takeArr a).addRef d.uid ∧
    s.onAtomic a = t.onRma (fun r => { r with atomics := r.atomics ++ [y], nextId := r.nextId + 1 }) ∧ y.id = t.rma.nextId ∧ y.acc = a ∧ y.uid = d.uid ∧
      y.hostAtomic = Ds.hostAtomic d.raw ∧ y.va = Ds.va d.raw + Rf.offset a.th ∧ y.st = .queued := by
  obtain ⟨t, ht⟩ : ∃ t, t = (c.takeArr a).addRef d.uid := ⟨_, rfl⟩
  refine ⟨t, ⟨t.rma.nextId, a, d.uid, Ds.hostAtomic d.raw, Ds.va d.raw + Rf.offset a.th,
    c.regionReq d (Ds.va d.raw + Rf.offset a.th) 4 (.atomic t.rma.nextId), 0, .queued⟩, ht, ?_, rfl, rfl, rfl, rfl, rfl, rfl⟩
  simp only [State.onAtomic, hc, ← ht, State.onRma]

theorem State.onAtomic_refused (hc : s.rmaCheck a 4 a.size (max 1 a.size) false = (c, .refuse e)) : s.onAtomic a = c.rmaRefuse a e := by
  simp only [State.onAtomic, hc]

theorem State.onAtomic_full (hc : s.rmaCheck a 4 a.size (max 1 a.size) false = (c, .full)) : s.onAtomic a = c.rmaFull a := by
  simp only [State.onAtomic, hc]

end

/-! ### The checks of a descriptor (R370) -/

section
variable {s : State} {a : Arr} {d : Desc} {right len align : Nat} {spec : Bool} (hb : d.bad = false) (hk : s.keySt (keyIndex (Rf.key a.th)) = none)
include hb hk

theorem State.descCheck_tag (ht : keyTag (Rf.key a.th) ≠ Ds.tag d.raw) : s.descCheck a d right len align spec = some 0x0402 := by
  simp only [State.descCheck, hk, hb]
  rw [if_neg (by decide), if_pos ht]

variable (ht : keyTag (Rf.key a.th) = Ds.tag d.raw) (hs : Ds.state d.raw = 1) (he : Ds.ep d.raw = Th.dstEp a.th)
  (hp : Ds.peerValid d.raw = true → a.source = Ds.peer d.raw)
include ht hs he hp

theorem State.descCheck_right (hr : Ds.right d.raw right = false) : s.descCheck a d right len align spec = some 0x0405 := by
  simp only [State.descCheck, hk, hb, hs]
  rw [if_neg (by decide), if_neg (not_not.2 ht), if_neg (by decide), if_neg (by decide), if_neg (not_not.2 he), if_neg (fun h => h.2 (hp h.1)), if_pos (by simp [hr])]

variable (hr : Ds.right d.raw right = true) (hspec : spec = true → Ds.sideEffect d.raw = false)
include hr hspec

theorem State.descCheck_place : s.descCheck a d right len align spec =
    if Rf.offset a.th + len > Ds.length d.raw then some 0x0406 else if (Ds.va d.raw + Rf.offset a.th) % align ≠ 0 then some 0x0409 else none := by
  simp only [State.descCheck, hk, hb, hs]
  rw [if_neg (by decide), if_neg (not_not.2 ht), if_neg (by decide), if_neg (by decide), if_neg (not_not.2 he), if_neg (fun h => h.2 (hp h.1)), if_neg (by simp [hr]),
    if_neg (by
      rintro ⟨hsp, hside⟩
      rw [hspec hsp] at hside
      exact nomatch hside)]

end

/-! ### Responses (R384) -/

section
variable {s : State} {a : Arr} {i : Nat} {o : Op} (hreq : s.requestOf a (Th.at_ a.th 19 0 24) (Th.at_ a.th 22 0 8) = some (i, o)) (hd : o.done = none)
include hreq hd

theorem State.onGetData_none (h : o.dest = .none_) : s.onGetData a = (s.takeArr a).setOp i { o with got := o.got + 1 } := by
  simp only [State.onGetData, hreq, hd, h]
  rw [if_neg (by simp)]

theorem State.onAtomicData_none (h : o.dest = .none_) : s.onAtomicData a = (s.takeArr a).setOp i { o with got := o.got + 1, pay := .bytes a.payload } := by
  simp only [State.onAtomicData, hreq, hd, h]
  rw [if_neg (by simp)]

variable {x : State} {as_ va n identity : Nat} {ovr : Bool} {l : List (Nat × Nat)} (hdest : o.dest = .host as_ va n identity ovr)
include hdest

theorem State.onGetData_host
    (hx : s.xlateRun a.hp ⟨as_, va + 4096 * Th.index a.th, 1, identity, false, ovr, .access, a.who⟩ a.payload.len = (x, .run l)) :
    s.onGetData a = ((x.takeArr a).writePieces a.hp identity l a.payload).setOp i { o with got := o.got + 1 } := by
  simp only [State.onGetData, hreq, hd, hdest, hx]
  rw [if_neg (by simp)]

theorem State.onAtomicData_host (hx : s.xlateRun a.hp ⟨as_, va, 1, identity, false, ovr, .access, a.who⟩ a.payload.len = (x, .run l)) :
    s.onAtomicData a = ((x.writePieces a.hp identity l a.payload).takeArr a).setOp i { o with got := o.got + 1, pay := .bytes a.payload } := by
  simp only [State.onAtomicData, hreq, hd, hdest, hx]
  rw [if_neg (by simp)]

end

/-! ### The atomic unit (R374-R377) -/

section
variable {s : State} {n : Nat} {x : Atomic} (hx : s.rma.atomics.find? (fun y => y.id == n) = some x)
include hx

section
variable (hs : s.serving = true)
include hs

section
variable {t : State} {p w : Nat} (hst : x.st = .queued) (hfew : (s.rma.atomics.filter (fun y => y.st != .queued)).length < 256)
  (hfirst : ∀ y ∈ s.rma.atomics, y.st = .queued → x.id ≤ y.id) (ht : s.xlate x.acc.hp x.req = (t, .pa p w))
  (hl : t.lineHeld x.acc.hp p x.acc.size = false)
include hst hfew hfirst ht hl

/-- R374, R375: an atomic reads its word. -/
theorem State.atomicExecute_reads (hh : x.hostAtomic = false) : s.atomicExecute n =
    ((t.setAtomic { x with pa := p, st := .reading }).onRma (fun r => { r with dataReads := r.dataReads ++ [(true, x.id, 0, x.acc.hp)] })).hostRead
      x.acc.hp x.req.identity p x.acc.size := by
  have hnone : ¬ s.rma.atomics.any (fun y => y.st == .queued && decide (y.id < x.id)) = true := by
    rw [List.any_eq_true]
    rintro ⟨y, hy, hq⟩
    simp only [Bool.and_eq_true, beq_iff_eq, decide_eq_true_eq] at hq
    exact absurd (hfirst y hy hq.1) (Nat.not_le.2 hq.2)
  simp only [State.atomicExecute, hx, hst, ht, hh]
  rw [if_neg (by simp only [hs]; simpa using hfew), if_neg hnone, if_neg (by simp [hl]), if_neg (by decide)]

/-- R376: an atomic of a host-atomic region begins. -/
theorem State.atomicExecute_host (hh : x.hostAtomic = true) (ha : s.atomicsAhead x.acc.hp x.id = false) :
    s.atomicExecute n = t.startHost { x with pa := p } x.req.identity := by
  have hnone : ¬ s.rma.atomics.any (fun y => y.st == .queued && decide (y.id < x.id)) = true := by
    rw [List.any_eq_true]
    rintro ⟨y, hy, hq⟩
    simp only [Bool.and_eq_true, beq_iff_eq, decide_eq_true_eq] at hq
    exact absurd (hfirst y hy hq.1) (Nat.not_le.2 hq.2)
  simp only [State.atomicExecute, hx, hst, ht, hh, ha]
  rw [if_neg (by simp only [hs]; simpa using hfew), if_neg hnone, if_neg (by simp [hl]), if_pos trivial, if_neg (by simp)]

end

section
variable {old tries : Nat} (hst : x.st = .ready old tries) (ha : s.atomicsAhead x.acc.hp x.id = false)
include hst ha

/-- R375, R377: a word that has been read is written and answered. -/
theorem State.atomicExecute_writes (hh : x.hostAtomic = false) : s.atomicExecute n =
    (s.hostWrite x.acc.hp x.req.identity x.pa (Data.ofNat x.acc.size
      (atomicNew (Rf.aop x.acc.th) (8 * x.acc.size) old x.acc.operand x.acc.compare))).answerAtomic x old := by
  simp only [State.atomicExecute, hx, hst, hh]
  rw [if_neg (by simp [hs, ha]), if_neg (by decide)]

/-- R376: the compare-and-swap of the loop. -/
theorem State.atomicExecute_swaps (hh : x.hostAtomic = true) : s.atomicExecute n = s.casHost x x.req.identity old tries := by
  simp only [State.atomicExecute, hx, hst, hh]
  rw [if_neg (by simp [hs, ha]), if_pos trivial]

end

end

section
variable {seen tries : Nat} (hst : x.st = .host seen tries)
include hst

/-- R376: an AtomicOp that answers is done. -/
theorem State.atomicCompletion_done {v : Data}
    (h : Rf.aop x.acc.th = 0 ∨ Rf.aop x.acc.th = 4 ∨ Rf.aop x.acc.th = 5 ∨ v.val % 2 ^ (8 * x.acc.size) = seen) :
    s.atomicCompletion n (.data v) = s.answerAtomic x (v.val % 2 ^ (8 * x.acc.size)) := by
  simp only [State.atomicCompletion, hx, hst]
  rw [if_pos h]

/-- R376: a compare-and-swap that saw another value goes again until its limit. -/
theorem State.atomicCompletion_again {v : Data}
    (h : ¬ (Rf.aop x.acc.th = 0 ∨ Rf.aop x.acc.th = 4 ∨ Rf.aop x.acc.th = 5 ∨ v.val % 2 ^ (8 * x.acc.size) = seen)) (hs : s.serving = true) :
    s.atomicCompletion n (.data v) = if tries ≥ s.g Reg.RMA_CFG.cas_retries then s.failAtomic x 0x040C
      else (s.bump Ctr.RMA_CAS_RETRY_COUNT).casHost x x.req.identity (v.val % 2 ^ (8 * x.acc.size)) (tries + 1) := by
  simp only [State.atomicCompletion, hx, hst, hs]
  rw [if_neg h]
  rfl

theorem State.atomicCompletion_error (c : Nat) : s.atomicCompletion n (.error c) = s.failAtomic x 0x040D := by
  simp only [State.atomicCompletion, hx, hst]

end

end

/-- R35, R37: no atomic moves while the device does not serve. -/
theorem State.atomicExecute_stopped {s : State} (n : Nat) (hs : s.serving = false) : s.atomicExecute n = s := by
  unfold State.atomicExecute
  split
  · rfl
  · extract_lets
    split
    · exact if_pos (Or.inl (by simp [hs]))
    · exact if_pos (Or.inl (by simp [hs]))
    · rfl

/-! ### Reads that return (R370, R371, R375, R386) -/

/-- The descriptor read that has returned is out no longer. -/
def State.descReadTaken (s : State) (n : Nat) : State := s.onRma (fun x => { x with reads := x.reads.eraseIdx n })

section
variable {s : State} {n i : Nat} (hi : s.rma.reads[n]? = some i)
include hi

theorem State.descReturn_data (d : Data) :
    s.descReturn n (.data d) = if i ≥ 2 ^ 24 then s.descReadTaken n else (s.descReadTaken n).cacheDesc i (d.val % 2 ^ 256) := by
  simp only [State.descReturn, hi, State.descReadTaken]

theorem State.descReturn_error (c : Nat) : s.descReturn n (.error c) =
    (if i ≥ 2 ^ 24 then s.descReadTaken n else (s.descReadTaken n).onRma (fun x => { x with bad := Tbl.ins x.bad i c })).raise (srcRma 1) 0 (i % 2 ^ 24) := by
  simp only [State.descReturn, hi, State.descReadTaken]

end

/-- The data read of the target that has returned is out no longer. -/
def State.dataReadTaken (s : State) (n : Nat) : State := s.onRma (fun x => { x with dataReads := x.dataReads.eraseIdx n })

section
variable {s : State} {n i k h : Nat}

section
variable {x : Atomic} (hr : s.rma.dataReads[n]? = some (true, i, k, h)) (hx : (s.dataReadTaken n).rma.atomics.find? (fun y => y.id == i) = some x)
include hr hx

theorem State.dataReturn_atomic (d : Data) :
    s.dataReturn n (.data d) = (s.dataReadTaken n).setAtomic { x with st := .ready (d.val % 2 ^ (8 * x.acc.size)) 0 } := by
  rw [State.dataReadTaken] at hx
  simp only [State.dataReturn, hr, State.dataReadTaken, hx]
  rfl

theorem State.dataReturn_atomic_error (c : Nat) : s.dataReturn n (.error c) = (s.dataReadTaken n).failAtomic x 0x040D := by
  rw [State.dataReadTaken] at hx
  simp only [State.dataReturn, hr, State.dataReadTaken, hx]
  rfl

end

theorem State.dataReturn_chunk {o : Op} {l : List (Nat × Data)} (hr : s.rma.dataReads[n]? = some (false, i, k, h)) (ho : (s.dataReadTaken n).op? i = some o)
    (hl : o.pay = .chunks l) (d : Data) : s.dataReturn n (.data d) =
      (s.dataReadTaken n).setOp i { o with pay := .chunks (l ++ [(k, Data.ofNat (min 4096 (o.opLen - 4096 * k)) d.val)]) } := by
  rw [State.dataReadTaken] at ho
  simp only [State.dataReturn, hr, State.dataReadTaken, ho, hl]
  rfl

end

/-! ### The functions of the atomics (R375) -/

theorem signed_toNat (a : BitVec 64) : signed a.toNat 64 = a.toInt := by
  have hlow : bits a.toNat 0 64 = a.toNat := by rw [bits, Nat.shiftRight_zero, Nat.mod_eq_of_lt a.isLt]
  have htop : bits a.toNat (64 - 1) 1 = 1 ↔ 2 ^ 63 ≤ a.toNat := by
    have := a.isLt
    rw [bits, Nat.shiftRight_eq_div_pow]
    omega
  rw [signed, hlow, BitVec.toInt_eq_toNat_cond]
  by_cases h : 2 ^ 63 ≤ a.toNat
  · rw [if_pos (htop.2 h), if_neg (by omega)]
    rfl
  · rw [if_neg (fun k => h (htop.1 k)), if_pos (by omega)]

theorem atomicNew_functions (a b c : BitVec 64) : atomicNew 0 64 a.toNat b.toNat c.toNat = (a + b).toNat ∧
    atomicNew 1 64 a.toNat b.toNat c.toNat = (a &&& b).toNat ∧ atomicNew 2 64 a.toNat b.toNat c.toNat = (a ||| b).toNat ∧
    atomicNew 3 64 a.toNat b.toNat c.toNat = (a ^^^ b).toNat ∧ atomicNew 4 64 a.toNat b.toNat c.toNat = b.toNat ∧
    atomicNew 5 64 a.toNat b.toNat c.toNat = (if a = c then b else a).toNat ∧
    atomicNew 6 64 a.toNat b.toNat c.toNat = (if b.toInt < a.toInt then b else a).toNat ∧
    atomicNew 7 64 a.toNat b.toNat c.toNat = (if a.toInt < b.toInt then b else a).toNat ∧
    atomicNew 8 64 a.toNat b.toNat c.toNat = min a.toNat b.toNat ∧ atomicNew 9 64 a.toNat b.toNat c.toNat = max a.toNat b.toNat := by
  have hsigned := signed_toNat
  refine ⟨(BitVec.toNat_add a b).symm, (BitVec.toNat_and a b).symm, (BitVec.toNat_or a b).symm, (BitVec.toNat_xor a b).symm, rfl, ?_, ?_, ?_, rfl, rfl⟩
  · have heq : (a.toNat = c.toNat) = (a = c) := propext BitVec.toNat_inj
    show (if a.toNat = c.toNat then b.toNat else a.toNat) = _
    simp only [heq, apply_ite BitVec.toNat]
  · show (if signed b.toNat 64 < signed a.toNat 64 then b.toNat else a.toNat) = _
    simp only [hsigned, apply_ite BitVec.toNat]
  · show (if signed a.toNat 64 < signed b.toNat 64 then b.toNat else a.toNat) = _
    simp only [hsigned, apply_ite BitVec.toNat]

theorem next_settle {t u : State} (h : t = u) : (Host.Outcome.next t.settle : Host.Outcome State Fault Refusal) = .next u.settle := by rw [h]

/-! ### The obligation -/

/-- Settles O46: entries, packets, atomics and reads that return, one lemma for each. -/
theorem remoteMemory : Obligations.RemoteMemory := by
  unfold Obligations.RemoteMemory
  refine ⟨⟨?_, ?_, ?_, ?_, ?_, ?_, ?_, ?_, ?_, ?_, ?_⟩, ?_, ?_, ?_, ?_, ?_, ?_, ?_, ?_, ?_, ?_, ?_, atomicNew_functions⟩
  · intro s q v e p
    refine ⟨?_, exec_rmaGet, exec_rmaAtomic⟩
    obtain ⟨o, ho, hfields⟩ := s.startPut_newOp q v e p
    rintro c (⟨rfl, h⟩ | ⟨rfl, h⟩)
    · exact ⟨o, (exec_rmaPut h).trans (congrArg _ ho), hfields⟩
    · exact ⟨o, (exec_rmaPutNotify h).trans (congrArg _ ho), hfields⟩
  · rintro s q v e d i rfl hi hd
    exact ⟨fun hst => exec_keyReg hst hi hd, fun hst => exec_keyRevoke hst hi hd⟩
  · exact fun s q v e hi hst => exec_keyReg_outside hst hi
  · intro s q e d hk hd
    obtain ⟨k, hkey⟩ := State.keySt_keyReg (q := q) hk hd
    exact ⟨_, k, rfl, hkey⟩
  · rintro s q e d k i rfl hk
    refine ⟨fun h1 ht => ?_, State.keyRevoke_revoking hk, State.keyRevoke_refused hk⟩
    obtain ⟨w, hw⟩ := State.keySt_keyRevoke (q := q) hk h1 ht
    exact ⟨_, w, rfl, hw⟩
  · exact fun s i k d hk h2 hr hd => exec_keyRevokeComplete hk h2 hr hd
  · exact fun s i k hk h => exec_keyRevokeComplete_held hk h
  · exact fun s i k hk h3 hq => exec_keyQuarantineEnd hk h3 hq
  · exact fun s i k hk hq => exec_keyQuarantineEnd_early hk hq
  · intro s q v e hst
    obtain ⟨t, hexec, hdescs, hinvs⟩ := exec_keyInv hst
    exact ⟨t, hexec, fun d => by rw [hdescs, mem_filter_kept], _, rfl, hinvs⟩
  · exact fun s q x hx hr => exec_keyInvComplete hx hr
  · rintro s c x a d q l hf hc rfl hx hp ha
    rw [exec_putRx hf, State.onPut_written hc hx hp ha]
  · intro s c a d hf hc
    obtain ⟨o, ho, hfields⟩ := State.onGet_begins hc
    exact ⟨o, by rw [exec_getRx hf, ho], hfields⟩
  · intro s c a d hf hc
    obtain ⟨t, y, ht, hon, hfields⟩ := State.onAtomic_queued hc
    refine ⟨t, s.onAtomic a, exec_atomicRx hf, ht, ?_, ?_, y, ?_, hfields⟩
    · rw [hon, State.onRma_rma]
    · rw [hon, State.onRma_rma]
    · rw [hon, State.onRma_rma]
  · intro s c a e
    refine ⟨fun hf => ⟨fun hc => ?_, fun hc => ?_⟩, fun hf => ⟨fun hc => ?_, fun hc => ?_⟩, fun hf => ⟨fun hc => ?_, fun hc => ?_⟩⟩
    · rw [exec_putRx hf, State.onPut_refused hc]
    · rw [exec_putRx hf, State.onPut_full hc]
    · rw [exec_getRx hf, State.onGet_refused hc]
    · rw [exec_getRx hf, State.onGet_full hc]
    · rw [exec_atomicRx hf, State.onAtomic_refused hc]
    · rw [exec_atomicRx hf, State.onAtomic_full hc]
  · rintro s a d right len align spec k rfl hb hk
    refine ⟨State.descCheck_tag hb hk, fun ht hs he hp => ⟨State.descCheck_right hb hk ht hs he hp, fun hr hspec => ⟨fun hlen => ?_, fun hlen hal => ?_⟩⟩⟩
    · rw [State.descCheck_place hb hk ht hs he hp hr hspec, if_pos hlen]
    · rw [State.descCheck_place hb hk ht hs he hp hr hspec, if_neg (Nat.not_lt.2 hlen), if_neg (not_not.2 hal)]
  · intro s a i o hreq hd
    refine ⟨fun x as_ va n identity ovr l hdest => ⟨fun hf hx => ?_, fun hf hx => ?_⟩, fun hf hdest => ?_, fun hf hdest => ?_⟩
    · rw [exec_getDataRx hf, State.onGetData_host hreq hd hdest hx]
    · rw [exec_atomicDataRx hf, State.onAtomicData_host hreq hd hdest hx]
    · rw [exec_getDataRx hf, State.onGetData_none hreq hd hdest]
    · rw [exec_atomicDataRx hf, State.onAtomicData_none hreq hd hdest]
  · intro s n x hx hs
    refine ⟨fun t p w hst hfew hfirst ht hl => ⟨fun hh => ⟨_, rfl, ?_⟩, fun hh ha => ?_⟩, fun old tries hst ha hh => ?_, fun old tries hst ha hh => ?_,
      fun seen tries v hst => ⟨fun h => ?_, fun h0 h4 h5 hseen => ⟨fun hle => ?_, fun hlt => ?_⟩⟩⟩
    · exact next_settle (State.atomicExecute_reads hx hs hst hfew hfirst ht hl hh)
    · exact next_settle (State.atomicExecute_host hx hs hst hfew hfirst ht hl hh ha)
    · exact next_settle (State.atomicExecute_writes hx hs hst ha hh)
    · exact next_settle (State.atomicExecute_swaps hx hs hst ha hh)
    · exact next_settle (State.atomicCompletion_done hx hst h)
    · exact next_settle ((State.atomicCompletion_again hx hst (by simp [h0, h4, h5, hseen]) hs).trans (if_pos hle))
    · exact next_settle ((State.atomicCompletion_again hx hst (by simp [h0, h4, h5, hseen]) hs).trans (if_neg (Nat.not_le.2 hlt)))
  · exact fun s n c x seen tries hx hst => next_settle (State.atomicCompletion_error hx hst c)
  · exact fun s n hs => next_settle (State.atomicExecute_stopped n hs)
  · intro s n i hi
    refine ⟨s.descReadTaken n, rfl, fun hlt => ⟨fun d => ?_, fun c => ?_⟩, fun hge => ⟨fun d => ?_, fun c => ?_⟩⟩
    · exact next_settle ((State.descReturn_data hi d).trans (if_neg (Nat.not_le.2 hlt)))
    · exact next_settle ((State.descReturn_error hi c).trans (by rw [if_neg (Nat.not_le.2 hlt), Nat.mod_eq_of_lt hlt]))
    · exact next_settle ((State.descReturn_data hi d).trans (if_pos hge))
    · exact next_settle ((State.descReturn_error hi c).trans (by rw [if_pos hge]))
  · intro s n i k h b hr
    refine ⟨s.dataReadTaken n, rfl, ?_, ?_, ?_⟩
    · rintro x d rfl hx
      exact next_settle (State.dataReturn_atomic hr hx d)
    · rintro x c rfl hx
      exact next_settle (State.dataReturn_atomic_error hr hx c)
    · rintro o l d rfl ho hl
      exact next_settle (State.dataReturn_chunk hr ho hl d)

end Sys2Proof.Machine
end

section
/-! Collectives, the entries, the trees and their registers (R408-R412, R419, R433-R438). -/
namespace Sys2Proof.Machine

/-! ### Entries (R412, R419) -/

section
variable {s : State} {q : Nat} {v : Sq} {e : Ent}

theorem exec_colJoin (h : s.startable q 0x20 = some (v, e)) : exec (.colJoin q) s =
    .next ((s.colJoin (Colw.tree e.raw) v.ep).1.finishEntry q e.ctr (s.colJoin (Colw.tree e.raw) v.ep).2) := by
  show execColJoin q s = _
  simp only [execColJoin, h]

theorem exec_colLeave (h : s.startable q 0x21 = some (v, e)) (hm : (Tbl.find? s.col.members (memberKey (Colw.tree e.raw) v.ep)).isSome = true) :
    exec (.colLeave q) s = .next ((s.finishEntry q e.ctr (Res.of stOK 0)).colLeave (Colw.tree e.raw) v.ep) := by
  show execColLeave q s = _
  simp only [execColLeave, h]
  rw [if_pos hm]

section
variable (h : s.startable q 0x22 = some (v, e)) (hok : s.colMalformed v.ep e.raw = none) (hcsn : Colw.csn e.raw ≠ 0xFFFFFF)
include h hok hcsn

theorem exec_colOp {m : ColMember} (herr : (s.colTree (Colw.tree e.raw)).error = false)
    (hm : Tbl.find? s.col.members (memberKey (Colw.tree e.raw) v.ep) = some m) : exec (.colOp q) s = .next (s.colAccept q v e m) := by
  show execColOp q s = _
  simp only [execColOp, h, hok, hm]
  rw [if_neg hcsn, if_neg (by simp [herr])]

theorem exec_colOp_error (herr : (s.colTree (Colw.tree e.raw)).error = true) :
    exec (.colOp q) s = .next (s.finishEntry q e.ctr (colFail (s.colTree (Colw.tree e.raw)).reason)) := by
  show execColOp q s = _
  simp only [execColOp, h, hok]
  rw [if_neg hcsn, if_pos herr]

end

/-- R419: an accepted operation joins the others, and the member's sequence number advances. -/
theorem State.colAccept_ops (s : State) (q : Nat) (v : Sq) (e : Ent) (m : ColMember) : ∃ o : ColOp,
    (s.colAccept q v e m).col.ops = s.col.ops ++ [o] ∧ o.q = q ∧ o.ep = v.ep ∧ o.tree = Colw.tree e.raw ∧ o.csn = Colw.csn e.raw ∧
    o.h = Colw.hdr e.raw ∧ o.next = 0 ∧ o.set = s.crs.active := by
  have hcol : (s.runEntry q e.ctr 0).col.ops = s.col.ops := congrArg Col.ops <| (State.runEntry_stays q e.ctr 0 (Has.refl _) (Stays.refl s)).col (by decide)
  refine ⟨_, congrArg (· ++ [_]) hcol, rfl, rfl, rfl, rfl, rfl, rfl, rfl⟩

theorem State.colAccept_member (s : State) (q : Nat) (v : Sq) (e : Ent) (m : ColMember) :
    Tbl.find? (s.colAccept q v e m).col.members (memberKey (Colw.tree e.raw) v.ep) = some { m with nextCsn := m.nextCsn + 1 } :=
  Tbl.find?_ins_self _ _ _

end

section
variable {s : State} {t ep : Nat}

/-- R412: a join of a tree in use, in its domain, with a place left. -/
theorem State.colJoin_ok {x : Ep} {d : Slot} (hv : s.treeValid s.crs.active t = true) (hm : Tbl.find? s.col.members (memberKey t ep) = none)
    (hroom : (s.joined t).length < s.ga (Reg.COL_TREE.local_count t)) (hx : s.ep? ep = some x) (hd : s.slot? x.slot = some d)
    (hdom : d.domain = s.ga (Reg.COL_TREE.domain t)) (hlen : s.col.members.length < 8192) :
    s.colJoin t ep = (s.setMember t ep ⟨(s.colTree t).low, (s.colTree t).lowPos⟩, Res.of stOK 0) := by
  simp only [State.colJoin, hm, hx, hd, Option.map_some, hdom]
  rw [if_neg (by simp [hv]), if_neg (by simpa using hroom), if_neg (by simp), if_neg (Nat.not_le.2 hlen)]

theorem State.colJoin_unused (hv : s.treeValid s.crs.active t = false) : s.colJoin t ep = (s, Res.of stSTATE 1) := if_pos (Or.inl (by simp [hv]))

end

/-! ### Writes of COL_TREE (R408) -/

/-- A register at an offset of BAR0 is one of the register map. -/
theorem locPf_reg_mem {o i j w : Nat} {d : RegDef} (h : locPf o = .reg d i j w) : (∃ b ∈ blocks, d ∈ b.regs) ∨ d ∈ regsRBK := by
  unfold locPf at h
  dsimp only at h
  split at h
  · exact nomatch h
  split at h
  · next b hb =>
    split_ifs at h
    split at h
    · next e he =>
      cases h
      exact .inl ⟨b, List.mem_of_find?_eq_some hb, locateIn_mem he⟩
    · exact nomatch h
  · split at h
    · next e he =>
      cases h
      exact .inr (locateIn_mem he)
    · split_ifs at h

/-- R71: the words of COL_TREE lie in the configuration sets. -/
theorem colTree_shadowed {o i j w : Nat} {d : RegDef} (h : locPf o = .reg d i j w) (hid : d.id = .COL_TREE) : d.shadowed = true := by
  have hblocks : ∀ b ∈ blocks, ∀ d ∈ b.regs, d.id = .COL_TREE → d.shadowed = true := by decide +kernel
  have hreadback : ∀ d ∈ regsRBK, d.id = .COL_TREE → d.shadowed = true := by decide
  obtain ⟨b, hb, hd⟩ | hd := locPf_reg_mem h
  · exact hblocks b hb d hd hid
  · exact hreadback d hd hid

theorem exec_colTreeWrite {s : State} {req : Requester} {t w v : Nat} (ht : t < 4096) (hw : w < 8)
    (h : Sys2Proof.mayConfigure s req (Reg.COL_TREE.off t + 4 * w)) : ∃ d, locPf (Reg.COL_TREE.off t + 4 * w) = .reg d t 0 w ∧ d.id = .COL_TREE ∧
      exec (.colTreeWrite req t w v) s = .next ((s.lockCheck d w (s.word (Reg.COL_TREE.off t + 4 * w)) (v % 2 ^ 32)).shadowWrite d t w
        (Reg.COL_TREE.off t + 4 * w) (v % 2 ^ 32)).settle := by
  obtain ⟨d, hloc, hid⟩ := isReg_elim (locPf_COL_TREE t w ht hw)
  have hmem : d.id ∈ shadowedIds := hid ▸ by decide
  have h4 : (Reg.COL_TREE.off t + 4 * w) % 4 = 0 := by
    unfold Reg.COL_TREE.off
    omega
  refine ⟨d, hloc, hid, ?_⟩
  show execColTreeWrite req t w v s = _
  rw [execColTreeWrite, if_pos ⟨ht, hw⟩, State.access_plain h hloc h4 (by simp only [State.mayWrite, hid]) (State.absentUnit_shadowed hmem),
    State.regWrite_shadowed hmem (colTree_shadowed hloc hid), bits_word]

/-! ### COL_CMD (R433, R437, R438) -/

/-- COL_CMD in the register map. -/
def colCmdReg : RegDef := ⟨.COL_CMD, 0x700100, 1, 0x4000000, 1, 0x4000000, 1, [⟨0, 0, 8, .RW, 0⟩]⟩

theorem locPf_colCmdReg : locPf Reg.COL_CMD.off = .reg colCmdReg 0 0 0 := by decide

theorem State.access_colCmd {s : State} {req : Requester} {v : Nat} (hv : v < 2 ^ 32) (h : Sys2Proof.mayConfigure s req Reg.COL_CMD.off) :
    s.access req Reg.COL_CMD.off v = ((s.lockCheck colCmdReg 0 (s.word Reg.COL_CMD.off) v).colCmd req v).settle := by
  rw [State.access_plain h locPf_colCmdReg (by decide) rfl rfl, bits_word, Nat.mod_eq_of_lt hv]
  rfl

section
variable (s : State) (req : Requester)

theorem State.colRun_unmanaged (op : Nat) (h : req.mgmt = false) : s.colRun req op = (s, 1) := if_pos (by simp [h])

theorem State.colCmd_runs {v : Nat} (h : v = 1 ∨ v = 2) : ∃ r, r = (s.put Reg.COL_CMD.opcode v).colRun req v ∧
    s.colCmd req v = (r.1.put Reg.COL_CMD_STATUS.requester req.identity).put Reg.COL_CMD_STATUS.result r.2 := by
  have hop : bits v 0 8 = v := by rw [bits, Nat.shiftRight_zero]; omega
  refine ⟨_, rfl, ?_⟩
  simp only [State.colCmd, hop]
  rw [if_neg (by omega)]

end

section
variable {s : State} {req : Requester} (hm : req.mgmt = true)
include hm

/-- R433: the key of the shadow set. -/
theorem State.colRun_key (hc : s.shadowClosed = false) : ∃ u v : State,
    s.colRun req 1 = (u.tableWrite (tagTreeKey (bits (s.word (Reg.COL_CMD_ARG.off 0)) 0 12)) 8, 0) ∧ u = { s with col := { s.col with keys := v.col.keys } } ∧
    Tbl.get (fun _ => 0) u.col.keys ((1 - s.crs.active) * 4096 + bits (s.word (Reg.COL_CMD_ARG.off 0)) 0 12) =
      (List.range 8).foldl (fun a i => a + s.word (Reg.COL_KEY.off i) <<< (32 * i)) 0 := by
  obtain ⟨k, hk⟩ : ∃ k, k = Tbl.put (fun _ => 0) s.col.keys ((1 - s.crs.active) * 4096 + bits (s.word (Reg.COL_CMD_ARG.off 0)) 0 12)
    ((List.range 8).foldl (fun a i => a + s.word (Reg.COL_KEY.off i) <<< (32 * i)) 0) := ⟨_, rfl⟩
  refine ⟨{ s with col := { s.col with keys := k } }, { s with col := { s.col with keys := k } }, ?_, rfl, ?_⟩
  · rw [State.colRun, if_neg (by simp [hm]), if_pos rfl, if_neg (by simp [hc]), hk]
  · rw [hk, Tbl.get_put_self]

theorem State.colRun_key_closed (hc : s.shadowClosed = true) : s.colRun req 1 = (s, 2) := by
  rw [State.colRun, if_neg (by simp [hm]), if_pos rfl, if_pos hc]

theorem State.colRun_resume_eq : s.colRun req 2 =
    if ¬ (s.colTree (bits (s.word (Reg.COL_CMD_ARG.off 0)) 0 12)).error = true then (s, 2)
    else if (BitVec.ofNat 48 (s.word (Reg.COL_CMD_ARG.off 2) + bits (s.word (Reg.COL_CMD_ARG.off 3)) 0 16 * 2 ^ 32) - s.crs.course).toNat < 2 ∨
        2 ^ 47 ≤ (BitVec.ofNat 48 (s.word (Reg.COL_CMD_ARG.off 2) + bits (s.word (Reg.COL_CMD_ARG.off 3)) 0 16 * 2 ^ 32) - s.crs.course).toNat ∨
        bits (s.word (Reg.COL_CMD_ARG.off 1)) 0 24 < (s.colTree (bits (s.word (Reg.COL_CMD_ARG.off 0)) 0 12)).seen then (s, 3)
    else (s.setColTree (bits (s.word (Reg.COL_CMD_ARG.off 0)) 0 12) { s.colTree (bits (s.word (Reg.COL_CMD_ARG.off 0)) 0 12) with
      resume := some (bits (s.word (Reg.COL_CMD_ARG.off 1)) 0 24,
        BitVec.ofNat 48 (s.word (Reg.COL_CMD_ARG.off 2) + bits (s.word (Reg.COL_CMD_ARG.off 3)) 0 16 * 2 ^ 32)) }, 0) := by
  rw [State.colRun, if_neg (by simp [hm]), if_neg (by decide)]

end

/-! ### Resumption (R437) -/

theorem exec_treeResumeEffect_other {s : State} (t : Nat) (h : s.crs.cycle ≠ 0) : exec (.treeResumeEffect t) s = .next s := by
  show execTreeResumeEffect t s = _
  rw [execTreeResumeEffect, if_neg h]

section
variable {s : State} {t k : Nat} {c : BitVec 48}

/-- R437: the tree returns to OK, and its stream and its members go on at the sequence number given. -/
theorem State.treeResume_due (hr : (s.colTree t).resume = some (k, c)) (he : (s.colTree t).error = true)
    (hle : serialLe c.toNat s.course 48 = true) (hb : s.col.badTrees.contains t = false) :
    (s.treeResume t).colTree t = { s.colTree t with error := false, low := k, lowPos := 0, fwd := 0, sendCsn := k, sendIdx := 0, resume := none } ∧
    ∀ e ∈ (s.treeResume t).col.members, e.1 / 65536 = t → e.2 = ⟨k, 0⟩ := by
  simp only [State.treeResume, hr]
  rw [if_pos ⟨he, hle, by simpa using hb⟩]
  refine ⟨Tbl.get_put_self _ _ _ _, fun e hmem ht => ?_⟩
  obtain ⟨f, -, rfl⟩ := List.mem_map.1 hmem
  split at ht
  next h => rw [if_pos h]
  next h => exact absurd ht h

theorem exec_treeResumeEffect (h0 : s.crs.cycle = 0) : exec (.treeResumeEffect t) s = .next (s.treeResume t) := by
  show execTreeResumeEffect t s = _
  rw [execTreeResumeEffect, if_pos h0]

end

/-! ### ERROR (R434) -/

/-- A result of an entry leaves the collectives as they are. -/
theorem State.foldl_finishEntry_stays (l : List ColOp) (r : Res) (s : State) :
    Stays [.hif] s (l.foldl (fun u o => u.finishEntry o.q o.ctr r) s) :=
  Stays.foldl (Stays.refl s) fun _ o hu => State.finishEntry_stays o.q o.ctr r (Has.refl _) hu

theorem State.foldl_sendAbort_stays (l : List Nat) (t set reason origin : Nat) (s : State) :
    Stays [.rte, .sch] s (l.foldl (fun u p => u.sendAbort t set reason origin p) s) :=
  Stays.foldl (Stays.refl s) fun _ p hu => State.sendAbort_stays t set reason origin p (Has.refl _) hu

/-- The collectives with tree `t` in ERROR: nothing of it is open. -/
def State.failedCol (s : State) (t reason origin : Nat) : Col :=
  { s.col with
    trees := Tbl.put (fun _ => ColTree.reset) s.col.trees t
      { s.colTree t with error := true, reason := reason, course := s.crs.course, origin := origin, resume := none }
    chunks := s.col.chunks.filter (fun c => c.tree != t)
    ops := s.col.ops.filter (fun o => o.tree != t)
    opens := Tbl.keep (fun k _ => k / 2 ^ 24 != t) s.col.opens }

section
variable (s : State) (t set reason origin : Nat) (f : Option Nat)

theorem State.treeFail_col : (s.treeFail t set reason origin f).col = s.failedCol t reason origin := by
  unfold State.treeFail
  dsimp only
  refine ((State.foldl_finishEntry_stays _ _ _).col (by decide)).trans ?_
  rw [(State.foldl_sendAbort_stays _ _ _ _ _ _).col (by decide)]
  rfl

theorem State.treeFail_counts : (s.treeFail t set reason origin f).ctr Ctr.COL_TREE_ERROR_COUNT = s.ctr Ctr.COL_TREE_ERROR_COUNT + 1 := by
  unfold State.treeFail
  dsimp only
  rw [State.ctr_bump_self, State.ctr_of_stays (State.foldl_finishEntry_stays _ _ _) (by decide),
    State.ctr_of_stays (State.foldl_sendAbort_stays _ _ _ _ _ _) (by decide)]
  rfl

theorem State.treeError_enters (he : (s.colTree t).error = false) : ∃ u : State, s.treeError t set reason origin f = u.treeEvent t reason ∧
    (u.colTree t).error = true ∧ (u.colTree t).reason = reason ∧ (u.colTree t).origin = origin ∧ (∀ c ∈ u.col.chunks, c.tree ≠ t) ∧
    (∀ y ∈ u.col.ops, y.tree ≠ t) ∧ u.ctr Ctr.COL_TREE_ERROR_COUNT = s.ctr Ctr.COL_TREE_ERROR_COUNT + 1 := by
  have hcol := s.treeFail_col t set reason origin f
  have htree : (s.treeFail t set reason origin f).colTree t =
      { s.colTree t with error := true, reason := reason, course := s.crs.course, origin := origin, resume := none } := by
    rw [State.colTree, hcol, State.failedCol, Tbl.get_put_self]
  refine ⟨_, if_neg (by simp [he]), ?_, ?_, ?_, ?_, ?_, s.treeFail_counts t set reason origin f⟩
  · rw [htree]
  · rw [htree]
  · rw [htree]
  · rw [hcol]
    exact fun c hc => by simpa using (List.mem_filter.1 hc).2
  · rw [hcol]
    exact fun y hy => by simpa using (List.mem_filter.1 hy).2

end

end Sys2Proof.Machine
end

section
/-! Collectives, chunks and packets (R416, R421-R425, R432, R434, R435): a member's chunks, what goes up a tree and down it. -/
namespace Sys2Proof.Machine

/-! ### A member's chunks (R421) -/

section
variable {s : State} {t ep : Nat} {hm : HostView} {o : ColOp} {e : Ep} (hr : s.readable t ep = some o) (he : s.ep? ep = some e)
  (hmode : s.mode = .service ∨ s.mode = .drain)
include hr he hmode

theorem exec_memberChunkRead_none (h : o.h.op = 3 ∨ (o.h.op = 1 ∧ o.source = false)) :
    exec (.memberChunkRead t ep hm) s = .next (s.giveChunk o ⟨Data.empty, 0, 1, false⟩) := by
  show execMemberChunkRead t ep hm s = _
  simp only [execMemberChunkRead, hr, he]
  rw [if_neg (by rcases hmode with h | h <;> simp [h]), if_pos (by simpa using h)]

variable {u : State} (h3 : o.h.op ≠ 3) (h1 : o.h.op = 1 → o.source = true)
include h3 h1

theorem exec_memberChunkRead_fault {f : XFault} {a : Nat}
    (hx : s.xlateRun (hpOf e.owner) ⟨e.as_, o.src + o.h.offset o.next, 0, e.owner, false, o.ovr, .access, .chunk t ep o.csn o.next false⟩
      (o.h.downBytes o.next) = (u, .fault f a)) :
    exec (.memberChunkRead t ep hm) s = .next (u.colReadFault o { Res.of stLOCAL (f.detail 0) with aux := a }) := by
  show execMemberChunkRead t ep hm s = _
  simp only [execMemberChunkRead, hr, he, hx]
  rw [if_neg (by rcases hmode with h | h <;> simp [h]), if_neg (by simpa [h3] using h1)]

theorem exec_memberChunkRead_data {l : List (Nat × Nat)} {d : Data}
    (hx : s.xlateRun (hpOf e.owner) ⟨e.as_, o.src + o.h.offset o.next, 0, e.owner, false, o.ovr, .access, .chunk t ep o.csn o.next false⟩
      (o.h.downBytes o.next) = (u, .run l)) (hd : readPieces hm l = .data d) :
    exec (.memberChunkRead t ep hm) s =
      .next ((u.readRun (hpOf e.owner) e.owner l).giveChunk o { o.h.input d with present := o.h.op == 1 }) := by
  show execMemberChunkRead t ep hm s = _
  simp only [execMemberChunkRead, hr, he, hx, hd]
  rw [if_neg (by rcases hmode with h | h <;> simp [h]), if_neg (by simpa [h3] using h1)]

end

/-! ### Up a tree (R423) -/

theorem exec_chunkSendUp {s : State} {t : Nat} {c : ColChunk} (hn : s.nextReady t = some c) (hl : s.live = true)
    (hroot : s.treeRoot c.set t = false) : ∃ u : State, u = s.sendChunk c c.acc 0x20 (s.treeParent c.set t) ∧
      exec (.chunkSendUp t) s = .next ((u.setChunk { c with st := .downwait }).setColTree t ((s.colTree t).advance c.h)) := by
  refine ⟨_, rfl, ?_⟩
  show execChunkSendUp t s = _
  simp only [execChunkSendUp, hn]
  rw [if_neg (by simp [hl, hroot])]

/-! ### The oldest packet of the engine's hub port (R416) -/

section
variable {s : State} {d : Data} {port : Nat} {r : List (Data × Nat)}

section
variable (hq : s.hubQ 6 = (d, port) :: r) (hl : s.live = true)
include hq hl

theorem State.colTake_front {type : Nat} (ht : Hdr.type d.hdr = type) (go : State → Data → Nat → State) :
    s.colTake type go = go (s.hubPop 6) d port := by
  simp only [State.colTake, hq]
  rw [if_neg (by simp [hl]), if_pos ht]

theorem State.colTake_foreign {type : Nat} (htype : type ∈ [0x20, 0x21, 0x22]) (ht : ¬ Hdr.type d.hdr ∈ [0x20, 0x21, 0x22])
    (go : State → Data → Nat → State) : s.colTake type go = (s.hubPop 6).bump Ctr.COL_HDR_DROP_COUNT := by
  simp only [State.colTake, hq]
  rw [if_neg (by simp [hl]), if_neg (fun h => ht (by rw [h]; exact htype)), if_neg (by simpa using ht)]

end

theorem State.colTake_stopped (type : Nat) (go : State → Data → Nat → State) (hl : s.live = false) : s.colTake type go = s := by
  unfold State.colTake
  split
  · rfl
  · exact if_pos (by simp [hl])

end

/-! ### The checks of a packet (R416) -/

section
variable {u : State} {d : Data} {type port : Nat}

/-- R413: a packet up comes from a child, one down from the parent. -/
def State.colWrongPort (u : State) (d : Data) (type port : Nat) : Prop :=
  (type = 0x20 ∧ (u.treeChildren (parseCol d).c.set (parseCol d).c.tree).contains port = false) ∨
  (type = 0x21 ∧ (u.treeRoot (parseCol d).c.set (parseCol d).c.tree = true ∨ u.treeParent (parseCol d).c.set (parseCol d).c.tree ≠ port))

theorem State.not_colWrongPort (hup : type = 0x20 → (u.treeChildren (parseCol d).c.set (parseCol d).c.tree).contains port = true)
    (hdown : type = 0x21 → u.treeRoot (parseCol d).c.set (parseCol d).c.tree = false ∧ u.treeParent (parseCol d).c.set (parseCol d).c.tree = port) :
    ¬ u.colWrongPort d type port := by
  rintro (⟨h, hchild⟩ | ⟨h, hroot⟩)
  · exact absurd (hup h) (by simp only [hchild, Bool.false_eq_true, not_false_eq_true])
  · obtain ⟨hr, hp⟩ := hdown h
    obtain hroot | hparent := hroot
    · exact absurd (hr.symm.trans hroot) (by decide)
    · exact hparent hp

theorem State.colChecked_gen (take : State → ColPkt → State)
    (h : u.treeValid (parseCol d).c.set (parseCol d).c.tree = false ∨ u.treeGen (parseCol d).c.set (parseCol d).c.tree ≠ (parseCol d).c.gen) :
    u.colChecked d type port take = u.bump Ctr.COL_GEN_DROP_COUNT := if_pos (by simpa using h)

section
variable (hv : u.treeValid (parseCol d).c.set (parseCol d).c.tree = true) (hg : u.treeGen (parseCol d).c.set (parseCol d).c.tree = (parseCol d).c.gen)
include hv hg

theorem State.colChecked_error (take : State → ColPkt → State) (he : (u.colTree (parseCol d).c.tree).error = true) :
    u.colChecked d type port take = u.bump Ctr.COL_ERR_DROP_COUNT := by
  simp only [State.colChecked]
  rw [if_neg (by simp [hv, hg]), if_pos he]

variable (he : (u.colTree (parseCol d).c.tree).error = false)
include he

theorem State.colChecked_port (take : State → ColPkt → State) (hp : u.colWrongPort d type port) :
    u.colChecked d type port take = u.bump Ctr.COL_HDR_DROP_COUNT := by
  simp only [State.colChecked]
  rw [if_neg (by simp [hv, hg]), if_neg (by simp [he]), if_pos (by simpa [State.colWrongPort] using hp)]

variable (hp : ¬ u.colWrongPort d type port)
include hp

theorem State.colChecked_stale (take : State → ColPkt → State)
    (hs : serialCmp (parseCol d).c.csn (u.colTree (parseCol d).c.tree).low 24 = .before) :
    u.colChecked d type port take = u.bump Ctr.COL_STALE_DROP_COUNT := by
  simp only [State.colChecked]
  rw [if_neg (by simp [hv, hg]), if_neg (by simp [he]), if_neg (by simpa [State.colWrongPort] using hp), if_pos hs]

variable (hs : serialCmp (parseCol d).c.csn (u.colTree (parseCol d).c.tree).low 24 ≠ .before)
include hs

theorem State.colChecked_forged (take : State → ColPkt → State) (ho : u.colOpen (parseCol d) d type port = none) :
    u.colChecked d type port take =
      ((u.bump Ctr.COL_AUTH_FAIL_COUNT).raise (srcCol 1) 0 (parseCol d).c.tree).treeError (parseCol d).c.tree (parseCol d).c.set 0x0C06 u.me none := by
  simp only [State.colChecked, ho]
  rw [if_neg (by simp [hv, hg]), if_neg (by simp [he]), if_neg (by simpa [State.colWrongPort] using hp), if_neg hs]

theorem State.colChecked_takes (take : State → ColPkt → State) {pay : Data} (ho : u.colOpen (parseCol d) d type port = some pay) :
    u.colChecked d type port take = take u { parseCol d with x := { (parseCol d).x with data := pay } } := by
  simp only [State.colChecked, ho]
  rw [if_neg (by simp [hv, hg]), if_neg (by simp [he]), if_neg (by simpa [State.colWrongPort] using hp), if_neg hs]

end

end

/-! ### Packets up and down (R423, R424, R435) -/

section
variable {s : State} {d : Data} {port : Nat} {r : List (Data × Nat)} (hq : s.hubQ 6 = (d, port) :: r) (hl : s.live = true)
include hq hl

/-- What the checks make of a packet whatever is done with one in order, its command answers. -/
theorem exec_colRx {type : Nat} {c : Instr} {x : State} (hc : (type, c) ∈ [(0x20, Instr.colUpRx), (0x21, .colDownRx)]) (ht : Hdr.type d.hdr = type)
    (h : ∀ take, (s.hubPop 6).colChecked d type port take = x) : exec c s = .next x := by
  simp only [List.mem_cons, List.not_mem_nil, or_false, Prod.mk.injEq] at hc
  obtain ⟨rfl, rfl⟩ | ⟨rfl, rfl⟩ := hc
  · exact congrArg Host.Outcome.next ((State.colTake_front hq hl ht _).trans (h _))
  · exact congrArg Host.Outcome.next ((State.colTake_front hq hl ht _).trans (h _))

variable {pay : Data}

theorem exec_colUpRx_takes (ht : Hdr.type d.hdr = 0x20)
    (h : ∀ take : State → ColPkt → State, (s.hubPop 6).colChecked d 0x20 port take =
      take (s.hubPop 6) { parseCol d with x := { (parseCol d).x with data := pay } }) :
    exec .colUpRx s = .next ((s.hubPop 6).colInput (parseCol d).c port { (parseCol d).x with data := pay }) :=
  congrArg Host.Outcome.next ((State.colTake_front hq hl ht _).trans (h _))

section
variable (ht : Hdr.type d.hdr = 0x21)
  (h : ∀ take : State → ColPkt → State, (s.hubPop 6).colChecked d 0x21 port take =
    take (s.hubPop 6) { parseCol d with x := { (parseCol d).x with data := pay } })
include ht h

theorem exec_colDownRx_unknown
    (hc : (s.hubPop 6).chunk? (parseCol d).c.tree (parseCol d).c.gen (parseCol d).c.csn (parseCol d).c.idx = none) :
    exec .colDownRx s = .next ((s.hubPop 6).colOverrun (parseCol d).c.tree (parseCol d).c.set) := by
  show execColDownRx s = _
  rw [execColDownRx, State.colTake_front hq hl ht, h]
  simp only [hc]

theorem exec_colDownRx_result {y : ColChunk}
    (hc : (s.hubPop 6).chunk? (parseCol d).c.tree (parseCol d).c.gen (parseCol d).c.csn (parseCol d).c.idx = some y) (hh : y.h = (parseCol d).c.h)
    (hst : y.st = .downwait) : exec .colDownRx s =
      .next (((s.hubPop 6).bump Ctr.COL_DOWN_PKT_COUNT).toForward { y with acc := { (parseCol d).x with data := pay } }).settleCol := by
  show execColDownRx s = _
  rw [execColDownRx, State.colTake_front hq hl ht, h]
  simp only [hc]
  rw [if_neg (not_not.2 hh), if_neg (not_not.2 hst)]

end

theorem exec_colAbortRx (ht : Hdr.type d.hdr = 0x22) (hv : (s.hubPop 6).treeValid (parseCol d).c.set (parseCol d).c.tree = true)
    (hg : (s.hubPop 6).treeGen (parseCol d).c.set (parseCol d).c.tree = (parseCol d).c.gen)
    (he : ((s.hubPop 6).colTree (parseCol d).c.tree).error = false) : exec .colAbortRx s =
      .next ((s.hubPop 6).treeError (parseCol d).c.tree (parseCol d).c.set (d.field 37 0 16) (d.field 40 0 20) (some port)) := by
  show execColAbortRx s = _
  rw [execColAbortRx, State.colTake_front hq hl ht]
  exact congrArg Host.Outcome.next (if_neg (by simp [hv, hg, he]))

end

/-! ### Inputs and results of a chunk (R422, R423) -/

/-- R434: the operation `o` is open from its first input. -/
def State.openedBy (s : State) (o : Nat) : State :=
  { s with col := { s.col with opens := if (Tbl.find? s.col.opens o).isSome then s.col.opens else Tbl.ins s.col.opens o s.nowAt } }

theorem State.ctr_openedBy (s : State) (o c : Nat) : (s.openedBy o).ctr c = s.ctr c := State.ctr_of_ctrs (State.with_col_ctrs s _) c

section
variable {s : State} {n c : ColChunk} {p : Nat} {x : ColIn} (hc : c = (s.chunk? n.tree n.gen n.csn n.idx).getD n) (hh : c.h = n.h)
  (hone : ¬ (n.h.op = 1 ∧ c.acc.present = true ∧ x.present = true)) (hp : p < 64)
include hc hh hone hp

/-- R423: an input joins the chunk's sum, which is ready with the last one. -/
theorem State.colInput_joins (hst : c.st = .gather) (hnew : ¬ p ∈ c.folded) (hsto : c.stored = []) (hslot : s.slotFree n.set n.tree n.gen = true)
    (hord : n.h.inOrder = false) : ∃ (u : State) (y : ColChunk),
      s.colInput n p x = (u.setChunk y).settleCol ∧ y.folded = c.folded ++ [p] ∧ y.acc = (if c.folded.isEmpty then x else n.h.combine c.acc x) ∧
      y.st = (if s.treeInputs n.set n.tree ≤ c.folded.length + 1 then .ready else .gather) ∧ u.ctr Ctr.COL_UP_PKT_COUNT = s.ctr Ctr.COL_UP_PKT_COUNT + 1 := by
  obtain ⟨o, ho⟩ : ∃ o, o = n.tree * 2 ^ 24 + n.csn := ⟨_, rfl⟩
  obtain ⟨w, hw⟩ : ∃ w, w = { s.colTree n.tree with seen := max (s.colTree n.tree).seen (n.csn + 1) } := ⟨_, rfl⟩
  obtain ⟨y, hy⟩ : ∃ y, y = if s.treeInputs n.set n.tree ≤ c.folded.length + 1 then { c.fold p x with st := .ready } else c.fold p x := ⟨_, rfl⟩
  refine ⟨((s.openedBy o).bumpIf (decide (p < 64)) Ctr.COL_UP_PKT_COUNT).setColTree n.tree w, y, ?_, ?_, ?_, ?_, ?_⟩
  · unfold State.colInput
    extract_lets t x0 k order c1 c2 o' src s1
    obtain rfl : k = c := hc.symm
    rw [if_neg (by simp [hh, hone]), if_neg (by simp [t, hst, hnew, hsto, hslot])]
    have hc1 : c1 = k.fold p x := by
      show (if _ then _ else _) = _
      rw [if_neg (by simp [hord]), hsto]
      rfl
    have hc2 : c2 = y := by
      show (if c1.folded.length ≥ s.treeInputs n.set n.tree then { c1 with st := .ready } else c1) = y
      rw [hy, hc1, ColChunk.fold, List.length_append, List.length_singleton]
    rw [hc2, hw, ho]
    rfl
  · rw [hy]
    split <;> rfl
  · rw [hy, ← hh]
    split <;> rfl
  · rw [hy]
    split
    · rfl
    · exact hst
  · rw [State.ctr_of_ctrs (State.setColTree_ctrs _ _ _), State.bumpIf_true _ _ (decide_eq_true hp), State.ctr_bump_self, State.ctr_openedBy]

theorem State.colInput_overruns (h : c.st ≠ .gather ∨ p ∈ c.folded ∨ s.slotFree n.set n.tree n.gen = false) :
    s.colInput n p x = s.colOverrun n.tree n.set := by
  simp only [State.colInput, ← hc]
  rw [if_neg (by simp [hh, hone]), if_pos]
  obtain h | h | h := h
  · exact .inl h
  · exact .inr (.inl (by simpa using h))
  · exact .inr (.inr (.inr ⟨hp, by simp [h]⟩))

end

theorem State.toForward_free {s : State} {c : ColChunk} (h : s.forwarding c.tree = none) : s.toForward c = s.forward c := if_neg (by simp [h])

theorem State.toForward_held {s : State} {c : ColChunk} (h : (s.forwarding c.tree).isSome = true) :
    s.toForward c = s.setChunk { c with st := .held } := if_pos h

/-! ### The limit of an operation (R434) -/

theorem exec_colOpTimeout {s : State} {t : Nat} (hl : s.live = true) (hv : s.treeValid s.crs.active t = true) (ha : s.crs.active < 2)
    (hroot : s.treeRoot s.crs.active t = true) (hlim : s.g Reg.COL_CFG.op_limit ≠ 0)
    (ho : ∃ e ∈ s.col.opens, e.1 / 2 ^ 24 = t ∧ s.g Reg.COL_CFG.op_limit ≤ s.over e.2) :
    exec (.colOpTimeout t) s = .next (s.treeError t s.crs.active 0x0C05 s.me none) := by
  have hany : s.col.opens.any (fun e => e.1 / 2 ^ 24 == t && decide (s.g Reg.COL_CFG.op_limit ≤ s.over e.2)) = true := by
    obtain ⟨e, hmem, htree, hover⟩ := ho
    exact List.any_eq_true.2 ⟨e, hmem, by simp only [htree, hover, beq_self_eq_true, decide_true, Bool.and_self]⟩
  have hone : ((s.treeValid 0 t && s.treeRoot 0 t) || (s.treeValid 1 t && s.treeRoot 1 t)) = true := by
    obtain h | h : s.crs.active = 0 ∨ s.crs.active = 1 := by omega
    · rw [h] at hv hroot
      simp [hv, hroot]
    · rw [h] at hv hroot
      simp [hv, hroot]
  show execColOpTimeout t s = _
  rw [execColOpTimeout]
  exact if_pos ⟨hl, hone, hlim, hany⟩

/-! ### The obligation -/

/-- Settles O50: entries, trees and their commands, chunks, and packets, one lemma for each. -/
theorem collectives : Obligations.Collectives := by
  unfold Obligations.Collectives
  refine ⟨⟨?_, ?_, ?_, ?_, ?_, ?_, ?_, ?_, ?_, ?_⟩, ?_, ?_, ?_, ?_, ?_, ?_, ?_, ?_, ?_⟩
  · intro s q v e
    refine ⟨exec_colJoin, exec_colLeave, fun m h hok hcsn herr hm => exec_colOp h hok hcsn herr hm, fun m => ?_, exec_colOp_error⟩
    obtain ⟨o, hops, hq, hep, htree, hcsn, hh, hnext, hset⟩ := s.colAccept_ops q v e m
    exact ⟨o, hops, hq, hep, htree, hcsn, hh, hnext, hset, s.colAccept_member q v e m⟩
  · exact fun s t ep x d hv hm hroom hx hd hdom hlen => State.colJoin_ok hv hm hroom hx hd hdom hlen
  · exact fun s t ep hv => State.colJoin_unused hv
  · exact fun s req t w v ht hw h => exec_colTreeWrite ht hw h
  · exact fun s req h => ⟨colCmdReg, _, locPf_colCmdReg, fun op => rfl, congrArg Host.Outcome.next (State.access_colCmd (by decide) h),
      congrArg Host.Outcome.next (State.access_colCmd (by decide) h)⟩
  · rintro s req t hm rfl
    refine ⟨State.colRun_key hm, State.colRun_key_closed hm, fun he => ?_, ?_⟩
    · rw [State.colRun_resume_eq hm, if_pos (by simp [he])]
    · rintro c k rfl rfl he
      refine ⟨fun h2 h47 hseen => ?_, fun h => ?_⟩
      · rw [State.colRun_resume_eq hm, if_neg (not_not.2 he), if_neg (by omega)]
      · rw [State.colRun_resume_eq hm, if_neg (not_not.2 he), if_pos h]
  · exact fun s req op hm => s.colRun_unmanaged req op hm
  · exact fun s req v hv => s.colCmd_runs req hv
  · exact fun s t h => exec_treeResumeEffect_other t h
  · intro s t k c h0 hr he hle hb
    obtain ⟨htree, hmembers⟩ := State.treeResume_due hr he hle hb
    exact ⟨_, exec_treeResumeEffect h0, htree, hmembers, State.treeResume_stays t (Has.refl _) (Stays.refl s)⟩
  · intro s t ep hm o e hr he hmode
    exact ⟨exec_memberChunkRead_none hr he hmode, fun f a u h3 h1 hx => exec_memberChunkRead_fault hr he hmode h3 h1 hx,
      fun l d u h3 h1 hx hd => ⟨_, _, rfl, rfl, exec_memberChunkRead_data hr he hmode h3 h1 hx hd⟩⟩
  · exact fun s t c hn hl hroot => exec_chunkSendUp hn hl hroot
  · rintro s _ d port type _ r _ c hc hq hl ht rfl rfl rfl
    have drops {x : State} (h : ∀ take, (s.hubPop 6).colChecked d type port take = x) : exec c s = .next x := exec_colRx hq hl hc ht h
    refine ⟨fun h => drops fun take => State.colChecked_gen take h, fun hv hg => ⟨fun he => drops fun take => State.colChecked_error hv hg take he,
      fun he => ⟨fun hp => drops fun take => State.colChecked_port hv hg he take hp, fun hup hdown => ?_⟩⟩⟩
    have hp := State.not_colWrongPort hup hdown
    refine ⟨fun hs => drops fun take => State.colChecked_stale hv hg he hp take hs,
      fun hs => ⟨fun ho => drops fun take => State.colChecked_forged hv hg he hp hs take ho, fun pay ho => ?_⟩⟩
    have takes (take : State → ColPkt → State) := State.colChecked_takes hv hg he hp hs take ho
    simp only [List.mem_cons, List.not_mem_nil, or_false, Prod.mk.injEq] at hc
    obtain ⟨rfl, rfl⟩ | ⟨rfl, rfl⟩ := hc
    · exact ⟨fun _ => exec_colUpRx_takes hq hl ht takes, fun h => absurd h (by decide), fun y h => absurd h (by decide)⟩
    · exact ⟨fun h => absurd h (by decide), fun _ hc => exec_colDownRx_unknown hq hl ht takes hc,
        fun y _ hc hh hst => exec_colDownRx_result hq hl ht takes hc hh hst⟩
  · intro s d port g t r hq hl
    refine ⟨?_, fun ht => congrArg Host.Outcome.next (State.colTake_foreign hq hl (by decide) ht _)⟩
    rintro ht rfl rfl hv hg he
    exact exec_colAbortRx hq hl ht hv hg he
  · exact fun s n c p x hc hh hone hp => ⟨fun hst hnew hsto hslot hord => State.colInput_joins hc hh hone hp hst hnew hsto hslot hord,
      State.colInput_overruns hc hh hone hp⟩
  · exact fun s c => ⟨State.toForward_free, State.toForward_held⟩
  · exact fun s t g reason o f he => s.treeError_enters t g reason o f he
  · exact fun s t hl hv ha hroot hlim ho => exec_colOpTimeout hl hv ha hroot hlim ho
  · exact fun s hl => ⟨congrArg Host.Outcome.next (State.colTake_stopped _ _ hl), congrArg Host.Outcome.next (State.colTake_stopped _ _ hl),
      congrArg Host.Outcome.next (State.colTake_stopped _ _ hl)⟩

end Sys2Proof.Machine
end
